-- ==== Sys2Proof/Word.lean ====
section
/-! DEFINITION. The word types of the manual (R9, R12) and the map type in which State keeps its indexed registers. -/
namespace Sys2Proof

/-- One byte of a register, a ring entry or a memory. -/
abbrev Byte := BitVec 8

/-- A ruling time-stamp: bits [63:16] the line, bits [15:0] the tick (R12). -/
abbrev Stamp := BitVec 64

/-- State keyed by number: the pairs that differ from the default of the field that holds them. -/
abbrev Map (α : Type) := List (Nat × α)

end Sys2Proof
end

