-- ==== Sys2Proof/Syntax.lean ====
section
/-! DEFINITION. The commands of the block: one constructor of `Instr` for each row of spec/opcode_table.json, with the
operands that reach the device with it. -/
namespace Sys2Proof

/-- The two tiers of memory (R97). -/
inductive Tier where
  | fast | cap
deriving DecidableEq, Repr

/-- The cadence sources of R31. -/
inductive Src where
  | cadenceIn | rulingMaster | disciplined | free
deriving DecidableEq, Repr

/-- On whose behalf an access is made (byte 31 of R161, R98). -/
inductive Requester where
  | part (p : Nat)      -- a command on a partition's ring, or an access of a partition whose unit is not told
  | core (p n : Nat)    -- logical core n of partition p
  | queue (p q : Nat)   -- command queue q of partition p
  | serving (p : Nat)   -- the step composer or another serving unit working for partition p
  | flourish (p : Nat)  -- Flourish working for partition p
  | admin               -- a command on the admin ring, on no partition's behalf
  | peer (p : Nat)      -- a Ductus peer, executed as partition p (R359)
  | window              -- CXL.mem (R117)
  | device              -- a device unit
deriving DecidableEq, Repr

/-- A submission entry as the device holds it (R65), with what its extended buffer read as. -/
structure Cmd where
  fn : Nat              -- function 0 (PF) to 4
  ring : Nat            -- submission ring index on that function
  tag : BitVec 16
  flags : BitVec 16
  len : Nat             -- LENGTH
  extAddr : Nat
  payload : List Byte   -- the 48 inline bytes
  ext : List Byte       -- bytes of the extended buffer, as host memory returned them
  good : Nat            -- bytes of the extended buffer, from its start, that host memory returned
  stamp : Stamp         -- latched at the doorbell (R70)
deriving DecidableEq, Repr

/-- A read of a register by a function's host software: its size in bytes (R55). -/
structure RegRead where
  fn : Nat
  size : Nat
deriving DecidableEq, Repr

/-- A write of a register: its value and its size in bytes (R55). -/
structure RegWrite where
  value : BitVec 32
  size : Nat
deriving DecidableEq, Repr

/-- What host software did to host memory before a doorbell: bytes stored, and ranges that no longer answer (R69). -/
structure HostWrites where
  bytes : List (Nat × Byte)
  faults : List (Nat × Nat)
deriving DecidableEq, Repr

/-- The register fields of a core instruction word (R219). -/
structure Fields where
  a : BitVec 6
  b : BitVec 6
  c : BitVec 6
  imm : BitVec 38
deriving DecidableEq, Repr

/-- Where a write or contribution comes from: a core's queue, or another requester with its bytes. -/
inductive WriteSrc where
  | storeQueue (core : Nat)
  | direct (r : Requester) (dpa : Nat) (bytes : List Byte) (poison : Bool)
deriving DecidableEq, Repr

/-- A memory-side contribution (R164, R172). -/
structure Contribution where
  dpa : Nat
  op : Nat
  mask : BitVec 32
  operand : List Byte
  poison : Bool
  order : Option (Nat × Nat)   -- context, sequence
deriving DecidableEq, Repr

inductive ContribSrc where
  | core (core : Nat)                                     -- the oldest PATOM or FATOM of a core
  | direct (r : Requester) (c : Contribution)
deriving DecidableEq, Repr

/-- A Ductus message (R356). -/
structure Msg where
  op : Nat
  poison : BitVec 3
  dest : Nat
  part : Nat
  flood : Bool
  source : Nat
  hops : Nat
  tag : BitVec 16
  fields : List Byte           -- bytes 8-15 of the header slot
  second : Option (List Byte)  -- the second slot
  data : List (List Byte)      -- data granules of 64 B
deriving DecidableEq, Repr

/-- A received flit with what its FEC and its integrity unit report (R351, R355). -/
structure FlitIn where
  bytes : List Byte            -- 256 bytes, in clear
  fecOk : Bool
  tagOk : Bool                 -- with ENC, the AES-256-GCM tag matched
  corrected : Nat              -- bits the FEC corrected
deriving DecidableEq, Repr

/-- Requests of SPDM 1.3: those that R361 supports, and every other one. -/
inductive SpdmReq where
  | version | capabilities | algorithms | digests | certificate | challenge | measurements | keyExchange | finish | heartbeat | keyUpdate | other
deriving DecidableEq, Repr

/-- What an SPDM message brings (R361, R362): a fragment that is not the last; a complete request of the peer; the peer's answer to this
device's request, whether it verifies, or a portion of a certificate chain of which more is to come; the end of the peer's turn as requester. -/
inductive SpdmStep where
  | fragment | request (q : SpdmReq) | response (ok : Bool) | portion | complete | fail | heartbeatReply | challengeReply (ok : Bool)
  | tagFailures (n : Nat) | keyUpdated
deriving DecidableEq, Repr

/-- A fitted memory unit found at bring-up (R91, R94, R393). -/
structure MemUnit where
  kind : Nat                   -- sites: 1 HBM3E, 2 HBM4; ports: 1 RCM-6, 2 CAMM2, 3 other module
  gib : Nat                    -- capacity of the stack or module
  signature : BitVec 64        -- first 8 B of the digest of its identity data
deriving DecidableEq, Repr

/-- What the stage machines of one bring-up stage report when the stage ends (R388). -/
structure StageReport where
  sites : Map MemUnit                        -- stage 3a: stacks present
  ports : Map MemUnit                        -- stage 3a: modules present
  trainFail : List (Tier × Nat)           -- channels that fail training with every spare lane used
  repairs : List (Nat × Nat × Nat)        -- fast channel, failed lane, spare lane
  test : List (Tier × Nat × Nat × Nat)    -- stage 3b: tier, channel, CE granules, UE granules
  kat : List Nat                          -- physical cores that fail (40q + i)
  adders : List (Tier × Nat)
  expanders : List Nat
  pipes : List Nat
  bridge : Bool                           -- the bridge's known-answer run passes
  serving : Bool                          -- the serving block's runs pass
  linkFail : List (Nat × Nat)             -- stage 4: link, reason
deriving DecidableEq, Repr

/-- What a traffic generator measured at its port (R159). -/
structure TrafficResult where
  read : Nat
  written : Nat
  ns : Nat
  meanNs : Nat
  maxNs : Nat
  withheld : Nat
deriving DecidableEq, Repr

structure TestFinding where
  tier : Tier
  channel : Nat
  ce : Nat
  ue : Nat
  tested : Nat
deriving DecidableEq, Repr

/-- A management request's outcome inputs (R403, R418): component, transfer bytes, result. -/
structure MgmtReq where
  offset : Nat
  bytes : List Byte
  ok : Bool
deriving DecidableEq, Repr

/-- Which sensors a PLDM monitoring request reads (R418). -/
inductive Sensor where
  | power | site (n : Nat) | port (n : Nat) | state
deriving DecidableEq, Repr

/-- The commands of the block. -/
inductive Instr where
  -- ruling (spec/02)
  | lineBoundary
  | cadenceEdge (ns : Nat)             -- ns since the instant of the command before it
  | cadenceEdgeMissing
  | holdoverExpire
  | markerLoss
  | disciplineStale
  | election
  | triggerEdge (rising : Bool) (ns : Nat)
  | alarmFire
  | rulingStatus (c : Cmd)
  | rulingSetSources (c : Cmd)
  | rulingSetPeriod (c : Cmd)
  | rulingDiscipline (c : Cmd)
  | rulingLoad (c : Cmd)
  | rulingAlarm (c : Cmd)
  | rulingTriggerSet (c : Cmd)
  -- Inkwell (spec/03)
  | inkwCtrlEn (fn : Nat) (en : Bool)
  | detach (fn : Nat)
  | stampLoRead (r : RegRead)
  | inkwConIn (fn : Nat) (v : BitVec 32)
  | ringCfgWrite (fn n : Nat) (v : BitVec 32)
  | submissionDoorbell (fn n : Nat) (v : BitVec 32) (host : HostWrites)
  | headDoorbell (fn n : Nat) (v : BitVec 32)
  | registerWrite (fn offset : Nat) (v : RegWrite)
  | ringVisit (fn n : Nat)
  | coalesceTimeout (fn n : Nat)
  | identify (c : Cmd)
  | opcodeMap (c : Cmd)
  | claim (c : Cmd)
  | release (c : Cmd)
  | claimQuery (c : Cmd)
  | abort (c : Cmd)
  | eventFilter (c : Cmd)
  | echo (c : Cmd)
  | functionLevelReset (fn : Nat)
  | numvfsWrite (k : Nat)
  -- the address map (spec/04)
  | memQuery (c : Cmd)
  | memRegionSet (c : Cmd)
  | memRegionGet (c : Cmd)
  | memLocate (c : Cmd)
  | memCopy (c : Cmd)
  | memFill (c : Cmd)
  | memCacheOp (c : Cmd)
  | memWindowSet (c : Cmd)
  | memWindowClear (c : Cmd)
  | memTest (c : Cmd)
  | cacheControlWrite (r : Requester) (p : Nat) (bytes : List Byte)
  | cacheControlDone (p : Nat)
  | cxlMemRead (dpa : Nat)
  | cxlMemWrite (dpa : Nat) (bytes : List Byte)
  | hdmDecoderCommit
  | memoryRead (r : Requester) (dpa len : Nat)
  | memoryWrite (w : WriteSrc)
  | partialWrite (r : Requester) (dpa : Nat) (bytes : List Byte)
  -- memory service (spec/05)
  | agingPromotion (tier : Tier) (channel entry : Nat)
  | regulatorPhase
  | regulatorRelease (reg : Nat)
  | thermalSample (temps : List (Tier × Nat × Int))
  | scrubStep (die : Nat) (tier : Tier)
  | channelRetrain (tier : Tier) (channel errors : Nat)
  | retrainComplete (tier : Tier) (channel : Nat) (ok spare lost : Bool)
  | memRegSet (c : Cmd)
  | memClassSet (c : Cmd)
  | memThermalLoad (c : Cmd)
  | memThermalClear (c : Cmd)
  | memThermalQuery (c : Cmd)
  | memErrRead (c : Cmd)
  | memErrCounters (c : Cmd)
  | memScrubSet (c : Cmd)
  | memTraffic (c : Cmd)
  | memTrafficEnd (port : Nat) (m : TrafficResult)
  -- arithmetic beside memory (spec/06)
  | contribution (w : ContribSrc)
  | contributionResend
  | arithApply (c : Cmd)
  | arithOrderOpen (c : Cmd)
  | arithOrderClose (c : Cmd)
  | resGather (c : Cmd)
  | resStatus (c : Cmd)
  | reservoirDoorbell (port channel slot : Nat)
  | reservoirSlotDone (port channel slot : Nat)
  -- folding (spec/07)
  | foldBasisLoad (c : Cmd)
  | foldBasisUnload (c : Cmd)
  | foldBasisQuery (c : Cmd)
  | foldLayoutLoad (c : Cmd)
  | foldLayoutUnload (c : Cmd)
  | foldExpand (c : Cmd)
  | foldVerify (c : Cmd)
  | foldFaultRead (c : Cmd)
  | foldCounters (c : Cmd)
  | blockExpand (expander : Nat)
  | basisCacheFill (expander : Nat)
  -- core instructions (spec/08)
  | add (core : Nat) (f : Fields)
  | sub (core : Nat) (f : Fields)
  | mul (core : Nat) (f : Fields)
  | and (core : Nat) (f : Fields)
  | or (core : Nat) (f : Fields)
  | xor (core : Nat) (f : Fields)
  | shl (core : Nat) (f : Fields)
  | shr (core : Nat) (f : Fields)
  | sra (core : Nat) (f : Fields)
  | li (core : Nat) (f : Fields)
  | ld (core : Nat) (f : Fields)
  | st (core : Nat) (f : Fields)
  | br (core : Nat) (f : Fields)
  | csr (core : Nat) (f : Fields)
  | halt (core : Nat) (f : Fields)
  | vadd (core : Nat) (f : Fields)
  | vsub (core : Nat) (f : Fields)
  | vmul (core : Nat) (f : Fields)
  | vfma (core : Nat) (f : Fields)
  | vmax (core : Nat) (f : Fields)
  | vmin (core : Nat) (f : Fields)
  | vexp2 (core : Nat) (f : Fields)
  | vrcp (core : Nat) (f : Fields)
  | vrsqrt (core : Nat) (f : Fields)
  | vdup (core : Nat) (f : Fields)
  | vld (core : Nat) (f : Fields)
  | vst (core : Nat) (f : Fields)
  | vcvt (core : Nat) (f : Fields)
  | vsum (core : Nat) (f : Fields)
  | vperm (core : Nat) (f : Fields)
  | mma (core : Nat) (f : Fields)
  | mmast (core : Nat) (f : Fields)
  | xrd (core : Nat) (f : Fields)
  | xrdComplete (core : Nat)
  | xwr (core : Nat) (f : Fields)
  | xexp (core : Nat) (f : Fields)
  | xexpComplete (core : Nat)
  | fold (core : Nat) (f : Fields)
  | patom (core : Nat) (f : Fields)
  | fatom (core : Nat) (f : Fields)
  | fatomComplete (core : Nat)
  | fence (core : Nat) (f : Fields)
  | fenceComplete (core : Nat)
  | tsig (core : Nat) (f : Fields)
  | twait (core : Nat) (f : Fields)
  | twaitTimeout (core : Nat)
  | lclaim (core : Nat) (f : Fields)
  | tallyValueWrite (r : Requester) (tally : Nat) (v : BitVec 32)
  | tallyAddWrite (r : Requester) (tally : Nat) (v : BitVec 32)
  -- quire commands (spec/08)
  | kernel (p q : Nat)
  | kernelStart (p q : Nat)
  | kernelComplete (p q : Nat)
  | copy (p q : Nat)
  | foldCopy (p q : Nat)
  | reduce (p q : Nat)
  | gatherRes (p q : Nat)
  | tallySignal (p q : Nat)
  | tallyWait (p q : Nat)
  | tallyWaitTimeout (p q : Nat)
  | markBegin (p q : Nat)
  | markEnd (p q : Nat)
  | stepBegin (p q : Nat)
  | stepEnd (p q : Nat)
  | ledgerFill (p q : Nat)
  | queueAdvance (p q : Nat)
  | coreMap (c : Cmd)
  | partConfig (c : Cmd)
  | quireSubmit (c : Cmd)
  | queueControl (c : Cmd)
  | tallyOp (c : Cmd)
  | ledgerConfig (c : Cmd)
  | ledgerQuery (c : Cmd)
  | coreFaultRead (c : Cmd)
  -- requests, pages and prefixes (spec/09)
  | modelLoad (c : Cmd)
  | modelUnload (c : Cmd)
  | pagePoolConfig (c : Cmd)
  | pageMapConfig (c : Cmd)
  | reqSubmit (c : Cmd)
  | reqQuery (c : Cmd)
  | reqCancel (c : Cmd)
  | reqPause (c : Cmd)
  | reqResume (c : Cmd)
  | reqRetire (c : Cmd)
  | prefixLookup (c : Cmd)
  | prefixPin (c : Cmd)
  | prefixUnpin (c : Cmd)
  | prefixFlush (c : Cmd)
  | pageStats (c : Cmd)
  | parkCopyDone (entry : Nat)
  | ttlExpire (entry : Nat)
  | restoreDone (entry : Nat)
  | summaryFoldDone (entry : Nat)
  -- the step (spec/10)
  | stepConfig (c : Cmd)
  | stepConfirm (c : Cmd)
  | stepControl (c : Cmd)
  | stepWatchdogSet (c : Cmd)
  | reqLatency (c : Cmd)
  | frameSlotConfig (c : Cmd)
  | framePost (c : Cmd)
  | expertConfig (c : Cmd)
  | expertBiasSet (c : Cmd)
  | expertQuery (c : Cmd)
  | stepProposal (p : Nat)
  | stepRunAdvance (p : Nat)
  | stepWatchdog (p : Nat)
  -- Flourish (spec/11)
  | flourishConfig (c : Cmd)
  | grammarLoad (c : Cmd)
  | grammarUnload (c : Cmd)
  | flourishProbe (c : Cmd)
  | flourishCounters (c : Cmd)
  -- Ductus (spec/12)
  | linkInit (l : Nat) (f : FlitIn)
  | probe (l : Nat) (t1 t2 t3 t4 : Nat)
  | berMeasureEnd (l : Nat) (corrected uncorrectable received : Nat)
  | trainAttemptTimeout (l : Nat)
  | fecLockLoss (l : Nat)
  | linkRetrainEnd (l : Nat) (ok : Bool)
  | dataFlit (l : Nat) (f : FlitIn)
  | replayTimeout (l : Nat)
  | creditStall (l channel : Nat)
  | read (l : Nat) (m : Msg)
  | write (l : Nat) (m : Msg)
  | contrib (l : Nat) (m : Msg)
  | signal (l : Nat) (m : Msg)
  | readData (l : Nat) (m : Msg)
  | compl (l : Nat) (m : Msg)
  | retry (l : Nat) (m : Msg)
  | lineMarker (l : Nat) (m : Msg)
  | slow (l : Nat) (m : Msg)
  | advert (l : Nat) (m : Msg)
  | collReady (l : Nat) (m : Msg)
  | collAbortReceived (l : Nat) (m : Msg)
  | concord (l : Nat) (m : Msg)
  | spdm (l : Nat) (e : SpdmStep)
  | remoteTimeout (tag : BitVec 16)
  | heartbeat (l : Nat)
  | challengeTimer (l : Nat)
  | keyUpdate (l : Nat)
  | collectiveBegin (id : Nat)
  | collTimeout (id : Nat)
  | loopbackEnd (l : Nat) (corrected uncorrectable received : Nat)
  | linkStatus (c : Cmd)
  | linkSet (c : Cmd)
  | linkReset (c : Cmd)
  | linkLoopback (c : Cmd)
  | groupConfig (c : Cmd)
  | groupRejoin (c : Cmd)
  | groupStatus (c : Cmd)
  | collStart (c : Cmd)
  | collAbort (c : Cmd)
  | linkCounters (c : Cmd)
  -- power, resets, settings, firmware, licences, management (spec/13, spec/15)
  | aonResetNRelease (straps : BitVec 4)
  | perstNFall
  | perstNRelease
  | conventionalReset
  | bringupStageEnd (r : StageReport)
  | stageTimeout
  | scribeWatchdog
  | domainPowerTimeout (domain : Nat)
  | enterFaulted
  | powerSample (watts : Nat)
  | junctionSample (maxC : Nat)
  | supplyLoss
  | computeResetEnd (p : Nat) (failed : List Nat)
  | capEntryDone
  | capWakeN
  | capWakeDone
  | fwSessionTimeout
  | faultLogRead (c : Cmd)
  | reset (c : Cmd)
  | bringupConfig (c : Cmd)
  | defectMapRead (c : Cmd)
  | defectMapClear (c : Cmd)
  | settingsRead (c : Cmd)
  | settingsWrite (c : Cmd)
  | settingsCommit (c : Cmd)
  | fwWrite (c : Cmd)
  | fwActivate (c : Cmd) (sig : Bool)
  | fwStatus (c : Cmd)
  | licenceInstall (c : Cmd) (sig : Bool)
  | licenceQuery (c : Cmd)
  | powerCapEnter (c : Cmd)
  | powerCapExit (c : Cmd)
  | powerStatus (c : Cmd)
  | queryDeviceIdentifiers
  | getFirmwareParameters
  | requestUpdate
  | passComponentTable (m : MgmtReq)
  | updateComponent (m : MgmtReq)
  | requestFirmwareData (m : MgmtReq)
  | transferComplete (m : MgmtReq)
  | verifyComplete (m : MgmtReq)
  | applyComplete (m : MgmtReq)
  | activateFirmware (sig : Bool)
  | getStatus
  | cancelUpdate
  | pldmSensorRequest (x : Sensor)
  | getVersion
  | getCapabilities
  | negotiateAlgorithms
  | getDigests
  | getCertificate
  | challenge
  | getMeasurements
  -- observation (spec/14)
  | obsCounters (c : Cmd)
  | obsLatchRead (c : Cmd)
  | obsProgConfig (c : Cmd)
  | obsProgRead (c : Cmd)
  | obsTraceConfig (c : Cmd)
  | obsTraceControl (c : Cmd)
  | obsRangeSelect (c : Cmd)
  | obsRangeRead (c : Cmd)
  | obsWatchSet (c : Cmd)
  | obsDigest (c : Cmd)
  | obsDigestArm (c : Cmd)
  | obsStepMode (c : Cmd)
  | obsStepNext (c : Cmd)
  | obsBlotterRead (c : Cmd)
  | obsFreeze (c : Cmd)
  | pcSample (core : Nat)
  | traceDrainBurst (instance_ : Nat)
  | stepLimitTimeout (p q : Nat)
  -- the test port (spec/15)
  | bypass
  | idcode
  | samplePreload
  | extest
  | clamp
  | highz
  -- rows added at the end of the table
  | fecAlignmentLock (l : Nat)
  | challengeUnanswered (l : Nat)
  | memTestEnd (findings : List TestFinding)
  | illegal (core : Nat) (word : BitVec 64)
  | imageVerified (sigA sigB : Bool)
  | hdmDecoderUncommit
  | aonResetNAssert
deriving DecidableEq, Repr

end Sys2Proof
end

