-- ==== Sys2Proof/Decode.lean ====
section
/-! DEFINITION. The command that a word spells. No row of spec/opcode_table.json gives its command any bits, so no word spells
one. -/
namespace Sys2Proof

/-- The command of a word whose bits are numbered as the table numbers them: none, since no row has bits. -/
def decodeTableWord (_nbits _w : Nat) : Option Instr := none

end Sys2Proof
end

