-- ==== Sys2Proof/Config.lean ====
section
/-! DEFINITION. What one device fixes and what the manual leaves open. The opaque constants are free values: nothing in
Lean can evaluate them, so a claim holds for every value of them (log 13). -/
namespace Sys2Proof

/-- The n-th byte of contents that the manual calls indeterminate (R105, R197, R225, R249). -/
opaque Config.freeByte : Nat → Byte

/-- The byte at an address whose contents became indeterminate for the g-th time (R105, R197, R225). -/
opaque Config.freeCell : Nat → Nat → Byte

/-- The n-th word of a value for which the manual states no result (log 13). -/
opaque Config.freeWord : Nat → BitVec 64

/-- The fused device unique ID (R81, R405): no value is given, so the model fixes one (log 10). -/
def Config.uniqueId : Nat := 0xB88000000001

/-- Whether the signature of a licence record verifies against the licence key in ROM, of which the manual gives no value (R408). -/
opaque Config.licenceSig : List Byte → Bool

/-- Manufacturer field of the test port's IDCODE, given only by the BSDL file (R463). -/
opaque Config.jtagManufacturer : BitVec 11

/-- The licensed logical core count of a variant code of INKW_IDENT.VARIANT (R5, R57). -/
def Config.licensedCores : Nat → Nat
  | 1 => 144 | 2 => 128 | 3 => 96 | _ => 0

/-- The licensed device power limit in watts (R5). -/
def Config.powerLimit : Nat → Nat
  | 1 => 1150 | 2 => 1000 | 3 => 850 | _ => 0

/-- Core clock at full rate and its floor in MHz (R22, R383). -/
def Config.clockMax : Nat := 1600
def Config.clockMin : Nat := 800

/-- Regions of the fast and capacity tiers (R97). -/
def Config.fastRegions : Nat := 512
def Config.capRegions : Nat := 4096

/-- Sets and ways of one die's staging cache (R113). -/
def Config.cacheSets : Nat := 32768
def Config.cacheWays : Nat := 12

/-- The set of the staging cache that a line of 256 B lies in, to be taken modulo the number of sets; the manual does not give it (R113). -/
opaque Config.cacheSet : Nat → Nat

/-- AES-256-GCM (R352): the ciphertext and the 16-byte tag that a key, a nonce and the additional data give a plaintext. The keys are SPDM's,
so no value of it is computed (log 11). -/
opaque Config.gcm : List Byte → List Byte → List Byte → List Byte → List Byte

/-- The token of a vector whose division by TEMP leaves no finite score, a function of everything that R328 lists: a free value. -/
opaque Config.freeToken : List Nat → Nat

/-- The backlog of one event ring (R76). -/
def Config.backlog : Nat := 256

end Sys2Proof
end

