-- ==== Sys2Proof/Machine/State.lean ====
section
/-! DEFINITION. The state of the block: every register, table, queue, log and pin the manual gives it, as plain data. The
default of each field is its value right after the release of AON_RESET_N (a cold start, log 2). -/
namespace Sys2Proof.Machine

open Sys2Proof

/-! ### Ruling (spec/02) -/

/-- Holdover under R34: the source lost, lines left, the line period the generator runs at (units of 2^-16 ns) and the instant of the last
boundary. -/
structure Holdover where
  lost : Src
  remaining : Nat
  period : Nat
  base : Nat
deriving DecidableEq, Repr

/-- The judge of CADENCE_IN edges (R33, R36, R53). Instants are in units of 2^-16 ns. -/
structure Cadence where
  valid : Bool := false
  count : Nat := 0
  refEdge : Option Nat := none
  periods : List Nat := []
  rejectAges : List Nat := []         -- lines begun since each edge rejected within the last 64
  lineRejects : Nat := 0
  firstInterval : Nat := 0
deriving DecidableEq, Repr

/-- TRIGGER_IN (R39, R52). -/
structure Trigger where
  config : Option (Bool × Bool × Bool × Nat × Nat) := none  -- rising, falling, post, tally, holdoff ns
  lastAt : Option Nat := none
  lastStamp : Stamp := 0
  taken : BitVec 32 := 0
  ignored : BitVec 32 := 0
  ignoredSince : BitVec 32 := 0
deriving DecidableEq, Repr

structure Alarm where
  stamp : Stamp
  asked : Stamp
  cookie : BitVec 32
deriving DecidableEq, Repr

structure Ruling where
  line : BitVec 48 := 0
  tick : BitVec 16 := 0
  epoch : BitVec 32 := 1
  prefs : List Src := [.free]
  nominal : Nat := 1000000
  period : Nat := 1000000
  limit : Nat := 64
  eligible : Bool := true
  corr : Int := 0
  slew : Int := 0
  pendSources : Option (List Src × Nat × Nat × Bool) := none
  pendPeriod : Option Nat := none
  pendCorr : Option Int := none
  pendLoad : Option (BitVec 48) := none
  pendEpoch : Option (BitVec 32) := none        -- epoch of a group that the device joins (R29, R364)
  pendStep : Option Int := none                 -- carried minus latched stamp, ticks (R41)
  adj : Int := 0                                -- ticks by which slewing shortens the line in progress
  genRem : Nat := 0                             -- fraction of a unit that the corrected periods given so far leave over (R41)
  source : Src := .free
  holdover : Option Holdover := none
  pendSwitch : Option Src := none               -- a valid source waiting for its first boundary (R34)
  cad : Cadence := {}
  glitches : BitVec 16 := 0
  discValid : Bool := false
  discLines : Nat := 0
  markerValid : Bool := false
  markerAt : Nat := 0                           -- arrival of the last accepted marker
  markerBase : Nat := 0                         -- that arrival less the latency, and the line the marker named (R47)
  markerLine : Nat := 0
  rate : Nat := 0                               -- line period to which a follower has slewed, units of 2^-16 ns; 0 before it slews
  offset : Int := 0
  locked : Bool := false
  slewing : Bool := false
  master : Nat := 0xFFFF
  pendMaster : Option Nat := none               -- elected, and takes over at its next boundary (R46)
  follower : Bool := false
  contrary : Nat := 0
  measured : Nat := 1000000
  boundaryAt : Nat := 0
  trig : Trigger := {}
  alarms : List Alarm := []
deriving DecidableEq, Repr

/-! ### Inkwell (spec/03) -/

/-- An event waiting for room in an event ring (R75, R76). -/
structure Event where
  code : Nat
  part : Nat
  epoch : BitVec 32
  stamp : Stamp
  data : List Byte
  droppable : Bool
deriving DecidableEq, Repr

/-- A completion waiting for room in its ring (R66, R68). -/
structure Completion where
  tag : BitVec 16
  status : BitVec 16
  sq : Nat
  stamp : Stamp
  result : List Byte
  irq : Bool
deriving DecidableEq, Repr

/-- One ring of one function (R63, R64, R67 to R70, R74). `other` is the tail or head that host software last wrote. -/
structure Ring where
  base : BitVec 64 := 0
  en : Bool := false
  log2 : Nat := 0
  vector : Nat := 0
  ptr : Nat := 0
  other : Nat := 0
  phase : Bool := true
  stopped : Bool := false
  refetch : Bool := false             -- an entry whose read failed is to be read again (R469)
  held : List Completion := []
  writesHeld : Bool := false
  pendIrq : Nat := 0
  oldest : Option Nat := none
  stamps : Map Stamp := []
deriving DecidableEq, Repr

/-- One PCI Express function's registers (R57, R73, R74, R76, R79). -/
structure Func where
  en : Bool := false
  reason : BitVec 16 := 0
  detail : BitVec 15 := 0
  isNew : Bool := false
  irqStatus : BitVec 19 := 0
  irqMask : BitVec 19 := 0x7FFFF
  coalCount : BitVec 8 := 0
  coalTime : BitVec 16 := 0
  evtLost : BitVec 32 := 0
  stampHi : BitVec 32 := 0
  rings : Map Ring := []
  backlog : List Event := []
  waiting : List Event := []
  lostFlag : Bool := false
  filters : Map (BitVec 256) := []
  conLine : List Byte := []
deriving DecidableEq, Repr

/-- A submission entry fetched and not begun (R65, R71). -/
structure Sub where
  opcode : Nat
  cmd : Cmd
deriving DecidableEq, Repr

/-- What a begun command waits for before it completes. -/
inductive Wait where
  | quire (p q : Nat)
  | request (entry : Nat)          -- REQ_CANCEL, REQ_PAUSE, REQ_RESUME on this ledger entry
  | collective (id : Nat)
  | traffic (port : Nat)
  | memTest
  | gather (id : Nat)
  | apply (id : Nat)
  | basis (id : Nat)
  | order (ctx : Nat)
  | expand (req : Nat)
  | capEnter
  | capExit
  | computeReset (mask : Nat)
  | loopback (l : Nat)
  | flush (inst : Nat)
  | biasSet (key : Nat)
  | rejoin (mask : Nat)
  | disable (p : Nat)
  | abort (n : Nat) (tag : BitVec 16) -- ABORT waits for its target's entry on submission ring n of the PF
deriving DecidableEq, Repr

structure Running where
  opcode : Nat
  cmd : Cmd
  wait : Wait
deriving DecidableEq, Repr

/-- One holding of a resource in a mode (R83); owner 0 to 4 a function, 0xFE the device (R87). -/
structure Holding where
  res : Nat
  mode : Nat
  owner : Nat
deriving DecidableEq, Repr

structure Inkwell where
  funcs : Map Func := []
  fwMajor : BitVec 8 := 0
  fwMinor : BitVec 8 := 0
  variant : BitVec 4 := 0
  ifver : BitVec 32 := 0
  state : BitVec 4 := 0
  seq : BitVec 8 := 0
  con : Map Byte := []
  conPtr : BitVec 14 := 0
  conWraps : BitVec 18 := 0
  numVFs : Nat := 0
  visited : Nat := 0                 -- last ring visited, function * 16 + ring (R72)
  fetched : List Sub := []
  running : List Running := []
  claims : List Holding := []
  msix : List (Nat × Nat) := []      -- function, vector of every message raised (log 12)
deriving DecidableEq, Repr

/-! ### Memory (spec/04) -/

/-- What a granule that nothing has written since the start holds (R471). -/
inductive Fill where
  | zero | march | sampled
deriving DecidableEq, Repr

/-- A stack site or capacity port after bring-up (R81). `gran` is G of R106, granules of 256 B in each channel. -/
structure UnitState where
  kind : Nat := 0
  refused : Bool := false
  gib : Nat := 0
  gran : Nat := 0
  chans : List Nat := []             -- physical IDs of mapped-in channels, increasing
deriving DecidableEq, Repr

/-- A tier's region table: regions below `h` hold the default layout (R103), `over` the entries that MEM_REGION_SET changed. -/
structure Regions where
  h : Nat := 0
  ovr : Map (BitVec 64) := []
deriving DecidableEq, Repr

structure FoldInfo where
  ratio : Nat
  summary : Bool
deriving DecidableEq, Repr

/-- A valid 64 B sector of a staging-cache line (R113, R149); `bad` marks one that fails the array's own code (R148). -/
structure Sector where
  data : List Byte
  dirty : Bool
  poison : Bool
  bad : Bool := false
deriving DecidableEq, Repr

/-- A line of a die's staging cache: 256 B of the device address. -/
structure CacheLine where
  die : Nat
  addr : Nat                          -- DPA div 256
  sectors : Map Sector
deriving DecidableEq, Repr

/-- A status granule of the cache control window; `op` is the status with which the operation under way completes (R98). -/
structure CacheCtl where
  status : BitVec 16 := 0
  busy : Bool := false
  overrun : Bool := false
  count : BitVec 32 := 0
  stamp : Stamp := 0
  op : Option (BitVec 16) := none
deriving DecidableEq, Repr

/-- What the last read returned to its requester (log 12). -/
structure Reply where
  status : BitVec 16
  data : List Byte
  poison : Bool
deriving DecidableEq, Repr

structure Mem where
  fill : Fill := .zero
  chanFill : Map Fill := []           -- channels that MEM_TEST has rewritten since (R389); key tier * 256 + channel
  gens : Map Nat := []                -- regions with indeterminate contents: key tier * 4096 + region, generation (R105)
  granGens : Map Nat := []            -- generation under which a granule was last written
  nextGen : Nat := 1
  cells : List Host.Cell := []
  sites : Map UnitState := []
  ports : Map UnitState := []
  fastMap : List Nat := []            -- tier ordinal map of the fast tier (R99, R109)
  capMap : List Nat := []
  fastRegions : Regions := {}
  capRegions : Regions := {}
  folded : Map FoldInfo := []
  cache : List CacheLine := []
  ctl : Map CacheCtl := []
  window : Option (Nat × Nat) := none
  committed : Bool := false
  reply : Option Reply := none
deriving DecidableEq, Repr

/-! ### Memory service (spec/05) -/

/-- An access that waits at a regulator or in a channel queue (R126, R131). -/
structure Waiting where
  req : Requester
  dpa : Nat
  len : Nat
  data : Option (List Byte × Bool)    -- a write's bytes and poison; a read has none
  cls : Nat
  since : Nat                         -- the instant it came to where it waits
  classAt : Nat := since              -- the instant from which its class's aging limit runs (R127)
deriving DecidableEq, Repr

/-- A token bucket (R129). Rates are in GB/s, 0xFFFF unregulated; the level is in units of 2^-16 B. -/
structure Regulator where
  level : Int := 68719476736
  depth : Nat := 1048576
  rates : List Nat := List.replicate 16 0xFFFF
  pend : Option (Nat × List Nat) := none
  held : List Waiting := []
deriving DecidableEq, Repr

structure Curve where
  points : List (Int × Nat)
  trip : Int
deriving DecidableEq, Repr

/-- The default curve of R139. -/
def Curve.default : Curve := { points := [(0, 10000), (85, 10000), (95, 3000)], trip := 105 }

structure Thermal where
  temp : Int := 0
  share : Nat := 256
  cand : Option Nat := none
  tripped : Bool := false
deriving DecidableEq, Repr

structure Chan where
  failed : Bool := false
  ueAt : List Nat := []               -- instants of its last UE and SCRUB_UE, and of its CE of the last hour (R157)
  ceAt : List Nat := []
  retraining : Bool := false
  fails : Nat := 0
  spares : Nat := 0
  ctr : List Nat := [0, 0, 0, 0, 0, 0, 0, 0]   -- R158: CE, UE, scrub CE, scrub UE, on-die, retrains, drops, poisoned reads
  ceLine : Option (BitVec 48) := none
  dropLine : Option (BitVec 48) := none
  queue : List Waiting := []
  source : List Waiting := []         -- accesses for whose class the queue has no place (R126)
  checkLines : List (Nat × List Byte) := []    -- check lines that a plain CAMM2 controller caches, oldest first (R145)
deriving DecidableEq, Repr

/-- A circular log with its unread count (R158, R161, R215, R250). -/
structure Log where
  recs : List (List Byte) := []
  unread : Nat := 0
  overwritten : Nat := 0
deriving DecidableEq, Repr

/-- A run of the traffic generator (R159). -/
structure TrafficRun where
  pattern : Nat
  cls : Nat
  durUs : Nat
  first : Nat
  last : Nat
  seed : Nat
  wpat : Nat
  buffer : Nat
  tripped : Bool
deriving DecidableEq, Repr

structure TestRun where
  sites : Nat
  ports : Nat
  sampled : Bool
  buffer : Nat
deriving DecidableEq, Repr

structure MemSvc where
  regs : Map Regulator := []
  aging : List Nat := [4, 16, 64]
  traceCap : Nat := 6
  trace : Map Int := [(0, 4294967296), (1, 4294967296)]   -- units of 2^-16 B (R128)
  thermal : Map Thermal := []
  fastCurve : Curve := Curve.default
  capCurve : Curve := Curve.default
  slowSent : Nat := 256
  slowSeq : BitVec 16 := 0
  alert : Bool := false
  chans : Map Chan := []
  errs : Map Log := []
  scrubPos : Map Nat := []
  scrubHeld : Map Nat := []           -- where the scrub stopped in a channel whose unit tripped (R153)
  scrubHours : Map Nat := [(0, 24), (1, 72)]
  traffic : Map TrafficRun := []
  test : Option TestRun := none
deriving DecidableEq, Repr

/-! ### Arithmetic beside memory (spec/06) -/

structure AccEntry where
  key : Nat                           -- physical granule address
  dpa : Nat
  data : List Byte
deriving DecidableEq, Repr

/-- An order context (R171 to R175). `got` counts contributions received by each granule, by granule number in the range. -/
structure OrderCtx where
  dpa : Nat
  len : Nat
  op : Nat
  e : Nat
  refusal : BitVec 16 := 0
  applied : Nat := 0
  retries : Nat := 0
  got : Map Nat := []
  dead : Map Nat := []                -- granules whose unit tripped, with the count received by then (R175)
  coll : Nat := 0                     -- the collective that opened it, 0 when host software did
deriving DecidableEq, Repr

structure Buffered where
  req : Requester
  con : Contribution
  chan : Nat
deriving DecidableEq, Repr

/-- A contribution set aside for want of reorder space, to be sent again 256 ns after `since` (R173); `op` is the ARITH_APPLY or REDUCE
that waits for it. -/
structure Aside where
  req : Requester
  con : Contribution
  since : Nat
  op : Option Nat := none
deriving DecidableEq, Repr

/-- An ARITH_APPLY or REDUCE whose last contributions are set aside (R71, R173): the queue of a REDUCE, how many are left, and the first
status that is not OK. -/
structure Apply where
  id : Nat
  queue : Option (Nat × Nat)
  left : Nat
  status : BitVec 16
deriving DecidableEq, Repr

/-- One of the 24 descriptor slots of a port's RB-2 with its result slot (R179): slot = presented channel * 4 + k. State 0 FREE, 1 RUN,
2 DONE, 3 ERROR. `gather` names the gather whose descriptor it holds, 0 for none. -/
structure Slot where
  state : Nat := 0
  desc : List Byte := []
  gather : Nat := 0
  status : BitVec 16 := 0
  outBytes : Nat := 0
  inBytes : Nat := 0
  result : List Byte := []
  poison : Bool := false              -- the result granules carry POISON
deriving DecidableEq, Repr

/-- A RES_GATHER or GATHER_RES under way (R185). -/
structure Gather where
  id : Nat
  part : Nat
  queue : Option (Nat × Nat)          -- the quire queue, or none for RES_GATHER
  left : Nat
  done : Nat
  status : BitVec 16
  failTag : Nat
  cls : Nat
  waiting : List (Nat × List Byte)    -- port, descriptor in RB-2 form, not yet in a slot
deriving DecidableEq, Repr

structure Arith where
  acc : List AccEntry := []
  ctxs : Map OrderCtx := []
  reorder : List Buffered := []
  aside : List Aside := []
  applies : List Apply := []
  nextApply : Nat := 1
  slots : Map Slot := []
  gathers : List Gather := []
  nextGather : Nat := 1
  resDone : Map Nat := []
  resBytes : Map Nat := []
  resFailed : Map Nat := []
deriving DecidableEq, Repr

/-! ### Folding (spec/07) -/

/-- A block queued on an expander (R204). -/
structure Block where
  req : Nat
  dpa : Nat
  index : Nat
deriving DecidableEq, Repr

/-- A lane past its checks that waits for its basis table (R205). -/
structure Lane where
  basis : Nat
  dpa : Nat                           -- where the directory placed the table when the lane passed step 6
  block : Block
  bytes : List Byte                   -- the slot as read
deriving DecidableEq, Repr

/-- An expansion read that the channel controllers hold in their class queues while its expander's input queue is full (R204). -/
structure HeldBlock where
  block : Block
  cls : Nat
  since : Nat
deriving DecidableEq, Repr

structure Expander where
  queue : List Block := []            -- at most 48 blocks
  held : List HeldBlock := []
  filling : List Lane := []
  cache : List (Nat × List Byte) := []
  blocks : Nat := 0
  checks : Nat := 0
  lengths : Nat := 0
  poisoned : Nat := 0
  misses : Nat := 0
  full : Nat := 0
  line : BitVec 48 := 0
  inLine : Nat := 0
deriving DecidableEq, Repr

inductive ExpandDest where
  | memory (dpa : Nat)
  | scratch (core addr : Nat)
deriving DecidableEq, Repr

structure ExpandReq where
  req : Requester
  dest : ExpandDest
  cls : Nat                           -- the class of the request, which its reads take (R125, R203)
  left : Nat
  delivered : Nat
  status : BitVec 16
  statusAt : Nat                      -- index of the block whose status is held, to report the first
  queue : Option (Nat × Nat)
deriving DecidableEq, Repr

/-- A basis directory entry (R195, R213). -/
structure Basis where
  dpa : Nat
  fmt : Nat
  rank : Nat
  cols : Nat
deriving DecidableEq, Repr

structure Fold where
  basis : Map Basis := []
  exps : Map Expander := []
  reqs : Map ExpandReq := []
  nextReq : Nat := 1
  logs : Map Log := []
deriving DecidableEq, Repr

/-! ### Cores, queues, tallies, ledgers (spec/08) -/

inductive CoreRun where
  | idle | running | halted | faulted | reset
  | summary                           -- runs the firmware's summary kernel (R295)
deriving DecidableEq, Repr

/-- A granule of a store queue (R227): `peer` is the group index of the device it goes to, none for this one; `whole` says that its XWR
covers whole aligned slots (R228); `seq` is its instruction's place among the core's (R115). -/
structure StoreGranule where
  dpa : Nat
  data : List Byte
  poison : Bool
  cls : Nat
  peer : Option Nat := none
  whole : Bool := true
  seq : Nat := 0
deriving DecidableEq, Repr

/-- What an XWR has still to copy into the store queue: from `src` in the scratchpad to `dpa` (R227). -/
structure PendingXwr where
  src : Nat
  dpa : Nat
  len : Nat
  cls : Nat
  peer : Option Nat
  whole : Bool
  seq : Nat
deriving DecidableEq, Repr

/-- An XRD or XEXP that has not completed (R227). -/
structure Transfer where
  dst : Nat
  src : Nat                           -- a DPA, or a global address of a peer
  len : Nat
  cls : Nat
  expand : Option Nat                 -- the expansion request of an XEXP
  remote : Bool := false              -- READ requests to a peer have been sent
  seq : Nat := 0
deriving DecidableEq, Repr

structure CoreContrib where
  con : Contribution
  fetching : Bool
  at_ : Nat                           -- s[xB], where FATOM returns the prior value
  prior : Option (List Byte)
  seq : Nat := 0
deriving DecidableEq, Repr

structure CoreWait where
  reg : BitVec 6
  tally : Nat
  target : BitVec 32
  eq : Bool
  deadline : Option Stamp
deriving DecidableEq, Repr

structure Core where
  x : Map (BitVec 64) := []
  v : Map (List (BitVec 32)) := []
  a : Map (List (BitVec 32)) := []
  pc : Nat := 0
  run : CoreRun := .idle
  code : List Byte := []
  job : Option (Nat × Nat) := none    -- partition and queue of the kernel it runs
  stores : List StoreGranule := []    -- at most 64 (R227)
  xwrs : List PendingXwr := []        -- XWRs not yet copied whole, oldest first
  xfers : List Transfer := []
  contribs : List CoreContrib := []
  twait : Option CoreWait := none
  fence : Bool := false
  seq : Nat := 0                      -- fabric instructions issued, which orders them (R115)
  tsigs : List (Nat × BitVec 32 × Bool) := []  -- TSIGs waiting for earlier stores (R240)
  spad : Map Byte := []
  spoison : Map Bool := []
  spadGen : Nat := 0                  -- free-value epoch of indeterminate bytes (R225)
deriving DecidableEq, Repr

/-- A pending quire; `sub` is the waiting QUIRE_SUBMIT, none for the composer's. -/
structure Quire where
  dpa : Nat
  count : Nat
  composer : Bool
deriving DecidableEq, Repr

/-- The command in progress of a queue (R234). -/
structure CurCmd where
  bytes : List Byte
  index : Nat
  begun : Bool := false
  status : Option (BitVec 16) := none
  arrived : Nat := 0                  -- instant at which a KERNEL's start request arrived
  since : Stamp := 0                  -- stamp at which the command began; rebased at an epoch advance (R30, R446)
  freed : Bool := false               -- OBS_STEP_NEXT released it (R446)
  late : Bool := false                -- its TIMEOUT has been posted
deriving DecidableEq, Repr

structure OpenRange where
  marker : BitVec 32
  user : BitVec 32
  stamp : Stamp
  base : List (BitVec 64)
deriving DecidableEq, Repr

structure LatchBank where
  start : Stamp := 0
  stop : Stamp := 0
  index : Nat := 0
  code : Nat := 0
  state : Nat := 0
  status : BitVec 16 := 0
  quire : Nat := 0
  first : List (BitVec 64) := []
  last : List (BitVec 64) := []
deriving DecidableEq, Repr

structure Queue where
  quires : List Quire := []
  next : Nat := 0                     -- index of the next command of the first quire
  cur : Option CurCmd := none
  halted : Bool := false
  haltStatus : BitVec 16 := 0         -- status with which the last quire ended
  stopped : Bool := false             -- held by single-step mode at a boundary (R445)
  released : Nat := 0                 -- commands OBS_STEP_NEXT still allows
  cores : List Nat := []              -- core set of the KERNEL in progress
  running : Bool := false             -- the KERNEL has started
  ranges : List OpenRange := []
  latch : LatchBank := {}
deriving DecidableEq, Repr

structure Desc where
  place : Nat
  bytes : List Byte
deriving DecidableEq, Repr

structure Ledger where
  configured : Bool := false
  sealed : Bool := false
  log2 : Nat := 0
  dpa : Nat := 0
  descs : List Desc := []             -- oldest first
  served : BitVec 64 := 0
deriving DecidableEq, Repr

structure Part where
  mask : BitVec 4 := 0
  queues : Map Queue := []
  ledgers : Map Ledger := []
deriving DecidableEq, Repr

structure QWaiter where
  p : Nat
  q : Nat
  tally : Nat
  target : BitVec 32
  eq : Bool
  deadline : Option Stamp
deriving DecidableEq, Repr

structure Compute where
  map : List Nat := []                -- physical core 40q + i of each logical core (R229)
  bad : List Nat := []                -- logical cores left faulted by a compute reset (R410)
  cores : Map Core := []
  parts : Map Part := []
  tallies : Map (BitVec 32) := []
  waiters : List QWaiter := []
  faults : Map Log := []
  resetting : Map Bool := []          -- quadrants under compute reset (R411)
deriving DecidableEq, Repr

/-! ### Serving (spec/09) -/

structure Model where
  raw : List Byte
  flags : BitVec 8
  tag : BitVec 32
  payload : Nat
  maxCtx : Nat
  live : Nat
  park : Nat
  summary : Nat
  sbasis : Nat
  scount : Nat
deriving DecidableEq, Repr

structure Pool where
  raw : List Byte
  kind : Nat
  first : Nat
  count : Nat
  stride : Nat
  data : Nat
  trailers : Nat
  low : Nat
  free : List Nat                     -- freed pages, most recent first
  fresh : Nat                         -- pages never used yet, from first + fresh upward
  below : Bool                        -- PAGE_LOW is in force
  stats : List Nat                    -- the counts of R279 that are not computed
deriving DecidableEq, Repr

structure PageMap where
  raw : List Byte
  blocks : Nat
  count : Nat
  index : Nat
  free : List Nat
  fresh : Nat
deriving DecidableEq, Repr

/-- A page's trailer (R260). -/
structure Page where
  tokens : List (BitVec 32) := []
  key : BitVec 64 := 0
  refs : Nat := 0
  children : Nat := 0
  st : Nat := 0
  filled : Nat := 0
  model : Nat := 0
  owner : Nat := 0
  parent : Nat := 0
  lastUse : Stamp := 0
deriving DecidableEq, Repr

structure IndexEntry where
  key : BitVec 64
  page : Nat
  model : Nat
  parent : Nat
deriving DecidableEq, Repr

/-- A request ledger entry (R265). -/
structure Req where
  id : Nat := 0
  st : Nat := 0
  prio : Nat := 0
  part : Nat := 0
  model : Nat := 0
  noPublish : Bool := false
  cadenced : Bool := false
  resumeWanted : Bool := false
  pausePending : Bool := false
  moving : Bool := false
  inStep : Bool := false
  committed : Nat := 0
  draft : Nat := 0
  endCode : Nat := 0
  pauseMode : Nat := 0
  root : Nat := 0xFFFFFFFF
  ttft : Stamp := 0
  tbt : Stamp := 0
  nextDue : Stamp := 0
  gtable : Nat := 0xFFFF
  gstate : Nat := 0
  counts : Nat := 0
  seed : BitVec 64 := 0
  slot : Nat := 0xFFFF
  promptLen : Nat := 0
  prompt : Nat := 0
  promptDone : Nat := 0
  maxNew : Nat := 0
  ttl : Nat := 0
  pin : Nat := 0
  sampling : Nat := 0
  submitted : Stamp := 0
  cookie : BitVec 32 := 0
  pages : Map (BitVec 32) := []       -- leaf entries by page index (R259)
  sampled : Nat := 0                  -- sampled tokens committed, for MAX_NEW (R331)
  pauseTtl : Nat := 0                 -- TTL of the REQ_PAUSE in progress
  ttlPend : Bool := false             -- TTL is loaded at the next boundary (R275)
  ttlRun : Bool := false              -- TTL decrements at boundaries
  cancelPend : Bool := false          -- REQ_CANCEL waits for MOVING to end
  restoring : Bool := false           -- a PARKED restore is under way (R276)
  moveSrc : List (Nat × Nat) := []    -- page index and new page of a copy, restore or fold; [24] attached
  leaves : Map Nat := []              -- leaf map block of each root entry
  winLine : BitVec 48 := 0            -- the line window of the last sampled token, and the tokens in it (R306)
  winTokens : Nat := 0
deriving DecidableEq, Repr

structure LatRec where
  ttftJudged : Bool := false
  ttftMissed : Bool := false
  cut : Nat := 0
  judged : Nat := 0
  late : Nat := 0
  worst : Nat := 0
deriving DecidableEq, Repr

structure Pin where
  model : Nat
  pages : List Nat
  tokens : List (BitVec 32)
deriving DecidableEq, Repr

structure Serving where
  models : Map Model := []
  pools : Map Pool := []
  map : Option PageMap := none
  pages : Map Page := []
  index : Map (List IndexEntry) := []
  reqs : Map Req := []
  gens : Map Nat := []
  lat : Map LatRec := []
  pins : Map Pin := []
  pinGens : Map Nat := []
deriving DecidableEq, Repr

/-! ### The step and Flourish (spec/10, spec/11) -/

/-- A sampling parameter block (R318). -/
structure Sampling where
  temp : Nat
  topP : Nat
  topK : Nat
  spec : Nat
  rep : Nat
  freq : Nat
  pres : Nat
  draft : Nat
  stops : List Nat
deriving DecidableEq, Repr

/-- A row of a proposal or batch (R290, R295). -/
structure Row where
  req : Nat
  kind : Nat
  flags : BitVec 8
  prio : Nat
  first : Nat
  positions : Nat
  slot : Nat := 0xFFFF
  buffer : Nat := 0
  frame : Nat := 0                    -- frame number taken
  tokens : Nat := 0                   -- frame tokens n
  line : BitVec 48 := 0               -- the frame's line
  logits : Nat := 0xFFFFFFFF
  need : Nat := 0                     -- positions that its pages must hold from COMMITTED on
  dpages : Nat := 0                   -- draft pages of a TREE row
  vecs : Nat := 0                     -- vectors it occupies
  newPages : List (Nat × Nat) := []   -- page index, page
  drafts : List Nat := []             -- draft pages
  outcome : Nat := 0
  count : Nat := 0                    -- sampled tokens committed
  lateness : BitVec 64 := 0x8000000000000000#64
  sampling : Option Sampling := none  -- the parameters as Flourish read them at the snapshot (R318)
deriving DecidableEq, Repr

structure Proposal where
  no : Nat
  stamp : Stamp
  rows : List Row
  gen : Nat
  prompt : Nat
  since : Stamp                       -- S as a deadline is held: rebased at an epoch advance (R30, R299)
  chunk : Nat
  mode : BitVec 8                     -- parameters in force when it was built (R282)
  maxRows : Nat
  budget : Nat
  amend : BitVec 8
  tally : Nat
  posted : Bool := false              -- its watchdog event has been posted
deriving DecidableEq, Repr

structure RunStep where
  no : Nat
  rows : List Row
  confirm : Stamp
  start : Stamp := 0
  since : Stamp                       -- the confirmation, rebased at an epoch advance (R30, R299)
  tally : Nat
  phase : Nat := 0                    -- R295: 0 STEP_BEGIN, 1 program, 2 summary, 3 STEP_END
  posted : Bool := false
deriving DecidableEq, Repr

structure Composer where
  configured : Bool := false
  mode : BitVec 8 := 0
  maxRows : Nat := 0
  budget : Nat := 0
  ride : Nat := 0
  chunk : Nat := 0
  amend : BitVec 8 := 0
  model : Nat := 0
  tally : Nat := 0
  program : Nat := 0
  hostBuf : Nat := 0
  batch : Nat := 0
  enabled : Bool := false
  suspended : Bool := false
  last : Nat := 0                     -- number of the last proposal built
  prop : Option Proposal := none
  run : Option RunStep := none
  atBoundary : Bool := false          -- the next check is at a line boundary (R284)
  check : Option Stamp := none        -- a check that has fallen due, with its stamp (R284)
  summaries : List Nat := []          -- entries whose SUMMARISED fold waits for the next step
  folding : Bool := false
  confLimit : Nat := 0
  runLimit : Nat := 0
deriving DecidableEq, Repr

structure FrameSlot where
  part : Nat
  buffers : Nat
  stride : Nat
  base : Nat
  tally : Nat
  lineBudget : Nat
  largest : Nat
  due : Stamp
  eof : BitVec 32
  skipStale : Bool
  arrivals : List Stamp := []         -- stamps of frames not consumed, oldest first
  next : Nat := 0                     -- number of the oldest frame in `arrivals`
  drops : Nat := 0
  ended : Bool := true
  textReq : Nat := 0                  -- request whose text it is
deriving DecidableEq, Repr

structure Expert where
  experts : Nat
  cap : Nat
  bias : Nat
  counter : Nat
  k : Nat
  loop : Nat
  target : BitVec 32
  eta : BitVec 32
  limit : BitVec 32
  steps : Nat := 0
deriving DecidableEq, Repr

structure StepBlock where
  comps : Map Composer := []
  slots : Map FrameSlot := []
  experts : Map Expert := []
  biasWait : List Cmd := []
deriving DecidableEq, Repr

structure LogitsArea where
  format : Nat
  vocab : Nat
  area : Nat
  stride : Nat
  vectors : Nat
deriving DecidableEq, Repr

structure Flourish where
  areas : Map LogitsArea := []
  grammars : Map Nat := []
  ctr : Map Nat := []                 -- partition * 8 + index (R342)
deriving DecidableEq, Repr

/-! ### Ductus (spec/12) -/

/-- A link's settings record (R347). -/
structure LinkCfg where
  enable : Bool := true
  rate : Nat := 0
  channel : Nat := 0
  encReq : Bool := false
  preset : Nat := 0
  rxPol : BitVec 8 := 0
  txPol : BitVec 8 := 0
  lanes : BitVec 24 := 0xFAC688
  limit : Nat := 500
deriving DecidableEq, Repr

/-- A concord record (R363). -/
structure ConcordRec where
  flags : BitVec 8
  index : Nat
  group : Nat
  fw : Nat
  layer : Nat
  epoch : BitVec 32
  master : Nat
  members : Nat
  masks : BitVec 16
  hash : List Byte
deriving DecidableEq, Repr

structure Link where
  st : Nat := 0
  reason : Nat := 0
  cfg : LinkCfg := {}
  changed : Stamp := 0
  peerId : Nat := 0
  peer : Nat := 0xFFFF
  latency : Nat := 0                  -- ps
  ber : BitVec 32 := 0
  attempts : Nat := 0
  training : Nat := 0                 -- step of R348 reached
  seenPeer : Bool := false
  sentSeen : Bool := false
  gotSeen : Bool := false
  probes : List Int := []
  encPeer : Bool := false
  enc : Bool := false
  key : List Byte := []               -- the session's AES-256 key and salt, free values (log 11)
  salt : List Byte := []
  txSeq : Nat := 1
  acked : Nat := 0
  replay : List (Nat × List Byte) := []
  out : List Byte := []               -- the last flit sent (log 12)
  tagFails : List Nat := []           -- instants of tag failures within the last second
  rxNext : Nat := 1
  nakSent : Bool := false             -- the next flit carries NAK
  discarding : Bool := false          -- DATA flits are discarded until the expected SEQ arrives (R355)
  sent : Nat := 0                     -- DATA flits sent since LINK_INIT
  rxAny : Bool := false
  credits : List Nat := [0, 0, 0]     -- held for REQ, RSP, CTL
  granted : List Nat := [0, 0, 0]     -- initial credits of the peer
  used : List Nat := [0, 0, 0]        -- slots of the receive buffers in use
  toReturn : List Nat := [0, 0, 0]
  malformed : List Nat := []          -- instants within the last second
  stuck : Nat := 0
  retraining : Bool := false
  tx : List Msg := []
  rx : List Msg := []
  spdm : Nat := 0                     -- 0 none, 1 requester turn, 2 responder turn, 3 done
  beats : Nat := 0
  flitsKey : Nat := 0
  asked : Bool := false               -- a CHALLENGE is outstanding
  concord : Option ConcordRec := none
  rejoin : Bool := false              -- GROUP_REJOIN has sent the record and waits for the peer's
  spdmAt : Nat := 0                   -- requests of this device's turn that have been answered (R361)
  spdmPeer : Nat := 0                 -- what the peer's requests have negotiated: 1 version, 2 capabilities, 3 algorithms, 4 a key, 5 finished
  attemptAt : Nat := 0                -- instants: the training attempt's start, step 4's start,
  berAt : Nat := 0
  ackAt : Nat := 0                    -- the last advance of ACK, the first unacknowledged flit or the last replay (R355),
  creditAt : List Nat := [0, 0, 0]    -- per channel, the last credit returned or the first message that waits (R366),
  retrainAt : Nat := 0                -- the retrain's start, the last heartbeat and the last CHALLENGE (R350, R362)
  beatAt : Nat := 0
  askAt : Nat := 0
  ctr : List Nat := [0, 0, 0, 0, 0, 0, 0, 0]
deriving DecidableEq, Repr

structure Group where
  id : Nat
  index : Nat
  members : List Nat
  remoteUs : Nat
  lines : Nat
  routes : Map Nat
  hash : List Byte
  raw : List Byte
deriving DecidableEq, Repr

structure Advert where
  valid : Bool
  eligible : Bool
  seq : Option (BitVec 16)            -- none while only a concord record has told of it
deriving DecidableEq, Repr

/-- What a request to a peer was sent for. -/
inductive RemoteUse where
  | coll (id : Nat)
  | coreRead (core addr : Nat)        -- the read fills the scratchpad from `addr`
  | coreWrite (core : Nat)
  | coreContrib (core : Nat)
  | coreSignal (core : Nat)
  | queueSignal (p q : Nat)
  | doneSignal                        -- a completion signal of a queue
deriving DecidableEq, Repr

/-- A request this device sent to a peer and that has not completed (R360). -/
structure Remote where
  tag : BitVec 16
  dest : Nat
  msg : Msg                           -- kept to be sent again after RETRY (R359)
  use : RemoteUse
  since : Nat
  left : Nat                          -- granules of a read still to arrive
  retry : Bool := false               -- a RETRY waits for its 256 ns
deriving DecidableEq, Repr

/-- An active collective (R371). -/
structure Coll where
  id : Nat
  op : Nat
  alg : Nat
  red : Nat
  ordered : Bool
  part : Nat
  lines : Nat
  src : Nat
  dst : Nat
  len : Nat
  pieces : Nat
  seq : Nat
  total : Nat
  root : Nat
  startTally : Nat
  startTarget : BitVec 32
  doneTally : Nat
  members : List Nat
  signature : BitVec 32
  begun : Bool := false
  ready : List Nat := []
  progress : Stamp := 0
  ctx : Option Nat := none
  sent : List (Nat × Nat) := []       -- blocks of the first phase sent, each with the rank it went to
  unanswered : Nat := 0
  expect : Map Nat := []              -- per block, granules of contributions still to arrive
  expectW : Map Nat := []             -- per block, granules of writes still to arrive
  reduced : Bool := false             -- the member's own shard is reduced and its gather phase has begun
  gsent : List (Nat × Nat) := []      -- blocks of the gather phase sent, each with the rank it went to
  poisoned : Bool := false
deriving DecidableEq, Repr

structure Ductus where
  links : Map Link := []
  group : Option Group := none
  shares : Map Nat := []
  shareSeqs : Map (BitVec 16) := []
  adverts : Map Advert := []
  advSeq : BitVec 16 := 0
  advSent : Option (Bool × Bool) := none
  remotes : List Remote := []
  nextTag : BitVec 16 := 0
  colls : List Coll := []
  aborted : List (Nat × BitVec 16) := []
  readySeen : List (Nat × Nat × BitVec 32) := []
deriving DecidableEq, Repr

/-! ### Power and start (spec/13, spec/15) -/

/-- A start record (R400). -/
structure StartRec where
  stamp : Stamp
  slot : Nat
  stage : Nat
  status : BitVec 16
  detail : BitVec 16
  ms : Nat
  seq : Nat
deriving DecidableEq, Repr

/-- A boot record copy (R400). -/
structure Boot where
  seq : Nat := 0
  active : Nat := 0
  pending : Nat := 0xFF
  next : Nat := 0
  failed : Nat := 0
  minSec : Nat := 0
  starts : List StartRec := []
  valid : Bool := true
deriving DecidableEq, Repr

/-- A section of the settings store (R404). -/
structure Section where
  id : Nat
  ver : Nat
  crc : BitVec 32
  mandatory : Bool
  kept : Bool
  body : List Byte
deriving DecidableEq, Repr

structure Bank where
  seq : Nat
  valid : Bool
  sections : List Section
deriving DecidableEq, Repr

/-- The defect map in force (R393). Units are keyed 0 to 7 sites, 8 to 23 ports. -/
structure Defect where
  sigs : Map (BitVec 64) := []
  fastOut : List Nat := []
  capOut : List Nat := []
  fastMark : List Nat := []
  capMark : List Nat := []
  coresOut : List Nat := []
  expOut : List Nat := []
  pipesOut : List Nat := []
  repairs : List (Nat × Nat × Nat) := []
deriving DecidableEq, Repr

/-- A licence record (R407): entries are feature and limit. -/
structure Licence where
  serial : Nat
  unique : Nat
  entries : List (Nat × Nat)
  raw : List Byte
  sigOk : Bool
deriving DecidableEq, Repr

/-- An update session (R402, R403): 0 none, 1 FW_WRITE, 2 PLDM. -/
structure FwSession where
  owner : Nat := 0
  phase : Nat := 0                    -- PLDM state: 0 idle, 1 learn, 2 ready, 3 download, 4 verify, 5 apply
  since : Nat := 0                    -- instant of the last transfer
deriving DecidableEq, Repr

/-- The firmware image of a device as it leaves the factory in this model (log 10): release 3.2, security version 1, no body; its
digest is that of no bytes (R398). -/
def Image.factory : List Byte :=
  [1, 0, 3, 2, 1, 0, 0, 0, 0, 0, 0, 0, 0, 0, 0, 0,
   0x38, 0xb0, 0x60, 0xa7, 0x51, 0xac, 0x96, 0x38, 0x4c, 0xd9, 0x32, 0x7e, 0xb1, 0xb1, 0xe3, 0x6a,
   0x21, 0xfd, 0xb7, 0x11, 0x14, 0xbe, 0x07, 0x43, 0x4c, 0x0c, 0xc7, 0xbf, 0x63, 0xf6, 0xe1, 0xda,
   0x27, 0x4e, 0xde, 0xbf, 0xe7, 0x6f, 0x65, 0xfb, 0xd5, 0x1a, 0xd2, 0xf1, 0x48, 0x98, 0xb9, 0x5b] ++ List.replicate 192 0

structure Power where
  aonHigh : Bool := true
  perstHigh : Bool := false
  hostLink : Bool := false            -- PERST_N is released, so the host link trains (R384, R458)
  tripN : Bool := false               -- THERM_TRIP_N asserted (R466)
  straps : BitVec 4 := 0              -- SPI_FAST, I3C_ADDR0, I3C_ADDR1, JTAG_TEST from bit 0
  domains : BitVec 16 := 7            -- domains on, as POWER_STATUS numbers them: AON, FABRIC and HOST (R382, R384)
  dead : BitVec 16 := 0               -- domains lost for this start: no power good, or the verso die lost (R382, R392)
  clock : Nat := 1600                 -- clock in force
  powerClock : Nat := 1600            -- choice of R383
  heatClock : Nat := 1600             -- choice of R466
  watts : List Nat := []              -- the last 10 samples, newest first
  calm : Nat := 0                     -- samples in a row whose mean was below 95 % of the limit
  coolMs : Nat := 0                   -- samples in a row at or below 100 C
  boot0 : Boot := {}
  boot1 : Boot := { seq := 1, failed := 1 }
  slotA : List Byte := Image.factory
  slotB : List Byte := Image.factory
  runSlot : Nat := 0                  -- slot of the attempt, and of the image that runs
  bank0 : Bank
  bank1 : Bank := { seq := 0, valid := false, sections := [] }
  degraded : List Nat := []           -- sections replaced by defaults
  defect : Defect := {}
  clearUnits : List Nat := []         -- units DEFECT_MAP_CLEAR named (R419)
  licences : List Licence := []       -- those in force at this start (R408)
  sigGood : List (List Byte) := []    -- records whose signature LICENCE_INSTALL found good
  coldSampled : Bool := false
  fastPathOn : Bool := true
  stage : Nat := 1                    -- 1, 2, 3 (3a), 4 (3b), 5 (3c), 6 (stage 4), 7 (stage 5), 0 ended
  fast : Bool := false                -- this start takes the fast path (R391)
  warmKind : Bool := false            -- the reset in force is of a kind that may take the fast path (R391)
  served : Bool := false              -- this start has reached READY or DEGRADED_READY
  prevServed : Bool := false          -- so did the one before it
  touched : Bool := false             -- a channel was FAILED or marked since then
  durations : List Nat := [0, 0, 0, 0, 0]
  startAt : Nat := 0
  stageAt : Nat := 0                  -- instant at which the stage under way began (R388)
  degMask : BitVec 8 := 0
  report : StageReport := ⟨[], [], [], [], [], [], [], [], [], true, true, []⟩
  pipes : Nat := 8                    -- Flourish pipes in service (R392)
  faulted : Stamp × BitVec 16 × BitVec 15 := (0, 0, 0)
  session : FwSession := {}
  capBefore : BitVec 4 := 0
  capEntering : Bool := false
  capWaking : Bool := false
  wakeWanted : Bool := false
  resets : List Nat := []             -- partitions under compute reset
  resetWanted : Nat := 0              -- RESET has completed and its reset begins: 1 WARM, 2 FULL (R419)
  testIr : Nat := 0                   -- instruction in force on the test port (R463): 0 BYPASS ... 5 HIGHZ
  testDr : BitVec 32 := 0             -- what the data register it selects captures
  mgmt : List Byte := []              -- last response of a management endpoint (log 12)
deriving DecidableEq, Repr

/-! ### Observation (spec/14) -/

/-- A programmable counter with its configuration and latches (R425, R427). -/
structure Prog where
  event : Nat := 0
  filter : Nat := 0xF
  classes : BitVec 8 := 0
  on : Bool := false
  live : BitVec 64 := 0
  start : BitVec 64 := 0
  stop : BitVec 64 := 0
deriving DecidableEq, Repr

structure Blotter where
  entries : List (List Byte) := []    -- oldest first, at most 256
  frozen : Bool := false
deriving DecidableEq, Repr

structure Trace where
  configured : Bool := false
  stopMode : Bool := false
  types : BitVec 16 := 0
  pcPeriod : Nat := 0
  tagBits : Nat := 0
  opMask : BitVec 16 := 0
  ring : Nat := 0
  host : Bool := false
  log2 : Nat := 0
  recording : Bool := false
  frozen : Bool := false
  pend : List (List Byte) := []
  lost : Nat := 0
  firstLost : Stamp := 0
  dropped : BitVec 64 := 0
  wr : Nat := 64
deriving DecidableEq, Repr

structure Watch where
  bits : BitVec 16 := 0
  base : Nat := 0
  len : Nat := 0
  line : Option (BitVec 48) := none
deriving DecidableEq, Repr

structure ArmedDigest where
  enabled : Bool := false
  marker : BitVec 32 := 0
  dpa : Nat := 0
  len : Nat := 0
  format : Nat := 0
  result : List Byte := []
deriving DecidableEq, Repr

structure Obs where
  ctr : Map (BitVec 64) := []         -- partition * 48 + index
  progs : Map Prog := []              -- unit * 8 + counter
  blots : Map Blotter := []
  ranges : Map (List (List Byte)) := []
  select : Map (List Nat) := []
  traces : Map Trace := []
  watches : Map Watch := []           -- partition * 64 + watchpoint
  digests : Map ArmedDigest := []     -- partition * 8 + slot
  single : Map Nat := []              -- partitions in single-step mode, with the step limit in lines
  freezeOnFault : Map Bool := []
deriving DecidableEq, Repr

/-! ### The machine -/

/-- The whole state. `pending` is the queue of commands that wait, first in, first out. -/
structure State where
  pending : List Instr := []
  time : Nat := 0                     -- units of 2^-16 ns (log 1)
  free : Nat := 0                     -- index of the next free value (log 13)
  host : List Host.Cell := []
  hostFaults : List (Nat × Nat) := []
  rul : Ruling := {}
  ink : Inkwell := {}
  mem : Mem := {}
  svc : MemSvc := {}
  ari : Arith := {}
  fold : Fold := {}
  cpu : Compute := {}
  srv : Serving := {}
  stp : StepBlock := {}
  flo : Flourish := {}
  duc : Ductus := {}
  pwr : Power
  obs : Obs := {}
deriving DecidableEq, Repr

/-- Why the block stops. No rule of the manual stops it: each error is a status, a fault reason or a record, which are effects
on State. The constructor is raised by nobody; a fault would be safe, since nothing is claimed of a stopped machine. -/
inductive Fault where
  | none_
deriving DecidableEq, Repr

/-- Why a command has no meaning. `notModelled` is raised by the dispatch for a row whose meaning is not written, under the
row's name; it is safe, since nothing is claimed of it. -/
inductive Refusal where
  | notModelled (mnemonic : String)
deriving DecidableEq, Repr

/-- The settings bank of a device as it leaves the factory in this model (log 10): an identity, no licence, no defects. -/
def Bank.factory : Bank :=
  { seq := 1, valid := true,
    sections :=
      [ { id := 1, ver := 1, crc := 0x8c07a599#32, mandatory := true, kept := false,
          body := [0x01, 0, 0, 0, 0x80, 0xB8, 0, 0] ++ List.replicate 24 0 },
        { id := 2, ver := 2, crc := 0, mandatory := true, kept := false, body := [] },
        { id := 3, ver := 3, crc := 0xfbad4669#32, mandatory := true, kept := false, body := List.replicate 352 0 } ] }

/-- The machine right after the release of AON_RESET_N: a cold start begins and STATE is ROM (R384, R385, log 2). -/
def State.reset : State := { pwr := { bank0 := Bank.factory } }

end Sys2Proof.Machine
end

