-- ==== Sys2Proof/Machine/Bytes.lean ====
section
/-! DEFINITION. Byte order (R9), maps, and the bit helpers that every other file uses. -/
namespace Sys2Proof.Machine

/-! ### Maps keyed by number -/

/-- The value at key `k`, or the field's default `d`. -/
def mget {α : Type} (d : α) : Map α → Nat → α
  | [], _ => d
  | (j, v) :: r, k => if j = k then v else mget d r k

/-- The value at key `k`, if the map lists one. -/
def mfind {α : Type} : Map α → Nat → Option α
  | [], _ => none
  | (j, v) :: r, k => if j = k then some v else mfind r k

/-- The map with `v` at key `k`, keys rising. -/
def mput {α : Type} : Map α → Nat → α → Map α
  | [], k, v => [(k, v)]
  | (j, w) :: r, k, v =>
    if k = j then (k, v) :: r else if k < j then (k, v) :: (j, w) :: r else (j, w) :: mput r k v

/-- The map without key `k`. -/
def mdel {α : Type} (m : Map α) (k : Nat) : Map α := m.filter (fun e => e.1 ≠ k)

/-- The map with the value at `k` changed by `f`. -/
def mmod {α : Type} (d : α) (m : Map α) (k : Nat) (f : α → α) : Map α := mput m k (f (mget d m k))

/-! ### Bytes -/

/-- `n` little-endian bytes of a number (R9). -/
def leBytes : Nat → Nat → List Byte
  | 0, _ => []
  | n + 1, v => BitVec.ofNat 8 v :: leBytes n (v / 256)

/-- The number that little-endian bytes hold (R9). -/
def leNat : List Byte → Nat
  | [] => 0
  | b :: r => b.toNat + 256 * leNat r

/-- `n` big-endian bytes, and their number: the order of SHA and CRC inputs, never of the manual's fields. -/
def beBytes (n v : Nat) : List Byte := (leBytes n v).reverse
def beNat (l : List Byte) : Nat := leNat l.reverse

/-- Bytes `off` to `off + n - 1` of a list, padded with zeros beyond its end. -/
def slice (l : List Byte) (off n : Nat) : List Byte :=
  let t := (l.drop off).take n
  t ++ List.replicate (n - t.length) 0

/-- The little-endian field of `n` bytes at `off`. -/
def fieldN (l : List Byte) (off n : Nat) : Nat := leNat (slice l off n)

def zeros (n : Nat) : List Byte := List.replicate n 0

/-- The first `n` bytes, padded with zeros. -/
def padTo (n : Nat) (l : List Byte) : List Byte := slice l 0 n

/-- `l` with `b` in place of its bytes from `off` on. -/
def overlay (l : List Byte) (off : Nat) (b : List Byte) : List Byte :=
  slice l 0 off ++ b ++ l.drop (off + b.length)

/-- The list cut into pieces of `n`; `fuel` bounds their number. -/
def chunksGo {α : Type} (n : Nat) : Nat → List α → List (List α)
  | 0, _ => []
  | _, [] => []
  | fuel + 1, l => l.take n :: chunksGo n fuel (l.drop n)

def chunks {α : Type} (n : Nat) (l : List α) : List (List α) := chunksGo n l.length l

def xorBytes (a b : List Byte) : List Byte := List.zipWith (· ^^^ ·) a b

/-- Bit `k` of a number. -/
def bit (v k : Nat) : Bool := v.testBit k

/-- Bits [hi:lo] of a number (R9). -/
def bits (v hi lo : Nat) : Nat := (v >>> lo) % 2 ^ (hi + 1 - lo)

def b2n (b : Bool) : Nat := if b then 1 else 0

def popcount (w v : Nat) : Nat := (List.range w).foldl (fun n k => n + b2n (v.testBit k)) 0

/-- The bits set in a mask of `w` bits, in rising order. -/
def bitList (w v : Nat) : List Nat := (List.range w).filter (fun k => v.testBit k)

/-- A mask from bit numbers. -/
def maskOf (l : List Nat) : Nat := l.foldl (fun m k => m ||| (1 <<< k)) 0

/-- A count that stops at the greatest value of `w` bits. -/
def satAdd (w a b : Nat) : Nat := min (a + b) (2 ^ w - 1)

/-- A signed value in `w` bits of two's complement. -/
def intBits (w : Nat) (v : Int) : Nat := (v % (2 ^ w : Int)).toNat

def clampInt (lo hi v : Int) : Int := max lo (min hi v)

/-- ceil(a / b). -/
def ceilDiv (a b : Nat) : Nat := (a + b - 1) / b

/-- Smallest `n` at or above `fuel`-bounded search where `p` holds. -/
def findFrom (p : Nat → Bool) : Nat → Nat → Option Nat
  | 0, _ => none
  | fuel + 1, n => if p n then some n else findFrom p fuel (n + 1)

/-- Elements sorted by a strict order, by insertion. -/
def insertBy {α : Type} (lt : α → α → Bool) (x : α) : List α → List α
  | [] => [x]
  | y :: r => if lt x y then x :: y :: r else y :: insertBy lt x r

def sortBy {α : Type} (lt : α → α → Bool) (l : List α) : List α :=
  l.foldl (fun acc x => insertBy lt x acc) []

/-- The position of the first element that satisfies `p`. -/
def indexOf? {α : Type} (p : α → Bool) : List α → Option Nat
  | [] => none
  | x :: r => if p x then some 0 else (indexOf? p r).map (· + 1)

/-- The status of the first check that fails, of checks given in order with their statuses. -/
def firstFail : List (Bool × Nat) → Option Nat
  | [] => none
  | (b, st) :: r => if b then some st else firstFail r

/-! ### Byte cells in canonical form: addresses rising, no cell equal to what its address reads as when unlisted -/

/-- The byte at an address; `d` is what an unlisted address reads as. -/
def cellGet (d : Nat → Byte) : List Host.Cell → Nat → Byte
  | [], a => d a
  | (j, v) :: r, a => if j = a then v else cellGet d r a

/-- The cells with byte `b` at address `a`. -/
def cellPut (d : Nat → Byte) : List Host.Cell → Nat → Byte → List Host.Cell
  | [], a, b => if b = d a then [] else [(a, b)]
  | (j, w) :: r, a, b =>
    if a = j then (if b = d a then r else (a, b) :: r)
    else if a < j then (if b = d a then (j, w) :: r else (a, b) :: (j, w) :: r)
    else (j, w) :: cellPut d r a b

/-- Bytes stored from address `a` upward. -/
def cellPuts (d : Nat → Byte) : List Host.Cell → Nat → List Byte → List Host.Cell
  | m, _, [] => m
  | m, a, b :: r => cellPuts d (cellPut d m a b) (a + 1) r

/-- `n` bytes from address `a` upward. -/
def cellGets (d : Nat → Byte) (m : List Host.Cell) (a n : Nat) : List Byte :=
  (List.range n).map (fun i => cellGet d m (a + i))

/-- Every address is above `lo`, and the form is canonical. -/
def cellWfFrom (d : Nat → Byte) : Option Nat → List Host.Cell → Bool
  | _, [] => true
  | lo, (j, v) :: r => (match lo with | some l => decide (l < j) | none => true) && v != d j && cellWfFrom d (some j) r

def cellWf (d : Nat → Byte) (m : List Host.Cell) : Bool := cellWfFrom d none m

/-- The last `n` elements. -/
def lastN {α : Type} (n : Nat) (l : List α) : List α := l.drop (l.length - n)

end Sys2Proof.Machine
end

