-- ==== Sys2Proof/Machine/Record.lean ====
section
/-! DEFINITION. What every unit records of itself: stamps (R27), always-on counters (R423), programmable counters (R425) and
blotters (R431). -/
namespace Sys2Proof.Machine

/-- The counter of the ruling block: line and tick (R12, R27). -/
def stamp (s : State) : Stamp := s.rul.line ++ s.rul.tick

/-- The programmed period of `p` ns divided by 1 + c ppb, in units of 2^-16 ns over 10^9 + c; `genRem` is carried from line to line, so
that no fraction is lost (R41). -/
def correctedDividend (r : Ruling) : Nat := r.period * 65536 * 10 ^ 9 + r.genRem

/-- The generator's line period under the correction in force, units of 2^-16 ns, and what is left over (R41). -/
def correctedPeriod (r : Ruling) : Nat := (Int.fdiv (correctedDividend r) (10 ^ 9 + r.corr)).toNat
def correctedRem (r : Ruling) : Nat := (Int.fmod (correctedDividend r) (10 ^ 9 + r.corr)).toNat

/-- Mean of the accepted periods, in units of 2^-16 ns (R31). -/
def cadenceMean (r : Ruling) : Nat := if r.cad.periods.isEmpty then r.nominal * 65536 else r.cad.periods.sum / r.cad.periods.length

/-- A period shortened by the ticks that slewing takes from the line in progress (R41). -/
def slewedPeriod (r : Ruling) (p : Nat) : Nat := (Int.fdiv (p * (65536 - r.adj)) 65536).toNat

/-- The line period in force, in units of 2^-16 ns (R31, R34, R41, R47). -/
def linePeriod (s : State) : Nat :=
  let r := s.rul
  max 65536 (match r.holdover with
    | some h => if h.lost = .disciplined then slewedPeriod r h.period else h.period
    | none =>
      match r.source with
      | .free => r.period * 65536
      | .disciplined => slewedPeriod r (correctedPeriod r)
      | .cadenceIn => cadenceMean r
      | .rulingMaster => if r.rate = 0 then r.measured * 65536 else r.rate)

/-- One tick of the line in force, in units of 2^-16 ns: as many units as the line has ns (R13). -/
def periodNow (s : State) : Nat := linePeriod s / 65536

/-- The next `n` free bytes (log 13). -/
def freeBytes (s : State) (n : Nat) : List Byte × State :=
  ((List.range n).map (fun i => Config.freeByte (s.free + i)), { s with free := s.free + n })

/-- The next free 64-bit word (log 13). -/
def freeWord (s : State) : BitVec 64 × State := (Config.freeWord s.free, { s with free := s.free + 1 })

/-! ### Counters -/

/-- Always-on counter `i` of partition `p` (R423). -/
def counter (s : State) (p i : Nat) : BitVec 64 := mget 0 s.obs.ctr (p * 48 + i)

/-- The 48 always-on counters of a partition. -/
def counters (s : State) (p : Nat) : List (BitVec 64) := (List.range 48).map (counter s p)

/-- Counter `i` of partition `p` rises by `n`; it wraps (R423). -/
def bump (s : State) (p i n : Nat) : State :=
  if n = 0 then s
  else { s with obs.ctr := mput s.obs.ctr (p * 48 + i) (counter s p i + BitVec.ofNat 64 n) }

/-- The count of a partition that may be none, for device-internal work (R423). -/
def bumpO (s : State) (p : Option Nat) (i n : Nat) : State :=
  match p with
  | some p => bump s p i n
  | none => s

/-- Whether a programmable counter counts an event of a partition and class (R425). -/
def progCounts (g : Prog) (event : Nat) (part : Option Nat) (cls : Option Nat) : Bool :=
  g.on && g.event == event &&
  (g.filter == 0xF || part == some g.filter) &&
  (g.classes == 0 || match cls with | some c => g.classes.getLsbD c | none => false)

/-- One event of a unit at its programmable counters (R425, R426). `event` is the low 12 bits. -/
def prog (s : State) (unit event : Nat) (part cls : Option Nat) (n : Nat) : State :=
  (List.range 8).foldl (fun s k =>
    let g := mget {} s.obs.progs (unit * 8 + k)
    if progCounts g (unit / 4096 * 4096 + event) part cls then
      { s with obs.progs := mput s.obs.progs (unit * 8 + k) { g with live := g.live + BitVec.ofNat 64 n } }
    else s) s

/-! ### Blotters -/

/-- A blotter entry (R432). -/
def blotEntry (s : State) (code : Nat) (part : Option Nat) (arg : Nat) : List Byte :=
  leBytes 6 (stamp s).toNat ++ [BitVec.ofNat 8 code] ++
    [match part with | some p => BitVec.ofNat 8 (p % 4 + 4) | none => 0] ++ leBytes 8 arg

/-- The entry at the newest end of a unit's blotter, unless the blotter is frozen (R431, R447). -/
def blot (s : State) (unit code : Nat) (part : Option Nat) (arg : Nat) : State :=
  let b := mget {} s.obs.blots unit
  if b.frozen then s
  else { s with obs.blots := mput s.obs.blots unit { b with entries := lastN 256 (b.entries ++ [blotEntry s code part arg]) } }

end Sys2Proof.Machine
end

