-- ==== Sys2Proof/Machine/Flags.lean ====
section
/-! DEFINITION. The status bits of Inkwell: interrupt causes (R73), the fault register (R57) and the device state (R61, R62). -/
namespace Sys2Proof.Machine

/-- A function's registers. -/
def func (s : State) (fn : Nat) : Func := mget {} s.ink.funcs fn

def setFunc (s : State) (fn : Nat) (f : Func) : State := { s with ink.funcs := mput s.ink.funcs fn f }

/-- Function 0 and the enabled VFs (R54, R90). -/
def functions (s : State) : List Nat := List.range (s.ink.numVFs + 1)

/-- The vector of a cause: its ring's, or 0 for bits [18:16] (R73). -/
def causeVector (f : Func) (bit : Nat) : Nat := if bit < 16 then (mget {} f.rings bit).vector else 0

/-- An MSI-X message of a function (R73). -/
def raise (s : State) (fn vector : Nat) : State :=
  prog { s with ink.msix := s.ink.msix ++ [(fn, vector)] } 0xA000 4 none none 1

/-- A cause bit is set; it raises its vector when it was 0 and is not masked (R73). -/
def setCause (s : State) (fn bit : Nat) : State :=
  let f := func s fn
  let s1 := setFunc s fn { f with irqStatus := f.irqStatus ||| BitVec.ofNat 19 (2 ^ bit) }
  if f.irqStatus.getLsbD bit || f.irqMask.getLsbD bit then s1 else raise s1 fn (causeVector f bit)

/-- INKW_FAULT takes a reason; a changed reason sets NEW and the FAULT cause (R57, R73). -/
def setFault (s : State) (fn reason detail : Nat) : State :=
  let f := func s fn
  let s1 := setFunc s fn { f with reason := BitVec.ofNat 16 reason, detail := BitVec.ofNat 15 detail,
                                  isNew := f.isNew || f.reason.toNat != reason }
  if f.reason.toNat = reason then s1 else setCause s1 fn 17

/-- The states of R61. -/
def stRom : BitVec 4 := 0
def stLoading : BitVec 4 := 1
def stBringup : BitVec 4 := 2
def stReady : BitVec 4 := 3
def stDegraded : BitVec 4 := 4
def stMinimal : BitVec 4 := 5
def stDiagnostic : BitVec 4 := 6
def stCapped : BitVec 4 := 7
def stResetting : BitVec 4 := 8
def stFaulted : BitVec 4 := 9

/-- A change of STATE: SEQ rises and every function gets STATE_CHANGE (R57, R62). -/
def setState (s : State) (st : BitVec 4) : State :=
  if s.ink.state = st then s
  else
    let s1 := { s with ink.state := st, ink.seq := s.ink.seq + 1 }
    (functions s1).foldl (fun s fn => setCause s fn 16) s1

/-- READY or DEGRADED_READY. -/
def serving (s : State) : Bool := s.ink.state == stReady || s.ink.state == stDegraded

end Sys2Proof.Machine
end

