-- ==== Sys2Proof/Machine/Operands.lean ====
section
/-! DEFINITION. The operand forms of the commands: the header and payload of a submission entry (R65, R467), the 64-byte quire
command (R235) and the fields of a core instruction word (R219). -/
namespace Sys2Proof.Machine

/-! ### Submission entries -/

/-- FLAGS [0]: the payload lies in an extended buffer (R65). -/
def isExt (c : Cmd) : Bool := c.flags.getLsbD 0

/-- FLAGS [1]: start only after every earlier command of the ring has completed (R65). -/
def isFence (c : Cmd) : Bool := c.flags.getLsbD 1

/-- FLAGS [2]: the completion raises no interrupt (R65). -/
def isNoIrq (c : Cmd) : Bool := c.flags.getLsbD 2

/-- The payload bytes that the command reads, inline or from the extended buffer (R467). -/
def body (c : Cmd) : List Byte := if isExt c then c.ext.take c.len else c.payload

/-- The little-endian payload field of `n` bytes at offset `o` (R9). -/
def pn (c : Cmd) (o n : Nat) : Nat := fieldN (body c) o n

def p8 (c : Cmd) (o : Nat) : Nat := pn c o 1
def p16 (c : Cmd) (o : Nat) : Nat := pn c o 2
def p32 (c : Cmd) (o : Nat) : Nat := pn c o 4
def p64 (c : Cmd) (o : Nat) : Nat := pn c o 8

/-- A 64-byte submission entry as bytes (R65). -/
def entryBytes (op : Nat) (c : Cmd) : List Byte :=
  leBytes 2 op ++ leBytes 2 c.tag.toNat ++ leBytes 2 c.flags.toNat ++ leBytes 2 c.len ++ leBytes 8 c.extAddr ++
    padTo 48 c.payload

/-! ### Alignment -/

def aligned (n a : Nat) : Bool := a % n == 0

/-- A field defined as a DPA has bits [63:48] zero (R97). -/
def isDpa (a : Nat) : Bool := a < 2 ^ 48

/-! ### Core instruction words (R219) -/

def fA (f : Fields) : Nat := f.a.toNat
def fB (f : Fields) : Nat := f.b.toNat
def fC (f : Fields) : Nat := f.c.toNat
def fImm (f : Fields) : Nat := f.imm.toNat

/-- The instruction word: MAJOR in [63:56], A, B, C and IMM below (R219). -/
def wordOf (major : Nat) (f : Fields) : BitVec 64 := BitVec.ofNat 8 major ++ f.a ++ f.b ++ f.c ++ f.imm

/-- The MAJOR values that the classes of R219 allocate; VPERM's is the last vector code that names an operation (R220). -/
def majorListed (m : Nat) : Bool :=
  decide (m ≤ 0x0E) || (decide (0x40 ≤ m) && decide (m ≤ 0x4E)) || m == 0x80 || m == 0x81 || (decide (0xC0 ≤ m) && decide (m ≤ 0xC9))

/-- Bits [hi:lo] of IMM. -/
def immBits (f : Fields) (hi lo : Nat) : Nat := bits f.imm.toNat hi lo

end Sys2Proof.Machine
end

