-- ==== Sys2Proof/Machine/Status.lean ====
section
/-! DEFINITION. The status codes: the common ones of R78 and each subject's own (R51, R123, R160, R185, R214, R251, R280, R312,
R343, R380, R420, R452). -/
namespace Sys2Proof.Machine.St

def ok : Nat := 0x0000
def busy : Nat := 0x0001
def invalidOpcode : Nat := 0x0002
def invalidField : Nat := 0x0003
def invalidLength : Nat := 0x0004
def badAddress : Nat := 0x0005
def tagInUse : Nat := 0x0006
def wrongState : Nat := 0x0007
def wrongFunction : Nat := 0x0008
def notLicensed : Nat := 0x0009
def claimConflict : Nat := 0x000A
def notClaimed : Nat := 0x000B
def notOwner : Nat := 0x000C
def aborted : Nat := 0x000D
def resourceExhausted : Nat := 0x000E
def poisoned : Nat := 0x000F
def destReset : Nat := 0x0010
def thermalAbort : Nat := 0x0011
def hostFault : Nat := 0x0012
/-- INTERNAL: an invariant check of the device failed; no rule names a case of it, and no command of the model ends with it (R78). -/
def internal : Nat := 0x00FF

def periodRange : Nat := 0x0201
def sourceInvalid : Nat := 0x0202
def notMaster : Nat := 0x0203
def disciplineRange : Nat := 0x0204
def stampPast : Nat := 0x0205
def epochStale : Nat := 0x0206

def regionInvalid : Nat := 0x0301
def regionBusy : Nat := 0x0302
def regionOverlap : Nat := 0x0303
def poolShort : Nat := 0x0304
def windowFenced : Nat := 0x0305
def windowLimit : Nat := 0x0306
def regionDenied : Nat := 0x0307
def moduleRefused : Nat := 0x0308
def pairMismatch : Nat := 0x0309
def regRange : Nat := 0x030A
def thermalFormat : Nat := 0x030B
def thermalLimit : Nat := 0x030C
def tripActive : Nat := 0x030D
def unitAbsent : Nat := 0x030E
def moduleTruncated : Nat := 0x030F
def channelsMappedOut : Nat := 0x0310

def arithFormat : Nat := 0x0401
def orderRange : Nat := 0x0402
def orderDuplicate : Nat := 0x0403
def orderIncomplete : Nat := 0x0404
def orderShape : Nat := 0x0405
def noReservoir : Nat := 0x0406
def resDescriptor : Nat := 0x0407
def resBounds : Nat := 0x0408
def resPlacement : Nat := 0x0409

def foldCheck : Nat := 0x0501
def foldLength : Nat := 0x0502
def foldAtomic : Nat := 0x0503
def foldPartial : Nat := 0x0504
def basisFormat : Nat := 0x0505
def basisInUse : Nat := 0x0506
def basisAbsent : Nat := 0x0507
def notFolded : Nat := 0x0508
def foldPlacement : Nat := 0x0509

def coreInvalid : Nat := 0x0601
def kernelFault : Nat := 0x0602
def tallyTimeout : Nat := 0x0603
def tallyInvalid : Nat := 0x0604
def ledgerFull : Nat := 0x0605
def ledgerSealed : Nat := 0x0606
def partitionBusy : Nat := 0x0607
def quireFormat : Nat := 0x0608
def queueReserved : Nat := 0x0609

def reqStale : Nat := 0x0701
def reqState : Nat := 0x0702
def modelAbsent : Nat := 0x0703
def modelBusy : Nat := 0x0704
def poolLayout : Nat := 0x0705
def poolBusy : Nat := 0x0706
def pagesExhausted : Nat := 0x0707
def contextLimit : Nat := 0x0708
def pinInvalid : Nat := 0x0709
def pinMiss : Nat := 0x070A
def pinMismatch : Nat := 0x070B
def summaryUnavailable : Nat := 0x070C

def stepDisabled : Nat := 0x0801
def stepStale : Nat := 0x0802
def stepAmend : Nat := 0x0803
def stepProgram : Nat := 0x0804
def stepBusy : Nat := 0x0805
def slotInvalid : Nat := 0x0806
def expertShape : Nat := 0x0807

def grammarExhausted : Nat := 0x0901
def grammarFormat : Nat := 0x0902
def grammarAbsent : Nat := 0x0903
def grammarBusy : Nat := 0x0904
def samplingInvalid : Nat := 0x0905
def logitsInvalid : Nat := 0x0906
def flourishLayout : Nat := 0x0907

def linkFenced : Nat := 0x0A01
def linkDown : Nat := 0x0A02
def concordMismatch : Nat := 0x0A03
def routeUnreachable : Nat := 0x0A04
def notInGroup : Nat := 0x0A05
def collMismatch : Nat := 0x0A06
def collTimeout : Nat := 0x0A07
def collFormat : Nat := 0x0A08
def linkState : Nat := 0x0A09
def groupBusy : Nat := 0x0A0A
def remoteTimeout : Nat := 0x0A0B

def imageInvalid : Nat := 0x0B01
def settingsIncompatible : Nat := 0x0B02
def settingsDegraded : Nat := 0x0B03
def stageTimeout : Nat := 0x0B04
def scribeFault : Nat := 0x0B05
def belowServiceable : Nat := 0x0B06
def licenceInvalid : Nat := 0x0B07
def licenceBinding : Nat := 0x0B08
def licenceRollback : Nat := 0x0B09
def fwRollback : Nat := 0x0B0A
def fwSessionBusy : Nat := 0x0B0B
def powerBusy : Nat := 0x0B0C
def cappedTarget : Nat := 0x0B0D
def deviceFault : Nat := 0x0B0E

def traceUnconfigured : Nat := 0x0C01
def markMismatch : Nat := 0x0C02
def markDepth : Nat := 0x0C03
def unitInvalid : Nat := 0x0C04
def obsBusy : Nat := 0x0C05
def notStepping : Nat := 0x0C06

end Sys2Proof.Machine.St
end

