-- ==== Sys2Proof/Machine/Ops.lean ====
section
/-! DEFINITION. The named operations over host memory, rings, completions, events and claims, and the admission of submission
entries (spec/03). -/
namespace Sys2Proof.Machine

/-! ### Host memory (log 5) -/

/-- An unlisted byte of host memory reads 0. -/
def hostDflt : Nat → Byte := fun _ => 0

/-- Whether `n` bytes of host memory at `a` answer (R69). -/
def hostOk (s : State) (a n : Nat) : Bool :=
  s.hostFaults.all (fun f => decide (a + n ≤ f.1) || decide (f.1 + f.2 ≤ a))

def hostGet (s : State) (a n : Nat) : List Byte := cellGets hostDflt s.host a n

def hostPut (s : State) (a : Nat) (b : List Byte) : State := { s with host := cellPuts hostDflt s.host a b }

/-- Bytes that the host interface reads for, or writes to, host memory (R426). -/
def hostBytesRead (s : State) (n : Nat) : State := prog s 0xA000 2 none none n
def hostBytesWritten (s : State) (n : Nat) : State := prog s 0xA000 3 none none n

/-- Bytes that the device writes to host memory. -/
def hostStore (s : State) (a : Nat) (b : List Byte) : State := hostBytesWritten (hostPut s a b) b.length

/-- Bytes of a buffer of `n` bytes at `a`, from its start, that host memory returns (R69). -/
def hostGood (s : State) (a n : Nat) : Nat := s.hostFaults.foldl (fun g f => if f.1 < a + g ∧ a < f.1 + f.2 then f.1 - a else g) n

/-- A read of a buffer, or none when host memory fails. -/
def hostRead? (s : State) (a n : Nat) : Option (List Byte) := if hostOk s a n then some (hostGet s a n) else none

/-- A write of a buffer, or none when host memory fails. -/
def hostWrite? (s : State) (a : Nat) (b : List Byte) : Option State :=
  if hostOk s a b.length then some (hostStore s a b) else none

/-! ### Rings (R54, R56, R63, R64) -/

def ringOf (s : State) (fn n : Nat) : Ring := mget {} (func s fn).rings n

def setRing (s : State) (fn n : Nat) (r : Ring) : State :=
  setFunc s fn { func s fn with rings := mput (func s fn).rings n r }

/-- Whether ring index `n` exists on a function (R56). -/
def ringExists (s : State) (fn n : Nat) : Bool :=
  if fn = 0 then n ≤ 2 || (n ≥ 4 && n ≤ 11 && (n - 4) / 2 ≥ s.ink.numVFs)
  else fn ≤ s.ink.numVFs && (n == 2 || n == 4 || n == 5)

/-- Admin or partition submission ring, by index. -/
def isSubmission (n : Nat) : Bool := n == 0 || (n ≥ 4 && n ≤ 11 && n % 2 == 0)

/-- The partition of a submission ring; none for the admin ring. -/
def ringPart (fn n : Nat) : Option Nat := if fn = 0 then (if n ≥ 4 then some ((n - 4) / 2) else none) else some (fn - 1)

def cmdPart (c : Cmd) : Option Nat := ringPart c.fn c.ring

def ringSize (r : Ring) : Nat := 2 ^ r.log2

/-- Room for one more entry in a completion or event ring: enabled, not held, and short of the head (R67, R68, R469). -/
def ringRoom (s : State) (fn n : Nat) : Bool :=
  let r := ringOf s fn n
  r.en && !r.writesHeld && s.ink.state != stResetting && (r.ptr + 1) % ringSize r != r.other

/-- One 32-byte entry written at the device pointer; a failed write holds the ring (R66, R67, R469). -/
def writeEntry (s : State) (fn n : Nat) (b : List Byte) : State × Bool :=
  let r := ringOf s fn n
  if ringRoom s fn n then
    let a := r.base.toNat + 32 * r.ptr
    if hostOk s a 32 then
      let p := (r.ptr + 1) % ringSize r
      (setRing (hostStore s a (padTo 32 b)) fn n { r with ptr := p, phase := if p = 0 then !r.phase else r.phase }, true)
    else (setFault (setRing s fn n { r with writesHeld := true }) fn St.hostFault (n + 16), false)
  else (s, false)

/-! ### Completions (R66, R68, R74) -/

def completionBytes (k : Completion) (head : Nat) (phase : Bool) : List Byte :=
  leBytes 2 k.tag.toNat ++ leBytes 2 k.status.toNat ++ leBytes 2 head ++ [BitVec.ofNat 8 k.sq, BitVec.ofNat 8 (b2n phase)] ++
    leBytes 8 k.stamp.toNat ++ padTo 16 k.result

/-- An entry counts toward the coalescing of its completion ring (R74). -/
def countIrq (s : State) (fn n : Nat) (irq : Bool) : State :=
  if !irq then s
  else
    let count := (func s fn).coalCount.toNat
    let r := ringOf s fn n
    if count = 0 then setCause (setRing s fn n { r with pendIrq := 0, oldest := none }) fn n
    else if r.pendIrq + 1 ≥ count then setCause (setRing s fn n { r with pendIrq := 0, oldest := none }) fn n
    else setRing s fn n { r with pendIrq := r.pendIrq + 1, oldest := some (r.oldest.getD s.time) }

def drainGo (fn n : Nat) : List Completion → State → State × List Completion
  | [], s => (s, [])
  | k :: r, s =>
    match writeEntry s fn n (completionBytes k (ringOf s fn k.sq).ptr (ringOf s fn n).phase) with
    | (s1, true) => drainGo fn n r (countIrq s1 fn n k.irq)
    | (s1, false) => (s1, k :: r)

/-- Held completions are written in order while the ring has room (R68, R469). -/
def drainCompletions (s : State) (fn n : Nat) : State :=
  let (s1, rest) := drainGo fn n (ringOf s fn n).held s
  setRing s1 fn n { ringOf s1 fn n with held := rest }

/-- The completion of a command: its entry goes to the completion ring of its submission ring (R66), and the primary Scribe
records COMPLETE (R433). -/
def complete (s : State) (c : Cmd) (status : Nat) (result : List Byte) : State :=
  let n := c.ring + 1
  let r := ringOf s c.fn n
  let k : Completion := { tag := c.tag, status := BitVec.ofNat 16 status, sq := c.ring, stamp := stamp s,
                          result := padTo 16 result, irq := !isNoIrq c }
  let s1 := blot (setRing s c.fn n { r with held := r.held ++ [k] }) 0x9000 0x29 (cmdPart c)
    (status % 65536 + c.tag.toNat * 65536 + c.ring * 2 ^ 32)
  drainCompletions (prog s1 0x9000 1 (cmdPart c) none 1) c.fn n

/-! ### Events (R75, R76, R79) -/

/-- The function whose event ring takes a partition's events, or the PF for device-wide ones, part 0xFF (R54, R76). -/
def servingFn (s : State) (part : Nat) : Nat := if part < s.ink.numVFs then part + 1 else 0

def eventBytes (e : Event) (phase lost : Bool) : List Byte :=
  leBytes 2 e.code ++ [BitVec.ofNat 8 (b2n phase + 2 * b2n lost), BitVec.ofNat 8 e.part] ++ leBytes 4 e.epoch.toNat ++
    leBytes 8 e.stamp.toNat ++ padTo 16 e.data

/-- In order of stamp, events of equal stamp in the order raised (R76). -/
def insertEvent (e : Event) (l : List Event) : List Event := insertBy (fun a b => a.stamp.toNat < b.stamp.toNat) e l

def drainEvGo (fn : Nat) : Nat → State → State
  | 0, s => s
  | k + 1, s =>
    match (func s fn).backlog with
    | [] => s
    | e :: r =>
      match writeEntry s fn 2 (eventBytes e (ringOf s fn 2).phase (func s fn).lostFlag) with
      | (s1, false) => s1
      | (s1, true) =>
        let f := func s1 fn
        let f' := match f.waiting with
          | w :: ws => { f with backlog := insertEvent w r, waiting := ws, lostFlag := false }
          | [] => { f with backlog := r, lostFlag := false }
        drainEvGo fn k (setCause (setFunc s1 fn f') fn 2)

/-- Backlogged events are posted while the event ring has room, and waiting held events take their places (R76). -/
def drainEvents (s : State) (fn : Nat) : State :=
  drainEvGo fn ((func s fn).backlog.length + (func s fn).waiting.length) s

/-- An event enters the backlog; a full one loses its oldest droppable event, or the unit raising a held one waits (R76). -/
def enqueueEvent (f : Func) (e : Event) : Func :=
  if f.backlog.length < Config.backlog then { f with backlog := insertEvent e f.backlog }
  else
    match indexOf? (fun x => x.droppable) f.backlog with
    | some i => { f with backlog := insertEvent e (f.backlog.eraseIdx i), lostFlag := true,
                         evtLost := BitVec.ofNat 32 (satAdd 32 f.evtLost.toNat 1) }
    | none =>
      if e.droppable then { f with lostFlag := true, evtLost := BitVec.ofNat 32 (satAdd 32 f.evtLost.toNat 1) }
      else { f with waiting := f.waiting ++ [e] }

/-- Whether a function's filter lets a droppable event through (R79). -/
def passes (f : Func) (code : Nat) : Bool := (mget (BitVec.allOnes 256) f.filters (code / 256)).getLsbD (code % 256)

/-- An event of partition `part` (0xFF for device-wide) with its DATA (R75, R76). -/
def postAt (s : State) (at_ : Stamp) (code part : Nat) (data : List Byte) (droppable : Bool) : State :=
  let fn := servingFn s part
  let f := func s fn
  if droppable && !passes f code then s
  else
    let e : Event := { code := code, part := part, epoch := s.rul.epoch, stamp := at_, data := padTo 16 data,
                       droppable := droppable }
    prog (drainEvents (setFunc s fn (enqueueEvent f e)) fn) 0x9000 2 none none 1

def post (s : State) (code part : Nat) (data : List Byte) (droppable : Bool) : State :=
  postAt s (stamp s) code part data droppable

/-! ### Claims (R83 to R89) -/

/-- The modes of each resource type (R83). -/
def claimModes : Nat → List Nat
  | 1 => [1, 2] | 2 => [1, 2, 3] | 3 => [1, 2] | 4 => [1, 2] | 5 => [1, 2] | 6 => [1, 2, 3] | _ => []

/-- A mode that several owners may hold at once (R83). -/
def claimShared (ty mode : Nat) : Bool := (ty == 3 && mode == 2) || (ty == 6 && (mode == 1 || mode == 2))

/-- A mode that the device claims itself (R87). -/
def claimImplicit (ty mode : Nat) : Bool :=
  (ty == 4 && mode == 1) || (ty == 6 && (mode == 1 || mode == 3)) || (ty == 3 && mode == 2)

/-- Two different modes that the conflict matrix allows together (R84). -/
def claimPair (ty a b : Nat) : Bool := ty == 2 && ((a == 2 && b == 3) || (a == 3 && b == 2))

def resType (res : Nat) : Nat := res / 2 ^ 24
def resInst (res : Nat) : Nat := res % 2 ^ 24
def mkRes (ty inst : Nat) : Nat := ty * 2 ^ 24 + inst
def regionRes (t : Tier) (r : Nat) : Nat := mkRes 6 ((match t with | .fast => 0 | .cap => 2 ^ 23) + r)

/-- A resource ID whose type, instance and Reserved bits R83 allows. -/
def resValid (res : Nat) : Bool :=
  let i := resInst res
  match resType res with
  | 1 => i == 0
  | 2 => i ≤ 5
  | 3 => i ≤ 15
  | 4 => i ≤ 15
  | 5 => i ≤ 3
  | 6 => if i ≥ 2 ^ 23 then i - 2 ^ 23 < Config.capRegions else i < Config.fastRegions
  | _ => false

def holdings (s : State) (res : Nat) : List Holding := s.ink.claims.filter (fun h => h.res == res)

def holds (s : State) (res mode owner : Nat) : Bool := s.ink.claims.contains { res := res, mode := mode, owner := owner }

/-- A mode held by any owner. -/
def heldAny (s : State) (res mode : Nat) : Bool := s.ink.claims.any (fun h => h.res == res && h.mode == mode)

def conflicts (res mode owner : Nat) (h : Holding) : Bool :=
  h.res == res &&
  (if h.mode = mode then !claimShared (resType res) mode && h.owner != owner else !claimPair (resType res) h.mode mode)

/-- The earliest granted holding that conflicts with a claim (R85). -/
def conflict? (s : State) (res mode owner : Nat) : Option Holding := s.ink.claims.find? (conflicts res mode owner)

def grant (s : State) (res mode owner : Nat) : State :=
  if holds s res mode owner then s else { s with ink.claims := s.ink.claims ++ [{ res := res, mode := mode, owner := owner }] }

def ungrant (s : State) (p : Holding → Bool) : State := { s with ink.claims := s.ink.claims.filter (fun h => !p h) }

def implicitRelease (s : State) (res mode : Nat) : State :=
  ungrant s (fun h => h.res == res && h.mode == mode && h.owner == 0xFE)

/-! ### Partitions -/

def partOf (s : State) (p : Nat) : Part := mget {} s.cpu.parts p

/-- Whether a partition is configured: it holds a quadrant (R231). -/
def configured (s : State) (p : Nat) : Bool := (partOf s p).mask != 0

/-! ### Admission (R61, R77, R80, R467, R468) -/

/-- What a command's chapter fixes of its entry: opcode, bytes of payload needed, whether the buffer must be extended, whether
a VF may issue it, where the partition it names lies, and any further use that a VF is refused. `full` is the length that the contents of an
extended payload imply, and `long` says that this entry's contents call for an extended buffer where others of the command do not. -/
structure FwSpec where
  op : Nat
  need : Nat := 0
  ext : Bool := false
  full : State → Cmd → Nat := fun _ _ => 0
  long : Cmd → Bool := fun _ => false
  vf : Bool := true
  part : Option Nat := none
  refuse : Cmd → State → Bool := fun _ _ => false

/-- The opcodes of 0x0Bxx that MINIMAL, CAPPED and FAULTED admit (R61). -/
def minimalOps : List Nat := [0x0B01, 0x0B06, 0x0B07, 0x0B08, 0x0B09, 0x0B0A, 0x0B0B, 0x0B0C, 0x0B0D]
def cappedOps : List Nat := [0x0B0F, 0x0B10]
def faultedOps : List Nat := [0x0B01, 0x0B02, 0x0B04, 0x0B06, 0x0B0B, 0x0B0D, 0x0B10]

/-- Whether a device state admits an opcode (R61). -/
def admits (st : BitVec 4) (op : Nat) : Bool :=
  if st = stReady ∨ st = stDegraded then true
  else if st = stBringup then op == 0x0101 || op == 0x0102
  else if st = stMinimal then op / 256 == 1 || minimalOps.contains op
  else if st = stDiagnostic then op / 256 == 1 || op / 256 == 0xB || op / 256 == 0xC || op == 0x030A || op == 0x0313
  else if st = stCapped then op == 0x0101 || op == 0x0102 || cappedOps.contains op
  else if st = stFaulted then op == 0x0101 || op == 0x0102 || faultedOps.contains op
  else false

/-- Whether the device fetches a ring in its state (R61): all, the admin ring, or none. -/
def stateFetches (st : BitVec 4) (n : Nat) : Bool :=
  if st = stReady ∨ st = stDegraded then true
  else if st = stRom ∨ st = stLoading ∨ st = stResetting then false
  else n == 0

/-- A submission ring that the device may fetch from (R57, R61, R63, R469); entry to the Cap state stops partition rings (R415). -/
def fetchable (s : State) (fn n : Nat) : Bool :=
  isSubmission n && ringExists s fn n && (func s fn).en && (ringOf s fn n).en && !(ringOf s fn n).stopped &&
    stateFetches s.ink.state n && !(s.pwr.capEntering && n != 0)

/-- A trace buffer instance of a quadrant that no configured partition holds (R80, R83). -/
def unheldQuadrant (s : State) (q : Nat) : Bool := (List.range 4).all (fun p => !(partOf s p).mask.getLsbD q)

/-- Whether a resource is partition-scoped to partition `p` (R80, R83). -/
def scopedTo (s : State) (p res : Nat) : Bool :=
  match resType res with
  | 2 => resInst res ≤ 3 && (partOf s p).mask.getLsbD (resInst res)
  | 5 => resInst res == p
  | _ => false

/-- Item 4 of R468: the opcode is not admitted from the function or on the ring (R77, R80). -/
def wrongFunction (sp : FwSpec) (c : Cmd) (s : State) : Bool :=
  let claimOp := sp.op == 0x0103 || sp.op == 0x0104 || sp.op == 0x0105
  if sp.op / 256 = 1 then
    if claimOp then
      match cmdPart c with
      | some p => !scopedTo s p (p32 c 0)
      | none => false
    else c.ring != 0 || c.fn != 0
  else
    c.fn != 0 &&
      (!sp.vf || sp.op / 256 == 0xA || sp.op / 256 == 0xB || sp.refuse c s ||
        match sp.part with | some o => p8 c o != c.fn - 1 | none => false)

/-- Item 5 of R468; a VF whose partition is not configured admits nothing (R90). -/
def wrongState (sp : FwSpec) (c : Cmd) (s : State) : Bool :=
  (c.fn != 0 && !configured s (c.fn - 1)) || !admits s.ink.state sp.op

/-- The payload requirement of an entry (R467). -/
def required (sp : FwSpec) (c : Cmd) (s : State) : Nat := max sp.need (sp.full s c)

/-- An entry whose payload lies in an extended buffer by its command's own layout (R467). -/
def needsExt (sp : FwSpec) (c : Cmd) : Bool := sp.ext || sp.long c

/-- The part of the extended buffer that the command reads did not come from host memory: a longer buffer is read only to the requirement
(R467, R468). -/
def extLost (sp : FwSpec) (c : Cmd) (s : State) : Bool := isExt c && decide (c.good < min c.len (required sp c s))

/-- LENGTH is short of the requirement, the payload should be extended and is not, or an inline payload carried with EXT is longer than
the 48 B that an inline one may have (R467). -/
def badLength (sp : FwSpec) (c : Cmd) (s : State) : Bool :=
  decide (c.len < required sp c s) || (needsExt sp c && !isExt c) || (!needsExt sp c && isExt c && decide (c.len > 48))

/-- Items 1 to 7 of R468, in their order; `dup` says that the tag is that of an outstanding command. -/
def judge (sp : FwSpec) (c : Cmd) (dup : Bool) (s : State) : Option Nat :=
  firstFail
    [ (dup, St.tagInUse),
      (decide (c.flags.toNat ≥ 8), St.invalidField),
      (if isExt c then c.len == 0 || decide (c.len > 65535) else decide (c.len > 48), St.invalidLength),
      (isExt c && c.extAddr % 64 != 0, St.badAddress),
      (wrongFunction sp c s, St.wrongFunction),
      (wrongState sp c s, St.wrongState),
      (extLost sp c s, St.hostFault),
      (badLength sp c s, St.invalidLength) ]

/-- What a command's own chapter answers: a completion, a wait that a later event ends, or that an access of it is held, so that it has not
begun (R131, R155, log 104). -/
inductive Answer where
  | done (status : Nat) (result : List Byte) (s : State)
  | wait (w : Wait) (s : State)
  | held

def sameRing (a b : Cmd) : Bool := a.fn == b.fn && a.ring == b.ring
def sameTag (a b : Cmd) : Bool := sameRing a b && a.tag == b.tag

/-- Ring order, FENCE and the room for its completion let a command start (R68, R71). `before` are entries fetched before it. -/
def startable (s : State) (c : Cmd) (before : List Sub) : Bool :=
  before.all (fun e => !sameRing e.cmd c) &&
  !(isFence c && s.ink.running.any (fun r => sameRing r.cmd c)) &&
  (let r := ringOf s c.fn (c.ring + 1)
   r.held.isEmpty && (!r.en || (r.ptr + 1) % ringSize r != r.other))

/-- A started command: judged, then run by its chapter (R468); `back` is the state in which it stays fetched. -/
def begin_ (sp : FwSpec) (body : Cmd → State → Answer) (c : Cmd) (dup : Bool) (s back : State) : State :=
  match judge sp c dup s with
  | some st => complete s c st []
  | none =>
    match body c s with
    | .done st res s1 => complete s1 c st res
    | .wait w s1 => { s1 with ink.running := s1.ink.running ++ [{ opcode := sp.op, cmd := c, wait := w }] }
    | .held => back

/-- A duplicate of an outstanding tag of the same ring (R69). -/
def duplicate (s : State) (c : Cmd) : Bool :=
  s.ink.fetched.any (fun e => sameTag e.cmd c) || s.ink.running.any (fun r => sameTag r.cmd c)

/-- The order in which the arbiter takes claims: stamp, function, ring (R86). -/
def claimBefore (a b : Cmd) : Bool :=
  decide (a.stamp.toNat < b.stamp.toNat) ||
    (a.stamp == b.stamp && (decide (a.fn < b.fn) || (a.fn == b.fn && decide (a.ring < b.ring))))

/-- The entry of 64 B, with its extended buffer as host memory returns it (R65, R467). -/
def subOfBytes (s : State) (fn n : Nat) (st : Stamp) (b : List Byte) : Sub :=
  let ext := fieldN b 4 2 % 2 == 1
  let len := fieldN b 6 2
  let addr := fieldN b 8 8
  { opcode := fieldN b 0 2,
    cmd := { fn := fn, ring := n, tag := BitVec.ofNat 16 (fieldN b 2 2), flags := BitVec.ofNat 16 (fieldN b 4 2), len := len,
             extAddr := addr, payload := slice b 16 48, ext := if ext then hostGet s addr len else [],
             good := if ext then hostGood s addr len else 0, stamp := st } }

/-- The entry that a ring has at its device pointer, if it has one to fetch that can be read (R64, R65, R70). -/
def nextEntry (s : State) (fn n : Nat) : Option Sub :=
  let r := ringOf s fn n
  let a := r.base.toNat + 64 * r.ptr
  if fetchable s fn n && r.ptr != r.other && hostOk s a 64 then some (subOfBytes s fn n (mget 0 r.stamps r.ptr) (hostGet s a 64)) else none

/-- CLAIM and RELEASE, which the claim arbiter executes (R86). -/
def isClaimOp (op : Nat) : Bool := op == 0x0103 || op == 0x0104

/-- FOLD_LAYOUT_LOAD, MEM_WINDOW_SET and RES_GATHER: their implicit claims enter the arbiter's order (R86, R87). -/
def claimsImplicitly (op : Nat) : Bool := op == 0x0504 || op == 0x0308 || op == 0x0404

/-- The commands of the serving block, which it carries out in the order of their doorbell stamps (R273). -/
def isServingOp (op : Nat) : Bool := op / 256 == 7 || op / 256 == 8

/-- Every command of a kind that could start: among the fetched entries, and at the pointer of a ring that has none fetched. -/
def waitingOps (s : State) (kind : Nat → Bool) : List Sub :=
  ((List.range s.ink.fetched.length).filterMap (fun i => s.ink.fetched[i]?.filter (fun e =>
    kind e.opcode && startable s e.cmd (s.ink.fetched.take i)))) ++
  ((List.range 80).filterMap (fun k => (nextEntry s (k / 16) (k % 16)).filter (fun e =>
    kind e.opcode && startable s e.cmd s.ink.fetched)))

def waitingClaims (s : State) : List Sub := waitingOps s isClaimOp

/-- Whether a unit waits with a held event that has no place in the backlog (R76): a subject's, for a partition or for the device. -/
def unitWaits (s : State) (subject part : Nat) : Bool :=
  s.ink.funcs.any (fun f => f.2.waiting.any (fun e => e.code / 256 == subject && e.part == part))

/-- The request ledger serves every partition. -/
def ledgerWaits (s : State) : Bool := (List.range 4).any (unitWaits s 7)

/-- A proposal stamped S comes before every command stamped S or later (R284). -/
def checkAhead (s : State) (c : Cmd) : Bool :=
  s.stp.comps.any (fun k => match k.2.check with | some a => decide (a.toNat ≤ c.stamp.toNat) | none => false)

/-- An earlier CLAIM or RELEASE that could start is taken first, and before an implicit claim every one that has been submitted (R86); an
earlier command of the serving block, and a proposal that has fallen due, come before one of the serving block (R273, R284). A request
ledger that waits with an event starts no command (R76). -/
def arbiterWaits (s : State) (op : Nat) (c : Cmd) : Bool :=
  (op / 256 == 7 && ledgerWaits s) || (isServingOp op && (checkAhead s c || (waitingOps s isServingOp).any (fun e => !sameRing e.cmd c && claimBefore e.cmd c))) ||
  (isClaimOp op && (waitingClaims s).any (fun e => !sameRing e.cmd c && claimBefore e.cmd c)) ||
  (claimsImplicitly op && (waitingClaims s).any (fun e => !sameRing e.cmd c && decide (e.cmd.stamp.toNat ≤ (stamp s).toNat)))

/-- A CLAIM that waits, was submitted by now and would be granted conflicts with an implicit claim as a holding does: it is taken first
(R86). -/
def claimAhead (s : State) (res mode : Nat) : Bool :=
  (waitingClaims s).any (fun e =>
    e.opcode == 0x0103 && decide (e.cmd.stamp.toNat ≤ (stamp s).toNat) &&
    conflicts res mode 0xFE { res := p32 e.cmd 0, mode := p8 e.cmd 4, owner := e.cmd.fn } &&
    (claimModes (resType res)).contains (p8 e.cmd 4) && !claimImplicit (resType res) (p8 e.cmd 4) &&
    (conflict? s res (p8 e.cmd 4) e.cmd.fn).isNone)

/-- Whether an implicit claim of the device meets nothing that it conflicts with (R86, R87). -/
def implicitFree (s : State) (res mode : Nat) : Bool := (conflict? s res mode 0xFE).isNone && !claimAhead s res mode

/-- An implicit claim of the device, owner 0xFE (R87), or none when it conflicts. -/
def implicitClaim (s : State) (res mode : Nat) : Option State := if implicitFree s res mode then some (grant s res mode 0xFE) else none

/-- The step of a firmware command (R65 to R71, log 6): the fetched entry of the same tag is begun; an entry not fetched before
is taken as arriving now. Where order, FENCE or a full ring holds it back, it stays fetched. -/
def firmware (sp : FwSpec) (body : Cmd → State → Answer) (c : Cmd) (s : State) : State :=
  match indexOf? (fun e => e.opcode == sp.op && sameTag e.cmd c) s.ink.fetched with
  | some i =>
    match s.ink.fetched[i]? with
    | some e =>
      if startable s e.cmd (s.ink.fetched.take i) && !arbiterWaits s sp.op e.cmd then
        begin_ sp body e.cmd false { s with ink.fetched := s.ink.fetched.eraseIdx i } s
      else s
    | none => s
  | none =>
    if !fetchable s c.fn c.ring then s
    else
      let s0 := blot s 0x9000 0x28 (cmdPart c) (sp.op + c.tag.toNat * 65536 + c.ring * 2 ^ 32 + c.fn * 2 ^ 40)
      if duplicate s c then complete s0 c St.tagInUse []
      else
        let back := { s0 with ink.fetched := s0.ink.fetched ++ [{ opcode := sp.op, cmd := c }] }
        if startable s c s.ink.fetched && !arbiterWaits s sp.op c then begin_ sp body c false s0 back else back

/-- A failed check of the chapter completes the command without effect. -/
def checked (checks : List (Bool × Nat)) (s : State) (r : Answer) : Answer :=
  match firstFail checks with
  | some st => .done st [] s
  | none => r

/-- A command whose accesses are held has not begun (R131, R155). -/
def unheld (waits : Bool) (r : Answer) : Answer := if waits then .held else r

/-- A result buffer in host memory, written before the completion; a failed write completes with HOST_FAULT (R66, R469). -/
def reportTo (a : Nat) (b : List Byte) (res : List Byte) (s : State) : Answer :=
  match hostWrite? s a b with
  | some s1 => .done St.ok res s1
  | none => .done St.hostFault [] s

/-- The begun commands that wait for `w` complete (log 7). -/
def finishWait (s : State) (w : Wait) (status : Nat) (result : List Byte) : State :=
  let hits := s.ink.running.filter (fun r => r.wait == w)
  hits.foldl (fun s r => complete s r.cmd status result)
    { s with ink.running := s.ink.running.filter (fun r => r.wait != w) }

/-- Fetched and not begun commands that satisfy `p` complete with ABORTED (R58, R90). -/
def abortFetched (s : State) (p : Cmd → Bool) : State :=
  let hits := s.ink.fetched.filter (fun e => p e.cmd)
  hits.foldl (fun s e => complete s e.cmd St.aborted [])
    { s with ink.fetched := s.ink.fetched.filter (fun e => !p e.cmd) }

end Sys2Proof.Machine
end

