-- ==== Sys2Proof/Machine/Codes.lean ====
section
/-! DEFINITION. Check codes: CRC-16 (R192), CRC-32 of IEEE 802.3 (R194, R329, R400, R404), CRC-64 (R352), SHA-384 (R368, R393,
R398), and the device ECC code over GF(2^8) (R146, R147). -/
namespace Sys2Proof.Machine

/-! ### CRCs -/

/-- One bit of a CRC shifted out at the top. -/
def crcBitMsb (w poly : Nat) (acc : Nat) : Nat :=
  if acc.testBit (w - 1) then ((acc <<< 1) % 2 ^ w) ^^^ poly else (acc <<< 1) % 2 ^ w

def iter {α : Type} (f : α → α) : Nat → α → α
  | 0, x => x
  | n + 1, x => iter f n (f x)

/-- A CRC with the most significant bit first, without reflection. -/
def crcMsb (w poly init : Nat) (l : List Byte) : Nat :=
  l.foldl (fun acc b => iter (crcBitMsb w poly) 8 (acc ^^^ (b.toNat <<< (w - 8)))) init

/-- CRC-16 of a folded block (R192). -/
def crc16 (l : List Byte) : Nat := crcMsb 16 0x1021 0xFFFF l

/-- CRC-64 of a flit or digest (R352). -/
def crc64 (l : List Byte) : Nat := crcMsb 64 0x42F0E1EBA9EA3693 (2 ^ 64 - 1) l ^^^ (2 ^ 64 - 1)

def crc32Bit (acc : Nat) : Nat := if acc.testBit 0 then (acc >>> 1) ^^^ 0xEDB88320 else acc >>> 1

/-- CRC-32 of IEEE 802.3. -/
def crc32 (l : List Byte) : BitVec 32 :=
  BitVec.ofNat 32 (l.foldl (fun acc b => iter crc32Bit 8 (acc ^^^ b.toNat)) 0xFFFFFFFF ^^^ 0xFFFFFFFF)

/-! ### SHA-384 (FIPS 180-4), whose constants are the fractional parts of roots of primes -/

/-- floor of the n-th root of `v`, by bits from `fuel` down. -/
def rootGo (n v : Nat) : Nat → Nat → Nat
  | 0, r => r
  | fuel + 1, r => let c := r + 2 ^ fuel; rootGo n v fuel (if c ^ n ≤ v then c else r)

def nroot (n v width : Nat) : Nat := rootGo n v width 0

def isPrime (n : Nat) : Bool := n ≥ 2 && (List.range n).all (fun d => d < 2 || n % d ≠ 0)

def shaPrimes : List Nat := (List.range 410).filter isPrime

/-- First 64 bits of the fractional part of the square root. -/
def fracSqrt (p : Nat) : Nat := nroot 2 (p * 2 ^ 128) 70 % 2 ^ 64

/-- First 64 bits of the fractional part of the cube root. -/
def fracCbrt (p : Nat) : Nat := nroot 3 (p * 2 ^ 192) 70 % 2 ^ 64

def shaK : List (BitVec 64) := (shaPrimes.take 80).map (fun p => BitVec.ofNat 64 (fracCbrt p))

def shaInit : List (BitVec 64) := ((shaPrimes.drop 8).take 8).map (fun p => BitVec.ofNat 64 (fracSqrt p))

def shaS0 (x : BitVec 64) : BitVec 64 := x.rotateRight 28 ^^^ x.rotateRight 34 ^^^ x.rotateRight 39
def shaS1 (x : BitVec 64) : BitVec 64 := x.rotateRight 14 ^^^ x.rotateRight 18 ^^^ x.rotateRight 41
def shaG0 (x : BitVec 64) : BitVec 64 := x.rotateRight 1 ^^^ x.rotateRight 8 ^^^ x >>> 7
def shaG1 (x : BitVec 64) : BitVec 64 := x.rotateRight 19 ^^^ x.rotateRight 61 ^^^ x >>> 6

/-- The message schedule; the window holds the last 16 words, newest first. -/
def shaExpand : Nat → List (BitVec 64) → List (BitVec 64) → List (BitVec 64)
  | 0, _, out => out.reverse
  | n + 1, w, out =>
    let t := shaG1 (w.getD 1 0) + w.getD 6 0 + shaG0 (w.getD 14 0) + w.getD 15 0
    shaExpand n (t :: w.take 15) (t :: out)

def shaRound (h : List (BitVec 64)) (kw : BitVec 64 × BitVec 64) : List (BitVec 64) :=
  match h with
  | [a, b, c, d, e, f, g, hh] =>
    let t1 := hh + shaS1 e + ((e &&& f) ^^^ (~~~e &&& g)) + kw.1 + kw.2
    let t2 := shaS0 a + ((a &&& b) ^^^ (a &&& c) ^^^ (b &&& c))
    [t1 + t2, a, b, c, d + t1, e, f, g]
  | _ => h

def shaBlock (ks h : List (BitVec 64)) (block : List Byte) : List (BitVec 64) :=
  let w := (chunks 8 block).map (fun b => BitVec.ofNat 64 (beNat b))
  let ws := w ++ shaExpand 64 w.reverse []
  List.zipWith (· + ·) h ((List.zip ks ws).foldl shaRound h)

def sha384 (m : List Byte) : List Byte :=
  let padLen := (239 - m.length % 128) % 128
  let msg := m ++ [0x80] ++ zeros padLen ++ beBytes 16 (8 * m.length)
  let ks := shaK
  let h := (chunks 128 msg).foldl (shaBlock ks) shaInit
  ((h.take 6).map (fun x => beBytes 8 x.toNat)).flatten

/-! ### The device ECC code -/

/-- Multiplication by alpha in GF(2^8) with polynomial 0x11D (R146). -/
def gfX (a : Nat) : Nat := if a.testBit 7 then ((a <<< 1) % 256) ^^^ 0x1D else a <<< 1

/-- Multiplication in GF(2^8), by the bits of `b` from the lowest. -/
def gfMulGo : Nat → Nat → Nat → Nat → Nat
  | 0, _, _, acc => acc
  | n + 1, a, b, acc => gfMulGo n (gfX a) (b / 2) (if b % 2 = 1 then acc ^^^ a else acc)

def gfMul (a b : Nat) : Nat := gfMulGo 8 a b 0

def gfPow (p : Nat) : Nat := iter gfX (p % 255) 1

/-- The inverse, a^254. -/
def gfInv (a : Nat) : Nat := iter (gfMul a) 253 a

/-- Syndrome S_j of the 68 symbols, by Horner's rule from the highest position (R146). -/
def syndrome (j : Nat) (symbols : List Nat) : Nat :=
  let x := gfPow j
  symbols.reverse.foldl (fun acc c => gfMul acc x ^^^ c) 0

/-- The check symbols C0, C1, C2 of 65 symbols (R146): the solution of S_0 = S_1 = S_2 = 0 at positions 65, 66, 67. -/
def checkSymbols (symbols : List Nat) : List Nat :=
  let s0 := syndrome 0 symbols
  let s1 := syndrome 1 symbols
  let s2 := syndrome 2 symbols
  -- with y_k = C_k alpha^(65 j): sum_k C_k = s0, sum_k C_k X_k = s1, sum_k C_k X_k^2 = s2, X_k = alpha^(65+k)
  let x0 := gfPow 65
  let x1 := gfPow 66
  let x2 := gfPow 67
  let solve (a b c : Nat) : Nat :=
    -- C at X = a: (s2 + (b + c) s1 + b c s0) / ((a + b)(a + c))
    gfMul (s2 ^^^ gfMul (b ^^^ c) s1 ^^^ gfMul (gfMul b c) s0) (gfInv (gfMul (a ^^^ b) (a ^^^ c)))
  [solve x0 x1 x2, solve x1 x0 x2, solve x2 x0 x1]

/-- The check word of a granule: metadata byte with POISON in bit 0, then C0 to C2 (R146). -/
def checkWord (data : List Byte) (poison : Bool) : List Byte :=
  let symbols := (padTo 64 data).map (·.toNat) ++ [b2n poison]
  BitVec.ofNat 8 (b2n poison) :: (checkSymbols symbols).map (BitVec.ofNat 8)

/-- What the controller finds in a granule (R147). -/
inductive Ecc where
  | clean | ce (position : Nat) | ue
deriving DecidableEq, Repr

/-- The position p at most 67 with alpha^p = x, if there is one. -/
def gfLog (x : Nat) : Option Nat := findFrom (fun p => gfPow p == x) 68 0

/-- Decoding of R147: the data, the stored POISON bit and the finding. -/
def eccDecode (data check : List Byte) : List Byte × Bool × Ecc :=
  let sym := (padTo 64 data).map (·.toNat) ++ (padTo 4 check).map (·.toNat)
  let s0 := syndrome 0 sym
  let s1 := syndrome 1 sym
  let s2 := syndrome 2 sym
  let poison := bit (sym.getD 64 0) 0
  if s0 = 0 ∧ s1 = 0 ∧ s2 = 0 then (padTo 64 data, poison, .clean)
  else if s0 ≠ 0 ∧ s1 ≠ 0 ∧ s2 ≠ 0 ∧ gfMul s1 s1 = gfMul s0 s2 then
    match gfLog (gfMul s1 (gfInv s0)) with
    | some p =>
      let fixed := sym.set p (sym.getD p 0 ^^^ s0)
      ((fixed.take 64).map (BitVec.ofNat 8), bit (fixed.getD 64 0) 0, .ce p)
    | none => (padTo 64 data, poison, .ue)
  else (padTo 64 data, poison, .ue)

end Sys2Proof.Machine
end

