-- ==== Sys2Proof/Machine/Settings.lean ====
section
/-! DEFINITION. The settings store (R404 to R406), and the bodies of its sections: defect map (R393), licences (R407), link settings
(R347) and group configuration (R368). -/
namespace Sys2Proof.Machine

/-! ### Banks (R404) -/

/-- Whether bank 0 is the current one: valid, and of the higher sequence. -/
def bank0Current (s : State) : Bool := s.pwr.bank0.valid && (!s.pwr.bank1.valid || decide (s.pwr.bank0.seq ≥ s.pwr.bank1.seq))

/-- The current bank. -/
def curBank (s : State) : Option Bank :=
  if bank0Current s then some s.pwr.bank0 else if s.pwr.bank1.valid then some s.pwr.bank1 else none

def storeSections (s : State) : List Section := match curBank s with | some b => b.sections | none => []

/-- The whole store written into the other bank with the sequence plus 1. -/
def writeStore (s : State) (l : List Section) : State :=
  let b : Bank := { seq := match curBank s with | some c => (c.seq + 1) % 2 ^ 32 | none => 1, valid := true, sections := l }
  if bank0Current s then { s with pwr.bank1 := b } else { s with pwr.bank0 := b }

/-! ### Sections (R404, R405) -/

def secIdentity : Nat := 0x0001
def secLicences : Nat := 0x0002
def secDefect : Nat := 0x0003
def secBringup : Nat := 0x0010
def secLinks : Nat := 0x0011
def secGroup : Nat := 0x0012
def secMgmt : Nat := 0x0013

def sectionIds : List Nat := [secIdentity, secLicences, secDefect, secBringup, secLinks, secGroup, secMgmt]

/-- Mandatory, versions read, version written. -/
def secInfo : Nat → Option (Bool × List Nat × Nat)
  | 0x0001 => some (true, [1], 1)
  | 0x0002 => some (true, [1, 2], 2)
  | 0x0003 => some (true, [2, 3], 3)
  | 0x0010 => some (false, [1], 1)
  | 0x0011 => some (false, [1], 1)
  | 0x0012 => some (false, [1, 2], 2)
  | 0x0013 => some (false, [1], 1)
  | _ => none

def secMandatory (id : Nat) : Bool := match secInfo id with | some i => i.1 | none => false
def secWritten (id : Nat) : Nat := match secInfo id with | some i => i.2.2 | none => 0

/-- The section of an ID that is not KEPT, or else the KEPT one. -/
def findSection (l : List Section) (id : Nat) : Option Section :=
  match l.find? (fun x => x.id == id && !x.kept) with
  | some x => some x
  | none => l.find? (fun x => x.id == id)

/-- A section with its CRC. -/
def mkSection (id ver : Nat) (body : List Byte) : Section :=
  { id := id, ver := ver, crc := crc32 body, mandatory := secMandatory id, kept := false, body := body }

/-- Header and padded body. -/
def sectionBytes (x : Section) : List Byte :=
  leBytes 2 x.id ++ leBytes 2 x.ver ++ leBytes 4 x.body.length ++ leBytes 4 x.crc.toNat ++
    [BitVec.ofNat 8 (b2n x.mandatory + 2 * b2n x.kept), 0, 0, 0] ++ padTo (16 * ceilDiv x.body.length 16) x.body

/-! ### Licences (R407) -/

/-- Bytes of a record with n entries. -/
def licenceLen (b : List Byte) : Nat := 24 + 8 * fieldN b 1 1 + 96

/-- A record's format: version, 1 to 16 entries of known features with limits in range, and its length (R407). -/
def licenceFormat (b : List Byte) : Bool :=
  let n := fieldN b 1 1
  fieldN b 0 1 == 1 && decide (1 ≤ n) && decide (n ≤ 16) && b.length == licenceLen b &&
    (List.range n).all (fun k =>
      let f := fieldN b (24 + 8 * k) 2
      let l := fieldN b (28 + 8 * k) 4
      (f == 1 && decide (1 ≤ l) && decide (l ≤ 3)) || (f == 2 && decide (1 ≤ l) && decide (l ≤ 1024)) || (f == 3 && l == 1))

/-- A record whose signature's outcome is known. -/
def parseLicence (sigOk : List Byte → Bool) (b : List Byte) : Licence :=
  { serial := fieldN b 4 4, unique := fieldN b 8 8,
    entries := (List.range (fieldN b 1 1)).map (fun k => (fieldN b (24 + 8 * k) 2, fieldN b (28 + 8 * k) 4)),
    raw := b, sigOk := licenceFormat b && sigOk b }

/-- The records of a LICENCES body, each as long as its entries make it; none when one is cut short. -/
def splitLicences : Nat → List Byte → Option (List (List Byte))
  | 0, b => if b.isEmpty then some [] else none
  | k + 1, b =>
    if b.isEmpty then some []
    else if b.length < licenceLen b then none
    else (splitLicences k (b.drop (licenceLen b))).map (fun l => b.take (licenceLen b) :: l)

/-- A signature that LICENCE_INSTALL found good stays good; of any other the outcome is open (log 11). -/
def licenceGood (s : State) (b : List Byte) : Bool := s.pwr.sigGood.contains b || Config.licenceSig b

/-- The limit of a feature in the record of highest serial that lists it, or none when it is not licensed. -/
def licenceLimit (s : State) (feature : Nat) : Option Nat :=
  let hits := (s.pwr.licences.filter (fun l => l.sigOk && l.unique == Config.uniqueId)).filterMap (fun l =>
    (l.entries.find? (fun e => e.1 == feature)).map (fun e => (l.serial, e.2)))
  match sortBy (fun a b => decide (a.1 > b.1)) hits with
  | e :: _ => some e.2
  | [] => none

/-! ### The defect map (R393) -/

def bitmap (n : Nat) (l : List Nat) : List Byte := leBytes n (maskOf l)

def defectBody (d : Defect) : List Byte :=
  leBytes 2 d.repairs.length ++ zeros 14 ++ ((List.range 24).map (fun k => leBytes 8 (mget 0 d.sigs k).toNat)).flatten ++
    bitmap 32 d.fastOut ++ bitmap 16 d.capOut ++ bitmap 32 d.fastMark ++ bitmap 16 d.capMark ++ bitmap 20 d.coresOut ++
    bitmap 11 d.expOut ++ bitmap 1 d.pipesOut ++ zeros 16 ++
    (d.repairs.map (fun r => [BitVec.ofNat 8 r.1, 0, BitVec.ofNat 8 r.2.1, BitVec.ofNat 8 r.2.2])).flatten

def bitmapAt (b : List Byte) (off n : Nat) : List Nat := bitList (8 * n) (fieldN b off n)

/-- Version 2 lacks byte 335. -/
def parseDefect (ver : Nat) (b : List Byte) : Defect :=
  { sigs := ((List.range 24).map (fun k => (k, BitVec.ofNat 64 (fieldN b (16 + 8 * k) 8)))).filter (fun e => e.2 != 0),
    fastOut := bitmapAt b 208 32, capOut := bitmapAt b 240 16, fastMark := bitmapAt b 256 32, capMark := bitmapAt b 288 16,
    coresOut := bitmapAt b 304 20, expOut := (bitmapAt b 324 11).filter (· < 88), pipesOut := if ver = 2 then [] else bitmapAt b 335 1,
    repairs := (List.range (fieldN b 0 2)).map (fun k => (fieldN b (352 + 4 * k) 1, fieldN b (354 + 4 * k) 1, fieldN b (355 + 4 * k) 1)) }

/-! ### Link settings (R347) -/

def linkRecord (l : Nat) (x : LinkCfg) : List Byte :=
  [BitVec.ofNat 8 l, BitVec.ofNat 8 (b2n x.enable + 2 * x.rate + 4 * x.channel + 16 * b2n x.encReq), BitVec.ofNat 8 x.preset, x.rxPol, x.txPol] ++
    leBytes 3 x.lanes.toNat ++ leBytes 2 x.limit ++ zeros 6

def parseLinkCfg (b : List Byte) : LinkCfg :=
  let f := fieldN b 1 1
  { enable := bit f 0, rate := bits f 1 1, channel := bits f 3 2, encReq := bit f 4, preset := fieldN b 2 1,
    rxPol := BitVec.ofNat 8 (fieldN b 3 1), txPol := BitVec.ofNat 8 (fieldN b 4 1), lanes := BitVec.ofNat 24 (fieldN b 5 3),
    limit := fieldN b 8 2 }

/-- Fields of R347 out of range. -/
def linkRecordBad (b : List Byte) : Bool :=
  decide (fieldN b 0 1 > 15) || bits (fieldN b 1 1) 3 2 == 3 || fieldN b 8 2 == 0 || decide (fieldN b 8 2 > 500)

/-- The LINKS body that holds the settings in service. -/
def linksBody (s : State) : List Byte := ((List.range 16).map (fun l => linkRecord l (mget {} s.duc.links l).cfg)).flatten

/-! ### Group configuration (R368) -/

def groupMembers (b : List Byte) : List Nat := (List.range (fieldN b 6 2)).map (fun k => fieldN b (4160 + 2 * k) 2)

/-- First 32 B of the digest over bytes 0 to 3, bytes 6 to 7 and the member list. -/
def groupHash (b : List Byte) : List Byte :=
  (sha384 (slice b 0 4 ++ slice b 6 2 ++ slice b 4160 (2 * fieldN b 6 2))).take 32

def ascending : List Nat → Bool
  | a :: b :: r => decide (a < b) && ascending (b :: r)
  | _ => true

/-- Fields of R368 out of range. -/
def groupBad (b : List Byte) : Bool :=
  let ms := groupMembers b
  fieldN b 0 4 == 0 || ms.isEmpty || decide (ms.length > 4096) || !ms.contains (fieldN b 4 2) || !ascending ms || ms.any (fun m => decide (m > 4095)) ||
    decide (fieldN b 8 4 < 100) || decide (fieldN b 8 4 > 1000000) || fieldN b 12 2 == 0 ||
    (List.range 4096).any (fun i => let l := fieldN b (64 + i) 1; decide (l > 15) && l != 0xFF)

def parseGroup (b : List Byte) : Group :=
  { id := fieldN b 0 4, index := fieldN b 4 2, members := groupMembers b, remoteUs := fieldN b 8 4, lines := fieldN b 12 2,
    routes := ((List.range 4096).map (fun i => (i, fieldN b (64 + i) 1))).filter (fun e => decide (e.2 < 16)), hash := groupHash b, raw := b }

/-! ### Reading and storing -/

/-- Whether a body's length fits its section (R405). -/
def bodyFits (id : Nat) (b : List Byte) : Bool :=
  match id with
  | 0x0001 => decide (b.length ≥ 28)
  | 0x0002 => (splitLicences 8 b).isSome
  | 0x0003 => decide (fieldN b 0 2 ≤ 1024) && b.length == 352 + 4 * fieldN b 0 2
  | 0x0010 => decide (b.length ≥ 2)
  | 0x0011 => b.length == 256
  | 0x0012 => b.isEmpty || b.length == 4160 + 2 * fieldN b 6 2
  | _ => true

/-- A readable section (R405). -/
def secReadable (x : Section) : Bool :=
  match secInfo x.id with
  | none => false
  | some (_, vs, _) =>
    crc32 x.body == x.crc && vs.contains x.ver && bodyFits x.id x.body && (x.id != secIdentity || fieldN x.body 0 8 == Config.uniqueId)

/-- The readable section of an ID, if the store holds one. -/
def readSection (s : State) (id : Nat) : Option Section :=
  match findSection (storeSections s) id with
  | some x => if secReadable x then some x else none
  | none => none

/-- The version in which a section is stored: that in which it was read, or the version written (R406). -/
def versionFor (s : State) (id : Nat) : Nat := match readSection s id with | some x => x.ver | none => secWritten id

/-- A section put in place of the one of its ID that is not KEPT. -/
def replaceSection (l : List Section) (x : Section) : List Section := l.filter (fun y => y.id != x.id || y.kept) ++ [x]

/-- A section stored (R404, R406). -/
def storeSection (s : State) (id : Nat) (body : List Byte) : State :=
  writeStore s (replaceSection (storeSections s) (mkSection id (versionFor s id) body))

/-- The defect map in force, stored in the version in which it was read. -/
def storeDefect (s : State) : State :=
  let b := defectBody s.pwr.defect
  storeSection s secDefect (if versionFor s secDefect = 2 then overlay b 335 [0] else b)

/-- A channel is marked for map-out at the next start (R156, R157, R394). -/
def markChannel (s : State) (t : Tier) (c : Nat) : State :=
  let d := s.pwr.defect
  let add (l : List Nat) : List Nat := if l.contains c then l else l ++ [c]
  let d1 := match t with | .fast => { d with fastMark := add d.fastMark } | .cap => { d with capMark := add d.capMark }
  if d1 = d then { s with pwr.touched := true } else storeDefect { s with pwr.defect := d1, pwr.touched := true }

end Sys2Proof.Machine
end

