-- ==== Sys2Proof/Machine/Memory.lean ====
section
/-! DEFINITION. The two tiers: the address map (R97), the region table (R102), placement (R106 to R110, R198), channels with the
device ECC (R145 to R148, R156), accumulator entries (R168) and the staging cache (R113 to R116). -/
namespace Sys2Proof.Machine

/-! ### Units, channels, dies -/

def tierNum : Tier → Nat
  | .fast => 0
  | .cap => 1

def tierOf (n : Nat) : Tier := if n = 0 then .fast else .cap

/-- The tier ordinal map: physical IDs of mapped-in channels, increasing (R109). -/
def tierMap (s : State) : Tier → List Nat
  | .fast => s.mem.fastMap
  | .cap => s.mem.capMap

/-- N of a tier (R108). -/
def tierN (s : State) (t : Tier) : Nat := (tierMap s t).length

def regionsOf (s : State) : Tier → Regions
  | .fast => s.mem.fastRegions
  | .cap => s.mem.capRegions

def setRegions (s : State) (t : Tier) (r : Regions) : State :=
  match t with
  | .fast => { s with mem.fastRegions := r }
  | .cap => { s with mem.capRegions := r }

def regionCount : Tier → Nat
  | .fast => Config.fastRegions
  | .cap => Config.capRegions

/-- The unit of a channel: site = c div 32, port = c div 8 (R93). -/
def chanUnit (t : Tier) (c : Nat) : Nat := match t with | .fast => c / 32 | .cap => c / 8

def unitOf (s : State) (t : Tier) (u : Nat) : UnitState :=
  match t with
  | .fast => mget {} s.mem.sites u
  | .cap => mget {} s.mem.ports u

/-- Populated and not refused. -/
def unitUp (s : State) (t : Tier) (u : Nat) : Bool := (unitOf s t u).kind != 0 && !(unitOf s t u).refused

/-- The die that carries a unit: sites 0 to 3 and ports 0 to 7 lie on recto (R19). -/
def unitDie (t : Tier) (u : Nat) : Nat := match t with | .fast => u / 4 | .cap => u / 8

def chanDie (t : Tier) (c : Nat) : Nat := unitDie t (chanUnit t c)

/-- Key of a unit's thermal state. -/
def unitKey (t : Tier) (u : Nat) : Nat := 16 * tierNum t + u

def thermalOf (s : State) (t : Tier) (u : Nat) : Thermal := mget {} s.svc.thermal (unitKey t u)

def tripped (s : State) (t : Tier) (u : Nat) : Bool := (thermalOf s t u).tripped

def chanKey (t : Tier) (c : Nat) : Nat := 256 * tierNum t + c

def chanOf (s : State) (t : Tier) (c : Nat) : Chan := mget {} s.svc.chans (chanKey t c)

def setChan (s : State) (t : Tier) (c : Nat) (x : Chan) : State := { s with svc.chans := mput s.svc.chans (chanKey t c) x }

/-- The blotter and counter unit of a channel controller (R422). -/
def chanUnitId (t : Tier) (c : Nat) : Nat := 0x2000 + chanKey t c

/-! ### The region table (R102, R103) -/

/-- Entry of a region: as MEM_REGION_SET left it, or the default layout. -/
def regionEntry (s : State) (t : Tier) (r : Nat) : Nat :=
  match mfind (regionsOf s t).ovr r with
  | some e => e.toNat
  | none => if r < (regionsOf s t).h then 0xF02 + r * 2 ^ 24 else 0xF00

def eMode (e : Nat) : Nat := bits e 1 0
def eStream (e : Nat) : Bool := bit e 2
def eFolded (e : Nat) : Bool := bit e 3
def eWindow (e : Nat) : Bool := bit e 4
def eAccess (e p : Nat) : Bool := bit e (8 + p)
def eUnit (e : Nat) : Nat := bits e 15 12
def eSlice (e : Nat) : Nat := bits e 23 16
def eHord (e : Nat) : Nat := bits e 35 24

def setEntry (s : State) (t : Tier) (r e : Nat) : State :=
  setRegions s t { regionsOf s t with ovr := mput (regionsOf s t).ovr r (BitVec.ofNat 64 e) }

/-- Entry with bit `k` set or clear. -/
def withBit (e k : Nat) (b : Bool) : Nat := if bit e k = b then e else if b then e + 2 ^ k else e - 2 ^ k

/-! ### Where a DPA lies (R97) -/

inductive Where where
  | region (t : Tier) (r : Nat)
  | scratch (core off : Nat)
  | control (off : Nat)
  | tallies (off : Nat)
  | serving (off : Nat)
  | tables (off : Nat)
  | unmapped
deriving DecidableEq, Repr

def whereIs (dpa : Nat) : Where :=
  if dpa < 0x008000000000 then .region .fast (dpa / 2 ^ 30)
  else if dpa < 0x010000000000 then .unmapped
  else if dpa < 0x050000000000 then .region .cap ((dpa - 0x010000000000) / 2 ^ 30)
  else if dpa < 0x0F0000000000 then .unmapped
  else if dpa < 0x0F0020000000 then .scratch ((dpa - 0x0F0000000000) / 0x200000) (dpa % 0x200000)
  else if dpa < 0x0F0100000000 then .unmapped
  else if dpa < 0x0F0101000000 then .control (dpa - 0x0F0100000000)
  else if dpa < 0x0F0200000000 then .unmapped
  else if dpa < 0x0F0200100000 then .tallies (dpa - 0x0F0200000000)
  else if dpa < 0x0F0300000000 then .unmapped
  else if dpa < 0x0F0400000000 then .serving (dpa - 0x0F0300000000)
  else if dpa < 0x0F0400010000 then .tables (dpa - 0x0F0400000000)
  else .unmapped

/-- DPA of the first byte of a region. -/
def regionBase (t : Tier) (r : Nat) : Nat := (match t with | .fast => 0 | .cap => 0x010000000000) + r * 2 ^ 30

/-! ### Placement -/

/-- The fold of a DPA (R107). -/
def foldOf (dpa : Nat) : Nat := bits dpa 17 8 ^^^ bits dpa 27 18 ^^^ bits dpa 37 28 ^^^ bits dpa 47 38

/-- The exchange of DPA bits [11:8] and [15:12] in folded regions (R198). -/
def exchange (dpa : Nat) : Nat := dpa - bits dpa 15 8 * 256 + bits dpa 11 8 * 4096 + bits dpa 15 12 * 256

/-- L of a unit: its highest STACK_LOCAL slice in use plus 1 (R110). Only changed entries can be STACK_LOCAL. -/
def unitL (s : State) (t : Tier) (u : Nat) : Nat :=
  (regionsOf s t).ovr.foldl (fun l e =>
    let v := e.2.toNat
    if eMode v = 1 ∧ eUnit v = u then max l (eSlice v + 1) else l) 0

def slicesToBase (l m : Nat) : Nat := if m = 0 then 0 else ceilDiv (l * 4194304) m

/-- B of a unit, in granules (R110). -/
def poolBase (s : State) (t : Tier) (u : Nat) : Nat := slicesToBase (unitL s t u) (unitOf s t u).chans.length

/-- A place: tier, physical channel, channel byte offset. -/
structure Place where
  tier : Tier
  chan : Nat
  off : Nat
deriving DecidableEq, Repr

/-- Placement of a DPA in region `r` whose entry is `e` (R106, R109, R198). -/
def placeIn (s : State) (t : Tier) (e dpa0 : Nat) : Place :=
  let dpa := if eFolded e then exchange dpa0 else dpa0
  if eMode e = 1 then
    let u := eUnit e
    let chans := (unitOf s t u).chans
    let m := chans.length
    let sg := eSlice e * 4194304 + bits dpa 29 8
    { tier := t, chan := chans.getD (sg % m) 0, off := sg / m * 256 + dpa % 256 }
  else
    let n := tierN s t
    let q := 1024 / n
    let r := 1024 % n
    let i := foldOf dpa
    let j0 := i % n
    let slot := i / n
    let h := eHord e
    let j := (j0 + h * r) % n
    let c := q + (if j0 < r then 1 else 0)
    let hj := (h * r + n - 1 - j) / n
    let g := 4096 * (h * q + hj) + bits dpa 29 18 * c + slot
    let ch := (tierMap s t).getD j 0
    { tier := t, chan := ch, off := (poolBase s t (chanUnit t ch) + g) * 256 + dpa % 256 }

/-- Placement of a DPA in a valid region, with the region's entry. -/
def locate (s : State) (dpa : Nat) : Option (Place × Nat) :=
  match whereIs dpa with
  | .region t r => let e := regionEntry s t r; if eMode e = 0 then none else some (placeIn s t e dpa, e)
  | _ => none

/-! ### Stored granules (R145, R146, R471) -/

/-- The key of a stored byte: tier, channel and channel byte offset. -/
def cellKey (p : Place) : Nat := chanKey p.tier p.chan * 2 ^ 40 + p.off

/-- Check words lie in cells of their own, four for each granule key. -/
def checkKey (granule : Nat) : Nat := 2 ^ 60 + granule / 64 * 4

/-- The check word of a granule of 0x55 bytes, as R146 computes it. -/
def marchCheck : List Byte := [0x00, 0x7B, 0xC5, 0xBE]

def fillOf (m : Mem) (chan : Nat) : Fill := mget m.fill m.chanFill chan

/-- Whether the fill of a channel holds 0x55 at a channel byte offset (R389, R471). -/
def fillMarch (f : Fill) (off : Nat) : Bool :=
  match f with
  | .zero => false
  | .march => true
  | .sampled => decide (off % 65536 < 4096)

/-- What an unlisted byte reads as: the value that the start left there (R471). -/
def memDflt (m : Mem) (a : Nat) : Byte :=
  if a < 2 ^ 60 then (if fillMarch (fillOf m (a / 2 ^ 40)) (a % 2 ^ 40) then 0x55 else 0)
  else
    let g := (a - 2 ^ 60) / 4 * 64
    if fillMarch (fillOf m (g / 2 ^ 40)) (g % 2 ^ 40) then marchCheck.getD (a % 4) 0 else 0

/-- Canonical form of both byte memories. -/
def Memory.wf (s : State) : Bool := cellWf (memDflt s.mem) s.mem.cells && cellWf hostDflt s.host

def storedData (s : State) (k : Nat) : List Byte := cellGets (memDflt s.mem) s.mem.cells k 64
def storedCheck (s : State) (k : Nat) : List Byte := cellGets (memDflt s.mem) s.mem.cells (checkKey k) 4

/-- A whole granule with fresh check symbols (R146). -/
def storeGranule (s : State) (k : Nat) (d : List Byte) (poison : Bool) : State :=
  let data := cellPuts (memDflt s.mem) s.mem.cells k (padTo 64 d)
  { s with mem.cells := cellPuts (memDflt s.mem) data (checkKey k) (checkWord d poison) }

/-- Whether a place lies on a plain CAMM2 port, whose controllers keep check words in check lines of 16 (R145). -/
def plainPlace (s : State) (p : Place) : Bool := p.tier == .cap && (unitOf s p.tier (chanUnit p.tier p.chan)).kind == 2

/-- The check line of a place: its number, and what memory holds of it (R145). -/
def checkLineNo (p : Place) : Nat := p.off / 1024
def checkLine (s : State) (p : Place) : List Byte := cellGets (memDflt s.mem) s.mem.cells (checkKey (cellKey { p with off := checkLineNo p * 1024 })) 64

/-- The check word that a controller reads: a plain CAMM2 controller takes it from its cache of 64 check lines, which a miss fills
(R145, log 102). -/
def checkRead (s : State) (p : Place) : List Byte × State :=
  if !plainPlace s p then (storedCheck s (cellKey p), s)
  else
    let x := chanOf s p.tier p.chan
    match mfind x.checkLines (checkLineNo p) with
    | some b => (slice b (p.off / 64 % 16 * 4) 4, s)
    | none =>
      (storedCheck s (cellKey p), setChan s p.tier p.chan { x with checkLines := lastN 64 (x.checkLines ++ [(checkLineNo p, checkLine s p)]) })

/-- A whole granule stored at its place; a cached check line takes the new word too (R145, R146). -/
def placeStore (s : State) (p : Place) (d : List Byte) (poison : Bool) : State :=
  let s1 := storeGranule s (cellKey p) d poison
  if !plainPlace s p then s1
  else
    let x := chanOf s1 p.tier p.chan
    setChan s1 p.tier p.chan { x with checkLines := x.checkLines.map (fun e =>
      if e.1 = checkLineNo p then (e.1, overlay e.2 (p.off / 64 % 16 * 4) (checkWord d poison)) else e) }

/-- The generation of a DPA's region, 0 when its contents are determinate (R105). -/
def genOf (s : State) (dpa : Nat) : Nat :=
  match whereIs dpa with
  | .region t r => mget 0 s.mem.gens (tierNum t * 4096 + r)
  | _ => 0

/-- A region whose contents are indeterminate from now on (R105, R197). -/
def spoil (s : State) (t : Tier) (r : Nat) : State :=
  { s with mem.gens := mput s.mem.gens (tierNum t * 4096 + r) s.mem.nextGen, mem.nextGen := s.mem.nextGen + 1 }

/-! ### Error records, counters and events of the service (R158, R161, R162) -/

def noDpa : Nat := 2 ^ 48 - 1

/-- Byte 31 of an error record (R161). -/
def rqCode : Requester → Nat
  | .part p => p
  | .core p _ => p
  | .queue p _ => p
  | .serving p => p
  | .flourish p => p
  | .peer _ => 6
  | .window => 4
  | .admin => 7
  | .device => 7

/-- The partition whose ACCESS bit and counters an access meets. -/
def rqPart : Requester → Option Nat
  | .part p => some p
  | .core p _ => some p
  | .queue p _ => some p
  | .serving p => some p
  | .flourish p => some p
  | .peer p => some p
  | _ => none

/-- The requester unit ID of a WATCH record (R437): core, queue, composer, Flourish, Scribe, host interface, or 0xFFFF for a peer. -/
def rqUnit : Requester → Nat
  | .core _ n => n
  | .queue p q => 0x1000 + 32 * p + q
  | .serving p => 0x8000 + p
  | .flourish _ => 0x8004
  | .window => 0xA000
  | .peer _ => 0xFFFF
  | _ => 0x9000

/-- The requester of a firmware command: its ring's partition, or none's on the admin ring. -/
def cmdRq (c : Cmd) : Requester := match cmdPart c with | some p => .part p | none => .admin

def logPush (cap : Nat) (l : Log) (r : List Byte) : Log :=
  if l.recs.length < cap then { l with recs := l.recs ++ [r], unread := l.unread + 1 }
  else
    { recs := l.recs.drop 1 ++ [r], unread := min cap (l.unread + 1),
      overwritten := if l.unread = cap then l.overwritten + 1 else l.overwritten }

/-- An error record of the die (R161). -/
def logErr (s : State) (die type : Nat) (t : Tier) (unit off dpa sym rq : Nat) : State :=
  let r := leBytes 8 (stamp s).toNat ++ leBytes 4 s.rul.epoch.toNat ++ [BitVec.ofNat 8 type, BitVec.ofNat 8 (tierNum t)] ++
    leBytes 2 unit ++ leBytes 8 off ++ leBytes 6 dpa ++ [BitVec.ofNat 8 sym, BitVec.ofNat 8 rq]
  { s with svc.errs := mmod {} s.svc.errs die (fun l => logPush 1024 l r) }

/-- Counter `i` of a channel rises, saturating (R158). -/
def chanCount (s : State) (t : Tier) (c i : Nat) : State :=
  let x := chanOf s t c
  setChan s t c { x with ctr := x.ctr.set i (satAdd 32 (x.ctr.getD i 0) 1) }

def memEventData (type : Nat) (t : Tier) (c dpa : Nat) : List Byte :=
  [BitVec.ofNat 8 type, BitVec.ofNat 8 (tierNum t)] ++ leBytes 2 c ++ leBytes 6 dpa

/-- 24 h and one hour, in units of 2^-16 ns. -/
def dayUnits : Nat := 86400 * 10 ^ 9 * 65536
def hourUnits : Nat := 3600 * 10 ^ 9 * 65536

/-- A UE or SCRUB_UE record counts; 8 within any 24 h mark the channel (R157). -/
def watchUe (s : State) (t : Tier) (c : Nat) : State :=
  let x := chanOf s t c
  let l := lastN 8 (x.ueAt ++ [s.time])
  let s1 := setChan s t c { x with ueAt := l }
  if l.length = 8 ∧ s.time < l.headD 0 + dayUnits then markChannel s1 t c else s1

/-- A CE record counts; more than 4,096 within an hour mark the channel (R157). -/
def watchCe (s : State) (t : Tier) (c : Nat) : State :=
  let x := chanOf s t c
  let l := (x.ceAt ++ [s.time]).filter (fun i => decide (s.time < i + hourUnits))
  let s1 := setChan s t c { x with ceAt := lastN 4097 l }
  if l.length > 4096 then markChannel s1 t c else s1

/-- A correctable error: record, counter, and MEM_CE at most once per channel per line. -/
def noteCe (s : State) (type : Nat) (t : Tier) (c off dpa sym rq : Nat) (part : Option Nat) : State :=
  let s1 := chanCount (logErr s (chanDie t c) type t c off dpa sym rq) t c (if type = 5 then 2 else 0)
  let s2 := if type = 5 then s1 else bumpO (if type = 1 then watchCe s1 t c else s1) part 38 1
  let x := chanOf s2 t c
  if x.ceLine = some s.rul.line then s2
  else post (setChan s2 t c { x with ceLine := some s.rul.line }) 0x0303 0xFF (memEventData type t c dpa) true

/-- An uncorrectable error: record, counter, blotter entry and MEM_UE. -/
def noteUe (s : State) (type : Nat) (t : Tier) (c off dpa rq : Nat) : State :=
  let s1 := chanCount (logErr s (chanDie t c) type t c off dpa 0xFF rq) t c (if type = 6 then 3 else 1)
  post (blot (if type = 4 then s1 else watchUe s1 t c) (chanUnitId t c) 0x11 none off) 0x0302 0xFF (memEventData type t c dpa) false

/-- A write dropped at a FAILED channel or a tripped unit (R143, R156). -/
def noteDrop (s : State) (t : Tier) (c off dpa rq : Nat) : State :=
  let s1 := chanCount (logErr s (chanDie t c) 9 t c off dpa 0xFF rq) t c 6
  let x := chanOf s1 t c
  if x.dropLine = some s.rul.line then s1
  else post (setChan s1 t c { x with dropLine := some s.rul.line }) 0x0302 0xFF (memEventData 9 t c dpa) false

/-! ### The channel controller -/

def accFind (s : State) (k : Nat) : Option AccEntry := s.ari.acc.find? (fun a => a.key == k)

def accDrop (s : State) (k : Nat) : State := { s with ari.acc := s.ari.acc.filter (fun a => a.key != k) }

/-- A granule takes new contents in place of what memory or an accumulator holds; they are determinate from then on (R105, R168). -/
def granuleStore (s : State) (p : Place) (dpa : Nat) (d : List Byte) (poison : Bool) : State :=
  let s1 := placeStore (accDrop s (cellKey p)) p d poison
  if genOf s dpa = 0 then s1 else { s1 with mem.granGens := mput s1.mem.granGens (cellKey p) (genOf s dpa) }

/-- A whole granule written at its channel; at a FAILED channel the write is dropped (R150, R156). -/
def chanWrite (s : State) (p : Place) (dpa : Nat) (d : List Byte) (poison : Bool) (rq : Nat) (part cls : Option Nat) : State :=
  let s := prog s (chanUnitId p.tier p.chan) 2 part cls 1
  if (chanOf s p.tier p.chan).failed then noteDrop s p.tier p.chan p.off dpa rq
  else
    granuleStore s p dpa d poison

/-- A granule read at its channel: data, poison, whether it was uncorrectable. Types of the CE and UE records are given, and
`fix` rewrites a corrected granule (R147, R148, R151, R153, R156, R168). -/
def chanRead (s0 : State) (p : Place) (dpa ceType ueType rq : Nat) (part cls : Option Nat) (fix : Bool) :
    List Byte × Bool × Bool × State :=
  let k := cellKey p
  let s := prog s0 (chanUnitId p.tier p.chan) 1 part cls 1
  if (chanOf s p.tier p.chan).failed then (zeros 64, true, false, chanCount s p.tier p.chan 7)
  else
    match accFind s k with
    | some a => (a.data, false, false, s)
    | none =>
      if genOf s dpa ≠ 0 ∧ mget 0 s.mem.granGens k ≠ genOf s dpa then
        ((List.range 64).map (fun i => Config.freeCell (genOf s dpa) (k + i)), false, false, s)
      else
        match eccDecode (storedData s k) (checkRead s p).1, (checkRead s p).2 with
        | (d, poison, .clean), s => (d, poison, false, if poison then chanCount s p.tier p.chan 7 else s)
        | (d, poison, .ce sym), s =>
          let s1 := noteCe s ceType p.tier p.chan p.off dpa sym rq part
          (d, poison, false, if fix then placeStore s1 p d poison else s1)
        | (d, _, .ue), s => (d, true, true, chanCount (placeStore (noteUe s ueType p.tier p.chan p.off dpa rq) p d true) p.tier p.chan 7)

/-! ### The staging cache -/

def lineFind (s : State) (dpa : Nat) : Option CacheLine := s.mem.cache.find? (fun l => l.addr == dpa / 256)

def sectorFind (s : State) (dpa : Nat) : Option Sector :=
  match lineFind s dpa with
  | some l => mfind l.sectors (dpa / 64 % 4)
  | none => none

/-- Whether the unit that a DPA is homed on is tripped. -/
def dpaTripped (s : State) (dpa : Nat) : Bool :=
  match locate s dpa with
  | some (p, _) => tripped s p.tier (chanUnit p.tier p.chan)
  | none => false

/-- The poison that a sector is delivered with: one that fails the array's own code is delivered as a UE (R148, R149). -/
def sectorPoison (x : Sector) : Bool := x.poison || x.bad

/-- A dirty sector written back to its channel, in the class of the access that caused it (R125). -/
def writeBack (s : State) (dpa : Nat) (x : Sector) (rq : Nat) (cls : Option Nat) : State :=
  match locate s dpa with
  | some (p, _) => prog (chanWrite s p dpa x.data (sectorPoison x) rq none cls) (0x7000 + chanDie p.tier p.chan) 3 none cls 1
  | none => s

/-- The dirty sectors of a line written back. -/
def writeBackLine (s : State) (l : CacheLine) (cls : Option Nat) : State :=
  l.sectors.foldl (fun s x => if x.2.dirty then writeBack s (l.addr * 256 + x.1 * 64) x.2 7 cls else s) s

/-- The lines in a line's set of a die's cache (R113). -/
def setLines (s : State) (die addr : Nat) : List CacheLine :=
  s.mem.cache.filter (fun l => l.die == die && Config.cacheSet l.addr % Config.cacheSets == Config.cacheSet addr % Config.cacheSets)

/-- A line with dirty sectors homed on a tripped unit is not evicted (R143). -/
def pinned (s : State) (l : CacheLine) : Bool := l.sectors.any (fun x => x.2.dirty) && dpaTripped s (l.addr * 256)

/-- A line leaves the cache, its dirty sectors written back. -/
def evict (s : State) (l : CacheLine) (cls : Option Nat) : State :=
  prog { writeBackLine s l cls with mem.cache := s.mem.cache.filter (fun x => x.addr != l.addr) } (0x7000 + l.die) 4 none cls 1

/-- A set takes one more line while fewer than its 12 ways are in use. -/
def wayFree (s : State) (die addr : Nat) : Bool :=
  decide ((s.mem.cache.filter (fun l => l.die == die)).length < Config.cacheWays) || decide ((setLines s die addr).length < Config.cacheWays)

/-- Room for one more line of a die: a free way, or the way of a line that may be evicted; which one is not architecturally visible, so
the choice is free. None where lines of tripped units hold all twelve (R113, R143, log 9). -/
def makeRoom (s : State) (die addr : Nat) (cls : Option Nat) : Option State :=
  if wayFree s die addr then some s
  else
    match (setLines s die addr).filter (fun l => !pinned s l) with
    | [] => none
    | l :: r => let (w, s1) := freeWord s; some (evict s1 ((l :: r).getD (w.toNat % (r.length + 1)) l) cls)

/-- A sector placed in the cache; where its set has no room, a dirty one passes through to its channel (log 9). -/
def cachePut (s : State) (die dpa : Nat) (x : Sector) (rq : Nat) (part cls : Option Nat) : State :=
  match lineFind s dpa with
  | some l =>
    { s with mem.cache := s.mem.cache.map (fun y => if y.addr = l.addr then { y with sectors := mput y.sectors (dpa / 64 % 4) x } else y) }
  | none =>
    match makeRoom s die (dpa / 256) cls with
    | some s1 => { s1 with mem.cache := { die := die, addr := dpa / 256, sectors := [(dpa / 64 % 4, x)] } :: s1.mem.cache }
    | none =>
      if !x.dirty then s else match locate s dpa with | some (p, _) => chanWrite s p dpa x.data x.poison rq part cls | none => s

/-- The granule of a line leaves the cache before another agent's operation on it is forwarded: its dirty sectors are written back and
it is invalidated (R116). -/
def cacheYield (s : State) (dpa : Nat) (cls : Option Nat) : State :=
  match lineFind s dpa with
  | some l => { writeBackLine s l cls with mem.cache := s.mem.cache.filter (fun x => x.addr != l.addr) }
  | none => s

/-- A sector removed from the cache. -/
def cacheDrop (s : State) (dpa : Nat) : State :=
  let cut (y : CacheLine) : CacheLine :=
    if y.addr = dpa / 256 then { y with sectors := mdel y.sectors (dpa / 64 % 4) } else y
  { s with mem.cache := (s.mem.cache.map cut).filter (fun y => !y.sectors.isEmpty) }

/-- One line under write-back and invalidation of the sectors in [lo, hi); dirty lines of tripped units stay (R120, R143). -/
def flushLine (wb inv : Bool) (lo hi : Nat) (acc : State × List CacheLine × Bool) (l : CacheLine) :
    State × List CacheLine × Bool :=
  let (s, keep, held) := acc
  let inRange (i : Nat) : Bool := decide (lo ≤ l.addr * 256 + i * 64) && decide (l.addr * 256 + i * 64 < hi)
  if l.sectors.any (fun x => inRange x.1 && x.2.dirty) && dpaTripped s (l.addr * 256) then (s, l :: keep, true)
  else
    let s1 := if wb then l.sectors.foldl (fun s x =>
      if inRange x.1 && x.2.dirty then writeBack s (l.addr * 256 + x.1 * 64) x.2 7 none else s) s else s
    let left := if inv then l.sectors.filter (fun x => !inRange x.1)
      else if wb then l.sectors.map (fun x => if inRange x.1 then (x.1, { x.2 with dirty := false }) else x) else l.sectors
    (s1, if left.isEmpty then keep else { l with sectors := left } :: keep, held)

/-- Write-back and invalidation over a range of DPAs, accumulators included; true when lines of tripped units stayed (R120, R168). -/
def flushRange (s : State) (lo hi : Nat) (wb inv : Bool) : State × Bool :=
  let (s1, keep, held) := s.mem.cache.foldl (flushLine wb inv lo hi) (s, [], false)
  let s2 := { s1 with mem.cache := keep.reverse }
  let hit (a : AccEntry) : Bool := wb && decide (lo ≤ a.dpa) && decide (a.dpa < hi)
  let s3 := (s2.ari.acc.filter hit).foldl (fun s a =>
    match locate s a.dpa with
    | some (p, _) => chanWrite s p a.dpa a.data false 7 none none
    | none => accDrop s a.key) s2
  (s3, held)

/-- Write-back and invalidation of a region's lines (R105, R119, R197). -/
def flushRegion (s : State) (t : Tier) (r : Nat) : State :=
  (flushRange s (regionBase t r) (regionBase t r + 2 ^ 30) true true).1

/-! ### Granule accesses at their ordering point (R101, R102, R114, R115, R118, R143) -/

/-- Why an access to a DPA of the tiers is refused, in the order region, ACCESS bit, window, trip. -/
def accessStatus (s : State) (rq : Requester) (dpa : Nat) : Nat :=
  match whereIs dpa with
  | .region t r =>
    let e := regionEntry s t r
    if eMode e = 0 then St.regionInvalid
    else if (match rqPart rq with | some p => !eAccess e p | none => false) then St.regionDenied
    else if eWindow e && rq != .window then St.windowFenced
    else if tripped s t (chanUnit t (placeIn s t e dpa).chan) then St.thermalAbort
    else St.ok
  | _ => St.regionInvalid

/-- A read granule. -/
structure Got where
  status : Nat
  data : List Byte
  poison : Bool
  s : State

/-- One granule read at `dpa`, a multiple of 64, in traffic class `cls` (R114, R115, R148). -/
def readGranule (s : State) (rq : Requester) (dpa cls : Nat) : Got :=
  let st := accessStatus s rq dpa
  if st ≠ St.ok then ⟨st, zeros 64, false, s⟩
  else
    match locate s dpa with
    | none => ⟨St.regionInvalid, zeros 64, false, s⟩
    | some (p, e) =>
      let part := rqPart rq
      let tierCtr := match p.tier with | .fast => 10 | .cap => 12
      if eWindow e then
        let (d, poison, _, s1) := chanRead s p dpa 1 2 (rqCode rq) part (some cls) false
        ⟨St.ok, d, poison, bumpO s1 part tierCtr 64⟩
      else
        match sectorFind s dpa with
        | some x =>
          let s1 := if x.bad then noteUe s 2 p.tier p.chan p.off dpa (rqCode rq) else s
          ⟨St.ok, x.data, sectorPoison x,
            bumpO (prog (bumpO s1 part 7 64) (0x7000 + chanDie p.tier p.chan) 1 part (some cls) 1) part 39 (b2n (sectorPoison x))⟩
        | none =>
          let (d, poison, _, s1) := chanRead s p dpa 1 2 (rqCode rq) part (some cls) false
          let s2 := prog (bumpO (bumpO s1 part 8 64) part tierCtr 64) (0x7000 + chanDie p.tier p.chan) 2 part (some cls) 1
          let s3 := bumpO s2 part 39 (b2n poison)
          ⟨St.ok, d, poison,
            if eStream e then s3 else cachePut s3 (chanDie p.tier p.chan) dpa { data := d, dirty := false, poison := poison } (rqCode rq) part (some cls)⟩

/-- One whole granule written at `dpa` (R114, R115, R150). `through` is the pass-through of folded slots (R199). -/
def writeGranule (s : State) (rq : Requester) (dpa : Nat) (d : List Byte) (poison : Bool) (cls : Nat) : Nat × State :=
  let st := accessStatus s rq dpa
  if st ≠ St.ok then (st, s)
  else
    match locate s dpa with
    | none => (St.regionInvalid, s)
    | some (p, e) =>
      let s1 := bumpO s (rqPart rq) (match p.tier with | .fast => 11 | .cap => 13) 64
      if eWindow e then (St.ok, chanWrite s1 p dpa d poison (rqCode rq) (rqPart rq) (some cls))
      else if eStream e || eFolded e then (St.ok, chanWrite (cacheDrop s1 dpa) p dpa d poison (rqCode rq) (rqPart rq) (some cls))
      else (St.ok, cachePut (bumpO s1 (rqPart rq) 9 64) (chanDie p.tier p.chan) dpa { data := padTo 64 d, dirty := true, poison := poison }
        (rqCode rq) (rqPart rq) (some cls))

/-- A write of bytes [o, o + b.length) of a granule, merged where the granule is ordered (R151). -/
def mergeGranule (s : State) (rq : Requester) (dpa o : Nat) (b : List Byte) (poison : Bool) (cls : Nat) : Nat × State :=
  let st := accessStatus s rq dpa
  if st ≠ St.ok then (st, s)
  else
    match locate s dpa with
    | none => (St.regionInvalid, s)
    | some (p, e) =>
      let s1 := bumpO s (rqPart rq) (match p.tier with | .fast => 11 | .cap => 13) b.length
      let part := rqPart rq
      match (if eWindow e then none else sectorFind s1 dpa) with
      | some x =>
        let s2 := if x.bad then noteUe s1 4 p.tier p.chan p.off dpa (rqCode rq) else s1
        (St.ok, cachePut (bumpO s2 part 9 b.length) (chanDie p.tier p.chan) dpa
          { data := overlay x.data o b, dirty := true, poison := sectorPoison x || poison } (rqCode rq) part (some cls))
      | none =>
        let (d, stored, _, s2) := chanRead s1 p dpa 3 4 (rqCode rq) part (some cls) false
        let d' := overlay d o b
        if eWindow e || eStream e then (St.ok, chanWrite s2 p dpa d' (stored || poison) (rqCode rq) part (some cls))
        else (St.ok, cachePut (bumpO s2 part 9 b.length) (chanDie p.tier p.chan) dpa
          { data := d', dirty := true, poison := stored || poison } (rqCode rq) part (some cls))

end Sys2Proof.Machine
end

