-- ==== Sys2Proof/Machine/Observe.lean ====
section
/-! DEFINITION. What units record on the partition's behalf: cores and quadrants (R229, R231), trace records (R436, R437, R440),
freezes (R447, R448), watchpoints (R442) and latch pulses (R427). -/
namespace Sys2Proof.Machine

/-! ### Cores, quadrants and partitions -/

def coreCount (s : State) : Nat := s.cpu.map.length

/-- The quadrant of a logical core: physical core 40q + i lies in quadrant q (R229). -/
def coreQuad (s : State) (n : Nat) : Nat := s.cpu.map.getD n 0 / 40

def quadDie (q : Nat) : Nat := q / 2

/-- The partition that holds a core's quadrant (R231). -/
def corePart (s : State) (n : Nat) : Option Nat :=
  (List.range 4).find? (fun p => (partOf s p).mask.getLsbD (coreQuad s n))

/-- A partition's cores in increasing logical number; the position is the partition-local index (R231). -/
def partCores (s : State) (p : Nat) : List Nat :=
  (List.range (coreCount s)).filter (fun n => (partOf s p).mask.getLsbD (coreQuad s n))

/-- The partition's lowest quadrant. -/
def lowQuad (s : State) (p : Nat) : Nat := ((List.range 4).find? (fun q => (partOf s p).mask.getLsbD q)).getD 0

/-! ### Trace buffers (R436, R437, R440) -/

/-- Bytes of an instance's buffer under the claim held on it. -/
def traceRoom (s : State) (inst : Nat) : Nat :=
  if heldAny s (mkRes 2 inst) 1 then 524288 else if heldAny s (mkRes 2 inst) 2 then 393216 else 0

def traceBytes (t : Trace) : Nat := (t.pend.map List.length).sum

/-- A record with its 16-byte header (R437). -/
def traceRecord (s : State) (type unit : Nat) (payload : List Byte) : List Byte :=
  let units := ceilDiv (16 + payload.length) 16
  padTo (16 * units)
    ([BitVec.ofNat 8 type, BitVec.ofNat 8 units] ++ leBytes 2 unit ++ leBytes 4 s.rul.epoch.toNat ++ leBytes 8 (stamp s).toNat ++
      payload)

/-- A pending record that a new one goes before: of the same epoch and stamp, and of a higher unit ID (R437). -/
def goesBefore (r x : List Byte) : Bool := slice x 4 12 == slice r 4 12 && decide (fieldN r 2 2 < fieldN x 2 2)

/-- A record joins the pending ones, in stamp order and, at equal stamps, in the order of unit IDs (R437). -/
def addRecord (l : List (List Byte)) (r : List Byte) : List (List Byte) :=
  let k := l.length - (l.reverse.takeWhile (goesBefore r)).length
  l.take k ++ r :: l.drop k

/-- The die of a trace buffer: two quadrants' and the links' of each (R436). -/
def traceDie (inst : Nat) : Nat := if inst < 4 then inst / 2 else inst - 4

/-- A record is made when the instance records its type; a full buffer drops it, and a GAP precedes the next one (R436, R440). -/
def traceAt (s : State) (inst type unit : Nat) (part : Option Nat) (payload : List Byte) (forced : Bool) : State :=
  let t := mget {} s.obs.traces inst
  if !t.recording || t.frozen || s.pwr.dead.getLsbD (14 + traceDie inst) || !(forced || t.types.getLsbD type) then s
  else
    let r := traceRecord s type unit payload
    let gap := if t.lost = 0 then [] else [traceRecord s 0x0A unit (leBytes 8 t.lost ++ leBytes 8 t.firstLost.toNat)]
    let size := ((gap ++ [r]).map List.length).sum
    if traceBytes t + size ≤ traceRoom s inst then
      let t1 := { t with pend := (gap ++ [r]).foldl addRecord t.pend, lost := 0 }
      bumpO { s with obs.traces := mput s.obs.traces inst t1 } part 46 1
    else
      let t1 := { t with lost := t.lost + 1, firstLost := if t.lost = 0 then stamp s else t.firstLost,
                         dropped := t.dropped + 1 }
      bumpO { s with obs.traces := mput s.obs.traces inst t1 } part 47 1

/-- A record of a partition, in the buffer of its lowest quadrant (R436). -/
def tracePart (s : State) (p type unit : Nat) (payload : List Byte) : State :=
  traceAt s (lowQuad s p) type unit (some p) payload false

/-! ### Freezes (R447 to R449) -/

/-- Units of partition scope (R448). -/
def partUnits (s : State) (p : Nat) : List Nat :=
  partCores s p ++ (List.range 32).map (fun q => 0x1000 + 32 * p + q) ++ (List.range 8).map (fun l => 0x6000 + 8 * p + l) ++
    [0x8000 + p] ++ ((List.range 4).filter (fun q => (partOf s p).mask.getLsbD q)).map (fun q => 0x5000 + q)

/-- Every unit of R422. -/
def allUnits (s : State) : List Nat :=
  List.range (coreCount s) ++ (List.range 128).map (0x1000 + ·) ++ s.mem.fastMap.map (chanUnitId .fast) ++
    s.mem.capMap.map (chanUnitId .cap) ++ (List.range 88).map (0x3000 + ·) ++ (List.range 16).map (0x4000 + ·) ++
    (List.range 4).map (0x5000 + ·) ++ (List.range 32).map (0x6000 + ·) ++ [0x7000, 0x7001] ++
    (List.range 8).map (0x8000 + ·) ++ [0x9000, 0x9001, 0xA000, 0xB000, 0xC000, 0xC001]

/-- Units and trace instances of a scope, 0xFF for the device (R448). -/
def scopeUnits (s : State) (scope : Nat) : List Nat := if scope < 4 then partUnits s scope else allUnits s
def scopeTraces (s : State) (scope : Nat) : List Nat :=
  if scope < 4 then (List.range 4).filter (fun q => (partOf s scope).mask.getLsbD q) else List.range 6

/-- A freeze: a FREEZE entry and record, then nothing more is accepted; OBS_FROZEN (R447). -/
def freeze (s : State) (scope cause : Nat) : State :=
  let s1 := (scopeUnits s scope).foldl (fun s u =>
    let s := blot s u 0x31 none cause
    { s with obs.blots := mmod {} s.obs.blots u (fun b => { b with frozen := true }) }) s
  let s2 := (scopeTraces s scope).foldl (fun s i =>
    let s := traceAt s i 0x0C 0x9000 none (leBytes 8 cause) true
    let t := mget {} s.obs.traces i
    let s' := if t.configured then { s with obs.traces := mput s.obs.traces i { t with frozen := true } } else s
    if t.recording && !t.frozen then post s' 0x0C02 (if scope < 4 then scope else 0xFF) [BitVec.ofNat 8 i, 1] false else s') s1
  post s2 0x0C03 (if scope < 4 then scope else 0xFF) [BitVec.ofNat 8 scope, BitVec.ofNat 8 cause] false

def thaw (s : State) (scope : Nat) : State :=
  let s1 := (scopeUnits s scope).foldl (fun s u =>
    { s with obs.blots := mmod {} s.obs.blots u (fun b => { b with frozen := false }) }) s
  (scopeTraces s scope).foldl (fun s i =>
    { s with obs.traces := mmod {} s.obs.traces i (fun t => { t with frozen := false }) }) s1

/-! ### Watchpoints (R442) -/

/-- The source bit of a requester. -/
def watchSource : Requester → Nat
  | .serving _ => 5
  | .flourish _ => 5
  | .peer _ => 6
  | _ => 4

def watchHits (w : Watch) (kind source dpa len : Nat) : Bool :=
  w.len != 0 && w.bits.getLsbD kind && w.bits.getLsbD source && decide (dpa < w.base + w.len) && decide (w.base < dpa + len)

/-- One watchpoint acts on a match. -/
def watchAct (s : State) (p k kind unit dpa len : Nat) (w : Watch) : State :=
  let s1 := if w.bits.getLsbD 8 then
      tracePart s p 0x06 unit (leBytes 8 dpa ++ [BitVec.ofNat 8 k, BitVec.ofNat 8 kind] ++ leBytes 2 unit ++ leBytes 4 len)
    else s
  let s2 := if w.bits.getLsbD 9 && w.line != some s.rul.line then
      post { s1 with obs.watches := mput s1.obs.watches (p * 64 + k) { w with line := some s.rul.line } } 0x0C01 p
        ([BitVec.ofNat 8 k, BitVec.ofNat 8 kind] ++ leBytes 2 unit ++ leBytes 6 dpa) true
    else s1
  let s3 := if w.bits.getLsbD 10 then freeze s2 p 1 else s2
  if w.bits.getLsbD 11 then
    { s3 with obs.single := match mfind s3.obs.single p with | some _ => s3.obs.single | none => mput s3.obs.single p 65535 }
  else s3

/-- Every watchpoint that an access matches acts, in ascending index. Kinds: 0 read, 1 write, 2 contribution, 3 expansion read. -/
def watch (s : State) (rq : Requester) (kind dpa len : Nat) : State :=
  match rqPart rq with
  | none => s
  | some p =>
    (List.range 64).foldl (fun s k =>
      match mfind s.obs.watches (p * 64 + k) with
      | some w => if watchHits w kind (watchSource rq) dpa len then watchAct s p k kind (rqUnit rq) dpa len w else s
      | none => s) s

/-! ### Latch pulses (R427, R428) -/

def queueOf (s : State) (p q : Nat) : Queue := mget {} (partOf s p).queues q

def setPart (s : State) (p : Nat) (x : Part) : State := { s with cpu.parts := mput s.cpu.parts p x }

def setQueue (s : State) (p q : Nat) (x : Queue) : State :=
  setPart s p { partOf s p with queues := mput (partOf s p).queues q x }

def queueUnit (p q : Nat) : Nat := 0x1000 + 32 * p + q

/-- The programmable counters that a pulse of a partition captures. -/
def latchProgs (s : State) (p : Nat) (start : Bool) : State :=
  { s with obs.progs := s.obs.progs.map (fun (k, g) =>
      (k, if g.filter = p ∨ g.filter = 0xF then (if start then { g with start := g.live } else { g with stop := g.live }) else g)) }

/-- The START capture of a command: the END bank is zeroed and the command marked running. -/
def latchStart (s : State) (p q index code dpa : Nat) : State :=
  let x := queueOf s p q
  let s1 := setQueue s p q { x with latch :=
    { start := stamp s, stop := 0, index := index, code := code, state := 1, status := 0, quire := dpa,
      first := counters s p, last := [] } }
  let s2 := latchProgs s1 p true
  let s3 := blot s2 (queueUnit p q) 0x01 (some p) (index % 2 ^ 32 + code * 2 ^ 32)
  prog (tracePart s3 p 0x02 (queueUnit p q)
    ([BitVec.ofNat 8 q, BitVec.ofNat 8 code, 0, 0] ++ leBytes 4 index ++ leBytes 8 dpa)) (queueUnit p q) 1 (some p) none 1

/-- Differences of counters, 32 bits each, saturating. -/
def diffs (a b : List (BitVec 64)) : List Byte :=
  ((List.zipWith (fun x y => leBytes 4 (min (y - x).toNat (2 ^ 32 - 1))) a b)).flatten

/-- The END capture of a command. -/
def latchEnd (s : State) (p q status : Nat) : State :=
  let s0 := bump s p 33 1
  let x := queueOf s0 p q
  let l := x.latch
  let now := counters s0 p
  let s1 := setQueue s0 p q { x with latch := { l with stop := stamp s, state := 2, status := BitVec.ofNat 16 status, last := now } }
  let s2 := latchProgs s1 p false
  let s3 := blot s2 (queueUnit p q) 0x02 (some p) (l.index % 2 ^ 32 + status * 2 ^ 32)
  prog (tracePart s3 p 0x03 (queueUnit p q)
    ([BitVec.ofNat 8 q, BitVec.ofNat 8 l.code] ++ leBytes 2 status ++ leBytes 4 l.index ++ leBytes 8 l.quire ++
      diffs l.first now)) (queueUnit p q) 2 (some p) none 1

end Sys2Proof.Machine
end

