-- ==== Sys2Proof/Machine/Compute.lean ====
section
/-! DEFINITION. Registers of a core (R218), scratchpads (R225) and tallies with their waiters (R238, R239). -/
namespace Sys2Proof.Machine

/-! ### Core registers -/

def coreOf (s : State) (n : Nat) : Core := mget {} s.cpu.cores n

def setCore (s : State) (n : Nat) (c : Core) : State := { s with cpu.cores := mput s.cpu.cores n c }

/-- x0 reads as 0 (R218). -/
def xget (c : Core) (r : Nat) : BitVec 64 := if r = 0 then 0 else mget 0 c.x r

/-- Writes to x0 are ignored (R218). -/
def xset (c : Core) (r : Nat) (v : BitVec 64) : Core := if r = 0 then c else { c with x := mput c.x r v }

def vget (c : Core) (r : Nat) : List (BitVec 32) := mget (List.replicate 64 0) c.v r
def vset (c : Core) (r : Nat) (v : List (BitVec 32)) : Core := { c with v := mput c.v r v }
def aget (c : Core) (r : Nat) : List (BitVec 32) := mget (List.replicate 1024 0) c.a r
def aset (c : Core) (r : Nat) (v : List (BitVec 32)) : Core := { c with a := mput c.a r v }

/-! ### Scratchpads -/

/-- Bytes of a scratchpad: 1.5 MiB (R225). -/
def spadSize : Nat := 0x180000

/-- What an unwritten scratchpad byte reads as: a free value of the scratchpad's generation (R225, log 13). -/
def spadDflt (n : Nat) (c : Core) (a : Nat) : Byte := Config.freeCell (2 ^ 64 + n * 2 ^ 32 + c.spadGen) a

def spadByte (n : Nat) (c : Core) (a : Nat) : Byte :=
  match mfind c.spad a with
  | some b => b
  | none => spadDflt n c a

def spadRead (n : Nat) (c : Core) (a len : Nat) : List Byte := (List.range len).map (fun i => spadByte n c (a + i))

/-- Granules that a range touches. -/
def granulesOf (a len : Nat) : List Nat := if len = 0 then [] else (List.range ((a + len - 1) / 64 - a / 64 + 1)).map (a / 64 + ·)

def spadPoisoned (c : Core) (a len : Nat) : Bool := (granulesOf a len).any (fun g => mget false c.spoison g)

def putBytes : Map Byte → Nat → List Byte → Map Byte
  | m, _, [] => m
  | m, a, b :: r => putBytes (mput m a b) (a + 1) r

/-- The poison flag of a granule after a write: set by poison, cleared by a whole clean granule (R225). -/
def flagAfter (a len : Nat) (poison : Bool) (old : Bool) (g : Nat) : Bool :=
  poison || (old && !(decide (a ≤ g * 64) && decide (g * 64 + 64 ≤ a + len)))

def spadWrite (c : Core) (a : Nat) (b : List Byte) (poison : Bool) : Core :=
  { c with spad := putBytes c.spad a b,
           spoison := (granulesOf a b.length).foldl (fun m g =>
             let f := flagAfter a b.length poison (mget false m g) g
             if f = mget false m g then m else if f then mput m g true else mdel m g) c.spoison }

/-! ### Tallies (R238, R239) -/

def tallyGet (s : State) (n : Nat) : BitVec 32 := mget 0 s.cpu.tallies n

def tallyQuad (n : Nat) : Nat := n / 4096

/-- Whether a wait holds (R239). -/
def waitHolds (v target : BitVec 32) (eq : Bool) : Bool := if eq then v == target else decide (0 ≤ (v - target).toInt)

/-- The command in progress of a queue completes with a status: its END pulse (R427). QUEUE_ADVANCE follows. -/
def queueStatus (s : State) (p q status : Nat) : State :=
  let x := queueOf s p q
  match x.cur with
  | some c =>
    if c.status.isSome then s
    else latchEnd (setQueue s p q { x with cur := some { c with begun := true, status := some (BitVec.ofNat 16 status) } }) p q status
  | none => s

def waitEndArg (n result : Nat) (v : BitVec 32) : Nat := n + result * 2 ^ 14 + v.toNat * 2 ^ 16

/-- A TALLY_WAIT ends: 0 met, 1 timeout, 2 DEST_RESET (R433). -/
def endQueueWait (s : State) (w : QWaiter) (result : Nat) : State :=
  let s1 := { s with cpu.waiters := s.cpu.waiters.filter (fun x => !(x.p == w.p && x.q == w.q)) }
  let s2 := blot s1 (queueUnit w.p w.q) 0x07 (some w.p) (waitEndArg w.tally result (tallyGet s w.tally))
  queueStatus s2 w.p w.q (if result = 0 then St.ok else if result = 1 then St.tallyTimeout else St.destReset)

/-- A TWAIT ends: xA is 0 when the condition is met and 1 on timeout (R226). -/
def endCoreWait (s : State) (n : Nat) (w : CoreWait) (result : Nat) : State :=
  let c := coreOf s n
  let s1 := setCore s n (xset { c with twait := none } w.reg.toNat (BitVec.ofNat 64 result))
  blot s1 n 0x07 (corePart s n) (waitEndArg w.tally result (tallyGet s w.tally))

/-- Waiters whose condition the value meets are released (R239). -/
def releaseWaiters (s : State) (n : Nat) : State :=
  let v := tallyGet s n
  let s1 := (s.cpu.waiters.filter (fun w => w.tally == n && waitHolds v w.target w.eq)).foldl (fun s w =>
    prog (endQueueWait s w 0) (0x5000 + tallyQuad n) 2 (some w.p) none 1) s
  s1.cpu.cores.foldl (fun s e =>
    match e.2.twait with
    | some w => if w.tally = n && waitHolds v w.target w.eq then prog (endCoreWait s e.1 w 0) (0x5000 + tallyQuad n) 2 (corePart s e.1) none 1 else s
    | none => s) s1

/-- A tally takes a value by a signal of unit `src` on behalf of `part` (R238 to R242, R433). -/
def tallySet (s : State) (n : Nat) (v : BitVec 32) (isSet : Bool) (src : Nat) (part : Option Nat) : State :=
  let s1 := { s with cpu.tallies := mput s.cpu.tallies n v }
  let s2 := blot s1 (0x5000 + tallyQuad n) 0x08 part (n + (if isSet then 2 ^ 15 else 0) + v.toNat * 2 ^ 16 + src * 2 ^ 48)
  releaseWaiters (bumpO (prog s2 (0x5000 + tallyQuad n) 1 part none 1) part 36 1) n

/-- Whether a composer may build a proposal: enabled, not suspended, none outstanding, none running, and not left to the next line boundary
(R284). -/
def mayPropose (k : Composer) : Bool := k.enabled && !k.suspended && k.prop.isNone && k.run.isNone && !k.atBoundary

/-- A check of a composer falls due at a stamp; one that is due already stands (R284). -/
def dueCheck (at_ : Stamp) (k : Composer) : Composer := if mayPropose k && k.check.isNone then { k with check := some at_ } else k

/-- A check of the composer of a partition falls due. -/
def noteCheck (s : State) (p : Nat) (at_ : Stamp) : State :=
  { s with stp.comps := s.stp.comps.map (fun (i, k) => (i, if i = p then dueCheck at_ k else k)) }

/-- An ADD of 1 to a slot's arrival tally posts a frame (R304). It is ready one tick later, and a check falls due then (R284, R305). -/
def frameArrives (s : State) (n : Nat) (at_ : Stamp) : State :=
  (s.stp.slots.filter (fun e => e.2.tally == n)).foldl (fun s e => noteCheck s e.2.part (at_ + 1))
    { s with stp.slots := s.stp.slots.map (fun (k, f) => (k, if f.tally = n then { f with arrivals := f.arrivals ++ [at_] } else f)) }

/-- ADD with wrap-around, or SET, at a stamp. -/
def tallySignalAt (s : State) (at_ : Stamp) (n : Nat) (v : BitVec 32) (isSet : Bool) (src : Nat) (part : Option Nat) : State :=
  tallySet (if !isSet && v == 1 then frameArrives s n at_ else s) n (if isSet then v else tallyGet s n + v) isSet src part

def tallySignalAs (s : State) (n : Nat) (v : BitVec 32) (isSet : Bool) (src : Nat) (part : Option Nat) : State :=
  tallySignalAt s (stamp s) n v isSet src part

/-- Offsets of a tally's granule (R238): VALUE at 0, everything else reads 0. -/
def tallyGranule (s : State) (off : Nat) : List Byte := padTo 64 (leBytes 4 (tallyGet s (off / 64)).toNat)

/-- Whether a quadrant is under compute reset (R411). -/
def underReset (s : State) (q : Nat) : Bool := mget false s.cpu.resetting q

end Sys2Proof.Machine
end

