-- ==== Sys2Proof/Machine/Tables.lean ====
section
/-! DEFINITION. The read-only windows: serving tables (R254, R265), region and folding tables (R99), and the status granules of
the cache control window (R98). -/
namespace Sys2Proof.Machine

/-- FLAGS of a ledger entry (R265). -/
def reqFlags (r : Req) : Nat :=
  b2n r.noPublish + 2 * b2n r.cadenced + 16 * b2n r.resumeWanted + 32 * b2n r.pausePending + 64 * b2n r.moving + 128 * b2n r.inStep

/-- A request ledger entry as 128 bytes (R265). -/
def reqBytes (r : Req) : List Byte :=
  leBytes 4 r.id ++ [BitVec.ofNat 8 r.st, BitVec.ofNat 8 (r.prio + 16 * r.part), BitVec.ofNat 8 r.model, BitVec.ofNat 8 (reqFlags r)] ++
    leBytes 4 r.committed ++ leBytes 2 r.draft ++ [BitVec.ofNat 8 r.endCode, BitVec.ofNat 8 r.pauseMode] ++
    leBytes 4 r.root ++ leBytes 4 r.pages.length ++ leBytes 8 r.ttft.toNat ++ leBytes 8 r.tbt.toNat ++ leBytes 8 r.nextDue.toNat ++
    leBytes 2 r.gtable ++ leBytes 2 0 ++ leBytes 4 r.gstate ++ leBytes 8 r.counts ++ leBytes 8 r.seed.toNat ++
    leBytes 2 r.slot ++ leBytes 2 0 ++ leBytes 4 r.promptLen ++ leBytes 8 r.prompt ++ leBytes 4 r.promptDone ++
    leBytes 4 r.maxNew ++ leBytes 4 r.ttl ++ leBytes 4 r.pin ++ leBytes 8 r.sampling ++ leBytes 8 r.submitted.toNat ++
    leBytes 4 r.cookie.toNat ++ leBytes 4 0

def reqOf (s : State) (e : Nat) : Req := mget {} s.srv.reqs e

/-- A 64-byte granule of the serving tables window (R254). -/
def servingGranule (s : State) (off : Nat) : List Byte :=
  if off < 0x80000 then slice (match mfind s.srv.reqs (off / 128) with | some r => reqBytes r | none => zeros 128) (off % 128) 64
  else if off < 0x80400 then padTo 64 (match mfind s.srv.models ((off - 0x80000) / 64) with | some m => m.raw | none => [])
  else if off < 0x80600 then padTo 64 (match mfind s.srv.pools ((off - 0x80400) / 64) with | some p => p.raw | none => [])
  else if off < 0x80640 then padTo 64 (match s.srv.map with | some m => m.raw | none => [])
  else zeros 64

/-- Entry i of a tier's channel folding table (R108). -/
def cftEntry (s : State) (t : Tier) (i : Nat) : Nat :=
  let n := tierN s t
  if n = 0 then 0 else i % n + i / n * 2 ^ 16

def chanBaseWord (s : State) (t : Tier) (c : Nat) : Nat :=
  if (tierMap s t).contains c then poolBase s t (chanUnit t c) else 0xFFFFFFFF

def tierWord (s : State) (t : Tier) : List Byte :=
  let n := tierN s t
  leBytes 2 n ++ leBytes 2 (if n = 0 then 0 else 1024 / n) ++ leBytes 2 (if n = 0 then 0 else 1024 % n) ++ leBytes 2 0

/-- `k` entries of `w` bytes from a table whose entry `i` is `f i`. -/
def tableSlice (w : Nat) (f : Nat → Nat) (off : Nat) : List Byte :=
  ((List.range (64 / w)).map (fun i => leBytes w (f (off / w + i)))).flatten

/-- A 64-byte granule of the table window (R99). -/
def tablesGranule (s : State) (off : Nat) : List Byte :=
  if off < 0x1000 then tableSlice 8 (regionEntry s .fast) off
  else if off < 0x9000 then tableSlice 8 (regionEntry s .cap) (off - 0x1000)
  else if off < 0xA000 then tableSlice 4 (cftEntry s .fast) (off - 0x9000)
  else if off < 0xB000 then tableSlice 4 (cftEntry s .cap) (off - 0xA000)
  else if off < 0xB200 then tableSlice 2 (fun j => s.mem.fastMap.getD j 0xFFFF) (off - 0xB000)
  else if off < 0xB300 then tableSlice 2 (fun j => s.mem.capMap.getD j 0xFFFF) (off - 0xB200)
  else if off < 0xC000 then zeros 64
  else if off < 0xC400 then tableSlice 4 (chanBaseWord s .fast) (off - 0xC000)
  else if off < 0xC600 then tableSlice 4 (chanBaseWord s .cap) (off - 0xC400)
  else if off < 0xC640 then padTo 64 (tierWord s .fast ++ tierWord s .cap)
  else zeros 64

def ctlOf (s : State) (p : Nat) : CacheCtl := mget {} s.mem.ctl p

def statusGranule (c : CacheCtl) : List Byte :=
  padTo 64 (leBytes 2 c.status.toNat ++ [BitVec.ofNat 8 (b2n c.busy + 2 * b2n c.overrun), 0] ++ leBytes 4 c.count.toNat ++
    leBytes 8 c.stamp.toNat)

/-- Statistics of a die's staging cache (R98). -/
def statsGranule (s : State) (die : Nat) : List Byte :=
  let ls := s.mem.cache.filter (fun l => l.die == die)
  padTo 64 (leBytes 8 ls.length ++ leBytes 8 ((ls.map (fun l => (l.sectors.filter (fun x => x.2.dirty)).length)).sum) ++
    leBytes 8 (ls.filter (pinned s)).length)

/-- A read of a granule of the cache control window, with its status (R98). -/
def controlGranule (s : State) (part : Option Nat) (off : Nat) : Nat × List Byte :=
  let own (p : Nat) : Bool := match part with | some x => x == p | none => true
  if off < 0x4000 then
    if off % 0x1000 = 0x40 then (if own (off / 0x1000) then (St.ok, statusGranule (ctlOf s (off / 0x1000))) else (St.regionDenied, zeros 64))
    else if off % 0x1000 = 0 then (if part = none then (St.ok, zeros 64) else (St.regionDenied, zeros 64))
    else (if part = none then (St.ok, zeros 64) else (St.regionDenied, zeros 64))
  else if off = 0x100000 then (St.ok, statsGranule s 0)
  else if off = 0x100040 then (St.ok, statsGranule s 1)
  else if part = none then (St.ok, zeros 64) else (St.regionDenied, zeros 64)

/-- The first address of each region that [lo, lo + len) meets, at most 4,610 of them. -/
def regionSteps (lo len : Nat) : List Nat :=
  if len = 0 then []
  else (List.range (min 4610 ((lo + len - 1) / 2 ^ 30 - lo / 2 ^ 30 + 1))).map (fun i => max lo ((lo / 2 ^ 30 + i) * 2 ^ 30))

/-- Whether a cache operation may act on the region at an address (R98, R101, R102). -/
def cacheStatusAt (s : State) (part : Option Nat) (a : Nat) : Nat :=
  match whereIs a with
  | .region t r =>
    let e := regionEntry s t r
    if eMode e = 0 then St.regionInvalid
    else if (match part with | some p => !eAccess e p | none => false) then St.regionDenied
    else St.ok
  | _ => St.regionInvalid

/-- The first status that is not OK. -/
def firstBad (l : List Nat) : Nat := (l.find? (· != St.ok)).getD St.ok

/-- A cache operation over a checked range: 1 write back, 2 invalidate, 3 both (R98, R120). -/
def cacheOp (s : State) (part : Option Nat) (dpa len code : Nat) : Nat × State :=
  let st := firstBad ((regionSteps dpa len).map (cacheStatusAt s part))
  if st ≠ St.ok then (st, s)
  else
    let (s1, held) := flushRange s dpa (dpa + len) (code % 2 == 1) (decide (code ≥ 2))
    (if held then St.thermalAbort else St.ok, s1)

/-- The operation of partition `p`'s status granule completes (R98). -/
def controlFinish (s : State) (p : Nat) (status : BitVec 16) : State :=
  let c := ctlOf s p
  { s with mem.ctl := mput s.mem.ctl p { c with busy := false, op := none, status := status, count := c.count + 1, stamp := stamp s } }

/-- A descriptor granule written whole starts an operation, or sets OVERRUN while one runs (R98). The operation acts on what was
ordered before it, so it acts here, and CACHE_CONTROL_DONE reports it; one with a bad field completes at once. -/
def controlWrite (s : State) (part : Option Nat) (off : Nat) (b : List Byte) : Nat × State :=
  let p := off / 0x1000
  if off ≥ 0x4000 ∨ off % 0x1000 ≥ 64 ∨ (part ≠ none ∧ part ≠ some p) then
    ((if part = none then St.ok else St.regionDenied), s)
  else if off % 0x1000 ≠ 0 ∨ b.length ≠ 64 then (St.badAddress, s)
  else
    let c := ctlOf s p
    let dpa := fieldN b 0 8
    let len := fieldN b 8 8
    let code := fieldN b 16 1
    if c.busy then (St.ok, { s with mem.ctl := mput s.mem.ctl p { c with overrun := true } })
    else
      let s1 := { s with mem.ctl := mput s.mem.ctl p { c with busy := true, overrun := false } }
      if !isDpa dpa || dpa % 64 != 0 || len % 64 != 0 || len == 0 || code == 0 || decide (code > 3) then
        (St.ok, controlFinish s1 p (BitVec.ofNat 16 St.badAddress))
      else
        let (st, s2) := cacheOp s1 part dpa len code
        (St.ok, { s2 with mem.ctl := mput s2.mem.ctl p { ctlOf s2 p with op := some (BitVec.ofNat 16 st) } })

end Sys2Proof.Machine
end

