-- ==== Sys2Proof/Machine/Access.lean ====
section
/-! DEFINITION. Accesses to the device physical address space: every window of R97, at the granule's ordering point (R115), with
regulators (R129 to R131), folded writes (R199) and watchpoints (R442). -/
namespace Sys2Proof.Machine

/-! ### Regulators -/

/-- Key of a requester's regulator for a tier; peers and device units meet none (R130). -/
def regKey (rq : Requester) (t : Tier) : Option Nat :=
  match rq with
  | .part p => some (2 * p + tierNum t)
  | .core p _ => some (2 * p + tierNum t)
  | .queue p _ => some (2 * p + tierNum t)
  | .serving p => some (2 * p + tierNum t)
  | .flourish p => some (2 * p + tierNum t)
  | .window => if t = .cap then some 9 else none
  | _ => none

def regOf (s : State) (k : Nat) : Regulator := mget {} s.svc.regs k

/-- Phase of the line (R129). -/
def phaseNow (s : State) : Nat := s.rul.tick.toNat / 4096

/-- The rate in force of a regulator; 0xFFFF is unregulated. -/
def rateNow (s : State) (g : Regulator) : Nat := g.rates.getD (phaseNow s) 0xFFFF

/-- A regulator is charged `n` bytes; an unregulated bucket stays full (R129, R130). -/
def chargeReg (s : State) (k n : Nat) : State :=
  let g := regOf s k
  if rateNow s g = 0xFFFF then s
  else { s with svc.regs := mput s.svc.regs k { g with level := g.level - 65536 * n } }

/-- The TRACE bucket of a tier is charged `n` bytes (R128). -/
def chargeTrace (s : State) (t n : Nat) : State :=
  { s with svc.trace := mput s.svc.trace t (mget 0 s.svc.trace t - (65536 * n : Nat)) }

/-- The regulator that an access meets (R129, R130). -/
def regFor (rq : Requester) (dpa : Nat) : Option Nat :=
  match whereIs dpa with
  | .region t _ => regKey rq t
  | _ => none

/-- The charge for an access of `n` bytes: TRACE traffic to its tier's bucket (R128), any other to its requester's regulator (R130). -/
def charge (s : State) (rq : Requester) (dpa n cls : Nat) : State :=
  if cls = 3 then (match whereIs dpa with | .region t _ => chargeTrace s (tierNum t) n | _ => s)
  else match regFor rq dpa with | some k => chargeReg s k n | none => s

/-- Whether an access waits at its regulator: NORMAL and BULK at or below zero, LATENCY below -D (R131). -/
def regHolds (s : State) (k cls : Nat) : Bool :=
  let g := regOf s k
  rateNow s g != 0xFFFF &&
    (if cls = 0 then decide (g.level < -(65536 * g.depth : Int)) else decide (g.level ≤ 0))

/-- Addresses of the granules that [dpa, dpa + len) touches. -/
def granuleAddrs (dpa len : Nat) : List Nat := (granulesOf dpa len).map (· * 64)

/-- Two ranges with a granule in common. -/
def sameGranule (a n b m : Nat) : Bool := n != 0 && m != 0 && decide (a / 64 ≤ (b + m - 1) / 64) && decide (b / 64 ≤ (a + n - 1) / 64)

/-- Whether an access waits at its source: a regulator holds its class (R131) or an older access of the same requester to one of its
granules (R115); TRACE traffic waits for its tier's bucket (R128). -/
def gateHolds (s : State) (rq : Requester) (dpa len cls : Nat) : Bool :=
  if cls = 3 then (match whereIs dpa with | .region t _ => decide (mget 0 s.svc.trace (tierNum t) ≤ 0) | _ => false)
  else
    match regFor rq dpa with
    | some k => regHolds s k cls || (regOf s k).held.any (fun w => w.req == rq && sameGranule w.dpa w.len dpa len)
    | none => false

/-! ### Retraining channels (R155) -/

/-- Whether an access to the granule at `a` goes on to its channel: past the cache, or because the cache lacks the sector that it
needs (R114, R151). `whole` says that it writes all 64 bytes. -/
def reachesChan (s : State) (write whole : Bool) (a : Nat) : Bool :=
  match locate s a with
  | some (_, e) => eWindow e || (if write && whole then eStream e || eFolded e else (sectorFind s a).isNone)
  | none => false

/-- The retraining channel that an access must wait for: one that it reaches, or one where an older access to a granule of it waits
(R115, R155). -/
def retrainAt (s : State) (reach : Nat → Bool) (dpa len : Nat) : Option (Tier × Nat) :=
  ((granuleAddrs dpa len).filterMap (fun a =>
    match locate s a with
    | some (p, _) =>
      if (chanOf s p.tier p.chan).retraining &&
          (reach a || (chanOf s p.tier p.chan).queue.any (fun w => sameGranule w.dpa w.len a 64)) then some (p.tier, p.chan) else none
    | none => none)).head?

/-- The retraining channel that a read or write waits for first. -/
def retrainingAt (s : State) (write : Bool) (dpa len : Nat) : Option (Tier × Nat) :=
  retrainAt s (fun a => reachesChan s write (decide (dpa ≤ a) && decide (a + 64 ≤ dpa + len)) a) dpa len

/-- The retraining channel that an operation of the controllers themselves waits for: a contribution or an expander read (R116). -/
def retrainingBelow (s : State) (dpa len : Nat) : Option (Tier × Nat) := retrainAt s (fun _ => true) dpa len

/-! ### The die-to-die bridge (R21) -/

/-- The die of a requester whose traffic the bridge may carry: a core's own, recto for the serving block (R19). -/
def rqDie (s : State) : Requester → Option Nat
  | .core _ n => some (coreQuad s n / 2)
  | .serving _ => some 0
  | .flourish _ => some 0
  | .device => some 0
  | _ => none

/-- The home die of an address: that of its channel, scratchpad or tally (R19, R20). -/
def homeDie (s : State) (dpa : Nat) : Option Nat :=
  match whereIs dpa with
  | .region _ _ => (locate s dpa).map (fun x => chanDie x.1.tier x.1.chan)
  | .scratch n _ => some (coreQuad s n / 2)
  | .tallies off => some (tallyQuad (off / 64) / 2)
  | _ => none

/-- Bytes that travel from one die to another count against that direction (R21, R423, R426). -/
def crossing (s : State) (src dst : Nat) (part : Option Nat) (n : Nat) : State :=
  if src = dst ∨ n = 0 then s else prog (bumpO s part (17 + src) n) (0xC000 + src) 1 part none n

/-- A read's bytes travel from the home die to the requester, a write's from the requester to the home die. -/
def crossFrom (s : State) (die : Nat) (part : Option Nat) (write : Bool) (dpa n : Nat) : State :=
  match homeDie s dpa with
  | some h => if write then crossing s die h part n else crossing s h die part n
  | none => s

def cross (s : State) (rq : Requester) (write : Bool) (dpa n : Nat) : State :=
  match rqDie s rq with
  | some d => crossFrom s d (rqPart rq) write dpa n
  | none => s

/-! ### One granule of any window -/

/-- Whether a partition may reach a core's scratchpad (R232). -/
def scratchStatus (s : State) (rq : Requester) (n off : Nat) : Nat :=
  if n ≥ coreCount s ∨ off ≥ spadSize then St.regionInvalid
  else if (match rqPart rq with | some p => corePart s n != some p | none => false) then St.regionDenied
  else if underReset s (coreQuad s n) then St.destReset
  else St.ok

/-- The status that an access to the granule at `dpa` meets before any data moves. -/
def statusAt (s : State) (rq : Requester) (write : Bool) (dpa : Nat) : Nat :=
  if dpa ≥ 2 ^ 48 then St.badAddress
  else
    match whereIs dpa with
    | .region _ _ => accessStatus s rq dpa
    | .scratch n off => scratchStatus s rq n off
    | .control off => if write then St.ok else (controlGranule s (rqPart rq) (off / 64 * 64)).1
    | .tallies off => if underReset s (tallyQuad (off / 64)) then St.destReset else St.ok
    | .serving _ => if write then St.regionDenied else St.ok
    | .tables _ => if write then St.regionDenied else St.ok
    | .unmapped => St.regionInvalid

/-- What the window that holds `dpa` answers to a read of a granule. -/
def readWindow (s : State) (rq : Requester) (dpa cls : Nat) : Got :=
  if statusAt s rq false dpa ≠ St.ok then ⟨statusAt s rq false dpa, zeros 64, false, s⟩
  else
    match whereIs dpa with
    | .region _ _ => readGranule s rq dpa cls
    | .scratch n off => ⟨St.ok, spadRead n (coreOf s n) off 64, spadPoisoned (coreOf s n) off 64, s⟩
    | .control off => ⟨St.ok, (controlGranule s (rqPart rq) off).2, false, s⟩
    | .tallies off => ⟨St.ok, tallyGranule s off, false, s⟩
    | .serving off => ⟨St.ok, servingGranule s off, false, s⟩
    | .tables off => ⟨St.ok, tablesGranule s off, false, s⟩
    | .unmapped => ⟨St.regionInvalid, zeros 64, false, s⟩

/-- The granule at `dpa`, a multiple of 64, from whichever window it lies in; its bytes may cross the bridge. -/
def readAt (s : State) (rq : Requester) (dpa cls : Nat) : Got :=
  let g := readWindow s rq dpa cls
  if g.status = St.ok then { g with s := cross g.s rq false dpa 64 } else g

/-- What the window that holds `dpa` does with a write within one granule (R115, R151, R238, R98). -/
def writeWindow (s : State) (rq : Requester) (dpa : Nat) (b : List Byte) (poison : Bool) (cls : Nat) : Nat × State :=
  if statusAt s rq true dpa ≠ St.ok then (statusAt s rq true dpa, s)
  else
    match whereIs dpa with
    | .region _ _ =>
      if b.length = 64 then writeGranule s rq dpa b poison cls
      else mergeGranule s rq (dpa / 64 * 64) (dpa % 64) b poison cls
    | .scratch n off => (St.ok, setCore s n (spadWrite (coreOf s n) off b poison))
    | .control off => controlWrite s (rqPart rq) off b
    | .tallies off =>
      if b.length = 4 ∧ off % 64 = 0 then
        (St.ok, tallySet s (off / 64) (BitVec.ofNat 32 (leNat b)) true (rqUnit rq) (rqPart rq))
      else if b.length = 4 ∧ off % 64 = 4 then
        (St.ok, tallySignalAs s (off / 64) (BitVec.ofNat 32 (leNat b)) false (rqUnit rq) (rqPart rq))
      else (St.ok, s)
    | _ => (St.regionDenied, s)

/-- Bytes `b` written at `dpa`, all within one granule; they may cross the bridge. -/
def writeAt (s : State) (rq : Requester) (dpa : Nat) (b : List Byte) (poison : Bool) (cls : Nat) : Nat × State :=
  match writeWindow s rq dpa b poison cls with
  | (st, s1) => (st, if st = St.ok then cross s1 rq true dpa b.length else s1)

/-! ### Ranges -/

/-- The first failing status over a range, or OK. -/
def rangeStatus (s : State) (rq : Requester) (write : Bool) (dpa len : Nat) : Nat :=
  ((granuleAddrs dpa len).map (statusAt s rq write)).foldr (fun st acc => if st = St.ok then acc else st) St.ok

/-- Whether a range touches a folded region. -/
def touchesFolded (s : State) (dpa len : Nat) : Bool :=
  (granuleAddrs dpa len).any (fun a => match locate s a with | some (_, e) => eFolded e | none => false)

/-- A write into a folded region must cover whole aligned 4 KiB slots (R199). -/
def foldedRefusal (s : State) (dpa len : Nat) : Bool :=
  touchesFolded s dpa len && !(dpa % 4096 == 0 && len % 4096 == 0 && len != 0)

/-- Whether a read or write that would go through waits: at its source, or for a retraining channel (R115, R128, R131, R155). -/
def accessWaits (s : State) (rq : Requester) (write : Bool) (dpa len cls : Nat) : Bool :=
  rangeStatus s rq write dpa len == St.ok && !(write && foldedRefusal s dpa len) &&
    (gateHolds s rq dpa len cls || (retrainingAt s write dpa len).isSome)

/-- Granules read over a range. -/
def readGo (rq : Requester) (cls : Nat) : List Nat → State → List (List Byte × Bool) → List (List Byte × Bool) × State
  | [], s, acc => (acc.reverse, s)
  | a :: r, s, acc => let g := readAt s rq a cls; readGo rq cls r g.s ((g.data, g.poison) :: acc)

/-- A read of a range: status, its granules with poison, and the state after it. No data moves when any granule refuses. -/
def readGranules (s : State) (rq : Requester) (dpa len cls : Nat) : Nat × List (List Byte × Bool) × State :=
  let st := rangeStatus s rq false dpa len
  if st ≠ St.ok then (st, [], s)
  else
    let (l, s1) := readGo rq cls (granuleAddrs dpa len) (charge (watch s rq 0 dpa len) rq dpa len cls) []
    (St.ok, l, s1)

/-- A read of bytes: status, bytes, poison of any granule. -/
def readBytes (s : State) (rq : Requester) (dpa len cls : Nat) : Nat × List Byte × Bool × State :=
  match readGranules s rq dpa len cls with
  | (st, l, s1) =>
    if st ≠ St.ok then (st, [], false, s1)
    else (St.ok, slice (l.map Prod.fst).flatten (dpa % 64) len, l.any Prod.snd, s1)

/-- The pieces of a write, one for each granule touched. -/
def pieces (dpa : Nat) (b : List Byte) : List (Nat × List Byte) :=
  let h := min b.length ((64 - dpa % 64) % 64)
  (if h = 0 then [] else [(dpa, b.take h)]) ++
    ((chunks 64 (b.drop h)).zipIdx.map (fun (c, i) => (dpa + h + 64 * i, c)))

/-- A write of bytes with one poison flag: status and state. Nothing is written when any granule refuses (R101, R199). -/
def writeBytes (s : State) (rq : Requester) (dpa : Nat) (b : List Byte) (poison : Bool) (cls : Nat) : Nat × State :=
  let st := rangeStatus s rq true dpa b.length
  if st ≠ St.ok then (st, s)
  else if foldedRefusal s dpa b.length then (St.foldPartial, s)
  else
    (pieces dpa b).foldl (fun (st, s) (a, c) =>
      match writeAt s rq a c poison cls with
      | (st1, s1) => (if st = St.ok then st1 else st, s1)) (St.ok, charge (watch s rq 1 dpa b.length) rq dpa b.length cls)

/-- Whole granules written, each with its poison: the store side of a copy (R149, R150). -/
def writeGranules (s : State) (rq : Requester) (dpa : Nat) (l : List (List Byte × Bool)) (cls : Nat) : Nat × State :=
  let len := 64 * l.length
  let st := rangeStatus s rq true dpa len
  if st ≠ St.ok then (st, s)
  else if foldedRefusal s dpa len then (St.foldPartial, s)
  else
    (l.zipIdx).foldl (fun (st, s) (g, i) =>
      match writeAt s rq (dpa + 64 * i) g.1 g.2 cls with
      | (st1, s1) => (if st = St.ok then st1 else st, s1)) (St.ok, charge (watch s rq 1 dpa len) rq dpa len cls)

/-- Whether a copy waits: its source or destination, each where it lies in the device, would go through and is held (R131, R138). -/
def copyHeld (s : State) (rq : Requester) (srcIn dstIn : Bool) (src dst len cls : Nat) : Bool :=
  (!srcIn || rangeStatus s rq false src len == St.ok) && (!dstIn || rangeStatus s rq true dst len == St.ok) &&
    ((srcIn && accessWaits s rq false src len cls) || (dstIn && accessWaits s rq true dst len cls))

/-- The bytes of a range cross the bridge to or from a die, granule by granule. -/
def crossRange (s : State) (die : Nat) (part : Option Nat) (write : Bool) (dpa len : Nat) : State :=
  (granuleAddrs dpa len).foldl (fun s a => crossFrom s die part write a 64) s

/-- A copy within the device, read whole before it is written (R120, R149). -/
def copyWithin (s : State) (rq : Requester) (src dst len cls : Nat) : Nat × State :=
  match rangeStatus s rq true dst len with
  | 0 =>
    if foldedRefusal s dst len then (St.foldPartial, s)
    else
      match readGranules s rq src len cls with
      | (0, l, s1) =>
        match writeGranules s1 rq dst l cls with
        | (st, s2) => (if st ≠ St.ok then st else if l.any Prod.snd then St.poisoned else St.ok, s2)
      | (st, _, s1) => (st, s1)
  | st => (match rangeStatus s rq false src len with | 0 => st | st0 => st0, s)

end Sys2Proof.Machine
end

