-- ==== Sys2Proof/Machine/Tick.lean ====
section
/-! DEFINITION. What passes with one tick of an idle block: time, the tick field (R28), token buckets (R128, R129) and the counters
of elapsed cycles and occupancy (R423, R424). -/
namespace Sys2Proof.Machine

/-- The tick field holds at 0xFFFF until the boundary (R28). -/
def nextTick (t : BitVec 16) : BitVec 16 := if t = 0xFFFF#16 then t else t + 1

/-- Fabric cycles that have begun by a time in units of 2^-16 ns, at 1.2 GHz (R22). -/
def fabricCycles (time : Nat) : Nat := time * 6 / (5 * 65536)

/-- Core cycles by a time at a clock in MHz. -/
def coreCycles (mhz time : Nat) : Nat := time * mhz / (1000 * 65536)

/-- A bucket after `dt` units of time at `rate` GB/s, at most its depth (R129). -/
def refill (level : Int) (depth rate dt : Nat) : Int := min (65536 * depth : Int) (level + (rate * dt : Nat))

/-- The instant at which a sixteenth of the line begins (R129). -/
def phaseStart (s : State) (ph : Nat) : Nat := s.rul.boundaryAt + ph * linePeriod s / 16

/-- The phases that `dt` units from the present instant meet, each with its share of them; the last phase lasts until the boundary. -/
def phaseSpans (s : State) (dt : Nat) : List (Nat × Nat) :=
  (List.range 16).filterMap (fun ph =>
    let lo := if ph = 0 then s.time else max s.time (phaseStart s ph)
    let hi := if ph = 15 then s.time + dt else min (s.time + dt) (phaseStart s (ph + 1))
    if lo < hi then some (ph, hi - lo) else none)

/-- A bucket over one span: full while its phase is unregulated, else refilled at the phase's rate (R129). -/
def refillSpan (g : Regulator) (level : Int) (span : Nat × Nat) : Int :=
  let rate := g.rates.getD span.1 0xFFFF
  if rate = 0xFFFF then (65536 * g.depth : Nat) else refill level g.depth rate span.2

/-- Regulators after `dt`, phase by phase (R129). -/
def tickRegs (s : State) (dt : Nat) : Map Regulator :=
  let spans := phaseSpans s dt
  s.svc.regs.map (fun (k, g) => (k, { g with level := spans.foldl (refillSpan g) g.level }))

/-- Populated peak of a tier in tenths of GB/s (R23). -/
def tierPeak10 (s : State) (t : Tier) : Nat :=
  match t with
  | .fast => (s.mem.sites.map (fun u => if u.2.refused then 0 else if u.2.kind = 2 then 25600 else if u.2.kind = 1 then 12288 else 0)).sum
  | .cap => (s.mem.ports.map (fun u => if u.2.refused then 0 else if u.2.kind = 1 then 1920 else if u.2.kind = 2 then 1365 else 0)).sum

/-- The TRACE buckets after `dt`: the cap times the populated peak, at most 64 KiB (R128). -/
def tickTrace (s : State) (dt : Nat) : Map Int :=
  s.svc.trace.map (fun (k, l) =>
    (k, min 4294967296 (l + (s.svc.traceCap * tierPeak10 s (tierOf k) * dt / 2000 : Nat))))

/-- Whether an expander's block is read on a partition's behalf. -/
def blockOf (s : State) (p : Nat) (b : Block) : Bool :=
  match mfind s.fold.reqs b.req with
  | some r => rqPart r.req == some p
  | none => false

/-- Counters of one partition over `cyc` fabric and `ccyc` core cycles (R423, R424). -/
def tickPart (s : State) (p cyc ccyc : Nat) : State :=
  let cores := partCores s p
  let run := (cores.filter (fun n => (coreOf s n).run == .running)).length
  let wait := (cores.filter (fun n => (coreOf s n).twait.isSome)).length
  let pend := ((partOf s p).queues.map (fun q => q.2.quires.length)).sum
  let held (t : Tier) : Nat := if (regOf s (2 * p + tierNum t)).held.isEmpty then 0 else cyc
  let chq := (s.svc.chans.map (fun c => (c.2.queue.filter (fun w => rqPart w.req == some p)).length)).sum +
    (s.fold.exps.map (fun e => (e.2.held.filter (fun h => blockOf s p h.block)).length)).sum
  let expq := (s.fold.exps.map (fun e => (e.2.queue.filter (blockOf s p)).length)).sum
  let s1 := bump (bump (bump s p 0 cyc) p 1 (run * ccyc)) p 37 (wait * ccyc)
  let s2 := bump (bump (bump s1 p 2 (wait * ccyc)) p 24 (pend * cyc)) p 25 (chq * cyc)
  bump (bump (bump s2 p 26 (expq * cyc)) p 27 (held .fast)) p 28 (held .cap)

/-- Queue-full cycles of the expanders (R213, R426). -/
def tickExps (s : State) (cyc : Nat) : State :=
  (s.fold.exps.filter (fun e => decide (e.2.queue.length ≥ 48))).foldl (fun s e =>
    prog { s with fold.exps := mput s.fold.exps e.1 { mget {} s.fold.exps e.1 with full := satAdd 32 (mget {} s.fold.exps e.1).full cyc } }
      (0x3000 + e.1) 5 none none cyc) s

/-- The events of R426 that count cycles: a core whose store queue is full (core cycles), and in fabric cycles a link whose credits of a channel are all used, a KERNEL that waits for its cores, a queue
in TALLY_WAIT, the Scribe's backlog of events, and the contributions in a controller's reorder buffer. -/
def tickUnits (s : State) (cyc ccyc : Nat) : State :=
  let dry (x : Link) (ch : Nat) : Bool := decide (0 < x.granted.getD ch 0) && x.credits.getD ch 0 == 0
  let s1 := s.duc.links.foldl (fun s e => (List.range 3).foldl (fun s ch =>
    if dry e.2 ch then prog s (0x4000 + e.1) (4 + ch) none none cyc else s) s) s
  let s2 := s.cpu.parts.foldl (fun s e => e.2.queues.foldl (fun s q =>
    if !q.2.cores.isEmpty && !q.2.running then prog s (queueUnit e.1 q.1) 3 (some e.1) none cyc else s) s) s1
  let s3 := s.cpu.waiters.foldl (fun s w => prog s (queueUnit w.p w.q) 4 (some w.p) none cyc) s2
  let s4 := prog s3 0x9000 3 none none ((s.ink.funcs.map (fun f => f.2.backlog.length + f.2.waiting.length)).sum * cyc)
  let s5 := s.ari.reorder.foldl (fun s b => prog s (0x2000 + b.chan) 8 (rqPart b.req) none cyc) s4
  s.cpu.cores.foldl (fun s e => if decide (64 ≤ e.2.stores.length) then prog s e.1 5 (corePart s e.1) none ccyc else s) s5

/-- Time passes by `dt` units: buckets refill and counters count. -/
def elapse (s : State) (dt : Nat) : State :=
  let t1 := s.time + dt
  let cyc := fabricCycles t1 - fabricCycles s.time
  let ccyc := coreCycles s.pwr.clock t1 - coreCycles s.pwr.clock s.time
  let s1 := tickUnits (tickExps { s with time := t1, svc.regs := tickRegs s dt, svc.trace := tickTrace s dt } cyc) cyc ccyc
  if serving s then (List.range 4).foldl (fun s p => if configured s p then tickPart s p cyc ccyc else s) s1 else s1

/-- A line so short that a fabric cycle outlasts a tick: below 54.6 us (R27). -/
def shortLine (s : State) : Bool := decide (6 * linePeriod s < 5 * 65536 * 65536)

/-- The tick that the counter shows at an instant of the line: on a short line as the last fabric cycle found it (R27), at most 0xFFFF
(R28). -/
def tickAt (s : State) (inst : Nat) : Nat :=
  let seen := if shortLine s then fabricCycles inst * 5 * 65536 / 6 else inst
  min 0xFFFF ((seen - s.rul.boundaryAt) * 65536 / linePeriod s)

/-- One tick passes (log 1); on a short line the stamp moves with the fabric cycles (R27). -/
def tickPass (s : State) : State :=
  let s1 := elapse s (periodNow s)
  { s1 with rul.tick := if shortLine s then BitVec.ofNat 16 (max (tickAt s s1.time) s.rul.tick.toNat) else nextTick s1.rul.tick }

/-- Time passes to an instant within the line; the tick field follows it and never falls (R28). -/
def elapseTo (s : State) (inst : Nat) : State :=
  if inst ≤ s.time then s
  else
    let s1 := elapse s (inst - s.time)
    { s1 with rul.tick := BitVec.ofNat 16 (max (tickAt s inst) s.rul.tick.toNat) }

end Sys2Proof.Machine
end

