-- ==== Sys2Proof/Machine/Links.lean ====
section
/-! DEFINITION. The transport of Ductus: messages and flits (R351, R352, R356, R357), credits and the replay buffer (R354, R355),
routes and floods (R358), and requests to peers (R360). -/
namespace Sys2Proof.Machine

/-! ### Links -/

def linkOf (s : State) (l : Nat) : Link := mget {} s.duc.links l

def setLink (s : State) (l : Nat) (x : Link) : State := { s with duc.links := mput s.duc.links l x }

/-- States of R350. -/
def lkDisabled : Nat := 0
def lkTraining : Nat := 1
def lkAuth : Nat := 2
def lkConcord : Nat := 3
def lkLive : Nat := 4
def lkQuarantine : Nat := 5
def lkFenced : Nat := 6
def lkLoopback : Nat := 7

def linkDie (l : Nat) : Nat := l / 8
def linkUnit (l : Nat) : Nat := 0x4000 + l

def liveLinks (s : State) : List Nat := (List.range 16).filter (fun l => (linkOf s l).st == lkLive)
def quarantineLinks (s : State) : List Nat := (List.range 16).filter (fun l => (linkOf s l).st == lkQuarantine)

/-- Counter `i` of a link: 0 flits sent, 1 received, 2 replays, 3 integrity failures, 4 malformed, 5 corrected bits,
6 uncorrectable codewords, 7 retrains (R379). -/
def linkCount (s : State) (l i n : Nat) : State :=
  let x := linkOf s l
  setLink s l { x with ctr := x.ctr.set i (x.ctr.getD i 0 + n) }

/-- A change of link state, with its event and blotter entry (R350, R381, R433). -/
def linkMove (s : State) (l st reason : Nat) : State :=
  let x := linkOf s l
  if x.st = st then setLink s l { x with reason := reason }
  else
    let s1 := setLink s l { x with st := st, reason := reason, changed := stamp s }
    let s2 := blot s1 (linkUnit l) 0x18 none (x.st + st * 256 + reason * 65536)
    post s2 0x0A01 0xFF ([BitVec.ofNat 8 l, BitVec.ofNat 8 x.st, BitVec.ofNat 8 st, BitVec.ofNat 8 reason] ++ leBytes 2 x.peer) false

/-- The device's own index: that of the group, or 0 (R100). -/
def ownIndex (s : State) : Nat := match s.duc.group with | some g => g.index | none => 0

/-- The index as RULING_STATUS and concord report it, 0xFFFF with no group. -/
def groupIndex (s : State) : Nat := match s.duc.group with | some g => g.index | none => 0xFFFF

/-! ### Messages (R356, R357) -/

/-- Channel of an operation: 0 REQ, 1 RSP, 2 CTL. -/
def opChannel (op : Nat) : Nat := if op < 0x10 then 0 else if op < 0x20 then 1 else 2

def knownOp (op : Nat) : Bool :=
  (decide (1 ≤ op) && decide (op ≤ 4)) || (decide (0x10 ≤ op) && decide (op ≤ 0x12)) || (decide (0x20 ≤ op) && decide (op ≤ 0x27))

/-- Link-only operations are not forwarded. -/
def linkOnly (op : Nat) : Bool := decide (0x25 ≤ op) && decide (op ≤ 0x27)

def flooded (op : Nat) : Bool := decide (0x21 ≤ op) && decide (op ≤ 0x24)

/-- Slots of a message. -/
def msgSlots (m : Msg) : Nat := 1 + b2n m.second.isSome + 4 * m.data.length

def encodeMsg (m : Msg) : List Byte :=
  [BitVec.ofNat 8 m.op, BitVec.ofNat 8 (m.data.length + m.poison.toNat * 4 + 32 * b2n m.second.isSome)] ++
    leBytes 2 (m.dest % 4096 + m.part % 4 * 4096 + 16384 * b2n m.flood) ++ leBytes 2 (m.source % 4096 + m.hops % 16 * 4096) ++
    leBytes 2 m.tag.toNat ++ padTo 8 m.fields ++ (match m.second with | some b => padTo 16 b | none => []) ++
    (m.data.map (padTo 64)).flatten

/-- Data granules that an operation may carry. -/
def granulesAllowed (op n : Nat) : Bool :=
  if op = 2 ∨ op = 0x10 ∨ op = 0x26 then decide (1 ≤ n) && decide (n ≤ 3) else if op = 3 ∨ op = 0x25 then n == 1 else n == 0

/-- Whether a second header slot must, may or must not be there. -/
def secondAllowed (op : Nat) (there : Bool) : Bool :=
  if op = 2 then true else if op = 3 ∨ op = 0x20 ∨ op = 0x27 then there else !there

/-- Ranges and Reserved fields of a concord record (R357, R363). -/
def concordOk (b : List Byte) : Bool :=
  let index (o : Nat) : Bool := decide (fieldN b o 2 < 4096) || fieldN b o 2 == 0xFFFF
  decide (fieldN b 1 1 < 64) && index 2 && index 16 && (slice b 22 10).all (· == 0)

/-- Fields of an operation within their ranges, and Reserved bits 0 (R357). -/
def fieldsOk (m : Msg) : Bool :=
  let f := fieldN m.fields 0 8
  let b := m.second.getD []
  match m.op with
  | 0x01 => decide (1 ≤ bits f 55 48) && decide (bits f 55 48 ≤ 64) && f >>> 56 == 0
  | 0x02 => f >>> 48 == 0 && fieldN b 0 12 == 0
  | 0x03 => f >>> 48 == 0 && decide (fieldN b 1 1 ≤ 1) && fieldN b 3 1 == 0
  | 0x04 => !bit f 14 && bits f 31 16 == 0
  | 0x10 => decide (f < 64)
  | 0x11 => decide (f < 65536)
  | 0x12 => f == 0
  | 0x20 => f >>> 48 == 0 && decide (fieldN b 4 2 < 4096) && fieldN b 6 2 == 0
  | 0x21 => decide (1 ≤ bits f 15 0) && decide (bits f 15 0 ≤ 256) && f >>> 32 == 0
  | 0x22 => decide (bits f 15 0 < 4) && f >>> 32 == 0
  | 0x23 => bits f 31 0 != 0
  | 0x24 => bits f 31 0 != 0 && decide (bits f 63 48 < 4096)
  | 0x25 => decide (f < 2) && concordOk (m.data.headD [])
  | 0x26 => decide (bits f 15 0 < bits f 31 16) && decide (bits f 47 32 ≤ 64 * m.data.length) && f >>> 48 == 0
  | _ => true

/-- The message that starts a slot list, with the slots after it; none when it breaks R356 or R357. -/
def decodeMsg (b : List Byte) : Option (Msg × List Byte) :=
  let op := fieldN b 0 1
  let n := bits (fieldN b 1 1) 1 0
  let ext := bit (fieldN b 1 1) 5
  let d := fieldN b 2 2
  let len := 16 * (1 + b2n ext + 4 * n)
  if !knownOp op || !granulesAllowed op n || !secondAllowed op ext || bit (fieldN b 1 1) 6 || bit (fieldN b 1 1) 7 || bit d 15 ||
      (bit d 14 && !flooded op) || (flooded op && !bit d 14) || (bit d 14 && bits d 11 0 != 0) || decide (b.length < len) ||
      decide (bits (fieldN b 1 1) 4 2 ≥ 2 ^ n) then none
  else
    let rest := b.drop 16
    let m : Msg :=
      { op := op, poison := BitVec.ofNat 3 (bits (fieldN b 1 1) 4 2), dest := bits d 11 0, part := bits d 13 12, flood := bit d 14,
        source := bits (fieldN b 4 2) 11 0, hops := bits (fieldN b 4 2) 15 12, tag := BitVec.ofNat 16 (fieldN b 6 2),
        fields := slice b 8 8, second := if ext then some (slice rest 0 16) else none,
        data := chunks 64 (slice (rest.drop (16 * b2n ext)) 0 (64 * n)) }
    if fieldsOk m then some (m, b.drop len) else none

/-- Every message of the 14 slots of a flit; none when the flit is malformed (R357). A slot whose byte 0 is 0 is empty, and ends them
(R356). -/
def decodeSlots : Nat → List Byte → Option (List Msg)
  | 0, _ => some []
  | fuel + 1, b =>
    if b.length < 16 then some []
    else if fieldN b 0 1 = 0 then some []
    else
      match decodeMsg b with
      | some (m, r) => (decodeSlots fuel r).map (m :: ·)
      | none => none

/-! ### Sending -/

/-- SEQ of the last DATA flit received in order, 0 before the first (R351). -/
def lastAccepted (x : Link) : Nat := if !x.rxAny then 0 else if x.rxNext = 1 then 0xFFFFFF else x.rxNext - 1

/-- The nonce of the next DATA flit: the session's salt, then a 64-bit flit counter whose low 24 bits are SEQ (R352). The bits above count
the times that SEQ has wrapped. -/
def flitNonce (x : Link) (seq : Nat) : List Byte := padTo 4 x.salt ++ leBytes 8 (x.sent / 0xFFFFFF * 2 ^ 24 + seq)

/-- Header, slots and integrity of a flit (R351, R352): with ENC ciphertext and the AES-256-GCM tag, bytes 0 to 15 authenticated with
them; without it the CRC-64. -/
def flitBytes (x : Link) (kind : Nat) (seq : Nat) (slots : List Byte) : List Byte :=
  let enc := x.enc && kind == 1
  let head := [BitVec.ofNat 8 kind, BitVec.ofNat 8 (b2n enc)] ++ leBytes 3 seq ++ leBytes 3 (lastAccepted x) ++
    [BitVec.ofNat 8 (b2n x.nakSent), 0] ++ (x.toReturn.map (leBytes 2)).flatten
  let b := padTo 240 (head ++ slots)
  if enc then head ++ padTo 240 (Config.gcm x.key (flitNonce x seq) head (slice b 16 224))
  else b ++ leBytes 8 (crc64 b) ++ zeros 8

/-- The next SEQ: after 0xFF_FFFF comes 1 (R351). -/
def nextSeq (n : Nat) : Nat := if n ≥ 0xFFFFFF then 1 else n + 1

/-- The first message that may go: CTL before RSP before REQ, in order within a channel, with credits and room (R354). -/
def nextSend (x : Link) (room : Nat) : Option Msg :=
  let pick (ch : Nat) : Option Msg :=
    match x.tx.find? (fun m => opChannel m.op == ch) with
    | some m => if msgSlots m ≤ room ∧ msgSlots m ≤ x.credits.getD ch 0 then some m else none
    | none => none
  (pick 2).or ((pick 1).or (pick 0))

/-- Messages that fill one flit. -/
def fillFlit : Nat → Link → Nat → List Msg → Link × List Msg
  | 0, x, _, acc => (x, acc.reverse)
  | fuel + 1, x, room, acc =>
    match nextSend x room with
    | none => (x, acc.reverse)
    | some m =>
      let ch := opChannel m.op
      fillFlit fuel { x with tx := x.tx.erase m, credits := x.credits.set ch (x.credits.getD ch 0 - msgSlots m) } (room - msgSlots m) (m :: acc)

/-- Whether a link's state lets DATA flits go: from the end of the LINK_INIT exchange (R350, R353, R365, R367). -/
def canSend (x : Link) : Bool :=
  (x.st != lkTraining || decide (x.training ≥ 4)) && x.st != lkDisabled && x.st != lkFenced && x.st != lkLoopback && !x.retraining

/-- Bytes of a message that a partition's activity sends or receives: requests and answers, not group or link traffic (R423). -/
def countMsg (s : State) (i : Nat) (m : Msg) : State := if m.op < 0x20 then bump s m.part i (16 * msgSlots m) else s

/-- A SEND record for a message that this device originates, or a RECV record for one that it accepts (R450). -/
def noteMsg (s : State) (l : Nat) (m : Msg) (type : Nat) : State :=
  let t := mget {} s.obs.traces (4 + linkDie l)
  if m.flood || linkOnly m.op || !t.opMask.getLsbD (if m.op < 0x10 then m.op - 1 else if m.op < 0x20 then m.op - 12 else m.op - 25) ||
      m.tag.toNat % 2 ^ t.tagBits != 0 then s
  else
    traceAt s (4 + linkDie l) type (linkUnit l) none
      (leBytes 2 m.source ++ leBytes 2 m.dest ++ leBytes 2 m.tag.toNat ++ [BitVec.ofNat 8 m.op, BitVec.ofNat 8 l] ++ padTo 8 m.fields) false

/-- Flits leave while messages, credits and replay room allow (R354, R355). -/
def pumpGo (l : Nat) : Nat → State → State
  | 0, s => s
  | fuel + 1, s =>
    let x := linkOf s l
    if !canSend x || decide (x.replay.length ≥ 512) then s
    else
      match fillFlit 14 x 14 [] with
      | (_, []) => s
      | (x1, ms) =>
        let b := flitBytes x1 1 x1.txSeq ((ms.map encodeMsg).flatten)
        let s2 := setLink s l { x1 with replay := x1.replay ++ [(x1.txSeq, b)], txSeq := nextSeq x1.txSeq, nakSent := false, out := b,
                                         toReturn := [0, 0, 0], flitsKey := x1.flitsKey + 1, sent := x1.sent + 1,
                                         ackAt := if x1.replay.isEmpty then s.time else x1.ackAt }
        let s3 := ms.foldl (fun s m =>
          if m.source = ownIndex s && m.hops ≤ 1 then noteMsg (countMsg s 19 m) l m 0x07 else s) s2
        pumpGo l fuel (prog (linkCount s3 l 0 1) (linkUnit l) 1 none none 1)

def pump (s : State) (l : Nat) : State := pumpGo l (linkOf s l).tx.length s

/-- A flit without messages: IDLE, or LINK_INIT with its contents. It carries the acknowledgement and the credits (R351). -/
def sendBare (s : State) (l kind : Nat) (slots : List Byte) : State :=
  let x := linkOf s l
  let b := flitBytes (if kind = 2 then { x with rxAny := false, nakSent := false, toReturn := [0, 0, 0] } else x) kind 0 slots
  prog (linkCount (setLink s l { x with nakSent := false, toReturn := [0, 0, 0], out := b }) l 0 1) (linkUnit l) 1 none none 1

/-- Credits and a NAK that no DATA flit has taken go in an IDLE flit (R354, R355). -/
def settleLink (s0 : State) (l : Nat) : State :=
  let s := pump s0 l
  let x := linkOf s l
  if canSend x ∧ (x.nakSent ∨ x.toReturn ≠ [0, 0, 0]) then sendBare s l 0 [] else s

/-- A message queued on a link and sent as soon as it may. The first of its channel to wait starts the wait for a credit (R366). -/
def sendOn (s : State) (l : Nat) (m : Msg) : State :=
  let x := linkOf s l
  let ch := opChannel m.op
  let at0 := if x.tx.any (fun w => opChannel w.op == ch) then x.creditAt else x.creditAt.set ch s.time
  pump (setLink s l { x with tx := x.tx ++ [m], creditAt := at0 }) l

/-- The link that the route table names for an index (R368). -/
def routeTo (s : State) (dest : Nat) : Option Nat :=
  match s.duc.group with
  | some g => match mfind g.routes dest with | some l => if l < 16 then some l else none | none => none
  | none => none

/-- A message leaves by its route, with HOPS incremented; none when the route names no LIVE link or HOPS is spent (R358). -/
def sendRouted (s : State) (m : Msg) : Option State :=
  match routeTo s m.dest with
  | some l => if (linkOf s l).st = lkLive ∧ m.hops < 8 then some (sendOn s l { m with hops := m.hops + 1 }) else none
  | none => none

/-- A flooded message sent once on every LIVE link but one; ADVERT also crosses QUARANTINE (R358, R370). -/
def floodFrom (s : State) (m : Msg) (except : Option Nat) : State :=
  (List.range 16).foldl (fun s l =>
    let st := (linkOf s l).st
    if some l ≠ except ∧ (st = lkLive ∨ (st = lkQuarantine ∧ m.op = 0x22)) then sendOn s l m else s) s

/-- A message of this device. -/
def ownMsg (s : State) (op dest part : Nat) (tag : BitVec 16) (fields : List Byte) (second : Option (List Byte)) (data : List (List Byte))
    (poison : BitVec 3) : Msg :=
  { op := op, poison := poison, dest := dest, part := part, flood := flooded op, source := ownIndex s, hops := 0, tag := tag,
    fields := padTo 8 fields, second := second.map (padTo 16), data := data }

def floodOwn (s : State) (op : Nat) (fields : List Byte) : State :=
  floodFrom s (ownMsg s op 0 0 0 fields none [] 0) none

/-- The first tag from the next one on that no outstanding request carries. -/
def freshTag (s : State) : BitVec 16 :=
  match findFrom (fun n => !s.duc.remotes.any (fun r => r.tag == BitVec.ofNat 16 n)) (s.duc.remotes.length + 1) s.duc.nextTag.toNat with
  | some n => BitVec.ofNat 16 n
  | none => s.duc.nextTag

/-- A request to a peer: sent and remembered until its answer (R359, R360), or refused with ROUTE_UNREACHABLE. -/
def requestPeer (s : State) (op dest part : Nat) (fields : List Byte) (second : Option (List Byte)) (data : List (List Byte))
    (poison : BitVec 3) (use : RemoteUse) (left : Nat) : Nat × State :=
  let tag := freshTag s
  let m := ownMsg s op dest part tag fields second data poison
  let r : Remote := { tag := tag, dest := dest, msg := m, use := use, since := s.time, left := left }
  match sendRouted { s with duc.nextTag := tag + 1, duc.remotes := s.duc.remotes ++ [r] } m with
  | some s1 => (St.ok, s1)
  | none => (St.routeUnreachable, s)

/-- LINE_MARKER as the ruling master sends it on every LIVE and QUARANTINE link (R369). -/
def markerMsg (s : State) (corr : Nat) (line : Nat) (epoch : Nat) (master : Nat) : Msg :=
  { (ownMsg s 0x20 0 0 0 (leBytes 6 line) (some (leBytes 4 epoch ++ leBytes 2 master ++ leBytes 2 0 ++ leBytes 8 corr)) [] 0) with flood := false }

def sendMarkers (s : State) (except : Option Nat) (corr line epoch master : Nat) : State :=
  (liveLinks s ++ quarantineLinks s).foldl (fun s l => if some l = except then s else sendOn s l (markerMsg s corr line epoch master)) s

/-! ### Shares and timeouts of collectives (R377) -/

/-- The latest share of a member, 256 at the start. -/
def shareHeld (s : State) (i : Nat) : Nat := mget 256 s.duc.shares i

/-- The effective timeout of a collective, in ticks; `own` is the share this device declares. -/
def effTimeout (s : State) (own : Nat) (c : Coll) : Nat :=
  let lines := if c.lines ≠ 0 then c.lines else match s.duc.group with | some g => g.lines | none => 4
  let low := c.members.foldl (fun m i => min m (if i = ownIndex s then own else shareHeld s i)) own
  lines * 65536 * 256 / max 1 low

/-- GROUP_SLOW: the source, its share, and the lowest effective timeout, 0 with no active collective (R381). -/
def postSlow (s : State) (own source share : Nat) : State :=
  let ts := s.duc.colls.map (effTimeout s own)
  post s 0x0A02 0xFF (leBytes 2 source ++ leBytes 2 share ++ leBytes 4 (match ts with | t :: r => min (2 ^ 32 - 1) (r.foldl min t) | [] => 0)) true

end Sys2Proof.Machine
end

