-- ==== Sys2Proof/Machine/Ruling.lean ====
section
/-! DEFINITION. The ruling (spec/02): line boundaries, cadence sources, holdover, epochs, alarms, triggers and its commands. -/
namespace Sys2Proof.Machine

/-! ### Sources -/

def srcCode : Src → Nat
  | .cadenceIn => 0
  | .rulingMaster => 1
  | .disciplined => 2
  | .free => 3

def srcOf? : Nat → Option Src
  | 0 => some .cadenceIn
  | 1 => some .rulingMaster
  | 2 => some .disciplined
  | 3 => some .free
  | _ => none

/-- The pin pair's resource (R83). -/
def pinPair : Nat := mkRes 1 0

def pairCadence (s : State) : Bool := heldAny s pinPair 1
def pairTrigger (s : State) : Bool := heldAny s pinPair 2

/-- Validity of a source (R33, R37). -/
def validSrc (s : State) : Src → Bool
  | .cadenceIn => s.rul.cad.valid && pairCadence s
  | .rulingMaster => s.rul.markerValid
  | .disciplined => s.rul.discValid
  | .free => true

/-- The first valid source of the list (R32). -/
def firstValid (s : State) : Src := (s.rul.prefs.find? (validSrc s)).getD .free

/-- A source whose boundaries the internal generator gives (R31). -/
def isGen : Src → Bool
  | .disciplined => true
  | .free => true
  | _ => false

/-- State byte of R52: 0 LOCKED, 1 HOLDOVER, 2 SLEWING, 3 FREE. -/
def rulState (s : State) : Nat :=
  if s.rul.holdover.isSome then 1 else if s.rul.slewing then 2 else if s.rul.source = .free then 3 else 0

/-- The offset that RULING_STATUS and RULING_SOURCE report: 0 on a device that follows no master (R52). -/
def offset16 (s : State) : Nat := if s.rul.follower then intBits 16 (clampInt (-32767) 32767 s.rul.offset) else 0

/-- RULING_SOURCE (R53). Causes: 0 source switch, 1 master change, 2 lock gained, 3 lock lost. -/
def postSource (s : State) (former : Src) (cause : Nat) : State :=
  post s 0x0201 0xFF ([BitVec.ofNat 8 (srcCode former), BitVec.ofNat 8 (srcCode s.rul.source), BitVec.ofNat 8 (rulState s),
    BitVec.ofNat 8 cause] ++ leBytes 2 s.rul.master ++ leBytes 2 (offset16 s)) false

/-- A switch of the source in force ends a holdover and posts RULING_SOURCE (R34). -/
def switchTo (s : State) (new : Src) : State :=
  let former := s.rul.source
  if former = new ∧ s.rul.holdover = none then { s with rul.pendSwitch := none }
  else postSource { s with rul.source := new, rul.holdover := none, rul.pendSwitch := none } former 0

/-! ### Epochs (R29, R30) -/

/-- A stamp moved by S and held within 64 bits (R30). -/
def rebased (st : Stamp) (S : Int) : Stamp := BitVec.ofNat 64 (clampInt 0 (2 ^ 64 - 1) (st.toNat + S)).toNat

def rebasedLine (l : BitVec 48) (S : Int) : BitVec 48 := BitVec.ofNat 48 (clampInt 0 (2 ^ 48 - 1) (l.toNat + Int.fdiv S 65536)).toNat

/-- The deadlines of a request; NEXT_DUE of all ones is no deadline (R301). A new line window begins with the epoch's line (R42). -/
def rebasedReq (r : Req) (S : Int) : Req :=
  { r with winTokens := 0, ttft := rebased r.ttft S, nextDue := if r.nextDue = BitVec.allOnes 64 then r.nextDue else rebased r.nextDue S }

/-- The line from which a row's due stamp is reckoned. -/
def rebasedRow (S : Int) (r : Row) : Row := { r with line := rebasedLine r.line S }

/-- The start of a queue's command, from which the limit of single-step mode runs (R446). -/
def rebasedQueue (S : Int) (q : Queue) : Queue := { q with cur := q.cur.map (fun k => { k with since := rebased k.since S }) }

/-- S is added to every deadline the device holds and to every pending alarm (R30). The arrivals of frames that wait in a slot are moved
too: the due stamps of those frames are reckoned from them (log 96). -/
def rebaseAll (s : State) (S : Int) : State :=
  { s with
    rul.alarms := s.rul.alarms.map (fun a => { a with stamp := rebased a.stamp S })
    srv.reqs := s.srv.reqs.map (fun (k, r) => (k, rebasedReq r S))
    cpu.waiters := s.cpu.waiters.map (fun w => { w with deadline := w.deadline.map (rebased · S) })
    cpu.parts := s.cpu.parts.map (fun (k, p) => (k, { p with queues := p.queues.map (fun (j, q) => (j, rebasedQueue S q)) }))
    cpu.cores := s.cpu.cores.map (fun (k, c) =>
      (k, { c with twait := c.twait.map (fun w => { w with deadline := w.deadline.map (rebased · S) }) }))
    stp.comps := s.stp.comps.map (fun (k, c) =>
      (k, { c with check := c.check.map (rebased · S)
                   prop := c.prop.map (fun p => { p with since := rebased p.since S, rows := p.rows.map (rebasedRow S) })
                   run := c.run.map (fun r => { r with since := rebased r.since S, rows := r.rows.map (rebasedRow S) }) }))
    stp.slots := s.stp.slots.map (fun (k, f) => (k, { f with arrivals := f.arrivals.map (rebased · S) }))
    duc.colls := s.duc.colls.map (fun c => { c with progress := rebased c.progress S }) }

/-- A new epoch by a step S, for a cause of R53; every unit records it (R29, R30, R432, R437). -/
def enterEpoch (s : State) (e : BitVec 32) (S : Int) (cause : Nat) : State :=
  let former := s.rul.epoch
  let s1 := rebaseAll { s with rul.epoch := e } S
  let s2 := (allUnits s1).foldl (fun s u => blot s u 0x30 none e.toNat) s1
  let s3 := (List.range 6).foldl (fun s i => traceAt s i 0x0B 0xB000 none (leBytes 4 former.toNat ++ zeros 4 ++ leBytes 8 (intBits 64 S)) true) s2
  post s3 0x0203 0xFF (leBytes 4 former.toNat ++ [BitVec.ofNat 8 cause, 0, 0, 0] ++ leBytes 8 (intBits 64 S)) false

/-- The epoch after the present one; 0 is never held (R29). -/
def nextEpoch (s : State) : BitVec 32 := if s.rul.epoch + 1 = 0 then 1 else s.rul.epoch + 1

/-! ### Holdover (R34) -/

/-- Holdover begins: the generator keeps the phase of the last boundary at period `p`, in units of 2^-16 ns (R34, R53). -/
def setHoldover (s : State) (cause p : Nat) : State :=
  let lost := s.rul.source
  let s1 := { s with rul.holdover := some { lost := lost, remaining := s.rul.limit, period := p, base := s.rul.boundaryAt } }
  post s1 0x0202 0xFF ([BitVec.ofNat 8 (srcCode lost), BitVec.ofNat 8 cause] ++ leBytes 2 s.rul.limit ++ leBytes 4 (p / 65536)) false

/-- The instant of the generator's next boundary: E + P in holdover, else one period after the last. -/
def nextInstant (s : State) : Nat :=
  match s.rul.holdover with
  | some h => h.base + linePeriod s
  | none => s.rul.boundaryAt + linePeriod s

/-! ### Election (R45, R46) -/

/-- VALID_SOURCE that the device advertises. -/
def ownValid (s : State) : Bool :=
  s.rul.prefs.any (fun c => (c == .cadenceIn || c == .disciplined) && validSrc s c)

/-- A member is reached while the link of its route carries ADVERT and LINE_MARKER: LIVE or QUARANTINE (R45, R370). -/
def reaches (s : State) (i : Nat) : Bool :=
  match s.duc.group, routeTo s i with
  | some g, some l => g.members.contains i && ((linkOf s l).st == lkLive || (linkOf s l).st == lkQuarantine)
  | _, _ => false

/-- The candidates: this device and every member that it reaches and whose ADVERT it holds, by index (R45, R370). -/
def candidates (s : State) : List (Nat × Bool × Bool) :=
  sortBy (fun a b => a.1 < b.1)
    ((ownIndex s, ownValid s, s.rul.eligible) ::
      (s.duc.adverts.filter (fun a => a.1 != ownIndex s && reaches s a.1)).map (fun a => (a.1, a.2.valid, a.2.eligible)))

/-- The master that the cases of R45 elect. -/
def elect (s : State) : Nat :=
  let cs := candidates s
  match cs.find? (fun c => c.2.1 && c.2.2) with
  | some c => c.1
  | none =>
    match cs.find? (fun c => c.2.2) with
    | some c => c.1
    | none => match cs with | c :: _ => c.1 | [] => ownIndex s

/-- ADVERT is flooded while a LIVE link is held and what it says has changed since it was last sent (R370). -/
def advertise (s : State) : State :=
  let now := (ownValid s, s.rul.eligible)
  if s.duc.group.isNone || (liveLinks s).isEmpty || s.duc.advSent == some now then s
  else
    let q := s.duc.advSeq + 1
    floodOwn { s with duc.advSeq := q, duc.advSent := some now } 0x22 ([BitVec.ofNat 8 (b2n now.1 + 2 * b2n now.2), 0] ++ leBytes 2 q.toNat)

/-- The ruling master that this device knows of, or the one that an election has named and that has yet to take over. -/
def coming (s : State) : Nat := s.rul.pendMaster.getD s.rul.master

/-- A master takes over: RULING_SOURCE names it (R46, R53). -/
def installMaster (s : State) (m : Nat) : State :=
  let s1 := { s with rul.pendMaster := none }
  if s.rul.master = m then s1 else postSource { s1 with rul.master := m } s.rul.source 1

/-- A device that follows nobody holds no marker, offset or rate of a master (R32, R52). -/
def unfollow (s : State) : State :=
  { s with rul.follower := false, rul.markerValid := false, rul.locked := false, rul.slewing := false, rul.offset := 0, rul.rate := 0,
           rul.pendEpoch := none }

/-- The outcome of an election (R32, R34, R46). The device follows another master from now on, whose first marker is that master's next
boundary here, or ceases to be a follower; the master it names takes over at its next boundary, at once where there was none. A follower
in holdover waits for the new master's marker for its limit. -/
def takeMaster (s : State) (m : Nat) : State :=
  let own := m == ownIndex s
  let s1 := if own then unfollow s
    else { s with rul.follower := true,
                  rul.holdover := s.rul.holdover.map (fun h => if s.rul.follower then { h with remaining := s.rul.limit } else h) }
  let s2 := { s1 with rul.contrary := 0, rul.pendSwitch := if own then none else some .rulingMaster }
  if s.rul.master = 0xFFFF ∨ s.rul.master = m then installMaster s2 m else { s2 with rul.pendMaster := some m }

/-! ### The boundary (R28, R29, R35, R40, R41) -/

/-- The list, period and correction that wait for a boundary take effect; a changed nominal period ends CADENCE_IN (R33, R36). -/
def applyPending (s : State) : State :=
  let r := s.rul
  let nominal0 := r.nominal
  let r1 := match r.pendSources with
    | some (l, n, lim, el) => { r with prefs := l, nominal := n, period := n, limit := lim, eligible := el, pendSources := none }
    | none => r
  let r2 := match r.pendPeriod with
    | some p => { r1 with nominal := p, period := p, pendPeriod := none }
    | none => r1
  let r3 := match r.pendCorr with
    | some c => { r2 with corr := c, pendCorr := none }
    | none => r2
  if r3.nominal = nominal0 then { s with rul := r3 }
  else
    let wasValid := r.cad.valid
    let s1 := { s with rul := { r3 with cad := { r3.cad with valid := false, count := 0, refEdge := none, periods := [], rejectAges := [] } } }
    if wasValid && r.source == .cadenceIn && r.holdover.isNone then setHoldover s1 5 (r3.nominal * 65536) else s1

/-- TTL of PARKED requests: loaded at the first boundary, then counted down (R275), not during a restore (R276); 0 never expires. Not in
the Cap state (R416). -/
def tickTtl (r : Req) : Req :=
  if r.restoring then r
  else if r.ttlPend then { r with ttl := r.pauseTtl, ttlPend := false, ttlRun := r.pauseTtl != 0 }
  else if r.ttlRun ∧ r.ttl > 0 then { r with ttl := r.ttl - 1 } else r

/-- The sources to which a device in holdover may return before its limit expires: those that the list in force puts before the lost one,
and the lost one itself (R34). -/
def earlier (s : State) (lost : Src) : List Src :=
  if s.rul.prefs.contains lost then s.rul.prefs.takeWhile (· != lost) ++ [lost] else s.rul.prefs

/-- The source to which the device would switch at that source's first boundary, if to any (R32, R34). A follower switches to none of its
list. -/
def switchTarget (s : State) : Option Src :=
  if s.rul.follower then none
  else
    match s.rul.holdover with
    | some h => (earlier s h.lost).find? (validSrc s)
    | none => let d := firstValid s; if d ≠ s.rul.source then some d else none

/-- The generator source that takes over at this boundary, if one does (R32, R34). -/
def genTarget (s : State) : Option Src :=
  match switchTarget s with
  | some c => if isGen c then some c else none
  | none => none

/-- The device elected takes over at a boundary that its own source gives: not in holdover from another master's markers (R46). -/
def takeOver (s : State) : State :=
  match s.rul.pendMaster with
  | some m => if m = ownIndex s ∧ s.rul.source ≠ .rulingMaster then installMaster s m else s
  | none => s

/-- What the new line's stamp is, by how much it departs from the old numbering, and the cause named (R29, R30, R41). A phase step adds
its error to a line that RULING_LOAD sets at the same boundary (log 18). A jump under R35 is named after a new master where one takes over
with it. -/
def boundaryStamp (s : State) (jump : Option Nat) : Nat × Int × Option Nat :=
  let old := ((s.rul.line.toNat + 1) % 2 ^ 48) * 65536
  let base : Nat := match s.rul.pendLoad with | some l => l.toNat * 65536 | none => old
  let new : Nat := match s.rul.pendStep with | some e => (clampInt 0 (2 ^ 64 - 1) (base + e)).toNat | none => base
  let S : Int := (new : Int) - old + (match jump with | some d => (d : Int) | none => 0)
  (new, S, if s.rul.pendLoad.isSome then some 0 else if s.rul.pendStep.isSome then some 1
           else if jump.isSome then some (if s.rul.pendMaster.isSome then 2 else 4) else none)

/-- The counter at a boundary that falls at the present instant: the new stamp, what the line before measured, the slew of the new line, and
the lines of a holdover and of a discipline counted. -/
def turnLine (s : State) (stampNew : Nat) : State :=
  let adj : Int := if s.rul.source = .disciplined then clampInt (-4096) 4096 s.rul.slew else 0
  let cad := { s.rul.cad with lineRejects := 0, firstInterval := 0,
                              rejectAges := (s.rul.cad.rejectAges.map (· + 1)).filter (fun n => decide (n < 64)) }
  let gens : Bool := s.rul.holdover.isNone && s.rul.source == .disciplined
  let hold := s.rul.holdover.map (fun h => { h with remaining := h.remaining - 1, base := h.base + linePeriod s })
  let s1 := { s with
    rul.line := BitVec.ofNat 48 (stampNew / 65536), rul.tick := BitVec.ofNat 16 (stampNew % 65536)
    rul.measured := (s.time - s.rul.boundaryAt) / 65536
    rul.holdover := hold
    rul.adj := adj, rul.slew := if s.rul.pendStep.isSome then 0 else s.rul.slew - adj
    rul.genRem := if gens then correctedRem s.rul else 0
    rul.cad := cad
    rul.pendLoad := none, rul.pendStep := none, rul.discLines := s.rul.discLines + 1 }
  { s1 with rul.boundaryAt := s.time - (stampNew % 65536) * linePeriod s1 / 65536 }

/-- A line begins at the present instant, which the counter stamps `stampNew`: an epoch is entered with its step and cause, what waits for
the boundary takes effect, and `new` takes over as source. -/
def beginLine (s : State) (stampNew : Nat) (new : Option Src) (epoch : Option (BitVec 32 × Int × Nat)) : State :=
  let rejects := s.rul.cad.lineRejects
  let interval := s.rul.cad.firstInterval
  let s1 := turnLine s stampNew
  let s2 := match epoch with | some (e, S, c) => enterEpoch s1 e S c | none => s1
  let s3 := applyPending s2
  let s4 := match new with
    | some c => switchTo s3 c
    | none => match genTarget s3 with | some c => switchTo s3 c | none => s3
  let s5 := if rejects = 0 then s4 else post s4 0x0204 0xFF (leBytes 2 (min rejects 65535) ++ [0, 0] ++ leBytes 4 interval) true
  let s6 := { s5 with
    srv.reqs := if s5.ink.state = stCapped then s5.srv.reqs else s5.srv.reqs.map (fun (k, r) => (k, tickTtl r))
    stp.comps := s5.stp.comps.map (fun (k, c) => (k, dueCheck (stamp s5) { c with atBoundary := false }))
    rul.contrary := if s5.duc.group.isSome ∧ elect s5 ≠ coming s5 then s5.rul.contrary + 1 else 0 }
  advertise (prog (takeOver s6) 0xB000 1 none none 1)

/-- A line begins at the present instant. `new` is a source that takes over with it; `jump` is 65,536 - t where numbering is not
continuous (R35). The ruling master sends its markers (R369). -/
def giveBoundary (s : State) (new : Option Src) (jump : Option Nat) : State :=
  let (stampNew, S, cause) := boundaryStamp s jump
  let s1 := beginLine s stampNew new (cause.map (fun c => (nextEpoch s, S, c)))
  if s1.duc.group.isSome ∧ s1.rul.master = ownIndex s1 then
    sendMarkers s1 none 0 s1.rul.line.toNat s1.rul.epoch.toNat s1.rul.master
  else s1

/-- Boundaries whose instant has passed are given at once, one after the other (R34). -/
def giveDue : Nat → State → State
  | 0, s => s
  | fuel + 1, s => if nextInstant s ≤ s.time then giveDue fuel (giveBoundary s none none) else s

/-- At least as many boundaries as can be due. -/
def dueCount (s : State) : Nat := (s.time - s.rul.boundaryAt) / linePeriod s + 1

/-- A boundary within 64 ticks of the one the old source would give keeps numbering continuous (R35). -/
def continuous (s : State) : Bool :=
  let d : Int := (s.time : Int) - nextInstant s
  decide (d.natAbs ≤ 64 * periodNow s)

/-- The first boundary of a new source (R34, R35). One that falls within 64 ticks after a boundary just given opens no further line. -/
def switchBoundary (s : State) (new : Src) : State :=
  if continuous s then giveBoundary s (some new) none
  else if s.time - s.rul.boundaryAt ≤ 64 * periodNow s then takeOver (switchTo { s with rul.boundaryAt := s.time } new)
  else giveBoundary s (some new) (some (65536 - s.rul.tick.toNat))

/-- The source in force is lost: holdover begins, and the boundaries already due are given at once (R34). -/
def loseSource (s : State) (lost : Src) (cause : Nat) : State :=
  if s.rul.source = lost ∧ s.rul.holdover = none then
    let s1 := setHoldover s cause (if lost = .disciplined then correctedPeriod s.rul else linePeriod s)
    giveDue (dueCount s1) s1
  else s

/-- CADENCE_IN becomes invalid: no reference edge is left (R33, R36). -/
def dropCadence (s : State) (cause : Nat) : State :=
  let valid := s.rul.cad.valid
  let p := linePeriod s
  let s1 := { s with rul.cad := { s.rul.cad with valid := false, count := 0, refEdge := none, rejectAges := [] } }
  if valid && s.rul.source == .cadenceIn && s.rul.holdover.isNone then
    let s2 := setHoldover { s1 with rul.cad := { s1.rul.cad with periods := [] } } cause p
    advertise (giveDue (dueCount s2) s2)
  else advertise { s1 with rul.cad := { s1.rul.cad with periods := [] } }

/-! ### The rows of events -/

/-- A follower's own counter runs on at the rate slewed to its master, and gives a boundary where the marker's compensated instant is
expected (R31, R47, log 97). -/
def followsMarkers (s : State) : Bool := s.rul.follower && s.rul.source == .rulingMaster

/-- The generator gives the boundary: in holdover, under DISCIPLINED or FREE, at the rate slewed to a master, or as the first boundary of a
generator source that the list prefers (R31, R32, R34). -/
def boundaryDue (s : State) : Bool := s.rul.holdover.isSome || isGen s.rul.source || followsMarkers s || (genTarget s).isSome

def generatorBoundary (s : State) : State :=
  if s.rul.holdover.isSome || isGen s.rul.source || followsMarkers s then giveBoundary (elapseTo s (nextInstant s)) none none
  else match genTarget s with | some c => switchBoundary s c | none => s

/-- LINE_BOUNDARY (R28). A boundary that an edge or a marker gives comes with that row instead (log 8). -/
def execLineBoundary (s : State) : Host.Outcome State Fault Refusal :=
  .next (if boundaryDue s then generatorBoundary s else s)

/-- An accepted edge: the new reference, one of the 8 that make the source valid, and the line it begins (R33, R34, R36). -/
def acceptEdge (s : State) (r : Nat) : State :=
  let cad := s.rul.cad
  let count := cad.count + 1
  let s1 := { s with rul.cad := { cad with refEdge := some s.time, periods := lastN 8 (cad.periods ++ [s.time - r]), count := count,
                                           valid := cad.valid || decide (count ≥ 8) } }
  if s.rul.source = .cadenceIn ∧ s.rul.holdover = none then giveBoundary s1 none none
  else if s1.rul.cad.valid ∧ !s.rul.follower ∧
      (switchTarget s1 = some .cadenceIn ∨ s.rul.pendSwitch = some .cadenceIn) then switchBoundary s1 .cadenceIn
  else advertise s1

/-- A rejected edge is a glitch; the fourth within 64 lines makes a valid source invalid (R33, R36). -/
def rejectEdge (s : State) (r : Nat) : State :=
  let cad := s.rul.cad
  let ages := cad.rejectAges ++ [0]
  let g : BitVec 16 := if s.rul.glitches = 0xFFFF#16 then s.rul.glitches else s.rul.glitches + 1
  let cad1 := { cad with lineRejects := cad.lineRejects + 1, rejectAges := ages,
                         firstInterval := if cad.lineRejects = 0 then (s.time - r) / 65536 else cad.firstInterval }
  let s1 := prog { s with rul.glitches := g, rul.cad := cad1 } 0xB000 2 none none 1
  if cad.valid then (if ages.length ≥ 4 then dropCadence s1 1 else s1)
  else { s1 with rul.cad := { cad1 with count := 0, refEdge := none } }

/-- The next edge is the reference; it counts as the first accepted one and begins no line (R36). -/
def referenceEdge (s : State) : State := { s with rul.cad := { s.rul.cad with refEdge := some s.time, count := 1 } }

/-- CADENCE_EDGE (R36): a rising edge `ns` after the present instant. -/
def execCadenceEdge (ns : Nat) (s0 : State) : Host.Outcome State Fault Refusal :=
  let s := elapseTo s0 (s0.time + ns * 65536)
  .next (
    if !pairCadence s then s
    else
      match s.rul.cad.refEdge with
      | none => referenceEdge s
      | some r =>
        let d := s.time - r
        let n := s.rul.nominal * 65536
        if 4 * d < 3 * n then rejectEdge s r
        else if 4 * d ≤ 5 * n then acceptEdge s r
        else referenceEdge (dropCadence s 0))

/-- CADENCE_EDGE_MISSING (R33, R36): 1.25 nominal periods after the reference edge. -/
def execCadenceEdgeMissing (s : State) : Host.Outcome State Fault Refusal :=
  .next (
    match s.rul.cad.refEdge with
    | some r => if pairCadence s then dropCadence (elapseTo s (r + s.rul.nominal * 65536 * 5 / 4)) 0 else s
    | none => s)

/-- The next valid source after a lost one (R34). -/
def afterLost (s : State) (lost : Src) : Src :=
  let rest := if s.rul.prefs.contains lost then (s.rul.prefs.dropWhile (· != lost)).drop 1 else s.rul.prefs
  (rest.find? (validSrc s)).getD .free

/-- The election over the members still reached, the lost master not among them (R46). -/
def reelect (s : State) : State :=
  let s1 := { s with duc.adverts := mdel s.duc.adverts (coming s) }
  takeMaster s1 (elect s1)

/-- A source that takes over when holdover ends: a generator at once, any other at its first boundary (R34). -/
def leaveHoldover (s : State) (lost : Src) : State :=
  let c := afterLost s lost
  if isGen c then switchTo s c else { s with rul.pendSwitch := some c }

/-- HOLDOVER_EXPIRE (R34, R46). A follower has lost its master; on the master itself the source has been invalid for the limit, and the
group elects again. -/
def execHoldoverExpire (s : State) : Host.Outcome State Fault Refusal :=
  .next (
    match s.rul.holdover with
    | some h =>
      if h.remaining ≠ 0 then s
      else if s.rul.follower then reelect s
      else
        let s1 := leaveHoldover s h.lost
        if s.duc.group.isSome ∧ s.rul.master = ownIndex s ∧ elect s1 ≠ s.rul.master then takeMaster s1 (elect s1) else s1
    | none => s)

/-- Two nominal periods after the last marker: RULING_MASTER is invalid, and the lock is lost (R33, R53). -/
def loseMarkers (s0 : State) : State :=
  let s := elapseTo s0 (s0.rul.markerAt + 2 * s0.rul.nominal * 65536)
  let s1 := loseSource { s with rul.markerValid := false, rul.locked := false, rul.slewing := false } .rulingMaster 2
  if s.rul.locked then postSource s1 s1.rul.source 3 else s1

/-- MARKER_LOSS (R33): it comes 2 nominal periods after the last accepted marker. -/
def execMarkerLoss (s : State) : Host.Outcome State Fault Refusal :=
  .next (if s.rul.markerValid || (followsMarkers s && s.rul.holdover.isNone) then loseMarkers s else s)

/-- DISCIPLINE_STALE (R33): no RULING_DISCIPLINE accepted for the holdover limit. -/
def execDisciplineStale (s : State) : Host.Outcome State Fault Refusal :=
  .next (if s.rul.discValid ∧ s.rul.discLines ≥ s.rul.limit then advertise (loseSource { s with rul.discValid := false } .disciplined 3) else s)

/-- The master is lost for a follower whose holdover from its markers has run out (R34, R46). -/
def masterLost (s : State) : Bool :=
  s.rul.follower && (match s.rul.holdover with | some h => h.lost == .rulingMaster && h.remaining == 0 | none => false)

/-- ELECTION (R46): at the group's formation, when no master is known; after 8 lines of contrary adverts; or when the master is lost. -/
def execElection (s : State) : Host.Outcome State Fault Refusal :=
  .next (
    if s.duc.group.isNone then s
    else if masterLost s then reelect s
    else if s.rul.contrary ≥ 8 ∨ s.rul.master = 0xFFFF then takeMaster s (elect s)
    else s)

/-- TRIGGER_EDGE (R39): an edge `ns` after the present instant. -/
def execTriggerEdge (rising : Bool) (ns : Nat) (s0 : State) : Host.Outcome State Fault Refusal :=
  let s := elapseTo s0 (s0.time + ns * 65536)
  .next (
    match s.rul.trig.config with
    | some (onRise, onFall, posts, tally, hold) =>
      if !pairTrigger s || !(if rising then onRise else onFall) then s
      else
        let g := s.rul.trig
        let early := match g.lastAt with | some t => decide (s.time < t + hold * 65536) | none => false
        if early then
          { s with rul.trig := { g with ignored := if g.ignored = BitVec.allOnes 32 then g.ignored else g.ignored + 1,
                                        ignoredSince := g.ignoredSince + 1 } }
        else
          let s1 := { s with rul.trig := { g with lastAt := some s.time, lastStamp := stamp s, taken := g.taken + 1,
                                                  ignoredSince := if posts then 0 else g.ignoredSince } }
          let s2 := if tally = 0xFFFF then s1 else tallySignalAs s1 tally 1 false 0xB000 none
          if posts then
            post s2 0x0206 0xFF ([BitVec.ofNat 8 (b2n (!rising)), 0, 0, 0] ++ leBytes 4 (g.taken + 1).toNat ++ leBytes 4 g.ignoredSince.toNat) true
          else s2
    | none => s)

/-- ALARM_FIRE (R30, R53): every alarm whose stamp is reached posts RULING_ALARM, in order of stamp. -/
def execAlarmFire (s : State) : Host.Outcome State Fault Refusal :=
  let due := sortBy (fun a b => a.stamp.toNat < b.stamp.toNat) (s.rul.alarms.filter (fun a => decide (a.stamp.toNat ≤ (stamp s).toNat)))
  .next (due.foldl (fun s a => postAt s a.stamp 0x0205 0xFF (leBytes 4 a.cookie.toNat ++ zeros 4 ++ leBytes 8 a.asked.toNat) false)
    { s with rul.alarms := s.rul.alarms.filter (fun a => !decide (a.stamp.toNat ≤ (stamp s).toNat)) })

/-! ### Commands (R49, R50) -/

/-- The status record (R52). -/
def rulingRecord (s : State) : List Byte :=
  let r := s.rul
  padTo 64 (leBytes 8 (stamp s).toNat ++ leBytes 4 r.epoch.toNat ++ [BitVec.ofNat 8 (srcCode r.source), BitVec.ofNat 8 (rulState s)] ++
    leBytes 2 (if s.duc.group.isSome then r.master else 0xFFFF) ++ leBytes 4 r.period ++ leBytes 4 r.measured ++
    leBytes 2 (offset16 s) ++ leBytes 2 r.glitches.toNat ++ leBytes 4 (match r.holdover with | some h => h.remaining | none => 0) ++
    leBytes 8 r.trig.lastStamp.toNat ++ leBytes 4 r.trig.taken.toNat ++ leBytes 4 r.trig.ignored.toNat)

def execRulingStatus (c : Cmd) (s : State) : Host.Outcome State Fault Refusal :=
  .next (firmware { op := 0x0201, need := 8 } (fun c s => reportTo (p64 c 0) (rulingRecord s) [] s) c s)

/-- The preference list of four bytes, 0xFF ending it; none for an unknown or repeated code (R50). -/
def parsePrefs : List Nat → List Src → Option (List Src)
  | [], acc => some acc.reverse
  | 0xFF :: _, acc => some acc.reverse
  | n :: r, acc =>
    match srcOf? n with
    | some c => if acc.contains c then none else parsePrefs r (c :: acc)
    | none => none

/-- The list with FREE appended when it omits it (R32). -/
def withFree (l : List Src) : List Src := if l.contains .free then l else l ++ [.free]

def periodOk (p : Nat) : Bool := decide (10000 ≤ p) && decide (p ≤ 1000000000)

/-- RULING_SET_SOURCES sets the period too, in place of one that an earlier RULING_SET_PERIOD left pending (R49). -/
def execRulingSetSources (c : Cmd) (s : State) : Host.Outcome State Fault Refusal :=
  .next (firmware { op := 0x0202, need := 11 } (fun c s =>
    match parsePrefs [p8 c 0, p8 c 1, p8 c 2, p8 c 3] [] with
    | none => .done St.sourceInvalid [] s
    | some l =>
      checked [(!periodOk (p32 c 4), St.periodRange), (p16 c 8 == 0 || decide (p8 c 10 ≥ 2), St.invalidField)] s
        (.done St.ok [] { s with rul.pendSources := some (withFree l, p32 c 4, p16 c 8, bit (p8 c 10) 0), rul.pendPeriod := none })) c s)

def execRulingSetPeriod (c : Cmd) (s : State) : Host.Outcome State Fault Refusal :=
  .next (firmware { op := 0x0203, need := 4 } (fun c s =>
    checked [(!periodOk (p32 c 0), St.periodRange)] s (.done St.ok [] { s with rul.pendPeriod := some (p32 c 0) })) c s)

/-- An expected epoch of 0 matches any (R50). -/
def epochStale (s : State) (e : Nat) : Bool := e != 0 && e != s.rul.epoch.toNat

def signed32 (n : Nat) : Int := (BitVec.ofNat 32 n).toInt

/-- The share of the line's slew that has been applied by the present tick; what is left of it is abandoned with the phase error that it
served (R41). -/
def appliedSlew (r : Ruling) : Int := Int.tdiv (r.adj * r.tick.toNat) 65536

def execRulingDiscipline (c : Cmd) (s : State) : Host.Outcome State Fault Refusal :=
  .next (firmware { op := 0x0204, need := 20 } (fun c s =>
    let corr := signed32 (p32 c 8)
    let isStep := bit (p8 c 12) 0
    let err : Int := (p64 c 0 : Int) - c.stamp.toNat
    checked [(s.rul.follower, St.notMaster), (epochStale s (p32 c 16), St.epochStale),
             (decide (corr.natAbs > 500000) || (!isStep && decide (err.natAbs > 65536)), St.disciplineRange)] s
      (.done St.ok [] (advertise { s with
        rul.pendCorr := some corr, rul.discValid := true, rul.discLines := 0, rul.adj := appliedSlew s.rul
        rul.slew := if isStep then 0 else err, rul.pendStep := if isStep then some err else none }))) c s)

def execRulingLoad (c : Cmd) (s : State) : Host.Outcome State Fault Refusal :=
  .next (firmware { op := 0x0205, need := 12 } (fun c s =>
    checked [(s.rul.follower, St.notMaster), (epochStale s (p32 c 8), St.epochStale)] s
      (.done St.ok [] { s with rul.pendLoad := some (BitVec.ofNat 48 (pn c 0 6)) })) c s)

def execRulingAlarm (c : Cmd) (s : State) : Host.Outcome State Fault Refusal :=
  .next (firmware { op := 0x0206, need := 16 } (fun c s =>
    checked [(epochStale s (p32 c 8), St.epochStale), (decide (p64 c 0 ≤ (stamp s).toNat), St.stampPast)] s
      (.done St.ok [] { s with rul.alarms := s.rul.alarms ++
        [{ stamp := BitVec.ofNat 64 (p64 c 0), asked := BitVec.ofNat 64 (p64 c 0), cookie := BitVec.ofNat 32 (p32 c 12) }] })) c s)

/-- RULING_TRIGGER_SET (R39). A Reserved bit set in byte 0 is refused with INVALID_FIELD, which R39 does not list (DESIGN CHOICE, log 98). -/
def execRulingTriggerSet (c : Cmd) (s : State) : Host.Outcome State Fault Refusal :=
  .next (firmware { op := 0x0207, need := 8 } (fun c s =>
    let f := p8 c 0
    checked [(!holds s pinPair 2 c.fn, St.notClaimed),
             (f % 4 == 0 || decide (f ≥ 8) || decide (p32 c 4 < 1000) || decide (p32 c 4 > 1000000000) ||
               (p16 c 2 != 0xFFFF && decide (p16 c 2 ≥ 16384)), St.invalidField)] s
      (.done St.ok [] { s with rul.trig := { s.rul.trig with config := some (bit f 0, bit f 1, bit f 2, p16 c 2, p32 c 4) } })) c s)

end Sys2Proof.Machine
end

