-- ==== Sys2Proof/Machine/Concord.lean ====
section
/-! DEFINITION. The concord record (R363): what this device sends, what a peer's says, and the checks on it (R364). -/
namespace Sys2Proof.Machine

/-- Whether the licence enables link encryption (R6, R407). -/
def encLicensed (s : State) : Bool := (licenceLimit s 3).isSome

/-- Quadrant masks of the partitions, partition 0 lowest. -/
def partMasks (s : State) : Nat := (List.range 4).foldl (fun m p => m + (partOf s p).mask.toNat * 16 ^ p) 0

/-- This device's record for a link (R363). -/
def ownConcord (s : State) (l : Nat) : ConcordRec :=
  let x := linkOf s l
  { flags := BitVec.ofNat 8 (b2n x.enc + 2 * b2n (!(liveLinks s).isEmpty) + 4 * b2n (ownValid s) + 8 * b2n s.rul.eligible +
      16 * b2n x.cfg.encReq + 32 * b2n (encLicensed s)),
    index := groupIndex s, group := match s.duc.group with | some g => g.id | none => 0,
    fw := s.ink.fwMajor.toNat + 256 * s.ink.fwMinor.toNat, layer := 1, epoch := s.rul.pendEpoch.getD s.rul.epoch,
    master := if s.duc.group.isSome then coming s else 0xFFFF,
    members := match s.duc.group with | some g => g.members.length | none => 0, masks := BitVec.ofNat 16 (partMasks s),
    hash := match s.duc.group with | some g => g.hash | none => zeros 32 }

def concordBytes (r : ConcordRec) : List Byte :=
  [1, r.flags] ++ leBytes 2 r.index ++ leBytes 4 r.group ++ leBytes 2 r.fw ++ leBytes 2 r.layer ++ leBytes 4 r.epoch.toNat ++
    leBytes 2 r.master ++ leBytes 2 r.members ++ leBytes 2 r.masks.toNat ++ zeros 10 ++ padTo 32 r.hash

/-- A received record; one of another version agrees with no firmware. -/
def parseConcord (b : List Byte) : ConcordRec :=
  { flags := BitVec.ofNat 8 (fieldN b 1 1), index := fieldN b 2 2, group := fieldN b 4 4,
    fw := if fieldN b 0 1 = 1 then fieldN b 8 2 else 0x10000, layer := fieldN b 10 2, epoch := BitVec.ofNat 32 (fieldN b 12 4),
    master := fieldN b 16 2, members := fieldN b 18 2, masks := BitVec.ofNat 16 (fieldN b 20 2), hash := slice b 32 32 }

/-- The record sent on a link, with or without the update flag (R363). -/
def sendConcord (s : State) (l : Nat) (update : Bool) : State :=
  sendOn s l (ownMsg s 0x25 0 0 0 [BitVec.ofNat 8 (b2n update)] none [concordBytes (ownConcord s l)] 0)

/-- The update that follows PART_CONFIG and GROUP_CONFIG on every LIVE link (R363). -/
def concordUpdate (s : State) : State := (liveLinks s).foldl (fun s l => sendConcord s l true) s

def recJoined (r : ConcordRec) : Bool := r.flags.getLsbD 1
def recEncReq (r : ConcordRec) : Bool := r.flags.getLsbD 4
def recEncLic (r : ConcordRec) : Bool := r.flags.getLsbD 5

/-- The reason of the first check that fails (R364, R381). -/
def concordFails (s : State) (l : Nat) (r : ConcordRec) : Option Nat :=
  let o := ownConcord s l
  firstFail
    [ (o.index == 0xFFFF || r.index == 0xFFFF || o.group == 0 || r.group == 0, 0x10), (o.fw != r.fw || o.layer != r.layer, 0x11),
      (o.group != r.group, 0x12), (o.hash != r.hash, 0x13),
      ((match s.duc.group with | some g => !g.members.contains r.index | none => true) || r.index == o.index, 0x14),
      (o.masks != r.masks, 0x15), ((recEncReq o || recEncReq r) && !(recEncLic o && recEncLic r), 0x16),
      (recJoined o && recJoined r && (o.epoch != r.epoch || o.master != r.master), 0x17) ]

/-- Whether a record is that of another member of this device's group (R364, R370). -/
def ofGroup (s : State) (r : ConcordRec) : Bool :=
  match s.duc.group with | some g => r.group == g.id && g.members.contains r.index && r.index != g.index | none => false

/-- What the record of a member says of it for the election (R45); a device of no group or another one is no candidate. -/
def noteRecord (s : State) (r : ConcordRec) : State :=
  if !ofGroup s r then s
  else
    let q := match mfind s.duc.adverts r.index with | some a => a.seq | none => none
    { s with duc.adverts := mput s.duc.adverts r.index { valid := r.flags.getLsbD 2, eligible := r.flags.getLsbD 3, seq := q } }

end Sys2Proof.Machine
end

