-- ==== Sys2Proof/Machine/Float.lean ====
section
/-! DEFINITION. Floating-point arithmetic: exact values, one rounding to nearest even (R165), and the functions of R193, R221,
R222 and R443. -/
namespace Sys2Proof.Machine

/-- A decoded value: (-1)^neg * m * 2^e when finite. -/
inductive FVal where
  | nan
  | inf (neg : Bool)
  | fin (neg : Bool) (m : Nat) (e : Int)
deriving DecidableEq, Repr

/-- How a format spends its top exponent: as IEEE does, as E4M3 (one NaN, no infinity), or on finite values. -/
inductive FKind where
  | ieee | e4m3 | finite
deriving DecidableEq, Repr

structure FFormat where
  ebits : Nat
  mbits : Nat
  bias : Int
  kind : FKind
deriving DecidableEq, Repr

def fp32 : FFormat := ⟨8, 23, 127, .ieee⟩
def fp64 : FFormat := ⟨11, 52, 1023, .ieee⟩
def bf16 : FFormat := ⟨8, 7, 127, .ieee⟩
def fp16 : FFormat := ⟨5, 10, 15, .ieee⟩
def e4m3 : FFormat := ⟨4, 3, 7, .e4m3⟩
def e5m2 : FFormat := ⟨5, 2, 15, .ieee⟩
def e2m1 : FFormat := ⟨2, 1, 1, .finite⟩
def e2m3 : FFormat := ⟨2, 3, 1, .finite⟩
def e3m2 : FFormat := ⟨3, 2, 3, .finite⟩

def FFormat.width (f : FFormat) : Nat := 1 + f.ebits + f.mbits

/-- The exponent of the unit in the last place of subnormals. -/
def FFormat.qmin (f : FFormat) : Int := 1 - f.bias - f.mbits

/-- The encoding of infinity, or one above the greatest finite magnitude where there is none. -/
def FFormat.top (f : FFormat) : Nat :=
  match f.kind with
  | .ieee => (2 ^ f.ebits - 1) * 2 ^ f.mbits
  | .e4m3 => 2 ^ (f.ebits + f.mbits) - 1
  | .finite => 2 ^ (f.ebits + f.mbits)

/-- The canonical NaN of R165 and R193. -/
def FFormat.nan (f : FFormat) : Nat :=
  match f.kind with
  | .ieee => if f.ebits = 5 ∧ f.mbits = 2 then 0x7F else f.top + 2 ^ (f.mbits - 1)
  | _ => 2 ^ (f.ebits + f.mbits) - 1

def fdecode (f : FFormat) (v : Nat) : FVal :=
  let neg := bit v (f.ebits + f.mbits)
  let mag := v % 2 ^ (f.ebits + f.mbits)
  if mag ≥ f.top then
    if f.kind = .ieee ∧ mag = f.top then .inf neg else .nan
  else
    let ex := mag / 2 ^ f.mbits
    let m := mag % 2 ^ f.mbits
    if ex = 0 then .fin neg m f.qmin else .fin neg (m + 2 ^ f.mbits) (f.qmin + ex - 1)

def bitLen (m : Nat) : Nat := if m = 0 then 0 else Nat.log2 m + 1

/-- m * 2^(-n), rounded to nearest, ties to even; `sticky` says that a non-zero rest lies below `m`. -/
def shiftRound (m n : Nat) (sticky : Bool) : Nat :=
  let q := m >>> n
  let rest := m % 2 ^ n
  let half := 2 ^ n / 2
  if n = 0 then q
  else if rest > half ∨ (rest = half ∧ (sticky ∨ q % 2 = 1)) then q + 1 else q

/-- The magnitude bits of m * 2^e in a format, rounded once; values at or above `top` have overflowed. -/
def froundMag (f : FFormat) (m : Nat) (e : Int) (sticky : Bool) : Nat :=
  if m = 0 then 0
  else
    let top : Int := e + bitLen m - 1
    let q : Int := max (top - f.mbits) f.qmin
    let r := if q ≤ e then m <<< (e - q).toNat else shiftRound m (q - e).toNat sticky
    (q - f.qmin).toNat * 2 ^ f.mbits + r

/-- What a finite overflow becomes: infinity of R165, or the greatest finite value of convert_out (R193). -/
def fencode (f : FFormat) (saturate : Bool) : FVal → Nat
  | .nan => f.nan
  | .inf neg =>
    let s := b2n neg * 2 ^ (f.ebits + f.mbits)
    if f.kind = .ieee then s + f.top else s + f.top - 1
  | .fin neg m e =>
    let s := b2n neg * 2 ^ (f.ebits + f.mbits)
    let r := froundMag f m e false
    if r ≥ f.top then (if saturate ∨ f.kind ≠ .ieee then s + f.top - 1 else s + f.top) else s + r

/-- The value with a rest below it (division, roots), rounded to FP32. -/
def fencodeSticky (f : FFormat) (neg : Bool) (m : Nat) (e : Int) (sticky : Bool) : Nat :=
  let s := b2n neg * 2 ^ (f.ebits + f.mbits)
  let r := froundMag f m e sticky
  if r ≥ f.top then s + f.top else s + r

/-- A signed magnitude as an integer at exponent `e`. -/
def finAt (neg : Bool) (m : Nat) (e tgt : Int) : Int :=
  let v : Int := (m <<< (e - tgt).toNat : Nat)
  if neg then -v else v

/-- The exact sum; an exact zero is negative only when both terms are (round to nearest). -/
def fvAdd : FVal → FVal → FVal
  | .nan, _ => .nan
  | _, .nan => .nan
  | .inf a, .inf b => if a = b then .inf a else .nan
  | .inf a, _ => .inf a
  | _, .inf b => .inf b
  | .fin na ma ea, .fin nb mb eb =>
    let e := min ea eb
    let v := finAt na ma ea e + finAt nb mb eb e
    if v = 0 then .fin ((na && nb) && (ma == 0 && mb == 0)) 0 e else .fin (v < 0) v.natAbs e

def fvMul : FVal → FVal → FVal
  | .nan, _ => .nan
  | _, .nan => .nan
  | .inf a, .inf b => .inf (a != b)
  | .inf a, .fin b m _ => if m = 0 then .nan else .inf (a != b)
  | .fin a m _, .inf b => if m = 0 then .nan else .inf (a != b)
  | .fin a m e, .fin b n g => .fin (a != b) (m * n) (e + g)

def fvNeg : FVal → FVal
  | .nan => .nan
  | .inf a => .inf !a
  | .fin a m e => .fin (!a) m e

/-! ### Operations rounded once to a format (R165) -/

def fadd (f : FFormat) (a b : Nat) : Nat := fencode f false (fvAdd (fdecode f a) (fdecode f b))
def fsub (f : FFormat) (a b : Nat) : Nat := fencode f false (fvAdd (fdecode f a) (fvNeg (fdecode f b)))
def fmul (f : FFormat) (a b : Nat) : Nat := fencode f false (fvMul (fdecode f a) (fdecode f b))

/-- fma(a, b, c) = a * b + c with one rounding. -/
def ffma (f : FFormat) (a b c : Nat) : Nat :=
  fencode f false (fvAdd (fvMul (fdecode f a) (fdecode f b)) (fdecode f c))

/-- a / b, rounded once. -/
def fdiv (f : FFormat) (a b : Nat) : Nat :=
  match fdecode f a, fdecode f b with
  | .nan, _ => f.nan
  | _, .nan => f.nan
  | .inf _, .inf _ => f.nan
  | .inf x, .fin y _ _ => fencode f false (.inf (x != y))
  | .fin x _ _, .inf y => fencode f false (.fin (x != y) 0 0)
  | .fin x m e, .fin y n g =>
    if n = 0 then (if m = 0 then f.nan else fencode f false (.inf (x != y)))
    else
      let k := 2 * f.mbits + 8 + bitLen n
      let num := m <<< k
      fencodeSticky f (x != y) (num / n) (e - g - k) (num % n ≠ 0)

/-- A number that orders non-NaN encodings, with -0.0 below +0.0. -/
def forder (f : FFormat) (v : Nat) : Int :=
  let mag : Int := (v % 2 ^ (f.ebits + f.mbits) : Nat)
  if bit v (f.ebits + f.mbits) then -1 - mag else mag

def isNaN (f : FFormat) (v : Nat) : Bool := fdecode f v == .nan

/-- FMIN32 and FMAX32 of R165. -/
def fmin (f : FFormat) (a b : Nat) : Nat :=
  if isNaN f a || isNaN f b then f.nan else if forder f a ≤ forder f b then a else b
def fmax (f : FFormat) (a b : Nat) : Nat :=
  if isNaN f a || isNaN f b then f.nan else if forder f a ≥ forder f b then a else b

/-- Numeric comparison a < b of non-NaN values, in which the two zeros are equal. -/
def flt (f : FFormat) (a b : Nat) : Bool :=
  if isNaN f a || isNaN f b then false
  else
    let z (v : Nat) : Int := if v % 2 ^ (f.ebits + f.mbits) = 0 then 0 else forder f v
    z a < z b

/-- Conversion between formats, rounded once. `saturate` is the finite overflow of convert_out (R193). -/
def fconvert (src dst : FFormat) (saturate : Bool) (v : Nat) : Nat := fencode dst saturate (fdecode src v)

/-- convert_out of R193 and the FP8 conversions of R221: FP8 saturates finite overflow, the others go to infinity. -/
def convertOut (dst : FFormat) (v : Nat) : Nat :=
  fconvert fp32 dst (dst == e4m3 || dst == e5m2) v

/-- An integer as FP32, rounded once. -/
def fofNat (f : FFormat) (n : Nat) : Nat := fencode f false (.fin false n 0)

/-! ### The correctly rounded functions of R221 -/

def frcp (a : Nat) : Nat := fdiv fp32 0x3F800000 a

/-- Integer square root by bits. -/
def isqrtGo (v : Nat) : Nat → Nat → Nat
  | 0, r => r
  | fuel + 1, r => let c := r + 2 ^ fuel; isqrtGo v fuel (if c * c ≤ v then c else r)

def isqrt (v : Nat) : Nat := isqrtGo v (bitLen v / 2 + 1) 0

/-- 1/sqrt(a): floor(sqrt(2^(2k) / m)) of the exact quotient, with the rest as sticky. -/
def frsqrt (a : Nat) : Nat :=
  match fdecode fp32 a with
  | .nan => fp32.nan
  | .inf true => fp32.nan
  | .inf false => 0
  | .fin neg m e =>
    if m = 0 then (if neg then 0xFF800000 else 0x7F800000)
    else if neg then fp32.nan
    else
      -- a = m' * 2^(2h), so 1/sqrt(a) = sqrt(1/m') * 2^(-h)
      let odd := e % 2 ≠ 0
      let m' := if odd then 2 * m else m
      let h := (if odd then e - 1 else e) / 2
      let k : Nat := 64
      let num := 2 ^ (2 * k)
      let q := num / m'
      let r := isqrt q
      fencodeSticky fp32 false r (-h - (k : Int)) (!(r * r == q && num % m' == 0))

/-- Fraction bits carried by exp2. -/
def expPrec : Nat := 160

/-- The product of 2^(2^-i) over the set bits of a fraction, most significant first; `root` is 2^(2^-i) at precision `expPrec`. -/
def expGo : Nat → Nat → Nat → Nat → Nat
  | 0, _, _, acc => acc
  | n + 1, fracBits, root, acc =>
    let r := isqrt (root <<< expPrec)
    expGo n fracBits r (if fracBits.testBit n then (acc * r) >>> expPrec else acc)

/-- 2^x for FP32 x, correctly rounded (R221): 160 fraction bits leave no FP32 argument undecided. -/
def fexp2 (a : Nat) : Nat :=
  match fdecode fp32 a with
  | .nan => fp32.nan
  | .inf neg => if neg then 0 else 0x7F800000
  | .fin neg m e =>
    if m = 0 then 0x3F800000
    else if e + bitLen m > 9 then (if neg then 0 else 0x7F800000)
    else if e + bitLen m < -40 then 0x3F800000
    else
      -- x = m * 2^e; n = floor(x), frac in units of 2^-64
      let fx : Int := if e ≥ -64 then (m <<< (e + 64).toNat : Nat) else (m >>> (-64 - e).toNat : Nat)
      let x : Int := if neg then -fx else fx
      let n := Int.fdiv x (2 ^ 64)
      let frac := (x - n * 2 ^ 64).toNat
      let y := expGo 64 frac (2 * 2 ^ expPrec) (2 ^ expPrec)
      fencodeSticky fp32 false y (n - expPrec) (frac ≠ 0)

/-! ### Vector helpers -/

/-- VSUM: lane i with lane i + 32, then 16, 8, 4, 2, 1, each addition rounded (R221). -/
def vsumGo : Nat → List Nat → Nat
  | 0, l => l.getD 0 0
  | n + 1, l =>
    let h := 2 ^ n
    vsumGo n (List.zipWith (fadd fp32) (l.take h) (l.drop h))

def vsumLanes (l : List Nat) : Nat := vsumGo 6 l

/-- Conversion to INT32: to nearest even, saturating, 0 for NaN (R221). -/
def ftoInt32 (v : Nat) : Nat :=
  match fdecode fp32 v with
  | .nan => 0
  | .inf neg => if neg then 0x80000000 else 0x7FFFFFFF
  | .fin neg m e =>
    let r := if e ≥ 0 then (if e > 64 then 2 ^ 64 * m else m <<< e.toNat) else shiftRound m (-e).toNat false
    intBits 32 (clampInt (-2147483648) 2147483647 (if neg then -(r : Int) else r))

/-- The exact value of an E8M0 scale, 2^(s - 127); 0xFF is NaN (R193, R222). -/
def e8m0 (s : Nat) : FVal := if s = 0xFF then .nan else .fin false 1 ((s : Int) - 127)

end Sys2Proof.Machine
end

