-- ==== Sys2Proof/Machine/Inkwell.lean ====
section
/-! DEFINITION. Inkwell (spec/03): the register block, rings, doorbells and interrupts of each function, and the admin commands that
touch no other unit: OPCODE_MAP, CLAIM, CLAIM_QUERY, ABORT, EVENT_FILTER, ECHO. -/
namespace Sys2Proof.Machine

/-! ### Faults of register writes (R63, R70) -/

/-- REASON INVALID_FIELD; the manual states no DETAIL for it, which is a free value (log 13). -/
def fieldFault (s : State) (fn : Nat) : State :=
  let (w, s1) := freeWord s
  setFault s1 fn St.invalidField (w.toNat % 2 ^ 15)

/-! ### Registers as host software reads them (R55, R57, R59, R60, R64, R73, R74, R76) -/

def identWord (s : State) (fn : Nat) : Nat :=
  0xB1000000 + s.ink.fwMajor.toNat * 65536 + s.ink.fwMinor.toNat * 256 + s.ink.variant.toNat * 16 + fn

/-- The boot record copy in force: the valid one of higher sequence (R400). -/
def bootNow (s : State) : Boot :=
  let a := s.pwr.boot0
  let b := s.pwr.boot1
  if !b.valid then a else if !a.valid then b else if b.seq > a.seq then b else a

/-- STATE as a function reads it: READY on a VF whose partition is not configured (R90). -/
def stateSeen (s : State) (fn : Nat) : Nat := if fn ≠ 0 ∧ !configured s (fn - 1) then 3 else s.ink.state.toNat

def ringReg (s : State) (fn off : Nat) : Nat :=
  let n := (off - 0x100) / 16
  let r := ringOf s fn n
  if !ringExists s fn n then 0
  else if off % 16 = 0 then r.base.toNat % 2 ^ 32
  else if off % 16 = 4 then r.base.toNat / 2 ^ 32
  else if off % 16 = 8 then b2n r.en + 2 * r.log2 + 64 * r.vector
  else if off % 16 = 12 then r.ptr
  else 0

/-- What an aligned 32-bit read of a function's BAR0 returns, apart from the latch of INKW_STAMP_LO (R55). -/
def regRead (s : State) (fn off : Nat) : Nat :=
  let f := func s fn
  if off = 0x0 then identWord s fn
  else if off = 0x4 then s.ink.ifver.toNat
  else if off = 0x8 then stateSeen s fn + 256 * ((bootNow s).failed % 256) + 65536 * s.ink.seq.toNat
  else if off = 0xC then f.reason.toNat + 65536 * f.detail.toNat + 2 ^ 31 * b2n f.isNew
  else if off = 0x10 then b2n f.en
  else if off = 0x18 then (stamp s).toNat % 2 ^ 32
  else if off = 0x1C then f.stampHi.toNat
  else if off = 0x20 then f.irqStatus.toNat
  else if off = 0x24 then f.irqMask.toNat
  else if off = 0x28 then f.coalCount.toNat + 256 * f.coalTime.toNat
  else if off = 0x2C then f.evtLost.toNat
  else if 0x100 ≤ off ∧ off < 0x200 then ringReg s fn off
  else if fn ≠ 0 then 0
  else if off = 0x2000 then s.ink.conPtr.toNat + 2 ^ 14 * s.ink.conWraps.toNat
  else if 0x4000 ≤ off ∧ off < 0x8000 then leNat ((List.range 4).map (fun i => mget 0 s.ink.con (off - 0x4000 + i)))
  else 0

/-! ### Rings -/

/-- Effect of clearing a submission ring's EN: fetched commands that have not begun complete with ABORTED (R58). -/
def abortRing (s : State) (fn n : Nat) : State := abortFetched s (fun c => c.fn == fn && c.ring == n)

/-- A command's completion entry is still held (R68). -/
def entryHeld (s : State) (n : Nat) (tag : BitVec 16) : Bool := (ringOf s 0 (n + 1)).held.any (fun k => k.sq == n && k.tag == tag)

/-- The ABORT commands whose target's entry has been written complete (R79). -/
def endAborts (s : State) : State :=
  s.ink.running.foldl (fun s r => match r.wait with
    | .abort n tag => if entryHeld s n tag then s else finishWait s (.abort n tag) St.ok [0]
    | _ => s) s

/-- Held entries are written as soon as the ring has room (R68, R76, R469). -/
def drainRing (s : State) (fn n : Nat) : State := if n = 2 then drainEvents s fn else endAborts (drainCompletions s fn n)

def execInkwCtrlEn (fn : Nat) (en : Bool) (s : State) : Host.Outcome State Fault Refusal :=
  .next (
    if en then setFunc s fn { func s fn with en := true }
    else setFunc (abortFetched s (fun c => c.fn == fn)) fn { func (abortFetched s (fun c => c.fn == fn)) fn with en := false })

/-- INKW_STAMP_LO read: its value is the reply, and the upper half is latched (R59). A read of another size returns 0 and is otherwise
ignored (R55). -/
def execStampLoRead (r : RegRead) (s : State) : Host.Outcome State Fault Refusal :=
  let v := (stamp s).toNat
  .next (
    if r.size = 4 then
      { setFunc s r.fn { func s r.fn with stampHi := BitVec.ofNat 32 (v / 2 ^ 32) } with
        mem.reply := some { status := 0, data := leBytes 4 v, poison := false } }
    else { s with mem.reply := some { status := 0, data := zeros r.size, poison := false } })

/-- A write of INKW_RING_CFG_n (R63). -/
def ringCfg (s : State) (fn n : Nat) (v : BitVec 32) : State :=
  let r := ringOf s fn n
  let en := v.getLsbD 0
  let log2 := bits v.toNat 4 1
  let vec := bits v.toNat 11 6
  let bad := decide (log2 < 4) || decide (log2 > 12)
  if !ringExists s fn n then s
  else if r.en then
    if en then
      let s1 := setRing s fn n { r with vector := vec }
      if log2 = r.log2 then s1 else fieldFault s1 fn
    else abortRing (setRing s fn n { r with en := false, vector := vec, log2 := log2 }) fn n
  else if en && bad then fieldFault (setRing s fn n { r with vector := vec, log2 := log2 }) fn
  else if en then
    drainRing (setRing s fn n { r with en := true, vector := vec, log2 := log2, ptr := 0, other := 0, phase := true, stopped := false, refetch := false,
                                        writesHeld := false, pendIrq := 0, oldest := none, stamps := [] }) fn n
  else setRing s fn n { r with vector := vec, log2 := log2 }

def execRingCfgWrite (fn n : Nat) (v : BitVec 32) (s : State) : Host.Outcome State Fault Refusal := .next (ringCfg s fn n v)

/-- Ring indices from `a` up to `b`, around a ring of `size` entries. -/
def indicesTo (size a b : Nat) : List Nat := (List.range ((b + size - a) % size)).map (fun i => (a + i) % size)

/-- A doorbell write (R62, R70). A ring whose entry could not be read reads it again, whatever index is written (R469). -/
def doorbell (s0 : State) (fn n : Nat) (v : BitVec 32) : State :=
  let s := prog s0 0xA000 1 none none 1
  let k := v.toNat % 65536
  let r := ringOf s fn n
  if s.ink.state = stResetting then s
  else if !ringExists s fn n || !r.en || decide (k ≥ ringSize r) then fieldFault s fn
  else if isSubmission n then
    let now := stamp s
    setRing s fn n { r with other := k, stopped := false, refetch := r.stopped || r.refetch,
                            stamps := (indicesTo (ringSize r) r.other k).foldl (fun m i => mput m i now) r.stamps }
  else drainRing (setRing s fn n { r with other := k, writesHeld := false }) fn n

/-- What host software did to its memory (log 5). -/
def hostDid (s : State) (h : HostWrites) : State :=
  { s with host := h.bytes.foldl (fun m e => cellPut hostDflt m e.1 e.2) s.host, hostFaults := s.hostFaults ++ h.faults }

def execSubmissionDoorbell (fn n : Nat) (v : BitVec 32) (host : HostWrites) (s : State) : Host.Outcome State Fault Refusal :=
  .next (doorbell (hostDid s host) fn n v)

def execHeadDoorbell (fn n : Nat) (v : BitVec 32) (s : State) : Host.Outcome State Fault Refusal := .next (doorbell s fn n v)

/-! ### Register writes (R55, R57, R63, R73, R74) -/

/-- Causes that a new mask lets through raise their vectors (R73). -/
def unmask (s : State) (fn : Nat) (m : BitVec 19) : State :=
  let f := func s fn
  let fresh := f.irqStatus &&& f.irqMask &&& ~~~ m
  (bitList 19 fresh.toNat).foldl (fun s k => raise s fn (causeVector f k)) (setFunc s fn { f with irqMask := m })

def ringBase (s : State) (fn n : Nat) (hi : Bool) (v : BitVec 32) : State :=
  let r := ringOf s fn n
  if !ringExists s fn n || r.en then s
  else
    let lo32 := r.base.toNat % 2 ^ 32
    let hi32 := r.base.toNat / 2 ^ 32
    setRing s fn n { r with base := BitVec.ofNat 64 (if hi then v.toNat * 2 ^ 32 + lo32 else hi32 * 2 ^ 32 + v.toNat / 4096 * 4096) }

/-- A changed COUNT is judged against the entries that are already pending (R74). -/
def recount (s : State) (fn : Nat) : State :=
  (func s fn).rings.foldl (fun s e =>
    let r := ringOf s fn e.1
    if r.pendIrq ≠ 0 ∧ (func s fn).coalCount.toNat ≤ r.pendIrq then setCause (setRing s fn e.1 { r with pendIrq := 0, oldest := none }) fn e.1
    else s) s

/-- An aligned 32-bit write of a register other than INKW_CTRL, whose fields are rows of their own. -/
def regWrite (s : State) (fn off : Nat) (v : BitVec 32) : State :=
  let f := func s fn
  if off = 0xC then setFunc s fn { f with isNew := f.isNew && !v.getLsbD 31 }
  else if off = 0x20 then setFunc s fn { f with irqStatus := f.irqStatus &&& ~~~ (v.setWidth 19) }
  else if off = 0x24 then unmask s fn (v.setWidth 19)
  else if off = 0x28 then recount (setFunc s fn { f with coalCount := v.setWidth 8, coalTime := (v >>> 8).setWidth 16 }) fn
  else if 0x100 ≤ off ∧ off < 0x200 then
    let n := (off - 0x100) / 16
    if off % 16 = 0 then ringBase s fn n false v
    else if off % 16 = 4 then ringBase s fn n true v
    else if off % 16 = 8 then ringCfg s fn n v
    else s
  else if 0x1000 ≤ off ∧ off < 0x1080 ∧ off % 8 = 0 then doorbell s fn ((off - 0x1000) / 8) v
  else s

/-- A write of another size or alignment is ignored (R55). -/
def execRegisterWrite (fn offset : Nat) (v : RegWrite) (s : State) : Host.Outcome State Fault Refusal :=
  .next (if v.size = 4 ∧ offset % 4 = 0 then regWrite s fn offset v.value else s)

/-- COALESCE_TIMEOUT: TIME_US have passed since the oldest pending entry (R74, log 8). -/
def execCoalesceTimeout (fn n : Nat) (s : State) : Host.Outcome State Fault Refusal :=
  let r := ringOf s fn n
  let us := (func s fn).coalTime.toNat
  let due : Bool := match r.oldest with | some t => decide (t + us * 1000 * 65536 ≤ s.time) | none => false
  .next (if us ≠ 0 ∧ due = true then setCause (setRing s fn n { r with pendIrq := 0, oldest := none }) fn n else s)

/-! ### Fetching (R65, R69, R72, R468, R469) -/

/-- The last opcode of each range that is implemented; each range starts at 1 (R77, R79). -/
def lastOpcode : Nat → Nat
  | 0x01 => 8 | 0x02 => 7 | 0x03 => 19 | 0x04 => 5 | 0x05 => 9 | 0x06 => 8 | 0x07 => 15 | 0x08 => 10 | 0x09 => 5 | 0x0A => 10
  | 0x0B => 16 | 0x0C => 15 | _ => 0

def implemented (op : Nat) : Bool := decide (1 ≤ op % 256) && decide (op % 256 ≤ lastOpcode (op / 256))

/-- Items 1 to 3 of R468 for an opcode that no row has. -/
def unknownStatus (c : Cmd) : Nat :=
  (firstFail
    [ (decide (c.flags.toNat ≥ 8), St.invalidField),
      (if isExt c then c.len == 0 else decide (c.len > 48), St.invalidLength),
      (isExt c && c.extAddr % 64 != 0, St.badAddress) ]).getD St.invalidOpcode

/-- A fetched entry is rejected for its tag or its opcode, or waits to start (R69, R468). -/
def takeEntry (s0 : State) (e : Sub) : State :=
  let c := e.cmd
  let s := blot s0 0x9000 0x28 (cmdPart c) (e.opcode + c.tag.toNat * 65536 + c.ring * 2 ^ 32 + c.fn * 2 ^ 40)
  if duplicate s c then complete s c St.tagInUse []
  else if implemented e.opcode then { s with ink.fetched := s.ink.fetched ++ [e] }
  else complete s c (unknownStatus c) []

/-- Whether a ring has an entry to fetch: a new one, or one whose read failed (R469). -/
def entryNew (r : Ring) : Bool := r.ptr != r.other || r.refetch

/-- One entry read at the device pointer. A doorbell of the pointer's own index submits nothing beyond the entry that it has read again
(log 25). -/
def fetchOne (s : State) (fn n : Nat) : State :=
  let r := ringOf s fn n
  let a := r.base.toNat + 64 * r.ptr
  let next := (r.ptr + 1) % ringSize r
  if !entryNew r || r.stopped then s
  else if !hostOk s a 64 then setFault (setRing s fn n { r with stopped := true, refetch := false }) fn St.hostFault n
  else
    let e := subOfBytes s fn n (mget 0 r.stamps r.ptr) (hostGet s a 64)
    takeEntry (hostBytesRead (setRing s fn n { r with ptr := next, other := if r.ptr = r.other then next else r.other, refetch := false })
      (64 + e.cmd.good)) e

def fetchGo (fn n : Nat) : Nat → State → State
  | 0, s => s
  | k + 1, s => fetchGo fn n k (fetchOne s fn n)

/-- A ring with entries to fetch. -/
def hasNew (s : State) (fn n : Nat) : Bool := fetchable s fn n && entryNew (ringOf s fn n)

/-- The ring that the round-robin order visits next, as function * 16 + ring (R72): one sweep over the functions in turn, and over the
rings of each (DEDUCED, log 100). -/
def nextVisit (s : State) : Option Nat :=
  ((List.range 80).map (fun i => (s.ink.visited + 1 + i) % 80)).find? (fun k => hasNew s (k / 16) (k % 16))

/-- RING_VISIT: the primary Scribe visits the next ring with new entries and fetches up to 8 (R72). -/
def execRingVisit (fn n : Nat) (s : State) : Host.Outcome State Fault Refusal :=
  .next (if n < 16 ∧ nextVisit s = some (fn * 16 + n) then fetchGo fn n 8 { s with ink.visited := fn * 16 + n } else s)

/-! ### Admin commands (R79, R80, R83, R85, R86) -/

def execOpcodeMap (c : Cmd) (s : State) : Host.Outcome State Fault Refusal :=
  .next (firmware { op := 0x0102, need := 8 } (fun c s =>
    reportTo (p64 c 0)
      (((List.range 12).map (fun i => leBytes 32 (maskOf ((List.range 256).filter (fun k => implemented ((i + 1) * 256 + k)))))).flatten) [] s) c s)

/-- A partition-scoped resource whose partition a VF serves is not the PF's to claim (R80, R83). -/
def vfServes (s : State) (res : Nat) : Bool :=
  (List.range s.ink.numVFs).any (fun p => scopedTo s p res)

/-- What a claim starts: an input whose judging begins afresh (R36, R39). -/
def startFeature (s : State) (res mode : Nat) : State :=
  if res = pinPair ∧ mode = 1 then { s with rul.cad := {} }
  else if res = pinPair ∧ mode = 2 then { s with rul.trig := {} }
  else s

def claimResult (res mode owner : Nat) : List Byte := leBytes 4 res ++ [BitVec.ofNat 8 mode, BitVec.ofNat 8 owner]

/-- CLAIM (R83, R85). An explicit CLAIM of HOST_WINDOW is refused with INVALID_FIELD, licensed or not (R83 before R85), and the PF's CLAIM of
a partition-scoped resource of a partition that a VF serves with WRONG_FUNCTION (DESIGN CHOICE both, log 99). -/
def execClaim (c : Cmd) (s : State) : Host.Outcome State Fault Refusal :=
  .next (firmware { op := 0x0103, need := 5 } (fun c s =>
    let res := p32 c 0
    let mode := p8 c 4
    checked [(!resValid res || !(claimModes (resType res)).contains mode || claimImplicit (resType res) mode, St.invalidField),
             (c.fn == 0 && vfServes s res, St.wrongFunction)] s
      (match conflict? s res mode c.fn with
       | some h => .done St.claimConflict (claimResult res h.mode h.owner) s
       | none =>
         .done St.ok (leBytes 4 res ++ [BitVec.ofNat 8 mode])
           (if holds s res mode c.fn then s else startFeature (grant s res mode c.fn) res mode))) c s)

def execClaimQuery (c : Cmd) (s : State) : Host.Outcome State Fault Refusal :=
  .next (firmware { op := 0x0105, need := 4 } (fun c s =>
    let res := p32 c 0
    checked [(!resValid res, St.invalidField)] s
      (match holdings s res with
       | [] => .done St.ok (claimResult res 0 0xFF ++ [0]) s
       | h :: r => .done St.ok (claimResult res h.mode h.owner ++ [BitVec.ofNat 8 (r.length + 1)]) s)) c s)

/-- ABORT (R79): the entry of a target that had not begun is written before ABORT's own; ABORT itself has begun. -/
def execAbort (c : Cmd) (s : State) : Host.Outcome State Fault Refusal :=
  .next (firmware { op := 0x0106, need := 4 } (fun c s =>
    let n := p8 c 0
    let hit (x : Cmd) : Bool := x.fn == c.fn && x.ring == n && x.tag.toNat == p16 c 2
    let s1 := abortFetched s hit
    checked [(!ringExists s c.fn n, St.invalidField)] s
      (if s.ink.fetched.any (fun e => hit e.cmd) then
         if entryHeld s1 n (BitVec.ofNat 16 (p16 c 2)) then .wait (.abort n (BitVec.ofNat 16 (p16 c 2))) s1 else .done St.ok [0] s1
       else if hit c || s.ink.running.any (fun r => hit r.cmd) then .done St.ok [1] s
       else .done St.ok [2] s)) c s)

def execEventFilter (c : Cmd) (s : State) : Host.Outcome State Fault Refusal :=
  .next (firmware { op := 0x0107, need := 33 } (fun c s =>
    let f := func s c.fn
    checked [(p8 c 32 == 0 || decide (p8 c 32 > 12), St.invalidField)] s
      (.done St.ok [] (setFunc s c.fn { f with filters := mput f.filters (p8 c 32) (BitVec.ofNat 256 (pn c 0 32)) }))) c s)

def execEcho (c : Cmd) (s : State) : Host.Outcome State Fault Refusal :=
  .next (firmware { op := 0x0108 } (fun c s => .done St.ok (padTo 16 ((body c).take c.len)) s) c s)

end Sys2Proof.Machine
end

