-- ==== Sys2Proof/Machine/MemMap.lean ====
section
/-! DEFINITION. The address map's commands (spec/04): region table, placement queries, copies, fills, cache operations, the CXL host
window and the memory test. -/
namespace Sys2Proof.Machine

/-! ### The region table (R104, R105, R110) -/

/-- The entries of a tier's valid regions under a given table: region and entry. -/
def validRegions (s : State) (t : Tier) : List (Nat × Nat) :=
  ((List.range (regionsOf s t).h).filter (fun r => (mfind (regionsOf s t).ovr r).isNone)).map (fun r => (r, regionEntry s t r)) ++
    ((regionsOf s t).ovr.filter (fun e => eMode e.2.toNat != 0)).map (fun e => (e.1, e.2.toNat))

/-- Two valid entries that R104 forbids together. -/
def entriesClash (a b : Nat) : Bool :=
  (eMode a == 2 && eMode b == 2 && eHord a == eHord b) ||
  (eMode a == 1 && eMode b == 1 && eUnit a == eUnit b && eSlice a == eSlice b)

/-- R104 for the regions of a run under the table of `s`. -/
def overlaps (s : State) (t : Tier) (run : List Nat) : Bool :=
  let all := validRegions s t
  run.any (fun r =>
    let e := regionEntry s t r
    (eMode e == 1 && !unitUp s t (eUnit e)) ||
    (eMode e != 0 && all.any (fun o => o.1 != r && entriesClash e o.2)))

/-- K of a tier: its highest HORD in use plus 1 (R110). -/
def poolK (s : State) (t : Tier) : Nat :=
  (validRegions s t).foldl (fun k e => if eMode e.2 = 2 then max k (eHord e.2 + 1) else k) 0

/-- Whether K hashed regions fit beside the slices of every unit (R110). -/
def poolFits (s : State) (t : Tier) (k : Nat) : Bool :=
  let n := tierN s t
  if n = 0 then k == 0
  else
    let q := 1024 / n
    let r := 1024 % n
    (tierMap s t).zipIdx.all (fun (c, j) =>
      let u := chanUnit t c
      decide (poolBase s t u + 4096 * (k * q + (k * r + n - 1 - j) / n) ≤ (unitOf s t u).gran))

/-- R110 for the table of `s`. -/
def poolShort (s : State) (t : Tier) : Bool := !poolFits s t (poolK s t)

def regionClaimed (s : State) (t : Tier) (r : Nat) : Bool := s.ink.claims.any (fun h => h.res == regionRes t r)

/-- Units of a tier whose L differs between two tables (R105). -/
def movedUnits (s s' : State) (t : Tier) : Bool := (List.range 16).any (fun u => unitL s t u != unitL s' t u)

/-- Valid HASHED regions of a tier. -/
def hashedRegions (s : State) (t : Tier) : List Nat := ((validRegions s t).filter (fun e => eMode e.2 == 2)).map Prod.fst

/-- The entry that MEM_REGION_SET gives region i of its run; FOLDED and WINDOW are read-only. -/
def newEntry (s : State) (t : Tier) (r entry flags i : Nat) : Nat :=
  let e := entry + (if bit flags 0 then i * 2 ^ 16 else 0) + (if bit flags 1 then i * 2 ^ 24 else 0)
  let old := regionEntry s t r
  withBit (withBit e 3 (eFolded old)) 4 (eWindow old)

/-- A change of MODE, UNIT, SLICE or HORD. -/
def movesEntry (a b : Nat) : Bool := eMode a != eMode b || eUnit a != eUnit b || eSlice a != eSlice b || eHord a != eHord b

/-- Fields of MEM_REGION_SET that break R102 or R105. -/
def regionSetInvalid (s : State) (c : Cmd) : Bool :=
  let t := tierOf (p8 c 0)
  let first := p16 c 2
  let count := p16 c 4
  let entry := p64 c 8
  let fl := p8 c 16
  decide (p8 c 0 > 1) || count == 0 || decide (first + count > regionCount t) || eMode entry == 3 || bits entry 7 5 != 0 ||
    decide (entry ≥ 2 ^ 36) || decide (fl > 3) || (eMode entry == 1 && t == .fast && decide (eUnit entry > 7)) ||
    (bit fl 0 && decide (eSlice entry + count > 256)) || (bit fl 1 && decide (eHord entry + count > 4096)) ||
    (List.range count).any (fun i =>
      let old := regionEntry s t (first + i)
      let new := newEntry s t (first + i) entry fl i
      eMode old != 0 && eMode new != 0 && movesEntry old new)

/-- The table after MEM_REGION_SET, with nothing else changed. -/
def regionTableSet (s : State) (t : Tier) (first count entry flags : Nat) : State :=
  (List.range count).foldl (fun s' i => setEntry s' t (first + i) (newEntry s t (first + i) entry flags i)) s

/-- Write-backs under the old placement, the new table, and the regions whose contents are now indeterminate (R105). -/
def regionSetApply (s : State) (t : Tier) (first count entry flags : Nat) : State :=
  let plain := regionTableSet s t first count entry flags
  let run := (List.range count).map (first + ·)
  let flushed := run.foldl (fun s r =>
    let old := regionEntry s t r
    let new := regionEntry plain t r
    if eMode old ≠ 0 ∧ (movesEntry old new ∨ eStream old ≠ eStream new) then flushRegion s t r else s) s
  let moved := movedUnits s plain t
  let s2 := if moved then (hashedRegions s t).foldl (fun s r => flushRegion s t r) flushed else flushed
  let s3 := regionTableSet s2 t first count entry flags
  let fresh := run.filter (fun r => eMode (regionEntry s t r) == 0 && eMode (regionEntry s3 t r) != 0)
  (fresh ++ (if moved then (hashedRegions s t).filter (fun r => eMode (regionEntry s3 t r) == 2) else [])).foldl
    (fun s r => spoil s t r) s3

def execMemRegionSet (c : Cmd) (s : State) : Host.Outcome State Fault Refusal :=
  .next (firmware { op := 0x0302, need := 17, vf := false } (fun c s =>
    let t := tierOf (p8 c 0)
    let first := p16 c 2
    let count := p16 c 4
    let run := ((List.range count).map (first + ·)).filter (fun r => decide (r < regionCount t))
    if p8 c 0 ≤ 1 ∧ run.any (regionClaimed s t) then .done St.regionBusy [] s
    else
      let invalid := regionSetInvalid s c
      let plain := if invalid then s else regionTableSet s t first count (p64 c 8) (p8 c 16)
      checked
        [ (!invalid && movedUnits s plain t && (hashedRegions s t).any (regionClaimed s t), St.regionBusy),
          (invalid, St.invalidField), (overlaps plain t run, St.regionOverlap), (poolShort plain t, St.poolShort) ] s
        (.done St.ok [] (regionSetApply s t first count (p64 c 8) (p8 c 16)))) c s)

def execMemRegionGet (c : Cmd) (s : State) : Host.Outcome State Fault Refusal :=
  .next (firmware { op := 0x0303, need := 4 } (fun c s =>
    checked [(decide (p8 c 0 > 1) || decide (p16 c 2 ≥ regionCount (tierOf (p8 c 0))), St.invalidField)] s
      (.done St.ok (leBytes 8 (regionEntry s (tierOf (p8 c 0)) (p16 c 2))) s)) c s)

/-! ### Queries (R121, R122) -/

/-- The largest K that passes R110 with the current slices. -/
def largestK (s : State) (t : Tier) : Nat :=
  ((List.range (regionCount t + 1)).reverse.find? (poolFits s t)).getD 0

/-- A bitmap of physical channels. -/
def chanBitmap (n : Nat) (l : List Nat) : List Byte := leBytes n (maskOf l)

/-- The tier record (R121). -/
def tierRecord (s : State) : List Byte :=
  padTo 128 (leBytes 2 (tierN s .fast) ++ leBytes 2 (tierN s .cap) ++ leBytes 2 (largestK s .fast) ++ leBytes 2 (largestK s .cap) ++
    (List.range 8).map (fun u => BitVec.ofNat 8 (unitL s .fast u)) ++ ((List.range 16).map (fun u => leBytes 2 (unitL s .cap u))).flatten ++
    chanBitmap 32 (tierMap s .fast) ++ chanBitmap 16 (tierMap s .cap))

def execMemQuery (c : Cmd) (s : State) : Host.Outcome State Fault Refusal :=
  .next (firmware { op := 0x0301, need := 8 } (fun c s => reportTo (p64 c 0) (tierRecord s) [] s) c s)

/-- The MEM_LOCATE RESULT (R122). -/
def locateResult (p : Place) (e : Nat) : List Byte :=
  [BitVec.ofNat 8 (tierNum p.tier + 2 * eMode e)] ++ leBytes 2 p.chan ++
    [if p.tier = .fast then BitVec.ofNat 8 (bits p.off 8 8) else 0xFF] ++ leBytes 8 p.off ++
    [BitVec.ofNat 8 (chanDie p.tier p.chan), BitVec.ofNat 8 (b2n (eFolded e) + 2 * b2n (eWindow e))]

def execMemLocate (c : Cmd) (s : State) : Host.Outcome State Fault Refusal :=
  .next (firmware { op := 0x0304, need := 8 } (fun c s =>
    checked [(!isDpa (p64 c 0), St.badAddress)] s
      (match locate s (p64 c 0) with
       | some (p, e) => .done St.ok (locateResult p e) s
       | none => .done St.regionInvalid (zeros 16) s)) c s)

/-! ### Copies and fills (R120, R149) -/

/-- Bytes of a poisoned granule that reach host memory: what the host then holds is free (R149). -/
def hostBytes (s : State) : List (List Byte × Bool) → List Byte × State
  | [] => ([], s)
  | (d, p) :: r =>
    let (b, s1) := if p then freeBytes s 64 else (d, s)
    let (t, s2) := hostBytes s1 r
    (b ++ t, s2)

/-- MEM_COPY from the device to the host. -/
def copyOut (s : State) (rq : Requester) (src dst len cls : Nat) : Nat × State :=
  match readGranules s rq src len cls with
  | (st, l, s1) =>
    if st ≠ St.ok then (st, s1)
    else
      let (b, s2) := hostBytes s1 l
      match hostWrite? s2 dst b with
      | some s3 => (if l.any Prod.snd then St.poisoned else St.ok, bumpO s3 (rqPart rq) 22 len)
      | none => (St.hostFault, s1)

/-- MEM_COPY from the host to the device. -/
def copyIn (s : State) (rq : Requester) (src dst len cls : Nat) : Nat × State :=
  match hostRead? s src len with
  | some b => writeBytes (bumpO (hostBytesRead s len) (rqPart rq) 21 len) rq dst b false cls
  | none => (St.hostFault, s)

def execMemCopy (c : Cmd) (s : State) : Host.Outcome State Fault Refusal :=
  .next (firmware { op := 0x0305, need := 26 } (fun c s =>
    let src := p64 c 0
    let dst := p64 c 8
    let len := p64 c 16
    let fl := p8 c 24
    checked
      [ (len == 0 || decide (fl ≥ 3) || decide (p8 c 25 > 3), St.invalidField),
        (src % 64 != 0 || dst % 64 != 0 || len % 64 != 0 || (!bit fl 0 && !isDpa src) || (!bit fl 1 && !isDpa dst), St.badAddress) ] s
      (unheld (copyHeld s (cmdRq c) (!bit fl 0) (!bit fl 1) src dst len (p8 c 25))
        (let (st, s1) := if bit fl 0 then copyIn s (cmdRq c) src dst len (p8 c 25)
           else if bit fl 1 then copyOut s (cmdRq c) src dst len (p8 c 25) else copyWithin s (cmdRq c) src dst len (p8 c 25)
         .done st [] s1))) c s)

def execMemFill (c : Cmd) (s : State) : Host.Outcome State Fault Refusal :=
  .next (firmware { op := 0x0306, need := 24 } (fun c s =>
    let dst := p64 c 0
    let len := p64 c 8
    checked [(len == 0, St.invalidField), (dst % 64 != 0 || len % 64 != 0 || !isDpa dst, St.badAddress)] s
      (unheld (accessWaits s (cmdRq c) true dst len 2)
        (let (st, s1) := writeBytes s (cmdRq c) dst ((List.replicate (len / 8) (slice (body c) 16 8)).flatten) false 2
         .done st [] s1))) c s)

/-- Whether a range meets the CXL host window (R118). -/
def rangeFenced (s : State) (dpa len : Nat) : Bool :=
  (regionSteps dpa len).any (fun a => match whereIs a with | .region t r => eWindow (regionEntry s t r) | _ => false)

def execMemCacheOp (c : Cmd) (s : State) : Host.Outcome State Fault Refusal :=
  .next (firmware { op := 0x0307, need := 17 } (fun c s =>
    let dpa := p64 c 0
    let len := p64 c 8
    checked [(len == 0 || p8 c 16 == 0 || decide (p8 c 16 > 3), St.invalidField),
             (dpa % 64 != 0 || len % 64 != 0 || !isDpa dpa, St.badAddress), (rangeFenced s dpa len, St.windowFenced)] s
      (let (st, s1) := cacheOp s (cmdPart c) dpa len (p8 c 16)
       .done st [] s1)) c s)

/-! ### The control window (R98) -/

/-- A descriptor write of a core, quire command or firmware command; the reply is its status. -/
def execCacheControlWrite (r : Requester) (p : Nat) (bytes : List Byte) (s : State) : Host.Outcome State Fault Refusal :=
  let (st, s1) := controlWrite s (rqPart r) (0x1000 * p) bytes
  .next { s1 with mem.reply := some { status := BitVec.ofNat 16 st, data := [], poison := false } }

/-- CACHE_CONTROL_DONE: the operation under way completes. -/
def execCacheControlDone (p : Nat) (s : State) : Host.Outcome State Fault Refusal :=
  .next (match (ctlOf s p).op with | some st => controlFinish s p st | none => s)

/-! ### The CXL host window (R117 to R119, R131, R143) -/

def clearWindow (s : State) : State :=
  match s.mem.window with
  | none => s
  | some (f, n) =>
    let s1 := (List.range n).foldl (fun s i =>
      implicitRelease (setEntry s .cap (f + i) (withBit (regionEntry s .cap (f + i)) 4 false)) (regionRes .cap (f + i)) 3) s
    { s1 with mem.window := none }

/-- Implicit claims of one mode on several resources: all of them, or the first holding that conflicts (R87). -/
def claimAll (mode : Nat) : List Nat → State → State ⊕ (Nat × Holding)
  | [], s => .inl s
  | r :: rest, s =>
    match conflict? s r mode 0xFE with
    | some h => .inr (r, h)
    | none => claimAll mode rest (grant s r mode 0xFE)

/-- A port that a region of the run has slices on and that a queued gather holds RESERVOIR (spec/06, At the edges). -/
def reservedPort (s : State) (run : List Nat) : Option Nat :=
  ((run.filter (fun r => eMode (regionEntry s .cap r) == 1)).map (fun r => eUnit (regionEntry s .cap r))).find? (fun u => heldAny s (mkRes 3 u) 2)

def execMemWindowSet (c : Cmd) (s : State) : Host.Outcome State Fault Refusal :=
  .next (firmware { op := 0x0308, need := 4, vf := false } (fun c s =>
    let first := p16 c 0
    let n := p16 c 2
    let run := (List.range n).map (first + ·)
    match licenceLimit s 2 with
    | none => .done St.notLicensed [] s
    | some limit =>
      checked
        [ (n == 0, St.invalidField),
          (decide (n > 1024) || decide (n > limit) || decide (first + n > Config.capRegions) ||
            run.any (fun r => eMode (regionEntry s .cap r) == 0), St.windowLimit),
          (s.mem.window.isSome, St.regionBusy) ] s
        (match reservedPort s run, claimAll 3 (run.map (regionRes .cap)) s with
         | some u, _ => .done St.claimConflict (claimResult (mkRes 3 u) 2 0xFE) s
         | none, .inr (r, h) => .done St.claimConflict (claimResult r h.mode h.owner) s
         | none, .inl s1 =>
           let s2 := run.foldl (fun s r => let f := flushRegion s .cap r; setEntry f .cap r (withBit (regionEntry f .cap r) 4 true)) s1
           .done St.ok [] { s2 with mem.window := some (first, n) })) c s)

def execMemWindowClear (c : Cmd) (s : State) : Host.Outcome State Fault Refusal :=
  .next (firmware { op := 0x0309, vf := false } (fun _ s =>
    checked [(s.mem.committed, St.regionBusy)] s (.done St.ok [] (clearWindow s))) c s)

def execHdmDecoderCommit (s : State) : Host.Outcome State Fault Refusal := .next { s with mem.committed := true }

def execHdmDecoderUncommit (s : State) : Host.Outcome State Fault Refusal := .next { s with mem.committed := false }

/-- Whether the committed decoder sends an address to the device. -/
def inWindow (s : State) (dpa : Nat) : Bool :=
  s.mem.committed && (match s.mem.window, whereIs dpa with | some (f, n), .region .cap r => decide (f ≤ r) && decide (r < f + n) | _, _ => false)

/-! ### The memory test (R389) -/

/-- Units that a MEM_TEST names, as tier and unit. -/
def testUnits (sites ports : Nat) : List (Tier × Nat) :=
  (bitList 8 sites).map (fun u => (Tier.fast, u)) ++ (bitList 16 ports).map (fun u => (Tier.cap, u))

/-- Whether a valid region has bytes on a unit: its slices, and every HASHED region of the tier. -/
def unitInUse (s : State) (t : Tier) (u : Nat) : Bool :=
  (validRegions s t).any (fun e => eMode e.2 == 2 || (eMode e.2 == 1 && eUnit e.2 == u))

def execMemTest (c : Cmd) (s : State) : Host.Outcome State Fault Refusal :=
  .next (firmware { op := 0x030A, need := 16, vf := false } (fun c s =>
    let us := testUnits (p8 c 0) (p16 c 2)
    checked
      [ (decide (p8 c 4 > 1), St.invalidField), (us.any (fun u => !unitUp s u.1 u.2), St.unitAbsent),
        (s.svc.test.isSome, St.busy), (serving s && us.any (fun u => unitInUse s u.1 u.2), St.regionBusy) ] s
      (.wait .memTest { s with svc.test := some { sites := p8 c 0, ports := p16 c 2, sampled := p8 c 4 == 1, buffer := p64 c 8 } })) c s)

/-- The channel key of a stored cell, data or check word. -/
def cellChan (a : Nat) : Nat := if a < 2 ^ 60 then a / 2 ^ 40 else (a - 2 ^ 60) / 4 * 64 / 2 ^ 40

/-- A tested channel holds what the test's last writes left in every granule (R389, R471). -/
def testChannel (s : State) (key : Nat) (sampled : Bool) : State :=
  { s with mem.cells := s.mem.cells.filter (fun e => cellChan e.1 != key)
           mem.chanFill := mput s.mem.chanFill key (if sampled then .sampled else .march) }

/-- The verdict of a channel: any UE, or more CE than the mode allows (R389). -/
def testFails (sampled : Bool) (f : TestFinding) : Bool := decide (f.ue > 0) || decide (f.ce > if sampled then 64 else 1024)

def testRecord (sampled : Bool) (f : TestFinding) : List Byte :=
  leBytes 2 f.channel ++ [BitVec.ofNat 8 (tierNum f.tier), BitVec.ofNat 8 (b2n (testFails sampled f))] ++ leBytes 4 f.ce ++
    leBytes 4 f.ue ++ leBytes 4 f.tested

/-- MEM_TEST_END: the findings of each channel tested. -/
def execMemTestEnd (findings : List TestFinding) (s : State) : Host.Outcome State Fault Refusal :=
  .next (
    match s.svc.test with
    | none => s
    | some t =>
      let units := testUnits t.sites t.ports
      let chans := (units.map (fun u => (unitOf s u.1 u.2).chans.map (fun c => (u.1, c)))).flatten
      let seen := findings.filter (fun f => chans.contains (f.tier, f.channel))
      let s1 := chans.foldl (fun s c => testChannel s (chanKey c.1 c.2) t.sampled) { s with svc.test := none }
      let s2 := seen.foldl (fun s f =>
        if testFails t.sampled f then markChannel s f.tier f.channel else s) s1
      match hostWrite? s2 t.buffer ((seen.map (testRecord t.sampled)).flatten) with
      | some s3 => finishWait s3 .memTest St.ok []
      | none => finishWait s2 .memTest St.hostFault [])

end Sys2Proof.Machine
end

