-- ==== Sys2Proof/Machine/MemService.lean ====
section
/-! DEFINITION. Memory service (spec/05): accesses that wait, regulators, throttle curves, patrol scrub, retraining, the traffic
generator and the service's commands. -/
namespace Sys2Proof.Machine

/-! ### Accesses (R101, R126, R127, R131, R155) -/

/-- The class of an access that names none (R125). -/
def defaultClass : Requester → Nat
  | .serving _ => 0
  | .flourish _ => 0
  | _ => 1

def setReply (s : State) (st : Nat) (d : List Byte) (poison : Bool) : State :=
  { s with mem.reply := some { status := BitVec.ofNat 16 st, data := d, poison := poison } }

/-- What a CXL.mem read of a tripped unit returns: data that the manual does not state, with the poison indication (R143). -/
def cxlPoisoned (s : State) : State := let (b, s1) := freeBytes s 64; setReply s1 St.ok b true

/-- A CXL.mem read at its granule (R117, R143). -/
def cxlReadNow (s : State) (dpa : Nat) : State :=
  let a := dpa / 64 * 64
  if dpaTripped s a then cxlPoisoned s
  else
    let g := readGranule (charge s .window a 64 1) .window a 1
    setReply g.s g.status g.data g.poison

/-- A CXL.mem write within a granule; on a tripped unit it is dropped and recorded (R143). -/
def cxlWriteNow (s : State) (dpa : Nat) (b : List Byte) : State :=
  let a := dpa / 64 * 64
  if dpaTripped s a then
    match locate s a with
    | some (p, _) => setReply (noteDrop s p.tier p.chan p.off a 4) St.ok [] false
    | none => s
  else
    let s1 := charge s .window a b.length 1
    let (st, s2) := if b.length = 64 then writeGranule s1 .window a b false 1 else mergeGranule s1 .window a (dpa % 64) b false 1
    setReply s2 st [] false

/-- A read or write performed now; the reply holds its status, data and poison. -/
def accessNow (s : State) (w : Waiting) : State :=
  match w.data with
  | none =>
    if w.req = .window then cxlReadNow s w.dpa
    else let (st, d, poison, s1) := readBytes s w.req w.dpa w.len w.cls; setReply s1 st d poison
  | some (b, poison) =>
    if w.req = .window then cxlWriteNow s w.dpa b
    else let (st, s1) := writeBytes s w.req w.dpa b poison w.cls; setReply s1 st [] false

/-- The pseudo-channel of a fast channel in whose queue an access waits, by its first granule there; an LPDDR channel has one queue
(R112, R126). -/
def queueOfAccess (s : State) (t : Tier) (c : Nat) (w : Waiting) : Nat :=
  match t with
  | .cap => 0
  | .fast =>
    (((granuleAddrs w.dpa w.len).filterMap (fun a =>
      match locate s a with
      | some (p, _) => if p.tier = t ∧ p.chan = c then some (bits p.off 8 8) else none
      | none => none)).head?).getD 0

/-- Whether the queue of an access's class has a place: each holds 32 entries (R126). -/
def queuePlace (s : State) (t : Tier) (c : Nat) (w : Waiting) : Bool :=
  decide (((chanOf s t c).queue.filter (fun o => o.cls == w.cls && queueOfAccess s t c o == queueOfAccess s t c w)).length < 32)

/-- An entry in age order (R127). -/
def insertAged (w : Waiting) (q : List Waiting) : List Waiting := insertBy (fun a b => decide (a.since < b.since)) w q

/-- An access joins its queue, or waits at its source while the queue is full (R126, log 103). -/
def queueAt (s : State) (t : Tier) (c : Nat) (w : Waiting) : State :=
  let x := chanOf s t c
  setChan s t c (if queuePlace s t c w then { x with queue := insertAged w x.queue } else { x with source := x.source ++ [w] })

/-- The oldest access at its source whose queue has a place enters it. -/
def admitGo (t : Tier) (c : Nat) : Nat → State → State
  | 0, s => s
  | k + 1, s =>
    let x := chanOf s t c
    match x.source.find? (queuePlace s t c) with
    | some w =>
      admitGo t c k (setChan s t c { x with source := x.source.erase w, queue := x.queue ++ [{ w with since := s.time, classAt := s.time }] })
    | none => s

def admitSources (s : State) (t : Tier) (c : Nat) : State := admitGo t c (chanOf s t c).source.length s

/-- An access past its regulator: it waits in the queue of a retraining channel (R155), or is performed. -/
def accessChan (s : State) (w : Waiting) : State :=
  if rangeStatus s w.req w.data.isSome w.dpa w.len ≠ St.ok then accessNow s w
  else
    match retrainingAt s w.data.isSome w.dpa w.len with
    | some (t, c) => queueAt s t c w
    | none => accessNow s w

/-- An access that waits at a regulator (R131). -/
def holdAt (s : State) (k : Nat) (w : Waiting) : State :=
  { s with svc.regs := mput s.svc.regs k { regOf s k with held := (regOf s k).held ++ [w] } }

/-- An access at its regulator; one that would be refused is not held (R115, R131). -/
def accessStart (s : State) (w : Waiting) : State :=
  match regFor w.req w.dpa with
  | some k =>
    if rangeStatus s w.req w.data.isSome w.dpa w.len = St.ok && gateHolds s w.req w.dpa w.len w.cls then holdAt s k w else accessChan s w
  | none => accessChan s w

def execMemoryRead (r : Requester) (dpa len : Nat) (s : State) : Host.Outcome State Fault Refusal :=
  .next (accessStart s { req := r, dpa := dpa, len := len, data := none, cls := defaultClass r, since := s.time })

/-- PARTIAL_WRITE: fewer than the 64 bytes of one granule (R151). -/
def execPartialWrite (r : Requester) (dpa : Nat) (bytes : List Byte) (s : State) : Host.Outcome State Fault Refusal :=
  .next (if dpa % 64 + bytes.length > 64 then s
    else accessStart s { req := r, dpa := dpa, len := bytes.length, data := some (bytes, false), cls := defaultClass r, since := s.time })

/-! ### CXL.mem (R117, R131) -/

/-- The host window's regulator treats every request as NORMAL (R131). -/
def execCxlMemRead (dpa : Nat) (s : State) : Host.Outcome State Fault Refusal :=
  .next (
    if !inWindow s dpa then s
    else accessStart s { req := .window, dpa := dpa / 64 * 64, len := 64, data := none, cls := 1, since := s.time })

def execCxlMemWrite (dpa : Nat) (bytes : List Byte) (s : State) : Host.Outcome State Fault Refusal :=
  .next (
    if !inWindow s dpa || decide (dpa % 64 + bytes.length > 64) then s
    else accessStart s { req := .window, dpa := dpa, len := bytes.length, data := some (bytes, false), cls := 1, since := s.time })

/-! ### Channel queues (R126, R127) -/

/-- The entry of a channel queue issued next: highest class, then age; an older entry that shares a granule first (R126). -/
def issueNext (q : List Waiting) : Option Waiting :=
  let issuable := q.zipIdx.filter (fun (w, i) => (q.take i).all (fun o => !sameGranule o.dpa o.len w.dpa w.len))
  ((sortBy (fun a b => decide (a.1.cls < b.1.cls)) issuable).head?).map Prod.fst

def drainChanGo (t : Tier) (c : Nat) : Nat → State → State
  | 0, s => s
  | k + 1, s =>
    let x := chanOf s t c
    match issueNext x.queue with
    | some w => drainChanGo t c k (accessChan (admitSources (setChan s t c { x with queue := x.queue.erase w }) t c) w)
    | none => s

/-- Queued accesses are issued once the channel resumes (R126, R155). -/
def drainChan (s : State) (t : Tier) (c : Nat) : State :=
  drainChanGo t c ((chanOf s t c).queue.length + (chanOf s t c).source.length) (admitSources s t c)

/-- The aging limit of a class in units of 2^-16 ns (R127). -/
def agingLimit (s : State) (cls : Nat) : Nat := s.svc.aging.getD (cls - 1) 0 * 1000 * 65536

/-- AGING_PROMOTION: an entry that has waited longer than its class's limit moves up one class, in age order, once the higher queue has a
place (R127, log 103). -/
def execAgingPromotion (tier : Tier) (channel entry : Nat) (s : State) : Host.Outcome State Fault Refusal :=
  let x := chanOf s tier channel
  .next (
    match x.queue[entry]? with
    | some w =>
      let up := { w with cls := w.cls - 1, classAt := s.time }
      if w.cls = 0 || decide (s.time ≤ w.classAt + agingLimit s w.cls) || !queuePlace s tier channel up then s
      else admitSources (bumpO (setChan s tier channel { x with queue := x.queue.set entry up }) (rqPart w.req) 29 1) tier channel
    | none => s)

/-! ### Regulators (R129, R131, R132) -/

/-- A waiting access goes once the bucket is positive (R131). -/
def regOpen (s : State) (k : Nat) : Bool := rateNow s (regOf s k) == 0xFFFF || decide ((regOf s k).level > 0)

def releaseGo (k : Nat) : Nat → State → State
  | 0, s => s
  | n + 1, s =>
    let g := regOf s k
    if !regOpen s k then s
    else
      match g.held with
      | [] => s
      | w :: r =>
        releaseGo k n (accessChan { s with svc.regs := mput s.svc.regs k { g with held := r } } { w with since := s.time, classAt := s.time })

/-- REGULATOR_RELEASE: held accesses go while the bucket is positive. -/
def execRegulatorRelease (reg : Nat) (s : State) : Host.Outcome State Fault Refusal := .next (releaseGo reg (regOf s reg).held.length s)

/-- REGULATOR_PHASE: at a phase boundary a waiting depth and curve take effect (R132); an unregulated bucket is full (R129). -/
def phaseReg (k : Nat) (g : Regulator) : Regulator :=
  let g1 := match g.pend with
    | some (d, l) => { g with depth := d, rates := l, level := min g.level (65536 * d : Nat), pend := none }
    | none => g
  if g1.rates.getD k 0xFFFF = 0xFFFF then { g1 with level := (65536 * g1.depth : Nat) } else g1

def execRegulatorPhase (s : State) : Host.Outcome State Fault Refusal :=
  .next { s with svc.regs := s.svc.regs.map (fun (k, g) => (k, phaseReg (phaseNow s) g)) }

def execMemRegSet (c : Cmd) (s : State) : Host.Outcome State Fault Refusal :=
  .next (firmware { op := 0x030B, need := 40, vf := false } (fun c s =>
    let p := p8 c 0
    let t := p8 c 1
    let d := p32 c 4
    checked [(decide (t > 1), St.invalidField),
             (decide (p > 4) || (p == 4 && t == 0) || decide (d < 4096) || decide (d > 16777216), St.regRange)] s
      (let g := { regOf s (2 * p + t) with pend := some (d, (List.range 16).map (fun i => p16 c (8 + 2 * i))) }
       .done St.ok [] { s with svc.regs := mput s.svc.regs (2 * p + t) g })) c s)

def execMemClassSet (c : Cmd) (s : State) : Host.Outcome State Fault Refusal :=
  .next (firmware { op := 0x030C, need := 7, vf := false } (fun c s =>
    let l := [p16 c 0, p16 c 2, p16 c 4]
    checked [(l.any (fun v => v == 0 || decide (v > 1023)) || p8 c 6 == 0 || decide (p8 c 6 > 10), St.regRange)] s
      (.done St.ok [] { s with svc.aging := l, svc.traceCap := p8 c 6 })) c s)

/-! ### Throttle (R137 to R141, R144) -/

def curveOf (s : State) : Tier → Curve
  | .fast => s.svc.fastCurve
  | .cap => s.svc.capCurve

/-- The share in basis points at a temperature (R137). -/
def curveBp : List (Int × Nat) → Int → Nat
  | [], _ => 10000
  | [(_, b)], _ => b
  | (t0, b0) :: (t1, b1) :: r, t =>
    if t ≤ t0 then b0
    else if t ≤ t1 then ((b0 : Int) + Int.fdiv (((b1 : Int) - b0) * (t - t0)) (t1 - t0)).toNat
    else curveBp ((t1, b1) :: r) t

/-- S of R137. -/
def shareOf (c : Curve) (t : Int) : Nat := curveBp c.points t * 256 / 10000

/-- The limit table of both tiers (R140). -/
def limitCurve : Curve := { points := [(0, 10000), (88, 10000), (97, 3000)], trip := 105 }

def signed8 (n : Nat) : Int := (BitVec.ofNat 8 n).toInt

/-- The curve that a table holds, or none where it breaks R139. -/
def parseCurve (b : List Byte) : Option Curve :=
  let n := fieldN b 1 1
  let pts := (List.range n).map (fun k => (signed8 (fieldN b (4 + 4 * k) 1), fieldN b (6 + 4 * k) 2))
  let steps := pts.zip (pts.drop 1)
  if fieldN b 0 1 > 1 ∨ n < 2 ∨ n > 8 ∨ pts.any (fun p => decide (p.2 < 40)) ∨
      steps.any (fun p => decide (p.2.1 ≤ p.1.1) || decide (p.2.2 > p.1.2)) then none
  else some { points := pts, trip := fieldN b 2 1 }

/-- R140: no trip above the limit's, and no share above the limit's below its own trip. -/
def withinLimit (c : Curve) : Bool :=
  decide (c.trip ≤ limitCurve.trip) &&
    (List.range (c.trip + 40).toNat).all (fun i => decide (curveBp c.points ((i : Int) - 40) ≤ curveBp limitCurve.points ((i : Int) - 40)))

def execMemThermalLoad (c : Cmd) (s : State) : Host.Outcome State Fault Refusal :=
  .next (firmware { op := 0x030D, need := 4, ext := true, full := fun _ c => if p8 c 1 ≤ 8 then 4 + 4 * p8 c 1 else 0, vf := false } (fun c s =>
    match parseCurve (body c) with
    | none => .done St.thermalFormat [] s
    | some v =>
      checked [(!withinLimit v, St.thermalLimit)] s
        (.done St.ok [] (if p8 c 0 = 0 then { s with svc.fastCurve := v } else { s with svc.capCurve := v }))) c s)

/-- Occupied units, sites before ports. -/
def occupied (s : State) : List (Tier × Nat) :=
  ((List.range 8).map (fun u => (Tier.fast, u)) ++ (List.range 16).map (fun u => (Tier.cap, u))).filter (fun u => unitUp s u.1 u.2)

/-- The declared share (R141). -/
def declaredShare (s : State) : Nat :=
  (occupied s).foldl (fun m u => let h := thermalOf s u.1 u.2; if h.tripped then m else min m h.share) 256

def setThermal (s : State) (t : Tier) (u : Nat) (h : Thermal) : State := { s with svc.thermal := mput s.svc.thermal (unitKey t u) h }

/-- The SLOW notice of a group member when the declared share has moved far enough (R141). -/
def sendSlow (s : State) : State :=
  let d := declaredShare s
  let last := s.svc.slowSent
  let moved := if d > last then d - last else last - d
  if s.duc.group.isSome ∧ d ≠ last ∧ (last = 256 ∨ d = 256 ∨ moved ≥ 8) then
    let q := s.svc.slowSeq + 1
    postSlow (floodOwn { s with svc.slowSent := d, svc.slowSeq := q } 0x21 (leBytes 2 d ++ leBytes 2 q.toNat)) d (ownIndex s) d
  else s

/-- A CHANNEL entry in the blotter of every channel of a unit (R433). -/
def blotUnit (s : State) (t : Tier) (u code v : Nat) : State :=
  (unitOf s t u).chans.foldl (fun s c => blot s (chanUnitId t c) 0x10 none (code + v * 256)) s

/-- A THROTTLE, TRIP or TRIP_CLEAR record (R161). -/
def logUnit (s : State) (type : Nat) (t : Tier) (u : Nat) (temp : Int) (share : Nat) : State :=
  logErr s (unitDie t u) type t u (intBits 8 temp + 256 * (share - 1)) noDpa 0xFF 7

/-- Dirty lines of a unit are written back after its trip clears (R143). -/
def flushUnit (s : State) (t : Tier) (u : Nat) : State :=
  let mine (l : CacheLine) : Bool :=
    match locate s (l.addr * 256) with
    | some (p, _) => p.tier == t && chanUnit p.tier p.chan == u
    | none => false
  (s.mem.cache.filter mine).foldl (fun s l => (flushRange s (l.addr * 256) (l.addr * 256 + 256) true false).1) s

def clearTrip (s : State) (t : Tier) (u : Nat) : State :=
  let h := thermalOf s t u
  let sh := shareOf (curveOf s t) h.temp
  let s1 := setThermal s t u { h with tripped := false, share := sh, cand := none }
  let s2 := flushUnit { s1 with svc.alert := (occupied s1).any (fun v => tripped s1 v.1 v.2) } t u
  let s3 := blotUnit (logUnit s2 0x0C t u h.temp sh) t u 4 sh
  sendSlow (post s3 0x0305 0xFF ([BitVec.ofNat 8 (tierNum t), BitVec.ofNat 8 u, BitVec.ofNat 8 (intBits 8 h.temp), 1] ++ leBytes 4 0) false)

/-- A tier and unit that a command names. -/
def unitField (c : Cmd) (o : Nat) : Option (Tier × Nat) :=
  if p8 c o = 0 ∧ p8 c (o + 1) < 8 then some (.fast, p8 c (o + 1))
  else if p8 c o = 1 ∧ p8 c (o + 1) < 16 then some (.cap, p8 c (o + 1)) else none

def execMemThermalClear (c : Cmd) (s : State) : Host.Outcome State Fault Refusal :=
  .next (firmware { op := 0x030E, need := 2, vf := false } (fun c s =>
    match unitField c 0 with
    | none => .done St.invalidField [] s
    | some (t, u) =>
      if !unitUp s t u then .done St.unitAbsent [] s
      else if !tripped s t u then .done St.ok [] s
      else if (thermalOf s t u).temp > (curveOf s t).trip - 10 then .done St.tripActive [] s
      else .done St.ok [] (clearTrip s t u)) c s)

def thermalWord (s : State) (t : Tier) (u : Nat) : List Byte :=
  let h := thermalOf s t u
  [BitVec.ofNat 8 (intBits 8 h.temp), BitVec.ofNat 8 (h.share - 1),
    if h.tripped then 2 else if h.share < 256 then 1 else 0, 0]

def execMemThermalQuery (c : Cmd) (s : State) : Host.Outcome State Fault Refusal :=
  .next (firmware { op := 0x030F, need := 8, vf := false } (fun c s =>
    reportTo (p64 c 0)
      (((List.range 8).map (thermalWord s .fast)).flatten ++ ((List.range 16).map (thermalWord s .cap)).flatten) [] s) c s)

/-! ### Patrol scrub (R152, R153) -/

/-- Channels of a die's units in a tier, in order. -/
def dieChans (s : State) (die : Nat) (t : Tier) : List Nat := (tierMap s t).filter (fun c => chanDie t c == die)

/-- Granules of 64 B in a channel. -/
def chanGranules (s : State) (t : Tier) (c : Nat) : Nat := 4 * (unitOf s t (chanUnit t c)).gran

/-- The engine's next place at or after channel ordinal `j`, granule `g`, and where it has stopped in channels whose unit is tripped; failed
and tripped channels are skipped (R153). -/
def scrubFind (s : State) (t : Tier) (cs : List Nat) : Nat → Nat → Nat → Map Nat → Option (Nat × Nat) × Map Nat
  | 0, _, _, held => (none, held)
  | k + 1, j, g, held =>
    match cs[j]? with
    | none => scrubFind s t cs k 0 0 held
    | some c =>
      if g ≥ chanGranules s t c ∨ (chanOf s t c).failed then scrubFind s t cs k (j + 1) 0 held
      else if tripped s t (chanUnit t c) then scrubFind s t cs k (j + 1) 0 (mput held (chanKey t c) g)
      else (some (j, g), held)

/-- A channel of the engine in which a trip that has cleared had stopped it, and the granule where it resumes (R153). -/
def scrubResume (s : State) (t : Tier) (cs : List Nat) : Option (Nat × Nat) :=
  (cs.filterMap (fun c =>
    match mfind s.svc.scrubHeld (chanKey t c) with
    | some g => if (chanOf s t c).failed || tripped s t (chanUnit t c) then none else some (c, g)
    | none => none)).head?

/-- The channel and granule of the next scrub step, and the state in which the engine has moved past it. -/
def scrubNext (s : State) (die : Nat) (t : Tier) : Option (Nat × Nat) × State :=
  let key := 2 * die + tierNum t
  let cs := dieChans s die t
  match scrubResume s t cs with
  | some (c, g) =>
    (some (c, g), { s with svc.scrubHeld :=
      if g + 1 < chanGranules s t c then mput s.svc.scrubHeld (chanKey t c) (g + 1) else mdel s.svc.scrubHeld (chanKey t c) })
  | none =>
    let pos := mget 0 s.svc.scrubPos key
    match scrubFind s t cs (cs.length + 2) (pos / 2 ^ 32) (pos % 2 ^ 32) s.svc.scrubHeld with
    | (none, held) => (none, { s with svc.scrubHeld := held })
    | (some (j, g), held) =>
      (some (cs.getD j 0, g), { s with svc.scrubPos := mput s.svc.scrubPos key (j * 2 ^ 32 + g + 1), svc.scrubHeld := held })

/-- SCRUB_STEP: one granule read, decoded and, where needed, written back; it waits for a channel that is retraining (R153, R155). -/
def execScrubStep (die : Nat) (tier : Tier) (s : State) : Host.Outcome State Fault Refusal :=
  .next (
    if mget 0 s.svc.scrubHours (tierNum tier) = 0 ∨ s.ink.state = stCapped then s
    else
      match scrubNext s die tier with
      | (none, s1) => s1
      | (some (c, g), s1) =>
        if (chanOf s tier c).retraining then s
        else (chanRead s1 { tier := tier, chan := c, off := g * 64 } noDpa 5 6 5 none (some 2) true).2.2.2)

def execMemScrubSet (c : Cmd) (s : State) : Host.Outcome State Fault Refusal :=
  .next (firmware { op := 0x0312, need := 4, vf := false } (fun c s =>
    let t := p8 c 0
    let h := p16 c 2
    checked [(decide (t > 1), St.invalidField), (decide (h > 168) || (h == 0 && t == 0), St.regRange)] s
      (.done St.ok [] { s with svc.scrubHours := mput s.svc.scrubHours t h })) c s)

/-! ### Retraining and failed channels (R155, R156) -/

/-- CHANNEL_RETRAIN: more than 16 link-protection errors within 1 ms. -/
def execChannelRetrain (tier : Tier) (channel errors : Nat) (s : State) : Host.Outcome State Fault Refusal :=
  let x := chanOf s tier channel
  .next (if errors > 16 ∧ (tierMap s tier).contains channel ∧ !x.failed then setChan s tier channel { x with retraining := true } else s)

def memChannel (s : State) (t : Tier) (c failed spares : Nat) : State :=
  post s 0x0306 0xFF ([BitVec.ofNat 8 (tierNum t), 0] ++ leBytes 2 c ++ [BitVec.ofNat 8 failed, BitVec.ofNat 8 spares]) false

/-- The channel is FAILED: it is marked for map-out, and READY becomes DEGRADED_READY (R156, R385, R396). -/
def failChannel (s : State) (t : Tier) (c : Nat) : State :=
  let x := chanOf s t c
  let s1 := markChannel (setChan s t c { x with failed := true, retraining := false }) t c
  let s2 := blot (logErr s1 (chanDie t c) 8 t c 0 noDpa 0xFF 7) (chanUnitId t c) 0x10 none 1
  let s3 := memChannel s2 t c 1 x.spares
  let s4 := { s3 with pwr.degMask := s3.pwr.degMask ||| 0x20 }
  if s4.ink.state = stReady then setState s4 stDegraded else s4

/-- RETRAIN_COMPLETE; a capacity port has no spare lanes (R154). -/
def execRetrainComplete (tier : Tier) (channel : Nat) (ok spare lost : Bool) (s : State) : Host.Outcome State Fault Refusal :=
  let x := chanOf s tier channel
  let spares := x.spares + b2n (spare && tier == .fast)
  .next (
    if !x.retraining then s
    else if ok then
      let s1 := setChan s tier channel { x with retraining := false, fails := 0, spares := spares }
      let s2 := chanCount (logErr s1 (chanDie tier channel) 7 tier channel 0 noDpa 0xFF 7) tier channel 5
      let s3 := blot s2 (chanUnitId tier channel) 0x10 none 0
      drainChan (memChannel s3 tier channel 0 spares) tier channel
    else if lost || decide (x.fails + 1 ≥ 3) then drainChan (failChannel s tier channel) tier channel
    else setChan s tier channel { x with fails := x.fails + 1 })

/-! ### Logs and counters (R158, R161) -/

/-- The oldest unread records of a log, at most `n`, and the log after they are read. -/
def logTake (l : Log) (n : Nat) : List (List Byte) × Log :=
  let k := min n l.unread
  (((lastN l.unread l.recs).take k), { l with unread := l.unread - k, overwritten := 0 })

def execMemErrRead (c : Cmd) (s : State) : Host.Outcome State Fault Refusal :=
  .next (firmware { op := 0x0310, need := 11, vf := false } (fun c s =>
    let l := mget {} s.svc.errs (p8 c 10)
    let (rs, l1) := logTake l (p16 c 8)
    checked [(decide (p8 c 10 > 1), St.invalidField)] s
      (reportTo (p64 c 0) rs.flatten (leBytes 2 rs.length ++ leBytes 4 l.overwritten) { s with svc.errs := mput s.svc.errs (p8 c 10) l1 })) c s)

/-- Nominal channels of a unit: 32, 16, 6 or 8 (R93, R106). -/
def nominal (t : Tier) (kind : Nat) : Nat :=
  match t with
  | .fast => if kind = 1 then 16 else 32
  | .cap => if kind = 1 then 6 else 8

/-- Physical IDs of a unit's channels. -/
def unitChannels (s : State) (t : Tier) (u : Nat) : List Nat :=
  (List.range (nominal t (unitOf s t u).kind)).map (fun i => (match t with | .fast => 32 * u | .cap => 8 * u) + i)

def execMemErrCounters (c : Cmd) (s : State) : Host.Outcome State Fault Refusal :=
  .next (firmware { op := 0x0311, need := 16, vf := false } (fun c s =>
    match unitField c 0 with
    | none => .done St.invalidField [] s
    | some (t, u) =>
      checked [(!unitUp s t u, St.unitAbsent)] s
        (reportTo (p64 c 8) (((unitChannels s t u).map (fun ch => ((chanOf s t ch).ctr.map (leBytes 4)).flatten)).flatten) [] s)) c s)

/-! ### The traffic generator (R159) -/

/-- The mixer of R327 for a seed and a position. -/
def mix (seed : BitVec 64) (p : Nat) : BitVec 64 :=
  let z0 : BitVec 64 := seed + BitVec.ofNat 64 (p + 1) * 0x9E3779B97F4A7C15#64
  let z1 := (z0 ^^^ (z0 >>> 30)) * 0xBF58476D1CE4E5B9#64
  let z2 := (z1 ^^^ (z1 >>> 27)) * 0x94D049BB133111EB#64
  z2 ^^^ (z2 >>> 31)

def execMemTraffic (c : Cmd) (s : State) : Host.Outcome State Fault Refusal :=
  .next (firmware { op := 0x0313, need := 48, vf := false } (fun c s =>
    let port := p8 c 0
    let first := p64 c 8
    let last := p64 c 16
    let writes := p8 c 1 == 1 || p8 c 1 == 2 || p8 c 1 == 5
    checked
      [ (decide (port > 15), St.invalidField), (!unitUp s .cap port, St.unitAbsent),
        (!holds s (mkRes 3 port) 1 c.fn, St.notClaimed),
        (decide (p8 c 1 > 5) || decide (p8 c 2 > 3) || p32 c 4 == 0 || decide (p32 c 4 > 60000000) || first % 256 != 0 || last % 256 != 0 ||
          decide (last < first) || decide (last ≥ 256 * (unitOf s .cap port).gran), St.invalidField),
        (writes && unitInUse s .cap port, St.regionBusy), ((mfind s.svc.traffic port).isSome, St.busy) ] s
      (let r : TrafficRun := { pattern := p8 c 1, cls := p8 c 2, durUs := p32 c 4, first := first, last := last, seed := p64 c 24,
                               wpat := p64 c 32, buffer := p64 c 40, tripped := tripped s .cap port }
       .wait (.traffic port) { s with svc.traffic := mput s.svc.traffic port r })) c s)

/-- A whole granule with the write pattern, fresh check symbols and POISON 0; at a FAILED channel the write is dropped (R156). -/
def trafficWrite (s : State) (p : Place) (d : List Byte) : State :=
  let s := prog s (chanUnitId p.tier p.chan) 2 none none 1
  if (chanOf s p.tier p.chan).failed then noteDrop s p.tier p.chan p.off noDpa 7 else placeStore s p d false

/-- The places of the 64 B granules of the k-th access of a run at one channel: in order and again from the first, or where the mixer of
R327 puts it (R159). -/
def trafficPlaces (r : TrafficRun) (chan k : Nat) : List Place :=
  let unit := if r.pattern = 4 then 64 else 256
  let g := (r.last + 256 - r.first) / unit
  let i := if r.pattern = 3 ∨ r.pattern = 4 ∨ r.pattern = 5 then (mix (BitVec.ofNat 64 r.seed) k).toNat % g else k % g
  (List.range (unit / 64)).map (fun n => { tier := .cap, chan := chan, off := r.first + unit * i + 64 * n })

/-- Accesses of one channel that moved `bytes` bytes at the port. -/
def trafficCount (r : TrafficRun) (chans bytes : Nat) : Nat := if chans = 0 then 0 else bytes / (if r.pattern = 4 then 64 else 256) / chans

/-- The writes of a run. -/
def storeTraffic (s : State) (port : Nat) (r : TrafficRun) (written : Nat) : State :=
  let chans := (unitOf s .cap port).chans
  let d := (List.replicate 8 (leBytes 8 r.wpat)).flatten
  chans.foldl (fun s c => (List.range (trafficCount r chans.length written)).foldl (fun s k =>
    (trafficPlaces r c k).foldl (fun s p => trafficWrite s p d) s) s) s

/-- A granule that the generator reads is decoded: a CE is counted and not written back, a UE is counted and logged with requester 7, and
memory stays as it is (R147, R159). The counts so far of CE and UE go along. -/
def trafficRead (e : Nat × Nat × State) (p : Place) : Nat × Nat × State :=
  let (ce, ue, s0) := e
  let s := prog s0 (chanUnitId p.tier p.chan) 1 none none 1
  if (chanOf s p.tier p.chan).failed then (ce, ue, chanCount s p.tier p.chan 7)
  else
    match eccDecode (storedData s (cellKey p)) (checkRead s p).1, (checkRead s p).2 with
    | (_, poison, .clean), s => (ce, ue, if poison then chanCount s p.tier p.chan 7 else s)
    | (_, _, .ce _), s => (ce + 1, ue, chanCount s p.tier p.chan 0)
    | (_, _, .ue), s => (ce, ue + 1, chanCount (noteUe s 2 p.tier p.chan p.off noDpa 7) p.tier p.chan 7)

/-- The reads of a run, with the CE and UE found. -/
def readTraffic (s : State) (port : Nat) (r : TrafficRun) (read : Nat) : Nat × Nat × State :=
  let chans := (unitOf s .cap port).chans
  chans.foldl (fun e c => (List.range (trafficCount r chans.length read)).foldl (fun e k => (trafficPlaces r c k).foldl trafficRead e) e) (0, 0, s)

/-- The result record: what the generator measured, and the CE and UE that its reads found. -/
def trafficRecord (m : TrafficResult) (ce ue : Nat) : List Byte :=
  padTo 64 (leBytes 8 m.read ++ leBytes 8 m.written ++ leBytes 8 m.ns ++ leBytes 4 (min ce (2 ^ 32 - 1)) ++ leBytes 4 (min ue (2 ^ 32 - 1)) ++
    leBytes 4 m.meanNs ++ leBytes 4 m.maxNs ++ leBytes 4 m.withheld)

/-- MEM_TRAFFIC_END: the run's duration has passed. -/
def execMemTrafficEnd (port : Nat) (m : TrafficResult) (s : State) : Host.Outcome State Fault Refusal :=
  .next (
    match mfind s.svc.traffic port with
    | none => s
    | some r =>
      let s1 := storeTraffic { s with svc.traffic := mdel s.svc.traffic port } port r m.written
      let (ce, ue, s2) := readTraffic s1 port r m.read
      match hostWrite? s2 r.buffer (trafficRecord m ce ue) with
      | some s3 => finishWait s3 (.traffic port) (if r.tripped then St.thermalAbort else St.ok) []
      | none => finishWait s2 (.traffic port) St.hostFault [])

end Sys2Proof.Machine
end

