-- ==== Sys2Proof/Machine/Arith.lean ====
section
/-! DEFINITION. Arithmetic beside memory (spec/06): contributions at the channel controllers, order contexts, and the reservoir
buffers. -/
namespace Sys2Proof.Machine

/-! ### Operations (R163, R165, R166) -/

def arithKnown (op : Nat) : Bool := decide (1 ≤ op) && decide (op ≤ 12)

/-- Bytes of a lane. -/
def laneBytes (op : Nat) : Nat := if op = 6 ∨ op = 7 then 8 else if op = 2 ∨ op = 3 ∨ op = 12 then 2 else 4

/-- Signed saturation to `w` bits. -/
def satInt (w : Nat) (v : Int) : Nat := intBits w (clampInt (-(2 ^ (w - 1) : Nat)) ((2 ^ (w - 1) : Nat) - 1) v)

def sgn (w v : Nat) : Int := (BitVec.ofNat w v).toInt

/-- One lane: stored a, operand b. -/
def laneOp (op a b : Nat) : Nat :=
  match op with
  | 1 => fadd fp32 a b
  | 2 => fadd bf16 a b
  | 3 => fadd fp16 a b
  | 4 => (a + b) % 2 ^ 32
  | 5 => satInt 32 (sgn 32 a + sgn 32 b)
  | 6 => (a + b) % 2 ^ 64
  | 7 => satInt 64 (sgn 64 a + sgn 64 b)
  | 8 => fmin fp32 a b
  | 9 => fmax fp32 a b
  | 10 => if sgn 32 a ≤ sgn 32 b then a else b
  | 11 => if sgn 32 a ≤ sgn 32 b then b else a
  | _ => min (a + b) 0xFFFF

/-- Whether a lane result is a NaN. -/
def laneNaN (op v : Nat) : Bool :=
  if op = 1 ∨ op = 8 ∨ op = 9 then isNaN fp32 v else if op = 2 then isNaN bf16 v else if op = 3 then isNaN fp16 v else false

/-- A granule after a contribution under a lane mask (R164), and its NaN lanes. -/
def applyLanes (op : Nat) (mask : BitVec 32) (a b : List Byte) : List Byte × Nat :=
  let w := laneBytes op
  let lane (k : Nat) : Nat := laneOp op (fieldN a (w * k) w) (fieldN b (w * k) w)
  let ks := List.range (64 / w)
  ((ks.map (fun k => leBytes w (if mask.getLsbD k then lane k else fieldN a (w * k) w))).flatten,
    (ks.filter (fun k => mask.getLsbD k && laneNaN op (lane k))).length)

/-- The identity that ZERO writes (R171). -/
def identity (op : Nat) : Nat :=
  if op = 8 then 0x7F800000 else if op = 9 then 0xFF800000 else if op = 10 then 0x7FFFFFFF else if op = 11 then 0x80000000 else 0

/-! ### One contribution at its controller (R167 to R169) -/

/-- Why a contribution is refused before it reaches a granule. -/
def contribStatus (s : State) (rq : Requester) (dpa : Nat) : Nat :=
  match whereIs dpa with
  | .region t r =>
    let e := regionEntry s t r
    let p := placeIn s t e dpa
    (firstFail
      [ (eMode e == 0, St.regionInvalid), (match rqPart rq with | some q => !eAccess e q | none => false, St.regionDenied),
        (eWindow e, St.windowFenced), (eFolded e || heldAny s (regionRes t r) 1, St.foldAtomic),
        (!heldAny s (regionRes t r) 2, St.notClaimed), (tripped s t (chanUnit t p.chan), St.thermalAbort),
        ((chanOf s t p.chan).failed, St.poisoned) ]).getD St.ok
  | _ => St.regionInvalid

/-- Entries that an accumulator keeps for one controller (R168, R177). -/
def accRoom : Nat := 64

def accPlace (s : State) (a : AccEntry) : Option Place := (locate s a.dpa).map Prod.fst

/-- The oldest entry of a full accumulator is evicted: all 64 bytes are written. -/
def accEvict (s : State) (p : Place) : State :=
  let mine (a : AccEntry) : Bool := match accPlace s a with | some q => q.tier == p.tier && q.chan == p.chan | none => false
  match s.ari.acc.filter mine with
  | a :: r =>
    if r.length + 1 < accRoom then s
    else match accPlace s a with | some q => chanWrite s q a.dpa a.data false 7 none none | none => accDrop s a.key
  | [] => s

def accPut (s : State) (p : Place) (dpa : Nat) (d : List Byte) : State :=
  let k := cellKey p
  match accFind s k with
  | some _ => { s with ari.acc := s.ari.acc.map (fun a => if a.key = k then { a with data := d } else a) }
  | none => let s1 := accEvict s p; { s1 with ari.acc := s1.ari.acc ++ [{ key := k, dpa := dpa, data := d }] }

/-- A contribution applied at its granule: status, prior value, state. -/
def applyContribution (s0 : State) (rq : Requester) (c : Contribution) (cls : Nat) : Nat × List Byte × State :=
  let st := contribStatus s0 rq c.dpa
  if st ≠ St.ok then (st, zeros 64, s0)
  else
    match locate s0 c.dpa with
    | none => (St.regionInvalid, zeros 64, s0)
    | some (p, _) =>
      let s := cacheYield (watch s0 rq 2 c.dpa 64) c.dpa (some cls)
      let (d, poison, _, s1) := chanRead s p c.dpa 1 2 (rqCode rq) (rqPart rq) (some cls) false
      if poison then (St.poisoned, d, s1)
      else if c.poison then (St.poisoned, d, granuleStore s1 p c.dpa d true)
      else
        let (v, nan) := applyLanes c.op c.mask d c.operand
        let s2 := bumpO (bumpO (accPut s1 p c.dpa v) (rqPart rq) 30 1) (rqPart rq) 31 nan
        (St.ok, d, prog s2 (chanUnitId p.tier p.chan) 7 (rqPart rq) (some cls) 1)

/-! ### Order contexts (R171 to R175) -/

/-- The controller of a granule, as a channel key; an unmapped granule has one of its own. -/
def granuleChan (s : State) (dpa : Nat) : Nat := match locate s dpa with | some (p, _) => chanKey p.tier p.chan | none => 0xFFFF

def ctxGranules (x : OrderCtx) : List Nat := List.range (x.len / 64)

/-- The sequence that a controller is applying: the least count received over the context's granules on it. -/
def currentSeq (s : State) (x : OrderCtx) (chan : Nat) : Nat :=
  (ctxGranules x).foldl (fun m g => if granuleChan s (x.dpa + 64 * g) = chan then min m (mget 0 x.got g) else m) x.e

/-- Whether every granule has received E contributions. -/
def ctxComplete (x : OrderCtx) : Bool := (ctxGranules x).all (fun g => mget 0 x.got g == x.e)

def setCtx (s : State) (i : Nat) (x : OrderCtx) : State := { s with ari.ctxs := mput s.ari.ctxs i x }

/-- A contribution whose sequence is current: applied or refused, it counts as received (R172). -/
def receive (s : State) (rq : Requester) (c : Contribution) (i : Nat) : Nat × State :=
  let (st, _, s1) := applyContribution s rq c 1
  match mfind s1.ari.ctxs i with
  | none => (St.orderRange, s1)
  | some x =>
    let g := (c.dpa - x.dpa) / 64
    (st, setCtx s1 i { x with got := mput x.got g (mget 0 x.got g + 1), applied := x.applied + b2n (st == St.ok),
                              refusal := if x.refusal = 0 then BitVec.ofNat 16 st else x.refusal })

/-- Buffered contributions whose sequence has become current. -/
def drainReorder : Nat → State → State
  | 0, s => s
  | k + 1, s =>
    let ready (b : Buffered) : Bool :=
      match b.con.order with
      | some (i, q) =>
        match mfind s.ari.ctxs i with
        | some x => currentSeq s x b.chan == q && mget 0 x.got ((b.con.dpa - x.dpa) / 64) == q
        | none => false
      | none => false
    match s.ari.reorder.find? ready with
    | some b =>
      match b.con.order with
      | some (i, _) => drainReorder k (receive { s with ari.reorder := s.ari.reorder.erase b } b.req b.con i).2
      | none => s
    | none => s

/-- An ARITH_ORDER_CLOSE that waits completes once its context is complete (R175). -/
def closeIfComplete (s : State) (i : Nat) : State :=
  match mfind s.ari.ctxs i with
  | some x =>
    if ctxComplete x && s.ink.running.any (fun r => r.wait == .order i) then
      finishWait { s with ari.ctxs := mdel s.ari.ctxs i } (.order i) x.refusal.toNat (leBytes 4 x.applied ++ leBytes 4 x.retries)
    else s
  | none => s

/-- An ordered contribution (R172 to R174). One that finds no reorder space is set aside and sent again (R173). -/
def contributeOrdered (s : State) (rq : Requester) (c : Contribution) (i q : Nat) : Nat × State :=
  match mfind s.ari.ctxs i with
  | none => (St.orderRange, s)
  | some x =>
    if q ≥ x.e then (St.orderRange, s)
    else if c.op ≠ x.op ∨ c.dpa < x.dpa ∨ x.dpa + x.len ≤ c.dpa then (St.orderShape, s)
    else
      let chan := granuleChan s c.dpa
      let cur := currentSeq s x chan
      let g := (c.dpa - x.dpa) / 64
      if (match mfind x.dead g with | some n => decide (n ≤ q) | none => false) then (St.thermalAbort, s)
      else if q < cur ∨ q < mget 0 x.got g then (St.orderDuplicate, s)
      else if q = cur then
        let (st, s1) := receive s rq c i
        (st, closeIfComplete (drainReorder s1.ari.reorder.length s1) i)
      else if (s.ari.reorder.filter (fun b => b.chan == chan)).length ≥ 128 then
        (St.ok, { bumpO (setCtx s i { x with retries := x.retries + 1 }) (rqPart rq) 32 1 with
                  ari.aside := s.ari.aside ++ [{ req := rq, con := c, since := s.time }] })
      else (St.ok, { s with ari.reorder := s.ari.reorder ++ [{ req := rq, con := c, chan := chan }] })

/-- A contribution of any requester: status, prior value, state (R164, R167, R174). One that is not refused is charged to its requester's
regulator by its 64 bytes (R130), and they may cross the bridge (R21). -/
def contribute (s0 : State) (rq : Requester) (c : Contribution) (cls : Nat) : Nat × List Byte × State :=
  if !arithKnown c.op || c.dpa % 64 != 0 then (St.arithFormat, zeros 64, s0)
  else
    let s := if contribStatus s0 rq c.dpa = St.ok then cross (charge s0 rq c.dpa 64 cls) rq true c.dpa 64 else s0
    match c.order with
    | none => applyContribution s rq c cls
    | some (i, q) => let (st, s1) := contributeOrdered s rq c i q; (st, zeros 64, s1)

/-- Whether a contribution that would go through waits: at its source, or for a retraining channel (R131, R138). -/
def contribHeld (s : State) (rq : Requester) (c : Contribution) : Bool :=
  arithKnown c.op && c.dpa % 64 == 0 && contribStatus s rq c.dpa == St.ok &&
    (gateHolds s rq c.dpa 64 1 || (retrainingBelow s c.dpa 64).isSome)

/-! ### ARITH_APPLY, ARITH_ORDER_OPEN, ARITH_ORDER_CLOSE (R185) -/

/-- The contribution of a source granule, posted with every lane enabled. -/
def applyGranule (dst op : Nat) (order : Option (Nat × Nat)) (i : Nat) (g : List Byte × Bool) : Contribution :=
  { dpa := dst + 64 * i, op := op, mask := BitVec.allOnes 32, operand := g.1, poison := g.2, order := order }

/-- The contribution set aside last belongs to the reduction `id`. -/
def tagAside (s : State) (id : Nat) : State :=
  match s.ari.aside.getLast? with
  | some a => { s with ari.aside := s.ari.aside.dropLast ++ [{ a with op := some id }] }
  | none => s

/-- Each source granule contributed: the first status that is not OK, how many contributions were set aside, and the state. -/
def arithApply (s : State) (rq : Requester) (src dst len op : Nat) (order : Option (Nat × Nat)) (cls : Nat) : Nat × Nat × State :=
  let id := s.ari.nextApply
  match readGranules s rq src len cls with
  | (st, l, s1) =>
    if st ≠ St.ok then (st, 0, s1)
    else
      (l.zipIdx).foldl (fun (st, n, s) (g, i) =>
        match contribute s rq (applyGranule dst op order i g) cls with
        | (st1, _, s2) =>
          let late := decide (s.ari.aside.length < s2.ari.aside.length)
          (if st = St.ok then st1 else st, n + b2n late, if late then tagAside s2 id else s2)) (St.ok, 0, s1)

/-- A reduction that waits for contributions set aside (R71, R173). -/
def applyWaits (s : State) (queue : Option (Nat × Nat)) (left st : Nat) : State :=
  { s with ari.applies := s.ari.applies ++ [{ id := s.ari.nextApply, queue := queue, left := left, status := BitVec.ofNat 16 st }]
           ari.nextApply := s.ari.nextApply + 1 }

/-- A contribution of a reduction is accepted or refused at its resend; the last one completes the reduction. -/
def applyResent (s : State) (id st : Nat) : State :=
  match s.ari.applies.find? (fun a => a.id == id) with
  | none => s
  | some a =>
    let status := if a.status = 0 then BitVec.ofNat 16 st else a.status
    if a.left > 1 then
      { s with ari.applies := s.ari.applies.map (fun b => if b.id = id then { b with left := b.left - 1, status := status } else b) }
    else
      let s1 := { s with ari.applies := s.ari.applies.filter (fun b => b.id != id) }
      match a.queue with
      | some (p, q) => queueStatus s1 p q status.toNat
      | none => finishWait s1 (.apply id) status.toNat []

/-- Whether a reduction waits: its reads are held, or a channel of its destination is retraining (R131, R138). -/
def applyHeld (s : State) (rq : Requester) (src dst len cls : Nat) : Bool :=
  rangeStatus s rq false src len == St.ok && (accessWaits s rq false src len cls || (retrainingBelow s dst len).isSome)

/-- Checks of ARITH_APPLY and REDUCE, in order. -/
def applyChecks (src dst len op cls : Nat) : List (Bool × Nat) :=
  [ (len == 0 || decide (cls > 3), St.invalidField), (!isDpa src || !isDpa dst, St.badAddress),
    (!arithKnown op || src % 64 != 0 || dst % 64 != 0 || len % 64 != 0, St.arithFormat) ]

def execArithApply (c : Cmd) (s : State) : Host.Outcome State Fault Refusal :=
  .next (firmware { op := 0x0401, need := 29 } (fun c s =>
    checked (applyChecks (p64 c 0) (p64 c 8) (p32 c 16) (p8 c 20) (p8 c 28)) s
      (unheld (applyHeld s (cmdRq c) (p64 c 0) (p64 c 8) (p32 c 16) (p8 c 28))
        (let (st, n, s1) := arithApply s (cmdRq c) (p64 c 0) (p64 c 8) (p32 c 16) (p8 c 20)
           (if bit (p8 c 21) 0 then some (p8 c 22, p32 c 24) else none) (p8 c 28)
         if n = 0 then .done st [] s1 else .wait (.apply s.ari.nextApply) (applyWaits s1 none n st)))) c s)

/-- The lowest free context. -/
def freeCtx (s : State) : Option Nat := (List.range 64).find? (fun i => (mfind s.ari.ctxs i).isNone)

def ctxOverlaps (s : State) (dpa len : Nat) : Bool :=
  s.ari.ctxs.any (fun x => decide (dpa < x.2.dpa + x.2.len) && decide (x.2.dpa < dpa + len))

/-- The identity over a range. -/
def identityBytes (op len : Nat) : List Byte := (List.replicate (len / laneBytes op) (leBytes (laneBytes op) (identity op))).flatten

/-- A context opened over a checked range, with ZERO's writes. -/
def openCtx (s : State) (rq : Requester) (dpa len op e : Nat) (zero : Bool) (coll : Nat) : (Nat × Nat) × State :=
  if ctxOverlaps s dpa len then ((St.orderShape, 0), s)
  else
    match freeCtx s with
    | none => ((St.resourceExhausted, 0), s)
    | some i =>
      let (st, s1) := if zero then writeBytes s rq dpa (identityBytes op len) false 1 else (St.ok, s)
      if st ≠ St.ok then ((st, 0), s1)
      else ((St.ok, i), setCtx s1 i { dpa := dpa, len := len, op := op, e := e, coll := coll })

def execArithOrderOpen (c : Cmd) (s : State) : Host.Outcome State Fault Refusal :=
  .next (firmware { op := 0x0402, need := 16 } (fun c s =>
    let dpa := p64 c 0
    let len := p32 c 8
    checked
      [ (len == 0 || decide (len > 2 ^ 30) || p16 c 14 == 0, St.invalidField), (!isDpa dpa, St.badAddress),
        (!arithKnown (p8 c 12) || dpa % 64 != 0 || len % 64 != 0, St.arithFormat) ] s
      (match openCtx s (cmdRq c) dpa len (p8 c 12) (p16 c 14) (bit (p8 c 13) 0) 0 with
       | ((st, i), s1) => .done st (if st = St.ok then [BitVec.ofNat 8 i] else []) s1)) c s)

/-- A context's granules on a tripped unit: every contribution that they still lack counts as received and fails with THERMAL_ABORT
(R175). -/
def tripCtx (s : State) (t : Tier) (u i : Nat) (x : OrderCtx) : State :=
  let on (g : Nat) : Bool := match locate s (x.dpa + 64 * g) with | some (p, _) => p.tier == t && chanUnit p.tier p.chan == u | none => false
  let gs := (ctxGranules x).filter (fun g => on g && decide (mget 0 x.got g < x.e))
  if gs.isEmpty then s
  else
    setCtx s i { x with got := gs.foldl (fun m g => mput m g x.e) x.got,
                        dead := gs.foldl (fun m g => mput m g (mget 0 x.got g)) x.dead,
                        refusal := if x.refusal = 0 then BitVec.ofNat 16 St.thermalAbort else x.refusal }

/-- The contexts at a trip of a unit: what its reorder buffers hold fails, and contexts that lack nothing more close. The number of
contributions that were queued goes along (R142, R175). -/
def tripOrdered (s : State) (t : Tier) (u : Nat) : Nat × State :=
  let mine (b : Buffered) : Bool := b.chan / 256 == tierNum t && chanUnit t (b.chan % 256) == u
  let n := (s.ari.reorder.filter mine).length
  let s1 := s.ari.ctxs.foldl (fun s e => tripCtx s t u e.1 e.2) { s with ari.reorder := s.ari.reorder.filter (fun b => !mine b) }
  (n, (s1.ari.ctxs.map Prod.fst).foldl closeIfComplete s1)

/-- A context dropped with its buffered contributions; one set aside meets ORDER_RANGE when it is sent again (R174, R175). -/
def dropCtx (s : State) (i : Nat) : State :=
  let names (c : Contribution) : Bool := match c.order with | some (j, _) => j == i | none => false
  { s with ari.ctxs := mdel s.ari.ctxs i, ari.reorder := s.ari.reorder.filter (fun b => !names b.con) }

def execArithOrderClose (c : Cmd) (s : State) : Host.Outcome State Fault Refusal :=
  .next (firmware { op := 0x0403, need := 2 } (fun c s =>
    let i := p8 c 0
    match mfind s.ari.ctxs i with
    | none => .done St.orderRange [] s
    | some x =>
      let res := leBytes 4 x.applied ++ leBytes 4 x.retries
      if ctxComplete x then .done x.refusal.toNat res (dropCtx s i)
      else if bit (p8 c 1) 0 then
        .done St.orderIncomplete res (finishWait (dropCtx s i) (.order i) St.orderIncomplete res)
      else .wait (.order i) s) c s)

/-! ### Reservoir buffers (R179 to R185) -/

/-- A descriptor's fields (R180). -/
structure ResDesc where
  base : Nat
  rows : Nat
  size : Nat
  fmt : Nat
  weights : Bool
  bf : Bool
  n : Nat
  tag : Nat
  dst : Nat
  index : List Nat
  weight : List Nat
deriving DecidableEq, Repr

def descLen (b : List Byte) : Nat := 64 + fieldN b 16 2 * (if bit (fieldN b 15 1) 0 then 8 else 4)

def parseDesc (b : List Byte) : ResDesc :=
  let n := fieldN b 16 2
  { base := fieldN b 0 8, rows := fieldN b 8 4, size := fieldN b 12 2, fmt := fieldN b 14 1, weights := bit (fieldN b 15 1) 0,
    bf := bit (fieldN b 15 1) 1, n := n, tag := fieldN b 20 4, dst := fieldN b 24 8,
    index := (List.range n).map (fun i => fieldN b (64 + 4 * i) 4),
    weight := (List.range n).map (fun i => if bit (fieldN b 15 1) 0 then fieldN b (64 + 4 * n + 4 * i) 4 else 0x3F800000) }

/-- Fields of R180 out of range, or a Reserved field that is not zero. -/
def descBad (b : List Byte) : Bool :=
  let d := parseDesc b
  d.base % 64 != 0 || d.rows == 0 || d.size == 0 || decide (d.size > 256) || decide (d.fmt > 3) || decide (fieldN b 15 1 > 3) ||
    d.n == 0 || decide (d.n > 256) || fieldN b 18 2 != 0 || d.dst % 64 != 0 || fieldN b 32 32 != 0

/-- Descriptors placed end to end, at most 16; none when the buffer ends inside one. -/
def splitDescs : Nat → List Byte → Option (List (List Byte))
  | 0, _ => some []
  | k + 1, b =>
    if b.isEmpty then some []
    else if b.length < 64 then none
    else if fieldN b 16 2 = 0 ∨ fieldN b 16 2 > 256 then some [b.take 64]
    else if b.length < descLen b then none
    else (splitDescs k (b.drop (descLen b))).map (fun l => b.take (descLen b) :: l)

/-- The port that holds a whole table in STACK_LOCAL slices in order (R181). -/
def tablePort (s : State) (d : ResDesc) : Option Nat :=
  let steps := regionSteps d.base (d.rows * d.size * 64)
  let entries := steps.map (fun a => match whereIs a with | .region .cap r => some (regionEntry s .cap r) | _ => none)
  match entries with
  | some e0 :: _ =>
    if entries.zipIdx.all (fun (e, i) => match e with
        | some v => eMode v == 1 && !eFolded v && eUnit v == eUnit e0 && eSlice v == eSlice e0 + i
        | none => false) then some (eUnit e0) else none
  | _ => none

def resRq (part : Nat) : Requester := if part < 4 then .part part else .admin

/-- Why a descriptor cannot be queued. -/
def descStatus (s : State) (part : Nat) (b : List Byte) : Nat :=
  let d := parseDesc b
  if descBad b then St.resDescriptor
  else if !isDpa d.base || !isDpa d.dst then St.badAddress
  else
    match tablePort s d with
    | none => St.resPlacement
    | some u =>
      (firstFail
        [ ((unitOf s .cap u).kind != 1 || (unitOf s .cap u).refused, St.noReservoir),
          (cacheStatusAt s (rqPart (resRq part)) d.base != St.ok, cacheStatusAt s (rqPart (resRq part)) d.base),
          (rangeFenced s d.base (d.rows * d.size * 64), St.windowFenced),
          (!implicitFree s (mkRes 3 u) 2, St.claimConflict) ]).getD St.ok

def slotKey (port channel slot : Nat) : Nat := port * 24 + channel * 4 + slot

/-- The 16-byte status of a slot in the window: state, status code, output bytes, internal bytes read (R179). -/
def slotStatusBytes (x : Slot) : List Byte := [BitVec.ofNat 8 x.state, 0] ++ leBytes 2 x.status.toNat ++ leBytes 4 x.outBytes ++ leBytes 8 x.inBytes

/-- The configuration that the device writes at memory bring-up: M, the presented channel of each stack ordinal, the capacity used (R179). -/
def rbConfig (s : State) (port : Nat) : List Byte :=
  let u := unitOf s .cap port
  [BitVec.ofNat 8 u.chans.length] ++ padTo 7 (u.chans.map (fun c => BitVec.ofNat 8 (c % 8))) ++ leBytes 8 (u.chans.length * u.gran * 256)

/-- `n` bytes of a presented channel's command window at an offset from 0x10_0000_0000 (R179). The doorbell reads 0. -/
def windowBytes (s : State) (port channel off n : Nat) : List Byte :=
  let slot (k : Nat) : Slot := mget {} s.ari.slots (slotKey port channel k)
  if off < 0x4000 then slice (padTo 0x1000 (slot (off / 0x1000)).desc) (off % 0x1000) n
  else if off < 0x4040 then slice (slotStatusBytes (slot ((off - 0x4000) / 16))) (off % 16) n
  else if off < 0x4050 then slice (rbConfig s port) (off - 0x4040) n
  else if 0x10000 ≤ off ∧ off < 0x50000 then slice (padTo 0x10000 (slot (off / 0x10000 - 1)).result) (off % 0x10000) n
  else zeros n

/-- FREE slots of a port that hold no descriptor, in its mapped-in presented channels. -/
def freeSlot (s : State) (port : Nat) : Option Nat :=
  ((List.range 24).map (port * 24 + ·)).find? (fun k =>
    (unitOf s .cap port).chans.contains (8 * port + k % 24 / 4) && (mget {} s.ari.slots k).state == 0 && (mget {} s.ari.slots k).gather == 0)

/-- Waiting descriptors go into free slots: the controller writes them in the RB-2's form (R179, R180). -/
def fillSlots : Nat → State → State
  | 0, s => s
  | k + 1, s =>
    match s.ari.gathers.find? (fun g => g.waiting.any (fun w => (freeSlot s w.1).isSome)) with
    | none => s
    | some g =>
      match g.waiting.find? (fun w => (freeSlot s w.1).isSome) with
      | none => s
      | some w =>
        match freeSlot s w.1 with
        | none => s
        | some sl =>
          fillSlots k { s with ari.slots := mput s.ari.slots sl { mget {} s.ari.slots sl with desc := w.2, gather := g.id }
                               ari.gathers := s.ari.gathers.map (fun x => if x.id = g.id then { x with waiting := x.waiting.erase w } else x) }

/-- The descriptor with its table base as a port offset (R180, R181). -/
def portForm (s : State) (b : List Byte) : List Byte :=
  let base := fieldN b 0 8
  match whereIs base with
  | .region .cap r => overlay b 0 (leBytes 8 (eSlice (regionEntry s .cap r) * 2 ^ 30 + base % 2 ^ 30))
  | _ => b

def portIdle (s : State) (port : Nat) : Bool :=
  !(List.range 24).any (fun i => (mget {} s.ari.slots (port * 24 + i)).gather != 0) &&
    !s.ari.gathers.any (fun g => g.waiting.any (fun w => w.1 == port))

/-- The descriptors of a RES_GATHER or GATHER_RES queued; each failing one counts at once (R184, R185). -/
def startGather (s : State) (part : Nat) (queue : Option (Nat × Nat)) (cls : Nat) (ds : List (List Byte)) : Nat × State :=
  let id := s.ari.nextGather
  let g0 : Gather := { id := id, part := part, queue := queue, left := 0, done := 0, status := 0, failTag := 0, cls := cls, waiting := [] }
  let (g, s1) := ds.foldl (fun (g, s) b =>
    let st := descStatus s part b
    if st = St.ok then
      match tablePort s (parseDesc b) with
      | some u => ({ g with left := g.left + 1, waiting := g.waiting ++ [(u, portForm s b)] }, grant s (mkRes 3 u) 2 0xFE)
      | none => (g, s)
    else if g.status = 0 then ({ g with status := BitVec.ofNat 16 st, failTag := fieldN b 20 4 }, s) else (g, s)) (g0, s)
  (id, fillSlots 16 { s1 with ari.gathers := s1.ari.gathers ++ [g], ari.nextGather := id + 1 })

def gatherResult (g : Gather) : List Byte := leBytes 2 g.done ++ leBytes 2 0 ++ leBytes 4 g.failTag

/-- A gather whose last descriptor has ended completes its command. -/
def gatherEnd (s : State) (id : Nat) : State :=
  match s.ari.gathers.find? (fun g => g.id == id) with
  | none => s
  | some g =>
    if g.left ≠ 0 then s
    else
      let s1 := { s with ari.gathers := s.ari.gathers.filter (fun x => x.id != id) }
      match g.queue with
      | some (p, q) => queueStatus s1 p q g.status.toNat
      | none => finishWait s1 (.gather id) g.status.toNat (gatherResult g)

def execResGather (c : Cmd) (s : State) : Host.Outcome State Fault Refusal :=
  .next (firmware { op := 0x0404, need := 64, ext := true } (fun c s =>
    match splitDescs 16 (body c) with
    | none => .done St.invalidLength [] s
    | some ds =>
      let (id, s1) := startGather s ((cmdPart c).getD 0xFF) none 1 ds
      match s1.ari.gathers.find? (fun g => g.id == id) with
      | some g =>
        if g.left = 0 then .done g.status.toNat (gatherResult g) { s1 with ari.gathers := s1.ari.gathers.filter (fun x => x.id != id) }
        else .wait (.gather id) s1
      | none => .done St.ok [] s1) c s)

/-- Whether a port's gathers wait: their regulator holds the class (R131). -/
def gatherHeld (s : State) (g : Gather) : Bool := match regKey (resRq g.part) .cap with | some r => regHolds s r g.cls | none => false

/-- Writing the doorbell starts a slot that holds a descriptor and is FREE (R179); the write waits for a retraining presented channel and
for the regulator (R131, R155). -/
def execReservoirDoorbell (port channel slot : Nat) (s : State) : Host.Outcome State Fault Refusal :=
  let k := slotKey port channel slot
  let x := mget {} s.ari.slots k
  .next (
    match s.ari.gathers.find? (fun g => g.id == x.gather) with
    | none => s
    | some g =>
      if x.gather = 0 ∨ x.state ≠ 0 ∨ (chanOf s .cap (8 * port + channel)).retraining ∨ gatherHeld s g then s
      else { s with ari.slots := mput s.ari.slots k { x with state := 1 } })

/-- A stored granule as an RB-2 reads it: not through the staging cache or the accumulators (R116, R178). -/
def rb2Granule (s : State) (p : Place) (dpa : Nat) : List Byte × Bool :=
  let k := cellKey p
  if (chanOf s p.tier p.chan).failed then (zeros 64, true)
  else if genOf s dpa ≠ 0 ∧ mget 0 s.mem.granGens k ≠ genOf s dpa then ((List.range 64).map (fun i => Config.freeCell (genOf s dpa) (k + i)), false)
  else
    match eccDecode (storedData s k) (storedCheck s k) with
    | (d, _, .ue) => (d, true)
    | (d, poison, _) => (d, poison)

/-- The DPA of a byte of the table, from its port offset: the region that holds the slice. -/
def sliceDpa (s : State) (port off : Nat) : Option Nat :=
  (s.mem.capRegions.ovr.find? (fun e => eMode e.2.toNat == 1 && eUnit e.2.toNat == port && eSlice e.2.toNat == off / 2 ^ 30)).map
    (fun e => regionBase .cap e.1 + off % 2 ^ 30)

/-- A row of the table: bytes and poison. -/
def rowBytes (s : State) (port : Nat) (d : ResDesc) (i : Nat) : List Byte × Bool :=
  let gs := (List.range d.size).map (fun k =>
    match sliceDpa s port (d.base + (i * d.size + k) * 64) with
    | some a => match locate s a with | some (p, _) => rb2Granule s p a | none => (zeros 64, true)
    | none => (zeros 64, true))
  ((gs.map Prod.fst).flatten, gs.any Prod.snd)

def rowFormat : Nat → FFormat
  | 0 => e4m3
  | 1 => e5m2
  | 2 => bf16
  | _ => fp32

/-- Elements of a row converted to FP32. -/
def rowElems (fmt : Nat) (b : List Byte) : List Nat :=
  let f := rowFormat fmt
  let w := f.width / 8
  (List.range (b.length / w)).map (fun k => fconvert f fp32 false (fieldN b (w * k) w))

/-- The gather of R182 over rows in index order: output bytes and poison. -/
def gatherRows (s : State) (port : Nat) (d : ResDesc) : List Byte × Bool :=
  let w := (rowFormat d.fmt).width / 8
  let acc0 : List Nat := List.replicate (d.size * 64 / w) 0
  let (acc, poison) := (d.index.zip d.weight).foldl (fun (acc, poison) (i, wt) =>
    let (b, p) := rowBytes s port d i
    (List.zipWith (fun e a => ffma fp32 wt e a) (rowElems d.fmt b) acc, poison || p)) (acc0, false)
  ((acc.map (fun v => if d.bf then leBytes 2 (fconvert fp32 bf16 false v) else leBytes 4 v)).flatten, poison)

/-- The run of a slot ends: DONE with its result, or ERROR (R179, R182). What fills the last granule of an output that is no multiple of
64 bytes is free (log 13). -/
def slotRun (s : State) (port : Nat) (x : Slot) : Slot × State :=
  let d := parseDesc x.desc
  let err (st : Nat) : Slot := { x with state := 3, status := BitVec.ofNat 16 st, outBytes := 0, inBytes := 0, result := [], poison := false }
  if tripped s .cap port then (err St.thermalAbort, s)
  else if d.index.any (fun i => decide (i ≥ d.rows)) then (err St.resBounds, s)
  else
    let (out, poison) := gatherRows s port d
    let (fill, s1) := freeBytes s ((64 - out.length % 64) % 64)
    ({ x with state := 2, status := 0, outBytes := out.length, inBytes := d.n * d.size * 64, result := out ++ fill, poison := poison }, s1)

/-- Whether the result of a slot waits: its presented channel is retraining, or its destination's accesses are held. -/
def collectHeld (s : State) (port k : Nat) (g : Gather) (x : Slot) : Bool :=
  (chanOf s .cap (8 * port + k % 24 / 4)).retraining ||
    (x.state == 2 && accessWaits s (resRq g.part) true (parseDesc x.desc).dst x.result.length g.cls)

/-- The result written to its destination: a folded region refuses it always (R200), and the bytes may cross the bridge (R21). -/
def gatherWrite (s : State) (port : Nat) (g : Gather) (x : Slot) : Nat × State :=
  let dst := (parseDesc x.desc).dst
  let rq := resRq g.part
  if touchesFolded s dst x.result.length then
    (match rangeStatus s rq true dst x.result.length with | 0 => St.foldPartial | st => st, s)
  else
    match writeBytes s rq dst x.result x.poison g.cls with
    | (st, s1) => if st = St.ok then (st, crossRange s1 (unitDie .cap port) (rqPart rq) true dst x.result.length) else (st, s1)

/-- The controller finds a slot DONE or ERROR, reads the result, writes the destination and frees the slot (R179, R182). -/
def slotCollect (s : State) (port k : Nat) (x : Slot) (g : Gather) : State :=
  let (st, s1) :=
    if x.state = 3 then (x.status.toNat, s)
    else
      let s0 := match regKey (resRq g.part) .cap with | some r => chargeReg s r (x.inBytes / 2) | none => s
      match gatherWrite s0 port g x with
      | (st, s2) => (if st = St.ok ∧ x.poison then St.poisoned else st, s2)
  let g1 := { g with left := g.left - 1, done := g.done + b2n (st == St.ok), status := if g.status = 0 then BitVec.ofNat 16 st else g.status,
                     failTag := if g.status = 0 ∧ st ≠ St.ok then (parseDesc x.desc).tag else g.failTag }
  let s2 := { s1 with
    ari.slots := mput s1.ari.slots k { x with state := 0, gather := 0 }
    ari.gathers := s1.ari.gathers.map (fun y => if y.id = g.id then g1 else y)
    ari.resDone := mput s1.ari.resDone port (mget 0 s1.ari.resDone port + b2n (st == St.ok))
    ari.resFailed := mput s1.ari.resFailed port (mget 0 s1.ari.resFailed port + b2n (st != St.ok))
    ari.resBytes := mput s1.ari.resBytes port (mget 0 s1.ari.resBytes port + x.inBytes) }
  let s3 := fillSlots 16 (bumpO s2 (rqPart (resRq g.part)) 16 x.inBytes)
  gatherEnd (if portIdle s3 port then implicitRelease s3 (mkRes 3 port) 2 else s3) g.id

/-- RESERVOIR_SLOT_DONE: a running slot ends, and the controller takes its result as soon as its accesses are not held. -/
def execReservoirSlotDone (port channel slot : Nat) (s : State) : Host.Outcome State Fault Refusal :=
  let k := slotKey port channel slot
  let x := mget {} s.ari.slots k
  .next (
    if x.state = 0 then s
    else
      let (y, s1) := if x.state = 1 then slotRun s port x else (x, s)
      let s2 := { s1 with ari.slots := mput s1.ari.slots k y }
      match s.ari.gathers.find? (fun g => g.id == x.gather) with
      | none => { s2 with ari.slots := mput s1.ari.slots k { y with state := 0, gather := 0 } }
      | some g => if collectHeld s2 port k g y then s2 else slotCollect s2 port k y g)

def execResStatus (c : Cmd) (s : State) : Host.Outcome State Fault Refusal :=
  .next (firmware { op := 0x0405, need := 16 } (fun c s =>
    let p := p8 c 0
    let busy := ((List.range 24).filter (fun i => (mget {} s.ari.slots (p * 24 + i)).gather != 0)).length
    checked [(decide (p > 15), St.invalidField), ((unitOf s .cap p).kind != 1 || (unitOf s .cap p).refused, St.noReservoir)] s
      (reportTo (p64 c 8) (padTo 8 [BitVec.ofNat 8 busy] ++ leBytes 8 (mget 0 s.ari.resDone p) ++ leBytes 8 (mget 0 s.ari.resBytes p) ++
        leBytes 8 (mget 0 s.ari.resFailed p)) [] s)) c s)

end Sys2Proof.Machine
end

