-- ==== Sys2Proof/Machine/Fold.lean ====
section
/-! DEFINITION. Folded tensors (spec/07): block headers, expansion arithmetic, basis tables, folded layouts, expanders with their checks,
the coding of the FOLD instruction and the folding commands. -/
namespace Sys2Proof.Machine

/-! ### Blocks (R188 to R192) -/

/-- Granules read of a slot for a ratio code, 0 for a Reserved code (R188). -/
def ratioGranules : Nat → Nat
  | 1 => 32 | 2 => 22 | 3 => 16 | 4 => 11 | 5 => 8 | _ => 0

/-- Columns of an output format (R190). -/
def outCols : Nat → Nat
  | 0 => 64 | 3 => 32 | _ => 128

def outFormat : Nat → FFormat
  | 0 => bf16 | 1 => e4m3 | 2 => e5m2 | _ => fp32

structure Header where
  out : Nat
  coef : Nat
  ratio : Nat
  rank : Nat
  mask : Nat
  len : Nat
  basis : Nat
  bscale : Nat
  crc : Nat
  reserved : Bool                     -- a Reserved field is not zero
deriving DecidableEq, Repr

def parseHeader (b : List Byte) : Header :=
  let f := fieldN b 0 1
  { out := bits f 3 2, coef := bits f 1 0, ratio := bits f 7 4, rank := bits (fieldN b 1 1) 5 0, mask := fieldN b 2 1, len := fieldN b 3 1,
    basis := bits (fieldN b 4 2) 11 0, bscale := fieldN b 8 4, crc := fieldN b 14 2,
    reserved := bits (fieldN b 1 1) 7 6 != 0 || bits (fieldN b 4 2) 15 12 != 0 || fieldN b 6 2 != 0 || fieldN b 12 2 != 0 }

/-- Bytes of a coefficient row (R191). -/
def rowBytesOf (coef r : Nat) : Nat := if coef = 0 then 2 * r else if coef = 1 then 1 + r else 1 + (r + 1) / 2

/-- The length that a header implies (R191). -/
def impliedLen (coef r mask : Nat) : Nat := (16 + popcount 8 mask * 4 * rowBytesOf coef r + 63) / 64

/-- The CRC of a block of `len` granules (R192). -/
def blockCrc (b : List Byte) (len : Nat) : Nat := crc16 (slice b 0 14 ++ slice b 16 (64 * len - 16))

/-! ### Expansion (R193) -/

/-- A BF16 value as FP32. -/
def bfWide (v : Nat) : Nat := v * 65536

/-- v[j][k] of a basis table of maximum rank `rmax` (R194). -/
def basisAt (t : List Byte) (rmax j k : Nat) : Nat := bfWide (fieldN t (64 + 2 * (j * rmax + k)) 2)

/-- Coefficients of the row that starts at `o` (R191, R193). -/
def coefRow (b : List Byte) (coef r o : Nat) : List Nat :=
  if coef = 0 then (List.range r).map (fun k => bfWide (fieldN b (o + 2 * k) 2))
  else
    let sc := e8m0 (fieldN b o 1)
    (List.range r).map (fun k =>
      let v := if coef = 1 then fdecode e4m3 (fieldN b (o + 1 + k) 1)
        else fdecode e2m1 (fieldN b (o + 1 + k / 2) 1 / (if k % 2 = 0 then 1 else 16) % 16)
      fencode fp32 false (fvMul v sc))

/-- One row of the tile. -/
def expandRow (h : Header) (t : List Byte) (rmax : Nat) (cs : List Nat) : List Byte :=
  let f := outFormat h.out
  ((List.range (outCols h.out)).map (fun j =>
    let acc := (cs.zipIdx).foldl (fun a (c, k) => ffma fp32 c (basisAt t rmax j k) a) 0
    leBytes (f.width / 8) (convertOut f (fmul fp32 acc h.bscale)))).flatten

/-- Offset of row i's coefficients in the block. -/
def rowOffset (h : Header) (i : Nat) : Nat :=
  16 + (popcount 8 (h.mask % 2 ^ (i / 4)) * 4 + i % 4) * rowBytesOf h.coef h.rank

/-- The logical tile of a block: 4 KiB (R187, R193). -/
def expandBlock (b t : List Byte) : List Byte :=
  let h := parseHeader b
  let rmax := fieldN t 2 1
  ((List.range 32).map (fun i =>
    if h.mask.testBit (i / 4) then expandRow h t rmax (coefRow b h.coef h.rank (rowOffset h i)) else zeros 128)).flatten

/-! ### Basis tables (R194, R195) -/

/-- The table with its CRC field taken as 0. -/
def basisCrcOk (t : List Byte) : Bool := (crc32 (overlay t 12 (zeros 4))).toNat == fieldN t 12 4

/-- Every field of R194, for the ID of the payload. -/
def basisOk (t : List Byte) (id : Nat) : Bool :=
  fieldN t 0 1 == 1 && decide (fieldN t 1 1 ≤ 3) && decide (1 ≤ fieldN t 2 1) && decide (fieldN t 2 1 ≤ 32) &&
    fieldN t 4 2 == outCols (fieldN t 1 1) && fieldN t 6 2 == id && decide (id < 4096) &&
    fieldN t 8 4 == 64 + 2 * fieldN t 4 2 * fieldN t 2 1 && t.length == fieldN t 8 4 && basisCrcOk t

def basisLen (b : Basis) : Nat := 64 + 2 * b.cols * b.rank

/-- Whether [dpa, dpa + len) lies within one valid fast-tier region, not folded and not in the window. -/
def basisPlaced (s : State) (dpa len : Nat) : Bool :=
  match whereIs dpa with
  | .region .fast r =>
    let e := regionEntry s .fast r
    eMode e != 0 && !eFolded e && !eWindow e && decide (dpa % 2 ^ 30 + len ≤ 2 ^ 30)
  | _ => false

def execFoldBasisLoad (c : Cmd) (s : State) : Host.Outcome State Fault Refusal :=
  .next (firmware { op := 0x0501, need := 10, vf := false } (fun c s =>
    let dpa := p64 c 0
    let id := p16 c 8
    if !isDpa dpa then .done St.badAddress [] s
    else if !basisPlaced s dpa 64 then .done St.foldPlacement [] s
    else
      match readBytes s .admin dpa 64 1 with
      | (st, h, poison, s1) =>
        if st ≠ St.ok then .done st [] s1
        else if poison then .done St.poisoned [] s1
        else
          let len := fieldN h 8 4
          if len < 64 ∨ len > 64 + 2 * 128 * 32 then .done St.basisFormat [] s1
          else if !basisPlaced s1 dpa len then .done St.foldPlacement [] s1
          else
            match readBytes s1 .admin dpa len 1 with
            | (st2, t, poison2, s2) =>
              checked [(st2 != St.ok, st2), (poison2, St.poisoned), (!basisOk t id, St.basisFormat),
                       ((mfind s2.fold.basis id).isSome, St.basisInUse)] s2
                (let b : Basis := ⟨dpa, fieldN t 1 1, fieldN t 2 1, fieldN t 4 2⟩
                 .done St.ok [] { s2 with fold.basis := mput s2.fold.basis id b })) c s)

/-- Whether a lane still waits to use a table. -/
def basisBusy (s : State) (id : Nat) : Bool := s.fold.exps.any (fun e => e.2.filling.any (fun l => l.basis == id))

def execFoldBasisUnload (c : Cmd) (s : State) : Host.Outcome State Fault Refusal :=
  .next (firmware { op := 0x0502, need := 2, vf := false } (fun c s =>
    let id := p16 c 0
    if (mfind s.fold.basis id).isNone then .done St.basisAbsent [] s
    else
      let s1 := { s with
        fold.basis := mdel s.fold.basis id
        fold.exps := s.fold.exps.map (fun (k, e) => (k, { e with cache := e.cache.filter (fun t => t.1 != id) })) }
      if basisBusy s1 id then .wait (.basis id) s1 else .done St.ok [] s1) c s)

def execFoldBasisQuery (c : Cmd) (s : State) : Host.Outcome State Fault Refusal :=
  .next (firmware { op := 0x0503, need := 2, vf := false } (fun c s =>
    match mfind s.fold.basis (p16 c 0) with
    | none => .done St.basisAbsent [] s
    | some b => .done St.ok (leBytes 8 b.dpa ++ [BitVec.ofNat 8 b.fmt, BitVec.ofNat 8 b.rank] ++ leBytes 2 b.cols) s) c s)

/-! ### Folded layouts (R197) -/

def foldKey (t : Tier) (r : Nat) : Nat := tierNum t * 4096 + r

/-- The run of a layout command lies in its tier. -/
def runBad (c : Cmd) : Bool := decide (p8 c 0 > 1) || p16 c 4 == 0 || decide (p16 c 2 + p16 c 4 > regionCount (tierOf (p8 c 0)))

def runOf (c : Cmd) : List Nat := (List.range (p16 c 4)).map (p16 c 2 + ·)

def execFoldLayoutLoad (c : Cmd) (s : State) : Host.Outcome State Fault Refusal :=
  .next (firmware { op := 0x0504, need := 8, vf := false } (fun c s =>
    let t := tierOf (p8 c 0)
    let summary := bit (p8 c 7) 0
    checked
      [ (runBad c || ratioGranules (p8 c 6) == 0 || (decide (p8 c 6 ≥ 4) && !summary) || decide (p8 c 7 > 1), St.invalidField),
        ((runOf c).any (fun r => let e := regionEntry s t r; eMode e == 0 || eWindow e || eFolded e), St.foldPlacement) ] s
      (match claimAll 1 ((runOf c).map (regionRes t)) s with
       | .inr (r, h) => .done St.claimConflict (claimResult r h.mode h.owner) s
       | .inl s1 =>
         .done St.ok [] ((runOf c).foldl (fun s r =>
           let f := flushRegion s t r
           let g := setEntry f t r (withBit (regionEntry f t r) 3 true)
           spoil { g with mem.folded := mput g.mem.folded (foldKey t r) { ratio := p8 c 6, summary := summary } } t r) s1))) c s)

def execFoldLayoutUnload (c : Cmd) (s : State) : Host.Outcome State Fault Refusal :=
  .next (firmware { op := 0x0505, need := 6, vf := false } (fun c s =>
    let t := tierOf (p8 c 0)
    checked [(runBad c, St.invalidField), ((runOf c).any (fun r => !eFolded (regionEntry s t r)), St.notFolded)] s
      (.done St.ok [] ((runOf c).foldl (fun s r =>
        let f := flushRegion s t r
        let g := implicitRelease (setEntry f t r (withBit (regionEntry f t r) 3 false)) (regionRes t r) 1
        spoil { g with mem.folded := mdel g.mem.folded (foldKey t r) } t r) s))) c s)

/-! ### Expanders (R202 to R208) -/

/-- The expander that serves a channel (R202). -/
def expanderOf (s : State) (t : Tier) (c : Nat) : Nat :=
  match t with
  | .fast => c / 4
  | .cap =>
    let port := c / 8
    let pair := port / 2
    let both := (unitOf s .cap (2 * pair)).kind == 1 && (unitOf s .cap (2 * pair + 1)).kind == 1
    64 + 3 * pair + (if both then (6 * (port % 2) + c % 8) / 4 else c % 3)

def expOf (s : State) (x : Nat) : Expander := mget {} s.fold.exps x
def setExp (s : State) (x : Nat) (e : Expander) : State := { s with fold.exps := mput s.fold.exps x e }

/-- The die of an expander. -/
def expDie (x : Nat) : Nat := if x < 64 then x / 32 else (x - 64) / 12

def foldInfo (s : State) (dpa : Nat) : Option FoldInfo :=
  match whereIs dpa with
  | .region t r => mfind s.mem.folded (foldKey t r)
  | _ => none

/-- Why a slot cannot be expanded at all; a trip decides each block by itself (R201, R208). -/
def slotStatus (s : State) (rq : Requester) (dpa : Nat) : Nat :=
  if !isDpa dpa then St.badAddress
  else
    let st := accessStatus s rq dpa
    if dpa % 4096 ≠ 0 ∨ (foldInfo s dpa).isNone then St.notFolded
    else if st = St.thermalAbort then St.ok
    else st

/-- One granule read for expander `x`: ordered at its cache, read at its channel, and forwarded across the bridge where the expander lies
on the other die (R21, R116, R203). -/
def expandGranule (s : State) (rq : Requester) (x dpa cls : Nat) : List Byte × Bool × State :=
  let s1 := cacheYield s dpa (some cls)
  match locate s1 dpa with
  | some (p, _) =>
    let (d, poison, _, s2) := chanRead s1 p dpa 1 2 (rqCode rq) (rqPart rq) (some cls) false
    (d, poison, crossing s2 (chanDie p.tier p.chan) (expDie x) (rqPart rq) 64)
  | none => (zeros 64, true, s1)

/-- The read fraction of a slot: bytes, poison of each granule, state. -/
def readSlot (s : State) (rq : Requester) (x dpa n cls : Nat) : List Byte × List Bool × State :=
  (List.range n).foldl (fun (b, ps, s) i =>
    let (d, p, s1) := expandGranule s rq x (dpa + 64 * i) cls
    (b ++ d, ps ++ [p], s1)) ([], [], s)

/-- Checks 1 to 8 of R207 on a slot as read: status, reason and the CRC computed, or none when all pass. -/
def blockFails (s : State) (ratio : Nat) (b : List Byte) (poison : List Bool) : Option (Nat × Nat × Nat) :=
  let h := parseHeader b
  let crc := blockCrc b h.len
  let n := ratioGranules ratio
  if poison.getD 0 false || (decide (1 ≤ h.len) && (poison.take h.len).any id) then some (St.poisoned, 0, 0)
  else if h.len = 0 ∨ h.len > n then some (St.foldLength, 0x10, 0)
  else if crc ≠ h.crc then some (St.foldCheck, 0x01, crc)
  else if h.ratio ≠ ratio then some (St.foldCheck, 0x03, crc)
  else if h.coef = 3 ∨ h.rank = 0 ∨ h.rank > 32 ∨ h.reserved then some (St.foldCheck, 0x02, crc)
  else
    match mfind s.fold.basis h.basis with
    | none => some (St.foldCheck, 0x04, crc)
    | some v =>
      if v.fmt ≠ h.out ∨ v.rank < h.rank then some (St.foldCheck, 0x05, crc)
      else if h.len ≠ impliedLen h.coef h.rank h.mask then some (St.foldLength, 0x11, crc)
      else none

/-- A fault record, its count and FOLD_FAULT at the expander's first of the line (R208, R215, R216). -/
def foldFault (s : State) (x reason crc : Nat) (rq : Requester) (dpa : Nat) (b : List Byte) : State :=
  let r := leBytes 8 (stamp s).toNat ++ leBytes 4 s.rul.epoch.toNat ++ [BitVec.ofNat 8 reason, BitVec.ofNat 8 x, BitVec.ofNat 8 (rqCode rq), 0] ++
    leBytes 6 dpa ++ leBytes 2 crc ++ slice b 0 8
  let e := expOf s x
  let n := if e.line = s.rul.line then e.inLine + 1 else 1
  let e1 := { e with line := s.rul.line, inLine := n, checks := satAdd 32 e.checks (b2n (decide (reason < 0x10))),
                     lengths := satAdd 32 e.lengths (b2n (decide (reason ≥ 0x10))) }
  let s1 := bumpO { setExp s x e1 with fold.logs := mmod {} s.fold.logs (expDie x) (fun l => logPush 256 l r) } (rqPart rq) 40 1
  if n = 1 then
    post s1 0x0501 ((rqPart rq).getD 0xFF) ([BitVec.ofNat 8 reason, BitVec.ofNat 8 x] ++ leBytes 2 n ++ leBytes 6 dpa) false
  else s1

/-- A failed block: record where R208 asks for one, and the count of poisoned blocks. -/
def noteFail (s : State) (x : Nat) (f : Nat × Nat × Nat) (rq : Requester) (dpa : Nat) (b : List Byte) : State :=
  if f.1 = St.poisoned then setExp s x { expOf s x with poisoned := satAdd 32 (expOf s x).poisoned 1 }
  else if f.2.1 = 0 then s
  else foldFault s x f.2.1 f.2.2 rq dpa b

/-- The tile of expander `x`, or the poisoned zero tile, reaches its destination; its bytes may cross the bridge (R21, R203, R208). -/
def deliver (s : State) (r : ExpandReq) (x index : Nat) (tile : List Byte) (poison : Bool) : Nat × State :=
  let s1 := bumpO s (rqPart r.req) 15 4096
  match r.dest with
  | .memory d =>
    match writeBytes s1 r.req (d + 4096 * index) tile poison r.cls with
    | (st, s2) => (st, if st = St.ok then crossRange s2 (expDie x) (rqPart r.req) true (d + 4096 * index) 4096 else s2)
  | .scratch n a =>
    let s2 := setCore s1 n (spadWrite (coreOf s1 n) (a + 4096 * index) tile poison)
    (St.ok, crossing s2 (expDie x) (coreQuad s2 n / 2) (rqPart r.req) 4096)

/-- A request whose last block has been delivered completes; that of an XEXP stays for XEXP_COMPLETE. -/
def requestEnd (s : State) (id : Nat) (r : ExpandReq) : State :=
  if r.left ≠ 0 then s
  else
    match r.dest with
    | .scratch _ _ => s
    | .memory _ =>
      let s1 := { s with fold.reqs := mdel s.fold.reqs id }
      match r.queue with
      | some (p, q) => queueStatus s1 p q r.status.toNat
      | none => finishWait s1 (.expand id) r.status.toNat (leBytes 4 r.delivered)

/-- The outcome of one block of a request. -/
def blockDone (s : State) (x : Nat) (b : Block) (status : Nat) (tile : List Byte) : State :=
  match mfind s.fold.reqs b.req with
  | none => s
  | some r =>
    let (wst, s1) := deliver s r x b.index (if status = St.ok then tile else zeros 4096) (status != St.ok)
    let st := if status ≠ St.ok then status else wst
    let first := st != St.ok && (r.status == 0 || decide (b.index < r.statusAt))
    let r1 := { r with left := r.left - 1, delivered := r.delivered + b2n (st == St.ok), status := if first then BitVec.ofNat 16 st else r.status,
                       statusAt := if first then b.index else r.statusAt }
    requestEnd { s1 with fold.reqs := mput s1.fold.reqs b.req r1 } b.req r1

/-- Most recently used table first, 16 at most (R205). -/
def cacheBasis (e : Expander) (id : Nat) (t : List Byte) : Expander :=
  { e with cache := ((id, t) :: e.cache.filter (fun c => c.1 != id)).take 16 }

def countBlock (s : State) (x : Nat) (part : Option Nat) (b : List Byte) : State :=
  prog (prog (setExp s x { expOf s x with blocks := (expOf s x).blocks + 1 }) (0x3000 + x) 1 part none 1) (0x3000 + x) 3 part none
    (popcount 8 (parseHeader b).mask)

/-- A basis miss of an expander (R213, R426). -/
def countMiss (s : State) (x : Nat) (part : Option Nat) : State :=
  prog (setExp s x { expOf s x with misses := satAdd 32 (expOf s x).misses 1 }) (0x3000 + x) 4 part none 1

/-- Whether any granule that an expansion reads of a slot lies on a tripped unit (R143, R208). -/
def slotTripped (s : State) (dpa n : Nat) : Bool := (List.range n).any (fun i => dpaTripped s (dpa + 64 * i))

/-- Whether the granules of a block have not all arrived: its reads are held, or a channel of them is retraining (R131, R155, R204); or its
tile's write is. -/
def blockHeld (s : State) (b : Block) : Bool :=
  match mfind s.fold.reqs b.req, foldInfo s b.dpa with
  | some r, some f =>
    let n := ratioGranules f.ratio
    !slotTripped s b.dpa n &&
      (gateHolds s r.req b.dpa (64 * n) r.cls || (retrainingBelow s b.dpa (64 * n)).isSome ||
        match r.dest with | .memory d => accessWaits s r.req true (d + 4096 * b.index) 4096 r.cls | .scratch _ _ => false)
  | _, _ => false

/-- The class that a held read has come to by promotions (R127): `waited` units at class `cls`. -/
def agedClass (aging : List Nat) : Nat → Nat → Nat
  | 0, _ => 0
  | cls + 1, waited => let limit := aging.getD cls 0 * 1000 * 65536; if waited ≤ limit then cls + 1 else agedClass aging cls (waited - limit)

/-- Held expansion reads enter the input queue while it has room: highest class, then age (R126, R204). -/
def admitBlocks (x : Nat) : Nat → State → State
  | 0, s => s
  | k + 1, s =>
    let e := expOf s x
    if e.queue.length ≥ 48 then s
    else
      match sortBy (fun a b => decide (agedClass s.svc.aging a.cls (s.time - a.since) < agedClass s.svc.aging b.cls (s.time - b.since))) e.held with
      | h :: _ => admitBlocks x k (setExp s x { e with queue := e.queue ++ [h.block], held := e.held.erase h })
      | [] => s

/-- A lane takes the oldest queued block (R204, R207). -/
def expandOne (s : State) (x : Nat) (b : Block) : State :=
  match mfind s.fold.reqs b.req, foldInfo s b.dpa with
  | some r, some f =>
    let n := ratioGranules f.ratio
    if slotTripped s b.dpa n then blockDone s x b St.thermalAbort []
    else
      let s0 := bumpO (charge (watch s r.req 3 b.dpa (64 * n)) r.req b.dpa (64 * n) r.cls) (rqPart r.req) 14 (64 * n)
      let (bytes, poison, s1) := readSlot s0 r.req x b.dpa n r.cls
      let s2 := countBlock s1 x (rqPart r.req) bytes
      match blockFails s2 f.ratio bytes poison with
      | some e => blockDone (noteFail s2 x e r.req b.dpa bytes) x b e.1 []
      | none =>
        let id := (parseHeader bytes).basis
        match (expOf s2 x).cache.find? (fun c => c.1 == id) with
        | some c => blockDone (setExp s2 x (cacheBasis (expOf s2 x) id c.2)) x b St.ok (expandBlock bytes c.2)
        | none =>
          let e := expOf s2 x
          let lane : Lane := { basis := id, dpa := (mfind s2.fold.basis id).elim 0 (·.dpa), block := b, bytes := bytes }
          countMiss (setExp s2 x { e with filling := e.filling ++ [lane] }) x (rqPart r.req)
  | some _, none => blockDone s x b St.notFolded []
  | none, _ => s

/-- BLOCK_EXPAND: a free lane takes the oldest queued block whose granules have all arrived; a lane that waits for a basis table is not
free (R204, R205). -/
def execBlockExpand (expander : Nat) (s : State) : Host.Outcome State Fault Refusal :=
  let e := expOf s expander
  .next (
    if e.filling.length ≥ 32 then s
    else
      match e.queue.find? (fun b => !blockHeld s b) with
      | some b => admitBlocks expander 48 (expandOne (setExp s expander { e with queue := e.queue.erase b }) expander b)
      | none => s)

/-- The table at its DPA, read in LATENCY class on no partition's behalf; none when it is poisoned or fails its CRC (R205, R207). -/
def fetchBasis (s : State) (dpa : Nat) : Option (List Byte) × State :=
  match readBytes s .admin dpa 64 0 with
  | (_, h, poison, s1) =>
    let len := 64 + 2 * fieldN h 4 2 * fieldN h 2 1
    match readBytes s1 .admin dpa len 0 with
    | (st, t, poison2, s2) => (if st = St.ok ∧ !poison ∧ !poison2 ∧ basisCrcOk t then some t else none, s2)

/-- FOLD_BASIS_UNLOAD completes when no lane uses its table any more (R196). -/
def unloadIfFree (s : State) (id : Nat) : State := if basisBusy s id then s else finishWait s (.basis id) St.ok []

/-- BASIS_CACHE_FILL: the oldest waiting lane's table arrives (R205, step 9 of R207). A table that
has been unloaded since is used and not cached (R196). -/
def fillOne (s : State) (x : Nat) (l : Lane) : State :=
  let (t, s1) := fetchBasis s l.dpa
  let rq := match mfind s1.fold.reqs l.block.req with | some r => r.req | none => .device
  let s2 := match t with
    | some t =>
      let loaded := match mfind s1.fold.basis l.basis with | some b => b.dpa == l.dpa | none => false
      blockDone (if loaded then setExp s1 x (cacheBasis (expOf s1 x) l.basis t) else s1) x l.block St.ok (expandBlock l.bytes t)
    | none => blockDone (foldFault s1 x 0x06 (parseHeader l.bytes).crc rq l.block.dpa l.bytes) x l.block St.foldCheck []
  unloadIfFree s2 l.basis

def execBasisCacheFill (expander : Nat) (s : State) : Host.Outcome State Fault Refusal :=
  let e := expOf s expander
  .next (match e.filling with | l :: r => fillOne (setExp s expander { e with filling := r }) expander l | [] => s)

/-! ### Expansion requests (R201, R213) -/

/-- The blocks of a request enter the queues of their expanders, or are held while those are full (R204). -/
def enqueueBlocks (s : State) (id dpa n cls : Nat) : State :=
  (List.range n).foldl (fun s i =>
    let a := dpa + 4096 * i
    match locate s a with
    | some (p, _) =>
      let x := expanderOf s p.tier p.chan
      let e := expOf s x
      let b : Block := { req := id, dpa := a, index := i }
      setExp s x (if e.queue.length < 48 then { e with queue := e.queue ++ [b] }
                  else { e with held := e.held ++ [{ block := b, cls := cls, since := s.time }] })
    | none => s) s

/-- A request over checked slots: its number and the state. -/
def startExpand (s : State) (rq : Requester) (dpa n : Nat) (dest : ExpandDest) (cls : Nat) (queue : Option (Nat × Nat)) : Nat × State :=
  let id := s.fold.nextReq
  let r : ExpandReq := { req := rq, dest := dest, cls := cls, left := n, delivered := 0, status := 0, statusAt := 0, queue := queue }
  (id, enqueueBlocks { s with fold.reqs := mput s.fold.reqs id r, fold.nextReq := id + 1 } id dpa n cls)

def slotsStatus (s : State) (rq : Requester) (dpa n : Nat) : Nat := firstBad ((List.range n).map (fun i => slotStatus s rq (dpa + 4096 * i)))

/-- Checks of FOLD_EXPAND and FOLD_COPY, in order. -/
def expandChecks (s : State) (rq : Requester) (src dst n cls : Nat) : List (Bool × Nat) :=
  [ (n == 0 || decide (cls > 3), St.invalidField), (!isDpa src || !isDpa dst || dst % 4096 != 0, St.badAddress),
    (slotsStatus s rq src n != St.ok, slotsStatus s rq src n), (touchesFolded s dst (4096 * n), St.foldPlacement),
    (rangeStatus s rq true dst (4096 * n) != St.ok, rangeStatus s rq true dst (4096 * n)) ]

def execFoldExpand (c : Cmd) (s : State) : Host.Outcome State Fault Refusal :=
  .next (firmware { op := 0x0506, need := 21 } (fun c s =>
    checked (expandChecks s (cmdRq c) (p64 c 0) (p64 c 8) (p32 c 16) (p8 c 20)) s
      (let (id, s1) := startExpand s (cmdRq c) (p64 c 0) (p32 c 16) (.memory (p64 c 8)) (p8 c 20) none
       .wait (.expand id) s1)) c s)

/-- One block under R207 without delivery: its status and reason. -/
def verifyOne (s : State) (rq : Requester) (dpa : Nat) : Nat × Nat × State :=
  match foldInfo s dpa, locate s dpa with
  | some f, some (p, _) =>
    let x := expanderOf s p.tier p.chan
    let n := ratioGranules f.ratio
    if slotTripped s dpa n then (St.thermalAbort, 0, s)
    else
      let (b, poison, s1) := readSlot (charge s rq dpa (64 * n) 2) rq x dpa n 2
      match blockFails s1 f.ratio b poison with
      | some e => (e.1, e.2.1, noteFail s1 x e rq dpa b)
      | none =>
        let id := (parseHeader b).basis
        match (expOf s1 x).cache.find? (fun c => c.1 == id) with
        | some c => (St.ok, 0, setExp s1 x (cacheBasis (expOf s1 x) id c.2))
        | none =>
          match fetchBasis (countMiss s1 x (rqPart rq)) ((mfind s1.fold.basis id).elim 0 (·.dpa)) with
          | (some t, s2) => (St.ok, 0, setExp s2 x (cacheBasis (expOf s2 x) id t))
          | (none, s2) => (St.foldCheck, 0x06, foldFault s2 x 0x06 (parseHeader b).crc rq dpa b)
  | _, _ => (St.notFolded, 0, s)

/-- Whether a FOLD_VERIFY waits for a slot's reads (R131, R155). -/
def verifyHeld (s : State) (rq : Requester) (dpa n : Nat) : Bool :=
  (List.range n).any (fun i =>
    let a := dpa + 4096 * i
    match foldInfo s a with
    | some f => gateHolds s rq a (64 * ratioGranules f.ratio) 2 || (retrainingBelow s a (64 * ratioGranules f.ratio)).isSome
    | none => false)

def execFoldVerify (c : Cmd) (s : State) : Host.Outcome State Fault Refusal :=
  .next (firmware { op := 0x0507, need := 26 } (fun c s =>
    let dpa := p64 c 0
    let n := p32 c 8
    checked [(slotsStatus s (cmdRq c) dpa n != St.ok, slotsStatus s (cmdRq c) dpa n)] s
      (unheld (verifyHeld s (cmdRq c) dpa n)
      (let (fails, s1) := (List.range n).foldl (fun (l, s) i =>
         let a := dpa + 4096 * i
         let (st, reason, s2) := verifyOne s (cmdRq c) a
         (if st = St.ok then l else l ++ [padTo 16 (leBytes 8 a ++ leBytes 2 st ++ [BitVec.ofNat 8 reason])], s2)) ([], s)
       reportTo (p64 c 16) ((fails.take (p16 c 24)).flatten) (leBytes 4 n ++ leBytes 4 fails.length) s1))) c s)

def execFoldFaultRead (c : Cmd) (s : State) : Host.Outcome State Fault Refusal :=
  .next (firmware { op := 0x0508, need := 11, vf := false } (fun c s =>
    let l := mget {} s.fold.logs (p8 c 10)
    let (rs, l1) := logTake l (p16 c 8)
    checked [(decide (p8 c 10 > 1), St.invalidField)] s
      (reportTo (p64 c 0) rs.flatten (leBytes 2 rs.length ++ leBytes 4 l.overwritten) { s with fold.logs := mput s.fold.logs (p8 c 10) l1 })) c s)

def expanderBytes (e : Expander) : List Byte :=
  leBytes 8 e.blocks ++ leBytes 4 e.checks ++ leBytes 4 e.lengths ++ leBytes 4 e.poisoned ++ leBytes 4 e.misses ++ leBytes 4 e.full ++ zeros 4

def execFoldCounters (c : Cmd) (s : State) : Host.Outcome State Fault Refusal :=
  .next (firmware { op := 0x0509, need := 16, vf := false } (fun c s =>
    checked [(decide (p8 c 0 + p8 c 1 > 88), St.invalidField)] s
      (reportTo (p64 c 8) (((List.range (p8 c 1)).map (fun i => expanderBytes (expOf s (p8 c 0 + i)))).flatten) [] s)) c s)

/-! ### The coding of FOLD (R211) -/

/-- The greatest of some FP32 magnitudes, 0 of none. -/
def maxMag (l : List Nat) : Nat := l.foldl (fun m v => if v % 2 ^ 31 > m then v % 2 ^ 31 else m) 0

/-- floor(log2 v) of a positive finite FP32 magnitude. -/
def floorLog2 (v : Nat) : Int := match fdecode fp32 v with | .fin _ m e => e + bitLen m - 1 | _ => 128

/-- A row's scale byte (R211, step 2). -/
def foldScale (coef : Nat) (row : List Nat) : Nat :=
  let m := maxMag row
  if m = 0 then 127 else (clampInt 0 254 (floorLog2 m - (if coef = 1 then 8 else 2) + 127)).toNat

/-- A coefficient coded against a scale, rounded to nearest even, saturating. -/
def foldCode (coef scale v : Nat) : Nat :=
  if coef = 0 then fconvert fp32 bf16 false v
  else
    let x := fvMul (fdecode fp32 v) (.fin false 1 (127 - (scale : Int)))
    fencode (if coef = 1 then e4m3 else e2m1) true x

/-- p[i][k] = sum over j of tile[i][j] / bscale * v[j][k], in FP32 (R211, step 1). -/
def project (tile : List Nat) (bscale : Nat) (t : List Byte) (rmax k : Nat) : Nat :=
  (tile.zipIdx).foldl (fun a (x, j) => ffma fp32 (fdiv fp32 x bscale) (basisAt t rmax j k) a) 0

/-- Coded rows at a rank: scale and codes of each of the 32 rows. -/
def codeRows (coef r : Nat) (p : List (List Nat)) : List (Nat × List Nat) :=
  p.map (fun row => let l := row.take r; let sc := if coef = 0 then 0 else foldScale coef l; (sc, l.map (foldCode coef sc)))

/-- Magnitude bits of a code; a negative zero is zero. -/
def codeMag (coef v : Nat) : Nat := if coef = 0 then v % 2 ^ 15 else if coef = 1 then v % 128 else v % 8

def maskRows (coef : Nat) (rows : List (Nat × List Nat)) : Nat :=
  maskOf ((List.range 8).filter (fun g => ((rows.drop (4 * g)).take 4).any (fun r => r.2.any (fun v => codeMag coef v != 0))))

/-- Step 4: the largest rank from `r` down whose implied length fits `n` granules for the MASK at rank r0. -/
def fitRank (coef mask n : Nat) : Nat → Option Nat
  | 0 => none
  | r + 1 => if impliedLen coef (r + 1) mask ≤ n then some (r + 1) else fitRank coef mask n r

/-- Bytes of a coded row (R191). -/
def packRow (coef : Nat) (r : Nat × List Nat) : List Byte :=
  if coef = 0 then (r.2.map (leBytes 2)).flatten
  else if coef = 1 then BitVec.ofNat 8 r.1 :: r.2.map (BitVec.ofNat 8)
  else BitVec.ofNat 8 r.1 :: (chunks 2 r.2).map (fun l => BitVec.ofNat 8 (l.getD 0 0 + 16 * l.getD 1 0))

/-- The block that FOLD writes and the rank used; none when no rank fits. -/
def foldTile (tile : List Byte) (b : Basis) (id : Nat) (t : List Byte) (ratio coef r0 bscale : Nat) : Option (List Byte × Nat) :=
  let f := outFormat b.fmt
  let w := f.width / 8
  let elem (i j : Nat) : Nat := fconvert f fp32 false (fieldN tile (128 * i + w * j) w)
  let p := (List.range 32).map (fun i => (List.range r0).map (project ((List.range b.cols).map (elem i)) bscale t b.rank))
  let mask0 := maskRows coef (codeRows coef r0 p)
  match fitRank coef mask0 (ratioGranules ratio) r0 with
  | none => none
  | some r =>
    let rows := codeRows coef r p
    let mask := maskRows coef rows
    let len := impliedLen coef r mask
    let head := [BitVec.ofNat 8 (coef + 4 * b.fmt + 16 * ratio), BitVec.ofNat 8 r, BitVec.ofNat 8 mask, BitVec.ofNat 8 len] ++ leBytes 2 id ++ zeros 2 ++
      leBytes 4 bscale ++ zeros 2
    let kept := rows.zipIdx.filter (fun (_, i) => mask.testBit (i / 4))
    let raw := padTo (64 * len) (head ++ zeros 2 ++ ((kept.map (fun (r, _) => packRow coef r)).flatten))
    some (overlay raw 14 (leBytes 2 (blockCrc raw len)), r)

end Sys2Proof.Machine
end

