-- ==== Sys2Proof/Machine/CoreScalar.lean ====
section
/-! DEFINITION. The Nib core (spec/08): kernel faults, and the scalar instructions. A row carries the instruction's fields (log 14). -/
namespace Sys2Proof.Machine

/-! ### Kernel faults (R248 to R250, R253) -/

def cIllegal : Nat := 1
def cMisaligned : Nat := 2
def cBounds : Nat := 3
def cAddress : Nat := 4
def cPoison : Nat := 5
def cFoldEncode : Nat := 6
def cLedger : Nat := 7
def cDestReset : Nat := 8
def cThermal : Nat := 9

/-- The cause of a fabric instruction's status (R248). -/
def causeOf (st : Nat) : Nat := if st = St.destReset then cDestReset else if st = St.thermalAbort then cThermal else cAddress

/-- Contiguous ranges of discarded granules: start and length. -/
def rangesOf : List Nat → List (Nat × Nat)
  | [] => []
  | a :: r =>
    match rangesOf r with
    | (b, n) :: rest => if a + 64 = b then (a, n + 64) :: rest else (a, 64) :: (b, n) :: rest
    | [] => [(a, 64)]

/-- Byte 23 and the two ranges of a core fault record (R250); a granule bound for a peer has its global address (log 47). -/
def faultRanges (stores : List StoreGranule) : Nat × List Byte :=
  let l := rangesOf (stores.map (fun g => g.peer.getD 0 * 2 ^ 48 + g.dpa))
  let enc (r : Nat × Nat) : List Byte := leBytes 8 r.1 ++ leBytes 8 r.2
  match l with
  | [] => (0, zeros 32)
  | [a] => (1, enc a ++ zeros 16)
  | [a, b] => (2, enc a ++ enc b)
  | a :: r =>
    let lo := r.foldl (fun m x => min m x.1) a.1
    let hi := r.foldl (fun m x => max m (x.1 + x.2)) (a.1 + a.2)
    (0xFF, enc (lo, hi - lo) ++ zeros 16)

/-- Whether a granule store was bound for bytes of this device's memory or of a scratchpad. -/
def spoilable (g : StoreGranule) : Bool :=
  g.peer.isNone && (match whereIs g.dpa with | .region _ _ => true | .scratch _ _ => true | _ => false)

/-- Destination bytes of discarded granules are indeterminate: free values (R249, R412, log 13). -/
def spoilStores (s : State) (stores : List StoreGranule) : State :=
  stores.foldl (fun s g =>
    if spoilable g then
      let (b, s1) := freeBytes s 64
      (writeWindow s1 .device g.dpa b false g.cls).2
    else s) s

/-- A core fault record of the core's die (R250). -/
def logCoreFault (s : State) (n part queue pc st cause : Nat) (addr : Nat) (stores : List StoreGranule) : State :=
  let (k, rs) := faultRanges stores
  let r := leBytes 8 (stamp s).toNat ++ leBytes 4 s.rul.epoch.toNat ++ [BitVec.ofNat 8 part, BitVec.ofNat 8 queue] ++ leBytes 2 n ++
    leBytes 4 pc ++ leBytes 2 st ++ [BitVec.ofNat 8 cause, BitVec.ofNat 8 k] ++ leBytes 8 addr ++ rs
  { s with cpu.faults := mmod {} s.cpu.faults (quadDie (coreQuad s n)) (fun l => logPush 64 l r) }

/-- The faulting core stops and discards its store queue; the other cores of the kernel stop at their next instruction, and what they
have issued goes on (R249, log 47). -/
def stopKernel (s : State) (n : Nat) : State :=
  let c := coreOf s n
  let s1 := setCore s n { c with run := .faulted, stores := [], xwrs := [], xfers := [], twait := none, fence := false, tsigs := [] }
  match c.job with
  | some (p, q) =>
    (queueOf s1 p q).cores.foldl (fun s m =>
      let x := coreOf s m
      if m ≠ n ∧ x.run = .running then setCore s m { x with run := .halted, twait := none } else s) s1
  | none => s1

/-- A fault of core `n` (R249, R433, R449). A status or address that the manual does not state is a free value. -/
def coreFault (s0 : State) (n cause : Nat) (status addr : Option Nat) : State :=
  let (w, s00) := freeWord s0
  let (v, s) := freeWord s00
  let st := status.getD (w.toNat % 65536)
  let a := addr.getD v.toNat
  let c := coreOf s n
  let (p, q) := c.job.getD (0, 0)
  let s1 := logCoreFault (blot s n 5 (some p) (c.pc % 2 ^ 32 + cause * 2 ^ 32 + st % 65536 * 2 ^ 40)) n p q c.pc st cause a c.stores
  let s2 := bump (spoilStores (stopKernel s1 n) c.stores) p 41 1
  let s3 := post s2 0x0601 p ([BitVec.ofNat 8 cause, BitVec.ofNat 8 q] ++ leBytes 2 n ++ leBytes 2 st) false
  if mget false s3.obs.freezeOnFault p then freeze s3 p 2 else s3

/-! ### Issue (R217, R219) -/

/-- Whether a core can issue: it runs, and no register named waits for a TWAIT. -/
def canIssue (c : Core) (regs : List Nat) : Bool :=
  c.run == .running && (match c.twait with | some w => !regs.contains w.reg.toNat | none => true)

/-- A scratchpad page with an incomplete XRD or XEXP into it (R227). -/
def pageBusy (c : Core) (a len : Nat) : Bool :=
  c.xfers.any (fun x => len != 0 && x.len != 0 && decide (x.dst / 4096 ≤ (a + len - 1) / 4096) && decide (a / 4096 ≤ (x.dst + x.len - 1) / 4096))

/-- A scratchpad page that an incomplete XWR has not yet read (R227). -/
def pageUnread (c : Core) (a len : Nat) : Bool :=
  c.xwrs.any (fun x => len != 0 && decide (x.src / 4096 ≤ (a + len - 1) / 4096) && decide (a / 4096 ≤ (x.src + x.len - 1) / 4096))

/-- An instruction that writes scratchpad waits while an XWR has yet to read a page of it (R227, log 47). -/
def afterReads (n : Nat) (writes : Core → List (Nat × Nat)) (s t : State) : State :=
  if (writes (coreOf s n)).any (fun r => pageUnread (coreOf s n) r.1 r.2) then s else t

/-- The word at the program counter; none outside the loaded code, where the manual gives the instruction store no content (log 14). -/
def wordAt (c : Core) : Option (BitVec 64) :=
  if c.pc + 8 ≤ c.code.length then some (BitVec.ofNat 64 (fieldN c.code c.pc 8)) else none

/-- Whether the core may fetch the word `w`: it is the word at the program counter (R217, R219). -/
def fetches (c : Core) (w : BitVec 64) : Bool := (wordAt c).getD w == w

/-- The next instruction. -/
def advance (c : Core) : Core := { c with pc := c.pc + 8 }

def issued (s : State) (n : Nat) : State := prog s n 1 (corePart s n) none 1

/-- Whether a core's scratchpad sources are there: no XRD or XEXP into them is incomplete, and no TWAIT before the read is pending
(R227, R240). -/
def readsReady (c : Core) (reads : List (Nat × Nat)) : Bool :=
  !reads.any (fun r => pageBusy c r.1 r.2) && (reads.isEmpty || c.twait.isNone)

/-- The instruction `w` at the program counter of a core that may issue, once its scratchpad sources are there; otherwise nothing
happens (R217, R219, R227). -/
def coreExecR (n : Nat) (w : BitVec 64) (regs : List Nat) (reads : Core → List (Nat × Nat)) (s : State) (f : Core → State → State) : State :=
  let c := coreOf s n
  if n < coreCount s ∧ canIssue c regs ∧ fetches c w ∧ readsReady c (reads c) then f c (issued s n) else s

/-- The same for an instruction without scratchpad sources. -/
def coreExec (n : Nat) (w : BitVec 64) (regs : List Nat) (s : State) (f : Core → State → State) : State :=
  coreExecR n w regs (fun _ => []) s f

/-- A scalar operation, MAJOR `k`, whose result goes to xA. -/
def scalarOp (n k : Nat) (f : Fields) (s : State) (op : BitVec 64 → BitVec 64 → BitVec 64 → BitVec 64) : State :=
  coreExec n (wordOf k f) [fA f, fB f, fC f] s (fun c s =>
    setCore s n (advance (xset c (fA f) (op (xget c (fB f)) (xget c (fC f)) (f.imm.signExtend 64)))))

/-! ### Scalar instructions (R220) -/

def execAdd (core : Nat) (f : Fields) (s : State) : Host.Outcome State Fault Refusal := .next (scalarOp core 0x00 f s (fun b c i => b + c + i))
def execSub (core : Nat) (f : Fields) (s : State) : Host.Outcome State Fault Refusal := .next (scalarOp core 0x01 f s (fun b c _ => b - c))
def execMul (core : Nat) (f : Fields) (s : State) : Host.Outcome State Fault Refusal := .next (scalarOp core 0x02 f s (fun b c _ => b * c))
def execAnd (core : Nat) (f : Fields) (s : State) : Host.Outcome State Fault Refusal := .next (scalarOp core 0x03 f s (fun b c _ => b &&& c))
def execOr (core : Nat) (f : Fields) (s : State) : Host.Outcome State Fault Refusal := .next (scalarOp core 0x04 f s (fun b c _ => b ||| c))
def execXor (core : Nat) (f : Fields) (s : State) : Host.Outcome State Fault Refusal := .next (scalarOp core 0x05 f s (fun b c _ => b ^^^ c))

/-- The shift amount (xC + IMM)[5:0]. -/
def shiftBy (c i : BitVec 64) : Nat := (c + i).toNat % 64

def execShl (core : Nat) (f : Fields) (s : State) : Host.Outcome State Fault Refusal := .next (scalarOp core 0x06 f s (fun b c i => b <<< shiftBy c i))
def execShr (core : Nat) (f : Fields) (s : State) : Host.Outcome State Fault Refusal := .next (scalarOp core 0x07 f s (fun b c i => b >>> shiftBy c i))
def execSra (core : Nat) (f : Fields) (s : State) : Host.Outcome State Fault Refusal :=
  .next (scalarOp core 0x08 f s (fun b c i => b.sshiftRight (shiftBy c i)))
def execLi (core : Nat) (f : Fields) (s : State) : Host.Outcome State Fault Refusal := .next (scalarOp core 0x09 f s (fun _ _ i => i))

/-- A scratchpad address: register plus IMM. -/
def spadAddr (c : Core) (f : Fields) : Nat := (xget c (fB f) + f.imm.signExtend 64).toNat

/-- A local scratchpad access: aligned, within bounds, and for a read not poisoned (R220, R225). -/
def spadAccess (n a len : Nat) (isRead : Bool) (align : Nat) (c : Core) (s : State) (f : State → State) : State :=
  if a % align ≠ 0 then coreFault s n cMisaligned none (some a)
  else if a + len > spadSize then coreFault s n cBounds none (some a)
  else if isRead && spadPoisoned c a len then coreFault s n cPoison (some St.poisoned) (some a)
  else f (bumpO s (corePart s n) (if isRead then 5 else 6) len)

def execLd (core : Nat) (f : Fields) (s : State) : Host.Outcome State Fault Refusal :=
  .next (coreExecR core (wordOf 0x0A f) [fA f, fB f] (fun c => [(spadAddr c f, 8)]) s (fun c s =>
    spadAccess core (spadAddr c f) 8 true 8 c s (fun s =>
      setCore s core (advance (xset c (fA f) (BitVec.ofNat 64 (leNat (spadRead core c (spadAddr c f) 8))))))))

def execSt (core : Nat) (f : Fields) (s : State) : Host.Outcome State Fault Refusal :=
  .next (afterReads core (fun c => [(spadAddr c f, 8)]) s (coreExec core (wordOf 0x0B f) [fA f, fB f] s (fun c s =>
    spadAccess core (spadAddr c f) 8 false 8 c s (fun s =>
      setCore s core (advance (spadWrite c (spadAddr c f) (leBytes 8 (xget c (fA f)).toNat) false))))))

/-- The branch condition that A selects; none for a code that is not listed. -/
def branchCond (a : Nat) (x y : BitVec 64) : Option Bool :=
  match a with
  | 0 => some (x == y)
  | 1 => some (x != y)
  | 2 => some (x.slt y)
  | 3 => some (!x.slt y)
  | 4 => some (x.ult y)
  | 5 => some (!x.ult y)
  | 6 => some true
  | _ => none

def execBr (core : Nat) (f : Fields) (s : State) : Host.Outcome State Fault Refusal :=
  .next (coreExec core (wordOf 0x0C f) [fB f, fC f] s (fun c s =>
    match branchCond (fA f) (xget c (fB f)) (xget c (fC f)) with
    | none => coreFault s core cIllegal none none
    | some false => setCore s core (advance c)
    | some true => setCore s core { c with pc := (BitVec.ofNat 64 c.pc + f.imm.signExtend 64 * 8).toNat }))

/-- A special of CSR (R220); none for a code that is not listed. -/
def special (s : State) (core k : Nat) : Option (BitVec 64) :=
  match k with
  | 0 => some (BitVec.ofNat 64 core)
  | 1 => some (BitVec.ofNat 64 ((indexOf? (· == core) (partCores s ((corePart s core).getD 0))).getD 0))
  | 2 => some (BitVec.ofNat 64 ((corePart s core).getD 0))
  | 3 => some (stamp s)
  | 4 => some (s.rul.epoch.setWidth 64)
  | _ => none

def execCsr (core : Nat) (f : Fields) (s : State) : Host.Outcome State Fault Refusal :=
  .next (coreExec core (wordOf 0x0D f) [fA f] s (fun c s =>
    match special s core (immBits f 3 0) with
    | some v => setCore s core (advance (xset c (fA f) v))
    | none => coreFault s core cIllegal none none))

/-- HALT ends the core's part of the kernel (R236, R433). -/
def execHalt (core : Nat) (f : Fields) (s : State) : Host.Outcome State Fault Refusal :=
  .next (coreExec core (wordOf 0x0E f) [] s (fun c s =>
    setCore (blot s core 4 (corePart s core) (c.pc % 2 ^ 32)) core { c with run := .halted }))

/-- An instruction word whose MAJOR no class lists raises ILLEGAL (R219, R248); a word whose MAJOR is listed is another row's. -/
def execIllegal (core : Nat) (word : BitVec 64) (s : State) : Host.Outcome State Fault Refusal :=
  .next (coreExec core word [] s (fun _ s1 =>
    if majorListed (word.toNat / 2 ^ 56) then s else coreFault s1 core cIllegal none none))

end Sys2Proof.Machine
end

