-- ==== Sys2Proof/Machine/CoreVector.lean ====
section
/-! DEFINITION. The vector and matrix instructions of the Nib core (R220 to R223). -/
namespace Sys2Proof.Machine

/-- A vector register number that exists (R218). -/
def isV (r : Nat) : Bool := decide (r < 32)
/-- An accumulator tile number that exists. -/
def isA (r : Nat) : Bool := decide (r < 4)

/-- An instruction that names a register that does not exist raises ILLEGAL (log 15). -/
def vecExec (n : Nat) (w : BitVec 64) (regs vs : List Nat) (s : State) (f : Core → State → State) : State :=
  coreExec n w regs s (fun c s => if vs.all isV then f c s else coreFault s n cIllegal none none)

/-- A lane-wise operation, vector code `k`, of two sources and the destination's old lanes. -/
def laneWise (n k : Nat) (f : Fields) (s : State) (op : Nat → Nat → Nat → Nat) : State :=
  vecExec n (wordOf (0x40 + k) f) [] [fA f, fB f, fC f] s (fun c s =>
    let a := vget c (fA f)
    let b := vget c (fB f)
    let d := vget c (fC f)
    setCore s n (advance (vset c (fA f) ((List.range 64).map (fun i =>
      BitVec.ofNat 32 (op (b.getD i 0).toNat (d.getD i 0).toNat (a.getD i 0).toNat))))))

/-- A lane-wise function of one source. -/
def laneMap (n k : Nat) (f : Fields) (s : State) (op : Nat → Nat) : State :=
  vecExec n (wordOf (0x40 + k) f) [] [fA f, fB f] s (fun c s =>
    setCore s n (advance (vset c (fA f) ((vget c (fB f)).map (fun v => BitVec.ofNat 32 (op v.toNat))))))

def execVadd (core : Nat) (f : Fields) (s : State) : Host.Outcome State Fault Refusal := .next (laneWise core 0 f s (fun b c _ => fadd fp32 b c))
def execVsub (core : Nat) (f : Fields) (s : State) : Host.Outcome State Fault Refusal := .next (laneWise core 1 f s (fun b c _ => fsub fp32 b c))
def execVmul (core : Nat) (f : Fields) (s : State) : Host.Outcome State Fault Refusal := .next (laneWise core 2 f s (fun b c _ => fmul fp32 b c))
def execVfma (core : Nat) (f : Fields) (s : State) : Host.Outcome State Fault Refusal := .next (laneWise core 3 f s (fun b c a => ffma fp32 b c a))
def execVmax (core : Nat) (f : Fields) (s : State) : Host.Outcome State Fault Refusal := .next (laneWise core 4 f s (fun b c _ => fmax fp32 b c))
def execVmin (core : Nat) (f : Fields) (s : State) : Host.Outcome State Fault Refusal := .next (laneWise core 5 f s (fun b c _ => fmin fp32 b c))
def execVexp2 (core : Nat) (f : Fields) (s : State) : Host.Outcome State Fault Refusal := .next (laneMap core 6 f s fexp2)
def execVrcp (core : Nat) (f : Fields) (s : State) : Host.Outcome State Fault Refusal := .next (laneMap core 7 f s frcp)
def execVrsqrt (core : Nat) (f : Fields) (s : State) : Host.Outcome State Fault Refusal := .next (laneMap core 8 f s frsqrt)

def execVdup (core : Nat) (f : Fields) (s : State) : Host.Outcome State Fault Refusal :=
  .next (vecExec core (wordOf 0x49 f) [fB f] [fA f] s (fun c s =>
    setCore s core (advance (vset c (fA f) (List.replicate 64 ((xget c (fB f)).setWidth 32))))))

/-- Lanes of 256 bytes and back. -/
def lanesOf (b : List Byte) : List (BitVec 32) := (List.range 64).map (fun i => BitVec.ofNat 32 (fieldN b (4 * i) 4))
def laneBytesOf (v : List (BitVec 32)) : List Byte := (v.map (fun x => leBytes 4 x.toNat)).flatten

def execVld (core : Nat) (f : Fields) (s : State) : Host.Outcome State Fault Refusal :=
  .next (coreExecR core (wordOf 0x4A f) [fB f] (fun c => [(spadAddr c f, 256)]) s (fun c s =>
    if !isV (fA f) then coreFault s core cIllegal none none
    else
      spadAccess core (spadAddr c f) 256 true 256 c s (fun s =>
        setCore s core (advance (vset c (fA f) (lanesOf (spadRead core c (spadAddr c f) 256)))))))

def execVst (core : Nat) (f : Fields) (s : State) : Host.Outcome State Fault Refusal :=
  .next (afterReads core (fun c => [(spadAddr c f, 256)]) s (vecExec core (wordOf 0x4B f) [fB f] [fA f] s (fun c s =>
    spadAccess core (spadAddr c f) 256 false 256 c s (fun s =>
      setCore s core (advance (spadWrite c (spadAddr c f) (laneBytesOf (vget c (fA f))) false))))))

/-- The target of VCVT: bits of a result, and the conversion; none for a code that is not listed. -/
def vcvtTo (k : Nat) : Option (Nat × (Nat → Nat)) :=
  match k with
  | 0 => some (32, fun v => fconvert fp32 fp32 false v)
  | 1 => some (16, fun v => convertOut bf16 v)
  | 2 => some (16, fun v => convertOut fp16 v)
  | 3 => some (8, fun v => convertOut e4m3 v)
  | 4 => some (8, fun v => convertOut e5m2 v)
  | 5 => some (32, ftoInt32)
  | _ => none

/-- Free 32-bit lanes, for the lanes above the packed results (log 13). -/
def freeLanes (s : State) (n : Nat) : List (BitVec 32) × State :=
  ((List.range n).map (fun i => (Config.freeWord (s.free + i)).setWidth 32), { s with free := s.free + n })

def execVcvt (core : Nat) (f : Fields) (s : State) : Host.Outcome State Fault Refusal :=
  .next (vecExec core (wordOf 0x4C f) [] [fA f, fB f] s (fun c s =>
    match vcvtTo (immBits f 3 0) with
    | none => coreFault s core cIllegal none none
    | some (w, g) =>
      let packed := ((vget c (fB f)).map (fun v => leBytes (w / 8) (g v.toNat))).flatten
      let k := packed.length / 4
      let (fill, s1) := freeLanes s (64 - k)
      setCore s1 core (advance (vset c (fA f) ((lanesOf packed).take k ++ fill)))))

/-- VSUM: xA[31:0] is the sum; the manual gives bits [63:32] no value, so they are free (log 13). -/
def execVsum (core : Nat) (f : Fields) (s : State) : Host.Outcome State Fault Refusal :=
  .next (vecExec core (wordOf 0x4D f) [fA f] [fB f] s (fun c s =>
    let v : BitVec 32 := BitVec.ofNat 32 (vsumLanes ((vget c (fB f)).map BitVec.toNat))
    let (w, s1) := freeWord s
    setCore s1 core (advance (xset c (fA f) (w.extractLsb' 32 32 ++ v)))))

def execVperm (core : Nat) (f : Fields) (s : State) : Host.Outcome State Fault Refusal :=
  .next (vecExec core (wordOf 0x4E f) [] [fA f, fB f, fC f] s (fun c s =>
    let b := vget c (fB f)
    setCore s core (advance (vset c (fA f) ((vget c (fC f)).map (fun i => b.getD (i.toNat % 64) 0))))))

/-! ### Matrix instructions (R222, R223) -/

/-- K, operand bytes and scales of a format code; 0 for a code that is not listed. -/
def mmaK (k : Nat) : Nat := if k = 0 then 16 else if k ≤ 6 then 32 else if k = 7 then 64 else 0
def mmaBytes (k : Nat) : Nat := if k = 5 ∨ k = 6 then 768 else 1024
def mmaScales (k : Nat) : Nat := if k = 7 then 2 else if 3 ≤ k ∧ k ≤ 6 then 1 else 0
def mmaSpan (k : Nat) : Nat := mmaBytes k + 32 * mmaScales k

def mmaFormat : Nat → FFormat
  | 0 => bf16 | 1 => e4m3 | 2 => e5m2 | 3 => e4m3 | 4 => e5m2 | 5 => e2m3 | 6 => e3m2 | _ => e2m1

/-- Element j of row (or column) i of an operand, with its scale: an exact value. -/
def mmaElem (k : Nat) (b : List Byte) (i j : Nat) : FVal :=
  let f := mmaFormat k
  let at_ := (i * mmaK k + j) * f.width
  let v := fieldN b (at_ / 8) 2 / 2 ^ (at_ % 8) % 2 ^ f.width
  let x := fdecode f v
  if mmaScales k = 0 then x else fvMul x (e8m0 (fieldN b (mmaBytes k + i * mmaScales k + j / 32) 1))

/-- One accumulator element: exact products and sum, rounded once (R165, R222). -/
def mmaCell (ka kb : Nat) (a b : List Byte) (i j : Nat) (acc : FVal) : Nat :=
  fencode fp32 false ((List.range (mmaK ka)).foldl (fun t k => fvAdd t (fvMul (mmaElem ka a i k) (mmaElem kb b j k))) acc)

/-- The sum that starts an MMA without accumulation: the first product alone. -/
def mmaFresh (ka kb : Nat) (a b : List Byte) (i j : Nat) : Nat :=
  fencode fp32 false (((List.range (mmaK ka)).drop 1).foldl (fun t k => fvAdd t (fvMul (mmaElem ka a i k) (mmaElem kb b j k)))
    (fvMul (mmaElem ka a i 0) (mmaElem kb b j 0)))

def mmaTile (ka kb : Nat) (fresh : Bool) (a b : List Byte) (acc : List (BitVec 32)) : List (BitVec 32) :=
  (List.range 1024).map (fun n =>
    let i := n / 32
    let j := n % 32
    BitVec.ofNat 32 (if fresh then mmaFresh ka kb a b i j else mmaCell ka kb a b i j (fdecode fp32 (acc.getD n 0).toNat)))

def execMma (core : Nat) (f : Fields) (s : State) : Host.Outcome State Fault Refusal :=
  .next (coreExecR core (wordOf 0x80 f) [fB f, fC f] (fun c => [((xget c (fB f)).toNat, mmaSpan (immBits f 3 0)), ((xget c (fC f)).toNat, mmaSpan (immBits f 7 4))]) s (fun c s =>
    let ka := immBits f 3 0
    let kb := immBits f 7 4
    let a := (xget c (fB f)).toNat
    let b := (xget c (fC f)).toNat
    if !isA (fA f) || mmaK ka == 0 || mmaK ka != mmaK kb then coreFault s core cIllegal none none
    else
      spadAccess core a (mmaSpan ka) true 1 c s (fun s => spadAccess core b (mmaSpan kb) true 1 c s (fun s =>
        let t := mmaTile ka kb (immBits f 8 8 == 1) (spadRead core c a (mmaSpan ka)) (spadRead core c b (mmaSpan kb)) (aget c (fA f))
        prog (bumpO (setCore s core (advance (aset c (fA f) t))) (corePart s core) 3 32) core 2 (corePart s core) none 1))))

/-- The tile converted to IMM[1:0], row-major (R223). -/
def mmastBytes (k : Nat) (t : List (BitVec 32)) : List Byte :=
  match vcvtTo (if k = 0 then 0 else if k = 1 then 1 else if k = 2 then 3 else 4) with
  | some (w, g) => (t.map (fun v => leBytes (w / 8) (g v.toNat))).flatten
  | none => []

def execMmast (core : Nat) (f : Fields) (s : State) : Host.Outcome State Fault Refusal :=
  .next (afterReads core (fun c => [((xget c (fB f)).toNat, (mmastBytes (immBits f 1 0) (aget c (fA f))).length)]) s
    (coreExec core (wordOf 0x81 f) [fB f] s (fun c s =>
      let a := (xget c (fB f)).toNat
      let out := mmastBytes (immBits f 1 0) (aget c (fA f))
      if !isA (fA f) then coreFault s core cIllegal none none
      else spadAccess core a out.length false 1 c s (fun s => setCore s core (advance (spadWrite c a out false))))))

end Sys2Proof.Machine
end

