-- ==== Sys2Proof/Machine/CoreFabric.lean ====
section
/-! DEFINITION. The fabric instructions of the Nib core (R226 to R228), the store queue, contributions, tally writes and ledger claims
(R238 to R246). -/
namespace Sys2Proof.Machine

/-! ### Global addresses (R100) -/

inductive Target where
  | here (dpa : Nat)
  | peer (index dpa : Nat)
  | bad (status : Nat)
deriving DecidableEq, Repr

/-- Where a global address leads. -/
def targetOf (s : State) (g : Nat) : Target :=
  let i := bits g 59 48
  if g ≥ 2 ^ 60 then .bad St.badAddress
  else if i = ownIndex s then .here (g % 2 ^ 48)
  else if s.duc.group.isNone then .bad St.notInGroup
  else .peer i (g % 2 ^ 48)

/-- The tally that a DPA names, if it is the first byte of one (R238). -/
def tallyAt (dpa : Nat) : Option Nat :=
  if 0x0F0200000000 ≤ dpa ∧ dpa < 0x0F0200100000 ∧ dpa % 64 = 0 then some ((dpa - 0x0F0200000000) / 64) else none

def coreRq (s : State) (n : Nat) : Requester := .core ((corePart s n).getD 0) n

/-! ### Completion in order (R227, R240) -/

def remoteOfCore (n : Nat) : RemoteUse → Bool
  | .coreRead m _ => m == n
  | .coreWrite m => m == n
  | .coreContrib m => m == n
  | .coreSignal m => m == n
  | _ => false

def asideOfCore (n : Nat) : Requester → Bool
  | .core _ m => m == n
  | _ => false

/-- Every fabric instruction of the core before its signals has completed. -/
def coreQuiet (s : State) (n : Nat) : Bool :=
  let c := coreOf s n
  c.stores.isEmpty && c.xwrs.isEmpty && c.xfers.isEmpty && c.contribs.isEmpty && !s.duc.remotes.any (fun r => remoteOfCore n r.use) &&
    !s.ari.aside.any (fun b => asideOfCore n b.req)

/-- A fabric instruction ends with a status; a core whose kernel has ended is not stopped by it (R248, log 47). -/
def fabricFault (s : State) (n st addr : Nat) : State :=
  let k := (coreOf s n).run
  if k != .running && k != .halted then s else coreFault s n (causeOf st) (some st) (some addr)

/-- A signal of a core to a global address (R240, R241). -/
def coreSignal (s : State) (n g : Nat) (v : BitVec 32) (isSet : Bool) : State :=
  match targetOf s g with
  | .bad st => fabricFault s n st g
  | .here dpa =>
    match tallyAt dpa with
    | none => fabricFault s n St.tallyInvalid g
    | some t =>
      if underReset s (tallyQuad t) then fabricFault s n St.destReset g
      else tallySignalAs s t v isSet n (corePart s n)
  | .peer i dpa =>
    match tallyAt dpa with
    | none => fabricFault s n St.tallyInvalid g
    | some t =>
      match requestPeer s 4 i ((corePart s n).getD 0) (leBytes 4 (t + (if isSet then 2 ^ 15 else 0)) ++ leBytes 4 v.toNat) none [] 0 (.coreSignal n) 0 with
      | (st, s1) => if st = St.ok then s1 else fabricFault s1 n st g

/-- A waiting TSIG is applied once everything before it has completed. -/
def coreSettle (s : State) (n : Nat) : State :=
  let c := coreOf s n
  match c.tsigs with
  | (g, v, isSet) :: r => if coreQuiet s n then coreSignal (setCore s n { c with tsigs := r }) n g v isSet else s
  | [] => s

/-- The fabric instruction `w` issues when the fabric unit waits for nothing (R217). -/
def fabricExec (n : Nat) (w : BitVec 64) (regs : List Nat) (reads : Core → List (Nat × Nat)) (s : State) (f : Core → State → State) :
    State :=
  let c := coreOf s n
  if c.twait.isSome || c.fence || !c.tsigs.isEmpty then s else coreExecR n w regs reads s f

/-! ### Order of a core's accesses to one granule (R115) -/

/-- What a fabric instruction has still to access: its place among the core's, the device (none for this one) and the range. -/
structure Span where
  seq : Nat
  peer : Option Nat
  dpa : Nat
  len : Nat

/-- Everything that a core's issued fabric instructions have still to access in this device or to send to a peer. -/
def spans (s : State) (c : Core) : List Span :=
  c.stores.map (fun g => ⟨g.seq, g.peer, g.dpa, 64⟩) ++ c.xwrs.map (fun x => ⟨x.seq, x.peer, x.dpa, x.len⟩) ++
    (c.xfers.filter (fun x => !x.remote)).map (fun x => ⟨x.seq, none, x.src, x.len⟩) ++
    (c.contribs.filter (fun x => x.prior.isNone)).filterMap (fun x =>
      match targetOf s x.con.dpa with
      | .here a => some ⟨x.seq, none, a, 64⟩
      | .peer i a => some ⟨x.seq, some i, a, 64⟩
      | .bad _ => none)

/-- Whether an older access of the core touches a granule of a range: accesses of one source to one granule keep issue order (R115). -/
def olderTouches (s : State) (c : Core) (seq : Nat) (peer : Option Nat) (dpa len : Nat) : Bool :=
  (spans s c).any (fun x => decide (x.seq < seq) && x.peer == peer && sameGranule x.dpa x.len dpa len)

/-- A fabric instruction takes its place and issues. -/
def placed (c : Core) : Core := advance { c with seq := c.seq + 1 }

def misaligned (l : List Nat) : Bool := l.any (fun v => v % 64 != 0)

/-! ### XRD, XWR, XEXP -/

/-- READ requests of up to 64 granules to a peer (R357). -/
def readPeer (s : State) (n i dpa addr : Nat) (granules : Nat) : Nat × State :=
  (List.range (ceilDiv granules 64)).foldl (fun (st, s) k =>
    if st ≠ St.ok then (st, s)
    else
      let g := min 64 (granules - 64 * k)
      requestPeer s 1 i ((corePart s n).getD 0) (leBytes 6 (dpa + 4096 * k) ++ [BitVec.ofNat 8 g]) none [] 0 (.coreRead n (addr + 4096 * k)) g) (St.ok, s)

def execXrd (core : Nat) (f : Fields) (s : State) : Host.Outcome State Fault Refusal :=
  .next (afterReads core (fun c => [((xget c (fA f)).toNat, (xget c (fC f)).toNat)]) s
   (fabricExec core (wordOf 0xC0 f) [fA f, fB f, fC f] (fun _ => []) s (fun c s1 =>
    let a := (xget c (fA f)).toNat
    let g := (xget c (fB f)).toNat
    let len := (xget c (fC f)).toNat
    let x : Transfer := { dst := a, src := g, len := len, cls := immBits f 1 0, expand := none, seq := c.seq }
    if misaligned [a, g, len] then coreFault s1 core cMisaligned none (some a)
    else if a + len > spadSize then coreFault s1 core cBounds none (some a)
    else
      match targetOf s1 g with
      | .bad st => coreFault s1 core cAddress (some st) (some g)
      | .here dpa => setCore s1 core (placed { c with xfers := c.xfers ++ [{ x with src := dpa }] })
      | .peer i dpa =>
        if olderTouches s1 c c.seq (some i) dpa len then s
        else
          match readPeer s1 core i dpa a (len / 64) with
          | (st, s2) =>
            if st ≠ St.ok then coreFault s2 core cAddress (some st) (some g)
            else setCore s2 core (placed { coreOf s2 core with xfers := (coreOf s2 core).xfers ++ [{ x with remote := true }] }))))

/-- Granules placed in a scratchpad, each with its poison. -/
def spadFill (c : Core) (a : Nat) (l : List (List Byte × Bool)) : Core :=
  (l.zipIdx).foldl (fun c (g, i) => spadWrite c (a + 64 * i) g.1 g.2) c

/-- XRD_COMPLETE: every byte of the oldest XRD has arrived; it waits behind older accesses to its granules, at its regulator and for a
retraining channel (R115, R131, R138). -/
def execXrdComplete (core : Nat) (s : State) : Host.Outcome State Fault Refusal :=
  let c := coreOf s core
  .next (
    match c.xfers.find? (fun x => x.expand.isNone) with
    | none => s
    | some x =>
      if x.remote then
        if s.duc.remotes.any (fun r => match r.use with
            | .coreRead m a => m == core && decide (x.dst ≤ a) && decide (a < x.dst + x.len)
            | _ => false) then s
        else coreSettle (setCore s core { c with xfers := c.xfers.erase x }) core
      else if olderTouches s c x.seq none x.src x.len || accessWaits s (coreRq s core) false x.src x.len x.cls then s
      else
        match readGranules s (coreRq s core) x.src x.len x.cls with
        | (st, l, s1) =>
          if st ≠ St.ok then fabricFault (setCore s1 core { coreOf s1 core with xfers := (coreOf s1 core).xfers.erase x }) core st x.src
          else
            let c1 := coreOf s1 core
            coreSettle (prog (setCore s1 core (spadFill { c1 with xfers := c1.xfers.erase x } x.dst l)) core 6 (corePart s core) none x.len) core)

/-- Entries of a store queue (R227). -/
def storeDepth : Nat := 64

/-- The store queue takes granules of the oldest XWR while it has room (R227). -/
def fillStores (n : Nat) : Nat → Core → Core
  | 0, c => c
  | k + 1, c =>
    match c.xwrs with
    | [] => c
    | x :: r =>
      if c.stores.length ≥ storeDepth then c
      else
        let g : StoreGranule := { dpa := x.dpa, data := spadRead n c x.src 64, poison := spadPoisoned c x.src 64, cls := x.cls, peer := x.peer,
                                  whole := x.whole, seq := x.seq }
        fillStores n k { c with
          stores := c.stores ++ [g]
          xwrs := if x.len ≤ 64 then r else { x with src := x.src + 64, dpa := x.dpa + 64, len := x.len - 64 } :: r }

/-- An XWR of `len` bytes begins to copy its source into the store queue. -/
def queueXwr (n : Nat) (c : Core) (peer : Option Nat) (dpa a len cls : Nat) : Core :=
  let x : PendingXwr := { src := a, dpa := dpa, len := len, cls := cls, peer := peer, whole := dpa % 4096 == 0 && len % 4096 == 0, seq := c.seq }
  fillStores n storeDepth (if len = 0 then c else { c with xwrs := c.xwrs ++ [x] })

/-- XWR: the source is copied into the store queue (R227); into a folded region it covers whole slots (R228). -/
def execXwr (core : Nat) (f : Fields) (s : State) : Host.Outcome State Fault Refusal :=
  .next (fabricExec core (wordOf 0xC1 f) [fA f, fB f, fC f] (fun c => [((xget c (fB f)).toNat, (xget c (fC f)).toNat)]) s (fun c s =>
    let g := (xget c (fA f)).toNat
    let a := (xget c (fB f)).toNat
    let len := (xget c (fC f)).toNat
    if misaligned [a, g, len] then coreFault s core cMisaligned none (some g)
    else if a + len > spadSize then coreFault s core cBounds none (some a)
    else
      match targetOf s g with
      | .bad st => coreFault s core cAddress (some st) (some g)
      | .here dpa =>
        if foldedRefusal s dpa len then coreFault s core cAddress (some St.foldPartial) (some g)
        else setCore s core (placed (queueXwr core c none dpa a len (immBits f 1 0)))
      | .peer i dpa => setCore s core (placed (queueXwr core c (some i) dpa a len (immBits f 1 0)))))

def execXexp (core : Nat) (f : Fields) (s : State) : Host.Outcome State Fault Refusal :=
  .next (afterReads core (fun c => [((xget c (fA f)).toNat, 4096 * (xget c (fC f)).toNat)]) s
   (fabricExec core (wordOf 0xC2 f) [fA f, fB f, fC f] (fun _ => []) s (fun c s0 =>
    let a := (xget c (fA f)).toNat
    let d := (xget c (fB f)).toNat
    let n := (xget c (fC f)).toNat
    if misaligned [a, d] then coreFault s0 core cMisaligned none (some a)
    else if n = 0 then coreFault s0 core cAddress (some St.invalidField) (some d)
    else if n > 384 ∨ a + 4096 * n > spadSize then coreFault s0 core cBounds none (some a)
    else
      let st := slotsStatus s0 (coreRq s0 core) d n
      if st ≠ St.ok then coreFault s0 core (causeOf st) (some st) (some d)
      else if olderTouches s0 c c.seq none d (4096 * n) then s
      else
        let (id, s1) := startExpand s0 (coreRq s0 core) d n (.scratch core a) 1 none
        let x : Transfer := { dst := a, src := d, len := 4096 * n, cls := 1, expand := some id, seq := c.seq }
        prog (setCore s1 core (placed { c with xfers := c.xfers ++ [x] })) core 7 (corePart s core) none n)))

/-- XEXP_COMPLETE: every tile of the oldest XEXP has arrived; a failing block raises ADDRESS (R228). -/
def execXexpComplete (core : Nat) (s : State) : Host.Outcome State Fault Refusal :=
  let c := coreOf s core
  .next (
    match c.xfers.find? (fun x => x.expand.isSome) with
    | none => s
    | some x =>
      let id := x.expand.getD 0
      match mfind s.fold.reqs id with
      | none => s
      | some r =>
        if r.left ≠ 0 then s
        else
          let s1 := { setCore s core { c with xfers := c.xfers.erase x } with fold.reqs := mdel s.fold.reqs id }
          let st := r.status.toNat
          if st ≠ St.ok then fabricFault s1 core st x.src
          else coreSettle s1 core)

/-! ### FOLD (R211, R228) -/

def execFold (core : Nat) (f : Fields) (s : State) : Host.Outcome State Fault Refusal :=
  .next (afterReads core (fun c => [((xget c (fA f)).toNat, 4096)]) s
   (fabricExec core (wordOf 0xC3 f) [fA f, fB f, fC f] (fun c => [((xget c (fB f)).toNat, 4096)]) s (fun c s =>
    let a := (xget c (fA f)).toNat
    let b := (xget c (fB f)).toNat
    let id := immBits f 11 0
    let r0 := immBits f 23 18
    if misaligned [a, b] then coreFault s core cMisaligned none (some a)
    else if b + 4096 > spadSize then coreFault s core cBounds none (some b)
    else
      match mfind s.fold.basis id with
      | none => coreFault s core cFoldEncode none none
      | some v =>
        if r0 > v.rank ∨ immBits f 17 16 = 3 then coreFault s core cFoldEncode none none
        else
          match fetchBasis s v.dpa with
          | (none, s1) => coreFault s1 core cFoldEncode none none
          | (some t, s1) =>
            match foldTile (spadRead core c b 4096) v id t (immBits f 15 12) (immBits f 17 16) r0 ((xget c (fC f)).toNat % 2 ^ 32) with
            | none => coreFault s1 core cFoldEncode none none
            | some (out, r) =>
              if a + out.length > spadSize then coreFault s1 core cBounds none (some a)
              else
                let c1 := xset (spadWrite c a out (spadPoisoned c b 4096)) (fC f) (BitVec.ofNat 64 r)
                bumpO (setCore s1 core (advance c1)) (corePart s core) 3 (2 * r + 16))))

/-! ### Contributions (R226, R227) -/

/-- A PATOM or FATOM enters the fabric. -/
def atomIssue (core : Nat) (f : Fields) (s : State) (fetching : Bool) : State :=
  fabricExec core (wordOf (if fetching then 0xC5 else 0xC4) f) [fA f, fB f, fC f] (fun c => [((xget c (fB f)).toNat, 64)]) s (fun c s =>
    let g := (xget c (fA f)).toNat
    let a := (xget c (fB f)).toNat
    let con : Contribution := { dpa := g, op := immBits f 7 0, mask := (xget c (fC f)).setWidth 32, operand := spadRead core c a 64,
                                poison := spadPoisoned c a 64,
                                order := if immBits f 8 8 = 1 then some (immBits f 14 9, immBits f 30 15) else none }
    if misaligned [g, a] then coreFault s core cMisaligned none (some g)
    else if a + 64 > spadSize then coreFault s core cBounds none (some a)
    else if fetching && con.order.isSome then coreFault s core cAddress (some St.arithFormat) (some g)
    else
      prog (setCore s core (placed { c with contribs := c.contribs ++ [{ con := con, fetching := fetching, at_ := a, prior := none, seq := c.seq }] }))
        core 8 (corePart s core) none 1)

def execPatom (core : Nat) (f : Fields) (s : State) : Host.Outcome State Fault Refusal := .next (atomIssue core f s false)
def execFatom (core : Nat) (f : Fields) (s : State) : Host.Outcome State Fault Refusal := .next (atomIssue core f s true)

/-- A CONTRIB request (R357). -/
def contribPeer (s : State) (i part : Nat) (c : Contribution) (dpa coll : Nat) (use : RemoteUse) : Nat × State :=
  let (ord, ctx, q) := match c.order with | some (x, q) => (1, x, q) | none => (0, 0, 0)
  requestPeer s 3 i part (leBytes 6 dpa ++ zeros 2)
    (some ([BitVec.ofNat 8 c.op, BitVec.ofNat 8 ord, BitVec.ofNat 8 ctx, 0] ++ leBytes 4 q ++ leBytes 4 c.mask.toNat ++ leBytes 4 coll))
    [c.operand] (BitVec.ofNat 3 (b2n c.poison)) use 0

/-- The oldest contribution of a core that has not reached its controller: behind older accesses to its granule it waits, as it does at
its regulator and for a retraining channel (R115, R131, R138). A prior value travels back (R21). -/
def coreContribution (s : State) (n : Nat) : State :=
  let c := coreOf s n
  match c.contribs.find? (fun x => x.prior.isNone) with
  | none => s
  | some x =>
    let drop (s : State) : State := setCore s n { coreOf s n with contribs := (coreOf s n).contribs.erase x }
    match targetOf s x.con.dpa with
    | .bad st => fabricFault (drop s) n st x.con.dpa
    | .peer i dpa =>
      if x.fetching then fabricFault (drop s) n St.arithFormat x.con.dpa
      else if olderTouches s c x.seq (some i) dpa 64 then s
      else
        match contribPeer (drop s) i ((corePart s n).getD 0) x.con dpa 0 (.coreContrib n) with
        | (st, s1) => if st = St.ok then s1 else fabricFault s1 n st x.con.dpa
    | .here dpa =>
      if olderTouches s c x.seq none dpa 64 || contribHeld s (coreRq s n) { x.con with dpa := dpa } then s
      else
        match contribute s (coreRq s n) { x.con with dpa := dpa } 1 with
        | (st, prior, s1) =>
          if st ≠ St.ok then fabricFault (drop s1) n st dpa
          else if x.fetching then
            let s2 := cross s1 (coreRq s n) false dpa 64
            setCore s2 n { coreOf s2 n with contribs := (coreOf s2 n).contribs.map (fun y => if y = x then { y with prior := some prior } else y) }
          else coreSettle (drop s1) n

/-- CONTRIBUTION: the oldest of a core, or one of another requester, whose status is the reply; only a core's may fetch (R164, R167). -/
def execContribution (w : ContribSrc) (s : State) : Host.Outcome State Fault Refusal :=
  .next (
    match w with
    | .core n => coreContribution s n
    | .direct r c => if contribHeld s r c then s else let (st, _, s1) := contribute s r c 1; setReply s1 st [] false)

/-- FATOM_COMPLETE: the prior value replaces the operand. -/
def execFatomComplete (core : Nat) (s : State) : Host.Outcome State Fault Refusal :=
  let c := coreOf s core
  .next (
    match c.contribs.find? (fun x => x.prior.isSome) with
    | some x => coreSettle (setCore s core (spadWrite { c with contribs := c.contribs.erase x } x.at_ (x.prior.getD []) false)) core
    | none => s)

/-! ### FENCE, TSIG, TWAIT -/

def execFence (core : Nat) (f : Fields) (s : State) : Host.Outcome State Fault Refusal :=
  .next (fabricExec core (wordOf 0xC6 f) [] (fun _ => []) s (fun c s => setCore s core (advance { c with fence := !coreQuiet s core })))

def execFenceComplete (core : Nat) (s : State) : Host.Outcome State Fault Refusal :=
  .next (if (coreOf s core).fence && coreQuiet s core then setCore s core { coreOf s core with fence := false } else s)

def execTsig (core : Nat) (f : Fields) (s : State) : Host.Outcome State Fault Refusal :=
  .next (fabricExec core (wordOf 0xC7 f) [fA f, fB f] (fun _ => []) s (fun c s =>
    let g := (xget c (fA f)).toNat
    if misaligned [g] then coreFault s core cMisaligned none (some g)
    else coreSettle (setCore s core (advance { c with tsigs := [(g, (xget c (fB f)).setWidth 32, immBits f 0 0 == 1)] })) core))

/-- WAIT_BEGIN's argument (R433). -/
def waitBeginArg (t : Nat) (eq : Bool) (target : BitVec 32) : Nat := t + b2n eq * 2 ^ 14 + target.toNat * 2 ^ 16

def execTwait (core : Nat) (f : Fields) (s : State) : Host.Outcome State Fault Refusal :=
  .next (fabricExec core (wordOf 0xC8 f) [fA f, fB f, fC f] (fun _ => []) s (fun c s =>
    let g := (xget c (fB f)).toNat
    if misaligned [g] then coreFault s core cMisaligned none (some g)
    else
      match targetOf s g with
      | .bad st => coreFault s core cAddress (some st) (some g)
      | .peer _ _ => coreFault s core cAddress (some St.tallyInvalid) (some g)
      | .here dpa =>
        match tallyAt dpa with
        | none => coreFault s core cAddress (some St.tallyInvalid) (some g)
        | some t =>
          let w : CoreWait := { reg := f.a, tally := t, target := (xget c (fC f)).setWidth 32, eq := immBits f 0 0 == 1,
                                deadline := if immBits f 31 1 = 0 then none else some (BitVec.ofNat 64 (min (2 ^ 64 - 1) ((stamp s).toNat + immBits f 31 1))) }
          if underReset s (tallyQuad t) then coreFault s core cDestReset (some St.destReset) (some g)
          else
            let s1 := setCore (blot s core 6 (corePart s core) (waitBeginArg t w.eq w.target)) core (advance { c with twait := some w })
            if waitHolds (tallyGet s1 t) w.target w.eq then endCoreWait s1 core w 0 else s1))

/-- TWAIT_TIMEOUT: the deadline's stamp has been reached. -/
def execTwaitTimeout (core : Nat) (s : State) : Host.Outcome State Fault Refusal :=
  .next (
    match (coreOf s core).twait with
    | some w => match w.deadline with
      | some d => if d.toNat ≤ (stamp s).toNat then endCoreWait s core w 1 else s
      | none => s
    | none => s)

/-! ### Tally writes (R238) -/

/-- A 32-bit write to a tally by a requester; its status is the reply, and a core whose write is refused faults (R248, R411). -/
def tallyWrite (s : State) (r : Requester) (dpa : Nat) (v : BitVec 32) : State :=
  let (st, s1) := writeBytes s r dpa (leBytes 4 v.toNat) false 1
  let s2 := setReply s1 st [] false
  match r with
  | .core _ n => if st = St.ok then s2 else coreFault s2 n (causeOf st) (some st) (some dpa)
  | _ => s2

def execTallyValueWrite (r : Requester) (tally : Nat) (v : BitVec 32) (s : State) : Host.Outcome State Fault Refusal :=
  .next (tallyWrite s r (0x0F0200000000 + 64 * tally) v)

def execTallyAddWrite (r : Requester) (tally : Nat) (v : BitVec 32) (s : State) : Host.Outcome State Fault Refusal :=
  .next (tallyWrite s r (0x0F0200000000 + 64 * tally + 4) v)

/-! ### The store queue (R227, R249) -/

/-- Whether a granule store must wait: at its regulator or its tier's trace bucket, or at a retraining channel (R128, R131, R155). -/
def storeWaits (s : State) (n : Nat) (g : StoreGranule) : Bool :=
  gateHolds s (coreRq s n) g.dpa 64 g.cls || (retrainingAt s true g.dpa 64).isSome

/-- The oldest granule of a core's store queue leaves it, and the queue takes what an XWR still has to copy. Behind an older access to its
granule it waits; into a region that has become folded meanwhile a part of a slot is refused (R115, R199, R227). -/
def storeOldest (s : State) (n : Nat) : State :=
  let c := coreOf s n
  match c.stores with
  | [] => s
  | g :: r =>
    let s0 := setCore s n (fillStores n storeDepth { c with stores := r })
    if olderTouches s c g.seq g.peer g.dpa 64 then s
    else
      match g.peer with
      | some i =>
        match requestPeer s0 2 i ((corePart s n).getD 0) (leBytes 6 g.dpa) none [g.data] (BitVec.ofNat 3 (b2n g.poison)) (.coreWrite n) 0 with
        | (st, s1) => if st = St.ok then s1 else fabricFault s1 n st (i * 2 ^ 48 + g.dpa)
      | none =>
        let st := statusAt s (coreRq s n) true g.dpa
        if st ≠ St.ok then fabricFault s0 n st g.dpa
        else if !g.whole && touchesFolded s g.dpa 64 then fabricFault s0 n St.foldPartial g.dpa
        else if storeWaits s n g then s
        else
          let s1 := charge (watch s0 (coreRq s n) 1 g.dpa 64) (coreRq s n) g.dpa 64 g.cls
          coreSettle (writeAt s1 (coreRq s n) g.dpa g.data g.poison g.cls).2 n

/-- MEMORY_WRITE: the oldest store of a core, or a write of another requester. -/
def execMemoryWrite (w : WriteSrc) (s : State) : Host.Outcome State Fault Refusal :=
  .next (
    match w with
    | .storeQueue n => storeOldest s n
    | .direct r dpa b poison => accessStart s { req := r, dpa := dpa, len := b.length, data := some (b, poison), cls := defaultClass r, since := s.time })

/-! ### Ledger claims (R246) -/

def ledgerUnit (p l : Nat) : Nat := 0x6000 + 8 * p + l

/-- The oldest appended descriptor of the highest priority held. -/
def claimDesc (l : List Desc) : Option Desc :=
  (sortBy (fun a b => decide (fieldN a.bytes 4 1 < fieldN b.bytes 4 1)) l).head?

def setLedger (s : State) (p l : Nat) (x : Ledger) : State :=
  setPart s p { partOf s p with ledgers := mput (partOf s p).ledgers l x }

def ledgerOf (s : State) (p l : Nat) : Ledger := mget {} (partOf s p).ledgers l

def execLclaim (core : Nat) (f : Fields) (s : State) : Host.Outcome State Fault Refusal :=
  .next (afterReads core (fun c => [((xget c (fB f)).toNat, 32)]) s (fabricExec core (wordOf 0xC9 f) [fA f, fB f] (fun _ => []) s (fun c s =>
    let a := (xget c (fB f)).toNat
    let p := (corePart s core).getD 0
    let l := immBits f 2 0
    let x := ledgerOf s p l
    let say (s : State) (result held : Nat) : State :=
      prog (blot s (ledgerUnit p l) 9 (some p) (core + result * 2 ^ 16 + held % 65536 * 2 ^ 32)) (ledgerUnit p l) (result + 1) (some p) none 1
    if misaligned [a] then coreFault s core cMisaligned none (some a)
    else if a + 32 > spadSize then coreFault s core cBounds none (some a)
    else if !x.configured then coreFault s core cLedger none none
    else
      match claimDesc x.descs with
      | some d =>
        let s1 := setLedger s p l { x with descs := x.descs.erase d, served := x.served + 1 }
        bump (say (setCore s1 core (advance (xset (spadWrite c a d.bytes false) (fA f) 0))) 0 (x.descs.length - 1)) p 35 1
      | none =>
        let r := if x.sealed then 2 else 1
        say (setCore s core (advance (xset c (fA f) (BitVec.ofNat 64 r)))) r 0)))

end Sys2Proof.Machine
end

