-- ==== Sys2Proof/Machine/Digest.lean ====
section
/-! DEFINITION. Digests of a range (R443). -/
namespace Sys2Proof.Machine

/-- Format codes of R443 that are floating. -/
def digestFormat : Nat → Option FFormat
  | 1 => some fp32
  | 2 => some bf16
  | 3 => some fp16
  | 4 => some e4m3
  | 5 => some e5m2
  | _ => none

/-- Bytes of an element. -/
def digestWidth (fmt : Nat) : Nat := if fmt = 1 ∨ fmt = 6 then 4 else if fmt = 2 ∨ fmt = 3 then 2 else 1

/-- Running totals: sum, least and greatest (FP32 or INT32), NaN, Inf, elements. -/
structure DigestSum where
  sum : Nat := 0
  lo : Option Nat := none
  hi : Option Nat := none
  nans : Nat := 0
  infs : Nat := 0
  count : Nat := 0
deriving DecidableEq, Repr

/-- The better of a running extreme and a new element, by an order into Int. -/
def digestPick (key : Nat → Int) (least : Bool) (old : Option Nat) (v : Nat) : Option Nat :=
  match old with
  | none => some v
  | some w => some (if (if least then decide (key v < key w) else decide (key w < key v)) then v else w)

/-- One element joins the totals. -/
def digestAdd (fmt : Nat) (d : DigestSum) (v : Nat) : DigestSum :=
  match digestFormat fmt with
  | some f =>
    match fdecode f v with
    | .nan => { d with nans := d.nans + 1, count := d.count + 1 }
    | .inf _ => { d with infs := d.infs + 1, count := d.count + 1 }
    | _ =>
      let w := fconvert f fp32 false v
      { d with sum := fadd fp64 d.sum (fconvert f fp64 false v), lo := digestPick (forder fp32) true d.lo w,
               hi := digestPick (forder fp32) false d.hi w, count := d.count + 1 }
  | none =>
    if fmt = 6 then
      let key (x : Nat) : Int := (BitVec.ofNat 32 x).toInt
      { d with sum := (d.sum + intBits 64 (key v)) % 2 ^ 64, lo := digestPick key true d.lo v, hi := digestPick key false d.hi v,
               count := d.count + 1 }
    else { d with count := d.count + 1 }

/-- Elements of a granule, in address order. -/
def digestElems (fmt : Nat) (b : List Byte) : List Nat :=
  (List.range (64 / digestWidth fmt)).map (fun k => fieldN b (digestWidth fmt * k) (digestWidth fmt))

def digestSum (fmt : Nat) (l : List (List Byte × Bool)) : DigestSum :=
  l.foldl (fun d g => if g.2 then d else (digestElems fmt g.1).foldl (digestAdd fmt) d) {}

/-- The 64-byte result. For bytes the manual states no minimum and maximum: they are free values (log 13). -/
def digestBytes (s : State) (fmt : Nat) (l : List (List Byte × Bool)) : List Byte × State :=
  let d := digestSum fmt l
  let (ext, s1) := if fmt = 0 then freeBytes s 8 else (leBytes 4 (d.lo.getD 0x7FC00000) ++ leBytes 4 (d.hi.getD 0x7FC00000), s)
  (leBytes 8 (crc64 (l.map Prod.fst).flatten) ++ leBytes 8 d.sum ++ ext ++ leBytes 8 d.nans ++ leBytes 8 d.infs ++ leBytes 8 d.count ++
    leBytes 8 (l.filter Prod.snd).length ++ leBytes 8 (stamp s1).toNat, s1)

/-- Whether a digest waits: for its TRACE bucket, or for a retraining channel (R128, R155). -/
def digestHeld (s : State) (p dpa len : Nat) : Bool := accessWaits s (.part p) false dpa len 3

/-- A digest taken on a partition's behalf: status, result, state (R443). -/
def digestTake (s : State) (p dpa len fmt : Nat) : Nat × List Byte × State :=
  match readGranules s (.part p) dpa len 3 with
  | (st, l, s1) =>
    if st ≠ St.ok then (st, zeros 64, s1)
    else
      let (b, s2) := digestBytes s1 fmt l
      (if l.any Prod.snd then St.poisoned else St.ok, b, s2)

/-- Whether a partition may take digests: DIGEST_STAGING is held on the buffer of its lowest quadrant (R444). -/
def digestClaimed (s : State) (p : Nat) : Bool := heldAny s (mkRes 2 (lowQuad s p)) 3

/-- Whether an armed digest that names a marker waits. -/
def markerHeld (s : State) (p : Nat) (marker : BitVec 32) : Bool :=
  (List.range 8).any (fun k =>
    let a := mget {} s.obs.digests (p * 8 + k)
    a.enabled && a.marker == marker && digestClaimed s p && digestHeld s p a.dpa a.len)

/-- Armed digests that name a marker are taken, each with its DIGEST record (R444). -/
def digestMarker (s : State) (p : Nat) (marker : BitVec 32) (unit : Nat) : State :=
  (List.range 8).foldl (fun s k =>
    let a := mget {} s.obs.digests (p * 8 + k)
    if a.enabled && a.marker == marker && digestClaimed s p then
      let (st, b, s1) := digestTake s p a.dpa a.len a.format
      let s2 := { s1 with obs.digests := mput s1.obs.digests (p * 8 + k) { a with result := leBytes 2 st ++ b } }
      tracePart s2 p 0x09 unit b
    else s) s

end Sys2Proof.Machine
end

