-- ==== Sys2Proof/Machine/Quire.lean ====
section
/-! DEFINITION. Quires and command queues (spec/08): the queue commands, kernels, range markers, ledgers, and the firmware commands
of the cores. The row of a queue command acts on the command in progress of its queue. -/
namespace Sys2Proof.Machine

/-! ### Commands of a quire (R234, R235) -/

def qRq (p q : Nat) : Requester := .queue p q

def qCode (b : List Byte) : Nat := fieldN b 0 1
def qContinue (b : List Byte) : Bool := bit (fieldN b 1 1) 0
def qSignal (b : List Byte) : Bool := bit (fieldN b 1 1) 1
def qClass (b : List Byte) : Nat := fieldN b 2 1

/-- The command in progress when it has the code of a row and has not begun. -/
def qAct (s : State) (p q code : Nat) (f : List Byte → State → State) : State :=
  match (queueOf s p q).cur with
  | some c => if qCode c.bytes = code ∧ !c.begun ∧ c.status.isNone then f c.bytes s else s
  | none => s

/-- The command in progress goes on until a later row ends it. -/
def qBegin (s : State) (p q : Nat) : State :=
  let x := queueOf s p q
  match x.cur with
  | some c => setQueue s p q { x with cur := some { c with begun := true } }
  | none => s

/-- A status, or the effect where every check passes; a class above 3 is out of range (R235). -/
def qChecked (p q : Nat) (b : List Byte) (checks : List (Bool × Nat)) (s : State) (f : State → State) : State :=
  match firstFail ((decide (qClass b > 3), St.quireFormat) :: checks) with
  | some st => queueStatus s p q st
  | none => f s

/-! ### Single-stepping (R445, R446, R453) -/

def stepEvent (s : State) (p q timeout status index : Nat) : State :=
  post s 0x0C04 p ([BitVec.ofNat 8 q, BitVec.ofNat 8 timeout] ++ leBytes 2 status ++ leBytes 4 index) false

/-! ### Starting and ending commands (R234, R236, R237) -/

/-- The next command of the first quire is read in LATENCY class and started; one that cannot be read, or has an unknown code,
completes at once. `freed` says that OBS_STEP_NEXT released it (R446). -/
def loadCommand (s : State) (p q : Nat) (u : Quire) (freed : Bool) : State :=
  let x := queueOf s p q
  match readBytes s (qRq p q) (u.dpa + 64 * x.next) 64 0 with
  | (st, d, poison, s1) =>
    let st1 := if st = St.ok ∧ poison then St.poisoned else st
    let b := if st1 = St.ok then d else zeros 64
    let s2 := setQueue s1 p q { x with cur := some { bytes := b, index := x.next, since := stamp s, freed := freed } }
    let s3 := latchStart s2 p q x.next (qCode b) u.dpa
    if st1 ≠ St.ok then queueStatus s3 p q st1
    else if qCode b = 0 ∨ qCode b > 0x0C then queueStatus s3 p q St.quireFormat else s3

/-- A queue that can start a command does so, once its read is not held (R131, R155); in single-step mode it stops at the boundary
(R445). -/
def startNext (s : State) (p q : Nat) : State :=
  let x := queueOf s p q
  match x.quires with
  | [] => s
  | u :: _ =>
    if x.halted || x.cur.isSome || accessWaits s (qRq p q) false (u.dpa + 64 * x.next) 64 0 then s
    else
      match mfind s.obs.single p with
      | none => loadCommand (setQueue s p q { x with stopped := false, released := 0 }) p q u false
      | some _ =>
        if x.released > 0 then loadCommand (setQueue s p q { x with stopped := false, released := x.released - 1 }) p q u true
        else if x.stopped then s
        else stepEvent (setQueue s p q { x with stopped := true }) p q 0 x.latch.status.toNat x.latch.index

/-- The oldest begun command that waits for `w` completes. -/
def finishFirst (s : State) (w : Wait) (status : Nat) (result : List Byte) : State :=
  match s.ink.running.find? (fun r => r.wait == w) with
  | some r => complete { s with ink.running := s.ink.running.erase r } r.cmd status result
  | none => s

/-- A signal of a queue to a tally's global address (R240, R241): its status, OK where it was sent to a peer. -/
def queueSignal (s : State) (p q g : Nat) (v : BitVec 32) (isSet : Bool) (use : RemoteUse) : Nat × State :=
  match targetOf s g with
  | .bad st => (st, s)
  | .here dpa =>
    match tallyAt dpa with
    | none => (St.tallyInvalid, s)
    | some t => if underReset s (tallyQuad t) then (St.destReset, s) else (St.ok, tallySignalAs s t v isSet (queueUnit p q) (some p))
  | .peer i dpa =>
    match tallyAt dpa with
    | none => (St.tallyInvalid, s)
    | some t => requestPeer s 4 i p (leBytes 4 (t + (if isSet then 2 ^ 15 else 0)) ++ leBytes 4 v.toNat) none [] 0 use 0

/-- A quire leaves its queue with a status; that of QUIRE_SUBMIT completes. -/
def quireEnds (s : State) (p q : Nat) (u : Quire) (status : Nat) : State :=
  if u.composer then s else finishFirst s (.quire p q) status []

/-- After a command completes: its tally is signalled, and the queue halts or goes on (R236, R237, R444). -/
def queueAdvance (s : State) (p q : Nat) : State :=
  let x := queueOf s p q
  match x.cur, x.quires with
  | some c, u :: rest =>
    match c.status with
    | none => s
    | some st =>
      if qCode c.bytes = 9 ∧ st = 0 ∧ markerHeld s p (BitVec.ofNat 32 (fieldN c.bytes 8 4)) then s
      else
      let s1 := if qCode c.bytes = 9 ∧ st = 0 then digestMarker s p (BitVec.ofNat 32 (fieldN c.bytes 8 4)) (queueUnit p q) else s
      let (sig, s2) := if qSignal c.bytes then queueSignal s1 p q (fieldN c.bytes 56 8) 1 false .doneSignal else (St.ok, s1)
      let final := if st = 0 then sig else st.toNat
      let y := queueOf s2 p q
      if final ≠ St.ok ∧ !qContinue c.bytes then
        quireEnds (setQueue s2 p q { y with cur := none, halted := true, haltStatus := BitVec.ofNat 16 final }) p q u final
      else if c.index + 1 < u.count then startNext (setQueue s2 p q { y with cur := none, next := c.index + 1 }) p q
      else startNext (quireEnds (setQueue s2 p q { y with cur := none, next := 0, quires := rest, haltStatus := 0 }) p q u St.ok) p q
  | none, _ => startNext s p q
  | some _, [] => s

/-! ### KERNEL (R218, R230, R236, R249) -/

/-- The cores that a KERNEL names, as partition-local indices; none when one lies outside the partition or is left faulted. -/
def kernelCores (s : State) (p : Nat) (b : List Byte) : Option (List Nat) :=
  let all := partCores s p
  let first := fieldN b 20 2
  let n := fieldN b 22 2
  let l := (all.drop first).take n
  if first + n > all.length ∨ l.any (fun c => s.cpu.bad.contains c) then none else some l

/-- A KERNEL's start request: its set is fixed, and it waits for its cores. -/
def execKernel (p q : Nat) (s : State) : Host.Outcome State Fault Refusal :=
  .next (qAct s p q 1 (fun b s =>
    let len := fieldN b 16 4
    let l := fieldN b 32 1
    qChecked p q b [(decide (len < 8) || decide (len > 65536) || (decide (l > 7) && l != 0xFF), St.quireFormat)] s (fun s =>
      match kernelCores s p b with
      | none => queueStatus s p q St.coreInvalid
      | some cs =>
        let x := queueOf s p q
        setQueue s p q { x with cores := cs, running := false,
                                cur := x.cur.map (fun c => { c with begun := true, arrived := s.time }) })))

/-- Whether a queue's KERNEL waits for its cores. -/
def kernelWaits (x : Queue) : Bool :=
  match x.cur with
  | some c => qCode c.bytes == 1 && c.begun && c.status.isNone && !x.running
  | none => false

/-- Whether an older waiting KERNEL of the partition reserves a core. -/
def reservedByOlder (s : State) (p q arrived n : Nat) : Bool :=
  (partOf s p).queues.any (fun e =>
    kernelWaits e.2 && e.2.cores.contains n &&
      match e.2.cur with
      | some c => decide (c.arrived < arrived) || (c.arrived == arrived && decide (e.1 < q))
      | none => false)

/-- A core begins a kernel: registers as R218 gives them, its code loaded, offset 0. What an earlier kernel's fabric instructions have
still to do goes on (R240, log 47). -/
def launch (s : State) (p q index : Nat) (code : List Byte) (arg ledger size : Nat) (n j : Nat) : State :=
  let loc := (indexOf? (· == n) (partCores s p)).getD 0
  let c := { coreOf s n with
    x := ([(1, arg), (2, loc), (3, j), (4, size), (5, ledger)] : List (Nat × Nat)).map (fun e => (e.1, BitVec.ofNat 64 e.2))
    v := [], a := [], pc := 0, run := .running, code := code, job := some (p, q), twait := none }
  blot (setCore s n c) n 3 (some p) (index % 2 ^ 32 + q * 2 ^ 32)

/-- The cores of the summary kernel: the partition's four of highest index (R295). -/
def summaryCores (s : State) (p : Nat) : List Nat := (partCores s p).drop ((partCores s p).length - 4)

/-- The firmware's summary kernel waits on queue 31 for its cores (R236, R295). -/
def queueSummary (s : State) (p : Nat) : State :=
  setQueue s p 31 { queueOf s p 31 with
    quires := [{ dpa := 0, count := 1, composer := true }]
    cur := some { bytes := padTo 64 [1], index := 0, begun := true, arrived := s.time, since := stamp s }
    cores := summaryCores s p, running := false }

/-- The summary kernel starts on its cores, whose instructions are the firmware's (log 66). -/
def startSummary (s : State) (p : Nat) : State :=
  let x := queueOf s p 31
  let s1 := x.cores.foldl (fun s n => blot (setCore s n { coreOf s n with run := .summary, job := some (p, 31) }) n 3 (some p) (31 * 2 ^ 32)) s
  setQueue s1 p 31 { queueOf s1 p 31 with running := true }

/-- Whether a queue's kernel is the summary kernel: queue 31 while the composer folds. -/
def runsSummary (s : State) (p q : Nat) : Bool := q == 31 && (mget {} s.stp.comps p).folding

/-- KERNEL_START: every core of the set is idle and none is reserved for an older KERNEL. -/
def execKernelStart (p q : Nat) (s : State) : Host.Outcome State Fault Refusal :=
  let x := queueOf s p q
  .next (
    match x.cur with
    | none => s
    | some c =>
      if !kernelWaits x || x.cores.any (fun n => (coreOf s n).run != .idle || reservedByOlder s p q c.arrived n) then s
      else if runsSummary s p q then startSummary s p
      else
        let b := c.bytes
        match readBytes s (qRq p q) (fieldN b 8 8) (fieldN b 16 4) (qClass b) with
        | (st, code, poison, s1) =>
          if accessWaits s (qRq p q) false (fieldN b 8 8) (fieldN b 16 4) (qClass b) then s
          else if st ≠ St.ok then queueStatus s1 p q st
          else if poison then queueStatus s1 p q St.poisoned
          else
            let s2 := (x.cores.zipIdx).foldl (fun s e =>
              launch s p q c.index code (fieldN b 24 8) (fieldN b 32 1) x.cores.length e.1 e.2) s1
            setQueue s2 p q { queueOf s2 p q with running := true })

/-- A core of a kernel has ended: halted or faulted, and its store queue is drained. -/
def coreEnded (c : Core) : Bool := (c.run == .halted || c.run == .faulted) && c.stores.isEmpty && c.xwrs.isEmpty

/-- Cores of an ended kernel are idle again. -/
def freeCores (s : State) (cs : List Nat) : State :=
  cs.foldl (fun s n => setCore s n { coreOf s n with run := .idle, job := none }) s

/-- A halted core whose writes to peers have all been answered (R227, R241). -/
def writesAnswered (s : State) (n : Nat) : Bool :=
  (coreOf s n).run == .faulted || !s.duc.remotes.any (fun r => r.use == .coreWrite n)

/-- The summary kernel ends with a status: its cores are idle again (R236). -/
def endSummary (s : State) (p st : Nat) : State :=
  let x := queueOf s p 31
  queueStatus (bump (freeCores (setQueue s p 31 { x with running := false, cores := [] }) x.cores) p 34 1) p 31 st

/-- KERNEL_COMPLETE. -/
def execKernelComplete (p q : Nat) (s : State) : Host.Outcome State Fault Refusal :=
  let x := queueOf s p q
  .next (
    if x.running && x.cores.all (fun n => coreEnded (coreOf s n) && writesAnswered s n) then
      let st := if x.cores.any (fun n => (coreOf s n).run == .faulted) then St.kernelFault else St.ok
      let s1 := freeCores (setQueue s p q { x with running := false, cores := [] }) x.cores
      queueStatus (bump s1 p 34 1) p q st
    else s)

/-! ### Data commands -/

def execCopy (p q : Nat) (s : State) : Host.Outcome State Fault Refusal :=
  .next (qAct s p q 2 (fun b s =>
    let src := fieldN b 8 8
    let dst := fieldN b 16 8
    let len := fieldN b 24 8
    qChecked p q b [(len == 0, St.quireFormat), (src % 64 != 0 || dst % 64 != 0 || len % 64 != 0 || !isDpa src || !isDpa dst, St.badAddress)] s
      (fun s =>
        if copyHeld s (qRq p q) true true src dst len (qClass b) then s
        else let (st, s1) := copyWithin s (qRq p q) src dst len (qClass b); queueStatus s1 p q st)))

def execFoldCopy (p q : Nat) (s : State) : Host.Outcome State Fault Refusal :=
  .next (qAct s p q 3 (fun b s =>
    let src := fieldN b 8 8
    let dst := fieldN b 16 8
    let n := fieldN b 24 4
    qChecked p q b ((n == 0, St.quireFormat) :: expandChecks s (qRq p q) src dst n (qClass b)) s
      (fun s => (startExpand (qBegin s p q) (qRq p q) src n (.memory dst) (qClass b) (some (p, q))).2)))

def execReduce (p q : Nat) (s : State) : Host.Outcome State Fault Refusal :=
  .next (qAct s p q 4 (fun b s =>
    let src := fieldN b 8 8
    let dst := fieldN b 16 8
    let len := fieldN b 24 4
    let op := fieldN b 28 1
    let ord := if bit (fieldN b 29 1) 0 then some (fieldN b 30 1, fieldN b 32 4) else none
    qChecked p q b ((len == 0, St.quireFormat) :: applyChecks src dst len op (qClass b)) s
      (fun s =>
        if applyHeld s (qRq p q) src dst len (qClass b) then s
        else
          let (st, n, s1) := arithApply s (qRq p q) src dst len op ord (qClass b)
          if n = 0 then queueStatus s1 p q st else qBegin (applyWaits s1 (some (p, q)) n st) p q)))

/-- Descriptors placed end to end at a DPA: `n` of them, or the status with which one cannot be read. -/
def readDescs (rq : Requester) (cls : Nat) : Nat → Nat → State → (Nat × List (List Byte)) × State
  | 0, _, s => ((St.ok, []), s)
  | n + 1, a, s =>
    match readBytes s rq a 64 cls with
    | (st, h, poison, s1) =>
      if st ≠ St.ok then ((st, []), s1)
      else if poison then ((St.poisoned, []), s1)
      else
        let bad := fieldN h 16 2 = 0 ∨ fieldN h 16 2 > 256
        match readBytes s1 rq a (if bad then 64 else descLen h) cls with
        | (st2, d, poison2, s2) =>
          if st2 ≠ St.ok then ((st2, []), s2)
          else if poison2 then ((St.poisoned, []), s2)
          else
            match readDescs rq cls n (a + d.length) s2 with
            | ((st3, l), s3) => ((st3, d :: l), s3)

def execGatherRes (p q : Nat) (s : State) : Host.Outcome State Fault Refusal :=
  .next (qAct s p q 5 (fun b s =>
    let n := fieldN b 16 1
    qChecked p q b [(n == 0 || decide (n > 16), St.quireFormat)] s (fun s =>
      if accessWaits s (qRq p q) false (fieldN b 8 8) 64 (qClass b) then s
      else
      match readDescs (qRq p q) (qClass b) n (fieldN b 8 8) s with
      | ((st, ds), s1) =>
        if st ≠ St.ok then queueStatus s1 p q st
        else
          let (id, s2) := startGather (qBegin s1 p q) p (some (p, q)) (qClass b) ds
          gatherEnd s2 id)))

/-! ### Tallies -/

def execTallySignal (p q : Nat) (s : State) : Host.Outcome State Fault Refusal :=
  .next (qAct s p q 6 (fun b s =>
    let k := fieldN b 20 1
    qChecked p q b [(decide (k > 1), St.quireFormat)] s (fun s =>
      let g := fieldN b 8 8
      match queueSignal (qBegin s p q) p q g (BitVec.ofNat 32 (fieldN b 16 4)) (k == 1) (.queueSignal p q) with
      | (st, s1) =>
        match targetOf s g with
        | .peer _ _ => if st = St.ok then s1 else queueStatus s1 p q st
        | _ => queueStatus s1 p q st)))

def execTallyWait (p q : Nat) (s : State) : Host.Outcome State Fault Refusal :=
  .next (qAct s p q 7 (fun b s =>
    let k := fieldN b 20 1
    let lines := fieldN b 24 4
    qChecked p q b [(decide (k > 1), St.quireFormat)] s (fun s =>
      match targetOf s (fieldN b 8 8) with
      | .bad st => queueStatus s p q (if st = St.badAddress then st else St.tallyInvalid)
      | .peer _ _ => queueStatus s p q St.tallyInvalid
      | .here dpa =>
        match tallyAt dpa with
        | none => queueStatus s p q St.tallyInvalid
        | some t =>
          let w : QWaiter :=
            { p := p, q := q, tally := t, target := BitVec.ofNat 32 (fieldN b 16 4), eq := k == 1,
              deadline := if lines = 0 then none else some (BitVec.ofNat 64 (min (2 ^ 64 - 1) ((stamp s).toNat + lines * 65536))) }
          if underReset s (tallyQuad t) then queueStatus s p q St.destReset
          else
            let s1 := blot (qBegin s p q) (queueUnit p q) 6 (some p) (waitBeginArg t w.eq w.target)
            if waitHolds (tallyGet s t) w.target w.eq then endQueueWait s1 w 0
            else { s1 with cpu.waiters := s1.cpu.waiters ++ [w] })))

/-- TALLY_WAIT_TIMEOUT: the wait's lines have passed. -/
def execTallyWaitTimeout (p q : Nat) (s : State) : Host.Outcome State Fault Refusal :=
  .next (
    match s.cpu.waiters.find? (fun w => w.p == p && w.q == q) with
    | some w => match w.deadline with
      | some d => if d.toNat ≤ (stamp s).toNat then endQueueWait s w 1 else s
      | none => s
    | none => s)

/-! ### Range markers (R429, R430) -/

/-- The counters whose differences a range record carries. -/
def rangeSelect (s : State) (p : Nat) : List Nat := mget [0, 1, 3, 10, 12, 15, 19, 33] s.obs.select p

/-- A range closes: its record joins the table of the last 64 and the trace. -/
def closeRange (s : State) (p q : Nat) (r : OpenRange) (depth : Nat) (abandoned : Bool) : State :=
  let sel := rangeSelect s p
  let b := padTo 64 (leBytes 8 r.stamp.toNat ++ leBytes 4 r.marker.toNat ++ leBytes 4 r.user.toNat ++
    [BitVec.ofNat 8 q, BitVec.ofNat 8 depth, BitVec.ofNat 8 (b2n abandoned)] ++ zeros 5 ++
    diffs (sel.map (fun i => r.base.getD i 0)) (sel.map (counter s p)))
  tracePart { s with obs.ranges := mput s.obs.ranges p (lastN 64 (mget [] s.obs.ranges p ++ [b])) } p 0x05 (queueUnit p q) b

def execMarkBegin (p q : Nat) (s : State) : Host.Outcome State Fault Refusal :=
  .next (qAct s p q 8 (fun b s =>
    let x := queueOf s p q
    qChecked p q b [(decide (x.ranges.length ≥ 16), St.markDepth)] s (fun s =>
      let r : OpenRange := { marker := BitVec.ofNat 32 (fieldN b 8 4), user := BitVec.ofNat 32 (fieldN b 12 4), stamp := stamp s,
                             base := counters s p }
      let s1 := tracePart (setQueue s p q { x with ranges := x.ranges ++ [r] }) p 0x04 (queueUnit p q)
        (slice b 8 8 ++ [BitVec.ofNat 8 q, BitVec.ofNat 8 (x.ranges.length + 1)])
      queueStatus s1 p q St.ok)))

def execMarkEnd (p q : Nat) (s : State) : Host.Outcome State Fault Refusal :=
  .next (qAct s p q 9 (fun b s =>
    let x := queueOf s p q
    qChecked p q b [] s (fun s =>
      match x.ranges.getLast? with
      | none => queueStatus s p q St.markMismatch
      | some r =>
        if r.marker.toNat ≠ fieldN b 8 4 then queueStatus s p q St.markMismatch
        else queueStatus (closeRange (setQueue s p q { x with ranges := x.ranges.dropLast }) p q r x.ranges.length false) p q St.ok)))

/-! ### Ledgers (R243 to R245) -/

/-- The lowest places that hold no descriptor. -/
def freePlaces (x : Ledger) (n : Nat) : List Nat :=
  ((List.range (2 ^ x.log2)).filter (fun i => !x.descs.any (fun d => d.place == i))).take n

/-- Descriptors appended at their places, in order. -/
def appendDescs (s : State) (p q l cls : Nat) : List (Nat × List Byte) → State → Nat × State
  | [], t => (St.ok, t)
  | (i, d) :: r, t =>
    match writeBytes t (qRq p q) ((ledgerOf t p l).dpa + 32 * i) d false cls with
    | (st, t1) =>
      if st ≠ St.ok then (st, t1)
      else appendDescs s p q l cls r (setLedger t1 p l { ledgerOf t1 p l with descs := (ledgerOf t1 p l).descs ++ [{ place := i, bytes := d }] })

/-- A fill of checked fields: its status. -/
def ledgerFill (s : State) (p q l flags src n cls : Nat) : Nat × State :=
  let s0 := if bit flags 1 then setLedger s p l { ledgerOf s p l with sealed := false, descs := [] } else s
  let x := ledgerOf s0 p l
  if x.sealed then (St.ledgerSealed, s0)
  else if x.descs.length + n > 2 ^ x.log2 then (St.ledgerFull, s0)
  else
    match readBytes s0 (qRq p q) src (32 * n) cls with
    | (st, d, poison, s1) =>
      if st ≠ St.ok then (st, s1)
      else if poison then (St.poisoned, s1)
      else
        match appendDescs s1 p q l cls ((freePlaces x n).zip (chunks 32 d)) s1 with
        | (st2, s2) =>
          let s3 := if st2 = St.ok ∧ bit flags 0 then setLedger s2 p l { ledgerOf s2 p l with sealed := true } else s2
          (st2, blot s3 (ledgerUnit p l) 0x0A (some p) (n % 2 ^ 32 + b2n (ledgerOf s3 p l).sealed * 2 ^ 32))

def execLedgerFill (p q : Nat) (s : State) : Host.Outcome State Fault Refusal :=
  .next (qAct s p q 0x0C (fun b s =>
    let l := fieldN b 8 1
    qChecked p q b [(decide (l > 7) || !(ledgerOf s p l).configured, St.quireFormat)] s (fun s =>
      if accessWaits s (qRq p q) false (fieldN b 16 8) (32 * fieldN b 24 4) (qClass b) ||
          accessWaits s (qRq p q) true (ledgerOf s p l).dpa (32 * 2 ^ (ledgerOf s p l).log2) (qClass b) then s
      else
      let (st, s1) := ledgerFill s p q l (fieldN b 9 1) (fieldN b 16 8) (fieldN b 24 4) (qClass b)
      queueStatus s1 p q st)))

/-! ### Resetting a queue (R237, R430) -/

/-- Open ranges close with ABANDONED, innermost first. -/
def abandonRanges (s : State) (p q : Nat) : State :=
  let l := (queueOf s p q).ranges
  (l.zipIdx.reverse).foldl (fun s e => closeRange s p q e.1 (e.2 + 1) true) s

/-- Cores of a running kernel that is discarded stop; their store queues drain. -/
def stopCores (s : State) (p q : Nat) : State :=
  let x := queueOf s p q
  if x.running then
    x.cores.foldl (fun s n => setCore s n { coreOf s n with run := .idle, job := none, twait := none }) s
  else s

/-- What units hold for the command in progress no longer reports to the queue. -/
def orphan (s : State) (p q : Nat) : State :=
  { s with
    cpu.waiters := s.cpu.waiters.filter (fun w => !(w.p == p && w.q == q))
    fold.reqs := s.fold.reqs.map (fun (k, r) => (k, if r.queue = some (p, q) then { r with queue := none } else r))
    ari.gathers := s.ari.gathers.map (fun g => if g.queue = some (p, q) then { g with queue := none } else g)
    duc.remotes := s.duc.remotes.filter (fun r => r.use != .queueSignal p q) }

/-- Every pending quire of a queue is discarded and completes with ABORTED; the latch banks stay (R428). -/
def resetQueue (s : State) (p q : Nat) : State :=
  let s1 := orphan (stopCores (abandonRanges s p q) p q) p q
  let s2 := setQueue s1 p q { latch := (queueOf s1 p q).latch, haltStatus := BitVec.ofNat 16 St.aborted }
  finishWait s2 (.quire p q) St.aborted []

/-! ### Firmware commands (R231, R233, R237, R251) -/

/-- State of a core as CORE_MAP reports it. -/
def coreMapState (s : State) (n : Nat) : Nat :=
  if s.cpu.bad.contains n then 2
  else
    match (coreOf s n).run with
    | .idle => 0
    | .running => 1
    | .summary => 1
    | .halted => 1
    | .faulted => 2
    | .reset => 3

def coreMapEntry (s : State) (n : Nat) : List Byte :=
  if n ≥ coreCount s then leBytes 4 0xFFFFFFFF
  else
    let i := ((List.range n).filter (fun m => coreQuad s m == coreQuad s n)).length
    [BitVec.ofNat 8 (coreQuad s n), BitVec.ofNat 8 i, BitVec.ofNat 8 ((corePart s n).getD 0xFF), BitVec.ofNat 8 (coreMapState s n)]

def execCoreMap (c : Cmd) (s : State) : Host.Outcome State Fault Refusal :=
  .next (firmware { op := 0x0601, need := 8 } (fun c s =>
    reportTo (p64 c 0) (((List.range 256).map (coreMapEntry s)).flatten) [] s) c s)

def queueIdle (x : Queue) : Bool := x.quires.isEmpty && x.cur.isNone

/-- Every queue and core of a partition is idle (R231). -/
def partIdle (s : State) (p : Nat) : Bool :=
  (partOf s p).queues.all (fun e => queueIdle e.2) &&
    (partCores s p).all (fun n => (coreOf s n).run == .idle || s.cpu.bad.contains n)

def execPartConfig (c : Cmd) (s : State) : Host.Outcome State Fault Refusal :=
  .next (firmware { op := 0x0602, need := 2, vf := false } (fun c s =>
    let p := p8 c 0
    let m := p8 c 1
    checked [(decide (p > 3) || decide (m > 15) ||
        (List.range 4).any (fun o => o != p && (partOf s o).mask &&& BitVec.ofNat 4 m != 0), St.invalidField),
      (!partIdle s p, St.partitionBusy)] s
      (.done St.ok [] (concordUpdate (setPart s p { mask := BitVec.ofNat 4 m })))) c s)

def execQuireSubmit (c : Cmd) (s : State) : Host.Outcome State Fault Refusal :=
  .next (firmware { op := 0x0603, need := 16, part := some 0 } (fun c s =>
    let p := p8 c 0
    let q := p8 c 1
    let x := queueOf s p q
    checked
      [ (decide (p > 3) || decide (q > 31) || p16 c 2 == 0 || !configured s p, St.invalidField),
        (p64 c 8 % 64 != 0 || !isDpa (p64 c 8), St.badAddress),
        (decide (q ≥ 28) && (match mfind s.stp.comps p with | some k => k.enabled || k.run.isSome | none => false), St.queueReserved),
        (decide (x.quires.length ≥ 16), St.resourceExhausted) ] s
      (.wait (.quire p q)
        (startNext (setQueue s p q { x with quires := x.quires ++ [{ dpa := p64 c 8, count := p16 c 2, composer := false }] }) p q))) c s)

/-- QUERY's state: 0 idle, 1 running, 2 waiting, 3 halted. -/
def queueState (s : State) (p q : Nat) : Nat :=
  let x := queueOf s p q
  if x.halted then 3
  else if x.quires.isEmpty then 0
  else if x.stopped || kernelWaits x || s.cpu.waiters.any (fun w => w.p == p && w.q == q) then 2
  else 1

/-- RESUME: the rest of the halted quire is discarded, unsignalled, and the next starts. -/
def resumeQueue (s : State) (p q : Nat) : State :=
  let x := queueOf s p q
  if x.halted then startNext (setQueue s p q { x with halted := false, quires := x.quires.drop 1, next := 0 }) p q else s

def execQueueControl (c : Cmd) (s : State) : Host.Outcome State Fault Refusal :=
  .next (firmware { op := 0x0604, need := 3, part := some 0 } (fun c s =>
    let p := p8 c 0
    let q := p8 c 1
    let x := queueOf s p q
    checked [(decide (p > 3) || decide (q > 31) || p8 c 2 == 0 || decide (p8 c 2 > 3), St.invalidField)] s
      (if p8 c 2 = 1 then .done St.ok [] (resumeQueue s p q)
       else if p8 c 2 = 2 then .done St.ok [] (resetQueue s p q)
       else
         .done St.ok ([BitVec.ofNat 8 (queueState s p q), 0] ++ leBytes 2 x.quires.length ++
           leBytes 4 (match x.cur with | some k => k.index | none => x.next)) s)) c s)

/-- A VF's tallies are those of its partition's quadrants. -/
def foreignTally (c : Cmd) (s : State) : Bool :=
  decide (p16 c 0 < 16384) && !(partOf s (c.fn - 1)).mask.getLsbD (tallyQuad (p16 c 0))

def execTallyOp (c : Cmd) (s : State) : Host.Outcome State Fault Refusal :=
  .next (firmware { op := 0x0605, need := 8, refuse := foreignTally } (fun c s =>
    let t := p16 c 0
    let v := BitVec.ofNat 32 (p32 c 4)
    checked [(decide (t ≥ 16384), St.tallyInvalid), (decide (p8 c 2 > 2), St.invalidField), (underReset s (tallyQuad t), St.destReset)] s
      (.done St.ok (leBytes 4 (tallyGet s t).toNat)
        (if p8 c 2 = 0 then s else tallySignalAs s t v (p8 c 2 == 1) 0x9000 (cmdPart c)))) c s)

def execLedgerConfig (c : Cmd) (s : State) : Host.Outcome State Fault Refusal :=
  .next (firmware { op := 0x0606, need := 16, part := some 0 } (fun c s =>
    let p := p8 c 0
    let l := p8 c 1
    let k := p8 c 2
    let dpa := p64 c 8
    let len := 32 * 2 ^ k
    let sts := (regionSteps dpa len).map (cacheStatusAt s (some p))
    let outside := (regionSteps dpa len).any (fun a => match whereIs a with | .region .fast _ => false | _ => true)
    checked
      [ (decide (p > 3) || decide (l > 7) || decide (k < 4) || decide (k > 16) || !configured s p, St.invalidField),
        (!isDpa dpa, St.badAddress), (outside, St.invalidField), (firstBad sts != St.ok, firstBad sts),
        (rangeFenced s dpa len, St.windowFenced) ] s
      (.done St.ok [] (setLedger s p l { configured := true, log2 := k, dpa := dpa }))) c s)

def execLedgerQuery (c : Cmd) (s : State) : Host.Outcome State Fault Refusal :=
  .next (firmware { op := 0x0607, need := 2, part := some 0 } (fun c s =>
    let x := ledgerOf s (p8 c 0) (p8 c 1)
    checked [(decide (p8 c 0 > 3) || decide (p8 c 1 > 7), St.invalidField)] s
      (.done St.ok ([BitVec.ofNat 8 (if !x.configured then 0 else if x.sealed then 2 else 1), 0, 0, 0] ++ leBytes 4 x.descs.length ++
        leBytes 8 x.served.toNat) s)) c s)

def execCoreFaultRead (c : Cmd) (s : State) : Host.Outcome State Fault Refusal :=
  .next (firmware { op := 0x0608, need := 11 } (fun c s =>
    let l := mget {} s.cpu.faults (p8 c 10)
    let (rs, l1) := logTake l (p16 c 8)
    checked [(decide (p8 c 10 > 1), St.invalidField)] s
      (reportTo (p64 c 0) rs.flatten (leBytes 2 rs.length ++ leBytes 4 l.overwritten) { s with cpu.faults := mput s.cpu.faults (p8 c 10) l1 })) c s)

end Sys2Proof.Machine
end

