-- ==== Sys2Proof/Machine/Observation.lean ====
section
/-! DEFINITION. The commands of observation (R451), PC samples (R441), the drain of trace buffers (R438, R439) and the step limit
(R446). -/
namespace Sys2Proof.Machine

/-! ### Counters and latches (R423, R425, R428) -/

def execObsCounters (c : Cmd) (s : State) : Host.Outcome State Fault Refusal :=
  .next (firmware { op := 0x0C01, need := 16, part := some 0 } (fun c s =>
    checked [(decide (p8 c 0 > 3), St.invalidField)] s
      (reportTo (p64 c 8) (leBytes 8 (stamp s).toNat ++ ((counters s (p8 c 0)).map (fun v => leBytes 8 v.toNat)).flatten) [] s)) c s)

/-- The record of R428. -/
def latchRecord (l : LatchBank) : List Byte :=
  leBytes 8 l.start.toNat ++ leBytes 8 l.stop.toNat ++ leBytes 4 l.index ++ [BitVec.ofNat 8 l.code, BitVec.ofNat 8 l.state] ++
    leBytes 2 l.status.toNat ++ leBytes 8 l.quire ++ padTo 384 ((l.first.map (fun v => leBytes 8 v.toNat)).flatten) ++
    padTo 384 ((l.last.map (fun v => leBytes 8 v.toNat)).flatten)

def execObsLatchRead (c : Cmd) (s : State) : Host.Outcome State Fault Refusal :=
  .next (firmware { op := 0x0C02, need := 16, part := some 0 } (fun c s =>
    checked [(decide (p8 c 0 > 3) || decide (p8 c 1 > 31), St.invalidField)] s
      (reportTo (p64 c 8) (latchRecord (queueOf s (p8 c 0) (p8 c 1)).latch) [] s)) c s)

/-- Instances of each unit class (R422). -/
def unitValid (s : State) (u : Nat) : Bool :=
  let i := u % 4096
  match u / 4096 with
  | 0x0 => decide (i < coreCount s)
  | 0x1 => decide (i < 128)
  | 0x2 => decide (i < 384)
  | 0x3 => decide (i < 88)
  | 0x4 => decide (i < 16)
  | 0x5 => decide (i < 4)
  | 0x6 => decide (i < 32)
  | 0x7 => decide (i < 2)
  | 0x8 => decide (i < 8)
  | 0x9 => decide (i < 2)
  | 0xA => i == 0
  | 0xB => i == 0
  | 0xC => decide (i < 2)
  | _ => false

/-- The partition of a core, queue or ledger; of the other classes a VF may name none (R451). -/
def unitPart (s : State) (u : Nat) : Option Nat :=
  match u / 4096 with
  | 0x0 => if u % 4096 < coreCount s then corePart s u else none
  | 0x1 => some (u % 4096 / 32)
  | 0x6 => some (u % 4096 / 8)
  | _ => none

/-- A VF names only cores, queues and ledgers of its own partition. -/
def unitRefused (c : Cmd) (s : State) : Bool := unitPart s (p16 c 0) != some (c.fn - 1)

/-- The highest event of each unit class (R426); they are numbered from 1. -/
def lastEvent : Nat → Nat
  | 0x0 => 8 | 0x1 => 4 | 0x2 => 8 | 0x3 => 5 | 0x4 => 8 | 0x5 => 2 | 0x6 => 3 | 0x7 => 4 | 0x8 => 12 | 0x9 => 3 | 0xA => 4 | 0xB => 2
  | 0xC => 2 | _ => 0

def eventListed (e : Nat) : Bool := decide (1 ≤ e % 4096) && decide (e % 4096 ≤ lastEvent (e / 4096))

/-- The counter that a record configures; CLEAR sets it to 0. -/
def configProg (g : Prog) (c : Cmd) : Prog :=
  { g with event := p16 c 8, filter := p8 c 10, classes := BitVec.ofNat 8 (p8 c 11), on := bit (p8 c 12) 0,
           live := if bit (p8 c 12) 1 then 0 else g.live }

def execObsProgConfig (c : Cmd) (s : State) : Host.Outcome State Fault Refusal :=
  .next (firmware { op := 0x0C03, need := 16, refuse := unitRefused } (fun c s =>
    let u := p16 c 0
    let e := p16 c 8
    let f := p8 c 10
    checked
      [ (!unitValid s u, St.unitInvalid),
        (decide (p8 c 2 > 7) || e / 4096 != u / 4096 || !eventListed e || (decide (f > 3) && f != 0xF), St.invalidField) ] s
      (.done St.ok [] { s with obs.progs := mmod {} s.obs.progs (u * 8 + p8 c 2) (fun g => configProg g c) })) c s)

def execObsProgRead (c : Cmd) (s : State) : Host.Outcome State Fault Refusal :=
  .next (firmware { op := 0x0C04, need := 16, refuse := unitRefused } (fun c s =>
    checked [(!unitValid s (p16 c 0), St.unitInvalid)] s
      (reportTo (p64 c 8)
        (((List.range 8).map (fun k =>
          let g := mget {} s.obs.progs (p16 c 0 * 8 + k)
          leBytes 8 g.live.toNat ++ leBytes 8 g.start.toNat ++ leBytes 8 g.stop.toNat)).flatten) [] s)) c s)

/-! ### Trace buffers (R436 to R440) -/

/-- The partition whose quadrant an instance belongs to. -/
def instPart (s : State) (i : Nat) : Option Nat :=
  if i < 4 then (List.range 4).find? (fun p => (partOf s p).mask.getLsbD i) else none

/-- A VF names only the instances of its quadrants. -/
def traceRefused (c : Cmd) (s : State) : Bool := instPart s (p8 c 0) != some (c.fn - 1)

/-- The claim that recording needs (R436, R88). -/
def traceClaimed (s : State) (i owner : Nat) : Bool := holds s (mkRes 2 i) 1 owner || holds s (mkRes 2 i) 2 owner

def setTrace (s : State) (i : Nat) (t : Trace) : State := { s with obs.traces := mput s.obs.traces i t }

/-- TRACE_STOPPED (R453). -/
def traceStopped (s : State) (i why : Nat) : State := post s 0x0C02 ((instPart s i).getD 0xFF) [BitVec.ofNat 8 i, BitVec.ofNat 8 why] false

/-- Recording ends, for a reason of R453. -/
def stopTrace (s : State) (i why : Nat) : State :=
  let t := mget {} s.obs.traces i
  if t.recording then traceStopped (setTrace s i { t with recording := false }) i why else s

def execObsTraceConfig (c : Cmd) (s : State) : Host.Outcome State Fault Refusal :=
  .next (firmware { op := 0x0C05, need := 18, refuse := traceRefused } (fun c s =>
    let i := p8 c 0
    let k := p8 c 4
    let host := bit (p8 c 16) 0
    let a := p64 c 8
    checked
      [ (decide (i > 5) || (k != 0 && (decide (k < 10) || decide (k > 24))) || decide (p8 c 5 > 15) || decide (p8 c 17 < 16) ||
          decide (p8 c 17 > 30), St.invalidField),
        (a % 64 != 0 || (!host && !isDpa a), St.badAddress), (!traceClaimed s i c.fn, St.notClaimed) ] s
      (let t := mget {} s.obs.traces i
       let g : Trace := { t with
         configured := true, stopMode := bit (p8 c 1) 0, types := BitVec.ofNat 16 (p16 c 2), pcPeriod := k, tagBits := p8 c 5,
         opMask := BitVec.ofNat 16 (p16 c 6), ring := a, host := host, log2 := p8 c 17, wr := 64 }
       .done St.ok [] (setTrace s i g))) c s)

def execObsTraceControl (c : Cmd) (s : State) : Host.Outcome State Fault Refusal :=
  .next (firmware { op := 0x0C06, need := 2, refuse := traceRefused } (fun c s =>
    let i := p8 c 0
    let t := mget {} s.obs.traces i
    checked
      [ (decide (i > 5) || p8 c 1 == 0 || decide (p8 c 1 > 3), St.invalidField),
        (p8 c 1 == 1 && !traceClaimed s i c.fn, St.notClaimed), (!t.configured, St.traceUnconfigured) ] s
      (if p8 c 1 = 1 then .done St.ok [] (setTrace s i { t with recording := true })
       else if p8 c 1 = 2 then .done St.ok [] (stopTrace s i 2)
       else if t.pend.isEmpty then .done St.ok [] s
       else .wait (.flush i) s)) c s)

/-- On whose behalf an instance's DMA runs. -/
def traceRq (s : State) (i : Nat) : Requester := match instPart s i with | some p => .part p | none => .device

/-- Bytes of the ring in host or device memory, or none when they cannot be read. -/
def ringRead (s : State) (i : Nat) (t : Trace) (off n : Nat) : Option (List Byte × State) :=
  if t.host then (hostRead? s (t.ring + off) n).map (fun b => (b, hostBytesRead s n))
  else
    match readBytes s (traceRq s i) (t.ring + off) n 3 with
    | (st, b, poison, s1) => if st = St.ok ∧ !poison then some (b, s1) else none

/-- Bytes written to the ring, in TRACE class (counter 23). -/
def ringWrite (s : State) (i : Nat) (t : Trace) (off : Nat) (b : List Byte) : Option State :=
  if t.host then (hostWrite? s (t.ring + off) b).map (fun s1 => bumpO (bumpO s1 (instPart s i) 22 b.length) (instPart s i) 23 b.length)
  else
    match writeBytes s (traceRq s i) (t.ring + off) b false 3 with
    | (st, s1) => if st = St.ok then some s1 else none

/-- The tier whose bucket a burst is charged to (R439). -/
def traceTier (t : Trace) : Nat :=
  if t.host then 0
  else match whereIs t.ring with | .region .cap _ => 1 | _ => 0

/-- Space from a write offset to the read offset, around the ring; one header's length is kept free, so that equal offsets mean empty. -/
def ringSpace (size wr rd : Nat) : Nat := if wr < rd then rd - wr - 16 else (size - wr) + (rd - 64) - 16

/-- Where the pending records go: pieces with their offsets, the next write offset, and the records that did not fit. -/
def placeRecords (size : Nat) : List (List Byte) → Nat → Nat → List (Nat × List Byte) × Nat × List (List Byte)
  | [], wr, _ => ([], wr, [])
  | r :: l, wr, rd =>
    let wraps := decide (wr + r.length > size)
    let pad := if wraps then size - wr else 0
    if ringSpace size wr rd < pad + r.length then ([], wr, r :: l)
    else
      let fill : List (Nat × List Byte) :=
        if pad = 0 then [] else [(wr, padTo pad ([0, BitVec.ofNat 8 (pad / 16)] ++ slice r 2 14))]
      let at_ := if wraps then 64 else wr
      let next := at_ + r.length
      let (ps, w, rest) := placeRecords size l next rd
      (fill ++ (at_, r) :: ps, w, rest)

/-- The records of one burst: up to 4 KiB. -/
def burstOf : Nat → List (List Byte) → List (List Byte)
  | _, [] => []
  | room, r :: l => if r.length ≤ room then r :: burstOf (room - r.length) l else []

/-- Whether a line has passed since a record was made, by its header (R437). -/
def lineOld (s : State) (r : List Byte) : Bool :=
  fieldN r 4 4 != s.rul.epoch.toNat || decide (fieldN r 8 8 + 65536 ≤ (stamp s).toNat)

/-- A burst is due: 4 KiB are pending, a line has passed since the oldest record, or a FLUSH waits (R439, R451). -/
def burstDue (s : State) (i : Nat) (t : Trace) : Bool :=
  decide (traceBytes t ≥ 4096) || (match t.pend with | r :: _ => lineOld s r | [] => false) || s.ink.running.any (fun r => r.wait == .flush i)

/-- Placed pieces are written, then the write offset and the count of dropped records that cover them (R438). -/
def writeRing (s : State) (i : Nat) (t : Trace) (ps : List (Nat × List Byte)) (wr : Nat) : Option State :=
  match ps.foldl (fun (o : Option State) e => o.bind (fun s => ringWrite s i t e.1 e.2)) (some s) with
  | some s1 =>
    match ringWrite s1 i t 16 (leBytes 8 t.dropped.toNat) with
    | some s2 => ringWrite s2 i t 0 (leBytes 8 wr)
    | none => none
  | none => none

/-- A burst; one to device memory is charged to its tier's bucket access by access, one to host memory to the fast tier's (R439). A ring that cannot be read or written leaves the records pending. -/
def drainNow (s : State) (i : Nat) : State :=
  let t := mget {} s.obs.traces i
  if !t.configured || t.pend.isEmpty then s
  else
    match ringRead s i t 8 8 with
    | none => s
    | some (rb, s1) =>
      let burst := burstOf 4096 t.pend
      let rd := leNat rb
      let (ps, wr, rest) := placeRecords (2 ^ t.log2) burst t.wr (if rd < 64 ∨ rd > 2 ^ t.log2 then 64 else rd)
      match writeRing s1 i t ps wr with
      | none => s1
      | some s2 =>
        let done := burst.length - rest.length
        let bytes := (ps.map (fun e => e.2.length)).sum
        let s3 := setTrace (if t.host then chargeTrace s2 0 bytes else s2) i
          { t with pend := t.pend.drop done, wr := wr }
        let s4 := if !rest.isEmpty && t.stopMode then stopTrace s3 i 0 else s3
        if (mget {} s4.obs.traces i).pend.isEmpty then finishWait s4 (.flush i) St.ok [] else s4

/-- TRACE_DRAIN_BURST: a burst that is due, once its bucket is not empty (R128). -/
def drainTrace (s : State) (i : Nat) : State :=
  let t := mget {} s.obs.traces i
  if burstDue s i t && decide (mget 0 s.svc.trace (traceTier t) > 0) then drainNow s i else s

def execTraceDrainBurst (instance_ : Nat) (s : State) : Host.Outcome State Fault Refusal := .next (drainTrace s instance_)

/-! ### PC samples (R441) -/

/-- The stall states that the state of a core between instructions shows. -/
def stallState (c : Core) : Nat :=
  if c.run = .halted then 0x0A else if c.twait.isSome then 0x07 else if c.fence then 0x09
  else if !c.xwrs.isEmpty && decide (storeDepth ≤ c.stores.length) then 0x06 else 0x00

/-- PC_SAMPLE: a core that runs a kernel, or whose store queue drains after HALT, in a recording quadrant that samples. -/
def execPcSample (core : Nat) (s : State) : Host.Outcome State Fault Refusal :=
  let c := coreOf s core
  let i := coreQuad s core
  .next (
    match c.job with
    | some (p, q) =>
      if core < coreCount s ∧ (mget {} s.obs.traces i).pcPeriod ≠ 0 ∧ (c.run = .running ∨ (c.run = .halted ∧ !(c.stores.isEmpty && c.xwrs.isEmpty))) then
        let index := match (queueOf s p q).cur with | some x => x.index | none => 0
        traceAt s i 0x01 core (some p)
          (leBytes 4 c.pc ++ [BitVec.ofNat 8 (stallState c), BitVec.ofNat 8 p, BitVec.ofNat 8 q, 0] ++ leBytes 4 index) false
      else s
    | none => s)

/-! ### Ranges and watchpoints (R430, R442) -/

def execObsRangeSelect (c : Cmd) (s : State) : Host.Outcome State Fault Refusal :=
  .next (firmware { op := 0x0C07, need := 9, part := some 0 } (fun c s =>
    let l := (List.range 8).map (fun k => p8 c (1 + k))
    checked [(decide (p8 c 0 > 3) || l.any (fun i => decide (i > 47)), St.invalidField)] s
      (.done St.ok [] { s with obs.select := mput s.obs.select (p8 c 0) l })) c s)

def execObsRangeRead (c : Cmd) (s : State) : Host.Outcome State Fault Refusal :=
  .next (firmware { op := 0x0C08, need := 16, part := some 0 } (fun c s =>
    checked [(decide (p8 c 0 > 3), St.invalidField)] s
      (reportTo (p64 c 8) (padTo 4096 (mget [] s.obs.ranges (p8 c 0)).flatten) [] s)) c s)

/-- The claim on a partition's timer that single-stepping needs (R445). -/
def stepClaimed (s : State) (p owner : Nat) : Bool := holds s (mkRes 5 p) 2 owner

def execObsWatchSet (c : Cmd) (s : State) : Host.Outcome State Fault Refusal :=
  .next (firmware { op := 0x0C09, need := 24, part := some 0 } (fun c s =>
    let p := p8 c 0
    checked
      [ (decide (p > 3) || decide (p8 c 1 > 63), St.invalidField), (p64 c 8 % 64 != 0 || p64 c 16 % 64 != 0, St.badAddress),
        (bit (p16 c 2) 11 && !stepClaimed s p c.fn, St.notClaimed) ] s
      (let w : Watch := { bits := BitVec.ofNat 16 (p16 c 2), base := p64 c 8, len := p64 c 16 }
       .done St.ok [] { s with obs.watches := mput s.obs.watches (p * 64 + p8 c 1) w })) c s)

/-! ### Digests (R443, R444) -/

/-- The claim on the buffer of a partition's lowest quadrant. -/
def digestOwner (s : State) (p owner : Nat) : Bool := holds s (mkRes 2 (lowQuad s p)) 3 owner

/-- A digest's range and format: field failures, then the address. -/
def digestChecks (s : State) (p dpa len fmt : Nat) : List (Bool × Nat) :=
  [ (decide (p > 3) || !configured s p || decide (fmt > 6) || len == 0 || decide (len > 2 ^ 40) || len % 64 != 0, St.invalidField),
    (dpa % 64 != 0 || !isDpa dpa, St.badAddress) ]

def execObsDigest (c : Cmd) (s : State) : Host.Outcome State Fault Refusal :=
  .next (firmware { op := 0x0C0A, need := 32, part := some 17 } (fun c s =>
    let p := p8 c 17
    checked (digestChecks s p (p64 c 0) (p64 c 8) (p8 c 16) ++ [(!digestOwner s p c.fn, St.notClaimed)]) s
      (unheld (digestHeld s p (p64 c 0) (p64 c 8))
        (match digestTake s p (p64 c 0) (p64 c 8) (p8 c 16) with
         | (st, b, s1) =>
           if st ≠ St.ok ∧ st ≠ St.poisoned then .done st [] s1
           else match hostWrite? s1 (p64 c 24) b with | some s2 => .done st [] s2 | none => .done St.hostFault [] s1))) c s)

def execObsDigestArm (c : Cmd) (s : State) : Host.Outcome State Fault Refusal :=
  .next (firmware { op := 0x0C0B, need := 40, part := some 0 } (fun c s =>
    let p := p8 c 0
    let key := p * 8 + p8 c 1
    let a := mget {} s.obs.digests key
    checked [(decide (p > 3) || decide (p8 c 1 > 7), St.invalidField)] s
      (if bit (p8 c 2) 1 then
         (match hostWrite? s (p64 c 32) (slice a.result 2 64) with
          | some s1 => .done (fieldN a.result 0 2) [] s1
          | none => .done St.hostFault [] s)
       else if bit (p8 c 2) 0 then
         checked (digestChecks s p (p64 c 8) (p64 c 16) (p8 c 24) ++ [(!digestOwner s p c.fn, St.notClaimed)]) s
           (let g : ArmedDigest := { enabled := true, marker := BitVec.ofNat 32 (p32 c 4), dpa := p64 c 8, len := p64 c 16, format := p8 c 24 }
            .done St.ok [] { s with obs.digests := mput s.obs.digests key g })
       else .done St.ok [] { s with obs.digests := mput s.obs.digests key { a with enabled := false } })) c s)

/-! ### Single-stepping (R445, R446) -/

/-- Single-step mode ends: every queue runs on. -/
def stepOff (s : State) (p : Nat) : State :=
  (List.range 32).foldl (fun s q => startNext s p q) { s with obs.single := mdel s.obs.single p }

def execObsStepMode (c : Cmd) (s : State) : Host.Outcome State Fault Refusal :=
  .next (firmware { op := 0x0C0C, need := 4, part := some 0 } (fun c s =>
    let p := p8 c 0
    let on := p8 c 1 == 1
    checked
      [ (decide (p > 3) || decide (p8 c 1 > 1) || (on && p16 c 2 == 0), St.invalidField), (on && !stepClaimed s p c.fn, St.notClaimed),
        (on && (mget {} s.stp.comps p).enabled, St.obsBusy) ] s
      (.done St.ok [] (if on then { s with obs.single := mput s.obs.single p (p16 c 2) } else stepOff s p))) c s)

def execObsStepNext (c : Cmd) (s : State) : Host.Outcome State Fault Refusal :=
  .next (firmware { op := 0x0C0D, need := 9, part := some 0 } (fun c s =>
    let p := p8 c 0
    let n := p8 c 8
    checked [(decide (p > 3) || n == 0, St.invalidField), ((mfind s.obs.single p).isNone, St.notStepping)] s
      (.done St.ok [] ((bitList 32 (p32 c 4)).foldl (fun s q => startNext (setQueue s p q { queueOf s p q with released := n }) p q) s))) c s)

/-- STEP_LIMIT_TIMEOUT: a released command has run for the step limit without completing. -/
def execStepLimitTimeout (p q : Nat) (s : State) : Host.Outcome State Fault Refusal :=
  let x := queueOf s p q
  .next (
    match mfind s.obs.single p, x.cur with
    | some lim, some k =>
      if k.freed && !k.late && k.status.isNone && decide (k.since.toNat + lim * 65536 < (stamp s).toNat) then
        stepEvent (setQueue s p q { x with cur := some { k with late := true } }) p q 1 0 k.index
      else s
    | _, _ => s)

/-! ### Blotters and freezes (R434, R447 to R449) -/

/-- The header and the valid entries, oldest first. -/
def blotterBytes (s : State) (u : Nat) : List Byte :=
  let b := mget {} s.obs.blots u
  padTo 32 (leBytes 2 u ++ leBytes 2 b.entries.length ++ [BitVec.ofNat 8 (b2n b.frozen), 0, 0, 0] ++ leBytes 8 (stamp s).toNat ++
    leBytes 4 s.rul.epoch.toNat) ++ b.entries.flatten

def execObsBlotterRead (c : Cmd) (s : State) : Host.Outcome State Fault Refusal :=
  .next (firmware { op := 0x0C0E, need := 16, refuse := unitRefused } (fun c s =>
    checked [(!unitValid s (p16 c 0), St.unitInvalid)] s (reportTo (p64 c 8) (blotterBytes s (p16 c 0)) [] s)) c s)

def execObsFreeze (c : Cmd) (s : State) : Host.Outcome State Fault Refusal :=
  .next (firmware { op := 0x0C0F, need := 2, part := some 1 } (fun c s =>
    let op := p8 c 0
    let p := p8 c 1
    checked [(op == 0 || decide (op > 4) || (decide (p > 3) && !(p == 0xFF && decide (op ≤ 2))), St.invalidField)] s
      (.done St.ok [] (if op = 1 then freeze s p 0 else if op = 2 then thaw s p
        else { s with obs.freezeOnFault := mput s.obs.freezeOnFault p (op == 3) }))) c s)

end Sys2Proof.Machine
end

