-- ==== Sys2Proof/Machine/Pages.lean ====
section
/-! DEFINITION. Pages, map blocks, the prefix index and the request ledger (spec/09): allocation, reclaim, lookup, publication, and
the end of a request. What the device writes into trailers, map blocks and buckets is written to device memory as well. -/
namespace Sys2Proof.Machine

/-! ### Pools and trailers (R256, R260 to R262) -/

/-- The pool of a page ID, by pool number. -/
def poolOf (s : State) (n : Nat) : Option (Nat × Pool) :=
  s.srv.pools.find? (fun e => decide (e.2.first ≤ n) && decide (n < e.2.first + e.2.count))

def pageOf (s : State) (n : Nat) : Page := mget {} s.srv.pages n

/-- A write of the serving block to its own tables, on no partition's behalf. -/
def devWrite (s : State) (dpa : Nat) (b : List Byte) : State := (writeBytes s .device dpa b false 0).2

/-- A trailer as bytes. -/
def pageBytes (g : Page) : List Byte :=
  padTo 128 (padTo 64 (g.tokens.map (fun t => leBytes 4 t.toNat)).flatten ++ leBytes 8 g.key.toNat ++ leBytes 2 g.refs ++
    leBytes 2 g.children ++ [BitVec.ofNat 8 g.st, BitVec.ofNat 8 g.filled, BitVec.ofNat 8 g.model, 0] ++ leBytes 4 g.owner ++
    leBytes 4 g.parent ++ leBytes 8 g.lastUse.toNat)

/-- A page's trailer changes, in the table and in its memory. -/
def setPage (s : State) (n : Nat) (g : Page) : State :=
  let s1 := { s with srv.pages := if g = {} then mdel s.srv.pages n else mput s.srv.pages n g }
  match poolOf s n with
  | some (_, p) => devWrite s1 (p.trailers + 128 * (n - p.first)) (pageBytes g)
  | none => s1

def setPool (s : State) (k : Nat) (p : Pool) : State := { s with srv.pools := mput s.srv.pools k p }

/-- DPA of a page's payload. -/
def payloadAt (s : State) (n : Nat) : Nat := match poolOf s n with | some (_, p) => p.data + p.stride * (n - p.first) | none => 0

def inPool (p : Pool) (n : Nat) : Bool := decide (p.first ≤ n) && decide (n < p.first + p.count)

/-- PUBLISHED, held only by the index, and no entry's parent. -/
def reclaimable (g : Page) : Bool := g.st == 2 && g.refs == 1 && g.children == 0

def reclaimables (s : State) (p : Pool) : List (Nat × Page) := s.srv.pages.filter (fun e => inPool p e.1 && reclaimable e.2)

def freeCount (p : Pool) : Nat := p.free.length + (p.count - p.fresh)

/-- Free and reclaimable pages of a pool. -/
def supply (s : State) (k : Nat) : Nat :=
  match mfind s.srv.pools k with
  | some p => freeCount p + (reclaimables s p).length
  | none => 0

/-- PAGE_LOW when the supply falls below the mark, and when it has risen above it (R262, R281). -/
def lowCheck (s : State) (k : Nat) : State :=
  match mfind s.srv.pools k with
  | none => s
  | some p =>
    let r := (reclaimables s p).length
    let n := freeCount p + r
    let say (v : Nat) (s : State) : State :=
      post s 0x0702 0xFF ([BitVec.ofNat 8 k, BitVec.ofNat 8 v, 0, 0] ++ leBytes 4 (freeCount p) ++ leBytes 4 r) true
    if !p.below && decide (n < p.low) then say 0 (setPool s k { p with below := true })
    else if p.below && decide (n > p.low) then say 1 (setPool s k { p with below := false })
    else s

/-- Count `i` of a pool's statistics: reclaims, lookups, matches, collisions, publications, duplicates, unchained, full. -/
def poolCount (s : State) (k i : Nat) : State :=
  match mfind s.srv.pools k with
  | some p => setPool s k { p with stats := p.stats.set i (satAdd 32 (p.stats.getD i 0) 1) }
  | none => s

/-- A page nobody holds: FREE, on top of its pool's free list. -/
def freePage (s : State) (n : Nat) : State :=
  match poolOf s n with
  | some (k, p) => lowCheck (setPage (setPool s k { p with free := n :: p.free }) n {}) k
  | none => setPage s n {}

def pageLow (s : State) (n : Nat) : State := match poolOf s n with | some (k, _) => lowCheck s k | none => s

/-- One holder less; a page without holders is freed (R261). -/
def unrefPage (s : State) (n : Nat) : State :=
  let g := pageOf s n
  if g.refs ≤ 1 then freePage s n else pageLow (setPage s n { g with refs := g.refs - 1 }) n

/-! ### The prefix index (R270) -/

/-- A request entry's index entry as bytes. -/
def indexBytes (e : IndexEntry) : List Byte :=
  if e.key = 0 then zeros 16
  else leBytes 8 e.key.toNat ++ leBytes 3 e.page ++ [BitVec.ofNat 8 (e.model % 16)] ++ leBytes 3 e.parent ++ [0]

def emptyEntry : IndexEntry := ⟨0, 0, 0, 0⟩

/-- The four entries of a bucket; KEY 0 marks an empty one. -/
def bucket (s : State) (b : Nat) : List IndexEntry := mget (List.replicate 4 emptyEntry) s.srv.index b

def setBucket (s : State) (b : Nat) (l : List IndexEntry) : State :=
  let s1 := { s with srv.index := if l.all (fun e => e.key == 0) then mdel s.srv.index b else mput s.srv.index b l }
  match s.srv.map with
  | some m => devWrite s1 (m.index + 64 * b) ((l.map indexBytes).flatten)
  | none => s1

def bucketOf (key : BitVec 64) : Nat := key.toNat % 2 ^ 18

/-- The entry of a key, of whatever model (R272). -/
def indexEntry (s : State) (key : BitVec 64) : Option IndexEntry := (bucket s (bucketOf key)).find? (fun e => e.key != 0 && e.key == key)

def noPage : Nat := 0xFFFFFF

/-- A page's entry leaves the index: its parent has one child less. The page's own hold is not touched. -/
def dropEntry (s : State) (e : IndexEntry) : State :=
  let b := bucketOf e.key
  let s1 := setBucket s b ((bucket s b).map (fun x => if x = e then emptyEntry else x))
  if e.parent = noPage then s1
  else let g := pageOf s1 e.parent; pageLow (setPage s1 e.parent { g with children := g.children - 1 }) e.parent

/-- A reclaimable page is taken back (R262). -/
def reclaimPage (s : State) (n : Nat) : State :=
  let g := pageOf s n
  let s1 := match (bucket s (bucketOf g.key)).find? (fun e => e.key != 0 && e.page == n) with
    | some e => dropEntry s e
    | none => s
  let s2 := match poolOf s1 n with | some (k, _) => poolCount s1 k 0 | none => s1
  freePage (prog s2 0x8005 7 none none 1) n

/-- The reclaimable page of oldest LAST_USE, then of lowest ID. -/
def oldestReclaimable (l : List (Nat × Page)) : Option Nat :=
  ((sortBy (fun a b => decide (a.2.lastUse.toNat < b.2.lastUse.toNat) || (a.2.lastUse == b.2.lastUse && decide (a.1 < b.1))) l).head?).map Prod.fst

/-- The next free page of a pool: the most recently freed, then pages never used, in rising order. -/
def takeFree (s : State) (k : Nat) : Option (Nat × State) :=
  match mfind s.srv.pools k with
  | none => none
  | some p =>
    match p.free with
    | n :: r => some (n, setPool s k { p with free := r })
    | [] => if p.fresh < p.count then some (p.first + p.fresh, setPool s k { p with fresh := p.fresh + 1 }) else none

/-- A page of pool `k` with its first trailer, or none when the pool is exhausted (R261, R262). -/
def allocPage (s : State) (k : Nat) (g : Page) : Option (Nat × State) :=
  let s0 := match mfind s.srv.pools k with
    | some p => if freeCount p = 0 then (match oldestReclaimable (reclaimables s p) with | some n => reclaimPage s n | none => s) else s
    | none => s
  match takeFree s0 k with
  | some (n, s1) => some (n, lowCheck (setPage (prog s1 0x8005 6 none none 1) n { g with refs := 1 }) k)
  | none => none

/-! ### Map blocks and leaf entries (R258, R259) -/

/-- A free map block: the most recently freed, then blocks never used. -/
def takeBlock (s : State) : Option (Nat × State) :=
  match s.srv.map with
  | none => none
  | some m =>
    match m.free with
    | b :: r => some (b, { s with srv.map := some { m with free := r } })
    | [] => if m.fresh < m.count then some (m.fresh, { s with srv.map := some { m with fresh := m.fresh + 1 } }) else none

def blockAt (s : State) (b : Nat) : Nat := match s.srv.map with | some m => m.blocks + 4096 * b | none => 0

/-- A map block taken and cleared: every entry of a root none, every entry of a leaf not VALID. -/
def newBlock (s : State) (root : Bool) : Option (Nat × State) :=
  match takeBlock s with
  | some (b, s1) => some (b, devWrite s1 (blockAt s1 b) (List.replicate 4096 (if root then 0xFF else 0)))
  | none => none

def freeBlock (s : State) (b : Nat) : State :=
  match s.srv.map with
  | some m => { s with srv.map := some { m with free := b :: m.free } }
  | none => s

def setReq (s : State) (e : Nat) (r : Req) : State := { s with srv.reqs := mput s.srv.reqs e r }

def leafValid : Nat := 2 ^ 31
def leafPark : Nat := 2 ^ 29
def leafFolded : Nat := 2 ^ 30

/-- The page a leaf entry names. -/
def leafPage (v : BitVec 32) : Nat := v.toNat % 2 ^ 24

/-- The leaf block of a request for a page index, allocated where the root names none. -/
def leafBlock (s : State) (e i : Nat) : Option (Nat × State) :=
  let r := reqOf s e
  match mfind r.leaves (i / 1024) with
  | some b => some (b, s)
  | none =>
    match newBlock s false with
    | none => none
    | some (b, s1) =>
      some (b, devWrite (setReq s1 e { r with leaves := mput r.leaves (i / 1024) b }) (blockAt s1 r.root + 4 * (i / 1024)) (leBytes 4 b))

/-- A leaf entry takes a value; none when no map block is free for its leaf. -/
def setLeaf (s : State) (e i v : Nat) : Option State :=
  match leafBlock s e i with
  | none => none
  | some (b, s1) =>
    let r := reqOf s1 e
    some (devWrite (setReq s1 e { r with pages := mput r.pages i (BitVec.ofNat 32 v) }) (blockAt s1 b + 4 * (i % 1024)) (leBytes 4 v))

/-- A leaf entry is removed; the page's hold is not touched. -/
def clearLeaf (s : State) (e i : Nat) : State :=
  let r := reqOf s e
  let s1 := setReq s e { r with pages := mdel r.pages i }
  match mfind r.leaves (i / 1024) with
  | some b => devWrite s1 (blockAt s1 b + 4 * (i % 1024)) (zeros 4)
  | none => s1

/-- The page of a request at a page index. -/
def reqPage (s : State) (e i : Nat) : Option Nat := (mfind (reqOf s e).pages i).map leafPage

/-! ### Lookup (R269, R271) -/

def hashToken (h : BitVec 64) (t : BitVec 32) : BitVec 64 :=
  let g := (h ^^^ t.setWidth 64) * 0x9E6C63D0676A9A99#64
  g ^^^ (g >>> 32)

/-- Keys of successive blocks; the substitution of 1 for 0 does not feed back. -/
def keyChain : BitVec 64 → List (List (BitVec 32)) → List (BitVec 64)
  | _, [] => []
  | h, b :: r => let h1 := b.foldl hashToken h; (if h1 = 0 then 1 else h1) :: keyChain h1 r

/-- Keys of whole blocks of a model with a tag. -/
def prefixKeys (tag : BitVec 32) (blocks : List (List (BitVec 32))) : List (BitVec 64) :=
  keyChain (0x3C4D91A208E75B16#64 ^^^ tag.setWidth 64) blocks

/-- Tokens as 32-bit values. -/
def tokenList (b : List Byte) : List (BitVec 32) := (chunks 4 b).map (fun t => BitVec.ofNat 32 (leNat t))

def modelOf (s : State) (m : Nat) : Option Model := mfind s.srv.models m

def livePool (s : State) (m : Nat) : Nat := match modelOf s m with | some x => x.live | none => 0

/-- A probe of the index's on-chip cache: whether it hits is not visible but for its counters, a free value (R270, log 13). -/
def cacheProbe (s : State) : State :=
  let (w, s1) := freeWord s
  prog s1 0x8006 (if w.getLsbD 0 then 0x0B else 0x0C) none none 1

/-- One block: the page that matches, if one does. `room` asks for room in REFS. -/
@[irreducible] def matchBlock (s : State) (m parent : Nat) (key : BitVec 64) (toks : List (BitVec 32)) (room : Bool) : Option Nat × State :=
  let s1 := cacheProbe s
  let hits := (bucket s1 (bucketOf key)).filter (fun e => e.key != 0 && e.key == key && e.model == m && e.parent == parent)
  match hits.find? (fun e => (pageOf s1 e.page).tokens == toks) with
  | some e =>
    if room && decide ((pageOf s1 e.page).refs ≥ 65535) then (none, s1)
    else (some e.page, prog (poolCount s1 (livePool s1 m) 2) 0x8006 9 none none 1)
  | none => (none, if hits.isEmpty then s1 else prog (poolCount s1 (livePool s1 m) 3) 0x8006 0x0A none none 1)

/-- Blocks in order while they match: their pages. -/
def matchGo (m : Nat) (room : Bool) : Nat → List (BitVec 64 × List (BitVec 32)) → State → List Nat → List Nat × State
  | _, [], s, acc => (acc.reverse, s)
  | parent, b :: r, s, acc =>
    match matchBlock s m parent b.1 b.2 room with
    | (some n, s1) => matchGo m room n r s1 (n :: acc)
    | (none, s1) => (acc.reverse, s1)

/-- A lookup that starts after `done` blocks whose last page is `parent`. -/
def lookup (s : State) (m : Nat) (blocks : List (List (BitVec 32))) (done parent : Nat) (room : Bool) : List Nat × State :=
  match modelOf s m with
  | none => ([], s)
  | some x =>
    let s1 := prog (poolCount s x.live 1) 0x8006 8 none none 1
    matchGo m room parent (((prefixKeys x.tag blocks).zip blocks).drop done) s1 []

/-- Matched pages attached to a request from page index `i` on (R261, R271): how many, and the state. -/
def attachPages (e : Nat) : List Nat → Nat → State → Nat × State
  | [], _, s => (0, s)
  | n :: r, i, s =>
    match setLeaf s e i (leafValid + n) with
    | none => (0, s)
    | some s1 =>
      let g := pageOf s1 n
      let s2 := pageLow (setPage s1 n { g with refs := g.refs + 1, lastUse := stamp s1 }) n
      match attachPages e r (i + 1) s2 with
      | (k, s3) => (k + 1, s3)

/-! ### Publication (R272) -/

/-- Token blocks 0 to `i` of a request, from its pages' trailers. -/
def reqBlocks (s : State) (e i : Nat) : List (List (BitVec 32)) :=
  (List.range (i + 1)).map (fun j => match reqPage s e j with | some n => (pageOf s n).tokens | none => [])

/-- The reclaimable entry of a full bucket that a publication replaces. -/
def replaceable (s : State) (b : Nat) : Option Nat :=
  oldestReclaimable (((bucket s b).filter (fun e => reclaimable (pageOf s e.page))).map (fun e => (e.page, pageOf s e.page)))

/-- The entry is written and the page is PUBLISHED. -/
def enterIndex (s : State) (n m parent : Nat) (key : BitVec 64) : State :=
  let b := bucketOf key
  match indexOf? (fun e => e.key == 0) (bucket s b) with
  | none => s
  | some i =>
    let s1 := setBucket s b ((bucket s b).set i { key := key, page := n, model := m, parent := parent })
    let g := pageOf s1 n
    let s2 := setPage s1 n { g with st := 2, parent := parent, lastUse := stamp s1, refs := g.refs + 1 }
    let s3 := if parent = noPage then s2
      else let q := pageOf s2 parent; pageLow (setPage s2 parent { q with children := q.children + 1 }) parent
    poolCount s3 (livePool s3 m) 4

/-- A page of a request that has become complete: its KEY, and its publication or the reason it is skipped. -/
def publishPage (s : State) (e i : Nat) : State :=
  let r := reqOf s e
  match modelOf s r.model, reqPage s e i with
  | some x, some n =>
    let keys := prefixKeys x.tag (reqBlocks s e i)
    let key := keys.getD i 1
    let g := pageOf s n
    let s1 := setPage s n { g with key := key }
    if !x.flags.getLsbD 0 || r.noPublish || g.st != 1 then s1
    else
      let prev := if i = 0 then some noPage
        else match indexEntry s1 (keys.getD (i - 1) 1), reqPage s1 e (i - 1) with
          | some p, some q => if p.page = q then some q else none
          | _, _ => none
      match prev with
      | none => poolCount s1 x.live 6
      | some parent =>
        if (indexEntry s1 key).isSome then poolCount s1 x.live 5
        else if (bucket s1 (bucketOf key)).any (fun v => v.key == 0) then enterIndex s1 n r.model parent key
        else
          match replaceable s1 (bucketOf key) with
          | some old => enterIndex (reclaimPage s1 old) n r.model parent key
          | none => poolCount s1 x.live 7
  | _, _ => s

/-- Every index entry of a model is removed (R274). A page that a request or pin still holds is OWNED again. -/
def flushIndex (s : State) (m : Nat) : State :=
  let es := ((s.srv.index.map (fun b => b.2.filter (fun e => e.key != 0 && e.model == m))).flatten)
  es.foldl (fun s e =>
    let s1 := dropEntry s e
    let g := pageOf s1 e.page
    unrefPage (if g.refs > 1 then setPage s1 e.page { g with st := 1 } else s1) e.page) s

/-! ### The end of a request (R261, R268) -/

/-- Every leaf entry is removed, in order, and each page loses a holder. -/
def releasePages (s : State) (e : Nat) : State :=
  (reqOf s e).pages.foldl (fun s l => unrefPage (clearLeaf s e l.1) (leafPage l.2)) s

/-- The pages of a copy, fold or restore that will not be finished. -/
def dropMoves (s : State) (e : Nat) : State :=
  let r := reqOf s e
  r.moveSrc.foldl (fun s m => unrefPage s (m.2 % 2 ^ 24)) (setReq s e { r with moveSrc := [], moving := false, restoring := false })

/-- Commands that wait for a request which has ended: REQ_CANCEL with OK, others with REQ_STATE. -/
def endWaits (s : State) (e : Nat) : State :=
  let hits := s.ink.running.filter (fun r => r.wait == .request e)
  hits.foldl (fun s r => complete s r.cmd (if r.opcode = 0x0707 then St.ok else St.reqState) [])
    { s with ink.running := s.ink.running.filter (fun r => r.wait != .request e) }

/-- A request ends: END, its pages released, REQ_END posted. -/
def endRequest (s : State) (e endCode st : Nat) : State :=
  let s1 := releasePages (dropMoves s e) e
  let r := reqOf s1 e
  let s2 := setReq s1 e { r with st := st, endCode := endCode, resumeWanted := false, pausePending := false, inStep := false,
                                 draft := 0, ttlPend := false, ttlRun := false, cancelPend := false }
  endWaits (post s2 0x0701 r.part (leBytes 4 r.id ++ [BitVec.ofNat 8 endCode, BitVec.ofNat 8 st, 0, 0] ++ leBytes 4 r.committed ++
    leBytes 4 r.cookie.toNat) false) e

/-- A fault of the request: END 7, FAULTED. -/
def faultRequest (s : State) (e : Nat) : State := endRequest s e 7 10

end Sys2Proof.Machine
end

