-- ==== Sys2Proof/Machine/Flourish.lean ====
section
/-! DEFINITION. Flourish (spec/11): logits areas, sampling parameters, grammar automata, the choice of a token and the walk of
speculation, with the commands of the subject. -/
namespace Sys2Proof.Machine

/-! ### Placement (R282, R315, R330) -/

/-- A range in fast-tier regions that are valid, not folded, not in the window and, for a partition, accessible to it. -/
def fastArea (s : State) (part : Option Nat) (dpa len : Nat) : Bool :=
  (regionSteps dpa len).all (fun a =>
    match whereIs a with
    | .region .fast r =>
      let e := regionEntry s .fast r
      eMode e != 0 && !eFolded e && !eWindow e && (match part with | some p => eAccess e p | none => true)
    | _ => false)

/-- Whether composition is enabled on a partition. -/
def composing (s : State) (p : Nat) : Bool := match mfind s.stp.comps p with | some k => k.enabled | none => false

def elemSize (format : Nat) : Nat := if format = 1 then 2 else 4

def execFlourishConfig (c : Cmd) (s : State) : Host.Outcome State Fault Refusal :=
  .next (firmware { op := 0x0901, need := 24, part := some 0 } (fun c s =>
    let p := p8 c 0
    let a : LogitsArea := { format := p8 c 1, vocab := p32 c 4, area := p64 c 8, stride := p32 c 16, vectors := p32 c 20 }
    checked
      [ (!isDpa a.area, St.badAddress),
        (decide (p > 3) || decide (a.format > 1) || a.vocab == 0 || decide (a.vocab > 262144) || a.area % 4096 != 0 ||
          a.stride % 64 != 0 || decide (a.stride < a.vocab * elemSize a.format) || a.vectors == 0 || decide (a.vectors > 65536) ||
          !fastArea s (some p) a.area (a.stride * a.vectors), St.flourishLayout),
        (composing s p, St.stepBusy) ] s
      (.done St.ok [] { s with flo.areas := mput s.flo.areas p a })) c s)

/-! ### Grammar tables (R323, R329) -/

def gStates (t : List Byte) : Nat := fieldN t 4 4
def gClasses (t : List Byte) : Nat := fieldN t 8 2
def gVocab (t : List Byte) : Nat := fieldN t 12 4
def gStop (t : List Byte) : Nat := fieldN t 16 4
def gTrans (t : List Byte) : Nat := fieldN t 20 4

/-- A of R329. -/
def gMapLen (t : List Byte) : Nat := ceilDiv (2 * gVocab t) 64 * 64

def gLen (t : List Byte) : Nat := 64 + gMapLen t + 8 * gStates t + 4 * gTrans t

def gClassWord (t : List Byte) (v : Nat) : Nat := fieldN t (64 + 2 * v) 2

/-- First transition, count and ACCEPT of a state. -/
def gDir (t : List Byte) (st : Nat) : Nat × Nat × Bool :=
  let o := 64 + gMapLen t + 8 * st
  (fieldN t o 4, fieldN t (o + 4) 2, bit (fieldN t (o + 6) 1) 0)

/-- Transition `i`: class and next state. -/
def gEdge (t : List Byte) (i : Nat) : Nat × Nat :=
  let w := fieldN t (64 + gMapLen t + 8 * gStates t + 4 * i) 4
  (bits w 27 16, bits w 15 0)

def gEdges (t : List Byte) (st : Nat) : List (Nat × Nat) :=
  let (f, n, _) := gDir t st
  (List.range n).map (fun i => gEdge t (f + i))

def rising : List Nat → Bool
  | a :: b :: r => decide (a < b) && rising (b :: r)
  | _ => true

/-- Whether a table of `t.length` bytes keeps R329. -/
def grammarOk (t : List Byte) : Bool :=
  fieldN t 0 1 == 1 && decide (1 ≤ gStates t) && decide (gStates t ≤ 65536) && decide (1 ≤ gClasses t) && decide (gClasses t ≤ 4096) &&
  decide (1 ≤ gVocab t) && decide (gVocab t ≤ 262144) && decide (gStop t < gVocab t) && fieldN t 24 4 == gLen t && t.length == gLen t &&
  (crc32 (overlay t 28 (zeros 4))).toNat == fieldN t 28 4 &&
  (List.range (gVocab t)).all (fun v => decide (bits (gClassWord t v) 11 0 < gClasses t)) &&
  (List.range (gTrans t)).all (fun i => decide ((gEdge t i).1 < gClasses t) && decide ((gEdge t i).2 < gStates t)) &&
  (List.range (gStates t)).all (fun st =>
    let (f, n, _) := gDir t st
    decide (n ≤ gClasses t) && decide (f + n ≤ gTrans t) && rising ((gEdges t st).map Prod.fst))

/-- The next state that a listed transition gives for a token. -/
def gNext (t : List Byte) (st v : Nat) : Option Nat :=
  let w := gClassWord t v
  if v ≥ gVocab t ∨ bit w 15 then none
  else ((gEdges t st).find? (fun e => e.1 == bits w 11 0)).map Prod.snd

/-- A token allowed in a state, of a vocabulary V. -/
def gAllowed (t : List Byte) (st V v : Nat) : Bool :=
  decide (v < V) && ((gNext t st v).isSome || (v == gStop t && (gDir t st).2.2))

/-- The state after a token; the stop token under ACCEPT leaves it unchanged. -/
def gAdvance (t : List Byte) (st v : Nat) : Nat := (gNext t st v).getD st

/-- A loaded table of a partition as Flourish reads it, in LATENCY class. -/
def grammarAt (s : State) (p slot : Nat) : Option (List Byte) × State :=
  match mfind s.flo.grammars (p * 64 + slot) with
  | none => (none, s)
  | some dpa =>
    match readBytes s (.flourish p) dpa 64 0 with
    | (_, h, _, s1) =>
      match readBytes s1 (.flourish p) dpa (gLen h) 0 with
      | (st, t, _, s2) => (if st = St.ok then some t else none, s2)

def execGrammarLoad (c : Cmd) (s : State) : Host.Outcome State Fault Refusal :=
  .next (firmware { op := 0x0902, need := 16, part := some 0 } (fun c s =>
    let p := p8 c 0
    let dpa := p64 c 8
    checked [(decide (p > 3) || decide (p8 c 1 > 63), St.invalidField), (!isDpa dpa, St.badAddress),
             (!fastArea s (some p) dpa 64, St.flourishLayout)] s
      (match readBytes s (.flourish p) dpa 64 0 with
       | (st, h, poison, s1) =>
         let len := fieldN h 24 4
         if st ≠ St.ok then .done st [] s1
         else if poison then .done St.poisoned [] s1
         else if len < 64 ∨ len ≠ gLen h then .done St.grammarFormat [] s1
         else if !fastArea s1 (some p) dpa len then .done St.flourishLayout [] s1
         else
           match readBytes s1 (.flourish p) dpa len 0 with
           | (st2, t, poison2, s2) =>
             if st2 ≠ St.ok then .done st2 [] s2
             else if poison2 then .done St.poisoned [] s2
             else if !grammarOk t then .done St.grammarFormat [] s2
             else if (mfind s2.flo.grammars (p * 64 + p8 c 1)).isSome then .done St.grammarBusy [] s2
             else .done St.ok [] { s2 with flo.grammars := mput s2.flo.grammars (p * 64 + p8 c 1) dpa })) c s)

def execGrammarUnload (c : Cmd) (s : State) : Host.Outcome State Fault Refusal :=
  .next (firmware { op := 0x0903, need := 2, part := some 0 } (fun c s =>
    let p := p8 c 0
    let g := p8 c 1
    checked
      [ (decide (p > 3) || decide (g > 63), St.invalidField), ((mfind s.flo.grammars (p * 64 + g)).isNone, St.grammarAbsent),
        (s.srv.reqs.any (fun r => r.2.st != 0 && r.2.part == p && r.2.gtable == g), St.grammarBusy) ] s
      (.done St.ok [] { s with flo.grammars := mdel s.flo.grammars (p * 64 + g) })) c s)

/-! ### Sampling parameters (R318, R319) -/

def parseSampling (b : List Byte) : Sampling :=
  { temp := fieldN b 0 4, topP := fieldN b 4 4, topK := fieldN b 8 2, spec := fieldN b 10 1, rep := fieldN b 12 4, freq := fieldN b 16 4,
    pres := fieldN b 20 4, draft := fieldN b 24 8, stops := (List.range 8).map (fun i => fieldN b (32 + 4 * i) 4) }

/-- A request's block, in LATENCY class; none when it is misaligned, unreadable or poisoned. -/
def samplingAt (s : State) (p dpa : Nat) : Option Sampling × State :=
  if dpa % 64 ≠ 0 then (none, s)
  else
    match readBytes s (.flourish p) dpa 64 0 with
    | (st, b, poison, s1) => (if st = St.ok ∧ !poison then some (parseSampling b) else none, s1)

/-- A finite FP32 value. -/
def finite32 (v : Nat) : Bool := match fdecode fp32 v with | .fin _ _ _ => true | _ => false

def fpZero (v : Nat) : Bool := v % 2 ^ 31 == 0
def fpOne : Nat := 0x3F800000
def negInf : Nat := 0xFF800000

/-- Check 3 of R319. -/
def samplingOk (q : Sampling) (V : Nat) : Bool :=
  [q.temp, q.topP, q.rep, q.freq, q.pres].all finite32 && !flt fp32 q.temp 0 && flt fp32 0 q.topP && !flt fp32 fpOne q.topP &&
    !flt fp32 q.rep fpOne && decide (q.topK ≤ 256) && decide (q.spec ≤ 2) && (q.spec == 0 || (q.draft != 0 && q.draft % 64 == 0)) &&
    q.stops.all (fun t => t == 0xFFFFFFFF || decide (t < V))

/-- Check 4 of R319. -/
def countsOk (s : State) (counts V : Nat) : Bool :=
  counts == 0 || (counts % 64 == 0 && isDpa counts && (regionSteps counts (2 * V)).all (fun a =>
    match whereIs a with | .region t r => heldAny s (regionRes t r) 2 | _ => false))

/-- Check 5 of R319. -/
def countsNeeded (q : Sampling) : Bool := q.rep != fpOne || !fpZero q.freq || !fpZero q.pres

/-- V of a partition; 0 without a logits area. -/
def vocabOf (s : State) (p : Nat) : Nat := match mfind s.flo.areas p with | some a => a.vocab | none => 0

/-- Checks 3 to 5 of R319 on a request's block as it stands: the parameters, or none where one fails. -/
def samplingCheck (s : State) (p dpa counts : Nat) : Option Sampling × State :=
  match samplingAt s p dpa with
  | (some q, s1) =>
    let V := vocabOf s p
    (if samplingOk q V && countsOk s1 counts V && !(counts == 0 && countsNeeded q) then some q else none, s1)
  | (none, s1) => (none, s1)

/-! ### The processing order (R321 to R328) -/

/-- What a vector gives: a token, the stop token of an exhausted state, or no finite score. -/
inductive Choice where
  | token (t : Nat)
  | exhausted (t : Nat)
  | invalid
deriving DecidableEq, Repr

/-- Stage 2 for a token of count `c`. -/
def penalise (q : Sampling) (c x : Nat) : Nat :=
  if c = 0 ∨ x = negInf then x
  else
    let x1 := if flt fp32 0 x then fdiv fp32 x q.rep else fmul fp32 x q.rep
    let x2 := fsub fp32 x1 (fmul fp32 q.freq (fofNat fp32 c))
    fsub fp32 x2 q.pres

/-- Higher value first, then lower token ID. -/
def scoreBefore (a b : Nat × Nat) : Bool := flt fp32 b.2 a.2 || (!flt fp32 a.2 b.2 && decide (a.1 < b.1))

/-- Running sums, each rounded. -/
def cumSums : List Nat → Option Nat → List Nat
  | [], _ => []
  | w :: r, none => w :: cumSums r (some w)
  | w :: r, some a => let v := fadd fp32 a w; v :: cumSums r (some v)

/-- Candidates kept by stage 6, and the sums. -/
def topPKeep (q : Sampling) (cum : List Nat) : Nat :=
  if q.topP = fpOne then cum.length
  else
    let t := fmul fp32 q.topP (cum.getLast?.getD 0)
    match indexOf? (fun c => !flt fp32 c t) cum with
    | some j => j + 1
    | none => cum.length

/-- u of R327. -/
def drawAt (seed : BitVec 64) (p : Nat) : Nat := fmul fp32 (fofNat fp32 ((mix seed p).toNat / 2 ^ 40)) 0x33800000

/-- Everything that the token of a vector depends on (R328), as a list: scores, parameters, counts, grammar and state, seed and position. -/
def tokenInputs (v : List Nat) (count : Nat → Nat) (counted : Bool) (g : Option (List Byte × Nat)) (q : Sampling) (seed : BitVec 64)
    (pos : Nat) : List Nat :=
  [seed.toNat, pos, q.temp, q.topP, q.topK, q.rep, q.freq, q.pres] ++ q.stops ++ [v.length] ++ v ++
    (if counted then 1 :: (List.range v.length).map count else [0]) ++
    (match g with | some (t, st) => st :: t.map BitVec.toNat | none => [])

/-- Stages 5 to 7 over the finite scores. `open_` is the token where none is left (log 13). -/
def drawToken (q : Sampling) (seed : BitVec 64) (pos open_ : Nat) (l : List (Nat × Nat)) : Nat :=
  let kept := (sortBy scoreBefore l).take (if q.topK = 0 then 256 else q.topK)
  match kept with
  | [] => open_
  | (_, y0) :: _ =>
    let cum := cumSums (kept.map (fun y => fexp2 (fmul fp32 (fsub fp32 y.2 y0) 0x3FB8AA3B))) none
    let n := topPKeep q cum
    let r := fmul fp32 (drawAt seed pos) (cum.getD (n - 1) 0)
    let j := (indexOf? (fun c => flt fp32 r c) (cum.take n)).getD (n - 1)
    (kept.getD j (0, 0)).1

/-- Stages 2 to 7 over a vector of FP32 scores without NaN. -/
def choose (v : List Nat) (count : Nat → Nat) (counted : Bool) (g : Option (List Byte × Nat)) (q : Sampling) (seed : BitVec 64)
    (pos : Nat) : Choice :=
  let V := v.length
  let scored : List (Nat × Nat) := v.zipIdx.map (fun (x, i) => (i, if counted then penalise q (count i) x else x))
  let gone := match g with | some (t, st) => !(List.range V).any (gAllowed t st V) | none => false
  let masked : List (Nat × Nat) := match g with
    | some (t, st) => scored.map (fun (e : Nat × Nat) => (e.1, if gAllowed t st V e.1 then e.2 else negInf))
    | none => scored
  let fin := masked.filter (fun e => finite32 e.2)
  match g, gone with
  | some (t, _), true => .exhausted (gStop t)
  | _, _ =>
    if fin.isEmpty then .invalid
    else if fpZero q.temp then .token ((sortBy scoreBefore fin).headD (0, 0)).1
    else .token (drawToken q seed pos (Config.freeToken (tokenInputs v count counted g q seed pos) % max 1 V)
      ((fin.map (fun (e : Nat × Nat) => (e.1, fdiv fp32 e.2 q.temp))).filter (fun e => finite32 e.2)))

/-! ### Reading vectors and counts (R317, R320) -/

def floCount (s : State) (p i n : Nat) : State :=
  if n = 0 then s else { s with flo.ctr := mput s.flo.ctr (p * 8 + i) ((mget 0 s.flo.ctr (p * 8 + i) + n) % 2 ^ 64) }

/-- A vector at a DPA: status, scores with NaN as -Inf, poison. Stage 1. -/
def vectorAt (s : State) (p dpa : Nat) (a : LogitsArea) : Nat × List Nat × Bool × State :=
  let w := elemSize a.format
  match readBytes s (.flourish p) dpa (a.vocab * w) 1 with
  | (st, b, poison, s1) =>
    let raw := (List.range a.vocab).map (fun i => if w = 2 then fieldN b (2 * i) 2 * 65536 else fieldN b (4 * i) 4)
    let s2 := floCount (floCount s1 p 0 1) p 2 (raw.filter (isNaN fp32)).length
    (st, raw.map (fun x => if isNaN fp32 x then negInf else x), poison, prog (bump s2 p 45 1) 0x8004 4 (some p) none 1)

/-- The count table of V entries; empty without one. -/
def countsAt (s : State) (p dpa V : Nat) : List Nat × State :=
  if dpa = 0 then ([], s)
  else
    match readBytes s (.flourish p) dpa (2 * V) 0 with
    | (_, b, _, s1) => ((List.range V).map (fun i => fieldN b (2 * i) 2), s1)

/-! ### The walk (R331, R334, R337) -/

/-- What a request brings to its walk. -/
structure WalkCtx where
  q : Sampling
  seed : BitVec 64
  grammar : Option (List Byte)
  counts : List Nat
  counted : Bool
  pos : Nat                           -- position of the first chosen token
  sampled : Nat                       -- sampled tokens committed so far
  maxNew : Nat
  maxCtx : Nat
deriving DecidableEq, Repr

/-- The END code of a chosen token, 0 where the request goes on. `a` tokens were chosen before it. -/
def endOf (x : WalkCtx) (g : Nat) (a : Nat) (ch : Choice) : Nat :=
  match ch with
  | .exhausted _ => 6
  | .invalid => 7
  | .token t =>
    let stop := match x.grammar with | some tb => t == gStop tb && (gDir tb g).2.2 | none => false
    if x.q.stops.contains t || stop then 1
    else if x.maxNew ≠ 0 ∧ x.sampled + a + 1 ≥ x.maxNew then 2
    else if x.pos + a + 1 ≥ x.maxCtx then 3
    else 0

/-- Grammar state after a chosen token; that of an exhausted state stays. -/
def grammarAfter (x : WalkCtx) (g : Nat) : Choice → Nat
  | .token t => match x.grammar with | some tb => gAdvance tb g t | none => g
  | _ => g

/-- The outcome of a walk: chosen tokens, nodes entered after the root, grammar state, END code, exhaustion. -/
structure Walk where
  tokens : List Nat := []
  path : List Nat := []
  g : Nat
  ended : Nat := 0
deriving DecidableEq, Repr

/-- One vector after another: `next node t` is the node whose token continues the walk, `vecs` the scores by node. -/
def walkGo (x : WalkCtx) (vecs : List (List Nat)) (next : Nat → Nat → Option Nat) : Nat → Nat → Walk → Walk
  | 0, _, w => w
  | fuel + 1, node, w =>
    let a := w.tokens.length
    let count (v : Nat) : Nat := min 65535 (x.counts.getD v 0 + (w.tokens.filter (· == v)).length)
    let ch := choose (vecs.getD node []) count x.counted (x.grammar.map (fun t => (t, w.g))) x.q x.seed (x.pos + a)
    let e := endOf x w.g a ch
    match ch with
    | .invalid => { w with ended := 7 }
    | .exhausted t => { w with tokens := w.tokens ++ [t], ended := 6 }
    | .token t =>
      let w1 := { w with tokens := w.tokens ++ [t], g := grammarAfter x w.g ch, ended := e }
      if e ≠ 0 then w1
      else
        match next node t with
        | some m => walkGo x vecs next fuel m { w1 with path := w1.path ++ [m] }
        | none => w1

/-- LINEAR: the next node is the next draft when the token equals it. -/
def linearNext (drafts : List Nat) (node t : Nat) : Option Nat := if drafts[node]? = some t then some (node + 1) else none

/-- TREE: the lowest-numbered child with the token. -/
def treeNext (tokens parents : List Nat) (node t : Nat) : Option Nat :=
  ((List.range tokens.length).find? (fun i => parents.getD i 0 == node && tokens.getD i 0 == t)).map (· + 1)

/-! ### Draft records (R332, R333) -/

structure DraftRec where
  base : Nat
  n : Nat
  tokens : List Nat
  parents : List Nat
deriving DecidableEq, Repr

def parseDraft (b : List Byte) : DraftRec :=
  let n := fieldN b 4 2
  { base := fieldN b 0 4, n := n, tokens := (List.range (min n 64)).map (fun i => fieldN b (64 + 4 * i) 4),
    parents := (List.range (min n 64)).map (fun i => fieldN b (320 + i) 1) }

/-- Depth of each node, in order; a parent not below its node gives 0. -/
def depths (parents : List Nat) : List Nat :=
  (parents.zipIdx).foldl (fun acc (p, i) => acc ++ [if p = 0 then 1 else if p ≤ i then acc.getD (p - 1) 0 + 1 else 0]) []

/-- Whether a record makes its request a DRAFT candidate. -/
def draftOk (d : DraftRec) (spec committed V maxCtx : Nat) : Bool :=
  let ds := depths d.parents
  let m := if spec = 2 then ds.foldl max 0 else d.n
  d.base == committed && decide (1 ≤ d.n) && decide (d.n ≤ if spec = 2 then 64 else 16) && d.tokens.all (fun t => decide (t < V)) &&
    (spec != 2 || (d.parents.zipIdx.all (fun (p, i) => decide (p ≤ i)) && ds.all (fun k => decide (k ≤ 16)))) &&
    decide (committed + 1 + m ≤ maxCtx)

/-- A request's record as the composer reads it. -/
def draftAt (s : State) (p dpa : Nat) : Option DraftRec × State :=
  if !fastArea s (some p) dpa 512 then (none, s)
  else
    match readBytes s (.flourish p) dpa 512 0 with
    | (st, b, poison, s1) => (if st = St.ok ∧ !poison then some (parseDraft b) else none, s1)

/-! ### FLOURISH_PROBE and FLOURISH_COUNTERS (R342) -/

/-- The request ID names another partition's request (R264). -/
def foreignReq (c : Cmd) (s : State) : Bool :=
  let r := reqOf s (p32 c 0 % 4096)
  r.st != 0 && r.id == p32 c 0 && r.part != c.fn - 1

/-- The current generation of an entry (R264). -/
def genNow (s : State) (e : Nat) : Nat := mget 1 s.srv.gens e

def stale (s : State) (id : Nat) : Bool := genNow s (id % 4096) != id / 4096

/-- The context of a request's walk from a position. -/
def walkCtx (s : State) (e : Nat) (q : Sampling) (pos : Nat) : WalkCtx × State :=
  let r := reqOf s e
  let V := vocabOf s r.part
  let (t, s1) := if r.gtable = 0xFFFF then (none, s) else grammarAt s r.part r.gtable
  let (cs, s2) := countsAt s1 r.part r.counts V
  ({ q := q, seed := r.seed, grammar := t, counts := cs, counted := r.counts != 0, pos := pos, sampled := r.sampled, maxNew := r.maxNew,
     maxCtx := match modelOf s r.model with | some m => m.maxCtx | none => 0 }, s2)

def probe (s : State) (e dpa pos : Nat) (a : LogitsArea) (q : Sampling) : Answer :=
  let r := reqOf s e
  match vectorAt s r.part dpa a with
  | (st, v, poison, s1) =>
    if st ≠ St.ok then .done st [] s1
    else if poison then .done St.poisoned [] s1
    else
      let (x, s3) := walkCtx s1 e q pos
      match choose v (fun t => x.counts.getD t 0) x.counted (x.grammar.map (fun t => (t, r.gstate))) q r.seed pos with
      | .invalid => .done St.logitsInvalid [] s3
      | .exhausted t => .done St.grammarExhausted (leBytes 4 t ++ leBytes 4 r.gstate) (floCount s3 r.part 6 1)
      | .token t => .done St.ok (leBytes 4 t ++ leBytes 4 (grammarAfter x r.gstate (.token t))) s3

def execFlourishProbe (c : Cmd) (s : State) : Host.Outcome State Fault Refusal :=
  .next (firmware { op := 0x0904, need := 20, refuse := foreignReq } (fun c s =>
    let e := p32 c 0 % 4096
    let r := reqOf s e
    checked [(stale s (p32 c 0), St.reqStale), (r.st == 0, St.reqState), (!isDpa (p64 c 8), St.badAddress)] s
      (match mfind s.flo.areas r.part with
       | none => .done St.flourishLayout [] s
       | some a =>
         match samplingCheck s r.part r.sampling r.counts with
         | (none, s1) => .done St.samplingInvalid [] s1
         | (some q, s1) => probe s1 e (p64 c 8) (p32 c 16) a q)) c s)

def execFlourishCounters (c : Cmd) (s : State) : Host.Outcome State Fault Refusal :=
  .next (firmware { op := 0x0905, need := 16, part := some 0 } (fun c s =>
    let p := p8 c 0
    checked [(decide (p > 3), St.invalidField)] s
      (reportTo (p64 c 8) (((List.range 8).map (fun i => leBytes 8 (mget 0 s.flo.ctr (p * 8 + i)))).flatten) [] s)) c s)

end Sys2Proof.Machine
end

