-- ==== Sys2Proof/Machine/Serving.lean ====
section
/-! DEFINITION. The commands of models, pools, requests and prefixes (spec/09), with pausing, parking and restoring. The request
commands name an entry by its ID; the rows that end a copy name the ledger entry. -/
namespace Sys2Proof.Machine

/-! ### Order (R273) -/

/-- A PARKED request whose TTL has run out. -/
def ttlDue (r : Req) : Bool := r.st == 6 && r.ttlRun && r.ttl == 0 && !r.restoring

/-- Expiries that are due, in ascending entry index (R273). -/
def expireAll (s : State) : State := (s.srv.reqs.filter (fun e => ttlDue e.2)).foldl (fun s e => endRequest s e.1 5 9) s

/-- A command is ordered after every expiry stamped at or before its doorbell stamp (R273). -/
def settle (c : Cmd) (s : State) : State := if c.stamp.toNat / 65536 ≥ s.rul.line.toNat then expireAll s else s

/-- A command of the serving block. -/
def servingCmd (sp : FwSpec) (f : Cmd → State → Answer) (c : Cmd) (s : State) : Host.Outcome State Fault Refusal :=
  .next (firmware sp (fun c s => f c (settle c s)) c s)

/-- A command that names a request (R264). -/
def reqCmd (op need : Nat) (f : Cmd → Nat → State → Answer) (c : Cmd) (s : State) : Host.Outcome State Fault Refusal :=
  servingCmd { op := op, need := need, refuse := foreignReq } (fun c s =>
    checked [(stale s (p32 c 0), St.reqStale)] s (f c (p32 c 0 % 4096) s)) c s

/-! ### Models and pools (R255 to R258) -/

/-- A configured pool of a kind whose stride holds the payload. -/
def poolServes (s : State) (k kind payload : Nat) : Bool :=
  match mfind s.srv.pools k with
  | some p => p.kind == kind && decide (p.stride ≥ payload)
  | none => false

/-- A descriptor of MODEL_LOAD (R255). -/
def parseModel (b : List Byte) : Model :=
  { raw := b, flags := BitVec.ofNat 8 (fieldN b 1 1), tag := BitVec.ofNat 32 (fieldN b 4 4), payload := fieldN b 8 4, maxCtx := fieldN b 12 4,
    live := fieldN b 16 1, park := fieldN b 17 1, summary := fieldN b 18 1, sbasis := fieldN b 20 2, scount := fieldN b 22 2 }

def execModelLoad (c : Cmd) (s : State) : Host.Outcome State Fault Refusal :=
  servingCmd { op := 0x0701, need := 24, vf := false } (fun c s =>
    let m := p8 c 0
    let x := parseModel (padTo 24 (body c))
    checked
      [ (decide (m > 15) || x.payload == 0 || x.payload % 4096 != 0 || decide (x.payload > 16777216) || decide (x.maxCtx < 16) ||
          decide (x.maxCtx > 16777216) || decide (x.scount > 64), St.invalidField),
        (!poolServes s x.live 0 x.payload || (x.park != 0xFF && !poolServes s x.park 1 x.payload) ||
          (x.summary != 0xFF && !poolServes s x.summary 2 x.payload), St.poolLayout),
        ((modelOf s m).isSome, St.modelBusy) ] s
      (.done St.ok [] { s with srv.models := mput s.srv.models m x })) c s

def execModelUnload (c : Cmd) (s : State) : Host.Outcome State Fault Refusal :=
  servingCmd { op := 0x0702, need := 1, vf := false } (fun c s =>
    let m := p8 c 0
    checked [((modelOf s m).isNone, St.modelAbsent), (s.srv.reqs.any (fun r => r.2.st != 0 && r.2.model == m), St.modelBusy)] s
      (let s1 := flushIndex s m
       .done St.ok [] { s1 with srv.models := mdel s1.srv.models m })) c s

/-- Whether a loaded model names a pool. -/
def poolNamed (s : State) (k : Nat) : Bool := s.srv.models.any (fun m => m.2.live == k || m.2.park == k || m.2.summary == k)

/-- The placement of a pool's payload by its kind (R257). -/
def poolPlaced (s : State) (kind dpa len : Nat) : Bool :=
  (regionSteps dpa len).all (fun a =>
    match whereIs a with
    | .region t r =>
      let e := regionEntry s t r
      let summary := match foldInfo s a with | some i => i.summary | none => false
      eMode e != 0 && !eWindow e &&
        (if kind = 2 then eFolded e && summary else !eFolded e && (kind == 0 || t == .cap))
    | _ => false)

/-- Page ID ranges that meet. -/
def rangesMeet (a n b m : Nat) : Bool := decide (a < b + m) && decide (b < a + n)

def parsePool (b : List Byte) : Pool :=
  { raw := b, kind := fieldN b 1 1, first := fieldN b 4 4, count := fieldN b 8 4, stride := fieldN b 12 4, data := fieldN b 16 8,
    trailers := fieldN b 24 8, low := fieldN b 32 4, free := [], fresh := 0, below := decide (fieldN b 8 4 < fieldN b 32 4),
    stats := List.replicate 8 0 }

/-- The pages of a pool's former configuration are forgotten, pins' included. -/
def forgetPool (s : State) (k : Nat) : State :=
  match mfind s.srv.pools k with
  | none => s
  | some p =>
    { s with srv.pages := s.srv.pages.filter (fun e => !inPool p e.1)
             srv.pins := s.srv.pins.map (fun (h, x) => (h, { x with pages := x.pages.filter (fun n => !inPool p n) })) }

def execPagePoolConfig (c : Cmd) (s : State) : Host.Outcome State Fault Refusal :=
  servingCmd { op := 0x0703, need := 36, vf := false } (fun c s =>
    let k := p8 c 0
    let p := parsePool (padTo 36 (body c))
    checked
      [ (decide (k > 7) || decide (p.kind > 2) || p.count == 0 || decide (p.first + p.count > 16777216) || p.stride % 4096 != 0, St.invalidField),
        (p.data % 4096 != 0 || p.trailers % 128 != 0 || !isDpa p.data || !isDpa p.trailers, St.badAddress),
        (poolNamed s k, St.poolBusy),
        (s.srv.pools.any (fun e => e.1 != k && rangesMeet p.first p.count e.2.first e.2.count) ||
          !poolPlaced s p.kind p.data (p.stride * p.count) || !fastArea s none p.trailers (128 * p.count), St.poolLayout) ] s
      (.done St.ok [] (setPool (forgetPool s k) k p))) c s

def execPageMapConfig (c : Cmd) (s : State) : Host.Outcome State Fault Refusal :=
  servingCmd { op := 0x0704, need := 24, vf := false } (fun c s =>
    let area := p64 c 0
    let n := p32 c 8
    let index := p64 c 16
    checked
      [ (n == 0 || decide (n > 1048576), St.invalidField),
        (area % 4096 != 0 || index % 4096 != 0 || !isDpa area || !isDpa index, St.badAddress),
        (!s.srv.models.isEmpty, St.poolBusy),
        (!fastArea s none area (4096 * n) || !fastArea s none index 16777216, St.poolLayout) ] s
      (.done St.ok [] (devWrite { s with
        srv.map := some { raw := padTo 24 (body c), blocks := area, count := n, index := index, free := [], fresh := 0 }
        srv.index := [] } index (zeros 16777216)))) c s

/-! ### REQ_SUBMIT (R265, R266, R271, R274, R319) -/

/-- A live pin by its handle. -/
def pinOf (s : State) (h : Nat) : Option Pin :=
  match mfind s.srv.pins (h % 65536) with
  | some x => if mget 1 s.srv.pinGens (h % 65536) = h / 65536 then some x else none
  | none => none

/-- The record of REQ_SUBMIT as an entry; the fields that the device sets are those of a fresh request. -/
def parseReq (b : List Byte) (id root : Nat) (now : Stamp) : Req :=
  { id := id, st := 1, prio := fieldN b 5 1 % 8, part := fieldN b 5 1 / 16 % 4, model := fieldN b 6 1, noPublish := bit (fieldN b 7 1) 0,
    cadenced := bit (fieldN b 7 1) 1, root := root, ttft := now + BitVec.ofNat 64 (fieldN b 24 8), tbt := BitVec.ofNat 64 (fieldN b 32 8),
    nextDue := now + BitVec.ofNat 64 (fieldN b 24 8), gtable := fieldN b 48 2, gstate := fieldN b 52 4, counts := fieldN b 56 8,
    seed := BitVec.ofNat 64 (fieldN b 64 8), slot := fieldN b 72 2, promptLen := fieldN b 76 4, prompt := fieldN b 80 8,
    maxNew := fieldN b 92 4, pin := fieldN b 100 4, sampling := fieldN b 104 8, submitted := now,
    cookie := BitVec.ofNat 32 (fieldN b 120 4) }

/-- Checks 1 and 2 of R319. -/
def grammarCheck (s : State) (p table st : Nat) : Option Nat × State :=
  if table = 0xFFFF then (none, s)
  else if table > 63 then (some St.grammarAbsent, s)
  else
    match grammarAt s p table with
    | (some t, s1) => (if st < gStates t then none else some St.invalidField, s1)
    | (none, s1) => (some St.grammarAbsent, s1)

/-- Pages of a pin that the request can hold: at most `n`, up to the first without room in REFS (R261). -/
def pinPages (s : State) (x : Pin) (n : Nat) : List Nat := (x.pages.take n).takeWhile (fun g => decide ((pageOf s g).refs < 65535))

/-- The accepted request: its entry, then the pin's pages, then those of the lookup. -/
def admitReq (s : State) (b : List Byte) (e : Nat) (pin : Option Pin) (toks : List (BitVec 32)) : Answer :=
  match newBlock s true with
  | none => .done St.pagesExhausted [] s
  | some (root, s1) =>
    let id := e + 4096 * genNow s e
    let r := parseReq b id root (stamp s)
    let s2 := setReq { s1 with srv.lat := mput s1.srv.lat e {} } e r
    let blocks := chunks 16 toks
    let (k0, s3) := match pin with
      | some x => attachPages e (pinPages s2 x blocks.length) 0 s2
      | none => (0, s2)
    let want := match pin with | some x => min x.pages.length blocks.length | none => 0
    let (k1, s4) :=
      if k0 < want then (0, s3)
      else
        let parent := if k0 = 0 then noPage else (reqPage s3 e (k0 - 1)).getD noPage
        let (pages, s3') := lookup s3 r.model blocks k0 parent true
        attachPages e pages k0 s3'
    let k := k0 + k1
    .done St.ok (leBytes 4 id ++ leBytes 4 (16 * k) ++ leBytes 4 k)
      (noteCheck (setReq s4 e { reqOf s4 e with committed := 16 * k, promptDone := 16 * k }) r.part (stamp s4))

/-- Checks 4 and 5 of R266 and the pin (R274), then acceptance. -/
def placeReq (s : State) (b : List Byte) : Answer :=
  let n := fieldN b 76 4
  let p := fieldN b 5 1 / 16 % 4
  let h := fieldN b 100 4
  match findFrom (fun e => (reqOf s e).st == 0) 4096 0 with
  | none => .done St.resourceExhausted [] s
  | some e =>
    if (takeBlock s).isNone then .done St.pagesExhausted [] s
    else
      let x := pinOf s h
      if h ≠ 0 ∧ x.isNone then .done St.pinInvalid [] s
      else if fieldN b 80 8 ≥ 2 ^ 48 then .done St.badAddress [] s
      else
        let look := (n - 1) / 16 * 16
        let m := match x with | some x => if x.tokens.length ≤ n then max look x.tokens.length else look | none => look
        match readBytes s (.serving p) (fieldN b 80 8) (4 * m) 0 with
        | (st, d, poison, s1) =>
          if st ≠ St.ok then .done st [] s1
          else if poison then .done St.poisoned [] s1
          else
            let toks := tokenList d
            let good := match x with
              | some x => x.model == fieldN b 6 1 && decide (x.tokens.length ≤ n) && toks.take x.tokens.length == x.tokens
              | none => true
            if !good then .done St.pinMismatch [] s1 else admitReq s1 b e x (toks.take look)

def execReqSubmit (c : Cmd) (s : State) : Host.Outcome State Fault Refusal :=
  servingCmd { op := 0x0705, need := 128, ext := true, refuse := fun c _ => p8 c 5 / 16 % 4 != c.fn - 1 } (fun c s =>
    let b := padTo 128 (body c)
    let p := fieldN b 5 1 / 16 % 4
    match modelOf s (fieldN b 6 1) with
    | none => .done St.modelAbsent [] s
    | some x =>
      checked
        [ (fieldN b 76 4 == 0 || decide (fieldN b 76 4 > x.maxCtx), St.contextLimit),
          (decide ((stamp s).toNat + fieldN b 24 8 ≥ 2 ^ 64), St.invalidField) ] s
        (match grammarCheck s p (fieldN b 48 2) (fieldN b 52 4) with
         | (some st, s1) => .done st [] s1
         | (none, s1) =>
           match samplingCheck s1 p (fieldN b 104 8) (fieldN b 56 8) with
           | (none, s2) => .done St.samplingInvalid [] s2
           | (some _, s2) => placeReq s2 b)) c s

/-! ### REQ_QUERY, REQ_CANCEL, REQ_RETIRE (R264, R268) -/

def execReqQuery (c : Cmd) (s : State) : Host.Outcome State Fault Refusal :=
  reqCmd 0x0706 16 (fun c e s => reportTo (p64 c 8) (servingGranule s (128 * e) ++ servingGranule s (128 * e + 64)) [] s) c s

def execReqCancel (c : Cmd) (s : State) : Host.Outcome State Fault Refusal :=
  reqCmd 0x0707 4 (fun _ e s =>
    let r := reqOf s e
    if r.st = 9 ∨ r.st = 10 then .done St.ok [] s
    else if r.st = 0 ∨ r.st = 8 then .done St.reqState [] s
    else if r.moving then .wait (.request e) (setReq s e { r with cancelPend := true })
    else if !r.inStep then .done St.ok [] (endRequest s e 4 9)
    else if r.st = 2 ∨ r.st = 3 ∨ r.st = 4 then .wait (.request e) (setReq s e { r with st := 8 })
    else .done St.reqState [] s) c s

/-- The next generation of an entry, or of a pin slot, below `top` (R264, R274). -/
def nextGen (top g : Nat) : Nat := if g ≥ top then 1 else g + 1

/-- The map blocks of an entry are freed: leaves in the order of the root, then the root. -/
def freeBlocks (s : State) (r : Req) : State := freeBlock (r.leaves.foldl (fun s l => freeBlock s l.2) s) r.root

def execReqRetire (c : Cmd) (s : State) : Host.Outcome State Fault Refusal :=
  reqCmd 0x070A 4 (fun _ e s =>
    let r := reqOf s e
    if r.st = 9 ∨ r.st = 10 then
      let s1 := freeBlocks s r
      .done St.ok [] { s1 with srv.reqs := mdel s1.srv.reqs e, srv.lat := mdel s1.srv.lat e,
                               srv.gens := mput s1.srv.gens e (nextGen 0xFFFFF (genNow s1 e)) }
    else .done St.reqState [] s) c s

/-! ### Pausing (R267, R275, R277) -/

/-- `n` pages of a pool with the first trailer `g`, or none with nothing taken. -/
def allocMany (k : Nat) (g : Page) : Nat → State → List Nat → Option (List Nat × State)
  | 0, s, acc => some (acc.reverse, s)
  | n + 1, s, acc =>
    match allocPage s k g with
    | some (p, s1) => allocMany k g n s1 (p :: acc)
    | none => none

/-- The first trailer of a page of a request. -/
def ownPage (r : Req) : Page := { st := 1, model := r.model, owner := r.id }

/-- Page indices that SUMMARISED folds: complete below COMMITTED - 64 and not folded yet. -/
def foldable (r : Req) : List Nat :=
  (r.pages.filter (fun l => decide (16 * (l.1 + 1) + 64 ≤ r.committed) && !(l.2.getLsbD 30))).map Prod.fst

/-- New pages for the entries at some page indices, and MOVING. -/
def startMove (s : State) (e k : Nat) (is_ : List Nat) : Option State :=
  match allocMany k (ownPage (reqOf s e)) is_.length s [] with
  | none => none
  | some (ns, s1) => some (setReq s1 e { reqOf s1 e with moving := true, moveSrc := is_.zip ns })

/-- A pause takes effect: PAUSED, then as its mode requires. The status of REQ_PAUSE, or none while a copy or fold goes on. -/
def applyPause (s0 : State) (e : Nat) : Option Nat × State :=
  let r := { reqOf s0 e with st := 5, pausePending := false }
  let s := setReq s0 e r
  match r.pauseMode, modelOf s r.model with
  | 1, some x =>
    (match startMove s e x.park (r.pages.map Prod.fst) with
     | some s1 => if x.park = 0xFF then (some St.pagesExhausted, s) else (none, s1)
     | none => (some St.pagesExhausted, s))
  | 2, some x =>
    if r.promptDone ≠ r.promptLen ∨ x.summary = 0xFF ∨ x.scount = 0 ∨ !composing s r.part then (some St.summaryUnavailable, s)
    else if (foldable r).isEmpty then (some St.ok, setReq s e { r with st := 7 })
    else
      match startMove s e x.summary (foldable r), mfind s.stp.comps r.part with
      | some s1, some k => (none, { s1 with stp.comps := mput s1.stp.comps r.part { k with summaries := k.summaries ++ [e] } })
      | _, _ => (some St.pagesExhausted, s)
  | _, _ => (some St.ok, s)

/-- The commands of one opcode that wait for a request complete. -/
def finishReq (s : State) (e op status : Nat) (result : List Byte) : State :=
  let hit (r : Running) : Bool := r.wait == .request e && r.opcode == op
  let hits := s.ink.running.filter hit
  hits.foldl (fun s r => complete s r.cmd status result) { s with ink.running := s.ink.running.filter (fun r => !hit r) }

/-- A REQ_CANCEL that waited for a copy or fold applies. -/
def applyCancel (s : State) (e : Nat) : State := if (reqOf s e).cancelPend then endRequest s e 4 9 else s

def execReqPause (c : Cmd) (s : State) : Host.Outcome State Fault Refusal :=
  reqCmd 0x0708 12 (fun c e s =>
    let r := reqOf s e
    let r1 := { r with pauseMode := p8 c 4, pauseTtl := p32 c 8 }
    if p8 c 4 > 2 then .done St.invalidField [] s
    else if r.st = 0 ∨ r.st > 4 then .done St.reqState [] s
    else if r.inStep then .wait (.request e) (setReq s e { r1 with pausePending := true })
    else
      match applyPause (setReq s e r1) e with
      | (some st, s1) => .done st [] s1
      | (none, s1) => .wait (.request e) s1) c s

/-- DPA of a page's trailer. -/
def trailerAt (s : State) (n : Nat) : Nat := match poolOf s n with | some (_, p) => p.trailers + 128 * (n - p.first) | none => 0

/-- Whether the copy of some page waits: at the partition's regulators or for a retraining channel (R131, R138). -/
def pagesHeld (s : State) (rq : Requester) (len : Nat) (l : List (Nat × Nat)) : Bool :=
  l.any (fun m => copyHeld s rq true true (payloadAt s m.1) (payloadAt s m.2) len 2)

/-- Payloads and trailers copied page by page in BULK class, charged to the partition (R130, R275): the status, POISONED when only poison
was met. The new trailer's bytes are written as the page takes them. -/
def copyPages (rq : Requester) (len : Nat) : List (Nat × Nat) → State → Nat → Nat × State
  | [], s, st => (st, s)
  | (a, b) :: r, s, st =>
    match copyWithin (charge (charge s rq (trailerAt s a) 128 2) rq (trailerAt s b) 128 2) rq (payloadAt s a) (payloadAt s b) len 2 with
    | (st1, s1) =>
      if st1 = St.ok then copyPages rq len r s1 st
      else if st1 = St.poisoned then copyPages rq len r s1 St.poisoned
      else (st1, s1)

def statusRuns (st : Nat) : Bool := st == St.ok || st == St.poisoned

/-- One entry of a park copy: the new page takes the trailer and the entry, and the former page loses a holder. -/
def parkOne (e : Nat) (s : State) (m : Nat × Nat) : State :=
  match reqPage s e m.1 with
  | none => s
  | some old =>
    let s1 := setPage s m.2 { pageOf s old with refs := 1, children := 0, st := 3 }
    match setLeaf s1 e m.1 (leafValid + leafPark + m.2) with
    | some s2 => unrefPage s2 old
    | none => s1

/-- The pages of a move, from and to. -/
def movePairs (s : State) (e : Nat) (l : List (Nat × Nat)) : List (Nat × Nat) := l.filterMap (fun m => (reqPage s e m.1).map (fun a => (a, m.2)))

/-- Bytes of a page of a request's model. -/
def pageLen (s : State) (r : Req) : Nat := match modelOf s r.model with | some x => x.payload | none => 0

def execParkCopyDone (entry : Nat) (s : State) : Host.Outcome State Fault Refusal :=
  let r := reqOf s entry
  .next (
    if r.st = 5 ∧ r.moving ∧ r.pauseMode = 1 ∧ !pagesHeld s (.serving r.part) (pageLen s r) (movePairs s entry r.moveSrc) then
      match copyPages (.serving r.part) (pageLen s r) (movePairs s entry r.moveSrc) s St.ok with
      | (st, s1) =>
        let s2 :=
          if statusRuns st then
            let s3 := r.moveSrc.foldl (parkOne entry) s1
            setReq s3 entry { reqOf s3 entry with st := 6, moving := false, moveSrc := [], ttlPend := true, ttlRun := false }
          else dropMoves s1 entry
        applyCancel (finishReq s2 entry 0x0708 st []) entry
    else s)

/-- TTL_EXPIRE, in ascending entry index (R273). -/
def execTtlExpire (entry : Nat) (s : State) : Host.Outcome State Fault Refusal :=
  .next (if ttlDue (reqOf s entry) && s.srv.reqs.all (fun e => decide (entry ≤ e.1) || !ttlDue e.2) then endRequest s entry 5 9 else s)

/-! ### Resuming (R268, R276) -/

/-- Index pages for the parked pages of a request, in order, while they match. -/
def reattach (s : State) (e : Nat) : List Nat × State :=
  let r := reqOf s e
  let blocks := (((r.pages.map (fun l => pageOf s (leafPage l.2))).takeWhile (fun g => g.filled == 16)).map (fun g => (g.key, g.tokens)))
  let s1 := prog (poolCount s (livePool s r.model) 1) 0x8006 8 none none 1
  matchGo r.model true noPage blocks s1 []

/-- The restore of a PARKED request: matched pages held, LIVE pages taken for the rest. -/
def startRestore (s : State) (e : Nat) : Answer :=
  let (pages, s1) := reattach s e
  let r := reqOf s1 e
  let is_ := r.pages.map Prod.fst
  let s2 := pages.foldl (fun s n => let g := pageOf s n; pageLow (setPage s n { g with refs := g.refs + 1, lastUse := stamp s }) n) s1
  match allocMany (livePool s2 r.model) (ownPage r) (is_.length - pages.length) s2 [] with
  | none => .done St.pagesExhausted [] s1
  | some (ns, s3) =>
    .wait (.request e) (setReq s3 e { r with restoring := true
                                             moveSrc := is_.zip (pages.map (· + 2 ^ 24) ++ ns) })

def execReqResume (c : Cmd) (s : State) : Host.Outcome State Fault Refusal :=
  reqCmd 0x0709 4 (fun _ e s =>
    let r := reqOf s e
    if r.st = 5 ∨ r.st = 7 then .done St.ok (zeros 8) (noteCheck (setReq s e { r with resumeWanted := true }) r.part (stamp s))
    else if r.st = 6 ∧ !r.restoring then startRestore s e
    else .done St.reqState [] s) c s

/-- Whether a move's page was attached from the index. -/
def moveAttached (m : Nat × Nat) : Bool := decide (m.2 ≥ 2 ^ 24)

/-- One entry of a restore. -/
def restoreOne (e : Nat) (s : State) (m : Nat × Nat) : State :=
  match reqPage s e m.1 with
  | none => s
  | some old =>
    let n := m.2 % 2 ^ 24
    let s1 := if moveAttached m then s else setPage s n { pageOf s old with refs := 1, children := 0, st := 1 }
    match setLeaf s1 e m.1 (leafValid + n) with
    | some s2 => unrefPage s2 old
    | none => s1

def execRestoreDone (entry : Nat) (s : State) : Host.Outcome State Fault Refusal :=
  let r := reqOf s entry
  .next (
    if r.st = 6 ∧ r.restoring ∧
        !pagesHeld s (.serving r.part) (pageLen s r) (movePairs s entry (r.moveSrc.filter (fun m => !moveAttached m))) then
      let copied := r.moveSrc.filter (fun m => !moveAttached m)
      match copyPages (.serving r.part) (pageLen s r) (movePairs s entry copied) s St.ok with
      | (st, s1) =>
        let s2 :=
          if statusRuns st then
            let s3 := r.moveSrc.foldl (restoreOne entry) s1
            noteCheck (setReq s3 entry { reqOf s3 entry with st := 5, restoring := false, moveSrc := [], resumeWanted := true,
                                                                   ttlRun := false, ttlPend := false }) r.part (stamp s3)
          else dropMoves s1 entry
        let k := r.moveSrc.length - copied.length
        applyCancel (finishReq s2 entry 0x0709 st (if statusRuns st then leBytes 4 k ++ leBytes 4 copied.length else [])) entry
    else s)

/-! ### Prefixes (R271, R274, R279) -/

def execPrefixLookup (c : Cmd) (s : State) : Host.Outcome State Fault Refusal :=
  servingCmd { op := 0x070B, need := 20 } (fun c s =>
    let m := p8 c 0
    checked [((modelOf s m).isNone, St.modelAbsent)] s
      (match readBytes s (cmdRq c) (p64 c 8) (4 * ((p32 c 16 - 1) / 16 * 16)) 0 with
       | (st, d, poison, s1) =>
         if st ≠ St.ok then .done st [] s1
         else if poison then .done St.poisoned [] s1
         else
           match lookup s1 m (chunks 16 (tokenList d)) 0 noPage false with
           | (pages, s2) => .done St.ok (leBytes 4 pages.length) s2)) c s

def execPrefixPin (c : Cmd) (s : State) : Host.Outcome State Fault Refusal :=
  servingCmd { op := 0x070C, need := 20 } (fun c s =>
    let m := p8 c 0
    let n := p32 c 16
    checked [(n % 16 != 0, St.invalidField), ((modelOf s m).isNone, St.modelAbsent)] s
      (match readBytes s (cmdRq c) (p64 c 8) (4 * n) 0 with
       | (st, d, poison, s1) =>
         if st ≠ St.ok then .done st [] s1
         else if poison then .done St.poisoned [] s1
         else
           match lookup s1 m (chunks 16 (tokenList d)) 0 noPage true with
           | (pages, s2) =>
             if pages.length < n / 16 then .done St.pinMiss (leBytes 4 0 ++ leBytes 4 pages.length) s2
             else
               match findFrom (fun k => (mfind s2.srv.pins k).isNone) 65536 0 with
               | none => .done St.resourceExhausted [] s2
               | some k =>
                 let s3 := pages.foldl (fun s n => let g := pageOf s n; pageLow (setPage s n { g with refs := g.refs + 1 }) n) s2
                 .done St.ok (leBytes 4 (k + 65536 * mget 1 s3.srv.pinGens k) ++ leBytes 4 pages.length)
                   { s3 with srv.pins := mput s3.srv.pins k { model := m, pages := pages, tokens := tokenList d } })) c s

def execPrefixUnpin (c : Cmd) (s : State) : Host.Outcome State Fault Refusal :=
  servingCmd { op := 0x070D, need := 4 } (fun c s =>
    let k := p32 c 0 % 65536
    match pinOf s (p32 c 0) with
    | none => .done St.pinInvalid [] s
    | some x =>
      let s1 := x.pages.foldl unrefPage s
      .done St.ok [] { s1 with srv.pins := mdel s1.srv.pins k
                               srv.pinGens := mput s1.srv.pinGens k (nextGen 0xFFFF (mget 1 s1.srv.pinGens k)) }) c s

def execPrefixFlush (c : Cmd) (s : State) : Host.Outcome State Fault Refusal :=
  servingCmd { op := 0x070E, need := 1, vf := false } (fun c s =>
    let m := p8 c 0
    checked [((modelOf s m).isNone, St.modelAbsent)] s (.done St.ok [] (flushIndex s m))) c s

/-- The statistics record of a pool (R279). -/
def poolStats (s : State) (p : Pool) : List Nat :=
  let pages := s.srv.pages.filter (fun e => inPool p e.1)
  let inState (st : Nat) : Nat := (pages.filter (fun e => e.2.st == st)).length
  let entries := ((s.srv.index.map (fun b => (b.2.filter (fun e => e.key != 0 && inPool p e.page)).length))).sum
  let k (i : Nat) : Nat := p.stats.getD i 0
  [freeCount p, inState 1, inState 2, inState 3, inState 4, inState 5, (reclaimables s p).length, k 0, entries, k 1, k 2, k 3, k 4, k 5, k 6, k 7]

def execPageStats (c : Cmd) (s : State) : Host.Outcome State Fault Refusal :=
  servingCmd { op := 0x070F, need := 16 } (fun c s =>
    match mfind s.srv.pools (p8 c 0) with
    | none => .done St.invalidField [] s
    | some p => reportTo (p64 c 8) (((poolStats s p).map (leBytes 4)).flatten) [] s) c s

end Sys2Proof.Machine
end

