-- ==== Sys2Proof/Machine/Composer.lean ====
section
/-! DEFINITION. The step composer (spec/10): configuration, candidates, proposals and their confirmation, with cadenced input and
the latency record. Running a step and STEP_END are in Steps. -/
namespace Sys2Proof.Machine

def compOf (s : State) (p : Nat) : Composer := mget {} s.stp.comps p

def setComp (s : State) (p : Nat) (k : Composer) : State := { s with stp.comps := mput s.stp.comps p k }

def setSlot (s : State) (n : Nat) (f : FrameSlot) : State := { s with stp.slots := mput s.stp.slots n f }

/-- Unit ID of a partition's composer (R422). -/
def compUnit (p : Nat) : Nat := 0x8000 + p

/-- The ledger entry of a row's request. -/
def rowEntry (r : Row) : Nat := r.req % 4096

/-! ### Frames (R304 to R306) -/

/-- A cadenced request's slot is configured for its partition. -/
def slotMine (s : State) (p n : Nat) : Bool := match mfind s.stp.slots n with | some f => f.part == p | none => false

/-- A request that is neither FREE nor ended. -/
def alive (r : Req) : Bool := r.st != 0 && r.st != 9 && r.st != 10

/-- A slot serves the request of lowest entry index that names it. -/
def slotServes (s : State) (p n e : Nat) : Bool :=
  match s.srv.reqs.find? (fun x => alive x.2 && x.2.cadenced && x.2.part == p && x.2.slot == n) with
  | some x => x.1 == e
  | none => false

/-- The oldest frame of a slot is dropped: 0 overrun, 1 stale, 2 bad length (R305, R314). -/
def dropFrame (p n kind : Nat) (s : State) : State :=
  match mfind s.stp.slots n with
  | none => s
  | some f =>
    post (setSlot s n { f with arrivals := f.arrivals.drop 1, next := f.next + 1, drops := f.drops + 1 }) 0x0805 p
      (leBytes 2 n ++ [BitVec.ofNat 8 kind, 0] ++ leBytes 4 (f.drops + 1)) true

def dropFrames (p n kind : Nat) : Nat → State → State
  | 0, s => s
  | k + 1, s => dropFrames p n kind k (dropFrame p n kind s)

/-- Frames of a slot that arrived before a snapshot. -/
def readyFrames (f : FrameSlot) (S : Stamp) : Nat := (f.arrivals.takeWhile (fun a => decide (a.toNat < S.toNat))).length

/-- The oldest frame of good length among the next `fuel`; bad ones are dropped as they are taken. -/
def takeGood (p n : Nat) : Nat → State → Option Nat × State
  | 0, s => (none, s)
  | fuel + 1, s =>
    match mfind s.stp.slots n with
    | none => (none, s)
    | some f =>
      match readBytes s (.serving p) (f.base + f.stride * (f.next % f.buffers)) 64 0 with
      | (st, h, poison, s1) =>
        let len := fieldN h 0 4
        if st = St.ok ∧ !poison ∧ 0 < len ∧ len ≤ f.largest then (some len, s1) else takeGood p n fuel (dropFrame p n 2 s1)

/-- The frame that a proposal with snapshot S takes: its n. -/
def takeFrame (s : State) (p n : Nat) (S : Stamp) : Option Nat × State :=
  match mfind s.stp.slots n with
  | none => (none, s)
  | some f =>
    let k := readyFrames f S
    let excess := k - f.buffers
    let stale := if f.skipStale then (k - excess) - 1 else 0
    takeGood p n (k - excess - stale) (dropFrames p n 1 stale (dropFrames p n 0 excess s))

/-! ### Candidates (R285, R286, R319, R333) -/

/-- A candidate: its row, its due stamp, SUBMITTED, and the prompt tokens left. -/
structure Cand where
  row : Row
  due : Stamp
  sub : Stamp
  left : Nat
deriving DecidableEq, Repr

def rowFlags (r : Req) (due S : Stamp) (resumed : Bool) : BitVec 8 :=
  BitVec.ofNat 8 (b2n resumed + 2 * b2n (decide (due.toNat ≤ S.toNat)) + 4 * b2n r.cadenced)

/-- A row of one sampled token from COMMITTED - 1. -/
def decodeRow (r : Req) (S : Stamp) (resumed : Bool) : Cand :=
  { row := { req := r.id, kind := 0, flags := rowFlags r r.nextDue S resumed, prio := r.prio, first := r.committed - 1, positions := 1,
             need := 1, vecs := 1 }
    due := r.nextDue, sub := r.submitted, left := 0 }

def draftRow (r : Req) (S : Stamp) (d depth pages : Nat) : Cand :=
  { row := { req := r.id, kind := 1, flags := rowFlags r r.nextDue S false, prio := r.prio, first := r.committed - 1, positions := 1 + d,
             need := 1 + depth, dpages := pages, vecs := 1 + d }
    due := r.nextDue, sub := r.submitted, left := 0 }

/-- A frame's due stamp (R307). -/
def frameDue (f : FrameSlot) (line : BitVec 48) : Stamp := BitVec.ofNat 64 (min (line.toNat * 65536 + f.due.toNat) (2 ^ 64 - 1))

def frameRow (r : Req) (f : FrameSlot) (S : Stamp) (n : Nat) (resumed : Bool) : Cand :=
  let line := BitVec.ofNat 48 ((f.arrivals.headD 0).toNat / 65536)
  { row := { req := r.id, kind := 3, flags := rowFlags r (frameDue f line) S resumed, prio := r.prio, first := r.committed - 1,
             positions := 1 + n, slot := r.slot, buffer := f.next % f.buffers, frame := f.next, tokens := n, line := line, need := n + 1,
             vecs := 1 }
    due := frameDue f line, sub := r.submitted, left := 0 }

/-- A chunk of `n` prompt tokens; FINAL when it ends the prompt. -/
def setChunk (c : Cand) (n : Nat) : Cand :=
  let fin := n == c.left
  { c with row := { c.row with positions := n, need := n + b2n fin, vecs := b2n fin,
                               flags := if fin then c.row.flags ||| 8 else c.row.flags &&& 0xF7 } }

def promptRow (r : Req) (chunk : Nat) (S : Stamp) (resumed : Bool) : Cand :=
  setChunk { row := { req := r.id, kind := 2, flags := rowFlags r r.nextDue S resumed, prio := r.prio, first := r.promptDone, positions := 0 }
             due := r.nextDue, sub := r.submitted, left := r.promptLen - r.promptDone } (min chunk (r.promptLen - r.promptDone))

/-- The generation candidate of a request. A cadenced one in DECODE takes a ready frame or goes on with its frame's text (R306). -/
def genCand (s : State) (p e : Nat) (q : Sampling) (S : Stamp) (resumed : Bool) : Option Cand × State :=
  let r := reqOf s e
  if r.cadenced && r.st == 3 && slotMine s p r.slot then
    if !slotServes s p r.slot e then (none, s)
    else
      match takeFrame s p r.slot S with
      | (some n, s1) => ((mfind s1.stp.slots r.slot).map (fun f => frameRow r f S n resumed), s1)
      | (none, s1) =>
        (match mfind s1.stp.slots r.slot with
         | some f => if !f.ended && f.textReq == r.id then some (decodeRow r S resumed) else none
         | none => none, s1)
  else if r.st = 3 ∧ q.spec ≠ 0 then
    let maxCtx := match modelOf s r.model with | some m => m.maxCtx | none => 0
    match draftAt s p q.draft with
    | (some d, s1) =>
      if draftOk d q.spec r.committed (vocabOf s p) maxCtx then
        (some (draftRow r S d.n (if q.spec = 2 then (depths d.parents).foldl max 0 else d.n) (if q.spec = 2 then (d.n + 15) / 16 else 0)), s1)
      else (some (decodeRow r S resumed), floCount s1 p 5 1)
    | (none, s1) => (some (decodeRow r S resumed), floCount s1 p 5 1)
  else (some (decodeRow r S resumed), s)

/-- Whether a request may be a candidate at all: of the partition and model, not in a step, and in a state that takes steps; a cancel that
waits for a copy or fold has been accepted (R285, log 112). -/
def mayStep (p : Nat) (k : Composer) (r : Req) : Bool :=
  r.part == p && r.model == k.model && !r.inStep && !r.cancelPend &&
    (r.st == 1 || r.st == 2 || r.st == 3 || ((r.st == 5 || r.st == 7) && r.resumeWanted))

/-- A candidate with the parameters that Flourish read at the snapshot (R318). -/
def withParams (q : Sampling) (c : Cand) : Cand := { c with row := { c.row with sampling := some q } }

/-- The candidate that a request is at a snapshot; one that breaks checks 3 to 5 of R319 faults. -/
def candOf (s : State) (p : Nat) (k : Composer) (S : Stamp) (e : Nat) : Option Cand × State :=
  let r := reqOf s e
  let resumed := r.st == 5 || r.st == 7
  if !mayStep p k r then (none, s)
  else
    match samplingCheck s p r.sampling r.counts with
    | (none, s1) => (none, faultRequest s1 e)
    | (some q, s1) =>
      if r.promptDone < r.promptLen then (some (withParams q (promptRow r k.chunk S resumed)), s1)
      else
        match genCand s1 p e q S resumed with
        | (c, s2) => (c.map (withParams q), s2)

def candsGo (p : Nat) (k : Composer) (S : Stamp) : List Nat → State → List Cand → List Cand × State
  | [], s, acc => (acc.reverse, s)
  | e :: r, s, acc =>
    match candOf s p k S e with
    | (some c, s1) => candsGo p k S r s1 (c :: acc)
    | (none, s1) => candsGo p k S r s1 acc

/-- Every candidate of a partition at a snapshot, in ascending entry index. -/
def candidatesAt (s : State) (p : Nat) (k : Composer) (S : Stamp) : List Cand × State := candsGo p k S (s.srv.reqs.map Prod.fst) s []

/-- Order within a class (R286): PRIO, then the stamp, then the entry index. -/
def candBefore (key : Cand → Stamp) (a b : Cand) : Bool :=
  decide (a.row.prio < b.row.prio) ||
    (a.row.prio == b.row.prio && (decide ((key a).toNat < (key b).toNat) || (key a == key b && decide (rowEntry a.row < rowEntry b.row))))

/-! ### Budgets and pages (R287, R288, R316) -/

/-- The step so far: rows admitted, positions of each class, vectors, and candidates left out. -/
structure Admit where
  rows : List Row := []
  gen : Nat := 0
  prm : Nat := 0
  vecs : Nat := 0
  left : Nat := 0
deriving DecidableEq, Repr

def admitGen (maxRows budget V : Nat) (a : Admit) (c : Cand) : Admit :=
  if a.rows.length < maxRows ∧ a.gen + c.row.positions ≤ budget ∧ a.vecs + c.row.vecs ≤ V then
    { a with rows := a.rows ++ [c.row], gen := a.gen + c.row.positions, vecs := a.vecs + c.row.vecs }
  else { a with left := a.left + 1 }

def admitPrompt (maxRows budget V : Nat) (a : Admit) (c : Cand) : Admit :=
  let n := min c.row.positions (budget - a.prm)
  let c1 := setChunk c n
  if a.rows.length < maxRows ∧ n ≥ 1 ∧ a.vecs + c1.row.vecs ≤ V then
    { a with rows := a.rows ++ [c1.row], prm := a.prm + n, vecs := a.vecs + c1.row.vecs }
  else { a with left := a.left + 1 }

/-- The step's rows before pages are counted, with the budgets in force. -/
def admitRows (k : Composer) (V : Nat) (cs : List Cand) : Admit × Nat × Nat :=
  let gens := sortBy (candBefore Cand.due) (cs.filter (fun c => c.row.kind != 2))
  let prms := sortBy (candBefore Cand.sub) (cs.filter (fun c => c.row.kind == 2))
  if k.mode.getLsbD 0 then
    let a := prms.foldl (admitPrompt k.maxRows k.ride V) {}
    (gens.foldl (admitGen k.maxRows (k.budget - k.ride) V) a, k.budget - k.ride, k.ride)
  else
    let a := gens.foldl (admitGen k.maxRows k.budget V) {}
    (prms.foldl (admitPrompt k.maxRows (k.budget - a.gen) V) a, k.budget, k.budget - a.gen)

/-- Page indices that a row's positions open. -/
def opened (s : State) (r : Row) : List Nat :=
  let q := reqOf s (rowEntry r)
  ((List.range ((q.committed + r.need - 1) / 16 + 1 - q.committed / 16)).map (q.committed / 16 + ·)).filter
    (fun i => (mfind q.pages i).isNone)

def rowPages (s : State) (r : Row) : Nat := (opened s r).length + r.dpages

/-- Rows in admission order while the pages suffice: rows kept, pages needed, rows left out. -/
def fitPages (s : State) (supply : Nat) : List Row → List Row → Nat → Nat → List Row × Nat × Nat
  | [], acc, n, out => (acc.reverse, n, out)
  | r :: rest, acc, n, out =>
    if n + rowPages s r ≤ supply then fitPages s supply rest (r :: acc) (n + rowPages s r) out else fitPages s supply rest acc n (out + 1)

/-! ### Records in host memory (R289, R290, R297) -/

def rowBytes16 (r : Row) : List Byte :=
  leBytes 4 r.req ++ [BitVec.ofNat 8 r.kind, r.flags, BitVec.ofNat 8 r.prio, 0] ++ leBytes 4 r.first ++ leBytes 4 r.positions

/-- A write of the composer to host memory; one that fails is lost. -/
def compHost (s : State) (a : Nat) (b : List Byte) : State := (hostWrite? s a b).getD s

def hostSlot (k : Composer) (no : Nat) : Nat := k.hostBuf + 0x8000 * (no % 4)

def reportRow (r : Row) : List Byte :=
  leBytes 4 r.req ++ [BitVec.ofNat 8 r.outcome, BitVec.ofNat 8 r.count, 0, 0] ++ leBytes 8 r.lateness.toNat

/-- The report of a step, and the composer's blotter entry of its end. -/
def writeReport (s : State) (p no : Nat) (rows : List Row) (outcome : Nat) (confirm commit : Stamp) (tokens late : Nat) : State :=
  let b := leBytes 4 no ++ [BitVec.ofNat 8 outcome, 0] ++ leBytes 2 rows.length ++ leBytes 8 confirm.toNat ++ leBytes 8 commit.toNat ++
    leBytes 4 tokens ++ leBytes 4 late ++ (rows.map reportRow).flatten
  blot (compHost s (hostSlot (compOf s p) no + 0x4000) b) (compUnit p) 0x22 (some p) (no + outcome * 2 ^ 32)

def stepDone (s : State) (p no outcome rows tokens late : Nat) : State :=
  post s 0x0802 p (leBytes 4 no ++ [BitVec.ofNat 8 outcome, 0] ++ leBytes 2 rows ++ leBytes 4 tokens ++ leBytes 4 late) true

/-! ### EXPERT_BIAS_SET (R311) -/

def expertKey (model layer : Nat) : Nat := model * 256 + layer

/-- The table and counters of EXPERT_BIAS_SET are written. -/
def applyBias (s : State) (c : Cmd) : State :=
  match mfind s.stp.experts (expertKey (p8 c 0) (p8 c 1)) with
  | none => s
  | some x =>
    let s1 := devWrite s x.bias (slice (body c) 64 (4 * x.experts))
    if bit (p8 c 2) 0 then devWrite s1 x.counter (zeros (8 * x.experts)) else s1

/-- Whether a step of a model runs. -/
def stepRuns (s : State) (m : Nat) : Bool := s.stp.comps.any (fun k => k.2.model == m && k.2.run.isSome)

/-- Waiting EXPERT_BIAS_SET commands of models without a running step apply in order and complete. -/
def releaseBias (s : State) : State :=
  let go := s.stp.biasWait.filter (fun c => !stepRuns s (p8 c 0))
  go.foldl (fun s c => finishWait (applyBias s c) (.biasSet (expertKey (p8 c 0) (p8 c 1))) St.ok [])
    { s with stp.biasWait := s.stp.biasWait.filter (fun c => stepRuns s (p8 c 0)) }

/-! ### Confirmation (R292 to R295) -/

/-- The pages of a row: leaf entries for its own, the rest DRAFT; none with nothing taken. -/
def allotRow (s : State) (r : Row) : Option (Row × State) :=
  let e := rowEntry r
  let q := reqOf s e
  let live := livePool s q.model
  let is_ := opened s r
  match allocMany live (ownPage q) is_.length s [] with
  | none => none
  | some (ns, s1) =>
    match allocMany live { ownPage q with st := 5 } r.dpages s1 [] with
    | none => none
    | some (ds, s2) =>
      let s3 := (is_.zip ns).foldl (fun (o : Option State) m => o.bind (fun t => setLeaf t e m.1 (leafValid + m.2))) (some s2)
      s3.map (fun t => ({ r with newPages := is_.zip ns, drafts := ds }, t))

/-- A resumed request whose copy or fold is still under way leaves it: its new pages are freed and its REQ_PAUSE does not reach its
state (R268, log 112). -/
def abandonMove (s : State) (e : Nat) : State := if (reqOf s e).moving then finishReq (dropMoves s e) e 0x0708 St.reqState [] else s

/-- A confirmed row's request enters the step (R268). -/
def enterStep (s0 : State) (r : Row) : State :=
  let e := rowEntry r
  let s := abandonMove s0 e
  let q := reqOf s e
  let st := if r.kind = 2 then 2 else if r.kind = 1 then 4 else 3
  setReq s e { q with st := st, inStep := true, resumeWanted := false, draft := if r.kind = 1 then r.positions - 1 else q.draft }

/-- The device's bytes of a draft record (R332). -/
def tellDrafts (s : State) (p : Nat) (r : Row) : State :=
  if r.kind ≠ 1 then s
  else
    match r.sampling with
    | some q =>
      (writeBytes s (.serving p) (q.draft + 8) ((List.range 4).map (fun i => leBytes 4 (r.drafts.getD i 0xFFFFFFFF))).flatten false 0).2
    | none => s

/-- Rows in order: dropped where the request is no candidate of the kind any more or its pages are not there. -/
def allotGo (p : Nat) (cands : List Cand) : List Row → State → List Row → List Row × State
  | [], s, acc => (acc.reverse, s)
  | r :: rest, s, acc =>
    let drop := { r with outcome := 1 }
    if !cands.any (fun c => c.row.req == r.req && c.row.kind == r.kind) then allotGo p cands rest s (drop :: acc)
    else
      match allotRow s r with
      | none => allotGo p cands rest s (drop :: acc)
      | some (r1, s1) => allotGo p cands rest (tellDrafts (enterStep s1 r1) p r1) (r1 :: acc)

def kept (rows : List Row) : List Row := rows.filter (fun r => r.outcome != 1)

/-- Logits row indices over the rows that run (R295, R316). -/
def numberLogits : Nat → List Row → List Row
  | _, [] => []
  | n, r :: rest =>
    if r.outcome = 1 ∨ r.vecs = 0 then r :: numberLogits n rest else { r with logits := n } :: numberLogits (n + r.vecs) rest

/-- A batch row (R295). -/
def batchRow (s : State) (r : Row) : List Byte :=
  rowBytes16 r ++ leBytes 4 (reqOf s (rowEntry r)).root ++ leBytes 4 r.logits ++ leBytes 2 r.slot ++ [BitVec.ofNat 8 r.buffer, 0] ++
    leBytes 4 r.tokens

def batchBytes (s : State) (no : Nat) (rows : List Row) (at_ : Stamp) : List Byte :=
  padTo 64 (leBytes 4 no ++ leBytes 2 rows.length ++ [0, 0] ++ leBytes 4 ((rows.map Row.positions).sum) ++
    leBytes 4 (rows.filter (fun r => r.vecs != 0)).length ++ leBytes 8 at_.toNat) ++ (rows.map (batchRow s)).flatten

/-- The half of the batch area that a step uses. -/
def batchHalf (k : Composer) (no : Nat) : Nat := k.batch + 0x8000 * (no % 2)

/-- The composer submits a quire. -/
def submitStep (s : State) (p q dpa n : Nat) : State :=
  let x := queueOf s p q
  startNext (setQueue s p q { x with quires := x.quires ++ [{ dpa := dpa, count := n, composer := true }], haltStatus := 0 }) p q

/-- A one-command quire of STEP_BEGIN (0x0A) or STEP_END (0x0B) is written and submitted on queue 28. -/
def submitMark (s : State) (p code off no : Nat) : State :=
  let half := batchHalf (compOf s p) no
  let b := padTo 64 ([BitVec.ofNat 8 code, 0, 0, 0, 0, 0, 0, 0] ++ leBytes 4 no ++ [0, 0, 0, 0] ++ leBytes 8 half)
  submitStep (writeBytes s (.serving p) (half + off) b false 0).2 p 28 (half + off) 1

def clearHalts (s : State) (p : Nat) : State :=
  [28, 29, 30, 31].foldl (fun s q => setQueue s p q { queueOf s p q with haltStatus := 0 }) s

/-- A proposal runs with a row list: by STEP_CONFIRM (action 0 or 1), or unamended by the firmware. -/
def confirmRows (s : State) (p action : Nat) (prop : Proposal) (rows : List Row) : State :=
  let k := compOf s p
  let now := stamp s
  let cands := (candidatesAt s p k now).1
  let s0 := blot (setComp s p { k with prop := none }) (compUnit p) 0x21 (some p) (prop.no + action * 2 ^ 32)
  let (rows1, s1) := allotGo p cands rows s0 []
  let rows2 := numberLogits 0 rows1
  let k1 := compOf s1 p
  if (kept rows2).isEmpty then
    stepDone (writeReport (setComp s1 p { k1 with atBoundary := true }) p prop.no rows2 2 now 0 0 0) p prop.no 2 rows2.length 0 0
  else
    let run : RunStep := { no := prop.no, rows := rows2, confirm := now, since := now, tally := prop.tally, posted := prop.posted }
    let s2 := setComp (clearHalts s1 p) p { k1 with run := some run }
    let s3 := (writeBytes s2 (.serving p) (batchHalf k1 prop.no) (batchBytes s2 prop.no (kept rows2) now) false 0).2
    submitMark s3 p 0x0A 0x7F80 prop.no

/-! ### The proposal (R284, R288 to R293) -/

def proposalBytes (p no : Nat) (k : Composer) (rows : List Row) (S : Stamp) (gen prm pages supply left leftPages : Nat) (epoch : BitVec 32) : List Byte :=
  padTo 64 (leBytes 4 no ++ [BitVec.ofNat 8 p, k.mode] ++ leBytes 2 rows.length ++ leBytes 8 S.toNat ++ leBytes 4 ((rows.map Row.positions).sum) ++
    leBytes 4 gen ++ leBytes 4 prm ++ leBytes 4 pages ++ leBytes 4 supply ++ leBytes 4 left ++ leBytes 4 leftPages ++ leBytes 4 epoch.toNat) ++
    (rows.map rowBytes16).flatten

/-- The number of the step after `n` (R283). -/
def nextStepNo (n : Nat) : Nat := if n ≥ 0xFFFFFFFF then 1 else n + 1

def vectorsOf (s : State) (p : Nat) : Nat := match mfind s.flo.areas p with | some a => a.vectors | none => 0

/-- Rows of cadenced requests whose slot is not configured for the partition (R306). -/
def slotless (s : State) (p : Nat) (rows : List Row) : List Nat :=
  (rows.filter (fun r => (reqOf s (rowEntry r)).cadenced && !slotMine s p (reqOf s (rowEntry r)).slot)).map rowEntry

/-- The rows that a proposal of some candidates would have. -/
def rowsOf (s : State) (p : Nat) (cs : List Cand) : List Row :=
  let k := compOf s p
  (fitPages s (supply s (livePool s k.model)) (admitRows k (vectorsOf s p) cs).1.rows [] 0 0).1

/-- Cadenced requests without a slot that the proposal would include fault, and the others are admitted again without them (R306). -/
def faultSlotless (p : Nat) : Nat → List Cand → State → List Cand × State
  | 0, cs, s => (cs, s)
  | fuel + 1, cs, s =>
    let bad := slotless s p (rowsOf s p cs)
    if bad.isEmpty then (cs, s)
    else faultSlotless p fuel (cs.filter (fun c => !bad.contains (rowEntry c.row))) (bad.foldl faultRequest s)

/-- A proposal with snapshot S of candidates that exist: written, posted, and under DELEGATED confirmed in the same operation. -/
def propose (s : State) (p : Nat) (S : Stamp) (cs : List Cand) : State :=
  let k := compOf s p
  let no := nextStepNo k.last
  let (a, gen, prm) := admitRows k (vectorsOf s p) cs
  let sup := supply s (livePool s k.model)
  let (rows, pages, out) := fitPages s sup a.rows [] 0 0
  let s1 := compHost s (hostSlot k no) (proposalBytes p no k rows S gen prm pages sup a.left out s.rul.epoch)
  let prop : Proposal := { no := no, stamp := S, rows := rows, gen := gen, prompt := prm, since := S, chunk := k.chunk, mode := k.mode,
                           maxRows := k.maxRows, budget := k.budget, amend := k.amend, tally := k.tally }
  let s2 := setComp s1 p { k with prop := some prop, last := no, atBoundary := rows.isEmpty }
  let s3 := prog (prog (prog s2 (compUnit p) 1 (some p) none 1) (compUnit p) 2 (some p) none rows.length) (compUnit p) 3 (some p) none (a.left + out)
  let delegated := k.mode.getLsbD 1
  let s4 := post (blot s3 (compUnit p) 0x20 (some p) (no + rows.length * 2 ^ 32)) 0x0801 p
    (leBytes 4 no ++ [BitVec.ofNat 8 (no % 4), 0] ++ leBytes 2 rows.length ++ leBytes 4 ((rows.map Row.positions).sum)) delegated
  if delegated then confirmRows s4 p 0 prop rows else s4

/-- The check of a composer that has fallen due at or before the present stamp, once no command of the serving block with an earlier stamp
could start (R273, R284). -/
def checkDue (s : State) (p : Nat) : Option Stamp :=
  match (compOf s p).check with
  | some S =>
    if S.toNat ≤ (stamp s).toNat ∧ !(waitingOps s isServingOp).any (fun e => decide (e.cmd.stamp.toNat < S.toNat)) then some S else none
  | none => none

/-- STEP_PROPOSAL: the composer makes the check that has fallen due, with its stamp S as the snapshot's (R284). -/
def execStepProposal (p : Nat) (s : State) : Host.Outcome State Fault Refusal :=
  .next (
    match checkDue s p with
    | none => s
    | some S =>
      let s0 := setComp s p { compOf s p with check := none }
      if unitWaits s 8 p then s
      else if !mayPropose (compOf s0 p) then s0
      else
        let s1 := expireAll s0
        match candidatesAt s1 p (compOf s1 p) S with
        | (cs, s2) =>
          match faultSlotless p cs.length cs s2 with
          | ([], s3) => s3
          | (l, s3) => propose s3 p S l)

/-! ### STEP_CONFIG and STEP_CONTROL (R282, R283) -/

/-- The descriptor keeps R283. -/
def programOk (b : List Byte) : Bool :=
  decide (1 ≤ fieldN b 8 4) && (List.range 4).all (fun q =>
    decide (fieldN b (16 * q + 8) 4 ≤ 65535) && (fieldN b (16 * q + 8) 4 == 0 || fieldN b (16 * q) 8 % 64 == 0))

/-- Every quire address of a descriptor is a DPA (R97). -/
def programDpas (b : List Byte) : Bool := (List.range 4).all (fun q => isDpa (fieldN b (16 * q) 8))

/-- The program descriptor of a partition, if it can be read and keeps R283. -/
def programAt (s : State) (p dpa : Nat) : Option (List Byte) × State :=
  match readBytes s (.serving p) dpa 64 0 with
  | (st, b, poison, s1) => (if st = St.ok ∧ !poison ∧ programOk b then some b else none, s1)

def parseComp (k : Composer) (b : List Byte) : Composer :=
  { k with configured := true, mode := BitVec.ofNat 8 (fieldN b 1 1), maxRows := fieldN b 2 2, budget := fieldN b 4 4, ride := fieldN b 8 4,
           chunk := fieldN b 12 4, amend := BitVec.ofNat 8 (fieldN b 16 1), model := fieldN b 17 1, tally := fieldN b 18 2,
           program := fieldN b 24 8, hostBuf := fieldN b 32 8, batch := fieldN b 40 8 }

def execStepConfig (c : Cmd) (s : State) : Host.Outcome State Fault Refusal :=
  servingCmd { op := 0x0801, need := 48, part := some 0 } (fun c s =>
    let p := p8 c 0
    let k := compOf s p
    let n := parseComp k (body c)
    checked
      [ (decide (p > 3) || n.maxRows == 0 || decide (n.maxRows > 512) || n.budget == 0 || decide (n.budget > 65536) ||
          (n.mode.getLsbD 0 && decide (n.ride > n.budget)) || n.chunk == 0 || decide (n.chunk > 65536) || decide (n.model > 15) ||
          decide (n.tally ≥ 16384), St.invalidField),
        (n.hostBuf % 4096 != 0 || n.batch % 65536 != 0 || !isDpa n.program || !isDpa n.batch, St.badAddress),
        (!fastArea s (some p) n.program 64 || !fastArea s (some p) n.batch 65536, St.stepProgram),
        (k.enabled && (k.model != n.model || k.program != n.program || k.hostBuf != n.hostBuf || k.batch != n.batch), St.stepBusy) ] s
      (let s1 := setComp s p n
       .done St.ok [] (match k.prop with
         | some x => if n.mode.getLsbD 1 ∧ !k.mode.getLsbD 1 then confirmRows s1 p 0 x x.rows else s1
         | none => s1))) c s

/-- ENABLE's checks (R283, R315). -/
def enableComp (s : State) (p : Nat) : Answer :=
  let k := compOf s p
  if !k.configured then .done St.stepProgram [] s
  else
    match programAt s p k.program with
    | (none, s1) => .done St.stepProgram [] s1
    | (some b, s1) =>
      checked
        [ (!programDpas b, St.badAddress),
          ((match mfind s1.flo.areas p with | some a => !fastArea s1 (some p) a.area (a.stride * a.vectors) | none => true), St.flourishLayout),
          (k.enabled || k.run.isSome || [28, 29, 30, 31].any (fun q => !queueIdle (queueOf s1 p q)) ||
            s1.stp.comps.any (fun x => x.1 != p && x.2.enabled && x.2.model == k.model), St.stepBusy) ] s1
        (.done St.ok [] (setComp s1 p { k with enabled := true, suspended := false, last := 0, prop := none, atBoundary := false }))

/-- QUERY's state. -/
def compState (k : Composer) : Nat :=
  if k.run.isSome then 3 else if !k.enabled then 0 else if k.suspended then 4 else if k.prop.isSome then 2 else 1

/-- STEP_CONTROL. RESUME waits for the next instant at which R284 has the composer check. DISABLE completes once a running step has ended (log 45). -/
def execStepControl (c : Cmd) (s : State) : Host.Outcome State Fault Refusal :=
  servingCmd { op := 0x0803, need := 2, part := some 0 } (fun c s =>
    let p := p8 c 0
    let k := compOf s p
    let a := p8 c 1
    if p > 3 ∨ a = 0 ∨ a > 4 then .done St.invalidField [] s
    else if a = 1 then enableComp s p
    else if a = 4 then .done St.ok ([BitVec.ofNat 8 (compState k), 0, 0, 0] ++ leBytes 4 k.last) s
    else if !k.enabled then .done St.stepDisabled [] s
    else if a = 2 then
      let s1 := setComp s p { k with enabled := false, prop := none, check := none }
      if k.run.isSome then .wait (.disable p) s1 else .done St.ok [] s1
    else .done St.ok [] (setComp s p { k with suspended := false })) c s

/-! ### STEP_CONFIRM (R292) -/

/-- A row of an amended list, from the proposal or from the candidates; none where R292 does not allow it. -/
def amendRow (prop : Proposal) (cands : List Cand) (chunk used budget : Nat) (b : List Byte) : Option Row :=
  let id := fieldN b 0 4
  let kind := fieldN b 4 1
  let first := fieldN b 8 4
  let n := fieldN b 12 4
  match prop.rows.find? (fun r => r.req == id && r.kind == kind && r.first == first && decide (n ≤ r.positions)) with
  | some r =>
    if n = r.positions then some r
    else if kind = 2 ∧ n ≥ 1 ∧ prop.amend.getLsbD 1 then
      some { r with positions := n, need := n, vecs := 0, flags := r.flags &&& 0xF7 }
    else none
  | none =>
    if !prop.amend.getLsbD 2 then none
    else
      match cands.find? (fun c => c.row.req == id && c.row.kind == kind && c.row.first == first) with
      | none => none
      | some c =>
        let c1 := if kind = 2 then setChunk c (min (min chunk c.left) (budget - used)) else c
        if c1.row.positions = n ∧ n ≥ 1 then some c1.row else none

/-- The amended rows in order; `used` counts prompt positions listed before. -/
def amendGo (prop : Proposal) (cands : List Cand) (chunk budget : Nat) : List (List Byte) → Nat → List Row → Option (List Row)
  | [], _, acc => some acc.reverse
  | b :: rest, used, acc =>
    match amendRow prop cands chunk used budget b with
    | none => none
    | some r => amendGo prop cands chunk budget rest (if r.kind = 2 then used + r.positions else used) (r :: acc)

def noTwice : List Nat → Bool
  | [] => true
  | x :: r => !r.contains x && noTwice r

/-- The row list of AMEND, where every condition of R292 holds. -/
def amended (s : State) (p : Nat) (prop : Proposal) (c : Cmd) : Option (List Row) :=
  let k := { compOf s p with chunk := prop.chunk }
  let cands := (candidatesAt s p k (stamp s)).1
  let bs := (List.range (p16 c 6)).map (fun i => slice (body c) (64 + 16 * i) 16)
  let gen := ((bs.filter (fun b => fieldN b 4 1 != 2)).map (fun b => fieldN b 12 4)).sum
  let prm := if prop.mode.getLsbD 0 then prop.prompt else prop.budget - gen
  match amendGo prop cands prop.chunk prm bs 0 [] with
  | none => none
  | some rows =>
    let prmUsed := ((rows.filter (fun r => r.kind == 2)).map Row.positions).sum
    let removed := prop.rows.any (fun r => !rows.any (fun x => x.req == r.req && x.kind == r.kind && x.first == r.first &&
      decide (x.positions ≤ r.positions)))
    if (removed && !prop.amend.getLsbD 0) || !noTwice (rows.map Row.req) || decide (gen > prop.gen) || decide (prmUsed > prm) ||
        decide (rows.length > prop.maxRows) || decide ((rows.map Row.vecs).sum > vectorsOf s p) then none
    else some rows

/-- The partition that a STEP_CONFIRM means: its ring's; on the admin ring, the lowest whose outstanding proposal has the number (R292 names
a step number only). -/
def confirmPart (s : State) (c : Cmd) : Option Nat :=
  match cmdPart c with
  | some p => some p
  | none => (List.range 4).find? (fun p => (compOf s p).enabled && match (compOf s p).prop with | some x => x.no == p32 c 0 | none => false)

def execStepConfirm (c : Cmd) (s : State) : Host.Outcome State Fault Refusal :=
  servingCmd { op := 0x0802, need := 5, long := fun c => p8 c 4 == 1, full := fun _ c => if p8 c 4 = 1 then 64 + 16 * p16 c 6 else 0 } (fun c s =>
    let a := p8 c 4
    if a > 2 then .done St.invalidField [] s
    else
      match confirmPart s c with
      | none => .done St.stepStale [] s
      | some p =>
        let k := compOf s p
        match k.prop with
        | none => .done St.stepStale [] s
        | some prop =>
          if prop.no ≠ p32 c 0 ∨ k.mode.getLsbD 1 then .done St.stepStale [] s
          else if a = 0 then .done St.ok [] (confirmRows s p 0 prop prop.rows)
          else if a = 1 then
            match amended s p prop c with
            | none => .done St.stepAmend [] s
            | some rows => .done St.ok [] (confirmRows s p 1 prop rows)
          else
            .done St.ok [] (blot (setComp s p { k with prop := none, atBoundary := true }) (compUnit p) 0x21 (some p) (prop.no + 2 * 2 ^ 32))) c s

/-! ### Watchdog and latency (R299, R302) -/

def execStepWatchdogSet (c : Cmd) (s : State) : Host.Outcome State Fault Refusal :=
  servingCmd { op := 0x0804, need := 6, part := some 0 } (fun c s =>
    let p := p8 c 0
    checked [(decide (p > 3), St.invalidField), (!holds s (mkRes 5 p) 1 c.fn, St.notClaimed)] s
      (.done St.ok [] (setComp s p { compOf s p with confLimit := p16 c 2, runLimit := p16 c 4 }))) c s

def watchdogEvent (s : State) (p no kind lines : Nat) : State :=
  post s 0x0804 p (leBytes 4 no ++ [BitVec.ofNat 8 kind, 0, 0, 0] ++ leBytes 4 lines) false

/-- STEP_WATCHDOG: once for each step, when more than a limit's lines have passed; whole lines are reported. -/
def execStepWatchdog (p : Nat) (s : State) : Host.Outcome State Fault Refusal :=
  let k := compOf s p
  let ticks (a : Stamp) : Nat := (stamp s).toNat - a.toNat
  .next (
    match k.prop, k.run with
    | some x, _ =>
      if k.confLimit ≠ 0 ∧ ticks x.since > k.confLimit * 65536 ∧ !x.posted then
        watchdogEvent (setComp s p { k with prop := some { x with posted := true } }) p x.no 0 (ticks x.since / 65536)
      else s
    | none, some x =>
      if k.runLimit ≠ 0 ∧ ticks x.since > k.runLimit * 65536 ∧ !x.posted then
        watchdogEvent (setComp s p { k with run := some { x with posted := true } }) p x.no 1 (ticks x.since / 65536)
      else s
    | none, none => s)

def execReqLatency (c : Cmd) (s : State) : Host.Outcome State Fault Refusal :=
  reqCmd 0x0805 4 (fun _ e s =>
    let l := mget {} s.srv.lat e
    if (reqOf s e).st = 0 then .done St.reqState [] s
    else
      .done St.ok ([BitVec.ofNat 8 (b2n l.ttftJudged + 2 * b2n l.ttftMissed), 0] ++ leBytes 2 l.cut ++ leBytes 4 l.judged ++ leBytes 4 l.late ++
        leBytes 4 l.worst) s) c s

/-! ### Frame slots (R303, R304) -/

def parseSlot (b : List Byte) : FrameSlot :=
  { part := fieldN b 2 1, buffers := fieldN b 3 1, stride := fieldN b 4 4, base := fieldN b 8 8, tally := fieldN b 16 2,
    lineBudget := fieldN b 18 2, largest := fieldN b 20 4, due := BitVec.ofNat 64 (fieldN b 24 8), eof := BitVec.ofNat 32 (fieldN b 32 4),
    skipStale := bit (fieldN b 36 1) 0 }

/-- A living request of a configured slot's partition uses the slot when it names it (R303, R306). -/
def slotUsed (s : State) (n : Nat) : Bool :=
  match mfind s.stp.slots n with
  | some f => s.srv.reqs.any (fun r => alive r.2 && r.2.cadenced && r.2.part == f.part && r.2.slot == n)
  | none => false

def execFrameSlotConfig (c : Cmd) (s : State) : Host.Outcome State Fault Refusal :=
  servingCmd { op := 0x0806, need := 37, part := some 2 } (fun c s =>
    let n := p16 c 0
    let f := parseSlot (body c)
    checked
      [ (!isDpa f.base, St.badAddress),
        (decide (n > 1023) || decide (f.part > 3) || decide (f.buffers < 2) || decide (f.buffers > 8) || f.stride == 0 || f.stride % 4096 != 0 ||
          decide (f.tally ≥ 16384) || !(partOf s f.part).mask.getLsbD (tallyQuad f.tally) || f.lineBudget == 0 ||
          decide (f.lineBudget > 4096) || f.largest == 0 || decide (f.largest > 4096) ||
          !fastArea s none f.base (f.stride * f.buffers) ||
          slotUsed s n, St.slotInvalid) ] s
      (.done St.ok [] (tallySet (setSlot s n f) f.tally 0 true 0x9000 (cmdPart c)))) c s

/-- A VF posts frames to its own partition's slots. -/
def foreignSlot (c : Cmd) (s : State) : Bool :=
  match mfind s.stp.slots (p16 c 0) with | some f => f.part != c.fn - 1 | none => false

def execFramePost (c : Cmd) (s : State) : Host.Outcome State Fault Refusal :=
  servingCmd { op := 0x0807, need := 2, refuse := foreignSlot } (fun c s =>
    match mfind s.stp.slots (p16 c 0) with
    | none => .done St.slotInvalid [] s
    | some f =>
      if underReset s (tallyQuad f.tally) then .done St.destReset [] s
      else .done St.ok [] (tallySignalAt s c.stamp f.tally 1 false 0x9000 (cmdPart c))) c s

/-! ### Experts (R308, R311) -/

def parseExpert (b : List Byte) : Expert :=
  { experts := fieldN b 2 2, cap := fieldN b 4 4, bias := fieldN b 8 8, counter := fieldN b 16 8, k := fieldN b 24 2, loop := fieldN b 26 1,
    target := BitVec.ofNat 32 (fieldN b 28 4), eta := BitVec.ofNat 32 (fieldN b 32 4), limit := BitVec.ofNat 32 (fieldN b 36 4) }

/-- A range in regions held ATOMIC. -/
def atomicArea (s : State) (dpa len : Nat) : Bool :=
  (regionSteps dpa len).all (fun a => match whereIs a with | .region t r => heldAny s (regionRes t r) 2 | _ => false)

def execExpertConfig (c : Cmd) (s : State) : Host.Outcome State Fault Refusal :=
  servingCmd { op := 0x0808, need := 40 } (fun c s =>
    let x := parseExpert (body c)
    let key := expertKey (p8 c 0) (p8 c 1)
    checked
      [ (!isDpa x.bias || !isDpa x.counter, St.badAddress),
        (decide (p8 c 0 > 15) || x.experts == 0 || decide (x.experts > 256) || x.cap == 0 || decide (x.cap > 4096) || x.k == 0 ||
          decide (x.loop > 2) || !fastArea s none x.bias (4 * x.experts) || !atomicArea s x.counter (8 * x.experts), St.expertShape),
        ((mfind s.stp.experts key).isNone && decide (s.stp.experts.length ≥ 1024), St.resourceExhausted) ] s
      (.done St.ok [] { s with stp.experts := mput s.stp.experts key x })) c s

/-- A bias table takes 4 B for each expert of the layer, from byte 64 of the buffer. -/
def biasLen (s : State) (c : Cmd) : Nat :=
  match mfind s.stp.experts (expertKey (p8 c 0) (p8 c 1)) with | some x => 64 + 4 * x.experts | none => 0

def execExpertBiasSet (c : Cmd) (s : State) : Host.Outcome State Fault Refusal :=
  servingCmd { op := 0x0809, need := 64, ext := true, full := biasLen } (fun c s =>
    let key := expertKey (p8 c 0) (p8 c 1)
    match mfind s.stp.experts key with
    | none => .done St.expertShape [] s
    | some _ =>
      if stepRuns s (p8 c 0) then .wait (.biasSet key) { s with stp.biasWait := s.stp.biasWait ++ [c] }
      else .done St.ok [] (applyBias s c)) c s

def execExpertQuery (c : Cmd) (s : State) : Host.Outcome State Fault Refusal :=
  servingCmd { op := 0x080A, need := 16 } (fun c s =>
    match mfind s.stp.experts (expertKey (p8 c 0) (p8 c 1)) with
    | none => .done St.expertShape [] s
    | some x =>
      match readBytes s .device x.bias (4 * x.experts) 0 with
      | (st, b, poison, s1) =>
        match readBytes s1 .device x.counter (8 * x.experts) 0 with
        | (st2, k, poison2, s2) =>
          if st ≠ St.ok then .done st [] s2
          else if st2 ≠ St.ok then .done st2 [] s2
          else if poison || poison2 then .done St.poisoned [] s2
          else reportTo (p64 c 8) (leBytes 4 x.steps ++ b ++ k) [] s2) c s

end Sys2Proof.Machine
end

