-- ==== Sys2Proof/Machine/Steps.lean ====
section
/-! DEFINITION. The running of a step (spec/10, spec/11): STEP_BEGIN, the program and the summary kernel, STEP_END with Flourish,
the commit, the judging of deadlines and the bias loop, and the discarding of a step. -/
namespace Sys2Proof.Machine

/-! ### Discarding (R298) -/

/-- The new pages of a row are freed and its request leaves the step. -/
def leaveStep (s : State) (r : Row) : State :=
  let e := rowEntry r
  let s1 := r.drafts.foldl unrefPage (r.newPages.foldl (fun s m => unrefPage (clearLeaf s e m.1) m.2) s)
  let q := reqOf s1 e
  setReq s1 e { q with inStep := false, draft := 0, st := if q.st = 4 then 3 else q.st }

/-- A pause that was pending takes effect. -/
def duePause (s : State) (e : Nat) : State :=
  let q := reqOf s e
  if !q.pausePending || !alive q then s
  else
    match applyPause s e with
    | (some st, s1) => finishReq s1 e 0x0708 st []
    | (none, s1) => s1

/-- After a step: DRAINING requests end, and pending pauses apply. -/
def settleRow (s : State) (r : Row) : State :=
  let e := rowEntry r
  if (reqOf s e).st = 8 then endRequest s e 4 9 else duePause s e

/-- A status after which composition continues. -/
def continues (st : Nat) : Bool := st == St.thermalAbort || st == St.destReset

/-- The step running on a partition is discarded for the status with which a quire of queue `q` ended. -/
def discardStep (s : State) (p q st : Nat) : State :=
  let k := compOf s p
  match k.run with
  | none => s
  | some run =>
    let rows := run.rows.map (fun r => if r.outcome = 1 then r else { r with outcome := if (reqOf s (rowEntry r)).st = 8 then 4 else 1 })
    let s1 := [28, 29, 30, 31].foldl (fun s i => resetQueue s p i) (setComp s p { k with run := none, folding := false, suspended := !continues st || k.suspended })
    let s2 := (kept run.rows).foldl leaveStep s1
    let s3 := (kept run.rows).foldl settleRow s2
    let s4 := writeReport (tallySet s3 run.tally (BitVec.ofNat 32 run.no) true (compUnit p) (some p)) p run.no rows 1 run.confirm 0 0 0
    let s5 := post s4 0x0803 p (leBytes 4 run.no ++ leBytes 2 st ++ [BitVec.ofNat 8 q, if continues st then 0 else 1]) false
    finishWait (releaseBias s5) (.disable p) St.ok []

/-- A queue of the step that ended its quire with a status other than OK. -/
def badQueue (s : State) (p : Nat) : Option (Nat × Nat) :=
  ([28, 29, 30, 31].map (fun q => (q, (queueOf s p q).haltStatus.toNat))).find? (fun x => x.2 != 0)

def stepHalt (s : State) (p : Nat) : State :=
  match badQueue s p with
  | some (q, st) => discardStep s p q st
  | none => s

/-- QUEUE_ADVANCE (R236, R237); a failing quire of a step discards the step with it (R298). -/
def execQueueAdvance (p q : Nat) (s : State) : Host.Outcome State Fault Refusal :=
  let s1 := queueAdvance s p q
  .next (if q ≥ 28 && (compOf s1 p).run.isSome then stepHalt s1 p else s1)

/-! ### STEP_BEGIN and the stages of a step (R295, R296) -/

/-- STEP_BEGIN or STEP_END is accepted in the composer's quire, in its stage, with the number of the running step. -/
def stepCmd (s : State) (p q phase : Nat) (b : List Byte) : Option RunStep :=
  match (queueOf s p q).quires, (compOf s p).run with
  | u :: _, some run => if u.composer ∧ run.phase = phase ∧ fieldN b 8 4 = run.no then some run else none
  | _, _ => none

def execStepBegin (p q : Nat) (s : State) : Host.Outcome State Fault Refusal :=
  .next (qAct s p q 0x0A (fun b s =>
    match stepCmd s p q 0 b with
    | none => queueStatus s p q St.quireFormat
    | some run => queueStatus (setComp s p { compOf s p with run := some { run with start := stamp s } }) p q St.ok))

def setPhase (s : State) (p n : Nat) : State :=
  let k := compOf s p
  setComp s p { k with run := k.run.map (fun r => { r with phase := n }), folding := n == 2 }

/-- Requests whose summary fold waits for the step. -/
def folds (s : State) (p : Nat) : List Nat :=
  (compOf s p).summaries.filter (fun e => (reqOf s e).moving && (reqOf s e).st == 5 && (reqOf s e).pauseMode == 2)

def submitEnd (s : State) (p : Nat) (run : RunStep) : State := submitMark (setPhase s p 3) p 0x0B 0x7FC0 run.no

/-- The program's quires are submitted. -/
def submitProgram (s : State) (p : Nat) : State :=
  match programAt s p (compOf s p).program with
  | (none, s1) => discardStep s1 p 28 St.stepProgram
  | (some b, s1) =>
    (List.range 4).foldl (fun s q =>
      if fieldN b (16 * q + 8) 4 = 0 then s else submitStep s p (28 + q) (fieldN b (16 * q) 8) (fieldN b (16 * q + 8) 4)) (setPhase s1 p 1)

/-- STEP_RUN_ADVANCE: the next stage once the quires of the present one have completed. -/
def execStepRunAdvance (p : Nat) (s : State) : Host.Outcome State Fault Refusal :=
  .next (
    match (compOf s p).run with
    | none => s
    | some run =>
      if unitWaits s 8 p then s
      else if (badQueue s p).isSome then stepHalt s p
      else if [28, 29, 30, 31].any (fun q => !queueIdle (queueOf s p q)) then s
      else if run.phase = 0 then submitProgram s p
      else if run.phase = 1 then (if (folds s p).isEmpty then submitEnd s p run else queueSummary (setPhase s p 2) p)
      else if run.phase = 2 ∧ (folds s p).isEmpty then submitEnd s p run
      else s)

/-! ### The summary kernel (R277) -/

/-- One 4 KiB slot folded: the slot's bytes, or none where FOLD faults. COEF, r0 and the block scale are open (log 13). -/
def foldSlot (s : State) (rq : Requester) (x : Model) (src dst i : Nat) : Option State :=
  match readBytes s rq (src + 4096 * i) 4096 1 with
  | (st, tile, poison, s1) =>
    match mfind s1.fold.basis (x.sbasis + i % max 1 x.scount), foldInfo s1 (dst + 4096 * i) with
    | some b, some f =>
      let (w, s2) := freeWord s1
      (match fetchBasis s2 b.dpa with
       | (none, _) => none
       | (some t, s3) =>
         match foldTile tile b (x.sbasis + i % max 1 x.scount) t f.ratio (w.toNat % 3) ((w.toNat >>> 8) % (b.rank + 1)) ((w.toNat >>> 32) % 2 ^ 32) with
         | none => none
         | some (out, _) =>
           if st ≠ St.ok then none
           else
             match writeBytes s3 rq (dst + 4096 * i) (padTo 4096 out) poison 1 with
             | (st2, s4) => if st2 = St.ok then some s4 else none)
    | _, _ => none

/-- The first status other than OK of the reads and writes of a fold; OK where FOLD itself faults. -/
def foldStatus (s : State) (rq : Requester) (len : Nat) (moves : List (Nat × Nat)) : Nat :=
  (moves.map (fun m =>
    match rangeStatus s rq false (payloadAt s m.1) len with
    | 0 => rangeStatus s rq true (payloadAt s m.2) len
    | st => st)).foldr (fun st acc => if st = St.ok then acc else st) St.ok

/-- Every slot of every page of a fold. -/
def foldAll (s : State) (rq : Requester) (e : Nat) (x : Model) (moves : List (Nat × Nat)) : Option State :=
  moves.foldl (fun (o : Option State) m =>
    o.bind (fun t =>
      match reqPage t e m.1 with
      | none => some t
      | some old =>
        (List.range (x.payload / 4096)).foldl (fun (o : Option State) i =>
          o.bind (fun u => foldSlot u rq x (payloadAt u old) (payloadAt u m.2) i)) (some t))) (some s)

/-- One entry of a fold: the summary page takes the trailer and the entry, FOLDED set. -/
def summaryOne (e : Nat) (s : State) (m : Nat × Nat) : State :=
  match reqPage s e m.1 with
  | none => s
  | some old =>
    let s1 := setPage s m.2 { pageOf s old with refs := 1, children := 0, st := 4 }
    match setLeaf s1 e m.1 (leafValid + leafFolded + m.2) with
    | some s2 => unrefPage s2 old
    | none => s1

/-- The entries of a fold are rewritten and the request is SUMMARISED (R277). -/
def endFold (s : State) (e : Nat) : State :=
  let s2 := (reqOf s e).moveSrc.foldl (summaryOne e) s
  let r := reqOf s2 e
  let k := compOf s2 r.part
  let s3 := setComp (setReq s2 e { r with st := 7, moving := false, moveSrc := [] }) r.part { k with summaries := k.summaries.filter (· != e) }
  applyCancel (finishReq s3 e 0x0708 St.ok []) e

/-- A core of the summary kernel faults, and the kernel with it (R249). -/
def faultSummary (s : State) (p core cause : Nat) (st : Option Nat) : State := endSummary (coreFault s core cause st none) p St.kernelFault

/-- SUMMARY_FOLD_DONE: the summary kernel, running on its cores, has folded a request's pages; with the last of them it completes. A fold
that faults ends the kernel, and with it the step (R249, R277, R298). -/
def execSummaryFoldDone (entry : Nat) (s : State) : Host.Outcome State Fault Refusal :=
  let r := reqOf s entry
  .next (
    if (compOf s r.part).folding && (queueOf s r.part 31).running && (folds s r.part).contains entry then
      match modelOf s r.model, (queueOf s r.part 31).cores with
      | some x, n :: _ =>
        let rq : Requester := .core r.part n
        (match foldAll s rq entry x r.moveSrc with
         | none =>
           (match foldStatus s rq x.payload (movePairs s entry r.moveSrc) with
            | 0 => faultSummary s r.part n cFoldEncode none
            | st => faultSummary s r.part n (causeOf st) (some st))
         | some s1 =>
           let s2 := endFold s1 entry
           if (folds s2 r.part).isEmpty then endSummary s2 r.part St.ok else s2)
      | _, _ => s
    else s)

/-! ### Flourish over the logits rows (R317, R331, R334, R337) -/

/-- What Flourish gives a row: its walk, the drafts offered, and whether the request faults. -/
structure RowOut where
  walk : Walk := { g := 0 }
  offered : Nat := 0
  tree : Bool := false
  fault : Bool := false
deriving DecidableEq, Repr

/-- Vectors read in order: scores, and whether every one could be used. -/
def readVectors (p : Nat) (a : LogitsArea) : List Nat → State → List (List Nat) → Bool → List (List Nat) × Bool × State
  | [], s, acc, good => (acc.reverse, good, s)
  | n :: r, s, acc, good =>
    match vectorAt s p (a.area + a.stride * n) a with
    | (st, v, poison, s1) => readVectors p a r s1 (v :: acc) (good && st == St.ok && !poison)

/-- Position of a row's first chosen token. -/
def chosenPos (q : Req) (r : Row) : Nat := if r.kind = 2 then r.first + r.positions else q.committed + r.tokens

/-- The walk of a row whose vectors could be read. -/
def walkRow (s : State) (r : Row) (q : Sampling) (vecs : List (List Nat)) : RowOut × State :=
  let e := rowEntry r
  let (x, s2) := walkCtx s e q (chosenPos (reqOf s e) r)
  let w0 : Walk := { g := (reqOf s e).gstate }
  if r.kind = 1 then
    let (d, s3) := draftAt s2 (reqOf s e).part q.draft
    let n := r.positions - 1
    let toks := match d with | some d => d.tokens.take n | none => []
    let pars := match d with | some d => d.parents.take n | none => []
    let next := if q.spec = 2 then treeNext toks pars else linearNext toks
    ({ walk := walkGo x vecs next r.vecs 0 w0, offered := n, tree := q.spec == 2 }, s3)
  else ({ walk := walkGo x vecs (fun _ _ => none) 1 0 w0 }, s2)

/-- Flourish on one row, with the parameters read at its snapshot (R318); every vector is read whatever the walk uses. -/
def flourishRow (s : State) (p : Nat) (r : Row) : RowOut × State :=
  let q := reqOf s (rowEntry r)
  match mfind s.flo.areas p with
  | none => ({ fault := true }, s)
  | some a =>
    if r.vecs = 0 then ({ walk := { g := q.gstate } }, s)
    else
      match readVectors p a ((List.range r.vecs).map (r.logits + ·)) s [] true with
      | (vecs, good, s1) =>
        if q.st = 8 then ({}, s1)
        else if !good then ({ fault := true }, s1)
        else
          match r.sampling with
          | none => ({ fault := true }, s1)
          | some sp => walkRow s1 r sp vecs

def flourishGo (p : Nat) : List Row → State → List (Row × RowOut) → List (Row × RowOut) × State
  | [], s, acc => (acc.reverse, s)
  | r :: rest, s, acc => let (o, s1) := flourishRow s p r; flourishGo p rest s1 ((r, o) :: acc)

/-! ### The commit (R268, R272, R296, R331, R335, R338) -/

/-- Tokens written into the trailers of the pages of positions `pos` on, in pieces that end with a page. -/
def commitTokens (e : Nat) : Nat → Nat → List (BitVec 32) → State → State
  | 0, _, _, s => s
  | fuel + 1, pos, toks, s =>
    if toks.isEmpty then s
    else
      let n := min toks.length (16 - pos % 16)
      let s1 := match reqPage s e (pos / 16) with
        | none => s
        | some g =>
          let t := pageOf s g
          let old := t.tokens.take (pos % 16)
          let tokens := old ++ List.replicate (pos % 16 - old.length) 0 ++ toks.take n
          setPage s g { t with tokens := tokens, filled := max t.filled (pos % 16 + n) }
      commitTokens e fuel (pos + n) (toks.drop n) s1

/-- The entries of accepted tree nodes are copied into the request's pages. -/
def copyNodes (s : State) (e : Nat) (r : Row) (path : List Nat) : State :=
  let q := reqOf s e
  let unit := match modelOf s q.model with | some m => m.payload / 16 | none => 0
  (path.zipIdx).foldl (fun s (node, j) =>
    let pos := q.committed + j
    match r.drafts[(node - 1) / 16]?, reqPage s e (pos / 16) with
    | some d, some g =>
      (copyWithin s (.serving q.part) (payloadAt s d + (node - 1) % 16 * unit) (payloadAt s g + pos % 16 * unit) unit 1).2
    | _, _ => s) s

/-- The count contribution of one sampled token (R320). -/
def countToken (q : Req) (s : State) (t : Nat) : State :=
  if q.counts = 0 then s
  else
    let a := q.counts + 2 * t
    let c : Contribution := { dpa := a / 64 * 64, op := 12, mask := BitVec.ofNat 32 (2 ^ (a % 64 / 2)),
                              operand := (List.replicate 32 [1, 0]).flatten, poison := false, order := none }
    (contribute s (.flourish q.part) c 0).2.2

/-- New pages of a row that hold no committed position, and its draft pages, are released. -/
def releaseUnused (s : State) (r : Row) (committed : Nat) : State :=
  let e := rowEntry r
  let s1 := (r.newPages.filter (fun m => decide (16 * m.1 ≥ committed))).foldl (fun s m => unrefPage (clearLeaf s e m.1) m.2) s
  r.drafts.foldl unrefPage s1

/-- A request's sampled tokens committed in the window of a line (R42, R306). -/
def lineTokens (q : Req) (line : BitVec 48) : Nat := if q.winLine = line then q.winTokens else 0

/-- A frame's text after `toks` were committed; `n` sampled tokens of the request are then committed in the line window (R306). -/
def textAfter (f : FrameSlot) (n : Nat) (toks : List Nat) : FrameSlot :=
  { f with ended := f.ended || toks.contains f.eof.toNat || decide (n ≥ f.lineBudget) }

/-- The slot of a cadenced row at the commit: a FRAME row consumes its frame and opens a new text, and another row of the request goes on
with its text (R306, R307). -/
def commitText (s : State) (r : Row) (toks : List Nat) : State :=
  let e := rowEntry r
  let q := reqOf s e
  match q.cadenced && r.kind != 2, mfind s.stp.slots q.slot with
  | true, some f =>
    if r.kind = 3 then
      let l := mget {} s.srv.lat e
      let cut := !f.ended && f.textReq == r.req
      let s1 := { s with srv.lat := mput s.srv.lat e { l with cut := if cut then satAdd 16 l.cut 1 else l.cut } }
      let f1 := { f with arrivals := f.arrivals.drop 1, next := f.next + 1, ended := false, textReq := r.req }
      setReq (setSlot s1 q.slot (textAfter f1 q.winTokens toks)) e { q with nextDue := frameDue f r.line }
    else if f.textReq = r.req then setSlot s q.slot (textAfter f q.winTokens toks)
    else s
  | _, _ => s

/-- The result of a row for which the commit goes on: its state, and whether it stands. -/
def promptTokens (s : State) (p : Nat) (r : Row) : Option (List (BitVec 32)) × State :=
  if r.kind ≠ 2 then (some (List.replicate r.tokens 0xFFFFFFFF#32), s)
  else
    match readBytes s (.serving p) ((reqOf s (rowEntry r)).prompt + 4 * r.first) (4 * r.positions) 1 with
    | (st, b, poison, s1) => (if st = St.ok ∧ !poison then some (tokenList b) else none, s1)

/-- One row's commit before publication: the row with its outcome, and the length it had. -/
def commitRow (s : State) (p : Nat) (r : Row) (o : RowOut) : (Row × Nat) × State :=
  let e := rowEntry r
  let q := reqOf s e
  if q.st = 8 then (({ r with outcome := 4 }, q.committed), r.drafts.foldl unrefPage s)
  else
    match promptTokens s p r with
    | (none, s1) => (({ r with outcome := 2 }, q.committed), r.drafts.foldl unrefPage s1)
    | (some input, s1) =>
      if o.fault || o.walk.ended == 7 then
        (({ r with outcome := 2 }, q.committed), r.drafts.foldl unrefPage (if o.walk.ended = 7 then floCount s1 p 7 1 else s1))
      else
        let toks := o.walk.tokens
        let all := input ++ toks.map (BitVec.ofNat 32)
        let s2 := if o.tree then copyNodes s1 e r o.walk.path else s1
        let s3 := commitTokens e all.length q.committed all s2
        let q3 := reqOf s3 e
        let s4 := setReq s3 e { q3 with committed := q.committed + all.length, promptDone := if r.kind = 2 then q.promptDone + r.positions else q.promptDone
                                        gstate := o.walk.g, sampled := q.sampled + toks.length,
                                        winLine := s3.rul.line, winTokens := lineTokens q s3.rul.line + toks.length }
        let s5 := toks.foldl (countToken q) s4
        let s6 := commitText (releaseUnused s5 r (q.committed + all.length)) r toks
        let s7 := floCount (floCount (floCount s6 p 1 toks.length) p 3 o.offered) p 4 o.walk.path.length
        let s8 := bump (if o.walk.ended = 6 then floCount s7 p 6 1 else s7) p 43 toks.length
        (({ r with outcome := if o.walk.ended = 0 then 0 else 3, count := toks.length }, q.committed), s8)

def commitGo (p : Nat) : List (Row × RowOut) → State → List (Row × Nat × Nat) → List (Row × Nat × Nat) × State
  | [], s, acc => (acc.reverse, s)
  | (r, o) :: rest, s, acc =>
    match commitRow s p r o with
    | ((r1, old), s1) => commitGo p rest s1 ((r1, old, o.walk.ended) :: acc)

/-- The publications of a commit, in ascending entry index and block (R273). -/
def publishAll (s : State) (l : List (Row × Nat × Nat)) : State :=
  (sortBy (fun a b => decide (rowEntry a.1 < rowEntry b.1)) (l.filter (fun x => x.1.outcome == 0 || x.1.outcome == 3))).foldl (fun s x =>
    let e := rowEntry x.1
    let n := (reqOf s e).committed / 16
    ((List.range (n - x.2.1 / 16)).map (x.2.1 / 16 + ·)).foldl (fun s i => publishPage s e i) s) s

/-- The judging of a row's result at the commit stamp T (R300 to R302, R307): its lateness, whether it is late, the state. -/
def judgeRow (s : State) (T : Stamp) (r : Row) : Row × Bool × State :=
  let e := rowEntry r
  let q := reqOf s e
  if r.count = 0 ∨ !(r.outcome == 0 || r.outcome == 3) then (r, false, s)
  else
    let first := q.sampled == r.count
    let l := mget {} s.srv.lat e
    let due := if first && r.kind != 3 then q.ttft else q.nextDue
    let judged := first || due != BitVec.allOnes 64
    let d : Int := (T.toNat : Int) - due.toNat
    let late := judged && decide (0 ≤ d)
    let l1 : LatRec := if !judged then l
      else
        let w := if d > 0 then max l.worst (min d.toNat 0x7FFFFFFF) else l.worst
        if first then { l with ttftJudged := true, ttftMissed := late, worst := w }
        else { l with judged := l.judged + 1, late := l.late + b2n late, worst := w }
    let next : Stamp := if q.cadenced then q.nextDue
      else if q.tbt = 0 then BitVec.allOnes 64
      else BitVec.ofNat 64 (min (T.toNat + q.tbt.toNat) (2 ^ 64 - 1))
    let s1 := setReq { s with srv.lat := mput s.srv.lat e l1 } e { q with nextDue := next }
    (if judged then { r with lateness := BitVec.ofInt 64 d } else r, late, bump s1 (reqOf s e).part 44 (b2n late))

def judgeGo (T : Stamp) : List Row → State → List Row → Nat → List Row × Nat × State
  | [], s, acc, n => (acc.reverse, n, s)
  | r :: rest, s, acc, n =>
    match judgeRow s T r with
    | (r1, late, s1) => judgeGo T rest s1 (r1 :: acc) (n + b2n late)

/-- The state transition of a row's request at STEP_END (R268). -/
def endRow (s : State) (x : Row × Nat × Nat) : State :=
  let r := x.1
  let e := rowEntry r
  let q := reqOf s e
  if r.outcome = 4 then endRequest s e 4 9
  else if r.outcome = 2 then faultRequest s e
  else if r.outcome = 3 then endRequest (setReq s e { q with inStep := false }) e x.2.2 9
  else
    let st := if r.kind = 2 ∧ r.vecs = 0 then 2 else 3
    duePause (setReq s e { q with inStep := false, draft := 0, st := st }) e

/-! ### The bias loop (R310) -/

/-- An INT32 as FP32. -/
def fofInt32 (v : Nat) : Nat :=
  let i := (BitVec.ofNat 32 v).toInt
  fencode fp32 false (.fin (decide (i < 0)) i.natAbs 0)

/-- The new bias of an expert. -/
def biasStep (x : Expert) (b taken : Nat) : Nat :=
  let load := fdiv fp32 (fofInt32 taken) (fofNat fp32 x.k)
  let v := fadd fp32 b (fmul fp32 x.eta.toNat (fsub fp32 x.target.toNat load))
  fmin fp32 (fmax fp32 v (x.limit ^^^ 0x80000000#32).toNat) x.limit.toNat

def biasLoop (s : State) (x : Expert) : State :=
  match readBytes s .device x.counter (8 * x.experts) 0 with
  | (st, k, _, s1) =>
    match readBytes s1 .device x.bias (4 * x.experts) 0 with
    | (st2, b, _, s2) =>
      if st ≠ St.ok ∨ st2 ≠ St.ok then s2
      else
        let nb := (List.range x.experts).map (fun e => leBytes 4 (biasStep x (fieldN b (4 * e) 4) (fieldN k (8 * e) 4)))
        devWrite (devWrite s2 x.bias nb.flatten) x.counter (zeros (8 * x.experts))

/-- A committed step counts for every layer of its model. -/
def countLayer (p : Nat) (s : State) (l : Nat × Expert) : State :=
  let x := l.2
  let n := x.steps + 1
  let put (v : Nat) (s : State) : State := { s with stp.experts := mput s.stp.experts l.1 { x with steps := v } }
  if n < x.k ∨ x.loop = 2 then put (min n 0xFFFFFFFF) s
  else if x.loop = 0 then put 0 (biasLoop s x)
  else post (put 0 s) 0x0806 p ([BitVec.ofNat 8 (l.1 / 256), BitVec.ofNat 8 (l.1 % 256), 0, 0] ++ leBytes 4 n) false

def countLayers (s : State) (p m : Nat) : State := (s.stp.experts.filter (fun l => l.1 / 256 == m)).foldl (countLayer p) s

/-! ### STEP_END (R273, R296, R297) -/

/-- The rows of the report: dropped rows as they are, the others in order with their results. -/
def mergeRows (all done : List Row) : List Row :=
  all.map (fun r => if r.outcome = 1 then r else (done.find? (fun d => d.req == r.req)).getD r)

def stepCommit (s : State) (p : Nat) (run : RunStep) : State :=
  let (outs, s1) := flourishGo p (kept run.rows) (expireAll s) []
  let T := stamp s1
  let (done, s2) := commitGo p outs s1 []
  let s3 := publishAll s2 done
  let (judged, late, s4) := judgeGo T (done.map Prod.fst) s3 [] 0
  let s5 := done.foldl endRow s4
  let k := compOf s5 p
  let s6 := countLayers (bump (setComp s5 p { k with run := none, folding := false }) p 42 1) p k.model
  let s7 := tallySet s6 run.tally (BitVec.ofNat 32 run.no) true (compUnit p) (some p)
  let rows := mergeRows run.rows judged
  let tokens := (judged.map Row.count).sum
  let s8 := writeReport s7 p run.no rows 0 run.confirm T tokens late
  let s9 := finishWait (releaseBias (stepDone s8 p run.no 0 rows.length tokens late)) (.disable p) St.ok []
  noteCheck s9 p (stamp s9)

def execStepEnd (p q : Nat) (s : State) : Host.Outcome State Fault Refusal :=
  .next (qAct s p q 0x0B (fun b s =>
    match stepCmd s p q 3 b with
    | none => queueStatus s p q St.quireFormat
    | some run => queueStatus (stepCommit s p run) p q St.ok))

end Sys2Proof.Machine
end

