-- ==== Sys2Proof/Machine/Colls.lean ====
section
/-! DEFINITION. Collectives (R371 to R376, R378). A block is what one rank owns: a shard of the reduction, or a member's bytes. Each
algorithm moves a block along its own tree of the members (R374, log 40). -/
namespace Sys2Proof.Machine

def collOf (s : State) (id : Nat) : Option Coll := s.duc.colls.find? (fun c => c.id == id)

def setColl (s : State) (c : Coll) : State :=
  { s with duc.colls := s.duc.colls.map (fun x => if x.id = c.id then c else x) }

/-- Changes of an active collective. -/
def modColl (s : State) (id : Nat) (f : Coll → Coll) : State :=
  { s with duc.colls := s.duc.colls.map (fun x => if x.id = id then f x else x) }

/-! ### Descriptors (R371, R373, R374) -/

def collMembers (b : List Byte) : List Nat := (List.range (fieldN b 10 2)).map (fun k => fieldN b (64 + 2 * k) 2)

def isReduce (op : Nat) : Bool := decide (op ≤ 1)

/-- CRC-32 over bytes 0 to 11, 32 to 39, 48 to 53 and the member list (R373). -/
def collSignature (b : List Byte) : BitVec 32 :=
  crc32 (slice b 0 12 ++ slice b 32 8 ++ slice b 48 6 ++ slice b 64 (2 * fieldN b 10 2))

def parseColl (b : List Byte) : Coll :=
  { id := fieldN b 0 4, op := fieldN b 4 1, alg := fieldN b 5 1, red := fieldN b 6 1, ordered := bit (fieldN b 7 1) 0, part := fieldN b 8 1,
    lines := fieldN b 12 4, src := fieldN b 16 8, dst := fieldN b 24 8, len := fieldN b 32 8, pieces := fieldN b 40 4, seq := fieldN b 44 4,
    total := fieldN b 48 4, root := fieldN b 52 2, startTally := fieldN b 54 2, startTarget := BitVec.ofNat 32 (fieldN b 56 4),
    doneTally := fieldN b 60 2, members := collMembers b, signature := collSignature b }

/-- A tally field of a descriptor: a tally, or 0xFFFF. -/
def tallyField (n : Nat) : Bool := decide (n < 16384) || n == 0xFFFF

/-- A descriptor that R371 or R374 forbids. -/
def collBad (s : State) (c : Coll) : Bool :=
  let m := c.members.length
  c.id == 0 || decide (c.op > 3) || decide (c.alg > 2) || (isReduce c.op && (c.red == 0 || decide (c.red > 11))) || (!isReduce c.op && c.red != 0) ||
    decide (c.part > 3) || decide (m < 2) || decide (m > 4096) || c.len == 0 || c.len % (64 * m) != 0 || c.pieces == 0 || decide (c.pieces > 65535) ||
    (!c.ordered && c.pieces != 1) || (c.ordered && (c.alg != 2 || c.total == 0 || decide (c.total > 65535))) || (c.op == 3 && decide (c.root ≥ m)) ||
    !tallyField c.startTally || !tallyField c.doneTally || c.src % 64 != 0 || c.dst % 64 != 0 || !isDpa c.src || !isDpa c.dst ||
    c.members.any (fun i => decide (i > 4095)) || !c.members.Nodup || !c.members.contains (ownIndex s) || (collOf s c.id).isSome

/-- Rank of a device in a collective. -/
def rankOf (c : Coll) (i : Nat) : Nat := (indexOf? (· == i) c.members).getD 0

def shardLen (c : Coll) : Nat := c.len / c.members.length

/-- Where rank r's shard of the reduction lies in a destination: all of it is rank r's in REDUCE_SCATTER (R372). -/
def shardDst (c : Coll) (r : Nat) : Nat := if c.op = 0 then c.dst + r * shardLen c else c.dst

/-- Requester of a collective's own accesses: the partition of its buffers, unregulated (R371, log 40). -/
def collRq (c : Coll) : Requester := .part c.part

/-! ### Aborting (R378) -/

def remoteOfColl (id : Nat) (r : Remote) : Bool := r.use == .coll id

/-- Messages of the collective that are queued on a link are discarded, and no answer to a request of it is awaited. -/
def dropCollMsgs (s : State) (id : Nat) : State :=
  let tags := (s.duc.remotes.filter (remoteOfColl id)).map (fun r => r.tag)
  let mine (m : Msg) : Bool :=
    (m.source == ownIndex s && decide (m.op < 0x10) && tags.contains m.tag) || (m.op == 0x23 && fieldN m.fields 0 4 == id)
  { s with duc.remotes := s.duc.remotes.filter (fun r => !remoteOfColl id r),
           duc.links := s.duc.links.map (fun (k, x) => (k, { x with tx := x.tx.filter (fun m => !mine m) })) }

/-- The completion tally rises by 1 (R375). -/
def collSignal (s : State) (c : Coll) : State :=
  if c.doneTally = 0xFFFF then s else tallySignalAs s c.doneTally 1 false 0x9000 (some c.part)

/-- The collective is over: its context and what is known of it go. -/
def forgetColl (s : State) (c : Coll) : State :=
  let s1 := match c.ctx with | some i => dropCtx s i | none => s
  { s1 with duc.colls := s1.duc.colls.filter (fun x => x.id != c.id), duc.readySeen := s1.duc.readySeen.filter (fun e => e.1 != c.id) }

def rememberAbort (s : State) (id status : Nat) : State :=
  { s with duc.aborted := lastN 64 (s.duc.aborted ++ [(id, BitVec.ofNat 16 status)]) }

/-- An active collective is aborted with a status; `received` when a COLL_ABORT told of it. -/
def collAbort (s : State) (id status origin : Nat) (received : Bool) : State :=
  match collOf s id with
  | none => s
  | some c =>
    let s1 := rememberAbort (forgetColl (dropCollMsgs s id) c) id status
    let s2 := if received then s1 else floodOwn s1 0x24 (leBytes 4 id ++ leBytes 2 status ++ leBytes 2 origin)
    post (collSignal (finishWait s2 (.collective id) status []) c) 0x0A03 0xFF (leBytes 4 id ++ leBytes 2 status ++ leBytes 2 origin) false

/-- An abort that this device begins. -/
def collFail (s : State) (id status : Nat) : State := collAbort s id status (ownIndex s) false

/-! ### The tree of a block (R374) -/

/-- The number of a rank in the binary tree rooted at a rank, and the rank of a number. -/
def treeSlot (m root r : Nat) : Nat := (r + m - root) % m
def treeRank (m root v : Nat) : Nat := (v + root) % m

/-- The child of node `v` under which node `w` lies. -/
def childToward : Nat → Nat → Nat → Option Nat
  | 0, _, _ => none
  | fuel + 1, v, w => if w ≤ v then none else if (w - 1) / 2 = v then some w else childToward fuel v ((w - 1) / 2)

/-- The rank next to `own` on the way to `b` in the binary tree by rank. -/
def treeHop (m root own b : Nat) : Nat :=
  let v := treeSlot m root own
  treeRank m root (match childToward 13 v (treeSlot m root b) with | some c => c | none => (v - 1) / 2)

/-- Where a member sends what it has of the block of rank `b`: RING to the next rank, TREE along the binary tree rooted at rank 0 or at the
root, DIRECT straight to its owner. The partial shards of REDUCE_SCATTER have no place on the way and go straight too (log 40). -/
def toward (c : Coll) (b own : Nat) : Nat :=
  if c.op = 1 ∨ c.alg = 2 then b
  else if c.alg = 0 then (own + 1) % c.members.length
  else treeHop c.members.length (if c.op = 3 then c.root else 0) own b

/-- Ranks that send their part of a block to this one. -/
def feeders (c : Coll) (b own : Nat) : List Nat :=
  (List.range c.members.length).filter (fun r => r != b && r != own && toward c b r == own)

/-- Ranks to which this one passes a finished block. -/
def heirs (c : Coll) (b own : Nat) : List Nat :=
  if c.alg = 0 ∧ c.op ≠ 1 then (let n := (own + 1) % c.members.length; if n = b then [] else [n]) else feeders c b own

/-- Whether a shard is combined in this member's own memory: its own, and one of which others send it their part. -/
def combines (c : Coll) (b own : Nat) : Bool := b == own || !(feeders c b own).isEmpty

/-- Granules of a block that are still to come, after `n` of them. -/
def taken (m : Map Nat) (b n : Nat) : Map Nat := mput m b (mget 0 m b - n)

/-- Rank of this member. -/
def ownRank (s : State) (c : Coll) : Nat := rankOf c (ownIndex s)

/-- The block that lies at an address of the destination. -/
def collBlock (s : State) (c : Coll) (dpa : Nat) : Nat :=
  match c.op with
  | 0 => (dpa - c.dst) / shardLen c
  | 1 => ownRank s c
  | 2 => (dpa - c.dst) / c.len
  | _ => c.root

/-- What the first phase sends, each block with the rank it goes to. -/
def firstTasks (s : State) (c : Coll) : List (Nat × Nat) :=
  let own := ownRank s c
  let all := List.range c.members.length
  if isReduce c.op then (all.filter (· != own)).map (fun b => (b, toward c b own))
  else ((if c.op = 2 then all else [c.root]).map (fun b => (heirs c b own).map (fun r => (b, r)))).flatten

/-- What the gather phase of ALL_REDUCE sends. -/
def gatherTasks (s : State) (c : Coll) : List (Nat × Nat) :=
  if c.op = 0 then ((List.range c.members.length).map (fun b => (heirs c b (ownRank s c)).map (fun r => (b, r)))).flatten else []

/-- Whether the block of a task is at hand: a part that is not combined here or is complete, this member's own bytes, or bytes that have
arrived. -/
def firstAtHand (s : State) (c : Coll) (b : Nat) : Bool :=
  if isReduce c.op then !combines c b (ownRank s c) || mget 0 c.expect b == 0 else b == ownRank s c || mget 0 c.expectW b == 0

def gatherAtHand (s : State) (c : Coll) (b : Nat) : Bool := if b = ownRank s c then c.reduced else mget 0 c.expectW b == 0

/-! ### Completion (R375) -/

/-- Whether the member's own shard holds the whole reduction: its context is complete, or every contribution has arrived. -/
def shardReduced (s : State) (c : Coll) : Bool :=
  match c.ctx with
  | some i => match mfind s.ari.ctxs i with | some x => ctxComplete x && !s.ari.aside.any (fun b => match b.con.order with | some (j, _) => j == i | none => false) | none => true
  | none => mget 0 c.expect (ownRank s c) == 0

/-- Whether every message of a collective has been sent. -/
def allSent (s : State) (c : Coll) : Bool := (firstTasks s c).all c.sent.contains && (gatherTasks s c).all c.gsent.contains

def collComplete (s : State) (c : Coll) : Bool :=
  c.begun && (!isReduce c.op || (c.reduced && shardReduced s c)) && c.expectW.all (fun e => e.2 == 0) && c.unanswered == 0 && allSent s c

/-- A collective whose destination is complete and whose messages are answered ends, and its tally rises by 1. -/
def collFinish (s : State) (id : Nat) : State :=
  match collOf s id with
  | none => s
  | some c =>
    if !collComplete s c then s
    else collSignal (finishWait (forgetColl s c) (.collective id) (if c.poisoned then St.poisoned else St.ok) []) c

/-! ### Data (R372 to R374) -/

/-- What one request of a collective says, or that nothing was sent (R359). -/
def collSent (s : State) (id st : Nat) (poison : Bool) : Nat × State :=
  if st = St.ok then (St.ok, modColl s id (fun c => { c with unanswered := c.unanswered + 1, poisoned := c.poisoned || poison })) else (st, s)

/-- Copies of granules to a member at a DPA, three to a message. -/
def collWrites (s : State) (c : Coll) (dest dpa : Nat) (l : List (List Byte × Bool)) : Nat × State :=
  ((chunks 3 l).zipIdx).foldl (fun (st, s) (g, i) =>
    if st ≠ St.ok then (st, s)
    else
      let p := BitVec.ofNat 3 (maskOf ((g.zipIdx.filter (fun e => e.1.2)).map Prod.snd))
      let (st1, s1) := requestPeer s 2 dest c.part (leBytes 6 (dpa + 192 * i)) (some (zeros 12 ++ leBytes 4 c.id)) (g.map Prod.fst) p (.coll c.id) 0
      collSent s1 c.id st1 (p != 0)) (St.ok, s)

/-- Sequence of piece k, where the collective is ordered. -/
def pieceOrder (c : Coll) (ctx k : Nat) : Option (Nat × Nat) := if c.ordered then some (ctx, c.seq + k) else none

/-- Granules of shard b contributed at the member of rank r: a peer's memory, or this device's own. -/
def collContrib (s : State) (c : Coll) (b r : Nat) (order : Bool → Option (Nat × Nat)) (l : List (List Byte × Bool)) : Nat × State :=
  let dest := c.members.getD r 0
  let own := dest == ownIndex s
  (l.zipIdx).foldl (fun (st, s) (g, i) =>
    if st ≠ St.ok then (st, s)
    else
      let con : Contribution :=
        { dpa := shardDst c b + 64 * i, op := c.red, mask := BitVec.allOnes 32, operand := g.1, poison := g.2, order := order own }
      if own then
        match contribute s (collRq c) con 1 with
        | (st1, _, s2) => (if st1 = St.poisoned then St.ok else st1,
            modColl s2 c.id (fun c => { c with expect := taken c.expect b 1, poisoned := c.poisoned || g.2 || st1 == St.poisoned }))
      else
        let (st1, s2) := contribPeer s dest c.part con con.dpa c.id (.coll c.id)
        collSent s2 c.id st1 g.2) (St.ok, s)

/-- Every piece's shard b goes from the source to the member of rank r. -/
def collShard (s : State) (c : Coll) (b r : Nat) : Nat × State :=
  (List.range c.pieces).foldl (fun (st, s) k =>
    if st ≠ St.ok then (st, s)
    else
      match readGranules s (collRq c) (c.src + k * c.len + b * shardLen c) (shardLen c) 1 with
      | (st1, l, s1) =>
        if st1 ≠ St.ok then (st1, s1) else collContrib s1 c b r (fun own => pieceOrder c (if own then c.ctx.getD 0 else 0) k) l) (St.ok, s)

/-- What this member has combined of shard b goes on as one partial result. -/
def collPartial (s : State) (c : Coll) (b r : Nat) : Nat × State :=
  match readGranules s (collRq c) (shardDst c b) (shardLen c) 1 with
  | (st, l, s1) => if st ≠ St.ok then (st, s1) else collContrib s1 c b r (fun _ => none) l

/-- Bytes that lie at one address of every destination, copied to the member of rank r. -/
def collCopy (s : State) (c : Coll) (r src dst len : Nat) : Nat × State :=
  match readGranules s (collRq c) src len 1 with
  | (st, l, s1) => if st ≠ St.ok then (st, s1) else collWrites s1 c (c.members.getD r 0) dst l

/-- A task of the first phase: a part of a shard, this member's bytes, or those of another that it passes on. -/
def collFirst (s : State) (c : Coll) (t : Nat × Nat) : Nat × State :=
  if isReduce c.op then (if combines c t.1 (ownRank s c) then collPartial s c t.1 t.2 else collShard s c t.1 t.2)
  else
    let dst := if c.op = 2 then c.dst + t.1 * c.len else c.dst
    collCopy s c t.2 (if t.1 = ownRank s c then c.src else dst) dst c.len

/-- A task of the gather phase: a reduced shard. -/
def collGather (s : State) (c : Coll) (t : Nat × Nat) : Nat × State := collCopy s c t.2 (shardDst c t.1) (shardDst c t.1) (shardLen c)

/-- Whether data may go to a rank: its COLL_READY has arrived (R373). -/
def readyRank (c : Coll) (r : Nat) : Bool := c.ready.contains (c.members.getD r 0)

/-- Sends a list of tasks; a status that is not OK aborts the collective. -/
def sendTasks (f : State → Coll → Nat × Nat → Nat × State) (mark : Coll → Nat × Nat → Coll) (id : Nat) : List (Nat × Nat) → State → State
  | [], s => s
  | t :: ts, s =>
    match collOf s id with
    | none => s
    | some c =>
      match f s c t with
      | (st, s1) => if st = St.ok then sendTasks f mark id ts (modColl s1 id (fun c => mark c t)) else collFail s1 id st

/-- A begun collective sends what it may: the first phase, and what is reduced in the gather phase; then it may end. -/
def collPush (s : State) (id : Nat) : State :=
  match collOf s id with
  | none => s
  | some c =>
    if !c.begun then s
    else
      let s1 := sendTasks collFirst (fun c t => { c with sent := c.sent ++ [t] }) id
        ((firstTasks s c).filter (fun t => firstAtHand s c t.1 && readyRank c t.2 && !c.sent.contains t)) s
      let s2 := match collOf s1 id with
        | none => s1
        | some c =>
          let s2 := if isReduce c.op && shardReduced s1 c then modColl s1 id (fun c => { c with reduced := true }) else s1
          match collOf s2 id with
          | none => s2
          | some c => sendTasks collGather (fun c t => { c with gsent := c.gsent ++ [t] }) id
              ((gatherTasks s2 c).filter (fun t => gatherAtHand s2 c t.1 && readyRank c t.2 && !c.gsent.contains t)) s2
      collFinish s2 id

/-- Every active collective, in turn. -/
def pushAll (s : State) : State := (s.duc.colls.map (fun c => c.id)).foldl collPush s

/-! ### Beginning (R371, R373, R374) -/

/-- Shards that this member combines, in rank order. -/
def combined (s : State) (c : Coll) : List Nat := (List.range c.members.length).filter (fun b => combines c b (ownRank s c))

/-- The destination is made ready: the order context over the member's shard, or the identity in every shard of an unordered reduction
that this member combines. -/
def collPrepare (s : State) (c : Coll) : Nat × State :=
  if !isReduce c.op then (St.ok, s)
  else if c.ordered then
    match openCtx s (collRq c) (shardDst c (ownRank s c)) (shardLen c) c.red c.total true c.id with
    | ((st, i), s1) => (st, if st = St.ok then modColl s1 c.id (fun c => { c with ctx := some i }) else s1)
  else
    (combined s c).foldl (fun (st, s) b =>
      if st ≠ St.ok then (st, s) else writeBytes s (collRq c) (shardDst c b) (identityBytes c.red (shardLen c)) false 1) (St.ok, s)

/-- This member's own part of the first phase: the shards that it combines, or its bytes in its own destination. -/
def collOwn (s : State) (c : Coll) : Nat × State :=
  let own := ownRank s c
  if isReduce c.op then (combined s c).foldl (fun (st, s) b => if st ≠ St.ok then (st, s) else collShard s c b own) (St.ok, s)
  else if c.op = 2 then (fun r => (if r.1 = St.poisoned then St.ok else r.1, r.2)) (copyWithin s (collRq c) c.src (c.dst + own * c.len) c.len 1)
  else if own = c.root then (fun r => (if r.1 = St.poisoned then St.ok else r.1, r.2)) (copyWithin s (collRq c) c.src c.dst c.len 1)
  else (St.ok, s)

/-- Granules that must arrive, block by block: contributions at the shards combined here, and writes of blocks that others own. -/
def collExpect (s : State) (c : Coll) : Coll :=
  let g := shardLen c / 64
  let own := ownRank s c
  let others := (List.range c.members.length).filter (· != own)
  { c with
    expect := if isReduce c.op then (combined s c).map (fun b => (b, (if c.ordered then c.total else 1 + (feeders c b own).length) * g)) else [],
    expectW := if c.op = 0 then others.map (fun b => (b, g)) else if c.op = 2 then others.map (fun b => (b, c.len / 64))
      else if c.op = 3 ∧ own ≠ c.root then [(c.root, c.len / 64)] else [] }

/-- COLL_READY of this member is flooded, and the member counts as ready itself (R373). -/
def announceReady (s : State) (c : Coll) : State :=
  let seen := (s.duc.readySeen.filter (fun e => e.1 == c.id)).map (fun e => e.2.1)
  let s1 := modColl s c.id (fun c => { c with ready := c.ready ++ seen ++ [ownIndex s] })
  floodOwn { s1 with duc.readySeen := s1.duc.readySeen ++ [(c.id, ownIndex s, c.signature)] } 0x23 (leBytes 4 c.id ++ leBytes 4 c.signature.toNat)

/-- A collective begins. -/
def collBegin (s : State) (id : Nat) : State :=
  match collOf s id with
  | none => s
  | some c0 =>
    let s0 := setColl s { collExpect s c0 with begun := true, progress := stamp s }
    match collPrepare s0 c0 with
    | (st, s1) =>
      if st ≠ St.ok then collFail s1 id st
      else
        match collOf s1 id with
        | none => s1
        | some c1 =>
          let s2 := announceReady s1 c1
          match collOwn s2 c1 with
          | (st2, s3) => if st2 ≠ St.ok then collFail s3 id st2 else collPush s3 id

/-- COLLECTIVE_BEGIN: the start tally satisfies GE. -/
def execCollectiveBegin (id : Nat) (s : State) : Host.Outcome State Fault Refusal :=
  .next (
    match collOf s id with
    | some c => if !c.begun && (c.startTally == 0xFFFF || waitHolds (tallyGet s c.startTally) c.startTarget false) then collBegin s id else s
    | none => s)

/-- COLL_TIMEOUT (R376): the progress clock has reached the effective timeout. -/
def execCollTimeout (id : Nat) (s : State) : Host.Outcome State Fault Refusal :=
  .next (
    match collOf s id with
    | some c =>
      if c.begun && decide ((stamp s).toNat ≥ c.progress.toNat + effTimeout s (declaredShare s) c) then collFail s id St.collTimeout else s
    | none => s)

/-! ### Arrivals -/

/-- A message of a collective, or an answer to one, restarts the progress clock (R376). -/
def collProgress (s : State) (id : Nat) : State := modColl s id (fun c => { c with progress := stamp s })

/-- A request of a collective is answered (R375, R378). -/
def collAnswer (s : State) (id st : Nat) : State :=
  let s1 := modColl (collProgress s id) id (fun c => { c with unanswered := c.unanswered - 1, poisoned := c.poisoned || st == St.poisoned })
  if st = St.linkFenced ∨ st = St.linkDown ∨ st = St.routeUnreachable ∨ st = St.remoteTimeout then collFail s1 id st else collFinish s1 id

/-! ### COLL_START and COLL_ABORT (R371, R378, R379) -/

/-- COLL_READYs that came before the collective was started here. -/
def earlyMismatch (s : State) (c : Coll) : Bool := s.duc.readySeen.any (fun e => e.1 == c.id && e.2.2 != c.signature)

/-- COLL_START registers the collective; COLLECTIVE_BEGIN begins it, at once where the start tally is 0xFFFF. -/
def execCollStart (c : Cmd) (s : State) : Host.Outcome State Fault Refusal :=
  .next (firmware { op := 0x0A08, need := 64, ext := true, full := fun _ c => 64 + 2 * p16 c 10 } (fun c s =>
    let b := body c
    let x := parseColl b
    let old := s.duc.aborted.find? (fun e => e.1 == x.id)
    match (if s.duc.group.isSome then old else none) with
    | some e => .done e.2.toNat [] (if x.doneTally < 16384 then collSignal s x else s)
    | none =>
    checked [(s.duc.group.isNone, St.notInGroup), (collBad s x, St.collFormat), (decide (s.duc.colls.length ≥ 16), St.resourceExhausted)] s
      (let s1 := { s with duc.colls := s.duc.colls ++ [x] }
       if earlyMismatch s x then .done St.collMismatch [] (collFail s1 x.id St.collMismatch) else .wait (.collective x.id) s1)) c s)

def execCollAbort (c : Cmd) (s : State) : Host.Outcome State Fault Refusal :=
  .next (firmware { op := 0x0A09, need := 4 } (fun c s =>
    checked [((collOf s (p32 c 0)).isNone, St.invalidField)] s (.done St.ok [] (collFail s (p32 c 0) St.aborted))) c s)

end Sys2Proof.Machine
end

