-- ==== Sys2Proof/Machine/LinkState.lean ====
section
/-! DEFINITION. The states of a link (R350): training, fences, quarantine, the concord exchange, and how requests end when a link
leaves LIVE (R360, R367). -/
namespace Sys2Proof.Machine

/-! ### Ends of requests to peers (R360) -/

/-- The global address that a request names. -/
def remoteAddr (r : Remote) : Nat :=
  r.dest * 2 ^ 48 + (if r.msg.op = 4 then 0x0F0200000000 + 64 * (fieldN r.msg.fields 0 2 % 2 ^ 14) else fieldN r.msg.fields 0 6)

/-- A core's request ends; a core that no longer runs its kernel is not stopped (R241, R248). -/
def coreAnswered (s : State) (n st addr : Nat) : State :=
  if st = St.ok then coreSettle s n else fabricFault s n st addr

/-- A request to a peer ends with a status. -/
def remoteDone (s0 : State) (r : Remote) (st : Nat) : State :=
  let s := { s0 with duc.remotes := s0.duc.remotes.filter (fun x => x.tag != r.tag) }
  match r.use with
  | .coll id => collAnswer s id st
  | .coreRead n _ => coreAnswered s n st (remoteAddr r)
  | .coreWrite n => coreAnswered s n st (remoteAddr r)
  | .coreContrib n => coreAnswered s n st (remoteAddr r)
  | .coreSignal n => coreAnswered s n st (remoteAddr r)
  | .queueSignal p q => queueStatus s p q st
  | .doneSignal => s

/-- An answer to a request of a peer, by its route; one without a route is dropped (R358, R359). -/
def answerMsg (s : State) (m : Msg) (op : Nat) (fields : List Byte) (data : List (List Byte)) (poison : BitVec 3) : State :=
  let a := ownMsg s op m.source m.part m.tag fields none data poison
  (sendRouted s a).getD s

def answerCompl (s : State) (m : Msg) (st : Nat) : State := answerMsg s m 0x11 (leBytes 2 st) [] 0

/-- A queued message that its link will not carry: this device's request completes, a forwarded request is answered. -/
def strand (s : State) (m : Msg) (st : Nat) : State :=
  if m.op ≥ 0x10 then s
  else if m.source = ownIndex s then
    match s.duc.remotes.find? (fun r => r.tag == m.tag) with
    | some r => remoteDone s r st
    | none => s
  else answerCompl s m st

/-! ### GROUP_REJOIN's end -/

/-- GROUP_REJOIN completes once no link that it names waits for a record. -/
def rejoinCheck (s : State) : State :=
  s.ink.running.foldl (fun s r =>
    match r.wait with
    | .rejoin mask =>
      let ls := bitList 16 mask
      if ls.any (fun l => (linkOf s l).rejoin) then s
      else finishWait s r.wait (if ls.all (fun l => (linkOf s l).st == lkLive) then St.ok else St.concordMismatch) []
    | _ => s) s

/-! ### Leaving LIVE -/

/-- Messages that QUARANTINE carries (R365). -/
def quarantineCarries (m : Msg) : Bool := linkOnly m.op || m.op == 0x20 || m.op == 0x22

/-- A link goes to a state that carries only what `keep` allows; what is queued beyond it ends with a status. -/
def leaveFor (s : State) (l st reason status : Nat) (keep : Msg → Bool) : State :=
  let old := (linkOf s l).tx
  let s1 := linkMove s l st reason
  let s2 := setLink s1 l { linkOf s1 l with tx := old.filter keep, rejoin := false }
  let s3 := { s2 with duc.advSent := if (liveLinks s2).isEmpty then none else s2.duc.advSent }
  rejoinCheck ((old.filter (fun m => !keep m)).foldl (fun s m => strand s m status) s3)

/-- The link is down: its LIVE claim is released and its buffers are lost (R87, R360). -/
def dropLink (s : State) (l st reason status : Nat) : State :=
  let s1 := leaveFor (implicitRelease s (mkRes 4 l) 1) l st reason status (fun _ => false)
  setLink s1 l { linkOf s1 l with rx := [], replay := [], retraining := false, discarding := false, nakSent := false }

/-- Collectives with a member that the route table reaches over a link (R367). -/
def needsLink (s : State) (l : Nat) (c : Coll) : Bool :=
  c.members.any (fun i => i != ownIndex s && routeTo s i == some l)

/-- A fence trigger (R350, R366, R367). It acts in LIVE and QUARANTINE, and AUTH_FAIL in AUTH. -/
def fence (s : State) (l reason : Nat) : State :=
  let st := (linkOf s l).st
  if st = lkLive ∨ st = lkQuarantine ∨ (st = lkAuth ∧ reason = 6) then
    let s1 := dropLink s l lkFenced reason St.linkFenced
    ((s1.duc.colls.filter (needsLink s1 l)).map (fun c => c.id)).foldl (fun s id => collFail s id St.linkFenced) s1
  else s

/-- DISABLED, for a reason. -/
def disable (s : State) (l reason : Nat) : State := dropLink s l lkDisabled reason St.linkDown

/-- QUARANTINE, for a reason. -/
def quarantine (s : State) (l reason : Nat) : State := leaveFor s l lkQuarantine reason St.routeUnreachable quarantineCarries

/-! ### Training (R348, R353) -/

/-- A link as it enters an attempt at training: its settings and counts stay. -/
def freshLink (x : Link) (attempts t : Nat) : Link :=
  { st := x.st, reason := x.reason, cfg := x.cfg, changed := x.changed, ctr := x.ctr, attempts := attempts, training := 1, attemptAt := t }

/-- TRAINING begins. -/
def trainStart (s : State) (l reason : Nat) : State :=
  let s1 := dropLink s l lkTraining reason St.linkDown
  setLink s1 l (freshLink (linkOf s1 l) 0 s.time)

/-- An attempt fails; the third disables the link. -/
def attemptFails (s : State) (l : Nat) : State :=
  let x := linkOf s l
  if x.attempts + 1 ≥ 3 then disable s l 0x20 else setLink s l (freshLink x (x.attempts + 1) s.time)

/-- The contents of this device's LINK_INIT (R353). -/
def initSlots (s : State) (l : Nat) : List Byte :=
  leBytes 2 1 ++ [BitVec.ofNat 8 (b2n (linkOf s l).seenPeer + 2 * b2n (encLicensed s)), BitVec.ofNat 8 l] ++ leBytes 8 Config.uniqueId ++
    leBytes 2 4096 ++ leBytes 2 4096 ++ leBytes 2 512 ++ leBytes 2 512 ++ zeros 4 ++ leBytes 8 (fabricCycles s.time)

def sendInit (s : State) (l : Nat) : State := sendBare s l 2 (initSlots s l)

/-! ### SPDM (R361, R362): message contents are DMTF's, and free values here (log 11) -/

/-- One SPDM message of one fragment. -/
def sendSpdm (s : State) (l : Nat) : State :=
  let (b, s1) := freeBytes s 64
  sendOn s1 l (ownMsg s1 0x26 0 0 0 (leBytes 2 0 ++ leBytes 2 1 ++ leBytes 2 64) none [b] 0)

/-- The side with the lower unique ID requests first. -/
def requestsFirst (x : Link) : Bool := decide (Config.uniqueId < x.peerId)

/-- Whether a link uses encryption: this side's settings or the peer's call for it, which the peer's KEY_EXCHANGE shows, and both licences
enable it (R6, R362). -/
def encUsed (s : State) (x : Link) : Bool := (x.cfg.encReq || decide (4 ≤ x.spdmPeer)) && encLicensed s && x.encPeer

/-- What a requester asks in its turn: 7 requests, and KEY_EXCHANGE and FINISH when encryption is in use (R361). -/
def spdmRequests (s : State) (x : Link) : Nat := if encUsed s x then 9 else 7

/-- New session keys and their salt, which SPDM agrees (R352, R361): free values (log 11). -/
def newKeys (s : State) (l : Nat) : State :=
  let (k, s1) := freeBytes s 32
  let (n, s2) := freeBytes s1 4
  setLink s2 l { linkOf s2 l with key := k, salt := n, flitsKey := 0 }

/-- AUTH begins. -/
def authStart (s : State) (l : Nat) : State :=
  let s1 := linkMove s l lkAuth 0
  let x := linkOf s1 l
  let s2 := setLink s1 l { x with spdm := if requestsFirst x then 1 else 2 }
  if requestsFirst x then sendSpdm s2 l else s2

/-! ### The concord exchange (R350, R363, R364) -/

/-- A peer whose record passes every check: the link is LIVE, and an unjoined device takes the group's ruling. Where neither side is
joined there is no ruling to take, and the election of group formation decides (log 41). -/
def goLive (s : State) (l : Nat) (r : ConcordRec) : State :=
  match implicitClaim s (mkRes 4 l) 1 with
  | none => s
  | some s1 =>
    let unjoined := (liveLinks s1).isEmpty
    let s2 := noteRecord (linkMove (setLink s1 l { linkOf s1 l with peer := r.index }) l lkLive 0) r
    let s3 :=
      if !unjoined then s2
      else
        let m := if recJoined r then r.master else elect s2
        let s3 := takeMaster s2 m
        if m = ownIndex s3 then s3 else { s3 with rul.pendEpoch := some r.epoch }
    pump (advertise (if unjoined then { s3 with duc.advSent := none } else s3)) l

/-- The record of a peer is checked in CONCORD or on a rejoin. -/
def judgeConcord (s : State) (l : Nat) (r : ConcordRec) : State :=
  let x := linkOf s l
  let s1 := setLink s l { x with concord := some r, rejoin := false }
  rejoinCheck (match concordFails s1 l r with
    | some reason => noteRecord (quarantine s1 l reason) r
    | none => goLive s1 l r)

/-- A received record, by the state of its link. -/
def concordArrives (s : State) (l : Nat) (update : Bool) (r : ConcordRec) : State :=
  let x := linkOf s l
  if x.st = lkAuth then setLink s l { x with concord := some r }
  else if x.st = lkConcord then judgeConcord s l r
  else if x.st = lkLive then
    let moved := match x.concord with | some o => o.index != r.index || o.group != r.group | none => false
    if update && moved then fence s l 8
    else
      let s1 := noteRecord (setLink s l { x with concord := some r }) r
      let s2 := if update then s1 else sendConcord s1 l false
      match concordFails s2 l r with
      | some reason => quarantine s2 l reason
      | none => s2
  else if x.st = lkQuarantine then
    if update then noteRecord (setLink s l { x with concord := some r }) r
    else judgeConcord (if x.rejoin then s else sendConcord s l false) l r
  else s

/-- Authentication completes (R350, R362, R363). -/
def authDone (s : State) (l : Nat) : State :=
  let s1 := linkMove s l lkConcord 0
  let x := linkOf s1 l
  let enc := encUsed s1 x
  let s0 := setLink s1 l { x with spdm := 3, enc := enc, beatAt := s.time, askAt := s.time }
  let s2 := sendConcord (if enc then newKeys s0 l else s0) l false
  match x.concord with
  | some r => judgeConcord s2 l r
  | none => s2

end Sys2Proof.Machine
end

