-- ==== Sys2Proof/Machine/Ductus.lean ====
section
/-! DEFINITION. The events of a link: training (R348, R349, R353), received flits with their integrity, sequence, credits and
acknowledgements (R351 to R355), replay, retraining, and the timers of authentication (R362). -/
namespace Sys2Proof.Machine

/-! ### Training -/

/-- FEC_ALIGNMENT_LOCK: steps 1 and 2 have passed, and LINK_INIT flits go out (R348, R353). -/
def execFecAlignmentLock (l : Nat) (s : State) : Host.Outcome State Fault Refusal :=
  let x := linkOf s l
  .next (if l < 16 ∧ x.st = lkTraining ∧ x.training = 1 then sendInit (setLink s l { x with training := 3 }) l else s)

/-- Integrity of a flit without ENC (R352). -/
def crcOk (b : List Byte) : Bool := fieldN b 240 8 == crc64 (b.take 240) && fieldN b 248 8 == 0

/-- A LINK_INIT whose header, link number or Reserved bytes break R353: it is malformed (R357). -/
def initBad (b : List Byte) : Bool :=
  fieldN b 1 1 != 0 || fieldN b 2 14 != 0 || decide (fieldN b 18 1 > 3) || decide (fieldN b 19 1 > 15) || fieldN b 36 4 != 0 ||
    !(slice b 48 192).all (· == 0)

/-- A LINK_INIT that arrives whole and keeps to R352 and R353. -/
def initValid (f : FlitIn) : Bool := f.fecOk && f.bytes.length == 256 && fieldN f.bytes 0 1 == 2 && crcOk f.bytes && !initBad f.bytes

/-- A LINK_INIT that fails the attempt (R353). -/
def initRefused (b : List Byte) : Bool :=
  let q (o : Nat) : Nat := fieldN b o 2
  q 16 != 1 || q 28 == 0 || decide (q 28 > 4096) || q 30 == 0 || decide (q 30 > 4096) || q 32 == 0 || decide (q 32 > 512) ||
    fieldN b 20 8 == Config.uniqueId

/-- Step 3 has ended for this side: it has received a LINK_INIT with SEEN and has sent one. -/
def initEnds (s : State) (l : Nat) : State :=
  let x := linkOf s l
  if x.gotSeen && x.sentSeen && x.training == 3 then setLink s l { x with training := 4, berAt := s.time } else s

/-- A LINK_INIT in step 3. -/
def takeInit (s : State) (l : Nat) (b : List Byte) : State :=
  if initRefused b then attemptFails s l
  else
    let x := linkOf s l
    let cr := [fieldN b 28 2, fieldN b 30 2, fieldN b 32 2]
    let seen := fieldN b 18 1
    let s1 := setLink s l { x with seenPeer := true, gotSeen := x.gotSeen || bit seen 0, encPeer := bit seen 1, peerId := fieldN b 20 8,
                                   credits := cr, granted := cr }
    let s2 := sendInit s1 l
    initEnds (setLink s2 l { linkOf s2 l with sentSeen := true }) l

/-! ### Malformed flits (R357, R366) -/

def secondUnits : Nat := 10 ^ 9 * 65536

/-- A malformed flit: its contents are discarded, and the fifth within 1 s fences the link. -/
def malformedFlit (s0 : State) (l : Nat) : State :=
  let s := linkCount s0 l 4 1
  let x := linkOf s l
  let ts := (x.malformed ++ [s.time]).filter (fun t => decide (s.time < t + secondUnits))
  let s1 := setLink s l { x with malformed := ts }
  if ts.length ≥ 5 then fence s1 l 4 else s1

/-- A flit of kind LINK_INIT: one that breaks R353, or that comes after an accepted DATA flit, is malformed; in step 3 it is taken. -/
def initArrives (s : State) (l : Nat) (f : FlitIn) : State :=
  let x := linkOf s l
  if !f.fecOk || f.bytes.length != 256 then s
  else if !crcOk f.bytes then linkCount s l 3 1
  else if initBad f.bytes || x.rxAny then malformedFlit s l
  else if x.st = lkTraining ∧ x.training = 3 then takeInit s l f.bytes
  else s

/-- Counts of a received flit (R379, R426). -/
def countFlit (s : State) (l : Nat) (f : FlitIn) : State :=
  let s1 := linkCount (linkCount (linkCount s l 1 1) l 5 f.corrected) l 6 (b2n (!f.fecOk))
  prog (prog s1 (linkUnit l) 2 none none 1) (linkUnit l) 7 none none f.corrected

/-- A link whose lanes carry flits to its receiver. -/
def receives (x : Link) : Bool :=
  !x.retraining && x.st != lkDisabled && x.st != lkLoopback && (x.st != lkTraining || decide (x.training ≥ 3))

/-- LINK_INIT. -/
def execLinkInit (l : Nat) (f : FlitIn) (s : State) : Host.Outcome State Fault Refusal :=
  .next (if l < 16 ∧ receives (linkOf s l) ∧ (linkOf s l).st ≠ lkFenced ∧ fieldN f.bytes 0 1 = 2 then initArrives (countFlit s l f) l f else s)

/-! ### Replay (R350, R355) -/

/-- The stored flit as it is sent again: REPLAY set, ciphertext unchanged. -/
def replayed (b : List Byte) : List Byte :=
  let c := overlay b 1 [BitVec.ofNat 8 (fieldN b 1 1 ||| 2)]
  if bit (fieldN b 1 1) 0 then c else overlay c 240 (leBytes 8 (crc64 (c.take 240)))

/-- A retrain in place begins (R350). -/
def retrain (s : State) (l : Nat) : State := linkCount (setLink s l { linkOf s l with retraining := true, stuck := 0, retrainAt := s.time }) l 7 1

/-- Every unacknowledged flit is sent again; the 16th replay without progress retrains a LIVE link in place. -/
def replayLink (s : State) (l : Nat) : State :=
  let x := linkOf s l
  match x.replay with
  | [] => s
  | (q, _) :: _ =>
    if !canSend x then s
    else
      let s1 := blot (linkCount (linkCount s l 0 x.replay.length) l 2 1) (linkUnit l) 0x19 none q
      let s2 := prog (prog s1 (linkUnit l) 1 none none x.replay.length) (linkUnit l) 3 none none 1
      let y := linkOf s2 l
      let s3 := setLink s2 l { y with stuck := y.stuck + 1, ackAt := s.time, out := replayed ((x.replay.getLast?.map Prod.snd).getD []) }
      if y.stuck + 1 ≥ 16 ∧ y.st = lkLive then retrain s3 l else s3

/-- Units of 2^-16 ns in a time in ns. -/
def nsUnits (ns : Nat) : Nat := ns * 65536

/-- REPLAY_TIMEOUT: 4 µs pass with unacknowledged flits and no advance of ACK. -/
def execReplayTimeout (l : Nat) (s : State) : Host.Outcome State Fault Refusal :=
  .next (if l < 16 ∧ (linkOf s l).ackAt + nsUnits 4000 ≤ s.time then replayLink s l else s)

/-- A SEQ that was never sent. -/
def neverSent (x : Link) (a : Nat) : Bool := decide (x.sent < 0xFFFFFF) && decide (a > x.sent)

/-- ACK and NAK of a flit. -/
def takeAck (s : State) (l a : Nat) (nak : Bool) : State :=
  let x := linkOf s l
  let again (s : State) : State := if nak then replayLink s l else s
  if a = 0 then again s
  else
    match indexOf? (fun e => e.1 == a) x.replay with
    | some i => again (setLink s l { x with replay := x.replay.drop (i + 1), acked := a, stuck := 0, ackAt := s.time })
    | none => if neverSent x a then fence s l 5 else again s

/-- Credits of a flit: more than are outstanding fence the link. -/
def takeCredits (s : State) (l : Nat) (back : List Nat) : State :=
  let x := linkOf s l
  let sum := List.zipWith (· + ·) x.credits back
  if (sum.zip x.granted).any (fun e => decide (e.1 > e.2)) then fence s l 2
  else setLink s l { x with credits := sum, creditAt := List.zipWith (fun n t => if n = 0 then t else s.time) back x.creditAt }

/-- Slots of each receive buffer (R354). -/
def bufferSlots : List Nat := [4096, 4096, 512]

/-- Messages into the receive buffers, each for this device with its RECV record (R450); one for which its channel has no room fences the
link. -/
def takeMsgs (l : Nat) : List Msg → State → State
  | [], s => s
  | m :: r, s =>
    let x := linkOf s l
    let ch := opChannel m.op
    let n := x.used.getD ch 0 + msgSlots m
    if n > bufferSlots.getD ch 0 then fence s l 1
    else
      let s1 := if m.dest = ownIndex s then noteMsg s l m 0x08 else s
      takeMsgs l r (setLink s1 l { x with used := x.used.set ch n, rx := x.rx ++ [m] })

/-! ### Received flits (R351, R355, R357) -/

/-- Whether a header breaks R351. -/
def headerBad (b : List Byte) : Bool :=
  decide (fieldN b 0 1 > 2) || decide (fieldN b 1 1 ≥ 4) || decide (fieldN b 8 1 > 1) || fieldN b 9 1 != 0 ||
    (fieldN b 0 1 == 0 && (fieldN b 2 3 != 0 || bit (fieldN b 1 1) 0))

/-- Header fields and messages of an accepted flit, until one of them fences the link. -/
def takeContents (s : State) (l : Nat) (b : List Byte) (ms : List Msg) : State :=
  let live (t : State) : Bool := (linkOf t l).st != lkFenced
  let s1 := takeCredits s l [fieldN b 10 2, fieldN b 12 2, fieldN b 14 2]
  if !live s1 then s1
  else
    let s2 := takeAck s1 l (fieldN b 5 3) (bit (fieldN b 8 1) 0)
    if !live s2 then s2 else takeMsgs l ms s2

/-- A flit is discarded; the first one raises NAK (R355). -/
def discardFlit (s : State) (l : Nat) : State :=
  let x := linkOf s l
  if x.discarding then s else setLink s l { x with discarding := true, nakSent := true }

/-- Whether the integrity check passes: the AES-GCM tag with ENC, the CRC-64 without (R352). -/
def integrityOk (x : Link) (f : FlitIn) : Bool :=
  let b := f.bytes
  if fieldN b 0 1 = 1 ∧ bit (fieldN b 1 1) 0 then x.enc && f.tagOk else !(x.enc && fieldN b 0 1 == 1) && crcOk b

/-- An integrity failure; more than 16 of a tag within 1 s are a lapse (R362). -/
def integrityFails (s : State) (l : Nat) : State :=
  let s1 := linkCount s l 3 1
  let x := linkOf s1 l
  let ts := if x.enc then (x.tagFails ++ [s.time]).filter (fun t => decide (s.time < t + secondUnits)) else []
  let s2 := setLink s1 l { x with tagFails := lastN 17 ts }
  if ts.length > 16 then fence s2 l 7 else discardFlit s2 l

/-- A DATA flit of the expected SEQ is accepted for sequence; a malformed one loses its contents. -/
def acceptData (s : State) (l : Nat) (b : List Byte) : State :=
  let x := linkOf s l
  let s1 := setLink s l { x with rxNext := nextSeq x.rxNext, rxAny := true, discarding := false }
  match decodeSlots 15 (slice b 16 224) with
  | some ms => if headerBad b then malformedFlit s1 l else takeContents s1 l b ms
  | none => malformedFlit s1 l

/-- A flit that passed its checks, by its kind. -/
def flitByKind (s : State) (l : Nat) (f : FlitIn) : State :=
  let b := f.bytes
  if fieldN b 0 1 = 1 then (if fieldN b 2 3 = (linkOf s l).rxNext then acceptData s l b else discardFlit s l)
  else if fieldN b 0 1 = 2 then initArrives s l f
  else if headerBad b then malformedFlit s l
  else takeContents s l b []

/-- DATA_FLIT: a received flit. A fenced link discards it (R367). -/
def execDataFlit (l : Nat) (f : FlitIn) (s : State) : Host.Outcome State Fault Refusal :=
  .next (
    if l ≥ 16 ∨ f.bytes.length ≠ 256 ∨ !receives (linkOf s l) then s
    else
      let s1 := countFlit s l f
      if (linkOf s1 l).st = lkFenced ∨ ((linkOf s1 l).st = lkTraining ∧ (linkOf s1 l).training = 3 ∧ fieldN f.bytes 0 1 ≠ 2) then s1
      else if !f.fecOk then settleLink (discardFlit s1 l) l
      else if !integrityOk (linkOf s1 l) f then settleLink (integrityFails s1 l) l
      else settleLink (flitByKind s1 l f) l)

/-! ### Error rate and latency (R346, R348, R349) -/

/-- Bit errors counted: corrected bits, and 150 for each uncorrectable codeword. -/
def bitErrors (corrected uncorrectable : Nat) : Nat := corrected + 150 * uncorrectable

/-- The rate as FP32. -/
def berFloat (errors received : Nat) : BitVec 32 := BitVec.ofNat 32 (fdiv fp32 (fofNat fp32 errors) (fofNat fp32 received))

/-- 64 PROBE messages, each with the send count (R349). -/
def sendProbes (s : State) (l : Nat) : State :=
  (List.range 64).foldl (fun s _ => sendOn s l (ownMsg s 0x27 0 0 0 (leBytes 8 (fabricCycles s.time)) (some (zeros 16)) [] 0)) s

/-- BER_MEASURE_END: step 4's 1 s has passed; a rate not below 1e-5 disables the link (R395). -/
def execBerMeasureEnd (l corrected uncorrectable received : Nat) (s : State) : Host.Outcome State Fault Refusal :=
  let x := linkOf s l
  let e := bitErrors corrected uncorrectable
  .next (
    if l ≥ 16 ∨ x.st ≠ lkTraining ∨ x.training ≠ 4 ∨ s.time < x.berAt + secondUnits then s
    else
      let s1 := setLink s l { x with ber := berFloat e received }
      if e * 100000 ≥ received then disable s1 l 0x21 else sendProbes (setLink s1 l { linkOf s1 l with training := 5 }) l)

/-- TRAIN_ATTEMPT_TIMEOUT: an attempt has not finished within 3 s. -/
def execTrainAttemptTimeout (l : Nat) (s : State) : Host.Outcome State Fault Refusal :=
  .next (if l < 16 ∧ (linkOf s l).st = lkTraining ∧ (linkOf s l).attemptAt + 3 * secondUnits ≤ s.time then attemptFails s l else s)

/-- A receive buffer's message leaves it, and its slots are to be returned. -/
def freeMsg (s : State) (l : Nat) (m : Msg) : State :=
  let x := linkOf s l
  let ch := opChannel m.op
  let n := msgSlots m
  setLink s l { x with rx := x.rx.erase m, used := x.used.set ch (x.used.getD ch 0 - n), toReturn := x.toReturn.set ch (x.toReturn.getD ch 0 + n) }

/-- The oldest message of a channel in the receive buffer (R354). -/
def firstOf (s : State) (l ch : Nat) : Option Msg := (linkOf s l).rx.find? (fun m => opChannel m.op == ch)

/-- (t4 - t1) - (t3 - t2) in clock counts (R349). -/
def probeSpan (t1 t2 t3 t4 : Nat) : Int := ((BitVec.ofNat 64 t4 - BitVec.ofNat 64 t1) - (BitVec.ofNat 64 t3 - BitVec.ofNat 64 t2)).toInt

/-- The latency in ps from the spans of 64 probes: half the median, at 1.2 GHz (R22, R349). -/
def latencyPs (spans : List Int) : Nat :=
  let l := sortBy (fun a b => decide (a < b)) spans
  (Int.fdiv ((l.getD 31 0 + l.getD 32 0) * 1250) 6).toNat

/-- A returned probe; the 64th decides the latency. -/
def probeReturns (s : State) (l : Nat) (d : Int) : State :=
  let x := linkOf s l
  let ds := x.probes ++ [d]
  let s1 := setLink s l { x with probes := ds }
  if x.st ≠ lkTraining ∨ x.training ≠ 5 ∨ ds.length < 64 then s1
  else
    let lat := latencyPs ds
    let s2 := setLink s1 l { linkOf s1 l with latency := lat }
    if lat > 1000 * x.cfg.limit then disable s2 l 0x22 else authStart s2 l

/-- PROBE: a peer's probe is answered with the receive and send counts; an answer gives one span. -/
def execProbe (l t1 t2 t3 t4 : Nat) (s : State) : Host.Outcome State Fault Refusal :=
  .next (
    match firstOf s l 2 with
    | none => s
    | some m =>
      if l ≥ 16 ∨ m.op ≠ 0x27 ∨ fieldN m.fields 0 8 ≠ t1 ∨ fieldN (m.second.getD []) 0 8 ≠ t2 ∨ fieldN (m.second.getD []) 8 8 ≠ t3 then s
      else
        let s1 := freeMsg s l m
        settleLink (
          if t2 = 0 ∧ t3 = 0 then
            sendOn s1 l (ownMsg s1 0x27 0 0 0 (leBytes 8 t1) (some (leBytes 8 t4 ++ leBytes 8 (fabricCycles s1.time))) [] 0)
          else probeReturns s1 l (probeSpan t1 t2 t3 t4)) l)

/-! ### Retraining in place (R350) -/

/-- FEC_LOCK_LOSS on a LIVE link. -/
def execFecLockLoss (l : Nat) (s : State) : Host.Outcome State Fault Refusal :=
  let x := linkOf s l
  .next (if l < 16 ∧ x.st = lkLive ∧ !x.retraining then retrain s l else s)

/-- LINK_RETRAIN_END: success within 50 ms, or the link is disabled. -/
def execLinkRetrainEnd (l : Nat) (ok : Bool) (s : State) : Host.Outcome State Fault Refusal :=
  let x := linkOf s l
  .next (
    if l ≥ 16 ∨ !x.retraining then s
    else if ok ∧ s.time ≤ x.retrainAt + nsUnits 50000000 then settleLink (setLink s l { x with retraining := false, stuck := 0 }) l
    else disable s l 0x23)

/-- CREDIT_STALL: 10 ms without a credit of a channel while messages of it wait. -/
def execCreditStall (l channel : Nat) (s : State) : Host.Outcome State Fault Refusal :=
  .next (if l < 16 ∧ (linkOf s l).tx.any (fun m => opChannel m.op == channel) ∧
      (linkOf s l).creditAt.getD channel 0 + nsUnits 10000000 ≤ s.time then fence s l 3 else s)

/-! ### Authentication (R361, R362) -/

/-- Whether a link is past authentication. -/
def authenticated (x : Link) : Bool := x.st == lkConcord || x.st == lkLive || x.st == lkQuarantine

/-- One turn of SPDM ends: the other side's turn as requester follows the first. -/
def spdmTurn (s : State) (l : Nat) : State :=
  let x := linkOf s l
  if requestsFirst x then
    if x.spdm = 1 then setLink s l { x with spdm := 2 } else authDone s l
  else
    if x.spdm = 2 then sendSpdm (setLink s l { x with spdm := 1 }) l else authDone s l

/-- What a peer's request leaves negotiated, none for one that is not supported, that comes before what it needs, or for a key exchange
where the licences do not enable encryption (R361, R362). -/
def spdmGrant (s : State) (x : Link) (q : SpdmReq) : Option Nat :=
  let n := x.spdmPeer
  match q with
  | .version => some 1
  | .capabilities => if n = 1 then some 2 else none
  | .algorithms => if n = 2 then some 3 else none
  | .digests | .certificate | .challenge | .measurements => if n = 3 then some 3 else none
  | .keyExchange => if n = 3 ∧ encLicensed s ∧ x.encPeer then some 4 else none
  | .finish => if n = 4 then some 5 else none
  | .heartbeat | .keyUpdate | .other => none

/-- A request of the peer. In AUTH it is the peer's turn, and a request that this device does not grant is a failure; after it the peer
repeats CHALLENGE or, with encryption, sends HEARTBEAT and KEY_UPDATE. Each is answered. -/
def spdmRequest (s : State) (l : Nat) (q : SpdmReq) : State :=
  let x := linkOf s l
  if x.st = lkAuth then
    match spdmGrant s x q with
    | some n => if x.spdm = 2 then sendSpdm (setLink s l { x with spdmPeer := n }) l else fence s l 6
    | none => fence s l 6
  else sendSpdm (if q = .keyUpdate ∧ x.enc then newKeys s l else s) l

/-- The peer's answer to a request of this device's turn: the next request follows, and after the last one the turn ends. -/
def spdmResponse (s : State) (l : Nat) (ok : Bool) : State :=
  let x := linkOf s l
  if x.st ≠ lkAuth ∨ x.spdm ≠ 1 then s
  else if !ok then fence s l 6
  else
    let s1 := setLink s l { x with spdmAt := x.spdmAt + 1 }
    if x.spdmAt + 1 < spdmRequests s x then sendSpdm s1 l else spdmTurn s1 l

/-- What an SPDM message brings about. -/
def spdmActs (s : State) (l : Nat) (e : SpdmStep) : State :=
  let x := linkOf s l
  match e with
  | .fragment => s
  | .request q => spdmRequest s l q
  | .response ok => spdmResponse s l ok
  | .portion => if x.st = lkAuth ∧ x.spdm = 1 then sendSpdm s l else s
  | .complete => if x.st = lkAuth ∧ x.spdm = 2 then spdmTurn s l else s
  | .fail => fence s l (if x.st = lkAuth then 6 else 7)
  | .heartbeatReply => setLink s l { x with beats := 0 }
  | .challengeReply ok => if !x.asked then s else if ok then setLink s l { x with asked := false } else fence s l 7
  | .tagFailures n => if n > 16 then fence s l 7 else s
  | .keyUpdated => newKeys s l

/-- SPDM: the message at the head of the CTL channel, if one waits, is taken, and its outcome acts. -/
def execSpdm (l : Nat) (e : SpdmStep) (s : State) : Host.Outcome State Fault Refusal :=
  let s1 := match firstOf s l 2 with | some m => if m.op = 0x26 then freeMsg s l m else s | none => s
  .next (if l < 16 ∧ ((linkOf s l).st = lkAuth ∨ authenticated (linkOf s l)) then settleLink (spdmActs s1 l e) l else s)

/-- HEARTBEAT: the period of an encrypted link; three missed ones are a lapse. -/
def execHeartbeat (l : Nat) (s : State) : Host.Outcome State Fault Refusal :=
  let x := linkOf s l
  .next (
    if l ≥ 16 ∨ !x.enc ∨ !authenticated x ∨ s.time < x.beatAt + secondUnits then s
    else if x.beats ≥ 3 then fence s l 7
    else sendSpdm (setLink s l { x with beats := x.beats + 1, beatAt := s.time }) l)

/-- CHALLENGE_TIMER: 60 s on an unencrypted link. -/
def execChallengeTimer (l : Nat) (s : State) : Host.Outcome State Fault Refusal :=
  let x := linkOf s l
  .next (if l < 16 ∧ !x.enc ∧ authenticated x ∧ x.askAt + 60 * secondUnits ≤ s.time then
      sendSpdm (setLink s l { x with asked := true, askAt := s.time }) l else s)

/-- CHALLENGE_UNANSWERED: 1 s after a CHALLENGE. -/
def execChallengeUnanswered (l : Nat) (s : State) : Host.Outcome State Fault Refusal :=
  .next (if l < 16 ∧ (linkOf s l).asked ∧ (linkOf s l).askAt + secondUnits ≤ s.time then fence s l 7 else s)

/-- KEY_UPDATE: 2^32 flits since the last keys. -/
def execKeyUpdate (l : Nat) (s : State) : Host.Outcome State Fault Refusal :=
  let x := linkOf s l
  .next (if l < 16 ∧ x.enc ∧ x.flitsKey ≥ 2 ^ 32 then sendSpdm (newKeys s l) l else s)

end Sys2Proof.Machine
end

