-- ==== Sys2Proof/Machine/Peers.lean ====
section
/-! DEFINITION. Messages from peers (R357 to R360, R364, R369, R370, R373, R377, R378). A row acts on the oldest message of its channel in
the receive buffer of its link; any other message leaves the state unchanged (log 8). -/
namespace Sys2Proof.Machine

/-! ### Taking and forwarding (R358) -/

/-- The oldest message of its channel is taken, if it is `m` with the row's operation; then the link returns its credits. -/
def onMsg (s : State) (l op : Nat) (m : Msg) (f : State → State) : State :=
  if l < 16 ∧ m.op = op ∧ firstOf s l (opChannel op) = some m then settleLink (f (freeMsg s l m)) l else s

/-- Group traffic counts only on a LIVE link (R365). -/
def onLive (s : State) (l op : Nat) (m : Msg) (f : State → State) : State :=
  onMsg s l op m (fun s => if (linkOf s l).st = lkLive then f s else s)

/-- A message for another device leaves by its route, or is dropped; a dropped request is answered. -/
def forward (s : State) (m : Msg) : State :=
  let drop : State := if m.op < 0x10 then answerCompl s m St.routeUnreachable else s
  if m.hops ≥ 8 then drop
  else
    match sendRouted s m with
    | some s1 => prog s1 (linkUnit ((routeTo s m.dest).getD 0)) 8 none none 1
    | none => drop

/-- A request or answer for this device acts; any other is forwarded. -/
def forUs (s : State) (m : Msg) (f : State → State) : State :=
  if m.dest = ownIndex s then f (countMsg s 20 m) else forward s m

/-- A request is executed unless the device is in the Cap state (R416). -/
def serveRequest (s : State) (m : Msg) (f : State → State) : State :=
  forUs s m (fun s => if s.ink.state = stCapped then answerCompl s m St.cappedTarget else f s)

def msgDpa (m : Msg) : Nat := fieldN m.fields 0 6

/-- The requester as which a peer's access is executed (R359). -/
def peerRq (m : Msg) : Requester := .peer m.part

/-! ### Requests (R359) -/

/-- READ_DATA messages of at most three granules. -/
def sendReadData (s : State) (m : Msg) (l : List (List Byte × Bool)) : State :=
  ((chunks 3 l).zipIdx).foldl (fun s (g, i) =>
    answerMsg s m 0x10 (leBytes 8 (3 * i)) (g.map Prod.fst) (BitVec.ofNat 3 (maskOf ((g.zipIdx.filter (fun e => e.1.2)).map Prod.snd)))) s

/-- Bytes that a READ asks for. -/
def readLen (m : Msg) : Nat := 64 * bits (fieldN m.fields 0 8) 55 48

/-- A request for this device stays in its receive buffer while its channel is retraining (R155). -/
def peerHeld (s : State) (m : Msg) (waits : Option (Tier × Nat)) : Bool := m.dest == ownIndex s && waits.isSome

def execRead (l : Nat) (m : Msg) (s : State) : Host.Outcome State Fault Refusal :=
  .next (if peerHeld s m (retrainingAt s false (msgDpa m) (readLen m)) then s
   else onLive s l 1 m (fun s => serveRequest s m (fun s =>
    if msgDpa m % 64 ≠ 0 then answerCompl s m St.badAddress
    else
      match readGranules s (peerRq m) (msgDpa m) (readLen m) 1 with
      | (st, g, s1) =>
        if st = St.ok then
          answerCompl (sendReadData (crossRange s1 (linkDie l) (some m.part) false (msgDpa m) (readLen m)) m g) m St.ok
        else answerCompl s1 m st)))

/-- Bytes of a message with the poison of each granule. -/
def msgGranules (m : Msg) : List (List Byte × Bool) := m.data.zipIdx.map (fun e => (e.1, m.poison.getLsbD e.2))

/-- Collective that a WRITE or CONTRIB names, 0 for none. -/
def msgColl (m : Msg) : Nat := match m.second with | some b => fieldN b 12 4 | none => 0

/-- Data of a collective reaches its member, or an ended one's is discarded with ABORTED (R376, R378). -/
def forColl (s : State) (m : Msg) (f : Option Coll → State → State) : State :=
  if msgColl m = 0 then f none s
  else
    match collOf s (msgColl m) with
    | some c => if c.begun then f (some c) (collProgress s c.id) else answerCompl s m St.aborted
    | none => answerCompl s m St.aborted

def execWrite (l : Nat) (m : Msg) (s : State) : Host.Outcome State Fault Refusal :=
  .next (if peerHeld s m (retrainingAt s true (msgDpa m) (64 * m.data.length)) then s
   else onLive s l 2 m (fun s => serveRequest s m (fun s => forColl s m (fun c s =>
    if msgDpa m % 64 ≠ 0 then answerCompl s m St.badAddress
    else
      match writeGranules s (peerRq m) (msgDpa m) (msgGranules m) 1 with
      | (st, s1) =>
        let s2 := answerCompl (if st = St.ok then crossRange s1 (linkDie l) (some m.part) true (msgDpa m) (64 * m.data.length) else s1) m st
        match c with
        | none => s2
        | some c =>
          if st ≠ St.ok then s2
          else collPush (modColl s2 c.id (fun c => { c with expectW := taken c.expectW (collBlock s c (msgDpa m)) m.data.length, poisoned := c.poisoned || m.poison != 0 })) c.id))))

/-- The contribution that a CONTRIB carries; that of an ordered collective goes to its context. -/
def msgContribution (m : Msg) (c : Option Coll) : Contribution :=
  let b := m.second.getD []
  { dpa := msgDpa m, op := fieldN b 0 1, mask := BitVec.ofNat 32 (fieldN b 8 4), operand := m.data.headD (zeros 64), poison := m.poison.getLsbD 0,
    order := if bit (fieldN b 1 1) 0 then some ((match c with | some c => c.ctx.getD 64 | none => fieldN b 2 1), fieldN b 4 4) else none }

def execContrib (l : Nat) (m : Msg) (s : State) : Host.Outcome State Fault Refusal :=
  .next (if peerHeld s m (retrainingBelow s (msgDpa m) 64) then s
   else onLive s l 3 m (fun s => serveRequest s m (fun s => forColl s m (fun c s =>
    match contribute s (peerRq m) (msgContribution m c) 1 with
    | (st, _, s0) =>
      let s1 := if st = St.ok then crossFrom s0 (linkDie l) (some m.part) true (msgDpa m) 64 else s0
      if s1.ari.aside.length > s.ari.aside.length then answerMsg { s1 with ari.aside := s.ari.aside } m 0x12 [] [] 0
      else
        let s2 := answerCompl s1 m st
        match c with
        | none => pushAll s2
        | some c =>
          if st ≠ St.ok ∧ st ≠ St.poisoned then s2
          else collPush (modColl s2 c.id (fun c => { c with expect := taken c.expect (collBlock s c (msgDpa m)) 1, poisoned := c.poisoned || m.poison != 0 || st == St.poisoned })) c.id))))

def execSignal (l : Nat) (m : Msg) (s : State) : Host.Outcome State Fault Refusal :=
  .next (onLive s l 4 m (fun s => serveRequest s m (fun s =>
    let t := bits (fieldN m.fields 0 8) 13 0
    if underReset s (tallyQuad t) then answerCompl s m St.destReset
    else answerCompl (tallySignalAs s t (BitVec.ofNat 32 (fieldN m.fields 4 4)) (bit (fieldN m.fields 0 2) 15) 0xFFFF (some m.part)) m St.ok)))

/-! ### Answers (R357, R360) -/

/-- The statuses with which a device on the way answers a request that it cannot carry on (R358, R360). -/
def hopStatus (st : Nat) : Bool := st == St.routeUnreachable || st == St.linkFenced || st == St.linkDown

/-- The outstanding request that an answer names by its tag: the destination's answer, or that of a device on the way. -/
def remoteFor (s : State) (m : Msg) : Option Remote :=
  s.duc.remotes.find? (fun r => r.tag == m.tag && (r.dest == m.source || (m.op == 0x11 && hopStatus (fieldN m.fields 0 2))))

def setRemote (s : State) (r : Remote) : State :=
  { s with duc.remotes := s.duc.remotes.map (fun x => if x.tag = r.tag then r else x) }

/-- Read data fills the scratchpad; data for a core under reset is discarded (R412). -/
def takeReadData (s0 : State) (l : Nat) (r : Remote) (m : Msg) : State :=
  match r.use with
  | .coreRead n a =>
    let s := crossing s0 (linkDie l) (coreQuad s0 n / 2) (corePart s0 n) (64 * m.data.length)
    let s1 := setRemote s { r with left := r.left - m.data.length }
    if (coreOf s1 n).run ≠ .faulted ∧ (coreOf s1 n).run ≠ .reset then
      setCore s1 n (spadFill (coreOf s1 n) (a + 64 * fieldN m.fields 0 1) (msgGranules m))
    else s1
  | _ => s0

def execReadData (l : Nat) (m : Msg) (s : State) : Host.Outcome State Fault Refusal :=
  .next (onLive s l 0x10 m (fun s => forUs s m (fun s =>
    match remoteFor s m with
    | some r => takeReadData s l r m
    | none => s)))

/-- COMPL. A read whose data has not all come goes on waiting. -/
def execCompl (l : Nat) (m : Msg) (s : State) : Host.Outcome State Fault Refusal :=
  .next (onLive s l 0x11 m (fun s => forUs s m (fun s =>
    match remoteFor s m with
    | some r =>
      let st := fieldN m.fields 0 2
      if st = St.ok ∧ r.left ≠ 0 then s else remoteDone s r st
    | none => s)))

/-- RETRY: the contribution is set aside, to be sent again 256 ns later (R173, R359). -/
def execRetry (l : Nat) (m : Msg) (s : State) : Host.Outcome State Fault Refusal :=
  .next (onLive s l 0x12 m (fun s => forUs s m (fun s =>
    match remoteFor s m with
    | some r =>
      let s1 := match r.use with | .coll id => collProgress s id | _ => s
      if r.msg.op = 3 then setRemote s1 { r with retry := true, since := s.time } else s1
    | none => s)))

/-- The group's remote timeout in units of 2^-16 ns; 10,000 µs is the default (R368). -/
def remoteUnits (s : State) : Nat := (match s.duc.group with | some g => g.remoteUs | none => 10000) * 65536000

/-- REMOTE_TIMEOUT: the group's remote timeout has passed since a request was sent, and no answer has come (R360). -/
def execRemoteTimeout (tag : BitVec 16) (s : State) : Host.Outcome State Fault Refusal :=
  .next (
    match s.duc.remotes.find? (fun r => r.tag == tag) with
    | some r => if !r.retry ∧ r.since + remoteUnits s ≤ s.time then remoteDone s r St.remoteTimeout else s
    | none => s)

/-- 256 ns, in units of 2^-16 ns (R173). -/
def resendUnits : Nat := 256 * 65536

/-- A contribution set aside is sent again: the core, the reduction or the collective that waits for it learns what becomes of it (R173). -/
def resend (s : State) (a : Aside) : State :=
  let n := s.ari.aside.length
  match contribute s a.req a.con 1 with
  | (st, _, s1) =>
    if n < s1.ari.aside.length then (match a.op with | some id => tagAside s1 id | none => s1)
    else
      match a.op, a.req with
      | some id, _ => applyResent s1 id st
      | none, .core _ c => if st = St.ok then coreSettle s1 c else fabricFault s1 c st a.con.dpa
      | none, _ => pushAll s1

/-- CONTRIBUTION_RESEND: 256 ns after a refusal for want of space, a contribution set aside is sent again (R173, R359). -/
def execContributionResend (s : State) : Host.Outcome State Fault Refusal :=
  .next (
    match s.ari.aside.find? (fun a => decide (a.since + resendUnits ≤ s.time)) with
    | some a => resend { s with ari.aside := s.ari.aside.erase a } a
    | none =>
      match s.duc.remotes.find? (fun r => r.retry && decide (r.since + resendUnits ≤ s.time)) with
      | some r =>
        match sendRouted (setRemote s { r with retry := false, since := s.time }) r.msg with
        | some s1 => s1
        | none => remoteDone s r St.routeUnreachable
      | none => s)

/-! ### Line markers (R47, R48, R369) -/

/-- Units of 2^-16 ns in a time in ps. -/
def psUnits (ps : Nat) : Nat := ps * 65536 / 1000

/-- The stamp that this device's counter would give the present instant, its ticks unbounded by the line. -/
def runningStamp (s : State) : Int := (s.rul.line.toNat * 65536 + (s.time - s.rul.boundaryAt) * 65536 / linePeriod s : Nat)

/-- A follower more than one line from its master leaves group traffic (R48, R365). -/
def drift (s : State) : State := (liveLinks s).foldl (fun s l => quarantine s l 0x18) s

/-- An offset in ticks as the status record reports it: locked within 64 ticks, SLEWING beyond (R47, R48). -/
def noteOffset (s : State) (off : Int) : State :=
  let now := decide (off.natAbs ≤ 64)
  { s with rul.offset := off, rul.locked := now, rul.slewing := !now, rul.markerValid := s.rul.markerValid || now }

/-- Lock gained or lost since `was`, and a drift of more than one line (R47, R48, R53). -/
def judgeLock (s : State) (was : Bool) : State :=
  let s1 := if was == s.rul.locked then s else postSource s s.rul.source (if s.rul.locked then 2 else 3)
  if s.rul.offset.natAbs > 65536 then drift s1 else s1

/-- The line period to which a follower slews from `p`: the master's, `seen`, longer or shorter by what removes `off` within a line; a line
gains or loses at most 256 ticks, 1/256 of it, against the line before (R47). -/
def slewedRate (p seen : Nat) (off : Int) : Nat :=
  (clampInt (p - p / 256 : Nat) (p + p / 256 : Nat) (seen + seen * off / 65536)).toNat

/-- The master's line period as its last two markers show it; `p` where there are no two of one numbering. -/
def masterPeriod (r : Ruling) (p base line : Nat) : Nat :=
  if r.rate ≠ 0 ∧ r.markerLine < line ∧ r.markerBase < base then (base - r.markerBase) / (line - r.markerLine) else p

/-- The source that gives way to RULING_MASTER when a marker is accepted: another one, or a holdover (R34). -/
def toMaster (s : State) : Option Src := if s.rul.holdover.isSome ∨ s.rul.source ≠ .rulingMaster then some .rulingMaster else none

/-- Whether the markers are those of a master that this device has not followed so far. -/
def newlyFollowed (s : State) : Bool := s.rul.source != .rulingMaster || s.rul.pendMaster.isSome

/-- A marker that takes a follower to the master's numbering: the first one of a switch or of a new master that is not within 64 ticks, or
one of another epoch (R29, R30, R35). An epoch that the master has entered itself counts as a group joined
(DEDUCED, log 75). -/
def adoptMarker (s : State) (e : BitVec 32) (m : Nat) : State :=
  let cause := if e ≠ s.rul.epoch ∧ (s.rul.pendEpoch.isSome ∨ !newlyFollowed s) then 3 else 2
  beginLine (noteOffset { s with rul.pendEpoch := none } 0) m (toMaster s)
    (some (if s.rul.epoch = e then nextEpoch s else e, (m : Int) - (stamp s).toNat, cause))

/-- A marker of the epoch in force, `off` ticks from this device's own counter: within 64 ticks it begins the line that is still due;
beyond, the counter keeps its own boundaries and slews. A holdover or another source gives way (R31, R34, R35, R47). -/
def slewMarker (s : State) (line m : Nat) (off : Int) : State :=
  let s1 := noteOffset { s with rul.pendEpoch := none } off
  if off.natAbs ≤ 64 ∧ s.rul.line.toNat < line then beginLine s1 m (toMaster s) none
  else match toMaster s with | some c => switchTo s1 c | none => s1

/-- A follower takes the line number and the epoch of its master's marker, whose compensation is `comp` units: the master's boundary fell
that long before the arrival (R47, R369). -/
def followMarker (s0 : State) (master line epoch comp : Nat) : State :=
  let s := if s0.rul.source = .cadenceIn ∧ s0.rul.holdover = none then s0 else giveDue (dueCount s0) s0
  let base := s.time - comp
  let p := linePeriod s
  let m := line * 65536 + comp * 65536 / p
  let off : Int := runningStamp s - m
  let jumps : Bool := BitVec.ofNat 32 epoch != s.rul.epoch || (newlyFollowed s && decide (64 < off.natAbs))
  let s1 := if jumps then adoptMarker s (BitVec.ofNat 32 epoch) m else slewMarker s line m off
  let s2 := installMaster s1 master
  let rate := if jumps then p
    else slewedRate p (masterPeriod s.rul p base line) (if off.natAbs ≤ 64 ∧ s.rul.line.toNat < line then 0 else off)
  judgeLock { s2 with rul.rate := rate, rul.markerAt := s.time, rul.markerBase := base, rul.markerLine := line } s.rul.locked

/-- LINE_MARKER: accepted only from the link that the route table names for the master, the one in force or the one that is to take over
(R46, R369). -/
def execLineMarker (l : Nat) (m : Msg) (s : State) : Host.Outcome State Fault Refusal :=
  .next (onMsg s l 0x20 m (fun s =>
    let x := linkOf s l
    let b := m.second.getD []
    let master := fieldN b 4 2
    if !(x.st == lkLive || x.st == lkQuarantine) || !s.rul.follower || (master != s.rul.master && s.rul.pendMaster != some master) ||
        routeTo s master != some l then s
    else
      let corr := fieldN b 8 8 + x.latency
      let line := fieldN m.fields 0 6
      let epoch := fieldN b 0 4
      let s1 := (liveLinks s ++ quarantineLinks s).foldl (fun s k =>
        if k = l then s else sendOn s k { markerMsg s corr line epoch master with source := m.source, hops := m.hops }) s
      followMarker s1 master line epoch (psUnits corr)))

/-! ### Notices (R358, R370, R373, R377, R378) -/

/-- Newer in 16-bit serial arithmetic. -/
def newer (a b : BitVec 16) : Bool := decide (0 < (a - b).toInt)

/-- A new flooded message goes on every other link that carries it. -/
def passOn (s : State) (l : Nat) (m : Msg) : State := floodFrom s m (some l)

def execSlow (l : Nat) (m : Msg) (s : State) : Host.Outcome State Fault Refusal :=
  .next (onLive s l 0x21 m (fun s =>
    let q := BitVec.ofNat 16 (fieldN m.fields 2 2)
    let share := fieldN m.fields 0 2
    let old : Bool := match mfind s.duc.shareSeqs m.source with | some p => !newer q p | none => false
    if m.source = ownIndex s ∨ old then s
    else
      let s1 := { s with duc.shares := mput s.duc.shares m.source share, duc.shareSeqs := mput s.duc.shareSeqs m.source q }
      passOn (postSlow s1 (declaredShare s1) m.source share) l m))

/-- Whether an ADVERT that arrives on a link is a member's: its source is listed, and a QUARANTINE link's peer is of this group (R370). -/
def advertCounts (s : State) (l src : Nat) : Bool :=
  match s.duc.group with
  | some g => g.members.contains src &&
      ((linkOf s l).st == lkLive || ((linkOf s l).st == lkQuarantine && match (linkOf s l).concord with | some r => ofGroup s r | none => false))
  | none => false

/-- ADVERT crosses QUARANTINE links too. -/
def execAdvert (l : Nat) (m : Msg) (s : State) : Host.Outcome State Fault Refusal :=
  .next (onMsg s l 0x22 m (fun s =>
    let q := BitVec.ofNat 16 (fieldN m.fields 2 2)
    let f := fieldN m.fields 0 1
    let old : Bool := match mfind s.duc.adverts m.source with | some a => (match a.seq with | some p => !newer q p | none => false) | none => false
    if !advertCounts s l m.source ∨ m.source = ownIndex s ∨ old then s
    else passOn { s with duc.adverts := mput s.duc.adverts m.source { valid := bit f 0, eligible := bit f 1, seq := some q } } l m))

def execCollReady (l : Nat) (m : Msg) (s : State) : Host.Outcome State Fault Refusal :=
  .next (onLive s l 0x23 m (fun s =>
    let id := fieldN m.fields 0 4
    let sig := BitVec.ofNat 32 (fieldN m.fields 4 4)
    if s.duc.readySeen.any (fun e => e.1 == id && e.2.1 == m.source) then s
    else
      let s1 := passOn { s with duc.readySeen := s.duc.readySeen ++ [(id, m.source, sig)] } l m
      match collOf s1 id with
      | none => s1
      | some c =>
        if sig ≠ c.signature then collFail s1 id St.collMismatch
        else if c.begun then collPush (modColl (collProgress s1 id) id (fun c => { c with ready := c.ready ++ [m.source] })) id
        else s1))

def execCollAbortReceived (l : Nat) (m : Msg) (s : State) : Host.Outcome State Fault Refusal :=
  .next (onLive s l 0x24 m (fun s =>
    let id := fieldN m.fields 0 4
    let st := fieldN m.fields 4 2
    if s.duc.aborted.any (fun e => e.1 == id) then s
    else
      let s1 := if (collOf s id).isSome then collAbort s id st (fieldN m.fields 6 2) true else rememberAbort s id st
      passOn s1 l m))

/-! ### CONCORD (R363, R364) -/

def execConcord (l : Nat) (m : Msg) (s : State) : Host.Outcome State Fault Refusal :=
  .next (onMsg s l 0x25 m (fun s => concordArrives s l (bit (fieldN m.fields 0 1) 0) (parseConcord (m.data.headD []))))

end Sys2Proof.Machine
end

