-- ==== Sys2Proof/Machine/Group.lean ====
section
/-! DEFINITION. The commands of links and groups (R379). -/
namespace Sys2Proof.Machine

/-! ### Links -/

/-- One link's 64 bytes of LINK_STATUS. -/
def linkEntry (s : State) (l : Nat) : List Byte :=
  let x := linkOf s l
  padTo 64 ([BitVec.ofNat 8 x.st, BitVec.ofNat 8 x.reason] ++ slice (linkRecord l x.cfg) 1 1 ++ [BitVec.ofNat 8 (b2n x.enc)] ++ leBytes 2 x.peer ++
    zeros 2 ++ leBytes 8 x.peerId ++ leBytes 4 x.latency ++ leBytes 4 x.ber.toNat ++ leBytes 8 x.changed.toNat)

def execLinkStatus (c : Cmd) (s : State) : Host.Outcome State Fault Refusal :=
  .next (firmware { op := 0x0A01, need := 8 } (fun c s => reportTo (p64 c 0) (((List.range 16).map (linkEntry s)).flatten) [] s) c s)

/-- A stored record acts: without ENABLE the link is DISABLED with reason HOST, with it the link trains again (R350, R379). A fenced link
that stays enabled keeps its state until LINK_RESET (R367), and a loopback run is not disturbed. -/
def applyLinkSet (s : State) (l : Nat) (g : LinkCfg) : State :=
  let s1 := setLink s l { linkOf s l with cfg := g }
  let s2 := storeSection s1 secLinks (linksBody s1)
  let st := (linkOf s2 l).st
  if st = lkLoopback then s2
  else if !g.enable then disable s2 l 0x24
  else if st = lkFenced then s2
  else trainStart s2 l 0x24

def execLinkSet (c : Cmd) (s : State) : Host.Outcome State Fault Refusal :=
  .next (firmware { op := 0x0A02, need := 16 } (fun c s =>
    checked [(linkRecordBad (slice (body c) 0 16), St.invalidField),
             ((parseLinkCfg (slice (body c) 0 16)).encReq && !encLicensed s, St.notLicensed)] s
      (.done St.ok [] (applyLinkSet s (p8 c 0) (parseLinkCfg (slice (body c) 0 16))))) c s)

/-- LINK_RESET sends a disabled or fenced link to TRAINING; a link of any other state is unchanged (R350, log 114). -/
def resetLink (s : State) (l : Nat) : State :=
  if (linkOf s l).st = lkDisabled ∨ (linkOf s l).st = lkFenced then trainStart s l 0 else s

def execLinkReset (c : Cmd) (s : State) : Host.Outcome State Fault Refusal :=
  .next (firmware { op := 0x0A03, need := 2 } (fun c s =>
    .done St.ok [] ((bitList 16 (p16 c 0)).foldl resetLink s)) c s)

/-- The claim of a link (R83): LIVE is mode 1, LOOPBACK mode 2. -/
def linkRes (l : Nat) : Nat := mkRes 4 l

def execLinkLoopback (c : Cmd) (s : State) : Host.Outcome State Fault Refusal :=
  .next (firmware { op := 0x0A04, need := 16 } (fun c s =>
    let l := p8 c 0
    checked [(decide (l > 15) || decide (p8 c 1 > 1) || p16 c 2 == 0, St.invalidField), (!holds s (linkRes l) 2 c.fn, St.notClaimed),
             ((linkOf s l).st != lkDisabled, St.linkState)] s
      (.wait (.loopback l) (linkMove s l lkLoopback 0))) c s)

/-- What a loopback run writes: the rate, and the counts; the manual gives no layout (log 42). -/
def loopbackRecord (corrected uncorrectable received : Nat) : List Byte :=
  leBytes 4 (berFloat (bitErrors corrected uncorrectable) received).toNat ++ zeros 4 ++ leBytes 8 corrected ++ leBytes 8 uncorrectable ++ leBytes 8 received

/-- LOOPBACK_END: the run's results, and DISABLED. -/
def execLoopbackEnd (l corrected uncorrectable received : Nat) (s : State) : Host.Outcome State Fault Refusal :=
  .next (
    if l ≥ 16 ∨ (linkOf s l).st ≠ lkLoopback then s
    else
      let s1 := linkMove s l lkDisabled 0
      match s1.ink.running.find? (fun r => r.wait == .loopback l) with
      | none => s1
      | some r =>
        match hostWrite? s1 (p64 r.cmd 8) (loopbackRecord corrected uncorrectable received) with
        | some s2 => finishWait s2 (.loopback l) St.ok []
        | none => finishWait s1 (.loopback l) St.hostFault [])

def execLinkCounters (c : Cmd) (s : State) : Host.Outcome State Fault Refusal :=
  .next (firmware { op := 0x0A0A, need := 16 } (fun c s =>
    checked [(decide (p8 c 0 > 15), St.invalidField)] s
      (reportTo (p64 c 8) (((linkOf s (p8 c 0)).ctr.map (leBytes 8)).flatten) [] s)) c s)

/-! ### Groups -/

/-- A group record in force: stored, its ruling elected anew, and concord exchanged on every LIVE and QUARANTINE link (R368, R46). -/
def applyGroup (s : State) (b : List Byte) : State :=
  let g := parseGroup b
  let fresh := match s.duc.group with | some o => o.id != g.id || o.index != g.index | none => true
  let s1 := storeSection { s with duc.group := some g } secGroup b
  let s2 := if fresh then { s1 with duc.adverts := [], duc.shares := [], duc.shareSeqs := [], duc.advSent := none,
                                       rul.master := 0xFFFF, rul.pendMaster := none } else s1
  let s3 := if fresh then takeMaster s2 (elect s2) else s2
  advertise ((quarantineLinks s3).foldl (fun s l => sendConcord s l true) (concordUpdate s3))

def execGroupConfig (c : Cmd) (s : State) : Host.Outcome State Fault Refusal :=
  .next (firmware { op := 0x0A05, need := 4162, ext := true, full := fun _ c => 4160 + 2 * p16 c 6 } (fun c s =>
    let b := (body c).take (4160 + 2 * p16 c 6)
    checked [(groupBad b, St.invalidField), (!s.duc.colls.isEmpty, St.groupBusy)] s
      (.done St.ok [] (applyGroup s b))) c s)

def execGroupRejoin (c : Cmd) (s : State) : Host.Outcome State Fault Refusal :=
  .next (firmware { op := 0x0A06, need := 2 } (fun c s =>
    let mask := p16 c 0
    let ls := bitList 16 mask
    checked [(s.duc.group.isNone, St.notInGroup), (ls.any (fun l => (linkOf s l).st != lkQuarantine), St.linkState)] s
      (if ls.isEmpty then .done St.ok [] s
       else .wait (.rejoin mask) (ls.foldl (fun s l => sendConcord (setLink s l { linkOf s l with rejoin := true }) l false) s))) c s)

/-- GROUP_STATUS's record; with no group the ID is 0 and the index and the master read 0xFFFF, as in R363. -/
def groupRecord (s : State) : List Byte :=
  let (id, n, ms) := match s.duc.group with | some g => (g.id, g.members.length, g.members) | none => (0, 0, [])
  let reached := if s.duc.group.isSome then 1 + (s.duc.adverts.filter (fun a => a.1 != ownIndex s && ms.contains a.1)).length else 0
  let low := (s.duc.shares.map Prod.snd).foldl min (declaredShare s)
  padTo 64 (leBytes 4 id ++ leBytes 2 (groupIndex s) ++ leBytes 2 n ++ leBytes 2 reached ++
    leBytes 2 (if s.duc.group.isSome then s.rul.master else 0xFFFF) ++ leBytes 4 s.rul.epoch.toNat ++ leBytes 2 low ++
    [BitVec.ofNat 8 s.duc.colls.length])

def execGroupStatus (c : Cmd) (s : State) : Host.Outcome State Fault Refusal :=
  .next (firmware { op := 0x0A07, need := 8 } (fun c s => reportTo (p64 c 0) (groupRecord s) [] s) c s)

end Sys2Proof.Machine
end

