-- ==== Sys2Proof/Machine/Thermal.lean ====
section
/-! DEFINITION. Temperature samples, throttling and trips (R136 to R143). -/
namespace Sys2Proof.Machine

/-- A read queued for a tripped unit completes: a CXL.mem one with the poison indication, any other with THERMAL_ABORT (R142, R143). -/
def abortRead (s : State) (w : Waiting) : State := if w.req = .window then cxlPoisoned s else setReply s St.thermalAbort [] false

/-- The waits of a unit's channel queues end: a write the controller has accepted completes, a read is aborted and counted (R142). -/
def tripQueue (t : Tier) (c : Nat) (s : State) : Nat × State :=
  let q := (chanOf s t c).queue
  let s1 := setChan s t c { chanOf s t c with queue := [] }
  q.foldl (fun (e : Nat × State) w =>
    match w.data with
    | some _ => (e.1, accessNow e.2 w)
    | none => (e.1 + 1, abortRead e.2 w)) (0, s1)

/-- Accesses that waited for a place in a queue of a unit meet its trip as new ones do (R143). -/
def tripSources (s : State) (t : Tier) (u : Nat) : State :=
  (unitOf s t u).chans.foldl (fun s c =>
    let l := (chanOf s t c).source
    l.foldl accessChan (setChan s t c { chanOf s t c with source := [] })) s

/-- Traffic runs on a tripped unit report THERMAL_ABORT when they end (R159). Port p's run drives the channels of its range. -/
def tripTraffic (s : State) (t : Tier) (u : Nat) : State :=
  if t = .cap then { s with svc.traffic := s.svc.traffic.map (fun e => (e.1, if e.1 = u then { e.2 with tripped := true } else e.2)) } else s

/-- A trip (R142). -/
def trip (s : State) (t : Tier) (u : Nat) (temp : Int) : State :=
  let (n, s0) := (unitOf s t u).chans.foldl (fun (e : Nat × State) c =>
    let (k, s1) := tripQueue t c e.2
    (e.1 + k, s1)) (0, s)
  let (k, s1) := tripOrdered s0 t u
  let s2 := tripTraffic (setThermal s1 t u { thermalOf s1 t u with temp := temp, tripped := true, cand := none }) t u
  let s2 := tripSources s2 t u
  let s3 := (s2.duc.colls.map (fun c => c.id)).foldl (fun s id => collFail s id St.thermalAbort) { s2 with svc.alert := true }
  let s4 := (functions s3).foldl (fun s fn => setFault s fn St.thermalAbort (u + 256 * tierNum t)) s3
  let s5 := blotUnit (logUnit s4 0x0B t u temp (thermalOf s4 t u).share) t u 3 (intBits 16 temp)
  post s5 0x0305 0xFF ([BitVec.ofNat 8 (tierNum t), BitVec.ofNat 8 u, BitVec.ofNat 8 (intBits 8 temp), 0] ++ leBytes 4 (n + k)) false

/-- The share in force and the rise that waits for a second sample, after a sample whose share is `sh` (R138). -/
def nextShare (h : Thermal) (sh : Nat) : Nat × Option Nat :=
  if sh ≤ h.share then (sh, none)
  else
    match h.cand with
    | some c => (min c sh, none)
    | none => (h.share, some sh)

/-- A sample below the trip temperature: a changed share is recorded and posted (R137, R138, R162). -/
def shareSample (s : State) (t : Tier) (u : Nat) (temp : Int) : State :=
  let h := thermalOf s t u
  let (sh, cand) := nextShare h (shareOf (curveOf s t) temp)
  let s1 := setThermal s t u { h with temp := temp, share := sh, cand := cand }
  if sh = h.share then s1
  else
    post (blotUnit (logUnit s1 0x0A t u temp sh) t u 2 sh) 0x0304 0xFF
      ([BitVec.ofNat 8 (tierNum t), BitVec.ofNat 8 u, BitVec.ofNat 8 (intBits 8 temp), 0] ++ leBytes 2 sh ++ leBytes 2 (declaredShare s1)) true

/-- One unit's sample; a tripped unit only keeps its temperature (R144). -/
def sampleUnit (s : State) (t : Tier) (u : Nat) (temp : Int) : State :=
  let h := thermalOf s t u
  if !unitUp s t u then s
  else if h.tripped then setThermal s t u { h with temp := temp }
  else if temp ≥ (curveOf s t).trip then trip s t u temp
  else shareSample s t u temp

/-- THERMAL_SAMPLE: the temperatures of occupied sites and ports, and the SLOW notice they call for (R141). -/
def execThermalSample (temps : List (Tier × Nat × Int)) (s : State) : Host.Outcome State Fault Refusal :=
  .next (sendSlow (temps.foldl (fun s e => sampleUnit s e.1 e.2.1 e.2.2) s))

end Sys2Proof.Machine
end

