-- ==== Sys2Proof/Machine/Start.lean ====
section
/-! DEFINITION. Resets, attempts and bring-up (R382, R384 to R401, R405, R414, R470, R471): what a device reset leaves, the boot record,
failed starts, and what each stage's end does. -/
namespace Sys2Proof.Machine

/-! ### Device resets (R29, R57, R60, R384, R414, R470) -/

/-- What a warm reset leaves of the ruling block (R470). The links are down, so no marker comes and the device follows nobody. What waits
for the next boundary goes on waiting (log 79). -/
def warmRuling (s : State) : Ruling :=
  let s1 := if pairCadence s then dropCadence s 4 else s
  let s2 := unfollow (loseSource { s1 with rul.markerValid := false } .rulingMaster 2)
  { s2.rul with epoch := 1, alarms := [], master := 0xFFFF, pendMaster := none, contrary := 0, pendSwitch := none,
                trig := { s2.rul.trig with config := none } }

/-- A cold start restores R32 and restarts the counter at line 0; its first line begins now. -/
def coldRuling (s : State) : Ruling := { boundaryAt := s.time }

/-- What a reset leaves of Inkwell: the console and SEQ are kept by a warm reset, NumVFs where configuration space is. -/
def resetInk (s : State) (cold conf : Bool) : Inkwell :=
  { state := s.ink.state
    seq := if cold then 0 else s.ink.seq
    con := if cold then [] else s.ink.con
    conPtr := if cold then 0 else s.ink.conPtr
    conWraps := if cold then 0 else s.ink.conWraps
    numVFs := if conf then s.ink.numVFs else 0
    msix := s.ink.msix }

/-- What a reset leaves of memory: the stored bytes and check words, which the test of the start rewrites unless it takes the fast path. -/
def resetMem (m : Mem) (conf : Bool) : Mem :=
  { fill := m.fill, chanFill := m.chanFill, nextGen := m.nextGen, cells := m.cells, committed := conf && m.committed }

/-- What a reset leaves of power and start: pins, samples, the SPI NOR and what the AON domain counts. -/
def resetPwr (p : Power) : Power :=
  { p with
    domains := 7, dead := 0, degraded := [], defect := {}, licences := [], coldSampled := false, fastPathOn := true, stage := 0, fast := false,
    degMask := 0, report := ⟨[], [], [], [], [], [], [], [], [], true, true, []⟩, pipes := 8, session := {},
    capBefore := 0, capEntering := false, capWaking := false, wakeWanted := false, resets := [], resetWanted := 0 }

/-- A device reset: everything outside the AON domain, and all but the NOR and the pins at a cold start. `conf` says that configuration
space stays intact (R384). The commands that wait are not the device's state, and host memory is the host's. -/
def deviceReset (s : State) (cold conf : Bool) : State :=
  { pending := s.pending
    time := s.time
    free := s.free
    host := s.host
    hostFaults := s.hostFaults
    rul := if cold then coldRuling s else warmRuling s
    ink := resetInk s cold conf
    mem := resetMem s.mem conf
    pwr := resetPwr s.pwr }

/-! ### The boot record and the firmware slots (R386, R398 to R401) -/

/-- An update of the boot record writes the other copy with the sequence plus 1. -/
def bootUpdate (s : State) (f : Boot → Boot) : State :=
  let b := bootNow s
  let n := { f b with seq := (b.seq + 1) % 2 ^ 32, valid := true }
  if s.pwr.boot1.valid && decide (b = s.pwr.boot1) && !(s.pwr.boot0.valid && decide (b = s.pwr.boot0)) then { s with pwr.boot0 := n }
  else { s with pwr.boot1 := n }

def slotBytes (s : State) (i : Nat) : List Byte := if i = 0 then s.pwr.slotA else s.pwr.slotB

/-- Whether a slot's image verifies but for its security version: format, signature, body digest (R399). `sig` is the signature's outcome. -/
def imageSound (b : List Byte) (sig : Bool) : Bool :=
  let n := fieldN b 8 4
  fieldN b 0 2 == 1 && decide (n ≤ 16776960) && decide (256 + n ≤ b.length) && sig && sha384 (slice b 256 n) == slice b 16 48

def imageVersion (b : List Byte) : Nat := fieldN b 4 4

def imageVerifies (s : State) (i : Nat) (sig : Bool) : Bool :=
  imageSound (slotBytes s i) sig && decide (imageVersion (slotBytes s i) ≥ (bootNow s).minSec)

/-- Whether an image runs: from LOADING on, but not in MINIMAL, which runs from ROM. -/
def imageRuns (s : State) : Bool := s.ink.state != stRom && s.ink.state != stMinimal && s.ink.state != stResetting

/-! ### Attempts (R385 to R387, R462) -/

/-- A reason whose DETAIL the manual does not give, in every function: the DETAIL is a free value (log 13). -/
def openFault (s : State) (reason : Nat) : State :=
  (functions s).foldl (fun s fn =>
    let (w, s1) := freeWord s
    setFault s1 fn reason (w.toNat % 2 ^ 15)) s

def faultAll (s : State) (reason detail : Nat) : State := (functions s).foldl (fun s fn => setFault s fn reason detail) s

/-- MINIMAL brings up AON, HOST and the console only (R387). -/
def enterMinimal (s : State) : State := setState { s with pwr.stage := 0, pwr.domains := 5 } stMinimal

/-- ROM begins an attempt, or MINIMAL where three starts in a row have failed. With STRAP_JTAG_TEST the device stays in ROM. -/
def beginAttempt (s0 : State) : State :=
  let p := s0.pwr
  let s := { s0 with pwr := { p with prevServed := p.served, served := false, durations := [0, 0, 0, 0, 0], startAt := s0.time, stageAt := s0.time, stage := 0 } }
  let b := bootNow s
  if s.pwr.straps.getLsbD 3 then s
  else if b.failed ≥ 3 then enterMinimal s
  else
    let s1 := bootUpdate s (fun b => { b with failed := min 255 (b.failed + 1) })
    { s1 with pwr.stage := 1, pwr.runSlot := b.next }

/-- RESETTING, then ROM and an attempt; `reset` is what the passage resets. -/
def restart (s : State) (reset : State → State) (after : State → State) : State :=
  beginAttempt (after (setState (reset (setState s stResetting)) stRom))

/-- Writes that the channel controllers have accepted complete; reads that wait there are lost (R414). -/
def acceptedWrites (s : State) : State :=
  ((s.mem.fastMap.map (fun c => (Tier.fast, c))) ++ (s.mem.capMap.map (fun c => (Tier.cap, c)))).foldl (fun s e =>
    (chanOf s e.1 e.2).queue.foldl (fun s w => if w.data.isSome then accessNow s w else s)
      (setChan s e.1 e.2 { chanOf s e.1 e.2 with queue := [] })) s

/-- A warm reset (R384, R414); `fastKind` says that its kind may take the fast path (R391). -/
def warmReset (s : State) (conf fastKind : Bool) : State :=
  restart (acceptedWrites s) (fun s => deviceReset s false conf) (fun s => { s with pwr.warmKind := fastKind })

/-- What a failed start resets: the units it brought up, and the claims that the device made for them (R87). It is none of the resets of
R384, so Inkwell's registers, rings and the functions' claims and the ruling stand (log 44). -/
def failReset (s : State) : State :=
  { deviceReset s false true with
    rul := s.rul
    ink := { s.ink with fwMajor := 0, fwMinor := 0, variant := 0, ifver := 0, claims := s.ink.claims.filter (fun h => h.owner != 0xFE) } }

/-- The stage number of R386 and R400: 0 for ROM. -/
def stageNo (s : State) : Nat :=
  match s.pwr.stage with
  | 1 => if s.ink.state = stRom then 0 else 1
  | 2 => 2
  | 3 => 3
  | 4 => 3
  | 5 => 3
  | 6 => 4
  | 7 => 5
  | _ => 0

def msSince (s : State) (t : Nat) : Nat := (s.time - t) / (65536 * 1000000)

/-- The start record of a failed start, and the slot of the next attempt (R400, R401). -/
def recordFailure (s : State) (status unit : Nat) : State :=
  let r : StartRec :=
    { stamp := stamp s, slot := s.pwr.runSlot, stage := stageNo s, status := BitVec.ofNat 16 status,
      detail := BitVec.ofNat 16 (stageNo s + 16 * (unit % 2048)), ms := msSince s s.pwr.startAt, seq := (bootNow s).seq }
  bootUpdate s (fun b => { b with starts := (r :: b.starts).take 4, next := 1 - s.pwr.runSlot })

/-- A failed start: its record, its reason, and at once a new attempt (R386). -/
def failStart (s : State) (status unit : Nat) : State :=
  let detail := stageNo s + 16 * (unit % 2048)
  restart (recordFailure s status unit) failReset (fun s => faultAll { s with pwr.warmKind := false } status detail)

/-! ### Stage 1: the image and the settings (R385, R399, R401, R405, R409) -/

/-- IMAGE_VERIFIED: the slot of the attempt, or the other where its image fails; `sigA` and `sigB` are the signatures' outcomes. -/
def imageVerified (s : State) (sigA sigB : Bool) : State :=
  if s.ink.state ≠ stRom ∨ s.pwr.stage ≠ 1 then s
  else
    let sig (i : Nat) : Bool := if i = 0 then sigA else sigB
    let a := s.pwr.runSlot
    let o := 1 - a
    if imageVerifies s a (sig a) then setState s stLoading
    else
      let s1 := bootUpdate { s with pwr.runSlot := o } (fun b => { b with next := o })
      if imageVerifies s o (sig o) then setState s1 stLoading
      else enterMinimal (faultAll (recordFailure s1 St.imageInvalid 0) St.imageInvalid 0)

def execImageVerified (sigA sigB : Bool) (s : State) : Host.Outcome State Fault Refusal := .next (imageVerified s sigA sigB)

def optionalIds : List Nat := [secBringup, secLinks, secGroup, secMgmt]

/-- The first mandatory section that cannot be read. -/
def missingMandatory (s : State) : Option Nat := [secIdentity, secLicences, secDefect].find? (fun id => (readSection s id).isNone)

/-- The section that is not KEPT becomes so. -/
def keepSection (id : Nat) (y : Section) : Section := if y.id = id then { y with kept := true } else y

/-- An optional section that cannot be read: its bytes are kept under KEPT, and SETTINGS_DEGRADED is posted (R405). -/
def degradeSection (s : State) (id : Nat) : State :=
  match readSection s id with
  | some _ => s
  | none =>
    let found := findSection (storeSections s) id
    let s1 := match found with
      | some x =>
        if x.kept then s
        else writeStore s ((storeSections s).map (keepSection id))
      | none => s
    post (openFault { s1 with pwr.degraded := s1.pwr.degraded ++ [id] } St.settingsDegraded) 0x0B02 0xFF
      (leBytes 2 id ++ leBytes 2 (match found with | some x => x.ver | none => 0)) false

/-- The body in service: the readable section's, or the default (R404). -/
def serviceBody (s : State) (id : Nat) : List Byte :=
  match readSection s id with
  | some x => x.body
  | none => if id = secBringup then [0, 1] else if id = secLinks then ((List.range 16).map (fun l => linkRecord l {})).flatten else []

/-- The records of a store that pass R408 at a start. -/
def loadLicences (s : State) : List Licence :=
  match splitLicences 8 (serviceBody s secLicences) with
  | some l => l.map (parseLicence (licenceGood s))
  | none => []

def loadGroup (s : State) : Option Group := let b := serviceBody s secGroup; if b.isEmpty then none else some (parseGroup b)

/-- The sections in service take effect. -/
def applySettings (s : State) : State :=
  let up := serviceBody s secBringup
  let links := serviceBody s secLinks
  let map := match readSection s secDefect with | some x => parseDefect x.ver x.body | none => {}
  let s1 := { s with
    pwr.licences := loadLicences s
    pwr.defect := map
    pwr.coldSampled := fieldN up 0 1 == 1
    pwr.fastPathOn := bit (fieldN up 1 1) 0
    duc.group := loadGroup s
    duc.links := (List.range 16).map (fun l => (l, { linkOf s l with cfg := parseLinkCfg (slice links (16 * l) 16) })) }
  let s2 := if s1.duc.group.isSome then { s1 with rul.master := ownIndex s1 } else s1
  let hdr := slotBytes s2 s2.pwr.runSlot
  { s2 with
    ink.fwMajor := BitVec.ofNat 8 (fieldN hdr 2 1), ink.fwMinor := BitVec.ofNat 8 (fieldN hdr 3 1), ink.ifver := 0x00020004#32
    ink.variant := BitVec.ofNat 4 ((licenceLimit s2 1).getD 0) }

/-- LOADING ends: BRINGUP, or a failed start. -/
def loadingEnds (s : State) : State :=
  match missingMandatory s with
  | some id => failStart s St.settingsIncompatible id
  | none =>
    let s1 := applySettings (optionalIds.foldl degradeSection s)
    setState { s1 with pwr.stage := 2 } stBringup

/-! ### Stage 2: the bridge (R392) -/

/-- Whether the domain of a unit is lost for this start (R382, R392). `d` is the domain of the recto side. -/
def dieLost (s : State) (d die : Nat) : Bool := s.pwr.dead.getLsbD (d + die)

def memLost (s : State) (t : Tier) (u : Nat) : Bool := dieLost s (match t with | .fast => 5 | .cap => 7) (unitDie t u)

def linkLost (s : State) (l : Nat) : Bool := dieLost s 3 (l / 8)

def quadLost (s : State) (q : Nat) : Bool := s.pwr.dead.getLsbD (9 + q)

/-- The domains of the verso die. -/
def versoDomains : BitVec 16 := 0x9950

/-- Stage 2 ends; a bridge that fails its known-answer run loses the verso die. -/
def bridgeEnds (s : State) (r : StageReport) : State :=
  if r.bridge then { s with pwr.stage := 3 }
  else { s with pwr.stage := 3, pwr.dead := s.pwr.dead ||| versoDomains, pwr.degMask := s.pwr.degMask ||| 0x40 }

/-! ### Stage 3a: training (R92 to R95, R154, R392, R394) -/

def unitNo (t : Tier) (u : Nat) : Nat := match t with | .fast => u | .cap => 8 + u

def allMemUnits : List (Tier × Nat) := (List.range 8).map (fun u => (Tier.fast, u)) ++ (List.range 16).map (fun u => (Tier.cap, u))

def foundUnit (r : StageReport) (t : Tier) (u : Nat) : Option MemUnit := match t with | .fast => mfind r.sites u | .cap => mfind r.ports u

/-- Map-outs, marks and lane repairs of a unit are cleared (R394). -/
def clearUnit (d : Defect) (t : Tier) (u : Nat) : Defect :=
  let other (c : Nat) : Bool := chanUnit t c != u
  match t with
  | .fast => { d with fastOut := d.fastOut.filter other, fastMark := d.fastMark.filter other, repairs := d.repairs.filter (fun r => other r.1) }
  | .cap => { d with capOut := d.capOut.filter other, capMark := d.capMark.filter other }

/-- A unit's signature is read; one that differs, or a unit that DEFECT_MAP_CLEAR named, begins afresh. -/
def readSignature (s : State) (r : StageReport) (d : Defect) (t : Tier) (u : Nat) : Defect :=
  if memLost s t u then d
  else
    let sig := match foundUnit r t u with | some m => m.signature | none => 0
    let k := unitNo t u
    let d1 := if sig ≠ mget 0 d.sigs k ∨ s.pwr.clearUnits.contains k then clearUnit d t u else d
    { d1 with sigs := if sig = 0 then mdel d1.sigs k else mput d1.sigs k sig }

/-- Every signature equals the one in the defect map (R391). -/
def signaturesEqual (s : State) (r : StageReport) : Bool :=
  allMemUnits.all (fun e =>
    memLost s e.1 e.2 || (match foundUnit r e.1 e.2 with | some m => m.signature | none => 0) == mget 0 s.pwr.defect.sigs (unitNo e.1 e.2))

def addOut (d : Defect) (t : Tier) (c : Nat) : Defect :=
  let add (l : List Nat) : List Nat := if l.contains c then l else l ++ [c]
  match t with
  | .fast => { d with fastOut := add d.fastOut }
  | .cap => { d with capOut := add d.capOut }

/-- Nominal channels of a unit's kind (R91, R94). -/
def nominalChans (t : Tier) (kind : Nat) : Nat :=
  match t with
  | .fast => if kind = 2 then 32 else if kind = 1 then 16 else 0
  | .cap => if kind = 1 then 6 else if kind = 2 then 8 else 0

/-- The expander of a capacity channel (R202). -/
def capExpander (r : StageReport) (c : Nat) : Nat :=
  let port := c / 8
  let pair := port / 2
  let rcm (p : Nat) : Bool := match mfind r.ports p with | some m => m.kind == 1 | none => false
  64 + 3 * pair + (if rcm (2 * pair) && rcm (2 * pair + 1) then (6 * (port % 2) + c % 8) / 4 else c % 3)

/-- Channels that R202 assigns to an expander. -/
def expanderChans (r : StageReport) (e : Nat) : List (Tier × Nat) :=
  if e < 64 then (List.range 4).map (fun i => (Tier.fast, 4 * e + i))
  else
    let pair := (e - 64) / 3
    (((List.range 16).map (fun i => 16 * pair + i)).filter (fun c =>
      capExpander r c == e && decide (c % 8 < nominalChans .cap (match mfind r.ports (c / 8) with | some m => m.kind | none => 0)))).map
        (fun c => (Tier.cap, c))

/-- The defect map after stage 3a: signatures, marks, training and the known-answer runs of adders and expanders. -/
def trainedMap (s : State) (r : StageReport) : Defect :=
  let d1 := allMemUnits.foldl (fun d e => readSignature s r d e.1 e.2) s.pwr.defect
  let d2 := (d1.fastMark.map (fun c => (Tier.fast, c)) ++ d1.capMark.map (fun c => (Tier.cap, c))).foldl (fun d e => addOut d e.1 e.2) d1
  let d3 := { d2 with fastMark := [], capMark := [], expOut := d2.expOut ++ (r.expanders.filter (fun e => !d2.expOut.contains e)),
                      repairs := (d2.repairs ++ r.repairs).take 1024 }
  (r.trainFail ++ r.adders ++ (r.expanders.map (expanderChans r)).flatten).foldl (fun d e => addOut d e.1 e.2) d3

/-- FAST_RECTO to CAP_VERSO. -/
def memBits : BitVec 16 := 0x1E0

/-- Domains of the memory units that satisfy `p` (R382). -/
def unitDomains (p : Tier → Nat → Bool) : Nat :=
  let on (t : Tier) (die : Nat) : Bool := allMemUnits.any (fun (e : Tier × Nat) => e.1 == t && unitDie t e.2 == die && p t e.2)
  b2n (on .fast 0) * 32 + b2n (on .fast 1) * 64 + b2n (on .cap 0) * 128 + b2n (on .cap 1) * 256

/-- Stage 3a ends: the domains of the units that it found are on; on the fast path stage 3b is skipped (R391). -/
def trainingEnds (s : State) (r : StageReport) : State :=
  let fast := s.pwr.warmKind && s.pwr.fastPathOn && s.pwr.prevServed && !s.pwr.touched && signaturesEqual s r
  let engines := !r.adders.isEmpty || !r.expanders.isEmpty
  { s with
    pwr.domains := s.pwr.domains ||| BitVec.ofNat 16 (unitDomains (fun t u => (foundUnit r t u).isSome && !memLost s t u))
    pwr.defect := trainedMap s r, pwr.report := r, pwr.fast := fast, pwr.clearUnits := [], pwr.stage := if fast then 5 else 4
    pwr.degMask := if engines then s.pwr.degMask ||| 8 else s.pwr.degMask }

/-! ### Stage 3b: the memory test (R389, R471) -/

def testEnds (s : State) (r : StageReport) : State :=
  let bad := r.test.filter (fun e => decide (e.2.2.2 > 0) || decide (e.2.2.1 > if s.pwr.coldSampled then 64 else 1024))
  { s with
    pwr.defect := bad.foldl (fun d e => addOut d e.1 e.2.1) s.pwr.defect, pwr.stage := 5
    mem.fill := if s.pwr.coldSampled then .sampled else .march
    mem.chanFill := [], mem.cells := [] }

/-! ### Stage 3c: the maps (R81, R92, R95, R103, R106, R124, R157, R394) -/

/-- GiB used for data: at most the first 256, and 15/16 of them on a plain CAMM2 (R95, R145). -/
def usedGib (t : Tier) (m : MemUnit) : Nat :=
  match t with
  | .fast => m.gib
  | .cap => if m.kind = 2 then min m.gib 256 * 15 / 16 else min m.gib 256

/-- Bytes used for data. -/
def usedBytes (t : Tier) (m : MemUnit) : Nat :=
  match t with
  | .fast => m.gib * 2 ^ 30
  | .cap => if m.kind = 2 then min m.gib 256 * 2 ^ 30 * 15 / 16 else min m.gib 256 * 2 ^ 30

def chansLeft (d : Defect) (t : Tier) (u kind : Nat) : List Nat :=
  let out := match t with | .fast => d.fastOut | .cap => d.capOut
  ((List.range (nominalChans t kind)).map (fun i => (match t with | .fast => 32 | .cap => 8) * u + i)).filter (fun c => !out.contains c)

/-- Channels that a unit may lose before it is refused (R157). -/
def lossLimit (t : Tier) (kind : Nat) : Nat := match t with | .fast => if kind = 2 then 8 else 4 | .cap => 2

/-- The generations of a site pair differ, and this is its odd site (R92). -/
def pairClash (r : StageReport) (t : Tier) (u : Nat) : Bool :=
  t == .fast && u % 2 == 1 &&
    match mfind r.sites (u - 1), mfind r.sites u with
    | some a, some b => a.kind != b.kind
    | _, _ => false

/-- Why a fitted unit is refused. -/
def refusal (r : StageReport) (d : Defect) (t : Tier) (u : Nat) (m : MemUnit) : Option Nat :=
  if pairClash r t u then some St.pairMismatch
  else if t = .cap ∧ m.kind ≠ 1 ∧ m.kind ≠ 2 then some St.moduleRefused
  else if nominalChans t m.kind - (chansLeft d t u m.kind).length > lossLimit t m.kind then some St.channelsMappedOut
  else none

/-- A unit after bring-up. -/
def builtUnit (s : State) (t : Tier) (u : Nat) : UnitState :=
  if memLost s t u then {}
  else
    match foundUnit s.pwr.report t u with
    | none => {}
    | some m =>
      match refusal s.pwr.report s.pwr.defect t u m with
      | some _ => { kind := m.kind, refused := true }
      | none => { kind := m.kind, gib := usedGib t m, gran := usedBytes t m / nominalChans t m.kind / 256,
                  chans := chansLeft s.pwr.defect t u m.kind }

/-- MEM_POPULATION for a refused or truncated unit (R124). -/
def postPopulation (s : State) (t : Tier) (u : Nat) : State :=
  if memLost s t u then s
  else
    match foundUnit s.pwr.report t u with
    | none => s
    | some m =>
      let say (reason gib : Nat) : State :=
        post s 0x0301 0xFF (leBytes 2 reason ++ [BitVec.ofNat 8 (tierNum t), BitVec.ofNat 8 u] ++ leBytes 4 gib) false
      match refusal s.pwr.report s.pwr.defect t u m with
      | some reason => say reason 0
      | none => if t = .cap ∧ m.gib > 256 then say St.moduleTruncated (usedGib t m) else s

/-- A channel mapped out at this start that the previous start had mapped in (R396): its unit was there, and the stored map had it in. -/
def lostChannel (s : State) (old : Defect) : Bool :=
  let was (t : Tier) (c : Nat) : Bool :=
    mget 0 old.sigs (unitNo t (chanUnit t c)) != 0 && !((match t with | .fast => old.fastOut | .cap => old.capOut).contains c)
  s.pwr.defect.fastOut.any (was .fast) || s.pwr.defect.capOut.any (was .cap) ||
    allMemUnits.any (fun e => memLost s e.1 e.2 && mget 0 old.sigs (unitNo e.1 e.2) != 0)

/-- Spare lanes in use by the repairs of each fast channel (R154). -/
def withSpares (s : State) : State :=
  s.pwr.defect.repairs.foldl (fun s r => setChan s .fast r.1 { chanOf s .fast r.1 with spares := (chanOf s .fast r.1).spares + 1 }) s

/-- Domains of the memory units that are used (R382). -/
def memDomains (s : State) : Nat := unitDomains (fun t u => !(unitOf s t u).chans.isEmpty)

/-- Links begin to train; those of a lost die, and those whose settings lack ENABLE, do not (R350). -/
def startLinks (s : State) : State :=
  (List.range 16).foldl (fun s l =>
    if !(linkOf s l).cfg.enable then s else if linkLost s l then disable s l 0x20 else trainStart s l 0) s

/-- Stage 3c ends: units, maps, region tables and the defect map written. -/
def mapsEnd (s : State) : State :=
  let old := match readSection s secDefect with | some x => parseDefect x.ver x.body | none => {}
  let sites := ((List.range 8).map (fun u => (u, builtUnit s .fast u))).filter (fun e => e.2.kind != 0)
  let ports := ((List.range 16).map (fun u => (u, builtUnit s .cap u))).filter (fun e => e.2.kind != 0)
  let s1 := { s with
    mem.sites := sites, mem.ports := ports
    mem.fastMap := (sites.map (fun (e : Nat × UnitState) => e.2.chans)).flatten, mem.capMap := (ports.map (fun (e : Nat × UnitState) => e.2.chans)).flatten
    mem.fastRegions := {}, mem.capRegions := {} }
  let s2 := { s1 with mem.fastRegions := { h := largestK s1 .fast }, mem.capRegions := { h := largestK s1 .cap } }
  let refused := sites.any (fun e => e.2.refused) || ports.any (fun e => e.2.refused)
  let s3 := withSpares { s2 with
    pwr.degMask := s2.pwr.degMask ||| (if refused then 2 else 0) ||| (if lostChannel s2 old then 4 else 0)
    pwr.domains := (s2.pwr.domains &&& ~~~ memBits) ||| BitVec.ofNat 16 (memDomains s2) ||| ((24 : BitVec 16) &&& ~~~ s2.pwr.dead) }
  let s4 := storeDefect (allMemUnits.foldl (fun s e => postPopulation s e.1 e.2) s3)
  startLinks { s4 with pwr.stage := 6 }

/-! ### Stage 4: links (R388, R460) -/

def linksEnd (s : State) (r : StageReport) : State :=
  let s1 := r.linkFail.foldl (fun s e => if e.1 < 16 ∧ (linkOf s e.1).st ≠ lkDisabled then disable s e.1 e.2 else s) s
  { s1 with pwr.stage := 7 }

/-- Links still training at the limit become DISABLED. -/
def linksTimeout (s : State) : State :=
  let s1 := (List.range 16).foldl (fun s l => if (linkOf s l).st = lkTraining then disable s l 0x20 else s) s
  { s1 with pwr.stage := 7 }

/-! ### Stage 5: cores, readiness (R229, R386, R392, R395, R396, R401) -/

/-- Good physical cores of a quadrant, by number. -/
def goodCores (s : State) (q : Nat) : List Nat :=
  if quadLost s q then [] else ((List.range 40).map (40 * q + ·)).filter (fun c => !s.pwr.defect.coresOut.contains c)

/-- The quadrant that takes the next logical core: of those with room, the one with fewest, and of these the lowest. -/
def nextQuad (room : List Nat) (got : List Nat) : Option Nat :=
  let open_ := (List.range 4).filter (fun q => decide (got.getD q 0 < room.getD q 0))
  (sortBy (fun a b => decide (got.getD a 0 < got.getD b 0) || (got.getD a 0 == got.getD b 0 && decide (a < b))) open_).head?

/-- Logical counts of the quadrants, as even as the good cores permit (R229). -/
def spread (room : List Nat) : Nat → List Nat → List Nat
  | 0, got => got
  | k + 1, got =>
    match nextQuad room got with
    | some q => spread room k (got.set q (got.getD q 0 + 1))
    | none => got

def logicalMap (s : State) : List Nat :=
  let good := (List.range 4).map (goodCores s)
  let counts := spread (good.map (fun l => min 36 l.length)) (Config.licensedCores s.ink.variant.toNat) [0, 0, 0, 0]
  ((List.range 4).map (fun q => (good.getD q []).take (counts.getD q 0))).flatten

def acceptedUnits (s : State) (t : Tier) : Nat := (allMemUnits.filter (fun e => e.1 == t && !(unitOf s t e.2).chans.isEmpty)).length

/-- R395. -/
def serviceable (s : State) (r : StageReport) : Bool :=
  let fastN := acceptedUnits s .fast
  r.serving && !s.pwr.dead.getLsbD 13 && !s.pwr.dead.getLsbD 1 && !s.pwr.dead.getLsbD 2 && decide (s.pwr.pipes ≥ 1) &&
    (List.range 4).any (fun q => decide ((goodCores s q).length ≥ 16)) &&
    (decide (fastN ≥ 2) || (decide (fastN ≥ 1) && decide (acceptedUnits s .cap ≥ 2)))

/-- A link enabled in its settings is DISABLED with TRAIN_FAIL, BER or LATENCY. -/
def linkDegraded (s : State) : Bool :=
  (List.range 16).any (fun l => let x := linkOf s l; x.cfg.enable && x.st == lkDisabled && [0x20, 0x21, 0x22].contains x.reason)

/-- Cores, pipes and the logical core map; the partitions of R231. -/
def buildCores (s : State) (r : StageReport) : State :=
  let d := s.pwr.defect
  let cores := r.kat.filter (fun c => !d.coresOut.contains c)
  let pipes := r.pipes.filter (fun c => !d.pipesOut.contains c)
  let s1 := { s with
    pwr.defect := { d with coresOut := d.coresOut ++ cores, pipesOut := d.pipesOut ++ pipes }
    pwr.pipes := 8 - (d.pipesOut ++ pipes).length
    pwr.degMask := if cores.isEmpty && pipes.isEmpty then s.pwr.degMask else s.pwr.degMask ||| 8 }
  let s2 := if cores.isEmpty && pipes.isEmpty then s1 else storeDefect s1
  let map := logicalMap s2
  let quads := (List.range 4).filter (fun q => map.any (fun c => c / 40 == q))
  { s2 with
    cpu.map := map, cpu.bad := [], cpu.parts := [(0, { mask := BitVec.ofNat 4 (maskOf quads) })]
    pwr.domains := s2.pwr.domains ||| ((BitVec.ofNat 16 (8192 + 49152 + 512 * maskOf quads)) &&& ~~~ s2.pwr.dead) }

/-- The boot record of an attempt that ends: the count is cleared, and a start in service confirms its slot. -/
def bootDone (s : State) (inService : Bool) : State :=
  bootUpdate s (fun b =>
    if inService then
      { b with failed := 0, active := s.pwr.runSlot, pending := 0xFF, minSec := max b.minSec (imageVersion (slotBytes s s.pwr.runSlot)) }
    else { b with failed := 0 })

/-- Stage 5 ends the start (R396). -/
def startEnds (s0 : State) (r : StageReport) : State :=
  let s := buildCores s0 r
  let n := coreCount s
  let licensed := s.ink.variant.toNat ≠ 0
  let mask := s.pwr.degMask ||| (if n < Config.licensedCores s.ink.variant.toNat then 1 else 0) ||| (if linkDegraded s then 16 else 0)
  let reason := if !serviceable s r then some St.belowServiceable else if licensed then none else some St.licenceInvalid
  let st := if reason.isSome then stDiagnostic else if mask = 0 then stReady else stDegraded
  let s1 := bootDone { s with pwr := { s.pwr with stage := 0, degMask := mask, served := reason.isNone, touched := false } } reason.isNone
  let s2 := match reason with | some k => openFault s1 k | none => s1
  post (setState s2 st) 0x0B01 0xFF
    ([BitVec.ofNat 8 st.toNat, BitVec.ofNat 8 mask.toNat] ++ leBytes 2 n ++ leBytes 4 s2.pwr.durations.sum ++ leBytes 2 (reason.getD 0)) false

/-! ### The rows -/

/-- The time that the stage under way has taken joins the duration of its number, and the next stage begins (R388, R419). -/
def addDuration (s : State) : State :=
  let i := stageNo s - 1
  { s with pwr.durations := s.pwr.durations.set i (s.pwr.durations.getD i 0 + msSince s s.pwr.stageAt), pwr.stageAt := s.time }

/-- The limit of the stage under way, in ms (R388). -/
def stageLimit (s : State) : Nat :=
  match s.pwr.stage with
  | 1 => 10000
  | 2 => 5000
  | 3 => 30000
  | 4 => if s.pwr.coldSampled then 180000 else 720000
  | 5 => 5000
  | 6 => 15000
  | _ => 10000

/-- BRINGUP_STAGE_END (R388). Stage 1 ends out of LOADING; ROM's part of it is IMAGE_VERIFIED. -/
def execBringupStageEnd (r : StageReport) (s : State) : Host.Outcome State Fault Refusal :=
  .next (
    if s.ink.state = stLoading then loadingEnds (addDuration s)
    else if s.ink.state = stBringup then
      let s1 := addDuration s
      match s.pwr.stage with
      | 2 => bridgeEnds s1 r
      | 3 => trainingEnds s1 r
      | 4 => testEnds s1 r
      | 5 => mapsEnd s1
      | 6 => linksEnd s1 r
      | 7 => startEnds s1 r
      | _ => s
    else s)

/-- STAGE_TIMEOUT: the start fails, except that stage 4 ends (R388). -/
def execStageTimeout (s : State) : Host.Outcome State Fault Refusal :=
  .next (
    if s.pwr.stage = 0 ∨ msSince s s.pwr.stageAt < stageLimit s then s
    else if s.pwr.stage = 6 then linksTimeout s
    else failStart s St.stageTimeout 0)

end Sys2Proof.Machine
end

