-- ==== Sys2Proof/Machine/Power.lean ====
section
/-! DEFINITION. Pins, resets, faults, package power, compute resets, the Cap state and the commands of R419 about them (R382 to R385,
R410 to R417, R458, R466). -/
namespace Sys2Proof.Machine

/-! ### Pins and resets (R384, R458, R462, R466) -/

/-- The device is held: AON_RESET_N is low, or THERM_TRIP_N has fallen and only a cold start restarts it (R466). -/
def held (s : State) : Bool := !s.pwr.aonHigh || s.pwr.tripN

/-- Every domain is held in reset (R414, R458). -/
def holdReset (s : State) (domains : BitVec 16) : State :=
  let s1 := deviceReset s true false
  { s1 with ink.state := stResetting, pwr.domains := domains, pwr.stage := 0, pwr.served := false }

/-- AON_RESET_N falls. -/
def execAonResetNAssert (s : State) : Host.Outcome State Fault Refusal :=
  .next (if s.pwr.aonHigh then { holdReset s 0 with pwr.aonHigh := false, pwr.hostLink := false } else s)

/-- AON_RESET_N rises: the straps are latched and a cold start begins (R458, R462). -/
def coldStart (s : State) (straps : BitVec 4) : State :=
  let s1 := deviceReset s true false
  let p := { s1.pwr with
    aonHigh := true, tripN := false, straps := straps, hostLink := s.pwr.perstHigh, warmKind := false, clock := 1600, powerClock := 1600
    heatClock := 1600, watts := [], calm := 0, coolMs := 0, testIr := 0, testDr := 0, mgmt := [] }
  beginAttempt { s1 with ink.state := stRom, pwr := p }

def execAonResetNRelease (straps : BitVec 4) (s : State) : Host.Outcome State Fault Refusal :=
  .next (if s.pwr.aonHigh then s else coldStart s straps)

/-- PERST_N falls: a warm reset, unless the device is held (R458). -/
def execPerstNFall (s : State) : Host.Outcome State Fault Refusal :=
  .next (
    if !s.pwr.perstHigh then s
    else
      let s1 := { s with pwr.perstHigh := false }
      if held s then s1 else warmReset { s1 with pwr.hostLink := false } false true)

/-- PERST_N rises: the host link trains. -/
def execPerstNRelease (s : State) : Host.Outcome State Fault Refusal :=
  .next { s with pwr.perstHigh := true, pwr.hostLink := s.pwr.hostLink || !held s }

/-- A hot reset or link down begins a warm reset; the host link trains again. -/
def execConventionalReset (s : State) : Host.Outcome State Fault Refusal :=
  .next (if held s || !s.pwr.hostLink then s else warmReset s false true)

/-- Loss of supply: nothing is kept but the SPI NOR, and AON_RESET_N is low until the next cold start (R414, R458). -/
def execSupplyLoss (s : State) : Host.Outcome State Fault Refusal :=
  .next { holdReset s 0 with pwr.aonHigh := false, pwr.perstHigh := false, pwr.hostLink := false, pwr.tripN := false }

/-! ### Faults (R382, R385, R449) -/

/-- Whether a domain is being switched on: in a start until its stage has found it on, its quadrant in a compute reset, or in a wake from
the Cap state (R382, R410, R417). -/
def switching (s : State) (domain : Nat) : Bool :=
  (s.pwr.stage != 0 && (domain ≤ 2 || !s.pwr.domains.getLsbD domain)) ||
    (!s.pwr.domains.getLsbD domain && ((decide (9 ≤ domain) && decide (domain ≤ 12) && mget false s.cpu.resetting (domain - 9)) ||
      (s.ink.state == stCapped && s.pwr.capWaking)))

/-- DOMAIN_POWER_TIMEOUT: a domain that does not report power good within 10 ms is left off for this start (R382). -/
def execDomainPowerTimeout (domain : Nat) (s : State) : Host.Outcome State Fault Refusal :=
  .next (
    if domain = 0 ∨ domain > 15 ∨ !switching s domain then s
    else
      let b := BitVec.ofNat 16 (2 ^ domain)
      { s with pwr.dead := s.pwr.dead ||| b, pwr.domains := s.pwr.domains &&& ~~~ b })

/-- Logical cores of quadrants whose domain stayed off, not yet left out. -/
def lostCores (s : State) : List Nat :=
  (List.range (coreCount s)).filter (fun n => quadLost s (coreQuad s n) && !s.cpu.bad.contains n)

/-- Channels in service of units whose domain stayed off. -/
def lostChans (s : State) : List (Tier × Nat) :=
  ((allMemUnits.filter (fun e => memLost s e.1 e.2)).map (fun e =>
    ((unitOf s e.1 e.2).chans.filter (fun c => !(chanOf s e.1 c).failed)).map (fun c => (e.1, c)))).flatten

/-- Every unit of a domain that stayed off in service is treated as failed for this start: its cores are left out and its channels FAILED
(R382). -/
def failLost (s : State) : State :=
  (lostChans s).foldl (fun s e => failChannel s e.1 e.2) { s with cpu.bad := s.cpu.bad ++ lostCores s }

/-- Entry to FAULTED from a state in service (R385). -/
def enterFaulted (s : State) (cause : Nat) : State :=
  if serving s || s.ink.state == stDiagnostic then
    let s1 := openFault (freeze s 0xFF cause) St.deviceFault
    setState { s1 with pwr.faulted := (stamp s1, BitVec.ofNat 16 St.deviceFault, (func s1 0).detail) } stFaulted
  else s

def execEnterFaulted (s : State) : Host.Outcome State Fault Refusal := .next (enterFaulted s 3)

/-- SCRIBE_WATCHDOG: 2 s without progress. -/
def execScribeWatchdog (s : State) : Host.Outcome State Fault Refusal :=
  .next (if s.ink.state = stBringup then failStart s St.scribeFault 0 else enterFaulted s 4)

/-! ### Package power and die heat (R383, R466) -/

/-- Mean of the samples held, W. -/
def meanPower (s : State) : Nat := if s.pwr.watts.isEmpty then 0 else s.pwr.watts.sum / s.pwr.watts.length

def clockDown (c : Nat) : Nat := max Config.clockMin (c - 100)
def clockUp (c : Nat) : Nat := min Config.clockMax (c + 100)

/-- The clock in force is the lower of the two choices; each change posts POWER_LIMIT. -/
def setClock (s : State) (p : Power) : State :=
  let c := min p.powerClock p.heatClock
  let s1 := { s with pwr := { p with clock := c } }
  if c = s.pwr.clock then s1 else post s1 0x0B03 0xFF (leBytes 2 c ++ leBytes 2 (min 65535 (meanPower s1))) true

/-- POWER_SAMPLE (R383): judged once 10 samples are held, against the limit of the variant in force. -/
def powerSample (s : State) (watts : Nat) : State :=
  let l := (watts :: s.pwr.watts).take 10
  let p := { s.pwr with watts := l }
  let limit := Config.powerLimit s.ink.variant.toNat
  if limit = 0 ∨ l.length < 10 then { s with pwr := p }
  else if l.sum > 10 * limit then setClock s { p with powerClock := clockDown p.powerClock, calm := 0 }
  else if 100 * l.sum < 950 * limit then
    if p.calm + 1 ≥ 10 then setClock s { p with powerClock := clockUp p.powerClock, calm := 0 } else { s with pwr := { p with calm := p.calm + 1 } }
  else { s with pwr := { p with calm := 0 } }

def execPowerSample (watts : Nat) (s : State) : Host.Outcome State Fault Refusal := .next (if held s then s else powerSample s watts)

/-- JUNCTION_SAMPLE (R466). -/
def junctionSample (s : State) (c : Nat) : State :=
  let p := s.pwr
  if c ≥ 125 then { holdReset s 1 with pwr.tripN := true, pwr.hostLink := false }
  else if c > 105 then setClock s { p with heatClock := clockDown p.heatClock, coolMs := 0 }
  else if c ≤ 100 then
    if p.coolMs + 1 ≥ 10 then setClock s { p with heatClock := clockUp p.heatClock, coolMs := 0 } else { s with pwr := { p with coolMs := p.coolMs + 1 } }
  else { s with pwr := { p with coolMs := 0 } }

def execJunctionSample (maxC : Nat) (s : State) : Host.Outcome State Fault Refusal := .next (if held s then s else junctionSample s maxC)

/-! ### Compute resets (R410 to R413) -/

def partQuads (s : State) (p : Nat) : List Nat := (List.range 4).filter (fun q => (partOf s p).mask.getLsbD q)

/-- A core under reset stops: its store queue is discarded with a fault record, and what would return to it is dropped (R412). -/
def stopCore (s : State) (n : Nat) : State :=
  let c := coreOf s n
  let (p, q) := c.job.getD ((corePart s n).getD 0, 0)
  let s1 := if c.stores.isEmpty then s
    else
      let (w, s1) := freeWord s
      spoilStores (logCoreFault s1 n p q c.pc St.destReset 0x08 w.toNat c.stores) c.stores
  let s2 := { s1 with
    fold.reqs := s1.fold.reqs.filter (fun e => match e.2.dest with | .scratch m _ => m != n | .memory _ => true)
    duc.remotes := s1.duc.remotes.filter (fun r => r.use != .coreContrib n && r.use != .coreSignal n && r.use != .coreWrite n &&
      (match r.use with | .coreRead m _ => m != n | _ => true)) }
  setCore s2 n { spadGen := c.spadGen, spad := c.spad, spoison := c.spoison, run := .reset }

/-- Waits of agents outside the quadrants on their tallies complete with DEST_RESET (R411). -/
def endTallyWaits (s : State) (quads : List Nat) : State :=
  let hit (t : Nat) : Bool := quads.contains (tallyQuad t)
  let s1 := (s.cpu.waiters.filter (fun w => hit w.tally)).foldl (fun s w => endQueueWait s w 2) s
  s1.cpu.cores.foldl (fun s e =>
    match e.2.twait with
    | some w => if hit w.tally && !quads.contains (coreQuad s e.1) then
        coreFault s e.1 0x08 (some St.destReset) (some (0x0F0200000000 + 64 * w.tally)) else s
    | none => s) s1

/-- Domains of quadrants. -/
def quadBits (quads : List Nat) : BitVec 16 := BitVec.ofNat 16 (512 * maskOf quads)

/-- A compute reset of a partition begins: the Q domains switch off and on again. -/
def beginCompute (s : State) (p : Nat) : State :=
  let quads := partQuads s p
  let s1 := { s with
    cpu.resetting := quads.foldl (fun m q => mput m q true) s.cpu.resetting
    pwr.resets := s.pwr.resets ++ [p]
    pwr.domains := s.pwr.domains &&& ~~~ quadBits quads }
  let s2 := endTallyWaits ((partCores s1 p).foldl stopCore s1) quads
  let s3 := (List.range 32).foldl (fun s q => resetQueue s p q) (discardStep s2 p 28 St.destReset)
  (partCores s3 p).foldl (fun s n => setCore s n { coreOf s n with run := .reset }) s3

/-- A physical core that fails its known-answer run: its logical number goes to a free good core of the quadrant, or is left faulted.
Counts of replaced and of faulted cores are kept (R410). -/
def replaceCore (acc : State × Nat × Nat) (phys : Nat) : State × Nat × Nat :=
  let (s, replaced, left) := acc
  let d := s.pwr.defect
  let s1 := { s with pwr.defect := { d with coresOut := if d.coresOut.contains phys then d.coresOut else d.coresOut ++ [phys] } }
  match indexOf? (· == phys) s1.cpu.map with
  | none => (s1, replaced, left)
  | some n =>
    match (goodCores s1 (phys / 40)).find? (fun c => !s1.cpu.map.contains c) with
    | some c => ({ s1 with cpu.map := s1.cpu.map.set n c }, replaced + 1, left)
    | none => ({ s1 with cpu.bad := s1.cpu.bad ++ [n] }, replaced, left + 1)

/-- An unwritten core: idle, with an indeterminate scratchpad. -/
def freshCore (s : State) (n : Nat) : State := setCore s n { spadGen := (coreOf s n).spadGen + 1 }

/-- Quadrants are fresh: cores idle, scratchpads indeterminate, tallies 0, ledgers empty and open (R411, R417). -/
def freshQuads (s : State) (quads : List Nat) : State :=
  let s1 := ((List.range (coreCount s)).filter (fun n => quads.contains (coreQuad s n))).foldl freshCore s
  { s1 with
    cpu.tallies := s1.cpu.tallies.filter (fun e => !quads.contains (tallyQuad e.1))
    cpu.parts := s1.cpu.parts.map (fun e =>
      (e.1, if quads.any (fun q => e.2.mask.getLsbD q) then
          { e.2 with ledgers := e.2.ledgers.map (fun l => (l.1, { l.2 with sealed := false, descs := [] })) } else e.2)) }

/-- COMPUTE_RESET commands all of whose partitions have ended complete. -/
def computeDone (s : State) : State :=
  s.ink.running.foldl (fun s r =>
    match r.wait with
    | .computeReset mask => if (bitList 4 mask).any s.pwr.resets.contains then s else finishWait s r.wait St.ok []
    | _ => s) s

/-- COMPUTE_RESET_END: `failed` are physical cores that failed their known-answer runs. -/
def endCompute (s : State) (p : Nat) (failed : List Nat) : State :=
  let quads := partQuads s p
  let bad := failed.filter (fun c => quads.contains (c / 40))
  let (s1, replaced, left) := bad.foldl replaceCore (s, 0, 0)
  let s2 := if bad.isEmpty then s1 else storeDefect { s1 with pwr.degMask := s1.pwr.degMask ||| 8 }
  let lost := (lostCores s2).length
  let s3 := freshQuads (failLost { s2 with
    cpu.resetting := s2.cpu.resetting.filter (fun e => !quads.contains e.1)
    pwr.resets := s2.pwr.resets.filter (· != p)
    pwr.domains := s2.pwr.domains ||| (quadBits quads &&& ~~~ s2.pwr.dead) }) quads
  let s4 := if !bad.isEmpty && s3.ink.state == stReady then setState s3 stDegraded else s3
  computeDone (post s4 0x0B04 0xFF [BitVec.ofNat 8 (2 ^ p), 1, BitVec.ofNat 8 replaced, BitVec.ofNat 8 (left + lost)] false)

def execComputeResetEnd (p : Nat) (failed : List Nat) (s : State) : Host.Outcome State Fault Refusal :=
  .next (if s.pwr.resets.contains p then endCompute s p failed else s)

/-- RESET. WARM and FULL complete before the reset begins. -/
def resetBody (c : Cmd) (s : State) : Answer :=
  let kind := p8 c 0
  let mask := p8 c 1
  if kind = 1 ∨ kind = 2 then .done St.ok [] { s with pwr.resetWanted := kind }
  else
    checked
      [ (kind != 3 || mask == 0 || decide (mask > 15) || (bitList 4 mask).any (fun p => !configured s p), St.invalidField),
        ((bitList 4 mask).any s.pwr.resets.contains, St.busy) ] s
      (.wait (.computeReset mask)
        ((bitList 4 mask).foldl beginCompute (post s 0x0B04 0xFF [BitVec.ofNat 8 mask, 0, 0, 0] false)))

/-- The reset that a completed RESET asks for. -/
def afterReset (s : State) : State :=
  if s.pwr.resetWanted = 0 then s else warmReset { s with pwr.resetWanted := 0 } true (s.pwr.resetWanted == 1)

def execReset (c : Cmd) (s : State) : Host.Outcome State Fault Refusal :=
  .next (afterReset (firmware { op := 0x0B02, need := 2, vf := false } resetBody c s))

/-! ### The Cap state (R415 to R417) -/

/-- What POWER_BUSY names. -/
def capBusy (s : State) : Bool :=
  s.cpu.parts.any (fun e => e.2.queues.any (fun q => !q.2.quires.isEmpty)) ||
    s.stp.comps.any (fun e => e.2.prop.isSome || e.2.run.isSome) || !s.duc.colls.isEmpty || !s.ari.ctxs.isEmpty || !s.ari.gathers.isEmpty ||
    s.svc.test.isSome

def execPowerCapEnter (c : Cmd) (s : State) : Host.Outcome State Fault Refusal :=
  .next (firmware { op := 0x0B0E, vf := false } (fun _ s =>
    checked [(!serving s, St.wrongState), (s.pwr.capEntering, St.busy), (capBusy s, St.powerBusy)] s
      (.wait .capEnter { s with pwr.capEntering := true })) c s)

/-- Accumulators and staging caches are written back (R168, R415). -/
def writeBackAll (s : State) : State := (flushRange s 0 (2 ^ 48) true false).1

/-- Trace buffers drain: burst after burst while one makes room. -/
def drainAllTraces (s : State) : State :=
  (List.range 6).foldl (fun s i => (List.range 129).foldl (fun s _ => drainNow s i) s) s

/-- Domains that the Cap state keeps on (R382). -/
def capDomains : BitVec 16 := 0x201F

/-- CAP_ENTRY_DONE: outstanding partition commands have completed, and the drain ends. -/
def capEntryDone (s : State) : State :=
  let busy := s.ink.fetched.any (fun e => e.cmd.ring != 0) || s.ink.running.any (fun r => r.cmd.ring != 0)
  if !s.pwr.capEntering || busy then s
  else
    let s1 := drainAllTraces (writeBackAll s)
    let s2 := setState { s1 with pwr := { s1.pwr with capEntering := false, capBefore := s.ink.state, domains := s1.pwr.domains &&& capDomains,
                                                        capWaking := s1.pwr.wakeWanted, wakeWanted := false } } stCapped
    finishWait s2 .capEnter St.ok []

def execCapEntryDone (s : State) : Host.Outcome State Fault Refusal := .next (capEntryDone s)

/-- A wake: at once in the Cap state, and after entry completes during it. -/
def wake (s : State) : State :=
  if s.ink.state = stCapped then { s with pwr.capWaking := true }
  else if s.pwr.capEntering then { s with pwr.wakeWanted := true }
  else s

def execCapWakeN (s : State) : Host.Outcome State Fault Refusal := .next (wake s)

def execPowerCapExit (c : Cmd) (s : State) : Host.Outcome State Fault Refusal :=
  .next (firmware { op := 0x0B0F, vf := false } (fun _ s =>
    if s.ink.state = stCapped ∨ s.pwr.capEntering then .wait .capExit (wake s) else .done St.ok [] s) c s)

/-- CAP_WAKE_DONE: the former state, with every quadrant fresh. -/
def capWakeDone (s : State) : State :=
  if s.ink.state ≠ stCapped ∨ !s.pwr.capWaking then s
  else
    let quads := (List.range 4).filter (fun q => s.cpu.map.any (fun c => c / 40 == q))
    let on := BitVec.ofNat 16 (memDomains s + 8192 + 49152 + 512 * maskOf quads) &&& ~~~ s.pwr.dead
    let s1 := failLost (setState { freshQuads s quads with pwr := { s.pwr with capWaking := false, domains := s.pwr.domains ||| on } } s.pwr.capBefore)
    finishWait s1 .capExit St.ok []

def execCapWakeDone (s : State) : Host.Outcome State Fault Refusal := .next (capWakeDone s)

/-! ### FAULT_LOG_READ and POWER_STATUS (R400, R419) -/

def startBytes (r : StartRec) : List Byte :=
  padTo 32 (leBytes 8 r.stamp.toNat ++ [BitVec.ofNat 8 r.slot, BitVec.ofNat 8 r.stage] ++ leBytes 2 r.status.toNat ++ leBytes 2 r.detail.toNat ++
    zeros 2 ++ leBytes 4 r.ms ++ leBytes 4 r.seq)

/-- The 148 bytes of a boot record copy. -/
def bootBytes (b : Boot) : List Byte :=
  let h := leBytes 4 b.seq ++ [BitVec.ofNat 8 b.active, BitVec.ofNat 8 b.pending, BitVec.ofNat 8 b.next, BitVec.ofNat 8 b.failed] ++
    leBytes 4 b.minSec ++ zeros 4 ++ padTo 128 ((b.starts.map startBytes).flatten)
  h ++ leBytes 4 (crc32 h).toNat

def faultLog (s : State) : List Byte :=
  let (st, reason, detail) := s.pwr.faulted
  padTo 256 (padTo 152 (bootBytes (bootNow s)) ++ padTo 8 [BitVec.ofNat 8 s.pwr.degMask.toNat] ++ ((s.pwr.durations.map (leBytes 4)).flatten) ++
    zeros 4 ++ leBytes 8 st.toNat ++ leBytes 2 reason.toNat ++ leBytes 2 detail.toNat)

def execFaultLogRead (c : Cmd) (s : State) : Host.Outcome State Fault Refusal :=
  .next (firmware { op := 0x0B01, need := 8, vf := false } (fun c s => reportTo (p64 c 0) (faultLog s) [] s) c s)

/-- The mean that POWER_STATUS reports; before the first sample the manual states none, and it is a free value (log 13). -/
def reportedPower (s : State) : Nat × State :=
  if s.pwr.watts.isEmpty then (fun (e : BitVec 64 × State) => (e.1.toNat % 65536, e.2)) (freeWord s) else (min 65535 (meanPower s), s)

def execPowerStatus (c : Cmd) (s : State) : Host.Outcome State Fault Refusal :=
  .next (firmware { op := 0x0B10, vf := false } (fun _ s =>
    let (w, s1) := reportedPower s
    .done St.ok (leBytes 2 s1.pwr.domains.toNat ++ leBytes 2 s1.pwr.clock ++ leBytes 2 w ++ leBytes 2 (Config.powerLimit s1.ink.variant.toNat)) s1)
    c s)

end Sys2Proof.Machine
end

