-- ==== Sys2Proof/Machine/Firmware.lean ====
section
/-! DEFINITION. Firmware slots and update sessions (R402, R403), the settings store's commands (R404 to R406), licences (R408) and the
defect map's commands (R393, R419). -/
namespace Sys2Proof.Machine

/-! ### Slots and sessions (R402) -/

/-- The slot that an update writes: not the running one, or not the active one when no image runs. -/
def updateSlot (s : State) : Nat := 1 - (if imageRuns s then s.pwr.runSlot else (bootNow s).active)

def setImageSlot (s : State) (i : Nat) (b : List Byte) : State := if i = 0 then { s with pwr.slotA := b } else { s with pwr.slotB := b }

/-- Bytes written at an offset of the update slot, whose image has `len` bytes. -/
def writeSlot (s : State) (len off : Nat) (b : List Byte) : State :=
  let i := updateSlot s
  setImageSlot s i (overlay (padTo (max len (off + b.length)) (slotBytes s i)) off b)

/-- A successful repair in MINIMAL clears the count of failed starts (R387). -/
def minimalDone (s : State) : State := if s.ink.state = stMinimal then bootUpdate s (fun b => { b with failed := 0 }) else s

def endSession (s : State) : State := { s with pwr.session := {} }

/-- The update slot is verified and set pending, which makes it the slot of the next attempt (R401, R402). -/
def activate (s : State) (sig : Bool) : Nat × State :=
  let i := updateSlot s
  let b := slotBytes s i
  if imageVersion b < (bootNow s).minSec then (St.fwRollback, s)
  else if !imageSound b sig then (St.imageInvalid, s)
  else (St.ok, minimalDone (bootUpdate s (fun b => { b with pending := i, next := i })))

def execFwWrite (c : Cmd) (s : State) : Host.Outcome State Fault Refusal :=
  .next (firmware { op := 0x0B09, need := 64, ext := true, full := fun _ c => c.len, vf := false } (fun c s =>
    let off := p32 c 0
    let len := p32 c 4
    let data := (body c).drop 64
    checked [(decide (len > 2 ^ 24) || decide (off + data.length > len), St.invalidField), (s.pwr.session.owner == 2, St.fwSessionBusy)] s
      (.done St.ok [] { writeSlot s len off data with pwr.session := { owner := 1, since := s.time } })) c s)

def execFwActivate (c : Cmd) (sig : Bool) (s : State) : Host.Outcome State Fault Refusal :=
  .next (firmware { op := 0x0B0A, vf := false } (fun _ s =>
    checked [(s.pwr.session.owner == 2, St.fwSessionBusy)] s
      (let (st, s1) := activate (endSession s) sig
       .done st [] s1)) c s)

/-- Byte 2, the running slot; where no image runs the manual states no value, and it is free (log 13). -/
def execFwStatus (c : Cmd) (s : State) : Host.Outcome State Fault Refusal :=
  .next (firmware { op := 0x0B0B, need := 8, vf := false } (fun c s =>
    let b := bootNow s
    let (run, s1) := if imageRuns s then ([BitVec.ofNat 8 s.pwr.runSlot], s) else freeBytes s 1
    reportTo (p64 c 0)
      (padTo 64 ([BitVec.ofNat 8 b.active, BitVec.ofNat 8 b.pending] ++ run ++ [0] ++ leBytes 4 b.minSec ++ slice s.pwr.slotA 0 8 ++ slice s.pwr.slotB 0 8))
      [] s1) c s)

/-- FW_SESSION_TIMEOUT: 60 s without a transfer. -/
def execFwSessionTimeout (s : State) : Host.Outcome State Fault Refusal :=
  .next (if s.pwr.session.since + 60 * secondUnits ≤ s.time then endSession s else s)

/-! ### PLDM for Firmware Update (R403): the response is kept in `pwr.mgmt`, its completion code first (logs 11, 12) -/

def pldmOk : Byte := 0x00
def pldmError : Byte := 0x01
def pldmNotInUpdate : Byte := 0x80
def pldmAlready : Byte := 0x81
def pldmLength : Byte := 0x83
def pldmState : Byte := 0x84

def respond (s : State) (b : List Byte) : State := { s with pwr.mgmt := b }

def inPhase (s : State) (n : Nat) : Bool := s.pwr.session.owner == 2 && s.pwr.session.phase == n

def toPhase (s : State) (n : Nat) : State := { s with pwr.session := { s.pwr.session with phase := n } }

/-- A request of the update session that is allowed in one phase: refused outside it, and answered by `f` within it. -/
def pldmIn (n : Nat) (s : State) (f : State → State) : State :=
  if held s then s
  else if s.pwr.session.owner != 2 then respond s [pldmNotInUpdate]
  else if s.pwr.session.phase != n then respond s [pldmState]
  else f s

/-- The device's one component: classification firmware, identifier 0x0001; contents beyond it are DMTF's (log 11). -/
def execQueryDeviceIdentifiers (s : State) : Host.Outcome State Fault Refusal :=
  .next (if held s then s else respond s (pldmOk :: leBytes 8 Config.uniqueId))

def execGetFirmwareParameters (s : State) : Host.Outcome State Fault Refusal :=
  let b := bootNow s
  let rel (i : Nat) : List Byte := slice (slotBytes s i) 2 2
  .next (if held s then s
    else respond s (pldmOk :: leBytes 2 0x0001 ++ rel b.active ++ (if b.pending < 2 then rel b.pending else zeros 2)))

/-- RequestUpdate opens the session unless one is held (R402). -/
def execRequestUpdate (s : State) : Host.Outcome State Fault Refusal :=
  .next (if held s then s
    else if s.pwr.session.owner != 0 then respond s [pldmAlready]
    else respond { s with pwr.session := { owner := 2, phase := 1, since := s.time } } (pldmOk :: leBytes 4 4096))

def execPassComponentTable (m : MgmtReq) (s : State) : Host.Outcome State Fault Refusal :=
  .next (pldmIn 1 s (fun s => respond (if m.ok then toPhase s 2 else s) [pldmOk, if m.ok then 0 else 1]))

def execUpdateComponent (m : MgmtReq) (s : State) : Host.Outcome State Fault Refusal :=
  .next (pldmIn 2 s (fun s => respond (if m.ok then toPhase s 3 else s) [pldmOk, if m.ok then 0 else 1]))

/-- RequestFirmwareData: the bytes that the update agent answers with, at most 4,096, at an offset of the component. -/
def execRequestFirmwareData (m : MgmtReq) (s : State) : Host.Outcome State Fault Refusal :=
  .next (pldmIn 3 s (fun s =>
    if m.bytes.length > 4096 ∨ m.offset + m.bytes.length > 2 ^ 24 then respond s [pldmLength]
    else respond { writeSlot s 0 m.offset m.bytes with pwr.session := { s.pwr.session with since := s.time } } [pldmOk]))

/-- TransferComplete; with failure it ends the session (R402). -/
def execTransferComplete (m : MgmtReq) (s : State) : Host.Outcome State Fault Refusal :=
  .next (pldmIn 3 s (fun s => respond (if m.ok then toPhase s 4 else endSession s) [pldmOk]))

def execVerifyComplete (m : MgmtReq) (s : State) : Host.Outcome State Fault Refusal :=
  .next (pldmIn 4 s (fun s => respond (toPhase s (if m.ok then 5 else 2)) [pldmOk]))

/-- ApplyComplete; with failure the component's transfer may begin again, as after a failed VerifyComplete. -/
def execApplyComplete (m : MgmtReq) (s : State) : Host.Outcome State Fault Refusal :=
  .next (pldmIn 5 s (fun s => respond (toPhase s 2) [pldmOk, if m.ok then 0 else 1]))

/-- ActivateFirmware verifies the slot and sets it pending, and the session ends; a failed check is answered with its status. -/
def execActivateFirmware (sig : Bool) (s : State) : Host.Outcome State Fault Refusal :=
  .next (pldmIn 2 s (fun s =>
    let (st, s1) := activate (endSession s) sig
    respond s1 (if st = St.ok then [pldmOk] else pldmError :: leBytes 2 st)))

def execGetStatus (s : State) : Host.Outcome State Fault Refusal :=
  .next (if held s then s else respond s [pldmOk, BitVec.ofNat 8 (if s.pwr.session.owner = 2 then s.pwr.session.phase else 0)])

def execCancelUpdate (s : State) : Host.Outcome State Fault Refusal :=
  .next (if held s then s else if s.pwr.session.owner != 2 then respond s [pldmNotInUpdate] else respond (endSession s) [pldmOk])

/-! ### The settings store (R404 to R406, R419) -/

/-- The settings in service that BRINGUP holds follow what is stored: the next start reads them. -/
def execBringupConfig (c : Cmd) (s : State) : Host.Outcome State Fault Refusal :=
  .next (firmware { op := 0x0B03, need := 2, vf := false } (fun c s =>
    checked [(decide (p8 c 0 > 1), St.invalidField)] s
      (.done St.ok [] { storeSection s secBringup [BitVec.ofNat 8 (p8 c 0), BitVec.ofNat 8 (p8 c 1 % 2)] with
        pwr.coldSampled := p8 c 0 == 1
        pwr.fastPathOn := bit (p8 c 1) 0 })) c s)

/-- A section as SETTINGS_READ gives it: the stored one, or the default of a degraded one in the version written. -/
def readForm (s : State) (id : Nat) : Section :=
  match readSection s id with
  | some x => x
  | none => if secMandatory id then (findSection (storeSections s) id).getD (mkSection id (secWritten id) []) else mkSection id (secWritten id) (serviceBody s id)

def execSettingsRead (c : Cmd) (s : State) : Host.Outcome State Fault Refusal :=
  .next (firmware { op := 0x0B06, need := 16, vf := false } (fun c s =>
    let id := p16 c 0
    checked [((secInfo id).isNone, St.invalidField)] s
      (let x := readForm s id
       reportTo (p64 c 8) (sectionBytes x)
         (leBytes 2 x.ver ++ [BitVec.ofNat 8 (b2n (readSection s id).isNone + 2 * b2n ((readSection s id).isSome && x.ver != secWritten id))]) s)) c s)

/-- The section that a SETTINGS_WRITE buffer holds. -/
def writtenSection (c : Cmd) : Section :=
  let n := p32 c 4
  { mkSection (p16 c 0) (p16 c 2) (slice (body c) 16 n) with crc := BitVec.ofNat 32 (p32 c 8) }

def execSettingsWrite (c : Cmd) (s : State) : Host.Outcome State Fault Refusal :=
  .next (firmware { op := 0x0B07, need := 16, ext := true, full := fun _ c => 16 + p32 c 4, vf := false } (fun c s =>
    let x := writtenSection c
    checked
      [ (!secReadable x, St.invalidField),
        (secMandatory x.id && s.ink.state != stMinimal && s.ink.state != stDiagnostic, St.wrongState) ] s
      (.done St.ok [] (minimalDone (writeStore s (replaceSection (storeSections s) x))))) c s)

/-- A section in the version written: its body in service (R406). -/
def committed (s : State) (id : Nat) : Section :=
  match readSection s id with
  | some x =>
    if id = secDefect then mkSection id (secWritten id) (defectBody (parseDefect x.ver x.body)) else mkSection id (secWritten id) x.body
  | none => mkSection id (secWritten id) (serviceBody s id)

/-- SETTINGS_COMMIT: every section in the version written, and no KEPT one. A mandatory section that cannot be read stays as it is. -/
def commitStore (s : State) : State :=
  let l := sectionIds.filterMap (fun id =>
    if (readSection s id).isNone && secMandatory id then (storeSections s).find? (fun x => x.id == id && !x.kept) else some (committed s id))
  minimalDone { writeStore s l with pwr.degraded := [] }

def execSettingsCommit (c : Cmd) (s : State) : Host.Outcome State Fault Refusal :=
  .next (firmware { op := 0x0B08, vf := false } (fun _ s => .done St.ok [] (commitStore s)) c s)

/-! ### The defect map (R393, R419) -/

def execDefectMapRead (c : Cmd) (s : State) : Host.Outcome State Fault Refusal :=
  .next (firmware { op := 0x0B04, need := 8, vf := false } (fun c s => reportTo (p64 c 0) (defectBody s.pwr.defect) [] s) c s)

def execDefectMapClear (c : Cmd) (s : State) : Host.Outcome State Fault Refusal :=
  .next (firmware { op := 0x0B05, need := 2, vf := false } (fun c s =>
    match unitField c 0 with
    | none => .done St.invalidField [] s
    | some (t, u) =>
      .done St.ok [] (if s.pwr.clearUnits.contains (unitNo t u) then s else { s with pwr.clearUnits := s.pwr.clearUnits ++ [unitNo t u] })) c s)

/-! ### Licences (R407, R408) -/

/-- Records installed, in the order stored. -/
def installed (s : State) : List (List Byte) :=
  match readSection s secLicences with
  | some x => (splitLicences 8 x.body).getD []
  | none => []

def recordSerial (b : List Byte) : Nat := fieldN b 4 4

def recordFeatures (b : List Byte) : List Nat := (List.range (fieldN b 1 1)).map (fun k => fieldN b (24 + 8 * k) 2)

/-- Each feature of a record is listed by some record of higher serial. -/
def superseded (all : List (List Byte)) (b : List Byte) : Bool :=
  (recordFeatures b).all (fun f => all.any (fun o => decide (recordSerial o > recordSerial b) && (recordFeatures o).contains f))

/-- LICENCE_INSTALL; `sig` says whether the record's signature verifies against the key in ROM. -/
def installLicence (sig : Bool) (c : Cmd) (s : State) : Answer :=
  let b := (body c).take (min c.len (licenceLen (body c)))
  let all := installed s
  checked
    [ (!licenceFormat b || !sig, St.licenceInvalid), (fieldN b 8 8 != Config.uniqueId, St.licenceBinding),
      (all.any (fun o => decide (recordSerial o ≥ recordSerial b)), St.licenceRollback),
      (decide ((all.filter (fun o => !superseded (all ++ [b]) o)).length ≥ 8), St.resourceExhausted) ] s
    (let s1 := { s with pwr.sigGood := if s.pwr.sigGood.contains b then s.pwr.sigGood else s.pwr.sigGood ++ [b] }
     .done St.ok [] (minimalDone (storeSection s1 secLicences ((all.filter (fun o => !superseded (all ++ [b]) o)).flatten ++ b))))

def execLicenceInstall (c : Cmd) (sig : Bool) (s : State) : Host.Outcome State Fault Refusal :=
  .next (firmware { op := 0x0B0C, need := 128, ext := true, full := fun _ c => if p8 c 1 ≤ 16 then licenceLen (body c) else 0, vf := false }
    (installLicence sig) c s)

/-- The entry in force of a feature, in the entry format with the serial in bytes 2 and 3. -/
def entryInForce (s : State) (f : Nat) : Option (List Byte) :=
  let hits := (s.pwr.licences.filter (fun l => l.sigOk && l.unique == Config.uniqueId)).filterMap (fun l =>
    (l.entries.find? (fun e => e.1 == f)).map (fun e => (l.serial, e.2)))
  match sortBy (fun a b => decide (a.1 > b.1)) hits with
  | e :: _ => some (leBytes 2 f ++ leBytes 2 e.1 ++ leBytes 4 e.2)
  | [] => none

def execLicenceQuery (c : Cmd) (s : State) : Host.Outcome State Fault Refusal :=
  .next (firmware { op := 0x0B0D, need := 8, vf := false } (fun c s =>
    reportTo (p64 c 0) (padTo 256 (([1, 2, 3].filterMap (entryInForce s)).flatten)) [] s) c s)

/-! ### PLDM for Platform Monitoring and SPDM (R418): responses in `pwr.mgmt`, contents beyond the manual's free (logs 11, 12) -/

/-- A sensor's reading: package power, temperature of an occupied unit, or INKW_STATE; in MINIMAL the state sensor only. -/
def sensorReading (s : State) : Sensor → Option (List Byte × State)
  | .state => some ([BitVec.ofNat 8 s.ink.state.toNat], s)
  | .power =>
    if s.ink.state = stMinimal then none
    else let (w, s1) := reportedPower s; some (leBytes 2 w, s1)
  | .site n => if s.ink.state ≠ stMinimal ∧ n < 8 ∧ unitUp s .fast n then some ([BitVec.ofNat 8 (intBits 8 (thermalOf s .fast n).temp)], s) else none
  | .port n => if s.ink.state ≠ stMinimal ∧ n < 16 ∧ unitUp s .cap n then some ([BitVec.ofNat 8 (intBits 8 (thermalOf s .cap n).temp)], s) else none

def execPldmSensorRequest (x : Sensor) (s : State) : Host.Outcome State Fault Refusal :=
  .next (if held s then s
    else match sensorReading s x with
      | some (b, s1) => respond s1 (pldmOk :: b)
      | none => respond s [pldmNotInUpdate])

/-- An SPDM response: what the manual states of it, then `free` bytes of DMTF's contents. -/
def spdmAnswer (s : State) (known : List Byte) (free : Nat) : State :=
  if held s then s
  else let (b, s1) := freeBytes s free; respond s1 (known ++ b)

/-- SPDM 1.3. -/
def execGetVersion (s : State) : Host.Outcome State Fault Refusal := .next (spdmAnswer s [0x13] 0)

def execGetCapabilities (s : State) : Host.Outcome State Fault Refusal := .next (spdmAnswer s [0x13] 16)

def execNegotiateAlgorithms (s : State) : Host.Outcome State Fault Refusal := .next (spdmAnswer s [0x13] 32)

def execGetDigests (s : State) : Host.Outcome State Fault Refusal := .next (spdmAnswer s [0x13] 48)

def execGetCertificate (s : State) : Host.Outcome State Fault Refusal := .next (spdmAnswer s [0x13] 64)

def execChallenge (s : State) : Host.Outcome State Fault Refusal := .next (spdmAnswer s [0x13] 96)

/-- GET_MEASUREMENTS: the ROM version, of which the manual gives no value, the running image's digest and that of the licences in force. -/
def execGetMeasurements (s : State) : Host.Outcome State Fault Refusal :=
  .next (if held s then s
    else
      let (rom, s1) := freeBytes s 4
      let (img, s2) := if imageRuns s then (slice (slotBytes s s.pwr.runSlot) 16 48, s1) else freeBytes s1 48
      let lic := sha384 (((s.pwr.licences.filter (fun l => l.sigOk && l.unique == Config.uniqueId)).map (fun l => l.raw)).flatten)
      respond s2 ([0x13, 3] ++ rom ++ img ++ lic))

/-! ### The test port (R463) -/

def strapTest (s : State) : Bool := s.pwr.straps.getLsbD 3

/-- An instruction takes effect; EXTEST, CLAMP and HIGHZ do only with STRAP_JTAG_TEST, and else act as BYPASS. -/
def testPort (s : State) (ir : Nat) (dr : BitVec 32) : State := { s with pwr.testIr := ir, pwr.testDr := dr }

def testOnly (s : State) (ir : Nat) : State := testPort s (if strapTest s then ir else 0) 0

def execBypass (s : State) : Host.Outcome State Fault Refusal := .next (testPort s 0 0)

/-- Version 0x1, part 0xB880, Rildodun's code, and the 1 of IEEE 1149.1. -/
def execIdcode (s : State) : Host.Outcome State Fault Refusal :=
  .next (testPort s 1 (0x1#4 ++ 0xB880#16 ++ Config.jtagManufacturer ++ 1#1))

def execSamplePreload (s : State) : Host.Outcome State Fault Refusal := .next (testPort s 2 0)

def execExtest (s : State) : Host.Outcome State Fault Refusal := .next (testOnly s 3)

def execClamp (s : State) : Host.Outcome State Fault Refusal := .next (testOnly s 4)

def execHighz (s : State) : Host.Outcome State Fault Refusal := .next (testOnly s 5)

end Sys2Proof.Machine
end

