-- ==== Sys2Proof/Machine/Admin.lean ====
section
/-! DEFINITION. The admin commands and events that reach into other units: IDENTIFY (R81), RELEASE (R89), DETACH (R58), a function-level
reset (R384), NumVFs (R90), and the Scribe's console (R60, R435). -/
namespace Sys2Proof.Machine

/-! ### IDENTIFY (R81) -/

/-- A site's type byte: a refused stack reads as no stack. -/
def siteType (s : State) (u : Nat) : Nat := if (unitOf s .fast u).refused then 0 else (unitOf s .fast u).kind

/-- A port's type byte: 3 where the module present is refused. -/
def portType (s : State) (u : Nat) : Nat := if (unitOf s .cap u).refused then 3 else (unitOf s .cap u).kind

def byteList (l : List Nat) : List Byte := l.map (BitVec.ofNat 8)

/-- Logical cores of a quadrant. -/
def quadCores (s : State) (q : Nat) : Nat := ((List.range (coreCount s)).filter (fun n => coreQuad s n == q)).length

def linkMask (s : State) (p : Link → Bool) : Nat := maskOf ((List.range 16).filter (fun l => p (linkOf s l)))

/-- The identify record of the population in force. -/
def identifyRecord (s : State) : List Byte :=
  leBytes 4 (identWord s 0) ++ leBytes 4 s.ink.ifver.toNat ++ leBytes 8 Config.uniqueId ++
    byteList [s.ink.variant.toNat, ((List.range 4).filter (configured s)).length] ++ leBytes 2 (coreCount s) ++
    byteList ((List.range 4).map (quadCores s)) ++
    byteList ((List.range 8).map (siteType s)) ++ byteList ((List.range 8).map (fun u => (unitOf s .fast u).gib)) ++
    byteList ((List.range 8).map (fun u => (unitOf s .fast u).chans.length)) ++ byteList ((List.range 16).map (portType s)) ++
    ((List.range 16).map (fun u => leBytes 2 (unitOf s .cap u).gib)).flatten ++
    byteList ((List.range 16).map (fun u => (unitOf s .cap u).chans.length)) ++
    leBytes 2 (linkMask s (fun x => x.cfg.enable)) ++ leBytes 2 (linkMask s (fun x => x.cfg.rate == 0)) ++
    leBytes 4 (b2n (licenceLimit s 2).isSome + 2 * b2n (licenceLimit s 3).isSome) ++ leBytes 4 (Config.powerLimit s.ink.variant.toNat) ++
    leBytes 2 4096 ++ zeros 2 ++ byteList ((List.range 4).map (fun p => (partOf s p).mask.toNat))

def execIdentify (c : Cmd) (s : State) : Host.Outcome State Fault Refusal :=
  .next (firmware { op := 0x0101, need := 8 } (fun c s => reportTo (p64 c 0) (padTo 256 (identifyRecord s)) [] s) c s)

/-! ### Releases (R87, R89) -/

/-- Running sums of a region that no owner holds ATOMIC any longer are written to their granules (R168). -/
def writeSums (s : State) (t : Tier) (r : Nat) : State :=
  (s.ari.acc.filter (fun a => whereIs a.dpa == Where.region t r)).foldl (fun s a =>
    match accPlace s a with
    | some q => chanWrite s q a.dpa a.data false 7 none none
    | none => accDrop s a.key) s

/-- The tier and index that a region resource names (R83). -/
def resRegion (res : Nat) : Tier × Nat := if resInst res ≥ 2 ^ 23 then (.cap, resInst res - 2 ^ 23) else (.fast, resInst res)

/-- A traffic generator run ends where it is: its command completes with ABORTED and no record (log 43). -/
def endTraffic (s : State) (port : Nat) : State :=
  finishWait { s with svc.traffic := mdel s.svc.traffic port } (.traffic port) St.aborted []

/-- A loopback run ends where it is: the link is DISABLED and the command completes with ABORTED (log 43). -/
def endLoopback (s : State) (l : Nat) : State :=
  if (linkOf s l).st = lkLoopback then finishWait (linkMove s l lkDisabled 0) (.loopback l) St.aborted [] else s

/-- Armed digests that stage in a buffer are disarmed. -/
def disarm (s : State) (i : Nat) : State :=
  { s with obs.digests := s.obs.digests.map (fun e => if lowQuad s (e.1 / 8) = i then (e.1, { e.2 with enabled := false }) else e) }

def clearWatchdog (s : State) (p : Nat) : State := setComp s p { compOf s p with confLimit := 0, runLimit := 0 }

/-- The feature that uses one mode of a resource stops. -/
def stopFeature (s : State) (res mode : Nat) : State :=
  let i := resInst res
  match resType res, mode with
  | 1, 1 => dropCadence s 4
  | 1, _ => { s with rul.trig := { s.rul.trig with config := none } }
  | 2, 3 => disarm s i
  | 2, _ => stopTrace s i 2
  | 3, _ => endTraffic s i
  | 4, _ => endLoopback s i
  | 5, 1 => clearWatchdog s i
  | 5, _ => stepOff s i
  | _, _ => s

/-- One holding goes: its feature stops first, and sums are written when the last ATOMIC holding of a region has gone. -/
def releaseOne (s : State) (h : Holding) : State :=
  let s1 := ungrant (stopFeature s h.res h.mode) (fun x => x == h)
  if resType h.res = 6 ∧ h.mode = 2 ∧ !heldAny s1 h.res 2 then writeSums s1 (resRegion h.res).1 (resRegion h.res).2 else s1

/-- Every holding that satisfies `p` is released, in the order granted. -/
def releaseAll (s : State) (p : Holding → Bool) : State := (s.ink.claims.filter p).foldl releaseOne s

def execRelease (c : Cmd) (s : State) : Host.Outcome State Fault Refusal :=
  .next (firmware { op := 0x0104, need := 4 } (fun c s =>
    let res := p32 c 0
    let mine (h : Holding) : Bool := h.res == res && h.owner == c.fn
    checked [(!resValid res, St.invalidField)] s
      (if s.ink.claims.any mine then .done St.ok [] (releaseAll s mine)
       else if (holdings s res).isEmpty then .done St.ok [] s
       else .done St.notOwner [] s)) c s)

/-- DETACH: commands not begun are aborted, EN is cleared, and the function's claims are released (R57, R58). -/
def detachFn (s : State) (fn : Nat) : State :=
  let s1 := abortFetched s (fun c => c.fn == fn)
  releaseAll (setFunc s1 fn { func s1 fn with en := false }) (fun h => h.owner == fn)

def execDetach (fn : Nat) (s : State) : Host.Outcome State Fault Refusal := .next (detachFn s fn)

/-! ### Function-level resets and virtual functions (R90, R384) -/

/-- A function's rings go: their entries, waiting completions and events with them. -/
def dropRings (s : State) (fn : Nat) : State :=
  let f := func s fn
  { setFunc s fn { f with rings := [], backlog := [], waiting := [], lostFlag := false, filters := [] } with
    ink.fetched := s.ink.fetched.filter (fun e => e.cmd.fn != fn)
    ink.running := s.ink.running.filter (fun r => r.cmd.fn != fn) }

def execFunctionLevelReset (fn : Nat) (s : State) : Host.Outcome State Fault Refusal :=
  .next (if fn ≤ s.ink.numVFs then releaseAll (dropRings s fn) (fun h => h.owner == fn) else s)

/-- The PF loses the rings of partition `p`: commands not begun are aborted, and both rings are disabled (R90). -/
def loseRings (s : State) (p : Nat) : State :=
  let s1 := abortRing s 0 (4 + 2 * p)
  let s2 := setRing s1 0 (4 + 2 * p) { ringOf s1 0 (4 + 2 * p) with en := false }
  setRing s2 0 (5 + 2 * p) { ringOf s2 0 (5 + 2 * p) with en := false }

/-- A VF is disabled: its claims are released and its rings and registers are gone (R89, R90). -/
def disableVf (s : State) (fn : Nat) : State := setFunc (dropRings (releaseAll s (fun h => h.owner == fn)) fn) fn {}

/-- NumVFs becomes `k`: VFs above the old number are enabled, those above the new one disabled. -/
def numVfs (s : State) (k : Nat) : State :=
  let old := s.ink.numVFs
  let s1 := ((List.range 4).filter (fun p => decide (old ≤ p) && decide (p < k))).foldl loseRings s
  let s2 := ((List.range 5).filter (fun v => decide (k < v) && decide (v ≤ old))).foldl disableVf s1
  { s2 with ink.numVFs := k }

def execNumvfsWrite (k : Nat) (s : State) : Host.Outcome State Fault Refusal := .next (if k ≤ 4 then numVfs s k else s)

/-! ### The console (R60, R73, R435) -/

/-- A byte of text in the output buffer, which is circular. -/
def conPutByte (s : State) (b : Byte) : State :=
  { s with
    ink.con := mput s.ink.con s.ink.conPtr.toNat b
    ink.conPtr := s.ink.conPtr + 1
    ink.conWraps := if s.ink.conPtr.toNat = 16383 then s.ink.conWraps + 1 else s.ink.conWraps }

/-- Text that the Scribe writes; CONSOLE is set. -/
def conWrite (s : State) (text : List Byte) : State := setCause (text.foldl conPutByte s) 0 18

def hexChar (v : Nat) : Byte := BitVec.ofNat 8 (if v < 10 then 0x30 + v else 0x61 + (v - 10))

/-- A line of the two hexadecimal digits of each byte, in byte order. -/
def hexLine (b : List Byte) : List Byte := (b.map (fun x => [hexChar (x.toNat / 16), hexChar (x.toNat % 16)])).flatten ++ [0x0A]

def hexVal (b : Byte) : Option Nat :=
  let v := b.toNat
  if 0x30 ≤ v ∧ v ≤ 0x39 then some (v - 0x30)
  else if 0x41 ≤ v ∧ v ≤ 0x46 then some (v - 0x41 + 10)
  else if 0x61 ≤ v ∧ v ≤ 0x66 then some (v - 0x61 + 10)
  else none

/-- The number that one or more hexadecimal digits write. -/
def hexNumber : List Byte → Option Nat
  | [] => none
  | l => l.foldl (fun acc b => match acc, hexVal b with | some n, some d => some (16 * n + d) | _, _ => none) (some 0)

/-- The unit that a line `blot <hexadecimal>` names. -/
def blotLine (l : List Byte) : Option Nat :=
  if l.take 5 = [0x62, 0x6C, 0x6F, 0x74, 0x20] then hexNumber (l.drop 5) else none

/-- The header and the 256 entries of a blotter, a line for each 16 B. -/
def blotText (s : State) (u : Nat) : List Byte := ((chunks 16 (padTo 4128 (blotterBytes s u))).map hexLine).flatten

/-- The Scribe takes a line: `blot` in FAULTED. The manual states no other line, and the Scribe answers none. -/
def conLineDone (s : State) (l : List Byte) : State :=
  match blotLine l with
  | some u => if s.ink.state = stFaulted ∧ unitValid s u then conWrite s (blotText s u) else s
  | none => s

/-- An input character reaches the Scribe, on the PF and in every state but ROM (R60); a line ends at 0x0A. -/
def conIn (s : State) (b : Byte) : State :=
  let f := func s 0
  if b = 0x0A then conLineDone (setFunc s 0 { f with conLine := [] }) f.conLine
  else setFunc s 0 { f with conLine := f.conLine ++ [b] }

def execInkwConIn (fn : Nat) (v : BitVec 32) (s : State) : Host.Outcome State Fault Refusal :=
  .next (if fn = 0 ∧ s.ink.state ≠ stRom then conIn s (v.setWidth 8) else s)

end Sys2Proof.Machine
end

