-- ==== Sys2Proof/Machine/Dispatch.lean ====
section
/-! DEFINITION. The dispatch: each command of the table to its meaning. -/
namespace Sys2Proof.Machine

def exec (i : Instr) (s : State) : Host.Outcome State Fault Refusal :=
  match i with
  | .lineBoundary => Sys2Proof.Machine.execLineBoundary s
  | .cadenceEdge ns => Sys2Proof.Machine.execCadenceEdge ns s
  | .cadenceEdgeMissing => Sys2Proof.Machine.execCadenceEdgeMissing s
  | .holdoverExpire => Sys2Proof.Machine.execHoldoverExpire s
  | .markerLoss => Sys2Proof.Machine.execMarkerLoss s
  | .disciplineStale => Sys2Proof.Machine.execDisciplineStale s
  | .election => Sys2Proof.Machine.execElection s
  | .triggerEdge rising ns => Sys2Proof.Machine.execTriggerEdge rising ns s
  | .alarmFire => Sys2Proof.Machine.execAlarmFire s
  | .rulingStatus c => Sys2Proof.Machine.execRulingStatus c s
  | .rulingSetSources c => Sys2Proof.Machine.execRulingSetSources c s
  | .rulingSetPeriod c => Sys2Proof.Machine.execRulingSetPeriod c s
  | .rulingDiscipline c => Sys2Proof.Machine.execRulingDiscipline c s
  | .rulingLoad c => Sys2Proof.Machine.execRulingLoad c s
  | .rulingAlarm c => Sys2Proof.Machine.execRulingAlarm c s
  | .rulingTriggerSet c => Sys2Proof.Machine.execRulingTriggerSet c s
  | .inkwCtrlEn fn en => Sys2Proof.Machine.execInkwCtrlEn fn en s
  | .detach fn => Sys2Proof.Machine.execDetach fn s
  | .stampLoRead fn => Sys2Proof.Machine.execStampLoRead fn s
  | .inkwConIn fn v => Sys2Proof.Machine.execInkwConIn fn v s
  | .ringCfgWrite fn n v => Sys2Proof.Machine.execRingCfgWrite fn n v s
  | .submissionDoorbell fn n v host => Sys2Proof.Machine.execSubmissionDoorbell fn n v host s
  | .headDoorbell fn n v => Sys2Proof.Machine.execHeadDoorbell fn n v s
  | .registerWrite fn offset v => Sys2Proof.Machine.execRegisterWrite fn offset v s
  | .ringVisit fn n => Sys2Proof.Machine.execRingVisit fn n s
  | .coalesceTimeout fn n => Sys2Proof.Machine.execCoalesceTimeout fn n s
  | .identify c => Sys2Proof.Machine.execIdentify c s
  | .opcodeMap c => Sys2Proof.Machine.execOpcodeMap c s
  | .claim c => Sys2Proof.Machine.execClaim c s
  | .release c => Sys2Proof.Machine.execRelease c s
  | .claimQuery c => Sys2Proof.Machine.execClaimQuery c s
  | .abort c => Sys2Proof.Machine.execAbort c s
  | .eventFilter c => Sys2Proof.Machine.execEventFilter c s
  | .echo c => Sys2Proof.Machine.execEcho c s
  | .functionLevelReset fn => Sys2Proof.Machine.execFunctionLevelReset fn s
  | .numvfsWrite k => Sys2Proof.Machine.execNumvfsWrite k s
  | .memQuery c => Sys2Proof.Machine.execMemQuery c s
  | .memRegionSet c => Sys2Proof.Machine.execMemRegionSet c s
  | .memRegionGet c => Sys2Proof.Machine.execMemRegionGet c s
  | .memLocate c => Sys2Proof.Machine.execMemLocate c s
  | .memCopy c => Sys2Proof.Machine.execMemCopy c s
  | .memFill c => Sys2Proof.Machine.execMemFill c s
  | .memCacheOp c => Sys2Proof.Machine.execMemCacheOp c s
  | .memWindowSet c => Sys2Proof.Machine.execMemWindowSet c s
  | .memWindowClear c => Sys2Proof.Machine.execMemWindowClear c s
  | .memTest c => Sys2Proof.Machine.execMemTest c s
  | .cacheControlWrite r p bytes => Sys2Proof.Machine.execCacheControlWrite r p bytes s
  | .cacheControlDone p => Sys2Proof.Machine.execCacheControlDone p s
  | .cxlMemRead dpa => Sys2Proof.Machine.execCxlMemRead dpa s
  | .cxlMemWrite dpa bytes => Sys2Proof.Machine.execCxlMemWrite dpa bytes s
  | .hdmDecoderCommit => Sys2Proof.Machine.execHdmDecoderCommit s
  | .memoryRead r dpa len => Sys2Proof.Machine.execMemoryRead r dpa len s
  | .memoryWrite w => Sys2Proof.Machine.execMemoryWrite w s
  | .partialWrite r dpa bytes => Sys2Proof.Machine.execPartialWrite r dpa bytes s
  | .agingPromotion tier channel entry => Sys2Proof.Machine.execAgingPromotion tier channel entry s
  | .regulatorPhase => Sys2Proof.Machine.execRegulatorPhase s
  | .regulatorRelease reg => Sys2Proof.Machine.execRegulatorRelease reg s
  | .thermalSample temps => Sys2Proof.Machine.execThermalSample temps s
  | .scrubStep die tier => Sys2Proof.Machine.execScrubStep die tier s
  | .channelRetrain tier channel errors => Sys2Proof.Machine.execChannelRetrain tier channel errors s
  | .retrainComplete tier channel ok spare lost => Sys2Proof.Machine.execRetrainComplete tier channel ok spare lost s
  | .memRegSet c => Sys2Proof.Machine.execMemRegSet c s
  | .memClassSet c => Sys2Proof.Machine.execMemClassSet c s
  | .memThermalLoad c => Sys2Proof.Machine.execMemThermalLoad c s
  | .memThermalClear c => Sys2Proof.Machine.execMemThermalClear c s
  | .memThermalQuery c => Sys2Proof.Machine.execMemThermalQuery c s
  | .memErrRead c => Sys2Proof.Machine.execMemErrRead c s
  | .memErrCounters c => Sys2Proof.Machine.execMemErrCounters c s
  | .memScrubSet c => Sys2Proof.Machine.execMemScrubSet c s
  | .memTraffic c => Sys2Proof.Machine.execMemTraffic c s
  | .memTrafficEnd port m => Sys2Proof.Machine.execMemTrafficEnd port m s
  | .contribution w => Sys2Proof.Machine.execContribution w s
  | .contributionResend => Sys2Proof.Machine.execContributionResend s
  | .arithApply c => Sys2Proof.Machine.execArithApply c s
  | .arithOrderOpen c => Sys2Proof.Machine.execArithOrderOpen c s
  | .arithOrderClose c => Sys2Proof.Machine.execArithOrderClose c s
  | .resGather c => Sys2Proof.Machine.execResGather c s
  | .resStatus c => Sys2Proof.Machine.execResStatus c s
  | .reservoirDoorbell port channel slot => Sys2Proof.Machine.execReservoirDoorbell port channel slot s
  | .reservoirSlotDone port channel slot => Sys2Proof.Machine.execReservoirSlotDone port channel slot s
  | .foldBasisLoad c => Sys2Proof.Machine.execFoldBasisLoad c s
  | .foldBasisUnload c => Sys2Proof.Machine.execFoldBasisUnload c s
  | .foldBasisQuery c => Sys2Proof.Machine.execFoldBasisQuery c s
  | .foldLayoutLoad c => Sys2Proof.Machine.execFoldLayoutLoad c s
  | .foldLayoutUnload c => Sys2Proof.Machine.execFoldLayoutUnload c s
  | .foldExpand c => Sys2Proof.Machine.execFoldExpand c s
  | .foldVerify c => Sys2Proof.Machine.execFoldVerify c s
  | .foldFaultRead c => Sys2Proof.Machine.execFoldFaultRead c s
  | .foldCounters c => Sys2Proof.Machine.execFoldCounters c s
  | .blockExpand expander => Sys2Proof.Machine.execBlockExpand expander s
  | .basisCacheFill expander => Sys2Proof.Machine.execBasisCacheFill expander s
  | .add core f => Sys2Proof.Machine.execAdd core f s
  | .sub core f => Sys2Proof.Machine.execSub core f s
  | .mul core f => Sys2Proof.Machine.execMul core f s
  | .and core f => Sys2Proof.Machine.execAnd core f s
  | .or core f => Sys2Proof.Machine.execOr core f s
  | .xor core f => Sys2Proof.Machine.execXor core f s
  | .shl core f => Sys2Proof.Machine.execShl core f s
  | .shr core f => Sys2Proof.Machine.execShr core f s
  | .sra core f => Sys2Proof.Machine.execSra core f s
  | .li core f => Sys2Proof.Machine.execLi core f s
  | .ld core f => Sys2Proof.Machine.execLd core f s
  | .st core f => Sys2Proof.Machine.execSt core f s
  | .br core f => Sys2Proof.Machine.execBr core f s
  | .csr core f => Sys2Proof.Machine.execCsr core f s
  | .halt core f => Sys2Proof.Machine.execHalt core f s
  | .vadd core f => Sys2Proof.Machine.execVadd core f s
  | .vsub core f => Sys2Proof.Machine.execVsub core f s
  | .vmul core f => Sys2Proof.Machine.execVmul core f s
  | .vfma core f => Sys2Proof.Machine.execVfma core f s
  | .vmax core f => Sys2Proof.Machine.execVmax core f s
  | .vmin core f => Sys2Proof.Machine.execVmin core f s
  | .vexp2 core f => Sys2Proof.Machine.execVexp2 core f s
  | .vrcp core f => Sys2Proof.Machine.execVrcp core f s
  | .vrsqrt core f => Sys2Proof.Machine.execVrsqrt core f s
  | .vdup core f => Sys2Proof.Machine.execVdup core f s
  | .vld core f => Sys2Proof.Machine.execVld core f s
  | .vst core f => Sys2Proof.Machine.execVst core f s
  | .vcvt core f => Sys2Proof.Machine.execVcvt core f s
  | .vsum core f => Sys2Proof.Machine.execVsum core f s
  | .vperm core f => Sys2Proof.Machine.execVperm core f s
  | .mma core f => Sys2Proof.Machine.execMma core f s
  | .mmast core f => Sys2Proof.Machine.execMmast core f s
  | .xrd core f => Sys2Proof.Machine.execXrd core f s
  | .xrdComplete core => Sys2Proof.Machine.execXrdComplete core s
  | .xwr core f => Sys2Proof.Machine.execXwr core f s
  | .xexp core f => Sys2Proof.Machine.execXexp core f s
  | .xexpComplete core => Sys2Proof.Machine.execXexpComplete core s
  | .fold core f => Sys2Proof.Machine.execFold core f s
  | .patom core f => Sys2Proof.Machine.execPatom core f s
  | .fatom core f => Sys2Proof.Machine.execFatom core f s
  | .fatomComplete core => Sys2Proof.Machine.execFatomComplete core s
  | .fence core f => Sys2Proof.Machine.execFence core f s
  | .fenceComplete core => Sys2Proof.Machine.execFenceComplete core s
  | .tsig core f => Sys2Proof.Machine.execTsig core f s
  | .twait core f => Sys2Proof.Machine.execTwait core f s
  | .twaitTimeout core => Sys2Proof.Machine.execTwaitTimeout core s
  | .lclaim core f => Sys2Proof.Machine.execLclaim core f s
  | .tallyValueWrite r tally v => Sys2Proof.Machine.execTallyValueWrite r tally v s
  | .tallyAddWrite r tally v => Sys2Proof.Machine.execTallyAddWrite r tally v s
  | .kernel p q => Sys2Proof.Machine.execKernel p q s
  | .kernelStart p q => Sys2Proof.Machine.execKernelStart p q s
  | .kernelComplete p q => Sys2Proof.Machine.execKernelComplete p q s
  | .copy p q => Sys2Proof.Machine.execCopy p q s
  | .foldCopy p q => Sys2Proof.Machine.execFoldCopy p q s
  | .reduce p q => Sys2Proof.Machine.execReduce p q s
  | .gatherRes p q => Sys2Proof.Machine.execGatherRes p q s
  | .tallySignal p q => Sys2Proof.Machine.execTallySignal p q s
  | .tallyWait p q => Sys2Proof.Machine.execTallyWait p q s
  | .tallyWaitTimeout p q => Sys2Proof.Machine.execTallyWaitTimeout p q s
  | .markBegin p q => Sys2Proof.Machine.execMarkBegin p q s
  | .markEnd p q => Sys2Proof.Machine.execMarkEnd p q s
  | .stepBegin p q => Sys2Proof.Machine.execStepBegin p q s
  | .stepEnd p q => Sys2Proof.Machine.execStepEnd p q s
  | .ledgerFill p q => Sys2Proof.Machine.execLedgerFill p q s
  | .queueAdvance p q => Sys2Proof.Machine.execQueueAdvance p q s
  | .coreMap c => Sys2Proof.Machine.execCoreMap c s
  | .partConfig c => Sys2Proof.Machine.execPartConfig c s
  | .quireSubmit c => Sys2Proof.Machine.execQuireSubmit c s
  | .queueControl c => Sys2Proof.Machine.execQueueControl c s
  | .tallyOp c => Sys2Proof.Machine.execTallyOp c s
  | .ledgerConfig c => Sys2Proof.Machine.execLedgerConfig c s
  | .ledgerQuery c => Sys2Proof.Machine.execLedgerQuery c s
  | .coreFaultRead c => Sys2Proof.Machine.execCoreFaultRead c s
  | .modelLoad c => Sys2Proof.Machine.execModelLoad c s
  | .modelUnload c => Sys2Proof.Machine.execModelUnload c s
  | .pagePoolConfig c => Sys2Proof.Machine.execPagePoolConfig c s
  | .pageMapConfig c => Sys2Proof.Machine.execPageMapConfig c s
  | .reqSubmit c => Sys2Proof.Machine.execReqSubmit c s
  | .reqQuery c => Sys2Proof.Machine.execReqQuery c s
  | .reqCancel c => Sys2Proof.Machine.execReqCancel c s
  | .reqPause c => Sys2Proof.Machine.execReqPause c s
  | .reqResume c => Sys2Proof.Machine.execReqResume c s
  | .reqRetire c => Sys2Proof.Machine.execReqRetire c s
  | .prefixLookup c => Sys2Proof.Machine.execPrefixLookup c s
  | .prefixPin c => Sys2Proof.Machine.execPrefixPin c s
  | .prefixUnpin c => Sys2Proof.Machine.execPrefixUnpin c s
  | .prefixFlush c => Sys2Proof.Machine.execPrefixFlush c s
  | .pageStats c => Sys2Proof.Machine.execPageStats c s
  | .parkCopyDone entry => Sys2Proof.Machine.execParkCopyDone entry s
  | .ttlExpire entry => Sys2Proof.Machine.execTtlExpire entry s
  | .restoreDone entry => Sys2Proof.Machine.execRestoreDone entry s
  | .summaryFoldDone entry => Sys2Proof.Machine.execSummaryFoldDone entry s
  | .stepConfig c => Sys2Proof.Machine.execStepConfig c s
  | .stepConfirm c => Sys2Proof.Machine.execStepConfirm c s
  | .stepControl c => Sys2Proof.Machine.execStepControl c s
  | .stepWatchdogSet c => Sys2Proof.Machine.execStepWatchdogSet c s
  | .reqLatency c => Sys2Proof.Machine.execReqLatency c s
  | .frameSlotConfig c => Sys2Proof.Machine.execFrameSlotConfig c s
  | .framePost c => Sys2Proof.Machine.execFramePost c s
  | .expertConfig c => Sys2Proof.Machine.execExpertConfig c s
  | .expertBiasSet c => Sys2Proof.Machine.execExpertBiasSet c s
  | .expertQuery c => Sys2Proof.Machine.execExpertQuery c s
  | .stepProposal p => Sys2Proof.Machine.execStepProposal p s
  | .stepRunAdvance p => Sys2Proof.Machine.execStepRunAdvance p s
  | .stepWatchdog p => Sys2Proof.Machine.execStepWatchdog p s
  | .flourishConfig c => Sys2Proof.Machine.execFlourishConfig c s
  | .grammarLoad c => Sys2Proof.Machine.execGrammarLoad c s
  | .grammarUnload c => Sys2Proof.Machine.execGrammarUnload c s
  | .flourishProbe c => Sys2Proof.Machine.execFlourishProbe c s
  | .flourishCounters c => Sys2Proof.Machine.execFlourishCounters c s
  | .linkInit l f => Sys2Proof.Machine.execLinkInit l f s
  | .probe l t1 t2 t3 t4 => Sys2Proof.Machine.execProbe l t1 t2 t3 t4 s
  | .berMeasureEnd l corrected uncorrectable received => Sys2Proof.Machine.execBerMeasureEnd l corrected uncorrectable received s
  | .trainAttemptTimeout l => Sys2Proof.Machine.execTrainAttemptTimeout l s
  | .fecLockLoss l => Sys2Proof.Machine.execFecLockLoss l s
  | .linkRetrainEnd l ok => Sys2Proof.Machine.execLinkRetrainEnd l ok s
  | .dataFlit l f => Sys2Proof.Machine.execDataFlit l f s
  | .replayTimeout l => Sys2Proof.Machine.execReplayTimeout l s
  | .creditStall l channel => Sys2Proof.Machine.execCreditStall l channel s
  | .read l m => Sys2Proof.Machine.execRead l m s
  | .write l m => Sys2Proof.Machine.execWrite l m s
  | .contrib l m => Sys2Proof.Machine.execContrib l m s
  | .signal l m => Sys2Proof.Machine.execSignal l m s
  | .readData l m => Sys2Proof.Machine.execReadData l m s
  | .compl l m => Sys2Proof.Machine.execCompl l m s
  | .retry l m => Sys2Proof.Machine.execRetry l m s
  | .lineMarker l m => Sys2Proof.Machine.execLineMarker l m s
  | .slow l m => Sys2Proof.Machine.execSlow l m s
  | .advert l m => Sys2Proof.Machine.execAdvert l m s
  | .collReady l m => Sys2Proof.Machine.execCollReady l m s
  | .collAbortReceived l m => Sys2Proof.Machine.execCollAbortReceived l m s
  | .concord l m => Sys2Proof.Machine.execConcord l m s
  | .spdm l e => Sys2Proof.Machine.execSpdm l e s
  | .remoteTimeout tag => Sys2Proof.Machine.execRemoteTimeout tag s
  | .heartbeat l => Sys2Proof.Machine.execHeartbeat l s
  | .challengeTimer l => Sys2Proof.Machine.execChallengeTimer l s
  | .keyUpdate l => Sys2Proof.Machine.execKeyUpdate l s
  | .collectiveBegin id => Sys2Proof.Machine.execCollectiveBegin id s
  | .collTimeout id => Sys2Proof.Machine.execCollTimeout id s
  | .loopbackEnd l corrected uncorrectable received => Sys2Proof.Machine.execLoopbackEnd l corrected uncorrectable received s
  | .linkStatus c => Sys2Proof.Machine.execLinkStatus c s
  | .linkSet c => Sys2Proof.Machine.execLinkSet c s
  | .linkReset c => Sys2Proof.Machine.execLinkReset c s
  | .linkLoopback c => Sys2Proof.Machine.execLinkLoopback c s
  | .groupConfig c => Sys2Proof.Machine.execGroupConfig c s
  | .groupRejoin c => Sys2Proof.Machine.execGroupRejoin c s
  | .groupStatus c => Sys2Proof.Machine.execGroupStatus c s
  | .collStart c => Sys2Proof.Machine.execCollStart c s
  | .collAbort c => Sys2Proof.Machine.execCollAbort c s
  | .linkCounters c => Sys2Proof.Machine.execLinkCounters c s
  | .aonResetNRelease straps => Sys2Proof.Machine.execAonResetNRelease straps s
  | .perstNFall => Sys2Proof.Machine.execPerstNFall s
  | .perstNRelease => Sys2Proof.Machine.execPerstNRelease s
  | .conventionalReset => Sys2Proof.Machine.execConventionalReset s
  | .bringupStageEnd r => Sys2Proof.Machine.execBringupStageEnd r s
  | .stageTimeout => Sys2Proof.Machine.execStageTimeout s
  | .scribeWatchdog => Sys2Proof.Machine.execScribeWatchdog s
  | .domainPowerTimeout domain => Sys2Proof.Machine.execDomainPowerTimeout domain s
  | .enterFaulted => Sys2Proof.Machine.execEnterFaulted s
  | .powerSample watts => Sys2Proof.Machine.execPowerSample watts s
  | .junctionSample maxC => Sys2Proof.Machine.execJunctionSample maxC s
  | .supplyLoss => Sys2Proof.Machine.execSupplyLoss s
  | .computeResetEnd p failed => Sys2Proof.Machine.execComputeResetEnd p failed s
  | .capEntryDone => Sys2Proof.Machine.execCapEntryDone s
  | .capWakeN => Sys2Proof.Machine.execCapWakeN s
  | .capWakeDone => Sys2Proof.Machine.execCapWakeDone s
  | .fwSessionTimeout => Sys2Proof.Machine.execFwSessionTimeout s
  | .faultLogRead c => Sys2Proof.Machine.execFaultLogRead c s
  | .reset c => Sys2Proof.Machine.execReset c s
  | .bringupConfig c => Sys2Proof.Machine.execBringupConfig c s
  | .defectMapRead c => Sys2Proof.Machine.execDefectMapRead c s
  | .defectMapClear c => Sys2Proof.Machine.execDefectMapClear c s
  | .settingsRead c => Sys2Proof.Machine.execSettingsRead c s
  | .settingsWrite c => Sys2Proof.Machine.execSettingsWrite c s
  | .settingsCommit c => Sys2Proof.Machine.execSettingsCommit c s
  | .fwWrite c => Sys2Proof.Machine.execFwWrite c s
  | .fwActivate c sig => Sys2Proof.Machine.execFwActivate c sig s
  | .fwStatus c => Sys2Proof.Machine.execFwStatus c s
  | .licenceInstall c sig => Sys2Proof.Machine.execLicenceInstall c sig s
  | .licenceQuery c => Sys2Proof.Machine.execLicenceQuery c s
  | .powerCapEnter c => Sys2Proof.Machine.execPowerCapEnter c s
  | .powerCapExit c => Sys2Proof.Machine.execPowerCapExit c s
  | .powerStatus c => Sys2Proof.Machine.execPowerStatus c s
  | .queryDeviceIdentifiers => Sys2Proof.Machine.execQueryDeviceIdentifiers s
  | .getFirmwareParameters => Sys2Proof.Machine.execGetFirmwareParameters s
  | .requestUpdate => Sys2Proof.Machine.execRequestUpdate s
  | .passComponentTable m => Sys2Proof.Machine.execPassComponentTable m s
  | .updateComponent m => Sys2Proof.Machine.execUpdateComponent m s
  | .requestFirmwareData m => Sys2Proof.Machine.execRequestFirmwareData m s
  | .transferComplete m => Sys2Proof.Machine.execTransferComplete m s
  | .verifyComplete m => Sys2Proof.Machine.execVerifyComplete m s
  | .applyComplete m => Sys2Proof.Machine.execApplyComplete m s
  | .activateFirmware sig => Sys2Proof.Machine.execActivateFirmware sig s
  | .getStatus => Sys2Proof.Machine.execGetStatus s
  | .cancelUpdate => Sys2Proof.Machine.execCancelUpdate s
  | .pldmSensorRequest x => Sys2Proof.Machine.execPldmSensorRequest x s
  | .getVersion => Sys2Proof.Machine.execGetVersion s
  | .getCapabilities => Sys2Proof.Machine.execGetCapabilities s
  | .negotiateAlgorithms => Sys2Proof.Machine.execNegotiateAlgorithms s
  | .getDigests => Sys2Proof.Machine.execGetDigests s
  | .getCertificate => Sys2Proof.Machine.execGetCertificate s
  | .challenge => Sys2Proof.Machine.execChallenge s
  | .getMeasurements => Sys2Proof.Machine.execGetMeasurements s
  | .obsCounters c => Sys2Proof.Machine.execObsCounters c s
  | .obsLatchRead c => Sys2Proof.Machine.execObsLatchRead c s
  | .obsProgConfig c => Sys2Proof.Machine.execObsProgConfig c s
  | .obsProgRead c => Sys2Proof.Machine.execObsProgRead c s
  | .obsTraceConfig c => Sys2Proof.Machine.execObsTraceConfig c s
  | .obsTraceControl c => Sys2Proof.Machine.execObsTraceControl c s
  | .obsRangeSelect c => Sys2Proof.Machine.execObsRangeSelect c s
  | .obsRangeRead c => Sys2Proof.Machine.execObsRangeRead c s
  | .obsWatchSet c => Sys2Proof.Machine.execObsWatchSet c s
  | .obsDigest c => Sys2Proof.Machine.execObsDigest c s
  | .obsDigestArm c => Sys2Proof.Machine.execObsDigestArm c s
  | .obsStepMode c => Sys2Proof.Machine.execObsStepMode c s
  | .obsStepNext c => Sys2Proof.Machine.execObsStepNext c s
  | .obsBlotterRead c => Sys2Proof.Machine.execObsBlotterRead c s
  | .obsFreeze c => Sys2Proof.Machine.execObsFreeze c s
  | .pcSample core => Sys2Proof.Machine.execPcSample core s
  | .traceDrainBurst instance_ => Sys2Proof.Machine.execTraceDrainBurst instance_ s
  | .stepLimitTimeout p q => Sys2Proof.Machine.execStepLimitTimeout p q s
  | .bypass => Sys2Proof.Machine.execBypass s
  | .idcode => Sys2Proof.Machine.execIdcode s
  | .samplePreload => Sys2Proof.Machine.execSamplePreload s
  | .extest => Sys2Proof.Machine.execExtest s
  | .clamp => Sys2Proof.Machine.execClamp s
  | .highz => Sys2Proof.Machine.execHighz s
  | .fecAlignmentLock l => Sys2Proof.Machine.execFecAlignmentLock l s
  | .challengeUnanswered l => Sys2Proof.Machine.execChallengeUnanswered l s
  | .memTestEnd findings => Sys2Proof.Machine.execMemTestEnd findings s
  | .illegal core word => Sys2Proof.Machine.execIllegal core word s
  | .imageVerified sigA sigB => Sys2Proof.Machine.execImageVerified sigA sigB s
  | .hdmDecoderUncommit => Sys2Proof.Machine.execHdmDecoderUncommit s
  | .aonResetNAssert => Sys2Proof.Machine.execAonResetNAssert s

end Sys2Proof.Machine
end

