-- ==== Sys2Proof/Safety.lean ====
section
/-! DEFINITION. What a run of the block keeps, and the terms in which statements speak of commands: the arrival of a firmware command,
its completion and its wait. -/
namespace Sys2Proof.Machine

/-- Both byte memories, the device's and the host's, are in their one canonical form. -/
def Safe (s : State) : Prop := Memory.wf s = true

/-- The state in which a firmware command's own chapter runs: `s` with its fetch in the primary Scribe's blotter (R433). -/
def arrive (op : Nat) (c : Cmd) (s : State) : State :=
  blot s 0x9000 0x28 (cmdPart c) (op + c.tag.toNat * 65536 + c.ring * 2 ^ 32 + c.fn * 2 ^ 40)

/-- Command `c` arrives at `s` and begins at once, in state `a`: its ring is fetched in this state (R61, R63), no outstanding command
bears its tag (R69), order, FENCE and the completion ring let it start (R68, R71), no earlier claim waits (R86), and the checks of R468
find nothing. -/
structure Begun (sp : FwSpec) (c : Cmd) (s a : State) : Prop where
  fetch : fetchable s c.fn c.ring = true
  fresh : duplicate s c = false
  starts : startable s c s.ink.fetched = true
  claims : arbiterWaits s sp.op c = false
  sound : judge sp c false (arrive sp.op c s) = none
  arrived : a = arrive sp.op c s

/-- The command completes with OK and result `res` in state `t`. -/
def Completes (i : Instr) (c : Cmd) (s t : State) (res : List Byte) : Prop := exec i s = .next (complete t c St.ok res)

/-- The command has begun and waits for `w`, in state `t`. -/
def Waits (i : Instr) (op : Nat) (c : Cmd) (s t : State) (w : Wait) : Prop :=
  exec i s = .next { t with ink.running := t.ink.running ++ [{ opcode := op, cmd := c, wait := w }] }

/-- Core `n` can issue the instruction word `w`, which names the scalar registers `regs` and reads the scratchpad ranges `reads` (R217,
R219, R227). -/
def Issues (s : State) (n : Nat) (w : BitVec 64) (regs : List Nat) (reads : List (Nat × Nat)) : Prop :=
  n < coreCount s ∧ canIssue (coreOf s n) regs = true ∧ fetches (coreOf s n) w = true ∧ readsReady (coreOf s n) reads = true

/-- No XWR of core `n` has yet to read a page of the scratchpad range (R227). -/
def MayWrite (s : State) (n a len : Nat) : Prop := pageUnread (coreOf s n) a len = false

/-- The fabric unit of core `n` waits for no TWAIT, FENCE or TSIG (R217, R227, R240). -/
def FabricFree (s : State) (n : Nat) : Prop :=
  (coreOf s n).twait = none ∧ (coreOf s n).fence = false ∧ (coreOf s n).tsigs = []

/-- The instruction issues on core `n` and does nothing but leave the core as `c`, at its next instruction. -/
def Sets (i : Instr) (s : State) (n : Nat) (c : Core) : Prop := exec i s = .next (setCore (issued s n) n (advance c))

/-- Command `c` is in progress on queue `q` of partition `p`, has code `k` and an admitted class, and has not begun (R234, R235). -/
def InQueue (s : State) (p q k : Nat) (c : CurCmd) : Prop :=
  (queueOf s p q).cur = some c ∧ qCode c.bytes = k ∧ c.begun = false ∧ c.status = none ∧ qClass c.bytes ≤ 3

end Sys2Proof.Machine
end

