-- ==== Sys2Proof/Certificates/Slice0/Obligations.lean ====
section
/-! DEFINITION. The statements for the provers: the rows of the table, family by family, and the block as a whole. Each docstring cites
the rules of the manual that its statement follows, and the entries of the assumption log on which a clause of it rests. -/

open Sys2Proof Sys2Proof.Machine

/-- A step takes the command at the front of the queue and runs it with the queue's rest. -/
def Obligations.StepRunsFrontCommand : Prop :=
  ∀ (c : Instr) (rest : List Instr) (s : State), s.pending = c :: rest → step s = exec c { s with pending := rest }

/-- On an empty queue a step lets one tick pass and answers a next state (the model's choice, log 1): time moves on by one period, the
tick field rises and holds at 0xFFFF (R28), on a line below 54.6 us it shows the tick of the last fabric cycle instead (R27), every token
bucket refills over the period (R128, R129), and nothing but time, the tick, token buckets, the expanders' queue-full cycles and the
counters of observation changes. Log 1. -/
def Obligations.IdleStepTicks : Prop :=
  ∀ s : State, s.pending = [] → ∃ t, step s = .next t ∧ t.time = s.time + periodNow s ∧
    (shortLine s = false → t.rul.tick.toNat = min 0xFFFF (s.rul.tick.toNat + 1)) ∧
    (shortLine s = true → t.rul.tick.toNat = max (tickAt s t.time) s.rul.tick.toNat) ∧
    t.svc.regs = tickRegs s (periodNow s) ∧ t.svc.trace = tickTrace s (periodNow s) ∧
    t = { s with time := t.time, rul.tick := t.rul.tick, svc.regs := t.svc.regs, svc.trace := t.svc.trace,
                 fold.exps := t.fold.exps, obs.ctr := t.obs.ctr, obs.progs := t.obs.progs } ∧
    ((∀ e ∈ s.fold.exps, e.2.queue.length < 48) → t.fold.exps = s.fold.exps)

/-- Every command answers a next state: none faults and none is refused. Log 8. -/
def Obligations.EveryCommandAnswersNext : Prop :=
  ∀ (i : Instr) (s : State), ∃ t, exec i s = .next t

/-- A command leaves the queue of waiting commands alone, on every state whose memories are in canonical form. -/
def Obligations.CommandKeepsQueue : Prop :=
  ∀ (i : Instr) (s t : State), Safe s → exec i s = .next t → t.pending = s.pending

/-- Every step keeps both byte memories, the device's and the host's, in canonical form. Logs 4 and 5. -/
def Obligations.StepKeepsMemoryCanonical : Prop :=
  ∀ s t : State, Safe s → step s = .next t → Safe t

/-- The memories of the reset state are in canonical form, and its queue is empty. Logs 2, 4 and 5. -/
def Obligations.ResetMemoryCanonical : Prop := Safe State.reset ∧ State.reset.pending = []

/-- A submission entry that arrives is judged in the order of R468, and the first failing item decides its status: it completes with that
status and has no other effect. A duplicate tag is refused even while order, FENCE or a full completion ring would hold the entry (R69),
and the outstanding command is unaffected; an entry that passes every item has the effect of its own chapter. Log 6. -/
def Obligations.EntryJudgedInOrder : Prop :=
  (∀ (sp : FwSpec) (work : Cmd → State → Answer) (c : Cmd) (s : State),
    fetchable s c.fn c.ring = true → s.ink.fetched.all (fun e => !(e.opcode == sp.op && sameTag e.cmd c)) = true → duplicate s c = true →
    firmware sp work c s = complete (arrive sp.op c s) c St.tagInUse [] ∧
      (firmware sp work c s).ink.running = s.ink.running ∧ (firmware sp work c s).ink.fetched = s.ink.fetched) ∧
  (∀ (sp : FwSpec) (work : Cmd → State → Answer) (c : Cmd) (s a : State), a = arrive sp.op c s →
    fetchable s c.fn c.ring = true → duplicate s c = false → startable s c s.ink.fetched = true → arbiterWaits s sp.op c = false →
    firmware sp work c s =
      if 8 ≤ c.flags.toNat then complete a c St.invalidField []
      else if isExt c = true ∧ (c.len = 0 ∨ 65535 < c.len) ∨ isExt c = false ∧ 48 < c.len then complete a c St.invalidLength []
      else if isExt c = true ∧ c.extAddr % 64 ≠ 0 then complete a c St.badAddress []
      else if wrongFunction sp c a = true then complete a c St.wrongFunction []
      else if wrongState sp c a = true then complete a c St.wrongState []
      else if isExt c = true ∧ c.good < min c.len (required sp c a) then complete a c St.hostFault []
      else if c.len < required sp c a ∨ needsExt sp c = true ∧ isExt c = false ∨ needsExt sp c = false ∧ isExt c = true ∧ 48 < c.len then
        complete a c St.invalidLength []
      else match work c a with
        | .done st res t => complete t c st res
        | .wait w t => { t with ink.running := t.ink.running ++ [{ opcode := sp.op, cmd := c, wait := w }] }
        | .held => { a with ink.fetched := a.ink.fetched ++ [{ opcode := sp.op, cmd := c }] })

/-- R71, R68: an entry that FENCE, ring order or a full completion ring holds back is fetched and not started; it has no other effect.
Log 6. -/
def Obligations.HeldEntryWaitsFetched : Prop :=
  ∀ (sp : FwSpec) (work : Cmd → State → Answer) (c : Cmd) (s : State),
    fetchable s c.fn c.ring = true → duplicate s c = false → startable s c s.ink.fetched = false →
    firmware sp work c s =
      { arrive sp.op c s with ink.fetched := s.ink.fetched ++ [{ opcode := sp.op, cmd := c }] }

/-- The completion entry of R66, written at the device pointer with the ring's PHASE (R67): the 32 bytes at base + 32 * pointer hold it,
every other byte of host memory reads as before, and the pointer advances, PHASE inverting at the wrap. -/
def Obligations.CompletionEntryWritten : Prop :=
  ∀ (s : State) (c : Cmd) (st : Nat) (res : List Byte) (r : Ring),
    Safe s → r = ringOf s c.fn (c.ring + 1) → r.held = [] → ringRoom s c.fn (c.ring + 1) = true →
    hostOk s (r.base.toNat + 32 * r.ptr) 32 = true →
    let t := complete s c st res
    hostGet t (r.base.toNat + 32 * r.ptr) 32 =
      leBytes 2 c.tag.toNat ++ leBytes 2 (st % 65536) ++ leBytes 2 (ringOf s c.fn c.ring).ptr ++
        [BitVec.ofNat 8 c.ring, BitVec.ofNat 8 (b2n r.phase)] ++ leBytes 8 (stamp s).toNat ++ padTo 16 res ∧
    (∀ x, x < r.base.toNat + 32 * r.ptr ∨ r.base.toNat + 32 * r.ptr + 32 ≤ x → cellGet hostDflt t.host x = cellGet hostDflt s.host x) ∧
    (ringOf t c.fn (c.ring + 1)).ptr = (r.ptr + 1) % 2 ^ r.log2 ∧
    (ringOf t c.fn (c.ring + 1)).phase = (if (r.ptr + 1) % 2 ^ r.log2 = 0 then !r.phase else r.phase) ∧
    (ringOf t c.fn (c.ring + 1)).held = []

/-- R68: with a full completion ring the entry is held, in order, and no byte of host memory changes. -/
def Obligations.FullCompletionRingHolds : Prop :=
  ∀ (s : State) (c : Cmd) (st : Nat) (res : List Byte) (r : Ring),
    r = ringOf s c.fn (c.ring + 1) → (r.ptr + 1) % 2 ^ r.log2 = r.other →
    (complete s c st res).host = s.host ∧
    (ringOf (complete s c st res) c.fn (c.ring + 1)) =
      { r with held := r.held ++ [{ tag := c.tag, status := BitVec.ofNat 16 st, sq := c.ring, stamp := stamp s,
                                    result := padTo 16 res, irq := !isNoIrq c }] }

/-- What a completion, a fetch's record and an event leave alone: all but Inkwell's functions and rings, the messages raised, host memory
and the observation block. Log 12. -/
def Obligations.RecordsLeaveTheRest : Prop :=
  ∀ (s : State) (c : Cmd) (op st : Nat) (res : List Byte) (code part : Nat) (data : List Byte) (droppable : Bool),
    let same := fun t : State => t = { s with ink.funcs := t.ink.funcs, ink.msix := t.ink.msix, host := t.host, obs := t.obs }
    same (complete s c st res) ∧ same (arrive op c s) ∧ same (post s code part data droppable)

/-- R75: an event whose event ring has room, with none waiting before it, is written there as the 32-byte entry of the table, at the device
pointer; other host bytes stay, and the ring's cause bit is set. -/
def Obligations.EventEntryWritten : Prop :=
  ∀ (s : State) (code part : Nat) (data : List Byte) (droppable : Bool) (fn : Nat) (r : Ring),
    Safe s → fn = servingFn s part → r = ringOf s fn 2 → (func s fn).backlog = [] → (func s fn).waiting = [] →
    (droppable = true → passes (func s fn) code = true) →
    ringRoom s fn 2 = true → hostOk s (r.base.toNat + 32 * r.ptr) 32 = true →
    let t := post s code part data droppable
    hostGet t (r.base.toNat + 32 * r.ptr) 32 =
      leBytes 2 code ++ [BitVec.ofNat 8 (b2n r.phase + 2 * b2n (func s fn).lostFlag), BitVec.ofNat 8 part] ++
        leBytes 4 s.rul.epoch.toNat ++ leBytes 8 (stamp s).toNat ++ padTo 16 data ∧
    (∀ x, x < r.base.toNat + 32 * r.ptr ∨ r.base.toNat + 32 * r.ptr + 32 ≤ x → cellGet hostDflt t.host x = cellGet hostDflt s.host x) ∧
    (ringOf t fn 2).ptr = (r.ptr + 1) % 2 ^ r.log2 ∧ (func t fn).backlog = [] ∧ (func t fn).lostFlag = false ∧
    (func t fn).irqStatus.getLsbD 2 = true

/-- RULING_STATUS writes the 64 B record of R52 to the buffer and completes; RULING_SET_SOURCES, RULING_SET_PERIOD, RULING_DISCIPLINE,
RULING_LOAD, RULING_ALARM and RULING_TRIGGER_SET leave what they set pending for the next boundary or in force, and nothing else; refused, each completes
with its status and no other effect (R40, R41, R46, R49 to R53). Logs 17 and 18. -/
def Obligations.RulingCommandRows : Prop :=
  (∀ c s a, Begun { op := 0x0201, need := 8 } c s a → hostOk a (p64 c 0) 64 = true →
    Completes (.rulingStatus c) c s (hostStore a (p64 c 0) (rulingRecord a)) []) ∧
  (∀ c s a l, Begun { op := 0x0202, need := 11 } c s a → parsePrefs [p8 c 0, p8 c 1, p8 c 2, p8 c 3] [] = some l →
    10000 ≤ p32 c 4 → p32 c 4 ≤ 1000000000 → p16 c 8 ≠ 0 → p8 c 10 < 2 →
    Completes (.rulingSetSources c) c s
      { a with rul.pendSources := some (if l.contains .free then l else l ++ [.free], p32 c 4, p16 c 8, decide (p8 c 10 = 1)),
               rul.pendPeriod := none } []) ∧
  (∀ c s a, Begun { op := 0x0203, need := 4 } c s a → 10000 ≤ p32 c 0 → p32 c 0 ≤ 1000000000 →
    Completes (.rulingSetPeriod c) c s { a with rul.pendPeriod := some (p32 c 0) } []) ∧
  (∀ c s a, Begun { op := 0x0204, need := 20 } c s a → a.rul.follower = false → (p32 c 16 = 0 ∨ p32 c 16 = a.rul.epoch.toNat) →
    (signed32 (p32 c 8)).natAbs ≤ 500000 → (p8 c 12 % 2 = 1 ∨ ((p64 c 0 : Int) - c.stamp.toNat).natAbs ≤ 65536) →
    Completes (.rulingDiscipline c) c s
      (advertise { a with
        rul.pendCorr := some (signed32 (p32 c 8)), rul.discValid := true, rul.discLines := 0, rul.adj := appliedSlew a.rul,
        rul.slew := if p8 c 12 % 2 = 1 then 0 else (p64 c 0 : Int) - c.stamp.toNat,
        rul.pendStep := if p8 c 12 % 2 = 1 then some ((p64 c 0 : Int) - c.stamp.toNat) else none }) []) ∧
  (∀ c s a, Begun { op := 0x0205, need := 12 } c s a → a.rul.follower = false → (p32 c 8 = 0 ∨ p32 c 8 = a.rul.epoch.toNat) →
    Completes (.rulingLoad c) c s { a with rul.pendLoad := some (BitVec.ofNat 48 (pn c 0 6)) } []) ∧
  (∀ c s a, Begun { op := 0x0206, need := 16 } c s a → (p32 c 8 = 0 ∨ p32 c 8 = a.rul.epoch.toNat) → (stamp a).toNat < p64 c 0 →
    Completes (.rulingAlarm c) c s { a with rul.alarms := a.rul.alarms ++
      [{ stamp := BitVec.ofNat 64 (p64 c 0), asked := BitVec.ofNat 64 (p64 c 0), cookie := BitVec.ofNat 32 (p32 c 12) }] } []) ∧
  (∀ c s a, Begun { op := 0x0207, need := 8 } c s a → holds a pinPair 2 c.fn = true → p8 c 0 % 4 ≠ 0 → p8 c 0 < 8 →
    1000 ≤ p32 c 4 → p32 c 4 ≤ 1000000000 → (p16 c 2 = 0xFFFF ∨ p16 c 2 < 16384) →
    Completes (.rulingTriggerSet c) c s
      { a with rul.trig := { a.rul.trig with
          config := some (bit (p8 c 0) 0, bit (p8 c 0) 1, bit (p8 c 0) 2, p16 c 2, p32 c 4) } } []) ∧
  (∀ c s a, Begun { op := 0x0203, need := 4 } c s a → (p32 c 0 < 10000 ∨ 1000000000 < p32 c 0) →
    exec (.rulingSetPeriod c) s = .next (complete a c St.periodRange [])) ∧
  (∀ c s a, Begun { op := 0x0202, need := 11 } c s a → parsePrefs [p8 c 0, p8 c 1, p8 c 2, p8 c 3] [] = none →
    exec (.rulingSetSources c) s = .next (complete a c St.sourceInvalid [])) ∧
  (∀ c s a, Begun { op := 0x0204, need := 20 } c s a → a.rul.follower = true →
    exec (.rulingDiscipline c) s = .next (complete a c St.notMaster [])) ∧
  (∀ c s a, Begun { op := 0x0205, need := 12 } c s a → a.rul.follower = false → p32 c 8 ≠ 0 → p32 c 8 ≠ a.rul.epoch.toNat →
    exec (.rulingLoad c) s = .next (complete a c St.epochStale [])) ∧
  (∀ c s a, Begun { op := 0x0206, need := 16 } c s a → (p32 c 8 = 0 ∨ p32 c 8 = a.rul.epoch.toNat) → p64 c 0 ≤ (stamp a).toNat →
    exec (.rulingAlarm c) s = .next (complete a c St.stampPast [])) ∧
  (∀ c s a, Begun { op := 0x0207, need := 8 } c s a → holds a pinPair 2 c.fn = false →
    exec (.rulingTriggerSet c) s = .next (complete a c St.notClaimed []))

/-- LINE_BOUNDARY where the generator gives the boundary, in holdover, under DISCIPLINED or FREE, or at a follower's slewed rate: the line
rises by one from the last boundary's numbering, the tick field restarts at 0, the epoch stays (R28), and the list, period, holdover limit
and correction that waited for the boundary are those in force (R41, R49). A loaded line takes the counter instead, a phase step moves it by
its error, and either opens the next epoch (R29, R41). A generator source that the list prefers to CADENCE_IN takes over at its own first
boundary (R32, R34, R35). Where an edge or a marker gives the boundary, the row changes nothing. Logs 8, 17, 18 and 97. -/
def Obligations.LineBoundaryAdvances : Prop :=
  (∀ s : State, (s.rul.holdover.isSome || isGen s.rul.source || followsMarkers s) = true → s.rul.pendLoad = none → s.rul.pendStep = none →
    ∃ t, exec .lineBoundary s = .next t ∧ t.rul.line = s.rul.line + 1 ∧ t.rul.tick = 0 ∧ t.rul.epoch = s.rul.epoch ∧
      t.time = max s.time (nextInstant s) ∧ t.rul.pendSources = none ∧ t.rul.pendPeriod = none ∧ t.rul.pendCorr = none ∧
      t.rul.corr = s.rul.pendCorr.getD s.rul.corr ∧
      (s.rul.pendSources = none → t.rul.prefs = s.rul.prefs ∧ t.rul.period = s.rul.pendPeriod.getD s.rul.period)) ∧
  (∀ (s : State) (l : List Src) (n lim : Nat) (el : Bool),
    (s.rul.holdover.isSome || isGen s.rul.source || followsMarkers s) = true → s.rul.pendLoad = none → s.rul.pendStep = none →
    s.rul.pendSources = some (l, n, lim, el) →
    ∃ t, exec .lineBoundary s = .next t ∧ t.rul.line = s.rul.line + 1 ∧ t.rul.prefs = l ∧ t.rul.limit = lim ∧ t.rul.eligible = el ∧
      t.rul.period = s.rul.pendPeriod.getD n ∧ t.rul.nominal = s.rul.pendPeriod.getD n) ∧
  (∀ (s : State) (l : BitVec 48), (s.rul.holdover.isSome || isGen s.rul.source || followsMarkers s) = true →
    s.rul.pendLoad = some l → s.rul.pendStep = none →
    ∃ t, exec .lineBoundary s = .next t ∧ t.rul.line = l ∧ t.rul.tick = 0 ∧ t.rul.pendLoad = none ∧
      t.rul.epoch = (if s.rul.epoch + 1 = 0 then 1 else s.rul.epoch + 1)) ∧
  (∀ (s : State) (e : Int), (s.rul.holdover.isSome || isGen s.rul.source || followsMarkers s) = true →
    s.rul.pendLoad = none → s.rul.pendStep = some e →
    ∃ t, exec .lineBoundary s = .next t ∧ t.rul.pendStep = none ∧ t.rul.slew = 0 ∧
      ((t.rul.line.toNat * 65536 + t.rul.tick.toNat : Nat) : Int) =
        min (2 ^ 64 - 1) (max 0 ((((s.rul.line.toNat + 1) % 2 ^ 48) * 65536 : Nat) + e)) ∧
      t.rul.epoch = (if s.rul.epoch + 1 = 0 then 1 else s.rul.epoch + 1)) ∧
  (∀ (s : State) (c : Src), s.rul.holdover = none → s.rul.source = .cadenceIn → s.rul.follower = false → genTarget s = some c →
    continuous s = true → s.rul.pendLoad = none → s.rul.pendStep = none →
    ∃ t, exec .lineBoundary s = .next t ∧ t.rul.line = s.rul.line + 1 ∧ t.rul.tick = 0 ∧ t.rul.source = c ∧ t.rul.epoch = s.rul.epoch) ∧
  (∀ s : State, boundaryDue s = false → exec .lineBoundary s = .next s)

/-- CADENCE_EDGE and CADENCE_EDGE_MISSING: without the pin pair's claim an edge does nothing but let time pass; the first edge is the
reference; an edge within a quarter of the period begins a line while CADENCE_IN is in force; an earlier one is a glitch, which takes the
reference from a source that is not valid yet and leaves a valid one its reference until the fourth within 64 lines; a later one makes
CADENCE_IN invalid and is the next reference; a missing one makes it invalid (R33, R36). Log 8. -/
def Obligations.CadenceEdgesJudged : Prop :=
  (∀ (s : State) (ns : Nat), pairCadence s = false → exec (.cadenceEdge ns) s = .next (elapseTo s (s.time + ns * 65536))) ∧
  (∀ (s u : State) (ns : Nat), u = elapseTo s (s.time + ns * 65536) → pairCadence s = true → s.rul.cad.refEdge = none →
    exec (.cadenceEdge ns) s = .next { u with rul.cad := { u.rul.cad with refEdge := some u.time, count := 1 } }) ∧
  (∀ (s u : State) (ns r : Nat), u = elapseTo s (s.time + ns * 65536) → pairCadence s = true → s.rul.cad.refEdge = some r →
    3 * (s.rul.nominal * 65536) ≤ 4 * (u.time - r) → 4 * (u.time - r) ≤ 5 * (s.rul.nominal * 65536) →
    s.rul.source = .cadenceIn → s.rul.holdover = none → s.rul.pendLoad = none → s.rul.pendStep = none →
    ∃ t, exec (.cadenceEdge ns) s = .next t ∧ t.rul.line = s.rul.line + 1 ∧ t.rul.tick = 0 ∧ t.rul.epoch = s.rul.epoch) ∧
  (∀ (s u : State) (ns r : Nat), u = elapseTo s (s.time + ns * 65536) → pairCadence s = true → s.rul.cad.refEdge = some r →
    4 * (u.time - r) < 3 * (s.rul.nominal * 65536) → s.rul.cad.valid = false →
    ∃ t, exec (.cadenceEdge ns) s = .next t ∧ t.rul.glitches.toNat = min 65535 (s.rul.glitches.toNat + 1) ∧
      t.rul.cad.refEdge = none ∧ t.rul.cad.count = 0 ∧ t.rul.line = s.rul.line) ∧
  (∀ (s u : State) (ns r : Nat), u = elapseTo s (s.time + ns * 65536) → pairCadence s = true → s.rul.cad.refEdge = some r →
    4 * (u.time - r) < 3 * (s.rul.nominal * 65536) → s.rul.cad.valid = true → s.rul.cad.rejectAges.length < 3 →
    ∃ t, exec (.cadenceEdge ns) s = .next t ∧ t.rul.glitches.toNat = min 65535 (s.rul.glitches.toNat + 1) ∧
      t.rul.cad.refEdge = some r ∧ t.rul.cad.valid = true ∧ t.rul.cad.rejectAges = s.rul.cad.rejectAges ++ [0] ∧ t.rul.line = s.rul.line) ∧
  (∀ (s u : State) (ns r : Nat), u = elapseTo s (s.time + ns * 65536) → pairCadence s = true → s.rul.cad.refEdge = some r →
    4 * (u.time - r) < 3 * (s.rul.nominal * 65536) → s.rul.cad.valid = true → 3 ≤ s.rul.cad.rejectAges.length → s.rul.source ≠ .cadenceIn →
    ∃ t, exec (.cadenceEdge ns) s = .next t ∧ t.rul.cad.valid = false ∧ t.rul.cad.refEdge = none) ∧
  (∀ (s u : State) (ns r : Nat), u = elapseTo s (s.time + ns * 65536) → pairCadence s = true → s.rul.cad.refEdge = some r →
    5 * (s.rul.nominal * 65536) < 4 * (u.time - r) →
    ∃ t, exec (.cadenceEdge ns) s = .next t ∧ t.rul.cad.refEdge = some u.time ∧ t.rul.cad.count = 1) ∧
  (∀ (s : State) (r : Nat), pairCadence s = true → s.rul.cad.refEdge = some r → (s.rul.source ≠ .cadenceIn ∨ s.rul.holdover.isSome = true) →
    ∃ t, exec .cadenceEdgeMissing s = .next t ∧ t.rul.cad.valid = false ∧ t.rul.cad.refEdge = none) ∧
  (∀ s : State, pairCadence s = false → exec .cadenceEdgeMissing s = .next s)

/-- The other events of the ruling. An expired holdover gives way to the next valid source, at once to a generator, and on a ruling master
or a follower the group elects again; a lost marker or a stale discipline makes its source invalid, and holdover begins where that source was
in force; an election names its outcome, which takes over at its next boundary, at once where no master is known; a trigger edge is taken or
ignored; due alarms fire (R33, R34, R39, R46, R53). Logs 8 and 97. -/
def Obligations.RulingEventsTakeEffect : Prop :=
  (∀ (s : State) (h : Holdover), s.rul.holdover = some h → h.remaining = 0 → s.rul.follower = false → s.duc.group = none →
    isGen (afterLost s h.lost) = true →
    ∃ t, exec .holdoverExpire s = .next t ∧ t.rul = { s.rul with source := afterLost s h.lost, holdover := none, pendSwitch := none }) ∧
  (∀ (s : State) (h : Holdover), s.rul.holdover = some h → h.remaining = 0 → s.rul.follower = false → s.duc.group = none →
    isGen (afterLost s h.lost) = false →
    exec .holdoverExpire s = .next { s with rul.pendSwitch := some (afterLost s h.lost) }) ∧
  (∀ (s : State) (h : Holdover), s.rul.holdover = some h → h.remaining = 0 → s.rul.follower = false → s.duc.group.isSome = true →
    s.rul.master = ownIndex s → elect (leaveHoldover s h.lost) ≠ ownIndex s →
    ∃ t, exec .holdoverExpire s = .next t ∧ coming t = elect (leaveHoldover s h.lost) ∧ t.rul.follower = true) ∧
  (∀ (s : State) (h : Holdover), s.rul.holdover = some h → h.remaining = 0 → s.rul.follower = true →
    ∃ t, exec .holdoverExpire s = .next t ∧ coming t = elect { s with duc.adverts := mdel s.duc.adverts (coming s) } ∧ t.rul.contrary = 0) ∧
  (∀ s u : State, u = elapseTo s (s.rul.markerAt + 2 * s.rul.nominal * 65536) → s.rul.markerValid = true → s.rul.source ≠ .rulingMaster →
    ∃ t, exec .markerLoss s = .next t ∧
      t.rul = { u.rul with markerValid := false, locked := false, slewing := false }) ∧
  (∀ s : State, s.rul.markerValid = true → s.rul.source = .rulingMaster → s.rul.holdover = none → s.rul.follower = true →
    ∃ t h, exec .markerLoss s = .next t ∧ t.rul.markerValid = false ∧ t.rul.holdover = some h ∧ h.lost = .rulingMaster) ∧
  (∀ s : State, s.rul.discValid = true → s.rul.limit ≤ s.rul.discLines → s.rul.source ≠ .disciplined →
    ∃ t, exec .disciplineStale s = .next t ∧ t.rul = { s.rul with discValid := false }) ∧
  (∀ s : State, s.rul.discValid = true → s.rul.limit ≤ s.rul.discLines → s.rul.source = .disciplined → s.rul.holdover = none →
    s.time < nextInstant (setHoldover { s with rul.discValid := false } 3 (correctedPeriod s.rul)) →
    ∃ t, exec .disciplineStale s = .next t ∧ t.rul = { s.rul with
      discValid := false,
      holdover := some { lost := .disciplined, remaining := s.rul.limit, period := correctedPeriod s.rul, base := s.rul.boundaryAt } }) ∧
  (∀ s : State, s.duc.group.isSome = true → masterLost s = false → (8 ≤ s.rul.contrary ∨ s.rul.master = 0xFFFF) → elect s ≠ ownIndex s →
    ∃ t, exec .election s = .next t ∧ coming t = elect s ∧ t.rul.follower = true ∧ t.rul.contrary = 0 ∧
      t.rul.pendSwitch = some .rulingMaster ∧ t.rul.master = (if s.rul.master = 0xFFFF then elect s else s.rul.master)) ∧
  (∀ s : State, s.duc.group.isSome = true → masterLost s = false → (8 ≤ s.rul.contrary ∨ s.rul.master = 0xFFFF) → elect s = ownIndex s →
    ∃ t, exec .election s = .next t ∧ coming t = elect s ∧ t.rul.follower = false ∧ t.rul.contrary = 0) ∧
  (∀ s : State, s.duc.group.isSome = true → masterLost s = true →
    ∃ t, exec .election s = .next t ∧ coming t = elect { s with duc.adverts := mdel s.duc.adverts (coming s) } ∧ t.rul.contrary = 0) ∧
  (∀ (s u : State) (rising onRise onFall posts : Bool) (ns tally hold : Nat), u = elapseTo s (s.time + ns * 65536) →
    s.rul.trig.config = some (onRise, onFall, posts, tally, hold) → pairTrigger s = true → (if rising then onRise else onFall) = true →
    (∀ l, s.rul.trig.lastAt = some l → l + hold * 65536 ≤ u.time) →
    exec (.triggerEdge rising ns) s = .next (
      let g := u.rul.trig;
      let s1 := { u with rul.trig := { g with lastAt := some u.time, lastStamp := stamp u, taken := g.taken + 1,
                                              ignoredSince := if posts then 0 else g.ignoredSince } };
      let s2 := if tally = 0xFFFF then s1 else tallySignalAs s1 tally 1 false 0xB000 none;
      if posts then
        post s2 0x0206 0xFF ([BitVec.ofNat 8 (b2n (!rising)), 0, 0, 0] ++ leBytes 4 (g.taken + 1).toNat ++ leBytes 4 g.ignoredSince.toNat) true
      else s2)) ∧
  (∀ (s u : State) (rising onRise onFall posts : Bool) (ns tally hold l : Nat), u = elapseTo s (s.time + ns * 65536) →
    s.rul.trig.config = some (onRise, onFall, posts, tally, hold) → pairTrigger s = true → (if rising then onRise else onFall) = true →
    s.rul.trig.lastAt = some l → u.time < l + hold * 65536 →
    ∃ t, exec (.triggerEdge rising ns) s = .next t ∧ t.rul.trig.taken = s.rul.trig.taken ∧
      t.rul.trig.ignored.toNat = min (2 ^ 32 - 1) (s.rul.trig.ignored.toNat + 1) ∧
      t.rul.trig.ignoredSince = s.rul.trig.ignoredSince + 1 ∧ t.rul.trig.lastAt = some l) ∧
  (∀ s : State, ∃ t, exec .alarmFire s = .next t ∧
    t = { s with rul.alarms := s.rul.alarms.filter (fun x => decide ((stamp s).toNat < x.stamp.toNat)),
                 ink := t.ink, host := t.host, obs := t.obs }) ∧
  (∀ (s : State) (x : Alarm), s.rul.alarms = [x] → x.stamp.toNat ≤ (stamp s).toNat →
    exec .alarmFire s = .next (postAt { s with rul.alarms := [] } x.stamp 0x0205 0xFF
      (leBytes 4 x.cookie.toNat ++ zeros 4 ++ leBytes 8 x.asked.toNat) false))

/-- INKW_CTRL, the console and DETACH (R57, R58, R60): EN, the entries that are not begun when a function is disabled or detached, and
characters of the console, which works in every state but ROM and on the PF only. Log 23. -/
def Obligations.ControlRegisterRows : Prop :=
  (∀ (s : State) (fn : Nat), exec (.inkwCtrlEn fn true) s = .next (setFunc s fn { func s fn with en := true })) ∧
  (∀ (s : State) (fn : Nat), ∃ t, exec (.inkwCtrlEn fn false) s = .next t ∧ (func t fn).en = false ∧
    t.ink.fetched = s.ink.fetched.filter (fun e => e.cmd.fn != fn) ∧ t.ink.running = s.ink.running ∧ t.ink.claims = s.ink.claims) ∧
  (∀ (s : State) (fn : Nat), s.ink.claims.filter (fun h => h.owner == fn) = [] →
    ∃ t, exec (.detach fn) s = .next t ∧ (func t fn).en = false ∧
      t.ink.fetched = s.ink.fetched.filter (fun e => e.cmd.fn != fn) ∧ t.ink.running = s.ink.running ∧ t.ink.claims = s.ink.claims) ∧
  (∀ (s : State) (v : BitVec 32), s.ink.state ≠ stRom → v.toNat % 256 ≠ 0x0A →
    exec (.inkwConIn 0 v) s = .next (setFunc s 0 { func s 0 with conLine := (func s 0).conLine ++ [v.setWidth 8] })) ∧
  (∀ (s : State) (fn : Nat) (v : BitVec 32), fn ≠ 0 ∨ s.ink.state = stRom → exec (.inkwConIn fn v) s = .next s)

/-- The other registers of a function: FAULT.NEW and IRQ_STATUS are cleared by writing 1, a mask takes effect, the coalescing fields are
stored and judged against the entries pending, ring bases are stored only while the ring's EN is 0, a write at a ring's configuration or
doorbell acts as that row, and a write of another size or alignment changes nothing (R55, R57, R63, R70, R73, R74). -/
def Obligations.RegisterWriteRows : Prop :=
  (∀ (s : State) (fn : Nat) (v : BitVec 32), exec (.registerWrite fn 0xC ⟨v, 4⟩) s =
    .next (setFunc s fn { func s fn with isNew := (func s fn).isNew && !v.getLsbD 31 })) ∧
  (∀ (s : State) (fn : Nat) (v : BitVec 32), exec (.registerWrite fn 0x20 ⟨v, 4⟩) s =
    .next (setFunc s fn { func s fn with irqStatus := (func s fn).irqStatus &&& ~~~ v.setWidth 19 })) ∧
  (∀ (s : State) (fn : Nat) (v : BitVec 32), ∃ t, exec (.registerWrite fn 0x24 ⟨v, 4⟩) s = .next t ∧
    (func t fn).irqMask = v.setWidth 19 ∧ (func t fn).irqStatus = (func s fn).irqStatus) ∧
  (∀ (s : State) (fn : Nat) (v : BitVec 32), ∃ t, exec (.registerWrite fn 0x28 ⟨v, 4⟩) s = .next t ∧
    (func t fn).coalCount = v.setWidth 8 ∧ (func t fn).coalTime = (v >>> 8).setWidth 16) ∧
  (∀ (s : State) (fn n : Nat) (v : BitVec 32) (r : Ring), (func s fn).rings = [(n, r)] → r.pendIrq ≠ 0 → (v.setWidth 8).toNat ≤ r.pendIrq →
    exec (.registerWrite fn 0x28 ⟨v, 4⟩) s = .next (setCause (setRing
      (setFunc s fn { func s fn with coalCount := v.setWidth 8, coalTime := (v >>> 8).setWidth 16 }) fn n { r with pendIrq := 0, oldest := none })
      fn n)) ∧
  (∀ (s : State) (fn n : Nat) (v : BitVec 32), n < 16 → ringExists s fn n = true → (ringOf s fn n).en = false →
    ∃ t, exec (.registerWrite fn (0x100 + 16 * n) ⟨v, 4⟩) s = .next t ∧
      (ringOf t fn n).base.toNat = (ringOf s fn n).base.toNat / 2 ^ 32 * 2 ^ 32 + v.toNat / 4096 * 4096) ∧
  (∀ (s : State) (fn n : Nat) (v : BitVec 32), n < 16 → ringExists s fn n = true → (ringOf s fn n).en = false →
    ∃ t, exec (.registerWrite fn (0x104 + 16 * n) ⟨v, 4⟩) s = .next t ∧
      (ringOf t fn n).base.toNat = v.toNat * 2 ^ 32 + (ringOf s fn n).base.toNat % 2 ^ 32) ∧
  (∀ (s : State) (fn n : Nat) (v : BitVec 32), n < 16 → (ringOf s fn n).en = true →
    exec (.registerWrite fn (0x100 + 16 * n) ⟨v, 4⟩) s = .next s ∧ exec (.registerWrite fn (0x104 + 16 * n) ⟨v, 4⟩) s = .next s) ∧
  (∀ (s : State) (fn n : Nat) (v : BitVec 32), n < 16 →
    exec (.registerWrite fn (0x108 + 16 * n) ⟨v, 4⟩) s = exec (.ringCfgWrite fn n v) s ∧
    exec (.registerWrite fn (0x1000 + 8 * n) ⟨v, 4⟩) s = exec (.headDoorbell fn n v) s) ∧
  (∀ (s : State) (fn off : Nat) (v : RegWrite), (v.size ≠ 4 ∨ off % 4 ≠ 0) → exec (.registerWrite fn off v) s = .next s)

/-- INKW_RING_CFG_n (R63): enabling a ring of a legal size restarts it with both pointers 0, and entries held for it are written; disabling
it completes with ABORTED what was fetched from it and not begun, and leaves what has begun; a write that keeps EN takes VECTOR, and
INVALID_FIELD is set where its size differs; an illegal size leaves EN at 0 with INVALID_FIELD; a ring that does not exist ignores the
write (R56, R58, R68). -/
def Obligations.RingConfigurationRows : Prop :=
  (∀ (s : State) (fn n : Nat) (v : BitVec 32) (r : Ring), r = ringOf s fn n → ringExists s fn n = true → r.en = false →
    v.getLsbD 0 = true → 4 ≤ bits v.toNat 4 1 → bits v.toNat 4 1 ≤ 12 →
    exec (.ringCfgWrite fn n v) s = .next (drainRing (setRing s fn n
      { r with en := true, vector := bits v.toNat 11 6, log2 := bits v.toNat 4 1, ptr := 0, other := 0, phase := true, stopped := false,
               refetch := false, writesHeld := false, pendIrq := 0, oldest := none, stamps := [] }) fn n)) ∧
  (∀ (s : State) (fn n : Nat) (v : BitVec 32) (r : Ring), r = ringOf s fn n → ringExists s fn n = true → r.en = false →
    v.getLsbD 0 = true → 4 ≤ bits v.toNat 4 1 → bits v.toNat 4 1 ≤ 12 → r.held = [] → (func s fn).backlog = [] → (func s fn).waiting = [] →
    s.ink.running = [] →
    ∃ t, exec (.ringCfgWrite fn n v) s = .next t ∧
      ringOf t fn n = { r with en := true, vector := bits v.toNat 11 6, log2 := bits v.toNat 4 1, ptr := 0, other := 0, phase := true,
                               stopped := false, refetch := false, writesHeld := false, pendIrq := 0, oldest := none, stamps := [] } ∧
      t.host = s.host ∧ t.ink.claims = s.ink.claims) ∧
  (∀ (s : State) (fn n : Nat) (v : BitVec 32) (r : Ring), r = ringOf s fn n → ringExists s fn n = true → r.en = true →
    v.getLsbD 0 = false →
    exec (.ringCfgWrite fn n v) s = .next (abortFetched
      (setRing s fn n { r with en := false, vector := bits v.toNat 11 6, log2 := bits v.toNat 4 1 }) (fun c => c.fn == fn && c.ring == n))) ∧
  (∀ (s : State) (fn n : Nat) (v : BitVec 32), ringExists s fn n = true → (ringOf s fn n).en = true → v.getLsbD 0 = false →
    ∃ t, exec (.ringCfgWrite fn n v) s = .next t ∧ (ringOf t fn n).en = false ∧
      t.ink.fetched = s.ink.fetched.filter (fun e => !(e.cmd.fn == fn && e.cmd.ring == n)) ∧ t.ink.running = s.ink.running ∧
      t.ink.claims = s.ink.claims) ∧
  (∀ (s : State) (fn n : Nat) (v : BitVec 32) (r : Ring), r = ringOf s fn n → ringExists s fn n = true → r.en = true →
    v.getLsbD 0 = true → bits v.toNat 4 1 = r.log2 →
    exec (.ringCfgWrite fn n v) s = .next (setRing s fn n { r with vector := bits v.toNat 11 6 })) ∧
  (∀ (s : State) (fn n : Nat) (v : BitVec 32) (r : Ring), r = ringOf s fn n → ringExists s fn n = true → r.en = true →
    v.getLsbD 0 = true → bits v.toNat 4 1 ≠ r.log2 →
    ∃ t, exec (.ringCfgWrite fn n v) s = .next t ∧ ringOf t fn n = { r with vector := bits v.toNat 11 6 } ∧
      (func t fn).reason.toNat = St.invalidField) ∧
  (∀ (s : State) (fn n : Nat) (v : BitVec 32) (r : Ring), r = ringOf s fn n → ringExists s fn n = true → r.en = false →
    v.getLsbD 0 = true → (bits v.toNat 4 1 < 4 ∨ 12 < bits v.toNat 4 1) →
    ∃ t, exec (.ringCfgWrite fn n v) s = .next t ∧ (ringOf t fn n).en = false ∧ (func t fn).reason.toNat = St.invalidField) ∧
  (∀ (s : State) (fn n : Nat) (v : BitVec 32) (r : Ring), r = ringOf s fn n → ringExists s fn n = true → r.en = false →
    v.getLsbD 0 = false →
    exec (.ringCfgWrite fn n v) s = .next (setRing s fn n { r with vector := bits v.toNat 11 6, log2 := bits v.toNat 4 1 })) ∧
  (∀ (s : State) (fn n : Nat) (v : BitVec 32), ringExists s fn n = false → exec (.ringCfgWrite fn n v) s = .next s)

/-- Doorbells (R62, R70, R469): a submission doorbell stores the tail, stamps every entry it submits, and has an entry whose read failed
read again; a head doorbell stores the head and lets held entries be written; one that names no enabled ring, or an index outside it, only
sets INVALID_FIELD; in RESETTING either is discarded. Logs 5 and 25. -/
def Obligations.DoorbellRows : Prop :=
  (∀ (s u : State) (fn n : Nat) (v : BitVec 32) (host : HostWrites) (r : Ring), u = prog (hostDid s host) 0xA000 1 none none 1 →
    r = ringOf s fn n → s.ink.state ≠ stResetting → ringExists s fn n = true → isSubmission n = true → r.en = true →
    v.toNat % 65536 < 2 ^ r.log2 →
    exec (.submissionDoorbell fn n v host) s = .next (setRing u fn n
      { r with other := v.toNat % 65536, stopped := false, refetch := r.stopped || r.refetch,
               stamps := (indicesTo (2 ^ r.log2) r.other (v.toNat % 65536)).foldl (fun m i => mput m i (stamp s)) r.stamps })) ∧
  (∀ (s : State) (fn n : Nat) (v : BitVec 32) (host : HostWrites),
    s.ink.state ≠ stResetting → (ringExists s fn n = false ∨ (ringOf s fn n).en = false ∨ 2 ^ (ringOf s fn n).log2 ≤ v.toNat % 65536) →
    ∃ t, exec (.submissionDoorbell fn n v host) s = .next t ∧ (func t fn).reason.toNat = St.invalidField ∧ ringOf t fn n = ringOf s fn n) ∧
  (∀ (s : State) (fn n : Nat) (v : BitVec 32) (host : HostWrites), s.ink.state = stResetting →
    exec (.submissionDoorbell fn n v host) s = .next (prog (hostDid s host) 0xA000 1 none none 1)) ∧
  (∀ (s : State) (fn n : Nat) (v : BitVec 32) (r : Ring),
    r = ringOf s fn n → s.ink.state ≠ stResetting → ringExists s fn n = true → isSubmission n = false → r.en = true →
    v.toNat % 65536 < 2 ^ r.log2 →
    exec (.headDoorbell fn n v) s =
      .next (drainRing (setRing (prog s 0xA000 1 none none 1) fn n { r with other := v.toNat % 65536, writesHeld := false }) fn n)) ∧
  (∀ (s : State) (fn n : Nat) (v : BitVec 32) (r : Ring),
    r = ringOf s fn n → s.ink.state ≠ stResetting → ringExists s fn n = true → isSubmission n = false → n ≠ 2 → r.en = true → r.held = [] →
    s.ink.running = [] → v.toNat % 65536 < 2 ^ r.log2 →
    ∃ t, exec (.headDoorbell fn n v) s = .next t ∧ ringOf t fn n = { r with other := v.toNat % 65536, writesHeld := false } ∧
      t.host = s.host ∧ t.ink.claims = s.ink.claims) ∧
  (∀ (s : State) (fn n : Nat) (v : BitVec 32) (r : Ring) (k : Completion), Safe s →
    r = ringOf s fn n → s.ink.state ≠ stResetting → ringExists s fn n = true → isSubmission n = false → n ≠ 2 → r.en = true → r.held = [k] →
    s.ink.running = [] → v.toNat % 65536 < 2 ^ r.log2 → (r.ptr + 1) % 2 ^ r.log2 ≠ v.toNat % 65536 →
    hostOk s (r.base.toNat + 32 * r.ptr) 32 = true →
    ∃ t, exec (.headDoorbell fn n v) s = .next t ∧ (ringOf t fn n).held = [] ∧ (ringOf t fn n).ptr = (r.ptr + 1) % 2 ^ r.log2 ∧
      hostGet t (r.base.toNat + 32 * r.ptr) 32 = padTo 32 (completionBytes k (ringOf s fn k.sq).ptr r.phase)) ∧
  (∀ (s : State) (fn n : Nat) (v : BitVec 32),
    s.ink.state ≠ stResetting → (ringExists s fn n = false ∨ (ringOf s fn n).en = false ∨ 2 ^ (ringOf s fn n).log2 ≤ v.toNat % 65536) →
    ∃ t, exec (.headDoorbell fn n v) s = .next t ∧ (func t fn).reason.toNat = St.invalidField ∧ ringOf t fn n = ringOf s fn n ∧ t.host = s.host) ∧
  (∀ (s : State) (fn n : Nat) (v : BitVec 32), s.ink.state = stResetting →
    exec (.headDoorbell fn n v) s = .next (prog s 0xA000 1 none none 1))

/-- RING_VISIT (R72, R468, R469): the ring whose turn it is has its next entry fetched, with the stamp of its doorbell, and the device
pointer advances; a failed read stops the ring with HOST_FAULT and no completion; a ring out of turn is not visited. Log 94. -/
def Obligations.RingVisitFetches : Prop :=
  (∀ (s : State) (fn n : Nat) (r : Ring) (e : Sub), r = ringOf s fn n → n < 16 → nextVisit s = some (fn * 16 + n) →
    r.stopped = false → r.ptr ≠ r.other → (r.ptr + 1) % 2 ^ r.log2 = r.other → hostOk s (r.base.toNat + 64 * r.ptr) 64 = true →
    e = subOfBytes s fn n (mget 0 r.stamps r.ptr) (hostGet s (r.base.toNat + 64 * r.ptr) 64) → duplicate s e.cmd = false →
    implemented e.opcode = true →
    ∃ t, exec (.ringVisit fn n) s = .next t ∧ t.ink.fetched = s.ink.fetched ++ [e] ∧ ringOf t fn n = { r with ptr := r.other, refetch := false } ∧
      t.ink.visited = fn * 16 + n ∧ t.host = s.host ∧ t.ink.running = s.ink.running) ∧
  (∀ (s : State) (fn n : Nat) (r : Ring), r = ringOf s fn n → n < 16 → nextVisit s = some (fn * 16 + n) →
    r.stopped = false → r.ptr ≠ r.other → hostOk s (r.base.toNat + 64 * r.ptr) 64 = false →
    ∃ t, exec (.ringVisit fn n) s = .next t ∧ t.ink.fetched = s.ink.fetched ∧ ringOf t fn n = { r with stopped := true, refetch := false } ∧
      (func t fn).reason.toNat = St.hostFault ∧ (func t fn).detail.toNat = n ∧ t.host = s.host) ∧
  (∀ (s : State) (fn n : Nat), nextVisit s ≠ some (fn * 16 + n) → exec (.ringVisit fn n) s = .next s)

/-- COALESCE_TIMEOUT sets the cause of a ring whose oldest pending entry has waited TIME_US, and only then (R74). A function-level reset ends
the function's rings, its waiting entries and its commands, leaves its EN, and touches neither host memory, the tiers, the cores nor the
serving block (R384). NumVFs takes its value, and the PF's two rings of a partition that a new VF serves are disabled (R90). Logs 20 and
21. -/
def Obligations.FunctionRows : Prop :=
  (∀ (s : State) (fn n t0 : Nat), (func s fn).coalTime ≠ 0 → (ringOf s fn n).oldest = some t0 →
    t0 + (func s fn).coalTime.toNat * 1000 * 65536 ≤ s.time →
    exec (.coalesceTimeout fn n) s = .next (setCause (setRing s fn n { ringOf s fn n with pendIrq := 0, oldest := none }) fn n)) ∧
  (∀ (s : State) (fn n : Nat), ((func s fn).coalTime = 0 ∨ (ringOf s fn n).oldest = none ∨
      ∃ t0, (ringOf s fn n).oldest = some t0 ∧ s.time < t0 + (func s fn).coalTime.toNat * 1000 * 65536) →
    exec (.coalesceTimeout fn n) s = .next s) ∧
  (∀ (s : State) (fn : Nat), fn ≤ s.ink.numVFs → s.ink.claims.filter (fun h => h.owner == fn) = [] →
    ∃ t, exec (.functionLevelReset fn) s = .next t ∧ (func t fn).rings = [] ∧ (func t fn).backlog = [] ∧ (func t fn).en = (func s fn).en ∧
      t.ink.fetched = s.ink.fetched.filter (fun e => e.cmd.fn != fn) ∧ t.ink.running = s.ink.running.filter (fun r => r.cmd.fn != fn) ∧
      t.host = s.host ∧ t.mem = s.mem ∧ t.srv = s.srv ∧ t.cpu = s.cpu) ∧
  (∀ (s : State) (k : Nat), k ≤ 4 → ∃ t, exec (.numvfsWrite k) s = .next t ∧ t.ink.numVFs = k) ∧
  (∀ (s : State) (p : Nat), s.ink.numVFs = p → p < 4 → s.ink.fetched = [] → ∃ t, exec (.numvfsWrite (p + 1)) s = .next t ∧
    (ringOf t 0 (4 + 2 * p)).en = false ∧ (ringOf t 0 (5 + 2 * p)).en = false)

/-- R59: INKW_STAMP_LO answers bits [31:0] of the ruling stamp, latches bits [63:32] into INKW_STAMP_HI, and nothing else changes; a read
of INKW_STAMP_HI then gives the latched bits, and at any time the last latched value. R55: a read of another size returns 0 and latches
nothing. -/
def Obligations.StampReadLatchesUpperHalf : Prop :=
  (∀ (s : State) (fn : Nat), ∃ t, exec (.stampLoRead ⟨fn, 4⟩) s = .next t ∧
    t.mem.reply = some { status := 0, data := [(stamp s).setWidth 8, (stamp s >>> 8).setWidth 8, (stamp s >>> 16).setWidth 8, (stamp s >>> 24).setWidth 8], poison := false } ∧
    (func t fn).stampHi = (stamp s >>> 32).setWidth 32 ∧ regRead t fn 0x1C = (stamp s).toNat / 2 ^ 32 ∧
    t = { setFunc s fn { func s fn with stampHi := (func t fn).stampHi } with mem.reply := t.mem.reply }) ∧
  (∀ (s : State) (fn : Nat), regRead s fn 0x1C = (func s fn).stampHi.toNat) ∧
  (∀ (s : State) (fn size : Nat), size ≠ 4 →
    exec (.stampLoRead ⟨fn, size⟩) s = .next { s with mem.reply := some { status := 0, data := zeros size, poison := false } })

/-- The admin commands that report, set or end: IDENTIFY and OPCODE_MAP write their records, EVENT_FILTER stores a mask, ECHO returns its
payload, and ABORT ends a command that has not begun, whose entry is written first, or reports one that has begun, itself included, or is
not there (R79, R81, R82). Log 93. -/
def Obligations.AdminCommandRows : Prop :=
  (∀ c s a, Begun { op := 0x0101, need := 8 } c s a → hostOk a (p64 c 0) 256 = true →
    Completes (.identify c) c s (hostStore a (p64 c 0) (padTo 256 (identifyRecord a))) []) ∧
  (∀ c s a, Begun { op := 0x0102, need := 8 } c s a → hostOk a (p64 c 0) 384 = true →
    Completes (.opcodeMap c) c s (hostStore a (p64 c 0)
      (((List.range 12).map (fun i => leBytes 32 (maskOf ((List.range 256).filter (fun k => implemented ((i + 1) * 256 + k)))))).flatten)) []) ∧
  (∀ c s a, Begun { op := 0x0107, need := 33 } c s a → 1 ≤ p8 c 32 → p8 c 32 ≤ 12 →
    Completes (.eventFilter c) c s
      (setFunc a c.fn { func a c.fn with filters := mput (func a c.fn).filters (p8 c 32) (BitVec.ofNat 256 (pn c 0 32)) }) []) ∧
  (∀ c s a, Begun { op := 0x0108 } c s a → Completes (.echo c) c s a (padTo 16 ((body c).take c.len))) ∧
  (∀ c s a, Begun { op := 0x0101, need := 8 } c s a → hostOk a (p64 c 0) 256 = false →
    exec (.identify c) s = .next (complete a c St.hostFault [])) ∧
  (∀ c s a, Begun { op := 0x0106, need := 4 } c s a → ringExists a c.fn (p8 c 0) = true →
    a.ink.fetched.any (fun e => e.cmd.fn == c.fn && e.cmd.ring == p8 c 0 && e.cmd.tag.toNat == p16 c 2) = true →
    entryHeld (abortFetched a (fun x => x.fn == c.fn && x.ring == p8 c 0 && x.tag.toNat == p16 c 2)) (p8 c 0) (BitVec.ofNat 16 (p16 c 2)) = false →
    Completes (.abort c) c s (abortFetched a (fun x => x.fn == c.fn && x.ring == p8 c 0 && x.tag.toNat == p16 c 2)) [0]) ∧
  (∀ c s a, Begun { op := 0x0106, need := 4 } c s a → ringExists a c.fn (p8 c 0) = true →
    a.ink.fetched.any (fun e => e.cmd.fn == c.fn && e.cmd.ring == p8 c 0 && e.cmd.tag.toNat == p16 c 2) = true →
    entryHeld (abortFetched a (fun x => x.fn == c.fn && x.ring == p8 c 0 && x.tag.toNat == p16 c 2)) (p8 c 0) (BitVec.ofNat 16 (p16 c 2)) = true →
    Waits (.abort c) 0x0106 c s (abortFetched a (fun x => x.fn == c.fn && x.ring == p8 c 0 && x.tag.toNat == p16 c 2))
      (.abort (p8 c 0) (BitVec.ofNat 16 (p16 c 2)))) ∧
  (∀ c s a, Begun { op := 0x0106, need := 4 } c s a → ringExists a c.fn (p8 c 0) = true →
    a.ink.fetched.any (fun e => e.cmd.fn == c.fn && e.cmd.ring == p8 c 0 && e.cmd.tag.toNat == p16 c 2) = false →
    (c.ring = p8 c 0 ∧ c.tag.toNat = p16 c 2 ∨
      a.ink.running.any (fun e => e.cmd.fn == c.fn && e.cmd.ring == p8 c 0 && e.cmd.tag.toNat == p16 c 2) = true) →
    Completes (.abort c) c s a [1]) ∧
  (∀ c s a, Begun { op := 0x0106, need := 4 } c s a → ringExists a c.fn (p8 c 0) = true →
    a.ink.fetched.any (fun e => e.cmd.fn == c.fn && e.cmd.ring == p8 c 0 && e.cmd.tag.toNat == p16 c 2) = false →
    a.ink.running.any (fun e => e.cmd.fn == c.fn && e.cmd.ring == p8 c 0 && e.cmd.tag.toNat == p16 c 2) = false →
    (c.ring = p8 c 0 → c.tag.toNat ≠ p16 c 2) →
    Completes (.abort c) c s a [2])

/-- CLAIM grants a mode that conflicts with no holding, repeats a holding without effect, and refuses a conflict with the holder named;
CLAIM_QUERY reports the first holding; RELEASE releases every holding of the function on the resource (R83 to R89). Log 22. -/
def Obligations.ClaimsGrantedAndReleased : Prop :=
  (∀ c s a, Begun { op := 0x0103, need := 5 } c s a → resValid (p32 c 0) = true → (claimModes (resType (p32 c 0))).contains (p8 c 4) = true →
    claimImplicit (resType (p32 c 0)) (p8 c 4) = false → (c.fn = 0 → vfServes a (p32 c 0) = false) →
    conflict? a (p32 c 0) (p8 c 4) c.fn = none → holds a (p32 c 0) (p8 c 4) c.fn = false → p32 c 0 ≠ pinPair →
    Completes (.claim c) c s
      { a with ink.claims := a.ink.claims ++ [{ res := p32 c 0, mode := p8 c 4, owner := c.fn }] }
      (leBytes 4 (p32 c 0) ++ [BitVec.ofNat 8 (p8 c 4)])) ∧
  (∀ c s a, Begun { op := 0x0103, need := 5 } c s a → p32 c 0 = pinPair → p8 c 4 = 1 → (c.fn = 0 → vfServes a (p32 c 0) = false) →
    conflict? a (p32 c 0) (p8 c 4) c.fn = none → holds a (p32 c 0) (p8 c 4) c.fn = false →
    Completes (.claim c) c s
      { a with ink.claims := a.ink.claims ++ [{ res := pinPair, mode := 1, owner := c.fn }], rul.cad := {} }
      (leBytes 4 pinPair ++ [1])) ∧
  (∀ c s a, Begun { op := 0x0103, need := 5 } c s a → resValid (p32 c 0) = true → (claimModes (resType (p32 c 0))).contains (p8 c 4) = true →
    claimImplicit (resType (p32 c 0)) (p8 c 4) = false → (c.fn = 0 → vfServes a (p32 c 0) = false) →
    conflict? a (p32 c 0) (p8 c 4) c.fn = none → holds a (p32 c 0) (p8 c 4) c.fn = true →
    Completes (.claim c) c s a (leBytes 4 (p32 c 0) ++ [BitVec.ofNat 8 (p8 c 4)])) ∧
  (∀ c s a h, Begun { op := 0x0103, need := 5 } c s a → resValid (p32 c 0) = true → (claimModes (resType (p32 c 0))).contains (p8 c 4) = true →
    claimImplicit (resType (p32 c 0)) (p8 c 4) = false → (c.fn = 0 → vfServes a (p32 c 0) = false) →
    conflict? a (p32 c 0) (p8 c 4) c.fn = some h →
    exec (.claim c) s = .next (complete a c St.claimConflict (leBytes 4 (p32 c 0) ++ [BitVec.ofNat 8 h.mode, BitVec.ofNat 8 h.owner]))) ∧
  (∀ c s a, Begun { op := 0x0105, need := 4 } c s a → resValid (p32 c 0) = true → holdings a (p32 c 0) = [] →
    Completes (.claimQuery c) c s a (leBytes 4 (p32 c 0) ++ [0, 0xFF, 0])) ∧
  (∀ c s a h l, Begun { op := 0x0105, need := 4 } c s a → resValid (p32 c 0) = true → holdings a (p32 c 0) = h :: l →
    Completes (.claimQuery c) c s a
      (leBytes 4 (p32 c 0) ++ [BitVec.ofNat 8 h.mode, BitVec.ofNat 8 h.owner, BitVec.ofNat 8 (l.length + 1)])) ∧
  (∀ c s a, Begun { op := 0x0104, need := 4 } c s a → resValid (p32 c 0) = true → holdings a (p32 c 0) = [] →
    Completes (.release c) c s a []) ∧
  (∀ c s a h, Begun { op := 0x0104, need := 4 } c s a → p32 c 0 = pinPair → h = { res := pinPair, mode := 2, owner := c.fn } →
    a.ink.claims.filter (fun x => x.res == pinPair && x.owner == c.fn) = [h] →
    Completes (.release c) c s
      { a with rul.trig := { a.rul.trig with config := none }, ink.claims := a.ink.claims.filter (fun x => !(x == h)) } []) ∧
  (∀ c s a, Begun { op := 0x0104, need := 4 } c s a → resValid (p32 c 0) = true → holdings a (p32 c 0) ≠ [] →
    (∀ h ∈ holdings a (p32 c 0), h.owner ≠ c.fn) →
    exec (.release c) s = .next (complete a c St.notOwner []))

/-- The region table's commands and the queries of the map (R104, R105, R121, R122): MEM_QUERY, MEM_REGION_SET, MEM_REGION_GET and
MEM_LOCATE. Logs 30 and 31. -/
def Obligations.MapCommandsComplete : Prop :=
  (∀ c s a, Begun { op := 0x0301, need := 8 } c s a → hostOk a (p64 c 0) 128 = true →
    Completes (.memQuery c) c s (hostStore a (p64 c 0) (tierRecord a)) []) ∧
  (∀ (c : Cmd) (s a plain : State) (t : Tier) (run : List Nat), Begun { op := 0x0302, need := 17, vf := false } c s a → t = tierOf (p8 c 0) →
    p8 c 0 ≤ 1 → run = (List.range (p16 c 4)).map (p16 c 2 + ·) → plain = regionTableSet a t (p16 c 2) (p16 c 4) (p64 c 8) (p8 c 16) →
    regionSetInvalid a c = false → run.any (regionClaimed a t) = false →
    (movedUnits a plain t = true → (hashedRegions a t).any (regionClaimed a t) = false) → overlaps plain t run = false → poolShort plain t = false →
    Completes (.memRegionSet c) c s (regionSetApply a t (p16 c 2) (p16 c 4) (p64 c 8) (p8 c 16)) []) ∧
  (∀ c s a, Begun { op := 0x0303, need := 4 } c s a → p8 c 0 ≤ 1 → p16 c 2 < regionCount (tierOf (p8 c 0)) →
    Completes (.memRegionGet c) c s a (leBytes 8 (regionEntry a (tierOf (p8 c 0)) (p16 c 2)))) ∧
  (∀ c s a p e, Begun { op := 0x0304, need := 8 } c s a → p64 c 0 < 2 ^ 48 → locate a (p64 c 0) = some (p, e) →
    Completes (.memLocate c) c s a (locateResult p e)) ∧
  (∀ c s a, Begun { op := 0x0304, need := 8 } c s a → p64 c 0 < 2 ^ 48 → locate a (p64 c 0) = none →
    exec (.memLocate c) s = .next (complete a c St.regionInvalid (zeros 16))) ∧
  (∀ c s a, Begun { op := 0x0302, need := 17, vf := false } c s a → p8 c 0 ≤ 1 → p16 c 2 < regionCount (tierOf (p8 c 0)) → 0 < p16 c 4 →
    regionClaimed a (tierOf (p8 c 0)) (p16 c 2) = true →
    exec (.memRegionSet c) s = .next (complete a c St.regionBusy []))

/-- Moves of bytes by command (R120, R149): MEM_COPY in each of its three directions, MEM_FILL and MEM_CACHE_OP, where no access of
theirs is held, complete with the status and in the state that the copy, the fill or the cache operation answers; a cache operation answers
OK where every region may be reached and no line of a tripped unit stays, and a write within one granule is that granule's write. A copy at
a source that is not 64-byte aligned answers BAD_ADDRESS and a cache operation in the CXL host window WINDOW_FENCED, with no other effect.
Logs 31 and 35. -/
def Obligations.MoveCommandsComplete : Prop :=
  (∀ (c : Cmd) (s a t : State) (st : Nat), Begun { op := 0x0305, need := 26 } c s a → 0 < p64 c 16 → p8 c 24 = 1 → p8 c 25 ≤ 3 →
    p64 c 0 % 64 = 0 → p64 c 8 % 64 = 0 → p64 c 16 % 64 = 0 → p64 c 8 < 2 ^ 48 →
    copyHeld a (cmdRq c) false true (p64 c 0) (p64 c 8) (p64 c 16) (p8 c 25) = false →
    copyIn a (cmdRq c) (p64 c 0) (p64 c 8) (p64 c 16) (p8 c 25) = (st, t) →
    exec (.memCopy c) s = .next (complete t c st [])) ∧
  (∀ (c : Cmd) (s a t : State) (st : Nat), Begun { op := 0x0305, need := 26 } c s a → 0 < p64 c 16 → p8 c 24 = 2 → p8 c 25 ≤ 3 →
    p64 c 0 % 64 = 0 → p64 c 8 % 64 = 0 → p64 c 16 % 64 = 0 → p64 c 0 < 2 ^ 48 →
    copyHeld a (cmdRq c) true false (p64 c 0) (p64 c 8) (p64 c 16) (p8 c 25) = false →
    copyOut a (cmdRq c) (p64 c 0) (p64 c 8) (p64 c 16) (p8 c 25) = (st, t) →
    exec (.memCopy c) s = .next (complete t c st [])) ∧
  (∀ (c : Cmd) (s a t : State) (st : Nat), Begun { op := 0x0305, need := 26 } c s a → 0 < p64 c 16 → p8 c 24 = 0 → p8 c 25 ≤ 3 →
    p64 c 0 % 64 = 0 → p64 c 8 % 64 = 0 → p64 c 16 % 64 = 0 → p64 c 0 < 2 ^ 48 → p64 c 8 < 2 ^ 48 →
    copyHeld a (cmdRq c) true true (p64 c 0) (p64 c 8) (p64 c 16) (p8 c 25) = false →
    copyWithin a (cmdRq c) (p64 c 0) (p64 c 8) (p64 c 16) (p8 c 25) = (st, t) →
    exec (.memCopy c) s = .next (complete t c st [])) ∧
  (∀ (c : Cmd) (s a t : State) (b : List Byte) (st : Nat), Begun { op := 0x0306, need := 24 } c s a → 0 < p64 c 8 → p64 c 0 % 64 = 0 →
    p64 c 8 % 64 = 0 → p64 c 0 < 2 ^ 48 → b = (List.replicate (p64 c 8 / 8) (slice (body c) 16 8)).flatten →
    accessWaits a (cmdRq c) true (p64 c 0) (p64 c 8) 2 = false → writeBytes a (cmdRq c) (p64 c 0) b false 2 = (st, t) →
    exec (.memFill c) s = .next (complete t c st [])) ∧
  (∀ (c : Cmd) (s a t : State) (st : Nat), Begun { op := 0x0307, need := 17 } c s a → 0 < p64 c 8 → 1 ≤ p8 c 16 → p8 c 16 ≤ 3 →
    p64 c 0 % 64 = 0 → p64 c 8 % 64 = 0 → p64 c 0 < 2 ^ 48 → rangeFenced a (p64 c 0) (p64 c 8) = false →
    cacheOp a (cmdPart c) (p64 c 0) (p64 c 8) (p8 c 16) = (st, t) →
    exec (.memCacheOp c) s = .next (complete t c st [])) ∧
  (∀ (s : State) (p : Option Nat) (dpa len code : Nat), firstBad ((regionSteps dpa len).map (cacheStatusAt s p)) = St.ok →
    (flushRange s dpa (dpa + len) (code % 2 == 1) (decide (2 ≤ code))).2 = false →
    cacheOp s p dpa len code = (St.ok, (flushRange s dpa (dpa + len) (code % 2 == 1) (decide (2 ≤ code))).1)) ∧
  (∀ (s : State) (r : Requester) (dpa cls : Nat) (b : List Byte) (poison : Bool), rangeStatus s r true dpa b.length = St.ok →
    foldedRefusal s dpa b.length = false → dpa % 64 + b.length ≤ 64 → 0 < b.length →
    writeBytes s r dpa b poison cls = writeAt (charge (watch s r 1 dpa b.length) r dpa b.length cls) r dpa b poison cls) ∧
  (∀ c s a, Begun { op := 0x0305, need := 26 } c s a → 0 < p64 c 16 → p8 c 24 < 3 → p8 c 25 ≤ 3 → p64 c 0 % 64 ≠ 0 →
    exec (.memCopy c) s = .next (complete a c St.badAddress [])) ∧
  (∀ c s a, Begun { op := 0x0307, need := 17 } c s a → 0 < p64 c 8 → 1 ≤ p8 c 16 → p8 c 16 ≤ 3 → p64 c 0 % 64 = 0 → p64 c 8 % 64 = 0 →
    p64 c 0 < 2 ^ 48 → rangeFenced a (p64 c 0) (p64 c 8) = true →
    exec (.memCacheOp c) s = .next (complete a c St.windowFenced []))

/-- The CXL host window (R117 to R119, R143): MEM_WINDOW_SET under its licence records the window, and answers NOT_LICENSED without one;
MEM_WINDOW_CLEAR ends it, and answers REGION_BUSY while the decoder is committed; the decoder's commit and uncommit; a read or write that
meets the window, is not held and meets no tripped unit is the granule's and is answered; on a tripped unit a read answers with the poison
indication and a write is dropped and recorded; an address outside the window changes nothing. Logs 12, 29 and 35. -/
def Obligations.WindowRows : Prop :=
  (∀ (c : Cmd) (s a b : State) (limit : Nat), Begun { op := 0x0308, need := 4, vf := false } c s a → licenceLimit a 2 = some limit →
    0 < p16 c 2 → p16 c 2 ≤ 1024 → p16 c 2 ≤ limit → p16 c 0 + p16 c 2 ≤ 4096 →
    ((List.range (p16 c 2)).map (p16 c 0 + ·)).all (fun r => eMode (regionEntry a .cap r) != 0) = true → a.mem.window = none →
    reservedPort a ((List.range (p16 c 2)).map (p16 c 0 + ·)) = none →
    claimAll 3 (((List.range (p16 c 2)).map (p16 c 0 + ·)).map (regionRes .cap)) a = .inl b →
    ∃ t, exec (.memWindowSet c) s = .next (complete t c St.ok []) ∧ t.mem.window = some (p16 c 0, p16 c 2)) ∧
  (∀ c s a, Begun { op := 0x0308, need := 4, vf := false } c s a → licenceLimit a 2 = none →
    exec (.memWindowSet c) s = .next (complete a c St.notLicensed [])) ∧
  (∀ c s a, Begun { op := 0x0309, vf := false } c s a → a.mem.committed = false →
    ∃ t, exec (.memWindowClear c) s = .next (complete t c St.ok []) ∧ t.mem.window = none) ∧
  (∀ c s a, Begun { op := 0x0309, vf := false } c s a → a.mem.committed = true →
    exec (.memWindowClear c) s = .next (complete a c St.regionBusy [])) ∧
  (∀ s : State, exec .hdmDecoderCommit s = .next { s with mem.committed := true }) ∧
  (∀ s : State, exec .hdmDecoderUncommit s = .next { s with mem.committed := false }) ∧
  (∀ (s : State) (dpa a : Nat) (g : Got), inWindow s dpa = true → a = dpa / 64 * 64 → gateHolds s .window a 64 1 = false →
    retrainingAt s false a 64 = none → dpaTripped s a = false → g = readGranule (charge s .window a 64 1) .window a 1 →
    exec (.cxlMemRead dpa) s = .next { g.s with
      mem.reply := some { status := BitVec.ofNat 16 g.status, data := g.data, poison := g.poison } }) ∧
  (∀ (s : State) (dpa : Nat), inWindow s dpa = true → dpaTripped s (dpa / 64 * 64) = true →
    ∃ t b, exec (.cxlMemRead dpa) s = .next t ∧ t.mem.reply = some { status := 0, data := b, poison := true } ∧
      t = { s with mem.reply := t.mem.reply, free := t.free }) ∧
  (∀ (s : State) (dpa : Nat), inWindow s dpa = false → exec (.cxlMemRead dpa) s = .next s) ∧
  (∀ (s : State) (dpa : Nat) (b : List Byte), inWindow s dpa = true → b.length = 64 → dpa % 64 = 0 → gateHolds s .window dpa 64 1 = false →
    retrainingAt s true dpa 64 = none → dpaTripped s dpa = false →
    exec (.cxlMemWrite dpa b) s = .next { (writeGranule (charge s .window dpa 64 1) .window dpa b false 1).2 with
      mem.reply := some { status := BitVec.ofNat 16 (writeGranule (charge s .window dpa 64 1) .window dpa b false 1).1, data := [], poison := false } }) ∧
  (∀ (s : State) (dpa e : Nat) (b : List Byte) (p : Place), inWindow s dpa = true → 0 < b.length → dpa % 64 + b.length ≤ 64 →
    locate s (dpa / 64 * 64) = some (p, e) → tripped s p.tier (chanUnit p.tier p.chan) = true →
    exec (.cxlMemWrite dpa b) s = .next (setReply (noteDrop s p.tier p.chan p.off (dpa / 64 * 64) 4) St.ok [] false)) ∧
  (∀ (s : State) (dpa : Nat) (b : List Byte), inWindow s dpa = false → exec (.cxlMemWrite dpa b) s = .next s)

/-- The control window (R98) and the memory test (R389): a descriptor written whole starts the cache operation that it names, whose status
CACHE_CONTROL_DONE reports; one with a bad field completes with BAD_ADDRESS, and one written while an operation runs sets OVERRUN. MEM_TEST
waits for its end, at which every channel of the units tested holds the test's last writes and nothing else, the channels that fail are marked
for map-out, the findings are in the buffer, and the command completes with OK. Logs 7 and 28. -/
def Obligations.ControlAndTestRows : Prop :=
  (∀ (s : State) (p : Nat) (b : List Byte), p < 4 → b.length = 64 → (ctlOf s p).busy = true →
    exec (.cacheControlWrite (.part p) p b) s = .next { s with
      mem.ctl := mput s.mem.ctl p { ctlOf s p with overrun := true },
      mem.reply := some { status := 0, data := [], poison := false } }) ∧
  (∀ (s : State) (p : Nat) (b : List Byte), p < 4 → b.length = 64 → (ctlOf s p).busy = false → fieldN b 8 8 = 0 →
    exec (.cacheControlWrite (.part p) p b) s = .next { s with
      mem.ctl := mput (mput s.mem.ctl p { ctlOf s p with busy := true, overrun := false }) p
        { ctlOf s p with busy := false, overrun := false, op := none, status := BitVec.ofNat 16 St.badAddress, count := (ctlOf s p).count + 1, stamp := stamp s },
      mem.reply := some { status := 0, data := [], poison := false } }) ∧
  (∀ (s u : State) (p st : Nat) (b : List Byte), p < 4 → b.length = 64 → (ctlOf s p).busy = false → fieldN b 0 8 < 2 ^ 48 →
    fieldN b 0 8 % 64 = 0 → fieldN b 8 8 % 64 = 0 → fieldN b 8 8 ≠ 0 → 1 ≤ fieldN b 16 1 → fieldN b 16 1 ≤ 3 →
    cacheOp { s with mem.ctl := mput s.mem.ctl p { ctlOf s p with busy := true, overrun := false } } (some p) (fieldN b 0 8) (fieldN b 8 8)
      (fieldN b 16 1) = (st, u) →
    exec (.cacheControlWrite (.part p) p b) s = .next { u with
      mem.ctl := mput u.mem.ctl p { ctlOf u p with op := some (BitVec.ofNat 16 st) },
      mem.reply := some { status := 0, data := [], poison := false } }) ∧
  (∀ (s : State) (p : Nat), (ctlOf s p).op = none → exec (.cacheControlDone p) s = .next s) ∧
  (∀ (s : State) (p : Nat) (st : BitVec 16), (ctlOf s p).op = some st →
    exec (.cacheControlDone p) s = .next { s with
      mem.ctl := mput s.mem.ctl p ({ ctlOf s p with busy := false, op := none, status := st, count := (ctlOf s p).count + 1, stamp := stamp s }) }) ∧
  (∀ c s a, Begun { op := 0x030A, need := 16, vf := false } c s a → p8 c 4 ≤ 1 →
    (testUnits (p8 c 0) (p16 c 2)).any (fun u => !unitUp a u.1 u.2) = false → a.svc.test = none →
    (serving a && (testUnits (p8 c 0) (p16 c 2)).any (fun u => unitInUse a u.1 u.2)) = false →
    Waits (.memTest c) 0x030A c s
      { a with svc.test := some { sites := p8 c 0, ports := p16 c 2, sampled := p8 c 4 == 1, buffer := p64 c 8 } } .memTest) ∧
  (∀ (s : State) (r : TestRun) (x : Running) (f seen : List TestFinding) (chans : List (Tier × Nat)), s.svc.test = some r →
    s.ink.running = [x] → x.wait = .memTest →
    chans = ((testUnits r.sites r.ports).map (fun u => (unitOf s u.1 u.2).chans.map (fun c => (u.1, c)))).flatten →
    seen = f.filter (fun g => chans.contains (g.tier, g.channel)) → hostOk s r.buffer (16 * seen.length) = true →
    ∃ t, exec (.memTestEnd f) s = .next (complete t x.cmd St.ok []) ∧ t.svc.test = none ∧ t.ink.running = [] ∧
      t.mem.cells = s.mem.cells.filter (fun e => !(chans.map (fun c => chanKey c.1 c.2)).contains (cellChan e.1)) ∧
      (∀ c ∈ chans, fillOf t.mem (chanKey c.1 c.2) = if r.sampled then .sampled else .march) ∧
      t.host = (hostPut s r.buffer ((seen.map (testRecord r.sampled)).flatten)).host ∧
      (∀ g ∈ seen, g.tier = .fast → testFails r.sampled g = true → g.channel ∈ t.pwr.defect.fastMark) ∧
      (∀ g ∈ seen, g.tier = .cap → testFails r.sampled g = true → g.channel ∈ t.pwr.defect.capMark)) ∧
  (∀ (s : State) (f : List TestFinding), s.svc.test = none → exec (.memTestEnd f) s = .next s)

/-- Accesses to device memory (R101, R115, R126, R127, R131, R151, R155): one that no regulator and no older access of its requester
holds and that meets no retraining channel is performed and answered, a write of the bytes of one granule as any other; one that is held
waits at its regulator, and one that meets a retraining channel in that channel's queue, or at its source while the queue is full, and
nothing else changes; an entry that has waited past its class's limit moves up one class where the higher queue has a place. Logs 32, 35
and 103. -/
def Obligations.AccessRows : Prop :=
  (∀ (s : State) (r : Requester) (dpa len : Nat), r ≠ .window → gateHolds s r dpa len (defaultClass r) = false →
    retrainingAt s false dpa len = none →
    exec (.memoryRead r dpa len) s = .next { (readBytes s r dpa len (defaultClass r)).2.2.2 with
      mem.reply := some { status := BitVec.ofNat 16 (readBytes s r dpa len (defaultClass r)).1,
                          data := (readBytes s r dpa len (defaultClass r)).2.1, poison := (readBytes s r dpa len (defaultClass r)).2.2.1 } }) ∧
  (∀ (s : State) (r : Requester) (dpa : Nat) (b : List Byte) (poison : Bool), r ≠ .window →
    gateHolds s r dpa b.length (defaultClass r) = false → retrainingAt s true dpa b.length = none →
    exec (.memoryWrite (.direct r dpa b poison)) s = .next { (writeBytes s r dpa b poison (defaultClass r)).2 with
      mem.reply := some { status := BitVec.ofNat 16 (writeBytes s r dpa b poison (defaultClass r)).1, data := [], poison := false } }) ∧
  (∀ (s : State) (r : Requester) (dpa : Nat) (b : List Byte), r ≠ .window → dpa % 64 + b.length ≤ 64 →
    gateHolds s r dpa b.length (defaultClass r) = false → retrainingAt s true dpa b.length = none →
    exec (.partialWrite r dpa b) s = .next { (writeBytes s r dpa b false (defaultClass r)).2 with
      mem.reply := some { status := BitVec.ofNat 16 (writeBytes s r dpa b false (defaultClass r)).1, data := [], poison := false } }) ∧
  (∀ (s : State) (r : Requester) (dpa len k : Nat), regFor r dpa = some k → rangeStatus s r false dpa len = St.ok →
    gateHolds s r dpa len (defaultClass r) = true →
    exec (.memoryRead r dpa len) s = .next { s with svc.regs := mput s.svc.regs k ({ regOf s k with
      held := (regOf s k).held ++ [{ req := r, dpa := dpa, len := len, data := none, cls := defaultClass r, since := s.time }] }) }) ∧
  (∀ (s : State) (r : Requester) (dpa k : Nat) (b : List Byte) (poison : Bool), regFor r dpa = some k →
    rangeStatus s r true dpa b.length = St.ok → gateHolds s r dpa b.length (defaultClass r) = true →
    exec (.memoryWrite (.direct r dpa b poison)) s = .next { s with svc.regs := mput s.svc.regs k ({ regOf s k with
      held := (regOf s k).held ++ [{ req := r, dpa := dpa, len := b.length, data := some (b, poison), cls := defaultClass r, since := s.time }] }) }) ∧
  (∀ (s : State) (r : Requester) (dpa len c : Nat) (t : Tier) (w : Waiting), rangeStatus s r false dpa len = St.ok →
    gateHolds s r dpa len (defaultClass r) = false → retrainingAt s false dpa len = some (t, c) →
    w = { req := r, dpa := dpa, len := len, data := none, cls := defaultClass r, since := s.time } →
    exec (.memoryRead r dpa len) s = .next (setChan s t c (
      if queuePlace s t c w then { chanOf s t c with queue := insertAged w (chanOf s t c).queue }
      else { chanOf s t c with source := (chanOf s t c).source ++ [w] }))) ∧
  (∀ (s : State) (t : Tier) (c e : Nat) (w up : Waiting), (chanOf s t c).queue[e]? = some w → 0 < w.cls →
    w.classAt + agingLimit s w.cls < s.time → up = { w with cls := w.cls - 1, classAt := s.time } → queuePlace s t c up = true →
    (chanOf s t c).source = [] →
    exec (.agingPromotion t c e) s = .next (bumpO (setChan s t c { chanOf s t c with queue := (chanOf s t c).queue.set e up })
      (rqPart w.req) 29 1)) ∧
  (∀ (s : State) (t : Tier) (c e : Nat) (w : Waiting), (chanOf s t c).queue[e]? = some w → s.time ≤ w.classAt + agingLimit s w.cls →
    exec (.agingPromotion t c e) s = .next s)

/-- Regulators and classes (R127 to R132): a phase boundary gives every regulator its waiting depth and curve; a held access goes on to its
channel once the bucket is positive, and stays while it is not; MEM_REG_SET leaves depth and curve waiting for a phase boundary, and
MEM_CLASS_SET sets the aging limits and the TRACE cap. Log 35. -/
def Obligations.RegulatorRows : Prop :=
  (∀ s : State, exec .regulatorPhase s = .next { s with svc.regs := s.svc.regs.map (fun e => (e.1, phaseReg (phaseNow s) e.2)) }) ∧
  (∀ (g : Regulator) (k d : Nat) (l : List Nat), g.pend = some (d, l) → l.getD k 0xFFFF ≠ 0xFFFF →
    phaseReg k g = { g with depth := d, rates := l, level := min g.level (65536 * d : Nat), pend := none }) ∧
  (∀ (s : State) (k : Nat), regOpen s k = false → exec (.regulatorRelease k) s = .next s) ∧
  (∀ (s : State) (k : Nat) (w : Waiting), regOpen s k = true → (regOf s k).held = [w] →
    exec (.regulatorRelease k) s = .next (accessChan { s with svc.regs := mput s.svc.regs k { regOf s k with held := [] } }
      { w with since := s.time, classAt := s.time })) ∧
  (∀ (s : State) (k : Nat), (regOf s k).held = [] → exec (.regulatorRelease k) s = .next s) ∧
  (∀ c s a, Begun { op := 0x030B, need := 40, vf := false } c s a → p8 c 1 ≤ 1 → p8 c 0 ≤ 4 → (p8 c 0 = 4 → p8 c 1 = 1) → 4096 ≤ p32 c 4 →
    p32 c 4 ≤ 16777216 →
    Completes (.memRegSet c) c s { a with svc.regs := mput a.svc.regs (2 * p8 c 0 + p8 c 1) ({ regOf a (2 * p8 c 0 + p8 c 1) with pend := some (p32 c 4, (List.range 16).map (fun i => p16 c (8 + 2 * i))) }) } []) ∧
  (∀ c s a, Begun { op := 0x030C, need := 7, vf := false } c s a → (∀ o ∈ [0, 2, 4], 1 ≤ p16 c o ∧ p16 c o ≤ 1023) → 1 ≤ p8 c 6 → p8 c 6 ≤ 10 →
    Completes (.memClassSet c) c s { a with svc.aging := [p16 c 0, p16 c 2, p16 c 4], svc.traceCap := p8 c 6 } [])

/-- Temperatures, curves and trips (R137 to R144). A sample below the trip temperature sets the unit's temperature and its share, a fall at once
and a rise with the second sample; at the trip temperature the unit trips and the alert is raised, stated for a unit on which nothing is
queued while no collective and no order context is open; a tripped unit only keeps its temperature. MEM_THERMAL_LOAD puts a legal curve
in force; MEM_THERMAL_CLEAR ends a trip 10 degrees below its temperature, answers TRIP_ACTIVE above that, and does nothing to a unit that is
not tripped; MEM_THERMAL_QUERY writes its record. Logs 36 and 37. -/
def Obligations.ThermalRows : Prop :=
  (∀ (s : State) (t : Tier) (u : Nat) (temp : Int), unitUp s t u = true → tripped s t u = false → temp < (curveOf s t).trip →
    ∃ v, exec (.thermalSample [(t, u, temp)]) s = .next v ∧ (thermalOf v t u).temp = temp ∧ (thermalOf v t u).tripped = false ∧
      (thermalOf v t u).share = (nextShare (thermalOf s t u) (shareOf (curveOf s t) temp)).1) ∧
  (∀ (s : State) (t : Tier) (u : Nat) (temp : Int), unitUp s t u = true → tripped s t u = false → (curveOf s t).trip ≤ temp → s.duc.colls = [] →
    (unitOf s t u).chans.all (fun c => (chanOf s t c).queue.isEmpty && (chanOf s t c).source.isEmpty) = true → s.ari.ctxs = [] →
    ∃ v, exec (.thermalSample [(t, u, temp)]) s = .next v ∧ (thermalOf v t u).temp = temp ∧ (thermalOf v t u).tripped = true ∧ v.svc.alert = true) ∧
  (∀ (s : State) (t : Tier) (u : Nat) (temp : Int), unitUp s t u = true → tripped s t u = true →
    exec (.thermalSample [(t, u, temp)]) s = .next (sendSlow (setThermal s t u { thermalOf s t u with temp := temp }))) ∧
  (∀ c s a v, Begun { op := 0x030D, need := 4, ext := true, full := fun _ c => if p8 c 1 ≤ 8 then 4 + 4 * p8 c 1 else 0, vf := false } c s a → 4 + 4 * p8 c 1 ≤ c.len → parseCurve (body c) = some v →
    withinLimit v = true → p8 c 0 = 0 → Completes (.memThermalLoad c) c s { a with svc.fastCurve := v } []) ∧
  (∀ c s a v, Begun { op := 0x030D, need := 4, ext := true, full := fun _ c => if p8 c 1 ≤ 8 then 4 + 4 * p8 c 1 else 0, vf := false } c s a → 4 + 4 * p8 c 1 ≤ c.len → parseCurve (body c) = some v →
    withinLimit v = true → p8 c 0 = 1 → Completes (.memThermalLoad c) c s { a with svc.capCurve := v } []) ∧
  (∀ (c : Cmd) (s a : State) (t : Tier) (u : Nat), Begun { op := 0x030E, need := 2, vf := false } c s a → unitField c 0 = some (t, u) → unitUp a t u = true → tripped a t u = true →
    (thermalOf a t u).temp ≤ (curveOf a t).trip - 10 →
    Completes (.memThermalClear c) c s (clearTrip a t u) []) ∧
  (∀ (c : Cmd) (s a : State) (t : Tier) (u : Nat), Begun { op := 0x030E, need := 2, vf := false } c s a → unitField c 0 = some (t, u) → unitUp a t u = true → tripped a t u = true →
    (curveOf a t).trip - 10 < (thermalOf a t u).temp →
    exec (.memThermalClear c) s = .next (complete a c St.tripActive [])) ∧
  (∀ (c : Cmd) (s a : State) (t : Tier) (u : Nat), Begun { op := 0x030E, need := 2, vf := false } c s a → unitField c 0 = some (t, u) → unitUp a t u = true → tripped a t u = false →
    Completes (.memThermalClear c) c s a []) ∧
  (∀ c s a, Begun { op := 0x030F, need := 8, vf := false } c s a → hostOk a (p64 c 0) 96 = true →
    Completes (.memThermalQuery c) c s (hostStore a (p64 c 0)
      (((List.range 8).map (thermalWord a .fast)).flatten ++ ((List.range 16).map (thermalWord a .cap)).flatten)) [])

/-- Scrub, retraining and failed channels (R152 to R156). A scrub step reads, decodes and, where needed, rewrites the engine's next granule;
it waits for a channel that is retraining, and does nothing in the Cap state or where every channel is skipped. MEM_SCRUB_SET sets the
period. More than 16 errors start a retrain; one that succeeds resumes the channel, on a fast channel with the spare lane that it took; one
that fails leaves the channel retraining until the third failure or a lost lane, which makes it FAILED and READY DEGRADED_READY. Logs 34
and 38. -/
def Obligations.ScrubAndRetrainRows : Prop :=
  (∀ (s u : State) (die ch g : Nat) (t : Tier), mget 0 s.svc.scrubHours (tierNum t) ≠ 0 → s.ink.state ≠ stCapped →
    scrubNext s die t = (some (ch, g), u) → (chanOf s t ch).retraining = false →
    exec (.scrubStep die t) s = .next (chanRead u { tier := t, chan := ch, off := g * 64 } noDpa 5 6 5 none (some 2) true).2.2.2) ∧
  (∀ (s u : State) (die ch g : Nat) (t : Tier), scrubNext s die t = (some (ch, g), u) → (chanOf s t ch).retraining = true →
    exec (.scrubStep die t) s = .next s) ∧
  (∀ (s u : State) (die : Nat) (t : Tier), mget 0 s.svc.scrubHours (tierNum t) ≠ 0 → s.ink.state ≠ stCapped → scrubNext s die t = (none, u) →
    exec (.scrubStep die t) s = .next u) ∧
  (∀ (s : State) (die : Nat) (t : Tier), s.ink.state = stCapped → exec (.scrubStep die t) s = .next s) ∧
  (∀ c s a, Begun { op := 0x0312, need := 4, vf := false } c s a → p8 c 0 ≤ 1 → p16 c 2 ≤ 168 → (p8 c 0 = 0 → p16 c 2 ≠ 0) →
    Completes (.memScrubSet c) c s { a with svc.scrubHours := mput a.svc.scrubHours (p8 c 0) (p16 c 2) } []) ∧
  (∀ (s : State) (t : Tier) (c n : Nat), 16 < n → (tierMap s t).contains c = true → (chanOf s t c).failed = false →
    exec (.channelRetrain t c n) s = .next (setChan s t c { chanOf s t c with retraining := true })) ∧
  (∀ (s : State) (t : Tier) (c n : Nat), n ≤ 16 → exec (.channelRetrain t c n) s = .next s) ∧
  (∀ (s : State) (t : Tier) (c : Nat) (spare lost : Bool), (chanOf s t c).retraining = true → (chanOf s t c).queue = [] →
    (chanOf s t c).source = [] →
    ∃ v, exec (.retrainComplete t c true spare lost) s = .next v ∧ (chanOf v t c).retraining = false ∧ (chanOf v t c).fails = 0 ∧
      (chanOf v t c).spares = (chanOf s t c).spares + b2n (spare && t == .fast) ∧ v.mem = s.mem) ∧
  (∀ (s : State) (t : Tier) (c : Nat) (spare : Bool), (chanOf s t c).retraining = true → (chanOf s t c).fails + 1 < 3 →
    exec (.retrainComplete t c false spare false) s = .next (setChan s t c { chanOf s t c with fails := (chanOf s t c).fails + 1 })) ∧
  (∀ (s : State) (t : Tier) (c : Nat) (spare lost : Bool), (chanOf s t c).retraining = true → (2 ≤ (chanOf s t c).fails ∨ lost = true) →
    (chanOf s t c).queue = [] → (chanOf s t c).source = [] →
    ∃ v, exec (.retrainComplete t c false spare lost) s = .next v ∧ (chanOf v t c).failed = true ∧ (chanOf v t c).retraining = false ∧
      v.ink.state = (if s.ink.state = stReady then stDegraded else s.ink.state)) ∧
  (∀ (s : State) (t : Tier) (c : Nat) (ok spare lost : Bool), (chanOf s t c).retraining = false →
    exec (.retrainComplete t c ok spare lost) s = .next s)

/-- The logs and counters of the service and the traffic generator (R158, R159, R161): MEM_ERR_READ gives the oldest unread records and counts
them read; MEM_ERR_COUNTERS writes the counters of a unit's channels; MEM_TRAFFIC on a port that the function has claimed starts a run, whose
end has done the run's writes and reads, reports what was measured with the errors that the reads met, and completes with OK, or with
THERMAL_ABORT where the port tripped. Logs 16 and 43. -/
def Obligations.ServiceReportsComplete : Prop :=
  (∀ (c : Cmd) (s a : State) (l : Log), Begun { op := 0x0310, need := 11, vf := false } c s a → p8 c 10 ≤ 1 → l = mget {} a.svc.errs (p8 c 10) →
    hostOk a (p64 c 0) ((lastN l.unread l.recs).take (min (p16 c 8) l.unread)).flatten.length = true →
    Completes (.memErrRead c) c s
      (hostStore { a with svc.errs := mput a.svc.errs (p8 c 10) { l with unread := l.unread - min (p16 c 8) l.unread, overwritten := 0 } } (p64 c 0)
        ((lastN l.unread l.recs).take (min (p16 c 8) l.unread)).flatten)
      (leBytes 2 ((lastN l.unread l.recs).take (min (p16 c 8) l.unread)).length ++ leBytes 4 l.overwritten)) ∧
  (∀ (c : Cmd) (s a : State) (t : Tier) (u : Nat) (b : List Byte), Begun { op := 0x0311, need := 16, vf := false } c s a →
    unitField c 0 = some (t, u) → unitUp a t u = true →
    b = ((unitChannels a t u).map (fun ch => ((chanOf a t ch).ctr.map (leBytes 4)).flatten)).flatten → hostOk a (p64 c 8) b.length = true →
    Completes (.memErrCounters c) c s (hostStore a (p64 c 8) b) []) ∧
  (∀ c s a, Begun { op := 0x0313, need := 48, vf := false } c s a → p8 c 0 ≤ 15 → unitUp a .cap (p8 c 0) = true →
    holds a (mkRes 3 (p8 c 0)) 1 c.fn = true → p8 c 1 ≤ 5 → p8 c 2 ≤ 3 → 1 ≤ p32 c 4 → p32 c 4 ≤ 60000000 →
    p64 c 8 % 256 = 0 → p64 c 16 % 256 = 0 → p64 c 8 ≤ p64 c 16 → p64 c 16 < 256 * (unitOf a .cap (p8 c 0)).gran →
    ((p8 c 1 = 1 ∨ p8 c 1 = 2 ∨ p8 c 1 = 5) → unitInUse a .cap (p8 c 0) = false) → mfind a.svc.traffic (p8 c 0) = none →
    Waits (.memTraffic c) 0x0313 c s { a with svc.traffic := mput a.svc.traffic (p8 c 0) ({ pattern := p8 c 1, cls := p8 c 2, durUs := p32 c 4, first := p64 c 8, last := p64 c 16, seed := p64 c 24, wpat := p64 c 32, buffer := p64 c 40, tripped := tripped a .cap (p8 c 0) }) }
      (.traffic (p8 c 0))) ∧
  (∀ (s u v : State) (port ce ue : Nat) (m : TrafficResult) (r : TrafficRun) (x : Running), mfind s.svc.traffic port = some r →
    s.ink.running = [x] → x.wait = .traffic port → u = storeTraffic { s with svc.traffic := mdel s.svc.traffic port } port r m.written →
    readTraffic u port r m.read = (ce, ue, v) → hostOk v r.buffer 64 = true →
    exec (.memTrafficEnd port m) s = .next (complete { hostStore v r.buffer (trafficRecord m ce ue) with ink.running := [] } x.cmd
      (if r.tripped then St.thermalAbort else St.ok) [])) ∧
  (∀ (s : State) (port : Nat) (m : TrafficResult), mfind s.svc.traffic port = none → exec (.memTrafficEnd port m) s = .next s)

/-- Contributions and the store queue (R164, R167 to R175, R227). A contribution of an unknown operation or an unaligned granule and one that
its address refuses change nothing and are answered with the status; one that its regulator or a retraining channel holds waits; one
that is accepted is applied at its granule, where the lanes that its mask leaves out keep their contents and the others take the operation's
result. An ordered one names an open context or is refused, and is refused again where its sequence has passed or its unit has tripped; it is
applied when its sequence is current, buffered when it is early, and set aside when the buffer is full; one set aside is sent again after 256
ns. The oldest contribution and the oldest store of a core go to their granule unless an older access of the core, its regulator or a
retraining channel holds them. Log 39. -/
def Obligations.ContributionRows : Prop :=
  (∀ (s : State) (r : Requester) (w : Contribution), (arithKnown w.op = false ∨ w.dpa % 64 ≠ 0) →
    exec (.contribution (.direct r w)) s = .next (setReply s St.arithFormat [] false)) ∧
  (∀ (s : State) (r : Requester) (w : Contribution), arithKnown w.op = true → w.dpa % 64 = 0 → w.order = none → contribStatus s r w.dpa ≠ St.ok →
    exec (.contribution (.direct r w)) s = .next (setReply s (contribStatus s r w.dpa) [] false)) ∧
  (∀ (s : State) (r : Requester) (w : Contribution), contribHeld s r w = true → exec (.contribution (.direct r w)) s = .next s) ∧
  (∀ (s u v : State) (r : Requester) (w : Contribution) (p : Place) (e : Nat) (d : List Byte) (ue : Bool), arithKnown w.op = true →
    w.dpa % 64 = 0 → w.order = none → w.poison = false → contribStatus s r w.dpa = St.ok → locate s w.dpa = some (p, e) →
    contribHeld s r w = false → u = cross (charge s r w.dpa 64 1) r true w.dpa 64 →
    chanRead (cacheYield (watch u r 2 w.dpa 64) w.dpa (some 1)) p w.dpa 1 2 (rqCode r) (rqPart r) (some 1) false = (d, false, ue, v) →
    exec (.contribution (.direct r w)) s = .next (setReply (prog (bumpO (bumpO (accPut v p w.dpa (applyLanes w.op w.mask d w.operand).1)
      (rqPart r) 30 1) (rqPart r) 31 (applyLanes w.op w.mask d w.operand).2) (chanUnitId p.tier p.chan) 7 (rqPart r) (some 1) 1) St.ok [] false)) ∧
  (∀ (op k : Nat) (mask : BitVec 32) (d b : List Byte), d.length = 64 → k < 64 / laneBytes op → mask.getLsbD k = false →
    fieldN (applyLanes op mask d b).1 (laneBytes op * k) (laneBytes op) = fieldN d (laneBytes op * k) (laneBytes op)) ∧
  (∀ (op k : Nat) (mask : BitVec 32) (d b : List Byte), d.length = 64 → k < 64 / laneBytes op → mask.getLsbD k = true →
    fieldN (applyLanes op mask d b).1 (laneBytes op * k) (laneBytes op) =
      laneOp op (fieldN d (laneBytes op * k) (laneBytes op)) (fieldN b (laneBytes op * k) (laneBytes op)) % 256 ^ laneBytes op) ∧
  (∀ (s u : State) (r : Requester) (w : Contribution) (i q : Nat), arithKnown w.op = true → w.dpa % 64 = 0 → w.order = some (i, q) →
    contribHeld s r w = false → u = (if contribStatus s r w.dpa = St.ok then cross (charge s r w.dpa 64 1) r true w.dpa 64 else s) →
    (mfind s.ari.ctxs i = none → exec (.contribution (.direct r w)) s = .next (setReply u St.orderRange [] false)) ∧
    (∀ x g, mfind s.ari.ctxs i = some x → g = (w.dpa - x.dpa) / 64 →
      (x.e ≤ q → exec (.contribution (.direct r w)) s = .next (setReply u St.orderRange [] false)) ∧
      (q < x.e → (w.op ≠ x.op ∨ w.dpa < x.dpa ∨ x.dpa + x.len ≤ w.dpa) →
        exec (.contribution (.direct r w)) s = .next (setReply u St.orderShape [] false)) ∧
      (q < x.e → w.op = x.op → x.dpa ≤ w.dpa → w.dpa < x.dpa + x.len →
        (∀ k, mfind x.dead g = some k → k ≤ q → exec (.contribution (.direct r w)) s = .next (setReply u St.thermalAbort [] false)) ∧
        (mfind x.dead g = none → q < currentSeq s x (granuleChan s w.dpa) →
          exec (.contribution (.direct r w)) s = .next (setReply u St.orderDuplicate [] false)) ∧
        (mfind x.dead g = none → currentSeq s x (granuleChan s w.dpa) < q → mget 0 x.got g ≤ q →
          (s.ari.reorder.filter (fun b => b.chan == granuleChan s w.dpa)).length < 128 →
          exec (.contribution (.direct r w)) s = .next (setReply { u with
            ari.reorder := s.ari.reorder ++ [{ req := r, con := w, chan := granuleChan s w.dpa }] } St.ok [] false)) ∧
        (mfind x.dead g = none → currentSeq s x (granuleChan s w.dpa) < q → mget 0 x.got g ≤ q →
          128 ≤ (s.ari.reorder.filter (fun b => b.chan == granuleChan s w.dpa)).length →
          exec (.contribution (.direct r w)) s = .next (setReply { bumpO (setCtx u i { x with retries := x.retries + 1 }) (rqPart r) 32 1 with
            ari.aside := s.ari.aside ++ [{ req := r, con := w, since := s.time }] } St.ok [] false)) ∧
        (∀ v d st y, mfind x.dead g = none → currentSeq s x (granuleChan s w.dpa) = q → mget 0 x.got g ≤ q →
          applyContribution u r w 1 = (st, d, v) → v.ari.reorder = [] → mfind v.ari.ctxs i = some y →
          exec (.contribution (.direct r w)) s = .next (setReply (closeIfComplete (setCtx v i { y with
            got := mput y.got ((w.dpa - y.dpa) / 64) (mget 0 y.got ((w.dpa - y.dpa) / 64) + 1), applied := y.applied + b2n (st == St.ok),
            refusal := if y.refusal = 0 then BitVec.ofNat 16 st else y.refusal }) i) st [] false))))) ∧
  (∀ (s : State) (a : Aside), s.ari.aside.find? (fun a => decide (a.since + resendUnits ≤ s.time)) = some a →
    exec .contributionResend s = .next (resend { s with ari.aside := s.ari.aside.erase a } a)) ∧
  (∀ (s v : State) (a : Aside) (st : Nat) (d : List Byte), contribute s a.req a.con 1 = (st, d, v) → v.ari.aside.length ≤ s.ari.aside.length →
    a.op = none → (∀ p n, a.req ≠ .core p n) → resend s a = pushAll v) ∧
  (∀ s : State, (∀ a ∈ s.ari.aside, s.time < a.since + resendUnits) → s.duc.remotes = [] → exec .contributionResend s = .next s) ∧
  (∀ (s : State) (n : Nat), (coreOf s n).contribs = [] → exec (.contribution (.core n)) s = .next s) ∧
  (∀ (s v : State) (n dpa : Nat) (x : CoreContrib) (d : List Byte), (coreOf s n).contribs = [x] → x.prior = none → x.fetching = false →
    targetOf s x.con.dpa = .here dpa → olderTouches s (coreOf s n) x.seq none dpa 64 = false →
    contribHeld s (coreRq s n) { x.con with dpa := dpa } = false → contribute s (coreRq s n) { x.con with dpa := dpa } 1 = (St.ok, d, v) →
    exec (.contribution (.core n)) s = .next (coreSettle (setCore v n { coreOf v n with contribs := (coreOf v n).contribs.erase x }) n)) ∧
  (∀ (s : State) (n : Nat), (coreOf s n).stores = [] → exec (.memoryWrite (.storeQueue n)) s = .next s) ∧
  (∀ (s u : State) (n : Nat) (g : StoreGranule) (l : List StoreGranule), (coreOf s n).stores = g :: l → g.peer = none →
    olderTouches s (coreOf s n) g.seq none g.dpa 64 = false → statusAt s (coreRq s n) true g.dpa = St.ok →
    (g.whole = true ∨ touchesFolded s g.dpa 64 = false) → storeWaits s n g = false →
    u = setCore s n (fillStores n storeDepth { coreOf s n with stores := l }) →
    exec (.memoryWrite (.storeQueue n)) s = .next (coreSettle (writeAt (charge (watch u (coreRq s n) 1 g.dpa 64)
      (coreRq s n) g.dpa 64 g.cls) (coreRq s n) g.dpa g.data g.poison g.cls).2 n)) ∧
  (∀ (s : State) (n : Nat) (g : StoreGranule) (l : List StoreGranule), (coreOf s n).stores = g :: l → g.peer = none →
    statusAt s (coreRq s n) true g.dpa = St.ok → (g.whole = true ∨ touchesFolded s g.dpa 64 = false) →
    (storeWaits s n g = true ∨ olderTouches s (coreOf s n) g.seq none g.dpa 64 = true) → exec (.memoryWrite (.storeQueue n)) s = .next s)

/-- ARITH_APPLY, ARITH_ORDER_OPEN and ARITH_ORDER_CLOSE (R71, R171, R173, R175, R185): a checked copy that is not held is contributed granule by
granule and completes with the first status that is not OK, or waits while contributions of it are set aside; a context takes the lowest
free number, and its range is first filled with the operation's identity where ZERO asks for it; one that overlaps another is refused; one
that is complete closes with its first refusal, one that is not waits, and ABORT closes it at once. Log 39. -/
def Obligations.OrderContextRows : Prop :=
  (∀ (c : Cmd) (s a t : State) (st : Nat), Begun { op := 0x0401, need := 29 } c s a →
    firstFail (applyChecks (p64 c 0) (p64 c 8) (p32 c 16) (p8 c 20) (p8 c 28)) = none →
    applyHeld a (cmdRq c) (p64 c 0) (p64 c 8) (p32 c 16) (p8 c 28) = false →
    arithApply a (cmdRq c) (p64 c 0) (p64 c 8) (p32 c 16) (p8 c 20) (if bit (p8 c 21) 0 then some (p8 c 22, p32 c 24) else none) (p8 c 28) = (st, 0, t) →
    exec (.arithApply c) s = .next (complete t c st [])) ∧
  (∀ (c : Cmd) (s a t : State) (st n : Nat), Begun { op := 0x0401, need := 29 } c s a →
    firstFail (applyChecks (p64 c 0) (p64 c 8) (p32 c 16) (p8 c 20) (p8 c 28)) = none →
    applyHeld a (cmdRq c) (p64 c 0) (p64 c 8) (p32 c 16) (p8 c 28) = false → n ≠ 0 →
    arithApply a (cmdRq c) (p64 c 0) (p64 c 8) (p32 c 16) (p8 c 20) (if bit (p8 c 21) 0 then some (p8 c 22, p32 c 24) else none) (p8 c 28) = (st, n, t) →
    Waits (.arithApply c) 0x0401 c s { t with
      ari.applies := t.ari.applies ++ [{ id := t.ari.nextApply, queue := none, left := n, status := BitVec.ofNat 16 st }],
      ari.nextApply := t.ari.nextApply + 1 } (.apply a.ari.nextApply)) ∧
  (∀ (s u v : State) (r : Requester) (src dst op cls st : Nat) (o : Option (Nat × Nat)) (g : List Byte × Bool) (d : List Byte),
    readGranules s r src 64 cls = (St.ok, [g], v) →
    contribute v r { dpa := dst, op := op, mask := BitVec.allOnes 32, operand := g.1, poison := g.2, order := o } cls = (st, d, u) →
    u.ari.aside.length ≤ v.ari.aside.length → arithApply s r src dst 64 op o cls = (st, 0, u)) ∧
  (∀ (c : Cmd) (s a : State) (i : Nat), Begun { op := 0x0402, need := 16 } c s a → 0 < p32 c 8 → p32 c 8 ≤ 1073741824 → p16 c 14 ≠ 0 → isDpa (p64 c 0) = true →
    arithKnown (p8 c 12) = true → p64 c 0 % 64 = 0 → p32 c 8 % 64 = 0 → ctxOverlaps a (p64 c 0) (p32 c 8) = false → freeCtx a = some i →
    bit (p8 c 13) 0 = false →
    Completes (.arithOrderOpen c) c s (setCtx a i { dpa := p64 c 0, len := p32 c 8, op := p8 c 12, e := p16 c 14, coll := 0 }) [BitVec.ofNat 8 i]) ∧
  (∀ (c : Cmd) (s a v : State) (i : Nat), Begun { op := 0x0402, need := 16 } c s a → 0 < p32 c 8 → p32 c 8 ≤ 1073741824 → p16 c 14 ≠ 0 → isDpa (p64 c 0) = true →
    arithKnown (p8 c 12) = true → p64 c 0 % 64 = 0 → p32 c 8 % 64 = 0 → ctxOverlaps a (p64 c 0) (p32 c 8) = false → freeCtx a = some i →
    bit (p8 c 13) 0 = true → writeBytes a (cmdRq c) (p64 c 0) (identityBytes (p8 c 12) (p32 c 8)) false 1 = (St.ok, v) →
    Completes (.arithOrderOpen c) c s (setCtx v i { dpa := p64 c 0, len := p32 c 8, op := p8 c 12, e := p16 c 14, coll := 0 }) [BitVec.ofNat 8 i]) ∧
  (∀ c s a, Begun { op := 0x0402, need := 16 } c s a → 0 < p32 c 8 → p32 c 8 ≤ 1073741824 → p16 c 14 ≠ 0 → isDpa (p64 c 0) = true →
    arithKnown (p8 c 12) = true → p64 c 0 % 64 = 0 → p32 c 8 % 64 = 0 → ctxOverlaps a (p64 c 0) (p32 c 8) = true →
    exec (.arithOrderOpen c) s = .next (complete a c St.orderShape [])) ∧
  (∀ (c : Cmd) (s a : State) (x : OrderCtx), Begun { op := 0x0403, need := 2 } c s a → mfind a.ari.ctxs (p8 c 0) = some x → ctxComplete x = true →
    exec (.arithOrderClose c) s = .next (complete (dropCtx a (p8 c 0)) c x.refusal.toNat (leBytes 4 x.applied ++ leBytes 4 x.retries))) ∧
  (∀ (c : Cmd) (s a : State) (x : OrderCtx), Begun { op := 0x0403, need := 2 } c s a → mfind a.ari.ctxs (p8 c 0) = some x → ctxComplete x = false →
    bit (p8 c 1) 0 = false → Waits (.arithOrderClose c) 0x0403 c s a (.order (p8 c 0))) ∧
  (∀ (c : Cmd) (s a : State) (x : OrderCtx), Begun { op := 0x0403, need := 2 } c s a → mfind a.ari.ctxs (p8 c 0) = some x → ctxComplete x = false →
    bit (p8 c 1) 0 = true → a.ink.running = [] →
    exec (.arithOrderClose c) s = .next (complete (dropCtx a (p8 c 0)) c St.orderIncomplete (leBytes 4 x.applied ++ leBytes 4 x.retries))) ∧
  (∀ c s a, Begun { op := 0x0403, need := 2 } c s a → mfind a.ari.ctxs (p8 c 0) = none →
    exec (.arithOrderClose c) s = .next (complete a c St.orderRange []))

/-- Gathers of the reservoir buffers (R179 to R185): a descriptor that cannot be queued ends its command with its status and tag, one that
can waits in a free slot of its port, which the device claims; a doorbell starts a FREE slot that holds one, where nothing holds its
reads; a slot's run ends with the gathered rows or with RES_BOUNDS, and its controller then writes the result to the destination, counts it and
frees the slot; RES_STATUS reports the port. Logs 7 and 39. -/
def Obligations.ReservoirRows : Prop :=
  (∀ (c : Cmd) (s a : State) (b : List Byte) (st : Nat), Begun { op := 0x0404, need := 64, ext := true } c s a → splitDescs 16 (body c) = some [b] →
    st = descStatus a ((cmdPart c).getD 0xFF) b → st ≠ St.ok → st < 65536 → a.ari.gathers = [] →
    ∃ t, exec (.resGather c) s = .next (complete t c st (leBytes 2 0 ++ leBytes 2 0 ++ leBytes 4 (fieldN b 20 4))) ∧ t.ari.slots = a.ari.slots ∧
      t.ink.claims = a.ink.claims) ∧
  (∀ (c : Cmd) (s a : State) (b : List Byte) (u k : Nat), Begun { op := 0x0404, need := 64, ext := true } c s a → splitDescs 16 (body c) = some [b] →
    descStatus a ((cmdPart c).getD 0xFF) b = St.ok → tablePort a (parseDesc b) = some u → freeSlot a u = some k → a.ari.gathers = [] →
    ∃ t, Waits (.resGather c) 0x0404 c s t (.gather a.ari.nextGather) ∧
      mget {} t.ari.slots k = { mget {} a.ari.slots k with desc := portForm a b, gather := a.ari.nextGather } ∧
      holds t (mkRes 3 u) 2 0xFE = true ∧ t.mem = a.mem) ∧
  (∀ c s a, Begun { op := 0x0404, need := 64, ext := true } c s a → splitDescs 16 (body c) = none →
    exec (.resGather c) s = .next (complete a c St.invalidLength [])) ∧
  (∀ c s a, Begun { op := 0x0405, need := 16 } c s a → p8 c 0 ≤ 15 → (unitOf a .cap (p8 c 0)).kind = 1 → (unitOf a .cap (p8 c 0)).refused = false →
    hostOk a (p64 c 8) 32 = true →
    Completes (.resStatus c) c s (hostStore a (p64 c 8)
      (padTo 8 [BitVec.ofNat 8 ((List.range 24).filter (fun i => (mget {} a.ari.slots (p8 c 0 * 24 + i)).gather != 0)).length] ++
        leBytes 8 (mget 0 a.ari.resDone (p8 c 0)) ++ leBytes 8 (mget 0 a.ari.resBytes (p8 c 0)) ++ leBytes 8 (mget 0 a.ari.resFailed (p8 c 0)))) []) ∧
  (∀ c s a, Begun { op := 0x0405, need := 16 } c s a → p8 c 0 ≤ 15 → (unitOf a .cap (p8 c 0)).kind ≠ 1 →
    exec (.resStatus c) s = .next (complete a c St.noReservoir [])) ∧
  (∀ (s : State) (port ch sl : Nat) (x : Slot) (g : Gather), x = mget {} s.ari.slots (slotKey port ch sl) → x.gather ≠ 0 → x.state = 0 →
    s.ari.gathers.find? (fun g => g.id == x.gather) = some g → (chanOf s .cap (8 * port + ch)).retraining = false → gatherHeld s g = false →
    exec (.reservoirDoorbell port ch sl) s = .next { s with ari.slots := mput s.ari.slots (slotKey port ch sl) { x with state := 1 } }) ∧
  (∀ (s : State) (port ch sl : Nat) (x : Slot), x = mget {} s.ari.slots (slotKey port ch sl) → (x.gather = 0 ∨ x.state ≠ 0) →
    exec (.reservoirDoorbell port ch sl) s = .next s) ∧
  (∀ (s : State) (port : Nat) (x : Slot), tripped s .cap port = false → (parseDesc x.desc).index.any (fun i => decide (i ≥ (parseDesc x.desc).rows)) = true →
    slotRun s port x = ({ x with state := 3, status := BitVec.ofNat 16 St.resBounds, outBytes := 0, inBytes := 0, result := [], poison := false }, s)) ∧
  (∀ (s : State) (port : Nat) (x : Slot) (out : List Byte) (poison : Bool), tripped s .cap port = false →
    (parseDesc x.desc).index.any (fun i => decide (i ≥ (parseDesc x.desc).rows)) = false → gatherRows s port (parseDesc x.desc) = (out, poison) →
    ∃ y v, slotRun s port x = (y, v) ∧ y.state = 2 ∧ y.status = 0 ∧ y.outBytes = out.length ∧ y.result.take out.length = out ∧ y.poison = poison ∧
      y.inBytes = (parseDesc x.desc).n * (parseDesc x.desc).size * 64 ∧ v = { s with free := v.free }) ∧
  (∀ (s u v : State) (port ch sl : Nat) (x y : Slot) (g : Gather), x = mget {} s.ari.slots (slotKey port ch sl) → x.state = 1 →
    slotRun s port x = (y, v) → s.ari.gathers.find? (fun g => g.id == x.gather) = some g →
    u = { v with ari.slots := mput v.ari.slots (slotKey port ch sl) y } →
    exec (.reservoirSlotDone port ch sl) s =
      .next (if collectHeld u port (slotKey port ch sl) g y then u else slotCollect u port (slotKey port ch sl) y g)) ∧
  (∀ (s w : State) (port k st : Nat) (x : Slot) (g : Gather), x.state = 2 → s.ari.gathers = [g] → g.waiting = [] → g.left = 2 →
    gatherWrite (match regKey (resRq g.part) .cap with | some r => chargeReg s r (x.inBytes / 2) | none => s) port g x = (st, w) →
    (slotCollect s port k x g).mem = w.mem ∧ mget {} (slotCollect s port k x g).ari.slots k = { x with state := 0, gather := 0 } ∧
    mget 0 (slotCollect s port k x g).ari.resBytes port = mget 0 w.ari.resBytes port + x.inBytes) ∧
  (∀ (s : State) (port k : Nat) (x : Slot) (g : Gather), x.state = 3 → s.ari.gathers = [g] → g.waiting = [] → g.left = 2 → x.status ≠ 0 →
    ∃ t, slotCollect s port k x g = t ∧ t.mem = s.mem ∧ mget {} t.ari.slots k = { x with state := 0, gather := 0 } ∧
      mget 0 t.ari.resFailed port = mget 0 s.ari.resFailed port + 1 ∧
      t.ari.gathers = [{ g with left := 1, status := (if g.status = 0 then x.status else g.status),
                                failTag := (if g.status = 0 then (parseDesc x.desc).tag else g.failTag) }]) ∧
  (∀ (s : State) (port ch sl : Nat), (mget {} s.ari.slots (slotKey port ch sl)).state = 0 → exec (.reservoirSlotDone port ch sl) s = .next s)

/-- Basis tables and folded layouts (R194 to R197): a table whose header and CRC check enters the directory and leaves it at once, unloading
waits for a lane that still uses it, and a layout folds and unfolds a region, whose contents are indeterminate afterwards.
Logs 30 and 46. -/
def Obligations.FoldTableRows : Prop :=
  (∀ (c : Cmd) (s a : State) (h t : List Byte), Begun { op := 0x0501, need := 10, vf := false } c s a → isDpa (p64 c 0) = true →
    basisPlaced a (p64 c 0) 64 = true → (readBytes a .admin (p64 c 0) 64 1).1 = St.ok → h = (readBytes a .admin (p64 c 0) 64 1).2.1 →
    (readBytes a .admin (p64 c 0) 64 1).2.2.1 = false → 64 ≤ fieldN h 8 4 → fieldN h 8 4 ≤ 8256 →
    basisPlaced (readBytes a .admin (p64 c 0) 64 1).2.2.2 (p64 c 0) (fieldN h 8 4) = true →
    (readBytes (readBytes a .admin (p64 c 0) 64 1).2.2.2 .admin (p64 c 0) (fieldN h 8 4) 1).1 = St.ok →
    t = (readBytes (readBytes a .admin (p64 c 0) 64 1).2.2.2 .admin (p64 c 0) (fieldN h 8 4) 1).2.1 →
    (readBytes (readBytes a .admin (p64 c 0) 64 1).2.2.2 .admin (p64 c 0) (fieldN h 8 4) 1).2.2.1 = false → basisOk t (p16 c 8) = true →
    mfind (readBytes (readBytes a .admin (p64 c 0) 64 1).2.2.2 .admin (p64 c 0) (fieldN h 8 4) 1).2.2.2.fold.basis (p16 c 8) = none →
    ∃ v, exec (.foldBasisLoad c) s = .next (complete v c St.ok []) ∧
      mfind v.fold.basis (p16 c 8) = some { dpa := p64 c 0, fmt := fieldN t 1 1, rank := fieldN t 2 1, cols := fieldN t 4 2 }) ∧
  (∀ c s a, Begun { op := 0x0501, need := 10, vf := false } c s a → isDpa (p64 c 0) = true → basisPlaced a (p64 c 0) 64 = false →
    exec (.foldBasisLoad c) s = .next (complete a c St.foldPlacement [])) ∧
  (∀ (c : Cmd) (s a : State) (b : Basis), Begun { op := 0x0502, need := 2, vf := false } c s a → mfind a.fold.basis (p16 c 0) = some b →
    a.fold.exps.any (fun e => e.2.filling.any (fun l => l.basis == p16 c 0)) = false →
    Completes (.foldBasisUnload c) c s { a with
      fold.basis := mdel a.fold.basis (p16 c 0), fold.exps := a.fold.exps.map (fun (k, e) => (k, { e with cache := e.cache.filter (fun t => t.1 != p16 c 0) })) } []) ∧
  (∀ (c : Cmd) (s a : State) (b : Basis), Begun { op := 0x0502, need := 2, vf := false } c s a → mfind a.fold.basis (p16 c 0) = some b →
    a.fold.exps.any (fun e => e.2.filling.any (fun l => l.basis == p16 c 0)) = true →
    Waits (.foldBasisUnload c) 0x0502 c s { a with
      fold.basis := mdel a.fold.basis (p16 c 0), fold.exps := a.fold.exps.map (fun (k, e) => (k, { e with cache := e.cache.filter (fun t => t.1 != p16 c 0) })) } (.basis (p16 c 0))) ∧
  (∀ (c : Cmd) (s a : State) (b : Basis), Begun { op := 0x0503, need := 2, vf := false } c s a → mfind a.fold.basis (p16 c 0) = some b →
    Completes (.foldBasisQuery c) c s a (leBytes 8 b.dpa ++ [BitVec.ofNat 8 b.fmt, BitVec.ofNat 8 b.rank] ++ leBytes 2 b.cols)) ∧
  (∀ c s a, Begun { op := 0x0503, need := 2, vf := false } c s a → mfind a.fold.basis (p16 c 0) = none →
    exec (.foldBasisQuery c) s = .next (complete a c St.basisAbsent [])) ∧
  (∀ (c : Cmd) (s a v : State) (t : Tier), Begun { op := 0x0504, need := 8, vf := false } c s a → p8 c 0 ≤ 1 → t = tierOf (p8 c 0) → p16 c 4 = 1 →
    p16 c 2 < regionCount t → 1 ≤ p8 c 6 → p8 c 6 ≤ 5 → (4 ≤ p8 c 6 → p8 c 7 = 1) → p8 c 7 ≤ 1 → eMode (regionEntry a t (p16 c 2)) ≠ 0 →
    eWindow (regionEntry a t (p16 c 2)) = false → eFolded (regionEntry a t (p16 c 2)) = false → conflict? a (regionRes t (p16 c 2)) 1 0xFE = none →
    v = flushRegion (grant a (regionRes t (p16 c 2)) 1 0xFE) t (p16 c 2) →
    Completes (.foldLayoutLoad c) c s (spoil { setEntry v t (p16 c 2) (withBit (regionEntry v t (p16 c 2)) 3 true) with
      mem.folded := mput v.mem.folded (foldKey t (p16 c 2)) { ratio := p8 c 6, summary := bit (p8 c 7) 0 } } t (p16 c 2)) []) ∧
  (∀ c s a, Begun { op := 0x0504, need := 8, vf := false } c s a → 4 ≤ p8 c 6 → p8 c 7 = 0 →
    exec (.foldLayoutLoad c) s = .next (complete a c St.invalidField [])) ∧
  (∀ (c : Cmd) (s a v : State) (t : Tier), Begun { op := 0x0505, need := 6, vf := false } c s a → p8 c 0 ≤ 1 → t = tierOf (p8 c 0) → p16 c 4 = 1 →
    p16 c 2 < regionCount t → eFolded (regionEntry a t (p16 c 2)) = true → v = flushRegion a t (p16 c 2) →
    ∃ w, exec (.foldLayoutUnload c) s = .next (complete w c St.ok []) ∧ mfind w.mem.folded (foldKey t (p16 c 2)) = none ∧
      holds w (regionRes t (p16 c 2)) 1 0xFE = false ∧ mget 0 w.mem.gens (tierNum t * 4096 + p16 c 2) = v.mem.nextGen)

/-- Expansion (R187, R201, R203 to R208, R213): FOLD_EXPAND over checked slots waits with its blocks queued on the expanders of their
channels, and completes with the first failing check otherwise; a slot that is not aligned or not in a folded region answers NOT_FOLDED. A
free lane takes the oldest block whose reads are not held: a block on a tripped unit answers THERMAL_ABORT, one that fails a check of R207
that check's status with its record, one whose table is cached its tile of 4 KiB, and one whose table is not waits for it; a table that
arrives is cached while it is loaded, and one that does not fails the block. Each outcome is delivered, as zeros with POISON where the block
failed. FOLD_VERIFY reports the slots that fail, and FOLD_FAULT_READ and FOLD_COUNTERS the records and counters. Logs 7 and 46. -/
def Obligations.ExpansionRows : Prop :=
  (∀ c s a, Begun { op := 0x0506, need := 21 } c s a →
    firstFail (expandChecks a (cmdRq c) (p64 c 0) (p64 c 8) (p32 c 16) (p8 c 20)) = none →
    Waits (.foldExpand c) 0x0506 c s (startExpand a (cmdRq c) (p64 c 0) (p32 c 16) (.memory (p64 c 8)) (p8 c 20) none).2 (.expand a.fold.nextReq)) ∧
  (∀ (s : State) (r : Requester) (d cls e : Nat) (dest : ExpandDest) (q : Option (Nat × Nat)) (p : Place) (x : Nat), locate s d = some (p, e) →
    x = expanderOf s p.tier p.chan → (expOf s x).queue.length < 48 →
    ∃ t, startExpand s r d 1 dest cls q = (s.fold.nextReq, t) ∧
      expOf t x = { expOf s x with queue := (expOf s x).queue ++ [{ req := s.fold.nextReq, dpa := d, index := 0 }] } ∧
      mfind t.fold.reqs s.fold.nextReq =
        some { req := r, dest := dest, cls := cls, left := 1, delivered := 0, status := 0, statusAt := 0, queue := q }) ∧
  (∀ (c : Cmd) (s a : State) (st : Nat), Begun { op := 0x0506, need := 21 } c s a →
    firstFail (expandChecks a (cmdRq c) (p64 c 0) (p64 c 8) (p32 c 16) (p8 c 20)) = some st →
    exec (.foldExpand c) s = .next (complete a c st [])) ∧
  (∀ (s : State) (r : Requester) (d : Nat), isDpa d = true → (d % 4096 ≠ 0 ∨ foldInfo s d = none) →
    slotStatus s r d = St.notFolded) ∧
  (∀ (b t : List Byte), (expandBlock b t).length = 4096) ∧
  (∀ (s : State) (ratio : Nat) (b : List Byte) (l : List Bool), blockFails s ratio b l = none →
    1 ≤ (parseHeader b).len ∧ (parseHeader b).len ≤ ratioGranules ratio ∧ blockCrc b (parseHeader b).len = (parseHeader b).crc ∧
    (parseHeader b).ratio = ratio ∧ (parseHeader b).reserved = false ∧ (parseHeader b).coef ≠ 3 ∧ 1 ≤ (parseHeader b).rank ∧ (parseHeader b).rank ≤ 32 ∧
    (∃ v, mfind s.fold.basis (parseHeader b).basis = some v ∧ v.fmt = (parseHeader b).out ∧ (parseHeader b).rank ≤ v.rank) ∧
    (parseHeader b).len = impliedLen (parseHeader b).coef (parseHeader b).rank (parseHeader b).mask ∧
    (l.take (parseHeader b).len).any id = false) ∧
  (∀ (s u : State) (x n : Nat) (b : Block) (r : ExpandReq) (f : FoldInfo), (expOf s x).filling.length < 32 →
    (expOf s x).queue.find? (fun b => !blockHeld s b) = some b → mfind s.fold.reqs b.req = some r → foldInfo s b.dpa = some f →
    n = ratioGranules f.ratio → u = setExp s x { expOf s x with queue := (expOf s x).queue.erase b } →
    (slotTripped s b.dpa n = true → exec (.blockExpand x) s = .next (admitBlocks x 48 (blockDone u x b St.thermalAbort []))) ∧
    (∀ v w bytes poison, slotTripped s b.dpa n = false →
      readSlot (bumpO (charge (watch u r.req 3 b.dpa (64 * n)) r.req b.dpa (64 * n) r.cls) (rqPart r.req) 14 (64 * n)) r.req x b.dpa n r.cls =
        (bytes, poison, v) → w = countBlock v x (rqPart r.req) bytes →
      (∀ e, blockFails w f.ratio bytes poison = some e →
        exec (.blockExpand x) s = .next (admitBlocks x 48 (blockDone (noteFail w x e r.req b.dpa bytes) x b e.1 []))) ∧
      (∀ c, blockFails w f.ratio bytes poison = none → (expOf w x).cache.find? (fun c => c.1 == (parseHeader bytes).basis) = some c →
        exec (.blockExpand x) s = .next (admitBlocks x 48
          (blockDone (setExp w x (cacheBasis (expOf w x) (parseHeader bytes).basis c.2)) x b St.ok (expandBlock bytes c.2)))) ∧
      (∀ k, blockFails w f.ratio bytes poison = none → (expOf w x).cache.find? (fun c => c.1 == (parseHeader bytes).basis) = none →
        mfind w.fold.basis (parseHeader bytes).basis = some k →
        exec (.blockExpand x) s = .next (admitBlocks x 48 (countMiss (setExp w x { expOf w x with
          filling := (expOf w x).filling ++ [{ basis := (parseHeader bytes).basis, dpa := k.dpa, block := b, bytes := bytes }] }) x (rqPart r.req)))))) ∧
  (∀ (s w : State) (x st wst : Nat) (b : Block) (r : ExpandReq) (tile : List Byte), mfind s.fold.reqs b.req = some r → 2 ≤ r.left →
    deliver s r x b.index (if st = St.ok then tile else zeros 4096) (st != St.ok) = (wst, w) →
    ∃ q, blockDone s x b st tile = { w with fold.reqs := mput w.fold.reqs b.req q } ∧ q.left = r.left - 1 ∧
      q.delivered = r.delivered + b2n (decide (st = St.ok ∧ wst = St.ok))) ∧
  (∀ (s : State) (x : Nat), (32 ≤ (expOf s x).filling.length ∨ (expOf s x).queue.all (blockHeld s) = true) → exec (.blockExpand x) s = .next s) ∧
  (∀ (s : State) (x : Nat), (expOf s x).filling = [] → exec (.basisCacheFill x) s = .next s) ∧
  (∀ (s v : State) (x : Nat) (l : Lane) (r : List Lane) (t : List Byte), (expOf s x).filling = l :: r →
    fetchBasis (setExp s x { expOf s x with filling := r }) l.dpa = (some t, v) →
    (∀ b, mfind v.fold.basis l.basis = some b → b.dpa = l.dpa → exec (.basisCacheFill x) s = .next (unloadIfFree
      (blockDone (setExp v x (cacheBasis (expOf v x) l.basis t)) x l.block St.ok (expandBlock l.bytes t)) l.basis)) ∧
    (mfind v.fold.basis l.basis = none → exec (.basisCacheFill x) s = .next (unloadIfFree (blockDone v x l.block St.ok (expandBlock l.bytes t)) l.basis))) ∧
  (∀ (s v : State) (x : Nat) (l : Lane) (r : List Lane) (q : ExpandReq), (expOf s x).filling = l :: r →
    fetchBasis (setExp s x { expOf s x with filling := r }) l.dpa = (none, v) → mfind v.fold.reqs l.block.req = some q →
    exec (.basisCacheFill x) s = .next (unloadIfFree
      (blockDone (foldFault v x 0x06 (parseHeader l.bytes).crc q.req l.block.dpa l.bytes) x l.block St.foldCheck []) l.basis)) ∧
  (∀ c s a, Begun { op := 0x0507, need := 26 } c s a → p32 c 8 = 0 → hostOk a (p64 c 16) 0 = true →
    Completes (.foldVerify c) c s (hostStore a (p64 c 16) []) (zeros 8)) ∧
  (∀ (c : Cmd) (s a v : State) (st k : Nat), Begun { op := 0x0507, need := 26 } c s a → p32 c 8 = 1 → slotStatus a (cmdRq c) (p64 c 0) = St.ok →
    verifyHeld a (cmdRq c) (p64 c 0) 1 = false →
    st = (verifyOne a (cmdRq c) (p64 c 0)).1 → k = (verifyOne a (cmdRq c) (p64 c 0)).2.1 → v = (verifyOne a (cmdRq c) (p64 c 0)).2.2 → st ≠ St.ok → p16 c 24 = 1 → hostOk v (p64 c 16) 16 = true →
    Completes (.foldVerify c) c s (hostStore v (p64 c 16) (padTo 16 (leBytes 8 (p64 c 0) ++ leBytes 2 st ++ [BitVec.ofNat 8 k])))
      (leBytes 4 1 ++ leBytes 4 1)) ∧
  (∀ (c : Cmd) (s a : State) (l : Log), Begun { op := 0x0508, need := 11, vf := false } c s a → p8 c 10 ≤ 1 → l = mget {} a.fold.logs (p8 c 10) →
    hostOk a (p64 c 0) ((lastN l.unread l.recs).take (min (p16 c 8) l.unread)).flatten.length = true →
    Completes (.foldFaultRead c) c s
      (hostStore { a with fold.logs := mput a.fold.logs (p8 c 10) { l with unread := l.unread - min (p16 c 8) l.unread, overwritten := 0 } } (p64 c 0)
        ((lastN l.unread l.recs).take (min (p16 c 8) l.unread)).flatten)
      (leBytes 2 ((lastN l.unread l.recs).take (min (p16 c 8) l.unread)).length ++ leBytes 4 l.overwritten)) ∧
  (∀ (c : Cmd) (s a : State) (b : List Byte), Begun { op := 0x0509, need := 16, vf := false } c s a → p8 c 0 + p8 c 1 ≤ 88 →
    b = ((List.range (p8 c 1)).map (fun i => expanderBytes (expOf a (p8 c 0 + i)))).flatten → hostOk a (p64 c 8) b.length = true →
    Completes (.foldCounters c) c s (hostStore a (p64 c 8) b) []) ∧
  (∀ c s a, Begun { op := 0x0509, need := 16, vf := false } c s a → 88 < p8 c 0 + p8 c 1 →
    exec (.foldCounters c) s = .next (complete a c St.invalidField []))

/-- Scalar instructions (R217 to R220, R225, R248): the results of the table for the word at the program counter; x0 reads 0 and keeps
nothing, and any other register keeps what it is given; a register operation changes no memory, tally, partition, link or other core, and
of its own core's registers its destination alone. A core that does not run, or that waits on xB's TWAIT, issues no ADD. LD and ST move 8
bytes and fault on a misaligned or unbounded address, LD on a poisoned one. BR takes its condition, and a code of 7 or more raises ILLEGAL;
CSR reads a special, and a code of 5 or more raises ILLEGAL. HALT halts. A word of a MAJOR that no class lists raises ILLEGAL, and a word
whose MAJOR is listed is no ILLEGAL row's. Logs 14 and 15. -/
def Obligations.ScalarRows : Prop :=
  (∀ (s : State) (n k : Nat) (f : Fields) (b c i v : BitVec 64) (op : Instr), b = xget (coreOf s n) (fB f) → c = xget (coreOf s n) (fC f) →
    i = f.imm.signExtend 64 →
    (k, op, v) ∈ [(0x00, .add n f, b + c + i), (0x01, .sub n f, b - c), (0x02, .mul n f, b * c), (0x03, .and n f, b &&& c), (0x04, .or n f, b ||| c),
      (0x05, .xor n f, b ^^^ c), (0x06, .shl n f, b <<< ((c + i).toNat % 64)), (0x07, .shr n f, b >>> ((c + i).toNat % 64)),
      (0x08, .sra n f, b.sshiftRight ((c + i).toNat % 64)), (0x09, .li n f, i)] →
    Issues s n (wordOf k f) [fA f, fB f, fC f] [] → Sets op s n (xset (coreOf s n) (fA f) v)) ∧
  (∀ (c : Core) (r k : Nat) (v : BitVec 64), xget c 0 = 0 ∧ xset c 0 v = c ∧ (r ≠ 0 → xget (xset c r v) r = v) ∧
    (k ≠ r → xget (xset c r v) k = xget c k)) ∧
  (∀ (s t : State) (n : Nat) (f : Fields) (i : Instr), i ∈ [.add n f, .sub n f, .mul n f, .and n f, .or n f, .xor n f, .shl n f, .shr n f, .sra n f, .li n f] →
    exec i s = .next t →
    t.mem = s.mem ∧ t.host = s.host ∧ t.ink = s.ink ∧ t.duc = s.duc ∧ t.cpu.tallies = s.cpu.tallies ∧ t.cpu.parts = s.cpu.parts ∧
    (∀ m, m ≠ n → coreOf t m = coreOf s m) ∧ (coreOf t n).v = (coreOf s n).v ∧ (coreOf t n).a = (coreOf s n).a ∧
    (coreOf t n).spad = (coreOf s n).spad ∧ (∀ r, r ≠ fA f → xget (coreOf t n) r = xget (coreOf s n) r)) ∧
  (∀ (s : State) (n : Nat) (f : Fields), (coreOf s n).run ≠ .running → exec (.add n f) s = .next s) ∧
  (∀ (s : State) (n : Nat) (f : Fields) (w : CoreWait), (coreOf s n).twait = some w → w.reg = f.b → exec (.add n f) s = .next s) ∧
  (∀ (s : State) (n a : Nat) (f : Fields), a = spadAddr (coreOf s n) f → Issues s n (wordOf 0x0A f) [fA f, fB f] [(a, 8)] → a % 8 = 0 → a + 8 ≤ spadSize →
    spadPoisoned (coreOf s n) a 8 = false →
    exec (.ld n f) s = .next (setCore (bumpO (issued s n) (corePart (issued s n) n) 5 8) n
      (advance (xset (coreOf s n) (fA f) (BitVec.ofNat 64 (leNat (spadRead n (coreOf s n) a 8))))))) ∧
  (∀ (s : State) (n a : Nat) (f : Fields), a = spadAddr (coreOf s n) f → Issues s n (wordOf 0x0A f) [fA f, fB f] [(a, 8)] → a % 8 = 0 → a + 8 ≤ spadSize →
    spadPoisoned (coreOf s n) a 8 = true →
    exec (.ld n f) s = .next (coreFault (issued s n) n cPoison (some St.poisoned) (some a))) ∧
  (∀ (s : State) (n a : Nat) (f : Fields), a = spadAddr (coreOf s n) f → Issues s n (wordOf 0x0A f) [fA f, fB f] [(a, 8)] → a % 8 ≠ 0 →
    exec (.ld n f) s = .next (coreFault (issued s n) n cMisaligned none (some a))) ∧
  (∀ (s : State) (n a : Nat) (f : Fields), a = spadAddr (coreOf s n) f → Issues s n (wordOf 0x0A f) [fA f, fB f] [(a, 8)] → a % 8 = 0 → spadSize < a + 8 →
    exec (.ld n f) s = .next (coreFault (issued s n) n cBounds none (some a))) ∧
  (∀ (s : State) (n a : Nat) (f : Fields), a = spadAddr (coreOf s n) f → Issues s n (wordOf 0x0B f) [fA f, fB f] [] → MayWrite s n a 8 → a % 8 = 0 →
    a + 8 ≤ spadSize →
    exec (.st n f) s = .next (setCore (bumpO (issued s n) (corePart (issued s n) n) 6 8) n
      (advance (spadWrite (coreOf s n) a (leBytes 8 (xget (coreOf s n) (fA f)).toNat) false)))) ∧
  (∀ (s : State) (n a : Nat) (f : Fields), a = spadAddr (coreOf s n) f → Issues s n (wordOf 0x0B f) [fA f, fB f] [] → MayWrite s n a 8 → a % 8 ≠ 0 →
    exec (.st n f) s = .next (coreFault (issued s n) n cMisaligned none (some a))) ∧
  (∀ (s : State) (n a : Nat) (f : Fields), a = spadAddr (coreOf s n) f → Issues s n (wordOf 0x0B f) [fA f, fB f] [] → MayWrite s n a 8 → a % 8 = 0 →
    spadSize < a + 8 → exec (.st n f) s = .next (coreFault (issued s n) n cBounds none (some a))) ∧
  (∀ (s : State) (n : Nat) (f : Fields), Issues s n (wordOf 0x0C f) [fB f, fC f] [] →
    branchCond (fA f) (xget (coreOf s n) (fB f)) (xget (coreOf s n) (fC f)) = some false → Sets (.br n f) s n (coreOf s n)) ∧
  (∀ (s : State) (n : Nat) (f : Fields), Issues s n (wordOf 0x0C f) [fB f, fC f] [] →
    branchCond (fA f) (xget (coreOf s n) (fB f)) (xget (coreOf s n) (fC f)) = some true →
    exec (.br n f) s = .next (setCore (issued s n) n
      { coreOf s n with pc := (BitVec.ofNat 64 (coreOf s n).pc + f.imm.signExtend 64 * 8).toNat })) ∧
  (∀ (s : State) (n : Nat) (f : Fields), Issues s n (wordOf 0x0C f) [fB f, fC f] [] → 7 ≤ fA f →
    exec (.br n f) s = .next (coreFault (issued s n) n cIllegal none none)) ∧
  (∀ (s : State) (n : Nat) (f : Fields) (v : BitVec 64), Issues s n (wordOf 0x0D f) [fA f] [] → special (issued s n) n (immBits f 3 0) = some v →
    Sets (.csr n f) s n (xset (coreOf s n) (fA f) v)) ∧
  (∀ (s : State) (n : Nat) (f : Fields), Issues s n (wordOf 0x0D f) [fA f] [] → 5 ≤ immBits f 3 0 →
    exec (.csr n f) s = .next (coreFault (issued s n) n cIllegal none none)) ∧
  (∀ (s : State) (n : Nat) (f : Fields), Issues s n (wordOf 0x0E f) [] [] →
    exec (.halt n f) s = .next (setCore (blot (issued s n) n 4 (corePart (issued s n) n) ((coreOf s n).pc % 2 ^ 32)) n { coreOf s n with run := .halted })) ∧
  (∀ (s : State) (n : Nat) (w : BitVec 64), Issues s n w [] [] → majorListed (w.toNat / 2 ^ 56) = false →
    exec (.illegal n w) s = .next (coreFault (issued s n) n cIllegal none none)) ∧
  (∀ (s : State) (n : Nat) (w : BitVec 64), majorListed (w.toNat / 2 ^ 56) = true → exec (.illegal n w) s = .next s)

/-- Vector and matrix instructions (R218, R220 to R223): each lane is the operation of the table, VLD and VST move 256 bytes and fault on
a misaligned address, VCVT packs its results (the lanes above them free, log 13), VSUM leaves its sum in xA[31:0] (into x0 it leaves
nothing), and VPERM picks lanes; VCVT, VSUM and MMA change no memory, and VCVT and VSUM no other register. An operation on registers and VST
raise ILLEGAL for a vector register that does not exist, VCVT for an unlisted format (log 15). MMA forms the tile of its operands and raises
ILLEGAL for a tile that does not exist, an unlisted format or formats of unequal K; MMAST stores the tile converted. Logs 13, 14 and 15. -/
def Obligations.VectorRows : Prop :=
  (∀ (s : State) (n k : Nat) (f : Fields) (b c a : Nat → Nat) (op : Instr) (g : Nat → Nat), fA f < 32 → fB f < 32 → fC f < 32 →
    b = (fun i => ((vget (coreOf s n) (fB f)).getD i 0).toNat) → c = (fun i => ((vget (coreOf s n) (fC f)).getD i 0).toNat) →
    a = (fun i => ((vget (coreOf s n) (fA f)).getD i 0).toNat) →
    (k, op, g) ∈ [(0x40, .vadd n f, fun i => fadd fp32 (b i) (c i)), (0x41, .vsub n f, fun i => fsub fp32 (b i) (c i)),
      (0x42, .vmul n f, fun i => fmul fp32 (b i) (c i)), (0x43, .vfma n f, fun i => ffma fp32 (b i) (c i) (a i)),
      (0x44, .vmax n f, fun i => fmax fp32 (b i) (c i)), (0x45, .vmin n f, fun i => fmin fp32 (b i) (c i))] →
    Issues s n (wordOf k f) [] [] → Sets op s n (vset (coreOf s n) (fA f) ((List.range 64).map (fun i => BitVec.ofNat 32 (g i))))) ∧
  (∀ (s : State) (n k : Nat) (f : Fields) (op : Instr) (g : Nat → Nat), fA f < 32 → fB f < 32 →
    (k, op, g) ∈ [(0x46, .vexp2 n f, fexp2), (0x47, .vrcp n f, frcp), (0x48, .vrsqrt n f, frsqrt)] → Issues s n (wordOf k f) [] [] →
    Sets op s n (vset (coreOf s n) (fA f) ((vget (coreOf s n) (fB f)).map (fun v => BitVec.ofNat 32 (g v.toNat))))) ∧
  (∀ (s : State) (n : Nat) (f : Fields), Issues s n (wordOf 0x49 f) [fB f] [] → fA f < 32 →
    Sets (.vdup n f) s n (vset (coreOf s n) (fA f) (List.replicate 64 ((xget (coreOf s n) (fB f)).setWidth 32)))) ∧
  (∀ (s : State) (n : Nat) (f : Fields) (b : List (BitVec 32)), Issues s n (wordOf 0x4E f) [] [] → fA f < 32 → fB f < 32 → fC f < 32 →
    b = vget (coreOf s n) (fB f) →
    Sets (.vperm n f) s n (vset (coreOf s n) (fA f) ((vget (coreOf s n) (fC f)).map (fun i => b.getD (i.toNat % 64) 0)))) ∧
  (∀ (s : State) (n k r : Nat) (f : Fields) (regs vs : List Nat) (op : Instr),
    (k, op, regs, vs) ∈ [(0x40, .vadd n f, [], [fA f, fB f, fC f]), (0x41, .vsub n f, [], [fA f, fB f, fC f]), (0x42, .vmul n f, [], [fA f, fB f, fC f]),
      (0x43, .vfma n f, [], [fA f, fB f, fC f]), (0x44, .vmax n f, [], [fA f, fB f, fC f]), (0x45, .vmin n f, [], [fA f, fB f, fC f]),
      (0x46, .vexp2 n f, [], [fA f, fB f]), (0x47, .vrcp n f, [], [fA f, fB f]), (0x48, .vrsqrt n f, [], [fA f, fB f]), (0x49, .vdup n f, [fB f], [fA f]),
      (0x4B, .vst n f, [fB f], [fA f]), (0x4C, .vcvt n f, [], [fA f, fB f]), (0x4D, .vsum n f, [fA f], [fB f]), (0x4E, .vperm n f, [], [fA f, fB f, fC f])] →
    Issues s n (wordOf k f) regs [] → (coreOf s n).xwrs = [] → r ∈ vs → 32 ≤ r → exec op s = .next (coreFault (issued s n) n cIllegal none none)) ∧
  (∀ (s : State) (n a : Nat) (f : Fields), a = spadAddr (coreOf s n) f → Issues s n (wordOf 0x4A f) [fB f] [(a, 256)] → fA f < 32 → a % 256 = 0 →
    a + 256 ≤ spadSize → spadPoisoned (coreOf s n) a 256 = false →
    exec (.vld n f) s = .next (setCore (bumpO (issued s n) (corePart (issued s n) n) 5 256) n
      (advance (vset (coreOf s n) (fA f) (lanesOf (spadRead n (coreOf s n) a 256)))))) ∧
  (∀ (s : State) (n a : Nat) (f : Fields), a = spadAddr (coreOf s n) f → Issues s n (wordOf 0x4B f) [fB f] [] → MayWrite s n a 256 → fA f < 32 →
    a % 256 = 0 → a + 256 ≤ spadSize →
    exec (.vst n f) s = .next (setCore (bumpO (issued s n) (corePart (issued s n) n) 6 256) n
      (advance (spadWrite (coreOf s n) a (laneBytesOf (vget (coreOf s n) (fA f))) false)))) ∧
  (∀ (s : State) (n a : Nat) (f : Fields), a = spadAddr (coreOf s n) f → Issues s n (wordOf 0x4A f) [fB f] [(a, 256)] → fA f < 32 → a % 256 ≠ 0 →
    exec (.vld n f) s = .next (coreFault (issued s n) n cMisaligned none (some a))) ∧
  (∀ (s : State) (n a : Nat) (f : Fields), a = spadAddr (coreOf s n) f → Issues s n (wordOf 0x4B f) [fB f] [] → MayWrite s n a 256 → fA f < 32 →
    a % 256 ≠ 0 → exec (.vst n f) s = .next (coreFault (issued s n) n cMisaligned none (some a))) ∧
  (∀ (s : State) (n w : Nat) (f : Fields) (g : Nat → Nat) (l : List Byte), Issues s n (wordOf 0x4C f) [] [] → fA f < 32 → fB f < 32 →
    vcvtTo (immBits f 3 0) = some (w, g) → l = ((vget (coreOf s n) (fB f)).map (fun v => leBytes (w / 8) (g v.toNat))).flatten →
    ∃ t, exec (.vcvt n f) s = .next t ∧ (vget (coreOf t n) (fA f)).take (l.length / 4) = (lanesOf l).take (l.length / 4) ∧
      (∀ r, r ≠ fA f → vget (coreOf t n) r = vget (coreOf s n) r) ∧
      (coreOf t n).x = (coreOf s n).x ∧ (coreOf t n).spad = (coreOf s n).spad ∧ (coreOf t n).pc = (coreOf s n).pc + 8 ∧ t.mem = s.mem) ∧
  (∀ (s : State) (n : Nat) (f : Fields), Issues s n (wordOf 0x4C f) [] [] → fA f < 32 → fB f < 32 → 6 ≤ immBits f 3 0 →
    exec (.vcvt n f) s = .next (coreFault (issued s n) n cIllegal none none)) ∧
  (∀ (s : State) (n : Nat) (f : Fields), Issues s n (wordOf 0x4D f) [fA f] [] → fB f < 32 → fA f ≠ 0 →
    ∃ t, exec (.vsum n f) s = .next t ∧
      (xget (coreOf t n) (fA f)).setWidth 32 = BitVec.ofNat 32 (vsumLanes ((vget (coreOf s n) (fB f)).map BitVec.toNat)) ∧
      (∀ r, r ≠ fA f → xget (coreOf t n) r = xget (coreOf s n) r) ∧
      (coreOf t n).v = (coreOf s n).v ∧ (coreOf t n).spad = (coreOf s n).spad ∧ (coreOf t n).pc = (coreOf s n).pc + 8 ∧ t.mem = s.mem) ∧
  (∀ (s : State) (n : Nat) (f : Fields), Issues s n (wordOf 0x4D f) [fA f] [] → fB f < 32 → fA f = 0 →
    ∃ t, exec (.vsum n f) s = .next t ∧ coreOf t n = advance (coreOf s n) ∧ t.mem = s.mem) ∧
  (∀ (s : State) (n k a b : Nat) (f : Fields), k = immBits f 3 0 → a = (xget (coreOf s n) (fB f)).toNat → b = (xget (coreOf s n) (fC f)).toNat →
    Issues s n (wordOf 0x80 f) [fB f, fC f] [(a, mmaSpan k), (b, mmaSpan (immBits f 7 4))] → fA f < 4 → k ≤ 7 → mmaK (immBits f 7 4) = mmaK k →
    a + mmaSpan k ≤ spadSize → b + mmaSpan (immBits f 7 4) ≤ spadSize → spadPoisoned (coreOf s n) a (mmaSpan k) = false →
    spadPoisoned (coreOf s n) b (mmaSpan (immBits f 7 4)) = false →
    ∃ t, exec (.mma n f) s = .next t ∧ coreOf t n = advance (aset (coreOf s n) (fA f) (mmaTile k (immBits f 7 4) (immBits f 8 8 == 1)
      (spadRead n (coreOf s n) a (mmaSpan k)) (spadRead n (coreOf s n) b (mmaSpan (immBits f 7 4))) (aget (coreOf s n) (fA f)))) ∧ t.mem = s.mem) ∧
  (∀ (s : State) (n : Nat) (f : Fields), Issues s n (wordOf 0x80 f) [fB f, fC f] [((xget (coreOf s n) (fB f)).toNat, mmaSpan (immBits f 3 0)),
      ((xget (coreOf s n) (fC f)).toNat, mmaSpan (immBits f 7 4))] →
    (4 ≤ fA f ∨ mmaK (immBits f 3 0) = 0 ∨ mmaK (immBits f 3 0) ≠ mmaK (immBits f 7 4)) →
    exec (.mma n f) s = .next (coreFault (issued s n) n cIllegal none none)) ∧
  (∀ (s : State) (n a : Nat) (f : Fields) (l : List Byte), Issues s n (wordOf 0x81 f) [fB f] [] → fA f < 4 → a = (xget (coreOf s n) (fB f)).toNat →
    l = mmastBytes (immBits f 1 0) (aget (coreOf s n) (fA f)) → MayWrite s n a l.length → a + l.length ≤ spadSize →
    exec (.mmast n f) s = .next (setCore (bumpO (issued s n) (corePart (issued s n) n) 6 l.length) n (advance (spadWrite (coreOf s n) a l false))))

/-- Fabric instructions as they issue (R226 to R228, R240, R246). XRD and XWR to the device's own memory take their place and wait, XWR with
what the store queue takes of its source; a misaligned address or length faults XRD, and XWR faults where it would write part of a folded
slot. XEXP starts an expansion; FOLD encodes a tile, and faults under an ID that is not loaded. PATOM and FATOM enter the fabric with their
operand, and an ordered FATOM faults. FENCE waits unless the core is quiet, TSIG is held until it is, TWAIT waits for its tally and faults
on one under reset. LCLAIM claims the descriptor of highest priority, or says that there is none. A core in FENCE issues no XRD, TSIG or
LCLAIM. Logs 14, 46 and 47. -/
def Obligations.FabricRows : Prop :=
  (∀ (s : State) (n a g len dpa : Nat) (f : Fields), Issues s n (wordOf 0xC0 f) [fA f, fB f, fC f] [] → FabricFree s n → a = (xget (coreOf s n) (fA f)).toNat →
    g = (xget (coreOf s n) (fB f)).toNat → len = (xget (coreOf s n) (fC f)).toNat → MayWrite s n a len → a % 64 = 0 → g % 64 = 0 → len % 64 = 0 →
    a + len ≤ spadSize → targetOf (issued s n) g = .here dpa →
    exec (.xrd n f) s = .next (setCore (issued s n) n (placed { coreOf s n with xfers := (coreOf s n).xfers ++
      [{ dst := a, src := dpa, len := len, cls := immBits f 1 0, expand := none, seq := (coreOf s n).seq }] }))) ∧
  (∀ (s : State) (n a : Nat) (f : Fields), Issues s n (wordOf 0xC0 f) [fA f, fB f, fC f] [] → FabricFree s n → a = (xget (coreOf s n) (fA f)).toNat →
    MayWrite s n a (xget (coreOf s n) (fC f)).toNat → (a % 64 ≠ 0 ∨ (xget (coreOf s n) (fB f)).toNat % 64 ≠ 0 ∨ (xget (coreOf s n) (fC f)).toNat % 64 ≠ 0) →
     exec (.xrd n f) s = .next (coreFault (issued s n) n cMisaligned none (some a))) ∧
  (∀ (s : State) (n g a len dpa : Nat) (f : Fields), g = (xget (coreOf s n) (fA f)).toNat → a = (xget (coreOf s n) (fB f)).toNat →
    len = (xget (coreOf s n) (fC f)).toNat → Issues s n (wordOf 0xC1 f) [fA f, fB f, fC f] [(a, len)] → FabricFree s n → a % 64 = 0 → g % 64 = 0 →
    len % 64 = 0 → a + len ≤ spadSize → targetOf (issued s n) g = .here dpa → foldedRefusal (issued s n) dpa len = false →
    exec (.xwr n f) s = .next (setCore (issued s n) n (placed (queueXwr n (coreOf s n) none dpa a len (immBits f 1 0))))) ∧
  (∀ (c : Core) (n dpa a len k : Nat), c.stores = [] → c.xwrs = [] → len = 64 * k → k ≤ 64 →
    (queueXwr n c none dpa a len 1).xwrs = [] ∧ (queueXwr n c none dpa a len 1).stores = (List.range k).map (fun i =>
      { dpa := dpa + 64 * i, data := spadRead n c (a + 64 * i) 64, poison := spadPoisoned c (a + 64 * i) 64, cls := 1, peer := none,
        whole := dpa % 4096 == 0 && len % 4096 == 0, seq := c.seq })) ∧
  (∀ (s : State) (n g a len dpa : Nat) (f : Fields), g = (xget (coreOf s n) (fA f)).toNat → a = (xget (coreOf s n) (fB f)).toNat →
    len = (xget (coreOf s n) (fC f)).toNat → Issues s n (wordOf 0xC1 f) [fA f, fB f, fC f] [(a, len)] → FabricFree s n → a % 64 = 0 → g % 64 = 0 →
    len % 64 = 0 → a + len ≤ spadSize → targetOf (issued s n) g = .here dpa → foldedRefusal (issued s n) dpa len = true →
    exec (.xwr n f) s = .next (coreFault (issued s n) n cAddress (some St.foldPartial) (some g))) ∧
  (∀ (s : State) (n a d k : Nat) (f : Fields), Issues s n (wordOf 0xC2 f) [fA f, fB f, fC f] [] → FabricFree s n → a = (xget (coreOf s n) (fA f)).toNat →
    d = (xget (coreOf s n) (fB f)).toNat → k = (xget (coreOf s n) (fC f)).toNat → MayWrite s n a (4096 * k) → a % 64 = 0 → d % 64 = 0 → 1 ≤ k → k ≤ 384 →
    a + 4096 * k ≤ spadSize → slotsStatus (issued s n) (coreRq (issued s n) n) d k = St.ok →
    olderTouches (issued s n) (coreOf s n) (coreOf s n).seq none d (4096 * k) = false →
    exec (.xexp n f) s = .next (prog (setCore (startExpand (issued s n) (coreRq (issued s n) n) d k (.scratch n a) 1 none).2 n
      (placed { coreOf s n with xfers := (coreOf s n).xfers ++
        [{ dst := a, src := d, len := 4096 * k, cls := 1, expand := some (issued s n).fold.nextReq, seq := (coreOf s n).seq }] }))
      n 7 (corePart (issued s n) n) none k)) ∧
  (∀ (s v : State) (n a b r : Nat) (f : Fields) (w : Basis) (t out : List Byte), a = (xget (coreOf s n) (fA f)).toNat → b = (xget (coreOf s n) (fB f)).toNat →
    Issues s n (wordOf 0xC3 f) [fA f, fB f, fC f] [(b, 4096)] → FabricFree s n → MayWrite s n a 4096 → a % 64 = 0 → b % 64 = 0 → b + 4096 ≤ spadSize →
    mfind (issued s n).fold.basis (immBits f 11 0) = some w → immBits f 23 18 ≤ w.rank → immBits f 17 16 ≤ 2 →
    (fetchBasis (issued s n) w.dpa).1 = some t → v = (fetchBasis (issued s n) w.dpa).2 →
    foldTile (spadRead n (coreOf s n) b 4096) w (immBits f 11 0) t (immBits f 15 12) (immBits f 17 16) (immBits f 23 18)
      ((xget (coreOf s n) (fC f)).toNat % 2 ^ 32) = some (out, r) → a + out.length ≤ spadSize →
    exec (.fold n f) s = .next (bumpO (setCore v n (advance (xset (spadWrite (coreOf s n) a out (spadPoisoned (coreOf s n) b 4096)) (fC f) (BitVec.ofNat 64 r))))
      (corePart v n) 3 (2 * r + 16))) ∧
  (∀ (s : State) (n a b : Nat) (f : Fields), a = (xget (coreOf s n) (fA f)).toNat → b = (xget (coreOf s n) (fB f)).toNat →
    Issues s n (wordOf 0xC3 f) [fA f, fB f, fC f] [(b, 4096)] → FabricFree s n → MayWrite s n a 4096 → a % 64 = 0 → b % 64 = 0 → b + 4096 ≤ spadSize →
    mfind (issued s n).fold.basis (immBits f 11 0) = none →
    exec (.fold n f) s = .next (coreFault (issued s n) n cFoldEncode none none)) ∧
  (∀ (s : State) (n k g a : Nat) (f : Fields) (op : Instr) (b : Bool) (w : Contribution), g = (xget (coreOf s n) (fA f)).toNat →
    a = (xget (coreOf s n) (fB f)).toNat → (k, op, b) ∈ [(0xC4, .patom n f, false), (0xC5, .fatom n f, true)] →
    Issues s n (wordOf k f) [fA f, fB f, fC f] [(a, 64)] → FabricFree s n → g % 64 = 0 → a % 64 = 0 → a + 64 ≤ spadSize → immBits f 8 8 = 0 →
    w = ⟨g, immBits f 7 0, (xget (coreOf s n) (fC f)).setWidth 32, spadRead n (coreOf s n) a 64, spadPoisoned (coreOf s n) a 64, none⟩ →
    exec op s = .next (prog (setCore (issued s n) n (placed { coreOf s n with
      contribs := (coreOf s n).contribs ++ [{ con := w, fetching := b, at_ := a, prior := none, seq := (coreOf s n).seq }] }))
      n 8 (corePart (issued s n) n) none 1)) ∧
  (∀ (s : State) (n g a : Nat) (f : Fields), g = (xget (coreOf s n) (fA f)).toNat → a = (xget (coreOf s n) (fB f)).toNat →
    Issues s n (wordOf 0xC5 f) [fA f, fB f, fC f] [(a, 64)] → FabricFree s n → g % 64 = 0 → a % 64 = 0 → a + 64 ≤ spadSize → immBits f 8 8 = 1 →
    exec (.fatom n f) s = .next (coreFault (issued s n) n cAddress (some St.arithFormat) (some g))) ∧
  (∀ (s : State) (n : Nat) (f : Fields), Issues s n (wordOf 0xC6 f) [] [] → FabricFree s n →
    Sets (.fence n f) s n { coreOf s n with fence := !coreQuiet (issued s n) n }) ∧
  (∀ (s : State) (n g : Nat) (f : Fields), Issues s n (wordOf 0xC7 f) [fA f, fB f] [] → FabricFree s n → g = (xget (coreOf s n) (fA f)).toNat → g % 64 = 0 →
    exec (.tsig n f) s = .next (coreSettle (setCore (issued s n) n (advance { coreOf s n with
      tsigs := [(g, (xget (coreOf s n) (fB f)).setWidth 32, immBits f 0 0 == 1)] })) n)) ∧
  (∀ (s : State) (n g d k : Nat) (f : Fields) (w : CoreWait), Issues s n (wordOf 0xC8 f) [fA f, fB f, fC f] [] → FabricFree s n →
    g = (xget (coreOf s n) (fB f)).toNat → g % 64 = 0 → targetOf (issued s n) g = .here d → tallyAt d = some k →
    underReset (issued s n) (tallyQuad k) = false →
    w = { reg := f.a, tally := k, target := (xget (coreOf s n) (fC f)).setWidth 32, eq := immBits f 0 0 == 1,
          deadline := if immBits f 31 1 = 0 then none else some (BitVec.ofNat 64 (min (2 ^ 64 - 1) ((stamp s).toNat + immBits f 31 1))) } →
    waitHolds (tallyGet s k) w.target w.eq = false →
    exec (.twait n f) s = .next (setCore (blot (issued s n) n 6 (corePart (issued s n) n) (waitBeginArg k w.eq w.target)) n
      (advance { coreOf s n with twait := some w }))) ∧
  (∀ (s : State) (n g d k : Nat) (f : Fields), Issues s n (wordOf 0xC8 f) [fA f, fB f, fC f] [] → FabricFree s n → g = (xget (coreOf s n) (fB f)).toNat →
    g % 64 = 0 → targetOf (issued s n) g = .here d → tallyAt d = some k → underReset (issued s n) (tallyQuad k) = true →
    exec (.twait n f) s = .next (coreFault (issued s n) n cDestReset (some St.destReset) (some g))) ∧
  (∀ (s : State) (n a p l : Nat) (f : Fields) (d : Desc), Issues s n (wordOf 0xC9 f) [fA f, fB f] [] → FabricFree s n → a = (xget (coreOf s n) (fB f)).toNat →
    MayWrite s n a 32 → a % 64 = 0 → a + 32 ≤ spadSize → corePart (issued s n) n = some p → l = immBits f 2 0 →
    (ledgerOf (issued s n) p l).configured = true → claimDesc (ledgerOf (issued s n) p l).descs = some d →
    ∃ t, exec (.lclaim n f) s = .next t ∧ coreOf t n = advance (xset (spadWrite (coreOf s n) a d.bytes false) (fA f) 0) ∧
      ledgerOf t p l = { ledgerOf s p l with descs := (ledgerOf s p l).descs.erase d, served := (ledgerOf s p l).served + 1 } ∧ t.mem = s.mem) ∧
  (∀ (s : State) (n a p l : Nat) (f : Fields), Issues s n (wordOf 0xC9 f) [fA f, fB f] [] → FabricFree s n → a = (xget (coreOf s n) (fB f)).toNat →
    MayWrite s n a 32 → a % 64 = 0 → a + 32 ≤ spadSize → corePart (issued s n) n = some p → l = immBits f 2 0 →
    (ledgerOf (issued s n) p l).configured = true → (ledgerOf (issued s n) p l).descs = [] →
    ∃ t, exec (.lclaim n f) s = .next t ∧ t.mem = s.mem ∧ t.cpu.parts = s.cpu.parts ∧
      coreOf t n = advance (xset (coreOf s n) (fA f) (if (ledgerOf s p l).sealed then 2 else 1))) ∧
  (∀ (s : State) (n : Nat) (f : Fields), (coreOf s n).fence = true → exec (.xrd n f) s = .next s ∧ exec (.tsig n f) s = .next s ∧ exec (.lclaim n f) s = .next s)

/-- Fabric instructions as they end, and tally writes (R227, R238 to R240). XRD_COMPLETE brings an XRD's granules into the scratchpad, or
faults the running core where the read fails; it waits behind an older access of the core to its granules, at a regulator and for a
retraining channel, and a peer's XRD ends once every answer is here. XEXP_COMPLETE ends an expansion whose blocks are all done, and faults
where a block failed. A FATOM's prior value replaces its operand, FENCE_COMPLETE ends a FENCE once the core is quiet, and so does a TSIG
wait, which then signals its tally. TWAIT ends with 1 at its deadline and not before, and its register holds the result. A write to VALUE
sets a tally, a write to ADD adds to it, and a tally under reset takes neither. Logs 8, 47 and 48. -/
def Obligations.FabricEnds : Prop :=
  (∀ (s : State) (n : Nat), (coreOf s n).xfers = [] → exec (.xrdComplete n) s = .next s ∧ exec (.xexpComplete n) s = .next s) ∧
  (∀ (s v : State) (n : Nat) (x : Transfer) (l : List (List Byte × Bool)), (coreOf s n).xfers = [x] → x.expand = none → x.remote = false →
    olderTouches s (coreOf s n) x.seq none x.src x.len = false → accessWaits s (coreRq s n) false x.src x.len x.cls = false →
    (readGranules s (coreRq s n) x.src x.len x.cls).1 = St.ok → l = (readGranules s (coreRq s n) x.src x.len x.cls).2.1 →
    v = (readGranules s (coreRq s n) x.src x.len x.cls).2.2 → (coreOf v n).xfers = [x] →
    exec (.xrdComplete n) s = .next (coreSettle (prog (setCore v n (spadFill { coreOf v n with xfers := [] } x.dst l)) n 6 (corePart s n) none x.len) n)) ∧
  (∀ (s v : State) (n st : Nat) (x : Transfer), (coreOf s n).xfers = [x] → x.expand = none → x.remote = false → (coreOf s n).run = .running →
    olderTouches s (coreOf s n) x.seq none x.src x.len = false → accessWaits s (coreRq s n) false x.src x.len x.cls = false →
    st = (readGranules s (coreRq s n) x.src x.len x.cls).1 → st ≠ St.ok → v = (readGranules s (coreRq s n) x.src x.len x.cls).2.2 → coreOf v n = coreOf s n →
    exec (.xrdComplete n) s = .next (coreFault (setCore v n { coreOf s n with xfers := [] }) n (causeOf st) (some st) (some x.src))) ∧
  (∀ (s : State) (n : Nat) (x : Transfer), (coreOf s n).xfers = [x] → x.expand = none → x.remote = false →
    (olderTouches s (coreOf s n) x.seq none x.src x.len = true ∨ accessWaits s (coreRq s n) false x.src x.len x.cls = true) →
    exec (.xrdComplete n) s = .next s) ∧
  (∀ (s : State) (n : Nat) (x : Transfer), (coreOf s n).xfers = [x] → x.expand = none → x.remote = true → s.duc.remotes = [] →
    exec (.xrdComplete n) s = .next (coreSettle (setCore s n { coreOf s n with xfers := [] }) n)) ∧
  (∀ (s : State) (n i : Nat) (x : Transfer) (r : ExpandReq), (coreOf s n).xfers = [x] → x.expand = some i → mfind s.fold.reqs i = some r → r.left ≠ 0 →
    exec (.xexpComplete n) s = .next s) ∧
  (∀ (s : State) (n i : Nat) (x : Transfer) (r : ExpandReq), (coreOf s n).xfers = [x] → x.expand = some i → mfind s.fold.reqs i = some r → r.left = 0 →
    r.status = 0 → exec (.xexpComplete n) s = .next (coreSettle { setCore s n { coreOf s n with xfers := [] } with fold.reqs := mdel s.fold.reqs i } n)) ∧
  (∀ (s : State) (n i : Nat) (x : Transfer) (r : ExpandReq), (coreOf s n).xfers = [x] → x.expand = some i → mfind s.fold.reqs i = some r → r.left = 0 →
    r.status.toNat = St.foldCheck → (coreOf s n).run = .running → exec (.xexpComplete n) s = .next (coreFault
      { setCore s n { coreOf s n with xfers := [] } with fold.reqs := mdel s.fold.reqs i } n cAddress (some St.foldCheck) (some x.src))) ∧
  (∀ (s : State) (n : Nat) (x : CoreContrib) (b : List Byte), (coreOf s n).contribs = [x] → x.prior = some b →
    exec (.fatomComplete n) s = .next (coreSettle (setCore s n (spadWrite { coreOf s n with contribs := [] } x.at_ b false)) n)) ∧
  (∀ (s : State) (n : Nat), (coreOf s n).contribs = [] → exec (.fatomComplete n) s = .next s) ∧
  (∀ (s : State) (n : Nat), (coreOf s n).fence = true → coreQuiet s n = true →
    exec (.fenceComplete n) s = .next (setCore s n { coreOf s n with fence := false })) ∧
  (∀ (s : State) (n : Nat), coreQuiet s n = false → exec (.fenceComplete n) s = .next s) ∧
  (∀ (s : State) (n : Nat), coreQuiet s n = false → coreSettle s n = s) ∧
  (∀ (s : State) (n g k : Nat) (v : BitVec 32) (b : Bool), (coreOf s n).tsigs = [(g, v, b)] → coreQuiet s n = true → targetOf s g = .here g →
    tallyAt g = some k → underReset s (tallyQuad k) = false →
    coreSettle s n = tallySignalAs (setCore s n { coreOf s n with tsigs := [] }) k v b n (corePart s n)) ∧
  (∀ (s : State) (n : Nat) (w : CoreWait) (d : Stamp), (coreOf s n).twait = some w → w.deadline = some d → d.toNat ≤ (stamp s).toNat →
    exec (.twaitTimeout n) s = .next (endCoreWait s n w 1)) ∧
  (∀ (s : State) (n : Nat) (w : CoreWait) (d : Stamp), (coreOf s n).twait = some w → w.deadline = some d → (stamp s).toNat < d.toNat →
    exec (.twaitTimeout n) s = .next s) ∧
  (∀ (s : State) (n : Nat) (w : CoreWait) (r : Nat), r ≤ 1 → w.reg ≠ 0 →
    xget (coreOf (endCoreWait s n w r) n) w.reg.toNat = BitVec.ofNat 64 r ∧ (coreOf (endCoreWait s n w r) n).twait = none) ∧
  (∀ (s : State) (k : Nat) (v : BitVec 32), k < 16384 → underReset s (tallyQuad k) = false → s.cpu.waiters = [] →
    s.cpu.cores.all (fun e => e.2.twait.isNone) = true →
    ∃ t, exec (.tallyValueWrite .admin k v) s = .next t ∧ tallyGet t k = v ∧ (∀ j, j ≠ k → tallyGet t j = tallyGet s j) ∧ t.mem.cells = s.mem.cells ∧
      t.mem.reply = some { status := 0, data := [], poison := false }) ∧
  (∀ (s : State) (k : Nat) (v : BitVec 32), k < 16384 → underReset s (tallyQuad k) = false → s.cpu.waiters = [] →
    s.cpu.cores.all (fun e => e.2.twait.isNone) = true →
    ∃ t, exec (.tallyAddWrite .admin k v) s = .next t ∧ tallyGet t k = tallyGet s k + v ∧ (∀ j, j ≠ k → tallyGet t j = tallyGet s j) ∧
      t.mem.cells = s.mem.cells ∧ t.mem.reply = some { status := 0, data := [], poison := false }) ∧
  (∀ (s : State) (k : Nat) (v : BitVec 32), k < 16384 → underReset s (tallyQuad k) = true →
    exec (.tallyValueWrite .admin k v) s = .next (setReply s St.destReset [] false) ∧
    exec (.tallyAddWrite .admin k v) s = .next (setReply s St.destReset [] false))

/-- The commands of a quire (R234 to R245, R430, R446). KERNEL reserves its set, or ends with CORE_INVALID; KERNEL_START loads the code and
starts every core of the set once all are idle and unreserved (on queue 31 the summary kernel's), and KERNEL_COMPLETE ends it once every
core has, with KERNEL_FAULT where one faulted. COPY of no bytes ends with QUIRE_FORMAT, and otherwise copies; REDUCE contributes its granules
and waits for those set aside; FOLD_COPY and GATHER_RES begin, and other commands' ends finish them; a copy and a reduction that their
regulator or a retraining channel holds do nothing yet. TALLY_SIGNAL signals; TALLY_WAIT waits to its deadline or ends with DEST_RESET;
MARK_BEGIN and MARK_END open and close ranges, with MARK_DEPTH and MARK_MISMATCH; LEDGER_FILL appends, with LEDGER_SEALED and LEDGER_FULL.
Logs 49, 50 and 92. -/
def Obligations.QuireRows : Prop :=
  (∀ (s : State) (p q : Nat) (c : CurCmd) (l : List Nat), InQueue s p q 1 c → 8 ≤ fieldN c.bytes 16 4 → fieldN c.bytes 16 4 ≤ 65536 →
    (fieldN c.bytes 32 1 ≤ 7 ∨ fieldN c.bytes 32 1 = 255) → kernelCores s p c.bytes = some l →
    exec (.kernel p q) s = .next (setQueue s p q { queueOf s p q with cores := l, running := false, cur := some { c with begun := true, arrived := s.time } })) ∧
  (∀ (s : State) (p q : Nat) (c : CurCmd), InQueue s p q 1 c → 8 ≤ fieldN c.bytes 16 4 → fieldN c.bytes 16 4 ≤ 65536 → fieldN c.bytes 32 1 ≤ 7 →
    kernelCores s p c.bytes = none → exec (.kernel p q) s = .next (queueStatus s p q St.coreInvalid)) ∧
  (∀ (s : State) (p q n : Nat) (c : CurCmd), (queueOf s p q).cur = some c → n ∈ (queueOf s p q).cores → (coreOf s n).run ≠ .idle →
    exec (.kernelStart p q) s = .next s) ∧
  (∀ (s : State) (p q : Nat) (c : CurCmd), (queueOf s p q).cur = some c → kernelWaits (queueOf s p q) = true →
    (queueOf s p q).cores.all (fun n => (coreOf s n).run == .idle && !reservedByOlder s p q c.arrived n) = true → runsSummary s p q = true →
    exec (.kernelStart p q) s = .next (startSummary s p)) ∧
  (∀ (s v : State) (p q : Nat) (c : CurCmd) (b : List Byte), (queueOf s p q).cur = some c → kernelWaits (queueOf s p q) = true →
    (queueOf s p q).cores.all (fun n => (coreOf s n).run == .idle && !reservedByOlder s p q c.arrived n) = true → runsSummary s p q = false →
    accessWaits s (qRq p q) false (fieldN c.bytes 8 8) (fieldN c.bytes 16 4) (qClass c.bytes) = false →
    (readBytes s (qRq p q) (fieldN c.bytes 8 8) (fieldN c.bytes 16 4) (qClass c.bytes)).1 = St.ok →
    b = (readBytes s (qRq p q) (fieldN c.bytes 8 8) (fieldN c.bytes 16 4) (qClass c.bytes)).2.1 →
    (readBytes s (qRq p q) (fieldN c.bytes 8 8) (fieldN c.bytes 16 4) (qClass c.bytes)).2.2.1 = false →
    v = (((queueOf s p q).cores.zipIdx).foldl (fun s e => launch s p q c.index b (fieldN c.bytes 24 8) (fieldN c.bytes 32 1)
      (queueOf s p q).cores.length e.1 e.2) (readBytes s (qRq p q) (fieldN c.bytes 8 8) (fieldN c.bytes 16 4) (qClass c.bytes)).2.2.2) →
    exec (.kernelStart p q) s = .next (setQueue v p q { queueOf v p q with running := true })) ∧
  (∀ (s : State) (p q n : Nat), n ∈ (queueOf s p q).cores → (coreOf s n).run = .running → exec (.kernelComplete p q) s = .next s) ∧
  (∀ (s : State) (p q : Nat), (queueOf s p q).running = true → (queueOf s p q).cores.all (fun n => coreEnded (coreOf s n) && writesAnswered s n) = true →
    (queueOf s p q).cores.all (fun n => (coreOf s n).run == .halted) = true →
    exec (.kernelComplete p q) s = .next (queueStatus
      (bump (freeCores (setQueue s p q { queueOf s p q with running := false, cores := [] }) (queueOf s p q).cores) p 34 1) p q St.ok)) ∧
  (∀ (s : State) (p q n : Nat), (queueOf s p q).running = true → (queueOf s p q).cores.all (fun n => coreEnded (coreOf s n) && writesAnswered s n) = true →
    n ∈ (queueOf s p q).cores → (coreOf s n).run = .faulted →
    exec (.kernelComplete p q) s = .next (queueStatus
      (bump (freeCores (setQueue s p q { queueOf s p q with running := false, cores := [] }) (queueOf s p q).cores) p 34 1) p q St.kernelFault)) ∧
  (∀ (s : State) (p q : Nat) (c : CurCmd), InQueue s p q 2 c → fieldN c.bytes 24 8 = 0 → exec (.copy p q) s = .next (queueStatus s p q St.quireFormat)) ∧
  (∀ (s : State) (p q a b n : Nat) (c : CurCmd), InQueue s p q 2 c → a = fieldN c.bytes 8 8 → b = fieldN c.bytes 16 8 → n = fieldN c.bytes 24 8 → n ≠ 0 →
    a % 64 = 0 → b % 64 = 0 → n % 64 = 0 → isDpa a = true → isDpa b = true →
    exec (.copy p q) s = .next (if copyHeld s (qRq p q) true true a b n (qClass c.bytes) then s
      else queueStatus (copyWithin s (qRq p q) a b n (qClass c.bytes)).2 p q (copyWithin s (qRq p q) a b n (qClass c.bytes)).1)) ∧
  (∀ (s : State) (p q a b n : Nat) (c : CurCmd), InQueue s p q 3 c → a = fieldN c.bytes 8 8 → b = fieldN c.bytes 16 8 → n = fieldN c.bytes 24 4 → n ≠ 0 →
    firstFail (expandChecks s (qRq p q) a b n (qClass c.bytes)) = none →
    exec (.foldCopy p q) s = .next (startExpand (qBegin s p q) (qRq p q) a n (.memory b) (qClass c.bytes) (some (p, q))).2) ∧
  (∀ (s u : State) (p q a b n k l st : Nat) (c : CurCmd) (o : Option (Nat × Nat)), InQueue s p q 4 c → a = fieldN c.bytes 8 8 → b = fieldN c.bytes 16 8 →
    n = fieldN c.bytes 24 4 → n ≠ 0 → k = fieldN c.bytes 28 1 → o = (if bit (fieldN c.bytes 29 1) 0 then some (fieldN c.bytes 30 1, fieldN c.bytes 32 4) else none) →
    firstFail (applyChecks a b n k (qClass c.bytes)) = none → arithApply s (qRq p q) a b n k o (qClass c.bytes) = (st, l, u) →
    exec (.reduce p q) s = .next (if applyHeld s (qRq p q) a b n (qClass c.bytes) then s
      else if l = 0 then queueStatus u p q st else qBegin (applyWaits u (some (p, q)) l st) p q)) ∧
  (∀ (s u v : State) (p q n i : Nat) (c : CurCmd) (l : List (List Byte)), InQueue s p q 5 c → n = fieldN c.bytes 16 1 → 1 ≤ n → n ≤ 16 →
    accessWaits s (qRq p q) false (fieldN c.bytes 8 8) 64 (qClass c.bytes) = false →
    readDescs (qRq p q) (qClass c.bytes) n (fieldN c.bytes 8 8) s = ((St.ok, l), u) →
    startGather (qBegin u p q) p (some (p, q)) (qClass c.bytes) l = (i, v) → exec (.gatherRes p q) s = .next (gatherEnd v i)) ∧
  (∀ (s : State) (p q k g d : Nat) (c : CurCmd), InQueue s p q 6 c → fieldN c.bytes 20 1 ≤ 1 → g = fieldN c.bytes 8 8 →
    targetOf (qBegin s p q) g = .here d → targetOf s g = .here d → tallyAt d = some k → underReset (qBegin s p q) (tallyQuad k) = false →
    exec (.tallySignal p q) s = .next (queueStatus (tallySignalAs (qBegin s p q) k (BitVec.ofNat 32 (fieldN c.bytes 16 4)) (fieldN c.bytes 20 1 == 1)
      (queueUnit p q) (some p)) p q St.ok)) ∧
  (∀ (s : State) (p q k d : Nat) (c : CurCmd) (w : QWaiter), InQueue s p q 7 c → fieldN c.bytes 20 1 ≤ 1 → targetOf s (fieldN c.bytes 8 8) = .here d →
    tallyAt d = some k → underReset s (tallyQuad k) = false →
    w = { p := p, q := q, tally := k, target := BitVec.ofNat 32 (fieldN c.bytes 16 4), eq := fieldN c.bytes 20 1 == 1,
          deadline := if fieldN c.bytes 24 4 = 0 then none else some (BitVec.ofNat 64 (min (2 ^ 64 - 1) ((stamp s).toNat + fieldN c.bytes 24 4 * 65536))) } →
    waitHolds (tallyGet s k) w.target w.eq = false →
    ∃ t, exec (.tallyWait p q) s = .next t ∧ t.cpu.waiters = s.cpu.waiters ++ [w] ∧ (queueOf t p q).cur = some { c with begun := true } ∧ t.mem = s.mem) ∧
  (∀ (s : State) (p q k d : Nat) (c : CurCmd), InQueue s p q 7 c → fieldN c.bytes 20 1 ≤ 1 → targetOf s (fieldN c.bytes 8 8) = .here d →
    tallyAt d = some k → underReset s (tallyQuad k) = true → exec (.tallyWait p q) s = .next (queueStatus s p q St.destReset)) ∧
  (∀ (s : State) (p q : Nat) (w : QWaiter) (d : Stamp), s.cpu.waiters = [w] → w.p = p → w.q = q → w.deadline = some d → d.toNat ≤ (stamp s).toNat →
    exec (.tallyWaitTimeout p q) s = .next (endQueueWait s w 1)) ∧
  (∀ (s : State) (p q : Nat), s.cpu.waiters = [] → exec (.tallyWaitTimeout p q) s = .next s) ∧
  (∀ (s : State) (p q : Nat) (c : CurCmd), InQueue s p q 8 c → 16 ≤ (queueOf s p q).ranges.length →
    exec (.markBegin p q) s = .next (queueStatus s p q St.markDepth)) ∧
  (∀ (s : State) (p q : Nat) (c : CurCmd), InQueue s p q 8 c → (queueOf s p q).ranges.length < 16 →
    exec (.markBegin p q) s = .next (queueStatus (tracePart (setQueue s p q { queueOf s p q with ranges := (queueOf s p q).ranges ++
      [⟨BitVec.ofNat 32 (fieldN c.bytes 8 4), BitVec.ofNat 32 (fieldN c.bytes 12 4), stamp s, counters s p⟩] }) p 0x04 (queueUnit p q)
      (slice c.bytes 8 8 ++ [BitVec.ofNat 8 q, BitVec.ofNat 8 ((queueOf s p q).ranges.length + 1)])) p q St.ok)) ∧
  (∀ (s : State) (p q : Nat) (c : CurCmd) (r : OpenRange) (l : List OpenRange), InQueue s p q 9 c → (queueOf s p q).ranges = l ++ [r] →
    r.marker.toNat = fieldN c.bytes 8 4 →
    exec (.markEnd p q) s = .next (queueStatus (closeRange (setQueue s p q { queueOf s p q with ranges := l }) p q r (l.length + 1) false) p q St.ok)) ∧
  (∀ (s : State) (p q : Nat) (c : CurCmd) (r : OpenRange) (l : List OpenRange), InQueue s p q 9 c → (queueOf s p q).ranges = l ++ [r] →
    r.marker.toNat ≠ fieldN c.bytes 8 4 → exec (.markEnd p q) s = .next (queueStatus s p q St.markMismatch)) ∧
  (∀ (s : State) (p q : Nat) (c : CurCmd), InQueue s p q 9 c → (queueOf s p q).ranges = [] →
    exec (.markEnd p q) s = .next (queueStatus s p q St.markMismatch)) ∧
  (∀ (s : State) (p q l : Nat) (c : CurCmd), InQueue s p q 12 c → l = fieldN c.bytes 8 1 → l ≤ 7 → (ledgerOf s p l).configured = true →
    accessWaits s (qRq p q) false (fieldN c.bytes 16 8) (32 * fieldN c.bytes 24 4) (qClass c.bytes) = false →
    accessWaits s (qRq p q) true (ledgerOf s p l).dpa (32 * 2 ^ (ledgerOf s p l).log2) (qClass c.bytes) = false →
    exec (.ledgerFill p q) s = .next (queueStatus (ledgerFill s p q l (fieldN c.bytes 9 1) (fieldN c.bytes 16 8) (fieldN c.bytes 24 4) (qClass c.bytes)).2 p q
      (ledgerFill s p q l (fieldN c.bytes 9 1) (fieldN c.bytes 16 8) (fieldN c.bytes 24 4) (qClass c.bytes)).1)) ∧
  (∀ (s : State) (p q l flags a n k : Nat), bit flags 1 = false → (ledgerOf s p l).sealed = true →
    ledgerFill s p q l flags a n k = (St.ledgerSealed, s)) ∧
  (∀ (s : State) (p q l flags a n k : Nat), bit flags 1 = false → (ledgerOf s p l).sealed = false →
    2 ^ (ledgerOf s p l).log2 < (ledgerOf s p l).descs.length + n → ledgerFill s p q l flags a n k = (St.ledgerFull, s))

/-- A queue goes on (R236, R237, R296, R298): a command in progress stays; an ended one leaves and the next starts, of its quire or of the
next quire; a failing one without CONTINUE halts the queue, and a halted queue starts nothing; a MARK_END whose digest is held waits; on a
queue of the composer a running step goes on with it or stops. STEP_BEGIN stamps the running step and STEP_END commits it, and outside their
stage both end with QUIRE_FORMAT. A status ends the command in progress. Logs 49 and 66. -/
def Obligations.QueueProgress : Prop :=
  (∀ (s : State) (p q : Nat) (c : CurCmd), q < 28 → (queueOf s p q).cur = some c → c.status = none → exec (.queueAdvance p q) s = .next s) ∧
  (∀ (s : State) (p q : Nat) (c : CurCmd) (u : Quire) (l : List Quire), q < 28 → (queueOf s p q).cur = some c → (queueOf s p q).quires = u :: l →
    c.status = some 0 → qSignal c.bytes = false → qCode c.bytes ≠ 9 → c.index + 1 < u.count →
    exec (.queueAdvance p q) s = .next (startNext (setQueue s p q { queueOf s p q with cur := none, next := c.index + 1 }) p q)) ∧
  (∀ (s : State) (p q : Nat) (c : CurCmd) (u : Quire) (l : List Quire), q < 28 → (queueOf s p q).cur = some c → (queueOf s p q).quires = u :: l →
    c.status = some 0 → qSignal c.bytes = false → qCode c.bytes ≠ 9 → u.count ≤ c.index + 1 →
    exec (.queueAdvance p q) s = .next (startNext
      (quireEnds (setQueue s p q { queueOf s p q with cur := none, next := 0, quires := l, haltStatus := 0 }) p q u St.ok) p q)) ∧
  (∀ (s : State) (p q : Nat) (st : BitVec 16) (c : CurCmd) (u : Quire) (l : List Quire), q < 28 → (queueOf s p q).cur = some c →
    (queueOf s p q).quires = u :: l → c.status = some st → st ≠ 0 → qSignal c.bytes = false → qContinue c.bytes = false →
    exec (.queueAdvance p q) s = .next (quireEnds
      (setQueue s p q { queueOf s p q with cur := none, halted := true, haltStatus := st }) p q u st.toNat)) ∧
  (∀ (s : State) (p q : Nat), 28 ≤ q → (compOf (queueAdvance s p q) p).run = none → exec (.queueAdvance p q) s = .next (queueAdvance s p q)) ∧
  (∀ (s : State) (p q : Nat) (r : RunStep), 28 ≤ q → (compOf (queueAdvance s p q) p).run = some r →
    exec (.queueAdvance p q) s = .next (stepHalt (queueAdvance s p q) p)) ∧
  (∀ (s : State) (p q : Nat) (c : CurCmd), q < 28 → (queueOf s p q).cur = some c → c.status = some 0 → qCode c.bytes = 9 →
    markerHeld s p (BitVec.ofNat 32 (fieldN c.bytes 8 4)) = true → exec (.queueAdvance p q) s = .next s) ∧
  (∀ (s : State) (p q : Nat), (queueOf s p q).halted = true → startNext s p q = s) ∧
  (∀ (s : State) (p q : Nat) (c : CurCmd), InQueue s p q 10 c → (compOf s p).run = none →
    exec (.stepBegin p q) s = .next (queueStatus s p q St.quireFormat)) ∧
  (∀ (s : State) (p q : Nat) (c : CurCmd), InQueue s p q 11 c → (compOf s p).run = none →
    exec (.stepEnd p q) s = .next (queueStatus s p q St.quireFormat)) ∧
  (∀ (s : State) (p q : Nat) (c : CurCmd) (r : RunStep), InQueue s p q 10 c → stepCmd s p q 0 c.bytes = some r →
    exec (.stepBegin p q) s = .next (queueStatus (setComp s p { compOf s p with run := some { r with start := stamp s } }) p q St.ok)) ∧
  (∀ (s : State) (p q : Nat) (c : CurCmd) (r : RunStep), InQueue s p q 11 c → stepCmd s p q 3 c.bytes = some r →
    exec (.stepEnd p q) s = .next (queueStatus (stepCommit s p r) p q St.ok)) ∧
  (∀ (s : State) (p q : Nat) (c : CurCmd), (queueOf s p q).cur = some c → c.status = none →
    ∃ d, (queueOf (queueStatus s p q St.ok) p q).cur = some d ∧ d.status = some 0 ∧ d.bytes = c.bytes ∧ d.index = c.index)

/-- The firmware commands of cores and queues (R229, R231, R233, R237, R238, R243, R250): CORE_MAP reports every core; PART_CONFIG gives an
idle partition its quadrants, and a busy one PARTITION_BUSY; QUIRE_SUBMIT queues a quire and waits, with RESOURCE_EXHAUSTED beyond 16 and
QUEUE_RESERVED on the composer's queues; QUEUE_CONTROL resumes, resets and reports, and a reset queue is empty; TALLY_OP reads, sets or adds
to a tally, with TALLY_INVALID and DEST_RESET; LEDGER_CONFIG and LEDGER_QUERY; CORE_FAULT_READ hands out and clears unread records. Logs 51,
52 and 53. -/
def Obligations.CoreCommandRows : Prop :=
  (∀ c s a, Begun { op := 0x0601, need := 8 } c s a → hostOk a (p64 c 0) 1024 = true →
    Completes (.coreMap c) c s (hostStore a (p64 c 0) ((List.range 256).map (coreMapEntry a)).flatten) []) ∧
  (∀ c s a, Begun { op := 0x0602, need := 2, vf := false } c s a → p8 c 0 ≤ 3 → p8 c 1 ≤ 15 →
    (∀ o, o < 4 → o ≠ p8 c 0 → (partOf a o).mask &&& BitVec.ofNat 4 (p8 c 1) = 0) → partIdle a (p8 c 0) = true →
    Completes (.partConfig c) c s (concordUpdate (setPart a (p8 c 0) { mask := BitVec.ofNat 4 (p8 c 1) })) []) ∧
  (∀ c s a, Begun { op := 0x0602, need := 2, vf := false } c s a → p8 c 0 ≤ 3 → p8 c 1 ≤ 15 →
    (∀ o, o < 4 → o ≠ p8 c 0 → (partOf a o).mask &&& BitVec.ofNat 4 (p8 c 1) = 0) → partIdle a (p8 c 0) = false →
    exec (.partConfig c) s = .next (complete a c St.partitionBusy [])) ∧
  (∀ (c : Cmd) (s a : State) (x : Queue), Begun { op := 0x0603, need := 16, part := some 0 } c s a → p8 c 0 ≤ 3 → p8 c 1 ≤ 31 →
    (p8 c 1 < 28 ∨ mfind a.stp.comps (p8 c 0) = none) → p16 c 2 ≠ 0 →
    configured a (p8 c 0) = true → p64 c 8 % 64 = 0 → isDpa (p64 c 8) = true → x = queueOf a (p8 c 0) (p8 c 1) → x.quires.length < 16 →
    Waits (.quireSubmit c) 0x0603 c s (startNext (setQueue a (p8 c 0) (p8 c 1)
      { x with quires := x.quires ++ [{ dpa := p64 c 8, count := p16 c 2, composer := false }] }) (p8 c 0) (p8 c 1)) (.quire (p8 c 0) (p8 c 1))) ∧
  (∀ c s a, Begun { op := 0x0603, need := 16, part := some 0 } c s a → p8 c 0 ≤ 3 → p8 c 1 < 28 → p16 c 2 ≠ 0 →
    configured a (p8 c 0) = true → p64 c 8 % 64 = 0 → isDpa (p64 c 8) = true → 16 ≤ (queueOf a (p8 c 0) (p8 c 1)).quires.length →
    exec (.quireSubmit c) s = .next (complete a c St.resourceExhausted [])) ∧
  (∀ (c : Cmd) (s a : State) (k : Composer), Begun { op := 0x0603, need := 16, part := some 0 } c s a → p8 c 0 ≤ 3 → 28 ≤ p8 c 1 → p8 c 1 ≤ 31 →
    p16 c 2 ≠ 0 → configured a (p8 c 0) = true → p64 c 8 % 64 = 0 → isDpa (p64 c 8) = true → mfind a.stp.comps (p8 c 0) = some k → (k.enabled = true ∨ k.run.isSome = true) →
    exec (.quireSubmit c) s = .next (complete a c St.queueReserved [])) ∧
  (∀ c s a, Begun { op := 0x0604, need := 3, part := some 0 } c s a → p8 c 0 ≤ 3 → p8 c 1 ≤ 31 → p8 c 2 = 1 →
    Completes (.queueControl c) c s (resumeQueue a (p8 c 0) (p8 c 1)) []) ∧
  (∀ c s a, Begun { op := 0x0604, need := 3, part := some 0 } c s a → p8 c 0 ≤ 3 → p8 c 1 ≤ 31 → p8 c 2 = 2 →
    Completes (.queueControl c) c s (resetQueue a (p8 c 0) (p8 c 1)) []) ∧
  (∀ (c : Cmd) (s a : State) (x : Queue), Begun { op := 0x0604, need := 3, part := some 0 } c s a → p8 c 0 ≤ 3 → p8 c 1 ≤ 31 → p8 c 2 = 3 →
    x = queueOf a (p8 c 0) (p8 c 1) →
    Completes (.queueControl c) c s a ([BitVec.ofNat 8 (queueState a (p8 c 0) (p8 c 1)), 0] ++ leBytes 2 x.quires.length ++
      leBytes 4 ((x.cur.map CurCmd.index).getD x.next))) ∧
  (∀ (s : State) (p q : Nat), s.ink.running = [] → (queueOf (resetQueue s p q) p q).quires = [] ∧ (queueOf (resetQueue s p q) p q).cur = none ∧
    (queueOf (resetQueue s p q) p q).halted = false ∧ (queueOf (resetQueue s p q) p q).ranges = []) ∧
  (∀ c s a, Begun { op := 0x0605, need := 8, refuse := foreignTally } c s a → p16 c 0 < 16384 → 1 ≤ p8 c 2 → p8 c 2 ≤ 2 →
    underReset a (tallyQuad (p16 c 0)) = false →
    Completes (.tallyOp c) c s (tallySignalAs a (p16 c 0) (BitVec.ofNat 32 (p32 c 4)) (p8 c 2 == 1) 0x9000 (cmdPart c)) (leBytes 4 (tallyGet a (p16 c 0)).toNat)) ∧
  (∀ c s a, Begun { op := 0x0605, need := 8, refuse := foreignTally } c s a → p16 c 0 < 16384 → p8 c 2 = 0 → underReset a (tallyQuad (p16 c 0)) = false →
    Completes (.tallyOp c) c s a (leBytes 4 (tallyGet a (p16 c 0)).toNat)) ∧
  (∀ c s a, Begun { op := 0x0605, need := 8, refuse := foreignTally } c s a → 16384 ≤ p16 c 0 →
    exec (.tallyOp c) s = .next (complete a c St.tallyInvalid [])) ∧
  (∀ c s a, Begun { op := 0x0605, need := 8, refuse := foreignTally } c s a → p16 c 0 < 16384 → p8 c 2 ≤ 2 → underReset a (tallyQuad (p16 c 0)) = true →
    exec (.tallyOp c) s = .next (complete a c St.destReset [])) ∧
  (∀ c s a, Begun { op := 0x0606, need := 16, part := some 0 } c s a → p8 c 0 ≤ 3 → p8 c 1 ≤ 7 → 4 ≤ p8 c 2 → p8 c 2 ≤ 16 →
    configured a (p8 c 0) = true → isDpa (p64 c 8) = true →
    (regionSteps (p64 c 8) (32 * 2 ^ p8 c 2)).all (fun d => (match whereIs d with | .region .fast _ => true | _ => false) &&
      cacheStatusAt a (some (p8 c 0)) d == St.ok) = true →
    rangeFenced a (p64 c 8) (32 * 2 ^ p8 c 2) = false →
    Completes (.ledgerConfig c) c s (setLedger a (p8 c 0) (p8 c 1) { configured := true, log2 := p8 c 2, dpa := p64 c 8 }) []) ∧
  (∀ (c : Cmd) (s a : State) (x : Ledger), Begun { op := 0x0607, need := 2, part := some 0 } c s a → p8 c 0 ≤ 3 → p8 c 1 ≤ 7 →
    x = ledgerOf a (p8 c 0) (p8 c 1) →
    Completes (.ledgerQuery c) c s a ([BitVec.ofNat 8 (if !x.configured then 0 else if x.sealed then 2 else 1), 0, 0, 0] ++
      leBytes 4 x.descs.length ++ leBytes 8 x.served.toNat)) ∧
  (∀ (c : Cmd) (s a : State) (l : Log), Begun { op := 0x0608, need := 11 } c s a → p8 c 10 ≤ 1 → l = mget {} a.cpu.faults (p8 c 10) →
    hostOk a (p64 c 0) ((lastN l.unread l.recs).take (min (p16 c 8) l.unread)).flatten.length = true →
    Completes (.coreFaultRead c) c s
      (hostStore { a with cpu.faults := mput a.cpu.faults (p8 c 10) { l with unread := l.unread - min (p16 c 8) l.unread, overwritten := 0 } } (p64 c 0)
        ((lastN l.unread l.recs).take (min (p16 c 8) l.unread)).flatten)
      (leBytes 2 ((lastN l.unread l.recs).take (min (p16 c 8) l.unread)).length ++ leBytes 4 l.overwritten))

/-- Models, pools, the prefix index and pins (R255 to R258, R271, R274, R279), ordered after the expiries that are due (R273): MODEL_LOAD
stores a model whose pools hold its payload, with POOL_LAYOUT where the live pool does not; MODEL_UNLOAD flushes and forgets a model that no
request uses, with MODEL_BUSY for another; PAGE_POOL_CONFIG and PAGE_MAP_CONFIG store what they are given, the latter with POOL_BUSY while a
model is loaded; PREFIX_LOOKUP counts the blocks that match; PREFIX_PIN holds them under a handle, with PIN_MISS where one is missing and
RESOURCE_EXHAUSTED where no handle is free; PREFIX_UNPIN releases them; PREFIX_FLUSH and PAGE_STATS. Logs 54, 55, 56 and 60. -/
def Obligations.ModelAndPoolRows : Prop :=
  (∀ (c : Cmd) (s a b : State) (x : Model), Begun { op := 0x0701, need := 24, vf := false } c s a → b = settle c a → x = parseModel (padTo 24 (body c)) →
    p8 c 0 ≤ 15 → 0 < x.payload → x.payload % 4096 = 0 → x.payload ≤ 16777216 → 16 ≤ x.maxCtx → x.maxCtx ≤ 16777216 → x.scount ≤ 64 →
    poolServes b x.live 0 x.payload = true → (x.park = 255 ∨ poolServes b x.park 1 x.payload = true) →
    (x.summary = 255 ∨ poolServes b x.summary 2 x.payload = true) → modelOf b (p8 c 0) = none →
    Completes (.modelLoad c) c s { b with srv.models := mput b.srv.models (p8 c 0) x } []) ∧
  (∀ (c : Cmd) (s a b : State) (x : Model), Begun { op := 0x0701, need := 24, vf := false } c s a → b = settle c a → x = parseModel (padTo 24 (body c)) →
    p8 c 0 ≤ 15 → 0 < x.payload → x.payload % 4096 = 0 → x.payload ≤ 16777216 → 16 ≤ x.maxCtx → x.maxCtx ≤ 16777216 → x.scount ≤ 64 →
    poolServes b x.live 0 x.payload = false → exec (.modelLoad c) s = .next (complete b c St.poolLayout [])) ∧
  (∀ (c : Cmd) (s a b : State), Begun { op := 0x0702, need := 1, vf := false } c s a → b = settle c a → (modelOf b (p8 c 0)).isSome = true →
    b.srv.reqs.any (fun r => r.2.st != 0 && r.2.model == p8 c 0) = false →
    Completes (.modelUnload c) c s { flushIndex b (p8 c 0) with srv.models := mdel (flushIndex b (p8 c 0)).srv.models (p8 c 0) } []) ∧
  (∀ (c : Cmd) (s a b : State), Begun { op := 0x0702, need := 1, vf := false } c s a → b = settle c a → (modelOf b (p8 c 0)).isSome = true →
    b.srv.reqs.any (fun r => r.2.st != 0 && r.2.model == p8 c 0) = true → exec (.modelUnload c) s = .next (complete b c St.modelBusy [])) ∧
  (∀ (c : Cmd) (s a b : State) (p : Pool), Begun { op := 0x0703, need := 36, vf := false } c s a → b = settle c a → p = parsePool (padTo 36 (body c)) →
    p8 c 0 ≤ 7 → p.kind ≤ 2 → 0 < p.count → p.first + p.count ≤ 16777216 → p.stride % 4096 = 0 → p.data % 4096 = 0 → p.trailers % 128 = 0 →
    isDpa p.data = true → isDpa p.trailers = true → poolNamed b (p8 c 0) = false →
    b.srv.pools.any (fun e => e.1 != p8 c 0 && rangesMeet p.first p.count e.2.first e.2.count) = false →
    poolPlaced b p.kind p.data (p.stride * p.count) = true → fastArea b none p.trailers (128 * p.count) = true →
    Completes (.pagePoolConfig c) c s (setPool (forgetPool b (p8 c 0)) (p8 c 0) p) []) ∧
  (∀ (c : Cmd) (s a b : State), Begun { op := 0x0704, need := 24, vf := false } c s a → b = settle c a → 1 ≤ p32 c 8 → p32 c 8 ≤ 1048576 →
    p64 c 0 % 4096 = 0 → p64 c 16 % 4096 = 0 → isDpa (p64 c 0) = true → isDpa (p64 c 16) = true → b.srv.models = [] →
    fastArea b none (p64 c 0) (4096 * p32 c 8) = true → fastArea b none (p64 c 16) 16777216 = true →
    ∃ t, exec (.pageMapConfig c) s = .next (complete t c St.ok []) ∧ t.srv.index = [] ∧
      t.srv.map = some { raw := padTo 24 (body c), blocks := p64 c 0, count := p32 c 8, index := p64 c 16, free := [], fresh := 0 }) ∧
  (∀ (c : Cmd) (s a b : State), Begun { op := 0x0704, need := 24, vf := false } c s a → b = settle c a → 1 ≤ p32 c 8 → p32 c 8 ≤ 1048576 →
    p64 c 0 % 4096 = 0 → p64 c 16 % 4096 = 0 → isDpa (p64 c 0) = true → isDpa (p64 c 16) = true → b.srv.models ≠ [] →
    exec (.pageMapConfig c) s = .next (complete b c St.poolBusy [])) ∧
  (∀ (c : Cmd) (s a b v : State) (d : List Byte), Begun { op := 0x070B, need := 20 } c s a → b = settle c a → (modelOf b (p8 c 0)).isSome = true →
    (readBytes b (cmdRq c) (p64 c 8) (4 * ((p32 c 16 - 1) / 16 * 16)) 0).1 = St.ok →
    d = (readBytes b (cmdRq c) (p64 c 8) (4 * ((p32 c 16 - 1) / 16 * 16)) 0).2.1 →
    (readBytes b (cmdRq c) (p64 c 8) (4 * ((p32 c 16 - 1) / 16 * 16)) 0).2.2.1 = false →
    v = (readBytes b (cmdRq c) (p64 c 8) (4 * ((p32 c 16 - 1) / 16 * 16)) 0).2.2.2 →
    Completes (.prefixLookup c) c s (lookup v (p8 c 0) (chunks 16 (tokenList d)) 0 noPage false).2
      (leBytes 4 (lookup v (p8 c 0) (chunks 16 (tokenList d)) 0 noPage false).1.length)) ∧
  (∀ (c : Cmd) (s a b : State), Begun { op := 0x070B, need := 20 } c s a → b = settle c a → modelOf b (p8 c 0) = none →
    exec (.prefixLookup c) s = .next (complete b c St.modelAbsent [])) ∧
  (∀ (c : Cmd) (s a b v u : State) (d : List Byte), Begun { op := 0x070C, need := 20 } c s a → b = settle c a → (modelOf b (p8 c 0)).isSome = true →
    p32 c 16 % 16 = 0 → (readBytes b (cmdRq c) (p64 c 8) (4 * p32 c 16) 0).1 = St.ok → d = (readBytes b (cmdRq c) (p64 c 8) (4 * p32 c 16) 0).2.1 →
    (readBytes b (cmdRq c) (p64 c 8) (4 * p32 c 16) 0).2.2.1 = false → v = (readBytes b (cmdRq c) (p64 c 8) (4 * p32 c 16) 0).2.2.2 →
    u = (lookup v (p8 c 0) (chunks 16 (tokenList d)) 0 noPage true).2 →
    (lookup v (p8 c 0) (chunks 16 (tokenList d)) 0 noPage true).1.length < p32 c 16 / 16 →
    exec (.prefixPin c) s = .next (complete u c St.pinMiss
      (leBytes 4 0 ++ leBytes 4 (lookup v (p8 c 0) (chunks 16 (tokenList d)) 0 noPage true).1.length))) ∧
  (∀ (c : Cmd) (s a b v u : State) (d : List Byte) (l : List Nat) (k : Nat), Begun { op := 0x070C, need := 20 } c s a → b = settle c a →
    (modelOf b (p8 c 0)).isSome = true → p32 c 16 % 16 = 0 → readBytes b (cmdRq c) (p64 c 8) (4 * p32 c 16) 0 = (St.ok, d, false, v) →
    lookup v (p8 c 0) (chunks 16 (tokenList d)) 0 noPage true = (l, u) → p32 c 16 / 16 ≤ l.length →
    findFrom (fun k => (mfind u.srv.pins k).isNone) 65536 0 = some k →
    ∃ t, exec (.prefixPin c) s = .next (complete t c St.ok (leBytes 4 (k + 65536 * mget 1 t.srv.pinGens k) ++ leBytes 4 l.length)) ∧
      mfind t.srv.pins k = some { model := p8 c 0, pages := l, tokens := tokenList d }) ∧
  (∀ (c : Cmd) (s a b v u : State) (d : List Byte) (l : List Nat), Begun { op := 0x070C, need := 20 } c s a → b = settle c a →
    (modelOf b (p8 c 0)).isSome = true → p32 c 16 % 16 = 0 → readBytes b (cmdRq c) (p64 c 8) (4 * p32 c 16) 0 = (St.ok, d, false, v) →
    lookup v (p8 c 0) (chunks 16 (tokenList d)) 0 noPage true = (l, u) → p32 c 16 / 16 ≤ l.length →
    findFrom (fun k => (mfind u.srv.pins k).isNone) 65536 0 = none → exec (.prefixPin c) s = .next (complete u c St.resourceExhausted [])) ∧
  (∀ (c : Cmd) (s a b : State) (x : Pin), Begun { op := 0x070D, need := 4 } c s a → b = settle c a → pinOf b (p32 c 0) = some x →
    Completes (.prefixUnpin c) c s { x.pages.foldl unrefPage b with
      srv.pins := mdel (x.pages.foldl unrefPage b).srv.pins (p32 c 0 % 65536),
      srv.pinGens := mput (x.pages.foldl unrefPage b).srv.pinGens (p32 c 0 % 65536)
        (nextGen 0xFFFF (mget 1 (x.pages.foldl unrefPage b).srv.pinGens (p32 c 0 % 65536))) } []) ∧
  (∀ (c : Cmd) (s a b : State), Begun { op := 0x070D, need := 4 } c s a → b = settle c a → pinOf b (p32 c 0) = none →
    exec (.prefixUnpin c) s = .next (complete b c St.pinInvalid [])) ∧
  (∀ (c : Cmd) (s a b : State), Begun { op := 0x070E, need := 1, vf := false } c s a → b = settle c a → (modelOf b (p8 c 0)).isSome = true →
    Completes (.prefixFlush c) c s (flushIndex b (p8 c 0)) []) ∧
  (∀ (c : Cmd) (s a b : State) (p : Pool), Begun { op := 0x070F, need := 16 } c s a → b = settle c a → mfind b.srv.pools (p8 c 0) = some p →
    hostOk b (p64 c 8) 64 = true →
    Completes (.pageStats c) c s (hostStore b (p64 c 8) (((poolStats b p).map (leBytes 4)).flatten)) [])

/-- Requests (R264 to R268, R271, R273, R275 to R277), ordered after the expiries that are due. REQ_SUBMIT without a loaded model, with a
prompt outside its context or a bad sampling block is refused with that status; an accepted one has an entry, a root block and an ID. A
stale ID is refused with REQ_STALE. REQ_QUERY reports an entry; REQ_CANCEL ends a request that is in no step and moves nothing, and else drains it or waits;
REQ_PAUSE pauses at once or after the step, and a park or fold goes on; REQ_RESUME resumes a paused request and restores a parked one;
REQ_RETIRE frees an ended entry and takes its next generation, with REQ_STATE for a living one. The ends of a park copy, a restore and a
summary fold change the request's state, and drop the move where the copy failed; a TTL that has run out ends its request, lowest entry
first. Logs 57, 58, 59 and 60. -/
def Obligations.RequestRows : Prop :=
  (∀ (c : Cmd) (s a b : State) (d : List Byte), Begun { op := 0x0705, need := 128, ext := true, refuse := fun c _ => p8 c 5 / 16 % 4 != c.fn - 1 } c s a →
    b = settle c a → d = padTo 128 (body c) → modelOf b (fieldN d 6 1) = none → exec (.reqSubmit c) s = .next (complete b c St.modelAbsent [])) ∧
  (∀ (c : Cmd) (s a b : State) (d : List Byte) (x : Model), Begun { op := 0x0705, need := 128, ext := true, refuse := fun c _ => p8 c 5 / 16 % 4 != c.fn - 1 } c s a →
    b = settle c a → d = padTo 128 (body c) → modelOf b (fieldN d 6 1) = some x → (fieldN d 76 4 = 0 ∨ x.maxCtx < fieldN d 76 4) →
    exec (.reqSubmit c) s = .next (complete b c St.contextLimit [])) ∧
  (∀ (c : Cmd) (s a b u v t : State) (d res : List Byte) (x : Model) (q : Sampling) (st : Nat),
    Begun { op := 0x0705, need := 128, ext := true, refuse := fun c _ => p8 c 5 / 16 % 4 != c.fn - 1 } c s a → b = settle c a → d = padTo 128 (body c) →
    modelOf b (fieldN d 6 1) = some x → 1 ≤ fieldN d 76 4 → fieldN d 76 4 ≤ x.maxCtx → (stamp b).toNat + fieldN d 24 8 < 2 ^ 64 →
    grammarCheck b (fieldN d 5 1 / 16 % 4) (fieldN d 48 2) (fieldN d 52 4) = (none, u) →
    samplingCheck u (fieldN d 5 1 / 16 % 4) (fieldN d 104 8) (fieldN d 56 8) = (some q, v) → placeReq v d = .done st res t →
    exec (.reqSubmit c) s = .next (complete t c st res)) ∧
  (∀ (c : Cmd) (s a b u v : State) (d : List Byte) (x : Model),
    Begun { op := 0x0705, need := 128, ext := true, refuse := fun c _ => p8 c 5 / 16 % 4 != c.fn - 1 } c s a → b = settle c a → d = padTo 128 (body c) →
    modelOf b (fieldN d 6 1) = some x → 1 ≤ fieldN d 76 4 → fieldN d 76 4 ≤ x.maxCtx → (stamp b).toNat + fieldN d 24 8 < 2 ^ 64 →
    grammarCheck b (fieldN d 5 1 / 16 % 4) (fieldN d 48 2) (fieldN d 52 4) = (none, u) →
    samplingCheck u (fieldN d 5 1 / 16 % 4) (fieldN d 104 8) (fieldN d 56 8) = (none, v) →
    exec (.reqSubmit c) s = .next (complete v c St.samplingInvalid [])) ∧
  (∀ (s v : State) (d : List Byte) (e root : Nat), findFrom (fun e => (reqOf s e).st == 0) 4096 0 = some e → fieldN d 100 4 = 0 → pinOf s 0 = none →
    fieldN d 80 8 < 281474976710656 → 1 ≤ fieldN d 76 4 → fieldN d 76 4 ≤ 16 → (takeBlock s).isSome = true →
    rangeStatus s (.serving (fieldN d 5 1 / 16 % 4)) false (fieldN d 80 8) 0 = St.ok →
    v = (readBytes s (.serving (fieldN d 5 1 / 16 % 4)) (fieldN d 80 8) 0 0).2.2.2 → (newBlock v true).map Prod.fst = some root →
    ∃ t, placeReq s d = .done St.ok (leBytes 4 (e + 4096 * genNow v e) ++ leBytes 4 0 ++ leBytes 4 0) t ∧
      reqOf t e = { parseReq d (e + 4096 * genNow v e) root (stamp v) with committed := 0, promptDone := 0 }) ∧
  (∀ (c : Cmd) (s a b : State) (k n : Nat) (i : Instr),
    (k, n, i) ∈ [(0x0706, 16, .reqQuery c), (0x0707, 4, .reqCancel c), (0x0708, 12, .reqPause c), (0x0709, 4, .reqResume c), (0x070A, 4, .reqRetire c)] →
    Begun { op := k, need := n, refuse := foreignReq } c s a → b = settle c a → stale b (p32 c 0) = true →
    exec i s = .next (complete b c St.reqStale [])) ∧
  (∀ (c : Cmd) (s a b : State) (e : Nat), Begun { op := 0x0706, need := 16, refuse := foreignReq } c s a → b = settle c a → stale b (p32 c 0) = false →
    e = p32 c 0 % 4096 → hostOk b (p64 c 8) 128 = true →
    Completes (.reqQuery c) c s (hostStore b (p64 c 8) (servingGranule b (128 * e) ++ servingGranule b (128 * e + 64))) []) ∧
  (∀ (c : Cmd) (s a b : State) (e : Nat), Begun { op := 0x0707, need := 4, refuse := foreignReq } c s a → b = settle c a → stale b (p32 c 0) = false →
    e = p32 c 0 % 4096 → 1 ≤ (reqOf b e).st → (reqOf b e).st ≤ 7 → (reqOf b e).moving = false → (reqOf b e).inStep = false →
    Completes (.reqCancel c) c s (endRequest b e 4 9) []) ∧
  (∀ (c : Cmd) (s a b : State) (e : Nat), Begun { op := 0x0707, need := 4, refuse := foreignReq } c s a → b = settle c a → stale b (p32 c 0) = false →
    e = p32 c 0 % 4096 → 2 ≤ (reqOf b e).st → (reqOf b e).st ≤ 4 → (reqOf b e).moving = false → (reqOf b e).inStep = true →
    Waits (.reqCancel c) 0x0707 c s (setReq b e { reqOf b e with st := 8 }) (.request e)) ∧
  (∀ (c : Cmd) (s a b : State) (e : Nat), Begun { op := 0x0707, need := 4, refuse := foreignReq } c s a → b = settle c a → stale b (p32 c 0) = false →
    e = p32 c 0 % 4096 → 1 ≤ (reqOf b e).st → (reqOf b e).st ≤ 7 → (reqOf b e).moving = true →
    Waits (.reqCancel c) 0x0707 c s (setReq b e { reqOf b e with cancelPend := true }) (.request e)) ∧
  (∀ (c : Cmd) (s a b : State) (e : Nat), Begun { op := 0x0707, need := 4, refuse := foreignReq } c s a → b = settle c a → stale b (p32 c 0) = false →
    e = p32 c 0 % 4096 → ((reqOf b e).st = 9 ∨ (reqOf b e).st = 10) → Completes (.reqCancel c) c s b []) ∧
  (∀ (c : Cmd) (s a b : State) (e : Nat), Begun { op := 0x0708, need := 12, refuse := foreignReq } c s a → b = settle c a → stale b (p32 c 0) = false →
    e = p32 c 0 % 4096 → p8 c 4 = 0 → 1 ≤ (reqOf b e).st → (reqOf b e).st ≤ 4 → (reqOf b e).inStep = false →
    ∃ t, exec (.reqPause c) s = .next (complete t c St.ok []) ∧
      reqOf t e = { reqOf b e with st := 5, pausePending := false, pauseMode := 0, pauseTtl := p32 c 8 } ∧ t.mem = b.mem) ∧
  (∀ (c : Cmd) (s a b : State) (e : Nat), Begun { op := 0x0708, need := 12, refuse := foreignReq } c s a → b = settle c a → stale b (p32 c 0) = false →
    e = p32 c 0 % 4096 → p8 c 4 ≤ 2 → 1 ≤ (reqOf b e).st → (reqOf b e).st ≤ 4 → (reqOf b e).inStep = true →
    Waits (.reqPause c) 0x0708 c s (setReq b e { reqOf b e with pauseMode := p8 c 4, pauseTtl := p32 c 8, pausePending := true }) (.request e)) ∧
  (∀ (c : Cmd) (s a b t : State) (e st : Nat), Begun { op := 0x0708, need := 12, refuse := foreignReq } c s a → b = settle c a → stale b (p32 c 0) = false →
    e = p32 c 0 % 4096 → p8 c 4 ≤ 2 → 1 ≤ (reqOf b e).st → (reqOf b e).st ≤ 4 → (reqOf b e).inStep = false →
    applyPause (setReq b e { reqOf b e with pauseMode := p8 c 4, pauseTtl := p32 c 8 }) e = (some st, t) →
    exec (.reqPause c) s = .next (complete t c st [])) ∧
  (∀ (c : Cmd) (s a b t : State) (e : Nat), Begun { op := 0x0708, need := 12, refuse := foreignReq } c s a → b = settle c a → stale b (p32 c 0) = false →
    e = p32 c 0 % 4096 → p8 c 4 ≤ 2 → 1 ≤ (reqOf b e).st → (reqOf b e).st ≤ 4 → (reqOf b e).inStep = false →
    applyPause (setReq b e { reqOf b e with pauseMode := p8 c 4, pauseTtl := p32 c 8 }) e = (none, t) → Waits (.reqPause c) 0x0708 c s t (.request e)) ∧
  (∀ (c : Cmd) (s a b : State) (e : Nat), Begun { op := 0x0709, need := 4, refuse := foreignReq } c s a → b = settle c a → stale b (p32 c 0) = false →
    e = p32 c 0 % 4096 → ((reqOf b e).st = 5 ∨ (reqOf b e).st = 7) →
    Completes (.reqResume c) c s (noteCheck (setReq b e { reqOf b e with resumeWanted := true }) (reqOf b e).part (stamp b)) (zeros 8)) ∧
  (∀ (c : Cmd) (s a b t : State) (e : Nat), Begun { op := 0x0709, need := 4, refuse := foreignReq } c s a → b = settle c a → stale b (p32 c 0) = false →
    e = p32 c 0 % 4096 → (reqOf b e).st = 6 → (reqOf b e).restoring = false → startRestore b e = .wait (.request e) t →
    Waits (.reqResume c) 0x0709 c s t (.request e)) ∧
  (∀ (c : Cmd) (s a b t : State) (e st : Nat), Begun { op := 0x0709, need := 4, refuse := foreignReq } c s a → b = settle c a → stale b (p32 c 0) = false →
    e = p32 c 0 % 4096 → (reqOf b e).st = 6 → (reqOf b e).restoring = false → startRestore b e = .done st [] t →
    exec (.reqResume c) s = .next (complete t c st [])) ∧
  (∀ (c : Cmd) (s a b : State) (e : Nat), Begun { op := 0x070A, need := 4, refuse := foreignReq } c s a → b = settle c a → stale b (p32 c 0) = false →
    e = p32 c 0 % 4096 → ((reqOf b e).st = 9 ∨ (reqOf b e).st = 10) →
    ∃ t, exec (.reqRetire c) s = .next (complete t c St.ok []) ∧ reqOf t e = {} ∧
      genNow t e = (if 1048575 ≤ genNow b e then 1 else genNow b e + 1) ∧ t.mem = b.mem) ∧
  (∀ (c : Cmd) (s a b : State) (e : Nat), Begun { op := 0x070A, need := 4, refuse := foreignReq } c s a → b = settle c a → stale b (p32 c 0) = false →
    e = p32 c 0 % 4096 → (reqOf b e).st ≤ 8 → exec (.reqRetire c) s = .next (complete b c St.reqState [])) ∧
  (∀ (s : State) (e : Nat), (reqOf s e).moving = false → exec (.parkCopyDone e) s = .next s) ∧
  (∀ (s u v : State) (e st : Nat) (r : Req), r = reqOf s e → r.st = 5 → r.moving = true → r.pauseMode = 1 →
    pagesHeld s (.serving r.part) (pageLen s r) (movePairs s e r.moveSrc) = false →
    copyPages (.serving r.part) (pageLen s r) (movePairs s e r.moveSrc) s St.ok = (st, u) → statusRuns st = true → v = r.moveSrc.foldl (parkOne e) u →
    exec (.parkCopyDone e) s = .next (applyCancel (finishReq (setReq v e
      { reqOf v e with st := 6, moving := false, moveSrc := [], ttlPend := true, ttlRun := false }) e 0x0708 st []) e)) ∧
  (∀ (s u : State) (e st : Nat) (r : Req), r = reqOf s e → r.st = 5 → r.moving = true → r.pauseMode = 1 →
    pagesHeld s (.serving r.part) (pageLen s r) (movePairs s e r.moveSrc) = false →
    copyPages (.serving r.part) (pageLen s r) (movePairs s e r.moveSrc) s St.ok = (st, u) → statusRuns st = false →
    exec (.parkCopyDone e) s = .next (applyCancel (finishReq (dropMoves u e) e 0x0708 st []) e)) ∧
  (∀ (s : State) (e : Nat), ttlDue (reqOf s e) = true → s.srv.reqs.all (fun x => decide (e ≤ x.1) || !ttlDue x.2) = true →
    exec (.ttlExpire e) s = .next (endRequest s e 5 9)) ∧
  (∀ (s : State) (e : Nat), ttlDue (reqOf s e) = false → exec (.ttlExpire e) s = .next s) ∧
  (∀ (s : State) (e : Nat), (reqOf s e).restoring = false → exec (.restoreDone e) s = .next s) ∧
  (∀ (s u v : State) (e st : Nat) (r : Req) (l : List (Nat × Nat)), r = reqOf s e → r.st = 6 → r.restoring = true →
    l = r.moveSrc.filter (fun m => !moveAttached m) → pagesHeld s (.serving r.part) (pageLen s r) (movePairs s e l) = false →
    copyPages (.serving r.part) (pageLen s r) (movePairs s e l) s St.ok = (st, u) → statusRuns st = true → v = r.moveSrc.foldl (restoreOne e) u →
    exec (.restoreDone e) s = .next (applyCancel (finishReq (noteCheck (setReq v e { reqOf v e with
      st := 5, restoring := false, moveSrc := [], resumeWanted := true, ttlRun := false, ttlPend := false }) r.part (stamp v)) e 0x0709 st
      (leBytes 4 (r.moveSrc.length - l.length) ++ leBytes 4 l.length)) e)) ∧
  (∀ (s u : State) (e st : Nat) (r : Req) (l : List (Nat × Nat)), r = reqOf s e → r.st = 6 → r.restoring = true →
    l = r.moveSrc.filter (fun m => !moveAttached m) → pagesHeld s (.serving r.part) (pageLen s r) (movePairs s e l) = false →
    copyPages (.serving r.part) (pageLen s r) (movePairs s e l) s St.ok = (st, u) → statusRuns st = false →
    exec (.restoreDone e) s = .next (applyCancel (finishReq (dropMoves u e) e 0x0709 st []) e)) ∧
  (∀ (s u v : State) (e n : Nat) (x : Model) (r : Req) (l : List Nat), r = reqOf s e → (compOf s r.part).folding = true →
    (queueOf s r.part 31).running = true → (folds s r.part).contains e = true → modelOf s r.model = some x → (queueOf s r.part 31).cores = n :: l →
    foldAll s (.core r.part n) e x r.moveSrc = some u → v = endFold u e →
    exec (.summaryFoldDone e) s = .next (if (folds v r.part).isEmpty then endSummary v r.part St.ok else v)) ∧
  (∀ (s : State) (e n : Nat) (x : Model) (r : Req) (l : List Nat), r = reqOf s e → (compOf s r.part).folding = true →
    (queueOf s r.part 31).running = true → (folds s r.part).contains e = true → modelOf s r.model = some x → (queueOf s r.part 31).cores = n :: l →
    foldAll s (.core r.part n) e x r.moveSrc = none → foldStatus s (.core r.part n) x.payload (movePairs s e r.moveSrc) = 0 →
    exec (.summaryFoldDone e) s = .next (faultSummary s r.part n cFoldEncode none)) ∧
  (∀ (s : State) (e : Nat), (compOf s (reqOf s e).part).folding = false → exec (.summaryFoldDone e) s = .next s)

/-- The composer's commands (R282, R283, R292, R299, R302 to R304, R308, R311), ordered after the expiries that are due: STEP_CONFIG stores
parameters in range, and where it turns DELEGATED on confirms the outstanding proposal; STEP_CONTROL enables a composer whose program and
logits area hold (STEP_PROGRAM where it is not configured), disables one once its step has ended, resumes and reports, with STEP_DISABLED
for a disabled one; STEP_CONFIRM runs the outstanding proposal, runs an allowed amendment of it or discards it, with STEP_AMEND and
STEP_STALE; STEP_WATCHDOG_SET needs the claim; REQ_LATENCY reports; FRAME_SLOT_CONFIG, FRAME_POST, EXPERT_CONFIG, EXPERT_BIAS_SET (which
waits for a running step) and EXPERT_QUERY, with SLOT_INVALID and EXPERT_SHAPE. Logs 61, 62, 63, 64, 65 and 68. -/
def Obligations.StepCommandRows : Prop :=
  (∀ (c : Cmd) (s a b : State) (k n : Composer), Begun { op := 0x0801, need := 48, part := some 0 } c s a → b = settle c a → k = compOf b (p8 c 0) →
    n = parseComp k (body c) → p8 c 0 ≤ 3 → 1 ≤ n.maxRows → n.maxRows ≤ 512 → 1 ≤ n.budget → n.budget ≤ 65536 →
    (n.mode.getLsbD 0 = false ∨ n.ride ≤ n.budget) → 1 ≤ n.chunk → n.chunk ≤ 65536 → n.model ≤ 15 → n.tally < 16384 → n.hostBuf % 4096 = 0 →
    n.batch % 65536 = 0 → isDpa n.program = true → isDpa n.batch = true → fastArea b (some (p8 c 0)) n.program 64 = true →
    fastArea b (some (p8 c 0)) n.batch 65536 = true →
    (k.enabled = false ∨ (k.model = n.model ∧ k.program = n.program ∧ k.hostBuf = n.hostBuf ∧ k.batch = n.batch)) →
    (k.prop = none ∨ n.mode.getLsbD 1 = false ∨ k.mode.getLsbD 1 = true) →
    Completes (.stepConfig c) c s (setComp b (p8 c 0) n) []) ∧
  (∀ (c : Cmd) (s a b : State) (k n : Composer) (x : Proposal), Begun { op := 0x0801, need := 48, part := some 0 } c s a → b = settle c a → k = compOf b (p8 c 0) →
    n = parseComp k (body c) → p8 c 0 ≤ 3 → 1 ≤ n.maxRows → n.maxRows ≤ 512 → 1 ≤ n.budget → n.budget ≤ 65536 →
    (n.mode.getLsbD 0 = false ∨ n.ride ≤ n.budget) → 1 ≤ n.chunk → n.chunk ≤ 65536 → n.model ≤ 15 → n.tally < 16384 → n.hostBuf % 4096 = 0 →
    n.batch % 65536 = 0 → isDpa n.program = true → isDpa n.batch = true → fastArea b (some (p8 c 0)) n.program 64 = true →
    fastArea b (some (p8 c 0)) n.batch 65536 = true →
    (k.enabled = false ∨ (k.model = n.model ∧ k.program = n.program ∧ k.hostBuf = n.hostBuf ∧ k.batch = n.batch)) →
    k.prop = some x → n.mode.getLsbD 1 = true → k.mode.getLsbD 1 = false →
    Completes (.stepConfig c) c s (confirmRows (setComp b (p8 c 0) n) (p8 c 0) 0 x x.rows) []) ∧
  (∀ (c : Cmd) (s a b : State), Begun { op := 0x0801, need := 48, part := some 0 } c s a → b = settle c a →
    (parseComp (compOf b (p8 c 0)) (body c)).maxRows = 0 → exec (.stepConfig c) s = .next (complete b c St.invalidField [])) ∧
  (∀ (c : Cmd) (s a b : State), Begun { op := 0x0803, need := 2, part := some 0 } c s a → b = settle c a → p8 c 0 ≤ 3 → p8 c 1 = 1 →
    (compOf b (p8 c 0)).configured = false → exec (.stepControl c) s = .next (complete b c St.stepProgram [])) ∧
  (∀ (c : Cmd) (s a b v : State) (l : LogitsArea) (d : List Byte), Begun { op := 0x0803, need := 2, part := some 0 } c s a → b = settle c a → p8 c 0 ≤ 3 → p8 c 1 = 1 →
    (compOf b (p8 c 0)).configured = true → programAt b (p8 c 0) (compOf b (p8 c 0)).program = (some d, v) →
    programDpas d = true → mfind v.flo.areas (p8 c 0) = some l →
    fastArea v (some (p8 c 0)) l.area (l.stride * l.vectors) = true → (compOf b (p8 c 0)).enabled = false → (compOf b (p8 c 0)).run = none →
    [28, 29, 30, 31].any (fun q => !queueIdle (queueOf v (p8 c 0) q)) = false →
    v.stp.comps.any (fun x => x.1 != p8 c 0 && x.2.enabled && x.2.model == (compOf b (p8 c 0)).model) = false →
    Completes (.stepControl c) c s (setComp v (p8 c 0) { compOf b (p8 c 0) with
      enabled := true, suspended := false, last := 0, prop := none, atBoundary := false }) []) ∧
  (∀ (c : Cmd) (s a b : State) (r : RunStep), Begun { op := 0x0803, need := 2, part := some 0 } c s a → b = settle c a → p8 c 0 ≤ 3 → p8 c 1 = 2 →
    (compOf b (p8 c 0)).enabled = true → (compOf b (p8 c 0)).run = some r →
    Waits (.stepControl c) 0x0803 c s (setComp b (p8 c 0) { compOf b (p8 c 0) with enabled := false, prop := none, check := none }) (.disable (p8 c 0))) ∧
  (∀ (c : Cmd) (s a b : State), Begun { op := 0x0803, need := 2, part := some 0 } c s a → b = settle c a → p8 c 0 ≤ 3 → p8 c 1 = 2 →
    (compOf b (p8 c 0)).enabled = true → (compOf b (p8 c 0)).run = none →
    Completes (.stepControl c) c s (setComp b (p8 c 0) { compOf b (p8 c 0) with enabled := false, prop := none, check := none }) []) ∧
  (∀ (c : Cmd) (s a b : State), Begun { op := 0x0803, need := 2, part := some 0 } c s a → b = settle c a → p8 c 0 ≤ 3 → p8 c 1 = 3 →
    (compOf b (p8 c 0)).enabled = true → Completes (.stepControl c) c s (setComp b (p8 c 0) { compOf b (p8 c 0) with suspended := false }) []) ∧
  (∀ (c : Cmd) (s a b : State), Begun { op := 0x0803, need := 2, part := some 0 } c s a → b = settle c a → p8 c 0 ≤ 3 → p8 c 1 = 4 →
    Completes (.stepControl c) c s b ([BitVec.ofNat 8 (compState (compOf b (p8 c 0))), 0, 0, 0] ++ leBytes 4 (compOf b (p8 c 0)).last)) ∧
  (∀ (c : Cmd) (s a b : State), Begun { op := 0x0803, need := 2, part := some 0 } c s a → b = settle c a → p8 c 0 ≤ 3 → (p8 c 1 = 2 ∨ p8 c 1 = 3) →
    (compOf b (p8 c 0)).enabled = false → exec (.stepControl c) s = .next (complete b c St.stepDisabled [])) ∧
  (∀ (c : Cmd) (s a b : State) (p : Nat) (x : Proposal),
    Begun { op := 0x0802, need := 5, long := fun c => p8 c 4 == 1, full := fun _ c => if p8 c 4 = 1 then 64 + 16 * p16 c 6 else 0 } c s a → b = settle c a →
    p8 c 4 = 0 → confirmPart b c = some p → (compOf b p).prop = some x → x.no = p32 c 0 → (compOf b p).mode.getLsbD 1 = false →
    Completes (.stepConfirm c) c s (confirmRows b p 0 x x.rows) []) ∧
  (∀ (c : Cmd) (s a b : State) (p : Nat) (x : Proposal) (l : List Row),
    Begun { op := 0x0802, need := 5, long := fun c => p8 c 4 == 1, full := fun _ c => if p8 c 4 = 1 then 64 + 16 * p16 c 6 else 0 } c s a → b = settle c a →
    p8 c 4 = 1 → confirmPart b c = some p → (compOf b p).prop = some x → x.no = p32 c 0 → (compOf b p).mode.getLsbD 1 = false → amended b p x c = some l →
    Completes (.stepConfirm c) c s (confirmRows b p 1 x l) []) ∧
  (∀ (c : Cmd) (s a b : State) (p : Nat) (x : Proposal),
    Begun { op := 0x0802, need := 5, long := fun c => p8 c 4 == 1, full := fun _ c => if p8 c 4 = 1 then 64 + 16 * p16 c 6 else 0 } c s a → b = settle c a →
    p8 c 4 = 1 → confirmPart b c = some p → (compOf b p).prop = some x → x.no = p32 c 0 → (compOf b p).mode.getLsbD 1 = false → amended b p x c = none →
    exec (.stepConfirm c) s = .next (complete b c St.stepAmend [])) ∧
  (∀ (c : Cmd) (s a b : State) (p : Nat) (x : Proposal),
    Begun { op := 0x0802, need := 5, long := fun c => p8 c 4 == 1, full := fun _ c => if p8 c 4 = 1 then 64 + 16 * p16 c 6 else 0 } c s a → b = settle c a →
    p8 c 4 = 2 → confirmPart b c = some p → (compOf b p).prop = some x → x.no = p32 c 0 → (compOf b p).mode.getLsbD 1 = false →
    Completes (.stepConfirm c) c s (blot (setComp b p { compOf b p with prop := none, atBoundary := true }) (compUnit p) 0x21 (some p) (x.no + 8589934592)) []) ∧
  (∀ (c : Cmd) (s a b : State) (p : Nat),
    Begun { op := 0x0802, need := 5, long := fun c => p8 c 4 == 1, full := fun _ c => if p8 c 4 = 1 then 64 + 16 * p16 c 6 else 0 } c s a → b = settle c a →
    p8 c 4 ≤ 2 → confirmPart b c = some p → ((compOf b p).prop = none ∨ ∃ x, (compOf b p).prop = some x ∧ x.no ≠ p32 c 0) →
    exec (.stepConfirm c) s = .next (complete b c St.stepStale [])) ∧
  (∀ (c : Cmd) (s a b : State),
    Begun { op := 0x0802, need := 5, long := fun c => p8 c 4 == 1, full := fun _ c => if p8 c 4 = 1 then 64 + 16 * p16 c 6 else 0 } c s a → b = settle c a →
    p8 c 4 ≤ 2 → confirmPart b c = none →
    exec (.stepConfirm c) s = .next (complete b c St.stepStale [])) ∧
  (∀ (c : Cmd) (s a b : State), Begun { op := 0x0804, need := 6, part := some 0 } c s a → b = settle c a → p8 c 0 ≤ 3 → holds b (mkRes 5 (p8 c 0)) 1 c.fn = true →
    Completes (.stepWatchdogSet c) c s (setComp b (p8 c 0) { compOf b (p8 c 0) with confLimit := p16 c 2, runLimit := p16 c 4 }) []) ∧
  (∀ (c : Cmd) (s a b : State), Begun { op := 0x0804, need := 6, part := some 0 } c s a → b = settle c a → p8 c 0 ≤ 3 → holds b (mkRes 5 (p8 c 0)) 1 c.fn = false →
    exec (.stepWatchdogSet c) s = .next (complete b c St.notClaimed [])) ∧
  (∀ (c : Cmd) (s a b : State) (l : LatRec), Begun { op := 0x0805, need := 4, refuse := foreignReq } c s a → b = settle c a → stale b (p32 c 0) = false →
    (reqOf b (p32 c 0 % 4096)).st ≠ 0 → l = mget {} b.srv.lat (p32 c 0 % 4096) →
    Completes (.reqLatency c) c s b ([BitVec.ofNat 8 (b2n l.ttftJudged + 2 * b2n l.ttftMissed), 0] ++ leBytes 2 l.cut ++ leBytes 4 l.judged ++
      leBytes 4 l.late ++ leBytes 4 l.worst)) ∧
  (∀ (c : Cmd) (s a b : State) (f : FrameSlot), Begun { op := 0x0806, need := 37, part := some 2 } c s a → b = settle c a → f = parseSlot (body c) →
    p16 c 0 ≤ 1023 → f.part ≤ 3 → 2 ≤ f.buffers → f.buffers ≤ 8 → f.stride ≠ 0 → f.stride % 4096 = 0 → isDpa f.base = true → f.tally < 16384 →
    (partOf b f.part).mask.getLsbD (tallyQuad f.tally) = true → 1 ≤ f.lineBudget → f.lineBudget ≤ 4096 → 1 ≤ f.largest → f.largest ≤ 4096 →
    fastArea b none f.base (f.stride * f.buffers) = true → slotUsed b (p16 c 0) = false →
    Completes (.frameSlotConfig c) c s (tallySet (setSlot b (p16 c 0) f) f.tally 0 true 0x9000 (cmdPart c)) []) ∧
  (∀ (c : Cmd) (s a b : State), Begun { op := 0x0806, need := 37, part := some 2 } c s a → b = settle c a → isDpa (parseSlot (body c)).base = true → (parseSlot (body c)).buffers < 2 →
    exec (.frameSlotConfig c) s = .next (complete b c St.slotInvalid [])) ∧
  (∀ (c : Cmd) (s a b : State) (f : FrameSlot), Begun { op := 0x0807, need := 2, refuse := foreignSlot } c s a → b = settle c a →
    mfind b.stp.slots (p16 c 0) = some f → underReset b (tallyQuad f.tally) = false →
    Completes (.framePost c) c s (tallySignalAt b c.stamp f.tally 1 false 0x9000 (cmdPart c)) []) ∧
  (∀ (c : Cmd) (s a b : State), Begun { op := 0x0807, need := 2, refuse := foreignSlot } c s a → b = settle c a → mfind b.stp.slots (p16 c 0) = none →
    exec (.framePost c) s = .next (complete b c St.slotInvalid [])) ∧
  (∀ (c : Cmd) (s a b : State) (x : Expert), Begun { op := 0x0808, need := 40 } c s a → b = settle c a → x = parseExpert (body c) → p8 c 0 ≤ 15 →
    1 ≤ x.experts → x.experts ≤ 256 → 1 ≤ x.cap → x.cap ≤ 4096 → x.k ≠ 0 → x.loop ≤ 2 → isDpa x.bias = true → isDpa x.counter = true → fastArea b none x.bias (4 * x.experts) = true →
    atomicArea b x.counter (8 * x.experts) = true → (b.stp.experts.length < 1024 ∨ (mfind b.stp.experts (expertKey (p8 c 0) (p8 c 1))).isSome = true) →
    Completes (.expertConfig c) c s { b with stp.experts := mput b.stp.experts (expertKey (p8 c 0) (p8 c 1)) x } []) ∧
  (∀ (c : Cmd) (s a b : State), Begun { op := 0x0808, need := 40 } c s a → b = settle c a → isDpa (parseExpert (body c)).bias = true → isDpa (parseExpert (body c)).counter = true →
    (parseExpert (body c)).experts = 0 →
    exec (.expertConfig c) s = .next (complete b c St.expertShape [])) ∧
  (∀ (c : Cmd) (s a b : State) (x : Expert), Begun { op := 0x0809, need := 64, ext := true, full := biasLen } c s a → b = settle c a →
    mfind b.stp.experts (expertKey (p8 c 0) (p8 c 1)) = some x → stepRuns b (p8 c 0) = false →
    Completes (.expertBiasSet c) c s (applyBias b c) []) ∧
  (∀ (c : Cmd) (s a b : State) (x : Expert), Begun { op := 0x0809, need := 64, ext := true, full := biasLen } c s a → b = settle c a →
    mfind b.stp.experts (expertKey (p8 c 0) (p8 c 1)) = some x → stepRuns b (p8 c 0) = true →
    Waits (.expertBiasSet c) 0x0809 c s { b with stp.biasWait := b.stp.biasWait ++ [c] } (.biasSet (expertKey (p8 c 0) (p8 c 1)))) ∧
  (∀ (c : Cmd) (s a b v : State) (x : Expert) (d : List Byte), Begun { op := 0x080A, need := 16 } c s a → b = settle c a →
    mfind b.stp.experts (expertKey (p8 c 0) (p8 c 1)) = some x → (readBytes b .device x.bias (4 * x.experts) 0).1 = St.ok →
    (readBytes b .device x.bias (4 * x.experts) 0).2.2.1 = false →
    (readBytes (readBytes b .device x.bias (4 * x.experts) 0).2.2.2 .device x.counter (8 * x.experts) 0).1 = St.ok →
    (readBytes (readBytes b .device x.bias (4 * x.experts) 0).2.2.2 .device x.counter (8 * x.experts) 0).2.2.1 = false →
    v = (readBytes (readBytes b .device x.bias (4 * x.experts) 0).2.2.2 .device x.counter (8 * x.experts) 0).2.2.2 →
    d = leBytes 4 x.steps ++ (readBytes b .device x.bias (4 * x.experts) 0).2.1 ++
      (readBytes (readBytes b .device x.bias (4 * x.experts) 0).2.2.2 .device x.counter (8 * x.experts) 0).2.1 → hostOk v (p64 c 8) d.length = true →
    Completes (.expertQuery c) c s (hostStore v (p64 c 8) d) []) ∧
  (∀ (c : Cmd) (s a b : State), Begun { op := 0x080A, need := 16 } c s a → b = settle c a → mfind b.stp.experts (expertKey (p8 c 0) (p8 c 1)) = none →
    exec (.expertQuery c) s = .next (complete b c St.expertShape []))

/-- The composer's own steps (R283, R284, R293, R295, R299). A check that has fallen due builds a proposal of the candidates at its stamp,
which takes the next number and that stamp, and one without candidates builds none; a composer that waits with an event does nothing. A
running step stops for a queue that failed, waits for its queues, then goes on with its program, the summary kernel or STEP_END. The watchdog
posts once for a step when more than a limit's lines have passed. Logs 8, 62 and 66. -/
def Obligations.StepEventRows : Prop :=
  (∀ (s : State) (p : Nat), checkDue s p = none → exec (.stepProposal p) s = .next s) ∧
  (∀ (s : State) (p : Nat), unitWaits s 8 p = true → exec (.stepProposal p) s = .next s) ∧
  (∀ (s : State) (p : Nat) (S : Stamp), checkDue s p = some S → unitWaits s 8 p = false → mayPropose (compOf s p) = false →
    exec (.stepProposal p) s = .next (setComp s p { compOf s p with check := none })) ∧
  (∀ (s u v w : State) (p : Nat) (S : Stamp) (x : Cand) (l cs : List Cand), checkDue s p = some S → unitWaits s 8 p = false →
    mayPropose (compOf s p) = true → u = expireAll (setComp s p { compOf s p with check := none }) → candidatesAt u p (compOf u p) S = (cs, v) →
    faultSlotless p cs.length cs v = (x :: l, w) → exec (.stepProposal p) s = .next (propose w p S (x :: l))) ∧
  (∀ (s u v w : State) (p : Nat) (S : Stamp) (cs : List Cand), checkDue s p = some S → unitWaits s 8 p = false →
    mayPropose (compOf s p) = true → u = expireAll (setComp s p { compOf s p with check := none }) → candidatesAt u p (compOf u p) S = (cs, v) →
    faultSlotless p cs.length cs v = ([], w) → exec (.stepProposal p) s = .next w) ∧
  (∀ (s : State) (p : Nat) (S : Stamp) (l : List Cand), (compOf s p).mode.getLsbD 1 = false →
    ∃ x, (compOf (propose s p S l) p).prop = some x ∧ x.no = (if 4294967295 ≤ (compOf s p).last then 1 else (compOf s p).last + 1) ∧ x.stamp = S ∧
      (compOf (propose s p S l) p).last = x.no ∧ (compOf (propose s p S l) p).run = (compOf s p).run) ∧
  (∀ (s : State) (p : Nat), unitWaits s 8 p = true → exec (.stepRunAdvance p) s = .next s) ∧
  (∀ (s : State) (p : Nat), (compOf s p).run = none → exec (.stepRunAdvance p) s = .next s) ∧
  (∀ (s : State) (p q st : Nat) (r : RunStep), (compOf s p).run = some r → unitWaits s 8 p = false → badQueue s p = some (q, st) →
    exec (.stepRunAdvance p) s = .next (discardStep s p q st)) ∧
  (∀ (s : State) (p q : Nat) (r : RunStep), (compOf s p).run = some r → unitWaits s 8 p = false → badQueue s p = none → q ∈ [28, 29, 30, 31] → queueIdle (queueOf s p q) = false →
    exec (.stepRunAdvance p) s = .next s) ∧
  (∀ (s : State) (p : Nat) (r : RunStep), (compOf s p).run = some r → unitWaits s 8 p = false → badQueue s p = none →
    [28, 29, 30, 31].all (fun q => queueIdle (queueOf s p q)) = true → r.phase = 0 → exec (.stepRunAdvance p) s = .next (submitProgram s p)) ∧
  (∀ (s : State) (p : Nat) (r : RunStep), (compOf s p).run = some r → unitWaits s 8 p = false → badQueue s p = none →
    [28, 29, 30, 31].all (fun q => queueIdle (queueOf s p q)) = true → r.phase = 1 → folds s p ≠ [] →
    exec (.stepRunAdvance p) s = .next (queueSummary (setPhase s p 2) p)) ∧
  (∀ (s : State) (p : Nat) (r : RunStep), (compOf s p).run = some r → unitWaits s 8 p = false → badQueue s p = none →
    [28, 29, 30, 31].all (fun q => queueIdle (queueOf s p q)) = true → (r.phase = 1 ∨ r.phase = 2) → folds s p = [] →
    exec (.stepRunAdvance p) s = .next (submitMark (setPhase s p 3) p 0x0B 0x7FC0 r.no)) ∧
  (∀ (s : State) (p : Nat) (x : Proposal), (compOf s p).prop = some x → (compOf s p).confLimit ≠ 0 →
    (compOf s p).confLimit * 65536 < (stamp s).toNat - x.since.toNat → x.posted = false →
    exec (.stepWatchdog p) s = .next (watchdogEvent (setComp s p { compOf s p with prop := some { x with posted := true } }) p x.no 0
      (((stamp s).toNat - x.since.toNat) / 65536))) ∧
  (∀ (s : State) (p : Nat) (x : RunStep), (compOf s p).prop = none → (compOf s p).run = some x → (compOf s p).runLimit ≠ 0 →
    (compOf s p).runLimit * 65536 < (stamp s).toNat - x.since.toNat → x.posted = false →
    exec (.stepWatchdog p) s = .next (watchdogEvent (setComp s p { compOf s p with run := some { x with posted := true } }) p x.no 1
      (((stamp s).toNat - x.since.toNat) / 65536))) ∧
  (∀ (s : State) (p : Nat) (x : Proposal), (compOf s p).prop = some x → x.posted = true → exec (.stepWatchdog p) s = .next s) ∧
  (∀ (s : State) (p : Nat) (x : RunStep), (compOf s p).prop = none → (compOf s p).run = some x → x.posted = true → exec (.stepWatchdog p) s = .next s) ∧
  (∀ (s : State) (p : Nat), (compOf s p).prop = none → (compOf s p).run = none → exec (.stepWatchdog p) s = .next s)

/-- Flourish's commands (R315, R318, R319, R329, R342): FLOURISH_CONFIG takes a logits area that keeps its rule, with FLOURISH_LAYOUT for no
vocabulary; GRAMMAR_LOAD takes a table that keeps R329 into a free slot, with GRAMMAR_FORMAT for another, and GRAMMAR_UNLOAD gives one back
that no request uses, with GRAMMAR_BUSY; FLOURISH_PROBE chooses from one vector and reports the token and the grammar state after it, or
GRAMMAR_EXHAUSTED or LOGITS_INVALID; FLOURISH_COUNTERS reports. Logs 13 and 69. -/
def Obligations.FlourishRows : Prop :=
  (∀ (c : Cmd) (s a : State) (l : LogitsArea), Begun { op := 0x0901, need := 24, part := some 0 } c s a →
    l = { format := p8 c 1, vocab := p32 c 4, area := p64 c 8, stride := p32 c 16, vectors := p32 c 20 } → p8 c 0 ≤ 3 → l.format ≤ 1 → 1 ≤ l.vocab →
    l.vocab ≤ 262144 → l.area % 4096 = 0 → isDpa l.area = true → l.stride % 64 = 0 → l.vocab * elemSize l.format ≤ l.stride → 1 ≤ l.vectors →
    l.vectors ≤ 65536 → fastArea a (some (p8 c 0)) l.area (l.stride * l.vectors) = true → composing a (p8 c 0) = false →
    Completes (.flourishConfig c) c s { a with flo.areas := mput a.flo.areas (p8 c 0) l } []) ∧
  (∀ c s a, Begun { op := 0x0901, need := 24, part := some 0 } c s a → isDpa (p64 c 8) = true → p32 c 4 = 0 →
    exec (.flourishConfig c) s = .next (complete a c St.flourishLayout [])) ∧
  (∀ (c : Cmd) (s a v w : State) (h t : List Byte), Begun { op := 0x0902, need := 16, part := some 0 } c s a → p8 c 0 ≤ 3 → p8 c 1 ≤ 63 →
    isDpa (p64 c 8) = true → fastArea a (some (p8 c 0)) (p64 c 8) 64 = true → readBytes a (.flourish (p8 c 0)) (p64 c 8) 64 0 = (St.ok, h, false, v) →
    64 ≤ fieldN h 24 4 → fieldN h 24 4 = gLen h → fastArea v (some (p8 c 0)) (p64 c 8) (gLen h) = true →
    readBytes v (.flourish (p8 c 0)) (p64 c 8) (gLen h) 0 = (St.ok, t, false, w) → grammarOk t = true →
    mfind w.flo.grammars (p8 c 0 * 64 + p8 c 1) = none →
    Completes (.grammarLoad c) c s { w with flo.grammars := mput w.flo.grammars (p8 c 0 * 64 + p8 c 1) (p64 c 8) } []) ∧
  (∀ (c : Cmd) (s a v w : State) (h t : List Byte), Begun { op := 0x0902, need := 16, part := some 0 } c s a → p8 c 0 ≤ 3 → p8 c 1 ≤ 63 →
    isDpa (p64 c 8) = true → fastArea a (some (p8 c 0)) (p64 c 8) 64 = true → readBytes a (.flourish (p8 c 0)) (p64 c 8) 64 0 = (St.ok, h, false, v) →
    64 ≤ fieldN h 24 4 → fieldN h 24 4 = gLen h → fastArea v (some (p8 c 0)) (p64 c 8) (gLen h) = true →
    readBytes v (.flourish (p8 c 0)) (p64 c 8) (gLen h) 0 = (St.ok, t, false, w) → grammarOk t = false →
    exec (.grammarLoad c) s = .next (complete w c St.grammarFormat [])) ∧
  (∀ c s a, Begun { op := 0x0902, need := 16, part := some 0 } c s a → p8 c 0 ≤ 3 → 64 ≤ p8 c 1 →
    exec (.grammarLoad c) s = .next (complete a c St.invalidField [])) ∧
  (∀ (c : Cmd) (s a : State) (d : Nat), Begun { op := 0x0903, need := 2, part := some 0 } c s a → p8 c 0 ≤ 3 → p8 c 1 ≤ 63 →
    mfind a.flo.grammars (p8 c 0 * 64 + p8 c 1) = some d →
    a.srv.reqs.any (fun r => r.2.st != 0 && r.2.part == p8 c 0 && r.2.gtable == p8 c 1) = false →
    Completes (.grammarUnload c) c s { a with flo.grammars := mdel a.flo.grammars (p8 c 0 * 64 + p8 c 1) } []) ∧
  (∀ (c : Cmd) (s a : State) (d : Nat), Begun { op := 0x0903, need := 2, part := some 0 } c s a → p8 c 0 ≤ 3 → p8 c 1 ≤ 63 →
    mfind a.flo.grammars (p8 c 0 * 64 + p8 c 1) = some d →
    a.srv.reqs.any (fun r => r.2.st != 0 && r.2.part == p8 c 0 && r.2.gtable == p8 c 1) = true →
    exec (.grammarUnload c) s = .next (complete a c St.grammarBusy [])) ∧
  (∀ (c : Cmd) (s a v u w : State) (r : Req) (l : LogitsArea) (q : Sampling) (x : WalkCtx) (d : List Nat) (t : Nat), Begun { op := 0x0904, need := 20, refuse := foreignReq } c s a →
    stale a (p32 c 0) = false → r = reqOf a (p32 c 0 % 4096) → r.st ≠ 0 → isDpa (p64 c 8) = true → mfind a.flo.areas r.part = some l →
    samplingCheck a r.part r.sampling r.counts = (some q, v) → reqOf v (p32 c 0 % 4096) = r → vectorAt v r.part (p64 c 8) l = (St.ok, d, false, u) →
    walkCtx u (p32 c 0 % 4096) q (p32 c 16) = (x, w) →
    choose d (fun t => x.counts.getD t 0) x.counted (x.grammar.map (fun t => (t, r.gstate))) q r.seed (p32 c 16) = .token t →
    exec (.flourishProbe c) s = .next (complete w c St.ok (leBytes 4 t ++ leBytes 4 (grammarAfter x r.gstate (.token t))))) ∧
  (∀ (c : Cmd) (s a v u w : State) (r : Req) (l : LogitsArea) (q : Sampling) (x : WalkCtx) (d : List Nat) (t : Nat), Begun { op := 0x0904, need := 20, refuse := foreignReq } c s a →
    stale a (p32 c 0) = false → r = reqOf a (p32 c 0 % 4096) → r.st ≠ 0 → isDpa (p64 c 8) = true → mfind a.flo.areas r.part = some l →
    samplingCheck a r.part r.sampling r.counts = (some q, v) → reqOf v (p32 c 0 % 4096) = r → vectorAt v r.part (p64 c 8) l = (St.ok, d, false, u) →
    walkCtx u (p32 c 0 % 4096) q (p32 c 16) = (x, w) →
    choose d (fun t => x.counts.getD t 0) x.counted (x.grammar.map (fun t => (t, r.gstate))) q r.seed (p32 c 16) = .exhausted t →
    exec (.flourishProbe c) s = .next (complete (floCount w r.part 6 1) c St.grammarExhausted (leBytes 4 t ++ leBytes 4 r.gstate))) ∧
  (∀ (c : Cmd) (s a v u w : State) (r : Req) (l : LogitsArea) (q : Sampling) (x : WalkCtx) (d : List Nat), Begun { op := 0x0904, need := 20, refuse := foreignReq } c s a →
    stale a (p32 c 0) = false → r = reqOf a (p32 c 0 % 4096) → r.st ≠ 0 → isDpa (p64 c 8) = true → mfind a.flo.areas r.part = some l →
    samplingCheck a r.part r.sampling r.counts = (some q, v) → reqOf v (p32 c 0 % 4096) = r → vectorAt v r.part (p64 c 8) l = (St.ok, d, false, u) →
    walkCtx u (p32 c 0 % 4096) q (p32 c 16) = (x, w) →
    choose d (fun t => x.counts.getD t 0) x.counted (x.grammar.map (fun t => (t, r.gstate))) q r.seed (p32 c 16) = .invalid →
    exec (.flourishProbe c) s = .next (complete w c St.logitsInvalid [])) ∧
  (∀ c s a, Begun { op := 0x0904, need := 20, refuse := foreignReq } c s a → stale a (p32 c 0) = true →
    exec (.flourishProbe c) s = .next (complete a c St.reqStale [])) ∧
  (∀ c s a, Begun { op := 0x0905, need := 16, part := some 0 } c s a → p8 c 0 ≤ 3 → hostOk a (p64 c 8) 64 = true →
    Completes (.flourishCounters c) c s (hostStore a (p64 c 8) (((List.range 8).map (fun i => leBytes 8 (mget 0 a.flo.ctr (p8 c 0 * 8 + i)))).flatten)) [])

/-- The events of a link (R348 to R355, R361, R362, R366, R367, R395): its training steps, each at its time and with its failures; a LINK_INIT
that R353 admits gives the peer's identity and credits, one it does not is malformed; flits by their checks and sequence; replays, the 16th
of which retrains in place; a stalled credit; SPDM's turns, requests, answers and failures; and the timers of authentication, which act when
their time has passed and not before. Logs 8, 11, 70, 71 and 74. -/
def Obligations.LinkEventRows : Prop :=
  (∀ (s : State) (l : Nat), l < 16 → (linkOf s l).st = lkTraining → (linkOf s l).training = 1 →
    exec (.fecAlignmentLock l) s = .next (sendInit (setLink s l { linkOf s l with training := 3 }) l)) ∧
  (∀ (s : State) (l : Nat), (linkOf s l).st ≠ lkTraining → exec (.fecAlignmentLock l) s = .next s) ∧
  (∀ (s : State) (l : Nat) (f : FlitIn), l < 16 → (linkOf s l).st = lkTraining → (linkOf s l).training = 3 → (linkOf s l).retraining = false →
    (linkOf s l).rxAny = false → initValid f = true → initRefused f.bytes = false →
    ∃ t, exec (.linkInit l f) s = .next t ∧ (linkOf t l).peerId = fieldN f.bytes 20 8 ∧ (linkOf t l).seenPeer = true ∧ (linkOf t l).sentSeen = true ∧
      (linkOf t l).credits = [fieldN f.bytes 28 2, fieldN f.bytes 30 2, fieldN f.bytes 32 2] ∧
      (linkOf t l).training = (if (linkOf s l).gotSeen = true ∨ bit (fieldN f.bytes 18 1) 0 = true then 4 else 3) ∧
      t = { s with duc := t.duc, obs := t.obs, free := t.free }) ∧
  (∀ (s : State) (l : Nat) (f : FlitIn), l < 16 → (linkOf s l).st = lkTraining → (linkOf s l).training = 3 → (linkOf s l).retraining = false →
    (linkOf s l).rxAny = false → initValid f = true → initRefused f.bytes = true →
    exec (.linkInit l f) s = .next (attemptFails (countFlit s l f) l)) ∧
  (∀ (s : State) (l : Nat) (f : FlitIn), l < 16 → receives (linkOf s l) = true → (linkOf s l).st ≠ lkFenced → fieldN f.bytes 0 1 = 2 → f.fecOk = true →
    f.bytes.length = 256 → crcOk f.bytes = true → initBad f.bytes = true →
    exec (.linkInit l f) s = .next (malformedFlit (countFlit s l f) l)) ∧
  (∀ (s v : State) (l corrected uncorrectable received : Nat), l < 16 → (linkOf s l).st = lkTraining → (linkOf s l).training = 4 →
    (linkOf s l).berAt + secondUnits ≤ s.time → (corrected + 150 * uncorrectable) * 100000 < received →
    v = setLink s l { linkOf s l with ber := berFloat (corrected + 150 * uncorrectable) received } →
    exec (.berMeasureEnd l corrected uncorrectable received) s = .next (sendProbes (setLink v l { linkOf v l with training := 5 }) l)) ∧
  (∀ (s v : State) (l corrected uncorrectable received : Nat), l < 16 → (linkOf s l).st = lkTraining → (linkOf s l).training = 4 →
    (linkOf s l).berAt + secondUnits ≤ s.time → received ≤ (corrected + 150 * uncorrectable) * 100000 →
    v = setLink s l { linkOf s l with ber := berFloat (corrected + 150 * uncorrectable) received } →
    exec (.berMeasureEnd l corrected uncorrectable received) s = .next (disable v l 0x21)) ∧
  (∀ (s : State) (l corrected uncorrectable received : Nat), s.time < (linkOf s l).berAt + secondUnits →
    exec (.berMeasureEnd l corrected uncorrectable received) s = .next s) ∧
  (∀ (s : State) (l : Nat), l < 16 → (linkOf s l).st = lkTraining → (linkOf s l).attempts < 2 →
    (linkOf s l).attemptAt + 3 * secondUnits ≤ s.time →
    exec (.trainAttemptTimeout l) s = .next (setLink s l (freshLink (linkOf s l) ((linkOf s l).attempts + 1) s.time))) ∧
  (∀ (s : State) (l : Nat), l < 16 → (linkOf s l).st = lkTraining → 2 ≤ (linkOf s l).attempts →
    (linkOf s l).attemptAt + 3 * secondUnits ≤ s.time → exec (.trainAttemptTimeout l) s = .next (disable s l 0x20)) ∧
  (∀ (s : State) (l : Nat), s.time < (linkOf s l).attemptAt + 3 * secondUnits → exec (.trainAttemptTimeout l) s = .next s) ∧
  (∀ (s v : State) (l t1 t4 : Nat) (m : Msg), l < 16 → firstOf s l 2 = some m → m.op = 0x27 → fieldN m.fields 0 8 = t1 →
    fieldN (m.second.getD []) 0 8 = 0 → fieldN (m.second.getD []) 8 8 = 0 → v = freeMsg s l m →
    exec (.probe l t1 0 0 t4) s =
      .next (settleLink (sendOn v l (ownMsg v 0x27 0 0 0 (leBytes 8 t1) (some (leBytes 8 t4 ++ leBytes 8 (fabricCycles v.time))) [] 0)) l)) ∧
  (∀ (s v : State) (l t1 t2 t3 t4 : Nat) (m : Msg), l < 16 → firstOf s l 2 = some m → m.op = 0x27 → fieldN m.fields 0 8 = t1 →
    fieldN (m.second.getD []) 0 8 = t2 → fieldN (m.second.getD []) 8 8 = t3 → t2 ≠ 0 → v = freeMsg s l m →
    exec (.probe l t1 t2 t3 t4) s = .next (settleLink (probeReturns v l (probeSpan t1 t2 t3 t4)) l)) ∧
  (∀ (s : State) (l : Nat), l < 16 → (linkOf s l).st = lkLive → (linkOf s l).retraining = false →
    exec (.fecLockLoss l) s = .next (linkCount (setLink s l { linkOf s l with retraining := true, stuck := 0, retrainAt := s.time }) l 7 1)) ∧
  (∀ (s : State) (l : Nat), l < 16 → (linkOf s l).retraining = true → s.time ≤ (linkOf s l).retrainAt + nsUnits 50000000 →
    exec (.linkRetrainEnd l true) s = .next (settleLink (setLink s l { linkOf s l with retraining := false, stuck := 0 }) l)) ∧
  (∀ (s : State) (l : Nat) (b : Bool), l < 16 → (linkOf s l).retraining = true → (b = false ∨ (linkOf s l).retrainAt + nsUnits 50000000 < s.time) →
    exec (.linkRetrainEnd l b) s = .next (disable s l 0x23)) ∧
  (∀ (s : State) (l : Nat) (f : FlitIn), l < 16 → f.bytes.length = 256 → receives (linkOf s l) = true → (linkOf s l).st = lkFenced →
    exec (.dataFlit l f) s = .next (countFlit s l f)) ∧
  (∀ (s : State) (l : Nat) (f : FlitIn), l < 16 → f.bytes.length = 256 → receives (linkOf s l) = true → (linkOf s l).st ≠ lkFenced →
    ((linkOf s l).st ≠ lkTraining ∨ (linkOf s l).training ≠ 3) → f.fecOk = false → exec (.dataFlit l f) s = .next (settleLink (discardFlit (countFlit s l f) l) l)) ∧
  (∀ (s : State) (l : Nat) (f : FlitIn), l < 16 → f.bytes.length = 256 → receives (linkOf s l) = true → (linkOf s l).st ≠ lkFenced →
    ((linkOf s l).st ≠ lkTraining ∨ (linkOf s l).training ≠ 3) → f.fecOk = true → integrityOk (linkOf s l) f = false →
    exec (.dataFlit l f) s = .next (settleLink (integrityFails (countFlit s l f) l) l)) ∧
  (∀ (s : State) (l : Nat) (f : FlitIn), l < 16 → f.bytes.length = 256 → receives (linkOf s l) = true → (linkOf s l).st ≠ lkFenced →
    ((linkOf s l).st ≠ lkTraining ∨ (linkOf s l).training ≠ 3) → f.fecOk = true → integrityOk (linkOf s l) f = true → fieldN f.bytes 0 1 = 1 →
    fieldN f.bytes 2 3 = (linkOf s l).rxNext → exec (.dataFlit l f) s = .next (settleLink (acceptData (countFlit s l f) l f.bytes) l)) ∧
  (∀ (s : State) (l : Nat) (f : FlitIn), l < 16 → f.bytes.length = 256 → receives (linkOf s l) = true → (linkOf s l).st ≠ lkFenced →
    ((linkOf s l).st ≠ lkTraining ∨ (linkOf s l).training ≠ 3) → f.fecOk = true → integrityOk (linkOf s l) f = true → fieldN f.bytes 0 1 = 1 →
    fieldN f.bytes 2 3 ≠ (linkOf s l).rxNext → exec (.dataFlit l f) s = .next (settleLink (discardFlit (countFlit s l f) l) l)) ∧
  (∀ (s : State) (l : Nat), (linkOf s l).replay = [] → exec (.replayTimeout l) s = .next s) ∧
  (∀ (s : State) (l : Nat), l < 16 → (linkOf s l).replay ≠ [] → canSend (linkOf s l) = true → (linkOf s l).stuck < 15 →
    (linkOf s l).ackAt + nsUnits 4000 ≤ s.time →
    ∃ t, exec (.replayTimeout l) s = .next t ∧ (linkOf t l).replay = (linkOf s l).replay ∧ (linkOf t l).stuck = (linkOf s l).stuck + 1 ∧
      (linkOf t l).retraining = false ∧ t = { s with duc := t.duc, obs := t.obs }) ∧
  (∀ (s : State) (l : Nat), l < 16 → (linkOf s l).replay ≠ [] → canSend (linkOf s l) = true → 15 ≤ (linkOf s l).stuck → (linkOf s l).st = lkLive →
    (linkOf s l).ackAt + nsUnits 4000 ≤ s.time →
    ∃ t, exec (.replayTimeout l) s = .next t ∧ (linkOf t l).replay = (linkOf s l).replay ∧ (linkOf t l).stuck = 0 ∧ (linkOf t l).retraining = true ∧
      t = { s with duc := t.duc, obs := t.obs }) ∧
  (∀ (s : State) (l : Nat), s.time < (linkOf s l).ackAt + nsUnits 4000 → exec (.replayTimeout l) s = .next s) ∧
  (∀ (s : State) (l ch : Nat), s.time < (linkOf s l).creditAt.getD ch 0 + nsUnits 10000000 → exec (.creditStall l ch) s = .next s) ∧
  (∀ (s : State) (l ch : Nat), l < 16 → (linkOf s l).tx.any (fun m => opChannel m.op == ch) = true →
    (linkOf s l).creditAt.getD ch 0 + nsUnits 10000000 ≤ s.time →
    exec (.creditStall l ch) s = .next (fence s l 3)) ∧
  (∀ (s : State) (l ch : Nat), (linkOf s l).tx.any (fun m => opChannel m.op == ch) = false → exec (.creditStall l ch) s = .next s) ∧
  (∀ (s v : State) (l : Nat) (x : Link), l < 16 → (linkOf s l).st = lkAuth → v = (match firstOf s l 2 with | some m => if m.op = 0x26 then freeMsg s l m else s | none => s) → x = linkOf v l →
    exec (.spdm l .fragment) s = .next (settleLink v l) ∧ exec (.spdm l .fail) s = .next (settleLink (fence v l 6) l)) ∧
  (∀ (s v : State) (l n : Nat) (x : Link) (q : SpdmReq), l < 16 → (linkOf s l).st = lkAuth → v = (match firstOf s l 2 with | some m => if m.op = 0x26 then freeMsg s l m else s | none => s) → x = linkOf v l →
    x.spdm = 2 → spdmGrant v x q = some n → exec (.spdm l (.request q)) s = .next (settleLink (sendSpdm (setLink v l { x with spdmPeer := n }) l) l)) ∧
  (∀ (s v : State) (l : Nat) (x : Link) (q : SpdmReq), l < 16 → (linkOf s l).st = lkAuth → v = (match firstOf s l 2 with | some m => if m.op = 0x26 then freeMsg s l m else s | none => s) → x = linkOf v l →
    (x.spdm ≠ 2 ∨ spdmGrant v x q = none) → exec (.spdm l (.request q)) s = .next (settleLink (fence v l 6) l)) ∧
  (∀ (s v : State) (l : Nat) (x : Link), l < 16 → (linkOf s l).st = lkAuth → v = (match firstOf s l 2 with | some m => if m.op = 0x26 then freeMsg s l m else s | none => s) → x = linkOf v l →
    x.spdm = 1 → x.spdmAt + 1 < spdmRequests v x →
    exec (.spdm l (.response true)) s = .next (settleLink (sendSpdm (setLink v l { x with spdmAt := x.spdmAt + 1 }) l) l)) ∧
  (∀ (s v : State) (l : Nat) (x : Link), l < 16 → (linkOf s l).st = lkAuth → v = (match firstOf s l 2 with | some m => if m.op = 0x26 then freeMsg s l m else s | none => s) → x = linkOf v l →
    x.spdm = 1 → spdmRequests v x ≤ x.spdmAt + 1 →
    exec (.spdm l (.response true)) s = .next (settleLink (spdmTurn (setLink v l { x with spdmAt := x.spdmAt + 1 }) l) l)) ∧
  (∀ (s v : State) (l : Nat) (x : Link), l < 16 → (linkOf s l).st = lkAuth → v = (match firstOf s l 2 with | some m => if m.op = 0x26 then freeMsg s l m else s | none => s) → x = linkOf v l → x.spdm = 1 →
    exec (.spdm l (.response false)) s = .next (settleLink (fence v l 6) l) ∧ exec (.spdm l .portion) s = .next (settleLink (sendSpdm v l) l)) ∧
  (∀ (s v : State) (l : Nat) (x : Link), l < 16 → (linkOf s l).st = lkAuth → v = (match firstOf s l 2 with | some m => if m.op = 0x26 then freeMsg s l m else s | none => s) → x = linkOf v l → x.spdm = 2 →
    exec (.spdm l .complete) s = .next (settleLink (spdmTurn v l) l)) ∧
  (∀ (s v : State) (l : Nat) (x : Link), l < 16 → authenticated (linkOf s l) = true → v = (match firstOf s l 2 with | some m => if m.op = 0x26 then freeMsg s l m else s | none => s) → x = linkOf v l →
    exec (.spdm l .fail) s = .next (settleLink (fence v l 7) l) ∧
      exec (.spdm l .heartbeatReply) s = .next (settleLink (setLink v l { x with beats := 0 }) l) ∧
      exec (.spdm l (.tagFailures 17)) s = .next (settleLink (fence v l 7) l) ∧ exec (.spdm l .keyUpdated) s = .next (settleLink (newKeys v l) l)) ∧
  (∀ (s v : State) (l : Nat) (x : Link) (q : SpdmReq), l < 16 → authenticated (linkOf s l) = true → v = (match firstOf s l 2 with | some m => if m.op = 0x26 then freeMsg s l m else s | none => s) → x = linkOf v l →
    exec (.spdm l (.request q)) s = .next (settleLink (sendSpdm (if q = .keyUpdate ∧ x.enc = true then newKeys v l else v) l) l)) ∧
  (∀ (s v : State) (l : Nat) (x : Link), l < 16 → authenticated (linkOf s l) = true → v = (match firstOf s l 2 with | some m => if m.op = 0x26 then freeMsg s l m else s | none => s) → x = linkOf v l → x.asked = true →
    exec (.spdm l (.challengeReply true)) s = .next (settleLink (setLink v l { x with asked := false }) l) ∧
      exec (.spdm l (.challengeReply false)) s = .next (settleLink (fence v l 7) l)) ∧
  (∀ (s : State) (l : Nat), l < 16 → (linkOf s l).enc = true → authenticated (linkOf s l) = true → (linkOf s l).beatAt + secondUnits ≤ s.time →
    (linkOf s l).beats < 3 →
    exec (.heartbeat l) s = .next (sendSpdm (setLink s l { linkOf s l with beats := (linkOf s l).beats + 1, beatAt := s.time }) l)) ∧
  (∀ (s : State) (l : Nat), l < 16 → (linkOf s l).enc = true → authenticated (linkOf s l) = true → (linkOf s l).beatAt + secondUnits ≤ s.time →
    3 ≤ (linkOf s l).beats → exec (.heartbeat l) s = .next (fence s l 7)) ∧
  (∀ (s : State) (l : Nat), s.time < (linkOf s l).beatAt + secondUnits → exec (.heartbeat l) s = .next s) ∧
  (∀ (s : State) (l : Nat), l < 16 → (linkOf s l).enc = false → authenticated (linkOf s l) = true → (linkOf s l).askAt + 60 * secondUnits ≤ s.time →
    exec (.challengeTimer l) s = .next (sendSpdm (setLink s l { linkOf s l with asked := true, askAt := s.time }) l)) ∧
  (∀ (s : State) (l : Nat), s.time < (linkOf s l).askAt + 60 * secondUnits → exec (.challengeTimer l) s = .next s) ∧
  (∀ (s : State) (l : Nat), l < 16 → (linkOf s l).asked = true → (linkOf s l).askAt + secondUnits ≤ s.time →
    exec (.challengeUnanswered l) s = .next (fence s l 7)) ∧
  (∀ (s : State) (l : Nat), ((linkOf s l).asked = false ∨ s.time < (linkOf s l).askAt + secondUnits) → exec (.challengeUnanswered l) s = .next s) ∧
  (∀ (s : State) (l : Nat), l < 16 → (linkOf s l).enc = true → 4294967296 ≤ (linkOf s l).flitsKey →
    exec (.keyUpdate l) s = .next (sendSpdm (newKeys s l) l))

/-- The messages of peers (R357 to R360, R364, R369, R370, R373, R377, R378, R416): the oldest message of its channel on a LIVE link is taken out
of the receive buffer, acts if it is for this device, and its slots are returned as credits. A row whose message is not at the head of its
channel changes nothing (log 8), and a READ waits for a retraining channel. READ answers with its data or a status, another device's READ is
forwarded; WRITE, CONTRIB and SIGNAL answer with theirs, and a contribution without room is answered with RETRY; READ_DATA, COMPL and RETRY
reach the request that they answer; a request is timed out when the group's remote timeout has passed and not before; a marker of the
ruling master is passed on and followed; SLOW, ADVERT, COLL_READY, COLL_ABORT and CONCORD act as notices. Logs 8, 73, 75, 77 and 78. -/
def Obligations.PeerMessageRows : Prop :=
  (∀ (s : State) (l : Nat) (m : Msg), firstOf s l 0 ≠ some m →
    exec (.read l m) s = .next s ∧ exec (.write l m) s = .next s ∧ exec (.contrib l m) s = .next s ∧ exec (.signal l m) s = .next s) ∧
  (∀ (s : State) (l : Nat) (m : Msg), firstOf s l 1 ≠ some m →
    exec (.readData l m) s = .next s ∧ exec (.compl l m) s = .next s ∧ exec (.retry l m) s = .next s) ∧
  (∀ (s w u : State) (l : Nat) (m : Msg) (g : List (List Byte × Bool)), l < 16 → m.op = 1 → firstOf s l 0 = some m → (linkOf s l).st = lkLive →
    m.dest = ownIndex s → s.ink.state ≠ stCapped → peerHeld s m (retrainingAt s false (msgDpa m) (readLen m)) = false →
    w = countMsg (freeMsg s l m) 20 m → msgDpa m % 64 = 0 → readGranules w (peerRq m) (msgDpa m) (readLen m) 1 = (St.ok, g, u) →
    exec (.read l m) s = .next (settleLink
      (answerCompl (sendReadData (crossRange u (linkDie l) (some m.part) false (msgDpa m) (readLen m)) m g) m St.ok) l)) ∧
  (∀ (s w u : State) (l st : Nat) (m : Msg) (g : List (List Byte × Bool)), l < 16 → m.op = 1 → firstOf s l 0 = some m → (linkOf s l).st = lkLive →
    m.dest = ownIndex s → s.ink.state ≠ stCapped → peerHeld s m (retrainingAt s false (msgDpa m) (readLen m)) = false →
    w = countMsg (freeMsg s l m) 20 m → msgDpa m % 64 = 0 → readGranules w (peerRq m) (msgDpa m) (readLen m) 1 = (st, g, u) → st ≠ St.ok →
    exec (.read l m) s = .next (settleLink (answerCompl u m st) l)) ∧
  (∀ (s w : State) (l : Nat) (m : Msg), l < 16 → m.op = 1 → firstOf s l 0 = some m → (linkOf s l).st = lkLive →
    m.dest = ownIndex s → s.ink.state ≠ stCapped → peerHeld s m (retrainingAt s false (msgDpa m) (readLen m)) = false →
    w = countMsg (freeMsg s l m) 20 m → msgDpa m % 64 ≠ 0 → exec (.read l m) s = .next (settleLink (answerCompl w m St.badAddress) l)) ∧
  (∀ (s w : State) (l : Nat) (m : Msg), l < 16 → m.op = 1 → firstOf s l 0 = some m → (linkOf s l).st = lkLive →
    m.dest = ownIndex s → s.ink.state = stCapped → peerHeld s m (retrainingAt s false (msgDpa m) (readLen m)) = false →
    w = countMsg (freeMsg s l m) 20 m → exec (.read l m) s = .next (settleLink (answerCompl w m St.cappedTarget) l)) ∧
  (∀ (s : State) (l : Nat) (m : Msg), l < 16 → m.op = 1 → firstOf s l 0 = some m → (linkOf s l).st = lkLive →
    m.dest ≠ ownIndex s → exec (.read l m) s = .next (settleLink (forward (freeMsg s l m) m) l)) ∧
  (∀ (s : State) (l : Nat) (m : Msg), peerHeld s m (retrainingAt s false (msgDpa m) (readLen m)) = true → exec (.read l m) s = .next s) ∧
  (∀ (s w u : State) (l st : Nat) (m : Msg), l < 16 → m.op = 2 → firstOf s l 0 = some m → (linkOf s l).st = lkLive →
    m.dest = ownIndex s → s.ink.state ≠ stCapped → peerHeld s m (retrainingAt s true (msgDpa m) (64 * m.data.length)) = false →
    w = countMsg (freeMsg s l m) 20 m → msgColl m = 0 → msgDpa m % 64 = 0 → writeGranules w (peerRq m) (msgDpa m) (msgGranules m) 1 = (st, u) →
    exec (.write l m) s = .next (settleLink (answerCompl
      (if st = St.ok then crossRange u (linkDie l) (some m.part) true (msgDpa m) (64 * m.data.length) else u) m st) l)) ∧
  (∀ (s w : State) (l : Nat) (m : Msg), l < 16 → m.op = 2 → firstOf s l 0 = some m → (linkOf s l).st = lkLive →
    m.dest = ownIndex s → s.ink.state ≠ stCapped → peerHeld s m (retrainingAt s true (msgDpa m) (64 * m.data.length)) = false →
    w = countMsg (freeMsg s l m) 20 m → msgColl m ≠ 0 → collOf w (msgColl m) = none → exec (.write l m) s = .next (settleLink (answerCompl w m St.aborted) l)) ∧
  (∀ (s w u v : State) (l st : Nat) (m : Msg) (b : List Byte), l < 16 → m.op = 3 → firstOf s l 0 = some m → (linkOf s l).st = lkLive →
    m.dest = ownIndex s → s.ink.state ≠ stCapped → peerHeld s m (retrainingBelow s (msgDpa m) 64) = false →
    w = countMsg (freeMsg s l m) 20 m → msgColl m = 0 → contribute w (peerRq m) (msgContribution m none) 1 = (st, b, u) →
    v = (if st = St.ok then crossFrom u (linkDie l) (some m.part) true (msgDpa m) 64 else u) → v.ari.aside.length ≤ w.ari.aside.length →
    exec (.contrib l m) s = .next (settleLink (pushAll (answerCompl v m st)) l)) ∧
  (∀ (s w u v : State) (l st : Nat) (m : Msg) (b : List Byte), l < 16 → m.op = 3 → firstOf s l 0 = some m → (linkOf s l).st = lkLive →
    m.dest = ownIndex s → s.ink.state ≠ stCapped → peerHeld s m (retrainingBelow s (msgDpa m) 64) = false →
    w = countMsg (freeMsg s l m) 20 m → msgColl m = 0 → contribute w (peerRq m) (msgContribution m none) 1 = (st, b, u) →
    v = (if st = St.ok then crossFrom u (linkDie l) (some m.part) true (msgDpa m) 64 else u) → w.ari.aside.length < v.ari.aside.length →
    exec (.contrib l m) s = .next (settleLink (answerMsg { v with ari.aside := w.ari.aside } m 0x12 [] [] 0) l)) ∧
  (∀ (s w : State) (l : Nat) (m : Msg), l < 16 → m.op = 4 → firstOf s l 0 = some m → (linkOf s l).st = lkLive →
    m.dest = ownIndex s → s.ink.state ≠ stCapped → w = countMsg (freeMsg s l m) 20 m →
    underReset w (tallyQuad (bits (fieldN m.fields 0 8) 13 0)) = true → exec (.signal l m) s = .next (settleLink (answerCompl w m St.destReset) l)) ∧
  (∀ (s w : State) (l : Nat) (m : Msg), l < 16 → m.op = 4 → firstOf s l 0 = some m → (linkOf s l).st = lkLive →
    m.dest = ownIndex s → s.ink.state ≠ stCapped → w = countMsg (freeMsg s l m) 20 m →
    underReset w (tallyQuad (bits (fieldN m.fields 0 8) 13 0)) = false →
    exec (.signal l m) s = .next (settleLink (answerCompl (tallySignalAs w (bits (fieldN m.fields 0 8) 13 0) (BitVec.ofNat 32 (fieldN m.fields 4 4))
      (bit (fieldN m.fields 0 2) 15) 0xFFFF (some m.part)) m St.ok) l)) ∧
  (∀ (s w : State) (l : Nat) (m : Msg) (r : Remote), l < 16 → m.op = 0x10 → firstOf s l 1 = some m → (linkOf s l).st = lkLive →
    m.dest = ownIndex s → w = countMsg (freeMsg s l m) 20 m → remoteFor w m = some r →
    exec (.readData l m) s = .next (settleLink (takeReadData w l r m) l)) ∧
  (∀ (s w : State) (l : Nat) (m : Msg) (r : Remote), l < 16 → m.op = 0x11 → firstOf s l 1 = some m → (linkOf s l).st = lkLive →
    m.dest = ownIndex s → w = countMsg (freeMsg s l m) 20 m → remoteFor w m = some r → (r.left = 0 ∨ fieldN m.fields 0 2 ≠ St.ok) →
    exec (.compl l m) s = .next (settleLink (remoteDone w r (fieldN m.fields 0 2)) l)) ∧
  (∀ (s w : State) (l : Nat) (m : Msg), l < 16 → m.op = 0x11 → firstOf s l 1 = some m → (linkOf s l).st = lkLive →
    m.dest = ownIndex s → w = countMsg (freeMsg s l m) 20 m → remoteFor w m = none → exec (.compl l m) s = .next (settleLink w l)) ∧
  (∀ (s w : State) (l : Nat) (m : Msg) (r : Remote), l < 16 → m.op = 0x11 → firstOf s l 1 = some m → (linkOf s l).st = lkLive →
    m.dest = ownIndex s → w = countMsg (freeMsg s l m) 20 m → remoteFor w m = some r → r.left ≠ 0 → fieldN m.fields 0 2 = St.ok →
    exec (.compl l m) s = .next (settleLink w l)) ∧
  (∀ (s w : State) (l : Nat) (m : Msg) (r : Remote), l < 16 → m.op = 0x12 → firstOf s l 1 = some m → (linkOf s l).st = lkLive →
    m.dest = ownIndex s → w = countMsg (freeMsg s l m) 20 m → remoteFor w m = some r → r.msg.op = 3 →
    exec (.retry l m) s = .next (settleLink (setRemote (match r.use with | .coll id => collProgress w id | _ => w)
      { r with retry := true, since := w.time }) l)) ∧
  (∀ (s : State) (tag : BitVec 16) (r : Remote), s.duc.remotes.find? (fun r => r.tag == tag) = some r → r.retry = false →
    r.since + remoteUnits s ≤ s.time → exec (.remoteTimeout tag) s = .next (remoteDone s r St.remoteTimeout)) ∧
  (∀ (s : State) (tag : BitVec 16) (r : Remote), s.duc.remotes.find? (fun r => r.tag == tag) = some r →
    (r.retry = true ∨ s.time < r.since + remoteUnits s) → exec (.remoteTimeout tag) s = .next s) ∧
  (∀ (s : State) (tag : BitVec 16), s.duc.remotes.find? (fun r => r.tag == tag) = none → exec (.remoteTimeout tag) s = .next s) ∧
  (∀ (s v u : State) (l k corr : Nat) (m : Msg), l < 16 → m.op = 0x20 → firstOf s l 2 = some m →
    ((linkOf s l).st = lkLive ∨ (linkOf s l).st = lkQuarantine) → v = freeMsg s l m → s.rul.follower = true → k = fieldN (m.second.getD []) 4 2 →
    (k = s.rul.master ∨ s.rul.pendMaster = some k) → routeTo s k = some l → corr = fieldN (m.second.getD []) 8 8 + (linkOf s l).latency →
    u = (liveLinks v ++ quarantineLinks v).foldl (fun t n => if n = l then t else
      sendOn t n { markerMsg t corr (fieldN m.fields 0 6) (fieldN (m.second.getD []) 0 4) k with source := m.source, hops := m.hops }) v →
    exec (.lineMarker l m) s = .next (settleLink (followMarker u k (fieldN m.fields 0 6) (fieldN (m.second.getD []) 0 4) (psUnits corr)) l)) ∧
  (∀ (s v : State) (l : Nat) (m : Msg), l < 16 → m.op = 0x20 → firstOf s l 2 = some m → v = freeMsg s l m → routeTo s (fieldN (m.second.getD []) 4 2) ≠ some l →
    exec (.lineMarker l m) s = .next (settleLink v l)) ∧
  (∀ (s v u : State) (l : Nat) (m : Msg), l < 16 → m.op = 0x21 → firstOf s l 2 = some m → (linkOf s l).st = lkLive → v = freeMsg s l m →
    m.source ≠ ownIndex s → mfind s.duc.shareSeqs m.source = none →
    u = { v with duc.shares := mput v.duc.shares m.source (fieldN m.fields 0 2),
                 duc.shareSeqs := mput v.duc.shareSeqs m.source (BitVec.ofNat 16 (fieldN m.fields 2 2)) } →
    exec (.slow l m) s = .next (settleLink (passOn (postSlow u (declaredShare u) m.source (fieldN m.fields 0 2)) l m) l)) ∧
  (∀ (s v : State) (l : Nat) (m : Msg) (p : BitVec 16), l < 16 → m.op = 0x21 → firstOf s l 2 = some m → (linkOf s l).st = lkLive → v = freeMsg s l m →
    mfind s.duc.shareSeqs m.source = some p → newer (BitVec.ofNat 16 (fieldN m.fields 2 2)) p = false →
    exec (.slow l m) s = .next (settleLink v l)) ∧
  (∀ (s v : State) (l : Nat) (m : Msg), l < 16 → m.op = 0x22 → firstOf s l 2 = some m → advertCounts s l m.source = true →
    v = freeMsg s l m → m.source ≠ ownIndex s → mfind s.duc.adverts m.source = none →
    exec (.advert l m) s = .next (settleLink (passOn { v with
      duc.adverts := mput v.duc.adverts m.source (Advert.mk (bit (fieldN m.fields 0 1) 0) (bit (fieldN m.fields 0 1) 1)
        (some (BitVec.ofNat 16 (fieldN m.fields 2 2)))) } l m) l)) ∧
  (∀ (s v : State) (l : Nat) (m : Msg), l < 16 → m.op = 0x23 → firstOf s l 2 = some m → (linkOf s l).st = lkLive → v = freeMsg s l m →
    s.duc.readySeen.any (fun e => e.1 == fieldN m.fields 0 4 && e.2.1 == m.source) = false → s.duc.colls = [] →
    exec (.collReady l m) s = .next (settleLink (passOn { v with duc.readySeen :=
      v.duc.readySeen ++ [(fieldN m.fields 0 4, m.source, BitVec.ofNat 32 (fieldN m.fields 4 4))] } l m) l)) ∧
  (∀ (s v u : State) (l : Nat) (m : Msg) (x : Coll), l < 16 → m.op = 0x23 → firstOf s l 2 = some m → (linkOf s l).st = lkLive → v = freeMsg s l m →
    s.duc.readySeen.any (fun e => e.1 == fieldN m.fields 0 4 && e.2.1 == m.source) = false →
    u = passOn { v with duc.readySeen := v.duc.readySeen ++ [(fieldN m.fields 0 4, m.source, BitVec.ofNat 32 (fieldN m.fields 4 4))] } l m →
    collOf u (fieldN m.fields 0 4) = some x → BitVec.ofNat 32 (fieldN m.fields 4 4) ≠ x.signature →
    exec (.collReady l m) s = .next (settleLink (collFail u (fieldN m.fields 0 4) St.collMismatch) l)) ∧
  (∀ (s v u : State) (l n : Nat) (m : Msg) (x : Coll), l < 16 → m.op = 0x23 → firstOf s l 2 = some m → (linkOf s l).st = lkLive → v = freeMsg s l m →
    s.duc.readySeen.any (fun e => e.1 == fieldN m.fields 0 4 && e.2.1 == m.source) = false →
    u = passOn { v with duc.readySeen := v.duc.readySeen ++ [(fieldN m.fields 0 4, m.source, BitVec.ofNat 32 (fieldN m.fields 4 4))] } l m →
    n = fieldN m.fields 0 4 → collOf u n = some x → BitVec.ofNat 32 (fieldN m.fields 4 4) = x.signature → x.begun = true →
    exec (.collReady l m) s = .next (settleLink (collPush (modColl (collProgress u n) n (fun c => { c with ready := c.ready ++ [m.source] })) n) l)) ∧
  (∀ (s v : State) (l : Nat) (m : Msg), l < 16 → m.op = 0x24 → firstOf s l 2 = some m → (linkOf s l).st = lkLive → v = freeMsg s l m →
    s.duc.aborted.any (fun e => e.1 == fieldN m.fields 0 4) = false → collOf s (fieldN m.fields 0 4) = none →
    exec (.collAbortReceived l m) s = .next (settleLink (passOn (rememberAbort v (fieldN m.fields 0 4) (fieldN m.fields 4 2)) l m) l)) ∧
  (∀ (s v : State) (l : Nat) (m : Msg) (x : Coll), l < 16 → m.op = 0x24 → firstOf s l 2 = some m → (linkOf s l).st = lkLive → v = freeMsg s l m →
    s.duc.aborted.any (fun e => e.1 == fieldN m.fields 0 4) = false → collOf s (fieldN m.fields 0 4) = some x →
    exec (.collAbortReceived l m) s =
      .next (settleLink (passOn (collAbort v (fieldN m.fields 0 4) (fieldN m.fields 4 2) (fieldN m.fields 6 2) true) l m) l)) ∧
  (∀ (s v : State) (l : Nat) (m : Msg), l < 16 → m.op = 0x25 → firstOf s l 2 = some m → v = freeMsg s l m →
    exec (.concord l m) s = .next (settleLink (concordArrives v l (bit (fieldN m.fields 0 1) 0) (parseConcord (m.data.headD []))) l))

/-- The commands of links and groups and the life of a collective (R347, R350, R367, R368, R371, R373, R376, R378, R379).
LINK_SET stores a legal record, judged by the license where it asks for encryption (R6): a link in loopback goes on, one without ENABLE is disabled with reason
HOST, a fenced one stays fenced, and any other trains. LINK_RESET sends each named disabled or fenced link to TRAINING and leaves the others. LINK_LOOPBACK
needs the caller's LOOPBACK claim and a disabled link; its end writes the run's results and disables the link. GROUP_CONFIG takes a legal record while no
collective is active; GROUP_REJOIN waits on the quarantined links it names. COLL_START outside a group, for an ID already aborted, in bad format, as the
17th, or against a COLL_READY of another signature completes with the status of each, and otherwise waits; COLLECTIVE_BEGIN starts it when its start tally
is 0xFFFF or satisfies GE; COLL_ABORT and the effective timeout end it. LINK_STATUS, LINK_COUNTERS and GROUP_STATUS write their records. The layout of the
loopback results and what an empty GROUP_REJOIN does are the model's own. Logs 40, 42, 43, 72, 76, 77 and 114. -/
def Obligations.LinkCommandRows : Prop :=
  (∀ (c : Cmd) (s a : State), Begun { op := 0x0A01, need := 8 } c s a → hostOk a (p64 c 0) 1024 = true →
    Completes (.linkStatus c) c s (hostStore a (p64 c 0) (((List.range 16).map (linkEntry a)).flatten)) []) ∧
  (∀ (c : Cmd) (s a : State), Begun { op := 0x0A02, need := 16 } c s a → linkRecordBad (slice (body c) 0 16) = false →
    (parseLinkCfg (slice (body c) 0 16)).encReq = false ∨ encLicensed a = true → Completes (.linkSet c) c s (applyLinkSet a (p8 c 0) (parseLinkCfg (slice (body c) 0 16))) []) ∧
  (∀ (c : Cmd) (s a : State), Begun { op := 0x0A02, need := 16 } c s a → linkRecordBad (slice (body c) 0 16) = true →
    exec (.linkSet c) s = .next (complete a c St.invalidField [])) ∧
  (∀ (c : Cmd) (s a : State), Begun { op := 0x0A02, need := 16 } c s a → linkRecordBad (slice (body c) 0 16) = false →
    (parseLinkCfg (slice (body c) 0 16)).encReq = true → encLicensed a = false → exec (.linkSet c) s = .next (complete a c St.notLicensed [])) ∧
  (∀ (s u : State) (l : Nat) (g : LinkCfg), u = storeSection (setLink s l { linkOf s l with cfg := g }) secLinks (linksBody (setLink s l { linkOf s l with cfg := g })) →
    ((linkOf u l).st = lkLoopback → applyLinkSet s l g = u) ∧
    ((linkOf u l).st ≠ lkLoopback → g.enable = false → applyLinkSet s l g = disable u l 0x24) ∧
    ((linkOf u l).st = lkFenced → g.enable = true → applyLinkSet s l g = u) ∧
    ((linkOf u l).st ≠ lkLoopback → (linkOf u l).st ≠ lkFenced → g.enable = true → applyLinkSet s l g = trainStart u l 0x24)) ∧
  (∀ (c : Cmd) (s a : State), Begun { op := 0x0A03, need := 2 } c s a →
    Completes (.linkReset c) c s ((bitList 16 (p16 c 0)).foldl (fun s l => if (linkOf s l).st = lkDisabled ∨ (linkOf s l).st = lkFenced then trainStart s l 0 else s) a) []) ∧
  (∀ (c : Cmd) (s a : State), Begun { op := 0x0A04, need := 16 } c s a → p8 c 0 ≤ 15 → p8 c 1 ≤ 1 → p16 c 2 ≠ 0 →
    holds a (linkRes (p8 c 0)) 2 c.fn = true → (linkOf a (p8 c 0)).st = lkDisabled →
    Waits (.linkLoopback c) 0x0A04 c s (linkMove a (p8 c 0) lkLoopback 0) (.loopback (p8 c 0))) ∧
  (∀ (c : Cmd) (s a : State), Begun { op := 0x0A04, need := 16 } c s a → p8 c 0 ≤ 15 → p8 c 1 ≤ 1 → p16 c 2 ≠ 0 →
    holds a (linkRes (p8 c 0)) 2 c.fn = false → exec (.linkLoopback c) s = .next (complete a c St.notClaimed [])) ∧
  (∀ (c : Cmd) (s a : State), Begun { op := 0x0A04, need := 16 } c s a → p8 c 0 ≤ 15 → p8 c 1 ≤ 1 → p16 c 2 ≠ 0 →
    holds a (linkRes (p8 c 0)) 2 c.fn = true → (linkOf a (p8 c 0)).st ≠ lkDisabled →
    exec (.linkLoopback c) s = .next (complete a c St.linkState [])) ∧
  (∀ (s u : State) (l corrected uncorrectable received : Nat) (r : Running), l < 16 → (linkOf s l).st = lkLoopback →
    (linkMove s l lkDisabled 0).ink.running.find? (fun r => r.wait == .loopback l) = some r →
    hostWrite? (linkMove s l lkDisabled 0) (p64 r.cmd 8) (loopbackRecord corrected uncorrectable received) = some u →
    exec (.loopbackEnd l corrected uncorrectable received) s = .next (finishWait u (.loopback l) St.ok [])) ∧
  (∀ (s : State) (l corrected uncorrectable received : Nat) (r : Running), l < 16 → (linkOf s l).st = lkLoopback →
    (linkMove s l lkDisabled 0).ink.running.find? (fun r => r.wait == .loopback l) = some r →
    hostWrite? (linkMove s l lkDisabled 0) (p64 r.cmd 8) (loopbackRecord corrected uncorrectable received) = none →
    exec (.loopbackEnd l corrected uncorrectable received) s = .next (finishWait (linkMove s l lkDisabled 0) (.loopback l) St.hostFault [])) ∧
  (∀ (s : State) (l corrected uncorrectable received : Nat), (linkOf s l).st ≠ lkLoopback →
    exec (.loopbackEnd l corrected uncorrectable received) s = .next s) ∧
  (∀ (c : Cmd) (s a : State), Begun { op := 0x0A0A, need := 16 } c s a → p8 c 0 ≤ 15 →
    hostOk a (p64 c 8) (((linkOf a (p8 c 0)).ctr.map (leBytes 8)).flatten).length = true →
    Completes (.linkCounters c) c s (hostStore a (p64 c 8) (((linkOf a (p8 c 0)).ctr.map (leBytes 8)).flatten)) []) ∧
  (∀ (c : Cmd) (s a : State) (b : List Byte), Begun { op := 0x0A05, need := 4162, ext := true, full := fun _ c => 4160 + 2 * p16 c 6 } c s a →
    b = (body c).take (4160 + 2 * p16 c 6) → groupBad b = false → a.duc.colls = [] →
    Completes (.groupConfig c) c s (applyGroup a b) []) ∧
  (∀ (c : Cmd) (s a : State), Begun { op := 0x0A05, need := 4162, ext := true, full := fun _ c => 4160 + 2 * p16 c 6 } c s a →
    groupBad ((body c).take (4160 + 2 * p16 c 6)) = true → exec (.groupConfig c) s = .next (complete a c St.invalidField [])) ∧
  (∀ (c : Cmd) (s a : State), Begun { op := 0x0A05, need := 4162, ext := true, full := fun _ c => 4160 + 2 * p16 c 6 } c s a →
    groupBad ((body c).take (4160 + 2 * p16 c 6)) = false → a.duc.colls ≠ [] → exec (.groupConfig c) s = .next (complete a c St.groupBusy [])) ∧
  (∀ (c : Cmd) (s a : State) (g : Group), Begun { op := 0x0A06, need := 2 } c s a → a.duc.group = some g →
    (bitList 16 (p16 c 0)).any (fun l => (linkOf a l).st != lkQuarantine) = false → bitList 16 (p16 c 0) ≠ [] →
    Waits (.groupRejoin c) 0x0A06 c s ((bitList 16 (p16 c 0)).foldl
      (fun s l => sendConcord (setLink s l { linkOf s l with rejoin := true }) l false) a) (.rejoin (p16 c 0))) ∧
  (∀ (c : Cmd) (s a : State), Begun { op := 0x0A06, need := 2 } c s a → a.duc.group = none →
    exec (.groupRejoin c) s = .next (complete a c St.notInGroup [])) ∧
  (∀ (c : Cmd) (s a : State) (g : Group), Begun { op := 0x0A06, need := 2 } c s a → a.duc.group = some g →
    (bitList 16 (p16 c 0)).any (fun l => (linkOf a l).st != lkQuarantine) = true → exec (.groupRejoin c) s = .next (complete a c St.linkState [])) ∧
  (∀ (c : Cmd) (s a : State) (g : Group), Begun { op := 0x0A06, need := 2 } c s a → a.duc.group = some g → bitList 16 (p16 c 0) = [] →
    Completes (.groupRejoin c) c s a []) ∧
  (∀ (c : Cmd) (s a : State), Begun { op := 0x0A07, need := 8 } c s a → hostOk a (p64 c 0) 64 = true →
    Completes (.groupStatus c) c s (hostStore a (p64 c 0) (groupRecord a)) []) ∧
  (∀ (c : Cmd) (s a : State) (x : Coll) (g : Group), Begun { op := 0x0A08, need := 64, ext := true, full := fun _ c => 64 + 2 * p16 c 10 } c s a → x = parseColl (body c) →
    a.duc.group = some g → a.duc.aborted.find? (fun e => e.1 == x.id) = none → collBad a x = false →
    a.duc.colls.length < 16 → earlyMismatch a x = false →
    Waits (.collStart c) 0x0A08 c s { a with duc.colls := a.duc.colls ++ [x] } (.collective x.id)) ∧
  (∀ (c : Cmd) (s a : State), Begun { op := 0x0A08, need := 64, ext := true, full := fun _ c => 64 + 2 * p16 c 10 } c s a → a.duc.group = none →
    exec (.collStart c) s = .next (complete a c St.notInGroup [])) ∧
  (∀ (c : Cmd) (s a : State) (x : Coll) (g : Group), Begun { op := 0x0A08, need := 64, ext := true, full := fun _ c => 64 + 2 * p16 c 10 } c s a → x = parseColl (body c) →
    a.duc.group = some g → a.duc.aborted.find? (fun e => e.1 == x.id) = none →
    (collBad a x = true → exec (.collStart c) s = .next (complete a c St.collFormat [])) ∧
    (collBad a x = false → 16 ≤ a.duc.colls.length → exec (.collStart c) s = .next (complete a c St.resourceExhausted [])) ∧
    (collBad a x = false → a.duc.colls.length < 16 → earlyMismatch a x = true →
      exec (.collStart c) s = .next (complete (collFail { a with duc.colls := a.duc.colls ++ [x] } x.id St.collMismatch) c St.collMismatch []))) ∧
  (∀ (c : Cmd) (s a : State) (x : Coll) (g : Group) (st : BitVec 16), Begun { op := 0x0A08, need := 64, ext := true, full := fun _ c => 64 + 2 * p16 c 10 } c s a →
    x = parseColl (body c) → a.duc.group = some g → a.duc.aborted.find? (fun e => e.1 == x.id) = some (x.id, st) →
    exec (.collStart c) s = .next (complete (if x.doneTally < 16384 then collSignal a x else a) c st.toNat [])) ∧
  (∀ (c : Cmd) (s a : State) (x : Coll), Begun { op := 0x0A09, need := 4 } c s a → collOf a (p32 c 0) = some x →
    Completes (.collAbort c) c s (collFail a (p32 c 0) St.aborted) []) ∧
  (∀ (c : Cmd) (s a : State), Begun { op := 0x0A09, need := 4 } c s a → collOf a (p32 c 0) = none →
    exec (.collAbort c) s = .next (complete a c St.invalidField [])) ∧
  (∀ (s : State) (id : Nat) (x : Coll), collOf s id = some x → x.begun = false → x.startTally = 0xFFFF →
    exec (.collectiveBegin id) s = .next (collBegin s id)) ∧
  (∀ (s : State) (id : Nat) (x : Coll), collOf s id = some x → x.begun = false → x.startTally ≠ 0xFFFF →
    waitHolds (tallyGet s x.startTally) x.startTarget false = true → exec (.collectiveBegin id) s = .next (collBegin s id)) ∧
  (∀ (s : State) (id : Nat) (x : Coll), collOf s id = some x → x.begun = false → x.startTally ≠ 0xFFFF →
    waitHolds (tallyGet s x.startTally) x.startTarget false = false → exec (.collectiveBegin id) s = .next s) ∧
  (∀ (s : State) (id : Nat) (x : Coll), collOf s id = some x → x.begun = true →
    x.progress.toNat + effTimeout s (declaredShare s) x ≤ (stamp s).toNat → exec (.collTimeout id) s = .next (collFail s id St.collTimeout)) ∧
  (∀ (s : State) (id : Nat) (x : Coll), collOf s id = some x → x.begun = true → (stamp s).toNat < x.progress.toNat + effTimeout s (declaredShare s) x →
    exec (.collTimeout id) s = .next s)

/-- Pins, resets, images and bring-up (R384 to R386, R388, R389, R395, R396, R399, R401, R414, R458).
AON_RESET_N holds the device while it is low and begins a cold start when it rises: ROM and an attempt on the slot of the next attempt, MINIMAL after three
failed starts, or ROM alone with STRAP_JTAG_TEST. PERST_N and a conventional reset begin a warm reset that releases every claim and keeps the console and the
straps; a held device ignores both, but for the pin's level. IMAGE_VERIFIED takes the slot of the attempt, else the other, else MINIMAL. Each stage's end moves the start on:
LOADING to BRINGUP unless a mandatory section is unreadable, a bridge that fails loses the verso die, training takes the fast path only where its conditions
hold, the memory test leaves the contents indeterminate, and stage 5 ends in READY, DEGRADED_READY or DIAGNOSTIC. A stage past its limit fails the start, but
for stage 4, whose links still training are disabled; before it nothing happens. A failed start records its reason and begins the next attempt on the other
slot, and keeps the ruling. A domain being switched on that does not report power good is left off. Clauses on a boot record assume a sequence that does not
wrap. Logs 2, 7, 11, 13, 44, 79, 80, 81 and 82. -/
def Obligations.StartRows : Prop :=
  (∀ s : State, s.pwr.aonHigh = true →
    ∃ t, exec .aonResetNAssert s = .next t ∧ t.pwr.aonHigh = false ∧ t.pwr.hostLink = false ∧ t.pwr.domains = 0 ∧ t.ink.state = stResetting ∧
      t.ink.claims = [] ∧ t.ink.funcs = [] ∧ t.pwr.bank0 = s.pwr.bank0 ∧ t.pwr.boot0 = s.pwr.boot0) ∧
  (∀ s : State, s.pwr.aonHigh = false → exec .aonResetNAssert s = .next s) ∧
  (∀ (s : State) (straps : BitVec 4), s.pwr.aonHigh = false → straps.getLsbD 3 = false → (bootNow s).failed < 3 →
    ∃ t, exec (.aonResetNRelease straps) s = .next t ∧ t.ink.state = stRom ∧ t.ink.seq = 0 ∧ t.pwr.stage = 1 ∧ t.pwr.runSlot = (bootNow s).next ∧
      t.pwr.straps = straps ∧ t.pwr.aonHigh = true ∧ t.ink.claims = []) ∧
  (∀ (s : State) (straps : BitVec 4), s.pwr.aonHigh = false → straps.getLsbD 3 = false → 3 ≤ (bootNow s).failed →
    ∃ t, exec (.aonResetNRelease straps) s = .next t ∧ t.ink.state = stMinimal ∧ t.pwr.stage = 0 ∧ t.pwr.boot0 = s.pwr.boot0 ∧
      t.pwr.boot1 = s.pwr.boot1) ∧
  (∀ (s : State) (straps : BitVec 4), s.pwr.aonHigh = false → straps.getLsbD 3 = true →
    ∃ t, exec (.aonResetNRelease straps) s = .next t ∧ t.ink.state = stRom ∧ t.pwr.stage = 0) ∧
  (∀ (s : State) (straps : BitVec 4), s.pwr.aonHigh = true → exec (.aonResetNRelease straps) s = .next s) ∧
  (∀ s : State, s.pwr.perstHigh = true → held s = false → s.pwr.straps.getLsbD 3 = false → (bootNow s).failed < 3 →
    ∃ t, exec .perstNFall s = .next t ∧ t.pwr.perstHigh = false ∧ t.pwr.hostLink = false ∧ t.ink.state = stRom ∧ t.pwr.stage = 1 ∧
      t.ink.claims = [] ∧ t.ink.con = s.ink.con ∧ t.pwr.straps = s.pwr.straps ∧ t.pwr.warmKind = true) ∧
  (∀ s : State, s.pwr.perstHigh = true → held s = true →
    exec .perstNFall s = .next { s with
      pwr.perstHigh := false }) ∧
  (∀ s : State, s.pwr.perstHigh = false → exec .perstNFall s = .next s) ∧
  (∀ s : State, held s = false →
    exec .perstNRelease s = .next { s with
      pwr.perstHigh := true,
      pwr.hostLink := true }) ∧
  (∀ s : State, held s = true → exec .perstNRelease s = .next { s with
      pwr.perstHigh := true }) ∧
  (∀ s : State, held s = false → s.pwr.hostLink = true → exec .conventionalReset s = .next (warmReset s false true)) ∧
  (∀ s : State, held s = true ∨ s.pwr.hostLink = false → exec .conventionalReset s = .next s) ∧
  (∀ s : State, ∃ t, exec .supplyLoss s = .next t ∧ t.pwr.aonHigh = false ∧ t.pwr.perstHigh = false ∧ t.pwr.domains = 0 ∧ t.ink.state = stResetting ∧
    t.pwr.slotA = s.pwr.slotA ∧ t.pwr.slotB = s.pwr.slotB ∧ t.pwr.bank0 = s.pwr.bank0 ∧ t.pwr.boot1 = s.pwr.boot1) ∧
  (∀ (s : State) (x y : Bool), s.ink.state = stRom → s.pwr.stage = 1 → imageVerifies s s.pwr.runSlot (if s.pwr.runSlot = 0 then x else y) = true →
    exec (.imageVerified x y) s = .next (setState s stLoading)) ∧
  (∀ (s v : State) (x y : Bool) (o : Nat), s.ink.state = stRom → s.pwr.stage = 1 → o = 1 - s.pwr.runSlot →
    imageVerifies s s.pwr.runSlot (if s.pwr.runSlot = 0 then x else y) = false →
    v = bootUpdate { s with pwr.runSlot := o } (fun b => { b with next := o }) → imageVerifies v o (if o = 0 then x else y) = true →
    exec (.imageVerified x y) s = .next (setState v stLoading)) ∧
  (∀ s : State, s.ink.state = stRom → s.pwr.stage = 1 →
    ∃ t, exec (.imageVerified false false) s = .next t ∧ t.ink.state = stMinimal ∧ t.pwr.stage = 0 ∧
      t = { s with ink := t.ink, pwr := t.pwr, host := t.host, obs := t.obs }) ∧
  (∀ (s : State) (x y : Bool), s.ink.state ≠ stRom ∨ s.pwr.stage ≠ 1 → exec (.imageVerified x y) s = .next s) ∧
  (∀ (s : State) (r : StageReport), s.ink.state = stLoading → missingMandatory (addDuration s) = none →
    ∃ t, exec (.bringupStageEnd r) s = .next t ∧ t.ink.state = stBringup ∧ t.pwr.stage = 2 ∧ t.pwr.domains = s.pwr.domains ∧ t.mem = s.mem) ∧
  (∀ (s : State) (r : StageReport) (id : Nat), s.ink.state = stLoading → missingMandatory (addDuration s) = some id →
    exec (.bringupStageEnd r) s = .next (failStart (addDuration s) St.settingsIncompatible id)) ∧
  (∀ (s : State) (r : StageReport), s.ink.state = stBringup → s.pwr.stage = 2 → r.bridge = true →
    exec (.bringupStageEnd r) s = .next { addDuration s with
      pwr.stage := 3 }) ∧
  (∀ (s : State) (r : StageReport), s.ink.state = stBringup → s.pwr.stage = 2 → r.bridge = false →
    exec (.bringupStageEnd r) s = .next { addDuration s with
      pwr.stage := 3,
      pwr.dead := s.pwr.dead ||| versoDomains,
      pwr.degMask := s.pwr.degMask ||| 0x40 }) ∧
  (∀ (s : State) (r : StageReport) (fast : Bool), s.ink.state = stBringup → s.pwr.stage = 3 →
    fast = (s.pwr.warmKind && s.pwr.fastPathOn && s.pwr.prevServed && !s.pwr.touched && signaturesEqual s r) →
    ∃ t, exec (.bringupStageEnd r) s = .next t ∧ t.pwr.stage = (if fast then 5 else 4) ∧ t.pwr.fast = fast ∧ t.pwr.clearUnits = [] ∧ t.pwr.report = r ∧
      t.pwr.defect = trainedMap s r ∧
      t.pwr.domains = s.pwr.domains ||| BitVec.ofNat 16 (unitDomains (fun k u => (foundUnit r k u).isSome && !memLost s k u)) ∧ t = { s with pwr := t.pwr }) ∧
  (∀ (s : State) (r : StageReport), s.ink.state = stBringup → s.pwr.stage = 4 →
    ∃ t, exec (.bringupStageEnd r) s = .next t ∧ t.pwr.stage = 5 ∧ t.mem.cells = [] ∧ t.mem.fill = (if s.pwr.coldSampled then .sampled else .march) ∧
      t = { s with pwr := t.pwr, mem := t.mem }) ∧
  (∀ (s : State) (r : StageReport), s.ink.state = stBringup → s.pwr.stage = 5 → exec (.bringupStageEnd r) s = .next (mapsEnd (addDuration s))) ∧
  (∀ (s : State) (r : StageReport), s.ink.state = stBringup → s.pwr.stage = 6 → exec (.bringupStageEnd r) s = .next (linksEnd (addDuration s) r)) ∧
  (∀ (s v : State) (r : StageReport), s.ink.state = stBringup → s.pwr.stage = 7 → v = buildCores (addDuration s) r → serviceable v r = false →
    ∃ t, exec (.bringupStageEnd r) s = .next t ∧ t.ink.state = stDiagnostic ∧ t.pwr.stage = 0 ∧ t.pwr.served = false) ∧
  (∀ (s v : State) (r : StageReport), s.ink.state = stBringup → s.pwr.stage = 7 → v = buildCores (addDuration s) r → serviceable v r = true →
    v.ink.variant.toNat ≠ 0 → (bootNow s).seq + 1 < 2 ^ 32 →
    ∃ t, exec (.bringupStageEnd r) s = .next t ∧ t.pwr.stage = 0 ∧ t.pwr.served = true ∧
      t.ink.state = (if t.pwr.degMask = 0 then stReady else stDegraded) ∧ (bootNow t).failed = 0 ∧ (bootNow t).active = s.pwr.runSlot) ∧
  (∀ (s v : State) (r : StageReport), s.ink.state = stBringup → s.pwr.stage = 7 → v = buildCores (addDuration s) r → serviceable v r = true →
    v.ink.variant.toNat = 0 →
    ∃ t, exec (.bringupStageEnd r) s = .next t ∧ t.ink.state = stDiagnostic ∧ t.pwr.stage = 0 ∧ t.pwr.served = false) ∧
  (∀ (s : State) (r : StageReport), s.ink.state ≠ stLoading → s.ink.state ≠ stBringup → exec (.bringupStageEnd r) s = .next s) ∧
  (∀ s : State, s.pwr.stage ≠ 0 → s.pwr.stage ≠ 6 → stageLimit s ≤ msSince s s.pwr.stageAt →
    exec .stageTimeout s = .next (failStart s St.stageTimeout 0)) ∧
  (∀ s : State, s.pwr.stage = 6 → stageLimit s ≤ msSince s s.pwr.stageAt → exec .stageTimeout s = .next (linksTimeout s)) ∧
  (∀ s : State, s.pwr.stage = 0 ∨ msSince s s.pwr.stageAt < stageLimit s → exec .stageTimeout s = .next s) ∧
  (∀ s : State, s.ink.state = stBringup → exec .scribeWatchdog s = .next (failStart s St.scribeFault 0)) ∧
  (∀ s : State, s.ink.state ≠ stBringup → exec .scribeWatchdog s = .next (enterFaulted s 4)) ∧
  (∀ (s : State) (status unit : Nat), s.pwr.straps.getLsbD 3 = false → (bootNow s).failed < 3 → (bootNow s).seq + 1 < 2 ^ 32 →
    (failStart s status unit).ink.state = stRom ∧ (failStart s status unit).pwr.stage = 1 ∧ (failStart s status unit).pwr.runSlot = 1 - s.pwr.runSlot ∧
      (func (failStart s status unit) 0).reason = BitVec.ofNat 16 status ∧ (failStart s status unit).rul = s.rul) ∧
  (∀ (s : State) (d : Nat), switching s d = true → 1 ≤ d → d ≤ 15 →
    exec (.domainPowerTimeout d) s = .next { s with
      pwr.dead := s.pwr.dead ||| BitVec.ofNat 16 (2 ^ d),
      pwr.domains := s.pwr.domains &&& ~~~ BitVec.ofNat 16 (2 ^ d) }) ∧
  (∀ (s : State) (d : Nat), switching s d = false ∨ d = 0 ∨ 15 < d → exec (.domainPowerTimeout d) s = .next s)

/-- Faults, package power, junction heat, compute resets and the Cap state, with their commands (R383 to R385, R410, R411, R415, R417, R419, R466).
FAULTED is entered from service and from DIAGNOSTIC only. Ten power samples are judged against the licensed limit, and a sample of the junction against 105 and
100 °C: each lowers or raises its own choice of clock by 100 MHz within 800 to 1,600 MHz, the clock in force is the lower choice, and a change posts POWER_LIMIT;
125 °C asserts THERM_TRIP_N and holds every switched domain. RESET completes and begins a warm reset, or begins the compute reset of its partitions; its end
leaves the quadrants fresh, a failing core is replaced by a free good one of its quadrant or left out, and the device is degraded. POWER_CAP_ENTER waits for
the drain unless something is busy, entry leaves on what the Cap state keeps, and a wake returns to the former state. FAULT_LOG_READ and POWER_STATUS report;
before the first sample the mean is a free value. Logs 13, 83, 84, 85 and 86. -/
def Obligations.PowerRows : Prop :=
  (∀ s : State, (serving s = true ∨ s.ink.state = stDiagnostic) →
    ∃ t, exec .enterFaulted s = .next t ∧ t.ink.state = stFaulted ∧ (t.pwr.faulted).2.1 = BitVec.ofNat 16 St.deviceFault ∧
      t = { s with ink := t.ink, free := t.free, pwr.faulted := t.pwr.faulted, host := t.host, obs := t.obs }) ∧
  (∀ s : State, serving s = false → s.ink.state ≠ stDiagnostic → exec .enterFaulted s = .next s) ∧
  (∀ (s : State) (w : Nat), held s = true → exec (.powerSample w) s = .next s) ∧
  (∀ (s : State) (w : Nat), held s = false → s.pwr.watts.length < 9 →
    exec (.powerSample w) s = .next { s with
      pwr.watts := w :: s.pwr.watts }) ∧
  (∀ (s : State) (w l : Nat), held s = false → 9 ≤ s.pwr.watts.length → l = Config.powerLimit s.ink.variant.toNat → l ≠ 0 →
    10 * l < (w :: s.pwr.watts.take 9).sum →
    exec (.powerSample w) s = .next (setClock s { s.pwr with watts := w :: s.pwr.watts.take 9, powerClock := max 800 (s.pwr.powerClock - 100), calm := 0 })) ∧
  (∀ (s : State) (w l : Nat), held s = false → 9 ≤ s.pwr.watts.length → l = Config.powerLimit s.ink.variant.toNat →
    100 * (w :: s.pwr.watts.take 9).sum < 950 * l → 9 ≤ s.pwr.calm →
    exec (.powerSample w) s = .next (setClock s { s.pwr with watts := w :: s.pwr.watts.take 9, powerClock := min 1600 (s.pwr.powerClock + 100), calm := 0 })) ∧
  (∀ (s : State) (w l : Nat), held s = false → 9 ≤ s.pwr.watts.length → l = Config.powerLimit s.ink.variant.toNat →
    100 * (w :: s.pwr.watts.take 9).sum < 950 * l → s.pwr.calm < 9 →
    exec (.powerSample w) s = .next { s with
      pwr.watts := w :: s.pwr.watts.take 9,
      pwr.calm := s.pwr.calm + 1 }) ∧
  (∀ (s : State) (w l : Nat), held s = false → 9 ≤ s.pwr.watts.length → l = Config.powerLimit s.ink.variant.toNat → l ≠ 0 →
    950 * l ≤ 100 * (w :: s.pwr.watts.take 9).sum → (w :: s.pwr.watts.take 9).sum ≤ 10 * l →
    exec (.powerSample w) s = .next { s with
      pwr.watts := w :: s.pwr.watts.take 9,
      pwr.calm := 0 }) ∧
  (∀ (s : State) (w : Nat), held s = false → Config.powerLimit s.ink.variant.toNat = 0 →
    exec (.powerSample w) s = .next { s with
      pwr.watts := (w :: s.pwr.watts).take 10 }) ∧
  (∀ (s : State) (p : Power), min p.powerClock p.heatClock = s.pwr.clock → setClock s p = { s with pwr := { p with clock := s.pwr.clock } }) ∧
  (∀ (s v : State) (p : Power), min p.powerClock p.heatClock ≠ s.pwr.clock → v = { s with pwr := { p with clock := min p.powerClock p.heatClock } } →
    setClock s p = post v 0x0B03 0xFF (leBytes 2 (min p.powerClock p.heatClock) ++ leBytes 2 (min 65535 (meanPower v))) true) ∧
  (∀ (s : State) (c : Nat), held s = true → exec (.junctionSample c) s = .next s) ∧
  (∀ (s : State) (c : Nat), held s = false → 125 ≤ c →
    ∃ t, exec (.junctionSample c) s = .next t ∧ t.pwr.tripN = true ∧ t.pwr.domains = 1 ∧ t.pwr.hostLink = false ∧ t.ink.state = stResetting) ∧
  (∀ (s : State) (c : Nat), held s = false → 105 < c → c < 125 →
    exec (.junctionSample c) s = .next (setClock s { s.pwr with heatClock := max 800 (s.pwr.heatClock - 100), coolMs := 0 })) ∧
  (∀ (s : State) (c : Nat), held s = false → c ≤ 100 → 9 ≤ s.pwr.coolMs →
    exec (.junctionSample c) s = .next (setClock s { s.pwr with heatClock := min 1600 (s.pwr.heatClock + 100), coolMs := 0 })) ∧
  (∀ (s : State) (c : Nat), held s = false → c ≤ 100 → s.pwr.coolMs < 9 →
    exec (.junctionSample c) s = .next { s with
      pwr.coolMs := s.pwr.coolMs + 1 }) ∧
  (∀ (s : State) (c : Nat), held s = false → 100 < c → c ≤ 105 →
    exec (.junctionSample c) s = .next { s with
      pwr.coolMs := 0 }) ∧
  (∀ (c : Cmd) (s a u : State), Begun { op := 0x0B02, need := 2, vf := false } c s a → p8 c 0 = 1 →
    u = complete { a with pwr.resetWanted := 1 } c St.ok [] →
    exec (.reset c) s = .next (warmReset { u with pwr.resetWanted := 0 } true true)) ∧
  (∀ (c : Cmd) (s a u : State), Begun { op := 0x0B02, need := 2, vf := false } c s a → p8 c 0 = 2 →
    u = complete { a with pwr.resetWanted := 2 } c St.ok [] →
    exec (.reset c) s = .next (warmReset { u with pwr.resetWanted := 0 } true false)) ∧
  (∀ (c : Cmd) (s a : State), Begun { op := 0x0B02, need := 2, vf := false } c s a → p8 c 0 ≠ 1 → p8 c 0 ≠ 2 →
    p8 c 0 ≠ 3 ∨ p8 c 1 = 0 ∨ 15 < p8 c 1 ∨ (bitList 4 (p8 c 1)).any (fun p => !configured a p) = true → a.pwr.resetWanted = 0 →
    exec (.reset c) s = .next (complete a c St.invalidField [])) ∧
  (∀ (c : Cmd) (s a : State), Begun { op := 0x0B02, need := 2, vf := false } c s a → p8 c 0 = 3 → p8 c 1 ≠ 0 → p8 c 1 ≤ 15 →
    (bitList 4 (p8 c 1)).any (fun p => !configured a p) = false → (bitList 4 (p8 c 1)).any a.pwr.resets.contains = true → a.pwr.resetWanted = 0 →
    exec (.reset c) s = .next (complete a c St.busy [])) ∧
  (∀ (c : Cmd) (s a u : State), Begun { op := 0x0B02, need := 2, vf := false } c s a → p8 c 0 = 3 → p8 c 1 ≠ 0 → p8 c 1 ≤ 15 →
    (bitList 4 (p8 c 1)).any (fun p => !configured a p) = false → (bitList 4 (p8 c 1)).any a.pwr.resets.contains = false →
    u = (bitList 4 (p8 c 1)).foldl beginCompute (post a 0x0B04 0xFF [BitVec.ofNat 8 (p8 c 1), 0, 0, 0] false) → u.pwr.resetWanted = 0 →
    Waits (.reset c) 0x0B02 c s u (.computeReset (p8 c 1))) ∧
  (∀ (s : State) (p : Nat) (l : List Nat), s.pwr.resets.contains p = false → exec (.computeResetEnd p l) s = .next s) ∧
  (∀ (s v : State) (p : Nat), s.pwr.resets.contains p = true → v = freshQuads (failLost { s with
      cpu.resetting := s.cpu.resetting.filter (fun e => !(partQuads s p).contains e.1),
      pwr.resets := s.pwr.resets.filter (· != p),
      pwr.domains := s.pwr.domains ||| (quadBits (partQuads s p) &&& ~~~ s.pwr.dead) }) (partQuads s p) →
    exec (.computeResetEnd p []) s = .next (computeDone (post v 0x0B04 0xFF [BitVec.ofNat 8 (2 ^ p), 1, 0, BitVec.ofNat 8 (lostCores s).length] false))) ∧
  (∀ (s : State) (p : Nat) (l : List Nat), s.pwr.resets.contains p = true →
    ∃ t, exec (.computeResetEnd p l) s = .next t ∧ t.pwr.resets = s.pwr.resets.filter (· != p) ∧
      ((l.filter (fun c => (partQuads s p).contains (c / 40))) ≠ [] → t.pwr.degMask.getLsbD 3 = true ∧ t.ink.state ≠ stReady)) ∧
  (∀ (s v : State) (phys n c replaced left : Nat), v = { s with pwr.defect := { s.pwr.defect with
      coresOut := if s.pwr.defect.coresOut.contains phys then s.pwr.defect.coresOut else s.pwr.defect.coresOut ++ [phys] } } →
    indexOf? (· == phys) s.cpu.map = some n →
    ((goodCores v (phys / 40)).find? (fun c => !s.cpu.map.contains c) = some c →
      replaceCore (s, replaced, left) phys = ({ v with cpu.map := s.cpu.map.set n c }, replaced + 1, left)) ∧
    ((goodCores v (phys / 40)).find? (fun c => !s.cpu.map.contains c) = none →
      replaceCore (s, replaced, left) phys = ({ v with cpu.bad := s.cpu.bad ++ [n] }, replaced, left + 1))) ∧
  (∀ (c : Cmd) (s a : State), Begun { op := 0x0B0E, vf := false } c s a → serving a = true → a.pwr.capEntering = false → capBusy a = false →
    Waits (.powerCapEnter c) 0x0B0E c s { a with pwr.capEntering := true } .capEnter) ∧
  (∀ (c : Cmd) (s a : State), Begun { op := 0x0B0E, vf := false } c s a → serving a = true → a.pwr.capEntering = false → capBusy a = true →
    exec (.powerCapEnter c) s = .next (complete a c St.powerBusy [])) ∧
  (∀ (c : Cmd) (s a : State), Begun { op := 0x0B0F, vf := false } c s a → a.ink.state = stCapped →
    Waits (.powerCapExit c) 0x0B0F c s { a with pwr.capWaking := true } .capExit) ∧
  (∀ (c : Cmd) (s a : State), Begun { op := 0x0B0F, vf := false } c s a → a.ink.state ≠ stCapped → a.pwr.capEntering = true →
    Waits (.powerCapExit c) 0x0B0F c s { a with pwr.wakeWanted := true } .capExit) ∧
  (∀ (c : Cmd) (s a : State), Begun { op := 0x0B0F, vf := false } c s a → a.ink.state ≠ stCapped → a.pwr.capEntering = false →
    Completes (.powerCapExit c) c s a []) ∧
  (∀ s : State, s.pwr.capEntering = true → s.ink.fetched.any (fun e => e.cmd.ring != 0) = false → s.ink.running.any (fun r => r.cmd.ring != 0) = false →
    ∃ t, exec .capEntryDone s = .next t ∧ t.ink.state = stCapped ∧ t.pwr.capEntering = false ∧ t.pwr.capBefore = s.ink.state ∧
      t.pwr.domains &&& ~~~ capDomains = 0 ∧ t.pwr.capWaking = s.pwr.wakeWanted) ∧
  (∀ s : State, s.pwr.capEntering = false ∨ s.ink.fetched.any (fun e => e.cmd.ring != 0) = true ∨ s.ink.running.any (fun r => r.cmd.ring != 0) = true →
    exec .capEntryDone s = .next s) ∧
  (∀ s : State, s.ink.state = stCapped → exec .capWakeN s = .next { s with
      pwr.capWaking := true }) ∧
  (∀ s : State, s.ink.state ≠ stCapped → s.pwr.capEntering = true → exec .capWakeN s = .next { s with
      pwr.wakeWanted := true }) ∧
  (∀ s : State, s.ink.state ≠ stCapped → s.pwr.capEntering = false → exec .capWakeN s = .next s) ∧
  (∀ s : State, s.ink.state = stCapped → s.pwr.capWaking = true → lostChans s = [] →
    ∃ t, exec .capWakeDone s = .next t ∧ t.ink.state = s.pwr.capBefore ∧ t.pwr.capWaking = false ∧
      t.pwr.domains = s.pwr.domains ||| (BitVec.ofNat 16 (memDomains s + 8192 + 49152 +
        512 * maskOf ((List.range 4).filter (fun q => s.cpu.map.any (fun c => c / 40 == q)))) &&& ~~~ s.pwr.dead) ∧
      t = { s with ink := t.ink, cpu := t.cpu, pwr := t.pwr, host := t.host, obs := t.obs }) ∧
  (∀ s : State, s.ink.state ≠ stCapped ∨ s.pwr.capWaking = false → exec .capWakeDone s = .next s) ∧
  (∀ (c : Cmd) (s a : State), Begun { op := 0x0B01, need := 8, vf := false } c s a → hostOk a (p64 c 0) (faultLog a).length = true →
    Completes (.faultLogRead c) c s (hostStore a (p64 c 0) (faultLog a)) []) ∧
  (∀ (c : Cmd) (s a : State), Begun { op := 0x0B10, vf := false } c s a → a.pwr.watts ≠ [] →
    Completes (.powerStatus c) c s a (leBytes 2 a.pwr.domains.toNat ++ leBytes 2 a.pwr.clock ++ leBytes 2 (min 65535 (a.pwr.watts.sum / a.pwr.watts.length)) ++
      leBytes 2 (Config.powerLimit a.ink.variant.toNat))) ∧
  (∀ (c : Cmd) (s a : State), Begun { op := 0x0B10, vf := false } c s a → a.pwr.watts = [] →
    Completes (.powerStatus c) c s (freeWord a).2 (leBytes 2 a.pwr.domains.toNat ++ leBytes 2 a.pwr.clock ++
      leBytes 2 ((freeWord a).1.toNat % 65536) ++ leBytes 2 (Config.powerLimit a.ink.variant.toNat)))

/-- The settings store, firmware slots, licences, the defect map, the management endpoints and the test port (R387, R393, R402 to R408, R418, R419, R463).
SETTINGS_READ gives a readable section or the default of an optional one, SETTINGS_WRITE takes a legal section and a mandatory one only in MINIMAL and
DIAGNOSTIC, and SETTINGS_COMMIT writes every section. One update session is held by FW_WRITE or by PLDM and ends by 60 s without a transfer; activation verifies
the slot and sets it pending, with FW_ROLLBACK or IMAGE_INVALID else. LICENCE_INSTALL refuses a bad record, another device's, a serial that does not rise
and a ninth record. Every PLDM request outside its phase is refused, a held device answers nothing, MINIMAL has the state sensor only, and the SPDM answers
hold the digests of the running image and of the licences in force; what the manual does not state of a message is a free value, and the phases and completion
codes beside ALREADY_IN_UPDATE_MODE are the model's own. IDCODE gives part 0xB880, version 0x1 and Rildodun's code, and EXTEST, CLAMP and HIGHZ act as BYPASS without STRAP_JTAG_TEST.
Logs 10, 11, 12, 13, 82, 87, 88 and 89. -/
def Obligations.FirmwareRows : Prop :=
  (∀ (c : Cmd) (s a : State), Begun { op := 0x0B03, need := 2, vf := false } c s a → p8 c 0 ≤ 1 →
    Completes (.bringupConfig c) c s { storeSection a secBringup [BitVec.ofNat 8 (p8 c 0), BitVec.ofNat 8 (p8 c 1 % 2)] with
      pwr.coldSampled := p8 c 0 == 1,
      pwr.fastPathOn := bit (p8 c 1) 0 } []) ∧
  (∀ (c : Cmd) (s a : State), Begun { op := 0x0B03, need := 2, vf := false } c s a → 1 < p8 c 0 →
    exec (.bringupConfig c) s = .next (complete a c St.invalidField [])) ∧
  (∀ (c : Cmd) (s a : State), Begun { op := 0x0B04, need := 8, vf := false } c s a → hostOk a (p64 c 0) (defectBody a.pwr.defect).length = true →
    Completes (.defectMapRead c) c s (hostStore a (p64 c 0) (defectBody a.pwr.defect)) []) ∧
  (∀ (c : Cmd) (s a : State) (t : Tier) (u : Nat), Begun { op := 0x0B05, need := 2, vf := false } c s a → unitField c 0 = some (t, u) →
    a.pwr.clearUnits.contains (unitNo t u) = false →
    Completes (.defectMapClear c) c s { a with pwr.clearUnits := a.pwr.clearUnits ++ [unitNo t u] } []) ∧
  (∀ (c : Cmd) (s a : State) (t : Tier) (u : Nat), Begun { op := 0x0B05, need := 2, vf := false } c s a → unitField c 0 = some (t, u) →
    a.pwr.clearUnits.contains (unitNo t u) = true → Completes (.defectMapClear c) c s a []) ∧
  (∀ (c : Cmd) (s a : State), Begun { op := 0x0B05, need := 2, vf := false } c s a → unitField c 0 = none →
    exec (.defectMapClear c) s = .next (complete a c St.invalidField [])) ∧
  (∀ (c : Cmd) (s a : State) (x : Section), Begun { op := 0x0B06, need := 16, vf := false } c s a → (secInfo (p16 c 0)).isSome = true →
    readSection a (p16 c 0) = some x → hostOk a (p64 c 8) (sectionBytes x).length = true →
    Completes (.settingsRead c) c s (hostStore a (p64 c 8) (sectionBytes x)) (leBytes 2 x.ver ++ [if x.ver = secWritten (p16 c 0) then 0 else 2])) ∧
  (∀ (c : Cmd) (s a : State) (x : Section), Begun { op := 0x0B06, need := 16, vf := false } c s a → (secInfo (p16 c 0)).isSome = true →
    readSection a (p16 c 0) = none → secMandatory (p16 c 0) = false → x = mkSection (p16 c 0) (secWritten (p16 c 0)) (serviceBody a (p16 c 0)) →
    hostOk a (p64 c 8) (sectionBytes x).length = true →
    Completes (.settingsRead c) c s (hostStore a (p64 c 8) (sectionBytes x)) (leBytes 2 x.ver ++ [1])) ∧
  (∀ (c : Cmd) (s a : State), Begun { op := 0x0B06, need := 16, vf := false } c s a → (secInfo (p16 c 0)).isNone = true →
    exec (.settingsRead c) s = .next (complete a c St.invalidField [])) ∧
  (∀ (c : Cmd) (s a : State) (x : Section), Begun { op := 0x0B07, need := 16, ext := true, full := fun _ c => 16 + p32 c 4, vf := false } c s a → x = writtenSection c →
    secReadable x = true → (secMandatory x.id = false ∨ a.ink.state = stMinimal ∨ a.ink.state = stDiagnostic) →
    Completes (.settingsWrite c) c s (minimalDone (writeStore a (replaceSection (storeSections a) x))) []) ∧
  (∀ (c : Cmd) (s a : State) (x : Section), Begun { op := 0x0B07, need := 16, ext := true, full := fun _ c => 16 + p32 c 4, vf := false } c s a → x = writtenSection c →
    secReadable x = true → secMandatory x.id = true → a.ink.state ≠ stMinimal → a.ink.state ≠ stDiagnostic →
    exec (.settingsWrite c) s = .next (complete a c St.wrongState [])) ∧
  (∀ (c : Cmd) (s a : State), Begun { op := 0x0B07, need := 16, ext := true, full := fun _ c => 16 + p32 c 4, vf := false } c s a →
    secReadable (writtenSection c) = false → exec (.settingsWrite c) s = .next (complete a c St.invalidField [])) ∧
  (∀ s : State, s.ink.state ≠ stMinimal → minimalDone s = s) ∧
  (∀ s : State, s.ink.state = stMinimal → (bootNow s).seq + 1 < 2 ^ 32 → (bootNow (minimalDone s)).failed = 0) ∧
  (∀ (c : Cmd) (s a : State), Begun { op := 0x0B08, vf := false } c s a → Completes (.settingsCommit c) c s (commitStore a) []) ∧
  (∀ (c : Cmd) (s a : State), Begun { op := 0x0B09, need := 64, ext := true, full := fun _ c => c.len, vf := false } c s a → p32 c 4 ≤ 16777216 →
    p32 c 0 + ((body c).drop 64).length ≤ p32 c 4 → a.pwr.session.owner ≠ 2 →
    Completes (.fwWrite c) c s { writeSlot a (p32 c 4) (p32 c 0) ((body c).drop 64) with pwr.session := { owner := 1, since := a.time } } []) ∧
  (∀ (c : Cmd) (s a : State), Begun { op := 0x0B09, need := 64, ext := true, full := fun _ c => c.len, vf := false } c s a →
    (16777216 < p32 c 4 ∨ p32 c 4 < p32 c 0 + ((body c).drop 64).length) → exec (.fwWrite c) s = .next (complete a c St.invalidField [])) ∧
  (∀ (c : Cmd) (s a : State), Begun { op := 0x0B09, need := 64, ext := true, full := fun _ c => c.len, vf := false } c s a → p32 c 4 ≤ 16777216 →
    p32 c 0 + ((body c).drop 64).length ≤ p32 c 4 → a.pwr.session.owner = 2 → exec (.fwWrite c) s = .next (complete a c St.fwSessionBusy [])) ∧
  (∀ (c : Cmd) (sig : Bool) (s a : State), Begun { op := 0x0B0A, vf := false } c s a → a.pwr.session.owner = 2 →
    exec (.fwActivate c sig) s = .next (complete a c St.fwSessionBusy [])) ∧
  (∀ (c : Cmd) (sig : Bool) (s a : State), Begun { op := 0x0B0A, vf := false } c s a → a.pwr.session.owner ≠ 2 →
    (bootNow a).minSec ≤ imageVersion (slotBytes a (updateSlot a)) → imageSound (slotBytes a (updateSlot a)) sig = true →
    Completes (.fwActivate c sig) c s (minimalDone (bootUpdate (endSession a) (fun b => { b with pending := updateSlot a, next := updateSlot a }))) []) ∧
  (∀ (c : Cmd) (sig : Bool) (s a : State), Begun { op := 0x0B0A, vf := false } c s a → a.pwr.session.owner ≠ 2 →
    (bootNow a).minSec ≤ imageVersion (slotBytes a (updateSlot a)) → imageSound (slotBytes a (updateSlot a)) sig = false →
    exec (.fwActivate c sig) s = .next (complete (endSession a) c St.imageInvalid [])) ∧
  (∀ (c : Cmd) (sig : Bool) (s a : State), Begun { op := 0x0B0A, vf := false } c s a → a.pwr.session.owner ≠ 2 →
    imageVersion (slotBytes a (updateSlot a)) < (bootNow a).minSec → exec (.fwActivate c sig) s = .next (complete (endSession a) c St.fwRollback [])) ∧
  (∀ (c : Cmd) (s a : State), Begun { op := 0x0B0B, need := 8, vf := false } c s a → imageRuns a = true → hostOk a (p64 c 0) 64 = true →
    Completes (.fwStatus c) c s (hostStore a (p64 c 0) (padTo 64 ([BitVec.ofNat 8 (bootNow a).active, BitVec.ofNat 8 (bootNow a).pending,
      BitVec.ofNat 8 a.pwr.runSlot, 0] ++ leBytes 4 (bootNow a).minSec ++ slice a.pwr.slotA 0 8 ++ slice a.pwr.slotB 0 8))) []) ∧
  (∀ (c : Cmd) (s a : State), Begun { op := 0x0B0B, need := 8, vf := false } c s a → imageRuns a = false → hostOk a (p64 c 0) 64 = true →
    Completes (.fwStatus c) c s (hostStore (freeBytes a 1).2 (p64 c 0) (padTo 64 ([BitVec.ofNat 8 (bootNow a).active, BitVec.ofNat 8 (bootNow a).pending] ++
      (freeBytes a 1).1 ++ [0] ++ leBytes 4 (bootNow a).minSec ++ slice a.pwr.slotA 0 8 ++ slice a.pwr.slotB 0 8))) []) ∧
  (∀ (c : Cmd) (s a v : State) (b : List Byte), Begun { op := 0x0B0C, need := 128, ext := true, full := fun _ c => if p8 c 1 ≤ 16 then licenceLen (body c) else 0, vf := false } c s a →
    b = (body c).take (min c.len (licenceLen (body c))) → licenceFormat b = true → fieldN b 8 8 = Config.uniqueId →
    (installed a).any (fun o => decide (recordSerial o ≥ recordSerial b)) = false →
    ((installed a).filter (fun o => !superseded (installed a ++ [b]) o)).length < 8 →
    v = { a with pwr.sigGood := if a.pwr.sigGood.contains b then a.pwr.sigGood else a.pwr.sigGood ++ [b] } →
    Completes (.licenceInstall c true) c s
      (minimalDone (storeSection v secLicences (((installed a).filter (fun o => !superseded (installed a ++ [b]) o)).flatten ++ b))) []) ∧
  (∀ (c : Cmd) (s a : State) (b : List Byte), Begun { op := 0x0B0C, need := 128, ext := true, full := fun _ c => if p8 c 1 ≤ 16 then licenceLen (body c) else 0, vf := false } c s a →
    b = (body c).take (min c.len (licenceLen (body c))) → licenceFormat b = true →
    (fieldN b 8 8 ≠ Config.uniqueId → exec (.licenceInstall c true) s = .next (complete a c St.licenceBinding [])) ∧
    (fieldN b 8 8 = Config.uniqueId → (installed a).any (fun o => decide (recordSerial o ≥ recordSerial b)) = true →
      exec (.licenceInstall c true) s = .next (complete a c St.licenceRollback [])) ∧
    (fieldN b 8 8 = Config.uniqueId → (installed a).any (fun o => decide (recordSerial o ≥ recordSerial b)) = false →
      8 ≤ ((installed a).filter (fun o => !superseded (installed a ++ [b]) o)).length →
      exec (.licenceInstall c true) s = .next (complete a c St.resourceExhausted []))) ∧
  (∀ (c : Cmd) (s a : State), Begun { op := 0x0B0C, need := 128, ext := true, full := fun _ c => if p8 c 1 ≤ 16 then licenceLen (body c) else 0, vf := false } c s a →
    exec (.licenceInstall c false) s = .next (complete a c St.licenceInvalid [])) ∧
  (∀ (c : Cmd) (s a : State), Begun { op := 0x0B0D, need := 8, vf := false } c s a → hostOk a (p64 c 0) 256 = true →
    Completes (.licenceQuery c) c s (hostStore a (p64 c 0) (padTo 256 (([1, 2, 3].filterMap (entryInForce a)).flatten))) []) ∧
  (∀ s : State, s.pwr.session.since + 60 * secondUnits ≤ s.time → exec .fwSessionTimeout s = .next (endSession s)) ∧
  (∀ s : State, s.time < s.pwr.session.since + 60 * secondUnits → exec .fwSessionTimeout s = .next s) ∧
  (∀ (i : Instr) (m : MgmtReq) (sig : Bool) (x : Sensor) (s : State), held s = true →
    i ∈ [.queryDeviceIdentifiers, .getStatus, .getFirmwareParameters, .requestUpdate, .cancelUpdate, .passComponentTable m, .updateComponent m,
      .requestFirmwareData m, .transferComplete m, .verifyComplete m, .applyComplete m, .activateFirmware sig, .pldmSensorRequest x, .getVersion,
      .getCapabilities, .negotiateAlgorithms, .getDigests, .getCertificate, .challenge, .getMeasurements] →
    exec i s = .next s) ∧
  (∀ s : State, held s = false → exec .queryDeviceIdentifiers s = .next (respond s (pldmOk :: leBytes 8 Config.uniqueId)) ∧
    exec .getStatus s = .next (respond s [pldmOk, BitVec.ofNat 8 (if s.pwr.session.owner = 2 then s.pwr.session.phase else 0)])) ∧
  (∀ s : State, held s = false →
    exec .getFirmwareParameters s = .next (respond s (pldmOk :: leBytes 2 0x0001 ++ slice (slotBytes s (bootNow s).active) 2 2 ++
      (if (bootNow s).pending < 2 then slice (slotBytes s (bootNow s).pending) 2 2 else zeros 2)))) ∧
  (∀ s : State, held s = false → s.pwr.session.owner = 0 →
    exec .requestUpdate s = .next (respond { s with pwr.session := { owner := 2, phase := 1, since := s.time } } (pldmOk :: leBytes 4 4096))) ∧
  (∀ s : State, held s = false → s.pwr.session.owner ≠ 0 → exec .requestUpdate s = .next (respond s [pldmAlready])) ∧
  (∀ s : State, held s = false → s.pwr.session.owner = 2 → exec .cancelUpdate s = .next (respond (endSession s) [pldmOk])) ∧
  (∀ s : State, held s = false → s.pwr.session.owner ≠ 2 → exec .cancelUpdate s = .next (respond s [pldmNotInUpdate])) ∧
  (∀ (s : State) (m : MgmtReq), inPhase s 1 = true → held s = false →
    exec (.passComponentTable m) s = .next (respond (if m.ok then toPhase s 2 else s) [pldmOk, if m.ok then 0 else 1])) ∧
  (∀ (s : State) (m : MgmtReq), inPhase s 2 = true → held s = false →
    exec (.updateComponent m) s = .next (respond (if m.ok then toPhase s 3 else s) [pldmOk, if m.ok then 0 else 1])) ∧
  (∀ (s : State) (m : MgmtReq), inPhase s 3 = true → held s = false → m.bytes.length ≤ 4096 → m.offset + m.bytes.length ≤ 16777216 →
    exec (.requestFirmwareData m) s =
      .next (respond { writeSlot s 0 m.offset m.bytes with pwr.session := { s.pwr.session with since := s.time } } [pldmOk])) ∧
  (∀ (s : State) (m : MgmtReq), inPhase s 3 = true → held s = false → (4096 < m.bytes.length ∨ 16777216 < m.offset + m.bytes.length) →
    exec (.requestFirmwareData m) s = .next (respond s [pldmLength])) ∧
  (∀ (s : State) (m : MgmtReq), inPhase s 3 = true → held s = false →
    exec (.transferComplete m) s = .next (respond (if m.ok then toPhase s 4 else endSession s) [pldmOk])) ∧
  (∀ (s : State) (m : MgmtReq), inPhase s 4 = true → held s = false →
    exec (.verifyComplete m) s = .next (respond (toPhase s (if m.ok then 5 else 2)) [pldmOk])) ∧
  (∀ (s : State) (m : MgmtReq), inPhase s 5 = true → held s = false →
    exec (.applyComplete m) s = .next (respond (toPhase s 2) [pldmOk, if m.ok then 0 else 1])) ∧
  (∀ (s u : State) (sig : Bool) (st : Nat), inPhase s 2 = true → held s = false → activate (endSession s) sig = (st, u) →
    exec (.activateFirmware sig) s = .next (respond u (if st = St.ok then [pldmOk] else pldmError :: leBytes 2 st))) ∧
  (∀ (i : Instr) (k : Nat) (s : State) (m : MgmtReq) (sig : Bool), held s = false →
    (k, i) ∈ [(1, .passComponentTable m), (2, .updateComponent m), (3, .requestFirmwareData m), (3, .transferComplete m), (4, .verifyComplete m),
      (5, .applyComplete m), (2, .activateFirmware sig)] →
    (s.pwr.session.owner ≠ 2 → exec i s = .next (respond s [pldmNotInUpdate])) ∧
    (s.pwr.session.owner = 2 → s.pwr.session.phase ≠ k → exec i s = .next (respond s [pldmState]))) ∧
  (∀ s : State, held s = false →
    exec (.pldmSensorRequest .state) s = .next (respond s [pldmOk, BitVec.ofNat 8 s.ink.state.toNat])) ∧
  (∀ (s : State) (u : Nat), held s = false → s.ink.state ≠ stMinimal → u < 8 → unitUp s .fast u = true →
    exec (.pldmSensorRequest (.site u)) s = .next (respond s [pldmOk, BitVec.ofNat 8 (intBits 8 (thermalOf s .fast u).temp)])) ∧
  (∀ (s : State) (u : Nat), held s = false → s.ink.state ≠ stMinimal → u < 16 → unitUp s .cap u = true →
    exec (.pldmSensorRequest (.port u)) s = .next (respond s [pldmOk, BitVec.ofNat 8 (intBits 8 (thermalOf s .cap u).temp)])) ∧
  (∀ s : State, held s = false → s.ink.state ≠ stMinimal → s.pwr.watts ≠ [] →
    exec (.pldmSensorRequest .power) s = .next (respond s (pldmOk :: leBytes 2 (min 65535 (s.pwr.watts.sum / s.pwr.watts.length))))) ∧
  (∀ s : State, held s = false → s.ink.state ≠ stMinimal → s.pwr.watts = [] →
    exec (.pldmSensorRequest .power) s = .next (respond (freeWord s).2 (pldmOk :: leBytes 2 ((freeWord s).1.toNat % 65536)))) ∧
  (∀ (s : State) (u : Nat), held s = false → s.ink.state = stMinimal →
    exec (.pldmSensorRequest .power) s = .next (respond s [pldmNotInUpdate]) ∧ exec (.pldmSensorRequest (.site u)) s = .next (respond s [pldmNotInUpdate]) ∧
      exec (.pldmSensorRequest (.port u)) s = .next (respond s [pldmNotInUpdate])) ∧
  (∀ (i : Instr) (n : Nat) (s u : State) (b : List Byte), held s = false →
    (n, i) ∈ [(0, .getVersion), (16, .getCapabilities), (32, .negotiateAlgorithms), (48, .getDigests), (64, .getCertificate), (96, .challenge)] →
    freeBytes s n = (b, u) → exec i s = .next (respond u (0x13 :: b))) ∧
  (∀ (s u : State) (rom lic : List Byte), held s = false → imageRuns s = true → freeBytes s 4 = (rom, u) →
    lic = sha384 (((s.pwr.licences.filter (fun l => l.sigOk && l.unique == Config.uniqueId)).map (fun l => l.raw)).flatten) →
    exec .getMeasurements s = .next (respond u ([0x13, 3] ++ rom ++ slice (slotBytes s s.pwr.runSlot) 16 48 ++ lic))) ∧
  (∀ (s u v : State) (rom img lic : List Byte), held s = false → imageRuns s = false → freeBytes s 4 = (rom, u) → freeBytes u 48 = (img, v) →
    lic = sha384 (((s.pwr.licences.filter (fun l => l.sigOk && l.unique == Config.uniqueId)).map (fun l => l.raw)).flatten) →
    exec .getMeasurements s = .next (respond v ([0x13, 3] ++ rom ++ img ++ lic))) ∧
  (∀ s : State, exec .bypass s = .next (testPort s 0 0) ∧ exec .samplePreload s = .next (testPort s 2 0)) ∧
  (∀ s : State, ∃ t, exec .idcode s = .next t ∧ t.pwr.testIr = 1 ∧ t.pwr.testDr.getLsbD 0 = true ∧ t.pwr.testDr.extractLsb' 12 16 = 0xB880 ∧
    t.pwr.testDr.extractLsb' 28 4 = 1 ∧ t.pwr.testDr.extractLsb' 1 11 = Config.jtagManufacturer ∧ t = { s with pwr.testIr := t.pwr.testIr, pwr.testDr := t.pwr.testDr }) ∧
  (∀ s : State, strapTest s = true → exec .extest s = .next (testPort s 3 0) ∧ exec .clamp s = .next (testPort s 4 0) ∧
    exec .highz s = .next (testPort s 5 0)) ∧
  (∀ s : State, strapTest s = false → exec .extest s = .next (testPort s 0 0) ∧ exec .clamp s = .next (testPort s 0 0) ∧
    exec .highz s = .next (testPort s 0 0))

/-- The commands and events of observation (R425, R428, R438, R439, R441, R443, R444, R445, R446, R448, R451).
OBS_COUNTERS, OBS_LATCH_READ, OBS_PROG_READ, OBS_RANGE_READ and OBS_BLOTTER_READ write their records; the settings commands store what they name and
refuse a field outside its range with INVALID_FIELD, a unit that does not exist with UNIT_INVALID, and a trace, digest or step whose claim is not held with NOT_CLAIMED. A
trace instance is configured, started, stopped and flushed; a burst drains when it is due and its bucket is not empty, records before the write offset that
covers them. OBS_DIGEST writes the digest of its range, with POISONED where a granule is, and OBS_DIGEST_ARM sets, disarms or reads an armed digest. Single-step
mode is entered with the claim and without composition, releases a count of commands, and posts OBS_STEP once a released command outlasts its limit. A freeze
names one partition or the device. Logs 16, 24, 90, 91 and 92. -/
def Obligations.ObservationRows : Prop :=
  (∀ (c : Cmd) (s a v : State) (b : List Byte) (st : Nat), Begun { op := 0x0C0A, need := 32, part := some 17 } c s a → p8 c 17 ≤ 3 →
    configured a (p8 c 17) = true → p8 c 16 ≤ 6 → p64 c 8 ≠ 0 → p64 c 8 ≤ 1099511627776 → p64 c 8 % 64 = 0 → p64 c 0 % 64 = 0 → isDpa (p64 c 0) = true →
    digestOwner a (p8 c 17) c.fn = true → digestHeld a (p8 c 17) (p64 c 0) (p64 c 8) = false →
    digestTake a (p8 c 17) (p64 c 0) (p64 c 8) (p8 c 16) = (st, b, v) →
    (st = St.poisoned → hostOk v (p64 c 24) b.length = true → exec (.obsDigest c) s = .next (complete (hostStore v (p64 c 24) b) c St.poisoned [])) ∧
    (st ≠ St.ok → st ≠ St.poisoned → exec (.obsDigest c) s = .next (complete v c st []))) ∧
  (∀ (c : Cmd) (s a : State) (b : List Byte), Begun { op := 0x0C01, need := 16, part := some 0 } c s a → p8 c 0 ≤ 3 →
    b = leBytes 8 (stamp a).toNat ++ ((counters a (p8 c 0)).map (fun v => leBytes 8 v.toNat)).flatten → hostOk a (p64 c 8) b.length = true →
    Completes (.obsCounters c) c s (hostStore a (p64 c 8) b) []) ∧
  (∀ (c : Cmd) (s a : State), Begun { op := 0x0C01, need := 16, part := some 0 } c s a → 3 < p8 c 0 →
    exec (.obsCounters c) s = .next (complete a c St.invalidField [])) ∧
  (∀ (c : Cmd) (s a : State) (b : List Byte), Begun { op := 0x0C02, need := 16, part := some 0 } c s a → p8 c 0 ≤ 3 → p8 c 1 ≤ 31 →
    b = latchRecord (queueOf a (p8 c 0) (p8 c 1)).latch → hostOk a (p64 c 8) b.length = true →
    Completes (.obsLatchRead c) c s (hostStore a (p64 c 8) b) []) ∧
  (∀ (c : Cmd) (s a : State), Begun { op := 0x0C03, need := 16, refuse := unitRefused } c s a → unitValid a (p16 c 0) = true → p8 c 2 ≤ 7 →
    p16 c 8 / 4096 = p16 c 0 / 4096 → eventListed (p16 c 8) = true → (p8 c 10 ≤ 3 ∨ p8 c 10 = 15) →
    Completes (.obsProgConfig c) c s { a with obs.progs := mmod {} a.obs.progs (p16 c 0 * 8 + p8 c 2) (fun g => configProg g c) } []) ∧
  (∀ (c : Cmd) (s a : State), Begun { op := 0x0C02, need := 16, part := some 0 } c s a → (3 < p8 c 0 ∨ 31 < p8 c 1) →
    exec (.obsLatchRead c) s = .next (complete a c St.invalidField [])) ∧
  (∀ (c : Cmd) (s a : State), Begun { op := 0x0C03, need := 16, refuse := unitRefused } c s a → unitValid a (p16 c 0) = true →
    (7 < p8 c 2 ∨ p16 c 8 / 4096 ≠ p16 c 0 / 4096 ∨ eventListed (p16 c 8) = false ∨ (3 < p8 c 10 ∧ p8 c 10 ≠ 15)) →
    exec (.obsProgConfig c) s = .next (complete a c St.invalidField [])) ∧
  (∀ (c : Cmd) (s a : State), Begun { op := 0x0C03, need := 16, refuse := unitRefused } c s a → unitValid a (p16 c 0) = false →
    exec (.obsProgConfig c) s = .next (complete a c St.unitInvalid [])) ∧
  (∀ (c : Cmd) (s a : State) (b : List Byte), Begun { op := 0x0C04, need := 16, refuse := unitRefused } c s a → unitValid a (p16 c 0) = true →
    b = ((List.range 8).map (fun k =>
      leBytes 8 (mget {} a.obs.progs (p16 c 0 * 8 + k)).live.toNat ++ leBytes 8 (mget {} a.obs.progs (p16 c 0 * 8 + k)).start.toNat ++
        leBytes 8 (mget {} a.obs.progs (p16 c 0 * 8 + k)).stop.toNat)).flatten → hostOk a (p64 c 8) b.length = true →
    Completes (.obsProgRead c) c s (hostStore a (p64 c 8) b) []) ∧
  (∀ (c : Cmd) (s a : State), Begun { op := 0x0C05, need := 18, refuse := traceRefused } c s a → p8 c 0 ≤ 5 →
    (p8 c 4 = 0 ∨ (10 ≤ p8 c 4 ∧ p8 c 4 ≤ 24)) → p8 c 5 ≤ 15 → 16 ≤ p8 c 17 → p8 c 17 ≤ 30 → p64 c 8 % 64 = 0 →
    (bit (p8 c 16) 0 = true ∨ isDpa (p64 c 8) = true) → traceClaimed a (p8 c 0) c.fn = true →
    Completes (.obsTraceConfig c) c s (setTrace a (p8 c 0) { mget {} a.obs.traces (p8 c 0) with
      configured := true,
      stopMode := bit (p8 c 1) 0,
      types := BitVec.ofNat 16 (p16 c 2),
      pcPeriod := p8 c 4,
      tagBits := p8 c 5,
      opMask := BitVec.ofNat 16 (p16 c 6),
      ring := p64 c 8,
      host := bit (p8 c 16) 0,
      log2 := p8 c 17,
      wr := 64 }) []) ∧
  (∀ (c : Cmd) (s a : State), Begun { op := 0x0C05, need := 18, refuse := traceRefused } c s a →
    (5 < p8 c 0 ∨ (p8 c 4 ≠ 0 ∧ (p8 c 4 < 10 ∨ 24 < p8 c 4)) ∨ 15 < p8 c 5 ∨ p8 c 17 < 16 ∨ 30 < p8 c 17) →
    exec (.obsTraceConfig c) s = .next (complete a c St.invalidField [])) ∧
  (∀ (c : Cmd) (s a : State), Begun { op := 0x0C05, need := 18, refuse := traceRefused } c s a → p8 c 0 ≤ 5 →
    (p8 c 4 = 0 ∨ (10 ≤ p8 c 4 ∧ p8 c 4 ≤ 24)) → p8 c 5 ≤ 15 → 16 ≤ p8 c 17 → p8 c 17 ≤ 30 →
    ((p64 c 8 % 64 ≠ 0 ∨ (bit (p8 c 16) 0 = false ∧ isDpa (p64 c 8) = false)) → exec (.obsTraceConfig c) s = .next (complete a c St.badAddress [])) ∧
    (p64 c 8 % 64 = 0 → (bit (p8 c 16) 0 = true ∨ isDpa (p64 c 8) = true) → traceClaimed a (p8 c 0) c.fn = false →
      exec (.obsTraceConfig c) s = .next (complete a c St.notClaimed []))) ∧
  (∀ (c : Cmd) (s a : State), Begun { op := 0x0C06, need := 2, refuse := traceRefused } c s a → (5 < p8 c 0 ∨ p8 c 1 = 0 ∨ 3 < p8 c 1) →
    exec (.obsTraceControl c) s = .next (complete a c St.invalidField [])) ∧
  (∀ (c : Cmd) (s a : State), Begun { op := 0x0C06, need := 2, refuse := traceRefused } c s a → p8 c 0 ≤ 5 → p8 c 1 = 1 →
    traceClaimed a (p8 c 0) c.fn = true → (mget {} a.obs.traces (p8 c 0)).configured = true →
    Completes (.obsTraceControl c) c s (setTrace a (p8 c 0) { mget {} a.obs.traces (p8 c 0) with recording := true }) []) ∧
  (∀ (c : Cmd) (s a : State), Begun { op := 0x0C06, need := 2, refuse := traceRefused } c s a → p8 c 0 ≤ 5 → p8 c 1 = 1 →
    traceClaimed a (p8 c 0) c.fn = false → exec (.obsTraceControl c) s = .next (complete a c St.notClaimed [])) ∧
  (∀ (c : Cmd) (s a : State), Begun { op := 0x0C06, need := 2, refuse := traceRefused } c s a → p8 c 0 ≤ 5 → p8 c 1 = 2 →
    (mget {} a.obs.traces (p8 c 0)).configured = true → Completes (.obsTraceControl c) c s (stopTrace a (p8 c 0) 2) []) ∧
  (∀ (c : Cmd) (s a : State), Begun { op := 0x0C06, need := 2, refuse := traceRefused } c s a → p8 c 0 ≤ 5 → p8 c 1 = 3 →
    (mget {} a.obs.traces (p8 c 0)).configured = true → (mget {} a.obs.traces (p8 c 0)).pend ≠ [] →
    Waits (.obsTraceControl c) 0x0C06 c s a (.flush (p8 c 0))) ∧
  (∀ (c : Cmd) (s a : State), Begun { op := 0x0C06, need := 2, refuse := traceRefused } c s a → p8 c 0 ≤ 5 → p8 c 1 = 3 →
    (mget {} a.obs.traces (p8 c 0)).configured = true → (mget {} a.obs.traces (p8 c 0)).pend = [] →
    Completes (.obsTraceControl c) c s a []) ∧
  (∀ (c : Cmd) (s a : State), Begun { op := 0x0C06, need := 2, refuse := traceRefused } c s a → p8 c 0 ≤ 5 → p8 c 1 ≠ 0 → p8 c 1 ≤ 3 →
    (p8 c 1 = 1 → traceClaimed a (p8 c 0) c.fn = true) → (mget {} a.obs.traces (p8 c 0)).configured = false → exec (.obsTraceControl c) s = .next (complete a c St.traceUnconfigured [])) ∧
  (∀ (c : Cmd) (s a : State) (l : List Nat), Begun { op := 0x0C07, need := 9, part := some 0 } c s a → p8 c 0 ≤ 3 →
    l = (List.range 8).map (fun k => p8 c (1 + k)) → l.any (fun i => decide (i > 47)) = false →
    Completes (.obsRangeSelect c) c s { a with obs.select := mput a.obs.select (p8 c 0) l } []) ∧
  (∀ (c : Cmd) (s a : State), Begun { op := 0x0C07, need := 9, part := some 0 } c s a →
    (3 < p8 c 0 ∨ ((List.range 8).map (fun k => p8 c (1 + k))).any (fun i => decide (i > 47)) = true) →
    exec (.obsRangeSelect c) s = .next (complete a c St.invalidField [])) ∧
  (∀ (c : Cmd) (s a : State) (b : List Byte), Begun { op := 0x0C08, need := 16, part := some 0 } c s a → p8 c 0 ≤ 3 →
    b = padTo 4096 (mget [] a.obs.ranges (p8 c 0)).flatten → hostOk a (p64 c 8) 4096 = true →
    Completes (.obsRangeRead c) c s (hostStore a (p64 c 8) b) []) ∧
  (∀ (c : Cmd) (s a : State) (w : Watch), Begun { op := 0x0C09, need := 24, part := some 0 } c s a → p8 c 0 ≤ 3 → p8 c 1 ≤ 63 → p64 c 8 % 64 = 0 →
    p64 c 16 % 64 = 0 → (bit (p16 c 2) 11 = false ∨ stepClaimed a (p8 c 0) c.fn = true) → w = { bits := BitVec.ofNat 16 (p16 c 2), base := p64 c 8, len := p64 c 16 } →
    Completes (.obsWatchSet c) c s { a with obs.watches := mput a.obs.watches (p8 c 0 * 64 + p8 c 1) w } []) ∧
  (∀ (c : Cmd) (s a : State), Begun { op := 0x0C09, need := 24, part := some 0 } c s a → p8 c 0 ≤ 3 → p8 c 1 ≤ 63 → p64 c 8 % 64 = 0 →
    p64 c 16 % 64 = 0 → bit (p16 c 2) 11 = true → stepClaimed a (p8 c 0) c.fn = false →
    exec (.obsWatchSet c) s = .next (complete a c St.notClaimed [])) ∧
  (∀ (c : Cmd) (s a v : State) (b : List Byte), Begun { op := 0x0C0A, need := 32, part := some 17 } c s a → p8 c 17 ≤ 3 →
    configured a (p8 c 17) = true → p8 c 16 ≤ 6 → p64 c 8 ≠ 0 → p64 c 8 ≤ 1099511627776 → p64 c 8 % 64 = 0 → p64 c 0 % 64 = 0 → isDpa (p64 c 0) = true →
    digestOwner a (p8 c 17) c.fn = true → digestHeld a (p8 c 17) (p64 c 0) (p64 c 8) = false → (digestTake a (p8 c 17) (p64 c 0) (p64 c 8) (p8 c 16)).1 = St.ok →
    b = (digestTake a (p8 c 17) (p64 c 0) (p64 c 8) (p8 c 16)).2.1 → v = (digestTake a (p8 c 17) (p64 c 0) (p64 c 8) (p8 c 16)).2.2 →
    hostOk v (p64 c 24) b.length = true → Completes (.obsDigest c) c s (hostStore v (p64 c 24) b) []) ∧
  (∀ (c : Cmd) (s a : State), Begun { op := 0x0C0A, need := 32, part := some 17 } c s a → p8 c 17 ≤ 3 →
    configured a (p8 c 17) = true → p8 c 16 ≤ 6 → p64 c 8 ≠ 0 → p64 c 8 ≤ 1099511627776 → p64 c 8 % 64 = 0 → p64 c 0 % 64 = 0 → isDpa (p64 c 0) = true →
    digestOwner a (p8 c 17) c.fn = false → exec (.obsDigest c) s = .next (complete a c St.notClaimed [])) ∧
  (∀ (c : Cmd) (s a : State) (g : ArmedDigest), Begun { op := 0x0C0B, need := 40, part := some 0 } c s a → p8 c 0 ≤ 3 → p8 c 1 ≤ 7 →
    bit (p8 c 2) 1 = false → bit (p8 c 2) 0 = true → configured a (p8 c 0) = true → p8 c 24 ≤ 6 → p64 c 16 ≠ 0 → p64 c 16 ≤ 1099511627776 →
    p64 c 16 % 64 = 0 → p64 c 8 % 64 = 0 → isDpa (p64 c 8) = true → digestOwner a (p8 c 0) c.fn = true →
    g = { enabled := true, marker := BitVec.ofNat 32 (p32 c 4), dpa := p64 c 8, len := p64 c 16, format := p8 c 24 } →
    Completes (.obsDigestArm c) c s { a with obs.digests := mput a.obs.digests (p8 c 0 * 8 + p8 c 1) g } []) ∧
  (∀ (c : Cmd) (s a : State) (g : ArmedDigest), Begun { op := 0x0C0B, need := 40, part := some 0 } c s a → p8 c 0 ≤ 3 → p8 c 1 ≤ 7 →
    bit (p8 c 2) 1 = false → bit (p8 c 2) 0 = false → g = { mget {} a.obs.digests (p8 c 0 * 8 + p8 c 1) with enabled := false } →
    Completes (.obsDigestArm c) c s { a with obs.digests := mput a.obs.digests (p8 c 0 * 8 + p8 c 1) g } []) ∧
  (∀ (c : Cmd) (s a : State), Begun { op := 0x0C0B, need := 40, part := some 0 } c s a → p8 c 0 ≤ 3 → p8 c 1 ≤ 7 → bit (p8 c 2) 1 = true →
    hostOk a (p64 c 32) 64 = true →
    exec (.obsDigestArm c) s = .next (complete (hostStore a (p64 c 32) (slice (mget {} a.obs.digests (p8 c 0 * 8 + p8 c 1)).result 2 64)) c
      (fieldN (mget {} a.obs.digests (p8 c 0 * 8 + p8 c 1)).result 0 2) [])) ∧
  (∀ (c : Cmd) (s a : State), Begun { op := 0x0C0C, need := 4, part := some 0 } c s a → p8 c 0 ≤ 3 → p8 c 1 = 1 → p16 c 2 ≠ 0 →
    stepClaimed a (p8 c 0) c.fn = false → exec (.obsStepMode c) s = .next (complete a c St.notClaimed [])) ∧
  (∀ (c : Cmd) (s a : State), Begun { op := 0x0C0C, need := 4, part := some 0 } c s a → p8 c 0 ≤ 3 → p8 c 1 = 1 → p16 c 2 ≠ 0 →
    stepClaimed a (p8 c 0) c.fn = true → (mget {} a.stp.comps (p8 c 0)).enabled = false →
    Completes (.obsStepMode c) c s { a with obs.single := mput a.obs.single (p8 c 0) (p16 c 2) } []) ∧
  (∀ (c : Cmd) (s a : State), Begun { op := 0x0C0C, need := 4, part := some 0 } c s a → p8 c 0 ≤ 3 → p8 c 1 = 1 → p16 c 2 ≠ 0 →
    stepClaimed a (p8 c 0) c.fn = true → (mget {} a.stp.comps (p8 c 0)).enabled = true →
    exec (.obsStepMode c) s = .next (complete a c St.obsBusy [])) ∧
  (∀ (c : Cmd) (s a : State), Begun { op := 0x0C0C, need := 4, part := some 0 } c s a → p8 c 0 ≤ 3 → p8 c 1 = 0 →
    Completes (.obsStepMode c) c s (stepOff a (p8 c 0)) []) ∧
  (∀ (c : Cmd) (s a : State) (lim : Nat), Begun { op := 0x0C0D, need := 9, part := some 0 } c s a → p8 c 0 ≤ 3 → p8 c 8 ≠ 0 →
    mfind a.obs.single (p8 c 0) = some lim →
    Completes (.obsStepNext c) c s ((bitList 32 (p32 c 4)).foldl
      (fun s q => startNext (setQueue s (p8 c 0) q { queueOf s (p8 c 0) q with released := p8 c 8 }) (p8 c 0) q) a) []) ∧
  (∀ (c : Cmd) (s a : State), Begun { op := 0x0C0D, need := 9, part := some 0 } c s a → p8 c 0 ≤ 3 → p8 c 8 ≠ 0 →
    mfind a.obs.single (p8 c 0) = none → exec (.obsStepNext c) s = .next (complete a c St.notStepping [])) ∧
  (∀ (c : Cmd) (s a : State), Begun { op := 0x0C0E, need := 16, refuse := unitRefused } c s a → unitValid a (p16 c 0) = false →
    exec (.obsBlotterRead c) s = .next (complete a c St.unitInvalid [])) ∧
  (∀ (c : Cmd) (s a : State), Begun { op := 0x0C0E, need := 16, refuse := unitRefused } c s a → unitValid a (p16 c 0) = true →
    hostOk a (p64 c 8) (blotterBytes a (p16 c 0)).length = true →
    Completes (.obsBlotterRead c) c s (hostStore a (p64 c 8) (blotterBytes a (p16 c 0))) []) ∧
  (∀ (c : Cmd) (s a : State), Begun { op := 0x0C0F, need := 2, part := some 1 } c s a → p8 c 0 = 1 → (p8 c 1 ≤ 3 ∨ p8 c 1 = 255) →
    Completes (.obsFreeze c) c s (freeze a (p8 c 1) 0) []) ∧
  (∀ (c : Cmd) (s a : State), Begun { op := 0x0C0F, need := 2, part := some 1 } c s a → p8 c 0 = 2 → (p8 c 1 ≤ 3 ∨ p8 c 1 = 255) →
    Completes (.obsFreeze c) c s (thaw a (p8 c 1)) []) ∧
  (∀ (c : Cmd) (s a : State), Begun { op := 0x0C0F, need := 2, part := some 1 } c s a → (p8 c 0 = 3 ∨ p8 c 0 = 4) → p8 c 1 ≤ 3 →
    Completes (.obsFreeze c) c s { a with obs.freezeOnFault := mput a.obs.freezeOnFault (p8 c 1) (p8 c 0 == 3) } []) ∧
  (∀ (s : State) (n p q : Nat), (coreOf s n).job = some (p, q) → n < coreCount s →
    (mget {} s.obs.traces (coreQuad s n)).pcPeriod ≠ 0 →
    ((coreOf s n).run = .running ∨ ((coreOf s n).run = .halted ∧ ((coreOf s n).stores ≠ [] ∨ (coreOf s n).xwrs ≠ []))) →
    exec (.pcSample n) s = .next (traceAt s (coreQuad s n) 0x01 n (some p)
      (leBytes 4 (coreOf s n).pc ++ [BitVec.ofNat 8 (stallState (coreOf s n)), BitVec.ofNat 8 p, BitVec.ofNat 8 q, 0] ++
        leBytes 4 (match (queueOf s p q).cur with | some x => x.index | none => 0)) false)) ∧
  (∀ (s : State) (n : Nat), ((coreOf s n).job = none ∨ (mget {} s.obs.traces (coreQuad s n)).pcPeriod = 0) → exec (.pcSample n) s = .next s) ∧
  (∀ (s : State) (i : Nat), burstDue s i (mget {} s.obs.traces i) = true → 0 < mget 0 s.svc.trace (traceTier (mget {} s.obs.traces i)) →
    exec (.traceDrainBurst i) s = .next (drainNow s i)) ∧
  (∀ (s : State) (i : Nat), (burstDue s i (mget {} s.obs.traces i) = false ∨ mget 0 s.svc.trace (traceTier (mget {} s.obs.traces i)) ≤ 0) →
    exec (.traceDrainBurst i) s = .next s) ∧
  (∀ (s : State) (i : Nat), (mget {} s.obs.traces i).configured = false ∨ (mget {} s.obs.traces i).pend = [] → drainNow s i = s) ∧
  (∀ (s u v w : State) (i rd wr : Nat) (t : Trace) (rb : List Byte) (ps : List (Nat × List Byte)), t = mget {} s.obs.traces i → t.configured = true →
    t.pend ≠ [] → ringRead s i t 8 8 = some (rb, u) → rd = (if leNat rb < 64 ∨ leNat rb > 2 ^ t.log2 then 64 else leNat rb) →
    placeRecords (2 ^ t.log2) (burstOf 4096 t.pend) t.wr rd = (ps, wr, []) → writeRing u i t ps wr = some v →
    t.pend.drop (burstOf 4096 t.pend).length ≠ [] → w = (if t.host then chargeTrace v 0 ((ps.map (fun e => e.2.length)).sum) else v) →
    drainNow s i = setTrace w i { t with pend := t.pend.drop (burstOf 4096 t.pend).length, wr := wr }) ∧
  (∀ (s : State) (p q lim : Nat) (x : CurCmd), mfind s.obs.single p = some lim → (queueOf s p q).cur = some x → x.freed = true → x.late = false →
    x.status = none → x.since.toNat + lim * 65536 < (stamp s).toNat →
    exec (.stepLimitTimeout p q) s =
      .next (stepEvent (setQueue s p q { queueOf s p q with cur := some { x with late := true } }) p q 1 0 x.index)) ∧
  (∀ (s : State) (p q lim : Nat) (x : CurCmd), mfind s.obs.single p = some lim → (queueOf s p q).cur = some x →
    (x.freed = false ∨ x.late = true ∨ x.status.isSome = true ∨ (stamp s).toNat ≤ x.since.toNat + lim * 65536) → exec (.stepLimitTimeout p q) s = .next s) ∧
  (∀ (s : State) (p q : Nat), (mfind s.obs.single p = none ∨ (queueOf s p q).cur = none) → exec (.stepLimitTimeout p q) s = .next s)

/-- R107: the fold of a DPA is the exclusive or of its four 10-bit fields, and in every 256 KiB block, where DPA[47:18] is fixed, it takes
each of its 1,024 values at exactly one granule. -/
def Obligations.FoldTakesEachValueOnce : Prop :=
  (∀ dpa : BitVec 48, foldOf dpa.toNat = (dpa.extractLsb 17 8 ^^^ dpa.extractLsb 27 18 ^^^ dpa.extractLsb 37 28 ^^^ dpa.extractLsb 47 38).toNat) ∧
  (∀ hi v : Nat, hi < 2 ^ 30 → v < 1024 →
    (∃ g, g < 1024 ∧ foldOf (hi * 2 ^ 18 + g * 256) = v ∧ ∀ g', g' < 1024 → foldOf (hi * 2 ^ 18 + g' * 256) = v → g' = g))

/-- R150: a write of all 64 B of a granule stores POISON as the data carries it: at a channel that is not FAILED, with the data's check word, and in the
staging cache, where the write lands in it, as the sector's flag. Writes of window, stream and folded regions, and one whose set has no room, go to the channel. -/
def Obligations.FullGranuleWriteSetsPoison : Prop :=
  (∀ (s : State) (p : Place) (dpa : Nat) (d : List Byte) (poison : Bool) (rq : Nat) (part cls : Option Nat),
    Safe s → (chanOf s p.tier p.chan).failed = false → p.chan < 256 → p.off + 64 ≤ 2 ^ 40 → d.length = 64 →
    storedData (chanWrite s p dpa d poison rq part cls) (cellKey p) = d ∧
      storedCheck (chanWrite s p dpa d poison rq part cls) (cellKey p) = checkWord d poison ∧
      (checkWord d poison).head? = some (if poison then 1 else 0)) ∧
  (∀ (s : State) (rq : Requester) (dpa : Nat) (d : List Byte) (poison : Bool) (p : Place) (e cls : Nat),
    accessStatus s rq dpa = St.ok → locate s dpa = some (p, e) → eWindow e = false → eStream e = false → eFolded e = false → d.length = 64 →
    (lineFind s dpa).isSome = true ∨ (makeRoom s (chanDie p.tier p.chan) (dpa / 256) (some cls)).isSome = true →
    (writeGranule s rq dpa d poison cls).1 = St.ok ∧
      sectorFind (writeGranule s rq dpa d poison cls).2 dpa = some { data := d, dirty := true, poison := poison }) ∧
  (∀ (s : State) (rq : Requester) (dpa : Nat) (d : List Byte) (poison : Bool) (p : Place) (e cls : Nat),
    accessStatus s rq dpa = St.ok → locate s dpa = some (p, e) → d.length = 64 →
    (eWindow e = true ∨ eStream e = true ∨ eFolded e = true ∨
      ((lineFind s dpa).isSome = false ∧ (makeRoom s (chanDie p.tier p.chan) (dpa / 256) (some cls)).isSome = false)) →
    ∃ u, writeGranule s rq dpa d poison cls = (St.ok, chanWrite u p dpa d poison (rqCode rq) (rqPart rq) (some cls)) ∧ u.svc.chans = s.svc.chans)
end

