-- ==== Sys2Proof/Laws/Cells.lean ====
section
/-! SUPPORT. The laws of byte memories as sorted lists of cells: a read after a write, and the canonical form. -/

set_option linter.all false
namespace Sys2Proof.Machine

theorem cellWfFrom_cons (d : Nat → Byte) (lo : Option Nat) (j : Nat) (w : Byte) (r : List Host.Cell) :
    cellWfFrom d lo ((j, w) :: r) = true ↔ (∀ l, lo = some l → l < j) ∧ w ≠ d j ∧ cellWfFrom d (some j) r = true := by
  cases lo
  · rw [cellWfFrom]
    simp
  · rw [cellWfFrom]
    simp [and_assoc]

theorem cellWfFrom_put (d : Nat → Byte) (a : Nat) (b : Byte) :
    ∀ (m : List Host.Cell) (lo : Option Nat), (∀ l, lo = some l → l < a) → cellWfFrom d lo m = true →
      cellWfFrom d lo (cellPut d m a b) = true
  | [], lo, hlo, _ => by
    unfold cellPut
    split
    · rfl
    · rename_i hb; exact (cellWfFrom_cons ..).2 ⟨hlo, hb, rfl⟩
  | (j, w) :: r, lo, hlo, h => by
    obtain ⟨h1, h2, h3⟩ := (cellWfFrom_cons ..).1 h
    unfold cellPut
    split
    · subst a
      split
      · cases r with
        | nil => rfl
        | cons e r' =>
          obtain ⟨h4, h5, h6⟩ := (cellWfFrom_cons ..).1 h3
          have := h4 j rfl
          exact (cellWfFrom_cons ..).2 ⟨fun l hl => by have := h1 l hl; omega, h5, h6⟩
      · rename_i hb; exact (cellWfFrom_cons ..).2 ⟨h1, hb, h3⟩
    · split
      · split
        · exact h
        · rename_i hb
          exact (cellWfFrom_cons ..).2 ⟨hlo, hb, (cellWfFrom_cons ..).2 ⟨by intro l hl; cases hl; assumption, h2, h3⟩⟩
      · exact (cellWfFrom_cons ..).2 ⟨h1, h2, cellWfFrom_put d a b r (some j) (by intro l hl; cases hl; omega) h3⟩

theorem cellWf_put (d : Nat → Byte) (m : List Host.Cell) (a : Nat) (b : Byte) (h : cellWf d m = true) :
    cellWf d (cellPut d m a b) = true :=
  cellWfFrom_put d a b m none (by simp) h

theorem cellWf_puts (d : Nat → Byte) (b : List Byte) :
    ∀ (m : List Host.Cell) (a : Nat), cellWf d m = true → cellWf d (cellPuts d m a b) = true := by
  induction b with
  | nil => intro m a h; exact h
  | cons x r ih => intro m a h; exact ih _ _ (cellWf_put d m a x h)

/-- Dropping cells keeps the canonical form. -/
theorem cellWfFrom_filter (d : Nat → Byte) (p : Host.Cell → Bool) :
    ∀ (m : List Host.Cell) (lo lo' : Option Nat), (∀ l', lo' = some l' → ∃ l, lo = some l ∧ l' ≤ l) → cellWfFrom d lo m = true →
      cellWfFrom d lo' (m.filter p) = true
  | [], _, _, _, _ => rfl
  | (j, w) :: r, lo, lo', hl, h => by
    obtain ⟨h1, h2, h3⟩ := (cellWfFrom_cons ..).1 h
    have hlt : ∀ l', lo' = some l' → l' < j := by
      intro l' e; obtain ⟨l, e1, e2⟩ := hl l' e; have := h1 l e1; omega
    simp only [List.filter_cons]
    split
    · exact (cellWfFrom_cons ..).2 ⟨hlt, h2, cellWfFrom_filter d p r (some j) (some j) (by simp) h3⟩
    · exact cellWfFrom_filter d p r (some j) lo' (by intro l' e; exact ⟨j, rfl, Nat.le_of_lt (hlt l' e)⟩) h3

/-- The canonical form depends on the default at the listed addresses only. -/
theorem cellWfFrom_congr (d d' : Nat → Byte) :
    ∀ (m : List Host.Cell) (lo : Option Nat), (∀ e ∈ m, d e.1 = d' e.1) → cellWfFrom d lo m = true → cellWfFrom d' lo m = true
  | [], _, _, _ => rfl
  | (j, w) :: r, lo, hd, h => by
    obtain ⟨h1, h2, h3⟩ := (cellWfFrom_cons ..).1 h
    exact (cellWfFrom_cons ..).2
      ⟨h1, fun e => h2 (e.trans (hd (j, w) (by simp)).symm), cellWfFrom_congr d d' r (some j) (fun x hx => hd x (by simp [hx])) h3⟩

theorem cellGet_put (d : Nat → Byte) (b : Byte) (a x : Nat) :
    ∀ (m : List Host.Cell) (lo : Option Nat), cellWfFrom d lo m = true →
      cellGet d (cellPut d m a b) x = if x = a then b else cellGet d m x
  | [], _, _ => by
    unfold cellPut
    by_cases hb : b = d a
    · by_cases hx : x = a <;> simp [hb, hx, cellGet]
    · by_cases hx : x = a
      · simp [hb, hx, cellGet]
      · simp [hb, hx, cellGet, Ne.symm hx]
  | (j, w) :: r, lo, h => by
    have h3 : cellWfFrom d (some j) r = true := ((cellWfFrom_cons ..).1 h).2.2
    have ih := cellGet_put d b a x r (some j) h3
    have low : ∀ y, y ≤ j → cellGet d r y = d y := by
      have gen : ∀ (r : List Host.Cell) (l y : Nat), cellWfFrom d (some l) r = true → y ≤ l → cellGet d r y = d y := by
        intro r
        induction r with
        | nil => intro l y _ _; rfl
        | cons e r ih2 =>
          obtain ⟨k, v⟩ := e
          intro l y hw hy
          obtain ⟨h1, _, h3⟩ := (cellWfFrom_cons ..).1 hw
          have := h1 l rfl
          have : ¬ k = y := by omega
          simp only [cellGet, this, if_false]
          exact ih2 k y h3 (by omega)
      intro y hy; exact gen r j y h3 hy
    unfold cellPut
    by_cases haj : a = j
    · subst haj
      by_cases hb : b = d a
      · by_cases hx : x = a
        · subst hx; simp [hb, low x (Nat.le_refl x)]
        · simp [hb, hx, cellGet, Ne.symm hx]
      · by_cases hx : x = a
        · simp [hb, hx, cellGet]
        · simp [hb, hx, cellGet, Ne.symm hx]
    · by_cases hlt : a < j
      · by_cases hb : b = d a
        · by_cases hx : x = a
          · subst hx; simp [hb, haj, hlt, cellGet, Ne.symm haj, low x (Nat.le_of_lt hlt)]
          · simp [hb, haj, hlt, hx]
        · by_cases hx : x = a
          · simp [haj, hlt, hb, hx, cellGet]
          · simp [haj, hlt, hb, hx, cellGet, Ne.symm hx]
      · simp only [haj, hlt, if_false, cellGet]
        by_cases hjx : j = x
        · subst hjx; simp [Ne.symm haj]
        · simp [hjx, ih]

/-- A byte reads as last written there, and every other byte as before. -/
theorem cellGet_cellPut (d : Nat → Byte) (m : List Host.Cell) (a x : Nat) (b : Byte) (h : cellWf d m = true) :
    cellGet d (cellPut d m a b) x = if x = a then b else cellGet d m x :=
  cellGet_put d b a x m none h

/-- A run of bytes reads back where it was stored, and every other byte as before. -/
theorem cellGet_cellPuts (d : Nat → Byte) (b : List Byte) :
    ∀ (m : List Host.Cell) (a x : Nat), cellWf d m = true →
      cellGet d (cellPuts d m a b) x = if h : a ≤ x ∧ x - a < b.length then b[x - a]'h.2 else cellGet d m x := by
  induction b with
  | nil => intro m a x _; simp [cellPuts]
  | cons y r ih =>
    intro m a x hw
    simp only [cellPuts]
    rw [ih _ _ _ (cellWf_put d m a y hw), cellGet_cellPut d m a x y hw]
    by_cases hx : x = a
    · subst hx
      simp only [dif_neg (show ¬ (x + 1 ≤ x ∧ x - (x + 1) < r.length) by omega), if_true]
      simp
    · by_cases h1 : a + 1 ≤ x ∧ x - (a + 1) < r.length
      · have h2 : a ≤ x ∧ x - a < (y :: r).length := by simp; omega
        have h3 : x - a = (x - (a + 1)) + 1 := by omega
        simp only [dif_pos h1, dif_pos h2]
        simp [h3]
      · have h2 : ¬ (a ≤ x ∧ x - a < (y :: r).length) := by simp; omega
        simp only [dif_neg h1, dif_neg h2, hx, if_false]

end Sys2Proof.Machine
end

