-- ==== Sys2Proof/Laws/Bytes.lean ====
section
/-! SUPPORT. Lengths of byte strings, and what a run of cells reads as after a run of bytes is stored. -/

set_option linter.all false
namespace Sys2Proof.Machine

@[simp] theorem leBytes_length (n v : Nat) : (leBytes n v).length = n := by
  induction n generalizing v with
  | zero => rfl
  | succ n ih => simp [leBytes, ih]

@[simp] theorem slice_length (l : List Byte) (off n : Nat) : (slice l off n).length = n := by
  simp [slice] <;> omega

@[simp] theorem padTo_length (n : Nat) (l : List Byte) : (padTo n l).length = n := slice_length l 0 n

/-- A string of the length asked is its own padding. -/
theorem padTo_self (l : List Byte) : padTo l.length l = l := by simp [padTo, slice]

theorem padTo_of_length {n : Nat} {l : List Byte} (h : l.length = n) : padTo n l = l := h ▸ padTo_self l

@[simp] theorem cellGets_length (d : Nat → Byte) (m : List Host.Cell) (a n : Nat) : (cellGets d m a n).length = n := by
  simp [cellGets]

/-- A run of bytes reads back as stored. -/
theorem cellGets_cellPuts (d : Nat → Byte) (m : List Host.Cell) (a : Nat) (b : List Byte) (h : cellWf d m = true) :
    cellGets d (cellPuts d m a b) a b.length = b := by
  apply List.ext_getElem
  · simp
  · intro i h1 h2
    simp only [cellGets, List.getElem_map, List.getElem_range]
    rw [cellGet_cellPuts d b m a (a + i) h]
    have : a ≤ a + i ∧ a + i - a < b.length := ⟨Nat.le_add_right _ _, by omega⟩
    rw [dif_pos this]
    congr 1
    omega

/-- A byte outside a stored run reads as before. -/
theorem cellGet_cellPuts_out (d : Nat → Byte) (m : List Host.Cell) (a x : Nat) (b : List Byte) (h : cellWf d m = true)
    (hx : x < a ∨ a + b.length ≤ x) : cellGet d (cellPuts d m a b) x = cellGet d m x := by
  rw [cellGet_cellPuts d b m a x h, dif_neg]
  omega

end Sys2Proof.Machine
end

