-- ==== Sys2Proof/Laws/Outer.lean ====
section
/-! SUPPORT. Recording, posting and completing change nothing but Inkwell, host memory and the observation block. -/
namespace Sys2Proof.Machine
open Sys2Proof

/-- The parts of a state that recording, posting and completing leave alone: all but Inkwell's registers and rings, host memory and the
observation block. -/
structure OuterParts (s0_ : State) (p : List Instr) (ti : Nat) (fr : Nat) (hf : List (Nat × Nat)) (ru : Ruling) (me : Mem) (sv : MemSvc)
    (ar : Arith) (fo : Fold) (cp : Compute) (sr : Serving) (st : StepBlock) (fl : Flourish) (du : Ductus) (pw : Power) : Prop where
  pending : p = s0_.pending
  time : ti = s0_.time
  free : fr = s0_.free
  hostFaults : hf = s0_.hostFaults
  rul : ru = s0_.rul
  mem : me = s0_.mem
  svc : sv = s0_.svc
  ari : ar = s0_.ari
  fold : fo = s0_.fold
  cpu : cp = s0_.cpu
  srv : sr = s0_.srv
  stp : st = s0_.stp
  flo : fl = s0_.flo
  duc : du = s0_.duc
  pwr : pw = s0_.pwr

structure Outer (s0_ s : State) : Prop where
  ok : OuterParts s0_ s.pending s.time s.free s.hostFaults s.rul s.mem s.svc s.ari s.fold s.cpu s.srv s.stp s.flo s.duc s.pwr

theorem Outer.refl (s : State) : Outer s s := ⟨⟨rfl, rfl, rfl, rfl, rfl, rfl, rfl, rfl, rfl, rfl, rfl, rfl, rfl, rfl, rfl⟩⟩

variable {s0_ : State}

theorem outer_mk {a1 a2 a3 h a4 a5 ink m a7 a8 a9 b1 b2 b3 b4 b5 b6 obs} :
    Outer s0_ (State.mk a1 a2 a3 h a4 a5 ink m a7 a8 a9 b1 b2 b3 b4 b5 b6 obs) =
      OuterParts s0_ a1 a2 a3 a4 a5 m a7 a8 a9 b1 b2 b3 b4 b5 b6 := propext ⟨fun x => x.ok, fun x => ⟨x⟩⟩
theorem outer_of {s : State} (h : Outer s0_ s) :
    OuterParts s0_ s.pending s.time s.free s.hostFaults s.rul s.mem s.svc s.ari s.fold s.cpu s.srv s.stp s.flo s.duc s.pwr := h.ok

theorem foldl_outer {α : Type} {f : State → α → State} {l : List α} {s : State} (h : Outer s0_ s)
    (hf : ∀ s x, Outer s0_ s → Outer s0_ (f s x)) : Outer s0_ (l.foldl f s) := by
  induction l generalizing s with
  | nil => exact h
  | cons x r ih => exact ih (hf s x h)

set_option linter.all false

theorem bump_outer (s : State) (p : Nat) (i : Nat) (n : Nat) (hs : Outer s0_ s) : Outer s0_ (bump s p i n) := by
  unfold bump
  try extract_lets
  repeat'
    (first | with_reducible assumption | (with_reducible show Outer _ _; simp -iota -zeta only [outer_mk])
           | with_reducible apply outer_of | with_reducible intro _ | extract_lets | split | dsimp +zetaDelta -iota only)

theorem prog_outer (s : State) (unit : Nat) (event : Nat) (part : Option Nat) (cls : Option Nat) (n : Nat) (hs : Outer s0_ s) : Outer s0_
    (prog s unit event part cls n) := by
  unfold prog
  try extract_lets
  repeat'
    (first | with_reducible assumption | (with_reducible show Outer _ _; simp -iota -zeta only [outer_mk])
           | with_reducible apply outer_of | with_reducible apply foldl_outer | with_reducible intro _ | extract_lets | split
           | dsimp +zetaDelta -iota only)

theorem blot_outer (s : State) (unit : Nat) (code : Nat) (part : Option Nat) (arg : Nat) (hs : Outer s0_ s) : Outer s0_
    (blot s unit code part arg) := by
  unfold blot
  try extract_lets
  repeat'
    (first | with_reducible assumption | (with_reducible show Outer _ _; simp -iota -zeta only [outer_mk])
           | with_reducible apply outer_of | with_reducible intro _ | extract_lets | split | dsimp +zetaDelta -iota only)


theorem setFunc_outer (s : State) (fn : Nat) (f : Func) (hs : Outer s0_ s) : Outer s0_ (setFunc s fn f) := by
  unfold setFunc
  try extract_lets
  repeat'
    (first | with_reducible assumption | (with_reducible show Outer _ _; simp -iota -zeta only [outer_mk])
           | with_reducible apply outer_of | with_reducible intro _ | extract_lets | split | dsimp +zetaDelta -iota only)

theorem raise_outer (s : State) (fn : Nat) (vector : Nat) (hs : Outer s0_ s) : Outer s0_ (raise s fn vector) := by
  unfold raise
  try extract_lets
  repeat'
    (first | with_reducible assumption | (with_reducible show Outer _ _; simp -iota -zeta only [outer_mk])
           | with_reducible apply outer_of | with_reducible apply prog_outer | with_reducible intro _ | extract_lets | split
           | dsimp +zetaDelta -iota only)

theorem setCause_outer (s : State) (fn : Nat) (bit : Nat) (hs : Outer s0_ s) : Outer s0_ (setCause s fn bit) := by
  unfold setCause
  try extract_lets
  repeat'
    (first | with_reducible assumption | (with_reducible show Outer _ _; simp -iota -zeta only [outer_mk])
           | with_reducible apply outer_of | with_reducible apply setFunc_outer | with_reducible apply raise_outer
           | with_reducible intro _ | extract_lets | split | dsimp +zetaDelta -iota only)

theorem setFault_outer (s : State) (fn : Nat) (reason : Nat) (detail : Nat) (hs : Outer s0_ s) : Outer s0_
    (setFault s fn reason detail) := by
  unfold setFault
  try extract_lets
  repeat'
    (first | with_reducible assumption | (with_reducible show Outer _ _; simp -iota -zeta only [outer_mk])
           | with_reducible apply outer_of | with_reducible apply setFunc_outer | with_reducible apply setCause_outer
           | with_reducible intro _ | extract_lets | split | dsimp +zetaDelta -iota only)

theorem setState_outer (s : State) (st : BitVec 4) (hs : Outer s0_ s) : Outer s0_ (setState s st) := by
  unfold setState
  try extract_lets
  repeat'
    (first | with_reducible assumption | (with_reducible show Outer _ _; simp -iota -zeta only [outer_mk])
           | with_reducible apply outer_of | with_reducible apply setCause_outer | with_reducible apply foldl_outer
           | with_reducible intro _ | extract_lets | split | dsimp +zetaDelta -iota only)


theorem hostPut_outer (s : State) (a : Nat) (b : List Byte) (hs : Outer s0_ s) : Outer s0_ (hostPut s a b) := by
  unfold hostPut
  with_reducible show Outer _ _
  simp -iota -zeta only [outer_mk]
  exact outer_of hs

theorem hostStore_outer (s : State) (a : Nat) (b : List Byte) (hs : Outer s0_ s) : Outer s0_ (hostStore s a b) := by
  unfold hostStore hostBytesWritten
  with_reducible apply prog_outer
  with_reducible exact hostPut_outer s a b hs

theorem hostWrite?_outer_eq {s : State} {a : Nat} {b : List Byte} {t_ : State} (hs : Outer s0_ s) (e_ : hostWrite? s a b = some t_)
    : Outer s0_ t_ := by
  unfold hostWrite? at e_
  generalize hx : hostStore s a b = x at e_
  have hk : Outer s0_ x := hx ▸ hostStore_outer s a b hs
  split at e_
  · injection e_ with e_
    exact e_ ▸ hk
  · cases e_

theorem setRing_outer (s : State) (fn : Nat) (n : Nat) (r : Ring) (hs : Outer s0_ s) : Outer s0_ (setRing s fn n r) := by
  unfold setRing
  try extract_lets
  repeat'
    (first | with_reducible assumption | (with_reducible show Outer _ _; simp -iota -zeta only [outer_mk])
           | with_reducible apply outer_of | with_reducible apply setFunc_outer | with_reducible intro _ | extract_lets | split
           | dsimp +zetaDelta -iota only)

theorem writeEntry_outer (s : State) (fn : Nat) (n : Nat) (b : List Byte) (hs : Outer s0_ s) : Outer s0_ (writeEntry s fn n b).1 := by
  unfold writeEntry
  try extract_lets
  repeat'
    (first | with_reducible assumption | (with_reducible show Outer _ _; simp -iota -zeta only [outer_mk])
           | with_reducible apply outer_of | with_reducible apply setRing_outer | with_reducible apply hostStore_outer
           | with_reducible apply setFault_outer | with_reducible intro _ | extract_lets | split | dsimp +zetaDelta -iota only)
theorem writeEntry_outer_eq {s : State} {fn : Nat} {n : Nat} {b : List Byte} {r1 : Bool} {t_ : State} (hs : Outer s0_ s) (e_
    : writeEntry s fn n b = (t_, r1)) : Outer s0_ t_ := by
  have := writeEntry_outer s fn n b hs
  rwa [e_] at this

theorem countIrq_outer (s : State) (fn : Nat) (n : Nat) (irq : Bool) (hs : Outer s0_ s) : Outer s0_ (countIrq s fn n irq) := by
  unfold countIrq
  try extract_lets
  repeat'
    (first | with_reducible assumption | (with_reducible show Outer _ _; simp -iota -zeta only [outer_mk])
           | with_reducible apply outer_of | with_reducible apply setCause_outer | with_reducible apply setRing_outer
           | with_reducible intro _ | extract_lets | split | dsimp +zetaDelta -iota only)

theorem drainGo_outer (fn : Nat) (n : Nat) (x2 : List Completion) (x3 : State) (hx3 : Outer s0_ x3) : Outer s0_ (drainGo fn n x2 x3).1 := by
  fun_induction drainGo fn n x2 x3
  all_goals try extract_lets
  all_goals repeat'
    (first | with_reducible assumption | (with_reducible show Outer _ _; simp -iota -zeta only [outer_mk])
           | with_reducible apply outer_of | with_reducible apply writeEntry_outer
           | with_reducible (refine writeEntry_outer_eq ?_ (by with_reducible assumption)) | with_reducible apply countIrq_outer
           | with_reducible apply_assumption | with_reducible intro _ | extract_lets | split | dsimp +zetaDelta -iota only)
theorem drainGo_outer_eq {fn : Nat} {n : Nat} {x2 : List Completion} {x3 : State} {r1 : List Completion} {t_ : State} (hx3 : Outer s0_ x3)
    (e_ : drainGo fn n x2 x3 = (t_, r1)) : Outer s0_ t_ := by
  have := drainGo_outer fn n x2 x3 hx3
  rwa [e_] at this

theorem drainCompletions_outer (s : State) (fn : Nat) (n : Nat) (hs : Outer s0_ s) : Outer s0_ (drainCompletions s fn n) := by
  unfold drainCompletions
  try extract_lets
  repeat'
    (first | with_reducible assumption | (with_reducible show Outer _ _; simp -iota -zeta only [outer_mk])
           | with_reducible apply outer_of | with_reducible apply drainGo_outer
           | with_reducible (refine drainGo_outer_eq ?_ (by with_reducible assumption)) | with_reducible apply setRing_outer
           | with_reducible intro _ | extract_lets | split | dsimp +zetaDelta -iota only)

theorem complete_outer (s : State) (c : Cmd) (status : Nat) (result : List Byte) (hs : Outer s0_ s) : Outer s0_
    (complete s c status result) := by
  unfold complete
  try extract_lets
  repeat'
    (first | with_reducible assumption | (with_reducible show Outer _ _; simp -iota -zeta only [outer_mk])
           | with_reducible apply outer_of | with_reducible apply blot_outer | with_reducible apply setRing_outer
           | with_reducible apply drainCompletions_outer | with_reducible apply prog_outer | with_reducible intro _ | extract_lets
           | split | dsimp +zetaDelta -iota only)

theorem drainEvGo_outer (fn : Nat) (x1 : Nat) (x2 : State) (hx2 : Outer s0_ x2) : Outer s0_ (drainEvGo fn x1 x2) := by
  fun_induction drainEvGo fn x1 x2
  all_goals try extract_lets
  all_goals repeat'
    (first | with_reducible assumption | (with_reducible show Outer _ _; simp -iota -zeta only [outer_mk])
           | with_reducible apply outer_of | with_reducible apply writeEntry_outer
           | with_reducible (refine writeEntry_outer_eq ?_ (by with_reducible assumption)) | with_reducible apply setCause_outer
           | with_reducible apply setFunc_outer | with_reducible apply_assumption | with_reducible intro _ | extract_lets | split
           | dsimp +zetaDelta -iota only)

theorem drainEvents_outer (s : State) (fn : Nat) (hs : Outer s0_ s) : Outer s0_ (drainEvents s fn) := by
  unfold drainEvents
  try extract_lets
  repeat'
    (first | with_reducible assumption | (with_reducible show Outer _ _; simp -iota -zeta only [outer_mk])
           | with_reducible apply outer_of | with_reducible apply drainEvGo_outer | with_reducible intro _ | extract_lets | split
           | dsimp +zetaDelta -iota only)

theorem postAt_outer (s : State) (at_ : Stamp) (code : Nat) (part : Nat) (data : List Byte) (droppable : Bool) (hs : Outer s0_ s)
    : Outer s0_ (postAt s at_ code part data droppable) := by
  unfold postAt
  try extract_lets
  repeat'
    (first | with_reducible assumption | (with_reducible show Outer _ _; simp -iota -zeta only [outer_mk])
           | with_reducible apply outer_of | with_reducible apply prog_outer | with_reducible apply drainEvents_outer
           | with_reducible apply setFunc_outer | with_reducible intro _ | extract_lets | split | dsimp +zetaDelta -iota only)

theorem post_outer (s : State) (code : Nat) (part : Nat) (data : List Byte) (droppable : Bool) (hs : Outer s0_ s) : Outer s0_
    (post s code part data droppable) := by
  unfold post
  try extract_lets
  repeat'
    (first | with_reducible assumption | (with_reducible show Outer _ _; simp -iota -zeta only [outer_mk])
           | with_reducible apply outer_of | with_reducible apply postAt_outer | with_reducible intro _ | extract_lets | split
           | dsimp +zetaDelta -iota only)

theorem grant_outer (s : State) (res : Nat) (mode : Nat) (owner : Nat) (hs : Outer s0_ s) : Outer s0_ (grant s res mode owner) := by
  unfold grant
  try extract_lets
  repeat'
    (first | with_reducible assumption | (with_reducible show Outer _ _; simp -iota -zeta only [outer_mk])
           | with_reducible apply outer_of | with_reducible intro _ | extract_lets | split | dsimp +zetaDelta -iota only)

theorem ungrant_outer (s : State) (p : Holding → Bool) (hs : Outer s0_ s) : Outer s0_ (ungrant s p) := by
  unfold ungrant
  try extract_lets
  repeat'
    (first | with_reducible assumption | (with_reducible show Outer _ _; simp -iota -zeta only [outer_mk])
           | with_reducible apply outer_of | with_reducible intro _ | extract_lets | split | dsimp +zetaDelta -iota only)

theorem implicitRelease_outer (s : State) (res : Nat) (mode : Nat) (hs : Outer s0_ s) : Outer s0_ (implicitRelease s res mode) := by
  unfold implicitRelease
  try extract_lets
  repeat'
    (first | with_reducible assumption | (with_reducible show Outer _ _; simp -iota -zeta only [outer_mk])
           | with_reducible apply outer_of | with_reducible apply ungrant_outer | with_reducible intro _ | extract_lets | split
           | dsimp +zetaDelta -iota only)

theorem finishWait_outer (s : State) (w : Wait) (status : Nat) (result : List Byte) (hs : Outer s0_ s) : Outer s0_
    (finishWait s w status result) := by
  unfold finishWait
  try extract_lets
  repeat'
    (first | with_reducible assumption | (with_reducible show Outer _ _; simp -iota -zeta only [outer_mk])
           | with_reducible apply outer_of | with_reducible apply complete_outer | with_reducible apply foldl_outer
           | with_reducible intro _ | extract_lets | split | dsimp +zetaDelta -iota only)

theorem abortFetched_outer (s : State) (p : Cmd → Bool) (hs : Outer s0_ s) : Outer s0_ (abortFetched s p) := by
  unfold abortFetched
  try extract_lets
  repeat'
    (first | with_reducible assumption | (with_reducible show Outer _ _; simp -iota -zeta only [outer_mk])
           | with_reducible apply outer_of | with_reducible apply complete_outer | with_reducible apply foldl_outer
           | with_reducible intro _ | extract_lets | split | dsimp +zetaDelta -iota only)



/-- The part of Inkwell that recording, posting and completing leave alone: all but the functions' registers and rings and the messages
raised. -/
structure InkParts (i0_ i : Inkwell) : Prop where
  fwMajor : i.fwMajor = i0_.fwMajor
  fwMinor : i.fwMinor = i0_.fwMinor
  variant : i.variant = i0_.variant
  ifver : i.ifver = i0_.ifver
  state : i.state = i0_.state
  seq : i.seq = i0_.seq
  con : i.con = i0_.con
  conPtr : i.conPtr = i0_.conPtr
  conWraps : i.conWraps = i0_.conWraps
  numVFs : i.numVFs = i0_.numVFs
  visited : i.visited = i0_.visited
  fetched : i.fetched = i0_.fetched
  running : i.running = i0_.running
  claims : i.claims = i0_.claims

structure InkKept (s0_ s : State) : Prop where
  ok : InkParts s0_.ink s.ink

theorem InkKept.refl (s : State) : InkKept s s := ⟨⟨rfl, rfl, rfl, rfl, rfl, rfl, rfl, rfl, rfl, rfl, rfl, rfl, rfl, rfl⟩⟩

theorem inkk_mk {a1 a2 a3 h a4 a5 ink m a7 a8 a9 b1 b2 b3 b4 b5 b6 obs} :
    InkKept s0_ (State.mk a1 a2 a3 h a4 a5 ink m a7 a8 a9 b1 b2 b3 b4 b5 b6 obs) = InkParts s0_.ink ink :=
  propext ⟨fun x => x.ok, fun x => ⟨x⟩⟩
theorem inkk_parts {i0_ i : Inkwell} {f x} (h : InkParts i0_ i) : InkParts i0_ { i with funcs := f, msix := x } :=
  ⟨h.fwMajor, h.fwMinor, h.variant, h.ifver, h.state, h.seq, h.con, h.conPtr, h.conWraps, h.numVFs, h.visited, h.fetched, h.running, h.claims⟩
theorem inkk_funcs {i0_ i : Inkwell} {f} (h : InkParts i0_ i) : InkParts i0_ { i with funcs := f } :=
  ⟨h.fwMajor, h.fwMinor, h.variant, h.ifver, h.state, h.seq, h.con, h.conPtr, h.conWraps, h.numVFs, h.visited, h.fetched, h.running, h.claims⟩
theorem inkk_msix {i0_ i : Inkwell} {x} (h : InkParts i0_ i) : InkParts i0_ { i with msix := x } :=
  ⟨h.fwMajor, h.fwMinor, h.variant, h.ifver, h.state, h.seq, h.con, h.conPtr, h.conWraps, h.numVFs, h.visited, h.fetched, h.running, h.claims⟩
theorem inkk_of {s : State} (h : InkKept s0_ s) : InkParts s0_.ink s.ink := h.ok

theorem foldl_inkk {α : Type} {f : State → α → State} {l : List α} {s : State} (h : InkKept s0_ s)
    (hf : ∀ s x, InkKept s0_ s → InkKept s0_ (f s x)) : InkKept s0_ (l.foldl f s) := by
  induction l generalizing s with
  | nil => exact h
  | cons x r ih => exact ih (hf s x h)

theorem bump_inkk (s : State) (p : Nat) (i : Nat) (n : Nat) (hs : InkKept s0_ s) : InkKept s0_ (bump s p i n) := by
  unfold bump
  try extract_lets
  repeat'
    (first | with_reducible assumption | (with_reducible show InkKept _ _; simp -iota -zeta only [inkk_mk])
           | with_reducible apply inkk_of | with_reducible apply inkk_funcs | with_reducible apply inkk_msix | with_reducible intro _
           | extract_lets | split | dsimp +zetaDelta -iota only)

theorem prog_inkk (s : State) (unit : Nat) (event : Nat) (part : Option Nat) (cls : Option Nat) (n : Nat) (hs : InkKept s0_ s)
    : InkKept s0_ (prog s unit event part cls n) := by
  unfold prog
  try extract_lets
  repeat'
    (first | with_reducible assumption | (with_reducible show InkKept _ _; simp -iota -zeta only [inkk_mk])
           | with_reducible apply inkk_of | with_reducible apply inkk_funcs | with_reducible apply inkk_msix
           | with_reducible apply foldl_inkk | with_reducible intro _ | extract_lets | split | dsimp +zetaDelta -iota only)

theorem blot_inkk (s : State) (unit : Nat) (code : Nat) (part : Option Nat) (arg : Nat) (hs : InkKept s0_ s) : InkKept s0_
    (blot s unit code part arg) := by
  unfold blot
  try extract_lets
  repeat'
    (first | with_reducible assumption | (with_reducible show InkKept _ _; simp -iota -zeta only [inkk_mk])
           | with_reducible apply inkk_of | with_reducible apply inkk_funcs | with_reducible apply inkk_msix | with_reducible intro _
           | extract_lets | split | dsimp +zetaDelta -iota only)


theorem setFunc_inkk (s : State) (fn : Nat) (f : Func) (hs : InkKept s0_ s) : InkKept s0_ (setFunc s fn f) := by
  unfold setFunc
  try extract_lets
  repeat'
    (first | with_reducible assumption | (with_reducible show InkKept _ _; simp -iota -zeta only [inkk_mk])
           | with_reducible apply inkk_of | with_reducible apply inkk_funcs | with_reducible apply inkk_msix | with_reducible intro _
           | extract_lets | split | dsimp +zetaDelta -iota only)

theorem raise_inkk (s : State) (fn : Nat) (vector : Nat) (hs : InkKept s0_ s) : InkKept s0_ (raise s fn vector) := by
  unfold raise
  try extract_lets
  repeat'
    (first | with_reducible assumption | (with_reducible show InkKept _ _; simp -iota -zeta only [inkk_mk])
           | with_reducible apply inkk_of | with_reducible apply inkk_funcs | with_reducible apply inkk_msix
           | with_reducible apply prog_inkk | with_reducible intro _ | extract_lets | split | dsimp +zetaDelta -iota only)

theorem setCause_inkk (s : State) (fn : Nat) (bit : Nat) (hs : InkKept s0_ s) : InkKept s0_ (setCause s fn bit) := by
  unfold setCause
  try extract_lets
  repeat'
    (first | with_reducible assumption | (with_reducible show InkKept _ _; simp -iota -zeta only [inkk_mk])
           | with_reducible apply inkk_of | with_reducible apply inkk_funcs | with_reducible apply inkk_msix
           | with_reducible apply setFunc_inkk | with_reducible apply raise_inkk | with_reducible intro _ | extract_lets | split
           | dsimp +zetaDelta -iota only)

theorem setFault_inkk (s : State) (fn : Nat) (reason : Nat) (detail : Nat) (hs : InkKept s0_ s) : InkKept s0_
    (setFault s fn reason detail) := by
  unfold setFault
  try extract_lets
  repeat'
    (first | with_reducible assumption | (with_reducible show InkKept _ _; simp -iota -zeta only [inkk_mk])
           | with_reducible apply inkk_of | with_reducible apply inkk_funcs | with_reducible apply inkk_msix
           | with_reducible apply setFunc_inkk | with_reducible apply setCause_inkk | with_reducible intro _ | extract_lets | split
           | dsimp +zetaDelta -iota only)

theorem hostPut_inkk (s : State) (a : Nat) (b : List Byte) (hs : InkKept s0_ s) : InkKept s0_ (hostPut s a b) := by
  unfold hostPut
  with_reducible show InkKept _ _
  simp -iota -zeta only [inkk_mk]
  exact inkk_of hs

theorem hostStore_inkk (s : State) (a : Nat) (b : List Byte) (hs : InkKept s0_ s) : InkKept s0_ (hostStore s a b) := by
  unfold hostStore hostBytesWritten
  with_reducible apply prog_inkk
  with_reducible exact hostPut_inkk s a b hs

theorem hostWrite?_inkk_eq {s : State} {a : Nat} {b : List Byte} {t_ : State} (hs : InkKept s0_ s) (e_ : hostWrite? s a b = some t_)
    : InkKept s0_ t_ := by
  unfold hostWrite? at e_
  generalize hx : hostStore s a b = x at e_
  have hk : InkKept s0_ x := hx ▸ hostStore_inkk s a b hs
  split at e_
  · injection e_ with e_
    exact e_ ▸ hk
  · cases e_

theorem setRing_inkk (s : State) (fn : Nat) (n : Nat) (r : Ring) (hs : InkKept s0_ s) : InkKept s0_ (setRing s fn n r) := by
  unfold setRing
  try extract_lets
  repeat'
    (first | with_reducible assumption | (with_reducible show InkKept _ _; simp -iota -zeta only [inkk_mk])
           | with_reducible apply inkk_of | with_reducible apply inkk_funcs | with_reducible apply inkk_msix
           | with_reducible apply setFunc_inkk | with_reducible intro _ | extract_lets | split | dsimp +zetaDelta -iota only)

theorem writeEntry_inkk (s : State) (fn : Nat) (n : Nat) (b : List Byte) (hs : InkKept s0_ s) : InkKept s0_ (writeEntry s fn n b).1 := by
  unfold writeEntry
  try extract_lets
  repeat'
    (first | with_reducible assumption | (with_reducible show InkKept _ _; simp -iota -zeta only [inkk_mk])
           | with_reducible apply inkk_of | with_reducible apply inkk_funcs | with_reducible apply inkk_msix
           | with_reducible apply setRing_inkk | with_reducible apply hostStore_inkk | with_reducible apply setFault_inkk
           | with_reducible intro _ | extract_lets | split | dsimp +zetaDelta -iota only)
theorem writeEntry_inkk_eq {s : State} {fn : Nat} {n : Nat} {b : List Byte} {r1 : Bool} {t_ : State} (hs : InkKept s0_ s) (e_
    : writeEntry s fn n b = (t_, r1)) : InkKept s0_ t_ := by
  have := writeEntry_inkk s fn n b hs
  rwa [e_] at this

theorem countIrq_inkk (s : State) (fn : Nat) (n : Nat) (irq : Bool) (hs : InkKept s0_ s) : InkKept s0_ (countIrq s fn n irq) := by
  unfold countIrq
  try extract_lets
  repeat'
    (first | with_reducible assumption | (with_reducible show InkKept _ _; simp -iota -zeta only [inkk_mk])
           | with_reducible apply inkk_of | with_reducible apply inkk_funcs | with_reducible apply inkk_msix
           | with_reducible apply setCause_inkk | with_reducible apply setRing_inkk | with_reducible intro _ | extract_lets | split
           | dsimp +zetaDelta -iota only)

theorem drainGo_inkk (fn : Nat) (n : Nat) (x2 : List Completion) (x3 : State) (hx3 : InkKept s0_ x3) : InkKept s0_
    (drainGo fn n x2 x3).1 := by
  fun_induction drainGo fn n x2 x3
  all_goals try extract_lets
  all_goals repeat'
    (first | with_reducible assumption | (with_reducible show InkKept _ _; simp -iota -zeta only [inkk_mk])
           | with_reducible apply inkk_of | with_reducible apply inkk_funcs | with_reducible apply inkk_msix
           | with_reducible apply writeEntry_inkk | with_reducible (refine writeEntry_inkk_eq ?_ (by with_reducible assumption))
           | with_reducible apply countIrq_inkk | with_reducible apply_assumption | with_reducible intro _ | extract_lets | split
           | dsimp +zetaDelta -iota only)
theorem drainGo_inkk_eq {fn : Nat} {n : Nat} {x2 : List Completion} {x3 : State} {r1 : List Completion} {t_ : State} (hx3
    : InkKept s0_ x3) (e_ : drainGo fn n x2 x3 = (t_, r1)) : InkKept s0_ t_ := by
  have := drainGo_inkk fn n x2 x3 hx3
  rwa [e_] at this

theorem drainCompletions_inkk (s : State) (fn : Nat) (n : Nat) (hs : InkKept s0_ s) : InkKept s0_ (drainCompletions s fn n) := by
  unfold drainCompletions
  try extract_lets
  repeat'
    (first | with_reducible assumption | (with_reducible show InkKept _ _; simp -iota -zeta only [inkk_mk])
           | with_reducible apply inkk_of | with_reducible apply inkk_funcs | with_reducible apply inkk_msix
           | with_reducible apply drainGo_inkk | with_reducible (refine drainGo_inkk_eq ?_ (by with_reducible assumption))
           | with_reducible apply setRing_inkk | with_reducible intro _ | extract_lets | split | dsimp +zetaDelta -iota only)

theorem complete_inkk (s : State) (c : Cmd) (status : Nat) (result : List Byte) (hs : InkKept s0_ s) : InkKept s0_
    (complete s c status result) := by
  unfold complete
  try extract_lets
  repeat'
    (first | with_reducible assumption | (with_reducible show InkKept _ _; simp -iota -zeta only [inkk_mk])
           | with_reducible apply inkk_of | with_reducible apply inkk_funcs | with_reducible apply inkk_msix
           | with_reducible apply blot_inkk | with_reducible apply setRing_inkk | with_reducible apply drainCompletions_inkk
           | with_reducible apply prog_inkk | with_reducible intro _ | extract_lets | split | dsimp +zetaDelta -iota only)

theorem drainEvGo_inkk (fn : Nat) (x1 : Nat) (x2 : State) (hx2 : InkKept s0_ x2) : InkKept s0_ (drainEvGo fn x1 x2) := by
  fun_induction drainEvGo fn x1 x2
  all_goals try extract_lets
  all_goals repeat'
    (first | with_reducible assumption | (with_reducible show InkKept _ _; simp -iota -zeta only [inkk_mk])
           | with_reducible apply inkk_of | with_reducible apply inkk_funcs | with_reducible apply inkk_msix
           | with_reducible apply writeEntry_inkk | with_reducible (refine writeEntry_inkk_eq ?_ (by with_reducible assumption))
           | with_reducible apply setCause_inkk | with_reducible apply setFunc_inkk | with_reducible apply_assumption
           | with_reducible intro _ | extract_lets | split | dsimp +zetaDelta -iota only)

theorem drainEvents_inkk (s : State) (fn : Nat) (hs : InkKept s0_ s) : InkKept s0_ (drainEvents s fn) := by
  unfold drainEvents
  try extract_lets
  repeat'
    (first | with_reducible assumption | (with_reducible show InkKept _ _; simp -iota -zeta only [inkk_mk])
           | with_reducible apply inkk_of | with_reducible apply inkk_funcs | with_reducible apply inkk_msix
           | with_reducible apply drainEvGo_inkk | with_reducible intro _ | extract_lets | split | dsimp +zetaDelta -iota only)

theorem postAt_inkk (s : State) (at_ : Stamp) (code : Nat) (part : Nat) (data : List Byte) (droppable : Bool) (hs : InkKept s0_ s)
    : InkKept s0_ (postAt s at_ code part data droppable) := by
  unfold postAt
  try extract_lets
  repeat'
    (first | with_reducible assumption | (with_reducible show InkKept _ _; simp -iota -zeta only [inkk_mk])
           | with_reducible apply inkk_of | with_reducible apply inkk_funcs | with_reducible apply inkk_msix
           | with_reducible apply prog_inkk | with_reducible apply drainEvents_inkk | with_reducible apply setFunc_inkk
           | with_reducible intro _ | extract_lets | split | dsimp +zetaDelta -iota only)

theorem post_inkk (s : State) (code : Nat) (part : Nat) (data : List Byte) (droppable : Bool) (hs : InkKept s0_ s) : InkKept s0_
    (post s code part data droppable) := by
  unfold post
  try extract_lets
  repeat'
    (first | with_reducible assumption | (with_reducible show InkKept _ _; simp -iota -zeta only [inkk_mk])
           | with_reducible apply inkk_of | with_reducible apply inkk_funcs | with_reducible apply inkk_msix
           | with_reducible apply postAt_inkk | with_reducible intro _ | extract_lets | split | dsimp +zetaDelta -iota only)


end Sys2Proof.Machine
end

