-- ==== Sys2Proof/Laws/Far.lean ====
section
/-! SUPPORT. Tracing and sending on the links change nothing but the links, Inkwell, host memory, the observation block and the free values. -/
namespace Sys2Proof.Machine
open Sys2Proof
set_option linter.all false

/-- The parts of a state that sending on the links and tracing leave alone: all but the links, Inkwell, host memory, the observation block
and the index of the next free value. -/
structure FarParts (s0_ : State) (p : List Instr) (ti : Nat) (hf : List (Nat × Nat)) (ru : Ruling) (me : Mem) (sv : MemSvc)
    (ar : Arith) (fo : Fold) (cp : Compute) (sr : Serving) (st : StepBlock) (fl : Flourish) (pw : Power) : Prop where
  pending : p = s0_.pending
  time : ti = s0_.time
  hostFaults : hf = s0_.hostFaults
  rul : ru = s0_.rul
  mem : me = s0_.mem
  svc : sv = s0_.svc
  ari : ar = s0_.ari
  fold : fo = s0_.fold
  cpu : cp = s0_.cpu
  srv : sr = s0_.srv
  stp : st = s0_.stp
  flo : fl = s0_.flo
  pwr : pw = s0_.pwr

structure Far (s0_ s : State) : Prop where
  ok : FarParts s0_ s.pending s.time s.hostFaults s.rul s.mem s.svc s.ari s.fold s.cpu s.srv s.stp s.flo s.pwr

theorem Far.refl (s : State) : Far s s := ⟨⟨rfl, rfl, rfl, rfl, rfl, rfl, rfl, rfl, rfl, rfl, rfl, rfl, rfl⟩⟩

theorem far_of_outer {s t u : State} (h : Far s t) (o : Outer t u) : Far s u :=
  ⟨⟨o.ok.pending.trans h.ok.pending, o.ok.time.trans h.ok.time, o.ok.hostFaults.trans h.ok.hostFaults, o.ok.rul.trans h.ok.rul,
    o.ok.mem.trans h.ok.mem, o.ok.svc.trans h.ok.svc, o.ok.ari.trans h.ok.ari, o.ok.fold.trans h.ok.fold, o.ok.cpu.trans h.ok.cpu,
    o.ok.srv.trans h.ok.srv, o.ok.stp.trans h.ok.stp, o.ok.flo.trans h.ok.flo, o.ok.pwr.trans h.ok.pwr⟩⟩

variable {s0_ : State}

theorem far_mk {a1 a2 a3 h a4 a5 ink m a7 a8 a9 b1 b2 b3 b4 b5 b6 obs} :
    Far s0_ (State.mk a1 a2 a3 h a4 a5 ink m a7 a8 a9 b1 b2 b3 b4 b5 b6 obs) =
      FarParts s0_ a1 a2 a4 a5 m a7 a8 a9 b1 b2 b3 b4 b6 := propext ⟨fun x => x.ok, fun x => ⟨x⟩⟩
theorem far_of {s : State} (h : Far s0_ s) :
    FarParts s0_ s.pending s.time s.hostFaults s.rul s.mem s.svc s.ari s.fold s.cpu s.srv s.stp s.flo s.pwr := h.ok
theorem foldl_far {α : Type} {f : State → α → State} {l : List α} {s : State} (h : Far s0_ s)
    (hf : ∀ s x, Far s0_ s → Far s0_ (f s x)) : Far s0_ (l.foldl f s) := by
  induction l generalizing s with
  | nil => exact h
  | cons x r ih => exact ih (hf s x h)
theorem foldl_fst_far {α β : Type} {f : State × β → α → State × β} {l : List α} {a : State × β} (h : Far s0_ a.1)
    (hf : ∀ a x, Far s0_ a.1 → Far s0_ (f a x).1) : Far s0_ (l.foldl f a).1 := by
  induction l generalizing a with
  | nil => exact h
  | cons x r ih => exact ih (hf a x h)
theorem foldl_snd_far {α β : Type} {f : β × State → α → β × State} {l : List α} {a : β × State} (h : Far s0_ a.2)
    (hf : ∀ a x, Far s0_ a.2 → Far s0_ (f a x).2) : Far s0_ (l.foldl f a).2 := by
  induction l generalizing a with
  | nil => exact h
  | cons x r ih => exact ih (hf a x h)
theorem pair_eq1_far {α : Type} {x : State × α} {a : α} {t : State} (h : Far s0_ x.1) (e : x = (t, a)) : Far s0_ t := by subst e; exact h
theorem pair_eq2_far {α : Type} {x : α × State} {a : α} {t : State} (h : Far s0_ x.2) (e : x = (a, t)) : Far s0_ t := by subst e; exact h
theorem bump_far (s : State) (p : Nat) (i : Nat) (n : Nat) (hs : Far s0_ s) : Far s0_ (bump s p i n) := far_of_outer hs
    (bump_outer s p i n (Outer.refl s))
theorem prog_far (s : State) (unit : Nat) (event : Nat) (part : Option Nat) (cls : Option Nat) (n : Nat) (hs : Far s0_ s) : Far s0_
    (prog s unit event part cls n) := far_of_outer hs (prog_outer s unit event part cls n (Outer.refl s))
theorem blot_far (s : State) (unit : Nat) (code : Nat) (part : Option Nat) (arg : Nat) (hs : Far s0_ s) : Far s0_
    (blot s unit code part arg) := far_of_outer hs (blot_outer s unit code part arg (Outer.refl s))
theorem setFunc_far (s : State) (fn : Nat) (f : Func) (hs : Far s0_ s) : Far s0_ (setFunc s fn f) := far_of_outer hs (setFunc_outer s fn f
    (Outer.refl s))
theorem raise_far (s : State) (fn : Nat) (vector : Nat) (hs : Far s0_ s) : Far s0_ (raise s fn vector) := far_of_outer hs
    (raise_outer s fn vector (Outer.refl s))
theorem setCause_far (s : State) (fn : Nat) (bit : Nat) (hs : Far s0_ s) : Far s0_ (setCause s fn bit) := far_of_outer hs
    (setCause_outer s fn bit (Outer.refl s))
theorem setFault_far (s : State) (fn : Nat) (reason : Nat) (detail : Nat) (hs : Far s0_ s) : Far s0_
    (setFault s fn reason detail) := far_of_outer hs (setFault_outer s fn reason detail (Outer.refl s))
theorem setState_far (s : State) (st : BitVec 4) (hs : Far s0_ s) : Far s0_ (setState s st) := far_of_outer hs (setState_outer s st
    (Outer.refl s))
theorem hostPut_far (s : State) (a : Nat) (b : List Byte) (hs : Far s0_ s) : Far s0_ (hostPut s a b) := far_of_outer hs
    (hostPut_outer s a b (Outer.refl s))
theorem setRing_far (s : State) (fn : Nat) (n : Nat) (r : Ring) (hs : Far s0_ s) : Far s0_ (setRing s fn n r) := far_of_outer hs
    (setRing_outer s fn n r (Outer.refl s))
theorem countIrq_far (s : State) (fn : Nat) (n : Nat) (irq : Bool) (hs : Far s0_ s) : Far s0_ (countIrq s fn n irq) := far_of_outer hs
    (countIrq_outer s fn n irq (Outer.refl s))
theorem drainCompletions_far (s : State) (fn : Nat) (n : Nat) (hs : Far s0_ s) : Far s0_ (drainCompletions s fn n) := far_of_outer hs
    (drainCompletions_outer s fn n (Outer.refl s))
theorem complete_far (s : State) (c : Cmd) (status : Nat) (result : List Byte) (hs : Far s0_ s) : Far s0_
    (complete s c status result) := far_of_outer hs (complete_outer s c status result (Outer.refl s))
theorem drainEvGo_far (fn : Nat) (x1 : Nat) (x2 : State) (hx2 : Far s0_ x2) : Far s0_ (drainEvGo fn x1 x2) := far_of_outer hx2
    (drainEvGo_outer fn x1 x2 (Outer.refl x2))
theorem drainEvents_far (s : State) (fn : Nat) (hs : Far s0_ s) : Far s0_ (drainEvents s fn) := far_of_outer hs (drainEvents_outer s fn
    (Outer.refl s))
theorem postAt_far (s : State) (at_ : Stamp) (code : Nat) (part : Nat) (data : List Byte) (droppable : Bool) (hs : Far s0_ s) : Far s0_
    (postAt s at_ code part data droppable) := far_of_outer hs (postAt_outer s at_ code part data droppable (Outer.refl s))
theorem post_far (s : State) (code : Nat) (part : Nat) (data : List Byte) (droppable : Bool) (hs : Far s0_ s) : Far s0_
    (post s code part data droppable) := far_of_outer hs (post_outer s code part data droppable (Outer.refl s))
theorem grant_far (s : State) (res : Nat) (mode : Nat) (owner : Nat) (hs : Far s0_ s) : Far s0_
    (grant s res mode owner) := far_of_outer hs (grant_outer s res mode owner (Outer.refl s))
theorem ungrant_far (s : State) (p : Holding → Bool) (hs : Far s0_ s) : Far s0_ (ungrant s p) := far_of_outer hs (ungrant_outer s p
    (Outer.refl s))
theorem implicitRelease_far (s : State) (res : Nat) (mode : Nat) (hs : Far s0_ s) : Far s0_
    (implicitRelease s res mode) := far_of_outer hs (implicitRelease_outer s res mode (Outer.refl s))
theorem finishWait_far (s : State) (w : Wait) (status : Nat) (result : List Byte) (hs : Far s0_ s) : Far s0_
    (finishWait s w status result) := far_of_outer hs (finishWait_outer s w status result (Outer.refl s))
theorem abortFetched_far (s : State) (p : Cmd → Bool) (hs : Far s0_ s) : Far s0_ (abortFetched s p) := far_of_outer hs
    (abortFetched_outer s p (Outer.refl s))
theorem freeBytes_far (s : State) (n : Nat) (hs : Far s0_ s) : Far s0_ (freeBytes s n).2 := by
  unfold freeBytes
  try extract_lets
  repeat'
    (first | with_reducible assumption | (with_reducible show Far _ _; simp -iota -zeta only [far_mk]) | with_reducible apply far_of
           | with_reducible intro _ | extract_lets | split | dsimp +zetaDelta -iota only)
theorem freeBytes_far_eq {s : State} {n : Nat} {r0 : List Byte} {t_ : State} (hs : Far s0_ s) (e_ : freeBytes s n = (r0, t_))
    : Far s0_ t_ := by
  have := freeBytes_far s n hs
  rwa [e_] at this

theorem freeWord_far (s : State) (hs : Far s0_ s) : Far s0_ (freeWord s).2 := by
  unfold freeWord
  try extract_lets
  repeat'
    (first | with_reducible assumption | (with_reducible show Far _ _; simp -iota -zeta only [far_mk]) | with_reducible apply far_of
           | with_reducible intro _ | extract_lets | split | dsimp +zetaDelta -iota only)
theorem freeWord_far_eq {s : State} {r0 : BitVec 64} {t_ : State} (hs : Far s0_ s) (e_ : freeWord s = (r0, t_)) : Far s0_ t_ := by
  have := freeWord_far s hs
  rwa [e_] at this

theorem bumpO_far (s : State) (p : Option Nat) (i : Nat) (n : Nat) (hs : Far s0_ s) : Far s0_ (bumpO s p i n) := by
  unfold bumpO
  try extract_lets
  repeat'
    (first | with_reducible assumption | (with_reducible show Far _ _; simp -iota -zeta only [far_mk]) | with_reducible apply far_of
           | with_reducible apply bump_far | with_reducible intro _ | extract_lets | split | dsimp +zetaDelta -iota only)

theorem traceAt_far (s : State) (inst : Nat) (type : Nat) (unit : Nat) (part : Option Nat) (payload : List Byte) (forced : Bool) (hs
    : Far s0_ s) : Far s0_ (traceAt s inst type unit part payload forced) := by
  unfold traceAt
  try extract_lets
  repeat'
    (first | with_reducible assumption | (with_reducible show Far _ _; simp -iota -zeta only [far_mk]) | with_reducible apply far_of
           | with_reducible apply bumpO_far | with_reducible intro _ | extract_lets | split | dsimp +zetaDelta -iota only)

theorem tracePart_far (s : State) (p : Nat) (type : Nat) (unit : Nat) (payload : List Byte) (hs : Far s0_ s) : Far s0_
    (tracePart s p type unit payload) := by
  unfold tracePart
  try extract_lets
  repeat'
    (first | with_reducible assumption | (with_reducible show Far _ _; simp -iota -zeta only [far_mk]) | with_reducible apply far_of
           | with_reducible apply traceAt_far | with_reducible intro _ | extract_lets | split | dsimp +zetaDelta -iota only)

theorem freeze_far (s : State) (scope : Nat) (cause : Nat) (hs : Far s0_ s) : Far s0_ (freeze s scope cause) := by
  unfold freeze
  try extract_lets
  repeat'
    (first | with_reducible assumption | (with_reducible show Far _ _; simp -iota -zeta only [far_mk]) | with_reducible apply far_of
           | with_reducible apply blot_far | with_reducible apply traceAt_far | with_reducible apply post_far
           | with_reducible apply foldl_far | with_reducible intro _ | extract_lets | split | dsimp +zetaDelta -iota only)

theorem thaw_far (s : State) (scope : Nat) (hs : Far s0_ s) : Far s0_ (thaw s scope) := by
  unfold thaw
  try extract_lets
  repeat'
    (first | with_reducible assumption | (with_reducible show Far _ _; simp -iota -zeta only [far_mk]) | with_reducible apply far_of
           | with_reducible apply foldl_far | with_reducible intro _ | extract_lets | split | dsimp +zetaDelta -iota only)

theorem watchAct_far (s : State) (p : Nat) (k : Nat) (kind : Nat) (unit : Nat) (dpa : Nat) (len : Nat) (w : Watch) (hs : Far s0_ s)
    : Far s0_ (watchAct s p k kind unit dpa len w) := by
  unfold watchAct
  try extract_lets
  repeat'
    (first | with_reducible assumption | (with_reducible show Far _ _; simp -iota -zeta only [far_mk]) | with_reducible apply far_of
           | with_reducible apply tracePart_far | with_reducible apply post_far | with_reducible apply freeze_far
           | with_reducible intro _ | extract_lets | split | dsimp +zetaDelta -iota only)

theorem watch_far (s : State) (rq : Requester) (kind : Nat) (dpa : Nat) (len : Nat) (hs : Far s0_ s) : Far s0_
    (watch s rq kind dpa len) := by
  unfold watch
  try extract_lets
  repeat'
    (first | with_reducible assumption | (with_reducible show Far _ _; simp -iota -zeta only [far_mk]) | with_reducible apply far_of
           | with_reducible apply watchAct_far | with_reducible apply foldl_far | with_reducible intro _ | extract_lets | split
           | dsimp +zetaDelta -iota only)

theorem latchProgs_far (s : State) (p : Nat) (start : Bool) (hs : Far s0_ s) : Far s0_ (latchProgs s p start) := by
  unfold latchProgs
  try extract_lets
  repeat'
    (first | with_reducible assumption | (with_reducible show Far _ _; simp -iota -zeta only [far_mk]) | with_reducible apply far_of
           | with_reducible intro _ | extract_lets | split | dsimp +zetaDelta -iota only)

theorem setLink_far (s : State) (l : Nat) (x : Link) (hs : Far s0_ s) : Far s0_ (setLink s l x) := by
  unfold setLink
  try extract_lets
  repeat'
    (first | with_reducible assumption | (with_reducible show Far _ _; simp -iota -zeta only [far_mk]) | with_reducible apply far_of
           | with_reducible intro _ | extract_lets | split | dsimp +zetaDelta -iota only)

theorem linkCount_far (s : State) (l : Nat) (i : Nat) (n : Nat) (hs : Far s0_ s) : Far s0_ (linkCount s l i n) := by
  unfold linkCount
  try extract_lets
  repeat'
    (first | with_reducible assumption | (with_reducible show Far _ _; simp -iota -zeta only [far_mk]) | with_reducible apply far_of
           | with_reducible apply setLink_far | with_reducible intro _ | extract_lets | split | dsimp +zetaDelta -iota only)

theorem linkMove_far (s : State) (l : Nat) (st : Nat) (reason : Nat) (hs : Far s0_ s) : Far s0_ (linkMove s l st reason) := by
  unfold linkMove
  try extract_lets
  repeat'
    (first | with_reducible assumption | (with_reducible show Far _ _; simp -iota -zeta only [far_mk]) | with_reducible apply far_of
           | with_reducible apply setLink_far | with_reducible apply blot_far | with_reducible apply post_far | with_reducible intro _
           | extract_lets | split | dsimp +zetaDelta -iota only)

theorem countMsg_far (s : State) (i : Nat) (m : Msg) (hs : Far s0_ s) : Far s0_ (countMsg s i m) := by
  unfold countMsg
  try extract_lets
  repeat'
    (first | with_reducible assumption | (with_reducible show Far _ _; simp -iota -zeta only [far_mk]) | with_reducible apply far_of
           | with_reducible apply bump_far | with_reducible intro _ | extract_lets | split | dsimp +zetaDelta -iota only)

theorem noteMsg_far (s : State) (l : Nat) (m : Msg) (type : Nat) (hs : Far s0_ s) : Far s0_ (noteMsg s l m type) := by
  unfold noteMsg
  try extract_lets
  repeat'
    (first | with_reducible assumption | (with_reducible show Far _ _; simp -iota -zeta only [far_mk]) | with_reducible apply far_of
           | with_reducible apply traceAt_far | with_reducible intro _ | extract_lets | split | dsimp +zetaDelta -iota only)

theorem pumpGo_far (l : Nat) (x1 : Nat) (x2 : State) (hx2 : Far s0_ x2) : Far s0_ (pumpGo l x1 x2) := by
  induction x1 generalizing x2 with
  | zero => (first | with_reducible assumption | (unfold pumpGo; with_reducible assumption))
  | succ k ih =>
    unfold pumpGo
    try extract_lets
    repeat'
      (first | with_reducible assumption | (with_reducible show Far _ _; simp -iota -zeta only [far_mk]) | with_reducible apply far_of
             | with_reducible apply linkCount_far
             | with_reducible apply setLink_far | with_reducible apply noteMsg_far | with_reducible apply countMsg_far
             | with_reducible apply prog_far | with_reducible apply linkCount_far | with_reducible apply ih
             | with_reducible apply foldl_far | with_reducible apply foldl_fst_far | with_reducible apply foldl_snd_far
             | (refine pair_eq1_far ?_ (by with_reducible assumption)) | (refine pair_eq2_far ?_ (by with_reducible assumption))
             | with_reducible intro _ | extract_lets | split | dsimp +zetaDelta -iota only)

theorem pump_far (s : State) (l : Nat) (hs : Far s0_ s) : Far s0_ (pump s l) := by
  unfold pump
  try extract_lets
  repeat'
    (first | with_reducible assumption | (with_reducible show Far _ _; simp -iota -zeta only [far_mk]) | with_reducible apply far_of
           | with_reducible apply pumpGo_far | with_reducible intro _ | extract_lets | split | dsimp +zetaDelta -iota only)

theorem sendBare_far (s : State) (l : Nat) (kind : Nat) (slots : List Byte) (hs : Far s0_ s) : Far s0_ (sendBare s l kind slots) := by
  unfold sendBare
  try extract_lets
  repeat'
    (first | with_reducible assumption | (with_reducible show Far _ _; simp -iota -zeta only [far_mk]) | with_reducible apply far_of
           | with_reducible apply linkCount_far
           | with_reducible apply prog_far | with_reducible apply linkCount_far | with_reducible apply setLink_far
           | with_reducible intro _ | extract_lets | split | dsimp +zetaDelta -iota only)

theorem settleLink_far (s0 : State) (l : Nat) (hs0 : Far s0_ s0) : Far s0_ (settleLink s0 l) := by
  unfold settleLink
  try extract_lets
  repeat'
    (first | with_reducible assumption | (with_reducible show Far _ _; simp -iota -zeta only [far_mk]) | with_reducible apply far_of
           | with_reducible apply pump_far | with_reducible apply sendBare_far | with_reducible intro _ | extract_lets | split
           | dsimp +zetaDelta -iota only)

theorem sendOn_far (s : State) (l : Nat) (m : Msg) (hs : Far s0_ s) : Far s0_ (sendOn s l m) := by
  unfold sendOn
  try extract_lets
  repeat'
    (first | with_reducible assumption | (with_reducible show Far _ _; simp -iota -zeta only [far_mk]) | with_reducible apply far_of
           | with_reducible apply pump_far | with_reducible apply setLink_far | with_reducible intro _ | extract_lets | split
           | dsimp +zetaDelta -iota only)

theorem sendRouted_far_eq {s : State} {m : Msg} {t_ : State} (hs : Far s0_ s) (e_ : sendRouted s m = some t_) : Far s0_ t_ := by
  unfold sendRouted at e_
  try dsimp only at e_
  repeat' (first | contradiction | (cases e_; done) | split at e_)
  all_goals (try (injection e_ with e_; first | subst e_ | (injection e_ with _ e_; first | subst e_ | (injection e_ with _ e_; subst e_))))
  all_goals repeat'
    (first | with_reducible assumption | (with_reducible show Far _ _; simp -iota -zeta only [far_mk]) | with_reducible apply far_of
           | with_reducible apply sendOn_far | with_reducible intro _ | extract_lets | split | dsimp +zetaDelta -iota only)

theorem floodFrom_far (s : State) (m : Msg) (except : Option Nat) (hs : Far s0_ s) : Far s0_ (floodFrom s m except) := by
  unfold floodFrom
  try extract_lets
  repeat'
    (first | with_reducible assumption | (with_reducible show Far _ _; simp -iota -zeta only [far_mk]) | with_reducible apply far_of
           | with_reducible apply sendOn_far | with_reducible apply foldl_far | with_reducible intro _ | extract_lets | split
           | dsimp +zetaDelta -iota only)

theorem floodOwn_far (s : State) (op : Nat) (fields : List Byte) (hs : Far s0_ s) : Far s0_ (floodOwn s op fields) := by
  unfold floodOwn
  try extract_lets
  repeat'
    (first | with_reducible assumption | (with_reducible show Far _ _; simp -iota -zeta only [far_mk]) | with_reducible apply far_of
           | with_reducible apply floodFrom_far | with_reducible intro _ | extract_lets | split | dsimp +zetaDelta -iota only)

theorem requestPeer_far (s : State) (op : Nat) (dest : Nat) (part : Nat) (fields : List Byte) (second : Option (List Byte)) (data : List
    (List Byte)) (poison : BitVec 3) (use : RemoteUse) (left : Nat) (hs : Far s0_ s) : Far s0_
    (requestPeer s op dest part fields second data poison use left).2 := by
  unfold requestPeer
  try extract_lets
  repeat'
    (first | with_reducible assumption | (with_reducible show Far _ _; simp -iota -zeta only [far_mk]) | with_reducible apply far_of
           | with_reducible (refine sendRouted_far_eq ?_ (by with_reducible assumption)) | with_reducible intro _ | extract_lets | split
           | dsimp +zetaDelta -iota only)
theorem requestPeer_far_eq {s : State} {op : Nat} {dest : Nat} {part : Nat} {fields : List Byte} {second : Option (List Byte)} {data
    : List (List Byte)} {poison : BitVec 3} {use : RemoteUse} {left : Nat} {r0 : Nat} {t_ : State} (hs : Far s0_ s) (e_
    : requestPeer s op dest part fields second data poison use left = (r0, t_)) : Far s0_ t_ := by
  have := requestPeer_far s op dest part fields second data poison use left hs
  rwa [e_] at this

theorem sendMarkers_far (s : State) (except : Option Nat) (corr : Nat) (line : Nat) (epoch : Nat) (master : Nat) (hs : Far s0_ s)
    : Far s0_ (sendMarkers s except corr line epoch master) := by
  unfold sendMarkers
  try extract_lets
  repeat'
    (first | with_reducible assumption | (with_reducible show Far _ _; simp -iota -zeta only [far_mk]) | with_reducible apply far_of
           | with_reducible apply sendOn_far | with_reducible apply foldl_far | with_reducible intro _ | extract_lets | split
           | dsimp +zetaDelta -iota only)

theorem postSlow_far (s : State) (own : Nat) (source : Nat) (share : Nat) (hs : Far s0_ s) : Far s0_ (postSlow s own source share) := by
  unfold postSlow
  try extract_lets
  repeat'
    (first | with_reducible assumption | (with_reducible show Far _ _; simp -iota -zeta only [far_mk]) | with_reducible apply far_of
           | with_reducible apply post_far | with_reducible apply foldl_far | with_reducible intro _ | extract_lets | split
           | dsimp +zetaDelta -iota only)



end Sys2Proof.Machine
end

