-- ==== Sys2Proof/Laws/Firmware.lean ====
section
/-! SUPPORT. What a firmware command does once it has begun, said once for every command: its chapter's answer decides. -/

set_option linter.all false
namespace Sys2Proof.Machine

theorem indexOf?_none {α : Type} (p : α → Bool) (l : List α) (h : l.any p = false) : indexOf? p l = none := by
  induction l with
  | nil => rfl
  | cons x r ih =>
    simp only [List.any_cons, Bool.or_eq_false_iff] at h
    simp [indexOf?, h.1, ih h.2]

/-- A command that begins: a refusal or completion of its chapter completes it, a wait makes it a running command, and one whose accesses
are held stays fetched. -/
theorem firmware_begun {sp : FwSpec} {body : Cmd → State → Answer} {c : Cmd} {s a : State} (h : Begun sp c s a) :
    firmware sp body c s =
      match body c a with
      | .done st res t => complete t c st res
      | .wait w t => { t with ink.running := t.ink.running ++ [{ opcode := sp.op, cmd := c, wait := w }] }
      | .held => { a with ink.fetched := a.ink.fetched ++ [{ opcode := sp.op, cmd := c }] } := by
  obtain ⟨h1, h2, h3, h4, h5, rfl⟩ := h
  have h6 : indexOf? (fun e : Sub => e.opcode == sp.op && sameTag e.cmd c) s.ink.fetched = none := by
    apply indexOf?_none
    have hd : s.ink.fetched.any (fun e => sameTag e.cmd c) = false := by
      unfold duplicate at h2
      exact (Bool.or_eq_false_iff.1 h2).1
    rw [List.any_eq_false] at hd ⊢
    intro x hx
    have := hd x hx
    simp_all
  unfold firmware
  rw [h6]
  simp only [h1, h2, h3, h4, Bool.not_true, Bool.not_false, Bool.and_true, if_true, if_false, Bool.false_eq_true]
  unfold begin_
  rw [show blot s 0x9000 0x28 (cmdPart c) (sp.op + c.tag.toNat * 65536 + c.ring * 2 ^ 32 + c.fn * 2 ^ 40) = arrive sp.op c s from rfl, h5]
  all_goals (cases body c _ <;> rfl)

theorem firmware_done {sp : FwSpec} {body : Cmd → State → Answer} {c : Cmd} {s a t : State} {st : Nat} {res : List Byte}
    (h : Begun sp c s a) (e : body c a = .done st res t) : firmware sp body c s = complete t c st res := by
  rw [firmware_begun h, e]

theorem firmware_wait {sp : FwSpec} {body : Cmd → State → Answer} {c : Cmd} {s a t : State} {w : Wait}
    (h : Begun sp c s a) (e : body c a = .wait w t) :
    firmware sp body c s = { t with ink.running := t.ink.running ++ [{ opcode := sp.op, cmd := c, wait := w }] } := by
  rw [firmware_begun h, e]

theorem firmware_held {sp : FwSpec} {body : Cmd → State → Answer} {c : Cmd} {s a : State} (h : Begun sp c s a) (e : body c a = .held) :
    firmware sp body c s = { a with ink.fetched := a.ink.fetched ++ [{ opcode := sp.op, cmd := c }] } := by
  rw [firmware_begun h, e]

/-- How a command's row completes, is refused, or waits: from its own answer in the state in which it began. -/
theorem completes_of {i : Instr} {sp : FwSpec} {body : Cmd → State → Answer} {c : Cmd} {s a t : State} {res : List Byte}
    (e : exec i s = .next (firmware sp body c s)) (h : Begun sp c s a) (hb : body c a = .done St.ok res t) : Completes i c s t res := by
  unfold Completes
  rw [e, firmware_done h hb]

theorem ends_of {i : Instr} {sp : FwSpec} {body : Cmd → State → Answer} {c : Cmd} {s a t : State} {st : Nat} {res : List Byte}
    (e : exec i s = .next (firmware sp body c s)) (h : Begun sp c s a) (hb : body c a = .done st res t) :
    exec i s = .next (complete t c st res) := by
  rw [e, firmware_done h hb]

theorem waits_of {i : Instr} {sp : FwSpec} {body : Cmd → State → Answer} {c : Cmd} {s a t : State} {w : Wait}
    (e : exec i s = .next (firmware sp body c s)) (h : Begun sp c s a) (hb : body c a = .wait w t) : Waits i sp.op c s t w := by
  unfold Waits
  rw [e, firmware_wait h hb]

/-- The first failing check decides; a check that passes leaves the rest to decide. -/
theorem checked_head {b : Bool} {n : Nat} {l : List (Bool × Nat)} {s : State} {r : Answer} (h : b = true) :
    checked ((b, n) :: l) s r = .done n [] s := by
  subst h
  rfl

theorem checked_tail {b : Bool} {n : Nat} {l : List (Bool × Nat)} {s : State} {r : Answer} (h : b = false) :
    checked ((b, n) :: l) s r = checked l s r := by
  subst h
  rfl

/-- Checks that all pass leave the chapter's answer. -/
theorem checked_pass {l : List (Bool × Nat)} {s : State} {r : Answer} (h : l.all (fun x => !x.1) = true) : checked l s r = r := by
  have : firstFail l = none := by
    induction l with
    | nil => rfl
    | cons x t ih =>
      simp only [List.all_cons, Bool.and_eq_true, Bool.not_eq_true'] at h
      simp [firstFail, h.1, ih h.2]
  unfold checked
  rw [this]

theorem hostWrite?_ok {s : State} {a : Nat} {b : List Byte} (h : hostOk s a b.length = true) : hostWrite? s a b = some (hostStore s a b) := by
  simp [hostWrite?, h]

theorem reportTo_ok {s : State} {a : Nat} {b res : List Byte} (h : hostOk s a b.length = true) :
    reportTo a b res s = .done St.ok res (hostStore s a b) := by
  simp [reportTo, hostWrite?_ok h]

end Sys2Proof.Machine
end

