-- ==== Sys2Proof/Laws/Maps.lean ====
section
/-! SUPPORT. The laws of tables: what a table reads after an entry is put or taken out. -/

set_option linter.all false
namespace Sys2Proof.Machine

@[simp] theorem mget_mput {α : Type} (d : α) (m : Map α) (k : Nat) (v : α) : mget d (mput m k v) k = v := by
  induction m with
  | nil => simp [mput, mget]
  | cons e r ih =>
    obtain ⟨j, w⟩ := e
    unfold mput
    split
    · simp [mget]
    · split
      · simp [mget]
      · rename_i h _; simp [mget, Ne.symm h, ih]

theorem mget_mput_ne {α : Type} (d : α) (m : Map α) (k : Nat) (v : α) (x : Nat) (h : x ≠ k) : mget d (mput m k v) x = mget d m x := by
  induction m with
  | nil => simp [mput, mget, Ne.symm h]
  | cons e r ih =>
    obtain ⟨j, w⟩ := e
    unfold mput
    split
    · rename_i hk; subst hk; simp [mget, Ne.symm h]
    · split
      · simp [mget, Ne.symm h]
      · simp [mget, ih]

@[simp] theorem mfind_mput {α : Type} (m : Map α) (k : Nat) (v : α) : mfind (mput m k v) k = some v := by
  induction m with
  | nil => simp [mput, mfind]
  | cons e r ih =>
    obtain ⟨j, w⟩ := e
    unfold mput
    split
    · simp [mfind]
    · split
      · simp [mfind]
      · rename_i h _; simp [mfind, Ne.symm h, ih]

theorem mfind_mput_ne {α : Type} (m : Map α) (k : Nat) (v : α) (x : Nat) (h : x ≠ k) : mfind (mput m k v) x = mfind m x := by
  induction m with
  | nil => simp [mput, mfind, Ne.symm h]
  | cons e r ih =>
    obtain ⟨j, w⟩ := e
    unfold mput
    split
    · rename_i hk; subst hk; simp [mfind, Ne.symm h]
    · split
      · simp [mfind, Ne.symm h]
      · simp [mfind, ih]

/-- A table reads its entry at a key, or the default. -/
theorem mget_eq {α : Type} (d : α) (m : Map α) (k : Nat) : mget d m k = (mfind m k).getD d := by
  induction m with
  | nil => rfl
  | cons e r ih =>
    obtain ⟨j, w⟩ := e
    simp only [mget, mfind]
    split <;> simp [ih]

theorem mdel_cons {α : Type} (j : Nat) (w : α) (r : Map α) (k : Nat) :
    mdel ((j, w) :: r) k = if j = k then mdel r k else (j, w) :: mdel r k := by
  unfold mdel
  by_cases h : j = k <;> simp [h]

@[simp] theorem mfind_mdel {α : Type} (m : Map α) (k : Nat) : mfind (mdel m k) k = none := by
  induction m with
  | nil => rfl
  | cons e r ih =>
    obtain ⟨j, w⟩ := e
    rw [mdel_cons]
    split
    · exact ih
    · rename_i h; simp [mfind, h, ih]

theorem mfind_mdel_ne {α : Type} (m : Map α) (k x : Nat) (h : x ≠ k) : mfind (mdel m k) x = mfind m x := by
  induction m with
  | nil => rfl
  | cons e r ih =>
    obtain ⟨j, w⟩ := e
    rw [mdel_cons]
    split
    · rename_i hj; subst hj; simp [mfind, ih, Ne.symm h]
    · simp [mfind, ih]

end Sys2Proof.Machine
end

