-- ==== Sys2Proof/Laws/KeptBase.lean ====
section
/-! SUPPORT. What every command leaves alone, as predicates: the queue of waiting commands, and the canonical form of both memories. -/

set_option linter.all false
namespace Sys2Proof.Machine
open Sys2Proof

/-- What a state's memories are made of, in canonical form. -/
structure CellsOk (fill : Fill) (chanFill : Map Fill) (cells host : List Host.Cell) : Prop where
  cells : cellWf (fun a => memDflt { fill := fill, chanFill := chanFill } a) cells = true
  host : cellWf hostDflt host = true

structure MemsOk (m : Mem) (host : List Host.Cell) : Prop where
  ok : CellsOk m.fill m.chanFill m.cells host

/-- A state that holds the queue `cs_` and whose memories are in canonical form. -/
structure KeptParts (cs_ p : List Instr) (m : Mem) (host : List Host.Cell) : Prop where
  queue : p = cs_
  mems : MemsOk m host

structure Kept (cs_ : List Instr) (s : State) : Prop where
  ok : KeptParts cs_ s.pending s.mem s.host

def AnsKept (cs_ : List Instr) : Answer → Prop
  | .done _ _ s => Kept cs_ s
  | .wait _ s => Kept cs_ s
  | .held => True

def OutKept (cs_ : List Instr) : Host.Outcome State Fault Refusal → Prop
  | .next s => Kept cs_ s
  | _ => True

variable {cs_ : List Instr}

theorem ans_done {a b} {s : State} (h : Kept cs_ s) : AnsKept cs_ (.done a b s) := h
theorem ans_wait {a} {s : State} (h : Kept cs_ s) : AnsKept cs_ (.wait a s) := h
theorem out_next {s : State} (h : Kept cs_ s) : OutKept cs_ (.next s) := h

theorem memOk_mk {a1 a2 a3 a4 a5 a6 a7 a8 a9 b1 b2 b3 b4 b5 b6 b7 m h} :
    Kept cs_ (State.mk a1 a2 a3 h a4 a5 a6 m a7 a8 a9 b1 b2 b3 b4 b5 b6 b7) = KeptParts cs_ a1 m h := propext ⟨fun x => x.ok, fun x => ⟨x⟩⟩
theorem memsOk_mk {p m1 m2 m3 m4 m5 m6 m7 m8 m9 n1 n2 n3 n4 n5 m1' f cf c h} :
    KeptParts cs_ p (Mem.mk f cf m1 m2 m3 c m4 m5 m6 m7 m8 m9 n1 n2 n3 n4 n5 m1') h = (p = cs_ ∧ CellsOk f cf c h) :=
  propext ⟨fun x => ⟨x.queue, x.mems.ok⟩, fun x => ⟨x.1, ⟨x.2⟩⟩⟩
theorem memsOk_of {s : State} (h : Kept cs_ s) : KeptParts cs_ s.pending s.mem s.host := h.ok
theorem cellsOk_of {s : State} (h : Kept cs_ s) : s.pending = cs_ ∧ CellsOk s.mem.fill s.mem.chanFill s.mem.cells s.host :=
  ⟨h.ok.queue, h.ok.mems.ok⟩

theorem foldl_kept {α : Type} {f : State → α → State} {l : List α} {s : State} (h : Kept cs_ s)
    (hf : ∀ s x, Kept cs_ s → Kept cs_ (f s x)) : Kept cs_ (l.foldl f s) := by
  induction l generalizing s with
  | nil => exact h
  | cons x r ih => exact ih (hf s x h)

theorem foldl_fst_kept {α β : Type} {f : State × β → α → State × β} {l : List α} {a : State × β} (h : Kept cs_ a.1)
    (hf : ∀ a x, Kept cs_ a.1 → Kept cs_ (f a x).1) : Kept cs_ (l.foldl f a).1 := by
  induction l generalizing a with
  | nil => exact h
  | cons x r ih => exact ih (hf a x h)

theorem foldl_snd_kept {α β : Type} {f : β × State → α → β × State} {l : List α} {a : β × State} (h : Kept cs_ a.2)
    (hf : ∀ a x, Kept cs_ a.2 → Kept cs_ (f a x).2) : Kept cs_ (l.foldl f a).2 := by
  induction l generalizing a with
  | nil => exact h
  | cons x r ih => exact ih (hf a x h)

theorem memDflt_eta (m : Mem) : (fun a => memDflt { fill := m.fill, chanFill := m.chanFill } a) = memDflt m := rfl
theorem ans_done_eq {a : Answer} {x y} {t : State} (h : AnsKept cs_ a) (e : a = .done x y t) : Kept cs_ t := by subst e; exact h
theorem ans_wait_eq {a : Answer} {x} {t : State} (h : AnsKept cs_ a) (e : a = .wait x t) : Kept cs_ t := by subst e; exact h
theorem foldl_snd2_kept {α β γ : Type} {f : β × γ × State → α → β × γ × State} {l : List α} {a : β × γ × State} (h : Kept cs_ a.2.2)
    (hf : ∀ a x, Kept cs_ a.2.2 → Kept cs_ (f a x).2.2) : Kept cs_ (l.foldl f a).2.2 := by
  induction l generalizing a with
  | nil => exact h
  | cons x r ih => exact ih (hf a x h)
theorem pair_eq1 {α : Type} {x : State × α} {a : α} {t : State} (h : Kept cs_ x.1) (e : x = (t, a)) : Kept cs_ t := by subst e; exact h
theorem pair_eq2 {α : Type} {x : α × State} {a : α} {t : State} (h : Kept cs_ x.2) (e : x = (a, t)) : Kept cs_ t := by subst e; exact h
theorem getD_kept {x : Option State} {s : State} (h : Kept cs_ s) (hx : ∀ t, x = some t → Kept cs_ t) : Kept cs_ (x.getD s) := by
  cases x with
  | none => exact h
  | some t => exact hx t rfl
theorem foldl_opt_kept {α : Type} {f : Option State → α → Option State} {l : List α} {o : Option State} {t : State}
    (h : ∀ t, o = some t → Kept cs_ t) (hf : ∀ o x, (∀ t, o = some t → Kept cs_ t) → ∀ t, f o x = some t → Kept cs_ t)
    (e : l.foldl f o = some t) : Kept cs_ t := by
  induction l generalizing o with
  | nil => exact h t e
  | cons x r ih => exact ih (fun t et => hf o x h t et) e

theorem bind_kept {o : Option State} {g : State → Option State} {t : State} (h : ∀ u, o = some u → Kept cs_ u)
    (hg : ∀ u t, Kept cs_ u → g u = some t → Kept cs_ t) (e : o.bind g = some t) : Kept cs_ t := by
  cases o with
  | none => simp at e
  | some u => exact hg u t (h u rfl) e

end Sys2Proof.Machine
end

