-- ==== Sys2Proof/Laws/KeptRecord.lean ====
section
/-! SUPPORT. Every definition of Machine/Record.lean keeps the queue of waiting commands and the canonical form of both memories. -/
namespace Sys2Proof.Machine
open Sys2Proof
set_option maxHeartbeats 400000
set_option linter.all false
variable {cs_ : List Instr}
theorem freeBytes_kept (s : State) (n : Nat) (hs : Kept cs_ s) : Kept cs_ (freeBytes s n).2 := by
  unfold freeBytes
  try extract_lets
  repeat'
    (first | with_reducible assumption | (with_reducible show Kept _ _; simp -iota -zeta only [memOk_mk])
           | with_reducible apply memsOk_of | with_reducible intro _ | extract_lets | split | dsimp +zetaDelta -iota only)
theorem freeBytes_kept_eq {s : State} {n : Nat} {r0 : List Byte} {t_ : State} (hs : Kept cs_ s) (e_ : freeBytes s n = (r0, t_))
    : Kept cs_ t_ := by
  have := freeBytes_kept s n hs
  rwa [e_] at this

theorem freeWord_kept (s : State) (hs : Kept cs_ s) : Kept cs_ (freeWord s).2 := by
  unfold freeWord
  try extract_lets
  repeat'
    (first | with_reducible assumption | (with_reducible show Kept _ _; simp -iota -zeta only [memOk_mk])
           | with_reducible apply memsOk_of | with_reducible intro _ | extract_lets | split | dsimp +zetaDelta -iota only)
theorem freeWord_kept_eq {s : State} {r0 : BitVec 64} {t_ : State} (hs : Kept cs_ s) (e_ : freeWord s = (r0, t_)) : Kept cs_ t_ := by
  have := freeWord_kept s hs
  rwa [e_] at this

theorem bump_kept (s : State) (p : Nat) (i : Nat) (n : Nat) (hs : Kept cs_ s) : Kept cs_ (bump s p i n) := by
  unfold bump
  try extract_lets
  repeat'
    (first | with_reducible assumption | (with_reducible show Kept _ _; simp -iota -zeta only [memOk_mk])
           | with_reducible apply memsOk_of | with_reducible intro _ | extract_lets | split | dsimp +zetaDelta -iota only)

theorem bumpO_kept (s : State) (p : Option Nat) (i : Nat) (n : Nat) (hs : Kept cs_ s) : Kept cs_ (bumpO s p i n) := by
  unfold bumpO
  try extract_lets
  repeat'
    (first | with_reducible assumption | (with_reducible show Kept _ _; simp -iota -zeta only [memOk_mk])
           | with_reducible apply memsOk_of | with_reducible apply bump_kept | with_reducible intro _ | extract_lets | split
           | dsimp +zetaDelta -iota only)

theorem prog_kept (s : State) (unit : Nat) (event : Nat) (part : Option Nat) (cls : Option Nat) (n : Nat) (hs : Kept cs_ s) : Kept cs_
    (prog s unit event part cls n) := by
  unfold prog
  try extract_lets
  repeat'
    (first | with_reducible assumption | (with_reducible show Kept _ _; simp -iota -zeta only [memOk_mk])
           | with_reducible apply memsOk_of | with_reducible apply foldl_kept | with_reducible intro _ | extract_lets | split
           | dsimp +zetaDelta -iota only)

theorem blot_kept (s : State) (unit : Nat) (code : Nat) (part : Option Nat) (arg : Nat) (hs : Kept cs_ s) : Kept cs_
    (blot s unit code part arg) := by
  unfold blot
  try extract_lets
  repeat'
    (first | with_reducible assumption | (with_reducible show Kept _ _; simp -iota -zeta only [memOk_mk])
           | with_reducible apply memsOk_of | with_reducible intro _ | extract_lets | split | dsimp +zetaDelta -iota only)

end Sys2Proof.Machine
end

