-- ==== Sys2Proof/Laws/KeptFlags.lean ====
section
/-! SUPPORT. Every definition of Machine/Flags.lean keeps the queue of waiting commands and the canonical form of both memories. -/
namespace Sys2Proof.Machine
open Sys2Proof
set_option maxHeartbeats 400000
set_option linter.all false
variable {cs_ : List Instr}
theorem setFunc_kept (s : State) (fn : Nat) (f : Func) (hs : Kept cs_ s) : Kept cs_ (setFunc s fn f) := by
  unfold setFunc
  try extract_lets
  repeat'
    (first | with_reducible assumption | (with_reducible show Kept _ _; simp -iota -zeta only [memOk_mk])
           | with_reducible apply memsOk_of | with_reducible intro _ | extract_lets | split | dsimp +zetaDelta -iota only)

theorem raise_kept (s : State) (fn : Nat) (vector : Nat) (hs : Kept cs_ s) : Kept cs_ (raise s fn vector) := by
  unfold raise
  try extract_lets
  repeat'
    (first | with_reducible assumption | (with_reducible show Kept _ _; simp -iota -zeta only [memOk_mk])
           | with_reducible apply memsOk_of | with_reducible apply prog_kept | with_reducible intro _ | extract_lets | split
           | dsimp +zetaDelta -iota only)

theorem setCause_kept (s : State) (fn : Nat) (bit : Nat) (hs : Kept cs_ s) : Kept cs_ (setCause s fn bit) := by
  unfold setCause
  try extract_lets
  repeat'
    (first | with_reducible assumption | (with_reducible show Kept _ _; simp -iota -zeta only [memOk_mk])
           | with_reducible apply memsOk_of | with_reducible apply setFunc_kept | with_reducible apply raise_kept
           | with_reducible intro _ | extract_lets | split | dsimp +zetaDelta -iota only)

theorem setFault_kept (s : State) (fn : Nat) (reason : Nat) (detail : Nat) (hs : Kept cs_ s) : Kept cs_ (setFault s fn reason detail) := by
  unfold setFault
  try extract_lets
  repeat'
    (first | with_reducible assumption | (with_reducible show Kept _ _; simp -iota -zeta only [memOk_mk])
           | with_reducible apply memsOk_of | with_reducible apply setFunc_kept | with_reducible apply setCause_kept
           | with_reducible intro _ | extract_lets | split | dsimp +zetaDelta -iota only)

theorem setState_kept (s : State) (st : BitVec 4) (hs : Kept cs_ s) : Kept cs_ (setState s st) := by
  unfold setState
  try extract_lets
  repeat'
    (first | with_reducible assumption | (with_reducible show Kept _ _; simp -iota -zeta only [memOk_mk])
           | with_reducible apply memsOk_of | with_reducible apply setCause_kept | with_reducible apply foldl_kept
           | with_reducible intro _ | extract_lets | split | dsimp +zetaDelta -iota only)


end Sys2Proof.Machine
end

