-- ==== Sys2Proof/Laws/KeptOps.lean ====
section
/-! SUPPORT. Every definition of Machine/Ops.lean keeps the queue of waiting commands and the canonical form of both memories. -/
namespace Sys2Proof.Machine
open Sys2Proof
set_option maxHeartbeats 400000
set_option linter.all false
variable {cs_ : List Instr}
theorem hostPut_kept (s : State) (a : Nat) (b : List Byte) (hs : Kept cs_ s) : Kept cs_ (hostPut s a b) := by
  unfold hostPut
  simp only [memOk_mk]
  exact ⟨hs.ok.queue, ⟨⟨hs.ok.mems.ok.cells, cellWf_puts _ _ _ _ hs.ok.mems.ok.host⟩⟩⟩

theorem hostBytesRead_kept (s : State) (n : Nat) (hs : Kept cs_ s) : Kept cs_ (hostBytesRead s n) := by
  unfold hostBytesRead
  try extract_lets
  repeat'
    (first | with_reducible assumption | (with_reducible show Kept _ _; simp -iota -zeta only [memOk_mk, memsOk_mk])
            | (with_reducible show KeptParts _ _ _ _; simp -iota -zeta only [memsOk_mk]) | with_reducible apply memsOk_of
            | with_reducible apply cellsOk_of | with_reducible apply prog_kept | (refine pair_eq1 ?_ (by with_reducible assumption))
            | (refine pair_eq2 ?_ (by with_reducible assumption)) | (refine ans_done_eq ?_ (by with_reducible assumption))
            | (refine ans_wait_eq ?_ (by with_reducible assumption)) | with_reducible apply ans_done | with_reducible apply ans_wait
            | with_reducible apply ans_held | with_reducible apply out_next | with_reducible intro _ | extract_lets | split
            | dsimp +zetaDelta -iota only)

theorem hostBytesWritten_kept (s : State) (n : Nat) (hs : Kept cs_ s) : Kept cs_ (hostBytesWritten s n) := by
  unfold hostBytesWritten
  try extract_lets
  repeat'
    (first | with_reducible assumption | (with_reducible show Kept _ _; simp -iota -zeta only [memOk_mk, memsOk_mk])
            | (with_reducible show KeptParts _ _ _ _; simp -iota -zeta only [memsOk_mk]) | with_reducible apply memsOk_of
            | with_reducible apply cellsOk_of | with_reducible apply prog_kept | (refine pair_eq1 ?_ (by with_reducible assumption))
            | (refine pair_eq2 ?_ (by with_reducible assumption)) | (refine ans_done_eq ?_ (by with_reducible assumption))
            | (refine ans_wait_eq ?_ (by with_reducible assumption)) | with_reducible apply ans_done | with_reducible apply ans_wait
            | with_reducible apply ans_held | with_reducible apply out_next | with_reducible intro _ | extract_lets | split
            | dsimp +zetaDelta -iota only)

theorem hostStore_kept (s : State) (a : Nat) (b : List Byte) (hs : Kept cs_ s) : Kept cs_ (hostStore s a b) := by
  unfold hostStore
  try extract_lets
  repeat'
    (first | with_reducible assumption | (with_reducible show Kept _ _; simp -iota -zeta only [memOk_mk, memsOk_mk])
            | (with_reducible show KeptParts _ _ _ _; simp -iota -zeta only [memsOk_mk]) | with_reducible apply memsOk_of
            | with_reducible apply cellsOk_of | with_reducible apply hostBytesWritten_kept | with_reducible apply hostPut_kept
            | (refine pair_eq1 ?_ (by with_reducible assumption)) | (refine pair_eq2 ?_ (by with_reducible assumption))
            | (refine ans_done_eq ?_ (by with_reducible assumption)) | (refine ans_wait_eq ?_ (by with_reducible assumption))
            | with_reducible apply ans_done | with_reducible apply ans_wait | with_reducible apply ans_held
            | with_reducible apply out_next | with_reducible intro _ | extract_lets | split | dsimp +zetaDelta -iota only)

theorem hostWrite?_kept_eq {s : State} {a : Nat} {b : List Byte} {t_ : State} (hs : Kept cs_ s) (e_ : hostWrite? s a b = some t_)
    : Kept cs_ t_ := by -- hand
  unfold hostWrite? at e_
  generalize hx : hostStore s a b = x at e_
  have hk : Kept cs_ x := hx ▸ hostStore_kept s a b hs
  split at e_
  · injection e_ with e_
    exact e_ ▸ hk
  · cases e_

theorem setRing_kept (s : State) (fn : Nat) (n : Nat) (r : Ring) (hs : Kept cs_ s) : Kept cs_ (setRing s fn n r) := by
  unfold setRing
  try extract_lets
  repeat'
    (first | with_reducible assumption | (with_reducible show Kept _ _; simp -iota -zeta only [memOk_mk])
           | with_reducible apply memsOk_of | with_reducible apply setFunc_kept | with_reducible intro _ | extract_lets | split
           | dsimp +zetaDelta -iota only)

theorem writeEntry_kept (s : State) (fn : Nat) (n : Nat) (b : List Byte) (hs : Kept cs_ s) : Kept cs_ (writeEntry s fn n b).1 := by
  unfold writeEntry
  try extract_lets
  repeat'
    (first | with_reducible assumption | (with_reducible show Kept _ _; simp -iota -zeta only [memOk_mk, memsOk_mk])
            | (with_reducible show KeptParts _ _ _ _; simp -iota -zeta only [memsOk_mk]) | with_reducible apply memsOk_of
            | with_reducible apply cellsOk_of | with_reducible apply setRing_kept | with_reducible apply hostStore_kept
            | with_reducible apply setFault_kept | (refine pair_eq1 ?_ (by with_reducible assumption))
            | (refine pair_eq2 ?_ (by with_reducible assumption)) | (refine ans_done_eq ?_ (by with_reducible assumption))
            | (refine ans_wait_eq ?_ (by with_reducible assumption)) | with_reducible apply ans_done | with_reducible apply ans_wait
            | with_reducible apply ans_held | with_reducible apply out_next | with_reducible intro _ | extract_lets | split
            | dsimp +zetaDelta -iota only)
theorem writeEntry_kept_eq {s : State} {fn : Nat} {n : Nat} {b : List Byte} {r1 : Bool} {t_ : State} (hs : Kept cs_ s) (e_ : writeEntry s
    fn n b = (t_, r1)) : Kept cs_ t_ := by
  have := writeEntry_kept s fn n b hs
  rwa [e_] at this

theorem countIrq_kept (s : State) (fn : Nat) (n : Nat) (irq : Bool) (hs : Kept cs_ s) : Kept cs_ (countIrq s fn n irq) := by
  unfold countIrq
  try extract_lets
  repeat'
    (first | with_reducible assumption | (with_reducible show Kept _ _; simp -iota -zeta only [memOk_mk, memsOk_mk])
            | (with_reducible show KeptParts _ _ _ _; simp -iota -zeta only [memsOk_mk]) | with_reducible apply memsOk_of
            | with_reducible apply cellsOk_of | with_reducible apply setCause_kept | with_reducible apply setRing_kept
            | with_reducible apply getD_kept | (refine pair_eq1 ?_ (by with_reducible assumption))
            | (refine pair_eq2 ?_ (by with_reducible assumption)) | (refine ans_done_eq ?_ (by with_reducible assumption))
            | (refine ans_wait_eq ?_ (by with_reducible assumption)) | with_reducible apply ans_done | with_reducible apply ans_wait
            | with_reducible apply out_next | with_reducible intro _ | extract_lets | split | dsimp +zetaDelta -iota only)

theorem drainGo_kept (fn : Nat) (n : Nat) (x2 : List Completion) (x3 : State) (hx3 : Kept cs_ x3) : Kept cs_ (drainGo fn n x2 x3).1 := by
  fun_induction drainGo fn n x2 x3
  all_goals try extract_lets
  all_goals repeat'
    (first | with_reducible assumption | (with_reducible show Kept _ _; simp -iota -zeta only [memOk_mk])
           | with_reducible apply memsOk_of | with_reducible apply writeEntry_kept
           | with_reducible (refine writeEntry_kept_eq ?_ (by with_reducible assumption)) | with_reducible apply countIrq_kept
           | with_reducible apply_assumption | with_reducible intro _ | extract_lets | split | dsimp +zetaDelta -iota only)
theorem drainGo_kept_eq {fn : Nat} {n : Nat} {x2 : List Completion} {x3 : State} {r1 : List Completion} {t_ : State} (hx3 : Kept cs_ x3)
    (e_ : drainGo fn n x2 x3 = (t_, r1)) : Kept cs_ t_ := by
  have := drainGo_kept fn n x2 x3 hx3
  rwa [e_] at this

theorem drainCompletions_kept (s : State) (fn : Nat) (n : Nat) (hs : Kept cs_ s) : Kept cs_ (drainCompletions s fn n) := by
  unfold drainCompletions
  try extract_lets
  repeat'
    (first | with_reducible assumption | (with_reducible show Kept _ _; simp -iota -zeta only [memOk_mk])
           | with_reducible apply memsOk_of | with_reducible apply drainGo_kept
           | with_reducible (refine drainGo_kept_eq ?_ (by with_reducible assumption)) | with_reducible apply setRing_kept
           | with_reducible intro _ | extract_lets | split | dsimp +zetaDelta -iota only)

theorem complete_kept (s : State) (c : Cmd) (status : Nat) (result : List Byte) (hs : Kept cs_ s) : Kept cs_
    (complete s c status result) := by
  unfold complete
  try extract_lets
  repeat'
    (first | with_reducible assumption | (with_reducible show Kept _ _; simp -iota -zeta only [memOk_mk])
           | with_reducible apply memsOk_of | with_reducible apply blot_kept | with_reducible apply setRing_kept
           | with_reducible apply drainCompletions_kept | with_reducible apply prog_kept | with_reducible intro _ | extract_lets | split
           | dsimp +zetaDelta -iota only)

theorem drainEvGo_kept (fn : Nat) (x1 : Nat) (x2 : State) (hx2 : Kept cs_ x2) : Kept cs_ (drainEvGo fn x1 x2) := by
  fun_induction drainEvGo fn x1 x2
  all_goals try extract_lets
  all_goals repeat'
    (first | with_reducible assumption | (with_reducible show Kept _ _; simp -iota -zeta only [memOk_mk])
           | with_reducible apply memsOk_of | with_reducible apply writeEntry_kept
           | with_reducible (refine writeEntry_kept_eq ?_ (by with_reducible assumption)) | with_reducible apply setCause_kept
           | with_reducible apply setFunc_kept | with_reducible apply_assumption | with_reducible intro _ | extract_lets | split
           | dsimp +zetaDelta -iota only)

theorem drainEvents_kept (s : State) (fn : Nat) (hs : Kept cs_ s) : Kept cs_ (drainEvents s fn) := by
  unfold drainEvents
  try extract_lets
  repeat'
    (first | with_reducible assumption | (with_reducible show Kept _ _; simp -iota -zeta only [memOk_mk])
           | with_reducible apply memsOk_of | with_reducible apply drainEvGo_kept | with_reducible intro _ | extract_lets | split
           | dsimp +zetaDelta -iota only)

theorem postAt_kept (s : State) (at_ : Stamp) (code : Nat) (part : Nat) (data : List Byte) (droppable : Bool) (hs : Kept cs_ s) : Kept cs_
    (postAt s at_ code part data droppable) := by
  unfold postAt
  try extract_lets
  repeat'
    (first | with_reducible assumption | (with_reducible show Kept _ _; simp -iota -zeta only [memOk_mk])
           | with_reducible apply memsOk_of | with_reducible apply prog_kept | with_reducible apply drainEvents_kept
           | with_reducible apply setFunc_kept | with_reducible intro _ | extract_lets | split | dsimp +zetaDelta -iota only)

theorem post_kept (s : State) (code : Nat) (part : Nat) (data : List Byte) (droppable : Bool) (hs : Kept cs_ s) : Kept cs_
    (post s code part data droppable) := by
  unfold post
  try extract_lets
  repeat'
    (first | with_reducible assumption | (with_reducible show Kept _ _; simp -iota -zeta only [memOk_mk])
           | with_reducible apply memsOk_of | with_reducible apply postAt_kept | with_reducible intro _ | extract_lets | split
           | dsimp +zetaDelta -iota only)

theorem grant_kept (s : State) (res : Nat) (mode : Nat) (owner : Nat) (hs : Kept cs_ s) : Kept cs_ (grant s res mode owner) := by
  unfold grant
  try extract_lets
  repeat'
    (first | with_reducible assumption | (with_reducible show Kept _ _; simp -iota -zeta only [memOk_mk])
           | with_reducible apply memsOk_of | with_reducible intro _ | extract_lets | split | dsimp +zetaDelta -iota only)

theorem ungrant_kept (s : State) (p : Holding → Bool) (hs : Kept cs_ s) : Kept cs_ (ungrant s p) := by
  unfold ungrant
  try extract_lets
  repeat'
    (first | with_reducible assumption | (with_reducible show Kept _ _; simp -iota -zeta only [memOk_mk])
           | with_reducible apply memsOk_of | with_reducible intro _ | extract_lets | split | dsimp +zetaDelta -iota only)

theorem implicitRelease_kept (s : State) (res : Nat) (mode : Nat) (hs : Kept cs_ s) : Kept cs_ (implicitRelease s res mode) := by
  unfold implicitRelease
  try extract_lets
  repeat'
    (first | with_reducible assumption | (with_reducible show Kept _ _; simp -iota -zeta only [memOk_mk])
           | with_reducible apply memsOk_of | with_reducible apply ungrant_kept | with_reducible intro _ | extract_lets | split
           | dsimp +zetaDelta -iota only)

theorem begin__kept (sp : FwSpec) (body : Cmd → State → Answer) (c : Cmd) (dup : Bool) (s : State) (back : State) (hbody : ∀ (y0 : Cmd)
    (y1 : State), Kept cs_ y1 → AnsKept cs_ (body y0 y1)) (hs : Kept cs_ s) (hback : Kept cs_ back) : Kept cs_ (begin_ sp body c dup s back)
    := by
  unfold begin_
  try extract_lets
  repeat'
    (first | with_reducible assumption | (with_reducible show Kept _ _; simp -iota -zeta only [memOk_mk, memsOk_mk])
            | (with_reducible show KeptParts _ _ _ _; simp -iota -zeta only [memsOk_mk]) | with_reducible apply memsOk_of
            | with_reducible apply cellsOk_of | with_reducible apply complete_kept | with_reducible apply hbody
            | (refine pair_eq1 ?_ (by with_reducible assumption)) | (refine pair_eq2 ?_ (by with_reducible assumption))
            | (refine ans_done_eq ?_ (by with_reducible assumption)) | (refine ans_wait_eq ?_ (by with_reducible assumption))
            | with_reducible apply ans_done | with_reducible apply ans_wait | with_reducible apply ans_held
            | with_reducible apply out_next | with_reducible intro _ | extract_lets | split | dsimp +zetaDelta -iota only)

theorem implicitClaim_kept_eq {s : State} {res : Nat} {mode : Nat} {t_ : State} (hs : Kept cs_ s) (e_ : implicitClaim s res mode = some
    t_) : Kept cs_ t_ := by
  unfold implicitClaim at e_
  try dsimp only at e_
  repeat' (first | contradiction | (cases e_; done) | split at e_)
  all_goals (try (injection e_ with e_; first | subst e_ | (injection e_ with _ e_; first | subst e_ | (injection e_ with _ e_; subst e_))))
  all_goals repeat'
    (first | with_reducible assumption | (with_reducible show Kept _ _; simp -iota -zeta only [memOk_mk, memsOk_mk])
            | (with_reducible show KeptParts _ _ _ _; simp -iota -zeta only [memsOk_mk]) | with_reducible apply memsOk_of
            | with_reducible apply cellsOk_of | with_reducible apply grant_kept | (refine pair_eq1 ?_ (by with_reducible assumption))
            | (refine pair_eq2 ?_ (by with_reducible assumption)) | (refine ans_done_eq ?_ (by with_reducible assumption))
            | (refine ans_wait_eq ?_ (by with_reducible assumption)) | with_reducible apply ans_done | with_reducible apply ans_wait
            | with_reducible apply out_next | with_reducible intro _ | extract_lets | split | dsimp +zetaDelta -iota only)

theorem firmware_kept (sp : FwSpec) (body : Cmd → State → Answer) (c : Cmd) (s : State) (hbody : ∀ (y0 : Cmd) (y1 : State), Kept cs_ y1 →
    AnsKept cs_ (body y0 y1)) (hs : Kept cs_ s) : Kept cs_ (firmware sp body c s) := by
  unfold firmware
  try extract_lets
  repeat'
    (first | with_reducible assumption | (with_reducible show Kept _ _; simp -iota -zeta only [memOk_mk, memsOk_mk])
            | (with_reducible show KeptParts _ _ _ _; simp -iota -zeta only [memsOk_mk]) | with_reducible apply memsOk_of
            | with_reducible apply cellsOk_of | with_reducible apply begin__kept | with_reducible apply blot_kept
            | with_reducible apply complete_kept | with_reducible apply hbody | (refine pair_eq1 ?_ (by with_reducible assumption))
            | (refine pair_eq2 ?_ (by with_reducible assumption)) | (refine ans_done_eq ?_ (by with_reducible assumption))
            | (refine ans_wait_eq ?_ (by with_reducible assumption)) | with_reducible apply ans_done | with_reducible apply ans_wait
            | with_reducible apply ans_held | with_reducible apply out_next | with_reducible intro _ | extract_lets | split
            | dsimp +zetaDelta -iota only)

theorem checked_kept (checks : List (Bool × Nat)) (s : State) (r : Answer) (hs : Kept cs_ s) (hr : AnsKept cs_ r) : AnsKept cs_
    (checked checks s r) := by
  unfold checked
  try extract_lets
  repeat'
    (first | with_reducible assumption | (with_reducible show Kept _ _; simp -iota -zeta only [memOk_mk])
           | with_reducible apply memsOk_of | with_reducible apply ans_done | with_reducible apply ans_wait
           | with_reducible apply out_next | with_reducible intro _ | extract_lets | split | dsimp +zetaDelta -iota only)

theorem ans_held : AnsKept cs_ .held := trivial

theorem unheld_kept (w : Bool) (r : Answer) (hr : AnsKept cs_ r) : AnsKept cs_ (unheld w r) := by -- hand
  unfold unheld
  split
  · exact trivial
  · exact hr

theorem reportTo_kept (a : Nat) (b : List Byte) (res : List Byte) (s : State) (hs : Kept cs_ s) : AnsKept cs_ (reportTo a b res s) := by
  unfold reportTo
  try extract_lets
  repeat'
    (first | with_reducible assumption | (with_reducible show Kept _ _; simp -iota -zeta only [memOk_mk])
           | with_reducible apply memsOk_of | with_reducible (refine hostWrite?_kept_eq ?_ (by with_reducible assumption))
           | with_reducible apply ans_done | with_reducible apply ans_wait | with_reducible apply out_next | with_reducible intro _
           | extract_lets | split | dsimp +zetaDelta -iota only)

theorem finishWait_kept (s : State) (w : Wait) (status : Nat) (result : List Byte) (hs : Kept cs_ s) : Kept cs_
    (finishWait s w status result) := by
  unfold finishWait
  try extract_lets
  repeat'
    (first | with_reducible assumption | (with_reducible show Kept _ _; simp -iota -zeta only [memOk_mk])
           | with_reducible apply memsOk_of | with_reducible apply complete_kept | with_reducible apply foldl_kept
           | with_reducible intro _ | extract_lets | split | dsimp +zetaDelta -iota only)

theorem abortFetched_kept (s : State) (p : Cmd → Bool) (hs : Kept cs_ s) : Kept cs_ (abortFetched s p) := by
  unfold abortFetched
  try extract_lets
  repeat'
    (first | with_reducible assumption | (with_reducible show Kept _ _; simp -iota -zeta only [memOk_mk])
           | with_reducible apply memsOk_of | with_reducible apply complete_kept | with_reducible apply foldl_kept
           | with_reducible intro _ | extract_lets | split | dsimp +zetaDelta -iota only)

end Sys2Proof.Machine
end

