-- ==== Sys2Proof/Laws/KeptSettings.lean ====
section
/-! SUPPORT. Every definition of Machine/Settings.lean keeps the queue of waiting commands and the canonical form of both memories. -/
namespace Sys2Proof.Machine
open Sys2Proof
set_option maxHeartbeats 400000
set_option linter.all false
variable {cs_ : List Instr}
theorem writeStore_kept (s : State) (l : List Section) (hs : Kept cs_ s) : Kept cs_ (writeStore s l) := by
  unfold writeStore
  try extract_lets
  repeat'
    (first | with_reducible assumption | (with_reducible show Kept _ _; simp -iota -zeta only [memOk_mk])
           | with_reducible apply memsOk_of | with_reducible intro _ | extract_lets | split | dsimp +zetaDelta -iota only)

theorem storeSection_kept (s : State) (id : Nat) (body : List Byte) (hs : Kept cs_ s) : Kept cs_ (storeSection s id body) := by
  unfold storeSection
  try extract_lets
  repeat'
    (first | with_reducible assumption | (with_reducible show Kept _ _; simp -iota -zeta only [memOk_mk])
           | with_reducible apply memsOk_of | with_reducible apply writeStore_kept | with_reducible intro _ | extract_lets | split
           | dsimp +zetaDelta -iota only)

theorem storeDefect_kept (s : State) (hs : Kept cs_ s) : Kept cs_ (storeDefect s) := by
  unfold storeDefect
  try extract_lets
  repeat'
    (first | with_reducible assumption | (with_reducible show Kept _ _; simp -iota -zeta only [memOk_mk])
           | with_reducible apply memsOk_of | with_reducible apply storeSection_kept | with_reducible intro _ | extract_lets | split
           | dsimp +zetaDelta -iota only)

theorem markChannel_kept (s : State) (t : Tier) (c : Nat) (hs : Kept cs_ s) : Kept cs_ (markChannel s t c) := by
  unfold markChannel
  try extract_lets
  repeat'
    (first | with_reducible assumption | (with_reducible show Kept _ _; simp -iota -zeta only [memOk_mk])
           | with_reducible apply memsOk_of | with_reducible apply storeDefect_kept | with_reducible intro _ | extract_lets | split
           | dsimp +zetaDelta -iota only)


end Sys2Proof.Machine
end

