-- ==== Sys2Proof/Laws/KeptMemory.lean ====
section
/-! SUPPORT. Every definition of Machine/Memory.lean keeps the queue of waiting commands and the canonical form of both memories. -/
namespace Sys2Proof.Machine
open Sys2Proof
set_option maxHeartbeats 400000
set_option linter.all false
variable {cs_ : List Instr}
theorem setRegions_kept (s : State) (t : Tier) (r : Regions) (hs : Kept cs_ s) : Kept cs_ (setRegions s t r) := by
  unfold setRegions
  try extract_lets
  repeat'
    (first | with_reducible assumption | (with_reducible show Kept _ _; simp -iota -zeta only [memOk_mk, memsOk_mk])
           | (with_reducible show KeptParts _ _ _ _; simp -iota -zeta only [memsOk_mk]) | with_reducible apply memsOk_of
           | with_reducible apply cellsOk_of | with_reducible apply foldl_kept | with_reducible apply foldl_snd2_kept
           | with_reducible apply foldl_fst_kept | with_reducible apply foldl_snd_kept | with_reducible apply getD_kept
           | (refine pair_eq1 ?_ (by with_reducible assumption)) | (refine pair_eq2 ?_ (by with_reducible assumption))
           | (refine ans_done_eq ?_ (by with_reducible assumption)) | (refine ans_wait_eq ?_ (by with_reducible assumption))
           | with_reducible apply ans_done | with_reducible apply ans_wait | with_reducible apply out_next | with_reducible intro _
           | extract_lets | split | dsimp +zetaDelta -iota only)

theorem setChan_kept (s : State) (t : Tier) (c : Nat) (x : Chan) (hs : Kept cs_ s) : Kept cs_ (setChan s t c x) := by
  unfold setChan
  try extract_lets
  repeat'
    (first | with_reducible assumption | (with_reducible show Kept _ _; simp -iota -zeta only [memOk_mk])
           | with_reducible apply memsOk_of | with_reducible intro _ | extract_lets | split | dsimp +zetaDelta -iota only)

theorem setEntry_kept (s : State) (t : Tier) (r : Nat) (e : Nat) (hs : Kept cs_ s) : Kept cs_ (setEntry s t r e) := by
  unfold setEntry
  try extract_lets
  repeat'
    (first | with_reducible assumption | (with_reducible show Kept _ _; simp -iota -zeta only [memOk_mk])
           | with_reducible apply memsOk_of | with_reducible apply setRegions_kept | with_reducible intro _ | extract_lets | split
           | dsimp +zetaDelta -iota only)

theorem storeGranule_kept (s : State) (k : Nat) (d : List Byte) (poison : Bool) (hs : Kept cs_ s) : Kept cs_
    (storeGranule s k d poison) := by
  unfold storeGranule
  simp only [memOk_mk, memsOk_mk]
  exact ⟨hs.ok.queue, cellWf_puts _ _ _ _ (cellWf_puts _ _ _ _ hs.ok.mems.ok.cells), hs.ok.mems.ok.host⟩

theorem checkRead_kept (s : State) (p : Place) (hs : Kept cs_ s) : Kept cs_ (checkRead s p).2 := by
  unfold checkRead
  try extract_lets
  repeat'
    (first | with_reducible assumption | (with_reducible show Kept _ _; simp -iota -zeta only [memOk_mk, memsOk_mk])
            | (with_reducible show KeptParts _ _ _ _; simp -iota -zeta only [memsOk_mk]) | with_reducible apply memsOk_of
            | with_reducible apply cellsOk_of | with_reducible apply setChan_kept | (refine pair_eq1 ?_ (by with_reducible assumption))
            | (refine pair_eq2 ?_ (by with_reducible assumption)) | (refine ans_done_eq ?_ (by with_reducible assumption))
            | (refine ans_wait_eq ?_ (by with_reducible assumption)) | with_reducible apply ans_done | with_reducible apply ans_wait
            | with_reducible apply ans_held | with_reducible apply out_next | with_reducible intro _ | extract_lets | split
            | dsimp +zetaDelta -iota only)
theorem checkRead_kept_eq {s : State} {p : Place} {r0 : List Byte} {t_ : State} (hs : Kept cs_ s) (e_ : checkRead s p = (r0, t_)) : Kept
    cs_ t_ := by
  have := checkRead_kept s p hs
  rwa [e_] at this

theorem placeStore_kept (s : State) (p : Place) (d : List Byte) (poison : Bool) (hs : Kept cs_ s) : Kept cs_ (placeStore s p d poison) :=
    by
  unfold placeStore
  try extract_lets
  repeat'
    (first | with_reducible assumption | (with_reducible show Kept _ _; simp -iota -zeta only [memOk_mk, memsOk_mk])
            | (with_reducible show KeptParts _ _ _ _; simp -iota -zeta only [memsOk_mk]) | with_reducible apply memsOk_of
            | with_reducible apply cellsOk_of | with_reducible apply storeGranule_kept | with_reducible apply setChan_kept
            | (refine pair_eq1 ?_ (by with_reducible assumption)) | (refine pair_eq2 ?_ (by with_reducible assumption))
            | (refine ans_done_eq ?_ (by with_reducible assumption)) | (refine ans_wait_eq ?_ (by with_reducible assumption))
            | with_reducible apply ans_done | with_reducible apply ans_wait | with_reducible apply ans_held
            | with_reducible apply out_next | with_reducible intro _ | extract_lets | split | dsimp +zetaDelta -iota only)

theorem spoil_kept (s : State) (t : Tier) (r : Nat) (hs : Kept cs_ s) : Kept cs_ (spoil s t r) := by
  unfold spoil
  try extract_lets
  repeat'
    (first | with_reducible assumption | (with_reducible show Kept _ _; simp -iota -zeta only [memOk_mk, memsOk_mk])
           | (with_reducible show KeptParts _ _ _ _; simp -iota -zeta only [memsOk_mk]) | with_reducible apply memsOk_of
           | with_reducible apply cellsOk_of | with_reducible apply foldl_kept | with_reducible apply foldl_snd2_kept
           | with_reducible apply foldl_fst_kept | with_reducible apply foldl_snd_kept | with_reducible apply getD_kept
           | (refine pair_eq1 ?_ (by with_reducible assumption)) | (refine pair_eq2 ?_ (by with_reducible assumption))
           | (refine ans_done_eq ?_ (by with_reducible assumption)) | (refine ans_wait_eq ?_ (by with_reducible assumption))
           | with_reducible apply ans_done | with_reducible apply ans_wait | with_reducible apply out_next | with_reducible intro _
           | extract_lets | split | dsimp +zetaDelta -iota only)

theorem logErr_kept (s : State) (die : Nat) (type : Nat) (t : Tier) (unit : Nat) (off : Nat) (dpa : Nat) (sym : Nat) (rq : Nat) (hs
    : Kept cs_ s) : Kept cs_ (logErr s die type t unit off dpa sym rq) := by
  unfold logErr
  try extract_lets
  repeat'
    (first | with_reducible assumption | (with_reducible show Kept _ _; simp -iota -zeta only [memOk_mk])
           | with_reducible apply memsOk_of | with_reducible intro _ | extract_lets | split | dsimp +zetaDelta -iota only)

theorem chanCount_kept (s : State) (t : Tier) (c : Nat) (i : Nat) (hs : Kept cs_ s) : Kept cs_ (chanCount s t c i) := by
  unfold chanCount
  try extract_lets
  repeat'
    (first | with_reducible assumption | (with_reducible show Kept _ _; simp -iota -zeta only [memOk_mk])
           | with_reducible apply memsOk_of | with_reducible apply setChan_kept | with_reducible intro _ | extract_lets | split
           | dsimp +zetaDelta -iota only)

theorem watchUe_kept (s : State) (t : Tier) (c : Nat) (hs : Kept cs_ s) : Kept cs_ (watchUe s t c) := by
  unfold watchUe
  try extract_lets
  repeat'
    (first | with_reducible assumption | (with_reducible show Kept _ _; simp -iota -zeta only [memOk_mk])
           | with_reducible apply memsOk_of | with_reducible apply setChan_kept | with_reducible apply markChannel_kept
           | with_reducible intro _ | extract_lets | split | dsimp +zetaDelta -iota only)

theorem watchCe_kept (s : State) (t : Tier) (c : Nat) (hs : Kept cs_ s) : Kept cs_ (watchCe s t c) := by
  unfold watchCe
  try extract_lets
  repeat'
    (first | with_reducible assumption | (with_reducible show Kept _ _; simp -iota -zeta only [memOk_mk])
           | with_reducible apply memsOk_of | with_reducible apply setChan_kept | with_reducible apply markChannel_kept
           | with_reducible intro _ | extract_lets | split | dsimp +zetaDelta -iota only)

theorem noteCe_kept (s : State) (type : Nat) (t : Tier) (c : Nat) (off : Nat) (dpa : Nat) (sym : Nat) (rq : Nat) (part : Option Nat) (hs :
    Kept cs_ s) : Kept cs_ (noteCe s type t c off dpa sym rq part) := by
  unfold noteCe
  try extract_lets
  repeat'
    (first | with_reducible assumption | (with_reducible show Kept _ _; simp -iota -zeta only [memOk_mk, memsOk_mk])
            | (with_reducible show KeptParts _ _ _ _; simp -iota -zeta only [memsOk_mk]) | with_reducible apply memsOk_of
            | with_reducible apply cellsOk_of | with_reducible apply chanCount_kept | with_reducible apply logErr_kept
            | with_reducible apply bumpO_kept | with_reducible apply watchCe_kept | with_reducible apply post_kept
            | with_reducible apply setChan_kept | (refine pair_eq1 ?_ (by with_reducible assumption))
            | (refine pair_eq2 ?_ (by with_reducible assumption)) | (refine ans_done_eq ?_ (by with_reducible assumption))
            | (refine ans_wait_eq ?_ (by with_reducible assumption)) | with_reducible apply ans_done | with_reducible apply ans_wait
            | with_reducible apply ans_held | with_reducible apply out_next | with_reducible intro _ | extract_lets | split
            | dsimp +zetaDelta -iota only)

theorem noteUe_kept (s : State) (type : Nat) (t : Tier) (c : Nat) (off : Nat) (dpa : Nat) (rq : Nat) (hs : Kept cs_ s) : Kept cs_ (noteUe
    s type t c off dpa rq) := by
  unfold noteUe
  try extract_lets
  repeat'
    (first | with_reducible assumption | (with_reducible show Kept _ _; simp -iota -zeta only [memOk_mk, memsOk_mk])
            | (with_reducible show KeptParts _ _ _ _; simp -iota -zeta only [memsOk_mk]) | with_reducible apply memsOk_of
            | with_reducible apply cellsOk_of | with_reducible apply chanCount_kept | with_reducible apply logErr_kept
            | with_reducible apply post_kept | with_reducible apply blot_kept | with_reducible apply watchUe_kept
            | (refine pair_eq1 ?_ (by with_reducible assumption)) | (refine pair_eq2 ?_ (by with_reducible assumption))
            | (refine ans_done_eq ?_ (by with_reducible assumption)) | (refine ans_wait_eq ?_ (by with_reducible assumption))
            | with_reducible apply ans_done | with_reducible apply ans_wait | with_reducible apply ans_held
            | with_reducible apply out_next | with_reducible intro _ | extract_lets | split | dsimp +zetaDelta -iota only)

theorem noteDrop_kept (s : State) (t : Tier) (c : Nat) (off : Nat) (dpa : Nat) (rq : Nat) (hs : Kept cs_ s) : Kept cs_
    (noteDrop s t c off dpa rq) := by
  unfold noteDrop
  try extract_lets
  repeat'
    (first | with_reducible assumption | (with_reducible show Kept _ _; simp -iota -zeta only [memOk_mk])
           | with_reducible apply memsOk_of | with_reducible apply chanCount_kept | with_reducible apply logErr_kept
           | with_reducible apply post_kept | with_reducible apply setChan_kept | with_reducible intro _ | extract_lets | split
           | dsimp +zetaDelta -iota only)

theorem accDrop_kept (s : State) (k : Nat) (hs : Kept cs_ s) : Kept cs_ (accDrop s k) := by
  unfold accDrop
  try extract_lets
  repeat'
    (first | with_reducible assumption | (with_reducible show Kept _ _; simp -iota -zeta only [memOk_mk])
           | with_reducible apply memsOk_of | with_reducible intro _ | extract_lets | split | dsimp +zetaDelta -iota only)

theorem granuleStore_kept (s : State) (p : Place) (dpa : Nat) (d : List Byte) (poison : Bool) (hs : Kept cs_ s) : Kept cs_ (granuleStore s
    p dpa d poison) := by
  unfold granuleStore
  try extract_lets
  repeat'
    (first | with_reducible assumption | (with_reducible show Kept _ _; simp -iota -zeta only [memOk_mk, memsOk_mk])
            | (with_reducible show KeptParts _ _ _ _; simp -iota -zeta only [memsOk_mk]) | with_reducible apply memsOk_of
            | with_reducible apply cellsOk_of | with_reducible apply placeStore_kept | with_reducible apply accDrop_kept
            | (refine pair_eq1 ?_ (by with_reducible assumption)) | (refine pair_eq2 ?_ (by with_reducible assumption))
            | (refine ans_done_eq ?_ (by with_reducible assumption)) | (refine ans_wait_eq ?_ (by with_reducible assumption))
            | with_reducible apply ans_done | with_reducible apply ans_wait | with_reducible apply ans_held
            | with_reducible apply out_next | with_reducible intro _ | extract_lets | split | dsimp +zetaDelta -iota only)

theorem chanWrite_kept (s : State) (p : Place) (dpa : Nat) (d : List Byte) (poison : Bool) (rq : Nat) (part : Option Nat) (cls : Option
    Nat) (hs : Kept cs_ s) : Kept cs_ (chanWrite s p dpa d poison rq part cls) := by
  unfold chanWrite
  try extract_lets
  repeat'
    (first | with_reducible assumption | (with_reducible show Kept _ _; simp -iota -zeta only [memOk_mk, memsOk_mk])
            | (with_reducible show KeptParts _ _ _ _; simp -iota -zeta only [memsOk_mk]) | with_reducible apply memsOk_of
            | with_reducible apply cellsOk_of | with_reducible apply prog_kept | with_reducible apply noteDrop_kept
            | with_reducible apply granuleStore_kept | (refine pair_eq1 ?_ (by with_reducible assumption))
            | (refine pair_eq2 ?_ (by with_reducible assumption)) | (refine ans_done_eq ?_ (by with_reducible assumption))
            | (refine ans_wait_eq ?_ (by with_reducible assumption)) | with_reducible apply ans_done | with_reducible apply ans_wait
            | with_reducible apply ans_held | with_reducible apply out_next | with_reducible intro _ | extract_lets | split
            | dsimp +zetaDelta -iota only)

theorem chanRead_kept (s0 : State) (p : Place) (dpa : Nat) (ceType : Nat) (ueType : Nat) (rq : Nat) (part : Option Nat) (cls : Option Nat)
    (fix : Bool) (hs0 : Kept cs_ s0) : Kept cs_ (chanRead s0 p dpa ceType ueType rq part cls fix).2.2.2 := by
  unfold chanRead
  try extract_lets
  repeat'
    (first | with_reducible assumption | (with_reducible show Kept _ _; simp -iota -zeta only [memOk_mk, memsOk_mk])
            | (with_reducible show KeptParts _ _ _ _; simp -iota -zeta only [memsOk_mk]) | with_reducible apply memsOk_of
            | with_reducible apply cellsOk_of | with_reducible apply prog_kept | with_reducible apply chanCount_kept
            | with_reducible apply checkRead_kept | with_reducible (refine checkRead_kept_eq ?_ (by with_reducible assumption))
            | with_reducible apply noteCe_kept | with_reducible apply placeStore_kept | with_reducible apply noteUe_kept
            | (refine pair_eq1 ?_ (by with_reducible assumption)) | (refine pair_eq2 ?_ (by with_reducible assumption))
            | (refine ans_done_eq ?_ (by with_reducible assumption)) | (refine ans_wait_eq ?_ (by with_reducible assumption))
            | with_reducible apply ans_done | with_reducible apply ans_wait | with_reducible apply ans_held
            | with_reducible apply out_next | with_reducible intro _ | extract_lets | split | dsimp +zetaDelta -iota only)
theorem chanRead_kept_eq {s0 : State} {p : Place} {dpa : Nat} {ceType : Nat} {ueType : Nat} {rq : Nat} {part : Option Nat} {cls : Option
    Nat} {fix : Bool} {r0 : List Byte} {r1 : Bool} {r2 : Bool} {t_ : State} (hs0 : Kept cs_ s0) (e_ : chanRead s0 p dpa ceType ueType rq part
    cls fix = (r0, r1, r2, t_)) : Kept cs_ t_ := by
  have := chanRead_kept s0 p dpa ceType ueType rq part cls fix hs0
  rwa [e_] at this

theorem writeBack_kept (s : State) (dpa : Nat) (x : Sector) (rq : Nat) (cls : Option Nat) (hs : Kept cs_ s) : Kept cs_ (writeBack s dpa x
    rq cls) := by
  unfold writeBack
  try extract_lets
  repeat'
    (first | with_reducible assumption | (with_reducible show Kept _ _; simp -iota -zeta only [memOk_mk, memsOk_mk])
            | (with_reducible show KeptParts _ _ _ _; simp -iota -zeta only [memsOk_mk]) | with_reducible apply memsOk_of
            | with_reducible apply cellsOk_of | with_reducible apply prog_kept | with_reducible apply chanWrite_kept
            | (refine pair_eq1 ?_ (by with_reducible assumption)) | (refine pair_eq2 ?_ (by with_reducible assumption))
            | (refine ans_done_eq ?_ (by with_reducible assumption)) | (refine ans_wait_eq ?_ (by with_reducible assumption))
            | with_reducible apply ans_done | with_reducible apply ans_wait | with_reducible apply ans_held
            | with_reducible apply out_next | with_reducible intro _ | extract_lets | split | dsimp +zetaDelta -iota only)

theorem writeBackLine_kept (s : State) (l : CacheLine) (cls : Option Nat) (hs : Kept cs_ s) : Kept cs_ (writeBackLine s l cls) := by
  unfold writeBackLine
  try extract_lets
  repeat'
    (first | with_reducible assumption | (with_reducible show Kept _ _; simp -iota -zeta only [memOk_mk, memsOk_mk])
            | (with_reducible show KeptParts _ _ _ _; simp -iota -zeta only [memsOk_mk]) | with_reducible apply memsOk_of
            | with_reducible apply cellsOk_of | with_reducible apply writeBack_kept | with_reducible apply foldl_kept
            | with_reducible apply foldl_snd2_kept | with_reducible apply foldl_fst_kept | with_reducible apply foldl_snd_kept
            | (refine pair_eq1 ?_ (by with_reducible assumption)) | (refine pair_eq2 ?_ (by with_reducible assumption))
            | (refine ans_done_eq ?_ (by with_reducible assumption)) | (refine ans_wait_eq ?_ (by with_reducible assumption))
            | with_reducible apply ans_done | with_reducible apply ans_wait | with_reducible apply ans_held
            | with_reducible apply out_next | with_reducible intro _ | extract_lets | split | dsimp +zetaDelta -iota only)

theorem evict_kept (s : State) (l : CacheLine) (cls : Option Nat) (hs : Kept cs_ s) : Kept cs_ (evict s l cls) := by
  unfold evict
  try extract_lets
  repeat'
    (first | with_reducible assumption | (with_reducible show Kept _ _; simp -iota -zeta only [memOk_mk, memsOk_mk])
            | (with_reducible show KeptParts _ _ _ _; simp -iota -zeta only [memsOk_mk]) | with_reducible apply memsOk_of
            | with_reducible apply cellsOk_of | with_reducible apply prog_kept | with_reducible apply writeBackLine_kept
            | (refine pair_eq1 ?_ (by with_reducible assumption)) | (refine pair_eq2 ?_ (by with_reducible assumption))
            | (refine ans_done_eq ?_ (by with_reducible assumption)) | (refine ans_wait_eq ?_ (by with_reducible assumption))
            | with_reducible apply ans_done | with_reducible apply ans_wait | with_reducible apply ans_held
            | with_reducible apply out_next | with_reducible intro _ | extract_lets | split | dsimp +zetaDelta -iota only)

theorem makeRoom_kept_eq {s : State} {die : Nat} {addr : Nat} {cls : Option Nat} {t_ : State} (hs : Kept cs_ s) (e_ : makeRoom s die addr
    cls = some t_) : Kept cs_ t_ := by -- hand
  unfold makeRoom at e_
  split at e_
  · injection e_ with e_
    exact e_ ▸ hs
  · revert e_
    generalize hl : List.filter (fun l => !pinned s l) (setLines s die addr) = ls
    intro e_
    cases ls with
    | nil => cases e_
    | cons l r =>
      have hk : Kept cs_ (evict (freeWord s).2 ((l :: r).getD ((freeWord s).1.toNat % (r.length + 1)) l) cls) :=
        evict_kept _ _ _ (freeWord_kept s hs)
      generalize hx : evict (freeWord s).2 ((l :: r).getD ((freeWord s).1.toNat % (r.length + 1)) l) cls = x at hk
      have e' : some (evict (freeWord s).2 ((l :: r).getD ((freeWord s).1.toNat % (r.length + 1)) l) cls) = some t_ := e_
      rw [hx] at e'
      injection e' with e'
      exact e' ▸ hk

theorem cachePut_kept (s : State) (die : Nat) (dpa : Nat) (x : Sector) (rq : Nat) (part : Option Nat) (cls : Option Nat) (hs : Kept cs_ s)
    : Kept cs_ (cachePut s die dpa x rq part cls) := by
  unfold cachePut
  try extract_lets
  repeat'
    (first | with_reducible assumption | (with_reducible show Kept _ _; simp -iota -zeta only [memOk_mk, memsOk_mk])
            | (with_reducible show KeptParts _ _ _ _; simp -iota -zeta only [memsOk_mk]) | with_reducible apply memsOk_of
            | with_reducible apply cellsOk_of | with_reducible (refine makeRoom_kept_eq ?_ (by with_reducible assumption))
            | with_reducible apply chanWrite_kept | (refine pair_eq1 ?_ (by with_reducible assumption))
            | (refine pair_eq2 ?_ (by with_reducible assumption)) | (refine ans_done_eq ?_ (by with_reducible assumption))
            | (refine ans_wait_eq ?_ (by with_reducible assumption)) | with_reducible apply ans_done | with_reducible apply ans_wait
            | with_reducible apply ans_held | with_reducible apply out_next | with_reducible intro _ | extract_lets | split
            | dsimp +zetaDelta -iota only)

theorem cacheYield_kept (s : State) (dpa : Nat) (cls : Option Nat) (hs : Kept cs_ s) : Kept cs_ (cacheYield s dpa cls) := by
  unfold cacheYield
  try extract_lets
  repeat'
    (first | with_reducible assumption | (with_reducible show Kept _ _; simp -iota -zeta only [memOk_mk, memsOk_mk])
            | (with_reducible show KeptParts _ _ _ _; simp -iota -zeta only [memsOk_mk]) | with_reducible apply memsOk_of
            | with_reducible apply cellsOk_of | with_reducible apply writeBackLine_kept
            | (refine pair_eq1 ?_ (by with_reducible assumption)) | (refine pair_eq2 ?_ (by with_reducible assumption))
            | (refine ans_done_eq ?_ (by with_reducible assumption)) | (refine ans_wait_eq ?_ (by with_reducible assumption))
            | with_reducible apply ans_done | with_reducible apply ans_wait | with_reducible apply ans_held
            | with_reducible apply out_next | with_reducible intro _ | extract_lets | split | dsimp +zetaDelta -iota only)

theorem cacheDrop_kept (s : State) (dpa : Nat) (hs : Kept cs_ s) : Kept cs_ (cacheDrop s dpa) := by
  unfold cacheDrop
  try extract_lets
  repeat'
    (first | with_reducible assumption | (with_reducible show Kept _ _; simp -iota -zeta only [memOk_mk, memsOk_mk])
           | (with_reducible show KeptParts _ _ _ _; simp -iota -zeta only [memsOk_mk]) | with_reducible apply memsOk_of
           | with_reducible apply cellsOk_of | with_reducible apply foldl_kept | with_reducible apply foldl_snd2_kept
           | with_reducible apply foldl_fst_kept | with_reducible apply foldl_snd_kept | with_reducible apply getD_kept
           | (refine pair_eq1 ?_ (by with_reducible assumption)) | (refine pair_eq2 ?_ (by with_reducible assumption))
           | (refine ans_done_eq ?_ (by with_reducible assumption)) | (refine ans_wait_eq ?_ (by with_reducible assumption))
           | with_reducible apply ans_done | with_reducible apply ans_wait | with_reducible apply out_next | with_reducible intro _
           | extract_lets | split | dsimp +zetaDelta -iota only)

theorem flushLine_kept (wb : Bool) (inv : Bool) (lo : Nat) (hi : Nat) (acc : State × List CacheLine × Bool) (l : CacheLine)
    (hs : Kept cs_ acc.1) : Kept cs_ (flushLine wb inv lo hi acc l).1 := by -- hand
  unfold flushLine
  obtain ⟨s, keep, held⟩ := acc
  dsimp only at hs ⊢
  split
  · exact hs
  · split
    · refine foldl_kept hs fun s x h => ?_
      split
      · exact writeBack_kept _ _ _ _ _ h
      · exact h
    · exact hs
theorem flushLine_kept_eq {wb : Bool} {inv : Bool} {lo : Nat} {hi : Nat} {acc : State × List CacheLine × Bool} {l : CacheLine} {r1 : List
    CacheLine} {r2 : Bool} {t_ : State} (hs : Kept cs_ acc.1) (e_ : flushLine wb inv lo hi acc l = (t_, r1, r2)) : Kept cs_ t_ := by -- hand
  have := flushLine_kept wb inv lo hi acc l hs
  rwa [e_] at this

theorem flushRange_kept (s : State) (lo : Nat) (hi : Nat) (wb : Bool) (inv : Bool) (hs : Kept cs_ s) : Kept cs_ (flushRange s lo hi wb
    inv).1 := by
  unfold flushRange
  try extract_lets
  repeat'
    (first | with_reducible assumption | (with_reducible show Kept _ _; simp -iota -zeta only [memOk_mk, memsOk_mk])
            | (with_reducible show KeptParts _ _ _ _; simp -iota -zeta only [memsOk_mk]) | with_reducible apply memsOk_of
            | with_reducible apply cellsOk_of | with_reducible apply flushLine_kept
            | with_reducible (refine flushLine_kept_eq ?_ (by with_reducible assumption)) | with_reducible apply foldl_kept
            | with_reducible apply chanWrite_kept | with_reducible apply accDrop_kept | with_reducible apply foldl_kept
            | with_reducible apply foldl_snd2_kept | with_reducible apply foldl_fst_kept | with_reducible apply foldl_snd_kept
            | (refine pair_eq1 ?_ (by with_reducible assumption)) | (refine pair_eq2 ?_ (by with_reducible assumption))
            | (refine ans_done_eq ?_ (by with_reducible assumption)) | (refine ans_wait_eq ?_ (by with_reducible assumption))
            | with_reducible apply ans_done | with_reducible apply ans_wait | with_reducible apply ans_held
            | with_reducible apply out_next | with_reducible intro _ | extract_lets | split | dsimp +zetaDelta -iota only)
theorem flushRange_kept_eq {s : State} {lo : Nat} {hi : Nat} {wb : Bool} {inv : Bool} {r1 : Bool} {t_ : State} (hs : Kept cs_ s) (e_ :
    flushRange s lo hi wb inv = (t_, r1)) : Kept cs_ t_ := by
  have := flushRange_kept s lo hi wb inv hs
  rwa [e_] at this

theorem flushRegion_kept (s : State) (t : Tier) (r : Nat) (hs : Kept cs_ s) : Kept cs_ (flushRegion s t r) := by
  unfold flushRegion
  try extract_lets
  repeat'
    (first | with_reducible assumption | (with_reducible show Kept _ _; simp -iota -zeta only [memOk_mk])
           | with_reducible apply memsOk_of | with_reducible apply flushRange_kept
           | with_reducible (refine flushRange_kept_eq ?_ (by with_reducible assumption)) | with_reducible intro _ | extract_lets | split
           | dsimp +zetaDelta -iota only)

theorem readGranule_kept (s : State) (rq : Requester) (dpa : Nat) (cls : Nat) (hs : Kept cs_ s) : Kept cs_ (readGranule s rq dpa cls).s :=
    by
  unfold readGranule
  try extract_lets
  repeat'
    (first | with_reducible assumption | (with_reducible show Kept _ _; simp -iota -zeta only [memOk_mk, memsOk_mk])
            | (with_reducible show KeptParts _ _ _ _; simp -iota -zeta only [memsOk_mk]) | with_reducible apply memsOk_of
            | with_reducible apply cellsOk_of | with_reducible apply chanRead_kept
            | with_reducible (refine chanRead_kept_eq ?_ (by with_reducible assumption)) | with_reducible apply bumpO_kept
            | with_reducible apply noteUe_kept | with_reducible apply prog_kept | with_reducible apply cachePut_kept
            | with_reducible (refine cachePut_kept_eq ?_ (by with_reducible assumption))
            | (refine pair_eq1 ?_ (by with_reducible assumption)) | (refine pair_eq2 ?_ (by with_reducible assumption))
            | (refine ans_done_eq ?_ (by with_reducible assumption)) | (refine ans_wait_eq ?_ (by with_reducible assumption))
            | with_reducible apply ans_done | with_reducible apply ans_wait | with_reducible apply ans_held
            | with_reducible apply out_next | with_reducible intro _ | extract_lets | split | dsimp +zetaDelta -iota only)

theorem writeGranule_kept (s : State) (rq : Requester) (dpa : Nat) (d : List Byte) (poison : Bool) (cls : Nat) (hs : Kept cs_ s) : Kept
    cs_ (writeGranule s rq dpa d poison cls).2 := by
  unfold writeGranule
  try extract_lets
  repeat'
    (first | with_reducible assumption | (with_reducible show Kept _ _; simp -iota -zeta only [memOk_mk, memsOk_mk])
            | (with_reducible show KeptParts _ _ _ _; simp -iota -zeta only [memsOk_mk]) | with_reducible apply memsOk_of
            | with_reducible apply cellsOk_of | with_reducible apply bumpO_kept | with_reducible apply chanWrite_kept
            | with_reducible apply cacheDrop_kept | with_reducible apply cachePut_kept
            | with_reducible (refine cachePut_kept_eq ?_ (by with_reducible assumption))
            | (refine pair_eq1 ?_ (by with_reducible assumption)) | (refine pair_eq2 ?_ (by with_reducible assumption))
            | (refine ans_done_eq ?_ (by with_reducible assumption)) | (refine ans_wait_eq ?_ (by with_reducible assumption))
            | with_reducible apply ans_done | with_reducible apply ans_wait | with_reducible apply ans_held
            | with_reducible apply out_next | with_reducible intro _ | extract_lets | split | dsimp +zetaDelta -iota only)
theorem writeGranule_kept_eq {s : State} {rq : Requester} {dpa : Nat} {d : List Byte} {poison : Bool} {cls : Nat} {r0 : Nat} {t_ : State}
    (hs : Kept cs_ s) (e_ : writeGranule s rq dpa d poison cls = (r0, t_)) : Kept cs_ t_ := by
  have := writeGranule_kept s rq dpa d poison cls hs
  rwa [e_] at this

theorem mergeGranule_kept (s : State) (rq : Requester) (dpa : Nat) (o : Nat) (b : List Byte) (poison : Bool) (cls : Nat) (hs : Kept cs_ s)
    : Kept cs_ (mergeGranule s rq dpa o b poison cls).2 := by
  unfold mergeGranule
  try extract_lets
  repeat'
    (first | with_reducible assumption | (with_reducible show Kept _ _; simp -iota -zeta only [memOk_mk, memsOk_mk])
            | (with_reducible show KeptParts _ _ _ _; simp -iota -zeta only [memsOk_mk]) | with_reducible apply memsOk_of
            | with_reducible apply cellsOk_of | with_reducible apply bumpO_kept | with_reducible apply noteUe_kept
            | with_reducible apply cachePut_kept | with_reducible (refine cachePut_kept_eq ?_ (by with_reducible assumption))
            | with_reducible apply chanRead_kept | with_reducible (refine chanRead_kept_eq ?_ (by with_reducible assumption))
            | with_reducible apply chanWrite_kept | (refine pair_eq1 ?_ (by with_reducible assumption))
            | (refine pair_eq2 ?_ (by with_reducible assumption)) | (refine ans_done_eq ?_ (by with_reducible assumption))
            | (refine ans_wait_eq ?_ (by with_reducible assumption)) | with_reducible apply ans_done | with_reducible apply ans_wait
            | with_reducible apply ans_held | with_reducible apply out_next | with_reducible intro _ | extract_lets | split
            | dsimp +zetaDelta -iota only)
theorem mergeGranule_kept_eq {s : State} {rq : Requester} {dpa : Nat} {o : Nat} {b : List Byte} {poison : Bool} {cls : Nat} {r0 : Nat} {t_
    : State} (hs : Kept cs_ s) (e_ : mergeGranule s rq dpa o b poison cls = (r0, t_)) : Kept cs_ t_ := by
  have := mergeGranule_kept s rq dpa o b poison cls hs
  rwa [e_] at this

end Sys2Proof.Machine
end

