-- ==== Sys2Proof/Laws/KeptObserve.lean ====
section
/-! SUPPORT. Every definition of Machine/Observe.lean keeps the queue of waiting commands and the canonical form of both memories. -/
namespace Sys2Proof.Machine
open Sys2Proof
set_option maxHeartbeats 400000
set_option linter.all false
variable {cs_ : List Instr}
theorem traceAt_kept (s : State) (inst : Nat) (type : Nat) (unit : Nat) (part : Option Nat) (payload : List Byte) (forced : Bool) (hs :
    Kept cs_ s) : Kept cs_ (traceAt s inst type unit part payload forced) := by
  unfold traceAt
  try extract_lets
  repeat'
    (first | with_reducible assumption | (with_reducible show Kept _ _; simp -iota -zeta only [memOk_mk, memsOk_mk])
            | (with_reducible show KeptParts _ _ _ _; simp -iota -zeta only [memsOk_mk]) | with_reducible apply memsOk_of
            | with_reducible apply cellsOk_of | with_reducible apply bumpO_kept | (refine pair_eq1 ?_ (by with_reducible assumption))
            | (refine pair_eq2 ?_ (by with_reducible assumption)) | (refine ans_done_eq ?_ (by with_reducible assumption))
            | (refine ans_wait_eq ?_ (by with_reducible assumption)) | with_reducible apply ans_done | with_reducible apply ans_wait
            | with_reducible apply ans_held | with_reducible apply out_next | with_reducible intro _ | extract_lets | split
            | dsimp +zetaDelta -iota only)

theorem tracePart_kept (s : State) (p : Nat) (type : Nat) (unit : Nat) (payload : List Byte) (hs : Kept cs_ s) : Kept cs_
    (tracePart s p type unit payload) := by
  unfold tracePart
  try extract_lets
  repeat'
    (first | with_reducible assumption | (with_reducible show Kept _ _; simp -iota -zeta only [memOk_mk])
           | with_reducible apply memsOk_of | with_reducible apply traceAt_kept | with_reducible intro _ | extract_lets | split
           | dsimp +zetaDelta -iota only)

theorem freeze_kept (s : State) (scope : Nat) (cause : Nat) (hs : Kept cs_ s) : Kept cs_ (freeze s scope cause) := by
  unfold freeze
  try extract_lets
  repeat'
    (first | with_reducible assumption | (with_reducible show Kept _ _; simp -iota -zeta only [memOk_mk])
           | with_reducible apply memsOk_of | with_reducible apply blot_kept | with_reducible apply traceAt_kept
           | with_reducible apply post_kept | with_reducible apply foldl_kept | with_reducible intro _ | extract_lets | split
           | dsimp +zetaDelta -iota only)

theorem thaw_kept (s : State) (scope : Nat) (hs : Kept cs_ s) : Kept cs_ (thaw s scope) := by
  unfold thaw
  try extract_lets
  repeat'
    (first | with_reducible assumption | (with_reducible show Kept _ _; simp -iota -zeta only [memOk_mk])
           | with_reducible apply memsOk_of | with_reducible apply foldl_kept | with_reducible intro _ | extract_lets | split
           | dsimp +zetaDelta -iota only)

theorem watchAct_kept (s : State) (p : Nat) (k : Nat) (kind : Nat) (unit : Nat) (dpa : Nat) (len : Nat) (w : Watch) (hs : Kept cs_ s)
    : Kept cs_ (watchAct s p k kind unit dpa len w) := by
  unfold watchAct
  try extract_lets
  repeat'
    (first | with_reducible assumption | (with_reducible show Kept _ _; simp -iota -zeta only [memOk_mk])
           | with_reducible apply memsOk_of | with_reducible apply tracePart_kept | with_reducible apply post_kept
           | with_reducible apply freeze_kept | with_reducible intro _ | extract_lets | split | dsimp +zetaDelta -iota only)

theorem watch_kept (s : State) (rq : Requester) (kind : Nat) (dpa : Nat) (len : Nat) (hs : Kept cs_ s) : Kept cs_
    (watch s rq kind dpa len) := by
  unfold watch
  try extract_lets
  repeat'
    (first | with_reducible assumption | (with_reducible show Kept _ _; simp -iota -zeta only [memOk_mk])
           | with_reducible apply memsOk_of | with_reducible apply watchAct_kept | with_reducible apply foldl_kept
           | with_reducible intro _ | extract_lets | split | dsimp +zetaDelta -iota only)

theorem setPart_kept (s : State) (p : Nat) (x : Part) (hs : Kept cs_ s) : Kept cs_ (setPart s p x) := by
  unfold setPart
  try extract_lets
  repeat'
    (first | with_reducible assumption | (with_reducible show Kept _ _; simp -iota -zeta only [memOk_mk])
           | with_reducible apply memsOk_of | with_reducible intro _ | extract_lets | split | dsimp +zetaDelta -iota only)

theorem setQueue_kept (s : State) (p : Nat) (q : Nat) (x : Queue) (hs : Kept cs_ s) : Kept cs_ (setQueue s p q x) := by
  unfold setQueue
  try extract_lets
  repeat'
    (first | with_reducible assumption | (with_reducible show Kept _ _; simp -iota -zeta only [memOk_mk])
           | with_reducible apply memsOk_of | with_reducible apply setPart_kept | with_reducible intro _ | extract_lets | split
           | dsimp +zetaDelta -iota only)

theorem latchProgs_kept (s : State) (p : Nat) (start : Bool) (hs : Kept cs_ s) : Kept cs_ (latchProgs s p start) := by
  unfold latchProgs
  try extract_lets
  repeat'
    (first | with_reducible assumption | (with_reducible show Kept _ _; simp -iota -zeta only [memOk_mk])
           | with_reducible apply memsOk_of | with_reducible intro _ | extract_lets | split | dsimp +zetaDelta -iota only)

theorem latchStart_kept (s : State) (p : Nat) (q : Nat) (index : Nat) (code : Nat) (dpa : Nat) (hs : Kept cs_ s) : Kept cs_
    (latchStart s p q index code dpa) := by
  unfold latchStart
  try extract_lets
  repeat'
    (first | with_reducible assumption | (with_reducible show Kept _ _; simp -iota -zeta only [memOk_mk])
           | with_reducible apply memsOk_of | with_reducible apply setQueue_kept | with_reducible apply latchProgs_kept
           | with_reducible apply blot_kept | with_reducible apply prog_kept | with_reducible apply tracePart_kept
           | with_reducible intro _ | extract_lets | split | dsimp +zetaDelta -iota only)

theorem latchEnd_kept (s : State) (p : Nat) (q : Nat) (status : Nat) (hs : Kept cs_ s) : Kept cs_ (latchEnd s p q status) := by
  unfold latchEnd
  try extract_lets
  repeat'
    (first | with_reducible assumption | (with_reducible show Kept _ _; simp -iota -zeta only [memOk_mk])
           | with_reducible apply memsOk_of | with_reducible apply bump_kept | with_reducible apply setQueue_kept
           | with_reducible apply latchProgs_kept | with_reducible apply blot_kept | with_reducible apply prog_kept
           | with_reducible apply tracePart_kept | with_reducible intro _ | extract_lets | split | dsimp +zetaDelta -iota only)

end Sys2Proof.Machine
end

