-- ==== Sys2Proof/Laws/KeptCompute.lean ====
section
/-! SUPPORT. Every definition of Machine/Compute.lean keeps the queue of waiting commands and the canonical form of both memories. -/
namespace Sys2Proof.Machine
open Sys2Proof
set_option maxHeartbeats 400000
set_option linter.all false
variable {cs_ : List Instr}
theorem setCore_kept (s : State) (n : Nat) (c : Core) (hs : Kept cs_ s) : Kept cs_ (setCore s n c) := by
  unfold setCore
  try extract_lets
  repeat'
    (first | with_reducible assumption | (with_reducible show Kept _ _; simp -iota -zeta only [memOk_mk])
           | with_reducible apply memsOk_of | with_reducible intro _ | extract_lets | split | dsimp +zetaDelta -iota only)

theorem queueStatus_kept (s : State) (p : Nat) (q : Nat) (status : Nat) (hs : Kept cs_ s) : Kept cs_ (queueStatus s p q status) := by
  unfold queueStatus
  try extract_lets
  repeat'
    (first | with_reducible assumption | (with_reducible show Kept _ _; simp -iota -zeta only [memOk_mk])
           | with_reducible apply memsOk_of | with_reducible apply latchEnd_kept | with_reducible apply setQueue_kept
           | with_reducible intro _ | extract_lets | split | dsimp +zetaDelta -iota only)

theorem endQueueWait_kept (s : State) (w : QWaiter) (result : Nat) (hs : Kept cs_ s) : Kept cs_ (endQueueWait s w result) := by
  unfold endQueueWait
  try extract_lets
  repeat'
    (first | with_reducible assumption | (with_reducible show Kept _ _; simp -iota -zeta only [memOk_mk])
           | with_reducible apply memsOk_of | with_reducible apply blot_kept | with_reducible apply queueStatus_kept
           | with_reducible intro _ | extract_lets | split | dsimp +zetaDelta -iota only)

theorem endCoreWait_kept (s : State) (n : Nat) (w : CoreWait) (result : Nat) (hs : Kept cs_ s) : Kept cs_ (endCoreWait s n w result) := by
  unfold endCoreWait
  try extract_lets
  repeat'
    (first | with_reducible assumption | (with_reducible show Kept _ _; simp -iota -zeta only [memOk_mk])
           | with_reducible apply memsOk_of | with_reducible apply setCore_kept | with_reducible apply blot_kept | with_reducible intro _
           | extract_lets | split | dsimp +zetaDelta -iota only)

theorem releaseWaiters_kept (s : State) (n : Nat) (hs : Kept cs_ s) : Kept cs_ (releaseWaiters s n) := by
  unfold releaseWaiters
  try extract_lets
  repeat'
    (first | with_reducible assumption | (with_reducible show Kept _ _; simp -iota -zeta only [memOk_mk])
           | with_reducible apply memsOk_of | with_reducible apply prog_kept | with_reducible apply endQueueWait_kept
           | with_reducible apply endCoreWait_kept | with_reducible apply foldl_kept | with_reducible intro _ | extract_lets | split
           | dsimp +zetaDelta -iota only)

theorem tallySet_kept (s : State) (n : Nat) (v : BitVec 32) (isSet : Bool) (src : Nat) (part : Option Nat) (hs : Kept cs_ s) : Kept cs_
    (tallySet s n v isSet src part) := by
  unfold tallySet
  try extract_lets
  repeat'
    (first | with_reducible assumption | (with_reducible show Kept _ _; simp -iota -zeta only [memOk_mk])
           | with_reducible apply memsOk_of | with_reducible apply blot_kept | with_reducible apply releaseWaiters_kept
           | with_reducible apply bumpO_kept | with_reducible apply prog_kept | with_reducible intro _ | extract_lets | split
           | dsimp +zetaDelta -iota only)

theorem noteCheck_kept (s : State) (p : Nat) (at_ : Stamp) (hs : Kept cs_ s) : Kept cs_ (noteCheck s p at_) := by
  unfold noteCheck
  try extract_lets
  repeat'
    (first | with_reducible assumption | (with_reducible show Kept _ _; simp -iota -zeta only [memOk_mk, memsOk_mk])
            | (with_reducible show KeptParts _ _ _ _; simp -iota -zeta only [memsOk_mk]) | with_reducible apply memsOk_of
            | with_reducible apply cellsOk_of | (refine pair_eq1 ?_ (by with_reducible assumption))
            | (refine pair_eq2 ?_ (by with_reducible assumption)) | (refine ans_done_eq ?_ (by with_reducible assumption))
            | (refine ans_wait_eq ?_ (by with_reducible assumption)) | with_reducible apply ans_done | with_reducible apply ans_wait
            | with_reducible apply ans_held | with_reducible apply out_next | with_reducible intro _ | extract_lets | split
            | dsimp +zetaDelta -iota only)

theorem frameArrives_kept (s : State) (n : Nat) (at_ : Stamp) (hs : Kept cs_ s) : Kept cs_ (frameArrives s n at_) := by
  unfold frameArrives
  try extract_lets
  repeat'
    (first | with_reducible assumption | (with_reducible show Kept _ _; simp -iota -zeta only [memOk_mk, memsOk_mk])
            | (with_reducible show KeptParts _ _ _ _; simp -iota -zeta only [memsOk_mk]) | with_reducible apply memsOk_of
            | with_reducible apply cellsOk_of | with_reducible apply foldl_kept | with_reducible apply noteCheck_kept
            | with_reducible apply foldl_kept | with_reducible apply foldl_snd2_kept | with_reducible apply foldl_fst_kept
            | with_reducible apply foldl_snd_kept | (refine pair_eq1 ?_ (by with_reducible assumption))
            | (refine pair_eq2 ?_ (by with_reducible assumption)) | (refine ans_done_eq ?_ (by with_reducible assumption))
            | (refine ans_wait_eq ?_ (by with_reducible assumption)) | with_reducible apply ans_done | with_reducible apply ans_wait
            | with_reducible apply ans_held | with_reducible apply out_next | with_reducible intro _ | extract_lets | split
            | dsimp +zetaDelta -iota only)

theorem tallySignalAt_kept (s : State) (at_ : Stamp) (n : Nat) (v : BitVec 32) (isSet : Bool) (src : Nat) (part : Option Nat) (hs
    : Kept cs_ s) : Kept cs_ (tallySignalAt s at_ n v isSet src part) := by
  unfold tallySignalAt
  try extract_lets
  repeat'
    (first | with_reducible assumption | (with_reducible show Kept _ _; simp -iota -zeta only [memOk_mk])
           | with_reducible apply memsOk_of | with_reducible apply tallySet_kept | with_reducible apply frameArrives_kept
           | with_reducible intro _ | extract_lets | split | dsimp +zetaDelta -iota only)

theorem tallySignalAs_kept (s : State) (n : Nat) (v : BitVec 32) (isSet : Bool) (src : Nat) (part : Option Nat) (hs : Kept cs_ s)
    : Kept cs_ (tallySignalAs s n v isSet src part) := by
  unfold tallySignalAs
  try extract_lets
  repeat'
    (first | with_reducible assumption | (with_reducible show Kept _ _; simp -iota -zeta only [memOk_mk])
           | with_reducible apply memsOk_of | with_reducible apply tallySignalAt_kept | with_reducible intro _ | extract_lets | split
           | dsimp +zetaDelta -iota only)

end Sys2Proof.Machine
end

