-- ==== Sys2Proof/Laws/KeptTables.lean ====
section
/-! SUPPORT. Every definition of Machine/Tables.lean keeps the queue of waiting commands and the canonical form of both memories. -/
namespace Sys2Proof.Machine
open Sys2Proof
set_option maxHeartbeats 400000
set_option linter.all false
variable {cs_ : List Instr}
theorem cacheOp_kept (s : State) (part : Option Nat) (dpa : Nat) (len : Nat) (code : Nat) (hs : Kept cs_ s) : Kept cs_
    (cacheOp s part dpa len code).2 := by
  unfold cacheOp
  try extract_lets
  repeat'
    (first | with_reducible assumption | (with_reducible show Kept _ _; simp -iota -zeta only [memOk_mk])
           | with_reducible apply memsOk_of | with_reducible apply flushRange_kept
           | with_reducible (refine flushRange_kept_eq ?_ (by with_reducible assumption)) | with_reducible intro _ | extract_lets | split
           | dsimp +zetaDelta -iota only)
theorem cacheOp_kept_eq {s : State} {part : Option Nat} {dpa : Nat} {len : Nat} {code : Nat} {r0 : Nat} {t_ : State} (hs : Kept cs_ s)
    (e_ : cacheOp s part dpa len code = (r0, t_)) : Kept cs_ t_ := by
  have := cacheOp_kept s part dpa len code hs
  rwa [e_] at this

theorem controlFinish_kept (s : State) (p : Nat) (status : BitVec 16) (hs : Kept cs_ s) : Kept cs_ (controlFinish s p status) := by
  unfold controlFinish
  try extract_lets
  repeat'
    (first | with_reducible assumption | (with_reducible show Kept _ _; simp -iota -zeta only [memOk_mk, memsOk_mk])
           | (with_reducible show KeptParts _ _ _ _; simp -iota -zeta only [memsOk_mk]) | with_reducible apply memsOk_of
           | with_reducible apply cellsOk_of | with_reducible apply foldl_kept | with_reducible apply foldl_snd2_kept
           | with_reducible apply foldl_fst_kept | with_reducible apply foldl_snd_kept | with_reducible apply getD_kept
           | (refine pair_eq1 ?_ (by with_reducible assumption)) | (refine pair_eq2 ?_ (by with_reducible assumption))
           | (refine ans_done_eq ?_ (by with_reducible assumption)) | (refine ans_wait_eq ?_ (by with_reducible assumption))
           | with_reducible apply ans_done | with_reducible apply ans_wait | with_reducible apply out_next | with_reducible intro _
           | extract_lets | split | dsimp +zetaDelta -iota only)

theorem controlWrite_kept (s : State) (part : Option Nat) (off : Nat) (b : List Byte) (hs : Kept cs_ s) : Kept cs_
    (controlWrite s part off b).2 := by
  unfold controlWrite
  try extract_lets
  repeat'
    (first | with_reducible assumption | (with_reducible show Kept _ _; simp -iota -zeta only [memOk_mk, memsOk_mk])
           | (with_reducible show KeptParts _ _ _ _; simp -iota -zeta only [memsOk_mk]) | with_reducible apply memsOk_of
           | with_reducible apply cellsOk_of | with_reducible apply controlFinish_kept | with_reducible apply cacheOp_kept
           | with_reducible (refine cacheOp_kept_eq ?_ (by with_reducible assumption)) | with_reducible apply foldl_kept
           | with_reducible apply foldl_snd2_kept | with_reducible apply foldl_fst_kept | with_reducible apply foldl_snd_kept
           | with_reducible apply getD_kept | (refine pair_eq1 ?_ (by with_reducible assumption))
           | (refine pair_eq2 ?_ (by with_reducible assumption)) | (refine ans_done_eq ?_ (by with_reducible assumption))
           | (refine ans_wait_eq ?_ (by with_reducible assumption)) | with_reducible apply ans_done | with_reducible apply ans_wait
           | with_reducible apply out_next | with_reducible intro _ | extract_lets | split | dsimp +zetaDelta -iota only)
theorem controlWrite_kept_eq {s : State} {part : Option Nat} {off : Nat} {b : List Byte} {r0 : Nat} {t_ : State} (hs : Kept cs_ s) (e_
    : controlWrite s part off b = (r0, t_)) : Kept cs_ t_ := by
  have := controlWrite_kept s part off b hs
  rwa [e_] at this

end Sys2Proof.Machine
end

