-- ==== Sys2Proof/Laws/KeptAccess.lean ====
section
/-! SUPPORT. Every definition of Machine/Access.lean keeps the queue of waiting commands and the canonical form of both memories. -/
namespace Sys2Proof.Machine
open Sys2Proof
set_option maxHeartbeats 400000
set_option linter.all false
variable {cs_ : List Instr}
theorem chargeReg_kept (s : State) (k : Nat) (n : Nat) (hs : Kept cs_ s) : Kept cs_ (chargeReg s k n) := by
  unfold chargeReg
  try extract_lets
  repeat'
    (first | with_reducible assumption | (with_reducible show Kept _ _; simp -iota -zeta only [memOk_mk])
           | with_reducible apply memsOk_of | with_reducible intro _ | extract_lets | split | dsimp +zetaDelta -iota only)

theorem chargeTrace_kept (s : State) (t : Nat) (n : Nat) (hs : Kept cs_ s) : Kept cs_ (chargeTrace s t n) := by
  unfold chargeTrace
  try extract_lets
  repeat'
    (first | with_reducible assumption | (with_reducible show Kept _ _; simp -iota -zeta only [memOk_mk, memsOk_mk])
            | (with_reducible show KeptParts _ _ _ _; simp -iota -zeta only [memsOk_mk]) | with_reducible apply memsOk_of
            | with_reducible apply cellsOk_of | (refine pair_eq1 ?_ (by with_reducible assumption))
            | (refine pair_eq2 ?_ (by with_reducible assumption)) | (refine ans_done_eq ?_ (by with_reducible assumption))
            | (refine ans_wait_eq ?_ (by with_reducible assumption)) | with_reducible apply ans_done | with_reducible apply ans_wait
            | with_reducible apply ans_held | with_reducible apply out_next | with_reducible intro _ | extract_lets | split
            | dsimp +zetaDelta -iota only)

theorem charge_kept (s : State) (rq : Requester) (dpa : Nat) (n : Nat) (cls : Nat) (hs : Kept cs_ s) : Kept cs_ (charge s rq dpa n cls) :=
    by
  unfold charge
  try extract_lets
  repeat'
    (first | with_reducible assumption | (with_reducible show Kept _ _; simp -iota -zeta only [memOk_mk, memsOk_mk])
            | (with_reducible show KeptParts _ _ _ _; simp -iota -zeta only [memsOk_mk]) | with_reducible apply memsOk_of
            | with_reducible apply cellsOk_of | with_reducible apply chargeTrace_kept | with_reducible apply chargeReg_kept
            | (refine pair_eq1 ?_ (by with_reducible assumption)) | (refine pair_eq2 ?_ (by with_reducible assumption))
            | (refine ans_done_eq ?_ (by with_reducible assumption)) | (refine ans_wait_eq ?_ (by with_reducible assumption))
            | with_reducible apply ans_done | with_reducible apply ans_wait | with_reducible apply ans_held
            | with_reducible apply out_next | with_reducible intro _ | extract_lets | split | dsimp +zetaDelta -iota only)

theorem crossing_kept (s : State) (src : Nat) (dst : Nat) (part : Option Nat) (n : Nat) (hs : Kept cs_ s) : Kept cs_ (crossing s src dst
    part n) := by
  unfold crossing
  try extract_lets
  repeat'
    (first | with_reducible assumption | (with_reducible show Kept _ _; simp -iota -zeta only [memOk_mk, memsOk_mk])
            | (with_reducible show KeptParts _ _ _ _; simp -iota -zeta only [memsOk_mk]) | with_reducible apply memsOk_of
            | with_reducible apply cellsOk_of | with_reducible apply prog_kept | with_reducible apply bumpO_kept
            | (refine pair_eq1 ?_ (by with_reducible assumption)) | (refine pair_eq2 ?_ (by with_reducible assumption))
            | (refine ans_done_eq ?_ (by with_reducible assumption)) | (refine ans_wait_eq ?_ (by with_reducible assumption))
            | with_reducible apply ans_done | with_reducible apply ans_wait | with_reducible apply ans_held
            | with_reducible apply out_next | with_reducible intro _ | extract_lets | split | dsimp +zetaDelta -iota only)

theorem crossFrom_kept (s : State) (die : Nat) (part : Option Nat) (write : Bool) (dpa : Nat) (n : Nat) (hs : Kept cs_ s) : Kept cs_
    (crossFrom s die part write dpa n) := by
  unfold crossFrom
  try extract_lets
  repeat'
    (first | with_reducible assumption | (with_reducible show Kept _ _; simp -iota -zeta only [memOk_mk, memsOk_mk])
            | (with_reducible show KeptParts _ _ _ _; simp -iota -zeta only [memsOk_mk]) | with_reducible apply memsOk_of
            | with_reducible apply cellsOk_of | with_reducible apply crossing_kept | (refine pair_eq1 ?_ (by with_reducible assumption))
            | (refine pair_eq2 ?_ (by with_reducible assumption)) | (refine ans_done_eq ?_ (by with_reducible assumption))
            | (refine ans_wait_eq ?_ (by with_reducible assumption)) | with_reducible apply ans_done | with_reducible apply ans_wait
            | with_reducible apply ans_held | with_reducible apply out_next | with_reducible intro _ | extract_lets | split
            | dsimp +zetaDelta -iota only)

theorem cross_kept (s : State) (rq : Requester) (write : Bool) (dpa : Nat) (n : Nat) (hs : Kept cs_ s) : Kept cs_ (cross s rq write dpa n)
    := by
  unfold cross
  try extract_lets
  repeat'
    (first | with_reducible assumption | (with_reducible show Kept _ _; simp -iota -zeta only [memOk_mk, memsOk_mk])
            | (with_reducible show KeptParts _ _ _ _; simp -iota -zeta only [memsOk_mk]) | with_reducible apply memsOk_of
            | with_reducible apply cellsOk_of | with_reducible apply crossFrom_kept | (refine pair_eq1 ?_ (by with_reducible assumption))
            | (refine pair_eq2 ?_ (by with_reducible assumption)) | (refine ans_done_eq ?_ (by with_reducible assumption))
            | (refine ans_wait_eq ?_ (by with_reducible assumption)) | with_reducible apply ans_done | with_reducible apply ans_wait
            | with_reducible apply ans_held | with_reducible apply out_next | with_reducible intro _ | extract_lets | split
            | dsimp +zetaDelta -iota only)

theorem readWindow_kept (s : State) (rq : Requester) (dpa : Nat) (cls : Nat) (hs : Kept cs_ s) : Kept cs_ (readWindow s rq dpa cls).s :=
    by
  unfold readWindow
  try extract_lets
  repeat'
    (first | with_reducible assumption | (with_reducible show Kept _ _; simp -iota -zeta only [memOk_mk, memsOk_mk])
            | (with_reducible show KeptParts _ _ _ _; simp -iota -zeta only [memsOk_mk]) | with_reducible apply memsOk_of
            | with_reducible apply cellsOk_of | with_reducible apply readGranule_kept
            | (refine pair_eq1 ?_ (by with_reducible assumption)) | (refine pair_eq2 ?_ (by with_reducible assumption))
            | (refine ans_done_eq ?_ (by with_reducible assumption)) | (refine ans_wait_eq ?_ (by with_reducible assumption))
            | with_reducible apply ans_done | with_reducible apply ans_wait | with_reducible apply ans_held
            | with_reducible apply out_next | with_reducible intro _ | extract_lets | split | dsimp +zetaDelta -iota only)

theorem readAt_kept (s : State) (rq : Requester) (dpa : Nat) (cls : Nat) (hs : Kept cs_ s) : Kept cs_ (readAt s rq dpa cls).s := by
  unfold readAt
  try extract_lets
  repeat'
    (first | with_reducible assumption | (with_reducible show Kept _ _; simp -iota -zeta only [memOk_mk, memsOk_mk])
            | (with_reducible show KeptParts _ _ _ _; simp -iota -zeta only [memsOk_mk]) | with_reducible apply memsOk_of
            | with_reducible apply cellsOk_of | with_reducible apply readWindow_kept | with_reducible apply cross_kept
            | (refine pair_eq1 ?_ (by with_reducible assumption)) | (refine pair_eq2 ?_ (by with_reducible assumption))
            | (refine ans_done_eq ?_ (by with_reducible assumption)) | (refine ans_wait_eq ?_ (by with_reducible assumption))
            | with_reducible apply ans_done | with_reducible apply ans_wait | with_reducible apply ans_held
            | with_reducible apply out_next | with_reducible intro _ | extract_lets | split | dsimp +zetaDelta -iota only)

theorem writeWindow_kept (s : State) (rq : Requester) (dpa : Nat) (b : List Byte) (poison : Bool) (cls : Nat) (hs : Kept cs_ s) : Kept cs_
    (writeWindow s rq dpa b poison cls).2 := by
  unfold writeWindow
  try extract_lets
  repeat'
    (first | with_reducible assumption | (with_reducible show Kept _ _; simp -iota -zeta only [memOk_mk, memsOk_mk])
            | (with_reducible show KeptParts _ _ _ _; simp -iota -zeta only [memsOk_mk]) | with_reducible apply memsOk_of
            | with_reducible apply cellsOk_of | with_reducible apply writeGranule_kept
            | with_reducible (refine writeGranule_kept_eq ?_ (by with_reducible assumption)) | with_reducible apply mergeGranule_kept
            | with_reducible (refine mergeGranule_kept_eq ?_ (by with_reducible assumption)) | with_reducible apply setCore_kept
            | with_reducible apply controlWrite_kept | with_reducible (refine controlWrite_kept_eq ?_ (by with_reducible assumption))
            | with_reducible apply tallySet_kept | with_reducible apply tallySignalAs_kept
            | (refine pair_eq1 ?_ (by with_reducible assumption)) | (refine pair_eq2 ?_ (by with_reducible assumption))
            | (refine ans_done_eq ?_ (by with_reducible assumption)) | (refine ans_wait_eq ?_ (by with_reducible assumption))
            | with_reducible apply ans_done | with_reducible apply ans_wait | with_reducible apply ans_held
            | with_reducible apply out_next | with_reducible intro _ | extract_lets | split | dsimp +zetaDelta -iota only)
theorem writeWindow_kept_eq {s : State} {rq : Requester} {dpa : Nat} {b : List Byte} {poison : Bool} {cls : Nat} {r0 : Nat} {t_ : State}
    (hs : Kept cs_ s) (e_ : writeWindow s rq dpa b poison cls = (r0, t_)) : Kept cs_ t_ := by
  have := writeWindow_kept s rq dpa b poison cls hs
  rwa [e_] at this

theorem writeAt_kept (s : State) (rq : Requester) (dpa : Nat) (b : List Byte) (poison : Bool) (cls : Nat) (hs : Kept cs_ s) : Kept cs_
    (writeAt s rq dpa b poison cls).2 := by
  unfold writeAt
  try extract_lets
  repeat'
    (first | with_reducible assumption | (with_reducible show Kept _ _; simp -iota -zeta only [memOk_mk, memsOk_mk])
            | (with_reducible show KeptParts _ _ _ _; simp -iota -zeta only [memsOk_mk]) | with_reducible apply memsOk_of
            | with_reducible apply cellsOk_of | with_reducible apply writeWindow_kept
            | with_reducible (refine writeWindow_kept_eq ?_ (by with_reducible assumption)) | with_reducible apply cross_kept
            | (refine pair_eq1 ?_ (by with_reducible assumption)) | (refine pair_eq2 ?_ (by with_reducible assumption))
            | (refine ans_done_eq ?_ (by with_reducible assumption)) | (refine ans_wait_eq ?_ (by with_reducible assumption))
            | with_reducible apply ans_done | with_reducible apply ans_wait | with_reducible apply ans_held
            | with_reducible apply out_next | with_reducible intro _ | extract_lets | split | dsimp +zetaDelta -iota only)
theorem writeAt_kept_eq {s : State} {rq : Requester} {dpa : Nat} {b : List Byte} {poison : Bool} {cls : Nat} {r0 : Nat} {t_ : State} (hs :
    Kept cs_ s) (e_ : writeAt s rq dpa b poison cls = (r0, t_)) : Kept cs_ t_ := by
  have := writeAt_kept s rq dpa b poison cls hs
  rwa [e_] at this

theorem readGo_kept (rq : Requester) (cls : Nat) (x2 : List Nat) (x3 : State) (x4 : List (List Byte × Bool)) (hx3 : Kept cs_ x3) : Kept
    cs_ (readGo rq cls x2 x3 x4).2 := by
  fun_induction readGo rq cls x2 x3 x4
  all_goals try extract_lets
  all_goals repeat'
    (first | with_reducible assumption | (with_reducible show Kept _ _; simp -iota -zeta only [memOk_mk, memsOk_mk])
            | (with_reducible show KeptParts _ _ _ _; simp -iota -zeta only [memsOk_mk]) | with_reducible apply memsOk_of
            | with_reducible apply cellsOk_of | with_reducible apply readAt_kept | (refine pair_eq1 ?_ (by with_reducible assumption))
            | (refine pair_eq2 ?_ (by with_reducible assumption)) | (refine ans_done_eq ?_ (by with_reducible assumption))
            | (refine ans_wait_eq ?_ (by with_reducible assumption)) | with_reducible apply ans_done | with_reducible apply ans_wait
            | with_reducible apply ans_held | with_reducible apply out_next | with_reducible apply_assumption | with_reducible intro _
            | extract_lets | split | dsimp +zetaDelta -iota only)
theorem readGo_kept_eq {rq : Requester} {cls : Nat} {x2 : List Nat} {x3 : State} {x4 : List (List Byte × Bool)} {r0 : List (List Byte ×
    Bool)} {t_ : State} (hx3 : Kept cs_ x3) (e_ : readGo rq cls x2 x3 x4 = (r0, t_)) : Kept cs_ t_ := by
  have := readGo_kept rq cls x2 x3 x4 hx3
  rwa [e_] at this

theorem readGranules_kept (s : State) (rq : Requester) (dpa : Nat) (len : Nat) (cls : Nat) (hs : Kept cs_ s) : Kept cs_ (readGranules s rq
    dpa len cls).2.2 := by
  unfold readGranules
  try extract_lets
  repeat'
    (first | with_reducible assumption | (with_reducible show Kept _ _; simp -iota -zeta only [memOk_mk, memsOk_mk])
            | (with_reducible show KeptParts _ _ _ _; simp -iota -zeta only [memsOk_mk]) | with_reducible apply memsOk_of
            | with_reducible apply cellsOk_of | with_reducible apply readGo_kept
            | with_reducible (refine readGo_kept_eq ?_ (by with_reducible assumption)) | with_reducible apply charge_kept
            | with_reducible apply watch_kept | (refine pair_eq1 ?_ (by with_reducible assumption))
            | (refine pair_eq2 ?_ (by with_reducible assumption)) | (refine ans_done_eq ?_ (by with_reducible assumption))
            | (refine ans_wait_eq ?_ (by with_reducible assumption)) | with_reducible apply ans_done | with_reducible apply ans_wait
            | with_reducible apply ans_held | with_reducible apply out_next | with_reducible intro _ | extract_lets | split
            | dsimp +zetaDelta -iota only)
theorem readGranules_kept_eq {s : State} {rq : Requester} {dpa : Nat} {len : Nat} {cls : Nat} {r0 : Nat} {r1 : List (List Byte × Bool)}
    {t_ : State} (hs : Kept cs_ s) (e_ : readGranules s rq dpa len cls = (r0, r1, t_)) : Kept cs_ t_ := by
  have := readGranules_kept s rq dpa len cls hs
  rwa [e_] at this

theorem readBytes_kept (s : State) (rq : Requester) (dpa : Nat) (len : Nat) (cls : Nat) (hs : Kept cs_ s) : Kept cs_
    (readBytes s rq dpa len cls).2.2.2 := by
  unfold readBytes
  try extract_lets
  repeat'
    (first | with_reducible assumption | (with_reducible show Kept _ _; simp -iota -zeta only [memOk_mk])
           | with_reducible apply memsOk_of | with_reducible apply readGranules_kept
           | with_reducible (refine readGranules_kept_eq ?_ (by with_reducible assumption)) | with_reducible intro _ | extract_lets
           | split | dsimp +zetaDelta -iota only)
theorem readBytes_kept_eq {s : State} {rq : Requester} {dpa : Nat} {len : Nat} {cls : Nat} {r0 : Nat} {r1 : List Byte} {r2 : Bool} {t_
    : State} (hs : Kept cs_ s) (e_ : readBytes s rq dpa len cls = (r0, r1, r2, t_)) : Kept cs_ t_ := by
  have := readBytes_kept s rq dpa len cls hs
  rwa [e_] at this

theorem writeBytes_kept (s : State) (rq : Requester) (dpa : Nat) (b : List Byte) (poison : Bool) (cls : Nat) (hs : Kept cs_ s) : Kept cs_
    (writeBytes s rq dpa b poison cls).2 := by
  unfold writeBytes
  try extract_lets
  repeat'
    (first | with_reducible assumption | (with_reducible show Kept _ _; simp -iota -zeta only [memOk_mk, memsOk_mk])
            | (with_reducible show KeptParts _ _ _ _; simp -iota -zeta only [memsOk_mk]) | with_reducible apply memsOk_of
            | with_reducible apply cellsOk_of | with_reducible apply foldl_kept | with_reducible apply writeAt_kept
            | with_reducible (refine writeAt_kept_eq ?_ (by with_reducible assumption)) | with_reducible apply charge_kept
            | with_reducible apply watch_kept | with_reducible apply foldl_kept | with_reducible apply foldl_snd2_kept
            | with_reducible apply foldl_fst_kept | with_reducible apply foldl_snd_kept
            | (refine pair_eq1 ?_ (by with_reducible assumption)) | (refine pair_eq2 ?_ (by with_reducible assumption))
            | (refine ans_done_eq ?_ (by with_reducible assumption)) | (refine ans_wait_eq ?_ (by with_reducible assumption))
            | with_reducible apply ans_done | with_reducible apply ans_wait | with_reducible apply ans_held
            | with_reducible apply out_next | with_reducible intro _ | extract_lets | split | dsimp +zetaDelta -iota only)
theorem writeBytes_kept_eq {s : State} {rq : Requester} {dpa : Nat} {b : List Byte} {poison : Bool} {cls : Nat} {r0 : Nat} {t_ : State}
    (hs : Kept cs_ s) (e_ : writeBytes s rq dpa b poison cls = (r0, t_)) : Kept cs_ t_ := by
  have := writeBytes_kept s rq dpa b poison cls hs
  rwa [e_] at this

theorem writeGranules_kept (s : State) (rq : Requester) (dpa : Nat) (l : List (List Byte × Bool)) (cls : Nat) (hs : Kept cs_ s) : Kept cs_
    (writeGranules s rq dpa l cls).2 := by
  unfold writeGranules
  try extract_lets
  repeat'
    (first | with_reducible assumption | (with_reducible show Kept _ _; simp -iota -zeta only [memOk_mk, memsOk_mk])
            | (with_reducible show KeptParts _ _ _ _; simp -iota -zeta only [memsOk_mk]) | with_reducible apply memsOk_of
            | with_reducible apply cellsOk_of | with_reducible apply foldl_kept | with_reducible apply writeAt_kept
            | with_reducible (refine writeAt_kept_eq ?_ (by with_reducible assumption)) | with_reducible apply charge_kept
            | with_reducible apply watch_kept | with_reducible apply foldl_kept | with_reducible apply foldl_snd2_kept
            | with_reducible apply foldl_fst_kept | with_reducible apply foldl_snd_kept
            | (refine pair_eq1 ?_ (by with_reducible assumption)) | (refine pair_eq2 ?_ (by with_reducible assumption))
            | (refine ans_done_eq ?_ (by with_reducible assumption)) | (refine ans_wait_eq ?_ (by with_reducible assumption))
            | with_reducible apply ans_done | with_reducible apply ans_wait | with_reducible apply ans_held
            | with_reducible apply out_next | with_reducible intro _ | extract_lets | split | dsimp +zetaDelta -iota only)
theorem writeGranules_kept_eq {s : State} {rq : Requester} {dpa : Nat} {l : List (List Byte × Bool)} {cls : Nat} {r0 : Nat} {t_ : State}
    (hs : Kept cs_ s) (e_ : writeGranules s rq dpa l cls = (r0, t_)) : Kept cs_ t_ := by
  have := writeGranules_kept s rq dpa l cls hs
  rwa [e_] at this

theorem crossRange_kept (s : State) (die : Nat) (part : Option Nat) (write : Bool) (dpa : Nat) (len : Nat) (hs : Kept cs_ s) : Kept cs_
    (crossRange s die part write dpa len) := by
  unfold crossRange
  try extract_lets
  repeat'
    (first | with_reducible assumption | (with_reducible show Kept _ _; simp -iota -zeta only [memOk_mk, memsOk_mk])
            | (with_reducible show KeptParts _ _ _ _; simp -iota -zeta only [memsOk_mk]) | with_reducible apply memsOk_of
            | with_reducible apply cellsOk_of | with_reducible apply foldl_kept | with_reducible apply crossFrom_kept
            | with_reducible apply foldl_kept | with_reducible apply foldl_snd2_kept | with_reducible apply foldl_fst_kept
            | with_reducible apply foldl_snd_kept | (refine pair_eq1 ?_ (by with_reducible assumption))
            | (refine pair_eq2 ?_ (by with_reducible assumption)) | (refine ans_done_eq ?_ (by with_reducible assumption))
            | (refine ans_wait_eq ?_ (by with_reducible assumption)) | with_reducible apply ans_done | with_reducible apply ans_wait
            | with_reducible apply ans_held | with_reducible apply out_next | with_reducible intro _ | extract_lets | split
            | dsimp +zetaDelta -iota only)

theorem copyWithin_kept (s : State) (rq : Requester) (src : Nat) (dst : Nat) (len : Nat) (cls : Nat) (hs : Kept cs_ s) : Kept cs_
    (copyWithin s rq src dst len cls).2 := by
  unfold copyWithin
  try extract_lets
  repeat'
    (first | with_reducible assumption | (with_reducible show Kept _ _; simp -iota -zeta only [memOk_mk])
           | with_reducible apply memsOk_of | with_reducible apply readGranules_kept
           | with_reducible (refine readGranules_kept_eq ?_ (by with_reducible assumption)) | with_reducible apply writeGranules_kept
           | with_reducible (refine writeGranules_kept_eq ?_ (by with_reducible assumption)) | with_reducible intro _ | extract_lets
           | split | dsimp +zetaDelta -iota only)
theorem copyWithin_kept_eq {s : State} {rq : Requester} {src : Nat} {dst : Nat} {len : Nat} {cls : Nat} {r0 : Nat} {t_ : State} (hs
    : Kept cs_ s) (e_ : copyWithin s rq src dst len cls = (r0, t_)) : Kept cs_ t_ := by
  have := copyWithin_kept s rq src dst len cls hs
  rwa [e_] at this

end Sys2Proof.Machine
end

