-- ==== Sys2Proof/Laws/KeptTick.lean ====
section
/-! SUPPORT. Every definition of Machine/Tick.lean keeps the queue of waiting commands and the canonical form of both memories. -/
namespace Sys2Proof.Machine
open Sys2Proof
set_option maxHeartbeats 400000
set_option linter.all false
variable {cs_ : List Instr}
theorem tickPart_kept (s : State) (p : Nat) (cyc : Nat) (ccyc : Nat) (hs : Kept cs_ s) : Kept cs_ (tickPart s p cyc ccyc) := by
  unfold tickPart
  try extract_lets
  repeat'
    (first | with_reducible assumption | (with_reducible show Kept _ _; simp -iota -zeta only [memOk_mk])
           | with_reducible apply memsOk_of | with_reducible apply bump_kept | with_reducible intro _ | extract_lets | split
           | dsimp +zetaDelta -iota only)

theorem tickExps_kept (s : State) (cyc : Nat) (hs : Kept cs_ s) : Kept cs_ (tickExps s cyc) := by
  unfold tickExps
  try extract_lets
  repeat'
    (first | with_reducible assumption | (with_reducible show Kept _ _; simp -iota -zeta only [memOk_mk, memsOk_mk])
            | (with_reducible show KeptParts _ _ _ _; simp -iota -zeta only [memsOk_mk]) | with_reducible apply memsOk_of
            | with_reducible apply cellsOk_of | with_reducible apply foldl_kept | with_reducible apply prog_kept
            | with_reducible apply foldl_kept | with_reducible apply foldl_snd2_kept | with_reducible apply foldl_fst_kept
            | with_reducible apply foldl_snd_kept | (refine pair_eq1 ?_ (by with_reducible assumption))
            | (refine pair_eq2 ?_ (by with_reducible assumption)) | (refine ans_done_eq ?_ (by with_reducible assumption))
            | (refine ans_wait_eq ?_ (by with_reducible assumption)) | with_reducible apply ans_done | with_reducible apply ans_wait
            | with_reducible apply ans_held | with_reducible apply out_next | with_reducible intro _ | extract_lets | split
            | dsimp +zetaDelta -iota only)

theorem tickUnits_kept (s : State) (cyc ccyc : Nat) (hs : Kept cs_ s) : Kept cs_ (tickUnits s cyc ccyc) := by
  unfold tickUnits
  try extract_lets
  repeat'
    (first | with_reducible assumption | (with_reducible show Kept _ _; simp -iota -zeta only [memOk_mk, memsOk_mk])
            | (with_reducible show KeptParts _ _ _ _; simp -iota -zeta only [memsOk_mk]) | with_reducible apply memsOk_of
            | with_reducible apply cellsOk_of | with_reducible apply foldl_kept | with_reducible apply prog_kept
            | with_reducible apply foldl_kept | with_reducible apply foldl_snd2_kept | with_reducible apply foldl_fst_kept
            | with_reducible apply foldl_snd_kept | with_reducible apply getD_kept | (refine pair_eq1 ?_ (by with_reducible assumption))
            | (refine pair_eq2 ?_ (by with_reducible assumption)) | (refine ans_done_eq ?_ (by with_reducible assumption))
            | (refine ans_wait_eq ?_ (by with_reducible assumption)) | with_reducible apply ans_done | with_reducible apply ans_wait
            | with_reducible apply ans_held | with_reducible apply out_next | with_reducible intro _ | extract_lets | split
            | dsimp +zetaDelta -iota only)

theorem elapse_kept (s : State) (dt : Nat) (hs : Kept cs_ s) : Kept cs_ (elapse s dt) := by
  unfold elapse
  try extract_lets
  repeat'
    (first | with_reducible assumption | (with_reducible show Kept _ _; simp -iota -zeta only [memOk_mk, memsOk_mk])
            | (with_reducible show KeptParts _ _ _ _; simp -iota -zeta only [memsOk_mk]) | with_reducible apply memsOk_of
            | with_reducible apply cellsOk_of | with_reducible apply tickUnits_kept | with_reducible apply tickExps_kept
            | with_reducible apply foldl_kept | with_reducible apply tickPart_kept | with_reducible apply foldl_kept
            | with_reducible apply foldl_snd2_kept | with_reducible apply foldl_fst_kept | with_reducible apply foldl_snd_kept
            | (refine pair_eq1 ?_ (by with_reducible assumption)) | (refine pair_eq2 ?_ (by with_reducible assumption))
            | (refine ans_done_eq ?_ (by with_reducible assumption)) | (refine ans_wait_eq ?_ (by with_reducible assumption))
            | with_reducible apply ans_done | with_reducible apply ans_wait | with_reducible apply ans_held
            | with_reducible apply out_next | with_reducible intro _ | extract_lets | split | dsimp +zetaDelta -iota only)

theorem tickPass_kept (s : State) (hs : Kept cs_ s) : Kept cs_ (tickPass s) := by
  unfold tickPass
  try extract_lets
  repeat'
    (first | with_reducible assumption | (with_reducible show Kept _ _; simp -iota -zeta only [memOk_mk, memsOk_mk])
            | (with_reducible show KeptParts _ _ _ _; simp -iota -zeta only [memsOk_mk]) | with_reducible apply memsOk_of
            | with_reducible apply cellsOk_of | with_reducible apply elapse_kept | (refine pair_eq1 ?_ (by with_reducible assumption))
            | (refine pair_eq2 ?_ (by with_reducible assumption)) | (refine ans_done_eq ?_ (by with_reducible assumption))
            | (refine ans_wait_eq ?_ (by with_reducible assumption)) | with_reducible apply ans_done | with_reducible apply ans_wait
            | with_reducible apply out_next | with_reducible intro _ | extract_lets | split | dsimp +zetaDelta -iota only)

theorem elapseTo_kept (s : State) (inst : Nat) (hs : Kept cs_ s) : Kept cs_ (elapseTo s inst) := by
  unfold elapseTo
  try extract_lets
  repeat'
    (first | with_reducible assumption | (with_reducible show Kept _ _; simp -iota -zeta only [memOk_mk, memsOk_mk])
            | (with_reducible show KeptParts _ _ _ _; simp -iota -zeta only [memsOk_mk]) | with_reducible apply memsOk_of
            | with_reducible apply cellsOk_of | with_reducible apply elapse_kept | (refine pair_eq1 ?_ (by with_reducible assumption))
            | (refine pair_eq2 ?_ (by with_reducible assumption)) | (refine ans_done_eq ?_ (by with_reducible assumption))
            | (refine ans_wait_eq ?_ (by with_reducible assumption)) | with_reducible apply ans_done | with_reducible apply ans_wait
            | with_reducible apply out_next | with_reducible intro _ | extract_lets | split | dsimp +zetaDelta -iota only)

end Sys2Proof.Machine
end

