-- ==== Sys2Proof/Laws/KeptLinks.lean ====
section
/-! SUPPORT. Every definition of Machine/Links.lean keeps the queue of waiting commands and the canonical form of both memories. -/
namespace Sys2Proof.Machine
open Sys2Proof
set_option maxHeartbeats 400000
set_option linter.all false
variable {cs_ : List Instr}
theorem setLink_kept (s : State) (l : Nat) (x : Link) (hs : Kept cs_ s) : Kept cs_ (setLink s l x) := by
  unfold setLink
  try extract_lets
  repeat'
    (first | with_reducible assumption | (with_reducible show Kept _ _; simp -iota -zeta only [memOk_mk])
           | with_reducible apply memsOk_of | with_reducible intro _ | extract_lets | split | dsimp +zetaDelta -iota only)

theorem linkCount_kept (s : State) (l : Nat) (i : Nat) (n : Nat) (hs : Kept cs_ s) : Kept cs_ (linkCount s l i n) := by
  unfold linkCount
  try extract_lets
  repeat'
    (first | with_reducible assumption | (with_reducible show Kept _ _; simp -iota -zeta only [memOk_mk])
           | with_reducible apply memsOk_of | with_reducible apply setLink_kept | with_reducible intro _ | extract_lets | split
           | dsimp +zetaDelta -iota only)

theorem linkMove_kept (s : State) (l : Nat) (st : Nat) (reason : Nat) (hs : Kept cs_ s) : Kept cs_ (linkMove s l st reason) := by
  unfold linkMove
  try extract_lets
  repeat'
    (first | with_reducible assumption | (with_reducible show Kept _ _; simp -iota -zeta only [memOk_mk])
           | with_reducible apply memsOk_of | with_reducible apply setLink_kept | with_reducible apply blot_kept
           | with_reducible apply post_kept | with_reducible intro _ | extract_lets | split | dsimp +zetaDelta -iota only)

theorem countMsg_kept (s : State) (i : Nat) (m : Msg) (hs : Kept cs_ s) : Kept cs_ (countMsg s i m) := by
  unfold countMsg
  try extract_lets
  repeat'
    (first | with_reducible assumption | (with_reducible show Kept _ _; simp -iota -zeta only [memOk_mk])
           | with_reducible apply memsOk_of | with_reducible apply bump_kept | with_reducible intro _ | extract_lets | split
           | dsimp +zetaDelta -iota only)

theorem noteMsg_kept (s : State) (l : Nat) (m : Msg) (type : Nat) (hs : Kept cs_ s) : Kept cs_ (noteMsg s l m type) := by
  unfold noteMsg
  try extract_lets
  repeat'
    (first | with_reducible assumption | (with_reducible show Kept _ _; simp -iota -zeta only [memOk_mk, memsOk_mk])
            | (with_reducible show KeptParts _ _ _ _; simp -iota -zeta only [memsOk_mk]) | with_reducible apply memsOk_of
            | with_reducible apply cellsOk_of | with_reducible apply traceAt_kept | (refine pair_eq1 ?_ (by with_reducible assumption))
            | (refine pair_eq2 ?_ (by with_reducible assumption)) | (refine ans_done_eq ?_ (by with_reducible assumption))
            | (refine ans_wait_eq ?_ (by with_reducible assumption)) | with_reducible apply ans_done | with_reducible apply ans_wait
            | with_reducible apply ans_held | with_reducible apply out_next | with_reducible intro _ | extract_lets | split
            | dsimp +zetaDelta -iota only)

theorem pumpGo_kept (l : Nat) (x1 : Nat) (x2 : State) (hx2 : Kept cs_ x2) : Kept cs_ (pumpGo l x1 x2) := by
  induction x1 generalizing x2 with
  | zero => (first | with_reducible assumption | (unfold pumpGo; with_reducible assumption))
  | succ k ih =>
    unfold pumpGo
    try extract_lets
    repeat'
      (first | with_reducible assumption | (with_reducible show Kept _ _; simp -iota -zeta only [memOk_mk, memsOk_mk])
              | (with_reducible show KeptParts _ _ _ _; simp -iota -zeta only [memsOk_mk]) | with_reducible apply memsOk_of
              | with_reducible apply cellsOk_of | with_reducible apply setLink_kept | with_reducible apply noteMsg_kept
              | with_reducible apply countMsg_kept | with_reducible apply prog_kept | with_reducible apply linkCount_kept
              | with_reducible apply foldl_kept | with_reducible apply foldl_snd2_kept | with_reducible apply foldl_fst_kept
              | with_reducible apply foldl_snd_kept | (refine pair_eq1 ?_ (by with_reducible assumption))
              | (refine pair_eq2 ?_ (by with_reducible assumption)) | (refine ans_done_eq ?_ (by with_reducible assumption))
              | (refine ans_wait_eq ?_ (by with_reducible assumption)) | with_reducible apply ans_done | with_reducible apply ans_wait
              | with_reducible apply ans_held | with_reducible apply out_next | with_reducible apply ih | with_reducible intro _
              | extract_lets | split | dsimp +zetaDelta -iota only)

theorem pump_kept (s : State) (l : Nat) (hs : Kept cs_ s) : Kept cs_ (pump s l) := by
  unfold pump
  try extract_lets
  repeat'
    (first | with_reducible assumption | (with_reducible show Kept _ _; simp -iota -zeta only [memOk_mk])
           | with_reducible apply memsOk_of | with_reducible apply pumpGo_kept | with_reducible intro _ | extract_lets | split
           | dsimp +zetaDelta -iota only)

theorem sendBare_kept (s : State) (l : Nat) (kind : Nat) (slots : List Byte) (hs : Kept cs_ s) : Kept cs_ (sendBare s l kind slots) := by
  unfold sendBare
  try extract_lets
  repeat'
    (first | with_reducible assumption | (with_reducible show Kept _ _; simp -iota -zeta only [memOk_mk, memsOk_mk])
            | (with_reducible show KeptParts _ _ _ _; simp -iota -zeta only [memsOk_mk]) | with_reducible apply memsOk_of
            | with_reducible apply cellsOk_of | with_reducible apply prog_kept | with_reducible apply linkCount_kept
            | with_reducible apply setLink_kept | (refine pair_eq1 ?_ (by with_reducible assumption))
            | (refine pair_eq2 ?_ (by with_reducible assumption)) | (refine ans_done_eq ?_ (by with_reducible assumption))
            | (refine ans_wait_eq ?_ (by with_reducible assumption)) | with_reducible apply ans_done | with_reducible apply ans_wait
            | with_reducible apply ans_held | with_reducible apply out_next | with_reducible intro _ | extract_lets | split
            | dsimp +zetaDelta -iota only)

theorem settleLink_kept (s0 : State) (l : Nat) (hs0 : Kept cs_ s0) : Kept cs_ (settleLink s0 l) := by
  unfold settleLink
  try extract_lets
  repeat'
    (first | with_reducible assumption | (with_reducible show Kept _ _; simp -iota -zeta only [memOk_mk])
           | with_reducible apply memsOk_of | with_reducible apply pump_kept | with_reducible apply sendBare_kept
           | with_reducible intro _ | extract_lets | split | dsimp +zetaDelta -iota only)

theorem sendOn_kept (s : State) (l : Nat) (m : Msg) (hs : Kept cs_ s) : Kept cs_ (sendOn s l m) := by
  unfold sendOn
  try extract_lets
  repeat'
    (first | with_reducible assumption | (with_reducible show Kept _ _; simp -iota -zeta only [memOk_mk, memsOk_mk])
            | (with_reducible show KeptParts _ _ _ _; simp -iota -zeta only [memsOk_mk]) | with_reducible apply memsOk_of
            | with_reducible apply cellsOk_of | with_reducible apply pump_kept | with_reducible apply setLink_kept
            | (refine pair_eq1 ?_ (by with_reducible assumption)) | (refine pair_eq2 ?_ (by with_reducible assumption))
            | (refine ans_done_eq ?_ (by with_reducible assumption)) | (refine ans_wait_eq ?_ (by with_reducible assumption))
            | with_reducible apply ans_done | with_reducible apply ans_wait | with_reducible apply ans_held
            | with_reducible apply out_next | with_reducible intro _ | extract_lets | split | dsimp +zetaDelta -iota only)

theorem sendRouted_kept_eq {s : State} {m : Msg} {t_ : State} (hs : Kept cs_ s) (e_ : sendRouted s m = some t_) : Kept cs_ t_ := by
  unfold sendRouted at e_
  try dsimp only at e_
  repeat' (first | contradiction | (cases e_; done) | split at e_)
  all_goals (try (injection e_ with e_; first | subst e_ | (injection e_ with _ e_; first | subst e_ | (injection e_ with _ e_; subst e_))))
  all_goals repeat'
    (first | with_reducible assumption | (with_reducible show Kept _ _; simp -iota -zeta only [memOk_mk])
           | with_reducible apply memsOk_of | with_reducible apply sendOn_kept | with_reducible intro _ | extract_lets | split
           | dsimp +zetaDelta -iota only)

theorem floodFrom_kept (s : State) (m : Msg) (except : Option Nat) (hs : Kept cs_ s) : Kept cs_ (floodFrom s m except) := by
  unfold floodFrom
  try extract_lets
  repeat'
    (first | with_reducible assumption | (with_reducible show Kept _ _; simp -iota -zeta only [memOk_mk])
           | with_reducible apply memsOk_of | with_reducible apply sendOn_kept | with_reducible apply foldl_kept | with_reducible intro _
           | extract_lets | split | dsimp +zetaDelta -iota only)

theorem floodOwn_kept (s : State) (op : Nat) (fields : List Byte) (hs : Kept cs_ s) : Kept cs_ (floodOwn s op fields) := by
  unfold floodOwn
  try extract_lets
  repeat'
    (first | with_reducible assumption | (with_reducible show Kept _ _; simp -iota -zeta only [memOk_mk])
           | with_reducible apply memsOk_of | with_reducible apply floodFrom_kept | with_reducible intro _ | extract_lets | split
           | dsimp +zetaDelta -iota only)

theorem requestPeer_kept (s : State) (op : Nat) (dest : Nat) (part : Nat) (fields : List Byte) (second : Option (List Byte)) (data : List
    (List Byte)) (poison : BitVec 3) (use : RemoteUse) (left : Nat) (hs : Kept cs_ s) : Kept cs_
    (requestPeer s op dest part fields second data poison use left).2 := by
  unfold requestPeer
  try extract_lets
  repeat'
    (first | with_reducible assumption | (with_reducible show Kept _ _; simp -iota -zeta only [memOk_mk])
           | with_reducible apply memsOk_of | with_reducible (refine sendRouted_kept_eq ?_ (by with_reducible assumption))
           | with_reducible intro _ | extract_lets | split | dsimp +zetaDelta -iota only)
theorem requestPeer_kept_eq {s : State} {op : Nat} {dest : Nat} {part : Nat} {fields : List Byte} {second : Option (List Byte)} {data
    : List (List Byte)} {poison : BitVec 3} {use : RemoteUse} {left : Nat} {r0 : Nat} {t_ : State} (hs : Kept cs_ s) (e_
    : requestPeer s op dest part fields second data poison use left = (r0, t_)) : Kept cs_ t_ := by
  have := requestPeer_kept s op dest part fields second data poison use left hs
  rwa [e_] at this

theorem sendMarkers_kept (s : State) (except : Option Nat) (corr : Nat) (line : Nat) (epoch : Nat) (master : Nat) (hs : Kept cs_ s)
    : Kept cs_ (sendMarkers s except corr line epoch master) := by
  unfold sendMarkers
  try extract_lets
  repeat'
    (first | with_reducible assumption | (with_reducible show Kept _ _; simp -iota -zeta only [memOk_mk])
           | with_reducible apply memsOk_of | with_reducible apply sendOn_kept | with_reducible apply foldl_kept | with_reducible intro _
           | extract_lets | split | dsimp +zetaDelta -iota only)

theorem postSlow_kept (s : State) (own : Nat) (source : Nat) (share : Nat) (hs : Kept cs_ s) : Kept cs_ (postSlow s own source share) := by
  unfold postSlow
  try extract_lets
  repeat'
    (first | with_reducible assumption | (with_reducible show Kept _ _; simp -iota -zeta only [memOk_mk])
           | with_reducible apply memsOk_of | with_reducible apply post_kept | with_reducible apply foldl_kept | with_reducible intro _
           | extract_lets | split | dsimp +zetaDelta -iota only)

end Sys2Proof.Machine
end

