-- ==== Sys2Proof/Laws/KeptRuling.lean ====
section
/-! SUPPORT. Every definition of Machine/Ruling.lean keeps the queue of waiting commands and the canonical form of both memories. -/
namespace Sys2Proof.Machine
open Sys2Proof
set_option maxHeartbeats 400000
set_option linter.all false
variable {cs_ : List Instr}
theorem postSource_kept (s : State) (former : Src) (cause : Nat) (hs : Kept cs_ s) : Kept cs_ (postSource s former cause) := by
  unfold postSource
  try extract_lets
  repeat'
    (first | with_reducible assumption | (with_reducible show Kept _ _; simp -iota -zeta only [memOk_mk])
           | with_reducible apply memsOk_of | with_reducible apply post_kept | with_reducible intro _ | extract_lets | split
           | dsimp +zetaDelta -iota only)

theorem switchTo_kept (s : State) (new : Src) (hs : Kept cs_ s) : Kept cs_ (switchTo s new) := by
  unfold switchTo
  try extract_lets
  repeat'
    (first | with_reducible assumption | (with_reducible show Kept _ _; simp -iota -zeta only [memOk_mk])
           | with_reducible apply memsOk_of | with_reducible apply postSource_kept | with_reducible intro _ | extract_lets | split
           | dsimp +zetaDelta -iota only)

theorem rebaseAll_kept (s : State) (S : Int) (hs : Kept cs_ s) : Kept cs_ (rebaseAll s S) := by
  unfold rebaseAll
  try extract_lets
  repeat'
    (first | with_reducible assumption | (with_reducible show Kept _ _; simp -iota -zeta only [memOk_mk, memsOk_mk])
            | (with_reducible show KeptParts _ _ _ _; simp -iota -zeta only [memsOk_mk]) | with_reducible apply memsOk_of
            | with_reducible apply cellsOk_of | (refine pair_eq1 ?_ (by with_reducible assumption))
            | (refine pair_eq2 ?_ (by with_reducible assumption)) | (refine ans_done_eq ?_ (by with_reducible assumption))
            | (refine ans_wait_eq ?_ (by with_reducible assumption)) | with_reducible apply ans_done | with_reducible apply ans_wait
            | with_reducible apply ans_held | with_reducible apply out_next | with_reducible intro _ | extract_lets | split
            | dsimp +zetaDelta -iota only)

theorem enterEpoch_kept (s : State) (e : BitVec 32) (S : Int) (cause : Nat) (hs : Kept cs_ s) : Kept cs_ (enterEpoch s e S cause) := by
  unfold enterEpoch
  try extract_lets
  repeat'
    (first | with_reducible assumption | (with_reducible show Kept _ _; simp -iota -zeta only [memOk_mk])
           | with_reducible apply memsOk_of | with_reducible apply rebaseAll_kept | with_reducible apply blot_kept
           | with_reducible apply traceAt_kept | with_reducible apply post_kept | with_reducible apply foldl_kept
           | with_reducible intro _ | extract_lets | split | dsimp +zetaDelta -iota only)

theorem setHoldover_kept (s : State) (cause : Nat) (p : Nat) (hs : Kept cs_ s) : Kept cs_ (setHoldover s cause p) := by
  unfold setHoldover
  try extract_lets
  repeat'
    (first | with_reducible assumption | (with_reducible show Kept _ _; simp -iota -zeta only [memOk_mk, memsOk_mk])
            | (with_reducible show KeptParts _ _ _ _; simp -iota -zeta only [memsOk_mk]) | with_reducible apply memsOk_of
            | with_reducible apply cellsOk_of | with_reducible apply post_kept | (refine pair_eq1 ?_ (by with_reducible assumption))
            | (refine pair_eq2 ?_ (by with_reducible assumption)) | (refine ans_done_eq ?_ (by with_reducible assumption))
            | (refine ans_wait_eq ?_ (by with_reducible assumption)) | with_reducible apply ans_done | with_reducible apply ans_wait
            | with_reducible apply out_next | with_reducible intro _ | extract_lets | split | dsimp +zetaDelta -iota only)

theorem advertise_kept (s : State) (hs : Kept cs_ s) : Kept cs_ (advertise s) := by
  unfold advertise
  try extract_lets
  repeat'
    (first | with_reducible assumption | (with_reducible show Kept _ _; simp -iota -zeta only [memOk_mk, memsOk_mk])
            | (with_reducible show KeptParts _ _ _ _; simp -iota -zeta only [memsOk_mk]) | with_reducible apply memsOk_of
            | with_reducible apply cellsOk_of | with_reducible apply floodOwn_kept | (refine pair_eq1 ?_ (by with_reducible assumption))
            | (refine pair_eq2 ?_ (by with_reducible assumption)) | (refine ans_done_eq ?_ (by with_reducible assumption))
            | (refine ans_wait_eq ?_ (by with_reducible assumption)) | with_reducible apply ans_done | with_reducible apply ans_wait
            | with_reducible apply out_next | with_reducible intro _ | extract_lets | split | dsimp +zetaDelta -iota only)

theorem installMaster_kept (s : State) (m : Nat) (hs : Kept cs_ s) : Kept cs_ (installMaster s m) := by
  unfold installMaster
  try extract_lets
  repeat'
    (first | with_reducible assumption | (with_reducible show Kept _ _; simp -iota -zeta only [memOk_mk, memsOk_mk])
            | (with_reducible show KeptParts _ _ _ _; simp -iota -zeta only [memsOk_mk]) | with_reducible apply memsOk_of
            | with_reducible apply cellsOk_of | with_reducible apply postSource_kept | (refine pair_eq1 ?_ (by with_reducible assumption))
            | (refine pair_eq2 ?_ (by with_reducible assumption)) | (refine ans_done_eq ?_ (by with_reducible assumption))
            | (refine ans_wait_eq ?_ (by with_reducible assumption)) | with_reducible apply ans_done | with_reducible apply ans_wait
            | with_reducible apply out_next | with_reducible intro _ | extract_lets | split | dsimp +zetaDelta -iota only)

theorem unfollow_kept (s : State) (hs : Kept cs_ s) : Kept cs_ (unfollow s) := by
  unfold unfollow
  try extract_lets
  repeat'
    (first | with_reducible assumption | (with_reducible show Kept _ _; simp -iota -zeta only [memOk_mk, memsOk_mk])
            | (with_reducible show KeptParts _ _ _ _; simp -iota -zeta only [memsOk_mk]) | with_reducible apply memsOk_of
            | with_reducible apply cellsOk_of | (refine pair_eq1 ?_ (by with_reducible assumption))
            | (refine pair_eq2 ?_ (by with_reducible assumption)) | (refine ans_done_eq ?_ (by with_reducible assumption))
            | (refine ans_wait_eq ?_ (by with_reducible assumption)) | with_reducible apply ans_done | with_reducible apply ans_wait
            | with_reducible apply out_next | with_reducible intro _ | extract_lets | split | dsimp +zetaDelta -iota only)

theorem takeMaster_kept (s : State) (m : Nat) (hs : Kept cs_ s) : Kept cs_ (takeMaster s m) := by
  unfold takeMaster
  try extract_lets
  repeat'
    (first | with_reducible assumption | (with_reducible show Kept _ _; simp -iota -zeta only [memOk_mk, memsOk_mk])
            | (with_reducible show KeptParts _ _ _ _; simp -iota -zeta only [memsOk_mk]) | with_reducible apply memsOk_of
            | with_reducible apply cellsOk_of | with_reducible apply unfollow_kept | with_reducible apply installMaster_kept
            | (refine pair_eq1 ?_ (by with_reducible assumption)) | (refine pair_eq2 ?_ (by with_reducible assumption))
            | (refine ans_done_eq ?_ (by with_reducible assumption)) | (refine ans_wait_eq ?_ (by with_reducible assumption))
            | with_reducible apply ans_done | with_reducible apply ans_wait | with_reducible apply out_next | with_reducible intro _
            | extract_lets | split | dsimp +zetaDelta -iota only)

theorem applyPending_kept (s : State) (hs : Kept cs_ s) : Kept cs_ (applyPending s) := by
  unfold applyPending
  try extract_lets
  repeat'
    (first | with_reducible assumption | (with_reducible show Kept _ _; simp -iota -zeta only [memOk_mk, memsOk_mk])
            | (with_reducible show KeptParts _ _ _ _; simp -iota -zeta only [memsOk_mk]) | with_reducible apply memsOk_of
            | with_reducible apply cellsOk_of | with_reducible apply setHoldover_kept
            | (refine pair_eq1 ?_ (by with_reducible assumption)) | (refine pair_eq2 ?_ (by with_reducible assumption))
            | (refine ans_done_eq ?_ (by with_reducible assumption)) | (refine ans_wait_eq ?_ (by with_reducible assumption))
            | with_reducible apply ans_done | with_reducible apply ans_wait | with_reducible apply out_next | with_reducible intro _
            | extract_lets | split | dsimp +zetaDelta -iota only)

theorem takeOver_kept (s : State) (hs : Kept cs_ s) : Kept cs_ (takeOver s) := by
  unfold takeOver
  try extract_lets
  repeat'
    (first | with_reducible assumption | (with_reducible show Kept _ _; simp -iota -zeta only [memOk_mk, memsOk_mk])
            | (with_reducible show KeptParts _ _ _ _; simp -iota -zeta only [memsOk_mk]) | with_reducible apply memsOk_of
            | with_reducible apply cellsOk_of | with_reducible apply installMaster_kept
            | (refine pair_eq1 ?_ (by with_reducible assumption)) | (refine pair_eq2 ?_ (by with_reducible assumption))
            | (refine ans_done_eq ?_ (by with_reducible assumption)) | (refine ans_wait_eq ?_ (by with_reducible assumption))
            | with_reducible apply ans_done | with_reducible apply ans_wait | with_reducible apply out_next | with_reducible intro _
            | extract_lets | split | dsimp +zetaDelta -iota only)

theorem turnLine_kept (s : State) (stampNew : Nat) (hs : Kept cs_ s) : Kept cs_ (turnLine s stampNew) := by
  unfold turnLine
  try extract_lets
  repeat'
    (first | with_reducible assumption | (with_reducible show Kept _ _; simp -iota -zeta only [memOk_mk, memsOk_mk])
            | (with_reducible show KeptParts _ _ _ _; simp -iota -zeta only [memsOk_mk]) | with_reducible apply memsOk_of
            | with_reducible apply cellsOk_of | (refine pair_eq1 ?_ (by with_reducible assumption))
            | (refine pair_eq2 ?_ (by with_reducible assumption)) | (refine ans_done_eq ?_ (by with_reducible assumption))
            | (refine ans_wait_eq ?_ (by with_reducible assumption)) | with_reducible apply ans_done | with_reducible apply ans_wait
            | with_reducible apply out_next | with_reducible intro _ | extract_lets | split | dsimp +zetaDelta -iota only)

theorem beginLine_kept (s : State) (stampNew : Nat) (new : Option Src) (epoch : Option (BitVec 32 × Int × Nat)) (hs : Kept cs_ s) : Kept
    cs_ (beginLine s stampNew new epoch) := by
  unfold beginLine
  try extract_lets
  repeat'
    (first | with_reducible assumption | (with_reducible show Kept _ _; simp -iota -zeta only [memOk_mk, memsOk_mk])
            | (with_reducible show KeptParts _ _ _ _; simp -iota -zeta only [memsOk_mk]) | with_reducible apply memsOk_of
            | with_reducible apply cellsOk_of | with_reducible apply turnLine_kept | with_reducible apply enterEpoch_kept
            | with_reducible apply applyPending_kept | with_reducible apply switchTo_kept | with_reducible apply post_kept
            | with_reducible apply advertise_kept | with_reducible apply prog_kept | with_reducible apply takeOver_kept
            | (refine pair_eq1 ?_ (by with_reducible assumption)) | (refine pair_eq2 ?_ (by with_reducible assumption))
            | (refine ans_done_eq ?_ (by with_reducible assumption)) | (refine ans_wait_eq ?_ (by with_reducible assumption))
            | with_reducible apply ans_done | with_reducible apply ans_wait | with_reducible apply ans_held
            | with_reducible apply out_next | with_reducible intro _ | extract_lets | split | dsimp +zetaDelta -iota only)

theorem giveBoundary_kept (s : State) (new : Option Src) (jump : Option Nat) (hs : Kept cs_ s) : Kept cs_ (giveBoundary s new jump) := by
  unfold giveBoundary
  try extract_lets
  repeat'
    (first | with_reducible assumption | (with_reducible show Kept _ _; simp -iota -zeta only [memOk_mk, memsOk_mk])
            | (with_reducible show KeptParts _ _ _ _; simp -iota -zeta only [memsOk_mk]) | with_reducible apply memsOk_of
            | with_reducible apply cellsOk_of | with_reducible apply beginLine_kept | with_reducible apply sendMarkers_kept
            | (refine pair_eq1 ?_ (by with_reducible assumption)) | (refine pair_eq2 ?_ (by with_reducible assumption))
            | (refine ans_done_eq ?_ (by with_reducible assumption)) | (refine ans_wait_eq ?_ (by with_reducible assumption))
            | with_reducible apply ans_done | with_reducible apply ans_wait | with_reducible apply out_next | with_reducible intro _
            | extract_lets | split | dsimp +zetaDelta -iota only)

theorem giveDue_kept (x0 : Nat) (x1 : State) (hx1 : Kept cs_ x1) : Kept cs_ (giveDue x0 x1) := by
  fun_induction giveDue x0 x1
  all_goals try extract_lets
  all_goals repeat'
    (first | with_reducible assumption | (with_reducible show Kept _ _; simp -iota -zeta only [memOk_mk, memsOk_mk])
            | (with_reducible show KeptParts _ _ _ _; simp -iota -zeta only [memsOk_mk]) | with_reducible apply memsOk_of
            | with_reducible apply cellsOk_of | with_reducible apply giveBoundary_kept
            | (refine pair_eq1 ?_ (by with_reducible assumption)) | (refine pair_eq2 ?_ (by with_reducible assumption))
            | (refine ans_done_eq ?_ (by with_reducible assumption)) | (refine ans_wait_eq ?_ (by with_reducible assumption))
            | with_reducible apply ans_done | with_reducible apply ans_wait | with_reducible apply out_next
            | with_reducible apply_assumption | with_reducible intro _ | extract_lets | split | dsimp +zetaDelta -iota only)

theorem switchBoundary_kept (s : State) (new : Src) (hs : Kept cs_ s) : Kept cs_ (switchBoundary s new) := by
  unfold switchBoundary
  try extract_lets
  repeat'
    (first | with_reducible assumption | (with_reducible show Kept _ _; simp -iota -zeta only [memOk_mk, memsOk_mk])
            | (with_reducible show KeptParts _ _ _ _; simp -iota -zeta only [memsOk_mk]) | with_reducible apply memsOk_of
            | with_reducible apply cellsOk_of | with_reducible apply giveBoundary_kept | with_reducible apply takeOver_kept
            | with_reducible apply switchTo_kept | (refine pair_eq1 ?_ (by with_reducible assumption))
            | (refine pair_eq2 ?_ (by with_reducible assumption)) | (refine ans_done_eq ?_ (by with_reducible assumption))
            | (refine ans_wait_eq ?_ (by with_reducible assumption)) | with_reducible apply ans_done | with_reducible apply ans_wait
            | with_reducible apply out_next | with_reducible intro _ | extract_lets | split | dsimp +zetaDelta -iota only)

theorem loseSource_kept (s : State) (lost : Src) (cause : Nat) (hs : Kept cs_ s) : Kept cs_ (loseSource s lost cause) := by
  unfold loseSource
  try extract_lets
  repeat'
    (first | with_reducible assumption | (with_reducible show Kept _ _; simp -iota -zeta only [memOk_mk, memsOk_mk])
            | (with_reducible show KeptParts _ _ _ _; simp -iota -zeta only [memsOk_mk]) | with_reducible apply memsOk_of
            | with_reducible apply cellsOk_of | with_reducible apply setHoldover_kept | with_reducible apply giveDue_kept
            | (refine pair_eq1 ?_ (by with_reducible assumption)) | (refine pair_eq2 ?_ (by with_reducible assumption))
            | (refine ans_done_eq ?_ (by with_reducible assumption)) | (refine ans_wait_eq ?_ (by with_reducible assumption))
            | with_reducible apply ans_done | with_reducible apply ans_wait | with_reducible apply out_next | with_reducible intro _
            | extract_lets | split | dsimp +zetaDelta -iota only)

theorem dropCadence_kept (s : State) (cause : Nat) (hs : Kept cs_ s) : Kept cs_ (dropCadence s cause) := by
  unfold dropCadence
  try extract_lets
  repeat'
    (first | with_reducible assumption | (with_reducible show Kept _ _; simp -iota -zeta only [memOk_mk, memsOk_mk])
            | (with_reducible show KeptParts _ _ _ _; simp -iota -zeta only [memsOk_mk]) | with_reducible apply memsOk_of
            | with_reducible apply cellsOk_of | with_reducible apply setHoldover_kept | with_reducible apply advertise_kept
            | with_reducible apply giveDue_kept | (refine pair_eq1 ?_ (by with_reducible assumption))
            | (refine pair_eq2 ?_ (by with_reducible assumption)) | (refine ans_done_eq ?_ (by with_reducible assumption))
            | (refine ans_wait_eq ?_ (by with_reducible assumption)) | with_reducible apply ans_done | with_reducible apply ans_wait
            | with_reducible apply out_next | with_reducible intro _ | extract_lets | split | dsimp +zetaDelta -iota only)

theorem generatorBoundary_kept (s : State) (hs : Kept cs_ s) : Kept cs_ (generatorBoundary s) := by
  unfold generatorBoundary
  try extract_lets
  repeat'
    (first | with_reducible assumption | (with_reducible show Kept _ _; simp -iota -zeta only [memOk_mk, memsOk_mk])
            | (with_reducible show KeptParts _ _ _ _; simp -iota -zeta only [memsOk_mk]) | with_reducible apply memsOk_of
            | with_reducible apply cellsOk_of | with_reducible apply giveBoundary_kept | with_reducible apply elapseTo_kept
            | with_reducible apply switchBoundary_kept | (refine pair_eq1 ?_ (by with_reducible assumption))
            | (refine pair_eq2 ?_ (by with_reducible assumption)) | (refine ans_done_eq ?_ (by with_reducible assumption))
            | (refine ans_wait_eq ?_ (by with_reducible assumption)) | with_reducible apply ans_done | with_reducible apply ans_wait
            | with_reducible apply out_next | with_reducible intro _ | extract_lets | split | dsimp +zetaDelta -iota only)

theorem execLineBoundary_kept (s : State) (hs : Kept cs_ s) : OutKept cs_ (execLineBoundary s) := by
  unfold execLineBoundary
  try extract_lets
  repeat'
    (first | with_reducible assumption | (with_reducible show Kept _ _; simp -iota -zeta only [memOk_mk])
           | with_reducible apply memsOk_of | with_reducible apply generatorBoundary_kept | with_reducible apply ans_done
           | with_reducible apply ans_wait | with_reducible apply out_next | with_reducible intro _ | extract_lets | split
           | dsimp +zetaDelta -iota only)

theorem acceptEdge_kept (s : State) (r : Nat) (hs : Kept cs_ s) : Kept cs_ (acceptEdge s r) := by
  unfold acceptEdge
  try extract_lets
  repeat'
    (first | with_reducible assumption | (with_reducible show Kept _ _; simp -iota -zeta only [memOk_mk, memsOk_mk])
            | (with_reducible show KeptParts _ _ _ _; simp -iota -zeta only [memsOk_mk]) | with_reducible apply memsOk_of
            | with_reducible apply cellsOk_of | with_reducible apply giveBoundary_kept | with_reducible apply switchBoundary_kept
            | with_reducible apply advertise_kept | (refine pair_eq1 ?_ (by with_reducible assumption))
            | (refine pair_eq2 ?_ (by with_reducible assumption)) | (refine ans_done_eq ?_ (by with_reducible assumption))
            | (refine ans_wait_eq ?_ (by with_reducible assumption)) | with_reducible apply ans_done | with_reducible apply ans_wait
            | with_reducible apply out_next | with_reducible intro _ | extract_lets | split | dsimp +zetaDelta -iota only)

theorem rejectEdge_kept (s : State) (r : Nat) (hs : Kept cs_ s) : Kept cs_ (rejectEdge s r) := by
  unfold rejectEdge
  try extract_lets
  repeat'
    (first | with_reducible assumption | (with_reducible show Kept _ _; simp -iota -zeta only [memOk_mk, memsOk_mk])
            | (with_reducible show KeptParts _ _ _ _; simp -iota -zeta only [memsOk_mk]) | with_reducible apply memsOk_of
            | with_reducible apply cellsOk_of | with_reducible apply prog_kept | with_reducible apply dropCadence_kept
            | (refine pair_eq1 ?_ (by with_reducible assumption)) | (refine pair_eq2 ?_ (by with_reducible assumption))
            | (refine ans_done_eq ?_ (by with_reducible assumption)) | (refine ans_wait_eq ?_ (by with_reducible assumption))
            | with_reducible apply ans_done | with_reducible apply ans_wait | with_reducible apply out_next | with_reducible intro _
            | extract_lets | split | dsimp +zetaDelta -iota only)

theorem referenceEdge_kept (s : State) (hs : Kept cs_ s) : Kept cs_ (referenceEdge s) := by
  unfold referenceEdge
  try extract_lets
  repeat'
    (first | with_reducible assumption | (with_reducible show Kept _ _; simp -iota -zeta only [memOk_mk])
           | with_reducible apply memsOk_of | with_reducible intro _ | extract_lets | split | dsimp +zetaDelta -iota only)

theorem execCadenceEdge_kept (ns : Nat) (s0 : State) (hs0 : Kept cs_ s0) : OutKept cs_ (execCadenceEdge ns s0) := by
  unfold execCadenceEdge
  try extract_lets
  repeat'
    (first | with_reducible assumption | (with_reducible show Kept _ _; simp -iota -zeta only [memOk_mk])
           | with_reducible apply memsOk_of | with_reducible apply elapseTo_kept | with_reducible apply referenceEdge_kept
           | with_reducible apply rejectEdge_kept | with_reducible apply acceptEdge_kept | with_reducible apply dropCadence_kept
           | with_reducible apply ans_done | with_reducible apply ans_wait | with_reducible apply out_next | with_reducible intro _
           | extract_lets | split | dsimp +zetaDelta -iota only)

theorem execCadenceEdgeMissing_kept (s : State) (hs : Kept cs_ s) : OutKept cs_ (execCadenceEdgeMissing s) := by
  unfold execCadenceEdgeMissing
  try extract_lets
  repeat'
    (first | with_reducible assumption | (with_reducible show Kept _ _; simp -iota -zeta only [memOk_mk])
           | with_reducible apply memsOk_of | with_reducible apply dropCadence_kept | with_reducible apply elapseTo_kept
           | with_reducible apply ans_done | with_reducible apply ans_wait | with_reducible apply out_next | with_reducible intro _
           | extract_lets | split | dsimp +zetaDelta -iota only)

theorem reelect_kept (s : State) (hs : Kept cs_ s) : Kept cs_ (reelect s) := by
  unfold reelect
  try extract_lets
  repeat'
    (first | with_reducible assumption | (with_reducible show Kept _ _; simp -iota -zeta only [memOk_mk, memsOk_mk])
            | (with_reducible show KeptParts _ _ _ _; simp -iota -zeta only [memsOk_mk]) | with_reducible apply memsOk_of
            | with_reducible apply cellsOk_of | with_reducible apply takeMaster_kept | (refine pair_eq1 ?_ (by with_reducible assumption))
            | (refine pair_eq2 ?_ (by with_reducible assumption)) | (refine ans_done_eq ?_ (by with_reducible assumption))
            | (refine ans_wait_eq ?_ (by with_reducible assumption)) | with_reducible apply ans_done | with_reducible apply ans_wait
            | with_reducible apply out_next | with_reducible intro _ | extract_lets | split | dsimp +zetaDelta -iota only)

theorem leaveHoldover_kept (s : State) (lost : Src) (hs : Kept cs_ s) : Kept cs_ (leaveHoldover s lost) := by
  unfold leaveHoldover
  try extract_lets
  repeat'
    (first | with_reducible assumption | (with_reducible show Kept _ _; simp -iota -zeta only [memOk_mk, memsOk_mk])
            | (with_reducible show KeptParts _ _ _ _; simp -iota -zeta only [memsOk_mk]) | with_reducible apply memsOk_of
            | with_reducible apply cellsOk_of | with_reducible apply switchTo_kept | (refine pair_eq1 ?_ (by with_reducible assumption))
            | (refine pair_eq2 ?_ (by with_reducible assumption)) | (refine ans_done_eq ?_ (by with_reducible assumption))
            | (refine ans_wait_eq ?_ (by with_reducible assumption)) | with_reducible apply ans_done | with_reducible apply ans_wait
            | with_reducible apply out_next | with_reducible intro _ | extract_lets | split | dsimp +zetaDelta -iota only)

theorem execHoldoverExpire_kept (s : State) (hs : Kept cs_ s) : OutKept cs_ (execHoldoverExpire s) := by
  unfold execHoldoverExpire
  try extract_lets
  repeat'
    (first | with_reducible assumption | (with_reducible show Kept _ _; simp -iota -zeta only [memOk_mk, memsOk_mk])
            | (with_reducible show KeptParts _ _ _ _; simp -iota -zeta only [memsOk_mk]) | with_reducible apply memsOk_of
            | with_reducible apply cellsOk_of | with_reducible apply reelect_kept | with_reducible apply leaveHoldover_kept
            | with_reducible apply takeMaster_kept | (refine pair_eq1 ?_ (by with_reducible assumption))
            | (refine pair_eq2 ?_ (by with_reducible assumption)) | (refine ans_done_eq ?_ (by with_reducible assumption))
            | (refine ans_wait_eq ?_ (by with_reducible assumption)) | with_reducible apply ans_done | with_reducible apply ans_wait
            | with_reducible apply out_next | with_reducible intro _ | extract_lets | split | dsimp +zetaDelta -iota only)

theorem loseMarkers_kept (s0 : State) (hs0 : Kept cs_ s0) : Kept cs_ (loseMarkers s0) := by
  unfold loseMarkers
  try extract_lets
  repeat'
    (first | with_reducible assumption | (with_reducible show Kept _ _; simp -iota -zeta only [memOk_mk, memsOk_mk])
            | (with_reducible show KeptParts _ _ _ _; simp -iota -zeta only [memsOk_mk]) | with_reducible apply memsOk_of
            | with_reducible apply cellsOk_of | with_reducible apply elapseTo_kept | with_reducible apply loseSource_kept
            | with_reducible apply postSource_kept | (refine pair_eq1 ?_ (by with_reducible assumption))
            | (refine pair_eq2 ?_ (by with_reducible assumption)) | (refine ans_done_eq ?_ (by with_reducible assumption))
            | (refine ans_wait_eq ?_ (by with_reducible assumption)) | with_reducible apply ans_done | with_reducible apply ans_wait
            | with_reducible apply out_next | with_reducible intro _ | extract_lets | split | dsimp +zetaDelta -iota only)

theorem execMarkerLoss_kept (s : State) (hs : Kept cs_ s) : OutKept cs_ (execMarkerLoss s) := by
  unfold execMarkerLoss
  try extract_lets
  repeat'
    (first | with_reducible assumption | (with_reducible show Kept _ _; simp -iota -zeta only [memOk_mk, memsOk_mk])
            | (with_reducible show KeptParts _ _ _ _; simp -iota -zeta only [memsOk_mk]) | with_reducible apply memsOk_of
            | with_reducible apply cellsOk_of | with_reducible apply loseMarkers_kept
            | (refine pair_eq1 ?_ (by with_reducible assumption)) | (refine pair_eq2 ?_ (by with_reducible assumption))
            | (refine ans_done_eq ?_ (by with_reducible assumption)) | (refine ans_wait_eq ?_ (by with_reducible assumption))
            | with_reducible apply ans_done | with_reducible apply ans_wait | with_reducible apply out_next | with_reducible intro _
            | extract_lets | split | dsimp +zetaDelta -iota only)

theorem execDisciplineStale_kept (s : State) (hs : Kept cs_ s) : OutKept cs_ (execDisciplineStale s) := by
  unfold execDisciplineStale
  try extract_lets
  repeat'
    (first | with_reducible assumption | (with_reducible show Kept _ _; simp -iota -zeta only [memOk_mk, memsOk_mk])
            | (with_reducible show KeptParts _ _ _ _; simp -iota -zeta only [memsOk_mk]) | with_reducible apply memsOk_of
            | with_reducible apply cellsOk_of | with_reducible apply advertise_kept | with_reducible apply loseSource_kept
            | (refine pair_eq1 ?_ (by with_reducible assumption)) | (refine pair_eq2 ?_ (by with_reducible assumption))
            | (refine ans_done_eq ?_ (by with_reducible assumption)) | (refine ans_wait_eq ?_ (by with_reducible assumption))
            | with_reducible apply ans_done | with_reducible apply ans_wait | with_reducible apply out_next | with_reducible intro _
            | extract_lets | split | dsimp +zetaDelta -iota only)

theorem execElection_kept (s : State) (hs : Kept cs_ s) : OutKept cs_ (execElection s) := by
  unfold execElection
  try extract_lets
  repeat'
    (first | with_reducible assumption | (with_reducible show Kept _ _; simp -iota -zeta only [memOk_mk, memsOk_mk])
            | (with_reducible show KeptParts _ _ _ _; simp -iota -zeta only [memsOk_mk]) | with_reducible apply memsOk_of
            | with_reducible apply cellsOk_of | with_reducible apply reelect_kept | with_reducible apply takeMaster_kept
            | (refine pair_eq1 ?_ (by with_reducible assumption)) | (refine pair_eq2 ?_ (by with_reducible assumption))
            | (refine ans_done_eq ?_ (by with_reducible assumption)) | (refine ans_wait_eq ?_ (by with_reducible assumption))
            | with_reducible apply ans_done | with_reducible apply ans_wait | with_reducible apply out_next | with_reducible intro _
            | extract_lets | split | dsimp +zetaDelta -iota only)

theorem execTriggerEdge_kept (rising : Bool) (ns : Nat) (s0 : State) (hs0 : Kept cs_ s0) : OutKept cs_ (execTriggerEdge rising ns s0) := by
  unfold execTriggerEdge
  try extract_lets
  repeat'
    (first | with_reducible assumption | (with_reducible show Kept _ _; simp -iota -zeta only [memOk_mk])
           | with_reducible apply memsOk_of | with_reducible apply elapseTo_kept | with_reducible apply tallySignalAs_kept
           | with_reducible apply post_kept | with_reducible apply ans_done | with_reducible apply ans_wait
           | with_reducible apply out_next | with_reducible intro _ | extract_lets | split | dsimp +zetaDelta -iota only)

theorem execAlarmFire_kept (s : State) (hs : Kept cs_ s) : OutKept cs_ (execAlarmFire s) := by
  unfold execAlarmFire
  try extract_lets
  repeat'
    (first | with_reducible assumption | (with_reducible show Kept _ _; simp -iota -zeta only [memOk_mk])
           | with_reducible apply memsOk_of | with_reducible apply postAt_kept | with_reducible apply foldl_kept
           | with_reducible apply ans_done | with_reducible apply ans_wait | with_reducible apply out_next | with_reducible intro _
           | extract_lets | split | dsimp +zetaDelta -iota only)

theorem execRulingStatus_kept (c : Cmd) (s : State) (hs : Kept cs_ s) : OutKept cs_ (execRulingStatus c s) := by
  unfold execRulingStatus
  try extract_lets
  repeat'
    (first | with_reducible assumption | (with_reducible show Kept _ _; simp -iota -zeta only [memOk_mk])
           | with_reducible apply memsOk_of | with_reducible apply firmware_kept | with_reducible apply reportTo_kept
           | with_reducible apply ans_done | with_reducible apply ans_wait | with_reducible apply out_next | with_reducible intro _
           | extract_lets | split | dsimp +zetaDelta -iota only)

theorem execRulingSetSources_kept (c : Cmd) (s : State) (hs : Kept cs_ s) : OutKept cs_ (execRulingSetSources c s) := by
  unfold execRulingSetSources
  try extract_lets
  repeat'
    (first | with_reducible assumption | (with_reducible show Kept _ _; simp -iota -zeta only [memOk_mk, memsOk_mk])
            | (with_reducible show KeptParts _ _ _ _; simp -iota -zeta only [memsOk_mk]) | with_reducible apply memsOk_of
            | with_reducible apply cellsOk_of | with_reducible apply firmware_kept | with_reducible apply checked_kept
            | (refine pair_eq1 ?_ (by with_reducible assumption)) | (refine pair_eq2 ?_ (by with_reducible assumption))
            | (refine ans_done_eq ?_ (by with_reducible assumption)) | (refine ans_wait_eq ?_ (by with_reducible assumption))
            | with_reducible apply ans_done | with_reducible apply ans_wait | with_reducible apply out_next | with_reducible intro _
            | extract_lets | split | dsimp +zetaDelta -iota only)

theorem execRulingSetPeriod_kept (c : Cmd) (s : State) (hs : Kept cs_ s) : OutKept cs_ (execRulingSetPeriod c s) := by
  unfold execRulingSetPeriod
  try extract_lets
  repeat'
    (first | with_reducible assumption | (with_reducible show Kept _ _; simp -iota -zeta only [memOk_mk])
           | with_reducible apply memsOk_of | with_reducible apply firmware_kept | with_reducible apply checked_kept
           | with_reducible apply ans_done | with_reducible apply ans_wait | with_reducible apply out_next | with_reducible intro _
           | extract_lets | split | dsimp +zetaDelta -iota only)

theorem execRulingDiscipline_kept (c : Cmd) (s : State) (hs : Kept cs_ s) : OutKept cs_ (execRulingDiscipline c s) := by
  unfold execRulingDiscipline
  try extract_lets
  repeat'
    (first | with_reducible assumption | (with_reducible show Kept _ _; simp -iota -zeta only [memOk_mk, memsOk_mk])
            | (with_reducible show KeptParts _ _ _ _; simp -iota -zeta only [memsOk_mk]) | with_reducible apply memsOk_of
            | with_reducible apply cellsOk_of | with_reducible apply firmware_kept | with_reducible apply checked_kept
            | with_reducible apply advertise_kept | (refine pair_eq1 ?_ (by with_reducible assumption))
            | (refine pair_eq2 ?_ (by with_reducible assumption)) | (refine ans_done_eq ?_ (by with_reducible assumption))
            | (refine ans_wait_eq ?_ (by with_reducible assumption)) | with_reducible apply ans_done | with_reducible apply ans_wait
            | with_reducible apply out_next | with_reducible intro _ | extract_lets | split | dsimp +zetaDelta -iota only)

theorem execRulingLoad_kept (c : Cmd) (s : State) (hs : Kept cs_ s) : OutKept cs_ (execRulingLoad c s) := by
  unfold execRulingLoad
  try extract_lets
  repeat'
    (first | with_reducible assumption | (with_reducible show Kept _ _; simp -iota -zeta only [memOk_mk])
           | with_reducible apply memsOk_of | with_reducible apply firmware_kept | with_reducible apply checked_kept
           | with_reducible apply ans_done | with_reducible apply ans_wait | with_reducible apply out_next | with_reducible intro _
           | extract_lets | split | dsimp +zetaDelta -iota only)

theorem execRulingAlarm_kept (c : Cmd) (s : State) (hs : Kept cs_ s) : OutKept cs_ (execRulingAlarm c s) := by
  unfold execRulingAlarm
  try extract_lets
  repeat'
    (first | with_reducible assumption | (with_reducible show Kept _ _; simp -iota -zeta only [memOk_mk, memsOk_mk])
            | (with_reducible show KeptParts _ _ _ _; simp -iota -zeta only [memsOk_mk]) | with_reducible apply memsOk_of
            | with_reducible apply cellsOk_of | with_reducible apply firmware_kept | with_reducible apply checked_kept
            | (refine pair_eq1 ?_ (by with_reducible assumption)) | (refine pair_eq2 ?_ (by with_reducible assumption))
            | (refine ans_done_eq ?_ (by with_reducible assumption)) | (refine ans_wait_eq ?_ (by with_reducible assumption))
            | with_reducible apply ans_done | with_reducible apply ans_wait | with_reducible apply out_next | with_reducible intro _
            | extract_lets | split | dsimp +zetaDelta -iota only)

theorem execRulingTriggerSet_kept (c : Cmd) (s : State) (hs : Kept cs_ s) : OutKept cs_ (execRulingTriggerSet c s) := by
  unfold execRulingTriggerSet
  try extract_lets
  repeat'
    (first | with_reducible assumption | (with_reducible show Kept _ _; simp -iota -zeta only [memOk_mk])
           | with_reducible apply memsOk_of | with_reducible apply firmware_kept | with_reducible apply checked_kept
           | with_reducible apply ans_done | with_reducible apply ans_wait | with_reducible apply out_next | with_reducible intro _
           | extract_lets | split | dsimp +zetaDelta -iota only)

end Sys2Proof.Machine
end

