-- ==== Sys2Proof/Laws/KeptInkwell.lean ====
section
/-! SUPPORT. Every definition of Machine/Inkwell.lean keeps the queue of waiting commands and the canonical form of both memories. -/
namespace Sys2Proof.Machine
open Sys2Proof
set_option maxHeartbeats 400000
set_option linter.all false
variable {cs_ : List Instr}
theorem fieldFault_kept (s : State) (fn : Nat) (hs : Kept cs_ s) : Kept cs_ (fieldFault s fn) := by
  unfold fieldFault
  try extract_lets
  repeat'
    (first | with_reducible assumption | (with_reducible show Kept _ _; simp -iota -zeta only [memOk_mk])
           | with_reducible apply memsOk_of | with_reducible apply freeWord_kept
           | with_reducible (refine freeWord_kept_eq ?_ (by with_reducible assumption)) | with_reducible apply setFault_kept
           | with_reducible intro _ | extract_lets | split | dsimp +zetaDelta -iota only)

theorem abortRing_kept (s : State) (fn : Nat) (n : Nat) (hs : Kept cs_ s) : Kept cs_ (abortRing s fn n) := by
  unfold abortRing
  try extract_lets
  repeat'
    (first | with_reducible assumption | (with_reducible show Kept _ _; simp -iota -zeta only [memOk_mk])
           | with_reducible apply memsOk_of | with_reducible apply abortFetched_kept | with_reducible intro _ | extract_lets | split
           | dsimp +zetaDelta -iota only)

theorem endAborts_kept (s : State) (hs : Kept cs_ s) : Kept cs_ (endAborts s) := by
  unfold endAborts
  try extract_lets
  repeat'
    (first | with_reducible assumption | (with_reducible show Kept _ _; simp -iota -zeta only [memOk_mk, memsOk_mk])
            | (with_reducible show KeptParts _ _ _ _; simp -iota -zeta only [memsOk_mk]) | with_reducible apply memsOk_of
            | with_reducible apply cellsOk_of | with_reducible apply finishWait_kept | with_reducible apply foldl_kept
            | with_reducible apply foldl_snd2_kept | with_reducible apply foldl_fst_kept | with_reducible apply foldl_snd_kept
            | (refine pair_eq1 ?_ (by with_reducible assumption)) | (refine pair_eq2 ?_ (by with_reducible assumption))
            | (refine ans_done_eq ?_ (by with_reducible assumption)) | (refine ans_wait_eq ?_ (by with_reducible assumption))
            | with_reducible apply ans_done | with_reducible apply ans_wait | with_reducible apply out_next | with_reducible intro _
            | extract_lets | split | dsimp +zetaDelta -iota only)

theorem drainRing_kept (s : State) (fn : Nat) (n : Nat) (hs : Kept cs_ s) : Kept cs_ (drainRing s fn n) := by
  unfold drainRing
  try extract_lets
  repeat'
    (first | with_reducible assumption | (with_reducible show Kept _ _; simp -iota -zeta only [memOk_mk, memsOk_mk])
            | (with_reducible show KeptParts _ _ _ _; simp -iota -zeta only [memsOk_mk]) | with_reducible apply memsOk_of
            | with_reducible apply cellsOk_of | with_reducible apply drainEvents_kept | with_reducible apply endAborts_kept
            | with_reducible apply drainCompletions_kept | (refine pair_eq1 ?_ (by with_reducible assumption))
            | (refine pair_eq2 ?_ (by with_reducible assumption)) | (refine ans_done_eq ?_ (by with_reducible assumption))
            | (refine ans_wait_eq ?_ (by with_reducible assumption)) | with_reducible apply ans_done | with_reducible apply ans_wait
            | with_reducible apply out_next | with_reducible intro _ | extract_lets | split | dsimp +zetaDelta -iota only)

theorem execInkwCtrlEn_kept (fn : Nat) (en : Bool) (s : State) (hs : Kept cs_ s) : OutKept cs_ (execInkwCtrlEn fn en s) := by
  unfold execInkwCtrlEn
  try extract_lets
  repeat'
    (first | with_reducible assumption | (with_reducible show Kept _ _; simp -iota -zeta only [memOk_mk])
           | with_reducible apply memsOk_of | with_reducible apply setFunc_kept | with_reducible apply abortFetched_kept
           | with_reducible apply ans_done | with_reducible apply ans_wait | with_reducible apply out_next | with_reducible intro _
           | extract_lets | split | dsimp +zetaDelta -iota only)

theorem execStampLoRead_kept (r : RegRead) (s : State) (hs : Kept cs_ s) : OutKept cs_ (execStampLoRead r s) := by
  unfold execStampLoRead
  try extract_lets
  repeat'
    (first | with_reducible assumption | (with_reducible show Kept _ _; simp -iota -zeta only [memOk_mk, memsOk_mk])
            | (with_reducible show KeptParts _ _ _ _; simp -iota -zeta only [memsOk_mk]) | with_reducible apply memsOk_of
            | with_reducible apply cellsOk_of | with_reducible apply setFunc_kept | (refine pair_eq1 ?_ (by with_reducible assumption))
            | (refine pair_eq2 ?_ (by with_reducible assumption)) | (refine ans_done_eq ?_ (by with_reducible assumption))
            | (refine ans_wait_eq ?_ (by with_reducible assumption)) | with_reducible apply ans_done | with_reducible apply ans_wait
            | with_reducible apply out_next | with_reducible intro _ | extract_lets | split | dsimp +zetaDelta -iota only)

theorem ringCfg_kept (s : State) (fn : Nat) (n : Nat) (v : BitVec 32) (hs : Kept cs_ s) : Kept cs_ (ringCfg s fn n v) := by
  unfold ringCfg
  try extract_lets
  repeat'
    (first | with_reducible assumption | (with_reducible show Kept _ _; simp -iota -zeta only [memOk_mk, memsOk_mk])
            | (with_reducible show KeptParts _ _ _ _; simp -iota -zeta only [memsOk_mk]) | with_reducible apply memsOk_of
            | with_reducible apply cellsOk_of | with_reducible apply setRing_kept | with_reducible apply fieldFault_kept
            | with_reducible apply abortRing_kept | with_reducible apply drainRing_kept
            | (refine pair_eq1 ?_ (by with_reducible assumption)) | (refine pair_eq2 ?_ (by with_reducible assumption))
            | (refine ans_done_eq ?_ (by with_reducible assumption)) | (refine ans_wait_eq ?_ (by with_reducible assumption))
            | with_reducible apply ans_done | with_reducible apply ans_wait | with_reducible apply out_next | with_reducible intro _
            | extract_lets | split | dsimp +zetaDelta -iota only)

theorem execRingCfgWrite_kept (fn : Nat) (n : Nat) (v : BitVec 32) (s : State) (hs : Kept cs_ s) : OutKept cs_
    (execRingCfgWrite fn n v s) := by
  unfold execRingCfgWrite
  try extract_lets
  repeat'
    (first | with_reducible assumption | (with_reducible show Kept _ _; simp -iota -zeta only [memOk_mk])
           | with_reducible apply memsOk_of | with_reducible apply ringCfg_kept | with_reducible apply ans_done
           | with_reducible apply ans_wait | with_reducible apply out_next | with_reducible intro _ | extract_lets | split
           | dsimp +zetaDelta -iota only)

theorem doorbell_kept (s0 : State) (fn : Nat) (n : Nat) (v : BitVec 32) (hs0 : Kept cs_ s0) : Kept cs_ (doorbell s0 fn n v) := by
  unfold doorbell
  try extract_lets
  repeat'
    (first | with_reducible assumption | (with_reducible show Kept _ _; simp -iota -zeta only [memOk_mk, memsOk_mk])
            | (with_reducible show KeptParts _ _ _ _; simp -iota -zeta only [memsOk_mk]) | with_reducible apply memsOk_of
            | with_reducible apply cellsOk_of | with_reducible apply prog_kept | with_reducible apply fieldFault_kept
            | with_reducible apply setRing_kept | with_reducible apply foldl_kept | with_reducible apply drainRing_kept
            | with_reducible apply foldl_kept | with_reducible apply foldl_snd2_kept | with_reducible apply foldl_fst_kept
            | with_reducible apply foldl_snd_kept | (refine pair_eq1 ?_ (by with_reducible assumption))
            | (refine pair_eq2 ?_ (by with_reducible assumption)) | (refine ans_done_eq ?_ (by with_reducible assumption))
            | (refine ans_wait_eq ?_ (by with_reducible assumption)) | with_reducible apply ans_done | with_reducible apply ans_wait
            | with_reducible apply out_next | with_reducible intro _ | extract_lets | split | dsimp +zetaDelta -iota only)

theorem hostDid_kept (s : State) (h : HostWrites) (hs : Kept cs_ s) : Kept cs_ (hostDid s h) := by
  have key : ∀ (l : List (Nat × Byte)) (m : List Host.Cell), cellWf hostDflt m = true →
      cellWf hostDflt (l.foldl (fun m e => cellPut hostDflt m e.1 e.2) m) = true := by
    intro l
    induction l with
    | nil => intro m hm; exact hm
    | cons e r ih => intro m hm; exact ih _ (cellWf_put _ _ _ _ hm)
  unfold hostDid
  simp only [memOk_mk]
  exact ⟨hs.ok.queue, ⟨⟨hs.ok.mems.ok.cells, key _ _ hs.ok.mems.ok.host⟩⟩⟩

theorem execSubmissionDoorbell_kept (fn : Nat) (n : Nat) (v : BitVec 32) (host : HostWrites) (s : State) (hs : Kept cs_ s) : OutKept cs_
    (execSubmissionDoorbell fn n v host s) := by
  unfold execSubmissionDoorbell
  try extract_lets
  repeat'
    (first | with_reducible assumption | (with_reducible show Kept _ _; simp -iota -zeta only [memOk_mk])
           | with_reducible apply memsOk_of | with_reducible apply doorbell_kept | with_reducible apply hostDid_kept
           | with_reducible apply ans_done | with_reducible apply ans_wait | with_reducible apply out_next | with_reducible intro _
           | extract_lets | split | dsimp +zetaDelta -iota only)

theorem execHeadDoorbell_kept (fn : Nat) (n : Nat) (v : BitVec 32) (s : State) (hs : Kept cs_ s) : OutKept cs_
    (execHeadDoorbell fn n v s) := by
  unfold execHeadDoorbell
  try extract_lets
  repeat'
    (first | with_reducible assumption | (with_reducible show Kept _ _; simp -iota -zeta only [memOk_mk])
           | with_reducible apply memsOk_of | with_reducible apply doorbell_kept | with_reducible apply ans_done
           | with_reducible apply ans_wait | with_reducible apply out_next | with_reducible intro _ | extract_lets | split
           | dsimp +zetaDelta -iota only)

theorem unmask_kept (s : State) (fn : Nat) (m : BitVec 19) (hs : Kept cs_ s) : Kept cs_ (unmask s fn m) := by
  unfold unmask
  try extract_lets
  repeat'
    (first | with_reducible assumption | (with_reducible show Kept _ _; simp -iota -zeta only [memOk_mk])
           | with_reducible apply memsOk_of | with_reducible apply raise_kept | with_reducible apply setFunc_kept
           | with_reducible apply foldl_kept | with_reducible intro _ | extract_lets | split | dsimp +zetaDelta -iota only)

theorem ringBase_kept (s : State) (fn : Nat) (n : Nat) (hi : Bool) (v : BitVec 32) (hs : Kept cs_ s) : Kept cs_ (ringBase s fn n hi v) := by
  unfold ringBase
  try extract_lets
  repeat'
    (first | with_reducible assumption | (with_reducible show Kept _ _; simp -iota -zeta only [memOk_mk])
           | with_reducible apply memsOk_of | with_reducible apply setRing_kept | with_reducible intro _ | extract_lets | split
           | dsimp +zetaDelta -iota only)

theorem recount_kept (s : State) (fn : Nat) (hs : Kept cs_ s) : Kept cs_ (recount s fn) := by
  unfold recount
  try extract_lets
  repeat'
    (first | with_reducible assumption | (with_reducible show Kept _ _; simp -iota -zeta only [memOk_mk, memsOk_mk])
            | (with_reducible show KeptParts _ _ _ _; simp -iota -zeta only [memsOk_mk]) | with_reducible apply memsOk_of
            | with_reducible apply cellsOk_of | with_reducible apply setCause_kept | with_reducible apply setRing_kept
            | with_reducible apply foldl_kept | with_reducible apply foldl_snd2_kept | with_reducible apply foldl_fst_kept
            | with_reducible apply foldl_snd_kept | (refine pair_eq1 ?_ (by with_reducible assumption))
            | (refine pair_eq2 ?_ (by with_reducible assumption)) | (refine ans_done_eq ?_ (by with_reducible assumption))
            | (refine ans_wait_eq ?_ (by with_reducible assumption)) | with_reducible apply ans_done | with_reducible apply ans_wait
            | with_reducible apply out_next | with_reducible intro _ | extract_lets | split | dsimp +zetaDelta -iota only)

theorem regWrite_kept (s : State) (fn : Nat) (off : Nat) (v : BitVec 32) (hs : Kept cs_ s) : Kept cs_ (regWrite s fn off v) := by
  unfold regWrite
  try extract_lets
  repeat'
    (first | with_reducible assumption | (with_reducible show Kept _ _; simp -iota -zeta only [memOk_mk, memsOk_mk])
            | (with_reducible show KeptParts _ _ _ _; simp -iota -zeta only [memsOk_mk]) | with_reducible apply memsOk_of
            | with_reducible apply cellsOk_of | with_reducible apply setFunc_kept | with_reducible apply unmask_kept
            | with_reducible apply recount_kept | with_reducible apply ringBase_kept | with_reducible apply ringCfg_kept
            | with_reducible apply doorbell_kept | (refine pair_eq1 ?_ (by with_reducible assumption))
            | (refine pair_eq2 ?_ (by with_reducible assumption)) | (refine ans_done_eq ?_ (by with_reducible assumption))
            | (refine ans_wait_eq ?_ (by with_reducible assumption)) | with_reducible apply ans_done | with_reducible apply ans_wait
            | with_reducible apply out_next | with_reducible intro _ | extract_lets | split | dsimp +zetaDelta -iota only)

theorem execRegisterWrite_kept (fn : Nat) (offset : Nat) (v : RegWrite) (s : State) (hs : Kept cs_ s) : OutKept cs_ (execRegisterWrite fn
    offset v s) := by
  unfold execRegisterWrite
  try extract_lets
  repeat'
    (first | with_reducible assumption | (with_reducible show Kept _ _; simp -iota -zeta only [memOk_mk, memsOk_mk])
            | (with_reducible show KeptParts _ _ _ _; simp -iota -zeta only [memsOk_mk]) | with_reducible apply memsOk_of
            | with_reducible apply cellsOk_of | with_reducible apply regWrite_kept | (refine pair_eq1 ?_ (by with_reducible assumption))
            | (refine pair_eq2 ?_ (by with_reducible assumption)) | (refine ans_done_eq ?_ (by with_reducible assumption))
            | (refine ans_wait_eq ?_ (by with_reducible assumption)) | with_reducible apply ans_done | with_reducible apply ans_wait
            | with_reducible apply out_next | with_reducible intro _ | extract_lets | split | dsimp +zetaDelta -iota only)

theorem execCoalesceTimeout_kept (fn : Nat) (n : Nat) (s : State) (hs : Kept cs_ s) : OutKept cs_ (execCoalesceTimeout fn n s) := by
  unfold execCoalesceTimeout
  try extract_lets
  repeat'
    (first | with_reducible assumption | (with_reducible show Kept _ _; simp -iota -zeta only [memOk_mk, memsOk_mk])
            | (with_reducible show KeptParts _ _ _ _; simp -iota -zeta only [memsOk_mk]) | with_reducible apply memsOk_of
            | with_reducible apply cellsOk_of | with_reducible apply setCause_kept | with_reducible apply setRing_kept
            | (refine pair_eq1 ?_ (by with_reducible assumption)) | (refine pair_eq2 ?_ (by with_reducible assumption))
            | (refine ans_done_eq ?_ (by with_reducible assumption)) | (refine ans_wait_eq ?_ (by with_reducible assumption))
            | with_reducible apply ans_done | with_reducible apply ans_wait | with_reducible apply out_next | with_reducible intro _
            | extract_lets | split | dsimp +zetaDelta -iota only)

theorem takeEntry_kept (s0 : State) (e : Sub) (hs0 : Kept cs_ s0) : Kept cs_ (takeEntry s0 e) := by
  unfold takeEntry
  try extract_lets
  repeat'
    (first | with_reducible assumption | (with_reducible show Kept _ _; simp -iota -zeta only [memOk_mk])
           | with_reducible apply memsOk_of | with_reducible apply blot_kept | with_reducible apply complete_kept
           | with_reducible intro _ | extract_lets | split | dsimp +zetaDelta -iota only)

theorem fetchOne_kept (s : State) (fn : Nat) (n : Nat) (hs : Kept cs_ s) : Kept cs_ (fetchOne s fn n) := by
  unfold fetchOne
  try extract_lets
  repeat'
    (first | with_reducible assumption | (with_reducible show Kept _ _; simp -iota -zeta only [memOk_mk, memsOk_mk])
            | (with_reducible show KeptParts _ _ _ _; simp -iota -zeta only [memsOk_mk]) | with_reducible apply memsOk_of
            | with_reducible apply cellsOk_of | with_reducible apply setFault_kept | with_reducible apply setRing_kept
            | with_reducible apply takeEntry_kept | with_reducible apply hostBytesRead_kept
            | (refine pair_eq1 ?_ (by with_reducible assumption)) | (refine pair_eq2 ?_ (by with_reducible assumption))
            | (refine ans_done_eq ?_ (by with_reducible assumption)) | (refine ans_wait_eq ?_ (by with_reducible assumption))
            | with_reducible apply ans_done | with_reducible apply ans_wait | with_reducible apply ans_held
            | with_reducible apply out_next | with_reducible intro _ | extract_lets | split | dsimp +zetaDelta -iota only)

theorem fetchGo_kept (fn : Nat) (n : Nat) (x2 : Nat) (x3 : State) (hx3 : Kept cs_ x3) : Kept cs_ (fetchGo fn n x2 x3) := by
  fun_induction fetchGo fn n x2 x3
  all_goals try extract_lets
  all_goals repeat'
    (first | with_reducible assumption | (with_reducible show Kept _ _; simp -iota -zeta only [memOk_mk])
           | with_reducible apply memsOk_of | with_reducible apply fetchOne_kept | with_reducible apply_assumption
           | with_reducible intro _ | extract_lets | split | dsimp +zetaDelta -iota only)

theorem execRingVisit_kept (fn : Nat) (n : Nat) (s : State) (hs : Kept cs_ s) : OutKept cs_ (execRingVisit fn n s) := by
  unfold execRingVisit
  try extract_lets
  repeat'
    (first | with_reducible assumption | (with_reducible show Kept _ _; simp -iota -zeta only [memOk_mk])
           | with_reducible apply memsOk_of | with_reducible apply fetchGo_kept | with_reducible apply ans_done
           | with_reducible apply ans_wait | with_reducible apply out_next | with_reducible intro _ | extract_lets | split
           | dsimp +zetaDelta -iota only)

theorem execOpcodeMap_kept (c : Cmd) (s : State) (hs : Kept cs_ s) : OutKept cs_ (execOpcodeMap c s) := by
  unfold execOpcodeMap
  try extract_lets
  repeat'
    (first | with_reducible assumption | (with_reducible show Kept _ _; simp -iota -zeta only [memOk_mk])
           | with_reducible apply memsOk_of | with_reducible apply firmware_kept | with_reducible apply reportTo_kept
           | with_reducible apply ans_done | with_reducible apply ans_wait | with_reducible apply out_next | with_reducible intro _
           | extract_lets | split | dsimp +zetaDelta -iota only)

theorem startFeature_kept (s : State) (res : Nat) (mode : Nat) (hs : Kept cs_ s) : Kept cs_ (startFeature s res mode) := by
  unfold startFeature
  try extract_lets
  repeat'
    (first | with_reducible assumption | (with_reducible show Kept _ _; simp -iota -zeta only [memOk_mk])
           | with_reducible apply memsOk_of | with_reducible intro _ | extract_lets | split | dsimp +zetaDelta -iota only)

theorem execClaim_kept (c : Cmd) (s : State) (hs : Kept cs_ s) : OutKept cs_ (execClaim c s) := by
  unfold execClaim
  try extract_lets
  repeat'
    (first | with_reducible assumption | (with_reducible show Kept _ _; simp -iota -zeta only [memOk_mk])
           | with_reducible apply memsOk_of | with_reducible apply firmware_kept | with_reducible apply checked_kept
           | with_reducible apply startFeature_kept | with_reducible apply grant_kept | with_reducible apply ans_done
           | with_reducible apply ans_wait | with_reducible apply out_next | with_reducible intro _ | extract_lets | split
           | dsimp +zetaDelta -iota only)

theorem execClaimQuery_kept (c : Cmd) (s : State) (hs : Kept cs_ s) : OutKept cs_ (execClaimQuery c s) := by
  unfold execClaimQuery
  try extract_lets
  repeat'
    (first | with_reducible assumption | (with_reducible show Kept _ _; simp -iota -zeta only [memOk_mk])
           | with_reducible apply memsOk_of | with_reducible apply firmware_kept | with_reducible apply checked_kept
           | with_reducible apply ans_done | with_reducible apply ans_wait | with_reducible apply out_next | with_reducible intro _
           | extract_lets | split | dsimp +zetaDelta -iota only)

theorem execAbort_kept (c : Cmd) (s : State) (hs : Kept cs_ s) : OutKept cs_ (execAbort c s) := by
  unfold execAbort
  try extract_lets
  repeat'
    (first | with_reducible assumption | (with_reducible show Kept _ _; simp -iota -zeta only [memOk_mk, memsOk_mk])
            | (with_reducible show KeptParts _ _ _ _; simp -iota -zeta only [memsOk_mk]) | with_reducible apply memsOk_of
            | with_reducible apply cellsOk_of | with_reducible apply firmware_kept | with_reducible apply abortFetched_kept
            | with_reducible apply checked_kept | (refine pair_eq1 ?_ (by with_reducible assumption))
            | (refine pair_eq2 ?_ (by with_reducible assumption)) | (refine ans_done_eq ?_ (by with_reducible assumption))
            | (refine ans_wait_eq ?_ (by with_reducible assumption)) | with_reducible apply ans_done | with_reducible apply ans_wait
            | with_reducible apply out_next | with_reducible intro _ | extract_lets | split | dsimp +zetaDelta -iota only)

theorem execEventFilter_kept (c : Cmd) (s : State) (hs : Kept cs_ s) : OutKept cs_ (execEventFilter c s) := by
  unfold execEventFilter
  try extract_lets
  repeat'
    (first | with_reducible assumption | (with_reducible show Kept _ _; simp -iota -zeta only [memOk_mk])
           | with_reducible apply memsOk_of | with_reducible apply firmware_kept | with_reducible apply checked_kept
           | with_reducible apply setFunc_kept | with_reducible apply ans_done | with_reducible apply ans_wait
           | with_reducible apply out_next | with_reducible intro _ | extract_lets | split | dsimp +zetaDelta -iota only)

theorem execEcho_kept (c : Cmd) (s : State) (hs : Kept cs_ s) : OutKept cs_ (execEcho c s) := by
  unfold execEcho
  try extract_lets
  repeat'
    (first | with_reducible assumption | (with_reducible show Kept _ _; simp -iota -zeta only [memOk_mk])
           | with_reducible apply memsOk_of | with_reducible apply firmware_kept | with_reducible apply ans_done
           | with_reducible apply ans_wait | with_reducible apply out_next | with_reducible intro _ | extract_lets | split
           | dsimp +zetaDelta -iota only)

end Sys2Proof.Machine
end

