-- ==== Sys2Proof/Laws/KeptMemMap.lean ====
section
/-! SUPPORT. Every definition of Machine/MemMap.lean keeps the queue of waiting commands and the canonical form of both memories. -/
namespace Sys2Proof.Machine
open Sys2Proof
set_option maxHeartbeats 400000
set_option linter.all false
variable {cs_ : List Instr}
theorem regionTableSet_kept (s : State) (t : Tier) (first : Nat) (count : Nat) (entry : Nat) (flags : Nat) (hs : Kept cs_ s) : Kept cs_
    (regionTableSet s t first count entry flags) := by
  unfold regionTableSet
  try extract_lets
  repeat'
    (first | with_reducible assumption | (with_reducible show Kept _ _; simp -iota -zeta only [memOk_mk])
           | with_reducible apply memsOk_of | with_reducible apply setEntry_kept | with_reducible apply foldl_kept
           | with_reducible intro _ | extract_lets | split | dsimp +zetaDelta -iota only)

theorem regionSetApply_kept (s : State) (t : Tier) (first : Nat) (count : Nat) (entry : Nat) (flags : Nat) (hs : Kept cs_ s) : Kept cs_
    (regionSetApply s t first count entry flags) := by
  unfold regionSetApply
  try extract_lets
  repeat'
    (first | with_reducible assumption | (with_reducible show Kept _ _; simp -iota -zeta only [memOk_mk])
           | with_reducible apply memsOk_of | with_reducible apply regionTableSet_kept | with_reducible apply flushRegion_kept
           | with_reducible apply spoil_kept | with_reducible apply foldl_kept | with_reducible intro _ | extract_lets | split
           | dsimp +zetaDelta -iota only)

theorem execMemRegionSet_kept (c : Cmd) (s : State) (hs : Kept cs_ s) : OutKept cs_ (execMemRegionSet c s) := by
  unfold execMemRegionSet
  try extract_lets
  repeat'
    (first | with_reducible assumption | (with_reducible show Kept _ _; simp -iota -zeta only [memOk_mk])
           | with_reducible apply memsOk_of | with_reducible apply firmware_kept | with_reducible apply regionTableSet_kept
           | with_reducible apply checked_kept | with_reducible apply regionSetApply_kept | with_reducible apply ans_done
           | with_reducible apply ans_wait | with_reducible apply out_next | with_reducible intro _ | extract_lets | split
           | dsimp +zetaDelta -iota only)

theorem execMemRegionGet_kept (c : Cmd) (s : State) (hs : Kept cs_ s) : OutKept cs_ (execMemRegionGet c s) := by
  unfold execMemRegionGet
  try extract_lets
  repeat'
    (first | with_reducible assumption | (with_reducible show Kept _ _; simp -iota -zeta only [memOk_mk])
           | with_reducible apply memsOk_of | with_reducible apply firmware_kept | with_reducible apply checked_kept
           | with_reducible apply ans_done | with_reducible apply ans_wait | with_reducible apply out_next | with_reducible intro _
           | extract_lets | split | dsimp +zetaDelta -iota only)

theorem execMemQuery_kept (c : Cmd) (s : State) (hs : Kept cs_ s) : OutKept cs_ (execMemQuery c s) := by
  unfold execMemQuery
  try extract_lets
  repeat'
    (first | with_reducible assumption | (with_reducible show Kept _ _; simp -iota -zeta only [memOk_mk])
           | with_reducible apply memsOk_of | with_reducible apply firmware_kept | with_reducible apply reportTo_kept
           | with_reducible apply ans_done | with_reducible apply ans_wait | with_reducible apply out_next | with_reducible intro _
           | extract_lets | split | dsimp +zetaDelta -iota only)

theorem execMemLocate_kept (c : Cmd) (s : State) (hs : Kept cs_ s) : OutKept cs_ (execMemLocate c s) := by
  unfold execMemLocate
  try extract_lets
  repeat'
    (first | with_reducible assumption | (with_reducible show Kept _ _; simp -iota -zeta only [memOk_mk])
           | with_reducible apply memsOk_of | with_reducible apply firmware_kept | with_reducible apply checked_kept
           | with_reducible apply ans_done | with_reducible apply ans_wait | with_reducible apply out_next | with_reducible intro _
           | extract_lets | split | dsimp +zetaDelta -iota only)

theorem hostBytes_kept (s : State) (x1 : List (List Byte × Bool)) (hs : Kept cs_ s) : Kept cs_ (hostBytes s x1).2 := by
  fun_induction hostBytes s x1
  all_goals try extract_lets
  all_goals repeat'
    (first | with_reducible assumption | (with_reducible show Kept _ _; simp -iota -zeta only [memOk_mk, memsOk_mk])
           | (with_reducible show KeptParts _ _ _ _; simp -iota -zeta only [memsOk_mk]) | with_reducible apply memsOk_of
           | with_reducible apply cellsOk_of | with_reducible apply freeBytes_kept
           | with_reducible (refine freeBytes_kept_eq ?_ (by with_reducible assumption)) | with_reducible apply_assumption
           | with_reducible apply foldl_kept | with_reducible apply foldl_snd2_kept | with_reducible apply foldl_fst_kept
           | with_reducible apply foldl_snd_kept | with_reducible apply getD_kept | (refine pair_eq1 ?_ (by with_reducible assumption))
           | (refine pair_eq2 ?_ (by with_reducible assumption)) | (refine ans_done_eq ?_ (by with_reducible assumption))
           | (refine ans_wait_eq ?_ (by with_reducible assumption)) | with_reducible apply ans_done | with_reducible apply ans_wait
           | with_reducible apply out_next | with_reducible intro _ | extract_lets | split | dsimp +zetaDelta -iota only)
theorem hostBytes_kept_eq {s : State} {x1 : List (List Byte × Bool)} {r0 : List Byte} {t_ : State} (hs : Kept cs_ s) (e_
    : hostBytes s x1 = (r0, t_)) : Kept cs_ t_ := by
  have := hostBytes_kept s x1 hs
  rwa [e_] at this

theorem copyOut_kept (s : State) (rq : Requester) (src : Nat) (dst : Nat) (len : Nat) (cls : Nat) (hs : Kept cs_ s) : Kept cs_
    (copyOut s rq src dst len cls).2 := by
  unfold copyOut
  try extract_lets
  repeat'
    (first | with_reducible assumption | (with_reducible show Kept _ _; simp -iota -zeta only [memOk_mk])
           | with_reducible apply memsOk_of | with_reducible apply readGranules_kept
           | with_reducible (refine readGranules_kept_eq ?_ (by with_reducible assumption)) | with_reducible apply hostBytes_kept
           | with_reducible (refine hostBytes_kept_eq ?_ (by with_reducible assumption))
           | with_reducible (refine hostWrite?_kept_eq ?_ (by with_reducible assumption)) | with_reducible apply bumpO_kept
           | with_reducible intro _ | extract_lets | split | dsimp +zetaDelta -iota only)
theorem copyOut_kept_eq {s : State} {rq : Requester} {src : Nat} {dst : Nat} {len : Nat} {cls : Nat} {r0 : Nat} {t_ : State} (hs
    : Kept cs_ s) (e_ : copyOut s rq src dst len cls = (r0, t_)) : Kept cs_ t_ := by
  have := copyOut_kept s rq src dst len cls hs
  rwa [e_] at this

theorem copyIn_kept (s : State) (rq : Requester) (src : Nat) (dst : Nat) (len : Nat) (cls : Nat) (hs : Kept cs_ s) : Kept cs_ (copyIn s rq
    src dst len cls).2 := by
  unfold copyIn
  try extract_lets
  repeat'
    (first | with_reducible assumption | (with_reducible show Kept _ _; simp -iota -zeta only [memOk_mk, memsOk_mk])
            | (with_reducible show KeptParts _ _ _ _; simp -iota -zeta only [memsOk_mk]) | with_reducible apply memsOk_of
            | with_reducible apply cellsOk_of | with_reducible apply writeBytes_kept
            | with_reducible (refine writeBytes_kept_eq ?_ (by with_reducible assumption)) | with_reducible apply bumpO_kept
            | with_reducible apply hostBytesRead_kept | (refine pair_eq1 ?_ (by with_reducible assumption))
            | (refine pair_eq2 ?_ (by with_reducible assumption)) | (refine ans_done_eq ?_ (by with_reducible assumption))
            | (refine ans_wait_eq ?_ (by with_reducible assumption)) | with_reducible apply ans_done | with_reducible apply ans_wait
            | with_reducible apply ans_held | with_reducible apply out_next | with_reducible intro _ | extract_lets | split
            | dsimp +zetaDelta -iota only)
theorem copyIn_kept_eq {s : State} {rq : Requester} {src : Nat} {dst : Nat} {len : Nat} {cls : Nat} {r0 : Nat} {t_ : State} (hs : Kept cs_
    s) (e_ : copyIn s rq src dst len cls = (r0, t_)) : Kept cs_ t_ := by
  have := copyIn_kept s rq src dst len cls hs
  rwa [e_] at this

theorem execMemCopy_kept (c : Cmd) (s : State) (hs : Kept cs_ s) : OutKept cs_ (execMemCopy c s) := by
  unfold execMemCopy
  try extract_lets
  repeat'
    (first | with_reducible assumption | (with_reducible show Kept _ _; simp -iota -zeta only [memOk_mk, memsOk_mk])
            | (with_reducible show KeptParts _ _ _ _; simp -iota -zeta only [memsOk_mk]) | with_reducible apply memsOk_of
            | with_reducible apply cellsOk_of | with_reducible apply firmware_kept | with_reducible apply checked_kept
            | with_reducible apply unheld_kept | with_reducible apply copyIn_kept
            | with_reducible (refine copyIn_kept_eq ?_ (by with_reducible assumption)) | with_reducible apply copyOut_kept
            | with_reducible (refine copyOut_kept_eq ?_ (by with_reducible assumption)) | with_reducible apply copyWithin_kept
            | with_reducible (refine copyWithin_kept_eq ?_ (by with_reducible assumption))
            | (refine pair_eq1 ?_ (by with_reducible assumption)) | (refine pair_eq2 ?_ (by with_reducible assumption))
            | (refine ans_done_eq ?_ (by with_reducible assumption)) | (refine ans_wait_eq ?_ (by with_reducible assumption))
            | with_reducible apply ans_done | with_reducible apply ans_wait | with_reducible apply ans_held
            | with_reducible apply out_next | with_reducible intro _ | extract_lets | split | dsimp +zetaDelta -iota only)

theorem execMemFill_kept (c : Cmd) (s : State) (hs : Kept cs_ s) : OutKept cs_ (execMemFill c s) := by
  unfold execMemFill
  try extract_lets
  repeat'
    (first | with_reducible assumption | (with_reducible show Kept _ _; simp -iota -zeta only [memOk_mk, memsOk_mk])
            | (with_reducible show KeptParts _ _ _ _; simp -iota -zeta only [memsOk_mk]) | with_reducible apply memsOk_of
            | with_reducible apply cellsOk_of | with_reducible apply firmware_kept | with_reducible apply checked_kept
            | with_reducible apply unheld_kept | with_reducible apply writeBytes_kept
            | with_reducible (refine writeBytes_kept_eq ?_ (by with_reducible assumption))
            | (refine pair_eq1 ?_ (by with_reducible assumption)) | (refine pair_eq2 ?_ (by with_reducible assumption))
            | (refine ans_done_eq ?_ (by with_reducible assumption)) | (refine ans_wait_eq ?_ (by with_reducible assumption))
            | with_reducible apply ans_done | with_reducible apply ans_wait | with_reducible apply ans_held
            | with_reducible apply out_next | with_reducible intro _ | extract_lets | split | dsimp +zetaDelta -iota only)

theorem execMemCacheOp_kept (c : Cmd) (s : State) (hs : Kept cs_ s) : OutKept cs_ (execMemCacheOp c s) := by
  unfold execMemCacheOp
  try extract_lets
  repeat'
    (first | with_reducible assumption | (with_reducible show Kept _ _; simp -iota -zeta only [memOk_mk])
           | with_reducible apply memsOk_of | with_reducible apply firmware_kept | with_reducible apply checked_kept
           | with_reducible apply cacheOp_kept | with_reducible (refine cacheOp_kept_eq ?_ (by with_reducible assumption))
           | with_reducible apply ans_done | with_reducible apply ans_wait | with_reducible apply out_next | with_reducible intro _
           | extract_lets | split | dsimp +zetaDelta -iota only)

theorem execCacheControlWrite_kept (r : Requester) (p : Nat) (bytes : List Byte) (s : State) (hs : Kept cs_ s) : OutKept cs_
    (execCacheControlWrite r p bytes s) := by
  unfold execCacheControlWrite
  try extract_lets
  repeat'
    (first | with_reducible assumption | (with_reducible show Kept _ _; simp -iota -zeta only [memOk_mk, memsOk_mk])
           | (with_reducible show KeptParts _ _ _ _; simp -iota -zeta only [memsOk_mk]) | with_reducible apply memsOk_of
           | with_reducible apply cellsOk_of | with_reducible apply controlWrite_kept
           | with_reducible (refine controlWrite_kept_eq ?_ (by with_reducible assumption)) | with_reducible apply foldl_kept
           | with_reducible apply foldl_snd2_kept | with_reducible apply foldl_fst_kept | with_reducible apply foldl_snd_kept
           | with_reducible apply getD_kept | (refine pair_eq1 ?_ (by with_reducible assumption))
           | (refine pair_eq2 ?_ (by with_reducible assumption)) | (refine ans_done_eq ?_ (by with_reducible assumption))
           | (refine ans_wait_eq ?_ (by with_reducible assumption)) | with_reducible apply ans_done | with_reducible apply ans_wait
           | with_reducible apply out_next | with_reducible intro _ | extract_lets | split | dsimp +zetaDelta -iota only)

theorem execCacheControlDone_kept (p : Nat) (s : State) (hs : Kept cs_ s) : OutKept cs_ (execCacheControlDone p s) := by
  unfold execCacheControlDone
  try extract_lets
  repeat'
    (first | with_reducible assumption | (with_reducible show Kept _ _; simp -iota -zeta only [memOk_mk])
           | with_reducible apply memsOk_of | with_reducible apply controlFinish_kept | with_reducible apply ans_done
           | with_reducible apply ans_wait | with_reducible apply out_next | with_reducible intro _ | extract_lets | split
           | dsimp +zetaDelta -iota only)

theorem clearWindow_kept (s : State) (hs : Kept cs_ s) : Kept cs_ (clearWindow s) := by
  unfold clearWindow
  try extract_lets
  repeat'
    (first | with_reducible assumption | (with_reducible show Kept _ _; simp -iota -zeta only [memOk_mk, memsOk_mk])
           | (with_reducible show KeptParts _ _ _ _; simp -iota -zeta only [memsOk_mk]) | with_reducible apply memsOk_of
           | with_reducible apply cellsOk_of | with_reducible apply implicitRelease_kept | with_reducible apply setEntry_kept
           | with_reducible apply foldl_kept | with_reducible apply foldl_snd2_kept | with_reducible apply foldl_fst_kept
           | with_reducible apply foldl_snd_kept | with_reducible apply getD_kept | (refine pair_eq1 ?_ (by with_reducible assumption))
           | (refine pair_eq2 ?_ (by with_reducible assumption)) | (refine ans_done_eq ?_ (by with_reducible assumption))
           | (refine ans_wait_eq ?_ (by with_reducible assumption)) | with_reducible apply ans_done | with_reducible apply ans_wait
           | with_reducible apply out_next | with_reducible intro _ | extract_lets | split | dsimp +zetaDelta -iota only)

theorem claimAll_kept_eq (mode : Nat) (l : List Nat) (s : State) {t : State} (hs : Kept cs_ s) (e : claimAll mode l s = .inl t)
    : Kept cs_ t := by
  induction l generalizing s with
  | nil => cases e; exact hs
  | cons r l ih =>
    unfold claimAll at e
    split at e
    · cases e
    · exact ih _ (grant_kept _ _ _ _ hs) e

theorem execMemWindowSet_kept (c : Cmd) (s : State) (hs : Kept cs_ s) : OutKept cs_ (execMemWindowSet c s) := by
  unfold execMemWindowSet
  try extract_lets
  repeat'
    (first | with_reducible assumption | (with_reducible show Kept _ _; simp -iota -zeta only [memOk_mk, memsOk_mk])
           | (with_reducible show KeptParts _ _ _ _; simp -iota -zeta only [memsOk_mk]) | with_reducible apply memsOk_of
           | with_reducible apply cellsOk_of | with_reducible apply firmware_kept | with_reducible apply checked_kept
           | with_reducible (refine claimAll_kept_eq _ _ _ ?_ (by with_reducible assumption)) | with_reducible apply flushRegion_kept
           | with_reducible apply setEntry_kept | with_reducible apply foldl_kept | with_reducible apply foldl_snd2_kept
           | with_reducible apply foldl_fst_kept | with_reducible apply foldl_snd_kept | with_reducible apply getD_kept
           | (refine pair_eq1 ?_ (by with_reducible assumption)) | (refine pair_eq2 ?_ (by with_reducible assumption))
           | (refine ans_done_eq ?_ (by with_reducible assumption)) | (refine ans_wait_eq ?_ (by with_reducible assumption))
           | with_reducible apply ans_done | with_reducible apply ans_wait | with_reducible apply out_next | with_reducible intro _
           | extract_lets | split | dsimp +zetaDelta -iota only)

theorem execMemWindowClear_kept (c : Cmd) (s : State) (hs : Kept cs_ s) : OutKept cs_ (execMemWindowClear c s) := by
  unfold execMemWindowClear
  try extract_lets
  repeat'
    (first | with_reducible assumption | (with_reducible show Kept _ _; simp -iota -zeta only [memOk_mk])
           | with_reducible apply memsOk_of | with_reducible apply firmware_kept | with_reducible apply checked_kept
           | with_reducible apply clearWindow_kept | with_reducible apply ans_done | with_reducible apply ans_wait
           | with_reducible apply out_next | with_reducible intro _ | extract_lets | split | dsimp +zetaDelta -iota only)

theorem execHdmDecoderCommit_kept (s : State) (hs : Kept cs_ s) : OutKept cs_ (execHdmDecoderCommit s) := by
  unfold execHdmDecoderCommit
  try extract_lets
  repeat'
    (first | with_reducible assumption | (with_reducible show Kept _ _; simp -iota -zeta only [memOk_mk, memsOk_mk])
           | (with_reducible show KeptParts _ _ _ _; simp -iota -zeta only [memsOk_mk]) | with_reducible apply memsOk_of
           | with_reducible apply cellsOk_of | with_reducible apply foldl_kept | with_reducible apply foldl_snd2_kept
           | with_reducible apply foldl_fst_kept | with_reducible apply foldl_snd_kept | with_reducible apply getD_kept
           | (refine pair_eq1 ?_ (by with_reducible assumption)) | (refine pair_eq2 ?_ (by with_reducible assumption))
           | (refine ans_done_eq ?_ (by with_reducible assumption)) | (refine ans_wait_eq ?_ (by with_reducible assumption))
           | with_reducible apply ans_done | with_reducible apply ans_wait | with_reducible apply out_next | with_reducible intro _
           | extract_lets | split | dsimp +zetaDelta -iota only)

theorem execHdmDecoderUncommit_kept (s : State) (hs : Kept cs_ s) : OutKept cs_ (execHdmDecoderUncommit s) := by
  unfold execHdmDecoderUncommit
  try extract_lets
  repeat'
    (first | with_reducible assumption | (with_reducible show Kept _ _; simp -iota -zeta only [memOk_mk, memsOk_mk])
           | (with_reducible show KeptParts _ _ _ _; simp -iota -zeta only [memsOk_mk]) | with_reducible apply memsOk_of
           | with_reducible apply cellsOk_of | with_reducible apply foldl_kept | with_reducible apply foldl_snd2_kept
           | with_reducible apply foldl_fst_kept | with_reducible apply foldl_snd_kept | with_reducible apply getD_kept
           | (refine pair_eq1 ?_ (by with_reducible assumption)) | (refine pair_eq2 ?_ (by with_reducible assumption))
           | (refine ans_done_eq ?_ (by with_reducible assumption)) | (refine ans_wait_eq ?_ (by with_reducible assumption))
           | with_reducible apply ans_done | with_reducible apply ans_wait | with_reducible apply out_next | with_reducible intro _
           | extract_lets | split | dsimp +zetaDelta -iota only)

theorem execMemTest_kept (c : Cmd) (s : State) (hs : Kept cs_ s) : OutKept cs_ (execMemTest c s) := by
  unfold execMemTest
  try extract_lets
  repeat'
    (first | with_reducible assumption | (with_reducible show Kept _ _; simp -iota -zeta only [memOk_mk])
           | with_reducible apply memsOk_of | with_reducible apply firmware_kept | with_reducible apply checked_kept
           | with_reducible apply ans_done | with_reducible apply ans_wait | with_reducible apply out_next | with_reducible intro _
           | extract_lets | split | dsimp +zetaDelta -iota only)

theorem testChannel_kept (s : State) (key : Nat) (sampled : Bool) (hs : Kept cs_ s) : Kept cs_ (testChannel s key sampled) := by
  have h0 := hs.ok.mems.ok
  unfold testChannel
  simp only [memOk_mk, memsOk_mk]
  refine ⟨hs.ok.queue, ?_, h0.host⟩
  refine cellWfFrom_congr _ _ _ _ ?_ (cellWfFrom_filter _ _ _ _ none (by simp) h0.cells)
  intro e he
  have hk : cellChan e.1 ≠ key := by simpa using (List.mem_filter.1 he).2
  have hm : ∀ c, c = cellChan e.1 → fillOf { fill := s.mem.fill, chanFill := s.mem.chanFill } c =
      fillOf { fill := s.mem.fill, chanFill := mput s.mem.chanFill key (if sampled then .sampled else .march) } c := by
    intro c hc
    unfold fillOf
    exact (mget_mput_ne _ _ _ _ _ (by rw [hc]; exact hk)).symm
  unfold memDflt
  split
  · rename_i hlt
    rw [hm _ (by unfold cellChan; rw [if_pos hlt])]
  · rename_i hlt
    dsimp only
    rw [hm _ (by unfold cellChan; rw [if_neg hlt])]

theorem execMemTestEnd_kept (findings : List TestFinding) (s : State) (hs : Kept cs_ s) : OutKept cs_ (execMemTestEnd findings s) := by
  unfold execMemTestEnd
  try extract_lets
  repeat'
    (first | with_reducible assumption | (with_reducible show Kept _ _; simp -iota -zeta only [memOk_mk])
           | with_reducible apply memsOk_of | with_reducible apply testChannel_kept | with_reducible apply markChannel_kept
           | with_reducible (refine hostWrite?_kept_eq ?_ (by with_reducible assumption)) | with_reducible apply finishWait_kept
           | with_reducible apply foldl_kept | with_reducible apply ans_done | with_reducible apply ans_wait
           | with_reducible apply out_next | with_reducible intro _ | extract_lets | split | dsimp +zetaDelta -iota only)

end Sys2Proof.Machine
end

