-- ==== Sys2Proof/Laws/KeptMemService.lean ====
section
/-! SUPPORT. Every definition of Machine/MemService.lean keeps the queue of waiting commands and the canonical form of both memories. -/
namespace Sys2Proof.Machine
open Sys2Proof
set_option maxHeartbeats 400000
set_option linter.all false
variable {cs_ : List Instr}
theorem setReply_kept (s : State) (st : Nat) (d : List Byte) (poison : Bool) (hs : Kept cs_ s) : Kept cs_ (setReply s st d poison) := by
  unfold setReply
  try extract_lets
  repeat'
    (first | with_reducible assumption | (with_reducible show Kept _ _; simp -iota -zeta only [memOk_mk, memsOk_mk])
           | (with_reducible show KeptParts _ _ _ _; simp -iota -zeta only [memsOk_mk]) | with_reducible apply memsOk_of
           | with_reducible apply cellsOk_of | with_reducible apply foldl_kept | with_reducible apply foldl_snd2_kept
           | with_reducible apply foldl_fst_kept | with_reducible apply foldl_snd_kept | with_reducible apply getD_kept
           | (refine pair_eq1 ?_ (by with_reducible assumption)) | (refine pair_eq2 ?_ (by with_reducible assumption))
           | (refine ans_done_eq ?_ (by with_reducible assumption)) | (refine ans_wait_eq ?_ (by with_reducible assumption))
           | with_reducible apply ans_done | with_reducible apply ans_wait | with_reducible apply out_next | with_reducible intro _
           | extract_lets | split | dsimp +zetaDelta -iota only)

theorem cxlPoisoned_kept (s : State) (hs : Kept cs_ s) : Kept cs_ (cxlPoisoned s) := by
  unfold cxlPoisoned
  try extract_lets
  repeat'
    (first | with_reducible assumption | (with_reducible show Kept _ _; simp -iota -zeta only [memOk_mk, memsOk_mk])
            | (with_reducible show KeptParts _ _ _ _; simp -iota -zeta only [memsOk_mk]) | with_reducible apply memsOk_of
            | with_reducible apply cellsOk_of | with_reducible apply freeBytes_kept
            | with_reducible (refine freeBytes_kept_eq ?_ (by with_reducible assumption)) | with_reducible apply setReply_kept
            | (refine pair_eq1 ?_ (by with_reducible assumption)) | (refine pair_eq2 ?_ (by with_reducible assumption))
            | (refine ans_done_eq ?_ (by with_reducible assumption)) | (refine ans_wait_eq ?_ (by with_reducible assumption))
            | with_reducible apply ans_done | with_reducible apply ans_wait | with_reducible apply ans_held
            | with_reducible apply out_next | with_reducible intro _ | extract_lets | split | dsimp +zetaDelta -iota only)

theorem cxlReadNow_kept (s : State) (dpa : Nat) (hs : Kept cs_ s) : Kept cs_ (cxlReadNow s dpa) := by
  unfold cxlReadNow
  try extract_lets
  repeat'
    (first | with_reducible assumption | (with_reducible show Kept _ _; simp -iota -zeta only [memOk_mk, memsOk_mk])
            | (with_reducible show KeptParts _ _ _ _; simp -iota -zeta only [memsOk_mk]) | with_reducible apply memsOk_of
            | with_reducible apply cellsOk_of | with_reducible apply cxlPoisoned_kept
            | with_reducible (refine cxlPoisoned_kept_eq ?_ (by with_reducible assumption)) | with_reducible apply readGranule_kept
            | with_reducible apply charge_kept | with_reducible apply setReply_kept | (refine pair_eq1 ?_ (by with_reducible assumption))
            | (refine pair_eq2 ?_ (by with_reducible assumption)) | (refine ans_done_eq ?_ (by with_reducible assumption))
            | (refine ans_wait_eq ?_ (by with_reducible assumption)) | with_reducible apply ans_done | with_reducible apply ans_wait
            | with_reducible apply ans_held | with_reducible apply out_next | with_reducible intro _ | extract_lets | split
            | dsimp +zetaDelta -iota only)

theorem cxlWriteNow_kept (s : State) (dpa : Nat) (b : List Byte) (hs : Kept cs_ s) : Kept cs_ (cxlWriteNow s dpa b) := by
  unfold cxlWriteNow
  try extract_lets
  repeat'
    (first | with_reducible assumption | (with_reducible show Kept _ _; simp -iota -zeta only [memOk_mk, memsOk_mk])
            | (with_reducible show KeptParts _ _ _ _; simp -iota -zeta only [memsOk_mk]) | with_reducible apply memsOk_of
            | with_reducible apply cellsOk_of | with_reducible apply setReply_kept | with_reducible apply noteDrop_kept
            | with_reducible apply charge_kept | with_reducible apply writeGranule_kept
            | with_reducible (refine writeGranule_kept_eq ?_ (by with_reducible assumption)) | with_reducible apply mergeGranule_kept
            | with_reducible (refine mergeGranule_kept_eq ?_ (by with_reducible assumption))
            | (refine pair_eq1 ?_ (by with_reducible assumption)) | (refine pair_eq2 ?_ (by with_reducible assumption))
            | (refine ans_done_eq ?_ (by with_reducible assumption)) | (refine ans_wait_eq ?_ (by with_reducible assumption))
            | with_reducible apply ans_done | with_reducible apply ans_wait | with_reducible apply ans_held
            | with_reducible apply out_next | with_reducible intro _ | extract_lets | split | dsimp +zetaDelta -iota only)

theorem accessNow_kept (s : State) (w : Waiting) (hs : Kept cs_ s) : Kept cs_ (accessNow s w) := by
  unfold accessNow
  try extract_lets
  repeat'
    (first | with_reducible assumption | (with_reducible show Kept _ _; simp -iota -zeta only [memOk_mk, memsOk_mk])
            | (with_reducible show KeptParts _ _ _ _; simp -iota -zeta only [memsOk_mk]) | with_reducible apply memsOk_of
            | with_reducible apply cellsOk_of | with_reducible apply cxlReadNow_kept
            | with_reducible (refine cxlReadNow_kept_eq ?_ (by with_reducible assumption)) | with_reducible apply readBytes_kept
            | with_reducible (refine readBytes_kept_eq ?_ (by with_reducible assumption)) | with_reducible apply setReply_kept
            | with_reducible apply cxlWriteNow_kept | with_reducible (refine cxlWriteNow_kept_eq ?_ (by with_reducible assumption))
            | with_reducible apply writeBytes_kept | with_reducible (refine writeBytes_kept_eq ?_ (by with_reducible assumption))
            | (refine pair_eq1 ?_ (by with_reducible assumption)) | (refine pair_eq2 ?_ (by with_reducible assumption))
            | (refine ans_done_eq ?_ (by with_reducible assumption)) | (refine ans_wait_eq ?_ (by with_reducible assumption))
            | with_reducible apply ans_done | with_reducible apply ans_wait | with_reducible apply ans_held
            | with_reducible apply out_next | with_reducible intro _ | extract_lets | split | dsimp +zetaDelta -iota only)

theorem queueAt_kept (s : State) (t : Tier) (c : Nat) (w : Waiting) (hs : Kept cs_ s) : Kept cs_ (queueAt s t c w) := by
  unfold queueAt
  try extract_lets
  repeat'
    (first | with_reducible assumption | (with_reducible show Kept _ _; simp -iota -zeta only [memOk_mk, memsOk_mk])
            | (with_reducible show KeptParts _ _ _ _; simp -iota -zeta only [memsOk_mk]) | with_reducible apply memsOk_of
            | with_reducible apply cellsOk_of | with_reducible apply setChan_kept | (refine pair_eq1 ?_ (by with_reducible assumption))
            | (refine pair_eq2 ?_ (by with_reducible assumption)) | (refine ans_done_eq ?_ (by with_reducible assumption))
            | (refine ans_wait_eq ?_ (by with_reducible assumption)) | with_reducible apply ans_done | with_reducible apply ans_wait
            | with_reducible apply ans_held | with_reducible apply out_next | with_reducible intro _ | extract_lets | split
            | dsimp +zetaDelta -iota only)

theorem admitGo_kept (t : Tier) (c : Nat) (x2 : Nat) (x3 : State) (hx3 : Kept cs_ x3) : Kept cs_ (admitGo t c x2 x3) := by
  induction x2 generalizing x3 with
  | zero => (first | with_reducible assumption | (unfold admitGo; with_reducible assumption))
  | succ k ih =>
    unfold admitGo
    try extract_lets
    repeat'
      (first | with_reducible assumption | (with_reducible show Kept _ _; simp -iota -zeta only [memOk_mk, memsOk_mk])
              | (with_reducible show KeptParts _ _ _ _; simp -iota -zeta only [memsOk_mk]) | with_reducible apply memsOk_of
              | with_reducible apply cellsOk_of | with_reducible apply setChan_kept | (refine pair_eq1 ?_ (by with_reducible assumption))
              | (refine pair_eq2 ?_ (by with_reducible assumption)) | (refine ans_done_eq ?_ (by with_reducible assumption))
              | (refine ans_wait_eq ?_ (by with_reducible assumption)) | with_reducible apply ans_done | with_reducible apply ans_wait
              | with_reducible apply ans_held | with_reducible apply out_next | with_reducible apply ih | with_reducible intro _
              | extract_lets | split | dsimp +zetaDelta -iota only)

theorem admitSources_kept (s : State) (t : Tier) (c : Nat) (hs : Kept cs_ s) : Kept cs_ (admitSources s t c) := by
  unfold admitSources
  try extract_lets
  repeat'
    (first | with_reducible assumption | (with_reducible show Kept _ _; simp -iota -zeta only [memOk_mk, memsOk_mk])
            | (with_reducible show KeptParts _ _ _ _; simp -iota -zeta only [memsOk_mk]) | with_reducible apply memsOk_of
            | with_reducible apply cellsOk_of | with_reducible apply admitGo_kept | (refine pair_eq1 ?_ (by with_reducible assumption))
            | (refine pair_eq2 ?_ (by with_reducible assumption)) | (refine ans_done_eq ?_ (by with_reducible assumption))
            | (refine ans_wait_eq ?_ (by with_reducible assumption)) | with_reducible apply ans_done | with_reducible apply ans_wait
            | with_reducible apply ans_held | with_reducible apply out_next | with_reducible intro _ | extract_lets | split
            | dsimp +zetaDelta -iota only)

theorem accessChan_kept (s : State) (w : Waiting) (hs : Kept cs_ s) : Kept cs_ (accessChan s w) := by
  unfold accessChan
  try extract_lets
  repeat'
    (first | with_reducible assumption | (with_reducible show Kept _ _; simp -iota -zeta only [memOk_mk, memsOk_mk])
            | (with_reducible show KeptParts _ _ _ _; simp -iota -zeta only [memsOk_mk]) | with_reducible apply memsOk_of
            | with_reducible apply cellsOk_of | with_reducible apply accessNow_kept
            | with_reducible (refine accessNow_kept_eq ?_ (by with_reducible assumption)) | with_reducible apply queueAt_kept
            | (refine pair_eq1 ?_ (by with_reducible assumption)) | (refine pair_eq2 ?_ (by with_reducible assumption))
            | (refine ans_done_eq ?_ (by with_reducible assumption)) | (refine ans_wait_eq ?_ (by with_reducible assumption))
            | with_reducible apply ans_done | with_reducible apply ans_wait | with_reducible apply ans_held
            | with_reducible apply out_next | with_reducible intro _ | extract_lets | split | dsimp +zetaDelta -iota only)

theorem holdAt_kept (s : State) (k : Nat) (w : Waiting) (hs : Kept cs_ s) : Kept cs_ (holdAt s k w) := by
  unfold holdAt
  try extract_lets
  repeat'
    (first | with_reducible assumption | (with_reducible show Kept _ _; simp -iota -zeta only [memOk_mk])
           | with_reducible apply memsOk_of | with_reducible intro _ | extract_lets | split | dsimp +zetaDelta -iota only)

theorem accessStart_kept (s : State) (w : Waiting) (hs : Kept cs_ s) : Kept cs_ (accessStart s w) := by
  unfold accessStart
  try extract_lets
  repeat'
    (first | with_reducible assumption | (with_reducible show Kept _ _; simp -iota -zeta only [memOk_mk, memsOk_mk])
            | (with_reducible show KeptParts _ _ _ _; simp -iota -zeta only [memsOk_mk]) | with_reducible apply memsOk_of
            | with_reducible apply cellsOk_of | with_reducible apply holdAt_kept | with_reducible apply accessChan_kept
            | with_reducible (refine accessChan_kept_eq ?_ (by with_reducible assumption))
            | (refine pair_eq1 ?_ (by with_reducible assumption)) | (refine pair_eq2 ?_ (by with_reducible assumption))
            | (refine ans_done_eq ?_ (by with_reducible assumption)) | (refine ans_wait_eq ?_ (by with_reducible assumption))
            | with_reducible apply ans_done | with_reducible apply ans_wait | with_reducible apply ans_held
            | with_reducible apply out_next | with_reducible intro _ | extract_lets | split | dsimp +zetaDelta -iota only)

theorem execMemoryRead_kept (r : Requester) (dpa : Nat) (len : Nat) (s : State) (hs : Kept cs_ s) : OutKept cs_
    (execMemoryRead r dpa len s) := by
  unfold execMemoryRead
  try extract_lets
  repeat'
    (first | with_reducible assumption | (with_reducible show Kept _ _; simp -iota -zeta only [memOk_mk])
           | with_reducible apply memsOk_of | with_reducible apply accessStart_kept | with_reducible apply ans_done
           | with_reducible apply ans_wait | with_reducible apply out_next | with_reducible intro _ | extract_lets | split
           | dsimp +zetaDelta -iota only)

theorem execPartialWrite_kept (r : Requester) (dpa : Nat) (bytes : List Byte) (s : State) (hs : Kept cs_ s) : OutKept cs_
    (execPartialWrite r dpa bytes s) := by
  unfold execPartialWrite
  try extract_lets
  repeat'
    (first | with_reducible assumption | (with_reducible show Kept _ _; simp -iota -zeta only [memOk_mk])
           | with_reducible apply memsOk_of | with_reducible apply accessStart_kept | with_reducible apply ans_done
           | with_reducible apply ans_wait | with_reducible apply out_next | with_reducible intro _ | extract_lets | split
           | dsimp +zetaDelta -iota only)

theorem execCxlMemRead_kept (dpa : Nat) (s : State) (hs : Kept cs_ s) : OutKept cs_ (execCxlMemRead dpa s) := by
  unfold execCxlMemRead
  try extract_lets
  repeat'
    (first | with_reducible assumption | (with_reducible show Kept _ _; simp -iota -zeta only [memOk_mk, memsOk_mk])
            | (with_reducible show KeptParts _ _ _ _; simp -iota -zeta only [memsOk_mk]) | with_reducible apply memsOk_of
            | with_reducible apply cellsOk_of | with_reducible apply accessStart_kept
            | with_reducible (refine accessStart_kept_eq ?_ (by with_reducible assumption))
            | (refine pair_eq1 ?_ (by with_reducible assumption)) | (refine pair_eq2 ?_ (by with_reducible assumption))
            | (refine ans_done_eq ?_ (by with_reducible assumption)) | (refine ans_wait_eq ?_ (by with_reducible assumption))
            | with_reducible apply ans_done | with_reducible apply ans_wait | with_reducible apply ans_held
            | with_reducible apply out_next | with_reducible intro _ | extract_lets | split | dsimp +zetaDelta -iota only)

theorem execCxlMemWrite_kept (dpa : Nat) (bytes : List Byte) (s : State) (hs : Kept cs_ s) : OutKept cs_ (execCxlMemWrite dpa bytes s) :=
    by
  unfold execCxlMemWrite
  try extract_lets
  repeat'
    (first | with_reducible assumption | (with_reducible show Kept _ _; simp -iota -zeta only [memOk_mk, memsOk_mk])
            | (with_reducible show KeptParts _ _ _ _; simp -iota -zeta only [memsOk_mk]) | with_reducible apply memsOk_of
            | with_reducible apply cellsOk_of | with_reducible apply accessStart_kept
            | with_reducible (refine accessStart_kept_eq ?_ (by with_reducible assumption))
            | (refine pair_eq1 ?_ (by with_reducible assumption)) | (refine pair_eq2 ?_ (by with_reducible assumption))
            | (refine ans_done_eq ?_ (by with_reducible assumption)) | (refine ans_wait_eq ?_ (by with_reducible assumption))
            | with_reducible apply ans_done | with_reducible apply ans_wait | with_reducible apply ans_held
            | with_reducible apply out_next | with_reducible intro _ | extract_lets | split | dsimp +zetaDelta -iota only)

theorem drainChanGo_kept (t : Tier) (c : Nat) (x2 : Nat) (x3 : State) (hx3 : Kept cs_ x3) : Kept cs_ (drainChanGo t c x2 x3) := by
  induction x2 generalizing x3 with
  | zero => (first | with_reducible assumption | (unfold drainChanGo; with_reducible assumption))
  | succ k ih =>
    unfold drainChanGo
    try extract_lets
    repeat'
      (first | with_reducible assumption | (with_reducible show Kept _ _; simp -iota -zeta only [memOk_mk, memsOk_mk])
              | (with_reducible show KeptParts _ _ _ _; simp -iota -zeta only [memsOk_mk]) | with_reducible apply memsOk_of
              | with_reducible apply cellsOk_of | with_reducible apply accessChan_kept
              | with_reducible (refine accessChan_kept_eq ?_ (by with_reducible assumption)) | with_reducible apply admitSources_kept
              | with_reducible apply setChan_kept | (refine pair_eq1 ?_ (by with_reducible assumption))
              | (refine pair_eq2 ?_ (by with_reducible assumption)) | (refine ans_done_eq ?_ (by with_reducible assumption))
              | (refine ans_wait_eq ?_ (by with_reducible assumption)) | with_reducible apply ans_done | with_reducible apply ans_wait
              | with_reducible apply ans_held | with_reducible apply out_next | with_reducible apply ih | with_reducible intro _
              | extract_lets | split | dsimp +zetaDelta -iota only)

theorem drainChan_kept (s : State) (t : Tier) (c : Nat) (hs : Kept cs_ s) : Kept cs_ (drainChan s t c) := by
  unfold drainChan
  try extract_lets
  repeat'
    (first | with_reducible assumption | (with_reducible show Kept _ _; simp -iota -zeta only [memOk_mk, memsOk_mk])
            | (with_reducible show KeptParts _ _ _ _; simp -iota -zeta only [memsOk_mk]) | with_reducible apply memsOk_of
            | with_reducible apply cellsOk_of | with_reducible apply drainChanGo_kept
            | with_reducible (refine drainChanGo_kept_eq ?_ (by with_reducible assumption)) | with_reducible apply admitSources_kept
            | (refine pair_eq1 ?_ (by with_reducible assumption)) | (refine pair_eq2 ?_ (by with_reducible assumption))
            | (refine ans_done_eq ?_ (by with_reducible assumption)) | (refine ans_wait_eq ?_ (by with_reducible assumption))
            | with_reducible apply ans_done | with_reducible apply ans_wait | with_reducible apply ans_held
            | with_reducible apply out_next | with_reducible intro _ | extract_lets | split | dsimp +zetaDelta -iota only)

theorem execAgingPromotion_kept (tier : Tier) (channel : Nat) (entry : Nat) (s : State) (hs : Kept cs_ s) : OutKept cs_
    (execAgingPromotion tier channel entry s) := by
  unfold execAgingPromotion
  try extract_lets
  repeat'
    (first | with_reducible assumption | (with_reducible show Kept _ _; simp -iota -zeta only [memOk_mk, memsOk_mk])
            | (with_reducible show KeptParts _ _ _ _; simp -iota -zeta only [memsOk_mk]) | with_reducible apply memsOk_of
            | with_reducible apply cellsOk_of | with_reducible apply admitSources_kept | with_reducible apply bumpO_kept
            | with_reducible apply setChan_kept | (refine pair_eq1 ?_ (by with_reducible assumption))
            | (refine pair_eq2 ?_ (by with_reducible assumption)) | (refine ans_done_eq ?_ (by with_reducible assumption))
            | (refine ans_wait_eq ?_ (by with_reducible assumption)) | with_reducible apply ans_done | with_reducible apply ans_wait
            | with_reducible apply ans_held | with_reducible apply out_next | with_reducible intro _ | extract_lets | split
            | dsimp +zetaDelta -iota only)

theorem releaseGo_kept (k : Nat) (x1 : Nat) (x2 : State) (hx2 : Kept cs_ x2) : Kept cs_ (releaseGo k x1 x2) := by
  induction x1 generalizing x2 with
  | zero => (first | with_reducible assumption | (unfold releaseGo; with_reducible assumption))
  | succ k ih =>
    unfold releaseGo
    try extract_lets
    repeat'
      (first | with_reducible assumption | (with_reducible show Kept _ _; simp -iota -zeta only [memOk_mk, memsOk_mk])
              | (with_reducible show KeptParts _ _ _ _; simp -iota -zeta only [memsOk_mk]) | with_reducible apply memsOk_of
              | with_reducible apply cellsOk_of | with_reducible apply accessChan_kept
              | with_reducible (refine accessChan_kept_eq ?_ (by with_reducible assumption))
              | (refine pair_eq1 ?_ (by with_reducible assumption)) | (refine pair_eq2 ?_ (by with_reducible assumption))
              | (refine ans_done_eq ?_ (by with_reducible assumption)) | (refine ans_wait_eq ?_ (by with_reducible assumption))
              | with_reducible apply ans_done | with_reducible apply ans_wait | with_reducible apply ans_held
              | with_reducible apply out_next | with_reducible apply ih | with_reducible intro _ | extract_lets | split
              | dsimp +zetaDelta -iota only)

theorem execRegulatorRelease_kept (reg : Nat) (s : State) (hs : Kept cs_ s) : OutKept cs_ (execRegulatorRelease reg s) := by
  unfold execRegulatorRelease
  try extract_lets
  repeat'
    (first | with_reducible assumption | (with_reducible show Kept _ _; simp -iota -zeta only [memOk_mk])
           | with_reducible apply memsOk_of | with_reducible apply releaseGo_kept | with_reducible apply ans_done
           | with_reducible apply ans_wait | with_reducible apply out_next | with_reducible intro _ | extract_lets | split
           | dsimp +zetaDelta -iota only)

theorem execRegulatorPhase_kept (s : State) (hs : Kept cs_ s) : OutKept cs_ (execRegulatorPhase s) := by
  unfold execRegulatorPhase
  try extract_lets
  repeat'
    (first | with_reducible assumption | (with_reducible show Kept _ _; simp -iota -zeta only [memOk_mk])
           | with_reducible apply memsOk_of | with_reducible apply ans_done | with_reducible apply ans_wait
           | with_reducible apply out_next | with_reducible intro _ | extract_lets | split | dsimp +zetaDelta -iota only)

theorem execMemRegSet_kept (c : Cmd) (s : State) (hs : Kept cs_ s) : OutKept cs_ (execMemRegSet c s) := by
  unfold execMemRegSet
  try extract_lets
  repeat'
    (first | with_reducible assumption | (with_reducible show Kept _ _; simp -iota -zeta only [memOk_mk])
           | with_reducible apply memsOk_of | with_reducible apply firmware_kept | with_reducible apply checked_kept
           | with_reducible apply ans_done | with_reducible apply ans_wait | with_reducible apply out_next | with_reducible intro _
           | extract_lets | split | dsimp +zetaDelta -iota only)

theorem execMemClassSet_kept (c : Cmd) (s : State) (hs : Kept cs_ s) : OutKept cs_ (execMemClassSet c s) := by
  unfold execMemClassSet
  try extract_lets
  repeat'
    (first | with_reducible assumption | (with_reducible show Kept _ _; simp -iota -zeta only [memOk_mk])
           | with_reducible apply memsOk_of | with_reducible apply firmware_kept | with_reducible apply checked_kept
           | with_reducible apply ans_done | with_reducible apply ans_wait | with_reducible apply out_next | with_reducible intro _
           | extract_lets | split | dsimp +zetaDelta -iota only)

theorem execMemThermalLoad_kept (c : Cmd) (s : State) (hs : Kept cs_ s) : OutKept cs_ (execMemThermalLoad c s) := by
  unfold execMemThermalLoad
  try extract_lets
  repeat'
    (first | with_reducible assumption | (with_reducible show Kept _ _; simp -iota -zeta only [memOk_mk, memsOk_mk])
            | (with_reducible show KeptParts _ _ _ _; simp -iota -zeta only [memsOk_mk]) | with_reducible apply memsOk_of
            | with_reducible apply cellsOk_of | with_reducible apply firmware_kept | with_reducible apply checked_kept
            | (refine pair_eq1 ?_ (by with_reducible assumption)) | (refine pair_eq2 ?_ (by with_reducible assumption))
            | (refine ans_done_eq ?_ (by with_reducible assumption)) | (refine ans_wait_eq ?_ (by with_reducible assumption))
            | with_reducible apply ans_done | with_reducible apply ans_wait | with_reducible apply out_next | with_reducible intro _
            | extract_lets | split | dsimp +zetaDelta -iota only)

theorem setThermal_kept (s : State) (t : Tier) (u : Nat) (h : Thermal) (hs : Kept cs_ s) : Kept cs_ (setThermal s t u h) := by
  unfold setThermal
  try extract_lets
  repeat'
    (first | with_reducible assumption | (with_reducible show Kept _ _; simp -iota -zeta only [memOk_mk])
           | with_reducible apply memsOk_of | with_reducible intro _ | extract_lets | split | dsimp +zetaDelta -iota only)

theorem sendSlow_kept (s : State) (hs : Kept cs_ s) : Kept cs_ (sendSlow s) := by
  unfold sendSlow
  try extract_lets
  repeat'
    (first | with_reducible assumption | (with_reducible show Kept _ _; simp -iota -zeta only [memOk_mk])
           | with_reducible apply memsOk_of | with_reducible apply postSlow_kept | with_reducible apply floodOwn_kept
           | with_reducible intro _ | extract_lets | split | dsimp +zetaDelta -iota only)

theorem blotUnit_kept (s : State) (t : Tier) (u : Nat) (code : Nat) (v : Nat) (hs : Kept cs_ s) : Kept cs_ (blotUnit s t u code v) := by
  unfold blotUnit
  try extract_lets
  repeat'
    (first | with_reducible assumption | (with_reducible show Kept _ _; simp -iota -zeta only [memOk_mk])
           | with_reducible apply memsOk_of | with_reducible apply blot_kept | with_reducible apply foldl_kept | with_reducible intro _
           | extract_lets | split | dsimp +zetaDelta -iota only)

theorem logUnit_kept (s : State) (type : Nat) (t : Tier) (u : Nat) (temp : Int) (share : Nat) (hs : Kept cs_ s) : Kept cs_
    (logUnit s type t u temp share) := by
  unfold logUnit
  try extract_lets
  repeat'
    (first | with_reducible assumption | (with_reducible show Kept _ _; simp -iota -zeta only [memOk_mk])
           | with_reducible apply memsOk_of | with_reducible apply logErr_kept | with_reducible intro _ | extract_lets | split
           | dsimp +zetaDelta -iota only)

theorem flushUnit_kept (s : State) (t : Tier) (u : Nat) (hs : Kept cs_ s) : Kept cs_ (flushUnit s t u) := by
  unfold flushUnit
  try extract_lets
  repeat'
    (first | with_reducible assumption | (with_reducible show Kept _ _; simp -iota -zeta only [memOk_mk])
           | with_reducible apply memsOk_of | with_reducible apply flushRange_kept
           | with_reducible (refine flushRange_kept_eq ?_ (by with_reducible assumption)) | with_reducible apply foldl_kept
           | with_reducible intro _ | extract_lets | split | dsimp +zetaDelta -iota only)

theorem clearTrip_kept (s : State) (t : Tier) (u : Nat) (hs : Kept cs_ s) : Kept cs_ (clearTrip s t u) := by
  unfold clearTrip
  try extract_lets
  repeat'
    (first | with_reducible assumption | (with_reducible show Kept _ _; simp -iota -zeta only [memOk_mk])
           | with_reducible apply memsOk_of | with_reducible apply setThermal_kept | with_reducible apply flushUnit_kept
           | with_reducible apply blotUnit_kept | with_reducible apply logUnit_kept | with_reducible apply sendSlow_kept
           | with_reducible apply post_kept | with_reducible intro _ | extract_lets | split | dsimp +zetaDelta -iota only)

theorem execMemThermalClear_kept (c : Cmd) (s : State) (hs : Kept cs_ s) : OutKept cs_ (execMemThermalClear c s) := by
  unfold execMemThermalClear
  try extract_lets
  repeat'
    (first | with_reducible assumption | (with_reducible show Kept _ _; simp -iota -zeta only [memOk_mk])
           | with_reducible apply memsOk_of | with_reducible apply firmware_kept | with_reducible apply clearTrip_kept
           | with_reducible apply ans_done | with_reducible apply ans_wait | with_reducible apply out_next | with_reducible intro _
           | extract_lets | split | dsimp +zetaDelta -iota only)

theorem execMemThermalQuery_kept (c : Cmd) (s : State) (hs : Kept cs_ s) : OutKept cs_ (execMemThermalQuery c s) := by
  unfold execMemThermalQuery
  try extract_lets
  repeat'
    (first | with_reducible assumption | (with_reducible show Kept _ _; simp -iota -zeta only [memOk_mk])
           | with_reducible apply memsOk_of | with_reducible apply firmware_kept | with_reducible apply reportTo_kept
           | with_reducible apply ans_done | with_reducible apply ans_wait | with_reducible apply out_next | with_reducible intro _
           | extract_lets | split | dsimp +zetaDelta -iota only)

theorem scrubNext_kept (s : State) (die : Nat) (t : Tier) (hs : Kept cs_ s) : Kept cs_ (scrubNext s die t).2 := by
  unfold scrubNext
  try extract_lets
  repeat'
    (first | with_reducible assumption | (with_reducible show Kept _ _; simp -iota -zeta only [memOk_mk, memsOk_mk])
            | (with_reducible show KeptParts _ _ _ _; simp -iota -zeta only [memsOk_mk]) | with_reducible apply memsOk_of
            | with_reducible apply cellsOk_of | with_reducible apply getD_kept | (refine pair_eq1 ?_ (by with_reducible assumption))
            | (refine pair_eq2 ?_ (by with_reducible assumption)) | (refine ans_done_eq ?_ (by with_reducible assumption))
            | (refine ans_wait_eq ?_ (by with_reducible assumption)) | with_reducible apply ans_done | with_reducible apply ans_wait
            | with_reducible apply ans_held | with_reducible apply out_next | with_reducible intro _ | extract_lets | split
            | dsimp +zetaDelta -iota only)
theorem scrubNext_kept_eq {s : State} {die : Nat} {t : Tier} {r0 : Option (Nat × Nat)} {t_ : State} (hs : Kept cs_ s) (e_ : scrubNext s
    die t = (r0, t_)) : Kept cs_ t_ := by
  have := scrubNext_kept s die t hs
  rwa [e_] at this

theorem execScrubStep_kept (die : Nat) (tier : Tier) (s : State) (hs : Kept cs_ s) : OutKept cs_ (execScrubStep die tier s) := by
  unfold execScrubStep
  try extract_lets
  repeat'
    (first | with_reducible assumption | (with_reducible show Kept _ _; simp -iota -zeta only [memOk_mk, memsOk_mk])
            | (with_reducible show KeptParts _ _ _ _; simp -iota -zeta only [memsOk_mk]) | with_reducible apply memsOk_of
            | with_reducible apply cellsOk_of | with_reducible apply scrubNext_kept
            | with_reducible (refine scrubNext_kept_eq ?_ (by with_reducible assumption)) | with_reducible apply chanRead_kept
            | with_reducible (refine chanRead_kept_eq ?_ (by with_reducible assumption))
            | (refine pair_eq1 ?_ (by with_reducible assumption)) | (refine pair_eq2 ?_ (by with_reducible assumption))
            | (refine ans_done_eq ?_ (by with_reducible assumption)) | (refine ans_wait_eq ?_ (by with_reducible assumption))
            | with_reducible apply ans_done | with_reducible apply ans_wait | with_reducible apply ans_held
            | with_reducible apply out_next | with_reducible intro _ | extract_lets | split | dsimp +zetaDelta -iota only)

theorem execMemScrubSet_kept (c : Cmd) (s : State) (hs : Kept cs_ s) : OutKept cs_ (execMemScrubSet c s) := by
  unfold execMemScrubSet
  try extract_lets
  repeat'
    (first | with_reducible assumption | (with_reducible show Kept _ _; simp -iota -zeta only [memOk_mk])
           | with_reducible apply memsOk_of | with_reducible apply firmware_kept | with_reducible apply checked_kept
           | with_reducible apply ans_done | with_reducible apply ans_wait | with_reducible apply out_next | with_reducible intro _
           | extract_lets | split | dsimp +zetaDelta -iota only)

theorem execChannelRetrain_kept (tier : Tier) (channel : Nat) (errors : Nat) (s : State) (hs : Kept cs_ s) : OutKept cs_
    (execChannelRetrain tier channel errors s) := by
  unfold execChannelRetrain
  try extract_lets
  repeat'
    (first | with_reducible assumption | (with_reducible show Kept _ _; simp -iota -zeta only [memOk_mk])
           | with_reducible apply memsOk_of | with_reducible apply setChan_kept | with_reducible apply ans_done
           | with_reducible apply ans_wait | with_reducible apply out_next | with_reducible intro _ | extract_lets | split
           | dsimp +zetaDelta -iota only)

theorem memChannel_kept (s : State) (t : Tier) (c : Nat) (failed : Nat) (spares : Nat) (hs : Kept cs_ s) : Kept cs_
    (memChannel s t c failed spares) := by
  unfold memChannel
  try extract_lets
  repeat'
    (first | with_reducible assumption | (with_reducible show Kept _ _; simp -iota -zeta only [memOk_mk])
           | with_reducible apply memsOk_of | with_reducible apply post_kept | with_reducible intro _ | extract_lets | split
           | dsimp +zetaDelta -iota only)

theorem failChannel_kept (s : State) (t : Tier) (c : Nat) (hs : Kept cs_ s) : Kept cs_ (failChannel s t c) := by
  unfold failChannel
  try extract_lets
  repeat'
    (first | with_reducible assumption | (with_reducible show Kept _ _; simp -iota -zeta only [memOk_mk])
           | with_reducible apply memsOk_of | with_reducible apply markChannel_kept | with_reducible apply setChan_kept
           | with_reducible apply blot_kept | with_reducible apply logErr_kept | with_reducible apply memChannel_kept
           | with_reducible apply setState_kept | with_reducible intro _ | extract_lets | split | dsimp +zetaDelta -iota only)

theorem execRetrainComplete_kept (tier : Tier) (channel : Nat) (ok : Bool) (spare : Bool) (lost : Bool) (s : State) (hs : Kept cs_ s) :
    OutKept cs_ (execRetrainComplete tier channel ok spare lost s) := by
  unfold execRetrainComplete
  try extract_lets
  repeat'
    (first | with_reducible assumption | (with_reducible show Kept _ _; simp -iota -zeta only [memOk_mk, memsOk_mk])
            | (with_reducible show KeptParts _ _ _ _; simp -iota -zeta only [memsOk_mk]) | with_reducible apply memsOk_of
            | with_reducible apply cellsOk_of | with_reducible apply setChan_kept | with_reducible apply chanCount_kept
            | with_reducible apply logErr_kept | with_reducible apply blot_kept | with_reducible apply drainChan_kept
            | with_reducible (refine drainChan_kept_eq ?_ (by with_reducible assumption)) | with_reducible apply memChannel_kept
            | with_reducible apply failChannel_kept | (refine pair_eq1 ?_ (by with_reducible assumption))
            | (refine pair_eq2 ?_ (by with_reducible assumption)) | (refine ans_done_eq ?_ (by with_reducible assumption))
            | (refine ans_wait_eq ?_ (by with_reducible assumption)) | with_reducible apply ans_done | with_reducible apply ans_wait
            | with_reducible apply ans_held | with_reducible apply out_next | with_reducible intro _ | extract_lets | split
            | dsimp +zetaDelta -iota only)

theorem execMemErrRead_kept (c : Cmd) (s : State) (hs : Kept cs_ s) : OutKept cs_ (execMemErrRead c s) := by
  unfold execMemErrRead
  try extract_lets
  repeat'
    (first | with_reducible assumption | (with_reducible show Kept _ _; simp -iota -zeta only [memOk_mk])
           | with_reducible apply memsOk_of | with_reducible apply firmware_kept | with_reducible apply checked_kept
           | with_reducible apply reportTo_kept | with_reducible apply ans_done | with_reducible apply ans_wait
           | with_reducible apply out_next | with_reducible intro _ | extract_lets | split | dsimp +zetaDelta -iota only)

theorem execMemErrCounters_kept (c : Cmd) (s : State) (hs : Kept cs_ s) : OutKept cs_ (execMemErrCounters c s) := by
  unfold execMemErrCounters
  try extract_lets
  repeat'
    (first | with_reducible assumption | (with_reducible show Kept _ _; simp -iota -zeta only [memOk_mk])
           | with_reducible apply memsOk_of | with_reducible apply firmware_kept | with_reducible apply checked_kept
           | with_reducible apply reportTo_kept | with_reducible apply ans_done | with_reducible apply ans_wait
           | with_reducible apply out_next | with_reducible intro _ | extract_lets | split | dsimp +zetaDelta -iota only)

theorem execMemTraffic_kept (c : Cmd) (s : State) (hs : Kept cs_ s) : OutKept cs_ (execMemTraffic c s) := by
  unfold execMemTraffic
  try extract_lets
  repeat'
    (first | with_reducible assumption | (with_reducible show Kept _ _; simp -iota -zeta only [memOk_mk])
           | with_reducible apply memsOk_of | with_reducible apply firmware_kept | with_reducible apply checked_kept
           | with_reducible apply ans_done | with_reducible apply ans_wait | with_reducible apply out_next | with_reducible intro _
           | extract_lets | split | dsimp +zetaDelta -iota only)

theorem trafficWrite_kept (s : State) (p : Place) (d : List Byte) (hs : Kept cs_ s) : Kept cs_ (trafficWrite s p d) := by
  unfold trafficWrite
  try extract_lets
  repeat'
    (first | with_reducible assumption | (with_reducible show Kept _ _; simp -iota -zeta only [memOk_mk, memsOk_mk])
            | (with_reducible show KeptParts _ _ _ _; simp -iota -zeta only [memsOk_mk]) | with_reducible apply memsOk_of
            | with_reducible apply cellsOk_of | with_reducible apply prog_kept | with_reducible apply noteDrop_kept
            | with_reducible apply placeStore_kept | (refine pair_eq1 ?_ (by with_reducible assumption))
            | (refine pair_eq2 ?_ (by with_reducible assumption)) | (refine ans_done_eq ?_ (by with_reducible assumption))
            | (refine ans_wait_eq ?_ (by with_reducible assumption)) | with_reducible apply ans_done | with_reducible apply ans_wait
            | with_reducible apply ans_held | with_reducible apply out_next | with_reducible intro _ | extract_lets | split
            | dsimp +zetaDelta -iota only)

theorem storeTraffic_kept (s : State) (port : Nat) (r : TrafficRun) (written : Nat) (hs : Kept cs_ s) : Kept cs_ (storeTraffic s port r
    written) := by
  unfold storeTraffic
  try extract_lets
  repeat'
    (first | with_reducible assumption | (with_reducible show Kept _ _; simp -iota -zeta only [memOk_mk, memsOk_mk])
            | (with_reducible show KeptParts _ _ _ _; simp -iota -zeta only [memsOk_mk]) | with_reducible apply memsOk_of
            | with_reducible apply cellsOk_of | with_reducible apply foldl_kept | with_reducible apply trafficWrite_kept
            | with_reducible apply foldl_kept | with_reducible apply foldl_snd2_kept | with_reducible apply foldl_fst_kept
            | with_reducible apply foldl_snd_kept | (refine pair_eq1 ?_ (by with_reducible assumption))
            | (refine pair_eq2 ?_ (by with_reducible assumption)) | (refine ans_done_eq ?_ (by with_reducible assumption))
            | (refine ans_wait_eq ?_ (by with_reducible assumption)) | with_reducible apply ans_done | with_reducible apply ans_wait
            | with_reducible apply ans_held | with_reducible apply out_next | with_reducible intro _ | extract_lets | split
            | dsimp +zetaDelta -iota only)

theorem trafficRead_kept (e : Nat × Nat × State) (p : Place) (he : Kept cs_ e.2.2) : Kept cs_ (trafficRead e p).2.2 := by
  unfold trafficRead
  try extract_lets
  repeat'
    (first | with_reducible assumption | (with_reducible show Kept _ _; simp -iota -zeta only [memOk_mk, memsOk_mk])
            | (with_reducible show KeptParts _ _ _ _; simp -iota -zeta only [memsOk_mk]) | with_reducible apply memsOk_of
            | with_reducible apply cellsOk_of | with_reducible apply prog_kept | with_reducible apply chanCount_kept
            | with_reducible apply checkRead_kept | with_reducible (refine checkRead_kept_eq ?_ (by with_reducible assumption))
            | with_reducible apply noteUe_kept | (refine pair_eq1 ?_ (by with_reducible assumption))
            | (refine pair_eq2 ?_ (by with_reducible assumption)) | (refine ans_done_eq ?_ (by with_reducible assumption))
            | (refine ans_wait_eq ?_ (by with_reducible assumption)) | with_reducible apply ans_done | with_reducible apply ans_wait
            | with_reducible apply ans_held | with_reducible apply out_next | with_reducible intro _ | extract_lets | split
            | dsimp +zetaDelta -iota only)
theorem trafficRead_kept_eq {e : Nat × Nat × State} {p : Place} {r0 : Nat} {r1 : Nat} {t_ : State} (he : Kept cs_ e.2.2) (e_ : trafficRead
    e p = (r0, r1, t_)) : Kept cs_ t_ := by
  have := trafficRead_kept e p he
  rwa [e_] at this

theorem readTraffic_kept (s : State) (port : Nat) (r : TrafficRun) (read : Nat) (hs : Kept cs_ s) : Kept cs_ (readTraffic s port r
    read).2.2 := by
  unfold readTraffic
  try extract_lets
  repeat'
    (first | with_reducible assumption | (with_reducible show Kept _ _; simp -iota -zeta only [memOk_mk, memsOk_mk])
            | (with_reducible show KeptParts _ _ _ _; simp -iota -zeta only [memsOk_mk]) | with_reducible apply memsOk_of
            | with_reducible apply cellsOk_of | with_reducible apply foldl_kept | with_reducible apply trafficRead_kept
            | with_reducible (refine trafficRead_kept_eq ?_ (by with_reducible assumption)) | with_reducible apply foldl_kept
            | with_reducible apply foldl_snd2_kept | with_reducible apply foldl_fst_kept | with_reducible apply foldl_snd_kept
            | (refine pair_eq1 ?_ (by with_reducible assumption)) | (refine pair_eq2 ?_ (by with_reducible assumption))
            | (refine ans_done_eq ?_ (by with_reducible assumption)) | (refine ans_wait_eq ?_ (by with_reducible assumption))
            | with_reducible apply ans_done | with_reducible apply ans_wait | with_reducible apply ans_held
            | with_reducible apply out_next | with_reducible intro _ | extract_lets | split | dsimp +zetaDelta -iota only)
theorem readTraffic_kept_eq {s : State} {port : Nat} {r : TrafficRun} {read : Nat} {r0 : Nat} {r1 : Nat} {t_ : State} (hs : Kept cs_ s)
    (e_ : readTraffic s port r read = (r0, r1, t_)) : Kept cs_ t_ := by
  have := readTraffic_kept s port r read hs
  rwa [e_] at this

theorem execMemTrafficEnd_kept (port : Nat) (m : TrafficResult) (s : State) (hs : Kept cs_ s) : OutKept cs_ (execMemTrafficEnd port m s)
    := by
  unfold execMemTrafficEnd
  try extract_lets
  repeat'
    (first | with_reducible assumption | (with_reducible show Kept _ _; simp -iota -zeta only [memOk_mk, memsOk_mk])
            | (with_reducible show KeptParts _ _ _ _; simp -iota -zeta only [memsOk_mk]) | with_reducible apply memsOk_of
            | with_reducible apply cellsOk_of | with_reducible apply storeTraffic_kept | with_reducible apply readTraffic_kept
            | with_reducible (refine readTraffic_kept_eq ?_ (by with_reducible assumption))
            | with_reducible (refine hostWrite?_kept_eq ?_ (by with_reducible assumption)) | with_reducible apply finishWait_kept
            | (refine pair_eq1 ?_ (by with_reducible assumption)) | (refine pair_eq2 ?_ (by with_reducible assumption))
            | (refine ans_done_eq ?_ (by with_reducible assumption)) | (refine ans_wait_eq ?_ (by with_reducible assumption))
            | with_reducible apply ans_done | with_reducible apply ans_wait | with_reducible apply ans_held
            | with_reducible apply out_next | with_reducible intro _ | extract_lets | split | dsimp +zetaDelta -iota only)

end Sys2Proof.Machine
end

