-- ==== Sys2Proof/Laws/KeptArith.lean ====
section
/-! SUPPORT. Every definition of Machine/Arith.lean keeps the queue of waiting commands and the canonical form of both memories. -/
namespace Sys2Proof.Machine
open Sys2Proof
set_option maxHeartbeats 1600000
set_option linter.all false
variable {cs_ : List Instr}
theorem accEvict_kept (s : State) (p : Place) (hs : Kept cs_ s) : Kept cs_ (accEvict s p) := by
  unfold accEvict
  try extract_lets
  repeat'
    (first | with_reducible assumption | (with_reducible show Kept _ _; simp -iota -zeta only [memOk_mk, memsOk_mk])
            | (with_reducible show KeptParts _ _ _ _; simp -iota -zeta only [memsOk_mk]) | with_reducible apply memsOk_of
            | with_reducible apply cellsOk_of | with_reducible apply chanWrite_kept | with_reducible apply accDrop_kept
            | (refine pair_eq1 ?_ (by with_reducible assumption)) | (refine pair_eq2 ?_ (by with_reducible assumption))
            | (refine ans_done_eq ?_ (by with_reducible assumption)) | (refine ans_wait_eq ?_ (by with_reducible assumption))
            | with_reducible apply ans_done | with_reducible apply ans_wait | with_reducible apply ans_held
            | with_reducible apply out_next | with_reducible intro _ | extract_lets | split | dsimp +zetaDelta -iota only)

theorem accPut_kept (s : State) (p : Place) (dpa : Nat) (d : List Byte) (hs : Kept cs_ s) : Kept cs_ (accPut s p dpa d) := by
  unfold accPut
  try extract_lets
  repeat'
    (first | with_reducible assumption | (with_reducible show Kept _ _; simp -iota -zeta only [memOk_mk])
           | with_reducible apply memsOk_of | with_reducible apply accEvict_kept | with_reducible intro _ | extract_lets | split
           | dsimp +zetaDelta -iota only)

theorem applyContribution_kept (s0 : State) (rq : Requester) (c : Contribution) (cls : Nat) (hs0 : Kept cs_ s0) : Kept cs_
    (applyContribution s0 rq c cls).2.2 := by
  unfold applyContribution
  try extract_lets
  repeat'
    (first | with_reducible assumption | (with_reducible show Kept _ _; simp -iota -zeta only [memOk_mk, memsOk_mk])
            | (with_reducible show KeptParts _ _ _ _; simp -iota -zeta only [memsOk_mk]) | with_reducible apply memsOk_of
            | with_reducible apply cellsOk_of | with_reducible apply cacheYield_kept | with_reducible apply watch_kept
            | with_reducible apply chanRead_kept | with_reducible (refine chanRead_kept_eq ?_ (by with_reducible assumption))
            | with_reducible apply granuleStore_kept | with_reducible apply bumpO_kept | with_reducible apply accPut_kept
            | with_reducible apply prog_kept | (refine pair_eq1 ?_ (by with_reducible assumption))
            | (refine pair_eq2 ?_ (by with_reducible assumption)) | (refine ans_done_eq ?_ (by with_reducible assumption))
            | (refine ans_wait_eq ?_ (by with_reducible assumption)) | with_reducible apply ans_done | with_reducible apply ans_wait
            | with_reducible apply ans_held | with_reducible apply out_next | with_reducible intro _ | extract_lets | split
            | dsimp +zetaDelta -iota only)
theorem applyContribution_kept_eq {s0 : State} {rq : Requester} {c : Contribution} {cls : Nat} {r0 : Nat} {r1 : List Byte} {t_ : State}
    (hs0 : Kept cs_ s0) (e_ : applyContribution s0 rq c cls = (r0, r1, t_)) : Kept cs_ t_ := by
  have := applyContribution_kept s0 rq c cls hs0
  rwa [e_] at this

theorem setCtx_kept (s : State) (i : Nat) (x : OrderCtx) (hs : Kept cs_ s) : Kept cs_ (setCtx s i x) := by
  unfold setCtx
  try extract_lets
  repeat'
    (first | with_reducible assumption | (with_reducible show Kept _ _; simp -iota -zeta only [memOk_mk])
           | with_reducible apply memsOk_of | with_reducible intro _ | extract_lets | split | dsimp +zetaDelta -iota only)

theorem receive_kept (s : State) (rq : Requester) (c : Contribution) (i : Nat) (hs : Kept cs_ s) : Kept cs_ (receive s rq c i).2 := by
  unfold receive
  try extract_lets
  repeat'
    (first | with_reducible assumption | (with_reducible show Kept _ _; simp -iota -zeta only [memOk_mk, memsOk_mk])
            | (with_reducible show KeptParts _ _ _ _; simp -iota -zeta only [memsOk_mk]) | with_reducible apply memsOk_of
            | with_reducible apply cellsOk_of | with_reducible apply applyContribution_kept
            | with_reducible (refine applyContribution_kept_eq ?_ (by with_reducible assumption)) | with_reducible apply setCtx_kept
            | (refine pair_eq1 ?_ (by with_reducible assumption)) | (refine pair_eq2 ?_ (by with_reducible assumption))
            | (refine ans_done_eq ?_ (by with_reducible assumption)) | (refine ans_wait_eq ?_ (by with_reducible assumption))
            | with_reducible apply ans_done | with_reducible apply ans_wait | with_reducible apply ans_held
            | with_reducible apply out_next | with_reducible intro _ | extract_lets | split | dsimp +zetaDelta -iota only)
theorem receive_kept_eq {s : State} {rq : Requester} {c : Contribution} {i : Nat} {r0 : Nat} {t_ : State} (hs : Kept cs_ s) (e_ : receive
    s rq c i = (r0, t_)) : Kept cs_ t_ := by
  have := receive_kept s rq c i hs
  rwa [e_] at this

theorem drainReorder_kept (x0 : Nat) (x1 : State) (hx1 : Kept cs_ x1) : Kept cs_ (drainReorder x0 x1) := by
  fun_induction drainReorder x0 x1
  all_goals try extract_lets
  all_goals repeat'
    (first | with_reducible assumption | (with_reducible show Kept _ _; simp -iota -zeta only [memOk_mk])
           | with_reducible apply memsOk_of | with_reducible apply receive_kept
           | with_reducible (refine receive_kept_eq ?_ (by with_reducible assumption)) | with_reducible apply_assumption
           | with_reducible intro _ | extract_lets | split | dsimp +zetaDelta -iota only)

theorem closeIfComplete_kept (s : State) (i : Nat) (hs : Kept cs_ s) : Kept cs_ (closeIfComplete s i) := by
  unfold closeIfComplete
  try extract_lets
  repeat'
    (first | with_reducible assumption | (with_reducible show Kept _ _; simp -iota -zeta only [memOk_mk])
           | with_reducible apply memsOk_of | with_reducible apply finishWait_kept | with_reducible intro _ | extract_lets | split
           | dsimp +zetaDelta -iota only)

theorem contributeOrdered_kept (s : State) (rq : Requester) (c : Contribution) (i : Nat) (q : Nat) (hs : Kept cs_ s) : Kept cs_
    (contributeOrdered s rq c i q).2 := by
  unfold contributeOrdered
  try extract_lets
  repeat'
    (first | with_reducible assumption | (with_reducible show Kept _ _; simp -iota -zeta only [memOk_mk, memsOk_mk])
            | (with_reducible show KeptParts _ _ _ _; simp -iota -zeta only [memsOk_mk]) | with_reducible apply memsOk_of
            | with_reducible apply cellsOk_of | with_reducible apply receive_kept
            | with_reducible (refine receive_kept_eq ?_ (by with_reducible assumption)) | with_reducible apply closeIfComplete_kept
            | with_reducible apply drainReorder_kept | with_reducible apply bumpO_kept | with_reducible apply setCtx_kept
            | (refine pair_eq1 ?_ (by with_reducible assumption)) | (refine pair_eq2 ?_ (by with_reducible assumption))
            | (refine ans_done_eq ?_ (by with_reducible assumption)) | (refine ans_wait_eq ?_ (by with_reducible assumption))
            | with_reducible apply ans_done | with_reducible apply ans_wait | with_reducible apply ans_held
            | with_reducible apply out_next | with_reducible intro _ | extract_lets | split | dsimp +zetaDelta -iota only)
theorem contributeOrdered_kept_eq {s : State} {rq : Requester} {c : Contribution} {i : Nat} {q : Nat} {r0 : Nat} {t_ : State} (hs : Kept
    cs_ s) (e_ : contributeOrdered s rq c i q = (r0, t_)) : Kept cs_ t_ := by
  have := contributeOrdered_kept s rq c i q hs
  rwa [e_] at this

theorem contribute_kept (s0 : State) (rq : Requester) (c : Contribution) (cls : Nat) (hs0 : Kept cs_ s0) : Kept cs_ (contribute s0 rq c
    cls).2.2 := by
  unfold contribute
  try extract_lets
  repeat'
    (first | with_reducible assumption | (with_reducible show Kept _ _; simp -iota -zeta only [memOk_mk, memsOk_mk])
            | (with_reducible show KeptParts _ _ _ _; simp -iota -zeta only [memsOk_mk]) | with_reducible apply memsOk_of
            | with_reducible apply cellsOk_of | with_reducible apply cross_kept | with_reducible apply charge_kept
            | with_reducible apply applyContribution_kept
            | with_reducible (refine applyContribution_kept_eq ?_ (by with_reducible assumption))
            | with_reducible apply contributeOrdered_kept
            | with_reducible (refine contributeOrdered_kept_eq ?_ (by with_reducible assumption))
            | (refine pair_eq1 ?_ (by with_reducible assumption)) | (refine pair_eq2 ?_ (by with_reducible assumption))
            | (refine ans_done_eq ?_ (by with_reducible assumption)) | (refine ans_wait_eq ?_ (by with_reducible assumption))
            | with_reducible apply ans_done | with_reducible apply ans_wait | with_reducible apply ans_held
            | with_reducible apply out_next | with_reducible intro _ | extract_lets | split | dsimp +zetaDelta -iota only)
theorem contribute_kept_eq {s0 : State} {rq : Requester} {c : Contribution} {cls : Nat} {r0 : Nat} {r1 : List Byte} {t_ : State} (hs0 :
    Kept cs_ s0) (e_ : contribute s0 rq c cls = (r0, r1, t_)) : Kept cs_ t_ := by
  have := contribute_kept s0 rq c cls hs0
  rwa [e_] at this

theorem tagAside_kept (s : State) (id : Nat) (hs : Kept cs_ s) : Kept cs_ (tagAside s id) := by
  unfold tagAside
  try extract_lets
  repeat'
    (first | with_reducible assumption | (with_reducible show Kept _ _; simp -iota -zeta only [memOk_mk, memsOk_mk])
            | (with_reducible show KeptParts _ _ _ _; simp -iota -zeta only [memsOk_mk]) | with_reducible apply memsOk_of
            | with_reducible apply cellsOk_of | (refine pair_eq1 ?_ (by with_reducible assumption))
            | (refine pair_eq2 ?_ (by with_reducible assumption)) | (refine ans_done_eq ?_ (by with_reducible assumption))
            | (refine ans_wait_eq ?_ (by with_reducible assumption)) | with_reducible apply ans_done | with_reducible apply ans_wait
            | with_reducible apply ans_held | with_reducible apply out_next | with_reducible intro _ | extract_lets | split
            | dsimp +zetaDelta -iota only)

theorem arithApply_kept (s : State) (rq : Requester) (src : Nat) (dst : Nat) (len : Nat) (op : Nat) (order : Option (Nat × Nat)) (cls :
    Nat) (hs : Kept cs_ s) : Kept cs_ (arithApply s rq src dst len op order cls).2.2 := by
  unfold arithApply
  try extract_lets
  repeat'
    (first | with_reducible assumption | (with_reducible show Kept _ _; simp -iota -zeta only [memOk_mk, memsOk_mk])
            | (with_reducible show KeptParts _ _ _ _; simp -iota -zeta only [memsOk_mk]) | with_reducible apply memsOk_of
            | with_reducible apply cellsOk_of | with_reducible apply readGranules_kept
            | with_reducible (refine readGranules_kept_eq ?_ (by with_reducible assumption)) | with_reducible apply foldl_kept
            | with_reducible apply contribute_kept | with_reducible (refine contribute_kept_eq ?_ (by with_reducible assumption))
            | with_reducible apply tagAside_kept | with_reducible apply foldl_kept | with_reducible apply foldl_snd2_kept
            | with_reducible apply foldl_fst_kept | with_reducible apply foldl_snd_kept
            | (refine pair_eq1 ?_ (by with_reducible assumption)) | (refine pair_eq2 ?_ (by with_reducible assumption))
            | (refine ans_done_eq ?_ (by with_reducible assumption)) | (refine ans_wait_eq ?_ (by with_reducible assumption))
            | with_reducible apply ans_done | with_reducible apply ans_wait | with_reducible apply ans_held
            | with_reducible apply out_next | with_reducible intro _ | extract_lets | split | dsimp +zetaDelta -iota only)
theorem arithApply_kept_eq {s : State} {rq : Requester} {src : Nat} {dst : Nat} {len : Nat} {op : Nat} {order : Option (Nat × Nat)} {cls :
    Nat} {r0 : Nat} {r1 : Nat} {t_ : State} (hs : Kept cs_ s) (e_ : arithApply s rq src dst len op order cls = (r0, r1, t_)) : Kept cs_ t_ :=
    by
  have := arithApply_kept s rq src dst len op order cls hs
  rwa [e_] at this

theorem applyWaits_kept (s : State) (queue : Option (Nat × Nat)) (left : Nat) (st : Nat) (hs : Kept cs_ s) : Kept cs_ (applyWaits s queue
    left st) := by
  unfold applyWaits
  try extract_lets
  repeat'
    (first | with_reducible assumption | (with_reducible show Kept _ _; simp -iota -zeta only [memOk_mk, memsOk_mk])
            | (with_reducible show KeptParts _ _ _ _; simp -iota -zeta only [memsOk_mk]) | with_reducible apply memsOk_of
            | with_reducible apply cellsOk_of | (refine pair_eq1 ?_ (by with_reducible assumption))
            | (refine pair_eq2 ?_ (by with_reducible assumption)) | (refine ans_done_eq ?_ (by with_reducible assumption))
            | (refine ans_wait_eq ?_ (by with_reducible assumption)) | with_reducible apply ans_done | with_reducible apply ans_wait
            | with_reducible apply ans_held | with_reducible apply out_next | with_reducible intro _ | extract_lets | split
            | dsimp +zetaDelta -iota only)

theorem applyResent_kept (s : State) (id : Nat) (st : Nat) (hs : Kept cs_ s) : Kept cs_ (applyResent s id st) := by
  unfold applyResent
  try extract_lets
  repeat'
    (first | with_reducible assumption | (with_reducible show Kept _ _; simp -iota -zeta only [memOk_mk, memsOk_mk])
            | (with_reducible show KeptParts _ _ _ _; simp -iota -zeta only [memsOk_mk]) | with_reducible apply memsOk_of
            | with_reducible apply cellsOk_of | with_reducible apply queueStatus_kept | with_reducible apply finishWait_kept
            | (refine pair_eq1 ?_ (by with_reducible assumption)) | (refine pair_eq2 ?_ (by with_reducible assumption))
            | (refine ans_done_eq ?_ (by with_reducible assumption)) | (refine ans_wait_eq ?_ (by with_reducible assumption))
            | with_reducible apply ans_done | with_reducible apply ans_wait | with_reducible apply ans_held
            | with_reducible apply out_next | with_reducible intro _ | extract_lets | split | dsimp +zetaDelta -iota only)

theorem execArithApply_kept (c : Cmd) (s : State) (hs : Kept cs_ s) : OutKept cs_ (execArithApply c s) := by -- hand
  unfold execArithApply
  refine out_next (firmware_kept _ _ _ _ (fun c s hs => checked_kept _ _ _ hs (unheld_kept _ _ ?_)) hs)
  generalize hx : arithApply s (cmdRq c) (p64 c 0) (p64 c 8) (p32 c 16) (p8 c 20)
    (if bit (p8 c 21) 0 then some (p8 c 22, p32 c 24) else none) (p8 c 28) = x
  obtain ⟨st, n, s1⟩ := x
  have hk : Kept cs_ s1 := arithApply_kept_eq hs hx
  dsimp only
  split
  · exact ans_done hk
  · exact ans_wait (applyWaits_kept _ _ _ _ hk)

theorem openCtx_kept (s : State) (rq : Requester) (dpa : Nat) (len : Nat) (op : Nat) (e : Nat) (zero : Bool) (coll : Nat) (hs
    : Kept cs_ s) : Kept cs_ (openCtx s rq dpa len op e zero coll).2 := by
  unfold openCtx
  try extract_lets
  repeat'
    (first | with_reducible assumption | (with_reducible show Kept _ _; simp -iota -zeta only [memOk_mk, memsOk_mk])
           | (with_reducible show KeptParts _ _ _ _; simp -iota -zeta only [memsOk_mk]) | with_reducible apply memsOk_of
           | with_reducible apply cellsOk_of | with_reducible apply writeBytes_kept
           | with_reducible (refine writeBytes_kept_eq ?_ (by with_reducible assumption)) | with_reducible apply setCtx_kept
           | with_reducible apply foldl_kept | with_reducible apply foldl_snd2_kept | with_reducible apply foldl_fst_kept
           | with_reducible apply foldl_snd_kept | with_reducible apply getD_kept | (refine pair_eq1 ?_ (by with_reducible assumption))
           | (refine pair_eq2 ?_ (by with_reducible assumption)) | (refine ans_done_eq ?_ (by with_reducible assumption))
           | (refine ans_wait_eq ?_ (by with_reducible assumption)) | with_reducible apply ans_done | with_reducible apply ans_wait
           | with_reducible apply out_next | with_reducible intro _ | extract_lets | split | dsimp +zetaDelta -iota only)
theorem openCtx_kept_eq {s : State} {rq : Requester} {dpa : Nat} {len : Nat} {op : Nat} {e : Nat} {zero : Bool} {coll : Nat} {r0 :
    (Nat × Nat)} {t_ : State} (hs : Kept cs_ s) (e_ : openCtx s rq dpa len op e zero coll = (r0, t_)) : Kept cs_ t_ := by
  have := openCtx_kept s rq dpa len op e zero coll hs
  rwa [e_] at this

theorem execArithOrderOpen_kept (c : Cmd) (s : State) (hs : Kept cs_ s) : OutKept cs_ (execArithOrderOpen c s) := by
  unfold execArithOrderOpen
  try extract_lets
  repeat'
    (first | with_reducible assumption | (with_reducible show Kept _ _; simp -iota -zeta only [memOk_mk])
           | with_reducible apply memsOk_of | with_reducible apply firmware_kept | with_reducible apply checked_kept
           | with_reducible apply openCtx_kept | with_reducible (refine openCtx_kept_eq ?_ (by with_reducible assumption))
           | with_reducible apply ans_done | with_reducible apply ans_wait | with_reducible apply out_next | with_reducible intro _
           | extract_lets | split | dsimp +zetaDelta -iota only)

theorem tripCtx_kept (s : State) (t : Tier) (u : Nat) (i : Nat) (x : OrderCtx) (hs : Kept cs_ s) : Kept cs_ (tripCtx s t u i x) := by
  unfold tripCtx
  try extract_lets
  repeat'
    (first | with_reducible assumption | (with_reducible show Kept _ _; simp -iota -zeta only [memOk_mk, memsOk_mk])
            | (with_reducible show KeptParts _ _ _ _; simp -iota -zeta only [memsOk_mk]) | with_reducible apply memsOk_of
            | with_reducible apply cellsOk_of | with_reducible apply setCtx_kept | with_reducible apply foldl_kept
            | with_reducible apply foldl_snd2_kept | with_reducible apply foldl_fst_kept | with_reducible apply foldl_snd_kept
            | (refine pair_eq1 ?_ (by with_reducible assumption)) | (refine pair_eq2 ?_ (by with_reducible assumption))
            | (refine ans_done_eq ?_ (by with_reducible assumption)) | (refine ans_wait_eq ?_ (by with_reducible assumption))
            | with_reducible apply ans_done | with_reducible apply ans_wait | with_reducible apply ans_held
            | with_reducible apply out_next | with_reducible intro _ | extract_lets | split | dsimp +zetaDelta -iota only)

theorem tripOrdered_kept (s : State) (t : Tier) (u : Nat) (hs : Kept cs_ s) : Kept cs_ (tripOrdered s t u).2 := by
  unfold tripOrdered
  try extract_lets
  repeat'
    (first | with_reducible assumption | (with_reducible show Kept _ _; simp -iota -zeta only [memOk_mk, memsOk_mk])
            | (with_reducible show KeptParts _ _ _ _; simp -iota -zeta only [memsOk_mk]) | with_reducible apply memsOk_of
            | with_reducible apply cellsOk_of | with_reducible apply tripCtx_kept | with_reducible apply foldl_kept
            | with_reducible apply closeIfComplete_kept | with_reducible apply foldl_kept | with_reducible apply foldl_snd2_kept
            | with_reducible apply foldl_fst_kept | with_reducible apply foldl_snd_kept
            | (refine pair_eq1 ?_ (by with_reducible assumption)) | (refine pair_eq2 ?_ (by with_reducible assumption))
            | (refine ans_done_eq ?_ (by with_reducible assumption)) | (refine ans_wait_eq ?_ (by with_reducible assumption))
            | with_reducible apply ans_done | with_reducible apply ans_wait | with_reducible apply ans_held
            | with_reducible apply out_next | with_reducible intro _ | extract_lets | split | dsimp +zetaDelta -iota only)
theorem tripOrdered_kept_eq {s : State} {t : Tier} {u : Nat} {r0 : Nat} {t_ : State} (hs : Kept cs_ s) (e_ : tripOrdered s t u = (r0, t_))
    : Kept cs_ t_ := by
  have := tripOrdered_kept s t u hs
  rwa [e_] at this

theorem dropCtx_kept (s : State) (i : Nat) (hs : Kept cs_ s) : Kept cs_ (dropCtx s i) := by
  unfold dropCtx
  try extract_lets
  repeat'
    (first | with_reducible assumption | (with_reducible show Kept _ _; simp -iota -zeta only [memOk_mk, memsOk_mk])
            | (with_reducible show KeptParts _ _ _ _; simp -iota -zeta only [memsOk_mk]) | with_reducible apply memsOk_of
            | with_reducible apply cellsOk_of | (refine pair_eq1 ?_ (by with_reducible assumption))
            | (refine pair_eq2 ?_ (by with_reducible assumption)) | (refine ans_done_eq ?_ (by with_reducible assumption))
            | (refine ans_wait_eq ?_ (by with_reducible assumption)) | with_reducible apply ans_done | with_reducible apply ans_wait
            | with_reducible apply ans_held | with_reducible apply out_next | with_reducible intro _ | extract_lets | split
            | dsimp +zetaDelta -iota only)

theorem execArithOrderClose_kept (c : Cmd) (s : State) (hs : Kept cs_ s) : OutKept cs_ (execArithOrderClose c s) := by
  unfold execArithOrderClose
  try extract_lets
  repeat'
    (first | with_reducible assumption | (with_reducible show Kept _ _; simp -iota -zeta only [memOk_mk])
           | with_reducible apply memsOk_of | with_reducible apply firmware_kept | with_reducible apply dropCtx_kept
           | with_reducible apply finishWait_kept | with_reducible apply ans_done | with_reducible apply ans_wait
           | with_reducible apply out_next | with_reducible intro _ | extract_lets | split | dsimp +zetaDelta -iota only)

theorem fillSlots_kept (x0 : Nat) (x1 : State) (hx1 : Kept cs_ x1) : Kept cs_ (fillSlots x0 x1) := by
  induction x0 generalizing x1 with
  | zero => (first | with_reducible assumption | (unfold fillSlots; with_reducible assumption))
  | succ k ih =>
    unfold fillSlots
    try extract_lets
    repeat'
      (first | with_reducible assumption | (with_reducible show Kept _ _; simp -iota -zeta only [memOk_mk, memsOk_mk])
              | (with_reducible show KeptParts _ _ _ _; simp -iota -zeta only [memsOk_mk]) | with_reducible apply memsOk_of
              | with_reducible apply cellsOk_of | (refine pair_eq1 ?_ (by with_reducible assumption))
              | (refine pair_eq2 ?_ (by with_reducible assumption)) | (refine ans_done_eq ?_ (by with_reducible assumption))
              | (refine ans_wait_eq ?_ (by with_reducible assumption)) | with_reducible apply ans_done | with_reducible apply ans_wait
              | with_reducible apply ans_held | with_reducible apply out_next | with_reducible apply ih | with_reducible intro _
              | extract_lets | split | dsimp +zetaDelta -iota only)

theorem startGather_kept (s : State) (part : Nat) (queue : Option (Nat × Nat)) (cls : Nat) (ds : List (List Byte)) (hs : Kept cs_ s) :
    Kept cs_ (startGather s part queue cls ds).2 := by
  unfold startGather
  try extract_lets
  repeat'
    (first | with_reducible assumption | (with_reducible show Kept _ _; simp -iota -zeta only [memOk_mk, memsOk_mk])
            | (with_reducible show KeptParts _ _ _ _; simp -iota -zeta only [memsOk_mk]) | with_reducible apply memsOk_of
            | with_reducible apply cellsOk_of | with_reducible apply grant_kept | with_reducible apply fillSlots_kept
            | with_reducible apply foldl_kept | with_reducible apply foldl_snd2_kept | with_reducible apply foldl_fst_kept
            | with_reducible apply foldl_snd_kept | (refine pair_eq1 ?_ (by with_reducible assumption))
            | (refine pair_eq2 ?_ (by with_reducible assumption)) | (refine ans_done_eq ?_ (by with_reducible assumption))
            | (refine ans_wait_eq ?_ (by with_reducible assumption)) | with_reducible apply ans_done | with_reducible apply ans_wait
            | with_reducible apply ans_held | with_reducible apply out_next | with_reducible intro _ | extract_lets | split
            | dsimp +zetaDelta -iota only)
theorem startGather_kept_eq {s : State} {part : Nat} {queue : Option (Nat × Nat)} {cls : Nat} {ds : List (List Byte)} {r0 : Nat} {t_ :
    State} (hs : Kept cs_ s) (e_ : startGather s part queue cls ds = (r0, t_)) : Kept cs_ t_ := by
  have := startGather_kept s part queue cls ds hs
  rwa [e_] at this

theorem gatherEnd_kept (s : State) (id : Nat) (hs : Kept cs_ s) : Kept cs_ (gatherEnd s id) := by
  unfold gatherEnd
  try extract_lets
  repeat'
    (first | with_reducible assumption | (with_reducible show Kept _ _; simp -iota -zeta only [memOk_mk])
           | with_reducible apply memsOk_of | with_reducible apply queueStatus_kept | with_reducible apply finishWait_kept
           | with_reducible intro _ | extract_lets | split | dsimp +zetaDelta -iota only)

theorem execResGather_kept (c : Cmd) (s : State) (hs : Kept cs_ s) : OutKept cs_ (execResGather c s) := by
  unfold execResGather
  try extract_lets
  repeat'
    (first | with_reducible assumption | (with_reducible show Kept _ _; simp -iota -zeta only [memOk_mk, memsOk_mk])
            | (with_reducible show KeptParts _ _ _ _; simp -iota -zeta only [memsOk_mk]) | with_reducible apply memsOk_of
            | with_reducible apply cellsOk_of | with_reducible apply firmware_kept | with_reducible apply startGather_kept
            | with_reducible (refine startGather_kept_eq ?_ (by with_reducible assumption)) | with_reducible apply getD_kept
            | with_reducible apply getD_kept | (refine pair_eq1 ?_ (by with_reducible assumption))
            | (refine pair_eq2 ?_ (by with_reducible assumption)) | (refine ans_done_eq ?_ (by with_reducible assumption))
            | (refine ans_wait_eq ?_ (by with_reducible assumption)) | with_reducible apply ans_done | with_reducible apply ans_wait
            | with_reducible apply ans_held | with_reducible apply out_next | with_reducible intro _ | extract_lets | split
            | dsimp +zetaDelta -iota only)

theorem execReservoirDoorbell_kept (port : Nat) (channel : Nat) (slot : Nat) (s : State) (hs : Kept cs_ s) : OutKept cs_
    (execReservoirDoorbell port channel slot s) := by
  unfold execReservoirDoorbell
  try extract_lets
  repeat'
    (first | with_reducible assumption | (with_reducible show Kept _ _; simp -iota -zeta only [memOk_mk, memsOk_mk])
            | (with_reducible show KeptParts _ _ _ _; simp -iota -zeta only [memsOk_mk]) | with_reducible apply memsOk_of
            | with_reducible apply cellsOk_of | (refine pair_eq1 ?_ (by with_reducible assumption))
            | (refine pair_eq2 ?_ (by with_reducible assumption)) | (refine ans_done_eq ?_ (by with_reducible assumption))
            | (refine ans_wait_eq ?_ (by with_reducible assumption)) | with_reducible apply ans_done | with_reducible apply ans_wait
            | with_reducible apply ans_held | with_reducible apply out_next | with_reducible intro _ | extract_lets | split
            | dsimp +zetaDelta -iota only)

theorem slotRun_kept (s : State) (port : Nat) (x : Slot) (hs : Kept cs_ s) : Kept cs_ (slotRun s port x).2 := by
  unfold slotRun
  try extract_lets
  repeat'
    (first | with_reducible assumption | (with_reducible show Kept _ _; simp -iota -zeta only [memOk_mk, memsOk_mk])
            | (with_reducible show KeptParts _ _ _ _; simp -iota -zeta only [memsOk_mk]) | with_reducible apply memsOk_of
            | with_reducible apply cellsOk_of | with_reducible apply freeBytes_kept
            | with_reducible (refine freeBytes_kept_eq ?_ (by with_reducible assumption))
            | (refine pair_eq1 ?_ (by with_reducible assumption)) | (refine pair_eq2 ?_ (by with_reducible assumption))
            | (refine ans_done_eq ?_ (by with_reducible assumption)) | (refine ans_wait_eq ?_ (by with_reducible assumption))
            | with_reducible apply ans_done | with_reducible apply ans_wait | with_reducible apply ans_held
            | with_reducible apply out_next | with_reducible intro _ | extract_lets | split | dsimp +zetaDelta -iota only)
theorem slotRun_kept_eq {s : State} {port : Nat} {x : Slot} {r0 : Slot} {t_ : State} (hs : Kept cs_ s) (e_ : slotRun s port x = (r0, t_))
    : Kept cs_ t_ := by
  have := slotRun_kept s port x hs
  rwa [e_] at this

theorem gatherWrite_kept (s : State) (port : Nat) (g : Gather) (x : Slot) (hs : Kept cs_ s) : Kept cs_ (gatherWrite s port g x).2 := by
  unfold gatherWrite
  try extract_lets
  repeat'
    (first | with_reducible assumption | (with_reducible show Kept _ _; simp -iota -zeta only [memOk_mk, memsOk_mk])
            | (with_reducible show KeptParts _ _ _ _; simp -iota -zeta only [memsOk_mk]) | with_reducible apply memsOk_of
            | with_reducible apply cellsOk_of | with_reducible apply writeBytes_kept
            | with_reducible (refine writeBytes_kept_eq ?_ (by with_reducible assumption)) | with_reducible apply crossRange_kept
            | (refine pair_eq1 ?_ (by with_reducible assumption)) | (refine pair_eq2 ?_ (by with_reducible assumption))
            | (refine ans_done_eq ?_ (by with_reducible assumption)) | (refine ans_wait_eq ?_ (by with_reducible assumption))
            | with_reducible apply ans_done | with_reducible apply ans_wait | with_reducible apply ans_held
            | with_reducible apply out_next | with_reducible intro _ | extract_lets | split | dsimp +zetaDelta -iota only)
theorem gatherWrite_kept_eq {s : State} {port : Nat} {g : Gather} {x : Slot} {r0 : Nat} {t_ : State} (hs : Kept cs_ s) (e_ : gatherWrite s
    port g x = (r0, t_)) : Kept cs_ t_ := by
  have := gatherWrite_kept s port g x hs
  rwa [e_] at this

theorem slotCollect_kept (s : State) (port : Nat) (k : Nat) (x : Slot) (g : Gather) (hs : Kept cs_ s) : Kept cs_ (slotCollect s port k x
    g) := by
  unfold slotCollect
  try extract_lets
  repeat'
    (first | with_reducible assumption | (with_reducible show Kept _ _; simp -iota -zeta only [memOk_mk, memsOk_mk])
            | (with_reducible show KeptParts _ _ _ _; simp -iota -zeta only [memsOk_mk]) | with_reducible apply memsOk_of
            | with_reducible apply cellsOk_of | with_reducible apply chargeReg_kept | with_reducible apply gatherWrite_kept
            | with_reducible (refine gatherWrite_kept_eq ?_ (by with_reducible assumption)) | with_reducible apply fillSlots_kept
            | with_reducible apply bumpO_kept | with_reducible apply gatherEnd_kept | with_reducible apply implicitRelease_kept
            | (refine pair_eq1 ?_ (by with_reducible assumption)) | (refine pair_eq2 ?_ (by with_reducible assumption))
            | (refine ans_done_eq ?_ (by with_reducible assumption)) | (refine ans_wait_eq ?_ (by with_reducible assumption))
            | with_reducible apply ans_done | with_reducible apply ans_wait | with_reducible apply ans_held
            | with_reducible apply out_next | with_reducible intro _ | extract_lets | split | dsimp +zetaDelta -iota only)

theorem execReservoirSlotDone_kept (port : Nat) (channel : Nat) (slot : Nat) (s : State) (hs : Kept cs_ s) : OutKept cs_
    (execReservoirSlotDone port channel slot s) := by
  unfold execReservoirSlotDone
  try extract_lets
  repeat'
    (first | with_reducible assumption | (with_reducible show Kept _ _; simp -iota -zeta only [memOk_mk, memsOk_mk])
            | (with_reducible show KeptParts _ _ _ _; simp -iota -zeta only [memsOk_mk]) | with_reducible apply memsOk_of
            | with_reducible apply cellsOk_of | with_reducible apply slotRun_kept
            | with_reducible (refine slotRun_kept_eq ?_ (by with_reducible assumption)) | with_reducible apply slotCollect_kept
            | with_reducible (refine slotCollect_kept_eq ?_ (by with_reducible assumption))
            | (refine pair_eq1 ?_ (by with_reducible assumption)) | (refine pair_eq2 ?_ (by with_reducible assumption))
            | (refine ans_done_eq ?_ (by with_reducible assumption)) | (refine ans_wait_eq ?_ (by with_reducible assumption))
            | with_reducible apply ans_done | with_reducible apply ans_wait | with_reducible apply ans_held
            | with_reducible apply out_next | with_reducible intro _ | extract_lets | split | dsimp +zetaDelta -iota only)

theorem execResStatus_kept (c : Cmd) (s : State) (hs : Kept cs_ s) : OutKept cs_ (execResStatus c s) := by
  unfold execResStatus
  try extract_lets
  repeat'
    (first | with_reducible assumption | (with_reducible show Kept _ _; simp -iota -zeta only [memOk_mk])
           | with_reducible apply memsOk_of | with_reducible apply firmware_kept | with_reducible apply checked_kept
           | with_reducible apply reportTo_kept | with_reducible apply ans_done | with_reducible apply ans_wait
           | with_reducible apply out_next | with_reducible intro _ | extract_lets | split | dsimp +zetaDelta -iota only)

end Sys2Proof.Machine
end

