-- ==== Sys2Proof/Laws/KeptFold.lean ====
section
/-! SUPPORT. Every definition of Machine/Fold.lean keeps the queue of waiting commands and the canonical form of both memories. -/
namespace Sys2Proof.Machine
open Sys2Proof
set_option maxHeartbeats 400000
set_option linter.all false
variable {cs_ : List Instr}
theorem execFoldBasisLoad_kept (c : Cmd) (s : State) (hs : Kept cs_ s) : OutKept cs_ (execFoldBasisLoad c s) := by
  unfold execFoldBasisLoad
  try extract_lets
  repeat'
    (first | with_reducible assumption | (with_reducible show Kept _ _; simp -iota -zeta only [memOk_mk])
           | with_reducible apply memsOk_of | with_reducible apply firmware_kept | with_reducible apply readBytes_kept
           | with_reducible (refine readBytes_kept_eq ?_ (by with_reducible assumption)) | with_reducible apply checked_kept
           | with_reducible apply ans_done | with_reducible apply ans_wait | with_reducible apply out_next | with_reducible intro _
           | extract_lets | split | dsimp +zetaDelta -iota only)

theorem execFoldBasisUnload_kept (c : Cmd) (s : State) (hs : Kept cs_ s) : OutKept cs_ (execFoldBasisUnload c s) := by
  unfold execFoldBasisUnload
  try extract_lets
  repeat'
    (first | with_reducible assumption | (with_reducible show Kept _ _; simp -iota -zeta only [memOk_mk])
           | with_reducible apply memsOk_of | with_reducible apply firmware_kept | with_reducible apply ans_done
           | with_reducible apply ans_wait | with_reducible apply out_next | with_reducible intro _ | extract_lets | split
           | dsimp +zetaDelta -iota only)

theorem execFoldBasisQuery_kept (c : Cmd) (s : State) (hs : Kept cs_ s) : OutKept cs_ (execFoldBasisQuery c s) := by
  unfold execFoldBasisQuery
  try extract_lets
  repeat'
    (first | with_reducible assumption | (with_reducible show Kept _ _; simp -iota -zeta only [memOk_mk])
           | with_reducible apply memsOk_of | with_reducible apply firmware_kept | with_reducible apply ans_done
           | with_reducible apply ans_wait | with_reducible apply out_next | with_reducible intro _ | extract_lets | split
           | dsimp +zetaDelta -iota only)

theorem execFoldLayoutLoad_kept (c : Cmd) (s : State) (hs : Kept cs_ s) : OutKept cs_ (execFoldLayoutLoad c s) := by
  unfold execFoldLayoutLoad
  try extract_lets
  repeat'
    (first | with_reducible assumption | (with_reducible show Kept _ _; simp -iota -zeta only [memOk_mk, memsOk_mk])
           | (with_reducible show KeptParts _ _ _ _; simp -iota -zeta only [memsOk_mk]) | with_reducible apply memsOk_of
           | with_reducible apply cellsOk_of | with_reducible apply firmware_kept | with_reducible apply checked_kept
           | with_reducible (refine claimAll_kept_eq _ _ _ ?_ (by with_reducible assumption)) | with_reducible apply flushRegion_kept
           | with_reducible apply setEntry_kept | with_reducible apply spoil_kept | with_reducible apply foldl_kept
           | with_reducible apply foldl_snd2_kept | with_reducible apply foldl_fst_kept | with_reducible apply foldl_snd_kept
           | with_reducible apply getD_kept | (refine pair_eq1 ?_ (by with_reducible assumption))
           | (refine pair_eq2 ?_ (by with_reducible assumption)) | (refine ans_done_eq ?_ (by with_reducible assumption))
           | (refine ans_wait_eq ?_ (by with_reducible assumption)) | with_reducible apply ans_done | with_reducible apply ans_wait
           | with_reducible apply out_next | with_reducible intro _ | extract_lets | split | dsimp +zetaDelta -iota only)

theorem execFoldLayoutUnload_kept (c : Cmd) (s : State) (hs : Kept cs_ s) : OutKept cs_ (execFoldLayoutUnload c s) := by
  unfold execFoldLayoutUnload
  try extract_lets
  repeat'
    (first | with_reducible assumption | (with_reducible show Kept _ _; simp -iota -zeta only [memOk_mk, memsOk_mk])
           | (with_reducible show KeptParts _ _ _ _; simp -iota -zeta only [memsOk_mk]) | with_reducible apply memsOk_of
           | with_reducible apply cellsOk_of | with_reducible apply firmware_kept | with_reducible apply checked_kept
           | with_reducible apply flushRegion_kept | with_reducible apply implicitRelease_kept | with_reducible apply setEntry_kept
           | with_reducible apply spoil_kept | with_reducible apply foldl_kept | with_reducible apply foldl_snd2_kept
           | with_reducible apply foldl_fst_kept | with_reducible apply foldl_snd_kept | with_reducible apply getD_kept
           | (refine pair_eq1 ?_ (by with_reducible assumption)) | (refine pair_eq2 ?_ (by with_reducible assumption))
           | (refine ans_done_eq ?_ (by with_reducible assumption)) | (refine ans_wait_eq ?_ (by with_reducible assumption))
           | with_reducible apply ans_done | with_reducible apply ans_wait | with_reducible apply out_next | with_reducible intro _
           | extract_lets | split | dsimp +zetaDelta -iota only)

theorem setExp_kept (s : State) (x : Nat) (e : Expander) (hs : Kept cs_ s) : Kept cs_ (setExp s x e) := by
  unfold setExp
  try extract_lets
  repeat'
    (first | with_reducible assumption | (with_reducible show Kept _ _; simp -iota -zeta only [memOk_mk])
           | with_reducible apply memsOk_of | with_reducible intro _ | extract_lets | split | dsimp +zetaDelta -iota only)

theorem expandGranule_kept (s : State) (rq : Requester) (x : Nat) (dpa : Nat) (cls : Nat) (hs : Kept cs_ s) : Kept cs_ (expandGranule s rq
    x dpa cls).2.2 := by
  unfold expandGranule
  try extract_lets
  repeat'
    (first | with_reducible assumption | (with_reducible show Kept _ _; simp -iota -zeta only [memOk_mk, memsOk_mk])
            | (with_reducible show KeptParts _ _ _ _; simp -iota -zeta only [memsOk_mk]) | with_reducible apply memsOk_of
            | with_reducible apply cellsOk_of | with_reducible apply cacheYield_kept | with_reducible apply chanRead_kept
            | with_reducible (refine chanRead_kept_eq ?_ (by with_reducible assumption)) | with_reducible apply crossing_kept
            | (refine pair_eq1 ?_ (by with_reducible assumption)) | (refine pair_eq2 ?_ (by with_reducible assumption))
            | (refine ans_done_eq ?_ (by with_reducible assumption)) | (refine ans_wait_eq ?_ (by with_reducible assumption))
            | with_reducible apply ans_done | with_reducible apply ans_wait | with_reducible apply ans_held
            | with_reducible apply out_next | with_reducible intro _ | extract_lets | split | dsimp +zetaDelta -iota only)
theorem expandGranule_kept_eq {s : State} {rq : Requester} {x : Nat} {dpa : Nat} {cls : Nat} {r0 : List Byte} {r1 : Bool} {t_ : State} (hs
    : Kept cs_ s) (e_ : expandGranule s rq x dpa cls = (r0, r1, t_)) : Kept cs_ t_ := by
  have := expandGranule_kept s rq x dpa cls hs
  rwa [e_] at this

theorem readSlot_kept (s : State) (rq : Requester) (x : Nat) (dpa : Nat) (n : Nat) (cls : Nat) (hs : Kept cs_ s) : Kept cs_ (readSlot s rq
    x dpa n cls).2.2 := by
  unfold readSlot
  try extract_lets
  repeat'
    (first | with_reducible assumption | (with_reducible show Kept _ _; simp -iota -zeta only [memOk_mk, memsOk_mk])
            | (with_reducible show KeptParts _ _ _ _; simp -iota -zeta only [memsOk_mk]) | with_reducible apply memsOk_of
            | with_reducible apply cellsOk_of | with_reducible apply foldl_kept | with_reducible apply expandGranule_kept
            | with_reducible (refine expandGranule_kept_eq ?_ (by with_reducible assumption)) | with_reducible apply foldl_kept
            | with_reducible apply foldl_snd2_kept | with_reducible apply foldl_fst_kept | with_reducible apply foldl_snd_kept
            | (refine pair_eq1 ?_ (by with_reducible assumption)) | (refine pair_eq2 ?_ (by with_reducible assumption))
            | (refine ans_done_eq ?_ (by with_reducible assumption)) | (refine ans_wait_eq ?_ (by with_reducible assumption))
            | with_reducible apply ans_done | with_reducible apply ans_wait | with_reducible apply ans_held
            | with_reducible apply out_next | with_reducible intro _ | extract_lets | split | dsimp +zetaDelta -iota only)
theorem readSlot_kept_eq {s : State} {rq : Requester} {x : Nat} {dpa : Nat} {n : Nat} {cls : Nat} {r0 : List Byte} {r1 : List Bool} {t_ :
    State} (hs : Kept cs_ s) (e_ : readSlot s rq x dpa n cls = (r0, r1, t_)) : Kept cs_ t_ := by
  have := readSlot_kept s rq x dpa n cls hs
  rwa [e_] at this

theorem foldFault_kept (s : State) (x : Nat) (reason : Nat) (crc : Nat) (rq : Requester) (dpa : Nat) (b : List Byte) (hs : Kept cs_ s)
    : Kept cs_ (foldFault s x reason crc rq dpa b) := by
  unfold foldFault
  try extract_lets
  repeat'
    (first | with_reducible assumption | (with_reducible show Kept _ _; simp -iota -zeta only [memOk_mk])
           | with_reducible apply memsOk_of | with_reducible apply bumpO_kept | with_reducible apply setExp_kept
           | with_reducible apply post_kept | with_reducible apply getD_kept | with_reducible intro _ | extract_lets | split
           | dsimp +zetaDelta -iota only)

theorem noteFail_kept (s : State) (x : Nat) (f : Nat × Nat × Nat) (rq : Requester) (dpa : Nat) (b : List Byte) (hs : Kept cs_ s)
    : Kept cs_ (noteFail s x f rq dpa b) := by
  unfold noteFail
  try extract_lets
  repeat'
    (first | with_reducible assumption | (with_reducible show Kept _ _; simp -iota -zeta only [memOk_mk])
           | with_reducible apply memsOk_of | with_reducible apply setExp_kept | with_reducible apply foldFault_kept
           | with_reducible intro _ | extract_lets | split | dsimp +zetaDelta -iota only)

theorem deliver_kept (s : State) (r : ExpandReq) (x : Nat) (index : Nat) (tile : List Byte) (poison : Bool) (hs : Kept cs_ s) : Kept cs_
    (deliver s r x index tile poison).2 := by
  unfold deliver
  try extract_lets
  repeat'
    (first | with_reducible assumption | (with_reducible show Kept _ _; simp -iota -zeta only [memOk_mk, memsOk_mk])
            | (with_reducible show KeptParts _ _ _ _; simp -iota -zeta only [memsOk_mk]) | with_reducible apply memsOk_of
            | with_reducible apply cellsOk_of | with_reducible apply bumpO_kept | with_reducible apply writeBytes_kept
            | with_reducible (refine writeBytes_kept_eq ?_ (by with_reducible assumption)) | with_reducible apply crossRange_kept
            | with_reducible apply setCore_kept | with_reducible apply crossing_kept | (refine pair_eq1 ?_ (by with_reducible assumption))
            | (refine pair_eq2 ?_ (by with_reducible assumption)) | (refine ans_done_eq ?_ (by with_reducible assumption))
            | (refine ans_wait_eq ?_ (by with_reducible assumption)) | with_reducible apply ans_done | with_reducible apply ans_wait
            | with_reducible apply ans_held | with_reducible apply out_next | with_reducible intro _ | extract_lets | split
            | dsimp +zetaDelta -iota only)
theorem deliver_kept_eq {s : State} {r : ExpandReq} {x : Nat} {index : Nat} {tile : List Byte} {poison : Bool} {r0 : Nat} {t_ : State} (hs
    : Kept cs_ s) (e_ : deliver s r x index tile poison = (r0, t_)) : Kept cs_ t_ := by
  have := deliver_kept s r x index tile poison hs
  rwa [e_] at this

theorem requestEnd_kept (s : State) (id : Nat) (r : ExpandReq) (hs : Kept cs_ s) : Kept cs_ (requestEnd s id r) := by
  unfold requestEnd
  try extract_lets
  repeat'
    (first | with_reducible assumption | (with_reducible show Kept _ _; simp -iota -zeta only [memOk_mk])
           | with_reducible apply memsOk_of | with_reducible apply queueStatus_kept | with_reducible apply finishWait_kept
           | with_reducible intro _ | extract_lets | split | dsimp +zetaDelta -iota only)

theorem blockDone_kept (s : State) (x : Nat) (b : Block) (status : Nat) (tile : List Byte) (hs : Kept cs_ s) : Kept cs_ (blockDone s x b
    status tile) := by
  unfold blockDone
  try extract_lets
  repeat'
    (first | with_reducible assumption | (with_reducible show Kept _ _; simp -iota -zeta only [memOk_mk, memsOk_mk])
            | (with_reducible show KeptParts _ _ _ _; simp -iota -zeta only [memsOk_mk]) | with_reducible apply memsOk_of
            | with_reducible apply cellsOk_of | with_reducible apply deliver_kept
            | with_reducible (refine deliver_kept_eq ?_ (by with_reducible assumption)) | with_reducible apply requestEnd_kept
            | (refine pair_eq1 ?_ (by with_reducible assumption)) | (refine pair_eq2 ?_ (by with_reducible assumption))
            | (refine ans_done_eq ?_ (by with_reducible assumption)) | (refine ans_wait_eq ?_ (by with_reducible assumption))
            | with_reducible apply ans_done | with_reducible apply ans_wait | with_reducible apply ans_held
            | with_reducible apply out_next | with_reducible intro _ | extract_lets | split | dsimp +zetaDelta -iota only)

theorem countBlock_kept (s : State) (x : Nat) (part : Option Nat) (b : List Byte) (hs : Kept cs_ s) : Kept cs_ (countBlock s x part b) := by
  unfold countBlock
  try extract_lets
  repeat'
    (first | with_reducible assumption | (with_reducible show Kept _ _; simp -iota -zeta only [memOk_mk])
           | with_reducible apply memsOk_of | with_reducible apply prog_kept | with_reducible apply setExp_kept | with_reducible intro _
           | extract_lets | split | dsimp +zetaDelta -iota only)

theorem countMiss_kept (s : State) (x : Nat) (part : Option Nat) (hs : Kept cs_ s) : Kept cs_ (countMiss s x part) := by
  unfold countMiss
  try extract_lets
  repeat'
    (first | with_reducible assumption | (with_reducible show Kept _ _; simp -iota -zeta only [memOk_mk, memsOk_mk])
            | (with_reducible show KeptParts _ _ _ _; simp -iota -zeta only [memsOk_mk]) | with_reducible apply memsOk_of
            | with_reducible apply cellsOk_of | with_reducible apply prog_kept | with_reducible apply setExp_kept
            | (refine pair_eq1 ?_ (by with_reducible assumption)) | (refine pair_eq2 ?_ (by with_reducible assumption))
            | (refine ans_done_eq ?_ (by with_reducible assumption)) | (refine ans_wait_eq ?_ (by with_reducible assumption))
            | with_reducible apply ans_done | with_reducible apply ans_wait | with_reducible apply ans_held
            | with_reducible apply out_next | with_reducible intro _ | extract_lets | split | dsimp +zetaDelta -iota only)

theorem admitBlocks_kept (x : Nat) (x1 : Nat) (x2 : State) (hx2 : Kept cs_ x2) : Kept cs_ (admitBlocks x x1 x2) := by
  induction x1 generalizing x2 with
  | zero => (first | with_reducible assumption | (unfold admitBlocks; with_reducible assumption))
  | succ k ih =>
    unfold admitBlocks
    try extract_lets
    repeat'
      (first | with_reducible assumption | (with_reducible show Kept _ _; simp -iota -zeta only [memOk_mk, memsOk_mk])
              | (with_reducible show KeptParts _ _ _ _; simp -iota -zeta only [memsOk_mk]) | with_reducible apply memsOk_of
              | with_reducible apply cellsOk_of | with_reducible apply setExp_kept | (refine pair_eq1 ?_ (by with_reducible assumption))
              | (refine pair_eq2 ?_ (by with_reducible assumption)) | (refine ans_done_eq ?_ (by with_reducible assumption))
              | (refine ans_wait_eq ?_ (by with_reducible assumption)) | with_reducible apply ans_done | with_reducible apply ans_wait
              | with_reducible apply ans_held | with_reducible apply out_next | with_reducible apply ih | with_reducible intro _
              | extract_lets | split | dsimp +zetaDelta -iota only)

theorem expandOne_kept (s : State) (x : Nat) (b : Block) (hs : Kept cs_ s) : Kept cs_ (expandOne s x b) := by
  unfold expandOne
  try extract_lets
  repeat'
    (first | with_reducible assumption | (with_reducible show Kept _ _; simp -iota -zeta only [memOk_mk, memsOk_mk])
            | (with_reducible show KeptParts _ _ _ _; simp -iota -zeta only [memsOk_mk]) | with_reducible apply memsOk_of
            | with_reducible apply cellsOk_of | with_reducible apply blockDone_kept
            | with_reducible (refine blockDone_kept_eq ?_ (by with_reducible assumption)) | with_reducible apply bumpO_kept
            | with_reducible apply charge_kept | with_reducible apply watch_kept | with_reducible apply readSlot_kept
            | with_reducible (refine readSlot_kept_eq ?_ (by with_reducible assumption)) | with_reducible apply countBlock_kept
            | with_reducible apply noteFail_kept | with_reducible apply setExp_kept | with_reducible apply countMiss_kept
            | (refine pair_eq1 ?_ (by with_reducible assumption)) | (refine pair_eq2 ?_ (by with_reducible assumption))
            | (refine ans_done_eq ?_ (by with_reducible assumption)) | (refine ans_wait_eq ?_ (by with_reducible assumption))
            | with_reducible apply ans_done | with_reducible apply ans_wait | with_reducible apply ans_held
            | with_reducible apply out_next | with_reducible intro _ | extract_lets | split | dsimp +zetaDelta -iota only)

theorem execBlockExpand_kept (expander : Nat) (s : State) (hs : Kept cs_ s) : OutKept cs_ (execBlockExpand expander s) := by
  unfold execBlockExpand
  try extract_lets
  repeat'
    (first | with_reducible assumption | (with_reducible show Kept _ _; simp -iota -zeta only [memOk_mk, memsOk_mk])
            | (with_reducible show KeptParts _ _ _ _; simp -iota -zeta only [memsOk_mk]) | with_reducible apply memsOk_of
            | with_reducible apply cellsOk_of | with_reducible apply admitBlocks_kept | with_reducible apply expandOne_kept
            | with_reducible (refine expandOne_kept_eq ?_ (by with_reducible assumption)) | with_reducible apply setExp_kept
            | (refine pair_eq1 ?_ (by with_reducible assumption)) | (refine pair_eq2 ?_ (by with_reducible assumption))
            | (refine ans_done_eq ?_ (by with_reducible assumption)) | (refine ans_wait_eq ?_ (by with_reducible assumption))
            | with_reducible apply ans_done | with_reducible apply ans_wait | with_reducible apply ans_held
            | with_reducible apply out_next | with_reducible intro _ | extract_lets | split | dsimp +zetaDelta -iota only)

theorem fetchBasis_kept (s : State) (dpa : Nat) (hs : Kept cs_ s) : Kept cs_ (fetchBasis s dpa).2 := by
  unfold fetchBasis
  try extract_lets
  repeat'
    (first | with_reducible assumption | (with_reducible show Kept _ _; simp -iota -zeta only [memOk_mk, memsOk_mk])
            | (with_reducible show KeptParts _ _ _ _; simp -iota -zeta only [memsOk_mk]) | with_reducible apply memsOk_of
            | with_reducible apply cellsOk_of | with_reducible apply readBytes_kept
            | with_reducible (refine readBytes_kept_eq ?_ (by with_reducible assumption))
            | (refine pair_eq1 ?_ (by with_reducible assumption)) | (refine pair_eq2 ?_ (by with_reducible assumption))
            | (refine ans_done_eq ?_ (by with_reducible assumption)) | (refine ans_wait_eq ?_ (by with_reducible assumption))
            | with_reducible apply ans_done | with_reducible apply ans_wait | with_reducible apply ans_held
            | with_reducible apply out_next | with_reducible intro _ | extract_lets | split | dsimp +zetaDelta -iota only)
theorem fetchBasis_kept_eq {s : State} {dpa : Nat} {r0 : Option (List Byte)} {t_ : State} (hs : Kept cs_ s) (e_ : fetchBasis s dpa = (r0,
    t_)) : Kept cs_ t_ := by
  have := fetchBasis_kept s dpa hs
  rwa [e_] at this

theorem unloadIfFree_kept (s : State) (id : Nat) (hs : Kept cs_ s) : Kept cs_ (unloadIfFree s id) := by
  unfold unloadIfFree
  try extract_lets
  repeat'
    (first | with_reducible assumption | (with_reducible show Kept _ _; simp -iota -zeta only [memOk_mk])
           | with_reducible apply memsOk_of | with_reducible apply finishWait_kept | with_reducible intro _ | extract_lets | split
           | dsimp +zetaDelta -iota only)

theorem fillOne_kept (s : State) (x : Nat) (l : Lane) (hs : Kept cs_ s) : Kept cs_ (fillOne s x l) := by
  unfold fillOne
  try extract_lets
  repeat'
    (first | with_reducible assumption | (with_reducible show Kept _ _; simp -iota -zeta only [memOk_mk, memsOk_mk])
            | (with_reducible show KeptParts _ _ _ _; simp -iota -zeta only [memsOk_mk]) | with_reducible apply memsOk_of
            | with_reducible apply cellsOk_of | with_reducible apply fetchBasis_kept
            | with_reducible (refine fetchBasis_kept_eq ?_ (by with_reducible assumption)) | with_reducible apply blockDone_kept
            | with_reducible (refine blockDone_kept_eq ?_ (by with_reducible assumption)) | with_reducible apply setExp_kept
            | with_reducible apply foldFault_kept | with_reducible apply unloadIfFree_kept
            | (refine pair_eq1 ?_ (by with_reducible assumption)) | (refine pair_eq2 ?_ (by with_reducible assumption))
            | (refine ans_done_eq ?_ (by with_reducible assumption)) | (refine ans_wait_eq ?_ (by with_reducible assumption))
            | with_reducible apply ans_done | with_reducible apply ans_wait | with_reducible apply ans_held
            | with_reducible apply out_next | with_reducible intro _ | extract_lets | split | dsimp +zetaDelta -iota only)

theorem execBasisCacheFill_kept (expander : Nat) (s : State) (hs : Kept cs_ s) : OutKept cs_ (execBasisCacheFill expander s) := by
  unfold execBasisCacheFill
  try extract_lets
  repeat'
    (first | with_reducible assumption | (with_reducible show Kept _ _; simp -iota -zeta only [memOk_mk])
           | with_reducible apply memsOk_of | with_reducible apply fillOne_kept | with_reducible apply setExp_kept
           | with_reducible apply ans_done | with_reducible apply ans_wait | with_reducible apply out_next | with_reducible intro _
           | extract_lets | split | dsimp +zetaDelta -iota only)

theorem enqueueBlocks_kept (s : State) (id : Nat) (dpa : Nat) (n : Nat) (cls : Nat) (hs : Kept cs_ s) : Kept cs_ (enqueueBlocks s id dpa n
    cls) := by
  unfold enqueueBlocks
  try extract_lets
  repeat'
    (first | with_reducible assumption | (with_reducible show Kept _ _; simp -iota -zeta only [memOk_mk, memsOk_mk])
            | (with_reducible show KeptParts _ _ _ _; simp -iota -zeta only [memsOk_mk]) | with_reducible apply memsOk_of
            | with_reducible apply cellsOk_of | with_reducible apply foldl_kept | with_reducible apply setExp_kept
            | with_reducible apply foldl_kept | with_reducible apply foldl_snd2_kept | with_reducible apply foldl_fst_kept
            | with_reducible apply foldl_snd_kept | (refine pair_eq1 ?_ (by with_reducible assumption))
            | (refine pair_eq2 ?_ (by with_reducible assumption)) | (refine ans_done_eq ?_ (by with_reducible assumption))
            | (refine ans_wait_eq ?_ (by with_reducible assumption)) | with_reducible apply ans_done | with_reducible apply ans_wait
            | with_reducible apply ans_held | with_reducible apply out_next | with_reducible intro _ | extract_lets | split
            | dsimp +zetaDelta -iota only)

theorem startExpand_kept (s : State) (rq : Requester) (dpa : Nat) (n : Nat) (dest : ExpandDest) (cls : Nat) (queue : Option (Nat × Nat))
    (hs : Kept cs_ s) : Kept cs_ (startExpand s rq dpa n dest cls queue).2 := by
  unfold startExpand
  try extract_lets
  repeat'
    (first | with_reducible assumption | (with_reducible show Kept _ _; simp -iota -zeta only [memOk_mk, memsOk_mk])
            | (with_reducible show KeptParts _ _ _ _; simp -iota -zeta only [memsOk_mk]) | with_reducible apply memsOk_of
            | with_reducible apply cellsOk_of | with_reducible apply enqueueBlocks_kept
            | (refine pair_eq1 ?_ (by with_reducible assumption)) | (refine pair_eq2 ?_ (by with_reducible assumption))
            | (refine ans_done_eq ?_ (by with_reducible assumption)) | (refine ans_wait_eq ?_ (by with_reducible assumption))
            | with_reducible apply ans_done | with_reducible apply ans_wait | with_reducible apply ans_held
            | with_reducible apply out_next | with_reducible intro _ | extract_lets | split | dsimp +zetaDelta -iota only)
theorem startExpand_kept_eq {s : State} {rq : Requester} {dpa : Nat} {n : Nat} {dest : ExpandDest} {cls : Nat} {queue : Option (Nat ×
    Nat)} {r0 : Nat} {t_ : State} (hs : Kept cs_ s) (e_ : startExpand s rq dpa n dest cls queue = (r0, t_)) : Kept cs_ t_ := by
  have := startExpand_kept s rq dpa n dest cls queue hs
  rwa [e_] at this

theorem execFoldExpand_kept (c : Cmd) (s : State) (hs : Kept cs_ s) : OutKept cs_ (execFoldExpand c s) := by
  unfold execFoldExpand
  try extract_lets
  repeat'
    (first | with_reducible assumption | (with_reducible show Kept _ _; simp -iota -zeta only [memOk_mk, memsOk_mk])
            | (with_reducible show KeptParts _ _ _ _; simp -iota -zeta only [memsOk_mk]) | with_reducible apply memsOk_of
            | with_reducible apply cellsOk_of | with_reducible apply firmware_kept | with_reducible apply checked_kept
            | with_reducible apply startExpand_kept | with_reducible (refine startExpand_kept_eq ?_ (by with_reducible assumption))
            | (refine pair_eq1 ?_ (by with_reducible assumption)) | (refine pair_eq2 ?_ (by with_reducible assumption))
            | (refine ans_done_eq ?_ (by with_reducible assumption)) | (refine ans_wait_eq ?_ (by with_reducible assumption))
            | with_reducible apply ans_done | with_reducible apply ans_wait | with_reducible apply ans_held
            | with_reducible apply out_next | with_reducible intro _ | extract_lets | split | dsimp +zetaDelta -iota only)

theorem verifyOne_kept (s : State) (rq : Requester) (dpa : Nat) (hs : Kept cs_ s) : Kept cs_ (verifyOne s rq dpa).2.2 := by
  unfold verifyOne
  try extract_lets
  repeat'
    (first | with_reducible assumption | (with_reducible show Kept _ _; simp -iota -zeta only [memOk_mk, memsOk_mk])
            | (with_reducible show KeptParts _ _ _ _; simp -iota -zeta only [memsOk_mk]) | with_reducible apply memsOk_of
            | with_reducible apply cellsOk_of | with_reducible apply readSlot_kept
            | with_reducible (refine readSlot_kept_eq ?_ (by with_reducible assumption)) | with_reducible apply charge_kept
            | with_reducible apply noteFail_kept | with_reducible apply setExp_kept | with_reducible apply fetchBasis_kept
            | with_reducible (refine fetchBasis_kept_eq ?_ (by with_reducible assumption)) | with_reducible apply countMiss_kept
            | with_reducible apply foldFault_kept | (refine pair_eq1 ?_ (by with_reducible assumption))
            | (refine pair_eq2 ?_ (by with_reducible assumption)) | (refine ans_done_eq ?_ (by with_reducible assumption))
            | (refine ans_wait_eq ?_ (by with_reducible assumption)) | with_reducible apply ans_done | with_reducible apply ans_wait
            | with_reducible apply ans_held | with_reducible apply out_next | with_reducible intro _ | extract_lets | split
            | dsimp +zetaDelta -iota only)
theorem verifyOne_kept_eq {s : State} {rq : Requester} {dpa : Nat} {r0 : Nat} {r1 : Nat} {t_ : State} (hs : Kept cs_ s) (e_ : verifyOne s
    rq dpa = (r0, r1, t_)) : Kept cs_ t_ := by
  have := verifyOne_kept s rq dpa hs
  rwa [e_] at this

theorem execFoldVerify_kept (c : Cmd) (s : State) (hs : Kept cs_ s) : OutKept cs_ (execFoldVerify c s) := by
  unfold execFoldVerify
  try extract_lets
  repeat'
    (first | with_reducible assumption | (with_reducible show Kept _ _; simp -iota -zeta only [memOk_mk, memsOk_mk])
            | (with_reducible show KeptParts _ _ _ _; simp -iota -zeta only [memsOk_mk]) | with_reducible apply memsOk_of
            | with_reducible apply cellsOk_of | with_reducible apply firmware_kept | with_reducible apply checked_kept
            | with_reducible apply unheld_kept | with_reducible apply foldl_kept | with_reducible apply verifyOne_kept
            | with_reducible (refine verifyOne_kept_eq ?_ (by with_reducible assumption)) | with_reducible apply reportTo_kept
            | with_reducible apply foldl_kept | with_reducible apply foldl_snd2_kept | with_reducible apply foldl_fst_kept
            | with_reducible apply foldl_snd_kept | (refine pair_eq1 ?_ (by with_reducible assumption))
            | (refine pair_eq2 ?_ (by with_reducible assumption)) | (refine ans_done_eq ?_ (by with_reducible assumption))
            | (refine ans_wait_eq ?_ (by with_reducible assumption)) | with_reducible apply ans_done | with_reducible apply ans_wait
            | with_reducible apply ans_held | with_reducible apply out_next | with_reducible intro _ | extract_lets | split
            | dsimp +zetaDelta -iota only)

theorem execFoldFaultRead_kept (c : Cmd) (s : State) (hs : Kept cs_ s) : OutKept cs_ (execFoldFaultRead c s) := by
  unfold execFoldFaultRead
  try extract_lets
  repeat'
    (first | with_reducible assumption | (with_reducible show Kept _ _; simp -iota -zeta only [memOk_mk])
           | with_reducible apply memsOk_of | with_reducible apply firmware_kept | with_reducible apply checked_kept
           | with_reducible apply reportTo_kept | with_reducible apply ans_done | with_reducible apply ans_wait
           | with_reducible apply out_next | with_reducible intro _ | extract_lets | split | dsimp +zetaDelta -iota only)

theorem execFoldCounters_kept (c : Cmd) (s : State) (hs : Kept cs_ s) : OutKept cs_ (execFoldCounters c s) := by
  unfold execFoldCounters
  try extract_lets
  repeat'
    (first | with_reducible assumption | (with_reducible show Kept _ _; simp -iota -zeta only [memOk_mk])
           | with_reducible apply memsOk_of | with_reducible apply firmware_kept | with_reducible apply checked_kept
           | with_reducible apply reportTo_kept | with_reducible apply ans_done | with_reducible apply ans_wait
           | with_reducible apply out_next | with_reducible intro _ | extract_lets | split | dsimp +zetaDelta -iota only)

end Sys2Proof.Machine
end

