-- ==== Sys2Proof/Laws/KeptCoreFabric.lean ====
section
/-! SUPPORT. Every definition of Machine/CoreFabric.lean keeps the queue of waiting commands and the canonical form of both memories. -/
namespace Sys2Proof.Machine
open Sys2Proof
set_option maxHeartbeats 400000
set_option linter.all false
variable {cs_ : List Instr}
theorem fabricFault_kept (s : State) (n : Nat) (st : Nat) (addr : Nat) (hs : Kept cs_ s) : Kept cs_ (fabricFault s n st addr) := by
  unfold fabricFault
  try extract_lets
  repeat'
    (first | with_reducible assumption | (with_reducible show Kept _ _; simp -iota -zeta only [memOk_mk, memsOk_mk])
            | (with_reducible show KeptParts _ _ _ _; simp -iota -zeta only [memsOk_mk]) | with_reducible apply memsOk_of
            | with_reducible apply cellsOk_of | with_reducible apply coreFault_kept | (refine pair_eq1 ?_ (by with_reducible assumption))
            | (refine pair_eq2 ?_ (by with_reducible assumption)) | (refine ans_done_eq ?_ (by with_reducible assumption))
            | (refine ans_wait_eq ?_ (by with_reducible assumption)) | with_reducible apply ans_done | with_reducible apply ans_wait
            | with_reducible apply ans_held | with_reducible apply out_next | with_reducible intro _ | extract_lets | split
            | dsimp +zetaDelta -iota only)

theorem coreSignal_kept (s : State) (n : Nat) (g : Nat) (v : BitVec 32) (isSet : Bool) (hs : Kept cs_ s) : Kept cs_ (coreSignal s n g v
    isSet) := by
  unfold coreSignal
  try extract_lets
  repeat'
    (first | with_reducible assumption | (with_reducible show Kept _ _; simp -iota -zeta only [memOk_mk, memsOk_mk])
            | (with_reducible show KeptParts _ _ _ _; simp -iota -zeta only [memsOk_mk]) | with_reducible apply memsOk_of
            | with_reducible apply cellsOk_of | with_reducible apply fabricFault_kept | with_reducible apply tallySignalAs_kept
            | with_reducible apply requestPeer_kept | with_reducible (refine requestPeer_kept_eq ?_ (by with_reducible assumption))
            | with_reducible apply getD_kept | with_reducible apply coreSignal_kept | with_reducible apply getD_kept
            | (refine pair_eq1 ?_ (by with_reducible assumption)) | (refine pair_eq2 ?_ (by with_reducible assumption))
            | (refine ans_done_eq ?_ (by with_reducible assumption)) | (refine ans_wait_eq ?_ (by with_reducible assumption))
            | with_reducible apply ans_done | with_reducible apply ans_wait | with_reducible apply ans_held
            | with_reducible apply out_next | with_reducible intro _ | extract_lets | split | dsimp +zetaDelta -iota only)

theorem coreSettle_kept (s : State) (n : Nat) (hs : Kept cs_ s) : Kept cs_ (coreSettle s n) := by
  unfold coreSettle
  try extract_lets
  repeat'
    (first | with_reducible assumption | (with_reducible show Kept _ _; simp -iota -zeta only [memOk_mk])
           | with_reducible apply memsOk_of | with_reducible apply coreSignal_kept | with_reducible apply setCore_kept
           | with_reducible intro _ | extract_lets | split | dsimp +zetaDelta -iota only)

theorem fabricExec_kept (n : Nat) (w : BitVec 64) (regs : List Nat) (reads : Core → List (Nat × Nat)) (s : State) (f : Core → State →
    State) (hf : ∀ (y0 : Core) (y1 : State), Kept cs_ y1 → Kept cs_ (f y0 y1)) (hs : Kept cs_ s) : Kept cs_ (fabricExec n w regs reads s f) :=
    by
  unfold fabricExec
  try extract_lets
  repeat'
    (first | with_reducible assumption | (with_reducible show Kept _ _; simp -iota -zeta only [memOk_mk, memsOk_mk])
            | (with_reducible show KeptParts _ _ _ _; simp -iota -zeta only [memsOk_mk]) | with_reducible apply memsOk_of
            | with_reducible apply cellsOk_of | with_reducible apply coreExecR_kept | with_reducible apply hf
            | (refine pair_eq1 ?_ (by with_reducible assumption)) | (refine pair_eq2 ?_ (by with_reducible assumption))
            | (refine ans_done_eq ?_ (by with_reducible assumption)) | (refine ans_wait_eq ?_ (by with_reducible assumption))
            | with_reducible apply ans_done | with_reducible apply ans_wait | with_reducible apply ans_held
            | with_reducible apply out_next | with_reducible intro _ | extract_lets | split | dsimp +zetaDelta -iota only)

theorem readPeer_kept (s : State) (n : Nat) (i : Nat) (dpa : Nat) (addr : Nat) (granules : Nat) (hs : Kept cs_ s) : Kept cs_
    (readPeer s n i dpa addr granules).2 := by
  unfold readPeer
  try extract_lets
  repeat'
    (first | with_reducible assumption | (with_reducible show Kept _ _; simp -iota -zeta only [memOk_mk, memsOk_mk])
           | (with_reducible show KeptParts _ _ _ _; simp -iota -zeta only [memsOk_mk]) | with_reducible apply memsOk_of
           | with_reducible apply cellsOk_of | with_reducible apply requestPeer_kept
           | with_reducible (refine requestPeer_kept_eq ?_ (by with_reducible assumption)) | with_reducible apply foldl_kept
           | with_reducible apply foldl_snd2_kept | with_reducible apply foldl_fst_kept | with_reducible apply foldl_snd_kept
           | with_reducible apply getD_kept | (refine pair_eq1 ?_ (by with_reducible assumption))
           | (refine pair_eq2 ?_ (by with_reducible assumption)) | (refine ans_done_eq ?_ (by with_reducible assumption))
           | (refine ans_wait_eq ?_ (by with_reducible assumption)) | with_reducible apply ans_done | with_reducible apply ans_wait
           | with_reducible apply out_next | with_reducible intro _ | extract_lets | split | dsimp +zetaDelta -iota only)
theorem readPeer_kept_eq {s : State} {n : Nat} {i : Nat} {dpa : Nat} {addr : Nat} {granules : Nat} {r0 : Nat} {t_ : State} (hs
    : Kept cs_ s) (e_ : readPeer s n i dpa addr granules = (r0, t_)) : Kept cs_ t_ := by
  have := readPeer_kept s n i dpa addr granules hs
  rwa [e_] at this

theorem execXrd_kept (core : Nat) (f : Fields) (s : State) (hs : Kept cs_ s) : OutKept cs_ (execXrd core f s) := by
  unfold execXrd
  try extract_lets
  repeat'
    (first | with_reducible assumption | (with_reducible show Kept _ _; simp -iota -zeta only [memOk_mk, memsOk_mk])
            | (with_reducible show KeptParts _ _ _ _; simp -iota -zeta only [memsOk_mk]) | with_reducible apply memsOk_of
            | with_reducible apply cellsOk_of | with_reducible apply afterReads_kept | with_reducible apply fabricExec_kept
            | with_reducible apply coreFault_kept | with_reducible apply setCore_kept | with_reducible apply readPeer_kept
            | with_reducible (refine readPeer_kept_eq ?_ (by with_reducible assumption))
            | (refine pair_eq1 ?_ (by with_reducible assumption)) | (refine pair_eq2 ?_ (by with_reducible assumption))
            | (refine ans_done_eq ?_ (by with_reducible assumption)) | (refine ans_wait_eq ?_ (by with_reducible assumption))
            | with_reducible apply ans_done | with_reducible apply ans_wait | with_reducible apply ans_held
            | with_reducible apply out_next | with_reducible intro _ | extract_lets | split | dsimp +zetaDelta -iota only)

theorem execXrdComplete_kept (core : Nat) (s : State) (hs : Kept cs_ s) : OutKept cs_ (execXrdComplete core s) := by
  unfold execXrdComplete
  try extract_lets
  repeat'
    (first | with_reducible assumption | (with_reducible show Kept _ _; simp -iota -zeta only [memOk_mk, memsOk_mk])
            | (with_reducible show KeptParts _ _ _ _; simp -iota -zeta only [memsOk_mk]) | with_reducible apply memsOk_of
            | with_reducible apply cellsOk_of | with_reducible apply coreSettle_kept | with_reducible apply setCore_kept
            | with_reducible apply readGranules_kept | with_reducible (refine readGranules_kept_eq ?_ (by with_reducible assumption))
            | with_reducible apply fabricFault_kept | with_reducible apply prog_kept | (refine pair_eq1 ?_ (by with_reducible assumption))
            | (refine pair_eq2 ?_ (by with_reducible assumption)) | (refine ans_done_eq ?_ (by with_reducible assumption))
            | (refine ans_wait_eq ?_ (by with_reducible assumption)) | with_reducible apply ans_done | with_reducible apply ans_wait
            | with_reducible apply ans_held | with_reducible apply out_next | with_reducible intro _ | extract_lets | split
            | dsimp +zetaDelta -iota only)

theorem execXwr_kept (core : Nat) (f : Fields) (s : State) (hs : Kept cs_ s) : OutKept cs_ (execXwr core f s) := by
  unfold execXwr
  try extract_lets
  repeat'
    (first | with_reducible assumption | (with_reducible show Kept _ _; simp -iota -zeta only [memOk_mk, memsOk_mk])
            | (with_reducible show KeptParts _ _ _ _; simp -iota -zeta only [memsOk_mk]) | with_reducible apply memsOk_of
            | with_reducible apply cellsOk_of | with_reducible apply fabricExec_kept | with_reducible apply coreFault_kept
            | with_reducible apply setCore_kept | (refine pair_eq1 ?_ (by with_reducible assumption))
            | (refine pair_eq2 ?_ (by with_reducible assumption)) | (refine ans_done_eq ?_ (by with_reducible assumption))
            | (refine ans_wait_eq ?_ (by with_reducible assumption)) | with_reducible apply ans_done | with_reducible apply ans_wait
            | with_reducible apply ans_held | with_reducible apply out_next | with_reducible intro _ | extract_lets | split
            | dsimp +zetaDelta -iota only)

theorem execXexp_kept (core : Nat) (f : Fields) (s : State) (hs : Kept cs_ s) : OutKept cs_ (execXexp core f s) := by
  unfold execXexp
  try extract_lets
  repeat'
    (first | with_reducible assumption | (with_reducible show Kept _ _; simp -iota -zeta only [memOk_mk, memsOk_mk])
            | (with_reducible show KeptParts _ _ _ _; simp -iota -zeta only [memsOk_mk]) | with_reducible apply memsOk_of
            | with_reducible apply cellsOk_of | with_reducible apply afterReads_kept | with_reducible apply fabricExec_kept
            | with_reducible apply coreFault_kept | with_reducible apply startExpand_kept
            | with_reducible (refine startExpand_kept_eq ?_ (by with_reducible assumption)) | with_reducible apply prog_kept
            | with_reducible apply setCore_kept | (refine pair_eq1 ?_ (by with_reducible assumption))
            | (refine pair_eq2 ?_ (by with_reducible assumption)) | (refine ans_done_eq ?_ (by with_reducible assumption))
            | (refine ans_wait_eq ?_ (by with_reducible assumption)) | with_reducible apply ans_done | with_reducible apply ans_wait
            | with_reducible apply ans_held | with_reducible apply out_next | with_reducible intro _ | extract_lets | split
            | dsimp +zetaDelta -iota only)

theorem execXexpComplete_kept (core : Nat) (s : State) (hs : Kept cs_ s) : OutKept cs_ (execXexpComplete core s) := by
  unfold execXexpComplete
  try extract_lets
  repeat'
    (first | with_reducible assumption | (with_reducible show Kept _ _; simp -iota -zeta only [memOk_mk, memsOk_mk])
            | (with_reducible show KeptParts _ _ _ _; simp -iota -zeta only [memsOk_mk]) | with_reducible apply memsOk_of
            | with_reducible apply cellsOk_of | with_reducible apply setCore_kept | with_reducible apply fabricFault_kept
            | with_reducible apply coreSettle_kept | with_reducible apply getD_kept | (refine pair_eq1 ?_ (by with_reducible assumption))
            | (refine pair_eq2 ?_ (by with_reducible assumption)) | (refine ans_done_eq ?_ (by with_reducible assumption))
            | (refine ans_wait_eq ?_ (by with_reducible assumption)) | with_reducible apply ans_done | with_reducible apply ans_wait
            | with_reducible apply ans_held | with_reducible apply out_next | with_reducible intro _ | extract_lets | split
            | dsimp +zetaDelta -iota only)

theorem execFold_kept (core : Nat) (f : Fields) (s : State) (hs : Kept cs_ s) : OutKept cs_ (execFold core f s) := by
  unfold execFold
  try extract_lets
  repeat'
    (first | with_reducible assumption | (with_reducible show Kept _ _; simp -iota -zeta only [memOk_mk, memsOk_mk])
            | (with_reducible show KeptParts _ _ _ _; simp -iota -zeta only [memsOk_mk]) | with_reducible apply memsOk_of
            | with_reducible apply cellsOk_of | with_reducible apply afterReads_kept | with_reducible apply fabricExec_kept
            | with_reducible apply coreFault_kept | with_reducible apply fetchBasis_kept
            | with_reducible (refine fetchBasis_kept_eq ?_ (by with_reducible assumption)) | with_reducible apply bumpO_kept
            | with_reducible apply setCore_kept | (refine pair_eq1 ?_ (by with_reducible assumption))
            | (refine pair_eq2 ?_ (by with_reducible assumption)) | (refine ans_done_eq ?_ (by with_reducible assumption))
            | (refine ans_wait_eq ?_ (by with_reducible assumption)) | with_reducible apply ans_done | with_reducible apply ans_wait
            | with_reducible apply ans_held | with_reducible apply out_next | with_reducible intro _ | extract_lets | split
            | dsimp +zetaDelta -iota only)

theorem atomIssue_kept (core : Nat) (f : Fields) (s : State) (fetching : Bool) (hs : Kept cs_ s) : Kept cs_ (atomIssue core f s fetching)
    := by
  unfold atomIssue
  try extract_lets
  repeat'
    (first | with_reducible assumption | (with_reducible show Kept _ _; simp -iota -zeta only [memOk_mk, memsOk_mk])
            | (with_reducible show KeptParts _ _ _ _; simp -iota -zeta only [memsOk_mk]) | with_reducible apply memsOk_of
            | with_reducible apply cellsOk_of | with_reducible apply fabricExec_kept | with_reducible apply coreFault_kept
            | with_reducible apply prog_kept | with_reducible apply setCore_kept | (refine pair_eq1 ?_ (by with_reducible assumption))
            | (refine pair_eq2 ?_ (by with_reducible assumption)) | (refine ans_done_eq ?_ (by with_reducible assumption))
            | (refine ans_wait_eq ?_ (by with_reducible assumption)) | with_reducible apply ans_done | with_reducible apply ans_wait
            | with_reducible apply ans_held | with_reducible apply out_next | with_reducible intro _ | extract_lets | split
            | dsimp +zetaDelta -iota only)

theorem execPatom_kept (core : Nat) (f : Fields) (s : State) (hs : Kept cs_ s) : OutKept cs_ (execPatom core f s) := by
  unfold execPatom
  try extract_lets
  repeat'
    (first | with_reducible assumption | (with_reducible show Kept _ _; simp -iota -zeta only [memOk_mk])
           | with_reducible apply memsOk_of | with_reducible apply atomIssue_kept | with_reducible apply ans_done
           | with_reducible apply ans_wait | with_reducible apply out_next | with_reducible intro _ | extract_lets | split
           | dsimp +zetaDelta -iota only)

theorem execFatom_kept (core : Nat) (f : Fields) (s : State) (hs : Kept cs_ s) : OutKept cs_ (execFatom core f s) := by
  unfold execFatom
  try extract_lets
  repeat'
    (first | with_reducible assumption | (with_reducible show Kept _ _; simp -iota -zeta only [memOk_mk])
           | with_reducible apply memsOk_of | with_reducible apply atomIssue_kept | with_reducible apply ans_done
           | with_reducible apply ans_wait | with_reducible apply out_next | with_reducible intro _ | extract_lets | split
           | dsimp +zetaDelta -iota only)

theorem contribPeer_kept (s : State) (i : Nat) (part : Nat) (c : Contribution) (dpa : Nat) (coll : Nat) (use : RemoteUse) (hs
    : Kept cs_ s) : Kept cs_ (contribPeer s i part c dpa coll use).2 := by
  unfold contribPeer
  try extract_lets
  repeat'
    (first | with_reducible assumption | (with_reducible show Kept _ _; simp -iota -zeta only [memOk_mk])
           | with_reducible apply memsOk_of | with_reducible apply requestPeer_kept
           | with_reducible (refine requestPeer_kept_eq ?_ (by with_reducible assumption)) | with_reducible intro _ | extract_lets
           | split | dsimp +zetaDelta -iota only)
theorem contribPeer_kept_eq {s : State} {i : Nat} {part : Nat} {c : Contribution} {dpa : Nat} {coll : Nat} {use : RemoteUse} {r0 : Nat}
    {t_ : State} (hs : Kept cs_ s) (e_ : contribPeer s i part c dpa coll use = (r0, t_)) : Kept cs_ t_ := by
  have := contribPeer_kept s i part c dpa coll use hs
  rwa [e_] at this

theorem coreContribution_kept (s : State) (n : Nat) (hs : Kept cs_ s) : Kept cs_ (coreContribution s n) := by
  unfold coreContribution
  try extract_lets
  repeat'
    (first | with_reducible assumption | (with_reducible show Kept _ _; simp -iota -zeta only [memOk_mk, memsOk_mk])
            | (with_reducible show KeptParts _ _ _ _; simp -iota -zeta only [memsOk_mk]) | with_reducible apply memsOk_of
            | with_reducible apply cellsOk_of | with_reducible apply setCore_kept | with_reducible apply fabricFault_kept
            | with_reducible apply contribPeer_kept | with_reducible (refine contribPeer_kept_eq ?_ (by with_reducible assumption))
            | with_reducible apply getD_kept | with_reducible apply contribute_kept
            | with_reducible (refine contribute_kept_eq ?_ (by with_reducible assumption)) | with_reducible apply cross_kept
            | with_reducible apply coreSettle_kept | with_reducible apply getD_kept | (refine pair_eq1 ?_ (by with_reducible assumption))
            | (refine pair_eq2 ?_ (by with_reducible assumption)) | (refine ans_done_eq ?_ (by with_reducible assumption))
            | (refine ans_wait_eq ?_ (by with_reducible assumption)) | with_reducible apply ans_done | with_reducible apply ans_wait
            | with_reducible apply ans_held | with_reducible apply out_next | with_reducible intro _ | extract_lets | split
            | dsimp +zetaDelta -iota only)

theorem execContribution_kept (w : ContribSrc) (s : State) (hs : Kept cs_ s) : OutKept cs_ (execContribution w s) := by
  unfold execContribution
  try extract_lets
  repeat'
    (first | with_reducible assumption | (with_reducible show Kept _ _; simp -iota -zeta only [memOk_mk, memsOk_mk])
            | (with_reducible show KeptParts _ _ _ _; simp -iota -zeta only [memsOk_mk]) | with_reducible apply memsOk_of
            | with_reducible apply cellsOk_of | with_reducible apply coreContribution_kept
            | with_reducible (refine coreContribution_kept_eq ?_ (by with_reducible assumption)) | with_reducible apply contribute_kept
            | with_reducible (refine contribute_kept_eq ?_ (by with_reducible assumption)) | with_reducible apply setReply_kept
            | (refine pair_eq1 ?_ (by with_reducible assumption)) | (refine pair_eq2 ?_ (by with_reducible assumption))
            | (refine ans_done_eq ?_ (by with_reducible assumption)) | (refine ans_wait_eq ?_ (by with_reducible assumption))
            | with_reducible apply ans_done | with_reducible apply ans_wait | with_reducible apply ans_held
            | with_reducible apply out_next | with_reducible intro _ | extract_lets | split | dsimp +zetaDelta -iota only)

theorem execFatomComplete_kept (core : Nat) (s : State) (hs : Kept cs_ s) : OutKept cs_ (execFatomComplete core s) := by
  unfold execFatomComplete
  try extract_lets
  repeat'
    (first | with_reducible assumption | (with_reducible show Kept _ _; simp -iota -zeta only [memOk_mk])
           | with_reducible apply memsOk_of | with_reducible apply coreSettle_kept | with_reducible apply setCore_kept
           | with_reducible apply getD_kept | with_reducible apply ans_done | with_reducible apply ans_wait
           | with_reducible apply out_next | with_reducible intro _ | extract_lets | split | dsimp +zetaDelta -iota only)

theorem execFence_kept (core : Nat) (f : Fields) (s : State) (hs : Kept cs_ s) : OutKept cs_ (execFence core f s) := by
  unfold execFence
  try extract_lets
  repeat'
    (first | with_reducible assumption | (with_reducible show Kept _ _; simp -iota -zeta only [memOk_mk, memsOk_mk])
            | (with_reducible show KeptParts _ _ _ _; simp -iota -zeta only [memsOk_mk]) | with_reducible apply memsOk_of
            | with_reducible apply cellsOk_of | with_reducible apply fabricExec_kept | with_reducible apply setCore_kept
            | with_reducible apply fence_kept | (refine pair_eq1 ?_ (by with_reducible assumption))
            | (refine pair_eq2 ?_ (by with_reducible assumption)) | (refine ans_done_eq ?_ (by with_reducible assumption))
            | (refine ans_wait_eq ?_ (by with_reducible assumption)) | with_reducible apply ans_done | with_reducible apply ans_wait
            | with_reducible apply ans_held | with_reducible apply out_next | with_reducible intro _ | extract_lets | split
            | dsimp +zetaDelta -iota only)

theorem execFenceComplete_kept (core : Nat) (s : State) (hs : Kept cs_ s) : OutKept cs_ (execFenceComplete core s) := by
  unfold execFenceComplete
  try extract_lets
  repeat'
    (first | with_reducible assumption | (with_reducible show Kept _ _; simp -iota -zeta only [memOk_mk])
           | with_reducible apply memsOk_of | with_reducible apply setCore_kept | with_reducible apply ans_done
           | with_reducible apply ans_wait | with_reducible apply out_next | with_reducible intro _ | extract_lets | split
           | dsimp +zetaDelta -iota only)

theorem execTsig_kept (core : Nat) (f : Fields) (s : State) (hs : Kept cs_ s) : OutKept cs_ (execTsig core f s) := by
  unfold execTsig
  try extract_lets
  repeat'
    (first | with_reducible assumption | (with_reducible show Kept _ _; simp -iota -zeta only [memOk_mk, memsOk_mk])
            | (with_reducible show KeptParts _ _ _ _; simp -iota -zeta only [memsOk_mk]) | with_reducible apply memsOk_of
            | with_reducible apply cellsOk_of | with_reducible apply fabricExec_kept | with_reducible apply coreFault_kept
            | with_reducible apply coreSettle_kept | with_reducible apply setCore_kept
            | (refine pair_eq1 ?_ (by with_reducible assumption)) | (refine pair_eq2 ?_ (by with_reducible assumption))
            | (refine ans_done_eq ?_ (by with_reducible assumption)) | (refine ans_wait_eq ?_ (by with_reducible assumption))
            | with_reducible apply ans_done | with_reducible apply ans_wait | with_reducible apply ans_held
            | with_reducible apply out_next | with_reducible intro _ | extract_lets | split | dsimp +zetaDelta -iota only)

theorem execTwait_kept (core : Nat) (f : Fields) (s : State) (hs : Kept cs_ s) : OutKept cs_ (execTwait core f s) := by
  unfold execTwait
  try extract_lets
  repeat'
    (first | with_reducible assumption | (with_reducible show Kept _ _; simp -iota -zeta only [memOk_mk, memsOk_mk])
            | (with_reducible show KeptParts _ _ _ _; simp -iota -zeta only [memsOk_mk]) | with_reducible apply memsOk_of
            | with_reducible apply cellsOk_of | with_reducible apply fabricExec_kept | with_reducible apply coreFault_kept
            | with_reducible apply setCore_kept | with_reducible apply blot_kept | with_reducible apply endCoreWait_kept
            | (refine pair_eq1 ?_ (by with_reducible assumption)) | (refine pair_eq2 ?_ (by with_reducible assumption))
            | (refine ans_done_eq ?_ (by with_reducible assumption)) | (refine ans_wait_eq ?_ (by with_reducible assumption))
            | with_reducible apply ans_done | with_reducible apply ans_wait | with_reducible apply ans_held
            | with_reducible apply out_next | with_reducible intro _ | extract_lets | split | dsimp +zetaDelta -iota only)

theorem execTwaitTimeout_kept (core : Nat) (s : State) (hs : Kept cs_ s) : OutKept cs_ (execTwaitTimeout core s) := by
  unfold execTwaitTimeout
  try extract_lets
  repeat'
    (first | with_reducible assumption | (with_reducible show Kept _ _; simp -iota -zeta only [memOk_mk])
           | with_reducible apply memsOk_of | with_reducible apply endCoreWait_kept | with_reducible apply ans_done
           | with_reducible apply ans_wait | with_reducible apply out_next | with_reducible intro _ | extract_lets | split
           | dsimp +zetaDelta -iota only)

theorem tallyWrite_kept (s : State) (r : Requester) (dpa : Nat) (v : BitVec 32) (hs : Kept cs_ s) : Kept cs_ (tallyWrite s r dpa v) := by
  unfold tallyWrite
  try extract_lets
  repeat'
    (first | with_reducible assumption | (with_reducible show Kept _ _; simp -iota -zeta only [memOk_mk])
           | with_reducible apply memsOk_of | with_reducible apply writeBytes_kept
           | with_reducible (refine writeBytes_kept_eq ?_ (by with_reducible assumption)) | with_reducible apply setReply_kept
           | with_reducible apply coreFault_kept | with_reducible intro _ | extract_lets | split | dsimp +zetaDelta -iota only)

theorem execTallyValueWrite_kept (r : Requester) (tally : Nat) (v : BitVec 32) (s : State) (hs : Kept cs_ s) : OutKept cs_
    (execTallyValueWrite r tally v s) := by
  unfold execTallyValueWrite
  try extract_lets
  repeat'
    (first | with_reducible assumption | (with_reducible show Kept _ _; simp -iota -zeta only [memOk_mk])
           | with_reducible apply memsOk_of | with_reducible apply tallyWrite_kept | with_reducible apply ans_done
           | with_reducible apply ans_wait | with_reducible apply out_next | with_reducible intro _ | extract_lets | split
           | dsimp +zetaDelta -iota only)

theorem execTallyAddWrite_kept (r : Requester) (tally : Nat) (v : BitVec 32) (s : State) (hs : Kept cs_ s) : OutKept cs_
    (execTallyAddWrite r tally v s) := by
  unfold execTallyAddWrite
  try extract_lets
  repeat'
    (first | with_reducible assumption | (with_reducible show Kept _ _; simp -iota -zeta only [memOk_mk])
           | with_reducible apply memsOk_of | with_reducible apply tallyWrite_kept | with_reducible apply ans_done
           | with_reducible apply ans_wait | with_reducible apply out_next | with_reducible intro _ | extract_lets | split
           | dsimp +zetaDelta -iota only)

theorem storeOldest_kept (s : State) (n : Nat) (hs : Kept cs_ s) : Kept cs_ (storeOldest s n) := by
  unfold storeOldest
  try extract_lets
  repeat'
    (first | with_reducible assumption | (with_reducible show Kept _ _; simp -iota -zeta only [memOk_mk, memsOk_mk])
            | (with_reducible show KeptParts _ _ _ _; simp -iota -zeta only [memsOk_mk]) | with_reducible apply memsOk_of
            | with_reducible apply cellsOk_of | with_reducible apply setCore_kept | with_reducible apply requestPeer_kept
            | with_reducible (refine requestPeer_kept_eq ?_ (by with_reducible assumption)) | with_reducible apply getD_kept
            | with_reducible apply fabricFault_kept | with_reducible apply charge_kept | with_reducible apply watch_kept
            | with_reducible apply coreSettle_kept | with_reducible apply writeAt_kept
            | with_reducible (refine writeAt_kept_eq ?_ (by with_reducible assumption)) | with_reducible apply getD_kept
            | (refine pair_eq1 ?_ (by with_reducible assumption)) | (refine pair_eq2 ?_ (by with_reducible assumption))
            | (refine ans_done_eq ?_ (by with_reducible assumption)) | (refine ans_wait_eq ?_ (by with_reducible assumption))
            | with_reducible apply ans_done | with_reducible apply ans_wait | with_reducible apply ans_held
            | with_reducible apply out_next | with_reducible intro _ | extract_lets | split | dsimp +zetaDelta -iota only)

theorem execMemoryWrite_kept (w : WriteSrc) (s : State) (hs : Kept cs_ s) : OutKept cs_ (execMemoryWrite w s) := by
  unfold execMemoryWrite
  try extract_lets
  repeat'
    (first | with_reducible assumption | (with_reducible show Kept _ _; simp -iota -zeta only [memOk_mk])
           | with_reducible apply memsOk_of | with_reducible apply storeOldest_kept | with_reducible apply accessStart_kept
           | with_reducible apply ans_done | with_reducible apply ans_wait | with_reducible apply out_next | with_reducible intro _
           | extract_lets | split | dsimp +zetaDelta -iota only)

theorem setLedger_kept (s : State) (p : Nat) (l : Nat) (x : Ledger) (hs : Kept cs_ s) : Kept cs_ (setLedger s p l x) := by
  unfold setLedger
  try extract_lets
  repeat'
    (first | with_reducible assumption | (with_reducible show Kept _ _; simp -iota -zeta only [memOk_mk])
           | with_reducible apply memsOk_of | with_reducible apply setPart_kept | with_reducible intro _ | extract_lets | split
           | dsimp +zetaDelta -iota only)

theorem execLclaim_kept (core : Nat) (f : Fields) (s : State) (hs : Kept cs_ s) : OutKept cs_ (execLclaim core f s) := by
  unfold execLclaim
  try extract_lets
  repeat'
    (first | with_reducible assumption | (with_reducible show Kept _ _; simp -iota -zeta only [memOk_mk, memsOk_mk])
            | (with_reducible show KeptParts _ _ _ _; simp -iota -zeta only [memsOk_mk]) | with_reducible apply memsOk_of
            | with_reducible apply cellsOk_of | with_reducible apply afterReads_kept | with_reducible apply fabricExec_kept
            | with_reducible apply getD_kept | with_reducible apply prog_kept | with_reducible apply blot_kept
            | with_reducible apply coreFault_kept | with_reducible apply setLedger_kept | with_reducible apply bump_kept
            | with_reducible apply setCore_kept | with_reducible apply getD_kept | (refine pair_eq1 ?_ (by with_reducible assumption))
            | (refine pair_eq2 ?_ (by with_reducible assumption)) | (refine ans_done_eq ?_ (by with_reducible assumption))
            | (refine ans_wait_eq ?_ (by with_reducible assumption)) | with_reducible apply ans_done | with_reducible apply ans_wait
            | with_reducible apply ans_held | with_reducible apply out_next | with_reducible intro _ | extract_lets | split
            | dsimp +zetaDelta -iota only)

end Sys2Proof.Machine
end

