-- ==== Sys2Proof/Laws/KeptDigest.lean ====
section
/-! SUPPORT. Every definition of Machine/Digest.lean keeps the queue of waiting commands and the canonical form of both memories. -/
namespace Sys2Proof.Machine
open Sys2Proof
set_option maxHeartbeats 400000
set_option linter.all false
variable {cs_ : List Instr}
theorem digestBytes_kept (s : State) (fmt : Nat) (l : List (List Byte × Bool)) (hs : Kept cs_ s) : Kept cs_ (digestBytes s fmt l).2 := by
  unfold digestBytes
  try extract_lets
  repeat'
    (first | with_reducible assumption | (with_reducible show Kept _ _; simp -iota -zeta only [memOk_mk, memsOk_mk])
           | (with_reducible show KeptParts _ _ _ _; simp -iota -zeta only [memsOk_mk]) | with_reducible apply memsOk_of
           | with_reducible apply cellsOk_of | with_reducible apply freeBytes_kept
           | with_reducible (refine freeBytes_kept_eq ?_ (by with_reducible assumption)) | with_reducible apply foldl_kept
           | with_reducible apply foldl_snd2_kept | with_reducible apply foldl_fst_kept | with_reducible apply foldl_snd_kept
           | with_reducible apply getD_kept | (refine pair_eq1 ?_ (by with_reducible assumption))
           | (refine pair_eq2 ?_ (by with_reducible assumption)) | (refine ans_done_eq ?_ (by with_reducible assumption))
           | (refine ans_wait_eq ?_ (by with_reducible assumption)) | with_reducible apply ans_done | with_reducible apply ans_wait
           | with_reducible apply out_next | with_reducible intro _ | extract_lets | split | dsimp +zetaDelta -iota only)
theorem digestBytes_kept_eq {s : State} {fmt : Nat} {l : List (List Byte × Bool)} {r0 : List Byte} {t_ : State} (hs : Kept cs_ s) (e_
    : digestBytes s fmt l = (r0, t_)) : Kept cs_ t_ := by
  have := digestBytes_kept s fmt l hs
  rwa [e_] at this

theorem digestTake_kept (s : State) (p : Nat) (dpa : Nat) (len : Nat) (fmt : Nat) (hs : Kept cs_ s) : Kept cs_
    (digestTake s p dpa len fmt).2.2 := by
  unfold digestTake
  try extract_lets
  repeat'
    (first | with_reducible assumption | (with_reducible show Kept _ _; simp -iota -zeta only [memOk_mk])
           | with_reducible apply memsOk_of | with_reducible apply readGranules_kept
           | with_reducible (refine readGranules_kept_eq ?_ (by with_reducible assumption)) | with_reducible apply digestBytes_kept
           | with_reducible (refine digestBytes_kept_eq ?_ (by with_reducible assumption)) | with_reducible intro _ | extract_lets
           | split | dsimp +zetaDelta -iota only)
theorem digestTake_kept_eq {s : State} {p : Nat} {dpa : Nat} {len : Nat} {fmt : Nat} {r0 : Nat} {r1 : List Byte} {t_ : State} (hs
    : Kept cs_ s) (e_ : digestTake s p dpa len fmt = (r0, r1, t_)) : Kept cs_ t_ := by
  have := digestTake_kept s p dpa len fmt hs
  rwa [e_] at this

theorem digestMarker_kept (s : State) (p : Nat) (marker : BitVec 32) (unit : Nat) (hs : Kept cs_ s) : Kept cs_
    (digestMarker s p marker unit) := by
  unfold digestMarker
  try extract_lets
  repeat'
    (first | with_reducible assumption | (with_reducible show Kept _ _; simp -iota -zeta only [memOk_mk])
           | with_reducible apply memsOk_of | with_reducible apply digestTake_kept
           | with_reducible (refine digestTake_kept_eq ?_ (by with_reducible assumption)) | with_reducible apply tracePart_kept
           | with_reducible apply foldl_kept | with_reducible intro _ | extract_lets | split | dsimp +zetaDelta -iota only)

end Sys2Proof.Machine
end

