-- ==== Sys2Proof/Laws/KeptConcord.lean ====
section
/-! SUPPORT. Every definition of Machine/Concord.lean keeps the queue of waiting commands and the canonical form of both memories. -/
namespace Sys2Proof.Machine
open Sys2Proof
set_option maxHeartbeats 400000
set_option linter.all false
variable {cs_ : List Instr}
theorem sendConcord_kept (s : State) (l : Nat) (update : Bool) (hs : Kept cs_ s) : Kept cs_ (sendConcord s l update) := by
  unfold sendConcord
  try extract_lets
  repeat'
    (first | with_reducible assumption | (with_reducible show Kept _ _; simp -iota -zeta only [memOk_mk])
           | with_reducible apply memsOk_of | with_reducible apply sendOn_kept | with_reducible intro _ | extract_lets | split
           | dsimp +zetaDelta -iota only)

theorem concordUpdate_kept (s : State) (hs : Kept cs_ s) : Kept cs_ (concordUpdate s) := by
  unfold concordUpdate
  try extract_lets
  repeat'
    (first | with_reducible assumption | (with_reducible show Kept _ _; simp -iota -zeta only [memOk_mk])
           | with_reducible apply memsOk_of | with_reducible apply sendConcord_kept | with_reducible apply foldl_kept
           | with_reducible intro _ | extract_lets | split | dsimp +zetaDelta -iota only)

theorem noteRecord_kept (s : State) (r : ConcordRec) (hs : Kept cs_ s) : Kept cs_ (noteRecord s r) := by
  unfold noteRecord
  try extract_lets
  repeat'
    (first | with_reducible assumption | (with_reducible show Kept _ _; simp -iota -zeta only [memOk_mk, memsOk_mk])
            | (with_reducible show KeptParts _ _ _ _; simp -iota -zeta only [memsOk_mk]) | with_reducible apply memsOk_of
            | with_reducible apply cellsOk_of | (refine pair_eq1 ?_ (by with_reducible assumption))
            | (refine pair_eq2 ?_ (by with_reducible assumption)) | (refine ans_done_eq ?_ (by with_reducible assumption))
            | (refine ans_wait_eq ?_ (by with_reducible assumption)) | with_reducible apply ans_done | with_reducible apply ans_wait
            | with_reducible apply out_next | with_reducible intro _ | extract_lets | split | dsimp +zetaDelta -iota only)

end Sys2Proof.Machine
end

