-- ==== Sys2Proof/Laws/KeptQuire.lean ====
section
/-! SUPPORT. Every definition of Machine/Quire.lean keeps the queue of waiting commands and the canonical form of both memories. -/
namespace Sys2Proof.Machine
open Sys2Proof
set_option maxHeartbeats 400000
set_option linter.all false
variable {cs_ : List Instr}
theorem qAct_kept (s : State) (p : Nat) (q : Nat) (code : Nat) (f : List Byte → State → State) (hs : Kept cs_ s) (hf : ∀ (y0 : List Byte)
    (y1 : State), Kept cs_ y1 → Kept cs_ (f y0 y1)) : Kept cs_ (qAct s p q code f) := by
  unfold qAct
  try extract_lets
  repeat'
    (first | with_reducible assumption | (with_reducible show Kept _ _; simp -iota -zeta only [memOk_mk])
           | with_reducible apply memsOk_of | with_reducible apply hf | with_reducible intro _ | extract_lets | split
           | dsimp +zetaDelta -iota only)

theorem qBegin_kept (s : State) (p : Nat) (q : Nat) (hs : Kept cs_ s) : Kept cs_ (qBegin s p q) := by
  unfold qBegin
  try extract_lets
  repeat'
    (first | with_reducible assumption | (with_reducible show Kept _ _; simp -iota -zeta only [memOk_mk])
           | with_reducible apply memsOk_of | with_reducible apply setQueue_kept | with_reducible intro _ | extract_lets | split
           | dsimp +zetaDelta -iota only)

theorem qChecked_kept (p : Nat) (q : Nat) (b : List Byte) (checks : List (Bool × Nat)) (s : State) (f : State → State) (hs : Kept cs_ s)
    (hf : ∀ (y0 : State), Kept cs_ y0 → Kept cs_ (f y0)) : Kept cs_ (qChecked p q b checks s f) := by
  unfold qChecked
  try extract_lets
  repeat'
    (first | with_reducible assumption | (with_reducible show Kept _ _; simp -iota -zeta only [memOk_mk])
           | with_reducible apply memsOk_of | with_reducible apply queueStatus_kept | with_reducible apply hf | with_reducible intro _
           | extract_lets | split | dsimp +zetaDelta -iota only)

theorem stepEvent_kept (s : State) (p : Nat) (q : Nat) (timeout : Nat) (status : Nat) (index : Nat) (hs : Kept cs_ s) : Kept cs_
    (stepEvent s p q timeout status index) := by
  unfold stepEvent
  try extract_lets
  repeat'
    (first | with_reducible assumption | (with_reducible show Kept _ _; simp -iota -zeta only [memOk_mk])
           | with_reducible apply memsOk_of | with_reducible apply post_kept | with_reducible intro _ | extract_lets | split
           | dsimp +zetaDelta -iota only)

theorem loadCommand_kept (s : State) (p : Nat) (q : Nat) (u : Quire) (freed : Bool) (hs : Kept cs_ s) : Kept cs_
    (loadCommand s p q u freed) := by
  unfold loadCommand
  try extract_lets
  repeat'
    (first | with_reducible assumption | (with_reducible show Kept _ _; simp -iota -zeta only [memOk_mk])
           | with_reducible apply memsOk_of | with_reducible apply readBytes_kept
           | with_reducible (refine readBytes_kept_eq ?_ (by with_reducible assumption)) | with_reducible apply setQueue_kept
           | with_reducible apply latchStart_kept | with_reducible apply queueStatus_kept | with_reducible intro _ | extract_lets | split
           | dsimp +zetaDelta -iota only)

theorem startNext_kept (s : State) (p : Nat) (q : Nat) (hs : Kept cs_ s) : Kept cs_ (startNext s p q) := by
  unfold startNext
  try extract_lets
  repeat'
    (first | with_reducible assumption | (with_reducible show Kept _ _; simp -iota -zeta only [memOk_mk, memsOk_mk])
            | (with_reducible show KeptParts _ _ _ _; simp -iota -zeta only [memsOk_mk]) | with_reducible apply memsOk_of
            | with_reducible apply cellsOk_of | with_reducible apply loadCommand_kept | with_reducible apply setQueue_kept
            | with_reducible apply stepEvent_kept | (refine pair_eq1 ?_ (by with_reducible assumption))
            | (refine pair_eq2 ?_ (by with_reducible assumption)) | (refine ans_done_eq ?_ (by with_reducible assumption))
            | (refine ans_wait_eq ?_ (by with_reducible assumption)) | with_reducible apply ans_done | with_reducible apply ans_wait
            | with_reducible apply ans_held | with_reducible apply out_next | with_reducible intro _ | extract_lets | split
            | dsimp +zetaDelta -iota only)

theorem finishFirst_kept (s : State) (w : Wait) (status : Nat) (result : List Byte) (hs : Kept cs_ s) : Kept cs_
    (finishFirst s w status result) := by
  unfold finishFirst
  try extract_lets
  repeat'
    (first | with_reducible assumption | (with_reducible show Kept _ _; simp -iota -zeta only [memOk_mk])
           | with_reducible apply memsOk_of | with_reducible apply complete_kept | with_reducible intro _ | extract_lets | split
           | dsimp +zetaDelta -iota only)

theorem queueSignal_kept (s : State) (p : Nat) (q : Nat) (g : Nat) (v : BitVec 32) (isSet : Bool) (use : RemoteUse) (hs : Kept cs_ s)
    : Kept cs_ (queueSignal s p q g v isSet use).2 := by
  unfold queueSignal
  try extract_lets
  repeat'
    (first | with_reducible assumption | (with_reducible show Kept _ _; simp -iota -zeta only [memOk_mk])
           | with_reducible apply memsOk_of | with_reducible apply tallySignalAs_kept | with_reducible apply requestPeer_kept
           | with_reducible (refine requestPeer_kept_eq ?_ (by with_reducible assumption)) | with_reducible intro _ | extract_lets
           | split | dsimp +zetaDelta -iota only)
theorem queueSignal_kept_eq {s : State} {p : Nat} {q : Nat} {g : Nat} {v : BitVec 32} {isSet : Bool} {use : RemoteUse} {r0 : Nat} {t_
    : State} (hs : Kept cs_ s) (e_ : queueSignal s p q g v isSet use = (r0, t_)) : Kept cs_ t_ := by
  have := queueSignal_kept s p q g v isSet use hs
  rwa [e_] at this

theorem quireEnds_kept (s : State) (p : Nat) (q : Nat) (u : Quire) (status : Nat) (hs : Kept cs_ s) : Kept cs_
    (quireEnds s p q u status) := by
  unfold quireEnds
  try extract_lets
  repeat'
    (first | with_reducible assumption | (with_reducible show Kept _ _; simp -iota -zeta only [memOk_mk])
           | with_reducible apply memsOk_of | with_reducible apply finishFirst_kept | with_reducible intro _ | extract_lets | split
           | dsimp +zetaDelta -iota only)

theorem queueAdvance_kept (s : State) (p : Nat) (q : Nat) (hs : Kept cs_ s) : Kept cs_ (queueAdvance s p q) := by
  unfold queueAdvance
  try extract_lets
  repeat'
    (first | with_reducible assumption | (with_reducible show Kept _ _; simp -iota -zeta only [memOk_mk, memsOk_mk])
            | (with_reducible show KeptParts _ _ _ _; simp -iota -zeta only [memsOk_mk]) | with_reducible apply memsOk_of
            | with_reducible apply cellsOk_of | with_reducible apply digestMarker_kept | with_reducible apply queueSignal_kept
            | with_reducible (refine queueSignal_kept_eq ?_ (by with_reducible assumption)) | with_reducible apply quireEnds_kept
            | with_reducible apply setQueue_kept | with_reducible apply startNext_kept
            | (refine pair_eq1 ?_ (by with_reducible assumption)) | (refine pair_eq2 ?_ (by with_reducible assumption))
            | (refine ans_done_eq ?_ (by with_reducible assumption)) | (refine ans_wait_eq ?_ (by with_reducible assumption))
            | with_reducible apply ans_done | with_reducible apply ans_wait | with_reducible apply ans_held
            | with_reducible apply out_next | with_reducible intro _ | extract_lets | split | dsimp +zetaDelta -iota only)

theorem execKernel_kept (p : Nat) (q : Nat) (s : State) (hs : Kept cs_ s) : OutKept cs_ (execKernel p q s) := by
  unfold execKernel
  try extract_lets
  repeat'
    (first | with_reducible assumption | (with_reducible show Kept _ _; simp -iota -zeta only [memOk_mk])
           | with_reducible apply memsOk_of | with_reducible apply qAct_kept | with_reducible apply qChecked_kept
           | with_reducible apply queueStatus_kept | with_reducible apply setQueue_kept | with_reducible apply ans_done
           | with_reducible apply ans_wait | with_reducible apply out_next | with_reducible intro _ | extract_lets | split
           | dsimp +zetaDelta -iota only)

theorem launch_kept (s : State) (p : Nat) (q : Nat) (index : Nat) (code : List Byte) (arg : Nat) (ledger : Nat) (size : Nat) (n : Nat) (j
    : Nat) (hs : Kept cs_ s) : Kept cs_ (launch s p q index code arg ledger size n j) := by
  unfold launch
  try extract_lets
  repeat'
    (first | with_reducible assumption | (with_reducible show Kept _ _; simp -iota -zeta only [memOk_mk, memsOk_mk])
            | (with_reducible show KeptParts _ _ _ _; simp -iota -zeta only [memsOk_mk]) | with_reducible apply memsOk_of
            | with_reducible apply cellsOk_of | with_reducible apply getD_kept | with_reducible apply blot_kept
            | with_reducible apply setCore_kept | with_reducible apply getD_kept | (refine pair_eq1 ?_ (by with_reducible assumption))
            | (refine pair_eq2 ?_ (by with_reducible assumption)) | (refine ans_done_eq ?_ (by with_reducible assumption))
            | (refine ans_wait_eq ?_ (by with_reducible assumption)) | with_reducible apply ans_done | with_reducible apply ans_wait
            | with_reducible apply ans_held | with_reducible apply out_next | with_reducible intro _ | extract_lets | split
            | dsimp +zetaDelta -iota only)

theorem queueSummary_kept (s : State) (p : Nat) (hs : Kept cs_ s) : Kept cs_ (queueSummary s p) := by
  unfold queueSummary
  try extract_lets
  repeat'
    (first | with_reducible assumption | (with_reducible show Kept _ _; simp -iota -zeta only [memOk_mk, memsOk_mk])
            | (with_reducible show KeptParts _ _ _ _; simp -iota -zeta only [memsOk_mk]) | with_reducible apply memsOk_of
            | with_reducible apply cellsOk_of | with_reducible apply setQueue_kept | (refine pair_eq1 ?_ (by with_reducible assumption))
            | (refine pair_eq2 ?_ (by with_reducible assumption)) | (refine ans_done_eq ?_ (by with_reducible assumption))
            | (refine ans_wait_eq ?_ (by with_reducible assumption)) | with_reducible apply ans_done | with_reducible apply ans_wait
            | with_reducible apply ans_held | with_reducible apply out_next | with_reducible intro _ | extract_lets | split
            | dsimp +zetaDelta -iota only)

theorem startSummary_kept (s : State) (p : Nat) (hs : Kept cs_ s) : Kept cs_ (startSummary s p) := by
  unfold startSummary
  try extract_lets
  repeat'
    (first | with_reducible assumption | (with_reducible show Kept _ _; simp -iota -zeta only [memOk_mk, memsOk_mk])
            | (with_reducible show KeptParts _ _ _ _; simp -iota -zeta only [memsOk_mk]) | with_reducible apply memsOk_of
            | with_reducible apply cellsOk_of | with_reducible apply blot_kept | with_reducible apply setCore_kept
            | with_reducible apply setQueue_kept | with_reducible apply foldl_kept | with_reducible apply foldl_snd2_kept
            | with_reducible apply foldl_fst_kept | with_reducible apply foldl_snd_kept
            | (refine pair_eq1 ?_ (by with_reducible assumption)) | (refine pair_eq2 ?_ (by with_reducible assumption))
            | (refine ans_done_eq ?_ (by with_reducible assumption)) | (refine ans_wait_eq ?_ (by with_reducible assumption))
            | with_reducible apply ans_done | with_reducible apply ans_wait | with_reducible apply ans_held
            | with_reducible apply out_next | with_reducible intro _ | extract_lets | split | dsimp +zetaDelta -iota only)

theorem execKernelStart_kept (p : Nat) (q : Nat) (s : State) (hs : Kept cs_ s) : OutKept cs_ (execKernelStart p q s) := by
  unfold execKernelStart
  try extract_lets
  repeat'
    (first | with_reducible assumption | (with_reducible show Kept _ _; simp -iota -zeta only [memOk_mk, memsOk_mk])
            | (with_reducible show KeptParts _ _ _ _; simp -iota -zeta only [memsOk_mk]) | with_reducible apply memsOk_of
            | with_reducible apply cellsOk_of | with_reducible apply startSummary_kept | with_reducible apply readBytes_kept
            | with_reducible (refine readBytes_kept_eq ?_ (by with_reducible assumption)) | with_reducible apply queueStatus_kept
            | with_reducible apply foldl_kept | with_reducible apply launch_kept | with_reducible apply setQueue_kept
            | with_reducible apply foldl_kept | with_reducible apply foldl_snd2_kept | with_reducible apply foldl_fst_kept
            | with_reducible apply foldl_snd_kept | (refine pair_eq1 ?_ (by with_reducible assumption))
            | (refine pair_eq2 ?_ (by with_reducible assumption)) | (refine ans_done_eq ?_ (by with_reducible assumption))
            | (refine ans_wait_eq ?_ (by with_reducible assumption)) | with_reducible apply ans_done | with_reducible apply ans_wait
            | with_reducible apply ans_held | with_reducible apply out_next | with_reducible intro _ | extract_lets | split
            | dsimp +zetaDelta -iota only)

theorem freeCores_kept (s : State) (cs : List Nat) (hs : Kept cs_ s) : Kept cs_ (freeCores s cs) := by
  unfold freeCores
  try extract_lets
  repeat'
    (first | with_reducible assumption | (with_reducible show Kept _ _; simp -iota -zeta only [memOk_mk])
           | with_reducible apply memsOk_of | with_reducible apply setCore_kept | with_reducible apply foldl_kept
           | with_reducible intro _ | extract_lets | split | dsimp +zetaDelta -iota only)

theorem endSummary_kept (s : State) (p : Nat) (st : Nat) (hs : Kept cs_ s) : Kept cs_ (endSummary s p st) := by
  unfold endSummary
  try extract_lets
  repeat'
    (first | with_reducible assumption | (with_reducible show Kept _ _; simp -iota -zeta only [memOk_mk, memsOk_mk])
            | (with_reducible show KeptParts _ _ _ _; simp -iota -zeta only [memsOk_mk]) | with_reducible apply memsOk_of
            | with_reducible apply cellsOk_of | with_reducible apply queueStatus_kept | with_reducible apply bump_kept
            | with_reducible apply freeCores_kept | with_reducible apply setQueue_kept
            | (refine pair_eq1 ?_ (by with_reducible assumption)) | (refine pair_eq2 ?_ (by with_reducible assumption))
            | (refine ans_done_eq ?_ (by with_reducible assumption)) | (refine ans_wait_eq ?_ (by with_reducible assumption))
            | with_reducible apply ans_done | with_reducible apply ans_wait | with_reducible apply ans_held
            | with_reducible apply out_next | with_reducible intro _ | extract_lets | split | dsimp +zetaDelta -iota only)

theorem execKernelComplete_kept (p : Nat) (q : Nat) (s : State) (hs : Kept cs_ s) : OutKept cs_ (execKernelComplete p q s) := by
  unfold execKernelComplete
  try extract_lets
  repeat'
    (first | with_reducible assumption | (with_reducible show Kept _ _; simp -iota -zeta only [memOk_mk])
           | with_reducible apply memsOk_of | with_reducible apply freeCores_kept | with_reducible apply setQueue_kept
           | with_reducible apply queueStatus_kept | with_reducible apply bump_kept | with_reducible apply ans_done
           | with_reducible apply ans_wait | with_reducible apply out_next | with_reducible intro _ | extract_lets | split
           | dsimp +zetaDelta -iota only)

theorem execCopy_kept (p : Nat) (q : Nat) (s : State) (hs : Kept cs_ s) : OutKept cs_ (execCopy p q s) := by
  unfold execCopy
  try extract_lets
  repeat'
    (first | with_reducible assumption | (with_reducible show Kept _ _; simp -iota -zeta only [memOk_mk, memsOk_mk])
            | (with_reducible show KeptParts _ _ _ _; simp -iota -zeta only [memsOk_mk]) | with_reducible apply memsOk_of
            | with_reducible apply cellsOk_of | with_reducible apply qAct_kept | with_reducible apply qChecked_kept
            | with_reducible apply copyWithin_kept | with_reducible (refine copyWithin_kept_eq ?_ (by with_reducible assumption))
            | with_reducible apply queueStatus_kept | (refine pair_eq1 ?_ (by with_reducible assumption))
            | (refine pair_eq2 ?_ (by with_reducible assumption)) | (refine ans_done_eq ?_ (by with_reducible assumption))
            | (refine ans_wait_eq ?_ (by with_reducible assumption)) | with_reducible apply ans_done | with_reducible apply ans_wait
            | with_reducible apply ans_held | with_reducible apply out_next | with_reducible intro _ | extract_lets | split
            | dsimp +zetaDelta -iota only)

theorem execFoldCopy_kept (p : Nat) (q : Nat) (s : State) (hs : Kept cs_ s) : OutKept cs_ (execFoldCopy p q s) := by
  unfold execFoldCopy
  try extract_lets
  repeat'
    (first | with_reducible assumption | (with_reducible show Kept _ _; simp -iota -zeta only [memOk_mk, memsOk_mk])
            | (with_reducible show KeptParts _ _ _ _; simp -iota -zeta only [memsOk_mk]) | with_reducible apply memsOk_of
            | with_reducible apply cellsOk_of | with_reducible apply qAct_kept | with_reducible apply qChecked_kept
            | with_reducible apply startExpand_kept | with_reducible (refine startExpand_kept_eq ?_ (by with_reducible assumption))
            | with_reducible apply qBegin_kept | (refine pair_eq1 ?_ (by with_reducible assumption))
            | (refine pair_eq2 ?_ (by with_reducible assumption)) | (refine ans_done_eq ?_ (by with_reducible assumption))
            | (refine ans_wait_eq ?_ (by with_reducible assumption)) | with_reducible apply ans_done | with_reducible apply ans_wait
            | with_reducible apply ans_held | with_reducible apply out_next | with_reducible intro _ | extract_lets | split
            | dsimp +zetaDelta -iota only)

theorem execReduce_kept (p : Nat) (q : Nat) (s : State) (hs : Kept cs_ s) : OutKept cs_ (execReduce p q s) := by
  unfold execReduce
  try extract_lets
  repeat'
    (first | with_reducible assumption | (with_reducible show Kept _ _; simp -iota -zeta only [memOk_mk, memsOk_mk])
            | (with_reducible show KeptParts _ _ _ _; simp -iota -zeta only [memsOk_mk]) | with_reducible apply memsOk_of
            | with_reducible apply cellsOk_of | with_reducible apply qAct_kept | with_reducible apply qChecked_kept
            | with_reducible apply arithApply_kept | with_reducible (refine arithApply_kept_eq ?_ (by with_reducible assumption))
            | with_reducible apply queueStatus_kept | with_reducible apply qBegin_kept | with_reducible apply applyWaits_kept
            | (refine pair_eq1 ?_ (by with_reducible assumption)) | (refine pair_eq2 ?_ (by with_reducible assumption))
            | (refine ans_done_eq ?_ (by with_reducible assumption)) | (refine ans_wait_eq ?_ (by with_reducible assumption))
            | with_reducible apply ans_done | with_reducible apply ans_wait | with_reducible apply ans_held
            | with_reducible apply out_next | with_reducible intro _ | extract_lets | split | dsimp +zetaDelta -iota only)

theorem readDescs_kept (rq : Requester) (cls : Nat) (x2 : Nat) (x3 : Nat) (x4 : State) (hx4 : Kept cs_ x4) : Kept cs_
    (readDescs rq cls x2 x3 x4).2 := by
  induction x2 generalizing x4 x3 with
  | zero => (first | with_reducible assumption | (unfold readDescs; with_reducible assumption))
  | succ k ih =>
    unfold readDescs
    try extract_lets
    repeat'
      (first | with_reducible assumption | (with_reducible show Kept _ _; simp -iota -zeta only [memOk_mk])
             | with_reducible apply memsOk_of | with_reducible apply readBytes_kept
             | with_reducible (refine readBytes_kept_eq ?_ (by with_reducible assumption)) | with_reducible apply ih
             | with_reducible intro _ | extract_lets | split | dsimp +zetaDelta -iota only)
theorem readDescs_kept_eq {rq : Requester} {cls : Nat} {x2 : Nat} {x3 : Nat} {x4 : State} {r0 : (Nat × List (List Byte))} {t_ : State}
    (hx4 : Kept cs_ x4) (e_ : readDescs rq cls x2 x3 x4 = (r0, t_)) : Kept cs_ t_ := by
  have := readDescs_kept rq cls x2 x3 x4 hx4
  rwa [e_] at this

theorem execGatherRes_kept (p : Nat) (q : Nat) (s : State) (hs : Kept cs_ s) : OutKept cs_ (execGatherRes p q s) := by
  unfold execGatherRes
  try extract_lets
  repeat'
    (first | with_reducible assumption | (with_reducible show Kept _ _; simp -iota -zeta only [memOk_mk, memsOk_mk])
            | (with_reducible show KeptParts _ _ _ _; simp -iota -zeta only [memsOk_mk]) | with_reducible apply memsOk_of
            | with_reducible apply cellsOk_of | with_reducible apply qAct_kept | with_reducible apply qChecked_kept
            | with_reducible apply readDescs_kept | with_reducible (refine readDescs_kept_eq ?_ (by with_reducible assumption))
            | with_reducible apply queueStatus_kept | with_reducible apply startGather_kept
            | with_reducible (refine startGather_kept_eq ?_ (by with_reducible assumption)) | with_reducible apply qBegin_kept
            | with_reducible apply gatherEnd_kept | (refine pair_eq1 ?_ (by with_reducible assumption))
            | (refine pair_eq2 ?_ (by with_reducible assumption)) | (refine ans_done_eq ?_ (by with_reducible assumption))
            | (refine ans_wait_eq ?_ (by with_reducible assumption)) | with_reducible apply ans_done | with_reducible apply ans_wait
            | with_reducible apply ans_held | with_reducible apply out_next | with_reducible intro _ | extract_lets | split
            | dsimp +zetaDelta -iota only)

theorem execTallySignal_kept (p : Nat) (q : Nat) (s : State) (hs : Kept cs_ s) : OutKept cs_ (execTallySignal p q s) := by
  unfold execTallySignal
  try extract_lets
  repeat'
    (first | with_reducible assumption | (with_reducible show Kept _ _; simp -iota -zeta only [memOk_mk])
           | with_reducible apply memsOk_of | with_reducible apply qAct_kept | with_reducible apply qChecked_kept
           | with_reducible apply queueSignal_kept | with_reducible (refine queueSignal_kept_eq ?_ (by with_reducible assumption))
           | with_reducible apply qBegin_kept | with_reducible apply queueStatus_kept | with_reducible apply ans_done
           | with_reducible apply ans_wait | with_reducible apply out_next | with_reducible intro _ | extract_lets | split
           | dsimp +zetaDelta -iota only)

theorem execTallyWait_kept (p : Nat) (q : Nat) (s : State) (hs : Kept cs_ s) : OutKept cs_ (execTallyWait p q s) := by
  unfold execTallyWait
  try extract_lets
  repeat'
    (first | with_reducible assumption | (with_reducible show Kept _ _; simp -iota -zeta only [memOk_mk])
           | with_reducible apply memsOk_of | with_reducible apply qAct_kept | with_reducible apply qChecked_kept
           | with_reducible apply queueStatus_kept | with_reducible apply blot_kept | with_reducible apply qBegin_kept
           | with_reducible apply endQueueWait_kept | with_reducible apply ans_done | with_reducible apply ans_wait
           | with_reducible apply out_next | with_reducible intro _ | extract_lets | split | dsimp +zetaDelta -iota only)

theorem execTallyWaitTimeout_kept (p : Nat) (q : Nat) (s : State) (hs : Kept cs_ s) : OutKept cs_ (execTallyWaitTimeout p q s) := by
  unfold execTallyWaitTimeout
  try extract_lets
  repeat'
    (first | with_reducible assumption | (with_reducible show Kept _ _; simp -iota -zeta only [memOk_mk])
           | with_reducible apply memsOk_of | with_reducible apply endQueueWait_kept | with_reducible apply ans_done
           | with_reducible apply ans_wait | with_reducible apply out_next | with_reducible intro _ | extract_lets | split
           | dsimp +zetaDelta -iota only)

theorem closeRange_kept (s : State) (p : Nat) (q : Nat) (r : OpenRange) (depth : Nat) (abandoned : Bool) (hs : Kept cs_ s) : Kept cs_
    (closeRange s p q r depth abandoned) := by
  unfold closeRange
  try extract_lets
  repeat'
    (first | with_reducible assumption | (with_reducible show Kept _ _; simp -iota -zeta only [memOk_mk])
           | with_reducible apply memsOk_of | with_reducible apply tracePart_kept | with_reducible intro _ | extract_lets | split
           | dsimp +zetaDelta -iota only)

theorem execMarkBegin_kept (p : Nat) (q : Nat) (s : State) (hs : Kept cs_ s) : OutKept cs_ (execMarkBegin p q s) := by
  unfold execMarkBegin
  try extract_lets
  repeat'
    (first | with_reducible assumption | (with_reducible show Kept _ _; simp -iota -zeta only [memOk_mk])
           | with_reducible apply memsOk_of | with_reducible apply qAct_kept | with_reducible apply qChecked_kept
           | with_reducible apply tracePart_kept | with_reducible apply setQueue_kept | with_reducible apply queueStatus_kept
           | with_reducible apply ans_done | with_reducible apply ans_wait | with_reducible apply out_next | with_reducible intro _
           | extract_lets | split | dsimp +zetaDelta -iota only)

theorem execMarkEnd_kept (p : Nat) (q : Nat) (s : State) (hs : Kept cs_ s) : OutKept cs_ (execMarkEnd p q s) := by
  unfold execMarkEnd
  try extract_lets
  repeat'
    (first | with_reducible assumption | (with_reducible show Kept _ _; simp -iota -zeta only [memOk_mk])
           | with_reducible apply memsOk_of | with_reducible apply qAct_kept | with_reducible apply qChecked_kept
           | with_reducible apply queueStatus_kept | with_reducible apply closeRange_kept | with_reducible apply setQueue_kept
           | with_reducible apply ans_done | with_reducible apply ans_wait | with_reducible apply out_next | with_reducible intro _
           | extract_lets | split | dsimp +zetaDelta -iota only)

theorem appendDescs_kept (s : State) (p : Nat) (q : Nat) (l : Nat) (cls : Nat) (x5 : List (Nat × List Byte)) (x6 : State) (hs
    : Kept cs_ s) (hx6 : Kept cs_ x6) : Kept cs_ (appendDescs s p q l cls x5 x6).2 := by
  fun_induction appendDescs s p q l cls x5 x6
  all_goals try extract_lets
  all_goals repeat'
    (first | with_reducible assumption | (with_reducible show Kept _ _; simp -iota -zeta only [memOk_mk])
           | with_reducible apply memsOk_of | with_reducible apply writeBytes_kept
           | with_reducible (refine writeBytes_kept_eq ?_ (by with_reducible assumption)) | with_reducible apply setLedger_kept
           | with_reducible apply_assumption | with_reducible intro _ | extract_lets | split | dsimp +zetaDelta -iota only)
theorem appendDescs_kept_eq {s : State} {p : Nat} {q : Nat} {l : Nat} {cls : Nat} {x5 : List (Nat × List Byte)} {x6 : State} {r0 : Nat}
    {t_ : State} (hs : Kept cs_ s) (hx6 : Kept cs_ x6) (e_ : appendDescs s p q l cls x5 x6 = (r0, t_)) : Kept cs_ t_ := by
  have := appendDescs_kept s p q l cls x5 x6 hs hx6
  rwa [e_] at this

theorem ledgerFill_kept (s : State) (p : Nat) (q : Nat) (l : Nat) (flags : Nat) (src : Nat) (n : Nat) (cls : Nat) (hs : Kept cs_ s)
    : Kept cs_ (ledgerFill s p q l flags src n cls).2 := by
  unfold ledgerFill
  try extract_lets
  repeat'
    (first | with_reducible assumption | (with_reducible show Kept _ _; simp -iota -zeta only [memOk_mk])
           | with_reducible apply memsOk_of | with_reducible apply setLedger_kept | with_reducible apply readBytes_kept
           | with_reducible (refine readBytes_kept_eq ?_ (by with_reducible assumption)) | with_reducible apply appendDescs_kept
           | with_reducible (refine appendDescs_kept_eq ?_ ?_ (by with_reducible assumption)) | with_reducible apply blot_kept
           | with_reducible intro _ | extract_lets | split | dsimp +zetaDelta -iota only)
theorem ledgerFill_kept_eq {s : State} {p : Nat} {q : Nat} {l : Nat} {flags : Nat} {src : Nat} {n : Nat} {cls : Nat} {r0 : Nat} {t_
    : State} (hs : Kept cs_ s) (e_ : ledgerFill s p q l flags src n cls = (r0, t_)) : Kept cs_ t_ := by
  have := ledgerFill_kept s p q l flags src n cls hs
  rwa [e_] at this

theorem execLedgerFill_kept (p : Nat) (q : Nat) (s : State) (hs : Kept cs_ s) : OutKept cs_ (execLedgerFill p q s) := by
  unfold execLedgerFill
  try extract_lets
  repeat'
    (first | with_reducible assumption | (with_reducible show Kept _ _; simp -iota -zeta only [memOk_mk, memsOk_mk])
            | (with_reducible show KeptParts _ _ _ _; simp -iota -zeta only [memsOk_mk]) | with_reducible apply memsOk_of
            | with_reducible apply cellsOk_of | with_reducible apply qAct_kept | with_reducible apply qChecked_kept
            | with_reducible apply ledgerFill_kept | with_reducible (refine ledgerFill_kept_eq ?_ (by with_reducible assumption))
            | with_reducible apply queueStatus_kept | (refine pair_eq1 ?_ (by with_reducible assumption))
            | (refine pair_eq2 ?_ (by with_reducible assumption)) | (refine ans_done_eq ?_ (by with_reducible assumption))
            | (refine ans_wait_eq ?_ (by with_reducible assumption)) | with_reducible apply ans_done | with_reducible apply ans_wait
            | with_reducible apply ans_held | with_reducible apply out_next | with_reducible intro _ | extract_lets | split
            | dsimp +zetaDelta -iota only)

theorem abandonRanges_kept (s : State) (p : Nat) (q : Nat) (hs : Kept cs_ s) : Kept cs_ (abandonRanges s p q) := by
  unfold abandonRanges
  try extract_lets
  repeat'
    (first | with_reducible assumption | (with_reducible show Kept _ _; simp -iota -zeta only [memOk_mk])
           | with_reducible apply memsOk_of | with_reducible apply closeRange_kept | with_reducible apply foldl_kept
           | with_reducible intro _ | extract_lets | split | dsimp +zetaDelta -iota only)

theorem stopCores_kept (s : State) (p : Nat) (q : Nat) (hs : Kept cs_ s) : Kept cs_ (stopCores s p q) := by
  unfold stopCores
  try extract_lets
  repeat'
    (first | with_reducible assumption | (with_reducible show Kept _ _; simp -iota -zeta only [memOk_mk, memsOk_mk])
            | (with_reducible show KeptParts _ _ _ _; simp -iota -zeta only [memsOk_mk]) | with_reducible apply memsOk_of
            | with_reducible apply cellsOk_of | with_reducible apply setCore_kept | with_reducible apply foldl_kept
            | with_reducible apply foldl_snd2_kept | with_reducible apply foldl_fst_kept | with_reducible apply foldl_snd_kept
            | (refine pair_eq1 ?_ (by with_reducible assumption)) | (refine pair_eq2 ?_ (by with_reducible assumption))
            | (refine ans_done_eq ?_ (by with_reducible assumption)) | (refine ans_wait_eq ?_ (by with_reducible assumption))
            | with_reducible apply ans_done | with_reducible apply ans_wait | with_reducible apply ans_held
            | with_reducible apply out_next | with_reducible intro _ | extract_lets | split | dsimp +zetaDelta -iota only)

theorem orphan_kept (s : State) (p : Nat) (q : Nat) (hs : Kept cs_ s) : Kept cs_ (orphan s p q) := by
  unfold orphan
  try extract_lets
  repeat'
    (first | with_reducible assumption | (with_reducible show Kept _ _; simp -iota -zeta only [memOk_mk])
           | with_reducible apply memsOk_of | with_reducible intro _ | extract_lets | split | dsimp +zetaDelta -iota only)

theorem resetQueue_kept (s : State) (p : Nat) (q : Nat) (hs : Kept cs_ s) : Kept cs_ (resetQueue s p q) := by
  unfold resetQueue
  try extract_lets
  repeat'
    (first | with_reducible assumption | (with_reducible show Kept _ _; simp -iota -zeta only [memOk_mk])
           | with_reducible apply memsOk_of | with_reducible apply orphan_kept | with_reducible apply stopCores_kept
           | with_reducible apply abandonRanges_kept | with_reducible apply setQueue_kept | with_reducible apply finishWait_kept
           | with_reducible intro _ | extract_lets | split | dsimp +zetaDelta -iota only)

theorem execCoreMap_kept (c : Cmd) (s : State) (hs : Kept cs_ s) : OutKept cs_ (execCoreMap c s) := by
  unfold execCoreMap
  try extract_lets
  repeat'
    (first | with_reducible assumption | (with_reducible show Kept _ _; simp -iota -zeta only [memOk_mk])
           | with_reducible apply memsOk_of | with_reducible apply firmware_kept | with_reducible apply reportTo_kept
           | with_reducible apply ans_done | with_reducible apply ans_wait | with_reducible apply out_next | with_reducible intro _
           | extract_lets | split | dsimp +zetaDelta -iota only)

theorem execPartConfig_kept (c : Cmd) (s : State) (hs : Kept cs_ s) : OutKept cs_ (execPartConfig c s) := by
  unfold execPartConfig
  try extract_lets
  repeat'
    (first | with_reducible assumption | (with_reducible show Kept _ _; simp -iota -zeta only [memOk_mk])
           | with_reducible apply memsOk_of | with_reducible apply firmware_kept | with_reducible apply checked_kept
           | with_reducible apply concordUpdate_kept | with_reducible apply setPart_kept | with_reducible apply ans_done
           | with_reducible apply ans_wait | with_reducible apply out_next | with_reducible intro _ | extract_lets | split
           | dsimp +zetaDelta -iota only)

theorem execQuireSubmit_kept (c : Cmd) (s : State) (hs : Kept cs_ s) : OutKept cs_ (execQuireSubmit c s) := by
  unfold execQuireSubmit
  try extract_lets
  repeat'
    (first | with_reducible assumption | (with_reducible show Kept _ _; simp -iota -zeta only [memOk_mk])
           | with_reducible apply memsOk_of | with_reducible apply firmware_kept | with_reducible apply checked_kept
           | with_reducible apply startNext_kept | with_reducible apply setQueue_kept | with_reducible apply ans_done
           | with_reducible apply ans_wait | with_reducible apply out_next | with_reducible intro _ | extract_lets | split
           | dsimp +zetaDelta -iota only)

theorem resumeQueue_kept (s : State) (p : Nat) (q : Nat) (hs : Kept cs_ s) : Kept cs_ (resumeQueue s p q) := by
  unfold resumeQueue
  try extract_lets
  repeat'
    (first | with_reducible assumption | (with_reducible show Kept _ _; simp -iota -zeta only [memOk_mk])
           | with_reducible apply memsOk_of | with_reducible apply startNext_kept | with_reducible apply setQueue_kept
           | with_reducible intro _ | extract_lets | split | dsimp +zetaDelta -iota only)

theorem execQueueControl_kept (c : Cmd) (s : State) (hs : Kept cs_ s) : OutKept cs_ (execQueueControl c s) := by
  unfold execQueueControl
  try extract_lets
  repeat'
    (first | with_reducible assumption | (with_reducible show Kept _ _; simp -iota -zeta only [memOk_mk])
           | with_reducible apply memsOk_of | with_reducible apply firmware_kept | with_reducible apply checked_kept
           | with_reducible apply resumeQueue_kept | with_reducible apply resetQueue_kept | with_reducible apply ans_done
           | with_reducible apply ans_wait | with_reducible apply out_next | with_reducible intro _ | extract_lets | split
           | dsimp +zetaDelta -iota only)

theorem execTallyOp_kept (c : Cmd) (s : State) (hs : Kept cs_ s) : OutKept cs_ (execTallyOp c s) := by
  unfold execTallyOp
  try extract_lets
  repeat'
    (first | with_reducible assumption | (with_reducible show Kept _ _; simp -iota -zeta only [memOk_mk])
           | with_reducible apply memsOk_of | with_reducible apply firmware_kept | with_reducible apply checked_kept
           | with_reducible apply tallySignalAs_kept | with_reducible apply ans_done | with_reducible apply ans_wait
           | with_reducible apply out_next | with_reducible intro _ | extract_lets | split | dsimp +zetaDelta -iota only)

theorem execLedgerConfig_kept (c : Cmd) (s : State) (hs : Kept cs_ s) : OutKept cs_ (execLedgerConfig c s) := by
  unfold execLedgerConfig
  try extract_lets
  repeat'
    (first | with_reducible assumption | (with_reducible show Kept _ _; simp -iota -zeta only [memOk_mk])
           | with_reducible apply memsOk_of | with_reducible apply firmware_kept | with_reducible apply checked_kept
           | with_reducible apply setLedger_kept | with_reducible apply ans_done | with_reducible apply ans_wait
           | with_reducible apply out_next | with_reducible intro _ | extract_lets | split | dsimp +zetaDelta -iota only)

theorem execLedgerQuery_kept (c : Cmd) (s : State) (hs : Kept cs_ s) : OutKept cs_ (execLedgerQuery c s) := by
  unfold execLedgerQuery
  try extract_lets
  repeat'
    (first | with_reducible assumption | (with_reducible show Kept _ _; simp -iota -zeta only [memOk_mk])
           | with_reducible apply memsOk_of | with_reducible apply firmware_kept | with_reducible apply checked_kept
           | with_reducible apply ans_done | with_reducible apply ans_wait | with_reducible apply out_next | with_reducible intro _
           | extract_lets | split | dsimp +zetaDelta -iota only)

theorem execCoreFaultRead_kept (c : Cmd) (s : State) (hs : Kept cs_ s) : OutKept cs_ (execCoreFaultRead c s) := by
  unfold execCoreFaultRead
  try extract_lets
  repeat'
    (first | with_reducible assumption | (with_reducible show Kept _ _; simp -iota -zeta only [memOk_mk])
           | with_reducible apply memsOk_of | with_reducible apply firmware_kept | with_reducible apply checked_kept
           | with_reducible apply reportTo_kept | with_reducible apply ans_done | with_reducible apply ans_wait
           | with_reducible apply out_next | with_reducible intro _ | extract_lets | split | dsimp +zetaDelta -iota only)

end Sys2Proof.Machine
end

