-- ==== Sys2Proof/Laws/KeptColls.lean ====
section
/-! SUPPORT. Every definition of Machine/Colls.lean keeps the queue of waiting commands and the canonical form of both memories. -/
namespace Sys2Proof.Machine
open Sys2Proof
set_option maxHeartbeats 400000
set_option linter.all false
variable {cs_ : List Instr}
theorem setColl_kept (s : State) (c : Coll) (hs : Kept cs_ s) : Kept cs_ (setColl s c) := by
  unfold setColl
  try extract_lets
  repeat'
    (first | with_reducible assumption | (with_reducible show Kept _ _; simp -iota -zeta only [memOk_mk])
           | with_reducible apply memsOk_of | with_reducible intro _ | extract_lets | split | dsimp +zetaDelta -iota only)

theorem modColl_kept (s : State) (id : Nat) (f : Coll → Coll) (hs : Kept cs_ s) : Kept cs_ (modColl s id f) := by
  unfold modColl
  try extract_lets
  repeat'
    (first | with_reducible assumption | (with_reducible show Kept _ _; simp -iota -zeta only [memOk_mk])
           | with_reducible apply memsOk_of | with_reducible intro _ | extract_lets | split | dsimp +zetaDelta -iota only)

theorem dropCollMsgs_kept (s : State) (id : Nat) (hs : Kept cs_ s) : Kept cs_ (dropCollMsgs s id) := by
  unfold dropCollMsgs
  try extract_lets
  repeat'
    (first | with_reducible assumption | (with_reducible show Kept _ _; simp -iota -zeta only [memOk_mk, memsOk_mk])
            | (with_reducible show KeptParts _ _ _ _; simp -iota -zeta only [memsOk_mk]) | with_reducible apply memsOk_of
            | with_reducible apply cellsOk_of | (refine pair_eq1 ?_ (by with_reducible assumption))
            | (refine pair_eq2 ?_ (by with_reducible assumption)) | (refine ans_done_eq ?_ (by with_reducible assumption))
            | (refine ans_wait_eq ?_ (by with_reducible assumption)) | with_reducible apply ans_done | with_reducible apply ans_wait
            | with_reducible apply ans_held | with_reducible apply out_next | with_reducible intro _ | extract_lets | split
            | dsimp +zetaDelta -iota only)

theorem collSignal_kept (s : State) (c : Coll) (hs : Kept cs_ s) : Kept cs_ (collSignal s c) := by
  unfold collSignal
  try extract_lets
  repeat'
    (first | with_reducible assumption | (with_reducible show Kept _ _; simp -iota -zeta only [memOk_mk, memsOk_mk])
            | (with_reducible show KeptParts _ _ _ _; simp -iota -zeta only [memsOk_mk]) | with_reducible apply memsOk_of
            | with_reducible apply cellsOk_of | with_reducible apply tallySignalAs_kept
            | (refine pair_eq1 ?_ (by with_reducible assumption)) | (refine pair_eq2 ?_ (by with_reducible assumption))
            | (refine ans_done_eq ?_ (by with_reducible assumption)) | (refine ans_wait_eq ?_ (by with_reducible assumption))
            | with_reducible apply ans_done | with_reducible apply ans_wait | with_reducible apply ans_held
            | with_reducible apply out_next | with_reducible intro _ | extract_lets | split | dsimp +zetaDelta -iota only)

theorem forgetColl_kept (s : State) (c : Coll) (hs : Kept cs_ s) : Kept cs_ (forgetColl s c) := by
  unfold forgetColl
  try extract_lets
  repeat'
    (first | with_reducible assumption | (with_reducible show Kept _ _; simp -iota -zeta only [memOk_mk])
           | with_reducible apply memsOk_of | with_reducible apply dropCtx_kept | with_reducible intro _ | extract_lets | split
           | dsimp +zetaDelta -iota only)

theorem rememberAbort_kept (s : State) (id : Nat) (status : Nat) (hs : Kept cs_ s) : Kept cs_ (rememberAbort s id status) := by
  unfold rememberAbort
  try extract_lets
  repeat'
    (first | with_reducible assumption | (with_reducible show Kept _ _; simp -iota -zeta only [memOk_mk])
           | with_reducible apply memsOk_of | with_reducible intro _ | extract_lets | split | dsimp +zetaDelta -iota only)

theorem collAbort_kept (s : State) (id : Nat) (status : Nat) (origin : Nat) (received : Bool) (hs : Kept cs_ s) : Kept cs_ (collAbort s id
    status origin received) := by
  unfold collAbort
  try extract_lets
  repeat'
    (first | with_reducible assumption | (with_reducible show Kept _ _; simp -iota -zeta only [memOk_mk, memsOk_mk])
            | (with_reducible show KeptParts _ _ _ _; simp -iota -zeta only [memsOk_mk]) | with_reducible apply memsOk_of
            | with_reducible apply cellsOk_of | with_reducible apply rememberAbort_kept | with_reducible apply forgetColl_kept
            | with_reducible apply dropCollMsgs_kept | with_reducible apply floodOwn_kept | with_reducible apply post_kept
            | with_reducible apply collSignal_kept | with_reducible apply finishWait_kept
            | (refine pair_eq1 ?_ (by with_reducible assumption)) | (refine pair_eq2 ?_ (by with_reducible assumption))
            | (refine ans_done_eq ?_ (by with_reducible assumption)) | (refine ans_wait_eq ?_ (by with_reducible assumption))
            | with_reducible apply ans_done | with_reducible apply ans_wait | with_reducible apply ans_held
            | with_reducible apply out_next | with_reducible intro _ | extract_lets | split | dsimp +zetaDelta -iota only)

theorem collFail_kept (s : State) (id : Nat) (status : Nat) (hs : Kept cs_ s) : Kept cs_ (collFail s id status) := by
  unfold collFail
  try extract_lets
  repeat'
    (first | with_reducible assumption | (with_reducible show Kept _ _; simp -iota -zeta only [memOk_mk])
           | with_reducible apply memsOk_of | with_reducible apply collAbort_kept | with_reducible intro _ | extract_lets | split
           | dsimp +zetaDelta -iota only)

theorem collFinish_kept (s : State) (id : Nat) (hs : Kept cs_ s) : Kept cs_ (collFinish s id) := by
  unfold collFinish
  try extract_lets
  repeat'
    (first | with_reducible assumption | (with_reducible show Kept _ _; simp -iota -zeta only [memOk_mk, memsOk_mk])
            | (with_reducible show KeptParts _ _ _ _; simp -iota -zeta only [memsOk_mk]) | with_reducible apply memsOk_of
            | with_reducible apply cellsOk_of | with_reducible apply collSignal_kept | with_reducible apply finishWait_kept
            | with_reducible apply forgetColl_kept | (refine pair_eq1 ?_ (by with_reducible assumption))
            | (refine pair_eq2 ?_ (by with_reducible assumption)) | (refine ans_done_eq ?_ (by with_reducible assumption))
            | (refine ans_wait_eq ?_ (by with_reducible assumption)) | with_reducible apply ans_done | with_reducible apply ans_wait
            | with_reducible apply ans_held | with_reducible apply out_next | with_reducible intro _ | extract_lets | split
            | dsimp +zetaDelta -iota only)

theorem collSent_kept (s : State) (id : Nat) (st : Nat) (poison : Bool) (hs : Kept cs_ s) : Kept cs_ (collSent s id st poison).2 := by
  unfold collSent
  try extract_lets
  repeat'
    (first | with_reducible assumption | (with_reducible show Kept _ _; simp -iota -zeta only [memOk_mk])
           | with_reducible apply memsOk_of | with_reducible apply modColl_kept | with_reducible intro _ | extract_lets | split
           | dsimp +zetaDelta -iota only)
theorem collSent_kept_eq {s : State} {id : Nat} {st : Nat} {poison : Bool} {r0 : Nat} {t_ : State} (hs : Kept cs_ s) (e_
    : collSent s id st poison = (r0, t_)) : Kept cs_ t_ := by
  have := collSent_kept s id st poison hs
  rwa [e_] at this

theorem collWrites_kept (s : State) (c : Coll) (dest : Nat) (dpa : Nat) (l : List (List Byte × Bool)) (hs : Kept cs_ s) : Kept cs_
    (collWrites s c dest dpa l).2 := by
  unfold collWrites
  try extract_lets
  repeat'
    (first | with_reducible assumption | (with_reducible show Kept _ _; simp -iota -zeta only [memOk_mk, memsOk_mk])
           | (with_reducible show KeptParts _ _ _ _; simp -iota -zeta only [memsOk_mk]) | with_reducible apply memsOk_of
           | with_reducible apply cellsOk_of | with_reducible apply requestPeer_kept
           | with_reducible (refine requestPeer_kept_eq ?_ (by with_reducible assumption)) | with_reducible apply collSent_kept
           | with_reducible (refine collSent_kept_eq ?_ (by with_reducible assumption)) | with_reducible apply foldl_kept
           | with_reducible apply foldl_snd2_kept | with_reducible apply foldl_fst_kept | with_reducible apply foldl_snd_kept
           | with_reducible apply getD_kept | (refine pair_eq1 ?_ (by with_reducible assumption))
           | (refine pair_eq2 ?_ (by with_reducible assumption)) | (refine ans_done_eq ?_ (by with_reducible assumption))
           | (refine ans_wait_eq ?_ (by with_reducible assumption)) | with_reducible apply ans_done | with_reducible apply ans_wait
           | with_reducible apply out_next | with_reducible intro _ | extract_lets | split | dsimp +zetaDelta -iota only)
theorem collWrites_kept_eq {s : State} {c : Coll} {dest : Nat} {dpa : Nat} {l : List (List Byte × Bool)} {r0 : Nat} {t_ : State} (hs
    : Kept cs_ s) (e_ : collWrites s c dest dpa l = (r0, t_)) : Kept cs_ t_ := by
  have := collWrites_kept s c dest dpa l hs
  rwa [e_] at this

theorem collContrib_kept (s : State) (c : Coll) (b : Nat) (r : Nat) (order : Bool → Option (Nat × Nat)) (l : List (List Byte × Bool)) (hs
    : Kept cs_ s) : Kept cs_ (collContrib s c b r order l).2 := by
  unfold collContrib
  try extract_lets
  repeat'
    (first | with_reducible assumption | (with_reducible show Kept _ _; simp -iota -zeta only [memOk_mk, memsOk_mk])
            | (with_reducible show KeptParts _ _ _ _; simp -iota -zeta only [memsOk_mk]) | with_reducible apply memsOk_of
            | with_reducible apply cellsOk_of | with_reducible apply foldl_kept | with_reducible apply contribute_kept
            | with_reducible (refine contribute_kept_eq ?_ (by with_reducible assumption)) | with_reducible apply modColl_kept
            | with_reducible apply contribPeer_kept | with_reducible (refine contribPeer_kept_eq ?_ (by with_reducible assumption))
            | with_reducible apply collSent_kept | with_reducible (refine collSent_kept_eq ?_ (by with_reducible assumption))
            | with_reducible apply foldl_kept | with_reducible apply foldl_snd2_kept | with_reducible apply foldl_fst_kept
            | with_reducible apply foldl_snd_kept | with_reducible apply getD_kept | (refine pair_eq1 ?_ (by with_reducible assumption))
            | (refine pair_eq2 ?_ (by with_reducible assumption)) | (refine ans_done_eq ?_ (by with_reducible assumption))
            | (refine ans_wait_eq ?_ (by with_reducible assumption)) | with_reducible apply ans_done | with_reducible apply ans_wait
            | with_reducible apply ans_held | with_reducible apply out_next | with_reducible intro _ | extract_lets | split
            | dsimp +zetaDelta -iota only)
theorem collContrib_kept_eq {s : State} {c : Coll} {b : Nat} {r : Nat} {order : Bool → Option (Nat × Nat)} {l : List (List Byte × Bool)}
    {r0 : Nat} {t_ : State} (hs : Kept cs_ s) (e_ : collContrib s c b r order l = (r0, t_)) : Kept cs_ t_ := by
  have := collContrib_kept s c b r order l hs
  rwa [e_] at this

theorem collShard_kept (s : State) (c : Coll) (b : Nat) (r : Nat) (hs : Kept cs_ s) : Kept cs_ (collShard s c b r).2 := by
  unfold collShard
  try extract_lets
  repeat'
    (first | with_reducible assumption | (with_reducible show Kept _ _; simp -iota -zeta only [memOk_mk, memsOk_mk])
            | (with_reducible show KeptParts _ _ _ _; simp -iota -zeta only [memsOk_mk]) | with_reducible apply memsOk_of
            | with_reducible apply cellsOk_of | with_reducible apply foldl_kept | with_reducible apply readGranules_kept
            | with_reducible (refine readGranules_kept_eq ?_ (by with_reducible assumption)) | with_reducible apply collContrib_kept
            | with_reducible (refine collContrib_kept_eq ?_ (by with_reducible assumption)) | with_reducible apply foldl_kept
            | with_reducible apply foldl_snd2_kept | with_reducible apply foldl_fst_kept | with_reducible apply foldl_snd_kept
            | with_reducible apply getD_kept | (refine pair_eq1 ?_ (by with_reducible assumption))
            | (refine pair_eq2 ?_ (by with_reducible assumption)) | (refine ans_done_eq ?_ (by with_reducible assumption))
            | (refine ans_wait_eq ?_ (by with_reducible assumption)) | with_reducible apply ans_done | with_reducible apply ans_wait
            | with_reducible apply ans_held | with_reducible apply out_next | with_reducible intro _ | extract_lets | split
            | dsimp +zetaDelta -iota only)
theorem collShard_kept_eq {s : State} {c : Coll} {b : Nat} {r : Nat} {r0 : Nat} {t_ : State} (hs : Kept cs_ s) (e_ : collShard s c b r =
    (r0, t_)) : Kept cs_ t_ := by
  have := collShard_kept s c b r hs
  rwa [e_] at this

theorem collPartial_kept (s : State) (c : Coll) (b : Nat) (r : Nat) (hs : Kept cs_ s) : Kept cs_ (collPartial s c b r).2 := by
  unfold collPartial
  try extract_lets
  repeat'
    (first | with_reducible assumption | (with_reducible show Kept _ _; simp -iota -zeta only [memOk_mk, memsOk_mk])
            | (with_reducible show KeptParts _ _ _ _; simp -iota -zeta only [memsOk_mk]) | with_reducible apply memsOk_of
            | with_reducible apply cellsOk_of | with_reducible apply readGranules_kept
            | with_reducible (refine readGranules_kept_eq ?_ (by with_reducible assumption)) | with_reducible apply collContrib_kept
            | with_reducible (refine collContrib_kept_eq ?_ (by with_reducible assumption))
            | (refine pair_eq1 ?_ (by with_reducible assumption)) | (refine pair_eq2 ?_ (by with_reducible assumption))
            | (refine ans_done_eq ?_ (by with_reducible assumption)) | (refine ans_wait_eq ?_ (by with_reducible assumption))
            | with_reducible apply ans_done | with_reducible apply ans_wait | with_reducible apply ans_held
            | with_reducible apply out_next | with_reducible intro _ | extract_lets | split | dsimp +zetaDelta -iota only)
theorem collPartial_kept_eq {s : State} {c : Coll} {b : Nat} {r : Nat} {r0 : Nat} {t_ : State} (hs : Kept cs_ s) (e_ : collPartial s c b r
    = (r0, t_)) : Kept cs_ t_ := by
  have := collPartial_kept s c b r hs
  rwa [e_] at this

theorem collCopy_kept (s : State) (c : Coll) (r : Nat) (src : Nat) (dst : Nat) (len : Nat) (hs : Kept cs_ s) : Kept cs_ (collCopy s c r
    src dst len).2 := by
  unfold collCopy
  try extract_lets
  repeat'
    (first | with_reducible assumption | (with_reducible show Kept _ _; simp -iota -zeta only [memOk_mk, memsOk_mk])
            | (with_reducible show KeptParts _ _ _ _; simp -iota -zeta only [memsOk_mk]) | with_reducible apply memsOk_of
            | with_reducible apply cellsOk_of | with_reducible apply readGranules_kept
            | with_reducible (refine readGranules_kept_eq ?_ (by with_reducible assumption)) | with_reducible apply collWrites_kept
            | with_reducible (refine collWrites_kept_eq ?_ (by with_reducible assumption)) | with_reducible apply getD_kept
            | (refine pair_eq1 ?_ (by with_reducible assumption)) | (refine pair_eq2 ?_ (by with_reducible assumption))
            | (refine ans_done_eq ?_ (by with_reducible assumption)) | (refine ans_wait_eq ?_ (by with_reducible assumption))
            | with_reducible apply ans_done | with_reducible apply ans_wait | with_reducible apply ans_held
            | with_reducible apply out_next | with_reducible intro _ | extract_lets | split | dsimp +zetaDelta -iota only)
theorem collCopy_kept_eq {s : State} {c : Coll} {r : Nat} {src : Nat} {dst : Nat} {len : Nat} {r0 : Nat} {t_ : State} (hs : Kept cs_ s)
    (e_ : collCopy s c r src dst len = (r0, t_)) : Kept cs_ t_ := by
  have := collCopy_kept s c r src dst len hs
  rwa [e_] at this

theorem collFirst_kept (s : State) (c : Coll) (t : Nat × Nat) (hs : Kept cs_ s) : Kept cs_ (collFirst s c t).2 := by
  unfold collFirst
  try extract_lets
  repeat'
    (first | with_reducible assumption | (with_reducible show Kept _ _; simp -iota -zeta only [memOk_mk, memsOk_mk])
            | (with_reducible show KeptParts _ _ _ _; simp -iota -zeta only [memsOk_mk]) | with_reducible apply memsOk_of
            | with_reducible apply cellsOk_of | with_reducible apply collPartial_kept
            | with_reducible (refine collPartial_kept_eq ?_ (by with_reducible assumption)) | with_reducible apply collShard_kept
            | with_reducible (refine collShard_kept_eq ?_ (by with_reducible assumption)) | with_reducible apply collCopy_kept
            | with_reducible (refine collCopy_kept_eq ?_ (by with_reducible assumption))
            | (refine pair_eq1 ?_ (by with_reducible assumption)) | (refine pair_eq2 ?_ (by with_reducible assumption))
            | (refine ans_done_eq ?_ (by with_reducible assumption)) | (refine ans_wait_eq ?_ (by with_reducible assumption))
            | with_reducible apply ans_done | with_reducible apply ans_wait | with_reducible apply ans_held
            | with_reducible apply out_next | with_reducible intro _ | extract_lets | split | dsimp +zetaDelta -iota only)
theorem collFirst_kept_eq {s : State} {c : Coll} {t : Nat × Nat} {r0 : Nat} {t_ : State} (hs : Kept cs_ s) (e_ : collFirst s c t = (r0,
    t_)) : Kept cs_ t_ := by
  have := collFirst_kept s c t hs
  rwa [e_] at this

theorem collGather_kept (s : State) (c : Coll) (t : Nat × Nat) (hs : Kept cs_ s) : Kept cs_ (collGather s c t).2 := by
  unfold collGather
  try extract_lets
  repeat'
    (first | with_reducible assumption | (with_reducible show Kept _ _; simp -iota -zeta only [memOk_mk, memsOk_mk])
            | (with_reducible show KeptParts _ _ _ _; simp -iota -zeta only [memsOk_mk]) | with_reducible apply memsOk_of
            | with_reducible apply cellsOk_of | with_reducible apply collCopy_kept
            | with_reducible (refine collCopy_kept_eq ?_ (by with_reducible assumption))
            | (refine pair_eq1 ?_ (by with_reducible assumption)) | (refine pair_eq2 ?_ (by with_reducible assumption))
            | (refine ans_done_eq ?_ (by with_reducible assumption)) | (refine ans_wait_eq ?_ (by with_reducible assumption))
            | with_reducible apply ans_done | with_reducible apply ans_wait | with_reducible apply ans_held
            | with_reducible apply out_next | with_reducible intro _ | extract_lets | split | dsimp +zetaDelta -iota only)
theorem collGather_kept_eq {s : State} {c : Coll} {t : Nat × Nat} {r0 : Nat} {t_ : State} (hs : Kept cs_ s) (e_ : collGather s c t = (r0,
    t_)) : Kept cs_ t_ := by
  have := collGather_kept s c t hs
  rwa [e_] at this

theorem sendTasks_kept (f : State → Coll → Nat × Nat → Nat × State) (mark : Coll → Nat × Nat → Coll) (id : Nat) (x3 : List (Nat × Nat))
    (x4 : State) (hf : ∀ (y0 : State) (y1 : Coll) (y2 : Nat × Nat), Kept cs_ y0 → Kept cs_ (f y0 y1 y2).2) (hx4 : Kept cs_ x4) : Kept cs_
    (sendTasks f mark id x3 x4) := by
  fun_induction sendTasks f mark id x3 x4
  all_goals try extract_lets
  all_goals repeat'
    (first | with_reducible assumption | (with_reducible show Kept _ _; simp -iota -zeta only [memOk_mk, memsOk_mk])
            | (with_reducible show KeptParts _ _ _ _; simp -iota -zeta only [memsOk_mk]) | with_reducible apply memsOk_of
            | with_reducible apply cellsOk_of | with_reducible apply modColl_kept | with_reducible apply collFail_kept
            | with_reducible apply hf | (refine pair_eq1 ?_ (by with_reducible assumption))
            | (refine pair_eq2 ?_ (by with_reducible assumption)) | (refine ans_done_eq ?_ (by with_reducible assumption))
            | (refine ans_wait_eq ?_ (by with_reducible assumption)) | with_reducible apply ans_done | with_reducible apply ans_wait
            | with_reducible apply ans_held | with_reducible apply out_next | with_reducible apply_assumption | with_reducible intro _
            | extract_lets | split | dsimp +zetaDelta -iota only)

theorem collPush_kept (s : State) (id : Nat) (hs : Kept cs_ s) : Kept cs_ (collPush s id) := by
  unfold collPush
  try extract_lets
  repeat'
    (first | with_reducible assumption | (with_reducible show Kept _ _; simp -iota -zeta only [memOk_mk, memsOk_mk])
            | (with_reducible show KeptParts _ _ _ _; simp -iota -zeta only [memsOk_mk]) | with_reducible apply memsOk_of
            | with_reducible apply cellsOk_of | with_reducible apply sendTasks_kept | with_reducible apply collFirst_kept
            | with_reducible (refine collFirst_kept_eq ?_ (by with_reducible assumption)) | with_reducible apply modColl_kept
            | with_reducible apply collGather_kept | with_reducible (refine collGather_kept_eq ?_ (by with_reducible assumption))
            | with_reducible apply collFinish_kept | (refine pair_eq1 ?_ (by with_reducible assumption))
            | (refine pair_eq2 ?_ (by with_reducible assumption)) | (refine ans_done_eq ?_ (by with_reducible assumption))
            | (refine ans_wait_eq ?_ (by with_reducible assumption)) | with_reducible apply ans_done | with_reducible apply ans_wait
            | with_reducible apply ans_held | with_reducible apply out_next | with_reducible intro _ | extract_lets | split
            | dsimp +zetaDelta -iota only)

theorem pushAll_kept (s : State) (hs : Kept cs_ s) : Kept cs_ (pushAll s) := by
  unfold pushAll
  try extract_lets
  repeat'
    (first | with_reducible assumption | (with_reducible show Kept _ _; simp -iota -zeta only [memOk_mk])
           | with_reducible apply memsOk_of | with_reducible apply collPush_kept | with_reducible apply foldl_kept
           | with_reducible intro _ | extract_lets | split | dsimp +zetaDelta -iota only)

theorem collPrepare_kept (s : State) (c : Coll) (hs : Kept cs_ s) : Kept cs_ (collPrepare s c).2 := by
  unfold collPrepare
  try extract_lets
  repeat'
    (first | with_reducible assumption | (with_reducible show Kept _ _; simp -iota -zeta only [memOk_mk, memsOk_mk])
            | (with_reducible show KeptParts _ _ _ _; simp -iota -zeta only [memsOk_mk]) | with_reducible apply memsOk_of
            | with_reducible apply cellsOk_of | with_reducible apply openCtx_kept
            | with_reducible (refine openCtx_kept_eq ?_ (by with_reducible assumption)) | with_reducible apply modColl_kept
            | with_reducible apply foldl_kept | with_reducible apply writeBytes_kept
            | with_reducible (refine writeBytes_kept_eq ?_ (by with_reducible assumption)) | with_reducible apply foldl_kept
            | with_reducible apply foldl_snd2_kept | with_reducible apply foldl_fst_kept | with_reducible apply foldl_snd_kept
            | (refine pair_eq1 ?_ (by with_reducible assumption)) | (refine pair_eq2 ?_ (by with_reducible assumption))
            | (refine ans_done_eq ?_ (by with_reducible assumption)) | (refine ans_wait_eq ?_ (by with_reducible assumption))
            | with_reducible apply ans_done | with_reducible apply ans_wait | with_reducible apply ans_held
            | with_reducible apply out_next | with_reducible intro _ | extract_lets | split | dsimp +zetaDelta -iota only)
theorem collPrepare_kept_eq {s : State} {c : Coll} {r0 : Nat} {t_ : State} (hs : Kept cs_ s) (e_ : collPrepare s c = (r0, t_)) : Kept cs_
    t_ := by
  have := collPrepare_kept s c hs
  rwa [e_] at this

theorem collOwn_kept (s : State) (c : Coll) (hs : Kept cs_ s) : Kept cs_ (collOwn s c).2 := by
  unfold collOwn
  try extract_lets
  repeat'
    (first | with_reducible assumption | (with_reducible show Kept _ _; simp -iota -zeta only [memOk_mk, memsOk_mk])
            | (with_reducible show KeptParts _ _ _ _; simp -iota -zeta only [memsOk_mk]) | with_reducible apply memsOk_of
            | with_reducible apply cellsOk_of | with_reducible apply foldl_kept | with_reducible apply collShard_kept
            | with_reducible (refine collShard_kept_eq ?_ (by with_reducible assumption)) | with_reducible apply copyWithin_kept
            | with_reducible (refine copyWithin_kept_eq ?_ (by with_reducible assumption)) | with_reducible apply foldl_kept
            | with_reducible apply foldl_snd2_kept | with_reducible apply foldl_fst_kept | with_reducible apply foldl_snd_kept
            | (refine pair_eq1 ?_ (by with_reducible assumption)) | (refine pair_eq2 ?_ (by with_reducible assumption))
            | (refine ans_done_eq ?_ (by with_reducible assumption)) | (refine ans_wait_eq ?_ (by with_reducible assumption))
            | with_reducible apply ans_done | with_reducible apply ans_wait | with_reducible apply ans_held
            | with_reducible apply out_next | with_reducible intro _ | extract_lets | split | dsimp +zetaDelta -iota only)
theorem collOwn_kept_eq {s : State} {c : Coll} {r0 : Nat} {t_ : State} (hs : Kept cs_ s) (e_ : collOwn s c = (r0, t_)) : Kept cs_ t_ := by
  have := collOwn_kept s c hs
  rwa [e_] at this

theorem announceReady_kept (s : State) (c : Coll) (hs : Kept cs_ s) : Kept cs_ (announceReady s c) := by
  unfold announceReady
  try extract_lets
  repeat'
    (first | with_reducible assumption | (with_reducible show Kept _ _; simp -iota -zeta only [memOk_mk])
           | with_reducible apply memsOk_of | with_reducible apply modColl_kept | with_reducible apply floodOwn_kept
           | with_reducible intro _ | extract_lets | split | dsimp +zetaDelta -iota only)

theorem collBegin_kept (s : State) (id : Nat) (hs : Kept cs_ s) : Kept cs_ (collBegin s id) := by
  unfold collBegin
  try extract_lets
  repeat'
    (first | with_reducible assumption | (with_reducible show Kept _ _; simp -iota -zeta only [memOk_mk])
           | with_reducible apply memsOk_of | with_reducible apply setColl_kept | with_reducible apply collPrepare_kept
           | with_reducible (refine collPrepare_kept_eq ?_ (by with_reducible assumption)) | with_reducible apply collFail_kept
           | with_reducible apply announceReady_kept | with_reducible apply collOwn_kept
           | with_reducible (refine collOwn_kept_eq ?_ (by with_reducible assumption)) | with_reducible apply collPush_kept
           | with_reducible intro _ | extract_lets | split | dsimp +zetaDelta -iota only)

theorem execCollectiveBegin_kept (id : Nat) (s : State) (hs : Kept cs_ s) : OutKept cs_ (execCollectiveBegin id s) := by
  unfold execCollectiveBegin
  try extract_lets
  repeat'
    (first | with_reducible assumption | (with_reducible show Kept _ _; simp -iota -zeta only [memOk_mk])
           | with_reducible apply memsOk_of | with_reducible apply collBegin_kept | with_reducible apply ans_done
           | with_reducible apply ans_wait | with_reducible apply out_next | with_reducible intro _ | extract_lets | split
           | dsimp +zetaDelta -iota only)

theorem execCollTimeout_kept (id : Nat) (s : State) (hs : Kept cs_ s) : OutKept cs_ (execCollTimeout id s) := by
  unfold execCollTimeout
  try extract_lets
  repeat'
    (first | with_reducible assumption | (with_reducible show Kept _ _; simp -iota -zeta only [memOk_mk])
           | with_reducible apply memsOk_of | with_reducible apply collFail_kept | with_reducible apply ans_done
           | with_reducible apply ans_wait | with_reducible apply out_next | with_reducible intro _ | extract_lets | split
           | dsimp +zetaDelta -iota only)

theorem collProgress_kept (s : State) (id : Nat) (hs : Kept cs_ s) : Kept cs_ (collProgress s id) := by
  unfold collProgress
  try extract_lets
  repeat'
    (first | with_reducible assumption | (with_reducible show Kept _ _; simp -iota -zeta only [memOk_mk])
           | with_reducible apply memsOk_of | with_reducible apply modColl_kept | with_reducible intro _ | extract_lets | split
           | dsimp +zetaDelta -iota only)

theorem collAnswer_kept (s : State) (id : Nat) (st : Nat) (hs : Kept cs_ s) : Kept cs_ (collAnswer s id st) := by
  unfold collAnswer
  try extract_lets
  repeat'
    (first | with_reducible assumption | (with_reducible show Kept _ _; simp -iota -zeta only [memOk_mk])
           | with_reducible apply memsOk_of | with_reducible apply modColl_kept | with_reducible apply collProgress_kept
           | with_reducible apply collFail_kept | with_reducible apply collFinish_kept | with_reducible intro _ | extract_lets | split
           | dsimp +zetaDelta -iota only)

theorem execCollStart_kept (c : Cmd) (s : State) (hs : Kept cs_ s) : OutKept cs_ (execCollStart c s) := by
  unfold execCollStart
  try extract_lets
  repeat'
    (first | with_reducible assumption | (with_reducible show Kept _ _; simp -iota -zeta only [memOk_mk, memsOk_mk])
            | (with_reducible show KeptParts _ _ _ _; simp -iota -zeta only [memsOk_mk]) | with_reducible apply memsOk_of
            | with_reducible apply cellsOk_of | with_reducible apply firmware_kept | with_reducible apply collSignal_kept
            | with_reducible apply checked_kept | with_reducible apply collFail_kept | (refine pair_eq1 ?_ (by with_reducible assumption))
            | (refine pair_eq2 ?_ (by with_reducible assumption)) | (refine ans_done_eq ?_ (by with_reducible assumption))
            | (refine ans_wait_eq ?_ (by with_reducible assumption)) | with_reducible apply ans_done | with_reducible apply ans_wait
            | with_reducible apply ans_held | with_reducible apply out_next | with_reducible intro _ | extract_lets | split
            | dsimp +zetaDelta -iota only)

theorem execCollAbort_kept (c : Cmd) (s : State) (hs : Kept cs_ s) : OutKept cs_ (execCollAbort c s) := by
  unfold execCollAbort
  try extract_lets
  repeat'
    (first | with_reducible assumption | (with_reducible show Kept _ _; simp -iota -zeta only [memOk_mk])
           | with_reducible apply memsOk_of | with_reducible apply firmware_kept | with_reducible apply checked_kept
           | with_reducible apply collFail_kept | with_reducible apply ans_done | with_reducible apply ans_wait
           | with_reducible apply out_next | with_reducible intro _ | extract_lets | split | dsimp +zetaDelta -iota only)

end Sys2Proof.Machine
end

