-- ==== Sys2Proof/Laws/KeptLinkState.lean ====
section
/-! SUPPORT. Every definition of Machine/LinkState.lean keeps the queue of waiting commands and the canonical form of both memories. -/
namespace Sys2Proof.Machine
open Sys2Proof
set_option maxHeartbeats 400000
set_option linter.all false
variable {cs_ : List Instr}
theorem coreAnswered_kept (s : State) (n : Nat) (st : Nat) (addr : Nat) (hs : Kept cs_ s) : Kept cs_ (coreAnswered s n st addr) := by
  unfold coreAnswered
  try extract_lets
  repeat'
    (first | with_reducible assumption | (with_reducible show Kept _ _; simp -iota -zeta only [memOk_mk, memsOk_mk])
            | (with_reducible show KeptParts _ _ _ _; simp -iota -zeta only [memsOk_mk]) | with_reducible apply memsOk_of
            | with_reducible apply cellsOk_of | with_reducible apply coreSettle_kept | with_reducible apply fabricFault_kept
            | (refine pair_eq1 ?_ (by with_reducible assumption)) | (refine pair_eq2 ?_ (by with_reducible assumption))
            | (refine ans_done_eq ?_ (by with_reducible assumption)) | (refine ans_wait_eq ?_ (by with_reducible assumption))
            | with_reducible apply ans_done | with_reducible apply ans_wait | with_reducible apply ans_held
            | with_reducible apply out_next | with_reducible intro _ | extract_lets | split | dsimp +zetaDelta -iota only)

theorem remoteDone_kept (s0 : State) (r : Remote) (st : Nat) (hs0 : Kept cs_ s0) : Kept cs_ (remoteDone s0 r st) := by
  unfold remoteDone
  try extract_lets
  repeat'
    (first | with_reducible assumption | (with_reducible show Kept _ _; simp -iota -zeta only [memOk_mk])
           | with_reducible apply memsOk_of | with_reducible apply collAnswer_kept | with_reducible apply coreAnswered_kept
           | with_reducible apply queueStatus_kept | with_reducible intro _ | extract_lets | split | dsimp +zetaDelta -iota only)

theorem answerMsg_kept (s : State) (m : Msg) (op : Nat) (fields : List Byte) (data : List (List Byte)) (poison : BitVec 3) (hs : Kept cs_
    s) : Kept cs_ (answerMsg s m op fields data poison) := by
  unfold answerMsg
  try extract_lets
  repeat'
    (first | with_reducible assumption | (with_reducible show Kept _ _; simp -iota -zeta only [memOk_mk, memsOk_mk])
            | (with_reducible show KeptParts _ _ _ _; simp -iota -zeta only [memsOk_mk]) | with_reducible apply memsOk_of
            | with_reducible apply cellsOk_of | with_reducible (refine sendRouted_kept_eq ?_ (by with_reducible assumption))
            | with_reducible apply getD_kept | with_reducible apply getD_kept | (refine pair_eq1 ?_ (by with_reducible assumption))
            | (refine pair_eq2 ?_ (by with_reducible assumption)) | (refine ans_done_eq ?_ (by with_reducible assumption))
            | (refine ans_wait_eq ?_ (by with_reducible assumption)) | with_reducible apply ans_done | with_reducible apply ans_wait
            | with_reducible apply ans_held | with_reducible apply out_next | with_reducible intro _ | extract_lets | split
            | dsimp +zetaDelta -iota only)

theorem answerCompl_kept (s : State) (m : Msg) (st : Nat) (hs : Kept cs_ s) : Kept cs_ (answerCompl s m st) := by
  unfold answerCompl
  try extract_lets
  repeat'
    (first | with_reducible assumption | (with_reducible show Kept _ _; simp -iota -zeta only [memOk_mk])
           | with_reducible apply memsOk_of | with_reducible apply answerMsg_kept | with_reducible intro _ | extract_lets | split
           | dsimp +zetaDelta -iota only)

theorem strand_kept (s : State) (m : Msg) (st : Nat) (hs : Kept cs_ s) : Kept cs_ (strand s m st) := by
  unfold strand
  try extract_lets
  repeat'
    (first | with_reducible assumption | (with_reducible show Kept _ _; simp -iota -zeta only [memOk_mk])
           | with_reducible apply memsOk_of | with_reducible apply remoteDone_kept | with_reducible apply answerCompl_kept
           | with_reducible intro _ | extract_lets | split | dsimp +zetaDelta -iota only)

theorem rejoinCheck_kept (s : State) (hs : Kept cs_ s) : Kept cs_ (rejoinCheck s) := by
  unfold rejoinCheck
  try extract_lets
  repeat'
    (first | with_reducible assumption | (with_reducible show Kept _ _; simp -iota -zeta only [memOk_mk])
           | with_reducible apply memsOk_of | with_reducible apply finishWait_kept | with_reducible apply foldl_kept
           | with_reducible intro _ | extract_lets | split | dsimp +zetaDelta -iota only)

theorem leaveFor_kept (s : State) (l : Nat) (st : Nat) (reason : Nat) (status : Nat) (keep : Msg → Bool) (hs : Kept cs_ s) : Kept cs_
    (leaveFor s l st reason status keep) := by
  unfold leaveFor
  try extract_lets
  repeat'
    (first | with_reducible assumption | (with_reducible show Kept _ _; simp -iota -zeta only [memOk_mk])
           | with_reducible apply memsOk_of | with_reducible apply linkMove_kept | with_reducible apply setLink_kept
           | with_reducible apply rejoinCheck_kept | with_reducible apply strand_kept | with_reducible apply foldl_kept
           | with_reducible intro _ | extract_lets | split | dsimp +zetaDelta -iota only)

theorem dropLink_kept (s : State) (l : Nat) (st : Nat) (reason : Nat) (status : Nat) (hs : Kept cs_ s) : Kept cs_
    (dropLink s l st reason status) := by
  unfold dropLink
  try extract_lets
  repeat'
    (first | with_reducible assumption | (with_reducible show Kept _ _; simp -iota -zeta only [memOk_mk])
           | with_reducible apply memsOk_of | with_reducible apply leaveFor_kept | with_reducible apply implicitRelease_kept
           | with_reducible apply setLink_kept | with_reducible intro _ | extract_lets | split | dsimp +zetaDelta -iota only)

theorem fence_kept (s : State) (l : Nat) (reason : Nat) (hs : Kept cs_ s) : Kept cs_ (fence s l reason) := by
  unfold fence
  try extract_lets
  repeat'
    (first | with_reducible assumption | (with_reducible show Kept _ _; simp -iota -zeta only [memOk_mk])
           | with_reducible apply memsOk_of | with_reducible apply dropLink_kept | with_reducible apply collFail_kept
           | with_reducible apply foldl_kept | with_reducible intro _ | extract_lets | split | dsimp +zetaDelta -iota only)

theorem disable_kept (s : State) (l : Nat) (reason : Nat) (hs : Kept cs_ s) : Kept cs_ (disable s l reason) := by
  unfold disable
  try extract_lets
  repeat'
    (first | with_reducible assumption | (with_reducible show Kept _ _; simp -iota -zeta only [memOk_mk])
           | with_reducible apply memsOk_of | with_reducible apply dropLink_kept | with_reducible intro _ | extract_lets | split
           | dsimp +zetaDelta -iota only)

theorem quarantine_kept (s : State) (l : Nat) (reason : Nat) (hs : Kept cs_ s) : Kept cs_ (quarantine s l reason) := by
  unfold quarantine
  try extract_lets
  repeat'
    (first | with_reducible assumption | (with_reducible show Kept _ _; simp -iota -zeta only [memOk_mk])
           | with_reducible apply memsOk_of | with_reducible apply leaveFor_kept | with_reducible intro _ | extract_lets | split
           | dsimp +zetaDelta -iota only)

theorem trainStart_kept (s : State) (l : Nat) (reason : Nat) (hs : Kept cs_ s) : Kept cs_ (trainStart s l reason) := by
  unfold trainStart
  try extract_lets
  repeat'
    (first | with_reducible assumption | (with_reducible show Kept _ _; simp -iota -zeta only [memOk_mk, memsOk_mk])
            | (with_reducible show KeptParts _ _ _ _; simp -iota -zeta only [memsOk_mk]) | with_reducible apply memsOk_of
            | with_reducible apply cellsOk_of | with_reducible apply dropLink_kept | with_reducible apply setLink_kept
            | (refine pair_eq1 ?_ (by with_reducible assumption)) | (refine pair_eq2 ?_ (by with_reducible assumption))
            | (refine ans_done_eq ?_ (by with_reducible assumption)) | (refine ans_wait_eq ?_ (by with_reducible assumption))
            | with_reducible apply ans_done | with_reducible apply ans_wait | with_reducible apply ans_held
            | with_reducible apply out_next | with_reducible intro _ | extract_lets | split | dsimp +zetaDelta -iota only)

theorem attemptFails_kept (s : State) (l : Nat) (hs : Kept cs_ s) : Kept cs_ (attemptFails s l) := by
  unfold attemptFails
  try extract_lets
  repeat'
    (first | with_reducible assumption | (with_reducible show Kept _ _; simp -iota -zeta only [memOk_mk, memsOk_mk])
            | (with_reducible show KeptParts _ _ _ _; simp -iota -zeta only [memsOk_mk]) | with_reducible apply memsOk_of
            | with_reducible apply cellsOk_of | with_reducible apply disable_kept | with_reducible apply setLink_kept
            | (refine pair_eq1 ?_ (by with_reducible assumption)) | (refine pair_eq2 ?_ (by with_reducible assumption))
            | (refine ans_done_eq ?_ (by with_reducible assumption)) | (refine ans_wait_eq ?_ (by with_reducible assumption))
            | with_reducible apply ans_done | with_reducible apply ans_wait | with_reducible apply ans_held
            | with_reducible apply out_next | with_reducible intro _ | extract_lets | split | dsimp +zetaDelta -iota only)

theorem sendInit_kept (s : State) (l : Nat) (hs : Kept cs_ s) : Kept cs_ (sendInit s l) := by
  unfold sendInit
  try extract_lets
  repeat'
    (first | with_reducible assumption | (with_reducible show Kept _ _; simp -iota -zeta only [memOk_mk])
           | with_reducible apply memsOk_of | with_reducible apply sendBare_kept | with_reducible intro _ | extract_lets | split
           | dsimp +zetaDelta -iota only)

theorem sendSpdm_kept (s : State) (l : Nat) (hs : Kept cs_ s) : Kept cs_ (sendSpdm s l) := by
  unfold sendSpdm
  try extract_lets
  repeat'
    (first | with_reducible assumption | (with_reducible show Kept _ _; simp -iota -zeta only [memOk_mk])
           | with_reducible apply memsOk_of | with_reducible apply freeBytes_kept
           | with_reducible (refine freeBytes_kept_eq ?_ (by with_reducible assumption)) | with_reducible apply sendOn_kept
           | with_reducible intro _ | extract_lets | split | dsimp +zetaDelta -iota only)

theorem newKeys_kept (s : State) (l : Nat) (hs : Kept cs_ s) : Kept cs_ (newKeys s l) := by
  unfold newKeys
  try extract_lets
  repeat'
    (first | with_reducible assumption | (with_reducible show Kept _ _; simp -iota -zeta only [memOk_mk, memsOk_mk])
            | (with_reducible show KeptParts _ _ _ _; simp -iota -zeta only [memsOk_mk]) | with_reducible apply memsOk_of
            | with_reducible apply cellsOk_of | with_reducible apply freeBytes_kept
            | with_reducible (refine freeBytes_kept_eq ?_ (by with_reducible assumption)) | with_reducible apply setLink_kept
            | (refine pair_eq1 ?_ (by with_reducible assumption)) | (refine pair_eq2 ?_ (by with_reducible assumption))
            | (refine ans_done_eq ?_ (by with_reducible assumption)) | (refine ans_wait_eq ?_ (by with_reducible assumption))
            | with_reducible apply ans_done | with_reducible apply ans_wait | with_reducible apply ans_held
            | with_reducible apply out_next | with_reducible intro _ | extract_lets | split | dsimp +zetaDelta -iota only)

theorem authStart_kept (s : State) (l : Nat) (hs : Kept cs_ s) : Kept cs_ (authStart s l) := by
  unfold authStart
  try extract_lets
  repeat'
    (first | with_reducible assumption | (with_reducible show Kept _ _; simp -iota -zeta only [memOk_mk])
           | with_reducible apply memsOk_of | with_reducible apply linkMove_kept | with_reducible apply setLink_kept
           | with_reducible apply sendSpdm_kept | with_reducible intro _ | extract_lets | split | dsimp +zetaDelta -iota only)

theorem goLive_kept (s : State) (l : Nat) (r : ConcordRec) (hs : Kept cs_ s) : Kept cs_ (goLive s l r) := by
  unfold goLive
  try extract_lets
  repeat'
    (first | with_reducible assumption | (with_reducible show Kept _ _; simp -iota -zeta only [memOk_mk])
           | with_reducible apply memsOk_of | with_reducible (refine implicitClaim_kept_eq ?_ (by with_reducible assumption))
           | with_reducible apply noteRecord_kept | with_reducible apply linkMove_kept | with_reducible apply setLink_kept
           | with_reducible apply takeMaster_kept | with_reducible apply pump_kept | with_reducible apply advertise_kept
           | with_reducible intro _ | extract_lets | split | dsimp +zetaDelta -iota only)

theorem judgeConcord_kept (s : State) (l : Nat) (r : ConcordRec) (hs : Kept cs_ s) : Kept cs_ (judgeConcord s l r) := by
  unfold judgeConcord
  try extract_lets
  repeat'
    (first | with_reducible assumption | (with_reducible show Kept _ _; simp -iota -zeta only [memOk_mk, memsOk_mk])
            | (with_reducible show KeptParts _ _ _ _; simp -iota -zeta only [memsOk_mk]) | with_reducible apply memsOk_of
            | with_reducible apply cellsOk_of | with_reducible apply setLink_kept | with_reducible apply rejoinCheck_kept
            | with_reducible apply noteRecord_kept | with_reducible apply quarantine_kept | with_reducible apply goLive_kept
            | (refine pair_eq1 ?_ (by with_reducible assumption)) | (refine pair_eq2 ?_ (by with_reducible assumption))
            | (refine ans_done_eq ?_ (by with_reducible assumption)) | (refine ans_wait_eq ?_ (by with_reducible assumption))
            | with_reducible apply ans_done | with_reducible apply ans_wait | with_reducible apply ans_held
            | with_reducible apply out_next | with_reducible intro _ | extract_lets | split | dsimp +zetaDelta -iota only)

theorem concordArrives_kept (s : State) (l : Nat) (update : Bool) (r : ConcordRec) (hs : Kept cs_ s) : Kept cs_
    (concordArrives s l update r) := by
  unfold concordArrives
  try extract_lets
  repeat'
    (first | with_reducible assumption | (with_reducible show Kept _ _; simp -iota -zeta only [memOk_mk])
           | with_reducible apply memsOk_of | with_reducible apply setLink_kept | with_reducible apply judgeConcord_kept
           | with_reducible apply fence_kept | with_reducible apply noteRecord_kept | with_reducible apply sendConcord_kept
           | with_reducible apply quarantine_kept | with_reducible intro _ | extract_lets | split | dsimp +zetaDelta -iota only)

theorem authDone_kept (s : State) (l : Nat) (hs : Kept cs_ s) : Kept cs_ (authDone s l) := by
  unfold authDone
  try extract_lets
  repeat'
    (first | with_reducible assumption | (with_reducible show Kept _ _; simp -iota -zeta only [memOk_mk, memsOk_mk])
            | (with_reducible show KeptParts _ _ _ _; simp -iota -zeta only [memsOk_mk]) | with_reducible apply memsOk_of
            | with_reducible apply cellsOk_of | with_reducible apply linkMove_kept | with_reducible apply setLink_kept
            | with_reducible apply sendConcord_kept | with_reducible apply newKeys_kept
            | with_reducible (refine newKeys_kept_eq ?_ (by with_reducible assumption)) | with_reducible apply judgeConcord_kept
            | (refine pair_eq1 ?_ (by with_reducible assumption)) | (refine pair_eq2 ?_ (by with_reducible assumption))
            | (refine ans_done_eq ?_ (by with_reducible assumption)) | (refine ans_wait_eq ?_ (by with_reducible assumption))
            | with_reducible apply ans_done | with_reducible apply ans_wait | with_reducible apply ans_held
            | with_reducible apply out_next | with_reducible intro _ | extract_lets | split | dsimp +zetaDelta -iota only)

end Sys2Proof.Machine
end

