-- ==== Sys2Proof/Laws/KeptDuctus.lean ====
section
/-! SUPPORT. Every definition of Machine/Ductus.lean keeps the queue of waiting commands and the canonical form of both memories. -/
namespace Sys2Proof.Machine
open Sys2Proof
set_option maxHeartbeats 400000
set_option linter.all false
variable {cs_ : List Instr}
theorem execFecAlignmentLock_kept (l : Nat) (s : State) (hs : Kept cs_ s) : OutKept cs_ (execFecAlignmentLock l s) := by
  unfold execFecAlignmentLock
  try extract_lets
  repeat'
    (first | with_reducible assumption | (with_reducible show Kept _ _; simp -iota -zeta only [memOk_mk])
           | with_reducible apply memsOk_of | with_reducible apply sendInit_kept | with_reducible apply setLink_kept
           | with_reducible apply ans_done | with_reducible apply ans_wait | with_reducible apply out_next | with_reducible intro _
           | extract_lets | split | dsimp +zetaDelta -iota only)

theorem initEnds_kept (s : State) (l : Nat) (hs : Kept cs_ s) : Kept cs_ (initEnds s l) := by
  unfold initEnds
  try extract_lets
  repeat'
    (first | with_reducible assumption | (with_reducible show Kept _ _; simp -iota -zeta only [memOk_mk, memsOk_mk])
            | (with_reducible show KeptParts _ _ _ _; simp -iota -zeta only [memsOk_mk]) | with_reducible apply memsOk_of
            | with_reducible apply cellsOk_of | with_reducible apply setLink_kept | (refine pair_eq1 ?_ (by with_reducible assumption))
            | (refine pair_eq2 ?_ (by with_reducible assumption)) | (refine ans_done_eq ?_ (by with_reducible assumption))
            | (refine ans_wait_eq ?_ (by with_reducible assumption)) | with_reducible apply ans_done | with_reducible apply ans_wait
            | with_reducible apply ans_held | with_reducible apply out_next | with_reducible intro _ | extract_lets | split
            | dsimp +zetaDelta -iota only)

theorem takeInit_kept (s : State) (l : Nat) (b : List Byte) (hs : Kept cs_ s) : Kept cs_ (takeInit s l b) := by
  unfold takeInit
  try extract_lets
  repeat'
    (first | with_reducible assumption | (with_reducible show Kept _ _; simp -iota -zeta only [memOk_mk])
           | with_reducible apply memsOk_of | with_reducible apply attemptFails_kept | with_reducible apply setLink_kept
           | with_reducible apply sendInit_kept | with_reducible apply initEnds_kept | with_reducible intro _ | extract_lets | split
           | dsimp +zetaDelta -iota only)

theorem malformedFlit_kept (s0 : State) (l : Nat) (hs0 : Kept cs_ s0) : Kept cs_ (malformedFlit s0 l) := by
  unfold malformedFlit
  try extract_lets
  repeat'
    (first | with_reducible assumption | (with_reducible show Kept _ _; simp -iota -zeta only [memOk_mk])
           | with_reducible apply memsOk_of | with_reducible apply linkCount_kept | with_reducible apply setLink_kept
           | with_reducible apply fence_kept | with_reducible intro _ | extract_lets | split | dsimp +zetaDelta -iota only)

theorem initArrives_kept (s : State) (l : Nat) (f : FlitIn) (hs : Kept cs_ s) : Kept cs_ (initArrives s l f) := by
  unfold initArrives
  try extract_lets
  repeat'
    (first | with_reducible assumption | (with_reducible show Kept _ _; simp -iota -zeta only [memOk_mk, memsOk_mk])
            | (with_reducible show KeptParts _ _ _ _; simp -iota -zeta only [memsOk_mk]) | with_reducible apply memsOk_of
            | with_reducible apply cellsOk_of | with_reducible apply linkCount_kept | with_reducible apply malformedFlit_kept
            | with_reducible apply takeInit_kept | (refine pair_eq1 ?_ (by with_reducible assumption))
            | (refine pair_eq2 ?_ (by with_reducible assumption)) | (refine ans_done_eq ?_ (by with_reducible assumption))
            | (refine ans_wait_eq ?_ (by with_reducible assumption)) | with_reducible apply ans_done | with_reducible apply ans_wait
            | with_reducible apply ans_held | with_reducible apply out_next | with_reducible intro _ | extract_lets | split
            | dsimp +zetaDelta -iota only)

theorem countFlit_kept (s : State) (l : Nat) (f : FlitIn) (hs : Kept cs_ s) : Kept cs_ (countFlit s l f) := by
  unfold countFlit
  try extract_lets
  repeat'
    (first | with_reducible assumption | (with_reducible show Kept _ _; simp -iota -zeta only [memOk_mk])
           | with_reducible apply memsOk_of | with_reducible apply linkCount_kept | with_reducible apply prog_kept
           | with_reducible intro _ | extract_lets | split | dsimp +zetaDelta -iota only)

theorem execLinkInit_kept (l : Nat) (f : FlitIn) (s : State) (hs : Kept cs_ s) : OutKept cs_ (execLinkInit l f s) := by
  unfold execLinkInit
  try extract_lets
  repeat'
    (first | with_reducible assumption | (with_reducible show Kept _ _; simp -iota -zeta only [memOk_mk])
           | with_reducible apply memsOk_of | with_reducible apply initArrives_kept | with_reducible apply countFlit_kept
           | with_reducible apply ans_done | with_reducible apply ans_wait | with_reducible apply out_next | with_reducible intro _
           | extract_lets | split | dsimp +zetaDelta -iota only)

theorem retrain_kept (s : State) (l : Nat) (hs : Kept cs_ s) : Kept cs_ (retrain s l) := by
  unfold retrain
  try extract_lets
  repeat'
    (first | with_reducible assumption | (with_reducible show Kept _ _; simp -iota -zeta only [memOk_mk, memsOk_mk])
            | (with_reducible show KeptParts _ _ _ _; simp -iota -zeta only [memsOk_mk]) | with_reducible apply memsOk_of
            | with_reducible apply cellsOk_of | with_reducible apply linkCount_kept | with_reducible apply setLink_kept
            | (refine pair_eq1 ?_ (by with_reducible assumption)) | (refine pair_eq2 ?_ (by with_reducible assumption))
            | (refine ans_done_eq ?_ (by with_reducible assumption)) | (refine ans_wait_eq ?_ (by with_reducible assumption))
            | with_reducible apply ans_done | with_reducible apply ans_wait | with_reducible apply ans_held
            | with_reducible apply out_next | with_reducible intro _ | extract_lets | split | dsimp +zetaDelta -iota only)

theorem replayLink_kept (s : State) (l : Nat) (hs : Kept cs_ s) : Kept cs_ (replayLink s l) := by
  unfold replayLink
  try extract_lets
  repeat'
    (first | with_reducible assumption | (with_reducible show Kept _ _; simp -iota -zeta only [memOk_mk, memsOk_mk])
            | (with_reducible show KeptParts _ _ _ _; simp -iota -zeta only [memsOk_mk]) | with_reducible apply memsOk_of
            | with_reducible apply cellsOk_of | with_reducible apply blot_kept | with_reducible apply linkCount_kept
            | with_reducible apply prog_kept | with_reducible apply setLink_kept | with_reducible apply getD_kept
            | with_reducible apply retrain_kept | with_reducible apply getD_kept | (refine pair_eq1 ?_ (by with_reducible assumption))
            | (refine pair_eq2 ?_ (by with_reducible assumption)) | (refine ans_done_eq ?_ (by with_reducible assumption))
            | (refine ans_wait_eq ?_ (by with_reducible assumption)) | with_reducible apply ans_done | with_reducible apply ans_wait
            | with_reducible apply ans_held | with_reducible apply out_next | with_reducible intro _ | extract_lets | split
            | dsimp +zetaDelta -iota only)

theorem execReplayTimeout_kept (l : Nat) (s : State) (hs : Kept cs_ s) : OutKept cs_ (execReplayTimeout l s) := by
  unfold execReplayTimeout
  try extract_lets
  repeat'
    (first | with_reducible assumption | (with_reducible show Kept _ _; simp -iota -zeta only [memOk_mk, memsOk_mk])
            | (with_reducible show KeptParts _ _ _ _; simp -iota -zeta only [memsOk_mk]) | with_reducible apply memsOk_of
            | with_reducible apply cellsOk_of | with_reducible apply replayLink_kept | (refine pair_eq1 ?_ (by with_reducible assumption))
            | (refine pair_eq2 ?_ (by with_reducible assumption)) | (refine ans_done_eq ?_ (by with_reducible assumption))
            | (refine ans_wait_eq ?_ (by with_reducible assumption)) | with_reducible apply ans_done | with_reducible apply ans_wait
            | with_reducible apply ans_held | with_reducible apply out_next | with_reducible intro _ | extract_lets | split
            | dsimp +zetaDelta -iota only)

theorem takeAck_kept (s : State) (l : Nat) (a : Nat) (nak : Bool) (hs : Kept cs_ s) : Kept cs_ (takeAck s l a nak) := by
  unfold takeAck
  try extract_lets
  repeat'
    (first | with_reducible assumption | (with_reducible show Kept _ _; simp -iota -zeta only [memOk_mk, memsOk_mk])
            | (with_reducible show KeptParts _ _ _ _; simp -iota -zeta only [memsOk_mk]) | with_reducible apply memsOk_of
            | with_reducible apply cellsOk_of | with_reducible apply replayLink_kept | with_reducible apply setLink_kept
            | with_reducible apply fence_kept | (refine pair_eq1 ?_ (by with_reducible assumption))
            | (refine pair_eq2 ?_ (by with_reducible assumption)) | (refine ans_done_eq ?_ (by with_reducible assumption))
            | (refine ans_wait_eq ?_ (by with_reducible assumption)) | with_reducible apply ans_done | with_reducible apply ans_wait
            | with_reducible apply ans_held | with_reducible apply out_next | with_reducible intro _ | extract_lets | split
            | dsimp +zetaDelta -iota only)

theorem takeCredits_kept (s : State) (l : Nat) (back : List Nat) (hs : Kept cs_ s) : Kept cs_ (takeCredits s l back) := by
  unfold takeCredits
  try extract_lets
  repeat'
    (first | with_reducible assumption | (with_reducible show Kept _ _; simp -iota -zeta only [memOk_mk, memsOk_mk])
            | (with_reducible show KeptParts _ _ _ _; simp -iota -zeta only [memsOk_mk]) | with_reducible apply memsOk_of
            | with_reducible apply cellsOk_of | with_reducible apply fence_kept | with_reducible apply setLink_kept
            | (refine pair_eq1 ?_ (by with_reducible assumption)) | (refine pair_eq2 ?_ (by with_reducible assumption))
            | (refine ans_done_eq ?_ (by with_reducible assumption)) | (refine ans_wait_eq ?_ (by with_reducible assumption))
            | with_reducible apply ans_done | with_reducible apply ans_wait | with_reducible apply ans_held
            | with_reducible apply out_next | with_reducible intro _ | extract_lets | split | dsimp +zetaDelta -iota only)

theorem takeMsgs_kept (l : Nat) (x1 : List Msg) (x2 : State) (hx2 : Kept cs_ x2) : Kept cs_ (takeMsgs l x1 x2) := by -- hand
  induction x1 generalizing x2 with
  | nil => exact hx2
  | cons m r ih =>
    unfold takeMsgs
    extract_lets
    split
    · exact fence_kept _ _ _ hx2
    · refine ih _ (setLink_kept _ _ _ ?_)
      dsimp +zetaDelta -iota only
      split
      · exact noteMsg_kept _ _ _ _ hx2
      · exact hx2

theorem takeContents_kept (s : State) (l : Nat) (b : List Byte) (ms : List Msg) (hs : Kept cs_ s) : Kept cs_ (takeContents s l b ms) := by
  unfold takeContents
  try extract_lets
  repeat'
    (first | with_reducible assumption | (with_reducible show Kept _ _; simp -iota -zeta only [memOk_mk])
           | with_reducible apply memsOk_of | with_reducible apply takeCredits_kept | with_reducible apply takeAck_kept
           | with_reducible apply takeMsgs_kept | with_reducible intro _ | extract_lets | split | dsimp +zetaDelta -iota only)

theorem discardFlit_kept (s : State) (l : Nat) (hs : Kept cs_ s) : Kept cs_ (discardFlit s l) := by
  unfold discardFlit
  try extract_lets
  repeat'
    (first | with_reducible assumption | (with_reducible show Kept _ _; simp -iota -zeta only [memOk_mk])
           | with_reducible apply memsOk_of | with_reducible apply setLink_kept | with_reducible intro _ | extract_lets | split
           | dsimp +zetaDelta -iota only)

theorem integrityFails_kept (s : State) (l : Nat) (hs : Kept cs_ s) : Kept cs_ (integrityFails s l) := by
  unfold integrityFails
  try extract_lets
  repeat'
    (first | with_reducible assumption | (with_reducible show Kept _ _; simp -iota -zeta only [memOk_mk])
           | with_reducible apply memsOk_of | with_reducible apply linkCount_kept | with_reducible apply setLink_kept
           | with_reducible apply fence_kept | with_reducible apply discardFlit_kept | with_reducible intro _ | extract_lets | split
           | dsimp +zetaDelta -iota only)

theorem acceptData_kept (s : State) (l : Nat) (b : List Byte) (hs : Kept cs_ s) : Kept cs_ (acceptData s l b) := by
  unfold acceptData
  try extract_lets
  repeat'
    (first | with_reducible assumption | (with_reducible show Kept _ _; simp -iota -zeta only [memOk_mk])
           | with_reducible apply memsOk_of | with_reducible apply setLink_kept | with_reducible apply malformedFlit_kept
           | with_reducible apply takeContents_kept | with_reducible intro _ | extract_lets | split | dsimp +zetaDelta -iota only)

theorem flitByKind_kept (s : State) (l : Nat) (f : FlitIn) (hs : Kept cs_ s) : Kept cs_ (flitByKind s l f) := by
  unfold flitByKind
  try extract_lets
  repeat'
    (first | with_reducible assumption | (with_reducible show Kept _ _; simp -iota -zeta only [memOk_mk])
           | with_reducible apply memsOk_of | with_reducible apply acceptData_kept | with_reducible apply discardFlit_kept
           | with_reducible apply initArrives_kept | with_reducible apply malformedFlit_kept | with_reducible apply takeContents_kept
           | with_reducible intro _ | extract_lets | split | dsimp +zetaDelta -iota only)

theorem execDataFlit_kept (l : Nat) (f : FlitIn) (s : State) (hs : Kept cs_ s) : OutKept cs_ (execDataFlit l f s) := by
  unfold execDataFlit
  try extract_lets
  repeat'
    (first | with_reducible assumption | (with_reducible show Kept _ _; simp -iota -zeta only [memOk_mk])
           | with_reducible apply memsOk_of | with_reducible apply countFlit_kept | with_reducible apply settleLink_kept
           | with_reducible apply discardFlit_kept | with_reducible apply integrityFails_kept | with_reducible apply flitByKind_kept
           | with_reducible apply ans_done | with_reducible apply ans_wait | with_reducible apply out_next | with_reducible intro _
           | extract_lets | split | dsimp +zetaDelta -iota only)

theorem sendProbes_kept (s : State) (l : Nat) (hs : Kept cs_ s) : Kept cs_ (sendProbes s l) := by
  unfold sendProbes
  try extract_lets
  repeat'
    (first | with_reducible assumption | (with_reducible show Kept _ _; simp -iota -zeta only [memOk_mk])
           | with_reducible apply memsOk_of | with_reducible apply sendOn_kept | with_reducible apply foldl_kept | with_reducible intro _
           | extract_lets | split | dsimp +zetaDelta -iota only)

theorem execBerMeasureEnd_kept (l : Nat) (corrected : Nat) (uncorrectable : Nat) (received : Nat) (s : State) (hs : Kept cs_ s) : OutKept
    cs_ (execBerMeasureEnd l corrected uncorrectable received s) := by
  unfold execBerMeasureEnd
  try extract_lets
  repeat'
    (first | with_reducible assumption | (with_reducible show Kept _ _; simp -iota -zeta only [memOk_mk, memsOk_mk])
            | (with_reducible show KeptParts _ _ _ _; simp -iota -zeta only [memsOk_mk]) | with_reducible apply memsOk_of
            | with_reducible apply cellsOk_of | with_reducible apply setLink_kept | with_reducible apply disable_kept
            | with_reducible apply sendProbes_kept | (refine pair_eq1 ?_ (by with_reducible assumption))
            | (refine pair_eq2 ?_ (by with_reducible assumption)) | (refine ans_done_eq ?_ (by with_reducible assumption))
            | (refine ans_wait_eq ?_ (by with_reducible assumption)) | with_reducible apply ans_done | with_reducible apply ans_wait
            | with_reducible apply ans_held | with_reducible apply out_next | with_reducible intro _ | extract_lets | split
            | dsimp +zetaDelta -iota only)

theorem execTrainAttemptTimeout_kept (l : Nat) (s : State) (hs : Kept cs_ s) : OutKept cs_ (execTrainAttemptTimeout l s) := by
  unfold execTrainAttemptTimeout
  try extract_lets
  repeat'
    (first | with_reducible assumption | (with_reducible show Kept _ _; simp -iota -zeta only [memOk_mk, memsOk_mk])
            | (with_reducible show KeptParts _ _ _ _; simp -iota -zeta only [memsOk_mk]) | with_reducible apply memsOk_of
            | with_reducible apply cellsOk_of | with_reducible apply attemptFails_kept
            | (refine pair_eq1 ?_ (by with_reducible assumption)) | (refine pair_eq2 ?_ (by with_reducible assumption))
            | (refine ans_done_eq ?_ (by with_reducible assumption)) | (refine ans_wait_eq ?_ (by with_reducible assumption))
            | with_reducible apply ans_done | with_reducible apply ans_wait | with_reducible apply ans_held
            | with_reducible apply out_next | with_reducible intro _ | extract_lets | split | dsimp +zetaDelta -iota only)

theorem freeMsg_kept (s : State) (l : Nat) (m : Msg) (hs : Kept cs_ s) : Kept cs_ (freeMsg s l m) := by
  unfold freeMsg
  try extract_lets
  repeat'
    (first | with_reducible assumption | (with_reducible show Kept _ _; simp -iota -zeta only [memOk_mk])
           | with_reducible apply memsOk_of | with_reducible apply setLink_kept | with_reducible intro _ | extract_lets | split
           | dsimp +zetaDelta -iota only)

theorem probeReturns_kept (s : State) (l : Nat) (d : Int) (hs : Kept cs_ s) : Kept cs_ (probeReturns s l d) := by
  unfold probeReturns
  try extract_lets
  repeat'
    (first | with_reducible assumption | (with_reducible show Kept _ _; simp -iota -zeta only [memOk_mk])
           | with_reducible apply memsOk_of | with_reducible apply setLink_kept | with_reducible apply disable_kept
           | with_reducible apply authStart_kept | with_reducible intro _ | extract_lets | split | dsimp +zetaDelta -iota only)

theorem execProbe_kept (l : Nat) (t1 : Nat) (t2 : Nat) (t3 : Nat) (t4 : Nat) (s : State) (hs : Kept cs_ s) : OutKept cs_
    (execProbe l t1 t2 t3 t4 s) := by
  unfold execProbe
  try extract_lets
  repeat'
    (first | with_reducible assumption | (with_reducible show Kept _ _; simp -iota -zeta only [memOk_mk])
           | with_reducible apply memsOk_of | with_reducible apply freeMsg_kept | with_reducible apply settleLink_kept
           | with_reducible apply sendOn_kept | with_reducible apply probeReturns_kept | with_reducible apply getD_kept
           | with_reducible apply ans_done | with_reducible apply ans_wait | with_reducible apply out_next | with_reducible intro _
           | extract_lets | split | dsimp +zetaDelta -iota only)

theorem execFecLockLoss_kept (l : Nat) (s : State) (hs : Kept cs_ s) : OutKept cs_ (execFecLockLoss l s) := by
  unfold execFecLockLoss
  try extract_lets
  repeat'
    (first | with_reducible assumption | (with_reducible show Kept _ _; simp -iota -zeta only [memOk_mk, memsOk_mk])
            | (with_reducible show KeptParts _ _ _ _; simp -iota -zeta only [memsOk_mk]) | with_reducible apply memsOk_of
            | with_reducible apply cellsOk_of | with_reducible apply retrain_kept | (refine pair_eq1 ?_ (by with_reducible assumption))
            | (refine pair_eq2 ?_ (by with_reducible assumption)) | (refine ans_done_eq ?_ (by with_reducible assumption))
            | (refine ans_wait_eq ?_ (by with_reducible assumption)) | with_reducible apply ans_done | with_reducible apply ans_wait
            | with_reducible apply ans_held | with_reducible apply out_next | with_reducible intro _ | extract_lets | split
            | dsimp +zetaDelta -iota only)

theorem execLinkRetrainEnd_kept (l : Nat) (ok : Bool) (s : State) (hs : Kept cs_ s) : OutKept cs_ (execLinkRetrainEnd l ok s) := by
  unfold execLinkRetrainEnd
  try extract_lets
  repeat'
    (first | with_reducible assumption | (with_reducible show Kept _ _; simp -iota -zeta only [memOk_mk, memsOk_mk])
            | (with_reducible show KeptParts _ _ _ _; simp -iota -zeta only [memsOk_mk]) | with_reducible apply memsOk_of
            | with_reducible apply cellsOk_of | with_reducible apply settleLink_kept | with_reducible apply setLink_kept
            | with_reducible apply disable_kept | (refine pair_eq1 ?_ (by with_reducible assumption))
            | (refine pair_eq2 ?_ (by with_reducible assumption)) | (refine ans_done_eq ?_ (by with_reducible assumption))
            | (refine ans_wait_eq ?_ (by with_reducible assumption)) | with_reducible apply ans_done | with_reducible apply ans_wait
            | with_reducible apply ans_held | with_reducible apply out_next | with_reducible intro _ | extract_lets | split
            | dsimp +zetaDelta -iota only)

theorem execCreditStall_kept (l : Nat) (channel : Nat) (s : State) (hs : Kept cs_ s) : OutKept cs_ (execCreditStall l channel s) := by
  unfold execCreditStall
  try extract_lets
  repeat'
    (first | with_reducible assumption | (with_reducible show Kept _ _; simp -iota -zeta only [memOk_mk, memsOk_mk])
            | (with_reducible show KeptParts _ _ _ _; simp -iota -zeta only [memsOk_mk]) | with_reducible apply memsOk_of
            | with_reducible apply cellsOk_of | with_reducible apply fence_kept | with_reducible apply getD_kept
            | (refine pair_eq1 ?_ (by with_reducible assumption)) | (refine pair_eq2 ?_ (by with_reducible assumption))
            | (refine ans_done_eq ?_ (by with_reducible assumption)) | (refine ans_wait_eq ?_ (by with_reducible assumption))
            | with_reducible apply ans_done | with_reducible apply ans_wait | with_reducible apply ans_held
            | with_reducible apply out_next | with_reducible intro _ | extract_lets | split | dsimp +zetaDelta -iota only)

theorem spdmTurn_kept (s : State) (l : Nat) (hs : Kept cs_ s) : Kept cs_ (spdmTurn s l) := by
  unfold spdmTurn
  try extract_lets
  repeat'
    (first | with_reducible assumption | (with_reducible show Kept _ _; simp -iota -zeta only [memOk_mk])
           | with_reducible apply memsOk_of | with_reducible apply setLink_kept | with_reducible apply authDone_kept
           | with_reducible apply sendSpdm_kept | with_reducible intro _ | extract_lets | split | dsimp +zetaDelta -iota only)

theorem spdmRequest_kept (s : State) (l : Nat) (q : SpdmReq) (hs : Kept cs_ s) : Kept cs_ (spdmRequest s l q) := by
  unfold spdmRequest
  try extract_lets
  repeat'
    (first | with_reducible assumption | (with_reducible show Kept _ _; simp -iota -zeta only [memOk_mk, memsOk_mk])
            | (with_reducible show KeptParts _ _ _ _; simp -iota -zeta only [memsOk_mk]) | with_reducible apply memsOk_of
            | with_reducible apply cellsOk_of | with_reducible apply sendSpdm_kept | with_reducible apply setLink_kept
            | with_reducible apply fence_kept | with_reducible apply newKeys_kept | (refine pair_eq1 ?_ (by with_reducible assumption))
            | (refine pair_eq2 ?_ (by with_reducible assumption)) | (refine ans_done_eq ?_ (by with_reducible assumption))
            | (refine ans_wait_eq ?_ (by with_reducible assumption)) | with_reducible apply ans_done | with_reducible apply ans_wait
            | with_reducible apply ans_held | with_reducible apply out_next | with_reducible intro _ | extract_lets | split
            | dsimp +zetaDelta -iota only)

theorem spdmResponse_kept (s : State) (l : Nat) (ok : Bool) (hs : Kept cs_ s) : Kept cs_ (spdmResponse s l ok) := by
  unfold spdmResponse
  try extract_lets
  repeat'
    (first | with_reducible assumption | (with_reducible show Kept _ _; simp -iota -zeta only [memOk_mk, memsOk_mk])
            | (with_reducible show KeptParts _ _ _ _; simp -iota -zeta only [memsOk_mk]) | with_reducible apply memsOk_of
            | with_reducible apply cellsOk_of | with_reducible apply fence_kept | with_reducible apply setLink_kept
            | with_reducible apply sendSpdm_kept | with_reducible apply spdmTurn_kept
            | (refine pair_eq1 ?_ (by with_reducible assumption)) | (refine pair_eq2 ?_ (by with_reducible assumption))
            | (refine ans_done_eq ?_ (by with_reducible assumption)) | (refine ans_wait_eq ?_ (by with_reducible assumption))
            | with_reducible apply ans_done | with_reducible apply ans_wait | with_reducible apply ans_held
            | with_reducible apply out_next | with_reducible intro _ | extract_lets | split | dsimp +zetaDelta -iota only)

theorem spdmActs_kept (s : State) (l : Nat) (e : SpdmStep) (hs : Kept cs_ s) : Kept cs_ (spdmActs s l e) := by
  unfold spdmActs
  try extract_lets
  repeat'
    (first | with_reducible assumption | (with_reducible show Kept _ _; simp -iota -zeta only [memOk_mk, memsOk_mk])
            | (with_reducible show KeptParts _ _ _ _; simp -iota -zeta only [memsOk_mk]) | with_reducible apply memsOk_of
            | with_reducible apply cellsOk_of | with_reducible apply spdmRequest_kept | with_reducible apply spdmResponse_kept
            | with_reducible apply sendSpdm_kept | with_reducible apply complete_kept | with_reducible apply spdmTurn_kept
            | with_reducible apply fence_kept | with_reducible apply setLink_kept | with_reducible apply newKeys_kept
            | (refine pair_eq1 ?_ (by with_reducible assumption)) | (refine pair_eq2 ?_ (by with_reducible assumption))
            | (refine ans_done_eq ?_ (by with_reducible assumption)) | (refine ans_wait_eq ?_ (by with_reducible assumption))
            | with_reducible apply ans_done | with_reducible apply ans_wait | with_reducible apply ans_held
            | with_reducible apply out_next | with_reducible intro _ | extract_lets | split | dsimp +zetaDelta -iota only)

theorem execSpdm_kept (l : Nat) (e : SpdmStep) (s : State) (hs : Kept cs_ s) : OutKept cs_ (execSpdm l e s) := by
  unfold execSpdm
  try extract_lets
  repeat'
    (first | with_reducible assumption | (with_reducible show Kept _ _; simp -iota -zeta only [memOk_mk])
           | with_reducible apply memsOk_of | with_reducible apply freeMsg_kept | with_reducible apply settleLink_kept
           | with_reducible apply spdmActs_kept | with_reducible apply ans_done | with_reducible apply ans_wait
           | with_reducible apply out_next | with_reducible intro _ | extract_lets | split | dsimp +zetaDelta -iota only)

theorem execHeartbeat_kept (l : Nat) (s : State) (hs : Kept cs_ s) : OutKept cs_ (execHeartbeat l s) := by
  unfold execHeartbeat
  try extract_lets
  repeat'
    (first | with_reducible assumption | (with_reducible show Kept _ _; simp -iota -zeta only [memOk_mk, memsOk_mk])
            | (with_reducible show KeptParts _ _ _ _; simp -iota -zeta only [memsOk_mk]) | with_reducible apply memsOk_of
            | with_reducible apply cellsOk_of | with_reducible apply fence_kept | with_reducible apply sendSpdm_kept
            | with_reducible apply setLink_kept | (refine pair_eq1 ?_ (by with_reducible assumption))
            | (refine pair_eq2 ?_ (by with_reducible assumption)) | (refine ans_done_eq ?_ (by with_reducible assumption))
            | (refine ans_wait_eq ?_ (by with_reducible assumption)) | with_reducible apply ans_done | with_reducible apply ans_wait
            | with_reducible apply ans_held | with_reducible apply out_next | with_reducible intro _ | extract_lets | split
            | dsimp +zetaDelta -iota only)

theorem execChallengeTimer_kept (l : Nat) (s : State) (hs : Kept cs_ s) : OutKept cs_ (execChallengeTimer l s) := by
  unfold execChallengeTimer
  try extract_lets
  repeat'
    (first | with_reducible assumption | (with_reducible show Kept _ _; simp -iota -zeta only [memOk_mk, memsOk_mk])
            | (with_reducible show KeptParts _ _ _ _; simp -iota -zeta only [memsOk_mk]) | with_reducible apply memsOk_of
            | with_reducible apply cellsOk_of | with_reducible apply sendSpdm_kept | with_reducible apply setLink_kept
            | (refine pair_eq1 ?_ (by with_reducible assumption)) | (refine pair_eq2 ?_ (by with_reducible assumption))
            | (refine ans_done_eq ?_ (by with_reducible assumption)) | (refine ans_wait_eq ?_ (by with_reducible assumption))
            | with_reducible apply ans_done | with_reducible apply ans_wait | with_reducible apply ans_held
            | with_reducible apply out_next | with_reducible intro _ | extract_lets | split | dsimp +zetaDelta -iota only)

theorem execChallengeUnanswered_kept (l : Nat) (s : State) (hs : Kept cs_ s) : OutKept cs_ (execChallengeUnanswered l s) := by
  unfold execChallengeUnanswered
  try extract_lets
  repeat'
    (first | with_reducible assumption | (with_reducible show Kept _ _; simp -iota -zeta only [memOk_mk, memsOk_mk])
            | (with_reducible show KeptParts _ _ _ _; simp -iota -zeta only [memsOk_mk]) | with_reducible apply memsOk_of
            | with_reducible apply cellsOk_of | with_reducible apply fence_kept | (refine pair_eq1 ?_ (by with_reducible assumption))
            | (refine pair_eq2 ?_ (by with_reducible assumption)) | (refine ans_done_eq ?_ (by with_reducible assumption))
            | (refine ans_wait_eq ?_ (by with_reducible assumption)) | with_reducible apply ans_done | with_reducible apply ans_wait
            | with_reducible apply ans_held | with_reducible apply out_next | with_reducible intro _ | extract_lets | split
            | dsimp +zetaDelta -iota only)

theorem execKeyUpdate_kept (l : Nat) (s : State) (hs : Kept cs_ s) : OutKept cs_ (execKeyUpdate l s) := by
  unfold execKeyUpdate
  try extract_lets
  repeat'
    (first | with_reducible assumption | (with_reducible show Kept _ _; simp -iota -zeta only [memOk_mk, memsOk_mk])
            | (with_reducible show KeptParts _ _ _ _; simp -iota -zeta only [memsOk_mk]) | with_reducible apply memsOk_of
            | with_reducible apply cellsOk_of | with_reducible apply sendSpdm_kept | with_reducible apply newKeys_kept
            | (refine pair_eq1 ?_ (by with_reducible assumption)) | (refine pair_eq2 ?_ (by with_reducible assumption))
            | (refine ans_done_eq ?_ (by with_reducible assumption)) | (refine ans_wait_eq ?_ (by with_reducible assumption))
            | with_reducible apply ans_done | with_reducible apply ans_wait | with_reducible apply ans_held
            | with_reducible apply out_next | with_reducible intro _ | extract_lets | split | dsimp +zetaDelta -iota only)

end Sys2Proof.Machine
end

