-- ==== Sys2Proof/Laws/KeptPeers.lean ====
section
/-! SUPPORT. Every definition of Machine/Peers.lean keeps the queue of waiting commands and the canonical form of both memories. -/
namespace Sys2Proof.Machine
open Sys2Proof
set_option maxHeartbeats 400000
set_option linter.all false
variable {cs_ : List Instr}
theorem onMsg_kept (s : State) (l : Nat) (op : Nat) (m : Msg) (f : State → State) (hs : Kept cs_ s) (hf : ∀ (y0
    : State), Kept cs_ y0 → Kept cs_ (f y0)) : Kept cs_ (onMsg s l op m f) := by
  unfold onMsg
  try extract_lets
  repeat'
    (first | with_reducible assumption | (with_reducible show Kept _ _; simp -iota -zeta only [memOk_mk])
           | with_reducible apply memsOk_of | with_reducible apply settleLink_kept | with_reducible apply freeMsg_kept
           | with_reducible apply hf | with_reducible intro _ | extract_lets | split | dsimp +zetaDelta -iota only)

theorem onLive_kept (s : State) (l : Nat) (op : Nat) (m : Msg) (f : State → State) (hs : Kept cs_ s) (hf : ∀ (y0
    : State), Kept cs_ y0 → Kept cs_ (f y0)) : Kept cs_ (onLive s l op m f) := by
  unfold onLive
  try extract_lets
  repeat'
    (first | with_reducible assumption | (with_reducible show Kept _ _; simp -iota -zeta only [memOk_mk])
           | with_reducible apply memsOk_of | with_reducible apply onMsg_kept | with_reducible apply hf | with_reducible intro _
           | extract_lets | split | dsimp +zetaDelta -iota only)

theorem forward_kept (s : State) (m : Msg) (hs : Kept cs_ s) : Kept cs_ (forward s m) := by
  unfold forward
  try extract_lets
  repeat'
    (first | with_reducible assumption | (with_reducible show Kept _ _; simp -iota -zeta only [memOk_mk])
           | with_reducible apply memsOk_of | with_reducible apply answerCompl_kept
           | with_reducible (refine sendRouted_kept_eq ?_ (by with_reducible assumption)) | with_reducible apply prog_kept
           | with_reducible apply getD_kept | with_reducible intro _ | extract_lets | split | dsimp +zetaDelta -iota only)

theorem forUs_kept (s : State) (m : Msg) (f : State → State) (hs : Kept cs_ s) (hf : ∀ (y0 : State), Kept cs_ y0 → Kept cs_ (f y0))
    : Kept cs_ (forUs s m f) := by
  unfold forUs
  try extract_lets
  repeat'
    (first | with_reducible assumption | (with_reducible show Kept _ _; simp -iota -zeta only [memOk_mk])
           | with_reducible apply memsOk_of | with_reducible apply countMsg_kept | with_reducible apply forward_kept
           | with_reducible apply hf | with_reducible intro _ | extract_lets | split | dsimp +zetaDelta -iota only)

theorem serveRequest_kept (s : State) (m : Msg) (f : State → State) (hs : Kept cs_ s) (hf : ∀ (y0 : State), Kept cs_ y0 → Kept cs_
    (f y0)) : Kept cs_ (serveRequest s m f) := by
  unfold serveRequest
  try extract_lets
  repeat'
    (first | with_reducible assumption | (with_reducible show Kept _ _; simp -iota -zeta only [memOk_mk])
           | with_reducible apply memsOk_of | with_reducible apply forUs_kept | with_reducible apply answerCompl_kept
           | with_reducible apply hf | with_reducible intro _ | extract_lets | split | dsimp +zetaDelta -iota only)

theorem sendReadData_kept (s : State) (m : Msg) (l : List (List Byte × Bool)) (hs : Kept cs_ s) : Kept cs_ (sendReadData s m l) := by
  unfold sendReadData
  try extract_lets
  repeat'
    (first | with_reducible assumption | (with_reducible show Kept _ _; simp -iota -zeta only [memOk_mk])
           | with_reducible apply memsOk_of | with_reducible apply answerMsg_kept | with_reducible apply foldl_kept
           | with_reducible intro _ | extract_lets | split | dsimp +zetaDelta -iota only)

theorem execRead_kept (l : Nat) (m : Msg) (s : State) (hs : Kept cs_ s) : OutKept cs_ (execRead l m s) := by
  unfold execRead
  try extract_lets
  repeat'
    (first | with_reducible assumption | (with_reducible show Kept _ _; simp -iota -zeta only [memOk_mk, memsOk_mk])
            | (with_reducible show KeptParts _ _ _ _; simp -iota -zeta only [memsOk_mk]) | with_reducible apply memsOk_of
            | with_reducible apply cellsOk_of | with_reducible apply onLive_kept | with_reducible apply serveRequest_kept
            | with_reducible apply answerCompl_kept | with_reducible apply readGranules_kept
            | with_reducible (refine readGranules_kept_eq ?_ (by with_reducible assumption)) | with_reducible apply sendReadData_kept
            | with_reducible apply crossRange_kept | (refine pair_eq1 ?_ (by with_reducible assumption))
            | (refine pair_eq2 ?_ (by with_reducible assumption)) | (refine ans_done_eq ?_ (by with_reducible assumption))
            | (refine ans_wait_eq ?_ (by with_reducible assumption)) | with_reducible apply ans_done | with_reducible apply ans_wait
            | with_reducible apply ans_held | with_reducible apply out_next | with_reducible intro _ | extract_lets | split
            | dsimp +zetaDelta -iota only)

theorem forColl_kept (s : State) (m : Msg) (f : Option Coll → State → State) (hs : Kept cs_ s) (hf : ∀ (y0 : Option Coll) (y1
    : State), Kept cs_ y1 → Kept cs_ (f y0 y1)) : Kept cs_ (forColl s m f) := by
  unfold forColl
  try extract_lets
  repeat'
    (first | with_reducible assumption | (with_reducible show Kept _ _; simp -iota -zeta only [memOk_mk])
           | with_reducible apply memsOk_of | with_reducible apply collProgress_kept | with_reducible apply answerCompl_kept
           | with_reducible apply hf | with_reducible intro _ | extract_lets | split | dsimp +zetaDelta -iota only)

theorem execWrite_kept (l : Nat) (m : Msg) (s : State) (hs : Kept cs_ s) : OutKept cs_ (execWrite l m s) := by
  unfold execWrite
  try extract_lets
  repeat'
    (first | with_reducible assumption | (with_reducible show Kept _ _; simp -iota -zeta only [memOk_mk, memsOk_mk])
            | (with_reducible show KeptParts _ _ _ _; simp -iota -zeta only [memsOk_mk]) | with_reducible apply memsOk_of
            | with_reducible apply cellsOk_of | with_reducible apply onLive_kept | with_reducible apply serveRequest_kept
            | with_reducible apply forColl_kept | with_reducible apply answerCompl_kept | with_reducible apply writeGranules_kept
            | with_reducible (refine writeGranules_kept_eq ?_ (by with_reducible assumption)) | with_reducible apply crossRange_kept
            | with_reducible apply collPush_kept | with_reducible apply modColl_kept | (refine pair_eq1 ?_ (by with_reducible assumption))
            | (refine pair_eq2 ?_ (by with_reducible assumption)) | (refine ans_done_eq ?_ (by with_reducible assumption))
            | (refine ans_wait_eq ?_ (by with_reducible assumption)) | with_reducible apply ans_done | with_reducible apply ans_wait
            | with_reducible apply ans_held | with_reducible apply out_next | with_reducible intro _ | extract_lets | split
            | dsimp +zetaDelta -iota only)

theorem execContrib_kept (l : Nat) (m : Msg) (s : State) (hs : Kept cs_ s) : OutKept cs_ (execContrib l m s) := by
  unfold execContrib
  try extract_lets
  repeat'
    (first | with_reducible assumption | (with_reducible show Kept _ _; simp -iota -zeta only [memOk_mk, memsOk_mk])
            | (with_reducible show KeptParts _ _ _ _; simp -iota -zeta only [memsOk_mk]) | with_reducible apply memsOk_of
            | with_reducible apply cellsOk_of | with_reducible apply onLive_kept | with_reducible apply serveRequest_kept
            | with_reducible apply forColl_kept | with_reducible apply contribute_kept
            | with_reducible (refine contribute_kept_eq ?_ (by with_reducible assumption)) | with_reducible apply crossFrom_kept
            | with_reducible apply answerMsg_kept | with_reducible apply answerCompl_kept | with_reducible apply pushAll_kept
            | with_reducible apply collPush_kept | with_reducible apply modColl_kept | (refine pair_eq1 ?_ (by with_reducible assumption))
            | (refine pair_eq2 ?_ (by with_reducible assumption)) | (refine ans_done_eq ?_ (by with_reducible assumption))
            | (refine ans_wait_eq ?_ (by with_reducible assumption)) | with_reducible apply ans_done | with_reducible apply ans_wait
            | with_reducible apply ans_held | with_reducible apply out_next | with_reducible intro _ | extract_lets | split
            | dsimp +zetaDelta -iota only)

theorem execSignal_kept (l : Nat) (m : Msg) (s : State) (hs : Kept cs_ s) : OutKept cs_ (execSignal l m s) := by
  unfold execSignal
  try extract_lets
  repeat'
    (first | with_reducible assumption | (with_reducible show Kept _ _; simp -iota -zeta only [memOk_mk])
           | with_reducible apply memsOk_of | with_reducible apply onLive_kept | with_reducible apply serveRequest_kept
           | with_reducible apply answerCompl_kept | with_reducible apply tallySignalAs_kept | with_reducible apply ans_done
           | with_reducible apply ans_wait | with_reducible apply out_next | with_reducible intro _ | extract_lets | split
           | dsimp +zetaDelta -iota only)

theorem setRemote_kept (s : State) (r : Remote) (hs : Kept cs_ s) : Kept cs_ (setRemote s r) := by
  unfold setRemote
  try extract_lets
  repeat'
    (first | with_reducible assumption | (with_reducible show Kept _ _; simp -iota -zeta only [memOk_mk])
           | with_reducible apply memsOk_of | with_reducible intro _ | extract_lets | split | dsimp +zetaDelta -iota only)

theorem takeReadData_kept (s0 : State) (l : Nat) (r : Remote) (m : Msg) (hs0 : Kept cs_ s0) : Kept cs_ (takeReadData s0 l r m) := by
  unfold takeReadData
  try extract_lets
  repeat'
    (first | with_reducible assumption | (with_reducible show Kept _ _; simp -iota -zeta only [memOk_mk, memsOk_mk])
            | (with_reducible show KeptParts _ _ _ _; simp -iota -zeta only [memsOk_mk]) | with_reducible apply memsOk_of
            | with_reducible apply cellsOk_of | with_reducible apply crossing_kept | with_reducible apply setRemote_kept
            | with_reducible apply setCore_kept | (refine pair_eq1 ?_ (by with_reducible assumption))
            | (refine pair_eq2 ?_ (by with_reducible assumption)) | (refine ans_done_eq ?_ (by with_reducible assumption))
            | (refine ans_wait_eq ?_ (by with_reducible assumption)) | with_reducible apply ans_done | with_reducible apply ans_wait
            | with_reducible apply ans_held | with_reducible apply out_next | with_reducible intro _ | extract_lets | split
            | dsimp +zetaDelta -iota only)

theorem execReadData_kept (l : Nat) (m : Msg) (s : State) (hs : Kept cs_ s) : OutKept cs_ (execReadData l m s) := by
  unfold execReadData
  try extract_lets
  repeat'
    (first | with_reducible assumption | (with_reducible show Kept _ _; simp -iota -zeta only [memOk_mk, memsOk_mk])
            | (with_reducible show KeptParts _ _ _ _; simp -iota -zeta only [memsOk_mk]) | with_reducible apply memsOk_of
            | with_reducible apply cellsOk_of | with_reducible apply onLive_kept | with_reducible apply forUs_kept
            | with_reducible apply takeReadData_kept | (refine pair_eq1 ?_ (by with_reducible assumption))
            | (refine pair_eq2 ?_ (by with_reducible assumption)) | (refine ans_done_eq ?_ (by with_reducible assumption))
            | (refine ans_wait_eq ?_ (by with_reducible assumption)) | with_reducible apply ans_done | with_reducible apply ans_wait
            | with_reducible apply ans_held | with_reducible apply out_next | with_reducible intro _ | extract_lets | split
            | dsimp +zetaDelta -iota only)

theorem execCompl_kept (l : Nat) (m : Msg) (s : State) (hs : Kept cs_ s) : OutKept cs_ (execCompl l m s) := by
  unfold execCompl
  try extract_lets
  repeat'
    (first | with_reducible assumption | (with_reducible show Kept _ _; simp -iota -zeta only [memOk_mk])
           | with_reducible apply memsOk_of | with_reducible apply onLive_kept | with_reducible apply forUs_kept
           | with_reducible apply remoteDone_kept | with_reducible apply ans_done | with_reducible apply ans_wait
           | with_reducible apply out_next | with_reducible intro _ | extract_lets | split | dsimp +zetaDelta -iota only)

theorem execRetry_kept (l : Nat) (m : Msg) (s : State) (hs : Kept cs_ s) : OutKept cs_ (execRetry l m s) := by
  unfold execRetry
  try extract_lets
  repeat'
    (first | with_reducible assumption | (with_reducible show Kept _ _; simp -iota -zeta only [memOk_mk, memsOk_mk])
            | (with_reducible show KeptParts _ _ _ _; simp -iota -zeta only [memsOk_mk]) | with_reducible apply memsOk_of
            | with_reducible apply cellsOk_of | with_reducible apply onLive_kept | with_reducible apply forUs_kept
            | with_reducible apply collProgress_kept | with_reducible apply setRemote_kept
            | (refine pair_eq1 ?_ (by with_reducible assumption)) | (refine pair_eq2 ?_ (by with_reducible assumption))
            | (refine ans_done_eq ?_ (by with_reducible assumption)) | (refine ans_wait_eq ?_ (by with_reducible assumption))
            | with_reducible apply ans_done | with_reducible apply ans_wait | with_reducible apply ans_held
            | with_reducible apply out_next | with_reducible intro _ | extract_lets | split | dsimp +zetaDelta -iota only)

theorem execRemoteTimeout_kept (tag : BitVec 16) (s : State) (hs : Kept cs_ s) : OutKept cs_ (execRemoteTimeout tag s) := by
  unfold execRemoteTimeout
  try extract_lets
  repeat'
    (first | with_reducible assumption | (with_reducible show Kept _ _; simp -iota -zeta only [memOk_mk, memsOk_mk])
            | (with_reducible show KeptParts _ _ _ _; simp -iota -zeta only [memsOk_mk]) | with_reducible apply memsOk_of
            | with_reducible apply cellsOk_of | with_reducible apply remoteDone_kept | (refine pair_eq1 ?_ (by with_reducible assumption))
            | (refine pair_eq2 ?_ (by with_reducible assumption)) | (refine ans_done_eq ?_ (by with_reducible assumption))
            | (refine ans_wait_eq ?_ (by with_reducible assumption)) | with_reducible apply ans_done | with_reducible apply ans_wait
            | with_reducible apply ans_held | with_reducible apply out_next | with_reducible intro _ | extract_lets | split
            | dsimp +zetaDelta -iota only)

theorem resend_kept (s : State) (a : Aside) (hs : Kept cs_ s) : Kept cs_ (resend s a) := by
  unfold resend
  try extract_lets
  repeat'
    (first | with_reducible assumption | (with_reducible show Kept _ _; simp -iota -zeta only [memOk_mk, memsOk_mk])
            | (with_reducible show KeptParts _ _ _ _; simp -iota -zeta only [memsOk_mk]) | with_reducible apply memsOk_of
            | with_reducible apply cellsOk_of | with_reducible apply contribute_kept
            | with_reducible (refine contribute_kept_eq ?_ (by with_reducible assumption)) | with_reducible apply tagAside_kept
            | with_reducible apply applyResent_kept | with_reducible apply coreSettle_kept | with_reducible apply fabricFault_kept
            | with_reducible apply pushAll_kept | (refine pair_eq1 ?_ (by with_reducible assumption))
            | (refine pair_eq2 ?_ (by with_reducible assumption)) | (refine ans_done_eq ?_ (by with_reducible assumption))
            | (refine ans_wait_eq ?_ (by with_reducible assumption)) | with_reducible apply ans_done | with_reducible apply ans_wait
            | with_reducible apply ans_held | with_reducible apply out_next | with_reducible intro _ | extract_lets | split
            | dsimp +zetaDelta -iota only)

theorem execContributionResend_kept (s : State) (hs : Kept cs_ s) : OutKept cs_ (execContributionResend s) := by
  unfold execContributionResend
  try extract_lets
  repeat'
    (first | with_reducible assumption | (with_reducible show Kept _ _; simp -iota -zeta only [memOk_mk, memsOk_mk])
            | (with_reducible show KeptParts _ _ _ _; simp -iota -zeta only [memsOk_mk]) | with_reducible apply memsOk_of
            | with_reducible apply cellsOk_of | with_reducible apply resend_kept
            | with_reducible (refine resend_kept_eq ?_ (by with_reducible assumption))
            | with_reducible (refine sendRouted_kept_eq ?_ (by with_reducible assumption)) | with_reducible apply setRemote_kept
            | with_reducible apply remoteDone_kept | (refine pair_eq1 ?_ (by with_reducible assumption))
            | (refine pair_eq2 ?_ (by with_reducible assumption)) | (refine ans_done_eq ?_ (by with_reducible assumption))
            | (refine ans_wait_eq ?_ (by with_reducible assumption)) | with_reducible apply ans_done | with_reducible apply ans_wait
            | with_reducible apply ans_held | with_reducible apply out_next | with_reducible intro _ | extract_lets | split
            | dsimp +zetaDelta -iota only)

theorem drift_kept (s : State) (hs : Kept cs_ s) : Kept cs_ (drift s) := by
  unfold drift
  try extract_lets
  repeat'
    (first | with_reducible assumption | (with_reducible show Kept _ _; simp -iota -zeta only [memOk_mk, memsOk_mk])
            | (with_reducible show KeptParts _ _ _ _; simp -iota -zeta only [memsOk_mk]) | with_reducible apply memsOk_of
            | with_reducible apply cellsOk_of | with_reducible apply foldl_kept | with_reducible apply quarantine_kept
            | with_reducible apply foldl_kept | with_reducible apply foldl_snd2_kept | with_reducible apply foldl_fst_kept
            | with_reducible apply foldl_snd_kept | (refine pair_eq1 ?_ (by with_reducible assumption))
            | (refine pair_eq2 ?_ (by with_reducible assumption)) | (refine ans_done_eq ?_ (by with_reducible assumption))
            | (refine ans_wait_eq ?_ (by with_reducible assumption)) | with_reducible apply ans_done | with_reducible apply ans_wait
            | with_reducible apply out_next | with_reducible intro _ | extract_lets | split | dsimp +zetaDelta -iota only)

theorem noteOffset_kept (s : State) (off : Int) (hs : Kept cs_ s) : Kept cs_ (noteOffset s off) := by
  unfold noteOffset
  try extract_lets
  repeat'
    (first | with_reducible assumption | (with_reducible show Kept _ _; simp -iota -zeta only [memOk_mk, memsOk_mk])
            | (with_reducible show KeptParts _ _ _ _; simp -iota -zeta only [memsOk_mk]) | with_reducible apply memsOk_of
            | with_reducible apply cellsOk_of | (refine pair_eq1 ?_ (by with_reducible assumption))
            | (refine pair_eq2 ?_ (by with_reducible assumption)) | (refine ans_done_eq ?_ (by with_reducible assumption))
            | (refine ans_wait_eq ?_ (by with_reducible assumption)) | with_reducible apply ans_done | with_reducible apply ans_wait
            | with_reducible apply out_next | with_reducible intro _ | extract_lets | split | dsimp +zetaDelta -iota only)

theorem judgeLock_kept (s : State) (was : Bool) (hs : Kept cs_ s) : Kept cs_ (judgeLock s was) := by
  unfold judgeLock
  try extract_lets
  repeat'
    (first | with_reducible assumption | (with_reducible show Kept _ _; simp -iota -zeta only [memOk_mk, memsOk_mk])
            | (with_reducible show KeptParts _ _ _ _; simp -iota -zeta only [memsOk_mk]) | with_reducible apply memsOk_of
            | with_reducible apply cellsOk_of | with_reducible apply postSource_kept | with_reducible apply drift_kept
            | (refine pair_eq1 ?_ (by with_reducible assumption)) | (refine pair_eq2 ?_ (by with_reducible assumption))
            | (refine ans_done_eq ?_ (by with_reducible assumption)) | (refine ans_wait_eq ?_ (by with_reducible assumption))
            | with_reducible apply ans_done | with_reducible apply ans_wait | with_reducible apply out_next | with_reducible intro _
            | extract_lets | split | dsimp +zetaDelta -iota only)

theorem adoptMarker_kept (s : State) (e : BitVec 32) (m : Nat) (hs : Kept cs_ s) : Kept cs_ (adoptMarker s e m) := by
  unfold adoptMarker
  try extract_lets
  repeat'
    (first | with_reducible assumption | (with_reducible show Kept _ _; simp -iota -zeta only [memOk_mk, memsOk_mk])
            | (with_reducible show KeptParts _ _ _ _; simp -iota -zeta only [memsOk_mk]) | with_reducible apply memsOk_of
            | with_reducible apply cellsOk_of | with_reducible apply beginLine_kept | with_reducible apply noteOffset_kept
            | (refine pair_eq1 ?_ (by with_reducible assumption)) | (refine pair_eq2 ?_ (by with_reducible assumption))
            | (refine ans_done_eq ?_ (by with_reducible assumption)) | (refine ans_wait_eq ?_ (by with_reducible assumption))
            | with_reducible apply ans_done | with_reducible apply ans_wait | with_reducible apply out_next | with_reducible intro _
            | extract_lets | split | dsimp +zetaDelta -iota only)

theorem slewMarker_kept (s : State) (line : Nat) (m : Nat) (off : Int) (hs : Kept cs_ s) : Kept cs_ (slewMarker s line m off) := by
  unfold slewMarker
  try extract_lets
  repeat'
    (first | with_reducible assumption | (with_reducible show Kept _ _; simp -iota -zeta only [memOk_mk, memsOk_mk])
            | (with_reducible show KeptParts _ _ _ _; simp -iota -zeta only [memsOk_mk]) | with_reducible apply memsOk_of
            | with_reducible apply cellsOk_of | with_reducible apply noteOffset_kept | with_reducible apply beginLine_kept
            | with_reducible apply switchTo_kept | (refine pair_eq1 ?_ (by with_reducible assumption))
            | (refine pair_eq2 ?_ (by with_reducible assumption)) | (refine ans_done_eq ?_ (by with_reducible assumption))
            | (refine ans_wait_eq ?_ (by with_reducible assumption)) | with_reducible apply ans_done | with_reducible apply ans_wait
            | with_reducible apply out_next | with_reducible intro _ | extract_lets | split | dsimp +zetaDelta -iota only)

theorem followMarker_kept (s0 : State) (master : Nat) (line : Nat) (epoch : Nat) (comp : Nat) (hs0 : Kept cs_ s0) : Kept cs_ (followMarker
    s0 master line epoch comp) := by
  unfold followMarker
  try extract_lets
  repeat'
    (first | with_reducible assumption | (with_reducible show Kept _ _; simp -iota -zeta only [memOk_mk, memsOk_mk])
            | (with_reducible show KeptParts _ _ _ _; simp -iota -zeta only [memsOk_mk]) | with_reducible apply memsOk_of
            | with_reducible apply cellsOk_of | with_reducible apply giveDue_kept | with_reducible apply adoptMarker_kept
            | with_reducible apply slewMarker_kept | with_reducible apply installMaster_kept | with_reducible apply judgeLock_kept
            | (refine pair_eq1 ?_ (by with_reducible assumption)) | (refine pair_eq2 ?_ (by with_reducible assumption))
            | (refine ans_done_eq ?_ (by with_reducible assumption)) | (refine ans_wait_eq ?_ (by with_reducible assumption))
            | with_reducible apply ans_done | with_reducible apply ans_wait | with_reducible apply out_next | with_reducible intro _
            | extract_lets | split | dsimp +zetaDelta -iota only)

theorem execLineMarker_kept (l : Nat) (m : Msg) (s : State) (hs : Kept cs_ s) : OutKept cs_ (execLineMarker l m s) := by
  unfold execLineMarker
  try extract_lets
  repeat'
    (first | with_reducible assumption | (with_reducible show Kept _ _; simp -iota -zeta only [memOk_mk, memsOk_mk])
            | (with_reducible show KeptParts _ _ _ _; simp -iota -zeta only [memsOk_mk]) | with_reducible apply memsOk_of
            | with_reducible apply cellsOk_of | with_reducible apply onMsg_kept | with_reducible apply foldl_kept
            | with_reducible apply sendOn_kept | with_reducible apply followMarker_kept | with_reducible apply foldl_kept
            | with_reducible apply foldl_snd2_kept | with_reducible apply foldl_fst_kept | with_reducible apply foldl_snd_kept
            | with_reducible apply getD_kept | (refine pair_eq1 ?_ (by with_reducible assumption))
            | (refine pair_eq2 ?_ (by with_reducible assumption)) | (refine ans_done_eq ?_ (by with_reducible assumption))
            | (refine ans_wait_eq ?_ (by with_reducible assumption)) | with_reducible apply ans_done | with_reducible apply ans_wait
            | with_reducible apply out_next | with_reducible intro _ | extract_lets | split | dsimp +zetaDelta -iota only)

theorem passOn_kept (s : State) (l : Nat) (m : Msg) (hs : Kept cs_ s) : Kept cs_ (passOn s l m) := by
  unfold passOn
  try extract_lets
  repeat'
    (first | with_reducible assumption | (with_reducible show Kept _ _; simp -iota -zeta only [memOk_mk])
           | with_reducible apply memsOk_of | with_reducible apply floodFrom_kept | with_reducible intro _ | extract_lets | split
           | dsimp +zetaDelta -iota only)

theorem execSlow_kept (l : Nat) (m : Msg) (s : State) (hs : Kept cs_ s) : OutKept cs_ (execSlow l m s) := by
  unfold execSlow
  try extract_lets
  repeat'
    (first | with_reducible assumption | (with_reducible show Kept _ _; simp -iota -zeta only [memOk_mk, memsOk_mk])
            | (with_reducible show KeptParts _ _ _ _; simp -iota -zeta only [memsOk_mk]) | with_reducible apply memsOk_of
            | with_reducible apply cellsOk_of | with_reducible apply onLive_kept | with_reducible apply passOn_kept
            | with_reducible apply postSlow_kept | (refine pair_eq1 ?_ (by with_reducible assumption))
            | (refine pair_eq2 ?_ (by with_reducible assumption)) | (refine ans_done_eq ?_ (by with_reducible assumption))
            | (refine ans_wait_eq ?_ (by with_reducible assumption)) | with_reducible apply ans_done | with_reducible apply ans_wait
            | with_reducible apply out_next | with_reducible intro _ | extract_lets | split | dsimp +zetaDelta -iota only)

theorem execAdvert_kept (l : Nat) (m : Msg) (s : State) (hs : Kept cs_ s) : OutKept cs_ (execAdvert l m s) := by
  unfold execAdvert
  try extract_lets
  repeat'
    (first | with_reducible assumption | (with_reducible show Kept _ _; simp -iota -zeta only [memOk_mk, memsOk_mk])
            | (with_reducible show KeptParts _ _ _ _; simp -iota -zeta only [memsOk_mk]) | with_reducible apply memsOk_of
            | with_reducible apply cellsOk_of | with_reducible apply onMsg_kept | with_reducible apply passOn_kept
            | (refine pair_eq1 ?_ (by with_reducible assumption)) | (refine pair_eq2 ?_ (by with_reducible assumption))
            | (refine ans_done_eq ?_ (by with_reducible assumption)) | (refine ans_wait_eq ?_ (by with_reducible assumption))
            | with_reducible apply ans_done | with_reducible apply ans_wait | with_reducible apply out_next | with_reducible intro _
            | extract_lets | split | dsimp +zetaDelta -iota only)

theorem execCollReady_kept (l : Nat) (m : Msg) (s : State) (hs : Kept cs_ s) : OutKept cs_ (execCollReady l m s) := by
  unfold execCollReady
  try extract_lets
  repeat'
    (first | with_reducible assumption | (with_reducible show Kept _ _; simp -iota -zeta only [memOk_mk])
           | with_reducible apply memsOk_of | with_reducible apply onLive_kept | with_reducible apply passOn_kept
           | with_reducible apply collFail_kept | with_reducible apply collPush_kept | with_reducible apply modColl_kept
           | with_reducible apply collProgress_kept | with_reducible apply ans_done | with_reducible apply ans_wait
           | with_reducible apply out_next | with_reducible intro _ | extract_lets | split | dsimp +zetaDelta -iota only)

theorem execCollAbortReceived_kept (l : Nat) (m : Msg) (s : State) (hs : Kept cs_ s) : OutKept cs_ (execCollAbortReceived l m s) := by
  unfold execCollAbortReceived
  try extract_lets
  repeat'
    (first | with_reducible assumption | (with_reducible show Kept _ _; simp -iota -zeta only [memOk_mk])
           | with_reducible apply memsOk_of | with_reducible apply onLive_kept | with_reducible apply collAbort_kept
           | with_reducible apply rememberAbort_kept | with_reducible apply passOn_kept | with_reducible apply ans_done
           | with_reducible apply ans_wait | with_reducible apply out_next | with_reducible intro _ | extract_lets | split
           | dsimp +zetaDelta -iota only)

theorem execConcord_kept (l : Nat) (m : Msg) (s : State) (hs : Kept cs_ s) : OutKept cs_ (execConcord l m s) := by
  unfold execConcord
  try extract_lets
  repeat'
    (first | with_reducible assumption | (with_reducible show Kept _ _; simp -iota -zeta only [memOk_mk])
           | with_reducible apply memsOk_of | with_reducible apply onMsg_kept | with_reducible apply concordArrives_kept
           | with_reducible apply ans_done | with_reducible apply ans_wait | with_reducible apply out_next | with_reducible intro _
           | extract_lets | split | dsimp +zetaDelta -iota only)

end Sys2Proof.Machine
end

