-- ==== Sys2Proof/Laws/KeptThermal.lean ====
section
/-! SUPPORT. Every definition of Machine/Thermal.lean keeps the queue of waiting commands and the canonical form of both memories. -/
namespace Sys2Proof.Machine
open Sys2Proof
set_option maxHeartbeats 400000
set_option linter.all false
variable {cs_ : List Instr}
theorem abortRead_kept (s : State) (w : Waiting) (hs : Kept cs_ s) : Kept cs_ (abortRead s w) := by
  unfold abortRead
  try extract_lets
  repeat'
    (first | with_reducible assumption | (with_reducible show Kept _ _; simp -iota -zeta only [memOk_mk, memsOk_mk])
            | (with_reducible show KeptParts _ _ _ _; simp -iota -zeta only [memsOk_mk]) | with_reducible apply memsOk_of
            | with_reducible apply cellsOk_of | with_reducible apply cxlPoisoned_kept | with_reducible apply setReply_kept
            | (refine pair_eq1 ?_ (by with_reducible assumption)) | (refine pair_eq2 ?_ (by with_reducible assumption))
            | (refine ans_done_eq ?_ (by with_reducible assumption)) | (refine ans_wait_eq ?_ (by with_reducible assumption))
            | with_reducible apply ans_done | with_reducible apply ans_wait | with_reducible apply ans_held
            | with_reducible apply out_next | with_reducible intro _ | extract_lets | split | dsimp +zetaDelta -iota only)

theorem tripQueue_kept (t : Tier) (c : Nat) (s : State) (hs : Kept cs_ s) : Kept cs_ (tripQueue t c s).2 := by
  unfold tripQueue
  try extract_lets
  repeat'
    (first | with_reducible assumption | (with_reducible show Kept _ _; simp -iota -zeta only [memOk_mk, memsOk_mk])
            | (with_reducible show KeptParts _ _ _ _; simp -iota -zeta only [memsOk_mk]) | with_reducible apply memsOk_of
            | with_reducible apply cellsOk_of | with_reducible apply setChan_kept | with_reducible apply accessNow_kept
            | with_reducible apply abortRead_kept | with_reducible apply foldl_kept | with_reducible apply foldl_snd2_kept
            | with_reducible apply foldl_fst_kept | with_reducible apply foldl_snd_kept
            | (refine pair_eq1 ?_ (by with_reducible assumption)) | (refine pair_eq2 ?_ (by with_reducible assumption))
            | (refine ans_done_eq ?_ (by with_reducible assumption)) | (refine ans_wait_eq ?_ (by with_reducible assumption))
            | with_reducible apply ans_done | with_reducible apply ans_wait | with_reducible apply ans_held
            | with_reducible apply out_next | with_reducible intro _ | extract_lets | split | dsimp +zetaDelta -iota only)
theorem tripQueue_kept_eq {t : Tier} {c : Nat} {s : State} {r0 : Nat} {t_ : State} (hs : Kept cs_ s) (e_ : tripQueue t c s = (r0, t_)) :
    Kept cs_ t_ := by
  have := tripQueue_kept t c s hs
  rwa [e_] at this

theorem tripSources_kept (s : State) (t : Tier) (u : Nat) (hs : Kept cs_ s) : Kept cs_ (tripSources s t u) := by
  unfold tripSources
  try extract_lets
  repeat'
    (first | with_reducible assumption | (with_reducible show Kept _ _; simp -iota -zeta only [memOk_mk, memsOk_mk])
            | (with_reducible show KeptParts _ _ _ _; simp -iota -zeta only [memsOk_mk]) | with_reducible apply memsOk_of
            | with_reducible apply cellsOk_of | with_reducible apply accessChan_kept | with_reducible apply setChan_kept
            | with_reducible apply foldl_kept | with_reducible apply foldl_snd2_kept | with_reducible apply foldl_fst_kept
            | with_reducible apply foldl_snd_kept | (refine pair_eq1 ?_ (by with_reducible assumption))
            | (refine pair_eq2 ?_ (by with_reducible assumption)) | (refine ans_done_eq ?_ (by with_reducible assumption))
            | (refine ans_wait_eq ?_ (by with_reducible assumption)) | with_reducible apply ans_done | with_reducible apply ans_wait
            | with_reducible apply ans_held | with_reducible apply out_next | with_reducible intro _ | extract_lets | split
            | dsimp +zetaDelta -iota only)

theorem tripTraffic_kept (s : State) (t : Tier) (u : Nat) (hs : Kept cs_ s) : Kept cs_ (tripTraffic s t u) := by
  unfold tripTraffic
  try extract_lets
  repeat'
    (first | with_reducible assumption | (with_reducible show Kept _ _; simp -iota -zeta only [memOk_mk])
           | with_reducible apply memsOk_of | with_reducible intro _ | extract_lets | split | dsimp +zetaDelta -iota only)

theorem trip_kept (s : State) (t : Tier) (u : Nat) (temp : Int) (hs : Kept cs_ s) : Kept cs_ (trip s t u temp) := by
  unfold trip
  try extract_lets
  repeat'
    (first | with_reducible assumption | (with_reducible show Kept _ _; simp -iota -zeta only [memOk_mk, memsOk_mk])
            | (with_reducible show KeptParts _ _ _ _; simp -iota -zeta only [memsOk_mk]) | with_reducible apply memsOk_of
            | with_reducible apply cellsOk_of | with_reducible apply tripQueue_kept
            | with_reducible (refine tripQueue_kept_eq ?_ (by with_reducible assumption)) | with_reducible apply tripOrdered_kept
            | with_reducible (refine tripOrdered_kept_eq ?_ (by with_reducible assumption)) | with_reducible apply tripTraffic_kept
            | with_reducible apply setThermal_kept | with_reducible apply tripSources_kept | with_reducible apply foldl_kept
            | with_reducible apply collFail_kept | with_reducible apply setFault_kept | with_reducible apply blotUnit_kept
            | with_reducible apply logUnit_kept | with_reducible apply post_kept | with_reducible apply foldl_kept
            | with_reducible apply foldl_snd2_kept | with_reducible apply foldl_fst_kept | with_reducible apply foldl_snd_kept
            | (refine pair_eq1 ?_ (by with_reducible assumption)) | (refine pair_eq2 ?_ (by with_reducible assumption))
            | (refine ans_done_eq ?_ (by with_reducible assumption)) | (refine ans_wait_eq ?_ (by with_reducible assumption))
            | with_reducible apply ans_done | with_reducible apply ans_wait | with_reducible apply ans_held
            | with_reducible apply out_next | with_reducible intro _ | extract_lets | split | dsimp +zetaDelta -iota only)

theorem shareSample_kept (s : State) (t : Tier) (u : Nat) (temp : Int) (hs : Kept cs_ s) : Kept cs_ (shareSample s t u temp) := by
  unfold shareSample
  try extract_lets
  repeat'
    (first | with_reducible assumption | (with_reducible show Kept _ _; simp -iota -zeta only [memOk_mk])
           | with_reducible apply memsOk_of | with_reducible apply setThermal_kept | with_reducible apply post_kept
           | with_reducible apply blotUnit_kept | with_reducible apply logUnit_kept | with_reducible intro _ | extract_lets | split
           | dsimp +zetaDelta -iota only)

theorem sampleUnit_kept (s : State) (t : Tier) (u : Nat) (temp : Int) (hs : Kept cs_ s) : Kept cs_ (sampleUnit s t u temp) := by
  unfold sampleUnit
  try extract_lets
  repeat'
    (first | with_reducible assumption | (with_reducible show Kept _ _; simp -iota -zeta only [memOk_mk])
           | with_reducible apply memsOk_of | with_reducible apply setThermal_kept | with_reducible apply trip_kept
           | with_reducible apply shareSample_kept | with_reducible intro _ | extract_lets | split | dsimp +zetaDelta -iota only)

theorem execThermalSample_kept (temps : List (Tier × Nat × Int)) (s : State) (hs : Kept cs_ s) : OutKept cs_
    (execThermalSample temps s) := by
  unfold execThermalSample
  try extract_lets
  repeat'
    (first | with_reducible assumption | (with_reducible show Kept _ _; simp -iota -zeta only [memOk_mk])
           | with_reducible apply memsOk_of | with_reducible apply sendSlow_kept | with_reducible apply sampleUnit_kept
           | with_reducible apply foldl_kept | with_reducible apply ans_done | with_reducible apply ans_wait
           | with_reducible apply out_next | with_reducible intro _ | extract_lets | split | dsimp +zetaDelta -iota only)

end Sys2Proof.Machine
end

