-- ==== Sys2Proof/Laws/KeptPages.lean ====
section
/-! SUPPORT. Every definition of Machine/Pages.lean keeps the queue of waiting commands and the canonical form of both memories. -/
namespace Sys2Proof.Machine
open Sys2Proof
set_option maxHeartbeats 400000
set_option linter.all false
variable {cs_ : List Instr}
theorem devWrite_kept (s : State) (dpa : Nat) (b : List Byte) (hs : Kept cs_ s) : Kept cs_ (devWrite s dpa b) := by
  unfold devWrite
  try extract_lets
  repeat'
    (first | with_reducible assumption | (with_reducible show Kept _ _; simp -iota -zeta only [memOk_mk])
           | with_reducible apply memsOk_of | with_reducible apply writeBytes_kept
           | with_reducible (refine writeBytes_kept_eq ?_ (by with_reducible assumption)) | with_reducible intro _ | extract_lets | split
           | dsimp +zetaDelta -iota only)

theorem setPage_kept (s : State) (n : Nat) (g : Page) (hs : Kept cs_ s) : Kept cs_ (setPage s n g) := by
  unfold setPage
  try extract_lets
  repeat'
    (first | with_reducible assumption | (with_reducible show Kept _ _; simp -iota -zeta only [memOk_mk])
           | with_reducible apply memsOk_of | with_reducible apply devWrite_kept | with_reducible intro _ | extract_lets | split
           | dsimp +zetaDelta -iota only)

theorem setPool_kept (s : State) (k : Nat) (p : Pool) (hs : Kept cs_ s) : Kept cs_ (setPool s k p) := by
  unfold setPool
  try extract_lets
  repeat'
    (first | with_reducible assumption | (with_reducible show Kept _ _; simp -iota -zeta only [memOk_mk])
           | with_reducible apply memsOk_of | with_reducible intro _ | extract_lets | split | dsimp +zetaDelta -iota only)

theorem lowCheck_kept (s : State) (k : Nat) (hs : Kept cs_ s) : Kept cs_ (lowCheck s k) := by
  unfold lowCheck
  try extract_lets
  repeat'
    (first | with_reducible assumption | (with_reducible show Kept _ _; simp -iota -zeta only [memOk_mk])
           | with_reducible apply memsOk_of | with_reducible apply post_kept | with_reducible apply setPool_kept | with_reducible intro _
           | extract_lets | split | dsimp +zetaDelta -iota only)

theorem poolCount_kept (s : State) (k : Nat) (i : Nat) (hs : Kept cs_ s) : Kept cs_ (poolCount s k i) := by
  unfold poolCount
  try extract_lets
  repeat'
    (first | with_reducible assumption | (with_reducible show Kept _ _; simp -iota -zeta only [memOk_mk])
           | with_reducible apply memsOk_of | with_reducible apply setPool_kept | with_reducible intro _ | extract_lets | split
           | dsimp +zetaDelta -iota only)

theorem freePage_kept (s : State) (n : Nat) (hs : Kept cs_ s) : Kept cs_ (freePage s n) := by
  unfold freePage
  try extract_lets
  repeat'
    (first | with_reducible assumption | (with_reducible show Kept _ _; simp -iota -zeta only [memOk_mk])
           | with_reducible apply memsOk_of | with_reducible apply lowCheck_kept | with_reducible apply setPage_kept
           | with_reducible apply setPool_kept | with_reducible intro _ | extract_lets | split | dsimp +zetaDelta -iota only)

theorem pageLow_kept (s : State) (n : Nat) (hs : Kept cs_ s) : Kept cs_ (pageLow s n) := by
  unfold pageLow
  try extract_lets
  repeat'
    (first | with_reducible assumption | (with_reducible show Kept _ _; simp -iota -zeta only [memOk_mk])
           | with_reducible apply memsOk_of | with_reducible apply lowCheck_kept | with_reducible intro _ | extract_lets | split
           | dsimp +zetaDelta -iota only)

theorem unrefPage_kept (s : State) (n : Nat) (hs : Kept cs_ s) : Kept cs_ (unrefPage s n) := by
  unfold unrefPage
  try extract_lets
  repeat'
    (first | with_reducible assumption | (with_reducible show Kept _ _; simp -iota -zeta only [memOk_mk])
           | with_reducible apply memsOk_of | with_reducible apply freePage_kept | with_reducible apply pageLow_kept
           | with_reducible apply setPage_kept | with_reducible intro _ | extract_lets | split | dsimp +zetaDelta -iota only)

theorem setBucket_kept (s : State) (b : Nat) (l : List IndexEntry) (hs : Kept cs_ s) : Kept cs_ (setBucket s b l) := by
  unfold setBucket
  try extract_lets
  repeat'
    (first | with_reducible assumption | (with_reducible show Kept _ _; simp -iota -zeta only [memOk_mk])
           | with_reducible apply memsOk_of | with_reducible apply devWrite_kept | with_reducible intro _ | extract_lets | split
           | dsimp +zetaDelta -iota only)

theorem dropEntry_kept (s : State) (e : IndexEntry) (hs : Kept cs_ s) : Kept cs_ (dropEntry s e) := by
  unfold dropEntry
  try extract_lets
  repeat'
    (first | with_reducible assumption | (with_reducible show Kept _ _; simp -iota -zeta only [memOk_mk])
           | with_reducible apply memsOk_of | with_reducible apply setBucket_kept | with_reducible apply pageLow_kept
           | with_reducible apply setPage_kept | with_reducible intro _ | extract_lets | split | dsimp +zetaDelta -iota only)

theorem reclaimPage_kept (s : State) (n : Nat) (hs : Kept cs_ s) : Kept cs_ (reclaimPage s n) := by
  unfold reclaimPage
  try extract_lets
  repeat'
    (first | with_reducible assumption | (with_reducible show Kept _ _; simp -iota -zeta only [memOk_mk])
           | with_reducible apply memsOk_of | with_reducible apply dropEntry_kept | with_reducible apply poolCount_kept
           | with_reducible apply freePage_kept | with_reducible apply prog_kept | with_reducible intro _ | extract_lets | split
           | dsimp +zetaDelta -iota only)

theorem takeFree_kept_eq {s : State} {k : Nat} {r0 : Nat} {t_ : State} (hs : Kept cs_ s) (e_ : takeFree s k = some (r0, t_))
    : Kept cs_ t_ := by
  unfold takeFree at e_
  try dsimp only at e_
  repeat' (first | contradiction | (cases e_; done) | split at e_)
  all_goals (try (injection e_ with e_; first | subst e_ | (injection e_ with _ e_; first | subst e_ | (injection e_ with _ e_; subst e_))))
  all_goals repeat'
    (first | with_reducible assumption | (with_reducible show Kept _ _; simp -iota -zeta only [memOk_mk])
           | with_reducible apply memsOk_of | with_reducible apply setPool_kept | with_reducible intro _ | extract_lets | split
           | dsimp +zetaDelta -iota only)

theorem allocPage_kept_eq {s : State} {k : Nat} {g : Page} {r0 : Nat} {t_ : State} (hs : Kept cs_ s) (e_ : allocPage s k g = some
    (r0, t_)) : Kept cs_ t_ := by
  unfold allocPage at e_
  try dsimp only at e_
  repeat' (first | contradiction | (cases e_; done) | split at e_)
  all_goals (try (injection e_ with e_; first | subst e_ | (injection e_ with _ e_; first | subst e_ | (injection e_ with _ e_; subst e_))))
  all_goals repeat'
    (first | with_reducible assumption | (with_reducible show Kept _ _; simp -iota -zeta only [memOk_mk])
           | with_reducible apply memsOk_of | with_reducible apply reclaimPage_kept
           | with_reducible (refine takeFree_kept_eq ?_ (by with_reducible assumption)) | with_reducible apply lowCheck_kept
           | with_reducible apply setPage_kept | with_reducible apply prog_kept | with_reducible intro _ | extract_lets | split
           | dsimp +zetaDelta -iota only)

theorem takeBlock_kept_eq {s : State} {r0 : Nat} {t_ : State} (hs : Kept cs_ s) (e_ : takeBlock s = some (r0, t_)) : Kept cs_ t_ := by
  unfold takeBlock at e_
  try dsimp only at e_
  repeat' (first | contradiction | (cases e_; done) | split at e_)
  all_goals (try (injection e_ with e_; first | subst e_ | (injection e_ with _ e_; first | subst e_ | (injection e_ with _ e_; subst e_))))
  all_goals repeat'
    (first | with_reducible assumption | (with_reducible show Kept _ _; simp -iota -zeta only [memOk_mk])
           | with_reducible apply memsOk_of | with_reducible intro _ | extract_lets | split | dsimp +zetaDelta -iota only)

theorem newBlock_kept_eq {s : State} {root : Bool} {r0 : Nat} {t_ : State} (hs : Kept cs_ s) (e_ : newBlock s root = some (r0, t_))
    : Kept cs_ t_ := by
  unfold newBlock at e_
  try dsimp only at e_
  repeat' (first | contradiction | (cases e_; done) | split at e_)
  all_goals (try (injection e_ with e_; first | subst e_ | (injection e_ with _ e_; first | subst e_ | (injection e_ with _ e_; subst e_))))
  all_goals repeat'
    (first | with_reducible assumption | (with_reducible show Kept _ _; simp -iota -zeta only [memOk_mk])
           | with_reducible apply memsOk_of | with_reducible (refine takeBlock_kept_eq ?_ (by with_reducible assumption))
           | with_reducible apply devWrite_kept | with_reducible intro _ | extract_lets | split | dsimp +zetaDelta -iota only)

theorem freeBlock_kept (s : State) (b : Nat) (hs : Kept cs_ s) : Kept cs_ (freeBlock s b) := by
  unfold freeBlock
  try extract_lets
  repeat'
    (first | with_reducible assumption | (with_reducible show Kept _ _; simp -iota -zeta only [memOk_mk])
           | with_reducible apply memsOk_of | with_reducible intro _ | extract_lets | split | dsimp +zetaDelta -iota only)

theorem setReq_kept (s : State) (e : Nat) (r : Req) (hs : Kept cs_ s) : Kept cs_ (setReq s e r) := by
  unfold setReq
  try extract_lets
  repeat'
    (first | with_reducible assumption | (with_reducible show Kept _ _; simp -iota -zeta only [memOk_mk])
           | with_reducible apply memsOk_of | with_reducible intro _ | extract_lets | split | dsimp +zetaDelta -iota only)

theorem leafBlock_kept_eq {s : State} {e : Nat} {i : Nat} {r0 : Nat} {t_ : State} (hs : Kept cs_ s) (e_ : leafBlock s e i = some
    (r0, t_)) : Kept cs_ t_ := by
  unfold leafBlock at e_
  try dsimp only at e_
  repeat' (first | contradiction | (cases e_; done) | split at e_)
  all_goals (try (injection e_ with e_; first | subst e_ | (injection e_ with _ e_; first | subst e_ | (injection e_ with _ e_; subst e_))))
  all_goals repeat'
    (first | with_reducible assumption | (with_reducible show Kept _ _; simp -iota -zeta only [memOk_mk])
           | with_reducible apply memsOk_of | with_reducible (refine newBlock_kept_eq ?_ (by with_reducible assumption))
           | with_reducible apply devWrite_kept | with_reducible apply setReq_kept | with_reducible intro _ | extract_lets | split
           | dsimp +zetaDelta -iota only)

theorem setLeaf_kept_eq {s : State} {e : Nat} {i : Nat} {v : Nat} {t_ : State} (hs : Kept cs_ s) (e_ : setLeaf s e i v = some t_)
    : Kept cs_ t_ := by
  unfold setLeaf at e_
  try dsimp only at e_
  repeat' (first | contradiction | (cases e_; done) | split at e_)
  all_goals (try (injection e_ with e_; first | subst e_ | (injection e_ with _ e_; first | subst e_ | (injection e_ with _ e_; subst e_))))
  all_goals repeat'
    (first | with_reducible assumption | (with_reducible show Kept _ _; simp -iota -zeta only [memOk_mk])
           | with_reducible apply memsOk_of | with_reducible (refine leafBlock_kept_eq ?_ (by with_reducible assumption))
           | with_reducible apply devWrite_kept | with_reducible apply setReq_kept | with_reducible intro _ | extract_lets | split
           | dsimp +zetaDelta -iota only)

theorem clearLeaf_kept (s : State) (e : Nat) (i : Nat) (hs : Kept cs_ s) : Kept cs_ (clearLeaf s e i) := by
  unfold clearLeaf
  try extract_lets
  repeat'
    (first | with_reducible assumption | (with_reducible show Kept _ _; simp -iota -zeta only [memOk_mk])
           | with_reducible apply memsOk_of | with_reducible apply setReq_kept | with_reducible apply devWrite_kept
           | with_reducible intro _ | extract_lets | split | dsimp +zetaDelta -iota only)

theorem cacheProbe_kept (s : State) (hs : Kept cs_ s) : Kept cs_ (cacheProbe s) := by
  unfold cacheProbe
  try extract_lets
  repeat'
    (first | with_reducible assumption | (with_reducible show Kept _ _; simp -iota -zeta only [memOk_mk])
           | with_reducible apply memsOk_of | with_reducible apply freeWord_kept
           | with_reducible (refine freeWord_kept_eq ?_ (by with_reducible assumption)) | with_reducible apply prog_kept
           | with_reducible intro _ | extract_lets | split | dsimp +zetaDelta -iota only)

theorem matchBlock_kept (s : State) (m : Nat) (parent : Nat) (key : BitVec 64) (toks : List (BitVec 32)) (room : Bool) (hs : Kept cs_ s)
    : Kept cs_ (matchBlock s m parent key toks room).2 := by
  unfold matchBlock
  try extract_lets
  repeat'
    (first | with_reducible assumption | (with_reducible show Kept _ _; simp -iota -zeta only [memOk_mk])
           | with_reducible apply memsOk_of | with_reducible apply cacheProbe_kept | with_reducible apply prog_kept
           | with_reducible apply poolCount_kept | with_reducible intro _ | extract_lets | split | dsimp +zetaDelta -iota only)
theorem matchBlock_kept_eq {s : State} {m : Nat} {parent : Nat} {key : BitVec 64} {toks : List (BitVec 32)} {room : Bool} {r0
    : Option Nat} {t_ : State} (hs : Kept cs_ s) (e_ : matchBlock s m parent key toks room = (r0, t_)) : Kept cs_ t_ := by
  have := matchBlock_kept s m parent key toks room hs
  rwa [e_] at this

theorem matchGo_kept (m : Nat) (room : Bool) (x2 : Nat) (x3 : List (BitVec 64 × List (BitVec 32))) (x4 : State) (x5 : List Nat) (hx4
    : Kept cs_ x4) : Kept cs_ (matchGo m room x2 x3 x4 x5).2 := by
  induction x3 generalizing x4 x2 x5 with
  | nil => (first | with_reducible assumption | (unfold matchGo; with_reducible assumption))
  | cons x_ r_ ih =>
    unfold matchGo
    try extract_lets
    repeat'
      (first | with_reducible assumption | (with_reducible show Kept _ _; simp -iota -zeta only [memOk_mk])
             | with_reducible apply memsOk_of | with_reducible apply matchBlock_kept
             | with_reducible (refine matchBlock_kept_eq ?_ (by with_reducible assumption)) | with_reducible apply ih
             | with_reducible intro _ | extract_lets | split | dsimp +zetaDelta -iota only)
theorem matchGo_kept_eq {m : Nat} {room : Bool} {x2 : Nat} {x3 : List (BitVec 64 × List (BitVec 32))} {x4 : State} {x5 : List Nat} {r0
    : List Nat} {t_ : State} (hx4 : Kept cs_ x4) (e_ : matchGo m room x2 x3 x4 x5 = (r0, t_)) : Kept cs_ t_ := by
  have := matchGo_kept m room x2 x3 x4 x5 hx4
  rwa [e_] at this

theorem lookup_kept (s : State) (m : Nat) (blocks : List (List (BitVec 32))) (done : Nat) (parent : Nat) (room : Bool) (hs : Kept cs_ s)
    : Kept cs_ (lookup s m blocks done parent room).2 := by
  unfold lookup
  try extract_lets
  repeat'
    (first | with_reducible assumption | (with_reducible show Kept _ _; simp -iota -zeta only [memOk_mk])
           | with_reducible apply memsOk_of | with_reducible apply prog_kept | with_reducible apply poolCount_kept
           | with_reducible apply matchGo_kept | with_reducible (refine matchGo_kept_eq ?_ (by with_reducible assumption))
           | with_reducible intro _ | extract_lets | split | dsimp +zetaDelta -iota only)
theorem lookup_kept_eq {s : State} {m : Nat} {blocks : List (List (BitVec 32))} {done : Nat} {parent : Nat} {room : Bool} {r0 : List Nat}
    {t_ : State} (hs : Kept cs_ s) (e_ : lookup s m blocks done parent room = (r0, t_)) : Kept cs_ t_ := by
  have := lookup_kept s m blocks done parent room hs
  rwa [e_] at this

theorem attachPages_kept (e : Nat) (x1 : List Nat) (x2 : Nat) (x3 : State) (hx3 : Kept cs_ x3) : Kept cs_ (attachPages e x1 x2 x3).2 := by
  fun_induction attachPages e x1 x2 x3
  all_goals try extract_lets
  all_goals repeat'
    (first | with_reducible assumption | (with_reducible show Kept _ _; simp -iota -zeta only [memOk_mk, memsOk_mk])
           | (with_reducible show KeptParts _ _ _ _; simp -iota -zeta only [memsOk_mk]) | with_reducible apply memsOk_of
           | with_reducible apply cellsOk_of | with_reducible (refine setLeaf_kept_eq ?_ (by with_reducible assumption))
           | with_reducible apply pageLow_kept | with_reducible apply setPage_kept | with_reducible apply_assumption
           | with_reducible apply foldl_kept | with_reducible apply foldl_snd2_kept | with_reducible apply foldl_fst_kept
           | with_reducible apply foldl_snd_kept | with_reducible apply getD_kept | (refine pair_eq1 ?_ (by with_reducible assumption))
           | (refine pair_eq2 ?_ (by with_reducible assumption)) | (refine ans_done_eq ?_ (by with_reducible assumption))
           | (refine ans_wait_eq ?_ (by with_reducible assumption)) | with_reducible apply ans_done | with_reducible apply ans_wait
           | with_reducible apply out_next | with_reducible intro _ | extract_lets | split | dsimp +zetaDelta -iota only)
theorem attachPages_kept_eq {e : Nat} {x1 : List Nat} {x2 : Nat} {x3 : State} {r0 : Nat} {t_ : State} (hx3 : Kept cs_ x3) (e_
    : attachPages e x1 x2 x3 = (r0, t_)) : Kept cs_ t_ := by
  have := attachPages_kept e x1 x2 x3 hx3
  rwa [e_] at this

theorem enterIndex_kept (s : State) (n : Nat) (m : Nat) (parent : Nat) (key : BitVec 64) (hs : Kept cs_ s) : Kept cs_
    (enterIndex s n m parent key) := by
  unfold enterIndex
  try extract_lets
  repeat'
    (first | with_reducible assumption | (with_reducible show Kept _ _; simp -iota -zeta only [memOk_mk])
           | with_reducible apply memsOk_of | with_reducible apply setBucket_kept | with_reducible apply setPage_kept
           | with_reducible apply pageLow_kept | with_reducible apply poolCount_kept | with_reducible intro _ | extract_lets | split
           | dsimp +zetaDelta -iota only)

theorem publishPage_kept (s : State) (e : Nat) (i : Nat) (hs : Kept cs_ s) : Kept cs_ (publishPage s e i) := by
  unfold publishPage
  try extract_lets
  repeat'
    (first | with_reducible assumption | (with_reducible show Kept _ _; simp -iota -zeta only [memOk_mk, memsOk_mk])
            | (with_reducible show KeptParts _ _ _ _; simp -iota -zeta only [memsOk_mk]) | with_reducible apply memsOk_of
            | with_reducible apply cellsOk_of | with_reducible apply setPage_kept | with_reducible apply poolCount_kept
            | with_reducible apply enterIndex_kept | with_reducible apply reclaimPage_kept | with_reducible apply getD_kept
            | (refine pair_eq1 ?_ (by with_reducible assumption)) | (refine pair_eq2 ?_ (by with_reducible assumption))
            | (refine ans_done_eq ?_ (by with_reducible assumption)) | (refine ans_wait_eq ?_ (by with_reducible assumption))
            | with_reducible apply ans_done | with_reducible apply ans_wait | with_reducible apply ans_held
            | with_reducible apply out_next | with_reducible intro _ | extract_lets | split | dsimp +zetaDelta -iota only)

theorem flushIndex_kept (s : State) (m : Nat) (hs : Kept cs_ s) : Kept cs_ (flushIndex s m) := by
  unfold flushIndex
  try extract_lets
  repeat'
    (first | with_reducible assumption | (with_reducible show Kept _ _; simp -iota -zeta only [memOk_mk])
           | with_reducible apply memsOk_of | with_reducible apply dropEntry_kept | with_reducible apply unrefPage_kept
           | with_reducible apply setPage_kept | with_reducible apply foldl_kept | with_reducible intro _ | extract_lets | split
           | dsimp +zetaDelta -iota only)

theorem releasePages_kept (s : State) (e : Nat) (hs : Kept cs_ s) : Kept cs_ (releasePages s e) := by
  unfold releasePages
  try extract_lets
  repeat'
    (first | with_reducible assumption | (with_reducible show Kept _ _; simp -iota -zeta only [memOk_mk])
           | with_reducible apply memsOk_of | with_reducible apply unrefPage_kept | with_reducible apply clearLeaf_kept
           | with_reducible apply foldl_kept | with_reducible intro _ | extract_lets | split | dsimp +zetaDelta -iota only)

theorem dropMoves_kept (s : State) (e : Nat) (hs : Kept cs_ s) : Kept cs_ (dropMoves s e) := by
  unfold dropMoves
  try extract_lets
  repeat'
    (first | with_reducible assumption | (with_reducible show Kept _ _; simp -iota -zeta only [memOk_mk])
           | with_reducible apply memsOk_of | with_reducible apply unrefPage_kept | with_reducible apply setReq_kept
           | with_reducible apply foldl_kept | with_reducible intro _ | extract_lets | split | dsimp +zetaDelta -iota only)

theorem endWaits_kept (s : State) (e : Nat) (hs : Kept cs_ s) : Kept cs_ (endWaits s e) := by
  unfold endWaits
  try extract_lets
  repeat'
    (first | with_reducible assumption | (with_reducible show Kept _ _; simp -iota -zeta only [memOk_mk])
           | with_reducible apply memsOk_of | with_reducible apply complete_kept | with_reducible apply foldl_kept
           | with_reducible intro _ | extract_lets | split | dsimp +zetaDelta -iota only)

theorem endRequest_kept (s : State) (e : Nat) (endCode : Nat) (st : Nat) (hs : Kept cs_ s) : Kept cs_ (endRequest s e endCode st) := by
  unfold endRequest
  try extract_lets
  repeat'
    (first | with_reducible assumption | (with_reducible show Kept _ _; simp -iota -zeta only [memOk_mk])
           | with_reducible apply memsOk_of | with_reducible apply releasePages_kept | with_reducible apply dropMoves_kept
           | with_reducible apply setReq_kept | with_reducible apply endWaits_kept | with_reducible apply post_kept
           | with_reducible intro _ | extract_lets | split | dsimp +zetaDelta -iota only)

theorem faultRequest_kept (s : State) (e : Nat) (hs : Kept cs_ s) : Kept cs_ (faultRequest s e) := by
  unfold faultRequest
  try extract_lets
  repeat'
    (first | with_reducible assumption | (with_reducible show Kept _ _; simp -iota -zeta only [memOk_mk])
           | with_reducible apply memsOk_of | with_reducible apply endRequest_kept | with_reducible intro _ | extract_lets | split
           | dsimp +zetaDelta -iota only)

end Sys2Proof.Machine
end

