-- ==== Sys2Proof/Laws/KeptFlourish.lean ====
section
/-! SUPPORT. Every definition of Machine/Flourish.lean keeps the queue of waiting commands and the canonical form of both memories. -/
namespace Sys2Proof.Machine
open Sys2Proof
set_option maxHeartbeats 400000
set_option linter.all false
variable {cs_ : List Instr}
theorem execFlourishConfig_kept (c : Cmd) (s : State) (hs : Kept cs_ s) : OutKept cs_ (execFlourishConfig c s) := by
  unfold execFlourishConfig
  try extract_lets
  repeat'
    (first | with_reducible assumption | (with_reducible show Kept _ _; simp -iota -zeta only [memOk_mk, memsOk_mk])
            | (with_reducible show KeptParts _ _ _ _; simp -iota -zeta only [memsOk_mk]) | with_reducible apply memsOk_of
            | with_reducible apply cellsOk_of | with_reducible apply firmware_kept | with_reducible apply checked_kept
            | (refine pair_eq1 ?_ (by with_reducible assumption)) | (refine pair_eq2 ?_ (by with_reducible assumption))
            | (refine ans_done_eq ?_ (by with_reducible assumption)) | (refine ans_wait_eq ?_ (by with_reducible assumption))
            | with_reducible apply ans_done | with_reducible apply ans_wait | with_reducible apply ans_held
            | with_reducible apply out_next | with_reducible intro _ | extract_lets | split | dsimp +zetaDelta -iota only)

theorem grammarAt_kept (s : State) (p : Nat) (slot : Nat) (hs : Kept cs_ s) : Kept cs_ (grammarAt s p slot).2 := by
  unfold grammarAt
  try extract_lets
  repeat'
    (first | with_reducible assumption | (with_reducible show Kept _ _; simp -iota -zeta only [memOk_mk, memsOk_mk])
            | (with_reducible show KeptParts _ _ _ _; simp -iota -zeta only [memsOk_mk]) | with_reducible apply memsOk_of
            | with_reducible apply cellsOk_of | with_reducible apply readBytes_kept
            | with_reducible (refine readBytes_kept_eq ?_ (by with_reducible assumption))
            | (refine pair_eq1 ?_ (by with_reducible assumption)) | (refine pair_eq2 ?_ (by with_reducible assumption))
            | (refine ans_done_eq ?_ (by with_reducible assumption)) | (refine ans_wait_eq ?_ (by with_reducible assumption))
            | with_reducible apply ans_done | with_reducible apply ans_wait | with_reducible apply ans_held
            | with_reducible apply out_next | with_reducible intro _ | extract_lets | split | dsimp +zetaDelta -iota only)
theorem grammarAt_kept_eq {s : State} {p : Nat} {slot : Nat} {r0 : Option (List Byte)} {t_ : State} (hs : Kept cs_ s) (e_ : grammarAt s p
    slot = (r0, t_)) : Kept cs_ t_ := by
  have := grammarAt_kept s p slot hs
  rwa [e_] at this

theorem execGrammarLoad_kept (c : Cmd) (s : State) (hs : Kept cs_ s) : OutKept cs_ (execGrammarLoad c s) := by
  unfold execGrammarLoad
  try extract_lets
  repeat'
    (first | with_reducible assumption | (with_reducible show Kept _ _; simp -iota -zeta only [memOk_mk, memsOk_mk])
            | (with_reducible show KeptParts _ _ _ _; simp -iota -zeta only [memsOk_mk]) | with_reducible apply memsOk_of
            | with_reducible apply cellsOk_of | with_reducible apply firmware_kept | with_reducible apply checked_kept
            | with_reducible apply readBytes_kept | with_reducible (refine readBytes_kept_eq ?_ (by with_reducible assumption))
            | (refine pair_eq1 ?_ (by with_reducible assumption)) | (refine pair_eq2 ?_ (by with_reducible assumption))
            | (refine ans_done_eq ?_ (by with_reducible assumption)) | (refine ans_wait_eq ?_ (by with_reducible assumption))
            | with_reducible apply ans_done | with_reducible apply ans_wait | with_reducible apply ans_held
            | with_reducible apply out_next | with_reducible intro _ | extract_lets | split | dsimp +zetaDelta -iota only)

theorem execGrammarUnload_kept (c : Cmd) (s : State) (hs : Kept cs_ s) : OutKept cs_ (execGrammarUnload c s) := by
  unfold execGrammarUnload
  try extract_lets
  repeat'
    (first | with_reducible assumption | (with_reducible show Kept _ _; simp -iota -zeta only [memOk_mk])
           | with_reducible apply memsOk_of | with_reducible apply firmware_kept | with_reducible apply checked_kept
           | with_reducible apply ans_done | with_reducible apply ans_wait | with_reducible apply out_next | with_reducible intro _
           | extract_lets | split | dsimp +zetaDelta -iota only)

theorem samplingAt_kept (s : State) (p : Nat) (dpa : Nat) (hs : Kept cs_ s) : Kept cs_ (samplingAt s p dpa).2 := by
  unfold samplingAt
  try extract_lets
  repeat'
    (first | with_reducible assumption | (with_reducible show Kept _ _; simp -iota -zeta only [memOk_mk, memsOk_mk])
            | (with_reducible show KeptParts _ _ _ _; simp -iota -zeta only [memsOk_mk]) | with_reducible apply memsOk_of
            | with_reducible apply cellsOk_of | with_reducible apply readBytes_kept
            | with_reducible (refine readBytes_kept_eq ?_ (by with_reducible assumption))
            | (refine pair_eq1 ?_ (by with_reducible assumption)) | (refine pair_eq2 ?_ (by with_reducible assumption))
            | (refine ans_done_eq ?_ (by with_reducible assumption)) | (refine ans_wait_eq ?_ (by with_reducible assumption))
            | with_reducible apply ans_done | with_reducible apply ans_wait | with_reducible apply ans_held
            | with_reducible apply out_next | with_reducible intro _ | extract_lets | split | dsimp +zetaDelta -iota only)
theorem samplingAt_kept_eq {s : State} {p : Nat} {dpa : Nat} {r0 : Option Sampling} {t_ : State} (hs : Kept cs_ s) (e_ : samplingAt s p
    dpa = (r0, t_)) : Kept cs_ t_ := by
  have := samplingAt_kept s p dpa hs
  rwa [e_] at this

theorem samplingCheck_kept (s : State) (p : Nat) (dpa : Nat) (counts : Nat) (hs : Kept cs_ s) : Kept cs_
    (samplingCheck s p dpa counts).2 := by
  unfold samplingCheck
  try extract_lets
  repeat'
    (first | with_reducible assumption | (with_reducible show Kept _ _; simp -iota -zeta only [memOk_mk])
           | with_reducible apply memsOk_of | with_reducible apply samplingAt_kept
           | with_reducible (refine samplingAt_kept_eq ?_ (by with_reducible assumption)) | with_reducible intro _ | extract_lets | split
           | dsimp +zetaDelta -iota only)
theorem samplingCheck_kept_eq {s : State} {p : Nat} {dpa : Nat} {counts : Nat} {r0 : Option Sampling} {t_ : State} (hs : Kept cs_ s) (e_
    : samplingCheck s p dpa counts = (r0, t_)) : Kept cs_ t_ := by
  have := samplingCheck_kept s p dpa counts hs
  rwa [e_] at this

theorem floCount_kept (s : State) (p : Nat) (i : Nat) (n : Nat) (hs : Kept cs_ s) : Kept cs_ (floCount s p i n) := by
  unfold floCount
  try extract_lets
  repeat'
    (first | with_reducible assumption | (with_reducible show Kept _ _; simp -iota -zeta only [memOk_mk])
           | with_reducible apply memsOk_of | with_reducible intro _ | extract_lets | split | dsimp +zetaDelta -iota only)

theorem vectorAt_kept (s : State) (p : Nat) (dpa : Nat) (a : LogitsArea) (hs : Kept cs_ s) : Kept cs_ (vectorAt s p dpa a).2.2.2 := by
  unfold vectorAt
  try extract_lets
  repeat'
    (first | with_reducible assumption | (with_reducible show Kept _ _; simp -iota -zeta only [memOk_mk, memsOk_mk])
            | (with_reducible show KeptParts _ _ _ _; simp -iota -zeta only [memsOk_mk]) | with_reducible apply memsOk_of
            | with_reducible apply cellsOk_of | with_reducible apply readBytes_kept
            | with_reducible (refine readBytes_kept_eq ?_ (by with_reducible assumption)) | with_reducible apply floCount_kept
            | with_reducible apply prog_kept | with_reducible apply bump_kept | (refine pair_eq1 ?_ (by with_reducible assumption))
            | (refine pair_eq2 ?_ (by with_reducible assumption)) | (refine ans_done_eq ?_ (by with_reducible assumption))
            | (refine ans_wait_eq ?_ (by with_reducible assumption)) | with_reducible apply ans_done | with_reducible apply ans_wait
            | with_reducible apply ans_held | with_reducible apply out_next | with_reducible intro _ | extract_lets | split
            | dsimp +zetaDelta -iota only)
theorem vectorAt_kept_eq {s : State} {p : Nat} {dpa : Nat} {a : LogitsArea} {r0 : Nat} {r1 : List Nat} {r2 : Bool} {t_ : State} (hs : Kept
    cs_ s) (e_ : vectorAt s p dpa a = (r0, r1, r2, t_)) : Kept cs_ t_ := by
  have := vectorAt_kept s p dpa a hs
  rwa [e_] at this

theorem countsAt_kept (s : State) (p : Nat) (dpa : Nat) (V : Nat) (hs : Kept cs_ s) : Kept cs_ (countsAt s p dpa V).2 := by
  unfold countsAt
  try extract_lets
  repeat'
    (first | with_reducible assumption | (with_reducible show Kept _ _; simp -iota -zeta only [memOk_mk, memsOk_mk])
            | (with_reducible show KeptParts _ _ _ _; simp -iota -zeta only [memsOk_mk]) | with_reducible apply memsOk_of
            | with_reducible apply cellsOk_of | with_reducible apply readBytes_kept
            | with_reducible (refine readBytes_kept_eq ?_ (by with_reducible assumption))
            | (refine pair_eq1 ?_ (by with_reducible assumption)) | (refine pair_eq2 ?_ (by with_reducible assumption))
            | (refine ans_done_eq ?_ (by with_reducible assumption)) | (refine ans_wait_eq ?_ (by with_reducible assumption))
            | with_reducible apply ans_done | with_reducible apply ans_wait | with_reducible apply ans_held
            | with_reducible apply out_next | with_reducible intro _ | extract_lets | split | dsimp +zetaDelta -iota only)
theorem countsAt_kept_eq {s : State} {p : Nat} {dpa : Nat} {V : Nat} {r0 : List Nat} {t_ : State} (hs : Kept cs_ s) (e_ : countsAt s p dpa
    V = (r0, t_)) : Kept cs_ t_ := by
  have := countsAt_kept s p dpa V hs
  rwa [e_] at this

theorem draftAt_kept (s : State) (p : Nat) (dpa : Nat) (hs : Kept cs_ s) : Kept cs_ (draftAt s p dpa).2 := by
  unfold draftAt
  try extract_lets
  repeat'
    (first | with_reducible assumption | (with_reducible show Kept _ _; simp -iota -zeta only [memOk_mk, memsOk_mk])
            | (with_reducible show KeptParts _ _ _ _; simp -iota -zeta only [memsOk_mk]) | with_reducible apply memsOk_of
            | with_reducible apply cellsOk_of | with_reducible apply readBytes_kept
            | with_reducible (refine readBytes_kept_eq ?_ (by with_reducible assumption))
            | (refine pair_eq1 ?_ (by with_reducible assumption)) | (refine pair_eq2 ?_ (by with_reducible assumption))
            | (refine ans_done_eq ?_ (by with_reducible assumption)) | (refine ans_wait_eq ?_ (by with_reducible assumption))
            | with_reducible apply ans_done | with_reducible apply ans_wait | with_reducible apply ans_held
            | with_reducible apply out_next | with_reducible intro _ | extract_lets | split | dsimp +zetaDelta -iota only)
theorem draftAt_kept_eq {s : State} {p : Nat} {dpa : Nat} {r0 : Option DraftRec} {t_ : State} (hs : Kept cs_ s) (e_ : draftAt s p dpa =
    (r0, t_)) : Kept cs_ t_ := by
  have := draftAt_kept s p dpa hs
  rwa [e_] at this

theorem walkCtx_kept (s : State) (e : Nat) (q : Sampling) (pos : Nat) (hs : Kept cs_ s) : Kept cs_ (walkCtx s e q pos).2 := by
  unfold walkCtx
  try extract_lets
  repeat'
    (first | with_reducible assumption | (with_reducible show Kept _ _; simp -iota -zeta only [memOk_mk])
           | with_reducible apply memsOk_of | with_reducible apply grammarAt_kept
           | with_reducible (refine grammarAt_kept_eq ?_ (by with_reducible assumption)) | with_reducible apply countsAt_kept
           | with_reducible (refine countsAt_kept_eq ?_ (by with_reducible assumption)) | with_reducible intro _ | extract_lets | split
           | dsimp +zetaDelta -iota only)
theorem walkCtx_kept_eq {s : State} {e : Nat} {q : Sampling} {pos : Nat} {r0 : WalkCtx} {t_ : State} (hs : Kept cs_ s) (e_
    : walkCtx s e q pos = (r0, t_)) : Kept cs_ t_ := by
  have := walkCtx_kept s e q pos hs
  rwa [e_] at this

theorem probe_kept (s : State) (e : Nat) (dpa : Nat) (pos : Nat) (a : LogitsArea) (q : Sampling) (hs : Kept cs_ s) : AnsKept cs_ (probe s
    e dpa pos a q) := by
  unfold probe
  try extract_lets
  repeat'
    (first | with_reducible assumption | (with_reducible show Kept _ _; simp -iota -zeta only [memOk_mk, memsOk_mk])
            | (with_reducible show KeptParts _ _ _ _; simp -iota -zeta only [memsOk_mk]) | with_reducible apply memsOk_of
            | with_reducible apply cellsOk_of | with_reducible apply vectorAt_kept
            | with_reducible (refine vectorAt_kept_eq ?_ (by with_reducible assumption)) | with_reducible apply walkCtx_kept
            | with_reducible (refine walkCtx_kept_eq ?_ (by with_reducible assumption)) | with_reducible apply floCount_kept
            | with_reducible apply getD_kept | (refine pair_eq1 ?_ (by with_reducible assumption))
            | (refine pair_eq2 ?_ (by with_reducible assumption)) | (refine ans_done_eq ?_ (by with_reducible assumption))
            | (refine ans_wait_eq ?_ (by with_reducible assumption)) | with_reducible apply ans_done | with_reducible apply ans_wait
            | with_reducible apply ans_held | with_reducible apply out_next | with_reducible intro _ | extract_lets | split
            | dsimp +zetaDelta -iota only)

theorem execFlourishProbe_kept (c : Cmd) (s : State) (hs : Kept cs_ s) : OutKept cs_ (execFlourishProbe c s) := by
  unfold execFlourishProbe
  try extract_lets
  repeat'
    (first | with_reducible assumption | (with_reducible show Kept _ _; simp -iota -zeta only [memOk_mk])
           | with_reducible apply memsOk_of | with_reducible apply firmware_kept | with_reducible apply checked_kept
           | with_reducible apply samplingCheck_kept | with_reducible (refine samplingCheck_kept_eq ?_ (by with_reducible assumption))
           | with_reducible apply probe_kept | with_reducible apply ans_done | with_reducible apply ans_wait
           | with_reducible apply out_next | with_reducible intro _ | extract_lets | split | dsimp +zetaDelta -iota only)

theorem execFlourishCounters_kept (c : Cmd) (s : State) (hs : Kept cs_ s) : OutKept cs_ (execFlourishCounters c s) := by
  unfold execFlourishCounters
  try extract_lets
  repeat'
    (first | with_reducible assumption | (with_reducible show Kept _ _; simp -iota -zeta only [memOk_mk])
           | with_reducible apply memsOk_of | with_reducible apply firmware_kept | with_reducible apply checked_kept
           | with_reducible apply reportTo_kept | with_reducible apply ans_done | with_reducible apply ans_wait
           | with_reducible apply out_next | with_reducible intro _ | extract_lets | split | dsimp +zetaDelta -iota only)

end Sys2Proof.Machine
end

