-- ==== Sys2Proof/Laws/KeptServing.lean ====
section
/-! SUPPORT. Every definition of Machine/Serving.lean keeps the queue of waiting commands and the canonical form of both memories. -/
namespace Sys2Proof.Machine
open Sys2Proof
set_option maxHeartbeats 400000
set_option linter.all false
variable {cs_ : List Instr}
theorem expireAll_kept (s : State) (hs : Kept cs_ s) : Kept cs_ (expireAll s) := by
  unfold expireAll
  try extract_lets
  repeat'
    (first | with_reducible assumption | (with_reducible show Kept _ _; simp -iota -zeta only [memOk_mk])
           | with_reducible apply memsOk_of | with_reducible apply endRequest_kept | with_reducible apply foldl_kept
           | with_reducible intro _ | extract_lets | split | dsimp +zetaDelta -iota only)

theorem settle_kept (c : Cmd) (s : State) (hs : Kept cs_ s) : Kept cs_ (settle c s) := by
  unfold settle
  try extract_lets
  repeat'
    (first | with_reducible assumption | (with_reducible show Kept _ _; simp -iota -zeta only [memOk_mk])
           | with_reducible apply memsOk_of | with_reducible apply expireAll_kept | with_reducible intro _ | extract_lets | split
           | dsimp +zetaDelta -iota only)

theorem servingCmd_kept (sp : FwSpec) (f : Cmd → State → Answer) (c : Cmd) (s : State) (hf : ∀ (y0 : Cmd) (y1
    : State), Kept cs_ y1 → AnsKept cs_ (f y0 y1)) (hs : Kept cs_ s) : OutKept cs_ (servingCmd sp f c s) := by
  unfold servingCmd
  try extract_lets
  repeat'
    (first | with_reducible assumption | (with_reducible show Kept _ _; simp -iota -zeta only [memOk_mk])
           | with_reducible apply memsOk_of | with_reducible apply firmware_kept | with_reducible apply settle_kept
           | with_reducible apply hf | with_reducible apply ans_done | with_reducible apply ans_wait | with_reducible apply out_next
           | with_reducible intro _ | extract_lets | split | dsimp +zetaDelta -iota only)

theorem reqCmd_kept (op : Nat) (need : Nat) (f : Cmd → Nat → State → Answer) (c : Cmd) (s : State) (hf : ∀ (y0 : Cmd) (y1 : Nat) (y2
    : State), Kept cs_ y2 → AnsKept cs_ (f y0 y1 y2)) (hs : Kept cs_ s) : OutKept cs_ (reqCmd op need f c s) := by
  unfold reqCmd
  try extract_lets
  repeat'
    (first | with_reducible assumption | (with_reducible show Kept _ _; simp -iota -zeta only [memOk_mk])
           | with_reducible apply memsOk_of | with_reducible apply servingCmd_kept | with_reducible apply checked_kept
           | with_reducible apply hf | with_reducible apply ans_done | with_reducible apply ans_wait | with_reducible apply out_next
           | with_reducible intro _ | extract_lets | split | dsimp +zetaDelta -iota only)

theorem execModelLoad_kept (c : Cmd) (s : State) (hs : Kept cs_ s) : OutKept cs_ (execModelLoad c s) := by
  unfold execModelLoad
  try extract_lets
  repeat'
    (first | with_reducible assumption | (with_reducible show Kept _ _; simp -iota -zeta only [memOk_mk])
           | with_reducible apply memsOk_of | with_reducible apply servingCmd_kept | with_reducible apply checked_kept
           | with_reducible apply ans_done | with_reducible apply ans_wait | with_reducible apply out_next | with_reducible intro _
           | extract_lets | split | dsimp +zetaDelta -iota only)

theorem execModelUnload_kept (c : Cmd) (s : State) (hs : Kept cs_ s) : OutKept cs_ (execModelUnload c s) := by
  unfold execModelUnload
  try extract_lets
  repeat'
    (first | with_reducible assumption | (with_reducible show Kept _ _; simp -iota -zeta only [memOk_mk])
           | with_reducible apply memsOk_of | with_reducible apply servingCmd_kept | with_reducible apply checked_kept
           | with_reducible apply flushIndex_kept | with_reducible apply ans_done | with_reducible apply ans_wait
           | with_reducible apply out_next | with_reducible intro _ | extract_lets | split | dsimp +zetaDelta -iota only)

theorem forgetPool_kept (s : State) (k : Nat) (hs : Kept cs_ s) : Kept cs_ (forgetPool s k) := by
  unfold forgetPool
  try extract_lets
  repeat'
    (first | with_reducible assumption | (with_reducible show Kept _ _; simp -iota -zeta only [memOk_mk])
           | with_reducible apply memsOk_of | with_reducible intro _ | extract_lets | split | dsimp +zetaDelta -iota only)

theorem execPagePoolConfig_kept (c : Cmd) (s : State) (hs : Kept cs_ s) : OutKept cs_ (execPagePoolConfig c s) := by
  unfold execPagePoolConfig
  try extract_lets
  repeat'
    (first | with_reducible assumption | (with_reducible show Kept _ _; simp -iota -zeta only [memOk_mk])
           | with_reducible apply memsOk_of | with_reducible apply servingCmd_kept | with_reducible apply checked_kept
           | with_reducible apply setPool_kept | with_reducible apply forgetPool_kept | with_reducible apply ans_done
           | with_reducible apply ans_wait | with_reducible apply out_next | with_reducible intro _ | extract_lets | split
           | dsimp +zetaDelta -iota only)

theorem execPageMapConfig_kept (c : Cmd) (s : State) (hs : Kept cs_ s) : OutKept cs_ (execPageMapConfig c s) := by
  unfold execPageMapConfig
  try extract_lets
  repeat'
    (first | with_reducible assumption | (with_reducible show Kept _ _; simp -iota -zeta only [memOk_mk])
           | with_reducible apply memsOk_of | with_reducible apply servingCmd_kept | with_reducible apply checked_kept
           | with_reducible apply devWrite_kept | with_reducible apply ans_done | with_reducible apply ans_wait
           | with_reducible apply out_next | with_reducible intro _ | extract_lets | split | dsimp +zetaDelta -iota only)

theorem grammarCheck_kept (s : State) (p : Nat) (table : Nat) (st : Nat) (hs : Kept cs_ s) : Kept cs_ (grammarCheck s p table st).2 := by
  unfold grammarCheck
  try extract_lets
  repeat'
    (first | with_reducible assumption | (with_reducible show Kept _ _; simp -iota -zeta only [memOk_mk])
           | with_reducible apply memsOk_of | with_reducible apply grammarAt_kept
           | with_reducible (refine grammarAt_kept_eq ?_ (by with_reducible assumption)) | with_reducible intro _ | extract_lets | split
           | dsimp +zetaDelta -iota only)
theorem grammarCheck_kept_eq {s : State} {p : Nat} {table : Nat} {st : Nat} {r0 : Option Nat} {t_ : State} (hs : Kept cs_ s) (e_
    : grammarCheck s p table st = (r0, t_)) : Kept cs_ t_ := by
  have := grammarCheck_kept s p table st hs
  rwa [e_] at this

theorem admitReq_kept (s : State) (b : List Byte) (e : Nat) (pin : Option Pin) (toks : List (BitVec 32)) (hs : Kept cs_ s) : AnsKept cs_
    (admitReq s b e pin toks) := by
  unfold admitReq
  try extract_lets
  repeat'
    (first | with_reducible assumption | (with_reducible show Kept _ _; simp -iota -zeta only [memOk_mk, memsOk_mk])
            | (with_reducible show KeptParts _ _ _ _; simp -iota -zeta only [memsOk_mk]) | with_reducible apply memsOk_of
            | with_reducible apply cellsOk_of | with_reducible (refine newBlock_kept_eq ?_ (by with_reducible assumption))
            | with_reducible apply setReq_kept | with_reducible apply attachPages_kept
            | with_reducible (refine attachPages_kept_eq ?_ (by with_reducible assumption)) | with_reducible apply getD_kept
            | with_reducible apply lookup_kept | with_reducible (refine lookup_kept_eq ?_ (by with_reducible assumption))
            | with_reducible apply noteCheck_kept | with_reducible apply getD_kept | (refine pair_eq1 ?_ (by with_reducible assumption))
            | (refine pair_eq2 ?_ (by with_reducible assumption)) | (refine ans_done_eq ?_ (by with_reducible assumption))
            | (refine ans_wait_eq ?_ (by with_reducible assumption)) | with_reducible apply ans_done | with_reducible apply ans_wait
            | with_reducible apply ans_held | with_reducible apply out_next | with_reducible intro _ | extract_lets | split
            | dsimp +zetaDelta -iota only)

theorem placeReq_kept (s : State) (b : List Byte) (hs : Kept cs_ s) : AnsKept cs_ (placeReq s b) := by
  unfold placeReq
  try extract_lets
  repeat'
    (first | with_reducible assumption | (with_reducible show Kept _ _; simp -iota -zeta only [memOk_mk])
           | with_reducible apply memsOk_of | with_reducible (refine takeBlock_kept_eq ?_ (by with_reducible assumption))
           | with_reducible apply readBytes_kept | with_reducible (refine readBytes_kept_eq ?_ (by with_reducible assumption))
           | with_reducible apply admitReq_kept | with_reducible apply ans_done | with_reducible apply ans_wait
           | with_reducible apply out_next | with_reducible intro _ | extract_lets | split | dsimp +zetaDelta -iota only)

theorem execReqSubmit_kept (c : Cmd) (s : State) (hs : Kept cs_ s) : OutKept cs_ (execReqSubmit c s) := by
  unfold execReqSubmit
  try extract_lets
  repeat'
    (first | with_reducible assumption | (with_reducible show Kept _ _; simp -iota -zeta only [memOk_mk])
           | with_reducible apply memsOk_of | with_reducible apply servingCmd_kept | with_reducible apply checked_kept
           | with_reducible apply grammarCheck_kept | with_reducible (refine grammarCheck_kept_eq ?_ (by with_reducible assumption))
           | with_reducible apply samplingCheck_kept | with_reducible (refine samplingCheck_kept_eq ?_ (by with_reducible assumption))
           | with_reducible apply placeReq_kept | with_reducible apply ans_done | with_reducible apply ans_wait
           | with_reducible apply out_next | with_reducible intro _ | extract_lets | split | dsimp +zetaDelta -iota only)

theorem execReqQuery_kept (c : Cmd) (s : State) (hs : Kept cs_ s) : OutKept cs_ (execReqQuery c s) := by
  unfold execReqQuery
  try extract_lets
  repeat'
    (first | with_reducible assumption | (with_reducible show Kept _ _; simp -iota -zeta only [memOk_mk])
           | with_reducible apply memsOk_of | with_reducible apply reqCmd_kept | with_reducible apply reportTo_kept
           | with_reducible apply ans_done | with_reducible apply ans_wait | with_reducible apply out_next | with_reducible intro _
           | extract_lets | split | dsimp +zetaDelta -iota only)

theorem execReqCancel_kept (c : Cmd) (s : State) (hs : Kept cs_ s) : OutKept cs_ (execReqCancel c s) := by
  unfold execReqCancel
  try extract_lets
  repeat'
    (first | with_reducible assumption | (with_reducible show Kept _ _; simp -iota -zeta only [memOk_mk])
           | with_reducible apply memsOk_of | with_reducible apply reqCmd_kept | with_reducible apply setReq_kept
           | with_reducible apply endRequest_kept | with_reducible apply ans_done | with_reducible apply ans_wait
           | with_reducible apply out_next | with_reducible intro _ | extract_lets | split | dsimp +zetaDelta -iota only)

theorem freeBlocks_kept (s : State) (r : Req) (hs : Kept cs_ s) : Kept cs_ (freeBlocks s r) := by
  unfold freeBlocks
  try extract_lets
  repeat'
    (first | with_reducible assumption | (with_reducible show Kept _ _; simp -iota -zeta only [memOk_mk])
           | with_reducible apply memsOk_of | with_reducible apply freeBlock_kept | with_reducible apply foldl_kept
           | with_reducible intro _ | extract_lets | split | dsimp +zetaDelta -iota only)

theorem execReqRetire_kept (c : Cmd) (s : State) (hs : Kept cs_ s) : OutKept cs_ (execReqRetire c s) := by
  unfold execReqRetire
  try extract_lets
  repeat'
    (first | with_reducible assumption | (with_reducible show Kept _ _; simp -iota -zeta only [memOk_mk])
           | with_reducible apply memsOk_of | with_reducible apply reqCmd_kept | with_reducible apply freeBlocks_kept
           | with_reducible apply ans_done | with_reducible apply ans_wait | with_reducible apply out_next | with_reducible intro _
           | extract_lets | split | dsimp +zetaDelta -iota only)

theorem allocMany_kept_eq {k : Nat} {g : Page} {x2 : Nat} {x3 : State} {x4 : List Nat} {r0 : List Nat} {t_ : State} (hx3 : Kept cs_ x3)
    (e_ : allocMany k g x2 x3 x4 = some (r0, t_)) : Kept cs_ t_ := by
  induction x2 generalizing x3 x4 with
  | zero => unfold allocMany at e_; cases e_; exact hx3
  | succ n ih =>
    unfold allocMany at e_
    cases h : allocPage x3 k g with
    | none => rw [h] at e_; cases e_
    | some r => obtain ⟨p, s1⟩ := r; rw [h] at e_; exact ih (allocPage_kept_eq hx3 h) e_

theorem startMove_kept_eq {s : State} {e : Nat} {k : Nat} {is_ : List Nat} {t_ : State} (hs : Kept cs_ s) (e_
    : startMove s e k is_ = some t_) : Kept cs_ t_ := by
  unfold startMove at e_
  try dsimp only at e_
  repeat' (first | contradiction | (cases e_; done) | split at e_)
  all_goals (try (injection e_ with e_; first | subst e_ | (injection e_ with _ e_; first | subst e_ | (injection e_ with _ e_; subst e_))))
  all_goals repeat'
    (first | with_reducible assumption | (with_reducible show Kept _ _; simp -iota -zeta only [memOk_mk])
           | with_reducible apply memsOk_of | with_reducible (refine allocMany_kept_eq ?_ (by with_reducible assumption))
           | with_reducible apply setReq_kept | with_reducible intro _ | extract_lets | split | dsimp +zetaDelta -iota only)

theorem applyPause_kept (s0 : State) (e : Nat) (hs0 : Kept cs_ s0) : Kept cs_ (applyPause s0 e).2 := by
  unfold applyPause
  try extract_lets
  repeat'
    (first | with_reducible assumption | (with_reducible show Kept _ _; simp -iota -zeta only [memOk_mk])
           | with_reducible apply memsOk_of | with_reducible apply setReq_kept
           | with_reducible (refine startMove_kept_eq ?_ (by with_reducible assumption)) | with_reducible intro _ | extract_lets | split
           | dsimp +zetaDelta -iota only)
theorem applyPause_kept_eq {s0 : State} {e : Nat} {r0 : Option Nat} {t_ : State} (hs0 : Kept cs_ s0) (e_ : applyPause s0 e = (r0, t_))
    : Kept cs_ t_ := by
  have := applyPause_kept s0 e hs0
  rwa [e_] at this

theorem finishReq_kept (s : State) (e : Nat) (op : Nat) (status : Nat) (result : List Byte) (hs : Kept cs_ s) : Kept cs_
    (finishReq s e op status result) := by
  unfold finishReq
  try extract_lets
  repeat'
    (first | with_reducible assumption | (with_reducible show Kept _ _; simp -iota -zeta only [memOk_mk])
           | with_reducible apply memsOk_of | with_reducible apply complete_kept | with_reducible apply foldl_kept
           | with_reducible intro _ | extract_lets | split | dsimp +zetaDelta -iota only)

theorem applyCancel_kept (s : State) (e : Nat) (hs : Kept cs_ s) : Kept cs_ (applyCancel s e) := by
  unfold applyCancel
  try extract_lets
  repeat'
    (first | with_reducible assumption | (with_reducible show Kept _ _; simp -iota -zeta only [memOk_mk])
           | with_reducible apply memsOk_of | with_reducible apply endRequest_kept | with_reducible intro _ | extract_lets | split
           | dsimp +zetaDelta -iota only)

theorem execReqPause_kept (c : Cmd) (s : State) (hs : Kept cs_ s) : OutKept cs_ (execReqPause c s) := by
  unfold execReqPause
  try extract_lets
  repeat'
    (first | with_reducible assumption | (with_reducible show Kept _ _; simp -iota -zeta only [memOk_mk])
           | with_reducible apply memsOk_of | with_reducible apply reqCmd_kept | with_reducible apply setReq_kept
           | with_reducible apply applyPause_kept | with_reducible (refine applyPause_kept_eq ?_ (by with_reducible assumption))
           | with_reducible apply ans_done | with_reducible apply ans_wait | with_reducible apply out_next | with_reducible intro _
           | extract_lets | split | dsimp +zetaDelta -iota only)

theorem copyPages_kept (rq : Requester) (len : Nat) (x2 : List (Nat × Nat)) (x3 : State) (x4 : Nat) (hx3 : Kept cs_ x3) : Kept cs_
    (copyPages rq len x2 x3 x4).2 := by
  fun_induction copyPages rq len x2 x3 x4
  all_goals try extract_lets
  all_goals repeat'
    (first | with_reducible assumption | (with_reducible show Kept _ _; simp -iota -zeta only [memOk_mk, memsOk_mk])
            | (with_reducible show KeptParts _ _ _ _; simp -iota -zeta only [memsOk_mk]) | with_reducible apply memsOk_of
            | with_reducible apply cellsOk_of | with_reducible apply copyWithin_kept
            | with_reducible (refine copyWithin_kept_eq ?_ (by with_reducible assumption)) | with_reducible apply charge_kept
            | (refine pair_eq1 ?_ (by with_reducible assumption)) | (refine pair_eq2 ?_ (by with_reducible assumption))
            | (refine ans_done_eq ?_ (by with_reducible assumption)) | (refine ans_wait_eq ?_ (by with_reducible assumption))
            | with_reducible apply ans_done | with_reducible apply ans_wait | with_reducible apply ans_held
            | with_reducible apply out_next | with_reducible apply_assumption | with_reducible intro _ | extract_lets | split
            | dsimp +zetaDelta -iota only)
theorem copyPages_kept_eq {rq : Requester} {len : Nat} {x2 : List (Nat × Nat)} {x3 : State} {x4 : Nat} {r0 : Nat} {t_ : State} (hx3 : Kept
    cs_ x3) (e_ : copyPages rq len x2 x3 x4 = (r0, t_)) : Kept cs_ t_ := by
  have := copyPages_kept rq len x2 x3 x4 hx3
  rwa [e_] at this

theorem parkOne_kept (e : Nat) (s : State) (m : Nat × Nat) (hs : Kept cs_ s) : Kept cs_ (parkOne e s m) := by
  unfold parkOne
  try extract_lets
  repeat'
    (first | with_reducible assumption | (with_reducible show Kept _ _; simp -iota -zeta only [memOk_mk])
           | with_reducible apply memsOk_of | with_reducible apply setPage_kept
           | with_reducible (refine setLeaf_kept_eq ?_ (by with_reducible assumption)) | with_reducible apply unrefPage_kept
           | with_reducible intro _ | extract_lets | split | dsimp +zetaDelta -iota only)

theorem execParkCopyDone_kept (entry : Nat) (s : State) (hs : Kept cs_ s) : OutKept cs_ (execParkCopyDone entry s) := by
  unfold execParkCopyDone
  try extract_lets
  repeat'
    (first | with_reducible assumption | (with_reducible show Kept _ _; simp -iota -zeta only [memOk_mk, memsOk_mk])
            | (with_reducible show KeptParts _ _ _ _; simp -iota -zeta only [memsOk_mk]) | with_reducible apply memsOk_of
            | with_reducible apply cellsOk_of | with_reducible apply copyPages_kept
            | with_reducible (refine copyPages_kept_eq ?_ (by with_reducible assumption)) | with_reducible apply parkOne_kept
            | with_reducible apply setReq_kept | with_reducible apply dropMoves_kept | with_reducible apply applyCancel_kept
            | with_reducible apply finishReq_kept | with_reducible apply foldl_kept | with_reducible apply foldl_snd2_kept
            | with_reducible apply foldl_fst_kept | with_reducible apply foldl_snd_kept
            | (refine pair_eq1 ?_ (by with_reducible assumption)) | (refine pair_eq2 ?_ (by with_reducible assumption))
            | (refine ans_done_eq ?_ (by with_reducible assumption)) | (refine ans_wait_eq ?_ (by with_reducible assumption))
            | with_reducible apply ans_done | with_reducible apply ans_wait | with_reducible apply ans_held
            | with_reducible apply out_next | with_reducible intro _ | extract_lets | split | dsimp +zetaDelta -iota only)

theorem execTtlExpire_kept (entry : Nat) (s : State) (hs : Kept cs_ s) : OutKept cs_ (execTtlExpire entry s) := by
  unfold execTtlExpire
  try extract_lets
  repeat'
    (first | with_reducible assumption | (with_reducible show Kept _ _; simp -iota -zeta only [memOk_mk])
           | with_reducible apply memsOk_of | with_reducible apply endRequest_kept | with_reducible apply ans_done
           | with_reducible apply ans_wait | with_reducible apply out_next | with_reducible intro _ | extract_lets | split
           | dsimp +zetaDelta -iota only)

theorem reattach_kept (s : State) (e : Nat) (hs : Kept cs_ s) : Kept cs_ (reattach s e).2 := by
  unfold reattach
  try extract_lets
  repeat'
    (first | with_reducible assumption | (with_reducible show Kept _ _; simp -iota -zeta only [memOk_mk])
           | with_reducible apply memsOk_of | with_reducible apply prog_kept | with_reducible apply poolCount_kept
           | with_reducible apply matchGo_kept | with_reducible (refine matchGo_kept_eq ?_ (by with_reducible assumption))
           | with_reducible intro _ | extract_lets | split | dsimp +zetaDelta -iota only)
theorem reattach_kept_eq {s : State} {e : Nat} {r0 : List Nat} {t_ : State} (hs : Kept cs_ s) (e_ : reattach s e = (r0, t_))
    : Kept cs_ t_ := by
  have := reattach_kept s e hs
  rwa [e_] at this

theorem startRestore_kept (s : State) (e : Nat) (hs : Kept cs_ s) : AnsKept cs_ (startRestore s e) := by
  unfold startRestore
  try extract_lets
  repeat'
    (first | with_reducible assumption | (with_reducible show Kept _ _; simp -iota -zeta only [memOk_mk, memsOk_mk])
            | (with_reducible show KeptParts _ _ _ _; simp -iota -zeta only [memsOk_mk]) | with_reducible apply memsOk_of
            | with_reducible apply cellsOk_of | with_reducible apply reattach_kept
            | with_reducible (refine reattach_kept_eq ?_ (by with_reducible assumption)) | with_reducible apply pageLow_kept
            | with_reducible apply setPage_kept | with_reducible (refine allocMany_kept_eq ?_ (by with_reducible assumption))
            | with_reducible apply setReq_kept | with_reducible apply foldl_kept | with_reducible apply foldl_snd2_kept
            | with_reducible apply foldl_fst_kept | with_reducible apply foldl_snd_kept
            | (refine pair_eq1 ?_ (by with_reducible assumption)) | (refine pair_eq2 ?_ (by with_reducible assumption))
            | (refine ans_done_eq ?_ (by with_reducible assumption)) | (refine ans_wait_eq ?_ (by with_reducible assumption))
            | with_reducible apply ans_done | with_reducible apply ans_wait | with_reducible apply ans_held
            | with_reducible apply out_next | with_reducible intro _ | extract_lets | split | dsimp +zetaDelta -iota only)

theorem execReqResume_kept (c : Cmd) (s : State) (hs : Kept cs_ s) : OutKept cs_ (execReqResume c s) := by
  unfold execReqResume
  try extract_lets
  repeat'
    (first | with_reducible assumption | (with_reducible show Kept _ _; simp -iota -zeta only [memOk_mk, memsOk_mk])
            | (with_reducible show KeptParts _ _ _ _; simp -iota -zeta only [memsOk_mk]) | with_reducible apply memsOk_of
            | with_reducible apply cellsOk_of | with_reducible apply reqCmd_kept | with_reducible apply noteCheck_kept
            | with_reducible apply setReq_kept | with_reducible apply startRestore_kept
            | with_reducible (refine startRestore_kept_eq ?_ (by with_reducible assumption))
            | (refine pair_eq1 ?_ (by with_reducible assumption)) | (refine pair_eq2 ?_ (by with_reducible assumption))
            | (refine ans_done_eq ?_ (by with_reducible assumption)) | (refine ans_wait_eq ?_ (by with_reducible assumption))
            | with_reducible apply ans_done | with_reducible apply ans_wait | with_reducible apply ans_held
            | with_reducible apply out_next | with_reducible intro _ | extract_lets | split | dsimp +zetaDelta -iota only)

theorem restoreOne_kept (e : Nat) (s : State) (m : Nat × Nat) (hs : Kept cs_ s) : Kept cs_ (restoreOne e s m) := by
  unfold restoreOne
  try extract_lets
  repeat'
    (first | with_reducible assumption | (with_reducible show Kept _ _; simp -iota -zeta only [memOk_mk])
           | with_reducible apply memsOk_of | with_reducible apply setPage_kept
           | with_reducible (refine setLeaf_kept_eq ?_ (by with_reducible assumption)) | with_reducible apply unrefPage_kept
           | with_reducible intro _ | extract_lets | split | dsimp +zetaDelta -iota only)

theorem execRestoreDone_kept (entry : Nat) (s : State) (hs : Kept cs_ s) : OutKept cs_ (execRestoreDone entry s) := by
  unfold execRestoreDone
  try extract_lets
  repeat'
    (first | with_reducible assumption | (with_reducible show Kept _ _; simp -iota -zeta only [memOk_mk, memsOk_mk])
            | (with_reducible show KeptParts _ _ _ _; simp -iota -zeta only [memsOk_mk]) | with_reducible apply memsOk_of
            | with_reducible apply cellsOk_of | with_reducible apply copyPages_kept
            | with_reducible (refine copyPages_kept_eq ?_ (by with_reducible assumption)) | with_reducible apply restoreOne_kept
            | with_reducible apply noteCheck_kept | with_reducible apply setReq_kept | with_reducible apply dropMoves_kept
            | with_reducible apply applyCancel_kept | with_reducible apply finishReq_kept | with_reducible apply foldl_kept
            | with_reducible apply foldl_snd2_kept | with_reducible apply foldl_fst_kept | with_reducible apply foldl_snd_kept
            | (refine pair_eq1 ?_ (by with_reducible assumption)) | (refine pair_eq2 ?_ (by with_reducible assumption))
            | (refine ans_done_eq ?_ (by with_reducible assumption)) | (refine ans_wait_eq ?_ (by with_reducible assumption))
            | with_reducible apply ans_done | with_reducible apply ans_wait | with_reducible apply ans_held
            | with_reducible apply out_next | with_reducible intro _ | extract_lets | split | dsimp +zetaDelta -iota only)

theorem execPrefixLookup_kept (c : Cmd) (s : State) (hs : Kept cs_ s) : OutKept cs_ (execPrefixLookup c s) := by
  unfold execPrefixLookup
  try extract_lets
  repeat'
    (first | with_reducible assumption | (with_reducible show Kept _ _; simp -iota -zeta only [memOk_mk])
           | with_reducible apply memsOk_of | with_reducible apply servingCmd_kept | with_reducible apply checked_kept
           | with_reducible apply readBytes_kept | with_reducible (refine readBytes_kept_eq ?_ (by with_reducible assumption))
           | with_reducible apply lookup_kept | with_reducible (refine lookup_kept_eq ?_ (by with_reducible assumption))
           | with_reducible apply ans_done | with_reducible apply ans_wait | with_reducible apply out_next | with_reducible intro _
           | extract_lets | split | dsimp +zetaDelta -iota only)

theorem execPrefixPin_kept (c : Cmd) (s : State) (hs : Kept cs_ s) : OutKept cs_ (execPrefixPin c s) := by
  unfold execPrefixPin
  apply servingCmd_kept _ _ _ _ ?_ hs
  intro c s hs
  extract_lets m n
  apply checked_kept _ _ _ hs
  generalize e : readBytes s (cmdRq c) (p64 c 8) (4 * n) 0 = r
  obtain ⟨st, d, poison, s1⟩ := r
  have h1 := readBytes_kept_eq hs e
  dsimp only
  split
  · exact h1
  split
  · exact h1
  generalize e2 : lookup s1 m (chunks 16 (tokenList d)) 0 noPage true = r2
  obtain ⟨pages, s2⟩ := r2
  have h2 := lookup_kept_eq h1 e2
  dsimp only
  split
  · exact h2
  generalize findFrom (fun k => (mfind s2.srv.pins k).isNone) 65536 0 = o
  cases o with
  | none => exact h2
  | some k =>
    apply ans_done
    simp -iota -zeta only [memOk_mk]
    apply memsOk_of
    exact foldl_kept h2 (fun u x hu => pageLow_kept _ _ (setPage_kept _ _ _ hu))

theorem execPrefixUnpin_kept (c : Cmd) (s : State) (hs : Kept cs_ s) : OutKept cs_ (execPrefixUnpin c s) := by
  unfold execPrefixUnpin
  try extract_lets
  repeat'
    (first | with_reducible assumption | (with_reducible show Kept _ _; simp -iota -zeta only [memOk_mk])
           | with_reducible apply memsOk_of | with_reducible apply servingCmd_kept | with_reducible apply unrefPage_kept
           | with_reducible apply foldl_kept | with_reducible apply ans_done | with_reducible apply ans_wait
           | with_reducible apply out_next | with_reducible intro _ | extract_lets | split | dsimp +zetaDelta -iota only)

theorem execPrefixFlush_kept (c : Cmd) (s : State) (hs : Kept cs_ s) : OutKept cs_ (execPrefixFlush c s) := by
  unfold execPrefixFlush
  try extract_lets
  repeat'
    (first | with_reducible assumption | (with_reducible show Kept _ _; simp -iota -zeta only [memOk_mk])
           | with_reducible apply memsOk_of | with_reducible apply servingCmd_kept | with_reducible apply checked_kept
           | with_reducible apply flushIndex_kept | with_reducible apply ans_done | with_reducible apply ans_wait
           | with_reducible apply out_next | with_reducible intro _ | extract_lets | split | dsimp +zetaDelta -iota only)

theorem execPageStats_kept (c : Cmd) (s : State) (hs : Kept cs_ s) : OutKept cs_ (execPageStats c s) := by
  unfold execPageStats
  try extract_lets
  repeat'
    (first | with_reducible assumption | (with_reducible show Kept _ _; simp -iota -zeta only [memOk_mk])
           | with_reducible apply memsOk_of | with_reducible apply servingCmd_kept | with_reducible apply reportTo_kept
           | with_reducible apply ans_done | with_reducible apply ans_wait | with_reducible apply out_next | with_reducible intro _
           | extract_lets | split | dsimp +zetaDelta -iota only)

end Sys2Proof.Machine
end

