-- ==== Sys2Proof/Laws/KeptComposer.lean ====
section
/-! SUPPORT. Every definition of Machine/Composer.lean keeps the queue of waiting commands and the canonical form of both memories. -/
namespace Sys2Proof.Machine
open Sys2Proof
set_option maxHeartbeats 400000
set_option linter.all false
variable {cs_ : List Instr}
theorem setComp_kept (s : State) (p : Nat) (k : Composer) (hs : Kept cs_ s) : Kept cs_ (setComp s p k) := by
  unfold setComp
  try extract_lets
  repeat'
    (first | with_reducible assumption | (with_reducible show Kept _ _; simp -iota -zeta only [memOk_mk])
           | with_reducible apply memsOk_of | with_reducible intro _ | extract_lets | split | dsimp +zetaDelta -iota only)

theorem setSlot_kept (s : State) (n : Nat) (f : FrameSlot) (hs : Kept cs_ s) : Kept cs_ (setSlot s n f) := by
  unfold setSlot
  try extract_lets
  repeat'
    (first | with_reducible assumption | (with_reducible show Kept _ _; simp -iota -zeta only [memOk_mk])
           | with_reducible apply memsOk_of | with_reducible intro _ | extract_lets | split | dsimp +zetaDelta -iota only)

theorem dropFrame_kept (p : Nat) (n : Nat) (kind : Nat) (s : State) (hs : Kept cs_ s) : Kept cs_ (dropFrame p n kind s) := by
  unfold dropFrame
  try extract_lets
  repeat'
    (first | with_reducible assumption | (with_reducible show Kept _ _; simp -iota -zeta only [memOk_mk])
           | with_reducible apply memsOk_of | with_reducible apply post_kept | with_reducible apply setSlot_kept | with_reducible intro _
           | extract_lets | split | dsimp +zetaDelta -iota only)

theorem dropFrames_kept (p : Nat) (n : Nat) (kind : Nat) (x3 : Nat) (x4 : State) (hx4 : Kept cs_ x4) : Kept cs_
    (dropFrames p n kind x3 x4) := by
  fun_induction dropFrames p n kind x3 x4
  all_goals try extract_lets
  all_goals repeat'
    (first | with_reducible assumption | (with_reducible show Kept _ _; simp -iota -zeta only [memOk_mk])
           | with_reducible apply memsOk_of | with_reducible apply dropFrame_kept | with_reducible apply_assumption
           | with_reducible intro _ | extract_lets | split | dsimp +zetaDelta -iota only)

theorem takeGood_kept (p : Nat) (n : Nat) (x2 : Nat) (x3 : State) (hx3 : Kept cs_ x3) : Kept cs_ (takeGood p n x2 x3).2 := by
  fun_induction takeGood p n x2 x3
  all_goals try extract_lets
  all_goals repeat'
    (first | with_reducible assumption | (with_reducible show Kept _ _; simp -iota -zeta only [memOk_mk])
           | with_reducible apply memsOk_of | with_reducible apply readBytes_kept
           | with_reducible (refine readBytes_kept_eq ?_ (by with_reducible assumption)) | with_reducible apply dropFrame_kept
           | with_reducible apply_assumption | with_reducible intro _ | extract_lets | split | dsimp +zetaDelta -iota only)
theorem takeGood_kept_eq {p : Nat} {n : Nat} {x2 : Nat} {x3 : State} {r0 : Option Nat} {t_ : State} (hx3 : Kept cs_ x3) (e_
    : takeGood p n x2 x3 = (r0, t_)) : Kept cs_ t_ := by
  have := takeGood_kept p n x2 x3 hx3
  rwa [e_] at this

theorem takeFrame_kept (s : State) (p : Nat) (n : Nat) (S : Stamp) (hs : Kept cs_ s) : Kept cs_ (takeFrame s p n S).2 := by
  unfold takeFrame
  try extract_lets
  repeat'
    (first | with_reducible assumption | (with_reducible show Kept _ _; simp -iota -zeta only [memOk_mk])
           | with_reducible apply memsOk_of | with_reducible apply takeGood_kept
           | with_reducible (refine takeGood_kept_eq ?_ (by with_reducible assumption)) | with_reducible apply dropFrames_kept
           | with_reducible intro _ | extract_lets | split | dsimp +zetaDelta -iota only)
theorem takeFrame_kept_eq {s : State} {p : Nat} {n : Nat} {S : Stamp} {r0 : Option Nat} {t_ : State} (hs : Kept cs_ s) (e_
    : takeFrame s p n S = (r0, t_)) : Kept cs_ t_ := by
  have := takeFrame_kept s p n S hs
  rwa [e_] at this

theorem genCand_kept (s : State) (p : Nat) (e : Nat) (q : Sampling) (S : Stamp) (resumed : Bool) (hs : Kept cs_ s) : Kept cs_ (genCand s p
    e q S resumed).2 := by
  unfold genCand
  try extract_lets
  repeat'
    (first | with_reducible assumption | (with_reducible show Kept _ _; simp -iota -zeta only [memOk_mk, memsOk_mk])
            | (with_reducible show KeptParts _ _ _ _; simp -iota -zeta only [memsOk_mk]) | with_reducible apply memsOk_of
            | with_reducible apply cellsOk_of | with_reducible apply takeFrame_kept
            | with_reducible (refine takeFrame_kept_eq ?_ (by with_reducible assumption)) | with_reducible apply draftAt_kept
            | with_reducible (refine draftAt_kept_eq ?_ (by with_reducible assumption)) | with_reducible apply foldl_kept
            | with_reducible apply floCount_kept | with_reducible apply foldl_kept | with_reducible apply foldl_snd2_kept
            | with_reducible apply foldl_fst_kept | with_reducible apply foldl_snd_kept
            | (refine pair_eq1 ?_ (by with_reducible assumption)) | (refine pair_eq2 ?_ (by with_reducible assumption))
            | (refine ans_done_eq ?_ (by with_reducible assumption)) | (refine ans_wait_eq ?_ (by with_reducible assumption))
            | with_reducible apply ans_done | with_reducible apply ans_wait | with_reducible apply ans_held
            | with_reducible apply out_next | with_reducible intro _ | extract_lets | split | dsimp +zetaDelta -iota only)
theorem genCand_kept_eq {s : State} {p : Nat} {e : Nat} {q : Sampling} {S : Stamp} {resumed : Bool} {r0 : Option Cand} {t_ : State} (hs :
    Kept cs_ s) (e_ : genCand s p e q S resumed = (r0, t_)) : Kept cs_ t_ := by
  have := genCand_kept s p e q S resumed hs
  rwa [e_] at this

theorem candOf_kept (s : State) (p : Nat) (k : Composer) (S : Stamp) (e : Nat) (hs : Kept cs_ s) : Kept cs_ (candOf s p k S e).2 := by
  unfold candOf
  try extract_lets
  repeat'
    (first | with_reducible assumption | (with_reducible show Kept _ _; simp -iota -zeta only [memOk_mk, memsOk_mk])
            | (with_reducible show KeptParts _ _ _ _; simp -iota -zeta only [memsOk_mk]) | with_reducible apply memsOk_of
            | with_reducible apply cellsOk_of | with_reducible apply samplingCheck_kept
            | with_reducible (refine samplingCheck_kept_eq ?_ (by with_reducible assumption)) | with_reducible apply faultRequest_kept
            | with_reducible apply genCand_kept | with_reducible (refine genCand_kept_eq ?_ (by with_reducible assumption))
            | (refine pair_eq1 ?_ (by with_reducible assumption)) | (refine pair_eq2 ?_ (by with_reducible assumption))
            | (refine ans_done_eq ?_ (by with_reducible assumption)) | (refine ans_wait_eq ?_ (by with_reducible assumption))
            | with_reducible apply ans_done | with_reducible apply ans_wait | with_reducible apply ans_held
            | with_reducible apply out_next | with_reducible intro _ | extract_lets | split | dsimp +zetaDelta -iota only)
theorem candOf_kept_eq {s : State} {p : Nat} {k : Composer} {S : Stamp} {e : Nat} {r0 : Option Cand} {t_ : State} (hs : Kept cs_ s) (e_ :
    candOf s p k S e = (r0, t_)) : Kept cs_ t_ := by
  have := candOf_kept s p k S e hs
  rwa [e_] at this

theorem candsGo_kept (p : Nat) (k : Composer) (S : Stamp) (x3 : List Nat) (x4 : State) (x5 : List Cand) (hx4 : Kept cs_ x4) : Kept cs_
    (candsGo p k S x3 x4 x5).2 := by
  fun_induction candsGo p k S x3 x4 x5
  all_goals try extract_lets
  all_goals repeat'
    (first | with_reducible assumption | (with_reducible show Kept _ _; simp -iota -zeta only [memOk_mk])
           | with_reducible apply memsOk_of | with_reducible apply candOf_kept
           | with_reducible (refine candOf_kept_eq ?_ (by with_reducible assumption)) | with_reducible apply_assumption
           | with_reducible intro _ | extract_lets | split | dsimp +zetaDelta -iota only)
theorem candsGo_kept_eq {p : Nat} {k : Composer} {S : Stamp} {x3 : List Nat} {x4 : State} {x5 : List Cand} {r0 : List Cand} {t_ : State}
    (hx4 : Kept cs_ x4) (e_ : candsGo p k S x3 x4 x5 = (r0, t_)) : Kept cs_ t_ := by
  have := candsGo_kept p k S x3 x4 x5 hx4
  rwa [e_] at this

theorem candidatesAt_kept (s : State) (p : Nat) (k : Composer) (S : Stamp) (hs : Kept cs_ s) : Kept cs_ (candidatesAt s p k S).2 := by
  unfold candidatesAt
  try extract_lets
  repeat'
    (first | with_reducible assumption | (with_reducible show Kept _ _; simp -iota -zeta only [memOk_mk])
           | with_reducible apply memsOk_of | with_reducible apply candsGo_kept
           | with_reducible (refine candsGo_kept_eq ?_ (by with_reducible assumption)) | with_reducible intro _ | extract_lets | split
           | dsimp +zetaDelta -iota only)
theorem candidatesAt_kept_eq {s : State} {p : Nat} {k : Composer} {S : Stamp} {r0 : List Cand} {t_ : State} (hs : Kept cs_ s) (e_
    : candidatesAt s p k S = (r0, t_)) : Kept cs_ t_ := by
  have := candidatesAt_kept s p k S hs
  rwa [e_] at this

theorem compHost_kept (s : State) (a : Nat) (b : List Byte) (hs : Kept cs_ s) : Kept cs_ (compHost s a b) := by
  unfold compHost
  try extract_lets
  repeat'
    (first | with_reducible assumption | (with_reducible show Kept _ _; simp -iota -zeta only [memOk_mk])
           | with_reducible apply memsOk_of | with_reducible (refine hostWrite?_kept_eq ?_ (by with_reducible assumption))
           | with_reducible apply getD_kept | with_reducible intro _ | extract_lets | split | dsimp +zetaDelta -iota only)

theorem writeReport_kept (s : State) (p : Nat) (no : Nat) (rows : List Row) (outcome : Nat) (confirm : Stamp) (commit : Stamp) (tokens
    : Nat) (late : Nat) (hs : Kept cs_ s) : Kept cs_ (writeReport s p no rows outcome confirm commit tokens late) := by
  unfold writeReport
  try extract_lets
  repeat'
    (first | with_reducible assumption | (with_reducible show Kept _ _; simp -iota -zeta only [memOk_mk])
           | with_reducible apply memsOk_of | with_reducible apply blot_kept | with_reducible apply compHost_kept
           | with_reducible intro _ | extract_lets | split | dsimp +zetaDelta -iota only)

theorem stepDone_kept (s : State) (p : Nat) (no : Nat) (outcome : Nat) (rows : Nat) (tokens : Nat) (late : Nat) (hs : Kept cs_ s)
    : Kept cs_ (stepDone s p no outcome rows tokens late) := by
  unfold stepDone
  try extract_lets
  repeat'
    (first | with_reducible assumption | (with_reducible show Kept _ _; simp -iota -zeta only [memOk_mk])
           | with_reducible apply memsOk_of | with_reducible apply post_kept | with_reducible intro _ | extract_lets | split
           | dsimp +zetaDelta -iota only)

theorem applyBias_kept (s : State) (c : Cmd) (hs : Kept cs_ s) : Kept cs_ (applyBias s c) := by
  unfold applyBias
  try extract_lets
  repeat'
    (first | with_reducible assumption | (with_reducible show Kept _ _; simp -iota -zeta only [memOk_mk])
           | with_reducible apply memsOk_of | with_reducible apply devWrite_kept | with_reducible intro _ | extract_lets | split
           | dsimp +zetaDelta -iota only)

theorem releaseBias_kept (s : State) (hs : Kept cs_ s) : Kept cs_ (releaseBias s) := by
  unfold releaseBias
  try extract_lets
  repeat'
    (first | with_reducible assumption | (with_reducible show Kept _ _; simp -iota -zeta only [memOk_mk])
           | with_reducible apply memsOk_of | with_reducible apply finishWait_kept | with_reducible apply applyBias_kept
           | with_reducible apply foldl_kept | with_reducible intro _ | extract_lets | split | dsimp +zetaDelta -iota only)

theorem allotRow_kept_eq {s : State} {r r0 : Row} {t_ : State} (hs : Kept cs_ s) (e_ : allotRow s r = some (r0, t_)) : Kept cs_ t_ := by
  unfold allotRow at e_
  extract_lets e q live is_ at e_
  split at e_
  · cases e_
  · rename_i ns s1 e1
    split at e_
    · cases e_
    · rename_i ds s2 e2
      have h2 := allocMany_kept_eq (allocMany_kept_eq hs e1) e2
      extract_lets s3 at e_
      cases h3 : s3 with
      | none => rw [h3] at e_; cases e_
      | some u =>
        rw [h3] at e_
        cases e_
        exact foldl_opt_kept (fun v hv => by cases hv; exact h2) (fun o x ho v hv => bind_kept ho
            (fun a b ha hb => setLeaf_kept_eq ha hb) hv) h3

theorem abandonMove_kept (s : State) (e : Nat) (hs : Kept cs_ s) : Kept cs_ (abandonMove s e) := by
  unfold abandonMove
  try extract_lets
  repeat'
    (first | with_reducible assumption | (with_reducible show Kept _ _; simp -iota -zeta only [memOk_mk, memsOk_mk])
            | (with_reducible show KeptParts _ _ _ _; simp -iota -zeta only [memsOk_mk]) | with_reducible apply memsOk_of
            | with_reducible apply cellsOk_of | with_reducible apply finishReq_kept | with_reducible apply dropMoves_kept
            | (refine pair_eq1 ?_ (by with_reducible assumption)) | (refine pair_eq2 ?_ (by with_reducible assumption))
            | (refine ans_done_eq ?_ (by with_reducible assumption)) | (refine ans_wait_eq ?_ (by with_reducible assumption))
            | with_reducible apply ans_done | with_reducible apply ans_wait | with_reducible apply ans_held
            | with_reducible apply out_next | with_reducible intro _ | extract_lets | split | dsimp +zetaDelta -iota only)

theorem enterStep_kept (s0 : State) (r : Row) (hs0 : Kept cs_ s0) : Kept cs_ (enterStep s0 r) := by
  unfold enterStep
  try extract_lets
  repeat'
    (first | with_reducible assumption | (with_reducible show Kept _ _; simp -iota -zeta only [memOk_mk, memsOk_mk])
            | (with_reducible show KeptParts _ _ _ _; simp -iota -zeta only [memsOk_mk]) | with_reducible apply memsOk_of
            | with_reducible apply cellsOk_of | with_reducible apply abandonMove_kept | with_reducible apply setReq_kept
            | (refine pair_eq1 ?_ (by with_reducible assumption)) | (refine pair_eq2 ?_ (by with_reducible assumption))
            | (refine ans_done_eq ?_ (by with_reducible assumption)) | (refine ans_wait_eq ?_ (by with_reducible assumption))
            | with_reducible apply ans_done | with_reducible apply ans_wait | with_reducible apply ans_held
            | with_reducible apply out_next | with_reducible intro _ | extract_lets | split | dsimp +zetaDelta -iota only)

theorem tellDrafts_kept (s : State) (p : Nat) (r : Row) (hs : Kept cs_ s) : Kept cs_ (tellDrafts s p r) := by
  unfold tellDrafts
  try extract_lets
  repeat'
    (first | with_reducible assumption | (with_reducible show Kept _ _; simp -iota -zeta only [memOk_mk, memsOk_mk])
            | (with_reducible show KeptParts _ _ _ _; simp -iota -zeta only [memsOk_mk]) | with_reducible apply memsOk_of
            | with_reducible apply cellsOk_of | with_reducible apply writeBytes_kept
            | with_reducible (refine writeBytes_kept_eq ?_ (by with_reducible assumption)) | with_reducible apply getD_kept
            | (refine pair_eq1 ?_ (by with_reducible assumption)) | (refine pair_eq2 ?_ (by with_reducible assumption))
            | (refine ans_done_eq ?_ (by with_reducible assumption)) | (refine ans_wait_eq ?_ (by with_reducible assumption))
            | with_reducible apply ans_done | with_reducible apply ans_wait | with_reducible apply ans_held
            | with_reducible apply out_next | with_reducible intro _ | extract_lets | split | dsimp +zetaDelta -iota only)

theorem allotGo_kept (p : Nat) (cands : List Cand) (x2 : List Row) (x3 : State) (x4 : List Row) (hx3 : Kept cs_ x3) : Kept cs_
    (allotGo p cands x2 x3 x4).2 := by
  fun_induction allotGo p cands x2 x3 x4
  all_goals try extract_lets
  all_goals repeat'
    (first | with_reducible assumption | (with_reducible show Kept _ _; simp -iota -zeta only [memOk_mk])
           | with_reducible apply memsOk_of | with_reducible (refine allotRow_kept_eq ?_ (by with_reducible assumption))
           | with_reducible apply tellDrafts_kept | with_reducible apply enterStep_kept | with_reducible apply_assumption
           | with_reducible intro _ | extract_lets | split | dsimp +zetaDelta -iota only)
theorem allotGo_kept_eq {p : Nat} {cands : List Cand} {x2 : List Row} {x3 : State} {x4 : List Row} {r0 : List Row} {t_ : State} (hx3
    : Kept cs_ x3) (e_ : allotGo p cands x2 x3 x4 = (r0, t_)) : Kept cs_ t_ := by
  have := allotGo_kept p cands x2 x3 x4 hx3
  rwa [e_] at this

theorem submitStep_kept (s : State) (p : Nat) (q : Nat) (dpa : Nat) (n : Nat) (hs : Kept cs_ s) : Kept cs_ (submitStep s p q dpa n) := by
  unfold submitStep
  try extract_lets
  repeat'
    (first | with_reducible assumption | (with_reducible show Kept _ _; simp -iota -zeta only [memOk_mk])
           | with_reducible apply memsOk_of | with_reducible apply startNext_kept | with_reducible apply setQueue_kept
           | with_reducible intro _ | extract_lets | split | dsimp +zetaDelta -iota only)

theorem submitMark_kept (s : State) (p : Nat) (code : Nat) (off : Nat) (no : Nat) (hs : Kept cs_ s) : Kept cs_
    (submitMark s p code off no) := by
  unfold submitMark
  try extract_lets
  repeat'
    (first | with_reducible assumption | (with_reducible show Kept _ _; simp -iota -zeta only [memOk_mk])
           | with_reducible apply memsOk_of | with_reducible apply submitStep_kept | with_reducible apply writeBytes_kept
           | with_reducible (refine writeBytes_kept_eq ?_ (by with_reducible assumption)) | with_reducible intro _ | extract_lets | split
           | dsimp +zetaDelta -iota only)

theorem clearHalts_kept (s : State) (p : Nat) (hs : Kept cs_ s) : Kept cs_ (clearHalts s p) := by
  unfold clearHalts
  try extract_lets
  repeat'
    (first | with_reducible assumption | (with_reducible show Kept _ _; simp -iota -zeta only [memOk_mk])
           | with_reducible apply memsOk_of | with_reducible apply setQueue_kept | with_reducible apply foldl_kept
           | with_reducible intro _ | extract_lets | split | dsimp +zetaDelta -iota only)

theorem confirmRows_kept (s : State) (p : Nat) (action : Nat) (prop : Proposal) (rows : List Row) (hs : Kept cs_ s) : Kept cs_
    (confirmRows s p action prop rows) := by
  unfold confirmRows
  try extract_lets
  repeat'
    (first | with_reducible assumption | (with_reducible show Kept _ _; simp -iota -zeta only [memOk_mk, memsOk_mk])
            | (with_reducible show KeptParts _ _ _ _; simp -iota -zeta only [memsOk_mk]) | with_reducible apply memsOk_of
            | with_reducible apply cellsOk_of | with_reducible apply candidatesAt_kept
            | with_reducible (refine candidatesAt_kept_eq ?_ (by with_reducible assumption)) | with_reducible apply blot_kept
            | with_reducible apply setComp_kept | with_reducible apply allotGo_kept
            | with_reducible (refine allotGo_kept_eq ?_ (by with_reducible assumption)) | with_reducible apply stepDone_kept
            | with_reducible apply writeReport_kept | with_reducible apply clearHalts_kept | with_reducible apply writeBytes_kept
            | with_reducible (refine writeBytes_kept_eq ?_ (by with_reducible assumption)) | with_reducible apply submitMark_kept
            | (refine pair_eq1 ?_ (by with_reducible assumption)) | (refine pair_eq2 ?_ (by with_reducible assumption))
            | (refine ans_done_eq ?_ (by with_reducible assumption)) | (refine ans_wait_eq ?_ (by with_reducible assumption))
            | with_reducible apply ans_done | with_reducible apply ans_wait | with_reducible apply ans_held
            | with_reducible apply out_next | with_reducible intro _ | extract_lets | split | dsimp +zetaDelta -iota only)

theorem faultSlotless_kept (p : Nat) (x1 : Nat) (x2 : List Cand) (x3 : State) (hx3 : Kept cs_ x3) : Kept cs_ (faultSlotless p x1 x2 x3).2
    := by
  induction x1 generalizing x2 x3 with
  | zero => (first | with_reducible assumption | (unfold faultSlotless; with_reducible assumption))
  | succ k ih =>
    unfold faultSlotless
    try extract_lets
    repeat'
      (first | with_reducible assumption | (with_reducible show Kept _ _; simp -iota -zeta only [memOk_mk, memsOk_mk])
              | (with_reducible show KeptParts _ _ _ _; simp -iota -zeta only [memsOk_mk]) | with_reducible apply memsOk_of
              | with_reducible apply cellsOk_of | with_reducible apply faultRequest_kept | with_reducible apply foldl_kept
              | with_reducible apply foldl_snd2_kept | with_reducible apply foldl_fst_kept | with_reducible apply foldl_snd_kept
              | (refine pair_eq1 ?_ (by with_reducible assumption)) | (refine pair_eq2 ?_ (by with_reducible assumption))
              | (refine ans_done_eq ?_ (by with_reducible assumption)) | (refine ans_wait_eq ?_ (by with_reducible assumption))
              | with_reducible apply ans_done | with_reducible apply ans_wait | with_reducible apply ans_held
              | with_reducible apply out_next | with_reducible apply ih | with_reducible intro _ | extract_lets | split
              | dsimp +zetaDelta -iota only)
theorem faultSlotless_kept_eq {p : Nat} {x1 : Nat} {x2 : List Cand} {x3 : State} {r0 : List Cand} {t_ : State} (hx3 : Kept cs_ x3) (e_ :
    faultSlotless p x1 x2 x3 = (r0, t_)) : Kept cs_ t_ := by
  have := faultSlotless_kept p x1 x2 x3 hx3
  rwa [e_] at this

theorem propose_kept (s : State) (p : Nat) (S : Stamp) (cs : List Cand) (hs : Kept cs_ s) : Kept cs_ (propose s p S cs) := by
  unfold propose
  try extract_lets
  repeat'
    (first | with_reducible assumption | (with_reducible show Kept _ _; simp -iota -zeta only [memOk_mk, memsOk_mk])
            | (with_reducible show KeptParts _ _ _ _; simp -iota -zeta only [memsOk_mk]) | with_reducible apply memsOk_of
            | with_reducible apply cellsOk_of | with_reducible apply compHost_kept | with_reducible apply setComp_kept
            | with_reducible apply prog_kept | with_reducible apply post_kept | with_reducible apply blot_kept
            | with_reducible apply confirmRows_kept | with_reducible (refine confirmRows_kept_eq ?_ (by with_reducible assumption))
            | (refine pair_eq1 ?_ (by with_reducible assumption)) | (refine pair_eq2 ?_ (by with_reducible assumption))
            | (refine ans_done_eq ?_ (by with_reducible assumption)) | (refine ans_wait_eq ?_ (by with_reducible assumption))
            | with_reducible apply ans_done | with_reducible apply ans_wait | with_reducible apply ans_held
            | with_reducible apply out_next | with_reducible intro _ | extract_lets | split | dsimp +zetaDelta -iota only)

theorem execStepProposal_kept (p : Nat) (s : State) (hs : Kept cs_ s) : OutKept cs_ (execStepProposal p s) := by
  unfold execStepProposal
  try extract_lets
  repeat'
    (first | with_reducible assumption | (with_reducible show Kept _ _; simp -iota -zeta only [memOk_mk, memsOk_mk])
            | (with_reducible show KeptParts _ _ _ _; simp -iota -zeta only [memsOk_mk]) | with_reducible apply memsOk_of
            | with_reducible apply cellsOk_of | with_reducible apply setComp_kept | with_reducible apply expireAll_kept
            | with_reducible apply candidatesAt_kept | with_reducible (refine candidatesAt_kept_eq ?_ (by with_reducible assumption))
            | with_reducible apply faultSlotless_kept | with_reducible (refine faultSlotless_kept_eq ?_ (by with_reducible assumption))
            | with_reducible apply propose_kept | with_reducible (refine propose_kept_eq ?_ (by with_reducible assumption))
            | (refine pair_eq1 ?_ (by with_reducible assumption)) | (refine pair_eq2 ?_ (by with_reducible assumption))
            | (refine ans_done_eq ?_ (by with_reducible assumption)) | (refine ans_wait_eq ?_ (by with_reducible assumption))
            | with_reducible apply ans_done | with_reducible apply ans_wait | with_reducible apply ans_held
            | with_reducible apply out_next | with_reducible intro _ | extract_lets | split | dsimp +zetaDelta -iota only)

theorem programAt_kept (s : State) (p : Nat) (dpa : Nat) (hs : Kept cs_ s) : Kept cs_ (programAt s p dpa).2 := by
  unfold programAt
  try extract_lets
  repeat'
    (first | with_reducible assumption | (with_reducible show Kept _ _; simp -iota -zeta only [memOk_mk])
           | with_reducible apply memsOk_of | with_reducible apply readBytes_kept
           | with_reducible (refine readBytes_kept_eq ?_ (by with_reducible assumption)) | with_reducible intro _ | extract_lets | split
           | dsimp +zetaDelta -iota only)
theorem programAt_kept_eq {s : State} {p : Nat} {dpa : Nat} {r0 : Option (List Byte)} {t_ : State} (hs : Kept cs_ s) (e_
    : programAt s p dpa = (r0, t_)) : Kept cs_ t_ := by
  have := programAt_kept s p dpa hs
  rwa [e_] at this

theorem execStepConfig_kept (c : Cmd) (s : State) (hs : Kept cs_ s) : OutKept cs_ (execStepConfig c s) := by
  unfold execStepConfig
  try extract_lets
  repeat'
    (first | with_reducible assumption | (with_reducible show Kept _ _; simp -iota -zeta only [memOk_mk, memsOk_mk])
            | (with_reducible show KeptParts _ _ _ _; simp -iota -zeta only [memsOk_mk]) | with_reducible apply memsOk_of
            | with_reducible apply cellsOk_of | with_reducible apply servingCmd_kept | with_reducible apply checked_kept
            | with_reducible apply setComp_kept | with_reducible apply confirmRows_kept
            | with_reducible (refine confirmRows_kept_eq ?_ (by with_reducible assumption))
            | (refine pair_eq1 ?_ (by with_reducible assumption)) | (refine pair_eq2 ?_ (by with_reducible assumption))
            | (refine ans_done_eq ?_ (by with_reducible assumption)) | (refine ans_wait_eq ?_ (by with_reducible assumption))
            | with_reducible apply ans_done | with_reducible apply ans_wait | with_reducible apply ans_held
            | with_reducible apply out_next | with_reducible intro _ | extract_lets | split | dsimp +zetaDelta -iota only)

theorem enableComp_kept (s : State) (p : Nat) (hs : Kept cs_ s) : AnsKept cs_ (enableComp s p) := by
  unfold enableComp
  try extract_lets
  repeat'
    (first | with_reducible assumption | (with_reducible show Kept _ _; simp -iota -zeta only [memOk_mk, memsOk_mk])
            | (with_reducible show KeptParts _ _ _ _; simp -iota -zeta only [memsOk_mk]) | with_reducible apply memsOk_of
            | with_reducible apply cellsOk_of | with_reducible apply programAt_kept
            | with_reducible (refine programAt_kept_eq ?_ (by with_reducible assumption)) | with_reducible apply checked_kept
            | with_reducible apply setComp_kept | (refine pair_eq1 ?_ (by with_reducible assumption))
            | (refine pair_eq2 ?_ (by with_reducible assumption)) | (refine ans_done_eq ?_ (by with_reducible assumption))
            | (refine ans_wait_eq ?_ (by with_reducible assumption)) | with_reducible apply ans_done | with_reducible apply ans_wait
            | with_reducible apply ans_held | with_reducible apply out_next | with_reducible intro _ | extract_lets | split
            | dsimp +zetaDelta -iota only)

theorem execStepControl_kept (c : Cmd) (s : State) (hs : Kept cs_ s) : OutKept cs_ (execStepControl c s) := by
  unfold execStepControl
  try extract_lets
  repeat'
    (first | with_reducible assumption | (with_reducible show Kept _ _; simp -iota -zeta only [memOk_mk, memsOk_mk])
            | (with_reducible show KeptParts _ _ _ _; simp -iota -zeta only [memsOk_mk]) | with_reducible apply memsOk_of
            | with_reducible apply cellsOk_of | with_reducible apply servingCmd_kept | with_reducible apply enableComp_kept
            | with_reducible (refine enableComp_kept_eq ?_ (by with_reducible assumption)) | with_reducible apply setComp_kept
            | with_reducible apply disable_kept | (refine pair_eq1 ?_ (by with_reducible assumption))
            | (refine pair_eq2 ?_ (by with_reducible assumption)) | (refine ans_done_eq ?_ (by with_reducible assumption))
            | (refine ans_wait_eq ?_ (by with_reducible assumption)) | with_reducible apply ans_done | with_reducible apply ans_wait
            | with_reducible apply ans_held | with_reducible apply out_next | with_reducible intro _ | extract_lets | split
            | dsimp +zetaDelta -iota only)

theorem execStepConfirm_kept (c : Cmd) (s : State) (hs : Kept cs_ s) : OutKept cs_ (execStepConfirm c s) := by
  unfold execStepConfirm
  try extract_lets
  repeat'
    (first | with_reducible assumption | (with_reducible show Kept _ _; simp -iota -zeta only [memOk_mk, memsOk_mk])
            | (with_reducible show KeptParts _ _ _ _; simp -iota -zeta only [memsOk_mk]) | with_reducible apply memsOk_of
            | with_reducible apply cellsOk_of | with_reducible apply servingCmd_kept | with_reducible apply confirmRows_kept
            | with_reducible (refine confirmRows_kept_eq ?_ (by with_reducible assumption)) | with_reducible apply blot_kept
            | with_reducible apply setComp_kept | (refine pair_eq1 ?_ (by with_reducible assumption))
            | (refine pair_eq2 ?_ (by with_reducible assumption)) | (refine ans_done_eq ?_ (by with_reducible assumption))
            | (refine ans_wait_eq ?_ (by with_reducible assumption)) | with_reducible apply ans_done | with_reducible apply ans_wait
            | with_reducible apply ans_held | with_reducible apply out_next | with_reducible intro _ | extract_lets | split
            | dsimp +zetaDelta -iota only)

theorem execStepWatchdogSet_kept (c : Cmd) (s : State) (hs : Kept cs_ s) : OutKept cs_ (execStepWatchdogSet c s) := by
  unfold execStepWatchdogSet
  try extract_lets
  repeat'
    (first | with_reducible assumption | (with_reducible show Kept _ _; simp -iota -zeta only [memOk_mk])
           | with_reducible apply memsOk_of | with_reducible apply servingCmd_kept | with_reducible apply checked_kept
           | with_reducible apply setComp_kept | with_reducible apply ans_done | with_reducible apply ans_wait
           | with_reducible apply out_next | with_reducible intro _ | extract_lets | split | dsimp +zetaDelta -iota only)

theorem watchdogEvent_kept (s : State) (p : Nat) (no : Nat) (kind : Nat) (lines : Nat) (hs : Kept cs_ s) : Kept cs_
    (watchdogEvent s p no kind lines) := by
  unfold watchdogEvent
  try extract_lets
  repeat'
    (first | with_reducible assumption | (with_reducible show Kept _ _; simp -iota -zeta only [memOk_mk])
           | with_reducible apply memsOk_of | with_reducible apply post_kept | with_reducible intro _ | extract_lets | split
           | dsimp +zetaDelta -iota only)

theorem execStepWatchdog_kept (p : Nat) (s : State) (hs : Kept cs_ s) : OutKept cs_ (execStepWatchdog p s) := by
  unfold execStepWatchdog
  try extract_lets
  repeat'
    (first | with_reducible assumption | (with_reducible show Kept _ _; simp -iota -zeta only [memOk_mk, memsOk_mk])
            | (with_reducible show KeptParts _ _ _ _; simp -iota -zeta only [memsOk_mk]) | with_reducible apply memsOk_of
            | with_reducible apply cellsOk_of | with_reducible apply watchdogEvent_kept | with_reducible apply setComp_kept
            | (refine pair_eq1 ?_ (by with_reducible assumption)) | (refine pair_eq2 ?_ (by with_reducible assumption))
            | (refine ans_done_eq ?_ (by with_reducible assumption)) | (refine ans_wait_eq ?_ (by with_reducible assumption))
            | with_reducible apply ans_done | with_reducible apply ans_wait | with_reducible apply ans_held
            | with_reducible apply out_next | with_reducible intro _ | extract_lets | split | dsimp +zetaDelta -iota only)

theorem execReqLatency_kept (c : Cmd) (s : State) (hs : Kept cs_ s) : OutKept cs_ (execReqLatency c s) := by
  unfold execReqLatency
  try extract_lets
  repeat'
    (first | with_reducible assumption | (with_reducible show Kept _ _; simp -iota -zeta only [memOk_mk])
           | with_reducible apply memsOk_of | with_reducible apply reqCmd_kept | with_reducible apply ans_done
           | with_reducible apply ans_wait | with_reducible apply out_next | with_reducible intro _ | extract_lets | split
           | dsimp +zetaDelta -iota only)

theorem execFrameSlotConfig_kept (c : Cmd) (s : State) (hs : Kept cs_ s) : OutKept cs_ (execFrameSlotConfig c s) := by
  unfold execFrameSlotConfig
  try extract_lets
  repeat'
    (first | with_reducible assumption | (with_reducible show Kept _ _; simp -iota -zeta only [memOk_mk, memsOk_mk])
            | (with_reducible show KeptParts _ _ _ _; simp -iota -zeta only [memsOk_mk]) | with_reducible apply memsOk_of
            | with_reducible apply cellsOk_of | with_reducible apply servingCmd_kept | with_reducible apply checked_kept
            | with_reducible apply tallySet_kept | with_reducible apply setSlot_kept | (refine pair_eq1 ?_ (by with_reducible assumption))
            | (refine pair_eq2 ?_ (by with_reducible assumption)) | (refine ans_done_eq ?_ (by with_reducible assumption))
            | (refine ans_wait_eq ?_ (by with_reducible assumption)) | with_reducible apply ans_done | with_reducible apply ans_wait
            | with_reducible apply ans_held | with_reducible apply out_next | with_reducible intro _ | extract_lets | split
            | dsimp +zetaDelta -iota only)

theorem execFramePost_kept (c : Cmd) (s : State) (hs : Kept cs_ s) : OutKept cs_ (execFramePost c s) := by
  unfold execFramePost
  try extract_lets
  repeat'
    (first | with_reducible assumption | (with_reducible show Kept _ _; simp -iota -zeta only [memOk_mk])
           | with_reducible apply memsOk_of | with_reducible apply servingCmd_kept | with_reducible apply tallySignalAt_kept
           | with_reducible apply ans_done | with_reducible apply ans_wait | with_reducible apply out_next | with_reducible intro _
           | extract_lets | split | dsimp +zetaDelta -iota only)

theorem execExpertConfig_kept (c : Cmd) (s : State) (hs : Kept cs_ s) : OutKept cs_ (execExpertConfig c s) := by
  unfold execExpertConfig
  try extract_lets
  repeat'
    (first | with_reducible assumption | (with_reducible show Kept _ _; simp -iota -zeta only [memOk_mk, memsOk_mk])
            | (with_reducible show KeptParts _ _ _ _; simp -iota -zeta only [memsOk_mk]) | with_reducible apply memsOk_of
            | with_reducible apply cellsOk_of | with_reducible apply servingCmd_kept | with_reducible apply checked_kept
            | (refine pair_eq1 ?_ (by with_reducible assumption)) | (refine pair_eq2 ?_ (by with_reducible assumption))
            | (refine ans_done_eq ?_ (by with_reducible assumption)) | (refine ans_wait_eq ?_ (by with_reducible assumption))
            | with_reducible apply ans_done | with_reducible apply ans_wait | with_reducible apply ans_held
            | with_reducible apply out_next | with_reducible intro _ | extract_lets | split | dsimp +zetaDelta -iota only)

theorem execExpertBiasSet_kept (c : Cmd) (s : State) (hs : Kept cs_ s) : OutKept cs_ (execExpertBiasSet c s) := by
  unfold execExpertBiasSet
  try extract_lets
  repeat'
    (first | with_reducible assumption | (with_reducible show Kept _ _; simp -iota -zeta only [memOk_mk, memsOk_mk])
            | (with_reducible show KeptParts _ _ _ _; simp -iota -zeta only [memsOk_mk]) | with_reducible apply memsOk_of
            | with_reducible apply cellsOk_of | with_reducible apply servingCmd_kept | with_reducible apply applyBias_kept
            | (refine pair_eq1 ?_ (by with_reducible assumption)) | (refine pair_eq2 ?_ (by with_reducible assumption))
            | (refine ans_done_eq ?_ (by with_reducible assumption)) | (refine ans_wait_eq ?_ (by with_reducible assumption))
            | with_reducible apply ans_done | with_reducible apply ans_wait | with_reducible apply out_next | with_reducible intro _
            | extract_lets | split | dsimp +zetaDelta -iota only)

theorem execExpertQuery_kept (c : Cmd) (s : State) (hs : Kept cs_ s) : OutKept cs_ (execExpertQuery c s) := by
  unfold execExpertQuery
  try extract_lets
  repeat'
    (first | with_reducible assumption | (with_reducible show Kept _ _; simp -iota -zeta only [memOk_mk])
           | with_reducible apply memsOk_of | with_reducible apply servingCmd_kept | with_reducible apply readBytes_kept
           | with_reducible (refine readBytes_kept_eq ?_ (by with_reducible assumption)) | with_reducible apply reportTo_kept
           | with_reducible apply ans_done | with_reducible apply ans_wait | with_reducible apply out_next | with_reducible intro _
           | extract_lets | split | dsimp +zetaDelta -iota only)

end Sys2Proof.Machine
end

