-- ==== Sys2Proof/Laws/KeptSteps.lean ====
section
/-! SUPPORT. Every definition of Machine/Steps.lean keeps the queue of waiting commands and the canonical form of both memories. -/
namespace Sys2Proof.Machine
open Sys2Proof
set_option maxHeartbeats 400000
set_option linter.all false
variable {cs_ : List Instr}
theorem leaveStep_kept (s : State) (r : Row) (hs : Kept cs_ s) : Kept cs_ (leaveStep s r) := by
  unfold leaveStep
  try extract_lets
  repeat'
    (first | with_reducible assumption | (with_reducible show Kept _ _; simp -iota -zeta only [memOk_mk])
           | with_reducible apply memsOk_of | with_reducible apply unrefPage_kept | with_reducible apply clearLeaf_kept
           | with_reducible apply setReq_kept | with_reducible apply foldl_kept | with_reducible intro _ | extract_lets | split
           | dsimp +zetaDelta -iota only)

theorem duePause_kept (s : State) (e : Nat) (hs : Kept cs_ s) : Kept cs_ (duePause s e) := by
  unfold duePause
  try extract_lets
  repeat'
    (first | with_reducible assumption | (with_reducible show Kept _ _; simp -iota -zeta only [memOk_mk])
           | with_reducible apply memsOk_of | with_reducible apply applyPause_kept
           | with_reducible (refine applyPause_kept_eq ?_ (by with_reducible assumption)) | with_reducible apply finishReq_kept
           | with_reducible intro _ | extract_lets | split | dsimp +zetaDelta -iota only)

theorem settleRow_kept (s : State) (r : Row) (hs : Kept cs_ s) : Kept cs_ (settleRow s r) := by
  unfold settleRow
  try extract_lets
  repeat'
    (first | with_reducible assumption | (with_reducible show Kept _ _; simp -iota -zeta only [memOk_mk])
           | with_reducible apply memsOk_of | with_reducible apply endRequest_kept | with_reducible apply duePause_kept
           | with_reducible intro _ | extract_lets | split | dsimp +zetaDelta -iota only)

theorem discardStep_kept (s : State) (p : Nat) (q : Nat) (st : Nat) (hs : Kept cs_ s) : Kept cs_ (discardStep s p q st) := by
  unfold discardStep
  try extract_lets
  repeat'
    (first | with_reducible assumption | (with_reducible show Kept _ _; simp -iota -zeta only [memOk_mk])
           | with_reducible apply memsOk_of | with_reducible apply resetQueue_kept | with_reducible apply setComp_kept
           | with_reducible apply leaveStep_kept | with_reducible apply settleRow_kept | with_reducible apply writeReport_kept
           | with_reducible apply tallySet_kept | with_reducible apply post_kept | with_reducible apply finishWait_kept
           | with_reducible apply releaseBias_kept | with_reducible apply foldl_kept | with_reducible intro _ | extract_lets | split
           | dsimp +zetaDelta -iota only)

theorem stepHalt_kept (s : State) (p : Nat) (hs : Kept cs_ s) : Kept cs_ (stepHalt s p) := by
  unfold stepHalt
  try extract_lets
  repeat'
    (first | with_reducible assumption | (with_reducible show Kept _ _; simp -iota -zeta only [memOk_mk])
           | with_reducible apply memsOk_of | with_reducible apply discardStep_kept | with_reducible intro _ | extract_lets | split
           | dsimp +zetaDelta -iota only)

theorem execQueueAdvance_kept (p : Nat) (q : Nat) (s : State) (hs : Kept cs_ s) : OutKept cs_ (execQueueAdvance p q s) := by
  unfold execQueueAdvance
  try extract_lets
  repeat'
    (first | with_reducible assumption | (with_reducible show Kept _ _; simp -iota -zeta only [memOk_mk])
           | with_reducible apply memsOk_of | with_reducible apply queueAdvance_kept | with_reducible apply stepHalt_kept
           | with_reducible apply ans_done | with_reducible apply ans_wait | with_reducible apply out_next | with_reducible intro _
           | extract_lets | split | dsimp +zetaDelta -iota only)

theorem execStepBegin_kept (p : Nat) (q : Nat) (s : State) (hs : Kept cs_ s) : OutKept cs_ (execStepBegin p q s) := by
  unfold execStepBegin
  try extract_lets
  repeat'
    (first | with_reducible assumption | (with_reducible show Kept _ _; simp -iota -zeta only [memOk_mk])
           | with_reducible apply memsOk_of | with_reducible apply qAct_kept | with_reducible apply queueStatus_kept
           | with_reducible apply setComp_kept | with_reducible apply ans_done | with_reducible apply ans_wait
           | with_reducible apply out_next | with_reducible intro _ | extract_lets | split | dsimp +zetaDelta -iota only)

theorem setPhase_kept (s : State) (p : Nat) (n : Nat) (hs : Kept cs_ s) : Kept cs_ (setPhase s p n) := by
  unfold setPhase
  try extract_lets
  repeat'
    (first | with_reducible assumption | (with_reducible show Kept _ _; simp -iota -zeta only [memOk_mk])
           | with_reducible apply memsOk_of | with_reducible apply setComp_kept | with_reducible intro _ | extract_lets | split
           | dsimp +zetaDelta -iota only)

theorem submitEnd_kept (s : State) (p : Nat) (run : RunStep) (hs : Kept cs_ s) : Kept cs_ (submitEnd s p run) := by
  unfold submitEnd
  try extract_lets
  repeat'
    (first | with_reducible assumption | (with_reducible show Kept _ _; simp -iota -zeta only [memOk_mk])
           | with_reducible apply memsOk_of | with_reducible apply submitMark_kept | with_reducible apply setPhase_kept
           | with_reducible intro _ | extract_lets | split | dsimp +zetaDelta -iota only)

theorem submitProgram_kept (s : State) (p : Nat) (hs : Kept cs_ s) : Kept cs_ (submitProgram s p) := by
  unfold submitProgram
  try extract_lets
  repeat'
    (first | with_reducible assumption | (with_reducible show Kept _ _; simp -iota -zeta only [memOk_mk])
           | with_reducible apply memsOk_of | with_reducible apply programAt_kept
           | with_reducible (refine programAt_kept_eq ?_ (by with_reducible assumption)) | with_reducible apply discardStep_kept
           | with_reducible apply submitStep_kept | with_reducible apply setPhase_kept | with_reducible apply foldl_kept
           | with_reducible intro _ | extract_lets | split | dsimp +zetaDelta -iota only)

theorem execStepRunAdvance_kept (p : Nat) (s : State) (hs : Kept cs_ s) : OutKept cs_ (execStepRunAdvance p s) := by
  unfold execStepRunAdvance
  try extract_lets
  repeat'
    (first | with_reducible assumption | (with_reducible show Kept _ _; simp -iota -zeta only [memOk_mk, memsOk_mk])
            | (with_reducible show KeptParts _ _ _ _; simp -iota -zeta only [memsOk_mk]) | with_reducible apply memsOk_of
            | with_reducible apply cellsOk_of | with_reducible apply stepHalt_kept | with_reducible apply submitProgram_kept
            | with_reducible apply submitEnd_kept | with_reducible apply queueSummary_kept | with_reducible apply setPhase_kept
            | (refine pair_eq1 ?_ (by with_reducible assumption)) | (refine pair_eq2 ?_ (by with_reducible assumption))
            | (refine ans_done_eq ?_ (by with_reducible assumption)) | (refine ans_wait_eq ?_ (by with_reducible assumption))
            | with_reducible apply ans_done | with_reducible apply ans_wait | with_reducible apply ans_held
            | with_reducible apply out_next | with_reducible intro _ | extract_lets | split | dsimp +zetaDelta -iota only)

theorem foldSlot_kept_eq {s : State} {rq : Requester} {x : Model} {src dst i : Nat} {t_ : State} (hs : Kept cs_ s)
    (e_ : foldSlot s rq x src dst i = some t_) : Kept cs_ t_ := by
  unfold foldSlot at e_
  generalize er : readBytes s rq (src + 4096 * i) 4096 1 = r at e_
  obtain ⟨st, tile, poison, s1⟩ := r
  have h1 := readBytes_kept_eq hs er
  dsimp only at e_
  split at e_
  · rename_i b f _ _
    generalize ew : freeWord s1 = w at e_
    obtain ⟨w, s2⟩ := w
    have h2 := freeWord_kept_eq h1 ew
    dsimp only at e_
    generalize ef : fetchBasis s2 b.dpa = r2 at e_
    obtain ⟨o, s3⟩ := r2
    have h3 := fetchBasis_kept_eq h2 ef
    cases o with
    | none => cases e_
    | some t =>
      dsimp only at e_
      generalize foldTile tile b (x.sbasis + i % max 1 x.scount) t f.ratio (w.toNat % 3) ((w.toNat >>> 8) % (b.rank + 1))
        ((w.toNat >>> 32) % 2 ^ 32) = ft at e_
      cases ft with
      | none => cases e_
      | some y =>
        obtain ⟨out, y2⟩ := y
        dsimp only at e_
        split at e_
        · cases e_
        · generalize ew2 : writeBytes s3 rq (dst + 4096 * i) (padTo 4096 out) poison 1 = r4 at e_
          obtain ⟨st2, s4⟩ := r4
          have h4 := writeBytes_kept_eq h3 ew2
          dsimp only at e_
          split at e_
          · cases e_; exact h4
          · cases e_
  · cases e_

theorem foldAll_kept_eq {s : State} {rq : Requester} {e : Nat} {x : Model} {moves : List (Nat × Nat)} {t_ : State} (hs : Kept cs_ s)
    (e_ : foldAll s rq e x moves = some t_) : Kept cs_ t_ := by -- hand
  unfold foldAll at e_
  refine foldl_opt_kept (fun v hv => by cases hv; exact hs) (fun o m ho v hv => bind_kept ho (fun t w ht hw => ?_) hv) e_
  split at hw
  · cases hw; exact ht
  · exact foldl_opt_kept (fun a ha => by cases ha; exact ht) (fun o i ho a ha => bind_kept ho
      (fun b c hb hc => foldSlot_kept_eq hb hc) ha) hw

theorem summaryOne_kept (e : Nat) (s : State) (m : Nat × Nat) (hs : Kept cs_ s) : Kept cs_ (summaryOne e s m) := by
  unfold summaryOne
  try extract_lets
  repeat'
    (first | with_reducible assumption | (with_reducible show Kept _ _; simp -iota -zeta only [memOk_mk])
           | with_reducible apply memsOk_of | with_reducible apply setPage_kept
           | with_reducible (refine setLeaf_kept_eq ?_ (by with_reducible assumption)) | with_reducible apply unrefPage_kept
           | with_reducible intro _ | extract_lets | split | dsimp +zetaDelta -iota only)

theorem endFold_kept (s : State) (e : Nat) (hs : Kept cs_ s) : Kept cs_ (endFold s e) := by
  unfold endFold
  try extract_lets
  repeat'
    (first | with_reducible assumption | (with_reducible show Kept _ _; simp -iota -zeta only [memOk_mk, memsOk_mk])
            | (with_reducible show KeptParts _ _ _ _; simp -iota -zeta only [memsOk_mk]) | with_reducible apply memsOk_of
            | with_reducible apply cellsOk_of | with_reducible apply summaryOne_kept | with_reducible apply setComp_kept
            | with_reducible apply setReq_kept | with_reducible apply applyCancel_kept | with_reducible apply finishReq_kept
            | with_reducible apply foldl_kept | with_reducible apply foldl_snd2_kept | with_reducible apply foldl_fst_kept
            | with_reducible apply foldl_snd_kept | (refine pair_eq1 ?_ (by with_reducible assumption))
            | (refine pair_eq2 ?_ (by with_reducible assumption)) | (refine ans_done_eq ?_ (by with_reducible assumption))
            | (refine ans_wait_eq ?_ (by with_reducible assumption)) | with_reducible apply ans_done | with_reducible apply ans_wait
            | with_reducible apply ans_held | with_reducible apply out_next | with_reducible intro _ | extract_lets | split
            | dsimp +zetaDelta -iota only)

theorem faultSummary_kept (s : State) (p : Nat) (core : Nat) (cause : Nat) (st : Option Nat) (hs : Kept cs_ s) : Kept cs_ (faultSummary s
    p core cause st) := by
  unfold faultSummary
  try extract_lets
  repeat'
    (first | with_reducible assumption | (with_reducible show Kept _ _; simp -iota -zeta only [memOk_mk, memsOk_mk])
            | (with_reducible show KeptParts _ _ _ _; simp -iota -zeta only [memsOk_mk]) | with_reducible apply memsOk_of
            | with_reducible apply cellsOk_of | with_reducible apply endSummary_kept | with_reducible apply coreFault_kept
            | (refine pair_eq1 ?_ (by with_reducible assumption)) | (refine pair_eq2 ?_ (by with_reducible assumption))
            | (refine ans_done_eq ?_ (by with_reducible assumption)) | (refine ans_wait_eq ?_ (by with_reducible assumption))
            | with_reducible apply ans_done | with_reducible apply ans_wait | with_reducible apply ans_held
            | with_reducible apply out_next | with_reducible intro _ | extract_lets | split | dsimp +zetaDelta -iota only)

theorem execSummaryFoldDone_kept (entry : Nat) (s : State) (hs : Kept cs_ s) : OutKept cs_ (execSummaryFoldDone entry s) := by
  unfold execSummaryFoldDone
  try extract_lets
  repeat'
    (first | with_reducible assumption | (with_reducible show Kept _ _; simp -iota -zeta only [memOk_mk, memsOk_mk])
            | (with_reducible show KeptParts _ _ _ _; simp -iota -zeta only [memsOk_mk]) | with_reducible apply memsOk_of
            | with_reducible apply cellsOk_of | with_reducible (refine foldAll_kept_eq ?_ (by with_reducible assumption))
            | with_reducible apply faultSummary_kept | with_reducible apply endFold_kept | with_reducible apply endSummary_kept
            | (refine pair_eq1 ?_ (by with_reducible assumption)) | (refine pair_eq2 ?_ (by with_reducible assumption))
            | (refine ans_done_eq ?_ (by with_reducible assumption)) | (refine ans_wait_eq ?_ (by with_reducible assumption))
            | with_reducible apply ans_done | with_reducible apply ans_wait | with_reducible apply ans_held
            | with_reducible apply out_next | with_reducible intro _ | extract_lets | split | dsimp +zetaDelta -iota only)

theorem readVectors_kept (p : Nat) (a : LogitsArea) (x2 : List Nat) (x3 : State) (x4 : List (List Nat)) (x5 : Bool) (hx3 : Kept cs_ x3)
    : Kept cs_ (readVectors p a x2 x3 x4 x5).2.2 := by
  fun_induction readVectors p a x2 x3 x4 x5
  all_goals try extract_lets
  all_goals repeat'
    (first | with_reducible assumption | (with_reducible show Kept _ _; simp -iota -zeta only [memOk_mk])
           | with_reducible apply memsOk_of | with_reducible apply vectorAt_kept
           | with_reducible (refine vectorAt_kept_eq ?_ (by with_reducible assumption)) | with_reducible apply_assumption
           | with_reducible intro _ | extract_lets | split | dsimp +zetaDelta -iota only)
theorem readVectors_kept_eq {p : Nat} {a : LogitsArea} {x2 : List Nat} {x3 : State} {x4 : List (List Nat)} {x5 : Bool} {r0 : List
    (List Nat)} {r1 : Bool} {t_ : State} (hx3 : Kept cs_ x3) (e_ : readVectors p a x2 x3 x4 x5 = (r0, r1, t_)) : Kept cs_ t_ := by
  have := readVectors_kept p a x2 x3 x4 x5 hx3
  rwa [e_] at this

theorem walkRow_kept (s : State) (r : Row) (q : Sampling) (vecs : List (List Nat)) (hs : Kept cs_ s) : Kept cs_ (walkRow s r q vecs).2 :=
    by
  unfold walkRow
  try extract_lets
  repeat'
    (first | with_reducible assumption | (with_reducible show Kept _ _; simp -iota -zeta only [memOk_mk, memsOk_mk])
            | (with_reducible show KeptParts _ _ _ _; simp -iota -zeta only [memsOk_mk]) | with_reducible apply memsOk_of
            | with_reducible apply cellsOk_of | with_reducible apply walkCtx_kept
            | with_reducible (refine walkCtx_kept_eq ?_ (by with_reducible assumption)) | with_reducible apply draftAt_kept
            | with_reducible (refine draftAt_kept_eq ?_ (by with_reducible assumption))
            | (refine pair_eq1 ?_ (by with_reducible assumption)) | (refine pair_eq2 ?_ (by with_reducible assumption))
            | (refine ans_done_eq ?_ (by with_reducible assumption)) | (refine ans_wait_eq ?_ (by with_reducible assumption))
            | with_reducible apply ans_done | with_reducible apply ans_wait | with_reducible apply ans_held
            | with_reducible apply out_next | with_reducible intro _ | extract_lets | split | dsimp +zetaDelta -iota only)
theorem walkRow_kept_eq {s : State} {r : Row} {q : Sampling} {vecs : List (List Nat)} {r0 : RowOut} {t_ : State} (hs : Kept cs_ s) (e_ :
    walkRow s r q vecs = (r0, t_)) : Kept cs_ t_ := by
  have := walkRow_kept s r q vecs hs
  rwa [e_] at this

theorem flourishRow_kept (s : State) (p : Nat) (r : Row) (hs : Kept cs_ s) : Kept cs_ (flourishRow s p r).2 := by
  unfold flourishRow
  try extract_lets
  repeat'
    (first | with_reducible assumption | (with_reducible show Kept _ _; simp -iota -zeta only [memOk_mk, memsOk_mk])
            | (with_reducible show KeptParts _ _ _ _; simp -iota -zeta only [memsOk_mk]) | with_reducible apply memsOk_of
            | with_reducible apply cellsOk_of | with_reducible apply readVectors_kept
            | with_reducible (refine readVectors_kept_eq ?_ (by with_reducible assumption)) | with_reducible apply walkRow_kept
            | with_reducible (refine walkRow_kept_eq ?_ (by with_reducible assumption))
            | (refine pair_eq1 ?_ (by with_reducible assumption)) | (refine pair_eq2 ?_ (by with_reducible assumption))
            | (refine ans_done_eq ?_ (by with_reducible assumption)) | (refine ans_wait_eq ?_ (by with_reducible assumption))
            | with_reducible apply ans_done | with_reducible apply ans_wait | with_reducible apply ans_held
            | with_reducible apply out_next | with_reducible intro _ | extract_lets | split | dsimp +zetaDelta -iota only)
theorem flourishRow_kept_eq {s : State} {p : Nat} {r : Row} {r0 : RowOut} {t_ : State} (hs : Kept cs_ s) (e_ : flourishRow s p r = (r0,
    t_)) : Kept cs_ t_ := by
  have := flourishRow_kept s p r hs
  rwa [e_] at this

theorem flourishGo_kept (p : Nat) (x1 : List Row) (x2 : State) (x3 : List (Row × RowOut)) (hx2 : Kept cs_ x2) : Kept cs_
    (flourishGo p x1 x2 x3).2 := by
  fun_induction flourishGo p x1 x2 x3
  all_goals try extract_lets
  all_goals repeat'
    (first | with_reducible assumption | (with_reducible show Kept _ _; simp -iota -zeta only [memOk_mk])
           | with_reducible apply memsOk_of | with_reducible apply flourishRow_kept
           | with_reducible (refine flourishRow_kept_eq ?_ (by with_reducible assumption)) | with_reducible apply_assumption
           | with_reducible intro _ | extract_lets | split | dsimp +zetaDelta -iota only)
theorem flourishGo_kept_eq {p : Nat} {x1 : List Row} {x2 : State} {x3 : List (Row × RowOut)} {r0 : List (Row × RowOut)} {t_ : State} (hx2
    : Kept cs_ x2) (e_ : flourishGo p x1 x2 x3 = (r0, t_)) : Kept cs_ t_ := by
  have := flourishGo_kept p x1 x2 x3 hx2
  rwa [e_] at this

theorem commitTokens_kept (e : Nat) (x1 : Nat) (x2 : Nat) (x3 : List (BitVec 32)) (x4 : State) (hx4 : Kept cs_ x4) : Kept cs_
    (commitTokens e x1 x2 x3 x4) := by
  induction x1 generalizing x4 x2 x3 with
  | zero => (first | with_reducible assumption | (unfold commitTokens; with_reducible assumption))
  | succ k ih =>
    unfold commitTokens
    try extract_lets
    repeat'
      (first | with_reducible assumption | (with_reducible show Kept _ _; simp -iota -zeta only [memOk_mk])
             | with_reducible apply memsOk_of | with_reducible apply setPage_kept | with_reducible apply ih | with_reducible intro _
             | extract_lets | split | dsimp +zetaDelta -iota only)

theorem copyNodes_kept (s : State) (e : Nat) (r : Row) (path : List Nat) (hs : Kept cs_ s) : Kept cs_ (copyNodes s e r path) := by
  unfold copyNodes
  try extract_lets
  repeat'
    (first | with_reducible assumption | (with_reducible show Kept _ _; simp -iota -zeta only [memOk_mk])
           | with_reducible apply memsOk_of | with_reducible apply copyWithin_kept
           | with_reducible (refine copyWithin_kept_eq ?_ (by with_reducible assumption)) | with_reducible apply foldl_kept
           | with_reducible intro _ | extract_lets | split | dsimp +zetaDelta -iota only)

theorem countToken_kept (q : Req) (s : State) (t : Nat) (hs : Kept cs_ s) : Kept cs_ (countToken q s t) := by
  unfold countToken
  try extract_lets
  repeat'
    (first | with_reducible assumption | (with_reducible show Kept _ _; simp -iota -zeta only [memOk_mk, memsOk_mk])
            | (with_reducible show KeptParts _ _ _ _; simp -iota -zeta only [memsOk_mk]) | with_reducible apply memsOk_of
            | with_reducible apply cellsOk_of | with_reducible apply contribute_kept
            | with_reducible (refine contribute_kept_eq ?_ (by with_reducible assumption))
            | (refine pair_eq1 ?_ (by with_reducible assumption)) | (refine pair_eq2 ?_ (by with_reducible assumption))
            | (refine ans_done_eq ?_ (by with_reducible assumption)) | (refine ans_wait_eq ?_ (by with_reducible assumption))
            | with_reducible apply ans_done | with_reducible apply ans_wait | with_reducible apply ans_held
            | with_reducible apply out_next | with_reducible intro _ | extract_lets | split | dsimp +zetaDelta -iota only)

theorem releaseUnused_kept (s : State) (r : Row) (committed : Nat) (hs : Kept cs_ s) : Kept cs_ (releaseUnused s r committed) := by
  unfold releaseUnused
  try extract_lets
  repeat'
    (first | with_reducible assumption | (with_reducible show Kept _ _; simp -iota -zeta only [memOk_mk])
           | with_reducible apply memsOk_of | with_reducible apply unrefPage_kept | with_reducible apply clearLeaf_kept
           | with_reducible apply foldl_kept | with_reducible intro _ | extract_lets | split | dsimp +zetaDelta -iota only)

theorem commitText_kept (s : State) (r : Row) (toks : List Nat) (hs : Kept cs_ s) : Kept cs_ (commitText s r toks) := by
  unfold commitText
  try extract_lets
  repeat'
    (first | with_reducible assumption | (with_reducible show Kept _ _; simp -iota -zeta only [memOk_mk, memsOk_mk])
            | (with_reducible show KeptParts _ _ _ _; simp -iota -zeta only [memsOk_mk]) | with_reducible apply memsOk_of
            | with_reducible apply cellsOk_of | with_reducible apply setReq_kept | with_reducible apply setSlot_kept
            | (refine pair_eq1 ?_ (by with_reducible assumption)) | (refine pair_eq2 ?_ (by with_reducible assumption))
            | (refine ans_done_eq ?_ (by with_reducible assumption)) | (refine ans_wait_eq ?_ (by with_reducible assumption))
            | with_reducible apply ans_done | with_reducible apply ans_wait | with_reducible apply ans_held
            | with_reducible apply out_next | with_reducible intro _ | extract_lets | split | dsimp +zetaDelta -iota only)

theorem promptTokens_kept (s : State) (p : Nat) (r : Row) (hs : Kept cs_ s) : Kept cs_ (promptTokens s p r).2 := by
  unfold promptTokens
  try extract_lets
  repeat'
    (first | with_reducible assumption | (with_reducible show Kept _ _; simp -iota -zeta only [memOk_mk])
           | with_reducible apply memsOk_of | with_reducible apply readBytes_kept
           | with_reducible (refine readBytes_kept_eq ?_ (by with_reducible assumption)) | with_reducible intro _ | extract_lets | split
           | dsimp +zetaDelta -iota only)
theorem promptTokens_kept_eq {s : State} {p : Nat} {r : Row} {r0 : Option (List (BitVec 32))} {t_ : State} (hs : Kept cs_ s) (e_
    : promptTokens s p r = (r0, t_)) : Kept cs_ t_ := by
  have := promptTokens_kept s p r hs
  rwa [e_] at this

theorem commitRow_kept (s : State) (p : Nat) (r : Row) (o : RowOut) (hs : Kept cs_ s) : Kept cs_ (commitRow s p r o).2 := by
  unfold commitRow
  try extract_lets
  repeat'
    (first | with_reducible assumption | (with_reducible show Kept _ _; simp -iota -zeta only [memOk_mk, memsOk_mk])
            | (with_reducible show KeptParts _ _ _ _; simp -iota -zeta only [memsOk_mk]) | with_reducible apply memsOk_of
            | with_reducible apply cellsOk_of | with_reducible apply unrefPage_kept | with_reducible apply promptTokens_kept
            | with_reducible (refine promptTokens_kept_eq ?_ (by with_reducible assumption)) | with_reducible apply floCount_kept
            | with_reducible apply copyNodes_kept | with_reducible apply commitTokens_kept | with_reducible apply setReq_kept
            | with_reducible apply countToken_kept | with_reducible (refine countToken_kept_eq ?_ (by with_reducible assumption))
            | with_reducible apply commitText_kept | with_reducible apply releaseUnused_kept | with_reducible apply bump_kept
            | with_reducible apply foldl_kept | with_reducible apply foldl_snd2_kept | with_reducible apply foldl_fst_kept
            | with_reducible apply foldl_snd_kept | (refine pair_eq1 ?_ (by with_reducible assumption))
            | (refine pair_eq2 ?_ (by with_reducible assumption)) | (refine ans_done_eq ?_ (by with_reducible assumption))
            | (refine ans_wait_eq ?_ (by with_reducible assumption)) | with_reducible apply ans_done | with_reducible apply ans_wait
            | with_reducible apply ans_held | with_reducible apply out_next | with_reducible intro _ | extract_lets | split
            | dsimp +zetaDelta -iota only)
theorem commitRow_kept_eq {s : State} {p : Nat} {r : Row} {o : RowOut} {r0 : (Row × Nat)} {t_ : State} (hs : Kept cs_ s) (e_ : commitRow s
    p r o = (r0, t_)) : Kept cs_ t_ := by
  have := commitRow_kept s p r o hs
  rwa [e_] at this

theorem commitGo_kept (p : Nat) (x1 : List (Row × RowOut)) (x2 : State) (x3 : List (Row × Nat × Nat)) (hx2 : Kept cs_ x2) : Kept cs_
    (commitGo p x1 x2 x3).2 := by
  fun_induction commitGo p x1 x2 x3
  all_goals try extract_lets
  all_goals repeat'
    (first | with_reducible assumption | (with_reducible show Kept _ _; simp -iota -zeta only [memOk_mk])
           | with_reducible apply memsOk_of | with_reducible apply commitRow_kept
           | with_reducible (refine commitRow_kept_eq ?_ (by with_reducible assumption)) | with_reducible apply_assumption
           | with_reducible intro _ | extract_lets | split | dsimp +zetaDelta -iota only)
theorem commitGo_kept_eq {p : Nat} {x1 : List (Row × RowOut)} {x2 : State} {x3 : List (Row × Nat × Nat)} {r0 : List (Row × Nat × Nat)}
    {t_ : State} (hx2 : Kept cs_ x2) (e_ : commitGo p x1 x2 x3 = (r0, t_)) : Kept cs_ t_ := by
  have := commitGo_kept p x1 x2 x3 hx2
  rwa [e_] at this

theorem publishAll_kept (s : State) (l : List (Row × Nat × Nat)) (hs : Kept cs_ s) : Kept cs_ (publishAll s l) := by
  unfold publishAll
  try extract_lets
  repeat'
    (first | with_reducible assumption | (with_reducible show Kept _ _; simp -iota -zeta only [memOk_mk])
           | with_reducible apply memsOk_of | with_reducible apply publishPage_kept | with_reducible apply foldl_kept
           | with_reducible intro _ | extract_lets | split | dsimp +zetaDelta -iota only)

theorem judgeRow_kept (s : State) (T : Stamp) (r : Row) (hs : Kept cs_ s) : Kept cs_ (judgeRow s T r).2.2 := by
  unfold judgeRow
  try extract_lets
  repeat'
    (first | with_reducible assumption | (with_reducible show Kept _ _; simp -iota -zeta only [memOk_mk])
           | with_reducible apply memsOk_of | with_reducible apply setReq_kept | with_reducible apply bump_kept | with_reducible intro _
           | extract_lets | split | dsimp +zetaDelta -iota only)
theorem judgeRow_kept_eq {s : State} {T : Stamp} {r : Row} {r0 : Row} {r1 : Bool} {t_ : State} (hs : Kept cs_ s) (e_ : judgeRow s T r =
    (r0, r1, t_)) : Kept cs_ t_ := by
  have := judgeRow_kept s T r hs
  rwa [e_] at this

theorem judgeGo_kept (T : Stamp) (x1 : List Row) (x2 : State) (x3 : List Row) (x4 : Nat) (hx2 : Kept cs_ x2) : Kept cs_
    (judgeGo T x1 x2 x3 x4).2.2 := by
  fun_induction judgeGo T x1 x2 x3 x4
  all_goals try extract_lets
  all_goals repeat'
    (first | with_reducible assumption | (with_reducible show Kept _ _; simp -iota -zeta only [memOk_mk])
           | with_reducible apply memsOk_of | with_reducible apply judgeRow_kept
           | with_reducible (refine judgeRow_kept_eq ?_ (by with_reducible assumption)) | with_reducible apply_assumption
           | with_reducible intro _ | extract_lets | split | dsimp +zetaDelta -iota only)
theorem judgeGo_kept_eq {T : Stamp} {x1 : List Row} {x2 : State} {x3 : List Row} {x4 : Nat} {r0 : List Row} {r1 : Nat} {t_ : State} (hx2
    : Kept cs_ x2) (e_ : judgeGo T x1 x2 x3 x4 = (r0, r1, t_)) : Kept cs_ t_ := by
  have := judgeGo_kept T x1 x2 x3 x4 hx2
  rwa [e_] at this

theorem endRow_kept (s : State) (x : Row × Nat × Nat) (hs : Kept cs_ s) : Kept cs_ (endRow s x) := by
  unfold endRow
  try extract_lets
  repeat'
    (first | with_reducible assumption | (with_reducible show Kept _ _; simp -iota -zeta only [memOk_mk])
           | with_reducible apply memsOk_of | with_reducible apply endRequest_kept | with_reducible apply faultRequest_kept
           | with_reducible apply setReq_kept | with_reducible apply duePause_kept | with_reducible intro _ | extract_lets | split
           | dsimp +zetaDelta -iota only)

theorem biasLoop_kept (s : State) (x : Expert) (hs : Kept cs_ s) : Kept cs_ (biasLoop s x) := by
  unfold biasLoop
  try extract_lets
  repeat'
    (first | with_reducible assumption | (with_reducible show Kept _ _; simp -iota -zeta only [memOk_mk])
           | with_reducible apply memsOk_of | with_reducible apply readBytes_kept
           | with_reducible (refine readBytes_kept_eq ?_ (by with_reducible assumption)) | with_reducible apply devWrite_kept
           | with_reducible intro _ | extract_lets | split | dsimp +zetaDelta -iota only)

theorem countLayer_kept (p : Nat) (s : State) (l : Nat × Expert) (hs : Kept cs_ s) : Kept cs_ (countLayer p s l) := by
  unfold countLayer
  try extract_lets
  repeat'
    (first | with_reducible assumption | (with_reducible show Kept _ _; simp -iota -zeta only [memOk_mk])
           | with_reducible apply memsOk_of | with_reducible apply biasLoop_kept | with_reducible apply post_kept
           | with_reducible intro _ | extract_lets | split | dsimp +zetaDelta -iota only)

theorem countLayers_kept (s : State) (p : Nat) (m : Nat) (hs : Kept cs_ s) : Kept cs_ (countLayers s p m) := by
  unfold countLayers
  try extract_lets
  repeat'
    (first | with_reducible assumption | (with_reducible show Kept _ _; simp -iota -zeta only [memOk_mk])
           | with_reducible apply memsOk_of | with_reducible apply countLayer_kept | with_reducible apply foldl_kept
           | with_reducible intro _ | extract_lets | split | dsimp +zetaDelta -iota only)

theorem stepCommit_kept (s : State) (p : Nat) (run : RunStep) (hs : Kept cs_ s) : Kept cs_ (stepCommit s p run) := by
  unfold stepCommit
  try extract_lets
  repeat'
    (first | with_reducible assumption | (with_reducible show Kept _ _; simp -iota -zeta only [memOk_mk, memsOk_mk])
            | (with_reducible show KeptParts _ _ _ _; simp -iota -zeta only [memsOk_mk]) | with_reducible apply memsOk_of
            | with_reducible apply cellsOk_of | with_reducible apply flourishGo_kept
            | with_reducible (refine flourishGo_kept_eq ?_ (by with_reducible assumption)) | with_reducible apply expireAll_kept
            | with_reducible apply commitGo_kept | with_reducible (refine commitGo_kept_eq ?_ (by with_reducible assumption))
            | with_reducible apply publishAll_kept | with_reducible apply judgeGo_kept
            | with_reducible (refine judgeGo_kept_eq ?_ (by with_reducible assumption)) | with_reducible apply endRow_kept
            | with_reducible apply countLayers_kept | with_reducible apply bump_kept | with_reducible apply setComp_kept
            | with_reducible apply tallySet_kept | with_reducible apply writeReport_kept | with_reducible apply finishWait_kept
            | with_reducible apply releaseBias_kept | with_reducible apply stepDone_kept | with_reducible apply disable_kept
            | with_reducible apply noteCheck_kept | with_reducible apply foldl_kept | with_reducible apply foldl_snd2_kept
            | with_reducible apply foldl_fst_kept | with_reducible apply foldl_snd_kept
            | (refine pair_eq1 ?_ (by with_reducible assumption)) | (refine pair_eq2 ?_ (by with_reducible assumption))
            | (refine ans_done_eq ?_ (by with_reducible assumption)) | (refine ans_wait_eq ?_ (by with_reducible assumption))
            | with_reducible apply ans_done | with_reducible apply ans_wait | with_reducible apply ans_held
            | with_reducible apply out_next | with_reducible intro _ | extract_lets | split | dsimp +zetaDelta -iota only)

theorem execStepEnd_kept (p : Nat) (q : Nat) (s : State) (hs : Kept cs_ s) : OutKept cs_ (execStepEnd p q s) := by
  unfold execStepEnd
  try extract_lets
  repeat'
    (first | with_reducible assumption | (with_reducible show Kept _ _; simp -iota -zeta only [memOk_mk])
           | with_reducible apply memsOk_of | with_reducible apply qAct_kept | with_reducible apply queueStatus_kept
           | with_reducible apply stepCommit_kept | with_reducible apply ans_done | with_reducible apply ans_wait
           | with_reducible apply out_next | with_reducible intro _ | extract_lets | split | dsimp +zetaDelta -iota only)

end Sys2Proof.Machine
end

