-- ==== Sys2Proof/Laws/KeptObservation.lean ====
section
/-! SUPPORT. Every definition of Machine/Observation.lean keeps the queue of waiting commands and the canonical form of both memories. -/
namespace Sys2Proof.Machine
open Sys2Proof
set_option maxHeartbeats 400000
set_option linter.all false
variable {cs_ : List Instr}
theorem execObsCounters_kept (c : Cmd) (s : State) (hs : Kept cs_ s) : OutKept cs_ (execObsCounters c s) := by
  unfold execObsCounters
  try extract_lets
  repeat'
    (first | with_reducible assumption | (with_reducible show Kept _ _; simp -iota -zeta only [memOk_mk])
           | with_reducible apply memsOk_of | with_reducible apply firmware_kept | with_reducible apply checked_kept
           | with_reducible apply reportTo_kept | with_reducible apply ans_done | with_reducible apply ans_wait
           | with_reducible apply out_next | with_reducible intro _ | extract_lets | split | dsimp +zetaDelta -iota only)

theorem execObsLatchRead_kept (c : Cmd) (s : State) (hs : Kept cs_ s) : OutKept cs_ (execObsLatchRead c s) := by
  unfold execObsLatchRead
  try extract_lets
  repeat'
    (first | with_reducible assumption | (with_reducible show Kept _ _; simp -iota -zeta only [memOk_mk])
           | with_reducible apply memsOk_of | with_reducible apply firmware_kept | with_reducible apply checked_kept
           | with_reducible apply reportTo_kept | with_reducible apply ans_done | with_reducible apply ans_wait
           | with_reducible apply out_next | with_reducible intro _ | extract_lets | split | dsimp +zetaDelta -iota only)

theorem execObsProgConfig_kept (c : Cmd) (s : State) (hs : Kept cs_ s) : OutKept cs_ (execObsProgConfig c s) := by
  unfold execObsProgConfig
  try extract_lets
  repeat'
    (first | with_reducible assumption | (with_reducible show Kept _ _; simp -iota -zeta only [memOk_mk])
           | with_reducible apply memsOk_of | with_reducible apply firmware_kept | with_reducible apply checked_kept
           | with_reducible apply ans_done | with_reducible apply ans_wait | with_reducible apply out_next | with_reducible intro _
           | extract_lets | split | dsimp +zetaDelta -iota only)

theorem execObsProgRead_kept (c : Cmd) (s : State) (hs : Kept cs_ s) : OutKept cs_ (execObsProgRead c s) := by
  unfold execObsProgRead
  try extract_lets
  repeat'
    (first | with_reducible assumption | (with_reducible show Kept _ _; simp -iota -zeta only [memOk_mk])
           | with_reducible apply memsOk_of | with_reducible apply firmware_kept | with_reducible apply checked_kept
           | with_reducible apply reportTo_kept | with_reducible apply ans_done | with_reducible apply ans_wait
           | with_reducible apply out_next | with_reducible intro _ | extract_lets | split | dsimp +zetaDelta -iota only)

theorem setTrace_kept (s : State) (i : Nat) (t : Trace) (hs : Kept cs_ s) : Kept cs_ (setTrace s i t) := by
  unfold setTrace
  try extract_lets
  repeat'
    (first | with_reducible assumption | (with_reducible show Kept _ _; simp -iota -zeta only [memOk_mk])
           | with_reducible apply memsOk_of | with_reducible intro _ | extract_lets | split | dsimp +zetaDelta -iota only)

theorem traceStopped_kept (s : State) (i : Nat) (why : Nat) (hs : Kept cs_ s) : Kept cs_ (traceStopped s i why) := by
  unfold traceStopped
  try extract_lets
  repeat'
    (first | with_reducible assumption | (with_reducible show Kept _ _; simp -iota -zeta only [memOk_mk])
           | with_reducible apply memsOk_of | with_reducible apply post_kept | with_reducible apply getD_kept | with_reducible intro _
           | extract_lets | split | dsimp +zetaDelta -iota only)

theorem stopTrace_kept (s : State) (i : Nat) (why : Nat) (hs : Kept cs_ s) : Kept cs_ (stopTrace s i why) := by
  unfold stopTrace
  try extract_lets
  repeat'
    (first | with_reducible assumption | (with_reducible show Kept _ _; simp -iota -zeta only [memOk_mk])
           | with_reducible apply memsOk_of | with_reducible apply traceStopped_kept | with_reducible apply setTrace_kept
           | with_reducible intro _ | extract_lets | split | dsimp +zetaDelta -iota only)

theorem execObsTraceConfig_kept (c : Cmd) (s : State) (hs : Kept cs_ s) : OutKept cs_ (execObsTraceConfig c s) := by
  unfold execObsTraceConfig
  try extract_lets
  repeat'
    (first | with_reducible assumption | (with_reducible show Kept _ _; simp -iota -zeta only [memOk_mk])
           | with_reducible apply memsOk_of | with_reducible apply firmware_kept | with_reducible apply checked_kept
           | with_reducible apply setTrace_kept | with_reducible apply ans_done | with_reducible apply ans_wait
           | with_reducible apply out_next | with_reducible intro _ | extract_lets | split | dsimp +zetaDelta -iota only)

theorem execObsTraceControl_kept (c : Cmd) (s : State) (hs : Kept cs_ s) : OutKept cs_ (execObsTraceControl c s) := by
  unfold execObsTraceControl
  try extract_lets
  repeat'
    (first | with_reducible assumption | (with_reducible show Kept _ _; simp -iota -zeta only [memOk_mk])
           | with_reducible apply memsOk_of | with_reducible apply firmware_kept | with_reducible apply checked_kept
           | with_reducible apply setTrace_kept | with_reducible apply stopTrace_kept | with_reducible apply ans_done
           | with_reducible apply ans_wait | with_reducible apply out_next | with_reducible intro _ | extract_lets | split
           | dsimp +zetaDelta -iota only)

theorem ringRead_kept_eq {s : State} {i : Nat} {t : Trace} {off : Nat} {n : Nat} {r0 : List Byte} {t_ : State} (hs : Kept cs_ s) (e_ :
    ringRead s i t off n = some (r0, t_)) : Kept cs_ t_ := by -- hand
  unfold ringRead at e_
  split at e_
  · have hk : Kept cs_ (hostBytesRead s n) := hostBytesRead_kept s n hs
    generalize hostBytesRead s n = u at e_ hk
    cases hr : hostRead? s (t.ring + off) n with
    | none => simp [hr] at e_
    | some b => simp [hr] at e_; exact e_.2 ▸ hk
  · split at e_
    rename_i e
    split at e_
    · cases e_; exact readBytes_kept_eq hs e
    · cases e_

theorem ringWrite_kept_eq {s : State} {i : Nat} {t : Trace} {off : Nat} {b : List Byte} {t_ : State} (hs : Kept cs_ s)
    (e_ : ringWrite s i t off b = some t_) : Kept cs_ t_ := by
  unfold ringWrite at e_
  split at e_
  · cases hr : hostWrite? s (t.ring + off) b with
    | none => simp [hr] at e_
    | some u => simp [hr] at e_; rw [← e_]; exact bumpO_kept _ _ _ _ (bumpO_kept _ _ _ _ (hostWrite?_kept_eq hs hr))
  · split at e_
    rename_i e
    split at e_
    · cases e_; exact writeBytes_kept_eq hs e
    · cases e_

theorem writeRing_kept_eq {s : State} {i : Nat} {t : Trace} {ps : List (Nat × List Byte)} {wr : Nat} {t_ : State} (hs : Kept cs_ s)
    (e_ : writeRing s i t ps wr = some t_) : Kept cs_ t_ := by
  unfold writeRing at e_
  split at e_
  · rename_i s1 e1
    have h1 : Kept cs_ s1 := foldl_opt_kept (fun u hu => by cases hu; exact hs)
      (fun o x ho v hv => bind_kept ho (fun u w hu hw => ringWrite_kept_eq hu hw) hv) e1
    split at e_
    · rename_i s2 e2; exact ringWrite_kept_eq (ringWrite_kept_eq h1 e2) e_
    · cases e_
  · cases e_

theorem drainNow_kept (s : State) (i : Nat) (hs : Kept cs_ s) : Kept cs_ (drainNow s i) := by
  unfold drainNow
  try extract_lets
  repeat'
    (first | with_reducible assumption | (with_reducible show Kept _ _; simp -iota -zeta only [memOk_mk, memsOk_mk])
            | (with_reducible show KeptParts _ _ _ _; simp -iota -zeta only [memsOk_mk]) | with_reducible apply memsOk_of
            | with_reducible apply cellsOk_of | with_reducible (refine ringRead_kept_eq ?_ (by with_reducible assumption))
            | with_reducible (refine writeRing_kept_eq ?_ (by with_reducible assumption)) | with_reducible apply setTrace_kept
            | with_reducible apply chargeTrace_kept | with_reducible apply stopTrace_kept | with_reducible apply finishWait_kept
            | (refine pair_eq1 ?_ (by with_reducible assumption)) | (refine pair_eq2 ?_ (by with_reducible assumption))
            | (refine ans_done_eq ?_ (by with_reducible assumption)) | (refine ans_wait_eq ?_ (by with_reducible assumption))
            | with_reducible apply ans_done | with_reducible apply ans_wait | with_reducible apply ans_held
            | with_reducible apply out_next | with_reducible intro _ | extract_lets | split | dsimp +zetaDelta -iota only)

theorem drainTrace_kept (s : State) (i : Nat) (hs : Kept cs_ s) : Kept cs_ (drainTrace s i) := by
  unfold drainTrace
  try extract_lets
  repeat'
    (first | with_reducible assumption | (with_reducible show Kept _ _; simp -iota -zeta only [memOk_mk])
           | with_reducible apply memsOk_of | with_reducible apply drainNow_kept | with_reducible intro _ | extract_lets | split
           | dsimp +zetaDelta -iota only)

theorem execTraceDrainBurst_kept (instance_ : Nat) (s : State) (hs : Kept cs_ s) : OutKept cs_ (execTraceDrainBurst instance_ s) := by
  unfold execTraceDrainBurst
  try extract_lets
  repeat'
    (first | with_reducible assumption | (with_reducible show Kept _ _; simp -iota -zeta only [memOk_mk])
           | with_reducible apply memsOk_of | with_reducible apply drainTrace_kept | with_reducible apply ans_done
           | with_reducible apply ans_wait | with_reducible apply out_next | with_reducible intro _ | extract_lets | split
           | dsimp +zetaDelta -iota only)

theorem execPcSample_kept (core : Nat) (s : State) (hs : Kept cs_ s) : OutKept cs_ (execPcSample core s) := by
  unfold execPcSample
  try extract_lets
  repeat'
    (first | with_reducible assumption | (with_reducible show Kept _ _; simp -iota -zeta only [memOk_mk, memsOk_mk])
            | (with_reducible show KeptParts _ _ _ _; simp -iota -zeta only [memsOk_mk]) | with_reducible apply memsOk_of
            | with_reducible apply cellsOk_of | with_reducible apply traceAt_kept | (refine pair_eq1 ?_ (by with_reducible assumption))
            | (refine pair_eq2 ?_ (by with_reducible assumption)) | (refine ans_done_eq ?_ (by with_reducible assumption))
            | (refine ans_wait_eq ?_ (by with_reducible assumption)) | with_reducible apply ans_done | with_reducible apply ans_wait
            | with_reducible apply ans_held | with_reducible apply out_next | with_reducible intro _ | extract_lets | split
            | dsimp +zetaDelta -iota only)

theorem execObsRangeSelect_kept (c : Cmd) (s : State) (hs : Kept cs_ s) : OutKept cs_ (execObsRangeSelect c s) := by
  unfold execObsRangeSelect
  try extract_lets
  repeat'
    (first | with_reducible assumption | (with_reducible show Kept _ _; simp -iota -zeta only [memOk_mk])
           | with_reducible apply memsOk_of | with_reducible apply firmware_kept | with_reducible apply checked_kept
           | with_reducible apply ans_done | with_reducible apply ans_wait | with_reducible apply out_next | with_reducible intro _
           | extract_lets | split | dsimp +zetaDelta -iota only)

theorem execObsRangeRead_kept (c : Cmd) (s : State) (hs : Kept cs_ s) : OutKept cs_ (execObsRangeRead c s) := by
  unfold execObsRangeRead
  try extract_lets
  repeat'
    (first | with_reducible assumption | (with_reducible show Kept _ _; simp -iota -zeta only [memOk_mk])
           | with_reducible apply memsOk_of | with_reducible apply firmware_kept | with_reducible apply checked_kept
           | with_reducible apply reportTo_kept | with_reducible apply ans_done | with_reducible apply ans_wait
           | with_reducible apply out_next | with_reducible intro _ | extract_lets | split | dsimp +zetaDelta -iota only)

theorem execObsWatchSet_kept (c : Cmd) (s : State) (hs : Kept cs_ s) : OutKept cs_ (execObsWatchSet c s) := by
  unfold execObsWatchSet
  try extract_lets
  repeat'
    (first | with_reducible assumption | (with_reducible show Kept _ _; simp -iota -zeta only [memOk_mk])
           | with_reducible apply memsOk_of | with_reducible apply firmware_kept | with_reducible apply checked_kept
           | with_reducible apply ans_done | with_reducible apply ans_wait | with_reducible apply out_next | with_reducible intro _
           | extract_lets | split | dsimp +zetaDelta -iota only)

theorem execObsDigest_kept (c : Cmd) (s : State) (hs : Kept cs_ s) : OutKept cs_ (execObsDigest c s) := by -- hand
  unfold execObsDigest
  refine out_next (firmware_kept _ _ _ _ (fun c s hs => checked_kept _ _ _ hs (unheld_kept _ _ ?_)) hs)
  generalize hx : digestTake s (p8 c 17) (p64 c 0) (p64 c 8) (p8 c 16) = x
  obtain ⟨st, b, s1⟩ := x
  have hk : Kept cs_ s1 := digestTake_kept_eq hs hx
  dsimp only
  split
  · exact ans_done hk
  · cases hw : hostWrite? s1 (p64 c 24) b with
    | none => exact ans_done hk
    | some s2 => exact ans_done (hostWrite?_kept_eq hk hw)

theorem execObsDigestArm_kept (c : Cmd) (s : State) (hs : Kept cs_ s) : OutKept cs_ (execObsDigestArm c s) := by
  unfold execObsDigestArm
  try extract_lets
  repeat'
    (first | with_reducible assumption | (with_reducible show Kept _ _; simp -iota -zeta only [memOk_mk])
           | with_reducible apply memsOk_of | with_reducible apply firmware_kept | with_reducible apply checked_kept
           | with_reducible (refine hostWrite?_kept_eq ?_ (by with_reducible assumption)) | with_reducible apply ans_done
           | with_reducible apply ans_wait | with_reducible apply out_next | with_reducible intro _ | extract_lets | split
           | dsimp +zetaDelta -iota only)

theorem stepOff_kept (s : State) (p : Nat) (hs : Kept cs_ s) : Kept cs_ (stepOff s p) := by
  unfold stepOff
  try extract_lets
  repeat'
    (first | with_reducible assumption | (with_reducible show Kept _ _; simp -iota -zeta only [memOk_mk])
           | with_reducible apply memsOk_of | with_reducible apply startNext_kept | with_reducible apply foldl_kept
           | with_reducible intro _ | extract_lets | split | dsimp +zetaDelta -iota only)

theorem execObsStepMode_kept (c : Cmd) (s : State) (hs : Kept cs_ s) : OutKept cs_ (execObsStepMode c s) := by
  unfold execObsStepMode
  try extract_lets
  repeat'
    (first | with_reducible assumption | (with_reducible show Kept _ _; simp -iota -zeta only [memOk_mk])
           | with_reducible apply memsOk_of | with_reducible apply firmware_kept | with_reducible apply checked_kept
           | with_reducible apply stepOff_kept | with_reducible apply ans_done | with_reducible apply ans_wait
           | with_reducible apply out_next | with_reducible intro _ | extract_lets | split | dsimp +zetaDelta -iota only)

theorem execObsStepNext_kept (c : Cmd) (s : State) (hs : Kept cs_ s) : OutKept cs_ (execObsStepNext c s) := by
  unfold execObsStepNext
  try extract_lets
  repeat'
    (first | with_reducible assumption | (with_reducible show Kept _ _; simp -iota -zeta only [memOk_mk])
           | with_reducible apply memsOk_of | with_reducible apply firmware_kept | with_reducible apply checked_kept
           | with_reducible apply startNext_kept | with_reducible apply setQueue_kept | with_reducible apply foldl_kept
           | with_reducible apply ans_done | with_reducible apply ans_wait | with_reducible apply out_next | with_reducible intro _
           | extract_lets | split | dsimp +zetaDelta -iota only)

theorem execStepLimitTimeout_kept (p : Nat) (q : Nat) (s : State) (hs : Kept cs_ s) : OutKept cs_ (execStepLimitTimeout p q s) := by
  unfold execStepLimitTimeout
  try extract_lets
  repeat'
    (first | with_reducible assumption | (with_reducible show Kept _ _; simp -iota -zeta only [memOk_mk])
           | with_reducible apply memsOk_of | with_reducible apply stepEvent_kept | with_reducible apply setQueue_kept
           | with_reducible apply ans_done | with_reducible apply ans_wait | with_reducible apply out_next | with_reducible intro _
           | extract_lets | split | dsimp +zetaDelta -iota only)

theorem execObsBlotterRead_kept (c : Cmd) (s : State) (hs : Kept cs_ s) : OutKept cs_ (execObsBlotterRead c s) := by
  unfold execObsBlotterRead
  try extract_lets
  repeat'
    (first | with_reducible assumption | (with_reducible show Kept _ _; simp -iota -zeta only [memOk_mk])
           | with_reducible apply memsOk_of | with_reducible apply firmware_kept | with_reducible apply checked_kept
           | with_reducible apply reportTo_kept | with_reducible apply ans_done | with_reducible apply ans_wait
           | with_reducible apply out_next | with_reducible intro _ | extract_lets | split | dsimp +zetaDelta -iota only)

theorem execObsFreeze_kept (c : Cmd) (s : State) (hs : Kept cs_ s) : OutKept cs_ (execObsFreeze c s) := by
  unfold execObsFreeze
  try extract_lets
  repeat'
    (first | with_reducible assumption | (with_reducible show Kept _ _; simp -iota -zeta only [memOk_mk])
           | with_reducible apply memsOk_of | with_reducible apply firmware_kept | with_reducible apply checked_kept
           | with_reducible apply freeze_kept | with_reducible apply thaw_kept | with_reducible apply ans_done
           | with_reducible apply ans_wait | with_reducible apply out_next | with_reducible intro _ | extract_lets | split
           | dsimp +zetaDelta -iota only)

end Sys2Proof.Machine
end

