-- ==== Sys2Proof/Laws/KeptStart.lean ====
section
/-! SUPPORT. Every definition of Machine/Start.lean keeps the queue of waiting commands and the canonical form of both memories. -/
namespace Sys2Proof.Machine
open Sys2Proof
set_option maxHeartbeats 400000
set_option linter.all false
variable {cs_ : List Instr}
theorem deviceReset_kept (s : State) (cold conf : Bool) (hs : Kept cs_ s) : Kept cs_ (deviceReset s cold conf) := by
  unfold deviceReset
  simp only [memOk_mk]
  exact ⟨hs.ok.queue, ⟨hs.ok.mems.ok⟩⟩

theorem bootUpdate_kept (s : State) (f : Boot → Boot) (hs : Kept cs_ s) : Kept cs_ (bootUpdate s f) := by
  unfold bootUpdate
  try extract_lets
  repeat'
    (first | with_reducible assumption | (with_reducible show Kept _ _; simp -iota -zeta only [memOk_mk])
           | with_reducible apply memsOk_of | with_reducible intro _ | extract_lets | split | dsimp +zetaDelta -iota only)

theorem openFault_kept (s : State) (reason : Nat) (hs : Kept cs_ s) : Kept cs_ (openFault s reason) := by
  unfold openFault
  try extract_lets
  repeat'
    (first | with_reducible assumption | (with_reducible show Kept _ _; simp -iota -zeta only [memOk_mk])
           | with_reducible apply memsOk_of | with_reducible apply freeWord_kept
           | with_reducible (refine freeWord_kept_eq ?_ (by with_reducible assumption)) | with_reducible apply setFault_kept
           | with_reducible apply foldl_kept | with_reducible intro _ | extract_lets | split | dsimp +zetaDelta -iota only)

theorem faultAll_kept (s : State) (reason : Nat) (detail : Nat) (hs : Kept cs_ s) : Kept cs_ (faultAll s reason detail) := by
  unfold faultAll
  try extract_lets
  repeat'
    (first | with_reducible assumption | (with_reducible show Kept _ _; simp -iota -zeta only [memOk_mk])
           | with_reducible apply memsOk_of | with_reducible apply setFault_kept | with_reducible apply foldl_kept
           | with_reducible intro _ | extract_lets | split | dsimp +zetaDelta -iota only)

theorem enterMinimal_kept (s : State) (hs : Kept cs_ s) : Kept cs_ (enterMinimal s) := by
  unfold enterMinimal
  try extract_lets
  repeat'
    (first | with_reducible assumption | (with_reducible show Kept _ _; simp -iota -zeta only [memOk_mk, memsOk_mk])
            | (with_reducible show KeptParts _ _ _ _; simp -iota -zeta only [memsOk_mk]) | with_reducible apply memsOk_of
            | with_reducible apply cellsOk_of | with_reducible apply setState_kept | (refine pair_eq1 ?_ (by with_reducible assumption))
            | (refine pair_eq2 ?_ (by with_reducible assumption)) | (refine ans_done_eq ?_ (by with_reducible assumption))
            | (refine ans_wait_eq ?_ (by with_reducible assumption)) | with_reducible apply ans_done | with_reducible apply ans_wait
            | with_reducible apply ans_held | with_reducible apply out_next | with_reducible intro _ | extract_lets | split
            | dsimp +zetaDelta -iota only)

theorem beginAttempt_kept (s0 : State) (hs0 : Kept cs_ s0) : Kept cs_ (beginAttempt s0) := by
  unfold beginAttempt
  try extract_lets
  repeat'
    (first | with_reducible assumption | (with_reducible show Kept _ _; simp -iota -zeta only [memOk_mk, memsOk_mk])
            | (with_reducible show KeptParts _ _ _ _; simp -iota -zeta only [memsOk_mk]) | with_reducible apply memsOk_of
            | with_reducible apply cellsOk_of | with_reducible apply enterMinimal_kept | with_reducible apply bootUpdate_kept
            | (refine pair_eq1 ?_ (by with_reducible assumption)) | (refine pair_eq2 ?_ (by with_reducible assumption))
            | (refine ans_done_eq ?_ (by with_reducible assumption)) | (refine ans_wait_eq ?_ (by with_reducible assumption))
            | with_reducible apply ans_done | with_reducible apply ans_wait | with_reducible apply ans_held
            | with_reducible apply out_next | with_reducible intro _ | extract_lets | split | dsimp +zetaDelta -iota only)

theorem restart_kept (s : State) (reset : State → State) (after : State → State) (hs : Kept cs_ s) (hreset : ∀ (y0
    : State), Kept cs_ y0 → Kept cs_ (reset y0)) (hafter : ∀ (y0 : State), Kept cs_ y0 → Kept cs_ (after y0)) : Kept cs_
    (restart s reset after) := by
  unfold restart
  try extract_lets
  repeat'
    (first | with_reducible assumption | (with_reducible show Kept _ _; simp -iota -zeta only [memOk_mk])
           | with_reducible apply memsOk_of | with_reducible apply beginAttempt_kept | with_reducible apply setState_kept
           | with_reducible apply hreset | with_reducible apply hafter | with_reducible intro _ | extract_lets | split
           | dsimp +zetaDelta -iota only)

theorem acceptedWrites_kept (s : State) (hs : Kept cs_ s) : Kept cs_ (acceptedWrites s) := by
  unfold acceptedWrites
  repeat'
    (first | with_reducible assumption | with_reducible apply foldl_kept | with_reducible apply setChan_kept
           | with_reducible apply accessNow_kept | with_reducible intro _ | split)

theorem warmReset_kept (s : State) (conf : Bool) (fastKind : Bool) (hs : Kept cs_ s) : Kept cs_ (warmReset s conf fastKind) := by
  unfold warmReset
  try extract_lets
  repeat'
    (first | with_reducible assumption | (with_reducible show Kept _ _; simp -iota -zeta only [memOk_mk])
           | with_reducible apply memsOk_of | with_reducible apply restart_kept | with_reducible apply deviceReset_kept
           | with_reducible apply acceptedWrites_kept
           | with_reducible intro _ | extract_lets | split | dsimp +zetaDelta -iota only)

theorem failReset_kept (s : State) (hs : Kept cs_ s) : Kept cs_ (failReset s) := by
  unfold failReset
  try extract_lets
  repeat'
    (first | with_reducible assumption | (with_reducible show Kept _ _; simp -iota -zeta only [memOk_mk, memsOk_mk])
            | (with_reducible show KeptParts _ _ _ _; simp -iota -zeta only [memsOk_mk]) | with_reducible apply memsOk_of
            | with_reducible apply cellsOk_of | with_reducible apply deviceReset_kept
            | (refine pair_eq1 ?_ (by with_reducible assumption)) | (refine pair_eq2 ?_ (by with_reducible assumption))
            | (refine ans_done_eq ?_ (by with_reducible assumption)) | (refine ans_wait_eq ?_ (by with_reducible assumption))
            | with_reducible apply ans_done | with_reducible apply ans_wait | with_reducible apply ans_held
            | with_reducible apply out_next | with_reducible intro _ | extract_lets | split | dsimp +zetaDelta -iota only)

theorem recordFailure_kept (s : State) (status : Nat) (unit : Nat) (hs : Kept cs_ s) : Kept cs_ (recordFailure s status unit) := by
  unfold recordFailure
  try extract_lets
  repeat'
    (first | with_reducible assumption | (with_reducible show Kept _ _; simp -iota -zeta only [memOk_mk])
           | with_reducible apply memsOk_of | with_reducible apply bootUpdate_kept | with_reducible intro _ | extract_lets | split
           | dsimp +zetaDelta -iota only)

theorem failStart_kept (s : State) (status : Nat) (unit : Nat) (hs : Kept cs_ s) : Kept cs_ (failStart s status unit) := by
  unfold failStart
  try extract_lets
  repeat'
    (first | with_reducible assumption | (with_reducible show Kept _ _; simp -iota -zeta only [memOk_mk])
           | with_reducible apply memsOk_of | with_reducible apply restart_kept | with_reducible apply recordFailure_kept
           | with_reducible apply failReset_kept | with_reducible apply faultAll_kept | with_reducible intro _ | extract_lets | split
           | dsimp +zetaDelta -iota only)

theorem imageVerified_kept (s : State) (sigA : Bool) (sigB : Bool) (hs : Kept cs_ s) : Kept cs_ (imageVerified s sigA sigB) := by
  unfold imageVerified
  try extract_lets
  repeat'
    (first | with_reducible assumption | (with_reducible show Kept _ _; simp -iota -zeta only [memOk_mk])
           | with_reducible apply memsOk_of | with_reducible apply setState_kept | with_reducible apply bootUpdate_kept
           | with_reducible apply enterMinimal_kept | with_reducible apply faultAll_kept | with_reducible apply recordFailure_kept
           | with_reducible intro _ | extract_lets | split | dsimp +zetaDelta -iota only)

theorem execImageVerified_kept (sigA : Bool) (sigB : Bool) (s : State) (hs : Kept cs_ s) : OutKept cs_ (execImageVerified sigA sigB s) := by
  unfold execImageVerified
  try extract_lets
  repeat'
    (first | with_reducible assumption | (with_reducible show Kept _ _; simp -iota -zeta only [memOk_mk])
           | with_reducible apply memsOk_of | with_reducible apply imageVerified_kept | with_reducible apply ans_done
           | with_reducible apply ans_wait | with_reducible apply out_next | with_reducible intro _ | extract_lets | split
           | dsimp +zetaDelta -iota only)

theorem degradeSection_kept (s : State) (id : Nat) (hs : Kept cs_ s) : Kept cs_ (degradeSection s id) := by
  unfold degradeSection
  try extract_lets
  repeat'
    (first | with_reducible assumption | (with_reducible show Kept _ _; simp -iota -zeta only [memOk_mk])
           | with_reducible apply memsOk_of | with_reducible apply writeStore_kept | with_reducible apply post_kept
           | with_reducible apply openFault_kept | with_reducible intro _ | extract_lets | split | dsimp +zetaDelta -iota only)

theorem applySettings_kept (s : State) (hs : Kept cs_ s) : Kept cs_ (applySettings s) := by
  unfold applySettings
  try extract_lets
  repeat'
    (first | with_reducible assumption | (with_reducible show Kept _ _; simp -iota -zeta only [memOk_mk])
           | with_reducible apply memsOk_of | with_reducible apply getD_kept | with_reducible intro _ | extract_lets | split
           | dsimp +zetaDelta -iota only)

theorem loadingEnds_kept (s : State) (hs : Kept cs_ s) : Kept cs_ (loadingEnds s) := by
  unfold loadingEnds
  try extract_lets
  repeat'
    (first | with_reducible assumption | (with_reducible show Kept _ _; simp -iota -zeta only [memOk_mk, memsOk_mk])
            | (with_reducible show KeptParts _ _ _ _; simp -iota -zeta only [memsOk_mk]) | with_reducible apply memsOk_of
            | with_reducible apply cellsOk_of | with_reducible apply failStart_kept | with_reducible apply applySettings_kept
            | with_reducible apply degradeSection_kept | with_reducible apply setState_kept | with_reducible apply foldl_kept
            | with_reducible apply foldl_snd2_kept | with_reducible apply foldl_fst_kept | with_reducible apply foldl_snd_kept
            | (refine pair_eq1 ?_ (by with_reducible assumption)) | (refine pair_eq2 ?_ (by with_reducible assumption))
            | (refine ans_done_eq ?_ (by with_reducible assumption)) | (refine ans_wait_eq ?_ (by with_reducible assumption))
            | with_reducible apply ans_done | with_reducible apply ans_wait | with_reducible apply ans_held
            | with_reducible apply out_next | with_reducible intro _ | extract_lets | split | dsimp +zetaDelta -iota only)

theorem bridgeEnds_kept (s : State) (r : StageReport) (hs : Kept cs_ s) : Kept cs_ (bridgeEnds s r) := by
  unfold bridgeEnds
  try extract_lets
  repeat'
    (first | with_reducible assumption | (with_reducible show Kept _ _; simp -iota -zeta only [memOk_mk])
           | with_reducible apply memsOk_of | with_reducible intro _ | extract_lets | split | dsimp +zetaDelta -iota only)

theorem trainingEnds_kept (s : State) (r : StageReport) (hs : Kept cs_ s) : Kept cs_ (trainingEnds s r) := by
  unfold trainingEnds
  try extract_lets
  repeat'
    (first | with_reducible assumption | (with_reducible show Kept _ _; simp -iota -zeta only [memOk_mk, memsOk_mk])
            | (with_reducible show KeptParts _ _ _ _; simp -iota -zeta only [memsOk_mk]) | with_reducible apply memsOk_of
            | with_reducible apply cellsOk_of | (refine pair_eq1 ?_ (by with_reducible assumption))
            | (refine pair_eq2 ?_ (by with_reducible assumption)) | (refine ans_done_eq ?_ (by with_reducible assumption))
            | (refine ans_wait_eq ?_ (by with_reducible assumption)) | with_reducible apply ans_done | with_reducible apply ans_wait
            | with_reducible apply ans_held | with_reducible apply out_next | with_reducible intro _ | extract_lets | split
            | dsimp +zetaDelta -iota only)

theorem testEnds_kept (s : State) (r : StageReport) (hs : Kept cs_ s) : Kept cs_ (testEnds s r) := by
  unfold testEnds
  simp only [memOk_mk, memsOk_mk]
  exact ⟨hs.ok.queue, rfl, hs.ok.mems.ok.host⟩

theorem postPopulation_kept (s : State) (t : Tier) (u : Nat) (hs : Kept cs_ s) : Kept cs_ (postPopulation s t u) := by
  unfold postPopulation
  try extract_lets
  repeat'
    (first | with_reducible assumption | (with_reducible show Kept _ _; simp -iota -zeta only [memOk_mk])
           | with_reducible apply memsOk_of | with_reducible apply post_kept | with_reducible intro _ | extract_lets | split
           | dsimp +zetaDelta -iota only)

theorem withSpares_kept (s : State) (hs : Kept cs_ s) : Kept cs_ (withSpares s) := by
  unfold withSpares
  try extract_lets
  repeat'
    (first | with_reducible assumption | (with_reducible show Kept _ _; simp -iota -zeta only [memOk_mk])
           | with_reducible apply memsOk_of | with_reducible apply setChan_kept | with_reducible apply foldl_kept
           | with_reducible intro _ | extract_lets | split | dsimp +zetaDelta -iota only)

theorem startLinks_kept (s : State) (hs : Kept cs_ s) : Kept cs_ (startLinks s) := by
  unfold startLinks
  try extract_lets
  repeat'
    (first | with_reducible assumption | (with_reducible show Kept _ _; simp -iota -zeta only [memOk_mk])
           | with_reducible apply memsOk_of | with_reducible apply disable_kept | with_reducible apply trainStart_kept
           | with_reducible apply foldl_kept | with_reducible intro _ | extract_lets | split | dsimp +zetaDelta -iota only)

theorem mapsEnd_kept (s : State) (hs : Kept cs_ s) : Kept cs_ (mapsEnd s) := by
  unfold mapsEnd
  try extract_lets
  repeat'
    (first | with_reducible assumption | (with_reducible show Kept _ _; simp -iota -zeta only [memOk_mk, memsOk_mk])
            | (with_reducible show KeptParts _ _ _ _; simp -iota -zeta only [memsOk_mk]) | with_reducible apply memsOk_of
            | with_reducible apply cellsOk_of | with_reducible apply withSpares_kept | with_reducible apply storeDefect_kept
            | with_reducible apply postPopulation_kept | with_reducible apply startLinks_kept | with_reducible apply foldl_kept
            | with_reducible apply foldl_snd2_kept | with_reducible apply foldl_fst_kept | with_reducible apply foldl_snd_kept
            | (refine pair_eq1 ?_ (by with_reducible assumption)) | (refine pair_eq2 ?_ (by with_reducible assumption))
            | (refine ans_done_eq ?_ (by with_reducible assumption)) | (refine ans_wait_eq ?_ (by with_reducible assumption))
            | with_reducible apply ans_done | with_reducible apply ans_wait | with_reducible apply ans_held
            | with_reducible apply out_next | with_reducible intro _ | extract_lets | split | dsimp +zetaDelta -iota only)

theorem linksEnd_kept (s : State) (r : StageReport) (hs : Kept cs_ s) : Kept cs_ (linksEnd s r) := by
  unfold linksEnd
  try extract_lets
  repeat'
    (first | with_reducible assumption | (with_reducible show Kept _ _; simp -iota -zeta only [memOk_mk])
           | with_reducible apply memsOk_of | with_reducible apply disable_kept | with_reducible apply foldl_kept
           | with_reducible intro _ | extract_lets | split | dsimp +zetaDelta -iota only)

theorem linksTimeout_kept (s : State) (hs : Kept cs_ s) : Kept cs_ (linksTimeout s) := by
  unfold linksTimeout
  try extract_lets
  repeat'
    (first | with_reducible assumption | (with_reducible show Kept _ _; simp -iota -zeta only [memOk_mk])
           | with_reducible apply memsOk_of | with_reducible apply disable_kept | with_reducible apply foldl_kept
           | with_reducible intro _ | extract_lets | split | dsimp +zetaDelta -iota only)

theorem buildCores_kept (s : State) (r : StageReport) (hs : Kept cs_ s) : Kept cs_ (buildCores s r) := by
  unfold buildCores
  try extract_lets
  repeat'
    (first | with_reducible assumption | (with_reducible show Kept _ _; simp -iota -zeta only [memOk_mk])
           | with_reducible apply memsOk_of | with_reducible apply storeDefect_kept | with_reducible intro _ | extract_lets | split
           | dsimp +zetaDelta -iota only)

theorem bootDone_kept (s : State) (inService : Bool) (hs : Kept cs_ s) : Kept cs_ (bootDone s inService) := by
  unfold bootDone
  try extract_lets
  repeat'
    (first | with_reducible assumption | (with_reducible show Kept _ _; simp -iota -zeta only [memOk_mk])
           | with_reducible apply memsOk_of | with_reducible apply bootUpdate_kept | with_reducible intro _ | extract_lets | split
           | dsimp +zetaDelta -iota only)

theorem startEnds_kept (s0 : State) (r : StageReport) (hs0 : Kept cs_ s0) : Kept cs_ (startEnds s0 r) := by
  unfold startEnds
  try extract_lets
  repeat'
    (first | with_reducible assumption | (with_reducible show Kept _ _; simp -iota -zeta only [memOk_mk])
           | with_reducible apply memsOk_of | with_reducible apply buildCores_kept | with_reducible apply bootDone_kept
           | with_reducible apply openFault_kept | with_reducible apply post_kept | with_reducible apply setState_kept
           | with_reducible apply getD_kept | with_reducible intro _ | extract_lets | split | dsimp +zetaDelta -iota only)

theorem addDuration_kept (s : State) (hs : Kept cs_ s) : Kept cs_ (addDuration s) := by
  unfold addDuration
  try extract_lets
  repeat'
    (first | with_reducible assumption | (with_reducible show Kept _ _; simp -iota -zeta only [memOk_mk, memsOk_mk])
            | (with_reducible show KeptParts _ _ _ _; simp -iota -zeta only [memsOk_mk]) | with_reducible apply memsOk_of
            | with_reducible apply cellsOk_of | with_reducible apply getD_kept | (refine pair_eq1 ?_ (by with_reducible assumption))
            | (refine pair_eq2 ?_ (by with_reducible assumption)) | (refine ans_done_eq ?_ (by with_reducible assumption))
            | (refine ans_wait_eq ?_ (by with_reducible assumption)) | with_reducible apply ans_done | with_reducible apply ans_wait
            | with_reducible apply ans_held | with_reducible apply out_next | with_reducible intro _ | extract_lets | split
            | dsimp +zetaDelta -iota only)

theorem execBringupStageEnd_kept (r : StageReport) (s : State) (hs : Kept cs_ s) : OutKept cs_ (execBringupStageEnd r s) := by
  unfold execBringupStageEnd
  try extract_lets
  repeat'
    (first | with_reducible assumption | (with_reducible show Kept _ _; simp -iota -zeta only [memOk_mk])
           | with_reducible apply memsOk_of | with_reducible apply loadingEnds_kept | with_reducible apply addDuration_kept
           | with_reducible apply bridgeEnds_kept | with_reducible apply trainingEnds_kept | with_reducible apply testEnds_kept
           | with_reducible apply mapsEnd_kept | with_reducible apply linksEnd_kept | with_reducible apply startEnds_kept
           | with_reducible apply ans_done | with_reducible apply ans_wait | with_reducible apply out_next | with_reducible intro _
           | extract_lets | split | dsimp +zetaDelta -iota only)

theorem execStageTimeout_kept (s : State) (hs : Kept cs_ s) : OutKept cs_ (execStageTimeout s) := by
  unfold execStageTimeout
  try extract_lets
  repeat'
    (first | with_reducible assumption | (with_reducible show Kept _ _; simp -iota -zeta only [memOk_mk, memsOk_mk])
            | (with_reducible show KeptParts _ _ _ _; simp -iota -zeta only [memsOk_mk]) | with_reducible apply memsOk_of
            | with_reducible apply cellsOk_of | with_reducible apply linksTimeout_kept | with_reducible apply failStart_kept
            | (refine pair_eq1 ?_ (by with_reducible assumption)) | (refine pair_eq2 ?_ (by with_reducible assumption))
            | (refine ans_done_eq ?_ (by with_reducible assumption)) | (refine ans_wait_eq ?_ (by with_reducible assumption))
            | with_reducible apply ans_done | with_reducible apply ans_wait | with_reducible apply ans_held
            | with_reducible apply out_next | with_reducible intro _ | extract_lets | split | dsimp +zetaDelta -iota only)

end Sys2Proof.Machine
end

