-- ==== Sys2Proof/Laws/KeptPower.lean ====
section
/-! SUPPORT. Every definition of Machine/Power.lean keeps the queue of waiting commands and the canonical form of both memories. -/
namespace Sys2Proof.Machine
open Sys2Proof
set_option maxHeartbeats 400000
set_option linter.all false
variable {cs_ : List Instr}
theorem holdReset_kept (s : State) (domains : BitVec 16) (hs : Kept cs_ s) : Kept cs_ (holdReset s domains) := by
  unfold holdReset
  try extract_lets
  repeat'
    (first | with_reducible assumption | (with_reducible show Kept _ _; simp -iota -zeta only [memOk_mk])
           | with_reducible apply memsOk_of | with_reducible apply deviceReset_kept | with_reducible intro _ | extract_lets | split
           | dsimp +zetaDelta -iota only)

theorem execAonResetNAssert_kept (s : State) (hs : Kept cs_ s) : OutKept cs_ (execAonResetNAssert s) := by
  unfold execAonResetNAssert
  try extract_lets
  repeat'
    (first | with_reducible assumption | (with_reducible show Kept _ _; simp -iota -zeta only [memOk_mk])
           | with_reducible apply memsOk_of | with_reducible apply holdReset_kept | with_reducible apply ans_done
           | with_reducible apply ans_wait | with_reducible apply out_next | with_reducible intro _ | extract_lets | split
           | dsimp +zetaDelta -iota only)

theorem coldStart_kept (s : State) (straps : BitVec 4) (hs : Kept cs_ s) : Kept cs_ (coldStart s straps) := by
  unfold coldStart
  try extract_lets
  repeat'
    (first | with_reducible assumption | (with_reducible show Kept _ _; simp -iota -zeta only [memOk_mk])
           | with_reducible apply memsOk_of | with_reducible apply deviceReset_kept | with_reducible apply beginAttempt_kept
           | with_reducible intro _ | extract_lets | split | dsimp +zetaDelta -iota only)

theorem execAonResetNRelease_kept (straps : BitVec 4) (s : State) (hs : Kept cs_ s) : OutKept cs_ (execAonResetNRelease straps s) := by
  unfold execAonResetNRelease
  try extract_lets
  repeat'
    (first | with_reducible assumption | (with_reducible show Kept _ _; simp -iota -zeta only [memOk_mk])
           | with_reducible apply memsOk_of | with_reducible apply coldStart_kept | with_reducible apply ans_done
           | with_reducible apply ans_wait | with_reducible apply out_next | with_reducible intro _ | extract_lets | split
           | dsimp +zetaDelta -iota only)

theorem execPerstNFall_kept (s : State) (hs : Kept cs_ s) : OutKept cs_ (execPerstNFall s) := by
  unfold execPerstNFall
  try extract_lets
  repeat'
    (first | with_reducible assumption | (with_reducible show Kept _ _; simp -iota -zeta only [memOk_mk])
           | with_reducible apply memsOk_of | with_reducible apply warmReset_kept | with_reducible apply ans_done
           | with_reducible apply ans_wait | with_reducible apply out_next | with_reducible intro _ | extract_lets | split
           | dsimp +zetaDelta -iota only)

theorem execPerstNRelease_kept (s : State) (hs : Kept cs_ s) : OutKept cs_ (execPerstNRelease s) := by
  unfold execPerstNRelease
  try extract_lets
  repeat'
    (first | with_reducible assumption | (with_reducible show Kept _ _; simp -iota -zeta only [memOk_mk])
           | with_reducible apply memsOk_of | with_reducible apply ans_done | with_reducible apply ans_wait
           | with_reducible apply out_next | with_reducible intro _ | extract_lets | split | dsimp +zetaDelta -iota only)

theorem execConventionalReset_kept (s : State) (hs : Kept cs_ s) : OutKept cs_ (execConventionalReset s) := by
  unfold execConventionalReset
  try extract_lets
  repeat'
    (first | with_reducible assumption | (with_reducible show Kept _ _; simp -iota -zeta only [memOk_mk])
           | with_reducible apply memsOk_of | with_reducible apply warmReset_kept | with_reducible apply ans_done
           | with_reducible apply ans_wait | with_reducible apply out_next | with_reducible intro _ | extract_lets | split
           | dsimp +zetaDelta -iota only)

theorem execSupplyLoss_kept (s : State) (hs : Kept cs_ s) : OutKept cs_ (execSupplyLoss s) := by
  unfold execSupplyLoss
  try extract_lets
  repeat'
    (first | with_reducible assumption | (with_reducible show Kept _ _; simp -iota -zeta only [memOk_mk])
           | with_reducible apply memsOk_of | with_reducible apply holdReset_kept | with_reducible apply ans_done
           | with_reducible apply ans_wait | with_reducible apply out_next | with_reducible intro _ | extract_lets | split
           | dsimp +zetaDelta -iota only)

theorem execDomainPowerTimeout_kept (domain : Nat) (s : State) (hs : Kept cs_ s) : OutKept cs_ (execDomainPowerTimeout domain s) := by
  unfold execDomainPowerTimeout
  try extract_lets
  repeat'
    (first | with_reducible assumption | (with_reducible show Kept _ _; simp -iota -zeta only [memOk_mk, memsOk_mk])
            | (with_reducible show KeptParts _ _ _ _; simp -iota -zeta only [memsOk_mk]) | with_reducible apply memsOk_of
            | with_reducible apply cellsOk_of | (refine pair_eq1 ?_ (by with_reducible assumption))
            | (refine pair_eq2 ?_ (by with_reducible assumption)) | (refine ans_done_eq ?_ (by with_reducible assumption))
            | (refine ans_wait_eq ?_ (by with_reducible assumption)) | with_reducible apply ans_done | with_reducible apply ans_wait
            | with_reducible apply ans_held | with_reducible apply out_next | with_reducible intro _ | extract_lets | split
            | dsimp +zetaDelta -iota only)

theorem failLost_kept (s : State) (hs : Kept cs_ s) : Kept cs_ (failLost s) := by
  unfold failLost
  try extract_lets
  repeat'
    (first | with_reducible assumption | (with_reducible show Kept _ _; simp -iota -zeta only [memOk_mk, memsOk_mk])
            | (with_reducible show KeptParts _ _ _ _; simp -iota -zeta only [memsOk_mk]) | with_reducible apply memsOk_of
            | with_reducible apply cellsOk_of | with_reducible apply foldl_kept | with_reducible apply failChannel_kept
            | with_reducible apply foldl_kept | with_reducible apply foldl_snd2_kept | with_reducible apply foldl_fst_kept
            | with_reducible apply foldl_snd_kept | (refine pair_eq1 ?_ (by with_reducible assumption))
            | (refine pair_eq2 ?_ (by with_reducible assumption)) | (refine ans_done_eq ?_ (by with_reducible assumption))
            | (refine ans_wait_eq ?_ (by with_reducible assumption)) | with_reducible apply ans_done | with_reducible apply ans_wait
            | with_reducible apply ans_held | with_reducible apply out_next | with_reducible intro _ | extract_lets | split
            | dsimp +zetaDelta -iota only)

theorem enterFaulted_kept (s : State) (cause : Nat) (hs : Kept cs_ s) : Kept cs_ (enterFaulted s cause) := by
  unfold enterFaulted
  try extract_lets
  repeat'
    (first | with_reducible assumption | (with_reducible show Kept _ _; simp -iota -zeta only [memOk_mk])
           | with_reducible apply memsOk_of | with_reducible apply openFault_kept | with_reducible apply freeze_kept
           | with_reducible apply setState_kept | with_reducible intro _ | extract_lets | split | dsimp +zetaDelta -iota only)

theorem execEnterFaulted_kept (s : State) (hs : Kept cs_ s) : OutKept cs_ (execEnterFaulted s) := by
  unfold execEnterFaulted
  try extract_lets
  repeat'
    (first | with_reducible assumption | (with_reducible show Kept _ _; simp -iota -zeta only [memOk_mk])
           | with_reducible apply memsOk_of | with_reducible apply enterFaulted_kept | with_reducible apply ans_done
           | with_reducible apply ans_wait | with_reducible apply out_next | with_reducible intro _ | extract_lets | split
           | dsimp +zetaDelta -iota only)

theorem execScribeWatchdog_kept (s : State) (hs : Kept cs_ s) : OutKept cs_ (execScribeWatchdog s) := by
  unfold execScribeWatchdog
  try extract_lets
  repeat'
    (first | with_reducible assumption | (with_reducible show Kept _ _; simp -iota -zeta only [memOk_mk])
           | with_reducible apply memsOk_of | with_reducible apply failStart_kept | with_reducible apply enterFaulted_kept
           | with_reducible apply ans_done | with_reducible apply ans_wait | with_reducible apply out_next | with_reducible intro _
           | extract_lets | split | dsimp +zetaDelta -iota only)

theorem setClock_kept (s : State) (p : Power) (hs : Kept cs_ s) : Kept cs_ (setClock s p) := by
  unfold setClock
  try extract_lets
  repeat'
    (first | with_reducible assumption | (with_reducible show Kept _ _; simp -iota -zeta only [memOk_mk])
           | with_reducible apply memsOk_of | with_reducible apply post_kept | with_reducible intro _ | extract_lets | split
           | dsimp +zetaDelta -iota only)

theorem powerSample_kept (s : State) (watts : Nat) (hs : Kept cs_ s) : Kept cs_ (powerSample s watts) := by
  unfold powerSample
  try extract_lets
  repeat'
    (first | with_reducible assumption | (with_reducible show Kept _ _; simp -iota -zeta only [memOk_mk])
           | with_reducible apply memsOk_of | with_reducible apply setClock_kept | with_reducible intro _ | extract_lets | split
           | dsimp +zetaDelta -iota only)

theorem execPowerSample_kept (watts : Nat) (s : State) (hs : Kept cs_ s) : OutKept cs_ (execPowerSample watts s) := by
  unfold execPowerSample
  try extract_lets
  repeat'
    (first | with_reducible assumption | (with_reducible show Kept _ _; simp -iota -zeta only [memOk_mk])
           | with_reducible apply memsOk_of | with_reducible apply powerSample_kept | with_reducible apply ans_done
           | with_reducible apply ans_wait | with_reducible apply out_next | with_reducible intro _ | extract_lets | split
           | dsimp +zetaDelta -iota only)

theorem junctionSample_kept (s : State) (c : Nat) (hs : Kept cs_ s) : Kept cs_ (junctionSample s c) := by
  unfold junctionSample
  try extract_lets
  repeat'
    (first | with_reducible assumption | (with_reducible show Kept _ _; simp -iota -zeta only [memOk_mk, memsOk_mk])
            | (with_reducible show KeptParts _ _ _ _; simp -iota -zeta only [memsOk_mk]) | with_reducible apply memsOk_of
            | with_reducible apply cellsOk_of | with_reducible apply holdReset_kept | with_reducible apply setClock_kept
            | (refine pair_eq1 ?_ (by with_reducible assumption)) | (refine pair_eq2 ?_ (by with_reducible assumption))
            | (refine ans_done_eq ?_ (by with_reducible assumption)) | (refine ans_wait_eq ?_ (by with_reducible assumption))
            | with_reducible apply ans_done | with_reducible apply ans_wait | with_reducible apply ans_held
            | with_reducible apply out_next | with_reducible intro _ | extract_lets | split | dsimp +zetaDelta -iota only)

theorem execJunctionSample_kept (maxC : Nat) (s : State) (hs : Kept cs_ s) : OutKept cs_ (execJunctionSample maxC s) := by
  unfold execJunctionSample
  try extract_lets
  repeat'
    (first | with_reducible assumption | (with_reducible show Kept _ _; simp -iota -zeta only [memOk_mk])
           | with_reducible apply memsOk_of | with_reducible apply junctionSample_kept | with_reducible apply ans_done
           | with_reducible apply ans_wait | with_reducible apply out_next | with_reducible intro _ | extract_lets | split
           | dsimp +zetaDelta -iota only)

theorem stopCore_kept (s : State) (n : Nat) (hs : Kept cs_ s) : Kept cs_ (stopCore s n) := by
  unfold stopCore
  try extract_lets
  repeat'
    (first | with_reducible assumption | (with_reducible show Kept _ _; simp -iota -zeta only [memOk_mk])
           | with_reducible apply memsOk_of | with_reducible apply freeWord_kept
           | with_reducible (refine freeWord_kept_eq ?_ (by with_reducible assumption)) | with_reducible apply spoilStores_kept
           | with_reducible apply logCoreFault_kept | with_reducible apply setCore_kept | with_reducible apply getD_kept
           | with_reducible intro _ | extract_lets | split | dsimp +zetaDelta -iota only)

theorem endTallyWaits_kept (s : State) (quads : List Nat) (hs : Kept cs_ s) : Kept cs_ (endTallyWaits s quads) := by
  unfold endTallyWaits
  try extract_lets
  repeat'
    (first | with_reducible assumption | (with_reducible show Kept _ _; simp -iota -zeta only [memOk_mk])
           | with_reducible apply memsOk_of | with_reducible apply endQueueWait_kept | with_reducible apply coreFault_kept
           | with_reducible apply foldl_kept | with_reducible intro _ | extract_lets | split | dsimp +zetaDelta -iota only)

theorem beginCompute_kept (s : State) (p : Nat) (hs : Kept cs_ s) : Kept cs_ (beginCompute s p) := by
  unfold beginCompute
  try extract_lets
  repeat'
    (first | with_reducible assumption | (with_reducible show Kept _ _; simp -iota -zeta only [memOk_mk, memsOk_mk])
            | (with_reducible show KeptParts _ _ _ _; simp -iota -zeta only [memsOk_mk]) | with_reducible apply memsOk_of
            | with_reducible apply cellsOk_of | with_reducible apply endTallyWaits_kept | with_reducible apply foldl_kept
            | with_reducible apply stopCore_kept | with_reducible apply resetQueue_kept | with_reducible apply discardStep_kept
            | with_reducible apply setCore_kept | with_reducible apply foldl_kept | with_reducible apply foldl_snd2_kept
            | with_reducible apply foldl_fst_kept | with_reducible apply foldl_snd_kept
            | (refine pair_eq1 ?_ (by with_reducible assumption)) | (refine pair_eq2 ?_ (by with_reducible assumption))
            | (refine ans_done_eq ?_ (by with_reducible assumption)) | (refine ans_wait_eq ?_ (by with_reducible assumption))
            | with_reducible apply ans_done | with_reducible apply ans_wait | with_reducible apply ans_held
            | with_reducible apply out_next | with_reducible intro _ | extract_lets | split | dsimp +zetaDelta -iota only)

theorem replaceCore_kept (acc : State × Nat × Nat) (phys : Nat) (hacc : Kept cs_ acc.1) : Kept cs_ (replaceCore acc phys).1 := by
  unfold replaceCore
  try extract_lets
  repeat'
    (first | with_reducible assumption | (with_reducible show Kept _ _; simp -iota -zeta only [memOk_mk])
           | with_reducible apply memsOk_of | with_reducible intro _ | extract_lets | split | dsimp +zetaDelta -iota only)
theorem replaceCore_kept_eq {acc : State × Nat × Nat} {phys : Nat} {r1 : Nat} {r2 : Nat} {t_ : State} (hacc : Kept cs_ acc.1) (e_
    : replaceCore acc phys = (t_, r1, r2)) : Kept cs_ t_ := by
  have := replaceCore_kept acc phys hacc
  rwa [e_] at this

theorem freshCore_kept (s : State) (n : Nat) (hs : Kept cs_ s) : Kept cs_ (freshCore s n) := by
  unfold freshCore
  try extract_lets
  repeat'
    (first | with_reducible assumption | (with_reducible show Kept _ _; simp -iota -zeta only [memOk_mk])
           | with_reducible apply memsOk_of | with_reducible apply setCore_kept | with_reducible intro _ | extract_lets | split
           | dsimp +zetaDelta -iota only)

theorem freshQuads_kept (s : State) (quads : List Nat) (hs : Kept cs_ s) : Kept cs_ (freshQuads s quads) := by
  unfold freshQuads
  try extract_lets
  repeat'
    (first | with_reducible assumption | (with_reducible show Kept _ _; simp -iota -zeta only [memOk_mk])
           | with_reducible apply memsOk_of | with_reducible apply freshCore_kept | with_reducible apply foldl_kept
           | with_reducible intro _ | extract_lets | split | dsimp +zetaDelta -iota only)

theorem computeDone_kept (s : State) (hs : Kept cs_ s) : Kept cs_ (computeDone s) := by
  unfold computeDone
  try extract_lets
  repeat'
    (first | with_reducible assumption | (with_reducible show Kept _ _; simp -iota -zeta only [memOk_mk])
           | with_reducible apply memsOk_of | with_reducible apply finishWait_kept | with_reducible apply foldl_kept
           | with_reducible intro _ | extract_lets | split | dsimp +zetaDelta -iota only)

theorem endCompute_kept (s : State) (p : Nat) (failed : List Nat) (hs : Kept cs_ s) : Kept cs_ (endCompute s p failed) := by
  unfold endCompute
  try extract_lets
  repeat'
    (first | with_reducible assumption | (with_reducible show Kept _ _; simp -iota -zeta only [memOk_mk, memsOk_mk])
            | (with_reducible show KeptParts _ _ _ _; simp -iota -zeta only [memsOk_mk]) | with_reducible apply memsOk_of
            | with_reducible apply cellsOk_of | with_reducible apply replaceCore_kept
            | with_reducible (refine replaceCore_kept_eq ?_ (by with_reducible assumption)) | with_reducible apply storeDefect_kept
            | with_reducible apply freshQuads_kept | with_reducible apply failLost_kept | with_reducible apply setState_kept
            | with_reducible apply computeDone_kept | with_reducible apply post_kept | with_reducible apply foldl_kept
            | with_reducible apply foldl_snd2_kept | with_reducible apply foldl_fst_kept | with_reducible apply foldl_snd_kept
            | (refine pair_eq1 ?_ (by with_reducible assumption)) | (refine pair_eq2 ?_ (by with_reducible assumption))
            | (refine ans_done_eq ?_ (by with_reducible assumption)) | (refine ans_wait_eq ?_ (by with_reducible assumption))
            | with_reducible apply ans_done | with_reducible apply ans_wait | with_reducible apply ans_held
            | with_reducible apply out_next | with_reducible intro _ | extract_lets | split | dsimp +zetaDelta -iota only)

theorem execComputeResetEnd_kept (p : Nat) (failed : List Nat) (s : State) (hs : Kept cs_ s) : OutKept cs_
    (execComputeResetEnd p failed s) := by
  unfold execComputeResetEnd
  try extract_lets
  repeat'
    (first | with_reducible assumption | (with_reducible show Kept _ _; simp -iota -zeta only [memOk_mk])
           | with_reducible apply memsOk_of | with_reducible apply endCompute_kept | with_reducible apply ans_done
           | with_reducible apply ans_wait | with_reducible apply out_next | with_reducible intro _ | extract_lets | split
           | dsimp +zetaDelta -iota only)

theorem resetBody_kept (c : Cmd) (s : State) (hs : Kept cs_ s) : AnsKept cs_ (resetBody c s) := by
  unfold resetBody
  try extract_lets
  repeat'
    (first | with_reducible assumption | (with_reducible show Kept _ _; simp -iota -zeta only [memOk_mk, memsOk_mk])
            | (with_reducible show KeptParts _ _ _ _; simp -iota -zeta only [memsOk_mk]) | with_reducible apply memsOk_of
            | with_reducible apply cellsOk_of | with_reducible apply checked_kept | with_reducible apply foldl_kept
            | with_reducible apply beginCompute_kept | with_reducible apply post_kept | with_reducible apply foldl_kept
            | with_reducible apply foldl_snd2_kept | with_reducible apply foldl_fst_kept | with_reducible apply foldl_snd_kept
            | (refine pair_eq1 ?_ (by with_reducible assumption)) | (refine pair_eq2 ?_ (by with_reducible assumption))
            | (refine ans_done_eq ?_ (by with_reducible assumption)) | (refine ans_wait_eq ?_ (by with_reducible assumption))
            | with_reducible apply ans_done | with_reducible apply ans_wait | with_reducible apply ans_held
            | with_reducible apply out_next | with_reducible intro _ | extract_lets | split | dsimp +zetaDelta -iota only)

theorem afterReset_kept (s : State) (hs : Kept cs_ s) : Kept cs_ (afterReset s) := by
  unfold afterReset
  try extract_lets
  repeat'
    (first | with_reducible assumption | (with_reducible show Kept _ _; simp -iota -zeta only [memOk_mk])
           | with_reducible apply memsOk_of | with_reducible apply warmReset_kept | with_reducible intro _ | extract_lets | split
           | dsimp +zetaDelta -iota only)

theorem execReset_kept (c : Cmd) (s : State) (hs : Kept cs_ s) : OutKept cs_ (execReset c s) := by
  unfold execReset
  try extract_lets
  repeat'
    (first | with_reducible assumption | (with_reducible show Kept _ _; simp -iota -zeta only [memOk_mk])
           | with_reducible apply memsOk_of | with_reducible apply afterReset_kept | with_reducible apply firmware_kept
           | with_reducible apply resetBody_kept | with_reducible apply ans_done | with_reducible apply ans_wait
           | with_reducible apply out_next | with_reducible intro _ | extract_lets | split | dsimp +zetaDelta -iota only)

theorem execPowerCapEnter_kept (c : Cmd) (s : State) (hs : Kept cs_ s) : OutKept cs_ (execPowerCapEnter c s) := by
  unfold execPowerCapEnter
  try extract_lets
  repeat'
    (first | with_reducible assumption | (with_reducible show Kept _ _; simp -iota -zeta only [memOk_mk])
           | with_reducible apply memsOk_of | with_reducible apply firmware_kept | with_reducible apply checked_kept
           | with_reducible apply ans_done | with_reducible apply ans_wait | with_reducible apply out_next | with_reducible intro _
           | extract_lets | split | dsimp +zetaDelta -iota only)

theorem writeBackAll_kept (s : State) (hs : Kept cs_ s) : Kept cs_ (writeBackAll s) := by
  unfold writeBackAll
  try extract_lets
  repeat'
    (first | with_reducible assumption | (with_reducible show Kept _ _; simp -iota -zeta only [memOk_mk])
           | with_reducible apply memsOk_of | with_reducible apply flushRange_kept
           | with_reducible (refine flushRange_kept_eq ?_ (by with_reducible assumption)) | with_reducible intro _ | extract_lets | split
           | dsimp +zetaDelta -iota only)

theorem drainAllTraces_kept (s : State) (hs : Kept cs_ s) : Kept cs_ (drainAllTraces s) := by
  unfold drainAllTraces
  try extract_lets
  repeat'
    (first | with_reducible assumption | (with_reducible show Kept _ _; simp -iota -zeta only [memOk_mk])
           | with_reducible apply memsOk_of | with_reducible apply drainNow_kept | with_reducible apply foldl_kept
           | with_reducible intro _ | extract_lets | split | dsimp +zetaDelta -iota only)

theorem capEntryDone_kept (s : State) (hs : Kept cs_ s) : Kept cs_ (capEntryDone s) := by
  unfold capEntryDone
  try extract_lets
  repeat'
    (first | with_reducible assumption | (with_reducible show Kept _ _; simp -iota -zeta only [memOk_mk])
           | with_reducible apply memsOk_of | with_reducible apply drainAllTraces_kept | with_reducible apply writeBackAll_kept
           | with_reducible apply setState_kept | with_reducible apply finishWait_kept | with_reducible intro _ | extract_lets | split
           | dsimp +zetaDelta -iota only)

theorem execCapEntryDone_kept (s : State) (hs : Kept cs_ s) : OutKept cs_ (execCapEntryDone s) := by
  unfold execCapEntryDone
  try extract_lets
  repeat'
    (first | with_reducible assumption | (with_reducible show Kept _ _; simp -iota -zeta only [memOk_mk])
           | with_reducible apply memsOk_of | with_reducible apply capEntryDone_kept | with_reducible apply ans_done
           | with_reducible apply ans_wait | with_reducible apply out_next | with_reducible intro _ | extract_lets | split
           | dsimp +zetaDelta -iota only)

theorem wake_kept (s : State) (hs : Kept cs_ s) : Kept cs_ (wake s) := by
  unfold wake
  try extract_lets
  repeat'
    (first | with_reducible assumption | (with_reducible show Kept _ _; simp -iota -zeta only [memOk_mk])
           | with_reducible apply memsOk_of | with_reducible intro _ | extract_lets | split | dsimp +zetaDelta -iota only)

theorem execCapWakeN_kept (s : State) (hs : Kept cs_ s) : OutKept cs_ (execCapWakeN s) := by
  unfold execCapWakeN
  try extract_lets
  repeat'
    (first | with_reducible assumption | (with_reducible show Kept _ _; simp -iota -zeta only [memOk_mk])
           | with_reducible apply memsOk_of | with_reducible apply wake_kept | with_reducible apply ans_done
           | with_reducible apply ans_wait | with_reducible apply out_next | with_reducible intro _ | extract_lets | split
           | dsimp +zetaDelta -iota only)

theorem execPowerCapExit_kept (c : Cmd) (s : State) (hs : Kept cs_ s) : OutKept cs_ (execPowerCapExit c s) := by
  unfold execPowerCapExit
  try extract_lets
  repeat'
    (first | with_reducible assumption | (with_reducible show Kept _ _; simp -iota -zeta only [memOk_mk])
           | with_reducible apply memsOk_of | with_reducible apply firmware_kept | with_reducible apply wake_kept
           | with_reducible apply ans_done | with_reducible apply ans_wait | with_reducible apply out_next | with_reducible intro _
           | extract_lets | split | dsimp +zetaDelta -iota only)

theorem capWakeDone_kept (s : State) (hs : Kept cs_ s) : Kept cs_ (capWakeDone s) := by
  unfold capWakeDone
  try extract_lets
  repeat'
    (first | with_reducible assumption | (with_reducible show Kept _ _; simp -iota -zeta only [memOk_mk, memsOk_mk])
            | (with_reducible show KeptParts _ _ _ _; simp -iota -zeta only [memsOk_mk]) | with_reducible apply memsOk_of
            | with_reducible apply cellsOk_of | with_reducible apply failLost_kept | with_reducible apply setState_kept
            | with_reducible apply freshQuads_kept | with_reducible apply finishWait_kept
            | (refine pair_eq1 ?_ (by with_reducible assumption)) | (refine pair_eq2 ?_ (by with_reducible assumption))
            | (refine ans_done_eq ?_ (by with_reducible assumption)) | (refine ans_wait_eq ?_ (by with_reducible assumption))
            | with_reducible apply ans_done | with_reducible apply ans_wait | with_reducible apply ans_held
            | with_reducible apply out_next | with_reducible intro _ | extract_lets | split | dsimp +zetaDelta -iota only)

theorem execCapWakeDone_kept (s : State) (hs : Kept cs_ s) : OutKept cs_ (execCapWakeDone s) := by
  unfold execCapWakeDone
  try extract_lets
  repeat'
    (first | with_reducible assumption | (with_reducible show Kept _ _; simp -iota -zeta only [memOk_mk])
           | with_reducible apply memsOk_of | with_reducible apply capWakeDone_kept | with_reducible apply ans_done
           | with_reducible apply ans_wait | with_reducible apply out_next | with_reducible intro _ | extract_lets | split
           | dsimp +zetaDelta -iota only)

theorem execFaultLogRead_kept (c : Cmd) (s : State) (hs : Kept cs_ s) : OutKept cs_ (execFaultLogRead c s) := by
  unfold execFaultLogRead
  try extract_lets
  repeat'
    (first | with_reducible assumption | (with_reducible show Kept _ _; simp -iota -zeta only [memOk_mk])
           | with_reducible apply memsOk_of | with_reducible apply firmware_kept | with_reducible apply reportTo_kept
           | with_reducible apply ans_done | with_reducible apply ans_wait | with_reducible apply out_next | with_reducible intro _
           | extract_lets | split | dsimp +zetaDelta -iota only)

theorem reportedPower_kept (s : State) (hs : Kept cs_ s) : Kept cs_ (reportedPower s).2 := by
  unfold reportedPower
  try extract_lets
  repeat'
    (first | with_reducible assumption | (with_reducible show Kept _ _; simp -iota -zeta only [memOk_mk])
           | with_reducible apply memsOk_of | with_reducible apply freeWord_kept
           | with_reducible (refine freeWord_kept_eq ?_ (by with_reducible assumption)) | with_reducible intro _ | extract_lets | split
           | dsimp +zetaDelta -iota only)
theorem reportedPower_kept_eq {s : State} {r0 : Nat} {t_ : State} (hs : Kept cs_ s) (e_ : reportedPower s = (r0, t_)) : Kept cs_ t_ := by
  have := reportedPower_kept s hs
  rwa [e_] at this

theorem execPowerStatus_kept (c : Cmd) (s : State) (hs : Kept cs_ s) : OutKept cs_ (execPowerStatus c s) := by
  unfold execPowerStatus
  try extract_lets
  repeat'
    (first | with_reducible assumption | (with_reducible show Kept _ _; simp -iota -zeta only [memOk_mk])
           | with_reducible apply memsOk_of | with_reducible apply firmware_kept | with_reducible apply reportedPower_kept
           | with_reducible (refine reportedPower_kept_eq ?_ (by with_reducible assumption)) | with_reducible apply ans_done
           | with_reducible apply ans_wait | with_reducible apply out_next | with_reducible intro _ | extract_lets | split
           | dsimp +zetaDelta -iota only)

end Sys2Proof.Machine
end

