-- ==== Sys2Proof/Laws/KeptFirmware.lean ====
section
/-! SUPPORT. Every definition of Machine/Firmware.lean keeps the queue of waiting commands and the canonical form of both memories. -/
namespace Sys2Proof.Machine
open Sys2Proof
set_option maxHeartbeats 400000
set_option linter.all false
variable {cs_ : List Instr}
theorem setImageSlot_kept (s : State) (i : Nat) (b : List Byte) (hs : Kept cs_ s) : Kept cs_ (setImageSlot s i b) := by
  unfold setImageSlot
  try extract_lets
  repeat'
    (first | with_reducible assumption | (with_reducible show Kept _ _; simp -iota -zeta only [memOk_mk])
           | with_reducible apply memsOk_of | with_reducible intro _ | extract_lets | split | dsimp +zetaDelta -iota only)

theorem writeSlot_kept (s : State) (len : Nat) (off : Nat) (b : List Byte) (hs : Kept cs_ s) : Kept cs_ (writeSlot s len off b) := by
  unfold writeSlot
  try extract_lets
  repeat'
    (first | with_reducible assumption | (with_reducible show Kept _ _; simp -iota -zeta only [memOk_mk])
           | with_reducible apply memsOk_of | with_reducible apply setImageSlot_kept | with_reducible intro _ | extract_lets | split
           | dsimp +zetaDelta -iota only)

theorem minimalDone_kept (s : State) (hs : Kept cs_ s) : Kept cs_ (minimalDone s) := by
  unfold minimalDone
  try extract_lets
  repeat'
    (first | with_reducible assumption | (with_reducible show Kept _ _; simp -iota -zeta only [memOk_mk])
           | with_reducible apply memsOk_of | with_reducible apply bootUpdate_kept | with_reducible intro _ | extract_lets | split
           | dsimp +zetaDelta -iota only)

theorem endSession_kept (s : State) (hs : Kept cs_ s) : Kept cs_ (endSession s) := by
  unfold endSession
  try extract_lets
  repeat'
    (first | with_reducible assumption | (with_reducible show Kept _ _; simp -iota -zeta only [memOk_mk])
           | with_reducible apply memsOk_of | with_reducible intro _ | extract_lets | split | dsimp +zetaDelta -iota only)

theorem activate_kept (s : State) (sig : Bool) (hs : Kept cs_ s) : Kept cs_ (activate s sig).2 := by
  unfold activate
  try extract_lets
  repeat'
    (first | with_reducible assumption | (with_reducible show Kept _ _; simp -iota -zeta only [memOk_mk])
           | with_reducible apply memsOk_of | with_reducible apply minimalDone_kept | with_reducible apply bootUpdate_kept
           | with_reducible intro _ | extract_lets | split | dsimp +zetaDelta -iota only)
theorem activate_kept_eq {s : State} {sig : Bool} {r0 : Nat} {t_ : State} (hs : Kept cs_ s) (e_ : activate s sig = (r0, t_))
    : Kept cs_ t_ := by
  have := activate_kept s sig hs
  rwa [e_] at this

theorem execFwWrite_kept (c : Cmd) (s : State) (hs : Kept cs_ s) : OutKept cs_ (execFwWrite c s) := by
  unfold execFwWrite
  try extract_lets
  repeat'
    (first | with_reducible assumption | (with_reducible show Kept _ _; simp -iota -zeta only [memOk_mk, memsOk_mk])
            | (with_reducible show KeptParts _ _ _ _; simp -iota -zeta only [memsOk_mk]) | with_reducible apply memsOk_of
            | with_reducible apply cellsOk_of | with_reducible apply firmware_kept | with_reducible apply checked_kept
            | with_reducible apply writeSlot_kept | (refine pair_eq1 ?_ (by with_reducible assumption))
            | (refine pair_eq2 ?_ (by with_reducible assumption)) | (refine ans_done_eq ?_ (by with_reducible assumption))
            | (refine ans_wait_eq ?_ (by with_reducible assumption)) | with_reducible apply ans_done | with_reducible apply ans_wait
            | with_reducible apply ans_held | with_reducible apply out_next | with_reducible intro _ | extract_lets | split
            | dsimp +zetaDelta -iota only)

theorem execFwActivate_kept (c : Cmd) (sig : Bool) (s : State) (hs : Kept cs_ s) : OutKept cs_ (execFwActivate c sig s) := by
  unfold execFwActivate
  try extract_lets
  repeat'
    (first | with_reducible assumption | (with_reducible show Kept _ _; simp -iota -zeta only [memOk_mk])
           | with_reducible apply memsOk_of | with_reducible apply firmware_kept | with_reducible apply checked_kept
           | with_reducible apply activate_kept | with_reducible (refine activate_kept_eq ?_ (by with_reducible assumption))
           | with_reducible apply endSession_kept | with_reducible apply ans_done | with_reducible apply ans_wait
           | with_reducible apply out_next | with_reducible intro _ | extract_lets | split | dsimp +zetaDelta -iota only)

theorem execFwStatus_kept (c : Cmd) (s : State) (hs : Kept cs_ s) : OutKept cs_ (execFwStatus c s) := by
  unfold execFwStatus
  try extract_lets
  repeat'
    (first | with_reducible assumption | (with_reducible show Kept _ _; simp -iota -zeta only [memOk_mk])
           | with_reducible apply memsOk_of | with_reducible apply firmware_kept | with_reducible apply freeBytes_kept
           | with_reducible (refine freeBytes_kept_eq ?_ (by with_reducible assumption)) | with_reducible apply reportTo_kept
           | with_reducible apply ans_done | with_reducible apply ans_wait | with_reducible apply out_next | with_reducible intro _
           | extract_lets | split | dsimp +zetaDelta -iota only)

theorem execFwSessionTimeout_kept (s : State) (hs : Kept cs_ s) : OutKept cs_ (execFwSessionTimeout s) := by
  unfold execFwSessionTimeout
  try extract_lets
  repeat'
    (first | with_reducible assumption | (with_reducible show Kept _ _; simp -iota -zeta only [memOk_mk, memsOk_mk])
            | (with_reducible show KeptParts _ _ _ _; simp -iota -zeta only [memsOk_mk]) | with_reducible apply memsOk_of
            | with_reducible apply cellsOk_of | with_reducible apply endSession_kept | (refine pair_eq1 ?_ (by with_reducible assumption))
            | (refine pair_eq2 ?_ (by with_reducible assumption)) | (refine ans_done_eq ?_ (by with_reducible assumption))
            | (refine ans_wait_eq ?_ (by with_reducible assumption)) | with_reducible apply ans_done | with_reducible apply ans_wait
            | with_reducible apply ans_held | with_reducible apply out_next | with_reducible intro _ | extract_lets | split
            | dsimp +zetaDelta -iota only)

theorem respond_kept (s : State) (b : List Byte) (hs : Kept cs_ s) : Kept cs_ (respond s b) := by
  unfold respond
  try extract_lets
  repeat'
    (first | with_reducible assumption | (with_reducible show Kept _ _; simp -iota -zeta only [memOk_mk])
           | with_reducible apply memsOk_of | with_reducible intro _ | extract_lets | split | dsimp +zetaDelta -iota only)

theorem toPhase_kept (s : State) (n : Nat) (hs : Kept cs_ s) : Kept cs_ (toPhase s n) := by
  unfold toPhase
  try extract_lets
  repeat'
    (first | with_reducible assumption | (with_reducible show Kept _ _; simp -iota -zeta only [memOk_mk])
           | with_reducible apply memsOk_of | with_reducible intro _ | extract_lets | split | dsimp +zetaDelta -iota only)

theorem pldmIn_kept (n : Nat) (s : State) (f : State → State) (hs : Kept cs_ s) (hf : ∀ (y0 : State), Kept cs_ y0 → Kept cs_ (f y0))
    : Kept cs_ (pldmIn n s f) := by
  unfold pldmIn
  try extract_lets
  repeat'
    (first | with_reducible assumption | (with_reducible show Kept _ _; simp -iota -zeta only [memOk_mk])
           | with_reducible apply memsOk_of | with_reducible apply respond_kept | with_reducible apply hf | with_reducible intro _
           | extract_lets | split | dsimp +zetaDelta -iota only)

theorem execQueryDeviceIdentifiers_kept (s : State) (hs : Kept cs_ s) : OutKept cs_ (execQueryDeviceIdentifiers s) := by
  unfold execQueryDeviceIdentifiers
  try extract_lets
  repeat'
    (first | with_reducible assumption | (with_reducible show Kept _ _; simp -iota -zeta only [memOk_mk])
           | with_reducible apply memsOk_of | with_reducible apply respond_kept | with_reducible apply ans_done
           | with_reducible apply ans_wait | with_reducible apply out_next | with_reducible intro _ | extract_lets | split
           | dsimp +zetaDelta -iota only)

theorem execGetFirmwareParameters_kept (s : State) (hs : Kept cs_ s) : OutKept cs_ (execGetFirmwareParameters s) := by
  unfold execGetFirmwareParameters
  try extract_lets
  repeat'
    (first | with_reducible assumption | (with_reducible show Kept _ _; simp -iota -zeta only [memOk_mk])
           | with_reducible apply memsOk_of | with_reducible apply respond_kept | with_reducible apply ans_done
           | with_reducible apply ans_wait | with_reducible apply out_next | with_reducible intro _ | extract_lets | split
           | dsimp +zetaDelta -iota only)

theorem execRequestUpdate_kept (s : State) (hs : Kept cs_ s) : OutKept cs_ (execRequestUpdate s) := by
  unfold execRequestUpdate
  try extract_lets
  repeat'
    (first | with_reducible assumption | (with_reducible show Kept _ _; simp -iota -zeta only [memOk_mk, memsOk_mk])
            | (with_reducible show KeptParts _ _ _ _; simp -iota -zeta only [memsOk_mk]) | with_reducible apply memsOk_of
            | with_reducible apply cellsOk_of | with_reducible apply respond_kept | (refine pair_eq1 ?_ (by with_reducible assumption))
            | (refine pair_eq2 ?_ (by with_reducible assumption)) | (refine ans_done_eq ?_ (by with_reducible assumption))
            | (refine ans_wait_eq ?_ (by with_reducible assumption)) | with_reducible apply ans_done | with_reducible apply ans_wait
            | with_reducible apply ans_held | with_reducible apply out_next | with_reducible intro _ | extract_lets | split
            | dsimp +zetaDelta -iota only)

theorem execPassComponentTable_kept (m : MgmtReq) (s : State) (hs : Kept cs_ s) : OutKept cs_ (execPassComponentTable m s) := by
  unfold execPassComponentTable
  try extract_lets
  repeat'
    (first | with_reducible assumption | (with_reducible show Kept _ _; simp -iota -zeta only [memOk_mk])
           | with_reducible apply memsOk_of | with_reducible apply pldmIn_kept | with_reducible apply respond_kept
           | with_reducible apply toPhase_kept | with_reducible apply ans_done | with_reducible apply ans_wait
           | with_reducible apply out_next | with_reducible intro _ | extract_lets | split | dsimp +zetaDelta -iota only)

theorem execUpdateComponent_kept (m : MgmtReq) (s : State) (hs : Kept cs_ s) : OutKept cs_ (execUpdateComponent m s) := by
  unfold execUpdateComponent
  try extract_lets
  repeat'
    (first | with_reducible assumption | (with_reducible show Kept _ _; simp -iota -zeta only [memOk_mk])
           | with_reducible apply memsOk_of | with_reducible apply pldmIn_kept | with_reducible apply respond_kept
           | with_reducible apply toPhase_kept | with_reducible apply ans_done | with_reducible apply ans_wait
           | with_reducible apply out_next | with_reducible intro _ | extract_lets | split | dsimp +zetaDelta -iota only)

theorem execRequestFirmwareData_kept (m : MgmtReq) (s : State) (hs : Kept cs_ s) : OutKept cs_ (execRequestFirmwareData m s) := by
  unfold execRequestFirmwareData
  try extract_lets
  repeat'
    (first | with_reducible assumption | (with_reducible show Kept _ _; simp -iota -zeta only [memOk_mk, memsOk_mk])
            | (with_reducible show KeptParts _ _ _ _; simp -iota -zeta only [memsOk_mk]) | with_reducible apply memsOk_of
            | with_reducible apply cellsOk_of | with_reducible apply pldmIn_kept | with_reducible apply respond_kept
            | with_reducible apply writeSlot_kept | (refine pair_eq1 ?_ (by with_reducible assumption))
            | (refine pair_eq2 ?_ (by with_reducible assumption)) | (refine ans_done_eq ?_ (by with_reducible assumption))
            | (refine ans_wait_eq ?_ (by with_reducible assumption)) | with_reducible apply ans_done | with_reducible apply ans_wait
            | with_reducible apply ans_held | with_reducible apply out_next | with_reducible intro _ | extract_lets | split
            | dsimp +zetaDelta -iota only)

theorem execTransferComplete_kept (m : MgmtReq) (s : State) (hs : Kept cs_ s) : OutKept cs_ (execTransferComplete m s) := by
  unfold execTransferComplete
  try extract_lets
  repeat'
    (first | with_reducible assumption | (with_reducible show Kept _ _; simp -iota -zeta only [memOk_mk])
           | with_reducible apply memsOk_of | with_reducible apply pldmIn_kept | with_reducible apply respond_kept
           | with_reducible apply toPhase_kept | with_reducible apply endSession_kept | with_reducible apply ans_done
           | with_reducible apply ans_wait | with_reducible apply out_next | with_reducible intro _ | extract_lets | split
           | dsimp +zetaDelta -iota only)

theorem execVerifyComplete_kept (m : MgmtReq) (s : State) (hs : Kept cs_ s) : OutKept cs_ (execVerifyComplete m s) := by
  unfold execVerifyComplete
  try extract_lets
  repeat'
    (first | with_reducible assumption | (with_reducible show Kept _ _; simp -iota -zeta only [memOk_mk])
           | with_reducible apply memsOk_of | with_reducible apply pldmIn_kept | with_reducible apply respond_kept
           | with_reducible apply toPhase_kept | with_reducible apply ans_done | with_reducible apply ans_wait
           | with_reducible apply out_next | with_reducible intro _ | extract_lets | split | dsimp +zetaDelta -iota only)

theorem execApplyComplete_kept (m : MgmtReq) (s : State) (hs : Kept cs_ s) : OutKept cs_ (execApplyComplete m s) := by
  unfold execApplyComplete
  try extract_lets
  repeat'
    (first | with_reducible assumption | (with_reducible show Kept _ _; simp -iota -zeta only [memOk_mk])
           | with_reducible apply memsOk_of | with_reducible apply pldmIn_kept | with_reducible apply respond_kept
           | with_reducible apply toPhase_kept | with_reducible apply ans_done | with_reducible apply ans_wait
           | with_reducible apply out_next | with_reducible intro _ | extract_lets | split | dsimp +zetaDelta -iota only)

theorem execActivateFirmware_kept (sig : Bool) (s : State) (hs : Kept cs_ s) : OutKept cs_ (execActivateFirmware sig s) := by
  unfold execActivateFirmware
  try extract_lets
  repeat'
    (first | with_reducible assumption | (with_reducible show Kept _ _; simp -iota -zeta only [memOk_mk])
           | with_reducible apply memsOk_of | with_reducible apply pldmIn_kept | with_reducible apply activate_kept
           | with_reducible (refine activate_kept_eq ?_ (by with_reducible assumption)) | with_reducible apply endSession_kept
           | with_reducible apply respond_kept | with_reducible apply ans_done | with_reducible apply ans_wait
           | with_reducible apply out_next | with_reducible intro _ | extract_lets | split | dsimp +zetaDelta -iota only)

theorem execGetStatus_kept (s : State) (hs : Kept cs_ s) : OutKept cs_ (execGetStatus s) := by
  unfold execGetStatus
  try extract_lets
  repeat'
    (first | with_reducible assumption | (with_reducible show Kept _ _; simp -iota -zeta only [memOk_mk])
           | with_reducible apply memsOk_of | with_reducible apply respond_kept | with_reducible apply ans_done
           | with_reducible apply ans_wait | with_reducible apply out_next | with_reducible intro _ | extract_lets | split
           | dsimp +zetaDelta -iota only)

theorem execCancelUpdate_kept (s : State) (hs : Kept cs_ s) : OutKept cs_ (execCancelUpdate s) := by
  unfold execCancelUpdate
  try extract_lets
  repeat'
    (first | with_reducible assumption | (with_reducible show Kept _ _; simp -iota -zeta only [memOk_mk])
           | with_reducible apply memsOk_of | with_reducible apply respond_kept | with_reducible apply endSession_kept
           | with_reducible apply ans_done | with_reducible apply ans_wait | with_reducible apply out_next | with_reducible intro _
           | extract_lets | split | dsimp +zetaDelta -iota only)

theorem execBringupConfig_kept (c : Cmd) (s : State) (hs : Kept cs_ s) : OutKept cs_ (execBringupConfig c s) := by
  unfold execBringupConfig
  try extract_lets
  repeat'
    (first | with_reducible assumption | (with_reducible show Kept _ _; simp -iota -zeta only [memOk_mk])
           | with_reducible apply memsOk_of | with_reducible apply firmware_kept | with_reducible apply checked_kept
           | with_reducible apply storeSection_kept | with_reducible apply ans_done | with_reducible apply ans_wait
           | with_reducible apply out_next | with_reducible intro _ | extract_lets | split | dsimp +zetaDelta -iota only)

theorem execSettingsRead_kept (c : Cmd) (s : State) (hs : Kept cs_ s) : OutKept cs_ (execSettingsRead c s) := by
  unfold execSettingsRead
  try extract_lets
  repeat'
    (first | with_reducible assumption | (with_reducible show Kept _ _; simp -iota -zeta only [memOk_mk])
           | with_reducible apply memsOk_of | with_reducible apply firmware_kept | with_reducible apply checked_kept
           | with_reducible apply reportTo_kept | with_reducible apply ans_done | with_reducible apply ans_wait
           | with_reducible apply out_next | with_reducible intro _ | extract_lets | split | dsimp +zetaDelta -iota only)

theorem execSettingsWrite_kept (c : Cmd) (s : State) (hs : Kept cs_ s) : OutKept cs_ (execSettingsWrite c s) := by
  unfold execSettingsWrite
  try extract_lets
  repeat'
    (first | with_reducible assumption | (with_reducible show Kept _ _; simp -iota -zeta only [memOk_mk, memsOk_mk])
            | (with_reducible show KeptParts _ _ _ _; simp -iota -zeta only [memsOk_mk]) | with_reducible apply memsOk_of
            | with_reducible apply cellsOk_of | with_reducible apply firmware_kept | with_reducible apply checked_kept
            | with_reducible apply minimalDone_kept | with_reducible apply writeStore_kept
            | (refine pair_eq1 ?_ (by with_reducible assumption)) | (refine pair_eq2 ?_ (by with_reducible assumption))
            | (refine ans_done_eq ?_ (by with_reducible assumption)) | (refine ans_wait_eq ?_ (by with_reducible assumption))
            | with_reducible apply ans_done | with_reducible apply ans_wait | with_reducible apply out_next | with_reducible intro _
            | extract_lets | split | dsimp +zetaDelta -iota only)

theorem commitStore_kept (s : State) (hs : Kept cs_ s) : Kept cs_ (commitStore s) := by
  unfold commitStore
  try extract_lets
  repeat'
    (first | with_reducible assumption | (with_reducible show Kept _ _; simp -iota -zeta only [memOk_mk])
           | with_reducible apply memsOk_of | with_reducible apply minimalDone_kept | with_reducible apply writeStore_kept
           | with_reducible intro _ | extract_lets | split | dsimp +zetaDelta -iota only)

theorem execSettingsCommit_kept (c : Cmd) (s : State) (hs : Kept cs_ s) : OutKept cs_ (execSettingsCommit c s) := by
  unfold execSettingsCommit
  try extract_lets
  repeat'
    (first | with_reducible assumption | (with_reducible show Kept _ _; simp -iota -zeta only [memOk_mk])
           | with_reducible apply memsOk_of | with_reducible apply firmware_kept | with_reducible apply commitStore_kept
           | with_reducible apply ans_done | with_reducible apply ans_wait | with_reducible apply out_next | with_reducible intro _
           | extract_lets | split | dsimp +zetaDelta -iota only)

theorem execDefectMapRead_kept (c : Cmd) (s : State) (hs : Kept cs_ s) : OutKept cs_ (execDefectMapRead c s) := by
  unfold execDefectMapRead
  try extract_lets
  repeat'
    (first | with_reducible assumption | (with_reducible show Kept _ _; simp -iota -zeta only [memOk_mk])
           | with_reducible apply memsOk_of | with_reducible apply firmware_kept | with_reducible apply reportTo_kept
           | with_reducible apply ans_done | with_reducible apply ans_wait | with_reducible apply out_next | with_reducible intro _
           | extract_lets | split | dsimp +zetaDelta -iota only)

theorem execDefectMapClear_kept (c : Cmd) (s : State) (hs : Kept cs_ s) : OutKept cs_ (execDefectMapClear c s) := by
  unfold execDefectMapClear
  try extract_lets
  repeat'
    (first | with_reducible assumption | (with_reducible show Kept _ _; simp -iota -zeta only [memOk_mk])
           | with_reducible apply memsOk_of | with_reducible apply firmware_kept | with_reducible apply ans_done
           | with_reducible apply ans_wait | with_reducible apply out_next | with_reducible intro _ | extract_lets | split
           | dsimp +zetaDelta -iota only)

theorem installLicence_kept (sig : Bool) (c : Cmd) (s : State) (hs : Kept cs_ s) : AnsKept cs_ (installLicence sig c s) := by
  unfold installLicence
  try extract_lets
  repeat'
    (first | with_reducible assumption | (with_reducible show Kept _ _; simp -iota -zeta only [memOk_mk])
           | with_reducible apply memsOk_of | with_reducible apply checked_kept | with_reducible apply minimalDone_kept
           | with_reducible apply storeSection_kept | with_reducible apply ans_done | with_reducible apply ans_wait
           | with_reducible apply out_next | with_reducible intro _ | extract_lets | split | dsimp +zetaDelta -iota only)

theorem execLicenceInstall_kept (c : Cmd) (sig : Bool) (s : State) (hs : Kept cs_ s) : OutKept cs_ (execLicenceInstall c sig s) := by
  unfold execLicenceInstall
  try extract_lets
  repeat'
    (first | with_reducible assumption | (with_reducible show Kept _ _; simp -iota -zeta only [memOk_mk, memsOk_mk])
            | (with_reducible show KeptParts _ _ _ _; simp -iota -zeta only [memsOk_mk]) | with_reducible apply memsOk_of
            | with_reducible apply cellsOk_of | with_reducible apply firmware_kept | with_reducible apply installLicence_kept
            | (refine pair_eq1 ?_ (by with_reducible assumption)) | (refine pair_eq2 ?_ (by with_reducible assumption))
            | (refine ans_done_eq ?_ (by with_reducible assumption)) | (refine ans_wait_eq ?_ (by with_reducible assumption))
            | with_reducible apply ans_done | with_reducible apply ans_wait | with_reducible apply out_next | with_reducible intro _
            | extract_lets | split | dsimp +zetaDelta -iota only)

theorem execLicenceQuery_kept (c : Cmd) (s : State) (hs : Kept cs_ s) : OutKept cs_ (execLicenceQuery c s) := by
  unfold execLicenceQuery
  try extract_lets
  repeat'
    (first | with_reducible assumption | (with_reducible show Kept _ _; simp -iota -zeta only [memOk_mk])
           | with_reducible apply memsOk_of | with_reducible apply firmware_kept | with_reducible apply reportTo_kept
           | with_reducible apply ans_done | with_reducible apply ans_wait | with_reducible apply out_next | with_reducible intro _
           | extract_lets | split | dsimp +zetaDelta -iota only)

theorem sensorReading_kept_eq {s : State} {x1 : Sensor} {r0 : List Byte} {t_ : State} (hs : Kept cs_ s) (e_ : sensorReading s x1 = some
    (r0, t_)) : Kept cs_ t_ := by
  unfold sensorReading at e_
  try dsimp only at e_
  repeat' (first | contradiction | (cases e_; done) | split at e_)
  all_goals (try (injection e_ with e_; first | subst e_ | (injection e_ with _ e_; first | subst e_ | (injection e_ with _ e_; subst e_))))
  all_goals repeat'
    (first | with_reducible assumption | (with_reducible show Kept _ _; simp -iota -zeta only [memOk_mk])
           | with_reducible apply memsOk_of | with_reducible apply reportedPower_kept
           | with_reducible (refine reportedPower_kept_eq ?_ (by with_reducible assumption)) | with_reducible intro _ | extract_lets
           | split | dsimp +zetaDelta -iota only)

theorem execPldmSensorRequest_kept (x : Sensor) (s : State) (hs : Kept cs_ s) : OutKept cs_ (execPldmSensorRequest x s) := by
  unfold execPldmSensorRequest
  try extract_lets
  repeat'
    (first | with_reducible assumption | (with_reducible show Kept _ _; simp -iota -zeta only [memOk_mk])
           | with_reducible apply memsOk_of | with_reducible (refine sensorReading_kept_eq ?_ (by with_reducible assumption))
           | with_reducible apply respond_kept | with_reducible apply ans_done | with_reducible apply ans_wait
           | with_reducible apply out_next | with_reducible intro _ | extract_lets | split | dsimp +zetaDelta -iota only)

theorem spdmAnswer_kept (s : State) (known : List Byte) (free : Nat) (hs : Kept cs_ s) : Kept cs_ (spdmAnswer s known free) := by
  unfold spdmAnswer
  try extract_lets
  repeat'
    (first | with_reducible assumption | (with_reducible show Kept _ _; simp -iota -zeta only [memOk_mk])
           | with_reducible apply memsOk_of | with_reducible apply freeBytes_kept
           | with_reducible (refine freeBytes_kept_eq ?_ (by with_reducible assumption)) | with_reducible apply respond_kept
           | with_reducible intro _ | extract_lets | split | dsimp +zetaDelta -iota only)

theorem execGetVersion_kept (s : State) (hs : Kept cs_ s) : OutKept cs_ (execGetVersion s) := by
  unfold execGetVersion
  try extract_lets
  repeat'
    (first | with_reducible assumption | (with_reducible show Kept _ _; simp -iota -zeta only [memOk_mk])
           | with_reducible apply memsOk_of | with_reducible apply spdmAnswer_kept | with_reducible apply ans_done
           | with_reducible apply ans_wait | with_reducible apply out_next | with_reducible intro _ | extract_lets | split
           | dsimp +zetaDelta -iota only)

theorem execGetCapabilities_kept (s : State) (hs : Kept cs_ s) : OutKept cs_ (execGetCapabilities s) := by
  unfold execGetCapabilities
  try extract_lets
  repeat'
    (first | with_reducible assumption | (with_reducible show Kept _ _; simp -iota -zeta only [memOk_mk])
           | with_reducible apply memsOk_of | with_reducible apply spdmAnswer_kept | with_reducible apply ans_done
           | with_reducible apply ans_wait | with_reducible apply out_next | with_reducible intro _ | extract_lets | split
           | dsimp +zetaDelta -iota only)

theorem execNegotiateAlgorithms_kept (s : State) (hs : Kept cs_ s) : OutKept cs_ (execNegotiateAlgorithms s) := by
  unfold execNegotiateAlgorithms
  try extract_lets
  repeat'
    (first | with_reducible assumption | (with_reducible show Kept _ _; simp -iota -zeta only [memOk_mk])
           | with_reducible apply memsOk_of | with_reducible apply spdmAnswer_kept | with_reducible apply ans_done
           | with_reducible apply ans_wait | with_reducible apply out_next | with_reducible intro _ | extract_lets | split
           | dsimp +zetaDelta -iota only)

theorem execGetDigests_kept (s : State) (hs : Kept cs_ s) : OutKept cs_ (execGetDigests s) := by
  unfold execGetDigests
  try extract_lets
  repeat'
    (first | with_reducible assumption | (with_reducible show Kept _ _; simp -iota -zeta only [memOk_mk])
           | with_reducible apply memsOk_of | with_reducible apply spdmAnswer_kept | with_reducible apply ans_done
           | with_reducible apply ans_wait | with_reducible apply out_next | with_reducible intro _ | extract_lets | split
           | dsimp +zetaDelta -iota only)

theorem execGetCertificate_kept (s : State) (hs : Kept cs_ s) : OutKept cs_ (execGetCertificate s) := by
  unfold execGetCertificate
  try extract_lets
  repeat'
    (first | with_reducible assumption | (with_reducible show Kept _ _; simp -iota -zeta only [memOk_mk])
           | with_reducible apply memsOk_of | with_reducible apply spdmAnswer_kept | with_reducible apply ans_done
           | with_reducible apply ans_wait | with_reducible apply out_next | with_reducible intro _ | extract_lets | split
           | dsimp +zetaDelta -iota only)

theorem execChallenge_kept (s : State) (hs : Kept cs_ s) : OutKept cs_ (execChallenge s) := by
  unfold execChallenge
  try extract_lets
  repeat'
    (first | with_reducible assumption | (with_reducible show Kept _ _; simp -iota -zeta only [memOk_mk])
           | with_reducible apply memsOk_of | with_reducible apply spdmAnswer_kept | with_reducible apply ans_done
           | with_reducible apply ans_wait | with_reducible apply out_next | with_reducible intro _ | extract_lets | split
           | dsimp +zetaDelta -iota only)

theorem execGetMeasurements_kept (s : State) (hs : Kept cs_ s) : OutKept cs_ (execGetMeasurements s) := by
  unfold execGetMeasurements
  try extract_lets
  repeat'
    (first | with_reducible assumption | (with_reducible show Kept _ _; simp -iota -zeta only [memOk_mk])
           | with_reducible apply memsOk_of | with_reducible apply freeBytes_kept
           | with_reducible (refine freeBytes_kept_eq ?_ (by with_reducible assumption)) | with_reducible apply respond_kept
           | with_reducible apply ans_done | with_reducible apply ans_wait | with_reducible apply out_next | with_reducible intro _
           | extract_lets | split | dsimp +zetaDelta -iota only)

theorem testPort_kept (s : State) (ir : Nat) (dr : BitVec 32) (hs : Kept cs_ s) : Kept cs_ (testPort s ir dr) := by
  unfold testPort
  try extract_lets
  repeat'
    (first | with_reducible assumption | (with_reducible show Kept _ _; simp -iota -zeta only [memOk_mk])
           | with_reducible apply memsOk_of | with_reducible intro _ | extract_lets | split | dsimp +zetaDelta -iota only)

theorem testOnly_kept (s : State) (ir : Nat) (hs : Kept cs_ s) : Kept cs_ (testOnly s ir) := by
  unfold testOnly
  try extract_lets
  repeat'
    (first | with_reducible assumption | (with_reducible show Kept _ _; simp -iota -zeta only [memOk_mk])
           | with_reducible apply memsOk_of | with_reducible apply testPort_kept | with_reducible intro _ | extract_lets | split
           | dsimp +zetaDelta -iota only)

theorem execBypass_kept (s : State) (hs : Kept cs_ s) : OutKept cs_ (execBypass s) := by
  unfold execBypass
  try extract_lets
  repeat'
    (first | with_reducible assumption | (with_reducible show Kept _ _; simp -iota -zeta only [memOk_mk])
           | with_reducible apply memsOk_of | with_reducible apply testPort_kept | with_reducible apply ans_done
           | with_reducible apply ans_wait | with_reducible apply out_next | with_reducible intro _ | extract_lets | split
           | dsimp +zetaDelta -iota only)

theorem execIdcode_kept (s : State) (hs : Kept cs_ s) : OutKept cs_ (execIdcode s) := by
  unfold execIdcode
  try extract_lets
  repeat'
    (first | with_reducible assumption | (with_reducible show Kept _ _; simp -iota -zeta only [memOk_mk])
           | with_reducible apply memsOk_of | with_reducible apply testPort_kept | with_reducible apply ans_done
           | with_reducible apply ans_wait | with_reducible apply out_next | with_reducible intro _ | extract_lets | split
           | dsimp +zetaDelta -iota only)

theorem execSamplePreload_kept (s : State) (hs : Kept cs_ s) : OutKept cs_ (execSamplePreload s) := by
  unfold execSamplePreload
  try extract_lets
  repeat'
    (first | with_reducible assumption | (with_reducible show Kept _ _; simp -iota -zeta only [memOk_mk])
           | with_reducible apply memsOk_of | with_reducible apply testPort_kept | with_reducible apply ans_done
           | with_reducible apply ans_wait | with_reducible apply out_next | with_reducible intro _ | extract_lets | split
           | dsimp +zetaDelta -iota only)

theorem execExtest_kept (s : State) (hs : Kept cs_ s) : OutKept cs_ (execExtest s) := by
  unfold execExtest
  try extract_lets
  repeat'
    (first | with_reducible assumption | (with_reducible show Kept _ _; simp -iota -zeta only [memOk_mk])
           | with_reducible apply memsOk_of | with_reducible apply testOnly_kept | with_reducible apply ans_done
           | with_reducible apply ans_wait | with_reducible apply out_next | with_reducible intro _ | extract_lets | split
           | dsimp +zetaDelta -iota only)

theorem execClamp_kept (s : State) (hs : Kept cs_ s) : OutKept cs_ (execClamp s) := by
  unfold execClamp
  try extract_lets
  repeat'
    (first | with_reducible assumption | (with_reducible show Kept _ _; simp -iota -zeta only [memOk_mk])
           | with_reducible apply memsOk_of | with_reducible apply testOnly_kept | with_reducible apply ans_done
           | with_reducible apply ans_wait | with_reducible apply out_next | with_reducible intro _ | extract_lets | split
           | dsimp +zetaDelta -iota only)

theorem execHighz_kept (s : State) (hs : Kept cs_ s) : OutKept cs_ (execHighz s) := by
  unfold execHighz
  try extract_lets
  repeat'
    (first | with_reducible assumption | (with_reducible show Kept _ _; simp -iota -zeta only [memOk_mk])
           | with_reducible apply memsOk_of | with_reducible apply testOnly_kept | with_reducible apply ans_done
           | with_reducible apply ans_wait | with_reducible apply out_next | with_reducible intro _ | extract_lets | split
           | dsimp +zetaDelta -iota only)

end Sys2Proof.Machine
end

