-- ==== Sys2Proof/Laws/KeptAdmin.lean ====
section
/-! SUPPORT. Every definition of Machine/Admin.lean keeps the queue of waiting commands and the canonical form of both memories. -/
namespace Sys2Proof.Machine
open Sys2Proof
set_option maxHeartbeats 400000
set_option linter.all false
variable {cs_ : List Instr}
theorem execIdentify_kept (c : Cmd) (s : State) (hs : Kept cs_ s) : OutKept cs_ (execIdentify c s) := by
  unfold execIdentify
  try extract_lets
  repeat'
    (first | with_reducible assumption | (with_reducible show Kept _ _; simp -iota -zeta only [memOk_mk])
           | with_reducible apply memsOk_of | with_reducible apply firmware_kept | with_reducible apply reportTo_kept
           | with_reducible apply ans_done | with_reducible apply ans_wait | with_reducible apply out_next | with_reducible intro _
           | extract_lets | split | dsimp +zetaDelta -iota only)

theorem writeSums_kept (s : State) (t : Tier) (r : Nat) (hs : Kept cs_ s) : Kept cs_ (writeSums s t r) := by
  unfold writeSums
  try extract_lets
  repeat'
    (first | with_reducible assumption | (with_reducible show Kept _ _; simp -iota -zeta only [memOk_mk, memsOk_mk])
            | (with_reducible show KeptParts _ _ _ _; simp -iota -zeta only [memsOk_mk]) | with_reducible apply memsOk_of
            | with_reducible apply cellsOk_of | with_reducible apply foldl_kept | with_reducible apply chanWrite_kept
            | with_reducible apply accDrop_kept | with_reducible apply foldl_kept | with_reducible apply foldl_snd2_kept
            | with_reducible apply foldl_fst_kept | with_reducible apply foldl_snd_kept
            | (refine pair_eq1 ?_ (by with_reducible assumption)) | (refine pair_eq2 ?_ (by with_reducible assumption))
            | (refine ans_done_eq ?_ (by with_reducible assumption)) | (refine ans_wait_eq ?_ (by with_reducible assumption))
            | with_reducible apply ans_done | with_reducible apply ans_wait | with_reducible apply ans_held
            | with_reducible apply out_next | with_reducible intro _ | extract_lets | split | dsimp +zetaDelta -iota only)

theorem endTraffic_kept (s : State) (port : Nat) (hs : Kept cs_ s) : Kept cs_ (endTraffic s port) := by
  unfold endTraffic
  try extract_lets
  repeat'
    (first | with_reducible assumption | (with_reducible show Kept _ _; simp -iota -zeta only [memOk_mk])
           | with_reducible apply memsOk_of | with_reducible apply finishWait_kept | with_reducible intro _ | extract_lets | split
           | dsimp +zetaDelta -iota only)

theorem endLoopback_kept (s : State) (l : Nat) (hs : Kept cs_ s) : Kept cs_ (endLoopback s l) := by
  unfold endLoopback
  try extract_lets
  repeat'
    (first | with_reducible assumption | (with_reducible show Kept _ _; simp -iota -zeta only [memOk_mk])
           | with_reducible apply memsOk_of | with_reducible apply finishWait_kept | with_reducible apply linkMove_kept
           | with_reducible intro _ | extract_lets | split | dsimp +zetaDelta -iota only)

theorem disarm_kept (s : State) (i : Nat) (hs : Kept cs_ s) : Kept cs_ (disarm s i) := by
  unfold disarm
  try extract_lets
  repeat'
    (first | with_reducible assumption | (with_reducible show Kept _ _; simp -iota -zeta only [memOk_mk])
           | with_reducible apply memsOk_of | with_reducible intro _ | extract_lets | split | dsimp +zetaDelta -iota only)

theorem clearWatchdog_kept (s : State) (p : Nat) (hs : Kept cs_ s) : Kept cs_ (clearWatchdog s p) := by
  unfold clearWatchdog
  try extract_lets
  repeat'
    (first | with_reducible assumption | (with_reducible show Kept _ _; simp -iota -zeta only [memOk_mk])
           | with_reducible apply memsOk_of | with_reducible apply setComp_kept | with_reducible intro _ | extract_lets | split
           | dsimp +zetaDelta -iota only)

theorem stopFeature_kept (s : State) (res : Nat) (mode : Nat) (hs : Kept cs_ s) : Kept cs_ (stopFeature s res mode) := by
  unfold stopFeature
  try extract_lets
  repeat'
    (first | with_reducible assumption | (with_reducible show Kept _ _; simp -iota -zeta only [memOk_mk])
           | with_reducible apply memsOk_of | with_reducible apply dropCadence_kept | with_reducible apply disarm_kept
           | with_reducible apply stopTrace_kept | with_reducible apply endTraffic_kept | with_reducible apply endLoopback_kept
           | with_reducible apply clearWatchdog_kept | with_reducible apply stepOff_kept | with_reducible intro _ | extract_lets | split
           | dsimp +zetaDelta -iota only)

theorem releaseOne_kept (s : State) (h : Holding) (hs : Kept cs_ s) : Kept cs_ (releaseOne s h) := by
  unfold releaseOne
  try extract_lets
  repeat'
    (first | with_reducible assumption | (with_reducible show Kept _ _; simp -iota -zeta only [memOk_mk])
           | with_reducible apply memsOk_of | with_reducible apply ungrant_kept | with_reducible apply stopFeature_kept
           | with_reducible apply writeSums_kept | with_reducible intro _ | extract_lets | split | dsimp +zetaDelta -iota only)

theorem releaseAll_kept (s : State) (p : Holding → Bool) (hs : Kept cs_ s) : Kept cs_ (releaseAll s p) := by
  unfold releaseAll
  try extract_lets
  repeat'
    (first | with_reducible assumption | (with_reducible show Kept _ _; simp -iota -zeta only [memOk_mk])
           | with_reducible apply memsOk_of | with_reducible apply releaseOne_kept | with_reducible apply foldl_kept
           | with_reducible intro _ | extract_lets | split | dsimp +zetaDelta -iota only)

theorem execRelease_kept (c : Cmd) (s : State) (hs : Kept cs_ s) : OutKept cs_ (execRelease c s) := by
  unfold execRelease
  try extract_lets
  repeat'
    (first | with_reducible assumption | (with_reducible show Kept _ _; simp -iota -zeta only [memOk_mk])
           | with_reducible apply memsOk_of | with_reducible apply firmware_kept | with_reducible apply checked_kept
           | with_reducible apply releaseAll_kept | with_reducible apply ans_done | with_reducible apply ans_wait
           | with_reducible apply out_next | with_reducible intro _ | extract_lets | split | dsimp +zetaDelta -iota only)

theorem detachFn_kept (s : State) (fn : Nat) (hs : Kept cs_ s) : Kept cs_ (detachFn s fn) := by
  unfold detachFn
  try extract_lets
  repeat'
    (first | with_reducible assumption | (with_reducible show Kept _ _; simp -iota -zeta only [memOk_mk])
           | with_reducible apply memsOk_of | with_reducible apply abortFetched_kept | with_reducible apply releaseAll_kept
           | with_reducible apply setFunc_kept | with_reducible intro _ | extract_lets | split | dsimp +zetaDelta -iota only)

theorem execDetach_kept (fn : Nat) (s : State) (hs : Kept cs_ s) : OutKept cs_ (execDetach fn s) := by
  unfold execDetach
  try extract_lets
  repeat'
    (first | with_reducible assumption | (with_reducible show Kept _ _; simp -iota -zeta only [memOk_mk])
           | with_reducible apply memsOk_of | with_reducible apply detachFn_kept | with_reducible apply ans_done
           | with_reducible apply ans_wait | with_reducible apply out_next | with_reducible intro _ | extract_lets | split
           | dsimp +zetaDelta -iota only)

theorem dropRings_kept (s : State) (fn : Nat) (hs : Kept cs_ s) : Kept cs_ (dropRings s fn) := by
  unfold dropRings
  try extract_lets
  repeat'
    (first | with_reducible assumption | (with_reducible show Kept _ _; simp -iota -zeta only [memOk_mk])
           | with_reducible apply memsOk_of | with_reducible apply setFunc_kept | with_reducible intro _ | extract_lets | split
           | dsimp +zetaDelta -iota only)

theorem execFunctionLevelReset_kept (fn : Nat) (s : State) (hs : Kept cs_ s) : OutKept cs_ (execFunctionLevelReset fn s) := by
  unfold execFunctionLevelReset
  try extract_lets
  repeat'
    (first | with_reducible assumption | (with_reducible show Kept _ _; simp -iota -zeta only [memOk_mk])
           | with_reducible apply memsOk_of | with_reducible apply releaseAll_kept | with_reducible apply dropRings_kept
           | with_reducible apply ans_done | with_reducible apply ans_wait | with_reducible apply out_next | with_reducible intro _
           | extract_lets | split | dsimp +zetaDelta -iota only)

theorem loseRings_kept (s : State) (p : Nat) (hs : Kept cs_ s) : Kept cs_ (loseRings s p) := by
  unfold loseRings
  try extract_lets
  repeat'
    (first | with_reducible assumption | (with_reducible show Kept _ _; simp -iota -zeta only [memOk_mk])
           | with_reducible apply memsOk_of | with_reducible apply abortRing_kept | with_reducible apply setRing_kept
           | with_reducible intro _ | extract_lets | split | dsimp +zetaDelta -iota only)

theorem disableVf_kept (s : State) (fn : Nat) (hs : Kept cs_ s) : Kept cs_ (disableVf s fn) := by
  unfold disableVf
  try extract_lets
  repeat'
    (first | with_reducible assumption | (with_reducible show Kept _ _; simp -iota -zeta only [memOk_mk])
           | with_reducible apply memsOk_of | with_reducible apply setFunc_kept | with_reducible apply dropRings_kept
           | with_reducible apply releaseAll_kept | with_reducible intro _ | extract_lets | split | dsimp +zetaDelta -iota only)

theorem numVfs_kept (s : State) (k : Nat) (hs : Kept cs_ s) : Kept cs_ (numVfs s k) := by
  unfold numVfs
  try extract_lets
  repeat'
    (first | with_reducible assumption | (with_reducible show Kept _ _; simp -iota -zeta only [memOk_mk])
           | with_reducible apply memsOk_of | with_reducible apply loseRings_kept | with_reducible apply disableVf_kept
           | with_reducible apply foldl_kept | with_reducible intro _ | extract_lets | split | dsimp +zetaDelta -iota only)

theorem execNumvfsWrite_kept (k : Nat) (s : State) (hs : Kept cs_ s) : OutKept cs_ (execNumvfsWrite k s) := by
  unfold execNumvfsWrite
  try extract_lets
  repeat'
    (first | with_reducible assumption | (with_reducible show Kept _ _; simp -iota -zeta only [memOk_mk])
           | with_reducible apply memsOk_of | with_reducible apply numVfs_kept | with_reducible apply ans_done
           | with_reducible apply ans_wait | with_reducible apply out_next | with_reducible intro _ | extract_lets | split
           | dsimp +zetaDelta -iota only)

theorem conPutByte_kept (s : State) (b : Byte) (hs : Kept cs_ s) : Kept cs_ (conPutByte s b) := by
  unfold conPutByte
  try extract_lets
  repeat'
    (first | with_reducible assumption | (with_reducible show Kept _ _; simp -iota -zeta only [memOk_mk])
           | with_reducible apply memsOk_of | with_reducible intro _ | extract_lets | split | dsimp +zetaDelta -iota only)

theorem conWrite_kept (s : State) (text : List Byte) (hs : Kept cs_ s) : Kept cs_ (conWrite s text) := by
  unfold conWrite
  try extract_lets
  repeat'
    (first | with_reducible assumption | (with_reducible show Kept _ _; simp -iota -zeta only [memOk_mk])
           | with_reducible apply memsOk_of | with_reducible apply setCause_kept | with_reducible apply conPutByte_kept
           | with_reducible apply foldl_kept | with_reducible intro _ | extract_lets | split | dsimp +zetaDelta -iota only)

theorem conLineDone_kept (s : State) (l : List Byte) (hs : Kept cs_ s) : Kept cs_ (conLineDone s l) := by
  unfold conLineDone
  try extract_lets
  repeat'
    (first | with_reducible assumption | (with_reducible show Kept _ _; simp -iota -zeta only [memOk_mk])
           | with_reducible apply memsOk_of | with_reducible apply conWrite_kept | with_reducible intro _ | extract_lets | split
           | dsimp +zetaDelta -iota only)

theorem conIn_kept (s : State) (b : Byte) (hs : Kept cs_ s) : Kept cs_ (conIn s b) := by
  unfold conIn
  try extract_lets
  repeat'
    (first | with_reducible assumption | (with_reducible show Kept _ _; simp -iota -zeta only [memOk_mk])
           | with_reducible apply memsOk_of | with_reducible apply conLineDone_kept | with_reducible apply setFunc_kept
           | with_reducible intro _ | extract_lets | split | dsimp +zetaDelta -iota only)

theorem execInkwConIn_kept (fn : Nat) (v : BitVec 32) (s : State) (hs : Kept cs_ s) : OutKept cs_ (execInkwConIn fn v s) := by
  unfold execInkwConIn
  try extract_lets
  repeat'
    (first | with_reducible assumption | (with_reducible show Kept _ _; simp -iota -zeta only [memOk_mk])
           | with_reducible apply memsOk_of | with_reducible apply conIn_kept | with_reducible apply ans_done
           | with_reducible apply ans_wait | with_reducible apply out_next | with_reducible intro _ | extract_lets | split
           | dsimp +zetaDelta -iota only)

end Sys2Proof.Machine
end

