-- ==== Sys2Proof/Laws/Memory.lean ====
section
/-! SUPPORT. The canonical form of both byte memories (Memory.wf): every operation over them keeps it, and the memories of State.reset
have it. -/

set_option linter.all false
namespace Sys2Proof.Machine
open Sys2Proof

/-- A state in canonical form, in the terms of the preservation lemmas. -/
theorem kept_of_wf {s : State} (h : Memory.wf s = true) : Kept s.pending s := by
  unfold Memory.wf at h
  obtain ⟨h1, h2⟩ := Bool.and_eq_true_iff.1 h
  exact ⟨⟨rfl, ⟨⟨h1, h2⟩⟩⟩⟩

theorem wf_of_kept {cs : List Instr} {s : State} (h : Kept cs s) : Memory.wf s = true := by
  unfold Memory.wf
  exact Bool.and_eq_true_iff.2 ⟨h.ok.mems.ok.cells, h.ok.mems.ok.host⟩

/-! ### The operations that store bytes -/

theorem hostPut_wf {s : State} (a : Nat) (b : List Byte) (h : Memory.wf s = true) : Memory.wf (hostPut s a b) = true :=
  wf_of_kept (hostPut_kept s a b (kept_of_wf h))

theorem hostDid_wf {s : State} (w : HostWrites) (h : Memory.wf s = true) : Memory.wf (hostDid s w) = true :=
  wf_of_kept (hostDid_kept s w (kept_of_wf h))

theorem storeGranule_wf {s : State} (k : Nat) (d : List Byte) (poison : Bool) (h : Memory.wf s = true) :
    Memory.wf (storeGranule s k d poison) = true :=
  wf_of_kept (storeGranule_kept s k d poison (kept_of_wf h))

theorem chanWrite_wf {s : State} (p : Place) (dpa : Nat) (d : List Byte) (poison : Bool) (rq : Nat) (part cls : Option Nat)
    (h : Memory.wf s = true) : Memory.wf (chanWrite s p dpa d poison rq part cls) = true :=
  wf_of_kept (chanWrite_kept s p dpa d poison rq part cls (kept_of_wf h))

theorem testChannel_wf {s : State} (key : Nat) (sampled : Bool) (h : Memory.wf s = true) : Memory.wf (testChannel s key sampled) = true :=
  wf_of_kept (testChannel_kept s key sampled (kept_of_wf h))

theorem writeBytes_wf {s : State} (rq : Requester) (dpa : Nat) (b : List Byte) (poison : Bool) (cls : Nat) (h : Memory.wf s = true) :
    Memory.wf (writeBytes s rq dpa b poison cls).2 = true :=
  wf_of_kept (writeBytes_kept s rq dpa b poison cls (kept_of_wf h))

theorem readBytes_wf {s : State} (rq : Requester) (dpa len cls : Nat) (h : Memory.wf s = true) :
    Memory.wf (readBytes s rq dpa len cls).2.2.2 = true :=
  wf_of_kept (readBytes_kept s rq dpa len cls (kept_of_wf h))

/-! ### Reset -/

theorem reset_cells_wf : cellWf (memDflt State.reset.mem) State.reset.mem.cells = true := rfl
theorem reset_host_wf : cellWf hostDflt State.reset.host = true := rfl

end Sys2Proof.Machine
end

