-- ==== Sys2Proof/Laws/State.lean ====
section
/-! SUPPORT. What the recording, posting and completing operations leave alone, one lemma for each operation and field. -/
namespace Sys2Proof.Machine
open Sys2Proof
@[simp] theorem bump_pending (s : State) (p : Nat) (i : Nat) (n : Nat) : (bump s p i n).pending = s.pending :=
  (bump_outer s p i n (Outer.refl s)).ok.pending
@[simp] theorem bump_time (s : State) (p : Nat) (i : Nat) (n : Nat) : (bump s p i n).time = s.time :=
  (bump_outer s p i n (Outer.refl s)).ok.time
@[simp] theorem bump_free (s : State) (p : Nat) (i : Nat) (n : Nat) : (bump s p i n).free = s.free :=
  (bump_outer s p i n (Outer.refl s)).ok.free
@[simp] theorem bump_hostFaults (s : State) (p : Nat) (i : Nat) (n : Nat) : (bump s p i n).hostFaults = s.hostFaults :=
  (bump_outer s p i n (Outer.refl s)).ok.hostFaults
@[simp] theorem bump_rul (s : State) (p : Nat) (i : Nat) (n : Nat) : (bump s p i n).rul = s.rul :=
  (bump_outer s p i n (Outer.refl s)).ok.rul
@[simp] theorem bump_mem (s : State) (p : Nat) (i : Nat) (n : Nat) : (bump s p i n).mem = s.mem :=
  (bump_outer s p i n (Outer.refl s)).ok.mem
@[simp] theorem bump_svc (s : State) (p : Nat) (i : Nat) (n : Nat) : (bump s p i n).svc = s.svc :=
  (bump_outer s p i n (Outer.refl s)).ok.svc
@[simp] theorem bump_ari (s : State) (p : Nat) (i : Nat) (n : Nat) : (bump s p i n).ari = s.ari :=
  (bump_outer s p i n (Outer.refl s)).ok.ari
@[simp] theorem bump_fold (s : State) (p : Nat) (i : Nat) (n : Nat) : (bump s p i n).fold = s.fold :=
  (bump_outer s p i n (Outer.refl s)).ok.fold
@[simp] theorem bump_cpu (s : State) (p : Nat) (i : Nat) (n : Nat) : (bump s p i n).cpu = s.cpu :=
  (bump_outer s p i n (Outer.refl s)).ok.cpu
@[simp] theorem bump_srv (s : State) (p : Nat) (i : Nat) (n : Nat) : (bump s p i n).srv = s.srv :=
  (bump_outer s p i n (Outer.refl s)).ok.srv
@[simp] theorem bump_stp (s : State) (p : Nat) (i : Nat) (n : Nat) : (bump s p i n).stp = s.stp :=
  (bump_outer s p i n (Outer.refl s)).ok.stp
@[simp] theorem bump_flo (s : State) (p : Nat) (i : Nat) (n : Nat) : (bump s p i n).flo = s.flo :=
  (bump_outer s p i n (Outer.refl s)).ok.flo
@[simp] theorem bump_duc (s : State) (p : Nat) (i : Nat) (n : Nat) : (bump s p i n).duc = s.duc :=
  (bump_outer s p i n (Outer.refl s)).ok.duc
@[simp] theorem bump_pwr (s : State) (p : Nat) (i : Nat) (n : Nat) : (bump s p i n).pwr = s.pwr :=
  (bump_outer s p i n (Outer.refl s)).ok.pwr
@[simp] theorem prog_pending (s : State) (unit : Nat) (event : Nat) (part : Option Nat) (cls : Option Nat) (n : Nat) : (prog s unit event part cls n).pending = s.pending :=
  (prog_outer s unit event part cls n (Outer.refl s)).ok.pending
@[simp] theorem prog_time (s : State) (unit : Nat) (event : Nat) (part : Option Nat) (cls : Option Nat) (n : Nat) : (prog s unit event part cls n).time = s.time :=
  (prog_outer s unit event part cls n (Outer.refl s)).ok.time
@[simp] theorem prog_free (s : State) (unit : Nat) (event : Nat) (part : Option Nat) (cls : Option Nat) (n : Nat) : (prog s unit event part cls n).free = s.free :=
  (prog_outer s unit event part cls n (Outer.refl s)).ok.free
@[simp] theorem prog_hostFaults (s : State) (unit : Nat) (event : Nat) (part : Option Nat) (cls : Option Nat) (n : Nat) : (prog s unit event part cls n).hostFaults = s.hostFaults :=
  (prog_outer s unit event part cls n (Outer.refl s)).ok.hostFaults
@[simp] theorem prog_rul (s : State) (unit : Nat) (event : Nat) (part : Option Nat) (cls : Option Nat) (n : Nat) : (prog s unit event part cls n).rul = s.rul :=
  (prog_outer s unit event part cls n (Outer.refl s)).ok.rul
@[simp] theorem prog_mem (s : State) (unit : Nat) (event : Nat) (part : Option Nat) (cls : Option Nat) (n : Nat) : (prog s unit event part cls n).mem = s.mem :=
  (prog_outer s unit event part cls n (Outer.refl s)).ok.mem
@[simp] theorem prog_svc (s : State) (unit : Nat) (event : Nat) (part : Option Nat) (cls : Option Nat) (n : Nat) : (prog s unit event part cls n).svc = s.svc :=
  (prog_outer s unit event part cls n (Outer.refl s)).ok.svc
@[simp] theorem prog_ari (s : State) (unit : Nat) (event : Nat) (part : Option Nat) (cls : Option Nat) (n : Nat) : (prog s unit event part cls n).ari = s.ari :=
  (prog_outer s unit event part cls n (Outer.refl s)).ok.ari
@[simp] theorem prog_fold (s : State) (unit : Nat) (event : Nat) (part : Option Nat) (cls : Option Nat) (n : Nat) : (prog s unit event part cls n).fold = s.fold :=
  (prog_outer s unit event part cls n (Outer.refl s)).ok.fold
@[simp] theorem prog_cpu (s : State) (unit : Nat) (event : Nat) (part : Option Nat) (cls : Option Nat) (n : Nat) : (prog s unit event part cls n).cpu = s.cpu :=
  (prog_outer s unit event part cls n (Outer.refl s)).ok.cpu
@[simp] theorem prog_srv (s : State) (unit : Nat) (event : Nat) (part : Option Nat) (cls : Option Nat) (n : Nat) : (prog s unit event part cls n).srv = s.srv :=
  (prog_outer s unit event part cls n (Outer.refl s)).ok.srv
@[simp] theorem prog_stp (s : State) (unit : Nat) (event : Nat) (part : Option Nat) (cls : Option Nat) (n : Nat) : (prog s unit event part cls n).stp = s.stp :=
  (prog_outer s unit event part cls n (Outer.refl s)).ok.stp
@[simp] theorem prog_flo (s : State) (unit : Nat) (event : Nat) (part : Option Nat) (cls : Option Nat) (n : Nat) : (prog s unit event part cls n).flo = s.flo :=
  (prog_outer s unit event part cls n (Outer.refl s)).ok.flo
@[simp] theorem prog_duc (s : State) (unit : Nat) (event : Nat) (part : Option Nat) (cls : Option Nat) (n : Nat) : (prog s unit event part cls n).duc = s.duc :=
  (prog_outer s unit event part cls n (Outer.refl s)).ok.duc
@[simp] theorem prog_pwr (s : State) (unit : Nat) (event : Nat) (part : Option Nat) (cls : Option Nat) (n : Nat) : (prog s unit event part cls n).pwr = s.pwr :=
  (prog_outer s unit event part cls n (Outer.refl s)).ok.pwr
@[simp] theorem blot_pending (s : State) (unit : Nat) (code : Nat) (part : Option Nat) (arg : Nat) : (blot s unit code part arg).pending = s.pending :=
  (blot_outer s unit code part arg (Outer.refl s)).ok.pending
@[simp] theorem blot_time (s : State) (unit : Nat) (code : Nat) (part : Option Nat) (arg : Nat) : (blot s unit code part arg).time = s.time :=
  (blot_outer s unit code part arg (Outer.refl s)).ok.time
@[simp] theorem blot_free (s : State) (unit : Nat) (code : Nat) (part : Option Nat) (arg : Nat) : (blot s unit code part arg).free = s.free :=
  (blot_outer s unit code part arg (Outer.refl s)).ok.free
@[simp] theorem blot_hostFaults (s : State) (unit : Nat) (code : Nat) (part : Option Nat) (arg : Nat) : (blot s unit code part arg).hostFaults = s.hostFaults :=
  (blot_outer s unit code part arg (Outer.refl s)).ok.hostFaults
@[simp] theorem blot_rul (s : State) (unit : Nat) (code : Nat) (part : Option Nat) (arg : Nat) : (blot s unit code part arg).rul = s.rul :=
  (blot_outer s unit code part arg (Outer.refl s)).ok.rul
@[simp] theorem blot_mem (s : State) (unit : Nat) (code : Nat) (part : Option Nat) (arg : Nat) : (blot s unit code part arg).mem = s.mem :=
  (blot_outer s unit code part arg (Outer.refl s)).ok.mem
@[simp] theorem blot_svc (s : State) (unit : Nat) (code : Nat) (part : Option Nat) (arg : Nat) : (blot s unit code part arg).svc = s.svc :=
  (blot_outer s unit code part arg (Outer.refl s)).ok.svc
@[simp] theorem blot_ari (s : State) (unit : Nat) (code : Nat) (part : Option Nat) (arg : Nat) : (blot s unit code part arg).ari = s.ari :=
  (blot_outer s unit code part arg (Outer.refl s)).ok.ari
@[simp] theorem blot_fold (s : State) (unit : Nat) (code : Nat) (part : Option Nat) (arg : Nat) : (blot s unit code part arg).fold = s.fold :=
  (blot_outer s unit code part arg (Outer.refl s)).ok.fold
@[simp] theorem blot_cpu (s : State) (unit : Nat) (code : Nat) (part : Option Nat) (arg : Nat) : (blot s unit code part arg).cpu = s.cpu :=
  (blot_outer s unit code part arg (Outer.refl s)).ok.cpu
@[simp] theorem blot_srv (s : State) (unit : Nat) (code : Nat) (part : Option Nat) (arg : Nat) : (blot s unit code part arg).srv = s.srv :=
  (blot_outer s unit code part arg (Outer.refl s)).ok.srv
@[simp] theorem blot_stp (s : State) (unit : Nat) (code : Nat) (part : Option Nat) (arg : Nat) : (blot s unit code part arg).stp = s.stp :=
  (blot_outer s unit code part arg (Outer.refl s)).ok.stp
@[simp] theorem blot_flo (s : State) (unit : Nat) (code : Nat) (part : Option Nat) (arg : Nat) : (blot s unit code part arg).flo = s.flo :=
  (blot_outer s unit code part arg (Outer.refl s)).ok.flo
@[simp] theorem blot_duc (s : State) (unit : Nat) (code : Nat) (part : Option Nat) (arg : Nat) : (blot s unit code part arg).duc = s.duc :=
  (blot_outer s unit code part arg (Outer.refl s)).ok.duc
@[simp] theorem blot_pwr (s : State) (unit : Nat) (code : Nat) (part : Option Nat) (arg : Nat) : (blot s unit code part arg).pwr = s.pwr :=
  (blot_outer s unit code part arg (Outer.refl s)).ok.pwr
@[simp] theorem setFunc_pending (s : State) (fn : Nat) (f : Func) : (setFunc s fn f).pending = s.pending :=
  (setFunc_outer s fn f (Outer.refl s)).ok.pending
@[simp] theorem setFunc_time (s : State) (fn : Nat) (f : Func) : (setFunc s fn f).time = s.time :=
  (setFunc_outer s fn f (Outer.refl s)).ok.time
@[simp] theorem setFunc_free (s : State) (fn : Nat) (f : Func) : (setFunc s fn f).free = s.free :=
  (setFunc_outer s fn f (Outer.refl s)).ok.free
@[simp] theorem setFunc_hostFaults (s : State) (fn : Nat) (f : Func) : (setFunc s fn f).hostFaults = s.hostFaults :=
  (setFunc_outer s fn f (Outer.refl s)).ok.hostFaults
@[simp] theorem setFunc_rul (s : State) (fn : Nat) (f : Func) : (setFunc s fn f).rul = s.rul :=
  (setFunc_outer s fn f (Outer.refl s)).ok.rul
@[simp] theorem setFunc_mem (s : State) (fn : Nat) (f : Func) : (setFunc s fn f).mem = s.mem :=
  (setFunc_outer s fn f (Outer.refl s)).ok.mem
@[simp] theorem setFunc_svc (s : State) (fn : Nat) (f : Func) : (setFunc s fn f).svc = s.svc :=
  (setFunc_outer s fn f (Outer.refl s)).ok.svc
@[simp] theorem setFunc_ari (s : State) (fn : Nat) (f : Func) : (setFunc s fn f).ari = s.ari :=
  (setFunc_outer s fn f (Outer.refl s)).ok.ari
@[simp] theorem setFunc_fold (s : State) (fn : Nat) (f : Func) : (setFunc s fn f).fold = s.fold :=
  (setFunc_outer s fn f (Outer.refl s)).ok.fold
@[simp] theorem setFunc_cpu (s : State) (fn : Nat) (f : Func) : (setFunc s fn f).cpu = s.cpu :=
  (setFunc_outer s fn f (Outer.refl s)).ok.cpu
@[simp] theorem setFunc_srv (s : State) (fn : Nat) (f : Func) : (setFunc s fn f).srv = s.srv :=
  (setFunc_outer s fn f (Outer.refl s)).ok.srv
@[simp] theorem setFunc_stp (s : State) (fn : Nat) (f : Func) : (setFunc s fn f).stp = s.stp :=
  (setFunc_outer s fn f (Outer.refl s)).ok.stp
@[simp] theorem setFunc_flo (s : State) (fn : Nat) (f : Func) : (setFunc s fn f).flo = s.flo :=
  (setFunc_outer s fn f (Outer.refl s)).ok.flo
@[simp] theorem setFunc_duc (s : State) (fn : Nat) (f : Func) : (setFunc s fn f).duc = s.duc :=
  (setFunc_outer s fn f (Outer.refl s)).ok.duc
@[simp] theorem setFunc_pwr (s : State) (fn : Nat) (f : Func) : (setFunc s fn f).pwr = s.pwr :=
  (setFunc_outer s fn f (Outer.refl s)).ok.pwr
@[simp] theorem raise_pending (s : State) (fn : Nat) (vector : Nat) : (raise s fn vector).pending = s.pending :=
  (raise_outer s fn vector (Outer.refl s)).ok.pending
@[simp] theorem raise_time (s : State) (fn : Nat) (vector : Nat) : (raise s fn vector).time = s.time :=
  (raise_outer s fn vector (Outer.refl s)).ok.time
@[simp] theorem raise_free (s : State) (fn : Nat) (vector : Nat) : (raise s fn vector).free = s.free :=
  (raise_outer s fn vector (Outer.refl s)).ok.free
@[simp] theorem raise_hostFaults (s : State) (fn : Nat) (vector : Nat) : (raise s fn vector).hostFaults = s.hostFaults :=
  (raise_outer s fn vector (Outer.refl s)).ok.hostFaults
@[simp] theorem raise_rul (s : State) (fn : Nat) (vector : Nat) : (raise s fn vector).rul = s.rul :=
  (raise_outer s fn vector (Outer.refl s)).ok.rul
@[simp] theorem raise_mem (s : State) (fn : Nat) (vector : Nat) : (raise s fn vector).mem = s.mem :=
  (raise_outer s fn vector (Outer.refl s)).ok.mem
@[simp] theorem raise_svc (s : State) (fn : Nat) (vector : Nat) : (raise s fn vector).svc = s.svc :=
  (raise_outer s fn vector (Outer.refl s)).ok.svc
@[simp] theorem raise_ari (s : State) (fn : Nat) (vector : Nat) : (raise s fn vector).ari = s.ari :=
  (raise_outer s fn vector (Outer.refl s)).ok.ari
@[simp] theorem raise_fold (s : State) (fn : Nat) (vector : Nat) : (raise s fn vector).fold = s.fold :=
  (raise_outer s fn vector (Outer.refl s)).ok.fold
@[simp] theorem raise_cpu (s : State) (fn : Nat) (vector : Nat) : (raise s fn vector).cpu = s.cpu :=
  (raise_outer s fn vector (Outer.refl s)).ok.cpu
@[simp] theorem raise_srv (s : State) (fn : Nat) (vector : Nat) : (raise s fn vector).srv = s.srv :=
  (raise_outer s fn vector (Outer.refl s)).ok.srv
@[simp] theorem raise_stp (s : State) (fn : Nat) (vector : Nat) : (raise s fn vector).stp = s.stp :=
  (raise_outer s fn vector (Outer.refl s)).ok.stp
@[simp] theorem raise_flo (s : State) (fn : Nat) (vector : Nat) : (raise s fn vector).flo = s.flo :=
  (raise_outer s fn vector (Outer.refl s)).ok.flo
@[simp] theorem raise_duc (s : State) (fn : Nat) (vector : Nat) : (raise s fn vector).duc = s.duc :=
  (raise_outer s fn vector (Outer.refl s)).ok.duc
@[simp] theorem raise_pwr (s : State) (fn : Nat) (vector : Nat) : (raise s fn vector).pwr = s.pwr :=
  (raise_outer s fn vector (Outer.refl s)).ok.pwr
@[simp] theorem setCause_pending (s : State) (fn : Nat) (bit : Nat) : (setCause s fn bit).pending = s.pending :=
  (setCause_outer s fn bit (Outer.refl s)).ok.pending
@[simp] theorem setCause_time (s : State) (fn : Nat) (bit : Nat) : (setCause s fn bit).time = s.time :=
  (setCause_outer s fn bit (Outer.refl s)).ok.time
@[simp] theorem setCause_free (s : State) (fn : Nat) (bit : Nat) : (setCause s fn bit).free = s.free :=
  (setCause_outer s fn bit (Outer.refl s)).ok.free
@[simp] theorem setCause_hostFaults (s : State) (fn : Nat) (bit : Nat) : (setCause s fn bit).hostFaults = s.hostFaults :=
  (setCause_outer s fn bit (Outer.refl s)).ok.hostFaults
@[simp] theorem setCause_rul (s : State) (fn : Nat) (bit : Nat) : (setCause s fn bit).rul = s.rul :=
  (setCause_outer s fn bit (Outer.refl s)).ok.rul
@[simp] theorem setCause_mem (s : State) (fn : Nat) (bit : Nat) : (setCause s fn bit).mem = s.mem :=
  (setCause_outer s fn bit (Outer.refl s)).ok.mem
@[simp] theorem setCause_svc (s : State) (fn : Nat) (bit : Nat) : (setCause s fn bit).svc = s.svc :=
  (setCause_outer s fn bit (Outer.refl s)).ok.svc
@[simp] theorem setCause_ari (s : State) (fn : Nat) (bit : Nat) : (setCause s fn bit).ari = s.ari :=
  (setCause_outer s fn bit (Outer.refl s)).ok.ari
@[simp] theorem setCause_fold (s : State) (fn : Nat) (bit : Nat) : (setCause s fn bit).fold = s.fold :=
  (setCause_outer s fn bit (Outer.refl s)).ok.fold
@[simp] theorem setCause_cpu (s : State) (fn : Nat) (bit : Nat) : (setCause s fn bit).cpu = s.cpu :=
  (setCause_outer s fn bit (Outer.refl s)).ok.cpu
@[simp] theorem setCause_srv (s : State) (fn : Nat) (bit : Nat) : (setCause s fn bit).srv = s.srv :=
  (setCause_outer s fn bit (Outer.refl s)).ok.srv
@[simp] theorem setCause_stp (s : State) (fn : Nat) (bit : Nat) : (setCause s fn bit).stp = s.stp :=
  (setCause_outer s fn bit (Outer.refl s)).ok.stp
@[simp] theorem setCause_flo (s : State) (fn : Nat) (bit : Nat) : (setCause s fn bit).flo = s.flo :=
  (setCause_outer s fn bit (Outer.refl s)).ok.flo
@[simp] theorem setCause_duc (s : State) (fn : Nat) (bit : Nat) : (setCause s fn bit).duc = s.duc :=
  (setCause_outer s fn bit (Outer.refl s)).ok.duc
@[simp] theorem setCause_pwr (s : State) (fn : Nat) (bit : Nat) : (setCause s fn bit).pwr = s.pwr :=
  (setCause_outer s fn bit (Outer.refl s)).ok.pwr
@[simp] theorem setFault_pending (s : State) (fn : Nat) (reason : Nat) (detail : Nat) : (setFault s fn reason detail).pending = s.pending :=
  (setFault_outer s fn reason detail (Outer.refl s)).ok.pending
@[simp] theorem setFault_time (s : State) (fn : Nat) (reason : Nat) (detail : Nat) : (setFault s fn reason detail).time = s.time :=
  (setFault_outer s fn reason detail (Outer.refl s)).ok.time
@[simp] theorem setFault_free (s : State) (fn : Nat) (reason : Nat) (detail : Nat) : (setFault s fn reason detail).free = s.free :=
  (setFault_outer s fn reason detail (Outer.refl s)).ok.free
@[simp] theorem setFault_hostFaults (s : State) (fn : Nat) (reason : Nat) (detail : Nat) : (setFault s fn reason detail).hostFaults = s.hostFaults :=
  (setFault_outer s fn reason detail (Outer.refl s)).ok.hostFaults
@[simp] theorem setFault_rul (s : State) (fn : Nat) (reason : Nat) (detail : Nat) : (setFault s fn reason detail).rul = s.rul :=
  (setFault_outer s fn reason detail (Outer.refl s)).ok.rul
@[simp] theorem setFault_mem (s : State) (fn : Nat) (reason : Nat) (detail : Nat) : (setFault s fn reason detail).mem = s.mem :=
  (setFault_outer s fn reason detail (Outer.refl s)).ok.mem
@[simp] theorem setFault_svc (s : State) (fn : Nat) (reason : Nat) (detail : Nat) : (setFault s fn reason detail).svc = s.svc :=
  (setFault_outer s fn reason detail (Outer.refl s)).ok.svc
@[simp] theorem setFault_ari (s : State) (fn : Nat) (reason : Nat) (detail : Nat) : (setFault s fn reason detail).ari = s.ari :=
  (setFault_outer s fn reason detail (Outer.refl s)).ok.ari
@[simp] theorem setFault_fold (s : State) (fn : Nat) (reason : Nat) (detail : Nat) : (setFault s fn reason detail).fold = s.fold :=
  (setFault_outer s fn reason detail (Outer.refl s)).ok.fold
@[simp] theorem setFault_cpu (s : State) (fn : Nat) (reason : Nat) (detail : Nat) : (setFault s fn reason detail).cpu = s.cpu :=
  (setFault_outer s fn reason detail (Outer.refl s)).ok.cpu
@[simp] theorem setFault_srv (s : State) (fn : Nat) (reason : Nat) (detail : Nat) : (setFault s fn reason detail).srv = s.srv :=
  (setFault_outer s fn reason detail (Outer.refl s)).ok.srv
@[simp] theorem setFault_stp (s : State) (fn : Nat) (reason : Nat) (detail : Nat) : (setFault s fn reason detail).stp = s.stp :=
  (setFault_outer s fn reason detail (Outer.refl s)).ok.stp
@[simp] theorem setFault_flo (s : State) (fn : Nat) (reason : Nat) (detail : Nat) : (setFault s fn reason detail).flo = s.flo :=
  (setFault_outer s fn reason detail (Outer.refl s)).ok.flo
@[simp] theorem setFault_duc (s : State) (fn : Nat) (reason : Nat) (detail : Nat) : (setFault s fn reason detail).duc = s.duc :=
  (setFault_outer s fn reason detail (Outer.refl s)).ok.duc
@[simp] theorem setFault_pwr (s : State) (fn : Nat) (reason : Nat) (detail : Nat) : (setFault s fn reason detail).pwr = s.pwr :=
  (setFault_outer s fn reason detail (Outer.refl s)).ok.pwr
@[simp] theorem setState_pending (s : State) (st : BitVec 4) : (setState s st).pending = s.pending :=
  (setState_outer s st (Outer.refl s)).ok.pending
@[simp] theorem setState_time (s : State) (st : BitVec 4) : (setState s st).time = s.time :=
  (setState_outer s st (Outer.refl s)).ok.time
@[simp] theorem setState_free (s : State) (st : BitVec 4) : (setState s st).free = s.free :=
  (setState_outer s st (Outer.refl s)).ok.free
@[simp] theorem setState_hostFaults (s : State) (st : BitVec 4) : (setState s st).hostFaults = s.hostFaults :=
  (setState_outer s st (Outer.refl s)).ok.hostFaults
@[simp] theorem setState_rul (s : State) (st : BitVec 4) : (setState s st).rul = s.rul :=
  (setState_outer s st (Outer.refl s)).ok.rul
@[simp] theorem setState_mem (s : State) (st : BitVec 4) : (setState s st).mem = s.mem :=
  (setState_outer s st (Outer.refl s)).ok.mem
@[simp] theorem setState_svc (s : State) (st : BitVec 4) : (setState s st).svc = s.svc :=
  (setState_outer s st (Outer.refl s)).ok.svc
@[simp] theorem setState_ari (s : State) (st : BitVec 4) : (setState s st).ari = s.ari :=
  (setState_outer s st (Outer.refl s)).ok.ari
@[simp] theorem setState_fold (s : State) (st : BitVec 4) : (setState s st).fold = s.fold :=
  (setState_outer s st (Outer.refl s)).ok.fold
@[simp] theorem setState_cpu (s : State) (st : BitVec 4) : (setState s st).cpu = s.cpu :=
  (setState_outer s st (Outer.refl s)).ok.cpu
@[simp] theorem setState_srv (s : State) (st : BitVec 4) : (setState s st).srv = s.srv :=
  (setState_outer s st (Outer.refl s)).ok.srv
@[simp] theorem setState_stp (s : State) (st : BitVec 4) : (setState s st).stp = s.stp :=
  (setState_outer s st (Outer.refl s)).ok.stp
@[simp] theorem setState_flo (s : State) (st : BitVec 4) : (setState s st).flo = s.flo :=
  (setState_outer s st (Outer.refl s)).ok.flo
@[simp] theorem setState_duc (s : State) (st : BitVec 4) : (setState s st).duc = s.duc :=
  (setState_outer s st (Outer.refl s)).ok.duc
@[simp] theorem setState_pwr (s : State) (st : BitVec 4) : (setState s st).pwr = s.pwr :=
  (setState_outer s st (Outer.refl s)).ok.pwr
@[simp] theorem hostPut_pending (s : State) (a : Nat) (b : List Byte) : (hostPut s a b).pending = s.pending :=
  (hostPut_outer s a b (Outer.refl s)).ok.pending
@[simp] theorem hostPut_time (s : State) (a : Nat) (b : List Byte) : (hostPut s a b).time = s.time :=
  (hostPut_outer s a b (Outer.refl s)).ok.time
@[simp] theorem hostPut_free (s : State) (a : Nat) (b : List Byte) : (hostPut s a b).free = s.free :=
  (hostPut_outer s a b (Outer.refl s)).ok.free
@[simp] theorem hostPut_hostFaults (s : State) (a : Nat) (b : List Byte) : (hostPut s a b).hostFaults = s.hostFaults :=
  (hostPut_outer s a b (Outer.refl s)).ok.hostFaults
@[simp] theorem hostPut_rul (s : State) (a : Nat) (b : List Byte) : (hostPut s a b).rul = s.rul :=
  (hostPut_outer s a b (Outer.refl s)).ok.rul
@[simp] theorem hostPut_mem (s : State) (a : Nat) (b : List Byte) : (hostPut s a b).mem = s.mem :=
  (hostPut_outer s a b (Outer.refl s)).ok.mem
@[simp] theorem hostPut_svc (s : State) (a : Nat) (b : List Byte) : (hostPut s a b).svc = s.svc :=
  (hostPut_outer s a b (Outer.refl s)).ok.svc
@[simp] theorem hostPut_ari (s : State) (a : Nat) (b : List Byte) : (hostPut s a b).ari = s.ari :=
  (hostPut_outer s a b (Outer.refl s)).ok.ari
@[simp] theorem hostPut_fold (s : State) (a : Nat) (b : List Byte) : (hostPut s a b).fold = s.fold :=
  (hostPut_outer s a b (Outer.refl s)).ok.fold
@[simp] theorem hostPut_cpu (s : State) (a : Nat) (b : List Byte) : (hostPut s a b).cpu = s.cpu :=
  (hostPut_outer s a b (Outer.refl s)).ok.cpu
@[simp] theorem hostPut_srv (s : State) (a : Nat) (b : List Byte) : (hostPut s a b).srv = s.srv :=
  (hostPut_outer s a b (Outer.refl s)).ok.srv
@[simp] theorem hostPut_stp (s : State) (a : Nat) (b : List Byte) : (hostPut s a b).stp = s.stp :=
  (hostPut_outer s a b (Outer.refl s)).ok.stp
@[simp] theorem hostPut_flo (s : State) (a : Nat) (b : List Byte) : (hostPut s a b).flo = s.flo :=
  (hostPut_outer s a b (Outer.refl s)).ok.flo
@[simp] theorem hostPut_duc (s : State) (a : Nat) (b : List Byte) : (hostPut s a b).duc = s.duc :=
  (hostPut_outer s a b (Outer.refl s)).ok.duc
@[simp] theorem hostPut_pwr (s : State) (a : Nat) (b : List Byte) : (hostPut s a b).pwr = s.pwr :=
  (hostPut_outer s a b (Outer.refl s)).ok.pwr
@[simp] theorem setRing_pending (s : State) (fn : Nat) (n : Nat) (r : Ring) : (setRing s fn n r).pending = s.pending :=
  (setRing_outer s fn n r (Outer.refl s)).ok.pending
@[simp] theorem setRing_time (s : State) (fn : Nat) (n : Nat) (r : Ring) : (setRing s fn n r).time = s.time :=
  (setRing_outer s fn n r (Outer.refl s)).ok.time
@[simp] theorem setRing_free (s : State) (fn : Nat) (n : Nat) (r : Ring) : (setRing s fn n r).free = s.free :=
  (setRing_outer s fn n r (Outer.refl s)).ok.free
@[simp] theorem setRing_hostFaults (s : State) (fn : Nat) (n : Nat) (r : Ring) : (setRing s fn n r).hostFaults = s.hostFaults :=
  (setRing_outer s fn n r (Outer.refl s)).ok.hostFaults
@[simp] theorem setRing_rul (s : State) (fn : Nat) (n : Nat) (r : Ring) : (setRing s fn n r).rul = s.rul :=
  (setRing_outer s fn n r (Outer.refl s)).ok.rul
@[simp] theorem setRing_mem (s : State) (fn : Nat) (n : Nat) (r : Ring) : (setRing s fn n r).mem = s.mem :=
  (setRing_outer s fn n r (Outer.refl s)).ok.mem
@[simp] theorem setRing_svc (s : State) (fn : Nat) (n : Nat) (r : Ring) : (setRing s fn n r).svc = s.svc :=
  (setRing_outer s fn n r (Outer.refl s)).ok.svc
@[simp] theorem setRing_ari (s : State) (fn : Nat) (n : Nat) (r : Ring) : (setRing s fn n r).ari = s.ari :=
  (setRing_outer s fn n r (Outer.refl s)).ok.ari
@[simp] theorem setRing_fold (s : State) (fn : Nat) (n : Nat) (r : Ring) : (setRing s fn n r).fold = s.fold :=
  (setRing_outer s fn n r (Outer.refl s)).ok.fold
@[simp] theorem setRing_cpu (s : State) (fn : Nat) (n : Nat) (r : Ring) : (setRing s fn n r).cpu = s.cpu :=
  (setRing_outer s fn n r (Outer.refl s)).ok.cpu
@[simp] theorem setRing_srv (s : State) (fn : Nat) (n : Nat) (r : Ring) : (setRing s fn n r).srv = s.srv :=
  (setRing_outer s fn n r (Outer.refl s)).ok.srv
@[simp] theorem setRing_stp (s : State) (fn : Nat) (n : Nat) (r : Ring) : (setRing s fn n r).stp = s.stp :=
  (setRing_outer s fn n r (Outer.refl s)).ok.stp
@[simp] theorem setRing_flo (s : State) (fn : Nat) (n : Nat) (r : Ring) : (setRing s fn n r).flo = s.flo :=
  (setRing_outer s fn n r (Outer.refl s)).ok.flo
@[simp] theorem setRing_duc (s : State) (fn : Nat) (n : Nat) (r : Ring) : (setRing s fn n r).duc = s.duc :=
  (setRing_outer s fn n r (Outer.refl s)).ok.duc
@[simp] theorem setRing_pwr (s : State) (fn : Nat) (n : Nat) (r : Ring) : (setRing s fn n r).pwr = s.pwr :=
  (setRing_outer s fn n r (Outer.refl s)).ok.pwr
@[simp] theorem countIrq_pending (s : State) (fn : Nat) (n : Nat) (irq : Bool) : (countIrq s fn n irq).pending = s.pending :=
  (countIrq_outer s fn n irq (Outer.refl s)).ok.pending
@[simp] theorem countIrq_time (s : State) (fn : Nat) (n : Nat) (irq : Bool) : (countIrq s fn n irq).time = s.time :=
  (countIrq_outer s fn n irq (Outer.refl s)).ok.time
@[simp] theorem countIrq_free (s : State) (fn : Nat) (n : Nat) (irq : Bool) : (countIrq s fn n irq).free = s.free :=
  (countIrq_outer s fn n irq (Outer.refl s)).ok.free
@[simp] theorem countIrq_hostFaults (s : State) (fn : Nat) (n : Nat) (irq : Bool) : (countIrq s fn n irq).hostFaults = s.hostFaults :=
  (countIrq_outer s fn n irq (Outer.refl s)).ok.hostFaults
@[simp] theorem countIrq_rul (s : State) (fn : Nat) (n : Nat) (irq : Bool) : (countIrq s fn n irq).rul = s.rul :=
  (countIrq_outer s fn n irq (Outer.refl s)).ok.rul
@[simp] theorem countIrq_mem (s : State) (fn : Nat) (n : Nat) (irq : Bool) : (countIrq s fn n irq).mem = s.mem :=
  (countIrq_outer s fn n irq (Outer.refl s)).ok.mem
@[simp] theorem countIrq_svc (s : State) (fn : Nat) (n : Nat) (irq : Bool) : (countIrq s fn n irq).svc = s.svc :=
  (countIrq_outer s fn n irq (Outer.refl s)).ok.svc
@[simp] theorem countIrq_ari (s : State) (fn : Nat) (n : Nat) (irq : Bool) : (countIrq s fn n irq).ari = s.ari :=
  (countIrq_outer s fn n irq (Outer.refl s)).ok.ari
@[simp] theorem countIrq_fold (s : State) (fn : Nat) (n : Nat) (irq : Bool) : (countIrq s fn n irq).fold = s.fold :=
  (countIrq_outer s fn n irq (Outer.refl s)).ok.fold
@[simp] theorem countIrq_cpu (s : State) (fn : Nat) (n : Nat) (irq : Bool) : (countIrq s fn n irq).cpu = s.cpu :=
  (countIrq_outer s fn n irq (Outer.refl s)).ok.cpu
@[simp] theorem countIrq_srv (s : State) (fn : Nat) (n : Nat) (irq : Bool) : (countIrq s fn n irq).srv = s.srv :=
  (countIrq_outer s fn n irq (Outer.refl s)).ok.srv
@[simp] theorem countIrq_stp (s : State) (fn : Nat) (n : Nat) (irq : Bool) : (countIrq s fn n irq).stp = s.stp :=
  (countIrq_outer s fn n irq (Outer.refl s)).ok.stp
@[simp] theorem countIrq_flo (s : State) (fn : Nat) (n : Nat) (irq : Bool) : (countIrq s fn n irq).flo = s.flo :=
  (countIrq_outer s fn n irq (Outer.refl s)).ok.flo
@[simp] theorem countIrq_duc (s : State) (fn : Nat) (n : Nat) (irq : Bool) : (countIrq s fn n irq).duc = s.duc :=
  (countIrq_outer s fn n irq (Outer.refl s)).ok.duc
@[simp] theorem countIrq_pwr (s : State) (fn : Nat) (n : Nat) (irq : Bool) : (countIrq s fn n irq).pwr = s.pwr :=
  (countIrq_outer s fn n irq (Outer.refl s)).ok.pwr
@[simp] theorem drainCompletions_pending (s : State) (fn : Nat) (n : Nat) : (drainCompletions s fn n).pending = s.pending :=
  (drainCompletions_outer s fn n (Outer.refl s)).ok.pending
@[simp] theorem drainCompletions_time (s : State) (fn : Nat) (n : Nat) : (drainCompletions s fn n).time = s.time :=
  (drainCompletions_outer s fn n (Outer.refl s)).ok.time
@[simp] theorem drainCompletions_free (s : State) (fn : Nat) (n : Nat) : (drainCompletions s fn n).free = s.free :=
  (drainCompletions_outer s fn n (Outer.refl s)).ok.free
@[simp] theorem drainCompletions_hostFaults (s : State) (fn : Nat) (n : Nat) : (drainCompletions s fn n).hostFaults = s.hostFaults :=
  (drainCompletions_outer s fn n (Outer.refl s)).ok.hostFaults
@[simp] theorem drainCompletions_rul (s : State) (fn : Nat) (n : Nat) : (drainCompletions s fn n).rul = s.rul :=
  (drainCompletions_outer s fn n (Outer.refl s)).ok.rul
@[simp] theorem drainCompletions_mem (s : State) (fn : Nat) (n : Nat) : (drainCompletions s fn n).mem = s.mem :=
  (drainCompletions_outer s fn n (Outer.refl s)).ok.mem
@[simp] theorem drainCompletions_svc (s : State) (fn : Nat) (n : Nat) : (drainCompletions s fn n).svc = s.svc :=
  (drainCompletions_outer s fn n (Outer.refl s)).ok.svc
@[simp] theorem drainCompletions_ari (s : State) (fn : Nat) (n : Nat) : (drainCompletions s fn n).ari = s.ari :=
  (drainCompletions_outer s fn n (Outer.refl s)).ok.ari
@[simp] theorem drainCompletions_fold (s : State) (fn : Nat) (n : Nat) : (drainCompletions s fn n).fold = s.fold :=
  (drainCompletions_outer s fn n (Outer.refl s)).ok.fold
@[simp] theorem drainCompletions_cpu (s : State) (fn : Nat) (n : Nat) : (drainCompletions s fn n).cpu = s.cpu :=
  (drainCompletions_outer s fn n (Outer.refl s)).ok.cpu
@[simp] theorem drainCompletions_srv (s : State) (fn : Nat) (n : Nat) : (drainCompletions s fn n).srv = s.srv :=
  (drainCompletions_outer s fn n (Outer.refl s)).ok.srv
@[simp] theorem drainCompletions_stp (s : State) (fn : Nat) (n : Nat) : (drainCompletions s fn n).stp = s.stp :=
  (drainCompletions_outer s fn n (Outer.refl s)).ok.stp
@[simp] theorem drainCompletions_flo (s : State) (fn : Nat) (n : Nat) : (drainCompletions s fn n).flo = s.flo :=
  (drainCompletions_outer s fn n (Outer.refl s)).ok.flo
@[simp] theorem drainCompletions_duc (s : State) (fn : Nat) (n : Nat) : (drainCompletions s fn n).duc = s.duc :=
  (drainCompletions_outer s fn n (Outer.refl s)).ok.duc
@[simp] theorem drainCompletions_pwr (s : State) (fn : Nat) (n : Nat) : (drainCompletions s fn n).pwr = s.pwr :=
  (drainCompletions_outer s fn n (Outer.refl s)).ok.pwr
@[simp] theorem complete_pending (s : State) (c : Cmd) (status : Nat) (result : List Byte) : (complete s c status result).pending = s.pending :=
  (complete_outer s c status result (Outer.refl s)).ok.pending
@[simp] theorem complete_time (s : State) (c : Cmd) (status : Nat) (result : List Byte) : (complete s c status result).time = s.time :=
  (complete_outer s c status result (Outer.refl s)).ok.time
@[simp] theorem complete_free (s : State) (c : Cmd) (status : Nat) (result : List Byte) : (complete s c status result).free = s.free :=
  (complete_outer s c status result (Outer.refl s)).ok.free
@[simp] theorem complete_hostFaults (s : State) (c : Cmd) (status : Nat) (result : List Byte) : (complete s c status result).hostFaults = s.hostFaults :=
  (complete_outer s c status result (Outer.refl s)).ok.hostFaults
@[simp] theorem complete_rul (s : State) (c : Cmd) (status : Nat) (result : List Byte) : (complete s c status result).rul = s.rul :=
  (complete_outer s c status result (Outer.refl s)).ok.rul
@[simp] theorem complete_mem (s : State) (c : Cmd) (status : Nat) (result : List Byte) : (complete s c status result).mem = s.mem :=
  (complete_outer s c status result (Outer.refl s)).ok.mem
@[simp] theorem complete_svc (s : State) (c : Cmd) (status : Nat) (result : List Byte) : (complete s c status result).svc = s.svc :=
  (complete_outer s c status result (Outer.refl s)).ok.svc
@[simp] theorem complete_ari (s : State) (c : Cmd) (status : Nat) (result : List Byte) : (complete s c status result).ari = s.ari :=
  (complete_outer s c status result (Outer.refl s)).ok.ari
@[simp] theorem complete_fold (s : State) (c : Cmd) (status : Nat) (result : List Byte) : (complete s c status result).fold = s.fold :=
  (complete_outer s c status result (Outer.refl s)).ok.fold
@[simp] theorem complete_cpu (s : State) (c : Cmd) (status : Nat) (result : List Byte) : (complete s c status result).cpu = s.cpu :=
  (complete_outer s c status result (Outer.refl s)).ok.cpu
@[simp] theorem complete_srv (s : State) (c : Cmd) (status : Nat) (result : List Byte) : (complete s c status result).srv = s.srv :=
  (complete_outer s c status result (Outer.refl s)).ok.srv
@[simp] theorem complete_stp (s : State) (c : Cmd) (status : Nat) (result : List Byte) : (complete s c status result).stp = s.stp :=
  (complete_outer s c status result (Outer.refl s)).ok.stp
@[simp] theorem complete_flo (s : State) (c : Cmd) (status : Nat) (result : List Byte) : (complete s c status result).flo = s.flo :=
  (complete_outer s c status result (Outer.refl s)).ok.flo
@[simp] theorem complete_duc (s : State) (c : Cmd) (status : Nat) (result : List Byte) : (complete s c status result).duc = s.duc :=
  (complete_outer s c status result (Outer.refl s)).ok.duc
@[simp] theorem complete_pwr (s : State) (c : Cmd) (status : Nat) (result : List Byte) : (complete s c status result).pwr = s.pwr :=
  (complete_outer s c status result (Outer.refl s)).ok.pwr
@[simp] theorem drainEvents_pending (s : State) (fn : Nat) : (drainEvents s fn).pending = s.pending :=
  (drainEvents_outer s fn (Outer.refl s)).ok.pending
@[simp] theorem drainEvents_time (s : State) (fn : Nat) : (drainEvents s fn).time = s.time :=
  (drainEvents_outer s fn (Outer.refl s)).ok.time
@[simp] theorem drainEvents_free (s : State) (fn : Nat) : (drainEvents s fn).free = s.free :=
  (drainEvents_outer s fn (Outer.refl s)).ok.free
@[simp] theorem drainEvents_hostFaults (s : State) (fn : Nat) : (drainEvents s fn).hostFaults = s.hostFaults :=
  (drainEvents_outer s fn (Outer.refl s)).ok.hostFaults
@[simp] theorem drainEvents_rul (s : State) (fn : Nat) : (drainEvents s fn).rul = s.rul :=
  (drainEvents_outer s fn (Outer.refl s)).ok.rul
@[simp] theorem drainEvents_mem (s : State) (fn : Nat) : (drainEvents s fn).mem = s.mem :=
  (drainEvents_outer s fn (Outer.refl s)).ok.mem
@[simp] theorem drainEvents_svc (s : State) (fn : Nat) : (drainEvents s fn).svc = s.svc :=
  (drainEvents_outer s fn (Outer.refl s)).ok.svc
@[simp] theorem drainEvents_ari (s : State) (fn : Nat) : (drainEvents s fn).ari = s.ari :=
  (drainEvents_outer s fn (Outer.refl s)).ok.ari
@[simp] theorem drainEvents_fold (s : State) (fn : Nat) : (drainEvents s fn).fold = s.fold :=
  (drainEvents_outer s fn (Outer.refl s)).ok.fold
@[simp] theorem drainEvents_cpu (s : State) (fn : Nat) : (drainEvents s fn).cpu = s.cpu :=
  (drainEvents_outer s fn (Outer.refl s)).ok.cpu
@[simp] theorem drainEvents_srv (s : State) (fn : Nat) : (drainEvents s fn).srv = s.srv :=
  (drainEvents_outer s fn (Outer.refl s)).ok.srv
@[simp] theorem drainEvents_stp (s : State) (fn : Nat) : (drainEvents s fn).stp = s.stp :=
  (drainEvents_outer s fn (Outer.refl s)).ok.stp
@[simp] theorem drainEvents_flo (s : State) (fn : Nat) : (drainEvents s fn).flo = s.flo :=
  (drainEvents_outer s fn (Outer.refl s)).ok.flo
@[simp] theorem drainEvents_duc (s : State) (fn : Nat) : (drainEvents s fn).duc = s.duc :=
  (drainEvents_outer s fn (Outer.refl s)).ok.duc
@[simp] theorem drainEvents_pwr (s : State) (fn : Nat) : (drainEvents s fn).pwr = s.pwr :=
  (drainEvents_outer s fn (Outer.refl s)).ok.pwr
@[simp] theorem postAt_pending (s : State) (at_ : Stamp) (code : Nat) (part : Nat) (data : List Byte) (droppable : Bool) : (postAt s at_ code part data droppable).pending = s.pending :=
  (postAt_outer s at_ code part data droppable (Outer.refl s)).ok.pending
@[simp] theorem postAt_time (s : State) (at_ : Stamp) (code : Nat) (part : Nat) (data : List Byte) (droppable : Bool) : (postAt s at_ code part data droppable).time = s.time :=
  (postAt_outer s at_ code part data droppable (Outer.refl s)).ok.time
@[simp] theorem postAt_free (s : State) (at_ : Stamp) (code : Nat) (part : Nat) (data : List Byte) (droppable : Bool) : (postAt s at_ code part data droppable).free = s.free :=
  (postAt_outer s at_ code part data droppable (Outer.refl s)).ok.free
@[simp] theorem postAt_hostFaults (s : State) (at_ : Stamp) (code : Nat) (part : Nat) (data : List Byte) (droppable : Bool) : (postAt s at_ code part data droppable).hostFaults = s.hostFaults :=
  (postAt_outer s at_ code part data droppable (Outer.refl s)).ok.hostFaults
@[simp] theorem postAt_rul (s : State) (at_ : Stamp) (code : Nat) (part : Nat) (data : List Byte) (droppable : Bool) : (postAt s at_ code part data droppable).rul = s.rul :=
  (postAt_outer s at_ code part data droppable (Outer.refl s)).ok.rul
@[simp] theorem postAt_mem (s : State) (at_ : Stamp) (code : Nat) (part : Nat) (data : List Byte) (droppable : Bool) : (postAt s at_ code part data droppable).mem = s.mem :=
  (postAt_outer s at_ code part data droppable (Outer.refl s)).ok.mem
@[simp] theorem postAt_svc (s : State) (at_ : Stamp) (code : Nat) (part : Nat) (data : List Byte) (droppable : Bool) : (postAt s at_ code part data droppable).svc = s.svc :=
  (postAt_outer s at_ code part data droppable (Outer.refl s)).ok.svc
@[simp] theorem postAt_ari (s : State) (at_ : Stamp) (code : Nat) (part : Nat) (data : List Byte) (droppable : Bool) : (postAt s at_ code part data droppable).ari = s.ari :=
  (postAt_outer s at_ code part data droppable (Outer.refl s)).ok.ari
@[simp] theorem postAt_fold (s : State) (at_ : Stamp) (code : Nat) (part : Nat) (data : List Byte) (droppable : Bool) : (postAt s at_ code part data droppable).fold = s.fold :=
  (postAt_outer s at_ code part data droppable (Outer.refl s)).ok.fold
@[simp] theorem postAt_cpu (s : State) (at_ : Stamp) (code : Nat) (part : Nat) (data : List Byte) (droppable : Bool) : (postAt s at_ code part data droppable).cpu = s.cpu :=
  (postAt_outer s at_ code part data droppable (Outer.refl s)).ok.cpu
@[simp] theorem postAt_srv (s : State) (at_ : Stamp) (code : Nat) (part : Nat) (data : List Byte) (droppable : Bool) : (postAt s at_ code part data droppable).srv = s.srv :=
  (postAt_outer s at_ code part data droppable (Outer.refl s)).ok.srv
@[simp] theorem postAt_stp (s : State) (at_ : Stamp) (code : Nat) (part : Nat) (data : List Byte) (droppable : Bool) : (postAt s at_ code part data droppable).stp = s.stp :=
  (postAt_outer s at_ code part data droppable (Outer.refl s)).ok.stp
@[simp] theorem postAt_flo (s : State) (at_ : Stamp) (code : Nat) (part : Nat) (data : List Byte) (droppable : Bool) : (postAt s at_ code part data droppable).flo = s.flo :=
  (postAt_outer s at_ code part data droppable (Outer.refl s)).ok.flo
@[simp] theorem postAt_duc (s : State) (at_ : Stamp) (code : Nat) (part : Nat) (data : List Byte) (droppable : Bool) : (postAt s at_ code part data droppable).duc = s.duc :=
  (postAt_outer s at_ code part data droppable (Outer.refl s)).ok.duc
@[simp] theorem postAt_pwr (s : State) (at_ : Stamp) (code : Nat) (part : Nat) (data : List Byte) (droppable : Bool) : (postAt s at_ code part data droppable).pwr = s.pwr :=
  (postAt_outer s at_ code part data droppable (Outer.refl s)).ok.pwr
@[simp] theorem post_pending (s : State) (code : Nat) (part : Nat) (data : List Byte) (droppable : Bool) : (post s code part data droppable).pending = s.pending :=
  (post_outer s code part data droppable (Outer.refl s)).ok.pending
@[simp] theorem post_time (s : State) (code : Nat) (part : Nat) (data : List Byte) (droppable : Bool) : (post s code part data droppable).time = s.time :=
  (post_outer s code part data droppable (Outer.refl s)).ok.time
@[simp] theorem post_free (s : State) (code : Nat) (part : Nat) (data : List Byte) (droppable : Bool) : (post s code part data droppable).free = s.free :=
  (post_outer s code part data droppable (Outer.refl s)).ok.free
@[simp] theorem post_hostFaults (s : State) (code : Nat) (part : Nat) (data : List Byte) (droppable : Bool) : (post s code part data droppable).hostFaults = s.hostFaults :=
  (post_outer s code part data droppable (Outer.refl s)).ok.hostFaults
@[simp] theorem post_rul (s : State) (code : Nat) (part : Nat) (data : List Byte) (droppable : Bool) : (post s code part data droppable).rul = s.rul :=
  (post_outer s code part data droppable (Outer.refl s)).ok.rul
@[simp] theorem post_mem (s : State) (code : Nat) (part : Nat) (data : List Byte) (droppable : Bool) : (post s code part data droppable).mem = s.mem :=
  (post_outer s code part data droppable (Outer.refl s)).ok.mem
@[simp] theorem post_svc (s : State) (code : Nat) (part : Nat) (data : List Byte) (droppable : Bool) : (post s code part data droppable).svc = s.svc :=
  (post_outer s code part data droppable (Outer.refl s)).ok.svc
@[simp] theorem post_ari (s : State) (code : Nat) (part : Nat) (data : List Byte) (droppable : Bool) : (post s code part data droppable).ari = s.ari :=
  (post_outer s code part data droppable (Outer.refl s)).ok.ari
@[simp] theorem post_fold (s : State) (code : Nat) (part : Nat) (data : List Byte) (droppable : Bool) : (post s code part data droppable).fold = s.fold :=
  (post_outer s code part data droppable (Outer.refl s)).ok.fold
@[simp] theorem post_cpu (s : State) (code : Nat) (part : Nat) (data : List Byte) (droppable : Bool) : (post s code part data droppable).cpu = s.cpu :=
  (post_outer s code part data droppable (Outer.refl s)).ok.cpu
@[simp] theorem post_srv (s : State) (code : Nat) (part : Nat) (data : List Byte) (droppable : Bool) : (post s code part data droppable).srv = s.srv :=
  (post_outer s code part data droppable (Outer.refl s)).ok.srv
@[simp] theorem post_stp (s : State) (code : Nat) (part : Nat) (data : List Byte) (droppable : Bool) : (post s code part data droppable).stp = s.stp :=
  (post_outer s code part data droppable (Outer.refl s)).ok.stp
@[simp] theorem post_flo (s : State) (code : Nat) (part : Nat) (data : List Byte) (droppable : Bool) : (post s code part data droppable).flo = s.flo :=
  (post_outer s code part data droppable (Outer.refl s)).ok.flo
@[simp] theorem post_duc (s : State) (code : Nat) (part : Nat) (data : List Byte) (droppable : Bool) : (post s code part data droppable).duc = s.duc :=
  (post_outer s code part data droppable (Outer.refl s)).ok.duc
@[simp] theorem post_pwr (s : State) (code : Nat) (part : Nat) (data : List Byte) (droppable : Bool) : (post s code part data droppable).pwr = s.pwr :=
  (post_outer s code part data droppable (Outer.refl s)).ok.pwr
@[simp] theorem grant_pending (s : State) (res : Nat) (mode : Nat) (owner : Nat) : (grant s res mode owner).pending = s.pending :=
  (grant_outer s res mode owner (Outer.refl s)).ok.pending
@[simp] theorem grant_time (s : State) (res : Nat) (mode : Nat) (owner : Nat) : (grant s res mode owner).time = s.time :=
  (grant_outer s res mode owner (Outer.refl s)).ok.time
@[simp] theorem grant_free (s : State) (res : Nat) (mode : Nat) (owner : Nat) : (grant s res mode owner).free = s.free :=
  (grant_outer s res mode owner (Outer.refl s)).ok.free
@[simp] theorem grant_hostFaults (s : State) (res : Nat) (mode : Nat) (owner : Nat) : (grant s res mode owner).hostFaults = s.hostFaults :=
  (grant_outer s res mode owner (Outer.refl s)).ok.hostFaults
@[simp] theorem grant_rul (s : State) (res : Nat) (mode : Nat) (owner : Nat) : (grant s res mode owner).rul = s.rul :=
  (grant_outer s res mode owner (Outer.refl s)).ok.rul
@[simp] theorem grant_mem (s : State) (res : Nat) (mode : Nat) (owner : Nat) : (grant s res mode owner).mem = s.mem :=
  (grant_outer s res mode owner (Outer.refl s)).ok.mem
@[simp] theorem grant_svc (s : State) (res : Nat) (mode : Nat) (owner : Nat) : (grant s res mode owner).svc = s.svc :=
  (grant_outer s res mode owner (Outer.refl s)).ok.svc
@[simp] theorem grant_ari (s : State) (res : Nat) (mode : Nat) (owner : Nat) : (grant s res mode owner).ari = s.ari :=
  (grant_outer s res mode owner (Outer.refl s)).ok.ari
@[simp] theorem grant_fold (s : State) (res : Nat) (mode : Nat) (owner : Nat) : (grant s res mode owner).fold = s.fold :=
  (grant_outer s res mode owner (Outer.refl s)).ok.fold
@[simp] theorem grant_cpu (s : State) (res : Nat) (mode : Nat) (owner : Nat) : (grant s res mode owner).cpu = s.cpu :=
  (grant_outer s res mode owner (Outer.refl s)).ok.cpu
@[simp] theorem grant_srv (s : State) (res : Nat) (mode : Nat) (owner : Nat) : (grant s res mode owner).srv = s.srv :=
  (grant_outer s res mode owner (Outer.refl s)).ok.srv
@[simp] theorem grant_stp (s : State) (res : Nat) (mode : Nat) (owner : Nat) : (grant s res mode owner).stp = s.stp :=
  (grant_outer s res mode owner (Outer.refl s)).ok.stp
@[simp] theorem grant_flo (s : State) (res : Nat) (mode : Nat) (owner : Nat) : (grant s res mode owner).flo = s.flo :=
  (grant_outer s res mode owner (Outer.refl s)).ok.flo
@[simp] theorem grant_duc (s : State) (res : Nat) (mode : Nat) (owner : Nat) : (grant s res mode owner).duc = s.duc :=
  (grant_outer s res mode owner (Outer.refl s)).ok.duc
@[simp] theorem grant_pwr (s : State) (res : Nat) (mode : Nat) (owner : Nat) : (grant s res mode owner).pwr = s.pwr :=
  (grant_outer s res mode owner (Outer.refl s)).ok.pwr
@[simp] theorem ungrant_pending (s : State) (p : Holding → Bool) : (ungrant s p).pending = s.pending :=
  (ungrant_outer s p (Outer.refl s)).ok.pending
@[simp] theorem ungrant_time (s : State) (p : Holding → Bool) : (ungrant s p).time = s.time :=
  (ungrant_outer s p (Outer.refl s)).ok.time
@[simp] theorem ungrant_free (s : State) (p : Holding → Bool) : (ungrant s p).free = s.free :=
  (ungrant_outer s p (Outer.refl s)).ok.free
@[simp] theorem ungrant_hostFaults (s : State) (p : Holding → Bool) : (ungrant s p).hostFaults = s.hostFaults :=
  (ungrant_outer s p (Outer.refl s)).ok.hostFaults
@[simp] theorem ungrant_rul (s : State) (p : Holding → Bool) : (ungrant s p).rul = s.rul :=
  (ungrant_outer s p (Outer.refl s)).ok.rul
@[simp] theorem ungrant_mem (s : State) (p : Holding → Bool) : (ungrant s p).mem = s.mem :=
  (ungrant_outer s p (Outer.refl s)).ok.mem
@[simp] theorem ungrant_svc (s : State) (p : Holding → Bool) : (ungrant s p).svc = s.svc :=
  (ungrant_outer s p (Outer.refl s)).ok.svc
@[simp] theorem ungrant_ari (s : State) (p : Holding → Bool) : (ungrant s p).ari = s.ari :=
  (ungrant_outer s p (Outer.refl s)).ok.ari
@[simp] theorem ungrant_fold (s : State) (p : Holding → Bool) : (ungrant s p).fold = s.fold :=
  (ungrant_outer s p (Outer.refl s)).ok.fold
@[simp] theorem ungrant_cpu (s : State) (p : Holding → Bool) : (ungrant s p).cpu = s.cpu :=
  (ungrant_outer s p (Outer.refl s)).ok.cpu
@[simp] theorem ungrant_srv (s : State) (p : Holding → Bool) : (ungrant s p).srv = s.srv :=
  (ungrant_outer s p (Outer.refl s)).ok.srv
@[simp] theorem ungrant_stp (s : State) (p : Holding → Bool) : (ungrant s p).stp = s.stp :=
  (ungrant_outer s p (Outer.refl s)).ok.stp
@[simp] theorem ungrant_flo (s : State) (p : Holding → Bool) : (ungrant s p).flo = s.flo :=
  (ungrant_outer s p (Outer.refl s)).ok.flo
@[simp] theorem ungrant_duc (s : State) (p : Holding → Bool) : (ungrant s p).duc = s.duc :=
  (ungrant_outer s p (Outer.refl s)).ok.duc
@[simp] theorem ungrant_pwr (s : State) (p : Holding → Bool) : (ungrant s p).pwr = s.pwr :=
  (ungrant_outer s p (Outer.refl s)).ok.pwr
@[simp] theorem implicitRelease_pending (s : State) (res : Nat) (mode : Nat) : (implicitRelease s res mode).pending = s.pending :=
  (implicitRelease_outer s res mode (Outer.refl s)).ok.pending
@[simp] theorem implicitRelease_time (s : State) (res : Nat) (mode : Nat) : (implicitRelease s res mode).time = s.time :=
  (implicitRelease_outer s res mode (Outer.refl s)).ok.time
@[simp] theorem implicitRelease_free (s : State) (res : Nat) (mode : Nat) : (implicitRelease s res mode).free = s.free :=
  (implicitRelease_outer s res mode (Outer.refl s)).ok.free
@[simp] theorem implicitRelease_hostFaults (s : State) (res : Nat) (mode : Nat) : (implicitRelease s res mode).hostFaults = s.hostFaults :=
  (implicitRelease_outer s res mode (Outer.refl s)).ok.hostFaults
@[simp] theorem implicitRelease_rul (s : State) (res : Nat) (mode : Nat) : (implicitRelease s res mode).rul = s.rul :=
  (implicitRelease_outer s res mode (Outer.refl s)).ok.rul
@[simp] theorem implicitRelease_mem (s : State) (res : Nat) (mode : Nat) : (implicitRelease s res mode).mem = s.mem :=
  (implicitRelease_outer s res mode (Outer.refl s)).ok.mem
@[simp] theorem implicitRelease_svc (s : State) (res : Nat) (mode : Nat) : (implicitRelease s res mode).svc = s.svc :=
  (implicitRelease_outer s res mode (Outer.refl s)).ok.svc
@[simp] theorem implicitRelease_ari (s : State) (res : Nat) (mode : Nat) : (implicitRelease s res mode).ari = s.ari :=
  (implicitRelease_outer s res mode (Outer.refl s)).ok.ari
@[simp] theorem implicitRelease_fold (s : State) (res : Nat) (mode : Nat) : (implicitRelease s res mode).fold = s.fold :=
  (implicitRelease_outer s res mode (Outer.refl s)).ok.fold
@[simp] theorem implicitRelease_cpu (s : State) (res : Nat) (mode : Nat) : (implicitRelease s res mode).cpu = s.cpu :=
  (implicitRelease_outer s res mode (Outer.refl s)).ok.cpu
@[simp] theorem implicitRelease_srv (s : State) (res : Nat) (mode : Nat) : (implicitRelease s res mode).srv = s.srv :=
  (implicitRelease_outer s res mode (Outer.refl s)).ok.srv
@[simp] theorem implicitRelease_stp (s : State) (res : Nat) (mode : Nat) : (implicitRelease s res mode).stp = s.stp :=
  (implicitRelease_outer s res mode (Outer.refl s)).ok.stp
@[simp] theorem implicitRelease_flo (s : State) (res : Nat) (mode : Nat) : (implicitRelease s res mode).flo = s.flo :=
  (implicitRelease_outer s res mode (Outer.refl s)).ok.flo
@[simp] theorem implicitRelease_duc (s : State) (res : Nat) (mode : Nat) : (implicitRelease s res mode).duc = s.duc :=
  (implicitRelease_outer s res mode (Outer.refl s)).ok.duc
@[simp] theorem implicitRelease_pwr (s : State) (res : Nat) (mode : Nat) : (implicitRelease s res mode).pwr = s.pwr :=
  (implicitRelease_outer s res mode (Outer.refl s)).ok.pwr
@[simp] theorem finishWait_pending (s : State) (w : Wait) (status : Nat) (result : List Byte) : (finishWait s w status result).pending = s.pending :=
  (finishWait_outer s w status result (Outer.refl s)).ok.pending
@[simp] theorem finishWait_time (s : State) (w : Wait) (status : Nat) (result : List Byte) : (finishWait s w status result).time = s.time :=
  (finishWait_outer s w status result (Outer.refl s)).ok.time
@[simp] theorem finishWait_free (s : State) (w : Wait) (status : Nat) (result : List Byte) : (finishWait s w status result).free = s.free :=
  (finishWait_outer s w status result (Outer.refl s)).ok.free
@[simp] theorem finishWait_hostFaults (s : State) (w : Wait) (status : Nat) (result : List Byte) : (finishWait s w status result).hostFaults = s.hostFaults :=
  (finishWait_outer s w status result (Outer.refl s)).ok.hostFaults
@[simp] theorem finishWait_rul (s : State) (w : Wait) (status : Nat) (result : List Byte) : (finishWait s w status result).rul = s.rul :=
  (finishWait_outer s w status result (Outer.refl s)).ok.rul
@[simp] theorem finishWait_mem (s : State) (w : Wait) (status : Nat) (result : List Byte) : (finishWait s w status result).mem = s.mem :=
  (finishWait_outer s w status result (Outer.refl s)).ok.mem
@[simp] theorem finishWait_svc (s : State) (w : Wait) (status : Nat) (result : List Byte) : (finishWait s w status result).svc = s.svc :=
  (finishWait_outer s w status result (Outer.refl s)).ok.svc
@[simp] theorem finishWait_ari (s : State) (w : Wait) (status : Nat) (result : List Byte) : (finishWait s w status result).ari = s.ari :=
  (finishWait_outer s w status result (Outer.refl s)).ok.ari
@[simp] theorem finishWait_fold (s : State) (w : Wait) (status : Nat) (result : List Byte) : (finishWait s w status result).fold = s.fold :=
  (finishWait_outer s w status result (Outer.refl s)).ok.fold
@[simp] theorem finishWait_cpu (s : State) (w : Wait) (status : Nat) (result : List Byte) : (finishWait s w status result).cpu = s.cpu :=
  (finishWait_outer s w status result (Outer.refl s)).ok.cpu
@[simp] theorem finishWait_srv (s : State) (w : Wait) (status : Nat) (result : List Byte) : (finishWait s w status result).srv = s.srv :=
  (finishWait_outer s w status result (Outer.refl s)).ok.srv
@[simp] theorem finishWait_stp (s : State) (w : Wait) (status : Nat) (result : List Byte) : (finishWait s w status result).stp = s.stp :=
  (finishWait_outer s w status result (Outer.refl s)).ok.stp
@[simp] theorem finishWait_flo (s : State) (w : Wait) (status : Nat) (result : List Byte) : (finishWait s w status result).flo = s.flo :=
  (finishWait_outer s w status result (Outer.refl s)).ok.flo
@[simp] theorem finishWait_duc (s : State) (w : Wait) (status : Nat) (result : List Byte) : (finishWait s w status result).duc = s.duc :=
  (finishWait_outer s w status result (Outer.refl s)).ok.duc
@[simp] theorem finishWait_pwr (s : State) (w : Wait) (status : Nat) (result : List Byte) : (finishWait s w status result).pwr = s.pwr :=
  (finishWait_outer s w status result (Outer.refl s)).ok.pwr
@[simp] theorem abortFetched_pending (s : State) (p : Cmd → Bool) : (abortFetched s p).pending = s.pending :=
  (abortFetched_outer s p (Outer.refl s)).ok.pending
@[simp] theorem abortFetched_time (s : State) (p : Cmd → Bool) : (abortFetched s p).time = s.time :=
  (abortFetched_outer s p (Outer.refl s)).ok.time
@[simp] theorem abortFetched_free (s : State) (p : Cmd → Bool) : (abortFetched s p).free = s.free :=
  (abortFetched_outer s p (Outer.refl s)).ok.free
@[simp] theorem abortFetched_hostFaults (s : State) (p : Cmd → Bool) : (abortFetched s p).hostFaults = s.hostFaults :=
  (abortFetched_outer s p (Outer.refl s)).ok.hostFaults
@[simp] theorem abortFetched_rul (s : State) (p : Cmd → Bool) : (abortFetched s p).rul = s.rul :=
  (abortFetched_outer s p (Outer.refl s)).ok.rul
@[simp] theorem abortFetched_mem (s : State) (p : Cmd → Bool) : (abortFetched s p).mem = s.mem :=
  (abortFetched_outer s p (Outer.refl s)).ok.mem
@[simp] theorem abortFetched_svc (s : State) (p : Cmd → Bool) : (abortFetched s p).svc = s.svc :=
  (abortFetched_outer s p (Outer.refl s)).ok.svc
@[simp] theorem abortFetched_ari (s : State) (p : Cmd → Bool) : (abortFetched s p).ari = s.ari :=
  (abortFetched_outer s p (Outer.refl s)).ok.ari
@[simp] theorem abortFetched_fold (s : State) (p : Cmd → Bool) : (abortFetched s p).fold = s.fold :=
  (abortFetched_outer s p (Outer.refl s)).ok.fold
@[simp] theorem abortFetched_cpu (s : State) (p : Cmd → Bool) : (abortFetched s p).cpu = s.cpu :=
  (abortFetched_outer s p (Outer.refl s)).ok.cpu
@[simp] theorem abortFetched_srv (s : State) (p : Cmd → Bool) : (abortFetched s p).srv = s.srv :=
  (abortFetched_outer s p (Outer.refl s)).ok.srv
@[simp] theorem abortFetched_stp (s : State) (p : Cmd → Bool) : (abortFetched s p).stp = s.stp :=
  (abortFetched_outer s p (Outer.refl s)).ok.stp
@[simp] theorem abortFetched_flo (s : State) (p : Cmd → Bool) : (abortFetched s p).flo = s.flo :=
  (abortFetched_outer s p (Outer.refl s)).ok.flo
@[simp] theorem abortFetched_duc (s : State) (p : Cmd → Bool) : (abortFetched s p).duc = s.duc :=
  (abortFetched_outer s p (Outer.refl s)).ok.duc
@[simp] theorem abortFetched_pwr (s : State) (p : Cmd → Bool) : (abortFetched s p).pwr = s.pwr :=
  (abortFetched_outer s p (Outer.refl s)).ok.pwr
@[simp] theorem arrive_pending (op : Nat) (c : Cmd) (s : State) : (arrive op c s).pending = s.pending := blot_pending _ _ _ _ _
@[simp] theorem arrive_time (op : Nat) (c : Cmd) (s : State) : (arrive op c s).time = s.time := blot_time _ _ _ _ _
@[simp] theorem arrive_free (op : Nat) (c : Cmd) (s : State) : (arrive op c s).free = s.free := blot_free _ _ _ _ _
@[simp] theorem arrive_hostFaults (op : Nat) (c : Cmd) (s : State) : (arrive op c s).hostFaults = s.hostFaults := blot_hostFaults _ _ _ _ _
@[simp] theorem arrive_rul (op : Nat) (c : Cmd) (s : State) : (arrive op c s).rul = s.rul := blot_rul _ _ _ _ _
@[simp] theorem arrive_mem (op : Nat) (c : Cmd) (s : State) : (arrive op c s).mem = s.mem := blot_mem _ _ _ _ _
@[simp] theorem arrive_svc (op : Nat) (c : Cmd) (s : State) : (arrive op c s).svc = s.svc := blot_svc _ _ _ _ _
@[simp] theorem arrive_ari (op : Nat) (c : Cmd) (s : State) : (arrive op c s).ari = s.ari := blot_ari _ _ _ _ _
@[simp] theorem arrive_fold (op : Nat) (c : Cmd) (s : State) : (arrive op c s).fold = s.fold := blot_fold _ _ _ _ _
@[simp] theorem arrive_cpu (op : Nat) (c : Cmd) (s : State) : (arrive op c s).cpu = s.cpu := blot_cpu _ _ _ _ _
@[simp] theorem arrive_srv (op : Nat) (c : Cmd) (s : State) : (arrive op c s).srv = s.srv := blot_srv _ _ _ _ _
@[simp] theorem arrive_stp (op : Nat) (c : Cmd) (s : State) : (arrive op c s).stp = s.stp := blot_stp _ _ _ _ _
@[simp] theorem arrive_flo (op : Nat) (c : Cmd) (s : State) : (arrive op c s).flo = s.flo := blot_flo _ _ _ _ _
@[simp] theorem arrive_duc (op : Nat) (c : Cmd) (s : State) : (arrive op c s).duc = s.duc := blot_duc _ _ _ _ _
@[simp] theorem arrive_pwr (op : Nat) (c : Cmd) (s : State) : (arrive op c s).pwr = s.pwr := blot_pwr _ _ _ _ _
@[simp] theorem bump_host (s : State) (p i n : Nat) : (bump s p i n).host = s.host := by
  unfold bump
  try dsimp only
  split <;> rfl
@[simp] theorem bump_ink (s : State) (p i n : Nat) : (bump s p i n).ink = s.ink := by
  unfold bump
  try dsimp only
  split <;> rfl
@[simp] theorem prog_host (s : State) (unit event : Nat) (part cls : Option Nat) (n : Nat) : (prog s unit event part cls n).host = s.host := by
  unfold prog
  have key : ∀ (l : List Nat) (g : State → Nat → State), (∀ t k, (g t k).host = t.host) → ∀ t, (l.foldl g t).host = t.host := by
    intro l g hg
    induction l with
    | nil => intro t; rfl
    | cons x r ih => intro t; exact (ih _).trans (hg t x)
  apply key
  intro t k
  dsimp only
  split <;> rfl
@[simp] theorem prog_ink (s : State) (unit event : Nat) (part cls : Option Nat) (n : Nat) : (prog s unit event part cls n).ink = s.ink := by
  unfold prog
  have key : ∀ (l : List Nat) (g : State → Nat → State), (∀ t k, (g t k).ink = t.ink) → ∀ t, (l.foldl g t).ink = t.ink := by
    intro l g hg
    induction l with
    | nil => intro t; rfl
    | cons x r ih => intro t; exact (ih _).trans (hg t x)
  apply key
  intro t k
  dsimp only
  split <;> rfl
@[simp] theorem blot_host (s : State) (unit code : Nat) (part : Option Nat) (arg : Nat) : (blot s unit code part arg).host = s.host := by
  unfold blot
  try dsimp only
  split <;> rfl
@[simp] theorem blot_ink (s : State) (unit code : Nat) (part : Option Nat) (arg : Nat) : (blot s unit code part arg).ink = s.ink := by
  unfold blot
  try dsimp only
  split <;> rfl
@[simp] theorem arrive_host (op : Nat) (c : Cmd) (s : State) : (arrive op c s).host = s.host := blot_host _ _ _ _ _
@[simp] theorem arrive_ink (op : Nat) (c : Cmd) (s : State) : (arrive op c s).ink = s.ink := blot_ink _ _ _ _ _
@[simp] theorem setFunc_host (s : State) (fn : Nat) (f : Func) : (setFunc s fn f).host = s.host := rfl
@[simp] theorem setFunc_obs (s : State) (fn : Nat) (f : Func) : (setFunc s fn f).obs = s.obs := rfl
@[simp] theorem setRing_host (s : State) (fn n : Nat) (r : Ring) : (setRing s fn n r).host = s.host := rfl
@[simp] theorem setRing_obs (s : State) (fn n : Nat) (r : Ring) : (setRing s fn n r).obs = s.obs := rfl
@[simp] theorem grant_host (s : State) (res mode owner : Nat) : (grant s res mode owner).host = s.host := by
  unfold grant
  split <;> rfl
@[simp] theorem grant_obs (s : State) (res mode owner : Nat) : (grant s res mode owner).obs = s.obs := by
  unfold grant
  split <;> rfl
@[simp] theorem ungrant_host (s : State) (p : Holding → Bool) : (ungrant s p).host = s.host := rfl
@[simp] theorem ungrant_obs (s : State) (p : Holding → Bool) : (ungrant s p).obs = s.obs := rfl
@[simp] theorem setFunc_ink_fwMajor (s : State) (fn : Nat) (f : Func) : (setFunc s fn f).ink.fwMajor = s.ink.fwMajor :=
  (setFunc_inkk s fn f (InkKept.refl s)).ok.fwMajor
@[simp] theorem setFunc_ink_fwMinor (s : State) (fn : Nat) (f : Func) : (setFunc s fn f).ink.fwMinor = s.ink.fwMinor :=
  (setFunc_inkk s fn f (InkKept.refl s)).ok.fwMinor
@[simp] theorem setFunc_ink_variant (s : State) (fn : Nat) (f : Func) : (setFunc s fn f).ink.variant = s.ink.variant :=
  (setFunc_inkk s fn f (InkKept.refl s)).ok.variant
@[simp] theorem setFunc_ink_ifver (s : State) (fn : Nat) (f : Func) : (setFunc s fn f).ink.ifver = s.ink.ifver :=
  (setFunc_inkk s fn f (InkKept.refl s)).ok.ifver
@[simp] theorem setFunc_ink_state (s : State) (fn : Nat) (f : Func) : (setFunc s fn f).ink.state = s.ink.state :=
  (setFunc_inkk s fn f (InkKept.refl s)).ok.state
@[simp] theorem setFunc_ink_seq (s : State) (fn : Nat) (f : Func) : (setFunc s fn f).ink.seq = s.ink.seq :=
  (setFunc_inkk s fn f (InkKept.refl s)).ok.seq
@[simp] theorem setFunc_ink_con (s : State) (fn : Nat) (f : Func) : (setFunc s fn f).ink.con = s.ink.con :=
  (setFunc_inkk s fn f (InkKept.refl s)).ok.con
@[simp] theorem setFunc_ink_conPtr (s : State) (fn : Nat) (f : Func) : (setFunc s fn f).ink.conPtr = s.ink.conPtr :=
  (setFunc_inkk s fn f (InkKept.refl s)).ok.conPtr
@[simp] theorem setFunc_ink_conWraps (s : State) (fn : Nat) (f : Func) : (setFunc s fn f).ink.conWraps = s.ink.conWraps :=
  (setFunc_inkk s fn f (InkKept.refl s)).ok.conWraps
@[simp] theorem setFunc_ink_numVFs (s : State) (fn : Nat) (f : Func) : (setFunc s fn f).ink.numVFs = s.ink.numVFs :=
  (setFunc_inkk s fn f (InkKept.refl s)).ok.numVFs
@[simp] theorem setFunc_ink_visited (s : State) (fn : Nat) (f : Func) : (setFunc s fn f).ink.visited = s.ink.visited :=
  (setFunc_inkk s fn f (InkKept.refl s)).ok.visited
@[simp] theorem setFunc_ink_fetched (s : State) (fn : Nat) (f : Func) : (setFunc s fn f).ink.fetched = s.ink.fetched :=
  (setFunc_inkk s fn f (InkKept.refl s)).ok.fetched
@[simp] theorem setFunc_ink_running (s : State) (fn : Nat) (f : Func) : (setFunc s fn f).ink.running = s.ink.running :=
  (setFunc_inkk s fn f (InkKept.refl s)).ok.running
@[simp] theorem setFunc_ink_claims (s : State) (fn : Nat) (f : Func) : (setFunc s fn f).ink.claims = s.ink.claims :=
  (setFunc_inkk s fn f (InkKept.refl s)).ok.claims
@[simp] theorem raise_ink_fwMajor (s : State) (fn : Nat) (vector : Nat) : (raise s fn vector).ink.fwMajor = s.ink.fwMajor :=
  (raise_inkk s fn vector (InkKept.refl s)).ok.fwMajor
@[simp] theorem raise_ink_fwMinor (s : State) (fn : Nat) (vector : Nat) : (raise s fn vector).ink.fwMinor = s.ink.fwMinor :=
  (raise_inkk s fn vector (InkKept.refl s)).ok.fwMinor
@[simp] theorem raise_ink_variant (s : State) (fn : Nat) (vector : Nat) : (raise s fn vector).ink.variant = s.ink.variant :=
  (raise_inkk s fn vector (InkKept.refl s)).ok.variant
@[simp] theorem raise_ink_ifver (s : State) (fn : Nat) (vector : Nat) : (raise s fn vector).ink.ifver = s.ink.ifver :=
  (raise_inkk s fn vector (InkKept.refl s)).ok.ifver
@[simp] theorem raise_ink_state (s : State) (fn : Nat) (vector : Nat) : (raise s fn vector).ink.state = s.ink.state :=
  (raise_inkk s fn vector (InkKept.refl s)).ok.state
@[simp] theorem raise_ink_seq (s : State) (fn : Nat) (vector : Nat) : (raise s fn vector).ink.seq = s.ink.seq :=
  (raise_inkk s fn vector (InkKept.refl s)).ok.seq
@[simp] theorem raise_ink_con (s : State) (fn : Nat) (vector : Nat) : (raise s fn vector).ink.con = s.ink.con :=
  (raise_inkk s fn vector (InkKept.refl s)).ok.con
@[simp] theorem raise_ink_conPtr (s : State) (fn : Nat) (vector : Nat) : (raise s fn vector).ink.conPtr = s.ink.conPtr :=
  (raise_inkk s fn vector (InkKept.refl s)).ok.conPtr
@[simp] theorem raise_ink_conWraps (s : State) (fn : Nat) (vector : Nat) : (raise s fn vector).ink.conWraps = s.ink.conWraps :=
  (raise_inkk s fn vector (InkKept.refl s)).ok.conWraps
@[simp] theorem raise_ink_numVFs (s : State) (fn : Nat) (vector : Nat) : (raise s fn vector).ink.numVFs = s.ink.numVFs :=
  (raise_inkk s fn vector (InkKept.refl s)).ok.numVFs
@[simp] theorem raise_ink_visited (s : State) (fn : Nat) (vector : Nat) : (raise s fn vector).ink.visited = s.ink.visited :=
  (raise_inkk s fn vector (InkKept.refl s)).ok.visited
@[simp] theorem raise_ink_fetched (s : State) (fn : Nat) (vector : Nat) : (raise s fn vector).ink.fetched = s.ink.fetched :=
  (raise_inkk s fn vector (InkKept.refl s)).ok.fetched
@[simp] theorem raise_ink_running (s : State) (fn : Nat) (vector : Nat) : (raise s fn vector).ink.running = s.ink.running :=
  (raise_inkk s fn vector (InkKept.refl s)).ok.running
@[simp] theorem raise_ink_claims (s : State) (fn : Nat) (vector : Nat) : (raise s fn vector).ink.claims = s.ink.claims :=
  (raise_inkk s fn vector (InkKept.refl s)).ok.claims
@[simp] theorem setCause_ink_fwMajor (s : State) (fn : Nat) (bit : Nat) : (setCause s fn bit).ink.fwMajor = s.ink.fwMajor :=
  (setCause_inkk s fn bit (InkKept.refl s)).ok.fwMajor
@[simp] theorem setCause_ink_fwMinor (s : State) (fn : Nat) (bit : Nat) : (setCause s fn bit).ink.fwMinor = s.ink.fwMinor :=
  (setCause_inkk s fn bit (InkKept.refl s)).ok.fwMinor
@[simp] theorem setCause_ink_variant (s : State) (fn : Nat) (bit : Nat) : (setCause s fn bit).ink.variant = s.ink.variant :=
  (setCause_inkk s fn bit (InkKept.refl s)).ok.variant
@[simp] theorem setCause_ink_ifver (s : State) (fn : Nat) (bit : Nat) : (setCause s fn bit).ink.ifver = s.ink.ifver :=
  (setCause_inkk s fn bit (InkKept.refl s)).ok.ifver
@[simp] theorem setCause_ink_state (s : State) (fn : Nat) (bit : Nat) : (setCause s fn bit).ink.state = s.ink.state :=
  (setCause_inkk s fn bit (InkKept.refl s)).ok.state
@[simp] theorem setCause_ink_seq (s : State) (fn : Nat) (bit : Nat) : (setCause s fn bit).ink.seq = s.ink.seq :=
  (setCause_inkk s fn bit (InkKept.refl s)).ok.seq
@[simp] theorem setCause_ink_con (s : State) (fn : Nat) (bit : Nat) : (setCause s fn bit).ink.con = s.ink.con :=
  (setCause_inkk s fn bit (InkKept.refl s)).ok.con
@[simp] theorem setCause_ink_conPtr (s : State) (fn : Nat) (bit : Nat) : (setCause s fn bit).ink.conPtr = s.ink.conPtr :=
  (setCause_inkk s fn bit (InkKept.refl s)).ok.conPtr
@[simp] theorem setCause_ink_conWraps (s : State) (fn : Nat) (bit : Nat) : (setCause s fn bit).ink.conWraps = s.ink.conWraps :=
  (setCause_inkk s fn bit (InkKept.refl s)).ok.conWraps
@[simp] theorem setCause_ink_numVFs (s : State) (fn : Nat) (bit : Nat) : (setCause s fn bit).ink.numVFs = s.ink.numVFs :=
  (setCause_inkk s fn bit (InkKept.refl s)).ok.numVFs
@[simp] theorem setCause_ink_visited (s : State) (fn : Nat) (bit : Nat) : (setCause s fn bit).ink.visited = s.ink.visited :=
  (setCause_inkk s fn bit (InkKept.refl s)).ok.visited
@[simp] theorem setCause_ink_fetched (s : State) (fn : Nat) (bit : Nat) : (setCause s fn bit).ink.fetched = s.ink.fetched :=
  (setCause_inkk s fn bit (InkKept.refl s)).ok.fetched
@[simp] theorem setCause_ink_running (s : State) (fn : Nat) (bit : Nat) : (setCause s fn bit).ink.running = s.ink.running :=
  (setCause_inkk s fn bit (InkKept.refl s)).ok.running
@[simp] theorem setCause_ink_claims (s : State) (fn : Nat) (bit : Nat) : (setCause s fn bit).ink.claims = s.ink.claims :=
  (setCause_inkk s fn bit (InkKept.refl s)).ok.claims
@[simp] theorem setFault_ink_fwMajor (s : State) (fn : Nat) (reason : Nat) (detail : Nat) : (setFault s fn reason detail).ink.fwMajor = s.ink.fwMajor :=
  (setFault_inkk s fn reason detail (InkKept.refl s)).ok.fwMajor
@[simp] theorem setFault_ink_fwMinor (s : State) (fn : Nat) (reason : Nat) (detail : Nat) : (setFault s fn reason detail).ink.fwMinor = s.ink.fwMinor :=
  (setFault_inkk s fn reason detail (InkKept.refl s)).ok.fwMinor
@[simp] theorem setFault_ink_variant (s : State) (fn : Nat) (reason : Nat) (detail : Nat) : (setFault s fn reason detail).ink.variant = s.ink.variant :=
  (setFault_inkk s fn reason detail (InkKept.refl s)).ok.variant
@[simp] theorem setFault_ink_ifver (s : State) (fn : Nat) (reason : Nat) (detail : Nat) : (setFault s fn reason detail).ink.ifver = s.ink.ifver :=
  (setFault_inkk s fn reason detail (InkKept.refl s)).ok.ifver
@[simp] theorem setFault_ink_state (s : State) (fn : Nat) (reason : Nat) (detail : Nat) : (setFault s fn reason detail).ink.state = s.ink.state :=
  (setFault_inkk s fn reason detail (InkKept.refl s)).ok.state
@[simp] theorem setFault_ink_seq (s : State) (fn : Nat) (reason : Nat) (detail : Nat) : (setFault s fn reason detail).ink.seq = s.ink.seq :=
  (setFault_inkk s fn reason detail (InkKept.refl s)).ok.seq
@[simp] theorem setFault_ink_con (s : State) (fn : Nat) (reason : Nat) (detail : Nat) : (setFault s fn reason detail).ink.con = s.ink.con :=
  (setFault_inkk s fn reason detail (InkKept.refl s)).ok.con
@[simp] theorem setFault_ink_conPtr (s : State) (fn : Nat) (reason : Nat) (detail : Nat) : (setFault s fn reason detail).ink.conPtr = s.ink.conPtr :=
  (setFault_inkk s fn reason detail (InkKept.refl s)).ok.conPtr
@[simp] theorem setFault_ink_conWraps (s : State) (fn : Nat) (reason : Nat) (detail : Nat) : (setFault s fn reason detail).ink.conWraps = s.ink.conWraps :=
  (setFault_inkk s fn reason detail (InkKept.refl s)).ok.conWraps
@[simp] theorem setFault_ink_numVFs (s : State) (fn : Nat) (reason : Nat) (detail : Nat) : (setFault s fn reason detail).ink.numVFs = s.ink.numVFs :=
  (setFault_inkk s fn reason detail (InkKept.refl s)).ok.numVFs
@[simp] theorem setFault_ink_visited (s : State) (fn : Nat) (reason : Nat) (detail : Nat) : (setFault s fn reason detail).ink.visited = s.ink.visited :=
  (setFault_inkk s fn reason detail (InkKept.refl s)).ok.visited
@[simp] theorem setFault_ink_fetched (s : State) (fn : Nat) (reason : Nat) (detail : Nat) : (setFault s fn reason detail).ink.fetched = s.ink.fetched :=
  (setFault_inkk s fn reason detail (InkKept.refl s)).ok.fetched
@[simp] theorem setFault_ink_running (s : State) (fn : Nat) (reason : Nat) (detail : Nat) : (setFault s fn reason detail).ink.running = s.ink.running :=
  (setFault_inkk s fn reason detail (InkKept.refl s)).ok.running
@[simp] theorem setFault_ink_claims (s : State) (fn : Nat) (reason : Nat) (detail : Nat) : (setFault s fn reason detail).ink.claims = s.ink.claims :=
  (setFault_inkk s fn reason detail (InkKept.refl s)).ok.claims
@[simp] theorem setRing_ink_fwMajor (s : State) (fn : Nat) (n : Nat) (r : Ring) : (setRing s fn n r).ink.fwMajor = s.ink.fwMajor :=
  (setRing_inkk s fn n r (InkKept.refl s)).ok.fwMajor
@[simp] theorem setRing_ink_fwMinor (s : State) (fn : Nat) (n : Nat) (r : Ring) : (setRing s fn n r).ink.fwMinor = s.ink.fwMinor :=
  (setRing_inkk s fn n r (InkKept.refl s)).ok.fwMinor
@[simp] theorem setRing_ink_variant (s : State) (fn : Nat) (n : Nat) (r : Ring) : (setRing s fn n r).ink.variant = s.ink.variant :=
  (setRing_inkk s fn n r (InkKept.refl s)).ok.variant
@[simp] theorem setRing_ink_ifver (s : State) (fn : Nat) (n : Nat) (r : Ring) : (setRing s fn n r).ink.ifver = s.ink.ifver :=
  (setRing_inkk s fn n r (InkKept.refl s)).ok.ifver
@[simp] theorem setRing_ink_state (s : State) (fn : Nat) (n : Nat) (r : Ring) : (setRing s fn n r).ink.state = s.ink.state :=
  (setRing_inkk s fn n r (InkKept.refl s)).ok.state
@[simp] theorem setRing_ink_seq (s : State) (fn : Nat) (n : Nat) (r : Ring) : (setRing s fn n r).ink.seq = s.ink.seq :=
  (setRing_inkk s fn n r (InkKept.refl s)).ok.seq
@[simp] theorem setRing_ink_con (s : State) (fn : Nat) (n : Nat) (r : Ring) : (setRing s fn n r).ink.con = s.ink.con :=
  (setRing_inkk s fn n r (InkKept.refl s)).ok.con
@[simp] theorem setRing_ink_conPtr (s : State) (fn : Nat) (n : Nat) (r : Ring) : (setRing s fn n r).ink.conPtr = s.ink.conPtr :=
  (setRing_inkk s fn n r (InkKept.refl s)).ok.conPtr
@[simp] theorem setRing_ink_conWraps (s : State) (fn : Nat) (n : Nat) (r : Ring) : (setRing s fn n r).ink.conWraps = s.ink.conWraps :=
  (setRing_inkk s fn n r (InkKept.refl s)).ok.conWraps
@[simp] theorem setRing_ink_numVFs (s : State) (fn : Nat) (n : Nat) (r : Ring) : (setRing s fn n r).ink.numVFs = s.ink.numVFs :=
  (setRing_inkk s fn n r (InkKept.refl s)).ok.numVFs
@[simp] theorem setRing_ink_visited (s : State) (fn : Nat) (n : Nat) (r : Ring) : (setRing s fn n r).ink.visited = s.ink.visited :=
  (setRing_inkk s fn n r (InkKept.refl s)).ok.visited
@[simp] theorem setRing_ink_fetched (s : State) (fn : Nat) (n : Nat) (r : Ring) : (setRing s fn n r).ink.fetched = s.ink.fetched :=
  (setRing_inkk s fn n r (InkKept.refl s)).ok.fetched
@[simp] theorem setRing_ink_running (s : State) (fn : Nat) (n : Nat) (r : Ring) : (setRing s fn n r).ink.running = s.ink.running :=
  (setRing_inkk s fn n r (InkKept.refl s)).ok.running
@[simp] theorem setRing_ink_claims (s : State) (fn : Nat) (n : Nat) (r : Ring) : (setRing s fn n r).ink.claims = s.ink.claims :=
  (setRing_inkk s fn n r (InkKept.refl s)).ok.claims
@[simp] theorem countIrq_ink_fwMajor (s : State) (fn : Nat) (n : Nat) (irq : Bool) : (countIrq s fn n irq).ink.fwMajor = s.ink.fwMajor :=
  (countIrq_inkk s fn n irq (InkKept.refl s)).ok.fwMajor
@[simp] theorem countIrq_ink_fwMinor (s : State) (fn : Nat) (n : Nat) (irq : Bool) : (countIrq s fn n irq).ink.fwMinor = s.ink.fwMinor :=
  (countIrq_inkk s fn n irq (InkKept.refl s)).ok.fwMinor
@[simp] theorem countIrq_ink_variant (s : State) (fn : Nat) (n : Nat) (irq : Bool) : (countIrq s fn n irq).ink.variant = s.ink.variant :=
  (countIrq_inkk s fn n irq (InkKept.refl s)).ok.variant
@[simp] theorem countIrq_ink_ifver (s : State) (fn : Nat) (n : Nat) (irq : Bool) : (countIrq s fn n irq).ink.ifver = s.ink.ifver :=
  (countIrq_inkk s fn n irq (InkKept.refl s)).ok.ifver
@[simp] theorem countIrq_ink_state (s : State) (fn : Nat) (n : Nat) (irq : Bool) : (countIrq s fn n irq).ink.state = s.ink.state :=
  (countIrq_inkk s fn n irq (InkKept.refl s)).ok.state
@[simp] theorem countIrq_ink_seq (s : State) (fn : Nat) (n : Nat) (irq : Bool) : (countIrq s fn n irq).ink.seq = s.ink.seq :=
  (countIrq_inkk s fn n irq (InkKept.refl s)).ok.seq
@[simp] theorem countIrq_ink_con (s : State) (fn : Nat) (n : Nat) (irq : Bool) : (countIrq s fn n irq).ink.con = s.ink.con :=
  (countIrq_inkk s fn n irq (InkKept.refl s)).ok.con
@[simp] theorem countIrq_ink_conPtr (s : State) (fn : Nat) (n : Nat) (irq : Bool) : (countIrq s fn n irq).ink.conPtr = s.ink.conPtr :=
  (countIrq_inkk s fn n irq (InkKept.refl s)).ok.conPtr
@[simp] theorem countIrq_ink_conWraps (s : State) (fn : Nat) (n : Nat) (irq : Bool) : (countIrq s fn n irq).ink.conWraps = s.ink.conWraps :=
  (countIrq_inkk s fn n irq (InkKept.refl s)).ok.conWraps
@[simp] theorem countIrq_ink_numVFs (s : State) (fn : Nat) (n : Nat) (irq : Bool) : (countIrq s fn n irq).ink.numVFs = s.ink.numVFs :=
  (countIrq_inkk s fn n irq (InkKept.refl s)).ok.numVFs
@[simp] theorem countIrq_ink_visited (s : State) (fn : Nat) (n : Nat) (irq : Bool) : (countIrq s fn n irq).ink.visited = s.ink.visited :=
  (countIrq_inkk s fn n irq (InkKept.refl s)).ok.visited
@[simp] theorem countIrq_ink_fetched (s : State) (fn : Nat) (n : Nat) (irq : Bool) : (countIrq s fn n irq).ink.fetched = s.ink.fetched :=
  (countIrq_inkk s fn n irq (InkKept.refl s)).ok.fetched
@[simp] theorem countIrq_ink_running (s : State) (fn : Nat) (n : Nat) (irq : Bool) : (countIrq s fn n irq).ink.running = s.ink.running :=
  (countIrq_inkk s fn n irq (InkKept.refl s)).ok.running
@[simp] theorem countIrq_ink_claims (s : State) (fn : Nat) (n : Nat) (irq : Bool) : (countIrq s fn n irq).ink.claims = s.ink.claims :=
  (countIrq_inkk s fn n irq (InkKept.refl s)).ok.claims
@[simp] theorem drainCompletions_ink_fwMajor (s : State) (fn : Nat) (n : Nat) : (drainCompletions s fn n).ink.fwMajor = s.ink.fwMajor :=
  (drainCompletions_inkk s fn n (InkKept.refl s)).ok.fwMajor
@[simp] theorem drainCompletions_ink_fwMinor (s : State) (fn : Nat) (n : Nat) : (drainCompletions s fn n).ink.fwMinor = s.ink.fwMinor :=
  (drainCompletions_inkk s fn n (InkKept.refl s)).ok.fwMinor
@[simp] theorem drainCompletions_ink_variant (s : State) (fn : Nat) (n : Nat) : (drainCompletions s fn n).ink.variant = s.ink.variant :=
  (drainCompletions_inkk s fn n (InkKept.refl s)).ok.variant
@[simp] theorem drainCompletions_ink_ifver (s : State) (fn : Nat) (n : Nat) : (drainCompletions s fn n).ink.ifver = s.ink.ifver :=
  (drainCompletions_inkk s fn n (InkKept.refl s)).ok.ifver
@[simp] theorem drainCompletions_ink_state (s : State) (fn : Nat) (n : Nat) : (drainCompletions s fn n).ink.state = s.ink.state :=
  (drainCompletions_inkk s fn n (InkKept.refl s)).ok.state
@[simp] theorem drainCompletions_ink_seq (s : State) (fn : Nat) (n : Nat) : (drainCompletions s fn n).ink.seq = s.ink.seq :=
  (drainCompletions_inkk s fn n (InkKept.refl s)).ok.seq
@[simp] theorem drainCompletions_ink_con (s : State) (fn : Nat) (n : Nat) : (drainCompletions s fn n).ink.con = s.ink.con :=
  (drainCompletions_inkk s fn n (InkKept.refl s)).ok.con
@[simp] theorem drainCompletions_ink_conPtr (s : State) (fn : Nat) (n : Nat) : (drainCompletions s fn n).ink.conPtr = s.ink.conPtr :=
  (drainCompletions_inkk s fn n (InkKept.refl s)).ok.conPtr
@[simp] theorem drainCompletions_ink_conWraps (s : State) (fn : Nat) (n : Nat) : (drainCompletions s fn n).ink.conWraps = s.ink.conWraps :=
  (drainCompletions_inkk s fn n (InkKept.refl s)).ok.conWraps
@[simp] theorem drainCompletions_ink_numVFs (s : State) (fn : Nat) (n : Nat) : (drainCompletions s fn n).ink.numVFs = s.ink.numVFs :=
  (drainCompletions_inkk s fn n (InkKept.refl s)).ok.numVFs
@[simp] theorem drainCompletions_ink_visited (s : State) (fn : Nat) (n : Nat) : (drainCompletions s fn n).ink.visited = s.ink.visited :=
  (drainCompletions_inkk s fn n (InkKept.refl s)).ok.visited
@[simp] theorem drainCompletions_ink_fetched (s : State) (fn : Nat) (n : Nat) : (drainCompletions s fn n).ink.fetched = s.ink.fetched :=
  (drainCompletions_inkk s fn n (InkKept.refl s)).ok.fetched
@[simp] theorem drainCompletions_ink_running (s : State) (fn : Nat) (n : Nat) : (drainCompletions s fn n).ink.running = s.ink.running :=
  (drainCompletions_inkk s fn n (InkKept.refl s)).ok.running
@[simp] theorem drainCompletions_ink_claims (s : State) (fn : Nat) (n : Nat) : (drainCompletions s fn n).ink.claims = s.ink.claims :=
  (drainCompletions_inkk s fn n (InkKept.refl s)).ok.claims
@[simp] theorem complete_ink_fwMajor (s : State) (c : Cmd) (status : Nat) (result : List Byte) : (complete s c status result).ink.fwMajor = s.ink.fwMajor :=
  (complete_inkk s c status result (InkKept.refl s)).ok.fwMajor
@[simp] theorem complete_ink_fwMinor (s : State) (c : Cmd) (status : Nat) (result : List Byte) : (complete s c status result).ink.fwMinor = s.ink.fwMinor :=
  (complete_inkk s c status result (InkKept.refl s)).ok.fwMinor
@[simp] theorem complete_ink_variant (s : State) (c : Cmd) (status : Nat) (result : List Byte) : (complete s c status result).ink.variant = s.ink.variant :=
  (complete_inkk s c status result (InkKept.refl s)).ok.variant
@[simp] theorem complete_ink_ifver (s : State) (c : Cmd) (status : Nat) (result : List Byte) : (complete s c status result).ink.ifver = s.ink.ifver :=
  (complete_inkk s c status result (InkKept.refl s)).ok.ifver
@[simp] theorem complete_ink_state (s : State) (c : Cmd) (status : Nat) (result : List Byte) : (complete s c status result).ink.state = s.ink.state :=
  (complete_inkk s c status result (InkKept.refl s)).ok.state
@[simp] theorem complete_ink_seq (s : State) (c : Cmd) (status : Nat) (result : List Byte) : (complete s c status result).ink.seq = s.ink.seq :=
  (complete_inkk s c status result (InkKept.refl s)).ok.seq
@[simp] theorem complete_ink_con (s : State) (c : Cmd) (status : Nat) (result : List Byte) : (complete s c status result).ink.con = s.ink.con :=
  (complete_inkk s c status result (InkKept.refl s)).ok.con
@[simp] theorem complete_ink_conPtr (s : State) (c : Cmd) (status : Nat) (result : List Byte) : (complete s c status result).ink.conPtr = s.ink.conPtr :=
  (complete_inkk s c status result (InkKept.refl s)).ok.conPtr
@[simp] theorem complete_ink_conWraps (s : State) (c : Cmd) (status : Nat) (result : List Byte) : (complete s c status result).ink.conWraps = s.ink.conWraps :=
  (complete_inkk s c status result (InkKept.refl s)).ok.conWraps
@[simp] theorem complete_ink_numVFs (s : State) (c : Cmd) (status : Nat) (result : List Byte) : (complete s c status result).ink.numVFs = s.ink.numVFs :=
  (complete_inkk s c status result (InkKept.refl s)).ok.numVFs
@[simp] theorem complete_ink_visited (s : State) (c : Cmd) (status : Nat) (result : List Byte) : (complete s c status result).ink.visited = s.ink.visited :=
  (complete_inkk s c status result (InkKept.refl s)).ok.visited
@[simp] theorem complete_ink_fetched (s : State) (c : Cmd) (status : Nat) (result : List Byte) : (complete s c status result).ink.fetched = s.ink.fetched :=
  (complete_inkk s c status result (InkKept.refl s)).ok.fetched
@[simp] theorem complete_ink_running (s : State) (c : Cmd) (status : Nat) (result : List Byte) : (complete s c status result).ink.running = s.ink.running :=
  (complete_inkk s c status result (InkKept.refl s)).ok.running
@[simp] theorem complete_ink_claims (s : State) (c : Cmd) (status : Nat) (result : List Byte) : (complete s c status result).ink.claims = s.ink.claims :=
  (complete_inkk s c status result (InkKept.refl s)).ok.claims
@[simp] theorem drainEvents_ink_fwMajor (s : State) (fn : Nat) : (drainEvents s fn).ink.fwMajor = s.ink.fwMajor :=
  (drainEvents_inkk s fn (InkKept.refl s)).ok.fwMajor
@[simp] theorem drainEvents_ink_fwMinor (s : State) (fn : Nat) : (drainEvents s fn).ink.fwMinor = s.ink.fwMinor :=
  (drainEvents_inkk s fn (InkKept.refl s)).ok.fwMinor
@[simp] theorem drainEvents_ink_variant (s : State) (fn : Nat) : (drainEvents s fn).ink.variant = s.ink.variant :=
  (drainEvents_inkk s fn (InkKept.refl s)).ok.variant
@[simp] theorem drainEvents_ink_ifver (s : State) (fn : Nat) : (drainEvents s fn).ink.ifver = s.ink.ifver :=
  (drainEvents_inkk s fn (InkKept.refl s)).ok.ifver
@[simp] theorem drainEvents_ink_state (s : State) (fn : Nat) : (drainEvents s fn).ink.state = s.ink.state :=
  (drainEvents_inkk s fn (InkKept.refl s)).ok.state
@[simp] theorem drainEvents_ink_seq (s : State) (fn : Nat) : (drainEvents s fn).ink.seq = s.ink.seq :=
  (drainEvents_inkk s fn (InkKept.refl s)).ok.seq
@[simp] theorem drainEvents_ink_con (s : State) (fn : Nat) : (drainEvents s fn).ink.con = s.ink.con :=
  (drainEvents_inkk s fn (InkKept.refl s)).ok.con
@[simp] theorem drainEvents_ink_conPtr (s : State) (fn : Nat) : (drainEvents s fn).ink.conPtr = s.ink.conPtr :=
  (drainEvents_inkk s fn (InkKept.refl s)).ok.conPtr
@[simp] theorem drainEvents_ink_conWraps (s : State) (fn : Nat) : (drainEvents s fn).ink.conWraps = s.ink.conWraps :=
  (drainEvents_inkk s fn (InkKept.refl s)).ok.conWraps
@[simp] theorem drainEvents_ink_numVFs (s : State) (fn : Nat) : (drainEvents s fn).ink.numVFs = s.ink.numVFs :=
  (drainEvents_inkk s fn (InkKept.refl s)).ok.numVFs
@[simp] theorem drainEvents_ink_visited (s : State) (fn : Nat) : (drainEvents s fn).ink.visited = s.ink.visited :=
  (drainEvents_inkk s fn (InkKept.refl s)).ok.visited
@[simp] theorem drainEvents_ink_fetched (s : State) (fn : Nat) : (drainEvents s fn).ink.fetched = s.ink.fetched :=
  (drainEvents_inkk s fn (InkKept.refl s)).ok.fetched
@[simp] theorem drainEvents_ink_running (s : State) (fn : Nat) : (drainEvents s fn).ink.running = s.ink.running :=
  (drainEvents_inkk s fn (InkKept.refl s)).ok.running
@[simp] theorem drainEvents_ink_claims (s : State) (fn : Nat) : (drainEvents s fn).ink.claims = s.ink.claims :=
  (drainEvents_inkk s fn (InkKept.refl s)).ok.claims
@[simp] theorem postAt_ink_fwMajor (s : State) (at_ : Stamp) (code : Nat) (part : Nat) (data : List Byte) (droppable : Bool) : (postAt s at_ code part data droppable).ink.fwMajor = s.ink.fwMajor :=
  (postAt_inkk s at_ code part data droppable (InkKept.refl s)).ok.fwMajor
@[simp] theorem postAt_ink_fwMinor (s : State) (at_ : Stamp) (code : Nat) (part : Nat) (data : List Byte) (droppable : Bool) : (postAt s at_ code part data droppable).ink.fwMinor = s.ink.fwMinor :=
  (postAt_inkk s at_ code part data droppable (InkKept.refl s)).ok.fwMinor
@[simp] theorem postAt_ink_variant (s : State) (at_ : Stamp) (code : Nat) (part : Nat) (data : List Byte) (droppable : Bool) : (postAt s at_ code part data droppable).ink.variant = s.ink.variant :=
  (postAt_inkk s at_ code part data droppable (InkKept.refl s)).ok.variant
@[simp] theorem postAt_ink_ifver (s : State) (at_ : Stamp) (code : Nat) (part : Nat) (data : List Byte) (droppable : Bool) : (postAt s at_ code part data droppable).ink.ifver = s.ink.ifver :=
  (postAt_inkk s at_ code part data droppable (InkKept.refl s)).ok.ifver
@[simp] theorem postAt_ink_state (s : State) (at_ : Stamp) (code : Nat) (part : Nat) (data : List Byte) (droppable : Bool) : (postAt s at_ code part data droppable).ink.state = s.ink.state :=
  (postAt_inkk s at_ code part data droppable (InkKept.refl s)).ok.state
@[simp] theorem postAt_ink_seq (s : State) (at_ : Stamp) (code : Nat) (part : Nat) (data : List Byte) (droppable : Bool) : (postAt s at_ code part data droppable).ink.seq = s.ink.seq :=
  (postAt_inkk s at_ code part data droppable (InkKept.refl s)).ok.seq
@[simp] theorem postAt_ink_con (s : State) (at_ : Stamp) (code : Nat) (part : Nat) (data : List Byte) (droppable : Bool) : (postAt s at_ code part data droppable).ink.con = s.ink.con :=
  (postAt_inkk s at_ code part data droppable (InkKept.refl s)).ok.con
@[simp] theorem postAt_ink_conPtr (s : State) (at_ : Stamp) (code : Nat) (part : Nat) (data : List Byte) (droppable : Bool) : (postAt s at_ code part data droppable).ink.conPtr = s.ink.conPtr :=
  (postAt_inkk s at_ code part data droppable (InkKept.refl s)).ok.conPtr
@[simp] theorem postAt_ink_conWraps (s : State) (at_ : Stamp) (code : Nat) (part : Nat) (data : List Byte) (droppable : Bool) : (postAt s at_ code part data droppable).ink.conWraps = s.ink.conWraps :=
  (postAt_inkk s at_ code part data droppable (InkKept.refl s)).ok.conWraps
@[simp] theorem postAt_ink_numVFs (s : State) (at_ : Stamp) (code : Nat) (part : Nat) (data : List Byte) (droppable : Bool) : (postAt s at_ code part data droppable).ink.numVFs = s.ink.numVFs :=
  (postAt_inkk s at_ code part data droppable (InkKept.refl s)).ok.numVFs
@[simp] theorem postAt_ink_visited (s : State) (at_ : Stamp) (code : Nat) (part : Nat) (data : List Byte) (droppable : Bool) : (postAt s at_ code part data droppable).ink.visited = s.ink.visited :=
  (postAt_inkk s at_ code part data droppable (InkKept.refl s)).ok.visited
@[simp] theorem postAt_ink_fetched (s : State) (at_ : Stamp) (code : Nat) (part : Nat) (data : List Byte) (droppable : Bool) : (postAt s at_ code part data droppable).ink.fetched = s.ink.fetched :=
  (postAt_inkk s at_ code part data droppable (InkKept.refl s)).ok.fetched
@[simp] theorem postAt_ink_running (s : State) (at_ : Stamp) (code : Nat) (part : Nat) (data : List Byte) (droppable : Bool) : (postAt s at_ code part data droppable).ink.running = s.ink.running :=
  (postAt_inkk s at_ code part data droppable (InkKept.refl s)).ok.running
@[simp] theorem postAt_ink_claims (s : State) (at_ : Stamp) (code : Nat) (part : Nat) (data : List Byte) (droppable : Bool) : (postAt s at_ code part data droppable).ink.claims = s.ink.claims :=
  (postAt_inkk s at_ code part data droppable (InkKept.refl s)).ok.claims
@[simp] theorem post_ink_fwMajor (s : State) (code : Nat) (part : Nat) (data : List Byte) (droppable : Bool) : (post s code part data droppable).ink.fwMajor = s.ink.fwMajor :=
  (post_inkk s code part data droppable (InkKept.refl s)).ok.fwMajor
@[simp] theorem post_ink_fwMinor (s : State) (code : Nat) (part : Nat) (data : List Byte) (droppable : Bool) : (post s code part data droppable).ink.fwMinor = s.ink.fwMinor :=
  (post_inkk s code part data droppable (InkKept.refl s)).ok.fwMinor
@[simp] theorem post_ink_variant (s : State) (code : Nat) (part : Nat) (data : List Byte) (droppable : Bool) : (post s code part data droppable).ink.variant = s.ink.variant :=
  (post_inkk s code part data droppable (InkKept.refl s)).ok.variant
@[simp] theorem post_ink_ifver (s : State) (code : Nat) (part : Nat) (data : List Byte) (droppable : Bool) : (post s code part data droppable).ink.ifver = s.ink.ifver :=
  (post_inkk s code part data droppable (InkKept.refl s)).ok.ifver
@[simp] theorem post_ink_state (s : State) (code : Nat) (part : Nat) (data : List Byte) (droppable : Bool) : (post s code part data droppable).ink.state = s.ink.state :=
  (post_inkk s code part data droppable (InkKept.refl s)).ok.state
@[simp] theorem post_ink_seq (s : State) (code : Nat) (part : Nat) (data : List Byte) (droppable : Bool) : (post s code part data droppable).ink.seq = s.ink.seq :=
  (post_inkk s code part data droppable (InkKept.refl s)).ok.seq
@[simp] theorem post_ink_con (s : State) (code : Nat) (part : Nat) (data : List Byte) (droppable : Bool) : (post s code part data droppable).ink.con = s.ink.con :=
  (post_inkk s code part data droppable (InkKept.refl s)).ok.con
@[simp] theorem post_ink_conPtr (s : State) (code : Nat) (part : Nat) (data : List Byte) (droppable : Bool) : (post s code part data droppable).ink.conPtr = s.ink.conPtr :=
  (post_inkk s code part data droppable (InkKept.refl s)).ok.conPtr
@[simp] theorem post_ink_conWraps (s : State) (code : Nat) (part : Nat) (data : List Byte) (droppable : Bool) : (post s code part data droppable).ink.conWraps = s.ink.conWraps :=
  (post_inkk s code part data droppable (InkKept.refl s)).ok.conWraps
@[simp] theorem post_ink_numVFs (s : State) (code : Nat) (part : Nat) (data : List Byte) (droppable : Bool) : (post s code part data droppable).ink.numVFs = s.ink.numVFs :=
  (post_inkk s code part data droppable (InkKept.refl s)).ok.numVFs
@[simp] theorem post_ink_visited (s : State) (code : Nat) (part : Nat) (data : List Byte) (droppable : Bool) : (post s code part data droppable).ink.visited = s.ink.visited :=
  (post_inkk s code part data droppable (InkKept.refl s)).ok.visited
@[simp] theorem post_ink_fetched (s : State) (code : Nat) (part : Nat) (data : List Byte) (droppable : Bool) : (post s code part data droppable).ink.fetched = s.ink.fetched :=
  (post_inkk s code part data droppable (InkKept.refl s)).ok.fetched
@[simp] theorem post_ink_running (s : State) (code : Nat) (part : Nat) (data : List Byte) (droppable : Bool) : (post s code part data droppable).ink.running = s.ink.running :=
  (post_inkk s code part data droppable (InkKept.refl s)).ok.running
@[simp] theorem post_ink_claims (s : State) (code : Nat) (part : Nat) (data : List Byte) (droppable : Bool) : (post s code part data droppable).ink.claims = s.ink.claims :=
  (post_inkk s code part data droppable (InkKept.refl s)).ok.claims
@[simp] theorem hostPut_ink (s : State) (a : Nat) (b : List Byte) : (hostPut s a b).ink = s.ink := rfl
@[simp] theorem hostPut_obs (s : State) (a : Nat) (b : List Byte) : (hostPut s a b).obs = s.obs := rfl
@[simp] theorem hostStore_pending (s : State) (a : Nat) (b : List Byte) : (hostStore s a b).pending = s.pending :=
  (hostStore_outer s a b (Outer.refl s)).ok.pending
@[simp] theorem hostStore_time (s : State) (a : Nat) (b : List Byte) : (hostStore s a b).time = s.time :=
  (hostStore_outer s a b (Outer.refl s)).ok.time
@[simp] theorem hostStore_free (s : State) (a : Nat) (b : List Byte) : (hostStore s a b).free = s.free :=
  (hostStore_outer s a b (Outer.refl s)).ok.free
@[simp] theorem hostStore_hostFaults (s : State) (a : Nat) (b : List Byte) : (hostStore s a b).hostFaults = s.hostFaults :=
  (hostStore_outer s a b (Outer.refl s)).ok.hostFaults
@[simp] theorem hostStore_rul (s : State) (a : Nat) (b : List Byte) : (hostStore s a b).rul = s.rul :=
  (hostStore_outer s a b (Outer.refl s)).ok.rul
@[simp] theorem hostStore_mem (s : State) (a : Nat) (b : List Byte) : (hostStore s a b).mem = s.mem :=
  (hostStore_outer s a b (Outer.refl s)).ok.mem
@[simp] theorem hostStore_svc (s : State) (a : Nat) (b : List Byte) : (hostStore s a b).svc = s.svc :=
  (hostStore_outer s a b (Outer.refl s)).ok.svc
@[simp] theorem hostStore_ari (s : State) (a : Nat) (b : List Byte) : (hostStore s a b).ari = s.ari :=
  (hostStore_outer s a b (Outer.refl s)).ok.ari
@[simp] theorem hostStore_fold (s : State) (a : Nat) (b : List Byte) : (hostStore s a b).fold = s.fold :=
  (hostStore_outer s a b (Outer.refl s)).ok.fold
@[simp] theorem hostStore_cpu (s : State) (a : Nat) (b : List Byte) : (hostStore s a b).cpu = s.cpu :=
  (hostStore_outer s a b (Outer.refl s)).ok.cpu
@[simp] theorem hostStore_srv (s : State) (a : Nat) (b : List Byte) : (hostStore s a b).srv = s.srv :=
  (hostStore_outer s a b (Outer.refl s)).ok.srv
@[simp] theorem hostStore_stp (s : State) (a : Nat) (b : List Byte) : (hostStore s a b).stp = s.stp :=
  (hostStore_outer s a b (Outer.refl s)).ok.stp
@[simp] theorem hostStore_flo (s : State) (a : Nat) (b : List Byte) : (hostStore s a b).flo = s.flo :=
  (hostStore_outer s a b (Outer.refl s)).ok.flo
@[simp] theorem hostStore_duc (s : State) (a : Nat) (b : List Byte) : (hostStore s a b).duc = s.duc :=
  (hostStore_outer s a b (Outer.refl s)).ok.duc
@[simp] theorem hostStore_pwr (s : State) (a : Nat) (b : List Byte) : (hostStore s a b).pwr = s.pwr :=
  (hostStore_outer s a b (Outer.refl s)).ok.pwr
@[simp] theorem hostStore_ink (s : State) (a : Nat) (b : List Byte) : (hostStore s a b).ink = s.ink := by
  unfold hostStore hostBytesWritten
  rw [prog_ink]
  exact hostPut_ink s a b
@[simp] theorem hostStore_host (s : State) (a : Nat) (b : List Byte) : (hostStore s a b).host = cellPuts hostDflt s.host a b := by
  unfold hostStore hostBytesWritten
  rw [prog_host]
  unfold hostPut
  rfl
@[simp] theorem hostBytesRead_pending (s : State) (n : Nat) : (hostBytesRead s n).pending = s.pending :=
  (prog_outer s _ _ _ _ n (Outer.refl s)).ok.pending
@[simp] theorem hostBytesRead_time (s : State) (n : Nat) : (hostBytesRead s n).time = s.time :=
  (prog_outer s _ _ _ _ n (Outer.refl s)).ok.time
@[simp] theorem hostBytesRead_free (s : State) (n : Nat) : (hostBytesRead s n).free = s.free :=
  (prog_outer s _ _ _ _ n (Outer.refl s)).ok.free
@[simp] theorem hostBytesRead_hostFaults (s : State) (n : Nat) : (hostBytesRead s n).hostFaults = s.hostFaults :=
  (prog_outer s _ _ _ _ n (Outer.refl s)).ok.hostFaults
@[simp] theorem hostBytesRead_rul (s : State) (n : Nat) : (hostBytesRead s n).rul = s.rul :=
  (prog_outer s _ _ _ _ n (Outer.refl s)).ok.rul
@[simp] theorem hostBytesRead_mem (s : State) (n : Nat) : (hostBytesRead s n).mem = s.mem :=
  (prog_outer s _ _ _ _ n (Outer.refl s)).ok.mem
@[simp] theorem hostBytesRead_svc (s : State) (n : Nat) : (hostBytesRead s n).svc = s.svc :=
  (prog_outer s _ _ _ _ n (Outer.refl s)).ok.svc
@[simp] theorem hostBytesRead_ari (s : State) (n : Nat) : (hostBytesRead s n).ari = s.ari :=
  (prog_outer s _ _ _ _ n (Outer.refl s)).ok.ari
@[simp] theorem hostBytesRead_fold (s : State) (n : Nat) : (hostBytesRead s n).fold = s.fold :=
  (prog_outer s _ _ _ _ n (Outer.refl s)).ok.fold
@[simp] theorem hostBytesRead_cpu (s : State) (n : Nat) : (hostBytesRead s n).cpu = s.cpu :=
  (prog_outer s _ _ _ _ n (Outer.refl s)).ok.cpu
@[simp] theorem hostBytesRead_srv (s : State) (n : Nat) : (hostBytesRead s n).srv = s.srv :=
  (prog_outer s _ _ _ _ n (Outer.refl s)).ok.srv
@[simp] theorem hostBytesRead_stp (s : State) (n : Nat) : (hostBytesRead s n).stp = s.stp :=
  (prog_outer s _ _ _ _ n (Outer.refl s)).ok.stp
@[simp] theorem hostBytesRead_flo (s : State) (n : Nat) : (hostBytesRead s n).flo = s.flo :=
  (prog_outer s _ _ _ _ n (Outer.refl s)).ok.flo
@[simp] theorem hostBytesRead_duc (s : State) (n : Nat) : (hostBytesRead s n).duc = s.duc :=
  (prog_outer s _ _ _ _ n (Outer.refl s)).ok.duc
@[simp] theorem hostBytesRead_pwr (s : State) (n : Nat) : (hostBytesRead s n).pwr = s.pwr :=
  (prog_outer s _ _ _ _ n (Outer.refl s)).ok.pwr
@[simp] theorem hostBytesRead_ink (s : State) (n : Nat) : (hostBytesRead s n).ink = s.ink := prog_ink _ _ _ _ _ _
@[simp] theorem hostBytesRead_host (s : State) (n : Nat) : (hostBytesRead s n).host = s.host := prog_host _ _ _ _ _ _
@[simp] theorem hostBytesWritten_pending (s : State) (n : Nat) : (hostBytesWritten s n).pending = s.pending :=
  (prog_outer s _ _ _ _ n (Outer.refl s)).ok.pending
@[simp] theorem hostBytesWritten_time (s : State) (n : Nat) : (hostBytesWritten s n).time = s.time :=
  (prog_outer s _ _ _ _ n (Outer.refl s)).ok.time
@[simp] theorem hostBytesWritten_free (s : State) (n : Nat) : (hostBytesWritten s n).free = s.free :=
  (prog_outer s _ _ _ _ n (Outer.refl s)).ok.free
@[simp] theorem hostBytesWritten_hostFaults (s : State) (n : Nat) : (hostBytesWritten s n).hostFaults = s.hostFaults :=
  (prog_outer s _ _ _ _ n (Outer.refl s)).ok.hostFaults
@[simp] theorem hostBytesWritten_rul (s : State) (n : Nat) : (hostBytesWritten s n).rul = s.rul :=
  (prog_outer s _ _ _ _ n (Outer.refl s)).ok.rul
@[simp] theorem hostBytesWritten_mem (s : State) (n : Nat) : (hostBytesWritten s n).mem = s.mem :=
  (prog_outer s _ _ _ _ n (Outer.refl s)).ok.mem
@[simp] theorem hostBytesWritten_svc (s : State) (n : Nat) : (hostBytesWritten s n).svc = s.svc :=
  (prog_outer s _ _ _ _ n (Outer.refl s)).ok.svc
@[simp] theorem hostBytesWritten_ari (s : State) (n : Nat) : (hostBytesWritten s n).ari = s.ari :=
  (prog_outer s _ _ _ _ n (Outer.refl s)).ok.ari
@[simp] theorem hostBytesWritten_fold (s : State) (n : Nat) : (hostBytesWritten s n).fold = s.fold :=
  (prog_outer s _ _ _ _ n (Outer.refl s)).ok.fold
@[simp] theorem hostBytesWritten_cpu (s : State) (n : Nat) : (hostBytesWritten s n).cpu = s.cpu :=
  (prog_outer s _ _ _ _ n (Outer.refl s)).ok.cpu
@[simp] theorem hostBytesWritten_srv (s : State) (n : Nat) : (hostBytesWritten s n).srv = s.srv :=
  (prog_outer s _ _ _ _ n (Outer.refl s)).ok.srv
@[simp] theorem hostBytesWritten_stp (s : State) (n : Nat) : (hostBytesWritten s n).stp = s.stp :=
  (prog_outer s _ _ _ _ n (Outer.refl s)).ok.stp
@[simp] theorem hostBytesWritten_flo (s : State) (n : Nat) : (hostBytesWritten s n).flo = s.flo :=
  (prog_outer s _ _ _ _ n (Outer.refl s)).ok.flo
@[simp] theorem hostBytesWritten_duc (s : State) (n : Nat) : (hostBytesWritten s n).duc = s.duc :=
  (prog_outer s _ _ _ _ n (Outer.refl s)).ok.duc
@[simp] theorem hostBytesWritten_pwr (s : State) (n : Nat) : (hostBytesWritten s n).pwr = s.pwr :=
  (prog_outer s _ _ _ _ n (Outer.refl s)).ok.pwr
@[simp] theorem hostBytesWritten_ink (s : State) (n : Nat) : (hostBytesWritten s n).ink = s.ink := prog_ink _ _ _ _ _ _
@[simp] theorem hostBytesWritten_host (s : State) (n : Nat) : (hostBytesWritten s n).host = s.host := prog_host _ _ _ _ _ _
@[simp] theorem func_setFunc (s : State) (fn : Nat) (f : Func) : func (setFunc s fn f) fn = f := by
  unfold func setFunc
  exact mget_mput _ _ _ _
@[simp] theorem ringOf_setRing (s : State) (fn n : Nat) (r : Ring) : ringOf (setRing s fn n r) fn n = r := by
  unfold ringOf setRing
  rw [func_setFunc]
  exact mget_mput _ _ _ _

end Sys2Proof.Machine
end

