-- ==== Sys2Proof/Laws/StateLinks.lean ====
section
/-! SUPPORT. What tracing and sending on the links leave alone, one lemma for each operation and field. -/
namespace Sys2Proof.Machine
open Sys2Proof
@[simp] theorem bumpO_pending (s : State) (p : Option Nat) (i : Nat) (n : Nat) : (bumpO s p i n).pending = s.pending :=
  (bumpO_far s p i n (Far.refl s)).ok.pending
@[simp] theorem bumpO_time (s : State) (p : Option Nat) (i : Nat) (n : Nat) : (bumpO s p i n).time = s.time :=
  (bumpO_far s p i n (Far.refl s)).ok.time
@[simp] theorem bumpO_hostFaults (s : State) (p : Option Nat) (i : Nat) (n : Nat) : (bumpO s p i n).hostFaults = s.hostFaults :=
  (bumpO_far s p i n (Far.refl s)).ok.hostFaults
@[simp] theorem bumpO_rul (s : State) (p : Option Nat) (i : Nat) (n : Nat) : (bumpO s p i n).rul = s.rul :=
  (bumpO_far s p i n (Far.refl s)).ok.rul
@[simp] theorem bumpO_mem (s : State) (p : Option Nat) (i : Nat) (n : Nat) : (bumpO s p i n).mem = s.mem :=
  (bumpO_far s p i n (Far.refl s)).ok.mem
@[simp] theorem bumpO_svc (s : State) (p : Option Nat) (i : Nat) (n : Nat) : (bumpO s p i n).svc = s.svc :=
  (bumpO_far s p i n (Far.refl s)).ok.svc
@[simp] theorem bumpO_ari (s : State) (p : Option Nat) (i : Nat) (n : Nat) : (bumpO s p i n).ari = s.ari :=
  (bumpO_far s p i n (Far.refl s)).ok.ari
@[simp] theorem bumpO_fold (s : State) (p : Option Nat) (i : Nat) (n : Nat) : (bumpO s p i n).fold = s.fold :=
  (bumpO_far s p i n (Far.refl s)).ok.fold
@[simp] theorem bumpO_cpu (s : State) (p : Option Nat) (i : Nat) (n : Nat) : (bumpO s p i n).cpu = s.cpu :=
  (bumpO_far s p i n (Far.refl s)).ok.cpu
@[simp] theorem bumpO_srv (s : State) (p : Option Nat) (i : Nat) (n : Nat) : (bumpO s p i n).srv = s.srv :=
  (bumpO_far s p i n (Far.refl s)).ok.srv
@[simp] theorem bumpO_stp (s : State) (p : Option Nat) (i : Nat) (n : Nat) : (bumpO s p i n).stp = s.stp :=
  (bumpO_far s p i n (Far.refl s)).ok.stp
@[simp] theorem bumpO_flo (s : State) (p : Option Nat) (i : Nat) (n : Nat) : (bumpO s p i n).flo = s.flo :=
  (bumpO_far s p i n (Far.refl s)).ok.flo
@[simp] theorem bumpO_pwr (s : State) (p : Option Nat) (i : Nat) (n : Nat) : (bumpO s p i n).pwr = s.pwr :=
  (bumpO_far s p i n (Far.refl s)).ok.pwr
@[simp] theorem traceAt_pending (s : State) (inst : Nat) (type : Nat) (unit : Nat) (part : Option Nat) (payload : List Byte) (forced : Bool) : (traceAt s inst type unit part payload forced).pending = s.pending :=
  (traceAt_far s inst type unit part payload forced (Far.refl s)).ok.pending
@[simp] theorem traceAt_time (s : State) (inst : Nat) (type : Nat) (unit : Nat) (part : Option Nat) (payload : List Byte) (forced : Bool) : (traceAt s inst type unit part payload forced).time = s.time :=
  (traceAt_far s inst type unit part payload forced (Far.refl s)).ok.time
@[simp] theorem traceAt_hostFaults (s : State) (inst : Nat) (type : Nat) (unit : Nat) (part : Option Nat) (payload : List Byte) (forced : Bool) : (traceAt s inst type unit part payload forced).hostFaults = s.hostFaults :=
  (traceAt_far s inst type unit part payload forced (Far.refl s)).ok.hostFaults
@[simp] theorem traceAt_rul (s : State) (inst : Nat) (type : Nat) (unit : Nat) (part : Option Nat) (payload : List Byte) (forced : Bool) : (traceAt s inst type unit part payload forced).rul = s.rul :=
  (traceAt_far s inst type unit part payload forced (Far.refl s)).ok.rul
@[simp] theorem traceAt_mem (s : State) (inst : Nat) (type : Nat) (unit : Nat) (part : Option Nat) (payload : List Byte) (forced : Bool) : (traceAt s inst type unit part payload forced).mem = s.mem :=
  (traceAt_far s inst type unit part payload forced (Far.refl s)).ok.mem
@[simp] theorem traceAt_svc (s : State) (inst : Nat) (type : Nat) (unit : Nat) (part : Option Nat) (payload : List Byte) (forced : Bool) : (traceAt s inst type unit part payload forced).svc = s.svc :=
  (traceAt_far s inst type unit part payload forced (Far.refl s)).ok.svc
@[simp] theorem traceAt_ari (s : State) (inst : Nat) (type : Nat) (unit : Nat) (part : Option Nat) (payload : List Byte) (forced : Bool) : (traceAt s inst type unit part payload forced).ari = s.ari :=
  (traceAt_far s inst type unit part payload forced (Far.refl s)).ok.ari
@[simp] theorem traceAt_fold (s : State) (inst : Nat) (type : Nat) (unit : Nat) (part : Option Nat) (payload : List Byte) (forced : Bool) : (traceAt s inst type unit part payload forced).fold = s.fold :=
  (traceAt_far s inst type unit part payload forced (Far.refl s)).ok.fold
@[simp] theorem traceAt_cpu (s : State) (inst : Nat) (type : Nat) (unit : Nat) (part : Option Nat) (payload : List Byte) (forced : Bool) : (traceAt s inst type unit part payload forced).cpu = s.cpu :=
  (traceAt_far s inst type unit part payload forced (Far.refl s)).ok.cpu
@[simp] theorem traceAt_srv (s : State) (inst : Nat) (type : Nat) (unit : Nat) (part : Option Nat) (payload : List Byte) (forced : Bool) : (traceAt s inst type unit part payload forced).srv = s.srv :=
  (traceAt_far s inst type unit part payload forced (Far.refl s)).ok.srv
@[simp] theorem traceAt_stp (s : State) (inst : Nat) (type : Nat) (unit : Nat) (part : Option Nat) (payload : List Byte) (forced : Bool) : (traceAt s inst type unit part payload forced).stp = s.stp :=
  (traceAt_far s inst type unit part payload forced (Far.refl s)).ok.stp
@[simp] theorem traceAt_flo (s : State) (inst : Nat) (type : Nat) (unit : Nat) (part : Option Nat) (payload : List Byte) (forced : Bool) : (traceAt s inst type unit part payload forced).flo = s.flo :=
  (traceAt_far s inst type unit part payload forced (Far.refl s)).ok.flo
@[simp] theorem traceAt_pwr (s : State) (inst : Nat) (type : Nat) (unit : Nat) (part : Option Nat) (payload : List Byte) (forced : Bool) : (traceAt s inst type unit part payload forced).pwr = s.pwr :=
  (traceAt_far s inst type unit part payload forced (Far.refl s)).ok.pwr
@[simp] theorem tracePart_pending (s : State) (p : Nat) (type : Nat) (unit : Nat) (payload : List Byte) : (tracePart s p type unit payload).pending = s.pending :=
  (tracePart_far s p type unit payload (Far.refl s)).ok.pending
@[simp] theorem tracePart_time (s : State) (p : Nat) (type : Nat) (unit : Nat) (payload : List Byte) : (tracePart s p type unit payload).time = s.time :=
  (tracePart_far s p type unit payload (Far.refl s)).ok.time
@[simp] theorem tracePart_hostFaults (s : State) (p : Nat) (type : Nat) (unit : Nat) (payload : List Byte) : (tracePart s p type unit payload).hostFaults = s.hostFaults :=
  (tracePart_far s p type unit payload (Far.refl s)).ok.hostFaults
@[simp] theorem tracePart_rul (s : State) (p : Nat) (type : Nat) (unit : Nat) (payload : List Byte) : (tracePart s p type unit payload).rul = s.rul :=
  (tracePart_far s p type unit payload (Far.refl s)).ok.rul
@[simp] theorem tracePart_mem (s : State) (p : Nat) (type : Nat) (unit : Nat) (payload : List Byte) : (tracePart s p type unit payload).mem = s.mem :=
  (tracePart_far s p type unit payload (Far.refl s)).ok.mem
@[simp] theorem tracePart_svc (s : State) (p : Nat) (type : Nat) (unit : Nat) (payload : List Byte) : (tracePart s p type unit payload).svc = s.svc :=
  (tracePart_far s p type unit payload (Far.refl s)).ok.svc
@[simp] theorem tracePart_ari (s : State) (p : Nat) (type : Nat) (unit : Nat) (payload : List Byte) : (tracePart s p type unit payload).ari = s.ari :=
  (tracePart_far s p type unit payload (Far.refl s)).ok.ari
@[simp] theorem tracePart_fold (s : State) (p : Nat) (type : Nat) (unit : Nat) (payload : List Byte) : (tracePart s p type unit payload).fold = s.fold :=
  (tracePart_far s p type unit payload (Far.refl s)).ok.fold
@[simp] theorem tracePart_cpu (s : State) (p : Nat) (type : Nat) (unit : Nat) (payload : List Byte) : (tracePart s p type unit payload).cpu = s.cpu :=
  (tracePart_far s p type unit payload (Far.refl s)).ok.cpu
@[simp] theorem tracePart_srv (s : State) (p : Nat) (type : Nat) (unit : Nat) (payload : List Byte) : (tracePart s p type unit payload).srv = s.srv :=
  (tracePart_far s p type unit payload (Far.refl s)).ok.srv
@[simp] theorem tracePart_stp (s : State) (p : Nat) (type : Nat) (unit : Nat) (payload : List Byte) : (tracePart s p type unit payload).stp = s.stp :=
  (tracePart_far s p type unit payload (Far.refl s)).ok.stp
@[simp] theorem tracePart_flo (s : State) (p : Nat) (type : Nat) (unit : Nat) (payload : List Byte) : (tracePart s p type unit payload).flo = s.flo :=
  (tracePart_far s p type unit payload (Far.refl s)).ok.flo
@[simp] theorem tracePart_pwr (s : State) (p : Nat) (type : Nat) (unit : Nat) (payload : List Byte) : (tracePart s p type unit payload).pwr = s.pwr :=
  (tracePart_far s p type unit payload (Far.refl s)).ok.pwr
@[simp] theorem freeze_pending (s : State) (scope : Nat) (cause : Nat) : (freeze s scope cause).pending = s.pending :=
  (freeze_far s scope cause (Far.refl s)).ok.pending
@[simp] theorem freeze_time (s : State) (scope : Nat) (cause : Nat) : (freeze s scope cause).time = s.time :=
  (freeze_far s scope cause (Far.refl s)).ok.time
@[simp] theorem freeze_hostFaults (s : State) (scope : Nat) (cause : Nat) : (freeze s scope cause).hostFaults = s.hostFaults :=
  (freeze_far s scope cause (Far.refl s)).ok.hostFaults
@[simp] theorem freeze_rul (s : State) (scope : Nat) (cause : Nat) : (freeze s scope cause).rul = s.rul :=
  (freeze_far s scope cause (Far.refl s)).ok.rul
@[simp] theorem freeze_mem (s : State) (scope : Nat) (cause : Nat) : (freeze s scope cause).mem = s.mem :=
  (freeze_far s scope cause (Far.refl s)).ok.mem
@[simp] theorem freeze_svc (s : State) (scope : Nat) (cause : Nat) : (freeze s scope cause).svc = s.svc :=
  (freeze_far s scope cause (Far.refl s)).ok.svc
@[simp] theorem freeze_ari (s : State) (scope : Nat) (cause : Nat) : (freeze s scope cause).ari = s.ari :=
  (freeze_far s scope cause (Far.refl s)).ok.ari
@[simp] theorem freeze_fold (s : State) (scope : Nat) (cause : Nat) : (freeze s scope cause).fold = s.fold :=
  (freeze_far s scope cause (Far.refl s)).ok.fold
@[simp] theorem freeze_cpu (s : State) (scope : Nat) (cause : Nat) : (freeze s scope cause).cpu = s.cpu :=
  (freeze_far s scope cause (Far.refl s)).ok.cpu
@[simp] theorem freeze_srv (s : State) (scope : Nat) (cause : Nat) : (freeze s scope cause).srv = s.srv :=
  (freeze_far s scope cause (Far.refl s)).ok.srv
@[simp] theorem freeze_stp (s : State) (scope : Nat) (cause : Nat) : (freeze s scope cause).stp = s.stp :=
  (freeze_far s scope cause (Far.refl s)).ok.stp
@[simp] theorem freeze_flo (s : State) (scope : Nat) (cause : Nat) : (freeze s scope cause).flo = s.flo :=
  (freeze_far s scope cause (Far.refl s)).ok.flo
@[simp] theorem freeze_pwr (s : State) (scope : Nat) (cause : Nat) : (freeze s scope cause).pwr = s.pwr :=
  (freeze_far s scope cause (Far.refl s)).ok.pwr
@[simp] theorem thaw_pending (s : State) (scope : Nat) : (thaw s scope).pending = s.pending :=
  (thaw_far s scope (Far.refl s)).ok.pending
@[simp] theorem thaw_time (s : State) (scope : Nat) : (thaw s scope).time = s.time :=
  (thaw_far s scope (Far.refl s)).ok.time
@[simp] theorem thaw_hostFaults (s : State) (scope : Nat) : (thaw s scope).hostFaults = s.hostFaults :=
  (thaw_far s scope (Far.refl s)).ok.hostFaults
@[simp] theorem thaw_rul (s : State) (scope : Nat) : (thaw s scope).rul = s.rul :=
  (thaw_far s scope (Far.refl s)).ok.rul
@[simp] theorem thaw_mem (s : State) (scope : Nat) : (thaw s scope).mem = s.mem :=
  (thaw_far s scope (Far.refl s)).ok.mem
@[simp] theorem thaw_svc (s : State) (scope : Nat) : (thaw s scope).svc = s.svc :=
  (thaw_far s scope (Far.refl s)).ok.svc
@[simp] theorem thaw_ari (s : State) (scope : Nat) : (thaw s scope).ari = s.ari :=
  (thaw_far s scope (Far.refl s)).ok.ari
@[simp] theorem thaw_fold (s : State) (scope : Nat) : (thaw s scope).fold = s.fold :=
  (thaw_far s scope (Far.refl s)).ok.fold
@[simp] theorem thaw_cpu (s : State) (scope : Nat) : (thaw s scope).cpu = s.cpu :=
  (thaw_far s scope (Far.refl s)).ok.cpu
@[simp] theorem thaw_srv (s : State) (scope : Nat) : (thaw s scope).srv = s.srv :=
  (thaw_far s scope (Far.refl s)).ok.srv
@[simp] theorem thaw_stp (s : State) (scope : Nat) : (thaw s scope).stp = s.stp :=
  (thaw_far s scope (Far.refl s)).ok.stp
@[simp] theorem thaw_flo (s : State) (scope : Nat) : (thaw s scope).flo = s.flo :=
  (thaw_far s scope (Far.refl s)).ok.flo
@[simp] theorem thaw_pwr (s : State) (scope : Nat) : (thaw s scope).pwr = s.pwr :=
  (thaw_far s scope (Far.refl s)).ok.pwr
@[simp] theorem watchAct_pending (s : State) (p : Nat) (k : Nat) (kind : Nat) (unit : Nat) (dpa : Nat) (len : Nat) (w : Watch) : (watchAct s p k kind unit dpa len w).pending = s.pending :=
  (watchAct_far s p k kind unit dpa len w (Far.refl s)).ok.pending
@[simp] theorem watchAct_time (s : State) (p : Nat) (k : Nat) (kind : Nat) (unit : Nat) (dpa : Nat) (len : Nat) (w : Watch) : (watchAct s p k kind unit dpa len w).time = s.time :=
  (watchAct_far s p k kind unit dpa len w (Far.refl s)).ok.time
@[simp] theorem watchAct_hostFaults (s : State) (p : Nat) (k : Nat) (kind : Nat) (unit : Nat) (dpa : Nat) (len : Nat) (w : Watch) : (watchAct s p k kind unit dpa len w).hostFaults = s.hostFaults :=
  (watchAct_far s p k kind unit dpa len w (Far.refl s)).ok.hostFaults
@[simp] theorem watchAct_rul (s : State) (p : Nat) (k : Nat) (kind : Nat) (unit : Nat) (dpa : Nat) (len : Nat) (w : Watch) : (watchAct s p k kind unit dpa len w).rul = s.rul :=
  (watchAct_far s p k kind unit dpa len w (Far.refl s)).ok.rul
@[simp] theorem watchAct_mem (s : State) (p : Nat) (k : Nat) (kind : Nat) (unit : Nat) (dpa : Nat) (len : Nat) (w : Watch) : (watchAct s p k kind unit dpa len w).mem = s.mem :=
  (watchAct_far s p k kind unit dpa len w (Far.refl s)).ok.mem
@[simp] theorem watchAct_svc (s : State) (p : Nat) (k : Nat) (kind : Nat) (unit : Nat) (dpa : Nat) (len : Nat) (w : Watch) : (watchAct s p k kind unit dpa len w).svc = s.svc :=
  (watchAct_far s p k kind unit dpa len w (Far.refl s)).ok.svc
@[simp] theorem watchAct_ari (s : State) (p : Nat) (k : Nat) (kind : Nat) (unit : Nat) (dpa : Nat) (len : Nat) (w : Watch) : (watchAct s p k kind unit dpa len w).ari = s.ari :=
  (watchAct_far s p k kind unit dpa len w (Far.refl s)).ok.ari
@[simp] theorem watchAct_fold (s : State) (p : Nat) (k : Nat) (kind : Nat) (unit : Nat) (dpa : Nat) (len : Nat) (w : Watch) : (watchAct s p k kind unit dpa len w).fold = s.fold :=
  (watchAct_far s p k kind unit dpa len w (Far.refl s)).ok.fold
@[simp] theorem watchAct_cpu (s : State) (p : Nat) (k : Nat) (kind : Nat) (unit : Nat) (dpa : Nat) (len : Nat) (w : Watch) : (watchAct s p k kind unit dpa len w).cpu = s.cpu :=
  (watchAct_far s p k kind unit dpa len w (Far.refl s)).ok.cpu
@[simp] theorem watchAct_srv (s : State) (p : Nat) (k : Nat) (kind : Nat) (unit : Nat) (dpa : Nat) (len : Nat) (w : Watch) : (watchAct s p k kind unit dpa len w).srv = s.srv :=
  (watchAct_far s p k kind unit dpa len w (Far.refl s)).ok.srv
@[simp] theorem watchAct_stp (s : State) (p : Nat) (k : Nat) (kind : Nat) (unit : Nat) (dpa : Nat) (len : Nat) (w : Watch) : (watchAct s p k kind unit dpa len w).stp = s.stp :=
  (watchAct_far s p k kind unit dpa len w (Far.refl s)).ok.stp
@[simp] theorem watchAct_flo (s : State) (p : Nat) (k : Nat) (kind : Nat) (unit : Nat) (dpa : Nat) (len : Nat) (w : Watch) : (watchAct s p k kind unit dpa len w).flo = s.flo :=
  (watchAct_far s p k kind unit dpa len w (Far.refl s)).ok.flo
@[simp] theorem watchAct_pwr (s : State) (p : Nat) (k : Nat) (kind : Nat) (unit : Nat) (dpa : Nat) (len : Nat) (w : Watch) : (watchAct s p k kind unit dpa len w).pwr = s.pwr :=
  (watchAct_far s p k kind unit dpa len w (Far.refl s)).ok.pwr
@[simp] theorem watch_pending (s : State) (rq : Requester) (kind : Nat) (dpa : Nat) (len : Nat) : (watch s rq kind dpa len).pending = s.pending :=
  (watch_far s rq kind dpa len (Far.refl s)).ok.pending
@[simp] theorem watch_time (s : State) (rq : Requester) (kind : Nat) (dpa : Nat) (len : Nat) : (watch s rq kind dpa len).time = s.time :=
  (watch_far s rq kind dpa len (Far.refl s)).ok.time
@[simp] theorem watch_hostFaults (s : State) (rq : Requester) (kind : Nat) (dpa : Nat) (len : Nat) : (watch s rq kind dpa len).hostFaults = s.hostFaults :=
  (watch_far s rq kind dpa len (Far.refl s)).ok.hostFaults
@[simp] theorem watch_rul (s : State) (rq : Requester) (kind : Nat) (dpa : Nat) (len : Nat) : (watch s rq kind dpa len).rul = s.rul :=
  (watch_far s rq kind dpa len (Far.refl s)).ok.rul
@[simp] theorem watch_mem (s : State) (rq : Requester) (kind : Nat) (dpa : Nat) (len : Nat) : (watch s rq kind dpa len).mem = s.mem :=
  (watch_far s rq kind dpa len (Far.refl s)).ok.mem
@[simp] theorem watch_svc (s : State) (rq : Requester) (kind : Nat) (dpa : Nat) (len : Nat) : (watch s rq kind dpa len).svc = s.svc :=
  (watch_far s rq kind dpa len (Far.refl s)).ok.svc
@[simp] theorem watch_ari (s : State) (rq : Requester) (kind : Nat) (dpa : Nat) (len : Nat) : (watch s rq kind dpa len).ari = s.ari :=
  (watch_far s rq kind dpa len (Far.refl s)).ok.ari
@[simp] theorem watch_fold (s : State) (rq : Requester) (kind : Nat) (dpa : Nat) (len : Nat) : (watch s rq kind dpa len).fold = s.fold :=
  (watch_far s rq kind dpa len (Far.refl s)).ok.fold
@[simp] theorem watch_cpu (s : State) (rq : Requester) (kind : Nat) (dpa : Nat) (len : Nat) : (watch s rq kind dpa len).cpu = s.cpu :=
  (watch_far s rq kind dpa len (Far.refl s)).ok.cpu
@[simp] theorem watch_srv (s : State) (rq : Requester) (kind : Nat) (dpa : Nat) (len : Nat) : (watch s rq kind dpa len).srv = s.srv :=
  (watch_far s rq kind dpa len (Far.refl s)).ok.srv
@[simp] theorem watch_stp (s : State) (rq : Requester) (kind : Nat) (dpa : Nat) (len : Nat) : (watch s rq kind dpa len).stp = s.stp :=
  (watch_far s rq kind dpa len (Far.refl s)).ok.stp
@[simp] theorem watch_flo (s : State) (rq : Requester) (kind : Nat) (dpa : Nat) (len : Nat) : (watch s rq kind dpa len).flo = s.flo :=
  (watch_far s rq kind dpa len (Far.refl s)).ok.flo
@[simp] theorem watch_pwr (s : State) (rq : Requester) (kind : Nat) (dpa : Nat) (len : Nat) : (watch s rq kind dpa len).pwr = s.pwr :=
  (watch_far s rq kind dpa len (Far.refl s)).ok.pwr
@[simp] theorem latchProgs_pending (s : State) (p : Nat) (start : Bool) : (latchProgs s p start).pending = s.pending :=
  (latchProgs_far s p start (Far.refl s)).ok.pending
@[simp] theorem latchProgs_time (s : State) (p : Nat) (start : Bool) : (latchProgs s p start).time = s.time :=
  (latchProgs_far s p start (Far.refl s)).ok.time
@[simp] theorem latchProgs_hostFaults (s : State) (p : Nat) (start : Bool) : (latchProgs s p start).hostFaults = s.hostFaults :=
  (latchProgs_far s p start (Far.refl s)).ok.hostFaults
@[simp] theorem latchProgs_rul (s : State) (p : Nat) (start : Bool) : (latchProgs s p start).rul = s.rul :=
  (latchProgs_far s p start (Far.refl s)).ok.rul
@[simp] theorem latchProgs_mem (s : State) (p : Nat) (start : Bool) : (latchProgs s p start).mem = s.mem :=
  (latchProgs_far s p start (Far.refl s)).ok.mem
@[simp] theorem latchProgs_svc (s : State) (p : Nat) (start : Bool) : (latchProgs s p start).svc = s.svc :=
  (latchProgs_far s p start (Far.refl s)).ok.svc
@[simp] theorem latchProgs_ari (s : State) (p : Nat) (start : Bool) : (latchProgs s p start).ari = s.ari :=
  (latchProgs_far s p start (Far.refl s)).ok.ari
@[simp] theorem latchProgs_fold (s : State) (p : Nat) (start : Bool) : (latchProgs s p start).fold = s.fold :=
  (latchProgs_far s p start (Far.refl s)).ok.fold
@[simp] theorem latchProgs_cpu (s : State) (p : Nat) (start : Bool) : (latchProgs s p start).cpu = s.cpu :=
  (latchProgs_far s p start (Far.refl s)).ok.cpu
@[simp] theorem latchProgs_srv (s : State) (p : Nat) (start : Bool) : (latchProgs s p start).srv = s.srv :=
  (latchProgs_far s p start (Far.refl s)).ok.srv
@[simp] theorem latchProgs_stp (s : State) (p : Nat) (start : Bool) : (latchProgs s p start).stp = s.stp :=
  (latchProgs_far s p start (Far.refl s)).ok.stp
@[simp] theorem latchProgs_flo (s : State) (p : Nat) (start : Bool) : (latchProgs s p start).flo = s.flo :=
  (latchProgs_far s p start (Far.refl s)).ok.flo
@[simp] theorem latchProgs_pwr (s : State) (p : Nat) (start : Bool) : (latchProgs s p start).pwr = s.pwr :=
  (latchProgs_far s p start (Far.refl s)).ok.pwr
@[simp] theorem setLink_pending (s : State) (l : Nat) (x : Link) : (setLink s l x).pending = s.pending :=
  (setLink_far s l x (Far.refl s)).ok.pending
@[simp] theorem setLink_time (s : State) (l : Nat) (x : Link) : (setLink s l x).time = s.time :=
  (setLink_far s l x (Far.refl s)).ok.time
@[simp] theorem setLink_hostFaults (s : State) (l : Nat) (x : Link) : (setLink s l x).hostFaults = s.hostFaults :=
  (setLink_far s l x (Far.refl s)).ok.hostFaults
@[simp] theorem setLink_rul (s : State) (l : Nat) (x : Link) : (setLink s l x).rul = s.rul :=
  (setLink_far s l x (Far.refl s)).ok.rul
@[simp] theorem setLink_mem (s : State) (l : Nat) (x : Link) : (setLink s l x).mem = s.mem :=
  (setLink_far s l x (Far.refl s)).ok.mem
@[simp] theorem setLink_svc (s : State) (l : Nat) (x : Link) : (setLink s l x).svc = s.svc :=
  (setLink_far s l x (Far.refl s)).ok.svc
@[simp] theorem setLink_ari (s : State) (l : Nat) (x : Link) : (setLink s l x).ari = s.ari :=
  (setLink_far s l x (Far.refl s)).ok.ari
@[simp] theorem setLink_fold (s : State) (l : Nat) (x : Link) : (setLink s l x).fold = s.fold :=
  (setLink_far s l x (Far.refl s)).ok.fold
@[simp] theorem setLink_cpu (s : State) (l : Nat) (x : Link) : (setLink s l x).cpu = s.cpu :=
  (setLink_far s l x (Far.refl s)).ok.cpu
@[simp] theorem setLink_srv (s : State) (l : Nat) (x : Link) : (setLink s l x).srv = s.srv :=
  (setLink_far s l x (Far.refl s)).ok.srv
@[simp] theorem setLink_stp (s : State) (l : Nat) (x : Link) : (setLink s l x).stp = s.stp :=
  (setLink_far s l x (Far.refl s)).ok.stp
@[simp] theorem setLink_flo (s : State) (l : Nat) (x : Link) : (setLink s l x).flo = s.flo :=
  (setLink_far s l x (Far.refl s)).ok.flo
@[simp] theorem setLink_pwr (s : State) (l : Nat) (x : Link) : (setLink s l x).pwr = s.pwr :=
  (setLink_far s l x (Far.refl s)).ok.pwr
@[simp] theorem linkCount_pending (s : State) (l : Nat) (i : Nat) (n : Nat) : (linkCount s l i n).pending = s.pending :=
  (linkCount_far s l i n (Far.refl s)).ok.pending
@[simp] theorem linkCount_time (s : State) (l : Nat) (i : Nat) (n : Nat) : (linkCount s l i n).time = s.time :=
  (linkCount_far s l i n (Far.refl s)).ok.time
@[simp] theorem linkCount_hostFaults (s : State) (l : Nat) (i : Nat) (n : Nat) : (linkCount s l i n).hostFaults = s.hostFaults :=
  (linkCount_far s l i n (Far.refl s)).ok.hostFaults
@[simp] theorem linkCount_rul (s : State) (l : Nat) (i : Nat) (n : Nat) : (linkCount s l i n).rul = s.rul :=
  (linkCount_far s l i n (Far.refl s)).ok.rul
@[simp] theorem linkCount_mem (s : State) (l : Nat) (i : Nat) (n : Nat) : (linkCount s l i n).mem = s.mem :=
  (linkCount_far s l i n (Far.refl s)).ok.mem
@[simp] theorem linkCount_svc (s : State) (l : Nat) (i : Nat) (n : Nat) : (linkCount s l i n).svc = s.svc :=
  (linkCount_far s l i n (Far.refl s)).ok.svc
@[simp] theorem linkCount_ari (s : State) (l : Nat) (i : Nat) (n : Nat) : (linkCount s l i n).ari = s.ari :=
  (linkCount_far s l i n (Far.refl s)).ok.ari
@[simp] theorem linkCount_fold (s : State) (l : Nat) (i : Nat) (n : Nat) : (linkCount s l i n).fold = s.fold :=
  (linkCount_far s l i n (Far.refl s)).ok.fold
@[simp] theorem linkCount_cpu (s : State) (l : Nat) (i : Nat) (n : Nat) : (linkCount s l i n).cpu = s.cpu :=
  (linkCount_far s l i n (Far.refl s)).ok.cpu
@[simp] theorem linkCount_srv (s : State) (l : Nat) (i : Nat) (n : Nat) : (linkCount s l i n).srv = s.srv :=
  (linkCount_far s l i n (Far.refl s)).ok.srv
@[simp] theorem linkCount_stp (s : State) (l : Nat) (i : Nat) (n : Nat) : (linkCount s l i n).stp = s.stp :=
  (linkCount_far s l i n (Far.refl s)).ok.stp
@[simp] theorem linkCount_flo (s : State) (l : Nat) (i : Nat) (n : Nat) : (linkCount s l i n).flo = s.flo :=
  (linkCount_far s l i n (Far.refl s)).ok.flo
@[simp] theorem linkCount_pwr (s : State) (l : Nat) (i : Nat) (n : Nat) : (linkCount s l i n).pwr = s.pwr :=
  (linkCount_far s l i n (Far.refl s)).ok.pwr
@[simp] theorem linkMove_pending (s : State) (l : Nat) (st : Nat) (reason : Nat) : (linkMove s l st reason).pending = s.pending :=
  (linkMove_far s l st reason (Far.refl s)).ok.pending
@[simp] theorem linkMove_time (s : State) (l : Nat) (st : Nat) (reason : Nat) : (linkMove s l st reason).time = s.time :=
  (linkMove_far s l st reason (Far.refl s)).ok.time
@[simp] theorem linkMove_hostFaults (s : State) (l : Nat) (st : Nat) (reason : Nat) : (linkMove s l st reason).hostFaults = s.hostFaults :=
  (linkMove_far s l st reason (Far.refl s)).ok.hostFaults
@[simp] theorem linkMove_rul (s : State) (l : Nat) (st : Nat) (reason : Nat) : (linkMove s l st reason).rul = s.rul :=
  (linkMove_far s l st reason (Far.refl s)).ok.rul
@[simp] theorem linkMove_mem (s : State) (l : Nat) (st : Nat) (reason : Nat) : (linkMove s l st reason).mem = s.mem :=
  (linkMove_far s l st reason (Far.refl s)).ok.mem
@[simp] theorem linkMove_svc (s : State) (l : Nat) (st : Nat) (reason : Nat) : (linkMove s l st reason).svc = s.svc :=
  (linkMove_far s l st reason (Far.refl s)).ok.svc
@[simp] theorem linkMove_ari (s : State) (l : Nat) (st : Nat) (reason : Nat) : (linkMove s l st reason).ari = s.ari :=
  (linkMove_far s l st reason (Far.refl s)).ok.ari
@[simp] theorem linkMove_fold (s : State) (l : Nat) (st : Nat) (reason : Nat) : (linkMove s l st reason).fold = s.fold :=
  (linkMove_far s l st reason (Far.refl s)).ok.fold
@[simp] theorem linkMove_cpu (s : State) (l : Nat) (st : Nat) (reason : Nat) : (linkMove s l st reason).cpu = s.cpu :=
  (linkMove_far s l st reason (Far.refl s)).ok.cpu
@[simp] theorem linkMove_srv (s : State) (l : Nat) (st : Nat) (reason : Nat) : (linkMove s l st reason).srv = s.srv :=
  (linkMove_far s l st reason (Far.refl s)).ok.srv
@[simp] theorem linkMove_stp (s : State) (l : Nat) (st : Nat) (reason : Nat) : (linkMove s l st reason).stp = s.stp :=
  (linkMove_far s l st reason (Far.refl s)).ok.stp
@[simp] theorem linkMove_flo (s : State) (l : Nat) (st : Nat) (reason : Nat) : (linkMove s l st reason).flo = s.flo :=
  (linkMove_far s l st reason (Far.refl s)).ok.flo
@[simp] theorem linkMove_pwr (s : State) (l : Nat) (st : Nat) (reason : Nat) : (linkMove s l st reason).pwr = s.pwr :=
  (linkMove_far s l st reason (Far.refl s)).ok.pwr
@[simp] theorem countMsg_pending (s : State) (i : Nat) (m : Msg) : (countMsg s i m).pending = s.pending :=
  (countMsg_far s i m (Far.refl s)).ok.pending
@[simp] theorem countMsg_time (s : State) (i : Nat) (m : Msg) : (countMsg s i m).time = s.time :=
  (countMsg_far s i m (Far.refl s)).ok.time
@[simp] theorem countMsg_hostFaults (s : State) (i : Nat) (m : Msg) : (countMsg s i m).hostFaults = s.hostFaults :=
  (countMsg_far s i m (Far.refl s)).ok.hostFaults
@[simp] theorem countMsg_rul (s : State) (i : Nat) (m : Msg) : (countMsg s i m).rul = s.rul :=
  (countMsg_far s i m (Far.refl s)).ok.rul
@[simp] theorem countMsg_mem (s : State) (i : Nat) (m : Msg) : (countMsg s i m).mem = s.mem :=
  (countMsg_far s i m (Far.refl s)).ok.mem
@[simp] theorem countMsg_svc (s : State) (i : Nat) (m : Msg) : (countMsg s i m).svc = s.svc :=
  (countMsg_far s i m (Far.refl s)).ok.svc
@[simp] theorem countMsg_ari (s : State) (i : Nat) (m : Msg) : (countMsg s i m).ari = s.ari :=
  (countMsg_far s i m (Far.refl s)).ok.ari
@[simp] theorem countMsg_fold (s : State) (i : Nat) (m : Msg) : (countMsg s i m).fold = s.fold :=
  (countMsg_far s i m (Far.refl s)).ok.fold
@[simp] theorem countMsg_cpu (s : State) (i : Nat) (m : Msg) : (countMsg s i m).cpu = s.cpu :=
  (countMsg_far s i m (Far.refl s)).ok.cpu
@[simp] theorem countMsg_srv (s : State) (i : Nat) (m : Msg) : (countMsg s i m).srv = s.srv :=
  (countMsg_far s i m (Far.refl s)).ok.srv
@[simp] theorem countMsg_stp (s : State) (i : Nat) (m : Msg) : (countMsg s i m).stp = s.stp :=
  (countMsg_far s i m (Far.refl s)).ok.stp
@[simp] theorem countMsg_flo (s : State) (i : Nat) (m : Msg) : (countMsg s i m).flo = s.flo :=
  (countMsg_far s i m (Far.refl s)).ok.flo
@[simp] theorem countMsg_pwr (s : State) (i : Nat) (m : Msg) : (countMsg s i m).pwr = s.pwr :=
  (countMsg_far s i m (Far.refl s)).ok.pwr
@[simp] theorem noteMsg_pending (s : State) (l : Nat) (m : Msg) (type : Nat) : (noteMsg s l m type).pending = s.pending :=
  (noteMsg_far s l m type (Far.refl s)).ok.pending
@[simp] theorem noteMsg_time (s : State) (l : Nat) (m : Msg) (type : Nat) : (noteMsg s l m type).time = s.time :=
  (noteMsg_far s l m type (Far.refl s)).ok.time
@[simp] theorem noteMsg_hostFaults (s : State) (l : Nat) (m : Msg) (type : Nat) : (noteMsg s l m type).hostFaults = s.hostFaults :=
  (noteMsg_far s l m type (Far.refl s)).ok.hostFaults
@[simp] theorem noteMsg_rul (s : State) (l : Nat) (m : Msg) (type : Nat) : (noteMsg s l m type).rul = s.rul :=
  (noteMsg_far s l m type (Far.refl s)).ok.rul
@[simp] theorem noteMsg_mem (s : State) (l : Nat) (m : Msg) (type : Nat) : (noteMsg s l m type).mem = s.mem :=
  (noteMsg_far s l m type (Far.refl s)).ok.mem
@[simp] theorem noteMsg_svc (s : State) (l : Nat) (m : Msg) (type : Nat) : (noteMsg s l m type).svc = s.svc :=
  (noteMsg_far s l m type (Far.refl s)).ok.svc
@[simp] theorem noteMsg_ari (s : State) (l : Nat) (m : Msg) (type : Nat) : (noteMsg s l m type).ari = s.ari :=
  (noteMsg_far s l m type (Far.refl s)).ok.ari
@[simp] theorem noteMsg_fold (s : State) (l : Nat) (m : Msg) (type : Nat) : (noteMsg s l m type).fold = s.fold :=
  (noteMsg_far s l m type (Far.refl s)).ok.fold
@[simp] theorem noteMsg_cpu (s : State) (l : Nat) (m : Msg) (type : Nat) : (noteMsg s l m type).cpu = s.cpu :=
  (noteMsg_far s l m type (Far.refl s)).ok.cpu
@[simp] theorem noteMsg_srv (s : State) (l : Nat) (m : Msg) (type : Nat) : (noteMsg s l m type).srv = s.srv :=
  (noteMsg_far s l m type (Far.refl s)).ok.srv
@[simp] theorem noteMsg_stp (s : State) (l : Nat) (m : Msg) (type : Nat) : (noteMsg s l m type).stp = s.stp :=
  (noteMsg_far s l m type (Far.refl s)).ok.stp
@[simp] theorem noteMsg_flo (s : State) (l : Nat) (m : Msg) (type : Nat) : (noteMsg s l m type).flo = s.flo :=
  (noteMsg_far s l m type (Far.refl s)).ok.flo
@[simp] theorem noteMsg_pwr (s : State) (l : Nat) (m : Msg) (type : Nat) : (noteMsg s l m type).pwr = s.pwr :=
  (noteMsg_far s l m type (Far.refl s)).ok.pwr
@[simp] theorem pumpGo_pending (l : Nat) (x1 : Nat) (x2 : State) : (pumpGo l x1 x2).pending = x2.pending :=
  (pumpGo_far l x1 x2 (Far.refl x2)).ok.pending
@[simp] theorem pumpGo_time (l : Nat) (x1 : Nat) (x2 : State) : (pumpGo l x1 x2).time = x2.time :=
  (pumpGo_far l x1 x2 (Far.refl x2)).ok.time
@[simp] theorem pumpGo_hostFaults (l : Nat) (x1 : Nat) (x2 : State) : (pumpGo l x1 x2).hostFaults = x2.hostFaults :=
  (pumpGo_far l x1 x2 (Far.refl x2)).ok.hostFaults
@[simp] theorem pumpGo_rul (l : Nat) (x1 : Nat) (x2 : State) : (pumpGo l x1 x2).rul = x2.rul :=
  (pumpGo_far l x1 x2 (Far.refl x2)).ok.rul
@[simp] theorem pumpGo_mem (l : Nat) (x1 : Nat) (x2 : State) : (pumpGo l x1 x2).mem = x2.mem :=
  (pumpGo_far l x1 x2 (Far.refl x2)).ok.mem
@[simp] theorem pumpGo_svc (l : Nat) (x1 : Nat) (x2 : State) : (pumpGo l x1 x2).svc = x2.svc :=
  (pumpGo_far l x1 x2 (Far.refl x2)).ok.svc
@[simp] theorem pumpGo_ari (l : Nat) (x1 : Nat) (x2 : State) : (pumpGo l x1 x2).ari = x2.ari :=
  (pumpGo_far l x1 x2 (Far.refl x2)).ok.ari
@[simp] theorem pumpGo_fold (l : Nat) (x1 : Nat) (x2 : State) : (pumpGo l x1 x2).fold = x2.fold :=
  (pumpGo_far l x1 x2 (Far.refl x2)).ok.fold
@[simp] theorem pumpGo_cpu (l : Nat) (x1 : Nat) (x2 : State) : (pumpGo l x1 x2).cpu = x2.cpu :=
  (pumpGo_far l x1 x2 (Far.refl x2)).ok.cpu
@[simp] theorem pumpGo_srv (l : Nat) (x1 : Nat) (x2 : State) : (pumpGo l x1 x2).srv = x2.srv :=
  (pumpGo_far l x1 x2 (Far.refl x2)).ok.srv
@[simp] theorem pumpGo_stp (l : Nat) (x1 : Nat) (x2 : State) : (pumpGo l x1 x2).stp = x2.stp :=
  (pumpGo_far l x1 x2 (Far.refl x2)).ok.stp
@[simp] theorem pumpGo_flo (l : Nat) (x1 : Nat) (x2 : State) : (pumpGo l x1 x2).flo = x2.flo :=
  (pumpGo_far l x1 x2 (Far.refl x2)).ok.flo
@[simp] theorem pumpGo_pwr (l : Nat) (x1 : Nat) (x2 : State) : (pumpGo l x1 x2).pwr = x2.pwr :=
  (pumpGo_far l x1 x2 (Far.refl x2)).ok.pwr
@[simp] theorem pump_pending (s : State) (l : Nat) : (pump s l).pending = s.pending :=
  (pump_far s l (Far.refl s)).ok.pending
@[simp] theorem pump_time (s : State) (l : Nat) : (pump s l).time = s.time :=
  (pump_far s l (Far.refl s)).ok.time
@[simp] theorem pump_hostFaults (s : State) (l : Nat) : (pump s l).hostFaults = s.hostFaults :=
  (pump_far s l (Far.refl s)).ok.hostFaults
@[simp] theorem pump_rul (s : State) (l : Nat) : (pump s l).rul = s.rul :=
  (pump_far s l (Far.refl s)).ok.rul
@[simp] theorem pump_mem (s : State) (l : Nat) : (pump s l).mem = s.mem :=
  (pump_far s l (Far.refl s)).ok.mem
@[simp] theorem pump_svc (s : State) (l : Nat) : (pump s l).svc = s.svc :=
  (pump_far s l (Far.refl s)).ok.svc
@[simp] theorem pump_ari (s : State) (l : Nat) : (pump s l).ari = s.ari :=
  (pump_far s l (Far.refl s)).ok.ari
@[simp] theorem pump_fold (s : State) (l : Nat) : (pump s l).fold = s.fold :=
  (pump_far s l (Far.refl s)).ok.fold
@[simp] theorem pump_cpu (s : State) (l : Nat) : (pump s l).cpu = s.cpu :=
  (pump_far s l (Far.refl s)).ok.cpu
@[simp] theorem pump_srv (s : State) (l : Nat) : (pump s l).srv = s.srv :=
  (pump_far s l (Far.refl s)).ok.srv
@[simp] theorem pump_stp (s : State) (l : Nat) : (pump s l).stp = s.stp :=
  (pump_far s l (Far.refl s)).ok.stp
@[simp] theorem pump_flo (s : State) (l : Nat) : (pump s l).flo = s.flo :=
  (pump_far s l (Far.refl s)).ok.flo
@[simp] theorem pump_pwr (s : State) (l : Nat) : (pump s l).pwr = s.pwr :=
  (pump_far s l (Far.refl s)).ok.pwr
@[simp] theorem sendBare_pending (s : State) (l : Nat) (kind : Nat) (slots : List Byte) : (sendBare s l kind slots).pending = s.pending :=
  (sendBare_far s l kind slots (Far.refl s)).ok.pending
@[simp] theorem sendBare_time (s : State) (l : Nat) (kind : Nat) (slots : List Byte) : (sendBare s l kind slots).time = s.time :=
  (sendBare_far s l kind slots (Far.refl s)).ok.time
@[simp] theorem sendBare_hostFaults (s : State) (l : Nat) (kind : Nat) (slots : List Byte) : (sendBare s l kind slots).hostFaults = s.hostFaults :=
  (sendBare_far s l kind slots (Far.refl s)).ok.hostFaults
@[simp] theorem sendBare_rul (s : State) (l : Nat) (kind : Nat) (slots : List Byte) : (sendBare s l kind slots).rul = s.rul :=
  (sendBare_far s l kind slots (Far.refl s)).ok.rul
@[simp] theorem sendBare_mem (s : State) (l : Nat) (kind : Nat) (slots : List Byte) : (sendBare s l kind slots).mem = s.mem :=
  (sendBare_far s l kind slots (Far.refl s)).ok.mem
@[simp] theorem sendBare_svc (s : State) (l : Nat) (kind : Nat) (slots : List Byte) : (sendBare s l kind slots).svc = s.svc :=
  (sendBare_far s l kind slots (Far.refl s)).ok.svc
@[simp] theorem sendBare_ari (s : State) (l : Nat) (kind : Nat) (slots : List Byte) : (sendBare s l kind slots).ari = s.ari :=
  (sendBare_far s l kind slots (Far.refl s)).ok.ari
@[simp] theorem sendBare_fold (s : State) (l : Nat) (kind : Nat) (slots : List Byte) : (sendBare s l kind slots).fold = s.fold :=
  (sendBare_far s l kind slots (Far.refl s)).ok.fold
@[simp] theorem sendBare_cpu (s : State) (l : Nat) (kind : Nat) (slots : List Byte) : (sendBare s l kind slots).cpu = s.cpu :=
  (sendBare_far s l kind slots (Far.refl s)).ok.cpu
@[simp] theorem sendBare_srv (s : State) (l : Nat) (kind : Nat) (slots : List Byte) : (sendBare s l kind slots).srv = s.srv :=
  (sendBare_far s l kind slots (Far.refl s)).ok.srv
@[simp] theorem sendBare_stp (s : State) (l : Nat) (kind : Nat) (slots : List Byte) : (sendBare s l kind slots).stp = s.stp :=
  (sendBare_far s l kind slots (Far.refl s)).ok.stp
@[simp] theorem sendBare_flo (s : State) (l : Nat) (kind : Nat) (slots : List Byte) : (sendBare s l kind slots).flo = s.flo :=
  (sendBare_far s l kind slots (Far.refl s)).ok.flo
@[simp] theorem sendBare_pwr (s : State) (l : Nat) (kind : Nat) (slots : List Byte) : (sendBare s l kind slots).pwr = s.pwr :=
  (sendBare_far s l kind slots (Far.refl s)).ok.pwr
@[simp] theorem settleLink_pending (s0 : State) (l : Nat) : (settleLink s0 l).pending = s0.pending :=
  (settleLink_far s0 l (Far.refl s0)).ok.pending
@[simp] theorem settleLink_time (s0 : State) (l : Nat) : (settleLink s0 l).time = s0.time :=
  (settleLink_far s0 l (Far.refl s0)).ok.time
@[simp] theorem settleLink_hostFaults (s0 : State) (l : Nat) : (settleLink s0 l).hostFaults = s0.hostFaults :=
  (settleLink_far s0 l (Far.refl s0)).ok.hostFaults
@[simp] theorem settleLink_rul (s0 : State) (l : Nat) : (settleLink s0 l).rul = s0.rul :=
  (settleLink_far s0 l (Far.refl s0)).ok.rul
@[simp] theorem settleLink_mem (s0 : State) (l : Nat) : (settleLink s0 l).mem = s0.mem :=
  (settleLink_far s0 l (Far.refl s0)).ok.mem
@[simp] theorem settleLink_svc (s0 : State) (l : Nat) : (settleLink s0 l).svc = s0.svc :=
  (settleLink_far s0 l (Far.refl s0)).ok.svc
@[simp] theorem settleLink_ari (s0 : State) (l : Nat) : (settleLink s0 l).ari = s0.ari :=
  (settleLink_far s0 l (Far.refl s0)).ok.ari
@[simp] theorem settleLink_fold (s0 : State) (l : Nat) : (settleLink s0 l).fold = s0.fold :=
  (settleLink_far s0 l (Far.refl s0)).ok.fold
@[simp] theorem settleLink_cpu (s0 : State) (l : Nat) : (settleLink s0 l).cpu = s0.cpu :=
  (settleLink_far s0 l (Far.refl s0)).ok.cpu
@[simp] theorem settleLink_srv (s0 : State) (l : Nat) : (settleLink s0 l).srv = s0.srv :=
  (settleLink_far s0 l (Far.refl s0)).ok.srv
@[simp] theorem settleLink_stp (s0 : State) (l : Nat) : (settleLink s0 l).stp = s0.stp :=
  (settleLink_far s0 l (Far.refl s0)).ok.stp
@[simp] theorem settleLink_flo (s0 : State) (l : Nat) : (settleLink s0 l).flo = s0.flo :=
  (settleLink_far s0 l (Far.refl s0)).ok.flo
@[simp] theorem settleLink_pwr (s0 : State) (l : Nat) : (settleLink s0 l).pwr = s0.pwr :=
  (settleLink_far s0 l (Far.refl s0)).ok.pwr
@[simp] theorem sendOn_pending (s : State) (l : Nat) (m : Msg) : (sendOn s l m).pending = s.pending :=
  (sendOn_far s l m (Far.refl s)).ok.pending
@[simp] theorem sendOn_time (s : State) (l : Nat) (m : Msg) : (sendOn s l m).time = s.time :=
  (sendOn_far s l m (Far.refl s)).ok.time
@[simp] theorem sendOn_hostFaults (s : State) (l : Nat) (m : Msg) : (sendOn s l m).hostFaults = s.hostFaults :=
  (sendOn_far s l m (Far.refl s)).ok.hostFaults
@[simp] theorem sendOn_rul (s : State) (l : Nat) (m : Msg) : (sendOn s l m).rul = s.rul :=
  (sendOn_far s l m (Far.refl s)).ok.rul
@[simp] theorem sendOn_mem (s : State) (l : Nat) (m : Msg) : (sendOn s l m).mem = s.mem :=
  (sendOn_far s l m (Far.refl s)).ok.mem
@[simp] theorem sendOn_svc (s : State) (l : Nat) (m : Msg) : (sendOn s l m).svc = s.svc :=
  (sendOn_far s l m (Far.refl s)).ok.svc
@[simp] theorem sendOn_ari (s : State) (l : Nat) (m : Msg) : (sendOn s l m).ari = s.ari :=
  (sendOn_far s l m (Far.refl s)).ok.ari
@[simp] theorem sendOn_fold (s : State) (l : Nat) (m : Msg) : (sendOn s l m).fold = s.fold :=
  (sendOn_far s l m (Far.refl s)).ok.fold
@[simp] theorem sendOn_cpu (s : State) (l : Nat) (m : Msg) : (sendOn s l m).cpu = s.cpu :=
  (sendOn_far s l m (Far.refl s)).ok.cpu
@[simp] theorem sendOn_srv (s : State) (l : Nat) (m : Msg) : (sendOn s l m).srv = s.srv :=
  (sendOn_far s l m (Far.refl s)).ok.srv
@[simp] theorem sendOn_stp (s : State) (l : Nat) (m : Msg) : (sendOn s l m).stp = s.stp :=
  (sendOn_far s l m (Far.refl s)).ok.stp
@[simp] theorem sendOn_flo (s : State) (l : Nat) (m : Msg) : (sendOn s l m).flo = s.flo :=
  (sendOn_far s l m (Far.refl s)).ok.flo
@[simp] theorem sendOn_pwr (s : State) (l : Nat) (m : Msg) : (sendOn s l m).pwr = s.pwr :=
  (sendOn_far s l m (Far.refl s)).ok.pwr
@[simp] theorem floodFrom_pending (s : State) (m : Msg) (except : Option Nat) : (floodFrom s m except).pending = s.pending :=
  (floodFrom_far s m except (Far.refl s)).ok.pending
@[simp] theorem floodFrom_time (s : State) (m : Msg) (except : Option Nat) : (floodFrom s m except).time = s.time :=
  (floodFrom_far s m except (Far.refl s)).ok.time
@[simp] theorem floodFrom_hostFaults (s : State) (m : Msg) (except : Option Nat) : (floodFrom s m except).hostFaults = s.hostFaults :=
  (floodFrom_far s m except (Far.refl s)).ok.hostFaults
@[simp] theorem floodFrom_rul (s : State) (m : Msg) (except : Option Nat) : (floodFrom s m except).rul = s.rul :=
  (floodFrom_far s m except (Far.refl s)).ok.rul
@[simp] theorem floodFrom_mem (s : State) (m : Msg) (except : Option Nat) : (floodFrom s m except).mem = s.mem :=
  (floodFrom_far s m except (Far.refl s)).ok.mem
@[simp] theorem floodFrom_svc (s : State) (m : Msg) (except : Option Nat) : (floodFrom s m except).svc = s.svc :=
  (floodFrom_far s m except (Far.refl s)).ok.svc
@[simp] theorem floodFrom_ari (s : State) (m : Msg) (except : Option Nat) : (floodFrom s m except).ari = s.ari :=
  (floodFrom_far s m except (Far.refl s)).ok.ari
@[simp] theorem floodFrom_fold (s : State) (m : Msg) (except : Option Nat) : (floodFrom s m except).fold = s.fold :=
  (floodFrom_far s m except (Far.refl s)).ok.fold
@[simp] theorem floodFrom_cpu (s : State) (m : Msg) (except : Option Nat) : (floodFrom s m except).cpu = s.cpu :=
  (floodFrom_far s m except (Far.refl s)).ok.cpu
@[simp] theorem floodFrom_srv (s : State) (m : Msg) (except : Option Nat) : (floodFrom s m except).srv = s.srv :=
  (floodFrom_far s m except (Far.refl s)).ok.srv
@[simp] theorem floodFrom_stp (s : State) (m : Msg) (except : Option Nat) : (floodFrom s m except).stp = s.stp :=
  (floodFrom_far s m except (Far.refl s)).ok.stp
@[simp] theorem floodFrom_flo (s : State) (m : Msg) (except : Option Nat) : (floodFrom s m except).flo = s.flo :=
  (floodFrom_far s m except (Far.refl s)).ok.flo
@[simp] theorem floodFrom_pwr (s : State) (m : Msg) (except : Option Nat) : (floodFrom s m except).pwr = s.pwr :=
  (floodFrom_far s m except (Far.refl s)).ok.pwr
@[simp] theorem floodOwn_pending (s : State) (op : Nat) (fields : List Byte) : (floodOwn s op fields).pending = s.pending :=
  (floodOwn_far s op fields (Far.refl s)).ok.pending
@[simp] theorem floodOwn_time (s : State) (op : Nat) (fields : List Byte) : (floodOwn s op fields).time = s.time :=
  (floodOwn_far s op fields (Far.refl s)).ok.time
@[simp] theorem floodOwn_hostFaults (s : State) (op : Nat) (fields : List Byte) : (floodOwn s op fields).hostFaults = s.hostFaults :=
  (floodOwn_far s op fields (Far.refl s)).ok.hostFaults
@[simp] theorem floodOwn_rul (s : State) (op : Nat) (fields : List Byte) : (floodOwn s op fields).rul = s.rul :=
  (floodOwn_far s op fields (Far.refl s)).ok.rul
@[simp] theorem floodOwn_mem (s : State) (op : Nat) (fields : List Byte) : (floodOwn s op fields).mem = s.mem :=
  (floodOwn_far s op fields (Far.refl s)).ok.mem
@[simp] theorem floodOwn_svc (s : State) (op : Nat) (fields : List Byte) : (floodOwn s op fields).svc = s.svc :=
  (floodOwn_far s op fields (Far.refl s)).ok.svc
@[simp] theorem floodOwn_ari (s : State) (op : Nat) (fields : List Byte) : (floodOwn s op fields).ari = s.ari :=
  (floodOwn_far s op fields (Far.refl s)).ok.ari
@[simp] theorem floodOwn_fold (s : State) (op : Nat) (fields : List Byte) : (floodOwn s op fields).fold = s.fold :=
  (floodOwn_far s op fields (Far.refl s)).ok.fold
@[simp] theorem floodOwn_cpu (s : State) (op : Nat) (fields : List Byte) : (floodOwn s op fields).cpu = s.cpu :=
  (floodOwn_far s op fields (Far.refl s)).ok.cpu
@[simp] theorem floodOwn_srv (s : State) (op : Nat) (fields : List Byte) : (floodOwn s op fields).srv = s.srv :=
  (floodOwn_far s op fields (Far.refl s)).ok.srv
@[simp] theorem floodOwn_stp (s : State) (op : Nat) (fields : List Byte) : (floodOwn s op fields).stp = s.stp :=
  (floodOwn_far s op fields (Far.refl s)).ok.stp
@[simp] theorem floodOwn_flo (s : State) (op : Nat) (fields : List Byte) : (floodOwn s op fields).flo = s.flo :=
  (floodOwn_far s op fields (Far.refl s)).ok.flo
@[simp] theorem floodOwn_pwr (s : State) (op : Nat) (fields : List Byte) : (floodOwn s op fields).pwr = s.pwr :=
  (floodOwn_far s op fields (Far.refl s)).ok.pwr
@[simp] theorem sendMarkers_pending (s : State) (except : Option Nat) (corr : Nat) (line : Nat) (epoch : Nat) (master : Nat) : (sendMarkers s except corr line epoch master).pending = s.pending :=
  (sendMarkers_far s except corr line epoch master (Far.refl s)).ok.pending
@[simp] theorem sendMarkers_time (s : State) (except : Option Nat) (corr : Nat) (line : Nat) (epoch : Nat) (master : Nat) : (sendMarkers s except corr line epoch master).time = s.time :=
  (sendMarkers_far s except corr line epoch master (Far.refl s)).ok.time
@[simp] theorem sendMarkers_hostFaults (s : State) (except : Option Nat) (corr : Nat) (line : Nat) (epoch : Nat) (master : Nat) : (sendMarkers s except corr line epoch master).hostFaults = s.hostFaults :=
  (sendMarkers_far s except corr line epoch master (Far.refl s)).ok.hostFaults
@[simp] theorem sendMarkers_rul (s : State) (except : Option Nat) (corr : Nat) (line : Nat) (epoch : Nat) (master : Nat) : (sendMarkers s except corr line epoch master).rul = s.rul :=
  (sendMarkers_far s except corr line epoch master (Far.refl s)).ok.rul
@[simp] theorem sendMarkers_mem (s : State) (except : Option Nat) (corr : Nat) (line : Nat) (epoch : Nat) (master : Nat) : (sendMarkers s except corr line epoch master).mem = s.mem :=
  (sendMarkers_far s except corr line epoch master (Far.refl s)).ok.mem
@[simp] theorem sendMarkers_svc (s : State) (except : Option Nat) (corr : Nat) (line : Nat) (epoch : Nat) (master : Nat) : (sendMarkers s except corr line epoch master).svc = s.svc :=
  (sendMarkers_far s except corr line epoch master (Far.refl s)).ok.svc
@[simp] theorem sendMarkers_ari (s : State) (except : Option Nat) (corr : Nat) (line : Nat) (epoch : Nat) (master : Nat) : (sendMarkers s except corr line epoch master).ari = s.ari :=
  (sendMarkers_far s except corr line epoch master (Far.refl s)).ok.ari
@[simp] theorem sendMarkers_fold (s : State) (except : Option Nat) (corr : Nat) (line : Nat) (epoch : Nat) (master : Nat) : (sendMarkers s except corr line epoch master).fold = s.fold :=
  (sendMarkers_far s except corr line epoch master (Far.refl s)).ok.fold
@[simp] theorem sendMarkers_cpu (s : State) (except : Option Nat) (corr : Nat) (line : Nat) (epoch : Nat) (master : Nat) : (sendMarkers s except corr line epoch master).cpu = s.cpu :=
  (sendMarkers_far s except corr line epoch master (Far.refl s)).ok.cpu
@[simp] theorem sendMarkers_srv (s : State) (except : Option Nat) (corr : Nat) (line : Nat) (epoch : Nat) (master : Nat) : (sendMarkers s except corr line epoch master).srv = s.srv :=
  (sendMarkers_far s except corr line epoch master (Far.refl s)).ok.srv
@[simp] theorem sendMarkers_stp (s : State) (except : Option Nat) (corr : Nat) (line : Nat) (epoch : Nat) (master : Nat) : (sendMarkers s except corr line epoch master).stp = s.stp :=
  (sendMarkers_far s except corr line epoch master (Far.refl s)).ok.stp
@[simp] theorem sendMarkers_flo (s : State) (except : Option Nat) (corr : Nat) (line : Nat) (epoch : Nat) (master : Nat) : (sendMarkers s except corr line epoch master).flo = s.flo :=
  (sendMarkers_far s except corr line epoch master (Far.refl s)).ok.flo
@[simp] theorem sendMarkers_pwr (s : State) (except : Option Nat) (corr : Nat) (line : Nat) (epoch : Nat) (master : Nat) : (sendMarkers s except corr line epoch master).pwr = s.pwr :=
  (sendMarkers_far s except corr line epoch master (Far.refl s)).ok.pwr
@[simp] theorem postSlow_pending (s : State) (own : Nat) (source : Nat) (share : Nat) : (postSlow s own source share).pending = s.pending :=
  (postSlow_far s own source share (Far.refl s)).ok.pending
@[simp] theorem postSlow_time (s : State) (own : Nat) (source : Nat) (share : Nat) : (postSlow s own source share).time = s.time :=
  (postSlow_far s own source share (Far.refl s)).ok.time
@[simp] theorem postSlow_hostFaults (s : State) (own : Nat) (source : Nat) (share : Nat) : (postSlow s own source share).hostFaults = s.hostFaults :=
  (postSlow_far s own source share (Far.refl s)).ok.hostFaults
@[simp] theorem postSlow_rul (s : State) (own : Nat) (source : Nat) (share : Nat) : (postSlow s own source share).rul = s.rul :=
  (postSlow_far s own source share (Far.refl s)).ok.rul
@[simp] theorem postSlow_mem (s : State) (own : Nat) (source : Nat) (share : Nat) : (postSlow s own source share).mem = s.mem :=
  (postSlow_far s own source share (Far.refl s)).ok.mem
@[simp] theorem postSlow_svc (s : State) (own : Nat) (source : Nat) (share : Nat) : (postSlow s own source share).svc = s.svc :=
  (postSlow_far s own source share (Far.refl s)).ok.svc
@[simp] theorem postSlow_ari (s : State) (own : Nat) (source : Nat) (share : Nat) : (postSlow s own source share).ari = s.ari :=
  (postSlow_far s own source share (Far.refl s)).ok.ari
@[simp] theorem postSlow_fold (s : State) (own : Nat) (source : Nat) (share : Nat) : (postSlow s own source share).fold = s.fold :=
  (postSlow_far s own source share (Far.refl s)).ok.fold
@[simp] theorem postSlow_cpu (s : State) (own : Nat) (source : Nat) (share : Nat) : (postSlow s own source share).cpu = s.cpu :=
  (postSlow_far s own source share (Far.refl s)).ok.cpu
@[simp] theorem postSlow_srv (s : State) (own : Nat) (source : Nat) (share : Nat) : (postSlow s own source share).srv = s.srv :=
  (postSlow_far s own source share (Far.refl s)).ok.srv
@[simp] theorem postSlow_stp (s : State) (own : Nat) (source : Nat) (share : Nat) : (postSlow s own source share).stp = s.stp :=
  (postSlow_far s own source share (Far.refl s)).ok.stp
@[simp] theorem postSlow_flo (s : State) (own : Nat) (source : Nat) (share : Nat) : (postSlow s own source share).flo = s.flo :=
  (postSlow_far s own source share (Far.refl s)).ok.flo
@[simp] theorem postSlow_pwr (s : State) (own : Nat) (source : Nat) (share : Nat) : (postSlow s own source share).pwr = s.pwr :=
  (postSlow_far s own source share (Far.refl s)).ok.pwr

end Sys2Proof.Machine
end

