-- ==== Sys2Proof/WellFormed.lean ====
section
/-! DEFINITION. Which commands can reach the block: every operand within the range that the manual gives it. A meaning is total, and
says for itself what it does with an operand out of range; `Instr.wf` says which operands a sender can name at all. -/
namespace Sys2Proof

/-- Function 0, or VF 1 to 4 (R54). -/
def fnOk (fn : Nat) : Bool := decide (fn ≤ 4)

/-- A ring index (R56). -/
def ringOk (n : Nat) : Bool := decide (n < 16)

/-- An admin or partition submission ring (R56). -/
def submissionOk (n : Nat) : Bool := n == 0 || (decide (4 ≤ n) && decide (n ≤ 10) && n % 2 == 0)

/-- A logical core: at most 144 (R5). -/
def coreOk (core : Nat) : Bool := decide (core < 144)

def linkOk (l : Nat) : Bool := decide (l < 16)

def partOk (p : Nat) : Bool := decide (p < 4)

def queueOk (q : Nat) : Bool := decide (q < 32)

def portOk (port : Nat) : Bool := decide (port < 16)

/-- Expanders 0 to 87 (R422). -/
def expanderOk (x : Nat) : Bool := decide (x < 88)

/-- Trace buffer instances 0 to 5 (R83). -/
def instanceOk (i : Nat) : Bool := decide (i < 6)

/-- A power domain that may fail to report power good; AON is 0 and always on (R382). -/
def domainOk (d : Nat) : Bool := decide (1 ≤ d) && decide (d ≤ 15)

/-- A descriptor slot of a channel of an RB-2 (R179). -/
def slotOk (k : Nat) : Bool := decide (k < 4)

/-- A device physical address has 48 bits (R97). -/
def dpaOk (a : Nat) : Bool := decide (a < 2 ^ 48)

/-- A tally of the 16,384 in the device (R238). -/
def tallyOk (n : Nat) : Bool := decide (n < 16384)

/-- A stack site or a capacity port. -/
def unitOk (t : Tier) (u : Nat) : Bool := match t with | .fast => decide (u < 8) | .cap => decide (u < 16)

/-- A channel's physical ID (R107, R422). -/
def channelOk (t : Tier) (c : Nat) : Bool := match t with | .fast => decide (c < 256) | .cap => decide (c < 128)

def Requester.wf : Requester → Bool
  | .part p | .serving p | .flourish p | .peer p => partOk p
  | .core p n => partOk p && coreOk n
  | .queue p q => partOk p && queueOk q
  | .admin | .window | .device => true

/-- A submission entry: 48 inline bytes, and an extended buffer of LENGTH bytes where FLAGS asks for one and it can be read (R65). -/
def Cmd.wf (c : Cmd) : Bool :=
  fnOk c.fn && submissionOk c.ring && c.payload.length == 48 && decide (c.len < 65536) && decide (c.extAddr < 2 ^ 64) &&
    decide (c.ext.length ≤ c.len) && (c.flags.getLsbD 0 || c.ext.isEmpty)

/-- Stored bytes at addresses of 64 bits. -/
def HostWrites.wf (h : HostWrites) : Bool := h.bytes.all (fun e => decide (e.1 < 2 ^ 64))

def WriteSrc.wf : WriteSrc → Bool
  | .storeQueue core => coreOk core
  | .direct r dpa bytes _ => r.wf && dpaOk dpa && decide (bytes.length ≤ 64)

/-- A contribution has an operand for each of at most 32 lanes of a granule (R164). -/
def Contribution.wf (c : Contribution) : Bool := dpaOk c.dpa && decide (c.operand.length ≤ 64)

def ContribSrc.wf : ContribSrc → Bool
  | .core n => coreOk n
  | .direct r c => r.wf && c.wf

/-- A message: bytes 8 to 15 of its header slot, a second slot of 16 B or none, and granules of 64 B (R356). -/
def Msg.wf (m : Msg) : Bool :=
  decide (m.op < 256) && m.fields.length == 8 && (match m.second with | some b => b.length == 16 | none => true) &&
    decide (m.data.length ≤ 3) && m.data.all (fun g => g.length == 64)

/-- A flit is 256 bytes (R351). -/
def FlitIn.wf (f : FlitIn) : Bool := f.bytes.length == 256

def TestFinding.wf (f : TestFinding) : Bool := channelOk f.tier f.channel

/-- A stage's report names units, channels, cores and links that exist. -/
def StageReport.wf (r : StageReport) : Bool :=
  r.sites.all (fun e => unitOk .fast e.1) && r.ports.all (fun e => unitOk .cap e.1) && r.trainFail.all (fun e => channelOk e.1 e.2) &&
    r.repairs.all (fun e => channelOk .fast e.1) && r.test.all (fun e => channelOk e.1 e.2.1) && r.kat.all (fun c => decide (c < 160)) &&
    r.adders.all (fun e => channelOk e.1 e.2) && r.expanders.all expanderOk && r.pipes.all (fun k => decide (k < 8)) &&
    r.linkFail.all (fun e => linkOk e.1)

/-- A PLDM transfer carries at most 4,096 B (R403). -/
def MgmtReq.wf (m : MgmtReq) : Bool := decide (m.bytes.length ≤ 4096)

def Sensor.wf : Sensor → Bool
  | .power | .state => true
  | .site n => decide (n < 8)
  | .port n => decide (n < 16)

/-- A command that a sender can send. -/
def Instr.wf : Instr → Bool
  | .lineBoundary | .cadenceEdge _ | .cadenceEdgeMissing | .holdoverExpire | .markerLoss | .disciplineStale | .election
    | .triggerEdge _ _ | .alarmFire | .hdmDecoderCommit | .regulatorPhase | .contributionResend | .remoteTimeout _
    | .collectiveBegin _ | .collTimeout _ | .aonResetNRelease _ | .perstNFall | .perstNRelease | .conventionalReset
    | .stageTimeout | .scribeWatchdog | .enterFaulted | .powerSample _ | .junctionSample _ | .supplyLoss | .capEntryDone
    | .capWakeN | .capWakeDone | .fwSessionTimeout | .queryDeviceIdentifiers | .getFirmwareParameters | .requestUpdate
    | .activateFirmware _ | .getStatus | .cancelUpdate | .getVersion | .getCapabilities | .negotiateAlgorithms | .getDigests
    | .getCertificate | .challenge | .getMeasurements | .bypass | .idcode | .samplePreload | .extest | .clamp | .highz
    | .imageVerified _ _ | .hdmDecoderUncommit | .aonResetNAssert => true
  | .rulingStatus c | .rulingSetSources c | .rulingSetPeriod c | .rulingDiscipline c | .rulingLoad c | .rulingAlarm c
    | .rulingTriggerSet c | .identify c | .opcodeMap c | .claim c | .release c | .claimQuery c | .abort c | .eventFilter c
    | .echo c | .memQuery c | .memRegionSet c | .memRegionGet c | .memLocate c | .memCopy c | .memFill c | .memCacheOp c
    | .memWindowSet c | .memWindowClear c | .memTest c | .memRegSet c | .memClassSet c | .memThermalLoad c | .memThermalClear c
    | .memThermalQuery c | .memErrRead c | .memErrCounters c | .memScrubSet c | .memTraffic c | .arithApply c
    | .arithOrderOpen c | .arithOrderClose c | .resGather c | .resStatus c | .foldBasisLoad c | .foldBasisUnload c
    | .foldBasisQuery c | .foldLayoutLoad c | .foldLayoutUnload c | .foldExpand c | .foldVerify c | .foldFaultRead c
    | .foldCounters c | .coreMap c | .partConfig c | .quireSubmit c | .queueControl c | .tallyOp c | .ledgerConfig c
    | .ledgerQuery c | .coreFaultRead c | .modelLoad c | .modelUnload c | .pagePoolConfig c | .pageMapConfig c | .reqSubmit c
    | .reqQuery c | .reqCancel c | .reqPause c | .reqResume c | .reqRetire c | .prefixLookup c | .prefixPin c | .prefixUnpin c
    | .prefixFlush c | .pageStats c | .stepConfig c | .stepConfirm c | .stepControl c | .stepWatchdogSet c | .reqLatency c
    | .frameSlotConfig c | .framePost c | .expertConfig c | .expertBiasSet c | .expertQuery c | .flourishConfig c
    | .grammarLoad c | .grammarUnload c | .flourishProbe c | .flourishCounters c | .linkStatus c | .linkSet c | .linkReset c
    | .linkLoopback c | .groupConfig c | .groupRejoin c | .groupStatus c | .collStart c | .collAbort c | .linkCounters c
    | .faultLogRead c | .reset c | .bringupConfig c | .defectMapRead c | .defectMapClear c | .settingsRead c | .settingsWrite c
    | .settingsCommit c | .fwWrite c | .fwActivate c _ | .fwStatus c | .licenceInstall c _ | .licenceQuery c | .powerCapEnter c
    | .powerCapExit c | .powerStatus c | .obsCounters c | .obsLatchRead c | .obsProgConfig c | .obsProgRead c
    | .obsTraceConfig c | .obsTraceControl c | .obsRangeSelect c | .obsRangeRead c | .obsWatchSet c | .obsDigest c
    | .obsDigestArm c | .obsStepMode c | .obsStepNext c | .obsBlotterRead c | .obsFreeze c => c.wf
  | .inkwCtrlEn fn _ | .detach fn | .inkwConIn fn _ | .functionLevelReset fn => fnOk fn
  | .ringCfgWrite fn n _ | .headDoorbell fn n _ | .ringVisit fn n | .coalesceTimeout fn n => fnOk fn && ringOk n
  | .submissionDoorbell fn n _ host => fnOk fn && ringOk n && host.wf
  | .stampLoRead r => fnOk r.fn && decide (r.size ≤ 64)
  | .registerWrite fn offset v => fnOk fn && decide (offset < 0x10000) && decide (v.size ≤ 64)
  | .numvfsWrite k => decide (k ≤ 4)
  | .cacheControlWrite r p bytes => r.wf && partOk p && decide (bytes.length ≤ 64)
  | .cacheControlDone p | .stepProposal p | .stepRunAdvance p | .stepWatchdog p | .computeResetEnd p _ => partOk p
  | .cxlMemRead dpa => dpaOk dpa
  | .cxlMemWrite dpa bytes => dpaOk dpa && bytes.length == 64
  | .memoryRead r dpa _ => r.wf && dpaOk dpa
  | .memoryWrite w | .contribution w => w.wf
  | .partialWrite r dpa bytes => r.wf && dpaOk dpa && decide (bytes.length ≤ 64)
  | .agingPromotion tier channel _ | .channelRetrain tier channel _ | .retrainComplete tier channel _ _ _ => channelOk tier channel
  | .regulatorRelease reg => decide (reg < 8)
  | .thermalSample temps => temps.all (fun e => unitOk e.1 e.2.1)
  | .scrubStep die _ => decide (die < 2)
  | .memTrafficEnd port _ => portOk port
  | .reservoirDoorbell port channel slot | .reservoirSlotDone port channel slot => portOk port && decide (channel < 6) && slotOk slot
  | .blockExpand expander | .basisCacheFill expander => expanderOk expander
  | .add core _ | .sub core _ | .mul core _ | .and core _ | .or core _ | .xor core _ | .shl core _ | .shr core _ | .sra core _
    | .li core _ | .ld core _ | .st core _ | .br core _ | .csr core _ | .halt core _ | .vadd core _ | .vsub core _
    | .vmul core _ | .vfma core _ | .vmax core _ | .vmin core _ | .vexp2 core _ | .vrcp core _ | .vrsqrt core _ | .vdup core _
    | .vld core _ | .vst core _ | .vcvt core _ | .vsum core _ | .vperm core _ | .mma core _ | .mmast core _ | .xrd core _
    | .xrdComplete core | .xwr core _ | .xexp core _ | .xexpComplete core | .fold core _ | .patom core _ | .fatom core _
    | .fatomComplete core | .fence core _ | .fenceComplete core | .tsig core _ | .twait core _ | .twaitTimeout core
    | .lclaim core _ | .pcSample core | .illegal core _ => coreOk core
  | .tallyValueWrite r tally _ | .tallyAddWrite r tally _ => r.wf && tallyOk tally
  | .kernel p q | .kernelStart p q | .kernelComplete p q | .copy p q | .foldCopy p q | .reduce p q | .gatherRes p q
    | .tallySignal p q | .tallyWait p q | .tallyWaitTimeout p q | .markBegin p q | .markEnd p q | .stepBegin p q | .stepEnd p q
    | .ledgerFill p q | .queueAdvance p q | .stepLimitTimeout p q => partOk p && queueOk q
  | .parkCopyDone entry | .ttlExpire entry | .restoreDone entry | .summaryFoldDone entry => decide (entry < 4096)
  | .linkInit l f | .dataFlit l f => linkOk l && f.wf
  | .probe l _ _ _ _ | .berMeasureEnd l _ _ _ | .trainAttemptTimeout l | .fecLockLoss l | .linkRetrainEnd l _ | .replayTimeout l
    | .spdm l _ | .heartbeat l | .challengeTimer l | .keyUpdate l | .loopbackEnd l _ _ _ | .fecAlignmentLock l
    | .challengeUnanswered l => linkOk l
  | .creditStall l channel => linkOk l && decide (channel < 3)
  | .read l m | .write l m | .contrib l m | .signal l m | .readData l m | .compl l m | .retry l m | .lineMarker l m | .slow l m
    | .advert l m | .collReady l m | .collAbortReceived l m | .concord l m => linkOk l && m.wf
  | .bringupStageEnd r => r.wf
  | .domainPowerTimeout domain => domainOk domain
  | .passComponentTable m | .updateComponent m | .requestFirmwareData m | .transferComplete m | .verifyComplete m
    | .applyComplete m => m.wf
  | .pldmSensorRequest x => x.wf
  | .traceDrainBurst instance_ => instanceOk instance_
  | .memTestEnd findings => findings.all TestFinding.wf

end Sys2Proof
end

