-- ==== Sys2Proof/Tests/Slice0.lean ====
section
/-! SUPPORT. Tests: ill-formed commands that `Instr.wf` refuses, values that the manual works out, and for each clause of each statement
a state and operands that meet its hypotheses. -/

set_option Elab.async false
set_option linter.unusedVariables false

namespace Sys2Proof.Tests
open Sys2Proof Sys2Proof.Machine

/-! ### Helper states -/

/-- A command of the admin ring with its inline payload. -/
def adm (payload : List Byte) : Cmd :=
  { fn := 0, ring := 0, tag := 7, flags := 0, len := payload.length, extAddr := 0, payload := padTo 48 payload, ext := [], good := 65535, stamp := 0 }

/-- A command of partition 0's ring on the PF. -/
def par (payload : List Byte) : Cmd := { adm payload with ring := 4 }

/-- A 256-entry ring at a base. -/
def ring256 (base : Nat) : Ring := { base := BitVec.ofNat 64 base, en := true, log2 := 8 }

/-- The PF with its admin, event and partition 0 rings enabled. -/
def readyFunc : Func :=
  { en := true, irqMask := 0,
    rings := [(0, ring256 0x10000), (1, ring256 0x20000), (2, ring256 0x30000), (4, ring256 0x40000), (5, ring256 0x50000)] }

/-- A READY device whose partition 0 holds quadrant 0. -/
def ready : State :=
  { State.reset with
    ink := { State.reset.ink with state := stReady, funcs := [(0, readyFunc)], variant := 1 }
    cpu := { State.reset.cpu with parts := [(0, { mask := 1 })] } }

/-- Begun from checks that evaluate. -/
theorem begun_of {sp : FwSpec} {c : Cmd} {s : State} (h1 : fetchable s c.fn c.ring = true) (h2 : duplicate s c = false)
    (h3 : startable s c s.ink.fetched = true) (h4 : arbiterWaits s sp.op c = false) (h5 : judge sp c false (arrive sp.op c s) = none) :
    Begun sp c s (arrive sp.op c s) := ⟨h1, h2, h3, h4, h5, rfl⟩

theorem eta_pair {α β : Type} (p : α × β) : p = (p.1, p.2) := rfl

/-- A pair from its first component. -/
theorem fst_pair {α β : Type} {p : α × β} {a : α} (h : p.1 = a) : p = (a, p.2) := by rw [← h]

theorem quad_of {α β γ δ : Type} {p : α × β × γ × δ} {a : α} {b : β} {c : γ} (h1 : p.1 = a) (h2 : p.2.1 = b) (h3 : p.2.2.1 = c) :
    p = (a, b, c, p.2.2.2) := by rw [← h1, ← h2, ← h3]

theorem cons_pair {α β : Type} {p : List α × β} (h : p.1 ≠ []) : p = (p.1.head h :: p.1.tail, p.2) := by rw [List.cons_head_tail]

theorem fst_triple {α β γ : Type} {p : α × β × γ} {a : α} (h : p.1 = a) : p = (a, p.2.1, p.2.2) := by rw [← h]

theorem third_of {α β γ : Type} {p : α × β × γ} {c : γ} (h : p.2.2 = c) : p = (p.1, p.2.1, c) := by rw [← h]

theorem some_pair {α β : Type} {o : Option (α × β)} (h : o.isSome = true) : o = some ((o.get h).1, (o.get h).2) := (Option.some_get h).symm

theorem some_one {α : Type} {o : Option α} (h : o.isSome = true) : o = some (o.get h) := (Option.some_get h).symm

theorem eta_triple {α β γ : Type} (p : α × β × γ) : p = (p.1, p.2.1, p.2.2) := rfl

/-- The PF holds the pin pair in a mode. -/
def paired (mode : Nat) : State :=
  { ready with ink := { ready.ink with claims := [{ res := pinPair, mode := mode, owner := 0 }] } }


/-- One stack with one channel and one valid region, one module with one channel and two. -/
def memReady : State :=
  { ready with
    mem := { ready.mem with
      sites := [(0, { kind := 1, gib := 16, gran := 67108864, chans := [0] })], fastMap := [0], fastRegions := { h := 1 }
      ports := [(0, { kind := 1, gib := 64, gran := 268435456, chans := [0] })], capMap := [0], capRegions := { h := 2 } } }

/-! ### Ill-formed commands: one for each check of `Instr.wf`, which refuses it -/

theorem test_wf_function : (Instr.detach 5).wf = false := by decide
theorem test_wf_ring : (Instr.ringVisit 0 16).wf = false := by decide
theorem test_wf_submission_ring : (Instr.identify { adm [] with ring := 5 }).wf = false := by decide
theorem test_wf_payload : (Instr.identify { adm [] with payload := zeros 47 }).wf = false := by decide
theorem test_wf_length : (Instr.identify { adm [] with len := 65536 }).wf = false := by decide
theorem test_wf_extended_buffer : (Instr.identify { adm [] with len := 4, ext := [1, 2, 3, 4] }).wf = false := by decide
theorem test_wf_extended_address : (Instr.identify { adm [] with extAddr := 2 ^ 64 }).wf = false := by decide
theorem test_wf_host_writes : (Instr.submissionDoorbell 0 0 1 { bytes := [(2 ^ 64, 1)], faults := [] }).wf = false := by decide
theorem test_wf_core : (Instr.halt 144 { a := 0, b := 0, c := 0, imm := 0 }).wf = false := by decide
theorem test_wf_link : (Instr.fecLockLoss 16).wf = false := by decide
theorem test_wf_partition : (Instr.stepProposal 4).wf = false := by decide
theorem test_wf_queue : (Instr.queueAdvance 0 32).wf = false := by decide
theorem test_wf_port : (Instr.reservoirDoorbell 16 0 0).wf = false := by decide
theorem test_wf_port_channel : (Instr.reservoirDoorbell 0 6 0).wf = false := by decide
theorem test_wf_slot : (Instr.reservoirSlotDone 0 0 4).wf = false := by decide
theorem test_wf_expander : (Instr.blockExpand 88).wf = false := by decide
theorem test_wf_trace_instance : (Instr.traceDrainBurst 6).wf = false := by decide
theorem test_wf_domain : (Instr.domainPowerTimeout 0).wf = false := by decide
theorem test_wf_dpa : (Instr.cxlMemRead (2 ^ 48)).wf = false := by decide
theorem test_wf_window_write_length : (Instr.cxlMemWrite 0 (zeros 63)).wf = false := by decide
theorem test_wf_tally : (Instr.tallyAddWrite .device 16384 1).wf = false := by decide
theorem test_wf_site : (Instr.thermalSample [(.fast, 8, 40)]).wf = false := by decide
theorem test_wf_channel : (Instr.channelRetrain .cap 128 0).wf = false := by decide
theorem test_wf_requester : (Instr.memoryRead (.queue 0 32) 0 64).wf = false := by decide
theorem test_wf_write_source : (Instr.memoryWrite (.direct .admin 0 (zeros 65) false)).wf = false := by decide +kernel
theorem test_wf_store_queue : (Instr.memoryWrite (.storeQueue 144)).wf = false := by decide
theorem test_wf_contribution :
    (Instr.contribution (.direct .admin { dpa := 0, op := 0, mask := 0, operand := zeros 65, poison := false, order := none })).wf = false := by
  decide
theorem test_wf_contribution_source : (Instr.contribution (.core 144)).wf = false := by decide
theorem test_wf_message :
    (Instr.slow 0 { op := 256, poison := 0, dest := 0, part := 0, flood := false, source := 0, hops := 0, tag := 0, fields := zeros 8, second := none, data := [] }).wf
      = false := by decide
theorem test_wf_flit : (Instr.dataFlit 0 { bytes := zeros 255, fecOk := true, tagOk := true, corrected := 0 }).wf = false := by decide +kernel
theorem test_wf_test_finding : (Instr.memTestEnd [{ tier := .fast, channel := 256, ce := 0, ue := 0, tested := 0 }]).wf = false := by decide +kernel
theorem test_wf_stage_report :
    (Instr.bringupStageEnd { sites := [], ports := [], trainFail := [], repairs := [], test := [], kat := [160], adders := [], expanders := [], pipes := [], bridge := true, serving := true, linkFail := [] }).wf
      = false := by decide
theorem test_wf_management : (Instr.verifyComplete { offset := 0, bytes := List.replicate 4097 0, ok := true }).wf = false := by
  show decide ((List.replicate 4097 (0 : Byte)).length ≤ 4096) = false
  rw [List.length_replicate]; decide
theorem test_wf_sensor : (Instr.pldmSensorRequest (.site 8)).wf = false := by decide
theorem test_wf_register_offset : (Instr.registerWrite 0 0x10000 ⟨0, 4⟩).wf = false := by decide
theorem test_wf_numvfs : (Instr.numvfsWrite 5).wf = false := by decide
theorem test_wf_cache_control : (Instr.cacheControlWrite .admin 0 (zeros 65)).wf = false := by decide
theorem test_wf_regulator : (Instr.regulatorRelease 8).wf = false := by decide
theorem test_wf_die : (Instr.scrubStep 2 .fast).wf = false := by decide
theorem test_wf_entry : (Instr.ttlExpire 4096).wf = false := by decide
theorem test_wf_credit_channel : (Instr.creditStall 0 3).wf = false := by decide

/-! ### Values that the manual works out, in the worked examples of its chapters -/

/-- The time-stamp of spec/00's worked example: line 76,352, tick 16,384. -/
theorem test_stamp_example : (0x000000012A404000 : Stamp).toNat / 65536 = 76352 ∧ (0x000000012A404000 : Stamp).toNat % 65536 = 16384 := by decide

/-- The fast tier of spec/04's worked example: eight sites of 64 GiB, channel 17 of site 5 mapped out, regions 83 and 300 as given. -/
def mapExample : State :=
  let chans (u : Nat) : List Nat := ((List.range 32).map (32 * u + ·)).filter (· ≠ 177)
  { State.reset with
    mem := { State.reset.mem with
      sites := (List.range 8).map (fun u => (u, { kind := 2, gib := 64, chans := chans u }))
      fastMap := (List.range 256).filter (· ≠ 177)
      fastRegions := { h := 0, ovr :=
        (List.range 8).map (fun u => (16 * u + 15, BitVec.ofNat 64 (0x0F01 + u * 4096 + 15 * 65536))) ++ [(300, BitVec.ofNat 64 (0x0F02 + 172 * 2 ^ 24))] } } }

/-- STACK_LOCAL placement: physical ID 184, channel byte offset 0x06C7_E100. -/
theorem test_placement_local : placeIn mapExample .fast (0x0F01 + 5 * 4096 + 3 * 65536) 0x0014D2345600 = { tier := .fast, chan := 184, off := 0x06C7E100 } := by
  decide +kernel

/-- HASHED placement: physical ID 117, channel byte offset 0x4B3A_BE40. -/
theorem test_placement_hashed : locate mapExample 0x004B0ABCDE40 = some ({ tier := .fast, chan := 117, off := 0x4B3ABE40 }, 0x0F02 + 172 * 2 ^ 24) := by
  decide +kernel

/-- A folded slot of spec/07's worked example: granules 0 and 1 lie on channels 174 and 191. -/
theorem test_placement_folded :
    (placeIn mapExample .fast (0x0F09 + 5 * 4096 + 3 * 65536) 0x0014D2357000) = { tier := .fast, chan := 174, off := 0x06C7E700 } ∧
      (placeIn mapExample .fast (0x0F09 + 5 * 4096 + 3 * 65536) 0x0014D2357100).chan = 191 := by
  decide +kernel

/-- The block header of spec/07's worked example. -/
theorem test_fold_header :
    let h := parseHeader [0x31, 0x18, 0xBF, 0x0C, 0xA7, 0x02, 0, 0, 0, 0, 0x80, 0x3F, 0, 0, 0x3E, 0x5C]
    h.rank = 24 ∧ h.mask = 0xBF ∧ h.len = 12 ∧ h.basis = 0x2A7 ∧ impliedLen 1 24 0xBF = 12 := by
  decide +kernel

/-- The check word of a granule of 0x55 bytes, which an unlisted granule of a tested channel holds (R471), is the code's own (R146). -/
theorem test_march_check : checkWord (List.replicate 64 0x55) false = marchCheck := by decide +kernel

/-- The shares that the default curve gives in spec/05's worked example. -/
theorem test_thermal_shares : [84, 87, 91, 94, 95, 99].map (shareOf Curve.default) = [256, 220, 148, 94, 76, 76] := by decide

/-- The entries of spec/03's worked example: OPCODE, LENGTH and the period of RULING_SET_SOURCES in byte order. -/
theorem test_byte_order : fieldN [0x2B, 0x50, 0xFE, 0x00] 0 4 = 16666667 ∧ fieldN [0x03, 0x01] 0 2 = 0x0103 := by decide

/-! ### The block as a whole -/

theorem wit_StepRunsFrontCommand : ({ ready with pending := [.lineBoundary] } : State).pending = .lineBoundary :: [] := rfl

theorem wit_IdleStepTicks : State.reset.pending = [] := rfl

theorem wit_StepKeepsMemoryCanonical : Safe ready ∧ ∃ t, step ready = .next t := ⟨by unfold Safe; decide, _, rfl⟩

theorem wit_CommandKeepsQueue : Safe ready ∧ ∃ t, exec .alarmFire ready = .next t := ⟨by unfold Safe; decide, _, rfl⟩

/-- A running command holds the tag. -/
theorem wit_EntryJudgedInOrder_1 : let c := adm []
    let r : Running := { opcode := 0x0108, cmd := c, wait := .memTest }
    let s : State := { ready with ink := { ready.ink with running := [r] } }
    fetchable s c.fn c.ring = true ∧ s.ink.fetched.all (fun e => !(e.opcode == 0x0108 && sameTag e.cmd c)) = true ∧ duplicate s c = true := by
  decide

/-- A Reserved bit of FLAGS. -/
theorem wit_EntryJudgedInOrder_2 : let c := { adm [1, 0, 0, 0, 0, 0, 0, 0] with flags := 8 }
    let sp : FwSpec := { op := 0x0201, need := 8 }
    fetchable ready c.fn c.ring = true ∧ duplicate ready c = false ∧ startable ready c ready.ink.fetched = true ∧
      arbiterWaits ready sp.op c = false := by decide

/-- FENCE behind a running command. -/
theorem wit_HeldEntryWaitsFetched : let c := { adm [] with flags := 2 }
    let r : Running := { opcode := 0x0108, cmd := { adm [] with tag := 9 }, wait := .memTest }
    let s : State := { ready with ink := { ready.ink with running := [r] } }
    fetchable s c.fn c.ring = true ∧ duplicate s c = false ∧ startable s c s.ink.fetched = false := by decide

/-- At the last entry of the ring, where the pointer wraps. -/
theorem wit_CompletionEntryWritten :
    let s := setRing ready 0 1 { ring256 0x20000 with ptr := 255, other := 5 }
    Safe s ∧ (ringOf s 0 1).held = [] ∧ ringRoom s 0 1 = true ∧ hostOk s ((ringOf s 0 1).base.toNat + 32 * (ringOf s 0 1).ptr) 32 = true := by
  refine ⟨by unfold Safe; decide, by decide, by decide, by decide⟩

theorem wit_FullCompletionRingHolds : let s := setRing ready 0 1 { ring256 0x20000 with ptr := 255 }
    ((ringOf s 0 1).ptr + 1) % 2 ^ (ringOf s 0 1).log2 = (ringOf s 0 1).other := by decide

theorem wit_EventEntryWritten : Safe ready ∧ servingFn ready 0xFF = 0 ∧ (func ready 0).backlog = [] ∧ (func ready 0).waiting = [] ∧
    passes (func ready 0) 0x0206 = true ∧ ringRoom ready 0 2 = true ∧ hostOk ready ((ringOf ready 0 2).base.toNat) 32 = true := by
  refine ⟨by unfold Safe; decide, by decide, by decide, by decide, by decide +kernel, by decide, by decide⟩

/-- A state and operands that meet the hypotheses of clause 1 of RulingCommandRows. -/
theorem wit_RulingCommandRows_1 :
    ∃ c s a, Begun { op := 0x0201, need := 8 } c s a ∧ hostOk a (p64 c 0) 64 = true := by
  refine ⟨adm (leBytes 8 0x100), ready, _, begun_of (by decide +kernel) (by decide +kernel) (by decide +kernel) (by decide +kernel) (by decide +kernel), ?_⟩ <;> first | decide +kernel | rfl

/-- A state and operands that meet the hypotheses of clause 2 of RulingCommandRows. -/
theorem wit_RulingCommandRows_2 :
    ∃ c s a l, Begun { op := 0x0202, need := 11 } c s a ∧ parsePrefs [p8 c 0, p8 c 1, p8 c 2, p8 c 3] [] = some l ∧ 10000 ≤ p32 c 4 ∧ p32 c 4 ≤ 1000000000 ∧ p16 c 8 ≠ 0 ∧ p8 c 10 < 2 := by
  refine ⟨adm ([2, 0, 0xFF, 0xFF] ++ leBytes 4 10000 ++ leBytes 2 1 ++ [1]), ready, _, [.disciplined, .cadenceIn], begun_of (by decide +kernel) (by decide +kernel) (by decide +kernel) (by decide +kernel) (by decide +kernel), ?_, ?_, ?_, ?_, ?_⟩ <;> first | decide +kernel | rfl

/-- A state and operands that meet the hypotheses of clause 3 of RulingCommandRows. -/
theorem wit_RulingCommandRows_3 :
    ∃ c s a, Begun { op := 0x0203, need := 4 } c s a ∧ 10000 ≤ p32 c 0 ∧ p32 c 0 ≤ 1000000000 := by
  refine ⟨adm (leBytes 4 1000000000), ready, _, begun_of (by decide +kernel) (by decide +kernel) (by decide +kernel) (by decide +kernel) (by decide +kernel), ?_, ?_⟩ <;> first | decide +kernel | rfl

/-- A state and operands that meet the hypotheses of clause 4 of RulingCommandRows. -/
theorem wit_RulingCommandRows_4 :
    ∃ c s a, Begun { op := 0x0204, need := 20 } c s a ∧ a.rul.follower = false ∧ (p32 c 16 = 0 ∨ p32 c 16 = a.rul.epoch.toNat) ∧ (signed32 (p32 c 8)).natAbs ≤ 500000 ∧ (p8 c 12 % 2 = 1 ∨ ((p64 c 0 : Int) - c.stamp.toNat).natAbs ≤ 65536) := by
  refine ⟨adm (leBytes 8 65536 ++ leBytes 4 500000 ++ zeros 4 ++ leBytes 4 1), ready, _, begun_of (by decide +kernel) (by decide +kernel) (by decide +kernel) (by decide +kernel) (by decide +kernel), ?_, ?_, ?_, ?_⟩ <;> first | decide +kernel | rfl

/-- A state and operands that meet the hypotheses of clause 5 of RulingCommandRows. -/
theorem wit_RulingCommandRows_5 :
    ∃ c s a, Begun { op := 0x0205, need := 12 } c s a ∧ a.rul.follower = false ∧ (p32 c 8 = 0 ∨ p32 c 8 = a.rul.epoch.toNat) := by
  refine ⟨adm (leBytes 8 77 ++ leBytes 4 1), ready, _, begun_of (by decide +kernel) (by decide +kernel) (by decide +kernel) (by decide +kernel) (by decide +kernel), ?_, ?_⟩ <;> first | decide +kernel | rfl

/-- A state and operands that meet the hypotheses of clause 6 of RulingCommandRows. -/
theorem wit_RulingCommandRows_6 :
    ∃ c s a, Begun { op := 0x0206, need := 16 } c s a ∧ (p32 c 8 = 0 ∨ p32 c 8 = a.rul.epoch.toNat) ∧ (stamp a).toNat < p64 c 0 := by
  refine ⟨adm (leBytes 8 1 ++ zeros 4 ++ leBytes 4 5), ready, _, begun_of (by decide +kernel) (by decide +kernel) (by decide +kernel) (by decide +kernel) (by decide +kernel), ?_, ?_⟩ <;> first | decide +kernel | rfl

/-- A state and operands that meet the hypotheses of clause 7 of RulingCommandRows. -/
theorem wit_RulingCommandRows_7 :
    ∃ c s a, Begun { op := 0x0207, need := 8 } c s a ∧ holds a pinPair 2 c.fn = true ∧ p8 c 0 % 4 ≠ 0 ∧ p8 c 0 < 8 ∧ 1000 ≤ p32 c 4 ∧ p32 c 4 ≤ 1000000000 ∧ (p16 c 2 = 0xFFFF ∨ p16 c 2 < 16384) := by
  refine ⟨adm ([7, 0, 0xFF, 0x3F] ++ leBytes 4 1000), paired 2, _, begun_of (by decide +kernel) (by decide +kernel) (by decide +kernel) (by decide +kernel) (by decide +kernel), ?_, ?_, ?_, ?_, ?_, ?_⟩ <;> first | decide +kernel | rfl

/-- A state and operands that meet the hypotheses of clause 8 of RulingCommandRows. -/
theorem wit_RulingCommandRows_8 :
    ∃ c s a, Begun { op := 0x0203, need := 4 } c s a ∧ (p32 c 0 < 10000 ∨ 1000000000 < p32 c 0) := by
  refine ⟨adm (leBytes 4 9999), ready, _, begun_of (by decide +kernel) (by decide +kernel) (by decide +kernel) (by decide +kernel) (by decide +kernel), ?_⟩ <;> first | decide +kernel | rfl

/-- A state and operands that meet the hypotheses of clause 9 of RulingCommandRows. -/
theorem wit_RulingCommandRows_9 :
    ∃ c s a, Begun { op := 0x0202, need := 11 } c s a ∧ parsePrefs [p8 c 0, p8 c 1, p8 c 2, p8 c 3] [] = none := by
  refine ⟨adm ([0, 0, 0, 0] ++ leBytes 4 10000 ++ leBytes 2 1 ++ [1]), ready, _, begun_of (by decide +kernel) (by decide +kernel) (by decide +kernel) (by decide +kernel) (by decide +kernel), ?_⟩ <;> first | decide +kernel | rfl

/-- A state and operands that meet the hypotheses of clause 10 of RulingCommandRows. -/
theorem wit_RulingCommandRows_10 :
    ∃ c s a, Begun { op := 0x0204, need := 20 } c s a ∧ a.rul.follower = true := by
  refine ⟨adm (zeros 20), { ready with rul.follower := true }, _, begun_of (by decide +kernel) (by decide +kernel) (by decide +kernel) (by decide +kernel) (by decide +kernel), ?_⟩ <;> first | decide +kernel | rfl

/-- A state and operands that meet the hypotheses of clause 11 of RulingCommandRows. -/
theorem wit_RulingCommandRows_11 :
    ∃ c s a, Begun { op := 0x0205, need := 12 } c s a ∧ a.rul.follower = false ∧ p32 c 8 ≠ 0 ∧ p32 c 8 ≠ a.rul.epoch.toNat := by
  refine ⟨adm (leBytes 8 77 ++ leBytes 4 2), ready, _, begun_of (by decide +kernel) (by decide +kernel) (by decide +kernel) (by decide +kernel) (by decide +kernel), ?_, ?_, ?_⟩ <;> first | decide +kernel | rfl

/-- A state and operands that meet the hypotheses of clause 12 of RulingCommandRows. -/
theorem wit_RulingCommandRows_12 :
    ∃ c s a, Begun { op := 0x0206, need := 16 } c s a ∧ (p32 c 8 = 0 ∨ p32 c 8 = a.rul.epoch.toNat) ∧ p64 c 0 ≤ (stamp a).toNat := by
  refine ⟨adm (zeros 16), ready, _, begun_of (by decide +kernel) (by decide +kernel) (by decide +kernel) (by decide +kernel) (by decide +kernel), ?_, ?_⟩ <;> first | decide +kernel | rfl

/-- A state and operands that meet the hypotheses of clause 13 of RulingCommandRows. -/
theorem wit_RulingCommandRows_13 :
    ∃ c s a, Begun { op := 0x0207, need := 8 } c s a ∧ holds a pinPair 2 c.fn = false := by
  refine ⟨adm (zeros 8), ready, _, begun_of (by decide +kernel) (by decide +kernel) (by decide +kernel) (by decide +kernel) (by decide +kernel), ?_⟩ <;> first | decide +kernel | rfl

/-- CADENCE_IN in force, with a reference edge 16 periods in the past. -/
def cadenced (valid : Bool) : State :=
  { paired 1 with rul := { (paired 1).rul with source := .cadenceIn, prefs := [.cadenceIn, .free],
                                               cad := { (paired 1).rul.cad with valid := valid, refEdge := some 0, count := 1 } } }

/-- A trigger armed on rising edges, its last edge at time 0. -/
def armed : State :=
  { paired 2 with rul := { (paired 2).rul with trig := { (paired 2).rul.trig with config := some (true, false, true, 0xFFFF, 1000), lastAt := some 0 } } }

/-- Member 1 of a group of two, with contrary adverts of member 0. -/
def grouped : State :=
  { ready with rul.contrary := 8
               duc.adverts := [(0, { valid := true, eligible := true, seq := none })]
               duc.links := [(0, { st := 4 })]
               duc.group := some { id := 1, index := 1, members := [0, 1], remoteUs := 1000, lines := 4, routes := [(0, 0)], hash := [], raw := [] } }

/-- A state and operands that meet the hypotheses of clause 1 of LineBoundaryAdvances. -/
theorem wit_LineBoundaryAdvances_1 :
    ∃ s : State, (s.rul.holdover.isSome || isGen s.rul.source || followsMarkers s) = true ∧ s.rul.pendLoad = none ∧ s.rul.pendStep = none := by
  refine ⟨ready, ?_, ?_, ?_⟩ <;> first | decide +kernel | rfl

/-- A state and operands that meet the hypotheses of clause 2 of LineBoundaryAdvances. -/
theorem wit_LineBoundaryAdvances_2 :
    ∃ (s : State) (l : List Src) (n lim : Nat) (el : Bool), (s.rul.holdover.isSome || isGen s.rul.source || followsMarkers s) = true ∧ s.rul.pendLoad = none ∧ s.rul.pendStep = none ∧ s.rul.pendSources = some (l, n, lim, el) := by
  refine ⟨{ ready with rul.pendSources := some ([.free], 20000, 8, false) }, [.free], 20000, 8, false, ?_, ?_, ?_, ?_⟩ <;> first | decide +kernel | rfl

/-- A state and operands that meet the hypotheses of clause 3 of LineBoundaryAdvances. -/
theorem wit_LineBoundaryAdvances_3 :
    ∃ (s : State) (l : BitVec 48), (s.rul.holdover.isSome || isGen s.rul.source || followsMarkers s) = true ∧ s.rul.pendLoad = some l ∧ s.rul.pendStep = none := by
  refine ⟨{ ready with rul.pendLoad := some 9 }, 9, ?_, ?_, ?_⟩ <;> first | decide +kernel | rfl

/-- A state and operands that meet the hypotheses of clause 4 of LineBoundaryAdvances. -/
theorem wit_LineBoundaryAdvances_4 :
    ∃ (s : State) (e : Int), (s.rul.holdover.isSome || isGen s.rul.source || followsMarkers s) = true ∧ s.rul.pendLoad = none ∧ s.rul.pendStep = some e := by
  refine ⟨{ ready with rul.pendStep := some (-3) }, -3, ?_, ?_, ?_⟩ <;> first | decide +kernel | rfl

/-- A state and operands that meet the hypotheses of clause 5 of LineBoundaryAdvances. -/
theorem wit_LineBoundaryAdvances_5 :
    ∃ (s : State) (c : Src), s.rul.holdover = none ∧ s.rul.source = .cadenceIn ∧ s.rul.follower = false ∧ genTarget s = some c ∧ continuous s = true ∧ s.rul.pendLoad = none ∧ s.rul.pendStep = none := by
  refine ⟨{ ready with rul.source := .cadenceIn, time := 65536000000 }, .free, ?_, ?_, ?_, ?_, ?_, ?_, ?_⟩ <;> first | decide +kernel | rfl

/-- A state and operands that meet the hypotheses of clause 6 of LineBoundaryAdvances. -/
theorem wit_LineBoundaryAdvances_6 :
    ∃ s : State, boundaryDue s = false := by
  refine ⟨{ ready with rul.source := .rulingMaster, rul.prefs := [.rulingMaster], rul.markerValid := true }, ?_⟩ <;> first | decide +kernel | rfl

/-- A state and operands that meet the hypotheses of clause 1 of CadenceEdgesJudged. -/
theorem wit_CadenceEdgesJudged_1 :
    ∃ (s : State) (ns : Nat), pairCadence s = false := by
  refine ⟨ready, 5, ?_⟩ <;> first | decide +kernel | rfl

/-- A state and operands that meet the hypotheses of clause 2 of CadenceEdgesJudged. -/
theorem wit_CadenceEdgesJudged_2 :
    ∃ (s u : State) (ns : Nat), u = elapseTo s (s.time + ns * 65536) ∧ pairCadence s = true ∧ s.rul.cad.refEdge = none := by
  refine ⟨paired 1, _, 3, rfl, ?_, ?_⟩ <;> first | decide +kernel | rfl

/-- A state and operands that meet the hypotheses of clause 3 of CadenceEdgesJudged. -/
theorem wit_CadenceEdgesJudged_3 :
    ∃ (s u : State) (ns r : Nat), u = elapseTo s (s.time + ns * 65536) ∧ pairCadence s = true ∧ s.rul.cad.refEdge = some r ∧ 3 * (s.rul.nominal * 65536) ≤ 4 * (u.time - r) ∧ 4 * (u.time - r) ≤ 5 * (s.rul.nominal * 65536) ∧ s.rul.source = .cadenceIn ∧ s.rul.holdover = none ∧ s.rul.pendLoad = none ∧ s.rul.pendStep = none := by
  refine ⟨cadenced true, _, 750000, 0, rfl, ?_, ?_, ?_, ?_, ?_, ?_, ?_, ?_⟩ <;> first | decide +kernel | rfl

/-- A state and operands that meet the hypotheses of clause 4 of CadenceEdgesJudged. -/
theorem wit_CadenceEdgesJudged_4 :
    ∃ (s u : State) (ns r : Nat), u = elapseTo s (s.time + ns * 65536) ∧ pairCadence s = true ∧ s.rul.cad.refEdge = some r ∧ 4 * (u.time - r) < 3 * (s.rul.nominal * 65536) ∧ s.rul.cad.valid = false := by
  refine ⟨cadenced false, _, 749999, 0, rfl, ?_, ?_, ?_, ?_⟩ <;> first | decide +kernel | rfl

/-- A state and operands that meet the hypotheses of clause 5 of CadenceEdgesJudged. -/
theorem wit_CadenceEdgesJudged_5 :
    ∃ (s u : State) (ns r : Nat), u = elapseTo s (s.time + ns * 65536) ∧ pairCadence s = true ∧ s.rul.cad.refEdge = some r ∧ 4 * (u.time - r) < 3 * (s.rul.nominal * 65536) ∧ s.rul.cad.valid = true ∧ s.rul.cad.rejectAges.length < 3 := by
  refine ⟨cadenced true, _, 749999, 0, rfl, ?_, ?_, ?_, ?_, ?_⟩ <;> first | decide +kernel | rfl

/-- A state and operands that meet the hypotheses of clause 6 of CadenceEdgesJudged. -/
theorem wit_CadenceEdgesJudged_6 :
    ∃ (s u : State) (ns r : Nat), u = elapseTo s (s.time + ns * 65536) ∧ pairCadence s = true ∧ s.rul.cad.refEdge = some r ∧ 4 * (u.time - r) < 3 * (s.rul.nominal * 65536) ∧ s.rul.cad.valid = true ∧ 3 ≤ s.rul.cad.rejectAges.length ∧ s.rul.source ≠ .cadenceIn := by
  refine ⟨{ cadenced true with rul.cad.rejectAges := [1, 1, 1], rul.source := .free }, _, 749999, 0, rfl, ?_, ?_, ?_, ?_, ?_, ?_⟩ <;> first | decide +kernel | rfl

/-- A state and operands that meet the hypotheses of clause 7 of CadenceEdgesJudged. -/
theorem wit_CadenceEdgesJudged_7 :
    ∃ (s u : State) (ns r : Nat), u = elapseTo s (s.time + ns * 65536) ∧ pairCadence s = true ∧ s.rul.cad.refEdge = some r ∧ 5 * (s.rul.nominal * 65536) < 4 * (u.time - r) := by
  refine ⟨cadenced true, _, 1250001, 0, rfl, ?_, ?_, ?_⟩ <;> first | decide +kernel | rfl

/-- A state and operands that meet the hypotheses of clause 8 of CadenceEdgesJudged. -/
theorem wit_CadenceEdgesJudged_8 :
    ∃ (s : State) (r : Nat), pairCadence s = true ∧ s.rul.cad.refEdge = some r ∧ (s.rul.source ≠ .cadenceIn ∨ s.rul.holdover.isSome = true) := by
  refine ⟨{ cadenced true with rul.source := .free }, 0, ?_, ?_, ?_⟩ <;> first | decide +kernel | rfl | exact .inl (by decide)

/-- A state and operands that meet the hypotheses of clause 9 of CadenceEdgesJudged. -/
theorem wit_CadenceEdgesJudged_9 :
    ∃ s : State, pairCadence s = false := by
  refine ⟨ready, ?_⟩ <;> first | decide +kernel | rfl

/-- A state and operands that meet the hypotheses of clause 1 of RulingEventsTakeEffect. -/
theorem wit_RulingEventsTakeEffect_1 :
    ∃ (s : State) (h : Holdover), s.rul.holdover = some h ∧ h.remaining = 0 ∧ s.rul.follower = false ∧ s.duc.group = none ∧ isGen (afterLost s h.lost) = true := by
  refine ⟨{ ready with rul.holdover := some { lost := .cadenceIn, remaining := 0, period := 1000000, base := 0 } }, { lost := .cadenceIn, remaining := 0, period := 1000000, base := 0 }, ?_, ?_, ?_, ?_, ?_⟩ <;> first | decide +kernel | rfl

/-- A state and operands that meet the hypotheses of clause 2 of RulingEventsTakeEffect. -/
theorem wit_RulingEventsTakeEffect_2 :
    ∃ (s : State) (h : Holdover), s.rul.holdover = some h ∧ h.remaining = 0 ∧ s.rul.follower = false ∧ s.duc.group = none ∧ isGen (afterLost s h.lost) = false := by
  refine ⟨{ ready with rul.holdover := some { lost := .cadenceIn, remaining := 0, period := 1000000, base := 0 }, rul.prefs := [.cadenceIn, .rulingMaster], rul.markerValid := true }, { lost := .cadenceIn, remaining := 0, period := 1000000, base := 0 }, ?_, ?_, ?_, ?_, ?_⟩ <;> first | decide +kernel | rfl

/-- A state and operands that meet the hypotheses of clause 3 of RulingEventsTakeEffect. -/
theorem wit_RulingEventsTakeEffect_3 :
    ∃ (s : State) (h : Holdover), s.rul.holdover = some h ∧ h.remaining = 0 ∧ s.rul.follower = false ∧ s.duc.group.isSome = true ∧ s.rul.master = ownIndex s ∧ elect (leaveHoldover s h.lost) ≠ ownIndex s := by
  refine ⟨{ grouped with rul.holdover := some { lost := .cadenceIn, remaining := 0, period := 1000000, base := 0 }, rul.master := 1 }, { lost := .cadenceIn, remaining := 0, period := 1000000, base := 0 }, ?_, ?_, ?_, ?_, ?_, ?_⟩ <;> first | decide +kernel | rfl

/-- A state and operands that meet the hypotheses of clause 4 of RulingEventsTakeEffect. -/
theorem wit_RulingEventsTakeEffect_4 :
    ∃ (s : State) (h : Holdover), s.rul.holdover = some h ∧ h.remaining = 0 ∧ s.rul.follower = true := by
  refine ⟨{ grouped with rul.holdover := some { lost := .cadenceIn, remaining := 0, period := 1000000, base := 0 }, rul.follower := true }, { lost := .cadenceIn, remaining := 0, period := 1000000, base := 0 }, ?_, ?_, ?_⟩ <;> first | decide +kernel | rfl

/-- A state and operands that meet the hypotheses of clause 5 of RulingEventsTakeEffect. -/
theorem wit_RulingEventsTakeEffect_5 :
    ∃ s u : State, u = elapseTo s (s.rul.markerAt + 2 * s.rul.nominal * 65536) ∧ s.rul.markerValid = true ∧ s.rul.source ≠ .rulingMaster := by
  refine ⟨{ ready with rul.markerValid := true }, _, rfl, ?_, ?_⟩ <;> first | decide +kernel | rfl

/-- A state and operands that meet the hypotheses of clause 6 of RulingEventsTakeEffect. -/
theorem wit_RulingEventsTakeEffect_6 :
    ∃ s : State, s.rul.markerValid = true ∧ s.rul.source = .rulingMaster ∧ s.rul.holdover = none ∧ s.rul.follower = true := by
  refine ⟨{ ready with rul.markerValid := true, rul.source := .rulingMaster, rul.follower := true }, ?_, ?_, ?_, ?_⟩ <;> first | decide +kernel | rfl

/-- A state and operands that meet the hypotheses of clause 7 of RulingEventsTakeEffect. -/
theorem wit_RulingEventsTakeEffect_7 :
    ∃ s : State, s.rul.discValid = true ∧ s.rul.limit ≤ s.rul.discLines ∧ s.rul.source ≠ .disciplined := by
  refine ⟨{ ready with rul.discValid := true, rul.discLines := 64 }, ?_, ?_, ?_⟩ <;> first | decide +kernel | rfl

/-- A state and operands that meet the hypotheses of clause 8 of RulingEventsTakeEffect. -/
theorem wit_RulingEventsTakeEffect_8 :
    ∃ s : State, s.rul.discValid = true ∧ s.rul.limit ≤ s.rul.discLines ∧ s.rul.source = .disciplined ∧ s.rul.holdover = none ∧ s.time < nextInstant (setHoldover { s with rul.discValid := false } 3 (correctedPeriod s.rul)) := by
  refine ⟨{ ready with rul.discValid := true, rul.discLines := 64, rul.source := .disciplined }, ?_, ?_, ?_, ?_, ?_⟩ <;> first | decide +kernel | rfl

/-- A state and operands that meet the hypotheses of clause 9 of RulingEventsTakeEffect. -/
theorem wit_RulingEventsTakeEffect_9 :
    ∃ s : State, s.duc.group.isSome = true ∧ masterLost s = false ∧ (8 ≤ s.rul.contrary ∨ s.rul.master = 0xFFFF) ∧ elect s ≠ ownIndex s := by
  refine ⟨grouped, ?_, ?_, ?_, ?_⟩ <;> first | decide +kernel | rfl | exact .inl (by decide)

/-- A state and operands that meet the hypotheses of clause 10 of RulingEventsTakeEffect. -/
theorem wit_RulingEventsTakeEffect_10 :
    ∃ s : State, s.duc.group.isSome = true ∧ masterLost s = false ∧ (8 ≤ s.rul.contrary ∨ s.rul.master = 0xFFFF) ∧ elect s = ownIndex s := by
  refine ⟨{ grouped with duc.adverts := [] }, ?_, ?_, ?_, ?_⟩ <;> first | decide +kernel | rfl | exact .inl (by decide)

/-- A state and operands that meet the hypotheses of clause 11 of RulingEventsTakeEffect. -/
theorem wit_RulingEventsTakeEffect_11 :
    ∃ s : State, s.duc.group.isSome = true ∧ masterLost s = true := by
  refine ⟨{ grouped with rul.follower := true, rul.holdover := some { lost := .rulingMaster, remaining := 0, period := 1000000, base := 0 } }, ?_, ?_⟩ <;> first | decide +kernel | rfl

/-- A state and operands that meet the hypotheses of clause 12 of RulingEventsTakeEffect. -/
theorem wit_RulingEventsTakeEffect_12 :
    ∃ (s u : State) (rising onRise onFall posts : Bool) (ns tally hold : Nat), u = elapseTo s (s.time + ns * 65536) ∧ s.rul.trig.config = some (onRise, onFall, posts, tally, hold) ∧ pairTrigger s = true ∧ (if rising then onRise else onFall) = true ∧ (∀ l, s.rul.trig.lastAt = some l → l + hold * 65536 ≤ u.time) := by
  refine ⟨armed, _, true, true, false, true, 1000, 0xFFFF, 1000, rfl, ?_, ?_, ?_, ?_⟩ <;> first | rfl | decide | (intro l h; cases h; decide)

/-- A state and operands that meet the hypotheses of clause 13 of RulingEventsTakeEffect. -/
theorem wit_RulingEventsTakeEffect_13 :
    ∃ (s u : State) (rising onRise onFall posts : Bool) (ns tally hold l : Nat), u = elapseTo s (s.time + ns * 65536) ∧ s.rul.trig.config = some (onRise, onFall, posts, tally, hold) ∧ pairTrigger s = true ∧ (if rising then onRise else onFall) = true ∧ s.rul.trig.lastAt = some l ∧ u.time < l + hold * 65536 := by
  refine ⟨armed, _, true, true, false, true, 999, 0xFFFF, 1000, 0, rfl, ?_, ?_, ?_, ?_, ?_⟩ <;> first | decide +kernel | rfl

/-- A state and operands that meet the hypotheses of clause 15 of RulingEventsTakeEffect. -/
theorem wit_RulingEventsTakeEffect_15 :
    ∃ (s : State) (x : Alarm), s.rul.alarms = [x] ∧ x.stamp.toNat ≤ (stamp s).toNat := by
  refine ⟨{ ready with rul.alarms := [{ stamp := 0, asked := 0, cookie := 1 }] }, { stamp := 0, asked := 0, cookie := 1 }, ?_, ?_⟩ <;> first | decide +kernel | rfl

/-- A host that has written one ECHO entry at index 0 of the PF's admin ring and rung its doorbell, of 256 entries. -/
def knocked : State :=
  setRing (hostPut ready 0x10000 (entryBytes 0x0108 (adm [1, 2, 3]))) 0 0 { ring256 0x10000 with other := 1, stamps := [(0, 5)] }

/-- The same with the entry's memory failing. -/
def knockedBad : State := { knocked with hostFaults := [(0x10000, 64)] }

/-- A state and operands that meet the hypotheses of clause 3 of ControlRegisterRows. -/
theorem wit_ControlRegisterRows_3 :
    ∃ (s : State) (fn : Nat), s.ink.claims.filter (fun h => h.owner == fn) = [] := by
  refine ⟨{ ready with ink := { ready.ink with fetched := [{ opcode := 0x0108, cmd := adm [] }] } }, 0, ?_⟩ <;> first | decide +kernel | rfl

/-- A state and operands that meet the hypotheses of clause 4 of ControlRegisterRows. -/
theorem wit_ControlRegisterRows_4 :
    ∃ (s : State) (v : BitVec 32), s.ink.state ≠ stRom ∧ v.toNat % 256 ≠ 0x0A := by
  refine ⟨ready, 0x62, ?_, ?_⟩ <;> first | decide +kernel | rfl

/-- A state and operands that meet the hypotheses of clause 5 of ControlRegisterRows. -/
theorem wit_ControlRegisterRows_5 :
    ∃ (s : State) (fn : Nat) (v : BitVec 32), (fn ≠ 0 ∨ s.ink.state = stRom) := by
  refine ⟨ready, 1, 0x0A, ?_⟩ <;> first | decide +kernel | rfl

/-- A state and operands that meet the hypotheses of clause 5 of RegisterWriteRows. -/
theorem wit_RegisterWriteRows_5 :
    ∃ (s : State) (fn n : Nat) (v : BitVec 32) (r : Ring), (func s fn).rings = [(n, r)] ∧ r.pendIrq ≠ 0 ∧ (v.setWidth 8).toNat ≤ r.pendIrq := by
  refine ⟨setFunc ready 0 { readyFunc with rings := [(1, { ring256 0x20000 with pendIrq := 2, oldest := some 0 })] }, 0, 1, 2, { ring256 0x20000 with pendIrq := 2, oldest := some 0 }, ?_, ?_, ?_⟩ <;> first | decide +kernel | rfl | exact .inl (by decide +kernel) | exact .inr (by decide +kernel) | (intro h; exact absurd h (by decide +kernel))

/-- A state and operands that meet the hypotheses of clause 6 of RegisterWriteRows. -/
theorem wit_RegisterWriteRows_6 :
    ∃ (s : State) (fn n : Nat) (v : BitVec 32), n < 16 ∧ ringExists s fn n = true ∧ (ringOf s fn n).en = false := by
  refine ⟨ready, 0, 6, 0x12345678, ?_, ?_, ?_⟩ <;> first | decide +kernel | rfl | exact .inl (by decide +kernel) | exact .inr (by decide +kernel) | (intro h; exact absurd h (by decide +kernel))

/-- A state and operands that meet the hypotheses of clause 7 of RegisterWriteRows. -/
theorem wit_RegisterWriteRows_7 :
    ∃ (s : State) (fn n : Nat) (v : BitVec 32), n < 16 ∧ ringExists s fn n = true ∧ (ringOf s fn n).en = false := by
  refine ⟨ready, 0, 6, 0x12345678, ?_, ?_, ?_⟩ <;> first | decide +kernel | rfl | exact .inl (by decide +kernel) | exact .inr (by decide +kernel) | (intro h; exact absurd h (by decide +kernel))

/-- A state and operands that meet the hypotheses of clause 8 of RegisterWriteRows. -/
theorem wit_RegisterWriteRows_8 :
    ∃ (s : State) (fn n : Nat) (v : BitVec 32), n < 16 ∧ (ringOf s fn n).en = true := by
  refine ⟨ready, 0, 4, 0x12345678, ?_, ?_⟩ <;> first | decide +kernel | rfl | exact .inl (by decide +kernel) | exact .inr (by decide +kernel) | (intro h; exact absurd h (by decide +kernel))

/-- A state and operands that meet the hypotheses of clause 9 of RegisterWriteRows. -/
theorem wit_RegisterWriteRows_9 :
    ∃ (s : State) (fn n : Nat) (v : BitVec 32), n < 16 := by
  refine ⟨ready, 0, 4, 0x12345678, ?_⟩ <;> first | decide +kernel | rfl | exact .inl (by decide +kernel) | exact .inr (by decide +kernel) | (intro h; exact absurd h (by decide +kernel))

/-- A state and operands that meet the hypotheses of clause 10 of RegisterWriteRows. -/
theorem wit_RegisterWriteRows_10 :
    ∃ (s : State) (fn off : Nat) (v : RegWrite), (v.size ≠ 4 ∨ off % 4 ≠ 0) := by
  refine ⟨ready, 0, 0x22, ⟨7, 4⟩, ?_⟩ <;> first | decide +kernel | rfl | exact .inl (by decide +kernel) | exact .inr (by decide +kernel) | (intro h; exact absurd h (by decide +kernel))

/-- A state and operands that meet the hypotheses of clause 1 of RingConfigurationRows. -/
theorem wit_RingConfigurationRows_1 :
    ∃ (s : State) (fn n : Nat) (v : BitVec 32) (r : Ring), r = ringOf s fn n ∧ ringExists s fn n = true ∧ r.en = false ∧ v.getLsbD 0 = true ∧ 4 ≤ bits v.toNat 4 1 ∧ bits v.toNat 4 1 ≤ 12 := by
  refine ⟨ready, 0, 6, 0x19, _, rfl, ?_, ?_, ?_, ?_, ?_⟩ <;> first | decide +kernel | rfl | exact .inl (by decide +kernel) | exact .inr (by decide +kernel) | (intro h; exact absurd h (by decide +kernel))

/-- A state and operands that meet the hypotheses of clause 2 of RingConfigurationRows. -/
theorem wit_RingConfigurationRows_2 :
    ∃ (s : State) (fn n : Nat) (v : BitVec 32) (r : Ring), r = ringOf s fn n ∧ ringExists s fn n = true ∧ r.en = false ∧ v.getLsbD 0 = true ∧ 4 ≤ bits v.toNat 4 1 ∧ bits v.toNat 4 1 ≤ 12 ∧ r.held = [] ∧ (func s fn).backlog = [] ∧ (func s fn).waiting = [] ∧ s.ink.running = [] := by
  refine ⟨ready, 0, 6, 0x19, _, rfl, ?_, ?_, ?_, ?_, ?_, ?_, ?_, ?_, ?_⟩ <;> first | decide +kernel | rfl | exact .inl (by decide +kernel) | exact .inr (by decide +kernel) | (intro h; exact absurd h (by decide +kernel))

/-- A state and operands that meet the hypotheses of clause 3 of RingConfigurationRows. -/
theorem wit_RingConfigurationRows_3 :
    ∃ (s : State) (fn n : Nat) (v : BitVec 32) (r : Ring), r = ringOf s fn n ∧ ringExists s fn n = true ∧ r.en = true ∧ v.getLsbD 0 = false := by
  refine ⟨ready, 0, 4, 0x18, _, rfl, ?_, ?_, ?_⟩ <;> first | decide +kernel | rfl | exact .inl (by decide +kernel) | exact .inr (by decide +kernel) | (intro h; exact absurd h (by decide +kernel))

/-- A state and operands that meet the hypotheses of clause 4 of RingConfigurationRows. -/
theorem wit_RingConfigurationRows_4 :
    ∃ (s : State) (fn n : Nat) (v : BitVec 32), ringExists s fn n = true ∧ (ringOf s fn n).en = true ∧ v.getLsbD 0 = false := by
  refine ⟨ready, 0, 4, 0x18, ?_, ?_, ?_⟩ <;> first | decide +kernel | rfl | exact .inl (by decide +kernel) | exact .inr (by decide +kernel) | (intro h; exact absurd h (by decide +kernel))

/-- A state and operands that meet the hypotheses of clause 5 of RingConfigurationRows. -/
theorem wit_RingConfigurationRows_5 :
    ∃ (s : State) (fn n : Nat) (v : BitVec 32) (r : Ring), r = ringOf s fn n ∧ ringExists s fn n = true ∧ r.en = true ∧ v.getLsbD 0 = true ∧ bits v.toNat 4 1 = r.log2 := by
  refine ⟨ready, 0, 4, 0x51, _, rfl, ?_, ?_, ?_, ?_⟩ <;> first | decide +kernel | rfl | exact .inl (by decide +kernel) | exact .inr (by decide +kernel) | (intro h; exact absurd h (by decide +kernel))

/-- A state and operands that meet the hypotheses of clause 6 of RingConfigurationRows. -/
theorem wit_RingConfigurationRows_6 :
    ∃ (s : State) (fn n : Nat) (v : BitVec 32) (r : Ring), r = ringOf s fn n ∧ ringExists s fn n = true ∧ r.en = true ∧ v.getLsbD 0 = true ∧ bits v.toNat 4 1 ≠ r.log2 := by
  refine ⟨ready, 0, 4, 0x1B, _, rfl, ?_, ?_, ?_, ?_⟩ <;> first | decide +kernel | rfl | exact .inl (by decide +kernel) | exact .inr (by decide +kernel) | (intro h; exact absurd h (by decide +kernel))

/-- A state and operands that meet the hypotheses of clause 7 of RingConfigurationRows. -/
theorem wit_RingConfigurationRows_7 :
    ∃ (s : State) (fn n : Nat) (v : BitVec 32) (r : Ring), r = ringOf s fn n ∧ ringExists s fn n = true ∧ r.en = false ∧ v.getLsbD 0 = true ∧ (bits v.toNat 4 1 < 4 ∨ 12 < bits v.toNat 4 1) := by
  refine ⟨ready, 0, 6, 0x1B, _, rfl, ?_, ?_, ?_, ?_⟩ <;> first | decide +kernel | rfl | exact .inl (by decide +kernel) | exact .inr (by decide +kernel) | (intro h; exact absurd h (by decide +kernel))

/-- A state and operands that meet the hypotheses of clause 8 of RingConfigurationRows. -/
theorem wit_RingConfigurationRows_8 :
    ∃ (s : State) (fn n : Nat) (v : BitVec 32) (r : Ring), r = ringOf s fn n ∧ ringExists s fn n = true ∧ r.en = false ∧ v.getLsbD 0 = false := by
  refine ⟨ready, 0, 6, 0x18, _, rfl, ?_, ?_, ?_⟩ <;> first | decide +kernel | rfl | exact .inl (by decide +kernel) | exact .inr (by decide +kernel) | (intro h; exact absurd h (by decide +kernel))

/-- A state and operands that meet the hypotheses of clause 9 of RingConfigurationRows. -/
theorem wit_RingConfigurationRows_9 :
    ∃ (s : State) (fn n : Nat) (v : BitVec 32), ringExists s fn n = false := by
  refine ⟨ready, 0, 3, 1, ?_⟩ <;> first | decide +kernel | rfl | exact .inl (by decide +kernel) | exact .inr (by decide +kernel) | (intro h; exact absurd h (by decide +kernel))

/-- A state and operands that meet the hypotheses of clause 1 of DoorbellRows. -/
theorem wit_DoorbellRows_1 :
    ∃ (s u : State) (fn n : Nat) (v : BitVec 32) (host : HostWrites) (r : Ring), u = prog (hostDid s host) 0xA000 1 none none 1 ∧ r = ringOf s fn n ∧ s.ink.state ≠ stResetting ∧ ringExists s fn n = true ∧ isSubmission n = true ∧ r.en = true ∧ v.toNat % 65536 < 2 ^ r.log2 := by
  refine ⟨ready, _, 0, 0, 255, { bytes := [(0x10000, 1)], faults := [] }, ringOf ready 0 0, rfl, ?_, ?_, ?_, ?_, ?_, ?_⟩ <;> first | decide +kernel | rfl

/-- A state and operands that meet the hypotheses of clause 2 of DoorbellRows. -/
theorem wit_DoorbellRows_2 :
    ∃ (s : State) (fn n : Nat) (v : BitVec 32) (host : HostWrites), s.ink.state ≠ stResetting ∧ (ringExists s fn n = false ∨ (ringOf s fn n).en = false ∨ 2 ^ (ringOf s fn n).log2 ≤ v.toNat % 65536) := by
  refine ⟨ready, 0, 0, 256, ⟨[], []⟩, ?_, ?_⟩ <;> first | decide +kernel | rfl | exact .inl (by decide +kernel) | exact .inr (by decide +kernel) | (intro h; exact absurd h (by decide +kernel))

/-- A state and operands that meet the hypotheses of clause 3 of DoorbellRows. -/
theorem wit_DoorbellRows_3 :
    ∃ (s : State) (fn n : Nat) (v : BitVec 32) (host : HostWrites), s.ink.state = stResetting := by
  refine ⟨{ ready with ink.state := stResetting }, 0, 0, 1, ⟨[], []⟩, ?_⟩ <;> first | decide +kernel | rfl | exact .inl (by decide +kernel) | exact .inr (by decide +kernel) | (intro h; exact absurd h (by decide +kernel))

/-- A state and operands that meet the hypotheses of clause 4 of DoorbellRows. -/
theorem wit_DoorbellRows_4 :
    ∃ (s : State) (fn n : Nat) (v : BitVec 32) (r : Ring), r = ringOf s fn n ∧ s.ink.state ≠ stResetting ∧ ringExists s fn n = true ∧ isSubmission n = false ∧ r.en = true ∧ v.toNat % 65536 < 2 ^ r.log2 := by
  refine ⟨ready, 0, 1, 255, _, rfl, ?_, ?_, ?_, ?_, ?_⟩ <;> first | decide +kernel | rfl | exact .inl (by decide +kernel) | exact .inr (by decide +kernel) | (intro h; exact absurd h (by decide +kernel))

/-- A state and operands that meet the hypotheses of clause 5 of DoorbellRows. -/
theorem wit_DoorbellRows_5 :
    ∃ (s : State) (fn n : Nat) (v : BitVec 32) (r : Ring), r = ringOf s fn n ∧ s.ink.state ≠ stResetting ∧ ringExists s fn n = true ∧ isSubmission n = false ∧ n ≠ 2 ∧ r.en = true ∧ r.held = [] ∧ s.ink.running = [] ∧ v.toNat % 65536 < 2 ^ r.log2 := by
  refine ⟨ready, 0, 1, 255, _, rfl, ?_, ?_, ?_, ?_, ?_, ?_, ?_, ?_⟩ <;> first | decide +kernel | rfl | exact .inl (by decide +kernel) | exact .inr (by decide +kernel) | (intro h; exact absurd h (by decide +kernel))

/-- A state and operands that meet the hypotheses of clause 6 of DoorbellRows. -/
theorem wit_DoorbellRows_6 :
    ∃ (s : State) (fn n : Nat) (v : BitVec 32) (r : Ring) (k : Completion), Safe s ∧ r = ringOf s fn n ∧ s.ink.state ≠ stResetting ∧ ringExists s fn n = true ∧ isSubmission n = false ∧ n ≠ 2 ∧ r.en = true ∧ r.held = [k] ∧ s.ink.running = [] ∧ v.toNat % 65536 < 2 ^ r.log2 ∧ (r.ptr + 1) % 2 ^ r.log2 ≠ v.toNat % 65536 ∧ hostOk s (r.base.toNat + 32 * r.ptr) 32 = true := by
  refine ⟨setRing ready 0 1 { ring256 0x20000 with held := [{ tag := 7, status := 0, sq := 0, stamp := 0, result := zeros 16, irq := true }], other := 1 }, 0, 1, 255, _, { tag := 7, status := 0, sq := 0, stamp := 0, result := zeros 16, irq := true }, ?_, rfl, ?_, ?_, ?_, ?_, ?_, ?_, ?_, ?_, ?_, ?_⟩ <;> first | (unfold Safe; decide +kernel) | decide +kernel | rfl

/-- A state and operands that meet the hypotheses of clause 7 of DoorbellRows. -/
theorem wit_DoorbellRows_7 :
    ∃ (s : State) (fn n : Nat) (v : BitVec 32), s.ink.state ≠ stResetting ∧ (ringExists s fn n = false ∨ (ringOf s fn n).en = false ∨ 2 ^ (ringOf s fn n).log2 ≤ v.toNat % 65536) := by
  refine ⟨ready, 0, 0, 256, ?_, ?_⟩ <;> first | decide +kernel | rfl | exact .inl (by decide +kernel) | exact .inr (by decide +kernel) | (intro h; exact absurd h (by decide +kernel))

/-- A state and operands that meet the hypotheses of clause 8 of DoorbellRows. -/
theorem wit_DoorbellRows_8 :
    ∃ (s : State) (fn n : Nat) (v : BitVec 32), s.ink.state = stResetting := by
  refine ⟨{ ready with ink.state := stResetting }, 0, 1, 1, ?_⟩ <;> first | decide +kernel | rfl | exact .inl (by decide +kernel) | exact .inr (by decide +kernel) | (intro h; exact absurd h (by decide +kernel))

/-- A state and operands that meet the hypotheses of clause 1 of RingVisitFetches. -/
theorem wit_RingVisitFetches_1 :
    ∃ (s : State) (fn n : Nat) (r : Ring) (e : Sub), r = ringOf s fn n ∧ n < 16 ∧ nextVisit s = some (fn * 16 + n) ∧ r.stopped = false ∧ r.ptr ≠ r.other ∧ (r.ptr + 1) % 2 ^ r.log2 = r.other ∧ hostOk s (r.base.toNat + 64 * r.ptr) 64 = true ∧ e = subOfBytes s fn n (mget 0 r.stamps r.ptr) (hostGet s (r.base.toNat + 64 * r.ptr) 64) ∧ duplicate s e.cmd = false ∧ implemented e.opcode = true := by
  refine ⟨knocked, 0, 0, ringOf knocked 0 0, subOfBytes knocked 0 0 5 (hostGet knocked 0x10000 64), ?_, ?_, ?_, ?_, ?_, ?_, ?_, ?_, ?_, ?_⟩ <;> first | decide +kernel | rfl

/-- A state and operands that meet the hypotheses of clause 2 of RingVisitFetches. -/
theorem wit_RingVisitFetches_2 :
    ∃ (s : State) (fn n : Nat) (r : Ring), r = ringOf s fn n ∧ n < 16 ∧ nextVisit s = some (fn * 16 + n) ∧ r.stopped = false ∧ r.ptr ≠ r.other ∧ hostOk s (r.base.toNat + 64 * r.ptr) 64 = false := by
  refine ⟨knockedBad, 0, 0, ringOf knockedBad 0 0, ?_, ?_, ?_, ?_, ?_, ?_⟩ <;> first | decide +kernel | rfl

/-- A state and operands that meet the hypotheses of clause 3 of RingVisitFetches. -/
theorem wit_RingVisitFetches_3 :
    ∃ (s : State) (fn n : Nat), nextVisit s ≠ some (fn * 16 + n) := by
  refine ⟨ready, 0, 0, ?_⟩ <;> first | decide +kernel | rfl

/-- A state and operands that meet the hypotheses of clause 1 of FunctionRows. -/
theorem wit_FunctionRows_1 :
    ∃ (s : State) (fn n t0 : Nat), (func s fn).coalTime ≠ 0 ∧ (ringOf s fn n).oldest = some t0 ∧ t0 + (func s fn).coalTime.toNat * 1000 * 65536 ≤ s.time := by
  refine ⟨{ setRing (setFunc ready 0 { readyFunc with coalTime := 5 }) 0 1 { ring256 0x20000 with oldest := some 0, pendIrq := 1 } with time := 327680000 }, 0, 1, 0, ?_, ?_, ?_⟩ <;> first | decide +kernel | rfl | exact .inl (by decide +kernel) | exact .inr (by decide +kernel) | (intro h; exact absurd h (by decide +kernel))

/-- A state and operands that meet the hypotheses of clause 2 of FunctionRows. -/
theorem wit_FunctionRows_2 :
    ∃ (s : State) (fn n : Nat), ((func s fn).coalTime = 0 ∨ (ringOf s fn n).oldest = none ∨ ∃ t0, (ringOf s fn n).oldest = some t0 ∧ s.time < t0 + (func s fn).coalTime.toNat * 1000 * 65536) := by
  refine ⟨ready, 0, 1, ?_⟩ <;> first | decide +kernel | rfl | exact .inl (by decide +kernel) | exact .inr (by decide +kernel) | (intro h; exact absurd h (by decide +kernel))

/-- A state and operands that meet the hypotheses of clause 3 of FunctionRows. -/
theorem wit_FunctionRows_3 :
    ∃ (s : State) (fn : Nat), fn ≤ s.ink.numVFs ∧ s.ink.claims.filter (fun h => h.owner == fn) = [] := by
  refine ⟨ready, 0, ?_, ?_⟩ <;> first | decide +kernel | rfl

/-- A state and operands that meet the hypotheses of clause 4 of FunctionRows. -/
theorem wit_FunctionRows_4 :
    ∃ (s : State) (k : Nat), k ≤ 4 := by
  refine ⟨ready, 4, ?_⟩ <;> first | decide +kernel | rfl

/-- A state and operands that meet the hypotheses of clause 5 of FunctionRows. -/
theorem wit_FunctionRows_5 :
    ∃ (s : State) (p : Nat), s.ink.numVFs = p ∧ p < 4 ∧ s.ink.fetched = [] := by
  refine ⟨ready, 0, ?_, ?_, ?_⟩ <;> first | decide +kernel | rfl

/-- Trace buffer instance 4 claimed for tracing by the PF. -/
def traced : State := { ready with ink := { ready.ink with claims := [{ res := mkRes 2 4, mode := 1, owner := 0 }] } }

/-- A command of tag 9 waits on the admin ring behind FENCE, or is under way on partition 0's ring. -/
def queued : State := { ready with ink := { ready.ink with fetched := [{ opcode := 0x0108, cmd := { par [] with tag := 9 } }] } }
def underWay : State := { ready with ink := { ready.ink with running := [{ opcode := 0x030A, cmd := { adm [] with tag := 9 }, wait := .memTest }] } }

/-- A state and operands that meet the hypotheses of clause 1 of AdminCommandRows. -/
theorem wit_AdminCommandRows_1 :
    ∃ c s a, Begun { op := 0x0101, need := 8 } c s a ∧ hostOk a (p64 c 0) 256 = true := by
  refine ⟨adm (leBytes 8 0x7000), ready, _, begun_of (by decide +kernel) (by decide +kernel) (by decide +kernel) (by decide +kernel) (by decide +kernel), ?_⟩ <;> first | decide +kernel | rfl

/-- A state and operands that meet the hypotheses of clause 2 of AdminCommandRows. -/
theorem wit_AdminCommandRows_2 :
    ∃ c s a, Begun { op := 0x0102, need := 8 } c s a ∧ hostOk a (p64 c 0) 384 = true := by
  refine ⟨adm (leBytes 8 0x7000), ready, _, begun_of (by decide +kernel) (by decide +kernel) (by decide +kernel) (by decide +kernel) (by decide +kernel), ?_⟩ <;> first | decide +kernel | rfl

/-- A state and operands that meet the hypotheses of clause 3 of AdminCommandRows. -/
theorem wit_AdminCommandRows_3 :
    ∃ c s a, Begun { op := 0x0107, need := 33 } c s a ∧ 1 ≤ p8 c 32 ∧ p8 c 32 ≤ 12 := by
  refine ⟨adm (leBytes 32 5 ++ [12]), ready, _, begun_of (by decide +kernel) (by decide +kernel) (by decide +kernel) (by decide +kernel) (by decide +kernel), ?_, ?_⟩ <;> first | decide +kernel | rfl

/-- A state and operands that meet the hypotheses of clause 4 of AdminCommandRows. -/
theorem wit_AdminCommandRows_4 :
    ∃ c s a, Begun { op := 0x0108 } c s a := by
  exact ⟨adm [1, 2, 3], ready, _, begun_of (by decide +kernel) (by decide +kernel) (by decide +kernel) (by decide +kernel) (by decide +kernel)⟩

/-- A state and operands that meet the hypotheses of clause 5 of AdminCommandRows. -/
theorem wit_AdminCommandRows_5 :
    ∃ c s a, Begun { op := 0x0101, need := 8 } c s a ∧ hostOk a (p64 c 0) 256 = false := by
  refine ⟨adm (leBytes 8 0x7000), { ready with hostFaults := [(0x70FF, 1)] }, _, begun_of (by decide +kernel) (by decide +kernel) (by decide +kernel) (by decide +kernel) (by decide +kernel), ?_⟩ <;> first | decide +kernel | rfl

/-- A state and operands that meet the hypotheses of clause 6 of AdminCommandRows. -/
theorem wit_AdminCommandRows_6 :
    ∃ c s a, Begun { op := 0x0106, need := 4 } c s a ∧ ringExists a c.fn (p8 c 0) = true ∧ a.ink.fetched.any (fun e => e.cmd.fn == c.fn && e.cmd.ring == p8 c 0 && e.cmd.tag.toNat == p16 c 2) = true ∧ entryHeld (abortFetched a (fun x => x.fn == c.fn && x.ring == p8 c 0 && x.tag.toNat == p16 c 2)) (p8 c 0) (BitVec.ofNat 16 (p16 c 2)) = false := by
  refine ⟨adm [4, 0, 9, 0], queued, _, begun_of (by decide +kernel) (by decide +kernel) (by decide +kernel) (by decide +kernel) (by decide +kernel), ?_, ?_, ?_⟩ <;> first | decide +kernel | rfl | exact .inl (by decide +kernel) | exact .inr (by decide +kernel) | (intro h; exact absurd h (by decide +kernel))

/-- A state and operands that meet the hypotheses of clause 7 of AdminCommandRows. -/
theorem wit_AdminCommandRows_7 :
    ∃ c s a, Begun { op := 0x0106, need := 4 } c s a ∧ ringExists a c.fn (p8 c 0) = true ∧ a.ink.fetched.any (fun e => e.cmd.fn == c.fn && e.cmd.ring == p8 c 0 && e.cmd.tag.toNat == p16 c 2) = true ∧ entryHeld (abortFetched a (fun x => x.fn == c.fn && x.ring == p8 c 0 && x.tag.toNat == p16 c 2)) (p8 c 0) (BitVec.ofNat 16 (p16 c 2)) = true := by
  refine ⟨adm [4, 0, 9, 0], { queued with ink.funcs := [(0, { readyFunc with rings := mput readyFunc.rings 5 { ring256 0x50000 with en := false } })] }, _, begun_of (by decide +kernel) (by decide +kernel) (by decide +kernel) (by decide +kernel) (by decide +kernel), ?_, ?_, ?_⟩ <;> first | decide +kernel | rfl | exact .inl (by decide +kernel) | exact .inr (by decide +kernel) | (intro h; exact absurd h (by decide +kernel))

/-- A state and operands that meet the hypotheses of clause 8 of AdminCommandRows. -/
theorem wit_AdminCommandRows_8 :
    ∃ c s a, Begun { op := 0x0106, need := 4 } c s a ∧ ringExists a c.fn (p8 c 0) = true ∧ a.ink.fetched.any (fun e => e.cmd.fn == c.fn && e.cmd.ring == p8 c 0 && e.cmd.tag.toNat == p16 c 2) = false ∧ (c.ring = p8 c 0 ∧ c.tag.toNat = p16 c 2 ∨ a.ink.running.any (fun e => e.cmd.fn == c.fn && e.cmd.ring == p8 c 0 && e.cmd.tag.toNat == p16 c 2) = true) := by
  refine ⟨adm [0, 0, 7, 0], ready, _, begun_of (by decide +kernel) (by decide +kernel) (by decide +kernel) (by decide +kernel) (by decide +kernel), ?_, ?_, ?_⟩ <;> first | decide +kernel | rfl | exact .inl (by decide +kernel) | exact .inr (by decide +kernel) | (intro h; exact absurd h (by decide +kernel))

/-- A state and operands that meet the hypotheses of clause 9 of AdminCommandRows. -/
theorem wit_AdminCommandRows_9 :
    ∃ c s a, Begun { op := 0x0106, need := 4 } c s a ∧ ringExists a c.fn (p8 c 0) = true ∧ a.ink.fetched.any (fun e => e.cmd.fn == c.fn && e.cmd.ring == p8 c 0 && e.cmd.tag.toNat == p16 c 2) = false ∧ a.ink.running.any (fun e => e.cmd.fn == c.fn && e.cmd.ring == p8 c 0 && e.cmd.tag.toNat == p16 c 2) = false ∧ (c.ring = p8 c 0 → c.tag.toNat ≠ p16 c 2) := by
  refine ⟨adm [0, 0, 9, 0], ready, _, begun_of (by decide +kernel) (by decide +kernel) (by decide +kernel) (by decide +kernel) (by decide +kernel), ?_, ?_, ?_, ?_⟩ <;> first | decide +kernel | rfl | exact .inl (by decide +kernel) | exact .inr (by decide +kernel) | (intro h; exact absurd h (by decide +kernel))

/-- A state and operands that meet the hypotheses of clause 1 of ClaimsGrantedAndReleased. -/
theorem wit_ClaimsGrantedAndReleased_1 :
    ∃ c s a, Begun { op := 0x0103, need := 5 } c s a ∧ resValid (p32 c 0) = true ∧ (claimModes (resType (p32 c 0))).contains (p8 c 4) = true ∧ claimImplicit (resType (p32 c 0)) (p8 c 4) = false ∧ (c.fn = 0 → vfServes a (p32 c 0) = false) ∧ conflict? a (p32 c 0) (p8 c 4) c.fn = none ∧ holds a (p32 c 0) (p8 c 4) c.fn = false ∧ p32 c 0 ≠ pinPair := by
  refine ⟨adm (leBytes 4 (mkRes 2 4) ++ [1]), ready, _, begun_of (by decide +kernel) (by decide +kernel) (by decide +kernel) (by decide +kernel) (by decide +kernel), ?_, ?_, ?_, ?_, ?_, ?_, ?_⟩ <;> first | decide +kernel | rfl

/-- A state and operands that meet the hypotheses of clause 2 of ClaimsGrantedAndReleased. -/
theorem wit_ClaimsGrantedAndReleased_2 :
    ∃ c s a, Begun { op := 0x0103, need := 5 } c s a ∧ p32 c 0 = pinPair ∧ p8 c 4 = 1 ∧ (c.fn = 0 → vfServes a (p32 c 0) = false) ∧ conflict? a (p32 c 0) (p8 c 4) c.fn = none ∧ holds a (p32 c 0) (p8 c 4) c.fn = false := by
  refine ⟨adm (leBytes 4 pinPair ++ [1]), ready, _, begun_of (by decide +kernel) (by decide +kernel) (by decide +kernel) (by decide +kernel) (by decide +kernel), ?_, ?_, ?_, ?_, ?_⟩ <;> first | decide +kernel | rfl

/-- A state and operands that meet the hypotheses of clause 3 of ClaimsGrantedAndReleased. -/
theorem wit_ClaimsGrantedAndReleased_3 :
    ∃ c s a, Begun { op := 0x0103, need := 5 } c s a ∧ resValid (p32 c 0) = true ∧ (claimModes (resType (p32 c 0))).contains (p8 c 4) = true ∧ claimImplicit (resType (p32 c 0)) (p8 c 4) = false ∧ (c.fn = 0 → vfServes a (p32 c 0) = false) ∧ conflict? a (p32 c 0) (p8 c 4) c.fn = none ∧ holds a (p32 c 0) (p8 c 4) c.fn = true := by
  refine ⟨adm (leBytes 4 (mkRes 2 4) ++ [1]), traced, _, begun_of (by decide +kernel) (by decide +kernel) (by decide +kernel) (by decide +kernel) (by decide +kernel), ?_, ?_, ?_, ?_, ?_, ?_⟩ <;> first | decide +kernel | rfl

/-- A state and operands that meet the hypotheses of clause 4 of ClaimsGrantedAndReleased. -/
theorem wit_ClaimsGrantedAndReleased_4 :
    ∃ c s a h, Begun { op := 0x0103, need := 5 } c s a ∧ resValid (p32 c 0) = true ∧ (claimModes (resType (p32 c 0))).contains (p8 c 4) = true ∧ claimImplicit (resType (p32 c 0)) (p8 c 4) = false ∧ (c.fn = 0 → vfServes a (p32 c 0) = false) ∧ conflict? a (p32 c 0) (p8 c 4) c.fn = some h := by
  refine ⟨adm (leBytes 4 (mkRes 2 4) ++ [2]), traced, _, { res := mkRes 2 4, mode := 1, owner := 0 }, begun_of (by decide +kernel) (by decide +kernel) (by decide +kernel) (by decide +kernel) (by decide +kernel), ?_, ?_, ?_, ?_, ?_⟩ <;> first | decide +kernel | rfl

/-- A state and operands that meet the hypotheses of clause 5 of ClaimsGrantedAndReleased. -/
theorem wit_ClaimsGrantedAndReleased_5 :
    ∃ c s a, Begun { op := 0x0105, need := 4 } c s a ∧ resValid (p32 c 0) = true ∧ holdings a (p32 c 0) = [] := by
  refine ⟨adm (leBytes 4 (mkRes 2 4)), ready, _, begun_of (by decide +kernel) (by decide +kernel) (by decide +kernel) (by decide +kernel) (by decide +kernel), ?_, ?_⟩ <;> first | decide +kernel | rfl

/-- A state and operands that meet the hypotheses of clause 6 of ClaimsGrantedAndReleased. -/
theorem wit_ClaimsGrantedAndReleased_6 :
    ∃ c s a h l, Begun { op := 0x0105, need := 4 } c s a ∧ resValid (p32 c 0) = true ∧ holdings a (p32 c 0) = h :: l := by
  refine ⟨adm (leBytes 4 (mkRes 2 4)), traced, _, { res := mkRes 2 4, mode := 1, owner := 0 }, [], begun_of (by decide +kernel) (by decide +kernel) (by decide +kernel) (by decide +kernel) (by decide +kernel), ?_, ?_⟩ <;> first | decide +kernel | rfl

/-- A state and operands that meet the hypotheses of clause 7 of ClaimsGrantedAndReleased. -/
theorem wit_ClaimsGrantedAndReleased_7 :
    ∃ c s a, Begun { op := 0x0104, need := 4 } c s a ∧ resValid (p32 c 0) = true ∧ holdings a (p32 c 0) = [] := by
  refine ⟨adm (leBytes 4 (mkRes 2 4)), ready, _, begun_of (by decide +kernel) (by decide +kernel) (by decide +kernel) (by decide +kernel) (by decide +kernel), ?_, ?_⟩ <;> first | decide +kernel | rfl

/-- A state and operands that meet the hypotheses of clause 8 of ClaimsGrantedAndReleased. -/
theorem wit_ClaimsGrantedAndReleased_8 :
    ∃ c s a h, Begun { op := 0x0104, need := 4 } c s a ∧ p32 c 0 = pinPair ∧ h = { res := pinPair, mode := 2, owner := c.fn } ∧ a.ink.claims.filter (fun x => x.res == pinPair && x.owner == c.fn) = [h] := by
  refine ⟨adm (leBytes 4 pinPair), paired 2, _, { res := pinPair, mode := 2, owner := 0 }, begun_of (by decide +kernel) (by decide +kernel) (by decide +kernel) (by decide +kernel) (by decide +kernel), ?_, ?_, ?_⟩ <;> first | decide +kernel | rfl

/-- A state and operands that meet the hypotheses of clause 9 of ClaimsGrantedAndReleased. -/
theorem wit_ClaimsGrantedAndReleased_9 :
    ∃ c s a, Begun { op := 0x0104, need := 4 } c s a ∧ resValid (p32 c 0) = true ∧ holdings a (p32 c 0) ≠ [] ∧ (∀ h ∈ holdings a (p32 c 0), h.owner ≠ c.fn) := by
  refine ⟨adm (leBytes 4 pinPair), { paired 2 with ink := { ready.ink with claims := [{ res := pinPair, mode := 2, owner := 1 }] } }, _, begun_of (by decide +kernel) (by decide +kernel) (by decide +kernel) (by decide +kernel) (by decide +kernel), ?_, ?_, ?_⟩ <;> first | decide +kernel | rfl

/-- A CXL window licence of 1,024 regions. -/
def licensed : State :=
  { memReady with pwr := { memReady.pwr with licences := [{ serial := 1, unique := Config.uniqueId, entries := [(2, 1024)], raw := [], sigOk := true }] } }

/-- Capacity region 0 is the window, with the device's implicit claim. -/
def windowed : State :=
  setEntry { memReady with mem.window := some (0, 1), ink.claims := [{ res := regionRes .cap 0, mode := 3, owner := 0xFE }] } .cap 0 0xF12

/-- A state and operands that meet the hypotheses of clause 1 of MapCommandsComplete. -/
theorem wit_MapCommandsComplete_1 :
    ∃ c s a, Begun { op := 0x0301, need := 8 } c s a ∧ hostOk a (p64 c 0) 128 = true := by
  refine ⟨adm (leBytes 8 0x7000), memReady, _, begun_of (by decide +kernel) (by decide +kernel) (by decide +kernel) (by decide +kernel) (by decide +kernel), ?_⟩ <;> first | decide +kernel | rfl

/-- A state and operands that meet the hypotheses of clause 2 of MapCommandsComplete. -/
theorem wit_MapCommandsComplete_2 :
    ∃ (c : Cmd) (s a plain : State) (t : Tier) (run : List Nat), Begun { op := 0x0302, need := 17, vf := false } c s a ∧ t = tierOf (p8 c 0) ∧ p8 c 0 ≤ 1 ∧ run = (List.range (p16 c 4)).map (p16 c 2 + ·) ∧ plain = regionTableSet a t (p16 c 2) (p16 c 4) (p64 c 8) (p8 c 16) ∧ regionSetInvalid a c = false ∧ run.any (regionClaimed a t) = false ∧ (movedUnits a plain t = true → (hashedRegions a t).any (regionClaimed a t) = false) ∧ overlaps plain t run = false ∧ poolShort plain t = false := by
  refine ⟨adm ([0, 0] ++ leBytes 2 3 ++ leBytes 2 2 ++ zeros 2 ++ leBytes 8 (0x101 + 5 * 65536) ++ [1]), memReady, _, regionTableSet (arrive 0x0302 (adm ([0, 0] ++ leBytes 2 3 ++ leBytes 2 2 ++ zeros 2 ++ leBytes 8 (0x101 + 5 * 65536) ++ [1])) memReady) .fast 3 2 (0x101 + 5 * 65536) 1, .fast, [3, 4], begun_of (by decide +kernel) (by decide +kernel) (by decide +kernel) (by decide +kernel) (by decide +kernel), ?_, ?_, ?_, ?_, ?_, ?_, ?_, ?_, ?_⟩ <;> first | decide +kernel | rfl

/-- A state and operands that meet the hypotheses of clause 3 of MapCommandsComplete. -/
theorem wit_MapCommandsComplete_3 :
    ∃ c s a, Begun { op := 0x0303, need := 4 } c s a ∧ p8 c 0 ≤ 1 ∧ p16 c 2 < regionCount (tierOf (p8 c 0)) := by
  refine ⟨par ([1, 0] ++ leBytes 2 4095), memReady, _, begun_of (by decide +kernel) (by decide +kernel) (by decide +kernel) (by decide +kernel) (by decide +kernel), ?_, ?_⟩ <;> first | decide +kernel | rfl

/-- A state and operands that meet the hypotheses of clause 4 of MapCommandsComplete. -/
theorem wit_MapCommandsComplete_4 :
    ∃ c s a p e, Begun { op := 0x0304, need := 8 } c s a ∧ p64 c 0 < 2 ^ 48 ∧ locate a (p64 c 0) = some (p, e) := by
  refine ⟨par (leBytes 8 0x3FFFFFFF), memReady, _, (placeIn memReady .fast 0xF02 0x3FFFFFFF), 0xF02, begun_of (by decide +kernel) (by decide +kernel) (by decide +kernel) (by decide +kernel) (by decide +kernel), ?_, ?_⟩ <;> first | decide +kernel | rfl

/-- A state and operands that meet the hypotheses of clause 5 of MapCommandsComplete. -/
theorem wit_MapCommandsComplete_5 :
    ∃ c s a, Begun { op := 0x0304, need := 8 } c s a ∧ p64 c 0 < 2 ^ 48 ∧ locate a (p64 c 0) = none := by
  refine ⟨par (leBytes 8 0x40000000), memReady, _, begun_of (by decide +kernel) (by decide +kernel) (by decide +kernel) (by decide +kernel) (by decide +kernel), ?_, ?_⟩ <;> first | decide +kernel | rfl

/-- A state and operands that meet the hypotheses of clause 6 of MapCommandsComplete. -/
theorem wit_MapCommandsComplete_6 :
    ∃ c s a, Begun { op := 0x0302, need := 17, vf := false } c s a ∧ p8 c 0 ≤ 1 ∧ p16 c 2 < regionCount (tierOf (p8 c 0)) ∧ 0 < p16 c 4 ∧ regionClaimed a (tierOf (p8 c 0)) (p16 c 2) = true := by
  refine ⟨adm ([0, 0] ++ leBytes 2 0 ++ leBytes 2 1 ++ zeros 11), { memReady with ink.claims := [{ res := regionRes .fast 0, mode := 2, owner := 0 }] }, _, begun_of (by decide +kernel) (by decide +kernel) (by decide +kernel) (by decide +kernel) (by decide +kernel), ?_, ?_, ?_, ?_⟩ <;> first | decide +kernel | rfl

/-- A state and operands that meet the hypotheses of clause 1 of MoveCommandsComplete. -/
theorem wit_MoveCommandsComplete_1 :
    ∃ (c : Cmd) (s a t : State) (st : Nat), Begun { op := 0x0305, need := 26 } c s a ∧ 0 < p64 c 16 ∧ p8 c 24 = 1 ∧ p8 c 25 ≤ 3 ∧ p64 c 0 % 64 = 0 ∧ p64 c 8 % 64 = 0 ∧ p64 c 16 % 64 = 0 ∧ p64 c 8 < 2 ^ 48 ∧ copyHeld a (cmdRq c) false true (p64 c 0) (p64 c 8) (p64 c 16) (p8 c 25) = false ∧ copyIn a (cmdRq c) (p64 c 0) (p64 c 8) (p64 c 16) (p8 c 25) = (st, t) := by
  refine ⟨par (leBytes 8 0x1000 ++ leBytes 8 0x80 ++ leBytes 8 64 ++ [1, 1]), memReady, _, _, _, begun_of (by decide +kernel) (by decide +kernel) (by decide +kernel) (by decide +kernel) (by decide +kernel), ?_, ?_, ?_, ?_, ?_, ?_, ?_, ?_, eta_pair _⟩ <;> first | decide +kernel | rfl | exact .inl (by decide +kernel) | exact .inr (by decide +kernel) | (intro h; exact absurd h (by decide +kernel))

/-- A state and operands that meet the hypotheses of clause 2 of MoveCommandsComplete. -/
theorem wit_MoveCommandsComplete_2 :
    ∃ (c : Cmd) (s a t : State) (st : Nat), Begun { op := 0x0305, need := 26 } c s a ∧ 0 < p64 c 16 ∧ p8 c 24 = 2 ∧ p8 c 25 ≤ 3 ∧ p64 c 0 % 64 = 0 ∧ p64 c 8 % 64 = 0 ∧ p64 c 16 % 64 = 0 ∧ p64 c 0 < 2 ^ 48 ∧ copyHeld a (cmdRq c) true false (p64 c 0) (p64 c 8) (p64 c 16) (p8 c 25) = false ∧ copyOut a (cmdRq c) (p64 c 0) (p64 c 8) (p64 c 16) (p8 c 25) = (st, t) := by
  refine ⟨par (leBytes 8 0x80 ++ leBytes 8 0x1000 ++ leBytes 8 64 ++ [2, 0]), memReady, _, _, _, begun_of (by decide +kernel) (by decide +kernel) (by decide +kernel) (by decide +kernel) (by decide +kernel), ?_, ?_, ?_, ?_, ?_, ?_, ?_, ?_, eta_pair _⟩ <;> first | decide +kernel | rfl | exact .inl (by decide +kernel) | exact .inr (by decide +kernel) | (intro h; exact absurd h (by decide +kernel))

/-- A state and operands that meet the hypotheses of clause 3 of MoveCommandsComplete. -/
theorem wit_MoveCommandsComplete_3 :
    ∃ (c : Cmd) (s a t : State) (st : Nat), Begun { op := 0x0305, need := 26 } c s a ∧ 0 < p64 c 16 ∧ p8 c 24 = 0 ∧ p8 c 25 ≤ 3 ∧ p64 c 0 % 64 = 0 ∧ p64 c 8 % 64 = 0 ∧ p64 c 16 % 64 = 0 ∧ p64 c 0 < 2 ^ 48 ∧ p64 c 8 < 2 ^ 48 ∧ copyHeld a (cmdRq c) true true (p64 c 0) (p64 c 8) (p64 c 16) (p8 c 25) = false ∧ copyWithin a (cmdRq c) (p64 c 0) (p64 c 8) (p64 c 16) (p8 c 25) = (st, t) := by
  refine ⟨par (leBytes 8 0x80 ++ leBytes 8 0x1000 ++ leBytes 8 64 ++ [0, 3]), memReady, _, _, _, begun_of (by decide +kernel) (by decide +kernel) (by decide +kernel) (by decide +kernel) (by decide +kernel), ?_, ?_, ?_, ?_, ?_, ?_, ?_, ?_, ?_, eta_pair _⟩ <;> first | decide +kernel | rfl | exact .inl (by decide +kernel) | exact .inr (by decide +kernel) | (intro h; exact absurd h (by decide +kernel))

/-- A state and operands that meet the hypotheses of clause 4 of MoveCommandsComplete. -/
theorem wit_MoveCommandsComplete_4 :
    ∃ (c : Cmd) (s a t : State) (b : List Byte) (st : Nat), Begun { op := 0x0306, need := 24 } c s a ∧ 0 < p64 c 8 ∧ p64 c 0 % 64 = 0 ∧ p64 c 8 % 64 = 0 ∧ p64 c 0 < 2 ^ 48 ∧ b = (List.replicate (p64 c 8 / 8) (slice (body c) 16 8)).flatten ∧ accessWaits a (cmdRq c) true (p64 c 0) (p64 c 8) 2 = false ∧ writeBytes a (cmdRq c) (p64 c 0) b false 2 = (st, t) := by
  refine ⟨par (leBytes 8 0x100 ++ leBytes 8 128 ++ leBytes 8 0x1122334455667788), memReady, _, _, _, _, begun_of (by decide +kernel) (by decide +kernel) (by decide +kernel) (by decide +kernel) (by decide +kernel), ?_, ?_, ?_, ?_, rfl, ?_, eta_pair _⟩ <;> first | decide +kernel | rfl | exact .inl (by decide +kernel) | exact .inr (by decide +kernel) | (intro h; exact absurd h (by decide +kernel))

/-- A state and operands that meet the hypotheses of clause 8 of MoveCommandsComplete. -/
theorem wit_MoveCommandsComplete_8 :
    ∃ c s a, Begun { op := 0x0305, need := 26 } c s a ∧ 0 < p64 c 16 ∧ p8 c 24 < 3 ∧ p8 c 25 ≤ 3 ∧ p64 c 0 % 64 ≠ 0 := by
  refine ⟨par (leBytes 8 1 ++ leBytes 8 0x1000 ++ leBytes 8 64 ++ [0, 0]), memReady, _, begun_of (by decide +kernel) (by decide +kernel) (by decide +kernel) (by decide +kernel) (by decide +kernel), ?_, ?_, ?_, ?_⟩ <;> first | decide +kernel | rfl

/-- A state and operands that meet the hypotheses of clause 5 of MoveCommandsComplete. -/
theorem wit_MoveCommandsComplete_5 :
    ∃ (c : Cmd) (s a t : State) (st : Nat), Begun { op := 0x0307, need := 17 } c s a ∧ 0 < p64 c 8 ∧ 1 ≤ p8 c 16 ∧ p8 c 16 ≤ 3 ∧ p64 c 0 % 64 = 0 ∧ p64 c 8 % 64 = 0 ∧ p64 c 0 < 2 ^ 48 ∧ rangeFenced a (p64 c 0) (p64 c 8) = false ∧ cacheOp a (cmdPart c) (p64 c 0) (p64 c 8) (p8 c 16) = (st, t) := by
  refine ⟨par (leBytes 8 0x40 ++ leBytes 8 128 ++ [3]), memReady, _, _, _, begun_of (by decide +kernel) (by decide +kernel) (by decide +kernel) (by decide +kernel) (by decide +kernel), ?_, ?_, ?_, ?_, ?_, ?_, ?_, eta_pair _⟩ <;> first | decide +kernel | rfl | exact .inl (by decide +kernel) | exact .inr (by decide +kernel) | (intro h; exact absurd h (by decide +kernel))

/-- A state and operands that meet the hypotheses of clause 6 of MoveCommandsComplete. -/
theorem wit_MoveCommandsComplete_6 :
    ∃ (s : State) (p : Option Nat) (dpa len code : Nat), firstBad ((regionSteps dpa len).map (cacheStatusAt s p)) = St.ok ∧ (flushRange s dpa (dpa + len) (code % 2 == 1) (decide (2 ≤ code))).2 = false := by
  refine ⟨memReady, none, 0x40, 128, 3, ?_, ?_⟩ <;> first | decide +kernel | rfl | exact .inl (by decide +kernel) | exact .inr (by decide +kernel) | (intro h; exact absurd h (by decide +kernel))

/-- A state and operands that meet the hypotheses of clause 7 of MoveCommandsComplete. -/
theorem wit_MoveCommandsComplete_7 :
    ∃ (s : State) (r : Requester) (dpa cls : Nat) (b : List Byte) (poison : Bool), rangeStatus s r true dpa b.length = St.ok ∧ foldedRefusal s dpa b.length = false ∧ dpa % 64 + b.length ≤ 64 ∧ 0 < b.length := by
  refine ⟨memReady, .admin, 0x41, 0, [7, 8], true, ?_, ?_, ?_, ?_⟩ <;> first | decide +kernel | rfl | exact .inl (by decide +kernel) | exact .inr (by decide +kernel) | (intro h; exact absurd h (by decide +kernel))

/-- A state and operands that meet the hypotheses of clause 9 of MoveCommandsComplete. -/
theorem wit_MoveCommandsComplete_9 :
    ∃ c s a, Begun { op := 0x0307, need := 17 } c s a ∧ 0 < p64 c 8 ∧ 1 ≤ p8 c 16 ∧ p8 c 16 ≤ 3 ∧ p64 c 0 % 64 = 0 ∧ p64 c 8 % 64 = 0 ∧ p64 c 0 < 2 ^ 48 ∧ rangeFenced a (p64 c 0) (p64 c 8) = true := by
  refine ⟨par (leBytes 8 0x10000000040 ++ leBytes 8 128 ++ [3]), windowed, _, begun_of (by decide +kernel) (by decide +kernel) (by decide +kernel) (by decide +kernel) (by decide +kernel), ?_, ?_, ?_, ?_, ?_, ?_, ?_⟩ <;> first | decide +kernel | rfl | exact .inl (by decide +kernel) | exact .inr (by decide +kernel) | (intro h; exact absurd h (by decide +kernel))

/-- A state and operands that meet the hypotheses of clause 1 of WindowRows. -/
theorem wit_WindowRows_1 :
    ∃ (c : Cmd) (s a b : State) (limit : Nat), Begun { op := 0x0308, need := 4, vf := false } c s a ∧ licenceLimit a 2 = some limit ∧ 0 < p16 c 2 ∧ p16 c 2 ≤ 1024 ∧ p16 c 2 ≤ limit ∧ p16 c 0 + p16 c 2 ≤ 4096 ∧ ((List.range (p16 c 2)).map (p16 c 0 + ·)).all (fun r => eMode (regionEntry a .cap r) != 0) = true ∧ a.mem.window = none ∧ reservedPort a ((List.range (p16 c 2)).map (p16 c 0 + ·)) = none ∧ claimAll 3 (((List.range (p16 c 2)).map (p16 c 0 + ·)).map (regionRes .cap)) a = .inl b := by
  refine ⟨adm (leBytes 2 0 ++ leBytes 2 2), licensed, _, grant (grant (arrive 0x0308 (adm (leBytes 2 0 ++ leBytes 2 2)) licensed) (regionRes .cap 0) 3 0xFE) (regionRes .cap 1) 3 0xFE, 1024, begun_of (by decide +kernel) (by decide +kernel) (by decide +kernel) (by decide +kernel) (by decide +kernel), ?_, ?_, ?_, ?_, ?_, ?_, ?_, ?_, ?_⟩ <;> first | decide +kernel | rfl

/-- A state and operands that meet the hypotheses of clause 2 of WindowRows. -/
theorem wit_WindowRows_2 :
    ∃ c s a, Begun { op := 0x0308, need := 4, vf := false } c s a ∧ licenceLimit a 2 = none := by
  refine ⟨adm (leBytes 2 0 ++ leBytes 2 2), memReady, _, begun_of (by decide +kernel) (by decide +kernel) (by decide +kernel) (by decide +kernel) (by decide +kernel), ?_⟩ <;> first | decide +kernel | rfl

/-- A state and operands that meet the hypotheses of clause 3 of WindowRows. -/
theorem wit_WindowRows_3 :
    ∃ c s a, Begun { op := 0x0309, vf := false } c s a ∧ a.mem.committed = false := by
  refine ⟨adm [], windowed, _, begun_of (by decide +kernel) (by decide +kernel) (by decide +kernel) (by decide +kernel) (by decide +kernel), ?_⟩ <;> first | decide +kernel | rfl

/-- A state and operands that meet the hypotheses of clause 4 of WindowRows. -/
theorem wit_WindowRows_4 :
    ∃ c s a, Begun { op := 0x0309, vf := false } c s a ∧ a.mem.committed = true := by
  refine ⟨adm [], { windowed with mem.committed := true }, _, begun_of (by decide +kernel) (by decide +kernel) (by decide +kernel) (by decide +kernel) (by decide +kernel), ?_⟩ <;> first | decide +kernel | rfl

/-- A state and operands that meet the hypotheses of clause 8 of WindowRows. -/
theorem wit_WindowRows_8 :
    ∃ (s : State) (dpa : Nat), inWindow s dpa = true ∧ dpaTripped s (dpa / 64 * 64) = true := by
  refine ⟨{ windowed with mem.committed := true, svc.thermal := [(16, { tripped := true })] }, 0x10000000123, ?_, ?_⟩ <;> first | decide +kernel | rfl | exact .inl (by decide +kernel) | exact .inr (by decide +kernel) | (intro h; exact absurd h (by decide +kernel))

/-- A state and operands that meet the hypotheses of clause 9 of WindowRows. -/
theorem wit_WindowRows_9 :
    ∃ (s : State) (dpa : Nat), inWindow s dpa = false := by
  refine ⟨{ windowed with mem.committed := true }, 0x10080000000, ?_⟩ <;> first | decide +kernel | rfl

/-- A state and operands that meet the hypotheses of clause 10 of WindowRows. -/
theorem wit_WindowRows_10 :
    ∃ (s : State) (dpa : Nat) (b : List Byte), inWindow s dpa = true ∧ b.length = 64 ∧ dpa % 64 = 0 ∧ gateHolds s .window dpa 64 1 = false ∧ retrainingAt s true dpa 64 = none ∧ dpaTripped s dpa = false := by
  refine ⟨{ windowed with mem.committed := true }, 0x1003FFFFFC0, List.replicate 64 7, ?_, ?_, ?_, ?_, ?_, ?_⟩ <;> first | decide +kernel | rfl | exact .inl (by decide +kernel) | exact .inr (by decide +kernel) | (intro h; exact absurd h (by decide +kernel))

/-- A state and operands that meet the hypotheses of clause 7 of WindowRows. -/
theorem wit_WindowRows_7 :
    ∃ (s : State) (dpa a : Nat) (g : Got), inWindow s dpa = true ∧ a = dpa / 64 * 64 ∧ gateHolds s .window a 64 1 = false ∧ retrainingAt s false a 64 = none ∧ dpaTripped s a = false ∧ g = readGranule (charge s .window a 64 1) .window a 1 := by
  refine ⟨{ windowed with mem.committed := true }, 0x10000000123, _, _, ?_, rfl, ?_, ?_, ?_, rfl⟩ <;> first | decide +kernel | rfl | exact .inl (by decide +kernel) | exact .inr (by decide +kernel) | (intro h; exact absurd h (by decide +kernel))

/-- A state and operands that meet the hypotheses of clause 11 of WindowRows. -/
theorem wit_WindowRows_11 :
    ∃ (s : State) (dpa e : Nat) (b : List Byte) (p : Place), inWindow s dpa = true ∧ 0 < b.length ∧ dpa % 64 + b.length ≤ 64 ∧ locate s (dpa / 64 * 64) = some (p, e) ∧ tripped s p.tier (chanUnit p.tier p.chan) = true := by
  refine ⟨{ windowed with mem.committed := true, svc.thermal := [(16, { tripped := true })] }, 0x10000000105, _, [1, 2, 3], _, ?_, ?_, ?_, rfl, ?_⟩ <;> first | decide +kernel | rfl | exact .inl (by decide +kernel) | exact .inr (by decide +kernel) | (intro h; exact absurd h (by decide +kernel))

/-- A state and operands that meet the hypotheses of clause 12 of WindowRows. -/
theorem wit_WindowRows_12 :
    ∃ (s : State) (dpa : Nat) (b : List Byte), inWindow s dpa = false := by
  refine ⟨memReady, 0, [1], ?_⟩ <;> first | decide +kernel | rfl | exact .inl (by decide +kernel) | exact .inr (by decide +kernel) | (intro h; exact absurd h (by decide +kernel))

/-- A state and operands that meet the hypotheses of clause 1 of ControlAndTestRows. -/
theorem wit_ControlAndTestRows_1 :
    ∃ (s : State) (p : Nat) (b : List Byte), p < 4 ∧ b.length = 64 ∧ (ctlOf s p).busy = true := by
  refine ⟨{ memReady with mem.ctl := [(3, { busy := true })] }, 3, zeros 64, ?_, ?_, ?_⟩ <;> first | decide +kernel | rfl

/-- A state and operands that meet the hypotheses of clause 2 of ControlAndTestRows. -/
theorem wit_ControlAndTestRows_2 :
    ∃ (s : State) (p : Nat) (b : List Byte), p < 4 ∧ b.length = 64 ∧ (ctlOf s p).busy = false ∧ fieldN b 8 8 = 0 := by
  refine ⟨memReady, 0, zeros 64, ?_, ?_, ?_, ?_⟩ <;> first | decide +kernel | rfl

/-- A state and operands that meet the hypotheses of clause 5 of ControlAndTestRows. -/
theorem wit_ControlAndTestRows_5 :
    ∃ (s : State) (p : Nat) (st : BitVec 16), (ctlOf s p).op = some st := by
  refine ⟨{ memReady with mem.ctl := [(0, { busy := true, op := some 0 })] }, 0, 0, ?_⟩ <;> first | decide +kernel | rfl

/-- A state and operands that meet the hypotheses of clause 6 of ControlAndTestRows. -/
theorem wit_ControlAndTestRows_6 :
    ∃ c s a, Begun { op := 0x030A, need := 16, vf := false } c s a ∧ p8 c 4 ≤ 1 ∧ (testUnits (p8 c 0) (p16 c 2)).any (fun u => !unitUp a u.1 u.2) = false ∧ a.svc.test = none ∧ (serving a && (testUnits (p8 c 0) (p16 c 2)).any (fun u => unitInUse a u.1 u.2)) = false := by
  refine ⟨adm ([1, 0, 0, 0, 1] ++ zeros 3 ++ leBytes 8 0x7000), { memReady with ink.state := stDiagnostic }, _, begun_of (by decide +kernel) (by decide +kernel) (by decide +kernel) (by decide +kernel) (by decide +kernel), ?_, ?_, ?_, ?_⟩ <;> first | decide +kernel | rfl

/-- A state and operands that meet the hypotheses of clause 8 of ControlAndTestRows. -/
theorem wit_ControlAndTestRows_8 :
    ∃ (s : State) (f : List TestFinding), s.svc.test = none := by
  refine ⟨ready, [], ?_⟩ <;> first | decide +kernel | rfl

/-- A state and operands that meet the hypotheses of clause 3 of ControlAndTestRows. -/
theorem wit_ControlAndTestRows_3 :
    ∃ (s u : State) (p st : Nat) (b : List Byte), p < 4 ∧ b.length = 64 ∧ (ctlOf s p).busy = false ∧ fieldN b 0 8 < 2 ^ 48 ∧ fieldN b 0 8 % 64 = 0 ∧ fieldN b 8 8 % 64 = 0 ∧ fieldN b 8 8 ≠ 0 ∧ 1 ≤ fieldN b 16 1 ∧ fieldN b 16 1 ≤ 3 ∧ cacheOp { s with mem.ctl := mput s.mem.ctl p { ctlOf s p with busy := true, overrun := false } } (some p) (fieldN b 0 8) (fieldN b 8 8) (fieldN b 16 1) = (st, u) := by
  refine ⟨memReady, _, 2, _, leBytes 8 0x40 ++ leBytes 8 64 ++ [3] ++ zeros 47, ?_, ?_, ?_, ?_, ?_, ?_, ?_, ?_, ?_, eta_pair _⟩ <;> first | decide +kernel | rfl | exact .inl (by decide +kernel) | exact .inr (by decide +kernel) | (intro h; exact absurd h (by decide +kernel))

/-- A state and operands that meet the hypotheses of clause 4 of ControlAndTestRows. -/
theorem wit_ControlAndTestRows_4 :
    ∃ (s : State) (p : Nat), (ctlOf s p).op = none := by
  refine ⟨memReady, 1, ?_⟩ <;> first | decide +kernel | rfl | exact .inl (by decide +kernel) | exact .inr (by decide +kernel) | (intro h; exact absurd h (by decide +kernel))

/-- A state and operands that meet the hypotheses of clause 7 of ControlAndTestRows. -/
theorem wit_ControlAndTestRows_7 :
    ∃ (s : State) (r : TestRun) (x : Running) (f seen : List TestFinding) (chans : List (Tier × Nat)), s.svc.test = some r ∧ s.ink.running = [x] ∧ x.wait = .memTest ∧ chans = ((testUnits r.sites r.ports).map (fun u => (unitOf s u.1 u.2).chans.map (fun c => (u.1, c)))).flatten ∧ seen = f.filter (fun g => chans.contains (g.tier, g.channel)) ∧ hostOk s r.buffer (16 * seen.length) = true := by
  refine ⟨{ memReady with svc.test := some { sites := 1, ports := 0, sampled := true, buffer := 0x7000 }, ink.running := [{ opcode := 0x030A, cmd := adm [], wait := .memTest }] }, { sites := 1, ports := 0, sampled := true, buffer := 0x7000 }, { opcode := 0x030A, cmd := adm [], wait := .memTest }, [{ tier := .fast, channel := 0, ce := 3, ue := 0, tested := 64 }], _, _, ?_, ?_, ?_, rfl, rfl, ?_⟩ <;> first | decide +kernel | rfl | exact .inl (by decide +kernel) | exact .inr (by decide +kernel) | (intro h; exact absurd h (by decide +kernel))

/-- Partition 0's fast regulator at rate 100 with an empty bucket. -/
def dry : State := { memReady with svc := { memReady.svc with regs := [(0, { level := -1, rates := List.replicate 16 100 })] } }

def waitingRead : Waiting := { req := .part 0, dpa := 0x40, len := 64, data := none, cls := 1, since := 0 }

/-- Stack 0 tripped, cool again. -/
def trippedState (temp : Int) : State :=
  { memReady with svc := { memReady.svc with thermal := [(0, { temp := temp, tripped := true, share := 77 })], alert := true } }

def retrained (fails : Nat) : State := setChan memReady .fast 0 { retraining := true, fails := fails }

def curveBytes : List Byte := [0, 2, 105, 0] ++ [0, 0] ++ leBytes 2 9000 ++ [80, 0] ++ leBytes 2 40

def curveCmd (t : Byte) : Cmd := { adm [] with flags := 1, len := 12, ext := curveBytes.set 0 t, extAddr := 64 }

def testRun : TrafficRun :=
  { pattern := 0, cls := 0, durUs := 1, first := 0, last := 256, seed := 0, wpat := 0, buffer := 0x7000, tripped := false }

/-- Port 0 drives traffic for a waiting command. -/
def driven : State :=
  { memReady with
    svc := { memReady.svc with traffic := [(0, testRun)] }
    ink := { memReady.ink with running := [{ opcode := 0x0313, cmd := adm [], wait := .traffic 0 }] } }

/-- A state and operands that meet the hypotheses of clause 1 of AccessRows. -/
theorem wit_AccessRows_1 :
    ∃ (s : State) (r : Requester) (dpa len : Nat), r ≠ .window ∧ gateHolds s r dpa len (defaultClass r) = false ∧ retrainingAt s false dpa len = none := by
  refine ⟨memReady, .part 0, 0x3FFFFFC0, 64, ?_, ?_, ?_⟩ <;> first | decide +kernel | rfl | exact .inl (by decide +kernel) | exact .inr (by decide +kernel) | (intro h; exact absurd h (by decide +kernel))

/-- A state and operands that meet the hypotheses of clause 2 of AccessRows. -/
theorem wit_AccessRows_2 :
    ∃ (s : State) (r : Requester) (dpa : Nat) (b : List Byte) (poison : Bool), r ≠ .window ∧ gateHolds s r dpa b.length (defaultClass r) = false ∧ retrainingAt s true dpa b.length = none := by
  refine ⟨memReady, .part 0, 0x3FFFFFC0, List.replicate 64 9, false, ?_, ?_, ?_⟩ <;> first | decide +kernel | rfl | exact .inl (by decide +kernel) | exact .inr (by decide +kernel) | (intro h; exact absurd h (by decide +kernel))

/-- A state and operands that meet the hypotheses of clause 3 of AccessRows. -/
theorem wit_AccessRows_3 :
    ∃ (s : State) (r : Requester) (dpa : Nat) (b : List Byte), r ≠ .window ∧ dpa % 64 + b.length ≤ 64 ∧ gateHolds s r dpa b.length (defaultClass r) = false ∧ retrainingAt s true dpa b.length = none := by
  refine ⟨memReady, .part 0, 0x21, List.replicate 31 9, ?_, ?_, ?_, ?_⟩ <;> first | decide +kernel | rfl | exact .inl (by decide +kernel) | exact .inr (by decide +kernel) | (intro h; exact absurd h (by decide +kernel))

/-- A state and operands that meet the hypotheses of clause 4 of AccessRows. -/
theorem wit_AccessRows_4 :
    ∃ (s : State) (r : Requester) (dpa len k : Nat), regFor r dpa = some k ∧ rangeStatus s r false dpa len = St.ok ∧ gateHolds s r dpa len (defaultClass r) = true := by
  refine ⟨dry, .part 0, 0x40, 64, 0, ?_, ?_, ?_⟩ <;> first | decide +kernel | rfl | exact .inl (by decide +kernel) | exact .inr (by decide +kernel) | (intro h; exact absurd h (by decide +kernel))

/-- A state and operands that meet the hypotheses of clause 5 of AccessRows. -/
theorem wit_AccessRows_5 :
    ∃ (s : State) (r : Requester) (dpa k : Nat) (b : List Byte) (poison : Bool), regFor r dpa = some k ∧ rangeStatus s r true dpa b.length = St.ok ∧ gateHolds s r dpa b.length (defaultClass r) = true := by
  refine ⟨dry, .part 0, 0x40, 0, [1, 2], true, ?_, ?_, ?_⟩ <;> first | decide +kernel | rfl | exact .inl (by decide +kernel) | exact .inr (by decide +kernel) | (intro h; exact absurd h (by decide +kernel))

/-- A state and operands that meet the hypotheses of clause 6 of AccessRows. -/
theorem wit_AccessRows_6 :
    ∃ (s : State) (r : Requester) (dpa len c : Nat) (t : Tier) (w : Waiting), rangeStatus s r false dpa len = St.ok ∧ gateHolds s r dpa len (defaultClass r) = false ∧ retrainingAt s false dpa len = some (t, c) ∧ w = { req := r, dpa := dpa, len := len, data := none, cls := defaultClass r, since := s.time } := by
  refine ⟨retrained 0, .part 0, 0x40, 64, 0, .fast, _, ?_, ?_, ?_, rfl⟩ <;> first | decide +kernel | rfl | exact .inl (by decide +kernel) | exact .inr (by decide +kernel) | (intro h; exact absurd h (by decide +kernel))

/-- A state and operands that meet the hypotheses of clause 7 of AccessRows. -/
theorem wit_AccessRows_7 :
    ∃ (s : State) (t : Tier) (c e : Nat) (w up : Waiting), (chanOf s t c).queue[e]? = some w ∧ 0 < w.cls ∧ w.classAt + agingLimit s w.cls < s.time ∧ up = { w with cls := w.cls - 1, classAt := s.time } ∧ queuePlace s t c up = true ∧ (chanOf s t c).source = [] := by
  refine ⟨setChan { memReady with time := 300000000 } .fast 0 { retraining := true, queue := [waitingRead] }, .fast, 0, 0, waitingRead, _, ?_, ?_, ?_, rfl, ?_, ?_⟩ <;> first | decide +kernel | rfl | exact .inl (by decide +kernel) | exact .inr (by decide +kernel) | (intro h; exact absurd h (by decide +kernel))

/-- A state and operands that meet the hypotheses of clause 8 of AccessRows. -/
theorem wit_AccessRows_8 :
    ∃ (s : State) (t : Tier) (c e : Nat) (w : Waiting), (chanOf s t c).queue[e]? = some w ∧ s.time ≤ w.classAt + agingLimit s w.cls := by
  refine ⟨setChan memReady .fast 0 { retraining := true, queue := [waitingRead] }, .fast, 0, 0, waitingRead, ?_, ?_⟩ <;> first | decide +kernel | rfl | exact .inl (by decide +kernel) | exact .inr (by decide +kernel) | (intro h; exact absurd h (by decide +kernel))

/-- A state and operands that meet the hypotheses of clause 2 of RegulatorRows. -/
theorem wit_RegulatorRows_2 :
    ∃ (g : Regulator) (k d : Nat) (l : List Nat), g.pend = some (d, l) ∧ l.getD k 0xFFFF ≠ 0xFFFF := by
  refine ⟨{ pend := some (4096, List.replicate 16 7) }, 15, 4096, List.replicate 16 7, ?_, ?_⟩ <;> first | decide +kernel | rfl

/-- A state and operands that meet the hypotheses of clause 3 of RegulatorRows. -/
theorem wit_RegulatorRows_3 :
    ∃ (s : State) (k : Nat), regOpen s k = false := by
  refine ⟨dry, 0, ?_⟩ <;> first | decide +kernel | rfl

/-- A state and operands that meet the hypotheses of clause 4 of RegulatorRows. -/
theorem wit_RegulatorRows_4 :
    ∃ (s : State) (k : Nat) (w : Waiting), regOpen s k = true ∧ (regOf s k).held = [w] := by
  refine ⟨{ memReady with svc := { memReady.svc with regs := [(0, { held := [waitingRead] })] } }, 0, waitingRead, ?_, ?_⟩ <;> first | decide +kernel | rfl | exact .inl (by decide +kernel) | exact .inr (by decide +kernel) | (intro h; exact absurd h (by decide +kernel))

/-- A state and operands that meet the hypotheses of clause 6 of RegulatorRows. -/
theorem wit_RegulatorRows_6 :
    ∃ c s a, Begun { op := 0x030B, need := 40, vf := false } c s a ∧ p8 c 1 ≤ 1 ∧ p8 c 0 ≤ 4 ∧ (p8 c 0 = 4 → p8 c 1 = 1) ∧ 4096 ≤ p32 c 4 ∧ p32 c 4 ≤ 16777216 := by
  refine ⟨adm ([4, 1, 0, 0] ++ leBytes 4 16777216 ++ zeros 32), memReady, _, begun_of (by decide +kernel) (by decide +kernel) (by decide +kernel) (by decide +kernel) (by decide +kernel), ?_, ?_, ?_, ?_, ?_⟩ <;> first | decide +kernel | rfl

/-- A state and operands that meet the hypotheses of clause 7 of RegulatorRows. -/
theorem wit_RegulatorRows_7 :
    ∃ c s a, Begun { op := 0x030C, need := 7, vf := false } c s a ∧ (∀ o ∈ [0, 2, 4], 1 ≤ p16 c o ∧ p16 c o ≤ 1023) ∧ 1 ≤ p8 c 6 ∧ p8 c 6 ≤ 10 := by
  refine ⟨adm (leBytes 2 1 ++ leBytes 2 1023 ++ leBytes 2 5 ++ [10]), memReady, _, begun_of (by decide +kernel) (by decide +kernel) (by decide +kernel) (by decide +kernel) (by decide +kernel), ?_, ?_, ?_⟩ <;> first | decide +kernel | rfl

/-- A state and operands that meet the hypotheses of clause 5 of RegulatorRows. -/
theorem wit_RegulatorRows_5 :
    ∃ (s : State) (k : Nat), (regOf s k).held = [] := by
  refine ⟨memReady, 0, ?_⟩ <;> first | decide +kernel | rfl | exact .inl (by decide +kernel) | exact .inr (by decide +kernel) | (intro h; exact absurd h (by decide +kernel))

/-- A state and operands that meet the hypotheses of clause 1 of ThermalRows. -/
theorem wit_ThermalRows_1 :
    ∃ (s : State) (t : Tier) (u : Nat) (temp : Int), unitUp s t u = true ∧ tripped s t u = false ∧ temp < (curveOf s t).trip := by
  refine ⟨memReady, .fast, 0, 90, ?_, ?_, ?_⟩ <;> first | decide +kernel | rfl

/-- A state and operands that meet the hypotheses of clause 2 of ThermalRows. -/
theorem wit_ThermalRows_2 :
    ∃ (s : State) (t : Tier) (u : Nat) (temp : Int), unitUp s t u = true ∧ tripped s t u = false ∧ (curveOf s t).trip ≤ temp ∧ s.duc.colls = [] ∧ (unitOf s t u).chans.all (fun c => (chanOf s t c).queue.isEmpty && (chanOf s t c).source.isEmpty) = true ∧ s.ari.ctxs = [] := by
  refine ⟨memReady, .fast, 0, 105, ?_, ?_, ?_, ?_, ?_, ?_⟩ <;> first | decide +kernel | rfl | exact .inl (by decide +kernel) | exact .inr (by decide +kernel) | (intro h; exact absurd h (by decide +kernel))

/-- A state and operands that meet the hypotheses of clause 3 of ThermalRows. -/
theorem wit_ThermalRows_3 :
    ∃ (s : State) (t : Tier) (u : Nat) (temp : Int), unitUp s t u = true ∧ tripped s t u = true := by
  refine ⟨trippedState 95, .fast, 0, 80, ?_, ?_⟩ <;> first | decide +kernel | rfl

/-- A state and operands that meet the hypotheses of clause 4 of ThermalRows. -/
theorem wit_ThermalRows_4 :
    ∃ c s a v, Begun { op := 0x030D, need := 4, ext := true, full := fun _ c => if p8 c 1 ≤ 8 then 4 + 4 * p8 c 1 else 0, vf := false } c s a ∧ 4 + 4 * p8 c 1 ≤ c.len ∧ parseCurve (body c) = some v ∧ withinLimit v = true ∧ p8 c 0 = 0 := by
  refine ⟨curveCmd 0, memReady, _, { points := [(0, 9000), (80, 40)], trip := 105 }, begun_of (by decide +kernel) (by decide +kernel) (by decide +kernel) (by decide +kernel) (by decide +kernel), ?_, ?_, ?_, ?_⟩ <;> first | decide +kernel | rfl

/-- A state and operands that meet the hypotheses of clause 5 of ThermalRows. -/
theorem wit_ThermalRows_5 :
    ∃ c s a v, Begun { op := 0x030D, need := 4, ext := true, full := fun _ c => if p8 c 1 ≤ 8 then 4 + 4 * p8 c 1 else 0, vf := false } c s a ∧ 4 + 4 * p8 c 1 ≤ c.len ∧ parseCurve (body c) = some v ∧ withinLimit v = true ∧ p8 c 0 = 1 := by
  refine ⟨curveCmd 1, memReady, _, { points := [(0, 9000), (80, 40)], trip := 105 }, begun_of (by decide +kernel) (by decide +kernel) (by decide +kernel) (by decide +kernel) (by decide +kernel), ?_, ?_, ?_, ?_⟩ <;> first | decide +kernel | rfl

/-- A state and operands that meet the hypotheses of clause 6 of ThermalRows. -/
theorem wit_ThermalRows_6 :
    ∃ (c : Cmd) (s a : State) (t : Tier) (u : Nat), Begun { op := 0x030E, need := 2, vf := false } c s a ∧ unitField c 0 = some (t, u) ∧ unitUp a t u = true ∧ tripped a t u = true ∧ (thermalOf a t u).temp ≤ (curveOf a t).trip - 10 := by
  refine ⟨adm [0, 0], trippedState 95, _, .fast, 0, begun_of (by decide +kernel) (by decide +kernel) (by decide +kernel) (by decide +kernel) (by decide +kernel), ?_, ?_, ?_, ?_⟩ <;> first | decide +kernel | rfl

/-- A state and operands that meet the hypotheses of clause 7 of ThermalRows. -/
theorem wit_ThermalRows_7 :
    ∃ (c : Cmd) (s a : State) (t : Tier) (u : Nat), Begun { op := 0x030E, need := 2, vf := false } c s a ∧ unitField c 0 = some (t, u) ∧ unitUp a t u = true ∧ tripped a t u = true ∧ (curveOf a t).trip - 10 < (thermalOf a t u).temp := by
  refine ⟨adm [0, 0], trippedState 96, _, .fast, 0, begun_of (by decide +kernel) (by decide +kernel) (by decide +kernel) (by decide +kernel) (by decide +kernel), ?_, ?_, ?_, ?_⟩ <;> first | decide +kernel | rfl

/-- A state and operands that meet the hypotheses of clause 9 of ThermalRows. -/
theorem wit_ThermalRows_9 :
    ∃ c s a, Begun { op := 0x030F, need := 8, vf := false } c s a ∧ hostOk a (p64 c 0) 96 = true := by
  refine ⟨adm (leBytes 8 0x7000), memReady, _, begun_of (by decide +kernel) (by decide +kernel) (by decide +kernel) (by decide +kernel) (by decide +kernel), ?_⟩ <;> first | decide +kernel | rfl

/-- A state and operands that meet the hypotheses of clause 8 of ThermalRows. -/
theorem wit_ThermalRows_8 :
    ∃ (c : Cmd) (s a : State) (t : Tier) (u : Nat), Begun { op := 0x030E, need := 2, vf := false } c s a ∧ unitField c 0 = some (t, u) ∧ unitUp a t u = true ∧ tripped a t u = false := by
  refine ⟨adm [0, 0], memReady, _, .fast, 0, begun_of (by decide +kernel) (by decide +kernel) (by decide +kernel) (by decide +kernel) (by decide +kernel), ?_, ?_, ?_⟩ <;> first | decide +kernel | rfl | exact .inl (by decide +kernel) | exact .inr (by decide +kernel) | (intro h; exact absurd h (by decide +kernel))

/-- A state and operands that meet the hypotheses of clause 4 of ScrubAndRetrainRows. -/
theorem wit_ScrubAndRetrainRows_4 :
    ∃ (s : State) (die : Nat) (t : Tier), s.ink.state = stCapped := by
  refine ⟨{ memReady with ink.state := stCapped }, 0, .fast, ?_⟩ <;> first | decide +kernel | rfl

/-- A state and operands that meet the hypotheses of clause 5 of ScrubAndRetrainRows. -/
theorem wit_ScrubAndRetrainRows_5 :
    ∃ c s a, Begun { op := 0x0312, need := 4, vf := false } c s a ∧ p8 c 0 ≤ 1 ∧ p16 c 2 ≤ 168 ∧ (p8 c 0 = 0 → p16 c 2 ≠ 0) := by
  refine ⟨adm [1, 0, 168, 0], memReady, _, begun_of (by decide +kernel) (by decide +kernel) (by decide +kernel) (by decide +kernel) (by decide +kernel), ?_, ?_, ?_⟩ <;> first | decide +kernel | rfl

/-- A state and operands that meet the hypotheses of clause 6 of ScrubAndRetrainRows. -/
theorem wit_ScrubAndRetrainRows_6 :
    ∃ (s : State) (t : Tier) (c n : Nat), 16 < n ∧ (tierMap s t).contains c = true ∧ (chanOf s t c).failed = false := by
  refine ⟨memReady, .fast, 0, 17, ?_, ?_, ?_⟩ <;> first | decide +kernel | rfl

/-- A state and operands that meet the hypotheses of clause 7 of ScrubAndRetrainRows. -/
theorem wit_ScrubAndRetrainRows_7 :
    ∃ (s : State) (t : Tier) (c n : Nat), n ≤ 16 := by
  refine ⟨memReady, .fast, 0, 16, ?_⟩ <;> first | decide +kernel | rfl

/-- A state and operands that meet the hypotheses of clause 8 of ScrubAndRetrainRows. -/
theorem wit_ScrubAndRetrainRows_8 :
    ∃ (s : State) (t : Tier) (c : Nat) (spare lost : Bool), (chanOf s t c).retraining = true ∧ (chanOf s t c).queue = [] ∧ (chanOf s t c).source = [] := by
  refine ⟨retrained 2, .fast, 0, true, false, ?_, ?_, ?_⟩ <;> first | decide +kernel | rfl | exact .inl (by decide +kernel) | exact .inr (by decide +kernel) | (intro h; exact absurd h (by decide +kernel))

/-- A state and operands that meet the hypotheses of clause 9 of ScrubAndRetrainRows. -/
theorem wit_ScrubAndRetrainRows_9 :
    ∃ (s : State) (t : Tier) (c : Nat), (chanOf s t c).retraining = true ∧ (chanOf s t c).fails + 1 < 3 := by
  refine ⟨retrained 1, .fast, 0, ?_, ?_⟩ <;> first | decide +kernel | rfl

/-- A state and operands that meet the hypotheses of clause 1 of ScrubAndRetrainRows. -/
theorem wit_ScrubAndRetrainRows_1 :
    ∃ (s u : State) (die ch g : Nat) (t : Tier), mget 0 s.svc.scrubHours (tierNum t) ≠ 0 ∧ s.ink.state ≠ stCapped ∧ scrubNext s die t = (some (ch, g), u) ∧ (chanOf s t ch).retraining = false := by
  refine ⟨memReady, (scrubNext memReady 0 .fast).2, 0, 0, 0, .fast, ?_, ?_, ?_, ?_⟩ <;> first | decide +kernel | rfl | exact .inl (by decide +kernel) | exact .inr (by decide +kernel) | (intro h; exact absurd h (by decide +kernel))

/-- A state and operands that meet the hypotheses of clause 2 of ScrubAndRetrainRows. -/
theorem wit_ScrubAndRetrainRows_2 :
    ∃ (s u : State) (die ch g : Nat) (t : Tier), scrubNext s die t = (some (ch, g), u) ∧ (chanOf s t ch).retraining = true := by
  refine ⟨retrained 0, (scrubNext (retrained 0) 0 .fast).2, 0, 0, 0, .fast, ?_, ?_⟩ <;> first | decide +kernel | rfl | exact .inl (by decide +kernel) | exact .inr (by decide +kernel) | (intro h; exact absurd h (by decide +kernel))

/-- A state and operands that meet the hypotheses of clause 3 of ScrubAndRetrainRows. -/
theorem wit_ScrubAndRetrainRows_3 :
    ∃ (s u : State) (die : Nat) (t : Tier), mget 0 s.svc.scrubHours (tierNum t) ≠ 0 ∧ s.ink.state ≠ stCapped ∧ scrubNext s die t = (none, u) := by
  refine ⟨ready, (scrubNext ready 0 .cap).2, 0, .cap, ?_, ?_, ?_⟩ <;> first | decide +kernel | rfl | exact .inl (by decide +kernel) | exact .inr (by decide +kernel) | (intro h; exact absurd h (by decide +kernel))

/-- A state and operands that meet the hypotheses of clause 10 of ScrubAndRetrainRows. -/
theorem wit_ScrubAndRetrainRows_10 :
    ∃ (s : State) (t : Tier) (c : Nat) (spare lost : Bool), (chanOf s t c).retraining = true ∧ (2 ≤ (chanOf s t c).fails ∨ lost = true) ∧ (chanOf s t c).queue = [] ∧ (chanOf s t c).source = [] := by
  refine ⟨retrained 2, .fast, 0, false, false, ?_, ?_, ?_, ?_⟩ <;> first | decide +kernel | rfl | exact .inl (by decide +kernel) | exact .inr (by decide +kernel) | (intro h; exact absurd h (by decide +kernel))

/-- A state and operands that meet the hypotheses of clause 11 of ScrubAndRetrainRows. -/
theorem wit_ScrubAndRetrainRows_11 :
    ∃ (s : State) (t : Tier) (c : Nat) (ok spare lost : Bool), (chanOf s t c).retraining = false := by
  refine ⟨memReady, .fast, 0, true, true, false, ?_⟩ <;> first | decide +kernel | rfl | exact .inl (by decide +kernel) | exact .inr (by decide +kernel) | (intro h; exact absurd h (by decide +kernel))

/-- A state and operands that meet the hypotheses of clause 1 of ServiceReportsComplete. -/
theorem wit_ServiceReportsComplete_1 :
    ∃ (c : Cmd) (s a : State) (l : Log), Begun { op := 0x0310, need := 11, vf := false } c s a ∧ p8 c 10 ≤ 1 ∧ l = mget {} a.svc.errs (p8 c 10) ∧ hostOk a (p64 c 0) ((lastN l.unread l.recs).take (min (p16 c 8) l.unread)).flatten.length = true := by
  refine ⟨adm (leBytes 8 0x7000 ++ [1, 0, 0]), { memReady with svc.errs := [(0, { recs := [zeros 32, zeros 32], unread := 2 })] }, _, { recs := [zeros 32, zeros 32], unread := 2 }, begun_of (by decide +kernel) (by decide +kernel) (by decide +kernel) (by decide +kernel) (by decide +kernel), ?_, ?_, ?_⟩ <;> first | decide +kernel | rfl

/-- A state and operands that meet the hypotheses of clause 2 of ServiceReportsComplete. -/
theorem wit_ServiceReportsComplete_2 :
    ∃ (c : Cmd) (s a : State) (t : Tier) (u : Nat) (b : List Byte), Begun { op := 0x0311, need := 16, vf := false } c s a ∧ unitField c 0 = some (t, u) ∧ unitUp a t u = true ∧ b = ((unitChannels a t u).map (fun ch => ((chanOf a t ch).ctr.map (leBytes 4)).flatten)).flatten ∧ hostOk a (p64 c 8) b.length = true := by
  refine ⟨adm ([1, 0] ++ zeros 6 ++ leBytes 8 0x7000), memReady, _, .cap, 0, zeros 192, begun_of (by decide +kernel) (by decide +kernel) (by decide +kernel) (by decide +kernel) (by decide +kernel), ?_, ?_, ?_, ?_⟩ <;> first | decide +kernel | rfl

/-- A state and operands that meet the hypotheses of clause 3 of ServiceReportsComplete. -/
theorem wit_ServiceReportsComplete_3 :
    ∃ c s a, Begun { op := 0x0313, need := 48, vf := false } c s a ∧ p8 c 0 ≤ 15 ∧ unitUp a .cap (p8 c 0) = true ∧ holds a (mkRes 3 (p8 c 0)) 1 c.fn = true ∧ p8 c 1 ≤ 5 ∧ p8 c 2 ≤ 3 ∧ 1 ≤ p32 c 4 ∧ p32 c 4 ≤ 60000000 ∧ p64 c 8 % 256 = 0 ∧ p64 c 16 % 256 = 0 ∧ p64 c 8 ≤ p64 c 16 ∧ p64 c 16 < 256 * (unitOf a .cap (p8 c 0)).gran ∧ ((p8 c 1 = 1 ∨ p8 c 1 = 2 ∨ p8 c 1 = 5) → unitInUse a .cap (p8 c 0) = false) ∧ mfind a.svc.traffic (p8 c 0) = none := by
  refine ⟨adm ([0, 5, 3, 0] ++ leBytes 4 60000000 ++ leBytes 8 0 ++ leBytes 8 0 ++ zeros 24), { memReady with ink.claims := [{ res := mkRes 3 0, mode := 1, owner := 0 }], mem.capRegions := {} }, _, begun_of (by decide +kernel) (by decide +kernel) (by decide +kernel) (by decide +kernel) (by decide +kernel), ?_, ?_, ?_, ?_, ?_, ?_, ?_, ?_, ?_, ?_, ?_, ?_, ?_⟩ <;> first | decide +kernel | rfl | exact .inl (by decide +kernel) | exact .inr (by decide +kernel) | (intro h; exact absurd h (by decide +kernel))

/-- A state and operands that meet the hypotheses of clause 5 of ServiceReportsComplete. -/
theorem wit_ServiceReportsComplete_5 :
    ∃ (s : State) (port : Nat) (m : TrafficResult), mfind s.svc.traffic port = none := by
  refine ⟨memReady, 0, { read := 512, written := 0, ns := 1000, meanNs := 1, maxNs := 2, withheld := 0 }, ?_⟩ <;> first | decide +kernel | rfl

/-- A state and operands that meet the hypotheses of clause 4 of ServiceReportsComplete. -/
theorem wit_ServiceReportsComplete_4 :
    ∃ (s u v : State) (port ce ue : Nat) (m : TrafficResult) (r : TrafficRun) (x : Running), mfind s.svc.traffic port = some r ∧ s.ink.running = [x] ∧ x.wait = .traffic port ∧ u = storeTraffic { s with svc.traffic := mdel s.svc.traffic port } port r m.written ∧ readTraffic u port r m.read = (ce, ue, v) ∧ hostOk v r.buffer 64 = true := by
  refine ⟨driven, _, (readTraffic (storeTraffic { driven with svc.traffic := mdel driven.svc.traffic 0 } 0 testRun 0) 0 testRun 512).2.2, 0, (readTraffic (storeTraffic { driven with svc.traffic := mdel driven.svc.traffic 0 } 0 testRun 0) 0 testRun 512).1, (readTraffic (storeTraffic { driven with svc.traffic := mdel driven.svc.traffic 0 } 0 testRun 0) 0 testRun 512).2.1, { read := 512, written := 0, ns := 1000, meanNs := 1, maxNs := 2, withheld := 0 }, testRun, { opcode := 0x0313, cmd := adm [], wait := .traffic 0 }, ?_, ?_, ?_, rfl, ?_, ?_⟩ <;> first | decide +kernel | rfl | exact .inl (by decide +kernel) | exact .inr (by decide +kernel) | (intro h; exact absurd h (by decide +kernel))

/-- Fast region 0 is held ATOMIC. -/
def atomReady : State := { memReady with ink := { memReady.ink with claims := [{ res := regionRes .fast 0, mode := 2, owner := 0 }] } }

def con0 : Contribution := { dpa := 0x40, op := 4, mask := BitVec.allOnes 32, operand := List.replicate 64 1, poison := false, order := none }

def ctx0 : OrderCtx := { dpa := 0, len := 64, op := 4, e := 2 }

/-- Context 0 open over granule 0, which has received its first contribution when `n` is 1. -/
def ordered (n : Nat) : State := { atomReady with ari := { atomReady.ari with ctxs := [(0, { ctx0 with got := [(0, n)] })] } }

def con1 (q : Nat) : Contribution := { con0 with dpa := 0, order := some (0, q) }

/-- Core 0 with one granule to store. -/
def storing (level : Int) : State :=
  setCore { memReady with svc := { memReady.svc with regs := [(0, { level := level, rates := List.replicate 16 100 })] } } 0
    { coreOf memReady 0 with stores := [{ dpa := 0x80, data := List.replicate 64 3, poison := false, cls := 1 }] }

def applyCmd : Cmd := par (leBytes 8 0 ++ leBytes 8 64 ++ leBytes 4 64 ++ [4, 0, 0, 0] ++ zeros 4 ++ [1])

def openCmd : Cmd := par (leBytes 8 0 ++ leBytes 4 128 ++ [4, 0] ++ leBytes 2 2)

/-- An order context over granule 0, and a channel whose reorder space is full. -/
def fullStore : State :=
  { atomReady with ari := { atomReady.ari with
      ctxs := [(0, { ctx0 with e := 20 })]
      reorder := List.replicate 128 { req := .part 0, con := { con0 with dpa := 0, order := some (0, 3) }, chan := granuleChan atomReady 0 } } }

/-- ARITH_APPLY of one granule in order context 0, sequence 3. -/
def applyCmd2 : Cmd := par (leBytes 8 0x80 ++ leBytes 8 0 ++ leBytes 4 64 ++ [4, 1, 0, 0] ++ leBytes 4 3 ++ [1])

/-- An RCM-6 module in port 0 whose first region is STACK_LOCAL. -/
def rbReady : State :=
  { memReady with mem := { memReady.mem with capRegions := { h := 0, ovr := [(0, BitVec.ofNat 64 (1 + 0xF00))] } } }

/-- One row of one granule from a table at the start of the capacity tier. -/
def desc0 (fmt : Byte) (idx : Nat) : List Byte :=
  leBytes 8 0x10000000000 ++ leBytes 4 2 ++ leBytes 2 1 ++ [fmt, 0] ++ leBytes 2 1 ++ [0, 0] ++ leBytes 4 77 ++ leBytes 8 0x100 ++ zeros 32 ++ leBytes 4 idx

def gatherCmd (b : List Byte) : Cmd := { par [] with flags := 1, len := 68, ext := b, extAddr := 64 }

def slotState (st idx : Nat) : State :=
  { rbReady with ari := { rbReady.ari with
      slots := [(0, { state := st, desc := desc0 3 idx, gather := 5 })]
      gathers := [{ id := 5, part := 0, queue := none, left := 2, done := 0, status := 0, failTag := 0, cls := 1, waiting := [] }] } }

/-- A state and operands that meet the hypotheses of clause 1 of ContributionRows. -/
theorem wit_ContributionRows_1 :
    ∃ (s : State) (r : Requester) (w : Contribution), (arithKnown w.op = false ∨ w.dpa % 64 ≠ 0) := by
  refine ⟨atomReady, .admin, { con0 with op := 13 }, ?_⟩ <;> first | decide +kernel | exact .inl (by decide)

/-- A state and operands that meet the hypotheses of clause 2 of ContributionRows. -/
theorem wit_ContributionRows_2 :
    ∃ (s : State) (r : Requester) (w : Contribution), arithKnown w.op = true ∧ w.dpa % 64 = 0 ∧ w.order = none ∧ contribStatus s r w.dpa ≠ St.ok := by
  refine ⟨memReady, .admin, con0, ?_, ?_, ?_, ?_⟩ <;> first | decide +kernel | rfl

/-- A state and operands that meet the hypotheses of clause 5 of ContributionRows. -/
theorem wit_ContributionRows_5 :
    ∃ (op k : Nat) (mask : BitVec 32) (d b : List Byte), d.length = 64 ∧ k < 64 / laneBytes op ∧ mask.getLsbD k = false := by
  refine ⟨4, 3, BitVec.ofNat 32 7, List.replicate 64 1, List.replicate 64 2, ?_, ?_, ?_⟩ <;> first | decide +kernel | rfl

/-- A state and operands that meet the hypotheses of clause 6 of ContributionRows. -/
theorem wit_ContributionRows_6 :
    ∃ (op k : Nat) (mask : BitVec 32) (d b : List Byte), d.length = 64 ∧ k < 64 / laneBytes op ∧ mask.getLsbD k = true := by
  refine ⟨6, 3, BitVec.ofNat 32 8, List.replicate 64 1, List.replicate 64 2, ?_, ?_, ?_⟩ <;> first | decide +kernel | rfl

/-- A state and operands that meet the hypotheses of clause 13 of ContributionRows. -/
theorem wit_ContributionRows_13 :
    ∃ (s : State) (n : Nat), (coreOf s n).stores = [] := by
  refine ⟨memReady, 0, ?_⟩ <;> first | decide +kernel | rfl

/-- A state and operands that meet the hypotheses of clause 3 of ContributionRows. -/
theorem wit_ContributionRows_3 :
    ∃ (s : State) (r : Requester) (w : Contribution), contribHeld s r w = true := by
  refine ⟨{ atomReady with svc := { atomReady.svc with regs := [(0, { level := -1, rates := List.replicate 16 100 })] } }, .part 0, con0, ?_⟩ <;> first | decide +kernel | (intro p n h; cases h) | rfl | exact .inl (by decide +kernel) | exact .inr (by decide +kernel) | (intro h; exact absurd h (by decide +kernel))

/-- A state and operands that meet the hypotheses of clause 4 of ContributionRows. -/
theorem wit_ContributionRows_4 :
    ∃ (s u v : State) (r : Requester) (w : Contribution) (p : Place) (e : Nat) (d : List Byte) (ue : Bool), arithKnown w.op = true ∧ w.dpa % 64 = 0 ∧ w.order = none ∧ w.poison = false ∧ contribStatus s r w.dpa = St.ok ∧ locate s w.dpa = some (p, e) ∧ contribHeld s r w = false ∧ u = cross (charge s r w.dpa 64 1) r true w.dpa 64 ∧ chanRead (cacheYield (watch u r 2 w.dpa 64) w.dpa (some 1)) p w.dpa 1 2 (rqCode r) (rqPart r) (some 1) false = (d, false, ue, v) := by
  refine ⟨atomReady, _, (chanRead (cacheYield (watch (cross (charge atomReady .admin 0x40 64 1) .admin true 0x40 64) .admin 2 0x40 64) 0x40 (some 1)) (placeIn memReady .fast 0xF02 0x40) 0x40 1 2 (rqCode .admin) (rqPart .admin) (some 1) false).2.2.2, .admin, con0, placeIn memReady .fast 0xF02 0x40, 0xF02, zeros 64, false, ?_, ?_, ?_, ?_, ?_, ?_, ?_, rfl, ?_⟩ <;> first | decide +kernel | (intro p n h; cases h) | rfl | exact .inl (by decide +kernel) | exact .inr (by decide +kernel) | (intro h; exact absurd h (by decide +kernel))

/-- A state and operands that meet the hypotheses of clause 7 of ContributionRows. -/
theorem wit_ContributionRows_7 :
    ∃ (s u : State) (r : Requester) (w : Contribution) (i q : Nat), arithKnown w.op = true ∧ w.dpa % 64 = 0 ∧ w.order = some (i, q) ∧ contribHeld s r w = false ∧ u = (if contribStatus s r w.dpa = St.ok then cross (charge s r w.dpa 64 1) r true w.dpa 64 else s) := by
  refine ⟨ordered 0, _, .admin, con1 0, 0, 0, ?_, ?_, ?_, ?_, rfl⟩ <;> first | decide +kernel | (intro p n h; cases h) | rfl | exact .inl (by decide +kernel) | exact .inr (by decide +kernel) | (intro h; exact absurd h (by decide +kernel))

/-- A state and operands that meet the hypotheses of clause 8 of ContributionRows. -/
theorem wit_ContributionRows_8 :
    ∃ (s : State) (a : Aside), s.ari.aside.find? (fun a => decide (a.since + resendUnits ≤ s.time)) = some a := by
  refine ⟨{ atomReady with time := 2 ^ 40, ari.aside := [{ req := .admin, con := con0, since := 0 }] }, { req := .admin, con := con0, since := 0 }, ?_⟩ <;> first | decide +kernel | (intro p n h; cases h) | rfl | exact .inl (by decide +kernel) | exact .inr (by decide +kernel) | (intro h; exact absurd h (by decide +kernel))

/-- A state and operands that meet the hypotheses of clause 9 of ContributionRows. -/
theorem wit_ContributionRows_9 :
    ∃ (s v : State) (a : Aside) (st : Nat) (d : List Byte), contribute s a.req a.con 1 = (st, d, v) ∧ v.ari.aside.length ≤ s.ari.aside.length ∧ a.op = none ∧ (∀ p n, a.req ≠ .core p n) := by
  refine ⟨atomReady, (contribute atomReady .admin con0 1).2.2, { req := .admin, con := con0, since := 0 }, (contribute atomReady .admin con0 1).1, (contribute atomReady .admin con0 1).2.1, ?_, ?_, ?_, ?_⟩ <;> first | decide +kernel | (intro p n h; cases h) | rfl | exact .inl (by decide +kernel) | exact .inr (by decide +kernel) | (intro h; exact absurd h (by decide +kernel))

/-- A state and operands that meet the hypotheses of clause 10 of ContributionRows. -/
theorem wit_ContributionRows_10 :
    ∃ s : State, (∀ a ∈ s.ari.aside, s.time < a.since + resendUnits) ∧ s.duc.remotes = [] := by
  refine ⟨{ atomReady with ari.aside := [{ req := .admin, con := con0, since := 0 }] }, ?_, ?_⟩ <;> first | decide +kernel | (intro p n h; cases h) | rfl | exact .inl (by decide +kernel) | exact .inr (by decide +kernel) | (intro h; exact absurd h (by decide +kernel))

/-- A state and operands that meet the hypotheses of clause 11 of ContributionRows. -/
theorem wit_ContributionRows_11 :
    ∃ (s : State) (n : Nat), (coreOf s n).contribs = [] := by
  refine ⟨memReady, 0, ?_⟩ <;> first | decide +kernel | (intro p n h; cases h) | rfl | exact .inl (by decide +kernel) | exact .inr (by decide +kernel) | (intro h; exact absurd h (by decide +kernel))

/-- A state and operands that meet the hypotheses of clause 12 of ContributionRows. -/
theorem wit_ContributionRows_12 :
    ∃ (s v : State) (n dpa : Nat) (x : CoreContrib) (d : List Byte), (coreOf s n).contribs = [x] ∧ x.prior = none ∧ x.fetching = false ∧ targetOf s x.con.dpa = .here dpa ∧ olderTouches s (coreOf s n) x.seq none dpa 64 = false ∧ contribHeld s (coreRq s n) { x.con with dpa := dpa } = false ∧ contribute s (coreRq s n) { x.con with dpa := dpa } 1 = (St.ok, d, v) := by
  refine ⟨setCore atomReady 0 { contribs := [{ con := con0, fetching := false, at_ := 0, prior := none }] }, (contribute (setCore atomReady 0 { contribs := [{ con := con0, fetching := false, at_ := 0, prior := none }] }) (coreRq (setCore atomReady 0 { contribs := [{ con := con0, fetching := false, at_ := 0, prior := none }] }) 0) con0 1).2.2, 0, 0x40, { con := con0, fetching := false, at_ := 0, prior := none }, (contribute (setCore atomReady 0 { contribs := [{ con := con0, fetching := false, at_ := 0, prior := none }] }) (coreRq (setCore atomReady 0 { contribs := [{ con := con0, fetching := false, at_ := 0, prior := none }] }) 0) con0 1).2.1, ?_, ?_, ?_, ?_, ?_, ?_, ?_⟩ <;> first | decide +kernel | (intro p n h; cases h) | rfl | exact .inl (by decide +kernel) | exact .inr (by decide +kernel) | (intro h; exact absurd h (by decide +kernel))

/-- A state and operands that meet the hypotheses of clause 14 of ContributionRows. -/
theorem wit_ContributionRows_14 :
    ∃ (s u : State) (n : Nat) (g : StoreGranule) (l : List StoreGranule), (coreOf s n).stores = g :: l ∧ g.peer = none ∧ olderTouches s (coreOf s n) g.seq none g.dpa 64 = false ∧ statusAt s (coreRq s n) true g.dpa = St.ok ∧ (g.whole = true ∨ touchesFolded s g.dpa 64 = false) ∧ storeWaits s n g = false ∧ u = setCore s n (fillStores n storeDepth { coreOf s n with stores := l }) := by
  refine ⟨setCore memReady 0 { stores := [{ dpa := 0x40, data := List.replicate 64 3, poison := false, cls := 1 }] }, _, 0, { dpa := 0x40, data := List.replicate 64 3, poison := false, cls := 1 }, [], ?_, ?_, ?_, ?_, ?_, ?_, rfl⟩ <;> first | decide +kernel | (intro p n h; cases h) | rfl | exact .inl (by decide +kernel) | exact .inr (by decide +kernel) | (intro h; exact absurd h (by decide +kernel))

/-- A state and operands that meet the hypotheses of clause 15 of ContributionRows. -/
theorem wit_ContributionRows_15 :
    ∃ (s : State) (n : Nat) (g : StoreGranule) (l : List StoreGranule), (coreOf s n).stores = g :: l ∧ g.peer = none ∧ statusAt s (coreRq s n) true g.dpa = St.ok ∧ (g.whole = true ∨ touchesFolded s g.dpa 64 = false) ∧ (storeWaits s n g = true ∨ olderTouches s (coreOf s n) g.seq none g.dpa 64 = true) := by
  refine ⟨storing (-1), 0, { dpa := 0x80, data := List.replicate 64 3, poison := false, cls := 1 }, [], ?_, ?_, ?_, ?_, ?_⟩ <;> first | decide +kernel | (intro p n h; cases h) | rfl | exact .inl (by decide +kernel) | exact .inr (by decide +kernel) | (intro h; exact absurd h (by decide +kernel))

/-- A state and operands that meet the hypotheses of clause 1 of OrderContextRows. -/
theorem wit_OrderContextRows_1 :
    ∃ (c : Cmd) (s a t : State) (st : Nat), Begun { op := 0x0401, need := 29 } c s a ∧ firstFail (applyChecks (p64 c 0) (p64 c 8) (p32 c 16) (p8 c 20) (p8 c 28)) = none ∧ applyHeld a (cmdRq c) (p64 c 0) (p64 c 8) (p32 c 16) (p8 c 28) = false ∧ arithApply a (cmdRq c) (p64 c 0) (p64 c 8) (p32 c 16) (p8 c 20) (if bit (p8 c 21) 0 then some (p8 c 22, p32 c 24) else none) (p8 c 28) = (st, 0, t) := by
  refine ⟨applyCmd, atomReady, _, (arithApply (arrive 0x0401 applyCmd atomReady) (cmdRq applyCmd) 0 64 64 4 none 1).2.2, (arithApply (arrive 0x0401 applyCmd atomReady) (cmdRq applyCmd) 0 64 64 4 none 1).1, begun_of (by decide +kernel) (by decide +kernel) (by decide +kernel) (by decide +kernel) (by decide +kernel), ?_, ?_, ?_⟩ <;> first | decide +kernel | (intro p n h; cases h) | rfl | exact .inl (by decide +kernel) | exact .inr (by decide +kernel) | (intro h; exact absurd h (by decide +kernel))

/-- A state and operands that meet the hypotheses of clause 4 of OrderContextRows. -/
theorem wit_OrderContextRows_4 :
    ∃ (c : Cmd) (s a : State) (i : Nat), Begun { op := 0x0402, need := 16 } c s a ∧ 0 < p32 c 8 ∧ p32 c 8 ≤ 1073741824 ∧ p16 c 14 ≠ 0 ∧ isDpa (p64 c 0) = true ∧ arithKnown (p8 c 12) = true ∧ p64 c 0 % 64 = 0 ∧ p32 c 8 % 64 = 0 ∧ ctxOverlaps a (p64 c 0) (p32 c 8) = false ∧ freeCtx a = some i ∧ bit (p8 c 13) 0 = false := by
  refine ⟨openCmd, atomReady, _, 0, begun_of (by decide +kernel) (by decide +kernel) (by decide +kernel) (by decide +kernel) (by decide +kernel), ?_, ?_, ?_, ?_, ?_, ?_, ?_, ?_, ?_, ?_⟩ <;> first | decide +kernel | rfl

/-- A state and operands that meet the hypotheses of clause 6 of OrderContextRows. -/
theorem wit_OrderContextRows_6 :
    ∃ c s a, Begun { op := 0x0402, need := 16 } c s a ∧ 0 < p32 c 8 ∧ p32 c 8 ≤ 1073741824 ∧ p16 c 14 ≠ 0 ∧ isDpa (p64 c 0) = true ∧ arithKnown (p8 c 12) = true ∧ p64 c 0 % 64 = 0 ∧ p32 c 8 % 64 = 0 ∧ ctxOverlaps a (p64 c 0) (p32 c 8) = true := by
  refine ⟨openCmd, ordered 0, _, begun_of (by decide +kernel) (by decide +kernel) (by decide +kernel) (by decide +kernel) (by decide +kernel), ?_, ?_, ?_, ?_, ?_, ?_, ?_, ?_⟩ <;> first | decide +kernel | rfl

/-- A state and operands that meet the hypotheses of clause 7 of OrderContextRows. -/
theorem wit_OrderContextRows_7 :
    ∃ (c : Cmd) (s a : State) (x : OrderCtx), Begun { op := 0x0403, need := 2 } c s a ∧ mfind a.ari.ctxs (p8 c 0) = some x ∧ ctxComplete x = true := by
  refine ⟨par [0, 0], ordered 2, _, { ctx0 with got := [(0, 2)] }, begun_of (by decide +kernel) (by decide +kernel) (by decide +kernel) (by decide +kernel) (by decide +kernel), ?_, ?_⟩ <;> first | decide +kernel | rfl

/-- A state and operands that meet the hypotheses of clause 8 of OrderContextRows. -/
theorem wit_OrderContextRows_8 :
    ∃ (c : Cmd) (s a : State) (x : OrderCtx), Begun { op := 0x0403, need := 2 } c s a ∧ mfind a.ari.ctxs (p8 c 0) = some x ∧ ctxComplete x = false ∧ bit (p8 c 1) 0 = false := by
  refine ⟨par [0, 0], ordered 1, _, { ctx0 with got := [(0, 1)] }, begun_of (by decide +kernel) (by decide +kernel) (by decide +kernel) (by decide +kernel) (by decide +kernel), ?_, ?_, ?_⟩ <;> first | decide +kernel | rfl

/-- A state and operands that meet the hypotheses of clause 9 of OrderContextRows. -/
theorem wit_OrderContextRows_9 :
    ∃ (c : Cmd) (s a : State) (x : OrderCtx), Begun { op := 0x0403, need := 2 } c s a ∧ mfind a.ari.ctxs (p8 c 0) = some x ∧ ctxComplete x = false ∧ bit (p8 c 1) 0 = true ∧ a.ink.running = [] := by
  refine ⟨par [0, 1], ordered 1, _, { ctx0 with got := [(0, 1)] }, begun_of (by decide +kernel) (by decide +kernel) (by decide +kernel) (by decide +kernel) (by decide +kernel), ?_, ?_, ?_, ?_⟩ <;> first | decide +kernel | rfl

/-- A state and operands that meet the hypotheses of clause 10 of OrderContextRows. -/
theorem wit_OrderContextRows_10 :
    ∃ c s a, Begun { op := 0x0403, need := 2 } c s a ∧ mfind a.ari.ctxs (p8 c 0) = none := by
  refine ⟨par [1, 0], ordered 1, _, begun_of (by decide +kernel) (by decide +kernel) (by decide +kernel) (by decide +kernel) (by decide +kernel), ?_⟩ <;> first | decide +kernel | rfl

/-- A state and operands that meet the hypotheses of clause 5 of OrderContextRows. -/
theorem wit_OrderContextRows_5 :
    ∃ (c : Cmd) (s a v : State) (i : Nat), Begun { op := 0x0402, need := 16 } c s a ∧ 0 < p32 c 8 ∧ p32 c 8 ≤ 1073741824 ∧ p16 c 14 ≠ 0 ∧ isDpa (p64 c 0) = true ∧ arithKnown (p8 c 12) = true ∧ p64 c 0 % 64 = 0 ∧ p32 c 8 % 64 = 0 ∧ ctxOverlaps a (p64 c 0) (p32 c 8) = false ∧ freeCtx a = some i ∧ bit (p8 c 13) 0 = true ∧ writeBytes a (cmdRq c) (p64 c 0) (identityBytes (p8 c 12) (p32 c 8)) false 1 = (St.ok, v) := by
  refine ⟨(par (leBytes 8 0 ++ leBytes 4 64 ++ [4, 1] ++ leBytes 2 2)), atomReady, _, (writeBytes (arrive 0x0402 (par (leBytes 8 0 ++ leBytes 4 64 ++ [4, 1] ++ leBytes 2 2)) atomReady) (cmdRq (par (leBytes 8 0 ++ leBytes 4 64 ++ [4, 1] ++ leBytes 2 2))) 0 (identityBytes 4 64) false 1).2, 0, begun_of (by decide +kernel) (by decide +kernel) (by decide +kernel) (by decide +kernel) (by decide +kernel), ?_, ?_, ?_, ?_, ?_, ?_, ?_, ?_, ?_, ?_, ?_⟩ <;> first | decide +kernel | (intro p n h; cases h) | rfl | exact .inl (by decide +kernel) | exact .inr (by decide +kernel) | (intro h; exact absurd h (by decide +kernel))

/-- A state and operands that meet the hypotheses of clause 2 of OrderContextRows. -/
theorem wit_OrderContextRows_2 :
    ∃ (c : Cmd) (s a t : State) (st n : Nat), Begun { op := 0x0401, need := 29 } c s a ∧ firstFail (applyChecks (p64 c 0) (p64 c 8) (p32 c 16) (p8 c 20) (p8 c 28)) = none ∧ applyHeld a (cmdRq c) (p64 c 0) (p64 c 8) (p32 c 16) (p8 c 28) = false ∧ n ≠ 0 ∧ arithApply a (cmdRq c) (p64 c 0) (p64 c 8) (p32 c 16) (p8 c 20) (if bit (p8 c 21) 0 then some (p8 c 22, p32 c 24) else none) (p8 c 28) = (st, n, t) := by
  refine ⟨applyCmd2, fullStore, _, (arithApply (arrive 0x0401 applyCmd2 fullStore) (cmdRq applyCmd2) 0x80 0 64 4 (some (0, 3)) 1).2.2, (arithApply (arrive 0x0401 applyCmd2 fullStore) (cmdRq applyCmd2) 0x80 0 64 4 (some (0, 3)) 1).1, 1, begun_of (by decide +kernel) (by decide +kernel) (by decide +kernel) (by decide +kernel) (by decide +kernel), ?_, ?_, ?_, ?_⟩ <;> first | decide +kernel | (intro p n h; cases h) | rfl | exact .inl (by decide +kernel) | exact .inr (by decide +kernel) | (intro h; exact absurd h (by decide +kernel))

/-- A state and operands that meet the hypotheses of clause 3 of OrderContextRows. -/
theorem wit_OrderContextRows_3 :
    ∃ (s u v : State) (r : Requester) (src dst op cls st : Nat) (o : Option (Nat × Nat)) (g : List Byte × Bool) (d : List Byte), readGranules s r src 64 cls = (St.ok, [g], v) ∧ contribute v r { dpa := dst, op := op, mask := BitVec.allOnes 32, operand := g.1, poison := g.2, order := o } cls = (st, d, u) ∧ u.ari.aside.length ≤ v.ari.aside.length := by
  refine ⟨atomReady, (contribute (readGranules atomReady .admin 0x80 64 1).2.2 .admin { dpa := 0x40, op := 4, mask := BitVec.allOnes 32, operand := zeros 64, poison := false, order := none } 1).2.2, (readGranules atomReady .admin 0x80 64 1).2.2, .admin, 0x80, 0x40, 4, 1, (contribute (readGranules atomReady .admin 0x80 64 1).2.2 .admin { dpa := 0x40, op := 4, mask := BitVec.allOnes 32, operand := zeros 64, poison := false, order := none } 1).1, none, (zeros 64, false), (contribute (readGranules atomReady .admin 0x80 64 1).2.2 .admin { dpa := 0x40, op := 4, mask := BitVec.allOnes 32, operand := zeros 64, poison := false, order := none } 1).2.1, ?_, ?_, ?_⟩ <;> first | decide +kernel | (intro p n h; cases h) | rfl | exact .inl (by decide +kernel) | exact .inr (by decide +kernel) | (intro h; exact absurd h (by decide +kernel))

/-- A state and operands that meet the hypotheses of clause 1 of ReservoirRows. -/
theorem wit_ReservoirRows_1 :
    ∃ (c : Cmd) (s a : State) (b : List Byte) (st : Nat), Begun { op := 0x0404, need := 64, ext := true } c s a ∧ splitDescs 16 (body c) = some [b] ∧ st = descStatus a ((cmdPart c).getD 0xFF) b ∧ st ≠ St.ok ∧ st < 65536 ∧ a.ari.gathers = [] := by
  refine ⟨gatherCmd (desc0 4 0), rbReady, _, desc0 4 0, _, begun_of (by decide +kernel) (by decide +kernel) (by decide +kernel) (by decide +kernel) (by decide +kernel), ?_, rfl, ?_, ?_, ?_⟩ <;> first | decide +kernel | rfl

/-- A state and operands that meet the hypotheses of clause 2 of ReservoirRows. -/
theorem wit_ReservoirRows_2 :
    ∃ (c : Cmd) (s a : State) (b : List Byte) (u k : Nat), Begun { op := 0x0404, need := 64, ext := true } c s a ∧ splitDescs 16 (body c) = some [b] ∧ descStatus a ((cmdPart c).getD 0xFF) b = St.ok ∧ tablePort a (parseDesc b) = some u ∧ freeSlot a u = some k ∧ a.ari.gathers = [] := by
  refine ⟨gatherCmd (desc0 3 0), rbReady, _, desc0 3 0, 0, 0, begun_of (by decide +kernel) (by decide +kernel) (by decide +kernel) (by decide +kernel) (by decide +kernel), ?_, ?_, ?_, ?_, ?_⟩ <;> first | decide +kernel | rfl

/-- A state and operands that meet the hypotheses of clause 3 of ReservoirRows. -/
theorem wit_ReservoirRows_3 :
    ∃ c s a, Begun { op := 0x0404, need := 64, ext := true } c s a ∧ splitDescs 16 (body c) = none := by
  refine ⟨gatherCmd ((desc0 3 0).set 16 2), rbReady, _, begun_of (by decide +kernel) (by decide +kernel) (by decide +kernel) (by decide +kernel) (by decide +kernel), ?_⟩ <;> first | decide +kernel | rfl

/-- A state and operands that meet the hypotheses of clause 4 of ReservoirRows. -/
theorem wit_ReservoirRows_4 :
    ∃ c s a, Begun { op := 0x0405, need := 16 } c s a ∧ p8 c 0 ≤ 15 ∧ (unitOf a .cap (p8 c 0)).kind = 1 ∧ (unitOf a .cap (p8 c 0)).refused = false ∧ hostOk a (p64 c 8) 32 = true := by
  refine ⟨par (zeros 8 ++ leBytes 8 0x7000), rbReady, _, begun_of (by decide +kernel) (by decide +kernel) (by decide +kernel) (by decide +kernel) (by decide +kernel), ?_, ?_, ?_, ?_⟩ <;> first | decide +kernel | rfl

/-- A state and operands that meet the hypotheses of clause 5 of ReservoirRows. -/
theorem wit_ReservoirRows_5 :
    ∃ c s a, Begun { op := 0x0405, need := 16 } c s a ∧ p8 c 0 ≤ 15 ∧ (unitOf a .cap (p8 c 0)).kind ≠ 1 := by
  refine ⟨par ([1] ++ zeros 7 ++ leBytes 8 0x7000), rbReady, _, begun_of (by decide +kernel) (by decide +kernel) (by decide +kernel) (by decide +kernel) (by decide +kernel), ?_, ?_⟩ <;> first | decide +kernel | rfl

/-- A state and operands that meet the hypotheses of clause 7 of ReservoirRows. -/
theorem wit_ReservoirRows_7 :
    ∃ (s : State) (port ch sl : Nat) (x : Slot), x = mget {} s.ari.slots (slotKey port ch sl) ∧ (x.gather = 0 ∨ x.state ≠ 0) := by
  refine ⟨slotState 1 0, 0, 0, 0, _, rfl, ?_⟩ <;> first | decide +kernel | rfl | exact .inr (by decide +kernel)

/-- A state and operands that meet the hypotheses of clause 13 of ReservoirRows. -/
theorem wit_ReservoirRows_13 :
    ∃ (s : State) (port ch sl : Nat), (mget {} s.ari.slots (slotKey port ch sl)).state = 0 := by
  refine ⟨slotState 0 0, 0, 0, 0, ?_⟩ <;> first | decide +kernel | (intro p n h; cases h) | rfl | exact .inl (by decide +kernel) | exact .inr (by decide +kernel) | (intro h; exact absurd h (by decide +kernel))

/-- A state and operands that meet the hypotheses of clause 6 of ReservoirRows. -/
theorem wit_ReservoirRows_6 :
    ∃ (s : State) (port ch sl : Nat) (x : Slot) (g : Gather), x = mget {} s.ari.slots (slotKey port ch sl) ∧ x.gather ≠ 0 ∧ x.state = 0 ∧ s.ari.gathers.find? (fun g => g.id == x.gather) = some g ∧ (chanOf s .cap (8 * port + ch)).retraining = false ∧ gatherHeld s g = false := by
  refine ⟨slotState 0 0, 0, 0, 0, _, { id := 5, part := 0, queue := none, left := 2, done := 0, status := 0, failTag := 0, cls := 1, waiting := [] }, rfl, ?_, ?_, ?_, ?_, ?_⟩ <;> first | decide +kernel | (intro p n h; cases h) | rfl | exact .inl (by decide +kernel) | exact .inr (by decide +kernel) | (intro h; exact absurd h (by decide +kernel))

/-- A state and operands that meet the hypotheses of clause 8 of ReservoirRows. -/
theorem wit_ReservoirRows_8 :
    ∃ (s : State) (port : Nat) (x : Slot), tripped s .cap port = false ∧ (parseDesc x.desc).index.any (fun i => decide (i ≥ (parseDesc x.desc).rows)) = true := by
  refine ⟨rbReady, 0, { state := 1, desc := desc0 3 9, gather := 5 }, ?_, ?_⟩ <;> first | decide +kernel | (intro p n h; cases h) | rfl | exact .inl (by decide +kernel) | exact .inr (by decide +kernel) | (intro h; exact absurd h (by decide +kernel))

/-- A state and operands that meet the hypotheses of clause 9 of ReservoirRows. -/
theorem wit_ReservoirRows_9 :
    ∃ (s : State) (port : Nat) (x : Slot) (out : List Byte) (poison : Bool), tripped s .cap port = false ∧ (parseDesc x.desc).index.any (fun i => decide (i ≥ (parseDesc x.desc).rows)) = false ∧ gatherRows s port (parseDesc x.desc) = (out, poison) := by
  refine ⟨rbReady, 0, { state := 1, desc := desc0 3 0, gather := 5 }, (gatherRows rbReady 0 (parseDesc (desc0 3 0))).1, (gatherRows rbReady 0 (parseDesc (desc0 3 0))).2, ?_, ?_, ?_⟩ <;> first | decide +kernel | (intro p n h; cases h) | rfl | exact .inl (by decide +kernel) | exact .inr (by decide +kernel) | (intro h; exact absurd h (by decide +kernel))

/-- A state and operands that meet the hypotheses of clause 10 of ReservoirRows. -/
theorem wit_ReservoirRows_10 :
    ∃ (s u v : State) (port ch sl : Nat) (x y : Slot) (g : Gather), x = mget {} s.ari.slots (slotKey port ch sl) ∧ x.state = 1 ∧ slotRun s port x = (y, v) ∧ s.ari.gathers.find? (fun g => g.id == x.gather) = some g ∧ u = { v with ari.slots := mput v.ari.slots (slotKey port ch sl) y } := by
  refine ⟨slotState 1 0, _, (slotRun (slotState 1 0) 0 { state := 1, desc := desc0 3 0, gather := 5 }).2, 0, 0, 0, _, (slotRun (slotState 1 0) 0 { state := 1, desc := desc0 3 0, gather := 5 }).1, { id := 5, part := 0, queue := none, left := 2, done := 0, status := 0, failTag := 0, cls := 1, waiting := [] }, rfl, ?_, ?_, ?_, rfl⟩ <;> first | decide +kernel | (intro p n h; cases h) | rfl | exact .inl (by decide +kernel) | exact .inr (by decide +kernel) | (intro h; exact absurd h (by decide +kernel))

/-- A state and operands that meet the hypotheses of clause 11 of ReservoirRows. -/
theorem wit_ReservoirRows_11 :
    ∃ (s w : State) (port k st : Nat) (x : Slot) (g : Gather), x.state = 2 ∧ s.ari.gathers = [g] ∧ g.waiting = [] ∧ g.left = 2 ∧ gatherWrite (match regKey (resRq g.part) .cap with | some r => chargeReg s r (x.inBytes / 2) | none => s) port g x = (st, w) := by
  refine ⟨slotState 2 0, (gatherWrite (match regKey (resRq 0) .cap with | some r => chargeReg (slotState 2 0) r 32 | none => slotState 2 0) 0 { id := 5, part := 0, queue := none, left := 2, done := 0, status := 0, failTag := 0, cls := 1, waiting := [] } { state := 2, desc := desc0 3 0, gather := 5, result := zeros 64, outBytes := 64, inBytes := 64 }).2, 0, 0, (gatherWrite (match regKey (resRq 0) .cap with | some r => chargeReg (slotState 2 0) r 32 | none => slotState 2 0) 0 { id := 5, part := 0, queue := none, left := 2, done := 0, status := 0, failTag := 0, cls := 1, waiting := [] } { state := 2, desc := desc0 3 0, gather := 5, result := zeros 64, outBytes := 64, inBytes := 64 }).1, { state := 2, desc := desc0 3 0, gather := 5, result := zeros 64, outBytes := 64, inBytes := 64 }, { id := 5, part := 0, queue := none, left := 2, done := 0, status := 0, failTag := 0, cls := 1, waiting := [] }, ?_, ?_, ?_, ?_, ?_⟩ <;> first | decide +kernel | (intro p n h; cases h) | rfl | exact .inl (by decide +kernel) | exact .inr (by decide +kernel) | (intro h; exact absurd h (by decide +kernel))

/-- A state and operands that meet the hypotheses of clause 12 of ReservoirRows. -/
theorem wit_ReservoirRows_12 :
    ∃ (s : State) (port k : Nat) (x : Slot) (g : Gather), x.state = 3 ∧ s.ari.gathers = [g] ∧ g.waiting = [] ∧ g.left = 2 ∧ x.status ≠ 0 := by
  refine ⟨slotState 3 0, 0, 0, { state := 3, desc := desc0 3 9, gather := 5, status := 0x0410 }, { id := 5, part := 0, queue := none, left := 2, done := 0, status := 0, failTag := 0, cls := 1, waiting := [] }, ?_, ?_, ?_, ?_, ?_⟩ <;> first | decide +kernel | (intro p n h; cases h) | rfl | exact .inl (by decide +kernel) | exact .inr (by decide +kernel) | (intro h; exact absurd h (by decide +kernel))

/-- A basis table of rank 1 for FP32 tiles with identifier 3. -/
def table3 : List Byte :=
  [1, 3, 1, 0] ++ leBytes 2 32 ++ leBytes 2 3 ++ leBytes 4 128 ++ leBytes 4 354986128 ++ zeros 48 ++ (List.replicate 32 [0x80, 0x3F]).flatten

/-- The CRC-32 of a list from that of its first `n` bytes. -/
theorem crcFold_split (f : Nat → Byte → Nat) (n : Nat) (l : List Byte) (x y : Nat) (h : (l.take n).foldl f x = y) :
    l.foldl f x = (l.drop n).foldl f y := by
  rw [← h, ← List.foldl_append, List.take_append_drop]

theorem table3_crc : basisCrcOk table3 = true := by
  unfold basisCrcOk crc32
  rw [crcFold_split _ 32 _ _ 2973159089 (by decide +kernel), crcFold_split _ 32 _ _ 3129378563 (by decide +kernel),
    crcFold_split _ 32 _ _ 4237329538 (by decide +kernel), crcFold_split _ 32 _ _ 3939981167 (by decide +kernel)]
  decide +kernel

theorem table3_ok : basisOk table3 3 = true := by
  have h := table3_crc
  simp only [basisOk, h, Bool.and_true]
  decide +kernel

/-- That table stored at 0x1000. -/
def tableReady : State := (writeBytes memReady .admin 0x1000 table3 false 1).2

def basis3 : Basis := { dpa := 0x1000, fmt := 3, rank := 1, cols := 32 }

/-- The table loaded, and fast region 0 held under a folded layout of ratio 1. -/
def foldReady : State :=
  { tableReady with
    fold := { tableReady.fold with basis := [(3, basis3)] }
    mem := { tableReady.mem with fastRegions := { h := 2, ovr := [(1, BitVec.ofNat 64 (9 + 0xF00))] }, folded := [(1, { ratio := 1, summary := false })] }
    ink := { tableReady.ink with claims := [{ res := regionRes .fast 1, mode := 1, owner := 0xFE }] } }

def slotDpa : Nat := 2 ^ 30

def lane3 : Lane := { basis := 3, dpa := 0x1000, block := { req := 1, dpa := slotDpa, index := 0 }, bytes := zeros 64 }

/-- Expander `x` with one block expQueued for a request. -/
def expQueued (x : Nat) (e : Expander) : State :=
  { foldReady with fold := { foldReady.fold with
      exps := [(x, e)]
      reqs := [(1, { req := .part 0, dest := .memory 0x8000, left := 1, delivered := 0, status := 0, cls := 1, statusAt := 0, queue := none })], nextReq := 2 } }

def blk : Block := { req := 1, dpa := slotDpa, index := 0 }

def tripFast : State :=
  { expQueued 0 { queue := [blk] } with svc := { (expQueued 0 {}).svc with thermal := [(0, { temp := 95, tripped := true, share := 77 })] } }

def expandCmd (n : Nat) : Cmd := par (leBytes 8 slotDpa ++ leBytes 8 0x8000 ++ leBytes 4 n ++ [1])

def layoutCmd (ratio f : Byte) : Cmd := adm ([0, 0] ++ leBytes 2 0 ++ leBytes 2 1 ++ [ratio, f])

/-- A block of zero coefficients: no group, one granule. -/
def block0 : List Byte :=
  let b := padTo 2048 ([0x1C, 1, 0, 1] ++ leBytes 2 3 ++ zeros 2 ++ leBytes 4 0x3F800000 ++ zeros 2)
  overlay b 14 (leBytes 2 (blockCrc b 1))

def verifyCmd (n : Nat) : Cmd := par (leBytes 8 slotDpa ++ leBytes 4 n ++ zeros 4 ++ leBytes 8 0x7000 ++ leBytes 2 1)

theorem fetchBasis_eq (s : State) (dpa : Nat) : fetchBasis s dpa =
    (let r := readBytes s .admin dpa 64 0
     let q := readBytes r.2.2.2 .admin dpa (64 + 2 * fieldN r.2.1 4 2 * fieldN r.2.1 2 1) 0
     (if q.1 = St.ok ∧ !r.2.2.1 ∧ !q.2.2.1 ∧ basisCrcOk q.2.1 then some q.2.1 else none, q.2.2.2)) := by
  unfold fetchBasis
  generalize readBytes s .admin dpa 64 0 = r
  obtain ⟨a, h, p, s1⟩ := r
  dsimp only

def filled : State := setExp (expQueued 0 { filling := [lane3] }) 0 { expOf (expQueued 0 { filling := [lane3] }) 0 with filling := [] }

theorem fetch_table3 : (fetchBasis filled 0x1000).1 = some table3 := by
  have hq : (readBytes (readBytes filled .admin 0x1000 64 0).2.2.2 .admin 0x1000
      (64 + 2 * fieldN (readBytes filled .admin 0x1000 64 0).2.1 4 2 * fieldN (readBytes filled .admin 0x1000 64 0).2.1 2 1) 0).2.1 = table3 := by
    decide +kernel
  rw [fetchBasis_eq]
  dsimp only
  rw [hq, if_pos ⟨by decide +kernel, by decide +kernel, by decide +kernel, table3_crc⟩]

def basisCmd : Cmd := adm (leBytes 8 0x1000 ++ leBytes 2 3)

theorem fetch_pair : fetchBasis filled 0x1000 = (some table3, (fetchBasis filled 0x1000).2) := by rw [← fetch_table3]

theorem load_table3 : basisOk (readBytes (readBytes (arrive ({ op := 0x0501, need := 10, vf := false } : FwSpec).op basisCmd tableReady) .admin (p64 basisCmd 0) 64 1).2.2.2 .admin (p64 basisCmd 0)
    (fieldN (readBytes (arrive ({ op := 0x0501, need := 10, vf := false } : FwSpec).op basisCmd tableReady) .admin (p64 basisCmd 0) 64 1).2.1 8 4) 1).2.1 (p16 basisCmd 8) = true := by
  dsimp only
  have e1 : p64 basisCmd 0 = 0x1000 := by decide +kernel
  have e2 : p16 basisCmd 8 = 3 := by decide +kernel
  have e3 : fieldN (readBytes (arrive 0x0501 basisCmd tableReady) .admin 0x1000 64 1).2.1 8 4 = 128 := by decide +kernel
  have e4 : (readBytes (readBytes (arrive 0x0501 basisCmd tableReady) .admin 0x1000 64 1).2.2.2 .admin 0x1000 128 1).2.1 = table3 := by decide +kernel
  rw [e1, e2, e3, e4]
  exact table3_ok

/-- A state and operands that meet the hypotheses of clause 1 of FoldTableRows. -/
theorem wit_FoldTableRows_1 :
    ∃ (c : Cmd) (s a : State) (h t : List Byte), Begun { op := 0x0501, need := 10, vf := false } c s a ∧ isDpa (p64 c 0) = true ∧ basisPlaced a (p64 c 0) 64 = true ∧ (readBytes a .admin (p64 c 0) 64 1).1 = St.ok ∧ h = (readBytes a .admin (p64 c 0) 64 1).2.1 ∧ (readBytes a .admin (p64 c 0) 64 1).2.2.1 = false ∧ 64 ≤ fieldN h 8 4 ∧ fieldN h 8 4 ≤ 8256 ∧ basisPlaced (readBytes a .admin (p64 c 0) 64 1).2.2.2 (p64 c 0) (fieldN h 8 4) = true ∧ (readBytes (readBytes a .admin (p64 c 0) 64 1).2.2.2 .admin (p64 c 0) (fieldN h 8 4) 1).1 = St.ok ∧ t = (readBytes (readBytes a .admin (p64 c 0) 64 1).2.2.2 .admin (p64 c 0) (fieldN h 8 4) 1).2.1 ∧ (readBytes (readBytes a .admin (p64 c 0) 64 1).2.2.2 .admin (p64 c 0) (fieldN h 8 4) 1).2.2.1 = false ∧ basisOk t (p16 c 8) = true ∧ mfind (readBytes (readBytes a .admin (p64 c 0) 64 1).2.2.2 .admin (p64 c 0) (fieldN h 8 4) 1).2.2.2.fold.basis (p16 c 8) = none := by
  refine ⟨basisCmd, tableReady, _, _, _, begun_of (by decide +kernel) (by decide +kernel) (by decide +kernel) (by decide +kernel) (by decide +kernel), ?_, ?_, ?_, rfl, ?_, ?_, ?_, ?_, ?_, rfl, ?_, ?_, ?_⟩ <;> first | decide +kernel | exact load_table3

/-- A state and operands that meet the hypotheses of clause 2 of FoldTableRows. -/
theorem wit_FoldTableRows_2 :
    ∃ c s a, Begun { op := 0x0501, need := 10, vf := false } c s a ∧ isDpa (p64 c 0) = true ∧ basisPlaced a (p64 c 0) 64 = false := by
  refine ⟨adm (leBytes 8 0x10000000000 ++ leBytes 2 3), tableReady, _, begun_of (by decide +kernel) (by decide +kernel) (by decide +kernel) (by decide +kernel) (by decide +kernel), ?_, ?_⟩ <;> first | decide +kernel | rfl

/-- A state and operands that meet the hypotheses of clause 3 of FoldTableRows. -/
theorem wit_FoldTableRows_3 :
    ∃ (c : Cmd) (s a : State) (b : Basis), Begun { op := 0x0502, need := 2, vf := false } c s a ∧ mfind a.fold.basis (p16 c 0) = some b ∧ a.fold.exps.any (fun e => e.2.filling.any (fun l => l.basis == p16 c 0)) = false := by
  refine ⟨adm [3, 0], foldReady, _, basis3, begun_of (by decide +kernel) (by decide +kernel) (by decide +kernel) (by decide +kernel) (by decide +kernel), ?_, ?_⟩ <;> first | decide +kernel | rfl

/-- A state and operands that meet the hypotheses of clause 4 of FoldTableRows. -/
theorem wit_FoldTableRows_4 :
    ∃ (c : Cmd) (s a : State) (b : Basis), Begun { op := 0x0502, need := 2, vf := false } c s a ∧ mfind a.fold.basis (p16 c 0) = some b ∧ a.fold.exps.any (fun e => e.2.filling.any (fun l => l.basis == p16 c 0)) = true := by
  refine ⟨adm [3, 0], expQueued 0 { filling := [lane3] }, _, basis3, begun_of (by decide +kernel) (by decide +kernel) (by decide +kernel) (by decide +kernel) (by decide +kernel), ?_, ?_⟩ <;> first | decide +kernel | rfl

/-- A state and operands that meet the hypotheses of clause 5 of FoldTableRows. -/
theorem wit_FoldTableRows_5 :
    ∃ (c : Cmd) (s a : State) (b : Basis), Begun { op := 0x0503, need := 2, vf := false } c s a ∧ mfind a.fold.basis (p16 c 0) = some b := by
  refine ⟨adm [3, 0], foldReady, _, basis3, begun_of (by decide +kernel) (by decide +kernel) (by decide +kernel) (by decide +kernel) (by decide +kernel), ?_⟩ <;> first | decide +kernel | rfl

/-- A state and operands that meet the hypotheses of clause 6 of FoldTableRows. -/
theorem wit_FoldTableRows_6 :
    ∃ c s a, Begun { op := 0x0503, need := 2, vf := false } c s a ∧ mfind a.fold.basis (p16 c 0) = none := by
  refine ⟨adm [4, 0], foldReady, _, begun_of (by decide +kernel) (by decide +kernel) (by decide +kernel) (by decide +kernel) (by decide +kernel), ?_⟩ <;> first | decide +kernel | rfl

/-- A state and operands that meet the hypotheses of clause 7 of FoldTableRows. -/
theorem wit_FoldTableRows_7 :
    ∃ (c : Cmd) (s a v : State) (t : Tier), Begun { op := 0x0504, need := 8, vf := false } c s a ∧ p8 c 0 ≤ 1 ∧ t = tierOf (p8 c 0) ∧ p16 c 4 = 1 ∧ p16 c 2 < regionCount t ∧ 1 ≤ p8 c 6 ∧ p8 c 6 ≤ 5 ∧ (4 ≤ p8 c 6 → p8 c 7 = 1) ∧ p8 c 7 ≤ 1 ∧ eMode (regionEntry a t (p16 c 2)) ≠ 0 ∧ eWindow (regionEntry a t (p16 c 2)) = false ∧ eFolded (regionEntry a t (p16 c 2)) = false ∧ conflict? a (regionRes t (p16 c 2)) 1 0xFE = none ∧ v = flushRegion (grant a (regionRes t (p16 c 2)) 1 0xFE) t (p16 c 2) := by
  refine ⟨layoutCmd 5 1, memReady, _, _, .fast, begun_of (by decide +kernel) (by decide +kernel) (by decide +kernel) (by decide +kernel) (by decide +kernel), ?_, ?_, ?_, ?_, ?_, ?_, ?_, ?_, ?_, ?_, ?_, ?_, rfl⟩ <;> first | decide +kernel | rfl

/-- A state and operands that meet the hypotheses of clause 8 of FoldTableRows. -/
theorem wit_FoldTableRows_8 :
    ∃ c s a, Begun { op := 0x0504, need := 8, vf := false } c s a ∧ 4 ≤ p8 c 6 ∧ p8 c 7 = 0 := by
  refine ⟨layoutCmd 4 0, memReady, _, begun_of (by decide +kernel) (by decide +kernel) (by decide +kernel) (by decide +kernel) (by decide +kernel), ?_, ?_⟩ <;> first | decide +kernel | rfl

/-- A state and operands that meet the hypotheses of clause 9 of FoldTableRows. -/
theorem wit_FoldTableRows_9 :
    ∃ (c : Cmd) (s a v : State) (t : Tier), Begun { op := 0x0505, need := 6, vf := false } c s a ∧ p8 c 0 ≤ 1 ∧ t = tierOf (p8 c 0) ∧ p16 c 4 = 1 ∧ p16 c 2 < regionCount t ∧ eFolded (regionEntry a t (p16 c 2)) = true ∧ v = flushRegion a t (p16 c 2) := by
  refine ⟨adm ([0, 0] ++ leBytes 2 1 ++ leBytes 2 1), foldReady, _, _, .fast, begun_of (by decide +kernel) (by decide +kernel) (by decide +kernel) (by decide +kernel) (by decide +kernel), ?_, ?_, ?_, ?_, ?_, rfl⟩ <;> first | decide +kernel | rfl

/-- A state and operands that meet the hypotheses of clause 1 of ExpansionRows. -/
theorem wit_ExpansionRows_1 :
    ∃ c s a, Begun { op := 0x0506, need := 21 } c s a ∧ firstFail (expandChecks a (cmdRq c) (p64 c 0) (p64 c 8) (p32 c 16) (p8 c 20)) = none := by
  refine ⟨expandCmd 1, foldReady, _, begun_of (by decide +kernel) (by decide +kernel) (by decide +kernel) (by decide +kernel) (by decide +kernel), ?_⟩ <;> first | decide +kernel | rfl

/-- A state and operands that meet the hypotheses of clause 3 of ExpansionRows. -/
theorem wit_ExpansionRows_3 :
    ∃ (c : Cmd) (s a : State) (st : Nat), Begun { op := 0x0506, need := 21 } c s a ∧ firstFail (expandChecks a (cmdRq c) (p64 c 0) (p64 c 8) (p32 c 16) (p8 c 20)) = some st := by
  refine ⟨expandCmd 0, foldReady, _, St.invalidField, begun_of (by decide +kernel) (by decide +kernel) (by decide +kernel) (by decide +kernel) (by decide +kernel), ?_⟩ <;> first | decide +kernel | rfl

/-- A state and operands that meet the hypotheses of clause 4 of ExpansionRows. -/
theorem wit_ExpansionRows_4 :
    ∃ (s : State) (r : Requester) (d : Nat), isDpa d = true ∧ (d % 4096 ≠ 0 ∨ foldInfo s d = none) := by
  refine ⟨foldReady, .part 0, slotDpa + 64, ?_, ?_⟩ <;> first | decide +kernel | rfl | exact .inl (by decide +kernel) | exact .inr (by decide +kernel) | (intro h; exact absurd h (by decide +kernel))

/-- A state and operands that meet the hypotheses of clause 6 of ExpansionRows. -/
theorem wit_ExpansionRows_6 :
    ∃ (s : State) (ratio : Nat) (b : List Byte) (l : List Bool), blockFails s ratio b l = none := by
  refine ⟨foldReady, 1, block0, [], ?_⟩ <;> first | decide +kernel | rfl

/-- A state and operands that meet the hypotheses of clause 10 of ExpansionRows. -/
theorem wit_ExpansionRows_10 :
    ∃ (s : State) (x : Nat), (expOf s x).filling = [] := by
  refine ⟨foldReady, 87, ?_⟩ <;> first | decide +kernel | rfl

/-- A state and operands that meet the hypotheses of clause 13 of ExpansionRows. -/
theorem wit_ExpansionRows_13 :
    ∃ c s a, Begun { op := 0x0507, need := 26 } c s a ∧ p32 c 8 = 0 ∧ hostOk a (p64 c 16) 0 = true := by
  refine ⟨verifyCmd 0, foldReady, _, begun_of (by decide +kernel) (by decide +kernel) (by decide +kernel) (by decide +kernel) (by decide +kernel), ?_, ?_⟩ <;> first | decide +kernel | rfl

/-- A state and operands that meet the hypotheses of clause 14 of ExpansionRows. -/
theorem wit_ExpansionRows_14 :
    ∃ (c : Cmd) (s a v : State) (st k : Nat), Begun { op := 0x0507, need := 26 } c s a ∧ p32 c 8 = 1 ∧ slotStatus a (cmdRq c) (p64 c 0) = St.ok ∧ verifyHeld a (cmdRq c) (p64 c 0) 1 = false ∧ st = (verifyOne a (cmdRq c) (p64 c 0)).1 ∧ k = (verifyOne a (cmdRq c) (p64 c 0)).2.1 ∧ v = (verifyOne a (cmdRq c) (p64 c 0)).2.2 ∧ st ≠ St.ok ∧ p16 c 24 = 1 ∧ hostOk v (p64 c 16) 16 = true := by
  refine ⟨verifyCmd 1, foldReady, _, _, _, _, begun_of (by decide +kernel) (by decide +kernel) (by decide +kernel) (by decide +kernel) (by decide +kernel), ?_, ?_, ?_, rfl, rfl, rfl, ?_, ?_, ?_⟩ <;> first | decide +kernel | rfl | exact .inl (by decide +kernel) | exact .inr (by decide +kernel) | (intro h; exact absurd h (by decide +kernel))

/-- A state and operands that meet the hypotheses of clause 15 of ExpansionRows. -/
theorem wit_ExpansionRows_15 :
    ∃ (c : Cmd) (s a : State) (l : Log), Begun { op := 0x0508, need := 11, vf := false } c s a ∧ p8 c 10 ≤ 1 ∧ l = mget {} a.fold.logs (p8 c 10) ∧ hostOk a (p64 c 0) ((lastN l.unread l.recs).take (min (p16 c 8) l.unread)).flatten.length = true := by
  refine ⟨adm (leBytes 8 0x7000 ++ [1, 0, 1]), { foldReady with fold := { foldReady.fold with logs := [(1, { recs := [zeros 32], unread := 1 })] } }, _, { recs := [zeros 32], unread := 1 }, begun_of (by decide +kernel) (by decide +kernel) (by decide +kernel) (by decide +kernel) (by decide +kernel), ?_, ?_, ?_⟩ <;> first | decide +kernel | rfl

/-- A state and operands that meet the hypotheses of clause 16 of ExpansionRows. -/
theorem wit_ExpansionRows_16 :
    ∃ (c : Cmd) (s a : State) (b : List Byte), Begun { op := 0x0509, need := 16, vf := false } c s a ∧ p8 c 0 + p8 c 1 ≤ 88 ∧ b = ((List.range (p8 c 1)).map (fun i => expanderBytes (expOf a (p8 c 0 + i)))).flatten ∧ hostOk a (p64 c 8) b.length = true := by
  refine ⟨adm ([87, 1] ++ zeros 6 ++ leBytes 8 0x7000), foldReady, _, _, begun_of (by decide +kernel) (by decide +kernel) (by decide +kernel) (by decide +kernel) (by decide +kernel), ?_, rfl, ?_⟩ <;> first | decide +kernel | rfl

/-- A state and operands that meet the hypotheses of clause 17 of ExpansionRows. -/
theorem wit_ExpansionRows_17 :
    ∃ c s a, Begun { op := 0x0509, need := 16, vf := false } c s a ∧ 88 < p8 c 0 + p8 c 1 := by
  refine ⟨adm ([87, 2] ++ zeros 6 ++ leBytes 8 0x7000), foldReady, _, begun_of (by decide +kernel) (by decide +kernel) (by decide +kernel) (by decide +kernel) (by decide +kernel), ?_⟩ <;> first | decide +kernel | rfl

/-- A state and operands that meet the hypotheses of clause 2 of ExpansionRows. -/
theorem wit_ExpansionRows_2 :
    ∃ (s : State) (r : Requester) (d cls e : Nat) (dest : ExpandDest) (q : Option (Nat × Nat)) (p : Place) (x : Nat), locate s d = some (p, e) ∧ x = expanderOf s p.tier p.chan ∧ (expOf s x).queue.length < 48 := by
  refine ⟨foldReady, .admin, slotDpa, 1, 0x0F09, .memory 0x8000, none, placeIn foldReady .fast 0x0F09 slotDpa, _, ?_, rfl, ?_⟩ <;> first | decide +kernel | (intro p n h; cases h) | rfl | exact .inl (by decide +kernel) | exact .inr (by decide +kernel) | (intro h; exact absurd h (by decide +kernel))

/-- A state and operands that meet the hypotheses of clause 7 of ExpansionRows. -/
theorem wit_ExpansionRows_7 :
    ∃ (s u : State) (x n : Nat) (b : Block) (r : ExpandReq) (f : FoldInfo), (expOf s x).filling.length < 32 ∧ (expOf s x).queue.find? (fun b => !blockHeld s b) = some b ∧ mfind s.fold.reqs b.req = some r ∧ foldInfo s b.dpa = some f ∧ n = ratioGranules f.ratio ∧ u = setExp s x { expOf s x with queue := (expOf s x).queue.erase b } := by
  refine ⟨expQueued 0 { queue := [blk] }, _, 0, _, blk, { req := .part 0, dest := .memory 0x8000, left := 1, delivered := 0, status := 0, cls := 1, statusAt := 0, queue := none }, _, ?_, ?_, ?_, rfl, rfl, rfl⟩ <;> first | decide +kernel | (intro p n h; cases h) | rfl | exact .inl (by decide +kernel) | exact .inr (by decide +kernel) | (intro h; exact absurd h (by decide +kernel))

def expReq (left : Nat) (st : BitVec 16) : ExpandReq :=
  { req := .core 0 0, dest := .scratch 0 0, left := left, delivered := 0, status := st, cls := 1, statusAt := 0, queue := none }

/-- A state and operands that meet the hypotheses of clause 8 of ExpansionRows. -/
theorem wit_ExpansionRows_8 :
    ∃ (s w : State) (x st wst : Nat) (b : Block) (r : ExpandReq) (tile : List Byte), mfind s.fold.reqs b.req = some r ∧ 2 ≤ r.left ∧ deliver s r x b.index (if st = St.ok then tile else zeros 4096) (st != St.ok) = (wst, w) := by
  refine ⟨{ foldReady with fold.reqs := [(1, expReq 2 0)] }, _, 0, 0, _, blk, expReq 2 0, zeros 4096, ?_, ?_, eta_pair _⟩ <;> first | decide +kernel | (intro p n h; cases h) | rfl | exact .inl (by decide +kernel) | exact .inr (by decide +kernel) | (intro h; exact absurd h (by decide +kernel))

/-- A state and operands that meet the hypotheses of clause 9 of ExpansionRows. -/
theorem wit_ExpansionRows_9 :
    ∃ (s : State) (x : Nat), (32 ≤ (expOf s x).filling.length ∨ (expOf s x).queue.all (blockHeld s) = true) := by
  refine ⟨expQueued 0 {}, 0, ?_⟩ <;> first | decide +kernel | (intro p n h; cases h) | rfl | exact .inl (by decide +kernel) | exact .inr (by decide +kernel) | (intro h; exact absurd h (by decide +kernel))

/-- A state and operands that meet the hypotheses of clause 11 of ExpansionRows. -/
theorem wit_ExpansionRows_11 :
    ∃ (s v : State) (x : Nat) (l : Lane) (r : List Lane) (t : List Byte), (expOf s x).filling = l :: r ∧ fetchBasis (setExp s x { expOf s x with filling := r }) l.dpa = (some t, v) := by
  refine ⟨expQueued 0 { filling := [lane3] }, (fetchBasis filled 0x1000).2, 0, lane3, [], table3, ?_, fetch_pair⟩ <;> first | decide +kernel | (intro p n h; cases h) | rfl | exact .inl (by decide +kernel) | exact .inr (by decide +kernel) | (intro h; exact absurd h (by decide +kernel))

/-- A state and operands that meet the hypotheses of clause 12 of ExpansionRows. -/
theorem wit_ExpansionRows_12 :
    ∃ (s v : State) (x : Nat) (l : Lane) (r : List Lane) (q : ExpandReq), (expOf s x).filling = l :: r ∧ fetchBasis (setExp s x { expOf s x with filling := r }) l.dpa = (none, v) ∧ mfind v.fold.reqs l.block.req = some q := by
  refine ⟨expQueued 0 { filling := [{ lane3 with dpa := 2 ^ 45 }] }, _, 0, { lane3 with dpa := 2 ^ 45 }, [], { req := .part 0, dest := .memory 0x8000, left := 1, delivered := 0, status := 0, cls := 1, statusAt := 0, queue := none }, ?_, Prod.ext (by decide +kernel) rfl, ?_⟩ <;> first | decide +kernel | (intro p n h; cases h) | rfl | exact .inl (by decide +kernel) | exact .inr (by decide +kernel) | (intro h; exact absurd h (by decide +kernel))

/-- Core 0 runs queue 0 of partition 0 with x5 holding an address. -/
def coreReady (c : Core) : State :=
  { memReady with cpu := { memReady.cpu with map := [0], cores := [(0, { c with run := .running, job := some (0, 0) })] } }

def at5 (v : Nat) : Core := { x := [(5, BitVec.ofNat 64 v)] }

def flds (a b c i : Nat) : Fields := { a := BitVec.ofNat 6 a, b := BitVec.ofNat 6 b, c := BitVec.ofNat 6 c, imm := BitVec.ofNat 38 i }

def waiting5 : CoreWait := { reg := 5, tally := 0, target := 1, eq := false, deadline := none }

theorem issues_of {s : State} {n : Nat} {w : BitVec 64} {r : List Nat} {l : List (Nat × Nat)} (h1 : n < coreCount s)
    (h2 : canIssue (coreOf s n) r = true) (h3 : fetches (coreOf s n) w = true) (h4 : readsReady (coreOf s n) l = true) : Issues s n w r l :=
  ⟨h1, h2, h3, h4⟩

/-- A state and operands that meet the hypotheses of clause 3 of ScalarRows. -/
theorem wit_ScalarRows_3 :
    ∃ (s t : State) (n : Nat) (f : Fields) (i : Instr), i ∈ [.add n f, .sub n f, .mul n f, .and n f, .or n f, .xor n f, .shl n f, .shr n f, .sra n f, .li n f] ∧ exec i s = .next t := by
  refine ⟨coreReady (at5 9), scalarOp 0 0 (flds 3 5 5 2) (coreReady (at5 9)) (fun b c i => b + c + i), 0, flds 3 5 5 2, .add 0 (flds 3 5 5 2), List.Mem.head _, rfl⟩

/-- A state and operands that meet the hypotheses of clause 4 of ScalarRows. -/
theorem wit_ScalarRows_4 :
    ∃ (s : State) (n : Nat) (f : Fields), (coreOf s n).run ≠ .running := by
  refine ⟨memReady, 0, flds 1 2 3 0, ?_⟩ <;> first | decide +kernel | rfl

/-- A state and operands that meet the hypotheses of clause 5 of ScalarRows. -/
theorem wit_ScalarRows_5 :
    ∃ (s : State) (n : Nat) (f : Fields) (w : CoreWait), (coreOf s n).twait = some w ∧ w.reg = f.b := by
  refine ⟨coreReady { at5 9 with twait := some waiting5 }, 0, flds 3 5 5 2, waiting5, ?_, ?_⟩ <;> first | decide +kernel | rfl

/-- A state and operands that meet the hypotheses of clause 6 of ScalarRows. -/
theorem wit_ScalarRows_6 :
    ∃ (s : State) (n a : Nat) (f : Fields), a = spadAddr (coreOf s n) f ∧ Issues s n (wordOf 0x0A f) [fA f, fB f] [(a, 8)] ∧ a % 8 = 0 ∧ a + 8 ≤ spadSize ∧ spadPoisoned (coreOf s n) a 8 = false := by
  refine ⟨coreReady (at5 0x100), 0, _, flds 3 5 0 8, rfl, issues_of (by decide +kernel) (by decide +kernel) (by decide +kernel) (by decide +kernel), ?_, ?_, ?_⟩ <;> first | decide +kernel | rfl | exact .inl (by decide +kernel) | exact .inr (by decide +kernel) | (intro h; exact absurd h (by decide +kernel))

/-- A state and operands that meet the hypotheses of clause 7 of ScalarRows. -/
theorem wit_ScalarRows_7 :
    ∃ (s : State) (n a : Nat) (f : Fields), a = spadAddr (coreOf s n) f ∧ Issues s n (wordOf 0x0A f) [fA f, fB f] [(a, 8)] ∧ a % 8 = 0 ∧ a + 8 ≤ spadSize ∧ spadPoisoned (coreOf s n) a 8 = true := by
  refine ⟨coreReady { at5 0x100 with spoison := [(4, true)] }, 0, _, flds 3 5 0 8, rfl, issues_of (by decide +kernel) (by decide +kernel) (by decide +kernel) (by decide +kernel), ?_, ?_, ?_⟩ <;> first | decide +kernel | rfl | exact .inl (by decide +kernel) | exact .inr (by decide +kernel) | (intro h; exact absurd h (by decide +kernel))

/-- A state and operands that meet the hypotheses of clause 8 of ScalarRows. -/
theorem wit_ScalarRows_8 :
    ∃ (s : State) (n a : Nat) (f : Fields), a = spadAddr (coreOf s n) f ∧ Issues s n (wordOf 0x0A f) [fA f, fB f] [(a, 8)] ∧ a % 8 ≠ 0 := by
  refine ⟨coreReady (at5 0x101), 0, _, flds 3 5 0 8, rfl, issues_of (by decide +kernel) (by decide +kernel) (by decide +kernel) (by decide +kernel), ?_⟩ <;> first | decide +kernel | rfl | exact .inl (by decide +kernel) | exact .inr (by decide +kernel) | (intro h; exact absurd h (by decide +kernel))

/-- A state and operands that meet the hypotheses of clause 9 of ScalarRows. -/
theorem wit_ScalarRows_9 :
    ∃ (s : State) (n a : Nat) (f : Fields), a = spadAddr (coreOf s n) f ∧ Issues s n (wordOf 0x0A f) [fA f, fB f] [(a, 8)] ∧ a % 8 = 0 ∧ spadSize < a + 8 := by
  refine ⟨coreReady (at5 0x180000), 0, _, flds 3 5 0 0, rfl, issues_of (by decide +kernel) (by decide +kernel) (by decide +kernel) (by decide +kernel), ?_, ?_⟩ <;> first | decide +kernel | rfl | exact .inl (by decide +kernel) | exact .inr (by decide +kernel) | (intro h; exact absurd h (by decide +kernel))

/-- A state and operands that meet the hypotheses of clause 10 of ScalarRows. -/
theorem wit_ScalarRows_10 :
    ∃ (s : State) (n a : Nat) (f : Fields), a = spadAddr (coreOf s n) f ∧ Issues s n (wordOf 0x0B f) [fA f, fB f] [] ∧ MayWrite s n a 8 ∧ a % 8 = 0 ∧ a + 8 ≤ spadSize := by
  refine ⟨coreReady (at5 0x100), 0, _, flds 5 5 0 8, rfl, issues_of (by decide +kernel) (by decide +kernel) (by decide +kernel) (by decide +kernel), (show pageUnread _ _ _ = false by decide +kernel), ?_, ?_⟩ <;> first | decide +kernel | rfl | exact .inl (by decide +kernel) | exact .inr (by decide +kernel) | (intro h; exact absurd h (by decide +kernel))

/-- A state and operands that meet the hypotheses of clause 13 of ScalarRows. -/
theorem wit_ScalarRows_13 :
    ∃ (s : State) (n : Nat) (f : Fields), Issues s n (wordOf 0x0C f) [fB f, fC f] [] ∧ branchCond (fA f) (xget (coreOf s n) (fB f)) (xget (coreOf s n) (fC f)) = some false := by
  refine ⟨coreReady (at5 0x100), 0, flds 0 5 0 8, issues_of (by decide +kernel) (by decide +kernel) (by decide +kernel) (by decide +kernel), ?_⟩ <;> first | decide +kernel | rfl | exact .inl (by decide +kernel) | exact .inr (by decide +kernel) | (intro h; exact absurd h (by decide +kernel))

/-- A state and operands that meet the hypotheses of clause 14 of ScalarRows. -/
theorem wit_ScalarRows_14 :
    ∃ (s : State) (n : Nat) (f : Fields), Issues s n (wordOf 0x0C f) [fB f, fC f] [] ∧ branchCond (fA f) (xget (coreOf s n) (fB f)) (xget (coreOf s n) (fC f)) = some true := by
  refine ⟨coreReady { at5 0x100 with pc := 80 }, 0, flds 1 5 0 (2 ^ 38 - 2), issues_of (by decide +kernel) (by decide +kernel) (by decide +kernel) (by decide +kernel), ?_⟩ <;> first | decide +kernel | rfl | exact .inl (by decide +kernel) | exact .inr (by decide +kernel) | (intro h; exact absurd h (by decide +kernel))

/-- A state and operands that meet the hypotheses of clause 15 of ScalarRows. -/
theorem wit_ScalarRows_15 :
    ∃ (s : State) (n : Nat) (f : Fields), Issues s n (wordOf 0x0C f) [fB f, fC f] [] ∧ 7 ≤ fA f := by
  refine ⟨coreReady (at5 0x100), 0, flds 7 5 0 8, issues_of (by decide +kernel) (by decide +kernel) (by decide +kernel) (by decide +kernel), ?_⟩ <;> first | decide +kernel | rfl | exact .inl (by decide +kernel) | exact .inr (by decide +kernel) | (intro h; exact absurd h (by decide +kernel))

/-- A state and operands that meet the hypotheses of clause 16 of ScalarRows. -/
theorem wit_ScalarRows_16 :
    ∃ (s : State) (n : Nat) (f : Fields) (v : BitVec 64), Issues s n (wordOf 0x0D f) [fA f] [] ∧ special (issued s n) n (immBits f 3 0) = some v := by
  refine ⟨coreReady (at5 0x100), 0, flds 7 5 0 2, 0, issues_of (by decide +kernel) (by decide +kernel) (by decide +kernel) (by decide +kernel), ?_⟩ <;> first | decide +kernel | rfl | exact .inl (by decide +kernel) | exact .inr (by decide +kernel) | (intro h; exact absurd h (by decide +kernel))

/-- A state and operands that meet the hypotheses of clause 17 of ScalarRows. -/
theorem wit_ScalarRows_17 :
    ∃ (s : State) (n : Nat) (f : Fields), Issues s n (wordOf 0x0D f) [fA f] [] ∧ 5 ≤ immBits f 3 0 := by
  refine ⟨coreReady (at5 0x100), 0, flds 7 5 0 5, issues_of (by decide +kernel) (by decide +kernel) (by decide +kernel) (by decide +kernel), ?_⟩ <;> first | decide +kernel | rfl | exact .inl (by decide +kernel) | exact .inr (by decide +kernel) | (intro h; exact absurd h (by decide +kernel))

/-- Core 0 with x5 and x6. -/
def at56 (v w : Nat) : Core := { x := [(5, BitVec.ofNat 64 v), (6, BitVec.ofNat 64 w)] }

/-- A state and operands that meet the hypotheses of clause 1 of ScalarRows. -/
theorem wit_ScalarRows_1 :
    ∃ (s : State) (n k : Nat) (f : Fields) (b c i v : BitVec 64) (op : Instr), b = xget (coreOf s n) (fB f) ∧ c = xget (coreOf s n) (fC f) ∧ i = f.imm.signExtend 64 ∧ (k, op, v) ∈ [(0x00, .add n f, b + c + i), (0x01, .sub n f, b - c), (0x02, .mul n f, b * c), (0x03, .and n f, b &&& c), (0x04, .or n f, b ||| c), (0x05, .xor n f, b ^^^ c), (0x06, .shl n f, b <<< ((c + i).toNat % 64)), (0x07, .shr n f, b >>> ((c + i).toNat % 64)), (0x08, .sra n f, b.sshiftRight ((c + i).toNat % 64)), (0x09, .li n f, i)] ∧ Issues s n (wordOf k f) [fA f, fB f, fC f] [] := by
  refine ⟨coreReady (at56 9 7), 0, 0, flds 5 5 6 2, _, _, _, _, _, rfl, rfl, rfl, List.Mem.head _, issues_of (by decide +kernel) (by decide +kernel) (by decide +kernel) (by decide +kernel)⟩

/-- A state and operands that meet the hypotheses of clause 11 of ScalarRows. -/
theorem wit_ScalarRows_11 :
    ∃ (s : State) (n a : Nat) (f : Fields), a = spadAddr (coreOf s n) f ∧ Issues s n (wordOf 0x0B f) [fA f, fB f] [] ∧ MayWrite s n a 8 ∧ a % 8 ≠ 0 := by
  refine ⟨coreReady (at5 0x101), 0, _, flds 5 5 0 8, rfl, issues_of (by decide +kernel) (by decide +kernel) (by decide +kernel) (by decide +kernel), (show pageUnread _ _ _ = false by decide +kernel), ?_⟩ <;> first | decide +kernel | (intro p n h; cases h) | rfl | exact .inl (by decide +kernel) | exact .inr (by decide +kernel) | (intro h; exact absurd h (by decide +kernel))

/-- A state and operands that meet the hypotheses of clause 12 of ScalarRows. -/
theorem wit_ScalarRows_12 :
    ∃ (s : State) (n a : Nat) (f : Fields), a = spadAddr (coreOf s n) f ∧ Issues s n (wordOf 0x0B f) [fA f, fB f] [] ∧ MayWrite s n a 8 ∧ a % 8 = 0 ∧ spadSize < a + 8 := by
  refine ⟨coreReady (at5 0x180000), 0, _, flds 5 5 0 8, rfl, issues_of (by decide +kernel) (by decide +kernel) (by decide +kernel) (by decide +kernel), (show pageUnread _ _ _ = false by decide +kernel), ?_, ?_⟩ <;> first | decide +kernel | (intro p n h; cases h) | rfl | exact .inl (by decide +kernel) | exact .inr (by decide +kernel) | (intro h; exact absurd h (by decide +kernel))

/-- A state and operands that meet the hypotheses of clause 18 of ScalarRows. -/
theorem wit_ScalarRows_18 :
    ∃ (s : State) (n : Nat) (f : Fields), Issues s n (wordOf 0x0E f) [] [] := by
  refine ⟨coreReady (at5 9), 0, flds 0 0 0 0, issues_of (by decide +kernel) (by decide +kernel) (by decide +kernel) (by decide +kernel)⟩

/-- A state and operands that meet the hypotheses of clause 19 of ScalarRows. -/
theorem wit_ScalarRows_19 :
    ∃ (s : State) (n : Nat) (w : BitVec 64), Issues s n w [] [] ∧ majorListed (w.toNat / 2 ^ 56) = false := by
  refine ⟨coreReady (at5 9), 0, 0x0F00000000000000, issues_of (by decide +kernel) (by decide +kernel) (by decide +kernel) (by decide +kernel), ?_⟩ <;> first | decide +kernel | (intro p n h; cases h) | rfl | exact .inl (by decide +kernel) | exact .inr (by decide +kernel) | (intro h; exact absurd h (by decide +kernel))

/-- A state and operands that meet the hypotheses of clause 20 of ScalarRows. -/
theorem wit_ScalarRows_20 :
    ∃ (s : State) (n : Nat) (w : BitVec 64), majorListed (w.toNat / 2 ^ 56) = true := by
  refine ⟨coreReady (at5 9), 0, 0x0E00000000000000, ?_⟩ <;> first | decide +kernel | (intro p n h; cases h) | rfl | exact .inl (by decide +kernel) | exact .inr (by decide +kernel) | (intro h; exact absurd h (by decide +kernel))

/-- A state and operands that meet the hypotheses of clause 3 of VectorRows. -/
theorem wit_VectorRows_3 :
    ∃ (s : State) (n : Nat) (f : Fields), Issues s n (wordOf 0x49 f) [fB f] [] ∧ fA f < 32 := by
  refine ⟨coreReady (at5 9), 0, flds 2 5 1 0, issues_of (by decide +kernel) (by decide +kernel) (by decide +kernel) (by decide +kernel), ?_⟩ <;> first | decide +kernel | rfl | exact .inl (by decide +kernel) | exact .inr (by decide +kernel) | (intro h; exact absurd h (by decide +kernel))

/-- A state and operands that meet the hypotheses of clause 4 of VectorRows. -/
theorem wit_VectorRows_4 :
    ∃ (s : State) (n : Nat) (f : Fields) (b : List (BitVec 32)), Issues s n (wordOf 0x4E f) [] [] ∧ fA f < 32 ∧ fB f < 32 ∧ fC f < 32 ∧ b = vget (coreOf s n) (fB f) := by
  refine ⟨coreReady { v := [(1, List.replicate 64 3)] }, 0, flds 2 1 1 0, _, issues_of (by decide +kernel) (by decide +kernel) (by decide +kernel) (by decide +kernel), ?_, ?_, ?_, rfl⟩ <;> first | decide +kernel | rfl | exact .inl (by decide +kernel) | exact .inr (by decide +kernel) | (intro h; exact absurd h (by decide +kernel))

/-- A state and operands that meet the hypotheses of clause 6 of VectorRows. -/
theorem wit_VectorRows_6 :
    ∃ (s : State) (n a : Nat) (f : Fields), a = spadAddr (coreOf s n) f ∧ Issues s n (wordOf 0x4A f) [fB f] [(a, 256)] ∧ fA f < 32 ∧ a % 256 = 0 ∧ a + 256 ≤ spadSize ∧ spadPoisoned (coreOf s n) a 256 = false := by
  refine ⟨coreReady (at5 0x100), 0, _, flds 3 5 0 256, rfl, issues_of (by decide +kernel) (by decide +kernel) (by decide +kernel) (by decide +kernel), ?_, ?_, ?_, ?_⟩ <;> first | decide +kernel | rfl | exact .inl (by decide +kernel) | exact .inr (by decide +kernel) | (intro h; exact absurd h (by decide +kernel))

/-- A state and operands that meet the hypotheses of clause 7 of VectorRows. -/
theorem wit_VectorRows_7 :
    ∃ (s : State) (n a : Nat) (f : Fields), a = spadAddr (coreOf s n) f ∧ Issues s n (wordOf 0x4B f) [fB f] [] ∧ MayWrite s n a 256 ∧ fA f < 32 ∧ a % 256 = 0 ∧ a + 256 ≤ spadSize := by
  refine ⟨coreReady (at5 0x100), 0, _, flds 3 5 0 256, rfl, issues_of (by decide +kernel) (by decide +kernel) (by decide +kernel) (by decide +kernel), (show pageUnread _ _ _ = false by decide +kernel), ?_, ?_, ?_⟩ <;> first | decide +kernel | rfl | exact .inl (by decide +kernel) | exact .inr (by decide +kernel) | (intro h; exact absurd h (by decide +kernel))

/-- A state and operands that meet the hypotheses of clause 8 of VectorRows. -/
theorem wit_VectorRows_8 :
    ∃ (s : State) (n a : Nat) (f : Fields), a = spadAddr (coreOf s n) f ∧ Issues s n (wordOf 0x4A f) [fB f] [(a, 256)] ∧ fA f < 32 ∧ a % 256 ≠ 0 := by
  refine ⟨coreReady (at5 0x100), 0, _, flds 3 5 0 8, rfl, issues_of (by decide +kernel) (by decide +kernel) (by decide +kernel) (by decide +kernel), ?_, ?_⟩ <;> first | decide +kernel | rfl | exact .inl (by decide +kernel) | exact .inr (by decide +kernel) | (intro h; exact absurd h (by decide +kernel))

/-- A state and operands that meet the hypotheses of clause 10 of VectorRows. -/
theorem wit_VectorRows_10 :
    ∃ (s : State) (n w : Nat) (f : Fields) (g : Nat → Nat) (l : List Byte), Issues s n (wordOf 0x4C f) [] [] ∧ fA f < 32 ∧ fB f < 32 ∧ vcvtTo (immBits f 3 0) = some (w, g) ∧ l = ((vget (coreOf s n) (fB f)).map (fun v => leBytes (w / 8) (g v.toNat))).flatten := by
  refine ⟨coreReady { v := [(1, List.replicate 64 0x3F800000)] }, 0, 16, flds 2 1 1 1, (fun v => convertOut bf16 v), _, issues_of (by decide +kernel) (by decide +kernel) (by decide +kernel) (by decide +kernel), ?_, ?_, ?_, rfl⟩ <;> first | decide +kernel | rfl | exact .inl (by decide +kernel) | exact .inr (by decide +kernel) | (intro h; exact absurd h (by decide +kernel))

/-- A state and operands that meet the hypotheses of clause 11 of VectorRows. -/
theorem wit_VectorRows_11 :
    ∃ (s : State) (n : Nat) (f : Fields), Issues s n (wordOf 0x4C f) [] [] ∧ fA f < 32 ∧ fB f < 32 ∧ 6 ≤ immBits f 3 0 := by
  refine ⟨coreReady {}, 0, flds 2 1 1 6, issues_of (by decide +kernel) (by decide +kernel) (by decide +kernel) (by decide +kernel), ?_, ?_, ?_⟩ <;> first | decide +kernel | rfl | exact .inl (by decide +kernel) | exact .inr (by decide +kernel) | (intro h; exact absurd h (by decide +kernel))

/-- A state and operands that meet the hypotheses of clause 12 of VectorRows. -/
theorem wit_VectorRows_12 :
    ∃ (s : State) (n : Nat) (f : Fields), Issues s n (wordOf 0x4D f) [fA f] [] ∧ fB f < 32 ∧ fA f ≠ 0 := by
  refine ⟨coreReady { v := [(1, List.replicate 64 0x3F800000)] }, 0, flds 2 1 1 0, issues_of (by decide +kernel) (by decide +kernel) (by decide +kernel) (by decide +kernel), ?_, ?_⟩ <;> first | decide +kernel | rfl | exact .inl (by decide +kernel) | exact .inr (by decide +kernel) | (intro h; exact absurd h (by decide +kernel))

/-- A state and operands that meet the hypotheses of clause 14 of VectorRows. -/
theorem wit_VectorRows_14 :
    ∃ (s : State) (n k a b : Nat) (f : Fields), k = immBits f 3 0 ∧ a = (xget (coreOf s n) (fB f)).toNat ∧ b = (xget (coreOf s n) (fC f)).toNat ∧ Issues s n (wordOf 0x80 f) [fB f, fC f] [(a, mmaSpan k), (b, mmaSpan (immBits f 7 4))] ∧ fA f < 4 ∧ k ≤ 7 ∧ mmaK (immBits f 7 4) = mmaK k ∧ a + mmaSpan k ≤ spadSize ∧ b + mmaSpan (immBits f 7 4) ≤ spadSize ∧ spadPoisoned (coreOf s n) a (mmaSpan k) = false ∧ spadPoisoned (coreOf s n) b (mmaSpan (immBits f 7 4)) = false := by
  refine ⟨coreReady (at5 0x400), 0, _, _, _, flds 1 5 5 0x100, rfl, rfl, rfl, issues_of (by decide +kernel) (by decide +kernel) (by decide +kernel) (by decide +kernel), ?_, ?_, ?_, ?_, ?_, ?_, ?_⟩ <;> first | decide +kernel | rfl | exact .inl (by decide +kernel) | exact .inr (by decide +kernel) | (intro h; exact absurd h (by decide +kernel))

/-- A state and operands that meet the hypotheses of clause 16 of VectorRows. -/
theorem wit_VectorRows_16 :
    ∃ (s : State) (n a : Nat) (f : Fields) (l : List Byte), Issues s n (wordOf 0x81 f) [fB f] [] ∧ fA f < 4 ∧ a = (xget (coreOf s n) (fB f)).toNat ∧ l = mmastBytes (immBits f 1 0) (aget (coreOf s n) (fA f)) ∧ MayWrite s n a l.length ∧ a + l.length ≤ spadSize := by
  refine ⟨coreReady (at5 0x400), 0, _, flds 1 5 5 2, _, issues_of (by decide +kernel) (by decide +kernel) (by decide +kernel) (by decide +kernel), ?_, rfl, rfl, (show pageUnread _ _ _ = false by decide +kernel), ?_⟩ <;> first | decide +kernel | rfl | exact .inl (by decide +kernel) | exact .inr (by decide +kernel) | (intro h; exact absurd h (by decide +kernel))

/-- A state and operands that meet the hypotheses of clause 1 of VectorRows. -/
theorem wit_VectorRows_1 :
    ∃ (s : State) (n k : Nat) (f : Fields) (b c a : Nat → Nat) (op : Instr) (g : Nat → Nat), fA f < 32 ∧ fB f < 32 ∧ fC f < 32 ∧ b = (fun i => ((vget (coreOf s n) (fB f)).getD i 0).toNat) ∧ c = (fun i => ((vget (coreOf s n) (fC f)).getD i 0).toNat) ∧ a = (fun i => ((vget (coreOf s n) (fA f)).getD i 0).toNat) ∧ (k, op, g) ∈ [(0x40, .vadd n f, fun i => fadd fp32 (b i) (c i)), (0x41, .vsub n f, fun i => fsub fp32 (b i) (c i)), (0x42, .vmul n f, fun i => fmul fp32 (b i) (c i)), (0x43, .vfma n f, fun i => ffma fp32 (b i) (c i) (a i)), (0x44, .vmax n f, fun i => fmax fp32 (b i) (c i)), (0x45, .vmin n f, fun i => fmin fp32 (b i) (c i))] ∧ Issues s n (wordOf k f) [] [] := by
  refine ⟨coreReady { v := [(1, List.replicate 64 0x3F800000)] }, 0, 0x40, flds 2 1 1 0, _, _, _, _, _, ?_, ?_, ?_, rfl, rfl, rfl, List.Mem.head _, issues_of (by decide +kernel) (by decide +kernel) (by decide +kernel) (by decide +kernel)⟩ <;> first | decide +kernel | (intro p n h; cases h) | rfl | exact .inl (by decide +kernel) | exact .inr (by decide +kernel) | (intro h; exact absurd h (by decide +kernel))

/-- A state and operands that meet the hypotheses of clause 2 of VectorRows. -/
theorem wit_VectorRows_2 :
    ∃ (s : State) (n k : Nat) (f : Fields) (op : Instr) (g : Nat → Nat), fA f < 32 ∧ fB f < 32 ∧ (k, op, g) ∈ [(0x46, .vexp2 n f, fexp2), (0x47, .vrcp n f, frcp), (0x48, .vrsqrt n f, frsqrt)] ∧ Issues s n (wordOf k f) [] [] := by
  refine ⟨coreReady { v := [(1, List.replicate 64 0x3F800000)] }, 0, 0x46, flds 2 1 1 0, _, _, ?_, ?_, List.Mem.head _, issues_of (by decide +kernel) (by decide +kernel) (by decide +kernel) (by decide +kernel)⟩ <;> first | decide +kernel | (intro p n h; cases h) | rfl | exact .inl (by decide +kernel) | exact .inr (by decide +kernel) | (intro h; exact absurd h (by decide +kernel))

/-- A state and operands that meet the hypotheses of clause 5 of VectorRows. -/
theorem wit_VectorRows_5 :
    ∃ (s : State) (n k r : Nat) (f : Fields) (regs vs : List Nat) (op : Instr), (k, op, regs, vs) ∈ [(0x40, .vadd n f, [], [fA f, fB f, fC f]), (0x41, .vsub n f, [], [fA f, fB f, fC f]), (0x42, .vmul n f, [], [fA f, fB f, fC f]), (0x43, .vfma n f, [], [fA f, fB f, fC f]), (0x44, .vmax n f, [], [fA f, fB f, fC f]), (0x45, .vmin n f, [], [fA f, fB f, fC f]), (0x46, .vexp2 n f, [], [fA f, fB f]), (0x47, .vrcp n f, [], [fA f, fB f]), (0x48, .vrsqrt n f, [], [fA f, fB f]), (0x49, .vdup n f, [fB f], [fA f]), (0x4B, .vst n f, [fB f], [fA f]), (0x4C, .vcvt n f, [], [fA f, fB f]), (0x4D, .vsum n f, [fA f], [fB f]), (0x4E, .vperm n f, [], [fA f, fB f, fC f])] ∧ Issues s n (wordOf k f) regs [] ∧ (coreOf s n).xwrs = [] ∧ r ∈ vs ∧ 32 ≤ r := by
  refine ⟨coreReady { v := [(1, List.replicate 64 0x3F800000)] }, 0, 0x40, 32, flds 32 1 1 0, _, _, _, List.Mem.head _, issues_of (by decide +kernel) (by decide +kernel) (by decide +kernel) (by decide +kernel), ?_, ?_, ?_⟩ <;> first | decide +kernel | (intro p n h; cases h) | rfl | exact .inl (by decide +kernel) | exact .inr (by decide +kernel) | (intro h; exact absurd h (by decide +kernel))

/-- A state and operands that meet the hypotheses of clause 9 of VectorRows. -/
theorem wit_VectorRows_9 :
    ∃ (s : State) (n a : Nat) (f : Fields), a = spadAddr (coreOf s n) f ∧ Issues s n (wordOf 0x4B f) [fB f] [] ∧ MayWrite s n a 256 ∧ fA f < 32 ∧ a % 256 ≠ 0 := by
  refine ⟨coreReady (at5 0x108), 0, _, flds 3 5 0 0, rfl, issues_of (by decide +kernel) (by decide +kernel) (by decide +kernel) (by decide +kernel), (show pageUnread _ _ _ = false by decide +kernel), ?_, ?_⟩ <;> first | decide +kernel | (intro p n h; cases h) | rfl | exact .inl (by decide +kernel) | exact .inr (by decide +kernel) | (intro h; exact absurd h (by decide +kernel))

/-- A state and operands that meet the hypotheses of clause 13 of VectorRows. -/
theorem wit_VectorRows_13 :
    ∃ (s : State) (n : Nat) (f : Fields), Issues s n (wordOf 0x4D f) [fA f] [] ∧ fB f < 32 ∧ fA f = 0 := by
  refine ⟨coreReady { v := [(1, List.replicate 64 0x3F800000)] }, 0, flds 0 1 0 0, issues_of (by decide +kernel) (by decide +kernel) (by decide +kernel) (by decide +kernel), ?_, ?_⟩ <;> first | decide +kernel | (intro p n h; cases h) | rfl | exact .inl (by decide +kernel) | exact .inr (by decide +kernel) | (intro h; exact absurd h (by decide +kernel))

/-- A state and operands that meet the hypotheses of clause 15 of VectorRows. -/
theorem wit_VectorRows_15 :
    ∃ (s : State) (n : Nat) (f : Fields), Issues s n (wordOf 0x80 f) [fB f, fC f] [((xget (coreOf s n) (fB f)).toNat, mmaSpan (immBits f 3 0)), ((xget (coreOf s n) (fC f)).toNat, mmaSpan (immBits f 7 4))] ∧ (4 ≤ fA f ∨ mmaK (immBits f 3 0) = 0 ∨ mmaK (immBits f 3 0) ≠ mmaK (immBits f 7 4)) := by
  refine ⟨coreReady (at5 0x400), 0, flds 4 5 5 0x100, issues_of (by decide +kernel) (by decide +kernel) (by decide +kernel) (by decide +kernel), ?_⟩ <;> first | decide +kernel | (intro p n h; cases h) | rfl | exact .inl (by decide +kernel) | exact .inr (by decide +kernel) | (intro h; exact absurd h (by decide +kernel))

/-- Partition 0's ledger 0 with descriptors. -/
def ledgerReady (c : Core) (l : List Desc) (sealed : Bool) : State :=
  { coreReady c with cpu := { (coreReady c).cpu with parts := [(0, { mask := 1, ledgers := [(0, { configured := true, sealed := sealed, descs := l })] })] } }

def desc9 : Desc := { place := 0, bytes := List.replicate 32 9 }

/-- Core 0 and a folded region behind it. -/
def foldCore (c : Core) : State :=
  { foldReady with cpu := { foldReady.cpu with map := [0], cores := [(0, { c with run := .running, job := some (0, 0) })] } }

/-- A basis without columns: whatever the tile, every coefficient is 0. -/
def basis0 : Basis := { basis3 with cols := 0 }

def noCols : State := { foldCore (at56 8192 1065353216) with fold := { foldReady.fold with basis := [(3, basis0)] } }

def foldOut : List Byte := ((foldTile [] basis0 3 [] 1 1 1 0x3F800000).getD ([], 0)).1

theorem fetch_noCols : (fetchBasis (issued noCols 0) 0x1000).1 = some table3 := by
  have hq : (readBytes (readBytes (issued noCols 0) .admin 0x1000 64 0).2.2.2 .admin 0x1000
      (64 + 2 * fieldN (readBytes (issued noCols 0) .admin 0x1000 64 0).2.1 4 2 *
        fieldN (readBytes (issued noCols 0) .admin 0x1000 64 0).2.1 2 1) 0).2.1 = table3 := by
    decide +kernel
  rw [fetchBasis_eq]
  dsimp only
  rw [hq, if_pos ⟨by decide +kernel, by decide +kernel, by decide +kernel, table3_crc⟩]

def tally2 : Nat := 0x0F0200000080

def resetQuad0 (s : State) : State := { s with cpu := { s.cpu with resetting := [(0, true)] } }

def xfer0 (e : Option Nat) : Transfer := { dst := 0, src := 0, len := 64, cls := 1, expand := e }

def xexpReady (left : Nat) (st : BitVec 16) : State :=
  { coreReady { xfers := [xfer0 (some 1)] } with fold := { memReady.fold with reqs := [(1, expReq left st)] } }

def con9 : CoreContrib := { con := con0, fetching := true, at_ := 0x40, prior := some (List.replicate 64 9) }

def timed (d : Nat) : CoreWait := { reg := 5, tally := 2, target := 1, eq := false, deadline := some (BitVec.ofNat 64 d) }

theorem free_of {s : State} {n : Nat} (h1 : (coreOf s n).twait = none) (h2 : (coreOf s n).fence = false) (h3 : (coreOf s n).tsigs = []) :
    FabricFree s n := ⟨h1, h2, h3⟩

/-- A state and operands that meet the hypotheses of clause 1 of FabricRows. -/
theorem wit_FabricRows_1 :
    ∃ (s : State) (n a g len dpa : Nat) (f : Fields), Issues s n (wordOf 0xC0 f) [fA f, fB f, fC f] [] ∧ FabricFree s n ∧ a = (xget (coreOf s n) (fA f)).toNat ∧ g = (xget (coreOf s n) (fB f)).toNat ∧ len = (xget (coreOf s n) (fC f)).toNat ∧ MayWrite s n a len ∧ a % 64 = 0 ∧ g % 64 = 0 ∧ len % 64 = 0 ∧ a + len ≤ spadSize ∧ targetOf (issued s n) g = .here dpa := by
  refine ⟨coreReady (at56 64 128), 0, _, _, _, 128, flds 5 6 5 1, issues_of (by decide +kernel) (by decide +kernel) (by decide +kernel) (by decide +kernel), free_of (by decide +kernel) (by decide +kernel) (by decide +kernel), rfl, rfl, rfl, (show pageUnread _ _ _ = false by decide +kernel), ?_, ?_, ?_, ?_, ?_⟩ <;> first | decide +kernel | rfl | exact .inl (by decide +kernel) | exact .inr (by decide +kernel) | (intro h; exact absurd h (by decide +kernel))

/-- A state and operands that meet the hypotheses of clause 3 of FabricRows. -/
theorem wit_FabricRows_3 :
    ∃ (s : State) (n g a len dpa : Nat) (f : Fields), g = (xget (coreOf s n) (fA f)).toNat ∧ a = (xget (coreOf s n) (fB f)).toNat ∧ len = (xget (coreOf s n) (fC f)).toNat ∧ Issues s n (wordOf 0xC1 f) [fA f, fB f, fC f] [(a, len)] ∧ FabricFree s n ∧ a % 64 = 0 ∧ g % 64 = 0 ∧ len % 64 = 0 ∧ a + len ≤ spadSize ∧ targetOf (issued s n) g = .here dpa ∧ foldedRefusal (issued s n) dpa len = false := by
  refine ⟨coreReady (at56 64 128), 0, _, _, _, 128, flds 6 5 5 1, rfl, rfl, rfl, issues_of (by decide +kernel) (by decide +kernel) (by decide +kernel) (by decide +kernel), free_of (by decide +kernel) (by decide +kernel) (by decide +kernel), ?_, ?_, ?_, ?_, ?_, ?_⟩ <;> first | decide +kernel | rfl | exact .inl (by decide +kernel) | exact .inr (by decide +kernel) | (intro h; exact absurd h (by decide +kernel))

/-- A state and operands that meet the hypotheses of clause 5 of FabricRows. -/
theorem wit_FabricRows_5 :
    ∃ (s : State) (n g a len dpa : Nat) (f : Fields), g = (xget (coreOf s n) (fA f)).toNat ∧ a = (xget (coreOf s n) (fB f)).toNat ∧ len = (xget (coreOf s n) (fC f)).toNat ∧ Issues s n (wordOf 0xC1 f) [fA f, fB f, fC f] [(a, len)] ∧ FabricFree s n ∧ a % 64 = 0 ∧ g % 64 = 0 ∧ len % 64 = 0 ∧ a + len ≤ spadSize ∧ targetOf (issued s n) g = .here dpa ∧ foldedRefusal (issued s n) dpa len = true := by
  refine ⟨foldCore (at56 64 (2 ^ 30)), 0, _, _, _, 2 ^ 30, flds 6 5 5 1, rfl, rfl, rfl, issues_of (by decide +kernel) (by decide +kernel) (by decide +kernel) (by decide +kernel), free_of (by decide +kernel) (by decide +kernel) (by decide +kernel), ?_, ?_, ?_, ?_, ?_, ?_⟩ <;> first | decide +kernel | rfl | exact .inl (by decide +kernel) | exact .inr (by decide +kernel) | (intro h; exact absurd h (by decide +kernel))

/-- A state and operands that meet the hypotheses of clause 6 of FabricRows. -/
theorem wit_FabricRows_6 :
    ∃ (s : State) (n a d k : Nat) (f : Fields), Issues s n (wordOf 0xC2 f) [fA f, fB f, fC f] [] ∧ FabricFree s n ∧ a = (xget (coreOf s n) (fA f)).toNat ∧ d = (xget (coreOf s n) (fB f)).toNat ∧ k = (xget (coreOf s n) (fC f)).toNat ∧ MayWrite s n a (4096 * k) ∧ a % 64 = 0 ∧ d % 64 = 0 ∧ 1 ≤ k ∧ k ≤ 384 ∧ a + 4096 * k ≤ spadSize ∧ slotsStatus (issued s n) (coreRq (issued s n) n) d k = St.ok ∧ olderTouches (issued s n) (coreOf s n) (coreOf s n).seq none d (4096 * k) = false := by
  refine ⟨foldCore { x := [(5, 2 ^ 30), (6, 1)] }, 0, _, _, _, flds 7 5 6 1, issues_of (by decide +kernel) (by decide +kernel) (by decide +kernel) (by decide +kernel), free_of (by decide +kernel) (by decide +kernel) (by decide +kernel), rfl, rfl, rfl, (show pageUnread _ _ _ = false by decide +kernel), ?_, ?_, ?_, ?_, ?_, ?_, ?_⟩ <;> first | decide +kernel | rfl | exact .inl (by decide +kernel) | exact .inr (by decide +kernel) | (intro h; exact absurd h (by decide +kernel))

/-- A state and operands that meet the hypotheses of clause 7 of FabricRows. -/
theorem wit_FabricRows_7 :
    ∃ (s v : State) (n a b r : Nat) (f : Fields) (w : Basis) (t out : List Byte), a = (xget (coreOf s n) (fA f)).toNat ∧ b = (xget (coreOf s n) (fB f)).toNat ∧ Issues s n (wordOf 0xC3 f) [fA f, fB f, fC f] [(b, 4096)] ∧ FabricFree s n ∧ MayWrite s n a 4096 ∧ a % 64 = 0 ∧ b % 64 = 0 ∧ b + 4096 ≤ spadSize ∧ mfind (issued s n).fold.basis (immBits f 11 0) = some w ∧ immBits f 23 18 ≤ w.rank ∧ immBits f 17 16 ≤ 2 ∧ (fetchBasis (issued s n) w.dpa).1 = some t ∧ v = (fetchBasis (issued s n) w.dpa).2 ∧ foldTile (spadRead n (coreOf s n) b 4096) w (immBits f 11 0) t (immBits f 15 12) (immBits f 17 16) (immBits f 23 18) ((xget (coreOf s n) (fC f)).toNat % 2 ^ 32) = some (out, r) ∧ a + out.length ≤ spadSize := by
  refine ⟨noCols, _, 0, _, _, 1, flds 5 8 6 331779, basis0, table3, foldOut, rfl, rfl, issues_of (by decide +kernel) (by decide +kernel) (by decide +kernel) (by decide +kernel), free_of (by decide +kernel) (by decide +kernel) (by decide +kernel), (show pageUnread _ _ _ = false by decide +kernel), ?_, ?_, ?_, ?_, ?_, ?_, fetch_noCols, rfl, ?_, ?_⟩ <;> first | decide +kernel | (intro p n h; cases h) | rfl | exact .inl (by decide +kernel) | exact .inr (by decide +kernel) | (intro h; exact absurd h (by decide +kernel))

/-- A state and operands that meet the hypotheses of clause 8 of FabricRows. -/
theorem wit_FabricRows_8 :
    ∃ (s : State) (n a b : Nat) (f : Fields), a = (xget (coreOf s n) (fA f)).toNat ∧ b = (xget (coreOf s n) (fB f)).toNat ∧ Issues s n (wordOf 0xC3 f) [fA f, fB f, fC f] [(b, 4096)] ∧ FabricFree s n ∧ MayWrite s n a 4096 ∧ a % 64 = 0 ∧ b % 64 = 0 ∧ b + 4096 ≤ spadSize ∧ mfind (issued s n).fold.basis (immBits f 11 0) = none := by
  refine ⟨coreReady (at56 64 128), 0, _, _, flds 5 6 5 1, rfl, rfl, issues_of (by decide +kernel) (by decide +kernel) (by decide +kernel) (by decide +kernel), free_of (by decide +kernel) (by decide +kernel) (by decide +kernel), (show pageUnread _ _ _ = false by decide +kernel), ?_, ?_, ?_, ?_⟩ <;> first | decide +kernel | rfl | exact .inl (by decide +kernel) | exact .inr (by decide +kernel) | (intro h; exact absurd h (by decide +kernel))

/-- A state and operands that meet the hypotheses of clause 9 of FabricRows. -/
theorem wit_FabricRows_9 :
    ∃ (s : State) (n k g a : Nat) (f : Fields) (op : Instr) (b : Bool) (w : Contribution), g = (xget (coreOf s n) (fA f)).toNat ∧ a = (xget (coreOf s n) (fB f)).toNat ∧ (k, op, b) ∈ [(0xC4, .patom n f, false), (0xC5, .fatom n f, true)] ∧ Issues s n (wordOf k f) [fA f, fB f, fC f] [(a, 64)] ∧ FabricFree s n ∧ g % 64 = 0 ∧ a % 64 = 0 ∧ a + 64 ≤ spadSize ∧ immBits f 8 8 = 0 ∧ w = ⟨g, immBits f 7 0, (xget (coreOf s n) (fC f)).setWidth 32, spadRead n (coreOf s n) a 64, spadPoisoned (coreOf s n) a 64, none⟩ := by
  refine ⟨coreReady (at56 64 128), 0, _, _, _, flds 5 6 5 4, _, _, _, rfl, rfl, List.Mem.head _, issues_of (by decide +kernel) (by decide +kernel) (by decide +kernel) (by decide +kernel), free_of (by decide +kernel) (by decide +kernel) (by decide +kernel), ?_, ?_, ?_, ?_, rfl⟩ <;> first | decide +kernel | rfl | exact .inl (by decide +kernel) | exact .inr (by decide +kernel) | (intro h; exact absurd h (by decide +kernel))

/-- A state and operands that meet the hypotheses of clause 10 of FabricRows. -/
theorem wit_FabricRows_10 :
    ∃ (s : State) (n g a : Nat) (f : Fields), g = (xget (coreOf s n) (fA f)).toNat ∧ a = (xget (coreOf s n) (fB f)).toNat ∧ Issues s n (wordOf 0xC5 f) [fA f, fB f, fC f] [(a, 64)] ∧ FabricFree s n ∧ g % 64 = 0 ∧ a % 64 = 0 ∧ a + 64 ≤ spadSize ∧ immBits f 8 8 = 1 := by
  refine ⟨coreReady (at56 64 128), 0, _, _, flds 5 6 5 260, rfl, rfl, issues_of (by decide +kernel) (by decide +kernel) (by decide +kernel) (by decide +kernel), free_of (by decide +kernel) (by decide +kernel) (by decide +kernel), ?_, ?_, ?_, ?_⟩ <;> first | decide +kernel | rfl | exact .inl (by decide +kernel) | exact .inr (by decide +kernel) | (intro h; exact absurd h (by decide +kernel))

/-- A state and operands that meet the hypotheses of clause 11 of FabricRows. -/
theorem wit_FabricRows_11 :
    ∃ (s : State) (n : Nat) (f : Fields), Issues s n (wordOf 0xC6 f) [] [] ∧ FabricFree s n := by
  refine ⟨coreReady (at56 64 128), 0, flds 0 0 0 0, issues_of (by decide +kernel) (by decide +kernel) (by decide +kernel) (by decide +kernel), free_of (by decide +kernel) (by decide +kernel) (by decide +kernel)⟩

/-- A state and operands that meet the hypotheses of clause 12 of FabricRows. -/
theorem wit_FabricRows_12 :
    ∃ (s : State) (n g : Nat) (f : Fields), Issues s n (wordOf 0xC7 f) [fA f, fB f] [] ∧ FabricFree s n ∧ g = (xget (coreOf s n) (fA f)).toNat ∧ g % 64 = 0 := by
  refine ⟨coreReady (at56 64 tally2), 0, _, flds 6 5 0 1, issues_of (by decide +kernel) (by decide +kernel) (by decide +kernel) (by decide +kernel), free_of (by decide +kernel) (by decide +kernel) (by decide +kernel), rfl, ?_⟩ <;> first | decide +kernel | rfl | exact .inl (by decide +kernel) | exact .inr (by decide +kernel) | (intro h; exact absurd h (by decide +kernel))

/-- A state and operands that meet the hypotheses of clause 13 of FabricRows. -/
theorem wit_FabricRows_13 :
    ∃ (s : State) (n g d k : Nat) (f : Fields) (w : CoreWait), Issues s n (wordOf 0xC8 f) [fA f, fB f, fC f] [] ∧ FabricFree s n ∧ g = (xget (coreOf s n) (fB f)).toNat ∧ g % 64 = 0 ∧ targetOf (issued s n) g = .here d ∧ tallyAt d = some k ∧ underReset (issued s n) (tallyQuad k) = false ∧ w = { reg := f.a, tally := k, target := (xget (coreOf s n) (fC f)).setWidth 32, eq := immBits f 0 0 == 1, deadline := if immBits f 31 1 = 0 then none else some (BitVec.ofNat 64 (min (2 ^ 64 - 1) ((stamp s).toNat + immBits f 31 1))) } ∧ waitHolds (tallyGet s k) w.target w.eq = false := by
  refine ⟨coreReady (at56 64 tally2), 0, _, tally2, 2, flds 5 6 5 0, _, issues_of (by decide +kernel) (by decide +kernel) (by decide +kernel) (by decide +kernel), free_of (by decide +kernel) (by decide +kernel) (by decide +kernel), rfl, ?_, ?_, ?_, ?_, rfl, ?_⟩ <;> first | decide +kernel | (intro p n h; cases h) | rfl | exact .inl (by decide +kernel) | exact .inr (by decide +kernel) | (intro h; exact absurd h (by decide +kernel))

/-- A state and operands that meet the hypotheses of clause 14 of FabricRows. -/
theorem wit_FabricRows_14 :
    ∃ (s : State) (n g d k : Nat) (f : Fields), Issues s n (wordOf 0xC8 f) [fA f, fB f, fC f] [] ∧ FabricFree s n ∧ g = (xget (coreOf s n) (fB f)).toNat ∧ g % 64 = 0 ∧ targetOf (issued s n) g = .here d ∧ tallyAt d = some k ∧ underReset (issued s n) (tallyQuad k) = true := by
  refine ⟨resetQuad0 (coreReady (at56 64 tally2)), 0, _, tally2, 2, flds 5 6 5 0, issues_of (by decide +kernel) (by decide +kernel) (by decide +kernel) (by decide +kernel), free_of (by decide +kernel) (by decide +kernel) (by decide +kernel), rfl, ?_, ?_, ?_, ?_⟩ <;> first | decide +kernel | (intro p n h; cases h) | rfl | exact .inl (by decide +kernel) | exact .inr (by decide +kernel) | (intro h; exact absurd h (by decide +kernel))

/-- A state and operands that meet the hypotheses of clause 15 of FabricRows. -/
theorem wit_FabricRows_15 :
    ∃ (s : State) (n a p l : Nat) (f : Fields) (d : Desc), Issues s n (wordOf 0xC9 f) [fA f, fB f] [] ∧ FabricFree s n ∧ a = (xget (coreOf s n) (fB f)).toNat ∧ MayWrite s n a 32 ∧ a % 64 = 0 ∧ a + 32 ≤ spadSize ∧ corePart (issued s n) n = some p ∧ l = immBits f 2 0 ∧ (ledgerOf (issued s n) p l).configured = true ∧ claimDesc (ledgerOf (issued s n) p l).descs = some d := by
  refine ⟨ledgerReady (at56 64 tally2) [desc9] false, 0, _, 0, _, flds 6 5 0 0, desc9, issues_of (by decide +kernel) (by decide +kernel) (by decide +kernel) (by decide +kernel), free_of (by decide +kernel) (by decide +kernel) (by decide +kernel), rfl, (show pageUnread _ _ _ = false by decide +kernel), ?_, ?_, ?_, rfl, ?_, ?_⟩ <;> first | decide +kernel | rfl | exact .inl (by decide +kernel) | exact .inr (by decide +kernel) | (intro h; exact absurd h (by decide +kernel))

/-- A state and operands that meet the hypotheses of clause 16 of FabricRows. -/
theorem wit_FabricRows_16 :
    ∃ (s : State) (n a p l : Nat) (f : Fields), Issues s n (wordOf 0xC9 f) [fA f, fB f] [] ∧ FabricFree s n ∧ a = (xget (coreOf s n) (fB f)).toNat ∧ MayWrite s n a 32 ∧ a % 64 = 0 ∧ a + 32 ≤ spadSize ∧ corePart (issued s n) n = some p ∧ l = immBits f 2 0 ∧ (ledgerOf (issued s n) p l).configured = true ∧ (ledgerOf (issued s n) p l).descs = [] := by
  refine ⟨ledgerReady (at56 64 tally2) [] true, 0, _, 0, _, flds 6 5 0 0, issues_of (by decide +kernel) (by decide +kernel) (by decide +kernel) (by decide +kernel), free_of (by decide +kernel) (by decide +kernel) (by decide +kernel), rfl, (show pageUnread _ _ _ = false by decide +kernel), ?_, ?_, ?_, rfl, ?_, ?_⟩ <;> first | decide +kernel | rfl | exact .inl (by decide +kernel) | exact .inr (by decide +kernel) | (intro h; exact absurd h (by decide +kernel))

/-- A state and operands that meet the hypotheses of clause 17 of FabricRows. -/
theorem wit_FabricRows_17 :
    ∃ (s : State) (n : Nat) (f : Fields), (coreOf s n).fence = true := by
  refine ⟨coreReady { fence := true }, 0, flds 6 5 0 0, ?_⟩ <;> first | decide +kernel | rfl

/-- A state and operands that meet the hypotheses of clause 2 of FabricRows. -/
theorem wit_FabricRows_2 :
    ∃ (s : State) (n a : Nat) (f : Fields), Issues s n (wordOf 0xC0 f) [fA f, fB f, fC f] [] ∧ FabricFree s n ∧ a = (xget (coreOf s n) (fA f)).toNat ∧ MayWrite s n a (xget (coreOf s n) (fC f)).toNat ∧ (a % 64 ≠ 0 ∨ (xget (coreOf s n) (fB f)).toNat % 64 ≠ 0 ∨ (xget (coreOf s n) (fC f)).toNat % 64 ≠ 0) := by
  refine ⟨coreReady (at56 65 128), 0, _, flds 5 6 5 1, issues_of (by decide +kernel) (by decide +kernel) (by decide +kernel) (by decide +kernel), free_of (by decide +kernel) (by decide +kernel) (by decide +kernel), rfl, (show pageUnread _ _ _ = false by decide +kernel), ?_⟩ <;> first | decide +kernel | (intro p n h; cases h) | rfl | exact .inl (by decide +kernel) | exact .inr (by decide +kernel) | (intro h; exact absurd h (by decide +kernel))

/-- A state and operands that meet the hypotheses of clause 4 of FabricRows. -/
theorem wit_FabricRows_4 :
    ∃ (c : Core) (n dpa a len k : Nat), c.stores = [] ∧ c.xwrs = [] ∧ len = 64 * k ∧ k ≤ 64 := by
  refine ⟨{}, 0, 0x40, 0, 128, 2, ?_, ?_, ?_, ?_⟩ <;> first | decide +kernel | (intro p n h; cases h) | rfl | exact .inl (by decide +kernel) | exact .inr (by decide +kernel) | (intro h; exact absurd h (by decide +kernel))

/-- A state and operands that meet the hypotheses of clause 1 of FabricEnds. -/
theorem wit_FabricEnds_1 :
    ∃ (s : State) (n : Nat), (coreOf s n).xfers = [] := by
  refine ⟨memReady, 0, ?_⟩ <;> first | decide +kernel | rfl

/-- A state and operands that meet the hypotheses of clause 2 of FabricEnds. -/
theorem wit_FabricEnds_2 :
    ∃ (s v : State) (n : Nat) (x : Transfer) (l : List (List Byte × Bool)), (coreOf s n).xfers = [x] ∧ x.expand = none ∧ x.remote = false ∧ olderTouches s (coreOf s n) x.seq none x.src x.len = false ∧ accessWaits s (coreRq s n) false x.src x.len x.cls = false ∧ (readGranules s (coreRq s n) x.src x.len x.cls).1 = St.ok ∧ l = (readGranules s (coreRq s n) x.src x.len x.cls).2.1 ∧ v = (readGranules s (coreRq s n) x.src x.len x.cls).2.2 ∧ (coreOf v n).xfers = [x] := by
  refine ⟨coreReady { xfers := [xfer0 none] }, _, 0, xfer0 none, _, ?_, ?_, ?_, ?_, ?_, ?_, rfl, rfl, ?_⟩ <;> first | decide +kernel | rfl | exact .inl (by decide +kernel) | exact .inr (by decide +kernel) | (intro h; exact absurd h (by decide +kernel))

/-- A state and operands that meet the hypotheses of clause 6 of FabricEnds. -/
theorem wit_FabricEnds_6 :
    ∃ (s : State) (n i : Nat) (x : Transfer) (r : ExpandReq), (coreOf s n).xfers = [x] ∧ x.expand = some i ∧ mfind s.fold.reqs i = some r ∧ r.left ≠ 0 := by
  refine ⟨xexpReady 1 0, 0, 1, xfer0 (some 1), expReq 1 0, ?_, ?_, ?_, ?_⟩ <;> first | decide +kernel | rfl

/-- A state and operands that meet the hypotheses of clause 7 of FabricEnds. -/
theorem wit_FabricEnds_7 :
    ∃ (s : State) (n i : Nat) (x : Transfer) (r : ExpandReq), (coreOf s n).xfers = [x] ∧ x.expand = some i ∧ mfind s.fold.reqs i = some r ∧ r.left = 0 ∧ r.status = 0 := by
  refine ⟨xexpReady 0 0, 0, 1, xfer0 (some 1), expReq 0 0, ?_, ?_, ?_, ?_, ?_⟩ <;> first | decide +kernel | rfl

/-- A state and operands that meet the hypotheses of clause 8 of FabricEnds. -/
theorem wit_FabricEnds_8 :
    ∃ (s : State) (n i : Nat) (x : Transfer) (r : ExpandReq), (coreOf s n).xfers = [x] ∧ x.expand = some i ∧ mfind s.fold.reqs i = some r ∧ r.left = 0 ∧ r.status.toNat = St.foldCheck ∧ (coreOf s n).run = .running := by
  refine ⟨xexpReady 0 (BitVec.ofNat 16 St.foldCheck), 0, 1, xfer0 (some 1), expReq 0 (BitVec.ofNat 16 St.foldCheck), ?_, ?_, ?_, ?_, ?_, ?_⟩ <;> first | decide +kernel | rfl | exact .inl (by decide +kernel) | exact .inr (by decide +kernel) | (intro h; exact absurd h (by decide +kernel))

/-- A state and operands that meet the hypotheses of clause 9 of FabricEnds. -/
theorem wit_FabricEnds_9 :
    ∃ (s : State) (n : Nat) (x : CoreContrib) (b : List Byte), (coreOf s n).contribs = [x] ∧ x.prior = some b := by
  refine ⟨coreReady { contribs := [con9] }, 0, con9, List.replicate 64 9, ?_, ?_⟩ <;> first | decide +kernel | rfl

/-- A state and operands that meet the hypotheses of clause 10 of FabricEnds. -/
theorem wit_FabricEnds_10 :
    ∃ (s : State) (n : Nat), (coreOf s n).contribs = [] := by
  refine ⟨memReady, 0, ?_⟩ <;> first | decide +kernel | rfl

/-- A state and operands that meet the hypotheses of clause 11 of FabricEnds. -/
theorem wit_FabricEnds_11 :
    ∃ (s : State) (n : Nat), (coreOf s n).fence = true ∧ coreQuiet s n = true := by
  refine ⟨coreReady { fence := true }, 0, ?_, ?_⟩ <;> first | decide +kernel | rfl

/-- A state and operands that meet the hypotheses of clause 12 of FabricEnds. -/
theorem wit_FabricEnds_12 :
    ∃ (s : State) (n : Nat), coreQuiet s n = false := by
  refine ⟨coreReady { contribs := [con9] }, 0, ?_⟩ <;> first | decide +kernel | rfl

/-- A state and operands that meet the hypotheses of clause 13 of FabricEnds. -/
theorem wit_FabricEnds_13 :
    ∃ (s : State) (n : Nat), coreQuiet s n = false := by
  refine ⟨coreReady { contribs := [con9] }, 0, ?_⟩ <;> first | decide +kernel | rfl

/-- A state and operands that meet the hypotheses of clause 14 of FabricEnds. -/
theorem wit_FabricEnds_14 :
    ∃ (s : State) (n g k : Nat) (v : BitVec 32) (b : Bool), (coreOf s n).tsigs = [(g, v, b)] ∧ coreQuiet s n = true ∧ targetOf s g = .here g ∧ tallyAt g = some k ∧ underReset s (tallyQuad k) = false := by
  refine ⟨coreReady { tsigs := [(tally2, 1, false)] }, 0, tally2, 2, 1, false, ?_, ?_, ?_, ?_, ?_⟩ <;> first | decide +kernel | rfl

/-- A state and operands that meet the hypotheses of clause 15 of FabricEnds. -/
theorem wit_FabricEnds_15 :
    ∃ (s : State) (n : Nat) (w : CoreWait) (d : Stamp), (coreOf s n).twait = some w ∧ w.deadline = some d ∧ d.toNat ≤ (stamp s).toNat := by
  refine ⟨coreReady { twait := some (timed 0) }, 0, timed 0, 0, ?_, ?_, ?_⟩ <;> first | decide +kernel | rfl

/-- A state and operands that meet the hypotheses of clause 16 of FabricEnds. -/
theorem wit_FabricEnds_16 :
    ∃ (s : State) (n : Nat) (w : CoreWait) (d : Stamp), (coreOf s n).twait = some w ∧ w.deadline = some d ∧ (stamp s).toNat < d.toNat := by
  refine ⟨coreReady { twait := some (timed (2 ^ 40)) }, 0, timed (2 ^ 40), BitVec.ofNat 64 (2 ^ 40), ?_, ?_, ?_⟩ <;> first | decide +kernel | rfl

/-- A state and operands that meet the hypotheses of clause 17 of FabricEnds. -/
theorem wit_FabricEnds_17 :
    ∃ (s : State) (n : Nat) (w : CoreWait) (r : Nat), r ≤ 1 ∧ w.reg ≠ 0 := by
  refine ⟨memReady, 0, timed 0, 1, ?_, ?_⟩ <;> first | decide +kernel | rfl

/-- A state and operands that meet the hypotheses of clause 18 of FabricEnds. -/
theorem wit_FabricEnds_18 :
    ∃ (s : State) (k : Nat) (v : BitVec 32), k < 16384 ∧ underReset s (tallyQuad k) = false ∧ s.cpu.waiters = [] ∧ s.cpu.cores.all (fun e => e.2.twait.isNone) = true := by
  refine ⟨coreReady {}, 2, 7, ?_, ?_, ?_, ?_⟩ <;> first | decide +kernel | rfl

/-- A state and operands that meet the hypotheses of clause 19 of FabricEnds. -/
theorem wit_FabricEnds_19 :
    ∃ (s : State) (k : Nat) (v : BitVec 32), k < 16384 ∧ underReset s (tallyQuad k) = false ∧ s.cpu.waiters = [] ∧ s.cpu.cores.all (fun e => e.2.twait.isNone) = true := by
  refine ⟨coreReady {}, 2, 7, ?_, ?_, ?_, ?_⟩ <;> first | decide +kernel | rfl

/-- A state and operands that meet the hypotheses of clause 20 of FabricEnds. -/
theorem wit_FabricEnds_20 :
    ∃ (s : State) (k : Nat) (v : BitVec 32), k < 16384 ∧ underReset s (tallyQuad k) = true := by
  refine ⟨resetQuad0 (coreReady {}), 2, 7, ?_, ?_⟩ <;> first | decide +kernel | rfl

/-- A state and operands that meet the hypotheses of clause 3 of FabricEnds. -/
theorem wit_FabricEnds_3 :
    ∃ (s v : State) (n st : Nat) (x : Transfer), (coreOf s n).xfers = [x] ∧ x.expand = none ∧ x.remote = false ∧ (coreOf s n).run = .running ∧ olderTouches s (coreOf s n) x.seq none x.src x.len = false ∧ accessWaits s (coreRq s n) false x.src x.len x.cls = false ∧ st = (readGranules s (coreRq s n) x.src x.len x.cls).1 ∧ st ≠ St.ok ∧ v = (readGranules s (coreRq s n) x.src x.len x.cls).2.2 ∧ coreOf v n = coreOf s n := by
  refine ⟨coreReady { xfers := [{ xfer0 none with src := 2 ^ 45 }] }, _, 0, _, { xfer0 none with src := 2 ^ 45 }, ?_, ?_, ?_, ?_, ?_, ?_, rfl, ?_, rfl, ?_⟩ <;> first | decide +kernel | (intro p n h; cases h) | rfl | exact .inl (by decide +kernel) | exact .inr (by decide +kernel) | (intro h; exact absurd h (by decide +kernel))

/-- A state and operands that meet the hypotheses of clause 4 of FabricEnds. -/
theorem wit_FabricEnds_4 :
    ∃ (s : State) (n : Nat) (x : Transfer), (coreOf s n).xfers = [x] ∧ x.expand = none ∧ x.remote = false ∧ (olderTouches s (coreOf s n) x.seq none x.src x.len = true ∨ accessWaits s (coreRq s n) false x.src x.len x.cls = true) := by
  refine ⟨setChan (coreReady { xfers := [xfer0 none] }) .fast 0 { retraining := true }, 0, xfer0 none, ?_, ?_, ?_, ?_⟩ <;> first | decide +kernel | (intro p n h; cases h) | rfl | exact .inl (by decide +kernel) | exact .inr (by decide +kernel) | (intro h; exact absurd h (by decide +kernel))

/-- A state and operands that meet the hypotheses of clause 5 of FabricEnds. -/
theorem wit_FabricEnds_5 :
    ∃ (s : State) (n : Nat) (x : Transfer), (coreOf s n).xfers = [x] ∧ x.expand = none ∧ x.remote = true ∧ s.duc.remotes = [] := by
  refine ⟨coreReady { xfers := [{ xfer0 none with remote := true }] }, 0, { xfer0 none with remote := true }, ?_, ?_, ?_, ?_⟩ <;> first | decide +kernel | (intro p n h; cases h) | rfl | exact .inl (by decide +kernel) | exact .inr (by decide +kernel) | (intro h; exact absurd h (by decide +kernel))

def cmdOf (b : List Byte) : CurCmd := { bytes := padTo 64 b, index := 0 }

def anyQuire (n : Nat) (own : Bool) : Quire := { dpa := 0, count := n, composer := own }

/-- Queue 3 of partition 0 with a command in progress, over one core. -/
def onQueue (c : CurCmd) (x : Queue) (core : Core) : State :=
  setQueue { memReady with cpu := { memReady.cpu with map := [0], cores := [(0, core)] } } 0 3 { x with cur := some c }

theorem inq_of {s : State} {p q k : Nat} {c : CurCmd} (h1 : (queueOf s p q).cur = some c) (h2 : qCode c.bytes = k) (h3 : c.begun = false)
    (h4 : c.status = none) (h5 : qClass c.bytes ≤ 3) : InQueue s p q k c := ⟨h1, h2, h3, h4, h5⟩

def kernelCmd (first : Nat) : CurCmd := cmdOf ([1, 0, 1] ++ zeros 5 ++ leBytes 8 0x1000 ++ leBytes 4 64 ++ leBytes 2 first ++ leBytes 2 1 ++ zeros 8 ++ [0xFF])

def copyCmd (n : Nat) : CurCmd := cmdOf ([2, 0, 1] ++ zeros 5 ++ leBytes 8 0x1000 ++ leBytes 8 0x2000 ++ leBytes 8 n)

def foldCopyCmd : CurCmd := cmdOf ([3, 0, 1] ++ zeros 5 ++ leBytes 8 slotDpa ++ leBytes 8 0x8000 ++ leBytes 4 1)

def reduceCmd : CurCmd := cmdOf ([4, 0, 1] ++ zeros 5 ++ leBytes 8 0x1000 ++ leBytes 8 0x2000 ++ leBytes 4 64 ++ [4])

def gatherResCmd : CurCmd := cmdOf ([5, 0, 1] ++ zeros 5 ++ leBytes 8 0x1000 ++ [1])

def tallyCmd (k : Byte) (lines : Nat) : CurCmd := cmdOf ([k, 0, 1] ++ zeros 5 ++ leBytes 8 tally2 ++ leBytes 4 1 ++ zeros 4 ++ leBytes 4 lines)

def markCmd (k : Byte) (m : Nat) : CurCmd := cmdOf ([k, 0, 1] ++ zeros 5 ++ leBytes 4 m)

def rangeOf (m : Nat) : OpenRange := { marker := BitVec.ofNat 32 m, user := 0, stamp := 0, base := [] }

def fillCmd : CurCmd := cmdOf ([12, 0, 1] ++ zeros 5 ++ [0, 0] ++ zeros 6 ++ leBytes 8 0x1000 ++ leBytes 4 1)

def onLedger (c : CurCmd) (l : Ledger) : State := setLedger (onQueue c {} {}) 0 0 l

def stepNo : RunStep := { no := 5, rows := [], confirm := 0, since := 0, tally := 2 }

/-- Step 5 of partition 0 in a stage. -/
def inStep (c : CurCmd) (r : RunStep) : State :=
  setComp (onQueue c { quires := [anyQuire 1 true] } {}) 0 { compOf memReady 0 with run := some r }

def stepRow (k : Byte) : CurCmd := cmdOf ([k, 0, 1] ++ zeros 5 ++ leBytes 4 5)

/-- A state and operands that meet the hypotheses of clause 1 of QuireRows. -/
theorem wit_QuireRows_1 :
    ∃ (s : State) (p q : Nat) (c : CurCmd) (l : List Nat), InQueue s p q 1 c ∧ 8 ≤ fieldN c.bytes 16 4 ∧ fieldN c.bytes 16 4 ≤ 65536 ∧ (fieldN c.bytes 32 1 ≤ 7 ∨ fieldN c.bytes 32 1 = 255) ∧ kernelCores s p c.bytes = some l := by
  refine ⟨onQueue (kernelCmd 0) {} {}, 0, 3, kernelCmd 0, [0], inq_of (by decide +kernel) (by decide +kernel) (by decide +kernel) (by decide +kernel) (by decide +kernel), ?_, ?_, ?_, ?_⟩ <;> first | decide +kernel | exact .inr (by decide +kernel)

/-- A state and operands that meet the hypotheses of clause 2 of QuireRows. -/
theorem wit_QuireRows_2 :
    ∃ (s : State) (p q : Nat) (c : CurCmd), InQueue s p q 1 c ∧ 8 ≤ fieldN c.bytes 16 4 ∧ fieldN c.bytes 16 4 ≤ 65536 ∧ fieldN c.bytes 32 1 ≤ 7 ∧ kernelCores s p c.bytes = none := by
  refine ⟨onQueue { kernelCmd 1 with bytes := (kernelCmd 1).bytes.set 32 0 } {} {}, 0, 3, { kernelCmd 1 with bytes := (kernelCmd 1).bytes.set 32 0 }, inq_of (by decide +kernel) (by decide +kernel) (by decide +kernel) (by decide +kernel) (by decide +kernel), ?_, ?_, ?_, ?_⟩ <;> first | decide +kernel | rfl

/-- A state and operands that meet the hypotheses of clause 3 of QuireRows. -/
theorem wit_QuireRows_3 :
    ∃ (s : State) (p q n : Nat) (c : CurCmd), (queueOf s p q).cur = some c ∧ n ∈ (queueOf s p q).cores ∧ (coreOf s n).run ≠ .idle := by
  refine ⟨onQueue { kernelCmd 0 with begun := true } { cores := [0] } { run := .running }, 0, 3, 0, { kernelCmd 0 with begun := true }, ?_, ?_, ?_⟩ <;> first | decide +kernel | rfl

/-- A state and operands that meet the hypotheses of clause 6 of QuireRows. -/
theorem wit_QuireRows_6 :
    ∃ (s : State) (p q n : Nat), n ∈ (queueOf s p q).cores ∧ (coreOf s n).run = .running := by
  refine ⟨onQueue { kernelCmd 0 with begun := true } { cores := [0], running := true } { run := .running }, 0, 3, 0, ?_, ?_⟩ <;> first | decide +kernel | rfl

/-- A state and operands that meet the hypotheses of clause 7 of QuireRows. -/
theorem wit_QuireRows_7 :
    ∃ (s : State) (p q : Nat), (queueOf s p q).running = true ∧ (queueOf s p q).cores.all (fun n => coreEnded (coreOf s n) && writesAnswered s n) = true ∧ (queueOf s p q).cores.all (fun n => (coreOf s n).run == .halted) = true := by
  refine ⟨onQueue { kernelCmd 0 with begun := true } { cores := [0], running := true } { run := .halted }, 0, 3, ?_, ?_, ?_⟩ <;> first | decide +kernel | rfl

/-- A state and operands that meet the hypotheses of clause 9 of QuireRows. -/
theorem wit_QuireRows_9 :
    ∃ (s : State) (p q : Nat) (c : CurCmd), InQueue s p q 2 c ∧ fieldN c.bytes 24 8 = 0 := by
  refine ⟨onQueue (copyCmd 0) {} {}, 0, 3, copyCmd 0, inq_of (by decide +kernel) (by decide +kernel) (by decide +kernel) (by decide +kernel) (by decide +kernel), ?_⟩ <;> first | decide +kernel | rfl

/-- A state and operands that meet the hypotheses of clause 10 of QuireRows. -/
theorem wit_QuireRows_10 :
    ∃ (s : State) (p q a b n : Nat) (c : CurCmd), InQueue s p q 2 c ∧ a = fieldN c.bytes 8 8 ∧ b = fieldN c.bytes 16 8 ∧ n = fieldN c.bytes 24 8 ∧ n ≠ 0 ∧ a % 64 = 0 ∧ b % 64 = 0 ∧ n % 64 = 0 ∧ isDpa a = true ∧ isDpa b = true := by
  refine ⟨onQueue (copyCmd 64) {} {}, 0, 3, _, _, _, copyCmd 64, inq_of (by decide +kernel) (by decide +kernel) (by decide +kernel) (by decide +kernel) (by decide +kernel), rfl, rfl, rfl, ?_, ?_, ?_, ?_, ?_, ?_⟩ <;> first | decide +kernel | rfl

/-- A state and operands that meet the hypotheses of clause 11 of QuireRows. -/
theorem wit_QuireRows_11 :
    ∃ (s : State) (p q a b n : Nat) (c : CurCmd), InQueue s p q 3 c ∧ a = fieldN c.bytes 8 8 ∧ b = fieldN c.bytes 16 8 ∧ n = fieldN c.bytes 24 4 ∧ n ≠ 0 ∧ firstFail (expandChecks s (qRq p q) a b n (qClass c.bytes)) = none := by
  refine ⟨setQueue foldReady 0 3 { cur := some foldCopyCmd }, 0, 3, _, _, _, foldCopyCmd, inq_of (by decide +kernel) (by decide +kernel) (by decide +kernel) (by decide +kernel) (by decide +kernel), rfl, rfl, rfl, ?_, ?_⟩ <;> first | decide +kernel | rfl

/-- A state and operands that meet the hypotheses of clause 12 of QuireRows. -/
theorem wit_QuireRows_12 :
    ∃ (s u : State) (p q a b n k l st : Nat) (c : CurCmd) (o : Option (Nat × Nat)), InQueue s p q 4 c ∧ a = fieldN c.bytes 8 8 ∧ b = fieldN c.bytes 16 8 ∧ n = fieldN c.bytes 24 4 ∧ n ≠ 0 ∧ k = fieldN c.bytes 28 1 ∧ o = (if bit (fieldN c.bytes 29 1) 0 then some (fieldN c.bytes 30 1, fieldN c.bytes 32 4) else none) ∧ firstFail (applyChecks a b n k (qClass c.bytes)) = none ∧ arithApply s (qRq p q) a b n k o (qClass c.bytes) = (st, l, u) := by
  refine ⟨setQueue atomReady 0 3 { cur := some reduceCmd }, _, 0, 3, _, _, _, _, _, _, reduceCmd, _, inq_of (by decide +kernel) (by decide +kernel) (by decide +kernel) (by decide +kernel) (by decide +kernel), rfl, rfl, rfl, ?_, rfl, rfl, ?_, eta_triple _⟩ <;> first | decide +kernel | (intro p n h; cases h) | rfl | exact .inl (by decide +kernel) | exact .inr (by decide +kernel) | (intro h; exact absurd h (by decide +kernel))

/-- A state and operands that meet the hypotheses of clause 14 of QuireRows. -/
theorem wit_QuireRows_14 :
    ∃ (s : State) (p q k g d : Nat) (c : CurCmd), InQueue s p q 6 c ∧ fieldN c.bytes 20 1 ≤ 1 ∧ g = fieldN c.bytes 8 8 ∧ targetOf (qBegin s p q) g = .here d ∧ targetOf s g = .here d ∧ tallyAt d = some k ∧ underReset (qBegin s p q) (tallyQuad k) = false := by
  refine ⟨onQueue (tallyCmd 6 0) {} {}, 0, 3, 2, _, tally2, tallyCmd 6 0, inq_of (by decide +kernel) (by decide +kernel) (by decide +kernel) (by decide +kernel) (by decide +kernel), ?_, rfl, ?_, ?_, ?_, ?_⟩ <;> first | decide +kernel | (intro p n h; cases h) | rfl | exact .inl (by decide +kernel) | exact .inr (by decide +kernel) | (intro h; exact absurd h (by decide +kernel))

/-- A state and operands that meet the hypotheses of clause 15 of QuireRows. -/
theorem wit_QuireRows_15 :
    ∃ (s : State) (p q k d : Nat) (c : CurCmd) (w : QWaiter), InQueue s p q 7 c ∧ fieldN c.bytes 20 1 ≤ 1 ∧ targetOf s (fieldN c.bytes 8 8) = .here d ∧ tallyAt d = some k ∧ underReset s (tallyQuad k) = false ∧ w = { p := p, q := q, tally := k, target := BitVec.ofNat 32 (fieldN c.bytes 16 4), eq := fieldN c.bytes 20 1 == 1, deadline := if fieldN c.bytes 24 4 = 0 then none else some (BitVec.ofNat 64 (min (2 ^ 64 - 1) ((stamp s).toNat + fieldN c.bytes 24 4 * 65536))) } ∧ waitHolds (tallyGet s k) w.target w.eq = false := by
  refine ⟨onQueue (tallyCmd 7 0) {} {}, 0, 3, 2, tally2, tallyCmd 7 0, _, inq_of (by decide +kernel) (by decide +kernel) (by decide +kernel) (by decide +kernel) (by decide +kernel), ?_, ?_, ?_, ?_, rfl, ?_⟩ <;> first | decide +kernel | (intro p n h; cases h) | rfl | exact .inl (by decide +kernel) | exact .inr (by decide +kernel) | (intro h; exact absurd h (by decide +kernel))

/-- A state and operands that meet the hypotheses of clause 16 of QuireRows. -/
theorem wit_QuireRows_16 :
    ∃ (s : State) (p q k d : Nat) (c : CurCmd), InQueue s p q 7 c ∧ fieldN c.bytes 20 1 ≤ 1 ∧ targetOf s (fieldN c.bytes 8 8) = .here d ∧ tallyAt d = some k ∧ underReset s (tallyQuad k) = true := by
  refine ⟨resetQuad0 (onQueue (tallyCmd 7 0) {} {}), 0, 3, 2, tally2, tallyCmd 7 0, inq_of (by decide +kernel) (by decide +kernel) (by decide +kernel) (by decide +kernel) (by decide +kernel), ?_, ?_, ?_, ?_⟩ <;> first | decide +kernel | (intro p n h; cases h) | rfl | exact .inl (by decide +kernel) | exact .inr (by decide +kernel) | (intro h; exact absurd h (by decide +kernel))

/-- A state and operands that meet the hypotheses of clause 17 of QuireRows. -/
theorem wit_QuireRows_17 :
    ∃ (s : State) (p q : Nat) (w : QWaiter) (d : Stamp), s.cpu.waiters = [w] ∧ w.p = p ∧ w.q = q ∧ w.deadline = some d ∧ d.toNat ≤ (stamp s).toNat := by
  refine ⟨{ memReady with cpu := { memReady.cpu with waiters := [⟨0, 3, 2, 1, false, some 0⟩] } }, 0, 3, ⟨0, 3, 2, 1, false, some 0⟩, 0, ?_, ?_, ?_, ?_, ?_⟩ <;> first | decide +kernel | rfl

/-- A state and operands that meet the hypotheses of clause 18 of QuireRows. -/
theorem wit_QuireRows_18 :
    ∃ (s : State) (p q : Nat), s.cpu.waiters = [] := by
  refine ⟨memReady, 0, 3, ?_⟩ <;> first | decide +kernel | rfl

/-- A state and operands that meet the hypotheses of clause 19 of QuireRows. -/
theorem wit_QuireRows_19 :
    ∃ (s : State) (p q : Nat) (c : CurCmd), InQueue s p q 8 c ∧ 16 ≤ (queueOf s p q).ranges.length := by
  refine ⟨onQueue (markCmd 8 1) { ranges := List.replicate 16 (rangeOf 1) } {}, 0, 3, markCmd 8 1, inq_of (by decide +kernel) (by decide +kernel) (by decide +kernel) (by decide +kernel) (by decide +kernel), ?_⟩ <;> first | decide +kernel | rfl

/-- A state and operands that meet the hypotheses of clause 20 of QuireRows. -/
theorem wit_QuireRows_20 :
    ∃ (s : State) (p q : Nat) (c : CurCmd), InQueue s p q 8 c ∧ (queueOf s p q).ranges.length < 16 := by
  refine ⟨onQueue (markCmd 8 1) {} {}, 0, 3, markCmd 8 1, inq_of (by decide +kernel) (by decide +kernel) (by decide +kernel) (by decide +kernel) (by decide +kernel), ?_⟩ <;> first | decide +kernel | rfl

/-- A state and operands that meet the hypotheses of clause 21 of QuireRows. -/
theorem wit_QuireRows_21 :
    ∃ (s : State) (p q : Nat) (c : CurCmd) (r : OpenRange) (l : List OpenRange), InQueue s p q 9 c ∧ (queueOf s p q).ranges = l ++ [r] ∧ r.marker.toNat = fieldN c.bytes 8 4 := by
  refine ⟨onQueue (markCmd 9 1) { ranges := [rangeOf 1] } {}, 0, 3, markCmd 9 1, rangeOf 1, [], inq_of (by decide +kernel) (by decide +kernel) (by decide +kernel) (by decide +kernel) (by decide +kernel), ?_, ?_⟩ <;> first | decide +kernel | (intro p n h; cases h) | rfl | exact .inl (by decide +kernel) | exact .inr (by decide +kernel) | (intro h; exact absurd h (by decide +kernel))

/-- A state and operands that meet the hypotheses of clause 23 of QuireRows. -/
theorem wit_QuireRows_23 :
    ∃ (s : State) (p q : Nat) (c : CurCmd), InQueue s p q 9 c ∧ (queueOf s p q).ranges = [] := by
  refine ⟨onQueue (markCmd 9 1) {} {}, 0, 3, markCmd 9 1, inq_of (by decide +kernel) (by decide +kernel) (by decide +kernel) (by decide +kernel) (by decide +kernel), ?_⟩ <;> first | decide +kernel | rfl

/-- A state and operands that meet the hypotheses of clause 25 of QuireRows. -/
theorem wit_QuireRows_25 :
    ∃ (s : State) (p q l flags a n k : Nat), bit flags 1 = false ∧ (ledgerOf s p l).sealed = true := by
  refine ⟨onLedger fillCmd { configured := true, sealed := true, log2 := 4 }, 0, 3, 0, 0, 0x1000, 1, 1, ?_, ?_⟩ <;> first | decide +kernel | rfl

/-- A state and operands that meet the hypotheses of clause 26 of QuireRows. -/
theorem wit_QuireRows_26 :
    ∃ (s : State) (p q l flags a n k : Nat), bit flags 1 = false ∧ (ledgerOf s p l).sealed = false ∧ 2 ^ (ledgerOf s p l).log2 < (ledgerOf s p l).descs.length + n := by
  refine ⟨onLedger fillCmd { configured := true, log2 := 4 }, 0, 3, 0, 0, 0x1000, 17, 1, ?_, ?_, ?_⟩ <;> first | decide +kernel | rfl

/-- A state and operands that meet the hypotheses of clause 4 of QuireRows. -/
theorem wit_QuireRows_4 :
    ∃ (s : State) (p q : Nat) (c : CurCmd), (queueOf s p q).cur = some c ∧ kernelWaits (queueOf s p q) = true ∧ (queueOf s p q).cores.all (fun n => (coreOf s n).run == .idle && !reservedByOlder s p q c.arrived n) = true ∧ runsSummary s p q = true := by
  refine ⟨(let s := setQueue memReady 0 31 { cur := some { kernelCmd 0 with begun := true } }; setComp s 0 { compOf s 0 with folding := true }), 0, 31, { kernelCmd 0 with begun := true }, ?_, ?_, ?_, ?_⟩ <;> first | decide +kernel | (intro p n h; cases h) | rfl | exact .inl (by decide +kernel) | exact .inr (by decide +kernel) | (intro h; exact absurd h (by decide +kernel))

/-- A state and operands that meet the hypotheses of clause 5 of QuireRows. -/
theorem wit_QuireRows_5 :
    ∃ (s v : State) (p q : Nat) (c : CurCmd) (b : List Byte), (queueOf s p q).cur = some c ∧ kernelWaits (queueOf s p q) = true ∧ (queueOf s p q).cores.all (fun n => (coreOf s n).run == .idle && !reservedByOlder s p q c.arrived n) = true ∧ runsSummary s p q = false ∧ accessWaits s (qRq p q) false (fieldN c.bytes 8 8) (fieldN c.bytes 16 4) (qClass c.bytes) = false ∧ (readBytes s (qRq p q) (fieldN c.bytes 8 8) (fieldN c.bytes 16 4) (qClass c.bytes)).1 = St.ok ∧ b = (readBytes s (qRq p q) (fieldN c.bytes 8 8) (fieldN c.bytes 16 4) (qClass c.bytes)).2.1 ∧ (readBytes s (qRq p q) (fieldN c.bytes 8 8) (fieldN c.bytes 16 4) (qClass c.bytes)).2.2.1 = false ∧ v = (((queueOf s p q).cores.zipIdx).foldl (fun s e => launch s p q c.index b (fieldN c.bytes 24 8) (fieldN c.bytes 32 1) (queueOf s p q).cores.length e.1 e.2) (readBytes s (qRq p q) (fieldN c.bytes 8 8) (fieldN c.bytes 16 4) (qClass c.bytes)).2.2.2) := by
  refine ⟨onQueue { kernelCmd 0 with begun := true } { cores := [0] } {}, _, 0, 3, { kernelCmd 0 with begun := true }, _, ?_, ?_, ?_, ?_, ?_, ?_, rfl, ?_, rfl⟩ <;> first | decide +kernel | (intro p n h; cases h) | rfl | exact .inl (by decide +kernel) | exact .inr (by decide +kernel) | (intro h; exact absurd h (by decide +kernel))

/-- A state and operands that meet the hypotheses of clause 8 of QuireRows. -/
theorem wit_QuireRows_8 :
    ∃ (s : State) (p q n : Nat), (queueOf s p q).running = true ∧ (queueOf s p q).cores.all (fun n => coreEnded (coreOf s n) && writesAnswered s n) = true ∧ n ∈ (queueOf s p q).cores ∧ (coreOf s n).run = .faulted := by
  refine ⟨onQueue { kernelCmd 0 with begun := true } { cores := [0], running := true } { run := .faulted }, 0, 3, 0, ?_, ?_, ?_, ?_⟩ <;> first | decide +kernel | (intro p n h; cases h) | rfl | exact .inl (by decide +kernel) | exact .inr (by decide +kernel) | (intro h; exact absurd h (by decide +kernel))

/-- A state and operands that meet the hypotheses of clause 13 of QuireRows. -/
theorem wit_QuireRows_13 :
    ∃ (s u v : State) (p q n i : Nat) (c : CurCmd) (l : List (List Byte)), InQueue s p q 5 c ∧ n = fieldN c.bytes 16 1 ∧ 1 ≤ n ∧ n ≤ 16 ∧ accessWaits s (qRq p q) false (fieldN c.bytes 8 8) 64 (qClass c.bytes) = false ∧ readDescs (qRq p q) (qClass c.bytes) n (fieldN c.bytes 8 8) s = ((St.ok, l), u) ∧ startGather (qBegin u p q) p (some (p, q)) (qClass c.bytes) l = (i, v) := by
  refine ⟨setQueue atomReady 0 3 { cur := some gatherResCmd }, (readDescs (.queue 0 3) 1 1 0x1000 (setQueue atomReady 0 3 { cur := some gatherResCmd })).2, _, 0, 3, 1, _, gatherResCmd, (readDescs (.queue 0 3) 1 1 0x1000 (setQueue atomReady 0 3 { cur := some gatherResCmd })).1.2, inq_of (by decide +kernel) (by decide +kernel) (by decide +kernel) (by decide +kernel) (by decide +kernel), ?_, ?_, ?_, ?_, ?_, eta_pair _⟩ <;> first | decide +kernel | (intro p n h; cases h) | rfl | exact .inl (by decide +kernel) | exact .inr (by decide +kernel) | (intro h; exact absurd h (by decide +kernel))

/-- A state and operands that meet the hypotheses of clause 22 of QuireRows. -/
theorem wit_QuireRows_22 :
    ∃ (s : State) (p q : Nat) (c : CurCmd) (r : OpenRange) (l : List OpenRange), InQueue s p q 9 c ∧ (queueOf s p q).ranges = l ++ [r] ∧ r.marker.toNat ≠ fieldN c.bytes 8 4 := by
  refine ⟨onQueue (markCmd 9 1) { ranges := [rangeOf 2] } {}, 0, 3, markCmd 9 1, rangeOf 2, [], inq_of (by decide +kernel) (by decide +kernel) (by decide +kernel) (by decide +kernel) (by decide +kernel), ?_, ?_⟩ <;> first | decide +kernel | (intro p n h; cases h) | rfl | exact .inl (by decide +kernel) | exact .inr (by decide +kernel) | (intro h; exact absurd h (by decide +kernel))

/-- A state and operands that meet the hypotheses of clause 24 of QuireRows. -/
theorem wit_QuireRows_24 :
    ∃ (s : State) (p q l : Nat) (c : CurCmd), InQueue s p q 12 c ∧ l = fieldN c.bytes 8 1 ∧ l ≤ 7 ∧ (ledgerOf s p l).configured = true ∧ accessWaits s (qRq p q) false (fieldN c.bytes 16 8) (32 * fieldN c.bytes 24 4) (qClass c.bytes) = false ∧ accessWaits s (qRq p q) true (ledgerOf s p l).dpa (32 * 2 ^ (ledgerOf s p l).log2) (qClass c.bytes) = false := by
  refine ⟨onLedger fillCmd { configured := true }, 0, 3, _, fillCmd, inq_of (by decide +kernel) (by decide +kernel) (by decide +kernel) (by decide +kernel) (by decide +kernel), rfl, ?_, ?_, ?_, ?_⟩ <;> first | decide +kernel | (intro p n h; cases h) | rfl | exact .inl (by decide +kernel) | exact .inr (by decide +kernel) | (intro h; exact absurd h (by decide +kernel))

/-- A state and operands that meet the hypotheses of clause 1 of QueueProgress. -/
theorem wit_QueueProgress_1 :
    ∃ (s : State) (p q : Nat) (c : CurCmd), q < 28 ∧ (queueOf s p q).cur = some c ∧ c.status = none := by
  refine ⟨onQueue (copyCmd 64) {} {}, 0, 3, copyCmd 64, ?_, ?_, ?_⟩ <;> first | decide +kernel | rfl

/-- A state and operands that meet the hypotheses of clause 2 of QueueProgress. -/
theorem wit_QueueProgress_2 :
    ∃ (s : State) (p q : Nat) (c : CurCmd) (u : Quire) (l : List Quire), q < 28 ∧ (queueOf s p q).cur = some c ∧ (queueOf s p q).quires = u :: l ∧ c.status = some 0 ∧ qSignal c.bytes = false ∧ qCode c.bytes ≠ 9 ∧ c.index + 1 < u.count := by
  refine ⟨onQueue { copyCmd 64 with status := some 0 } { quires := [anyQuire 2 false] } {}, 0, 3, { copyCmd 64 with status := some 0 }, anyQuire 2 false, [], ?_, ?_, ?_, ?_, ?_, ?_, ?_⟩ <;> first | decide +kernel | rfl

/-- A state and operands that meet the hypotheses of clause 3 of QueueProgress. -/
theorem wit_QueueProgress_3 :
    ∃ (s : State) (p q : Nat) (c : CurCmd) (u : Quire) (l : List Quire), q < 28 ∧ (queueOf s p q).cur = some c ∧ (queueOf s p q).quires = u :: l ∧ c.status = some 0 ∧ qSignal c.bytes = false ∧ qCode c.bytes ≠ 9 ∧ u.count ≤ c.index + 1 := by
  refine ⟨onQueue { copyCmd 64 with status := some 0 } { quires := [anyQuire 1 false] } {}, 0, 3, { copyCmd 64 with status := some 0 }, anyQuire 1 false, [], ?_, ?_, ?_, ?_, ?_, ?_, ?_⟩ <;> first | decide +kernel | rfl

/-- A state and operands that meet the hypotheses of clause 4 of QueueProgress. -/
theorem wit_QueueProgress_4 :
    ∃ (s : State) (p q : Nat) (st : BitVec 16) (c : CurCmd) (u : Quire) (l : List Quire), q < 28 ∧ (queueOf s p q).cur = some c ∧ (queueOf s p q).quires = u :: l ∧ c.status = some st ∧ st ≠ 0 ∧ qSignal c.bytes = false ∧ qContinue c.bytes = false := by
  refine ⟨onQueue { copyCmd 64 with status := some 7 } { quires := [anyQuire 2 false] } {}, 0, 3, 7, { copyCmd 64 with status := some 7 }, anyQuire 2 false, [], ?_, ?_, ?_, ?_, ?_, ?_, ?_⟩ <;> first | decide +kernel | rfl

/-- A state and operands that meet the hypotheses of clause 8 of QueueProgress. -/
theorem wit_QueueProgress_8 :
    ∃ (s : State) (p q : Nat), (queueOf s p q).halted = true := by
  refine ⟨setQueue memReady 0 3 { halted := true }, 0, 3, ?_⟩ <;> first | decide +kernel | rfl

/-- A state and operands that meet the hypotheses of clause 9 of QueueProgress. -/
theorem wit_QueueProgress_9 :
    ∃ (s : State) (p q : Nat) (c : CurCmd), InQueue s p q 10 c ∧ (compOf s p).run = none := by
  refine ⟨onQueue (stepRow 10) {} {}, 0, 3, stepRow 10, inq_of (by decide +kernel) (by decide +kernel) (by decide +kernel) (by decide +kernel) (by decide +kernel), ?_⟩ <;> first | decide +kernel | rfl

/-- A state and operands that meet the hypotheses of clause 10 of QueueProgress. -/
theorem wit_QueueProgress_10 :
    ∃ (s : State) (p q : Nat) (c : CurCmd), InQueue s p q 11 c ∧ (compOf s p).run = none := by
  refine ⟨onQueue (stepRow 11) {} {}, 0, 3, stepRow 11, inq_of (by decide +kernel) (by decide +kernel) (by decide +kernel) (by decide +kernel) (by decide +kernel), ?_⟩ <;> first | decide +kernel | rfl

/-- A state and operands that meet the hypotheses of clause 11 of QueueProgress. -/
theorem wit_QueueProgress_11 :
    ∃ (s : State) (p q : Nat) (c : CurCmd) (r : RunStep), InQueue s p q 10 c ∧ stepCmd s p q 0 c.bytes = some r := by
  refine ⟨inStep (stepRow 10) stepNo, 0, 3, stepRow 10, stepNo, inq_of (by decide +kernel) (by decide +kernel) (by decide +kernel) (by decide +kernel) (by decide +kernel), ?_⟩ <;> first | decide +kernel | rfl

/-- A state and operands that meet the hypotheses of clause 12 of QueueProgress. -/
theorem wit_QueueProgress_12 :
    ∃ (s : State) (p q : Nat) (c : CurCmd) (r : RunStep), InQueue s p q 11 c ∧ stepCmd s p q 3 c.bytes = some r := by
  refine ⟨inStep (stepRow 11) { stepNo with phase := 3 }, 0, 3, stepRow 11, { stepNo with phase := 3 }, inq_of (by decide +kernel) (by decide +kernel) (by decide +kernel) (by decide +kernel) (by decide +kernel), ?_⟩ <;> first | decide +kernel | rfl

/-- A state and operands that meet the hypotheses of clause 13 of QueueProgress. -/
theorem wit_QueueProgress_13 :
    ∃ (s : State) (p q : Nat) (c : CurCmd), (queueOf s p q).cur = some c ∧ c.status = none := by
  refine ⟨onQueue (copyCmd 64) {} {}, 0, 3, copyCmd 64, ?_, ?_⟩ <;> first | decide +kernel | rfl

/-- A state and operands that meet the hypotheses of clause 5 of QueueProgress. -/
theorem wit_QueueProgress_5 :
    ∃ (s : State) (p q : Nat), 28 ≤ q ∧ (compOf (queueAdvance s p q) p).run = none := by
  refine ⟨memReady, 0, 28, ?_, ?_⟩ <;> first | decide +kernel | (intro p n h; cases h) | rfl | exact .inl (by decide +kernel) | exact .inr (by decide +kernel) | (intro h; exact absurd h (by decide +kernel))

/-- A state and operands that meet the hypotheses of clause 6 of QueueProgress. -/
theorem wit_QueueProgress_6 :
    ∃ (s : State) (p q : Nat) (r : RunStep), 28 ≤ q ∧ (compOf (queueAdvance s p q) p).run = some r := by
  refine ⟨setComp memReady 0 { run := some stepNo }, 0, 28, stepNo, ?_, ?_⟩ <;> first | decide +kernel | (intro p n h; cases h) | rfl | exact .inl (by decide +kernel) | exact .inr (by decide +kernel) | (intro h; exact absurd h (by decide +kernel))

/-- A state and operands that meet the hypotheses of clause 7 of QueueProgress. -/
theorem wit_QueueProgress_7 :
    ∃ (s : State) (p q : Nat) (c : CurCmd), q < 28 ∧ (queueOf s p q).cur = some c ∧ c.status = some 0 ∧ qCode c.bytes = 9 ∧ markerHeld s p (BitVec.ofNat 32 (fieldN c.bytes 8 4)) = true := by
  refine ⟨{ onQueue { markCmd 9 1 with status := some 0 } {} {} with obs := { memReady.obs with digests := [(0, { enabled := true, marker := 1, len := 64 })] }, ink := { memReady.ink with claims := [{ res := mkRes 2 0, mode := 3, owner := 0 }] }, svc := { memReady.svc with chans := [(0, { retraining := true })] } }, 0, 3, { markCmd 9 1 with status := some 0 }, ?_, ?_, ?_, ?_, ?_⟩ <;> first | decide +kernel | (intro p n h; cases h) | rfl | exact .inl (by decide +kernel) | exact .inr (by decide +kernel) | (intro h; exact absurd h (by decide +kernel))

def submitCmd (q : Byte) : Cmd := par ([0, q] ++ leBytes 2 2 ++ zeros 4 ++ leBytes 8 0x1000)

/-- A state and operands that meet the hypotheses of clause 1 of CoreCommandRows. -/
theorem wit_CoreCommandRows_1 :
    ∃ c s a, Begun { op := 0x0601, need := 8 } c s a ∧ hostOk a (p64 c 0) 1024 = true := by
  refine ⟨adm (leBytes 8 0x7000), memReady, _, begun_of (by decide +kernel) (by decide +kernel) (by decide +kernel) (by decide +kernel) (by decide +kernel), ?_⟩ <;> first | decide +kernel | rfl

/-- A state and operands that meet the hypotheses of clause 2 of CoreCommandRows. -/
theorem wit_CoreCommandRows_2 :
    ∃ c s a, Begun { op := 0x0602, need := 2, vf := false } c s a ∧ p8 c 0 ≤ 3 ∧ p8 c 1 ≤ 15 ∧ (∀ o, o < 4 → o ≠ p8 c 0 → (partOf a o).mask &&& BitVec.ofNat 4 (p8 c 1) = 0) ∧ partIdle a (p8 c 0) = true := by
  refine ⟨adm [1, 2], memReady, _, begun_of (by decide +kernel) (by decide +kernel) (by decide +kernel) (by decide +kernel) (by decide +kernel), ?_, ?_, ?_, ?_⟩ <;> first | decide +kernel | (intro o h1 h2; have : o = 0 ∨ o = 2 ∨ o = 3 := by (have : o ≠ 1 := h2); omega; rcases this with rfl | rfl | rfl <;> decide +kernel)

/-- A state and operands that meet the hypotheses of clause 3 of CoreCommandRows. -/
theorem wit_CoreCommandRows_3 :
    ∃ c s a, Begun { op := 0x0602, need := 2, vf := false } c s a ∧ p8 c 0 ≤ 3 ∧ p8 c 1 ≤ 15 ∧ (∀ o, o < 4 → o ≠ p8 c 0 → (partOf a o).mask &&& BitVec.ofNat 4 (p8 c 1) = 0) ∧ partIdle a (p8 c 0) = false := by
  refine ⟨adm [0, 2], onQueue (copyCmd 64) {} {}, _, begun_of (by decide +kernel) (by decide +kernel) (by decide +kernel) (by decide +kernel) (by decide +kernel), ?_, ?_, ?_, ?_⟩ <;> first | decide +kernel | (intro o h1 h2; have : o = 1 ∨ o = 2 ∨ o = 3 := by (have : o ≠ 0 := h2); omega; rcases this with rfl | rfl | rfl <;> decide +kernel)

/-- A state and operands that meet the hypotheses of clause 4 of CoreCommandRows. -/
theorem wit_CoreCommandRows_4 :
    ∃ (c : Cmd) (s a : State) (x : Queue), Begun { op := 0x0603, need := 16, part := some 0 } c s a ∧ p8 c 0 ≤ 3 ∧ p8 c 1 ≤ 31 ∧ (p8 c 1 < 28 ∨ mfind a.stp.comps (p8 c 0) = none) ∧ p16 c 2 ≠ 0 ∧ configured a (p8 c 0) = true ∧ p64 c 8 % 64 = 0 ∧ isDpa (p64 c 8) = true ∧ x = queueOf a (p8 c 0) (p8 c 1) ∧ x.quires.length < 16 := by
  refine ⟨submitCmd 3, memReady, _, _, begun_of (by decide +kernel) (by decide +kernel) (by decide +kernel) (by decide +kernel) (by decide +kernel), ?_, ?_, ?_, ?_, ?_, ?_, ?_, rfl, ?_⟩ <;> first | decide +kernel | rfl | exact .inl (by decide +kernel) | exact .inr (by decide +kernel) | (intro h; exact absurd h (by decide +kernel))

/-- A state and operands that meet the hypotheses of clause 5 of CoreCommandRows. -/
theorem wit_CoreCommandRows_5 :
    ∃ c s a, Begun { op := 0x0603, need := 16, part := some 0 } c s a ∧ p8 c 0 ≤ 3 ∧ p8 c 1 < 28 ∧ p16 c 2 ≠ 0 ∧ configured a (p8 c 0) = true ∧ p64 c 8 % 64 = 0 ∧ isDpa (p64 c 8) = true ∧ 16 ≤ (queueOf a (p8 c 0) (p8 c 1)).quires.length := by
  refine ⟨submitCmd 3, setQueue memReady 0 3 { quires := List.replicate 16 (anyQuire 1 false) }, _, begun_of (by decide +kernel) (by decide +kernel) (by decide +kernel) (by decide +kernel) (by decide +kernel), ?_, ?_, ?_, ?_, ?_, ?_, ?_⟩ <;> first | decide +kernel | rfl

/-- A state and operands that meet the hypotheses of clause 6 of CoreCommandRows. -/
theorem wit_CoreCommandRows_6 :
    ∃ (c : Cmd) (s a : State) (k : Composer), Begun { op := 0x0603, need := 16, part := some 0 } c s a ∧ p8 c 0 ≤ 3 ∧ 28 ≤ p8 c 1 ∧ p8 c 1 ≤ 31 ∧ p16 c 2 ≠ 0 ∧ configured a (p8 c 0) = true ∧ p64 c 8 % 64 = 0 ∧ isDpa (p64 c 8) = true ∧ mfind a.stp.comps (p8 c 0) = some k ∧ (k.enabled = true ∨ k.run.isSome = true) := by
  refine ⟨submitCmd 28, setComp memReady 0 { compOf memReady 0 with enabled := true }, _, { compOf memReady 0 with enabled := true }, begun_of (by decide +kernel) (by decide +kernel) (by decide +kernel) (by decide +kernel) (by decide +kernel), ?_, ?_, ?_, ?_, ?_, ?_, ?_, ?_, ?_⟩ <;> first | decide +kernel | rfl | exact .inl (by decide +kernel) | exact .inr (by decide +kernel) | (intro h; exact absurd h (by decide +kernel))

/-- A state and operands that meet the hypotheses of clause 7 of CoreCommandRows. -/
theorem wit_CoreCommandRows_7 :
    ∃ c s a, Begun { op := 0x0604, need := 3, part := some 0 } c s a ∧ p8 c 0 ≤ 3 ∧ p8 c 1 ≤ 31 ∧ p8 c 2 = 1 := by
  refine ⟨par [0, 3, 1], setQueue memReady 0 3 { halted := true, quires := [anyQuire 1 false] }, _, begun_of (by decide +kernel) (by decide +kernel) (by decide +kernel) (by decide +kernel) (by decide +kernel), ?_, ?_, ?_⟩ <;> first | decide +kernel | rfl

/-- A state and operands that meet the hypotheses of clause 8 of CoreCommandRows. -/
theorem wit_CoreCommandRows_8 :
    ∃ c s a, Begun { op := 0x0604, need := 3, part := some 0 } c s a ∧ p8 c 0 ≤ 3 ∧ p8 c 1 ≤ 31 ∧ p8 c 2 = 2 := by
  refine ⟨par [0, 3, 2], setQueue memReady 0 3 { halted := true, quires := [anyQuire 1 false] }, _, begun_of (by decide +kernel) (by decide +kernel) (by decide +kernel) (by decide +kernel) (by decide +kernel), ?_, ?_, ?_⟩ <;> first | decide +kernel | rfl

/-- A state and operands that meet the hypotheses of clause 9 of CoreCommandRows. -/
theorem wit_CoreCommandRows_9 :
    ∃ (c : Cmd) (s a : State) (x : Queue), Begun { op := 0x0604, need := 3, part := some 0 } c s a ∧ p8 c 0 ≤ 3 ∧ p8 c 1 ≤ 31 ∧ p8 c 2 = 3 ∧ x = queueOf a (p8 c 0) (p8 c 1) := by
  refine ⟨par [0, 3, 3], onQueue (copyCmd 64) {} {}, _, _, begun_of (by decide +kernel) (by decide +kernel) (by decide +kernel) (by decide +kernel) (by decide +kernel), ?_, ?_, ?_, rfl⟩ <;> first | decide +kernel | rfl | exact .inl (by decide +kernel) | exact .inr (by decide +kernel) | (intro h; exact absurd h (by decide +kernel))

/-- A state and operands that meet the hypotheses of clause 10 of CoreCommandRows. -/
theorem wit_CoreCommandRows_10 :
    ∃ (s : State) (p q : Nat), s.ink.running = [] := by
  refine ⟨memReady, 0, 3, ?_⟩ <;> first | decide +kernel | rfl

/-- A state and operands that meet the hypotheses of clause 11 of CoreCommandRows. -/
theorem wit_CoreCommandRows_11 :
    ∃ c s a, Begun { op := 0x0605, need := 8, refuse := foreignTally } c s a ∧ p16 c 0 < 16384 ∧ 1 ≤ p8 c 2 ∧ p8 c 2 ≤ 2 ∧ underReset a (tallyQuad (p16 c 0)) = false := by
  refine ⟨par ([2, 0, 2, 0] ++ leBytes 4 1), memReady, _, begun_of (by decide +kernel) (by decide +kernel) (by decide +kernel) (by decide +kernel) (by decide +kernel), ?_, ?_, ?_, ?_⟩ <;> first | decide +kernel | rfl | exact .inl (by decide +kernel) | exact .inr (by decide +kernel) | (intro h; exact absurd h (by decide +kernel))

/-- A state and operands that meet the hypotheses of clause 12 of CoreCommandRows. -/
theorem wit_CoreCommandRows_12 :
    ∃ c s a, Begun { op := 0x0605, need := 8, refuse := foreignTally } c s a ∧ p16 c 0 < 16384 ∧ p8 c 2 = 0 ∧ underReset a (tallyQuad (p16 c 0)) = false := by
  refine ⟨par ([2, 0, 0, 0] ++ leBytes 4 1), memReady, _, begun_of (by decide +kernel) (by decide +kernel) (by decide +kernel) (by decide +kernel) (by decide +kernel), ?_, ?_, ?_⟩ <;> first | decide +kernel | rfl

/-- A state and operands that meet the hypotheses of clause 13 of CoreCommandRows. -/
theorem wit_CoreCommandRows_13 :
    ∃ c s a, Begun { op := 0x0605, need := 8, refuse := foreignTally } c s a ∧ 16384 ≤ p16 c 0 := by
  refine ⟨par ([0, 0x40, 0, 0] ++ leBytes 4 1), memReady, _, begun_of (by decide +kernel) (by decide +kernel) (by decide +kernel) (by decide +kernel) (by decide +kernel), ?_⟩ <;> first | decide +kernel | rfl

/-- A state and operands that meet the hypotheses of clause 15 of CoreCommandRows. -/
theorem wit_CoreCommandRows_15 :
    ∃ c s a, Begun { op := 0x0606, need := 16, part := some 0 } c s a ∧ p8 c 0 ≤ 3 ∧ p8 c 1 ≤ 7 ∧ 4 ≤ p8 c 2 ∧ p8 c 2 ≤ 16 ∧ configured a (p8 c 0) = true ∧ isDpa (p64 c 8) = true ∧ (regionSteps (p64 c 8) (32 * 2 ^ p8 c 2)).all (fun d => (match whereIs d with | .region .fast _ => true | _ => false) && cacheStatusAt a (some (p8 c 0)) d == St.ok) = true ∧ rangeFenced a (p64 c 8) (32 * 2 ^ p8 c 2) = false := by
  refine ⟨par ([0, 1, 4, 0] ++ zeros 4 ++ leBytes 8 0x1000), memReady, _, begun_of (by decide +kernel) (by decide +kernel) (by decide +kernel) (by decide +kernel) (by decide +kernel), ?_, ?_, ?_, ?_, ?_, ?_, ?_, ?_⟩ <;> first | decide +kernel | rfl

/-- A state and operands that meet the hypotheses of clause 16 of CoreCommandRows. -/
theorem wit_CoreCommandRows_16 :
    ∃ (c : Cmd) (s a : State) (x : Ledger), Begun { op := 0x0607, need := 2, part := some 0 } c s a ∧ p8 c 0 ≤ 3 ∧ p8 c 1 ≤ 7 ∧ x = ledgerOf a (p8 c 0) (p8 c 1) := by
  refine ⟨par [0, 0], onLedger fillCmd { configured := true, sealed := true, log2 := 4 }, _, _, begun_of (by decide +kernel) (by decide +kernel) (by decide +kernel) (by decide +kernel) (by decide +kernel), ?_, ?_, rfl⟩ <;> first | decide +kernel | rfl

/-- A state and operands that meet the hypotheses of clause 17 of CoreCommandRows. -/
theorem wit_CoreCommandRows_17 :
    ∃ (c : Cmd) (s a : State) (l : Log), Begun { op := 0x0608, need := 11 } c s a ∧ p8 c 10 ≤ 1 ∧ l = mget {} a.cpu.faults (p8 c 10) ∧ hostOk a (p64 c 0) ((lastN l.unread l.recs).take (min (p16 c 8) l.unread)).flatten.length = true := by
  refine ⟨adm (leBytes 8 0x7000 ++ [1, 0, 1]), { memReady with cpu := { memReady.cpu with faults := [(1, { recs := [zeros 64], unread := 1 })] } }, _, { recs := [zeros 64], unread := 1 }, begun_of (by decide +kernel) (by decide +kernel) (by decide +kernel) (by decide +kernel) (by decide +kernel), ?_, ?_, ?_⟩ <;> first | decide +kernel | rfl

/-- A state and operands that meet the hypotheses of clause 14 of CoreCommandRows. -/
theorem wit_CoreCommandRows_14 :
    ∃ c s a, Begun { op := 0x0605, need := 8, refuse := foreignTally } c s a ∧ p16 c 0 < 16384 ∧ p8 c 2 ≤ 2 ∧ underReset a (tallyQuad (p16 c 0)) = true := by
  refine ⟨par ([2, 0, 2, 0] ++ leBytes 4 1), resetQuad0 memReady, _, begun_of (by decide +kernel) (by decide +kernel) (by decide +kernel) (by decide +kernel) (by decide +kernel), ?_, ?_, ?_⟩ <;> first | decide +kernel | (intro p n h; cases h) | rfl | exact .inl (by decide +kernel) | exact .inr (by decide +kernel) | (intro h; exact absurd h (by decide +kernel))

def modelBytes : List Byte := [0, 0, 0, 0] ++ leBytes 4 7 ++ leBytes 4 4096 ++ leBytes 4 64 ++ [0, 0xFF, 0xFF, 0] ++ leBytes 2 0 ++ leBytes 2 0

def model0 : Model := parseModel modelBytes

def poolBytes : List Byte :=
  [0, 0, 0, 0] ++ leBytes 4 0 ++ leBytes 4 4 ++ leBytes 4 4096 ++ leBytes 8 0x100000 ++ leBytes 8 0x200000 ++ leBytes 4 0

def pool0 : Pool := parsePool poolBytes

def map0 : PageMap := { raw := zeros 24, blocks := 0x300000, count := 4, index := 0x2000000, free := [], fresh := 0 }

/-- Sampling parameters that pass every check. -/
def samplingBytes : List Byte :=
  leBytes 4 0 ++ leBytes 4 0x3F800000 ++ leBytes 4 0 ++ leBytes 4 0x3F800000 ++ zeros 16 ++ List.replicate 32 0xFF

/-- One pool, one model and the page map, with sampling parameters at 0x2000. -/
def serveReady : State :=
  let s := (writeBytes memReady .admin 0x2000 samplingBytes false 1).2
  { s with srv := { s.srv with models := [(0, model0)], pools := [(0, pool0)], map := some map0 } }

def req0 (st : Nat) : Req := { id := 4096, st := st, part := 0, model := 0, root := 0, promptLen := 16, promptDone := 16 }

def serveReq (r : Req) : State := { serveReady with srv := { serveReady.srv with reqs := [(0, r)] } }

/-- A PARKED request whose TTL runs. -/
def parked (n : Nat) : State := serveReq { req0 6 with ttlRun := true, ttl := n }

def submitBytes (m : Byte) (n : Nat) : List Byte :=
  zeros 5 ++ [0, m, 0] ++ zeros 40 ++ leBytes 4 0xFFFF ++ zeros 24 ++ leBytes 4 n ++ leBytes 8 0x3000 ++ zeros 16 ++ leBytes 8 0x2000 ++ zeros 16

def reqSubmitCmd (m : Byte) (n : Nat) : Cmd := { par [] with flags := 1, len := 128, ext := submitBytes m n, extAddr := 64 }

def submitted : List Byte := padTo 128 (body (reqSubmitCmd 0 16))

def judged : State :=
  (grammarCheck (settle (reqSubmitCmd 0 16) (arrive 0x0705 (reqSubmitCmd 0 16) serveReady)) (fieldN submitted 5 1 / 16 % 4) (fieldN submitted 48 2)
    (fieldN submitted 52 4)).2

def placed : State := (samplingCheck judged (fieldN submitted 5 1 / 16 % 4) (fieldN submitted 104 8) (fieldN submitted 56 8)).2

def answered (a : Answer) : List Byte × State := match a with | .done _ r t => (r, t) | .wait _ t => ([], t) | .held => ([], State.reset)

def answeredOk (a : Answer) : Bool := match a with | .done st _ _ => st == St.ok | .wait _ _ => false | .held => false

theorem answered_ok (a : Answer) (h : answeredOk a = true) : a = .done St.ok (answered a).1 (answered a).2 := by
  cases a with
  | done st r t => simp only [answeredOk, beq_iff_eq] at h; subst h; rfl
  | wait w t => simp [answeredOk] at h
  | held => simp [answeredOk] at h

/-- The wait that an answer is, and the status of one that is done without a result. -/
def waitOf (a : Answer) : Option Wait := match a with | .wait w _ => some w | _ => none
def bareOf (a : Answer) : Option Nat := match a with | .done st [] _ => some st | _ => none

theorem answered_wait (a : Answer) (w : Wait) (h : waitOf a = some w) : a = .wait w (answered a).2 := by
  cases a with
  | done st r t => simp [waitOf] at h
  | wait v t => simp only [waitOf, Option.some.injEq] at h; subst h; rfl
  | held => simp [waitOf] at h

theorem answered_bare (a : Answer) (st : Nat) (h : bareOf a = some st) : a = .done st [] (answered a).2 := by
  cases a with
  | done v r t => cases r <;> simp only [bareOf, Option.some.injEq, reduceCtorEq] at h; subst h; rfl
  | wait v t => simp [bareOf] at h
  | held => simp [bareOf] at h

/-- A page moves from a PAUSED or PARKED request's table. -/
def movingReq (st mode : Nat) : Req := { req0 st with moving := true, pauseMode := mode, pages := [(0, 0x80000000)], moveSrc := [(0, 1)] }

/-- Its pool lies outside the memory. -/
def lostPool (s : State) : State := { s with srv := { s.srv with pools := [(0, { pool0 with data := 2 ^ 45 })] } }

/-- A summary kernel of partition 0 runs on core 0 with request 0 to fold. -/
def foldingNow (r : Req) : State :=
  let s := serveReq r
  let u := setComp s 0 { compOf s 0 with folding := true, summaries := [0] }
  setQueue u 0 31 { running := true, cores := [0] }

/-- A request's page to fold in a STREAM region, and no basis table. -/
def foldingBare : State :=
  let s := foldingNow (movingReq 5 2)
  { s with mem := { s.mem with fastRegions := { h := 0, ovr := [(0, 0xF06)] } } }

theorem foldSlot_noBasis (s : State) (rq : Requester) (x : Model) (src dst i : Nat)
    (h : (readBytes s rq (src + 4096 * i) 4096 1).2.2.2.fold.basis = []) : foldSlot s rq x src dst i = none := by
  unfold foldSlot
  generalize readBytes s rq (src + 4096 * i) 4096 1 = p at h
  obtain ⟨a, b, c, d⟩ := p
  dsimp only at h ⊢
  rw [h]
  rfl

theorem folding_none : foldAll foldingBare (.core 0 0) 0 model0 [(0, 1)] = none := by
  have h : foldSlot foldingBare (.core 0 0) model0 0x100000 0x101000 0 = none := foldSlot_noBasis _ _ _ _ _ _ (by decide +kernel)
  have h1 : reqPage foldingBare 0 0 = some 0 := by decide +kernel
  have h2 : payloadAt foldingBare 0 = 0x100000 := by decide +kernel
  have h3 : payloadAt foldingBare 1 = 0x101000 := by decide +kernel
  have h4 : List.range (model0.payload / 4096) = [0] := by decide +kernel
  simp only [foldAll, List.foldl_cons, List.foldl_nil, Option.bind_some, h1, h2, h3, h4, h]

def pin0 : Pin := { model := 0, pages := [], tokens := [] }

/-- Every pin number in use. -/
def fullPins : List (Nat × Pin) := (List.range 65536).map (fun k => (k, pin0))

theorem findFrom_none (p : Nat → Bool) (n k : Nat) (h : ∀ i, i < k + n → p i = false) : findFrom p n k = none := by
  induction n generalizing k with
  | zero => rfl
  | succ n ih =>
    unfold findFrom
    rw [h k (by omega)]
    exact ih (k + 1) (fun i hi => h i (by omega))

theorem mfind_some {β : Type} (l : List (Nat × β)) (k : Nat) (x : β) (h : (k, x) ∈ l) : (mfind l k).isSome = true := by
  induction l with
  | nil => simp at h
  | cons y r ih =>
    obtain ⟨j, v⟩ := y
    rw [mfind]
    split
    · rfl
    · next hne => exact ih (by simpa [Ne.symm hne] using h)

theorem full_pins (u : State) (h : u.srv.pins = fullPins) : findFrom (fun k => (mfind u.srv.pins k).isNone) 65536 0 = none := by
  rw [h]
  refine findFrom_none _ _ _ (fun i hi => ?_)
  have := mfind_some fullPins i pin0 (List.mem_map.2 ⟨i, List.mem_range.2 (by omega), rfl⟩)
  simp [Option.isSome_iff_ne_none] at this ⊢
  exact this

/-- PREFIX_PIN of no tokens. -/
def pinCmd : Cmd := par (zeros 8 ++ leBytes 8 0x3000 ++ leBytes 4 0)

theorem pinCmd_dpa : p64 pinCmd 8 = 0x3000 := by decide +kernel

theorem pinCmd_len : 4 * p32 pinCmd 16 = 0 := by decide +kernel

theorem watch_none (s : State) (rq : Requester) (d : Nat) (h : s.obs.watches = []) : watch s rq 0 d 0 = s := by
  unfold watch
  split
  · rfl
  · next p _ =>
    generalize List.range 64 = l
    induction l with
    | nil => rfl
    | cons a l ih =>
      rw [List.foldl_cons]
      rw [show mfind s.obs.watches (p * 64 + a) = none by rw [h]; rfl]
      exact ih

theorem charge_pins (s : State) (rq : Requester) (d : Nat) : (charge s rq d 0 0).srv.pins = s.srv.pins := by
  unfold charge
  split
  · contradiction
  · split
    · unfold chargeReg
      extract_lets
      split <;> rfl
    · rfl

theorem prog_srv (s : State) (u e : Nat) (p c : Option Nat) (n : Nat) : (prog s u e p c n).srv = s.srv := by
  unfold prog
  generalize List.range 8 = l
  induction l generalizing s with
  | nil => rfl
  | cons a l ih =>
    rw [List.foldl_cons, ih]
    extract_lets
    split <;> rfl

theorem readNone_pins (s : State) (rq : Requester) (h : s.obs.watches = []) : (readBytes s rq 0x3000 0 0).2.2.2.srv.pins = s.srv.pins := by
  have hg : granuleAddrs 0x3000 0 = [] := by decide +kernel
  simp only [readBytes, readGranules, hg, readGo, watch_none s rq 0x3000 h]
  split <;> simp [*, charge_pins]

theorem lookupNone_pins (s : State) : (lookup s (p8 pinCmd 0) (chunks 16 (tokenList [])) 0 noPage true).2.srv.pins = s.srv.pins := by
  have hg : chunks 16 (tokenList []) = [] := by decide +kernel
  rw [hg]
  unfold lookup
  split
  · rfl
  · simp only [prefixKeys, keyChain, List.zip_nil_left, List.drop_nil, matchGo, prog_srv]
    unfold poolCount
    split <;> rfl

def pinStart (P : List (Nat × Pin)) : State := settle pinCmd (arrive 0x070C pinCmd { serveReady with srv := { serveReady.srv with pins := P } })

theorem pinStart_pins (P : List (Nat × Pin)) : (pinStart P).srv.pins = P := by
  unfold pinStart
  set_option maxRecDepth 20000 in rfl

def pinState : State := { serveReady with srv := { serveReady.srv with pins := fullPins } }

theorem pinState_full : findFrom (fun k => (mfind (lookup (readBytes (settle pinCmd (arrive ({ op := 0x070C, need := 20 } : FwSpec).op pinCmd pinState)) (cmdRq pinCmd) (p64 pinCmd 8) (4 * p32 pinCmd 16) 0).2.2.2
    (p8 pinCmd 0) (chunks 16 (tokenList [])) 0 noPage true).2.srv.pins k).isNone) 65536 0 = none := by
  refine full_pins _ ?_
  rw [lookupNone_pins, pinCmd_dpa, pinCmd_len]
  refine (readNone_pins _ _ ?_).trans ?_
  · decide +kernel
  · exact pinStart_pins fullPins

def pinned : State := { serveReady with srv := { serveReady.srv with pins := [(0, pin0)] } }

def folding0 : State :=
  let s := serveReq { req0 5 with moving := true, pauseMode := 2 }
  setComp s 0 { compOf s 0 with folding := true, summaries := [0] }

/-- A state and operands that meet the hypotheses of clause 1 of ModelAndPoolRows. -/
theorem wit_ModelAndPoolRows_1 :
    ∃ (c : Cmd) (s a b : State) (x : Model), Begun { op := 0x0701, need := 24, vf := false } c s a ∧ b = settle c a ∧ x = parseModel (padTo 24 (body c)) ∧ p8 c 0 ≤ 15 ∧ 0 < x.payload ∧ x.payload % 4096 = 0 ∧ x.payload ≤ 16777216 ∧ 16 ≤ x.maxCtx ∧ x.maxCtx ≤ 16777216 ∧ x.scount ≤ 64 ∧ poolServes b x.live 0 x.payload = true ∧ (x.park = 255 ∨ poolServes b x.park 1 x.payload = true) ∧ (x.summary = 255 ∨ poolServes b x.summary 2 x.payload = true) ∧ modelOf b (p8 c 0) = none := by
  refine ⟨adm ([1] ++ modelBytes.drop 1), serveReady, _, _, _, begun_of (by decide +kernel) (by decide +kernel) (by decide +kernel) (by decide +kernel) (by decide +kernel), rfl, rfl, ?_, ?_, ?_, ?_, ?_, ?_, ?_, ?_, ?_, ?_, ?_⟩ <;> first | decide +kernel | rfl | exact .inl (by decide +kernel) | exact .inr (by decide +kernel) | (intro h; exact absurd h (by decide +kernel))

/-- A state and operands that meet the hypotheses of clause 2 of ModelAndPoolRows. -/
theorem wit_ModelAndPoolRows_2 :
    ∃ (c : Cmd) (s a b : State) (x : Model), Begun { op := 0x0701, need := 24, vf := false } c s a ∧ b = settle c a ∧ x = parseModel (padTo 24 (body c)) ∧ p8 c 0 ≤ 15 ∧ 0 < x.payload ∧ x.payload % 4096 = 0 ∧ x.payload ≤ 16777216 ∧ 16 ≤ x.maxCtx ∧ x.maxCtx ≤ 16777216 ∧ x.scount ≤ 64 ∧ poolServes b x.live 0 x.payload = false := by
  refine ⟨adm ([1] ++ (modelBytes.drop 1).set 15 5), serveReady, _, _, _, begun_of (by decide +kernel) (by decide +kernel) (by decide +kernel) (by decide +kernel) (by decide +kernel), rfl, rfl, ?_, ?_, ?_, ?_, ?_, ?_, ?_, ?_⟩ <;> first | decide +kernel | rfl

/-- A state and operands that meet the hypotheses of clause 3 of ModelAndPoolRows. -/
theorem wit_ModelAndPoolRows_3 :
    ∃ (c : Cmd) (s a b : State), Begun { op := 0x0702, need := 1, vf := false } c s a ∧ b = settle c a ∧ (modelOf b (p8 c 0)).isSome = true ∧ b.srv.reqs.any (fun r => r.2.st != 0 && r.2.model == p8 c 0) = false := by
  refine ⟨adm [0], serveReady, _, _, begun_of (by decide +kernel) (by decide +kernel) (by decide +kernel) (by decide +kernel) (by decide +kernel), rfl, ?_, ?_⟩ <;> first | decide +kernel | rfl

/-- A state and operands that meet the hypotheses of clause 4 of ModelAndPoolRows. -/
theorem wit_ModelAndPoolRows_4 :
    ∃ (c : Cmd) (s a b : State), Begun { op := 0x0702, need := 1, vf := false } c s a ∧ b = settle c a ∧ (modelOf b (p8 c 0)).isSome = true ∧ b.srv.reqs.any (fun r => r.2.st != 0 && r.2.model == p8 c 0) = true := by
  refine ⟨adm [0], serveReq (req0 5), _, _, begun_of (by decide +kernel) (by decide +kernel) (by decide +kernel) (by decide +kernel) (by decide +kernel), rfl, ?_, ?_⟩ <;> first | decide +kernel | rfl

/-- A state and operands that meet the hypotheses of clause 5 of ModelAndPoolRows. -/
theorem wit_ModelAndPoolRows_5 :
    ∃ (c : Cmd) (s a b : State) (p : Pool), Begun { op := 0x0703, need := 36, vf := false } c s a ∧ b = settle c a ∧ p = parsePool (padTo 36 (body c)) ∧ p8 c 0 ≤ 7 ∧ p.kind ≤ 2 ∧ 0 < p.count ∧ p.first + p.count ≤ 16777216 ∧ p.stride % 4096 = 0 ∧ p.data % 4096 = 0 ∧ p.trailers % 128 = 0 ∧ isDpa p.data = true ∧ isDpa p.trailers = true ∧ poolNamed b (p8 c 0) = false ∧ b.srv.pools.any (fun e => e.1 != p8 c 0 && rangesMeet p.first p.count e.2.first e.2.count) = false ∧ poolPlaced b p.kind p.data (p.stride * p.count) = true ∧ fastArea b none p.trailers (128 * p.count) = true := by
  refine ⟨adm ([1] ++ (poolBytes.drop 1).set 3 8 ++ []), serveReady, _, _, _, begun_of (by decide +kernel) (by decide +kernel) (by decide +kernel) (by decide +kernel) (by decide +kernel), rfl, rfl, ?_, ?_, ?_, ?_, ?_, ?_, ?_, ?_, ?_, ?_, ?_, ?_, ?_⟩ <;> first | decide +kernel | rfl

/-- A state and operands that meet the hypotheses of clause 6 of ModelAndPoolRows. -/
theorem wit_ModelAndPoolRows_6 :
    ∃ (c : Cmd) (s a b : State), Begun { op := 0x0704, need := 24, vf := false } c s a ∧ b = settle c a ∧ 1 ≤ p32 c 8 ∧ p32 c 8 ≤ 1048576 ∧ p64 c 0 % 4096 = 0 ∧ p64 c 16 % 4096 = 0 ∧ isDpa (p64 c 0) = true ∧ isDpa (p64 c 16) = true ∧ b.srv.models = [] ∧ fastArea b none (p64 c 0) (4096 * p32 c 8) = true ∧ fastArea b none (p64 c 16) 16777216 = true := by
  refine ⟨adm (leBytes 8 0x300000 ++ leBytes 4 4 ++ zeros 4 ++ leBytes 8 0x2000000), memReady, _, _, begun_of (by decide +kernel) (by decide +kernel) (by decide +kernel) (by decide +kernel) (by decide +kernel), rfl, ?_, ?_, ?_, ?_, ?_, ?_, ?_, ?_, ?_⟩ <;> first | decide +kernel | rfl

/-- A state and operands that meet the hypotheses of clause 7 of ModelAndPoolRows. -/
theorem wit_ModelAndPoolRows_7 :
    ∃ (c : Cmd) (s a b : State), Begun { op := 0x0704, need := 24, vf := false } c s a ∧ b = settle c a ∧ 1 ≤ p32 c 8 ∧ p32 c 8 ≤ 1048576 ∧ p64 c 0 % 4096 = 0 ∧ p64 c 16 % 4096 = 0 ∧ isDpa (p64 c 0) = true ∧ isDpa (p64 c 16) = true ∧ b.srv.models ≠ [] := by
  refine ⟨adm (leBytes 8 0x300000 ++ leBytes 4 4 ++ zeros 4 ++ leBytes 8 0x2000000), serveReady, _, _, begun_of (by decide +kernel) (by decide +kernel) (by decide +kernel) (by decide +kernel) (by decide +kernel), rfl, ?_, ?_, ?_, ?_, ?_, ?_, ?_⟩ <;> first | decide +kernel | rfl

/-- A state and operands that meet the hypotheses of clause 8 of ModelAndPoolRows. -/
theorem wit_ModelAndPoolRows_8 :
    ∃ (c : Cmd) (s a b v : State) (d : List Byte), Begun { op := 0x070B, need := 20 } c s a ∧ b = settle c a ∧ (modelOf b (p8 c 0)).isSome = true ∧ (readBytes b (cmdRq c) (p64 c 8) (4 * ((p32 c 16 - 1) / 16 * 16)) 0).1 = St.ok ∧ d = (readBytes b (cmdRq c) (p64 c 8) (4 * ((p32 c 16 - 1) / 16 * 16)) 0).2.1 ∧ (readBytes b (cmdRq c) (p64 c 8) (4 * ((p32 c 16 - 1) / 16 * 16)) 0).2.2.1 = false ∧ v = (readBytes b (cmdRq c) (p64 c 8) (4 * ((p32 c 16 - 1) / 16 * 16)) 0).2.2.2 := by
  refine ⟨par (zeros 8 ++ leBytes 8 0x3000 ++ leBytes 4 17), serveReady, _, _, _, _, begun_of (by decide +kernel) (by decide +kernel) (by decide +kernel) (by decide +kernel) (by decide +kernel), rfl, ?_, ?_, rfl, ?_, rfl⟩ <;> first | decide +kernel | rfl

/-- A state and operands that meet the hypotheses of clause 9 of ModelAndPoolRows. -/
theorem wit_ModelAndPoolRows_9 :
    ∃ (c : Cmd) (s a b : State), Begun { op := 0x070B, need := 20 } c s a ∧ b = settle c a ∧ modelOf b (p8 c 0) = none := by
  refine ⟨par ([3] ++ zeros 7 ++ leBytes 8 0x3000 ++ leBytes 4 17), serveReady, _, _, begun_of (by decide +kernel) (by decide +kernel) (by decide +kernel) (by decide +kernel) (by decide +kernel), rfl, ?_⟩ <;> first | decide +kernel | rfl

/-- A state and operands that meet the hypotheses of clause 10 of ModelAndPoolRows. -/
theorem wit_ModelAndPoolRows_10 :
    ∃ (c : Cmd) (s a b v u : State) (d : List Byte), Begun { op := 0x070C, need := 20 } c s a ∧ b = settle c a ∧ (modelOf b (p8 c 0)).isSome = true ∧ p32 c 16 % 16 = 0 ∧ (readBytes b (cmdRq c) (p64 c 8) (4 * p32 c 16) 0).1 = St.ok ∧ d = (readBytes b (cmdRq c) (p64 c 8) (4 * p32 c 16) 0).2.1 ∧ (readBytes b (cmdRq c) (p64 c 8) (4 * p32 c 16) 0).2.2.1 = false ∧ v = (readBytes b (cmdRq c) (p64 c 8) (4 * p32 c 16) 0).2.2.2 ∧ u = (lookup v (p8 c 0) (chunks 16 (tokenList d)) 0 noPage true).2 ∧ (lookup v (p8 c 0) (chunks 16 (tokenList d)) 0 noPage true).1.length < p32 c 16 / 16 := by
  refine ⟨par (zeros 8 ++ leBytes 8 0x3000 ++ leBytes 4 16), serveReady, _, _, _, _, _, begun_of (by decide +kernel) (by decide +kernel) (by decide +kernel) (by decide +kernel) (by decide +kernel), rfl, ?_, ?_, ?_, rfl, ?_, rfl, rfl, ?_⟩ <;> first | decide +kernel | rfl

/-- A state and operands that meet the hypotheses of clause 11 of ModelAndPoolRows. -/
theorem wit_ModelAndPoolRows_11 :
    ∃ (c : Cmd) (s a b v u : State) (d : List Byte) (l : List Nat) (k : Nat), Begun { op := 0x070C, need := 20 } c s a ∧ b = settle c a ∧ (modelOf b (p8 c 0)).isSome = true ∧ p32 c 16 % 16 = 0 ∧ readBytes b (cmdRq c) (p64 c 8) (4 * p32 c 16) 0 = (St.ok, d, false, v) ∧ lookup v (p8 c 0) (chunks 16 (tokenList d)) 0 noPage true = (l, u) ∧ p32 c 16 / 16 ≤ l.length ∧ findFrom (fun k => (mfind u.srv.pins k).isNone) 65536 0 = some k := by
  refine ⟨par (zeros 8 ++ leBytes 8 0x3000 ++ leBytes 4 0), serveReady, _, _, _, _, [], _, 0, begun_of (by decide +kernel) (by decide +kernel) (by decide +kernel) (by decide +kernel) (by decide +kernel), rfl, ?_, ?_, quad_of (by decide +kernel) (by decide +kernel) (by decide +kernel), eta_pair _, ?_, ?_⟩ <;> first | decide +kernel | (intro p n h; cases h) | rfl | exact .inl (by decide +kernel) | exact .inr (by decide +kernel) | (intro h; exact absurd h (by decide +kernel))

/-- A state and operands that meet the hypotheses of clause 13 of ModelAndPoolRows. -/
theorem wit_ModelAndPoolRows_13 :
    ∃ (c : Cmd) (s a b : State) (x : Pin), Begun { op := 0x070D, need := 4 } c s a ∧ b = settle c a ∧ pinOf b (p32 c 0) = some x := by
  refine ⟨par (leBytes 4 65536), pinned, _, _, pin0, begun_of (by decide +kernel) (by decide +kernel) (by decide +kernel) (by decide +kernel) (by decide +kernel), rfl, ?_⟩ <;> first | decide +kernel | rfl

/-- A state and operands that meet the hypotheses of clause 14 of ModelAndPoolRows. -/
theorem wit_ModelAndPoolRows_14 :
    ∃ (c : Cmd) (s a b : State), Begun { op := 0x070D, need := 4 } c s a ∧ b = settle c a ∧ pinOf b (p32 c 0) = none := by
  refine ⟨par (leBytes 4 65537), pinned, _, _, begun_of (by decide +kernel) (by decide +kernel) (by decide +kernel) (by decide +kernel) (by decide +kernel), rfl, ?_⟩ <;> first | decide +kernel | rfl

/-- A state and operands that meet the hypotheses of clause 15 of ModelAndPoolRows. -/
theorem wit_ModelAndPoolRows_15 :
    ∃ (c : Cmd) (s a b : State), Begun { op := 0x070E, need := 1, vf := false } c s a ∧ b = settle c a ∧ (modelOf b (p8 c 0)).isSome = true := by
  refine ⟨adm [0], serveReady, _, _, begun_of (by decide +kernel) (by decide +kernel) (by decide +kernel) (by decide +kernel) (by decide +kernel), rfl, ?_⟩ <;> first | decide +kernel | rfl

/-- A state and operands that meet the hypotheses of clause 16 of ModelAndPoolRows. -/
theorem wit_ModelAndPoolRows_16 :
    ∃ (c : Cmd) (s a b : State) (p : Pool), Begun { op := 0x070F, need := 16 } c s a ∧ b = settle c a ∧ mfind b.srv.pools (p8 c 0) = some p ∧ hostOk b (p64 c 8) 64 = true := by
  refine ⟨adm (zeros 8 ++ leBytes 8 0x7000), serveReady, _, _, pool0, begun_of (by decide +kernel) (by decide +kernel) (by decide +kernel) (by decide +kernel) (by decide +kernel), rfl, ?_, ?_⟩ <;> first | decide +kernel | rfl

/-- A state and operands that meet the hypotheses of clause 12 of ModelAndPoolRows. -/
theorem wit_ModelAndPoolRows_12 :
    ∃ (c : Cmd) (s a b v u : State) (d : List Byte) (l : List Nat), Begun { op := 0x070C, need := 20 } c s a ∧ b = settle c a ∧ (modelOf b (p8 c 0)).isSome = true ∧ p32 c 16 % 16 = 0 ∧ readBytes b (cmdRq c) (p64 c 8) (4 * p32 c 16) 0 = (St.ok, d, false, v) ∧ lookup v (p8 c 0) (chunks 16 (tokenList d)) 0 noPage true = (l, u) ∧ p32 c 16 / 16 ≤ l.length ∧ findFrom (fun k => (mfind u.srv.pins k).isNone) 65536 0 = none := by
  refine ⟨pinCmd, pinState, _, _, _, _, [], _, begun_of (by decide +kernel) (by decide +kernel) (by decide +kernel) (by decide +kernel) (by decide +kernel), rfl, ?_, ?_, quad_of (by decide +kernel) (by decide +kernel) (by decide +kernel), eta_pair _, ?_, pinState_full⟩ <;> first | decide +kernel | (intro p n h; cases h) | rfl | exact .inl (by decide +kernel) | exact .inr (by decide +kernel) | (intro h; exact absurd h (by decide +kernel))

/-- A state and operands that meet the hypotheses of clause 1 of RequestRows. -/
theorem wit_RequestRows_1 :
    ∃ (c : Cmd) (s a b : State) (d : List Byte), Begun { op := 0x0705, need := 128, ext := true, refuse := fun c _ => p8 c 5 / 16 % 4 != c.fn - 1 } c s a ∧ b = settle c a ∧ d = padTo 128 (body c) ∧ modelOf b (fieldN d 6 1) = none := by
  refine ⟨reqSubmitCmd 3 16, serveReady, _, _, _, begun_of (by decide +kernel) (by decide +kernel) (by decide +kernel) (by decide +kernel) (by decide +kernel), rfl, rfl, ?_⟩ <;> first | decide +kernel | rfl

/-- A state and operands that meet the hypotheses of clause 2 of RequestRows. -/
theorem wit_RequestRows_2 :
    ∃ (c : Cmd) (s a b : State) (d : List Byte) (x : Model), Begun { op := 0x0705, need := 128, ext := true, refuse := fun c _ => p8 c 5 / 16 % 4 != c.fn - 1 } c s a ∧ b = settle c a ∧ d = padTo 128 (body c) ∧ modelOf b (fieldN d 6 1) = some x ∧ (fieldN d 76 4 = 0 ∨ x.maxCtx < fieldN d 76 4) := by
  refine ⟨reqSubmitCmd 0 65, serveReady, _, _, _, model0, begun_of (by decide +kernel) (by decide +kernel) (by decide +kernel) (by decide +kernel) (by decide +kernel), rfl, rfl, ?_, ?_⟩ <;> first | decide +kernel | exact .inr (by decide +kernel)

def probeSampling : Sampling := parseSampling samplingBytes

/-- A state and operands that meet the hypotheses of clause 3 of RequestRows. -/
theorem wit_RequestRows_3 :
    ∃ (c : Cmd) (s a b u v t : State) (d res : List Byte) (x : Model) (q : Sampling) (st : Nat), Begun { op := 0x0705, need := 128, ext := true, refuse := fun c _ => p8 c 5 / 16 % 4 != c.fn - 1 } c s a ∧ b = settle c a ∧ d = padTo 128 (body c) ∧ modelOf b (fieldN d 6 1) = some x ∧ 1 ≤ fieldN d 76 4 ∧ fieldN d 76 4 ≤ x.maxCtx ∧ (stamp b).toNat + fieldN d 24 8 < 2 ^ 64 ∧ grammarCheck b (fieldN d 5 1 / 16 % 4) (fieldN d 48 2) (fieldN d 52 4) = (none, u) ∧ samplingCheck u (fieldN d 5 1 / 16 % 4) (fieldN d 104 8) (fieldN d 56 8) = (some q, v) ∧ placeReq v d = .done st res t := by
  refine ⟨reqSubmitCmd 0 16, serveReady, _, _, _, _, (answered (placeReq placed submitted)).2, _, (answered (placeReq placed submitted)).1, model0, probeSampling, 0, begun_of (by decide +kernel) (by decide +kernel) (by decide +kernel) (by decide +kernel) (by decide +kernel), rfl, rfl, ?_, ?_, ?_, ?_, fst_pair (by decide +kernel), fst_pair (by decide +kernel), answered_ok (placeReq placed submitted) (by decide +kernel)⟩ <;> first | decide +kernel | (intro p n h; cases h) | rfl | exact .inl (by decide +kernel) | exact .inr (by decide +kernel) | (intro h; exact absurd h (by decide +kernel))

/-- A state and operands that meet the hypotheses of clause 5 of RequestRows. -/
theorem wit_RequestRows_5 :
    ∃ (s v : State) (d : List Byte) (e root : Nat), findFrom (fun e => (reqOf s e).st == 0) 4096 0 = some e ∧ fieldN d 100 4 = 0 ∧ pinOf s 0 = none ∧ fieldN d 80 8 < 281474976710656 ∧ 1 ≤ fieldN d 76 4 ∧ fieldN d 76 4 ≤ 16 ∧ (takeBlock s).isSome = true ∧ rangeStatus s (.serving (fieldN d 5 1 / 16 % 4)) false (fieldN d 80 8) 0 = St.ok ∧ v = (readBytes s (.serving (fieldN d 5 1 / 16 % 4)) (fieldN d 80 8) 0 0).2.2.2 ∧ (newBlock v true).map Prod.fst = some root := by
  refine ⟨serveReady, _, submitBytes 0 16, 0, 0, ?_, ?_, ?_, ?_, ?_, ?_, ?_, ?_, rfl, ?_⟩ <;> first | decide +kernel | rfl

/-- A state and operands that meet the hypotheses of clause 7 of RequestRows. -/
theorem wit_RequestRows_7 :
    ∃ (c : Cmd) (s a b : State) (e : Nat), Begun { op := 0x0706, need := 16, refuse := foreignReq } c s a ∧ b = settle c a ∧ stale b (p32 c 0) = false ∧ e = p32 c 0 % 4096 ∧ hostOk b (p64 c 8) 128 = true := by
  refine ⟨par (leBytes 4 4096 ++ zeros 4 ++ leBytes 8 0x7000), serveReq (req0 5), _, _, _, begun_of (by decide +kernel) (by decide +kernel) (by decide +kernel) (by decide +kernel) (by decide +kernel), rfl, ?_, rfl, ?_⟩ <;> first | decide +kernel | rfl

/-- A state and operands that meet the hypotheses of clause 8 of RequestRows. -/
theorem wit_RequestRows_8 :
    ∃ (c : Cmd) (s a b : State) (e : Nat), Begun { op := 0x0707, need := 4, refuse := foreignReq } c s a ∧ b = settle c a ∧ stale b (p32 c 0) = false ∧ e = p32 c 0 % 4096 ∧ 1 ≤ (reqOf b e).st ∧ (reqOf b e).st ≤ 7 ∧ (reqOf b e).moving = false ∧ (reqOf b e).inStep = false := by
  refine ⟨par (leBytes 4 4096), serveReq (req0 5), _, _, _, begun_of (by decide +kernel) (by decide +kernel) (by decide +kernel) (by decide +kernel) (by decide +kernel), rfl, ?_, rfl, ?_, ?_, ?_, ?_⟩ <;> first | decide +kernel | rfl

/-- A state and operands that meet the hypotheses of clause 9 of RequestRows. -/
theorem wit_RequestRows_9 :
    ∃ (c : Cmd) (s a b : State) (e : Nat), Begun { op := 0x0707, need := 4, refuse := foreignReq } c s a ∧ b = settle c a ∧ stale b (p32 c 0) = false ∧ e = p32 c 0 % 4096 ∧ 2 ≤ (reqOf b e).st ∧ (reqOf b e).st ≤ 4 ∧ (reqOf b e).moving = false ∧ (reqOf b e).inStep = true := by
  refine ⟨par (leBytes 4 4096), serveReq { req0 3 with inStep := true }, _, _, _, begun_of (by decide +kernel) (by decide +kernel) (by decide +kernel) (by decide +kernel) (by decide +kernel), rfl, ?_, rfl, ?_, ?_, ?_, ?_⟩ <;> first | decide +kernel | rfl

/-- A state and operands that meet the hypotheses of clause 11 of RequestRows. -/
theorem wit_RequestRows_11 :
    ∃ (c : Cmd) (s a b : State) (e : Nat), Begun { op := 0x0707, need := 4, refuse := foreignReq } c s a ∧ b = settle c a ∧ stale b (p32 c 0) = false ∧ e = p32 c 0 % 4096 ∧ ((reqOf b e).st = 9 ∨ (reqOf b e).st = 10) := by
  refine ⟨par (leBytes 4 4096 ++ zeros 8), serveReq (req0 9), _, _, _, begun_of (by decide +kernel) (by decide +kernel) (by decide +kernel) (by decide +kernel) (by decide +kernel), rfl, ?_, rfl, ?_⟩ <;> first | decide +kernel | (intro p n h; cases h) | rfl | exact .inl (by decide +kernel) | exact .inr (by decide +kernel) | (intro h; exact absurd h (by decide +kernel))

/-- A state and operands that meet the hypotheses of clause 12 of RequestRows. -/
theorem wit_RequestRows_12 :
    ∃ (c : Cmd) (s a b : State) (e : Nat), Begun { op := 0x0708, need := 12, refuse := foreignReq } c s a ∧ b = settle c a ∧ stale b (p32 c 0) = false ∧ e = p32 c 0 % 4096 ∧ p8 c 4 = 0 ∧ 1 ≤ (reqOf b e).st ∧ (reqOf b e).st ≤ 4 ∧ (reqOf b e).inStep = false := by
  refine ⟨par (leBytes 4 4096 ++ zeros 8), serveReq (req0 3), _, _, _, begun_of (by decide +kernel) (by decide +kernel) (by decide +kernel) (by decide +kernel) (by decide +kernel), rfl, ?_, rfl, ?_, ?_, ?_, ?_⟩ <;> first | decide +kernel | rfl

/-- A state and operands that meet the hypotheses of clause 13 of RequestRows. -/
theorem wit_RequestRows_13 :
    ∃ (c : Cmd) (s a b : State) (e : Nat), Begun { op := 0x0708, need := 12, refuse := foreignReq } c s a ∧ b = settle c a ∧ stale b (p32 c 0) = false ∧ e = p32 c 0 % 4096 ∧ p8 c 4 ≤ 2 ∧ 1 ≤ (reqOf b e).st ∧ (reqOf b e).st ≤ 4 ∧ (reqOf b e).inStep = true := by
  refine ⟨par (leBytes 4 4096 ++ zeros 8), serveReq { req0 3 with inStep := true }, _, _, _, begun_of (by decide +kernel) (by decide +kernel) (by decide +kernel) (by decide +kernel) (by decide +kernel), rfl, ?_, rfl, ?_, ?_, ?_, ?_⟩ <;> first | decide +kernel | rfl

/-- A state and operands that meet the hypotheses of clause 16 of RequestRows. -/
theorem wit_RequestRows_16 :
    ∃ (c : Cmd) (s a b : State) (e : Nat), Begun { op := 0x0709, need := 4, refuse := foreignReq } c s a ∧ b = settle c a ∧ stale b (p32 c 0) = false ∧ e = p32 c 0 % 4096 ∧ ((reqOf b e).st = 5 ∨ (reqOf b e).st = 7) := by
  refine ⟨par (leBytes 4 4096), serveReq (req0 5), _, _, _, begun_of (by decide +kernel) (by decide +kernel) (by decide +kernel) (by decide +kernel) (by decide +kernel), rfl, ?_, rfl, ?_⟩ <;> first | decide +kernel | exact .inl (by decide +kernel)

/-- A state and operands that meet the hypotheses of clause 19 of RequestRows. -/
theorem wit_RequestRows_19 :
    ∃ (c : Cmd) (s a b : State) (e : Nat), Begun { op := 0x070A, need := 4, refuse := foreignReq } c s a ∧ b = settle c a ∧ stale b (p32 c 0) = false ∧ e = p32 c 0 % 4096 ∧ ((reqOf b e).st = 9 ∨ (reqOf b e).st = 10) := by
  refine ⟨par (leBytes 4 4096), serveReq (req0 9), _, _, _, begun_of (by decide +kernel) (by decide +kernel) (by decide +kernel) (by decide +kernel) (by decide +kernel), rfl, ?_, rfl, ?_⟩ <;> first | decide +kernel | exact .inl (by decide +kernel)

/-- A state and operands that meet the hypotheses of clause 20 of RequestRows. -/
theorem wit_RequestRows_20 :
    ∃ (c : Cmd) (s a b : State) (e : Nat), Begun { op := 0x070A, need := 4, refuse := foreignReq } c s a ∧ b = settle c a ∧ stale b (p32 c 0) = false ∧ e = p32 c 0 % 4096 ∧ (reqOf b e).st ≤ 8 := by
  refine ⟨par (leBytes 4 4096), serveReq (req0 5), _, _, _, begun_of (by decide +kernel) (by decide +kernel) (by decide +kernel) (by decide +kernel) (by decide +kernel), rfl, ?_, rfl, ?_⟩ <;> first | decide +kernel | rfl

/-- A state and operands that meet the hypotheses of clause 21 of RequestRows. -/
theorem wit_RequestRows_21 :
    ∃ (s : State) (e : Nat), (reqOf s e).moving = false := by
  refine ⟨serveReq (req0 5), 0, ?_⟩ <;> first | decide +kernel | rfl

/-- A state and operands that meet the hypotheses of clause 24 of RequestRows. -/
theorem wit_RequestRows_24 :
    ∃ (s : State) (e : Nat), ttlDue (reqOf s e) = true ∧ s.srv.reqs.all (fun x => decide (e ≤ x.1) || !ttlDue x.2) = true := by
  refine ⟨parked 0, 0, ?_, ?_⟩ <;> first | decide +kernel | rfl

/-- A state and operands that meet the hypotheses of clause 25 of RequestRows. -/
theorem wit_RequestRows_25 :
    ∃ (s : State) (e : Nat), ttlDue (reqOf s e) = false := by
  refine ⟨parked 1, 0, ?_⟩ <;> first | decide +kernel | rfl

/-- A state and operands that meet the hypotheses of clause 26 of RequestRows. -/
theorem wit_RequestRows_26 :
    ∃ (s : State) (e : Nat), (reqOf s e).restoring = false := by
  refine ⟨parked 1, 0, ?_⟩ <;> first | decide +kernel | rfl

/-- A state and operands that meet the hypotheses of clause 31 of RequestRows. -/
theorem wit_RequestRows_31 :
    ∃ (s : State) (e : Nat), (compOf s (reqOf s e).part).folding = false := by
  refine ⟨serveReq (req0 5), 0, ?_⟩ <;> first | decide +kernel | rfl

/-- A state and operands that meet the hypotheses of clause 6 of RequestRows. -/
theorem wit_RequestRows_6 :
    ∃ (c : Cmd) (s a b : State) (k n : Nat) (i : Instr), (k, n, i) ∈ [(0x0706, 16, .reqQuery c), (0x0707, 4, .reqCancel c), (0x0708, 12, .reqPause c), (0x0709, 4, .reqResume c), (0x070A, 4, .reqRetire c)] ∧ Begun { op := k, need := n, refuse := foreignReq } c s a ∧ b = settle c a ∧ stale b (p32 c 0) = true := by
  refine ⟨(par (leBytes 4 8192 ++ zeros 4 ++ leBytes 8 0x7000)), serveReq (req0 5), _, _, 0x0706, 16, .reqQuery (par (leBytes 4 8192 ++ zeros 4 ++ leBytes 8 0x7000)), List.Mem.head _, begun_of (by decide +kernel) (by decide +kernel) (by decide +kernel) (by decide +kernel) (by decide +kernel), rfl, ?_⟩ <;> first | decide +kernel | (intro p n h; cases h) | rfl | exact .inl (by decide +kernel) | exact .inr (by decide +kernel) | (intro h; exact absurd h (by decide +kernel))

/-- A state and operands that meet the hypotheses of clause 10 of RequestRows. -/
theorem wit_RequestRows_10 :
    ∃ (c : Cmd) (s a b : State) (e : Nat), Begun { op := 0x0707, need := 4, refuse := foreignReq } c s a ∧ b = settle c a ∧ stale b (p32 c 0) = false ∧ e = p32 c 0 % 4096 ∧ 1 ≤ (reqOf b e).st ∧ (reqOf b e).st ≤ 7 ∧ (reqOf b e).moving = true := by
  refine ⟨par (leBytes 4 4096 ++ zeros 8), serveReq { req0 5 with moving := true }, _, _, _, begun_of (by decide +kernel) (by decide +kernel) (by decide +kernel) (by decide +kernel) (by decide +kernel), rfl, ?_, rfl, ?_, ?_, ?_⟩ <;> first | decide +kernel | (intro p n h; cases h) | rfl | exact .inl (by decide +kernel) | exact .inr (by decide +kernel) | (intro h; exact absurd h (by decide +kernel))

/-- A state and operands that meet the hypotheses of clause 14 of RequestRows. -/
theorem wit_RequestRows_14 :
    ∃ (c : Cmd) (s a b t : State) (e st : Nat), Begun { op := 0x0708, need := 12, refuse := foreignReq } c s a ∧ b = settle c a ∧ stale b (p32 c 0) = false ∧ e = p32 c 0 % 4096 ∧ p8 c 4 ≤ 2 ∧ 1 ≤ (reqOf b e).st ∧ (reqOf b e).st ≤ 4 ∧ (reqOf b e).inStep = false ∧ applyPause (setReq b e { reqOf b e with pauseMode := p8 c 4, pauseTtl := p32 c 8 }) e = (some st, t) := by
  refine ⟨par (leBytes 4 4096 ++ zeros 8), serveReq (req0 3), _, _, _, _, 0, begun_of (by decide +kernel) (by decide +kernel) (by decide +kernel) (by decide +kernel) (by decide +kernel), rfl, ?_, rfl, ?_, ?_, ?_, ?_, fst_pair (by decide +kernel)⟩ <;> first | decide +kernel | (intro p n h; cases h) | rfl | exact .inl (by decide +kernel) | exact .inr (by decide +kernel) | (intro h; exact absurd h (by decide +kernel))

/-- A state and operands that meet the hypotheses of clause 4 of RequestRows. -/
theorem wit_RequestRows_4 :
    ∃ (c : Cmd) (s a b u v : State) (d : List Byte) (x : Model), Begun { op := 0x0705, need := 128, ext := true, refuse := fun c _ => p8 c 5 / 16 % 4 != c.fn - 1 } c s a ∧ b = settle c a ∧ d = padTo 128 (body c) ∧ modelOf b (fieldN d 6 1) = some x ∧ 1 ≤ fieldN d 76 4 ∧ fieldN d 76 4 ≤ x.maxCtx ∧ (stamp b).toNat + fieldN d 24 8 < 2 ^ 64 ∧ grammarCheck b (fieldN d 5 1 / 16 % 4) (fieldN d 48 2) (fieldN d 52 4) = (none, u) ∧ samplingCheck u (fieldN d 5 1 / 16 % 4) (fieldN d 104 8) (fieldN d 56 8) = (none, v) := by
  refine ⟨reqSubmitCmd 0 16, { memReady with srv := serveReady.srv }, _, _, _, _, _, model0, begun_of (by decide +kernel) (by decide +kernel) (by decide +kernel) (by decide +kernel) (by decide +kernel), rfl, rfl, ?_, ?_, ?_, ?_, fst_pair (by decide +kernel), fst_pair (by decide +kernel)⟩ <;> first | decide +kernel | (intro p n h; cases h) | rfl | exact .inl (by decide +kernel) | exact .inr (by decide +kernel) | (intro h; exact absurd h (by decide +kernel))

/-- A state and operands that meet the hypotheses of clause 15 of RequestRows. -/
theorem wit_RequestRows_15 :
    ∃ (c : Cmd) (s a b t : State) (e : Nat), Begun { op := 0x0708, need := 12, refuse := foreignReq } c s a ∧ b = settle c a ∧ stale b (p32 c 0) = false ∧ e = p32 c 0 % 4096 ∧ p8 c 4 ≤ 2 ∧ 1 ≤ (reqOf b e).st ∧ (reqOf b e).st ≤ 4 ∧ (reqOf b e).inStep = false ∧ applyPause (setReq b e { reqOf b e with pauseMode := p8 c 4, pauseTtl := p32 c 8 }) e = (none, t) := by
  refine ⟨(par (leBytes 4 4096 ++ [1] ++ zeros 7)), { serveReq (req0 3) with srv := { (serveReq (req0 3)).srv with models := [(0, { model0 with park := 0 })] } }, _, _, _, _, begun_of (by decide +kernel) (by decide +kernel) (by decide +kernel) (by decide +kernel) (by decide +kernel), rfl, ?_, rfl, ?_, ?_, ?_, ?_, fst_pair (by decide +kernel)⟩ <;> first | decide +kernel | (intro p n h; cases h) | rfl | exact .inl (by decide +kernel) | exact .inr (by decide +kernel) | (intro h; exact absurd h (by decide +kernel))

/-- A state and operands that meet the hypotheses of clause 17 of RequestRows. -/
theorem wit_RequestRows_17 :
    ∃ (c : Cmd) (s a b t : State) (e : Nat), Begun { op := 0x0709, need := 4, refuse := foreignReq } c s a ∧ b = settle c a ∧ stale b (p32 c 0) = false ∧ e = p32 c 0 % 4096 ∧ (reqOf b e).st = 6 ∧ (reqOf b e).restoring = false ∧ startRestore b e = .wait (.request e) t := by
  refine ⟨(par (leBytes 4 4096)), serveReq (req0 6), _, _, (answered (startRestore (settle (par (leBytes 4 4096)) (arrive 0x0709 (par (leBytes 4 4096)) (serveReq (req0 6)))) (p32 (par (leBytes 4 4096)) 0 % 4096))).2, _, begun_of (by decide +kernel) (by decide +kernel) (by decide +kernel) (by decide +kernel) (by decide +kernel), rfl, ?_, rfl, ?_, ?_, answered_wait _ _ (by decide +kernel)⟩ <;> first | decide +kernel | (intro p n h; cases h) | rfl | exact .inl (by decide +kernel) | exact .inr (by decide +kernel) | (intro h; exact absurd h (by decide +kernel))

/-- A state and operands that meet the hypotheses of clause 18 of RequestRows. -/
theorem wit_RequestRows_18 :
    ∃ (c : Cmd) (s a b t : State) (e st : Nat), Begun { op := 0x0709, need := 4, refuse := foreignReq } c s a ∧ b = settle c a ∧ stale b (p32 c 0) = false ∧ e = p32 c 0 % 4096 ∧ (reqOf b e).st = 6 ∧ (reqOf b e).restoring = false ∧ startRestore b e = .done st [] t := by
  refine ⟨(par (leBytes 4 4096)), { serveReq { req0 6 with pages := [(0, 0x80000000)] } with srv := { (serveReq { req0 6 with pages := [(0, 0x80000000)] }).srv with pools := [(0, { pool0 with fresh := 4 })] } }, _, _, (answered (startRestore (settle (par (leBytes 4 4096)) (arrive 0x0709 (par (leBytes 4 4096)) { serveReq { req0 6 with pages := [(0, 0x80000000)] } with srv := { (serveReq { req0 6 with pages := [(0, 0x80000000)] }).srv with pools := [(0, { pool0 with fresh := 4 })] } })) (p32 (par (leBytes 4 4096)) 0 % 4096))).2, _, St.pagesExhausted, begun_of (by decide +kernel) (by decide +kernel) (by decide +kernel) (by decide +kernel) (by decide +kernel), rfl, ?_, rfl, ?_, ?_, answered_bare _ _ (by decide +kernel)⟩ <;> first | decide +kernel | (intro p n h; cases h) | rfl | exact .inl (by decide +kernel) | exact .inr (by decide +kernel) | (intro h; exact absurd h (by decide +kernel))

/-- A state and operands that meet the hypotheses of clause 22 of RequestRows. -/
theorem wit_RequestRows_22 :
    ∃ (s u v : State) (e st : Nat) (r : Req), r = reqOf s e ∧ r.st = 5 ∧ r.moving = true ∧ r.pauseMode = 1 ∧ pagesHeld s (.serving r.part) (pageLen s r) (movePairs s e r.moveSrc) = false ∧ copyPages (.serving r.part) (pageLen s r) (movePairs s e r.moveSrc) s St.ok = (st, u) ∧ statusRuns st = true ∧ v = r.moveSrc.foldl (parkOne e) u := by
  refine ⟨serveReq { movingReq 5 1 with moveSrc := [] }, _, _, 0, _, _, rfl, ?_, ?_, ?_, ?_, eta_pair _, ?_, rfl⟩ <;> first | decide +kernel | (intro p n h; cases h) | rfl | exact .inl (by decide +kernel) | exact .inr (by decide +kernel) | (intro h; exact absurd h (by decide +kernel))

/-- A state and operands that meet the hypotheses of clause 23 of RequestRows. -/
theorem wit_RequestRows_23 :
    ∃ (s u : State) (e st : Nat) (r : Req), r = reqOf s e ∧ r.st = 5 ∧ r.moving = true ∧ r.pauseMode = 1 ∧ pagesHeld s (.serving r.part) (pageLen s r) (movePairs s e r.moveSrc) = false ∧ copyPages (.serving r.part) (pageLen s r) (movePairs s e r.moveSrc) s St.ok = (st, u) ∧ statusRuns st = false := by
  refine ⟨lostPool (serveReq (movingReq 5 1)), _, 0, _, _, rfl, ?_, ?_, ?_, ?_, eta_pair _, ?_⟩ <;> first | decide +kernel | (intro p n h; cases h) | rfl | exact .inl (by decide +kernel) | exact .inr (by decide +kernel) | (intro h; exact absurd h (by decide +kernel))

/-- A state and operands that meet the hypotheses of clause 27 of RequestRows. -/
theorem wit_RequestRows_27 :
    ∃ (s u v : State) (e st : Nat) (r : Req) (l : List (Nat × Nat)), r = reqOf s e ∧ r.st = 6 ∧ r.restoring = true ∧ l = r.moveSrc.filter (fun m => !moveAttached m) ∧ pagesHeld s (.serving r.part) (pageLen s r) (movePairs s e l) = false ∧ copyPages (.serving r.part) (pageLen s r) (movePairs s e l) s St.ok = (st, u) ∧ statusRuns st = true ∧ v = r.moveSrc.foldl (restoreOne e) u := by
  refine ⟨serveReq { movingReq 6 1 with moving := false, restoring := true, moveSrc := [(0, 2 ^ 24)] }, _, _, 0, _, _, _, rfl, ?_, ?_, rfl, ?_, eta_pair _, ?_, rfl⟩ <;> first | decide +kernel | (intro p n h; cases h) | rfl | exact .inl (by decide +kernel) | exact .inr (by decide +kernel) | (intro h; exact absurd h (by decide +kernel))

/-- A state and operands that meet the hypotheses of clause 28 of RequestRows. -/
theorem wit_RequestRows_28 :
    ∃ (s u : State) (e st : Nat) (r : Req) (l : List (Nat × Nat)), r = reqOf s e ∧ r.st = 6 ∧ r.restoring = true ∧ l = r.moveSrc.filter (fun m => !moveAttached m) ∧ pagesHeld s (.serving r.part) (pageLen s r) (movePairs s e l) = false ∧ copyPages (.serving r.part) (pageLen s r) (movePairs s e l) s St.ok = (st, u) ∧ statusRuns st = false := by
  refine ⟨lostPool (serveReq { movingReq 6 1 with moving := false, restoring := true, moveSrc := [(0, 1)] }), _, 0, _, _, _, rfl, ?_, ?_, rfl, ?_, eta_pair _, ?_⟩ <;> first | decide +kernel | (intro p n h; cases h) | rfl | exact .inl (by decide +kernel) | exact .inr (by decide +kernel) | (intro h; exact absurd h (by decide +kernel))

/-- A state and operands that meet the hypotheses of clause 29 of RequestRows. -/
theorem wit_RequestRows_29 :
    ∃ (s u v : State) (e n : Nat) (x : Model) (r : Req) (l : List Nat), r = reqOf s e ∧ (compOf s r.part).folding = true ∧ (queueOf s r.part 31).running = true ∧ (folds s r.part).contains e = true ∧ modelOf s r.model = some x ∧ (queueOf s r.part 31).cores = n :: l ∧ foldAll s (.core r.part n) e x r.moveSrc = some u ∧ v = endFold u e := by
  refine ⟨foldingNow { movingReq 5 2 with moveSrc := [] }, foldingNow { movingReq 5 2 with moveSrc := [] }, _, 0, 0, model0, _, [], rfl, ?_, ?_, ?_, ?_, ?_, rfl, rfl⟩ <;> first | decide +kernel | (intro p n h; cases h) | rfl | exact .inl (by decide +kernel) | exact .inr (by decide +kernel) | (intro h; exact absurd h (by decide +kernel))

/-- A state and operands that meet the hypotheses of clause 30 of RequestRows. -/
theorem wit_RequestRows_30 :
    ∃ (s : State) (e n : Nat) (x : Model) (r : Req) (l : List Nat), r = reqOf s e ∧ (compOf s r.part).folding = true ∧ (queueOf s r.part 31).running = true ∧ (folds s r.part).contains e = true ∧ modelOf s r.model = some x ∧ (queueOf s r.part 31).cores = n :: l ∧ foldAll s (.core r.part n) e x r.moveSrc = none ∧ foldStatus s (.core r.part n) x.payload (movePairs s e r.moveSrc) = 0 := by
  refine ⟨foldingBare, 0, 0, model0, _, [], rfl, ?_, ?_, ?_, ?_, ?_, folding_none, ?_⟩ <;> first | decide +kernel | (intro p n h; cases h) | rfl | exact .inl (by decide +kernel) | exact .inr (by decide +kernel) | (intro h; exact absurd h (by decide +kernel))

def compBytes : List Byte :=
  [0, 0] ++ leBytes 2 8 ++ leBytes 4 64 ++ leBytes 4 16 ++ leBytes 4 16 ++ [0, 0] ++ leBytes 2 5 ++ zeros 4 ++ leBytes 8 0x1800 ++ leBytes 8 0x100000 ++
    leBytes 8 0x10000

def comp0 : Composer := { parseComp {} compBytes with enabled := true }

def area0 : LogitsArea := { format := 0, vocab := 1, area := 0x4000, stride := 64, vectors := 4 }

/-- A composer with a readable program of one command on queue 28. -/
def stepReady (s : State) (k : Composer) : State :=
  setComp (writeBytes { s with flo.areas := [(0, area0)] } .admin 0x1800 (padTo 64 (leBytes 8 0x3000 ++ leBytes 4 1)) false 1).2 0 k

def prop0 : Proposal :=
  { no := 3, stamp := 0, rows := [], gen := 0, prompt := 0, since := 0, chunk := 64, mode := 0, maxRows := 8, budget := 64, amend := 0, tally := 5 }

def run0 (ph : Nat) : RunStep := { no := 3, rows := [], confirm := 0, since := 0, tally := 5, phase := ph }

def reqReady : Req := { req0 3 with committed := 16, root := 0, sampling := 0x2000 }

def slot0 : FrameSlot := parseSlot ([0, 0, 0, 2] ++ leBytes 4 4096 ++ leBytes 8 0x8000 ++ leBytes 2 5 ++ leBytes 2 1 ++ leBytes 4 64 ++ zeros 13)

def slotted : State := { memReady with stp.slots := [(1, slot0)] }

def expBytes (n : Nat) : List Byte :=
  [0, 0] ++ leBytes 2 n ++ leBytes 2 4 ++ zeros 2 ++ leBytes 8 0x8000 ++ leBytes 8 0x9000 ++ leBytes 2 1 ++ zeros 14

def experts (k : Composer) : State := setComp { atomReady with stp.experts := [(0, parseExpert (expBytes 2))] } 0 k

def late (n : Nat) (k : Composer) : State := setComp { memReady with rul := { memReady.rul with line := BitVec.ofNat 48 n } } 0 k

def biasCmd : Cmd := { adm [] with flags := 1, len := 72, ext := zeros 72, extAddr := 64 }

/-- A grammar table of one state, class and token. -/
def table1 : List Byte :=
  [1, 0, 0, 0] ++ leBytes 4 1 ++ leBytes 4 1 ++ leBytes 4 1 ++ leBytes 4 0 ++ leBytes 4 0 ++ leBytes 4 136 ++ leBytes 4 1828815300 ++ zeros 104

theorem table1_crc : (crc32 (overlay table1 28 (zeros 4))).toNat = 1828815300 := by
  unfold crc32
  rw [crcFold_split _ 32 _ _ 1913033451 (by decide +kernel), crcFold_split _ 32 _ _ 188897026 (by decide +kernel),
    crcFold_split _ 32 _ _ 2596322407 (by decide +kernel), crcFold_split _ 32 _ _ 1713105984 (by decide +kernel)]
  decide +kernel

theorem table1_ok : grammarOk table1 = true := by
  have h := table1_crc
  simp only [grammarOk, h]
  decide +kernel

def grammarReady : State := (writeBytes memReady .admin 0x4000 table1 false 1).2

def serveGrammar : State :=
  { serveReq { req0 5 with gtable := 1 } with flo := { memReady.flo with grammars := [(1, 0x4000)] } }

/-- A request with sampling parameters and a vector of one score. -/
def probeReady : State :=
  (writeBytes { serveReq { req0 5 with sampling := 0x2000 } with flo := { memReady.flo with areas := [(0, area0)] } } .admin 0x4000
    (padTo 64 [0, 0, 0x80, 0x3F]) false 1).2

/-- A state and operands that meet the hypotheses of clause 1 of StepCommandRows. -/
theorem wit_StepCommandRows_1 :
    ∃ (c : Cmd) (s a b : State) (k n : Composer), Begun { op := 0x0801, need := 48, part := some 0 } c s a ∧ b = settle c a ∧ k = compOf b (p8 c 0) ∧ n = parseComp k (body c) ∧ p8 c 0 ≤ 3 ∧ 1 ≤ n.maxRows ∧ n.maxRows ≤ 512 ∧ 1 ≤ n.budget ∧ n.budget ≤ 65536 ∧ (n.mode.getLsbD 0 = false ∨ n.ride ≤ n.budget) ∧ 1 ≤ n.chunk ∧ n.chunk ≤ 65536 ∧ n.model ≤ 15 ∧ n.tally < 16384 ∧ n.hostBuf % 4096 = 0 ∧ n.batch % 65536 = 0 ∧ isDpa n.program = true ∧ isDpa n.batch = true ∧ fastArea b (some (p8 c 0)) n.program 64 = true ∧ fastArea b (some (p8 c 0)) n.batch 65536 = true ∧ (k.enabled = false ∨ (k.model = n.model ∧ k.program = n.program ∧ k.hostBuf = n.hostBuf ∧ k.batch = n.batch)) ∧ (k.prop = none ∨ n.mode.getLsbD 1 = false ∨ k.mode.getLsbD 1 = true) := by
  refine ⟨par compBytes, serveReady, _, _, _, _, begun_of (by decide +kernel) (by decide +kernel) (by decide +kernel) (by decide +kernel) (by decide +kernel), rfl, rfl, rfl, ?_, ?_, ?_, ?_, ?_, ?_, ?_, ?_, ?_, ?_, ?_, ?_, ?_, ?_, ?_, ?_, ?_, ?_⟩ <;> first | decide +kernel | rfl | exact .inl (by decide +kernel) | exact .inr (by decide +kernel) | (intro h; exact absurd h (by decide +kernel))

/-- A state and operands that meet the hypotheses of clause 3 of StepCommandRows. -/
theorem wit_StepCommandRows_3 :
    ∃ (c : Cmd) (s a b : State), Begun { op := 0x0801, need := 48, part := some 0 } c s a ∧ b = settle c a ∧ (parseComp (compOf b (p8 c 0)) (body c)).maxRows = 0 := by
  refine ⟨par (compBytes.set 2 0), serveReady, _, _, begun_of (by decide +kernel) (by decide +kernel) (by decide +kernel) (by decide +kernel) (by decide +kernel), rfl, ?_⟩ <;> first | decide +kernel | rfl

/-- A state and operands that meet the hypotheses of clause 4 of StepCommandRows. -/
theorem wit_StepCommandRows_4 :
    ∃ (c : Cmd) (s a b : State), Begun { op := 0x0803, need := 2, part := some 0 } c s a ∧ b = settle c a ∧ p8 c 0 ≤ 3 ∧ p8 c 1 = 1 ∧ (compOf b (p8 c 0)).configured = false := by
  refine ⟨par [0, 1], serveReady, _, _, begun_of (by decide +kernel) (by decide +kernel) (by decide +kernel) (by decide +kernel) (by decide +kernel), rfl, ?_, ?_, ?_⟩ <;> first | decide +kernel | rfl

/-- A state and operands that meet the hypotheses of clause 5 of StepCommandRows. -/
theorem wit_StepCommandRows_5 :
    ∃ (c : Cmd) (s a b v : State) (l : LogitsArea) (d : List Byte), Begun { op := 0x0803, need := 2, part := some 0 } c s a ∧ b = settle c a ∧ p8 c 0 ≤ 3 ∧ p8 c 1 = 1 ∧ (compOf b (p8 c 0)).configured = true ∧ programAt b (p8 c 0) (compOf b (p8 c 0)).program = (some d, v) ∧ programDpas d = true ∧ mfind v.flo.areas (p8 c 0) = some l ∧ fastArea v (some (p8 c 0)) l.area (l.stride * l.vectors) = true ∧ (compOf b (p8 c 0)).enabled = false ∧ (compOf b (p8 c 0)).run = none ∧ [28, 29, 30, 31].any (fun q => !queueIdle (queueOf v (p8 c 0) q)) = false ∧ v.stp.comps.any (fun x => x.1 != p8 c 0 && x.2.enabled && x.2.model == (compOf b (p8 c 0)).model) = false := by
  refine ⟨par [0, 1], stepReady serveReady { comp0 with enabled := false }, _, _, _, area0, padTo 64 (leBytes 8 0x3000 ++ leBytes 4 1), begun_of (by decide +kernel) (by decide +kernel) (by decide +kernel) (by decide +kernel) (by decide +kernel), rfl, ?_, ?_, ?_, fst_pair (by decide +kernel), ?_, ?_, ?_, ?_, ?_, ?_, ?_⟩ <;> first | decide +kernel | (intro p n h; cases h) | rfl | exact .inl (by decide +kernel) | exact .inr (by decide +kernel) | (intro h; exact absurd h (by decide +kernel))

/-- A state and operands that meet the hypotheses of clause 6 of StepCommandRows. -/
theorem wit_StepCommandRows_6 :
    ∃ (c : Cmd) (s a b : State) (r : RunStep), Begun { op := 0x0803, need := 2, part := some 0 } c s a ∧ b = settle c a ∧ p8 c 0 ≤ 3 ∧ p8 c 1 = 2 ∧ (compOf b (p8 c 0)).enabled = true ∧ (compOf b (p8 c 0)).run = some r := by
  refine ⟨par [0, 2], stepReady serveReady { comp0 with run := some (run0 0) }, _, _, run0 0, begun_of (by decide +kernel) (by decide +kernel) (by decide +kernel) (by decide +kernel) (by decide +kernel), rfl, ?_, ?_, ?_, ?_⟩ <;> first | decide +kernel | rfl

/-- A state and operands that meet the hypotheses of clause 8 of StepCommandRows. -/
theorem wit_StepCommandRows_8 :
    ∃ (c : Cmd) (s a b : State), Begun { op := 0x0803, need := 2, part := some 0 } c s a ∧ b = settle c a ∧ p8 c 0 ≤ 3 ∧ p8 c 1 = 3 ∧ (compOf b (p8 c 0)).enabled = true := by
  refine ⟨par [0, 3], stepReady serveReady { comp0 with suspended := true }, _, _, begun_of (by decide +kernel) (by decide +kernel) (by decide +kernel) (by decide +kernel) (by decide +kernel), rfl, ?_, ?_, ?_⟩ <;> first | decide +kernel | rfl

/-- A state and operands that meet the hypotheses of clause 9 of StepCommandRows. -/
theorem wit_StepCommandRows_9 :
    ∃ (c : Cmd) (s a b : State), Begun { op := 0x0803, need := 2, part := some 0 } c s a ∧ b = settle c a ∧ p8 c 0 ≤ 3 ∧ p8 c 1 = 4 := by
  refine ⟨par [0, 4], stepReady serveReady { comp0 with last := 3 }, _, _, begun_of (by decide +kernel) (by decide +kernel) (by decide +kernel) (by decide +kernel) (by decide +kernel), rfl, ?_, ?_⟩ <;> first | decide +kernel | rfl

/-- A state and operands that meet the hypotheses of clause 10 of StepCommandRows. -/
theorem wit_StepCommandRows_10 :
    ∃ (c : Cmd) (s a b : State), Begun { op := 0x0803, need := 2, part := some 0 } c s a ∧ b = settle c a ∧ p8 c 0 ≤ 3 ∧ (p8 c 1 = 2 ∨ p8 c 1 = 3) ∧ (compOf b (p8 c 0)).enabled = false := by
  refine ⟨par [0, 2], stepReady serveReady { comp0 with enabled := false }, _, _, begun_of (by decide +kernel) (by decide +kernel) (by decide +kernel) (by decide +kernel) (by decide +kernel), rfl, ?_, ?_, ?_⟩ <;> first | decide +kernel | exact .inl (by decide +kernel)

/-- A state and operands that meet the hypotheses of clause 11 of StepCommandRows. -/
theorem wit_StepCommandRows_11 :
    ∃ (c : Cmd) (s a b : State) (p : Nat) (x : Proposal), Begun { op := 0x0802, need := 5, long := fun c => p8 c 4 == 1, full := fun _ c => if p8 c 4 = 1 then 64 + 16 * p16 c 6 else 0 } c s a ∧ b = settle c a ∧ p8 c 4 = 0 ∧ confirmPart b c = some p ∧ (compOf b p).prop = some x ∧ x.no = p32 c 0 ∧ (compOf b p).mode.getLsbD 1 = false := by
  refine ⟨par [3, 0, 0, 0, 0], stepReady serveReady { comp0 with prop := some prop0 }, _, _, 0, prop0, begun_of (by decide +kernel) (by decide +kernel) (by decide +kernel) (by decide +kernel) (by decide +kernel), rfl, ?_, ?_, ?_, ?_, ?_⟩ <;> first | decide +kernel | rfl | exact .inl (by decide +kernel) | exact .inr (by decide +kernel) | (intro h; exact absurd h (by decide +kernel))

/-- A state and operands that meet the hypotheses of clause 14 of StepCommandRows. -/
theorem wit_StepCommandRows_14 :
    ∃ (c : Cmd) (s a b : State) (p : Nat) (x : Proposal), Begun { op := 0x0802, need := 5, long := fun c => p8 c 4 == 1, full := fun _ c => if p8 c 4 = 1 then 64 + 16 * p16 c 6 else 0 } c s a ∧ b = settle c a ∧ p8 c 4 = 2 ∧ confirmPart b c = some p ∧ (compOf b p).prop = some x ∧ x.no = p32 c 0 ∧ (compOf b p).mode.getLsbD 1 = false := by
  refine ⟨par [3, 0, 0, 0, 2], stepReady serveReady { comp0 with prop := some prop0 }, _, _, 0, prop0, begun_of (by decide +kernel) (by decide +kernel) (by decide +kernel) (by decide +kernel) (by decide +kernel), rfl, ?_, ?_, ?_, ?_, ?_⟩ <;> first | decide +kernel | rfl | exact .inl (by decide +kernel) | exact .inr (by decide +kernel) | (intro h; exact absurd h (by decide +kernel))

/-- A state and operands that meet the hypotheses of clause 15 of StepCommandRows. -/
theorem wit_StepCommandRows_15 :
    ∃ (c : Cmd) (s a b : State) (p : Nat), Begun { op := 0x0802, need := 5, long := fun c => p8 c 4 == 1, full := fun _ c => if p8 c 4 = 1 then 64 + 16 * p16 c 6 else 0 } c s a ∧ b = settle c a ∧ p8 c 4 ≤ 2 ∧ confirmPart b c = some p ∧ ((compOf b p).prop = none ∨ ∃ x, (compOf b p).prop = some x ∧ x.no ≠ p32 c 0) := by
  refine ⟨par [4, 0, 0, 0, 0], stepReady serveReady { comp0 with prop := some prop0 }, _, _, 0, begun_of (by decide +kernel) (by decide +kernel) (by decide +kernel) (by decide +kernel) (by decide +kernel), rfl, ?_, ?_, ?_⟩ <;> first | decide +kernel | rfl | exact .inl (by decide +kernel) | exact .inr (by decide +kernel) | (intro h; exact absurd h (by decide +kernel))

/-- A state and operands that meet the hypotheses of clause 17 of StepCommandRows. -/
theorem wit_StepCommandRows_17 :
    ∃ (c : Cmd) (s a b : State), Begun { op := 0x0804, need := 6, part := some 0 } c s a ∧ b = settle c a ∧ p8 c 0 ≤ 3 ∧ holds b (mkRes 5 (p8 c 0)) 1 c.fn = true := by
  refine ⟨par [0, 0, 1, 0, 2, 0], { serveReady with ink.claims := [{ res := mkRes 5 0, mode := 1, owner := 0 }] }, _, _, begun_of (by decide +kernel) (by decide +kernel) (by decide +kernel) (by decide +kernel) (by decide +kernel), rfl, ?_, ?_⟩ <;> first | decide +kernel | rfl

/-- A state and operands that meet the hypotheses of clause 18 of StepCommandRows. -/
theorem wit_StepCommandRows_18 :
    ∃ (c : Cmd) (s a b : State), Begun { op := 0x0804, need := 6, part := some 0 } c s a ∧ b = settle c a ∧ p8 c 0 ≤ 3 ∧ holds b (mkRes 5 (p8 c 0)) 1 c.fn = false := by
  refine ⟨par [0, 0, 1, 0, 2, 0], serveReady, _, _, begun_of (by decide +kernel) (by decide +kernel) (by decide +kernel) (by decide +kernel) (by decide +kernel), rfl, ?_, ?_⟩ <;> first | decide +kernel | rfl

/-- A state and operands that meet the hypotheses of clause 19 of StepCommandRows. -/
theorem wit_StepCommandRows_19 :
    ∃ (c : Cmd) (s a b : State) (l : LatRec), Begun { op := 0x0805, need := 4, refuse := foreignReq } c s a ∧ b = settle c a ∧ stale b (p32 c 0) = false ∧ (reqOf b (p32 c 0 % 4096)).st ≠ 0 ∧ l = mget {} b.srv.lat (p32 c 0 % 4096) := by
  refine ⟨par (leBytes 4 4096), serveReq (req0 5), _, _, _, begun_of (by decide +kernel) (by decide +kernel) (by decide +kernel) (by decide +kernel) (by decide +kernel), rfl, ?_, ?_, rfl⟩ <;> first | decide +kernel | rfl

/-- A state and operands that meet the hypotheses of clause 20 of StepCommandRows. -/
theorem wit_StepCommandRows_20 :
    ∃ (c : Cmd) (s a b : State) (f : FrameSlot), Begun { op := 0x0806, need := 37, part := some 2 } c s a ∧ b = settle c a ∧ f = parseSlot (body c) ∧ p16 c 0 ≤ 1023 ∧ f.part ≤ 3 ∧ 2 ≤ f.buffers ∧ f.buffers ≤ 8 ∧ f.stride ≠ 0 ∧ f.stride % 4096 = 0 ∧ isDpa f.base = true ∧ f.tally < 16384 ∧ (partOf b f.part).mask.getLsbD (tallyQuad f.tally) = true ∧ 1 ≤ f.lineBudget ∧ f.lineBudget ≤ 4096 ∧ 1 ≤ f.largest ∧ f.largest ≤ 4096 ∧ fastArea b none f.base (f.stride * f.buffers) = true ∧ slotUsed b (p16 c 0) = false := by
  refine ⟨par ([1, 0, 0, 2] ++ leBytes 4 4096 ++ leBytes 8 0x8000 ++ leBytes 2 5 ++ leBytes 2 1 ++ leBytes 4 64 ++ zeros 13), serveReady, _, _, _, begun_of (by decide +kernel) (by decide +kernel) (by decide +kernel) (by decide +kernel) (by decide +kernel), rfl, rfl, ?_, ?_, ?_, ?_, ?_, ?_, ?_, ?_, ?_, ?_, ?_, ?_, ?_, ?_, ?_⟩ <;> first | decide +kernel | rfl | exact .inl (by decide +kernel) | exact .inr (by decide +kernel) | (intro h; exact absurd h (by decide +kernel))

/-- A state and operands that meet the hypotheses of clause 21 of StepCommandRows. -/
theorem wit_StepCommandRows_21 :
    ∃ (c : Cmd) (s a b : State), Begun { op := 0x0806, need := 37, part := some 2 } c s a ∧ b = settle c a ∧ isDpa (parseSlot (body c)).base = true ∧ (parseSlot (body c)).buffers < 2 := by
  refine ⟨par ([1, 0, 0, 1] ++ zeros 33), serveReady, _, _, begun_of (by decide +kernel) (by decide +kernel) (by decide +kernel) (by decide +kernel) (by decide +kernel), rfl, ?_, ?_⟩ <;> first | decide +kernel | rfl | exact .inl (by decide +kernel) | exact .inr (by decide +kernel) | (intro h; exact absurd h (by decide +kernel))

/-- A state and operands that meet the hypotheses of clause 22 of StepCommandRows. -/
theorem wit_StepCommandRows_22 :
    ∃ (c : Cmd) (s a b : State) (f : FrameSlot), Begun { op := 0x0807, need := 2, refuse := foreignSlot } c s a ∧ b = settle c a ∧ mfind b.stp.slots (p16 c 0) = some f ∧ underReset b (tallyQuad f.tally) = false := by
  refine ⟨par [1, 0], slotted, _, _, slot0, begun_of (by decide +kernel) (by decide +kernel) (by decide +kernel) (by decide +kernel) (by decide +kernel), rfl, ?_, ?_⟩ <;> first | decide +kernel | rfl

/-- A state and operands that meet the hypotheses of clause 23 of StepCommandRows. -/
theorem wit_StepCommandRows_23 :
    ∃ (c : Cmd) (s a b : State), Begun { op := 0x0807, need := 2, refuse := foreignSlot } c s a ∧ b = settle c a ∧ mfind b.stp.slots (p16 c 0) = none := by
  refine ⟨par [2, 0], slotted, _, _, begun_of (by decide +kernel) (by decide +kernel) (by decide +kernel) (by decide +kernel) (by decide +kernel), rfl, ?_⟩ <;> first | decide +kernel | rfl

/-- A state and operands that meet the hypotheses of clause 24 of StepCommandRows. -/
theorem wit_StepCommandRows_24 :
    ∃ (c : Cmd) (s a b : State) (x : Expert), Begun { op := 0x0808, need := 40 } c s a ∧ b = settle c a ∧ x = parseExpert (body c) ∧ p8 c 0 ≤ 15 ∧ 1 ≤ x.experts ∧ x.experts ≤ 256 ∧ 1 ≤ x.cap ∧ x.cap ≤ 4096 ∧ x.k ≠ 0 ∧ x.loop ≤ 2 ∧ isDpa x.bias = true ∧ isDpa x.counter = true ∧ fastArea b none x.bias (4 * x.experts) = true ∧ atomicArea b x.counter (8 * x.experts) = true ∧ (b.stp.experts.length < 1024 ∨ (mfind b.stp.experts (expertKey (p8 c 0) (p8 c 1))).isSome = true) := by
  refine ⟨adm (expBytes 2), atomReady, _, _, _, begun_of (by decide +kernel) (by decide +kernel) (by decide +kernel) (by decide +kernel) (by decide +kernel), rfl, rfl, ?_, ?_, ?_, ?_, ?_, ?_, ?_, ?_, ?_, ?_, ?_, ?_⟩ <;> first | decide +kernel | rfl | exact .inl (by decide +kernel) | exact .inr (by decide +kernel) | (intro h; exact absurd h (by decide +kernel))

/-- A state and operands that meet the hypotheses of clause 26 of StepCommandRows. -/
theorem wit_StepCommandRows_26 :
    ∃ (c : Cmd) (s a b : State) (x : Expert), Begun { op := 0x0809, need := 64, ext := true, full := biasLen } c s a ∧ b = settle c a ∧ mfind b.stp.experts (expertKey (p8 c 0) (p8 c 1)) = some x ∧ stepRuns b (p8 c 0) = false := by
  refine ⟨biasCmd, experts comp0, _, _, parseExpert (expBytes 2), begun_of (by decide +kernel) (by decide +kernel) (by decide +kernel) (by decide +kernel) (by decide +kernel), rfl, ?_, ?_⟩ <;> first | decide +kernel | rfl | exact .inl (by decide +kernel) | exact .inr (by decide +kernel) | (intro h; exact absurd h (by decide +kernel))

/-- A state and operands that meet the hypotheses of clause 27 of StepCommandRows. -/
theorem wit_StepCommandRows_27 :
    ∃ (c : Cmd) (s a b : State) (x : Expert), Begun { op := 0x0809, need := 64, ext := true, full := biasLen } c s a ∧ b = settle c a ∧ mfind b.stp.experts (expertKey (p8 c 0) (p8 c 1)) = some x ∧ stepRuns b (p8 c 0) = true := by
  refine ⟨biasCmd, experts { comp0 with run := some (run0 0) }, _, _, parseExpert (expBytes 2), begun_of (by decide +kernel) (by decide +kernel) (by decide +kernel) (by decide +kernel) (by decide +kernel), rfl, ?_, ?_⟩ <;> first | decide +kernel | rfl | exact .inl (by decide +kernel) | exact .inr (by decide +kernel) | (intro h; exact absurd h (by decide +kernel))

/-- A state and operands that meet the hypotheses of clause 28 of StepCommandRows. -/
theorem wit_StepCommandRows_28 :
    ∃ (c : Cmd) (s a b v : State) (x : Expert) (d : List Byte), Begun { op := 0x080A, need := 16 } c s a ∧ b = settle c a ∧ mfind b.stp.experts (expertKey (p8 c 0) (p8 c 1)) = some x ∧ (readBytes b .device x.bias (4 * x.experts) 0).1 = St.ok ∧ (readBytes b .device x.bias (4 * x.experts) 0).2.2.1 = false ∧ (readBytes (readBytes b .device x.bias (4 * x.experts) 0).2.2.2 .device x.counter (8 * x.experts) 0).1 = St.ok ∧ (readBytes (readBytes b .device x.bias (4 * x.experts) 0).2.2.2 .device x.counter (8 * x.experts) 0).2.2.1 = false ∧ v = (readBytes (readBytes b .device x.bias (4 * x.experts) 0).2.2.2 .device x.counter (8 * x.experts) 0).2.2.2 ∧ d = leBytes 4 x.steps ++ (readBytes b .device x.bias (4 * x.experts) 0).2.1 ++ (readBytes (readBytes b .device x.bias (4 * x.experts) 0).2.2.2 .device x.counter (8 * x.experts) 0).2.1 ∧ hostOk v (p64 c 8) d.length = true := by
  refine ⟨adm (zeros 8 ++ leBytes 8 0x7000), experts comp0, _, _, _, parseExpert (expBytes 2), _, begun_of (by decide +kernel) (by decide +kernel) (by decide +kernel) (by decide +kernel) (by decide +kernel), rfl, ?_, ?_, ?_, ?_, ?_, rfl, rfl, ?_⟩ <;> first | decide +kernel | rfl

/-- A state and operands that meet the hypotheses of clause 29 of StepCommandRows. -/
theorem wit_StepCommandRows_29 :
    ∃ (c : Cmd) (s a b : State), Begun { op := 0x080A, need := 16 } c s a ∧ b = settle c a ∧ mfind b.stp.experts (expertKey (p8 c 0) (p8 c 1)) = none := by
  refine ⟨adm (zeros 8 ++ leBytes 8 0x7000), atomReady, _, _, begun_of (by decide +kernel) (by decide +kernel) (by decide +kernel) (by decide +kernel) (by decide +kernel), rfl, ?_⟩ <;> first | decide +kernel | rfl

/-- A state and operands that meet the hypotheses of clause 2 of StepCommandRows. -/
theorem wit_StepCommandRows_2 :
    ∃ (c : Cmd) (s a b : State) (k n : Composer) (x : Proposal), Begun { op := 0x0801, need := 48, part := some 0 } c s a ∧ b = settle c a ∧ k = compOf b (p8 c 0) ∧ n = parseComp k (body c) ∧ p8 c 0 ≤ 3 ∧ 1 ≤ n.maxRows ∧ n.maxRows ≤ 512 ∧ 1 ≤ n.budget ∧ n.budget ≤ 65536 ∧ (n.mode.getLsbD 0 = false ∨ n.ride ≤ n.budget) ∧ 1 ≤ n.chunk ∧ n.chunk ≤ 65536 ∧ n.model ≤ 15 ∧ n.tally < 16384 ∧ n.hostBuf % 4096 = 0 ∧ n.batch % 65536 = 0 ∧ isDpa n.program = true ∧ isDpa n.batch = true ∧ fastArea b (some (p8 c 0)) n.program 64 = true ∧ fastArea b (some (p8 c 0)) n.batch 65536 = true ∧ (k.enabled = false ∨ (k.model = n.model ∧ k.program = n.program ∧ k.hostBuf = n.hostBuf ∧ k.batch = n.batch)) ∧ k.prop = some x ∧ n.mode.getLsbD 1 = true ∧ k.mode.getLsbD 1 = false := by
  refine ⟨par (compBytes.set 1 2), stepReady serveReady { comp0 with prop := some prop0 }, _, _, _, _, prop0, begun_of (by decide +kernel) (by decide +kernel) (by decide +kernel) (by decide +kernel) (by decide +kernel), rfl, rfl, rfl, ?_, ?_, ?_, ?_, ?_, ?_, ?_, ?_, ?_, ?_, ?_, ?_, ?_, ?_, ?_, ?_, ?_, ?_, ?_, ?_⟩ <;> first | decide +kernel | (intro p n h; cases h) | rfl | exact .inl (by decide +kernel) | exact .inr (by decide +kernel) | (intro h; exact absurd h (by decide +kernel))

/-- A state and operands that meet the hypotheses of clause 7 of StepCommandRows. -/
theorem wit_StepCommandRows_7 :
    ∃ (c : Cmd) (s a b : State), Begun { op := 0x0803, need := 2, part := some 0 } c s a ∧ b = settle c a ∧ p8 c 0 ≤ 3 ∧ p8 c 1 = 2 ∧ (compOf b (p8 c 0)).enabled = true ∧ (compOf b (p8 c 0)).run = none := by
  refine ⟨par [0, 2], stepReady serveReady comp0, _, _, begun_of (by decide +kernel) (by decide +kernel) (by decide +kernel) (by decide +kernel) (by decide +kernel), rfl, ?_, ?_, ?_, ?_⟩ <;> first | decide +kernel | (intro p n h; cases h) | rfl | exact .inl (by decide +kernel) | exact .inr (by decide +kernel) | (intro h; exact absurd h (by decide +kernel))

/-- STEP_CONFIRM with an amendment of `n` rows that name nothing. -/
def amendCmd (n : Nat) : Cmd := { par [] with flags := 1, len := 64 + 16 * n, ext := [3, 0, 0, 0, 1, 0] ++ leBytes 2 n ++ zeros (56 + 16 * n), extAddr := 64 }

/-- A state and operands that meet the hypotheses of clause 12 of StepCommandRows. -/
theorem wit_StepCommandRows_12 :
    ∃ (c : Cmd) (s a b : State) (p : Nat) (x : Proposal) (l : List Row), Begun { op := 0x0802, need := 5, long := fun c => p8 c 4 == 1, full := fun _ c => if p8 c 4 = 1 then 64 + 16 * p16 c 6 else 0 } c s a ∧ b = settle c a ∧ p8 c 4 = 1 ∧ confirmPart b c = some p ∧ (compOf b p).prop = some x ∧ x.no = p32 c 0 ∧ (compOf b p).mode.getLsbD 1 = false ∧ amended b p x c = some l := by
  refine ⟨amendCmd 0, stepReady serveReady { comp0 with prop := some prop0 }, _, _, 0, prop0, [], begun_of (by decide +kernel) (by decide +kernel) (by decide +kernel) (by decide +kernel) (by decide +kernel), rfl, ?_, ?_, ?_, ?_, ?_, ?_⟩ <;> first | decide +kernel | (intro p n h; cases h) | rfl | exact .inl (by decide +kernel) | exact .inr (by decide +kernel) | (intro h; exact absurd h (by decide +kernel))

/-- A state and operands that meet the hypotheses of clause 13 of StepCommandRows. -/
theorem wit_StepCommandRows_13 :
    ∃ (c : Cmd) (s a b : State) (p : Nat) (x : Proposal), Begun { op := 0x0802, need := 5, long := fun c => p8 c 4 == 1, full := fun _ c => if p8 c 4 = 1 then 64 + 16 * p16 c 6 else 0 } c s a ∧ b = settle c a ∧ p8 c 4 = 1 ∧ confirmPart b c = some p ∧ (compOf b p).prop = some x ∧ x.no = p32 c 0 ∧ (compOf b p).mode.getLsbD 1 = false ∧ amended b p x c = none := by
  refine ⟨amendCmd 1, stepReady serveReady { comp0 with prop := some prop0 }, _, _, 0, prop0, begun_of (by decide +kernel) (by decide +kernel) (by decide +kernel) (by decide +kernel) (by decide +kernel), rfl, ?_, ?_, ?_, ?_, ?_, ?_⟩ <;> first | decide +kernel | (intro p n h; cases h) | rfl | exact .inl (by decide +kernel) | exact .inr (by decide +kernel) | (intro h; exact absurd h (by decide +kernel))

/-- A state and operands that meet the hypotheses of clause 16 of StepCommandRows. -/
theorem wit_StepCommandRows_16 :
    ∃ (c : Cmd) (s a b : State), Begun { op := 0x0802, need := 5, long := fun c => p8 c 4 == 1, full := fun _ c => if p8 c 4 = 1 then 64 + 16 * p16 c 6 else 0 } c s a ∧ b = settle c a ∧ p8 c 4 ≤ 2 ∧ confirmPart b c = none := by
  refine ⟨adm [3, 0, 0, 0, 0], stepReady serveReady comp0, _, _, begun_of (by decide +kernel) (by decide +kernel) (by decide +kernel) (by decide +kernel) (by decide +kernel), rfl, ?_, ?_⟩ <;> first | decide +kernel | (intro p n h; cases h) | rfl | exact .inl (by decide +kernel) | exact .inr (by decide +kernel) | (intro h; exact absurd h (by decide +kernel))

/-- A state and operands that meet the hypotheses of clause 25 of StepCommandRows. -/
theorem wit_StepCommandRows_25 :
    ∃ (c : Cmd) (s a b : State), Begun { op := 0x0808, need := 40 } c s a ∧ b = settle c a ∧ isDpa (parseExpert (body c)).bias = true ∧ isDpa (parseExpert (body c)).counter = true ∧ (parseExpert (body c)).experts = 0 := by
  refine ⟨adm (expBytes 0), atomReady, _, _, begun_of (by decide +kernel) (by decide +kernel) (by decide +kernel) (by decide +kernel) (by decide +kernel), rfl, ?_, ?_, ?_⟩ <;> first | decide +kernel | (intro p n h; cases h) | rfl | exact .inl (by decide +kernel) | exact .inr (by decide +kernel) | (intro h; exact absurd h (by decide +kernel))

/-- A state and operands that meet the hypotheses of clause 6 of StepEventRows. -/
theorem wit_StepEventRows_6 :
    ∃ (s : State) (p : Nat) (l : List Cand), (compOf s p).mode.getLsbD 1 = false := by
  refine ⟨stepReady serveReady comp0, 0, [], ?_⟩ <;> first | decide +kernel | rfl

/-- A state and operands that meet the hypotheses of clause 8 of StepEventRows. -/
theorem wit_StepEventRows_8 :
    ∃ (s : State) (p : Nat), (compOf s p).run = none := by
  refine ⟨memReady, 0, ?_⟩ <;> first | decide +kernel | rfl

/-- A state and operands that meet the hypotheses of clause 9 of StepEventRows. -/
theorem wit_StepEventRows_9 :
    ∃ (s : State) (p q st : Nat) (r : RunStep), (compOf s p).run = some r ∧ unitWaits s 8 p = false ∧ badQueue s p = some (q, st) := by
  refine ⟨setQueue (stepReady serveReady { comp0 with run := some (run0 1) }) 0 29 { queueOf memReady 0 29 with haltStatus := 5 }, 0, 29, 5, run0 1, ?_, ?_, ?_⟩ <;> first | decide +kernel | rfl | exact .inl (by decide +kernel) | exact .inr (by decide +kernel) | (intro h; exact absurd h (by decide +kernel))

/-- A state and operands that meet the hypotheses of clause 10 of StepEventRows. -/
theorem wit_StepEventRows_10 :
    ∃ (s : State) (p q : Nat) (r : RunStep), (compOf s p).run = some r ∧ unitWaits s 8 p = false ∧ badQueue s p = none ∧ q ∈ [28, 29, 30, 31] ∧ queueIdle (queueOf s p q) = false := by
  refine ⟨setQueue (stepReady serveReady { comp0 with run := some (run0 1) }) 0 29 { queueOf memReady 0 29 with quires := [{ dpa := 0, count := 1, composer := true }] }, 0, 29, run0 1, ?_, ?_, ?_, .tail _ (List.Mem.head _), ?_⟩ <;> first | decide +kernel | (intro p n h; cases h) | rfl | exact .inl (by decide +kernel) | exact .inr (by decide +kernel) | (intro h; exact absurd h (by decide +kernel))

/-- A state and operands that meet the hypotheses of clause 11 of StepEventRows. -/
theorem wit_StepEventRows_11 :
    ∃ (s : State) (p : Nat) (r : RunStep), (compOf s p).run = some r ∧ unitWaits s 8 p = false ∧ badQueue s p = none ∧ [28, 29, 30, 31].all (fun q => queueIdle (queueOf s p q)) = true ∧ r.phase = 0 := by
  refine ⟨stepReady serveReady { comp0 with run := some (run0 0) }, 0, run0 0, ?_, ?_, ?_, ?_, ?_⟩ <;> first | decide +kernel | rfl | exact .inl (by decide +kernel) | exact .inr (by decide +kernel) | (intro h; exact absurd h (by decide +kernel))

/-- A state and operands that meet the hypotheses of clause 12 of StepEventRows. -/
theorem wit_StepEventRows_12 :
    ∃ (s : State) (p : Nat) (r : RunStep), (compOf s p).run = some r ∧ unitWaits s 8 p = false ∧ badQueue s p = none ∧ [28, 29, 30, 31].all (fun q => queueIdle (queueOf s p q)) = true ∧ r.phase = 1 ∧ folds s p ≠ [] := by
  refine ⟨stepReady (serveReq { req0 5 with moving := true, pauseMode := 2 }) { comp0 with run := some (run0 1), summaries := [0] }, 0, run0 1, ?_, ?_, ?_, ?_, ?_, ?_⟩ <;> first | decide +kernel | rfl | exact .inl (by decide +kernel) | exact .inr (by decide +kernel) | (intro h; exact absurd h (by decide +kernel))

/-- A state and operands that meet the hypotheses of clause 13 of StepEventRows. -/
theorem wit_StepEventRows_13 :
    ∃ (s : State) (p : Nat) (r : RunStep), (compOf s p).run = some r ∧ unitWaits s 8 p = false ∧ badQueue s p = none ∧ [28, 29, 30, 31].all (fun q => queueIdle (queueOf s p q)) = true ∧ (r.phase = 1 ∨ r.phase = 2) ∧ folds s p = [] := by
  refine ⟨stepReady serveReady { comp0 with run := some (run0 1) }, 0, run0 1, ?_, ?_, ?_, ?_, ?_, ?_⟩ <;> first | decide +kernel | rfl | exact .inl (by decide +kernel) | exact .inr (by decide +kernel) | (intro h; exact absurd h (by decide +kernel))

/-- A state and operands that meet the hypotheses of clause 14 of StepEventRows. -/
theorem wit_StepEventRows_14 :
    ∃ (s : State) (p : Nat) (x : Proposal), (compOf s p).prop = some x ∧ (compOf s p).confLimit ≠ 0 ∧ (compOf s p).confLimit * 65536 < (stamp s).toNat - x.since.toNat ∧ x.posted = false := by
  refine ⟨late 9 { comp0 with prop := some prop0, confLimit := 4 }, 0, prop0, ?_, ?_, ?_, ?_⟩ <;> first | decide +kernel | rfl | exact .inl (by decide +kernel) | exact .inr (by decide +kernel) | (intro h; exact absurd h (by decide +kernel))

/-- A state and operands that meet the hypotheses of clause 15 of StepEventRows. -/
theorem wit_StepEventRows_15 :
    ∃ (s : State) (p : Nat) (x : RunStep), (compOf s p).prop = none ∧ (compOf s p).run = some x ∧ (compOf s p).runLimit ≠ 0 ∧ (compOf s p).runLimit * 65536 < (stamp s).toNat - x.since.toNat ∧ x.posted = false := by
  refine ⟨late 9 { comp0 with run := some (run0 1), runLimit := 4 }, 0, run0 1, ?_, ?_, ?_, ?_, ?_⟩ <;> first | decide +kernel | rfl | exact .inl (by decide +kernel) | exact .inr (by decide +kernel) | (intro h; exact absurd h (by decide +kernel))

/-- A state and operands that meet the hypotheses of clause 16 of StepEventRows. -/
theorem wit_StepEventRows_16 :
    ∃ (s : State) (p : Nat) (x : Proposal), (compOf s p).prop = some x ∧ x.posted = true := by
  refine ⟨late 9 { comp0 with prop := some { prop0 with posted := true }, confLimit := 4 }, 0, { prop0 with posted := true }, ?_, ?_⟩ <;> first | decide +kernel | rfl

/-- A state and operands that meet the hypotheses of clause 18 of StepEventRows. -/
theorem wit_StepEventRows_18 :
    ∃ (s : State) (p : Nat), (compOf s p).prop = none ∧ (compOf s p).run = none := by
  refine ⟨memReady, 0, ?_, ?_⟩ <;> first | decide +kernel | rfl

/-- A state and operands that meet the hypotheses of clause 1 of StepEventRows. -/
theorem wit_StepEventRows_1 :
    ∃ (s : State) (p : Nat), checkDue s p = none := by
  refine ⟨stepReady serveReady comp0, 0, ?_⟩ <;> first | decide +kernel | (intro p n h; cases h) | rfl | exact .inl (by decide +kernel) | exact .inr (by decide +kernel) | (intro h; exact absurd h (by decide +kernel))

/-- A state and operands that meet the hypotheses of clause 2 of StepEventRows. -/
theorem wit_StepEventRows_2 :
    ∃ (s : State) (p : Nat), unitWaits s 8 p = true := by
  refine ⟨{ stepReady serveReady comp0 with ink := { (stepReady serveReady comp0).ink with funcs := [(0, { readyFunc with waiting := [{ code := 0x0801, part := 0, data := [], epoch := 0, stamp := 0, droppable := false }] })] } }, 0, ?_⟩ <;> first | decide +kernel | (intro p n h; cases h) | rfl | exact .inl (by decide +kernel) | exact .inr (by decide +kernel) | (intro h; exact absurd h (by decide +kernel))

/-- A state and operands that meet the hypotheses of clause 3 of StepEventRows. -/
theorem wit_StepEventRows_3 :
    ∃ (s : State) (p : Nat) (S : Stamp), checkDue s p = some S ∧ unitWaits s 8 p = false ∧ mayPropose (compOf s p) = false := by
  refine ⟨stepReady serveReady { comp0 with suspended := true, check := some 0 }, 0, 0, ?_, ?_, ?_⟩ <;> first | decide +kernel | (intro p n h; cases h) | rfl | exact .inl (by decide +kernel) | exact .inr (by decide +kernel) | (intro h; exact absurd h (by decide +kernel))

/-- A state and operands that meet the hypotheses of clause 4 of StepEventRows. -/
theorem wit_StepEventRows_4 :
    ∃ (s u v w : State) (p : Nat) (S : Stamp) (x : Cand) (l cs : List Cand), checkDue s p = some S ∧ unitWaits s 8 p = false ∧ mayPropose (compOf s p) = true ∧ u = expireAll (setComp s p { compOf s p with check := none }) ∧ candidatesAt u p (compOf u p) S = (cs, v) ∧ faultSlotless p cs.length cs v = (x :: l, w) := by
  refine ⟨stepReady (serveReq reqReady) { comp0 with check := some 0 }, _, _, _, 0, 0, _, _, _, ?_, ?_, ?_, rfl, eta_pair _, cons_pair (by decide +kernel)⟩ <;> first | decide +kernel | (intro p n h; cases h) | rfl | exact .inl (by decide +kernel) | exact .inr (by decide +kernel) | (intro h; exact absurd h (by decide +kernel))

/-- A state and operands that meet the hypotheses of clause 5 of StepEventRows. -/
theorem wit_StepEventRows_5 :
    ∃ (s u v w : State) (p : Nat) (S : Stamp) (cs : List Cand), checkDue s p = some S ∧ unitWaits s 8 p = false ∧ mayPropose (compOf s p) = true ∧ u = expireAll (setComp s p { compOf s p with check := none }) ∧ candidatesAt u p (compOf u p) S = (cs, v) ∧ faultSlotless p cs.length cs v = ([], w) := by
  refine ⟨stepReady serveReady { comp0 with check := some 0 }, _, _, _, 0, 0, _, ?_, ?_, ?_, rfl, eta_pair _, fst_pair (by decide +kernel)⟩ <;> first | decide +kernel | (intro p n h; cases h) | rfl | exact .inl (by decide +kernel) | exact .inr (by decide +kernel) | (intro h; exact absurd h (by decide +kernel))

/-- A state and operands that meet the hypotheses of clause 7 of StepEventRows. -/
theorem wit_StepEventRows_7 :
    ∃ (s : State) (p : Nat), unitWaits s 8 p = true := by
  refine ⟨{ stepReady serveReady comp0 with ink := { (stepReady serveReady comp0).ink with funcs := [(0, { readyFunc with waiting := [{ code := 0x0801, part := 0, data := [], epoch := 0, stamp := 0, droppable := false }] })] } }, 0, ?_⟩ <;> first | decide +kernel | (intro p n h; cases h) | rfl | exact .inl (by decide +kernel) | exact .inr (by decide +kernel) | (intro h; exact absurd h (by decide +kernel))

/-- A state and operands that meet the hypotheses of clause 17 of StepEventRows. -/
theorem wit_StepEventRows_17 :
    ∃ (s : State) (p : Nat) (x : RunStep), (compOf s p).prop = none ∧ (compOf s p).run = some x ∧ x.posted = true := by
  refine ⟨late 9 { comp0 with run := some { run0 1 with posted := true } }, 0, { run0 1 with posted := true }, ?_, ?_, ?_⟩ <;> first | decide +kernel | (intro p n h; cases h) | rfl | exact .inl (by decide +kernel) | exact .inr (by decide +kernel) | (intro h; exact absurd h (by decide +kernel))

/-- A state and operands that meet the hypotheses of clause 1 of FlourishRows. -/
theorem wit_FlourishRows_1 :
    ∃ (c : Cmd) (s a : State) (l : LogitsArea), Begun { op := 0x0901, need := 24, part := some 0 } c s a ∧ l = { format := p8 c 1, vocab := p32 c 4, area := p64 c 8, stride := p32 c 16, vectors := p32 c 20 } ∧ p8 c 0 ≤ 3 ∧ l.format ≤ 1 ∧ 1 ≤ l.vocab ∧ l.vocab ≤ 262144 ∧ l.area % 4096 = 0 ∧ isDpa l.area = true ∧ l.stride % 64 = 0 ∧ l.vocab * elemSize l.format ≤ l.stride ∧ 1 ≤ l.vectors ∧ l.vectors ≤ 65536 ∧ fastArea a (some (p8 c 0)) l.area (l.stride * l.vectors) = true ∧ composing a (p8 c 0) = false := by
  refine ⟨par ([0, 0, 0, 0] ++ leBytes 4 1 ++ leBytes 8 0x4000 ++ leBytes 4 64 ++ leBytes 4 4), memReady, _, _, begun_of (by decide +kernel) (by decide +kernel) (by decide +kernel) (by decide +kernel) (by decide +kernel), rfl, ?_, ?_, ?_, ?_, ?_, ?_, ?_, ?_, ?_, ?_, ?_, ?_⟩ <;> first | decide +kernel | rfl

/-- A state and operands that meet the hypotheses of clause 2 of FlourishRows. -/
theorem wit_FlourishRows_2 :
    ∃ c s a, Begun { op := 0x0901, need := 24, part := some 0 } c s a ∧ isDpa (p64 c 8) = true ∧ p32 c 4 = 0 := by
  refine ⟨par (zeros 24), memReady, _, begun_of (by decide +kernel) (by decide +kernel) (by decide +kernel) (by decide +kernel) (by decide +kernel), ?_, ?_⟩ <;> first | decide +kernel | rfl | exact .inl (by decide +kernel) | exact .inr (by decide +kernel) | (intro h; exact absurd h (by decide +kernel))

/-- A state and operands that meet the hypotheses of clause 5 of FlourishRows. -/
theorem wit_FlourishRows_5 :
    ∃ c s a, Begun { op := 0x0902, need := 16, part := some 0 } c s a ∧ p8 c 0 ≤ 3 ∧ 64 ≤ p8 c 1 := by
  refine ⟨par ([0, 64] ++ zeros 14), memReady, _, begun_of (by decide +kernel) (by decide +kernel) (by decide +kernel) (by decide +kernel) (by decide +kernel), ?_, ?_⟩ <;> first | decide +kernel | rfl

/-- A state and operands that meet the hypotheses of clause 6 of FlourishRows. -/
theorem wit_FlourishRows_6 :
    ∃ (c : Cmd) (s a : State) (d : Nat), Begun { op := 0x0903, need := 2, part := some 0 } c s a ∧ p8 c 0 ≤ 3 ∧ p8 c 1 ≤ 63 ∧ mfind a.flo.grammars (p8 c 0 * 64 + p8 c 1) = some d ∧ a.srv.reqs.any (fun r => r.2.st != 0 && r.2.part == p8 c 0 && r.2.gtable == p8 c 1) = false := by
  refine ⟨par [0, 1], { memReady with flo.grammars := [(1, 0x4000)] }, _, 0x4000, begun_of (by decide +kernel) (by decide +kernel) (by decide +kernel) (by decide +kernel) (by decide +kernel), ?_, ?_, ?_, ?_⟩ <;> first | decide +kernel | rfl

/-- A state and operands that meet the hypotheses of clause 7 of FlourishRows. -/
theorem wit_FlourishRows_7 :
    ∃ (c : Cmd) (s a : State) (d : Nat), Begun { op := 0x0903, need := 2, part := some 0 } c s a ∧ p8 c 0 ≤ 3 ∧ p8 c 1 ≤ 63 ∧ mfind a.flo.grammars (p8 c 0 * 64 + p8 c 1) = some d ∧ a.srv.reqs.any (fun r => r.2.st != 0 && r.2.part == p8 c 0 && r.2.gtable == p8 c 1) = true := by
  refine ⟨par [0, 1], serveGrammar, _, 0x4000, begun_of (by decide +kernel) (by decide +kernel) (by decide +kernel) (by decide +kernel) (by decide +kernel), ?_, ?_, ?_, ?_⟩ <;> first | decide +kernel | rfl

/-- A state and operands that meet the hypotheses of clause 11 of FlourishRows. -/
theorem wit_FlourishRows_11 :
    ∃ c s a, Begun { op := 0x0904, need := 20, refuse := foreignReq } c s a ∧ stale a (p32 c 0) = true := by
  refine ⟨par (leBytes 4 1 ++ zeros 16), memReady, _, begun_of (by decide +kernel) (by decide +kernel) (by decide +kernel) (by decide +kernel) (by decide +kernel), ?_⟩ <;> first | decide +kernel | rfl

/-- A state and operands that meet the hypotheses of clause 12 of FlourishRows. -/
theorem wit_FlourishRows_12 :
    ∃ c s a, Begun { op := 0x0905, need := 16, part := some 0 } c s a ∧ p8 c 0 ≤ 3 ∧ hostOk a (p64 c 8) 64 = true := by
  refine ⟨par (zeros 8 ++ leBytes 8 0x7000), memReady, _, begun_of (by decide +kernel) (by decide +kernel) (by decide +kernel) (by decide +kernel) (by decide +kernel), ?_, ?_⟩ <;> first | decide +kernel | rfl

/-- A state and operands that meet the hypotheses of clause 3 of FlourishRows. -/
theorem wit_FlourishRows_3 :
    ∃ (c : Cmd) (s a v w : State) (h t : List Byte), Begun { op := 0x0902, need := 16, part := some 0 } c s a ∧ p8 c 0 ≤ 3 ∧ p8 c 1 ≤ 63 ∧ isDpa (p64 c 8) = true ∧ fastArea a (some (p8 c 0)) (p64 c 8) 64 = true ∧ readBytes a (.flourish (p8 c 0)) (p64 c 8) 64 0 = (St.ok, h, false, v) ∧ 64 ≤ fieldN h 24 4 ∧ fieldN h 24 4 = gLen h ∧ fastArea v (some (p8 c 0)) (p64 c 8) (gLen h) = true ∧ readBytes v (.flourish (p8 c 0)) (p64 c 8) (gLen h) 0 = (St.ok, t, false, w) ∧ grammarOk t = true ∧ mfind w.flo.grammars (p8 c 0 * 64 + p8 c 1) = none := by
  refine ⟨par ([0, 1] ++ zeros 6 ++ leBytes 8 0x4000), grammarReady, _, _, _, table1.take 64, table1, begun_of (by decide +kernel) (by decide +kernel) (by decide +kernel) (by decide +kernel) (by decide +kernel), ?_, ?_, ?_, ?_, quad_of (by decide +kernel) (by decide +kernel) (by decide +kernel), ?_, ?_, ?_, quad_of (by decide +kernel) (by decide +kernel) (by decide +kernel), table1_ok, ?_⟩ <;> first | decide +kernel | (intro p n h; cases h) | rfl | exact .inl (by decide +kernel) | exact .inr (by decide +kernel) | (intro h; exact absurd h (by decide +kernel))

/-- A state and operands that meet the hypotheses of clause 4 of FlourishRows. -/
theorem wit_FlourishRows_4 :
    ∃ (c : Cmd) (s a v w : State) (h t : List Byte), Begun { op := 0x0902, need := 16, part := some 0 } c s a ∧ p8 c 0 ≤ 3 ∧ p8 c 1 ≤ 63 ∧ isDpa (p64 c 8) = true ∧ fastArea a (some (p8 c 0)) (p64 c 8) 64 = true ∧ readBytes a (.flourish (p8 c 0)) (p64 c 8) 64 0 = (St.ok, h, false, v) ∧ 64 ≤ fieldN h 24 4 ∧ fieldN h 24 4 = gLen h ∧ fastArea v (some (p8 c 0)) (p64 c 8) (gLen h) = true ∧ readBytes v (.flourish (p8 c 0)) (p64 c 8) (gLen h) 0 = (St.ok, t, false, w) ∧ grammarOk t = false := by
  refine ⟨par ([0, 1] ++ zeros 6 ++ leBytes 8 0x4000), (writeBytes memReady .admin 0x4000 (table1.set 0 2) false 1).2, _, _, _, (table1.set 0 2).take 64, table1.set 0 2, begun_of (by decide +kernel) (by decide +kernel) (by decide +kernel) (by decide +kernel) (by decide +kernel), ?_, ?_, ?_, ?_, quad_of (by decide +kernel) (by decide +kernel) (by decide +kernel), ?_, ?_, ?_, quad_of (by decide +kernel) (by decide +kernel) (by decide +kernel), ?_⟩ <;> first | decide +kernel | (intro p n h; cases h) | rfl | exact .inl (by decide +kernel) | exact .inr (by decide +kernel) | (intro h; exact absurd h (by decide +kernel))

def probeCmd : Cmd := par (leBytes 4 4096 ++ zeros 4 ++ leBytes 8 0x4000 ++ leBytes 4 16)

/-- The same request and vector with another score, or walked with a grammar whose one state allows nothing. -/
def probeScore (v : List Byte) : State := (writeBytes probeReady .admin 0x4000 (padTo 64 v) false 1).2

def probeGrammar : State :=
  let s := (writeBytes probeReady .admin 0x5000 table1 false 1).2
  { s with srv := { s.srv with reqs := [(0, { req0 5 with sampling := 0x2000, gtable := 1 })] }, flo := { s.flo with grammars := [(1, 0x5000)] } }

/-- A state and operands that meet the hypotheses of clause 8 of FlourishRows. -/
theorem wit_FlourishRows_8 :
    ∃ (c : Cmd) (s a v u w : State) (r : Req) (l : LogitsArea) (q : Sampling) (x : WalkCtx) (d : List Nat) (t : Nat), Begun { op := 0x0904, need := 20, refuse := foreignReq } c s a ∧ stale a (p32 c 0) = false ∧ r = reqOf a (p32 c 0 % 4096) ∧ r.st ≠ 0 ∧ isDpa (p64 c 8) = true ∧ mfind a.flo.areas r.part = some l ∧ samplingCheck a r.part r.sampling r.counts = (some q, v) ∧ reqOf v (p32 c 0 % 4096) = r ∧ vectorAt v r.part (p64 c 8) l = (St.ok, d, false, u) ∧ walkCtx u (p32 c 0 % 4096) q (p32 c 16) = (x, w) ∧ choose d (fun t => x.counts.getD t 0) x.counted (x.grammar.map (fun t => (t, r.gstate))) q r.seed (p32 c 16) = .token t := by
  refine ⟨probeCmd, probeReady, _, _, _, _, _, area0, probeSampling, _, [0x3F800000], 0, begun_of (by decide +kernel) (by decide +kernel) (by decide +kernel) (by decide +kernel) (by decide +kernel), ?_, rfl, ?_, ?_, ?_, fst_pair (by decide +kernel), (by decide +kernel), quad_of (by decide +kernel) (by decide +kernel) (by decide +kernel), eta_pair _, ?_⟩ <;> first | decide +kernel | (intro p n h; cases h) | rfl | exact .inl (by decide +kernel) | exact .inr (by decide +kernel) | (intro h; exact absurd h (by decide +kernel))

/-- A state and operands that meet the hypotheses of clause 9 of FlourishRows. -/
theorem wit_FlourishRows_9 :
    ∃ (c : Cmd) (s a v u w : State) (r : Req) (l : LogitsArea) (q : Sampling) (x : WalkCtx) (d : List Nat) (t : Nat), Begun { op := 0x0904, need := 20, refuse := foreignReq } c s a ∧ stale a (p32 c 0) = false ∧ r = reqOf a (p32 c 0 % 4096) ∧ r.st ≠ 0 ∧ isDpa (p64 c 8) = true ∧ mfind a.flo.areas r.part = some l ∧ samplingCheck a r.part r.sampling r.counts = (some q, v) ∧ reqOf v (p32 c 0 % 4096) = r ∧ vectorAt v r.part (p64 c 8) l = (St.ok, d, false, u) ∧ walkCtx u (p32 c 0 % 4096) q (p32 c 16) = (x, w) ∧ choose d (fun t => x.counts.getD t 0) x.counted (x.grammar.map (fun t => (t, r.gstate))) q r.seed (p32 c 16) = .exhausted t := by
  refine ⟨probeCmd, probeGrammar, _, _, _, _, _, area0, probeSampling, _, [0x3F800000], 0, begun_of (by decide +kernel) (by decide +kernel) (by decide +kernel) (by decide +kernel) (by decide +kernel), ?_, rfl, ?_, ?_, ?_, fst_pair (by decide +kernel), (by decide +kernel), quad_of (by decide +kernel) (by decide +kernel) (by decide +kernel), eta_pair _, ?_⟩ <;> first | decide +kernel | (intro p n h; cases h) | rfl | exact .inl (by decide +kernel) | exact .inr (by decide +kernel) | (intro h; exact absurd h (by decide +kernel))

/-- A state and operands that meet the hypotheses of clause 10 of FlourishRows. -/
theorem wit_FlourishRows_10 :
    ∃ (c : Cmd) (s a v u w : State) (r : Req) (l : LogitsArea) (q : Sampling) (x : WalkCtx) (d : List Nat), Begun { op := 0x0904, need := 20, refuse := foreignReq } c s a ∧ stale a (p32 c 0) = false ∧ r = reqOf a (p32 c 0 % 4096) ∧ r.st ≠ 0 ∧ isDpa (p64 c 8) = true ∧ mfind a.flo.areas r.part = some l ∧ samplingCheck a r.part r.sampling r.counts = (some q, v) ∧ reqOf v (p32 c 0 % 4096) = r ∧ vectorAt v r.part (p64 c 8) l = (St.ok, d, false, u) ∧ walkCtx u (p32 c 0 % 4096) q (p32 c 16) = (x, w) ∧ choose d (fun t => x.counts.getD t 0) x.counted (x.grammar.map (fun t => (t, r.gstate))) q r.seed (p32 c 16) = .invalid := by
  refine ⟨probeCmd, probeScore [0, 0, 0xC0, 0x7F], _, _, _, _, _, area0, probeSampling, _, [0xFF800000], begun_of (by decide +kernel) (by decide +kernel) (by decide +kernel) (by decide +kernel) (by decide +kernel), ?_, rfl, ?_, ?_, ?_, fst_pair (by decide +kernel), (by decide +kernel), quad_of (by decide +kernel) (by decide +kernel) (by decide +kernel), eta_pair _, ?_⟩ <;> first | decide +kernel | (intro p n h; cases h) | rfl | exact .inl (by decide +kernel) | exact .inr (by decide +kernel) | (intro h; exact absurd h (by decide +kernel))

def lk (x : Link) : State := setLink memReady 3 x

def initFlit (ver : Nat) : List Byte :=
  padTo 240 ([2] ++ zeros 15 ++ leBytes 2 ver ++ [1, 4] ++ leBytes 8 77 ++ leBytes 2 4096 ++ leBytes 2 4096 ++ leBytes 2 512)

/-- The CRC register over a list. -/
def crcReg (acc : Nat) (l : List Byte) : Nat := l.foldl (fun acc b => iter (crcBitMsb 64 0x42F0E1EBA9EA3693) 8 (acc ^^^ (b.toNat <<< 56))) acc

theorem crcReg_split (n x y z : Nat) (l : List Byte) (h : crcReg x (l.take n) = y) (h2 : crcReg y (l.drop n) = z) : crcReg x l = z := by
  unfold crcReg at *
  rw [crcFold_split _ n _ _ y h, h2]

theorem crc64_reg (l : List Byte) : crc64 l = crcReg (2 ^ 64 - 1) l ^^^ (2 ^ 64 - 1) := rfl

theorem initFlit1_crc : crc64 (initFlit 1) = 6835759471373691114 := by
  have h : crcReg (2 ^ 64 - 1) (initFlit 1) = 11610984602335860501 := by
    refine crcReg_split 40 _ 17884824377128385942 _ _ (by decide +kernel) ?_
    refine crcReg_split 40 _ 2399446272705985427 _ _ (by decide +kernel) ?_
    refine crcReg_split 40 _ 3086267452391644244 _ _ (by decide +kernel) ?_
    refine crcReg_split 40 _ 2795432685206958099 _ _ (by decide +kernel) ?_
    refine crcReg_split 40 _ 13957634441883570391 _ _ (by decide +kernel) ?_
    decide +kernel
  rw [crc64_reg, h]
  decide +kernel

theorem initFlit2_crc : crc64 (initFlit 2) = 17907234524599331738 := by
  have h : crcReg (2 ^ 64 - 1) (initFlit 2) = 539509549110219877 := by
    refine crcReg_split 40 _ 14801925974346429641 _ _ (by decide +kernel) ?_
    refine crcReg_split 40 _ 17684394865784283729 _ _ (by decide +kernel) ?_
    refine crcReg_split 40 _ 13237100544930648719 _ _ (by decide +kernel) ?_
    refine crcReg_split 40 _ 13657039453812391400 _ _ (by decide +kernel) ?_
    refine crcReg_split 40 _ 12056414678014354777 _ _ (by decide +kernel) ?_
    decide +kernel
  rw [crc64_reg, h]
  decide +kernel

def initIn (ver crc : Nat) : FlitIn := { bytes := initFlit ver ++ leBytes 8 crc ++ zeros 8, fecOk := true, tagOk := false, corrected := 0 }

theorem initFlitBad_crc : crc64 ((initFlit 1).set 1 1) = 16852854821363772420 := by
  have h : crcReg (2 ^ 64 - 1) ((initFlit 1).set 1 1) = 1593889252345779195 := by
    refine crcReg_split 40 _ 3812580828918246765 _ _ (by decide +kernel) ?_
    refine crcReg_split 40 _ 11448932070457037931 _ _ (by decide +kernel) ?_
    refine crcReg_split 40 _ 13386204709911113640 _ _ (by decide +kernel) ?_
    refine crcReg_split 40 _ 11464483636336794896 _ _ (by decide +kernel) ?_
    refine crcReg_split 40 _ 1996343327744111298 _ _ (by decide +kernel) ?_
    decide +kernel
  rw [crc64_reg, h]
  decide +kernel

/-- A LINK_INIT whose ACK and flags byte is not 0. -/
def badInit : FlitIn := { bytes := (initFlit 1).set 1 1 ++ leBytes 8 16852854821363772420 ++ zeros 8, fecOk := true, tagOk := false, corrected := 0 }

theorem badInit_crc : crcOk badInit.bytes = true := by
  have h : badInit.bytes.take 240 = (initFlit 1).set 1 1 := by decide +kernel
  unfold crcOk
  rw [h, initFlitBad_crc]
  decide +kernel

/-- A state long after every instant that a link notes. -/
def later (s : State) : State := { s with time := 2 ^ 60 }

theorem initIn_valid (v c : Nat) (h : crc64 (initFlit v) = c) (ht : ((initIn v c).bytes.take 240) = initFlit v)
    (hc : ((initIn v c).fecOk && (initIn v c).bytes.length == 256 && fieldN (initIn v c).bytes 0 1 == 2 &&
      (fieldN (initIn v c).bytes 240 8 == c && fieldN (initIn v c).bytes 248 8 == 0) && !initBad (initIn v c).bytes) = true) :
    initValid (initIn v c) = true := by
  unfold initValid crcOk
  rw [ht, h]
  exact hc

def dataIn (seq : Nat) (fec tag : Bool) : FlitIn :=
  { bytes := padTo 256 ([1, 1] ++ leBytes 3 seq), fecOk := fec, tagOk := tag, corrected := 0 }

def probeMsg (t1 t2 : Nat) : Msg :=
  { op := 0x27, poison := 0, dest := 0, part := 0, flood := false, source := 0, hops := 0, tag := 0, fields := leBytes 8 t1,
    second := some (leBytes 8 t2 ++ leBytes 8 t2), data := [] }

def liveLink : Link := { st := 4, credits := [64, 64, 64], granted := [64, 64, 64] }

/-- A state and operands that meet the hypotheses of clause 1 of LinkEventRows. -/
theorem wit_LinkEventRows_1 :
    ∃ (s : State) (l : Nat), l < 16 ∧ (linkOf s l).st = lkTraining ∧ (linkOf s l).training = 1 := by
  refine ⟨lk { st := 1, training := 1 }, 3, ?_, ?_, ?_⟩ <;> first | decide +kernel | rfl

/-- A state and operands that meet the hypotheses of clause 2 of LinkEventRows. -/
theorem wit_LinkEventRows_2 :
    ∃ (s : State) (l : Nat), (linkOf s l).st ≠ lkTraining := by
  refine ⟨lk {}, 3, ?_⟩ <;> first | decide +kernel | rfl

/-- A state and operands that meet the hypotheses of clause 3 of LinkEventRows. -/
theorem wit_LinkEventRows_3 :
    ∃ (s : State) (l : Nat) (f : FlitIn), l < 16 ∧ (linkOf s l).st = lkTraining ∧ (linkOf s l).training = 3 ∧ (linkOf s l).retraining = false ∧ (linkOf s l).rxAny = false ∧ initValid f = true ∧ initRefused f.bytes = false := by
  refine ⟨lk { st := 1, training := 3 }, 3, initIn 1 6835759471373691114, ?_, ?_, ?_, ?_, ?_, ?_, ?_⟩
  · decide +kernel
  · decide +kernel
  · decide +kernel
  · decide +kernel
  · decide +kernel
  · exact initIn_valid _ _ initFlit1_crc (by decide +kernel) (by decide +kernel)
  · decide +kernel

/-- A state and operands that meet the hypotheses of clause 4 of LinkEventRows. -/
theorem wit_LinkEventRows_4 :
    ∃ (s : State) (l : Nat) (f : FlitIn), l < 16 ∧ (linkOf s l).st = lkTraining ∧ (linkOf s l).training = 3 ∧ (linkOf s l).retraining = false ∧ (linkOf s l).rxAny = false ∧ initValid f = true ∧ initRefused f.bytes = true := by
  refine ⟨lk { st := 1, training := 3 }, 3, initIn 2 17907234524599331738, ?_, ?_, ?_, ?_, ?_, ?_, ?_⟩
  · decide +kernel
  · decide +kernel
  · decide +kernel
  · decide +kernel
  · decide +kernel
  · exact initIn_valid _ _ initFlit2_crc (by decide +kernel) (by decide +kernel)
  · decide +kernel

/-- A state and operands that meet the hypotheses of clause 6 of LinkEventRows. -/
theorem wit_LinkEventRows_6 :
    ∃ (s v : State) (l corrected uncorrectable received : Nat), l < 16 ∧ (linkOf s l).st = lkTraining ∧ (linkOf s l).training = 4 ∧ (linkOf s l).berAt + secondUnits ≤ s.time ∧ (corrected + 150 * uncorrectable) * 100000 < received ∧ v = setLink s l { linkOf s l with ber := berFloat (corrected + 150 * uncorrectable) received } := by
  refine ⟨later (lk { st := 1, training := 4 }), _, 3, 0, 0, 1, ?_, ?_, ?_, ?_, ?_, rfl⟩ <;> first | decide +kernel | (intro p n h; cases h) | rfl | exact .inl (by decide +kernel) | exact .inr (by decide +kernel) | (intro h; exact absurd h (by decide +kernel))

/-- A state and operands that meet the hypotheses of clause 7 of LinkEventRows. -/
theorem wit_LinkEventRows_7 :
    ∃ (s v : State) (l corrected uncorrectable received : Nat), l < 16 ∧ (linkOf s l).st = lkTraining ∧ (linkOf s l).training = 4 ∧ (linkOf s l).berAt + secondUnits ≤ s.time ∧ received ≤ (corrected + 150 * uncorrectable) * 100000 ∧ v = setLink s l { linkOf s l with ber := berFloat (corrected + 150 * uncorrectable) received } := by
  refine ⟨later (lk { st := 1, training := 4 }), _, 3, 1, 0, 100000, ?_, ?_, ?_, ?_, ?_, rfl⟩ <;> first | decide +kernel | (intro p n h; cases h) | rfl | exact .inl (by decide +kernel) | exact .inr (by decide +kernel) | (intro h; exact absurd h (by decide +kernel))

/-- A state and operands that meet the hypotheses of clause 9 of LinkEventRows. -/
theorem wit_LinkEventRows_9 :
    ∃ (s : State) (l : Nat), l < 16 ∧ (linkOf s l).st = lkTraining ∧ (linkOf s l).attempts < 2 ∧ (linkOf s l).attemptAt + 3 * secondUnits ≤ s.time := by
  refine ⟨later (lk { st := 1, training := 3, attempts := 1 }), 3, ?_, ?_, ?_, ?_⟩ <;> first | decide +kernel | (intro p n h; cases h) | rfl | exact .inl (by decide +kernel) | exact .inr (by decide +kernel) | (intro h; exact absurd h (by decide +kernel))

/-- A state and operands that meet the hypotheses of clause 10 of LinkEventRows. -/
theorem wit_LinkEventRows_10 :
    ∃ (s : State) (l : Nat), l < 16 ∧ (linkOf s l).st = lkTraining ∧ 2 ≤ (linkOf s l).attempts ∧ (linkOf s l).attemptAt + 3 * secondUnits ≤ s.time := by
  refine ⟨later (lk { st := 1, training := 3, attempts := 2 }), 3, ?_, ?_, ?_, ?_⟩ <;> first | decide +kernel | (intro p n h; cases h) | rfl | exact .inl (by decide +kernel) | exact .inr (by decide +kernel) | (intro h; exact absurd h (by decide +kernel))

/-- A state and operands that meet the hypotheses of clause 12 of LinkEventRows. -/
theorem wit_LinkEventRows_12 :
    ∃ (s v : State) (l t1 t4 : Nat) (m : Msg), l < 16 ∧ firstOf s l 2 = some m ∧ m.op = 0x27 ∧ fieldN m.fields 0 8 = t1 ∧ fieldN (m.second.getD []) 0 8 = 0 ∧ fieldN (m.second.getD []) 8 8 = 0 ∧ v = freeMsg s l m := by
  refine ⟨lk { liveLink with rx := [probeMsg 9 0] }, _, 3, 9, 5, probeMsg 9 0, ?_, ?_, ?_, ?_, ?_, ?_, rfl⟩ <;> first | decide +kernel | rfl

/-- A state and operands that meet the hypotheses of clause 13 of LinkEventRows. -/
theorem wit_LinkEventRows_13 :
    ∃ (s v : State) (l t1 t2 t3 t4 : Nat) (m : Msg), l < 16 ∧ firstOf s l 2 = some m ∧ m.op = 0x27 ∧ fieldN m.fields 0 8 = t1 ∧ fieldN (m.second.getD []) 0 8 = t2 ∧ fieldN (m.second.getD []) 8 8 = t3 ∧ t2 ≠ 0 ∧ v = freeMsg s l m := by
  refine ⟨lk { liveLink with rx := [probeMsg 9 1] }, _, 3, 9, 1, 1, 5, probeMsg 9 1, ?_, ?_, ?_, ?_, ?_, ?_, ?_, rfl⟩ <;> first | decide +kernel | rfl

/-- A state and operands that meet the hypotheses of clause 14 of LinkEventRows. -/
theorem wit_LinkEventRows_14 :
    ∃ (s : State) (l : Nat), l < 16 ∧ (linkOf s l).st = lkLive ∧ (linkOf s l).retraining = false := by
  refine ⟨lk liveLink, 3, ?_, ?_, ?_⟩ <;> first | decide +kernel | rfl

/-- A state and operands that meet the hypotheses of clause 17 of LinkEventRows. -/
theorem wit_LinkEventRows_17 :
    ∃ (s : State) (l : Nat) (f : FlitIn), l < 16 ∧ f.bytes.length = 256 ∧ receives (linkOf s l) = true ∧ (linkOf s l).st = lkFenced := by
  refine ⟨lk { st := 6 }, 3, dataIn 1 true true, ?_, ?_, ?_, ?_⟩ <;> first | decide +kernel | rfl

/-- A state and operands that meet the hypotheses of clause 18 of LinkEventRows. -/
theorem wit_LinkEventRows_18 :
    ∃ (s : State) (l : Nat) (f : FlitIn), l < 16 ∧ f.bytes.length = 256 ∧ receives (linkOf s l) = true ∧ (linkOf s l).st ≠ lkFenced ∧ ((linkOf s l).st ≠ lkTraining ∨ (linkOf s l).training ≠ 3) ∧ f.fecOk = false := by
  refine ⟨lk liveLink, 3, dataIn 1 false true, ?_, ?_, ?_, ?_, ?_, ?_⟩ <;> first | decide +kernel | rfl | exact .inl (by decide +kernel) | exact .inr (by decide +kernel) | (intro h; exact absurd h (by decide +kernel))

/-- A state and operands that meet the hypotheses of clause 19 of LinkEventRows. -/
theorem wit_LinkEventRows_19 :
    ∃ (s : State) (l : Nat) (f : FlitIn), l < 16 ∧ f.bytes.length = 256 ∧ receives (linkOf s l) = true ∧ (linkOf s l).st ≠ lkFenced ∧ ((linkOf s l).st ≠ lkTraining ∨ (linkOf s l).training ≠ 3) ∧ f.fecOk = true ∧ integrityOk (linkOf s l) f = false := by
  refine ⟨lk liveLink, 3, dataIn 1 true true, ?_, ?_, ?_, ?_, ?_, ?_, ?_⟩ <;> first | decide +kernel | rfl | exact .inl (by decide +kernel) | exact .inr (by decide +kernel) | (intro h; exact absurd h (by decide +kernel))

/-- A state and operands that meet the hypotheses of clause 20 of LinkEventRows. -/
theorem wit_LinkEventRows_20 :
    ∃ (s : State) (l : Nat) (f : FlitIn), l < 16 ∧ f.bytes.length = 256 ∧ receives (linkOf s l) = true ∧ (linkOf s l).st ≠ lkFenced ∧ ((linkOf s l).st ≠ lkTraining ∨ (linkOf s l).training ≠ 3) ∧ f.fecOk = true ∧ integrityOk (linkOf s l) f = true ∧ fieldN f.bytes 0 1 = 1 ∧ fieldN f.bytes 2 3 = (linkOf s l).rxNext := by
  refine ⟨lk { liveLink with enc := true }, 3, dataIn 1 true true, ?_, ?_, ?_, ?_, ?_, ?_, ?_, ?_, ?_⟩ <;> first | decide +kernel | rfl | exact .inl (by decide +kernel) | exact .inr (by decide +kernel) | (intro h; exact absurd h (by decide +kernel))

/-- A state and operands that meet the hypotheses of clause 21 of LinkEventRows. -/
theorem wit_LinkEventRows_21 :
    ∃ (s : State) (l : Nat) (f : FlitIn), l < 16 ∧ f.bytes.length = 256 ∧ receives (linkOf s l) = true ∧ (linkOf s l).st ≠ lkFenced ∧ ((linkOf s l).st ≠ lkTraining ∨ (linkOf s l).training ≠ 3) ∧ f.fecOk = true ∧ integrityOk (linkOf s l) f = true ∧ fieldN f.bytes 0 1 = 1 ∧ fieldN f.bytes 2 3 ≠ (linkOf s l).rxNext := by
  refine ⟨lk { liveLink with enc := true }, 3, dataIn 2 true true, ?_, ?_, ?_, ?_, ?_, ?_, ?_, ?_, ?_⟩ <;> first | decide +kernel | rfl | exact .inl (by decide +kernel) | exact .inr (by decide +kernel) | (intro h; exact absurd h (by decide +kernel))

/-- A state and operands that meet the hypotheses of clause 22 of LinkEventRows. -/
theorem wit_LinkEventRows_22 :
    ∃ (s : State) (l : Nat), (linkOf s l).replay = [] := by
  refine ⟨lk liveLink, 3, ?_⟩ <;> first | decide +kernel | rfl

/-- A state and operands that meet the hypotheses of clause 23 of LinkEventRows. -/
theorem wit_LinkEventRows_23 :
    ∃ (s : State) (l : Nat), l < 16 ∧ (linkOf s l).replay ≠ [] ∧ canSend (linkOf s l) = true ∧ (linkOf s l).stuck < 15 ∧ (linkOf s l).ackAt + nsUnits 4000 ≤ s.time := by
  refine ⟨later (lk { liveLink with replay := [(1, zeros 256)], stuck := 14 }), 3, ?_, ?_, ?_, ?_, ?_⟩ <;> first | decide +kernel | (intro p n h; cases h) | rfl | exact .inl (by decide +kernel) | exact .inr (by decide +kernel) | (intro h; exact absurd h (by decide +kernel))

/-- A state and operands that meet the hypotheses of clause 24 of LinkEventRows. -/
theorem wit_LinkEventRows_24 :
    ∃ (s : State) (l : Nat), l < 16 ∧ (linkOf s l).replay ≠ [] ∧ canSend (linkOf s l) = true ∧ 15 ≤ (linkOf s l).stuck ∧ (linkOf s l).st = lkLive ∧ (linkOf s l).ackAt + nsUnits 4000 ≤ s.time := by
  refine ⟨later (lk { liveLink with replay := [(1, zeros 256)], stuck := 15 }), 3, ?_, ?_, ?_, ?_, ?_, ?_⟩ <;> first | decide +kernel | (intro p n h; cases h) | rfl | exact .inl (by decide +kernel) | exact .inr (by decide +kernel) | (intro h; exact absurd h (by decide +kernel))

/-- A state and operands that meet the hypotheses of clause 28 of LinkEventRows. -/
theorem wit_LinkEventRows_28 :
    ∃ (s : State) (l ch : Nat), (linkOf s l).tx.any (fun m => opChannel m.op == ch) = false := by
  refine ⟨lk liveLink, 3, 2, ?_⟩ <;> first | decide +kernel | rfl

/-- A state and operands that meet the hypotheses of clause 39 of LinkEventRows. -/
theorem wit_LinkEventRows_39 :
    ∃ (s : State) (l : Nat), l < 16 ∧ (linkOf s l).enc = true ∧ authenticated (linkOf s l) = true ∧ (linkOf s l).beatAt + secondUnits ≤ s.time ∧ (linkOf s l).beats < 3 := by
  refine ⟨later (lk { liveLink with enc := true, beats := 2 }), 3, ?_, ?_, ?_, ?_, ?_⟩ <;> first | decide +kernel | (intro p n h; cases h) | rfl | exact .inl (by decide +kernel) | exact .inr (by decide +kernel) | (intro h; exact absurd h (by decide +kernel))

/-- A state and operands that meet the hypotheses of clause 40 of LinkEventRows. -/
theorem wit_LinkEventRows_40 :
    ∃ (s : State) (l : Nat), l < 16 ∧ (linkOf s l).enc = true ∧ authenticated (linkOf s l) = true ∧ (linkOf s l).beatAt + secondUnits ≤ s.time ∧ 3 ≤ (linkOf s l).beats := by
  refine ⟨later (lk { liveLink with enc := true, beats := 3 }), 3, ?_, ?_, ?_, ?_, ?_⟩ <;> first | decide +kernel | (intro p n h; cases h) | rfl | exact .inl (by decide +kernel) | exact .inr (by decide +kernel) | (intro h; exact absurd h (by decide +kernel))

/-- A state and operands that meet the hypotheses of clause 42 of LinkEventRows. -/
theorem wit_LinkEventRows_42 :
    ∃ (s : State) (l : Nat), l < 16 ∧ (linkOf s l).enc = false ∧ authenticated (linkOf s l) = true ∧ (linkOf s l).askAt + 60 * secondUnits ≤ s.time := by
  refine ⟨later (lk liveLink), 3, ?_, ?_, ?_, ?_⟩ <;> first | decide +kernel | (intro p n h; cases h) | rfl | exact .inl (by decide +kernel) | exact .inr (by decide +kernel) | (intro h; exact absurd h (by decide +kernel))

/-- A state and operands that meet the hypotheses of clause 46 of LinkEventRows. -/
theorem wit_LinkEventRows_46 :
    ∃ (s : State) (l : Nat), l < 16 ∧ (linkOf s l).enc = true ∧ 4294967296 ≤ (linkOf s l).flitsKey := by
  refine ⟨lk { liveLink with enc := true, flitsKey := 4294967296 }, 3, ?_, ?_, ?_⟩ <;> first | decide +kernel | rfl

/-- A state and operands that meet the hypotheses of clause 5 of LinkEventRows. -/
theorem wit_LinkEventRows_5 :
    ∃ (s : State) (l : Nat) (f : FlitIn), l < 16 ∧ receives (linkOf s l) = true ∧ (linkOf s l).st ≠ lkFenced ∧ fieldN f.bytes 0 1 = 2 ∧ f.fecOk = true ∧ f.bytes.length = 256 ∧ crcOk f.bytes = true ∧ initBad f.bytes = true := by
  refine ⟨lk { st := 1, training := 3 }, 3, badInit, ?_, ?_, ?_, ?_, ?_, ?_, badInit_crc, ?_⟩ <;> first | decide +kernel | (intro p n h; cases h) | rfl | exact .inl (by decide +kernel) | exact .inr (by decide +kernel) | (intro h; exact absurd h (by decide +kernel))

/-- A state and operands that meet the hypotheses of clause 8 of LinkEventRows. -/
theorem wit_LinkEventRows_8 :
    ∃ (s : State) (l corrected uncorrectable received : Nat), s.time < (linkOf s l).berAt + secondUnits := by
  refine ⟨lk { st := 1, training := 4 }, 3, 0, 0, 1, ?_⟩ <;> first | decide +kernel | (intro p n h; cases h) | rfl | exact .inl (by decide +kernel) | exact .inr (by decide +kernel) | (intro h; exact absurd h (by decide +kernel))

/-- A state and operands that meet the hypotheses of clause 11 of LinkEventRows. -/
theorem wit_LinkEventRows_11 :
    ∃ (s : State) (l : Nat), s.time < (linkOf s l).attemptAt + 3 * secondUnits := by
  refine ⟨lk { st := 1, training := 3 }, 3, ?_⟩ <;> first | decide +kernel | (intro p n h; cases h) | rfl | exact .inl (by decide +kernel) | exact .inr (by decide +kernel) | (intro h; exact absurd h (by decide +kernel))

/-- A state and operands that meet the hypotheses of clause 15 of LinkEventRows. -/
theorem wit_LinkEventRows_15 :
    ∃ (s : State) (l : Nat), l < 16 ∧ (linkOf s l).retraining = true ∧ s.time ≤ (linkOf s l).retrainAt + nsUnits 50000000 := by
  refine ⟨lk { liveLink with retraining := true }, 3, ?_, ?_, ?_⟩ <;> first | decide +kernel | (intro p n h; cases h) | rfl | exact .inl (by decide +kernel) | exact .inr (by decide +kernel) | (intro h; exact absurd h (by decide +kernel))

/-- A state and operands that meet the hypotheses of clause 16 of LinkEventRows. -/
theorem wit_LinkEventRows_16 :
    ∃ (s : State) (l : Nat) (b : Bool), l < 16 ∧ (linkOf s l).retraining = true ∧ (b = false ∨ (linkOf s l).retrainAt + nsUnits 50000000 < s.time) := by
  refine ⟨lk { liveLink with retraining := true }, 3, false, ?_, ?_, ?_⟩ <;> first | decide +kernel | (intro p n h; cases h) | rfl | exact .inl (by decide +kernel) | exact .inr (by decide +kernel) | (intro h; exact absurd h (by decide +kernel))

/-- A state and operands that meet the hypotheses of clause 25 of LinkEventRows. -/
theorem wit_LinkEventRows_25 :
    ∃ (s : State) (l : Nat), s.time < (linkOf s l).ackAt + nsUnits 4000 := by
  refine ⟨lk { liveLink with replay := [(1, zeros 256)] }, 3, ?_⟩ <;> first | decide +kernel | (intro p n h; cases h) | rfl | exact .inl (by decide +kernel) | exact .inr (by decide +kernel) | (intro h; exact absurd h (by decide +kernel))

/-- A state and operands that meet the hypotheses of clause 26 of LinkEventRows. -/
theorem wit_LinkEventRows_26 :
    ∃ (s : State) (l ch : Nat), s.time < (linkOf s l).creditAt.getD ch 0 + nsUnits 10000000 := by
  refine ⟨lk { liveLink with tx := [probeMsg 9 0] }, 3, 2, ?_⟩ <;> first | decide +kernel | (intro p n h; cases h) | rfl | exact .inl (by decide +kernel) | exact .inr (by decide +kernel) | (intro h; exact absurd h (by decide +kernel))

/-- A state and operands that meet the hypotheses of clause 27 of LinkEventRows. -/
theorem wit_LinkEventRows_27 :
    ∃ (s : State) (l ch : Nat), l < 16 ∧ (linkOf s l).tx.any (fun m => opChannel m.op == ch) = true ∧ (linkOf s l).creditAt.getD ch 0 + nsUnits 10000000 ≤ s.time := by
  refine ⟨later (lk { liveLink with tx := [probeMsg 9 0] }), 3, 2, ?_, ?_, ?_⟩ <;> first | decide +kernel | (intro p n h; cases h) | rfl | exact .inl (by decide +kernel) | exact .inr (by decide +kernel) | (intro h; exact absurd h (by decide +kernel))

/-- A state and operands that meet the hypotheses of clause 29 of LinkEventRows. -/
theorem wit_LinkEventRows_29 :
    ∃ (s v : State) (l : Nat) (x : Link), l < 16 ∧ (linkOf s l).st = lkAuth ∧ v = (match firstOf s l 2 with | some m => if m.op = 0x26 then freeMsg s l m else s | none => s) ∧ x = linkOf v l := by
  refine ⟨lk { st := 2, spdm := 1 }, _, 3, _, ?_, ?_, rfl, rfl⟩ <;> first | decide +kernel | (intro p n h; cases h) | rfl | exact .inl (by decide +kernel) | exact .inr (by decide +kernel) | (intro h; exact absurd h (by decide +kernel))

/-- A state and operands that meet the hypotheses of clause 30 of LinkEventRows. -/
theorem wit_LinkEventRows_30 :
    ∃ (s v : State) (l n : Nat) (x : Link) (q : SpdmReq), l < 16 ∧ (linkOf s l).st = lkAuth ∧ v = (match firstOf s l 2 with | some m => if m.op = 0x26 then freeMsg s l m else s | none => s) ∧ x = linkOf v l ∧ x.spdm = 2 ∧ spdmGrant v x q = some n := by
  refine ⟨lk { st := 2, spdm := 2, spdmPeer := 1 }, _, 3, 2, _, .capabilities, ?_, ?_, rfl, rfl, ?_, ?_⟩ <;> first | decide +kernel | (intro p n h; cases h) | rfl | exact .inl (by decide +kernel) | exact .inr (by decide +kernel) | (intro h; exact absurd h (by decide +kernel))

/-- A state and operands that meet the hypotheses of clause 31 of LinkEventRows. -/
theorem wit_LinkEventRows_31 :
    ∃ (s v : State) (l : Nat) (x : Link) (q : SpdmReq), l < 16 ∧ (linkOf s l).st = lkAuth ∧ v = (match firstOf s l 2 with | some m => if m.op = 0x26 then freeMsg s l m else s | none => s) ∧ x = linkOf v l ∧ (x.spdm ≠ 2 ∨ spdmGrant v x q = none) := by
  refine ⟨lk { st := 2, spdm := 2, spdmPeer := 1 }, _, 3, _, .algorithms, ?_, ?_, rfl, rfl, ?_⟩ <;> first | decide +kernel | (intro p n h; cases h) | rfl | exact .inl (by decide +kernel) | exact .inr (by decide +kernel) | (intro h; exact absurd h (by decide +kernel))

/-- A state and operands that meet the hypotheses of clause 32 of LinkEventRows. -/
theorem wit_LinkEventRows_32 :
    ∃ (s v : State) (l : Nat) (x : Link), l < 16 ∧ (linkOf s l).st = lkAuth ∧ v = (match firstOf s l 2 with | some m => if m.op = 0x26 then freeMsg s l m else s | none => s) ∧ x = linkOf v l ∧ x.spdm = 1 ∧ x.spdmAt + 1 < spdmRequests v x := by
  refine ⟨lk { st := 2, spdm := 1 }, _, 3, _, ?_, ?_, rfl, rfl, ?_, ?_⟩ <;> first | decide +kernel | (intro p n h; cases h) | rfl | exact .inl (by decide +kernel) | exact .inr (by decide +kernel) | (intro h; exact absurd h (by decide +kernel))

/-- A state and operands that meet the hypotheses of clause 33 of LinkEventRows. -/
theorem wit_LinkEventRows_33 :
    ∃ (s v : State) (l : Nat) (x : Link), l < 16 ∧ (linkOf s l).st = lkAuth ∧ v = (match firstOf s l 2 with | some m => if m.op = 0x26 then freeMsg s l m else s | none => s) ∧ x = linkOf v l ∧ x.spdm = 1 ∧ spdmRequests v x ≤ x.spdmAt + 1 := by
  refine ⟨lk { st := 2, spdm := 1, spdmAt := 6 }, _, 3, _, ?_, ?_, rfl, rfl, ?_, ?_⟩ <;> first | decide +kernel | (intro p n h; cases h) | rfl | exact .inl (by decide +kernel) | exact .inr (by decide +kernel) | (intro h; exact absurd h (by decide +kernel))

/-- A state and operands that meet the hypotheses of clause 34 of LinkEventRows. -/
theorem wit_LinkEventRows_34 :
    ∃ (s v : State) (l : Nat) (x : Link), l < 16 ∧ (linkOf s l).st = lkAuth ∧ v = (match firstOf s l 2 with | some m => if m.op = 0x26 then freeMsg s l m else s | none => s) ∧ x = linkOf v l ∧ x.spdm = 1 := by
  refine ⟨lk { st := 2, spdm := 1 }, _, 3, _, ?_, ?_, rfl, rfl, ?_⟩ <;> first | decide +kernel | (intro p n h; cases h) | rfl | exact .inl (by decide +kernel) | exact .inr (by decide +kernel) | (intro h; exact absurd h (by decide +kernel))

/-- A state and operands that meet the hypotheses of clause 35 of LinkEventRows. -/
theorem wit_LinkEventRows_35 :
    ∃ (s v : State) (l : Nat) (x : Link), l < 16 ∧ (linkOf s l).st = lkAuth ∧ v = (match firstOf s l 2 with | some m => if m.op = 0x26 then freeMsg s l m else s | none => s) ∧ x = linkOf v l ∧ x.spdm = 2 := by
  refine ⟨lk { st := 2, spdm := 2 }, _, 3, _, ?_, ?_, rfl, rfl, ?_⟩ <;> first | decide +kernel | (intro p n h; cases h) | rfl | exact .inl (by decide +kernel) | exact .inr (by decide +kernel) | (intro h; exact absurd h (by decide +kernel))

/-- A state and operands that meet the hypotheses of clause 36 of LinkEventRows. -/
theorem wit_LinkEventRows_36 :
    ∃ (s v : State) (l : Nat) (x : Link), l < 16 ∧ authenticated (linkOf s l) = true ∧ v = (match firstOf s l 2 with | some m => if m.op = 0x26 then freeMsg s l m else s | none => s) ∧ x = linkOf v l := by
  refine ⟨lk liveLink, _, 3, _, ?_, ?_, rfl, rfl⟩ <;> first | decide +kernel | (intro p n h; cases h) | rfl | exact .inl (by decide +kernel) | exact .inr (by decide +kernel) | (intro h; exact absurd h (by decide +kernel))

/-- A state and operands that meet the hypotheses of clause 37 of LinkEventRows. -/
theorem wit_LinkEventRows_37 :
    ∃ (s v : State) (l : Nat) (x : Link) (q : SpdmReq), l < 16 ∧ authenticated (linkOf s l) = true ∧ v = (match firstOf s l 2 with | some m => if m.op = 0x26 then freeMsg s l m else s | none => s) ∧ x = linkOf v l := by
  refine ⟨lk { liveLink with enc := true }, _, 3, _, .keyUpdate, ?_, ?_, rfl, rfl⟩ <;> first | decide +kernel | (intro p n h; cases h) | rfl | exact .inl (by decide +kernel) | exact .inr (by decide +kernel) | (intro h; exact absurd h (by decide +kernel))

/-- A state and operands that meet the hypotheses of clause 38 of LinkEventRows. -/
theorem wit_LinkEventRows_38 :
    ∃ (s v : State) (l : Nat) (x : Link), l < 16 ∧ authenticated (linkOf s l) = true ∧ v = (match firstOf s l 2 with | some m => if m.op = 0x26 then freeMsg s l m else s | none => s) ∧ x = linkOf v l ∧ x.asked = true := by
  refine ⟨lk { liveLink with asked := true }, _, 3, _, ?_, ?_, rfl, rfl, ?_⟩ <;> first | decide +kernel | (intro p n h; cases h) | rfl | exact .inl (by decide +kernel) | exact .inr (by decide +kernel) | (intro h; exact absurd h (by decide +kernel))

/-- A state and operands that meet the hypotheses of clause 41 of LinkEventRows. -/
theorem wit_LinkEventRows_41 :
    ∃ (s : State) (l : Nat), s.time < (linkOf s l).beatAt + secondUnits := by
  refine ⟨lk { liveLink with enc := true }, 3, ?_⟩ <;> first | decide +kernel | (intro p n h; cases h) | rfl | exact .inl (by decide +kernel) | exact .inr (by decide +kernel) | (intro h; exact absurd h (by decide +kernel))

/-- A state and operands that meet the hypotheses of clause 43 of LinkEventRows. -/
theorem wit_LinkEventRows_43 :
    ∃ (s : State) (l : Nat), s.time < (linkOf s l).askAt + 60 * secondUnits := by
  refine ⟨lk liveLink, 3, ?_⟩ <;> first | decide +kernel | (intro p n h; cases h) | rfl | exact .inl (by decide +kernel) | exact .inr (by decide +kernel) | (intro h; exact absurd h (by decide +kernel))

/-- A state and operands that meet the hypotheses of clause 44 of LinkEventRows. -/
theorem wit_LinkEventRows_44 :
    ∃ (s : State) (l : Nat), l < 16 ∧ (linkOf s l).asked = true ∧ (linkOf s l).askAt + secondUnits ≤ s.time := by
  refine ⟨later (lk { liveLink with asked := true }), 3, ?_, ?_, ?_⟩ <;> first | decide +kernel | (intro p n h; cases h) | rfl | exact .inl (by decide +kernel) | exact .inr (by decide +kernel) | (intro h; exact absurd h (by decide +kernel))

/-- A state and operands that meet the hypotheses of clause 45 of LinkEventRows. -/
theorem wit_LinkEventRows_45 :
    ∃ (s : State) (l : Nat), ((linkOf s l).asked = false ∨ s.time < (linkOf s l).askAt + secondUnits) := by
  refine ⟨lk liveLink, 3, ?_⟩ <;> first | decide +kernel | (intro p n h; cases h) | rfl | exact .inl (by decide +kernel) | exact .inr (by decide +kernel) | (intro h; exact absurd h (by decide +kernel))

def msg0 (op : Nat) (fields : List Byte) (second : Option (List Byte)) (data : List (List Byte)) : Msg :=
  { op := op, poison := 0, dest := 0, part := 0, flood := flooded op, source := 1, hops := 1, tag := 5, fields := fields, second := second,
    data := data }

def group0 : Group := { id := 9, index := 0, members := [0, 1], remoteUs := 10, lines := 4, routes := [(1, 3)], hash := zeros 48, raw := [] }

/-- Link 3 LIVE to device 1 of a group, with one message in its receive buffer. -/
def withMsg (s : State) (m : Msg) : State :=
  let s1 := { s with duc.group := some group0 }
  setLink s1 3 { liveLink with rx := [m], peer := 1 }

def remote0 (op left : Nat) : Remote := { tag := 5, dest := 1, msg := msg0 op (zeros 8) none [], use := .coreWrite 0, since := 0, left := left }

def withRemote (m : Msg) (r : Remote) : State := let s := withMsg memReady m; { s with duc.remotes := [r] }

def readMsg (dpa : Nat) : Msg := msg0 1 (leBytes 6 dpa ++ [1, 0]) none []
def writeMsg (id : Nat) : Msg := msg0 2 (leBytes 6 0x40 ++ [0, 0]) (some (zeros 12 ++ leBytes 4 id)) [List.replicate 64 7]
def contribMsg (ord : Byte) : Msg := msg0 3 (leBytes 6 0 ++ [0, 0]) (some ([4, ord, 0, 0] ++ leBytes 4 9 ++ leBytes 4 0xFFFFFFFF ++ zeros 4)) [List.replicate 64 1]
def signalMsg : Msg := msg0 4 (leBytes 2 2 ++ zeros 2 ++ leBytes 4 1) none []
def markerIn : Msg := msg0 0x20 (leBytes 6 100 ++ zeros 2) (some (leBytes 4 3 ++ leBytes 2 1 ++ zeros 10)) []
def readyMsg : Msg := msg0 0x23 (leBytes 4 7 ++ leBytes 4 1) none []
def abortMsg : Msg := msg0 0x24 (leBytes 4 7 ++ leBytes 2 1 ++ leBytes 2 1) none []

def coll0 : Coll :=
  { id := 7, op := 2, alg := 0, red := 0, ordered := false, part := 0, lines := 0, src := 0, dst := 0x1000, len := 128, pieces := 1, seq := 0,
    total := 0, root := 0, startTally := 0xFFFF, startTarget := 0, doneTally := 0xFFFF, members := [0, 1], signature := 2 }

def withColl (s : State) (c : Coll) : State := { s with duc.colls := [c] }

def following : State :=
  let s := withMsg memReady markerIn
  { s with rul := { s.rul with follower := true, master := 1 } }

/-- A state and operands that meet the hypotheses of clause 1 of PeerMessageRows. -/
theorem wit_PeerMessageRows_1 :
    ∃ (s : State) (l : Nat) (m : Msg), firstOf s l 0 ≠ some m := by
  refine ⟨memReady, 3, readMsg 0, ?_⟩ <;> first | decide +kernel | rfl

/-- A state and operands that meet the hypotheses of clause 2 of PeerMessageRows. -/
theorem wit_PeerMessageRows_2 :
    ∃ (s : State) (l : Nat) (m : Msg), firstOf s l 1 ≠ some m := by
  refine ⟨memReady, 3, readMsg 0, ?_⟩ <;> first | decide +kernel | rfl

/-- A state and operands that meet the hypotheses of clause 5 of PeerMessageRows. -/
theorem wit_PeerMessageRows_5 :
    ∃ (s w : State) (l : Nat) (m : Msg), l < 16 ∧ m.op = 1 ∧ firstOf s l 0 = some m ∧ (linkOf s l).st = lkLive ∧ m.dest = ownIndex s ∧ s.ink.state ≠ stCapped ∧ peerHeld s m (retrainingAt s false (msgDpa m) (readLen m)) = false ∧ w = countMsg (freeMsg s l m) 20 m ∧ msgDpa m % 64 ≠ 0 := by
  refine ⟨withMsg memReady (readMsg 0x41), _, 3, readMsg 0x41, ?_, ?_, ?_, ?_, ?_, ?_, ?_, rfl, ?_⟩ <;> first | decide +kernel | rfl | exact .inl (by decide +kernel) | exact .inr (by decide +kernel) | (intro h; exact absurd h (by decide +kernel))

/-- A state and operands that meet the hypotheses of clause 6 of PeerMessageRows. -/
theorem wit_PeerMessageRows_6 :
    ∃ (s w : State) (l : Nat) (m : Msg), l < 16 ∧ m.op = 1 ∧ firstOf s l 0 = some m ∧ (linkOf s l).st = lkLive ∧ m.dest = ownIndex s ∧ s.ink.state = stCapped ∧ peerHeld s m (retrainingAt s false (msgDpa m) (readLen m)) = false ∧ w = countMsg (freeMsg s l m) 20 m := by
  refine ⟨withMsg { memReady with ink.state := stCapped } (readMsg 0x40), _, 3, readMsg 0x40, ?_, ?_, ?_, ?_, ?_, ?_, ?_, rfl⟩ <;> first | decide +kernel | rfl | exact .inl (by decide +kernel) | exact .inr (by decide +kernel) | (intro h; exact absurd h (by decide +kernel))

/-- A state and operands that meet the hypotheses of clause 7 of PeerMessageRows. -/
theorem wit_PeerMessageRows_7 :
    ∃ (s : State) (l : Nat) (m : Msg), l < 16 ∧ m.op = 1 ∧ firstOf s l 0 = some m ∧ (linkOf s l).st = lkLive ∧ m.dest ≠ ownIndex s := by
  refine ⟨withMsg memReady { readMsg 0x40 with dest := 2 }, 3, { readMsg 0x40 with dest := 2 }, ?_, ?_, ?_, ?_, ?_⟩ <;> first | decide +kernel | rfl

/-- A state and operands that meet the hypotheses of clause 10 of PeerMessageRows. -/
theorem wit_PeerMessageRows_10 :
    ∃ (s w : State) (l : Nat) (m : Msg), l < 16 ∧ m.op = 2 ∧ firstOf s l 0 = some m ∧ (linkOf s l).st = lkLive ∧ m.dest = ownIndex s ∧ s.ink.state ≠ stCapped ∧ peerHeld s m (retrainingAt s true (msgDpa m) (64 * m.data.length)) = false ∧ w = countMsg (freeMsg s l m) 20 m ∧ msgColl m ≠ 0 ∧ collOf w (msgColl m) = none := by
  refine ⟨withMsg memReady (writeMsg 4), _, 3, writeMsg 4, ?_, ?_, ?_, ?_, ?_, ?_, ?_, rfl, ?_, ?_⟩ <;> first | decide +kernel | rfl | exact .inl (by decide +kernel) | exact .inr (by decide +kernel) | (intro h; exact absurd h (by decide +kernel))

/-- A state and operands that meet the hypotheses of clause 11 of PeerMessageRows. -/
theorem wit_PeerMessageRows_11 :
    ∃ (s w u v : State) (l st : Nat) (m : Msg) (b : List Byte), l < 16 ∧ m.op = 3 ∧ firstOf s l 0 = some m ∧ (linkOf s l).st = lkLive ∧ m.dest = ownIndex s ∧ s.ink.state ≠ stCapped ∧ peerHeld s m (retrainingBelow s (msgDpa m) 64) = false ∧ w = countMsg (freeMsg s l m) 20 m ∧ msgColl m = 0 ∧ contribute w (peerRq m) (msgContribution m none) 1 = (st, b, u) ∧ v = (if st = St.ok then crossFrom u (linkDie l) (some m.part) true (msgDpa m) 64 else u) ∧ v.ari.aside.length ≤ w.ari.aside.length := by
  refine ⟨withMsg atomReady (contribMsg 0), _, _, _, 3, _, contribMsg 0, _, ?_, ?_, ?_, ?_, ?_, ?_, ?_, rfl, ?_, eta_triple _, rfl, ?_⟩ <;> first | decide +kernel | (intro p n h; cases h) | rfl | exact .inl (by decide +kernel) | exact .inr (by decide +kernel) | (intro h; exact absurd h (by decide +kernel))

/-- A state and operands that meet the hypotheses of clause 12 of PeerMessageRows. -/
theorem wit_PeerMessageRows_12 :
    ∃ (s w u v : State) (l st : Nat) (m : Msg) (b : List Byte), l < 16 ∧ m.op = 3 ∧ firstOf s l 0 = some m ∧ (linkOf s l).st = lkLive ∧ m.dest = ownIndex s ∧ s.ink.state ≠ stCapped ∧ peerHeld s m (retrainingBelow s (msgDpa m) 64) = false ∧ w = countMsg (freeMsg s l m) 20 m ∧ msgColl m = 0 ∧ contribute w (peerRq m) (msgContribution m none) 1 = (st, b, u) ∧ v = (if st = St.ok then crossFrom u (linkDie l) (some m.part) true (msgDpa m) 64 else u) ∧ w.ari.aside.length < v.ari.aside.length := by
  refine ⟨withMsg fullStore (contribMsg 1), _, _, _, 3, _, contribMsg 1, _, ?_, ?_, ?_, ?_, ?_, ?_, ?_, rfl, ?_, eta_triple _, rfl, ?_⟩ <;> first | decide +kernel | (intro p n h; cases h) | rfl | exact .inl (by decide +kernel) | exact .inr (by decide +kernel) | (intro h; exact absurd h (by decide +kernel))

/-- A state and operands that meet the hypotheses of clause 13 of PeerMessageRows. -/
theorem wit_PeerMessageRows_13 :
    ∃ (s w : State) (l : Nat) (m : Msg), l < 16 ∧ m.op = 4 ∧ firstOf s l 0 = some m ∧ (linkOf s l).st = lkLive ∧ m.dest = ownIndex s ∧ s.ink.state ≠ stCapped ∧ w = countMsg (freeMsg s l m) 20 m ∧ underReset w (tallyQuad (bits (fieldN m.fields 0 8) 13 0)) = true := by
  refine ⟨withMsg (resetQuad0 memReady) signalMsg, _, 3, signalMsg, ?_, ?_, ?_, ?_, ?_, ?_, rfl, ?_⟩ <;> first | decide +kernel | (intro p n h; cases h) | rfl | exact .inl (by decide +kernel) | exact .inr (by decide +kernel) | (intro h; exact absurd h (by decide +kernel))

/-- A state and operands that meet the hypotheses of clause 14 of PeerMessageRows. -/
theorem wit_PeerMessageRows_14 :
    ∃ (s w : State) (l : Nat) (m : Msg), l < 16 ∧ m.op = 4 ∧ firstOf s l 0 = some m ∧ (linkOf s l).st = lkLive ∧ m.dest = ownIndex s ∧ s.ink.state ≠ stCapped ∧ w = countMsg (freeMsg s l m) 20 m ∧ underReset w (tallyQuad (bits (fieldN m.fields 0 8) 13 0)) = false := by
  refine ⟨withMsg memReady signalMsg, _, 3, signalMsg, ?_, ?_, ?_, ?_, ?_, ?_, rfl, ?_⟩ <;> first | decide +kernel | rfl

/-- A state and operands that meet the hypotheses of clause 15 of PeerMessageRows. -/
theorem wit_PeerMessageRows_15 :
    ∃ (s w : State) (l : Nat) (m : Msg) (r : Remote), l < 16 ∧ m.op = 0x10 ∧ firstOf s l 1 = some m ∧ (linkOf s l).st = lkLive ∧ m.dest = ownIndex s ∧ w = countMsg (freeMsg s l m) 20 m ∧ remoteFor w m = some r := by
  refine ⟨withRemote (msg0 0x10 (zeros 8) none [zeros 64]) (remote0 1 1), _, 3, msg0 0x10 (zeros 8) none [zeros 64], remote0 1 1, ?_, ?_, ?_, ?_, ?_, rfl, ?_⟩ <;> first | decide +kernel | rfl

/-- A state and operands that meet the hypotheses of clause 16 of PeerMessageRows. -/
theorem wit_PeerMessageRows_16 :
    ∃ (s w : State) (l : Nat) (m : Msg) (r : Remote), l < 16 ∧ m.op = 0x11 ∧ firstOf s l 1 = some m ∧ (linkOf s l).st = lkLive ∧ m.dest = ownIndex s ∧ w = countMsg (freeMsg s l m) 20 m ∧ remoteFor w m = some r ∧ (r.left = 0 ∨ fieldN m.fields 0 2 ≠ St.ok) := by
  refine ⟨withRemote (msg0 0x11 (zeros 8) none []) (remote0 2 0), _, 3, msg0 0x11 (zeros 8) none [], remote0 2 0, ?_, ?_, ?_, ?_, ?_, rfl, ?_, ?_⟩ <;> first | decide +kernel | rfl | exact .inl (by decide +kernel) | exact .inr (by decide +kernel) | (intro h; exact absurd h (by decide +kernel))

/-- A state and operands that meet the hypotheses of clause 17 of PeerMessageRows. -/
theorem wit_PeerMessageRows_17 :
    ∃ (s w : State) (l : Nat) (m : Msg), l < 16 ∧ m.op = 0x11 ∧ firstOf s l 1 = some m ∧ (linkOf s l).st = lkLive ∧ m.dest = ownIndex s ∧ w = countMsg (freeMsg s l m) 20 m ∧ remoteFor w m = none := by
  refine ⟨withMsg memReady (msg0 0x11 (zeros 8) none []), _, 3, msg0 0x11 (zeros 8) none [], ?_, ?_, ?_, ?_, ?_, rfl, ?_⟩ <;> first | decide +kernel | rfl

/-- A state and operands that meet the hypotheses of clause 19 of PeerMessageRows. -/
theorem wit_PeerMessageRows_19 :
    ∃ (s w : State) (l : Nat) (m : Msg) (r : Remote), l < 16 ∧ m.op = 0x12 ∧ firstOf s l 1 = some m ∧ (linkOf s l).st = lkLive ∧ m.dest = ownIndex s ∧ w = countMsg (freeMsg s l m) 20 m ∧ remoteFor w m = some r ∧ r.msg.op = 3 := by
  refine ⟨withRemote (msg0 0x12 (zeros 8) none []) (remote0 3 0), _, 3, msg0 0x12 (zeros 8) none [], remote0 3 0, ?_, ?_, ?_, ?_, ?_, rfl, ?_, ?_⟩ <;> first | decide +kernel | rfl

/-- A state and operands that meet the hypotheses of clause 22 of PeerMessageRows. -/
theorem wit_PeerMessageRows_22 :
    ∃ (s : State) (tag : BitVec 16), s.duc.remotes.find? (fun r => r.tag == tag) = none := by
  refine ⟨memReady, 5, ?_⟩ <;> first | decide +kernel | rfl

/-- A state and operands that meet the hypotheses of clause 24 of PeerMessageRows. -/
theorem wit_PeerMessageRows_24 :
    ∃ (s v : State) (l : Nat) (m : Msg), l < 16 ∧ m.op = 0x20 ∧ firstOf s l 2 = some m ∧ v = freeMsg s l m ∧ routeTo s (fieldN (m.second.getD []) 4 2) ≠ some l := by
  refine ⟨{ withMsg memReady markerIn with duc.group := none }, _, 3, markerIn, ?_, ?_, ?_, rfl, ?_⟩ <;> first | decide +kernel | rfl

/-- A state and operands that meet the hypotheses of clause 25 of PeerMessageRows. -/
theorem wit_PeerMessageRows_25 :
    ∃ (s v u : State) (l : Nat) (m : Msg), l < 16 ∧ m.op = 0x21 ∧ firstOf s l 2 = some m ∧ (linkOf s l).st = lkLive ∧ v = freeMsg s l m ∧ m.source ≠ ownIndex s ∧ mfind s.duc.shareSeqs m.source = none ∧ u = { v with duc.shares := mput v.duc.shares m.source (fieldN m.fields 0 2), duc.shareSeqs := mput v.duc.shareSeqs m.source (BitVec.ofNat 16 (fieldN m.fields 2 2)) } := by
  refine ⟨withMsg memReady (msg0 0x21 (leBytes 2 100 ++ leBytes 2 1 ++ zeros 4) none []), _, _, 3, msg0 0x21 (leBytes 2 100 ++ leBytes 2 1 ++ zeros 4) none [], ?_, ?_, ?_, ?_, rfl, ?_, ?_, rfl⟩ <;> first | decide +kernel | rfl

/-- A state and operands that meet the hypotheses of clause 26 of PeerMessageRows. -/
theorem wit_PeerMessageRows_26 :
    ∃ (s v : State) (l : Nat) (m : Msg) (p : BitVec 16), l < 16 ∧ m.op = 0x21 ∧ firstOf s l 2 = some m ∧ (linkOf s l).st = lkLive ∧ v = freeMsg s l m ∧ mfind s.duc.shareSeqs m.source = some p ∧ newer (BitVec.ofNat 16 (fieldN m.fields 2 2)) p = false := by
  refine ⟨withMsg { memReady with duc.shareSeqs := [(1, 1)] } (msg0 0x21 (leBytes 2 100 ++ leBytes 2 1 ++ zeros 4) none []), _, 3, msg0 0x21 (leBytes 2 100 ++ leBytes 2 1 ++ zeros 4) none [], 1, ?_, ?_, ?_, ?_, rfl, ?_, ?_⟩ <;> first | decide +kernel | rfl

/-- A state and operands that meet the hypotheses of clause 27 of PeerMessageRows. -/
theorem wit_PeerMessageRows_27 :
    ∃ (s v : State) (l : Nat) (m : Msg), l < 16 ∧ m.op = 0x22 ∧ firstOf s l 2 = some m ∧ advertCounts s l m.source = true ∧ v = freeMsg s l m ∧ m.source ≠ ownIndex s ∧ mfind s.duc.adverts m.source = none := by
  refine ⟨withMsg memReady { msg0 0x22 (leBytes 2 1 ++ leBytes 2 1 ++ zeros 4) none [] with source := 1 }, _, 3, { msg0 0x22 (leBytes 2 1 ++ leBytes 2 1 ++ zeros 4) none [] with source := 1 }, ?_, ?_, ?_, ?_, rfl, ?_, ?_⟩ <;> first | decide +kernel | rfl

/-- A state and operands that meet the hypotheses of clause 28 of PeerMessageRows. -/
theorem wit_PeerMessageRows_28 :
    ∃ (s v : State) (l : Nat) (m : Msg), l < 16 ∧ m.op = 0x23 ∧ firstOf s l 2 = some m ∧ (linkOf s l).st = lkLive ∧ v = freeMsg s l m ∧ s.duc.readySeen.any (fun e => e.1 == fieldN m.fields 0 4 && e.2.1 == m.source) = false ∧ s.duc.colls = [] := by
  refine ⟨withMsg memReady readyMsg, _, 3, readyMsg, ?_, ?_, ?_, ?_, rfl, ?_, ?_⟩ <;> first | decide +kernel | rfl

/-- A state and operands that meet the hypotheses of clause 29 of PeerMessageRows. -/
theorem wit_PeerMessageRows_29 :
    ∃ (s v u : State) (l : Nat) (m : Msg) (x : Coll), l < 16 ∧ m.op = 0x23 ∧ firstOf s l 2 = some m ∧ (linkOf s l).st = lkLive ∧ v = freeMsg s l m ∧ s.duc.readySeen.any (fun e => e.1 == fieldN m.fields 0 4 && e.2.1 == m.source) = false ∧ u = passOn { v with duc.readySeen := v.duc.readySeen ++ [(fieldN m.fields 0 4, m.source, BitVec.ofNat 32 (fieldN m.fields 4 4))] } l m ∧ collOf u (fieldN m.fields 0 4) = some x ∧ BitVec.ofNat 32 (fieldN m.fields 4 4) ≠ x.signature := by
  refine ⟨withColl (withMsg memReady readyMsg) coll0, _, _, 3, readyMsg, coll0, ?_, ?_, ?_, ?_, rfl, ?_, rfl, ?_, ?_⟩ <;> first | decide +kernel | rfl

/-- A state and operands that meet the hypotheses of clause 31 of PeerMessageRows. -/
theorem wit_PeerMessageRows_31 :
    ∃ (s v : State) (l : Nat) (m : Msg), l < 16 ∧ m.op = 0x24 ∧ firstOf s l 2 = some m ∧ (linkOf s l).st = lkLive ∧ v = freeMsg s l m ∧ s.duc.aborted.any (fun e => e.1 == fieldN m.fields 0 4) = false ∧ collOf s (fieldN m.fields 0 4) = none := by
  refine ⟨withMsg memReady abortMsg, _, 3, abortMsg, ?_, ?_, ?_, ?_, rfl, ?_, ?_⟩ <;> first | decide +kernel | rfl

/-- A state and operands that meet the hypotheses of clause 32 of PeerMessageRows. -/
theorem wit_PeerMessageRows_32 :
    ∃ (s v : State) (l : Nat) (m : Msg) (x : Coll), l < 16 ∧ m.op = 0x24 ∧ firstOf s l 2 = some m ∧ (linkOf s l).st = lkLive ∧ v = freeMsg s l m ∧ s.duc.aborted.any (fun e => e.1 == fieldN m.fields 0 4) = false ∧ collOf s (fieldN m.fields 0 4) = some x := by
  refine ⟨withColl (withMsg memReady abortMsg) coll0, _, 3, abortMsg, coll0, ?_, ?_, ?_, ?_, rfl, ?_, ?_⟩ <;> first | decide +kernel | rfl

/-- A state and operands that meet the hypotheses of clause 33 of PeerMessageRows. -/
theorem wit_PeerMessageRows_33 :
    ∃ (s v : State) (l : Nat) (m : Msg), l < 16 ∧ m.op = 0x25 ∧ firstOf s l 2 = some m ∧ v = freeMsg s l m := by
  refine ⟨withMsg memReady (msg0 0x25 (zeros 8) none [zeros 64]), _, 3, msg0 0x25 (zeros 8) none [zeros 64], ?_, ?_, ?_, rfl⟩ <;> first | decide +kernel | rfl

/-- A state and operands that meet the hypotheses of clause 3 of PeerMessageRows. -/
theorem wit_PeerMessageRows_3 :
    ∃ (s w u : State) (l : Nat) (m : Msg) (g : List (List Byte × Bool)), l < 16 ∧ m.op = 1 ∧ firstOf s l 0 = some m ∧ (linkOf s l).st = lkLive ∧ m.dest = ownIndex s ∧ s.ink.state ≠ stCapped ∧ peerHeld s m (retrainingAt s false (msgDpa m) (readLen m)) = false ∧ w = countMsg (freeMsg s l m) 20 m ∧ msgDpa m % 64 = 0 ∧ readGranules w (peerRq m) (msgDpa m) (readLen m) 1 = (St.ok, g, u) := by
  refine ⟨withMsg memReady (readMsg 0x40), _, _, 3, readMsg 0x40, _, ?_, ?_, ?_, ?_, ?_, ?_, ?_, rfl, ?_, fst_triple (by decide +kernel)⟩ <;> first | decide +kernel | (intro p n h; cases h) | rfl | exact .inl (by decide +kernel) | exact .inr (by decide +kernel) | (intro h; exact absurd h (by decide +kernel))

/-- A state and operands that meet the hypotheses of clause 4 of PeerMessageRows. -/
theorem wit_PeerMessageRows_4 :
    ∃ (s w u : State) (l st : Nat) (m : Msg) (g : List (List Byte × Bool)), l < 16 ∧ m.op = 1 ∧ firstOf s l 0 = some m ∧ (linkOf s l).st = lkLive ∧ m.dest = ownIndex s ∧ s.ink.state ≠ stCapped ∧ peerHeld s m (retrainingAt s false (msgDpa m) (readLen m)) = false ∧ w = countMsg (freeMsg s l m) 20 m ∧ msgDpa m % 64 = 0 ∧ readGranules w (peerRq m) (msgDpa m) (readLen m) 1 = (st, g, u) ∧ st ≠ St.ok := by
  refine ⟨withMsg memReady (readMsg (2 ^ 45)), _, _, 3, _, readMsg (2 ^ 45), _, ?_, ?_, ?_, ?_, ?_, ?_, ?_, rfl, ?_, eta_triple _, ?_⟩ <;> first | decide +kernel | (intro p n h; cases h) | rfl | exact .inl (by decide +kernel) | exact .inr (by decide +kernel) | (intro h; exact absurd h (by decide +kernel))

/-- A state and operands that meet the hypotheses of clause 8 of PeerMessageRows. -/
theorem wit_PeerMessageRows_8 :
    ∃ (s : State) (l : Nat) (m : Msg), peerHeld s m (retrainingAt s false (msgDpa m) (readLen m)) = true := by
  refine ⟨setChan (withMsg memReady (readMsg 0x40)) .fast 0 { retraining := true }, 3, readMsg 0x40, ?_⟩ <;> first | decide +kernel | (intro p n h; cases h) | rfl | exact .inl (by decide +kernel) | exact .inr (by decide +kernel) | (intro h; exact absurd h (by decide +kernel))

/-- A state and operands that meet the hypotheses of clause 9 of PeerMessageRows. -/
theorem wit_PeerMessageRows_9 :
    ∃ (s w u : State) (l st : Nat) (m : Msg), l < 16 ∧ m.op = 2 ∧ firstOf s l 0 = some m ∧ (linkOf s l).st = lkLive ∧ m.dest = ownIndex s ∧ s.ink.state ≠ stCapped ∧ peerHeld s m (retrainingAt s true (msgDpa m) (64 * m.data.length)) = false ∧ w = countMsg (freeMsg s l m) 20 m ∧ msgColl m = 0 ∧ msgDpa m % 64 = 0 ∧ writeGranules w (peerRq m) (msgDpa m) (msgGranules m) 1 = (st, u) := by
  refine ⟨withMsg memReady (writeMsg 0), _, _, 3, _, writeMsg 0, ?_, ?_, ?_, ?_, ?_, ?_, ?_, rfl, ?_, ?_, eta_pair _⟩ <;> first | decide +kernel | (intro p n h; cases h) | rfl | exact .inl (by decide +kernel) | exact .inr (by decide +kernel) | (intro h; exact absurd h (by decide +kernel))

/-- A state and operands that meet the hypotheses of clause 18 of PeerMessageRows. -/
theorem wit_PeerMessageRows_18 :
    ∃ (s w : State) (l : Nat) (m : Msg) (r : Remote), l < 16 ∧ m.op = 0x11 ∧ firstOf s l 1 = some m ∧ (linkOf s l).st = lkLive ∧ m.dest = ownIndex s ∧ w = countMsg (freeMsg s l m) 20 m ∧ remoteFor w m = some r ∧ r.left ≠ 0 ∧ fieldN m.fields 0 2 = St.ok := by
  refine ⟨withRemote (msg0 0x11 (zeros 8) none []) (remote0 1 1), _, 3, msg0 0x11 (zeros 8) none [], remote0 1 1, ?_, ?_, ?_, ?_, ?_, rfl, ?_, ?_, ?_⟩ <;> first | decide +kernel | (intro p n h; cases h) | rfl | exact .inl (by decide +kernel) | exact .inr (by decide +kernel) | (intro h; exact absurd h (by decide +kernel))

/-- A state and operands that meet the hypotheses of clause 20 of PeerMessageRows. -/
theorem wit_PeerMessageRows_20 :
    ∃ (s : State) (tag : BitVec 16) (r : Remote), s.duc.remotes.find? (fun r => r.tag == tag) = some r ∧ r.retry = false ∧ r.since + remoteUnits s ≤ s.time := by
  refine ⟨later (withRemote (msg0 0x11 (zeros 8) none []) (remote0 1 1)), 5, remote0 1 1, ?_, ?_, ?_⟩ <;> first | decide +kernel | (intro p n h; cases h) | rfl | exact .inl (by decide +kernel) | exact .inr (by decide +kernel) | (intro h; exact absurd h (by decide +kernel))

/-- A state and operands that meet the hypotheses of clause 21 of PeerMessageRows. -/
theorem wit_PeerMessageRows_21 :
    ∃ (s : State) (tag : BitVec 16) (r : Remote), s.duc.remotes.find? (fun r => r.tag == tag) = some r ∧ (r.retry = true ∨ s.time < r.since + remoteUnits s) := by
  refine ⟨withRemote (msg0 0x11 (zeros 8) none []) (remote0 1 1), 5, remote0 1 1, ?_, ?_⟩ <;> first | decide +kernel | (intro p n h; cases h) | rfl | exact .inl (by decide +kernel) | exact .inr (by decide +kernel) | (intro h; exact absurd h (by decide +kernel))

/-- A state and operands that meet the hypotheses of clause 23 of PeerMessageRows. -/
theorem wit_PeerMessageRows_23 :
    ∃ (s v u : State) (l k corr : Nat) (m : Msg), l < 16 ∧ m.op = 0x20 ∧ firstOf s l 2 = some m ∧ ((linkOf s l).st = lkLive ∨ (linkOf s l).st = lkQuarantine) ∧ v = freeMsg s l m ∧ s.rul.follower = true ∧ k = fieldN (m.second.getD []) 4 2 ∧ (k = s.rul.master ∨ s.rul.pendMaster = some k) ∧ routeTo s k = some l ∧ corr = fieldN (m.second.getD []) 8 8 + (linkOf s l).latency ∧ u = (liveLinks v ++ quarantineLinks v).foldl (fun t n => if n = l then t else sendOn t n { markerMsg t corr (fieldN m.fields 0 6) (fieldN (m.second.getD []) 0 4) k with source := m.source, hops := m.hops }) v := by
  refine ⟨following, _, _, 3, _, _, markerIn, ?_, ?_, ?_, ?_, rfl, ?_, rfl, .inl rfl, ?_, rfl, rfl⟩ <;> first | decide +kernel | (intro p n h; cases h) | rfl | exact .inl (by decide +kernel) | exact .inr (by decide +kernel) | (intro h; exact absurd h (by decide +kernel))

/-- A state and operands that meet the hypotheses of clause 30 of PeerMessageRows. -/
theorem wit_PeerMessageRows_30 :
    ∃ (s v u : State) (l n : Nat) (m : Msg) (x : Coll), l < 16 ∧ m.op = 0x23 ∧ firstOf s l 2 = some m ∧ (linkOf s l).st = lkLive ∧ v = freeMsg s l m ∧ s.duc.readySeen.any (fun e => e.1 == fieldN m.fields 0 4 && e.2.1 == m.source) = false ∧ u = passOn { v with duc.readySeen := v.duc.readySeen ++ [(fieldN m.fields 0 4, m.source, BitVec.ofNat 32 (fieldN m.fields 4 4))] } l m ∧ n = fieldN m.fields 0 4 ∧ collOf u n = some x ∧ BitVec.ofNat 32 (fieldN m.fields 4 4) = x.signature ∧ x.begun = true := by
  refine ⟨withColl (withMsg memReady readyMsg) { coll0 with signature := 1, begun := true }, _, _, 3, _, readyMsg, { coll0 with signature := 1, begun := true }, ?_, ?_, ?_, ?_, rfl, ?_, rfl, rfl, ?_, ?_, ?_⟩ <;> first | decide +kernel | (intro p n h; cases h) | rfl | exact .inl (by decide +kernel) | exact .inr (by decide +kernel) | (intro h; exact absurd h (by decide +kernel))

def claimLoop (st : Nat) : State :=
  setLink { memReady with ink := { memReady.ink with claims := [{ res := linkRes 3, mode := 2, owner := 0 }] } } 3 { st := st }

def loopCmd : Cmd := adm ([3, 0] ++ leBytes 2 1 ++ zeros 4 ++ leBytes 8 0x7000)

def looping : State :=
  setLink { memReady with ink := { memReady.ink with running := [{ opcode := 0x0A04, cmd := loopCmd, wait := .loopback 3 }] } } 3 { st := 7 }

theorem leNat_zero (l : List Byte) (h : ∀ x ∈ l, x = 0) : leNat l = 0 := by
  induction l with
  | nil => rfl
  | cons x r ih =>
    have hx : x = 0 := h x (by simp)
    simp [leNat, hx, ih (fun y hy => h y (by simp [hy]))]

/-- A field past the end of what a list starts with. -/
theorem fieldN_past (h : List Byte) (n o k : Nat) (ho : h.length ≤ o) : fieldN (h ++ zeros n) o k = 0 := by
  apply leNat_zero
  intro x hx
  unfold slice zeros at hx
  rw [List.drop_append, List.drop_of_length_le ho] at hx
  simp only [List.nil_append, List.drop_replicate, List.take_replicate, List.length_replicate, List.mem_append, List.mem_replicate] at hx
  rcases hx with hx | hx <;> exact hx.2

def groupHead : List Byte := leBytes 4 9 ++ leBytes 2 0 ++ leBytes 2 1 ++ leBytes 4 100 ++ leBytes 2 4 ++ zeros 2

/-- A group of one member, device 0. -/
def groupBytes : List Byte := groupHead ++ zeros 4146

def groupCmd (n : Byte) : Cmd := { adm [] with flags := 1, len := 4162, ext := (groupHead.set 6 n) ++ zeros 4146, extAddr := 64 }

theorem groupBytes_ok : groupBad groupBytes = false := by
  have hr : ∀ i, fieldN groupBytes (64 + i) 1 = 0 := by
    intro i
    have h1 : groupHead.length = 16 := by decide +kernel
    exact fieldN_past _ _ _ _ (by omega)
  have hm : groupMembers groupBytes = [0] := by
    have h1 : fieldN groupBytes 6 2 = 1 := by decide +kernel
    have h2 : fieldN groupBytes 4160 2 = 0 := fieldN_past _ _ _ _ (by decide +kernel)
    simp [groupMembers, h1, h2]
  have h0 : fieldN groupBytes 0 4 = 9 := by decide +kernel
  have h4 : fieldN groupBytes 4 2 = 0 := by decide +kernel
  have h8 : fieldN groupBytes 8 4 = 100 := by decide +kernel
  have h12 : fieldN groupBytes 12 2 = 4 := by decide +kernel
  simp only [groupBad, hr, hm, h0, h4, h8, h12]
  simp [ascending]

theorem groupBytes_length : groupBytes.length = 4162 := by
  have h1 : groupHead.length = 16 := by decide +kernel
  unfold groupBytes zeros
  rw [List.length_append, List.length_replicate, h1]

theorem groupCmd_body : (body (groupCmd 1)).take (4160 + 2 * p16 (groupCmd 1) 6) = groupBytes := by
  have h1 : p16 (groupCmd 1) 6 = 1 := by decide +kernel
  have h2 : isExt (groupCmd 1) = true := by decide +kernel
  have h3 : groupHead.set 6 1 = groupHead := by decide +kernel
  have h4 : (groupCmd 1).ext = groupBytes := by
    show groupHead.set 6 1 ++ _ = _
    rw [h3]
    rfl
  have h5 : (groupCmd 1).len = 4162 := rfl
  unfold body
  rw [h2, if_pos rfl, h4, h5, h1, List.take_of_length_le (Nat.le_of_eq groupBytes_length), List.take_of_length_le (Nat.le_of_eq groupBytes_length)]

def badGroupCmd : Cmd := { groupCmd 1 with ext := (groupHead.set 0 0) ++ zeros 4146 }

def inGroup (x : Link) : State := setLink { memReady with duc.group := some group0 } 3 x

def collBytes : List Byte :=
  leBytes 4 7 ++ [2, 0, 0, 0, 0, 0] ++ leBytes 2 2 ++ leBytes 4 0 ++ leBytes 8 0 ++ leBytes 8 0x1000 ++ leBytes 8 128 ++ leBytes 4 1 ++ leBytes 4 0 ++
    leBytes 4 0 ++ leBytes 2 0 ++ leBytes 2 0xFFFF ++ leBytes 4 0 ++ leBytes 2 0xFFFF ++ zeros 2 ++ leBytes 2 0 ++ leBytes 2 1

def collCmd : Cmd := { adm [] with flags := 1, len := 68, ext := collBytes, extAddr := 64 }

/-- A state and operands that meet the hypotheses of clause 1 of LinkCommandRows. -/
theorem wit_LinkCommandRows_1 :
    ∃ (c : Cmd) (s a : State), Begun { op := 0x0A01, need := 8 } c s a ∧ hostOk a (p64 c 0) 1024 = true := by
  refine ⟨adm (leBytes 8 0x7000), memReady, _, begun_of (by decide +kernel) (by decide +kernel) (by decide +kernel) (by decide +kernel) (by decide +kernel), ?_⟩ <;> first | decide +kernel | rfl

/-- A state and operands that meet the hypotheses of clause 3 of LinkCommandRows. -/
theorem wit_LinkCommandRows_3 :
    ∃ (c : Cmd) (s a : State), Begun { op := 0x0A02, need := 16 } c s a ∧ linkRecordBad (slice (body c) 0 16) = true := by
  refine ⟨adm (zeros 16), memReady, _, begun_of (by decide +kernel) (by decide +kernel) (by decide +kernel) (by decide +kernel) (by decide +kernel), ?_⟩ <;> first | decide +kernel | rfl

/-- A state and operands that meet the hypotheses of clause 6 of LinkCommandRows. -/
theorem wit_LinkCommandRows_6 :
    ∃ (c : Cmd) (s a : State), Begun { op := 0x0A03, need := 2 } c s a := by
  exact ⟨adm [8, 0], memReady, _, begun_of (by decide +kernel) (by decide +kernel) (by decide +kernel) (by decide +kernel) (by decide +kernel)⟩

/-- A state and operands that meet the hypotheses of clause 7 of LinkCommandRows. -/
theorem wit_LinkCommandRows_7 :
    ∃ (c : Cmd) (s a : State), Begun { op := 0x0A04, need := 16 } c s a ∧ p8 c 0 ≤ 15 ∧ p8 c 1 ≤ 1 ∧ p16 c 2 ≠ 0 ∧ holds a (linkRes (p8 c 0)) 2 c.fn = true ∧ (linkOf a (p8 c 0)).st = lkDisabled := by
  refine ⟨loopCmd, claimLoop 0, _, begun_of (by decide +kernel) (by decide +kernel) (by decide +kernel) (by decide +kernel) (by decide +kernel), ?_, ?_, ?_, ?_, ?_⟩ <;> first | decide +kernel | rfl

/-- A state and operands that meet the hypotheses of clause 8 of LinkCommandRows. -/
theorem wit_LinkCommandRows_8 :
    ∃ (c : Cmd) (s a : State), Begun { op := 0x0A04, need := 16 } c s a ∧ p8 c 0 ≤ 15 ∧ p8 c 1 ≤ 1 ∧ p16 c 2 ≠ 0 ∧ holds a (linkRes (p8 c 0)) 2 c.fn = false := by
  refine ⟨loopCmd, memReady, _, begun_of (by decide +kernel) (by decide +kernel) (by decide +kernel) (by decide +kernel) (by decide +kernel), ?_, ?_, ?_, ?_⟩ <;> first | decide +kernel | rfl

/-- A state and operands that meet the hypotheses of clause 9 of LinkCommandRows. -/
theorem wit_LinkCommandRows_9 :
    ∃ (c : Cmd) (s a : State), Begun { op := 0x0A04, need := 16 } c s a ∧ p8 c 0 ≤ 15 ∧ p8 c 1 ≤ 1 ∧ p16 c 2 ≠ 0 ∧ holds a (linkRes (p8 c 0)) 2 c.fn = true ∧ (linkOf a (p8 c 0)).st ≠ lkDisabled := by
  refine ⟨loopCmd, claimLoop 4, _, begun_of (by decide +kernel) (by decide +kernel) (by decide +kernel) (by decide +kernel) (by decide +kernel), ?_, ?_, ?_, ?_, ?_⟩ <;> first | decide +kernel | rfl

/-- A state and operands that meet the hypotheses of clause 10 of LinkCommandRows. -/
theorem wit_LinkCommandRows_10 :
    ∃ (s u : State) (l corrected uncorrectable received : Nat) (r : Running), l < 16 ∧ (linkOf s l).st = lkLoopback ∧ (linkMove s l lkDisabled 0).ink.running.find? (fun r => r.wait == .loopback l) = some r ∧ hostWrite? (linkMove s l lkDisabled 0) (p64 r.cmd 8) (loopbackRecord corrected uncorrectable received) = some u := by
  refine ⟨looping, hostPut (linkMove looping 3 lkDisabled 0) 0x7000 (loopbackRecord 1 0 1000), 3, 1, 0, 1000, { opcode := 0x0A04, cmd := loopCmd, wait := .loopback 3 }, ?_, ?_, ?_, ?_⟩ <;> first | decide +kernel | rfl

/-- A state and operands that meet the hypotheses of clause 12 of LinkCommandRows. -/
theorem wit_LinkCommandRows_12 :
    ∃ (s : State) (l corrected uncorrectable received : Nat), (linkOf s l).st ≠ lkLoopback := by
  refine ⟨memReady, 3, 0, 0, 0, ?_⟩ <;> first | decide +kernel | rfl

/-- A state and operands that meet the hypotheses of clause 13 of LinkCommandRows. -/
theorem wit_LinkCommandRows_13 :
    ∃ (c : Cmd) (s a : State), Begun { op := 0x0A0A, need := 16 } c s a ∧ p8 c 0 ≤ 15 ∧ hostOk a (p64 c 8) (((linkOf a (p8 c 0)).ctr.map (leBytes 8)).flatten).length = true := by
  refine ⟨adm ([3] ++ zeros 7 ++ leBytes 8 0x7000), lk liveLink, _, begun_of (by decide +kernel) (by decide +kernel) (by decide +kernel) (by decide +kernel) (by decide +kernel), ?_, ?_⟩ <;> first | decide +kernel | rfl

/-- A state and operands that meet the hypotheses of clause 14 of LinkCommandRows. -/
theorem wit_LinkCommandRows_14 :
    ∃ (c : Cmd) (s a : State) (b : List Byte), Begun { op := 0x0A05, need := 4162, ext := true, full := fun _ c => 4160 + 2 * p16 c 6 } c s a ∧ b = (body c).take (4160 + 2 * p16 c 6) ∧ groupBad b = false ∧ a.duc.colls = [] := by
  refine ⟨groupCmd 1, memReady, _, _, begun_of (by decide +kernel) (by decide +kernel) (by decide +kernel) (by decide +kernel) (by decide +kernel), rfl, (by rw [groupCmd_body]; exact groupBytes_ok), ?_⟩ <;> first | decide +kernel | (intro p n h; cases h) | rfl | exact .inl (by decide +kernel) | exact .inr (by decide +kernel) | (intro h; exact absurd h (by decide +kernel))

/-- A state and operands that meet the hypotheses of clause 15 of LinkCommandRows. -/
theorem wit_LinkCommandRows_15 :
    ∃ (c : Cmd) (s a : State), Begun { op := 0x0A05, need := 4162, ext := true, full := fun _ c => 4160 + 2 * p16 c 6 } c s a ∧ groupBad ((body c).take (4160 + 2 * p16 c 6)) = true := by
  refine ⟨badGroupCmd, memReady, _, begun_of (by decide +kernel) (by decide +kernel) (by decide +kernel) (by decide +kernel) (by decide +kernel), ?_⟩ <;> first | decide +kernel | (intro p n h; cases h) | rfl | exact .inl (by decide +kernel) | exact .inr (by decide +kernel) | (intro h; exact absurd h (by decide +kernel))

/-- A state and operands that meet the hypotheses of clause 17 of LinkCommandRows. -/
theorem wit_LinkCommandRows_17 :
    ∃ (c : Cmd) (s a : State) (g : Group), Begun { op := 0x0A06, need := 2 } c s a ∧ a.duc.group = some g ∧ (bitList 16 (p16 c 0)).any (fun l => (linkOf a l).st != lkQuarantine) = false ∧ bitList 16 (p16 c 0) ≠ [] := by
  refine ⟨adm [8, 0], inGroup { st := 5 }, _, group0, begun_of (by decide +kernel) (by decide +kernel) (by decide +kernel) (by decide +kernel) (by decide +kernel), ?_, ?_, ?_⟩ <;> first | decide +kernel | rfl

/-- A state and operands that meet the hypotheses of clause 18 of LinkCommandRows. -/
theorem wit_LinkCommandRows_18 :
    ∃ (c : Cmd) (s a : State), Begun { op := 0x0A06, need := 2 } c s a ∧ a.duc.group = none := by
  refine ⟨adm [8, 0], memReady, _, begun_of (by decide +kernel) (by decide +kernel) (by decide +kernel) (by decide +kernel) (by decide +kernel), ?_⟩ <;> first | decide +kernel | rfl

/-- A state and operands that meet the hypotheses of clause 21 of LinkCommandRows. -/
theorem wit_LinkCommandRows_21 :
    ∃ (c : Cmd) (s a : State), Begun { op := 0x0A07, need := 8 } c s a ∧ hostOk a (p64 c 0) 64 = true := by
  refine ⟨adm (leBytes 8 0x7000), inGroup liveLink, _, begun_of (by decide +kernel) (by decide +kernel) (by decide +kernel) (by decide +kernel) (by decide +kernel), ?_⟩ <;> first | decide +kernel | rfl

/-- A state and operands that meet the hypotheses of clause 22 of LinkCommandRows. -/
theorem wit_LinkCommandRows_22 :
    ∃ (c : Cmd) (s a : State) (x : Coll) (g : Group), Begun { op := 0x0A08, need := 64, ext := true, full := fun _ c => 64 + 2 * p16 c 10 } c s a ∧ x = parseColl (body c) ∧ a.duc.group = some g ∧ a.duc.aborted.find? (fun e => e.1 == x.id) = none ∧ collBad a x = false ∧ a.duc.colls.length < 16 ∧ earlyMismatch a x = false := by
  refine ⟨collCmd, inGroup liveLink, _, _, group0, begun_of (by decide +kernel) (by decide +kernel) (by decide +kernel) (by decide +kernel) (by decide +kernel), rfl, ?_, ?_, ?_, ?_, ?_⟩ <;> first | decide +kernel | rfl | exact .inl (by decide +kernel) | exact .inr (by decide +kernel) | (intro h; exact absurd h (by decide +kernel))

/-- A state and operands that meet the hypotheses of clause 23 of LinkCommandRows. -/
theorem wit_LinkCommandRows_23 :
    ∃ (c : Cmd) (s a : State), Begun { op := 0x0A08, need := 64, ext := true, full := fun _ c => 64 + 2 * p16 c 10 } c s a ∧ a.duc.group = none := by
  refine ⟨collCmd, memReady, _, begun_of (by decide +kernel) (by decide +kernel) (by decide +kernel) (by decide +kernel) (by decide +kernel), ?_⟩ <;> first | decide +kernel | rfl | exact .inl (by decide +kernel) | exact .inr (by decide +kernel) | (intro h; exact absurd h (by decide +kernel))

/-- A state and operands that meet the hypotheses of clause 26 of LinkCommandRows. -/
theorem wit_LinkCommandRows_26 :
    ∃ (c : Cmd) (s a : State) (x : Coll), Begun { op := 0x0A09, need := 4 } c s a ∧ collOf a (p32 c 0) = some x := by
  refine ⟨adm (leBytes 4 7), withColl memReady coll0, _, coll0, begun_of (by decide +kernel) (by decide +kernel) (by decide +kernel) (by decide +kernel) (by decide +kernel), ?_⟩ <;> first | decide +kernel | rfl

/-- A state and operands that meet the hypotheses of clause 27 of LinkCommandRows. -/
theorem wit_LinkCommandRows_27 :
    ∃ (c : Cmd) (s a : State), Begun { op := 0x0A09, need := 4 } c s a ∧ collOf a (p32 c 0) = none := by
  refine ⟨adm (leBytes 4 8), withColl memReady coll0, _, begun_of (by decide +kernel) (by decide +kernel) (by decide +kernel) (by decide +kernel) (by decide +kernel), ?_⟩ <;> first | decide +kernel | rfl

/-- A state and operands that meet the hypotheses of clause 28 of LinkCommandRows. -/
theorem wit_LinkCommandRows_28 :
    ∃ (s : State) (id : Nat) (x : Coll), collOf s id = some x ∧ x.begun = false ∧ x.startTally = 0xFFFF := by
  refine ⟨withColl memReady coll0, 7, coll0, ?_, ?_, ?_⟩ <;> first | decide +kernel | rfl

/-- A state and operands that meet the hypotheses of clause 29 of LinkCommandRows. -/
theorem wit_LinkCommandRows_29 :
    ∃ (s : State) (id : Nat) (x : Coll), collOf s id = some x ∧ x.begun = false ∧ x.startTally ≠ 0xFFFF ∧ waitHolds (tallyGet s x.startTally) x.startTarget false = true := by
  refine ⟨withColl memReady { coll0 with startTally := 5 }, 7, { coll0 with startTally := 5 }, ?_, ?_, ?_, ?_⟩ <;> first | decide +kernel | rfl

/-- A state and operands that meet the hypotheses of clause 30 of LinkCommandRows. -/
theorem wit_LinkCommandRows_30 :
    ∃ (s : State) (id : Nat) (x : Coll), collOf s id = some x ∧ x.begun = false ∧ x.startTally ≠ 0xFFFF ∧ waitHolds (tallyGet s x.startTally) x.startTarget false = false := by
  refine ⟨withColl memReady { coll0 with startTally := 5, startTarget := 1 }, 7, { coll0 with startTally := 5, startTarget := 1 }, ?_, ?_, ?_, ?_⟩ <;> first | decide +kernel | rfl

/-- A state and operands that meet the hypotheses of clause 31 of LinkCommandRows. -/
theorem wit_LinkCommandRows_31 :
    ∃ (s : State) (id : Nat) (x : Coll), collOf s id = some x ∧ x.begun = true ∧ x.progress.toNat + effTimeout s (declaredShare s) x ≤ (stamp s).toNat := by
  refine ⟨withColl (late 9 comp0) { coll0 with begun := true }, 7, { coll0 with begun := true }, ?_, ?_, ?_⟩ <;> first | decide +kernel | rfl

/-- A state and operands that meet the hypotheses of clause 32 of LinkCommandRows. -/
theorem wit_LinkCommandRows_32 :
    ∃ (s : State) (id : Nat) (x : Coll), collOf s id = some x ∧ x.begun = true ∧ (stamp s).toNat < x.progress.toNat + effTimeout s (declaredShare s) x := by
  refine ⟨withColl (late 3 comp0) { coll0 with begun := true }, 7, { coll0 with begun := true }, ?_, ?_, ?_⟩ <;> first | decide +kernel | rfl | exact .inl (by decide +kernel) | exact .inr (by decide +kernel) | (intro h; exact absurd h (by decide +kernel))

/-- A state and operands that meet the hypotheses of clause 2 of LinkCommandRows. -/
theorem wit_LinkCommandRows_2 :
    ∃ (c : Cmd) (s a : State), Begun { op := 0x0A02, need := 16 } c s a ∧ linkRecordBad (slice (body c) 0 16) = false ∧ ((parseLinkCfg (slice (body c) 0 16)).encReq = false ∨ encLicensed a = true) := by
  refine ⟨adm ([3] ++ zeros 7 ++ leBytes 2 100 ++ zeros 6), memReady, _, begun_of (by decide +kernel) (by decide +kernel) (by decide +kernel) (by decide +kernel) (by decide +kernel), ?_, .inl (by decide +kernel)⟩ <;> first | decide +kernel | (intro p n h; cases h) | rfl | exact .inl (by decide +kernel) | exact .inr (by decide +kernel) | (intro h; exact absurd h (by decide +kernel))

/-- A state and operands that meet the hypotheses of clause 4 of LinkCommandRows. -/
theorem wit_LinkCommandRows_4 :
    ∃ (c : Cmd) (s a : State), Begun { op := 0x0A02, need := 16 } c s a ∧ linkRecordBad (slice (body c) 0 16) = false ∧ (parseLinkCfg (slice (body c) 0 16)).encReq = true ∧ encLicensed a = false := by
  refine ⟨adm ([3, 16] ++ zeros 6 ++ leBytes 2 100 ++ zeros 6), memReady, _, begun_of (by decide +kernel) (by decide +kernel) (by decide +kernel) (by decide +kernel) (by decide +kernel), ?_, ?_, ?_⟩ <;> first | decide +kernel | (intro p n h; cases h) | rfl | exact .inl (by decide +kernel) | exact .inr (by decide +kernel) | (intro h; exact absurd h (by decide +kernel))

/-- A state and operands that meet the hypotheses of clause 5 of LinkCommandRows. -/
theorem wit_LinkCommandRows_5 :
    ∃ (s u : State) (l : Nat) (g : LinkCfg), u = storeSection (setLink s l { linkOf s l with cfg := g }) secLinks (linksBody (setLink s l { linkOf s l with cfg := g })) := by
  refine ⟨memReady, _, 3, {}, rfl⟩

/-- A state and operands that meet the hypotheses of clause 11 of LinkCommandRows. -/
theorem wit_LinkCommandRows_11 :
    ∃ (s : State) (l corrected uncorrectable received : Nat) (r : Running), l < 16 ∧ (linkOf s l).st = lkLoopback ∧ (linkMove s l lkDisabled 0).ink.running.find? (fun r => r.wait == .loopback l) = some r ∧ hostWrite? (linkMove s l lkDisabled 0) (p64 r.cmd 8) (loopbackRecord corrected uncorrectable received) = none := by
  refine ⟨{ looping with hostFaults := [(0x7000, 64)] }, 3, 1, 0, 1000, { opcode := 0x0A04, cmd := loopCmd, wait := .loopback 3 }, ?_, ?_, ?_, ?_⟩ <;> first | decide +kernel | (intro p n h; cases h) | rfl | exact .inl (by decide +kernel) | exact .inr (by decide +kernel) | (intro h; exact absurd h (by decide +kernel))

/-- A state and operands that meet the hypotheses of clause 19 of LinkCommandRows. -/
theorem wit_LinkCommandRows_19 :
    ∃ (c : Cmd) (s a : State) (g : Group), Begun { op := 0x0A06, need := 2 } c s a ∧ a.duc.group = some g ∧ (bitList 16 (p16 c 0)).any (fun l => (linkOf a l).st != lkQuarantine) = true := by
  refine ⟨adm [8, 0], inGroup liveLink, _, group0, begun_of (by decide +kernel) (by decide +kernel) (by decide +kernel) (by decide +kernel) (by decide +kernel), ?_, ?_⟩ <;> first | decide +kernel | (intro p n h; cases h) | rfl | exact .inl (by decide +kernel) | exact .inr (by decide +kernel) | (intro h; exact absurd h (by decide +kernel))

/-- A state and operands that meet the hypotheses of clause 20 of LinkCommandRows. -/
theorem wit_LinkCommandRows_20 :
    ∃ (c : Cmd) (s a : State) (g : Group), Begun { op := 0x0A06, need := 2 } c s a ∧ a.duc.group = some g ∧ bitList 16 (p16 c 0) = [] := by
  refine ⟨adm [0, 0], inGroup liveLink, _, group0, begun_of (by decide +kernel) (by decide +kernel) (by decide +kernel) (by decide +kernel) (by decide +kernel), ?_, ?_⟩ <;> first | decide +kernel | (intro p n h; cases h) | rfl | exact .inl (by decide +kernel) | exact .inr (by decide +kernel) | (intro h; exact absurd h (by decide +kernel))

/-- A state and operands that meet the hypotheses of clause 24 of LinkCommandRows. -/
theorem wit_LinkCommandRows_24 :
    ∃ (c : Cmd) (s a : State) (x : Coll) (g : Group), Begun { op := 0x0A08, need := 64, ext := true, full := fun _ c => 64 + 2 * p16 c 10 } c s a ∧ x = parseColl (body c) ∧ a.duc.group = some g ∧ a.duc.aborted.find? (fun e => e.1 == x.id) = none := by
  refine ⟨collCmd, inGroup liveLink, _, _, group0, begun_of (by decide +kernel) (by decide +kernel) (by decide +kernel) (by decide +kernel) (by decide +kernel), rfl, ?_, ?_⟩ <;> first | decide +kernel | (intro p n h; cases h) | rfl | exact .inl (by decide +kernel) | exact .inr (by decide +kernel) | (intro h; exact absurd h (by decide +kernel))

/-- A state and operands that meet the hypotheses of clause 25 of LinkCommandRows. -/
theorem wit_LinkCommandRows_25 :
    ∃ (c : Cmd) (s a : State) (x : Coll) (g : Group) (st : BitVec 16), Begun { op := 0x0A08, need := 64, ext := true, full := fun _ c => 64 + 2 * p16 c 10 } c s a ∧ x = parseColl (body c) ∧ a.duc.group = some g ∧ a.duc.aborted.find? (fun e => e.1 == x.id) = some (x.id, st) := by
  refine ⟨collCmd, (let s := inGroup liveLink; { s with duc := { s.duc with aborted := [(7, 5)] } }), _, _, group0, 5, begun_of (by decide +kernel) (by decide +kernel) (by decide +kernel) (by decide +kernel) (by decide +kernel), rfl, ?_, ?_⟩ <;> first | decide +kernel | (intro p n h; cases h) | rfl | exact .inl (by decide +kernel) | exact .inr (by decide +kernel) | (intro h; exact absurd h (by decide +kernel))

/-- A state and operands that meet the hypotheses of clause 16 of LinkCommandRows. -/
theorem wit_LinkCommandRows_16 :
    ∃ (c : Cmd) (s a : State), Begun { op := 0x0A05, need := 4162, ext := true, full := fun _ c => 4160 + 2 * p16 c 6 } c s a ∧ groupBad ((body c).take (4160 + 2 * p16 c 6)) = false ∧ a.duc.colls ≠ [] := by
  refine ⟨groupCmd 1, withColl memReady coll0, _, begun_of (by decide +kernel) (by decide +kernel) (by decide +kernel) (by decide +kernel) (by decide +kernel), (by rw [groupCmd_body]; exact groupBytes_ok), ?_⟩ <;> first | decide +kernel | (intro p n h; cases h) | rfl | exact .inl (by decide +kernel) | exact .inr (by decide +kernel) | (intro h; exact absurd h (by decide +kernel))

def stagesAt (st : BitVec 4) (n : Nat) : State := { State.reset with ink.state := st, pwr.stage := n }

def report0 (bridge : Bool) : StageReport := ⟨[], [], [], [], [], [], [], [], [], bridge, true, []⟩

/-- AON_RESET_N is low, after `n` failed starts. -/
def aonLow (n : Nat) : State := { State.reset with pwr.aonHigh := false, pwr.boot1 := { seq := 1, failed := n } }

def linked : State := { ready with pwr.perstHigh := true, pwr.hostLink := true }

/-- A fast path is allowed. -/
def fastStart : State := { stagesAt stBringup 3 with pwr.warmKind := true, pwr.prevServed := true }

/-- Two stacks of one channel are in use. -/
def lastStage (var : BitVec 4) : State :=
  { stagesAt stBringup 7 with
    ink.variant := var
    mem.sites := [(0, { kind := 1, gib := 16, gran := 67108864, chans := [0] }), (1, { kind := 1, gib := 16, gran := 67108864, chans := [32] })] }

/-- The CRC-32 register over zeros. -/
def zeroReg (acc n : Nat) : Nat := (List.replicate n (0 : Byte)).foldl (fun acc b => iter crc32Bit 8 (acc ^^^ b.toNat)) acc

theorem zeroReg_split (a b x y z : Nat) (h : zeroReg x a = y) (h2 : zeroReg y b = z) : zeroReg x (a + b) = z := by
  unfold zeroReg at *
  rw [← List.replicate_append_replicate, List.foldl_append, h, h2]

theorem crc32_zeros (n x : Nat) (h : zeroReg 0xFFFFFFFF n = x) : crc32 (List.replicate n 0) = BitVec.ofNat 32 (x ^^^ 0xFFFFFFFF) := by
  rw [← h]
  rfl

/-- The defect map of the factory bank. -/
def defect0 : Section := { id := 3, ver := 3, crc := 0xfbad4669#32, mandatory := true, kept := false, body := List.replicate 352 0 }

theorem zeros352 : zeroReg 0xFFFFFFFF 352 = 72530326 := by
  refine zeroReg_split 32 320 _ 3874859602 _ (by decide +kernel) ?_
  refine zeroReg_split 32 288 _ 2322767049 _ (by decide +kernel) ?_
  refine zeroReg_split 32 256 _ 1158388305 _ (by decide +kernel) ?_
  refine zeroReg_split 32 224 _ 1029113186 _ (by decide +kernel) ?_
  refine zeroReg_split 32 192 _ 1442360476 _ (by decide +kernel) ?_
  refine zeroReg_split 32 160 _ 1946220301 _ (by decide +kernel) ?_
  refine zeroReg_split 32 128 _ 3269371036 _ (by decide +kernel) ?_
  refine zeroReg_split 32 96 _ 4066998951 _ (by decide +kernel) ?_
  refine zeroReg_split 32 64 _ 336434605 _ (by decide +kernel) ?_
  refine zeroReg_split 32 32 _ 1379444914 _ (by decide +kernel) ?_
  decide +kernel

theorem defect0_crc : (crc32 defect0.body == defect0.crc) = true := by
  show (crc32 (List.replicate 352 0) == 0xfbad4669#32) = true
  rw [crc32_zeros 352 _ zeros352]
  decide +kernel

theorem defect0_readable : secReadable defect0 = true := by
  have h : ([2, 3].contains defect0.ver && bodyFits defect0.id defect0.body && (defect0.id != secIdentity || fieldN defect0.body 0 8 == Config.uniqueId)) =
      true := by decide +kernel
  unfold secReadable
  show (crc32 defect0.body == defect0.crc && [2, 3].contains defect0.ver && bodyFits defect0.id defect0.body &&
    (defect0.id != secIdentity || fieldN defect0.body 0 8 == Config.uniqueId)) = true
  rw [defect0_crc, Bool.true_and]
  exact h

def loadingNow : State := addDuration (stagesAt stLoading 1)

theorem loading_defect : (readSection loadingNow 3).isNone = false := by
  unfold readSection
  rw [show findSection (storeSections loadingNow) 3 = some defect0 by decide +kernel]
  dsimp only
  rw [if_pos defect0_readable]
  rfl

theorem mandatory_of (s : State) (h1 : (readSection s 1).isNone = false) (h2 : (readSection s 2).isNone = false)
    (h3 : (readSection s 3).isNone = false) : missingMandatory s = none := by
  unfold missingMandatory secIdentity secLicences secDefect
  simp only [List.find?_cons, h1, h2, h3, List.find?_nil]

theorem loading_none : missingMandatory loadingNow = none :=
  mandatory_of loadingNow (by decide +kernel) (by decide +kernel) loading_defect

/-- A state and operands that meet the hypotheses of clause 1 of StartRows. -/
theorem wit_StartRows_1 :
    ∃ s : State, s.pwr.aonHigh = true := by
  refine ⟨ready, ?_⟩ <;> first | decide +kernel | rfl

/-- A state and operands that meet the hypotheses of clause 2 of StartRows. -/
theorem wit_StartRows_2 :
    ∃ s : State, s.pwr.aonHigh = false := by
  refine ⟨aonLow 0, ?_⟩ <;> first | decide +kernel | rfl

/-- A state and operands that meet the hypotheses of clause 3 of StartRows. -/
theorem wit_StartRows_3 :
    ∃ (s : State) (straps : BitVec 4), s.pwr.aonHigh = false ∧ straps.getLsbD 3 = false ∧ (bootNow s).failed < 3 := by
  refine ⟨aonLow 0, 0, ?_, ?_, ?_⟩ <;> first | decide +kernel | rfl

/-- A state and operands that meet the hypotheses of clause 4 of StartRows. -/
theorem wit_StartRows_4 :
    ∃ (s : State) (straps : BitVec 4), s.pwr.aonHigh = false ∧ straps.getLsbD 3 = false ∧ 3 ≤ (bootNow s).failed := by
  refine ⟨aonLow 3, 0, ?_, ?_, ?_⟩ <;> first | decide +kernel | rfl

/-- A state and operands that meet the hypotheses of clause 5 of StartRows. -/
theorem wit_StartRows_5 :
    ∃ (s : State) (straps : BitVec 4), s.pwr.aonHigh = false ∧ straps.getLsbD 3 = true := by
  refine ⟨aonLow 0, 8, ?_, ?_⟩ <;> first | decide +kernel | rfl

/-- A state and operands that meet the hypotheses of clause 6 of StartRows. -/
theorem wit_StartRows_6 :
    ∃ (s : State) (straps : BitVec 4), s.pwr.aonHigh = true := by
  refine ⟨ready, 0, ?_⟩ <;> first | decide +kernel | rfl

/-- A state and operands that meet the hypotheses of clause 7 of StartRows. -/
theorem wit_StartRows_7 :
    ∃ s : State, s.pwr.perstHigh = true ∧ held s = false ∧ s.pwr.straps.getLsbD 3 = false ∧ (bootNow s).failed < 3 := by
  refine ⟨linked, ?_, ?_, ?_, ?_⟩ <;> first | decide +kernel | rfl

/-- A state and operands that meet the hypotheses of clause 8 of StartRows. -/
theorem wit_StartRows_8 :
    ∃ s : State, s.pwr.perstHigh = true ∧ held s = true := by
  refine ⟨{ linked with pwr.tripN := true }, ?_, ?_⟩ <;> first | decide +kernel | rfl

/-- A state and operands that meet the hypotheses of clause 9 of StartRows. -/
theorem wit_StartRows_9 :
    ∃ s : State, s.pwr.perstHigh = false := by
  refine ⟨ready, ?_⟩ <;> first | decide +kernel | rfl

/-- A state and operands that meet the hypotheses of clause 10 of StartRows. -/
theorem wit_StartRows_10 :
    ∃ s : State, held s = false := by
  refine ⟨ready, ?_⟩ <;> first | decide +kernel | rfl

/-- A state and operands that meet the hypotheses of clause 11 of StartRows. -/
theorem wit_StartRows_11 :
    ∃ s : State, held s = true := by
  refine ⟨{ linked with pwr.tripN := true }, ?_⟩ <;> first | decide +kernel | rfl

/-- A state and operands that meet the hypotheses of clause 12 of StartRows. -/
theorem wit_StartRows_12 :
    ∃ s : State, held s = false ∧ s.pwr.hostLink = true := by
  refine ⟨linked, ?_, ?_⟩ <;> first | decide +kernel | rfl

/-- A state and operands that meet the hypotheses of clause 15 of StartRows. -/
theorem wit_StartRows_15 :
    ∃ (s : State) (x y : Bool), s.ink.state = stRom ∧ s.pwr.stage = 1 ∧ imageVerifies s s.pwr.runSlot (if s.pwr.runSlot = 0 then x else y) = true := by
  refine ⟨State.reset, true, true, ?_, ?_, ?_⟩ <;> first | decide +kernel | rfl

/-- A state and operands that meet the hypotheses of clause 17 of StartRows. -/
theorem wit_StartRows_17 :
    ∃ s : State, s.ink.state = stRom ∧ s.pwr.stage = 1 := by
  refine ⟨State.reset, ?_, ?_⟩ <;> first | decide +kernel | rfl

/-- A state and operands that meet the hypotheses of clause 19 of StartRows. -/
theorem wit_StartRows_19 :
    ∃ (s : State) (r : StageReport), s.ink.state = stLoading ∧ missingMandatory (addDuration s) = none := by
  refine ⟨stagesAt stLoading 1, report0 true, ?_, ?_⟩
  · decide +kernel
  · exact loading_none

/-- A state and operands that meet the hypotheses of clause 20 of StartRows. -/
theorem wit_StartRows_20 :
    ∃ (s : State) (r : StageReport) (id : Nat), s.ink.state = stLoading ∧ missingMandatory (addDuration s) = some id := by
  refine ⟨{ stagesAt stLoading 1 with pwr.bank0 := { Bank.factory with sections := [] } }, report0 true, 1, ?_, ?_⟩ <;> first | decide +kernel | rfl

/-- A state and operands that meet the hypotheses of clause 21 of StartRows. -/
theorem wit_StartRows_21 :
    ∃ (s : State) (r : StageReport), s.ink.state = stBringup ∧ s.pwr.stage = 2 ∧ r.bridge = true := by
  refine ⟨stagesAt stBringup 2, report0 true, ?_, ?_, ?_⟩ <;> first | decide +kernel | rfl

/-- A state and operands that meet the hypotheses of clause 22 of StartRows. -/
theorem wit_StartRows_22 :
    ∃ (s : State) (r : StageReport), s.ink.state = stBringup ∧ s.pwr.stage = 2 ∧ r.bridge = false := by
  refine ⟨stagesAt stBringup 2, report0 false, ?_, ?_, ?_⟩ <;> first | decide +kernel | rfl

/-- A state and operands that meet the hypotheses of clause 23 of StartRows. -/
theorem wit_StartRows_23 :
    ∃ (s : State) (r : StageReport) (fast : Bool), s.ink.state = stBringup ∧ s.pwr.stage = 3 ∧ fast = (s.pwr.warmKind && s.pwr.fastPathOn && s.pwr.prevServed && !s.pwr.touched && signaturesEqual s r) := by
  refine ⟨fastStart, report0 true, _, ?_, ?_, rfl⟩ <;> first | decide +kernel | rfl | exact .inl (by decide +kernel) | exact .inr (by decide +kernel) | (intro h; exact absurd h (by decide +kernel))

/-- A state and operands that meet the hypotheses of clause 24 of StartRows. -/
theorem wit_StartRows_24 :
    ∃ (s : State) (r : StageReport), s.ink.state = stBringup ∧ s.pwr.stage = 4 := by
  refine ⟨stagesAt stBringup 4, report0 true, ?_, ?_⟩ <;> first | decide +kernel | rfl

/-- A state and operands that meet the hypotheses of clause 25 of StartRows. -/
theorem wit_StartRows_25 :
    ∃ (s : State) (r : StageReport), s.ink.state = stBringup ∧ s.pwr.stage = 5 := by
  refine ⟨stagesAt stBringup 5, report0 true, ?_, ?_⟩ <;> first | decide +kernel | rfl

/-- A state and operands that meet the hypotheses of clause 26 of StartRows. -/
theorem wit_StartRows_26 :
    ∃ (s : State) (r : StageReport), s.ink.state = stBringup ∧ s.pwr.stage = 6 := by
  refine ⟨stagesAt stBringup 6, report0 true, ?_, ?_⟩ <;> first | decide +kernel | rfl

/-- A state and operands that meet the hypotheses of clause 27 of StartRows. -/
theorem wit_StartRows_27 :
    ∃ (s v : State) (r : StageReport), s.ink.state = stBringup ∧ s.pwr.stage = 7 ∧ v = buildCores (addDuration s) r ∧ serviceable v r = false := by
  refine ⟨stagesAt stBringup 7, _, report0 true, ?_, ?_, rfl, ?_⟩ <;> first | decide +kernel | rfl

/-- A state and operands that meet the hypotheses of clause 29 of StartRows. -/
theorem wit_StartRows_29 :
    ∃ (s v : State) (r : StageReport), s.ink.state = stBringup ∧ s.pwr.stage = 7 ∧ v = buildCores (addDuration s) r ∧ serviceable v r = true ∧ v.ink.variant.toNat = 0 := by
  refine ⟨lastStage 0, _, report0 true, ?_, ?_, rfl, ?_, ?_⟩ <;> first | decide +kernel | (intro p n h; cases h) | rfl | exact .inl (by decide +kernel) | exact .inr (by decide +kernel) | (intro h; exact absurd h (by decide +kernel))

/-- A state and operands that meet the hypotheses of clause 30 of StartRows. -/
theorem wit_StartRows_30 :
    ∃ (s : State) (r : StageReport), s.ink.state ≠ stLoading ∧ s.ink.state ≠ stBringup := by
  refine ⟨ready, report0 true, ?_, ?_⟩ <;> first | decide +kernel | rfl

/-- A state and operands that meet the hypotheses of clause 34 of StartRows. -/
theorem wit_StartRows_34 :
    ∃ s : State, s.ink.state = stBringup := by
  refine ⟨stagesAt stBringup 2, ?_⟩ <;> first | decide +kernel | rfl

/-- A state and operands that meet the hypotheses of clause 35 of StartRows. -/
theorem wit_StartRows_35 :
    ∃ s : State, s.ink.state ≠ stBringup := by
  refine ⟨ready, ?_⟩ <;> first | decide +kernel | rfl | exact .inl (by decide +kernel) | exact .inr (by decide +kernel) | (intro h; exact absurd h (by decide +kernel))

/-- A state and operands that meet the hypotheses of clause 13 of StartRows. -/
theorem wit_StartRows_13 :
    ∃ s : State, (held s = true ∨ s.pwr.hostLink = false) := by
  refine ⟨ready, .inr (by decide +kernel)⟩

/-- A state and operands that meet the hypotheses of clause 16 of StartRows. -/
theorem wit_StartRows_16 :
    ∃ (s v : State) (x y : Bool) (o : Nat), s.ink.state = stRom ∧ s.pwr.stage = 1 ∧ o = 1 - s.pwr.runSlot ∧ imageVerifies s s.pwr.runSlot (if s.pwr.runSlot = 0 then x else y) = false ∧ v = bootUpdate { s with pwr.runSlot := o } (fun b => { b with next := o }) ∧ imageVerifies v o (if o = 0 then x else y) = true := by
  refine ⟨State.reset, _, false, true, _, ?_, ?_, rfl, ?_, rfl, ?_⟩ <;> first | decide +kernel | (intro p n h; cases h) | rfl | exact .inl (by decide +kernel) | exact .inr (by decide +kernel) | (intro h; exact absurd h (by decide +kernel))

/-- A state and operands that meet the hypotheses of clause 18 of StartRows. -/
theorem wit_StartRows_18 :
    ∃ (s : State) (x y : Bool), (s.ink.state ≠ stRom ∨ s.pwr.stage ≠ 1) := by
  refine ⟨ready, true, true, .inl (by decide +kernel)⟩

/-- A state and operands that meet the hypotheses of clause 28 of StartRows. -/
theorem wit_StartRows_28 :
    ∃ (s v : State) (r : StageReport), s.ink.state = stBringup ∧ s.pwr.stage = 7 ∧ v = buildCores (addDuration s) r ∧ serviceable v r = true ∧ v.ink.variant.toNat ≠ 0 ∧ (bootNow s).seq + 1 < 2 ^ 32 := by
  refine ⟨lastStage 1, _, report0 true, ?_, ?_, rfl, ?_, ?_, ?_⟩ <;> first | decide +kernel | (intro p n h; cases h) | rfl | exact .inl (by decide +kernel) | exact .inr (by decide +kernel) | (intro h; exact absurd h (by decide +kernel))

/-- A state and operands that meet the hypotheses of clause 31 of StartRows. -/
theorem wit_StartRows_31 :
    ∃ s : State, s.pwr.stage ≠ 0 ∧ s.pwr.stage ≠ 6 ∧ stageLimit s ≤ msSince s s.pwr.stageAt := by
  refine ⟨later (stagesAt stBringup 2), ?_, ?_, ?_⟩ <;> first | decide +kernel | (intro p n h; cases h) | rfl | exact .inl (by decide +kernel) | exact .inr (by decide +kernel) | (intro h; exact absurd h (by decide +kernel))

/-- A state and operands that meet the hypotheses of clause 32 of StartRows. -/
theorem wit_StartRows_32 :
    ∃ s : State, s.pwr.stage = 6 ∧ stageLimit s ≤ msSince s s.pwr.stageAt := by
  refine ⟨later (stagesAt stBringup 6), ?_, ?_⟩ <;> first | decide +kernel | (intro p n h; cases h) | rfl | exact .inl (by decide +kernel) | exact .inr (by decide +kernel) | (intro h; exact absurd h (by decide +kernel))

/-- A state and operands that meet the hypotheses of clause 33 of StartRows. -/
theorem wit_StartRows_33 :
    ∃ s : State, (s.pwr.stage = 0 ∨ msSince s s.pwr.stageAt < stageLimit s) := by
  refine ⟨stagesAt stBringup 2, .inr (by decide +kernel)⟩

/-- A state and operands that meet the hypotheses of clause 36 of StartRows. -/
theorem wit_StartRows_36 :
    ∃ (s : State) (status unit : Nat), s.pwr.straps.getLsbD 3 = false ∧ (bootNow s).failed < 3 ∧ (bootNow s).seq + 1 < 2 ^ 32 := by
  refine ⟨stagesAt stBringup 2, 5, 0, ?_, ?_, ?_⟩ <;> first | decide +kernel | (intro p n h; cases h) | rfl | exact .inl (by decide +kernel) | exact .inr (by decide +kernel) | (intro h; exact absurd h (by decide +kernel))

/-- A state and operands that meet the hypotheses of clause 37 of StartRows. -/
theorem wit_StartRows_37 :
    ∃ (s : State) (d : Nat), switching s d = true ∧ 1 ≤ d ∧ d ≤ 15 := by
  refine ⟨stagesAt stBringup 2, 1, ?_, ?_, ?_⟩ <;> first | decide +kernel | (intro p n h; cases h) | rfl | exact .inl (by decide +kernel) | exact .inr (by decide +kernel) | (intro h; exact absurd h (by decide +kernel))

/-- A state and operands that meet the hypotheses of clause 38 of StartRows. -/
theorem wit_StartRows_38 :
    ∃ (s : State) (d : Nat), (switching s d = false ∨ d = 0 ∨ 15 < d) := by
  refine ⟨ready, 0, .inr (.inl rfl)⟩

def powered (l : List Nat) (c : Nat) : State := { ready with pwr.watts := l, pwr.calm := c, pwr.powerClock := 1300, pwr.clock := 1300 }

def hot (ms : Nat) : State := { ready with pwr.heatClock := 1300, pwr.clock := 1300, pwr.coolMs := ms }

def resetting0 : State :=
  { resetQuad0 memReady with pwr.resets := [0], ink.running := [{ opcode := 0x0B02, cmd := adm [3, 1], wait := .computeReset 1 }] }

def entering : State :=
  { ready with pwr.capEntering := true, ink.running := [{ opcode := 0x0B0E, cmd := adm [], wait := .capEnter }] }

def capped : State :=
  { ready with ink.state := stCapped, pwr.capBefore := stReady, pwr.capWaking := true }

/-- A state and operands that meet the hypotheses of clause 1 of PowerRows. -/
theorem wit_PowerRows_1 :
    ∃ s : State, (serving s = true ∨ s.ink.state = stDiagnostic) := by
  refine ⟨ready, ?_⟩
  exact .inl (by decide +kernel)

/-- A state and operands that meet the hypotheses of clause 2 of PowerRows. -/
theorem wit_PowerRows_2 :
    ∃ s : State, serving s = false ∧ s.ink.state ≠ stDiagnostic := by
  refine ⟨stagesAt stBringup 2, ?_, ?_⟩ <;> first | decide +kernel | rfl

/-- A state and operands that meet the hypotheses of clause 3 of PowerRows. -/
theorem wit_PowerRows_3 :
    ∃ (s : State) (w : Nat), held s = true := by
  refine ⟨{ ready with pwr.tripN := true }, 5, ?_⟩ <;> first | decide +kernel | rfl

/-- A state and operands that meet the hypotheses of clause 4 of PowerRows. -/
theorem wit_PowerRows_4 :
    ∃ (s : State) (w : Nat), held s = false ∧ s.pwr.watts.length < 9 := by
  refine ⟨ready, 900, ?_, ?_⟩ <;> first | decide +kernel | rfl

/-- A state and operands that meet the hypotheses of clause 5 of PowerRows. -/
theorem wit_PowerRows_5 :
    ∃ (s : State) (w l : Nat), held s = false ∧ 9 ≤ s.pwr.watts.length ∧ l = Config.powerLimit s.ink.variant.toNat ∧ l ≠ 0 ∧ 10 * l < (w :: s.pwr.watts.take 9).sum := by
  refine ⟨powered (List.replicate 9 1200) 0, 1200, _, ?_, ?_, rfl, ?_, ?_⟩ <;> first | decide +kernel | rfl | exact .inl (by decide +kernel) | exact .inr (by decide +kernel) | (intro h; exact absurd h (by decide +kernel))

/-- A state and operands that meet the hypotheses of clause 7 of PowerRows. -/
theorem wit_PowerRows_7 :
    ∃ (s : State) (w l : Nat), held s = false ∧ 9 ≤ s.pwr.watts.length ∧ l = Config.powerLimit s.ink.variant.toNat ∧ 100 * (w :: s.pwr.watts.take 9).sum < 950 * l ∧ s.pwr.calm < 9 := by
  refine ⟨powered (List.replicate 9 900) 5, 900, _, ?_, ?_, rfl, ?_, ?_⟩ <;> first | decide +kernel | (intro p n h; cases h) | rfl | exact .inl (by decide +kernel) | exact .inr (by decide +kernel) | (intro h; exact absurd h (by decide +kernel))

/-- A state and operands that meet the hypotheses of clause 8 of PowerRows. -/
theorem wit_PowerRows_8 :
    ∃ (s : State) (w l : Nat), held s = false ∧ 9 ≤ s.pwr.watts.length ∧ l = Config.powerLimit s.ink.variant.toNat ∧ l ≠ 0 ∧ 950 * l ≤ 100 * (w :: s.pwr.watts.take 9).sum ∧ (w :: s.pwr.watts.take 9).sum ≤ 10 * l := by
  refine ⟨powered (List.replicate 9 1100) 5, 1100, _, ?_, ?_, rfl, ?_, ?_, ?_⟩ <;> first | decide +kernel | rfl | exact .inl (by decide +kernel) | exact .inr (by decide +kernel) | (intro h; exact absurd h (by decide +kernel))

/-- A state and operands that meet the hypotheses of clause 13 of PowerRows. -/
theorem wit_PowerRows_13 :
    ∃ (s : State) (c : Nat), held s = false ∧ 125 ≤ c := by
  refine ⟨ready, 125, ?_, ?_⟩ <;> first | decide +kernel | rfl

/-- A state and operands that meet the hypotheses of clause 14 of PowerRows. -/
theorem wit_PowerRows_14 :
    ∃ (s : State) (c : Nat), held s = false ∧ 105 < c ∧ c < 125 := by
  refine ⟨hot 3, 106, ?_, ?_, ?_⟩ <;> first | decide +kernel | rfl

/-- A state and operands that meet the hypotheses of clause 15 of PowerRows. -/
theorem wit_PowerRows_15 :
    ∃ (s : State) (c : Nat), held s = false ∧ c ≤ 100 ∧ 9 ≤ s.pwr.coolMs := by
  refine ⟨hot 9, 100, ?_, ?_, ?_⟩ <;> first | decide +kernel | rfl | exact .inl (by decide +kernel) | exact .inr (by decide +kernel) | (intro h; exact absurd h (by decide +kernel))

/-- A state and operands that meet the hypotheses of clause 16 of PowerRows. -/
theorem wit_PowerRows_16 :
    ∃ (s : State) (c : Nat), held s = false ∧ c ≤ 100 ∧ s.pwr.coolMs < 9 := by
  refine ⟨hot 3, 100, ?_, ?_, ?_⟩ <;> first | decide +kernel | rfl

/-- A state and operands that meet the hypotheses of clause 17 of PowerRows. -/
theorem wit_PowerRows_17 :
    ∃ (s : State) (c : Nat), held s = false ∧ 100 < c ∧ c ≤ 105 := by
  refine ⟨hot 3, 105, ?_, ?_, ?_⟩ <;> first | decide +kernel | rfl

/-- A state and operands that meet the hypotheses of clause 18 of PowerRows. -/
theorem wit_PowerRows_18 :
    ∃ (c : Cmd) (s a u : State), Begun { op := 0x0B02, need := 2, vf := false } c s a ∧ p8 c 0 = 1 ∧ u = complete { a with pwr.resetWanted := 1 } c St.ok [] := by
  refine ⟨adm [1, 0], ready, _, _, begun_of (by decide +kernel) (by decide +kernel) (by decide +kernel) (by decide +kernel) (by decide +kernel), ?_, rfl⟩ <;> first | decide +kernel | rfl

/-- A state and operands that meet the hypotheses of clause 19 of PowerRows. -/
theorem wit_PowerRows_19 :
    ∃ (c : Cmd) (s a u : State), Begun { op := 0x0B02, need := 2, vf := false } c s a ∧ p8 c 0 = 2 ∧ u = complete { a with pwr.resetWanted := 2 } c St.ok [] := by
  refine ⟨adm [2, 0], ready, _, _, begun_of (by decide +kernel) (by decide +kernel) (by decide +kernel) (by decide +kernel) (by decide +kernel), ?_, rfl⟩ <;> first | decide +kernel | rfl

/-- A state and operands that meet the hypotheses of clause 20 of PowerRows. -/
theorem wit_PowerRows_20 :
    ∃ (c : Cmd) (s a : State), Begun { op := 0x0B02, need := 2, vf := false } c s a ∧ p8 c 0 ≠ 1 ∧ p8 c 0 ≠ 2 ∧ (p8 c 0 ≠ 3 ∨ p8 c 1 = 0 ∨ 15 < p8 c 1 ∨ (bitList 4 (p8 c 1)).any (fun p => !configured a p) = true) ∧ a.pwr.resetWanted = 0 := by
  refine ⟨adm [3, 0], ready, _, begun_of (by decide +kernel) (by decide +kernel) (by decide +kernel) (by decide +kernel) (by decide +kernel), ?_, ?_, .inr (.inl (by decide +kernel)), ?_⟩ <;> first | decide +kernel | (intro p n h; cases h) | rfl | exact .inl (by decide +kernel) | exact .inr (by decide +kernel) | (intro h; exact absurd h (by decide +kernel))

/-- A state and operands that meet the hypotheses of clause 21 of PowerRows. -/
theorem wit_PowerRows_21 :
    ∃ (c : Cmd) (s a : State), Begun { op := 0x0B02, need := 2, vf := false } c s a ∧ p8 c 0 = 3 ∧ p8 c 1 ≠ 0 ∧ p8 c 1 ≤ 15 ∧ (bitList 4 (p8 c 1)).any (fun p => !configured a p) = false ∧ (bitList 4 (p8 c 1)).any a.pwr.resets.contains = true ∧ a.pwr.resetWanted = 0 := by
  refine ⟨adm [3, 1], { ready with pwr.resets := [0] }, _, begun_of (by decide +kernel) (by decide +kernel) (by decide +kernel) (by decide +kernel) (by decide +kernel), ?_, ?_, ?_, ?_, ?_, ?_⟩ <;> first | decide +kernel | (intro p n h; cases h) | rfl | exact .inl (by decide +kernel) | exact .inr (by decide +kernel) | (intro h; exact absurd h (by decide +kernel))

/-- A state and operands that meet the hypotheses of clause 23 of PowerRows. -/
theorem wit_PowerRows_23 :
    ∃ (s : State) (p : Nat) (l : List Nat), s.pwr.resets.contains p = false := by
  refine ⟨ready, 0, [], ?_⟩ <;> first | decide +kernel | rfl

/-- A state and operands that meet the hypotheses of clause 24 of PowerRows. -/
theorem wit_PowerRows_24 :
    ∃ (s v : State) (p : Nat), s.pwr.resets.contains p = true ∧ v = freshQuads (failLost { s with cpu.resetting := s.cpu.resetting.filter (fun e => !(partQuads s p).contains e.1), pwr.resets := s.pwr.resets.filter (· != p), pwr.domains := s.pwr.domains ||| (quadBits (partQuads s p) &&& ~~~ s.pwr.dead) }) (partQuads s p) := by
  refine ⟨resetting0, _, 0, ?_, rfl⟩ <;> first | decide +kernel | rfl | exact .inl (by decide +kernel) | exact .inr (by decide +kernel) | (intro h; exact absurd h (by decide +kernel))

/-- A state and operands that meet the hypotheses of clause 27 of PowerRows. -/
theorem wit_PowerRows_27 :
    ∃ (c : Cmd) (s a : State), Begun { op := 0x0B0E, vf := false } c s a ∧ serving a = true ∧ a.pwr.capEntering = false ∧ capBusy a = false := by
  refine ⟨adm [], ready, _, begun_of (by decide +kernel) (by decide +kernel) (by decide +kernel) (by decide +kernel) (by decide +kernel), ?_, ?_, ?_⟩ <;> first | decide +kernel | rfl

/-- A state and operands that meet the hypotheses of clause 28 of PowerRows. -/
theorem wit_PowerRows_28 :
    ∃ (c : Cmd) (s a : State), Begun { op := 0x0B0E, vf := false } c s a ∧ serving a = true ∧ a.pwr.capEntering = false ∧ capBusy a = true := by
  refine ⟨adm [], { ready with svc.test := some { sites := 0, ports := 0, sampled := false, buffer := 0 } }, _, begun_of (by decide +kernel) (by decide +kernel) (by decide +kernel) (by decide +kernel) (by decide +kernel), ?_, ?_, ?_⟩ <;> first | decide +kernel | rfl

/-- A state and operands that meet the hypotheses of clause 29 of PowerRows. -/
theorem wit_PowerRows_29 :
    ∃ (c : Cmd) (s a : State), Begun { op := 0x0B0F, vf := false } c s a ∧ a.ink.state = stCapped := by
  refine ⟨adm [], { ready with ink.state := stCapped }, _, begun_of (by decide +kernel) (by decide +kernel) (by decide +kernel) (by decide +kernel) (by decide +kernel), ?_⟩ <;> first | decide +kernel | rfl

/-- A state and operands that meet the hypotheses of clause 31 of PowerRows. -/
theorem wit_PowerRows_31 :
    ∃ (c : Cmd) (s a : State), Begun { op := 0x0B0F, vf := false } c s a ∧ a.ink.state ≠ stCapped ∧ a.pwr.capEntering = false := by
  refine ⟨adm [], ready, _, begun_of (by decide +kernel) (by decide +kernel) (by decide +kernel) (by decide +kernel) (by decide +kernel), ?_, ?_⟩ <;> first | decide +kernel | rfl

/-- A state and operands that meet the hypotheses of clause 32 of PowerRows. -/
theorem wit_PowerRows_32 :
    ∃ s : State, s.pwr.capEntering = true ∧ s.ink.fetched.any (fun e => e.cmd.ring != 0) = false ∧ s.ink.running.any (fun r => r.cmd.ring != 0) = false := by
  refine ⟨entering, ?_, ?_, ?_⟩ <;> first | decide +kernel | rfl | exact .inl (by decide +kernel) | exact .inr (by decide +kernel) | (intro h; exact absurd h (by decide +kernel))

/-- A state and operands that meet the hypotheses of clause 34 of PowerRows. -/
theorem wit_PowerRows_34 :
    ∃ s : State, s.ink.state = stCapped := by
  refine ⟨capped, ?_⟩ <;> first | decide +kernel | rfl

/-- A state and operands that meet the hypotheses of clause 35 of PowerRows. -/
theorem wit_PowerRows_35 :
    ∃ s : State, s.ink.state ≠ stCapped ∧ s.pwr.capEntering = true := by
  refine ⟨entering, ?_, ?_⟩ <;> first | decide +kernel | rfl

/-- A state and operands that meet the hypotheses of clause 36 of PowerRows. -/
theorem wit_PowerRows_36 :
    ∃ s : State, s.ink.state ≠ stCapped ∧ s.pwr.capEntering = false := by
  refine ⟨ready, ?_, ?_⟩ <;> first | decide +kernel | rfl

/-- A state and operands that meet the hypotheses of clause 37 of PowerRows. -/
theorem wit_PowerRows_37 :
    ∃ s : State, s.ink.state = stCapped ∧ s.pwr.capWaking = true ∧ lostChans s = [] := by
  refine ⟨capped, ?_, ?_, ?_⟩ <;> first | decide +kernel | rfl | exact .inl (by decide +kernel) | exact .inr (by decide +kernel) | (intro h; exact absurd h (by decide +kernel))

/-- A state and operands that meet the hypotheses of clause 39 of PowerRows. -/
theorem wit_PowerRows_39 :
    ∃ (c : Cmd) (s a : State), Begun { op := 0x0B01, need := 8, vf := false } c s a ∧ hostOk a (p64 c 0) (faultLog a).length = true := by
  refine ⟨adm (leBytes 8 0x7000), ready, _, begun_of (by decide +kernel) (by decide +kernel) (by decide +kernel) (by decide +kernel) (by decide +kernel), ?_⟩ <;> first | decide +kernel | rfl

/-- A state and operands that meet the hypotheses of clause 40 of PowerRows. -/
theorem wit_PowerRows_40 :
    ∃ (c : Cmd) (s a : State), Begun { op := 0x0B10, vf := false } c s a ∧ a.pwr.watts ≠ [] := by
  refine ⟨adm [], powered [900] 0, _, begun_of (by decide +kernel) (by decide +kernel) (by decide +kernel) (by decide +kernel) (by decide +kernel), ?_⟩ <;> first | decide +kernel | rfl

/-- A state and operands that meet the hypotheses of clause 6 of PowerRows. -/
theorem wit_PowerRows_6 :
    ∃ (s : State) (w l : Nat), held s = false ∧ 9 ≤ s.pwr.watts.length ∧ l = Config.powerLimit s.ink.variant.toNat ∧ 100 * (w :: s.pwr.watts.take 9).sum < 950 * l ∧ 9 ≤ s.pwr.calm := by
  refine ⟨powered (List.replicate 9 900) 9, 900, _, ?_, ?_, rfl, ?_, ?_⟩ <;> first | decide +kernel | (intro p n h; cases h) | rfl | exact .inl (by decide +kernel) | exact .inr (by decide +kernel) | (intro h; exact absurd h (by decide +kernel))

/-- A state and operands that meet the hypotheses of clause 9 of PowerRows. -/
theorem wit_PowerRows_9 :
    ∃ (s : State) (w : Nat), held s = false ∧ Config.powerLimit s.ink.variant.toNat = 0 := by
  refine ⟨{ ready with ink.variant := 0 }, 5, ?_, ?_⟩ <;> first | decide +kernel | (intro p n h; cases h) | rfl | exact .inl (by decide +kernel) | exact .inr (by decide +kernel) | (intro h; exact absurd h (by decide +kernel))

/-- A state and operands that meet the hypotheses of clause 10 of PowerRows. -/
theorem wit_PowerRows_10 :
    ∃ (s : State) (p : Power), min p.powerClock p.heatClock = s.pwr.clock := by
  refine ⟨powered [] 0, (powered [] 0).pwr, ?_⟩ <;> first | decide +kernel | (intro p n h; cases h) | rfl | exact .inl (by decide +kernel) | exact .inr (by decide +kernel) | (intro h; exact absurd h (by decide +kernel))

/-- A state and operands that meet the hypotheses of clause 11 of PowerRows. -/
theorem wit_PowerRows_11 :
    ∃ (s v : State) (p : Power), min p.powerClock p.heatClock ≠ s.pwr.clock ∧ v = { s with pwr := { p with clock := min p.powerClock p.heatClock } } := by
  refine ⟨powered [] 0, _, { (powered [] 0).pwr with powerClock := 1200 }, ?_, rfl⟩ <;> first | decide +kernel | (intro p n h; cases h) | rfl | exact .inl (by decide +kernel) | exact .inr (by decide +kernel) | (intro h; exact absurd h (by decide +kernel))

/-- A state and operands that meet the hypotheses of clause 12 of PowerRows. -/
theorem wit_PowerRows_12 :
    ∃ (s : State) (c : Nat), held s = true := by
  refine ⟨{ ready with pwr.tripN := true }, 100, ?_⟩ <;> first | decide +kernel | (intro p n h; cases h) | rfl | exact .inl (by decide +kernel) | exact .inr (by decide +kernel) | (intro h; exact absurd h (by decide +kernel))

/-- A state and operands that meet the hypotheses of clause 22 of PowerRows. -/
theorem wit_PowerRows_22 :
    ∃ (c : Cmd) (s a u : State), Begun { op := 0x0B02, need := 2, vf := false } c s a ∧ p8 c 0 = 3 ∧ p8 c 1 ≠ 0 ∧ p8 c 1 ≤ 15 ∧ (bitList 4 (p8 c 1)).any (fun p => !configured a p) = false ∧ (bitList 4 (p8 c 1)).any a.pwr.resets.contains = false ∧ u = (bitList 4 (p8 c 1)).foldl beginCompute (post a 0x0B04 0xFF [BitVec.ofNat 8 (p8 c 1), 0, 0, 0] false) ∧ u.pwr.resetWanted = 0 := by
  refine ⟨adm [3, 1], ready, _, _, begun_of (by decide +kernel) (by decide +kernel) (by decide +kernel) (by decide +kernel) (by decide +kernel), ?_, ?_, ?_, ?_, ?_, rfl, ?_⟩ <;> first | decide +kernel | (intro p n h; cases h) | rfl | exact .inl (by decide +kernel) | exact .inr (by decide +kernel) | (intro h; exact absurd h (by decide +kernel))

/-- A state and operands that meet the hypotheses of clause 25 of PowerRows. -/
theorem wit_PowerRows_25 :
    ∃ (s : State) (p : Nat) (l : List Nat), s.pwr.resets.contains p = true := by
  refine ⟨resetting0, 0, [], ?_⟩ <;> first | decide +kernel | (intro p n h; cases h) | rfl | exact .inl (by decide +kernel) | exact .inr (by decide +kernel) | (intro h; exact absurd h (by decide +kernel))

/-- A state and operands that meet the hypotheses of clause 26 of PowerRows. -/
theorem wit_PowerRows_26 :
    ∃ (s v : State) (phys n c replaced left : Nat), v = { s with pwr.defect := { s.pwr.defect with coresOut := if s.pwr.defect.coresOut.contains phys then s.pwr.defect.coresOut else s.pwr.defect.coresOut ++ [phys] } } ∧ indexOf? (· == phys) s.cpu.map = some n := by
  refine ⟨{ memReady with cpu := { memReady.cpu with map := [0] } }, _, 0, 0, 1, 0, 0, rfl, ?_⟩ <;> first | decide +kernel | (intro p n h; cases h) | rfl | exact .inl (by decide +kernel) | exact .inr (by decide +kernel) | (intro h; exact absurd h (by decide +kernel))

/-- A state and operands that meet the hypotheses of clause 30 of PowerRows. -/
theorem wit_PowerRows_30 :
    ∃ (c : Cmd) (s a : State), Begun { op := 0x0B0F, vf := false } c s a ∧ a.ink.state ≠ stCapped ∧ a.pwr.capEntering = true := by
  refine ⟨{ adm [] with tag := 8 }, entering, _, begun_of (by decide +kernel) (by decide +kernel) (by decide +kernel) (by decide +kernel) (by decide +kernel), ?_, ?_⟩ <;> first | decide +kernel | (intro p n h; cases h) | rfl | exact .inl (by decide +kernel) | exact .inr (by decide +kernel) | (intro h; exact absurd h (by decide +kernel))

/-- A state and operands that meet the hypotheses of clause 33 of PowerRows. -/
theorem wit_PowerRows_33 :
    ∃ s : State, (s.pwr.capEntering = false ∨ s.ink.fetched.any (fun e => e.cmd.ring != 0) = true ∨ s.ink.running.any (fun r => r.cmd.ring != 0) = true) := by
  refine ⟨ready, .inl (by decide +kernel)⟩

/-- A state and operands that meet the hypotheses of clause 38 of PowerRows. -/
theorem wit_PowerRows_38 :
    ∃ s : State, (s.ink.state ≠ stCapped ∨ s.pwr.capWaking = false) := by
  refine ⟨ready, .inl (by decide +kernel)⟩

/-- A state and operands that meet the hypotheses of clause 41 of PowerRows. -/
theorem wit_PowerRows_41 :
    ∃ (c : Cmd) (s a : State), Begun { op := 0x0B10, vf := false } c s a ∧ a.pwr.watts = [] := by
  refine ⟨adm [], ready, _, begun_of (by decide +kernel) (by decide +kernel) (by decide +kernel) (by decide +kernel) (by decide +kernel), ?_⟩ <;> first | decide +kernel | (intro p n h; cases h) | rfl | exact .inl (by decide +kernel) | exact .inr (by decide +kernel) | (intro h; exact absurd h (by decide +kernel))

def linksSection : List Byte := [0, 1]

/-- SETTINGS_WRITE of a section with two bytes. -/
def settingsCmd (id crc : Nat) (b : List Byte) : Cmd :=
  { adm [] with flags := 1, len := 18, ext := leBytes 2 id ++ leBytes 2 1 ++ leBytes 4 2 ++ leBytes 4 crc ++ zeros 4 ++ b, extAddr := 64 }

def fwWriteCmd : Cmd := { adm [] with flags := 1, len := 68, ext := leBytes 4 256 ++ leBytes 4 512 ++ zeros 56 ++ [1, 2, 3, 4], extAddr := 64 }

def session (o p : Nat) : State := { ready with pwr.session := { owner := o, phase := p } }

/-- A record of one entry: feature 1, limit 1. -/
def record1 : List Byte :=
  [1, 1, 0, 0] ++ leBytes 4 1 ++ leBytes 8 Config.uniqueId ++ zeros 8 ++ leBytes 2 1 ++ [0, 0] ++ leBytes 4 1 ++ zeros 96

def licenceCmd : Cmd := { adm [] with flags := 1, len := 128, ext := record1, extAddr := 64 }

def fwReq (ok : Bool) : MgmtReq := { offset := 256, bytes := [1, 2], ok := ok }

/-- The identity section of the factory bank. -/
def identity0 : Section :=
  { id := 1, ver := 1, crc := 0x8c07a599#32, mandatory := true, kept := false, body := [0x01, 0, 0, 0, 0x80, 0xB8, 0, 0] ++ List.replicate 24 0 }

def identityCmd : Cmd :=
  { adm [] with flags := 1, len := 48, ext := leBytes 2 1 ++ leBytes 2 1 ++ leBytes 4 32 ++ leBytes 4 0x8c07a599 ++ zeros 4 ++ identity0.body, extAddr := 64 }

/-- A state and operands that meet the hypotheses of clause 1 of FirmwareRows. -/
theorem wit_FirmwareRows_1 :
    ∃ (c : Cmd) (s a : State), Begun { op := 0x0B03, need := 2, vf := false } c s a ∧ p8 c 0 ≤ 1 := by
  refine ⟨adm [1, 0], ready, _, begun_of (by decide +kernel) (by decide +kernel) (by decide +kernel) (by decide +kernel) (by decide +kernel), ?_⟩ <;> first | decide +kernel | rfl

/-- A state and operands that meet the hypotheses of clause 2 of FirmwareRows. -/
theorem wit_FirmwareRows_2 :
    ∃ (c : Cmd) (s a : State), Begun { op := 0x0B03, need := 2, vf := false } c s a ∧ 1 < p8 c 0 := by
  refine ⟨adm [2, 0], ready, _, begun_of (by decide +kernel) (by decide +kernel) (by decide +kernel) (by decide +kernel) (by decide +kernel), ?_⟩ <;> first | decide +kernel | rfl

/-- A state and operands that meet the hypotheses of clause 3 of FirmwareRows. -/
theorem wit_FirmwareRows_3 :
    ∃ (c : Cmd) (s a : State), Begun { op := 0x0B04, need := 8, vf := false } c s a ∧ hostOk a (p64 c 0) (defectBody a.pwr.defect).length = true := by
  refine ⟨adm (leBytes 8 0x7000), ready, _, begun_of (by decide +kernel) (by decide +kernel) (by decide +kernel) (by decide +kernel) (by decide +kernel), ?_⟩ <;> first | decide +kernel | rfl

/-- A state and operands that meet the hypotheses of clause 4 of FirmwareRows. -/
theorem wit_FirmwareRows_4 :
    ∃ (c : Cmd) (s a : State) (t : Tier) (u : Nat), Begun { op := 0x0B05, need := 2, vf := false } c s a ∧ unitField c 0 = some (t, u) ∧ a.pwr.clearUnits.contains (unitNo t u) = false := by
  refine ⟨adm [0, 3], ready, _, .fast, 3, begun_of (by decide +kernel) (by decide +kernel) (by decide +kernel) (by decide +kernel) (by decide +kernel), ?_, ?_⟩ <;> first | decide +kernel | rfl

/-- A state and operands that meet the hypotheses of clause 6 of FirmwareRows. -/
theorem wit_FirmwareRows_6 :
    ∃ (c : Cmd) (s a : State), Begun { op := 0x0B05, need := 2, vf := false } c s a ∧ unitField c 0 = none := by
  refine ⟨adm [0, 8], ready, _, begun_of (by decide +kernel) (by decide +kernel) (by decide +kernel) (by decide +kernel) (by decide +kernel), ?_⟩ <;> first | decide +kernel | rfl

/-- A state and operands that meet the hypotheses of clause 7 of FirmwareRows. -/
theorem wit_FirmwareRows_7 :
    ∃ (c : Cmd) (s a : State) (x : Section), Begun { op := 0x0B06, need := 16, vf := false } c s a ∧ (secInfo (p16 c 0)).isSome = true ∧ readSection a (p16 c 0) = some x ∧ hostOk a (p64 c 8) (sectionBytes x).length = true := by
  refine ⟨adm (leBytes 2 1 ++ zeros 6 ++ leBytes 8 0x7000), ready, _, identity0, begun_of (by decide +kernel) (by decide +kernel) (by decide +kernel) (by decide +kernel) (by decide +kernel), ?_, ?_, ?_⟩ <;> first | decide +kernel | rfl | exact .inl (by decide +kernel) | exact .inr (by decide +kernel) | (intro h; exact absurd h (by decide +kernel))

/-- A state and operands that meet the hypotheses of clause 9 of FirmwareRows. -/
theorem wit_FirmwareRows_9 :
    ∃ (c : Cmd) (s a : State), Begun { op := 0x0B06, need := 16, vf := false } c s a ∧ (secInfo (p16 c 0)).isNone = true := by
  refine ⟨adm (leBytes 2 9 ++ zeros 6 ++ leBytes 8 0x7000), ready, _, begun_of (by decide +kernel) (by decide +kernel) (by decide +kernel) (by decide +kernel) (by decide +kernel), ?_⟩ <;> first | decide +kernel | rfl

/-- A state and operands that meet the hypotheses of clause 10 of FirmwareRows. -/
theorem wit_FirmwareRows_10 :
    ∃ (c : Cmd) (s a : State) (x : Section), Begun { op := 0x0B07, need := 16, ext := true, full := fun _ c => 16 + p32 c 4, vf := false } c s a ∧ x = writtenSection c ∧ secReadable x = true ∧ (secMandatory x.id = false ∨ a.ink.state = stMinimal ∨ a.ink.state = stDiagnostic) := by
  refine ⟨settingsCmd 0x10 (crc32 [0, 1]).toNat [0, 1], ready, _, _, begun_of (by decide +kernel) (by decide +kernel) (by decide +kernel) (by decide +kernel) (by decide +kernel), rfl, ?_, ?_⟩ <;> first | decide +kernel | rfl | exact .inl (by decide +kernel) | exact .inr (by decide +kernel) | (intro h; exact absurd h (by decide +kernel))

/-- A state and operands that meet the hypotheses of clause 11 of FirmwareRows. -/
theorem wit_FirmwareRows_11 :
    ∃ (c : Cmd) (s a : State) (x : Section), Begun { op := 0x0B07, need := 16, ext := true, full := fun _ c => 16 + p32 c 4, vf := false } c s a ∧ x = writtenSection c ∧ secReadable x = true ∧ secMandatory x.id = true ∧ a.ink.state ≠ stMinimal ∧ a.ink.state ≠ stDiagnostic := by
  refine ⟨identityCmd, ready, _, _, begun_of (by decide +kernel) (by decide +kernel) (by decide +kernel) (by decide +kernel) (by decide +kernel), rfl, ?_, ?_, ?_, ?_⟩ <;> first | decide +kernel | rfl | exact .inl (by decide +kernel) | exact .inr (by decide +kernel) | (intro h; exact absurd h (by decide +kernel))

/-- A state and operands that meet the hypotheses of clause 15 of FirmwareRows. -/
theorem wit_FirmwareRows_15 :
    ∃ (c : Cmd) (s a : State), Begun { op := 0x0B08, vf := false } c s a := by
  exact ⟨adm [], ready, _, begun_of (by decide +kernel) (by decide +kernel) (by decide +kernel) (by decide +kernel) (by decide +kernel)⟩

/-- A state and operands that meet the hypotheses of clause 16 of FirmwareRows. -/
theorem wit_FirmwareRows_16 :
    ∃ (c : Cmd) (s a : State), Begun { op := 0x0B09, need := 64, ext := true, full := fun _ c => c.len, vf := false } c s a ∧ p32 c 4 ≤ 16777216 ∧ p32 c 0 + ((body c).drop 64).length ≤ p32 c 4 ∧ a.pwr.session.owner ≠ 2 := by
  refine ⟨fwWriteCmd, ready, _, begun_of (by decide +kernel) (by decide +kernel) (by decide +kernel) (by decide +kernel) (by decide +kernel), ?_, ?_, ?_⟩ <;> first | decide +kernel | rfl

/-- A state and operands that meet the hypotheses of clause 18 of FirmwareRows. -/
theorem wit_FirmwareRows_18 :
    ∃ (c : Cmd) (s a : State), Begun { op := 0x0B09, need := 64, ext := true, full := fun _ c => c.len, vf := false } c s a ∧ p32 c 4 ≤ 16777216 ∧ p32 c 0 + ((body c).drop 64).length ≤ p32 c 4 ∧ a.pwr.session.owner = 2 := by
  refine ⟨fwWriteCmd, session 2 1, _, begun_of (by decide +kernel) (by decide +kernel) (by decide +kernel) (by decide +kernel) (by decide +kernel), ?_, ?_, ?_⟩ <;> first | decide +kernel | rfl

/-- A state and operands that meet the hypotheses of clause 19 of FirmwareRows. -/
theorem wit_FirmwareRows_19 :
    ∃ (c : Cmd) (sig : Bool) (s a : State), Begun { op := 0x0B0A, vf := false } c s a ∧ a.pwr.session.owner = 2 := by
  refine ⟨adm [], true, session 2 1, _, begun_of (by decide +kernel) (by decide +kernel) (by decide +kernel) (by decide +kernel) (by decide +kernel), ?_⟩ <;> first | decide +kernel | (intro p n h; cases h) | rfl | exact .inl (by decide +kernel) | exact .inr (by decide +kernel) | (intro h; exact absurd h (by decide +kernel))

/-- A state and operands that meet the hypotheses of clause 22 of FirmwareRows. -/
theorem wit_FirmwareRows_22 :
    ∃ (c : Cmd) (sig : Bool) (s a : State), Begun { op := 0x0B0A, vf := false } c s a ∧ a.pwr.session.owner ≠ 2 ∧ imageVersion (slotBytes a (updateSlot a)) < (bootNow a).minSec := by
  refine ⟨adm [], true, bootUpdate ready (fun b => { b with minSec := 5 }), _, begun_of (by decide +kernel) (by decide +kernel) (by decide +kernel) (by decide +kernel) (by decide +kernel), ?_, ?_⟩ <;> first | decide +kernel | (intro p n h; cases h) | rfl | exact .inl (by decide +kernel) | exact .inr (by decide +kernel) | (intro h; exact absurd h (by decide +kernel))

/-- A state and operands that meet the hypotheses of clause 23 of FirmwareRows. -/
theorem wit_FirmwareRows_23 :
    ∃ (c : Cmd) (s a : State), Begun { op := 0x0B0B, need := 8, vf := false } c s a ∧ imageRuns a = true ∧ hostOk a (p64 c 0) 64 = true := by
  refine ⟨adm (leBytes 8 0x7000), ready, _, begun_of (by decide +kernel) (by decide +kernel) (by decide +kernel) (by decide +kernel) (by decide +kernel), ?_, ?_⟩ <;> first | decide +kernel | rfl

/-- A state and operands that meet the hypotheses of clause 25 of FirmwareRows. -/
theorem wit_FirmwareRows_25 :
    ∃ (c : Cmd) (s a v : State) (b : List Byte), Begun { op := 0x0B0C, need := 128, ext := true, full := fun _ c => if p8 c 1 ≤ 16 then licenceLen (body c) else 0, vf := false } c s a ∧ b = (body c).take (min c.len (licenceLen (body c))) ∧ licenceFormat b = true ∧ fieldN b 8 8 = Config.uniqueId ∧ (installed a).any (fun o => decide (recordSerial o ≥ recordSerial b)) = false ∧ ((installed a).filter (fun o => !superseded (installed a ++ [b]) o)).length < 8 ∧ v = { a with pwr.sigGood := if a.pwr.sigGood.contains b then a.pwr.sigGood else a.pwr.sigGood ++ [b] } := by
  refine ⟨licenceCmd, ready, _, _, _, begun_of (by decide +kernel) (by decide +kernel) (by decide +kernel) (by decide +kernel) (by decide +kernel), rfl, ?_, ?_, ?_, ?_, rfl⟩ <;> first | decide +kernel | rfl | exact .inl (by decide +kernel) | exact .inr (by decide +kernel) | (intro h; exact absurd h (by decide +kernel))

/-- A state and operands that meet the hypotheses of clause 27 of FirmwareRows. -/
theorem wit_FirmwareRows_27 :
    ∃ (c : Cmd) (s a : State), Begun { op := 0x0B0C, need := 128, ext := true, full := fun _ c => if p8 c 1 ≤ 16 then licenceLen (body c) else 0, vf := false } c s a := by
  exact ⟨licenceCmd, ready, _, begun_of (by decide +kernel) (by decide +kernel) (by decide +kernel) (by decide +kernel) (by decide +kernel)⟩

/-- A state and operands that meet the hypotheses of clause 28 of FirmwareRows. -/
theorem wit_FirmwareRows_28 :
    ∃ (c : Cmd) (s a : State), Begun { op := 0x0B0D, need := 8, vf := false } c s a ∧ hostOk a (p64 c 0) 256 = true := by
  refine ⟨adm (leBytes 8 0x7000), ready, _, begun_of (by decide +kernel) (by decide +kernel) (by decide +kernel) (by decide +kernel) (by decide +kernel), ?_⟩ <;> first | decide +kernel | rfl

/-- A state and operands that meet the hypotheses of clause 32 of FirmwareRows. -/
theorem wit_FirmwareRows_32 :
    ∃ s : State, held s = false := by
  refine ⟨ready, ?_⟩ <;> first | decide +kernel | rfl

/-- A state and operands that meet the hypotheses of clause 33 of FirmwareRows. -/
theorem wit_FirmwareRows_33 :
    ∃ s : State, held s = false := by
  refine ⟨ready, ?_⟩ <;> first | decide +kernel | rfl

/-- A state and operands that meet the hypotheses of clause 34 of FirmwareRows. -/
theorem wit_FirmwareRows_34 :
    ∃ s : State, held s = false ∧ s.pwr.session.owner = 0 := by
  refine ⟨ready, ?_, ?_⟩ <;> first | decide +kernel | rfl

/-- A state and operands that meet the hypotheses of clause 35 of FirmwareRows. -/
theorem wit_FirmwareRows_35 :
    ∃ s : State, held s = false ∧ s.pwr.session.owner ≠ 0 := by
  refine ⟨session 2 1, ?_, ?_⟩ <;> first | decide +kernel | rfl

/-- A state and operands that meet the hypotheses of clause 36 of FirmwareRows. -/
theorem wit_FirmwareRows_36 :
    ∃ s : State, held s = false ∧ s.pwr.session.owner = 2 := by
  refine ⟨session 2 1, ?_, ?_⟩ <;> first | decide +kernel | rfl

/-- A state and operands that meet the hypotheses of clause 38 of FirmwareRows. -/
theorem wit_FirmwareRows_38 :
    ∃ (s : State) (m : MgmtReq), inPhase s 1 = true ∧ held s = false := by
  refine ⟨session 2 1, fwReq true, ?_, ?_⟩ <;> first | decide +kernel | rfl | exact .inl (by decide +kernel) | exact .inr (by decide +kernel) | (intro h; exact absurd h (by decide +kernel))

/-- A state and operands that meet the hypotheses of clause 39 of FirmwareRows. -/
theorem wit_FirmwareRows_39 :
    ∃ (s : State) (m : MgmtReq), inPhase s 2 = true ∧ held s = false := by
  refine ⟨session 2 2, fwReq true, ?_, ?_⟩ <;> first | decide +kernel | rfl | exact .inl (by decide +kernel) | exact .inr (by decide +kernel) | (intro h; exact absurd h (by decide +kernel))

/-- A state and operands that meet the hypotheses of clause 40 of FirmwareRows. -/
theorem wit_FirmwareRows_40 :
    ∃ (s : State) (m : MgmtReq), inPhase s 3 = true ∧ held s = false ∧ m.bytes.length ≤ 4096 ∧ m.offset + m.bytes.length ≤ 16777216 := by
  refine ⟨session 2 3, fwReq true, ?_, ?_, ?_, ?_⟩ <;> first | decide +kernel | rfl

/-- A state and operands that meet the hypotheses of clause 43 of FirmwareRows. -/
theorem wit_FirmwareRows_43 :
    ∃ (s : State) (m : MgmtReq), inPhase s 4 = true ∧ held s = false := by
  refine ⟨session 2 4, fwReq true, ?_, ?_⟩ <;> first | decide +kernel | rfl

/-- A state and operands that meet the hypotheses of clause 44 of FirmwareRows. -/
theorem wit_FirmwareRows_44 :
    ∃ (s : State) (m : MgmtReq), inPhase s 5 = true ∧ held s = false := by
  refine ⟨session 2 5, fwReq true, ?_, ?_⟩ <;> first | decide +kernel | rfl

/-- A state and operands that meet the hypotheses of clause 45 of FirmwareRows. -/
theorem wit_FirmwareRows_45 :
    ∃ (s u : State) (sig : Bool) (st : Nat), inPhase s 2 = true ∧ held s = false ∧ activate (endSession s) sig = (st, u) := by
  refine ⟨session 2 2, _, true, _, ?_, ?_, eta_pair _⟩ <;> first | decide +kernel | (intro p n h; cases h) | rfl | exact .inl (by decide +kernel) | exact .inr (by decide +kernel) | (intro h; exact absurd h (by decide +kernel))

/-- A state and operands that meet the hypotheses of clause 48 of FirmwareRows. -/
theorem wit_FirmwareRows_48 :
    ∃ (s : State) (u : Nat), held s = false ∧ s.ink.state ≠ stMinimal ∧ u < 8 ∧ unitUp s .fast u = true := by
  refine ⟨memReady, 0, ?_, ?_, ?_, ?_⟩ <;> first | decide +kernel | rfl

/-- A state and operands that meet the hypotheses of clause 51 of FirmwareRows. -/
theorem wit_FirmwareRows_51 :
    ∃ s : State, held s = false ∧ s.ink.state ≠ stMinimal ∧ s.pwr.watts = [] := by
  refine ⟨ready, ?_, ?_, ?_⟩ <;> first | decide +kernel | rfl | exact .inl (by decide +kernel) | exact .inr (by decide +kernel) | (intro h; exact absurd h (by decide +kernel))

/-- A state and operands that meet the hypotheses of clause 52 of FirmwareRows. -/
theorem wit_FirmwareRows_52 :
    ∃ s : State, held s = false ∧ s.ink.state = stMinimal := by
  refine ⟨{ ready with ink.state := stMinimal }, ?_, ?_⟩ <;> first | decide +kernel | rfl

/-- A state and operands that meet the hypotheses of clause 58 of FirmwareRows. -/
theorem wit_FirmwareRows_58 :
    ∃ s : State, strapTest s = true := by
  refine ⟨{ ready with pwr.straps := 8 }, ?_⟩ <;> first | decide +kernel | rfl

/-- A state and operands that meet the hypotheses of clause 59 of FirmwareRows. -/
theorem wit_FirmwareRows_59 :
    ∃ s : State, strapTest s = false := by
  refine ⟨ready, ?_⟩ <;> first | decide +kernel | rfl

/-- A state and operands that meet the hypotheses of clause 5 of FirmwareRows. -/
theorem wit_FirmwareRows_5 :
    ∃ (c : Cmd) (s a : State) (t : Tier) (u : Nat), Begun { op := 0x0B05, need := 2, vf := false } c s a ∧ unitField c 0 = some (t, u) ∧ a.pwr.clearUnits.contains (unitNo t u) = true := by
  refine ⟨adm [0, 3], { ready with pwr.clearUnits := [unitNo .fast 3] }, _, .fast, 3, begun_of (by decide +kernel) (by decide +kernel) (by decide +kernel) (by decide +kernel) (by decide +kernel), ?_, ?_⟩ <;> first | decide +kernel | (intro p n h; cases h) | rfl | exact .inl (by decide +kernel) | exact .inr (by decide +kernel) | (intro h; exact absurd h (by decide +kernel))

/-- A state and operands that meet the hypotheses of clause 8 of FirmwareRows. -/
theorem wit_FirmwareRows_8 :
    ∃ (c : Cmd) (s a : State) (x : Section), Begun { op := 0x0B06, need := 16, vf := false } c s a ∧ (secInfo (p16 c 0)).isSome = true ∧ readSection a (p16 c 0) = none ∧ secMandatory (p16 c 0) = false ∧ x = mkSection (p16 c 0) (secWritten (p16 c 0)) (serviceBody a (p16 c 0)) ∧ hostOk a (p64 c 8) (sectionBytes x).length = true := by
  refine ⟨adm (leBytes 2 0x10 ++ zeros 6 ++ leBytes 8 0x7000), ready, _, _, begun_of (by decide +kernel) (by decide +kernel) (by decide +kernel) (by decide +kernel) (by decide +kernel), ?_, ?_, ?_, rfl, ?_⟩ <;> first | decide +kernel | (intro p n h; cases h) | rfl | exact .inl (by decide +kernel) | exact .inr (by decide +kernel) | (intro h; exact absurd h (by decide +kernel))

/-- A state and operands that meet the hypotheses of clause 12 of FirmwareRows. -/
theorem wit_FirmwareRows_12 :
    ∃ (c : Cmd) (s a : State), Begun { op := 0x0B07, need := 16, ext := true, full := fun _ c => 16 + p32 c 4, vf := false } c s a ∧ secReadable (writtenSection c) = false := by
  refine ⟨settingsCmd 0x10 0 [0, 1], ready, _, begun_of (by decide +kernel) (by decide +kernel) (by decide +kernel) (by decide +kernel) (by decide +kernel), ?_⟩ <;> first | decide +kernel | (intro p n h; cases h) | rfl | exact .inl (by decide +kernel) | exact .inr (by decide +kernel) | (intro h; exact absurd h (by decide +kernel))

/-- A state and operands that meet the hypotheses of clause 13 of FirmwareRows. -/
theorem wit_FirmwareRows_13 :
    ∃ s : State, s.ink.state ≠ stMinimal := by
  refine ⟨ready, ?_⟩ <;> first | decide +kernel | (intro p n h; cases h) | rfl | exact .inl (by decide +kernel) | exact .inr (by decide +kernel) | (intro h; exact absurd h (by decide +kernel))

/-- A state and operands that meet the hypotheses of clause 14 of FirmwareRows. -/
theorem wit_FirmwareRows_14 :
    ∃ s : State, s.ink.state = stMinimal ∧ (bootNow s).seq + 1 < 2 ^ 32 := by
  refine ⟨{ ready with ink.state := stMinimal }, ?_, ?_⟩ <;> first | decide +kernel | (intro p n h; cases h) | rfl | exact .inl (by decide +kernel) | exact .inr (by decide +kernel) | (intro h; exact absurd h (by decide +kernel))

/-- A state and operands that meet the hypotheses of clause 17 of FirmwareRows. -/
theorem wit_FirmwareRows_17 :
    ∃ (c : Cmd) (s a : State), Begun { op := 0x0B09, need := 64, ext := true, full := fun _ c => c.len, vf := false } c s a ∧ (16777216 < p32 c 4 ∨ p32 c 4 < p32 c 0 + ((body c).drop 64).length) := by
  refine ⟨{ fwWriteCmd with ext := leBytes 4 256 ++ leBytes 4 0x2000000 ++ zeros 56 ++ [1, 2, 3, 4] }, ready, _, begun_of (by decide +kernel) (by decide +kernel) (by decide +kernel) (by decide +kernel) (by decide +kernel), .inl (by decide +kernel)⟩

/-- A state and operands that meet the hypotheses of clause 20 of FirmwareRows. -/
theorem wit_FirmwareRows_20 :
    ∃ (c : Cmd) (sig : Bool) (s a : State), Begun { op := 0x0B0A, vf := false } c s a ∧ a.pwr.session.owner ≠ 2 ∧ (bootNow a).minSec ≤ imageVersion (slotBytes a (updateSlot a)) ∧ imageSound (slotBytes a (updateSlot a)) sig = true := by
  refine ⟨adm [], true, ready, _, begun_of (by decide +kernel) (by decide +kernel) (by decide +kernel) (by decide +kernel) (by decide +kernel), ?_, ?_, ?_⟩ <;> first | decide +kernel | (intro p n h; cases h) | rfl | exact .inl (by decide +kernel) | exact .inr (by decide +kernel) | (intro h; exact absurd h (by decide +kernel))

/-- A state and operands that meet the hypotheses of clause 21 of FirmwareRows. -/
theorem wit_FirmwareRows_21 :
    ∃ (c : Cmd) (sig : Bool) (s a : State), Begun { op := 0x0B0A, vf := false } c s a ∧ a.pwr.session.owner ≠ 2 ∧ (bootNow a).minSec ≤ imageVersion (slotBytes a (updateSlot a)) ∧ imageSound (slotBytes a (updateSlot a)) sig = false := by
  refine ⟨adm [], false, ready, _, begun_of (by decide +kernel) (by decide +kernel) (by decide +kernel) (by decide +kernel) (by decide +kernel), ?_, ?_, ?_⟩ <;> first | decide +kernel | (intro p n h; cases h) | rfl | exact .inl (by decide +kernel) | exact .inr (by decide +kernel) | (intro h; exact absurd h (by decide +kernel))

/-- A state and operands that meet the hypotheses of clause 24 of FirmwareRows. -/
theorem wit_FirmwareRows_24 :
    ∃ (c : Cmd) (s a : State), Begun { op := 0x0B0B, need := 8, vf := false } c s a ∧ imageRuns a = false ∧ hostOk a (p64 c 0) 64 = true := by
  refine ⟨adm (leBytes 8 0x7000), { ready with ink.state := stMinimal }, _, begun_of (by decide +kernel) (by decide +kernel) (by decide +kernel) (by decide +kernel) (by decide +kernel), ?_, ?_⟩ <;> first | decide +kernel | (intro p n h; cases h) | rfl | exact .inl (by decide +kernel) | exact .inr (by decide +kernel) | (intro h; exact absurd h (by decide +kernel))

/-- A state and operands that meet the hypotheses of clause 26 of FirmwareRows. -/
theorem wit_FirmwareRows_26 :
    ∃ (c : Cmd) (s a : State) (b : List Byte), Begun { op := 0x0B0C, need := 128, ext := true, full := fun _ c => if p8 c 1 ≤ 16 then licenceLen (body c) else 0, vf := false } c s a ∧ b = (body c).take (min c.len (licenceLen (body c))) ∧ licenceFormat b = true := by
  refine ⟨licenceCmd, ready, _, _, begun_of (by decide +kernel) (by decide +kernel) (by decide +kernel) (by decide +kernel) (by decide +kernel), rfl, ?_⟩ <;> first | decide +kernel | (intro p n h; cases h) | rfl | exact .inl (by decide +kernel) | exact .inr (by decide +kernel) | (intro h; exact absurd h (by decide +kernel))

/-- A state and operands that meet the hypotheses of clause 29 of FirmwareRows. -/
theorem wit_FirmwareRows_29 :
    ∃ s : State, s.pwr.session.since + 60 * secondUnits ≤ s.time := by
  refine ⟨later ready, ?_⟩ <;> first | decide +kernel | (intro p n h; cases h) | rfl | exact .inl (by decide +kernel) | exact .inr (by decide +kernel) | (intro h; exact absurd h (by decide +kernel))

/-- A state and operands that meet the hypotheses of clause 30 of FirmwareRows. -/
theorem wit_FirmwareRows_30 :
    ∃ s : State, s.time < s.pwr.session.since + 60 * secondUnits := by
  refine ⟨session 2 1, ?_⟩ <;> first | decide +kernel | (intro p n h; cases h) | rfl | exact .inl (by decide +kernel) | exact .inr (by decide +kernel) | (intro h; exact absurd h (by decide +kernel))

/-- A state and operands that meet the hypotheses of clause 31 of FirmwareRows. -/
theorem wit_FirmwareRows_31 :
    ∃ (i : Instr) (m : MgmtReq) (sig : Bool) (x : Sensor) (s : State), held s = true ∧ i ∈ [.queryDeviceIdentifiers, .getStatus, .getFirmwareParameters, .requestUpdate, .cancelUpdate, .passComponentTable m, .updateComponent m, .requestFirmwareData m, .transferComplete m, .verifyComplete m, .applyComplete m, .activateFirmware sig, .pldmSensorRequest x, .getVersion, .getCapabilities, .negotiateAlgorithms, .getDigests, .getCertificate, .challenge, .getMeasurements] := by
  refine ⟨.queryDeviceIdentifiers, fwReq true, true, .state, { ready with pwr.tripN := true }, ?_, List.Mem.head _⟩ <;> first | decide +kernel | (intro p n h; cases h) | rfl | exact .inl (by decide +kernel) | exact .inr (by decide +kernel) | (intro h; exact absurd h (by decide +kernel))

/-- A state and operands that meet the hypotheses of clause 37 of FirmwareRows. -/
theorem wit_FirmwareRows_37 :
    ∃ s : State, held s = false ∧ s.pwr.session.owner ≠ 2 := by
  refine ⟨ready, ?_, ?_⟩ <;> first | decide +kernel | (intro p n h; cases h) | rfl | exact .inl (by decide +kernel) | exact .inr (by decide +kernel) | (intro h; exact absurd h (by decide +kernel))

/-- A state and operands that meet the hypotheses of clause 41 of FirmwareRows. -/
theorem wit_FirmwareRows_41 :
    ∃ (s : State) (m : MgmtReq), inPhase s 3 = true ∧ held s = false ∧ (4096 < m.bytes.length ∨ 16777216 < m.offset + m.bytes.length) := by
  refine ⟨session 2 3, { offset := 2 ^ 24, bytes := [1], ok := true }, ?_, ?_, ?_⟩ <;> first | decide +kernel | (intro p n h; cases h) | rfl | exact .inl (by decide +kernel) | exact .inr (by decide +kernel) | (intro h; exact absurd h (by decide +kernel))

/-- A state and operands that meet the hypotheses of clause 42 of FirmwareRows. -/
theorem wit_FirmwareRows_42 :
    ∃ (s : State) (m : MgmtReq), inPhase s 3 = true ∧ held s = false := by
  refine ⟨session 2 3, fwReq true, ?_, ?_⟩ <;> first | decide +kernel | (intro p n h; cases h) | rfl | exact .inl (by decide +kernel) | exact .inr (by decide +kernel) | (intro h; exact absurd h (by decide +kernel))

/-- A state and operands that meet the hypotheses of clause 46 of FirmwareRows. -/
theorem wit_FirmwareRows_46 :
    ∃ (i : Instr) (k : Nat) (s : State) (m : MgmtReq) (sig : Bool), held s = false ∧ (k, i) ∈ [(1, .passComponentTable m), (2, .updateComponent m), (3, .requestFirmwareData m), (3, .transferComplete m), (4, .verifyComplete m), (5, .applyComplete m), (2, .activateFirmware sig)] := by
  refine ⟨_, _, ready, fwReq true, true, ?_, List.Mem.head _⟩ <;> first | decide +kernel | (intro p n h; cases h) | rfl | exact .inl (by decide +kernel) | exact .inr (by decide +kernel) | (intro h; exact absurd h (by decide +kernel))

/-- A state and operands that meet the hypotheses of clause 47 of FirmwareRows. -/
theorem wit_FirmwareRows_47 :
    ∃ s : State, held s = false := by
  refine ⟨ready, ?_⟩ <;> first | decide +kernel | (intro p n h; cases h) | rfl | exact .inl (by decide +kernel) | exact .inr (by decide +kernel) | (intro h; exact absurd h (by decide +kernel))

/-- A state and operands that meet the hypotheses of clause 49 of FirmwareRows. -/
theorem wit_FirmwareRows_49 :
    ∃ (s : State) (u : Nat), held s = false ∧ s.ink.state ≠ stMinimal ∧ u < 16 ∧ unitUp s .cap u = true := by
  refine ⟨memReady, 0, ?_, ?_, ?_, ?_⟩ <;> first | decide +kernel | (intro p n h; cases h) | rfl | exact .inl (by decide +kernel) | exact .inr (by decide +kernel) | (intro h; exact absurd h (by decide +kernel))

/-- A state and operands that meet the hypotheses of clause 50 of FirmwareRows. -/
theorem wit_FirmwareRows_50 :
    ∃ s : State, held s = false ∧ s.ink.state ≠ stMinimal ∧ s.pwr.watts ≠ [] := by
  refine ⟨powered [900] 0, ?_, ?_, ?_⟩ <;> first | decide +kernel | (intro p n h; cases h) | rfl | exact .inl (by decide +kernel) | exact .inr (by decide +kernel) | (intro h; exact absurd h (by decide +kernel))

/-- A state and operands that meet the hypotheses of clause 53 of FirmwareRows. -/
theorem wit_FirmwareRows_53 :
    ∃ (i : Instr) (n : Nat) (s u : State) (b : List Byte), held s = false ∧ (n, i) ∈ [(0, .getVersion), (16, .getCapabilities), (32, .negotiateAlgorithms), (48, .getDigests), (64, .getCertificate), (96, .challenge)] ∧ freeBytes s n = (b, u) := by
  refine ⟨_, _, ready, _, _, ?_, .tail _ (List.Mem.head _), eta_pair _⟩ <;> first | decide +kernel | (intro p n h; cases h) | rfl | exact .inl (by decide +kernel) | exact .inr (by decide +kernel) | (intro h; exact absurd h (by decide +kernel))

/-- A state and operands that meet the hypotheses of clause 54 of FirmwareRows. -/
theorem wit_FirmwareRows_54 :
    ∃ (s u : State) (rom lic : List Byte), held s = false ∧ imageRuns s = true ∧ freeBytes s 4 = (rom, u) ∧ lic = sha384 (((s.pwr.licences.filter (fun l => l.sigOk && l.unique == Config.uniqueId)).map (fun l => l.raw)).flatten) := by
  refine ⟨ready, _, _, _, ?_, ?_, eta_pair _, rfl⟩ <;> first | decide +kernel | (intro p n h; cases h) | rfl | exact .inl (by decide +kernel) | exact .inr (by decide +kernel) | (intro h; exact absurd h (by decide +kernel))

/-- A state and operands that meet the hypotheses of clause 55 of FirmwareRows. -/
theorem wit_FirmwareRows_55 :
    ∃ (s u v : State) (rom img lic : List Byte), held s = false ∧ imageRuns s = false ∧ freeBytes s 4 = (rom, u) ∧ freeBytes u 48 = (img, v) ∧ lic = sha384 (((s.pwr.licences.filter (fun l => l.sigOk && l.unique == Config.uniqueId)).map (fun l => l.raw)).flatten) := by
  refine ⟨{ ready with ink.state := stMinimal }, _, _, _, _, _, ?_, ?_, eta_pair _, eta_pair _, rfl⟩ <;> first | decide +kernel | (intro p n h; cases h) | rfl | exact .inl (by decide +kernel) | exact .inr (by decide +kernel) | (intro h; exact absurd h (by decide +kernel))

def claimed (res mode : Nat) : State := { memReady with ink.claims := [{ res := res, mode := mode, owner := 0 }] }

def tracing (s : State) (t : Trace) : State := setTrace s 0 t

def trace0 : Trace := { configured := true, types := 0xFFFF, pcPeriod := 10, ring := 0x8000, log2 := 16 }

def traceCmd : Cmd := par ([0, 0] ++ leBytes 2 0xFFFF ++ [10, 0] ++ zeros 2 ++ leBytes 8 0x8000 ++ [0, 16])

def digestCmd : Cmd := adm (leBytes 8 0x1000 ++ leBytes 8 64 ++ [0, 0] ++ zeros 6 ++ leBytes 8 0x7000)

def armCmd (f : Byte) : Cmd := par ([0, 1, f, 0] ++ leBytes 4 5 ++ leBytes 8 0x1000 ++ leBytes 8 64 ++ [0] ++ zeros 15)

def sampled : State :=
  onQueue (kernelCmd 0) {} { run := .running, job := some (0, 3) }

def lateQueue : State :=
  { onQueue { kernelCmd 0 with freed := true } {} {} with obs.single := [(0, 4)], rul := { memReady.rul with line := 9 } }

/-- A state and operands that meet the hypotheses of clause 2 of ObservationRows. -/
theorem wit_ObservationRows_2 :
    ∃ (c : Cmd) (s a : State) (b : List Byte), Begun { op := 0x0C01, need := 16, part := some 0 } c s a ∧ p8 c 0 ≤ 3 ∧ b = leBytes 8 (stamp a).toNat ++ ((counters a (p8 c 0)).map (fun v => leBytes 8 v.toNat)).flatten ∧ hostOk a (p64 c 8) b.length = true := by
  refine ⟨par (zeros 8 ++ leBytes 8 0x7000), memReady, _, _, begun_of (by decide +kernel) (by decide +kernel) (by decide +kernel) (by decide +kernel) (by decide +kernel), ?_, rfl, ?_⟩ <;> first | decide +kernel | rfl

/-- A state and operands that meet the hypotheses of clause 3 of ObservationRows. -/
theorem wit_ObservationRows_3 :
    ∃ (c : Cmd) (s a : State), Begun { op := 0x0C01, need := 16, part := some 0 } c s a ∧ 3 < p8 c 0 := by
  refine ⟨par ([4] ++ zeros 7 ++ leBytes 8 0x7000), memReady, _, begun_of (by decide +kernel) (by decide +kernel) (by decide +kernel) (by decide +kernel) (by decide +kernel), ?_⟩ <;> first | decide +kernel | rfl

/-- A state and operands that meet the hypotheses of clause 4 of ObservationRows. -/
theorem wit_ObservationRows_4 :
    ∃ (c : Cmd) (s a : State) (b : List Byte), Begun { op := 0x0C02, need := 16, part := some 0 } c s a ∧ p8 c 0 ≤ 3 ∧ p8 c 1 ≤ 31 ∧ b = latchRecord (queueOf a (p8 c 0) (p8 c 1)).latch ∧ hostOk a (p64 c 8) b.length = true := by
  refine ⟨par ([0, 3] ++ zeros 6 ++ leBytes 8 0x7000), memReady, _, _, begun_of (by decide +kernel) (by decide +kernel) (by decide +kernel) (by decide +kernel) (by decide +kernel), ?_, ?_, rfl, ?_⟩ <;> first | decide +kernel | rfl

/-- A state and operands that meet the hypotheses of clause 5 of ObservationRows. -/
theorem wit_ObservationRows_5 :
    ∃ (c : Cmd) (s a : State), Begun { op := 0x0C03, need := 16, refuse := unitRefused } c s a ∧ unitValid a (p16 c 0) = true ∧ p8 c 2 ≤ 7 ∧ p16 c 8 / 4096 = p16 c 0 / 4096 ∧ eventListed (p16 c 8) = true ∧ (p8 c 10 ≤ 3 ∨ p8 c 10 = 15) := by
  refine ⟨adm (leBytes 2 0x1000 ++ zeros 6 ++ leBytes 2 0x1001 ++ [3, 0, 1, 0, 0, 0]), memReady, _, begun_of (by decide +kernel) (by decide +kernel) (by decide +kernel) (by decide +kernel) (by decide +kernel), ?_, ?_, ?_, ?_, ?_⟩ <;> first | decide +kernel | exact .inl (by decide +kernel)

/-- A state and operands that meet the hypotheses of clause 8 of ObservationRows. -/
theorem wit_ObservationRows_8 :
    ∃ (c : Cmd) (s a : State), Begun { op := 0x0C03, need := 16, refuse := unitRefused } c s a ∧ unitValid a (p16 c 0) = false := by
  refine ⟨adm (leBytes 2 0xF000 ++ zeros 6 ++ leBytes 2 0x1001 ++ [3, 0, 1, 0, 0, 0]), memReady, _, begun_of (by decide +kernel) (by decide +kernel) (by decide +kernel) (by decide +kernel) (by decide +kernel), ?_⟩ <;> first | decide +kernel | rfl

/-- A state and operands that meet the hypotheses of clause 9 of ObservationRows. -/
theorem wit_ObservationRows_9 :
    ∃ (c : Cmd) (s a : State) (b : List Byte), Begun { op := 0x0C04, need := 16, refuse := unitRefused } c s a ∧ unitValid a (p16 c 0) = true ∧ b = ((List.range 8).map (fun k => leBytes 8 (mget {} a.obs.progs (p16 c 0 * 8 + k)).live.toNat ++ leBytes 8 (mget {} a.obs.progs (p16 c 0 * 8 + k)).start.toNat ++ leBytes 8 (mget {} a.obs.progs (p16 c 0 * 8 + k)).stop.toNat)).flatten ∧ hostOk a (p64 c 8) b.length = true := by
  refine ⟨adm (leBytes 2 0x1000 ++ zeros 6 ++ leBytes 8 0x7000), memReady, _, _, begun_of (by decide +kernel) (by decide +kernel) (by decide +kernel) (by decide +kernel) (by decide +kernel), ?_, rfl, ?_⟩ <;> first | decide +kernel | rfl

/-- A state and operands that meet the hypotheses of clause 10 of ObservationRows. -/
theorem wit_ObservationRows_10 :
    ∃ (c : Cmd) (s a : State), Begun { op := 0x0C05, need := 18, refuse := traceRefused } c s a ∧ p8 c 0 ≤ 5 ∧ (p8 c 4 = 0 ∨ (10 ≤ p8 c 4 ∧ p8 c 4 ≤ 24)) ∧ p8 c 5 ≤ 15 ∧ 16 ≤ p8 c 17 ∧ p8 c 17 ≤ 30 ∧ p64 c 8 % 64 = 0 ∧ (bit (p8 c 16) 0 = true ∨ isDpa (p64 c 8) = true) ∧ traceClaimed a (p8 c 0) c.fn = true := by
  refine ⟨traceCmd, claimed (mkRes 2 0) 1, _, begun_of (by decide +kernel) (by decide +kernel) (by decide +kernel) (by decide +kernel) (by decide +kernel), ?_, ?_, ?_, ?_, ?_, ?_, ?_, ?_⟩ <;> first | decide +kernel | exact .inr (by decide +kernel)

/-- A state and operands that meet the hypotheses of clause 14 of ObservationRows. -/
theorem wit_ObservationRows_14 :
    ∃ (c : Cmd) (s a : State), Begun { op := 0x0C06, need := 2, refuse := traceRefused } c s a ∧ p8 c 0 ≤ 5 ∧ p8 c 1 = 1 ∧ traceClaimed a (p8 c 0) c.fn = true ∧ (mget {} a.obs.traces (p8 c 0)).configured = true := by
  refine ⟨par [0, 1], tracing (claimed (mkRes 2 0) 1) trace0, _, begun_of (by decide +kernel) (by decide +kernel) (by decide +kernel) (by decide +kernel) (by decide +kernel), ?_, ?_, ?_, ?_⟩ <;> first | decide +kernel | rfl

/-- A state and operands that meet the hypotheses of clause 15 of ObservationRows. -/
theorem wit_ObservationRows_15 :
    ∃ (c : Cmd) (s a : State), Begun { op := 0x0C06, need := 2, refuse := traceRefused } c s a ∧ p8 c 0 ≤ 5 ∧ p8 c 1 = 1 ∧ traceClaimed a (p8 c 0) c.fn = false := by
  refine ⟨par [0, 1], tracing memReady trace0, _, begun_of (by decide +kernel) (by decide +kernel) (by decide +kernel) (by decide +kernel) (by decide +kernel), ?_, ?_, ?_⟩ <;> first | decide +kernel | rfl

/-- A state and operands that meet the hypotheses of clause 16 of ObservationRows. -/
theorem wit_ObservationRows_16 :
    ∃ (c : Cmd) (s a : State), Begun { op := 0x0C06, need := 2, refuse := traceRefused } c s a ∧ p8 c 0 ≤ 5 ∧ p8 c 1 = 2 ∧ (mget {} a.obs.traces (p8 c 0)).configured = true := by
  refine ⟨par [0, 2], tracing memReady { trace0 with recording := true }, _, begun_of (by decide +kernel) (by decide +kernel) (by decide +kernel) (by decide +kernel) (by decide +kernel), ?_, ?_, ?_⟩ <;> first | decide +kernel | rfl

/-- A state and operands that meet the hypotheses of clause 17 of ObservationRows. -/
theorem wit_ObservationRows_17 :
    ∃ (c : Cmd) (s a : State), Begun { op := 0x0C06, need := 2, refuse := traceRefused } c s a ∧ p8 c 0 ≤ 5 ∧ p8 c 1 = 3 ∧ (mget {} a.obs.traces (p8 c 0)).configured = true ∧ (mget {} a.obs.traces (p8 c 0)).pend ≠ [] := by
  refine ⟨par [0, 3], tracing memReady { trace0 with pend := [zeros 16] }, _, begun_of (by decide +kernel) (by decide +kernel) (by decide +kernel) (by decide +kernel) (by decide +kernel), ?_, ?_, ?_, ?_⟩ <;> first | decide +kernel | rfl

/-- A state and operands that meet the hypotheses of clause 18 of ObservationRows. -/
theorem wit_ObservationRows_18 :
    ∃ (c : Cmd) (s a : State), Begun { op := 0x0C06, need := 2, refuse := traceRefused } c s a ∧ p8 c 0 ≤ 5 ∧ p8 c 1 = 3 ∧ (mget {} a.obs.traces (p8 c 0)).configured = true ∧ (mget {} a.obs.traces (p8 c 0)).pend = [] := by
  refine ⟨par [0, 3], tracing memReady trace0, _, begun_of (by decide +kernel) (by decide +kernel) (by decide +kernel) (by decide +kernel) (by decide +kernel), ?_, ?_, ?_, ?_⟩ <;> first | decide +kernel | (intro p n h; cases h) | rfl | exact .inl (by decide +kernel) | exact .inr (by decide +kernel) | (intro h; exact absurd h (by decide +kernel))

/-- A state and operands that meet the hypotheses of clause 20 of ObservationRows. -/
theorem wit_ObservationRows_20 :
    ∃ (c : Cmd) (s a : State) (l : List Nat), Begun { op := 0x0C07, need := 9, part := some 0 } c s a ∧ p8 c 0 ≤ 3 ∧ l = (List.range 8).map (fun k => p8 c (1 + k)) ∧ l.any (fun i => decide (i > 47)) = false := by
  refine ⟨par [0, 1, 2, 3, 4, 5, 6, 7, 47], memReady, _, _, begun_of (by decide +kernel) (by decide +kernel) (by decide +kernel) (by decide +kernel) (by decide +kernel), ?_, rfl, ?_⟩ <;> first | decide +kernel | rfl

/-- A state and operands that meet the hypotheses of clause 22 of ObservationRows. -/
theorem wit_ObservationRows_22 :
    ∃ (c : Cmd) (s a : State) (b : List Byte), Begun { op := 0x0C08, need := 16, part := some 0 } c s a ∧ p8 c 0 ≤ 3 ∧ b = padTo 4096 (mget [] a.obs.ranges (p8 c 0)).flatten ∧ hostOk a (p64 c 8) 4096 = true := by
  refine ⟨par (zeros 8 ++ leBytes 8 0x7000), memReady, _, _, begun_of (by decide +kernel) (by decide +kernel) (by decide +kernel) (by decide +kernel) (by decide +kernel), ?_, rfl, ?_⟩ <;> first | decide +kernel | rfl

/-- A state and operands that meet the hypotheses of clause 23 of ObservationRows. -/
theorem wit_ObservationRows_23 :
    ∃ (c : Cmd) (s a : State) (w : Watch), Begun { op := 0x0C09, need := 24, part := some 0 } c s a ∧ p8 c 0 ≤ 3 ∧ p8 c 1 ≤ 63 ∧ p64 c 8 % 64 = 0 ∧ p64 c 16 % 64 = 0 ∧ (bit (p16 c 2) 11 = false ∨ stepClaimed a (p8 c 0) c.fn = true) ∧ w = { bits := BitVec.ofNat 16 (p16 c 2), base := p64 c 8, len := p64 c 16 } := by
  refine ⟨par ([0, 1, 3, 0] ++ zeros 4 ++ leBytes 8 0x1000 ++ leBytes 8 64), memReady, _, _, begun_of (by decide +kernel) (by decide +kernel) (by decide +kernel) (by decide +kernel) (by decide +kernel), ?_, ?_, ?_, ?_, ?_, rfl⟩ <;> first | decide +kernel | rfl | exact .inl (by decide +kernel) | exact .inr (by decide +kernel) | (intro h; exact absurd h (by decide +kernel))

/-- A state and operands that meet the hypotheses of clause 24 of ObservationRows. -/
theorem wit_ObservationRows_24 :
    ∃ (c : Cmd) (s a : State), Begun { op := 0x0C09, need := 24, part := some 0 } c s a ∧ p8 c 0 ≤ 3 ∧ p8 c 1 ≤ 63 ∧ p64 c 8 % 64 = 0 ∧ p64 c 16 % 64 = 0 ∧ bit (p16 c 2) 11 = true ∧ stepClaimed a (p8 c 0) c.fn = false := by
  refine ⟨par ([0, 1, 0, 8] ++ zeros 4 ++ leBytes 8 0x1000 ++ leBytes 8 64), memReady, _, begun_of (by decide +kernel) (by decide +kernel) (by decide +kernel) (by decide +kernel) (by decide +kernel), ?_, ?_, ?_, ?_, ?_, ?_⟩ <;> first | decide +kernel | rfl

/-- A state and operands that meet the hypotheses of clause 26 of ObservationRows. -/
theorem wit_ObservationRows_26 :
    ∃ (c : Cmd) (s a : State), Begun { op := 0x0C0A, need := 32, part := some 17 } c s a ∧ p8 c 17 ≤ 3 ∧ configured a (p8 c 17) = true ∧ p8 c 16 ≤ 6 ∧ p64 c 8 ≠ 0 ∧ p64 c 8 ≤ 1099511627776 ∧ p64 c 8 % 64 = 0 ∧ p64 c 0 % 64 = 0 ∧ isDpa (p64 c 0) = true ∧ digestOwner a (p8 c 17) c.fn = false := by
  refine ⟨digestCmd, memReady, _, begun_of (by decide +kernel) (by decide +kernel) (by decide +kernel) (by decide +kernel) (by decide +kernel), ?_, ?_, ?_, ?_, ?_, ?_, ?_, ?_, ?_⟩ <;> first | decide +kernel | rfl

/-- A state and operands that meet the hypotheses of clause 27 of ObservationRows. -/
theorem wit_ObservationRows_27 :
    ∃ (c : Cmd) (s a : State) (g : ArmedDigest), Begun { op := 0x0C0B, need := 40, part := some 0 } c s a ∧ p8 c 0 ≤ 3 ∧ p8 c 1 ≤ 7 ∧ bit (p8 c 2) 1 = false ∧ bit (p8 c 2) 0 = true ∧ configured a (p8 c 0) = true ∧ p8 c 24 ≤ 6 ∧ p64 c 16 ≠ 0 ∧ p64 c 16 ≤ 1099511627776 ∧ p64 c 16 % 64 = 0 ∧ p64 c 8 % 64 = 0 ∧ isDpa (p64 c 8) = true ∧ digestOwner a (p8 c 0) c.fn = true ∧ g = { enabled := true, marker := BitVec.ofNat 32 (p32 c 4), dpa := p64 c 8, len := p64 c 16, format := p8 c 24 } := by
  refine ⟨armCmd 1, claimed (mkRes 2 0) 3, _, _, begun_of (by decide +kernel) (by decide +kernel) (by decide +kernel) (by decide +kernel) (by decide +kernel), ?_, ?_, ?_, ?_, ?_, ?_, ?_, ?_, ?_, ?_, ?_, ?_, rfl⟩ <;> first | decide +kernel | rfl

/-- A state and operands that meet the hypotheses of clause 28 of ObservationRows. -/
theorem wit_ObservationRows_28 :
    ∃ (c : Cmd) (s a : State) (g : ArmedDigest), Begun { op := 0x0C0B, need := 40, part := some 0 } c s a ∧ p8 c 0 ≤ 3 ∧ p8 c 1 ≤ 7 ∧ bit (p8 c 2) 1 = false ∧ bit (p8 c 2) 0 = false ∧ g = { mget {} a.obs.digests (p8 c 0 * 8 + p8 c 1) with enabled := false } := by
  refine ⟨armCmd 0, memReady, _, _, begun_of (by decide +kernel) (by decide +kernel) (by decide +kernel) (by decide +kernel) (by decide +kernel), ?_, ?_, ?_, ?_, rfl⟩ <;> first | decide +kernel | rfl

/-- A state and operands that meet the hypotheses of clause 31 of ObservationRows. -/
theorem wit_ObservationRows_31 :
    ∃ (c : Cmd) (s a : State), Begun { op := 0x0C0C, need := 4, part := some 0 } c s a ∧ p8 c 0 ≤ 3 ∧ p8 c 1 = 1 ∧ p16 c 2 ≠ 0 ∧ stepClaimed a (p8 c 0) c.fn = true ∧ (mget {} a.stp.comps (p8 c 0)).enabled = false := by
  refine ⟨par [0, 1, 4, 0], claimed (mkRes 5 0) 2, _, begun_of (by decide +kernel) (by decide +kernel) (by decide +kernel) (by decide +kernel) (by decide +kernel), ?_, ?_, ?_, ?_, ?_⟩ <;> first | decide +kernel | rfl

/-- A state and operands that meet the hypotheses of clause 32 of ObservationRows. -/
theorem wit_ObservationRows_32 :
    ∃ (c : Cmd) (s a : State), Begun { op := 0x0C0C, need := 4, part := some 0 } c s a ∧ p8 c 0 ≤ 3 ∧ p8 c 1 = 1 ∧ p16 c 2 ≠ 0 ∧ stepClaimed a (p8 c 0) c.fn = true ∧ (mget {} a.stp.comps (p8 c 0)).enabled = true := by
  refine ⟨par [0, 1, 4, 0], setComp (claimed (mkRes 5 0) 2) 0 comp0, _, begun_of (by decide +kernel) (by decide +kernel) (by decide +kernel) (by decide +kernel) (by decide +kernel), ?_, ?_, ?_, ?_, ?_⟩ <;> first | decide +kernel | rfl

/-- A state and operands that meet the hypotheses of clause 33 of ObservationRows. -/
theorem wit_ObservationRows_33 :
    ∃ (c : Cmd) (s a : State), Begun { op := 0x0C0C, need := 4, part := some 0 } c s a ∧ p8 c 0 ≤ 3 ∧ p8 c 1 = 0 := by
  refine ⟨par [0, 0, 0, 0], memReady, _, begun_of (by decide +kernel) (by decide +kernel) (by decide +kernel) (by decide +kernel) (by decide +kernel), ?_, ?_⟩ <;> first | decide +kernel | rfl

/-- A state and operands that meet the hypotheses of clause 34 of ObservationRows. -/
theorem wit_ObservationRows_34 :
    ∃ (c : Cmd) (s a : State) (lim : Nat), Begun { op := 0x0C0D, need := 9, part := some 0 } c s a ∧ p8 c 0 ≤ 3 ∧ p8 c 8 ≠ 0 ∧ mfind a.obs.single (p8 c 0) = some lim := by
  refine ⟨par [0, 0, 0, 0, 8, 0, 0, 0, 1], { memReady with obs.single := [(0, 4)] }, _, 4, begun_of (by decide +kernel) (by decide +kernel) (by decide +kernel) (by decide +kernel) (by decide +kernel), ?_, ?_, ?_⟩ <;> first | decide +kernel | rfl

/-- A state and operands that meet the hypotheses of clause 35 of ObservationRows. -/
theorem wit_ObservationRows_35 :
    ∃ (c : Cmd) (s a : State), Begun { op := 0x0C0D, need := 9, part := some 0 } c s a ∧ p8 c 0 ≤ 3 ∧ p8 c 8 ≠ 0 ∧ mfind a.obs.single (p8 c 0) = none := by
  refine ⟨par [0, 0, 0, 0, 8, 0, 0, 0, 1], memReady, _, begun_of (by decide +kernel) (by decide +kernel) (by decide +kernel) (by decide +kernel) (by decide +kernel), ?_, ?_, ?_⟩ <;> first | decide +kernel | rfl

/-- A state and operands that meet the hypotheses of clause 37 of ObservationRows. -/
theorem wit_ObservationRows_37 :
    ∃ (c : Cmd) (s a : State), Begun { op := 0x0C0E, need := 16, refuse := unitRefused } c s a ∧ unitValid a (p16 c 0) = true ∧ hostOk a (p64 c 8) (blotterBytes a (p16 c 0)).length = true := by
  refine ⟨adm (leBytes 2 0x1000 ++ zeros 6 ++ leBytes 8 0x7000), memReady, _, begun_of (by decide +kernel) (by decide +kernel) (by decide +kernel) (by decide +kernel) (by decide +kernel), ?_, ?_⟩ <;> first | decide +kernel | rfl

/-- A state and operands that meet the hypotheses of clause 38 of ObservationRows. -/
theorem wit_ObservationRows_38 :
    ∃ (c : Cmd) (s a : State), Begun { op := 0x0C0F, need := 2, part := some 1 } c s a ∧ p8 c 0 = 1 ∧ (p8 c 1 ≤ 3 ∨ p8 c 1 = 255) := by
  refine ⟨par [1, 0], memReady, _, begun_of (by decide +kernel) (by decide +kernel) (by decide +kernel) (by decide +kernel) (by decide +kernel), ?_, ?_⟩ <;> first | decide +kernel | exact .inl (by decide +kernel)

/-- A state and operands that meet the hypotheses of clause 39 of ObservationRows. -/
theorem wit_ObservationRows_39 :
    ∃ (c : Cmd) (s a : State), Begun { op := 0x0C0F, need := 2, part := some 1 } c s a ∧ p8 c 0 = 2 ∧ (p8 c 1 ≤ 3 ∨ p8 c 1 = 255) := by
  refine ⟨par [2, 0], memReady, _, begun_of (by decide +kernel) (by decide +kernel) (by decide +kernel) (by decide +kernel) (by decide +kernel), ?_, ?_⟩ <;> first | decide +kernel | exact .inl (by decide +kernel)

/-- A state and operands that meet the hypotheses of clause 40 of ObservationRows. -/
theorem wit_ObservationRows_40 :
    ∃ (c : Cmd) (s a : State), Begun { op := 0x0C0F, need := 2, part := some 1 } c s a ∧ (p8 c 0 = 3 ∨ p8 c 0 = 4) ∧ p8 c 1 ≤ 3 := by
  refine ⟨par [3, 0], memReady, _, begun_of (by decide +kernel) (by decide +kernel) (by decide +kernel) (by decide +kernel) (by decide +kernel), ?_, ?_⟩ <;> first | decide +kernel | exact .inl (by decide +kernel)

/-- A state and operands that meet the hypotheses of clause 41 of ObservationRows. -/
theorem wit_ObservationRows_41 :
    ∃ (s : State) (n p q : Nat), (coreOf s n).job = some (p, q) ∧ n < coreCount s ∧ (mget {} s.obs.traces (coreQuad s n)).pcPeriod ≠ 0 ∧ ((coreOf s n).run = .running ∨ ((coreOf s n).run = .halted ∧ ((coreOf s n).stores ≠ [] ∨ (coreOf s n).xwrs ≠ []))) := by
  refine ⟨tracing sampled trace0, 0, 0, 3, ?_, ?_, ?_, ?_⟩ <;> first | decide +kernel | rfl | exact .inl (by decide +kernel) | exact .inr (by decide +kernel) | (intro h; exact absurd h (by decide +kernel))

/-- A state and operands that meet the hypotheses of clause 43 of ObservationRows. -/
theorem wit_ObservationRows_43 :
    ∃ (s : State) (i : Nat), burstDue s i (mget {} s.obs.traces i) = true ∧ 0 < mget 0 s.svc.trace (traceTier (mget {} s.obs.traces i)) := by
  refine ⟨tracing { memReady with svc := { memReady.svc with trace := [(0, 100)] } } { trace0 with pend := List.replicate 256 (zeros 16) }, 0, ?_, ?_⟩ <;> first | decide +kernel | rfl

/-- A state and operands that meet the hypotheses of clause 44 of ObservationRows. -/
theorem wit_ObservationRows_44 :
    ∃ (s : State) (i : Nat), (burstDue s i (mget {} s.obs.traces i) = false ∨ mget 0 s.svc.trace (traceTier (mget {} s.obs.traces i)) ≤ 0) := by
  refine ⟨{ memReady with svc := { memReady.svc with trace := [(0, 0), (1, 0)] } }, 0, ?_⟩ <;> first | decide +kernel | rfl | exact .inl (by decide +kernel) | exact .inr (by decide +kernel) | (intro h; exact absurd h (by decide +kernel))

/-- A state and operands that meet the hypotheses of clause 47 of ObservationRows. -/
theorem wit_ObservationRows_47 :
    ∃ (s : State) (p q lim : Nat) (x : CurCmd), mfind s.obs.single p = some lim ∧ (queueOf s p q).cur = some x ∧ x.freed = true ∧ x.late = false ∧ x.status = none ∧ x.since.toNat + lim * 65536 < (stamp s).toNat := by
  refine ⟨lateQueue, 0, 3, 4, { kernelCmd 0 with freed := true }, ?_, ?_, ?_, ?_, ?_, ?_⟩ <;> first | decide +kernel | rfl

/-- A state and operands that meet the hypotheses of clause 1 of ObservationRows. -/
theorem wit_ObservationRows_1 :
    ∃ (c : Cmd) (s a v : State) (b : List Byte) (st : Nat), Begun { op := 0x0C0A, need := 32, part := some 17 } c s a ∧ p8 c 17 ≤ 3 ∧ configured a (p8 c 17) = true ∧ p8 c 16 ≤ 6 ∧ p64 c 8 ≠ 0 ∧ p64 c 8 ≤ 1099511627776 ∧ p64 c 8 % 64 = 0 ∧ p64 c 0 % 64 = 0 ∧ isDpa (p64 c 0) = true ∧ digestOwner a (p8 c 17) c.fn = true ∧ digestHeld a (p8 c 17) (p64 c 0) (p64 c 8) = false ∧ digestTake a (p8 c 17) (p64 c 0) (p64 c 8) (p8 c 16) = (st, b, v) := by
  refine ⟨digestCmd, claimed (mkRes 2 0) 3, _, _, _, _, begun_of (by decide +kernel) (by decide +kernel) (by decide +kernel) (by decide +kernel) (by decide +kernel), ?_, ?_, ?_, ?_, ?_, ?_, ?_, ?_, ?_, ?_, eta_triple _⟩ <;> first | decide +kernel | (intro p n h; cases h) | rfl | exact .inl (by decide +kernel) | exact .inr (by decide +kernel) | (intro h; exact absurd h (by decide +kernel))

/-- A state and operands that meet the hypotheses of clause 6 of ObservationRows. -/
theorem wit_ObservationRows_6 :
    ∃ (c : Cmd) (s a : State), Begun { op := 0x0C02, need := 16, part := some 0 } c s a ∧ (3 < p8 c 0 ∨ 31 < p8 c 1) := by
  refine ⟨par ([4] ++ zeros 7 ++ leBytes 8 0x7000), memReady, _, begun_of (by decide +kernel) (by decide +kernel) (by decide +kernel) (by decide +kernel) (by decide +kernel), .inl (by decide +kernel)⟩

/-- A state and operands that meet the hypotheses of clause 7 of ObservationRows. -/
theorem wit_ObservationRows_7 :
    ∃ (c : Cmd) (s a : State), Begun { op := 0x0C03, need := 16, refuse := unitRefused } c s a ∧ unitValid a (p16 c 0) = true ∧ (7 < p8 c 2 ∨ p16 c 8 / 4096 ≠ p16 c 0 / 4096 ∨ eventListed (p16 c 8) = false ∨ (3 < p8 c 10 ∧ p8 c 10 ≠ 15)) := by
  refine ⟨adm (leBytes 2 0x1000 ++ [8] ++ zeros 5 ++ leBytes 2 0x1001 ++ [3, 0, 1, 0, 0, 0]), memReady, _, begun_of (by decide +kernel) (by decide +kernel) (by decide +kernel) (by decide +kernel) (by decide +kernel), ?_, .inl (by decide +kernel)⟩ <;> first | decide +kernel | (intro p n h; cases h) | rfl | exact .inl (by decide +kernel) | exact .inr (by decide +kernel) | (intro h; exact absurd h (by decide +kernel))

/-- A state and operands that meet the hypotheses of clause 11 of ObservationRows. -/
theorem wit_ObservationRows_11 :
    ∃ (c : Cmd) (s a : State), Begun { op := 0x0C05, need := 18, refuse := traceRefused } c s a ∧ (5 < p8 c 0 ∨ (p8 c 4 ≠ 0 ∧ (p8 c 4 < 10 ∨ 24 < p8 c 4)) ∨ 15 < p8 c 5 ∨ p8 c 17 < 16 ∨ 30 < p8 c 17) := by
  refine ⟨{ traceCmd with payload := traceCmd.payload.set 17 15 }, memReady, _, begun_of (by decide +kernel) (by decide +kernel) (by decide +kernel) (by decide +kernel) (by decide +kernel), ?_⟩ <;> first | decide +kernel | (intro p n h; cases h) | rfl | exact .inl (by decide +kernel) | exact .inr (by decide +kernel) | (intro h; exact absurd h (by decide +kernel))

/-- A state and operands that meet the hypotheses of clause 12 of ObservationRows. -/
theorem wit_ObservationRows_12 :
    ∃ (c : Cmd) (s a : State), Begun { op := 0x0C05, need := 18, refuse := traceRefused } c s a ∧ p8 c 0 ≤ 5 ∧ (p8 c 4 = 0 ∨ (10 ≤ p8 c 4 ∧ p8 c 4 ≤ 24)) ∧ p8 c 5 ≤ 15 ∧ 16 ≤ p8 c 17 ∧ p8 c 17 ≤ 30 := by
  refine ⟨traceCmd, memReady, _, begun_of (by decide +kernel) (by decide +kernel) (by decide +kernel) (by decide +kernel) (by decide +kernel), ?_, ?_, ?_, ?_, ?_⟩ <;> first | decide +kernel | (intro p n h; cases h) | rfl | exact .inl (by decide +kernel) | exact .inr (by decide +kernel) | (intro h; exact absurd h (by decide +kernel))

/-- A state and operands that meet the hypotheses of clause 13 of ObservationRows. -/
theorem wit_ObservationRows_13 :
    ∃ (c : Cmd) (s a : State), Begun { op := 0x0C06, need := 2, refuse := traceRefused } c s a ∧ (5 < p8 c 0 ∨ p8 c 1 = 0 ∨ 3 < p8 c 1) := by
  refine ⟨par [0, 0], memReady, _, begun_of (by decide +kernel) (by decide +kernel) (by decide +kernel) (by decide +kernel) (by decide +kernel), ?_⟩ <;> first | decide +kernel | (intro p n h; cases h) | rfl | exact .inl (by decide +kernel) | exact .inr (by decide +kernel) | (intro h; exact absurd h (by decide +kernel))

/-- A state and operands that meet the hypotheses of clause 19 of ObservationRows. -/
theorem wit_ObservationRows_19 :
    ∃ (c : Cmd) (s a : State), Begun { op := 0x0C06, need := 2, refuse := traceRefused } c s a ∧ p8 c 0 ≤ 5 ∧ p8 c 1 ≠ 0 ∧ p8 c 1 ≤ 3 ∧ (p8 c 1 = 1 → traceClaimed a (p8 c 0) c.fn = true) ∧ (mget {} a.obs.traces (p8 c 0)).configured = false := by
  refine ⟨par [0, 1], claimed (mkRes 2 0) 1, _, begun_of (by decide +kernel) (by decide +kernel) (by decide +kernel) (by decide +kernel) (by decide +kernel), ?_, ?_, ?_, (fun _ => by decide +kernel), ?_⟩ <;> first | decide +kernel | (intro p n h; cases h) | rfl | exact .inl (by decide +kernel) | exact .inr (by decide +kernel) | (intro h; exact absurd h (by decide +kernel))

/-- A state and operands that meet the hypotheses of clause 21 of ObservationRows. -/
theorem wit_ObservationRows_21 :
    ∃ (c : Cmd) (s a : State), Begun { op := 0x0C07, need := 9, part := some 0 } c s a ∧ (3 < p8 c 0 ∨ ((List.range 8).map (fun k => p8 c (1 + k))).any (fun i => decide (i > 47)) = true) := by
  refine ⟨par [0, 48, 2, 3, 4, 5, 6, 7, 47], memReady, _, begun_of (by decide +kernel) (by decide +kernel) (by decide +kernel) (by decide +kernel) (by decide +kernel), ?_⟩ <;> first | decide +kernel | (intro p n h; cases h) | rfl | exact .inl (by decide +kernel) | exact .inr (by decide +kernel) | (intro h; exact absurd h (by decide +kernel))

/-- A state and operands that meet the hypotheses of clause 25 of ObservationRows. -/
theorem wit_ObservationRows_25 :
    ∃ (c : Cmd) (s a v : State) (b : List Byte), Begun { op := 0x0C0A, need := 32, part := some 17 } c s a ∧ p8 c 17 ≤ 3 ∧ configured a (p8 c 17) = true ∧ p8 c 16 ≤ 6 ∧ p64 c 8 ≠ 0 ∧ p64 c 8 ≤ 1099511627776 ∧ p64 c 8 % 64 = 0 ∧ p64 c 0 % 64 = 0 ∧ isDpa (p64 c 0) = true ∧ digestOwner a (p8 c 17) c.fn = true ∧ digestHeld a (p8 c 17) (p64 c 0) (p64 c 8) = false ∧ (digestTake a (p8 c 17) (p64 c 0) (p64 c 8) (p8 c 16)).1 = St.ok ∧ b = (digestTake a (p8 c 17) (p64 c 0) (p64 c 8) (p8 c 16)).2.1 ∧ v = (digestTake a (p8 c 17) (p64 c 0) (p64 c 8) (p8 c 16)).2.2 ∧ hostOk v (p64 c 24) b.length = true := by
  refine ⟨digestCmd, claimed (mkRes 2 0) 3, _, _, _, begun_of (by decide +kernel) (by decide +kernel) (by decide +kernel) (by decide +kernel) (by decide +kernel), ?_, ?_, ?_, ?_, ?_, ?_, ?_, ?_, ?_, ?_, ?_, rfl, rfl, ?_⟩ <;> first | decide +kernel | (intro p n h; cases h) | rfl | exact .inl (by decide +kernel) | exact .inr (by decide +kernel) | (intro h; exact absurd h (by decide +kernel))

/-- A state and operands that meet the hypotheses of clause 29 of ObservationRows. -/
theorem wit_ObservationRows_29 :
    ∃ (c : Cmd) (s a : State), Begun { op := 0x0C0B, need := 40, part := some 0 } c s a ∧ p8 c 0 ≤ 3 ∧ p8 c 1 ≤ 7 ∧ bit (p8 c 2) 1 = true ∧ hostOk a (p64 c 32) 64 = true := by
  refine ⟨armCmd 2, memReady, _, begun_of (by decide +kernel) (by decide +kernel) (by decide +kernel) (by decide +kernel) (by decide +kernel), ?_, ?_, ?_, ?_⟩ <;> first | decide +kernel | (intro p n h; cases h) | rfl | exact .inl (by decide +kernel) | exact .inr (by decide +kernel) | (intro h; exact absurd h (by decide +kernel))

/-- A state and operands that meet the hypotheses of clause 30 of ObservationRows. -/
theorem wit_ObservationRows_30 :
    ∃ (c : Cmd) (s a : State), Begun { op := 0x0C0C, need := 4, part := some 0 } c s a ∧ p8 c 0 ≤ 3 ∧ p8 c 1 = 1 ∧ p16 c 2 ≠ 0 ∧ stepClaimed a (p8 c 0) c.fn = false := by
  refine ⟨par [0, 1, 4, 0], memReady, _, begun_of (by decide +kernel) (by decide +kernel) (by decide +kernel) (by decide +kernel) (by decide +kernel), ?_, ?_, ?_, ?_⟩ <;> first | decide +kernel | (intro p n h; cases h) | rfl | exact .inl (by decide +kernel) | exact .inr (by decide +kernel) | (intro h; exact absurd h (by decide +kernel))

/-- A state and operands that meet the hypotheses of clause 36 of ObservationRows. -/
theorem wit_ObservationRows_36 :
    ∃ (c : Cmd) (s a : State), Begun { op := 0x0C0E, need := 16, refuse := unitRefused } c s a ∧ unitValid a (p16 c 0) = false := by
  refine ⟨adm (leBytes 2 0xF000 ++ zeros 6 ++ leBytes 8 0x7000), memReady, _, begun_of (by decide +kernel) (by decide +kernel) (by decide +kernel) (by decide +kernel) (by decide +kernel), ?_⟩ <;> first | decide +kernel | (intro p n h; cases h) | rfl | exact .inl (by decide +kernel) | exact .inr (by decide +kernel) | (intro h; exact absurd h (by decide +kernel))

/-- A state and operands that meet the hypotheses of clause 42 of ObservationRows. -/
theorem wit_ObservationRows_42 :
    ∃ (s : State) (n : Nat), ((coreOf s n).job = none ∨ (mget {} s.obs.traces (coreQuad s n)).pcPeriod = 0) := by
  refine ⟨memReady, 0, ?_⟩ <;> first | decide +kernel | (intro p n h; cases h) | rfl | exact .inl (by decide +kernel) | exact .inr (by decide +kernel) | (intro h; exact absurd h (by decide +kernel))

/-- A state and operands that meet the hypotheses of clause 45 of ObservationRows. -/
theorem wit_ObservationRows_45 :
    ∃ (s : State) (i : Nat), ((mget {} s.obs.traces i).configured = false ∨ (mget {} s.obs.traces i).pend = []) := by
  refine ⟨memReady, 0, .inl (by decide +kernel)⟩

/-- A state and operands that meet the hypotheses of clause 46 of ObservationRows. -/
theorem wit_ObservationRows_46 :
    ∃ (s u v w : State) (i rd wr : Nat) (t : Trace) (rb : List Byte) (ps : List (Nat × List Byte)), t = mget {} s.obs.traces i ∧ t.configured = true ∧ t.pend ≠ [] ∧ ringRead s i t 8 8 = some (rb, u) ∧ rd = (if leNat rb < 64 ∨ leNat rb > 2 ^ t.log2 then 64 else leNat rb) ∧ placeRecords (2 ^ t.log2) (burstOf 4096 t.pend) t.wr rd = (ps, wr, []) ∧ writeRing u i t ps wr = some v ∧ t.pend.drop (burstOf 4096 t.pend).length ≠ [] ∧ w = (if t.host then chargeTrace v 0 ((ps.map (fun e => e.2.length)).sum) else v) := by
  refine ⟨tracing memReady { trace0 with host := true, pend := [zeros 16, zeros 4096] }, _, _, _, 0, _, _, _, _, _, rfl, ?_, ?_, some_pair (by decide +kernel), rfl, third_of (by decide +kernel), some_one (by decide +kernel), ?_, rfl⟩ <;> first | decide +kernel | (intro p n h; cases h) | rfl | exact .inl (by decide +kernel) | exact .inr (by decide +kernel) | (intro h; exact absurd h (by decide +kernel))

/-- A state and operands that meet the hypotheses of clause 48 of ObservationRows. -/
theorem wit_ObservationRows_48 :
    ∃ (s : State) (p q lim : Nat) (x : CurCmd), mfind s.obs.single p = some lim ∧ (queueOf s p q).cur = some x ∧ (x.freed = false ∨ x.late = true ∨ x.status.isSome = true ∨ (stamp s).toNat ≤ x.since.toNat + lim * 65536) := by
  refine ⟨{ lateQueue with rul := memReady.rul }, 0, 3, 4, { kernelCmd 0 with freed := true }, ?_, ?_, ?_⟩ <;> first | decide +kernel | (intro p n h; cases h) | rfl | exact .inl (by decide +kernel) | exact .inr (by decide +kernel) | (intro h; exact absurd h (by decide +kernel))

/-- A state and operands that meet the hypotheses of clause 49 of ObservationRows. -/
theorem wit_ObservationRows_49 :
    ∃ (s : State) (p q : Nat), (mfind s.obs.single p = none ∨ (queueOf s p q).cur = none) := by
  refine ⟨memReady, 0, 3, ?_⟩ <;> first | decide +kernel | (intro p n h; cases h) | rfl | exact .inl (by decide +kernel) | exact .inr (by decide +kernel) | (intro h; exact absurd h (by decide +kernel))

/-- A DPA's place in the example state. -/
theorem memReady_at : locate memReady 0x3FFFFFC0 = some (placeIn memReady .fast (regionEntry memReady .fast 0) 0x3FFFFFC0, regionEntry memReady .fast 0) := by
  decide +kernel

/-- A state and operands that meet the hypotheses of clause 2 of FoldTakesEachValueOnce. -/
theorem wit_FoldTakesEachValueOnce_2 :
    ∃ hi v : Nat, hi < 2 ^ 30 ∧ v < 1024 := by
  refine ⟨0x3FFFFFFF, 1023, ?_, ?_⟩ <;> decide +kernel

/-- A state and operands that meet the hypotheses of clause 1 of FullGranuleWriteSetsPoison. -/
theorem wit_FullGranuleWriteSetsPoison_1 :
    ∃ (s : State) (p : Place) (dpa : Nat) (d : List Byte) (poison : Bool) (rq : Nat), Safe s ∧ (chanOf s p.tier p.chan).failed = false ∧ p.chan < 256 ∧ p.off + 64 ≤ 2 ^ 40 ∧ d.length = 64 := by
  refine ⟨ready, { tier := .fast, chan := 255, off := 2 ^ 40 - 64 }, 0, zeros 64, true, 7, ?_, ?_, ?_, ?_, ?_⟩ <;> first | (unfold Safe; decide) | decide +kernel

/-- A state and operands that meet the hypotheses of clause 2 of FullGranuleWriteSetsPoison. -/
theorem wit_FullGranuleWriteSetsPoison_2 :
    ∃ (s : State) (rq : Requester) (dpa : Nat) (d : List Byte) (poison : Bool) (p : Place) (e cls : Nat), accessStatus s rq dpa = St.ok ∧ locate s dpa = some (p, e) ∧ eWindow e = false ∧ eStream e = false ∧ eFolded e = false ∧ d.length = 64 ∧ ((lineFind s dpa).isSome = true ∨ (makeRoom s (chanDie p.tier p.chan) (dpa / 256) (some cls)).isSome = true) := by
  refine ⟨memReady, .admin, 0x3FFFFFC0, zeros 64, true, placeIn memReady .fast (regionEntry memReady .fast 0) 0x3FFFFFC0, regionEntry memReady .fast 0, 1, ?_, memReady_at, ?_, ?_, ?_, ?_, .inr (by decide +kernel)⟩ <;> first | decide +kernel | (intro p n h; cases h) | rfl | exact .inl (by decide +kernel) | exact .inr (by decide +kernel) | (intro h; exact absurd h (by decide +kernel))

/-- A state and operands that meet the hypotheses of clause 3 of FullGranuleWriteSetsPoison. -/
theorem wit_FullGranuleWriteSetsPoison_3 :
    ∃ (s : State) (rq : Requester) (dpa : Nat) (d : List Byte) (poison : Bool) (p : Place) (e cls : Nat), accessStatus s rq dpa = St.ok ∧ locate s dpa = some (p, e) ∧ d.length = 64 ∧ (eWindow e = true ∨ eStream e = true ∨ eFolded e = true ∨ ((lineFind s dpa).isSome = false ∧ (makeRoom s (chanDie p.tier p.chan) (dpa / 256) (some cls)).isSome = false)) := by
  refine ⟨foldingBare, .admin, 0x40, zeros 64, true, placeIn foldingBare .fast 0xF06 0x40, 0xF06, 1, ?_, ?_, ?_, .inr (.inl (by decide +kernel))⟩ <;> first | decide +kernel | (intro p n h; cases h) | rfl | exact .inl (by decide +kernel) | exact .inr (by decide +kernel) | (intro h; exact absurd h (by decide +kernel))

/-- A state and operands that meet the hypotheses of clause 3 of StampReadLatchesUpperHalf. -/
theorem wit_StampReadLatchesUpperHalf_3 :
    ∃ (s : State) (fn size : Nat), size ≠ 4 := by
  refine ⟨ready, 0, 2, ?_⟩ <;> first | decide +kernel | rfl | exact .inl (by decide +kernel) | exact .inr (by decide +kernel) | (intro h; exact absurd h (by decide +kernel))

end Sys2Proof.Tests
end

section
/-! PROOFS. Links, loopback, groups and collectives (spec/12): what the row of each command answers once it has begun, case by case of its
checks, and what the rows of the events do; then O54, put together from them. -/

namespace Sys2Proof.Machine

/-! ### Records of a fixed length -/

@[simp] theorem linkEntry_length (s : State) (l : Nat) : (linkEntry s l).length = 64 := padTo_length 64 _

@[simp] theorem groupRecord_length (s : State) : (groupRecord s).length = 64 := padTo_length 64 _

/-- LINK_STATUS writes 16 entries of 64 B: the 1 KiB of its buffer (R379). -/
theorem linkEntries_length (s : State) : (((List.range 16).map (linkEntry s)).flatten).length = 1024 := by
  have hlen : List.length ∘ linkEntry s = fun _ => 64 := funext (linkEntry_length s)
  rw [List.length_flatten, List.map_map, hlen]
  rfl

/-! ### Answers of a chapter -/

theorem checked_nil {s : State} {r : Answer} : checked [] s r = r := rfl

section
variable {c : Cmd} {s a : State}

/-- Of a command that has begun, a row asks the chapter only for its answer in the state in which it began. -/
theorem firmware_congr {sp : FwSpec} {f g : Cmd → State → Answer} (h : Begun sp c s a) (e : f c a = g c a) :
    firmware sp f c s = firmware sp g c s := by
  rw [firmware_begun h, firmware_begun h, e]

/-! ### LINK_STATUS, LINK_SET, LINK_RESET, LINK_COUNTERS (R347, R350, R379) -/

theorem linkStatus_completes (h : Begun { op := 0x0A01, need := 8 } c s a) (hw : hostOk a (p64 c 0) 1024 = true) :
    Completes (.linkStatus c) c s (hostStore a (p64 c 0) (((List.range 16).map (linkEntry a)).flatten)) [] :=
  completes_of rfl h (reportTo_ok (by rwa [linkEntries_length]))

theorem linkSet_completes (h : Begun { op := 0x0A02, need := 16 } c s a) (hr : linkRecordBad (slice (body c) 0 16) = false)
    (hl : (parseLinkCfg (slice (body c) 0 16)).encReq = false ∨ encLicensed a = true) :
    Completes (.linkSet c) c s (applyLinkSet a (p8 c 0) (parseLinkCfg (slice (body c) 0 16))) [] := by
  have hlic : ((parseLinkCfg (slice (body c) 0 16)).encReq && !encLicensed a) = false := by
    rcases hl with hl | hl <;> simp [hl]
  exact completes_of rfl h ((checked_tail hr).trans (checked_tail hlic))

theorem linkSet_badRecord (h : Begun { op := 0x0A02, need := 16 } c s a) (hr : linkRecordBad (slice (body c) 0 16) = true) :
    exec (.linkSet c) s = .next (complete a c St.invalidField []) :=
  ends_of rfl h (checked_head hr)

theorem linkSet_unlicensed (h : Begun { op := 0x0A02, need := 16 } c s a) (hr : linkRecordBad (slice (body c) 0 16) = false)
    (he : (parseLinkCfg (slice (body c) 0 16)).encReq = true) (hl : encLicensed a = false) :
    exec (.linkSet c) s = .next (complete a c St.notLicensed []) :=
  ends_of rfl h ((checked_tail hr).trans (checked_head (by simp [he, hl])))

/-- How a stored record acts on its link, from the state `u` in which it is stored: by the link's state, then by ENABLE. -/
theorem applyLinkSet_from {u : State} {l : Nat} {g : LinkCfg}
    (hu : u = storeSection (setLink s l { linkOf s l with cfg := g }) secLinks (linksBody (setLink s l { linkOf s l with cfg := g }))) :
    applyLinkSet s l g =
      if (linkOf u l).st = lkLoopback then u
      else if !g.enable then disable u l 0x24
      else if (linkOf u l).st = lkFenced then u
      else trainStart u l 0x24 := by
  subst hu
  rfl

theorem applyLinkSet_cases {u : State} {l : Nat} {g : LinkCfg}
    (hu : u = storeSection (setLink s l { linkOf s l with cfg := g }) secLinks (linksBody (setLink s l { linkOf s l with cfg := g }))) :
    ((linkOf u l).st = lkLoopback → applyLinkSet s l g = u) ∧
    ((linkOf u l).st ≠ lkLoopback → g.enable = false → applyLinkSet s l g = disable u l 0x24) ∧
    ((linkOf u l).st = lkFenced → g.enable = true → applyLinkSet s l g = u) ∧
    ((linkOf u l).st ≠ lkLoopback → (linkOf u l).st ≠ lkFenced → g.enable = true → applyLinkSet s l g = trainStart u l 0x24) := by
  rw [applyLinkSet_from hu]
  refine ⟨fun hb => if_pos hb, fun hb he => ?disabled, fun hf he => ?fenced, fun hb hf he => ?trains⟩
  case disabled => rw [if_neg hb, if_pos (by simp [he])]
  case fenced => rw [if_neg (by rw [hf]; decide), if_neg (by simp [he]), if_pos hf]
  case trains => rw [if_neg hb, if_neg (by simp [he]), if_neg hf]

theorem linkReset_completes (h : Begun { op := 0x0A03, need := 2 } c s a) :
    Completes (.linkReset c) c s ((bitList 16 (p16 c 0)).foldl (fun s l =>
      if (linkOf s l).st = lkDisabled ∨ (linkOf s l).st = lkFenced then trainStart s l 0 else s) a) [] :=
  completes_of rfl h rfl

theorem linkCounters_completes (h : Begun { op := 0x0A0A, need := 16 } c s a) (hl : p8 c 0 ≤ 15)
    (hw : hostOk a (p64 c 8) (((linkOf a (p8 c 0)).ctr.map (leBytes 8)).flatten).length = true) :
    Completes (.linkCounters c) c s (hostStore a (p64 c 8) (((linkOf a (p8 c 0)).ctr.map (leBytes 8)).flatten)) [] :=
  completes_of rfl h ((checked_tail (by simpa using hl)).trans (reportTo_ok hw))

/-! ### LINK_LOOPBACK and LOOPBACK_END (R350, R379, log 42) -/

/-- The field check that LINK_LOOPBACK makes first finds nothing in a legal link, mode and duration. -/
theorem loopbackFields_legal (hl : p8 c 0 ≤ 15) (hm : p8 c 1 ≤ 1) (hd : p16 c 2 ≠ 0) :
    (decide (p8 c 0 > 15) || decide (p8 c 1 > 1) || p16 c 2 == 0) = false := by
  simp [hl, hm, hd]

theorem linkLoopback_waits (h : Begun { op := 0x0A04, need := 16 } c s a) (hl : p8 c 0 ≤ 15) (hm : p8 c 1 ≤ 1) (hd : p16 c 2 ≠ 0)
    (hc : holds a (linkRes (p8 c 0)) 2 c.fn = true) (hs : (linkOf a (p8 c 0)).st = lkDisabled) :
    Waits (.linkLoopback c) 0x0A04 c s (linkMove a (p8 c 0) lkLoopback 0) (.loopback (p8 c 0)) :=
  waits_of rfl h ((checked_tail (loopbackFields_legal hl hm hd)).trans
    ((checked_tail (by simp [hc])).trans (checked_tail (by simp [hs]))))

theorem linkLoopback_unclaimed (h : Begun { op := 0x0A04, need := 16 } c s a) (hl : p8 c 0 ≤ 15) (hm : p8 c 1 ≤ 1) (hd : p16 c 2 ≠ 0)
    (hc : holds a (linkRes (p8 c 0)) 2 c.fn = false) :
    exec (.linkLoopback c) s = .next (complete a c St.notClaimed []) :=
  ends_of rfl h ((checked_tail (loopbackFields_legal hl hm hd)).trans (checked_head (by simp [hc])))

theorem linkLoopback_notDisabled (h : Begun { op := 0x0A04, need := 16 } c s a) (hl : p8 c 0 ≤ 15) (hm : p8 c 1 ≤ 1)
    (hd : p16 c 2 ≠ 0) (hc : holds a (linkRes (p8 c 0)) 2 c.fn = true) (hs : (linkOf a (p8 c 0)).st ≠ lkDisabled) :
    exec (.linkLoopback c) s = .next (complete a c St.linkState []) :=
  ends_of rfl h ((checked_tail (loopbackFields_legal hl hm hd)).trans
    ((checked_tail (by simp [hc])).trans (checked_head (by simp [hs]))))

section
variable {u : State} {l corrected uncorrectable received : Nat} {r : Running}

/-- LOOPBACK_END's condition, in the form in which its row tests it. -/
theorem loopback_underWay (hl : l < 16) (hs : (linkOf s l).st = lkLoopback) : ¬ (l ≥ 16 ∨ (linkOf s l).st ≠ lkLoopback) := by
  simp [hl, hs]

section
variable (hl : l < 16) (hs : (linkOf s l).st = lkLoopback)
  (hr : (linkMove s l lkDisabled 0).ink.running.find? (fun r => r.wait == .loopback l) = some r)
include hl hs hr

theorem loopbackEnd_writes
    (hw : hostWrite? (linkMove s l lkDisabled 0) (p64 r.cmd 8) (loopbackRecord corrected uncorrectable received) = some u) :
    exec (.loopbackEnd l corrected uncorrectable received) s = .next (finishWait u (.loopback l) St.ok []) := by
  change execLoopbackEnd l corrected uncorrectable received s = _
  simp only [execLoopbackEnd, if_neg (loopback_underWay hl hs), hr, hw]

theorem loopbackEnd_hostFault
    (hw : hostWrite? (linkMove s l lkDisabled 0) (p64 r.cmd 8) (loopbackRecord corrected uncorrectable received) = none) :
    exec (.loopbackEnd l corrected uncorrectable received) s =
      .next (finishWait (linkMove s l lkDisabled 0) (.loopback l) St.hostFault []) := by
  change execLoopbackEnd l corrected uncorrectable received s = _
  simp only [execLoopbackEnd, if_neg (loopback_underWay hl hs), hr, hw]

end

theorem loopbackEnd_noRun (hs : (linkOf s l).st ≠ lkLoopback) :
    exec (.loopbackEnd l corrected uncorrectable received) s = .next s := by
  change execLoopbackEnd l corrected uncorrectable received s = _
  simp only [execLoopbackEnd, if_pos (show l ≥ 16 ∨ (linkOf s l).st ≠ lkLoopback from .inr hs)]

end

/-! ### GROUP_CONFIG, GROUP_REJOIN, GROUP_STATUS (R367, R368, R379) -/

section
variable (h : Begun { op := 0x0A05, need := 4162, ext := true, full := fun _ c => 4160 + 2 * p16 c 6 } c s a)
include h

theorem groupConfig_completes (hb : groupBad ((body c).take (4160 + 2 * p16 c 6)) = false) (hc : a.duc.colls = []) :
    Completes (.groupConfig c) c s (applyGroup a ((body c).take (4160 + 2 * p16 c 6))) [] :=
  completes_of rfl h ((checked_tail hb).trans (checked_tail (by simp [hc])))

theorem groupConfig_badRecord (hb : groupBad ((body c).take (4160 + 2 * p16 c 6)) = true) :
    exec (.groupConfig c) s = .next (complete a c St.invalidField []) :=
  ends_of rfl h (checked_head hb)

theorem groupConfig_busy (hb : groupBad ((body c).take (4160 + 2 * p16 c 6)) = false) (hc : a.duc.colls ≠ []) :
    exec (.groupConfig c) s = .next (complete a c St.groupBusy []) :=
  ends_of rfl h ((checked_tail hb).trans (checked_head (by simp [hc])))

end

section
variable {g : Group} (h : Begun { op := 0x0A06, need := 2 } c s a)
include h

theorem groupRejoin_waits (hg : a.duc.group = some g) (hq : (bitList 16 (p16 c 0)).any (fun l => (linkOf a l).st != lkQuarantine) = false)
    (hn : bitList 16 (p16 c 0) ≠ []) :
    Waits (.groupRejoin c) 0x0A06 c s ((bitList 16 (p16 c 0)).foldl
      (fun s l => sendConcord (setLink s l { linkOf s l with rejoin := true }) l false) a) (.rejoin (p16 c 0)) :=
  waits_of rfl h ((checked_tail (by simp [hg])).trans ((checked_tail hq).trans (checked_nil.trans (if_neg (by simp [hn])))))

theorem groupRejoin_noGroup (hg : a.duc.group = none) : exec (.groupRejoin c) s = .next (complete a c St.notInGroup []) :=
  ends_of rfl h (checked_head (by simp [hg]))

theorem groupRejoin_notQuarantined (hg : a.duc.group = some g)
    (hq : (bitList 16 (p16 c 0)).any (fun l => (linkOf a l).st != lkQuarantine) = true) :
    exec (.groupRejoin c) s = .next (complete a c St.linkState []) :=
  ends_of rfl h ((checked_tail (by simp [hg])).trans (checked_head hq))

theorem groupRejoin_noLinks (hg : a.duc.group = some g) (hn : bitList 16 (p16 c 0) = []) : Completes (.groupRejoin c) c s a [] :=
  completes_of rfl h ((checked_tail (by simp [hg])).trans
    ((checked_tail (by simp [hn])).trans (checked_nil.trans (if_pos (by simp [hn])))))

end

theorem groupStatus_completes (h : Begun { op := 0x0A07, need := 8 } c s a) (hw : hostOk a (p64 c 0) 64 = true) :
    Completes (.groupStatus c) c s (hostStore a (p64 c 0) (groupRecord a)) [] :=
  completes_of rfl h (reportTo_ok (by rwa [groupRecord_length]))

/-! ### COLL_START and COLL_ABORT (R371, R373, R378, R379) -/

/-- What COLL_START answers to a descriptor `x` whose ID no abort is remembered for: its checks in order, then the early COLL_READYs. -/
def collStartChecks (x : Coll) (s : State) : Answer :=
  checked [(s.duc.group.isNone, St.notInGroup), (collBad s x, St.collFormat), (decide (s.duc.colls.length ≥ 16), St.resourceExhausted)] s
    (if earlyMismatch s x then
      .done St.collMismatch [] (collFail { s with duc.colls := s.duc.colls ++ [x] } x.id St.collMismatch)
    else .wait (.collective x.id) { s with duc.colls := s.duc.colls ++ [x] })

/-- A descriptor that passes every check: the COLL_READYs that came before it decide. -/
theorem collStartChecks_pass {x : Coll} {g : Group} (hg : a.duc.group = some g) (hb : collBad a x = false)
    (hn : a.duc.colls.length < 16) :
    collStartChecks x a = if earlyMismatch a x then
        .done St.collMismatch [] (collFail { a with duc.colls := a.duc.colls ++ [x] } x.id St.collMismatch)
      else .wait (.collective x.id) { a with duc.colls := a.duc.colls ++ [x] } :=
  checked_pass (by simp [hg, hb, hn])

section
variable {x : Coll} {g : Group} {st : BitVec 16}
  (h : Begun { op := 0x0A08, need := 64, ext := true, full := fun _ c => 64 + 2 * p16 c 10 } c s a)
include h

/-- Outside a group, or with an ID that no abort is remembered for, the checks decide COLL_START. -/
theorem collStart_of_unaborted
    (hu : a.duc.group = none ∨ a.duc.aborted.find? (fun e => e.1 == (parseColl (body c)).id) = none) :
    exec (.collStart c) s = .next (firmware { op := 0x0A08, need := 64, ext := true, full := fun _ c => 64 + 2 * p16 c 10 }
      (fun c s => collStartChecks (parseColl (body c)) s) c s) := by
  have hn : (if a.duc.group.isSome then a.duc.aborted.find? (fun e => e.1 == (parseColl (body c)).id) else none) = none := by
    rcases hu with hu | hu <;> simp [hu]
  refine congrArg Host.Outcome.next (firmware_congr h ?_)
  simp only [hn]
  rfl

theorem collStart_noGroup (hg : a.duc.group = none) : exec (.collStart c) s = .next (complete a c St.notInGroup []) :=
  ends_of (collStart_of_unaborted h (.inl hg)) h (checked_head (by simp [hg]))

theorem collStart_aborted (hx : x = parseColl (body c)) (hg : a.duc.group = some g)
    (ha : a.duc.aborted.find? (fun e => e.1 == x.id) = some (x.id, st)) :
    exec (.collStart c) s = .next (complete (if x.doneTally < 16384 then collSignal a x else a) c st.toNat []) := by
  subst hx
  exact ends_of rfl h (by simp only [hg, ha, Option.isSome_some, if_true])

section
variable (hx : x = parseColl (body c)) (hg : a.duc.group = some g) (ha : a.duc.aborted.find? (fun e => e.1 == x.id) = none)
include hx hg ha

theorem collStart_badFormat (hb : collBad a x = true) : exec (.collStart c) s = .next (complete a c St.collFormat []) := by
  subst hx
  exact ends_of (collStart_of_unaborted h (.inr ha)) h ((checked_tail (by simp [hg])).trans (checked_head hb))

theorem collStart_full (hb : collBad a x = false) (hn : 16 ≤ a.duc.colls.length) :
    exec (.collStart c) s = .next (complete a c St.resourceExhausted []) := by
  subst hx
  exact ends_of (collStart_of_unaborted h (.inr ha)) h
    ((checked_tail (by simp [hg])).trans ((checked_tail hb).trans (checked_head (decide_eq_true hn))))

theorem collStart_mismatch (hb : collBad a x = false) (hn : a.duc.colls.length < 16) (he : earlyMismatch a x = true) :
    exec (.collStart c) s =
      .next (complete (collFail { a with duc.colls := a.duc.colls ++ [x] } x.id St.collMismatch) c St.collMismatch []) := by
  subst hx
  exact ends_of (collStart_of_unaborted h (.inr ha)) h ((collStartChecks_pass hg hb hn).trans (if_pos he))

theorem collStart_waits (hb : collBad a x = false) (hn : a.duc.colls.length < 16) (he : earlyMismatch a x = false) :
    Waits (.collStart c) 0x0A08 c s { a with duc.colls := a.duc.colls ++ [x] } (.collective x.id) := by
  subst hx
  exact waits_of (collStart_of_unaborted h (.inr ha)) h ((collStartChecks_pass hg hb hn).trans (if_neg (by simp [he])))

end
end

section
variable {x : Coll} (h : Begun { op := 0x0A09, need := 4 } c s a)
include h

theorem collAbort_completes (hx : collOf a (p32 c 0) = some x) :
    Completes (.collAbort c) c s (collFail a (p32 c 0) St.aborted) [] :=
  completes_of rfl h (checked_tail (by simp [hx]))

theorem collAbort_unknown (hx : collOf a (p32 c 0) = none) : exec (.collAbort c) s = .next (complete a c St.invalidField []) :=
  ends_of rfl h (checked_head (by simp [hx]))

end
end

/-! ### COLLECTIVE_BEGIN and COLL_TIMEOUT (R371, R376) -/

section
variable {s : State} {id : Nat} {x : Coll} (hx : collOf s id = some x)
include hx

/-- The start condition of a collective is judged at its row. -/
theorem collectiveBegin_of_active :
    exec (.collectiveBegin id) s =
      .next (if !x.begun && (x.startTally == 0xFFFF || waitHolds (tallyGet s x.startTally) x.startTarget false) then
        collBegin s id else s) := by
  change execCollectiveBegin id s = _
  simp only [execCollectiveBegin, hx]

theorem collectiveBegin_atOnce (hb : x.begun = false) (ht : x.startTally = 0xFFFF) :
    exec (.collectiveBegin id) s = .next (collBegin s id) := by
  rw [collectiveBegin_of_active hx, if_pos (by simp [hb, ht])]

theorem collectiveBegin_satisfied (hb : x.begun = false) (hw : waitHolds (tallyGet s x.startTally) x.startTarget false = true) :
    exec (.collectiveBegin id) s = .next (collBegin s id) := by
  rw [collectiveBegin_of_active hx, if_pos (by simp [hb, hw])]

theorem collectiveBegin_unsatisfied (ht : x.startTally ≠ 0xFFFF) (hw : waitHolds (tallyGet s x.startTally) x.startTarget false = false) :
    exec (.collectiveBegin id) s = .next s := by
  rw [collectiveBegin_of_active hx, if_neg (by simp [ht, hw])]

/-- The progress clock of a collective is judged at its row. -/
theorem collTimeout_of_active :
    exec (.collTimeout id) s =
      .next (if x.begun && decide ((stamp s).toNat ≥ x.progress.toNat + effTimeout s (declaredShare s) x) then
        collFail s id St.collTimeout else s) := by
  change execCollTimeout id s = _
  simp only [execCollTimeout, hx]

theorem collTimeout_reached (hb : x.begun = true) (ht : x.progress.toNat + effTimeout s (declaredShare s) x ≤ (stamp s).toNat) :
    exec (.collTimeout id) s = .next (collFail s id St.collTimeout) := by
  rw [collTimeout_of_active hx, if_pos (by simp [hb, ht])]

theorem collTimeout_early (ht : (stamp s).toNat < x.progress.toNat + effTimeout s (declaredShare s) x) :
    exec (.collTimeout id) s = .next s := by
  rw [collTimeout_of_active hx, if_neg (by simp [ht])]

end

/-! ### O54 -/

/-- Settles O54: a command's clause is its row's answer in the case of its checks, an event's the case of its condition. -/
theorem linkCommandRows : Obligations.LinkCommandRows :=
  ⟨fun _ _ _ => linkStatus_completes,
   fun _ _ _ => linkSet_completes,
   fun _ _ _ => linkSet_badRecord,
   fun _ _ _ => linkSet_unlicensed,
   fun _ _ _ _ => applyLinkSet_cases,
   fun _ _ _ => linkReset_completes,
   fun _ _ _ => linkLoopback_waits,
   fun _ _ _ => linkLoopback_unclaimed,
   fun _ _ _ => linkLoopback_notDisabled,
   fun _ _ _ _ _ _ _ => loopbackEnd_writes,
   fun _ _ _ _ _ _ => loopbackEnd_hostFault,
   fun _ _ _ _ _ => loopbackEnd_noRun,
   fun _ _ _ => linkCounters_completes,
   fun _ _ _ _ h hb => hb ▸ groupConfig_completes h,
   fun _ _ _ => groupConfig_badRecord,
   fun _ _ _ => groupConfig_busy,
   fun _ _ _ _ => groupRejoin_waits,
   fun _ _ _ => groupRejoin_noGroup,
   fun _ _ _ _ => groupRejoin_notQuarantined,
   fun _ _ _ _ => groupRejoin_noLinks,
   fun _ _ _ => groupStatus_completes,
   fun _ _ _ _ _ => collStart_waits,
   fun _ _ _ => collStart_noGroup,
   fun _ _ _ _ _ h hx hg ha =>
     ⟨collStart_badFormat h hx hg ha, collStart_full h hx hg ha, collStart_mismatch h hx hg ha⟩,
   fun _ _ _ _ _ _ => collStart_aborted,
   fun _ _ _ _ => collAbort_completes,
   fun _ _ _ => collAbort_unknown,
   fun _ _ _ => collectiveBegin_atOnce,
   fun _ _ _ hx hb _ hw => collectiveBegin_satisfied hx hb hw,
   fun _ _ _ hx _ ht hw => collectiveBegin_unsatisfied hx ht hw,
   fun _ _ _ => collTimeout_reached,
   fun _ _ _ hx _ ht => collTimeout_early hx ht⟩

end Sys2Proof.Machine
end

section
/-! PROOFS. The passing of time on an idle block (R27, R28, R128, R129): a tick moves time, the tick field and the token buckets, and all
that it records are counts; then O2. -/

namespace Sys2Proof.Machine

/-- What every turn of a fold keeps, the fold keeps. -/
theorem foldl_keeps {α β : Type} (g : State → β) {f : State → α → State} (l : List α) (s : State) (h : ∀ s x, g (f s x) = g s) :
    g (l.foldl f s) = g s :=
  List.foldlRecOn (motive := fun t => g t = g s) l f rfl fun t ht x _ => (h t x).trans ht

/-! ### What the counters of a tick leave alone -/

/-- A state without what the counters of a tick change: the expanders, whose queue-full cycles count, and the counters of observation. -/
def uncounted (s : State) : State := { s with fold.exps := [], obs.ctr := [], obs.progs := [] }

/-- A state is what it is without its counters, with its counters. -/
theorem eq_of_uncounted {s t : State} (h : uncounted t = uncounted s) :
    t = { s with fold.exps := t.fold.exps, obs.ctr := t.obs.ctr, obs.progs := t.obs.progs } :=
  congrArg (fun u : State => { u with fold.exps := t.fold.exps, obs.ctr := t.obs.ctr, obs.progs := t.obs.progs }) h

theorem uncounted_bump (s : State) (p i n : Nat) : uncounted (bump s p i n) = uncounted s := by
  unfold bump
  split <;> rfl

theorem uncounted_prog (s : State) (unit event : Nat) (part cls : Option Nat) (n : Nat) :
    uncounted (prog s unit event part cls n) = uncounted s := by
  refine foldl_keeps uncounted _ s fun t k => ?_
  dsimp only
  split <;> rfl

theorem uncounted_tickExps (s : State) (cyc : Nat) : uncounted (tickExps s cyc) = uncounted s :=
  foldl_keeps uncounted _ s fun _ _ => uncounted_prog ..

/-- The expanders change only where a queue is full (R213). -/
theorem tickExps_of_room {s : State} (h : ∀ e ∈ s.fold.exps, e.2.queue.length < 48) (cyc : Nat) : tickExps s cyc = s := by
  have hnone : s.fold.exps.filter (fun e => decide (e.2.queue.length ≥ 48)) = [] := by
    simpa [List.filter_eq_nil_iff] using h
  simp [tickExps, hnone]

section
variable {β : Type} (g : State → β) (hp : ∀ s unit event part cls n, g (prog s unit event part cls n) = g s)
include hp

/-- Whatever an event at the programmable counters keeps, the units of a tick keep (R426). -/
theorem tickUnits_keeps (s : State) (cyc ccyc : Nat) : g (tickUnits s cyc ccyc) = g s := by
  have hif : ∀ (b : Bool) s unit event part cls n, g (if b then prog s unit event part cls n else s) = g s := fun b s => by
    cases b <;> simp [hp]
  unfold tickUnits
  calc g _
    _ = _ := foldl_keeps g _ _ fun _ _ => hif ..
    _ = _ := foldl_keeps g _ _ fun _ _ => hp ..
    _ = _ := hp ..
    _ = _ := foldl_keeps g _ _ fun _ _ => hp ..
    _ = _ := foldl_keeps g _ _ fun _ _ => foldl_keeps g _ _ fun _ _ => hif ..
    _ = g s := foldl_keeps g _ _ fun _ _ => foldl_keeps g _ _ fun _ _ => hif ..

/-- Whatever both kinds of counters keep, time that passes keeps but for what it moves by itself: time, the token buckets and the
expanders' queue-full cycles. -/
theorem elapse_keeps (hb : ∀ s p i n, g (bump s p i n) = g s) (s : State) (dt : Nat) :
    g (elapse s dt) = g (tickExps { s with time := s.time + dt, svc.regs := tickRegs s dt, svc.trace := tickTrace s dt }
      (fabricCycles (s.time + dt) - fabricCycles s.time)) := by
  have hpart : ∀ s p cyc ccyc, g (tickPart s p cyc ccyc) = g s := fun s p cyc ccyc => by simp [tickPart, hb]
  unfold elapse
  dsimp only
  split
  case isTrue => rw [foldl_keeps g _ _ fun t p => by split <;> simp [hpart], tickUnits_keeps g hp]
  case isFalse => exact tickUnits_keeps g hp ..

end

/-- Time that passes moves time and the token buckets, and counts. -/
theorem uncounted_elapse (s : State) (dt : Nat) :
    uncounted (elapse s dt) =
      uncounted { s with time := s.time + dt, svc.regs := tickRegs s dt, svc.trace := tickTrace s dt } :=
  (elapse_keeps uncounted uncounted_prog uncounted_bump s dt).trans (uncounted_tickExps ..)

theorem elapse_fold_of_room {s : State} (h : ∀ e ∈ s.fold.exps, e.2.queue.length < 48) (dt : Nat) : (elapse s dt).fold = s.fold := by
  rw [elapse_keeps State.fold prog_fold bump_fold, tickExps_of_room (by exact h)]

/-- What the passing of time changes, field by field. -/
theorem elapse_eq (s : State) (dt : Nat) :
    elapse s dt = { s with time := s.time + dt, svc.regs := tickRegs s dt, svc.trace := tickTrace s dt,
                           fold.exps := (elapse s dt).fold.exps, obs.ctr := (elapse s dt).obs.ctr, obs.progs := (elapse s dt).obs.progs } :=
  eq_of_uncounted (uncounted_elapse s dt)

@[simp] theorem elapse_time (s : State) (dt : Nat) : (elapse s dt).time = s.time + dt := by rw [elapse_eq]
@[simp] theorem elapse_rul (s : State) (dt : Nat) : (elapse s dt).rul = s.rul := by rw [elapse_eq]

/-! ### The tick field -/

/-- The tick field rises and holds at its largest value (R28). -/
theorem nextTick_toNat (t : BitVec 16) : (nextTick t).toNat = min 0xFFFF (t.toNat + 1) := by
  unfold nextTick
  split
  case isTrue h => subst h; rfl
  case isFalse h => bv_omega

/-- The tick that an instant shows fits its field (R28). -/
theorem tickAt_le (s : State) (inst : Nat) : tickAt s inst ≤ 0xFFFF := Nat.min_le_left ..

/-- The later of the tick shown and the tick held fits the field. -/
theorem shownTick_toNat (s : State) (inst : Nat) :
    (BitVec.ofNat 16 (max (tickAt s inst) s.rul.tick.toNat)).toNat = max (tickAt s inst) s.rul.tick.toNat := by
  have hshown := tickAt_le s inst
  have hheld := s.rul.tick.isLt
  exact Nat.mod_eq_of_lt (by omega)

/-! ### O2 -/

/-- A tick is the passing of one period, with what the tick field then shows. -/
theorem tickPass_eq (s : State) :
    tickPass s = { s with time := s.time + periodNow s, rul.tick := (tickPass s).rul.tick,
                          svc.regs := tickRegs s (periodNow s), svc.trace := tickTrace s (periodNow s),
                          fold.exps := (tickPass s).fold.exps, obs.ctr := (tickPass s).obs.ctr, obs.progs := (tickPass s).obs.progs } :=
  congrArg (fun u : State => { u with rul.tick := (tickPass s).rul.tick }) (elapse_eq s (periodNow s))

theorem tickPass_tick_long {s : State} (h : shortLine s = false) : (tickPass s).rul.tick.toNat = min 0xFFFF (s.rul.tick.toNat + 1) := by
  simp [tickPass, h, nextTick_toNat]

theorem tickPass_tick_short {s : State} (h : shortLine s = true) :
    (tickPass s).rul.tick.toNat = max (tickAt s (tickPass s).time) s.rul.tick.toNat := by
  have htick : (tickPass s).rul.tick = BitVec.ofNat 16 (max (tickAt s (tickPass s).time) s.rul.tick.toNat) := if_pos h
  rw [htick, shownTick_toNat]

/-- Settles O2: the step on an empty queue is a tick, whose frame is that of the time it lets pass. -/
theorem idleStepTicks : Obligations.IdleStepTicks := by
  intro s hs
  have hstep : step s = .next (tickPass s) := by simp only [step, hs]
  have htime : (tickPass s).time = s.time + periodNow s := congrArg State.time (tickPass_eq s)
  have hregs : (tickPass s).svc.regs = tickRegs s (periodNow s) := congrArg (·.svc.regs) (tickPass_eq s)
  have htrace : (tickPass s).svc.trace = tickTrace s (periodNow s) := congrArg (·.svc.trace) (tickPass_eq s)
  refine ⟨tickPass s, hstep, htime, tickPass_tick_long, tickPass_tick_short, hregs, htrace, ?frame, fun hroom => ?expanders⟩
  case frame => rw [htime, hregs, htrace]; exact tickPass_eq s
  case expanders => exact congrArg Fold.exps (elapse_fold_of_room hroom _)

end Sys2Proof.Machine
end

section
/-! PROOFS. The seven ruling commands (R49 to R53): what the row of each answers once it has begun, case by case of its checks; then
O13. -/

namespace Sys2Proof.Machine

@[simp] theorem rulingRecord_length (s : State) : (rulingRecord s).length = 64 := padTo_length 64 _

/-! ### The fields that the checks read -/

theorem periodOk_iff {p : Nat} : periodOk p = true ↔ 10000 ≤ p ∧ p ≤ 1000000000 := by simp [periodOk]

/-- An expected epoch is stale unless it is 0 or the present one (R50). -/
theorem epochStale_eq_false_iff {s : State} {e : Nat} : epochStale s e = false ↔ e = 0 ∨ e = s.rul.epoch.toNat := by
  unfold epochStale
  by_cases h : e = 0 <;> simp [h]

/-- Bit 0 of a field is its parity. -/
theorem bit_zero (n : Nat) : bit n 0 = decide (n % 2 = 1) := Nat.testBit_zero n

section
variable {c : Cmd} {s a : State}

theorem rulingStatus_completes (h : Begun { op := 0x0201, need := 8 } c s a) (hw : hostOk a (p64 c 0) 64 = true) :
    Completes (.rulingStatus c) c s (hostStore a (p64 c 0) (rulingRecord a)) [] :=
  completes_of rfl h (reportTo_ok (by rwa [rulingRecord_length]))

/-! ### RULING_SET_SOURCES and RULING_SET_PERIOD -/

section
variable (h : Begun { op := 0x0202, need := 11 } c s a)
include h

theorem rulingSetSources_completes {l : List Src} (hl : parsePrefs [p8 c 0, p8 c 1, p8 c 2, p8 c 3] [] = some l)
    (hmin : 10000 ≤ p32 c 4) (hmax : p32 c 4 ≤ 1000000000) (hlim : p16 c 8 ≠ 0) (he : p8 c 10 < 2) :
    Completes (.rulingSetSources c) c s
      { a with rul.pendSources := some (if l.contains .free then l else l ++ [.free], p32 c 4, p16 c 8, decide (p8 c 10 = 1)),
               rul.pendPeriod := none } [] := by
  have hbit : bit (p8 c 10) 0 = decide (p8 c 10 = 1) := by rw [bit_zero, Nat.mod_eq_of_lt he]
  have hper : periodOk (p32 c 4) = true := periodOk_iff.2 ⟨hmin, hmax⟩
  refine completes_of rfl h ?_
  simp only [hl, ← hbit]
  exact checked_pass (by simp [hper, hlim, he])

theorem rulingSetSources_badList (hl : parsePrefs [p8 c 0, p8 c 1, p8 c 2, p8 c 3] [] = none) :
    exec (.rulingSetSources c) s = .next (complete a c St.sourceInvalid []) :=
  ends_of rfl h (by simp only [hl])

end

section
variable (h : Begun { op := 0x0203, need := 4 } c s a)
include h

theorem rulingSetPeriod_completes (hmin : 10000 ≤ p32 c 0) (hmax : p32 c 0 ≤ 1000000000) :
    Completes (.rulingSetPeriod c) c s { a with rul.pendPeriod := some (p32 c 0) } [] :=
  completes_of rfl h (checked_tail (by simp [periodOk_iff.2 ⟨hmin, hmax⟩]))

theorem rulingSetPeriod_badPeriod (hp : p32 c 0 < 10000 ∨ 1000000000 < p32 c 0) :
    exec (.rulingSetPeriod c) s = .next (complete a c St.periodRange []) := by
  have hbad : periodOk (p32 c 0) = false := by rw [← Bool.not_eq_true, periodOk_iff]; omega
  exact ends_of rfl h (checked_head (by simp [hbad]))

end

/-! ### RULING_DISCIPLINE and RULING_LOAD -/

section
variable (h : Begun { op := 0x0204, need := 20 } c s a)
include h

theorem rulingDiscipline_completes (hf : a.rul.follower = false) (he : p32 c 16 = 0 ∨ p32 c 16 = a.rul.epoch.toNat)
    (hcorr : (signed32 (p32 c 8)).natAbs ≤ 500000) (herr : p8 c 12 % 2 = 1 ∨ ((p64 c 0 : Int) - c.stamp.toNat).natAbs ≤ 65536) :
    Completes (.rulingDiscipline c) c s
      (advertise { a with
        rul.pendCorr := some (signed32 (p32 c 8)), rul.discValid := true, rul.discLines := 0, rul.adj := appliedSlew a.rul,
        rul.slew := if p8 c 12 % 2 = 1 then 0 else (p64 c 0 : Int) - c.stamp.toNat,
        rul.pendStep := if p8 c 12 % 2 = 1 then some ((p64 c 0 : Int) - c.stamp.toNat) else none }) [] := by
  have hrange : (decide ((signed32 (p32 c 8)).natAbs > 500000) ||
      (!bit (p8 c 12) 0 && decide (((p64 c 0 : Int) - c.stamp.toNat).natAbs > 65536))) = false := by
    rcases herr with herr | herr <;> simp [bit_zero, hcorr, herr]
  refine completes_of rfl h ((checked_tail hf).trans
    ((checked_tail (epochStale_eq_false_iff.2 he)).trans ((checked_tail hrange).trans ?_)))
  simp only [checked_nil, bit_zero, decide_eq_true_eq]

theorem rulingDiscipline_follower (hf : a.rul.follower = true) :
    exec (.rulingDiscipline c) s = .next (complete a c St.notMaster []) :=
  ends_of rfl h (checked_head hf)

end

section
variable (h : Begun { op := 0x0205, need := 12 } c s a) (hf : a.rul.follower = false)
include h hf

theorem rulingLoad_completes (he : p32 c 8 = 0 ∨ p32 c 8 = a.rul.epoch.toNat) :
    Completes (.rulingLoad c) c s { a with rul.pendLoad := some (BitVec.ofNat 48 (pn c 0 6)) } [] :=
  completes_of rfl h ((checked_tail hf).trans (checked_tail (epochStale_eq_false_iff.2 he)))

theorem rulingLoad_staleEpoch (h0 : p32 c 8 ≠ 0) (he : p32 c 8 ≠ a.rul.epoch.toNat) :
    exec (.rulingLoad c) s = .next (complete a c St.epochStale []) :=
  ends_of rfl h ((checked_tail hf).trans (checked_head (by simp [epochStale, h0, he])))

end

/-! ### RULING_ALARM and RULING_TRIGGER_SET -/

section
variable (h : Begun { op := 0x0206, need := 16 } c s a) (he : p32 c 8 = 0 ∨ p32 c 8 = a.rul.epoch.toNat)
include h he

theorem rulingAlarm_completes (ht : (stamp a).toNat < p64 c 0) :
    Completes (.rulingAlarm c) c s { a with rul.alarms := a.rul.alarms ++
      [{ stamp := BitVec.ofNat 64 (p64 c 0), asked := BitVec.ofNat 64 (p64 c 0), cookie := BitVec.ofNat 32 (p32 c 12) }] } [] :=
  completes_of rfl h ((checked_tail (epochStale_eq_false_iff.2 he)).trans (checked_tail (by simpa using ht)))

theorem rulingAlarm_pastStamp (ht : p64 c 0 ≤ (stamp a).toNat) :
    exec (.rulingAlarm c) s = .next (complete a c St.stampPast []) :=
  ends_of rfl h ((checked_tail (epochStale_eq_false_iff.2 he)).trans (checked_head (decide_eq_true ht)))

end

section
variable (h : Begun { op := 0x0207, need := 8 } c s a)
include h

theorem rulingTriggerSet_completes (hc : holds a pinPair 2 c.fn = true) (hedge : p8 c 0 % 4 ≠ 0) (hflags : p8 c 0 < 8)
    (hmin : 1000 ≤ p32 c 4) (hmax : p32 c 4 ≤ 1000000000) (htally : p16 c 2 = 0xFFFF ∨ p16 c 2 < 16384) :
    Completes (.rulingTriggerSet c) c s
      { a with rul.trig := { a.rul.trig with
          config := some (bit (p8 c 0) 0, bit (p8 c 0) 1, bit (p8 c 0) 2, p16 c 2, p32 c 4) } } [] := by
  have hfields : (p8 c 0 % 4 == 0 || decide (p8 c 0 ≥ 8) || decide (p32 c 4 < 1000) || decide (p32 c 4 > 1000000000) ||
      (p16 c 2 != 0xFFFF && decide (p16 c 2 ≥ 16384))) = false := by
    rcases htally with ht | ht <;> simp [hedge, hflags, hmin, hmax, ht]
  exact completes_of rfl h ((checked_tail (by simp [hc])).trans (checked_tail hfields))

theorem rulingTriggerSet_unclaimed (hc : holds a pinPair 2 c.fn = false) :
    exec (.rulingTriggerSet c) s = .next (complete a c St.notClaimed []) :=
  ends_of rfl h (checked_head (by simp [hc]))

end
end

/-! ### O13 -/

/-- Settles O13: each clause is its row's answer in the case of its checks. -/
theorem rulingCommandRows : Obligations.RulingCommandRows :=
  ⟨fun _ _ _ => rulingStatus_completes,
   fun _ _ _ _ h => rulingSetSources_completes h,
   fun _ _ _ => rulingSetPeriod_completes,
   fun _ _ _ => rulingDiscipline_completes,
   fun _ _ _ => rulingLoad_completes,
   fun _ _ _ => rulingAlarm_completes,
   fun _ _ _ => rulingTriggerSet_completes,
   fun _ _ _ => rulingSetPeriod_badPeriod,
   fun _ _ _ => rulingSetSources_badList,
   fun _ _ _ => rulingDiscipline_follower,
   fun _ _ _ => rulingLoad_staleEpoch,
   fun _ _ _ => rulingAlarm_pastStamp,
   fun _ _ _ => rulingTriggerSet_unclaimed⟩

end Sys2Proof.Machine
end

section
/-! PROOFS. The boundary of a line (R28, R29, R35, R40, R41): what each operation that gives a boundary does to the ruling's numbering and
settings; then O14. -/

namespace Sys2Proof.Machine

/-- The numbering and the settings of a ruling: all of it but the fields that sources, holdover, alarms and the group move at a boundary. -/
def lineCore (r : Ruling) : Ruling :=
  { r with cad := {}, holdover := none, alarms := [], source := .free, pendSwitch := none, contrary := 0, master := 0, pendMaster := none }

/-- What waits for the boundary is in force (R41, R49). -/
def withPending (r : Ruling) : Ruling :=
  { r with
    prefs := (r.pendSources.map (·.1)).getD r.prefs
    nominal := r.pendPeriod.getD ((r.pendSources.map (·.2.1)).getD r.nominal)
    period := r.pendPeriod.getD ((r.pendSources.map (·.2.1)).getD r.period)
    limit := (r.pendSources.map (·.2.2.1)).getD r.limit
    eligible := (r.pendSources.map (·.2.2.2)).getD r.eligible
    corr := r.pendCorr.getD r.corr
    pendSources := none, pendPeriod := none, pendCorr := none }

/-! ### Time and tick within the line -/

@[simp] theorem elapseTo_time (s : State) (inst : Nat) : (elapseTo s inst).time = max s.time inst := by
  unfold elapseTo
  split
  case isTrue h => exact (Nat.max_eq_left h).symm
  case isFalse h => simp; omega

/-- Of the ruling, time that passes within the line moves the tick field only. -/
theorem elapseTo_rul (s : State) (inst : Nat) : ∃ k, (elapseTo s inst).rul = { s.rul with tick := k } := by
  unfold elapseTo
  split
  case isTrue => exact ⟨s.rul.tick, rfl⟩
  case isFalse => exact ⟨_, by dsimp only; rw [elapse_rul]⟩

/-! ### What the operations of a boundary do to the ruling -/

@[simp] theorem postSource_rul (s : State) (former : Src) (cause : Nat) : (postSource s former cause).rul = s.rul := post_rul ..
@[simp] theorem postSource_time (s : State) (former : Src) (cause : Nat) : (postSource s former cause).time = s.time := post_time ..

/-- After a switch the source is in force, without holdover (R34). -/
theorem switchTo_rul (s : State) (c : Src) : (switchTo s c).rul = { s.rul with source := c, holdover := none, pendSwitch := none } := by
  unfold switchTo
  dsimp only
  split
  case isTrue h => rw [← h.1, ← h.2]
  case isFalse => exact postSource_rul ..

@[simp] theorem switchTo_time (s : State) (c : Src) : (switchTo s c).time = s.time := by
  unfold switchTo
  dsimp only
  split <;> simp

@[simp] theorem advertise_rul (s : State) : (advertise s).rul = s.rul := by
  unfold advertise
  dsimp only
  split <;> simp

@[simp] theorem advertise_time (s : State) : (advertise s).time = s.time := by
  unfold advertise
  dsimp only
  split <;> simp

/-- Every unit records a new epoch, which rebases the state by its step (R29, R30). -/
theorem enterEpoch_far (s : State) (e : BitVec 32) (S : Int) (cause : Nat) :
    Far (rebaseAll { s with rul.epoch := e } S) (enterEpoch s e S cause) :=
  post_far _ _ _ _ _ (foldl_far (foldl_far (Far.refl _) fun _ _ => blot_far _ _ _ _ _) fun _ _ => traceAt_far _ _ _ _ _ _ _)

theorem lineCore_enterEpoch (s : State) (e : BitVec 32) (S : Int) (cause : Nat) :
    lineCore (enterEpoch s e S cause).rul = { lineCore s.rul with epoch := e } :=
  congrArg lineCore (enterEpoch_far s e S cause).ok.rul

@[simp] theorem enterEpoch_time (s : State) (e : BitVec 32) (S : Int) (cause : Nat) : (enterEpoch s e S cause).time = s.time :=
  (enterEpoch_far s e S cause).ok.time

theorem setHoldover_rul (s : State) (cause p : Nat) : ∃ h, (setHoldover s cause p).rul = { s.rul with holdover := h } := ⟨_, post_rul ..⟩

@[simp] theorem setHoldover_time (s : State) (cause p : Nat) : (setHoldover s cause p).time = s.time := post_time ..

/-- What waits takes effect, and CADENCE_IN, which a changed nominal period ends, may leave a holdover behind (R33, R36). -/
theorem applyPending_cases (s : State) :
    ∃ cad, applyPending s = { s with rul := { withPending s.rul with cad := cad } } ∨
      ∃ p, applyPending s = setHoldover { s with rul := { withPending s.rul with cad := cad } } 5 p := by
  have hpending : applyPending s =
      if (withPending s.rul).nominal = s.rul.nominal then { s with rul := withPending s.rul }
      else
        let s1 := { s with rul := { withPending s.rul with cad := { s.rul.cad with
          valid := false, count := 0, refEdge := none, periods := [], rejectAges := [] } } }
        if s.rul.cad.valid && s.rul.source == .cadenceIn && s.rul.holdover.isNone then
          setHoldover s1 5 ((withPending s.rul).nominal * 65536) else s1 := by
    unfold applyPending
    generalize s.rul = r
    obtain ⟨line, tick, epoch, prefs, nominal, period, limit, eligible, corr, slew, sources, pendPeriod, pendCorr⟩ := r
    cases sources <;> cases pendPeriod <;> cases pendCorr <;> rfl
  rw [hpending]
  split
  case isTrue => exact ⟨s.rul.cad, .inl rfl⟩
  case isFalse =>
    dsimp only
    split
    · exact ⟨_, .inr ⟨_, rfl⟩⟩
    · exact ⟨_, .inl rfl⟩

theorem lineCore_applyPending (s : State) : lineCore (applyPending s).rul = withPending (lineCore s.rul) := by
  obtain ⟨cad, h | ⟨p, h⟩⟩ := applyPending_cases s
  · rw [h]; rfl
  · obtain ⟨hold, hh⟩ := setHoldover_rul { s with rul := { withPending s.rul with cad := cad } } 5 p
    rw [h, hh]; rfl

@[simp] theorem applyPending_time (s : State) : (applyPending s).time = s.time := by
  obtain ⟨cad, h | ⟨p, h⟩⟩ := applyPending_cases s <;> simp [h]

/-- A device that takes over as master changes nothing else of the ruling (R46). -/
theorem takeOver_rul (s : State) : ∃ m p, (takeOver s).rul = { s.rul with master := m, pendMaster := p } := by
  unfold takeOver installMaster
  split
  case h_1 m _ =>
    dsimp only
    split
    · split
      · exact ⟨_, _, rfl⟩
      · exact ⟨_, _, postSource_rul ..⟩
    · exact ⟨_, _, rfl⟩
  case h_2 => exact ⟨_, _, rfl⟩

@[simp] theorem takeOver_time (s : State) : (takeOver s).time = s.time := by
  unfold takeOver installMaster
  split
  case h_1 =>
    dsimp only
    split
    · split <;> simp
    · rfl
  case h_2 => rfl

/-! ### A line that has begun -/

/-- State `t` is in the line that begins at the present instant of `s` with stamp `n` in epoch `e`, and `new` has taken over there. -/
structure LineBegun (s : State) (n : Nat) (new : Option Src) (e : BitVec 32) (t : State) : Prop where
  core : lineCore t.rul = withPending { lineCore (turnLine s n).rul with epoch := e }
  time : t.time = s.time
  source : ∀ c, new = some c → t.rul.source = c

section
variable {s t u : State} {n : Nat} {new : Option Src} {e : BitVec 32}

/-- What keeps time and, of the ruling, all but its alarms, holdover and the like, leaves the line as it has begun. -/
theorem LineBegun.of_kept (h : LineBegun s n new e t) (hcore : lineCore u.rul = lineCore t.rul) (htime : u.time = t.time)
    (hsource : ∀ c, new = some c → u.rul.source = t.rul.source) : LineBegun s n new e u :=
  ⟨hcore.trans h.core, htime.trans h.time, fun c hc => (hsource c hc).trans (h.source c hc)⟩

theorem LineBegun.of_rul (h : LineBegun s n new e t) (hrul : u.rul = t.rul) (htime : u.time = t.time) : LineBegun s n new e u :=
  h.of_kept (congrArg lineCore hrul) htime fun _ _ => congrArg Ruling.source hrul

theorem LineBegun.takeOver (h : LineBegun s n new e t) : LineBegun s n new e (takeOver t) := by
  obtain ⟨m, p, hrul⟩ := takeOver_rul t
  exact h.of_kept (by rw [hrul]; rfl) (takeOver_time t) fun _ _ => by rw [hrul]

/-- The source named for the boundary takes over, or else the generator source that the list prefers (R32, R34). -/
theorem LineBegun.switched (h : lineCore t.rul = withPending { lineCore (turnLine s n).rul with epoch := e }) (ht : t.time = s.time) :
    LineBegun s n new e (match new with
      | some c => switchTo t c
      | none => match genTarget t with | some c => switchTo t c | none => t) := by
  have hswitch : ∀ c, lineCore (switchTo t c).rul = lineCore t.rul := fun c => by rw [switchTo_rul]; rfl
  cases new with
  | some c => exact ⟨(hswitch c).trans h, (switchTo_time t c).trans ht, fun d hd => by rw [switchTo_rul, ← Option.some.inj hd]⟩
  | none =>
    dsimp only
    split
    · exact ⟨(hswitch _).trans h, (switchTo_time t _).trans ht, nofun⟩
    · exact ⟨h, ht, nofun⟩

end

theorem beginLine_begun (s : State) (n : Nat) (new : Option Src) (epoch : Option (BitVec 32 × Int × Nat)) :
    LineBegun s n new ((epoch.map (·.1)).getD s.rul.epoch) (beginLine s n new epoch) := by
  unfold beginLine
  extract_lets rejects interval s1 s2 s3 s4 s5
  have hepoch : lineCore s2.rul = { lineCore s1.rul with epoch := (epoch.map (·.1)).getD s.rul.epoch } ∧ s2.time = s.time := by
    cases epoch with
    | none => exact ⟨rfl, rfl⟩
    | some x => exact ⟨lineCore_enterEpoch .., enterEpoch_time ..⟩
  have hswitch : LineBegun s n new ((epoch.map (·.1)).getD s.rul.epoch) s4 :=
    .switched ((lineCore_applyPending s2).trans (congrArg withPending hepoch.1)) ((applyPending_time s2).trans hepoch.2)
  have hrejects : LineBegun s n new ((epoch.map (·.1)).getD s.rul.epoch) s5 := by
    unfold s5
    split
    · exact hswitch
    · exact hswitch.of_rul (post_rul ..) (post_time ..)
  refine .of_rul ?_ (advertise_rul _) (advertise_time _)
  refine .of_rul ?_ (prog_rul ..) (prog_time ..)
  exact .takeOver (hrejects.of_kept rfl rfl fun _ _ => rfl)

theorem giveBoundary_begun (s : State) (new : Option Src) (jump : Option Nat) :
    LineBegun s (boundaryStamp s jump).1 new (if (boundaryStamp s jump).2.2.isSome then nextEpoch s else s.rul.epoch)
      (giveBoundary s new jump) := by
  unfold giveBoundary
  obtain ⟨n, S, cause⟩ := boundaryStamp s jump
  have hepoch : ((cause.map (fun c => (nextEpoch s, S, c))).map (·.1)).getD s.rul.epoch =
      if cause.isSome then nextEpoch s else s.rul.epoch := by cases cause <;> rfl
  have hline := beginLine_begun s n new (cause.map (fun c => (nextEpoch s, S, c)))
  rw [hepoch] at hline
  generalize (if cause.isSome then nextEpoch s else s.rul.epoch) = e at hline ⊢
  dsimp only
  split
  · exact hline.of_rul (sendMarkers_rul ..) (sendMarkers_time ..)
  · exact hline

/-! ### What the ruling shows in a line that has begun -/

section
variable {s t : State} {n : Nat} {new : Option Src} {e : BitVec 32} (h : LineBegun s n new e t)
include h

theorem LineBegun.line : t.rul.line = BitVec.ofNat 48 (n / 65536) := (congrArg Ruling.line h.core :)
theorem LineBegun.tick : t.rul.tick = BitVec.ofNat 16 (n % 65536) := (congrArg Ruling.tick h.core :)
theorem LineBegun.epoch : t.rul.epoch = e := (congrArg Ruling.epoch h.core :)
theorem LineBegun.pendLoad : t.rul.pendLoad = none := (congrArg Ruling.pendLoad h.core :)
theorem LineBegun.pendStep : t.rul.pendStep = none := (congrArg Ruling.pendStep h.core :)
theorem LineBegun.pendSources : t.rul.pendSources = none := (congrArg Ruling.pendSources h.core :)
theorem LineBegun.pendPeriod : t.rul.pendPeriod = none := (congrArg Ruling.pendPeriod h.core :)
theorem LineBegun.pendCorr : t.rul.pendCorr = none := (congrArg Ruling.pendCorr h.core :)
theorem LineBegun.corr : t.rul.corr = s.rul.pendCorr.getD s.rul.corr := (congrArg Ruling.corr h.core :)

/-- A phase step that is loaded leaves no phase error to slew (R41). -/
theorem LineBegun.slew_of_step (hs : s.rul.pendStep.isSome) : t.rul.slew = 0 :=
  (congrArg Ruling.slew h.core :).trans (if_pos hs)

/-- With no list pending, the list stays, and the period is the one pending (R41, R49). -/
theorem LineBegun.settings_of_none (hs : s.rul.pendSources = none) :
    t.rul.prefs = s.rul.prefs ∧ t.rul.period = s.rul.pendPeriod.getD s.rul.period := by
  have hprefs : t.rul.prefs = (s.rul.pendSources.map (·.1)).getD s.rul.prefs := (congrArg Ruling.prefs h.core :)
  have hperiod : t.rul.period = s.rul.pendPeriod.getD ((s.rul.pendSources.map (·.2.1)).getD s.rul.period) :=
    (congrArg Ruling.period h.core :)
  rw [hs] at hprefs hperiod
  exact ⟨hprefs, hperiod⟩

/-- A pending list comes with its limit, its eligibility and, unless a period is pending too, its period (R49, log 17). -/
theorem LineBegun.settings_of_some {l : List Src} {p lim : Nat} {el : Bool} (hs : s.rul.pendSources = some (l, p, lim, el)) :
    t.rul.prefs = l ∧ t.rul.limit = lim ∧ t.rul.eligible = el ∧ t.rul.period = s.rul.pendPeriod.getD p ∧
      t.rul.nominal = s.rul.pendPeriod.getD p := by
  have hprefs : t.rul.prefs = (s.rul.pendSources.map (·.1)).getD s.rul.prefs := (congrArg Ruling.prefs h.core :)
  have hlimit : t.rul.limit = (s.rul.pendSources.map (·.2.2.1)).getD s.rul.limit := (congrArg Ruling.limit h.core :)
  have heligible : t.rul.eligible = (s.rul.pendSources.map (·.2.2.2)).getD s.rul.eligible := (congrArg Ruling.eligible h.core :)
  have hperiod : t.rul.period = s.rul.pendPeriod.getD ((s.rul.pendSources.map (·.2.1)).getD s.rul.period) :=
    (congrArg Ruling.period h.core :)
  have hnominal : t.rul.nominal = s.rul.pendPeriod.getD ((s.rul.pendSources.map (·.2.1)).getD s.rul.nominal) :=
    (congrArg Ruling.nominal h.core :)
  rw [hs] at hprefs hlimit heligible hperiod hnominal
  exact ⟨hprefs, hlimit, heligible, hperiod, hnominal⟩

end

/-! ### The stamp of a boundary (R29, R41) -/

section
variable {s t : State} {new : Option Src} {e : BitVec 32} {l : BitVec 48}

/-- A stamp at tick 0 of line `l` shows as that line and tick. -/
theorem LineBegun.line_of_whole (h : LineBegun s (l.toNat * 65536) new e t) : t.rul.line = l ∧ t.rul.tick = 0 := by
  have hline := h.line
  have htick := h.tick
  rw [Nat.mul_div_cancel _ (by decide), BitVec.ofNat_toNat, BitVec.setWidth_eq] at hline
  rw [Nat.mul_mod_left] at htick
  exact ⟨hline, htick⟩

/-- Line and tick show the whole stamp. -/
theorem LineBegun.stamp_eq {n : Nat} (h : LineBegun s n new e t) (hn : n < 2 ^ 64) : t.rul.line.toNat * 65536 + t.rul.tick.toNat = n := by
  rw [h.line, h.tick, BitVec.toNat_ofNat, BitVec.toNat_ofNat]
  omega

/-- Where nothing is loaded, the line rises by one and no epoch opens (R28). -/
theorem boundaryStamp_plain (hl : s.rul.pendLoad = none) (hs : s.rul.pendStep = none) :
    (boundaryStamp s none).1 = (s.rul.line + 1).toNat * 65536 ∧ (boundaryStamp s none).2.2 = none := by
  simp [boundaryStamp, hl, hs]

theorem boundaryStamp_load (hl : s.rul.pendLoad = some l) (hs : s.rul.pendStep = none) :
    (boundaryStamp s none).1 = l.toNat * 65536 ∧ (boundaryStamp s none).2.2 = some 0 := by
  simp [boundaryStamp, hl, hs]

theorem boundaryStamp_step {err : Int} (hl : s.rul.pendLoad = none) (hs : s.rul.pendStep = some err) :
    ((boundaryStamp s none).1 : Int) = min (2 ^ 64 - 1) (max 0 ((((s.rul.line.toNat + 1) % 2 ^ 48) * 65536 : Nat) + err)) ∧
      (boundaryStamp s none).2.2 = some 1 := by
  simp only [boundaryStamp, hl, hs, clampInt]
  exact ⟨by omega, rfl⟩

/-- A boundary at which nothing is loaded. -/
theorem giveBoundary_plain (hl : s.rul.pendLoad = none) (hs : s.rul.pendStep = none) (new : Option Src) :
    LineBegun s ((s.rul.line + 1).toNat * 65536) new s.rul.epoch (giveBoundary s new none) := by
  obtain ⟨hstamp, hcause⟩ := boundaryStamp_plain hl hs
  simpa [hstamp, hcause] using giveBoundary_begun s new none

/-- A boundary that takes a loaded stamp `n` opens the next epoch (R29). -/
theorem giveBoundary_loads {n cause : Nat} (hn : (boundaryStamp s none).1 = n) (hc : (boundaryStamp s none).2.2 = some cause) :
    LineBegun s n none (nextEpoch s) (giveBoundary s none none) := by
  simpa [hn, hc] using giveBoundary_begun s none none

end

/-! ### LINE_BOUNDARY -/

section
variable {s : State}

theorem lineBoundary_notDue (h : boundaryDue s = false) : exec .lineBoundary s = .next s := by
  change execLineBoundary s = _
  simp [execLineBoundary, h]

/-- Where the generator gives the boundary, it gives it at its next instant, to which time has passed (R31). -/
theorem lineBoundary_gives (h : (s.rul.holdover.isSome || isGen s.rul.source || followsMarkers s) = true) :
    ∃ u k, exec .lineBoundary s = .next (giveBoundary u none none) ∧ u.rul = { s.rul with tick := k } ∧
      u.time = max s.time (nextInstant s) := by
  have hdue : boundaryDue s = true := by simp [boundaryDue, h]
  obtain ⟨k, hk⟩ := elapseTo_rul s (nextInstant s)
  refine ⟨elapseTo s (nextInstant s), k, ?_, hk, elapseTo_time ..⟩
  change execLineBoundary s = _
  simp only [execLineBoundary, hdue, generatorBoundary, h, if_true]

/-- A generator source that the list prefers to CADENCE_IN takes over with its first boundary, which continues the numbering where it falls
near the one that was due (R34, R35). -/
theorem lineBoundary_switches {c : Src} (hh : s.rul.holdover = none) (hs : s.rul.source = .cadenceIn) (hf : s.rul.follower = false)
    (hc : genTarget s = some c) (hn : continuous s = true) : exec .lineBoundary s = .next (giveBoundary s (some c) none) := by
  have hdue : boundaryDue s = true := by simp [boundaryDue, hc]
  have hown : (s.rul.holdover.isSome || isGen s.rul.source || followsMarkers s) = false := by simp [hh, hs, hf, isGen, followsMarkers]
  change execLineBoundary s = _
  simp [execLineBoundary, hdue, generatorBoundary, hown, hc, switchBoundary, hn]

end

/-- Settles O14: a boundary begins a line with the stamp that waits for it, by which the ruling is known. -/
theorem lineBoundaryAdvances : Obligations.LineBoundaryAdvances := by
  refine ⟨fun s hgen hl hs => ?plain, fun s l p lim el hgen hl hs hsrc => ?list, fun s l hgen hl hs => ?load, fun s err hgen hl hs => ?step,
    fun s c hh hsrc hf hc hn hl hs => ?switch, fun s => lineBoundary_notDue⟩
  case plain =>
    obtain ⟨u, k, hexec, hu, htime⟩ := lineBoundary_gives hgen
    have hb := giveBoundary_plain (s := u) (by simpa [hu] using hl) (by simpa [hu] using hs) none
    exact ⟨_, hexec, by simpa [hu] using hb.line_of_whole.1, hb.line_of_whole.2, by simpa [hu] using hb.epoch, hb.time.trans htime,
      hb.pendSources, hb.pendPeriod, hb.pendCorr, by simpa [hu] using hb.corr, by simpa [hu] using hb.settings_of_none⟩
  case list =>
    obtain ⟨u, k, hexec, hu, -⟩ := lineBoundary_gives hgen
    have hb := giveBoundary_plain (s := u) (by simpa [hu] using hl) (by simpa [hu] using hs) none
    exact ⟨_, hexec, by simpa [hu] using hb.line_of_whole.1,
      by simpa [hu] using hb.settings_of_some (by simpa [hu] using hsrc)⟩
  case load =>
    obtain ⟨u, k, hexec, hu, -⟩ := lineBoundary_gives hgen
    obtain ⟨hstamp, hcause⟩ := boundaryStamp_load (s := u) (by simpa [hu] using hl) (by simpa [hu] using hs)
    have hb := giveBoundary_loads hstamp hcause
    exact ⟨_, hexec, hb.line_of_whole.1, hb.line_of_whole.2, hb.pendLoad, by simpa [hu, nextEpoch] using hb.epoch⟩
  case step =>
    obtain ⟨u, k, hexec, hu, -⟩ := lineBoundary_gives hgen
    obtain ⟨hstamp, hcause⟩ := boundaryStamp_step (s := u) (by simpa [hu] using hl) (by simpa [hu] using hs)
    have hb := giveBoundary_loads rfl hcause
    refine ⟨_, hexec, hb.pendStep, hb.slew_of_step (by simp [hu, hs]), ?_, by simpa [hu, nextEpoch] using hb.epoch⟩
    rw [hb.stamp_eq (by omega), hstamp, hu]
  case switch =>
    have hb := giveBoundary_plain hl hs (some c)
    exact ⟨_, lineBoundary_switches hh hsrc hf hc hn, hb.line_of_whole.1, hb.line_of_whole.2, hb.source c rfl, hb.epoch⟩

end Sys2Proof.Machine
end

section
/-! PROOFS. The fold of a DPA (R107): as the exclusive or of four fields, and, within a 256 KiB block, as an exclusive or of the granule's
number with what the block fixes; then O59. -/

namespace Sys2Proof.Machine

/-- A field of bits is an extract of the word. -/
theorem bits_toNat {w hi lo : Nat} (x : BitVec w) (h : lo ≤ hi) : bits x.toNat hi lo = (x.extractLsb hi lo).toNat := by
  rw [BitVec.extractLsb_toNat, bits, Nat.sub_add_comm h]

/-- What DPA[47:18] contributes to the fold: its three 10-bit fields. -/
def blockFold (hi : Nat) : Nat := bits hi 9 0 ^^^ bits hi 19 10 ^^^ bits hi 29 20

theorem blockFold_lt (hi : Nat) : blockFold hi < 1024 :=
  Nat.xor_lt_two_pow (n := 10) (Nat.xor_lt_two_pow (Nat.mod_lt _ (by decide)) (Nat.mod_lt _ (by decide))) (Nat.mod_lt _ (by decide))

/-- Granule `g` of the 256 KiB block `hi` folds to the exclusive or of `g` with what the block contributes. -/
theorem foldOf_block {g : Nat} (hi : Nat) (hg : g < 1024) : foldOf (hi * 2 ^ 18 + g * 256) = g ^^^ blockFold hi := by
  have hgranule : bits (hi * 2 ^ 18 + g * 256) 17 8 = g := by simp only [bits, Nat.shiftRight_eq_div_pow]; omega
  have hfield : ∀ k, bits (hi * 2 ^ 18 + g * 256) (k + 27) (k + 18) = bits hi (k + 9) k := fun k => by
    have hhigh : (hi * 2 ^ 18 + g * 256) >>> 18 = hi := by rw [Nat.shiftRight_eq_div_pow]; omega
    simp only [bits, Nat.add_comm k 18, Nat.shiftRight_add, hhigh]
    congr 2
    omega
  simp only [foldOf, blockFold, hgranule, hfield 0, hfield 10, hfield 20, Nat.xor_assoc]

/-- Settles O59: within a block the fold is an exclusive or with a constant, so the one granule that folds to `v` is `v` with that
constant taken off again. -/
theorem foldTakesEachValueOnce : Obligations.FoldTakesEachValueOnce := by
  refine ⟨fun dpa => ?fields, fun hi v _ hv => ?block⟩
  case fields =>
    simp only [foldOf, BitVec.toNat_xor, bits_toNat dpa (show 8 ≤ 17 by decide), bits_toNat dpa (show 18 ≤ 27 by decide),
      bits_toNat dpa (show 28 ≤ 37 by decide), bits_toNat dpa (show 38 ≤ 47 by decide)]
  case block =>
    have hrange : v ^^^ blockFold hi < 1024 := Nat.xor_lt_two_pow (n := 10) hv (blockFold_lt hi)
    refine ⟨v ^^^ blockFold hi, hrange, ?value, fun g' hg' hfold => ?unique⟩
    case value => rw [foldOf_block hi hrange, Nat.xor_assoc, Nat.xor_self, Nat.xor_zero]
    case unique => rw [← hfold, foldOf_block hi hg', Nat.xor_assoc, Nat.xor_self, Nat.xor_zero]

end Sys2Proof.Machine
end

section
/-! PROOFS. The commands of the region table and the queries of the map (R104, R105, R121, R122): what the row of each answers once it has
begun, case by case of its checks; then O26. -/

namespace Sys2Proof.Machine

/-- An address below 2^48 is a DPA (R97). -/
theorem isDpa_of_lt {n : Nat} (h : n < 2 ^ 48) : isDpa n = true := decide_eq_true h

@[simp] theorem tierRecord_length (s : State) : (tierRecord s).length = 128 := padTo_length 128 _

section
variable {c : Cmd} {s a : State}

theorem memQuery_completes (h : Begun { op := 0x0301, need := 8 } c s a) (hw : hostOk a (p64 c 0) 128 = true) :
    Completes (.memQuery c) c s (hostStore a (p64 c 0) (tierRecord a)) [] :=
  completes_of rfl h (reportTo_ok (by rwa [tierRecord_length]))

/-! ### MEM_REGION_SET and MEM_REGION_GET (R104, R105, log 30) -/

/-- Fields that pass R105 name a run of regions of their tier. -/
theorem regionRun_lt (hf : regionSetInvalid a c = false) {r : Nat} (hr : r ∈ (List.range (p16 c 4)).map (p16 c 2 + ·)) :
    r < regionCount (tierOf (p8 c 0)) := by
  obtain ⟨i, hi, rfl⟩ := List.mem_map.1 hr
  have hi := List.mem_range.1 hi
  simp only [regionSetInvalid, Bool.or_eq_false_iff, decide_eq_false_iff_not] at hf
  omega

section
variable (h : Begun { op := 0x0302, need := 17, vf := false } c s a)
include h

theorem memRegionSet_completes {plain : State} {t : Tier} {run : List Nat} (ht : t = tierOf (p8 c 0))
    (hrun : run = (List.range (p16 c 4)).map (p16 c 2 + ·))
    (hplain : plain = regionTableSet a t (p16 c 2) (p16 c 4) (p64 c 8) (p8 c 16)) (hf : regionSetInvalid a c = false)
    (hfree : run.any (regionClaimed a t) = false)
    (hmoved : movedUnits a plain t = true → (hashedRegions a t).any (regionClaimed a t) = false)
    (hover : overlaps plain t run = false) (hpool : poolShort plain t = false) :
    Completes (.memRegionSet c) c s (regionSetApply a t (p16 c 2) (p16 c 4) (p64 c 8) (p8 c 16)) [] := by
  have hin : run.filter (fun r => decide (r < regionCount t)) = run :=
    List.filter_eq_self.2 fun r hr => decide_eq_true (ht ▸ regionRun_lt hf (hrun ▸ hr))
  have hbusy : (!regionSetInvalid a c && movedUnits a plain t && (hashedRegions a t).any (regionClaimed a t)) = false := by
    cases hm : movedUnits a plain t <;> simp [hmoved, hm]
  subst ht hplain hrun
  refine completes_of rfl h ?_
  simp only [hin, hfree, hf] at hbusy ⊢
  exact (if_neg (by simp)).trans ((checked_tail hbusy).trans ((checked_tail rfl).trans ((checked_tail hover).trans (checked_tail hpool))))

theorem memRegionSet_busy (ht : p8 c 0 ≤ 1) (hr : p16 c 2 < regionCount (tierOf (p8 c 0))) (hn : 0 < p16 c 4)
    (hclaimed : regionClaimed a (tierOf (p8 c 0)) (p16 c 2) = true) :
    exec (.memRegionSet c) s = .next (complete a c St.regionBusy []) :=
  ends_of rfl h (if_pos ⟨ht, List.any_eq_true.2 ⟨p16 c 2, by simp [hn, hr], hclaimed⟩⟩)

end

theorem memRegionGet_completes (h : Begun { op := 0x0303, need := 4 } c s a) (ht : p8 c 0 ≤ 1)
    (hr : p16 c 2 < regionCount (tierOf (p8 c 0))) :
    Completes (.memRegionGet c) c s a (leBytes 8 (regionEntry a (tierOf (p8 c 0)) (p16 c 2))) :=
  completes_of rfl h (checked_tail (by simp [ht, hr]))

/-! ### MEM_LOCATE (R122, log 31) -/

section
variable (h : Begun { op := 0x0304, need := 8 } c s a) (hd : p64 c 0 < 2 ^ 48)
include h hd

theorem memLocate_completes {p : Place} {e : Nat} (hl : locate a (p64 c 0) = some (p, e)) :
    Completes (.memLocate c) c s a (locateResult p e) :=
  completes_of rfl h ((checked_tail (by simp [isDpa_of_lt hd])).trans (by simp only [hl]; rfl))

theorem memLocate_nowhere (hl : locate a (p64 c 0) = none) :
    exec (.memLocate c) s = .next (complete a c St.regionInvalid (zeros 16)) :=
  ends_of rfl h ((checked_tail (by simp [isDpa_of_lt hd])).trans (by simp only [hl]; rfl))

end
end

/-- Settles O26: each clause is its row's answer in the case of its checks. -/
theorem mapCommandsComplete : Obligations.MapCommandsComplete :=
  ⟨fun _ _ _ => memQuery_completes,
   fun _ _ _ _ _ _ h ht _ => memRegionSet_completes h ht,
   fun _ _ _ => memRegionGet_completes,
   fun _ _ _ _ _ h hd => memLocate_completes h hd,
   fun _ _ _ => memLocate_nowhere,
   fun _ _ _ => memRegionSet_busy⟩

end Sys2Proof.Machine
end

section
/-! PROOFS. The moves of bytes by command (R98, R120, R149, R151): a write within one granule, a cache operation's answer, and what the rows
of MEM_COPY, MEM_FILL and MEM_CACHE_OP answer once they have begun; then O27. -/

namespace Sys2Proof.Machine

/-! ### A write within one granule (R151) -/

theorem chunksGo_nil {α : Type} (n k : Nat) : chunksGo n k ([] : List α) = [] := by cases k <;> rfl

theorem chunks_of_short {α : Type} {n : Nat} {l : List α} (hne : l ≠ []) (hlen : l.length ≤ n) : chunks n l = [l] := by
  cases l with
  | nil => exact absurd rfl hne
  | cons x r => simp only [chunks, List.length_cons, chunksGo, List.take_of_length_le hlen, List.drop_of_length_le hlen, chunksGo_nil]

/-- Bytes that stay within a granule are one piece. -/
theorem pieces_within_granule {dpa : Nat} {b : List Byte} (hlen : dpa % 64 + b.length ≤ 64) (hb : 0 < b.length) :
    pieces dpa b = [(dpa, b)] := by
  have hne : b ≠ [] := List.length_pos_iff.1 hb
  by_cases ho : dpa % 64 = 0
  case pos =>
    have hhead : min b.length ((64 - dpa % 64) % 64) = 0 := by omega
    have hchunks : chunks 64 b = [b] := chunks_of_short hne (by omega)
    simp [pieces, hhead, hchunks]
  case neg =>
    have hhead : min b.length ((64 - dpa % 64) % 64) = b.length := by omega
    simp [pieces, hhead, hne, chunks, chunksGo_nil]

theorem writeBytes_within_granule {s : State} {r : Requester} {dpa cls : Nat} {b : List Byte} {poison : Bool}
    (hst : rangeStatus s r true dpa b.length = St.ok) (hfold : foldedRefusal s dpa b.length = false)
    (hlen : dpa % 64 + b.length ≤ 64) (hb : 0 < b.length) :
    writeBytes s r dpa b poison cls = writeAt (charge (watch s r 1 dpa b.length) r dpa b.length cls) r dpa b poison cls := by
  simp [writeBytes, hst, hfold, pieces_within_granule hlen hb]

/-! ### A cache operation (R98, R120) -/

theorem cacheOp_reached {s : State} {p : Option Nat} {dpa len code : Nat}
    (hst : firstBad ((regionSteps dpa len).map (cacheStatusAt s p)) = St.ok)
    (hkept : (flushRange s dpa (dpa + len) (code % 2 == 1) (decide (2 ≤ code))).2 = false) :
    cacheOp s p dpa len code = (St.ok, (flushRange s dpa (dpa + len) (code % 2 == 1) (decide (2 ≤ code))).1) := by
  simp [cacheOp, hst, hkept]

/-! ### MEM_COPY, MEM_FILL and MEM_CACHE_OP (R120, R149) -/

section
variable {c : Cmd} {s a t : State} {st : Nat}

section
variable (h : Begun { op := 0x0305, need := 26 } c s a) (hn : 0 < p64 c 16) (hcls : p8 c 25 ≤ 3)
include h hn hcls

theorem memCopy_unaligned (hdir : p8 c 24 < 3) (hsrc : p64 c 0 % 64 ≠ 0) :
    exec (.memCopy c) s = .next (complete a c St.badAddress []) :=
  ends_of rfl h ((checked_tail (by simp [hdir, hcls, Nat.ne_of_gt hn])).trans (checked_head (by simp [hsrc])))

section
variable (hsrc : p64 c 0 % 64 = 0) (hdst : p64 c 8 % 64 = 0) (hlen : p64 c 16 % 64 = 0)
include hsrc hdst hlen

/-- A copy between aligned addresses, each of which is a DPA where it lies in the device, moves its bytes at once unless it is held. -/
theorem memCopy_moves {fromHost toHost : Bool} (hdir : p8 c 24 < 3) (hfrom : bit (p8 c 24) 0 = fromHost) (hto : bit (p8 c 24) 1 = toHost)
    (hsrcDpa : fromHost = true ∨ p64 c 0 < 2 ^ 48) (hdstDpa : toHost = true ∨ p64 c 8 < 2 ^ 48)
    (hheld : copyHeld a (cmdRq c) (!fromHost) (!toHost) (p64 c 0) (p64 c 8) (p64 c 16) (p8 c 25) = false)
    (hmove : (if fromHost then copyIn a (cmdRq c) (p64 c 0) (p64 c 8) (p64 c 16) (p8 c 25)
      else if toHost then copyOut a (cmdRq c) (p64 c 0) (p64 c 8) (p64 c 16) (p8 c 25)
      else copyWithin a (cmdRq c) (p64 c 0) (p64 c 8) (p64 c 16) (p8 c 25)) = (st, t)) :
    exec (.memCopy c) s = .next (complete t c st []) := by
  have hs : (!bit (p8 c 24) 0 && !isDpa (p64 c 0)) = false := by
    rcases hsrcDpa with hs | hs
    · simp [hfrom, hs]
    · simp [isDpa_of_lt hs]
  have hd : (!bit (p8 c 24) 1 && !isDpa (p64 c 8)) = false := by
    rcases hdstDpa with hd | hd
    · simp [hto, hd]
    · simp [isDpa_of_lt hd]
  refine ends_of rfl h ((checked_tail (by simp [hdir, hcls, Nat.ne_of_gt hn])).trans
    ((checked_tail (by simp [hsrc, hdst, hlen, hs, hd])).trans ?_))
  simp only [hfrom, hto, hheld, hmove]
  rfl

theorem memCopy_fromHost (hdir : p8 c 24 = 1) (hd : p64 c 8 < 2 ^ 48)
    (hheld : copyHeld a (cmdRq c) false true (p64 c 0) (p64 c 8) (p64 c 16) (p8 c 25) = false)
    (hmove : copyIn a (cmdRq c) (p64 c 0) (p64 c 8) (p64 c 16) (p8 c 25) = (st, t)) :
    exec (.memCopy c) s = .next (complete t c st []) :=
  memCopy_moves h hn hcls hsrc hdst hlen (fromHost := true) (toHost := false) (by omega) (by rw [hdir]; rfl) (by rw [hdir]; rfl)
    (.inl rfl) (.inr hd) hheld ((if_pos rfl).trans hmove)

theorem memCopy_toHost (hdir : p8 c 24 = 2) (hs : p64 c 0 < 2 ^ 48)
    (hheld : copyHeld a (cmdRq c) true false (p64 c 0) (p64 c 8) (p64 c 16) (p8 c 25) = false)
    (hmove : copyOut a (cmdRq c) (p64 c 0) (p64 c 8) (p64 c 16) (p8 c 25) = (st, t)) :
    exec (.memCopy c) s = .next (complete t c st []) :=
  memCopy_moves h hn hcls hsrc hdst hlen (fromHost := false) (toHost := true) (by omega) (by rw [hdir]; rfl) (by rw [hdir]; rfl)
    (.inr hs) (.inl rfl) hheld (((if_neg (by decide)).trans (if_pos rfl)).trans hmove)

theorem memCopy_withinDevice (hdir : p8 c 24 = 0) (hs : p64 c 0 < 2 ^ 48) (hd : p64 c 8 < 2 ^ 48)
    (hheld : copyHeld a (cmdRq c) true true (p64 c 0) (p64 c 8) (p64 c 16) (p8 c 25) = false)
    (hmove : copyWithin a (cmdRq c) (p64 c 0) (p64 c 8) (p64 c 16) (p8 c 25) = (st, t)) :
    exec (.memCopy c) s = .next (complete t c st []) :=
  memCopy_moves h hn hcls hsrc hdst hlen (fromHost := false) (toHost := false) (by omega) (by rw [hdir]; rfl) (by rw [hdir]; rfl)
    (.inr hs) (.inr hd) hheld (((if_neg (by decide)).trans (if_neg (by decide))).trans hmove)

end
end

theorem memFill_writes {b : List Byte} (h : Begun { op := 0x0306, need := 24 } c s a) (hn : 0 < p64 c 8) (hdst : p64 c 0 % 64 = 0)
    (hlen : p64 c 8 % 64 = 0) (hd : p64 c 0 < 2 ^ 48) (hb : b = (List.replicate (p64 c 8 / 8) (slice (body c) 16 8)).flatten)
    (hheld : accessWaits a (cmdRq c) true (p64 c 0) (p64 c 8) 2 = false)
    (hwrite : writeBytes a (cmdRq c) (p64 c 0) b false 2 = (st, t)) :
    exec (.memFill c) s = .next (complete t c st []) := by
  subst hb
  refine ends_of rfl h ((checked_tail (by simp [Nat.ne_of_gt hn])).trans ((checked_tail (by simp [hdst, hlen, isDpa_of_lt hd])).trans ?_))
  simp only [hheld, hwrite]
  rfl

section
variable (h : Begun { op := 0x0307, need := 17 } c s a) (hn : 0 < p64 c 8) (hop : 1 ≤ p8 c 16) (hop3 : p8 c 16 ≤ 3)
  (hdpa : p64 c 0 % 64 = 0) (hlen : p64 c 8 % 64 = 0) (hd : p64 c 0 < 2 ^ 48)
include h hn hop hop3 hdpa hlen hd

/-- Legal fields leave the window and then the operation itself to decide. -/
theorem memCacheOp_ends
    (hr : checked [(rangeFenced a (p64 c 0) (p64 c 8), St.windowFenced)] a
      (.done (cacheOp a (cmdPart c) (p64 c 0) (p64 c 8) (p8 c 16)).1 [] (cacheOp a (cmdPart c) (p64 c 0) (p64 c 8) (p8 c 16)).2) =
        .done st [] t) :
    exec (.memCacheOp c) s = .next (complete t c st []) :=
  ends_of rfl h ((checked_tail (by simp [hop3, Nat.ne_of_gt hn, Nat.ne_of_gt hop])).trans ((checked_tail (by simp [hdpa, hlen, isDpa_of_lt hd])).trans hr))

theorem memCacheOp_acts (hf : rangeFenced a (p64 c 0) (p64 c 8) = false)
    (hact : cacheOp a (cmdPart c) (p64 c 0) (p64 c 8) (p8 c 16) = (st, t)) :
    exec (.memCacheOp c) s = .next (complete t c st []) :=
  memCacheOp_ends h hn hop hop3 hdpa hlen hd ((checked_tail hf).trans (by rw [hact]; rfl))

theorem memCacheOp_fenced (hf : rangeFenced a (p64 c 0) (p64 c 8) = true) :
    exec (.memCacheOp c) s = .next (complete a c St.windowFenced []) :=
  memCacheOp_ends h hn hop hop3 hdpa hlen hd (checked_head hf)

end
end

/-- Settles O27: each command's clause is its row's answer where its checks pass and nothing holds it, or its first failing check. -/
theorem moveCommandsComplete : Obligations.MoveCommandsComplete :=
  ⟨fun _ _ _ _ _ h hn hdir hcls hsrc hdst hlen => memCopy_fromHost h hn hcls hsrc hdst hlen hdir,
   fun _ _ _ _ _ h hn hdir hcls hsrc hdst hlen => memCopy_toHost h hn hcls hsrc hdst hlen hdir,
   fun _ _ _ _ _ h hn hdir hcls hsrc hdst hlen => memCopy_withinDevice h hn hcls hsrc hdst hlen hdir,
   fun _ _ _ _ _ _ => memFill_writes,
   fun _ _ _ _ _ => memCacheOp_acts,
   fun _ _ _ _ _ => cacheOp_reached,
   fun _ _ _ _ _ _ => writeBytes_within_granule,
   fun _ _ _ h hn hdir hcls => memCopy_unaligned h hn hcls hdir,
   fun _ _ _ => memCacheOp_fenced⟩

end Sys2Proof.Machine
end

section
/-! PROOFS. Accesses at their regulator and channel (R101, R115, R126, R127, R131, R155): where an access goes on, waits or is performed, and
when an entry of a channel queue moves up a class; then O30. -/

namespace Sys2Proof.Machine

/-! ### Where an access goes (R131, R155, log 32) -/

section
variable {s : State} {w : Waiting}

theorem accessStart_of_ungated (hg : gateHolds s w.req w.dpa w.len w.cls = false) : accessStart s w = accessChan s w := by
  unfold accessStart
  split
  case h_1 => exact if_neg (by simp [hg])
  case h_2 => rfl

theorem accessStart_of_gated {k : Nat} (hk : regFor w.req w.dpa = some k)
    (hst : rangeStatus s w.req w.data.isSome w.dpa w.len = St.ok) (hg : gateHolds s w.req w.dpa w.len w.cls = true) :
    accessStart s w = holdAt s k w := by
  simp only [accessStart, hk]
  exact if_pos (by simp [hst, hg])

theorem accessChan_of_clear (hc : retrainingAt s w.data.isSome w.dpa w.len = none) : accessChan s w = accessNow s w := by
  simp only [accessChan, hc, ite_self]

theorem accessChan_of_retraining {t : Tier} {c : Nat} (hst : rangeStatus s w.req w.data.isSome w.dpa w.len = St.ok)
    (hc : retrainingAt s w.data.isSome w.dpa w.len = some (t, c)) : accessChan s w = queueAt s t c w := by
  simp only [accessChan, hc]
  exact if_neg (by simp [hst])

/-- An access that nothing holds is performed. -/
theorem accessStart_of_free (hg : gateHolds s w.req w.dpa w.len w.cls = false)
    (hc : retrainingAt s w.data.isSome w.dpa w.len = none) : accessStart s w = accessNow s w :=
  (accessStart_of_ungated hg).trans (accessChan_of_clear hc)

/-- An access that would be refused is not held: it is answered (R115, R131). -/
theorem accessStart_of_refused (hst : rangeStatus s w.req w.data.isSome w.dpa w.len ≠ St.ok) : accessStart s w = accessNow s w := by
  have hchan : accessChan s w = accessNow s w := if_pos hst
  unfold accessStart
  split
  case h_1 => exact (if_neg (by simp [hst])).trans hchan
  case h_2 => exact hchan

theorem accessNow_read (hr : w.req ≠ .window) (hd : w.data = none) :
    accessNow s w = setReply (readBytes s w.req w.dpa w.len w.cls).2.2.2 (readBytes s w.req w.dpa w.len w.cls).1
      (readBytes s w.req w.dpa w.len w.cls).2.1 (readBytes s w.req w.dpa w.len w.cls).2.2.1 := by
  simp only [accessNow, hd, if_neg hr]

theorem accessNow_write {b : List Byte} {poison : Bool} (hr : w.req ≠ .window) (hd : w.data = some (b, poison)) :
    accessNow s w = setReply (writeBytes s w.req w.dpa b poison w.cls).2 (writeBytes s w.req w.dpa b poison w.cls).1 [] false := by
  simp only [accessNow, hd, if_neg hr]

/-- An access that nothing holds is performed and answered, a read with its bytes and poison. -/
theorem read_performed (hr : w.req ≠ .window) (hd : w.data = none) (hg : gateHolds s w.req w.dpa w.len w.cls = false)
    (hc : retrainingAt s false w.dpa w.len = none) :
    accessStart s w = setReply (readBytes s w.req w.dpa w.len w.cls).2.2.2 (readBytes s w.req w.dpa w.len w.cls).1
      (readBytes s w.req w.dpa w.len w.cls).2.1 (readBytes s w.req w.dpa w.len w.cls).2.2.1 :=
  (accessStart_of_free hg (by rw [hd]; exact hc)).trans (accessNow_read hr hd)

theorem write_performed {b : List Byte} {poison : Bool} (hr : w.req ≠ .window) (hd : w.data = some (b, poison))
    (hg : gateHolds s w.req w.dpa w.len w.cls = false) (hc : retrainingAt s true w.dpa w.len = none) :
    accessStart s w = setReply (writeBytes s w.req w.dpa b poison w.cls).2 (writeBytes s w.req w.dpa b poison w.cls).1 [] false :=
  (accessStart_of_free hg (by rw [hd]; exact hc)).trans (accessNow_write hr hd)

end

/-! ### MEMORY_READ, MEMORY_WRITE and PARTIAL_WRITE -/

/-- A write of the bytes of one granule is a write as any other (R151). -/
theorem partialWrite_eq_memoryWrite {s : State} {r : Requester} {dpa : Nat} {b : List Byte} (hlen : dpa % 64 + b.length ≤ 64) :
    exec (.partialWrite r dpa b) s = exec (.memoryWrite (.direct r dpa b false)) s :=
  congrArg Host.Outcome.next (if_neg (Nat.not_lt.2 hlen))

section
variable {s : State} {r : Requester} {dpa len k : Nat} {b : List Byte} {poison : Bool}

theorem memoryRead_performed (hr : r ≠ .window) (hg : gateHolds s r dpa len (defaultClass r) = false)
    (hc : retrainingAt s false dpa len = none) :
    exec (.memoryRead r dpa len) s = .next (setReply (readBytes s r dpa len (defaultClass r)).2.2.2
      (readBytes s r dpa len (defaultClass r)).1 (readBytes s r dpa len (defaultClass r)).2.1
      (readBytes s r dpa len (defaultClass r)).2.2.1) :=
  congrArg Host.Outcome.next (read_performed hr rfl hg hc)

theorem memoryWrite_performed (hr : r ≠ .window) (hg : gateHolds s r dpa b.length (defaultClass r) = false)
    (hc : retrainingAt s true dpa b.length = none) :
    exec (.memoryWrite (.direct r dpa b poison)) s = .next (setReply (writeBytes s r dpa b poison (defaultClass r)).2
      (writeBytes s r dpa b poison (defaultClass r)).1 [] false) :=
  congrArg Host.Outcome.next (write_performed hr rfl hg hc)

theorem memoryRead_held (hk : regFor r dpa = some k) (hst : rangeStatus s r false dpa len = St.ok)
    (hg : gateHolds s r dpa len (defaultClass r) = true) :
    exec (.memoryRead r dpa len) s =
      .next (holdAt s k { req := r, dpa := dpa, len := len, data := none, cls := defaultClass r, since := s.time }) :=
  congrArg Host.Outcome.next (accessStart_of_gated hk hst hg)

theorem memoryWrite_held (hk : regFor r dpa = some k) (hst : rangeStatus s r true dpa b.length = St.ok)
    (hg : gateHolds s r dpa b.length (defaultClass r) = true) :
    exec (.memoryWrite (.direct r dpa b poison)) s =
      .next (holdAt s k { req := r, dpa := dpa, len := b.length, data := some (b, poison), cls := defaultClass r, since := s.time }) :=
  congrArg Host.Outcome.next (accessStart_of_gated hk hst hg)

theorem memoryRead_queued {t : Tier} {c : Nat} (hst : rangeStatus s r false dpa len = St.ok)
    (hg : gateHolds s r dpa len (defaultClass r) = false) (hc : retrainingAt s false dpa len = some (t, c)) :
    exec (.memoryRead r dpa len) s =
      .next (queueAt s t c { req := r, dpa := dpa, len := len, data := none, cls := defaultClass r, since := s.time }) :=
  congrArg Host.Outcome.next ((accessStart_of_ungated hg).trans (accessChan_of_retraining hst hc))

end

/-! ### AGING_PROMOTION (R127, log 103) -/

@[simp] theorem chanOf_setChan (s : State) (t : Tier) (c : Nat) (x : Chan) : chanOf (setChan s t c x) t c = x := mget_mput ..

@[simp] theorem chanOf_bumpO (s : State) (p : Option Nat) (i n : Nat) (t : Tier) (c : Nat) : chanOf (bumpO s p i n) t c = chanOf s t c := by
  simp only [chanOf, bumpO_svc]

theorem admitSources_of_none {s : State} {t : Tier} {c : Nat} (h : (chanOf s t c).source = []) : admitSources s t c = s := by
  simp only [admitSources, h]
  rfl

section
variable {s : State} {t : Tier} {c e : Nat} {w : Waiting} (hw : (chanOf s t c).queue[e]? = some w)
include hw

theorem agingPromotion_promotes {up : Waiting} (hcls : 0 < w.cls) (hage : w.classAt + agingLimit s w.cls < s.time)
    (hup : up = { w with cls := w.cls - 1, classAt := s.time }) (hplace : queuePlace s t c up = true)
    (hsrc : (chanOf s t c).source = []) :
    exec (.agingPromotion t c e) s = .next (bumpO (setChan s t c { chanOf s t c with queue := (chanOf s t c).queue.set e up })
      (rqPart w.req) 29 1) := by
  subst hup
  refine congrArg Host.Outcome.next ?_
  simp only [hw]
  exact (if_neg (by simp [hplace, Nat.ne_of_gt hcls, hage])).trans (admitSources_of_none (by simp [hsrc]))

theorem agingPromotion_early (hage : s.time ≤ w.classAt + agingLimit s w.cls) : exec (.agingPromotion t c e) s = .next s := by
  refine congrArg Host.Outcome.next ?_
  simp only [hw]
  exact if_pos (by simp [hage])

end

/-- Settles O30: each clause is one way that an access goes, or the aging of an entry in the case of its condition. -/
theorem accessRows : Obligations.AccessRows := by
  refine ⟨fun _ _ _ _ => memoryRead_performed, fun _ _ _ _ _ => memoryWrite_performed,
    fun _ _ _ _ hr hlen hg hc => (partialWrite_eq_memoryWrite hlen).trans (memoryWrite_performed hr hg hc),
    fun _ _ _ _ _ => memoryRead_held, fun _ _ _ _ _ _ => memoryWrite_held, fun _ _ _ _ _ _ _ hst hg hc hw => ?queued,
    fun _ _ _ _ _ _ hw => agingPromotion_promotes hw, fun _ _ _ _ _ => agingPromotion_early⟩
  case queued => exact hw ▸ memoryRead_queued hst hg hc

end Sys2Proof.Machine
end

section
/-! PROOFS. The CXL host window (R117 to R119, R143): the commands that set and clear it, its decoder, and CXL.mem accesses, which a tripped
unit refuses at their regulator and answers at once; then O28. -/

namespace Sys2Proof.Machine

/-! ### MEM_WINDOW_SET, MEM_WINDOW_CLEAR and the decoder (R118, R119, log 29) -/

theorem clearWindow_window (s : State) : (clearWindow s).mem.window = none := by
  unfold clearWindow
  split
  case h_1 h => exact h
  case h_2 => rfl

/-- The window recorded over `n` regions from `first`: their lines are written back, and their entries marked. -/
def openWindow (s : State) (first n : Nat) : State :=
  { ((List.range n).map (first + ·)).foldl (fun s r =>
      setEntry (flushRegion s .cap r) .cap r (withBit (regionEntry (flushRegion s .cap r) .cap r) 4 true)) s with
    mem.window := some (first, n) }

section
variable {c : Cmd} {s a : State}

section
variable (h : Begun { op := 0x0308, need := 4, vf := false } c s a)
include h

theorem memWindowSet_completes {b : State} {limit : Nat} (hlic : licenceLimit a 2 = some limit) (hn : 0 < p16 c 2)
    (hmax : p16 c 2 ≤ 1024) (hlim : p16 c 2 ≤ limit) (hend : p16 c 0 + p16 c 2 ≤ 4096)
    (hvalid : ((List.range (p16 c 2)).map (p16 c 0 + ·)).all (fun r => eMode (regionEntry a .cap r) != 0) = true)
    (hfree : a.mem.window = none) (hport : reservedPort a ((List.range (p16 c 2)).map (p16 c 0 + ·)) = none)
    (hclaims : claimAll 3 (((List.range (p16 c 2)).map (p16 c 0 + ·)).map (regionRes .cap)) a = .inl b) :
    ∃ t, exec (.memWindowSet c) s = .next (complete t c St.ok []) ∧ t.mem.window = some (p16 c 0, p16 c 2) := by
  have hlimits : (decide (p16 c 2 > 1024) || decide (p16 c 2 > limit) || decide (p16 c 0 + p16 c 2 > Config.capRegions) ||
      ((List.range (p16 c 2)).map (p16 c 0 + ·)).any (fun r => eMode (regionEntry a .cap r) == 0)) = false := by
    have hall : ((List.range (p16 c 2)).map (p16 c 0 + ·)).any (fun r => eMode (regionEntry a .cap r) == 0) = false := by
      rw [List.any_eq_not_all_not]
      exact congrArg not hvalid
    simp [hmax, hlim, hall, Config.capRegions, hend]
  refine ⟨openWindow b (p16 c 0) (p16 c 2), ends_of rfl h ?_, rfl⟩
  simp only [hlic, hport, hclaims]
  exact (checked_tail (by simp [Nat.ne_of_gt hn])).trans ((checked_tail hlimits).trans (checked_tail (by simp [hfree])))

theorem memWindowSet_unlicensed (hlic : licenceLimit a 2 = none) :
    exec (.memWindowSet c) s = .next (complete a c St.notLicensed []) :=
  ends_of rfl h (by simp only [hlic])

end

section
variable (h : Begun { op := 0x0309, vf := false } c s a)
include h

theorem memWindowClear_completes (hc : a.mem.committed = false) :
    ∃ t, exec (.memWindowClear c) s = .next (complete t c St.ok []) ∧ t.mem.window = none :=
  ⟨clearWindow a, ends_of rfl h (checked_tail hc), clearWindow_window a⟩

theorem memWindowClear_committed (hc : a.mem.committed = true) :
    exec (.memWindowClear c) s = .next (complete a c St.regionBusy []) :=
  ends_of rfl h (checked_head hc)

end
end

/-! ### A tripped unit refuses the window's accesses (R143, log 35) -/

theorem granuleAddrs_within_granule {dpa len : Nat} (hlen : dpa % 64 + len ≤ 64) (hpos : 0 < len) :
    granuleAddrs dpa len = [dpa / 64 * 64] := by
  have hone : (dpa + len - 1) / 64 - dpa / 64 + 1 = 1 := by omega
  simp [granuleAddrs, granulesOf, Nat.ne_of_gt hpos, hone]

/-- Within one granule the range's status is the granule's. -/
theorem rangeStatus_within_granule {dpa len : Nat} (s : State) (r : Requester) (write : Bool) (hlen : dpa % 64 + len ≤ 64)
    (hpos : 0 < len) : rangeStatus s r write dpa len = statusAt s r write (dpa / 64 * 64) := by
  rw [rangeStatus, granuleAddrs_within_granule hlen hpos]
  exact ite_eq_right_iff.2 Eq.symm

@[simp] theorem placeIn_tier (s : State) (t : Tier) (e dpa : Nat) : (placeIn s t e dpa).tier = t := by
  simp only [placeIn]
  split <;> rfl

/-- Where a DPA is placed, it lies in a valid region of the place's tier. -/
theorem region_of_locate {s : State} {dpa e : Nat} {p : Place} (h : locate s dpa = some (p, e)) :
    ∃ r, whereIs dpa = .region p.tier r ∧ regionEntry s p.tier r = e ∧ eMode e ≠ 0 ∧ placeIn s p.tier e dpa = p := by
  unfold locate at h
  split at h
  case h_1 t r hwhere =>
    dsimp only at h
    split at h
    · exact absurd h nofun
    next hmode =>
      obtain ⟨rfl, rfl⟩ := Prod.mk.inj (Option.some.inj h)
      exact ⟨r, by rw [placeIn_tier]; exact ⟨hwhere, rfl, hmode, rfl⟩⟩
  case h_2 => exact absurd h nofun

theorem statusAt_window_of_tripped {s : State} {dpa : Nat} (write : Bool) (h : dpaTripped s dpa = true) :
    statusAt s .window write dpa ≠ St.ok := by
  unfold dpaTripped at h
  split at h
  case h_2 => exact absurd h nofun
  case h_1 p e hloc =>
    obtain ⟨r, hwhere, hentry, hmode, hplace⟩ := region_of_locate hloc
    have hstatus : accessStatus s .window dpa = St.thermalAbort := by
      simp [accessStatus, hwhere, hentry, hmode, hplace, rqPart, h]
    unfold statusAt
    split
    · decide
    · simp only [hwhere, hstatus]
      decide

/-! ### CXL.mem at its granule (R117, R143) -/

section
variable {s : State} {dpa : Nat} {b : List Byte}

theorem cxlReadNow_tripped (h : dpaTripped s (dpa / 64 * 64) = true) : cxlReadNow s dpa = cxlPoisoned s := if_pos h

theorem cxlReadNow_untripped (h : dpaTripped s (dpa / 64 * 64) = false) {g : Got}
    (hg : g = readGranule (charge s .window (dpa / 64 * 64) 64 1) .window (dpa / 64 * 64) 1) :
    cxlReadNow s dpa = setReply g.s g.status g.data g.poison := by
  subst hg
  exact if_neg (by simp [h])

/-- A read is the read of its granule. -/
theorem cxlReadNow_granule : cxlReadNow s (dpa / 64 * 64) = cxlReadNow s dpa := by
  simp only [cxlReadNow, Nat.mul_div_cancel (dpa / 64) (show 0 < 64 by decide)]

theorem cxlWriteNow_tripped {p : Place} {e : Nat} (hloc : locate s (dpa / 64 * 64) = some (p, e))
    (h : dpaTripped s (dpa / 64 * 64) = true) :
    cxlWriteNow s dpa b = setReply (noteDrop s p.tier p.chan p.off (dpa / 64 * 64) 4) St.ok [] false := by
  simp only [cxlWriteNow, h, hloc, if_true]

theorem cxlWriteNow_whole (hlen : b.length = 64) (ho : dpa % 64 = 0) (h : dpaTripped s dpa = false) :
    cxlWriteNow s dpa b = setReply (writeGranule (charge s .window dpa 64 1) .window dpa b false 1).2
      (writeGranule (charge s .window dpa 64 1) .window dpa b false 1).1 [] false := by
  have hgranule : dpa / 64 * 64 = dpa := Nat.div_mul_cancel (Nat.dvd_of_mod_eq_zero ho)
  simp only [cxlWriteNow, hgranule, h, hlen, if_true]
  exact if_neg (by decide)

end

/-! ### CXL_MEM_READ and CXL_MEM_WRITE -/

/-- A CXL.mem read, of a whole granule, as an access of the window (R117, R131). -/
def windowRead (s : State) (dpa : Nat) : Waiting :=
  { req := .window, dpa := dpa / 64 * 64, len := 64, data := none, cls := 1, since := s.time }

/-- A CXL.mem write as an access of the window (R117, R131). -/
def windowWrite (s : State) (dpa : Nat) (b : List Byte) : Waiting :=
  { req := .window, dpa := dpa, len := b.length, data := some (b, false), cls := 1, since := s.time }

section
variable {s : State} {dpa : Nat} {b : List Byte}

theorem cxlMemRead_outside (h : inWindow s dpa = false) : exec (.cxlMemRead dpa) s = .next s :=
  congrArg Host.Outcome.next (if_pos (by simp [h]))

theorem cxlMemWrite_outside (h : inWindow s dpa = false) : exec (.cxlMemWrite dpa b) s = .next s :=
  congrArg Host.Outcome.next (if_pos (by simp [h]))

section
variable (h : inWindow s dpa = true)
include h

/-- A read that meets the window starts as an access to its granule. -/
theorem cxlMemRead_starts : exec (.cxlMemRead dpa) s = .next (accessStart s (windowRead s dpa)) :=
  congrArg Host.Outcome.next (if_neg (by simp [h]))

theorem cxlMemWrite_starts (hlen : dpa % 64 + b.length ≤ 64) :
    exec (.cxlMemWrite dpa b) s = .next (accessStart s (windowWrite s dpa b)) :=
  congrArg Host.Outcome.next (if_neg (by simp [h, hlen]))

theorem cxlMemRead_performed (hg : gateHolds s .window (dpa / 64 * 64) 64 1 = false)
    (hc : retrainingAt s false (dpa / 64 * 64) 64 = none) : exec (.cxlMemRead dpa) s = .next (cxlReadNow s dpa) :=
  (cxlMemRead_starts h).trans (congrArg Host.Outcome.next ((accessStart_of_free (w := windowRead s dpa) hg hc).trans cxlReadNow_granule))

theorem cxlMemRead_tripped (ht : dpaTripped s (dpa / 64 * 64) = true) : exec (.cxlMemRead dpa) s = .next (cxlPoisoned s) := by
  have hst : rangeStatus s .window false (dpa / 64 * 64) 64 ≠ St.ok := by
    rw [rangeStatus_within_granule _ _ _ (by omega) (by decide), Nat.mul_div_cancel _ (by decide)]
    exact statusAt_window_of_tripped _ ht
  exact (cxlMemRead_starts h).trans (congrArg Host.Outcome.next
    ((accessStart_of_refused (w := windowRead s dpa) hst).trans (cxlReadNow_granule.trans (cxlReadNow_tripped ht))))

theorem cxlMemWrite_performed (hlen : dpa % 64 + b.length ≤ 64) (hg : gateHolds s .window dpa b.length 1 = false)
    (hc : retrainingAt s true dpa b.length = none) : exec (.cxlMemWrite dpa b) s = .next (cxlWriteNow s dpa b) :=
  (cxlMemWrite_starts h hlen).trans (congrArg Host.Outcome.next (accessStart_of_free (w := windowWrite s dpa b) hg hc))

theorem cxlMemWrite_tripped {p : Place} {e : Nat} (hpos : 0 < b.length) (hlen : dpa % 64 + b.length ≤ 64)
    (hloc : locate s (dpa / 64 * 64) = some (p, e)) (ht : tripped s p.tier (chanUnit p.tier p.chan) = true) :
    exec (.cxlMemWrite dpa b) s = .next (setReply (noteDrop s p.tier p.chan p.off (dpa / 64 * 64) 4) St.ok [] false) := by
  have htripped : dpaTripped s (dpa / 64 * 64) = true := by simpa only [dpaTripped, hloc] using ht
  have hst : rangeStatus s .window true dpa b.length ≠ St.ok := by
    rw [rangeStatus_within_granule _ _ _ hlen hpos]
    exact statusAt_window_of_tripped _ htripped
  exact (cxlMemWrite_starts h hlen).trans (congrArg Host.Outcome.next
    ((accessStart_of_refused (w := windowWrite s dpa b) hst).trans (cxlWriteNow_tripped hloc htripped)))

end
end

/-- Settles O28: the commands by their checks, and an access by whether it meets the window, is free to go, and meets a tripped unit. -/
theorem windowRows : Obligations.WindowRows := by
  refine ⟨fun _ _ _ _ _ h => memWindowSet_completes h, fun _ _ _ => memWindowSet_unlicensed, fun _ _ _ => memWindowClear_completes,
    fun _ _ _ => memWindowClear_committed, fun _ => rfl, fun _ => rfl, fun s dpa a g h ha hg hc ht hgot => ?read,
    fun s dpa h ht => ?tripped, fun _ _ => cxlMemRead_outside, fun s dpa b h hlen ho hg hc ht => ?write,
    fun _ _ _ _ _ h => cxlMemWrite_tripped h, fun _ _ _ => cxlMemWrite_outside⟩
  case read =>
    subst ha
    exact (cxlMemRead_performed h hg hc).trans (congrArg Host.Outcome.next (cxlReadNow_untripped ht hgot))
  case tripped => exact ⟨cxlPoisoned s, (freeBytes s 64).1, cxlMemRead_tripped h ht, rfl, rfl⟩
  case write =>
    exact (cxlMemWrite_performed h (by omega) (by rwa [hlen]) (by rwa [hlen])).trans
      (congrArg Host.Outcome.next (cxlWriteNow_whole hlen ho ht))

end Sys2Proof.Machine
end

section
/-! PROOFS. The cache control window (R98) and the memory test (R389): what a descriptor starts and its end reports, and what the end of a
test leaves in the channels, in the defect map and in the buffer; then O29. -/

namespace Sys2Proof.Machine

/-! ### A descriptor in the control window (R98, log 28) -/

section
variable {s : State} {p : Nat} {b : List Byte}

/-- The row answers with the status of the write that its partition makes. -/
theorem cacheControlWrite_replies {st : Nat} {u : State} (h : controlWrite s (some p) (0x1000 * p) b = (st, u)) :
    exec (.cacheControlWrite (.part p) p b) s = .next (setReply u st [] false) := by
  change execCacheControlWrite (.part p) p b s = _
  simp only [execCacheControlWrite, rqPart, h, setReply]

/-- An operation is under way in the granule of partition `p`. -/
def controlStarted (s : State) (p : Nat) : State :=
  { s with mem.ctl := mput s.mem.ctl p { ctlOf s p with busy := true, overrun := false } }

section
variable (hp : p < 4) (hb : b.length = 64)
include hp hb

/-- A descriptor written whole to the granule of its own partition is refused by neither the window nor its length. -/
theorem controlWrite_descriptor : controlWrite s (some p) (0x1000 * p) b =
    if (ctlOf s p).busy then (St.ok, { s with mem.ctl := mput s.mem.ctl p { ctlOf s p with overrun := true } })
    else if !isDpa (fieldN b 0 8) || fieldN b 0 8 % 64 != 0 || fieldN b 8 8 % 64 != 0 || fieldN b 8 8 == 0 || fieldN b 16 1 == 0 ||
        decide (fieldN b 16 1 > 3) then
      (St.ok, controlFinish (controlStarted s p) p (BitVec.ofNat 16 St.badAddress))
    else
      let (st, s2) := cacheOp (controlStarted s p) (some p) (fieldN b 0 8) (fieldN b 8 8) (fieldN b 16 1)
      (St.ok, { s2 with mem.ctl := mput s2.mem.ctl p { ctlOf s2 p with op := some (BitVec.ofNat 16 st) } }) := by
  have hslot : 0x1000 * p / 0x1000 = p := Nat.mul_div_cancel_left p (by decide)
  have hlow : 0x1000 * p % 0x1000 = 0 := Nat.mul_mod_right ..
  have hown : ¬ (0x1000 * p ≥ 0x4000 ∨ 0x1000 * p % 0x1000 ≥ 64 ∨ (some p ≠ none ∧ some p ≠ some (0x1000 * p / 0x1000))) := by
    rw [hslot, hlow]
    rintro (hwindow | hgranule | ⟨-, hother⟩)
    · omega
    · omega
    · exact hother rfl
  have hwhole : ¬ (0x1000 * p % 0x1000 ≠ 0 ∨ b.length ≠ 64) := by simp [hlow, hb]
  unfold controlWrite
  rw [if_neg hown, if_neg hwhole, hslot]
  rfl

theorem controlWrite_overruns (hbusy : (ctlOf s p).busy = true) : controlWrite s (some p) (0x1000 * p) b =
    (St.ok, { s with mem.ctl := mput s.mem.ctl p { ctlOf s p with overrun := true } }) := by
  rw [controlWrite_descriptor hp hb, if_pos hbusy]

theorem controlWrite_empty (hbusy : (ctlOf s p).busy = false) (hlen : fieldN b 8 8 = 0) : controlWrite s (some p) (0x1000 * p) b =
    (St.ok, controlFinish (controlStarted s p) p (BitVec.ofNat 16 St.badAddress)) := by
  rw [controlWrite_descriptor hp hb, if_neg (by simp [hbusy]), if_pos (by simp [hlen])]

theorem controlWrite_starts {st : Nat} {u : State} (hbusy : (ctlOf s p).busy = false) (hdpa : fieldN b 0 8 < 2 ^ 48)
    (halign : fieldN b 0 8 % 64 = 0) (hlen : fieldN b 8 8 % 64 = 0) (hpos : fieldN b 8 8 ≠ 0) (hop : 1 ≤ fieldN b 16 1)
    (hop3 : fieldN b 16 1 ≤ 3)
    (hact : cacheOp (controlStarted s p) (some p) (fieldN b 0 8) (fieldN b 8 8) (fieldN b 16 1) = (st, u)) :
    controlWrite s (some p) (0x1000 * p) b =
      (St.ok, { u with mem.ctl := mput u.mem.ctl p { ctlOf u p with op := some (BitVec.ofNat 16 st) } }) := by
  rw [controlWrite_descriptor hp hb, if_neg (by simp [hbusy]),
    if_neg (by simp [isDpa_of_lt hdpa, halign, hlen, hpos, hop3, Nat.ne_of_gt hop]), hact]

end

/-- An operation completes with the flags as its start left them. -/
theorem controlFinish_started (st : BitVec 16) :
    controlFinish (controlStarted s p) p st =
      { s with
        mem.ctl := mput (mput s.mem.ctl p { ctlOf s p with busy := true, overrun := false }) p
          { ctlOf s p with busy := false, overrun := false, op := none, status := st, count := (ctlOf s p).count + 1, stamp := stamp s } } := by
  simp only [controlFinish, controlStarted, ctlOf, mget_mput]
  rfl

theorem cacheControlDone_idle (h : (ctlOf s p).op = none) : exec (.cacheControlDone p) s = .next s := by
  change execCacheControlDone p s = _
  simp only [execCacheControlDone, h]

theorem cacheControlDone_finishes {st : BitVec 16} (h : (ctlOf s p).op = some st) :
    exec (.cacheControlDone p) s = .next (controlFinish s p st) := by
  change execCacheControlDone p s = _
  simp only [execCacheControlDone, h]

end

/-! ### MEM_TEST (R389) -/

theorem memTest_waits {c : Cmd} {s a : State} (h : Begun { op := 0x030A, need := 16, vf := false } c s a) (hmode : p8 c 4 ≤ 1)
    (hup : (testUnits (p8 c 0) (p16 c 2)).any (fun u => !unitUp a u.1 u.2) = false) (hidle : a.svc.test = none)
    (hfree : (serving a && (testUnits (p8 c 0) (p16 c 2)).any (fun u => unitInUse a u.1 u.2)) = false) :
    Waits (.memTest c) 0x030A c s
      { a with svc.test := some { sites := p8 c 0, ports := p16 c 2, sampled := p8 c 4 == 1, buffer := p64 c 8 } } .memTest :=
  waits_of rfl h ((checked_tail (by simp [hmode])).trans
    ((checked_tail hup).trans ((checked_tail (by simp [hidle])).trans (checked_tail hfree))))

/-! ### What the test leaves in its channels (R389, R471, log 7) -/

/-- Channels, by key, after the test's last writes. -/
def testChannels (s : State) (keys : List Nat) (sampled : Bool) : State := keys.foldl (fun s k => testChannel s k sampled) s

/-- Of the cells, those of the channels tested go; nothing changes but cells and fills. -/
theorem testChannels_eq (keys : List Nat) (sampled : Bool) (s : State) :
    testChannels s keys sampled = { s with
      mem.cells := s.mem.cells.filter (fun e => !keys.contains (cellChan e.1))
      mem.chanFill := (testChannels s keys sampled).mem.chanFill } := by
  induction keys generalizing s with
  | nil =>
    have hnone : s.mem.cells.filter (fun e => !([] : List Nat).contains (cellChan e.1)) = s.mem.cells :=
      List.filter_eq_self.2 fun _ _ => rfl
    rw [hnone]
    rfl
  | cons k r ih =>
    have hcells : (s.mem.cells.filter (fun e => cellChan e.1 != k)).filter (fun e => !r.contains (cellChan e.1)) =
        s.mem.cells.filter (fun e => !(k :: r).contains (cellChan e.1)) := by
      rw [List.filter_filter]
      refine List.filter_congr fun e _ => ?_
      rw [List.contains_cons, Bool.not_or, Bool.and_comm]
      rfl
    rw [← hcells]
    exact ih (testChannel s k sampled)

theorem fillOf_testChannel (s : State) (key : Nat) (sampled : Bool) :
    fillOf (testChannel s key sampled).mem key = if sampled then .sampled else .march := mget_mput ..

theorem fillOf_testChannel_ne {key k : Nat} (s : State) (sampled : Bool) (h : k ≠ key) :
    fillOf (testChannel s key sampled).mem k = fillOf s.mem k := mget_mput_ne _ _ _ _ _ h

/-- A channel with the test's fill keeps it while further channels are tested. -/
theorem fillOf_testChannels_of_filled {sampled : Bool} {k : Nat} (keys : List Nat) {s : State}
    (h : fillOf s.mem k = if sampled then .sampled else .march) :
    fillOf (testChannels s keys sampled).mem k = if sampled then .sampled else .march := by
  induction keys generalizing s with
  | nil => exact h
  | cons key r ih =>
    refine ih (s := testChannel s key sampled) ?_
    by_cases hk : k = key
    · rw [hk, fillOf_testChannel]
    · rw [fillOf_testChannel_ne s sampled hk, h]

theorem fillOf_testChannels {sampled : Bool} {k : Nat} {keys : List Nat} {s : State} (h : k ∈ keys) :
    fillOf (testChannels s keys sampled).mem k = if sampled then .sampled else .march := by
  induction keys generalizing s with
  | nil => exact absurd h List.not_mem_nil
  | cons key r ih =>
    rcases List.mem_cons.1 h with rfl | hr
    · exact fillOf_testChannels_of_filled r (fillOf_testChannel s k sampled)
    · exact ih hr

/-! ### Channels marked for map-out (R389, R394) -/

/-- The channels of a tier that the defect map marks for map-out. -/
def marks (d : Defect) : Tier → List Nat
  | .fast => d.fastMark
  | .cap => d.capMark

/-- The settings store holds what it is given, and nothing in service changes. -/
theorem writeStore_eq (s : State) (l : List Section) :
    writeStore s l = { s with pwr.bank0 := (writeStore s l).pwr.bank0, pwr.bank1 := (writeStore s l).pwr.bank1 } := by
  unfold writeStore
  dsimp only
  split <;> rfl

theorem storeDefect_eq (s : State) :
    storeDefect s = { s with pwr.bank0 := (storeDefect s).pwr.bank0, pwr.bank1 := (storeDefect s).pwr.bank1 } := writeStore_eq ..

/-- The defect map with a channel marked. -/
def withMark (d : Defect) (t : Tier) (c : Nat) : Defect :=
  match t with
  | .fast => { d with fastMark := if d.fastMark.contains c then d.fastMark else d.fastMark ++ [c] }
  | .cap => { d with capMark := if d.capMark.contains c then d.capMark else d.capMark ++ [c] }

theorem mem_marks_withMark {d : Defect} {t u : Tier} {c k : Nat} :
    k ∈ marks (withMark d t c) u ↔ k ∈ marks d u ∨ u = t ∧ k = c := by
  have hadd : ∀ l : List Nat, k ∈ (if l.contains c then l else l ++ [c]) ↔ k ∈ l ∨ k = c := fun l => by
    split
    case isTrue hc => exact ⟨.inl, fun h => h.elim id fun hk => hk ▸ List.contains_iff_mem.1 hc⟩
    case isFalse => simp
  cases t with
  | fast => cases u with
    | fast => exact (hadd d.fastMark).trans (by simp [marks])
    | cap => simp [marks, withMark]
  | cap => cases u with
    | fast => simp [marks, withMark]
    | cap => exact (hadd d.capMark).trans (by simp [marks])

theorem markChannel_cases (s : State) (t : Tier) (c : Nat) :
    markChannel s t c = if withMark s.pwr.defect t c = s.pwr.defect then { s with pwr.touched := true }
      else storeDefect { s with pwr.defect := withMark s.pwr.defect t c, pwr.touched := true } := by
  cases t <;> rfl

theorem markChannel_defect (s : State) (t : Tier) (c : Nat) : (markChannel s t c).pwr.defect = withMark s.pwr.defect t c := by
  rw [markChannel_cases]
  split
  case isTrue h => exact h.symm
  case isFalse => rw [storeDefect_eq]

/-- A state without what a mark changes: the defect map and the settings store. -/
def unpowered (s : State) : State := { s with pwr := { bank0 := { seq := 0, valid := false, sections := [] } } }

theorem eq_of_unpowered {s t : State} (h : unpowered t = unpowered s) : t = { s with pwr := t.pwr } :=
  congrArg (fun u : State => { u with pwr := t.pwr }) h

theorem unpowered_markChannel (s : State) (t : Tier) (c : Nat) : unpowered (markChannel s t c) = unpowered s := by
  rw [markChannel_cases]
  split
  case isTrue => rfl
  case isFalse => rw [storeDefect_eq]; rfl

/-- A channel whose finding fails is marked. -/
def markFinding (sampled : Bool) (s : State) (f : TestFinding) : State :=
  if testFails sampled f then markChannel s f.tier f.channel else s

theorem mem_marks_markFinding {sampled : Bool} {s : State} {f : TestFinding} {t : Tier} {k : Nat} :
    k ∈ marks (markFinding sampled s f).pwr.defect t ↔
      k ∈ marks s.pwr.defect t ∨ (testFails sampled f = true ∧ t = f.tier ∧ k = f.channel) := by
  unfold markFinding
  split
  case isTrue hfails => simp [markChannel_defect, mem_marks_withMark, hfails]
  case isFalse hpasses => simp [hpasses]

/-- Every channel whose finding fails is marked. -/
def markFailing (sampled : Bool) (s : State) (l : List TestFinding) : State := l.foldl (markFinding sampled) s

theorem mem_marks_markFailing {sampled : Bool} {l : List TestFinding} {s : State} {t : Tier} {k : Nat} :
    k ∈ marks (markFailing sampled s l).pwr.defect t ↔
      k ∈ marks s.pwr.defect t ∨ ∃ f ∈ l, testFails sampled f = true ∧ t = f.tier ∧ k = f.channel := by
  induction l generalizing s with
  | nil => simp [markFailing]
  | cons f r ih =>
    refine (ih (s := markFinding sampled s f)).trans ?_
    simp only [mem_marks_markFinding, List.mem_cons, or_and_right, exists_or, exists_eq_left, or_assoc]

theorem markFailing_eq (sampled : Bool) (s : State) (l : List TestFinding) :
    markFailing sampled s l = { s with pwr := (markFailing sampled s l).pwr } := by
  refine eq_of_unpowered (foldl_keeps unpowered l s fun u f => ?_)
  unfold markFinding
  split
  case isTrue => exact unpowered_markChannel ..
  case isFalse => rfl

/-! ### MEM_TEST_END (R389) -/

@[simp] theorem testRecord_length (sampled : Bool) (f : TestFinding) : (testRecord sampled f).length = 16 := by
  simp [testRecord]

theorem testRecords_length (sampled : Bool) (l : List TestFinding) : ((l.map (testRecord sampled)).flatten).length = 16 * l.length := by
  have hlen : List.length ∘ testRecord sampled = fun _ => 16 := funext (testRecord_length sampled)
  rw [List.length_flatten, List.map_map, hlen, List.map_const', List.sum_replicate_nat, Nat.mul_comm]

/-- The one running command that waits completes, and none is left running. -/
theorem finishWait_only {s : State} {x : Running} {w : Wait} (hrun : s.ink.running = [x]) (hw : x.wait = w) (st : Nat) (res : List Byte) :
    finishWait s w st res = complete { s with ink.running := [] } x.cmd st res := by
  simp [finishWait, hrun, hw]

/-- The channels of the units that a run tests. -/
def testedChans (s : State) (r : TestRun) : List (Tier × Nat) :=
  ((testUnits r.sites r.ports).map (fun u => (unitOf s u.1 u.2).chans.map (fun c => (u.1, c)))).flatten

/-- The test's end in its channels and the defect map, before its findings are written. -/
def testEnded (s : State) (r : TestRun) (seen : List TestFinding) : State :=
  markFailing r.sampled
    (testChannels { s with svc.test := none } ((testedChans s r).map (fun c => chanKey c.1 c.2)) r.sampled) seen

section
variable {s : State} {r : TestRun} {f seen : List TestFinding}

theorem testEnded_eq : testEnded s r seen = { s with
    svc.test := none
    mem.cells := s.mem.cells.filter (fun e => !((testedChans s r).map (fun c => chanKey c.1 c.2)).contains (cellChan e.1))
    mem.chanFill := (testEnded s r seen).mem.chanFill
    pwr := (testEnded s r seen).pwr } := by
  unfold testEnded
  rw [markFailing_eq, testChannels_eq]

@[simp] theorem testEnded_ink : (testEnded s r seen).ink = s.ink := by rw [testEnded_eq]
@[simp] theorem testEnded_host : (testEnded s r seen).host = s.host := by rw [testEnded_eq]
@[simp] theorem testEnded_hostFaults : (testEnded s r seen).hostFaults = s.hostFaults := by rw [testEnded_eq]
@[simp] theorem testEnded_test : (testEnded s r seen).svc.test = none := by rw [testEnded_eq]

theorem testEnded_cells : (testEnded s r seen).mem.cells =
    s.mem.cells.filter (fun e => !((testedChans s r).map (fun c => chanKey c.1 c.2)).contains (cellChan e.1)) := by
  rw [testEnded_eq]

theorem fillOf_testEnded {c : Tier × Nat} (hc : c ∈ testedChans s r) :
    fillOf (testEnded s r seen).mem (chanKey c.1 c.2) = if r.sampled then .sampled else .march := by
  rw [testEnded, markFailing_eq]
  exact fillOf_testChannels (List.mem_map_of_mem (f := fun c : Tier × Nat => chanKey c.1 c.2) hc)

/-- The row runs the test's end over the channels themselves. -/
theorem testEnded_fold : testEnded s r seen = seen.foldl (markFinding r.sampled)
    ((testedChans s r).foldl (fun s c => testChannel s (chanKey c.1 c.2) r.sampled) { s with svc.test := none }) := by
  rw [testEnded, testChannels, List.foldl_map, markFailing]

/-- The end of a test whose buffer takes the findings completes the one command that waits for it. -/
theorem memTestEnd_completes {x : Running} (ht : s.svc.test = some r) (hrun : s.ink.running = [x]) (hw : x.wait = .memTest)
    (hseen : seen = f.filter (fun g => (testedChans s r).contains (g.tier, g.channel)))
    (hhost : hostOk s r.buffer (16 * seen.length) = true) :
    exec (.memTestEnd f) s = .next (complete
      { hostStore (testEnded s r seen) r.buffer ((seen.map (testRecord r.sampled)).flatten) with ink.running := [] } x.cmd St.ok []) := by
  have hwrite : hostWrite? (testEnded s r seen) r.buffer ((seen.map (testRecord r.sampled)).flatten) =
      some (hostStore (testEnded s r seen) r.buffer ((seen.map (testRecord r.sampled)).flatten)) :=
    hostWrite?_ok (by rw [testRecords_length, hostOk, testEnded_hostFaults]; exact hhost)
  have hrow : exec (.memTestEnd f) s = .next
      (match hostWrite? (testEnded s r seen) r.buffer ((seen.map (testRecord r.sampled)).flatten) with
        | some u => finishWait u .memTest St.ok []
        | none => finishWait (testEnded s r seen) .memTest St.hostFault []) := by
    subst hseen
    change execMemTestEnd f s = _
    rw [testEnded_fold]
    simp only [execMemTestEnd, ht]
    rfl
  rw [hrow, hwrite]
  exact congrArg Host.Outcome.next (finishWait_only (by rw [hostStore_ink, testEnded_ink, hrun]) hw St.ok [])

theorem memTestEnd_idle (ht : s.svc.test = none) : exec (.memTestEnd f) s = .next s := by
  change execMemTestEnd f s = _
  simp only [execMemTestEnd, ht]

end

/-- Settles O29: the window by what its operation's state lets a descriptor do, the test by its checks and by what its end leaves. -/
theorem controlAndTestRows : Obligations.ControlAndTestRows := by
  refine ⟨fun s p b hp hb hbusy => ?overrun, fun s p b hp hb hbusy hlen => ?badField,
    fun s u p st b hp hb hbusy hdpa halign hlen hpos hop hop3 hact => ?starts, fun _ _ => cacheControlDone_idle,
    fun _ _ _ => cacheControlDone_finishes, fun _ _ _ => memTest_waits, fun s r x f seen chans ht hrun hw hchans hseen hhost => ?ended,
    fun _ _ => memTestEnd_idle⟩
  case overrun =>
    rw [cacheControlWrite_replies (controlWrite_overruns hp hb hbusy)]
    rfl
  case badField =>
    rw [cacheControlWrite_replies (controlWrite_empty hp hb hbusy hlen), controlFinish_started]
    rfl
  case starts =>
    rw [cacheControlWrite_replies (controlWrite_starts hp hb hbusy hdpa halign hlen hpos hop hop3 hact)]
    rfl
  case ended =>
    have hmarked : ∀ g ∈ seen, testFails r.sampled g = true → g.channel ∈ marks (testEnded s r seen).pwr.defect g.tier :=
      fun g hg hfails => mem_marks_markFailing.2 (.inr ⟨g, hg, hfails, rfl, rfl⟩)
    subst hchans
    refine ⟨_, memTestEnd_completes ht hrun hw hseen hhost, ?idle, rfl, ?cells, fun c hc => ?fill, ?host, fun g hg htier hfails => ?fast,
      fun g hg htier hfails => ?cap⟩
    case idle => simp
    case cells => simp only [hostStore_mem, testEnded_cells, testedChans]
    case fill => simpa using fillOf_testEnded hc
    case host => simp [hostPut]
    case fast => simpa [marks, htier] using hmarked g hg hfails
    case cap => simpa [marks, htier] using hmarked g hg hfails

end Sys2Proof.Machine
end

section
/-! PROOFS. The canonical form of both byte memories (R145, R471) and the queue of waiting commands: every command keeps them, by the lemma
of its own meaning, and so does a tick; then O6 and O5. -/

namespace Sys2Proof.Machine

/-- Settles O6: nothing is written at reset, so both memories are without cells. -/
theorem resetMemoryCanonical : Obligations.ResetMemoryCanonical :=
  ⟨Bool.and_eq_true_iff.2 ⟨reset_cells_wf, reset_host_wf⟩, rfl⟩

/-- Every command keeps the queue of waiting commands and the canonical form of both memories. -/
theorem exec_kept {cs : List Instr} (i : Instr) (s : State) (h : Kept cs s) : OutKept cs (exec i s) :=
  match i with
  | .lineBoundary => execLineBoundary_kept s h
  | .cadenceEdge ns => execCadenceEdge_kept ns s h
  | .cadenceEdgeMissing => execCadenceEdgeMissing_kept s h
  | .holdoverExpire => execHoldoverExpire_kept s h
  | .markerLoss => execMarkerLoss_kept s h
  | .disciplineStale => execDisciplineStale_kept s h
  | .election => execElection_kept s h
  | .triggerEdge rising ns => execTriggerEdge_kept rising ns s h
  | .alarmFire => execAlarmFire_kept s h
  | .rulingStatus c => execRulingStatus_kept c s h
  | .rulingSetSources c => execRulingSetSources_kept c s h
  | .rulingSetPeriod c => execRulingSetPeriod_kept c s h
  | .rulingDiscipline c => execRulingDiscipline_kept c s h
  | .rulingLoad c => execRulingLoad_kept c s h
  | .rulingAlarm c => execRulingAlarm_kept c s h
  | .rulingTriggerSet c => execRulingTriggerSet_kept c s h
  | .inkwCtrlEn fn en => execInkwCtrlEn_kept fn en s h
  | .detach fn => execDetach_kept fn s h
  | .stampLoRead fn => execStampLoRead_kept fn s h
  | .inkwConIn fn v => execInkwConIn_kept fn v s h
  | .ringCfgWrite fn n v => execRingCfgWrite_kept fn n v s h
  | .submissionDoorbell fn n v host => execSubmissionDoorbell_kept fn n v host s h
  | .headDoorbell fn n v => execHeadDoorbell_kept fn n v s h
  | .registerWrite fn offset v => execRegisterWrite_kept fn offset v s h
  | .ringVisit fn n => execRingVisit_kept fn n s h
  | .coalesceTimeout fn n => execCoalesceTimeout_kept fn n s h
  | .identify c => execIdentify_kept c s h
  | .opcodeMap c => execOpcodeMap_kept c s h
  | .claim c => execClaim_kept c s h
  | .release c => execRelease_kept c s h
  | .claimQuery c => execClaimQuery_kept c s h
  | .abort c => execAbort_kept c s h
  | .eventFilter c => execEventFilter_kept c s h
  | .echo c => execEcho_kept c s h
  | .functionLevelReset fn => execFunctionLevelReset_kept fn s h
  | .numvfsWrite k => execNumvfsWrite_kept k s h
  | .memQuery c => execMemQuery_kept c s h
  | .memRegionSet c => execMemRegionSet_kept c s h
  | .memRegionGet c => execMemRegionGet_kept c s h
  | .memLocate c => execMemLocate_kept c s h
  | .memCopy c => execMemCopy_kept c s h
  | .memFill c => execMemFill_kept c s h
  | .memCacheOp c => execMemCacheOp_kept c s h
  | .memWindowSet c => execMemWindowSet_kept c s h
  | .memWindowClear c => execMemWindowClear_kept c s h
  | .memTest c => execMemTest_kept c s h
  | .cacheControlWrite r p bytes => execCacheControlWrite_kept r p bytes s h
  | .cacheControlDone p => execCacheControlDone_kept p s h
  | .cxlMemRead dpa => execCxlMemRead_kept dpa s h
  | .cxlMemWrite dpa bytes => execCxlMemWrite_kept dpa bytes s h
  | .hdmDecoderCommit => execHdmDecoderCommit_kept s h
  | .memoryRead r dpa len => execMemoryRead_kept r dpa len s h
  | .memoryWrite w => execMemoryWrite_kept w s h
  | .partialWrite r dpa bytes => execPartialWrite_kept r dpa bytes s h
  | .agingPromotion tier channel entry => execAgingPromotion_kept tier channel entry s h
  | .regulatorPhase => execRegulatorPhase_kept s h
  | .regulatorRelease reg => execRegulatorRelease_kept reg s h
  | .thermalSample temps => execThermalSample_kept temps s h
  | .scrubStep die tier => execScrubStep_kept die tier s h
  | .channelRetrain tier channel errors => execChannelRetrain_kept tier channel errors s h
  | .retrainComplete tier channel ok spare lost => execRetrainComplete_kept tier channel ok spare lost s h
  | .memRegSet c => execMemRegSet_kept c s h
  | .memClassSet c => execMemClassSet_kept c s h
  | .memThermalLoad c => execMemThermalLoad_kept c s h
  | .memThermalClear c => execMemThermalClear_kept c s h
  | .memThermalQuery c => execMemThermalQuery_kept c s h
  | .memErrRead c => execMemErrRead_kept c s h
  | .memErrCounters c => execMemErrCounters_kept c s h
  | .memScrubSet c => execMemScrubSet_kept c s h
  | .memTraffic c => execMemTraffic_kept c s h
  | .memTrafficEnd port m => execMemTrafficEnd_kept port m s h
  | .contribution w => execContribution_kept w s h
  | .contributionResend => execContributionResend_kept s h
  | .arithApply c => execArithApply_kept c s h
  | .arithOrderOpen c => execArithOrderOpen_kept c s h
  | .arithOrderClose c => execArithOrderClose_kept c s h
  | .resGather c => execResGather_kept c s h
  | .resStatus c => execResStatus_kept c s h
  | .reservoirDoorbell port channel slot => execReservoirDoorbell_kept port channel slot s h
  | .reservoirSlotDone port channel slot => execReservoirSlotDone_kept port channel slot s h
  | .foldBasisLoad c => execFoldBasisLoad_kept c s h
  | .foldBasisUnload c => execFoldBasisUnload_kept c s h
  | .foldBasisQuery c => execFoldBasisQuery_kept c s h
  | .foldLayoutLoad c => execFoldLayoutLoad_kept c s h
  | .foldLayoutUnload c => execFoldLayoutUnload_kept c s h
  | .foldExpand c => execFoldExpand_kept c s h
  | .foldVerify c => execFoldVerify_kept c s h
  | .foldFaultRead c => execFoldFaultRead_kept c s h
  | .foldCounters c => execFoldCounters_kept c s h
  | .blockExpand expander => execBlockExpand_kept expander s h
  | .basisCacheFill expander => execBasisCacheFill_kept expander s h
  | .add core f => execAdd_kept core f s h
  | .sub core f => execSub_kept core f s h
  | .mul core f => execMul_kept core f s h
  | .and core f => execAnd_kept core f s h
  | .or core f => execOr_kept core f s h
  | .xor core f => execXor_kept core f s h
  | .shl core f => execShl_kept core f s h
  | .shr core f => execShr_kept core f s h
  | .sra core f => execSra_kept core f s h
  | .li core f => execLi_kept core f s h
  | .ld core f => execLd_kept core f s h
  | .st core f => execSt_kept core f s h
  | .br core f => execBr_kept core f s h
  | .csr core f => execCsr_kept core f s h
  | .halt core f => execHalt_kept core f s h
  | .vadd core f => execVadd_kept core f s h
  | .vsub core f => execVsub_kept core f s h
  | .vmul core f => execVmul_kept core f s h
  | .vfma core f => execVfma_kept core f s h
  | .vmax core f => execVmax_kept core f s h
  | .vmin core f => execVmin_kept core f s h
  | .vexp2 core f => execVexp2_kept core f s h
  | .vrcp core f => execVrcp_kept core f s h
  | .vrsqrt core f => execVrsqrt_kept core f s h
  | .vdup core f => execVdup_kept core f s h
  | .vld core f => execVld_kept core f s h
  | .vst core f => execVst_kept core f s h
  | .vcvt core f => execVcvt_kept core f s h
  | .vsum core f => execVsum_kept core f s h
  | .vperm core f => execVperm_kept core f s h
  | .mma core f => execMma_kept core f s h
  | .mmast core f => execMmast_kept core f s h
  | .xrd core f => execXrd_kept core f s h
  | .xrdComplete core => execXrdComplete_kept core s h
  | .xwr core f => execXwr_kept core f s h
  | .xexp core f => execXexp_kept core f s h
  | .xexpComplete core => execXexpComplete_kept core s h
  | .fold core f => execFold_kept core f s h
  | .patom core f => execPatom_kept core f s h
  | .fatom core f => execFatom_kept core f s h
  | .fatomComplete core => execFatomComplete_kept core s h
  | .fence core f => execFence_kept core f s h
  | .fenceComplete core => execFenceComplete_kept core s h
  | .tsig core f => execTsig_kept core f s h
  | .twait core f => execTwait_kept core f s h
  | .twaitTimeout core => execTwaitTimeout_kept core s h
  | .lclaim core f => execLclaim_kept core f s h
  | .tallyValueWrite r tally v => execTallyValueWrite_kept r tally v s h
  | .tallyAddWrite r tally v => execTallyAddWrite_kept r tally v s h
  | .kernel p q => execKernel_kept p q s h
  | .kernelStart p q => execKernelStart_kept p q s h
  | .kernelComplete p q => execKernelComplete_kept p q s h
  | .copy p q => execCopy_kept p q s h
  | .foldCopy p q => execFoldCopy_kept p q s h
  | .reduce p q => execReduce_kept p q s h
  | .gatherRes p q => execGatherRes_kept p q s h
  | .tallySignal p q => execTallySignal_kept p q s h
  | .tallyWait p q => execTallyWait_kept p q s h
  | .tallyWaitTimeout p q => execTallyWaitTimeout_kept p q s h
  | .markBegin p q => execMarkBegin_kept p q s h
  | .markEnd p q => execMarkEnd_kept p q s h
  | .stepBegin p q => execStepBegin_kept p q s h
  | .stepEnd p q => execStepEnd_kept p q s h
  | .ledgerFill p q => execLedgerFill_kept p q s h
  | .queueAdvance p q => execQueueAdvance_kept p q s h
  | .coreMap c => execCoreMap_kept c s h
  | .partConfig c => execPartConfig_kept c s h
  | .quireSubmit c => execQuireSubmit_kept c s h
  | .queueControl c => execQueueControl_kept c s h
  | .tallyOp c => execTallyOp_kept c s h
  | .ledgerConfig c => execLedgerConfig_kept c s h
  | .ledgerQuery c => execLedgerQuery_kept c s h
  | .coreFaultRead c => execCoreFaultRead_kept c s h
  | .modelLoad c => execModelLoad_kept c s h
  | .modelUnload c => execModelUnload_kept c s h
  | .pagePoolConfig c => execPagePoolConfig_kept c s h
  | .pageMapConfig c => execPageMapConfig_kept c s h
  | .reqSubmit c => execReqSubmit_kept c s h
  | .reqQuery c => execReqQuery_kept c s h
  | .reqCancel c => execReqCancel_kept c s h
  | .reqPause c => execReqPause_kept c s h
  | .reqResume c => execReqResume_kept c s h
  | .reqRetire c => execReqRetire_kept c s h
  | .prefixLookup c => execPrefixLookup_kept c s h
  | .prefixPin c => execPrefixPin_kept c s h
  | .prefixUnpin c => execPrefixUnpin_kept c s h
  | .prefixFlush c => execPrefixFlush_kept c s h
  | .pageStats c => execPageStats_kept c s h
  | .parkCopyDone entry => execParkCopyDone_kept entry s h
  | .ttlExpire entry => execTtlExpire_kept entry s h
  | .restoreDone entry => execRestoreDone_kept entry s h
  | .summaryFoldDone entry => execSummaryFoldDone_kept entry s h
  | .stepConfig c => execStepConfig_kept c s h
  | .stepConfirm c => execStepConfirm_kept c s h
  | .stepControl c => execStepControl_kept c s h
  | .stepWatchdogSet c => execStepWatchdogSet_kept c s h
  | .reqLatency c => execReqLatency_kept c s h
  | .frameSlotConfig c => execFrameSlotConfig_kept c s h
  | .framePost c => execFramePost_kept c s h
  | .expertConfig c => execExpertConfig_kept c s h
  | .expertBiasSet c => execExpertBiasSet_kept c s h
  | .expertQuery c => execExpertQuery_kept c s h
  | .stepProposal p => execStepProposal_kept p s h
  | .stepRunAdvance p => execStepRunAdvance_kept p s h
  | .stepWatchdog p => execStepWatchdog_kept p s h
  | .flourishConfig c => execFlourishConfig_kept c s h
  | .grammarLoad c => execGrammarLoad_kept c s h
  | .grammarUnload c => execGrammarUnload_kept c s h
  | .flourishProbe c => execFlourishProbe_kept c s h
  | .flourishCounters c => execFlourishCounters_kept c s h
  | .linkInit l f => execLinkInit_kept l f s h
  | .probe l t1 t2 t3 t4 => execProbe_kept l t1 t2 t3 t4 s h
  | .berMeasureEnd l corrected uncorrectable received => execBerMeasureEnd_kept l corrected uncorrectable received s h
  | .trainAttemptTimeout l => execTrainAttemptTimeout_kept l s h
  | .fecLockLoss l => execFecLockLoss_kept l s h
  | .linkRetrainEnd l ok => execLinkRetrainEnd_kept l ok s h
  | .dataFlit l f => execDataFlit_kept l f s h
  | .replayTimeout l => execReplayTimeout_kept l s h
  | .creditStall l channel => execCreditStall_kept l channel s h
  | .read l m => execRead_kept l m s h
  | .write l m => execWrite_kept l m s h
  | .contrib l m => execContrib_kept l m s h
  | .signal l m => execSignal_kept l m s h
  | .readData l m => execReadData_kept l m s h
  | .compl l m => execCompl_kept l m s h
  | .retry l m => execRetry_kept l m s h
  | .lineMarker l m => execLineMarker_kept l m s h
  | .slow l m => execSlow_kept l m s h
  | .advert l m => execAdvert_kept l m s h
  | .collReady l m => execCollReady_kept l m s h
  | .collAbortReceived l m => execCollAbortReceived_kept l m s h
  | .concord l m => execConcord_kept l m s h
  | .spdm l e => execSpdm_kept l e s h
  | .remoteTimeout tag => execRemoteTimeout_kept tag s h
  | .heartbeat l => execHeartbeat_kept l s h
  | .challengeTimer l => execChallengeTimer_kept l s h
  | .keyUpdate l => execKeyUpdate_kept l s h
  | .collectiveBegin id => execCollectiveBegin_kept id s h
  | .collTimeout id => execCollTimeout_kept id s h
  | .loopbackEnd l corrected uncorrectable received => execLoopbackEnd_kept l corrected uncorrectable received s h
  | .linkStatus c => execLinkStatus_kept c s h
  | .linkSet c => execLinkSet_kept c s h
  | .linkReset c => execLinkReset_kept c s h
  | .linkLoopback c => execLinkLoopback_kept c s h
  | .groupConfig c => execGroupConfig_kept c s h
  | .groupRejoin c => execGroupRejoin_kept c s h
  | .groupStatus c => execGroupStatus_kept c s h
  | .collStart c => execCollStart_kept c s h
  | .collAbort c => execCollAbort_kept c s h
  | .linkCounters c => execLinkCounters_kept c s h
  | .aonResetNRelease straps => execAonResetNRelease_kept straps s h
  | .perstNFall => execPerstNFall_kept s h
  | .perstNRelease => execPerstNRelease_kept s h
  | .conventionalReset => execConventionalReset_kept s h
  | .bringupStageEnd r => execBringupStageEnd_kept r s h
  | .stageTimeout => execStageTimeout_kept s h
  | .scribeWatchdog => execScribeWatchdog_kept s h
  | .domainPowerTimeout domain => execDomainPowerTimeout_kept domain s h
  | .enterFaulted => execEnterFaulted_kept s h
  | .powerSample watts => execPowerSample_kept watts s h
  | .junctionSample maxC => execJunctionSample_kept maxC s h
  | .supplyLoss => execSupplyLoss_kept s h
  | .computeResetEnd p failed => execComputeResetEnd_kept p failed s h
  | .capEntryDone => execCapEntryDone_kept s h
  | .capWakeN => execCapWakeN_kept s h
  | .capWakeDone => execCapWakeDone_kept s h
  | .fwSessionTimeout => execFwSessionTimeout_kept s h
  | .faultLogRead c => execFaultLogRead_kept c s h
  | .reset c => execReset_kept c s h
  | .bringupConfig c => execBringupConfig_kept c s h
  | .defectMapRead c => execDefectMapRead_kept c s h
  | .defectMapClear c => execDefectMapClear_kept c s h
  | .settingsRead c => execSettingsRead_kept c s h
  | .settingsWrite c => execSettingsWrite_kept c s h
  | .settingsCommit c => execSettingsCommit_kept c s h
  | .fwWrite c => execFwWrite_kept c s h
  | .fwActivate c sig => execFwActivate_kept c sig s h
  | .fwStatus c => execFwStatus_kept c s h
  | .licenceInstall c sig => execLicenceInstall_kept c sig s h
  | .licenceQuery c => execLicenceQuery_kept c s h
  | .powerCapEnter c => execPowerCapEnter_kept c s h
  | .powerCapExit c => execPowerCapExit_kept c s h
  | .powerStatus c => execPowerStatus_kept c s h
  | .queryDeviceIdentifiers => execQueryDeviceIdentifiers_kept s h
  | .getFirmwareParameters => execGetFirmwareParameters_kept s h
  | .requestUpdate => execRequestUpdate_kept s h
  | .passComponentTable m => execPassComponentTable_kept m s h
  | .updateComponent m => execUpdateComponent_kept m s h
  | .requestFirmwareData m => execRequestFirmwareData_kept m s h
  | .transferComplete m => execTransferComplete_kept m s h
  | .verifyComplete m => execVerifyComplete_kept m s h
  | .applyComplete m => execApplyComplete_kept m s h
  | .activateFirmware sig => execActivateFirmware_kept sig s h
  | .getStatus => execGetStatus_kept s h
  | .cancelUpdate => execCancelUpdate_kept s h
  | .pldmSensorRequest x => execPldmSensorRequest_kept x s h
  | .getVersion => execGetVersion_kept s h
  | .getCapabilities => execGetCapabilities_kept s h
  | .negotiateAlgorithms => execNegotiateAlgorithms_kept s h
  | .getDigests => execGetDigests_kept s h
  | .getCertificate => execGetCertificate_kept s h
  | .challenge => execChallenge_kept s h
  | .getMeasurements => execGetMeasurements_kept s h
  | .obsCounters c => execObsCounters_kept c s h
  | .obsLatchRead c => execObsLatchRead_kept c s h
  | .obsProgConfig c => execObsProgConfig_kept c s h
  | .obsProgRead c => execObsProgRead_kept c s h
  | .obsTraceConfig c => execObsTraceConfig_kept c s h
  | .obsTraceControl c => execObsTraceControl_kept c s h
  | .obsRangeSelect c => execObsRangeSelect_kept c s h
  | .obsRangeRead c => execObsRangeRead_kept c s h
  | .obsWatchSet c => execObsWatchSet_kept c s h
  | .obsDigest c => execObsDigest_kept c s h
  | .obsDigestArm c => execObsDigestArm_kept c s h
  | .obsStepMode c => execObsStepMode_kept c s h
  | .obsStepNext c => execObsStepNext_kept c s h
  | .obsBlotterRead c => execObsBlotterRead_kept c s h
  | .obsFreeze c => execObsFreeze_kept c s h
  | .pcSample core => execPcSample_kept core s h
  | .traceDrainBurst instance_ => execTraceDrainBurst_kept instance_ s h
  | .stepLimitTimeout p q => execStepLimitTimeout_kept p q s h
  | .bypass => execBypass_kept s h
  | .idcode => execIdcode_kept s h
  | .samplePreload => execSamplePreload_kept s h
  | .extest => execExtest_kept s h
  | .clamp => execClamp_kept s h
  | .highz => execHighz_kept s h
  | .fecAlignmentLock l => execFecAlignmentLock_kept l s h
  | .challengeUnanswered l => execChallengeUnanswered_kept l s h
  | .memTestEnd findings => execMemTestEnd_kept findings s h
  | .illegal core word => execIllegal_kept core word s h
  | .imageVerified sigA sigB => execImageVerified_kept sigA sigB s h
  | .hdmDecoderUncommit => execHdmDecoderUncommit_kept s h
  | .aonResetNAssert => execAonResetNAssert_kept s h

/-- A step leaves the queue's rest and both memories in canonical form: a tick with an empty queue, the front command otherwise. -/
theorem step_kept {s : State} (h : Safe s) : OutKept s.pending.tail (step s) := by
  have hkept : Kept s.pending s := kept_of_wf h
  unfold step
  split
  case h_1 hempty =>
    have htick : Kept s.pending (tickPass s) := tickPass_kept s hkept
    rw [hempty] at htick ⊢
    exact htick
  case h_2 c rest hfront =>
    rw [hfront]
    exact exec_kept c _ ⟨⟨rfl, hkept.ok.mems⟩⟩

/-- Settles O5: a step's answer keeps more than the memories, the queue's rest as well. -/
theorem stepKeepsMemoryCanonical : Obligations.StepKeepsMemoryCanonical := fun s t hs ht => by
  have hkept := step_kept hs
  rw [ht] at hkept
  exact wf_of_kept hkept

end Sys2Proof.Machine
end

section
/-! PROOFS. Regulators and classes (R127 to R132): what a phase boundary gives a regulator, when a held access goes, and what the commands
that set regulators and classes answer once they have begun; then O31. -/

namespace Sys2Proof.Machine

/-! ### REGULATOR_PHASE (R129, R132) -/

/-- Where the waiting curve regulates the phase, the boundary only puts depth and curve in force. -/
theorem phaseReg_of_waiting {g : Regulator} {k d : Nat} {l : List Nat} (hp : g.pend = some (d, l)) (hl : l.getD k 0xFFFF ≠ 0xFFFF) :
    phaseReg k g = { g with depth := d, rates := l, level := min g.level (65536 * d : Nat), pend := none } := by
  simp only [phaseReg, hp]
  exact if_neg hl

/-! ### REGULATOR_RELEASE (R131) -/

section
variable {s : State} {k : Nat}

theorem releaseGo_of_closed (n : Nat) (h : regOpen s k = false) : releaseGo k n s = s := by
  cases n with
  | zero => rfl
  | succ n => exact if_pos (by simp [h])

theorem regulatorRelease_closed (h : regOpen s k = false) : exec (.regulatorRelease k) s = .next s :=
  congrArg Host.Outcome.next (releaseGo_of_closed _ h)

theorem regulatorRelease_empty (h : (regOf s k).held = []) : exec (.regulatorRelease k) s = .next s := by
  change execRegulatorRelease k s = _
  rw [execRegulatorRelease, h]
  rfl

theorem regulatorRelease_releases {w : Waiting} (ho : regOpen s k = true) (h : (regOf s k).held = [w]) :
    exec (.regulatorRelease k) s = .next (accessChan { s with svc.regs := mput s.svc.regs k { regOf s k with held := [] } }
      { w with since := s.time, classAt := s.time }) := by
  change execRegulatorRelease k s = _
  simp only [execRegulatorRelease, h, List.length_singleton, releaseGo, ho]
  rfl

end

/-! ### MEM_REG_SET and MEM_CLASS_SET (R127, R128, R130, R132) -/

section
variable {c : Cmd} {s a : State}

theorem memRegSet_completes (h : Begun { op := 0x030B, need := 40, vf := false } c s a) (ht : p8 c 1 ≤ 1) (hp : p8 c 0 ≤ 4)
    (hw : p8 c 0 = 4 → p8 c 1 = 1) (hmin : 4096 ≤ p32 c 4) (hmax : p32 c 4 ≤ 16777216) :
    Completes (.memRegSet c) c s
      { a with
        svc.regs := mput a.svc.regs (2 * p8 c 0 + p8 c 1)
          { regOf a (2 * p8 c 0 + p8 c 1) with pend := some (p32 c 4, (List.range 16).map (fun i => p16 c (8 + 2 * i))) } } [] := by
  have hwindow : (p8 c 0 == 4 && p8 c 1 == 0) = false := by
    by_cases h4 : p8 c 0 = 4 <;> simp [h4, hw]
  exact completes_of rfl h ((checked_tail (by simpa using ht)).trans (checked_tail (by simp [hp, hwindow, hmin, hmax])))

theorem memClassSet_completes (h : Begun { op := 0x030C, need := 7, vf := false } c s a)
    (hl : ∀ o ∈ [0, 2, 4], 1 ≤ p16 c o ∧ p16 c o ≤ 1023) (hmin : 1 ≤ p8 c 6) (hmax : p8 c 6 ≤ 10) :
    Completes (.memClassSet c) c s { a with svc.aging := [p16 c 0, p16 c 2, p16 c 4], svc.traceCap := p8 c 6 } [] := by
  have hlimits : ([0, 2, 4].map (p16 c)).any (fun v => v == 0 || decide (v > 1023)) = false := by
    rw [List.any_map]
    refine List.any_eq_false.2 fun o ho => ?_
    obtain ⟨hlo, hhi⟩ := hl o ho
    simp [Nat.ne_of_gt hlo, hhi]
  have hfields : (([0, 2, 4].map (p16 c)).any (fun v => v == 0 || decide (v > 1023)) || p8 c 6 == 0 || decide (p8 c 6 > 10)) = false := by
    rw [hlimits]
    simp [Nat.ne_of_gt hmin, hmax]
  exact completes_of rfl h (checked_tail hfields)

end

/-- Settles O31: a phase boundary regulator by regulator, a release by its bucket and what is held, and each command by its checks. -/
theorem regulatorRows : Obligations.RegulatorRows :=
  ⟨fun _ => rfl,
   fun _ _ _ _ => phaseReg_of_waiting,
   fun _ _ => regulatorRelease_closed,
   fun _ _ _ => regulatorRelease_releases,
   fun _ _ => regulatorRelease_empty,
   fun _ _ _ => memRegSet_completes,
   fun _ _ _ => memClassSet_completes⟩

end Sys2Proof.Machine
end

section
/-! PROOFS. Temperatures, curves and trips (R137 to R144): what a sample leaves of a unit below its trip temperature, at it, and once tripped,
and what the thermal commands answer once they have begun; then O32. -/

namespace Sys2Proof.Machine

/-! ### What records and notices leave of the memory service -/

@[simp] theorem blotUnit_svc (s : State) (t : Tier) (u code v : Nat) : (blotUnit s t u code v).svc = s.svc :=
  foldl_keeps State.svc _ s fun _ _ => blot_svc ..

@[simp] theorem logUnit_svc_thermal (s : State) (type : Nat) (t : Tier) (u : Nat) (temp : Int) (share : Nat) :
    (logUnit s type t u temp share).svc.thermal = s.svc.thermal := rfl

@[simp] theorem logUnit_svc_alert (s : State) (type : Nat) (t : Tier) (u : Nat) (temp : Int) (share : Nat) :
    (logUnit s type t u temp share).svc.alert = s.svc.alert := rfl

theorem sendSlow_svc (s : State) :
    (sendSlow s).svc = { s.svc with slowSent := (sendSlow s).svc.slowSent, slowSeq := (sendSlow s).svc.slowSeq } := by
  unfold sendSlow
  extract_lets d last moved q
  split
  · simp
  · rfl

@[simp] theorem sendSlow_svc_thermal (s : State) : (sendSlow s).svc.thermal = s.svc.thermal := by rw [sendSlow_svc]

@[simp] theorem sendSlow_svc_alert (s : State) : (sendSlow s).svc.alert = s.svc.alert := by rw [sendSlow_svc]

/-! ### A sample below the trip temperature (R137, R138) -/

@[simp] theorem thermalOf_setThermal (s : State) (t : Tier) (u : Nat) (h : Thermal) : thermalOf (setThermal s t u h) t u = h :=
  mget_mput ..

theorem thermalOf_of_thermal {s v : State} (h : v.svc.thermal = s.svc.thermal) (t : Tier) (u : Nat) : thermalOf v t u = thermalOf s t u := by
  rw [thermalOf, h, thermalOf]

/-- A row of one sample is that unit's sample, and a notice. -/
theorem thermalSample_single (s : State) (t : Tier) (u : Nat) (temp : Int) :
    exec (.thermalSample [(t, u, temp)]) s = .next (sendSlow (sampleUnit s t u temp)) := rfl

theorem thermalOf_shareSample (s : State) (t : Tier) (u : Nat) (temp : Int) :
    thermalOf (shareSample s t u temp) t u = { thermalOf s t u with
      temp := temp
      share := (nextShare (thermalOf s t u) (shareOf (curveOf s t) temp)).1
      cand := (nextShare (thermalOf s t u) (shareOf (curveOf s t) temp)).2 } := by
  simp only [shareSample]
  split
  case isTrue => exact thermalOf_setThermal ..
  case isFalse => exact (thermalOf_of_thermal (by simp) t u).trans (thermalOf_setThermal s t u _)

section
variable {s : State} {t : Tier} {u : Nat} {temp : Int} (hup : unitUp s t u = true)
include hup

theorem sampleUnit_tripped (ht : tripped s t u = true) : sampleUnit s t u temp = setThermal s t u { thermalOf s t u with temp := temp } :=
  (if_neg (by simp [hup])).trans (if_pos ht)

theorem sampleUnit_below (ht : tripped s t u = false) (hb : temp < (curveOf s t).trip) : sampleUnit s t u temp = shareSample s t u temp :=
  (if_neg (by simp [hup])).trans ((if_neg (ne_true_of_eq_false ht)).trans (if_neg (Int.not_le.2 hb)))

theorem sampleUnit_reached (ht : tripped s t u = false) (hr : (curveOf s t).trip ≤ temp) : sampleUnit s t u temp = trip s t u temp :=
  (if_neg (by simp [hup])).trans ((if_neg (ne_true_of_eq_false ht)).trans (if_pos hr))

end

/-! ### A trip of a unit on which nothing waits (R142, log 36) -/

/-- `v` is `s` but for the table in which its channels stand: each reads as it did, and what a trip reads is the same. -/
structure Relisted (s v : State) : Prop where
  mem : v.mem = s.mem
  ari : v.ari = s.ari
  duc : v.duc = s.duc
  thermal : v.svc.thermal = s.svc.thermal
  chans : ∀ t c, chanOf v t c = chanOf s t c

theorem Relisted.refl (s : State) : Relisted s s := ⟨rfl, rfl, rfl, rfl, fun _ _ => rfl⟩

theorem Relisted.trans {s v w : State} (h : Relisted s v) (k : Relisted v w) : Relisted s w :=
  ⟨k.mem.trans h.mem, k.ari.trans h.ari, k.duc.trans h.duc, k.thermal.trans h.thermal, fun t c => (k.chans t c).trans (h.chans t c)⟩

theorem relisted_setChan (s : State) (t : Tier) (c : Nat) : Relisted s (setChan s t c (chanOf s t c)) := by
  refine ⟨rfl, rfl, rfl, rfl, fun t' c' => ?_⟩
  by_cases hk : chanKey t' c' = chanKey t c
  case pos => simp only [chanOf, setChan, hk, mget_mput]
  case neg => exact mget_mput_ne _ _ _ _ _ hk

theorem tripQueue_of_empty {s : State} {t : Tier} {c : Nat} (h : (chanOf s t c).queue = []) :
    tripQueue t c s = (0, setChan s t c (chanOf s t c)) := by
  have hset : { chanOf s t c with queue := [] } = chanOf s t c := by rw [← h]
  simp only [tripQueue, h, List.foldl_nil, hset]

/-- Nothing waits in the queues of a unit's channels, nor at their sources. -/
def UnitIdle (s : State) (t : Tier) (u : Nat) : Prop :=
  ∀ c ∈ (unitOf s t u).chans, (chanOf s t c).queue = [] ∧ (chanOf s t c).source = []

theorem unitIdle_iff {s : State} {t : Tier} {u : Nat} :
    (unitOf s t u).chans.all (fun c => (chanOf s t c).queue.isEmpty && (chanOf s t c).source.isEmpty) = true ↔ UnitIdle s t u := by
  simp [UnitIdle]

theorem UnitIdle.of_same {s v : State} {t : Tier} {u : Nat} (h : UnitIdle s t u) (hm : v.mem = s.mem)
    (hc : ∀ c, chanOf v t c = chanOf s t c) : UnitIdle v t u := by
  intro c hmem
  have hunit : unitOf v t u = unitOf s t u := by cases t <;> simp only [unitOf, hm]
  rw [hc c]
  exact h c (hunit ▸ hmem)

/-- The channels' waits that end at a trip, added up. -/
def tripQueues (t : Tier) (cs : List Nat) (s : State) : Nat × State :=
  cs.foldl (fun (e : Nat × State) c => let (k, s1) := tripQueue t c e.2; (e.1 + k, s1)) (0, s)

theorem relisted_tripQueues {s : State} {t : Tier} {u : Nat} (h : UnitIdle s t u) : Relisted s (tripQueues t (unitOf s t u).chans s).2 := by
  refine List.foldlRecOn (motive := fun e : Nat × State => Relisted s e.2) _ _ (Relisted.refl s) fun e he c hc => ?_
  obtain ⟨hqueue, -⟩ := h c hc
  rw [tripQueue_of_empty ((congrArg Chan.queue (he.chans t c)).trans hqueue)]
  exact he.trans (relisted_setChan ..)

theorem relisted_tripSources {s : State} {t : Tier} {u : Nat} (h : UnitIdle s t u) : Relisted s (tripSources s t u) := by
  refine List.foldlRecOn (motive := Relisted s) _ _ (Relisted.refl s) fun v hv c hc => ?_
  obtain ⟨-, hsource⟩ := h c hc
  have hempty : (chanOf v t c).source = [] := (congrArg Chan.source (hv.chans t c)).trans hsource
  have hset : setChan v t c { chanOf v t c with source := [] } = setChan v t c (chanOf v t c) := by rw [← hempty]
  simp only [hempty, List.foldl_nil, hset]
  exact hv.trans (relisted_setChan ..)

theorem tripOrdered_of_noContext {s : State} (t : Tier) (u : Nat) (h : s.ari.ctxs = []) :
    (tripOrdered s t u).2 = { s with ari.reorder := (tripOrdered s t u).2.ari.reorder } := by
  simp only [tripOrdered, h, List.foldl_nil, List.map_nil]

theorem tripTraffic_eq (s : State) (t : Tier) (u : Nat) : tripTraffic s t u = { s with svc.traffic := (tripTraffic s t u).svc.traffic } := by
  unfold tripTraffic
  split <;> rfl

/-- The state in which the waits of a unit's queues and contexts have ended at its trip. -/
def tripEnded (s : State) (t : Tier) (u : Nat) : State := (tripOrdered (tripQueues t (unitOf s t u).chans s).2 t u).2

/-- That state with the unit's trip marked, where what waited at its channels has met it. -/
def tripMarked (s : State) (t : Tier) (u : Nat) (temp : Int) : State :=
  tripSources (tripTraffic (setThermal (tripEnded s t u) t u
    { thermalOf (tripEnded s t u) t u with temp := temp, tripped := true, cand := none }) t u) t u

/-- The alert of a trip, its aborts and faults, its records and its event, with `n` reads aborted. -/
def tripAnnounced (s : State) (t : Tier) (u : Nat) (temp : Int) (n : Nat) : State :=
  let s3 := (s.duc.colls.map (fun c => c.id)).foldl (fun s id => collFail s id St.thermalAbort) { s with svc.alert := true }
  let s4 := (functions s3).foldl (fun s fn => setFault s fn St.thermalAbort (u + 256 * tierNum t)) s3
  post (blotUnit (logUnit s4 0x0B t u temp (thermalOf s4 t u).share) t u 3 (intBits 16 temp)) 0x0305 0xFF
    ([BitVec.ofNat 8 (tierNum t), BitVec.ofNat 8 u, BitVec.ofNat 8 (intBits 8 temp), 0] ++ leBytes 4 n) false

theorem trip_eq (s : State) (t : Tier) (u : Nat) (temp : Int) :
    trip s t u temp = tripAnnounced (tripMarked s t u temp) t u temp
      ((tripQueues t (unitOf s t u).chans s).1 + (tripOrdered (tripQueues t (unitOf s t u).chans s).2 t u).1) := rfl

section
variable {s : State} {t : Tier} {u n : Nat} {temp : Int}

/-- With no collective to abort, only the alert and the error log change in the memory service. -/
theorem tripAnnounced_svc (h : s.duc.colls = []) :
    (tripAnnounced s t u temp n).svc.thermal = s.svc.thermal ∧ (tripAnnounced s t u temp n).svc.alert = true := by
  have hfaults : ∀ (l : List Nat) (v : State), (l.foldl (fun s fn => setFault s fn St.thermalAbort (u + 256 * tierNum t)) v).svc = v.svc :=
    fun l v => foldl_keeps State.svc l v fun _ _ => setFault_svc ..
  simp [tripAnnounced, h, hfaults]

theorem tripEnded_of_idle (hi : UnitIdle s t u) (hc : s.ari.ctxs = []) :
    (tripEnded s t u).duc = s.duc ∧ UnitIdle (tripEnded s t u) t u := by
  have hq : Relisted s (tripQueues t (unitOf s t u).chans s).2 := relisted_tripQueues hi
  rw [tripEnded, tripOrdered_of_noContext t u (hq.ari ▸ hc)]
  exact ⟨hq.duc, hi.of_same hq.mem (hq.chans t)⟩

theorem tripMarked_of_idle (hi : UnitIdle s t u) (hc : s.ari.ctxs = []) :
    (tripMarked s t u temp).duc = s.duc ∧
      thermalOf (tripMarked s t u temp) t u = { thermalOf (tripEnded s t u) t u with temp := temp, tripped := true, cand := none } := by
  obtain ⟨hduc, hidle⟩ := tripEnded_of_idle hi hc
  have hsources (h : Thermal) : Relisted _ (tripSources (tripTraffic (setThermal (tripEnded s t u) t u h) t u) t u) :=
    relisted_tripSources (hidle.of_same (by rw [tripTraffic_eq]; rfl) (fun c => by rw [tripTraffic_eq]; rfl))
  constructor
  · rw [tripMarked, (hsources _).duc, tripTraffic_eq]
    exact hduc
  · rw [tripMarked, thermalOf_of_thermal (hsources _).thermal, tripTraffic_eq]
    exact thermalOf_setThermal ..

theorem trip_of_idle (hi : UnitIdle s t u) (hcolls : s.duc.colls = []) (hctxs : s.ari.ctxs = []) :
    (thermalOf (trip s t u temp) t u).temp = temp ∧ (thermalOf (trip s t u temp) t u).tripped = true ∧
      (trip s t u temp).svc.alert = true := by
  obtain ⟨hduc, hthermal⟩ := tripMarked_of_idle (temp := temp) hi hctxs
  rw [trip_eq]
  obtain ⟨hkeep, halert⟩ := tripAnnounced_svc (s := tripMarked s t u temp) (t := t) (u := u) (temp := temp) (by rw [hduc, hcolls])
  rw [thermalOf_of_thermal hkeep, hthermal]
  exact ⟨rfl, rfl, halert⟩

end

/-! ### The thermal commands (R139, R140, R143, R144) -/

@[simp] theorem thermalWord_length (s : State) (t : Tier) (u : Nat) : (thermalWord s t u).length = 4 := rfl

/-- MEM_THERMAL_QUERY writes a word for each site and port: 96 B. -/
theorem thermalWords_length (s : State) :
    (((List.range 8).map (thermalWord s .fast)).flatten ++ ((List.range 16).map (thermalWord s .cap)).flatten).length = 96 := rfl

section
variable {c : Cmd} {s a : State}

section
variable {v : Curve}
  (h : Begun { op := 0x030D, need := 4, ext := true, full := fun _ c => if p8 c 1 ≤ 8 then 4 + 4 * p8 c 1 else 0, vf := false } c s a)
  (hv : parseCurve (body c) = some v) (hl : withinLimit v = true)
include h hv hl

/-- A legal curve within the limit table is put in force, for the tier that the command names. -/
theorem memThermalLoad_completes :
    Completes (.memThermalLoad c) c s (if p8 c 0 = 0 then { a with svc.fastCurve := v } else { a with svc.capCurve := v }) [] :=
  completes_of rfl h (by simp only [hv]; exact checked_tail (by simp [hl]))

theorem memThermalLoad_fast (ht : p8 c 0 = 0) : Completes (.memThermalLoad c) c s { a with svc.fastCurve := v } [] := by
  have hload := memThermalLoad_completes h hv hl
  rwa [if_pos ht] at hload

theorem memThermalLoad_cap (ht : p8 c 0 = 1) : Completes (.memThermalLoad c) c s { a with svc.capCurve := v } [] := by
  have hload := memThermalLoad_completes h hv hl
  rwa [if_neg (by simp [ht])] at hload

end

section
variable {t : Tier} {u : Nat} (h : Begun { op := 0x030E, need := 2, vf := false } c s a) (hu : unitField c 0 = some (t, u))
  (hup : unitUp a t u = true)
include h hu hup

/-- MEM_THERMAL_CLEAR of a unit that is up depends on its trip and its temperature. -/
theorem memThermalClear_ends {st : Nat} {v : State}
    (hr : (if !tripped a t u then .done St.ok [] a
      else if (thermalOf a t u).temp > (curveOf a t).trip - 10 then .done St.tripActive [] a
      else .done St.ok [] (clearTrip a t u) : Answer) = .done st [] v) :
    exec (.memThermalClear c) s = .next (complete v c st []) :=
  ends_of rfl h (by simp only [hu]; exact (if_neg (by simp [hup])).trans hr)

theorem memThermalClear_clears (ht : tripped a t u = true) (hcool : (thermalOf a t u).temp ≤ (curveOf a t).trip - 10) :
    Completes (.memThermalClear c) c s (clearTrip a t u) [] :=
  memThermalClear_ends h hu hup ((if_neg (by simp [ht])).trans (if_neg (Int.not_lt.2 hcool)))

theorem memThermalClear_active (ht : tripped a t u = true) (hhot : (curveOf a t).trip - 10 < (thermalOf a t u).temp) :
    exec (.memThermalClear c) s = .next (complete a c St.tripActive []) :=
  memThermalClear_ends h hu hup ((if_neg (by simp [ht])).trans (if_pos hhot))

theorem memThermalClear_untripped (ht : tripped a t u = false) : Completes (.memThermalClear c) c s a [] :=
  memThermalClear_ends h hu hup (if_pos (by simp [ht]))

end

theorem memThermalQuery_completes (h : Begun { op := 0x030F, need := 8, vf := false } c s a) (hw : hostOk a (p64 c 0) 96 = true) :
    Completes (.memThermalQuery c) c s (hostStore a (p64 c 0)
      (((List.range 8).map (thermalWord a .fast)).flatten ++ ((List.range 16).map (thermalWord a .cap)).flatten)) [] :=
  completes_of rfl h (reportTo_ok (by rwa [thermalWords_length]))

end

/-- Settles O32: a sample by the unit's state and temperature, and each command by its checks. -/
theorem thermalRows : Obligations.ThermalRows := by
  refine ⟨fun s t u temp hup ht hb => ?below, fun s t u temp hup ht hr hcolls hidle hctxs => ?reached, fun s t u temp hup ht => ?tripped,
    fun _ _ _ _ h _ => memThermalLoad_fast h, fun _ _ _ _ h _ => memThermalLoad_cap h, fun _ _ _ _ _ => memThermalClear_clears,
    fun _ _ _ _ _ => memThermalClear_active, fun _ _ _ _ _ => memThermalClear_untripped, fun _ _ _ => memThermalQuery_completes⟩
  case below =>
    refine ⟨_, thermalSample_single .., ?_⟩
    rw [sampleUnit_below hup ht hb, thermalOf_of_thermal (sendSlow_svc_thermal _), thermalOf_shareSample]
    exact ⟨rfl, ht, rfl⟩
  case reached =>
    refine ⟨_, thermalSample_single .., ?_⟩
    rw [sampleUnit_reached hup ht hr, thermalOf_of_thermal (sendSlow_svc_thermal _), sendSlow_svc_alert]
    exact trip_of_idle (unitIdle_iff.1 hidle) hcolls hctxs
  case tripped => rw [thermalSample_single, sampleUnit_tripped hup ht]

end Sys2Proof.Machine
end

section
/-! PROOFS. Patrol scrub, retraining and failed channels (R152 to R156): when a scrub step is taken and what it does, what starts a retrain,
and what its success and its failure leave of the channel and of the device state; then O33. -/

namespace Sys2Proof.Machine

/-! ### Patrol scrub (R152, R153) -/

section
variable {s u : State} {die : Nat} {t : Tier}

theorem scrubStep_capped (h : s.ink.state = stCapped) : exec (.scrubStep die t) s = .next s :=
  congrArg Host.Outcome.next (if_pos (.inr h))

/-- A scrub step that is due and allowed is decided by the engine's next place. -/
theorem scrubStep_runs (hp : mget 0 s.svc.scrubHours (tierNum t) ≠ 0) (hs : s.ink.state ≠ stCapped) :
    exec (.scrubStep die t) s = .next (match scrubNext s die t with
      | (none, s1) => s1
      | (some (c, g), s1) =>
        if (chanOf s t c).retraining then s
        else (chanRead s1 { tier := t, chan := c, off := g * 64 } noDpa 5 6 5 none (some 2) true).2.2.2) :=
  congrArg Host.Outcome.next (if_neg (not_or.2 ⟨hp, hs⟩))

theorem scrubStep_skips (hp : mget 0 s.svc.scrubHours (tierNum t) ≠ 0) (hs : s.ink.state ≠ stCapped) (hn : scrubNext s die t = (none, u)) :
    exec (.scrubStep die t) s = .next u := by
  rw [scrubStep_runs hp hs, hn]

section
variable {ch g : Nat} (hn : scrubNext s die t = (some (ch, g), u))
include hn

theorem scrubStep_reads (hp : mget 0 s.svc.scrubHours (tierNum t) ≠ 0) (hs : s.ink.state ≠ stCapped)
    (hr : (chanOf s t ch).retraining = false) :
    exec (.scrubStep die t) s = .next (chanRead u { tier := t, chan := ch, off := g * 64 } noDpa 5 6 5 none (some 2) true).2.2.2 := by
  rw [scrubStep_runs hp hs, hn]
  exact congrArg Host.Outcome.next (if_neg (by simp [hr]))

/-- Due or not, a step whose channel is retraining does nothing. -/
theorem scrubStep_waits (hr : (chanOf s t ch).retraining = true) : exec (.scrubStep die t) s = .next s := by
  change execScrubStep die t s = _
  simp only [execScrubStep, hn, hr, if_true, ite_self]

end
end

theorem memScrubSet_completes {c : Cmd} {s a : State} (h : Begun { op := 0x0312, need := 4, vf := false } c s a) (ht : p8 c 0 ≤ 1)
    (hmax : p16 c 2 ≤ 168) (hz : p8 c 0 = 0 → p16 c 2 ≠ 0) :
    Completes (.memScrubSet c) c s { a with svc.scrubHours := mput a.svc.scrubHours (p8 c 0) (p16 c 2) } [] := by
  have hfast : (p16 c 2 == 0 && p8 c 0 == 0) = false := by
    by_cases h0 : p8 c 0 = 0 <;> simp [h0, hz]
  exact completes_of rfl h ((checked_tail (by simpa using ht)).trans (checked_tail (by simp [hmax, hfast])))

/-! ### CHANNEL_RETRAIN (R155) -/

section
variable {s : State} {t : Tier} {c n : Nat}

theorem channelRetrain_starts (hn : 16 < n) (hmap : (tierMap s t).contains c = true) (hf : (chanOf s t c).failed = false) :
    exec (.channelRetrain t c n) s = .next (setChan s t c { chanOf s t c with retraining := true }) :=
  congrArg Host.Outcome.next (if_pos ⟨hn, hmap, by simp [hf]⟩)

theorem channelRetrain_few (hn : n ≤ 16) : exec (.channelRetrain t c n) s = .next s :=
  congrArg Host.Outcome.next (if_neg fun ⟨hmore, _⟩ => Nat.not_lt.2 hn hmore)

end

/-! ### What records and marks leave of channels and the device state -/

theorem chanOf_of_svc {s v : State} (h : v.svc.chans = s.svc.chans) (t : Tier) (c : Nat) : chanOf v t c = chanOf s t c := by
  rw [chanOf, h, chanOf]

theorem setState_ink_state (s : State) (st : BitVec 4) : (setState s st).ink.state = st := by
  unfold setState
  split
  case isTrue h => exact h
  case isFalse => exact foldl_keeps (fun u => u.ink.state) _ _ fun _ _ => setCause_ink_state ..

/-- A channel on which nothing waits has nothing to issue when it resumes. -/
theorem drainChan_of_empty {s : State} {t : Tier} {c : Nat} (hq : (chanOf s t c).queue = []) (hs : (chanOf s t c).source = []) :
    drainChan s t c = s := by
  rw [drainChan, hq, hs]
  exact admitSources_of_none hs

section
variable (s : State) (t : Tier) (c : Nat)

@[simp] theorem markChannel_svc : (markChannel s t c).svc = s.svc := (congrArg State.svc (unpowered_markChannel s t c) :)

@[simp] theorem markChannel_ink : (markChannel s t c).ink = s.ink := (congrArg State.ink (unpowered_markChannel s t c) :)

@[simp] theorem logErr_svc_chans (die type u off dpa sym rq : Nat) : (logErr s die type t u off dpa sym rq).svc.chans = s.svc.chans := rfl

@[simp] theorem memChannel_svc (failed spares : Nat) : (memChannel s t c failed spares).svc = s.svc := post_svc ..

@[simp] theorem memChannel_mem (failed spares : Nat) : (memChannel s t c failed spares).mem = s.mem := post_mem ..

@[simp] theorem memChannel_ink_state (failed spares : Nat) : (memChannel s t c failed spares).ink.state = s.ink.state := by
  rw [memChannel, post_ink_state]

@[simp] theorem chanOf_logErr (die type u off dpa sym rq : Nat) : chanOf (logErr s die type t u off dpa sym rq) t c = chanOf s t c := rfl

theorem chanOf_chanCount (i : Nat) : chanOf (chanCount s t c i) t c =
    { chanOf s t c with ctr := (chanOf (chanCount s t c i) t c).ctr } := by
  simp only [chanCount, chanOf_setChan]

/-! ### RETRAIN_COMPLETE (R154 to R156, log 34) -/

/-- A retrain that succeeded, before the channel's queue is issued: the channel resumes, on `n` spare lanes in all. -/
def retrained (s : State) (t : Tier) (c n : Nat) : State :=
  let s1 := setChan s t c { chanOf s t c with retraining := false, fails := 0, spares := n }
  memChannel (blot (chanCount (logErr s1 (chanDie t c) 7 t c 0 noDpa 0xFF 7) t c 5) (chanUnitId t c) 0x10 none 0) t c 0 n

theorem chanOf_retrained (n : Nat) : chanOf (retrained s t c n) t c =
    { chanOf s t c with retraining := false, fails := 0, spares := n, ctr := (chanOf (retrained s t c n) t c).ctr } := by
  have hcount : (retrained s t c n).svc.chans = (chanCount (logErr (setChan s t c
      { chanOf s t c with retraining := false, fails := 0, spares := n }) (chanDie t c) 7 t c 0 noDpa 0xFF 7) t c 5).svc.chans :=
    congrArg MemSvc.chans ((memChannel_svc ..).trans (blot_svc ..))
  rw [chanOf_of_svc hcount, chanOf_chanCount, chanOf_logErr, chanOf_setChan]

theorem retrained_mem (n : Nat) : (retrained s t c n).mem = s.mem := by
  rw [retrained, memChannel_mem, blot_mem]
  rfl

/-- What follows the mark of a failed channel is a record, an event and a device state. -/
theorem failChannel_svc_chans : (failChannel s t c).svc.chans =
    (setChan s t c { chanOf s t c with failed := true, retraining := false }).svc.chans := by
  unfold failChannel
  extract_lets x s1 s2 s3 p s4
  have hchans : s4.svc.chans = (setChan s t c { chanOf s t c with failed := true, retraining := false }).svc.chans := by
    simp [s4, s3, s2, s1, x]
  split
  · rw [setState_svc, hchans]
  · exact hchans

theorem chanOf_failChannel : chanOf (failChannel s t c) t c = { chanOf s t c with failed := true, retraining := false } :=
  (chanOf_of_svc (failChannel_svc_chans s t c) t c).trans (chanOf_setChan ..)

theorem failChannel_ink_state : (failChannel s t c).ink.state = if s.ink.state = stReady then stDegraded else s.ink.state := by
  unfold failChannel
  extract_lets x s1 s2 s3 p s4
  have hstate : s4.ink.state = s.ink.state := by simp [s4, s3, s2, s1, setChan, logErr]
  rw [hstate]
  split
  · exact setState_ink_state ..
  · exact hstate

end

section
variable {s : State} {t : Tier} {c : Nat} {ok spare lost : Bool}

theorem retrainComplete_idle (h : (chanOf s t c).retraining = false) : exec (.retrainComplete t c ok spare lost) s = .next s :=
  congrArg Host.Outcome.next (if_pos (by simp [h]))

section
variable (h : (chanOf s t c).retraining = true)
include h

theorem retrainComplete_succeeds : exec (.retrainComplete t c true spare lost) s =
    .next (drainChan (retrained s t c ((chanOf s t c).spares + b2n (spare && t == .fast))) t c) := by
  change execRetrainComplete t c true spare lost s = _
  rw [execRetrainComplete, retrained]
  simp only [h, Bool.not_true, Bool.false_eq_true, if_false, if_true]

/-- A retrain that failed fails the channel where a lane is lost or it is the third, and is tried again otherwise. -/
theorem retrainComplete_failed : exec (.retrainComplete t c false spare lost) s =
    .next (if lost || decide ((chanOf s t c).fails + 1 ≥ 3) then drainChan (failChannel s t c) t c
      else setChan s t c { chanOf s t c with fails := (chanOf s t c).fails + 1 }) := by
  change execRetrainComplete t c false spare lost s = _
  simp only [execRetrainComplete, h, Bool.not_true, Bool.false_eq_true, if_false]

theorem retrainComplete_again (hf : (chanOf s t c).fails + 1 < 3) : exec (.retrainComplete t c false spare false) s =
    .next (setChan s t c { chanOf s t c with fails := (chanOf s t c).fails + 1 }) := by
  rw [retrainComplete_failed h, if_neg (by simp only [Bool.false_or, decide_eq_true_eq]; omega)]

theorem retrainComplete_fails (hf : 2 ≤ (chanOf s t c).fails ∨ lost = true) : exec (.retrainComplete t c false spare lost) s =
    .next (drainChan (failChannel s t c) t c) := by
  rw [retrainComplete_failed h, if_pos (by rcases hf with hf | hf <;> simp [hf])]

end
end

/-- Settles O33: a scrub step by the engine's next place, a retrain's start by its count of errors, its end by success, a lost lane and the
failures before it. -/
theorem scrubAndRetrainRows : Obligations.ScrubAndRetrainRows := by
  refine ⟨fun _ _ _ _ _ _ hp hs hn => scrubStep_reads hn hp hs, fun _ _ _ _ _ _ => scrubStep_waits, fun _ _ _ _ => scrubStep_skips,
    fun _ _ _ => scrubStep_capped, fun _ _ _ => memScrubSet_completes, fun _ _ _ _ => channelRetrain_starts,
    fun _ _ _ _ => channelRetrain_few, fun s t c spare lost hr hq hsrc => ?succeeds, fun _ _ _ _ => retrainComplete_again,
    fun s t c spare lost hr hf hq hsrc => ?fails, fun _ _ _ _ _ _ => retrainComplete_idle⟩
  case succeeds =>
    have hchan := chanOf_retrained s t c ((chanOf s t c).spares + b2n (spare && t == .fast))
    refine ⟨_, (retrainComplete_succeeds hr).trans (congrArg Host.Outcome.next
      (drainChan_of_empty (by rw [hchan]; exact hq) (by rw [hchan]; exact hsrc))), ?_⟩
    rw [hchan]
    exact ⟨rfl, rfl, rfl, retrained_mem ..⟩
  case fails =>
    have hchan := chanOf_failChannel s t c
    refine ⟨_, (retrainComplete_fails hr hf).trans (congrArg Host.Outcome.next
      (drainChan_of_empty (by rw [hchan]; exact hq) (by rw [hchan]; exact hsrc))), ?_⟩
    rw [hchan]
    exact ⟨rfl, rfl, failChannel_ink_state ..⟩

end Sys2Proof.Machine
end

section
/-! PROOFS. The error logs, the counters and the traffic generator (R158, R159, R161): what the report commands and MEM_TRAFFIC answer once
they have begun, and how a run's end completes its command; then O34. -/

namespace Sys2Proof.Machine

/-! ### MEM_ERR_READ and MEM_ERR_COUNTERS (R158, R161) -/

section
variable {c : Cmd} {s a : State}

theorem memErrRead_completes {l : Log} (h : Begun { op := 0x0310, need := 11, vf := false } c s a) (hd : p8 c 10 ≤ 1)
    (hl : l = mget {} a.svc.errs (p8 c 10))
    (hw : hostOk a (p64 c 0) ((lastN l.unread l.recs).take (min (p16 c 8) l.unread)).flatten.length = true) :
    Completes (.memErrRead c) c s
      (hostStore
        { a with
          svc.errs := mput a.svc.errs (p8 c 10) { l with unread := l.unread - min (p16 c 8) l.unread, overwritten := 0 } }
        (p64 c 0) ((lastN l.unread l.recs).take (min (p16 c 8) l.unread)).flatten)
      (leBytes 2 ((lastN l.unread l.recs).take (min (p16 c 8) l.unread)).length ++ leBytes 4 l.overwritten) := by
  subst hl
  exact completes_of rfl h ((checked_tail (by simpa using hd)).trans (reportTo_ok hw))

theorem memErrCounters_completes {t : Tier} {u : Nat} {b : List Byte} (h : Begun { op := 0x0311, need := 16, vf := false } c s a)
    (hu : unitField c 0 = some (t, u)) (hup : unitUp a t u = true)
    (hb : b = ((unitChannels a t u).map (fun ch => ((chanOf a t ch).ctr.map (leBytes 4)).flatten)).flatten)
    (hw : hostOk a (p64 c 8) b.length = true) : Completes (.memErrCounters c) c s (hostStore a (p64 c 8) b) [] := by
  subst hb
  exact completes_of rfl h (by simp only [hu]; exact (checked_tail (by simp [hup])).trans (reportTo_ok hw))

/-! ### MEM_TRAFFIC (R159) -/

/-- The run that MEM_TRAFFIC starts. -/
def trafficRun (c : Cmd) (a : State) : TrafficRun :=
  { pattern := p8 c 1, cls := p8 c 2, durUs := p32 c 4, first := p64 c 8, last := p64 c 16, seed := p64 c 24, wpat := p64 c 32,
    buffer := p64 c 40, tripped := tripped a .cap (p8 c 0) }

theorem memTraffic_waits (h : Begun { op := 0x0313, need := 48, vf := false } c s a) (hport : p8 c 0 ≤ 15)
    (hup : unitUp a .cap (p8 c 0) = true) (hheld : holds a (mkRes 3 (p8 c 0)) 1 c.fn = true)
    (hfields : (decide (p8 c 1 > 5) || decide (p8 c 2 > 3) || p32 c 4 == 0 || decide (p32 c 4 > 60000000) || p64 c 8 % 256 != 0 ||
      p64 c 16 % 256 != 0 || decide (p64 c 16 < p64 c 8) || decide (p64 c 16 ≥ 256 * (unitOf a .cap (p8 c 0)).gran)) = false)
    (huse : ((p8 c 1 == 1 || p8 c 1 == 2 || p8 c 1 == 5) && unitInUse a .cap (p8 c 0)) = false)
    (hfree : mfind a.svc.traffic (p8 c 0) = none) :
    Waits (.memTraffic c) 0x0313 c s { a with svc.traffic := mput a.svc.traffic (p8 c 0) (trafficRun c a) } (.traffic (p8 c 0)) :=
  waits_of rfl h ((checked_tail (by simpa using hport)).trans ((checked_tail (by simp [hup])).trans ((checked_tail (by simp [hheld])).trans
    ((checked_tail hfields).trans ((checked_tail huse).trans (checked_tail (by simp [hfree])))))))

end

/-! ### The accesses of a run leave the running commands alone -/

section
variable (s : State)

@[simp] theorem chanCount_ink (t : Tier) (c i : Nat) : (chanCount s t c i).ink = s.ink := rfl

@[simp] theorem logErr_ink (die type : Nat) (t : Tier) (u off dpa sym rq : Nat) : (logErr s die type t u off dpa sym rq).ink = s.ink := rfl

@[simp] theorem checkRead_ink (p : Place) : (checkRead s p).2.ink = s.ink := by
  unfold checkRead
  split
  · rfl
  · dsimp only
    split <;> rfl

@[simp] theorem placeStore_ink (p : Place) (d : List Byte) (poison : Bool) : (placeStore s p d poison).ink = s.ink := by
  unfold placeStore
  dsimp only
  split <;> rfl

theorem watchUe_ink (t : Tier) (c : Nat) : (watchUe s t c).ink = s.ink := by
  unfold watchUe
  dsimp only
  split
  · rw [markChannel_ink]; rfl
  · rfl

theorem noteUe_ink_running (type : Nat) (t : Tier) (c off dpa rq : Nat) : (noteUe s type t c off dpa rq).ink.running = s.ink.running := by
  rw [noteUe, post_ink_running, blot_ink]
  split
  · rfl
  · rw [watchUe_ink]; rfl

theorem noteDrop_ink_running (t : Tier) (c off dpa rq : Nat) : (noteDrop s t c off dpa rq).ink.running = s.ink.running := by
  unfold noteDrop
  dsimp only
  split
  · rfl
  · rw [post_ink_running]; rfl

theorem trafficWrite_ink_running (p : Place) (d : List Byte) : (trafficWrite s p d).ink.running = s.ink.running := by
  unfold trafficWrite
  dsimp only
  split
  · rw [noteDrop_ink_running, prog_ink]
  · rw [placeStore_ink, prog_ink]

theorem trafficRead_ink_running (e : Nat × Nat × State) (p : Place) : (trafficRead e p).2.2.ink.running = e.2.2.ink.running := by
  obtain ⟨ce, ue, s⟩ := e
  have hchecked : (checkRead (prog s (chanUnitId p.tier p.chan) 1 none none 1) p).2.ink = s.ink := by rw [checkRead_ink, prog_ink]
  simp only [trafficRead]
  split
  case isTrue => rw [chanCount_ink, prog_ink]
  case isFalse =>
    split
    case h_1 =>
      split
      · rw [chanCount_ink, hchecked]
      · rw [hchecked]
    case h_2 => rw [chanCount_ink, hchecked]
    case h_3 => rw [chanCount_ink, noteUe_ink_running, hchecked]

theorem storeTraffic_ink_running (port : Nat) (r : TrafficRun) (n : Nat) : (storeTraffic s port r n).ink.running = s.ink.running :=
  foldl_keeps (fun u => u.ink.running) _ _ fun _ _ => foldl_keeps (fun u => u.ink.running) _ _ fun _ _ =>
    foldl_keeps (fun u => u.ink.running) _ _ fun u p => trafficWrite_ink_running u p _

/-- What every turn of a fold over reads keeps of the state, the fold keeps. -/
theorem foldl_reads_keep {α β : Type} (g : State → β) {f : Nat × Nat × State → α → Nat × Nat × State} (l : List α)
    (e : Nat × Nat × State) (h : ∀ e x, g (f e x).2.2 = g e.2.2) : g (l.foldl f e).2.2 = g e.2.2 :=
  List.foldlRecOn (motive := fun d => g d.2.2 = g e.2.2) l f rfl fun d hd x _ => (h d x).trans hd

theorem readTraffic_ink_running (port : Nat) (r : TrafficRun) (n : Nat) : (readTraffic s port r n).2.2.ink.running = s.ink.running :=
  foldl_reads_keep (fun u => u.ink.running) _ _ fun _ _ => foldl_reads_keep (fun u => u.ink.running) _ _ fun _ _ =>
    foldl_reads_keep (fun u => u.ink.running) _ _ trafficRead_ink_running

end

/-! ### MEM_TRAFFIC_END (R159) -/

@[simp] theorem trafficRecord_length (m : TrafficResult) (ce ue : Nat) : (trafficRecord m ce ue).length = 64 := padTo_length 64 _

section
variable {s u v : State} {port ce ue : Nat} {m : TrafficResult} {r : TrafficRun}

theorem memTrafficEnd_idle (h : mfind s.svc.traffic port = none) : exec (.memTrafficEnd port m) s = .next s := by
  change execMemTrafficEnd port m s = _
  simp only [execMemTrafficEnd, h]

section
variable (h : mfind s.svc.traffic port = some r) (hu : u = storeTraffic { s with svc.traffic := mdel s.svc.traffic port } port r m.written)
  (hv : readTraffic u port r m.read = (ce, ue, v))
include hu hv

/-- The accesses of a run leave the running commands as they are. -/
theorem trafficDone_ink_running : v.ink.running = s.ink.running := by
  have hread := readTraffic_ink_running u port r m.read
  rw [hv] at hread
  rw [hread, hu, storeTraffic_ink_running]

include h

theorem memTrafficEnd_finishes (hw : hostOk v r.buffer 64 = true) : exec (.memTrafficEnd port m) s =
    .next (finishWait (hostStore v r.buffer (trafficRecord m ce ue)) (.traffic port) (if r.tripped then St.thermalAbort else St.ok) []) := by
  have hwrite : hostWrite? v r.buffer (trafficRecord m ce ue) = some (hostStore v r.buffer (trafficRecord m ce ue)) :=
    hostWrite?_ok (by rwa [trafficRecord_length])
  change execMemTrafficEnd port m s = _
  simp only [execMemTrafficEnd, h, ← hu, hv, hwrite]

theorem memTrafficEnd_completes {x : Running} (hrun : s.ink.running = [x]) (hx : x.wait = .traffic port) (hw : hostOk v r.buffer 64 = true) :
    exec (.memTrafficEnd port m) s = .next (complete { hostStore v r.buffer (trafficRecord m ce ue) with ink.running := [] } x.cmd
      (if r.tripped then St.thermalAbort else St.ok) []) := by
  rw [memTrafficEnd_finishes h hu hv hw, finishWait_only (by rw [hostStore_ink, trafficDone_ink_running hu hv, hrun]) hx]

end
end

/-- Settles O34: each command by its checks, and a run's end by whether there is a run. -/
theorem serviceReportsComplete : Obligations.ServiceReportsComplete := by
  refine ⟨fun _ _ _ _ => memErrRead_completes, fun _ _ _ _ _ _ => memErrCounters_completes,
    fun c s a h hport hup hheld hpat hcls hmin hmax hfirst hlast hle hend huse => ?starts,
    fun _ _ _ _ _ _ _ _ _ h hrun hx hu hv => memTrafficEnd_completes h hu hv hrun hx, fun _ _ _ => memTrafficEnd_idle⟩
  case starts =>
    refine memTraffic_waits h hport hup hheld (by simp [hpat, hcls, Nat.ne_of_gt hmin, hmax, hfirst, hlast, hle, hend]) ?_
    cases hused : unitInUse a .cap (p8 c 0) with
    | false => exact Bool.and_false _
    | true =>
      have hreads : ¬ (p8 c 1 = 1 ∨ p8 c 1 = 2 ∨ p8 c 1 = 5) := fun hw => absurd (huse hw) (by simp [hused])
      simpa [and_assoc] using hreads

end Sys2Proof.Machine
end

section
/-! PROOFS. A write of a whole granule (R150): what a channel stores of it, and where the staging cache takes it or lets it through (R113, R114,
R143); then O60. -/

namespace Sys2Proof.Machine

/-! ### A granule stored at its channel (R145, R146, R150) -/

theorem checkWord_length (d : List Byte) (poison : Bool) : (checkWord d poison).length = 4 := rfl

/-- POISON is bit 0 of the check word's first byte. -/
theorem checkWord_head? (d : List Byte) (poison : Bool) : (checkWord d poison).head? = some (if poison then 1 else 0) := by
  cases poison <;> rfl

/-- A run of cells that misses the bytes stored reads as before. -/
theorem cellGets_cellPuts_out {d : Nat → Byte} {m : List Host.Cell} {a x n : Nat} {b : List Byte} (h : cellWf d m = true)
    (hx : x + n ≤ a ∨ a + b.length ≤ x) : cellGets d (cellPuts d m a b) x n = cellGets d m x n := by
  refine List.map_congr_left fun i hi => cellGet_cellPuts_out d m a (x + i) b h ?_
  have := List.mem_range.1 hi
  omega

/-- What an unlisted byte reads as depends on the fills alone. -/
theorem memDflt_of_fill {m n : Mem} (hf : m.fill = n.fill) (hc : m.chanFill = n.chanFill) : memDflt m = memDflt n := by
  cases m; cases n; cases hf; cases hc; rfl

section
variable {s v : State}

/-- What a channel stores of a granule does not depend on which contents are determinate. -/
theorem stored_of_granGens {g : Map Nat} (h : v.mem = { s.mem with granGens := g }) (k : Nat) :
    storedData v k = storedData s k ∧ storedCheck v k = storedCheck s k := by
  have hdflt : memDflt v.mem = memDflt s.mem := memDflt_of_fill (by rw [h]) (by rw [h])
  have hcells : v.mem.cells = s.mem.cells := by rw [h]
  constructor
  · rw [storedData, hdflt, hcells, storedData]
  · rw [storedCheck, hdflt, hcells, storedCheck]

/-- The check words lie above every granule. -/
theorem granule_below_checks {p : Place} (hp : p.chan < 256) (ho : p.off + 64 ≤ 2 ^ 40) : cellKey p + 64 ≤ 2 ^ 60 := by
  have htier : tierNum p.tier ≤ 1 := by cases p.tier <;> decide
  have hkey : chanKey p.tier p.chan < 512 := by unfold chanKey; omega
  unfold cellKey
  omega

section
variable {k : Nat} {d : List Byte} {poison : Bool} (h : Safe s)
include h

theorem storedCheck_storeGranule : storedCheck (storeGranule s k d poison) k = checkWord d poison := by
  obtain ⟨hcells, -⟩ := Bool.and_eq_true_iff.1 h
  exact cellGets_cellPuts _ _ _ (checkWord d poison) (cellWf_puts _ _ _ _ hcells)

theorem storedData_storeGranule (hk : k + 64 ≤ 2 ^ 60) (hd : d.length = 64) : storedData (storeGranule s k d poison) k = d := by
  obtain ⟨hcells, -⟩ := Bool.and_eq_true_iff.1 h
  have hmiss : storedData (storeGranule s k d poison) k = cellGets (memDflt s.mem) (cellPuts (memDflt s.mem) s.mem.cells k (padTo 64 d)) k 64 :=
    cellGets_cellPuts_out (cellWf_puts _ _ _ _ hcells) (.inl (by unfold checkKey; omega))
  rw [hmiss, padTo_of_length hd, ← hd]
  exact cellGets_cellPuts _ _ _ d hcells

end

/-- Of device memory, a whole granule stored changes the cells, and which contents are determinate. -/
theorem granuleStore_mem (s : State) (p : Place) (dpa : Nat) (d : List Byte) (poison : Bool) :
    (granuleStore s p dpa d poison).mem =
      { (storeGranule s (cellKey p) d poison).mem with granGens := (granuleStore s p dpa d poison).mem.granGens } := by
  have hplace : (placeStore (accDrop s (cellKey p)) p d poison).mem = (storeGranule s (cellKey p) d poison).mem := by
    unfold placeStore
    dsimp only
    split <;> rfl
  unfold granuleStore
  dsimp only
  split <;> rw [hplace]

theorem chanWrite_of_serving {p : Place} {dpa : Nat} {d : List Byte} {poison : Bool} {rq : Nat} {part cls : Option Nat}
    (hf : (chanOf s p.tier p.chan).failed = false) :
    chanWrite s p dpa d poison rq part cls = granuleStore (prog s (chanUnitId p.tier p.chan) 2 part cls 1) p dpa d poison := by
  have hserving : ¬ (chanOf (prog s (chanUnitId p.tier p.chan) 2 part cls 1) p.tier p.chan).failed = true := by
    rw [chanOf_of_svc (congrArg MemSvc.chans (prog_svc ..)), hf]
    decide
  unfold chanWrite
  exact if_neg hserving

section
variable {p : Place} {dpa : Nat} {d : List Byte} {poison : Bool} {rq : Nat} {part cls : Option Nat}
  (hf : (chanOf s p.tier p.chan).failed = false)
include hf

theorem chanWrite_mem_of_serving : (chanWrite s p dpa d poison rq part cls).mem =
    { (storeGranule s (cellKey p) d poison).mem with granGens := (chanWrite s p dpa d poison rq part cls).mem.granGens } := by
  rw [chanWrite_of_serving hf, granuleStore_mem]
  simp only [storeGranule, prog_mem]

/-- Once written, a granule reads as it would once stored. -/
theorem stored_chanWrite (k : Nat) :
    storedData (chanWrite s p dpa d poison rq part cls) k = storedData (storeGranule s (cellKey p) d poison) k ∧
      storedCheck (chanWrite s p dpa d poison rq part cls) k = storedCheck (storeGranule s (cellKey p) d poison) k :=
  stored_of_granGens (chanWrite_mem_of_serving hf) k

theorem chanWrite_stores (h : Safe s) (hp : p.chan < 256) (ho : p.off + 64 ≤ 2 ^ 40) (hd : d.length = 64) :
    storedData (chanWrite s p dpa d poison rq part cls) (cellKey p) = d ∧
      storedCheck (chanWrite s p dpa d poison rq part cls) (cellKey p) = checkWord d poison := by
  obtain ⟨hdata, hcheck⟩ := stored_chanWrite (dpa := dpa) (d := d) (poison := poison) (rq := rq) (part := part) (cls := cls) hf (cellKey p)
  exact ⟨hdata.trans (storedData_storeGranule h (granule_below_checks hp ho) hd), hcheck.trans (storedCheck_storeGranule h)⟩

end
end

/-! ### Where a whole granule lands (R113, R114, R143, R199, log 9) -/

section
variable {s v : State} (hm : v.mem = s.mem)
include hm

theorem lineFind_of_mem (dpa : Nat) : lineFind v dpa = lineFind s dpa := by rw [lineFind, hm, lineFind]

theorem locate_of_mem (dpa : Nat) : locate v dpa = locate s dpa := by
  cases v; cases s; cases hm; rfl

theorem setLines_of_mem (die addr : Nat) : setLines v die addr = setLines s die addr := by rw [setLines, hm, setLines]

theorem wayFree_of_mem (die addr : Nat) : wayFree v die addr = wayFree s die addr := by rw [wayFree, hm, setLines_of_mem hm, wayFree]

theorem pinned_of_mem (ht : v.svc.thermal = s.svc.thermal) (l : CacheLine) : pinned v l = pinned s l := by
  simp only [pinned, dpaTripped, locate_of_mem hm, tripped, thermalOf, ht]

end

/-- There is room for a line where a way is free, or where a line of its set may be evicted. -/
theorem makeRoom_isSome (s : State) (die addr : Nat) (cls : Option Nat) :
    (makeRoom s die addr cls).isSome = (wayFree s die addr || (setLines s die addr).any (fun l => !pinned s l)) := by
  unfold makeRoom
  cases hway : wayFree s die addr with
  | true => rfl
  | false =>
    cases hline : (setLines s die addr).filter (fun l => !pinned s l) with
    | nil => simpa using hline
    | cons l r =>
      have hl : l ∈ (setLines s die addr).filter (fun l => !pinned s l) := hline ▸ List.mem_cons_self
      obtain ⟨hmem, hfree⟩ := List.mem_filter.1 hl
      exact (List.any_eq_true.2 ⟨l, hmem, hfree⟩).symm

theorem makeRoom_isSome_of_mem {s v : State} (hm : v.mem = s.mem) (ht : v.svc.thermal = s.svc.thermal) (die addr : Nat)
    (cls : Option Nat) : (makeRoom v die addr cls).isSome = (makeRoom s die addr cls).isSome := by
  simp only [makeRoom_isSome, wayFree_of_mem hm, setLines_of_mem hm, pinned_of_mem hm ht]

/-! ### A sector placed in the cache (R113, log 9) -/

/-- A line of address `a` with sector `k` in it; any other line as it is. -/
def putSector (a k : Nat) (x : Sector) (l : CacheLine) : CacheLine := if l.addr = a then { l with sectors := mput l.sectors k x } else l

@[simp] theorem putSector_addr (a k : Nat) (x : Sector) (l : CacheLine) : (putSector a k x l).addr = l.addr := by
  unfold putSector
  split <;> rfl

section
variable {s u : State} {die dpa rq : Nat} {x : Sector} {part cls : Option Nat}

/-- A line in the cache takes the sector. -/
theorem sectorFind_cachePut_line {l : CacheLine} (h : lineFind s dpa = some l) :
    sectorFind (cachePut s die dpa x rq part cls) dpa = some x := by
  have hput : cachePut s die dpa x rq part cls = { s with mem.cache := s.mem.cache.map (putSector l.addr (dpa / 64 % 4) x) } := by
    simp only [cachePut, h]
    rfl
  have hline : lineFind (cachePut s die dpa x rq part cls) dpa = some { l with sectors := mput l.sectors (dpa / 64 % 4) x } := by
    have hsame : (fun y : CacheLine => y.addr == dpa / 256) ∘ putSector l.addr (dpa / 64 % 4) x = fun y => y.addr == dpa / 256 :=
      funext fun y => by simp
    rw [hput, lineFind, List.find?_map, hsame, show s.mem.cache.find? (fun y => y.addr == dpa / 256) = some l from h]
    exact congrArg some (if_pos rfl)
  simp only [sectorFind, hline, mfind_mput]

/-- Without one, the set's room takes a line that holds the sector. -/
theorem sectorFind_cachePut_room (h : lineFind s dpa = none) (hr : makeRoom s die (dpa / 256) cls = some u) :
    sectorFind (cachePut s die dpa x rq part cls) dpa = some x := by
  have hput : cachePut s die dpa x rq part cls =
      { u with mem.cache := { die := die, addr := dpa / 256, sectors := [(dpa / 64 % 4, x)] } :: u.mem.cache } := by
    simp only [cachePut, h, hr]
  rw [hput]
  simp [sectorFind, lineFind, mfind]

theorem sectorFind_cachePut (h : (lineFind s dpa).isSome = true ∨ (makeRoom s die (dpa / 256) cls).isSome = true) :
    sectorFind (cachePut s die dpa x rq part cls) dpa = some x := by
  cases hl : lineFind s dpa with
  | some l => exact sectorFind_cachePut_line hl
  | none =>
    obtain ⟨u, hu⟩ := Option.isSome_iff_exists.1 (by simpa [hl] using h)
    exact sectorFind_cachePut_room hl hu

/-- A dirty sector for which there is neither passes through. -/
theorem cachePut_full {p : Place} {e : Nat} (hl : (lineFind s dpa).isSome = false) (hr : (makeRoom s die (dpa / 256) cls).isSome = false)
    (hx : x.dirty = true) (hp : locate s dpa = some (p, e)) :
    cachePut s die dpa x rq part cls = chanWrite s p dpa x.data x.poison rq part cls := by
  have hline : lineFind s dpa = none := Option.not_isSome_iff_eq_none.1 (ne_true_of_eq_false hl)
  have hroom : makeRoom s die (dpa / 256) cls = none := Option.not_isSome_iff_eq_none.1 (ne_true_of_eq_false hr)
  simp only [cachePut, hline, hroom, hp, hx, Bool.not_true, Bool.false_eq_true, if_false]

end

/-! ### writeGranule (R114, R150, R199) -/

/-- The state in which `n` bytes for a place have been counted as written to its tier. -/
def tierWritten (s : State) (rq : Requester) (p : Place) (n : Nat) : State :=
  bumpO s (rqPart rq) (match p.tier with | .fast => 11 | .cap => 13) n

section
variable {s : State} {rq : Requester} {dpa cls : Nat} {d : List Byte} {poison : Bool} {p : Place} {e : Nat}
  (hst : accessStatus s rq dpa = St.ok) (hp : locate s dpa = some (p, e))
include hst hp

/-- A granule that is not refused lands by its region: at its channel, or in the staging cache. -/
theorem writeGranule_lands : writeGranule s rq dpa d poison cls = (St.ok,
    if eWindow e then chanWrite (tierWritten s rq p 64) p dpa d poison (rqCode rq) (rqPart rq) (some cls)
    else if eStream e || eFolded e then
      chanWrite (cacheDrop (tierWritten s rq p 64) dpa) p dpa d poison (rqCode rq) (rqPart rq) (some cls)
    else cachePut (bumpO (tierWritten s rq p 64) (rqPart rq) 9 64) (chanDie p.tier p.chan) dpa
      { data := padTo 64 d, dirty := true, poison := poison } (rqCode rq) (rqPart rq) (some cls)) := by
  unfold writeGranule
  dsimp only
  rw [if_neg (by simp [hst]), hp]
  dsimp only
  split
  · rfl
  · split <;> rfl

theorem writeGranule_cached (hw : eWindow e = false) (hs : eStream e = false) (hf : eFolded e = false) (hd : d.length = 64) :
    writeGranule s rq dpa d poison cls = (St.ok, cachePut (bumpO (tierWritten s rq p 64) (rqPart rq) 9 64) (chanDie p.tier p.chan) dpa
      { data := d, dirty := true, poison := poison } (rqCode rq) (rqPart rq) (some cls)) := by
  rw [writeGranule_lands hst hp, if_neg (by simp [hw]), if_neg (by simp [hs, hf]), padTo_of_length hd]

end

section
variable (s : State) (rq : Requester) (p : Place) (dpa : Nat)

theorem granuleWritten_mem : (bumpO (tierWritten s rq p 64) (rqPart rq) 9 64).mem = s.mem := by simp [tierWritten]

theorem granuleWritten_svc : (bumpO (tierWritten s rq p 64) (rqPart rq) 9 64).svc = s.svc := by simp [tierWritten]

end

section
variable {s : State} {rq : Requester} {dpa cls : Nat} {d : List Byte} {poison : Bool} {p : Place} {e : Nat}
  (hst : accessStatus s rq dpa = St.ok) (hp : locate s dpa = some (p, e)) (hd : d.length = 64)
include hst hp hd

theorem writeGranule_takes (hw : eWindow e = false) (hs : eStream e = false) (hf : eFolded e = false)
    (hroom : (lineFind s dpa).isSome = true ∨ (makeRoom s (chanDie p.tier p.chan) (dpa / 256) (some cls)).isSome = true) :
    (writeGranule s rq dpa d poison cls).1 = St.ok ∧
      sectorFind (writeGranule s rq dpa d poison cls).2 dpa = some { data := d, dirty := true, poison := poison } := by
  have hmem := granuleWritten_mem s rq p
  have hthermal := congrArg MemSvc.thermal (granuleWritten_svc s rq p)
  rw [writeGranule_cached hst hp hw hs hf hd]
  exact ⟨rfl, sectorFind_cachePut (by rwa [lineFind_of_mem hmem, makeRoom_isSome_of_mem hmem hthermal])⟩

/-- What the cache does not take goes to the channel, which the write has not touched before. -/
theorem writeGranule_passes (hpass : eWindow e = true ∨ eStream e = true ∨ eFolded e = true ∨
      ((lineFind s dpa).isSome = false ∧ (makeRoom s (chanDie p.tier p.chan) (dpa / 256) (some cls)).isSome = false)) :
    ∃ u, writeGranule s rq dpa d poison cls = (St.ok, chanWrite u p dpa d poison (rqCode rq) (rqPart rq) (some cls)) ∧
      u.svc.chans = s.svc.chans := by
  cases hw : eWindow e with
  | true =>
    refine ⟨tierWritten s rq p 64, ?_, by simp [tierWritten]⟩
    rw [writeGranule_lands hst hp, if_pos hw]
  | false =>
    have hwindow : ¬ eWindow e = true := ne_true_of_eq_false hw
    cases hsf : eStream e || eFolded e with
    | true =>
      refine ⟨cacheDrop (tierWritten s rq p 64) dpa, ?_, congrArg MemSvc.chans (bumpO_svc ..)⟩
      rw [writeGranule_lands hst hp, if_neg hwindow, if_pos hsf]
    | false =>
      have hmem := granuleWritten_mem s rq p
      have hsvc := granuleWritten_svc s rq p
      obtain ⟨hstream, hfolded⟩ := Bool.or_eq_false_iff.1 hsf
      obtain ⟨hl, hr⟩ := ((hpass.resolve_left hwindow).resolve_left (ne_true_of_eq_false hstream)).resolve_left (ne_true_of_eq_false hfolded)
      refine ⟨bumpO (tierWritten s rq p 64) (rqPart rq) 9 64, ?_, congrArg MemSvc.chans hsvc⟩
      rw [writeGranule_cached hst hp hw hstream hfolded hd,
        cachePut_full (by rwa [lineFind_of_mem hmem]) (by rwa [makeRoom_isSome_of_mem hmem (congrArg MemSvc.thermal hsvc)]) rfl
          ((locate_of_mem hmem dpa).trans hp)]

end

/-- Settles O60: at the channel by what cells read after a granule is stored, in the cache by the line that takes the sector. -/
theorem fullGranuleWriteSetsPoison : Obligations.FullGranuleWriteSetsPoison := by
  refine ⟨fun s p dpa d poison rq part cls hs hf hp ho hd => ?stored, fun s rq dpa d poison p e cls hst hp hw hs hf hd hroom => ?taken,
    fun _ _ _ _ _ _ _ _ hst hp hd => writeGranule_passes hst hp hd⟩
  case stored =>
    obtain ⟨hdata, hcheck⟩ := chanWrite_stores (dpa := dpa) (poison := poison) (rq := rq) (part := part) (cls := cls) hf hs hp ho hd
    exact ⟨hdata, hcheck, checkWord_head? d poison⟩
  case taken => exact writeGranule_takes hst hp hd hw hs hf hroom

end Sys2Proof.Machine
end

section
/-! PROOFS. Contributions at the channel controllers and the store queue (R164, R167 to R175, R227). -/

namespace Sys2Proof.Machine

/-! ### Lanes (R164, R165) -/

/-- Little-endian bytes hold the number that they were made of, as far as it fits. -/
theorem leNat_leBytes (n v : Nat) : leNat (leBytes n v) = v % 256 ^ n := by
  induction n generalizing v with
  | zero => exact (Nat.mod_one v).symm
  | succ n ih =>
    have hbyte : (BitVec.ofNat 8 v).toNat = v % 256 := BitVec.toNat_ofNat v 8
    rw [leBytes, leNat, ih, hbyte, Nat.pow_succ', Nat.mod_mul]

theorem leNat_lt (l : List Byte) : leNat l < 256 ^ l.length := by
  induction l with
  | nil => exact Nat.one_pos
  | cons b r ih =>
    have hb : b.toNat < 256 := b.isLt
    rw [leNat, List.length_cons, Nat.pow_succ']
    omega

theorem fieldN_lt (l : List Byte) (off n : Nat) : fieldN l off n < 256 ^ n := by
  simpa [fieldN] using leNat_lt (slice l off n)

/-- Of blocks of `w` bytes laid end to end, the first `k` end at byte `w * k`. -/
theorem drop_flatten_blocks {w : Nat} {l : List (List Byte)} (hl : ∀ b ∈ l, b.length = w) (k : Nat) :
    l.flatten.drop (w * k) = (l.drop k).flatten := by
  induction l generalizing k with
  | nil => rw [List.drop_nil, List.flatten_nil, List.drop_nil]
  | cons b r ih =>
    cases k with
    | zero => rfl
    | succ k =>
      have hstep : w * (k + 1) = b.length + w * k := by rw [hl b List.mem_cons_self, Nat.mul_succ, Nat.add_comm]
      rw [List.flatten_cons, hstep, List.drop_length_add_append, ih (fun c hc => hl c (List.mem_cons_of_mem b hc)),
        List.drop_succ_cons]

/-- The slice at block `k` is that block. -/
theorem slice_flatten_blocks {f : Nat → List Byte} {w n k : Nat} (hf : ∀ j, (f j).length = w) (hk : k < n) :
    slice ((List.range n).map f).flatten (w * k) w = f k := by
  have hlens : ∀ b ∈ (List.range n).map f, b.length = w := List.forall_mem_map.2 fun j _ => hf j
  have hdrop : ((List.range n).map f).drop k = f k :: ((List.range n).map f).drop (k + 1) := by
    rw [List.drop_eq_getElem_cons (by rw [List.length_map, List.length_range]; exact hk), List.getElem_map, List.getElem_range]
  unfold slice
  dsimp only
  rw [drop_flatten_blocks hlens, hdrop, List.flatten_cons, List.take_left' (hf k), hf k, Nat.sub_self, List.replicate_zero,
    List.append_nil]

/-- A lane of a granule after a contribution: the operation's result where the mask enables it, else what it held. -/
theorem fieldN_applyLanes (op : Nat) (mask : BitVec 32) (d b : List Byte) {k : Nat} (hk : k < 64 / laneBytes op) :
    fieldN (applyLanes op mask d b).1 (laneBytes op * k) (laneBytes op) =
      (if mask.getLsbD k then laneOp op (fieldN d (laneBytes op * k) (laneBytes op)) (fieldN b (laneBytes op * k) (laneBytes op))
        else fieldN d (laneBytes op * k) (laneBytes op)) % 256 ^ laneBytes op := by
  rw [← leNat_leBytes]
  exact congrArg leNat (slice_flatten_blocks (fun _ => leBytes_length ..) hk)

theorem applyLanes_masked {op k : Nat} {mask : BitVec 32} (d b : List Byte) (hk : k < 64 / laneBytes op) (hm : mask.getLsbD k = false) :
    fieldN (applyLanes op mask d b).1 (laneBytes op * k) (laneBytes op) = fieldN d (laneBytes op * k) (laneBytes op) := by
  rw [fieldN_applyLanes op mask d b hk, if_neg (ne_true_of_eq_false hm), Nat.mod_eq_of_lt (fieldN_lt ..)]

theorem applyLanes_enabled {op k : Nat} {mask : BitVec 32} (d b : List Byte) (hk : k < 64 / laneBytes op) (hm : mask.getLsbD k = true) :
    fieldN (applyLanes op mask d b).1 (laneBytes op * k) (laneBytes op) =
      laneOp op (fieldN d (laneBytes op * k) (laneBytes op)) (fieldN b (laneBytes op * k) (laneBytes op)) % 256 ^ laneBytes op := by
  rw [fieldN_applyLanes op mask d b hk, if_pos hm]

/-! ### What the charge and the crossing of an access leave alone (R21, R128, R130) -/

/-- A state without what an access's charge and its crossing of the bridge change: the levels of the buckets and the counters. -/
def uncharged (s : State) : State := { s with svc.regs := [], svc.trace := [], obs.ctr := [], obs.progs := [] }

theorem uncharged_bumpO (s : State) (p : Option Nat) (i n : Nat) : uncharged (bumpO s p i n) = uncharged s := by
  cases p with
  | none => rfl
  | some p =>
    unfold bumpO bump
    dsimp only
    split <;> rfl

theorem uncharged_prog (s : State) (unit event : Nat) (part cls : Option Nat) (n : Nat) :
    uncharged (prog s unit event part cls n) = uncharged s := by
  refine foldl_keeps uncharged _ s fun t k => ?_
  dsimp only
  split <;> rfl

theorem uncharged_chargeReg (s : State) (k n : Nat) : uncharged (chargeReg s k n) = uncharged s := by
  unfold chargeReg
  dsimp only
  split <;> rfl

theorem uncharged_charge (s : State) (rq : Requester) (dpa n cls : Nat) : uncharged (charge s rq dpa n cls) = uncharged s := by
  unfold charge
  split
  case isTrue => split <;> rfl
  case isFalse =>
    split
    · exact uncharged_chargeReg ..
    · rfl

theorem uncharged_crossing (s : State) (src dst : Nat) (part : Option Nat) (n : Nat) :
    uncharged (crossing s src dst part n) = uncharged s := by
  unfold crossing
  split
  · rfl
  · rw [uncharged_prog, uncharged_bumpO]

theorem uncharged_crossFrom (s : State) (die : Nat) (part : Option Nat) (write : Bool) (dpa n : Nat) :
    uncharged (crossFrom s die part write dpa n) = uncharged s := by
  unfold crossFrom
  split
  · split <;> exact uncharged_crossing ..
  · rfl

theorem uncharged_cross (s : State) (rq : Requester) (write : Bool) (dpa n : Nat) :
    uncharged (cross s rq write dpa n) = uncharged s := by
  unfold cross
  split
  · exact uncharged_crossFrom ..
  · rfl

section
variable {s v : State}

theorem regionEntry_of_mem (hm : v.mem = s.mem) (t : Tier) (r : Nat) : regionEntry v t r = regionEntry s t r := by
  cases v; cases s; cases hm; cases t <;> rfl

theorem placeIn_of_mem (hm : v.mem = s.mem) (t : Tier) (e dpa : Nat) : placeIn v t e dpa = placeIn s t e dpa := by
  cases v; cases s; cases hm; rfl

section
variable (h : uncharged v = uncharged s)
include h

theorem mem_of_uncharged : v.mem = s.mem := (congrArg State.mem h :)
theorem ari_of_uncharged : v.ari = s.ari := (congrArg State.ari h :)
theorem ink_of_uncharged : v.ink = s.ink := (congrArg State.ink h :)
theorem time_of_uncharged : v.time = s.time := (congrArg State.time h :)

/-- Why a contribution is refused does not depend on what its access has been charged. -/
theorem contribStatus_of_uncharged (rq : Requester) (dpa : Nat) : contribStatus v rq dpa = contribStatus s rq dpa := by
  have hmem := mem_of_uncharged h
  have hchans : v.svc.chans = s.svc.chans := (congrArg (fun x => x.svc.chans) h :)
  have hthermal : v.svc.thermal = s.svc.thermal := (congrArg (fun x => x.svc.thermal) h :)
  unfold contribStatus
  split
  · simp only [regionEntry_of_mem hmem, placeIn_of_mem hmem, heldAny, ink_of_uncharged h, tripped, thermalOf_of_thermal hthermal,
      chanOf_of_svc hchans]
  · rfl

end
end

/-! ### A contribution of any requester (R164, R167) -/

/-- The state in which a contribution reaches its controller: charged to its requester where its address does not refuse it (R130, R21). -/
def reached (s : State) (r : Requester) (dpa cls : Nat) : State :=
  if contribStatus s r dpa = St.ok then cross (charge s r dpa 64 cls) r true dpa 64 else s

theorem uncharged_reached (s : State) (r : Requester) (dpa cls : Nat) : uncharged (reached s r dpa cls) = uncharged s := by
  unfold reached
  split
  · rw [uncharged_cross, uncharged_charge]
  · rfl

section
variable {s u v : State} {r : Requester} {w : Contribution} {cls : Nat}

theorem contribute_badFormat (h : arithKnown w.op = false ∨ w.dpa % 64 ≠ 0) :
    contribute s r w cls = (St.arithFormat, zeros 64, s) :=
  if_pos (by simpa using h)

section
variable (hop : arithKnown w.op = true) (hal : w.dpa % 64 = 0)
include hop hal

theorem contribute_unordered (ho : w.order = none) :
    contribute s r w cls = applyContribution (reached s r w.dpa cls) r w cls := by
  refine (if_neg (by simp [hop, hal])).trans ?_
  simp only [ho, reached]

theorem contribute_ordered {i q : Nat} (ho : w.order = some (i, q)) :
    contribute s r w cls = ((contributeOrdered (reached s r w.dpa cls) r w i q).1, zeros 64,
      (contributeOrdered (reached s r w.dpa cls) r w i q).2) := by
  refine (if_neg (by simp [hop, hal])).trans ?_
  simp only [ho, reached]

end

theorem applyContribution_refused (h : contribStatus s r w.dpa ≠ St.ok) :
    applyContribution s r w cls = (contribStatus s r w.dpa, zeros 64, s) :=
  if_pos h

theorem applyContribution_applied {p : Place} {e : Nat} {d : List Byte} {ue : Bool} (hst : contribStatus s r w.dpa = St.ok)
    (hp : locate s w.dpa = some (p, e)) (hw : w.poison = false)
    (hr : chanRead (cacheYield (watch s r 2 w.dpa 64) w.dpa (some cls)) p w.dpa 1 2 (rqCode r) (rqPart r) (some cls) false =
      (d, false, ue, v)) :
    applyContribution s r w cls = (St.ok, d, prog (bumpO (bumpO (accPut v p w.dpa (applyLanes w.op w.mask d w.operand).1)
      (rqPart r) 30 1) (rqPart r) 31 (applyLanes w.op w.mask d w.operand).2) (chanUnitId p.tier p.chan) 7 (rqPart r) (some cls) 1) := by
  refine (if_neg (by simp [hst])).trans ?_
  simp [hp, hr, hw]

/-! ### CONTRIBUTION of another requester than a core -/

theorem contribution_held (h : contribHeld s r w = true) : exec (.contribution (.direct r w)) s = .next s :=
  congrArg Host.Outcome.next (if_pos h)

/-- What is not held is answered with its status, in the state that it leaves. -/
theorem contribution_answered {st : Nat} {d : List Byte} (hh : contribHeld s r w = false) (h : contribute s r w 1 = (st, d, v)) :
    exec (.contribution (.direct r w)) s = .next (setReply v st [] false) := by
  refine congrArg Host.Outcome.next ((if_neg (ne_true_of_eq_false hh)).trans ?_)
  simp only [h]

theorem contribution_badFormat (h : arithKnown w.op = false ∨ w.dpa % 64 ≠ 0) :
    exec (.contribution (.direct r w)) s = .next (setReply s St.arithFormat [] false) := by
  refine contribution_answered ?_ (contribute_badFormat h)
  rcases h with h | h <;> simp [contribHeld, h]

theorem contribution_refused (hop : arithKnown w.op = true) (hal : w.dpa % 64 = 0) (ho : w.order = none)
    (hst : contribStatus s r w.dpa ≠ St.ok) :
    exec (.contribution (.direct r w)) s = .next (setReply s (contribStatus s r w.dpa) [] false) := by
  have hreached : reached s r w.dpa 1 = s := if_neg hst
  refine contribution_answered (d := zeros 64) (by simp [contribHeld, hst]) ?_
  rw [contribute_unordered hop hal ho, hreached, applyContribution_refused hst]

theorem contribution_applied {p : Place} {e : Nat} {d : List Byte} {ue : Bool} (hop : arithKnown w.op = true) (hal : w.dpa % 64 = 0)
    (ho : w.order = none) (hw : w.poison = false) (hst : contribStatus s r w.dpa = St.ok) (hp : locate s w.dpa = some (p, e))
    (hh : contribHeld s r w = false) (hu : u = cross (charge s r w.dpa 64 1) r true w.dpa 64)
    (hr : chanRead (cacheYield (watch u r 2 w.dpa 64) w.dpa (some 1)) p w.dpa 1 2 (rqCode r) (rqPart r) (some 1) false =
      (d, false, ue, v)) :
    exec (.contribution (.direct r w)) s =
      .next (setReply (prog (bumpO (bumpO (accPut v p w.dpa (applyLanes w.op w.mask d w.operand).1) (rqPart r) 30 1) (rqPart r) 31
        (applyLanes w.op w.mask d w.operand).2) (chanUnitId p.tier p.chan) 7 (rqPart r) (some 1) 1) St.ok [] false) := by
  have hreached : reached s r w.dpa 1 = u := (if_pos hst).trans hu.symm
  have hkept : uncharged u = uncharged s := hreached ▸ uncharged_reached s r w.dpa 1
  refine contribution_answered (d := d) hh ?_
  rw [contribute_unordered hop hal ho, hreached,
    applyContribution_applied ((contribStatus_of_uncharged hkept r w.dpa).trans hst)
      ((locate_of_mem (mem_of_uncharged hkept) w.dpa).trans hp) hw hr]

/-! ### Ordered contributions at their controller (R171 to R175) -/

theorem granuleChan_of_mem (hm : u.mem = s.mem) (dpa : Nat) : granuleChan u dpa = granuleChan s dpa := by
  simp only [granuleChan, locate_of_mem hm]

theorem currentSeq_of_mem (hm : u.mem = s.mem) (x : OrderCtx) (chan : Nat) : currentSeq u x chan = currentSeq s x chan := by
  simp only [currentSeq, granuleChan_of_mem hm]

/-- The context after a contribution to it was applied, or refused, with status `st` (R172). -/
def countedIn (y : OrderCtx) (dpa st : Nat) : OrderCtx :=
  { y with got := mput y.got ((dpa - y.dpa) / 64) (mget 0 y.got ((dpa - y.dpa) / 64) + 1), applied := y.applied + b2n (st == St.ok),
           refusal := if y.refusal = 0 then BitVec.ofNat 16 st else y.refusal }

theorem receive_counts {i st : Nat} {d : List Byte} {y : OrderCtx} (ha : applyContribution s r w 1 = (st, d, v))
    (hy : mfind v.ari.ctxs i = some y) : receive s r w i = (st, setCtx v i (countedIn y w.dpa st)) := by
  simp only [receive, ha, hy]
  rfl

section
variable {i q : Nat} (hkept : uncharged u = uncharged s)
include hkept

theorem contributeOrdered_noContext (hx : mfind s.ari.ctxs i = none) : contributeOrdered u r w i q = (St.orderRange, u) := by
  simp only [contributeOrdered, ari_of_uncharged hkept, hx]

section
variable {x : OrderCtx} (hx : mfind s.ari.ctxs i = some x)
include hx

theorem contributeOrdered_beyond (hq : x.e ≤ q) : contributeOrdered u r w i q = (St.orderRange, u) := by
  simp only [contributeOrdered, ari_of_uncharged hkept, hx]
  exact if_pos hq

section
variable (hq : q < x.e)
include hq

theorem contributeOrdered_badShape (hshape : w.op ≠ x.op ∨ w.dpa < x.dpa ∨ x.dpa + x.len ≤ w.dpa) :
    contributeOrdered u r w i q = (St.orderShape, u) := by
  simp only [contributeOrdered, ari_of_uncharged hkept, hx]
  exact (if_neg (Nat.not_le_of_lt hq)).trans (if_pos hshape)

section
variable (hop : w.op = x.op) (hlo : x.dpa ≤ w.dpa) (hhi : w.dpa < x.dpa + x.len)
include hop hlo hhi

theorem contributeOrdered_tripped {k : Nat} (hdead : mfind x.dead ((w.dpa - x.dpa) / 64) = some k) (hk : k ≤ q) :
    contributeOrdered u r w i q = (St.thermalAbort, u) := by
  simp only [contributeOrdered, ari_of_uncharged hkept, hx]
  refine (if_neg (Nat.not_le_of_lt hq)).trans ((if_neg (by omega)).trans (if_pos ?_))
  simp [hdead, hk]

section
variable (hdead : mfind x.dead ((w.dpa - x.dpa) / 64) = none)
include hdead

/-- Where the unit has not tripped, the sequence that the controller applies decides. -/
theorem contributeOrdered_alive : contributeOrdered u r w i q =
    if q < currentSeq s x (granuleChan s w.dpa) ∨ q < mget 0 x.got ((w.dpa - x.dpa) / 64) then (St.orderDuplicate, u)
    else if q = currentSeq s x (granuleChan s w.dpa) then
      ((receive u r w i).1, closeIfComplete (drainReorder (receive u r w i).2.ari.reorder.length (receive u r w i).2) i)
    else if (s.ari.reorder.filter (fun b => b.chan == granuleChan s w.dpa)).length ≥ 128 then
      (St.ok, { bumpO (setCtx u i { x with retries := x.retries + 1 }) (rqPart r) 32 1 with
                ari.aside := s.ari.aside ++ [{ req := r, con := w, since := s.time }] })
    else (St.ok, { u with ari.reorder := s.ari.reorder ++ [{ req := r, con := w, chan := granuleChan s w.dpa }] }) := by
  have hmem := mem_of_uncharged hkept
  simp only [contributeOrdered, ari_of_uncharged hkept, time_of_uncharged hkept, hx, granuleChan_of_mem hmem, currentSeq_of_mem hmem]
  exact (if_neg (Nat.not_le_of_lt hq)).trans ((if_neg (by omega)).trans (if_neg (by simp [hdead])))

theorem contributeOrdered_passed (hpast : q < currentSeq s x (granuleChan s w.dpa)) :
    contributeOrdered u r w i q = (St.orderDuplicate, u) :=
  (contributeOrdered_alive hkept hx hq hop hlo hhi hdead).trans (if_pos (.inl hpast))

section
variable (hgot : mget 0 x.got ((w.dpa - x.dpa) / 64) ≤ q)
include hgot

theorem contributeOrdered_current {st : Nat} {d : List Byte} {y : OrderCtx} (hcur : currentSeq s x (granuleChan s w.dpa) = q)
    (ha : applyContribution u r w 1 = (st, d, v)) (hv : v.ari.reorder = []) (hy : mfind v.ari.ctxs i = some y) :
    contributeOrdered u r w i q = (st, closeIfComplete (setCtx v i (countedIn y w.dpa st)) i) := by
  have hreorder : (setCtx v i (countedIn y w.dpa st)).ari.reorder = [] := hv
  refine (contributeOrdered_alive hkept hx hq hop hlo hhi hdead).trans ((if_neg (by omega)).trans ((if_pos hcur.symm).trans ?_))
  rw [receive_counts ha hy, hreorder]
  rfl

section
variable (hearly : currentSeq s x (granuleChan s w.dpa) < q)
include hearly

theorem contributeOrdered_buffered (hroom : (s.ari.reorder.filter (fun b => b.chan == granuleChan s w.dpa)).length < 128) :
    contributeOrdered u r w i q =
      (St.ok, { u with ari.reorder := s.ari.reorder ++ [{ req := r, con := w, chan := granuleChan s w.dpa }] }) :=
  (contributeOrdered_alive hkept hx hq hop hlo hhi hdead).trans
    ((if_neg (by omega)).trans ((if_neg (by omega)).trans (if_neg (Nat.not_le_of_lt hroom))))

theorem contributeOrdered_setAside (hfull : 128 ≤ (s.ari.reorder.filter (fun b => b.chan == granuleChan s w.dpa)).length) :
    contributeOrdered u r w i q =
      (St.ok, { bumpO (setCtx u i { x with retries := x.retries + 1 }) (rqPart r) 32 1 with
                ari.aside := s.ari.aside ++ [{ req := r, con := w, since := s.time }] }) :=
  (contributeOrdered_alive hkept hx hq hop hlo hhi hdead).trans
    ((if_neg (by omega)).trans ((if_neg (by omega)).trans (if_pos hfull)))

end
end
end
end
end
end
end

/-- An ordered contribution that is not held is answered with what its context makes of it. -/
theorem contribution_ordered {i q st : Nat} (hop : arithKnown w.op = true) (hal : w.dpa % 64 = 0) (ho : w.order = some (i, q))
    (hh : contribHeld s r w = false) (h : contributeOrdered (reached s r w.dpa 1) r w i q = (st, v)) :
    exec (.contribution (.direct r w)) s = .next (setReply v st [] false) := by
  refine contribution_answered (d := zeros 64) hh ?_
  rw [contribute_ordered hop hal ho, h]

end

/-! ### CONTRIBUTION_RESEND (R173, R359) -/

section
variable {s v : State} {a : Aside}

theorem contributionResend_due (h : s.ari.aside.find? (fun a => decide (a.since + resendUnits ≤ s.time)) = some a) :
    exec .contributionResend s = .next (resend { s with ari.aside := s.ari.aside.erase a } a) := by
  refine congrArg Host.Outcome.next ?_
  simp only [h]

theorem contributionResend_early (ha : ∀ a ∈ s.ari.aside, s.time < a.since + resendUnits) (hr : s.duc.remotes = []) :
    exec .contributionResend s = .next s := by
  have hnone : s.ari.aside.find? (fun a => decide (a.since + resendUnits ≤ s.time)) = none := by simpa using ha
  refine congrArg Host.Outcome.next ?_
  simp only [hnone, hr, List.find?_nil]

/-- One that is not set aside again, of neither a reduction nor a core, lets the collectives go on. -/
theorem resend_accepted {st : Nat} {d : List Byte} (hc : contribute s a.req a.con 1 = (st, d, v))
    (hn : v.ari.aside.length ≤ s.ari.aside.length) (ho : a.op = none) (hr : ∀ p n, a.req ≠ .core p n) : resend s a = pushAll v := by
  simp only [resend, hc, if_neg (Nat.not_lt_of_le hn), ho]

end

/-! ### CONTRIBUTION and MEMORY_WRITE of a core's queues (R115, R227) -/

section
variable {s u v : State} {n : Nat}

theorem coreContribution_none (h : (coreOf s n).contribs = []) : exec (.contribution (.core n)) s = .next s := by
  change Host.Outcome.next (coreContribution s n) = _
  simp only [coreContribution, h, List.find?_nil]

theorem coreContribution_posted {dpa : Nat} {x : CoreContrib} {d : List Byte} (h : (coreOf s n).contribs = [x]) (hp : x.prior = none)
    (hf : x.fetching = false) (ht : targetOf s x.con.dpa = .here dpa) (hold : olderTouches s (coreOf s n) x.seq none dpa 64 = false)
    (hh : contribHeld s (coreRq s n) { x.con with dpa := dpa } = false)
    (hc : contribute s (coreRq s n) { x.con with dpa := dpa } 1 = (St.ok, d, v)) :
    exec (.contribution (.core n)) s =
      .next (coreSettle (setCore v n { coreOf v n with contribs := (coreOf v n).contribs.erase x }) n) := by
  have hfirst : (coreOf s n).contribs.find? (fun x => x.prior.isNone) = some x := by simp [h, hp]
  change Host.Outcome.next (coreContribution s n) = _
  simp [coreContribution, hfirst, ht, hold, hh, hc, hf]

theorem storeQueue_empty (h : (coreOf s n).stores = []) : exec (.memoryWrite (.storeQueue n)) s = .next s := by
  change Host.Outcome.next (storeOldest s n) = _
  simp only [storeOldest, h]

section
variable {g : StoreGranule} {l : List StoreGranule} (h : (coreOf s n).stores = g :: l) (hp : g.peer = none)
  (hst : statusAt s (coreRq s n) true g.dpa = St.ok) (hw : g.whole = true ∨ touchesFolded s g.dpa 64 = false)
include h hp hst hw

/-- A store that its address does not refuse waits, or goes to its granule. -/
theorem storeQueue_front : exec (.memoryWrite (.storeQueue n)) s =
    .next (if olderTouches s (coreOf s n) g.seq none g.dpa 64 then s
      else if storeWaits s n g then s
      else coreSettle (writeAt (charge (watch (setCore s n (fillStores n storeDepth { coreOf s n with stores := l })) (coreRq s n) 1 g.dpa 64)
        (coreRq s n) g.dpa 64 g.cls) (coreRq s n) g.dpa g.data g.poison g.cls).2 n) := by
  have hwhole : (!g.whole && touchesFolded s g.dpa 64) = false := by rcases hw with hw | hw <;> simp [hw]
  change Host.Outcome.next (storeOldest s n) = _
  simp [storeOldest, h, hp, hst, hwhole]

theorem storeQueue_stores (hold : olderTouches s (coreOf s n) g.seq none g.dpa 64 = false) (hwait : storeWaits s n g = false)
    (hu : u = setCore s n (fillStores n storeDepth { coreOf s n with stores := l })) :
    exec (.memoryWrite (.storeQueue n)) s = .next (coreSettle (writeAt (charge (watch u (coreRq s n) 1 g.dpa 64)
      (coreRq s n) g.dpa 64 g.cls) (coreRq s n) g.dpa g.data g.poison g.cls).2 n) := by
  rw [storeQueue_front h hp hst hw, if_neg (ne_true_of_eq_false hold), if_neg (ne_true_of_eq_false hwait), hu]

theorem storeQueue_waits (hwait : storeWaits s n g = true ∨ olderTouches s (coreOf s n) g.seq none g.dpa 64 = true) :
    exec (.memoryWrite (.storeQueue n)) s = .next s := by
  rw [storeQueue_front h hp hst hw]
  rcases hwait with hwait | hold
  · rw [if_pos hwait, ite_self]
  · rw [if_pos hold]

end
end

/-- Settles O35: each clause is one way that a contribution or a store goes, and an ordered one goes by its context and its sequence. -/
theorem contributionRows : Obligations.ContributionRows := by
  refine ⟨fun _ _ _ => contribution_badFormat, fun _ _ _ => contribution_refused, fun _ _ _ => contribution_held,
    fun _ _ _ _ _ _ _ _ _ => contribution_applied, fun _ _ _ d b _ hk hm => applyLanes_masked d b hk hm,
    fun _ _ _ d b _ hk hm => applyLanes_enabled d b hk hm, fun s u r w i q hop hal ho hh hu => ?ordered,
    fun _ _ => contributionResend_due, fun _ _ _ _ _ => resend_accepted, fun _ => contributionResend_early,
    fun _ _ => coreContribution_none, fun _ _ _ _ _ _ => coreContribution_posted, fun _ _ => storeQueue_empty,
    fun _ _ _ _ _ h hp hold hst hw hwait hu => storeQueue_stores h hp hst hw hold hwait hu,
    fun _ _ _ _ h hp hst hw hwait => storeQueue_waits h hp hst hw hwait⟩
  case ordered =>
    have hreached : reached s r w.dpa 1 = u := hu.symm
    have hkept : uncharged u = uncharged s := hreached ▸ uncharged_reached s r w.dpa 1
    have answered {st : Nat} {v : State} (h : contributeOrdered u r w i q = (st, v)) :
        exec (.contribution (.direct r w)) s = .next (setReply v st [] false) :=
      contribution_ordered hop hal ho hh (hreached.symm ▸ h)
    refine ⟨fun hx => answered (contributeOrdered_noContext hkept hx), fun x g hx hg => ?_⟩
    subst hg
    refine ⟨fun hq => answered (contributeOrdered_beyond hkept hx hq),
      fun hq hshape => answered (contributeOrdered_badShape hkept hx hq hshape), fun hq hsame hlo hhi => ?_⟩
    exact ⟨fun k hd hk => answered (contributeOrdered_tripped hkept hx hq hsame hlo hhi hd hk),
      fun hd hpast => answered (contributeOrdered_passed hkept hx hq hsame hlo hhi hd hpast),
      fun hd hearly hgot hroom => answered (contributeOrdered_buffered hkept hx hq hsame hlo hhi hd hgot hearly hroom),
      fun hd hearly hgot hfull => answered (contributeOrdered_setAside hkept hx hq hsame hlo hhi hd hgot hearly hfull),
      fun _ _ _ _ hd hcur hgot ha hv hy => answered (contributeOrdered_current hkept hx hq hsame hlo hhi hd hgot hcur ha hv hy)⟩

end Sys2Proof.Machine
end

section
/-! PROOFS. What an access to device memory leaves alone of the arithmetic beside it: all but the accumulators (R116, R168). -/

namespace Sys2Proof.Machine

/-- What every turn of a fold keeps of what it carries, the fold keeps. -/
theorem foldl_preserves {α β γ : Type} (g : γ → β) {f : γ → α → γ} (l : List α) (a : γ) (h : ∀ a x, g (f a x) = g a) :
    g (l.foldl f a) = g a :=
  List.foldlRecOn (motive := fun b => g b = g a) l f rfl fun b hb x _ => (h b x).trans hb

/-! ### Recording, waiting and signalling leave the arithmetic beside memory alone -/

section
variable (s : State)

@[simp] theorem markChannel_ari (t : Tier) (c : Nat) : (markChannel s t c).ari = s.ari :=
  (congrArg State.ari (unpowered_markChannel s t c) :)

@[simp] theorem chanCount_ari (t : Tier) (c i : Nat) : (chanCount s t c i).ari = s.ari := rfl

@[simp] theorem setChan_ari (t : Tier) (c : Nat) (x : Chan) : (setChan s t c x).ari = s.ari := rfl

@[simp] theorem logErr_ari (die type : Nat) (t : Tier) (u off dpa sym rq : Nat) :
    (logErr s die type t u off dpa sym rq).ari = s.ari := rfl

@[simp] theorem watchUe_ari (t : Tier) (c : Nat) : (watchUe s t c).ari = s.ari := by
  unfold watchUe
  dsimp only
  split <;> simp

@[simp] theorem watchCe_ari (t : Tier) (c : Nat) : (watchCe s t c).ari = s.ari := by
  unfold watchCe
  dsimp only
  split <;> simp

@[simp] theorem noteUe_ari (type : Nat) (t : Tier) (c off dpa rq : Nat) : (noteUe s type t c off dpa rq).ari = s.ari := by
  unfold noteUe
  dsimp only
  split <;> simp

@[simp] theorem noteCe_ari (type : Nat) (t : Tier) (c off dpa sym rq : Nat) (part : Option Nat) :
    (noteCe s type t c off dpa sym rq part).ari = s.ari := by
  unfold noteCe
  dsimp only
  repeat' split
  all_goals simp

@[simp] theorem noteDrop_ari (t : Tier) (c off dpa rq : Nat) : (noteDrop s t c off dpa rq).ari = s.ari := by
  unfold noteDrop
  dsimp only
  split <;> simp

@[simp] theorem checkRead_ari (p : Place) : (checkRead s p).2.ari = s.ari := by
  unfold checkRead
  dsimp only
  repeat' split
  all_goals rfl

@[simp] theorem placeStore_ari (p : Place) (d : List Byte) (poison : Bool) : (placeStore s p d poison).ari = s.ari := by
  unfold placeStore
  dsimp only
  split <;> rfl

@[simp] theorem chanRead_ari (p : Place) (dpa ceType ueType rq : Nat) (part cls : Option Nat) (fix : Bool) :
    (chanRead s p dpa ceType ueType rq part cls fix).2.2.2.ari = s.ari := by
  unfold chanRead
  dsimp only
  repeat' split
  all_goals simp

@[simp] theorem charge_ari (rq : Requester) (dpa n cls : Nat) : (charge s rq dpa n cls).ari = s.ari :=
  ari_of_uncharged (uncharged_charge ..)

@[simp] theorem chargeReg_ari (k n : Nat) : (chargeReg s k n).ari = s.ari := ari_of_uncharged (uncharged_chargeReg ..)

@[simp] theorem crossFrom_ari (die : Nat) (part : Option Nat) (write : Bool) (dpa n : Nat) :
    (crossFrom s die part write dpa n).ari = s.ari := ari_of_uncharged (uncharged_crossFrom ..)

@[simp] theorem cross_ari (rq : Requester) (write : Bool) (dpa n : Nat) : (cross s rq write dpa n).ari = s.ari :=
  ari_of_uncharged (uncharged_cross ..)

@[simp] theorem crossRange_ari (die : Nat) (part : Option Nat) (write : Bool) (dpa len : Nat) :
    (crossRange s die part write dpa len).ari = s.ari :=
  foldl_keeps State.ari _ s fun _ _ => crossFrom_ari ..

@[simp] theorem setCore_ari (n : Nat) (c : Core) : (setCore s n c).ari = s.ari := rfl

@[simp] theorem setQueue_ari (p q : Nat) (x : Queue) : (setQueue s p q x).ari = s.ari := rfl

@[simp] theorem latchEnd_ari (p q status : Nat) : (latchEnd s p q status).ari = s.ari := by simp [latchEnd]

@[simp] theorem queueStatus_ari (p q status : Nat) : (queueStatus s p q status).ari = s.ari := by
  unfold queueStatus
  dsimp only
  repeat' split
  all_goals simp

@[simp] theorem endQueueWait_ari (w : QWaiter) (result : Nat) : (endQueueWait s w result).ari = s.ari := by simp [endQueueWait]

@[simp] theorem endCoreWait_ari (n : Nat) (w : CoreWait) (result : Nat) : (endCoreWait s n w result).ari = s.ari := by
  simp [endCoreWait]

@[simp] theorem releaseWaiters_ari (n : Nat) : (releaseWaiters s n).ari = s.ari := by
  unfold releaseWaiters
  refine (foldl_keeps State.ari _ _ fun u e => ?core).trans (foldl_keeps State.ari _ _ fun _ _ => by simp)
  case core =>
    repeat' split
    all_goals simp

@[simp] theorem tallySet_ari (n : Nat) (v : BitVec 32) (isSet : Bool) (src : Nat) (part : Option Nat) :
    (tallySet s n v isSet src part).ari = s.ari := by simp [tallySet]

@[simp] theorem frameArrives_ari (n : Nat) (at_ : Stamp) : (frameArrives s n at_).ari = s.ari :=
  foldl_keeps State.ari _ _ fun _ _ => rfl

@[simp] theorem tallySignalAs_ari (n : Nat) (v : BitVec 32) (isSet : Bool) (src : Nat) (part : Option Nat) :
    (tallySignalAs s n v isSet src part).ari = s.ari := by
  unfold tallySignalAs tallySignalAt
  split <;> simp

end

/-! ### Storing a granule empties its accumulator entry, and changes nothing else of the arithmetic -/

/-- The arithmetic beside memory without its accumulators. -/
def pastAccumulators (a : Arith) : Arith := { a with acc := [] }

section
variable (s : State)

@[simp] theorem accDrop_pastAccumulators (k : Nat) : pastAccumulators (accDrop s k).ari = pastAccumulators s.ari := rfl

@[simp] theorem granuleStore_pastAccumulators (p : Place) (dpa : Nat) (d : List Byte) (poison : Bool) :
    pastAccumulators (granuleStore s p dpa d poison).ari = pastAccumulators s.ari := by
  unfold granuleStore
  dsimp only
  split <;> simp

@[simp] theorem chanWrite_pastAccumulators (p : Place) (dpa : Nat) (d : List Byte) (poison : Bool) (rq : Nat) (part cls : Option Nat) :
    pastAccumulators (chanWrite s p dpa d poison rq part cls).ari = pastAccumulators s.ari := by
  unfold chanWrite
  dsimp only
  split <;> simp

@[simp] theorem writeBack_pastAccumulators (dpa : Nat) (x : Sector) (rq : Nat) (cls : Option Nat) :
    pastAccumulators (writeBack s dpa x rq cls).ari = pastAccumulators s.ari := by
  unfold writeBack
  split <;> simp

@[simp] theorem writeBackLine_pastAccumulators (l : CacheLine) (cls : Option Nat) :
    pastAccumulators (writeBackLine s l cls).ari = pastAccumulators s.ari :=
  foldl_keeps (fun u => pastAccumulators u.ari) _ s fun _ _ => by split <;> simp

@[simp] theorem evict_pastAccumulators (l : CacheLine) (cls : Option Nat) :
    pastAccumulators (evict s l cls).ari = pastAccumulators s.ari := by simp [evict]

theorem makeRoom_pastAccumulators {s u : State} {die addr : Nat} {cls : Option Nat} (h : makeRoom s die addr cls = some u) :
    pastAccumulators u.ari = pastAccumulators s.ari := by
  unfold makeRoom at h
  split at h
  case isTrue => cases h; rfl
  case isFalse =>
    split at h
    case h_1 => cases h
    case h_2 =>
      rw [← Option.some.inj h]
      exact evict_pastAccumulators ..

@[simp] theorem cachePut_pastAccumulators (die dpa : Nat) (x : Sector) (rq : Nat) (part cls : Option Nat) :
    pastAccumulators (cachePut s die dpa x rq part cls).ari = pastAccumulators s.ari := by
  unfold cachePut
  split
  case h_1 => rfl
  case h_2 =>
    split
    case h_1 u h => exact (makeRoom_pastAccumulators h :)
    case h_2 =>
      repeat' split
      all_goals simp

@[simp] theorem cacheDrop_ari (dpa : Nat) : (cacheDrop s dpa).ari = s.ari := rfl

theorem flushLine_pastAccumulators (wb inv : Bool) (lo hi : Nat) (acc : State × List CacheLine × Bool) (l : CacheLine) :
    pastAccumulators (flushLine wb inv lo hi acc l).1.ari = pastAccumulators acc.1.ari := by
  unfold flushLine
  dsimp only
  split
  · rfl
  · dsimp only
    split
    · exact foldl_keeps (fun u => pastAccumulators u.ari) _ _ fun _ _ => by split <;> simp
    · rfl

@[simp] theorem flushRange_pastAccumulators (lo hi : Nat) (wb inv : Bool) :
    pastAccumulators (flushRange s lo hi wb inv).1.ari = pastAccumulators s.ari := by
  unfold flushRange
  exact (foldl_keeps (fun u => pastAccumulators u.ari) _ _ fun _ _ => by split <;> simp).trans
    (foldl_preserves (fun acc : State × List CacheLine × Bool => pastAccumulators acc.1.ari) _ _ (flushLine_pastAccumulators wb inv lo hi))

@[simp] theorem cacheOp_pastAccumulators (part : Option Nat) (dpa len code : Nat) :
    pastAccumulators (cacheOp s part dpa len code).2.ari = pastAccumulators s.ari := by
  unfold cacheOp
  dsimp only
  split <;> simp

@[simp] theorem controlWrite_pastAccumulators (part : Option Nat) (off : Nat) (b : List Byte) :
    pastAccumulators (controlWrite s part off b).2.ari = pastAccumulators s.ari := by
  unfold controlWrite
  dsimp only
  repeat' split
  all_goals simp [controlFinish]

@[simp] theorem writeGranule_pastAccumulators (rq : Requester) (dpa : Nat) (d : List Byte) (poison : Bool) (cls : Nat) :
    pastAccumulators (writeGranule s rq dpa d poison cls).2.ari = pastAccumulators s.ari := by
  unfold writeGranule
  dsimp only
  repeat' split
  all_goals simp

@[simp] theorem mergeGranule_pastAccumulators (rq : Requester) (dpa o : Nat) (b : List Byte) (poison : Bool) (cls : Nat) :
    pastAccumulators (mergeGranule s rq dpa o b poison cls).2.ari = pastAccumulators s.ari := by
  unfold mergeGranule
  dsimp only
  repeat' split
  all_goals simp

@[simp] theorem writeWindow_pastAccumulators (rq : Requester) (dpa : Nat) (b : List Byte) (poison : Bool) (cls : Nat) :
    pastAccumulators (writeWindow s rq dpa b poison cls).2.ari = pastAccumulators s.ari := by
  unfold writeWindow
  repeat' split
  all_goals simp

@[simp] theorem writeAt_pastAccumulators (rq : Requester) (dpa : Nat) (b : List Byte) (poison : Bool) (cls : Nat) :
    pastAccumulators (writeAt s rq dpa b poison cls).2.ari = pastAccumulators s.ari := by
  unfold writeAt
  dsimp only
  split <;> simp

/-- A write changes nothing but accumulators of the arithmetic beside memory, wherever its bytes go. -/
@[simp] theorem writeBytes_pastAccumulators (rq : Requester) (dpa : Nat) (b : List Byte) (poison : Bool) (cls : Nat) :
    pastAccumulators (writeBytes s rq dpa b poison cls).2.ari = pastAccumulators s.ari := by
  unfold writeBytes
  dsimp only
  repeat' split
  · rfl
  · rfl
  · refine (foldl_preserves (fun acc : Nat × State => pastAccumulators acc.2.ari) _ _ fun _ _ => ?piece).trans ?start
    case piece => exact writeAt_pastAccumulators ..
    case start => rw [charge_ari, watch_ari]

end

end Sys2Proof.Machine
end

section
/-! PROOFS. The reservoir buffers (R179 to R185): descriptors queued into slots, a slot's run and its result, and what the port reports;
then O37. -/

namespace Sys2Proof.Machine

/-! ### Slots and waiting descriptors (R179, R180) -/

theorem holds_grant (s : State) (res mode owner : Nat) : holds (grant s res mode owner) res mode owner = true := by
  unfold grant
  split
  case isTrue h => exact h
  case isFalse => simp [holds]

theorem freeSlot_of_same {s v : State} (hm : v.mem = s.mem) (hs : v.ari.slots = s.ari.slots) (port : Nat) :
    freeSlot v port = freeSlot s port := by
  simp only [freeSlot, unitOf, hm, hs]

section
variable {s : State} {g : Gather}

theorem fillSlots_of_none_waiting (n : Nat) (h : ∀ g ∈ s.ari.gathers, g.waiting = []) : fillSlots n s = s := by
  cases n with
  | zero => rfl
  | succ n =>
    have hnone : s.ari.gathers.find? (fun g => g.waiting.any (fun w => (freeSlot s w.1).isSome)) = none :=
      List.find?_eq_none.2 fun g hg => by simp [h g hg]
    simp only [fillSlots, hnone]

/-- The only descriptor that waits goes into a free slot of its port. -/
theorem fillSlots_of_one_waiting {u k : Nat} {d : List Byte} (n : Nat) (hg : s.ari.gathers = [g]) (hw : g.waiting = [(u, d)])
    (hk : freeSlot s u = some k) :
    fillSlots (n + 1) s = { s with ari.slots := mput s.ari.slots k { mget {} s.ari.slots k with desc := d, gather := g.id },
                                   ari.gathers := [{ g with waiting := [] }] } := by
  have hgather : s.ari.gathers.find? (fun g => g.waiting.any (fun w => (freeSlot s w.1).isSome)) = some g := by simp [hg, hw, hk]
  have hwaiting : g.waiting.find? (fun w => (freeSlot s w.1).isSome) = some (u, d) := by simp [hw, hk]
  simp only [fillSlots, hgather, hwaiting, hk]
  rw [fillSlots_of_none_waiting n (by simp [hg, hw])]
  simp [hg, hw]

end

/-! ### RES_GATHER (R184, R185) -/

/-- A gather as it is entered, before its descriptors. -/
def enteredGather (s : State) (part : Nat) (queue : Option (Nat × Nat)) (cls : Nat) : Gather :=
  { id := s.ari.nextGather, part := part, queue := queue, left := 0, done := 0, status := 0, failTag := 0, cls := cls, waiting := [] }

/-- The state in which the only descriptor of a gather has gone into slot `k` of port `u`, which the device claims. -/
def gatherQueued (s : State) (g : Gather) (d : List Byte) (u k : Nat) : State :=
  { grant s (mkRes 3 u) 2 0xFE with
    ari.slots := mput s.ari.slots k { mget {} s.ari.slots k with desc := d, gather := g.id },
    ari.gathers := [{ g with left := 1 }],
    ari.nextGather := s.ari.nextGather + 1 }

section
variable {s : State} {b : List Byte} {part cls : Nat} {queue : Option (Nat × Nat)} (hnone : s.ari.gathers = [])
include hnone

theorem startGather_refused (hst : descStatus s part b ≠ St.ok) : startGather s part queue cls [b] = (s.ari.nextGather,
    { s with ari.gathers := [{ enteredGather s part queue cls with
               status := BitVec.ofNat 16 (descStatus s part b), failTag := fieldN b 20 4 }],
             ari.nextGather := s.ari.nextGather + 1 }) := by
  simp only [startGather, List.foldl_cons, List.foldl_nil, if_neg hst, if_true, hnone, List.nil_append]
  exact congrArg (Prod.mk _) (fillSlots_of_none_waiting 16 (by simp))

theorem startGather_queued {u k : Nat} (hst : descStatus s part b = St.ok) (hu : tablePort s (parseDesc b) = some u)
    (hk : freeSlot s u = some k) : startGather s part queue cls [b] = (s.ari.nextGather,
      gatherQueued s (enteredGather s part queue cls) (portForm s b) u k) := by
  simp only [startGather, List.foldl_cons, List.foldl_nil, if_pos hst, hu, grant_ari, hnone, List.nil_append]
  refine congrArg (Prod.mk _) ((fillSlots_of_one_waiting 15 rfl rfl ((freeSlot_of_same ?_ ?_ u).trans hk)).trans ?_)
  · simp
  · simp
  · simp [enteredGather, gatherQueued]

end

section
variable {c : Cmd} {s a : State}

section
variable {b : List Byte} (h : Begun { op := 0x0404, need := 64, ext := true } c s a)
include h

theorem resGather_badLength (hd : splitDescs 16 (body c) = none) :
    exec (.resGather c) s = .next (complete a c St.invalidLength []) :=
  ends_of rfl h (by simp only [hd])

section
variable (hd : splitDescs 16 (body c) = some [b]) (hnone : a.ari.gathers = [])
include hd hnone

theorem resGather_refused {st : Nat} (hst : st = descStatus a ((cmdPart c).getD 0xFF) b) (hne : st ≠ St.ok) (hlt : st < 65536) :
    ∃ t, exec (.resGather c) s = .next (complete t c st (leBytes 2 0 ++ leBytes 2 0 ++ leBytes 4 (fieldN b 20 4))) ∧
      t.ari.slots = a.ari.slots ∧ t.ink.claims = a.ink.claims := by
  subst hst
  have hcode : (BitVec.ofNat 16 (descStatus a ((cmdPart c).getD 0xFF) b)).toNat = descStatus a ((cmdPart c).getD 0xFF) b := by
    rw [BitVec.toNat_ofNat, Nat.mod_eq_of_lt hlt]
  refine ⟨{ a with ari.gathers := [], ari.nextGather := a.ari.nextGather + 1 }, ends_of rfl h ?_, rfl, rfl⟩
  simp [hd, startGather_refused hnone hne, enteredGather, gatherResult, hcode]

theorem resGather_waits {u k : Nat} (hst : descStatus a ((cmdPart c).getD 0xFF) b = St.ok) (hu : tablePort a (parseDesc b) = some u)
    (hk : freeSlot a u = some k) :
    ∃ t, Waits (.resGather c) 0x0404 c s t (.gather a.ari.nextGather) ∧
      mget {} t.ari.slots k = { mget {} a.ari.slots k with desc := portForm a b, gather := a.ari.nextGather } ∧
      holds t (mkRes 3 u) 2 0xFE = true ∧ t.mem = a.mem := by
  refine ⟨gatherQueued a (enteredGather a ((cmdPart c).getD 0xFF) none 1) (portForm a b) u k, waits_of rfl h ?_, mget_mput ..,
    holds_grant a (mkRes 3 u) 2 0xFE, grant_mem a (mkRes 3 u) 2 0xFE⟩
  simp [hd, startGather_queued hnone hst hu hk, gatherQueued, enteredGather]

end
end

/-! ### RES_STATUS (R184, R185) -/

section
variable (h : Begun { op := 0x0405, need := 16 } c s a) (hp : p8 c 0 ≤ 15)
include h hp

theorem resStatus_completes (hk : (unitOf a .cap (p8 c 0)).kind = 1) (hr : (unitOf a .cap (p8 c 0)).refused = false)
    (hw : hostOk a (p64 c 8) 32 = true) :
    Completes (.resStatus c) c s (hostStore a (p64 c 8)
      (padTo 8 [BitVec.ofNat 8 ((List.range 24).filter (fun i => (mget {} a.ari.slots (p8 c 0 * 24 + i)).gather != 0)).length] ++
        leBytes 8 (mget 0 a.ari.resDone (p8 c 0)) ++ leBytes 8 (mget 0 a.ari.resBytes (p8 c 0)) ++
        leBytes 8 (mget 0 a.ari.resFailed (p8 c 0)))) [] :=
  completes_of rfl h ((checked_tail (by simpa using hp)).trans ((checked_tail (by simp [hk, hr])).trans
    (reportTo_ok (by simpa using hw))))

theorem resStatus_noReservoir (hk : (unitOf a .cap (p8 c 0)).kind ≠ 1) :
    exec (.resStatus c) s = .next (complete a c St.noReservoir []) :=
  ends_of rfl h ((checked_tail (by simpa using hp)).trans (checked_head (by simp [hk])))

end
end

/-! ### RESERVOIR_DOORBELL (R131, R155, R179) -/

section
variable {s : State} {port ch sl : Nat} {x : Slot} (hx : x = mget {} s.ari.slots (slotKey port ch sl))
include hx

theorem reservoirDoorbell_starts {g : Gather} (hg : x.gather ≠ 0) (hs : x.state = 0)
    (hf : s.ari.gathers.find? (fun g => g.id == x.gather) = some g) (hc : (chanOf s .cap (8 * port + ch)).retraining = false)
    (hh : gatherHeld s g = false) :
    exec (.reservoirDoorbell port ch sl) s =
      .next { s with ari.slots := mput s.ari.slots (slotKey port ch sl) { x with state := 1 } } := by
  refine congrArg Host.Outcome.next ?_
  simp only [← hx, hf]
  exact if_neg (by simp [hg, hs, hc, hh])

theorem reservoirDoorbell_ignored (h : x.gather = 0 ∨ x.state ≠ 0) : exec (.reservoirDoorbell port ch sl) s = .next s := by
  refine congrArg Host.Outcome.next ?_
  simp only [← hx]
  split
  case h_1 => rfl
  case h_2 => exact if_pos (h.imp_right .inl)

/-! ### RESERVOIR_SLOT_DONE (R179, R182) -/

theorem reservoirSlotDone_ends {u v : State} {y : Slot} {g : Gather} (hs : x.state = 1) (hr : slotRun s port x = (y, v))
    (hf : s.ari.gathers.find? (fun g => g.id == x.gather) = some g)
    (hu : u = { v with ari.slots := mput v.ari.slots (slotKey port ch sl) y }) :
    exec (.reservoirSlotDone port ch sl) s =
      .next (if collectHeld u port (slotKey port ch sl) g y then u else slotCollect u port (slotKey port ch sl) y g) := by
  have hbusy : ¬ x.state = 0 := by simp [hs]
  subst hu
  refine congrArg Host.Outcome.next ?_
  simp only [← hx, if_neg hbusy, if_pos hs, hr, hf]

end

theorem reservoirSlotDone_free {s : State} {port ch sl : Nat} (h : (mget {} s.ari.slots (slotKey port ch sl)).state = 0) :
    exec (.reservoirSlotDone port ch sl) s = .next s :=
  congrArg Host.Outcome.next (if_pos h)

section
variable {s : State} {port : Nat} {x : Slot} (ht : tripped s .cap port = false)
include ht

theorem slotRun_outOfBounds (hi : (parseDesc x.desc).index.any (fun i => decide (i ≥ (parseDesc x.desc).rows)) = true) :
    slotRun s port x =
      ({ x with state := 3, status := BitVec.ofNat 16 St.resBounds, outBytes := 0, inBytes := 0, result := [], poison := false }, s) :=
  (if_neg (ne_true_of_eq_false ht)).trans (if_pos hi)

theorem slotRun_gathers {out : List Byte} {poison : Bool}
    (hi : (parseDesc x.desc).index.any (fun i => decide (i ≥ (parseDesc x.desc).rows)) = false)
    (hg : gatherRows s port (parseDesc x.desc) = (out, poison)) :
    ∃ y v, slotRun s port x = (y, v) ∧ y.state = 2 ∧ y.status = 0 ∧ y.outBytes = out.length ∧ y.result.take out.length = out ∧
      y.poison = poison ∧ y.inBytes = (parseDesc x.desc).n * (parseDesc x.desc).size * 64 ∧ v = { s with free := v.free } := by
  have hrun : slotRun s port x =
      ({ x with state := 2, status := 0, outBytes := out.length, inBytes := (parseDesc x.desc).n * (parseDesc x.desc).size * 64,
                result := out ++ (freeBytes s ((64 - out.length % 64) % 64)).1, poison := poison },
        (freeBytes s ((64 - out.length % 64) % 64)).2) := by
    refine (if_neg (ne_true_of_eq_false ht)).trans ((if_neg (ne_true_of_eq_false hi)).trans ?_)
    simp only [hg]
  exact ⟨_, _, hrun, rfl, rfl, rfl, List.take_left' rfl, rfl, rfl, rfl⟩

end

/-! ### The result of a slot (R182, R184) -/

/-- A gather of which one more descriptor has ended, with status `st`. -/
def afterDescriptor (g : Gather) (x : Slot) (st : Nat) : Gather :=
  { g with left := g.left - 1, done := g.done + b2n (st == St.ok), status := if g.status = 0 then BitVec.ofNat 16 st else g.status,
           failTag := if g.status = 0 ∧ st ≠ St.ok then (parseDesc x.desc).tag else g.failTag }

/-- The state in which a slot is free again and its run counted, with status `st`. -/
def slotFreed (s : State) (st port k : Nat) (x : Slot) (g : Gather) : State :=
  { s with
    ari.slots := mput s.ari.slots k { x with state := 0, gather := 0 }
    ari.gathers := s.ari.gathers.map (fun y => if y.id = g.id then afterDescriptor g x st else y)
    ari.resDone := mput s.ari.resDone port (mget 0 s.ari.resDone port + b2n (st == St.ok))
    ari.resFailed := mput s.ari.resFailed port (mget 0 s.ari.resFailed port + b2n (st != St.ok))
    ari.resBytes := mput s.ari.resBytes port (mget 0 s.ari.resBytes port + x.inBytes) }

/-- The next descriptors go into the slots, and an idle port's implicit claim ends. -/
def slotRefilled (s : State) (st port k : Nat) (x : Slot) (g : Gather) : State :=
  let t := fillSlots 16 (bumpO (slotFreed s st port k x g) (rqPart (resRq g.part)) 16 x.inBytes)
  if portIdle t port then implicitRelease t (mkRes 3 port) 2 else t

/-- The state after the regulator's charge for a run's reads. -/
def runCharged (s : State) (x : Slot) (g : Gather) : State :=
  match regKey (resRq g.part) .cap with
  | some r => chargeReg s r (x.inBytes / 2)
  | none => s

@[simp] theorem runCharged_ari (s : State) (x : Slot) (g : Gather) : (runCharged s x g).ari = s.ari := by
  unfold runCharged
  split
  · exact chargeReg_ari ..
  · rfl

@[simp] theorem gatherWrite_pastAccumulators (s : State) (port : Nat) (g : Gather) (x : Slot) :
    pastAccumulators (gatherWrite s port g x).2.ari = pastAccumulators s.ari := by
  unfold gatherWrite
  dsimp only
  repeat' split
  all_goals simp

section
variable {s w : State} {port k st : Nat} {x : Slot} {g : Gather}

theorem slotCollect_of_done (hx : x.state = 2) (hw : gatherWrite (runCharged s x g) port g x = (st, w)) :
    slotCollect s port k x g =
      gatherEnd (slotRefilled w (if st = St.ok ∧ x.poison then St.poisoned else st) port k x g) g.id := by
  have hdone : ¬ x.state = 3 := by simp [hx]
  have hcollect : slotCollect s port k x g = gatherEnd (slotRefilled (gatherWrite (runCharged s x g) port g x).2
      (if (gatherWrite (runCharged s x g) port g x).1 = St.ok ∧ x.poison then St.poisoned
        else (gatherWrite (runCharged s x g) port g x).1) port k x g) g.id := by
    simp only [slotCollect, if_neg hdone]
    rfl
  rw [hcollect, hw]

theorem slotCollect_of_error (hx : x.state = 3) :
    slotCollect s port k x g = gatherEnd (slotRefilled s x.status.toNat port k x g) g.id := by
  simp only [slotCollect, if_pos hx]
  rfl

section
variable (hg : s.ari.gathers = [g])
include hg

theorem slotFreed_gathers : (slotFreed s st port k x g).ari.gathers = [afterDescriptor g x st] := by
  simp [slotFreed, hg]

section
variable (hw : g.waiting = [])
include hw

/-- With nothing waiting, a slot that is free stays free. -/
theorem slotRefilled_keeps : (slotRefilled s st port k x g).mem = s.mem ∧
    (slotRefilled s st port k x g).ari = (slotFreed s st port k x g).ari := by
  have hfill : fillSlots 16 (bumpO (slotFreed s st port k x g) (rqPart (resRq g.part)) 16 x.inBytes) =
      bumpO (slotFreed s st port k x g) (rqPart (resRq g.part)) 16 x.inBytes :=
    fillSlots_of_none_waiting 16 (by simpa [slotFreed_gathers hg, afterDescriptor] using hw)
  unfold slotRefilled
  rw [hfill]
  dsimp only
  split <;> simp [slotFreed]

/-- A gather that lacks another descriptor goes on. -/
theorem gatherEnd_open (hl : g.left = 2) : gatherEnd (slotRefilled s st port k x g) g.id = slotRefilled s st port k x g := by
  obtain ⟨-, hari⟩ := slotRefilled_keeps (st := st) (port := port) (k := k) (x := x) hg hw
  have hfind : (slotRefilled s st port k x g).ari.gathers.find? (fun y => y.id == g.id) = some (afterDescriptor g x st) := by
    rw [hari, slotFreed_gathers hg]
    simp [afterDescriptor]
  simp [gatherEnd, hfind, afterDescriptor, hl]

end
end

theorem slotCollect_writes (hx : x.state = 2) (hg : s.ari.gathers = [g]) (hwait : g.waiting = []) (hl : g.left = 2)
    (hw : gatherWrite (runCharged s x g) port g x = (st, w)) :
    (slotCollect s port k x g).mem = w.mem ∧ mget {} (slotCollect s port k x g).ari.slots k = { x with state := 0, gather := 0 } ∧
      mget 0 (slotCollect s port k x g).ari.resBytes port = mget 0 w.ari.resBytes port + x.inBytes := by
  have hkept := gatherWrite_pastAccumulators (runCharged s x g) port g x
  rw [hw, runCharged_ari] at hkept
  have hgw : w.ari.gathers = [g] := (congrArg Arith.gathers hkept).trans hg
  obtain ⟨hmem, hari⟩ := slotRefilled_keeps (st := if st = St.ok ∧ x.poison then St.poisoned else st) (port := port) (k := k) (x := x)
    hgw hwait
  rw [slotCollect_of_done hx hw, gatherEnd_open hgw hwait hl, hmem, hari]
  exact ⟨rfl, mget_mput .., mget_mput ..⟩

theorem slotCollect_fails (hx : x.state = 3) (hg : s.ari.gathers = [g]) (hwait : g.waiting = []) (hl : g.left = 2)
    (hst : x.status ≠ 0) :
    ∃ t, slotCollect s port k x g = t ∧ t.mem = s.mem ∧ mget {} t.ari.slots k = { x with state := 0, gather := 0 } ∧
      mget 0 t.ari.resFailed port = mget 0 s.ari.resFailed port + 1 ∧
      t.ari.gathers = [{ g with left := 1, status := (if g.status = 0 then x.status else g.status),
                                failTag := (if g.status = 0 then (parseDesc x.desc).tag else g.failTag) }] := by
  have hne : x.status.toNat ≠ St.ok := fun h => hst (BitVec.eq_of_toNat_eq h)
  obtain ⟨hmem, hari⟩ := slotRefilled_keeps (st := x.status.toNat) (port := port) (k := k) (x := x) hg hwait
  refine ⟨_, rfl, ?_⟩
  rw [slotCollect_of_error hx, gatherEnd_open hg hwait hl, hmem, hari, slotFreed_gathers hg]
  refine ⟨rfl, mget_mput .., ?failed, ?gathers⟩
  case failed => simp [slotFreed, hne, b2n]
  case gathers => simp [afterDescriptor, hl, hne, b2n]

end

/-- Settles O37: each command by its checks, each event by its slot's state, and a result by what the write of it leaves alone. -/
theorem reservoirRows : Obligations.ReservoirRows :=
  ⟨fun _ _ _ _ _ h hd hst hne hlt hnone => resGather_refused h hd hnone hst hne hlt,
   fun _ _ _ _ _ _ h hd hst hu hk hnone => resGather_waits h hd hnone hst hu hk,
   fun _ _ _ => resGather_badLength,
   fun _ _ _ => resStatus_completes,
   fun _ _ _ => resStatus_noReservoir,
   fun _ _ _ _ _ _ hx hg hs hf hc hh => reservoirDoorbell_starts hx hg hs hf hc hh,
   fun _ _ _ _ _ => reservoirDoorbell_ignored,
   fun _ _ _ => slotRun_outOfBounds,
   fun _ _ _ _ _ ht hi hg => slotRun_gathers ht hi hg,
   fun _ _ _ _ _ _ _ _ _ hx hs hr hf hu => reservoirSlotDone_ends hx hs hr hf hu,
   fun _ _ _ _ _ _ _ => slotCollect_writes,
   fun _ _ _ _ _ => slotCollect_fails,
   fun _ _ _ _ => reservoirSlotDone_free⟩

end Sys2Proof.Machine
end

section
/-! PROOFS. Basis tables and folded layouts (R194 to R197): what the row of each command answers once it has begun, case by case of its
checks; then O38. -/

namespace Sys2Proof.Machine

/-! ### Claims, region entries and generations of a layout (R87, R102, R197) -/

theorem holds_implicitRelease (s : State) (res mode : Nat) : holds (implicitRelease s res mode) res mode 0xFE = false := by
  simp [holds, implicitRelease, ungrant]

@[simp] theorem setEntry_nextGen (s : State) (t : Tier) (r e : Nat) : (setEntry s t r e).mem.nextGen = s.mem.nextGen := by
  cases t <;> rfl

@[simp] theorem setEntry_folded (s : State) (t : Tier) (r e : Nat) : (setEntry s t r e).mem.folded = s.mem.folded := by
  cases t <;> rfl

theorem claimAll_singleton {s : State} {mode r : Nat} (h : conflict? s r mode 0xFE = none) :
    claimAll mode [r] s = .inl (grant s r mode 0xFE) := by
  simp only [claimAll, h]

/-! ### FOLD_BASIS_LOAD (R194, R195) -/

/-- A read that succeeds and meets no poison, put together from its parts. -/
theorem clean_read {x : Nat × List Byte × Bool × State} {b : List Byte} (hst : x.1 = St.ok) (hb : b = x.2.1) (hp : x.2.2.1 = false) :
    x = (St.ok, b, false, x.2.2.2) :=
  Prod.ext hst (Prod.ext hb.symm (Prod.ext hp rfl))

section
variable {c : Cmd} {s a : State}

section
variable (h : Begun { op := 0x0501, need := 10, vf := false } c s a) (hd : isDpa (p64 c 0) = true)
include h hd

theorem foldBasisLoad_misplaced (hp : basisPlaced a (p64 c 0) 64 = false) :
    exec (.foldBasisLoad c) s = .next (complete a c St.foldPlacement []) :=
  ends_of rfl h ((if_neg (by simp [hd])).trans (if_pos (by simp [hp])))

theorem foldBasisLoad_completes {head table : List Byte} {u v : State} (hp : basisPlaced a (p64 c 0) 64 = true)
    (hhead : readBytes a .admin (p64 c 0) 64 1 = (St.ok, head, false, u)) (hmin : 64 ≤ fieldN head 8 4) (hmax : fieldN head 8 4 ≤ 8256)
    (hwhole : basisPlaced u (p64 c 0) (fieldN head 8 4) = true)
    (htable : readBytes u .admin (p64 c 0) (fieldN head 8 4) 1 = (St.ok, table, false, v)) (hok : basisOk table (p16 c 8) = true)
    (hfree : mfind v.fold.basis (p16 c 8) = none) :
    Completes (.foldBasisLoad c) c s { v with
      fold.basis := mput v.fold.basis (p16 c 8) ⟨p64 c 0, fieldN table 1 1, fieldN table 2 1, fieldN table 4 2⟩ } [] := by
  have hlen : ¬ (fieldN head 8 4 < 64 ∨ fieldN head 8 4 > 64 + 2 * 128 * 32) := by omega
  refine completes_of rfl h ?_
  simp only [hd, hp, hhead, hlen, hwhole, htable, hok, hfree]
  rfl

end

/-! ### FOLD_BASIS_UNLOAD and FOLD_BASIS_QUERY (R195, R196) -/

/-- The state in which table `id` has left the directory and the caches of the expanders. -/
def basisUnloaded (s : State) (id : Nat) : State :=
  { s with
    fold.basis := mdel s.fold.basis id
    fold.exps := s.fold.exps.map (fun e => (e.1, { e.2 with cache := e.2.cache.filter (fun t => t.1 != id) })) }

/-- A table that leaves the directory stays in use by the lanes that wait for it. -/
theorem basisBusy_basisUnloaded (s : State) (id : Nat) : basisBusy (basisUnloaded s id) id = basisBusy s id :=
  List.any_map

section
variable (h : Begun { op := 0x0502, need := 2, vf := false } c s a) {b : Basis} (hb : mfind a.fold.basis (p16 c 0) = some b)
include h hb

theorem foldBasisUnload_completes (hfree : basisBusy a (p16 c 0) = false) :
    Completes (.foldBasisUnload c) c s (basisUnloaded a (p16 c 0)) [] :=
  completes_of rfl h ((if_neg (by simp [hb])).trans (if_neg (ne_true_of_eq_false ((basisBusy_basisUnloaded a (p16 c 0)).trans hfree))))

theorem foldBasisUnload_waits (hbusy : basisBusy a (p16 c 0) = true) :
    Waits (.foldBasisUnload c) 0x0502 c s (basisUnloaded a (p16 c 0)) (.basis (p16 c 0)) :=
  waits_of rfl h ((if_neg (by simp [hb])).trans (if_pos ((basisBusy_basisUnloaded a (p16 c 0)).trans hbusy)))

end

section
variable (h : Begun { op := 0x0503, need := 2, vf := false } c s a)
include h

theorem foldBasisQuery_completes {b : Basis} (hb : mfind a.fold.basis (p16 c 0) = some b) :
    Completes (.foldBasisQuery c) c s a (leBytes 8 b.dpa ++ [BitVec.ofNat 8 b.fmt, BitVec.ofNat 8 b.rank] ++ leBytes 2 b.cols) :=
  completes_of rfl h (by simp only [hb])

theorem foldBasisQuery_absent (hb : mfind a.fold.basis (p16 c 0) = none) :
    exec (.foldBasisQuery c) s = .next (complete a c St.basisAbsent []) :=
  ends_of rfl h (by simp only [hb])

end

/-! ### FOLD_LAYOUT_LOAD and FOLD_LAYOUT_UNLOAD (R197) -/

/-- A run of one region is that region. -/
theorem runOf_one (hn : p16 c 4 = 1) : runOf c = [p16 c 2] := by simp [runOf, hn]

theorem runBad_one (ht : p8 c 0 ≤ 1) (hn : p16 c 4 = 1) (hr : p16 c 2 < regionCount (tierOf (p8 c 0))) : runBad c = false := by
  have hin : ¬ (p16 c 2 + 1 > regionCount (tierOf (p8 c 0))) := by omega
  simp [runBad, hn, ht, hin]

theorem ratioGranules_ne_zero {ratio : Nat} (hmin : 1 ≤ ratio) (hmax : ratio ≤ 5) : ratioGranules ratio ≠ 0 := by
  have hcode : ratio = 1 ∨ ratio = 2 ∨ ratio = 3 ∨ ratio = 4 ∨ ratio = 5 := by omega
  rcases hcode with rfl | rfl | rfl | rfl | rfl <;> decide

section
variable (h : Begun { op := 0x0504, need := 8, vf := false } c s a)
include h

theorem foldLayoutLoad_withoutSummary (hratio : 4 ≤ p8 c 6) (hs : p8 c 7 = 0) :
    exec (.foldLayoutLoad c) s = .next (complete a c St.invalidField []) :=
  ends_of rfl h (checked_head (by simp [hratio, hs, bit]))

theorem foldLayoutLoad_completes {v : State} {t : Tier} (hp : p8 c 0 ≤ 1) (ht : t = tierOf (p8 c 0)) (hn : p16 c 4 = 1)
    (hr : p16 c 2 < regionCount t) (hmin : 1 ≤ p8 c 6) (hmax : p8 c 6 ≤ 5) (hs : 4 ≤ p8 c 6 → p8 c 7 = 1) (hflags : p8 c 7 ≤ 1)
    (hmode : eMode (regionEntry a t (p16 c 2)) ≠ 0) (hwindow : eWindow (regionEntry a t (p16 c 2)) = false)
    (hfolded : eFolded (regionEntry a t (p16 c 2)) = false) (hclaim : conflict? a (regionRes t (p16 c 2)) 1 0xFE = none)
    (hv : v = flushRegion (grant a (regionRes t (p16 c 2)) 1 0xFE) t (p16 c 2)) :
    Completes (.foldLayoutLoad c) c s (spoil { setEntry v t (p16 c 2) (withBit (regionEntry v t (p16 c 2)) 3 true) with
      mem.folded := mput v.mem.folded (foldKey t (p16 c 2)) { ratio := p8 c 6, summary := bit (p8 c 7) 0 } } t (p16 c 2)) [] := by
  subst ht hv
  have hsummary : (decide (p8 c 6 ≥ 4) && !bit (p8 c 7) 0) = false := by
    by_cases hcode : 4 ≤ p8 c 6
    case pos => simp [hs hcode, bit]
    case neg => simp [hcode]
  have hfields : (runBad c || ratioGranules (p8 c 6) == 0 || (decide (p8 c 6 ≥ 4) && !bit (p8 c 7) 0) ||
      decide (p8 c 7 > 1)) = false := by
    simp [runBad_one hp hn hr, ratioGranules_ne_zero hmin hmax, hsummary, hflags]
  refine completes_of rfl h ((checked_tail hfields).trans ((checked_tail ?placement).trans ?_))
  case placement => simp [runOf_one hn, hmode, hwindow, hfolded]
  rw [checked_nil]
  simp only [runOf_one hn, List.map_cons, List.map_nil, claimAll_singleton hclaim, List.foldl_cons, List.foldl_nil, setEntry_folded]

end

theorem foldLayoutUnload_completes {v : State} {t : Tier} (h : Begun { op := 0x0505, need := 6, vf := false } c s a) (hp : p8 c 0 ≤ 1)
    (ht : t = tierOf (p8 c 0)) (hn : p16 c 4 = 1) (hr : p16 c 2 < regionCount t) (hfolded : eFolded (regionEntry a t (p16 c 2)) = true)
    (hv : v = flushRegion a t (p16 c 2)) :
    ∃ w, exec (.foldLayoutUnload c) s = .next (complete w c St.ok []) ∧ mfind w.mem.folded (foldKey t (p16 c 2)) = none ∧
      holds w (regionRes t (p16 c 2)) 1 0xFE = false ∧ mget 0 w.mem.gens (tierNum t * 4096 + p16 c 2) = v.mem.nextGen := by
  subst ht
  refine ⟨_, ends_of rfl h ((checked_tail (runBad_one hp hn hr)).trans (checked_tail ?placement)), ?folded, ?claim, ?generation⟩
  case placement => simp [runOf_one hn, hfolded]
  all_goals rw [runOf_one hn, List.foldl_cons, List.foldl_nil, ← hv]
  case folded => exact mfind_mdel ..
  case claim => exact holds_implicitRelease ..
  case generation => exact (mget_mput ..).trans (setEntry_nextGen ..)

end

/-- Settles O38: each clause is its row's answer in the case of its checks. -/
theorem foldTableRows : Obligations.FoldTableRows := by
  refine ⟨?load, fun _ _ _ => foldBasisLoad_misplaced, fun _ _ _ _ h => foldBasisUnload_completes h,
    fun _ _ _ _ h => foldBasisUnload_waits h, fun _ _ _ _ h => foldBasisQuery_completes h, fun _ _ _ => foldBasisQuery_absent,
    fun _ _ _ _ _ h => foldLayoutLoad_completes h, fun _ _ _ => foldLayoutLoad_withoutSummary,
    fun _ _ _ _ _ => foldLayoutUnload_completes⟩
  case load =>
    intro c s a head table h hd hp hst hhead hclean hmin hmax hwhole hst' htable hclean' hok hfree
    exact ⟨_, foldBasisLoad_completes h hd hp (clean_read hst hhead hclean) hmin hmax hwhole (clean_read hst' htable hclean') hok hfree,
      mfind_mput ..⟩

end Sys2Proof.Machine
end

section
/-! PROOFS. Folded tiles and their expansion (R187, R193, R201 to R208): the length of a tile and what the checks of a block ask; how a
request's blocks are queued, what a lane does with one, and how its outcome is delivered; what FOLD_VERIFY, FOLD_FAULT_READ and
FOLD_COUNTERS report; then O39. -/

namespace Sys2Proof.Machine

/-! ### The tile of a block (R187, R190, R193) -/

theorem length_flatten_of_all {α β : Type} {f : α → List β} {n : Nat} (l : List α) (h : ∀ x, (f x).length = n) :
    ((l.map f).flatten).length = l.length * n := by
  have hlen : List.length ∘ f = fun _ => n := funext h
  rw [List.length_flatten, List.map_map, hlen, List.map_const', List.sum_replicate_nat]

theorem outRow_bytes {out : Nat} (h : out < 4) : outCols out * ((outFormat out).width / 8) = 128 := by
  have hcode : out = 0 ∨ out = 1 ∨ out = 2 ∨ out = 3 := by omega
  rcases hcode with rfl | rfl | rfl | rfl <;> rfl

theorem parseHeader_out_lt (b : List Byte) : (parseHeader b).out < 4 := Nat.mod_lt _ (by decide)

theorem expandRow_length {h : Header} (ho : h.out < 4) (t : List Byte) (rmax : Nat) (cs : List Nat) :
    (expandRow h t rmax cs).length = 128 := by
  refine (length_flatten_of_all _ fun _ => leBytes_length ..).trans ?_
  rw [List.length_range, outRow_bytes ho]

/-- A tile is 32 rows of 128 bytes, whether its groups hold coefficients or are zero. -/
theorem expandBlock_length (b t : List Byte) : (expandBlock b t).length = 4096 := by
  unfold expandBlock
  refine (length_flatten_of_all (n := 128) (List.range 32) fun i => ?_).trans rfl
  split
  · exact expandRow_length (parseHeader_out_lt b) ..
  · simp [zeros]

/-! ### The checks of a slot and of a block (R201, R207) -/

theorem slotStatus_notFolded {s : State} {r : Requester} {d : Nat} (hd : isDpa d = true) (h : d % 4096 ≠ 0 ∨ foldInfo s d = none) :
    slotStatus s r d = St.notFolded :=
  (if_neg (by simp [hd])).trans (if_pos (h.imp_right (by simp [·])))

/-- Checks in order find nothing when each finds nothing. -/
theorem check_passes_iff {α : Type} {p : Prop} [Decidable p] {e : α} {rest : Option α} :
    (if p then some e else rest) = none ↔ ¬p ∧ rest = none := by
  by_cases h : p <;> simp [h]

section
variable {s : State} {ratio : Nat} {b : List Byte} {l : List Bool} (h : blockFails s ratio b l = none)
include h

/-- A block that passes the eight checks has what each of them asks. -/
theorem blockFails_none :
    1 ≤ (parseHeader b).len ∧ (parseHeader b).len ≤ ratioGranules ratio ∧ blockCrc b (parseHeader b).len = (parseHeader b).crc ∧
    (parseHeader b).ratio = ratio ∧ (parseHeader b).reserved = false ∧ (parseHeader b).coef ≠ 3 ∧ 1 ≤ (parseHeader b).rank ∧
    (parseHeader b).rank ≤ 32 ∧
    (∃ v, mfind s.fold.basis (parseHeader b).basis = some v ∧ v.fmt = (parseHeader b).out ∧ (parseHeader b).rank ≤ v.rank) ∧
    (parseHeader b).len = impliedLen (parseHeader b).coef (parseHeader b).rank (parseHeader b).mask ∧
    (l.take (parseHeader b).len).any id = false := by
  simp only [blockFails, check_passes_iff, not_or, Bool.not_eq_true, Nat.not_lt, ne_eq, Decidable.not_not, Bool.or_eq_false_iff] at h
  obtain ⟨⟨-, hpoison⟩, ⟨hne, hmax⟩, hcrc, hratio, ⟨hcoef, hrank, hrank32, hreserved⟩, htable⟩ := h
  have hone : 1 ≤ (parseHeader b).len := Nat.one_le_iff_ne_zero.2 hne
  have hclean : (l.take (parseHeader b).len).any id = false := by simpa [hone] using hpoison
  split at htable
  case h_1 => cases htable
  case h_2 v hv =>
    simp only [check_passes_iff, not_or, Decidable.not_not, Nat.not_lt] at htable
    obtain ⟨⟨hfmt, hwide⟩, himplied, -⟩ := htable
    exact ⟨hone, hmax, hcrc, hratio, hreserved, hcoef, Nat.one_le_iff_ne_zero.2 hrank, hrank32, ⟨v, hv, hfmt, hwide⟩, himplied,
      hclean⟩

end

/-! ### What a change of an expander leaves alone -/

section
variable (s : State) (x : Nat) (e : Expander)

@[simp] theorem expOf_setExp : expOf (setExp s x e) x = e := mget_mput ..

theorem foldInfo_setExp (dpa : Nat) : foldInfo (setExp s x e) dpa = foldInfo s dpa := rfl

theorem slotTripped_setExp (dpa n : Nat) : slotTripped (setExp s x e) dpa n = slotTripped s dpa n := by
  simp only [slotTripped, dpaTripped, locate_of_mem (v := setExp s x e) (s := s) rfl]
  rfl

end

/-! ### FOLD_EXPAND (R201, R204) -/

theorem checked_of_none {l : List (Bool × Nat)} {s : State} {r : Answer} (h : firstFail l = none) : checked l s r = r := by
  simp only [checked, h]

theorem checked_of_some {l : List (Bool × Nat)} {s : State} {r : Answer} {st : Nat} (h : firstFail l = some st) :
    checked l s r = .done st [] s := by
  simp only [checked, h]

section
variable {c : Cmd} {s a : State}

section
variable (h : Begun { op := 0x0506, need := 21 } c s a)
include h

theorem foldExpand_waits (hf : firstFail (expandChecks a (cmdRq c) (p64 c 0) (p64 c 8) (p32 c 16) (p8 c 20)) = none) :
    Waits (.foldExpand c) 0x0506 c s (startExpand a (cmdRq c) (p64 c 0) (p32 c 16) (.memory (p64 c 8)) (p8 c 20) none).2
      (.expand a.fold.nextReq) :=
  waits_of rfl h (checked_of_none hf)

theorem foldExpand_refused {st : Nat}
    (hf : firstFail (expandChecks a (cmdRq c) (p64 c 0) (p64 c 8) (p32 c 16) (p8 c 20)) = some st) :
    exec (.foldExpand c) s = .next (complete a c st []) :=
  ends_of rfl h (checked_of_some hf)

end
end

/-- The only block of a request enters the queue of its channel's expander while that has room. -/
theorem enqueueBlocks_one {s : State} {id d cls e : Nat} {p : Place} (hl : locate s d = some (p, e))
    (hroom : (expOf s (expanderOf s p.tier p.chan)).queue.length < 48) :
    enqueueBlocks s id d 1 cls = setExp s (expanderOf s p.tier p.chan) { expOf s (expanderOf s p.tier p.chan) with
      queue := (expOf s (expanderOf s p.tier p.chan)).queue ++ [{ req := id, dpa := d, index := 0 }] } := by
  simp only [enqueueBlocks, List.range_one, List.foldl_cons, List.foldl_nil, Nat.mul_zero, Nat.add_zero, hl, if_pos hroom]

theorem startExpand_one {s : State} {r : Requester} {d cls e x : Nat} {dest : ExpandDest} {q : Option (Nat × Nat)} {p : Place}
    (hl : locate s d = some (p, e)) (hx : x = expanderOf s p.tier p.chan) (hroom : (expOf s x).queue.length < 48) :
    ∃ t, startExpand s r d 1 dest cls q = (s.fold.nextReq, t) ∧
      expOf t x = { expOf s x with queue := (expOf s x).queue ++ [{ req := s.fold.nextReq, dpa := d, index := 0 }] } ∧
      mfind t.fold.reqs s.fold.nextReq =
        some { req := r, dest := dest, cls := cls, left := 1, delivered := 0, status := 0, statusAt := 0, queue := q } := by
  subst hx
  refine ⟨_, congrArg (Prod.mk _) (enqueueBlocks_one ((locate_of_mem rfl d).trans hl) hroom), expOf_setExp .., mfind_mput ..⟩

/-! ### A block at its lane (R204, R205, R207, R208) -/

section
variable {s : State} {x : Nat}

theorem blockExpand_takes {b : Block} (hlane : (expOf s x).filling.length < 32)
    (hq : (expOf s x).queue.find? (fun b => !blockHeld s b) = some b) :
    exec (.blockExpand x) s =
      .next (admitBlocks x 48 (expandOne (setExp s x { expOf s x with queue := (expOf s x).queue.erase b }) x b)) := by
  refine congrArg Host.Outcome.next ((if_neg (Nat.not_le.2 hlane)).trans ?_)
  simp only [hq]

theorem blockExpand_idle (h : 32 ≤ (expOf s x).filling.length ∨ (expOf s x).queue.all (blockHeld s) = true) :
    exec (.blockExpand x) s = .next s := by
  refine congrArg Host.Outcome.next ?_
  by_cases hfull : 32 ≤ (expOf s x).filling.length
  case pos => exact if_pos hfull
  case neg =>
    have hnone : (expOf s x).queue.find? (fun b => !blockHeld s b) = none :=
      List.find?_eq_none.2 fun b hb => by simp [List.all_eq_true.1 (h.resolve_left hfull) b hb]
    refine (if_neg hfull).trans ?_
    simp only [hnone]

section
variable {b : Block} {r : ExpandReq} {f : FoldInfo} (hr : mfind s.fold.reqs b.req = some r) (hf : foldInfo s b.dpa = some f)
include hr hf

theorem expandOne_tripped (ht : slotTripped s b.dpa (ratioGranules f.ratio) = true) :
    expandOne s x b = blockDone s x b St.thermalAbort [] := by
  simp only [expandOne, hr, hf, ht, if_true]

section
variable {v w : State} {bytes : List Byte} {poison : List Bool} (ht : slotTripped s b.dpa (ratioGranules f.ratio) = false)
  (hread : readSlot (bumpO (charge (watch s r.req 3 b.dpa (64 * ratioGranules f.ratio)) r.req b.dpa (64 * ratioGranules f.ratio) r.cls)
    (rqPart r.req) 14 (64 * ratioGranules f.ratio)) r.req x b.dpa (ratioGranules f.ratio) r.cls = (bytes, poison, v))
  (hw : w = countBlock v x (rqPart r.req) bytes)
include ht hread hw

theorem expandOne_fails {e : Nat × Nat × Nat} (hfail : blockFails w f.ratio bytes poison = some e) :
    expandOne s x b = blockDone (noteFail w x e r.req b.dpa bytes) x b e.1 [] := by
  simp only [expandOne, hr, hf, ht, Bool.false_eq_true, if_false, hread, ← hw, hfail]

section
variable (hpass : blockFails w f.ratio bytes poison = none)
include hpass

theorem expandOne_cached {c : Nat × List Byte} (hc : (expOf w x).cache.find? (fun c => c.1 == (parseHeader bytes).basis) = some c) :
    expandOne s x b =
      blockDone (setExp w x (cacheBasis (expOf w x) (parseHeader bytes).basis c.2)) x b St.ok (expandBlock bytes c.2) := by
  simp only [expandOne, hr, hf, ht, Bool.false_eq_true, if_false, hread, ← hw, hpass, hc]

theorem expandOne_misses {k : Basis} (hc : (expOf w x).cache.find? (fun c => c.1 == (parseHeader bytes).basis) = none)
    (hk : mfind w.fold.basis (parseHeader bytes).basis = some k) :
    expandOne s x b = countMiss (setExp w x { expOf w x with
      filling := (expOf w x).filling ++ [{ basis := (parseHeader bytes).basis, dpa := k.dpa, block := b, bytes := bytes }] }) x
      (rqPart r.req) := by
  simp only [expandOne, hr, hf, ht, Bool.false_eq_true, if_false, hread, ← hw, hpass, hc, hk, Option.elim_some]

end
end
end
end

/-! ### The outcome of a block (R203, R208) -/

/-- A request of which one more block has ended, with status `st`. -/
def afterBlock (r : ExpandReq) (index st : Nat) : ExpandReq :=
  { r with left := r.left - 1, delivered := r.delivered + b2n (st == St.ok),
           status := if st != St.ok && (r.status == 0 || decide (index < r.statusAt)) then BitVec.ofNat 16 st else r.status,
           statusAt := if st != St.ok && (r.status == 0 || decide (index < r.statusAt)) then index else r.statusAt }

section
variable {s w : State} {x st wst : Nat} {b : Block} {r : ExpandReq} {tile : List Byte} (hr : mfind s.fold.reqs b.req = some r)
  (hl : 2 ≤ r.left) (hd : deliver s r x b.index (if st = St.ok then tile else zeros 4096) (st != St.ok) = (wst, w))
include hr hl hd

/-- A request that lacks further blocks stays open. -/
theorem blockDone_open :
    blockDone s x b st tile =
      { w with fold.reqs := mput w.fold.reqs b.req (afterBlock r b.index (if st ≠ St.ok then st else wst)) } := by
  have hopen : r.left - 1 ≠ 0 := by omega
  simp only [blockDone, hr, hd]
  exact if_pos hopen

theorem blockDone_counts :
    ∃ q, blockDone s x b st tile = { w with fold.reqs := mput w.fold.reqs b.req q } ∧ q.left = r.left - 1 ∧
      q.delivered = r.delivered + b2n (decide (st = St.ok ∧ wst = St.ok)) := by
  refine ⟨_, blockDone_open hr hl hd, rfl, ?_⟩
  by_cases hst : st = St.ok <;> simp [afterBlock, hst, Bool.beq_eq_decide_eq]

end

/-! ### BASIS_CACHE_FILL (R196, R205) -/

section
variable {s v : State} {x : Nat} {l : Lane}

theorem basisCacheFill_idle (h : (expOf s x).filling = []) : exec (.basisCacheFill x) s = .next s := by
  refine congrArg Host.Outcome.next ?_
  simp only [h]

theorem basisCacheFill_fills {r : List Lane} (h : (expOf s x).filling = l :: r) :
    exec (.basisCacheFill x) s = .next (fillOne (setExp s x { expOf s x with filling := r }) x l) := by
  refine congrArg Host.Outcome.next ?_
  simp only [h]

section
variable {t : List Byte} (ht : fetchBasis s l.dpa = (some t, v))
include ht

/-- A table that is still loaded where the lane found it is cached. -/
theorem fillOne_caches {b : Basis} (hb : mfind v.fold.basis l.basis = some b) (hd : b.dpa = l.dpa) :
    fillOne s x l = unloadIfFree
      (blockDone (setExp v x (cacheBasis (expOf v x) l.basis t)) x l.block St.ok (expandBlock l.bytes t)) l.basis := by
  simp only [fillOne, ht, hb, hd, beq_self_eq_true, if_true]

theorem fillOne_unloaded (hb : mfind v.fold.basis l.basis = none) :
    fillOne s x l = unloadIfFree (blockDone v x l.block St.ok (expandBlock l.bytes t)) l.basis := by
  simp only [fillOne, ht, hb, Bool.false_eq_true, if_false]

end

theorem fillOne_fails {q : ExpandReq} (ht : fetchBasis s l.dpa = (none, v)) (hq : mfind v.fold.reqs l.block.req = some q) :
    fillOne s x l = unloadIfFree
      (blockDone (foldFault v x 0x06 (parseHeader l.bytes).crc q.req l.block.dpa l.bytes) x l.block St.foldCheck []) l.basis := by
  simp only [fillOne, ht, hq]

end

/-! ### FOLD_VERIFY (R207, R213) -/

theorem unheld_of_free {waits : Bool} {r : Answer} (h : waits = false) : unheld waits r = r := if_neg (ne_true_of_eq_false h)

section
variable {c : Cmd} {s a : State}

section
variable (h : Begun { op := 0x0507, need := 26 } c s a)
include h

theorem foldVerify_none (hn : p32 c 8 = 0) (hw : hostOk a (p64 c 16) 0 = true) :
    Completes (.foldVerify c) c s (hostStore a (p64 c 16) []) (zeros 8) := by
  refine completes_of rfl h ?_
  simp only [hn, List.range_zero, List.foldl_nil, List.take_nil, List.flatten_nil]
  exact (checked_tail rfl).trans ((unheld_of_free rfl).trans (reportTo_ok hw))

theorem foldVerify_one_fails {v : State} {st k : Nat} (hn : p32 c 8 = 1) (hslot : slotStatus a (cmdRq c) (p64 c 0) = St.ok)
    (hheld : verifyHeld a (cmdRq c) (p64 c 0) 1 = false) (hv : verifyOne a (cmdRq c) (p64 c 0) = (st, k, v)) (hfail : st ≠ St.ok)
    (hroom : p16 c 24 = 1) (hw : hostOk v (p64 c 16) 16 = true) :
    Completes (.foldVerify c) c s
      (hostStore v (p64 c 16) (padTo 16 (leBytes 8 (p64 c 0) ++ leBytes 2 st ++ [BitVec.ofNat 8 k]))) (leBytes 4 1 ++ leBytes 4 1) := by
  have hslots : slotsStatus a (cmdRq c) (p64 c 0) 1 = St.ok := by simp [slotsStatus, firstBad, hslot]
  refine completes_of rfl h ?_
  simp only [hn]
  refine (checked_tail (by simp [hslots])).trans ((unheld_of_free hheld).trans ?_)
  simp only [List.range_one, List.foldl_cons, List.foldl_nil, Nat.mul_zero, Nat.add_zero, hv, if_neg hfail, hroom, List.nil_append,
    List.take_succ_cons, List.take_nil, List.flatten_cons, List.flatten_nil, List.append_nil]
  exact reportTo_ok (by rwa [padTo_length])

end

/-! ### FOLD_FAULT_READ and FOLD_COUNTERS (R213, R215) -/

theorem foldFaultRead_completes {l : Log} (h : Begun { op := 0x0508, need := 11, vf := false } c s a) (hd : p8 c 10 ≤ 1)
    (hl : l = mget {} a.fold.logs (p8 c 10))
    (hw : hostOk a (p64 c 0) ((lastN l.unread l.recs).take (min (p16 c 8) l.unread)).flatten.length = true) :
    Completes (.foldFaultRead c) c s
      (hostStore { a with
        fold.logs := mput a.fold.logs (p8 c 10) { l with unread := l.unread - min (p16 c 8) l.unread, overwritten := 0 } } (p64 c 0)
        ((lastN l.unread l.recs).take (min (p16 c 8) l.unread)).flatten)
      (leBytes 2 ((lastN l.unread l.recs).take (min (p16 c 8) l.unread)).length ++ leBytes 4 l.overwritten) := by
  subst hl
  exact completes_of rfl h ((checked_tail (by simp [hd])).trans (reportTo_ok hw))

section
variable (h : Begun { op := 0x0509, need := 16, vf := false } c s a)
include h

theorem foldCounters_completes {b : List Byte} (hn : p8 c 0 + p8 c 1 ≤ 88)
    (hb : b = ((List.range (p8 c 1)).map (fun i => expanderBytes (expOf a (p8 c 0 + i)))).flatten)
    (hw : hostOk a (p64 c 8) b.length = true) : Completes (.foldCounters c) c s (hostStore a (p64 c 8) b) [] := by
  subst hb
  exact completes_of rfl h ((checked_tail (by simp [hn])).trans (reportTo_ok hw))

theorem foldCounters_outOfRange (hn : 88 < p8 c 0 + p8 c 1) :
    exec (.foldCounters c) s = .next (complete a c St.invalidField []) :=
  ends_of rfl h (checked_head (by simp [hn]))

end
end

/-- Settles O39: each command by its checks, a block by what its lane finds, and a table by whether it arrives. -/
theorem expansionRows : Obligations.ExpansionRows := by
  refine ⟨fun _ _ _ => foldExpand_waits, fun _ _ _ _ _ _ _ _ _ => startExpand_one, fun _ _ _ _ h => foldExpand_refused h,
    fun _ _ _ => slotStatus_notFolded, expandBlock_length, fun _ _ _ _ => blockFails_none, ?lane,
    fun _ _ _ _ _ _ _ _ => blockDone_counts, fun _ _ => blockExpand_idle, fun _ _ => basisCacheFill_idle, ?arrives, ?lost,
    fun _ _ _ => foldVerify_none, ?verify, fun _ _ _ _ => foldFaultRead_completes, fun _ _ _ _ h => foldCounters_completes h,
    fun _ _ _ => foldCounters_outOfRange⟩
  case lane =>
    intro s u x n b r f hlane hq hr hf hn hu
    have hru : mfind u.fold.reqs b.req = some r := by rw [hu]; exact hr
    have hfu : foldInfo u b.dpa = some f := by rw [hu, foldInfo_setExp, hf]
    have htu : slotTripped u b.dpa n = slotTripped s b.dpa n := by rw [hu, slotTripped_setExp]
    rw [blockExpand_takes hlane hq, ← hu]
    subst hn
    refine ⟨fun ht => ?tripped, fun v w bytes poison ht hread hw => ⟨fun e hfail => ?fails, fun c hpass hc => ?cached,
      fun k hpass hc hk => ?misses⟩⟩
    case tripped => rw [expandOne_tripped hru hfu (htu.trans ht)]
    case fails => rw [expandOne_fails hru hfu (htu.trans ht) hread hw hfail]
    case cached => rw [expandOne_cached hru hfu (htu.trans ht) hread hw hpass hc]
    case misses => rw [expandOne_misses hru hfu (htu.trans ht) hread hw hpass hc hk]
  case arrives =>
    intro s v x l r t hl ht
    rw [basisCacheFill_fills hl]
    exact ⟨fun b hb hd => congrArg Host.Outcome.next (fillOne_caches ht hb hd),
      fun hb => congrArg Host.Outcome.next (fillOne_unloaded ht hb)⟩
  case lost =>
    intro s v x l r q hl ht hq
    rw [basisCacheFill_fills hl, fillOne_fails ht hq]
  case verify =>
    intro c s a v st k h hn hslot hheld hst hk hv
    exact foldVerify_one_fails h hn hslot hheld (Prod.ext hst.symm (Prod.ext hk.symm hv.symm))

end Sys2Proof.Machine
end

section
/-! PROOFS. What a write to device memory leaves of the serving block (spec/09): recording, charging and signalling, the stored granules and
the staging cache, the windows and at last a write of bytes keep its models, pools, map, index, requests and pins. -/

namespace Sys2Proof.Machine

/-! ### Recording, charging and signalling -/

theorem srv_of_uncharged {s v : State} (h : uncharged v = uncharged s) : v.srv = s.srv := (congrArg State.srv h :)

section
variable (s : State)

@[simp] theorem markChannel_srv (t : Tier) (c : Nat) : (markChannel s t c).srv = s.srv :=
  (congrArg State.srv (unpowered_markChannel s t c) :)

@[simp] theorem chanCount_srv (t : Tier) (c i : Nat) : (chanCount s t c i).srv = s.srv := rfl

@[simp] theorem setChan_srv (t : Tier) (c : Nat) (x : Chan) : (setChan s t c x).srv = s.srv := rfl

@[simp] theorem logErr_srv (die type : Nat) (t : Tier) (u off dpa sym rq : Nat) :
    (logErr s die type t u off dpa sym rq).srv = s.srv := rfl

@[simp] theorem watchUe_srv (t : Tier) (c : Nat) : (watchUe s t c).srv = s.srv := by
  unfold watchUe
  dsimp only
  split <;> simp

@[simp] theorem watchCe_srv (t : Tier) (c : Nat) : (watchCe s t c).srv = s.srv := by
  unfold watchCe
  dsimp only
  split <;> simp

@[simp] theorem noteUe_srv (type : Nat) (t : Tier) (c off dpa rq : Nat) : (noteUe s type t c off dpa rq).srv = s.srv := by
  unfold noteUe
  dsimp only
  split <;> simp

@[simp] theorem noteCe_srv (type : Nat) (t : Tier) (c off dpa sym rq : Nat) (part : Option Nat) :
    (noteCe s type t c off dpa sym rq part).srv = s.srv := by
  unfold noteCe
  dsimp only
  repeat' split
  all_goals simp

@[simp] theorem noteDrop_srv (t : Tier) (c off dpa rq : Nat) : (noteDrop s t c off dpa rq).srv = s.srv := by
  unfold noteDrop
  dsimp only
  split <;> simp

@[simp] theorem charge_srv (rq : Requester) (dpa n cls : Nat) : (charge s rq dpa n cls).srv = s.srv :=
  srv_of_uncharged (uncharged_charge ..)

@[simp] theorem cross_srv (rq : Requester) (write : Bool) (dpa n : Nat) : (cross s rq write dpa n).srv = s.srv :=
  srv_of_uncharged (uncharged_cross ..)

@[simp] theorem setCore_srv (n : Nat) (c : Core) : (setCore s n c).srv = s.srv := rfl

@[simp] theorem setQueue_srv (p q : Nat) (x : Queue) : (setQueue s p q x).srv = s.srv := rfl

@[simp] theorem queueStatus_srv (p q status : Nat) : (queueStatus s p q status).srv = s.srv := by
  unfold queueStatus
  dsimp only
  repeat' split
  all_goals simp [latchEnd]

/-- The waiters that a tally's value releases are queues' commands and cores (R239). -/
@[simp] theorem releaseWaiters_srv (n : Nat) : (releaseWaiters s n).srv = s.srv := by
  unfold releaseWaiters
  refine (foldl_keeps State.srv _ _ fun u e => ?core).trans (foldl_keeps State.srv _ _ fun u w => ?queue)
  case core =>
    repeat' split
    all_goals simp [endCoreWait]
  case queue => simp [endQueueWait]

@[simp] theorem tallySet_srv (n : Nat) (v : BitVec 32) (isSet : Bool) (src : Nat) (part : Option Nat) :
    (tallySet s n v isSet src part).srv = s.srv := by simp [tallySet]

@[simp] theorem tallySignalAs_srv (n : Nat) (v : BitVec 32) (isSet : Bool) (src : Nat) (part : Option Nat) :
    (tallySignalAs s n v isSet src part).srv = s.srv := by
  have hframe : (frameArrives s n (stamp s)).srv = s.srv := foldl_keeps State.srv _ _ fun _ _ => rfl
  unfold tallySignalAs tallySignalAt
  split <;> simp [hframe]

/-! ### Stored granules and the staging cache -/

@[simp] theorem checkRead_srv (p : Place) : (checkRead s p).2.srv = s.srv := by
  unfold checkRead
  dsimp only
  repeat' split
  all_goals rfl

@[simp] theorem placeStore_srv (p : Place) (d : List Byte) (poison : Bool) : (placeStore s p d poison).srv = s.srv := by
  unfold placeStore
  dsimp only
  split <;> rfl

@[simp] theorem chanRead_srv (p : Place) (dpa ceType ueType rq : Nat) (part cls : Option Nat) (fix : Bool) :
    (chanRead s p dpa ceType ueType rq part cls fix).2.2.2.srv = s.srv := by
  unfold chanRead
  dsimp only
  repeat' split
  all_goals simp

@[simp] theorem chanWrite_srv (p : Place) (dpa : Nat) (d : List Byte) (poison : Bool) (rq : Nat) (part cls : Option Nat) :
    (chanWrite s p dpa d poison rq part cls).srv = s.srv := by
  unfold chanWrite granuleStore
  dsimp only
  repeat' split
  all_goals simp [accDrop]

@[simp] theorem writeBack_srv (dpa : Nat) (x : Sector) (rq : Nat) (cls : Option Nat) : (writeBack s dpa x rq cls).srv = s.srv := by
  unfold writeBack
  split <;> simp

@[simp] theorem evict_srv (l : CacheLine) (cls : Option Nat) : (evict s l cls).srv = s.srv := by
  have hline : (writeBackLine s l cls).srv = s.srv := foldl_keeps State.srv _ s fun _ _ => by split <;> simp
  simp [evict, hline]

theorem makeRoom_srv {s u : State} {die addr : Nat} {cls : Option Nat} (h : makeRoom s die addr cls = some u) : u.srv = s.srv := by
  unfold makeRoom at h
  split at h
  case isTrue => cases h; rfl
  case isFalse =>
    split at h
    case h_1 => cases h
    case h_2 =>
      rw [← Option.some.inj h]
      exact evict_srv ..

@[simp] theorem cachePut_srv (die dpa : Nat) (x : Sector) (rq : Nat) (part cls : Option Nat) :
    (cachePut s die dpa x rq part cls).srv = s.srv := by
  unfold cachePut
  split
  case h_1 => rfl
  case h_2 =>
    split
    case h_1 u h => exact (makeRoom_srv h :)
    case h_2 =>
      repeat' split
      all_goals simp

@[simp] theorem cacheDrop_srv (dpa : Nat) : (cacheDrop s dpa).srv = s.srv := rfl

theorem flushLine_srv (wb inv : Bool) (lo hi : Nat) (acc : State × List CacheLine × Bool) (l : CacheLine) :
    (flushLine wb inv lo hi acc l).1.srv = acc.1.srv := by
  unfold flushLine
  dsimp only
  split
  · rfl
  · dsimp only
    split
    · exact foldl_keeps State.srv _ _ fun _ _ => by split <;> simp
    · rfl

@[simp] theorem flushRange_srv (lo hi : Nat) (wb inv : Bool) : (flushRange s lo hi wb inv).1.srv = s.srv := by
  unfold flushRange
  refine (foldl_keeps State.srv _ _ fun u x => ?accumulator).trans
    (foldl_preserves (fun acc : State × List CacheLine × Bool => acc.1.srv) _ _ (flushLine_srv wb inv lo hi))
  case accumulator => split <;> simp [accDrop]

/-! ### The windows -/

@[simp] theorem controlWrite_srv (part : Option Nat) (off : Nat) (b : List Byte) : (controlWrite s part off b).2.srv = s.srv := by
  unfold controlWrite cacheOp
  dsimp only
  repeat' split
  all_goals simp [controlFinish]

@[simp] theorem writeGranule_srv (rq : Requester) (dpa : Nat) (d : List Byte) (poison : Bool) (cls : Nat) :
    (writeGranule s rq dpa d poison cls).2.srv = s.srv := by
  unfold writeGranule
  dsimp only
  repeat' split
  all_goals simp

@[simp] theorem mergeGranule_srv (rq : Requester) (dpa o : Nat) (b : List Byte) (poison : Bool) (cls : Nat) :
    (mergeGranule s rq dpa o b poison cls).2.srv = s.srv := by
  unfold mergeGranule
  dsimp only
  repeat' split
  all_goals simp

@[simp] theorem writeAt_srv (rq : Requester) (dpa : Nat) (b : List Byte) (poison : Bool) (cls : Nat) :
    (writeAt s rq dpa b poison cls).2.srv = s.srv := by
  have hwindow : (writeWindow s rq dpa b poison cls).2.srv = s.srv := by
    unfold writeWindow
    repeat' split
    all_goals simp
  unfold writeAt
  dsimp only
  split <;> simp [hwindow]

/-- A write of bytes leaves the serving block alone, wherever they go. -/
@[simp] theorem writeBytes_srv (rq : Requester) (dpa : Nat) (b : List Byte) (poison : Bool) (cls : Nat) :
    (writeBytes s rq dpa b poison cls).2.srv = s.srv := by
  unfold writeBytes
  dsimp only
  repeat' split
  · rfl
  · rfl
  · refine (foldl_preserves (fun acc : Nat × State => acc.2.srv) _ _ fun _ _ => ?piece).trans ?start
    case piece => exact writeAt_srv ..
    case start => rw [charge_srv, watch_srv]

/-- What the block writes to its tables in device memory changes nothing of the tables themselves. -/
@[simp] theorem devWrite_srv (dpa : Nat) (b : List Byte) : (devWrite s dpa b).srv = s.srv := writeBytes_srv ..

end

end Sys2Proof.Machine
end

section
/-! PROOFS. Models, pools, the page map, the block index and pins (spec/09): what a command of the serving block answers after the expiries
that are due, row by row; then O47. -/

namespace Sys2Proof.Machine

/-! ### A command of the serving block answers in the state in which the expiries have been settled (R273) -/

section
variable {i : Instr} {sp : FwSpec} {f : Cmd → State → Answer} {c : Cmd} {s a b t : State} {res : List Byte} {st : Nat} {w : Wait}
  (e : exec i s = servingCmd sp f c s) (h : Begun sp c s a) (hb : b = settle c a)
include e h hb

theorem serving_ends (hf : f c b = .done st res t) : exec i s = .next (complete t c st res) :=
  ends_of e h (hb ▸ hf)

theorem serving_completes (hf : f c b = .done St.ok res t) : Completes i c s t res := serving_ends e h hb hf

theorem serving_waits (hf : f c b = .wait w t) : Waits i sp.op c s t w := waits_of e h (hb ▸ hf)

end

section
variable {c : Cmd} {s a b : State}

/-! ### MODEL_LOAD and MODEL_UNLOAD (R255, R274) -/

section
variable {x : Model} (h : Begun { op := 0x0701, need := 24, vf := false } c s a) (hb : b = settle c a)
  (hx : x = parseModel (padTo 24 (body c))) (hm : p8 c 0 ≤ 15) (hp : 0 < x.payload) (hal : x.payload % 4096 = 0)
  (hmax : x.payload ≤ 16777216) (hctx : 16 ≤ x.maxCtx) (hctx' : x.maxCtx ≤ 16777216) (hs : x.scount ≤ 64)
include h hb hx hm hp hal hmax hctx hctx' hs

theorem modelLoad_completes (hlive : poolServes b x.live 0 x.payload = true)
    (hpark : x.park = 255 ∨ poolServes b x.park 1 x.payload = true)
    (hsum : x.summary = 255 ∨ poolServes b x.summary 2 x.payload = true) (hnew : modelOf b (p8 c 0) = none) :
    Completes (.modelLoad c) c s { b with srv.models := mput b.srv.models (p8 c 0) x } [] := by
  subst hx
  refine serving_completes (.refl (execModelLoad c s)) h hb
    ((checked_tail ?fields).trans ((checked_tail ?pools).trans (checked_tail ?absent)))
  case fields => simp [hm, Nat.ne_of_gt hp, hal, hmax, hctx, hctx', hs]
  case pools => rcases hpark with hpark | hpark <;> rcases hsum with hsum | hsum <;> simp [hlive, hpark, hsum]
  case absent => simp [hnew]

theorem modelLoad_unserved (hlive : poolServes b x.live 0 x.payload = false) :
    exec (.modelLoad c) s = .next (complete b c St.poolLayout []) := by
  subst hx
  refine serving_ends (.refl (execModelLoad c s)) h hb ((checked_tail ?fields).trans (checked_head ?pools))
  case fields => simp [hm, Nat.ne_of_gt hp, hal, hmax, hctx, hctx', hs]
  case pools => simp [hlive]

end

section
variable (h : Begun { op := 0x0702, need := 1, vf := false } c s a) (hb : b = settle c a) (hm : (modelOf b (p8 c 0)).isSome = true)
include h hb hm

theorem modelUnload_completes (hfree : b.srv.reqs.any (fun r => r.2.st != 0 && r.2.model == p8 c 0) = false) :
    Completes (.modelUnload c) c s
      { flushIndex b (p8 c 0) with srv.models := mdel (flushIndex b (p8 c 0)).srv.models (p8 c 0) } [] :=
  serving_completes (.refl (execModelUnload c s)) h hb ((checked_tail (by simpa using hm)).trans (checked_tail hfree))

theorem modelUnload_busy (hused : b.srv.reqs.any (fun r => r.2.st != 0 && r.2.model == p8 c 0) = true) :
    exec (.modelUnload c) s = .next (complete b c St.modelBusy []) :=
  serving_ends (.refl (execModelUnload c s)) h hb ((checked_tail (by simpa using hm)).trans (checked_head hused))

end

/-! ### PAGE_POOL_CONFIG and PAGE_MAP_CONFIG (R256 to R258) -/

theorem pagePoolConfig_completes {p : Pool} (h : Begun { op := 0x0703, need := 36, vf := false } c s a) (hb : b = settle c a)
    (hp : p = parsePool (padTo 36 (body c))) (hk : p8 c 0 ≤ 7) (hkind : p.kind ≤ 2) (hn : 0 < p.count)
    (hids : p.first + p.count ≤ 16777216) (hstride : p.stride % 4096 = 0) (hdata : p.data % 4096 = 0) (htr : p.trailers % 128 = 0)
    (hdata' : isDpa p.data = true) (htr' : isDpa p.trailers = true) (hfree : poolNamed b (p8 c 0) = false)
    (hapart : b.srv.pools.any (fun e => e.1 != p8 c 0 && rangesMeet p.first p.count e.2.first e.2.count) = false)
    (hplaced : poolPlaced b p.kind p.data (p.stride * p.count) = true) (hfast : fastArea b none p.trailers (128 * p.count) = true) :
    Completes (.pagePoolConfig c) c s (setPool (forgetPool b (p8 c 0)) (p8 c 0) p) [] := by
  subst hp
  refine serving_completes (.refl (execPagePoolConfig c s)) h hb
    ((checked_tail ?fields).trans ((checked_tail ?addresses).trans ((checked_tail hfree).trans (checked_tail ?layout))))
  case fields => simp [hk, hkind, Nat.ne_of_gt hn, hids, hstride]
  case addresses => simp [hdata, htr, hdata', htr']
  case layout => simp only [hapart, hplaced, hfast, Bool.not_true, Bool.or_self]

section
variable (h : Begun { op := 0x0704, need := 24, vf := false } c s a) (hb : b = settle c a) (hmin : 1 ≤ p32 c 8)
  (hmax : p32 c 8 ≤ 1048576) (hal : p64 c 0 % 4096 = 0) (hal' : p64 c 16 % 4096 = 0) (hd : isDpa (p64 c 0) = true)
  (hd' : isDpa (p64 c 16) = true)
include h hb hmin hmax hal hal' hd hd'

theorem pageMapConfig_completes (hm : b.srv.models = []) (hfast : fastArea b none (p64 c 0) (4096 * p32 c 8) = true)
    (hfast' : fastArea b none (p64 c 16) 16777216 = true) :
    ∃ t, exec (.pageMapConfig c) s = .next (complete t c St.ok []) ∧ t.srv.index = [] ∧
      t.srv.map = some { raw := padTo 24 (body c), blocks := p64 c 0, count := p32 c 8, index := p64 c 16, free := [], fresh := 0 } := by
  refine ⟨_, serving_ends (.refl (execPageMapConfig c s)) h hb ((checked_tail ?count).trans ((checked_tail ?addresses).trans
    ((checked_tail ?models).trans (checked_tail ?layout)))), by rw [devWrite_srv], by rw [devWrite_srv]⟩
  case count => simp [Nat.ne_of_gt hmin, hmax]
  case addresses => simp [hal, hal', hd, hd']
  case models => simp [hm]
  case layout => simp [hfast, hfast']

theorem pageMapConfig_busy (hm : b.srv.models ≠ []) : exec (.pageMapConfig c) s = .next (complete b c St.poolBusy []) := by
  refine serving_ends (.refl (execPageMapConfig c s)) h hb
    ((checked_tail ?count).trans ((checked_tail ?addresses).trans (checked_head ?models)))
  case count => simp [Nat.ne_of_gt hmin, hmax]
  case addresses => simp [hal, hal', hd, hd']
  case models => simpa using hm

end

/-! ### PREFIX_LOOKUP (R271) -/

section
variable (h : Begun { op := 0x070B, need := 20 } c s a) (hb : b = settle c a)
include h hb

theorem prefixLookup_completes {d : List Byte} {v : State} (hm : (modelOf b (p8 c 0)).isSome = true)
    (hread : readBytes b (cmdRq c) (p64 c 8) (4 * ((p32 c 16 - 1) / 16 * 16)) 0 = (St.ok, d, false, v)) :
    Completes (.prefixLookup c) c s (lookup v (p8 c 0) (chunks 16 (tokenList d)) 0 noPage false).2
      (leBytes 4 (lookup v (p8 c 0) (chunks 16 (tokenList d)) 0 noPage false).1.length) := by
  refine serving_completes (.refl (execPrefixLookup c s)) h hb ((checked_tail (by simpa using hm)).trans ?_)
  simp only [hread]
  rfl

theorem prefixLookup_noModel (hm : modelOf b (p8 c 0) = none) :
    exec (.prefixLookup c) s = .next (complete b c St.modelAbsent []) :=
  serving_ends (.refl (execPrefixLookup c s)) h hb (checked_head (by simp [hm]))

end

/-! ### PREFIX_PIN and PREFIX_UNPIN (R274) -/

/-- A page with one holder more. -/
def refPage (s : State) (n : Nat) : State := pageLow (setPage s n { pageOf s n with refs := (pageOf s n).refs + 1 }) n

/-- The state in which slot `k` holds the pin `x`, and the pin its pages. -/
def withPin (s : State) (k : Nat) (x : Pin) : State :=
  { x.pages.foldl refPage s with srv.pins := mput (x.pages.foldl refPage s).srv.pins k x }

section
variable {d : List Byte} {u v : State} {l : List Nat} {k : Nat} (h : Begun { op := 0x070C, need := 20 } c s a) (hb : b = settle c a)
  (hm : (modelOf b (p8 c 0)).isSome = true) (hn : p32 c 16 % 16 = 0)
  (hread : readBytes b (cmdRq c) (p64 c 8) (4 * p32 c 16) 0 = (St.ok, d, false, v))
  (hlook : lookup v (p8 c 0) (chunks 16 (tokenList d)) 0 noPage true = (l, u))
include h hb hm hn hread hlook

theorem prefixPin_misses (hshort : l.length < p32 c 16 / 16) :
    exec (.prefixPin c) s = .next (complete u c St.pinMiss (leBytes 4 0 ++ leBytes 4 l.length)) := by
  refine serving_ends (.refl (execPrefixPin c s)) h hb ((checked_tail (by simp [hn])).trans ((checked_tail (by simpa using hm)).trans ?_))
  simp only [hread, hlook]
  exact if_pos hshort

section
variable (hall : p32 c 16 / 16 ≤ l.length)
include hall

theorem prefixPin_pins (hk : findFrom (fun k => (mfind u.srv.pins k).isNone) 65536 0 = some k) :
    ∃ t, exec (.prefixPin c) s = .next (complete t c St.ok (leBytes 4 (k + 65536 * mget 1 t.srv.pinGens k) ++ leBytes 4 l.length)) ∧
      mfind t.srv.pins k = some { model := p8 c 0, pages := l, tokens := tokenList d } := by
  refine ⟨withPin u k { model := p8 c 0, pages := l, tokens := tokenList d }, serving_ends (.refl (execPrefixPin c s)) h hb
    ((checked_tail (by simp [hn])).trans ((checked_tail (by simpa using hm)).trans ?_)), mfind_mput ..⟩
  simp only [hread, hlook, hk]
  exact if_neg (Nat.not_lt.2 hall)

theorem prefixPin_exhausted (hk : findFrom (fun k => (mfind u.srv.pins k).isNone) 65536 0 = none) :
    exec (.prefixPin c) s = .next (complete u c St.resourceExhausted []) := by
  refine serving_ends (.refl (execPrefixPin c s)) h hb ((checked_tail (by simp [hn])).trans ((checked_tail (by simpa using hm)).trans ?_))
  simp only [hread, hlook, hk]
  exact if_neg (Nat.not_lt.2 hall)

end
end

/-- The state in which the pin `x` of slot `k` is released: its pages lose a holder, and the slot is free in its next generation. -/
def unpinned (s : State) (k : Nat) (x : Pin) : State :=
  { x.pages.foldl unrefPage s with
    srv.pins := mdel (x.pages.foldl unrefPage s).srv.pins k
    srv.pinGens := mput (x.pages.foldl unrefPage s).srv.pinGens k (nextGen 0xFFFF (mget 1 (x.pages.foldl unrefPage s).srv.pinGens k)) }

section
variable {x : Pin} (h : Begun { op := 0x070D, need := 4 } c s a) (hb : b = settle c a)
include h hb

theorem prefixUnpin_completes (hx : pinOf b (p32 c 0) = some x) :
    Completes (.prefixUnpin c) c s (unpinned b (p32 c 0 % 65536) x) [] := by
  refine serving_completes (.refl (execPrefixUnpin c s)) h hb ?_
  simp only [hx]
  rfl

theorem prefixUnpin_invalid (hx : pinOf b (p32 c 0) = none) :
    exec (.prefixUnpin c) s = .next (complete b c St.pinInvalid []) := by
  refine serving_ends (.refl (execPrefixUnpin c s)) h hb ?_
  simp only [hx]

end

/-! ### PREFIX_FLUSH and PAGE_STATS (R274, R279) -/

theorem prefixFlush_completes (h : Begun { op := 0x070E, need := 1, vf := false } c s a) (hb : b = settle c a)
    (hm : (modelOf b (p8 c 0)).isSome = true) : Completes (.prefixFlush c) c s (flushIndex b (p8 c 0)) [] :=
  serving_completes (.refl (execPrefixFlush c s)) h hb (checked_tail (by simpa using hm))

/-- PAGE_STATS writes 16 counts of 4 B (R279). -/
theorem poolStats_bytes (s : State) (p : Pool) : (((poolStats s p).map (leBytes 4)).flatten).length = 64 :=
  length_flatten_of_all (poolStats s p) fun _ => leBytes_length ..

theorem pageStats_completes {p : Pool} (h : Begun { op := 0x070F, need := 16 } c s a) (hb : b = settle c a)
    (hp : mfind b.srv.pools (p8 c 0) = some p) (hw : hostOk b (p64 c 8) 64 = true) :
    Completes (.pageStats c) c s (hostStore b (p64 c 8) (((poolStats b p).map (leBytes 4)).flatten)) [] := by
  refine serving_completes (.refl (execPageStats c s)) h hb ?_
  simp only [hp]
  exact reportTo_ok (by rwa [poolStats_bytes])

end

/-- Settles O47: each row by its checks, and a row that reads tokens by what the read and the lookup return. -/
theorem modelAndPoolRows : Obligations.ModelAndPoolRows := by
  refine ⟨fun _ _ _ _ _ => modelLoad_completes, fun _ _ _ _ _ => modelLoad_unserved, fun _ _ _ _ => modelUnload_completes,
    fun _ _ _ _ => modelUnload_busy, fun _ _ _ _ _ => pagePoolConfig_completes, fun _ _ _ _ => pageMapConfig_completes,
    fun _ _ _ _ => pageMapConfig_busy, ?counts, fun _ _ _ _ => prefixLookup_noModel, ?misses,
    fun _ _ _ _ _ _ _ _ _ => prefixPin_pins, fun _ _ _ _ _ _ _ _ => prefixPin_exhausted,
    fun _ _ _ _ _ => prefixUnpin_completes, fun _ _ _ _ => prefixUnpin_invalid, fun _ _ _ _ => prefixFlush_completes,
    fun _ _ _ _ _ => pageStats_completes⟩
  case counts =>
    intro c s a b v d h hb hm hst hd hp hv
    subst hv
    exact prefixLookup_completes h hb hm (clean_read hst hd hp)
  case misses =>
    intro c s a b v u d h hb hm hn hst hd hp hv hu hshort
    have hread := clean_read hst hd hp
    rw [← hv] at hread
    subst hu
    exact prefixPin_misses h hb hm hn hread (Prod.eta _).symm hshort

end Sys2Proof.Machine
end

section
/-! PROOFS. Requests (spec/09): what the commands that name a request answer after the expiries that are due, how a submitted request is
entered, and how a park copy, a restore, a fold and a time to live end; then O48. -/

namespace Sys2Proof.Machine

/-! ### A command that names a request (R264) -/

section
variable {i : Instr} {op need : Nat} {f : Cmd → Nat → State → Answer} {c : Cmd} {s a b t : State} {res : List Byte} {st e : Nat}
  {w : Wait} (hi : exec i s = reqCmd op need f c s) (h : Begun { op := op, need := need, refuse := foreignReq } c s a) (hb : b = settle c a)
include hi h hb

theorem req_stale (hs : stale b (p32 c 0) = true) : exec i s = .next (complete b c St.reqStale []) :=
  serving_ends hi h hb (checked_head hs)

section
variable (hs : stale b (p32 c 0) = false) (he : e = p32 c 0 % 4096)
include hs he

theorem req_ends (hf : f c e b = .done st res t) : exec i s = .next (complete t c st res) :=
  serving_ends hi h hb ((checked_tail hs).trans (he ▸ hf))

theorem req_completes (hf : f c e b = .done St.ok res t) : Completes i c s t res := req_ends hi h hb hs he hf

theorem req_waits (hf : f c e b = .wait w t) : Waits i op c s t w :=
  serving_waits hi h hb ((checked_tail hs).trans (he ▸ hf))

end
end

/-! ### The table of requests and their map blocks -/

@[simp] theorem reqOf_setReq (s : State) (e : Nat) (r : Req) : reqOf (setReq s e r) e = r := mget_mput ..

theorem reqOf_noteCheck (s : State) (p e : Nat) (at_ : Stamp) : reqOf (noteCheck s p at_) e = reqOf s e := rfl

theorem mget_mdel {α : Type} (d : α) (m : Map α) (k : Nat) : mget d (mdel m k) k = d := by rw [mget_eq, mfind_mdel]; rfl

/-- A state without the page map. -/
def unmapped (s : State) : State := { s with srv.map := none }

theorem unmapped_freeBlock (s : State) (n : Nat) : unmapped (freeBlock s n) = unmapped s := by
  unfold freeBlock
  split <;> rfl

/-- The blocks of an entry go back to the page map, and nothing else changes. -/
theorem unmapped_freeBlocks (s : State) (r : Req) : unmapped (freeBlocks s r) = unmapped s :=
  (unmapped_freeBlock ..).trans (foldl_keeps unmapped _ s fun _ _ => unmapped_freeBlock ..)

/-- The table holds 128 bytes of a request, in two granules (R254, R265). -/
theorem servingGranule_length (s : State) (off : Nat) : (servingGranule s off).length = 64 := by
  unfold servingGranule
  repeat' split
  all_goals simp [zeros]

/-! ### REQ_SUBMIT (R265, R266, R271) -/

/-- What REQ_SUBMIT asks of its entry: an extended payload, for the function's own partition. -/
def submitSpec : FwSpec := { op := 0x0705, need := 128, ext := true, refuse := fun c _ => p8 c 5 / 16 % 4 != c.fn - 1 }

/-- The last of REQ_SUBMIT's checks, then the request's place (R266, R319). -/
def sampleAndPlace (s : State) (d : List Byte) : Answer :=
  match samplingCheck s (fieldN d 5 1 / 16 % 4) (fieldN d 104 8) (fieldN d 56 8) with
  | (none, v) => .done St.samplingInvalid [] v
  | (some _, v) => placeReq v d

section
variable {c : Cmd} {s a b : State} {d : List Byte}

section
variable {x : Model} {q : Sampling} {u v t : State} {st : Nat} {res : List Byte} (h : Begun submitSpec c s a) (hb : b = settle c a)
  (hd : d = padTo 128 (body c))
include h hb hd

theorem reqSubmit_noModel (hm : modelOf b (fieldN d 6 1) = none) :
    exec (.reqSubmit c) s = .next (complete b c St.modelAbsent []) := by
  subst hd
  refine serving_ends (.refl (execReqSubmit c s)) h hb ?_
  simp only [hm]

section
variable (hm : modelOf b (fieldN d 6 1) = some x)
include hm

theorem reqSubmit_badLength (hn : fieldN d 76 4 = 0 ∨ x.maxCtx < fieldN d 76 4) :
    exec (.reqSubmit c) s = .next (complete b c St.contextLimit []) := by
  subst hd
  refine serving_ends (.refl (execReqSubmit c s)) h hb ?_
  simp only [hm]
  exact checked_head (by simpa using hn)

section
variable (hmin : 1 ≤ fieldN d 76 4) (hmax : fieldN d 76 4 ≤ x.maxCtx) (hdue : (stamp b).toNat + fieldN d 24 8 < 2 ^ 64)
  (hg : grammarCheck b (fieldN d 5 1 / 16 % 4) (fieldN d 48 2) (fieldN d 52 4) = (none, u))
include hmin hmax hdue hg

/-- A prompt within the context and a grammar that holds leave the sampling block to be checked (R266, R319). -/
theorem reqSubmit_samples (hs : sampleAndPlace u d = .done st res t) :
    exec (.reqSubmit c) s = .next (complete t c st res) := by
  subst hd
  refine serving_ends (.refl (execReqSubmit c s)) h hb ?_
  simp only [hm]
  refine (checked_tail ?context).trans ((checked_tail ?due).trans ?sampling)
  case context => simp [Nat.ne_of_gt hmin, hmax]
  case due => simpa using hdue
  case sampling =>
    simp only [hg]
    exact hs

theorem reqSubmit_placed
    (hs : samplingCheck u (fieldN d 5 1 / 16 % 4) (fieldN d 104 8) (fieldN d 56 8) = (some q, v)) (hp : placeReq v d = .done st res t) :
    exec (.reqSubmit c) s = .next (complete t c st res) :=
  reqSubmit_samples h hb hd hm hmin hmax hdue hg (by simp only [sampleAndPlace, hs, hp])

theorem reqSubmit_badSampling (hs : samplingCheck u (fieldN d 5 1 / 16 % 4) (fieldN d 104 8) (fieldN d 56 8) = (none, v)) :
    exec (.reqSubmit c) s = .next (complete v c St.samplingInvalid []) :=
  reqSubmit_samples h hb hd hm hmin hmax hdue hg (by simp only [sampleAndPlace, hs])

end
end
end

/-! ### The entry of an accepted request (R265, R266) -/

theorem granuleAddrs_zero (dpa : Nat) : granuleAddrs dpa 0 = [] := rfl

/-- Of no bytes, a read answers none, and clean ones. -/
theorem readBytes_none (s : State) (rq : Requester) (dpa cls : Nat) :
    readBytes s rq dpa 0 cls = (St.ok, [], false, (readBytes s rq dpa 0 cls).2.2.2) := by
  simp [readBytes, readGranules, rangeStatus, granuleAddrs_zero, readGo, slice]

theorem reqOf_prog (s : State) (unit event n e : Nat) (part cls : Option Nat) : reqOf (prog s unit event part cls n) e = reqOf s e := by
  simp [reqOf]

theorem reqOf_poolCount (s : State) (k i e : Nat) : reqOf (poolCount s k i) e = reqOf s e := by
  unfold poolCount
  split <;> rfl

/-- A lookup of no blocks matches no pages, and counts itself at most. -/
theorem lookup_none (s : State) (m done parent : Nat) (room : Bool) :
    (lookup s m [] done parent room).1 = [] ∧ ∀ e, reqOf (lookup s m [] done parent room).2 e = reqOf s e := by
  unfold lookup
  split
  · exact ⟨rfl, fun _ => rfl⟩
  · simp [prefixKeys, keyChain, matchGo, reqOf_prog, reqOf_poolCount]

/-- A request without a pin whose prompt holds no whole block takes its entry, a root and an ID, and no pages. -/
theorem admitReq_unmatched {u : State} {e root : Nat} (hroot : newBlock s true = some (root, u)) :
    ∃ t, admitReq s d e none [] = .done St.ok (leBytes 4 (e + 4096 * genNow s e) ++ leBytes 4 0 ++ leBytes 4 0) t ∧
      reqOf t e = { parseReq d (e + 4096 * genNow s e) root (stamp s) with committed := 0, promptDone := 0 } := by
  have hblocks : chunks 16 ([] : List (BitVec 32)) = [] := chunksGo_nil ..
  have hpages (v : State) (m done parent : Nat) : lookup v m [] done parent true = ([], (lookup v m [] done parent true).2) :=
    Prod.ext (lookup_none ..).1 rfl
  unfold admitReq
  simp only [hroot, hblocks]
  rw [hpages]
  simp only [attachPages, Nat.lt_irrefl, if_false, Nat.add_zero, Nat.mul_zero]
  exact ⟨_, rfl, by simp only [reqOf_noteCheck, reqOf_setReq, (lookup_none ..).2]⟩

theorem placeReq_accepts {v : State} {e root : Nat} (he : findFrom (fun e => (reqOf s e).st == 0) 4096 0 = some e)
    (hpin : fieldN d 100 4 = 0) (hnone : pinOf s 0 = none) (haddr : fieldN d 80 8 < 281474976710656) (hshort : fieldN d 76 4 ≤ 16)
    (hblock : (takeBlock s).isSome = true)
    (hv : v = (readBytes s (.serving (fieldN d 5 1 / 16 % 4)) (fieldN d 80 8) 0 0).2.2.2)
    (hroot : (newBlock v true).map Prod.fst = some root) :
    ∃ t, placeReq s d = .done St.ok (leBytes 4 (e + 4096 * genNow v e) ++ leBytes 4 0 ++ leBytes 4 0) t ∧
      reqOf t e = { parseReq d (e + 4096 * genNow v e) root (stamp v) with committed := 0, promptDone := 0 } := by
  obtain ⟨⟨_, u⟩, hu, rfl⟩ := Option.map_eq_some_iff.1 hroot
  obtain ⟨t, ht, hreq⟩ := admitReq_unmatched (d := d) (e := e) hu
  have hread := readBytes_none s (.serving (fieldN d 5 1 / 16 % 4)) (fieldN d 80 8) 0
  rw [← hv] at hread
  have hwhole : (fieldN d 76 4 - 1) / 16 = 0 := by omega
  refine ⟨t, ?_, hreq⟩
  unfold placeReq
  simp only [he, hpin, hnone, hwhole, Nat.zero_mul, Nat.mul_zero, hread]
  have hfree : ¬ (takeBlock s).isNone = true := by simp [Option.isSome_iff_ne_none.1 hblock]
  exact (if_neg hfree).trans ((if_neg fun h => h.1 rfl).trans ((if_neg (Nat.not_le.2 haddr)).trans ht))

end

/-! ### REQ_QUERY and REQ_CANCEL (R264, R268) -/

section
variable {c : Cmd} {s a b t : State} {e st : Nat}

theorem reqQuery_completes (h : Begun { op := 0x0706, need := 16, refuse := foreignReq } c s a) (hb : b = settle c a)
    (hs : stale b (p32 c 0) = false) (he : e = p32 c 0 % 4096) (hw : hostOk b (p64 c 8) 128 = true) :
    Completes (.reqQuery c) c s (hostStore b (p64 c 8) (servingGranule b (128 * e) ++ servingGranule b (128 * e + 64))) [] :=
  req_completes (.refl (execReqQuery c s)) h hb hs he
    (reportTo_ok (by rwa [List.length_append, servingGranule_length, servingGranule_length]))

section
variable (h : Begun { op := 0x0707, need := 4, refuse := foreignReq } c s a) (hb : b = settle c a) (hs : stale b (p32 c 0) = false)
  (he : e = p32 c 0 % 4096)
include h hb hs he

theorem reqCancel_ended (hst : (reqOf b e).st = 9 ∨ (reqOf b e).st = 10) : Completes (.reqCancel c) c s b [] :=
  req_completes (.refl (execReqCancel c s)) h hb hs he (if_pos hst)

section
variable (hmin : 1 ≤ (reqOf b e).st) (hmax : (reqOf b e).st ≤ 7)
include hmin hmax

theorem reqCancel_moving (hm : (reqOf b e).moving = true) :
    Waits (.reqCancel c) 0x0707 c s (setReq b e { reqOf b e with cancelPend := true }) (.request e) :=
  req_waits (.refl (execReqCancel c s)) h hb hs he ((if_neg (by omega)).trans ((if_neg (by omega)).trans (if_pos hm)))

theorem reqCancel_idle (hm : (reqOf b e).moving = false) (hstep : (reqOf b e).inStep = false) :
    Completes (.reqCancel c) c s (endRequest b e 4 9) [] :=
  req_completes (.refl (execReqCancel c s)) h hb hs he
    ((if_neg (by omega)).trans ((if_neg (by omega)).trans ((if_neg (by simp [hm])).trans (if_pos (by simp [hstep])))))

end

theorem reqCancel_inStep (hmin : 2 ≤ (reqOf b e).st) (hmax : (reqOf b e).st ≤ 4) (hm : (reqOf b e).moving = false)
    (hstep : (reqOf b e).inStep = true) :
    Waits (.reqCancel c) 0x0707 c s (setReq b e { reqOf b e with st := 8 }) (.request e) :=
  req_waits (.refl (execReqCancel c s)) h hb hs he ((if_neg (by omega)).trans ((if_neg (by omega)).trans
    ((if_neg (by simp [hm])).trans ((if_neg (by simp [hstep])).trans (if_pos (by omega))))))

end

/-! ### REQ_PAUSE (R267, R275) -/

/-- A request with the mode and the time to live of a pause that is asked for. -/
def askPause (c : Cmd) (r : Req) : Req := { r with pauseMode := p8 c 4, pauseTtl := p32 c 8 }

/-- A pause of mode 0 takes effect with the request's state alone. -/
theorem applyPause_plain {s : State} {e : Nat} (hmode : (reqOf s e).pauseMode = 0) :
    applyPause s e = (some St.ok, setReq s e { reqOf s e with st := 5, pausePending := false }) := by
  unfold applyPause
  simp only [hmode]

section
variable (h : Begun { op := 0x0708, need := 12, refuse := foreignReq } c s a) (hb : b = settle c a) (hs : stale b (p32 c 0) = false)
  (he : e = p32 c 0 % 4096)
include h hb hs he

section
variable (hmode : p8 c 4 ≤ 2) (hmin : 1 ≤ (reqOf b e).st) (hmax : (reqOf b e).st ≤ 4)
include hmode hmin hmax

theorem reqPause_inStep (hstep : (reqOf b e).inStep = true) :
    Waits (.reqPause c) 0x0708 c s (setReq b e { askPause c (reqOf b e) with pausePending := true }) (.request e) :=
  req_waits (.refl (execReqPause c s)) h hb hs he ((if_neg (by omega)).trans ((if_neg (by omega)).trans (if_pos hstep)))

section
variable (hstep : (reqOf b e).inStep = false)
include hstep

theorem reqPause_ends (hp : applyPause (setReq b e (askPause c (reqOf b e))) e = (some st, t)) :
    exec (.reqPause c) s = .next (complete t c st []) := by
  refine req_ends (.refl (execReqPause c s)) h hb hs he
    ((if_neg (by omega)).trans ((if_neg (by omega)).trans ((if_neg (by simp [hstep])).trans ?_)))
  unfold askPause at hp
  simp only [hp]

theorem reqPause_goesOn (hp : applyPause (setReq b e (askPause c (reqOf b e))) e = (none, t)) :
    Waits (.reqPause c) 0x0708 c s t (.request e) := by
  refine req_waits (.refl (execReqPause c s)) h hb hs he
    ((if_neg (by omega)).trans ((if_neg (by omega)).trans ((if_neg (by simp [hstep])).trans ?_)))
  unfold askPause at hp
  simp only [hp]

end
end

theorem reqPause_plain (hmode : p8 c 4 = 0) (hmin : 1 ≤ (reqOf b e).st) (hmax : (reqOf b e).st ≤ 4)
    (hstep : (reqOf b e).inStep = false) :
    ∃ t, exec (.reqPause c) s = .next (complete t c St.ok []) ∧
      reqOf t e = { reqOf b e with st := 5, pausePending := false, pauseMode := 0, pauseTtl := p32 c 8 } ∧ t.mem = b.mem := by
  have hplain : (reqOf (setReq b e (askPause c (reqOf b e))) e).pauseMode = 0 := by rw [reqOf_setReq]; exact hmode
  refine ⟨_, reqPause_ends h hb hs he (by omega) hmin hmax hstep (applyPause_plain hplain), ?_, rfl⟩
  rw [reqOf_setReq, reqOf_setReq, askPause, hmode]

end

/-! ### REQ_RESUME and REQ_RETIRE (R264, R268, R276) -/

section
variable (h : Begun { op := 0x0709, need := 4, refuse := foreignReq } c s a) (hb : b = settle c a) (hs : stale b (p32 c 0) = false)
  (he : e = p32 c 0 % 4096)
include h hb hs he

theorem reqResume_paused (hst : (reqOf b e).st = 5 ∨ (reqOf b e).st = 7) :
    Completes (.reqResume c) c s (noteCheck (setReq b e { reqOf b e with resumeWanted := true }) (reqOf b e).part (stamp b)) (zeros 8) :=
  req_completes (.refl (execReqResume c s)) h hb hs he (if_pos hst)

section
variable (hst : (reqOf b e).st = 6) (hr : (reqOf b e).restoring = false)
include hst hr

theorem reqResume_restores (ht : startRestore b e = .wait (.request e) t) : Waits (.reqResume c) 0x0709 c s t (.request e) :=
  req_waits (.refl (execReqResume c s)) h hb hs he ((if_neg (by omega)).trans ((if_pos (by simp [hst, hr])).trans ht))

theorem reqResume_ends (ht : startRestore b e = .done st [] t) : exec (.reqResume c) s = .next (complete t c st []) :=
  req_ends (.refl (execReqResume c s)) h hb hs he ((if_neg (by omega)).trans ((if_pos (by simp [hst, hr])).trans ht))

end
end

section
variable (h : Begun { op := 0x070A, need := 4, refuse := foreignReq } c s a) (hb : b = settle c a) (hs : stale b (p32 c 0) = false)
  (he : e = p32 c 0 % 4096)
include h hb hs he

theorem reqRetire_frees (hst : (reqOf b e).st = 9 ∨ (reqOf b e).st = 10) :
    ∃ t, exec (.reqRetire c) s = .next (complete t c St.ok []) ∧ reqOf t e = {} ∧
      genNow t e = (if 1048575 ≤ genNow b e then 1 else genNow b e + 1) ∧ t.mem = b.mem := by
  have hblocks : unmapped (freeBlocks b (reqOf b e)) = unmapped b := unmapped_freeBlocks ..
  have hgens : genNow (freeBlocks b (reqOf b e)) e = genNow b e := (congrArg (fun u => genNow u e) hblocks :)
  refine ⟨_, req_ends (.refl (execReqRetire c s)) h hb hs he (if_pos hst), mget_mdel .., ?_, (congrArg State.mem hblocks :)⟩
  refine (mget_mput ..).trans ?_
  rw [hgens]
  rfl

theorem reqRetire_living (hst : (reqOf b e).st ≤ 8) : exec (.reqRetire c) s = .next (complete b c St.reqState []) :=
  req_ends (.refl (execReqRetire c s)) h hb hs he (if_neg (by omega))

end
end

/-! ### PARK_COPY_DONE, RESTORE_DONE and TTL_EXPIRE (R273, R275, R276) -/

section
variable {s u v : State} {e st : Nat}

theorem parkCopyDone_idle (hm : (reqOf s e).moving = false) : exec (.parkCopyDone e) s = .next s :=
  congrArg Host.Outcome.next (if_neg (by simp [hm]))

section
variable {r : Req} (hr : r = reqOf s e) (hst : r.st = 5) (hm : r.moving = true) (hmode : r.pauseMode = 1)
  (hfree : pagesHeld s (.serving r.part) (pageLen s r) (movePairs s e r.moveSrc) = false)
  (hcopy : copyPages (.serving r.part) (pageLen s r) (movePairs s e r.moveSrc) s St.ok = (st, u))
include hr hst hm hmode hfree hcopy

theorem parkCopyDone_parks (hruns : statusRuns st = true) (hv : v = r.moveSrc.foldl (parkOne e) u) :
    exec (.parkCopyDone e) s = .next (applyCancel (finishReq (setReq v e
      { reqOf v e with st := 6, moving := false, moveSrc := [], ttlPend := true, ttlRun := false }) e 0x0708 st []) e) := by
  subst hr hv
  refine congrArg Host.Outcome.next ((if_pos ⟨hst, hm, hmode, by simp [hfree]⟩).trans ?_)
  simp only [hcopy, hruns, if_true]

theorem parkCopyDone_drops (hfails : statusRuns st = false) :
    exec (.parkCopyDone e) s = .next (applyCancel (finishReq (dropMoves u e) e 0x0708 st []) e) := by
  subst hr
  refine congrArg Host.Outcome.next ((if_pos ⟨hst, hm, hmode, by simp [hfree]⟩).trans ?_)
  simp only [hcopy, hfails, Bool.false_eq_true, if_false]

end

theorem ttlExpire_ends (hdue : ttlDue (reqOf s e) = true) (hfirst : s.srv.reqs.all (fun x => decide (e ≤ x.1) || !ttlDue x.2) = true) :
    exec (.ttlExpire e) s = .next (endRequest s e 5 9) :=
  congrArg Host.Outcome.next (if_pos (by rw [hdue, hfirst]; rfl))

theorem ttlExpire_early (hdue : ttlDue (reqOf s e) = false) : exec (.ttlExpire e) s = .next s :=
  congrArg Host.Outcome.next (if_neg (by simp [hdue]))

theorem restoreDone_idle (hr : (reqOf s e).restoring = false) : exec (.restoreDone e) s = .next s :=
  congrArg Host.Outcome.next (if_neg (by simp [hr]))

section
variable {r : Req} {l : List (Nat × Nat)} (hr : r = reqOf s e) (hst : r.st = 6) (hres : r.restoring = true)
  (hl : l = r.moveSrc.filter (fun m => !moveAttached m))
  (hfree : pagesHeld s (.serving r.part) (pageLen s r) (movePairs s e l) = false)
  (hcopy : copyPages (.serving r.part) (pageLen s r) (movePairs s e l) s St.ok = (st, u))
include hr hst hres hl hfree hcopy

theorem restoreDone_restores (hruns : statusRuns st = true) (hv : v = r.moveSrc.foldl (restoreOne e) u) :
    exec (.restoreDone e) s = .next (applyCancel (finishReq (noteCheck (setReq v e { reqOf v e with
      st := 5, restoring := false, moveSrc := [], resumeWanted := true, ttlRun := false, ttlPend := false }) r.part (stamp v)) e 0x0709 st
      (leBytes 4 (r.moveSrc.length - l.length) ++ leBytes 4 l.length)) e) := by
  subst hr hl hv
  refine congrArg Host.Outcome.next ((if_pos ⟨hst, hres, by simp [hfree]⟩).trans ?_)
  simp only [hcopy, hruns, if_true]

theorem restoreDone_drops (hfails : statusRuns st = false) :
    exec (.restoreDone e) s = .next (applyCancel (finishReq (dropMoves u e) e 0x0709 st []) e) := by
  subst hr hl
  refine congrArg Host.Outcome.next ((if_pos ⟨hst, hres, by simp [hfree]⟩).trans ?_)
  simp only [hcopy, hfails, Bool.false_eq_true, if_false]

end
end

/-! ### SUMMARY_FOLD_DONE (R249, R277) -/

section
variable {s u v : State} {e n : Nat} {x : Model} {r : Req} {l : List Nat}

theorem summaryFoldDone_idle (hf : (compOf s (reqOf s e).part).folding = false) : exec (.summaryFoldDone e) s = .next s :=
  congrArg Host.Outcome.next (if_neg (by simp [hf]))

section
variable (hr : r = reqOf s e) (hf : (compOf s r.part).folding = true) (hrun : (queueOf s r.part 31).running = true)
  (hin : (folds s r.part).contains e = true) (hm : modelOf s r.model = some x) (hcores : (queueOf s r.part 31).cores = n :: l)
include hr hf hrun hin hm hcores

theorem summaryFoldDone_folds (hall : foldAll s (.core r.part n) e x r.moveSrc = some u) (hv : v = endFold u e) :
    exec (.summaryFoldDone e) s = .next (if (folds v r.part).isEmpty then endSummary v r.part St.ok else v) := by
  subst hr hv
  refine congrArg Host.Outcome.next ((if_pos (by rw [hf, hrun, hin]; rfl)).trans ?_)
  simp only [hm, hcores, hall]

theorem summaryFoldDone_faults (hall : foldAll s (.core r.part n) e x r.moveSrc = none)
    (hst : foldStatus s (.core r.part n) x.payload (movePairs s e r.moveSrc) = 0) :
    exec (.summaryFoldDone e) s = .next (faultSummary s r.part n cFoldEncode none) := by
  subst hr
  refine congrArg Host.Outcome.next ((if_pos (by rw [hf, hrun, hin]; rfl)).trans ?_)
  simp only [hm, hcores, hall, hst]

end
end

/-- Settles O48: each command by its checks and the request's state, and each end of a move by whether what it moved has arrived. -/
theorem requestRows : Obligations.RequestRows := by
  refine ⟨fun _ _ _ _ _ => reqSubmit_noModel, fun _ _ _ _ _ _ => reqSubmit_badLength,
    fun _ _ _ _ _ _ _ _ _ _ _ _ => reqSubmit_placed, fun _ _ _ _ _ _ _ _ => reqSubmit_badSampling, ?accepts, ?stale,
    fun _ _ _ _ _ => reqQuery_completes, fun _ _ _ _ _ => reqCancel_idle, fun _ _ _ _ _ => reqCancel_inStep,
    fun _ _ _ _ _ => reqCancel_moving, fun _ _ _ _ _ => reqCancel_ended, fun _ _ _ _ _ => reqPause_plain, fun _ _ _ _ _ => reqPause_inStep,
    fun _ _ _ _ _ _ _ => reqPause_ends, fun _ _ _ _ _ _ => reqPause_goesOn, fun _ _ _ _ _ => reqResume_paused,
    fun _ _ _ _ _ _ => reqResume_restores, fun _ _ _ _ _ _ _ => reqResume_ends, fun _ _ _ _ _ => reqRetire_frees,
    fun _ _ _ _ _ => reqRetire_living, fun _ _ => parkCopyDone_idle, fun _ _ _ _ _ _ => parkCopyDone_parks,
    fun _ _ _ _ _ => parkCopyDone_drops, fun _ _ => ttlExpire_ends, fun _ _ => ttlExpire_early, fun _ _ => restoreDone_idle,
    fun _ _ _ _ _ _ _ => restoreDone_restores, fun _ _ _ _ _ _ => restoreDone_drops, fun _ _ _ _ _ _ _ _ => summaryFoldDone_folds,
    fun _ _ _ _ _ _ => summaryFoldDone_faults, fun _ _ => summaryFoldDone_idle⟩
  case accepts =>
    intro s v d e root he hpin hnone haddr _ hshort hblock _ hv hroot
    exact placeReq_accepts he hpin hnone haddr hshort hblock hv hroot
  case stale =>
    intro c s a b k n i hrow h hb hs
    simp only [List.mem_cons, List.not_mem_nil, or_false, Prod.mk.injEq] at hrow
    rcases hrow with ⟨rfl, rfl, rfl⟩ | ⟨rfl, rfl, rfl⟩ | ⟨rfl, rfl, rfl⟩ | ⟨rfl, rfl, rfl⟩ | ⟨rfl, rfl, rfl⟩
    · exact req_stale (.refl (execReqQuery c s)) h hb hs
    · exact req_stale (.refl (execReqCancel c s)) h hb hs
    · exact req_stale (.refl (execReqPause c s)) h hb hs
    · exact req_stale (.refl (execReqResume c s)) h hb hs
    · exact req_stale (.refl (execReqRetire c s)) h hb hs

end Sys2Proof.Machine
end

section
/-! PROOFS. The composer's commands, frame slots and experts (spec/10): what each answers after the expiries that are due, row by row; then
O49. -/

namespace Sys2Proof.Machine

@[simp] theorem compOf_setComp (s : State) (p : Nat) (k : Composer) : compOf (setComp s p k) p = k := mget_mput ..

section
variable {c : Cmd} {s a b : State}

/-! ### STEP_CONFIG (R282) -/

/-- The state in which the composer's parameters `k` have become `n`: DELEGATED turned on confirms the outstanding proposal. -/
def reconfigured (s : State) (p : Nat) (k n : Composer) : State :=
  match k.prop with
  | some x => if n.mode.getLsbD 1 ∧ !k.mode.getLsbD 1 then confirmRows (setComp s p n) p 0 x x.rows else setComp s p n
  | none => setComp s p n

theorem reconfigured_plain {p : Nat} {k n : Composer} (h : k.prop = none ∨ n.mode.getLsbD 1 = false ∨ k.mode.getLsbD 1 = true) :
    reconfigured s p k n = setComp s p n := by
  unfold reconfigured
  split
  next x hx =>
    refine if_neg fun ⟨hon, hoff⟩ => ?_
    rcases h with hnone | hoff' | hon'
    · cases hx.symm.trans hnone
    · exact Bool.eq_false_iff.1 hoff' hon
    · rw [hon'] at hoff; exact Bool.false_ne_true hoff
  next => rfl

theorem reconfigured_delegates {p : Nat} {k n : Composer} {x : Proposal} (hx : k.prop = some x) (hon : n.mode.getLsbD 1 = true)
    (hoff : k.mode.getLsbD 1 = false) : reconfigured s p k n = confirmRows (setComp s p n) p 0 x x.rows := by
  unfold reconfigured
  rw [hx]
  exact if_pos ⟨hon, by rw [hoff]; rfl⟩

section
variable {k n : Composer} (h : Begun { op := 0x0801, need := 48, part := some 0 } c s a) (hb : b = settle c a)
include h hb

theorem stepConfig_noRows (hrows : (parseComp (compOf b (p8 c 0)) (body c)).maxRows = 0) :
    exec (.stepConfig c) s = .next (complete b c St.invalidField []) :=
  serving_ends (.refl (execStepConfig c s)) h hb (checked_head (by simp [hrows]))

theorem stepConfig_completes (hk : k = compOf b (p8 c 0)) (hn : n = parseComp k (body c)) (hp : p8 c 0 ≤ 3) (hrows : 1 ≤ n.maxRows)
    (hrows' : n.maxRows ≤ 512) (hbudget : 1 ≤ n.budget) (hbudget' : n.budget ≤ 65536)
    (hride : n.mode.getLsbD 0 = false ∨ n.ride ≤ n.budget) (hchunk : 1 ≤ n.chunk) (hchunk' : n.chunk ≤ 65536) (hmodel : n.model ≤ 15)
    (htally : n.tally < 16384) (hbuf : n.hostBuf % 4096 = 0) (hbatch : n.batch % 65536 = 0) (hprog : isDpa n.program = true)
    (hbatch' : isDpa n.batch = true) (hfast : fastArea b (some (p8 c 0)) n.program 64 = true)
    (hfast' : fastArea b (some (p8 c 0)) n.batch 65536 = true)
    (hsame : k.enabled = false ∨ (k.model = n.model ∧ k.program = n.program ∧ k.hostBuf = n.hostBuf ∧ k.batch = n.batch)) :
    Completes (.stepConfig c) c s (reconfigured b (p8 c 0) k n) [] := by
  have hride' : n.mode.getLsbD 0 = true → n.ride ≤ n.budget := fun hon => hride.resolve_left fun hoff => Bool.eq_false_iff.1 hoff hon
  have hkept : (k.enabled && (k.model != n.model || k.program != n.program || k.hostBuf != n.hostBuf || k.batch != n.batch)) = false := by
    rcases hsame with hoff | ⟨hm, hpr, hh, hba⟩
    · rw [hoff]; rfl
    · simp [hm, hpr, hh, hba]
  subst hk hn
  refine serving_completes (.refl (execStepConfig c s)) h hb
    ((checked_tail ?fields).trans ((checked_tail ?addresses).trans ((checked_tail ?areas).trans ((checked_tail hkept).trans rfl))))
  case fields =>
    simpa [hp, hrows', hbudget', hchunk', hmodel, htally, Nat.ne_of_gt hrows, Nat.ne_of_gt hbudget, Nat.ne_of_gt hchunk] using hride'
  case addresses => simp [hbuf, hbatch, hprog, hbatch']
  case areas => simp [hfast, hfast']

end

/-! ### STEP_CONTROL (R283, log 45) -/

section
variable {v : State} {l : LogitsArea} {d : List Byte} (h : Begun { op := 0x0803, need := 2, part := some 0 } c s a)
  (hb : b = settle c a) (hp : p8 c 0 ≤ 3)
include h hb hp

section
variable (hact : p8 c 1 = 1)
include hact

/-- ENABLE answers by its own checks. -/
theorem stepControl_enables {t : State} {st : Nat} (he : enableComp b (p8 c 0) = .done st [] t) :
    exec (.stepControl c) s = .next (complete t c st []) :=
  serving_ends (.refl (execStepControl c s)) h hb ((if_neg (by omega)).trans ((if_pos hact).trans he))

theorem stepControl_unconfigured (hconf : (compOf b (p8 c 0)).configured = false) :
    exec (.stepControl c) s = .next (complete b c St.stepProgram []) :=
  stepControl_enables h hb hp hact (if_pos (by rw [hconf]; rfl))

theorem stepControl_enabled (hconf : (compOf b (p8 c 0)).configured = true)
    (hprog : programAt b (p8 c 0) (compOf b (p8 c 0)).program = (some d, v)) (hdpas : programDpas d = true)
    (harea : mfind v.flo.areas (p8 c 0) = some l) (hfast : fastArea v (some (p8 c 0)) l.area (l.stride * l.vectors) = true)
    (hoff : (compOf b (p8 c 0)).enabled = false) (hrun : (compOf b (p8 c 0)).run = none)
    (hidle : [28, 29, 30, 31].any (fun q => !queueIdle (queueOf v (p8 c 0) q)) = false)
    (halone : v.stp.comps.any (fun x => x.1 != p8 c 0 && x.2.enabled && x.2.model == (compOf b (p8 c 0)).model) = false) :
    Completes (.stepControl c) c s (setComp v (p8 c 0) { compOf b (p8 c 0) with
      enabled := true, suspended := false, last := 0, prop := none, atBoundary := false }) [] := by
  refine stepControl_enables h hb hp hact ((if_neg (by simp [hconf])).trans ?_)
  simp only [hprog]
  refine (checked_tail ?dpas).trans ((checked_tail ?layout).trans ((checked_tail ?free).trans rfl))
  case dpas => rw [hdpas]; rfl
  case layout => simp only [harea, hfast, Bool.not_true]
  case free => rw [hoff, hrun, hidle, halone]; rfl

end

theorem stepControl_queries (hact : p8 c 1 = 4) :
    Completes (.stepControl c) c s b ([BitVec.ofNat 8 (compState (compOf b (p8 c 0))), 0, 0, 0] ++ leBytes 4 (compOf b (p8 c 0)).last) :=
  serving_completes (.refl (execStepControl c s)) h hb ((if_neg (by omega)).trans ((if_neg (by omega)).trans (if_pos hact)))

theorem stepControl_disabled (hact : p8 c 1 = 2 ∨ p8 c 1 = 3) (hoff : (compOf b (p8 c 0)).enabled = false) :
    exec (.stepControl c) s = .next (complete b c St.stepDisabled []) :=
  serving_ends (.refl (execStepControl c s)) h hb
    ((if_neg (by omega)).trans ((if_neg (by omega)).trans ((if_neg (by omega)).trans (if_pos (by rw [hoff]; rfl)))))

section
variable (hon : (compOf b (p8 c 0)).enabled = true)
include hon

theorem stepControl_resumes (hact : p8 c 1 = 3) :
    Completes (.stepControl c) c s (setComp b (p8 c 0) { compOf b (p8 c 0) with suspended := false }) [] :=
  serving_completes (.refl (execStepControl c s)) h hb
    ((if_neg (by omega)).trans ((if_neg (by omega)).trans ((if_neg (by omega)).trans ((if_neg (by simp [hon])).trans (if_neg (by omega))))))

section
variable (hact : p8 c 1 = 2)
include hact

theorem stepControl_disables (hrun : (compOf b (p8 c 0)).run = none) :
    Completes (.stepControl c) c s (setComp b (p8 c 0) { compOf b (p8 c 0) with enabled := false, prop := none, check := none }) [] :=
  serving_completes (.refl (execStepControl c s)) h hb ((if_neg (by omega)).trans ((if_neg (by omega)).trans ((if_neg (by omega)).trans
    ((if_neg (by simp [hon])).trans ((if_pos hact).trans (if_neg (by simp [hrun])))))))

theorem stepControl_waits {r : RunStep} (hrun : (compOf b (p8 c 0)).run = some r) :
    Waits (.stepControl c) 0x0803 c s (setComp b (p8 c 0) { compOf b (p8 c 0) with enabled := false, prop := none, check := none })
      (.disable (p8 c 0)) :=
  serving_waits (sp := { op := 0x0803, need := 2, part := some 0 }) (.refl (execStepControl c s)) h hb
    ((if_neg (by omega)).trans ((if_neg (by omega)).trans ((if_neg (by omega)).trans ((if_neg (by simp [hon])).trans
      ((if_pos hact).trans (if_pos (by rw [hrun]; rfl)))))))

end
end
end

/-! ### STEP_CONFIRM (R292, log 63) -/

/-- A confirmation of the outstanding step's number, by a composer without DELEGATED, is not stale. -/
theorem confirm_notStale {k : Composer} {x : Proposal} {no : Nat} (hno : x.no = no) (hmode : k.mode.getLsbD 1 = false) :
    ¬ (x.no ≠ no ∨ k.mode.getLsbD 1 = true) :=
  fun hstale => hstale.elim (fun hne => hne hno) (Bool.eq_false_iff.1 hmode)

section
variable {p : Nat} {x : Proposal}
  (h : Begun { op := 0x0802, need := 5, long := fun c => p8 c 4 == 1, full := fun _ c => if p8 c 4 = 1 then 64 + 16 * p16 c 6 else 0 } c s a)
  (hb : b = settle c a)
include h hb

theorem stepConfirm_noPartition (hact : p8 c 4 ≤ 2) (hp : confirmPart b c = none) :
    exec (.stepConfirm c) s = .next (complete b c St.stepStale []) := by
  refine serving_ends (.refl (execStepConfirm c s)) h hb ((if_neg (Nat.not_lt.2 hact)).trans ?_)
  simp only [hp]

section
variable (hp : confirmPart b c = some p)
include hp

theorem stepConfirm_stale (hact : p8 c 4 ≤ 2)
    (hother : (compOf b p).prop = none ∨ ∃ x, (compOf b p).prop = some x ∧ x.no ≠ p32 c 0) :
    exec (.stepConfirm c) s = .next (complete b c St.stepStale []) := by
  refine serving_ends (.refl (execStepConfirm c s)) h hb ((if_neg (Nat.not_lt.2 hact)).trans ?_)
  rcases hother with hnone | ⟨x, hx, hno⟩
  · simp only [hp, hnone]
  · simp only [hp, hx]
    exact if_pos (.inl hno)

section
variable (hx : (compOf b p).prop = some x) (hno : x.no = p32 c 0) (hmode : (compOf b p).mode.getLsbD 1 = false)
include hx hno hmode

theorem stepConfirm_runs (hact : p8 c 4 = 0) : Completes (.stepConfirm c) c s (confirmRows b p 0 x x.rows) [] := by
  refine serving_completes (.refl (execStepConfirm c s)) h hb ((if_neg (by omega)).trans ?_)
  simp only [hp, hx]
  exact (if_neg (confirm_notStale hno hmode)).trans (if_pos hact)

section
variable (hact : p8 c 4 = 1)
include hact

theorem stepConfirm_amends {l : List Row} (hl : amended b p x c = some l) :
    Completes (.stepConfirm c) c s (confirmRows b p 1 x l) [] := by
  refine serving_completes (.refl (execStepConfirm c s)) h hb ((if_neg (by omega)).trans ?_)
  simp only [hp, hx, hl]
  exact (if_neg (confirm_notStale hno hmode)).trans ((if_neg (by omega)).trans (if_pos hact))

theorem stepConfirm_notAmended (hl : amended b p x c = none) : exec (.stepConfirm c) s = .next (complete b c St.stepAmend []) := by
  refine serving_ends (.refl (execStepConfirm c s)) h hb ((if_neg (by omega)).trans ?_)
  simp only [hp, hx, hl]
  exact (if_neg (confirm_notStale hno hmode)).trans ((if_neg (by omega)).trans (if_pos hact))

end

theorem stepConfirm_discards (hact : p8 c 4 = 2) :
    Completes (.stepConfirm c) c s
      (blot (setComp b p { compOf b p with prop := none, atBoundary := true }) (compUnit p) 0x21 (some p) (x.no + 8589934592)) [] := by
  refine serving_completes (.refl (execStepConfirm c s)) h hb ((if_neg (by omega)).trans ?_)
  simp only [hp, hx]
  exact (if_neg (confirm_notStale hno hmode)).trans ((if_neg (by omega)).trans (if_neg (by omega)))

end
end
end

/-! ### STEP_WATCHDOG_SET and REQ_LATENCY (R299, R302) -/

section
variable (h : Begun { op := 0x0804, need := 6, part := some 0 } c s a) (hb : b = settle c a) (hp : p8 c 0 ≤ 3)
include h hb hp

theorem stepWatchdogSet_completes (hheld : holds b (mkRes 5 (p8 c 0)) 1 c.fn = true) :
    Completes (.stepWatchdogSet c) c s (setComp b (p8 c 0) { compOf b (p8 c 0) with confLimit := p16 c 2, runLimit := p16 c 4 }) [] :=
  serving_completes (.refl (execStepWatchdogSet c s)) h hb ((checked_tail (by simpa using hp)).trans (checked_tail (by simpa using hheld)))

theorem stepWatchdogSet_unclaimed (hheld : holds b (mkRes 5 (p8 c 0)) 1 c.fn = false) :
    exec (.stepWatchdogSet c) s = .next (complete b c St.notClaimed []) :=
  serving_ends (.refl (execStepWatchdogSet c s)) h hb ((checked_tail (by simpa using hp)).trans (checked_head (by simpa using hheld)))

end

theorem reqLatency_completes {l : LatRec} (h : Begun { op := 0x0805, need := 4, refuse := foreignReq } c s a) (hb : b = settle c a)
    (hs : stale b (p32 c 0) = false) (hst : (reqOf b (p32 c 0 % 4096)).st ≠ 0) (hl : l = mget {} b.srv.lat (p32 c 0 % 4096)) :
    Completes (.reqLatency c) c s b ([BitVec.ofNat 8 (b2n l.ttftJudged + 2 * b2n l.ttftMissed), 0] ++ leBytes 2 l.cut ++
      leBytes 4 l.judged ++ leBytes 4 l.late ++ leBytes 4 l.worst) := by
  subst hl
  exact req_completes (.refl (execReqLatency c s)) h hb hs rfl (if_neg hst)

/-! ### FRAME_SLOT_CONFIG and FRAME_POST (R303, R304) -/

section
variable {f : FrameSlot} (h : Begun { op := 0x0806, need := 37, part := some 2 } c s a) (hb : b = settle c a)
include h hb

theorem frameSlotConfig_completes (hf : f = parseSlot (body c)) (hn : p16 c 0 ≤ 1023) (hp : f.part ≤ 3)
    (hmin : 2 ≤ f.buffers) (hmax : f.buffers ≤ 8) (hstride : f.stride ≠ 0) (hal : f.stride % 4096 = 0) (hd : isDpa f.base = true)
    (htally : f.tally < 16384) (hmask : (partOf b f.part).mask.getLsbD (tallyQuad f.tally) = true) (hlines : 1 ≤ f.lineBudget)
    (hlines' : f.lineBudget ≤ 4096) (hlargest : 1 ≤ f.largest) (hlargest' : f.largest ≤ 4096)
    (hfast : fastArea b none f.base (f.stride * f.buffers) = true) (hfree : slotUsed b (p16 c 0) = false) :
    Completes (.frameSlotConfig c) c s (tallySet (setSlot b (p16 c 0) f) f.tally 0 true 0x9000 (cmdPart c)) [] := by
  subst hf
  refine serving_completes (.refl (execFrameSlotConfig c s)) h hb ((checked_tail ?address).trans ((checked_tail ?fields).trans rfl))
  case address => rw [hd]; rfl
  case fields =>
    simp [hn, hp, Nat.lt_of_succ_le hmin, hmax, hstride, hal, htally, hmask, hlines', hlargest', hfast, hfree,
      Nat.ne_of_gt hlines, Nat.ne_of_gt hlargest]

theorem frameSlotConfig_fewBuffers (hd : isDpa (parseSlot (body c)).base = true) (hfew : (parseSlot (body c)).buffers < 2) :
    exec (.frameSlotConfig c) s = .next (complete b c St.slotInvalid []) :=
  serving_ends (.refl (execFrameSlotConfig c s)) h hb ((checked_tail (by rw [hd]; rfl)).trans (checked_head (by simp [hfew])))

end

section
variable {f : FrameSlot} (h : Begun { op := 0x0807, need := 2, refuse := foreignSlot } c s a) (hb : b = settle c a)
include h hb

theorem framePost_completes (hf : mfind b.stp.slots (p16 c 0) = some f) (hup : underReset b (tallyQuad f.tally) = false) :
    Completes (.framePost c) c s (tallySignalAt b c.stamp f.tally 1 false 0x9000 (cmdPart c)) [] := by
  refine serving_completes (.refl (execFramePost c s)) h hb ?_
  simp only [hf]
  exact if_neg (by simp [hup])

theorem framePost_noSlot (hf : mfind b.stp.slots (p16 c 0) = none) : exec (.framePost c) s = .next (complete b c St.slotInvalid []) := by
  refine serving_ends (.refl (execFramePost c s)) h hb ?_
  simp only [hf]

end

/-! ### EXPERT_CONFIG, EXPERT_BIAS_SET and EXPERT_QUERY (R308, R311) -/

section
variable {x : Expert} (h : Begun { op := 0x0808, need := 40 } c s a) (hb : b = settle c a)
include h hb

theorem expertConfig_completes (hx : x = parseExpert (body c)) (hm : p8 c 0 ≤ 15) (hmin : 1 ≤ x.experts)
    (hmax : x.experts ≤ 256) (hcap : 1 ≤ x.cap) (hcap' : x.cap ≤ 4096) (hk : x.k ≠ 0) (hloop : x.loop ≤ 2) (hd : isDpa x.bias = true)
    (hd' : isDpa x.counter = true) (hfast : fastArea b none x.bias (4 * x.experts) = true)
    (hatomic : atomicArea b x.counter (8 * x.experts) = true)
    (hroom : b.stp.experts.length < 1024 ∨ (mfind b.stp.experts (expertKey (p8 c 0) (p8 c 1))).isSome = true) :
    Completes (.expertConfig c) c s { b with stp.experts := mput b.stp.experts (expertKey (p8 c 0) (p8 c 1)) x } [] := by
  subst hx
  refine serving_completes (.refl (execExpertConfig c s)) h hb
    ((checked_tail ?addresses).trans ((checked_tail ?shape).trans ((checked_tail ?room).trans rfl)))
  case addresses => rw [hd, hd']; rfl
  case shape => simp [hm, hmax, hcap', hk, hloop, hfast, hatomic, Nat.ne_of_gt hmin, Nat.ne_of_gt hcap]
  case room =>
    rcases hroom with hshort | hthere
    · rw [decide_eq_false (Nat.not_le.2 hshort), Bool.and_false]
    · rw [Option.isNone_eq_false_iff.2 hthere, Bool.false_and]

theorem expertConfig_noExperts (hd : isDpa (parseExpert (body c)).bias = true) (hd' : isDpa (parseExpert (body c)).counter = true)
    (hnone : (parseExpert (body c)).experts = 0) : exec (.expertConfig c) s = .next (complete b c St.expertShape []) :=
  serving_ends (.refl (execExpertConfig c s)) h hb ((checked_tail (by rw [hd, hd']; rfl)).trans (checked_head (by simp [hnone])))

end

section
variable {x : Expert} (h : Begun { op := 0x0809, need := 64, ext := true, full := biasLen } c s a) (hb : b = settle c a)
  (hx : mfind b.stp.experts (expertKey (p8 c 0) (p8 c 1)) = some x)
include h hb hx

theorem expertBiasSet_completes (hrun : stepRuns b (p8 c 0) = false) : Completes (.expertBiasSet c) c s (applyBias b c) [] := by
  refine serving_completes (.refl (execExpertBiasSet c s)) h hb ?_
  simp only [hx]
  exact if_neg (by simp [hrun])

theorem expertBiasSet_waits (hrun : stepRuns b (p8 c 0) = true) :
    Waits (.expertBiasSet c) 0x0809 c s { b with stp.biasWait := b.stp.biasWait ++ [c] } (.biasSet (expertKey (p8 c 0) (p8 c 1))) := by
  refine serving_waits (sp := { op := 0x0809, need := 64, ext := true, full := biasLen }) (.refl (execExpertBiasSet c s)) h hb ?_
  simp only [hx]
  exact if_pos hrun

end

section
variable (h : Begun { op := 0x080A, need := 16 } c s a) (hb : b = settle c a)
include h hb

theorem expertQuery_noLayer (hx : mfind b.stp.experts (expertKey (p8 c 0) (p8 c 1)) = none) :
    exec (.expertQuery c) s = .next (complete b c St.expertShape []) := by
  refine serving_ends (.refl (execExpertQuery c s)) h hb ?_
  simp only [hx]

theorem expertQuery_completes {x : Expert} {u v : State} {biases counts d : List Byte}
    (hx : mfind b.stp.experts (expertKey (p8 c 0) (p8 c 1)) = some x)
    (hbias : readBytes b .device x.bias (4 * x.experts) 0 = (St.ok, biases, false, u))
    (hcount : readBytes u .device x.counter (8 * x.experts) 0 = (St.ok, counts, false, v)) (hd : d = leBytes 4 x.steps ++ biases ++ counts)
    (hw : hostOk v (p64 c 8) d.length = true) : Completes (.expertQuery c) c s (hostStore v (p64 c 8) d) [] := by
  subst hd
  refine serving_completes (.refl (execExpertQuery c s)) h hb ?_
  simp only [hx, hbias, hcount]
  exact (if_neg fun hne => hne rfl).trans ((if_neg fun hne => hne rfl).trans ((if_neg Bool.false_ne_true).trans (reportTo_ok hw)))

end
end

/-- Settles O49: each row by its checks, in the state that the due expiries leave. -/
theorem stepCommandRows : Obligations.StepCommandRows := by
  refine ⟨?stores, ?delegates, fun _ _ _ _ => stepConfig_noRows, fun _ _ _ _ => stepControl_unconfigured,
    fun _ _ _ _ _ _ _ => stepControl_enabled, ?waits, ?disables, ?resumes, fun _ _ _ _ => stepControl_queries,
    fun _ _ _ _ => stepControl_disabled, ?runs, ?amends, ?notAmended, ?discards, ?stale, ?noPartition,
    fun _ _ _ _ => stepWatchdogSet_completes, fun _ _ _ _ => stepWatchdogSet_unclaimed, fun _ _ _ _ _ => reqLatency_completes,
    fun _ _ _ _ _ => frameSlotConfig_completes, fun _ _ _ _ => frameSlotConfig_fewBuffers, fun _ _ _ _ _ => framePost_completes,
    fun _ _ _ _ => framePost_noSlot, fun _ _ _ _ _ => expertConfig_completes, fun _ _ _ _ => expertConfig_noExperts,
    fun _ _ _ _ _ => expertBiasSet_completes, fun _ _ _ _ _ => expertBiasSet_waits, ?query, fun _ _ _ _ => expertQuery_noLayer⟩
  case stores =>
    intro c s a b k n h hb hk hn hp hr hr' hg hg' hride hc hc' hm ht hbuf hba hpr hba' hf hf' hsame hprop
    rw [← reconfigured_plain hprop]
    exact stepConfig_completes h hb hk hn hp hr hr' hg hg' hride hc hc' hm ht hbuf hba hpr hba' hf hf' hsame
  case delegates =>
    intro c s a b k n x h hb hk hn hp hr hr' hg hg' hride hc hc' hm ht hbuf hba hpr hba' hf hf' hsame hx hon hoff
    rw [← reconfigured_delegates hx hon hoff]
    exact stepConfig_completes h hb hk hn hp hr hr' hg hg' hride hc hc' hm ht hbuf hba hpr hba' hf hf' hsame
  case waits => exact fun _ _ _ _ _ h hb hp hact hon => stepControl_waits h hb hp hon hact
  case disables => exact fun _ _ _ _ h hb hp hact hon => stepControl_disables h hb hp hon hact
  case resumes => exact fun _ _ _ _ h hb hp hact hon => stepControl_resumes h hb hp hon hact
  case runs => exact fun _ _ _ _ _ _ h hb hact hp hx hno hmode => stepConfirm_runs h hb hp hx hno hmode hact
  case amends => exact fun _ _ _ _ _ _ _ h hb hact hp hx hno hmode => stepConfirm_amends h hb hp hx hno hmode hact
  case notAmended => exact fun _ _ _ _ _ _ h hb hact hp hx hno hmode => stepConfirm_notAmended h hb hp hx hno hmode hact
  case discards => exact fun _ _ _ _ _ _ h hb hact hp hx hno hmode => stepConfirm_discards h hb hp hx hno hmode hact
  case stale => exact fun _ _ _ _ _ h hb hact hp => stepConfirm_stale h hb hp hact
  case noPartition => exact fun _ _ _ _ h hb => stepConfirm_noPartition h hb
  case query =>
    intro c s a b v x d h hb hx hst hpoison hst' hpoison' hv hd hw
    have hcount := clean_read hst' rfl hpoison'
    rw [← hv] at hcount
    exact expertQuery_completes h hb hx (clean_read hst rfl hpoison) hcount hd hw

end Sys2Proof.Machine
end

section
/-! PROOFS. The composer's own steps (spec/10): the check that has fallen due and the proposal it builds, the stages of a running step, and
the watchdog; then O50. -/

namespace Sys2Proof.Machine

section
variable {s u v w : State} {p : Nat}

/-! ### STEP_PROPOSAL (R283, R284, R293, log 62) -/

theorem exec_stepProposal (s : State) (p : Nat) : exec (.stepProposal p) s = execStepProposal p s := rfl

theorem stepProposal_notDue (hdue : checkDue s p = none) : exec (.stepProposal p) s = .next s := by
  simp only [exec_stepProposal, execStepProposal, hdue]

section
variable {S : Stamp} {cs l : List Cand}

theorem stepProposal_waits (hwaits : unitWaits s 8 p = true) : exec (.stepProposal p) s = .next s := by
  cases hdue : checkDue s p with
  | none => simp only [exec_stepProposal, execStepProposal, hdue]
  | some S => simp only [exec_stepProposal, execStepProposal, hdue, hwaits, if_true]

/-- Whether the composer may propose does not rest on its check. -/
theorem mayPropose_withoutCheck : mayPropose (compOf (setComp s p { compOf s p with check := none }) p) = mayPropose (compOf s p) := by
  rw [compOf_setComp]
  rfl

section
variable (hdue : checkDue s p = some S) (hfree : unitWaits s 8 p = false)
include hdue hfree

theorem stepProposal_notNow (hmay : mayPropose (compOf s p) = false) :
    exec (.stepProposal p) s = .next (setComp s p { compOf s p with check := none }) := by
  simp only [exec_stepProposal, execStepProposal, hdue, hfree, mayPropose_withoutCheck, hmay,
    Bool.false_eq_true, if_false, Bool.not_false, if_true]

section
variable (hmay : mayPropose (compOf s p) = true)
  (hu : u = expireAll (setComp s p { compOf s p with check := none })) (hcands : candidatesAt u p (compOf u p) S = (cs, v))
include hmay hu hcands

/-- The check builds a proposal of the candidates that have their slot, if there are any. -/
theorem stepProposal_checks (hslots : faultSlotless p cs.length cs v = (l, w)) :
    exec (.stepProposal p) s = .next (if l.isEmpty then w else propose w p S l) := by
  subst hu
  simp only [exec_stepProposal, execStepProposal, hdue, hfree, mayPropose_withoutCheck, hmay, hcands, hslots,
    Bool.false_eq_true, if_false, Bool.not_true]
  cases l with
  | nil => rfl
  | cons x l => rfl

end
end

theorem compOf_of_stp {t : State} (h : t.stp = s.stp) (p : Nat) : compOf t p = compOf s p := by
  unfold compOf
  rw [h]

theorem compOf_prog (s : State) (unit event n p : Nat) (part cls : Option Nat) : compOf (prog s unit event part cls n) p = compOf s p :=
  compOf_of_stp (prog_stp ..) p

theorem compOf_blot (s : State) (unit code arg p : Nat) (part : Option Nat) : compOf (blot s unit code part arg) p = compOf s p :=
  compOf_of_stp (blot_stp ..) p

theorem compOf_post (s : State) (code part p : Nat) (d : List Byte) (droppable : Bool) :
    compOf (post s code part d droppable) p = compOf s p :=
  compOf_of_stp (post_stp ..) p

/-- A composer that is not DELEGATED keeps its new proposal, with the next number and the check's stamp, until it is confirmed. -/
theorem propose_outstanding (hmode : (compOf s p).mode.getLsbD 1 = false) :
    ∃ x, (compOf (propose s p S l) p).prop = some x ∧ x.no = nextStepNo (compOf s p).last ∧ x.stamp = S ∧
      (compOf (propose s p S l) p).last = x.no ∧ (compOf (propose s p S l) p).run = (compOf s p).run := by
  unfold propose
  simp only [hmode, Bool.false_eq_true, if_false, compOf_post, compOf_blot, compOf_prog, compOf_setComp, and_true]
  exact ⟨_, rfl, rfl, rfl, rfl⟩

end

/-! ### STEP_RUN_ADVANCE (R295, R298, log 66) -/

theorem exec_stepRunAdvance (s : State) (p : Nat) : exec (.stepRunAdvance p) s = execStepRunAdvance p s := rfl

theorem stepRunAdvance_noStep (hrun : (compOf s p).run = none) : exec (.stepRunAdvance p) s = .next s := by
  simp only [exec_stepRunAdvance, execStepRunAdvance, hrun]

theorem stepRunAdvance_waits (hwaits : unitWaits s 8 p = true) : exec (.stepRunAdvance p) s = .next s := by
  cases hrun : (compOf s p).run with
  | none => exact stepRunAdvance_noStep hrun
  | some r => simp only [exec_stepRunAdvance, execStepRunAdvance, hrun, hwaits, if_true]

section
variable {q st : Nat} {r : RunStep} (hrun : (compOf s p).run = some r) (hfree : unitWaits s 8 p = false)
include hrun hfree

theorem stepRunAdvance_fails (hbad : badQueue s p = some (q, st)) : exec (.stepRunAdvance p) s = .next (discardStep s p q st) := by
  simp only [exec_stepRunAdvance, execStepRunAdvance, hrun, hfree, hbad, stepHalt,
    Bool.false_eq_true, if_false, Option.isSome_some, if_true]

section
variable (hgood : badQueue s p = none)
include hgood

theorem stepRunAdvance_busy (hq : q ∈ [28, 29, 30, 31]) (hbusy : queueIdle (queueOf s p q) = false) :
    exec (.stepRunAdvance p) s = .next s := by
  have hany : [28, 29, 30, 31].any (fun q => !queueIdle (queueOf s p q)) = true := List.any_eq_true.2 ⟨q, hq, by rw [hbusy]; rfl⟩
  simp only [exec_stepRunAdvance, execStepRunAdvance, hrun, hfree, hgood, hany,
    Bool.false_eq_true, if_false, Option.isSome_none, if_true]

/-- A step whose queues are idle goes to the next of its stages. -/
theorem stepRunAdvance_idle (hidle : [28, 29, 30, 31].all (fun q => queueIdle (queueOf s p q)) = true) :
    exec (.stepRunAdvance p) s = .next (
      if r.phase = 0 then submitProgram s p
      else if r.phase = 1 then (if (folds s p).isEmpty then submitEnd s p r else queueSummary (setPhase s p 2) p)
      else if r.phase = 2 ∧ (folds s p).isEmpty then submitEnd s p r
      else s) := by
  have hnone : [28, 29, 30, 31].any (fun q => !queueIdle (queueOf s p q)) = false := by
    rw [List.any_eq_not_all_not]
    simpa using hidle
  simp only [exec_stepRunAdvance, execStepRunAdvance, hrun, hfree, hgood, hnone, Bool.false_eq_true, if_false, Option.isSome_none]

section
variable (hidle : [28, 29, 30, 31].all (fun q => queueIdle (queueOf s p q)) = true)
include hidle

theorem stepRunAdvance_program (hphase : r.phase = 0) : exec (.stepRunAdvance p) s = .next (submitProgram s p) := by
  rw [stepRunAdvance_idle hrun hfree hgood hidle, if_pos hphase]

theorem stepRunAdvance_summary (hphase : r.phase = 1) (hfolds : folds s p ≠ []) :
    exec (.stepRunAdvance p) s = .next (queueSummary (setPhase s p 2) p) := by
  rw [stepRunAdvance_idle hrun hfree hgood hidle, if_neg (by omega), if_pos hphase, if_neg (mt List.isEmpty_iff.1 hfolds)]

theorem stepRunAdvance_end (hphase : r.phase = 1 ∨ r.phase = 2) (hfolds : folds s p = []) :
    exec (.stepRunAdvance p) s = .next (submitMark (setPhase s p 3) p 0x0B 0x7FC0 r.no) := by
  have hempty : (folds s p).isEmpty = true := List.isEmpty_iff.2 hfolds
  rw [stepRunAdvance_idle hrun hfree hgood hidle, if_neg (by omega)]
  rcases hphase with hprogram | hsummary
  · rw [if_pos hprogram, if_pos hempty, submitEnd]
  · rw [if_neg (by omega), if_pos ⟨hsummary, hempty⟩, submitEnd]

end
end
end

/-! ### STEP_WATCHDOG (R299) -/

theorem exec_stepWatchdog (s : State) (p : Nat) : exec (.stepWatchdog p) s = execStepWatchdog p s := rfl

theorem stepWatchdog_noStep (hprop : (compOf s p).prop = none) (hrun : (compOf s p).run = none) : exec (.stepWatchdog p) s = .next s := by
  simp only [exec_stepWatchdog, execStepWatchdog, hprop, hrun]

section
variable {x : Proposal} (hprop : (compOf s p).prop = some x)
include hprop

/-- While a proposal is outstanding, the watchdog compares its age with the limit of the confirmation. -/
theorem stepWatchdog_proposed : exec (.stepWatchdog p) s = .next (
    if (compOf s p).confLimit ≠ 0 ∧ (stamp s).toNat - x.since.toNat > (compOf s p).confLimit * 65536 ∧ !x.posted then
      watchdogEvent (setComp s p { compOf s p with prop := some { x with posted := true } }) p x.no 0
        (((stamp s).toNat - x.since.toNat) / 65536)
    else s) := by
  simp only [exec_stepWatchdog, execStepWatchdog, hprop]

theorem stepWatchdog_unconfirmed (hlimit : (compOf s p).confLimit ≠ 0)
    (hlate : (compOf s p).confLimit * 65536 < (stamp s).toNat - x.since.toNat) (hnew : x.posted = false) :
    exec (.stepWatchdog p) s = .next (watchdogEvent (setComp s p { compOf s p with prop := some { x with posted := true } }) p x.no 0
      (((stamp s).toNat - x.since.toNat) / 65536)) := by
  rw [stepWatchdog_proposed hprop, if_pos ⟨hlimit, hlate, by rw [hnew]; rfl⟩]

theorem stepWatchdog_proposalPosted (hposted : x.posted = true) : exec (.stepWatchdog p) s = .next s := by
  rw [stepWatchdog_proposed hprop, if_neg (by simp [hposted])]

end

section
variable {x : RunStep} (hprop : (compOf s p).prop = none) (hrun : (compOf s p).run = some x)
include hprop hrun

/-- While a step runs, the watchdog compares its age with the limit of the run. -/
theorem stepWatchdog_running : exec (.stepWatchdog p) s = .next (
    if (compOf s p).runLimit ≠ 0 ∧ (stamp s).toNat - x.since.toNat > (compOf s p).runLimit * 65536 ∧ !x.posted then
      watchdogEvent (setComp s p { compOf s p with run := some { x with posted := true } }) p x.no 1
        (((stamp s).toNat - x.since.toNat) / 65536)
    else s) := by
  simp only [exec_stepWatchdog, execStepWatchdog, hprop, hrun]

theorem stepWatchdog_overrun (hlimit : (compOf s p).runLimit ≠ 0)
    (hlate : (compOf s p).runLimit * 65536 < (stamp s).toNat - x.since.toNat) (hnew : x.posted = false) :
    exec (.stepWatchdog p) s = .next (watchdogEvent (setComp s p { compOf s p with run := some { x with posted := true } }) p x.no 1
      (((stamp s).toNat - x.since.toNat) / 65536)) := by
  rw [stepWatchdog_running hprop hrun, if_pos ⟨hlimit, hlate, by rw [hnew]; rfl⟩]

theorem stepWatchdog_runPosted (hposted : x.posted = true) : exec (.stepWatchdog p) s = .next s := by
  rw [stepWatchdog_running hprop hrun, if_neg (by simp [hposted])]

end
end

/-- Settles O50: a check by whether it is due and what it finds, a running step by its queues and its stage, and the watchdog by the age of
what it watches. -/
theorem stepEventRows : Obligations.StepEventRows :=
  ⟨fun _ _ => stepProposal_notDue, fun _ _ => stepProposal_waits, fun _ _ _ => stepProposal_notNow,
    fun _ _ _ _ _ _ _ _ _ => stepProposal_checks, fun _ _ _ _ _ _ _ => stepProposal_checks, fun _ _ _ _ => propose_outstanding,
    fun _ _ => stepRunAdvance_waits, fun _ _ => stepRunAdvance_noStep, fun _ _ _ _ _ => stepRunAdvance_fails,
    fun _ _ _ _ => stepRunAdvance_busy, fun _ _ _ => stepRunAdvance_program, fun _ _ _ => stepRunAdvance_summary,
    fun _ _ _ => stepRunAdvance_end, fun _ _ _ => stepWatchdog_unconfirmed, fun _ _ _ => stepWatchdog_overrun,
    fun _ _ _ => stepWatchdog_proposalPosted, fun _ _ _ => stepWatchdog_runPosted, fun _ _ => stepWatchdog_noStep⟩

end Sys2Proof.Machine
end

section
/-! PROOFS. Flourish's commands (spec/11): what each answers in the state in which it begins, by its checks and, for a grammar table and a
probed vector, by what it reads; then O51. -/

namespace Sys2Proof.Machine

section
variable {c : Cmd} {s a : State}

/-! ### FLOURISH_CONFIG (R315) -/

section
variable {l : LogitsArea} (h : Begun { op := 0x0901, need := 24, part := some 0 } c s a)
include h

theorem flourishConfig_completes
    (hl : l = { format := p8 c 1, vocab := p32 c 4, area := p64 c 8, stride := p32 c 16, vectors := p32 c 20 }) (hp : p8 c 0 ≤ 3)
    (hformat : l.format ≤ 1) (hvocab : 1 ≤ l.vocab) (hvocab' : l.vocab ≤ 262144) (hpage : l.area % 4096 = 0) (hd : isDpa l.area = true)
    (hstride : l.stride % 64 = 0) (hfits : l.vocab * elemSize l.format ≤ l.stride) (hvectors : 1 ≤ l.vectors)
    (hvectors' : l.vectors ≤ 65536) (hfast : fastArea a (some (p8 c 0)) l.area (l.stride * l.vectors) = true)
    (hoff : composing a (p8 c 0) = false) :
    Completes (.flourishConfig c) c s { a with flo.areas := mput a.flo.areas (p8 c 0) l } [] := by
  subst hl
  refine completes_of rfl h ((checked_tail ?address).trans ((checked_tail ?layout).trans (checked_tail hoff)))
  case address => rw [hd]; rfl
  case layout =>
    simp [hp, hformat, hvocab', hpage, hstride, hfits, hvectors', hfast, Nat.ne_of_gt hvocab, Nat.ne_of_gt hvectors]

theorem flourishConfig_noVocabulary (hd : isDpa (p64 c 8) = true) (hnone : p32 c 4 = 0) :
    exec (.flourishConfig c) s = .next (complete a c St.flourishLayout []) :=
  ends_of rfl h ((checked_tail (by rw [hd]; rfl)).trans (checked_head (by simp [hnone])))

end

/-! ### GRAMMAR_LOAD (R329, R330) -/

/-- What GRAMMAR_LOAD answers once the whole table has been read: its rule R329, then its slot, decide. -/
def tableAnswer (c : Cmd) (w : State) (t : List Byte) : Answer :=
  if !grammarOk t then .done St.grammarFormat [] w
  else if (mfind w.flo.grammars (p8 c 0 * 64 + p8 c 1)).isSome then .done St.grammarBusy [] w
  else .done St.ok [] { w with flo.grammars := mput w.flo.grammars (p8 c 0 * 64 + p8 c 1) (p64 c 8) }

theorem grammarLoad_noSlot (h : Begun { op := 0x0902, need := 16, part := some 0 } c s a) (hslot : 64 ≤ p8 c 1) :
    exec (.grammarLoad c) s = .next (complete a c St.invalidField []) :=
  ends_of rfl h (checked_head (by simp [Nat.lt_of_succ_le hslot]))

section
variable {v w : State} {d t : List Byte} (h : Begun { op := 0x0902, need := 16, part := some 0 } c s a) (hp : p8 c 0 ≤ 3)
  (hslot : p8 c 1 ≤ 63) (hd : isDpa (p64 c 8) = true) (hfast : fastArea a (some (p8 c 0)) (p64 c 8) 64 = true)
  (hhead : readBytes a (.flourish (p8 c 0)) (p64 c 8) 64 0 = (St.ok, d, false, v))
  (hmin : 64 ≤ fieldN d 24 4) (hlen : fieldN d 24 4 = gLen d) (hfast' : fastArea v (some (p8 c 0)) (p64 c 8) (gLen d) = true)
  (htable : readBytes v (.flourish (p8 c 0)) (p64 c 8) (gLen d) 0 = (St.ok, t, false, w))
include h hp hslot hd hfast hhead hmin hlen hfast' htable

/-- Where the table can be placed and read, its contents and its slot decide. -/
theorem grammarLoad_judgesTable {u : State} {st : Nat} (ht : tableAnswer c w t = .done st [] u) :
    exec (.grammarLoad c) s = .next (complete u c st []) := by
  have hlen' : ¬(fieldN d 24 4 < 64 ∨ fieldN d 24 4 ≠ gLen d) := fun hbad => hbad.elim (Nat.not_lt.2 hmin) fun hne => hne hlen
  rw [← hlen] at hfast' htable
  refine ends_of rfl h ((checked_tail ?fields).trans ((checked_tail ?address).trans ((checked_tail ?placed).trans ?reads)))
  case fields => simp [hp, hslot]
  case address => rw [hd]; rfl
  case placed => rw [hfast]; rfl
  case reads =>
    refine Eq.trans ?_ ht
    simp only [hhead, htable, hlen', hfast', ne_eq, not_true_eq_false, Bool.not_true, Bool.false_eq_true, if_false]
    rfl

theorem grammarLoad_completes (hok : grammarOk t = true) (hfree : mfind w.flo.grammars (p8 c 0 * 64 + p8 c 1) = none) :
    Completes (.grammarLoad c) c s { w with flo.grammars := mput w.flo.grammars (p8 c 0 * 64 + p8 c 1) (p64 c 8) } [] :=
  grammarLoad_judgesTable h hp hslot hd hfast hhead hmin hlen hfast' htable (by simp [tableAnswer, hok, hfree])

theorem grammarLoad_malformed (hbad : grammarOk t = false) : exec (.grammarLoad c) s = .next (complete w c St.grammarFormat []) :=
  grammarLoad_judgesTable h hp hslot hd hfast hhead hmin hlen hfast' htable (if_pos (by rw [hbad]; rfl))

end

/-! ### GRAMMAR_UNLOAD (R330) -/

/-- A request of partition `p` names grammar slot `g`. -/
def slotNamed (s : State) (p g : Nat) : Bool := s.srv.reqs.any (fun r => r.2.st != 0 && r.2.part == p && r.2.gtable == g)

section
variable {d : Nat} (h : Begun { op := 0x0903, need := 2, part := some 0 } c s a) (hp : p8 c 0 ≤ 3) (hslot : p8 c 1 ≤ 63)
  (hloaded : mfind a.flo.grammars (p8 c 0 * 64 + p8 c 1) = some d)
include h hp hslot hloaded

/-- A slot that holds a table is given back or not as the requests that name it decide. -/
theorem grammarUnload_asksRequests {u : State} {st : Nat}
    (hf : checked [(slotNamed a (p8 c 0) (p8 c 1), St.grammarBusy)] a
      (.done St.ok [] { a with flo.grammars := mdel a.flo.grammars (p8 c 0 * 64 + p8 c 1) }) = .done st [] u) :
    exec (.grammarUnload c) s = .next (complete u c st []) :=
  ends_of rfl h ((checked_tail (by simp [hp, hslot])).trans ((checked_tail (by rw [hloaded]; rfl)).trans hf))

theorem grammarUnload_completes (hunused : slotNamed a (p8 c 0) (p8 c 1) = false) :
    Completes (.grammarUnload c) c s { a with flo.grammars := mdel a.flo.grammars (p8 c 0 * 64 + p8 c 1) } [] :=
  grammarUnload_asksRequests h hp hslot hloaded (checked_tail hunused)

theorem grammarUnload_busy (hused : slotNamed a (p8 c 0) (p8 c 1) = true) :
    exec (.grammarUnload c) s = .next (complete a c St.grammarBusy []) :=
  grammarUnload_asksRequests h hp hslot hloaded (checked_head hused)

end

/-! ### FLOURISH_PROBE (R321 to R328, R342) -/

/-- What FLOURISH_PROBE answers for what its vector gives, for a request of partition `p` whose grammar state is `g`. -/
def choiceAnswer (w : State) (p g : Nat) (x : WalkCtx) : Choice → Answer
  | .token t => .done St.ok (leBytes 4 t ++ leBytes 4 (grammarAfter x g (.token t))) w
  | .exhausted t => .done St.grammarExhausted (leBytes 4 t ++ leBytes 4 g) (floCount w p 6 1)
  | .invalid => .done St.logitsInvalid [] w

/-- The choice of the probed vector at position `pos`: by the request's parameters, counts, grammar state and seed. -/
def probeChoice (x : WalkCtx) (d : List Nat) (r : Req) (q : Sampling) (pos : Nat) : Choice :=
  choose d (fun t => x.counts.getD t 0) x.counted (x.grammar.map (fun t => (t, r.gstate))) q r.seed pos

/-- A vector that is read whole and without poison answers by its choice. -/
theorem probe_chooses {v u w : State} {e dpa pos : Nat} {l : LogitsArea} {q : Sampling} {r : Req} {x : WalkCtx} {d : List Nat}
    (hr : reqOf v e = r) (hread : vectorAt v r.part dpa l = (St.ok, d, false, u)) (hwalk : walkCtx u e q pos = (x, w)) :
    probe v e dpa pos l q = choiceAnswer w r.part r.gstate x (probeChoice x d r q pos) := by
  simp only [probe, probeChoice, hr, hread, hwalk, ne_eq, not_true_eq_false, Bool.false_eq_true, if_false]
  generalize choose d _ _ _ _ _ _ = y
  cases y <;> rfl

theorem flourishProbe_stale (h : Begun { op := 0x0904, need := 20, refuse := foreignReq } c s a) (hs : stale a (p32 c 0) = true) :
    exec (.flourishProbe c) s = .next (complete a c St.reqStale []) :=
  ends_of rfl h (checked_head hs)

section
variable {v u w : State} {r : Req} {l : LogitsArea} {q : Sampling} {x : WalkCtx} {d : List Nat} {t : Nat}
  (h : Begun { op := 0x0904, need := 20, refuse := foreignReq } c s a) (hs : stale a (p32 c 0) = false)
  (hr : r = reqOf a (p32 c 0 % 4096)) (hst : r.st ≠ 0) (hd : isDpa (p64 c 8) = true) (hl : mfind a.flo.areas r.part = some l)
  (hq : samplingCheck a r.part r.sampling r.counts = (some q, v)) (hr' : reqOf v (p32 c 0 % 4096) = r)
  (hread : vectorAt v r.part (p64 c 8) l = (St.ok, d, false, u)) (hwalk : walkCtx u (p32 c 0 % 4096) q (p32 c 16) = (x, w))
include h hs hr hst hd hl hq hr' hread hwalk

/-- A probe whose checks pass and whose reads succeed answers by the choice of its vector. -/
theorem flourishProbe_chooses {y : State} {st : Nat} {res : List Byte}
    (hy : choiceAnswer w r.part r.gstate x (probeChoice x d r q (p32 c 16)) = .done st res y) :
    exec (.flourishProbe c) s = .next (complete y c st res) := by
  refine ends_of rfl h ((checked_tail hs).trans ((checked_tail ?there).trans ((checked_tail ?address).trans ?probes)))
  case there => simpa [← hr] using hst
  case address => rw [hd]; rfl
  case probes =>
    simp only [← hr, hl, hq]
    exact (probe_chooses hr' hread hwalk).trans hy

theorem flourishProbe_token (ht : probeChoice x d r q (p32 c 16) = .token t) :
    exec (.flourishProbe c) s = .next (complete w c St.ok (leBytes 4 t ++ leBytes 4 (grammarAfter x r.gstate (.token t)))) :=
  flourishProbe_chooses h hs hr hst hd hl hq hr' hread hwalk (by rw [ht]; rfl)

theorem flourishProbe_exhausted (ht : probeChoice x d r q (p32 c 16) = .exhausted t) :
    exec (.flourishProbe c) s = .next (complete (floCount w r.part 6 1) c St.grammarExhausted (leBytes 4 t ++ leBytes 4 r.gstate)) :=
  flourishProbe_chooses h hs hr hst hd hl hq hr' hread hwalk (by rw [ht]; rfl)

theorem flourishProbe_noFiniteScore (hnone : probeChoice x d r q (p32 c 16) = .invalid) :
    exec (.flourishProbe c) s = .next (complete w c St.logitsInvalid []) :=
  flourishProbe_chooses h hs hr hst hd hl hq hr' hread hwalk (by rw [hnone]; rfl)

end

/-! ### FLOURISH_COUNTERS (R342) -/

/-- The report: the eight counts of partition `p`, 8 B each. -/
def floReport (s : State) (p : Nat) : List Byte := ((List.range 8).map (fun i => leBytes 8 (mget 0 s.flo.ctr (p * 8 + i)))).flatten

theorem floReport_length (s : State) (p : Nat) : (floReport s p).length = 64 :=
  length_flatten_of_all (List.range 8) fun _ => leBytes_length ..

theorem flourishCounters_completes (h : Begun { op := 0x0905, need := 16, part := some 0 } c s a) (hp : p8 c 0 ≤ 3)
    (hw : hostOk a (p64 c 8) 64 = true) :
    Completes (.flourishCounters c) c s (hostStore a (p64 c 8) (floReport a (p8 c 0))) [] := by
  rw [← floReport_length a (p8 c 0)] at hw
  exact completes_of rfl h ((checked_tail (by simpa using hp)).trans (reportTo_ok hw))

end

/-- Settles O51: each command by its checks, GRAMMAR_LOAD further by the table it reads and FLOURISH_PROBE by the choice of its vector. -/
theorem flourishRows : Obligations.FlourishRows :=
  ⟨fun _ _ _ _ => flourishConfig_completes, fun _ _ _ => flourishConfig_noVocabulary, fun _ _ _ _ _ _ _ => grammarLoad_completes,
    fun _ _ _ _ _ _ _ => grammarLoad_malformed, fun _ _ _ h _ => grammarLoad_noSlot h, fun _ _ _ _ => grammarUnload_completes,
    fun _ _ _ _ => grammarUnload_busy, fun _ _ _ _ _ _ _ _ _ _ _ _ => flourishProbe_token,
    fun _ _ _ _ _ _ _ _ _ _ _ _ => flourishProbe_exhausted, fun _ _ _ _ _ _ _ _ _ _ _ => flourishProbe_noFiniteScore,
    fun _ _ _ => flourishProbe_stale, fun _ _ _ => flourishCounters_completes⟩

end Sys2Proof.Machine
end

section
/-! PROOFS. The step and the queue (log 1): a step runs the front command, every command answers a next state, and none changes the
queue; then O1, O3 and O4. -/

namespace Sys2Proof.Machine

/-- The front command runs in the state that the queue's rest is left in. -/
theorem step_of_pending {c : Instr} {rest : List Instr} {s : State} (h : s.pending = c :: rest) :
    step s = exec c { s with pending := rest } := by
  simp only [step, h]

/-- Settles O1: a queue that is not empty has a front command. -/
theorem stepRunsFrontCommand : Obligations.StepRunsFrontCommand := fun _ _ _ => step_of_pending

/-- Settles O3: whatever its operands, each row's meaning is a next state, in which its errors are statuses, records or device states. -/
theorem everyCommandAnswersNext : Obligations.EveryCommandAnswersNext := by
  intro i s
  cases i <;> exact ⟨_, rfl⟩

/-- Settles O4: the queue is part of what every command keeps. -/
theorem commandKeepsQueue : Obligations.CommandKeepsQueue := fun i s t hs ht => by
  have hkept : OutKept s.pending (exec i s) := exec_kept i s (kept_of_wf hs)
  rw [ht] at hkept
  exact hkept.ok.queue

end Sys2Proof.Machine
end

section
/-! PROOFS. The events of a link (R348 to R355, R361, R362, R366, R367, R395): what the operations on a link leave of it, and then row by
row, by the condition that the row tests and the case that it meets; then O52. -/

namespace Sys2Proof.Machine

section
variable {s t u v : State} {l : Nat}

/-! ### Rows that test one condition -/

/-- A row that acts where its condition holds. -/
theorem next_if_pos {P : Prop} [Decidable P] (h : P) :
    (Host.Outcome.next (if P then t else u) : Host.Outcome State Fault Refusal) = .next t := congrArg _ (if_pos h)

/-- A row that acts where its condition fails. -/
theorem next_if_neg {P : Prop} [Decidable P] (h : ¬ P) :
    (Host.Outcome.next (if P then t else u) : Host.Outcome State Fault Refusal) = .next u := congrArg _ (if_neg h)

/-! ### What the operations on a link leave of it -/

@[simp] theorem linkOf_setLink (s : State) (l : Nat) (x : Link) : linkOf (setLink s l x) l = x := mget_mput ..

theorem linkOf_of_duc (h : t.duc = s.duc) (l : Nat) : linkOf t l = linkOf s l := by
  unfold linkOf
  rw [h]

@[simp] theorem linkOf_prog (s : State) (unit event n l : Nat) (part cls : Option Nat) :
    linkOf (prog s unit event part cls n) l = linkOf s l :=
  linkOf_of_duc (prog_duc ..) l

@[simp] theorem linkOf_blot (s : State) (unit code arg l : Nat) (part : Option Nat) : linkOf (blot s unit code part arg) l = linkOf s l :=
  linkOf_of_duc (blot_duc ..) l

@[simp] theorem linkOf_linkCount (s : State) (l i n : Nat) :
    linkOf (linkCount s l i n) l = { linkOf s l with ctr := (linkOf s l).ctr.set i ((linkOf s l).ctr.getD i 0 + n) } := linkOf_setLink ..

/-- A received flit is counted on its link, whose other fields stay (R379, R426). -/
theorem linkOf_countFlit (s : State) (l : Nat) (f : FlitIn) : ∃ c, linkOf (countFlit s l f) l = { linkOf s l with ctr := c } := by
  unfold countFlit
  simp only [linkOf_prog, linkOf_linkCount]
  exact ⟨_, rfl⟩

/-- A message that leaves its receive buffer changes only the buffer and the slots to be returned (R354). -/
theorem linkOf_freeMsg (s : State) (l : Nat) (m : Msg) :
    ∃ r n k, linkOf (freeMsg s l m) l = { linkOf s l with rx := r, used := n, toReturn := k } := ⟨_, _, _, linkOf_setLink ..⟩

/-! ### What changes only the links and the observation block -/

/-- `s` without its links and without what the units record of themselves. -/
def unlinked (s : State) : State := { s with duc := {}, obs := {} }

theorem eq_of_unlinked (h : unlinked t = unlinked s) : t = { s with duc := t.duc, obs := t.obs } :=
  congrArg (fun w : State => { w with duc := t.duc, obs := t.obs }) h

@[simp] theorem unlinked_setLink (s : State) (l : Nat) (x : Link) : unlinked (setLink s l x) = unlinked s := rfl

@[simp] theorem unlinked_linkCount (s : State) (l i n : Nat) : unlinked (linkCount s l i n) = unlinked s := rfl

@[simp] theorem unlinked_prog (s : State) (unit event n : Nat) (part cls : Option Nat) :
    unlinked (prog s unit event part cls n) = unlinked s := by
  refine foldl_keeps unlinked _ s fun t k => ?_
  dsimp only
  split <;> rfl

@[simp] theorem unlinked_blot (s : State) (unit code arg : Nat) (part : Option Nat) : unlinked (blot s unit code part arg) = unlinked s := by
  simp only [blot]
  split <;> rfl

@[simp] theorem unlinked_countFlit (s : State) (l : Nat) (f : FlitIn) : unlinked (countFlit s l f) = unlinked s := by simp [countFlit]

@[simp] theorem unlinked_sendBare (s : State) (l kind : Nat) (slots : List Byte) : unlinked (sendBare s l kind slots) = unlinked s := by
  simp [sendBare]

/-- A flit without messages takes the NAK and the credits with it (R351). -/
theorem linkOf_sendBare (s : State) (l kind : Nat) (slots : List Byte) :
    ∃ c o, linkOf (sendBare s l kind slots) l = { linkOf s l with nakSent := false, toReturn := [0, 0, 0], out := o, ctr := c } := by
  simp only [sendBare, linkOf_prog, linkOf_linkCount, linkOf_setLink]
  exact ⟨_, _, rfl⟩

/-! ### Training (R348, R349, R353) -/

theorem fecAlignmentLock_sendsInit (hl : l < 16) (hst : (linkOf s l).st = lkTraining) (ht : (linkOf s l).training = 1) :
    exec (.fecAlignmentLock l) s = .next (sendInit (setLink s l { linkOf s l with training := 3 }) l) :=
  next_if_pos ⟨hl, hst, ht⟩

theorem fecAlignmentLock_notTraining (hst : (linkOf s l).st ≠ lkTraining) : exec (.fecAlignmentLock l) s = .next s :=
  next_if_neg fun h => hst h.2.1

section
variable {f : FlitIn} (hl : l < 16)
include hl

/-- A LINK_INIT flit that reaches a link which is not fenced. -/
theorem linkInit_arrives (hr : receives (linkOf s l) = true) (hst : (linkOf s l).st ≠ lkFenced) (hk : fieldN f.bytes 0 1 = 2) :
    exec (.linkInit l f) s = .next (initArrives (countFlit s l f) l f) :=
  next_if_pos ⟨hl, hr, hst, hk⟩

theorem linkInit_malformed (hr : receives (linkOf s l) = true) (hst : (linkOf s l).st ≠ lkFenced) (hk : fieldN f.bytes 0 1 = 2)
    (hfec : f.fecOk = true) (hlen : f.bytes.length = 256) (hcrc : crcOk f.bytes = true) (hbad : initBad f.bytes = true) :
    exec (.linkInit l f) s = .next (malformedFlit (countFlit s l f) l) := by
  rw [linkInit_arrives hl hr hst hk]
  simp [initArrives, hfec, hlen, hcrc, hbad]

section
variable (hst : (linkOf s l).st = lkTraining) (ht : (linkOf s l).training = 3) (hre : (linkOf s l).retraining = false)
  (hrx : (linkOf s l).rxAny = false) (hv : initValid f = true)
include hst ht hre hrx hv

/-- A valid LINK_INIT is taken by a link in step 3 that has accepted no DATA flit. -/
theorem linkInit_taken : exec (.linkInit l f) s = .next (takeInit (countFlit s l f) l f.bytes) := by
  simp only [initValid, Bool.and_eq_true, beq_iff_eq, Bool.not_eq_true'] at hv
  obtain ⟨⟨⟨⟨hfec, hlen⟩, hk⟩, hcrc⟩, hgood⟩ := hv
  obtain ⟨c, hc⟩ := linkOf_countFlit s l f
  have hr : receives (linkOf s l) = true := by simp [receives, hst, ht, hre, lkTraining, lkDisabled, lkLoopback]
  rw [linkInit_arrives hl hr (by rw [hst]; decide) hk]
  simp [initArrives, hc, hfec, hlen, hcrc, hgood, hrx, hst, ht]

theorem linkInit_refused (hno : initRefused f.bytes = true) :
    exec (.linkInit l f) s = .next (attemptFails (countFlit s l f) l) := by
  rw [linkInit_taken hl hst ht hre hrx hv, takeInit, if_pos hno]

end
end

/-! ### A LINK_INIT that R353 admits -/

@[simp] theorem unlinked_initEnds (s : State) (l : Nat) : unlinked (initEnds s l) = unlinked s := by
  simp only [initEnds]
  split <;> rfl

/-- Step 3 ends once a LINK_INIT with SEEN has come and one has gone out (R353). -/
theorem linkOf_initEnds (hsent : (linkOf s l).sentSeen = true) (ht : (linkOf s l).training = 3) : ∃ b,
    linkOf (initEnds s l) l = { linkOf s l with training := if (linkOf s l).gotSeen = true then 4 else 3, berAt := b } := by
  have hends : initEnds s l =
      if (linkOf s l).gotSeen = true then setLink s l { linkOf s l with training := 4, berAt := s.time } else s := by
    simp [initEnds, hsent, ht]
  rw [hends]
  split
  · exact ⟨_, linkOf_setLink ..⟩
  · exact ⟨(linkOf s l).berAt, by rw [← ht]⟩

/-- What a LINK_INIT that is not refused leaves of its link. -/
theorem takeInit_admits {b : List Byte} (ht : (linkOf s l).training = 3) (hok : initRefused b = false) :
    unlinked (takeInit s l b) = unlinked s ∧
    (linkOf (takeInit s l b) l).peerId = fieldN b 20 8 ∧ (linkOf (takeInit s l b) l).seenPeer = true ∧
    (linkOf (takeInit s l b) l).sentSeen = true ∧
    (linkOf (takeInit s l b) l).credits = [fieldN b 28 2, fieldN b 30 2, fieldN b 32 2] ∧
    (linkOf (takeInit s l b) l).training = if (linkOf s l).gotSeen = true ∨ bit (fieldN b 18 1) 0 = true then 4 else 3 := by
  simp only [takeInit, hok, Bool.false_eq_true, if_false, sendInit]
  generalize hu : setLink s l _ = u
  obtain ⟨c, o, hsent⟩ := linkOf_sendBare u l 2 (initSlots u l)
  have hlink := congrArg (linkOf · l) hu
  rw [linkOf_setLink] at hlink
  generalize hv : setLink (sendBare _ _ _ _) l _ = v
  have hv' := congrArg (linkOf · l) hv
  rw [linkOf_setLink, hsent] at hv'
  obtain ⟨n, hend⟩ := linkOf_initEnds (s := v) (l := l) (by rw [← hv']) (by rw [← hv', ← hlink]; exact ht)
  rw [hend, ← hv', ← hlink]
  refine ⟨?_, rfl, rfl, rfl, rfl, ?_⟩
  · rw [unlinked_initEnds, ← hv, unlinked_setLink, unlinked_sendBare, ← hu, unlinked_setLink]
  · simp

theorem linkInit_admitted {f : FlitIn} (hl : l < 16) (hst : (linkOf s l).st = lkTraining) (ht : (linkOf s l).training = 3)
    (hre : (linkOf s l).retraining = false) (hrx : (linkOf s l).rxAny = false) (hv : initValid f = true)
    (hok : initRefused f.bytes = false) :
    ∃ t, exec (.linkInit l f) s = .next t ∧ (linkOf t l).peerId = fieldN f.bytes 20 8 ∧ (linkOf t l).seenPeer = true ∧
      (linkOf t l).sentSeen = true ∧ (linkOf t l).credits = [fieldN f.bytes 28 2, fieldN f.bytes 30 2, fieldN f.bytes 32 2] ∧
      (linkOf t l).training = (if (linkOf s l).gotSeen = true ∨ bit (fieldN f.bytes 18 1) 0 = true then 4 else 3) ∧
      t = { s with duc := t.duc, obs := t.obs, free := t.free } := by
  obtain ⟨c, hc⟩ := linkOf_countFlit s l f
  obtain ⟨hframe, hid, hpeer, hsent, hcredits, hstep⟩ := takeInit_admits (s := countFlit s l f) (by rw [hc]; exact ht) hok
  rw [unlinked_countFlit] at hframe
  rw [hc] at hstep
  have hfree : (takeInit (countFlit s l f) l f.bytes).free = s.free := by
    change (unlinked _).free = (unlinked s).free
    rw [hframe]
  refine ⟨_, linkInit_taken hl hst ht hre hrx hv, hid, hpeer, hsent, hcredits, hstep, ?_⟩
  rw [hfree]
  exact eq_of_unlinked hframe

/-! ### BER_MEASURE_END and TRAIN_ATTEMPT_TIMEOUT (R348, R350, R395) -/

section
variable {corrected uncorrectable received : Nat}

section
variable (hl : l < 16) (hst : (linkOf s l).st = lkTraining) (ht : (linkOf s l).training = 4)
  (hdue : (linkOf s l).berAt + secondUnits ≤ s.time)
  (hv : v = setLink s l { linkOf s l with ber := berFloat (corrected + 150 * uncorrectable) received })
include hl hst ht hdue hv

/-- Step 4's time has passed: the rate decides. -/
theorem berMeasureEnd_due :
    exec (.berMeasureEnd l corrected uncorrectable received) s =
      .next (if (corrected + 150 * uncorrectable) * 100000 ≥ received then disable v l 0x21
        else sendProbes (setLink v l { linkOf v l with training := 5 }) l) := by
  subst hv
  exact next_if_neg (by rw [hst, ht]; omega)

theorem berMeasureEnd_good (hrate : (corrected + 150 * uncorrectable) * 100000 < received) :
    exec (.berMeasureEnd l corrected uncorrectable received) s = .next (sendProbes (setLink v l { linkOf v l with training := 5 }) l) := by
  rw [berMeasureEnd_due hl hst ht hdue hv, if_neg (by omega)]

theorem berMeasureEnd_bad (hrate : received ≤ (corrected + 150 * uncorrectable) * 100000) :
    exec (.berMeasureEnd l corrected uncorrectable received) s = .next (disable v l 0x21) := by
  rw [berMeasureEnd_due hl hst ht hdue hv, if_pos hrate]

end

theorem berMeasureEnd_early (h : s.time < (linkOf s l).berAt + secondUnits) :
    exec (.berMeasureEnd l corrected uncorrectable received) s = .next s :=
  next_if_pos (.inr (.inr (.inr h)))

end

theorem trainAttemptTimeout_retries (hl : l < 16) (hst : (linkOf s l).st = lkTraining) (hn : (linkOf s l).attempts < 2)
    (hdue : (linkOf s l).attemptAt + 3 * secondUnits ≤ s.time) :
    exec (.trainAttemptTimeout l) s = .next (setLink s l (freshLink (linkOf s l) ((linkOf s l).attempts + 1) s.time)) :=
  (next_if_pos ⟨hl, hst, hdue⟩ : exec (.trainAttemptTimeout l) s = .next (attemptFails s l)).trans (next_if_neg (by omega))

theorem trainAttemptTimeout_third (hl : l < 16) (hst : (linkOf s l).st = lkTraining) (hn : 2 ≤ (linkOf s l).attempts)
    (hdue : (linkOf s l).attemptAt + 3 * secondUnits ≤ s.time) :
    exec (.trainAttemptTimeout l) s = .next (disable s l 0x20) :=
  (next_if_pos ⟨hl, hst, hdue⟩ : exec (.trainAttemptTimeout l) s = .next (attemptFails s l)).trans (next_if_pos (by omega))

theorem trainAttemptTimeout_early (h : s.time < (linkOf s l).attemptAt + 3 * secondUnits) :
    exec (.trainAttemptTimeout l) s = .next s :=
  next_if_neg fun hdue => by omega

/-! ### PROBE (R349) -/

section
variable {t1 t2 t3 t4 : Nat} {m : Msg}

/-- The probe that the row names is the oldest message of CTL. -/
theorem probe_taken (hl : l < 16) (hm : firstOf s l 2 = some m) (hop : m.op = 0x27) (h1 : fieldN m.fields 0 8 = t1)
    (h2 : fieldN (m.second.getD []) 0 8 = t2) (h3 : fieldN (m.second.getD []) 8 8 = t3) (hv : v = freeMsg s l m) :
    exec (.probe l t1 t2 t3 t4) s = .next (settleLink (if t2 = 0 ∧ t3 = 0 then
        sendOn v l (ownMsg v 0x27 0 0 0 (leBytes 8 t1) (some (leBytes 8 t4 ++ leBytes 8 (fabricCycles v.time))) [] 0)
      else probeReturns v l (probeSpan t1 t2 t3 t4)) l) := by
  subst hv
  change execProbe l t1 t2 t3 t4 s = _
  simp only [execProbe, hm]
  rw [if_neg (by omega)]

theorem probe_answered (hl : l < 16) (hm : firstOf s l 2 = some m) (hop : m.op = 0x27) (h1 : fieldN m.fields 0 8 = t1)
    (h2 : fieldN (m.second.getD []) 0 8 = 0) (h3 : fieldN (m.second.getD []) 8 8 = 0) (hv : v = freeMsg s l m) :
    exec (.probe l t1 0 0 t4) s =
      .next (settleLink (sendOn v l (ownMsg v 0x27 0 0 0 (leBytes 8 t1) (some (leBytes 8 t4 ++ leBytes 8 (fabricCycles v.time))) [] 0)) l) := by
  rw [probe_taken hl hm hop h1 h2 h3 hv, if_pos ⟨rfl, rfl⟩]

theorem probe_returned (hl : l < 16) (hm : firstOf s l 2 = some m) (hop : m.op = 0x27) (h1 : fieldN m.fields 0 8 = t1)
    (h2 : fieldN (m.second.getD []) 0 8 = t2) (h3 : fieldN (m.second.getD []) 8 8 = t3) (hback : t2 ≠ 0) (hv : v = freeMsg s l m) :
    exec (.probe l t1 t2 t3 t4) s = .next (settleLink (probeReturns v l (probeSpan t1 t2 t3 t4)) l) := by
  rw [probe_taken hl hm hop h1 h2 h3 hv, if_neg fun h => hback h.1]

end

/-! ### Retraining in place (R350) -/

theorem fecLockLoss_retrains (hl : l < 16) (hst : (linkOf s l).st = lkLive) (hre : (linkOf s l).retraining = false) :
    exec (.fecLockLoss l) s =
      .next (linkCount (setLink s l { linkOf s l with retraining := true, stuck := 0, retrainAt := s.time }) l 7 1) :=
  next_if_pos ⟨hl, hst, by rw [hre]; rfl⟩

section
variable (hl : l < 16) (hre : (linkOf s l).retraining = true)
include hl hre

/-- A retrain that ends is judged by its outcome and its time. -/
theorem linkRetrainEnd_judged (ok : Bool) : exec (.linkRetrainEnd l ok) s =
    .next (if ok = true ∧ s.time ≤ (linkOf s l).retrainAt + nsUnits 50000000 then
      settleLink (setLink s l { linkOf s l with retraining := false, stuck := 0 }) l else disable s l 0x23) :=
  next_if_neg (by simp [hre, hl])

theorem linkRetrainEnd_ok (ht : s.time ≤ (linkOf s l).retrainAt + nsUnits 50000000) :
    exec (.linkRetrainEnd l true) s = .next (settleLink (setLink s l { linkOf s l with retraining := false, stuck := 0 }) l) := by
  rw [linkRetrainEnd_judged hl hre, if_pos ⟨rfl, ht⟩]

theorem linkRetrainEnd_fails {ok : Bool} (h : ok = false ∨ (linkOf s l).retrainAt + nsUnits 50000000 < s.time) :
    exec (.linkRetrainEnd l ok) s = .next (disable s l 0x23) := by
  rw [linkRetrainEnd_judged hl hre, if_neg]
  rintro ⟨rfl, ht⟩
  rcases h with h | h
  · cases h
  · omega

end

/-! ### DATA_FLIT (R351, R352, R355, R367) -/

section
variable {f : FlitIn} (hl : l < 16) (hlen : f.bytes.length = 256) (hr : receives (linkOf s l) = true)
include hl hlen hr

/-- A flit at a receiving link: a fenced link, or one in step 3 that awaits LINK_INIT, only counts it; else its checks decide. -/
theorem dataFlit_received : exec (.dataFlit l f) s = .next (
    if (linkOf s l).st = lkFenced ∨ ((linkOf s l).st = lkTraining ∧ (linkOf s l).training = 3 ∧ fieldN f.bytes 0 1 ≠ 2) then
      countFlit s l f
    else if !f.fecOk then settleLink (discardFlit (countFlit s l f) l) l
    else if !integrityOk (linkOf s l) f then settleLink (integrityFails (countFlit s l f) l) l
    else settleLink (flitByKind (countFlit s l f) l f) l) := by
  obtain ⟨c, hc⟩ := linkOf_countFlit s l f
  have hstill : integrityOk { linkOf s l with ctr := c } f = integrityOk (linkOf s l) f := rfl
  change execDataFlit l f s = _
  simp only [execDataFlit, hc, hstill]
  rw [if_neg (by simp [hl, hlen, hr])]

theorem dataFlit_fenced (hst : (linkOf s l).st = lkFenced) : exec (.dataFlit l f) s = .next (countFlit s l f) := by
  rw [dataFlit_received hl hlen hr, if_pos (.inl hst)]

section
variable (hst : (linkOf s l).st ≠ lkFenced) (htrain : (linkOf s l).st ≠ lkTraining ∨ (linkOf s l).training ≠ 3)
include hst htrain

theorem dataFlit_checked : exec (.dataFlit l f) s = .next (
    if !f.fecOk then settleLink (discardFlit (countFlit s l f) l) l
    else if !integrityOk (linkOf s l) f then settleLink (integrityFails (countFlit s l f) l) l
    else settleLink (flitByKind (countFlit s l f) l f) l) := by
  rw [dataFlit_received hl hlen hr, if_neg (by tauto)]

theorem dataFlit_uncorrectable (hfec : f.fecOk = false) :
    exec (.dataFlit l f) s = .next (settleLink (discardFlit (countFlit s l f) l) l) := by
  simp [dataFlit_checked hl hlen hr hst htrain, hfec]

section
variable (hfec : f.fecOk = true)
include hfec

theorem dataFlit_integrityFails (hint : integrityOk (linkOf s l) f = false) :
    exec (.dataFlit l f) s = .next (settleLink (integrityFails (countFlit s l f) l) l) := by
  simp [dataFlit_checked hl hlen hr hst htrain, hfec, hint]

section
variable (hint : integrityOk (linkOf s l) f = true) (hk : fieldN f.bytes 0 1 = 1)
include hint hk

/-- A DATA flit that passes its checks is accepted in sequence, and discarded out of it. -/
theorem dataFlit_sound : exec (.dataFlit l f) s = .next (settleLink (
    if fieldN f.bytes 2 3 = (linkOf s l).rxNext then acceptData (countFlit s l f) l f.bytes else discardFlit (countFlit s l f) l) l) := by
  obtain ⟨c, hc⟩ := linkOf_countFlit s l f
  simp [dataFlit_checked hl hlen hr hst htrain, hfec, hint, flitByKind, hk, hc]

theorem dataFlit_accepted (hseq : fieldN f.bytes 2 3 = (linkOf s l).rxNext) :
    exec (.dataFlit l f) s = .next (settleLink (acceptData (countFlit s l f) l f.bytes) l) := by
  rw [dataFlit_sound hl hlen hr hst htrain hfec hint hk, if_pos hseq]

theorem dataFlit_outOfSequence (hseq : fieldN f.bytes 2 3 ≠ (linkOf s l).rxNext) :
    exec (.dataFlit l f) s = .next (settleLink (discardFlit (countFlit s l f) l) l) := by
  rw [dataFlit_sound hl hlen hr hst htrain hfec hint hk, if_neg hseq]

end
end
end
end

/-! ### REPLAY_TIMEOUT (R350, R355) -/

/-- Every flit without an acknowledgement goes out again, and the 16th time without progress a LIVE link retrains. -/
theorem replayLink_sends (hr : (linkOf s l).replay ≠ []) (hc : canSend (linkOf s l) = true) : ∃ w c o,
    unlinked w = unlinked s ∧
    linkOf w l = { linkOf s l with ctr := c, stuck := (linkOf s l).stuck + 1, ackAt := s.time, out := o } ∧
    replayLink s l = if (linkOf s l).stuck + 1 ≥ 16 ∧ (linkOf s l).st = lkLive then retrain w l else w := by
  obtain ⟨e, es, he⟩ := List.exists_cons_of_ne_nil hr
  simp only [replayLink, he, hc, Bool.not_true, Bool.false_eq_true, if_false, linkOf_prog, linkOf_blot, linkOf_linkCount]
  exact ⟨_, _, _, by simp, linkOf_setLink .., rfl⟩

theorem replayTimeout_noFlit (hr : (linkOf s l).replay = []) : exec (.replayTimeout l) s = .next s := by
  change Host.Outcome.next (if _ then replayLink s l else s) = _
  have hnone : replayLink s l = s := by simp only [replayLink, hr]
  rw [hnone, ite_self]

theorem replayTimeout_early (h : s.time < (linkOf s l).ackAt + nsUnits 4000) : exec (.replayTimeout l) s = .next s :=
  next_if_neg fun hdue => by omega

section
variable (hl : l < 16) (hr : (linkOf s l).replay ≠ []) (hc : canSend (linkOf s l) = true)
include hl hr hc

theorem replayTimeout_replays (hn : (linkOf s l).stuck < 15) (hdue : (linkOf s l).ackAt + nsUnits 4000 ≤ s.time) :
    ∃ t, exec (.replayTimeout l) s = .next t ∧ (linkOf t l).replay = (linkOf s l).replay ∧ (linkOf t l).stuck = (linkOf s l).stuck + 1 ∧
      (linkOf t l).retraining = false ∧ t = { s with duc := t.duc, obs := t.obs } := by
  obtain ⟨w, c, o, hframe, hlink, heq⟩ := replayLink_sends hr hc
  have hre : (linkOf s l).retraining = false := by
    simp only [canSend, Bool.and_eq_true, Bool.not_eq_true'] at hc
    exact hc.2
  refine ⟨w, (next_if_pos ⟨hl, hdue⟩).trans (congrArg _ (heq.trans (if_neg (by omega)))), ?_⟩
  rw [hlink]
  exact ⟨rfl, rfl, hre, eq_of_unlinked hframe⟩

theorem replayTimeout_retrains (hn : 15 ≤ (linkOf s l).stuck) (hst : (linkOf s l).st = lkLive)
    (hdue : (linkOf s l).ackAt + nsUnits 4000 ≤ s.time) :
    ∃ t, exec (.replayTimeout l) s = .next t ∧ (linkOf t l).replay = (linkOf s l).replay ∧ (linkOf t l).stuck = 0 ∧
      (linkOf t l).retraining = true ∧ t = { s with duc := t.duc, obs := t.obs } := by
  obtain ⟨w, c, o, hframe, hlink, heq⟩ := replayLink_sends hr hc
  refine ⟨retrain w l, (next_if_pos ⟨hl, hdue⟩).trans (congrArg _ (heq.trans (if_pos ⟨by omega, hst⟩))), ?_⟩
  simp only [retrain, linkOf_linkCount, linkOf_setLink, hlink, true_and]
  exact eq_of_unlinked (by simpa using hframe)

end

/-! ### CREDIT_STALL (R354, R366) -/

section
variable {ch : Nat}

theorem creditStall_fences (hl : l < 16) (hw : (linkOf s l).tx.any (fun m => opChannel m.op == ch) = true)
    (hdue : (linkOf s l).creditAt.getD ch 0 + nsUnits 10000000 ≤ s.time) : exec (.creditStall l ch) s = .next (fence s l 3) :=
  next_if_pos ⟨hl, hw, hdue⟩

theorem creditStall_early (h : s.time < (linkOf s l).creditAt.getD ch 0 + nsUnits 10000000) : exec (.creditStall l ch) s = .next s :=
  next_if_neg fun hdue => by omega

theorem creditStall_noMessage (h : (linkOf s l).tx.any (fun m => opChannel m.op == ch) = false) : exec (.creditStall l ch) s = .next s :=
  next_if_neg fun hw => by rw [h] at hw; exact absurd hw.2.1 Bool.false_ne_true

end

/-! ### SPDM (R361, R362) -/

/-- The state in which an SPDM outcome acts: the SPDM message at the head of CTL, if one waits, is taken. -/
def spdmTaken (s : State) (l : Nat) : State :=
  match firstOf s l 2 with | some m => if m.op = 0x26 then freeMsg s l m else s | none => s

/-- Taking the message leaves the link where it is. -/
theorem spdmTaken_st (s : State) (l : Nat) : (linkOf (spdmTaken s l) l).st = (linkOf s l).st := by
  unfold spdmTaken
  split
  case h_1 m hm =>
    split
    · obtain ⟨r, n, k, hfree⟩ := linkOf_freeMsg s l m
      rw [hfree]
    · rfl
  case h_2 => rfl

theorem not_auth_of_authenticated {x : Link} (h : authenticated x = true) : x.st ≠ lkAuth := by
  intro hst
  simp [authenticated, hst, lkAuth, lkConcord, lkLive, lkQuarantine] at h

theorem auth_st {x : Link} (hv : v = spdmTaken s l) (hx : x = linkOf v l) (hst : (linkOf s l).st = lkAuth) : x.st = lkAuth := by
  rw [hx, hv, spdmTaken_st, hst]

theorem past_auth_st {x : Link} (hv : v = spdmTaken s l) (hx : x = linkOf v l) (hauth : authenticated (linkOf s l) = true) :
    x.st ≠ lkAuth := by
  rw [hx, hv, spdmTaken_st]
  exact not_auth_of_authenticated hauth

section
variable {x : Link} {q : SpdmReq} (hl : l < 16) (hv : v = spdmTaken s l) (hx : x = linkOf v l)
include hl hv

theorem spdm_acts (h : (linkOf s l).st = lkAuth ∨ authenticated (linkOf s l) = true) (e : SpdmStep) :
    exec (.spdm l e) s = .next (settleLink (spdmActs v l e) l) := by
  subst hv
  exact next_if_pos ⟨hl, h⟩

include hx

section
variable (hst : (linkOf s l).st = lkAuth)
include hst

theorem spdm_auth_fragment_fail : exec (.spdm l .fragment) s = .next (settleLink v l) ∧
    exec (.spdm l .fail) s = .next (settleLink (fence v l 6) l) := by
  have hauth := auth_st hv hx hst
  rw [spdm_acts hl hv (.inl hst), spdm_acts hl hv (.inl hst)]
  exact ⟨rfl, by simp only [spdmActs, ← hx, hauth, if_true]⟩

theorem spdm_auth_request_granted {n : Nat} (hturn : x.spdm = 2) (hq : spdmGrant v x q = some n) :
    exec (.spdm l (.request q)) s = .next (settleLink (sendSpdm (setLink v l { x with spdmPeer := n }) l) l) := by
  rw [spdm_acts hl hv (.inl hst)]
  simp only [spdmActs, spdmRequest, ← hx, auth_st hv hx hst, if_true, hq, hturn]

theorem spdm_auth_request_refused (h : x.spdm ≠ 2 ∨ spdmGrant v x q = none) :
    exec (.spdm l (.request q)) s = .next (settleLink (fence v l 6) l) := by
  rw [spdm_acts hl hv (.inl hst)]
  simp only [spdmActs, spdmRequest, ← hx, auth_st hv hx hst, if_true]
  cases hq : spdmGrant v x q with
  | none => rfl
  | some n =>
    have hturn : x.spdm ≠ 2 := h.resolve_right (by rw [hq]; exact Option.some_ne_none n)
    simp only [if_neg hturn]

section
variable (hturn : x.spdm = 1)
include hturn

/-- An answer in this device's turn: a failure fences, and a good one is followed by the next request or ends the turn. -/
theorem spdm_auth_response (ok : Bool) : exec (.spdm l (.response ok)) s = .next (settleLink (
    if !ok then fence v l 6
    else if x.spdmAt + 1 < spdmRequests v x then sendSpdm (setLink v l { x with spdmAt := x.spdmAt + 1 }) l
    else spdmTurn (setLink v l { x with spdmAt := x.spdmAt + 1 }) l) l) := by
  rw [spdm_acts hl hv (.inl hst)]
  simp only [spdmActs, spdmResponse, ← hx]
  rw [if_neg (by simp [auth_st hv hx hst, hturn])]

theorem spdm_auth_response_next (hn : x.spdmAt + 1 < spdmRequests v x) :
    exec (.spdm l (.response true)) s = .next (settleLink (sendSpdm (setLink v l { x with spdmAt := x.spdmAt + 1 }) l) l) := by
  simp [spdm_auth_response hl hv hx hst hturn, hn]

theorem spdm_auth_response_last (hn : spdmRequests v x ≤ x.spdmAt + 1) :
    exec (.spdm l (.response true)) s = .next (settleLink (spdmTurn (setLink v l { x with spdmAt := x.spdmAt + 1 }) l) l) := by
  simp [spdm_auth_response hl hv hx hst hturn, Nat.not_lt.2 hn]

theorem spdm_auth_response_bad_portion : exec (.spdm l (.response false)) s = .next (settleLink (fence v l 6) l) ∧
    exec (.spdm l .portion) s = .next (settleLink (sendSpdm v l) l) := by
  rw [spdm_auth_response hl hv hx hst hturn, spdm_acts hl hv (.inl hst)]
  exact ⟨rfl, by simp only [spdmActs, ← hx, auth_st hv hx hst, hturn, and_self, if_true]⟩

end

theorem spdm_auth_complete (hturn : x.spdm = 2) : exec (.spdm l .complete) s = .next (settleLink (spdmTurn v l) l) := by
  rw [spdm_acts hl hv (.inl hst)]
  simp only [spdmActs, ← hx, auth_st hv hx hst, hturn, and_self, if_true]

end

section
variable (hauth : authenticated (linkOf s l) = true)
include hauth

theorem spdm_live_outcomes : exec (.spdm l .fail) s = .next (settleLink (fence v l 7) l) ∧
    exec (.spdm l .heartbeatReply) s = .next (settleLink (setLink v l { x with beats := 0 }) l) ∧
    exec (.spdm l (.tagFailures 17)) s = .next (settleLink (fence v l 7) l) ∧
    exec (.spdm l .keyUpdated) s = .next (settleLink (newKeys v l) l) := by
  simp only [spdm_acts hl hv (.inr hauth), spdmActs, ← hx, if_neg (past_auth_st hv hx hauth), true_and]
  exact ⟨rfl, trivial⟩

theorem spdm_live_request : exec (.spdm l (.request q)) s =
    .next (settleLink (sendSpdm (if q = .keyUpdate ∧ x.enc = true then newKeys v l else v) l) l) := by
  rw [spdm_acts hl hv (.inr hauth)]
  simp only [spdmActs, spdmRequest, ← hx, if_neg (past_auth_st hv hx hauth)]

theorem spdm_live_challengeReply (hasked : x.asked = true) :
    exec (.spdm l (.challengeReply true)) s = .next (settleLink (setLink v l { x with asked := false }) l) ∧
    exec (.spdm l (.challengeReply false)) s = .next (settleLink (fence v l 7) l) := by
  simp [spdm_acts hl hv (.inr hauth), spdmActs, ← hx, hasked]

end
end

/-! ### The timers of authentication (R352, R362) -/

section
variable (hl : l < 16) (hauth : authenticated (linkOf s l) = true) (henc : (linkOf s l).enc = true) (hdue : (linkOf s l).beatAt + secondUnits ≤ s.time)
include hl hauth henc hdue

/-- A period of an encrypted link has passed: the missed heartbeats decide. -/
theorem heartbeat_due : exec (.heartbeat l) s = .next (
    if (linkOf s l).beats ≥ 3 then fence s l 7
    else sendSpdm (setLink s l { linkOf s l with beats := (linkOf s l).beats + 1, beatAt := s.time }) l) :=
  next_if_neg (by simp [hl, henc, hauth, hdue])

theorem heartbeat_sends (hn : (linkOf s l).beats < 3) : exec (.heartbeat l) s =
    .next (sendSpdm (setLink s l { linkOf s l with beats := (linkOf s l).beats + 1, beatAt := s.time }) l) := by
  rw [heartbeat_due hl hauth henc hdue, if_neg (by omega)]

theorem heartbeat_fences (hn : 3 ≤ (linkOf s l).beats) : exec (.heartbeat l) s = .next (fence s l 7) := by
  rw [heartbeat_due hl hauth henc hdue, if_pos hn]

end

theorem heartbeat_early (h : s.time < (linkOf s l).beatAt + secondUnits) : exec (.heartbeat l) s = .next s :=
  next_if_pos (.inr (.inr (.inr h)))

theorem challengeTimer_asks (hl : l < 16) (henc : (linkOf s l).enc = false) (hauth : authenticated (linkOf s l) = true)
    (hdue : (linkOf s l).askAt + 60 * secondUnits ≤ s.time) :
    exec (.challengeTimer l) s = .next (sendSpdm (setLink s l { linkOf s l with asked := true, askAt := s.time }) l) :=
  next_if_pos ⟨hl, by rw [henc]; rfl, hauth, hdue⟩

theorem challengeTimer_early (h : s.time < (linkOf s l).askAt + 60 * secondUnits) : exec (.challengeTimer l) s = .next s :=
  next_if_neg fun hdue => by omega

theorem challengeUnanswered_fences (hl : l < 16) (hasked : (linkOf s l).asked = true) (hdue : (linkOf s l).askAt + secondUnits ≤ s.time) :
    exec (.challengeUnanswered l) s = .next (fence s l 7) :=
  next_if_pos ⟨hl, hasked, hdue⟩

theorem challengeUnanswered_idle (h : (linkOf s l).asked = false ∨ s.time < (linkOf s l).askAt + secondUnits) :
    exec (.challengeUnanswered l) s = .next s :=
  next_if_neg fun ⟨_, hasked, hdue⟩ => h.elim (fun hno => by rw [hno] at hasked; cases hasked) fun hearly => by omega

theorem keyUpdate_sends (hl : l < 16) (henc : (linkOf s l).enc = true) (hn : 4294967296 ≤ (linkOf s l).flitsKey) :
    exec (.keyUpdate l) s = .next (sendSpdm (newKeys s l) l) :=
  next_if_pos ⟨hl, henc, hn⟩

end

/-- Settles O52: each row by its condition, a flit by its checks in their order, and an SPDM outcome by the link's state and turn. -/
theorem linkEventRows : Obligations.LinkEventRows :=
  ⟨fun _ _ => fecAlignmentLock_sendsInit, fun _ _ => fecAlignmentLock_notTraining, fun _ _ _ => linkInit_admitted,
    fun _ _ _ => linkInit_refused, fun _ _ _ => linkInit_malformed,
    fun _ _ _ _ _ _ hl hst ht hdue hrate hv => berMeasureEnd_good hl hst ht hdue hv hrate,
    fun _ _ _ _ _ _ hl hst ht hdue hrate hv => berMeasureEnd_bad hl hst ht hdue hv hrate, fun _ _ _ _ _ => berMeasureEnd_early,
    fun _ _ => trainAttemptTimeout_retries, fun _ _ => trainAttemptTimeout_third, fun _ _ => trainAttemptTimeout_early,
    fun _ _ _ _ _ _ => probe_answered, fun _ _ _ _ _ _ _ _ => probe_returned, fun _ _ => fecLockLoss_retrains,
    fun _ _ => linkRetrainEnd_ok, fun _ _ _ hl hre => linkRetrainEnd_fails hl hre, fun _ _ _ => dataFlit_fenced, fun _ _ _ => dataFlit_uncorrectable,
    fun _ _ _ => dataFlit_integrityFails, fun _ _ _ => dataFlit_accepted, fun _ _ _ => dataFlit_outOfSequence,
    fun _ _ => replayTimeout_noFlit, fun _ _ => replayTimeout_replays, fun _ _ => replayTimeout_retrains, fun _ _ => replayTimeout_early,
    fun _ _ _ => creditStall_early, fun _ _ _ => creditStall_fences, fun _ _ _ => creditStall_noMessage,
    fun _ _ _ _ hl hst hv hx => spdm_auth_fragment_fail hl hv hx hst,
    fun _ _ _ _ _ _ hl hst hv hx => spdm_auth_request_granted hl hv hx hst,
    fun _ _ _ _ _ hl hst hv hx => spdm_auth_request_refused hl hv hx hst,
    fun _ _ _ _ hl hst hv hx => spdm_auth_response_next hl hv hx hst, fun _ _ _ _ hl hst hv hx => spdm_auth_response_last hl hv hx hst,
    fun _ _ _ _ hl hst hv hx => spdm_auth_response_bad_portion hl hv hx hst, fun _ _ _ _ hl hst hv hx => spdm_auth_complete hl hv hx hst,
    fun _ _ _ _ hl hauth hv hx => spdm_live_outcomes hl hv hx hauth, fun _ _ _ _ _ hl hauth hv hx => spdm_live_request hl hv hx hauth,
    fun _ _ _ _ hl hauth hv hx => spdm_live_challengeReply hl hv hx hauth,
    fun _ _ hl henc hauth => heartbeat_sends hl hauth henc, fun _ _ hl henc hauth => heartbeat_fences hl hauth henc, fun _ _ => heartbeat_early,
    fun _ _ => challengeTimer_asks, fun _ _ => challengeTimer_early, fun _ _ => challengeUnanswered_fences, fun _ _ => challengeUnanswered_idle,
    fun _ _ => keyUpdate_sends⟩

end Sys2Proof.Machine
end

section
/-! PROOFS. The messages of peers (R357 to R360, R364, R369, R370, R373, R377, R378): how a row takes its message, and what each message
that is taken brings about; then O53. -/

namespace Sys2Proof.Machine

section
variable {s w u v : State} {l : Nat} {m : Msg}

/-- A row's answer is its link settled after what it does. -/
theorem settles (h : v = u) : (Host.Outcome.next (settleLink v l) : Host.Outcome State Fault Refusal) = .next (settleLink u l) := by
  rw [h]

/-! ### Taking a message (R354, R358, R365) -/

@[simp] theorem freeMsg_linkOf_st (s : State) (l : Nat) (m : Msg) : (linkOf (freeMsg s l m) l).st = (linkOf s l).st := by
  obtain ⟨r, n, k, hfree⟩ := linkOf_freeMsg s l m
  rw [hfree]

@[simp] theorem countMsg_ink (s : State) (i : Nat) (m : Msg) : (countMsg s i m).ink = s.ink := by
  simp only [countMsg, bump]
  split
  · split <;> rfl
  · rfl

section
variable {op : Nat} {f : State → State}

/-- A message that is not at the head of its channel does nothing (log 8). -/
theorem onMsg_notFirst (h : firstOf s l (opChannel op) ≠ some m) : onMsg s l op m f = s := if_neg fun hm => h hm.2.2

theorem onLive_notFirst (h : firstOf s l (opChannel op) ≠ some m) : onLive s l op m f = s := onMsg_notFirst h

section
variable (hl : l < 16) (hop : m.op = op) (hm : firstOf s l (opChannel op) = some m)
include hl hop hm

theorem onMsg_taken : onMsg s l op m f = settleLink (f (freeMsg s l m)) l := if_pos ⟨hl, hop, hm⟩

variable (hst : (linkOf s l).st = lkLive)
include hst

theorem onLive_taken : onLive s l op m f = settleLink (f (freeMsg s l m)) l :=
  (onMsg_taken hl hop hm).trans (congrArg (settleLink · l) (if_pos ((freeMsg_linkOf_st ..).trans hst)))

/-- A message for another device goes on. -/
theorem onLive_forwarded (hd : m.dest ≠ ownIndex s) : onLive s l op m (fun s => forUs s m f) = settleLink (forward (freeMsg s l m) m) l :=
  (onLive_taken hl hop hm hst).trans (congrArg (settleLink · l) (if_neg hd))

variable (hd : m.dest = ownIndex s) (hw : w = countMsg (freeMsg s l m) 20 m)
include hd hw

/-- A message for this device is counted and acts. -/
theorem onLive_forUs : onLive s l op m (fun s => forUs s m f) = settleLink (f w) l := by
  subst hw
  exact (onLive_taken hl hop hm hst).trans (congrArg (settleLink · l) (if_pos hd))

/-- A request is executed by a device that is not in the Cap state (R416). -/
theorem onLive_served (hcap : s.ink.state ≠ stCapped) : onLive s l op m (fun s => serveRequest s m f) = settleLink (f w) l := by
  refine (onLive_forUs hl hop hm hst hd hw).trans (congrArg (settleLink · l) (if_neg ?_))
  rwa [hw, countMsg_ink]

theorem onLive_capped (hcap : s.ink.state = stCapped) :
    onLive s l op m (fun s => serveRequest s m f) = settleLink (answerCompl w m St.cappedTarget) l := by
  refine (onLive_forUs hl hop hm hst hd hw).trans (congrArg (settleLink · l) (if_pos ?_))
  rwa [hw, countMsg_ink]

end
end

theorem request_notFirst (h : firstOf s l 0 ≠ some m) : exec (.read l m) s = .next s ∧ exec (.write l m) s = .next s ∧
    exec (.contrib l m) s = .next s ∧ exec (.signal l m) s = .next s := by
  change execRead l m s = _ ∧ execWrite l m s = _ ∧ execContrib l m s = _ ∧ execSignal l m s = _
  simp only [execRead, execWrite, execContrib, execSignal, onLive_notFirst (op := 1) h, onLive_notFirst (op := 2) h,
    onLive_notFirst (op := 3) h, onLive_notFirst (op := 4) h, ite_self, and_self]

theorem answer_notFirst (h : firstOf s l 1 ≠ some m) : exec (.readData l m) s = .next s ∧ exec (.compl l m) s = .next s ∧
    exec (.retry l m) s = .next s := by
  change execReadData l m s = _ ∧ execCompl l m s = _ ∧ execRetry l m s = _
  simp only [execReadData, execCompl, execRetry, onLive_notFirst (op := 0x10) h, onLive_notFirst (op := 0x11) h,
    onLive_notFirst (op := 0x12) h, and_self]

/-! ### READ (R359, log 104) -/

theorem read_held (h : peerHeld s m (retrainingAt s false (msgDpa m) (readLen m)) = true) : exec (.read l m) s = .next s := next_if_pos h

/-- A READ of another device is held by nothing here. -/
theorem read_forwarded (hl : l < 16) (hop : m.op = 1) (hm : firstOf s l 0 = some m) (hst : (linkOf s l).st = lkLive)
    (hd : m.dest ≠ ownIndex s) : exec (.read l m) s = .next (settleLink (forward (freeMsg s l m) m) l) := by
  have hfree : peerHeld s m (retrainingAt s false (msgDpa m) (readLen m)) = false := by simp [peerHeld, hd]
  change execRead l m s = _
  simp only [execRead, hfree, Bool.false_eq_true, if_false]
  exact congrArg _ (onLive_forwarded hl hop hm hst hd)

section
variable {st : Nat} {g : List (List Byte × Bool)} (hl : l < 16) (hop : m.op = 1) (hm : firstOf s l 0 = some m)
  (hst : (linkOf s l).st = lkLive) (hd : m.dest = ownIndex s)
include hl hop hm hst hd

theorem read_capped (hcap : s.ink.state = stCapped) (hfree : peerHeld s m (retrainingAt s false (msgDpa m) (readLen m)) = false)
    (hw : w = countMsg (freeMsg s l m) 20 m) : exec (.read l m) s = .next (settleLink (answerCompl w m St.cappedTarget) l) :=
  (next_if_neg (by simp [hfree])).trans (congrArg _ (onLive_capped hl hop hm hst hd hw hcap))

section
variable (hcap : s.ink.state ≠ stCapped) (hfree : peerHeld s m (retrainingAt s false (msgDpa m) (readLen m)) = false)
  (hw : w = countMsg (freeMsg s l m) 20 m)
include hcap hfree hw

/-- A READ that is served is answered by its address, and then by what its granules give. -/
theorem read_served : exec (.read l m) s = .next (settleLink (
    if msgDpa m % 64 ≠ 0 then answerCompl w m St.badAddress
    else
      match readGranules w (peerRq m) (msgDpa m) (readLen m) 1 with
      | (st, g, u) =>
        if st = St.ok then
          answerCompl (sendReadData (crossRange u (linkDie l) (some m.part) false (msgDpa m) (readLen m)) m g) m St.ok
        else answerCompl u m st) l) :=
  (next_if_neg (by simp [hfree])).trans (congrArg _ (onLive_served hl hop hm hst hd hw hcap))

theorem read_unaligned (ha : msgDpa m % 64 ≠ 0) : exec (.read l m) s = .next (settleLink (answerCompl w m St.badAddress) l) := by
  rw [read_served hl hop hm hst hd hcap hfree hw, if_pos ha]

variable (ha : msgDpa m % 64 = 0)
include ha

theorem read_data (hg : readGranules w (peerRq m) (msgDpa m) (readLen m) 1 = (St.ok, g, u)) :
    exec (.read l m) s = .next (settleLink
      (answerCompl (sendReadData (crossRange u (linkDie l) (some m.part) false (msgDpa m) (readLen m)) m g) m St.ok) l) := by
  rw [read_served hl hop hm hst hd hcap hfree hw, if_neg (not_not.2 ha)]
  simp only [hg, if_true]

theorem read_fails (hg : readGranules w (peerRq m) (msgDpa m) (readLen m) 1 = (st, g, u)) (hbad : st ≠ St.ok) :
    exec (.read l m) s = .next (settleLink (answerCompl u m st) l) := by
  rw [read_served hl hop hm hst hd hcap hfree hw, if_neg (not_not.2 ha)]
  simp only [hg, if_neg hbad]

end
end

/-! ### WRITE and CONTRIB (R359, R376, log 110) -/

/-- Data of no collective acts at once. -/
theorem forColl_plain {f : Option Coll → State → State} (hc : msgColl m = 0) : forColl s m f = f none s := if_pos hc

/-- Data of a collective that has ended is answered with ABORTED. -/
theorem forColl_ended {f : Option Coll → State → State} (hc : msgColl m ≠ 0) (hx : collOf s (msgColl m) = none) :
    forColl s m f = answerCompl s m St.aborted := by
  rw [forColl, if_neg hc, hx]

section
variable {st : Nat} (hl : l < 16) (hop : m.op = 2) (hm : firstOf s l 0 = some m) (hst : (linkOf s l).st = lkLive) (hd : m.dest = ownIndex s)
  (hcap : s.ink.state ≠ stCapped) (hfree : peerHeld s m (retrainingAt s true (msgDpa m) (64 * m.data.length)) = false)
  (hw : w = countMsg (freeMsg s l m) 20 m)
include hl hop hm hst hd hcap hfree hw

theorem write_stored (hc : msgColl m = 0) (ha : msgDpa m % 64 = 0)
    (hg : writeGranules w (peerRq m) (msgDpa m) (msgGranules m) 1 = (st, u)) :
    exec (.write l m) s = .next (settleLink (answerCompl
      (if st = St.ok then crossRange u (linkDie l) (some m.part) true (msgDpa m) (64 * m.data.length) else u) m st) l) := by
  refine (next_if_neg (by simp [hfree])).trans ((congrArg _ (onLive_served hl hop hm hst hd hw hcap)).trans ?_)
  rw [forColl_plain hc, if_neg (not_not.2 ha)]
  simp only [hg]

theorem write_aborted (hc : msgColl m ≠ 0) (hx : collOf w (msgColl m) = none) :
    exec (.write l m) s = .next (settleLink (answerCompl w m St.aborted) l) := by
  refine (next_if_neg (by simp [hfree])).trans ((congrArg _ (onLive_served hl hop hm hst hd hw hcap)).trans ?_)
  rw [forColl_ended hc hx]

end

section
variable {st : Nat} {b : List Byte} (hl : l < 16) (hop : m.op = 3) (hm : firstOf s l 0 = some m) (hst : (linkOf s l).st = lkLive)
  (hd : m.dest = ownIndex s) (hcap : s.ink.state ≠ stCapped) (hfree : peerHeld s m (retrainingBelow s (msgDpa m) 64) = false)
  (hw : w = countMsg (freeMsg s l m) 20 m) (hc : msgColl m = 0)
  (hg : contribute w (peerRq m) (msgContribution m none) 1 = (st, b, u))
  (hv : v = if st = St.ok then crossFrom u (linkDie l) (some m.part) true (msgDpa m) 64 else u)
include hl hop hm hst hd hcap hfree hw hc hg hv

/-- A contribution of no collective is answered with RETRY where it was set aside for want of room, and else with its status. -/
theorem contrib_plain : exec (.contrib l m) s = .next (settleLink (
    if v.ari.aside.length > w.ari.aside.length then answerMsg { v with ari.aside := w.ari.aside } m 0x12 [] [] 0
    else pushAll (answerCompl v m st)) l) := by
  refine (next_if_neg (by simp [hfree])).trans ((congrArg _ (onLive_served hl hop hm hst hd hw hcap)).trans ?_)
  rw [forColl_plain hc]
  simp only [hg, ← hv]

theorem contrib_taken (hroom : v.ari.aside.length ≤ w.ari.aside.length) :
    exec (.contrib l m) s = .next (settleLink (pushAll (answerCompl v m st)) l) := by
  rw [contrib_plain hl hop hm hst hd hcap hfree hw hc hg hv, if_neg (by omega)]

theorem contrib_retried (hfull : w.ari.aside.length < v.ari.aside.length) :
    exec (.contrib l m) s = .next (settleLink (answerMsg { v with ari.aside := w.ari.aside } m 0x12 [] [] 0) l) := by
  rw [contrib_plain hl hop hm hst hd hcap hfree hw hc hg hv, if_pos hfull]

end

/-! ### SIGNAL (R238, R359, R411) -/

section
variable (hl : l < 16) (hop : m.op = 4) (hm : firstOf s l 0 = some m) (hst : (linkOf s l).st = lkLive) (hd : m.dest = ownIndex s)
  (hcap : s.ink.state ≠ stCapped) (hw : w = countMsg (freeMsg s l m) 20 m)
include hl hop hm hst hd hcap hw

/-- A SIGNAL's tally takes it unless its quadrant is under reset. -/
theorem signal_served : exec (.signal l m) s = .next (settleLink (
    if underReset w (tallyQuad (bits (fieldN m.fields 0 8) 13 0)) then answerCompl w m St.destReset
    else answerCompl (tallySignalAs w (bits (fieldN m.fields 0 8) 13 0) (BitVec.ofNat 32 (fieldN m.fields 4 4))
      (bit (fieldN m.fields 0 2) 15) 0xFFFF (some m.part)) m St.ok) l) :=
  congrArg _ (onLive_served hl hop hm hst hd hw hcap)

theorem signal_reset (hr : underReset w (tallyQuad (bits (fieldN m.fields 0 8) 13 0)) = true) :
    exec (.signal l m) s = .next (settleLink (answerCompl w m St.destReset) l) := by
  rw [signal_served hl hop hm hst hd hcap hw, if_pos hr]

theorem signal_taken (hr : underReset w (tallyQuad (bits (fieldN m.fields 0 8) 13 0)) = false) :
    exec (.signal l m) s = .next (settleLink (answerCompl (tallySignalAs w (bits (fieldN m.fields 0 8) 13 0)
      (BitVec.ofNat 32 (fieldN m.fields 4 4)) (bit (fieldN m.fields 0 2) 15) 0xFFFF (some m.part)) m St.ok) l) := by
  rw [signal_served hl hop hm hst hd hcap hw, if_neg (by simp [hr])]

end

/-! ### READ_DATA, COMPL, RETRY and REMOTE_TIMEOUT (R357, R359, R360) -/

section
variable {r : Remote}

theorem readData_taken (hl : l < 16) (hop : m.op = 0x10) (hm : firstOf s l 1 = some m) (hst : (linkOf s l).st = lkLive)
    (hd : m.dest = ownIndex s) (hw : w = countMsg (freeMsg s l m) 20 m) (hr : remoteFor w m = some r) :
    exec (.readData l m) s = .next (settleLink (takeReadData w l r m) l) := by
  refine (congrArg _ (onLive_forUs hl hop hm hst hd hw)).trans ?_
  simp only [hr]

theorem retry_taken (hl : l < 16) (hop : m.op = 0x12) (hm : firstOf s l 1 = some m) (hst : (linkOf s l).st = lkLive)
    (hd : m.dest = ownIndex s) (hw : w = countMsg (freeMsg s l m) 20 m) (hr : remoteFor w m = some r) (hcon : r.msg.op = 3) :
    exec (.retry l m) s = .next (settleLink (setRemote (match r.use with | .coll id => collProgress w id | _ => w)
      { r with retry := true, since := w.time }) l) := by
  refine (congrArg _ (onLive_forUs hl hop hm hst hd hw)).trans ?_
  simp only [hr, hcon, if_true] <;> rfl

section
variable (hl : l < 16) (hop : m.op = 0x11) (hm : firstOf s l 1 = some m) (hst : (linkOf s l).st = lkLive) (hd : m.dest = ownIndex s)
  (hw : w = countMsg (freeMsg s l m) 20 m)
include hl hop hm hst hd hw

theorem compl_unknown (hr : remoteFor w m = none) : exec (.compl l m) s = .next (settleLink w l) := by
  refine (congrArg _ (onLive_forUs hl hop hm hst hd hw)).trans ?_
  simp only [hr]

section
variable (hr : remoteFor w m = some r)
include hr

/-- COMPL ends its request, but for a read whose data has not all come. -/
theorem compl_known : exec (.compl l m) s =
    .next (settleLink (if fieldN m.fields 0 2 = St.ok ∧ r.left ≠ 0 then w else remoteDone w r (fieldN m.fields 0 2)) l) := by
  refine (congrArg _ (onLive_forUs hl hop hm hst hd hw)).trans ?_
  simp only [hr]

theorem compl_ends (h : r.left = 0 ∨ fieldN m.fields 0 2 ≠ St.ok) :
    exec (.compl l m) s = .next (settleLink (remoteDone w r (fieldN m.fields 0 2)) l) := by
  rw [compl_known hl hop hm hst hd hw hr, if_neg (by tauto)]

theorem compl_early (hleft : r.left ≠ 0) (hok : fieldN m.fields 0 2 = St.ok) : exec (.compl l m) s = .next (settleLink w l) := by
  rw [compl_known hl hop hm hst hd hw hr, if_pos ⟨hok, hleft⟩]

end
end
end

section
variable {tag : BitVec 16} {r : Remote}

theorem remoteTimeout_unknown (hr : s.duc.remotes.find? (fun r => r.tag == tag) = none) : exec (.remoteTimeout tag) s = .next s := by
  change execRemoteTimeout tag s = _
  simp only [execRemoteTimeout, hr]

section
variable (hr : s.duc.remotes.find? (fun r => r.tag == tag) = some r)
include hr

/-- An outstanding request is timed out when it is not set aside and the timeout has passed. -/
theorem remoteTimeout_known : exec (.remoteTimeout tag) s =
    .next (if !r.retry ∧ r.since + remoteUnits s ≤ s.time then remoteDone s r St.remoteTimeout else s) := by
  change execRemoteTimeout tag s = _
  simp only [execRemoteTimeout, hr]

theorem remoteTimeout_due (hre : r.retry = false) (hdue : r.since + remoteUnits s ≤ s.time) :
    exec (.remoteTimeout tag) s = .next (remoteDone s r St.remoteTimeout) := by
  rw [remoteTimeout_known hr, if_pos ⟨by rw [hre]; rfl, hdue⟩]

theorem remoteTimeout_early (h : r.retry = true ∨ s.time < r.since + remoteUnits s) : exec (.remoteTimeout tag) s = .next s := by
  rw [remoteTimeout_known hr, if_neg]
  rintro ⟨hre, hdue⟩
  rcases h with h | h
  · simp [h] at hre
  · omega

end
end

/-! ### LINE_MARKER (R46, R47, R369, log 97) -/

/-- Whether a marker that has come on link `l` in state `s` is another one than the ruling master's, by its route (R46, R369). -/
def markerForeign (s : State) (l master : Nat) : Bool :=
  !((linkOf s l).st == lkLive || (linkOf s l).st == lkQuarantine) || !s.rul.follower ||
    (master != s.rul.master && s.rul.pendMaster != some master) || routeTo s master != some l

section
variable {k corr : Nat} (hl : l < 16) (hop : m.op = 0x20) (hm : firstOf s l 2 = some m)
include hl hop hm

theorem lineMarker_taken (hv : v = freeMsg s l m) (hk : k = fieldN (m.second.getD []) 4 2)
    (hc : corr = fieldN (m.second.getD []) 8 8 + (linkOf s l).latency)
    (hu : u = (liveLinks v ++ quarantineLinks v).foldl (fun t n => if n = l then t else
      sendOn t n { markerMsg t corr (fieldN m.fields 0 6) (fieldN (m.second.getD []) 0 4) k with source := m.source, hops := m.hops }) v) :
    exec (.lineMarker l m) s = .next (settleLink (if markerForeign v l k = true then v
      else followMarker u k (fieldN m.fields 0 6) (fieldN (m.second.getD []) 0 4) (psUnits corr)) l) := by
  obtain ⟨r, n, q, hfree⟩ := linkOf_freeMsg s l m
  have hlat : (linkOf v l).latency = (linkOf s l).latency := by rw [hv, hfree]
  subst hk hu
  rw [hc, ← hlat, hv]
  exact congrArg _ (onMsg_taken hl hop hm)

theorem lineMarker_followed (hst : (linkOf s l).st = lkLive ∨ (linkOf s l).st = lkQuarantine) (hv : v = freeMsg s l m)
    (hf : s.rul.follower = true) (hk : k = fieldN (m.second.getD []) 4 2) (hmaster : k = s.rul.master ∨ s.rul.pendMaster = some k)
    (hroute : routeTo s k = some l) (hc : corr = fieldN (m.second.getD []) 8 8 + (linkOf s l).latency)
    (hu : u = (liveLinks v ++ quarantineLinks v).foldl (fun t n => if n = l then t else
      sendOn t n { markerMsg t corr (fieldN m.fields 0 6) (fieldN (m.second.getD []) 0 4) k with source := m.source, hops := m.hops }) v) :
    exec (.lineMarker l m) s =
      .next (settleLink (followMarker u k (fieldN m.fields 0 6) (fieldN (m.second.getD []) 0 4) (psUnits corr)) l) := by
  have hown : markerForeign v l k = false := by
    have hroute' : routeTo v k = some l := by rw [hv]; exact hroute
    have hrul : v.rul = s.rul := by rw [hv]; rfl
    have hst' : (linkOf v l).st = (linkOf s l).st := by rw [hv, freeMsg_linkOf_st]
    simp only [markerForeign, hst', hrul, hroute', hf]
    rcases hst with hst | hst <;> rcases hmaster with hmaster | hmaster <;> simp [hst, hmaster]
  rw [lineMarker_taken hl hop hm hv hk hc hu, if_neg (by simp [hown])]

theorem lineMarker_foreign (hv : v = freeMsg s l m) (hroute : routeTo s (fieldN (m.second.getD []) 4 2) ≠ some l) :
    exec (.lineMarker l m) s = .next (settleLink v l) := by
  have hroute' : routeTo v (fieldN (m.second.getD []) 4 2) ≠ some l := by rw [hv]; exact hroute
  rw [lineMarker_taken hl hop hm hv rfl rfl rfl, if_pos (by simp [markerForeign, hroute'])]

end

/-! ### SLOW and ADVERT (R370, R377) -/

section
variable (hl : l < 16) (hop : m.op = 0x21) (hm : firstOf s l 2 = some m) (hst : (linkOf s l).st = lkLive) (hv : v = freeMsg s l m)
include hl hop hm hst hv

theorem slow_new (hother : m.source ≠ ownIndex s) (hfirst : mfind s.duc.shareSeqs m.source = none)
    (hu : u = { v with duc.shares := mput v.duc.shares m.source (fieldN m.fields 0 2),
                       duc.shareSeqs := mput v.duc.shareSeqs m.source (BitVec.ofNat 16 (fieldN m.fields 2 2)) }) :
    exec (.slow l m) s =
      .next (settleLink (passOn (postSlow u (declaredShare u) m.source (fieldN m.fields 0 2)) l m) l) := by
  subst hu hv
  refine (congrArg _ (onLive_taken hl hop hm hst)).trans (settles (if_neg ?_))
  rw [show (freeMsg s l m).duc.shareSeqs = s.duc.shareSeqs from rfl, hfirst]
  exact fun h => h.elim hother Bool.false_ne_true

theorem slow_old {p : BitVec 16} (hseq : mfind s.duc.shareSeqs m.source = some p)
    (hold : newer (BitVec.ofNat 16 (fieldN m.fields 2 2)) p = false) : exec (.slow l m) s = .next (settleLink v l) := by
  subst hv
  refine (congrArg _ (onLive_taken hl hop hm hst)).trans (settles (if_pos (.inr ?_)))
  rw [show (freeMsg s l m).duc.shareSeqs = s.duc.shareSeqs from rfl, hseq]
  simp only [hold, Bool.not_false]

end

/-- Taking a message leaves what an ADVERT is judged by. -/
theorem advertCounts_freeMsg (s : State) (l src : Nat) (m : Msg) : advertCounts (freeMsg s l m) l src = advertCounts s l src := by
  obtain ⟨r, n, k, hfree⟩ := linkOf_freeMsg s l m
  unfold advertCounts
  rw [hfree]
  rfl

theorem advert_new (hl : l < 16) (hop : m.op = 0x22) (hm : firstOf s l 2 = some m) (hcounts : advertCounts s l m.source = true)
    (hv : v = freeMsg s l m) (hother : m.source ≠ ownIndex s) (hfirst : mfind s.duc.adverts m.source = none) :
    exec (.advert l m) s = .next (settleLink (passOn { v with
      duc.adverts := mput v.duc.adverts m.source (Advert.mk (bit (fieldN m.fields 0 1) 0) (bit (fieldN m.fields 0 1) 1)
        (some (BitVec.ofNat 16 (fieldN m.fields 2 2)))) } l m) l) := by
  subst hv
  refine (congrArg _ (onMsg_taken hl hop hm)).trans (settles (if_neg ?_))
  rw [advertCounts_freeMsg, hcounts, show (freeMsg s l m).duc.adverts = s.duc.adverts from rfl, hfirst]
  exact fun h => h.elim Bool.false_ne_true fun h => h.elim hother Bool.false_ne_true

/-! ### What passing a message on leaves of the collectives -/

/-- What both branches keep, the choice keeps. -/
theorem ite_keeps {β : Type} {P : Prop} [Decidable P] {a b : State} {x : β} (g : State → β) (ha : g a = x) (hb : g b = x) :
    g (if P then a else b) = x := by
  split
  · exact ha
  · exact hb

@[simp] theorem bumpO_duc (s : State) (p : Option Nat) (i n : Nat) : (bumpO s p i n).duc = s.duc := by
  cases p with
  | none => rfl
  | some p => exact bump_duc ..

@[simp] theorem traceAt_duc (s : State) (inst type unit : Nat) (part : Option Nat) (payload : List Byte) (forced : Bool) :
    (traceAt s inst type unit part payload forced).duc = s.duc :=
  ite_keeps State.duc rfl (ite_keeps State.duc (bumpO_duc ..) (bumpO_duc ..))

@[simp] theorem noteMsg_duc (s : State) (l : Nat) (m : Msg) (type : Nat) : (noteMsg s l m type).duc = s.duc :=
  ite_keeps State.duc rfl (traceAt_duc ..)

@[simp] theorem countMsg_duc (s : State) (i : Nat) (m : Msg) : (countMsg s i m).duc = s.duc := ite_keeps State.duc (bump_duc ..) rfl

theorem pumpGo_colls (l n : Nat) (s : State) : (pumpGo l n s).duc.colls = s.duc.colls := by
  induction n generalizing s with
  | zero => rfl
  | succ n ih =>
    simp only [pumpGo]
    split
    · rfl
    · split
      · rfl
      · rw [ih, prog_duc]
        exact foldl_keeps (fun t => t.duc.colls) _ _ fun t m =>
          ite_keeps (fun t => t.duc.colls) (by rw [noteMsg_duc, countMsg_duc]) rfl

theorem sendOn_colls (s : State) (l : Nat) (m : Msg) : (sendOn s l m).duc.colls = s.duc.colls := pumpGo_colls ..

theorem passOn_colls (s : State) (l : Nat) (m : Msg) : (passOn s l m).duc.colls = s.duc.colls :=
  foldl_keeps (fun t => t.duc.colls) _ s fun _ _ => ite_keeps (fun t => t.duc.colls) (sendOn_colls ..) rfl

/-! ### COLL_READY, COLL_ABORT and CONCORD (R364, R373, R378) -/

section
variable (hl : l < 16) (hop : m.op = 0x23) (hm : firstOf s l 2 = some m) (hst : (linkOf s l).st = lkLive) (hv : v = freeMsg s l m)
  (hnew : s.duc.readySeen.any (fun e => e.1 == fieldN m.fields 0 4 && e.2.1 == m.source) = false)
  (hu : u = passOn { v with duc.readySeen := v.duc.readySeen ++ [(fieldN m.fields 0 4, m.source, BitVec.ofNat 32 (fieldN m.fields 4 4))] } l m)
include hl hop hm hst hv hnew hu

/-- A COLL_READY that is new is remembered and passed on, and then its collective's signature decides. -/
theorem collReady_new : exec (.collReady l m) s = .next (settleLink (
    match collOf u (fieldN m.fields 0 4) with
    | none => u
    | some x =>
      if BitVec.ofNat 32 (fieldN m.fields 4 4) ≠ x.signature then collFail u (fieldN m.fields 0 4) St.collMismatch
      else if x.begun then
        collPush (modColl (collProgress u (fieldN m.fields 0 4)) (fieldN m.fields 0 4) (fun c => { c with ready := c.ready ++ [m.source] }))
          (fieldN m.fields 0 4)
      else u) l) := by
  subst hu hv
  refine (congrArg _ (onLive_taken hl hop hm hst)).trans (settles (if_neg ?_))
  rw [show (freeMsg s l m).duc.readySeen = s.duc.readySeen from rfl, hnew]
  exact Bool.false_ne_true

theorem collReady_noCollective (hnone : s.duc.colls = []) : exec (.collReady l m) s = .next (settleLink u l) := by
  have hcolls : u.duc.colls = [] := by
    rw [hu, passOn_colls, hv]
    exact hnone
  rw [collReady_new hl hop hm hst hv hnew hu]
  simp only [collOf, hcolls, List.find?_nil]

section
variable {x : Coll} (hx : collOf u (fieldN m.fields 0 4) = some x)
include hx

theorem collReady_mismatch (hsig : BitVec.ofNat 32 (fieldN m.fields 4 4) ≠ x.signature) :
    exec (.collReady l m) s = .next (settleLink (collFail u (fieldN m.fields 0 4) St.collMismatch) l) := by
  rw [collReady_new hl hop hm hst hv hnew hu]
  simp only [hx, if_pos hsig]

theorem collReady_begun (hsig : BitVec.ofNat 32 (fieldN m.fields 4 4) = x.signature) (hb : x.begun = true) :
    exec (.collReady l m) s = .next (settleLink (collPush (modColl (collProgress u (fieldN m.fields 0 4)) (fieldN m.fields 0 4)
      (fun c => { c with ready := c.ready ++ [m.source] })) (fieldN m.fields 0 4)) l) := by
  rw [collReady_new hl hop hm hst hv hnew hu]
  simp only [hx, if_neg (not_not.2 hsig), hb, if_true]

end
end

section
variable (hl : l < 16) (hop : m.op = 0x24) (hm : firstOf s l 2 = some m) (hst : (linkOf s l).st = lkLive) (hv : v = freeMsg s l m)
  (hnew : s.duc.aborted.any (fun e => e.1 == fieldN m.fields 0 4) = false)
include hl hop hm hst hv hnew

/-- A COLL_ABORT that is new aborts its collective, or is remembered, and is passed on. -/
theorem collAbortReceived_new : exec (.collAbortReceived l m) s = .next (settleLink (passOn (
    if (collOf s (fieldN m.fields 0 4)).isSome then collAbort v (fieldN m.fields 0 4) (fieldN m.fields 4 2) (fieldN m.fields 6 2) true
    else rememberAbort v (fieldN m.fields 0 4) (fieldN m.fields 4 2)) l m) l) := by
  subst hv
  refine (congrArg _ (onLive_taken hl hop hm hst)).trans (settles (if_neg ?_))
  rw [show (freeMsg s l m).duc.aborted = s.duc.aborted from rfl, hnew]
  exact Bool.false_ne_true

theorem collAbortReceived_remembered (hx : collOf s (fieldN m.fields 0 4) = none) :
    exec (.collAbortReceived l m) s =
      .next (settleLink (passOn (rememberAbort v (fieldN m.fields 0 4) (fieldN m.fields 4 2)) l m) l) := by
  rw [collAbortReceived_new hl hop hm hst hv hnew, hx]
  rfl

theorem collAbortReceived_aborts {x : Coll} (hx : collOf s (fieldN m.fields 0 4) = some x) :
    exec (.collAbortReceived l m) s = .next (settleLink
      (passOn (collAbort v (fieldN m.fields 0 4) (fieldN m.fields 4 2) (fieldN m.fields 6 2) true) l m) l) := by
  rw [collAbortReceived_new hl hop hm hst hv hnew, hx]
  rfl

end

theorem concord_arrives (hl : l < 16) (hop : m.op = 0x25) (hm : firstOf s l 2 = some m) (hv : v = freeMsg s l m) :
    exec (.concord l m) s =
      .next (settleLink (concordArrives v l (bit (fieldN m.fields 0 1) 0) (parseConcord (m.data.headD []))) l) := by
  subst hv
  exact congrArg _ (onMsg_taken hl hop hm)

end

/-- Settles O53: how the row takes its message, and then the case of what the message finds. -/
theorem peerMessageRows : Obligations.PeerMessageRows :=
  ⟨fun _ _ _ => request_notFirst, fun _ _ _ => answer_notFirst, fun _ _ _ _ _ _ => read_data,
    fun _ _ _ _ _ _ _ => read_fails, fun _ _ _ _ => read_unaligned, fun _ _ _ _ => read_capped, fun _ _ _ => read_forwarded,
    fun _ _ _ => read_held, fun _ _ _ _ _ _ => write_stored, fun _ _ _ _ => write_aborted, fun _ _ _ _ _ _ _ _ => contrib_taken,
    fun _ _ _ _ _ _ _ _ => contrib_retried, fun _ _ _ _ => signal_reset, fun _ _ _ _ => signal_taken, fun _ _ _ _ _ => readData_taken,
    fun _ _ _ _ _ => compl_ends, fun _ _ _ _ => compl_unknown, fun _ _ _ _ _ => compl_early, fun _ _ _ _ _ => retry_taken,
    fun _ _ _ => remoteTimeout_due, fun _ _ _ => remoteTimeout_early, fun _ _ => remoteTimeout_unknown,
    fun _ _ _ _ _ _ _ => lineMarker_followed, fun _ _ _ _ => lineMarker_foreign, fun _ _ _ _ _ => slow_new,
    fun _ _ _ _ _ hl hop hm hst hv => slow_old hl hop hm hst hv, fun _ _ _ _ => advert_new,
    fun _ _ _ _ hl hop hm hst hv hnew hnone => collReady_noCollective hl hop hm hst hv hnew rfl hnone,
    fun _ _ _ _ _ _ hl hop hm hst hv hnew hu => collReady_mismatch hl hop hm hst hv hnew hu,
    fun _ _ _ _ _ _ _ hl hop hm hst hv hnew hu hn => hn ▸ collReady_begun hl hop hm hst hv hnew hu,
    fun _ _ _ _ => collAbortReceived_remembered, fun _ _ _ _ _ hl hop hm hst hv hnew => collAbortReceived_aborts hl hop hm hst hv hnew,
    fun _ _ _ _ => concord_arrives⟩

end Sys2Proof.Machine
end

section
/-! PROOFS. The settings store, firmware slots, licences, the defect map, the management endpoints and the test port (R387, R393, R402 to
R408, R418, R463): what each command answers by its checks, and each request by the state of its session; then O57. -/

namespace Sys2Proof.Machine

/-! ### The boot record (R386, R400) -/

/-- An update goes to the copy that is not in force. -/
theorem bootUpdate_eq {s : State} (f : Boot → Boot) (hseq : (bootNow s).seq + 1 < 2 ^ 32) :
    bootUpdate s f =
      if s.pwr.boot1.valid && decide (bootNow s = s.pwr.boot1) && !(s.pwr.boot0.valid && decide (bootNow s = s.pwr.boot0)) then
        { s with pwr.boot0 := { f (bootNow s) with seq := (bootNow s).seq + 1, valid := true } }
      else { s with pwr.boot1 := { f (bootNow s) with seq := (bootNow s).seq + 1, valid := true } } := by
  have hmod : ((bootNow s).seq + 1) % 2 ^ 32 = (bootNow s).seq + 1 := Nat.mod_eq_of_lt hseq
  simp only [bootUpdate, hmod]

section
variable {s : State} {n : Boot} (hn : n.valid = true)
include hn

/-- A valid record of copy 0 is in force unless copy 1 is newer. -/
theorem bootNow_boot0 (hseq : s.pwr.boot1.valid = true → s.pwr.boot1.seq ≤ n.seq) : bootNow { s with pwr.boot0 := n } = n := by
  cases h1 : s.pwr.boot1.valid with
  | false => simp [bootNow, h1]
  | true => simp [bootNow, h1, hn, Nat.not_lt.mpr (hseq h1)]

/-- A valid record of copy 1 that is newer than copy 0 is in force. -/
theorem bootNow_boot1 (hseq : s.pwr.boot0.valid = true → s.pwr.boot0.seq < n.seq) : bootNow { s with pwr.boot1 := n } = n := by
  cases h0 : s.pwr.boot0.valid with
  | false => simp [bootNow, h0, hn]
  | true => simp [bootNow, h0, hn, hseq h0]

end

/-- The record in force is at least as new as a valid copy. -/
theorem seq_le_bootNow (s : State) : (s.pwr.boot0.valid = true → s.pwr.boot0.seq ≤ (bootNow s).seq) ∧
    (s.pwr.boot1.valid = true → s.pwr.boot1.seq ≤ (bootNow s).seq) := by
  cases h0 : s.pwr.boot0.valid <;> cases h1 : s.pwr.boot1.valid <;> simp only [bootNow, h0, h1] <;> grind

/-- An update whose sequence does not wrap is the boot record in force. -/
theorem bootNow_bootUpdate {s : State} (f : Boot → Boot) (hseq : (bootNow s).seq + 1 < 2 ^ 32) :
    bootNow (bootUpdate s f) = { f (bootNow s) with seq := (bootNow s).seq + 1, valid := true } := by
  obtain ⟨h0, h1⟩ := seq_le_bootNow s
  rw [bootUpdate_eq f hseq]
  split
  · exact bootNow_boot0 rfl fun h => Nat.le_succ_of_le (h1 h)
  · exact bootNow_boot1 rfl fun h => Nat.lt_succ_of_le (h0 h)

section
variable {c : Cmd} {s a : State}

/-! ### BRINGUP_CONFIG and the defect map (R393, R419) -/

section
variable (h : Begun { op := 0x0B03, need := 2, vf := false } c s a)
include h

theorem bringupConfig_completes (hmode : p8 c 0 ≤ 1) :
    Completes (.bringupConfig c) c s { storeSection a secBringup [BitVec.ofNat 8 (p8 c 0), BitVec.ofNat 8 (p8 c 1 % 2)] with
      pwr.coldSampled := p8 c 0 == 1, pwr.fastPathOn := bit (p8 c 1) 0 } [] :=
  completes_of rfl h (checked_tail (by simpa using hmode))

theorem bringupConfig_badMode (hmode : 1 < p8 c 0) : exec (.bringupConfig c) s = .next (complete a c St.invalidField []) :=
  ends_of rfl h (checked_head (by simpa using hmode))

end

theorem defectMapRead_completes (h : Begun { op := 0x0B04, need := 8, vf := false } c s a)
    (hw : hostOk a (p64 c 0) (defectBody a.pwr.defect).length = true) :
    Completes (.defectMapRead c) c s (hostStore a (p64 c 0) (defectBody a.pwr.defect)) [] :=
  completes_of rfl h (reportTo_ok hw)

section
variable {t : Tier} {u : Nat} (h : Begun { op := 0x0B05, need := 2, vf := false } c s a)
include h

theorem defectMapClear_noUnit (hu : unitField c 0 = none) : exec (.defectMapClear c) s = .next (complete a c St.invalidField []) :=
  ends_of rfl h (by simp only [hu])

variable (hu : unitField c 0 = some (t, u))
include hu

/-- A unit is named once. -/
theorem defectMapClear_unit : Completes (.defectMapClear c) c s
    (if a.pwr.clearUnits.contains (unitNo t u) then a else { a with pwr.clearUnits := a.pwr.clearUnits ++ [unitNo t u] }) [] :=
  completes_of rfl h (by simp only [hu])

theorem defectMapClear_new (hno : a.pwr.clearUnits.contains (unitNo t u) = false) :
    Completes (.defectMapClear c) c s { a with pwr.clearUnits := a.pwr.clearUnits ++ [unitNo t u] } [] := by
  have hunit := defectMapClear_unit h hu
  rwa [if_neg (by simpa using hno)] at hunit

theorem defectMapClear_named (hin : a.pwr.clearUnits.contains (unitNo t u) = true) : Completes (.defectMapClear c) c s a [] := by
  have hunit := defectMapClear_unit h hu
  rwa [if_pos hin] at hunit

end

/-! ### The settings store (R404 to R406) -/

section
variable {x : Section} (h : Begun { op := 0x0B06, need := 16, vf := false } c s a)
include h

theorem settingsRead_noSection (hid : (secInfo (p16 c 0)).isNone = true) :
    exec (.settingsRead c) s = .next (complete a c St.invalidField []) :=
  ends_of rfl h (checked_head hid)

section
variable (hid : (secInfo (p16 c 0)).isSome = true)
include hid

theorem settingsRead_stored (hx : readSection a (p16 c 0) = some x) (hw : hostOk a (p64 c 8) (sectionBytes x).length = true) :
    Completes (.settingsRead c) c s (hostStore a (p64 c 8) (sectionBytes x))
      (leBytes 2 x.ver ++ [if x.ver = secWritten (p16 c 0) then 0 else 2]) := by
  have hform : readForm a (p16 c 0) = x := by simp only [readForm, hx]
  refine completes_of rfl h ((checked_tail (by simpa using hid)).trans ?_)
  simp only [checked_nil, hform, hx, reportTo_ok hw]
  by_cases hver : x.ver = secWritten (p16 c 0) <;> simp [hver, b2n]

theorem settingsRead_default (hx : readSection a (p16 c 0) = none) (hopt : secMandatory (p16 c 0) = false)
    (hform : x = mkSection (p16 c 0) (secWritten (p16 c 0)) (serviceBody a (p16 c 0)))
    (hw : hostOk a (p64 c 8) (sectionBytes x).length = true) :
    Completes (.settingsRead c) c s (hostStore a (p64 c 8) (sectionBytes x)) (leBytes 2 x.ver ++ [1]) := by
  have hread : readForm a (p16 c 0) = x := by simp [readForm, hx, hopt, hform]
  refine completes_of rfl h ((checked_tail (by simpa using hid)).trans ?_)
  simp only [checked_nil, hread, hx, reportTo_ok hw]
  simp [b2n]

end
end

section
variable {x : Section} (h : Begun { op := 0x0B07, need := 16, ext := true, full := fun _ c => 16 + p32 c 4, vf := false } c s a)
include h

theorem settingsWrite_unreadable (hbad : secReadable (writtenSection c) = false) :
    exec (.settingsWrite c) s = .next (complete a c St.invalidField []) :=
  ends_of rfl h (checked_head (by simp [hbad]))

section
variable (hx : x = writtenSection c) (hok : secReadable x = true)
include hx hok

theorem settingsWrite_stores (hmay : secMandatory x.id = false ∨ a.ink.state = stMinimal ∨ a.ink.state = stDiagnostic) :
    Completes (.settingsWrite c) c s (minimalDone (writeStore a (replaceSection (storeSections a) x))) [] := by
  subst hx
  refine completes_of rfl h ((checked_tail (by simp [hok])).trans (checked_tail ?_))
  rcases hmay with hmay | hmay | hmay <;> simp [hmay]

theorem settingsWrite_wrongState (hman : secMandatory x.id = true) (hmin : a.ink.state ≠ stMinimal) (hdiag : a.ink.state ≠ stDiagnostic) :
    exec (.settingsWrite c) s = .next (complete a c St.wrongState []) := by
  subst hx
  exact ends_of rfl h ((checked_tail (by simp [hok])).trans (checked_head (by simp [hman, hmin, hdiag])))

end
end

theorem minimalDone_elsewhere (hst : s.ink.state ≠ stMinimal) : minimalDone s = s := if_neg hst

theorem minimalDone_clears (hst : s.ink.state = stMinimal) (hseq : (bootNow s).seq + 1 < 2 ^ 32) : (bootNow (minimalDone s)).failed = 0 := by
  rw [minimalDone, if_pos hst, bootNow_bootUpdate _ hseq]

theorem settingsCommit_completes (h : Begun { op := 0x0B08, vf := false } c s a) : Completes (.settingsCommit c) c s (commitStore a) [] :=
  completes_of rfl h rfl

/-! ### Firmware slots (R398, R401, R402) -/

section
variable (h : Begun { op := 0x0B09, need := 64, ext := true, full := fun _ c => c.len, vf := false } c s a)
include h

theorem fwWrite_outOfRange (hbad : 16777216 < p32 c 4 ∨ p32 c 4 < p32 c 0 + ((body c).drop 64).length) :
    exec (.fwWrite c) s = .next (complete a c St.invalidField []) :=
  ends_of rfl h (checked_head (by simpa using hbad))

section
variable (hlen : p32 c 4 ≤ 16777216) (hend : p32 c 0 + ((body c).drop 64).length ≤ p32 c 4)
include hlen hend

theorem fwWrite_stores (hown : a.pwr.session.owner ≠ 2) : Completes (.fwWrite c) c s
    { writeSlot a (p32 c 4) (p32 c 0) ((body c).drop 64) with pwr.session := { owner := 1, since := a.time } } [] :=
  completes_of rfl h ((checked_tail (by simpa using And.intro hlen hend)).trans (checked_tail (by simpa using hown)))

theorem fwWrite_busy (hown : a.pwr.session.owner = 2) : exec (.fwWrite c) s = .next (complete a c St.fwSessionBusy []) :=
  ends_of rfl h ((checked_tail (by simpa using And.intro hlen hend)).trans (checked_head (by simp [hown])))

end
end

/-- An update that verifies is set pending. -/
theorem activate_ok {sig : Bool} (hver : (bootNow s).minSec ≤ imageVersion (slotBytes s (updateSlot s)))
    (hsound : imageSound (slotBytes s (updateSlot s)) sig = true) :
    activate s sig = (St.ok, minimalDone (bootUpdate s (fun b => { b with pending := updateSlot s, next := updateSlot s }))) := by
  rw [activate, if_neg (by omega), if_neg (by simp [hsound])]

theorem activate_unsound {sig : Bool} (hver : (bootNow s).minSec ≤ imageVersion (slotBytes s (updateSlot s)))
    (hbad : imageSound (slotBytes s (updateSlot s)) sig = false) : activate s sig = (St.imageInvalid, s) := by
  rw [activate, if_neg (by omega), if_pos (by simp [hbad])]

theorem activate_rollback {sig : Bool} (hver : imageVersion (slotBytes s (updateSlot s)) < (bootNow s).minSec) :
    activate s sig = (St.fwRollback, s) := if_pos hver

section
variable {sig : Bool} (h : Begun { op := 0x0B0A, vf := false } c s a)
include h

theorem fwActivate_busy (hown : a.pwr.session.owner = 2) : exec (.fwActivate c sig) s = .next (complete a c St.fwSessionBusy []) :=
  ends_of rfl h (checked_head (by simp [hown]))

variable (hown : a.pwr.session.owner ≠ 2)
include hown

/-- FW_ACTIVATE ends the session and answers with the outcome of the activation. -/
theorem fwActivate_answers {st : Nat} {u : State} (hact : activate (endSession a) sig = (st, u)) :
    exec (.fwActivate c sig) s = .next (complete u c st []) :=
  ends_of rfl h ((checked_tail (by simpa using hown)).trans (by simp only [checked_nil, hact]))

theorem fwActivate_completes (hver : (bootNow a).minSec ≤ imageVersion (slotBytes a (updateSlot a)))
    (hsound : imageSound (slotBytes a (updateSlot a)) sig = true) : Completes (.fwActivate c sig) c s
      (minimalDone (bootUpdate (endSession a) (fun b => { b with pending := updateSlot a, next := updateSlot a }))) [] :=
  fwActivate_answers h hown (activate_ok (s := endSession a) hver hsound)

theorem fwActivate_unsound (hver : (bootNow a).minSec ≤ imageVersion (slotBytes a (updateSlot a)))
    (hbad : imageSound (slotBytes a (updateSlot a)) sig = false) :
    exec (.fwActivate c sig) s = .next (complete (endSession a) c St.imageInvalid []) :=
  fwActivate_answers h hown (activate_unsound (s := endSession a) hver hbad)

theorem fwActivate_rollback (hver : imageVersion (slotBytes a (updateSlot a)) < (bootNow a).minSec) :
    exec (.fwActivate c sig) s = .next (complete (endSession a) c St.fwRollback []) :=
  fwActivate_answers h hown (activate_rollback (s := endSession a) hver)

end

section
variable (h : Begun { op := 0x0B0B, need := 8, vf := false } c s a)
include h

theorem fwStatus_running (hrun : imageRuns a = true) (hw : hostOk a (p64 c 0) 64 = true) :
    Completes (.fwStatus c) c s (hostStore a (p64 c 0) (padTo 64 ([BitVec.ofNat 8 (bootNow a).active, BitVec.ofNat 8 (bootNow a).pending,
      BitVec.ofNat 8 a.pwr.runSlot, 0] ++ leBytes 4 (bootNow a).minSec ++ slice a.pwr.slotA 0 8 ++ slice a.pwr.slotB 0 8))) [] := by
  refine completes_of rfl h ?_
  simp only [hrun, if_true]
  exact reportTo_ok (by rwa [padTo_length])

theorem fwStatus_noImage (hrun : imageRuns a = false) (hw : hostOk a (p64 c 0) 64 = true) :
    Completes (.fwStatus c) c s (hostStore (freeBytes a 1).2 (p64 c 0) (padTo 64 ([BitVec.ofNat 8 (bootNow a).active,
      BitVec.ofNat 8 (bootNow a).pending] ++ (freeBytes a 1).1 ++ [0] ++ leBytes 4 (bootNow a).minSec ++ slice a.pwr.slotA 0 8 ++
      slice a.pwr.slotB 0 8))) [] := by
  refine completes_of rfl h ?_
  simp only [hrun, Bool.false_eq_true, if_false]
  exact reportTo_ok (by rw [padTo_length]; exact hw)

end

/-! ### Licences (R407, R408) -/

section
variable {b : List Byte} {v : State}
  (h : Begun { op := 0x0B0C, need := 128, ext := true, full := fun _ c => if p8 c 1 ≤ 16 then licenceLen (body c) else 0, vf := false } c s a)
include h

theorem licenceInstall_badSignature : exec (.licenceInstall c false) s = .next (complete a c St.licenceInvalid []) :=
  ends_of rfl h (checked_head (by simp))

section
variable (hb : b = (body c).take (min c.len (licenceLen (body c)))) (hf : licenceFormat b = true)
include hb hf

theorem licenceInstall_completes (hdev : fieldN b 8 8 = Config.uniqueId)
    (hser : (installed a).any (fun o => decide (recordSerial o ≥ recordSerial b)) = false)
    (hroom : ((installed a).filter (fun o => !superseded (installed a ++ [b]) o)).length < 8)
    (hv : v = { a with pwr.sigGood := if a.pwr.sigGood.contains b then a.pwr.sigGood else a.pwr.sigGood ++ [b] }) :
    Completes (.licenceInstall c true) c s (minimalDone (storeSection v secLicences
      (((installed a).filter (fun o => !superseded (installed a ++ [b]) o)).flatten ++ b))) [] := by
  subst hb hv
  exact completes_of rfl h ((checked_tail (by simp [hf])).trans ((checked_tail (by simp [hdev])).trans
    ((checked_tail hser).trans (checked_tail (decide_eq_false (by omega))))))

theorem licenceInstall_refused :
    (fieldN b 8 8 ≠ Config.uniqueId → exec (.licenceInstall c true) s = .next (complete a c St.licenceBinding [])) ∧
    (fieldN b 8 8 = Config.uniqueId → (installed a).any (fun o => decide (recordSerial o ≥ recordSerial b)) = true →
      exec (.licenceInstall c true) s = .next (complete a c St.licenceRollback [])) ∧
    (fieldN b 8 8 = Config.uniqueId → (installed a).any (fun o => decide (recordSerial o ≥ recordSerial b)) = false →
      8 ≤ ((installed a).filter (fun o => !superseded (installed a ++ [b]) o)).length →
      exec (.licenceInstall c true) s = .next (complete a c St.resourceExhausted [])) := by
  subst hb
  refine ⟨fun hdev => ends_of rfl h ((checked_tail (by simp [hf])).trans (checked_head (by simp [hdev]))),
    fun hdev hser => ends_of rfl h ((checked_tail (by simp [hf])).trans ((checked_tail (by simp [hdev])).trans (checked_head hser))),
    fun hdev hser hfull => ends_of rfl h ((checked_tail (by simp [hf])).trans ((checked_tail (by simp [hdev])).trans
      ((checked_tail hser).trans (checked_head (decide_eq_true hfull)))))⟩

end
end

theorem licenceQuery_completes (h : Begun { op := 0x0B0D, need := 8, vf := false } c s a) (hw : hostOk a (p64 c 0) 256 = true) :
    Completes (.licenceQuery c) c s (hostStore a (p64 c 0) (padTo 256 (([1, 2, 3].filterMap (entryInForce a)).flatten))) [] :=
  completes_of rfl h (reportTo_ok (by rwa [padTo_length]))

/-! ### FW_SESSION_TIMEOUT and held devices (R402, R418) -/

theorem fwSessionTimeout_due (hdue : s.pwr.session.since + 60 * secondUnits ≤ s.time) :
    exec .fwSessionTimeout s = .next (endSession s) := next_if_pos hdue

theorem fwSessionTimeout_early (h : s.time < s.pwr.session.since + 60 * secondUnits) : exec .fwSessionTimeout s = .next s :=
  next_if_neg (by omega)

/-- Every row of a management endpoint tests first whether the device is held. -/
theorem management_held {i : Instr} {m : MgmtReq} {sig : Bool} {x : Sensor} (hh : held s = true)
    (hi : i ∈ [.queryDeviceIdentifiers, .getStatus, .getFirmwareParameters, .requestUpdate, .cancelUpdate, .passComponentTable m,
      .updateComponent m, .requestFirmwareData m, .transferComplete m, .verifyComplete m, .applyComplete m, .activateFirmware sig,
      .pldmSensorRequest x, .getVersion, .getCapabilities, .negotiateAlgorithms, .getDigests, .getCertificate, .challenge,
      .getMeasurements]) : exec i s = .next s := by
  simp only [List.mem_cons, List.not_mem_nil, or_false] at hi
  rcases hi with rfl | rfl | rfl | rfl | rfl | rfl | rfl | rfl | rfl | rfl | rfl | rfl | rfl | rfl | rfl | rfl | rfl | rfl | rfl | rfl <;>
    exact next_if_pos hh

/-! ### PLDM for Firmware Update (R403) -/

section
variable {n : Nat} {f : State → State} (hh : held s = false)
include hh

theorem pldmIn_notInUpdate (ho : s.pwr.session.owner ≠ 2) : pldmIn n s f = respond s [pldmNotInUpdate] := by
  rw [pldmIn, if_neg (by simp [hh]), if_pos (by simpa using ho)]

theorem pldmIn_wrongPhase (ho : s.pwr.session.owner = 2) (hp : s.pwr.session.phase ≠ n) : pldmIn n s f = respond s [pldmState] := by
  rw [pldmIn, if_neg (by simp [hh]), if_neg (by simp [ho]), if_pos (by simpa using hp)]

theorem pldmIn_inPhase (hp : inPhase s n = true) : pldmIn n s f = f s := by
  simp only [inPhase, Bool.and_eq_true, beq_iff_eq] at hp
  rw [pldmIn, if_neg (by simp [hh]), if_neg (by simp [hp.1]), if_neg (by simp [hp.2])]

end

/-- Every request of the session is refused outside the session and outside its phase. -/
theorem pldm_refused {i : Instr} {k : Nat} {m : MgmtReq} {sig : Bool} (hh : held s = false)
    (hi : (k, i) ∈ [(1, .passComponentTable m), (2, .updateComponent m), (3, .requestFirmwareData m), (3, .transferComplete m),
      (4, .verifyComplete m), (5, .applyComplete m), (2, .activateFirmware sig)]) :
    (s.pwr.session.owner ≠ 2 → exec i s = .next (respond s [pldmNotInUpdate])) ∧
    (s.pwr.session.owner = 2 → s.pwr.session.phase ≠ k → exec i s = .next (respond s [pldmState])) := by
  simp only [List.mem_cons, List.not_mem_nil, or_false, Prod.mk.injEq] at hi
  rcases hi with ⟨rfl, rfl⟩ | ⟨rfl, rfl⟩ | ⟨rfl, rfl⟩ | ⟨rfl, rfl⟩ | ⟨rfl, rfl⟩ | ⟨rfl, rfl⟩ | ⟨rfl, rfl⟩ <;>
    exact ⟨fun ho => congrArg _ (pldmIn_notInUpdate hh ho), fun ho hp => congrArg _ (pldmIn_wrongPhase hh ho hp)⟩

section
variable {m : MgmtReq}

theorem queryDeviceIdentifiers_getStatus (hh : held s = false) :
    exec .queryDeviceIdentifiers s = .next (respond s (pldmOk :: leBytes 8 Config.uniqueId)) ∧
    exec .getStatus s = .next (respond s [pldmOk, BitVec.ofNat 8 (if s.pwr.session.owner = 2 then s.pwr.session.phase else 0)]) :=
  ⟨next_if_neg (by simp [hh]), next_if_neg (by simp [hh])⟩

theorem getFirmwareParameters_answers (hh : held s = false) :
    exec .getFirmwareParameters s = .next (respond s (pldmOk :: leBytes 2 0x0001 ++ slice (slotBytes s (bootNow s).active) 2 2 ++
      (if (bootNow s).pending < 2 then slice (slotBytes s (bootNow s).pending) 2 2 else zeros 2))) :=
  next_if_neg (by simp [hh])

theorem requestUpdate_opens (hh : held s = false) (ho : s.pwr.session.owner = 0) :
    exec .requestUpdate s =
      .next (respond { s with pwr.session := { owner := 2, phase := 1, since := s.time } } (pldmOk :: leBytes 4 4096)) :=
  (next_if_neg (by simp [hh])).trans (next_if_neg (by simp [ho]))

theorem requestUpdate_refused (hh : held s = false) (ho : s.pwr.session.owner ≠ 0) :
    exec .requestUpdate s = .next (respond s [pldmAlready]) :=
  (next_if_neg (by simp [hh])).trans (next_if_pos (by simpa using ho))

theorem cancelUpdate_ends (hh : held s = false) (ho : s.pwr.session.owner = 2) :
    exec .cancelUpdate s = .next (respond (endSession s) [pldmOk]) :=
  (next_if_neg (by simp [hh])).trans (next_if_neg (by simp [ho]))

theorem cancelUpdate_refused (hh : held s = false) (ho : s.pwr.session.owner ≠ 2) :
    exec .cancelUpdate s = .next (respond s [pldmNotInUpdate]) :=
  (next_if_neg (by simp [hh])).trans (next_if_pos (by simpa using ho))

theorem passComponentTable_answers (hp : inPhase s 1 = true) (hh : held s = false) :
    exec (.passComponentTable m) s = .next (respond (if m.ok then toPhase s 2 else s) [pldmOk, if m.ok then 0 else 1]) :=
  congrArg _ (pldmIn_inPhase hh hp)

theorem updateComponent_answers (hp : inPhase s 2 = true) (hh : held s = false) :
    exec (.updateComponent m) s = .next (respond (if m.ok then toPhase s 3 else s) [pldmOk, if m.ok then 0 else 1]) :=
  congrArg _ (pldmIn_inPhase hh hp)

section
variable (hp : inPhase s 3 = true) (hh : held s = false)
include hp hh

/-- Data within its limits is written to the update slot. -/
theorem requestFirmwareData_answers : exec (.requestFirmwareData m) s = .next (
    if m.bytes.length > 4096 ∨ m.offset + m.bytes.length > 2 ^ 24 then respond s [pldmLength]
    else respond { writeSlot s 0 m.offset m.bytes with pwr.session := { s.pwr.session with since := s.time } } [pldmOk]) :=
  congrArg _ (pldmIn_inPhase hh hp)

theorem requestFirmwareData_writes (hlen : m.bytes.length ≤ 4096) (hend : m.offset + m.bytes.length ≤ 16777216) :
    exec (.requestFirmwareData m) s =
      .next (respond { writeSlot s 0 m.offset m.bytes with pwr.session := { s.pwr.session with since := s.time } } [pldmOk]) :=
  (requestFirmwareData_answers hp hh).trans (next_if_neg (by omega))

theorem requestFirmwareData_refused (hbad : 4096 < m.bytes.length ∨ 16777216 < m.offset + m.bytes.length) :
    exec (.requestFirmwareData m) s = .next (respond s [pldmLength]) :=
  (requestFirmwareData_answers hp hh).trans (next_if_pos (by omega))

theorem transferComplete_answers :
    exec (.transferComplete m) s = .next (respond (if m.ok then toPhase s 4 else endSession s) [pldmOk]) :=
  congrArg _ (pldmIn_inPhase hh hp)

end

theorem verifyComplete_answers (hp : inPhase s 4 = true) (hh : held s = false) :
    exec (.verifyComplete m) s = .next (respond (toPhase s (if m.ok then 5 else 2)) [pldmOk]) :=
  congrArg _ (pldmIn_inPhase hh hp)

theorem applyComplete_answers (hp : inPhase s 5 = true) (hh : held s = false) :
    exec (.applyComplete m) s = .next (respond (toPhase s 2) [pldmOk, if m.ok then 0 else 1]) :=
  congrArg _ (pldmIn_inPhase hh hp)

theorem activateFirmware_answers {u : State} {sig : Bool} {st : Nat} (hp : inPhase s 2 = true) (hh : held s = false)
    (hact : activate (endSession s) sig = (st, u)) :
    exec (.activateFirmware sig) s = .next (respond u (if st = St.ok then [pldmOk] else pldmError :: leBytes 2 st)) := by
  refine (congrArg _ (pldmIn_inPhase hh hp)).trans ?_
  simp only [hact]

end

/-! ### PLDM for Platform Monitoring (R418) -/

section
variable {x : Sensor} {u : Nat} (hh : held s = false)
include hh

theorem pldmSensorRequest_reads {b : List Byte} {v : State} (hr : sensorReading s x = some (b, v)) :
    exec (.pldmSensorRequest x) s = .next (respond v (pldmOk :: b)) := by
  refine (next_if_neg (by simp [hh])).trans ?_
  simp only [hr]

theorem pldmSensorRequest_none (hr : sensorReading s x = none) : exec (.pldmSensorRequest x) s = .next (respond s [pldmNotInUpdate]) := by
  refine (next_if_neg (by simp [hh])).trans ?_
  simp only [hr]

theorem stateSensor_reads : exec (.pldmSensorRequest .state) s = .next (respond s [pldmOk, BitVec.ofNat 8 s.ink.state.toNat]) :=
  pldmSensorRequest_reads hh rfl

/-- In MINIMAL the other sensors are not there. -/
theorem sensors_minimal (hst : s.ink.state = stMinimal) :
    exec (.pldmSensorRequest .power) s = .next (respond s [pldmNotInUpdate]) ∧
    exec (.pldmSensorRequest (.site u)) s = .next (respond s [pldmNotInUpdate]) ∧
    exec (.pldmSensorRequest (.port u)) s = .next (respond s [pldmNotInUpdate]) :=
  ⟨pldmSensorRequest_none hh (if_pos hst), pldmSensorRequest_none hh (if_neg fun h => h.1 hst),
    pldmSensorRequest_none hh (if_neg fun h => h.1 hst)⟩

section
variable (hst : s.ink.state ≠ stMinimal)
include hst

theorem siteSensor_reads (hu : u < 8) (hup : unitUp s .fast u = true) :
    exec (.pldmSensorRequest (.site u)) s = .next (respond s [pldmOk, BitVec.ofNat 8 (intBits 8 (thermalOf s .fast u).temp)]) :=
  pldmSensorRequest_reads hh (if_pos ⟨hst, hu, hup⟩)

theorem portSensor_reads (hu : u < 16) (hup : unitUp s .cap u = true) :
    exec (.pldmSensorRequest (.port u)) s = .next (respond s [pldmOk, BitVec.ofNat 8 (intBits 8 (thermalOf s .cap u).temp)]) :=
  pldmSensorRequest_reads hh (if_pos ⟨hst, hu, hup⟩)

theorem powerSensor_reads {w : Nat} {v : State} (hp : reportedPower s = (w, v)) :
    exec (.pldmSensorRequest .power) s = .next (respond v (pldmOk :: leBytes 2 w)) :=
  pldmSensorRequest_reads hh (by simp only [sensorReading, if_neg hst, hp])

end
end

/-- With samples held, power is their mean. -/
theorem reportedPower_sampled (hw : s.pwr.watts ≠ []) : reportedPower s = (min 65535 (s.pwr.watts.sum / s.pwr.watts.length), s) := by
  have hno : s.pwr.watts.isEmpty = false := by simpa using hw
  simp [reportedPower, meanPower, hno]

/-- Before the first sample, power is a free value (log 13). -/
theorem reportedPower_unsampled (hw : s.pwr.watts = []) : reportedPower s = ((freeWord s).1.toNat % 65536, (freeWord s).2) := by
  simp [reportedPower, hw]

/-! ### SPDM (R418) -/

theorem spdmAnswer_answers {n : Nat} {known b : List Byte} {u : State} (hh : held s = false) (hb : freeBytes s n = (b, u)) :
    spdmAnswer s known n = respond u (known ++ b) := by
  simp only [spdmAnswer, hh, hb, Bool.false_eq_true, if_false]

theorem spdm_answers {i : Instr} {n : Nat} {u : State} {b : List Byte} (hh : held s = false)
    (hi : (n, i) ∈ [(0, .getVersion), (16, .getCapabilities), (32, .negotiateAlgorithms), (48, .getDigests), (64, .getCertificate),
      (96, .challenge)]) (hb : freeBytes s n = (b, u)) : exec i s = .next (respond u (0x13 :: b)) := by
  simp only [List.mem_cons, List.not_mem_nil, or_false, Prod.mk.injEq] at hi
  rcases hi with ⟨rfl, rfl⟩ | ⟨rfl, rfl⟩ | ⟨rfl, rfl⟩ | ⟨rfl, rfl⟩ | ⟨rfl, rfl⟩ | ⟨rfl, rfl⟩ <;>
    exact congrArg _ (spdmAnswer_answers hh hb)

section
variable {u : State} {rom lic : List Byte}

theorem getMeasurements_running (hh : held s = false) (hrun : imageRuns s = true) (hrom : freeBytes s 4 = (rom, u))
    (hlic : lic = sha384 (((s.pwr.licences.filter (fun l => l.sigOk && l.unique == Config.uniqueId)).map (fun l => l.raw)).flatten)) :
    exec .getMeasurements s = .next (respond u ([0x13, 3] ++ rom ++ slice (slotBytes s s.pwr.runSlot) 16 48 ++ lic)) := by
  refine (next_if_neg (by simp [hh])).trans ?_
  simp only [hrom, hrun, if_true, ← hlic]

theorem getMeasurements_noImage {v : State} {img : List Byte} (hh : held s = false) (hrun : imageRuns s = false)
    (hrom : freeBytes s 4 = (rom, u)) (himg : freeBytes u 48 = (img, v))
    (hlic : lic = sha384 (((s.pwr.licences.filter (fun l => l.sigOk && l.unique == Config.uniqueId)).map (fun l => l.raw)).flatten)) :
    exec .getMeasurements s = .next (respond v ([0x13, 3] ++ rom ++ img ++ lic)) := by
  refine (next_if_neg (by simp [hh])).trans ?_
  simp only [hrom, himg, hrun, Bool.false_eq_true, if_false, ← hlic]

end

/-! ### The test port (R463) -/

theorem bypass_samplePreload (s : State) : exec .bypass s = .next (testPort s 0 0) ∧ exec .samplePreload s = .next (testPort s 2 0) :=
  ⟨rfl, rfl⟩

/-- The fields of IDCODE in IEEE 1149.1's order: version, part, manufacturer and a one. -/
theorem idcode_fields (v : BitVec 4) (p : BitVec 16) (m : BitVec 11) :
    (v ++ p ++ m ++ 1#1).getLsbD 0 = true ∧ (v ++ p ++ m ++ 1#1).extractLsb' 12 16 = p ∧
    (v ++ p ++ m ++ 1#1).extractLsb' 28 4 = v ∧ (v ++ p ++ m ++ 1#1).extractLsb' 1 11 = m := by
  refine ⟨by simp only [BitVec.getLsbD_append]; rfl, BitVec.eq_of_getLsbD_eq fun i hi => ?_, BitVec.eq_of_getLsbD_eq fun i hi => ?_,
    BitVec.eq_of_getLsbD_eq fun i hi => ?_⟩ <;>
  · simp only [BitVec.getLsbD_extractLsb', BitVec.getLsbD_append, hi, decide_true, Bool.true_and]
    grind

theorem idcode_captures (s : State) : ∃ t, exec .idcode s = .next t ∧ t.pwr.testIr = 1 ∧ t.pwr.testDr.getLsbD 0 = true ∧
    t.pwr.testDr.extractLsb' 12 16 = 0xB880 ∧ t.pwr.testDr.extractLsb' 28 4 = 1 ∧ t.pwr.testDr.extractLsb' 1 11 = Config.jtagManufacturer ∧
    t = { s with pwr.testIr := t.pwr.testIr, pwr.testDr := t.pwr.testDr } := by
  obtain ⟨hone, hpart, hversion, hmanufacturer⟩ := idcode_fields 0x1#4 0xB880#16 Config.jtagManufacturer
  exact ⟨_, rfl, rfl, hone, hpart, hversion, hmanufacturer, rfl⟩

theorem testOnly_strapped (h : strapTest s = true) (n : Nat) : testOnly s n = testPort s n 0 := by rw [testOnly, if_pos h]

theorem testOnly_bypass (h : strapTest s = false) (n : Nat) : testOnly s n = testPort s 0 0 := by rw [testOnly, if_neg (by simp [h])]

theorem testInstructions_strapped (h : strapTest s = true) : exec .extest s = .next (testPort s 3 0) ∧
    exec .clamp s = .next (testPort s 4 0) ∧ exec .highz s = .next (testPort s 5 0) :=
  ⟨congrArg _ (testOnly_strapped h 3), congrArg _ (testOnly_strapped h 4), congrArg _ (testOnly_strapped h 5)⟩

theorem testInstructions_bypass (h : strapTest s = false) : exec .extest s = .next (testPort s 0 0) ∧
    exec .clamp s = .next (testPort s 0 0) ∧ exec .highz s = .next (testPort s 0 0) :=
  ⟨congrArg _ (testOnly_bypass h 3), congrArg _ (testOnly_bypass h 4), congrArg _ (testOnly_bypass h 5)⟩

end

/-- Settles O57: each command, request and test instruction by its own rule. -/
theorem firmwareRows : Obligations.FirmwareRows :=
  ⟨fun _ _ _ => bringupConfig_completes, fun _ _ _ => bringupConfig_badMode, fun _ _ _ => defectMapRead_completes,
    fun _ _ _ _ _ => defectMapClear_new, fun _ _ _ _ _ => defectMapClear_named, fun _ _ _ => defectMapClear_noUnit,
    fun _ _ _ _ => settingsRead_stored, fun _ _ _ _ => settingsRead_default, fun _ _ _ => settingsRead_noSection,
    fun _ _ _ _ => settingsWrite_stores, fun _ _ _ _ => settingsWrite_wrongState, fun _ _ _ => settingsWrite_unreadable,
    fun _ => minimalDone_elsewhere, fun _ => minimalDone_clears, fun _ _ _ => settingsCommit_completes,
    fun _ _ _ => fwWrite_stores, fun _ _ _ => fwWrite_outOfRange, fun _ _ _ => fwWrite_busy,
    fun _ _ _ _ => fwActivate_busy, fun _ _ _ _ => fwActivate_completes, fun _ _ _ _ => fwActivate_unsound,
    fun _ _ _ _ => fwActivate_rollback, fun _ _ _ => fwStatus_running, fun _ _ _ => fwStatus_noImage,
    fun _ _ _ _ _ => licenceInstall_completes, fun _ _ _ _ => licenceInstall_refused, fun _ _ _ => licenceInstall_badSignature,
    fun _ _ _ => licenceQuery_completes, fun _ => fwSessionTimeout_due, fun _ => fwSessionTimeout_early,
    fun _ _ _ _ _ => management_held, fun _ => queryDeviceIdentifiers_getStatus, fun _ => getFirmwareParameters_answers,
    fun _ => requestUpdate_opens, fun _ => requestUpdate_refused, fun _ => cancelUpdate_ends, fun _ => cancelUpdate_refused,
    fun _ _ => passComponentTable_answers, fun _ _ => updateComponent_answers, fun _ _ => requestFirmwareData_writes,
    fun _ _ => requestFirmwareData_refused, fun _ _ => transferComplete_answers, fun _ _ => verifyComplete_answers,
    fun _ _ => applyComplete_answers, fun _ _ _ _ => activateFirmware_answers, fun _ _ _ _ _ => pldm_refused,
    fun _ => stateSensor_reads, fun _ _ => siteSensor_reads, fun _ _ => portSensor_reads,
    fun _ hh hst hw => powerSensor_reads hh hst (reportedPower_sampled hw),
    fun _ hh hst hw => powerSensor_reads hh hst (reportedPower_unsampled hw), fun _ _ => sensors_minimal,
    fun _ _ _ _ _ => spdm_answers, fun _ _ _ _ => getMeasurements_running, fun _ _ _ _ _ _ => getMeasurements_noImage,
    bypass_samplePreload, idcode_captures, fun _ => testInstructions_strapped, fun _ => testInstructions_bypass⟩

end Sys2Proof.Machine
end

section
/-! PROOFS. The commands and events of observation (R425, R428, R438, R439, R441, R443 to R446, R448, R451): what each command answers by
its checks, and when each event acts; then O58. -/

namespace Sys2Proof.Machine

section
variable {c : Cmd} {s a : State}

/-! ### Counters, latches and programmable counters (R423 to R428) -/

section
variable (h : Begun { op := 0x0C01, need := 16, part := some 0 } c s a)
include h

theorem obsCounters_completes {b : List Byte} (hp : p8 c 0 ≤ 3)
    (hb : b = leBytes 8 (stamp a).toNat ++ ((counters a (p8 c 0)).map (fun v => leBytes 8 v.toNat)).flatten)
    (hw : hostOk a (p64 c 8) b.length = true) : Completes (.obsCounters c) c s (hostStore a (p64 c 8) b) [] := by
  subst hb
  exact completes_of rfl h ((checked_tail (by simpa using hp)).trans (reportTo_ok hw))

theorem obsCounters_noPartition (hp : 3 < p8 c 0) : exec (.obsCounters c) s = .next (complete a c St.invalidField []) :=
  ends_of rfl h (checked_head (by simpa using hp))

end

section
variable (h : Begun { op := 0x0C02, need := 16, part := some 0 } c s a)
include h

theorem obsLatchRead_completes {b : List Byte} (hp : p8 c 0 ≤ 3) (hq : p8 c 1 ≤ 31)
    (hb : b = latchRecord (queueOf a (p8 c 0) (p8 c 1)).latch) (hw : hostOk a (p64 c 8) b.length = true) :
    Completes (.obsLatchRead c) c s (hostStore a (p64 c 8) b) [] := by
  subst hb
  exact completes_of rfl h ((checked_tail (by simpa using And.intro hp hq)).trans (reportTo_ok hw))

theorem obsLatchRead_noQueue (hbad : 3 < p8 c 0 ∨ 31 < p8 c 1) : exec (.obsLatchRead c) s = .next (complete a c St.invalidField []) :=
  ends_of rfl h (checked_head (by simpa using hbad))

end

section
variable (h : Begun { op := 0x0C03, need := 16, refuse := unitRefused } c s a)
include h

theorem obsProgConfig_noUnit (hu : unitValid a (p16 c 0) = false) : exec (.obsProgConfig c) s = .next (complete a c St.unitInvalid []) :=
  ends_of rfl h (checked_head (by simp [hu]))

variable (hu : unitValid a (p16 c 0) = true)
include hu

theorem obsProgConfig_completes (hk : p8 c 2 ≤ 7) (hclass : p16 c 8 / 4096 = p16 c 0 / 4096) (hev : eventListed (p16 c 8) = true)
    (hf : p8 c 10 ≤ 3 ∨ p8 c 10 = 15) : Completes (.obsProgConfig c) c s
      { a with obs.progs := mmod {} a.obs.progs (p16 c 0 * 8 + p8 c 2) (fun g => configProg g c) } [] := by
  refine completes_of rfl h ((checked_tail (by simp [hu])).trans (checked_tail ?_))
  rcases hf with hf | hf <;> simp [hk, hclass, hev, hf]

theorem obsProgConfig_badField
    (hbad : 7 < p8 c 2 ∨ p16 c 8 / 4096 ≠ p16 c 0 / 4096 ∨ eventListed (p16 c 8) = false ∨ (3 < p8 c 10 ∧ p8 c 10 ≠ 15)) :
    exec (.obsProgConfig c) s = .next (complete a c St.invalidField []) := by
  refine ends_of rfl h ((checked_tail (by simp [hu])).trans (checked_head ?_))
  rcases hbad with hbad | hbad | hbad | ⟨hbad, hdev⟩
  · simp [hbad]
  · simp [hbad]
  · simp [hbad]
  · simp [hbad, hdev]

end

theorem obsProgRead_completes {b : List Byte} (h : Begun { op := 0x0C04, need := 16, refuse := unitRefused } c s a)
    (hu : unitValid a (p16 c 0) = true)
    (hb : b = ((List.range 8).map (fun k =>
      leBytes 8 (mget {} a.obs.progs (p16 c 0 * 8 + k)).live.toNat ++ leBytes 8 (mget {} a.obs.progs (p16 c 0 * 8 + k)).start.toNat ++
        leBytes 8 (mget {} a.obs.progs (p16 c 0 * 8 + k)).stop.toNat)).flatten) (hw : hostOk a (p64 c 8) b.length = true) :
    Completes (.obsProgRead c) c s (hostStore a (p64 c 8) b) [] := by
  subst hb
  exact completes_of rfl h ((checked_tail (by simp [hu])).trans (reportTo_ok hw))

/-! ### OBS_TRACE_CONFIG and OBS_TRACE_CONTROL (R436, R438) -/

/-- Fields in their ranges leave the ring's address and the claim to decide. -/
theorem traceConfig_fields (hi : p8 c 0 ≤ 5) (hpc : p8 c 4 = 0 ∨ (10 ≤ p8 c 4 ∧ p8 c 4 ≤ 24)) (htag : p8 c 5 ≤ 15)
    (hlo : 16 ≤ p8 c 17) (hhi : p8 c 17 ≤ 30) {l : List (Bool × Nat)} {r : Answer} :
    checked ((decide (p8 c 0 > 5) || (p8 c 4 != 0 && (decide (p8 c 4 < 10) || decide (p8 c 4 > 24))) || decide (p8 c 5 > 15) ||
      decide (p8 c 17 < 16) || decide (p8 c 17 > 30), St.invalidField) :: l) a r = checked l a r := by
  refine checked_tail ?_
  rcases hpc with hpc | ⟨hpc, hpc'⟩
  · simp [hi, hpc, htag, hlo, hhi]
  · simp [hi, hpc, hpc', htag, hlo, hhi]

section
variable (h : Begun { op := 0x0C05, need := 18, refuse := traceRefused } c s a)
include h

theorem obsTraceConfig_badField (hbad : 5 < p8 c 0 ∨ (p8 c 4 ≠ 0 ∧ (p8 c 4 < 10 ∨ 24 < p8 c 4)) ∨ 15 < p8 c 5 ∨ p8 c 17 < 16 ∨ 30 < p8 c 17) :
    exec (.obsTraceConfig c) s = .next (complete a c St.invalidField []) := by
  refine ends_of rfl h (checked_head ?_)
  rcases hbad with hbad | ⟨hne, hbad⟩ | hbad | hbad | hbad
  · simp [hbad]
  · simp [hne, hbad]
  · simp [hbad]
  · simp [hbad]
  · simp [hbad]

section
variable (hi : p8 c 0 ≤ 5) (hpc : p8 c 4 = 0 ∨ (10 ≤ p8 c 4 ∧ p8 c 4 ≤ 24)) (htag : p8 c 5 ≤ 15) (hlo : 16 ≤ p8 c 17) (hhi : p8 c 17 ≤ 30)
include hi hpc htag hlo hhi

theorem obsTraceConfig_completes (hal : p64 c 8 % 64 = 0) (hring : bit (p8 c 16) 0 = true ∨ isDpa (p64 c 8) = true)
    (hcl : traceClaimed a (p8 c 0) c.fn = true) : Completes (.obsTraceConfig c) c s (setTrace a (p8 c 0) { mget {} a.obs.traces (p8 c 0) with
      configured := true,
      stopMode := bit (p8 c 1) 0,
      types := BitVec.ofNat 16 (p16 c 2),
      pcPeriod := p8 c 4,
      tagBits := p8 c 5,
      opMask := BitVec.ofNat 16 (p16 c 6),
      ring := p64 c 8,
      host := bit (p8 c 16) 0,
      log2 := p8 c 17,
      wr := 64 }) [] := by
  refine completes_of rfl h ((traceConfig_fields hi hpc htag hlo hhi).trans ((checked_tail ?_).trans (checked_tail (by simp [hcl]))))
  rcases hring with hring | hring <;> simp [hal, hring]

theorem obsTraceConfig_refused :
    ((p64 c 8 % 64 ≠ 0 ∨ (bit (p8 c 16) 0 = false ∧ isDpa (p64 c 8) = false)) →
      exec (.obsTraceConfig c) s = .next (complete a c St.badAddress [])) ∧
    (p64 c 8 % 64 = 0 → (bit (p8 c 16) 0 = true ∨ isDpa (p64 c 8) = true) → traceClaimed a (p8 c 0) c.fn = false →
      exec (.obsTraceConfig c) s = .next (complete a c St.notClaimed [])) := by
  constructor
  · intro hbad
    refine ends_of rfl h ((traceConfig_fields hi hpc htag hlo hhi).trans (checked_head ?_))
    rcases hbad with hbad | ⟨hdev, hno⟩
    · simp [hbad]
    · simp [hdev, hno]
  · intro hal hring hcl
    refine ends_of rfl h ((traceConfig_fields hi hpc htag hlo hhi).trans ((checked_tail ?_).trans (checked_head (by simp [hcl]))))
    rcases hring with hring | hring <;> simp [hal, hring]

end
end

/-- A request with its claim to a configured trace leaves the row to answer. -/
theorem traceControl_passes {r : Answer} (hi : p8 c 0 ≤ 5) (hop : p8 c 1 ≠ 0) (hop' : p8 c 1 ≤ 3)
    (hcl : p8 c 1 = 1 → traceClaimed a (p8 c 0) c.fn = true) (hcfg : (mget {} a.obs.traces (p8 c 0)).configured = true) :
    checked
      [ (decide (p8 c 0 > 5) || p8 c 1 == 0 || decide (p8 c 1 > 3), St.invalidField),
        (p8 c 1 == 1 && !traceClaimed a (p8 c 0) c.fn, St.notClaimed),
        (!(mget {} a.obs.traces (p8 c 0)).configured, St.traceUnconfigured) ] a r = r :=
  (checked_tail (by simp [hi, hop, hop'])).trans ((checked_tail (by simpa using hcl)).trans (checked_tail (by rw [hcfg, Bool.not_true])))

section
variable (h : Begun { op := 0x0C06, need := 2, refuse := traceRefused } c s a)
include h

theorem obsTraceControl_badField (hbad : 5 < p8 c 0 ∨ p8 c 1 = 0 ∨ 3 < p8 c 1) :
    exec (.obsTraceControl c) s = .next (complete a c St.invalidField []) := by
  refine ends_of rfl h (checked_head ?_)
  rcases hbad with hbad | hbad | hbad <;> simp [hbad]

variable (hi : p8 c 0 ≤ 5)
include hi

theorem obsTraceControl_starts (hop : p8 c 1 = 1) (hcl : traceClaimed a (p8 c 0) c.fn = true)
    (hcfg : (mget {} a.obs.traces (p8 c 0)).configured = true) :
    Completes (.obsTraceControl c) c s (setTrace a (p8 c 0) { mget {} a.obs.traces (p8 c 0) with recording := true }) [] :=
  completes_of rfl h ((traceControl_passes hi (by omega) (by omega) (fun _ => hcl) hcfg).trans (if_pos hop))

theorem obsTraceControl_notClaimed (hop : p8 c 1 = 1) (hcl : traceClaimed a (p8 c 0) c.fn = false) :
    exec (.obsTraceControl c) s = .next (complete a c St.notClaimed []) :=
  ends_of rfl h ((checked_tail (by simp [hi, hop])).trans (checked_head (by simp [hop, hcl])))

theorem obsTraceControl_stops (hop : p8 c 1 = 2) (hcfg : (mget {} a.obs.traces (p8 c 0)).configured = true) :
    Completes (.obsTraceControl c) c s (stopTrace a (p8 c 0) 2) [] :=
  completes_of rfl h ((traceControl_passes hi (by omega) (by omega) (by omega) hcfg).trans (by rw [if_neg (by omega), if_pos hop]))

theorem obsTraceControl_flushWaits (hop : p8 c 1 = 3) (hcfg : (mget {} a.obs.traces (p8 c 0)).configured = true)
    (hpend : (mget {} a.obs.traces (p8 c 0)).pend ≠ []) : Waits (.obsTraceControl c) 0x0C06 c s a (.flush (p8 c 0)) :=
  waits_of rfl h ((traceControl_passes hi (by omega) (by omega) (by omega) hcfg).trans (by
    rw [if_neg (by omega), if_neg (by omega), if_neg (by simpa using hpend)]))

theorem obsTraceControl_flushEmpty (hop : p8 c 1 = 3) (hcfg : (mget {} a.obs.traces (p8 c 0)).configured = true)
    (hpend : (mget {} a.obs.traces (p8 c 0)).pend = []) : Completes (.obsTraceControl c) c s a [] :=
  completes_of rfl h ((traceControl_passes hi (by omega) (by omega) (by omega) hcfg).trans (by
    rw [if_neg (by omega), if_neg (by omega), if_pos (List.isEmpty_iff.mpr hpend)]))

theorem obsTraceControl_unconfigured (hop : p8 c 1 ≠ 0) (hop' : p8 c 1 ≤ 3) (hcl : p8 c 1 = 1 → traceClaimed a (p8 c 0) c.fn = true)
    (hcfg : (mget {} a.obs.traces (p8 c 0)).configured = false) :
    exec (.obsTraceControl c) s = .next (complete a c St.traceUnconfigured []) :=
  ends_of rfl h ((checked_tail (by simp [hi, hop, hop'])).trans ((checked_tail (by simpa using hcl)).trans (checked_head (by rw [hcfg, Bool.not_false]))))

end

/-! ### Ranges and watchpoints (R430, R442) -/

section
variable (h : Begun { op := 0x0C07, need := 9, part := some 0 } c s a)
include h

theorem obsRangeSelect_completes {l : List Nat} (hp : p8 c 0 ≤ 3) (hl : l = (List.range 8).map (fun k => p8 c (1 + k)))
    (hok : l.any (fun i => decide (i > 47)) = false) :
    Completes (.obsRangeSelect c) c s { a with obs.select := mput a.obs.select (p8 c 0) l } [] := by
  subst hl
  exact completes_of rfl h (checked_tail (Bool.or_eq_false_iff.mpr ⟨by simpa using hp, hok⟩))

theorem obsRangeSelect_badField (hbad : 3 < p8 c 0 ∨ ((List.range 8).map (fun k => p8 c (1 + k))).any (fun i => decide (i > 47)) = true) :
    exec (.obsRangeSelect c) s = .next (complete a c St.invalidField []) :=
  ends_of rfl h (checked_head (Bool.or_eq_true_iff.mpr (hbad.imp_left decide_eq_true)))

end

theorem obsRangeRead_completes {b : List Byte} (h : Begun { op := 0x0C08, need := 16, part := some 0 } c s a) (hp : p8 c 0 ≤ 3)
    (hb : b = padTo 4096 (mget [] a.obs.ranges (p8 c 0)).flatten) (hw : hostOk a (p64 c 8) 4096 = true) :
    Completes (.obsRangeRead c) c s (hostStore a (p64 c 8) b) [] := by
  subst hb
  exact completes_of rfl h ((checked_tail (by simpa using hp)).trans (reportTo_ok (by rwa [padTo_length])))

section
variable (h : Begun { op := 0x0C09, need := 24, part := some 0 } c s a) (hp : p8 c 0 ≤ 3) (hk : p8 c 1 ≤ 63) (hbase : p64 c 8 % 64 = 0)
  (hlen : p64 c 16 % 64 = 0)
include h hp hk hbase hlen

theorem obsWatchSet_completes {w : Watch} (hcl : bit (p16 c 2) 11 = false ∨ stepClaimed a (p8 c 0) c.fn = true)
    (hwatch : w = { bits := BitVec.ofNat 16 (p16 c 2), base := p64 c 8, len := p64 c 16 }) :
    Completes (.obsWatchSet c) c s { a with obs.watches := mput a.obs.watches (p8 c 0 * 64 + p8 c 1) w } [] := by
  subst hwatch
  refine completes_of rfl h (checked_pass ?_)
  rcases hcl with hcl | hcl <;> simp [hp, hk, hbase, hlen, hcl]

theorem obsWatchSet_notClaimed (hbreak : bit (p16 c 2) 11 = true) (hcl : stepClaimed a (p8 c 0) c.fn = false) :
    exec (.obsWatchSet c) s = .next (complete a c St.notClaimed []) :=
  ends_of rfl h ((checked_tail (by simp [hp, hk])).trans ((checked_tail (by simp [hbase, hlen])).trans (checked_head (by simp [hbreak, hcl]))))

end

/-! ### Digests (R443, R444) -/

section
variable {p dpa len fmt : Nat} (hp : p ≤ 3) (hc : configured a p = true) (hf : fmt ≤ 6) (hne : len ≠ 0) (hle : len ≤ 1099511627776)
  (hlen : len % 64 = 0) (hal : dpa % 64 = 0) (hdpa : isDpa dpa = true)
include hp hc hf hne hle hlen hal hdpa

/-- A range and format that R443 admits leave the claim on the partition's buffer to decide. -/
theorem digestChecks_pass {l : List (Bool × Nat)} {r : Answer} : checked (digestChecks a p dpa len fmt ++ l) a r = checked l a r :=
  (checked_tail (by simp [hp, hc, hf, hne, hlen]; omega)).trans (checked_tail (by simp [hal, hdpa]))

/-- A claimed digest of a range that no store waits for answers by what it takes. -/
theorem digest_admitted {fn : Nat} {r : Answer} (hcl : digestOwner a p fn = true) (hheld : digestHeld a p dpa len = false) :
    checked (digestChecks a p dpa len fmt ++ [(!digestOwner a p fn, St.notClaimed)]) a (unheld (digestHeld a p dpa len) r) = r :=
  (digestChecks_pass hp hc hf hne hle hlen hal hdpa).trans ((checked_tail (by simp [hcl])).trans (unheld_of_free hheld))

end

section
variable (h : Begun { op := 0x0C0A, need := 32, part := some 17 } c s a) (hp : p8 c 17 ≤ 3) (hc : configured a (p8 c 17) = true)
  (hf : p8 c 16 ≤ 6) (hne : p64 c 8 ≠ 0) (hle : p64 c 8 ≤ 1099511627776) (hlen : p64 c 8 % 64 = 0) (hal : p64 c 0 % 64 = 0)
  (hdpa : isDpa (p64 c 0) = true)
include h hp hc hf hne hle hlen hal hdpa

theorem obsDigest_notClaimed (hcl : digestOwner a (p8 c 17) c.fn = false) :
    exec (.obsDigest c) s = .next (complete a c St.notClaimed []) :=
  ends_of rfl h ((digestChecks_pass hp hc hf hne hle hlen hal hdpa).trans (checked_head (by simp [hcl])))

variable (hcl : digestOwner a (p8 c 17) c.fn = true) (hheld : digestHeld a (p8 c 17) (p64 c 0) (p64 c 8) = false)
include hcl hheld

/-- What a digest takes is written with its status. -/
theorem obsDigest_writes {st : Nat} {b : List Byte} {v : State} (ht : digestTake a (p8 c 17) (p64 c 0) (p64 c 8) (p8 c 16) = (st, b, v))
    (hst : st = St.ok ∨ st = St.poisoned) (hw : hostOk v (p64 c 24) b.length = true) :
    exec (.obsDigest c) s = .next (complete (hostStore v (p64 c 24) b) c st []) := by
  refine ends_of rfl h ((digest_admitted hp hc hf hne hle hlen hal hdpa hcl hheld).trans ?_)
  simp only [ht, hostWrite?_ok hw]
  exact if_neg (by tauto)

theorem obsDigest_fails {v : State} {b : List Byte} {st : Nat} (ht : digestTake a (p8 c 17) (p64 c 0) (p64 c 8) (p8 c 16) = (st, b, v)) :
    (st = St.poisoned → hostOk v (p64 c 24) b.length = true →
      exec (.obsDigest c) s = .next (complete (hostStore v (p64 c 24) b) c St.poisoned [])) ∧
    (st ≠ St.ok → st ≠ St.poisoned → exec (.obsDigest c) s = .next (complete v c st [])) := by
  constructor
  · rintro rfl hw
    exact obsDigest_writes h hp hc hf hne hle hlen hal hdpa hcl hheld ht (.inr rfl) hw
  · intro hok hpoison
    refine ends_of rfl h ((digest_admitted hp hc hf hne hle hlen hal hdpa hcl hheld).trans ?_)
    simp only [ht]
    exact if_pos ⟨hok, hpoison⟩

theorem obsDigest_completes {v : State} {b : List Byte} (hok : (digestTake a (p8 c 17) (p64 c 0) (p64 c 8) (p8 c 16)).1 = St.ok)
    (hb : b = (digestTake a (p8 c 17) (p64 c 0) (p64 c 8) (p8 c 16)).2.1)
    (hv : v = (digestTake a (p8 c 17) (p64 c 0) (p64 c 8) (p8 c 16)).2.2) (hw : hostOk v (p64 c 24) b.length = true) :
    Completes (.obsDigest c) c s (hostStore v (p64 c 24) b) [] := by
  have ht : digestTake a (p8 c 17) (p64 c 0) (p64 c 8) (p8 c 16) = (St.ok, b, v) := by rw [hb, hv, ← hok]
  exact obsDigest_writes h hp hc hf hne hle hlen hal hdpa hcl hheld ht (.inl rfl) hw

end

section
variable {g : ArmedDigest} (h : Begun { op := 0x0C0B, need := 40, part := some 0 } c s a) (hp : p8 c 0 ≤ 3) (hk : p8 c 1 ≤ 7)
include h hp hk

theorem obsDigestArm_sets (hread : bit (p8 c 2) 1 = false) (hset : bit (p8 c 2) 0 = true) (hc : configured a (p8 c 0) = true)
    (hf : p8 c 24 ≤ 6) (hne : p64 c 16 ≠ 0) (hle : p64 c 16 ≤ 1099511627776) (hlen : p64 c 16 % 64 = 0) (hal : p64 c 8 % 64 = 0)
    (hdpa : isDpa (p64 c 8) = true) (hcl : digestOwner a (p8 c 0) c.fn = true)
    (hg : g = { enabled := true, marker := BitVec.ofNat 32 (p32 c 4), dpa := p64 c 8, len := p64 c 16, format := p8 c 24 }) :
    Completes (.obsDigestArm c) c s { a with obs.digests := mput a.obs.digests (p8 c 0 * 8 + p8 c 1) g } [] := by
  subst hg
  refine completes_of rfl h ((checked_tail (by simp [hp, hk])).trans ?_)
  rw [checked_nil, if_neg (by simp [hread]), if_pos hset]
  exact (digestChecks_pass hp hc hf hne hle hlen hal hdpa).trans (checked_tail (by simp [hcl]))

theorem obsDigestArm_disarms (hread : bit (p8 c 2) 1 = false) (hset : bit (p8 c 2) 0 = false)
    (hg : g = { mget {} a.obs.digests (p8 c 0 * 8 + p8 c 1) with enabled := false }) :
    Completes (.obsDigestArm c) c s { a with obs.digests := mput a.obs.digests (p8 c 0 * 8 + p8 c 1) g } [] := by
  subst hg
  refine completes_of rfl h ((checked_tail (by simp [hp, hk])).trans ?_)
  rw [checked_nil, if_neg (by simp [hread]), if_neg (by simp [hset])]

theorem obsDigestArm_reads (hread : bit (p8 c 2) 1 = true) (hw : hostOk a (p64 c 32) 64 = true) : exec (.obsDigestArm c) s =
    .next (complete (hostStore a (p64 c 32) (slice (mget {} a.obs.digests (p8 c 0 * 8 + p8 c 1)).result 2 64)) c
      (fieldN (mget {} a.obs.digests (p8 c 0 * 8 + p8 c 1)).result 0 2) []) := by
  refine ends_of rfl h ((checked_tail (by simp [hp, hk])).trans ?_)
  rw [checked_nil, if_pos hread, hostWrite?_ok (by rwa [slice_length])]

end

/-! ### Single-stepping (R445, R446) -/

section
variable (h : Begun { op := 0x0C0C, need := 4, part := some 0 } c s a) (hp : p8 c 0 ≤ 3)
include h hp

theorem obsStepMode_leaves (hoff : p8 c 1 = 0) : Completes (.obsStepMode c) c s (stepOff a (p8 c 0)) [] :=
  completes_of rfl h ((checked_pass (by simp [hp, hoff])).trans (by simp [hoff]))

variable (hon : p8 c 1 = 1) (hlim : p16 c 2 ≠ 0)
include hon hlim

theorem obsStepMode_notClaimed (hcl : stepClaimed a (p8 c 0) c.fn = false) :
    exec (.obsStepMode c) s = .next (complete a c St.notClaimed []) :=
  ends_of rfl h ((checked_tail (by simp [hp, hon, hlim])).trans (checked_head (by simp [hon, hcl])))

variable (hcl : stepClaimed a (p8 c 0) c.fn = true)
include hcl

theorem obsStepMode_enters (hcomp : (mget {} a.stp.comps (p8 c 0)).enabled = false) :
    Completes (.obsStepMode c) c s { a with obs.single := mput a.obs.single (p8 c 0) (p16 c 2) } [] :=
  completes_of rfl h ((checked_tail (by simp [hp, hon, hlim])).trans ((checked_tail (by simp [hcl])).trans
    ((checked_tail (by rw [hcomp, Bool.and_false])).trans (by rw [checked_nil]; simp [hon]))))

theorem obsStepMode_composed (hcomp : (mget {} a.stp.comps (p8 c 0)).enabled = true) :
    exec (.obsStepMode c) s = .next (complete a c St.obsBusy []) :=
  ends_of rfl h ((checked_tail (by simp [hp, hon, hlim])).trans ((checked_tail (by simp [hcl])).trans 
    (checked_head (by rw [hcomp, Bool.and_true]; simpa using hon))))

end

section
variable (h : Begun { op := 0x0C0D, need := 9, part := some 0 } c s a) (hp : p8 c 0 ≤ 3) (hn : p8 c 8 ≠ 0)
include h hp hn

theorem obsStepNext_completes {lim : Nat} (hs : mfind a.obs.single (p8 c 0) = some lim) :
    Completes (.obsStepNext c) c s ((bitList 32 (p32 c 4)).foldl
      (fun s q => startNext (setQueue s (p8 c 0) q { queueOf s (p8 c 0) q with released := p8 c 8 }) (p8 c 0) q) a) [] :=
  completes_of rfl h (checked_pass (by simp [hp, hn, hs]))

theorem obsStepNext_notStepping (hs : mfind a.obs.single (p8 c 0) = none) :
    exec (.obsStepNext c) s = .next (complete a c St.notStepping []) :=
  ends_of rfl h ((checked_tail (by simp [hp, hn])).trans (checked_head (by simp [hs])))

end

section
variable {p q : Nat}

theorem stepLimitTimeout_late {lim : Nat} {x : CurCmd} (hs : mfind s.obs.single p = some lim) (hx : (queueOf s p q).cur = some x)
    (hfreed : x.freed = true) (hlate : x.late = false) (hst : x.status = none)
    (hdue : x.since.toNat + lim * 65536 < (stamp s).toNat) : exec (.stepLimitTimeout p q) s =
      .next (stepEvent (setQueue s p q { queueOf s p q with cur := some { x with late := true } }) p q 1 0 x.index) := by
  change Host.Outcome.next _ = _
  simp only [hs, hx]
  exact next_if_pos (by simp [hfreed, hlate, hst, hdue])

theorem stepLimitTimeout_early {lim : Nat} {x : CurCmd} (hs : mfind s.obs.single p = some lim) (hx : (queueOf s p q).cur = some x)
    (hno : x.freed = false ∨ x.late = true ∨ x.status.isSome = true ∨ (stamp s).toNat ≤ x.since.toNat + lim * 65536) :
    exec (.stepLimitTimeout p q) s = .next s := by
  change Host.Outcome.next _ = _
  simp only [hs, hx]
  refine next_if_neg ?_
  rcases hno with hno | hno | hno | hno
  · simp [hno]
  · simp [hno]
  · simp [Option.isNone_eq_false_iff.mpr hno]
  · simp [hno]

theorem stepLimitTimeout_noCommand (hno : mfind s.obs.single p = none ∨ (queueOf s p q).cur = none) :
    exec (.stepLimitTimeout p q) s = .next s := by
  change Host.Outcome.next _ = _
  rcases hno with hno | hno
  · simp only [hno]
  · simp only [hno]
    cases mfind s.obs.single p <;> rfl

end

/-! ### Blotters and freezes (R447 to R449) -/

section
variable (h : Begun { op := 0x0C0E, need := 16, refuse := unitRefused } c s a)
include h

theorem obsBlotterRead_noUnit (hu : unitValid a (p16 c 0) = false) : exec (.obsBlotterRead c) s = .next (complete a c St.unitInvalid []) :=
  ends_of rfl h (checked_head (by simp [hu]))

theorem obsBlotterRead_completes (hu : unitValid a (p16 c 0) = true) (hw : hostOk a (p64 c 8) (blotterBytes a (p16 c 0)).length = true) :
    Completes (.obsBlotterRead c) c s (hostStore a (p64 c 8) (blotterBytes a (p16 c 0))) [] :=
  completes_of rfl h ((checked_tail (by simp [hu])).trans (reportTo_ok hw))

end

section
variable (h : Begun { op := 0x0C0F, need := 2, part := some 1 } c s a)
include h

theorem obsFreeze_freezes (hop : p8 c 0 = 1) (hp : p8 c 1 ≤ 3 ∨ p8 c 1 = 255) : Completes (.obsFreeze c) c s (freeze a (p8 c 1) 0) [] := by
  refine completes_of rfl h ((checked_tail ?_).trans (by rw [checked_nil, if_pos hop]))
  rcases hp with hp | hp <;> simp [hop, hp]

theorem obsFreeze_thaws (hop : p8 c 0 = 2) (hp : p8 c 1 ≤ 3 ∨ p8 c 1 = 255) : Completes (.obsFreeze c) c s (thaw a (p8 c 1)) [] := by
  refine completes_of rfl h ((checked_tail ?_).trans (by rw [checked_nil, if_neg (by omega), if_pos hop]))
  rcases hp with hp | hp <;> simp [hop, hp]

theorem obsFreeze_onFault (hop : p8 c 0 = 3 ∨ p8 c 0 = 4) (hp : p8 c 1 ≤ 3) :
    Completes (.obsFreeze c) c s { a with obs.freezeOnFault := mput a.obs.freezeOnFault (p8 c 1) (p8 c 0 == 3) } [] := by
  refine completes_of rfl h ((checked_tail ?_).trans (by rw [checked_nil, if_neg (by omega), if_neg (by omega)]))
  rcases hop with hop | hop <;> simp [hop, hp]

end

/-! ### PC_SAMPLE (R441) -/

theorem pcSample_samples {n p q : Nat} (hjob : (coreOf s n).job = some (p, q)) (hn : n < coreCount s)
    (hpc : (mget {} s.obs.traces (coreQuad s n)).pcPeriod ≠ 0)
    (hrun : (coreOf s n).run = .running ∨ ((coreOf s n).run = .halted ∧ ((coreOf s n).stores ≠ [] ∨ (coreOf s n).xwrs ≠ []))) :
    exec (.pcSample n) s = .next (traceAt s (coreQuad s n) 0x01 n (some p)
      (leBytes 4 (coreOf s n).pc ++ [BitVec.ofNat 8 (stallState (coreOf s n)), BitVec.ofNat 8 p, BitVec.ofNat 8 q, 0] ++
        leBytes 4 (match (queueOf s p q).cur with | some x => x.index | none => 0)) false) := by
  change Host.Outcome.next _ = _
  simp only [hjob]
  refine next_if_pos ⟨hn, hpc, hrun.imp_right fun ⟨hhalt, hstores⟩ => ⟨hhalt, ?_⟩⟩
  rcases hstores with hstores | hstores <;> simp [hstores]

theorem pcSample_idle {n : Nat} (hno : (coreOf s n).job = none ∨ (mget {} s.obs.traces (coreQuad s n)).pcPeriod = 0) :
    exec (.pcSample n) s = .next s := by
  change Host.Outcome.next _ = _
  rcases hno with hno | hno
  · simp only [hno]
  · cases (coreOf s n).job with
    | none => rfl
    | some j => exact next_if_neg fun h => h.2.1 hno

/-! ### TRACE_DRAIN_BURST (R438, R439) -/

section
variable {i : Nat}

theorem traceDrainBurst_due (hdue : burstDue s i (mget {} s.obs.traces i) = true)
    (hb : 0 < mget 0 s.svc.trace (traceTier (mget {} s.obs.traces i))) : exec (.traceDrainBurst i) s = .next (drainNow s i) :=
  next_if_pos (Bool.and_eq_true_iff.mpr ⟨hdue, decide_eq_true hb⟩)

theorem traceDrainBurst_early
    (hno : burstDue s i (mget {} s.obs.traces i) = false ∨ mget 0 s.svc.trace (traceTier (mget {} s.obs.traces i)) ≤ 0) :
    exec (.traceDrainBurst i) s = .next s := by
  refine next_if_neg fun h => ?_
  obtain ⟨hdue, hb⟩ := Bool.and_eq_true_iff.mp h
  exact hno.elim (ne_false_of_eq_true hdue) (not_le.mpr (of_decide_eq_true hb))

theorem drainNow_nothing (hno : (mget {} s.obs.traces i).configured = false ∨ (mget {} s.obs.traces i).pend = []) : drainNow s i = s :=
  if_pos (Bool.or_eq_true_iff.mpr (hno.imp (fun h => by rw [h, Bool.not_false]) List.isEmpty_iff.mpr))

theorem setTrace_same (s : State) (i : Nat) (t : Trace) : mget {} (setTrace s i t).obs.traces i = t := mget_mput ..

/-- A burst whose records all go to the ring, with records left for the next. -/
theorem drainNow_places {u v w : State} {rd wr : Nat} {t : Trace} {rb : List Byte} {ps : List (Nat × List Byte)}
    (ht : t = mget {} s.obs.traces i) (hcfg : t.configured = true) (hpend : t.pend ≠ []) (hread : ringRead s i t 8 8 = some (rb, u))
    (hrd : rd = (if leNat rb < 64 ∨ leNat rb > 2 ^ t.log2 then 64 else leNat rb))
    (hplace : placeRecords (2 ^ t.log2) (burstOf 4096 t.pend) t.wr rd = (ps, wr, [])) (hwrite : writeRing u i t ps wr = some v)
    (hmore : t.pend.drop (burstOf 4096 t.pend).length ≠ [])
    (hw : w = (if t.host then chargeTrace v 0 ((ps.map (fun e => e.2.length)).sum) else v)) :
    drainNow s i = setTrace w i { t with pend := t.pend.drop (burstOf 4096 t.pend).length, wr := wr } := by
  have hgo : ¬ (!t.configured || t.pend.isEmpty) = true := by simp [hcfg, hpend]
  subst hrd hw
  simp only [drainNow, ← ht, if_neg hgo, hread, hplace, hwrite, List.isEmpty_nil, Bool.not_true, Bool.false_and, Bool.false_eq_true,
    if_false, List.length_nil, Nat.sub_zero]
  exact if_neg (by rw [setTrace_same]; simpa using hmore)

end
end

/-- Settles O58: each command by its checks, each event by its condition. -/
theorem observationRows : Obligations.ObservationRows :=
  ⟨fun _ _ _ _ _ _ h hp hc hf hne hle hlen hal hdpa hcl hheld => obsDigest_fails h hp hc hf hne hle hlen hal hdpa hcl hheld,
    fun _ _ _ _ h => obsCounters_completes h, fun _ _ _ => obsCounters_noPartition, fun _ _ _ _ h => obsLatchRead_completes h,
    fun _ _ _ => obsProgConfig_completes, fun _ _ _ => obsLatchRead_noQueue, fun _ _ _ => obsProgConfig_badField,
    fun _ _ _ => obsProgConfig_noUnit, fun _ _ _ _ => obsProgRead_completes,
    fun _ _ _ => obsTraceConfig_completes, fun _ _ _ => obsTraceConfig_badField, fun _ _ _ => obsTraceConfig_refused,
    fun _ _ _ => obsTraceControl_badField, fun _ _ _ => obsTraceControl_starts, fun _ _ _ => obsTraceControl_notClaimed,
    fun _ _ _ => obsTraceControl_stops, fun _ _ _ => obsTraceControl_flushWaits, fun _ _ _ => obsTraceControl_flushEmpty,
    fun _ _ _ => obsTraceControl_unconfigured, fun _ _ _ _ h => obsRangeSelect_completes h, fun _ _ _ => obsRangeSelect_badField,
    fun _ _ _ _ => obsRangeRead_completes, fun _ _ _ _ h hp hk hb hl => obsWatchSet_completes h hp hk hb hl, fun _ _ _ => obsWatchSet_notClaimed,
    fun _ _ _ _ _ h hp hc hf hne hle hlen hal hdpa hcl hheld => obsDigest_completes h hp hc hf hne hle hlen hal hdpa hcl hheld,
    fun _ _ _ => obsDigest_notClaimed, fun _ _ _ _ => obsDigestArm_sets,
    fun _ _ _ _ => obsDigestArm_disarms, fun _ _ _ => obsDigestArm_reads, fun _ _ _ => obsStepMode_notClaimed,
    fun _ _ _ => obsStepMode_enters, fun _ _ _ => obsStepMode_composed, fun _ _ _ => obsStepMode_leaves,
    fun _ _ _ _ h hp hn => obsStepNext_completes h hp hn, fun _ _ _ => obsStepNext_notStepping, fun _ _ _ => obsBlotterRead_noUnit,
    fun _ _ _ => obsBlotterRead_completes, fun _ _ _ => obsFreeze_freezes, fun _ _ _ => obsFreeze_thaws,
    fun _ _ _ => obsFreeze_onFault, fun _ _ _ _ => pcSample_samples, fun _ _ => pcSample_idle, fun _ _ => traceDrainBurst_due,
    fun _ _ => traceDrainBurst_early, fun _ _ => drainNow_nothing, fun _ _ _ _ _ _ _ _ _ _ => drainNow_places,
    fun _ _ _ _ _ => stepLimitTimeout_late, fun _ _ _ _ _ => stepLimitTimeout_early, fun _ _ _ => stepLimitTimeout_noCommand⟩

end Sys2Proof.Machine
end

section
/-! PROOFS. What an access to device memory and a drain of a trace buffer leave alone: the console, and the power block but for the defect
map and the settings store, which a marked channel writes (R157, R405). -/

namespace Sys2Proof.Machine

/-- The console, and the power block without what a mark in the defect map changes. -/
def standing (i : Inkwell) (p : Power) : Map Byte × Power :=
  (i.con, { p with defect := {}, touched := false, bank0 := { seq := 0, valid := false, sections := [] },
                   bank1 := { seq := 0, valid := false, sections := [] } })

/-- What the sections below say of each operation. -/
def standingOf (s : State) : Map Byte × Power := standing s.ink s.pwr

section
variable (s : State)

/-! ### Recording -/

@[simp] theorem bumpO_ink (p : Option Nat) (i n : Nat) : (bumpO s p i n).ink = s.ink := by
  unfold bumpO
  split <;> simp

@[simp] theorem traceAt_ink (inst type unit : Nat) (part : Option Nat) (payload : List Byte) (forced : Bool) :
    (traceAt s inst type unit part payload forced).ink = s.ink := by
  unfold traceAt
  dsimp only
  repeat' split
  all_goals simp

@[simp] theorem tracePart_ink (p type unit : Nat) (payload : List Byte) : (tracePart s p type unit payload).ink = s.ink := traceAt_ink ..

@[simp] theorem latchProgs_ink (p : Nat) (start : Bool) : (latchProgs s p start).ink = s.ink := rfl

@[simp] theorem setChan_ink (t : Tier) (c : Nat) (x : Chan) : (setChan s t c x).ink = s.ink := rfl

@[simp] theorem setChan_pwr (t : Tier) (c : Nat) (x : Chan) : (setChan s t c x).pwr = s.pwr := rfl

@[simp] theorem chanCount_pwr (t : Tier) (c i : Nat) : (chanCount s t c i).pwr = s.pwr := rfl

@[simp] theorem logErr_pwr (die type : Nat) (t : Tier) (u off dpa sym rq : Nat) : (logErr s die type t u off dpa sym rq).pwr = s.pwr := rfl

@[simp] theorem post_standing (p : Power) (code part : Nat) (data : List Byte) (droppable : Bool) :
    standing (post s code part data droppable).ink p = standing s.ink p := by simp [standing]

/-- What recording, posting and the tables of observation keep, a freeze keeps. -/
theorem freeze_keeps {β : Type} (g : State → β) (hobs : ∀ u o, g { u with obs := o } = g u)
    (hblot : ∀ u n code part arg, g (blot u n code part arg) = g u) (htrace : ∀ u i k n p b f, g (traceAt u i k n p b f) = g u)
    (hpost : ∀ u code p b d, g (post u code p b d) = g u) (scope cause : Nat) : g (freeze s scope cause) = g s := by
  unfold freeze
  refine (hpost ..).trans ((foldl_keeps g _ _ fun u i => ?trace).trans (foldl_keeps g _ _ fun u n => (hobs ..).trans (hblot ..)))
  case trace =>
    extract_lets v t o s'
    have hs' : g s' = g u := ite_keeps g ((hobs ..).trans (htrace ..)) (htrace ..)
    exact ite_keeps g ((hpost ..).trans hs') hs'

@[simp] theorem freeze_ink_con (scope cause : Nat) : (freeze s scope cause).ink.con = s.ink.con :=
  freeze_keeps s (fun u => u.ink.con) (fun _ _ => rfl) (fun _ _ _ _ _ => congrArg Inkwell.con (blot_ink ..))
    (fun _ _ _ _ _ _ _ => congrArg Inkwell.con (traceAt_ink ..)) (fun _ _ _ _ _ => post_ink_con ..) scope cause

@[simp] theorem watchAct_ink_con (p k kind unit dpa len : Nat) (w : Watch) :
    (watchAct s p k kind unit dpa len w).ink.con = s.ink.con := by
  unfold watchAct
  extract_lets s1 o1 s2 s3 o3
  have h1 : s1.ink.con = s.ink.con := ite_keeps (fun u => u.ink.con) (congrArg Inkwell.con (tracePart_ink ..)) rfl
  have h2 : s2.ink.con = s.ink.con := ite_keeps (fun u => u.ink.con) ((post_ink_con ..).trans h1) h1
  have h3 : s3.ink.con = s.ink.con := ite_keeps (fun u => u.ink.con) ((freeze_ink_con ..).trans h2) h2
  exact ite_keeps (fun u => u.ink.con) h3 h3

@[simp] theorem watch_standing (p : Power) (rq : Requester) (kind dpa len : Nat) :
    standing (watch s rq kind dpa len).ink p = standing s.ink p := by
  have hcon : (watch s rq kind dpa len).ink.con = s.ink.con := by
    unfold watch
    split
    · rfl
    · exact foldl_keeps (fun u => u.ink.con) _ _ fun _ _ => by
        split
        · exact ite_keeps (fun u => u.ink.con) (watchAct_ink_con ..) rfl
        · rfl
  simp [standing, hcon]

@[simp] theorem markChannel_standing (i : Inkwell) (t : Tier) (c : Nat) : standing i (markChannel s t c).pwr = standing i s.pwr := by
  rw [markChannel_cases]
  split
  case isTrue => rfl
  case isFalse => rw [storeDefect_eq]; rfl

@[simp] theorem watchUe_standing (t : Tier) (c : Nat) : standing (watchUe s t c).ink (watchUe s t c).pwr = standing s.ink s.pwr := by
  unfold watchUe
  dsimp only
  split <;> simp

@[simp] theorem watchCe_standing (t : Tier) (c : Nat) : standing (watchCe s t c).ink (watchCe s t c).pwr = standing s.ink s.pwr := by
  unfold watchCe
  dsimp only
  split <;> simp

@[simp] theorem noteUe_standing (type : Nat) (t : Tier) (c off dpa rq : Nat) :
    standing (noteUe s type t c off dpa rq).ink (noteUe s type t c off dpa rq).pwr = standing s.ink s.pwr := by
  unfold noteUe
  dsimp only
  split <;> simp

@[simp] theorem noteCe_standing (type : Nat) (t : Tier) (c off dpa sym rq : Nat) (part : Option Nat) :
    standing (noteCe s type t c off dpa sym rq part).ink (noteCe s type t c off dpa sym rq part).pwr = standing s.ink s.pwr := by
  unfold noteCe
  dsimp only
  repeat' split
  all_goals simp

@[simp] theorem noteDrop_standing (t : Tier) (c off dpa rq : Nat) :
    standing (noteDrop s t c off dpa rq).ink (noteDrop s t c off dpa rq).pwr = standing s.ink s.pwr := by
  unfold noteDrop
  dsimp only
  split <;> simp

/-! ### Charging and signalling -/

theorem standing_of_uncharged {s v : State} (h : uncharged v = uncharged s) : standing v.ink v.pwr = standing s.ink s.pwr :=
  (congrArg standingOf h :)

@[simp] theorem charge_standing (rq : Requester) (dpa n cls : Nat) :
    standing (charge s rq dpa n cls).ink (charge s rq dpa n cls).pwr = standing s.ink s.pwr :=
  standing_of_uncharged (uncharged_charge ..)

@[simp] theorem cross_standing (rq : Requester) (write : Bool) (dpa n : Nat) :
    standing (cross s rq write dpa n).ink (cross s rq write dpa n).pwr = standing s.ink s.pwr :=
  standing_of_uncharged (uncharged_cross ..)

@[simp] theorem setCore_standing (n : Nat) (c : Core) : standing (setCore s n c).ink (setCore s n c).pwr = standing s.ink s.pwr := rfl

@[simp] theorem setQueue_standing (p q : Nat) (x : Queue) :
    standing (setQueue s p q x).ink (setQueue s p q x).pwr = standing s.ink s.pwr := rfl

@[simp] theorem queueStatus_standing (p q status : Nat) :
    standing (queueStatus s p q status).ink (queueStatus s p q status).pwr = standing s.ink s.pwr := by
  unfold queueStatus
  dsimp only
  repeat' split
  all_goals simp [latchEnd]

@[simp] theorem releaseWaiters_standing (n : Nat) :
    standing (releaseWaiters s n).ink (releaseWaiters s n).pwr = standing s.ink s.pwr := by
  unfold releaseWaiters
  refine (foldl_keeps standingOf _ _ fun u e => ?core).trans (foldl_keeps standingOf _ _ fun u w => ?queue)
  case core =>
    repeat' split
    all_goals simp [standingOf, endCoreWait]
  case queue => simp [standingOf, endQueueWait]

@[simp] theorem tallySet_standing (n : Nat) (v : BitVec 32) (isSet : Bool) (src : Nat) (part : Option Nat) :
    standing (tallySet s n v isSet src part).ink (tallySet s n v isSet src part).pwr = standing s.ink s.pwr := by simp [tallySet]

@[simp] theorem tallySignalAs_standing (n : Nat) (v : BitVec 32) (isSet : Bool) (src : Nat) (part : Option Nat) :
    standing (tallySignalAs s n v isSet src part).ink (tallySignalAs s n v isSet src part).pwr = standing s.ink s.pwr := by
  have hframe : standing (frameArrives s n (stamp s)).ink (frameArrives s n (stamp s)).pwr = standing s.ink s.pwr :=
    foldl_keeps standingOf _ _ fun _ _ => rfl
  unfold tallySignalAs tallySignalAt
  split <;> simp [hframe]

/-! ### Stored granules and the staging cache -/

@[simp] theorem checkRead_pwr (p : Place) : (checkRead s p).2.pwr = s.pwr := by
  unfold checkRead
  dsimp only
  repeat' split
  all_goals rfl

@[simp] theorem placeStore_pwr (p : Place) (d : List Byte) (poison : Bool) : (placeStore s p d poison).pwr = s.pwr := by
  unfold placeStore
  dsimp only
  split <;> rfl

@[simp] theorem chanRead_standing (p : Place) (dpa ceType ueType rq : Nat) (part cls : Option Nat) (fix : Bool) :
    standing (chanRead s p dpa ceType ueType rq part cls fix).2.2.2.ink (chanRead s p dpa ceType ueType rq part cls fix).2.2.2.pwr =
      standing s.ink s.pwr := by
  unfold chanRead
  dsimp only
  repeat' split
  all_goals simp

@[simp] theorem chanWrite_standing (p : Place) (dpa : Nat) (d : List Byte) (poison : Bool) (rq : Nat) (part cls : Option Nat) :
    standing (chanWrite s p dpa d poison rq part cls).ink (chanWrite s p dpa d poison rq part cls).pwr = standing s.ink s.pwr := by
  unfold chanWrite granuleStore
  dsimp only
  repeat' split
  all_goals simp [accDrop]

@[simp] theorem writeBack_standing (dpa : Nat) (x : Sector) (rq : Nat) (cls : Option Nat) :
    standing (writeBack s dpa x rq cls).ink (writeBack s dpa x rq cls).pwr = standing s.ink s.pwr := by
  unfold writeBack
  split <;> simp

theorem writeBackLine_standing (l : CacheLine) (cls : Option Nat) :
    standing (writeBackLine s l cls).ink (writeBackLine s l cls).pwr = standing s.ink s.pwr :=
  foldl_keeps standingOf _ s fun _ _ => by split <;> simp [standingOf]

theorem makeRoom_standing {s u : State} {die addr : Nat} {cls : Option Nat} (h : makeRoom s die addr cls = some u) :
    standing u.ink u.pwr = standing s.ink s.pwr := by
  unfold makeRoom at h
  split at h
  case isTrue => cases h; rfl
  case isFalse =>
    split at h
    case h_1 => cases h
    case h_2 =>
      rw [← Option.some.inj h]
      simp [evict, writeBackLine_standing]

@[simp] theorem cachePut_standing (die dpa : Nat) (x : Sector) (rq : Nat) (part cls : Option Nat) :
    standing (cachePut s die dpa x rq part cls).ink (cachePut s die dpa x rq part cls).pwr = standing s.ink s.pwr := by
  unfold cachePut
  split
  case h_1 => rfl
  case h_2 =>
    split
    case h_1 u h => exact (makeRoom_standing h :)
    case h_2 =>
      repeat' split
      all_goals simp

@[simp] theorem cacheDrop_standing (dpa : Nat) : standing (cacheDrop s dpa).ink (cacheDrop s dpa).pwr = standing s.ink s.pwr := rfl

theorem flushLine_standing (wb inv : Bool) (lo hi : Nat) (acc : State × List CacheLine × Bool) (l : CacheLine) :
    standingOf (flushLine wb inv lo hi acc l).1 = standingOf acc.1 := by
  unfold flushLine
  dsimp only
  split
  · rfl
  · dsimp only
    split
    · exact foldl_keeps standingOf _ _ fun _ _ => by split <;> simp [standingOf]
    · rfl

@[simp] theorem flushRange_standing (lo hi : Nat) (wb inv : Bool) :
    standing (flushRange s lo hi wb inv).1.ink (flushRange s lo hi wb inv).1.pwr = standing s.ink s.pwr := by
  unfold flushRange
  refine (foldl_keeps standingOf _ _ fun u x => ?accumulator).trans
    (foldl_preserves (fun acc : State × List CacheLine × Bool => standingOf acc.1) _ _ (flushLine_standing wb inv lo hi))
  case accumulator => split <;> simp [standingOf, accDrop]

/-! ### Accesses -/

@[simp] theorem readGranule_standing (rq : Requester) (dpa cls : Nat) :
    standing (readGranule s rq dpa cls).s.ink (readGranule s rq dpa cls).s.pwr = standing s.ink s.pwr := by
  unfold readGranule
  dsimp only
  repeat' split
  all_goals simp

@[simp] theorem readAt_standing (rq : Requester) (dpa cls : Nat) :
    standing (readAt s rq dpa cls).s.ink (readAt s rq dpa cls).s.pwr = standing s.ink s.pwr := by
  have hwindow : standing (readWindow s rq dpa cls).s.ink (readWindow s rq dpa cls).s.pwr = standing s.ink s.pwr := by
    unfold readWindow
    repeat' split
    all_goals simp
  unfold readAt
  dsimp only
  split <;> simp [hwindow]

theorem readGo_standing (rq : Requester) (cls : Nat) (l : List Nat) (s : State) (acc : List (List Byte × Bool)) :
    standingOf (readGo rq cls l s acc).2 = standingOf s := by
  induction l generalizing s acc with
  | nil => rfl
  | cons a l ih => exact (ih _ _).trans (readAt_standing ..)

@[simp] theorem readBytes_standing (rq : Requester) (dpa len cls : Nat) :
    standing (readBytes s rq dpa len cls).2.2.2.ink (readBytes s rq dpa len cls).2.2.2.pwr = standing s.ink s.pwr := by
  have hread : standingOf (readGranules s rq dpa len cls).2.2 = standingOf s := by
    unfold readGranules
    dsimp only
    split
    · rfl
    · exact (readGo_standing ..).trans (by simp [standingOf])
  unfold readBytes
  dsimp only
  split <;> exact hread

@[simp] theorem controlWrite_standing (part : Option Nat) (off : Nat) (b : List Byte) :
    standing (controlWrite s part off b).2.ink (controlWrite s part off b).2.pwr = standing s.ink s.pwr := by
  unfold controlWrite cacheOp
  dsimp only
  repeat' split
  all_goals simp [controlFinish]

@[simp] theorem writeGranule_standing (rq : Requester) (dpa : Nat) (d : List Byte) (poison : Bool) (cls : Nat) :
    standing (writeGranule s rq dpa d poison cls).2.ink (writeGranule s rq dpa d poison cls).2.pwr = standing s.ink s.pwr := by
  unfold writeGranule
  dsimp only
  repeat' split
  all_goals simp

@[simp] theorem mergeGranule_standing (rq : Requester) (dpa o : Nat) (b : List Byte) (poison : Bool) (cls : Nat) :
    standing (mergeGranule s rq dpa o b poison cls).2.ink (mergeGranule s rq dpa o b poison cls).2.pwr = standing s.ink s.pwr := by
  unfold mergeGranule
  dsimp only
  repeat' split
  all_goals simp

@[simp] theorem writeAt_standing (rq : Requester) (dpa : Nat) (b : List Byte) (poison : Bool) (cls : Nat) :
    standing (writeAt s rq dpa b poison cls).2.ink (writeAt s rq dpa b poison cls).2.pwr = standing s.ink s.pwr := by
  have hwindow : standing (writeWindow s rq dpa b poison cls).2.ink (writeWindow s rq dpa b poison cls).2.pwr = standing s.ink s.pwr := by
    unfold writeWindow
    repeat' split
    all_goals simp
  unfold writeAt
  dsimp only
  split <;> simp [hwindow]

@[simp] theorem writeBytes_standing (rq : Requester) (dpa : Nat) (b : List Byte) (poison : Bool) (cls : Nat) :
    standing (writeBytes s rq dpa b poison cls).2.ink (writeBytes s rq dpa b poison cls).2.pwr = standing s.ink s.pwr := by
  unfold writeBytes
  dsimp only
  repeat' split
  · rfl
  · rfl
  · refine (foldl_preserves (fun acc : Nat × State => standingOf acc.2) _ _ fun _ _ => ?piece).trans ?start
    case piece => exact writeAt_standing ..
    case start => simp [standingOf]

@[simp] theorem cxlWriteNow_standing (dpa : Nat) (b : List Byte) :
    standing (cxlWriteNow s dpa b).ink (cxlWriteNow s dpa b).pwr = standing s.ink s.pwr := by
  unfold cxlWriteNow
  dsimp only
  repeat' split
  all_goals simp [setReply]

@[simp] theorem cxlReadNow_standing (dpa : Nat) : standing (cxlReadNow s dpa).ink (cxlReadNow s dpa).pwr = standing s.ink s.pwr := by
  unfold cxlReadNow
  dsimp only
  split
  · rfl
  · simp [setReply]

@[simp] theorem accessNow_standing (w : Waiting) : standing (accessNow s w).ink (accessNow s w).pwr = standing s.ink s.pwr := by
  unfold accessNow
  dsimp only
  repeat' split
  all_goals simp [setReply]

/-! ### Trace buffers -/

@[simp] theorem finishWait_standing (p : Power) (w : Wait) (status : Nat) (result : List Byte) :
    standing (finishWait s w status result).ink p = standing s.ink p := by
  unfold finishWait
  exact foldl_keeps (fun u => standing u.ink p) _ _ fun _ _ => by simp [standing]

@[simp] theorem stopTrace_standing (i why : Nat) : standing (stopTrace s i why).ink (stopTrace s i why).pwr = standing s.ink s.pwr := by
  unfold stopTrace
  dsimp only
  split <;> simp [traceStopped, setTrace]

theorem ringRead_standing {s u : State} {i off n : Nat} {t : Trace} {b : List Byte} (h : ringRead s i t off n = some (b, u)) :
    standing u.ink u.pwr = standing s.ink s.pwr := by
  unfold ringRead at h
  split at h
  case isTrue =>
    obtain ⟨_, _, hb⟩ := Option.map_eq_some_iff.mp h
    rw [← (Prod.mk.inj hb).2]
    simp
  case isFalse =>
    dsimp only at h
    split at h
    · rw [← (Prod.mk.inj (Option.some.inj h)).2]
      simp
    · cases h

theorem ringWrite_standing {s u : State} {i off : Nat} {t : Trace} {b : List Byte} (h : ringWrite s i t off b = some u) :
    standing u.ink u.pwr = standing s.ink s.pwr := by
  unfold ringWrite at h
  split at h
  case isTrue =>
    obtain ⟨v, hv, hu⟩ := Option.map_eq_some_iff.mp h
    have hstore : v = hostStore s (t.ring + off) b := by
      unfold hostWrite? at hv
      split at hv
      · exact (Option.some.inj hv).symm
      · cases hv
    rw [← hu, hstore]
    simp
  case isFalse =>
    dsimp only at h
    split at h
    · rw [← Option.some.inj h]
      simp
    · cases h

theorem writePieces_standing {i : Nat} {t : Trace} (l : List (Nat × List Byte)) {o : Option State} {u : State}
    (h : l.foldl (fun (o : Option State) e => o.bind (fun s => ringWrite s i t e.1 e.2)) o = some u) :
    ∃ s, o = some s ∧ standing u.ink u.pwr = standing s.ink s.pwr := by
  induction l generalizing o with
  | nil => exact ⟨u, h, rfl⟩
  | cons e l ih =>
    obtain ⟨v, hv, huv⟩ := ih h
    obtain ⟨s, hs, hsv⟩ := Option.bind_eq_some_iff.mp hv
    exact ⟨s, hs, huv.trans (ringWrite_standing hsv)⟩

theorem writeRing_standing {s u : State} {i wr : Nat} {t : Trace} {ps : List (Nat × List Byte)} (h : writeRing s i t ps wr = some u) :
    standing u.ink u.pwr = standing s.ink s.pwr := by
  unfold writeRing at h
  split at h
  case h_2 => cases h
  case h_1 s1 h1 =>
    obtain ⟨_, hs, hpieces⟩ := writePieces_standing ps h1
    cases hs
    split at h
    case h_2 => cases h
    case h_1 s2 h2 => exact (ringWrite_standing h).trans ((ringWrite_standing h2).trans hpieces)

@[simp] theorem drainNow_standing (i : Nat) : standing (drainNow s i).ink (drainNow s i).pwr = standing s.ink s.pwr := by
  unfold drainNow
  dsimp only
  split
  · rfl
  · split
    case h_1 => rfl
    case h_2 rb s1 hread =>
      split
      case h_1 => exact ringRead_standing hread
      case h_2 s2 hwrite =>
        have hring := (writeRing_standing hwrite).trans (ringRead_standing hread)
        repeat' split
        all_goals simp [setTrace, chargeTrace, hring]

end

end Sys2Proof.Machine
end

section
/-! PROOFS. Faults, package power, junction heat, compute resets and the Cap state (R382 to R385, R410, R411, R415, R417, R419, R466): what
each row does in each of its cases, and what a fault, a failed channel and fresh quadrants leave alone; then O56. -/

namespace Sys2Proof.Machine

/-! ### What reports leave alone -/

/-- A state without what a report changes: Inkwell, host memory and the tables of observation. -/
def unseen (s : State) : State := { s with ink := {}, host := [], obs := {} }

theorem eq_of_unseen {s t : State} (h : unseen t = unseen s) : t = { s with ink := t.ink, host := t.host, obs := t.obs } :=
  congrArg (fun u : State => { u with ink := t.ink, host := t.host, obs := t.obs }) h

section
variable (s : State)

theorem bumpO_free (p : Option Nat) (i n : Nat) : (bumpO s p i n).free = s.free := by
  unfold bumpO
  split <;> simp

theorem traceAt_free (inst type unit : Nat) (part : Option Nat) (payload : List Byte) (forced : Bool) :
    (traceAt s inst type unit part payload forced).free = s.free :=
  ite_keeps State.free rfl (ite_keeps State.free (bumpO_free ..) (bumpO_free ..))

theorem traceAt_unseen (inst type unit : Nat) (part : Option Nat) (payload : List Byte) (forced : Bool) :
    unseen (traceAt s inst type unit part payload forced) = unseen s := by simp [unseen, traceAt_free, traceAt_duc]

@[simp] theorem post_unseen (code part : Nat) (data : List Byte) (droppable : Bool) :
    unseen (post s code part data droppable) = unseen s := by simp [unseen]

@[simp] theorem freeze_unseen (scope cause : Nat) : unseen (freeze s scope cause) = unseen s :=
  freeze_keeps s unseen (fun _ _ => rfl) (fun _ _ _ _ _ => by simp [unseen]) traceAt_unseen post_unseen scope cause

@[simp] theorem setState_unseen (st : BitVec 4) : unseen (setState s st) = unseen s := by simp [unseen]

@[simp] theorem faultAll_unseen (reason detail : Nat) : unseen (faultAll s reason detail) = unseen s :=
  foldl_keeps unseen _ s fun _ _ => by simp [unseen]

@[simp] theorem finishWait_unseen (w : Wait) (status : Nat) (result : List Byte) : unseen (finishWait s w status result) = unseen s := by
  simp [unseen]

/-- A state without free values drawn either. -/
def undrawn (s : State) : State := { unseen s with free := 0 }

theorem openFault_undrawn (reason : Nat) : undrawn (openFault s reason) = undrawn s :=
  foldl_keeps undrawn _ s fun _ _ => by simp [undrawn, unseen, freeWord]

@[simp] theorem openFault_pwr (reason : Nat) : (openFault s reason).pwr = s.pwr := (congrArg State.pwr (openFault_undrawn s reason) :)

end

section
variable {s : State}

/-! ### ENTER_FAULTED (R385) -/

theorem undrawn_faulted {u : State} (h : undrawn u = undrawn s) (x : Stamp × BitVec 16 × BitVec 15) :
    undrawn { u with pwr.faulted := x } = { undrawn s with pwr.faulted := x } :=
  (congrArg (fun v : State => { v with pwr.faulted := x }) h :)

section
variable {cause : Nat}

theorem enterFaulted_serving (h : serving s = true ∨ s.ink.state = stDiagnostic) : ∃ t, enterFaulted s cause = t ∧ t.ink.state = stFaulted ∧
    (t.pwr.faulted).2.1 = BitVec.ofNat 16 St.deviceFault ∧
    t = { s with ink := t.ink, free := t.free, pwr.faulted := t.pwr.faulted, host := t.host, obs := t.obs } := by
  refine ⟨_, rfl, ?_⟩
  rw [enterFaulted, if_pos (by simpa using h)]
  extract_lets s1 p
  have hs1 : undrawn s1 = undrawn s :=
    (openFault_undrawn ..).trans (congrArg (fun u => { u with free := 0 }) (freeze_unseen s 0xFF cause))
  refine ⟨setState_ink_state .., by simp [p], ?_⟩
  generalize hx : (stamp s1, BitVec.ofNat 16 St.deviceFault, (func s1 0).detail) = x
  generalize ht : setState { s1 with pwr.faulted := x } stFaulted = t
  have hundrawn : undrawn t = { undrawn s with pwr.faulted := x } :=
    (ht ▸ congrArg (fun u : State => { u with free := 0 }) (setState_unseen ..)).trans (undrawn_faulted hs1 x)
  have hfaulted : t.pwr.faulted = x := ht ▸ congrArg Power.faulted (setState_pwr ..)
  rw [hfaulted]
  exact congrArg (fun u : State => { u with ink := t.ink, free := t.free, host := t.host, obs := t.obs }) hundrawn

theorem enterFaulted_elsewhere (hserv : serving s = false) (hdiag : s.ink.state ≠ stDiagnostic) : enterFaulted s cause = s :=
  if_neg (by simp [hserv, hdiag])

end

/-! ### Clocks (R383, R466) -/

theorem setClock_same {p : Power} (h : min p.powerClock p.heatClock = s.pwr.clock) :
    setClock s p = { s with pwr := { p with clock := s.pwr.clock } } := by
  simp only [setClock, h, if_true]

theorem setClock_changes {v : State} {p : Power} (h : min p.powerClock p.heatClock ≠ s.pwr.clock)
    (hv : v = { s with pwr := { p with clock := min p.powerClock p.heatClock } }) :
    setClock s p = post v 0x0B03 0xFF (leBytes 2 (min p.powerClock p.heatClock) ++ leBytes 2 (min 65535 (meanPower v))) true := by
  subst hv
  exact if_neg h

section
variable {w : Nat}

theorem powerSample_held (hh : held s = true) : exec (.powerSample w) s = .next s := next_if_pos hh

/-- A sample that is not the tenth of its window, or on a device without a limit, is only kept. -/
theorem powerSample_holds (hh : held s = false) (hno : Config.powerLimit s.ink.variant.toNat = 0 ∨ ((w :: s.pwr.watts).take 10).length < 10) :
    exec (.powerSample w) s = .next { s with pwr.watts := (w :: s.pwr.watts).take 10 } :=
  (next_if_neg (by simp [hh])).trans (next_if_pos hno)

theorem powerSample_early (hh : held s = false) (hlen : s.pwr.watts.length < 9) :
    exec (.powerSample w) s = .next { s with pwr.watts := w :: s.pwr.watts } := by
  have hall : (w :: s.pwr.watts).take 10 = w :: s.pwr.watts := List.take_of_length_le (by simp; omega)
  rw [powerSample_holds hh (.inr (by rw [hall, List.length_cons]; omega)), hall]

theorem powerSample_unlimited (hh : held s = false) (hno : Config.powerLimit s.ink.variant.toNat = 0) :
    exec (.powerSample w) s = .next { s with pwr.watts := (w :: s.pwr.watts).take 10 } := powerSample_holds hh (.inl hno)

section
variable {l : Nat} (hh : held s = false) (hlen : 9 ≤ s.pwr.watts.length) (hl : l = Config.powerLimit s.ink.variant.toNat)
include hh hlen hl

/-- Ten samples are judged against the limit. -/
theorem powerSample_judged (hl0 : l ≠ 0) : exec (.powerSample w) s = .next (
    if (w :: s.pwr.watts.take 9).sum > 10 * l then
      setClock s { s.pwr with watts := w :: s.pwr.watts.take 9, powerClock := max 800 (s.pwr.powerClock - 100), calm := 0 }
    else if 100 * (w :: s.pwr.watts.take 9).sum < 950 * l then
      if s.pwr.calm + 1 ≥ 10 then
        setClock s { s.pwr with watts := w :: s.pwr.watts.take 9, powerClock := min 1600 (s.pwr.powerClock + 100), calm := 0 }
      else { s with pwr.watts := w :: s.pwr.watts.take 9, pwr.calm := s.pwr.calm + 1 }
    else { s with pwr.watts := w :: s.pwr.watts.take 9, pwr.calm := 0 }) := by
  subst hl
  have hten : ¬ (Config.powerLimit s.ink.variant.toNat = 0 ∨ (w :: s.pwr.watts.take 9).length < 10) := by
    rw [List.length_cons, List.length_take]
    omega
  exact (next_if_neg (by simp [hh])).trans (next_if_neg hten)

theorem powerSample_high (hl0 : l ≠ 0) (hsum : 10 * l < (w :: s.pwr.watts.take 9).sum) : exec (.powerSample w) s =
    .next (setClock s { s.pwr with watts := w :: s.pwr.watts.take 9, powerClock := max 800 (s.pwr.powerClock - 100), calm := 0 }) := by
  rw [powerSample_judged hh hlen hl hl0, if_pos hsum]

section
variable (hsum : 100 * (w :: s.pwr.watts.take 9).sum < 950 * l)
include hsum

theorem powerSample_low (hcalm : 9 ≤ s.pwr.calm) : exec (.powerSample w) s =
    .next (setClock s { s.pwr with watts := w :: s.pwr.watts.take 9, powerClock := min 1600 (s.pwr.powerClock + 100), calm := 0 }) := by
  rw [powerSample_judged hh hlen hl (by omega), if_neg (by omega), if_pos hsum, if_pos (by omega)]

theorem powerSample_calm (hcalm : s.pwr.calm < 9) : exec (.powerSample w) s =
    .next { s with pwr.watts := w :: s.pwr.watts.take 9, pwr.calm := s.pwr.calm + 1 } := by
  rw [powerSample_judged hh hlen hl (by omega), if_neg (by omega), if_pos hsum, if_neg (by omega)]

end

theorem powerSample_steady (hl0 : l ≠ 0) (hlo : 950 * l ≤ 100 * (w :: s.pwr.watts.take 9).sum) (hhi : (w :: s.pwr.watts.take 9).sum ≤ 10 * l) :
    exec (.powerSample w) s = .next { s with pwr.watts := w :: s.pwr.watts.take 9, pwr.calm := 0 } := by
  rw [powerSample_judged hh hlen hl hl0, if_neg (by omega), if_neg (by omega)]

end
end

section
variable {c : Nat}

theorem junctionSample_held (hh : held s = true) : exec (.junctionSample c) s = .next s := next_if_pos hh

theorem junctionSample_judged (hh : held s = false) : exec (.junctionSample c) s = .next (junctionSample s c) := next_if_neg (by simp [hh])

theorem junctionSample_trips (hh : held s = false) (hc : 125 ≤ c) : ∃ t, exec (.junctionSample c) s = .next t ∧ t.pwr.tripN = true ∧
    t.pwr.domains = 1 ∧ t.pwr.hostLink = false ∧ t.ink.state = stResetting :=
  ⟨_, (junctionSample_judged hh).trans (next_if_pos hc), rfl, rfl, rfl, rfl⟩

theorem junctionSample_hot (hh : held s = false) (hlo : 105 < c) (hhi : c < 125) : exec (.junctionSample c) s =
    .next (setClock s { s.pwr with heatClock := max 800 (s.pwr.heatClock - 100), coolMs := 0 }) :=
  (junctionSample_judged hh).trans ((next_if_neg (by omega)).trans (next_if_pos hlo))

section
variable (hh : held s = false) (hc : c ≤ 100)
include hh hc

theorem junctionSample_cooled (hms : 9 ≤ s.pwr.coolMs) : exec (.junctionSample c) s =
    .next (setClock s { s.pwr with heatClock := min 1600 (s.pwr.heatClock + 100), coolMs := 0 }) :=
  (junctionSample_judged hh).trans ((next_if_neg (by omega)).trans ((next_if_neg (by omega)).trans ((next_if_pos hc).trans
    (next_if_pos (by omega)))))

theorem junctionSample_cool (hms : s.pwr.coolMs < 9) : exec (.junctionSample c) s = .next { s with pwr.coolMs := s.pwr.coolMs + 1 } :=
  (junctionSample_judged hh).trans ((next_if_neg (by omega)).trans ((next_if_neg (by omega)).trans ((next_if_pos hc).trans
    (next_if_neg (by omega)))))

end

theorem junctionSample_warm (hh : held s = false) (hlo : 100 < c) (hhi : c ≤ 105) :
    exec (.junctionSample c) s = .next { s with pwr.coolMs := 0 } :=
  (junctionSample_judged hh).trans ((next_if_neg (by omega)).trans ((next_if_neg (by omega)).trans (next_if_neg (by omega))))

end

/-! ### RESET (R384, R410) -/

theorem afterReset_unwanted (h : s.pwr.resetWanted = 0) : afterReset s = s := if_pos h

/-- The fields of a compute reset leave the resets under way to decide. -/
theorem resetBody_compute {c : Cmd} {a : State} (hk : p8 c 0 = 3) (hne : p8 c 1 ≠ 0) (hle : p8 c 1 ≤ 15)
    (hcfg : (bitList 4 (p8 c 1)).any (fun p => !configured a p) = false) : resetBody c a =
    checked [((bitList 4 (p8 c 1)).any a.pwr.resets.contains, St.busy)] a
      (.wait (.computeReset (p8 c 1)) ((bitList 4 (p8 c 1)).foldl beginCompute (post a 0x0B04 0xFF [BitVec.ofNat 8 (p8 c 1), 0, 0, 0] false))) := by
  refine (if_neg (by omega)).trans (checked_tail ?_)
  rw [hcfg]
  simp [hk, hne, hle]

section
variable {c : Cmd} {a u : State} (h : Begun { op := 0x0B02, need := 2, vf := false } c s a)
include h

/-- A RESET of WARM or FULL completes, and then its reset begins. -/
theorem reset_device {n : Nat} (hn : p8 c 0 = n) (hkind : n = 1 ∨ n = 2) {b : Bool} (hb : (n == 1) = b)
    (hu : u = complete { a with pwr.resetWanted := n } c St.ok []) :
    exec (.reset c) s = .next (warmReset { u with pwr.resetWanted := 0 } true b) := by
  have hrow : firmware { op := 0x0B02, need := 2, vf := false } resetBody c s = u := by
    rw [hu, ← hn]
    exact firmware_done h (if_pos (hn ▸ hkind))
  have hwanted : u.pwr.resetWanted = n := by rw [hu, complete_pwr]
  change Host.Outcome.next (afterReset _) = _
  rw [hrow, afterReset, if_neg (by omega), hwanted, hb]

theorem reset_warm (hn : p8 c 0 = 1) (hu : u = complete { a with pwr.resetWanted := 1 } c St.ok []) :
    exec (.reset c) s = .next (warmReset { u with pwr.resetWanted := 0 } true true) := reset_device h hn (.inl rfl) rfl hu

theorem reset_full (hn : p8 c 0 = 2) (hu : u = complete { a with pwr.resetWanted := 2 } c St.ok []) :
    exec (.reset c) s = .next (warmReset { u with pwr.resetWanted := 0 } true false) := reset_device h hn (.inr rfl) rfl hu

/-- A RESET that is refused resets nothing. -/
theorem reset_refused {st : Nat} (hb : resetBody c a = .done st [] a) (hw : a.pwr.resetWanted = 0) :
    exec (.reset c) s = .next (complete a c st []) := by
  change Host.Outcome.next (afterReset _) = _
  rw [firmware_done h hb, afterReset_unwanted (by rw [complete_pwr, hw])]

theorem reset_badField (h1 : p8 c 0 ≠ 1) (h2 : p8 c 0 ≠ 2)
    (hbad : p8 c 0 ≠ 3 ∨ p8 c 1 = 0 ∨ 15 < p8 c 1 ∨ (bitList 4 (p8 c 1)).any (fun p => !configured a p) = true)
    (hw : a.pwr.resetWanted = 0) : exec (.reset c) s = .next (complete a c St.invalidField []) := by
  refine reset_refused h ((if_neg (not_or.mpr ⟨h1, h2⟩)).trans (checked_head ?_)) hw
  rcases hbad with hbad | hbad | hbad | hbad
  · simp [hbad]
  · simp [hbad]
  · simp [hbad]
  · rw [hbad, Bool.or_true]

section
variable (hk : p8 c 0 = 3) (hne : p8 c 1 ≠ 0) (hle : p8 c 1 ≤ 15) (hcfg : (bitList 4 (p8 c 1)).any (fun p => !configured a p) = false)
include hk hne hle hcfg

theorem reset_busy (hbusy : (bitList 4 (p8 c 1)).any a.pwr.resets.contains = true) (hw : a.pwr.resetWanted = 0) :
    exec (.reset c) s = .next (complete a c St.busy []) :=
  reset_refused h ((resetBody_compute hk hne hle hcfg).trans (checked_head hbusy)) hw

theorem reset_compute (hfree : (bitList 4 (p8 c 1)).any a.pwr.resets.contains = false)
    (hu : u = (bitList 4 (p8 c 1)).foldl beginCompute (post a 0x0B04 0xFF [BitVec.ofNat 8 (p8 c 1), 0, 0, 0] false))
    (hw : u.pwr.resetWanted = 0) : Waits (.reset c) 0x0B02 c s u (.computeReset (p8 c 1)) := by
  subst hu
  change Host.Outcome.next (afterReset _) = _
  rw [firmware_wait h ((resetBody_compute hk hne hle hcfg).trans (checked_tail hfree))]
  exact congrArg _ (afterReset_unwanted hw)

end
end

/-! ### COMPUTE_RESET_END (R410, R411) -/

theorem computeResetEnd_idle {p : Nat} {l : List Nat} (h : s.pwr.resets.contains p = false) : exec (.computeResetEnd p l) s = .next s :=
  next_if_neg (by rw [h]; exact Bool.false_ne_true)

theorem computeResetEnd_ends {p : Nat} {l : List Nat} (h : s.pwr.resets.contains p = true) :
    exec (.computeResetEnd p l) s = .next (endCompute s p l) := next_if_pos h

theorem computeResetEnd_sound {v : State} {p : Nat} (h : s.pwr.resets.contains p = true) (hv : v = freshQuads (failLost { s with
      cpu.resetting := s.cpu.resetting.filter (fun e => !(partQuads s p).contains e.1),
      pwr.resets := s.pwr.resets.filter (· != p),
      pwr.domains := s.pwr.domains ||| (quadBits (partQuads s p) &&& ~~~ s.pwr.dead) }) (partQuads s p)) :
    exec (.computeResetEnd p []) s =
      .next (computeDone (post v 0x0B04 0xFF [BitVec.ofNat 8 (2 ^ p), 1, 0, BitVec.ofNat 8 (lostCores s).length] false)) := by
  subst hv
  rw [computeResetEnd_ends h]
  simp [endCompute]

/-- A failing core is marked out, and its logical number goes to a free good core of its quadrant or is left out. -/
theorem replaceCore_mapped {v : State} {phys n c replaced left : Nat} (hv : v = { s with pwr.defect := { s.pwr.defect with
      coresOut := if s.pwr.defect.coresOut.contains phys then s.pwr.defect.coresOut else s.pwr.defect.coresOut ++ [phys] } })
    (hn : indexOf? (· == phys) s.cpu.map = some n) :
    ((goodCores v (phys / 40)).find? (fun c => !s.cpu.map.contains c) = some c →
      replaceCore (s, replaced, left) phys = ({ v with cpu.map := s.cpu.map.set n c }, replaced + 1, left)) ∧
    ((goodCores v (phys / 40)).find? (fun c => !s.cpu.map.contains c) = none →
      replaceCore (s, replaced, left) phys = ({ v with cpu.bad := s.cpu.bad ++ [n] }, replaced, left + 1)) := by
  subst hv
  constructor <;>
  · intro hfind
    simp only [replaceCore, hn, hfind]

end

/-! ### What the end of a compute reset keeps -/

/-- The resets under way and the device state, and whether an engine is degraded. -/
def resetting (p : Power) : List Nat × Bool := (p.resets, p.degMask.getLsbD 3)

theorem resetting_of_standing {i j : Inkwell} {p q : Power} (h : standing i p = standing j q) : resetting p = resetting q :=
  congrArg (fun e => (e.2.resets, e.2.degMask.getLsbD 3)) h

/-- A state without its cores and queues. -/
def uncored (s : State) : State := { s with cpu := {} }

section
variable (s : State)

theorem resetting_channelBit (p : Power) : resetting { p with degMask := p.degMask ||| 0x20 } = resetting p := by simp [resetting]

/-- A failed channel degrades the device in another bit. -/
theorem failChannel_resetting (t : Tier) (c : Nat) : resetting (failChannel s t c).pwr = resetting s.pwr := by
  have hmark : resetting (markChannel (setChan s t c { chanOf s t c with failed := true, retraining := false }) t c).pwr = resetting s.pwr :=
    resetting_of_standing (i := {}) (j := {}) (markChannel_standing ..)
  unfold failChannel
  extract_lets x s1 s2 s3 p s4
  have h4 : resetting s4.pwr = resetting s.pwr :=
    (resetting_channelBit s3.pwr).trans ((congrArg resetting (show s3.pwr = s1.pwr by simp [s3, s2, memChannel])).trans hmark)
  exact ite_keeps (fun u => resetting u.pwr) ((congrArg resetting (setState_pwr ..)).trans h4) h4

theorem failLost_resetting : resetting (failLost s).pwr = resetting s.pwr :=
  foldl_keeps (fun u => resetting u.pwr) _ _ fun _ _ => failChannel_resetting ..

theorem freshQuads_eq (quads : List Nat) : freshQuads s quads = { s with cpu := (freshQuads s quads).cpu } := by
  have hcores : ∀ l : List Nat, uncored (l.foldl freshCore s) = uncored s := fun l => foldl_keeps uncored _ s fun _ _ => rfl
  exact congrArg (fun u : State => { u with cpu := (freshQuads s quads).cpu }) (hcores _)

theorem storeDefect_resetting : resetting (storeDefect s).pwr = resetting s.pwr := by
  rw [storeDefect_eq]
  rfl

theorem replaceCore_resetting (acc : State × Nat × Nat) (phys : Nat) : resetting (replaceCore acc phys).1.pwr = resetting acc.1.pwr := by
  obtain ⟨u, replaced, left⟩ := acc
  unfold replaceCore
  dsimp only
  split
  · rfl
  · split <;> rfl

theorem finishWait_ink_state (w : Wait) (status : Nat) (result : List Byte) : (finishWait s w status result).ink.state = s.ink.state :=
  foldl_keeps (fun u => u.ink.state) _ _ fun _ _ => complete_ink_state ..

theorem computeDone_keeps {β : Type} (g : State → β) (hg : ∀ u w st r, g (finishWait u w st r) = g u) : g (computeDone s) = g s := by
  unfold computeDone
  refine foldl_keeps g _ _ fun _ _ => ?_
  split
  · exact ite_keeps g rfl (hg ..)
  · rfl

end

theorem computeResetEnd_ended {s : State} {p : Nat} {l : List Nat} (h : s.pwr.resets.contains p = true) :
    ∃ t, exec (.computeResetEnd p l) s = .next t ∧ t.pwr.resets = s.pwr.resets.filter (· != p) ∧
      ((l.filter (fun c => (partQuads s p).contains (c / 40))) ≠ [] → t.pwr.degMask.getLsbD 3 = true ∧ t.ink.state ≠ stReady) := by
  refine ⟨_, computeResetEnd_ends h, ?_⟩
  unfold endCompute
  extract_lets quads bad
  have hfold : resetting (bad.foldl replaceCore (s, 0, 0)).1.pwr = resetting s.pwr :=
    foldl_preserves (fun acc : State × Nat × Nat => resetting acc.1.pwr) _ _ replaceCore_resetting
  split
  next s1 replaced left hacc =>
  rw [hacc] at hfold
  extract_lets d s2 lost cpu q s3 s4
  have hresets : s2.pwr.resets = s.pwr.resets :=
    ite_keeps (fun u => u.pwr.resets) (congrArg Prod.fst hfold)
      ((congrArg Prod.fst (storeDefect_resetting _)).trans (congrArg Prod.fst hfold))
  have h3 : resetting s3.pwr = (s.pwr.resets.filter (· != p), s2.pwr.degMask.getLsbD 3) := by
    rw [← hresets]
    exact (congrArg (fun u : State => resetting u.pwr) (freshQuads_eq _ quads)).trans (failLost_resetting _)
  have h4 : s4.pwr = s3.pwr := ite_keeps State.pwr (setState_pwr ..) rfl
  have hpwr : (computeDone (post s4 0x0B04 0xFF [BitVec.ofNat 8 (2 ^ p), 1, BitVec.ofNat 8 replaced, BitVec.ofNat 8 (left + lost)]
      false)).pwr = s3.pwr :=
    (computeDone_keeps _ State.pwr finishWait_pwr).trans ((post_pwr ..).trans h4)
  refine ⟨(congrArg Power.resets hpwr).trans (congrArg Prod.fst h3), fun hbad => ⟨?degraded, ?state⟩⟩
  case degraded =>
    have hne : bad.isEmpty = false := List.isEmpty_eq_false_iff.mpr hbad
    have hstored : s2.pwr.degMask.getLsbD 3 = true := by
      rw [show s2 = storeDefect _ from if_neg (by simp [hne])]
      refine (congrArg Prod.snd (storeDefect_resetting _)).trans ?_
      simp [resetting]
    rw [hpwr]
    exact (congrArg Prod.snd h3).trans hstored
  case state =>
    have hkeep : ∀ u : State, (computeDone u).ink.state = u.ink.state := fun u => computeDone_keeps u (fun u => u.ink.state) finishWait_ink_state
    rw [hkeep, post_ink_state]
    have hne : bad.isEmpty = false := List.isEmpty_eq_false_iff.mpr hbad
    by_cases hready : s3.ink.state = stReady
    · rw [show s4 = setState s3 stDegraded from if_pos (by simp [hne, hready]), setState_ink_state]
      decide
    · rwa [show s4 = s3 from if_neg (by simp [hready])]

/-! ### The Cap state (R415, R417) -/

section
variable {c : Cmd} {s a : State}

section
variable (h : Begun { op := 0x0B0E, vf := false } c s a) (hserv : serving a = true) (henter : a.pwr.capEntering = false)
include h hserv henter

theorem powerCapEnter_waits (hbusy : capBusy a = false) :
    Waits (.powerCapEnter c) 0x0B0E c s { a with pwr.capEntering := true } .capEnter :=
  waits_of rfl h (checked_pass (by simp [hserv, henter, hbusy]))

theorem powerCapEnter_busy (hbusy : capBusy a = true) : exec (.powerCapEnter c) s = .next (complete a c St.powerBusy []) :=
  ends_of rfl h ((checked_tail (by simp [hserv])).trans ((checked_tail henter).trans (checked_head hbusy)))

end

theorem wake_capped (h : s.ink.state = stCapped) : wake s = { s with pwr.capWaking := true } := if_pos h

theorem wake_entering (h : s.ink.state ≠ stCapped) (he : s.pwr.capEntering = true) : wake s = { s with pwr.wakeWanted := true } := by
  rw [wake, if_neg h, if_pos he]

theorem wake_elsewhere (h : s.ink.state ≠ stCapped) (he : s.pwr.capEntering = false) : wake s = s := by
  rw [wake, if_neg h, if_neg (by simp [he])]

section
variable (h : Begun { op := 0x0B0F, vf := false } c s a)
include h

theorem powerCapExit_wakes (hst : a.ink.state = stCapped) :
    Waits (.powerCapExit c) 0x0B0F c s { a with pwr.capWaking := true } .capExit :=
  waits_of rfl h ((if_pos (.inl hst)).trans (by rw [wake_capped hst]))

theorem powerCapExit_entering (hst : a.ink.state ≠ stCapped) (he : a.pwr.capEntering = true) :
    Waits (.powerCapExit c) 0x0B0F c s { a with pwr.wakeWanted := true } .capExit :=
  waits_of rfl h ((if_pos (.inr he)).trans (by rw [wake_entering hst he]))

theorem powerCapExit_elsewhere (hst : a.ink.state ≠ stCapped) (he : a.pwr.capEntering = false) : Completes (.powerCapExit c) c s a [] :=
  completes_of rfl h (if_neg (by simp [hst, he]))

end

theorem wakeWanted_of_standing {t : State} (h : standingOf t = standingOf s) : t.pwr.wakeWanted = s.pwr.wakeWanted :=
  congrArg (fun e => e.2.wakeWanted) h

/-- The drain before the Cap state keeps a wake that came during it. -/
theorem capDrain_standing (s : State) : standingOf (drainAllTraces (writeBackAll s)) = standingOf s :=
  (foldl_keeps standingOf _ _ fun _ _ => foldl_keeps standingOf _ _ fun _ _ => drainNow_standing ..).trans (flushRange_standing ..)

/-- The Cap state of a device whose drain has left state `d`. -/
def capEntered (s d : State) : State :=
  finishWait (setState { d with pwr := { d.pwr with capEntering := false, capBefore := s.ink.state, domains := d.pwr.domains &&& capDomains,
                                                    capWaking := d.pwr.wakeWanted, wakeWanted := false } } stCapped) .capEnter St.ok []

theorem capEntered_cases (s d : State) : (capEntered s d).ink.state = stCapped ∧ (capEntered s d).pwr.capEntering = false ∧
    (capEntered s d).pwr.capBefore = s.ink.state ∧ (capEntered s d).pwr.domains &&& ~~~ capDomains = 0 ∧
    (capEntered s d).pwr.capWaking = d.pwr.wakeWanted := by
  rw [capEntered, finishWait_pwr, finishWait_ink_state, setState_pwr]
  exact ⟨setState_ink_state .., rfl, rfl, by simp [BitVec.and_assoc], rfl⟩

theorem capEntryDone_enters (he : s.pwr.capEntering = true) (hf : s.ink.fetched.any (fun e => e.cmd.ring != 0) = false)
    (hr : s.ink.running.any (fun r => r.cmd.ring != 0) = false) :
    ∃ t, exec .capEntryDone s = .next t ∧ t.ink.state = stCapped ∧ t.pwr.capEntering = false ∧ t.pwr.capBefore = s.ink.state ∧
      t.pwr.domains &&& ~~~ capDomains = 0 ∧ t.pwr.capWaking = s.pwr.wakeWanted := by
  have hrow : capEntryDone s = capEntered s (drainAllTraces (writeBackAll s)) := by
    unfold capEntryDone capEntered
    exact if_neg (by simp [he, hf, hr])
  obtain ⟨hstate, henter, hbefore, hdomains, hwaking⟩ := capEntered_cases s (drainAllTraces (writeBackAll s))
  rw [← hrow] at hstate henter hbefore hdomains hwaking
  exact ⟨capEntryDone s, rfl, hstate, henter, hbefore, hdomains, hwaking.trans (wakeWanted_of_standing (capDrain_standing s))⟩

theorem capEntryDone_busy (h : s.pwr.capEntering = false ∨ s.ink.fetched.any (fun e => e.cmd.ring != 0) = true ∨
    s.ink.running.any (fun r => r.cmd.ring != 0) = true) : exec .capEntryDone s = .next s := by
  refine next_if_pos ?_
  rcases h with h | h | h <;> rw [h] <;> simp

theorem capWakeN_capped (h : s.ink.state = stCapped) : exec .capWakeN s = .next { s with pwr.capWaking := true } :=
  congrArg _ (wake_capped h)

theorem capWakeN_entering (h : s.ink.state ≠ stCapped) (he : s.pwr.capEntering = true) :
    exec .capWakeN s = .next { s with pwr.wakeWanted := true } := congrArg _ (wake_entering h he)

theorem capWakeN_elsewhere (h : s.ink.state ≠ stCapped) (he : s.pwr.capEntering = false) : exec .capWakeN s = .next s :=
  congrArg _ (wake_elsewhere h he)

/-- Which channels are lost depends on memory and on the domains that stayed off. -/
theorem lostChans_congr {t : State} (hmem : t.mem = s.mem) (hsvc : t.svc = s.svc) (hdead : t.pwr.dead = s.pwr.dead) :
    lostChans t = lostChans s := by
  simp only [lostChans, memLost, dieLost, unitOf, chanOf, hmem, hsvc, hdead]

theorem failLost_of_none (h : lostChans s = []) : failLost s = { s with cpu.bad := s.cpu.bad ++ lostCores s } := by
  rw [failLost, h]
  rfl

/-- The domains that a wake switches on. -/
def wakeDomains (s : State) (quads : List Nat) : BitVec 16 :=
  BitVec.ofNat 16 (memDomains s + 8192 + 49152 + 512 * maskOf quads) &&& ~~~ s.pwr.dead

/-- The state that a wake returns to, before what its domains lost is left out. -/
def woken (s : State) (quads : List Nat) : State :=
  setState { freshQuads s quads with pwr := { s.pwr with capWaking := false, domains := s.pwr.domains ||| wakeDomains s quads } } s.pwr.capBefore

/-- A state without what a wake changes. -/
def unwoken (s : State) : State := unpowered (uncored (unseen s))

theorem eq_of_unwoken {t : State} (h : unwoken t = unwoken s) :
    t = { s with ink := t.ink, cpu := t.cpu, pwr := t.pwr, host := t.host, obs := t.obs } :=
  congrArg (fun u : State => { u with ink := t.ink, cpu := t.cpu, pwr := t.pwr, host := t.host, obs := t.obs }) h

section
variable (quads : List Nat)

theorem woken_pwr : (woken s quads).pwr = { s.pwr with capWaking := false, domains := s.pwr.domains ||| wakeDomains s quads } := setState_pwr ..

theorem woken_unwoken : unwoken (woken s quads) = unwoken s := by
  rw [woken, unwoken, setState_unseen, freshQuads_eq]
  rfl

theorem failLost_woken (hlost : lostChans s = []) :
    failLost (woken s quads) = { woken s quads with cpu.bad := (woken s quads).cpu.bad ++ lostCores (woken s quads) } := by
  have hkept := eq_of_unwoken (woken_unwoken (s := s) quads)
  have hmem : (woken s quads).mem = s.mem := (congrArg State.mem hkept :)
  have hsvc : (woken s quads).svc = s.svc := (congrArg State.svc hkept :)
  exact failLost_of_none ((lostChans_congr hmem hsvc (congrArg Power.dead (woken_pwr quads) :)).trans hlost)

end

theorem capWakeDone_wakes (hst : s.ink.state = stCapped) (hw : s.pwr.capWaking = true) (hlost : lostChans s = []) :
    ∃ t, exec .capWakeDone s = .next t ∧ t.ink.state = s.pwr.capBefore ∧ t.pwr.capWaking = false ∧
      t.pwr.domains = s.pwr.domains ||| (BitVec.ofNat 16 (memDomains s + 8192 + 49152 +
        512 * maskOf ((List.range 4).filter (fun q => s.cpu.map.any (fun c => c / 40 == q)))) &&& ~~~ s.pwr.dead) ∧
      t = { s with ink := t.ink, cpu := t.cpu, pwr := t.pwr, host := t.host, obs := t.obs } := by
  let quads := (List.range 4).filter (fun q => s.cpu.map.any (fun c => c / 40 == q))
  refine ⟨finishWait (failLost (woken s quads)) .capExit St.ok [], next_if_neg (by simp [hst, hw]), ?_, ?_, ?_, eq_of_unwoken ?_⟩
  · rw [finishWait_ink_state, failLost_woken quads hlost]
    exact setState_ink_state ..
  · rw [finishWait_pwr, failLost_woken quads hlost, woken_pwr]
  · rw [finishWait_pwr, failLost_woken quads hlost, woken_pwr]
    rfl
  · rw [unwoken, finishWait_unseen, failLost_woken quads hlost]
    exact woken_unwoken quads

theorem capWakeDone_elsewhere (h : s.ink.state ≠ stCapped ∨ s.pwr.capWaking = false) : exec .capWakeDone s = .next s :=
  next_if_pos (by rcases h with h | h <;> simp [h])

/-! ### FAULT_LOG_READ and POWER_STATUS (R400, R419) -/

theorem faultLogRead_completes (h : Begun { op := 0x0B01, need := 8, vf := false } c s a) (hw : hostOk a (p64 c 0) (faultLog a).length = true) :
    Completes (.faultLogRead c) c s (hostStore a (p64 c 0) (faultLog a)) [] := completes_of rfl h (reportTo_ok hw)

section
variable (h : Begun { op := 0x0B10, vf := false } c s a)
include h

theorem powerStatus_sampled (hw : a.pwr.watts ≠ []) :
    Completes (.powerStatus c) c s a (leBytes 2 a.pwr.domains.toNat ++ leBytes 2 a.pwr.clock ++
      leBytes 2 (min 65535 (a.pwr.watts.sum / a.pwr.watts.length)) ++ leBytes 2 (Config.powerLimit a.ink.variant.toNat)) :=
  completes_of rfl h (by simp only [reportedPower_sampled hw])

theorem powerStatus_unsampled (hw : a.pwr.watts = []) :
    Completes (.powerStatus c) c s (freeWord a).2 (leBytes 2 a.pwr.domains.toNat ++ leBytes 2 a.pwr.clock ++
      leBytes 2 ((freeWord a).1.toNat % 65536) ++ leBytes 2 (Config.powerLimit a.ink.variant.toNat)) :=
  completes_of rfl h (by simp only [reportedPower_unsampled hw] <;> rfl)

end
end

/-- Settles O56: each row by its cases. -/
theorem powerRows : Obligations.PowerRows :=
  ⟨fun _ h => (enterFaulted_serving h).imp fun _ ⟨e, hrest⟩ => ⟨congrArg _ e, hrest⟩,
    fun _ hserv hdiag => congrArg _ (enterFaulted_elsewhere hserv hdiag),
    fun _ _ => powerSample_held, fun _ _ => powerSample_early, fun _ _ _ => powerSample_high, fun _ _ _ => powerSample_low,
    fun _ _ _ => powerSample_calm, fun _ _ _ => powerSample_steady, fun _ _ => powerSample_unlimited,
    fun _ _ => setClock_same, fun _ _ _ => setClock_changes, fun _ _ => junctionSample_held, fun _ _ => junctionSample_trips,
    fun _ _ => junctionSample_hot, fun _ _ => junctionSample_cooled, fun _ _ => junctionSample_cool, fun _ _ => junctionSample_warm,
    fun _ _ _ _ => reset_warm, fun _ _ _ _ => reset_full, fun _ _ _ => reset_badField, fun _ _ _ => reset_busy,
    fun _ _ _ _ => reset_compute, fun _ _ _ => computeResetEnd_idle, fun _ _ _ => computeResetEnd_sound,
    fun _ _ _ => computeResetEnd_ended, fun _ _ _ _ _ _ _ => replaceCore_mapped,
    fun _ _ _ => powerCapEnter_waits, fun _ _ _ => powerCapEnter_busy, fun _ _ _ => powerCapExit_wakes,
    fun _ _ _ => powerCapExit_entering, fun _ _ _ => powerCapExit_elsewhere, fun _ => capEntryDone_enters,
    fun _ => capEntryDone_busy, fun _ => capWakeN_capped, fun _ => capWakeN_entering, fun _ => capWakeN_elsewhere,
    fun _ => capWakeDone_wakes, fun _ => capWakeDone_elsewhere, fun _ _ _ => faultLogRead_completes,
    fun _ _ _ => powerStatus_sampled, fun _ _ _ => powerStatus_unsampled⟩

end Sys2Proof.Machine
end

section
/-! PROOFS. Resets, attempts and bring-up (R384 to R401, R414, R458): what a state change, a fault's reason and an update of the boot record
leave alone, how an attempt begins and a start fails, and what each pin and stage does; then O55. -/

namespace Sys2Proof.Machine

/-! ### States and reasons (R74, R382) -/

section
variable (s : State)

/-- What a cause bit keeps, a change of state keeps, once it keeps the change itself. -/
theorem setState_keeps {β : Type} (g : State → β) (st : BitVec 4) (hink : ∀ x q, g { s with ink.state := x, ink.seq := q } = g s)
    (hg : ∀ u fn bit, g (setCause u fn bit) = g u) : g (setState s st) = g s :=
  ite_keeps g rfl ((foldl_keeps g _ _ fun _ _ => hg ..).trans (hink ..))

@[simp] theorem setState_ink_con (st : BitVec 4) : (setState s st).ink.con = s.ink.con :=
  setState_keeps s (fun u => u.ink.con) st (fun _ _ => rfl) fun _ _ _ => setCause_ink_con ..

@[simp] theorem setState_ink_claims (st : BitVec 4) : (setState s st).ink.claims = s.ink.claims :=
  setState_keeps s (fun u => u.ink.claims) st (fun _ _ => rfl) fun _ _ _ => setCause_ink_claims ..

@[simp] theorem faultAll_ink_state (reason detail : Nat) : (faultAll s reason detail).ink.state = s.ink.state :=
  foldl_keeps (fun u => u.ink.state) _ s fun _ _ => setFault_ink_state ..

@[simp] theorem faultAll_pwr (reason detail : Nat) : (faultAll s reason detail).pwr = s.pwr := (congrArg State.pwr (faultAll_unseen s reason detail) :)

@[simp] theorem faultAll_rul (reason detail : Nat) : (faultAll s reason detail).rul = s.rul := (congrArg State.rul (faultAll_unseen s reason detail) :)

@[simp] theorem openFault_ink_state (reason : Nat) : (openFault s reason).ink.state = s.ink.state :=
  foldl_keeps (fun u => u.ink.state) _ s fun _ _ => by simp [freeWord]

@[simp] theorem openFault_mem (reason : Nat) : (openFault s reason).mem = s.mem := (congrArg State.mem (openFault_undrawn s reason) :)

theorem func_raise (fn vector k : Nat) : func (raise s fn vector) k = func s k := by
  rw [func, raise, prog_ink]
  rfl

theorem setCause_reason (fn bit k : Nat) : (func (setCause s fn bit) k).reason = (func s k).reason := by
  have hset : (func (setFunc s fn { func s fn with irqStatus := (func s fn).irqStatus ||| BitVec.ofNat 19 (2 ^ bit) }) k).reason =
      (func s k).reason := by
    by_cases hk : k = fn
    · rw [hk, func_setFunc]
    · rw [func, setFunc, mget_mput_ne _ _ _ _ _ hk, func]
  exact ite_keeps (fun u => (func u k).reason) hset ((congrArg Func.reason (func_raise ..)).trans hset)

/-- A function's reason is the one that it was last given. -/
theorem setFault_reason (fn reason detail k : Nat) :
    (func (setFault s fn reason detail) k).reason = if k = fn then BitVec.ofNat 16 reason else (func s k).reason := by
  have hset : ∀ f : Func, (func (setFunc s fn f) k).reason = if k = fn then f.reason else (func s k).reason := fun f => by
    by_cases hk : k = fn
    · rw [if_pos hk, hk, func_setFunc]
    · rw [if_neg hk, func, setFunc, mget_mput_ne _ _ _ _ _ hk, func]
  exact ite_keeps (fun u => (func u k).reason) (hset _) ((setCause_reason ..).trans (hset _))

theorem foldl_setFault_reason {reason detail k : Nat} (l : List Nat) {u : State} (h : k ∈ l ∨ (func u k).reason = BitVec.ofNat 16 reason) :
    (func (l.foldl (fun s fn => setFault s fn reason detail) u) k).reason = BitVec.ofNat 16 reason := by
  induction l generalizing u with
  | nil => exact h.resolve_left (List.not_mem_nil)
  | cons fn l ih =>
    refine ih ?_
    rw [setFault_reason]
    by_cases hk : k = fn
    · exact .inr (if_pos hk)
    · rw [if_neg hk]
      exact h.imp_left fun hmem => (List.mem_cons.mp hmem).resolve_left hk

theorem faultAll_reason (reason detail : Nat) : (func (faultAll s reason detail) 0).reason = BitVec.ofNat 16 reason :=
  foldl_setFault_reason _ (.inl (List.mem_range.mpr (Nat.succ_pos _)))

/-! ### The boot record (R400) -/

/-- An update changes nothing but the two copies. -/
theorem bootUpdate_frame (f : Boot → Boot) :
    bootUpdate s f = { s with pwr.boot0 := (bootUpdate s f).pwr.boot0, pwr.boot1 := (bootUpdate s f).pwr.boot1 } := by
  unfold bootUpdate
  dsimp only
  split <;> rfl

theorem bootNow_congr {u : State} (h0 : u.pwr.boot0 = s.pwr.boot0) (h1 : u.pwr.boot1 = s.pwr.boot1) : bootNow u = bootNow s := by
  rw [bootNow, h0, h1, bootNow]

theorem bootNow_mem : bootNow s = s.pwr.boot0 ∨ (s.pwr.boot1.valid = true ∧ bootNow s = s.pwr.boot1) := by
  unfold bootNow
  dsimp only
  repeat' split
  all_goals simp_all

/-- An update leaves the former record in the other copy, so one that keeps the security version keeps the version in force. -/
theorem minSec_bootUpdate (f : Boot → Boot) (hf : (f (bootNow s)).minSec = (bootNow s).minSec) :
    (bootNow (bootUpdate s f)).minSec = (bootNow s).minSec := by
  unfold bootUpdate
  extract_lets b r n
  have hn : n.minSec = b.minSec := hf
  split
  next h =>
    simp only [Bool.and_eq_true, decide_eq_true_eq] at h
    rcases bootNow_mem { s with pwr.boot0 := n } with hnow | ⟨_, hnow⟩
    · exact (congrArg Boot.minSec hnow).trans hn
    · exact (congrArg Boot.minSec hnow).trans (congrArg Boot.minSec h.1.2.symm)
  next h =>
    rcases bootNow_mem { s with pwr.boot1 := n } with hnow | ⟨_, hnow⟩
    · have hother : s.pwr.boot0 = b := by
        rcases bootNow_mem s with hb | ⟨hvalid, hb⟩
        · exact hb.symm
        · simp only [Bool.and_eq_true, decide_eq_true_eq, hvalid, true_and, not_and, Bool.not_eq_true', Bool.not_eq_false,
            Bool.and_eq_true] at h
          exact (h hb).2.symm
      exact (congrArg Boot.minSec hnow).trans (congrArg Boot.minSec hother)
    · exact (congrArg Boot.minSec hnow).trans hn

/-! ### Attempts (R385 to R387) -/

/-- What every attempt begins with: the times of a new start. -/
def attempted (s : State) : State :=
  { s with
    pwr.prevServed := s.pwr.served, pwr.served := false, pwr.durations := [0, 0, 0, 0, 0], pwr.startAt := s.time, pwr.stageAt := s.time
    pwr.stage := 0 }

theorem beginAttempt_strapped (h : s.pwr.straps.getLsbD 3 = true) : beginAttempt s = attempted s := if_pos h

theorem beginAttempt_minimal (h : s.pwr.straps.getLsbD 3 = false) (hf : 3 ≤ (bootNow s).failed) :
    beginAttempt s = enterMinimal (attempted s) :=
  (if_neg (ne_true_of_eq_false h)).trans (if_pos hf)

/-- An attempt changes the boot record, the stage, the slot that runs and the times. -/
theorem beginAttempt_attempts (h : s.pwr.straps.getLsbD 3 = false) (hf : (bootNow s).failed < 3) :
    ∃ b0 b1, beginAttempt s =
      { attempted s with pwr.boot0 := b0, pwr.boot1 := b1, pwr.stage := 1, pwr.runSlot := (bootNow s).next } :=
  ⟨_, _, (if_neg (ne_true_of_eq_false h)).trans ((if_neg (not_le.mpr hf)).trans
    (congrArg (fun u : State => { u with pwr.stage := 1, pwr.runSlot := (bootNow s).next }) (bootUpdate_frame (attempted s) _)))⟩

theorem beginAttempt_cases (h : s.pwr.straps.getLsbD 3 = false) (hf : (bootNow s).failed < 3) :
    (beginAttempt s).ink = s.ink ∧ (beginAttempt s).rul = s.rul ∧ (beginAttempt s).pwr.stage = 1 ∧
      (beginAttempt s).pwr.runSlot = (bootNow s).next ∧ (beginAttempt s).pwr.straps = s.pwr.straps ∧
      (beginAttempt s).pwr.aonHigh = s.pwr.aonHigh ∧ (beginAttempt s).pwr.perstHigh = s.pwr.perstHigh ∧
      (beginAttempt s).pwr.hostLink = s.pwr.hostLink ∧ (beginAttempt s).pwr.warmKind = s.pwr.warmKind := by
  obtain ⟨_, _, hbegin⟩ := beginAttempt_attempts s h hf
  rw [hbegin]
  exact ⟨rfl, rfl, rfl, rfl, rfl, rfl, rfl, rfl, rfl⟩

theorem enterMinimal_ink_state : (enterMinimal s).ink.state = stMinimal := setState_ink_state ..

theorem enterMinimal_pwr : (enterMinimal s).pwr = { s.pwr with stage := 0, domains := 5 } := setState_pwr ..

theorem enterMinimal_unpowered : unpowered (unseen (enterMinimal s)) = unpowered (unseen s) := by
  rw [enterMinimal, setState_unseen]
  rfl

/-! ### Warm resets (R384, R414) -/

theorem acceptedWrites_standing : standingOf (acceptedWrites s) = standingOf s :=
  foldl_keeps standingOf _ s fun _ _ =>
    (foldl_keeps standingOf _ _ fun _ _ => ite_keeps standingOf (accessNow_standing ..) rfl).trans rfl

/-- The state in which a warm reset's attempt begins. -/
def resetRom (s : State) (conf fastKind : Bool) : State :=
  { setState (deviceReset (setState (acceptedWrites s) stResetting) false conf) stRom with pwr.warmKind := fastKind }

theorem resetRom_pwr (conf fastKind : Bool) : (resetRom s conf fastKind).pwr = { resetPwr (acceptedWrites s).pwr with warmKind := fastKind } := by
  have hpwr : (setState (deviceReset (setState (acceptedWrites s) stResetting) false conf) stRom).pwr = resetPwr (acceptedWrites s).pwr := by
    rw [setState_pwr, deviceReset, setState_pwr]
  rw [resetRom, hpwr]

theorem resetRom_claims (conf fastKind : Bool) : (resetRom s conf fastKind).ink.claims = [] := setState_ink_claims ..

theorem resetRom_ink_state (conf fastKind : Bool) : (resetRom s conf fastKind).ink.state = stRom := setState_ink_state ..

/-- The console is kept by a warm reset. -/
theorem resetRom_con (conf fastKind : Bool) : (resetRom s conf fastKind).ink.con = s.ink.con :=
  (setState_ink_con ..).trans ((setState_ink_con ..).trans (congrArg Prod.fst (acceptedWrites_standing s)))

/-! ### Failed starts (R386, R400, R401, log 44) -/

/-- The state in which the attempt after a failed start begins. -/
def failedRom (s : State) (status detail : Nat) : State :=
  faultAll { setState (failReset (setState s stResetting)) stRom with pwr.warmKind := false } status detail

theorem failedRom_pwr (status detail : Nat) : (failedRom s status detail).pwr = { resetPwr s.pwr with warmKind := false } := by
  have hpwr : (setState (failReset (setState s stResetting)) stRom).pwr = resetPwr s.pwr := by
    rw [setState_pwr, failReset, deviceReset, setState_pwr]
  have hwarm := congrArg (fun p : Power => { p with warmKind := false }) hpwr
  rw [failedRom, faultAll_pwr]
  exact hwarm

theorem failedRom_rul (status detail : Nat) : (failedRom s status detail).rul = s.rul := by
  have hrul : (setState (failReset (setState s stResetting)) stRom).rul = s.rul := by rw [setState_rul, failReset, setState_rul]
  exact (faultAll_rul ..).trans hrul

theorem failedRom_ink_state (status detail : Nat) : (failedRom s status detail).ink.state = stRom :=
  (faultAll_ink_state ..).trans (setState_ink_state ..)

theorem bootNow_recordFailure (status unit : Nat) (hseq : (bootNow s).seq + 1 < 2 ^ 32) :
    (bootNow (recordFailure s status unit)).next = 1 - s.pwr.runSlot ∧
      (bootNow (recordFailure s status unit)).failed = (bootNow s).failed := by
  rw [recordFailure, bootNow_bootUpdate _ hseq]
  exact ⟨rfl, rfl⟩

theorem bootUpdate_unreported (f : Boot → Boot) : unpowered (unseen (bootUpdate s f)) = unpowered (unseen s) :=
  (congrArg (fun u => unpowered (unseen u)) (bootUpdate_frame s f) :)

theorem recordFailure_unreported (status unit : Nat) : unpowered (unseen (recordFailure s status unit)) = unpowered (unseen s) :=
  bootUpdate_unreported s _

theorem eq_of_unreported {s t : State} (h : unpowered (unseen t) = unpowered (unseen s)) :
    t = { s with ink := t.ink, pwr := t.pwr, host := t.host, obs := t.obs } :=
  congrArg (fun u : State => { u with ink := t.ink, pwr := t.pwr, host := t.host, obs := t.obs }) h

theorem recordFailure_straps (status unit : Nat) : (recordFailure s status unit).pwr.straps = s.pwr.straps :=
  (congrArg (fun u : State => u.pwr.straps) (bootUpdate_frame s _) :)

theorem recordFailure_rul (status unit : Nat) : (recordFailure s status unit).rul = s.rul := (congrArg State.rul (bootUpdate_frame s _) :)

theorem bootNow_failedRom (status detail : Nat) : bootNow (failedRom s status detail) = bootNow s := by
  refine bootNow_congr s ?_ ?_ <;> rw [failedRom_pwr] <;> rfl

theorem failedRom_straps (status detail : Nat) : (failedRom s status detail).pwr.straps = s.pwr.straps := by
  rw [failedRom_pwr]
  rfl

theorem failStart_eq (status unit : Nat) :
    failStart s status unit = beginAttempt (failedRom (recordFailure s status unit) status (stageNo s + 16 * (unit % 2048))) := rfl

theorem failStart_restarts (status unit : Nat) (hstrap : s.pwr.straps.getLsbD 3 = false) (hf : (bootNow s).failed < 3)
    (hseq : (bootNow s).seq + 1 < 2 ^ 32) :
    (failStart s status unit).ink.state = stRom ∧ (failStart s status unit).pwr.stage = 1 ∧
      (failStart s status unit).pwr.runSlot = 1 - s.pwr.runSlot ∧
      (func (failStart s status unit) 0).reason = BitVec.ofNat 16 status ∧ (failStart s status unit).rul = s.rul := by
  obtain ⟨hnext, hfailed⟩ := bootNow_recordFailure s status unit hseq
  rw [failStart_eq]
  generalize stageNo s + 16 * (unit % 2048) = detail
  obtain ⟨hink, hrul, hstage, hrun, -⟩ := beginAttempt_cases (failedRom (recordFailure s status unit) status detail)
    (by rwa [failedRom_straps, recordFailure_straps]) (by rwa [bootNow_failedRom, hfailed])
  rw [func, hink, hrul, hstage, hrun, bootNow_failedRom, hnext, failedRom_rul, recordFailure_rul]
  exact ⟨failedRom_ink_state .., rfl, rfl, faultAll_reason .., rfl⟩

/-! ### IMAGE_VERIFIED (R399, R401) -/

theorem imageVerifies_congr {u : State} (hA : u.pwr.slotA = s.pwr.slotA) (hB : u.pwr.slotB = s.pwr.slotB)
    (hmin : (bootNow u).minSec = (bootNow s).minSec) (i : Nat) (sig : Bool) : imageVerifies u i sig = imageVerifies s i sig := by
  rw [imageVerifies, slotBytes, hA, hB, hmin, imageVerifies, slotBytes]

/-- A slot whose signature fails does not verify. -/
theorem imageVerifies_unsigned (i : Nat) : imageVerifies s i false = false := by simp [imageVerifies, imageSound]

end

section
variable {s : State}

section
variable {x y : Bool}

theorem imageVerified_elsewhere (h : s.ink.state ≠ stRom ∨ s.pwr.stage ≠ 1) : exec (.imageVerified x y) s = .next s := next_if_pos h

section
variable (hst : s.ink.state = stRom) (hstage : s.pwr.stage = 1)
include hst hstage

theorem imageVerified_own (hv : imageVerifies s s.pwr.runSlot (if s.pwr.runSlot = 0 then x else y) = true) :
    exec (.imageVerified x y) s = .next (setState s stLoading) := (next_if_neg (by simp [hst, hstage])).trans (next_if_pos hv)

theorem imageVerified_other {v : State} {o : Nat} (ho : o = 1 - s.pwr.runSlot)
    (hbad : imageVerifies s s.pwr.runSlot (if s.pwr.runSlot = 0 then x else y) = false)
    (hv : v = bootUpdate { s with pwr.runSlot := o } (fun b => { b with next := o }))
    (hok : imageVerifies v o (if o = 0 then x else y) = true) : exec (.imageVerified x y) s = .next (setState v stLoading) := by
  subst ho
  have hA : v.pwr.slotA = s.pwr.slotA := hv ▸ (congrArg (fun u : State => u.pwr.slotA) (bootUpdate_frame _ _) :)
  have hB : v.pwr.slotB = s.pwr.slotB := hv ▸ (congrArg (fun u : State => u.pwr.slotB) (bootUpdate_frame _ _) :)
  have hmin : (bootNow v).minSec = (bootNow s).minSec := hv ▸ minSec_bootUpdate _ _ rfl
  rw [imageVerifies_congr s hA hB hmin] at hok
  rw [hv]
  exact (next_if_neg (by simp [hst, hstage])).trans ((next_if_neg (ne_true_of_eq_false hbad)).trans (next_if_pos hok))

theorem imageVerified_none : ∃ t, exec (.imageVerified false false) s = .next t ∧ t.ink.state = stMinimal ∧ t.pwr.stage = 0 ∧
    t = { s with ink := t.ink, pwr := t.pwr, host := t.host, obs := t.obs } := by
  have hunsigned : ∀ i : Nat, ¬ imageVerifies s i (if i = 0 then false else false) = true := fun i => by
    rw [ite_self, imageVerifies_unsigned]
    exact Bool.false_ne_true
  refine ⟨_, (next_if_neg (by simp [hst, hstage])).trans ((next_if_neg (hunsigned _)).trans (next_if_neg (hunsigned _))),
    enterMinimal_ink_state _, congrArg Power.stage (enterMinimal_pwr _), eq_of_unreported ?_⟩
  exact (enterMinimal_unpowered _).trans ((congrArg unpowered (faultAll_unseen ..)).trans
    ((recordFailure_unreported ..).trans (bootUpdate_unreported ..)))

end
end

/-! ### BRINGUP_STAGE_END (R388 to R396) -/

section
variable (s : State)

/-- What the settings store, a fault's reason and an event keep, a section that cannot be read keeps. -/
theorem degradeSection_keeps {β : Type} (g : State → β) (hstore : ∀ l, g (writeStore s l) = g s)
    (hlist : ∀ u l, g { u with pwr.degraded := l } = g u) (hfault : ∀ u n, g (openFault u n) = g u)
    (hpost : ∀ u code p b d, g (post u code p b d) = g u) (id : Nat) : g (degradeSection s id) = g s := by
  unfold degradeSection
  split
  · rfl
  · refine (hpost ..).trans ((hfault ..).trans ((hlist ..).trans ?_))
    split
    · exact ite_keeps g rfl (hstore _)
    · rfl

theorem degradeSection_mem (id : Nat) : (degradeSection s id).mem = s.mem :=
  degradeSection_keeps s State.mem (fun _ => (congrArg State.mem (writeStore_eq s _) :)) (fun _ _ => rfl) openFault_mem post_mem id

theorem degradeSection_domains (id : Nat) : (degradeSection s id).pwr.domains = s.pwr.domains :=
  degradeSection_keeps s (fun u => u.pwr.domains) (fun _ => (congrArg (fun u : State => u.pwr.domains) (writeStore_eq s _) :)) (fun _ _ => rfl)
    (fun _ _ => congrArg Power.domains (openFault_pwr ..)) (fun _ _ _ _ _ => congrArg Power.domains (post_pwr ..)) id

theorem applySettings_mem : (applySettings s).mem = s.mem := ite_keeps State.mem rfl rfl

theorem applySettings_domains : (applySettings s).pwr.domains = s.pwr.domains := ite_keeps (fun u => u.pwr.domains) rfl rfl

end

section
variable {r : StageReport}

theorem bringupStageEnd_elsewhere (hload : s.ink.state ≠ stLoading) (hbring : s.ink.state ≠ stBringup) :
    exec (.bringupStageEnd r) s = .next s := (next_if_neg hload).trans (next_if_neg hbring)

section
variable (hst : s.ink.state = stLoading)
include hst

theorem loading_ends (hm : missingMandatory (addDuration s) = none) : ∃ t, exec (.bringupStageEnd r) s = .next t ∧
    t.ink.state = stBringup ∧ t.pwr.stage = 2 ∧ t.pwr.domains = s.pwr.domains ∧ t.mem = s.mem := by
  let u := applySettings (optionalIds.foldl degradeSection (addDuration s))
  have hrow : loadingEnds (addDuration s) = setState { u with pwr.stage := 2 } stBringup := by
    simp only [loadingEnds, hm] <;> rfl
  have hdomains : u.pwr.domains = s.pwr.domains :=
    (applySettings_domains _).trans (foldl_keeps (fun v => v.pwr.domains) _ _ fun _ _ => degradeSection_domains ..)
  have hmem : u.mem = s.mem := (applySettings_mem _).trans (foldl_keeps State.mem _ _ fun _ _ => degradeSection_mem ..)
  refine ⟨_, (next_if_pos hst).trans (congrArg _ hrow), setState_ink_state .., ?_, ?_, ?_⟩
  · rw [setState_pwr]
  · rw [setState_pwr]
    exact hdomains
  · rw [setState_mem]
    exact hmem

theorem loading_missing {id : Nat} (hm : missingMandatory (addDuration s) = some id) :
    exec (.bringupStageEnd r) s = .next (failStart (addDuration s) St.settingsIncompatible id) := by
  have hrow : loadingEnds (addDuration s) = failStart (addDuration s) St.settingsIncompatible id := by simp only [loadingEnds, hm]
  exact (next_if_pos hst).trans (congrArg _ hrow)

end

end
end

end Sys2Proof.Machine
end

section
/-! PROOFS. Pins, stages and their limits (R382, R384 to R396, R458): what the row of each answers in each of its cases; then O55. -/

namespace Sys2Proof.Machine

/-! ### The end of a start (R395, R396) -/

section
variable (s : State) (r : StageReport)

theorem bootDone_unbooted (b : Bool) :
    bootDone s b = { s with pwr.boot0 := (bootDone s b).pwr.boot0, pwr.boot1 := (bootDone s b).pwr.boot1 } := bootUpdate_frame ..

/-- What the cores' known-answer runs leave of the attempt: the boot record and the slot that runs. -/
theorem buildCores_attempt : (buildCores s r).pwr.boot0 = s.pwr.boot0 ∧ (buildCores s r).pwr.boot1 = s.pwr.boot1 ∧
    (buildCores s r).pwr.runSlot = s.pwr.runSlot := by
  have hkept : ((buildCores s r).pwr.boot0, (buildCores s r).pwr.boot1, (buildCores s r).pwr.runSlot) =
      (s.pwr.boot0, s.pwr.boot1, s.pwr.runSlot) :=
    ite_keeps (fun u => (u.pwr.boot0, u.pwr.boot1, u.pwr.runSlot)) rfl
      (congrArg (fun u : State => (u.pwr.boot0, u.pwr.boot1, u.pwr.runSlot)) (storeDefect_eq _) :)
  simpa using hkept

/-- Why a start that ends is not in service. -/
def startReason (v : State) : Option Nat :=
  if !serviceable v r then some St.belowServiceable else if v.ink.variant.toNat ≠ 0 then none else some St.licenceInvalid

/-- The state in which a start is recorded as ended. -/
def startDone (v : State) (mask : BitVec 8) (served : Bool) : State :=
  bootDone { v with pwr.stage := 0, pwr.degMask := mask, pwr.served := served, pwr.touched := false } served

theorem startDone_pwr (v : State) (mask : BitVec 8) (served : Bool) :
    (startDone v mask served).pwr.stage = 0 ∧ (startDone v mask served).pwr.served = served ∧ (startDone v mask served).pwr.degMask = mask := by
  rw [startDone, bootDone_unbooted]
  exact ⟨rfl, rfl, rfl⟩

theorem bootNow_startDone {v : State} (mask : BitVec 8) (hseq : (bootNow v).seq + 1 < 2 ^ 32) :
    (bootNow (startDone v mask true)).failed = 0 ∧ (bootNow (startDone v mask true)).active = v.pwr.runSlot := by
  let u : State := { v with pwr.stage := 0, pwr.degMask := mask, pwr.served := true, pwr.touched := false }
  have hbare : bootNow u = bootNow v := bootNow_congr v rfl rfl
  have hu := fun f : Boot → Boot => bootNow_bootUpdate (s := u) f (by rwa [hbare])
  exact ⟨congrArg Boot.failed (hu _), congrArg Boot.active (hu _)⟩

theorem startEnds_cases : ∃ mask, (startEnds s r).pwr = (startDone (buildCores s r) mask (startReason r (buildCores s r)).isNone).pwr ∧
    (startEnds s r).ink.state = if (startReason r (buildCores s r)).isSome then stDiagnostic else if mask = 0 then stReady else stDegraded := by
  unfold startEnds
  extract_lets v n licensed mask reason st p s1 s2
  have hs2 : s2.pwr = s1.pwr := by
    simp only [s2]
    clear_value reason
    split
    · exact openFault_pwr ..
    · rfl
  refine ⟨mask, ?_, (post_ink_state ..).trans (setState_ink_state ..)⟩
  rw [post_pwr, setState_pwr]
  exact hs2

end

section
variable {s : State}

/-! ### BRINGUP_STAGE_END (R388 to R396) -/

section
variable {r : StageReport} {v : State} {fast : Bool} (hst : s.ink.state = stBringup)
include hst

theorem not_loading : s.ink.state ≠ stLoading := by
  rw [hst]
  decide

theorem bridge_sound (hstage : s.pwr.stage = 2) (hb : r.bridge = true) :
    exec (.bringupStageEnd r) s = .next { addDuration s with pwr.stage := 3 } :=
  (next_if_neg (not_loading hst)).trans ((next_if_pos hst).trans (by simp only [hstage]; exact congrArg _ (if_pos hb)))

theorem bridge_fails (hstage : s.pwr.stage = 2) (hb : r.bridge = false) : exec (.bringupStageEnd r) s =
    .next { addDuration s with
      pwr.stage := 3,
      pwr.dead := s.pwr.dead ||| versoDomains,
      pwr.degMask := s.pwr.degMask ||| 0x40 } :=
  (next_if_neg (not_loading hst)).trans ((next_if_pos hst).trans (by simp only [hstage]; exact congrArg _ (if_neg (ne_true_of_eq_false hb))))

theorem training_ends (hstage : s.pwr.stage = 3)
    (hfast : fast = (s.pwr.warmKind && s.pwr.fastPathOn && s.pwr.prevServed && !s.pwr.touched && signaturesEqual s r)) :
    ∃ t, exec (.bringupStageEnd r) s = .next t ∧ t.pwr.stage = (if fast then 5 else 4) ∧ t.pwr.fast = fast ∧ t.pwr.clearUnits = [] ∧
      t.pwr.report = r ∧ t.pwr.defect = trainedMap s r ∧
      t.pwr.domains = s.pwr.domains ||| BitVec.ofNat 16 (unitDomains (fun k u => (foundUnit r k u).isSome && !memLost s k u)) ∧
      t = { s with pwr := t.pwr } := by
  subst hfast
  exact ⟨trainingEnds (addDuration s) r, (next_if_neg (not_loading hst)).trans ((next_if_pos hst).trans (by simp only [hstage])),
    rfl, rfl, rfl, rfl, rfl, rfl, rfl⟩

theorem test_ends (hstage : s.pwr.stage = 4) : ∃ t, exec (.bringupStageEnd r) s = .next t ∧ t.pwr.stage = 5 ∧ t.mem.cells = [] ∧
    t.mem.fill = (if s.pwr.coldSampled then .sampled else .march) ∧ t = { s with pwr := t.pwr, mem := t.mem } :=
  ⟨testEnds (addDuration s) r, (next_if_neg (not_loading hst)).trans ((next_if_pos hst).trans (by simp only [hstage])), rfl, rfl, rfl, rfl⟩

theorem maps_end (hstage : s.pwr.stage = 5) : exec (.bringupStageEnd r) s = .next (mapsEnd (addDuration s)) :=
  (next_if_neg (not_loading hst)).trans ((next_if_pos hst).trans (by simp only [hstage]))

theorem links_end (hstage : s.pwr.stage = 6) : exec (.bringupStageEnd r) s = .next (linksEnd (addDuration s) r) :=
  (next_if_neg (not_loading hst)).trans ((next_if_pos hst).trans (by simp only [hstage]))

theorem start_row (hstage : s.pwr.stage = 7) : exec (.bringupStageEnd r) s = .next (startEnds (addDuration s) r) :=
  (next_if_neg (not_loading hst)).trans ((next_if_pos hst).trans (by simp only [hstage]))

section
variable (hstage : s.pwr.stage = 7) (hv : v = buildCores (addDuration s) r)
include hstage hv

/-- A start with a reason against it ends in DIAGNOSTIC. -/
theorem start_diagnostic (hreason : (startReason r v).isSome = true) : ∃ t, exec (.bringupStageEnd r) s = .next t ∧
    t.ink.state = stDiagnostic ∧ t.pwr.stage = 0 ∧ t.pwr.served = false := by
  subst hv
  obtain ⟨mask, hpwr, hstate⟩ := startEnds_cases (addDuration s) r
  obtain ⟨hzero, hserved, -⟩ := startDone_pwr (buildCores (addDuration s) r) mask (startReason r (buildCores (addDuration s) r)).isNone
  refine ⟨_, start_row hst hstage, hstate.trans (if_pos hreason), ?_, ?_⟩
  · rw [hpwr, hzero]
  · rw [hpwr, hserved]
    simpa using hreason

theorem start_unserviceable (hno : serviceable v r = false) : ∃ t, exec (.bringupStageEnd r) s = .next t ∧ t.ink.state = stDiagnostic ∧
    t.pwr.stage = 0 ∧ t.pwr.served = false := start_diagnostic hst hstage hv (by simp [startReason, hno])

theorem start_unlicensed (hok : serviceable v r = true) (hvar : v.ink.variant.toNat = 0) : ∃ t, exec (.bringupStageEnd r) s = .next t ∧
    t.ink.state = stDiagnostic ∧ t.pwr.stage = 0 ∧ t.pwr.served = false :=
  start_diagnostic hst hstage hv (by simp [startReason, hok, hvar])

theorem start_serves (hok : serviceable v r = true) (hvar : v.ink.variant.toNat ≠ 0) (hseq : (bootNow s).seq + 1 < 2 ^ 32) :
    ∃ t, exec (.bringupStageEnd r) s = .next t ∧ t.pwr.stage = 0 ∧ t.pwr.served = true ∧
      t.ink.state = (if t.pwr.degMask = 0 then stReady else stDegraded) ∧ (bootNow t).failed = 0 ∧ (bootNow t).active = s.pwr.runSlot := by
  subst hv
  have hnone : startReason r (buildCores (addDuration s) r) = none := by simp [startReason, hok, hvar]
  obtain ⟨mask, hpwr, hstate⟩ := startEnds_cases (addDuration s) r
  rw [hnone, Option.isNone_none] at hpwr
  rw [hnone, Option.isSome_none, if_neg Bool.false_ne_true] at hstate
  obtain ⟨hzero, hserved, hmask⟩ := startDone_pwr (buildCores (addDuration s) r) mask true
  obtain ⟨h0, h1, hrun⟩ := buildCores_attempt (addDuration s) r
  have hbuilt : bootNow (buildCores (addDuration s) r) = bootNow s := bootNow_congr s h0 h1
  have hboot : bootNow (startEnds (addDuration s) r) = bootNow (startDone (buildCores (addDuration s) r) mask true) :=
    bootNow_congr _ (congrArg Power.boot0 hpwr) (congrArg Power.boot1 hpwr)
  have hdone := bootNow_startDone (v := buildCores (addDuration s) r) mask (by rwa [hbuilt])
  refine ⟨_, start_row hst hstage, ?_, ?_, ?_, ?_, ?_⟩
  · rw [hpwr, hzero]
  · rw [hpwr]
    exact hserved
  · rw [hpwr, hmask]
    exact hstate
  · rw [hboot, hdone.1]
  · rw [hboot, hdone.2]
    exact hrun

end
end

/-! ### Limits and the watchdog (R382, R388) -/

theorem stageTimeout_fails (hstage : s.pwr.stage ≠ 0) (hlinks : s.pwr.stage ≠ 6) (hdue : stageLimit s ≤ msSince s s.pwr.stageAt) :
    exec .stageTimeout s = .next (failStart s St.stageTimeout 0) :=
  (next_if_neg (by omega)).trans (next_if_neg hlinks)

theorem stageTimeout_links (hlinks : s.pwr.stage = 6) (hdue : stageLimit s ≤ msSince s s.pwr.stageAt) :
    exec .stageTimeout s = .next (linksTimeout s) := (next_if_neg (by omega)).trans (next_if_pos hlinks)

theorem stageTimeout_early (h : s.pwr.stage = 0 ∨ msSince s s.pwr.stageAt < stageLimit s) : exec .stageTimeout s = .next s := next_if_pos h

theorem scribeWatchdog_bringup (h : s.ink.state = stBringup) : exec .scribeWatchdog s = .next (failStart s St.scribeFault 0) := next_if_pos h

theorem scribeWatchdog_faults (h : s.ink.state ≠ stBringup) : exec .scribeWatchdog s = .next (enterFaulted s 4) := next_if_neg h

theorem domainPowerTimeout_off {d : Nat} (h : switching s d = true) (hlo : 1 ≤ d) (hhi : d ≤ 15) : exec (.domainPowerTimeout d) s = .next { s with
    pwr.dead := s.pwr.dead ||| BitVec.ofNat 16 (2 ^ d), pwr.domains := s.pwr.domains &&& ~~~ BitVec.ofNat 16 (2 ^ d) } :=
  next_if_neg (by simp [h]; omega)

theorem domainPowerTimeout_idle {d : Nat} (h : switching s d = false ∨ d = 0 ∨ 15 < d) : exec (.domainPowerTimeout d) s = .next s :=
  next_if_pos (by rcases h with h | h | h <;> simp [h])

/-! ### AON_RESET_N and the supply (R384, R458, R462) -/

theorem aonResetNAssert_holds (h : s.pwr.aonHigh = true) : ∃ t, exec .aonResetNAssert s = .next t ∧ t.pwr.aonHigh = false ∧
    t.pwr.hostLink = false ∧ t.pwr.domains = 0 ∧ t.ink.state = stResetting ∧ t.ink.claims = [] ∧ t.ink.funcs = [] ∧
    t.pwr.bank0 = s.pwr.bank0 ∧ t.pwr.boot0 = s.pwr.boot0 :=
  ⟨_, next_if_pos h, rfl, rfl, rfl, rfl, rfl, rfl, rfl, rfl⟩

theorem aonResetNAssert_low (h : s.pwr.aonHigh = false) : exec .aonResetNAssert s = .next s := next_if_neg (by simp [h])

theorem supplyLoss_holds : ∃ t, exec .supplyLoss s = .next t ∧ t.pwr.aonHigh = false ∧ t.pwr.perstHigh = false ∧ t.pwr.domains = 0 ∧
    t.ink.state = stResetting ∧ t.pwr.slotA = s.pwr.slotA ∧ t.pwr.slotB = s.pwr.slotB ∧ t.pwr.bank0 = s.pwr.bank0 ∧ t.pwr.boot1 = s.pwr.boot1 :=
  ⟨_, rfl, rfl, rfl, rfl, rfl, rfl, rfl, rfl, rfl⟩

/-- The state in which a cold start's attempt begins. -/
def coldRom (s : State) (straps : BitVec 4) : State :=
  let s1 := deviceReset s true false
  { s1 with
    ink.state := stRom
    pwr := { s1.pwr with
      aonHigh := true, tripN := false, straps := straps, hostLink := s.pwr.perstHigh, warmKind := false, clock := 1600, powerClock := 1600
      heatClock := 1600, watts := [], calm := 0, coolMs := 0, testIr := 0, testDr := 0, mgmt := [] } }

section
variable {straps : BitVec 4}

theorem aonResetNRelease_high (h : s.pwr.aonHigh = true) : exec (.aonResetNRelease straps) s = .next s := next_if_pos h

section
variable (h : s.pwr.aonHigh = false)
include h

/-- AON_RESET_N that rises begins an attempt from the cold state. -/
theorem aonResetNRelease_starts : exec (.aonResetNRelease straps) s = .next (beginAttempt (coldRom s straps)) := next_if_neg (by simp [h])

theorem aonResetNRelease_attempts (hstrap : straps.getLsbD 3 = false) (hf : (bootNow s).failed < 3) :
    ∃ t, exec (.aonResetNRelease straps) s = .next t ∧ t.ink.state = stRom ∧ t.ink.seq = 0 ∧ t.pwr.stage = 1 ∧
      t.pwr.runSlot = (bootNow s).next ∧ t.pwr.straps = straps ∧ t.pwr.aonHigh = true ∧ t.ink.claims = [] := by
  obtain ⟨hink, -, hstage, hrun, hstraps, haon, -⟩ := beginAttempt_cases (coldRom s straps) hstrap hf
  exact ⟨_, aonResetNRelease_starts h, by rw [hink]; rfl, by rw [hink]; rfl, hstage, hrun, hstraps, haon, by rw [hink]; rfl⟩

theorem aonResetNRelease_minimal (hstrap : straps.getLsbD 3 = false) (hf : 3 ≤ (bootNow s).failed) :
    ∃ t, exec (.aonResetNRelease straps) s = .next t ∧ t.ink.state = stMinimal ∧ t.pwr.stage = 0 ∧ t.pwr.boot0 = s.pwr.boot0 ∧
      t.pwr.boot1 = s.pwr.boot1 := by
  have hpwr := enterMinimal_pwr (attempted (coldRom s straps))
  exact ⟨_, (aonResetNRelease_starts h).trans (congrArg _ (beginAttempt_minimal _ hstrap hf)), enterMinimal_ink_state _,
    (congrArg Power.stage hpwr :), (congrArg Power.boot0 hpwr :), (congrArg Power.boot1 hpwr :)⟩

theorem aonResetNRelease_strapped (hstrap : straps.getLsbD 3 = true) :
    ∃ t, exec (.aonResetNRelease straps) s = .next t ∧ t.ink.state = stRom ∧ t.pwr.stage = 0 :=
  ⟨_, (aonResetNRelease_starts h).trans (congrArg _ (beginAttempt_strapped _ hstrap)), rfl, rfl⟩

end
end

/-! ### PERST_N and conventional resets (R384, R458) -/

/-- What a device reset and the writes under way keep of the power block, a warm reset keeps. -/
theorem resetRom_power {β : Type} (s : State) (g : Power → β) (conf fastKind : Bool) (hstanding : ∀ p, g (standing {} p).2 = g p)
    (hreset : ∀ p, g { resetPwr p with warmKind := fastKind } = g p) : g (resetRom s conf fastKind).pwr = g s.pwr := by
  rw [resetRom_pwr, hreset, ← hstanding (acceptedWrites s).pwr, ← hstanding s.pwr]
  exact congrArg (fun e => g e.2) (acceptedWrites_standing s)

section
variable (hh : held s = false)
include hh

theorem perstNFall_resets (hp : s.pwr.perstHigh = true) (hstrap : s.pwr.straps.getLsbD 3 = false) (hf : (bootNow s).failed < 3) :
    ∃ t, exec .perstNFall s = .next t ∧ t.pwr.perstHigh = false ∧ t.pwr.hostLink = false ∧ t.ink.state = stRom ∧ t.pwr.stage = 1 ∧
      t.ink.claims = [] ∧ t.ink.con = s.ink.con ∧ t.pwr.straps = s.pwr.straps ∧ t.pwr.warmKind = true := by
  let u : State := { s with pwr.perstHigh := false, pwr.hostLink := false }
  have hstraps := resetRom_power u (fun p => p.straps) false true (fun _ => rfl) fun _ => rfl
  have hboot : bootNow (resetRom u false true) = bootNow s :=
    bootNow_congr s (resetRom_power u (fun p => p.boot0) false true (fun _ => rfl) fun _ => rfl)
      (resetRom_power u (fun p => p.boot1) false true (fun _ => rfl) fun _ => rfl)
  obtain ⟨hink, -, hstage, -, hstraps', -, hperst, hlink, hwarm⟩ :=
    beginAttempt_cases (resetRom u false true) (by rwa [hstraps]) (by rwa [hboot])
  refine ⟨beginAttempt (resetRom u false true), (next_if_neg (by simp [hp])).trans (next_if_neg ?_), ?_, ?_, ?_, hstage, ?_, ?_, ?_, ?_⟩
  · exact ne_true_of_eq_false hh
  · rw [hperst, resetRom_power u (fun p => p.perstHigh) false true (fun _ => rfl) fun _ => rfl]
  · rw [hlink, resetRom_power u (fun p => p.hostLink) false true (fun _ => rfl) fun _ => rfl]
  · rw [hink, resetRom_ink_state]
  · rw [hink, resetRom_claims]
  · rw [hink, resetRom_con]
  · rw [hstraps', hstraps]
  · rw [hwarm, resetRom_pwr]

theorem perstNRelease_trains : exec .perstNRelease s = .next { s with pwr.perstHigh := true, pwr.hostLink := true } := by
  change Host.Outcome.next _ = _
  rw [hh, Bool.not_false, Bool.or_true]

theorem conventionalReset_resets (hl : s.pwr.hostLink = true) : exec .conventionalReset s = .next (warmReset s false true) :=
  next_if_neg (by simp [hh, hl])

end

theorem perstNFall_held (hp : s.pwr.perstHigh = true) (hh : held s = true) : exec .perstNFall s = .next { s with pwr.perstHigh := false } :=
  (next_if_neg (by simp [hp])).trans (next_if_pos hh)

theorem perstNFall_low (hp : s.pwr.perstHigh = false) : exec .perstNFall s = .next s := next_if_pos (by simp [hp])

theorem perstNRelease_held (hh : held s = true) : exec .perstNRelease s = .next { s with pwr.perstHigh := true } := by
  change Host.Outcome.next _ = _
  rw [hh, Bool.not_true, Bool.or_false]

theorem conventionalReset_ignored (h : held s = true ∨ s.pwr.hostLink = false) : exec .conventionalReset s = .next s :=
  next_if_pos (by rcases h with h | h <;> simp [h])

end

/-- Settles O55: each pin and stage by its cases, a failed start by the attempt that follows it. -/
theorem startRows : Obligations.StartRows :=
  ⟨fun _ => aonResetNAssert_holds, fun _ => aonResetNAssert_low, fun _ _ => aonResetNRelease_attempts, fun _ _ => aonResetNRelease_minimal,
    fun _ _ => aonResetNRelease_strapped, fun _ _ => aonResetNRelease_high, fun _ hp hh => perstNFall_resets hh hp, fun _ => perstNFall_held,
    fun _ => perstNFall_low, fun _ => perstNRelease_trains, fun _ => perstNRelease_held, fun _ => conventionalReset_resets,
    fun _ => conventionalReset_ignored, fun _ => supplyLoss_holds, fun _ _ _ => imageVerified_own,
    fun _ _ _ _ _ h hstage ho => imageVerified_other h hstage ho, fun _ => imageVerified_none, fun _ _ _ => imageVerified_elsewhere,
    fun _ _ => loading_ends, fun _ _ _ h hid => loading_missing h hid,
    fun _ _ => bridge_sound, fun _ _ => bridge_fails, fun _ _ _ => training_ends, fun _ _ => test_ends, fun _ _ => maps_end,
    fun _ _ => links_end, fun _ _ _ => start_unserviceable, fun _ _ _ => start_serves, fun _ _ _ => start_unlicensed,
    fun _ _ => bringupStageEnd_elsewhere, fun _ => stageTimeout_fails, fun _ => stageTimeout_links, fun _ => stageTimeout_early,
    fun _ => scribeWatchdog_bringup, fun _ => scribeWatchdog_faults, failStart_restarts, fun _ _ => domainPowerTimeout_off,
    fun _ _ => domainPowerTimeout_idle⟩

end Sys2Proof.Machine
end

section
/-! PROOFS. The rings of a function (R64 to R76): what reading a function or a ring returns after each operation on them, how an entry is
written at the device pointer, and what a completion and an event write of it; then O9, O10, O11 and O12. -/

namespace Sys2Proof.Machine

/-! ### Functions and rings read back -/

theorem func_of_funcs {s v : State} (h : v.ink.funcs = s.ink.funcs) (fn : Nat) : func v fn = func s fn := by rw [func, h, func]

theorem func_of_ink {s v : State} (h : v.ink = s.ink) (fn : Nat) : func v fn = func s fn := func_of_funcs (congrArg Inkwell.funcs h) fn

theorem ringOf_of_func {s v : State} {fn : Nat} (h : func v fn = func s fn) (n : Nat) : ringOf v fn n = ringOf s fn n := by
  rw [ringOf, h, ringOf]

theorem ringOf_of_rings {s v : State} {fn : Nat} (h : (func v fn).rings = (func s fn).rings) (n : Nat) : ringOf v fn n = ringOf s fn n := by
  rw [ringOf, h, ringOf]

theorem func_setFunc_ne (s : State) {fn k : Nat} (f : Func) (h : k ≠ fn) : func (setFunc s fn f) k = func s k := mget_mput_ne _ _ _ _ _ h

/-- A field of a function that a new value of the function leaves as it is reads as before, of this function and of every other. -/
theorem func_setFunc_keeps {β : Type} (g : Func → β) (s : State) {fn : Nat} {f : Func} (h : g f = g (func s fn)) (k : Nat) :
    g (func (setFunc s fn f) k) = g (func s k) := by
  by_cases hk : k = fn
  · rw [hk, func_setFunc, h]
  · rw [func_setFunc_ne s f hk]

section
variable (s : State) (fn n : Nat)

@[simp] theorem func_prog (unit event : Nat) (part cls : Option Nat) (k : Nat) : func (prog s unit event part cls k) fn = func s fn :=
  func_of_ink (prog_ink ..) fn

@[simp] theorem func_blot (unit code : Nat) (part : Option Nat) (arg : Nat) : func (blot s unit code part arg) fn = func s fn :=
  func_of_ink (blot_ink ..) fn

@[simp] theorem ringOf_prog (unit event : Nat) (part cls : Option Nat) (k : Nat) :
    ringOf (prog s unit event part cls k) fn n = ringOf s fn n :=
  ringOf_of_func (func_prog ..) n

@[simp] theorem ringOf_blot (unit code : Nat) (part : Option Nat) (arg : Nat) : ringOf (blot s unit code part arg) fn n = ringOf s fn n :=
  ringOf_of_func (func_blot ..) n

@[simp] theorem func_setRing (r : Ring) : func (setRing s fn n r) fn = { func s fn with rings := mput (func s fn).rings n r } :=
  func_setFunc ..

/-- A field of a function other than its rings reads as before a ring is set. -/
theorem func_setRing_keeps {β : Type} (g : Func → β) (h : ∀ f m, g { f with rings := m } = g f) (r : Ring) (k : Nat) :
    g (func (setRing s fn n r) k) = g (func s k) := func_setFunc_keeps g s (h ..) k

theorem ringOf_setRing_ne {m : Nat} (r : Ring) (h : m ≠ n) : ringOf (setRing s fn n r) fn m = ringOf s fn m := by
  rw [ringOf, func_setRing, mget_mput_ne _ _ _ _ _ h, ringOf]

/-- A field of a ring that the ring set keeps reads as before, of this ring and of every other. -/
theorem ringOf_setRing_keeps {β : Type} (g : Ring → β) {r : Ring} (h : g r = g (ringOf s fn n)) (k m : Nat) :
    g (ringOf (setRing s fn n r) k m) = g (ringOf s k m) := by
  by_cases hk : k = fn
  · subst hk
    by_cases hm : m = n
    · rw [hm, ringOf_setRing, h]
    · rw [ringOf_setRing_ne s k n r hm]
  · rw [setRing, ringOf_of_func (func_setFunc_ne s _ hk)]

/-! ### Causes and faults (R57, R73) -/

@[simp] theorem raise_host (vector : Nat) : (raise s fn vector).host = s.host := prog_host ..

@[simp] theorem setCause_host (bit : Nat) : (setCause s fn bit).host = s.host := ite_keeps State.host rfl (raise_host ..)

@[simp] theorem setFault_host (reason detail : Nat) : (setFault s fn reason detail).host = s.host :=
  ite_keeps State.host rfl (setCause_host ..)

/-- A cause raised is set in its function's IRQ_STATUS, whose other fields stay. -/
@[simp] theorem func_setCause (bit : Nat) :
    func (setCause s fn bit) fn = { func s fn with irqStatus := (func s fn).irqStatus ||| BitVec.ofNat 19 (2 ^ bit) } :=
  ite_keeps (func · fn) (func_setFunc ..) ((func_raise ..).trans (func_setFunc ..))

theorem func_setCause_keeps {β : Type} (g : Func → β) (h : ∀ f v, g { f with irqStatus := v } = g f) (bit k : Nat) :
    g (func (setCause s fn bit) k) = g (func s k) :=
  ite_keeps (fun u => g (func u k)) (func_setFunc_keeps g s (h ..) k)
    ((congrArg g (func_raise ..)).trans (func_setFunc_keeps g s (h ..) k))

@[simp] theorem ringOf_setCause (bit k m : Nat) : ringOf (setCause s fn bit) k m = ringOf s k m :=
  ringOf_of_rings (func_setCause_keeps s fn Func.rings (fun _ _ => rfl) bit k) m

@[simp] theorem ringOf_setFault (reason detail k m : Nat) : ringOf (setFault s fn reason detail) k m = ringOf s k m := by
  have hset : ∀ f : Func, f.rings = (func s fn).rings → ringOf (setFunc s fn f) k m = ringOf s k m :=
    fun f h => ringOf_of_rings (func_setFunc_keeps Func.rings s h k) m
  exact ite_keeps (ringOf · k m) (hset _ rfl) ((ringOf_setCause ..).trans (hset _ rfl))

theorem setFault_detail (reason detail : Nat) : (func (setFault s fn reason detail) fn).detail = BitVec.ofNat 15 detail :=
  ite_keeps (fun u => (func u fn).detail) (congrArg Func.detail (func_setFunc ..))
    ((congrArg Func.detail (func_setCause ..)).trans (congrArg Func.detail (func_setFunc ..)))

/-- An entry that raises an interrupt changes of its completion ring the entries pending alone (R74). -/
theorem ringOf_countIrq (irq : Bool) : ∃ p o, ringOf (countIrq s fn n irq) fn n = { ringOf s fn n with pendIrq := p, oldest := o } := by
  unfold countIrq
  dsimp only
  split
  · exact ⟨_, _, rfl⟩
  · split
    · exact ⟨_, _, (ringOf_setCause ..).trans (ringOf_setRing ..)⟩
    · split
      · exact ⟨_, _, (ringOf_setCause ..).trans (ringOf_setRing ..)⟩
      · exact ⟨_, _, ringOf_setRing ..⟩

@[simp] theorem countIrq_host (irq : Bool) : (countIrq s fn n irq).host = s.host := by
  unfold countIrq
  dsimp only
  repeat' split
  all_goals simp

end

/-! ### One entry at the device pointer (R66, R67) -/

/-- A ring past its device pointer, with PHASE inverted at the wrap. -/
def advanced (r : Ring) : Ring :=
  { r with ptr := (r.ptr + 1) % 2 ^ r.log2, phase := if (r.ptr + 1) % 2 ^ r.log2 = 0 then !r.phase else r.phase }

theorem writeEntry_full {s : State} {fn n : Nat} (b : List Byte) (h : ringRoom s fn n = false) : writeEntry s fn n b = (s, false) :=
  if_neg (by simp [h])

theorem writeEntry_writes {s : State} {fn n : Nat} {r : Ring} (b : List Byte) (hr : r = ringOf s fn n) (hroom : ringRoom s fn n = true)
    (hok : hostOk s (r.base.toNat + 32 * r.ptr) 32 = true) :
    writeEntry s fn n b = (setRing (hostStore s (r.base.toNat + 32 * r.ptr) (padTo 32 b)) fn n (advanced r), true) := by
  subst hr
  exact (if_pos hroom).trans (if_pos hok)

theorem ringRoom_of_ring {s v : State} {fn n : Nat} {l : List Completion} (h : ringOf v fn n = { ringOf s fn n with held := l })
    (hi : v.ink.state = s.ink.state) : ringRoom v fn n = ringRoom s fn n := by
  simp [ringRoom, ringSize, h, hi]

theorem hostOk_of_faults {s v : State} (h : v.hostFaults = s.hostFaults) (a n : Nat) : hostOk v a n = hostOk s a n := by
  rw [hostOk, h, hostOk]

theorem host_of_safe {s : State} (h : Safe s) : cellWf hostDflt s.host = true := (Bool.and_eq_true_iff.1 h).2

theorem hostGet_of_store {s v : State} {a : Nat} {b : List Byte} (hs : Safe s) (hv : v.host = cellPuts hostDflt s.host a b) :
    hostGet v a b.length = b := by
  rw [hostGet, hv, cellGets_cellPuts _ _ _ _ (host_of_safe hs)]

/-! ### Completions held and written (R66, R68) -/

theorem drainGo_full {s : State} {fn n : Nat} (l : List Completion) (h : ringRoom s fn n = false) : drainGo fn n l s = (s, l) := by
  cases l with
  | nil => rfl
  | cons k r => simp only [drainGo, writeEntry_full _ h]

/-- A ring without held completions is left as it is when it is drained. -/
theorem drainCompletions_of_empty {s : State} {fn n : Nat} (h : (ringOf s fn n).held = []) :
    drainCompletions s fn n = setRing s fn n (ringOf s fn n) := by
  have hr : ({ ringOf s fn n with held := [] } : Ring) = ringOf s fn n := by rw [← h]
  simp only [drainCompletions, h, drainGo, hr]

theorem drainCompletions_full {s : State} {fn n : Nat} (h : ringRoom s fn n = false) :
    drainCompletions s fn n = setRing s fn n (ringOf s fn n) := by
  simp only [drainCompletions, drainGo_full _ h]

/-- The state in which the only completion that a ring holds has been written at its device pointer. -/
def drainedOne (s : State) (fn n : Nat) (k : Completion) : State :=
  countIrq (setRing (hostStore s ((ringOf s fn n).base.toNat + 32 * (ringOf s fn n).ptr)
    (padTo 32 (completionBytes k (ringOf s fn k.sq).ptr (ringOf s fn n).phase))) fn n (advanced (ringOf s fn n))) fn n k.irq

section
variable {s : State} {fn n : Nat} {k : Completion} (hk : (ringOf s fn n).held = [k]) (hroom : ringRoom s fn n = true)
  (hok : hostOk s ((ringOf s fn n).base.toNat + 32 * (ringOf s fn n).ptr) 32 = true)
include hk hroom hok

theorem drainCompletions_one : drainCompletions s fn n =
    setRing (drainedOne s fn n k) fn n { ringOf (drainedOne s fn n k) fn n with held := [] } := by
  simp only [drainCompletions, hk, drainGo, writeEntry_writes _ rfl hroom hok]
  rfl

theorem drainCompletions_one_host : (drainCompletions s fn n).host =
    cellPuts hostDflt s.host ((ringOf s fn n).base.toNat + 32 * (ringOf s fn n).ptr)
      (padTo 32 (completionBytes k (ringOf s fn k.sq).ptr (ringOf s fn n).phase)) := by
  rw [drainCompletions_one hk hroom hok, setRing_host, drainedOne, countIrq_host, setRing_host, hostStore_host]

theorem drainCompletions_one_ring : ∃ p o, ringOf (drainCompletions s fn n) fn n =
    { advanced (ringOf s fn n) with pendIrq := p, oldest := o, held := [] } := by
  obtain ⟨p, o, h⟩ := ringOf_countIrq (setRing (hostStore s ((ringOf s fn n).base.toNat + 32 * (ringOf s fn n).ptr)
    (padTo 32 (completionBytes k (ringOf s fn k.sq).ptr (ringOf s fn n).phase))) fn n (advanced (ringOf s fn n))) fn n k.irq
  rw [ringOf_setRing] at h
  exact ⟨p, o, by rw [drainCompletions_one hk hroom hok, ringOf_setRing, drainedOne, h]⟩

end

/-! ### A completion (R66, R68) -/

section
variable (s : State) (c : Cmd) (st : Nat) (res : List Byte)

/-- The completion that a command leaves at its ring. -/
def completionOf : Completion :=
  { tag := c.tag, status := BitVec.ofNat 16 st, sq := c.ring, stamp := stamp s, result := padTo 16 res, irq := !isNoIrq c }

/-- The state in which a command's completion waits at its ring, counted and recorded. -/
def completing : State :=
  prog (blot (setRing s c.fn (c.ring + 1)
      { ringOf s c.fn (c.ring + 1) with held := (ringOf s c.fn (c.ring + 1)).held ++ [completionOf s c st res] })
    0x9000 0x29 (cmdPart c) (st % 65536 + c.tag.toNat * 65536 + c.ring * 2 ^ 32)) 0x9000 1 (cmdPart c) none 1

theorem complete_eq : complete s c st res = drainCompletions (completing s c st res) c.fn (c.ring + 1) := rfl

@[simp] theorem completing_host : (completing s c st res).host = s.host := by simp [completing]

@[simp] theorem ringOf_completing : ringOf (completing s c st res) c.fn (c.ring + 1) =
    { ringOf s c.fn (c.ring + 1) with held := (ringOf s c.fn (c.ring + 1)).held ++ [completionOf s c st res] } := by
  simp [completing]

theorem ringOf_completing_ne {m : Nat} (h : m ≠ c.ring + 1) : ringOf (completing s c st res) c.fn m = ringOf s c.fn m := by
  rw [completing, ringOf_prog, ringOf_blot, ringOf_setRing_ne _ _ _ _ h]

theorem ringRoom_completing : ringRoom (completing s c st res) c.fn (c.ring + 1) = ringRoom s c.fn (c.ring + 1) :=
  ringRoom_of_ring (ringOf_completing ..) (by simp [completing])

theorem hostOk_completing (a n : Nat) : hostOk (completing s c st res) a n = hostOk s a n := hostOk_of_faults (by simp [completing]) a n

@[simp] theorem completionBytes_length (k : Completion) (head : Nat) (phase : Bool) : (completionBytes k head phase).length = 32 := by
  simp [completionBytes]

theorem completionBytes_completionOf (head : Nat) (phase : Bool) : completionBytes (completionOf s c st res) head phase =
    leBytes 2 c.tag.toNat ++ leBytes 2 (st % 65536) ++ leBytes 2 head ++ [BitVec.ofNat 8 c.ring, BitVec.ofNat 8 (b2n phase)] ++
      leBytes 8 (stamp s).toNat ++ padTo 16 res := by
  simp only [completionBytes, completionOf, BitVec.toNat_ofNat, padTo_of_length (padTo_length 16 res)]

end

section
variable {s : State} {c : Cmd} {st : Nat} {res : List Byte} {r : Ring} (hr : r = ringOf s c.fn (c.ring + 1))
include hr

section
variable (hheld : r.held = []) (hroom : ringRoom s c.fn (c.ring + 1) = true) (hok : hostOk s (r.base.toNat + 32 * r.ptr) 32 = true)
include hheld hroom hok

/-- A completion that no other precedes, at a ring with room, is written at once. -/
theorem complete_host : (complete s c st res).host = cellPuts hostDflt s.host (r.base.toNat + 32 * r.ptr)
    (completionBytes (completionOf s c st res) (ringOf s c.fn c.ring).ptr r.phase) := by
  subst hr
  have hone : (ringOf (completing s c st res) c.fn (c.ring + 1)).held = [completionOf s c st res] := by simp [hheld]
  rw [complete_eq, drainCompletions_one_host hone (by rw [ringRoom_completing, hroom]) (by simpa [hostOk_completing] using hok),
    padTo_of_length (completionBytes_length ..), ringOf_completing, completing_host,
    ringOf_completing_ne s c st res (m := (completionOf s c st res).sq) (Nat.ne_of_lt (Nat.lt_succ_self c.ring))]
  rfl

theorem complete_ring : ∃ p o, ringOf (complete s c st res) c.fn (c.ring + 1) = { advanced r with pendIrq := p, oldest := o } := by
  subst hr
  have hone : (ringOf (completing s c st res) c.fn (c.ring + 1)).held = [completionOf s c st res] := by simp [hheld]
  obtain ⟨p, o, h⟩ := drainCompletions_one_ring hone (by rw [ringRoom_completing, hroom]) (by simpa [hostOk_completing] using hok)
  refine ⟨p, o, (complete_eq ..).symm ▸ h.trans ?_⟩
  simp [advanced, hheld]

end

/-- With a full completion ring the entry joins those held. -/
theorem complete_full (hfull : (r.ptr + 1) % 2 ^ r.log2 = r.other) :
    (complete s c st res).host = s.host ∧
      ringOf (complete s c st res) c.fn (c.ring + 1) = { r with held := r.held ++ [completionOf s c st res] } := by
  subst hr
  have hroom : ringRoom (completing s c st res) c.fn (c.ring + 1) = false := by
    rw [ringRoom_completing]
    simp [ringRoom, ringSize, hfull]
  rw [complete_eq, drainCompletions_full hroom, setRing_host, completing_host, ringOf_setRing, ringOf_completing]
  exact ⟨rfl, rfl⟩

end

/-- Settles O9: the completion is the only one its ring holds, so that the drain of the ring writes it. -/
theorem completionEntryWritten : Obligations.CompletionEntryWritten := by
  intro s c st res r hs hr hheld hroom hok
  have hhost := complete_host (st := st) (res := res) hr hheld hroom hok
  obtain ⟨p, o, hring⟩ := complete_ring (st := st) (res := res) hr hheld hroom hok
  have hlen := completionBytes_length (completionOf s c st res) (ringOf s c.fn c.ring).ptr r.phase
  refine ⟨?entry, fun x hx => ?others, ?pointer, ?phase, ?held⟩
  case entry => exact (hlen ▸ hostGet_of_store hs hhost :).trans (completionBytes_completionOf ..)
  case others => rw [hhost, cellGet_cellPuts_out _ _ _ _ _ (host_of_safe hs) (by rwa [hlen])]
  all_goals rw [hring]
  case held => exact hheld
  all_goals rfl

/-- Settles O10. -/
theorem fullCompletionRingHolds : Obligations.FullCompletionRingHolds :=
  fun _ _ _ _ _ => complete_full

/-! ### What records leave alone (log 12) -/

/-- What changes Inkwell's functions and messages only of Inkwell, and beyond it host memory and the observation block only. -/
theorem eq_of_outer_ink {s t : State} (ho : Outer s t) (hi : InkKept s t) :
    t = { s with ink.funcs := t.ink.funcs, ink.msix := t.ink.msix, host := t.host, obs := t.obs } := by
  obtain ⟨⟨h1, h2, h3, h4, h5, h6, h7, h8, h9, h10, h11, h12, h13, h14, h15⟩⟩ := ho
  obtain ⟨⟨i1, i2, i3, i4, i5, i6, i7, i8, i9, i10, i11, i12, i13, i14⟩⟩ := hi
  cases t
  rename_i ink _ _ _ _ _ _ _ _ _ _ _
  cases ink
  simp_all

/-- Settles O11: each operation keeps every part of Inkwell but those, and every part of the state but Inkwell and those. -/
theorem recordsLeaveTheRest : Obligations.RecordsLeaveTheRest := fun s c _ st res code part data droppable =>
  ⟨eq_of_outer_ink (complete_outer s c st res (Outer.refl s)) (complete_inkk s c st res (InkKept.refl s)),
    eq_of_outer_ink (blot_outer _ _ _ _ _ (Outer.refl s)) (blot_inkk _ _ _ _ _ (InkKept.refl s)),
    eq_of_outer_ink (post_outer s code part data droppable (Outer.refl s)) (post_inkk s code part data droppable (InkKept.refl s))⟩

/-! ### An event (R75, R76, R79) -/

/-- An event as it is posted now. -/
def eventOf (s : State) (code part : Nat) (data : List Byte) (droppable : Bool) : Event :=
  { code := code, part := part, epoch := s.rul.epoch, stamp := stamp s, data := padTo 16 data, droppable := droppable }

@[simp] theorem eventBytes_length (e : Event) (phase lost : Bool) : (eventBytes e phase lost).length = 32 := by simp [eventBytes]

/-- The state in which the only waiting event of a function has been written at the device pointer of its event ring. -/
def eventDrained (s : State) (fn : Nat) (e : Event) : State :=
  setRing (hostStore s ((ringOf s fn 2).base.toNat + 32 * (ringOf s fn 2).ptr)
    (eventBytes e (ringOf s fn 2).phase (func s fn).lostFlag)) fn 2 (advanced (ringOf s fn 2))

section
variable {s : State} {fn : Nat} {e : Event} (hb : (func s fn).backlog = [e]) (hw : (func s fn).waiting = [])
  (hroom : ringRoom s fn 2 = true) (hok : hostOk s ((ringOf s fn 2).base.toNat + 32 * (ringOf s fn 2).ptr) 32 = true)
include hb hw hroom hok

theorem drainEvents_one : drainEvents s fn = setCause (setFunc (eventDrained s fn e) fn
    { func (eventDrained s fn e) fn with backlog := [], lostFlag := false }) fn 2 := by
  have hwait : (func (eventDrained s fn e) fn).waiting = [] := by
    rw [eventDrained, func_setRing_keeps _ fn 2 Func.waiting (fun _ _ => rfl), func_of_ink (hostStore_ink ..), hw]
  have hrun : drainEvents s fn = drainEvGo fn 1 s := by rw [drainEvents, hb, hw]; rfl
  rw [hrun]
  simp only [drainEvGo, hb, writeEntry_writes _ rfl hroom hok, padTo_of_length (eventBytes_length ..)]
  rw [← eventDrained.eq_1]
  simp only [hwait]

theorem drainEvents_one_host : (drainEvents s fn).host = cellPuts hostDflt s.host ((ringOf s fn 2).base.toNat + 32 * (ringOf s fn 2).ptr)
    (eventBytes e (ringOf s fn 2).phase (func s fn).lostFlag) := by
  rw [drainEvents_one hb hw hroom hok, setCause_host, setFunc_host, eventDrained, setRing_host, hostStore_host]

theorem drainEvents_one_ring : ringOf (drainEvents s fn) fn 2 = advanced (ringOf s fn 2) := by
  rw [drainEvents_one hb hw hroom hok, ringOf_setCause, ringOf_of_rings (s := eventDrained s fn e) (by rw [func_setFunc]), eventDrained,
    ringOf_setRing]

theorem drainEvents_one_func : (func (drainEvents s fn) fn).backlog = [] ∧ (func (drainEvents s fn) fn).lostFlag = false ∧
    (func (drainEvents s fn) fn).irqStatus.getLsbD 2 = true := by
  rw [drainEvents_one hb hw hroom hok, func_setCause, func_setFunc]
  exact ⟨rfl, rfl, by simp⟩

end

/-- An event's function with the event alone in its backlog. -/
def raised (s : State) (fn : Nat) (e : Event) : State := setFunc s fn { func s fn with backlog := [e] }

theorem func_raised (s : State) (fn : Nat) (e : Event) : func (raised s fn e) fn = { func s fn with backlog := [e] } := func_setFunc ..

theorem ringOf_raised (s : State) (fn : Nat) (e : Event) (n : Nat) : ringOf (raised s fn e) fn n = ringOf s fn n :=
  ringOf_of_rings (by rw [func_raised]) n

/-- An event that finds no other waiting, and that its function's filter lets through, is alone in the backlog until the drain. -/
theorem post_alone {s : State} {code part fn : Nat} {data : List Byte} {droppable : Bool} (hfn : fn = servingFn s part)
    (hb : (func s fn).backlog = []) (hpass : droppable = true → passes (func s fn) code = true) :
    post s code part data droppable = prog (drainEvents (raised s fn (eventOf s code part data droppable)) fn) 0x9000 2 none none 1 := by
  subst hfn
  have hfilter : ¬ (droppable && !passes (func s (servingFn s part)) code) = true := by cases droppable <;> simp_all
  have hroom : (func s (servingFn s part)).backlog.length < Config.backlog := by rw [hb]; decide
  refine (if_neg hfilter).trans ?_
  rw [enqueueEvent, if_pos hroom, hb]
  rfl

/-- Settles O12: the event is the only one that waits, so that the drain of its function's event ring writes it. -/
theorem eventEntryWritten : Obligations.EventEntryWritten := by
  intro s code part data droppable fn r hs hfn hr hb hw hpass hroom hok
  subst hr
  have hbacklog : (func (raised s fn (eventOf s code part data droppable)) fn).backlog = [eventOf s code part data droppable] := by
    rw [func_raised]
  have hwait : (func (raised s fn (eventOf s code part data droppable)) fn).waiting = [] := by rw [func_raised, ← hw]
  have hroom' : ringRoom (raised s fn (eventOf s code part data droppable)) fn 2 = true :=
    (ringRoom_of_ring (ringOf_raised ..) (setFunc_ink_state ..)).trans hroom
  have hok' := (ringOf_raised s fn (eventOf s code part data droppable) 2).symm ▸ hok
  have hhost := drainEvents_one_host hbacklog hwait hroom' hok'
  have hring := drainEvents_one_ring hbacklog hwait hroom' hok'
  obtain ⟨hempty, hlost, hcause⟩ := drainEvents_one_func hbacklog hwait hroom' hok'
  rw [ringOf_raised, func_raised] at hhost
  rw [ringOf_raised] at hring
  have hlen := eventBytes_length (eventOf s code part data droppable) (ringOf s fn 2).phase (func s fn).lostFlag
  dsimp only
  rw [post_alone hfn hb hpass, func_prog, ringOf_prog, hring, prog_host]
  refine ⟨?entry, fun x hx => ?others, rfl, hempty, hlost, hcause⟩
  case entry =>
    refine (hlen ▸ hostGet_of_store hs ((prog_host ..).trans hhost) :).trans ?_
    simp only [eventBytes, eventOf, padTo_of_length (padTo_length 16 data)]
  case others => rw [hhost]; exact cellGet_cellPuts_out _ _ _ _ _ (host_of_safe hs) (by rwa [hlen])

end Sys2Proof.Machine
end

section
/-! PROOFS. The arrival of a submission entry (R65, R68, R69, R71, R468): an entry that is held, refused or begun; then O7 and O8. -/

namespace Sys2Proof.Machine

section
variable {sp : FwSpec} {work : Cmd → State → Answer} {c : Cmd} {s : State}

theorem notFetched_of_fresh (h : duplicate s c = false) : s.ink.fetched.any (fun e => e.opcode == sp.op && sameTag e.cmd c) = false := by
  obtain ⟨hf, _⟩ := Bool.or_eq_false_iff.1 h
  rw [List.any_eq_false] at hf ⊢
  intro e he
  simp [hf e he]

/-- An entry that is not among those fetched arrives: a duplicate is refused, another begins where nothing holds it, and else stays
fetched. -/
theorem firmware_arrives (hn : s.ink.fetched.any (fun e => e.opcode == sp.op && sameTag e.cmd c) = false)
    (hf : fetchable s c.fn c.ring = true) : firmware sp work c s =
      if duplicate s c then complete (arrive sp.op c s) c St.tagInUse []
      else if startable s c s.ink.fetched && !arbiterWaits s sp.op c then
        begin_ sp work c false (arrive sp.op c s)
          { arrive sp.op c s with ink.fetched := (arrive sp.op c s).ink.fetched ++ [{ opcode := sp.op, cmd := c }] }
      else { arrive sp.op c s with ink.fetched := (arrive sp.op c s).ink.fetched ++ [{ opcode := sp.op, cmd := c }] } := by
  rw [firmware, indexOf?_none _ _ hn]
  exact if_neg (by simp [hf])

theorem firmware_duplicate (hn : s.ink.fetched.any (fun e => e.opcode == sp.op && sameTag e.cmd c) = false)
    (hf : fetchable s c.fn c.ring = true) (hd : duplicate s c = true) :
    firmware sp work c s = complete (arrive sp.op c s) c St.tagInUse [] := by
  rw [firmware_arrives hn hf, if_pos hd]

theorem firmware_heldBack (hf : fetchable s c.fn c.ring = true) (hd : duplicate s c = false) (hs : startable s c s.ink.fetched = false) :
    firmware sp work c s = { arrive sp.op c s with ink.fetched := s.ink.fetched ++ [{ opcode := sp.op, cmd := c }] } := by
  rw [firmware_arrives (notFetched_of_fresh hd) hf, if_neg (by simp [hd]), if_neg (by simp [hs]), arrive_ink]

/-- What a chapter's answer leaves of a command that has begun; `back` is the state in which it stays fetched. -/
def answered (sp : FwSpec) (c : Cmd) (back : State) : Answer → State
  | .done st res t => complete t c st res
  | .wait w t => { t with ink.running := t.ink.running ++ [{ opcode := sp.op, cmd := c, wait := w }] }
  | .held => back

theorem begin_eq (a back : State) : begin_ sp work c false a back =
    (judge sp c false a).elim (answered sp c back (work c a)) (fun st => complete a c st []) := by
  rw [begin_]
  cases judge sp c false a with
  | some st => rfl
  | none => cases work c a <;> rfl

theorem firstFail_elim_cons {β : Type} (b : Bool) (n : Nat) (l : List (Bool × Nat)) (x : β) (f : Nat → β) :
    (firstFail ((b, n) :: l)).elim x f = if b = true then f n else (firstFail l).elim x f := by
  cases b <;> rfl

theorem firmware_judged (hf : fetchable s c.fn c.ring = true) (hd : duplicate s c = false) (hs : startable s c s.ink.fetched = true)
    (ha : arbiterWaits s sp.op c = false) : firmware sp work c s =
      (judge sp c false (arrive sp.op c s)).elim
        (answered sp c { arrive sp.op c s with ink.fetched := (arrive sp.op c s).ink.fetched ++ [{ opcode := sp.op, cmd := c }] }
          (work c (arrive sp.op c s)))
        (fun st => complete (arrive sp.op c s) c st []) := by
  rw [firmware_arrives (notFetched_of_fresh hd) hf, if_neg (by simp [hd]), if_pos (by simp [hs, ha]), begin_eq]

end

/-- Settles O8. -/
theorem heldEntryWaitsFetched : Obligations.HeldEntryWaitsFetched := fun _ _ _ _ => firmware_heldBack

/-- Settles O7: a duplicate is refused on arrival, and the list of the other items is gone through in its order. -/
theorem entryJudgedInOrder : Obligations.EntryJudgedInOrder := by
  refine ⟨fun sp work c s hf hn hd => ?duplicate, fun sp work c s a h hf hd hs ha => ?judged⟩
  case duplicate =>
    have hn' : s.ink.fetched.any (fun e => e.opcode == sp.op && sameTag e.cmd c) = false := by
      rw [List.all_eq_true] at hn
      exact List.any_eq_false.2 fun e he => by simpa [imp_iff_not_or] using hn e he
    rw [firmware_duplicate hn' hf hd]
    exact ⟨rfl, (complete_ink_running ..).trans (congrArg Inkwell.running (arrive_ink ..)),
      (complete_ink_fetched ..).trans (congrArg Inkwell.fetched (arrive_ink ..))⟩
  case judged =>
    rw [firmware_judged hf hd hs ha, judge, ← h]
    simp only [firstFail_elim_cons]
    rw [if_neg Bool.false_ne_true]
    refine if_congr (by simp) rfl (if_congr ?length rfl (if_congr (by simp) rfl (if_congr .rfl rfl (if_congr .rfl rfl
      (if_congr (by simp [extLost]) rfl (if_congr ?required rfl ?answer))))))
    case length => cases isExt c <;> simp
    case required => simp [badLength, or_assoc, and_assoc]
    case answer =>
      change answered sp c _ (work c a) = _
      cases work c a <;> rfl

end Sys2Proof.Machine
end

section
/-! PROOFS. The registers of a function (R55 to R60, R73, R74), its console and the reading of the stamp; then O17, O18 and O23. -/

namespace Sys2Proof.Machine

/-! ### Entries that are not begun (R58) -/

section
variable (s : State) (p : Cmd → Bool)

@[simp] theorem abortFetched_ink_fetched : (abortFetched s p).ink.fetched = s.ink.fetched.filter (fun e => !p e.cmd) :=
  foldl_keeps (fun u => u.ink.fetched) _ _ fun _ _ => complete_ink_fetched ..

@[simp] theorem abortFetched_ink_running : (abortFetched s p).ink.running = s.ink.running :=
  foldl_keeps (fun u => u.ink.running) _ _ fun _ _ => complete_ink_running ..

@[simp] theorem abortFetched_ink_claims : (abortFetched s p).ink.claims = s.ink.claims :=
  foldl_keeps (fun u => u.ink.claims) _ _ fun _ _ => complete_ink_claims ..

end

/-! ### INKW_CTRL, DETACH and the console (R57, R58, R60) -/

section
variable {s : State} {fn : Nat} {v : BitVec 32}

/-- A function without claims has none to release. -/
theorem releaseAll_of_none {p : Holding → Bool} (h : s.ink.claims.filter p = []) : releaseAll s p = s := by rw [releaseAll, h]; rfl

theorem detachFn_of_unclaimed (h : s.ink.claims.filter (fun x => x.owner == fn) = []) : detachFn s fn =
    setFunc (abortFetched s (fun c => c.fn == fn)) fn { func (abortFetched s (fun c => c.fn == fn)) fn with en := false } :=
  releaseAll_of_none (by rwa [setFunc_ink_claims, abortFetched_ink_claims])

/-- A function that is disabled aborts what it has fetched, and keeps what has begun and every claim. -/
theorem disabled_keeps (fn : Nat) (f : Func) (hf : f.en = false) :
    (func (setFunc (abortFetched s (fun c => c.fn == fn)) fn f) fn).en = false ∧
      (setFunc (abortFetched s (fun c => c.fn == fn)) fn f).ink.fetched = s.ink.fetched.filter (fun e => e.cmd.fn != fn) ∧
      (setFunc (abortFetched s (fun c => c.fn == fn)) fn f).ink.running = s.ink.running ∧
      (setFunc (abortFetched s (fun c => c.fn == fn)) fn f).ink.claims = s.ink.claims := by
  rw [func_setFunc, setFunc_ink_fetched, setFunc_ink_running, setFunc_ink_claims, abortFetched_ink_fetched, abortFetched_ink_running,
    abortFetched_ink_claims]
  exact ⟨hf, rfl, rfl, rfl⟩

theorem inkwConIn_character (hs : s.ink.state ≠ stRom) (hv : v.toNat % 256 ≠ 0x0A) :
    exec (.inkwConIn 0 v) s = .next (setFunc s 0 { func s 0 with conLine := (func s 0).conLine ++ [v.setWidth 8] }) := by
  have hchar : v.setWidth 8 ≠ 0x0A := fun h => hv (by simpa using congrArg BitVec.toNat h)
  exact (next_if_pos ⟨rfl, hs⟩).trans (next_if_neg hchar)

theorem inkwConIn_ignored (h : fn ≠ 0 ∨ s.ink.state = stRom) : exec (.inkwConIn fn v) s = .next s :=
  next_if_neg fun hin => h.elim (fun hfn => hfn hin.1) hin.2

end

/-- Settles O17. -/
theorem controlRegisterRows : Obligations.ControlRegisterRows :=
  ⟨fun _ _ => rfl, fun _ fn => ⟨_, rfl, disabled_keeps fn _ rfl⟩,
    fun _ fn h => ⟨_, congrArg Host.Outcome.next (detachFn_of_unclaimed h), disabled_keeps fn _ rfl⟩,
    fun _ _ => inkwConIn_character, fun _ _ _ => inkwConIn_ignored⟩

/-! ### The stamp (R59) -/

theorem leBytes_four (v : BitVec 64) :
    leBytes 4 v.toNat = [v.setWidth 8, (v >>> 8).setWidth 8, (v >>> 16).setWidth 8, (v >>> 24).setWidth 8] := by
  simp only [leBytes, List.cons.injEq, and_true]
  refine ⟨?_, ?_, ?_, ?_⟩ <;> apply BitVec.eq_of_toNat_eq <;> simp [Nat.shiftRight_eq_div_pow, Nat.div_div_eq_div_mul]

/-- Bits [63:32] of a stamp, as they are latched. -/
theorem upperHalf (v : BitVec 64) : BitVec.ofNat 32 (v.toNat / 2 ^ 32) = (v >>> 32).setWidth 32 := by
  apply BitVec.eq_of_toNat_eq
  simp [Nat.shiftRight_eq_div_pow]

theorem upperHalf_toNat (v : BitVec 64) : ((v >>> 32).setWidth 32).toNat = v.toNat / 2 ^ 32 := by
  have := v.isLt
  simp [Nat.shiftRight_eq_div_pow]
  omega

/-- The state in which INKW_STAMP_LO has been read: the low half is the answer and the high half is latched. -/
def stampRead (s : State) (fn : Nat) : State :=
  { setFunc s fn { func s fn with stampHi := (stamp s >>> 32).setWidth 32 } with
    mem.reply := some { status := 0, data := leBytes 4 (stamp s).toNat, poison := false } }

theorem stampLoRead_answers (s : State) (fn : Nat) : exec (.stampLoRead ⟨fn, 4⟩) s = .next (stampRead s fn) := by
  rw [stampRead, ← upperHalf]
  rfl

theorem stampRead_stampHi (s : State) (fn : Nat) : (func (stampRead s fn) fn).stampHi = (stamp s >>> 32).setWidth 32 :=
  congrArg Func.stampHi ((func_of_ink rfl fn).trans (func_setFunc s fn { func s fn with stampHi := (stamp s >>> 32).setWidth 32 }))

/-- Settles O23: the third clause is a read of another size, which latches nothing. -/
theorem stampReadLatchesUpperHalf : Obligations.StampReadLatchesUpperHalf := by
  refine ⟨fun s fn => ⟨_, stampLoRead_answers s fn, ?_, stampRead_stampHi s fn, ?_, ?_⟩, fun _ _ => rfl,
    fun _ _ _ h => next_if_neg h⟩
  · rw [← leBytes_four]; rfl
  · exact (congrArg BitVec.toNat (stampRead_stampHi s fn)).trans (upperHalf_toNat _)
  · rw [stampRead_stampHi]; rfl

/-! ### The other registers (R57, R63, R70, R73, R74) -/

/-- A raised vector leaves every function as it is. -/
theorem unmask_func (s : State) (fn : Nat) (m : BitVec 19) : func (unmask s fn m) fn = { func s fn with irqMask := m } :=
  (foldl_keeps (func · fn) _ _ fun _ _ => func_raise ..).trans (func_setFunc ..)

/-- Judging a new COUNT sets causes and the entries pending only. -/
theorem recount_keeps {β : Type} (g : Func → β) (h : ∀ f v, g { f with irqStatus := v } = g f)
    (hr : ∀ f m, g { f with rings := m } = g f) (s : State) (fn : Nat) : g (func (recount s fn) fn) = g (func s fn) :=
  foldl_keeps (fun u => g (func u fn)) _ _ fun _ _ =>
    ite_keeps (fun u => g (func u fn)) ((func_setCause_keeps _ _ g h ..).trans (func_setRing_keeps _ _ _ g hr ..)) rfl

section
variable (s : State) (fn : Nat) (v : BitVec 32)

/-- The function with the COUNT and TIME_US that are written. -/
def coalesced : State := setFunc s fn { func s fn with coalCount := v.setWidth 8, coalTime := (v >>> 8).setWidth 16 }

theorem coalescing_stored : (func (recount (coalesced s fn v) fn) fn).coalCount = v.setWidth 8 ∧
    (func (recount (coalesced s fn v) fn) fn).coalTime = (v >>> 8).setWidth 16 := by
  rw [recount_keeps Func.coalCount (fun _ _ => rfl) (fun _ _ => rfl), recount_keeps Func.coalTime (fun _ _ => rfl) (fun _ _ => rfl),
    coalesced, func_setFunc]
  exact ⟨rfl, rfl⟩

variable {s fn v} in
/-- The one ring of a function whose entries pending reach the new COUNT sets its cause. -/
theorem recount_reached {n : Nat} {r : Ring} (hrings : (func s fn).rings = [(n, r)]) (hp : r.pendIrq ≠ 0)
    (hc : (v.setWidth 8).toNat ≤ r.pendIrq) : recount (coalesced s fn v) fn =
      setCause (setRing (coalesced s fn v) fn n { r with pendIrq := 0, oldest := none }) fn n := by
  have hfunc : func (coalesced s fn v) fn = { func s fn with coalCount := v.setWidth 8, coalTime := (v >>> 8).setWidth 16 } :=
    func_setFunc ..
  have hring : ringOf (coalesced s fn v) fn n = r := by rw [ringOf, hfunc, hrings]; exact if_pos rfl
  rw [recount, hfunc, hrings]
  refine (if_pos ⟨?_, ?_⟩).trans ?_ <;> rw [hring]
  · exact hp
  · rwa [hfunc]

/-! #### Where a ring's registers lie (R63, R70) -/

/-- An aligned write in the block of ring registers goes to the ring of its 16 B, by its place in them. -/
theorem registerWrite_ringBlock {off n : Nat} (h4 : off % 4 = 0) (hlo : 0x100 ≤ off) (hhi : off < 0x200) (hn : (off - 0x100) / 16 = n) :
    exec (.registerWrite fn off ⟨v, 4⟩) s = .next (
      if off % 16 = 0 then ringBase s fn n false v
      else if off % 16 = 4 then ringBase s fn n true v
      else if off % 16 = 8 then ringCfg s fn n v
      else s) := by
  subst hn
  refine (next_if_pos ⟨rfl, h4⟩).trans (congrArg _ ?_)
  exact (if_neg (by omega)).trans ((if_neg (by omega)).trans ((if_neg (by omega)).trans ((if_neg (by omega)).trans
    (if_pos ⟨hlo, hhi⟩))))

section
variable {n : Nat} (hn : n < 16)
include hn

theorem registerWrite_baseLow : exec (.registerWrite fn (0x100 + 16 * n) ⟨v, 4⟩) s = .next (ringBase s fn n false v) :=
  (registerWrite_ringBlock s fn v (by omega) (by omega) (by omega) (by omega)).trans (next_if_pos (by omega))

theorem registerWrite_baseHigh : exec (.registerWrite fn (0x104 + 16 * n) ⟨v, 4⟩) s = .next (ringBase s fn n true v) :=
  (registerWrite_ringBlock s fn v (by omega) (by omega) (by omega) (by omega)).trans
    ((next_if_neg (by omega)).trans (next_if_pos (by omega)))

theorem registerWrite_ringCfg : exec (.registerWrite fn (0x108 + 16 * n) ⟨v, 4⟩) s = exec (.ringCfgWrite fn n v) s :=
  (registerWrite_ringBlock s fn v (by omega) (by omega) (by omega) (by omega)).trans
    ((next_if_neg (by omega)).trans ((next_if_neg (by omega)).trans (next_if_pos (by omega))))

theorem registerWrite_doorbell : exec (.registerWrite fn (0x1000 + 8 * n) ⟨v, 4⟩) s = exec (.headDoorbell fn n v) s := by
  have hdiv : (0x1000 + 8 * n - 0x1000) / 8 = n := by omega
  refine (next_if_pos ⟨rfl, by omega⟩).trans (congrArg _ ?_)
  exact (if_neg (by omega)).trans ((if_neg (by omega)).trans ((if_neg (by omega)).trans ((if_neg (by omega)).trans
    ((if_neg (by omega)).trans ((if_pos (by omega)).trans (by rw [hdiv]))))))

end

theorem ringBase_enabled {n : Nat} (hi : Bool) (h : (ringOf s fn n).en = true) : ringBase s fn n hi v = s := if_pos (by simp [h])

/-- The base with one half written, the low one without its 12 low bits. -/
def baseWritten (b : Nat) (hi : Bool) : Nat := if hi then v.toNat * 2 ^ 32 + b % 2 ^ 32 else b / 2 ^ 32 * 2 ^ 32 + v.toNat / 4096 * 4096

theorem ringBase_disabled {n : Nat} (hi : Bool) (he : ringExists s fn n = true) (hen : (ringOf s fn n).en = false) :
    (ringOf (ringBase s fn n hi v) fn n).base.toNat = baseWritten v (ringOf s fn n).base.toNat hi := by
  have hset : ringBase s fn n hi v =
      setRing s fn n { ringOf s fn n with base := BitVec.ofNat 64 (baseWritten v (ringOf s fn n).base.toNat hi) } :=
    if_neg (by simp [he, hen])
  have hlt : baseWritten v (ringOf s fn n).base.toNat hi < 2 ^ 64 := by
    have hb := (ringOf s fn n).base.isLt
    have hv := v.isLt
    unfold baseWritten
    split <;> omega
  rw [hset, ringOf_setRing, BitVec.toNat_ofNat, Nat.mod_eq_of_lt hlt]

end

/-- Settles O18: a write by the place of its register, and a new COUNT by the ring that it is judged against. -/
theorem registerWriteRows : Obligations.RegisterWriteRows :=
  ⟨fun _ _ _ => rfl, fun _ _ _ => rfl,
    fun s fn v => ⟨unmask s fn (v.setWidth 19), rfl, by rw [unmask_func], by rw [unmask_func]⟩,
    fun s fn v => ⟨recount (coalesced s fn v) fn, rfl, coalescing_stored s fn v⟩,
    fun _ _ _ _ _ hr hp hc => congrArg Host.Outcome.next (recount_reached hr hp hc),
    fun s fn _ v hn he hen => ⟨_, registerWrite_baseLow s fn v hn, ringBase_disabled s fn v false he hen⟩,
    fun s fn _ v hn he hen => ⟨_, registerWrite_baseHigh s fn v hn, ringBase_disabled s fn v true he hen⟩,
    fun s fn _ v hn hen =>
      ⟨(registerWrite_baseLow s fn v hn).trans (congrArg _ (ringBase_enabled s fn v false hen)),
        (registerWrite_baseHigh s fn v hn).trans (congrArg _ (ringBase_enabled s fn v true hen))⟩,
    fun s fn _ v hn => ⟨registerWrite_ringCfg s fn v hn, registerWrite_doorbell s fn v hn⟩,
    fun _ _ _ _ h => next_if_neg fun hv => h.elim (fun hsize => hsize hv.1) (fun hoff => hoff hv.2)⟩

end Sys2Proof.Machine
end

section
/-! PROOFS. Ring configuration, doorbells and the visits of rings (R62, R63, R68, R70, R72, R468, R469), then the rows of a function as a
whole (R74, R90, R384): O19, O20, O21 and O22. -/

namespace Sys2Proof.Machine

/-! ### INKW_RING_CFG (R63) -/

/-- A field that a configuration or a doorbell cannot take is reported as such, and no ring changes. -/
theorem fieldFault_reports (s : State) (fn : Nat) : (func (fieldFault s fn) fn).reason.toNat = St.invalidField := by
  rw [fieldFault, setFault_reason, if_pos rfl]
  decide

@[simp] theorem ringOf_fieldFault (s : State) (fn k m : Nat) : ringOf (fieldFault s fn) k m = ringOf s k m :=
  (ringOf_setFault ..).trans (ringOf_of_func (func_of_ink rfl k) m)

@[simp] theorem fieldFault_host (s : State) (fn : Nat) : (fieldFault s fn).host = s.host := setFault_host ..

/-- The ring as it restarts when it is enabled (R63). -/
def restarted (r : Ring) (v : BitVec 32) : Ring :=
  { r with en := true, vector := bits v.toNat 11 6, log2 := bits v.toNat 4 1, ptr := 0, other := 0, phase := true, stopped := false,
           refetch := false, writesHeld := false, pendIrq := 0, oldest := none, stamps := [] }

section
variable {s : State} {fn n : Nat} {v : BitVec 32}

theorem ringCfg_absent (he : ringExists s fn n = false) : exec (.ringCfgWrite fn n v) s = .next s := next_if_pos (by simp [he])

section
variable {r : Ring} (hr : r = ringOf s fn n) (he : ringExists s fn n = true)
include hr he

section
variable (hen : r.en = true)
include hen

theorem ringCfg_disables (hv : v.getLsbD 0 = false) : exec (.ringCfgWrite fn n v) s = .next (abortFetched
    (setRing s fn n { r with en := false, vector := bits v.toNat 11 6, log2 := bits v.toNat 4 1 })
    (fun c => c.fn == fn && c.ring == n)) := by
  subst hr
  exact (next_if_neg (by simp [he])).trans ((next_if_pos hen).trans (next_if_neg (ne_true_of_eq_false hv)))

theorem ringCfg_keeps (hv : v.getLsbD 0 = true) : exec (.ringCfgWrite fn n v) s = .next (
    if bits v.toNat 4 1 = r.log2 then setRing s fn n { r with vector := bits v.toNat 11 6 }
    else fieldFault (setRing s fn n { r with vector := bits v.toNat 11 6 }) fn) := by
  subst hr
  exact (next_if_neg (by simp [he])).trans ((next_if_pos hen).trans (next_if_pos hv))

end

section
variable (hen : r.en = false)
include hen

theorem ringCfg_illegal (hv : v.getLsbD 0 = true) (hbad : bits v.toNat 4 1 < 4 ∨ 12 < bits v.toNat 4 1) :
    exec (.ringCfgWrite fn n v) s =
      .next (fieldFault (setRing s fn n { r with vector := bits v.toNat 11 6, log2 := bits v.toNat 4 1 }) fn) := by
  subst hr
  exact (next_if_neg (by simp [he])).trans ((next_if_neg (by simp [hen])).trans (next_if_pos (by rw [hv]; simpa using hbad)))

theorem ringCfg_enables (hv : v.getLsbD 0 = true) (hmin : 4 ≤ bits v.toNat 4 1) (hmax : bits v.toNat 4 1 ≤ 12) :
    exec (.ringCfgWrite fn n v) s = .next (drainRing (setRing s fn n (restarted r v)) fn n) := by
  subst hr
  exact (next_if_neg (by simp [he])).trans ((next_if_neg (by simp [hen])).trans ((next_if_neg (by rw [hv]; simp; omega)).trans
    (next_if_pos hv)))

theorem ringCfg_stores (hv : v.getLsbD 0 = false) :
    exec (.ringCfgWrite fn n v) s = .next (setRing s fn n { r with vector := bits v.toNat 11 6, log2 := bits v.toNat 4 1 }) := by
  subst hr
  exact (next_if_neg (by simp [he])).trans ((next_if_neg (by simp [hen])).trans ((next_if_neg (by rw [hv]; simp)).trans
    (next_if_neg (ne_true_of_eq_false hv))))

end
end

/-! ### A ring stays enabled or disabled while entries are written (R66, R68) -/

section
variable (s : State) (fn n k m : Nat)

theorem countIrq_ring_en (irq : Bool) : (ringOf (countIrq s fn n irq) k m).en = (ringOf s k m).en := by
  have hset : ∀ r : Ring, r.en = (ringOf s fn n).en → (ringOf (setRing s fn n r) k m).en = (ringOf s k m).en :=
    fun _ h => ringOf_setRing_keeps s fn n Ring.en h k m
  have hcause : ∀ r : Ring, r.en = (ringOf s fn n).en → (ringOf (setCause (setRing s fn n r) fn n) k m).en = (ringOf s k m).en :=
    fun r h => (congrArg Ring.en (ringOf_setCause ..)).trans (hset r h)
  exact ite_keeps (fun u => (ringOf u k m).en) rfl (ite_keeps (fun u => (ringOf u k m).en) (hcause _ rfl)
    (ite_keeps (fun u => (ringOf u k m).en) (hcause _ rfl) (hset _ rfl)))

theorem writeEntry_ring_en (b : List Byte) : (ringOf (writeEntry s fn n b).1 k m).en = (ringOf s k m).en := by
  unfold writeEntry
  dsimp only
  split
  · split
    · exact (ringOf_setRing_keeps _ fn n Ring.en (by rw [ringOf_of_func (func_of_ink (hostStore_ink ..) fn)]) k m).trans
        (congrArg Ring.en (ringOf_of_func (func_of_ink (hostStore_ink ..) k) m))
    · exact (congrArg Ring.en (ringOf_setFault ..)).trans (ringOf_setRing_keeps s fn n Ring.en (by rfl) k m)
  · rfl

theorem drainGo_ring_en (l : List Completion) (s : State) : (ringOf (drainGo fn n l s).1 k m).en = (ringOf s k m).en := by
  induction l generalizing s with
  | nil => rfl
  | cons x l ih =>
    have hw := writeEntry_ring_en s fn n k m (completionBytes x (ringOf s fn x.sq).ptr (ringOf s fn n).phase)
    rw [drainGo]
    split <;> rename_i h <;> rw [h] at hw
    · exact (ih _).trans ((countIrq_ring_en ..).trans hw)
    · exact hw

theorem drainCompletions_ring_en : (ringOf (drainCompletions s fn n) k m).en = (ringOf s k m).en :=
  (ringOf_setRing_keeps _ fn n Ring.en (by rfl) k m).trans (drainGo_ring_en fn n k m _ s)

theorem complete_ring_en (c : Cmd) (st : Nat) (res : List Byte) : (ringOf (complete s c st res) k m).en = (ringOf s k m).en := by
  rw [complete_eq, drainCompletions_ring_en, completing, ringOf_prog, ringOf_blot]
  exact ringOf_setRing_keeps s _ _ Ring.en (by rfl) k m

theorem abortFetched_ring_en (p : Cmd → Bool) : (ringOf (abortFetched s p) k m).en = (ringOf s k m).en :=
  foldl_keeps (fun u => (ringOf u k m).en) _ _ fun _ _ => complete_ring_en ..

end

/-! ### A ring drained (R68, R76) -/

theorem endAborts_of_idle (h : s.ink.running = []) : endAborts s = s := by rw [endAborts, h]; rfl

theorem drainEvents_of_empty (hb : (func s fn).backlog = []) (hw : (func s fn).waiting = []) : drainEvents s fn = s := by
  rw [drainEvents, hb, hw]
  rfl

/-- A ring that holds nothing back, of a function on which no event waits, is as before when it is drained. -/
theorem drainRing_of_empty {r : Ring} (hr : ringOf s fn n = r) (hheld : r.held = [])
    (hev : n = 2 → (func s fn).backlog = [] ∧ (func s fn).waiting = []) (hrun : s.ink.running = []) :
    ringOf (drainRing s fn n) fn n = r ∧ (drainRing s fn n).host = s.host ∧ (drainRing s fn n).ink.claims = s.ink.claims := by
  subst hr
  unfold drainRing
  split
  · rename_i hn
    obtain ⟨hb, hw⟩ := hev hn
    rw [drainEvents_of_empty hb hw]
    exact ⟨rfl, rfl, rfl⟩
  · rw [endAborts_of_idle (by rw [drainCompletions_ink_running, hrun]), drainCompletions_of_empty hheld, ringOf_setRing]
    exact ⟨rfl, rfl, rfl⟩

end

/-- Settles O19. -/
theorem ringConfigurationRows : Obligations.RingConfigurationRows := by
  refine ⟨fun _ _ _ _ _ hr he hen hv hmin hmax => ringCfg_enables hr he hen hv hmin hmax,
    fun s fn n v r hr he hen hv hmin hmax hheld hb hw hrun => ⟨_, ringCfg_enables hr he hen hv hmin hmax, ?restarts⟩,
    fun _ _ _ _ _ => ringCfg_disables,
    fun s fn n v he hen hv => ⟨_, ringCfg_disables rfl he hen hv, ?disabled, ?aborted, ?begun, ?claims⟩,
    fun _ _ _ _ _ hr he hen hv hl => (ringCfg_keeps hr he hen hv).trans (next_if_pos hl),
    fun s fn n v r hr he hen hv hl => ⟨_, (ringCfg_keeps hr he hen hv).trans (next_if_neg hl), ?kept, fieldFault_reports ..⟩,
    fun s fn n v r hr he hen hv hbad => ⟨_, ringCfg_illegal hr he hen hv hbad, ?off, fieldFault_reports ..⟩,
    fun _ _ _ _ _ => ringCfg_stores, fun _ _ _ _ => ringCfg_absent⟩
  case restarts =>
    refine drainRing_of_empty (ringOf_setRing ..) hheld (fun _ => ?_) hrun
    rw [func_setRing]
    exact ⟨hb, hw⟩
  case disabled => rw [abortFetched_ring_en, ringOf_setRing]
  case aborted => rw [abortFetched_ink_fetched, setRing_ink_fetched]
  case begun => rw [abortFetched_ink_running, setRing_ink_running]
  case claims => rw [abortFetched_ink_claims, setRing_ink_claims]
  case kept => rw [ringOf_fieldFault, ringOf_setRing]
  case off => rw [ringOf_fieldFault, ringOf_setRing]; exact hen

/-! ### Doorbells (R62, R70, R469) -/

/-- A doorbell counted by the host interface (R426). -/
def rung (s : State) : State := prog s 0xA000 1 none none 1

section
variable (s : State) (fn n : Nat)

@[simp] theorem rung_ink : (rung s).ink = s.ink := prog_ink ..

@[simp] theorem rung_host : (rung s).host = s.host := prog_host ..

@[simp] theorem ringOf_rung : ringOf (rung s) fn n = ringOf s fn n := ringOf_prog ..

@[simp] theorem stamp_rung : stamp (rung s) = stamp s := by rw [stamp, rung, prog_rul, stamp]

theorem ringExists_of_ink {s v : State} (h : v.ink = s.ink) (fn n : Nat) : ringExists v fn n = ringExists s fn n := by
  simp only [ringExists, h]

end

section
variable {s : State} {fn n : Nat} {v : BitVec 32}

/-- A doorbell: in RESETTING it is only counted; one that its ring cannot take, the tail of a submission ring, the head of another. -/
theorem doorbell_eq : doorbell s fn n v =
    if s.ink.state = stResetting then rung s
    else if !ringExists s fn n || !(ringOf s fn n).en || decide (v.toNat % 65536 ≥ 2 ^ (ringOf s fn n).log2) then fieldFault (rung s) fn
    else if isSubmission n then setRing (rung s) fn n
      { ringOf s fn n with
        other := v.toNat % 65536, stopped := false, refetch := (ringOf s fn n).stopped || (ringOf s fn n).refetch,
        stamps := (indicesTo (2 ^ (ringOf s fn n).log2) (ringOf s fn n).other (v.toNat % 65536)).foldl (fun m i => mput m i (stamp s))
          (ringOf s fn n).stamps }
    else drainRing (setRing (rung s) fn n { ringOf s fn n with other := v.toNat % 65536, writesHeld := false }) fn n := by
  unfold doorbell
  simp only [← rung.eq_1, rung_ink, ringOf_rung, ringExists_of_ink (rung_ink s), stamp_rung, ringSize]

theorem doorbell_resetting (h : s.ink.state = stResetting) : doorbell s fn n v = rung s := by rw [doorbell_eq, if_pos h]

section
variable (hs : s.ink.state ≠ stResetting)
include hs

theorem doorbell_refused (h : ringExists s fn n = false ∨ (ringOf s fn n).en = false ∨ 2 ^ (ringOf s fn n).log2 ≤ v.toNat % 65536) :
    doorbell s fn n v = fieldFault (rung s) fn := by
  rw [doorbell_eq, if_neg hs, if_pos (by rcases h with h | h | h <;> simp [h])]

section
variable {r : Ring} (hr : r = ringOf s fn n) (he : ringExists s fn n = true) (hen : r.en = true) (hv : v.toNat % 65536 < 2 ^ r.log2)
include hr he hen hv

theorem doorbell_tail (hsub : isSubmission n = true) : doorbell s fn n v = setRing (rung s) fn n
    { r with other := v.toNat % 65536, stopped := false, refetch := r.stopped || r.refetch,
             stamps := (indicesTo (2 ^ r.log2) r.other (v.toNat % 65536)).foldl (fun m i => mput m i (stamp s)) r.stamps } := by
  subst hr
  rw [doorbell_eq, if_neg hs, if_neg (by simpa [he, hen] using hv), if_pos hsub]

theorem doorbell_head (hsub : isSubmission n = false) : doorbell s fn n v =
    drainRing (setRing (rung s) fn n { r with other := v.toNat % 65536, writesHeld := false }) fn n := by
  subst hr
  rw [doorbell_eq, if_neg hs, if_neg (by simpa [he, hen] using hv), if_neg (ne_true_of_eq_false hsub)]

end
end

/-- The state in which a head doorbell is counted and its head stored. -/
def headStored (s : State) (fn n : Nat) (v : BitVec 32) (r : Ring) : State :=
  setRing (rung s) fn n { r with other := v.toNat % 65536, writesHeld := false }

@[simp] theorem ringOf_headStored (s : State) (fn n : Nat) (v : BitVec 32) (r : Ring) :
    ringOf (headStored s fn n v r) fn n = { r with other := v.toNat % 65536, writesHeld := false } := ringOf_setRing ..

section
variable (s : State) (fn n : Nat) (v : BitVec 32) (r : Ring)

@[simp] theorem headStored_host : (headStored s fn n v r).host = s.host := by rw [headStored, setRing_host, rung_host]

@[simp] theorem headStored_hostFaults : (headStored s fn n v r).hostFaults = s.hostFaults := by
  rw [headStored, setRing_hostFaults, rung, prog_hostFaults]

@[simp] theorem headStored_ink_running : (headStored s fn n v r).ink.running = s.ink.running := by
  rw [headStored, setRing_ink_running, rung_ink]

@[simp] theorem headStored_ink_claims : (headStored s fn n v r).ink.claims = s.ink.claims := by
  rw [headStored, setRing_ink_claims, rung_ink]

@[simp] theorem headStored_ink_state : (headStored s fn n v r).ink.state = s.ink.state := by
  rw [headStored, setRing_ink_state, rung_ink]

end

theorem headStored_safe {r : Ring} (h : Safe s) : Safe (headStored s fn n v r) :=
  wf_of_kept (setRing_kept _ _ _ _ (prog_kept _ _ _ _ _ _ (kept_of_wf h)))

/-- A completion that its ring holds alone is written as soon as the ring has room (R68). -/
theorem drainRing_one {u : State} {r : Ring} {k : Completion} (hu : Safe u) (hr : ringOf u fn n = r) (hn : n ≠ 2) (hheld : r.held = [k])
    (hrun : u.ink.running = []) (hroom : ringRoom u fn n = true) (hok : hostOk u (r.base.toNat + 32 * r.ptr) 32 = true) :
    (ringOf (drainRing u fn n) fn n).held = [] ∧ (ringOf (drainRing u fn n) fn n).ptr = (r.ptr + 1) % 2 ^ r.log2 ∧
      hostGet (drainRing u fn n) (r.base.toNat + 32 * r.ptr) 32 = padTo 32 (completionBytes k (ringOf u fn k.sq).ptr r.phase) := by
  subst hr
  have hdrain : drainRing u fn n = drainCompletions u fn n :=
    (if_neg hn).trans (endAborts_of_idle (by rw [drainCompletions_ink_running, hrun]))
  obtain ⟨p, o, hring⟩ := drainCompletions_one_ring hheld hroom hok
  have hhost := hostGet_of_store hu (drainCompletions_one_host hheld hroom hok)
  rw [padTo_length] at hhost
  rw [hdrain, hring]
  exact ⟨rfl, rfl, hhost⟩

end

/-- Settles O20: a doorbell by the state and the ring that it finds, and a head's drain by what its ring holds. -/
theorem doorbellRows : Obligations.DoorbellRows := by
  refine ⟨fun s u fn n v host r hu hr hs he hsub hen hv => ?tail,
    fun s fn n v host hs h => ⟨_, congrArg Host.Outcome.next (doorbell_refused (s := hostDid s host) hs h), fieldFault_reports .., ?_⟩,
    fun s fn n v host h => congrArg Host.Outcome.next (doorbell_resetting (s := hostDid s host) h),
    fun _ _ _ _ _ hr hs he hsub hen hv => congrArg Host.Outcome.next (doorbell_head hs hr he hen hv hsub),
    fun s fn n v r hr hs he hsub hn hen hheld hrun hv =>
      ⟨_, congrArg Host.Outcome.next (doorbell_head hs hr he hen hv hsub), ?empty⟩,
    fun s fn n v r k hsafe hr hs he hsub hn hen hheld hrun hv hroom hok =>
      ⟨_, congrArg Host.Outcome.next (doorbell_head hs hr he hen hv hsub), ?one⟩,
    fun s fn n v hs h => ⟨_, congrArg Host.Outcome.next (doorbell_refused hs h), fieldFault_reports .., ?_, ?_⟩,
    fun _ _ _ _ h => congrArg Host.Outcome.next (doorbell_resetting h)⟩
  case tail =>
    have htail := doorbell_tail (s := hostDid s host) (fn := fn) (n := n) (v := v) (r := r) hs hr he hen hv hsub
    rw [hu, ← rung.eq_1]
    exact congrArg Host.Outcome.next htail
  case empty =>
    have hdrain := drainRing_of_empty (ringOf_headStored s fn n v r) hheld (fun h => absurd h hn) (by rw [headStored_ink_running, hrun])
    rwa [headStored_host, headStored_ink_claims] at hdrain
  case one =>
    have hptr : (ringOf (headStored s fn n v r) fn k.sq).ptr = (ringOf s fn k.sq).ptr := by
      rw [headStored, ringOf_setRing_keeps (rung s) fn n Ring.ptr (by rw [ringOf_rung, ← hr]), ringOf_rung]
    have hdrain := drainRing_one (headStored_safe hsafe) (ringOf_headStored s fn n v r) hn hheld (by rw [headStored_ink_running, hrun])
      (by simpa [ringRoom, ringSize, hen, hs] using hroom) ((hostOk_of_faults (headStored_hostFaults ..) ..).trans hok)
    rw [hptr] at hdrain
    exact hdrain
  · rw [ringOf_fieldFault, ringOf_rung]; rfl
  · rw [ringOf_fieldFault, ringOf_rung]
  · rw [fieldFault_host, rung_host]

/-! ### RING_VISIT (R72, R468, R469) -/

section
variable {s : State} {fn n : Nat} {r : Ring}

/-- A visit that has nothing more to read reads nothing. -/
theorem fetchGo_still (k : Nat) (h : fetchOne s fn n = s) : fetchGo fn n k s = s := by
  induction k with
  | zero => rfl
  | succ k ih => rw [fetchGo, h, ih]

theorem fetchOne_stopped (h : (ringOf s fn n).stopped = true) : fetchOne s fn n = s := if_pos (by simp [h])

theorem fetchOne_noEntry (hp : (ringOf s fn n).ptr = (ringOf s fn n).other) (hr : (ringOf s fn n).refetch = false) : fetchOne s fn n = s :=
  if_pos (by simp [entryNew, hp, hr])

theorem ringVisit_outOfTurn (h : nextVisit s ≠ some (fn * 16 + n)) : exec (.ringVisit fn n) s = .next s := next_if_neg fun hv => h hv.2

/-- The ring whose turn it is, visited. -/
theorem ringVisit_inTurn (hn : n < 16) (h : nextVisit s = some (fn * 16 + n)) :
    exec (.ringVisit fn n) s = .next (fetchGo fn n 8 { s with ink.visited := fn * 16 + n }) := next_if_pos ⟨hn, h⟩

section
variable (hr : r = ringOf s fn n) (hstop : r.stopped = false) (hnew : r.ptr ≠ r.other)
include hr hstop hnew

theorem fetchOne_unreadable (hok : hostOk s (r.base.toNat + 64 * r.ptr) 64 = false) : fetchOne s fn n =
    setFault (setRing s fn n { r with stopped := true, refetch := false }) fn St.hostFault n := by
  subst hr
  exact (if_neg (by simp [entryNew, hstop, hnew])).trans (if_pos (by simp [hok]))

theorem fetchOne_reads (hok : hostOk s (r.base.toNat + 64 * r.ptr) 64 = true) {e : Sub}
    (he : e = subOfBytes s fn n (mget 0 r.stamps r.ptr) (hostGet s (r.base.toNat + 64 * r.ptr) 64)) : fetchOne s fn n =
      takeEntry (hostBytesRead (setRing s fn n { r with ptr := (r.ptr + 1) % 2 ^ r.log2, refetch := false }) (64 + e.cmd.good)) e := by
  subst hr he
  refine (if_neg (by simp [entryNew, hstop, hnew])).trans ((if_neg (by simp [hok])).trans ?_)
  rw [if_neg hnew]
  rfl

end

theorem duplicate_of_ink {v : State} (h : v.ink = s.ink) (c : Cmd) : duplicate v c = duplicate s c := by rw [duplicate, h, duplicate]

/-- A new entry of an opcode that the device has waits to start (R69, R468). -/
theorem takeEntry_waits {e : Sub} (hd : duplicate s e.cmd = false) (hi : implemented e.opcode = true) :
    takeEntry s e = { arrive e.opcode e.cmd s with ink.fetched := s.ink.fetched ++ [e] } := by
  have hd' : duplicate (arrive e.opcode e.cmd s) e.cmd = false := (duplicate_of_ink (arrive_ink ..) _).trans hd
  change (if duplicate (arrive e.opcode e.cmd s) e.cmd then _ else if implemented e.opcode then
    { arrive e.opcode e.cmd s with ink.fetched := (arrive e.opcode e.cmd s).ink.fetched ++ [e] } else _) = _
  rw [if_neg (ne_true_of_eq_false hd'), if_pos hi, arrive_ink]

/-- The state in which a visit has read the entry `e` of a ring and keeps it to start, the ring being left as `r`. -/
def entryTaken (s : State) (fn n : Nat) (r : Ring) (e : Sub) : State :=
  { arrive e.opcode e.cmd (hostBytesRead (setRing s fn n r) (64 + e.cmd.good)) with ink.fetched := s.ink.fetched ++ [e] }

theorem ringOf_entryTaken (e : Sub) : ringOf (entryTaken s fn n r e) fn n = r := by
  have hfuncs : (entryTaken s fn n r e).ink.funcs = (setRing s fn n r).ink.funcs := by simp [entryTaken]
  rw [ringOf_of_func (func_of_funcs hfuncs fn), ringOf_setRing]

theorem entryTaken_keeps (e : Sub) : (entryTaken s fn n r e).ink.visited = s.ink.visited ∧ (entryTaken s fn n r e).host = s.host ∧
    (entryTaken s fn n r e).ink.running = s.ink.running := by
  simp [entryTaken]

theorem fetchOne_takes (hr : r = ringOf s fn n) (hstop : r.stopped = false) (hnew : r.ptr ≠ r.other) {e : Sub}
    (hok : hostOk s (r.base.toNat + 64 * r.ptr) 64 = true)
    (he : e = subOfBytes s fn n (mget 0 r.stamps r.ptr) (hostGet s (r.base.toNat + 64 * r.ptr) 64))
    (hd : duplicate s e.cmd = false) (hi : implemented e.opcode = true) :
    fetchOne s fn n = entryTaken s fn n { r with ptr := (r.ptr + 1) % 2 ^ r.log2, refetch := false } e := by
  rw [fetchOne_reads hr hstop hnew hok he, takeEntry_waits _ hi, hostBytesRead_ink, setRing_ink_fetched]
  · rfl
  · simpa [duplicate] using hd

end

/-- Settles O21: a visit reads the one new entry and finds no other, or stops at it. -/
theorem ringVisitFetches : Obligations.RingVisitFetches := by
  refine ⟨fun s fn n r e hr hn hturn hstop hnew hlast hok he hd hi => ⟨_, ringVisit_inTurn hn hturn, ?_⟩,
    fun s fn n r hr hn hturn hstop hnew hok => ⟨_, ringVisit_inTurn hn hturn, ?_⟩, fun _ _ _ => ringVisit_outOfTurn⟩
  · have hone := fetchOne_takes (s := { s with ink.visited := fn * 16 + n }) hr hstop hnew hok he hd hi
    rw [hlast] at hone
    generalize hv : entryTaken { s with ink.visited := fn * 16 + n } fn n { r with ptr := r.other, refetch := false } e = v at hone
    have hring : ringOf v fn n = { r with ptr := r.other, refetch := false } := hv ▸ ringOf_entryTaken e
    have hgo : fetchGo fn n 8 { s with ink.visited := fn * 16 + n } = v := by
      change fetchGo fn n 7 (fetchOne _ fn n) = v
      rw [hone, fetchGo_still 7 (fetchOne_noEntry (by rw [hring]) (by rw [hring]))]
    rw [hgo, hring]
    obtain ⟨hvisited, hhost, hrun⟩ := hv ▸ entryTaken_keeps (s := { s with ink.visited := fn * 16 + n }) (fn := fn) (n := n)
      (r := { r with ptr := r.other, refetch := false }) e
    exact ⟨hv ▸ rfl, rfl, hvisited, hhost, hrun⟩
  · have hone := fetchOne_unreadable (s := { s with ink.visited := fn * 16 + n }) hr hstop hnew hok
    have hgo : fetchGo fn n 8 { s with ink.visited := fn * 16 + n } =
        setFault (setRing { s with ink.visited := fn * 16 + n } fn n { r with stopped := true, refetch := false }) fn St.hostFault n := by
      change fetchGo fn n 7 (fetchOne _ fn n) = _
      rw [hone, fetchGo_still 7 (fetchOne_stopped (by rw [ringOf_setFault, ringOf_setRing]))]
    rw [hgo, setFault_ink_fetched, ringOf_setFault, ringOf_setRing, setFault_reason, if_pos rfl, setFault_detail, setFault_host]
    refine ⟨rfl, rfl, rfl, ?_, rfl⟩
    rw [BitVec.toNat_ofNat, Nat.mod_eq_of_lt (by omega)]

/-! ### COALESCE_TIMEOUT, function-level resets and NumVFs (R74, R90, R384) -/

section
variable {s : State} {fn n : Nat}

theorem coalesceTimeout_due {t0 : Nat} (hus : (func s fn).coalTime ≠ 0) (ho : (ringOf s fn n).oldest = some t0)
    (hdue : t0 + (func s fn).coalTime.toNat * 1000 * 65536 ≤ s.time) :
    exec (.coalesceTimeout fn n) s = .next (setCause (setRing s fn n { ringOf s fn n with pendIrq := 0, oldest := none }) fn n) := by
  have hne : (func s fn).coalTime.toNat ≠ 0 := fun h => hus (BitVec.eq_of_toNat_eq (by simpa using h))
  exact next_if_pos ⟨hne, by rw [ho]; simpa using hdue⟩

theorem coalesceTimeout_early (h : (func s fn).coalTime = 0 ∨ (ringOf s fn n).oldest = none ∨
    ∃ t0, (ringOf s fn n).oldest = some t0 ∧ s.time < t0 + (func s fn).coalTime.toNat * 1000 * 65536) :
    exec (.coalesceTimeout fn n) s = .next s := by
  refine next_if_neg fun ⟨hus, hdue⟩ => ?_
  rcases h with h | h | ⟨t0, h, hlt⟩
  · exact hus (by rw [h]; rfl)
  · simp [h] at hdue
  · rw [h] at hdue
    exact absurd hlt (Nat.not_lt.2 (of_decide_eq_true hdue))

/-- The reset of a function that holds no claim. -/
theorem functionLevelReset_unclaimed (hfn : fn ≤ s.ink.numVFs) (h : s.ink.claims.filter (fun x => x.owner == fn) = []) :
    exec (.functionLevelReset fn) s = .next (dropRings s fn) :=
  (next_if_pos hfn).trans (congrArg _ (releaseAll_of_none h))

theorem func_dropRings : func (dropRings s fn) fn =
    { func s fn with rings := [], backlog := [], waiting := [], lostFlag := false, filters := [] } := func_setFunc ..

theorem loseRings_disabled (p : Nat) :
    (ringOf (loseRings s p) 0 (4 + 2 * p)).en = false ∧ (ringOf (loseRings s p) 0 (5 + 2 * p)).en = false := by
  unfold loseRings
  constructor
  · rw [ringOf_setRing_ne _ _ _ _ (by omega), ringOf_setRing]
  · rw [ringOf_setRing]

/-- One more VF: the PF loses the rings of the partition that it serves, and no VF is disabled. -/
theorem numVfs_succ {p : Nat} (hp : s.ink.numVFs = p) (h4 : p < 4) : numVfs s (p + 1) = { loseRings s p with ink.numVFs := p + 1 } := by
  have hnew : (List.range 4).filter (fun x => decide (p ≤ x) && decide (x < p + 1)) = [p] := by interval_cases p <;> rfl
  have hold : (List.range 5).filter (fun x => decide (p + 1 < x) && decide (x ≤ p)) = [] := by interval_cases p <;> rfl
  unfold numVfs
  simp only [hp, hnew, hold, List.foldl]

end

/-- Settles O22. -/
theorem functionRows : Obligations.FunctionRows := by
  refine ⟨fun _ _ _ _ => coalesceTimeout_due, fun _ _ _ => coalesceTimeout_early,
    fun s fn hfn h => ⟨_, functionLevelReset_unclaimed hfn h, ?_⟩, fun s k hk => ⟨_, next_if_pos hk, rfl⟩,
    fun s p hp h4 _ => ⟨_, (next_if_pos (by omega)).trans (congrArg _ (numVfs_succ hp h4)), loseRings_disabled p⟩⟩
  rw [func_dropRings]
  exact ⟨rfl, rfl, rfl, rfl, rfl, rfl, rfl, rfl, rfl⟩

end Sys2Proof.Machine
end

section
/-! PROOFS. The admin commands that report, set or end (R79, R81, R82, log 93): what the row of each answers once it has begun; then O24. -/

namespace Sys2Proof.Machine

section
variable {c : Cmd} {s a : State}

section
variable (h : Begun { op := 0x0101, need := 8 } c s a)
include h

theorem identify_completes (hw : hostOk a (p64 c 0) 256 = true) :
    Completes (.identify c) c s (hostStore a (p64 c 0) (padTo 256 (identifyRecord a))) [] :=
  completes_of rfl h (reportTo_ok (by rwa [padTo_length]))

theorem identify_hostFault (hw : hostOk a (p64 c 0) 256 = false) : exec (.identify c) s = .next (complete a c St.hostFault []) := by
  have hno : hostWrite? a (p64 c 0) (padTo 256 (identifyRecord a)) = none := if_neg (by rw [padTo_length, hw]; exact Bool.false_ne_true)
  exact ends_of rfl h (by simp only [reportTo, hno])

end

/-- The opcodes that the device has, a mask of 32 B for each of the twelve ranges (R79). -/
def opcodeMasks : List Byte :=
  ((List.range 12).map (fun i => leBytes 32 (maskOf ((List.range 256).filter (fun k => implemented ((i + 1) * 256 + k)))))).flatten

theorem opcodeMasks_length : opcodeMasks.length = 384 := by
  rw [opcodeMasks, List.length_flatten, List.map_map, (funext fun _ => leBytes_length .. : List.length ∘ _ = fun _ => 32)]
  rfl

theorem opcodeMap_completes (h : Begun { op := 0x0102, need := 8 } c s a) (hw : hostOk a (p64 c 0) 384 = true) :
    Completes (.opcodeMap c) c s (hostStore a (p64 c 0) opcodeMasks) [] :=
  completes_of rfl h (reportTo_ok (by rwa [← opcodeMasks.eq_1, opcodeMasks_length]))

theorem eventFilter_completes (h : Begun { op := 0x0107, need := 33 } c s a) (hmin : 1 ≤ p8 c 32) (hmax : p8 c 32 ≤ 12) :
    Completes (.eventFilter c) c s
      (setFunc a c.fn { func a c.fn with filters := mput (func a c.fn).filters (p8 c 32) (BitVec.ofNat 256 (pn c 0 32)) }) [] :=
  completes_of rfl h (checked_tail (by simp [hmax]; omega))

theorem echo_completes (h : Begun { op := 0x0108 } c s a) : Completes (.echo c) c s a (padTo 16 ((body c).take c.len)) :=
  completes_of rfl h rfl

/-! ### ABORT (R79) -/

/-- Whether a command is the one that an ABORT names. -/
def targeted (c x : Cmd) : Bool := x.fn == c.fn && x.ring == p8 c 0 && x.tag.toNat == p16 c 2

/-- What ABORT answers once it has begun: its target is among the commands fetched, or among those begun, itself included, or neither. -/
def abortAnswer (c : Cmd) (a : State) : Answer :=
  if a.ink.fetched.any (fun e => targeted c e.cmd) then
    if entryHeld (abortFetched a (targeted c)) (p8 c 0) (BitVec.ofNat 16 (p16 c 2)) then
      .wait (.abort (p8 c 0) (BitVec.ofNat 16 (p16 c 2))) (abortFetched a (targeted c))
    else .done St.ok [0] (abortFetched a (targeted c))
  else if targeted c c || a.ink.running.any (fun r => targeted c r.cmd) then .done St.ok [1] a
  else .done St.ok [2] a

section
variable (h : Begun { op := 0x0106, need := 4 } c s a) (hring : ringExists a c.fn (p8 c 0) = true)
include h hring

/-- The row of an ABORT whose ring exists. -/
theorem abort_row : exec (.abort c) s = .next (firmware { op := 0x0106, need := 4 } abortAnswer c s) :=
  congrArg Host.Outcome.next (firmware_congr h (checked_tail (by simp [hring])))

section
variable (hf : a.ink.fetched.any (fun e => targeted c e.cmd) = true)
include hf

theorem abort_written (hheld : entryHeld (abortFetched a (targeted c)) (p8 c 0) (BitVec.ofNat 16 (p16 c 2)) = false) :
    Completes (.abort c) c s (abortFetched a (targeted c)) [0] :=
  completes_of (abort_row h hring) h ((if_pos hf).trans (if_neg (ne_true_of_eq_false hheld)))

theorem abort_waits (hheld : entryHeld (abortFetched a (targeted c)) (p8 c 0) (BitVec.ofNat 16 (p16 c 2)) = true) :
    Waits (.abort c) 0x0106 c s (abortFetched a (targeted c)) (.abort (p8 c 0) (BitVec.ofNat 16 (p16 c 2))) :=
  waits_of (abort_row h hring) h ((if_pos hf).trans (if_pos hheld))

end

section
variable (hf : a.ink.fetched.any (fun e => targeted c e.cmd) = false)
include hf

theorem abort_begun (hb : c.ring = p8 c 0 ∧ c.tag.toNat = p16 c 2 ∨ a.ink.running.any (fun e => targeted c e.cmd) = true) :
    Completes (.abort c) c s a [1] :=
  completes_of (abort_row h hring) h ((if_neg (ne_true_of_eq_false hf)).trans (if_pos (by
    rcases hb with ⟨hr, ht⟩ | hb
    · simp [targeted, hr, ht]
    · rw [hb, Bool.or_true])))

theorem abort_absent (hb : a.ink.running.any (fun e => targeted c e.cmd) = false) (hself : c.ring = p8 c 0 → c.tag.toNat ≠ p16 c 2) :
    Completes (.abort c) c s a [2] :=
  completes_of (abort_row h hring) h ((if_neg (ne_true_of_eq_false hf)).trans (if_neg (by
    rw [hb, Bool.or_false]
    simpa [targeted] using hself)))

end
end
end

/-- Settles O24: ABORT by where its target is. -/
theorem adminCommandRows : Obligations.AdminCommandRows :=
  ⟨fun _ _ _ => identify_completes, fun _ _ _ => opcodeMap_completes, fun _ _ _ => eventFilter_completes, fun _ _ _ => echo_completes,
    fun _ _ _ => identify_hostFault, fun _ _ _ => abort_written, fun _ _ _ => abort_waits, fun _ _ _ => abort_begun,
    fun _ _ _ => abort_absent⟩

end Sys2Proof.Machine
end

section
/-! PROOFS. Cores and the issue of their instructions (R217 to R220, R225, R227, R248): what reading a core returns after it is set, when an
instruction acts, and how a scratchpad access goes; then the scalar instructions and O40. -/

namespace Sys2Proof.Machine

/-! ### Cores and their scalar registers read back (R218) -/

section
variable (s : State) (n : Nat)

@[simp] theorem coreOf_setCore (c : Core) : coreOf (setCore s n c) n = c := mget_mput ..

theorem coreOf_setCore_ne {m : Nat} (c : Core) (h : m ≠ n) : coreOf (setCore s n c) m = coreOf s m := mget_mput_ne _ _ _ _ _ h

theorem coreOf_of_cpu {v : State} (h : v.cpu = s.cpu) : coreOf v n = coreOf s n := by rw [coreOf, h, coreOf]

@[simp] theorem setCore_mem (c : Core) : (setCore s n c).mem = s.mem := rfl

@[simp] theorem setCore_host (c : Core) : (setCore s n c).host = s.host := rfl

@[simp] theorem setCore_ink (c : Core) : (setCore s n c).ink = s.ink := rfl

@[simp] theorem setCore_duc (c : Core) : (setCore s n c).duc = s.duc := rfl

@[simp] theorem setCore_tallies (c : Core) : (setCore s n c).cpu.tallies = s.cpu.tallies := rfl

@[simp] theorem setCore_parts (c : Core) : (setCore s n c).cpu.parts = s.cpu.parts := rfl

@[simp] theorem issued_cpu : (issued s n).cpu = s.cpu := prog_cpu ..

@[simp] theorem issued_mem : (issued s n).mem = s.mem := prog_mem ..

@[simp] theorem issued_host : (issued s n).host = s.host := prog_host ..

@[simp] theorem issued_ink : (issued s n).ink = s.ink := prog_ink ..

@[simp] theorem issued_duc : (issued s n).duc = s.duc := prog_duc ..

@[simp] theorem coreOf_issued (m : Nat) : coreOf (issued s n) m = coreOf s m := coreOf_of_cpu s m (issued_cpu s n)

end

section
variable (c : Core) (r : Nat) (v : BitVec 64)

@[simp] theorem xget_zero : xget c 0 = 0 := rfl

@[simp] theorem xset_zero : xset c 0 v = c := rfl

theorem xset_of_ne (h : r ≠ 0) : xset c r v = { c with x := mput c.x r v } := if_neg h

theorem xget_xset (h : r ≠ 0) : xget (xset c r v) r = v := by
  rw [xset_of_ne c r v h, xget, if_neg h, mget_mput]

theorem xget_xset_ne {k : Nat} (h : k ≠ r) : xget (xset c r v) k = xget c k := by
  by_cases hr : r = 0
  · rw [hr, xset_zero]
  · rw [xset_of_ne c r v hr, xget, xget, mget_mput_ne _ _ _ _ _ h]

@[simp] theorem xget_advance : xget (advance c) r = xget c r := rfl

@[simp] theorem advance_v : (advance c).v = c.v := rfl

@[simp] theorem advance_a : (advance c).a = c.a := rfl

@[simp] theorem advance_spad : (advance c).spad = c.spad := rfl

/-- A scalar register set changes no other field of its core. -/
theorem xset_keeps {β : Type} (g : Core → β) (h : ∀ c m, g { c with x := m } = g c) : g (xset c r v) = g c := by
  by_cases hr : r = 0
  · rw [hr, xset_zero]
  · rw [xset_of_ne c r v hr, h]

end

/-! ### Issue (R217, R219, R227) -/

section
variable {s : State} {n : Nat} {w : BitVec 64} {regs : List Nat} {f : Core → State → State}

theorem coreExecR_issues {reads : Core → List (Nat × Nat)} (h : Issues s n w regs (reads (coreOf s n))) :
    coreExecR n w regs reads s f = f (coreOf s n) (issued s n) := by
  obtain ⟨hn, hcan, hword, hready⟩ := h
  exact if_pos ⟨hn, hcan, hword, hready⟩

theorem coreExec_issues (h : Issues s n w regs []) : coreExec n w regs s f = f (coreOf s n) (issued s n) :=
  coreExecR_issues (reads := fun _ => []) h

/-- An instruction acts, or nothing happens. -/
theorem coreExec_cases : coreExec n w regs s f = f (coreOf s n) (issued s n) ∨ coreExec n w regs s f = s := by
  unfold coreExec coreExecR
  dsimp only
  split
  · exact .inl rfl
  · exact .inr rfl

theorem coreExec_blocked (h : canIssue (coreOf s n) regs = false) : coreExec n w regs s f = s :=
  if_neg fun hall => ne_true_of_eq_false h hall.2.1

/-- An instruction that may write its scratchpad range is not held back by an XWR. -/
theorem afterReads_mayWrite {writes : Core → List (Nat × Nat)} {a len : Nat} {t : State} (hw : writes (coreOf s n) = [(a, len)])
    (h : MayWrite s n a len) : afterReads n writes s t = t := by
  unfold MayWrite at h
  exact if_neg (by simp [hw, h])

/-! ### Scratchpad accesses (R220, R225) -/

section
variable {a len align : Nat} {isRead : Bool} {c : Core} {u : State → State}

theorem spadAccess_misaligned (h : a % align ≠ 0) :
    spadAccess n a len isRead align c s u = coreFault s n cMisaligned none (some a) := if_pos h

section
variable (h : a % align = 0)
include h

theorem spadAccess_unbounded (hb : spadSize < a + len) : spadAccess n a len isRead align c s u = coreFault s n cBounds none (some a) :=
  (if_neg (not_not.2 h)).trans (if_pos hb)

variable (hb : a + len ≤ spadSize)
include hb

theorem spadAccess_poisoned (hp : spadPoisoned c a len = true) :
    spadAccess n a len true align c s u = coreFault s n cPoison (some St.poisoned) (some a) :=
  (if_neg (not_not.2 h)).trans ((if_neg (Nat.not_lt.2 hb)).trans (if_pos (by simp [hp])))

theorem spadAccess_reads (hp : spadPoisoned c a len = false) :
    spadAccess n a len true align c s u = u (bumpO s (corePart s n) 5 len) :=
  (if_neg (not_not.2 h)).trans ((if_neg (Nat.not_lt.2 hb)).trans (if_neg (by simp [hp])))

theorem spadAccess_writes : spadAccess n a len false align c s u = u (bumpO s (corePart s n) 6 len) :=
  (if_neg (not_not.2 h)).trans ((if_neg (Nat.not_lt.2 hb)).trans (if_neg (by simp)))

end
end
end

/-! ### Scalar operations (R220) -/

section
variable {s : State} {n : Nat} {f : Fields} {i : Instr}

section
variable {k : Nat} {g : BitVec 64 → BitVec 64 → BitVec 64 → BitVec 64} (hrow : exec i s = .next (scalarOp n k f s g))
include hrow

/-- A scalar operation that issues sets its destination and nothing else. -/
theorem scalarOp_sets {v : BitVec 64} (hv : g (xget (coreOf s n) (fB f)) (xget (coreOf s n) (fC f)) (f.imm.signExtend 64) = v)
    (h : Issues s n (wordOf k f) [fA f, fB f, fC f] []) : Sets i s n (xset (coreOf s n) (fA f) v) := by
  subst hv
  exact hrow.trans (congrArg Host.Outcome.next (coreExec_issues h))

theorem scalarOp_blocked (h : canIssue (coreOf s n) [fA f, fB f, fC f] = false) : exec i s = .next s :=
  hrow.trans (congrArg _ (coreExec_blocked h))

end

/-- What a scalar operation leaves alone: memory, Inkwell, the links, every other core, and of its own all but its destination. -/
structure ScalarFrame (s t : State) (n dst : Nat) : Prop where
  mem : t.mem = s.mem
  host : t.host = s.host
  ink : t.ink = s.ink
  duc : t.duc = s.duc
  tallies : t.cpu.tallies = s.cpu.tallies
  parts : t.cpu.parts = s.cpu.parts
  others : ∀ m, m ≠ n → coreOf t m = coreOf s m
  lanes : (coreOf t n).v = (coreOf s n).v
  tiles : (coreOf t n).a = (coreOf s n).a
  spad : (coreOf t n).spad = (coreOf s n).spad
  regs : ∀ r, r ≠ dst → xget (coreOf t n) r = xget (coreOf s n) r

theorem ScalarFrame.refl (s : State) (n dst : Nat) : ScalarFrame s s n dst := by constructor <;> intros <;> rfl

theorem scalarFrame_set (dst : Nat) (v : BitVec 64) :
    ScalarFrame s (setCore (issued s n) n (advance (xset (coreOf s n) dst v))) n dst := by
  have hv := xset_keeps (coreOf s n) dst v Core.v fun _ _ => rfl
  have ha := xset_keeps (coreOf s n) dst v Core.a fun _ _ => rfl
  have hspad := xset_keeps (coreOf s n) dst v Core.spad fun _ _ => rfl
  constructor
  case others =>
    intro m hm
    rw [coreOf_setCore_ne _ _ _ hm, coreOf_issued]
  case regs =>
    intro r hr
    rw [coreOf_setCore, xget_advance, xget_xset_ne _ _ _ hr]
  all_goals simp [hv, ha, hspad]

/-- The rows of the scalar operations, each with its MAJOR and its operation. -/
theorem scalar_row (s : State)
    (h : i ∈ [.add n f, .sub n f, .mul n f, .and n f, .or n f, .xor n f, .shl n f, .shr n f, .sra n f, .li n f]) :
    ∃ k g, exec i s = .next (scalarOp n k f s g) := by
  simp only [List.mem_cons, List.not_mem_nil, or_false] at h
  rcases h with rfl | rfl | rfl | rfl | rfl | rfl | rfl | rfl | rfl | rfl <;> exact ⟨_, _, rfl⟩

theorem scalar_frame {t : State}
    (h : i ∈ [.add n f, .sub n f, .mul n f, .and n f, .or n f, .xor n f, .shl n f, .shr n f, .sra n f, .li n f])
    (ht : exec i s = .next t) : ScalarFrame s t n (fA f) := by
  obtain ⟨k, g, hrow⟩ := scalar_row s h
  obtain rfl := Host.Outcome.next.inj (hrow.symm.trans ht)
  rw [scalarOp]
  rcases coreExec_cases (s := s) (n := n) (w := wordOf k f) (regs := [fA f, fB f, fC f]) (f := fun c s =>
    setCore s n (advance (xset c (fA f) (g (xget c (fB f)) (xget c (fC f)) (f.imm.signExtend 64))))) with he | he <;> rw [he]
  · exact scalarFrame_set (fA f) _
  · exact ScalarFrame.refl s n (fA f)

end

/-! ### Loads, stores, branches and specials (R220) -/

section
variable {s : State} {n a : Nat} {f : Fields}

theorem ld_issues (h : Issues s n (wordOf 0x0A f) [fA f, fB f] [(spadAddr (coreOf s n) f, 8)]) :
    exec (.ld n f) s = .next (spadAccess n (spadAddr (coreOf s n) f) 8 true 8 (coreOf s n) (issued s n) fun t =>
      setCore t n (advance (xset (coreOf s n) (fA f) (BitVec.ofNat 64 (leNat (spadRead n (coreOf s n) (spadAddr (coreOf s n) f) 8)))))) :=
  congrArg Host.Outcome.next (coreExecR_issues (reads := fun c => [(spadAddr c f, 8)]) h)

theorem st_issues (h : Issues s n (wordOf 0x0B f) [fA f, fB f] []) (hw : MayWrite s n (spadAddr (coreOf s n) f) 8) :
    exec (.st n f) s = .next (spadAccess n (spadAddr (coreOf s n) f) 8 false 8 (coreOf s n) (issued s n) fun t =>
      setCore t n (advance (spadWrite (coreOf s n) (spadAddr (coreOf s n) f) (leBytes 8 (xget (coreOf s n) (fA f)).toNat) false))) :=
  congrArg Host.Outcome.next ((afterReads_mayWrite (by rfl) hw).trans (coreExec_issues h))

theorem branchCond_unlisted {x y : BitVec 64} (h : 7 ≤ a) : branchCond a x y = none := by
  obtain ⟨k, rfl⟩ := Nat.exists_eq_add_of_le' h
  rfl

theorem special_unlisted {k : Nat} (h : 5 ≤ k) : special s n k = none := by
  obtain ⟨j, rfl⟩ := Nat.exists_eq_add_of_le' h
  rfl

section
variable (h : Issues s n (wordOf 0x0C f) [fB f, fC f] [])
include h

theorem br_issues : exec (.br n f) s = .next
    (match branchCond (fA f) (xget (coreOf s n) (fB f)) (xget (coreOf s n) (fC f)) with
    | none => coreFault (issued s n) n cIllegal none none
    | some false => setCore (issued s n) n (advance (coreOf s n))
    | some true =>
      setCore (issued s n) n { coreOf s n with pc := (BitVec.ofNat 64 (coreOf s n).pc + f.imm.signExtend 64 * 8).toNat }) :=
  congrArg Host.Outcome.next (coreExec_issues h)

theorem br_falls (hc : branchCond (fA f) (xget (coreOf s n) (fB f)) (xget (coreOf s n) (fC f)) = some false) :
    Sets (.br n f) s n (coreOf s n) := by
  rw [Sets, br_issues h, hc]

theorem br_taken (hc : branchCond (fA f) (xget (coreOf s n) (fB f)) (xget (coreOf s n) (fC f)) = some true) :
    exec (.br n f) s = .next (setCore (issued s n) n
      { coreOf s n with pc := (BitVec.ofNat 64 (coreOf s n).pc + f.imm.signExtend 64 * 8).toNat }) := by
  rw [br_issues h, hc]

theorem br_illegal (ha : 7 ≤ fA f) : exec (.br n f) s = .next (coreFault (issued s n) n cIllegal none none) := by
  rw [br_issues h, branchCond_unlisted ha]

end

section
variable (h : Issues s n (wordOf 0x0D f) [fA f] [])
include h

theorem csr_issues : exec (.csr n f) s = .next
    (match special (issued s n) n (immBits f 3 0) with
    | some v => setCore (issued s n) n (advance (xset (coreOf s n) (fA f) v))
    | none => coreFault (issued s n) n cIllegal none none) := congrArg Host.Outcome.next (coreExec_issues h)

theorem csr_sets {v : BitVec 64} (hv : special (issued s n) n (immBits f 3 0) = some v) :
    Sets (.csr n f) s n (xset (coreOf s n) (fA f) v) := by
  rw [Sets, csr_issues h, hv]

theorem csr_illegal (hk : 5 ≤ immBits f 3 0) : exec (.csr n f) s = .next (coreFault (issued s n) n cIllegal none none) := by
  rw [csr_issues h, special_unlisted hk]

end

theorem halt_halts (h : Issues s n (wordOf 0x0E f) [] []) : exec (.halt n f) s = .next
    (setCore (blot (issued s n) n 4 (corePart (issued s n) n) ((coreOf s n).pc % 2 ^ 32)) n { coreOf s n with run := .halted }) :=
  congrArg Host.Outcome.next (coreExec_issues h)

theorem canIssue_stopped {c : Core} {regs : List Nat} (h : c.run ≠ .running) : canIssue c regs = false := by
  simp [canIssue, h]

theorem canIssue_awaited {c : Core} {regs : List Nat} {w : CoreWait} (hw : c.twait = some w) (hr : w.reg.toNat ∈ regs) :
    canIssue c regs = false := by
  simp [canIssue, hw, hr]

section
variable {w : BitVec 64}

theorem illegal_unlisted (h : Issues s n w [] []) (hm : majorListed (w.toNat / 2 ^ 56) = false) :
    exec (.illegal n w) s = .next (coreFault (issued s n) n cIllegal none none) :=
  congrArg Host.Outcome.next ((coreExec_issues h).trans (if_neg (ne_true_of_eq_false hm)))

theorem illegal_listed (hm : majorListed (w.toNat / 2 ^ 56) = true) : exec (.illegal n w) s = .next s := by
  refine congrArg Host.Outcome.next ?_
  rcases coreExec_cases (s := s) (n := n) (w := w) (regs := []) (f := fun _ s1 =>
    if majorListed (w.toNat / 2 ^ 56) then s else coreFault s1 n cIllegal none none) with he | he
  · exact he.trans (if_pos hm)
  · exact he

end
end

/-- Settles O40, from the rows' common equation once the core issues (R217) and the outcome of a scratchpad access (R220, R225). -/
theorem scalarRows : Obligations.ScalarRows := by
  unfold Obligations.ScalarRows
  refine ⟨?result, fun c r k v => ⟨xget_zero c, xset_zero c v, xget_xset c r v, xget_xset_ne c r v⟩, ?frame,
    fun s n f hrun => scalarOp_blocked (k := 0) rfl (canIssue_stopped hrun), ?awaited, ?ldReads, ?ldPoison, ?ldMisaligned, ?ldBounds,
    ?stWrites, ?stMisaligned, ?stBounds, fun s n f => br_falls, fun s n f => br_taken, fun s n f => br_illegal, fun s n f v h => csr_sets h,
    fun s n f => csr_illegal, fun s n f => halt_halts, fun s n w => illegal_unlisted,
    fun s n w => illegal_listed⟩
  case result =>
    rintro s n k f _ _ _ v op rfl rfl rfl hmem h
    simp only [List.mem_cons, Prod.mk.injEq, List.not_mem_nil, or_false] at hmem
    rcases hmem with ⟨rfl, rfl, rfl⟩ | ⟨rfl, rfl, rfl⟩ | ⟨rfl, rfl, rfl⟩ | ⟨rfl, rfl, rfl⟩ | ⟨rfl, rfl, rfl⟩ | ⟨rfl, rfl, rfl⟩ |
      ⟨rfl, rfl, rfl⟩ | ⟨rfl, rfl, rfl⟩ | ⟨rfl, rfl, rfl⟩ | ⟨rfl, rfl, rfl⟩ <;> exact scalarOp_sets (by rfl) (by rfl) h
  case frame =>
    intro s t n f i hi ht
    obtain ⟨hmem, hhost, hink, hduc, htallies, hparts, hothers, hlanes, htiles, hspad, hregs⟩ := scalar_frame hi ht
    exact ⟨hmem, hhost, hink, hduc, htallies, hparts, hothers, hlanes, htiles, hspad, hregs⟩
  case awaited =>
    intro s n f w hw hreg
    exact scalarOp_blocked (k := 0) rfl (canIssue_awaited hw (by simp [hreg, fB]))
  case ldReads =>
    rintro s n _ f rfl h ha hb hp
    rw [ld_issues h, spadAccess_reads ha hb hp]
  case ldPoison =>
    rintro s n _ f rfl h ha hb hp
    rw [ld_issues h, spadAccess_poisoned ha hb hp]
  case ldMisaligned =>
    rintro s n _ f rfl h ha
    rw [ld_issues h, spadAccess_misaligned ha]
  case ldBounds =>
    rintro s n _ f rfl h ha hb
    rw [ld_issues h, spadAccess_unbounded ha hb]
  case stWrites =>
    rintro s n _ f rfl h hw ha hb
    rw [st_issues h hw, spadAccess_writes ha hb]
  case stMisaligned =>
    rintro s n _ f rfl h hw ha
    rw [st_issues h hw, spadAccess_misaligned ha]
  case stBounds =>
    rintro s n _ f rfl h hw ha hb
    rw [st_issues h hw, spadAccess_unbounded ha hb]

end Sys2Proof.Machine
end

section
/-! PROOFS. The vector and matrix instructions (R218, R220 to R223): O41. -/

namespace Sys2Proof.Machine

/-! ### The registers of a vector instruction (R218) -/

section
variable {s : State} {n : Nat} {w : BitVec 64} {regs vs : List Nat} {g : Core → State → State} {f : Fields}

theorem isV_of_lt {r : Nat} (h : r < 32) : isV r = true := decide_eq_true h

theorem vecExec_issues (h : Issues s n w regs []) (hv : vs.all isV = true) :
    vecExec n w regs vs s g = g (coreOf s n) (issued s n) := (coreExec_issues h).trans (if_pos hv)

theorem vecExec_unlisted {r : Nat} (h : Issues s n w regs []) (hr : r ∈ vs) (hr32 : 32 ≤ r) :
    vecExec n w regs vs s g = coreFault (issued s n) n cIllegal none none :=
  (coreExec_issues h).trans (if_neg fun hall => by
    have := of_decide_eq_true (List.all_eq_true.1 hall r hr)
    omega)

theorem mayWrite_of_none {a len : Nat} (h : (coreOf s n).xwrs = []) : MayWrite s n a len := by
  rw [MayWrite, pageUnread, h, List.any_nil]

/-! ### Lane-wise operations (R221) -/

section
variable {i : Instr} {k : Nat} (h : Issues s n (wordOf (0x40 + k) f) [] []) (ha : fA f < 32) (hb : fB f < 32)
include h ha hb

theorem laneWise_sets {op : Nat → Nat → Nat → Nat} (hrow : exec i s = .next (laneWise n k f s op)) (hc : fC f < 32) :
    Sets i s n (vset (coreOf s n) (fA f) ((List.range 64).map fun j => BitVec.ofNat 32
      (op ((vget (coreOf s n) (fB f)).getD j 0).toNat ((vget (coreOf s n) (fC f)).getD j 0).toNat
        ((vget (coreOf s n) (fA f)).getD j 0).toNat))) :=
  hrow.trans (congrArg Host.Outcome.next (vecExec_issues h (by simp [isV_of_lt, ha, hb, hc])))

theorem laneMap_sets {op : Nat → Nat} (hrow : exec i s = .next (laneMap n k f s op)) :
    Sets i s n (vset (coreOf s n) (fA f) ((vget (coreOf s n) (fB f)).map fun v => BitVec.ofNat 32 (op v.toNat))) :=
  hrow.trans (congrArg Host.Outcome.next (vecExec_issues h (by simp [isV_of_lt, ha, hb])))

end

theorem vdup_sets (h : Issues s n (wordOf 0x49 f) [fB f] []) (ha : fA f < 32) :
    Sets (.vdup n f) s n (vset (coreOf s n) (fA f) (List.replicate 64 ((xget (coreOf s n) (fB f)).setWidth 32))) :=
  congrArg Host.Outcome.next (vecExec_issues h (by simp [isV_of_lt, ha]))

theorem vperm_sets (h : Issues s n (wordOf 0x4E f) [] []) (ha : fA f < 32) (hb : fB f < 32) (hc : fC f < 32) :
    Sets (.vperm n f) s n (vset (coreOf s n) (fA f)
      ((vget (coreOf s n) (fC f)).map fun i => (vget (coreOf s n) (fB f)).getD (i.toNat % 64) 0)) :=
  congrArg Host.Outcome.next (vecExec_issues h (by simp [isV_of_lt, ha, hb, hc]))

/-! ### Loads and stores (R220) -/

theorem vld_issues (h : Issues s n (wordOf 0x4A f) [fB f] [(spadAddr (coreOf s n) f, 256)]) (ha : fA f < 32) :
    exec (.vld n f) s = .next (spadAccess n (spadAddr (coreOf s n) f) 256 true 256 (coreOf s n) (issued s n) fun t =>
      setCore t n (advance (vset (coreOf s n) (fA f) (lanesOf (spadRead n (coreOf s n) (spadAddr (coreOf s n) f) 256))))) :=
  congrArg Host.Outcome.next ((coreExecR_issues (reads := fun c => [(spadAddr c f, 256)]) h).trans
    (if_neg (by simp [isV_of_lt ha])))

theorem vst_eq (hw : MayWrite s n (spadAddr (coreOf s n) f) 256) :
    exec (.vst n f) s = .next (vecExec n (wordOf 0x4B f) [fB f] [fA f] s fun c s =>
      spadAccess n (spadAddr c f) 256 false 256 c s fun s =>
        setCore s n (advance (spadWrite c (spadAddr c f) (laneBytesOf (vget c (fA f))) false))) :=
  congrArg Host.Outcome.next (afterReads_mayWrite (by rfl) hw)

theorem vst_issues (h : Issues s n (wordOf 0x4B f) [fB f] []) (hw : MayWrite s n (spadAddr (coreOf s n) f) 256) (ha : fA f < 32) :
    exec (.vst n f) s = .next (spadAccess n (spadAddr (coreOf s n) f) 256 false 256 (coreOf s n) (issued s n) fun t =>
      setCore t n (advance (spadWrite (coreOf s n) (spadAddr (coreOf s n) f) (laneBytesOf (vget (coreOf s n) (fA f))) false))) :=
  (vst_eq hw).trans (congrArg Host.Outcome.next (vecExec_issues h (by simp [isV_of_lt, ha])))

/-! ### The registers that a row names, for a register that does not exist (log 15) -/

section
variable {k : Nat} {i : Instr}

/-- The vector operations that act on registers, and VST (the eleventh) with no XWR pending: each is `vecExec` over the registers that it
names. -/
theorem vector_row (hx : (coreOf s n).xwrs = [])
    (h : (k, i, regs, vs) ∈ [(0x40, .vadd n f, [], [fA f, fB f, fC f]), (0x41, .vsub n f, [], [fA f, fB f, fC f]),
      (0x42, .vmul n f, [], [fA f, fB f, fC f]), (0x43, .vfma n f, [], [fA f, fB f, fC f]),
      (0x44, .vmax n f, [], [fA f, fB f, fC f]), (0x45, .vmin n f, [], [fA f, fB f, fC f]),
      (0x46, .vexp2 n f, [], [fA f, fB f]), (0x47, .vrcp n f, [], [fA f, fB f]), (0x48, .vrsqrt n f, [], [fA f, fB f]),
      (0x49, .vdup n f, [fB f], [fA f]), (0x4B, .vst n f, [fB f], [fA f]), (0x4C, .vcvt n f, [], [fA f, fB f]),
      (0x4D, .vsum n f, [fA f], [fB f]), (0x4E, .vperm n f, [], [fA f, fB f, fC f])]) :
    ∃ g, exec i s = .next (vecExec n (wordOf k f) regs vs s g) := by
  simp only [List.mem_cons, Prod.mk.injEq, List.not_mem_nil, or_false] at h
  rcases h with h | h | h | h | h | h | h | h | h | h | h | h | h | h <;> obtain ⟨rfl, rfl, rfl, rfl⟩ := h
  case inr.inr.inr.inr.inr.inr.inr.inr.inr.inr.inl => exact ⟨_, vst_eq (mayWrite_of_none hx)⟩
  all_goals exact ⟨_, rfl⟩

end

/-! ### VCVT and VSUM (R221, log 13) -/

section
variable (c : Core) (r : Nat) (v : List (BitVec 32))

theorem vget_vset : vget (vset c r v) r = v := mget_mput ..

theorem vget_vset_ne {k : Nat} (h : k ≠ r) : vget (vset c r v) k = vget c k := mget_mput_ne _ _ _ _ _ h

@[simp] theorem vget_advance : vget (advance c) r = vget c r := rfl

end

theorem vcvtTo_unlisted {k : Nat} (h : 6 ≤ k) : vcvtTo k = none := by
  obtain ⟨j, rfl⟩ := Nat.exists_eq_add_of_le' h
  rfl

section
variable (h : Issues s n (wordOf 0x4C f) [] []) (ha : fA f < 32) (hb : fB f < 32)
include h ha hb

/-- VCVT packs its converted lanes; the lanes above them are free. -/
theorem vcvt_packs {width : Nat} {conv : Nat → Nat} {l : List Byte} (hto : vcvtTo (immBits f 3 0) = some (width, conv))
    (hl : l = ((vget (coreOf s n) (fB f)).map fun v => leBytes (width / 8) (conv v.toNat)).flatten) :
    exec (.vcvt n f) s = .next (setCore (freeLanes (issued s n) (64 - l.length / 4)).2 n (advance (vset (coreOf s n) (fA f)
      ((lanesOf l).take (l.length / 4) ++ (freeLanes (issued s n) (64 - l.length / 4)).1)))) := by
  subst hl
  refine congrArg Host.Outcome.next ((vecExec_issues h (by simp [isV_of_lt, ha, hb])).trans ?_)
  rw [hto]

theorem vcvt_illegal (hk : 6 ≤ immBits f 3 0) : exec (.vcvt n f) s = .next (coreFault (issued s n) n cIllegal none none) := by
  refine congrArg Host.Outcome.next ((vecExec_issues h (by simp [isV_of_lt, ha, hb])).trans ?_)
  rw [vcvtTo_unlisted hk]

end

section
variable (h : Issues s n (wordOf 0x4D f) [fA f] []) (hb : fB f < 32)
include h hb

theorem vsum_sums : exec (.vsum n f) s = .next (setCore (freeWord (issued s n)).2 n (advance (xset (coreOf s n) (fA f)
    ((freeWord (issued s n)).1.extractLsb' 32 32 ++
      (BitVec.ofNat 32 (vsumLanes ((vget (coreOf s n) (fB f)).map BitVec.toNat)) : BitVec 32))))) :=
  congrArg Host.Outcome.next (vecExec_issues h (by simp [isV_of_lt, hb]))

end

theorem freeLanes_mem (m : Nat) : (freeLanes s m).2.mem = s.mem := rfl

theorem freeWord_mem : (freeWord s).2.mem = s.mem := rfl

@[simp] theorem lanesOf_length (l : List Byte) : (lanesOf l).length = 64 := by rw [lanesOf, List.length_map, List.length_range]

/-- The packed lanes stand below the free ones. -/
theorem packed_take (l : List Byte) (m : Nat) :
    ((lanesOf l).take m ++ (freeLanes s (64 - m)).1).take m = (lanesOf l).take m := by
  have hfill : (freeLanes s (64 - m)).1.length = 64 - m := by rw [freeLanes, List.length_map, List.length_range]
  rw [List.take_append, List.take_take, min_self, List.length_take, lanesOf_length, List.append_right_eq_self, List.take_eq_nil_iff,
    ← List.length_eq_zero_iff, hfill]
  omega

/-- A word put below another is the whole's low half. -/
theorem setWidth_append_low (u v : BitVec 32) : (u ++ v).setWidth 32 = v := BitVec.setWidth_append_eq_right

/-! ### Matrix instructions (R222, R223) -/

theorem isA_of_lt {r : Nat} (h : r < 4) : isA r = true := decide_eq_true h

theorem mmaK_ne_zero {k : Nat} (h : k ≤ 7) : mmaK k ≠ 0 := by
  interval_cases k <;> decide

section
variable (h : Issues s n (wordOf 0x80 f) [fB f, fC f] [((xget (coreOf s n) (fB f)).toNat, mmaSpan (immBits f 3 0)),
  ((xget (coreOf s n) (fC f)).toNat, mmaSpan (immBits f 7 4))])
include h

theorem mma_illegal (hbad : 4 ≤ fA f ∨ mmaK (immBits f 3 0) = 0 ∨ mmaK (immBits f 3 0) ≠ mmaK (immBits f 7 4)) :
    exec (.mma n f) s = .next (coreFault (issued s n) n cIllegal none none) := by
  refine congrArg Host.Outcome.next ((coreExecR_issues (reads := fun c => [((xget c (fB f)).toNat, mmaSpan (immBits f 3 0)),
    ((xget c (fC f)).toNat, mmaSpan (immBits f 7 4))]) h).trans (if_pos ?_))
  simp only [isA, Bool.or_eq_true, Bool.not_eq_true', decide_eq_false_iff_not, beq_iff_eq, bne_iff_ne]
  omega

/-- An MMA of listed formats whose operands are within bounds and clean sets its tile. -/
theorem mma_forms (ha : fA f < 4) (hk : immBits f 3 0 ≤ 7) (hkk : mmaK (immBits f 7 4) = mmaK (immBits f 3 0))
    (hab : (xget (coreOf s n) (fB f)).toNat + mmaSpan (immBits f 3 0) ≤ spadSize)
    (hbb : (xget (coreOf s n) (fC f)).toNat + mmaSpan (immBits f 7 4) ≤ spadSize)
    (hap : spadPoisoned (coreOf s n) (xget (coreOf s n) (fB f)).toNat (mmaSpan (immBits f 3 0)) = false)
    (hbp : spadPoisoned (coreOf s n) (xget (coreOf s n) (fC f)).toNat (mmaSpan (immBits f 7 4)) = false) :
    ∃ t, exec (.mma n f) s = .next t ∧ coreOf t n = advance (aset (coreOf s n) (fA f)
      (mmaTile (immBits f 3 0) (immBits f 7 4) (immBits f 8 8 == 1) (spadRead n (coreOf s n) (xget (coreOf s n) (fB f)).toNat
        (mmaSpan (immBits f 3 0))) (spadRead n (coreOf s n) (xget (coreOf s n) (fC f)).toNat (mmaSpan (immBits f 7 4)))
        (aget (coreOf s n) (fA f)))) ∧ t.mem = s.mem := by
  have hgo : ¬(!isA (fA f) || mmaK (immBits f 3 0) == 0 || mmaK (immBits f 3 0) != mmaK (immBits f 7 4)) = true := by
    simp [isA_of_lt ha, mmaK_ne_zero hk, hkk]
  refine ⟨_, congrArg Host.Outcome.next ((coreExecR_issues (reads := fun c => [((xget c (fB f)).toNat, mmaSpan (immBits f 3 0)),
    ((xget c (fC f)).toNat, mmaSpan (immBits f 7 4))]) h).trans ((if_neg hgo).trans
      ((spadAccess_reads (Nat.mod_one _) hab hap).trans (spadAccess_reads (Nat.mod_one _) hbb hbp)))), ?_, ?_⟩
  · exact (coreOf_of_cpu _ n ((prog_cpu ..).trans (bumpO_cpu ..))).trans (coreOf_setCore ..)
  · rw [prog_mem, bumpO_mem, setCore_mem, bumpO_mem, bumpO_mem, issued_mem]

end

theorem mmast_stores (h : Issues s n (wordOf 0x81 f) [fB f] []) (ha : fA f < 4)
    (hw : MayWrite s n (xget (coreOf s n) (fB f)).toNat (mmastBytes (immBits f 1 0) (aget (coreOf s n) (fA f))).length)
    (hb : (xget (coreOf s n) (fB f)).toNat + (mmastBytes (immBits f 1 0) (aget (coreOf s n) (fA f))).length ≤ spadSize) :
    exec (.mmast n f) s = .next (setCore (bumpO (issued s n) (corePart (issued s n) n) 6
      (mmastBytes (immBits f 1 0) (aget (coreOf s n) (fA f))).length) n (advance (spadWrite (coreOf s n)
        (xget (coreOf s n) (fB f)).toNat (mmastBytes (immBits f 1 0) (aget (coreOf s n) (fA f))) false))) :=
  congrArg Host.Outcome.next ((afterReads_mayWrite (by rfl) hw).trans ((coreExec_issues h).trans
    ((if_neg (by simp [isA_of_lt ha])).trans (spadAccess_writes (Nat.mod_one _) hb))))

end

/-- Settles O41, from the rows' common shapes (`laneWise`, `laneMap`, `vecExec`) once the core issues, and the outcome of a scratchpad
access. -/
theorem vectorRows : Obligations.VectorRows := by
  unfold Obligations.VectorRows
  refine ⟨?lanes, ?maps, fun s n f => vdup_sets, ?perm, ?unlisted, ?vldReads, ?vstWrites, ?vldMisaligned, ?vstMisaligned, ?cvt,
    fun s n f => vcvt_illegal, ?sum, ?sumZero, ?forms, fun s n f => mma_illegal, ?stores⟩
  case lanes =>
    rintro s n k f _ _ _ op g ha hb hc rfl rfl rfl hmem h
    simp only [List.mem_cons, Prod.mk.injEq, List.not_mem_nil, or_false] at hmem
    rcases hmem with ⟨rfl, rfl, rfl⟩ | ⟨rfl, rfl, rfl⟩ | ⟨rfl, rfl, rfl⟩ | ⟨rfl, rfl, rfl⟩ | ⟨rfl, rfl, rfl⟩ | ⟨rfl, rfl, rfl⟩
    · exact laneWise_sets (k := 0) (op := fun b c _ => fadd fp32 b c) h ha hb (by rfl) hc
    · exact laneWise_sets (k := 1) (op := fun b c _ => fsub fp32 b c) h ha hb (by rfl) hc
    · exact laneWise_sets (k := 2) (op := fun b c _ => fmul fp32 b c) h ha hb (by rfl) hc
    · exact laneWise_sets (k := 3) (op := fun b c a => ffma fp32 b c a) h ha hb (by rfl) hc
    · exact laneWise_sets (k := 4) (op := fun b c _ => fmax fp32 b c) h ha hb (by rfl) hc
    · exact laneWise_sets (k := 5) (op := fun b c _ => fmin fp32 b c) h ha hb (by rfl) hc
  case maps =>
    intro s n k f op g ha hb hmem h
    simp only [List.mem_cons, Prod.mk.injEq, List.not_mem_nil, or_false] at hmem
    rcases hmem with ⟨rfl, rfl, rfl⟩ | ⟨rfl, rfl, rfl⟩ | ⟨rfl, rfl, rfl⟩
    · exact laneMap_sets (k := 6) h ha hb (by rfl)
    · exact laneMap_sets (k := 7) h ha hb (by rfl)
    · exact laneMap_sets (k := 8) h ha hb (by rfl)
  case perm =>
    rintro s n f _ h ha hb hc rfl
    exact vperm_sets h ha hb hc
  case unlisted =>
    intro s n k r f regs vs op hmem h hx hr hr32
    obtain ⟨g, hrow⟩ := vector_row hx hmem
    rw [hrow, vecExec_unlisted h hr hr32]
  case vldReads =>
    rintro s n _ f rfl h ha hal hb hp
    rw [vld_issues h ha, spadAccess_reads hal hb hp]
  case vstWrites =>
    rintro s n _ f rfl h hw ha hal hb
    rw [vst_issues h hw ha, spadAccess_writes hal hb]
  case vldMisaligned =>
    rintro s n _ f rfl h ha hal
    rw [vld_issues h ha, spadAccess_misaligned hal]
  case vstMisaligned =>
    rintro s n _ f rfl h hw ha hal
    rw [vst_issues h hw ha, spadAccess_misaligned hal]
  case cvt =>
    intro s n w f g l h ha hb hto hl
    refine ⟨_, vcvt_packs h ha hb hto hl, ?_⟩
    rw [coreOf_setCore, setCore_mem, freeLanes_mem, issued_mem, vget_advance, vget_vset]
    refine ⟨packed_take l _, fun r hr => ?_, rfl, rfl, rfl, rfl⟩
    rw [vget_advance, vget_vset_ne _ _ _ hr]
  case sum =>
    intro s n f h hb ha
    refine ⟨_, vsum_sums h hb, ?_⟩
    rw [coreOf_setCore, setCore_mem, freeWord_mem, issued_mem, xget_advance, xget_xset _ _ _ ha, setWidth_append_low]
    refine ⟨rfl, fun r hr => ?_, xset_keeps _ _ _ Core.v fun _ _ => rfl, xset_keeps _ _ _ Core.spad fun _ _ => rfl,
      congrArg (· + 8) (xset_keeps _ _ _ Core.pc fun _ _ => rfl), rfl⟩
    rw [xget_advance, xget_xset_ne _ _ _ hr]
  case sumZero =>
    intro s n f h hb ha
    refine ⟨_, vsum_sums h hb, ?_⟩
    rw [coreOf_setCore, setCore_mem, freeWord_mem, issued_mem, ha, xset_zero]
    exact ⟨rfl, rfl⟩
  case forms =>
    rintro s n _ _ _ f rfl rfl rfl h ha hk hkk hab hbb hap hbp
    exact mma_forms h ha hk hkk hab hbb hap hbp
  case stores =>
    rintro s n _ f _ h ha rfl rfl hw hb
    exact mmast_stores h ha hw hb

end Sys2Proof.Machine
end

section
/-! PROOFS. A read of device memory leaves the cores, their partitions and the tallies alone (R115, R227): recording and signalling, the
channels and the staging cache, the windows, and at last a read of bytes keep the compute state. -/

namespace Sys2Proof.Machine

section
variable (s : State)

/-! ### Recording and charging -/

theorem cpu_of_uncharged {s v : State} (h : uncharged v = uncharged s) : v.cpu = s.cpu := (congrArg State.cpu h :)

@[simp] theorem markChannel_cpu (t : Tier) (c : Nat) : (markChannel s t c).cpu = s.cpu :=
  (congrArg State.cpu (unpowered_markChannel s t c) :)

@[simp] theorem chanCount_cpu (t : Tier) (c i : Nat) : (chanCount s t c i).cpu = s.cpu := rfl

@[simp] theorem setChan_cpu (t : Tier) (c : Nat) (x : Chan) : (setChan s t c x).cpu = s.cpu := rfl

@[simp] theorem logErr_cpu (die type : Nat) (t : Tier) (u off dpa sym rq : Nat) :
    (logErr s die type t u off dpa sym rq).cpu = s.cpu := rfl

@[simp] theorem watchUe_cpu (t : Tier) (c : Nat) : (watchUe s t c).cpu = s.cpu := by
  unfold watchUe
  dsimp only
  split <;> simp

@[simp] theorem watchCe_cpu (t : Tier) (c : Nat) : (watchCe s t c).cpu = s.cpu := by
  unfold watchCe
  dsimp only
  split <;> simp

@[simp] theorem noteUe_cpu (type : Nat) (t : Tier) (c off dpa rq : Nat) : (noteUe s type t c off dpa rq).cpu = s.cpu := by
  unfold noteUe
  dsimp only
  split <;> simp

@[simp] theorem noteCe_cpu (type : Nat) (t : Tier) (c off dpa sym rq : Nat) (part : Option Nat) :
    (noteCe s type t c off dpa sym rq part).cpu = s.cpu := by
  unfold noteCe
  dsimp only
  repeat' split
  all_goals simp

@[simp] theorem noteDrop_cpu (t : Tier) (c off dpa rq : Nat) : (noteDrop s t c off dpa rq).cpu = s.cpu := by
  unfold noteDrop
  dsimp only
  split <;> simp

@[simp] theorem charge_cpu (rq : Requester) (dpa n cls : Nat) : (charge s rq dpa n cls).cpu = s.cpu :=
  cpu_of_uncharged (uncharged_charge ..)

@[simp] theorem cross_cpu (rq : Requester) (write : Bool) (dpa n : Nat) : (cross s rq write dpa n).cpu = s.cpu :=
  cpu_of_uncharged (uncharged_cross ..)

/-! ### Channels and the staging cache -/

@[simp] theorem checkRead_cpu (p : Place) : (checkRead s p).2.cpu = s.cpu := by
  unfold checkRead
  dsimp only
  repeat' split
  all_goals rfl

@[simp] theorem placeStore_cpu (p : Place) (d : List Byte) (poison : Bool) : (placeStore s p d poison).cpu = s.cpu := by
  unfold placeStore
  dsimp only
  split <;> rfl

@[simp] theorem chanRead_cpu (p : Place) (dpa ceType ueType rq : Nat) (part cls : Option Nat) (fix : Bool) :
    (chanRead s p dpa ceType ueType rq part cls fix).2.2.2.cpu = s.cpu := by
  unfold chanRead
  dsimp only
  repeat' split
  all_goals simp

@[simp] theorem chanWrite_cpu (p : Place) (dpa : Nat) (d : List Byte) (poison : Bool) (rq : Nat) (part cls : Option Nat) :
    (chanWrite s p dpa d poison rq part cls).cpu = s.cpu := by
  unfold chanWrite granuleStore
  dsimp only
  repeat' split
  all_goals simp [accDrop]

@[simp] theorem writeBack_cpu (dpa : Nat) (x : Sector) (rq : Nat) (cls : Option Nat) : (writeBack s dpa x rq cls).cpu = s.cpu := by
  unfold writeBack
  split <;> simp

@[simp] theorem evict_cpu (l : CacheLine) (cls : Option Nat) : (evict s l cls).cpu = s.cpu := by
  have hline : (writeBackLine s l cls).cpu = s.cpu := foldl_keeps State.cpu _ s fun _ _ => by split <;> simp
  simp [evict, hline]

theorem makeRoom_cpu {s u : State} {die addr : Nat} {cls : Option Nat} (h : makeRoom s die addr cls = some u) : u.cpu = s.cpu := by
  unfold makeRoom at h
  split at h
  case isTrue => cases h; rfl
  case isFalse =>
    split at h
    case h_1 => cases h
    case h_2 =>
      rw [← Option.some.inj h]
      exact evict_cpu ..

@[simp] theorem cachePut_cpu (die dpa : Nat) (x : Sector) (rq : Nat) (part cls : Option Nat) :
    (cachePut s die dpa x rq part cls).cpu = s.cpu := by
  unfold cachePut
  split
  case h_1 => rfl
  case h_2 =>
    split
    case h_1 u h => exact (makeRoom_cpu h :)
    case h_2 =>
      repeat' split
      all_goals simp

/-! ### Reads -/

@[simp] theorem readGranule_cpu (rq : Requester) (dpa cls : Nat) : (readGranule s rq dpa cls).s.cpu = s.cpu := by
  unfold readGranule
  dsimp only
  repeat' split
  all_goals simp

@[simp] theorem readAt_cpu (rq : Requester) (dpa cls : Nat) : (readAt s rq dpa cls).s.cpu = s.cpu := by
  have hwindow : (readWindow s rq dpa cls).s.cpu = s.cpu := by
    unfold readWindow
    repeat' split
    all_goals simp
  unfold readAt
  dsimp only
  split <;> simp [hwindow]

theorem readGo_cpu (rq : Requester) (cls : Nat) (l : List Nat) (s : State) (acc : List (List Byte × Bool)) :
    (readGo rq cls l s acc).2.cpu = s.cpu := by
  induction l generalizing s acc with
  | nil => rfl
  | cons a l ih => exact (ih _ _).trans (readAt_cpu ..)

@[simp] theorem readGranules_cpu (rq : Requester) (dpa len cls : Nat) : (readGranules s rq dpa len cls).2.2.cpu = s.cpu := by
  unfold readGranules
  dsimp only
  split
  · rfl
  · exact (readGo_cpu ..).trans ((charge_cpu ..).trans (watch_cpu ..))

@[simp] theorem readBytes_cpu (rq : Requester) (dpa len cls : Nat) : (readBytes s rq dpa len cls).2.2.2.cpu = s.cpu := by
  unfold readBytes
  dsimp only
  split <;> exact readGranules_cpu ..

/-- Fetching a basis table (R205) reads its header and then the whole of it. -/
@[simp] theorem fetchBasis_cpu (dpa : Nat) : (fetchBasis s dpa).2.cpu = s.cpu := by
  unfold fetchBasis
  dsimp only
  rw [readBytes_cpu, readBytes_cpu]

end

end Sys2Proof.Machine
end

section
/-! PROOFS. Fabric instructions as they issue (R226 to R228, R240, R246): when the fabric unit takes one, the store queue's copy of an XWR,
and ledgers read back; then O42. -/

namespace Sys2Proof.Machine

/-! ### Partitions, tallies and ledgers read back -/

section
variable {s v : State}

theorem corePart_of_cpu (h : v.cpu = s.cpu) (n : Nat) : corePart v n = corePart s n := by
  simp only [corePart, coreQuad, partOf, h]

@[simp] theorem corePart_issued (n m : Nat) : corePart (issued s n) m = corePart s m := corePart_of_cpu (issued_cpu s n) m

@[simp] theorem issued_rul (n : Nat) : (issued s n).rul = s.rul := prog_rul ..

@[simp] theorem stamp_issued (n : Nat) : stamp (issued s n) = stamp s := by rw [stamp, issued_rul, stamp]

theorem tallyGet_of_cpu (h : v.cpu = s.cpu) (k : Nat) : tallyGet v k = tallyGet s k := by rw [tallyGet, h, tallyGet]

@[simp] theorem tallyGet_setCore (n k : Nat) (c : Core) : tallyGet (setCore s n c) k = tallyGet s k := rfl

theorem ledgerOf_of_parts (h : v.cpu.parts = s.cpu.parts) (p l : Nat) : ledgerOf v p l = ledgerOf s p l := by
  rw [ledgerOf, partOf, h, ledgerOf, partOf]

theorem ledgerOf_of_cpu (h : v.cpu = s.cpu) (p l : Nat) : ledgerOf v p l = ledgerOf s p l := ledgerOf_of_parts (by rw [h]) p l

@[simp] theorem ledgerOf_issued (n p l : Nat) : ledgerOf (issued s n) p l = ledgerOf s p l :=
  ledgerOf_of_cpu (issued_cpu s n) p l

@[simp] theorem ledgerOf_setCore (n p l : Nat) (c : Core) : ledgerOf (setCore s n c) p l = ledgerOf s p l := rfl

theorem ledgerOf_setLedger (p l : Nat) (x : Ledger) : ledgerOf (setLedger s p l x) p l = x := by
  rw [ledgerOf, partOf, setLedger, setPart, mget_mput, mget_mput]

@[simp] theorem setLedger_mem (p l : Nat) (x : Ledger) : (setLedger s p l x).mem = s.mem := rfl

end

/-! ### When the fabric unit takes an instruction (R217, R227, R240) -/

section
variable {s : State} {n : Nat} {w : BitVec 64} {regs : List Nat} {reads : Core → List (Nat × Nat)} {u : Core → State → State}

theorem fabricExec_issues (h : Issues s n w regs (reads (coreOf s n))) (hf : FabricFree s n) :
    fabricExec n w regs reads s u = u (coreOf s n) (issued s n) := by
  obtain ⟨hwait, hfence, htsigs⟩ := hf
  exact (if_neg (by simp [hwait, hfence, htsigs])).trans (coreExecR_issues h)

theorem fabricExec_fenced (h : (coreOf s n).fence = true) : fabricExec n w regs reads s u = s := if_pos (by simp [h])

theorem afterReads_same {writes : Core → List (Nat × Nat)} : afterReads n writes s s = s := ite_self s

theorem aligned_pair {a b : Nat} (ha : a % 64 = 0) (hb : b % 64 = 0) : ¬misaligned [a, b] = true := by simp [misaligned, ha, hb]

theorem aligned_triple {a b c : Nat} (ha : a % 64 = 0) (hb : b % 64 = 0) (hc : c % 64 = 0) : ¬misaligned [a, b, c] = true := by
  simp [misaligned, ha, hb, hc]

theorem aligned_one {a : Nat} (ha : a % 64 = 0) : ¬misaligned [a] = true := by simp [misaligned, ha]

end

/-! ### The store queue's copy of an XWR (R227) -/

/-- The `i`th granule that the store queue takes of an XWR. -/
def xwrGranule (n : Nat) (c : Core) (x : PendingXwr) (i : Nat) : StoreGranule :=
  { dpa := x.dpa + 64 * i, data := spadRead n c (x.src + 64 * i) 64, poison := spadPoisoned c (x.src + 64 * i) 64, cls := x.cls,
    peer := x.peer, whole := x.whole, seq := x.seq }

/-- What an XWR has still to copy after one granule. -/
def xwrRest (x : PendingXwr) : PendingXwr := { x with src := x.src + 64, dpa := x.dpa + 64, len := x.len - 64 }

theorem xwrRest_len (x : PendingXwr) : (xwrRest x).len = x.len - 64 := rfl

/-- A core whose store queue takes the first granule of its one XWR. -/
def fillOneGranule (n : Nat) (c : Core) (x : PendingXwr) : Core :=
  { c with stores := c.stores ++ [xwrGranule n c x 0], xwrs := if x.len ≤ 64 then [] else [xwrRest x] }

section
variable {n : Nat} {c : Core} {x : PendingXwr}

theorem fillStores_none (m : Nat) (h : c.xwrs = []) : fillStores n m c = c := by
  cases m with
  | zero => rfl
  | succ m => rw [fillStores, h]

theorem fillStores_takes (m : Nat) (h : c.xwrs = [x]) (hroom : c.stores.length < storeDepth) :
    fillStores n (m + 1) c = fillStores n m (fillOneGranule n c x) := by
  rw [fillStores, h]
  exact if_neg (Nat.not_le.2 hroom)

theorem xwrGranule_rest (i : Nat) : xwrGranule n (fillOneGranule n c x) (xwrRest x) i = xwrGranule n c x (i + 1) := by
  have hdpa : x.dpa + 64 + 64 * i = x.dpa + 64 * (i + 1) := by omega
  have hsrc : x.src + 64 + 64 * i = x.src + 64 * (i + 1) := by omega
  rw [xwrGranule, xwrGranule, xwrRest, ← hdpa, ← hsrc]
  rfl

/-- A store queue with room for every granule of its one XWR takes them all, in order. -/
theorem fillStores_drains {k m : Nat} (h : c.xwrs = [x]) (hlen : x.len = 64 * (k + 1)) (hroom : c.stores.length + k < storeDepth)
    (hm : k < m) : (fillStores n m c).xwrs = [] ∧ (fillStores n m c).stores = c.stores ++ (List.range (k + 1)).map (xwrGranule n c x) := by
  induction k generalizing c x m with
  | zero =>
    obtain ⟨m, rfl⟩ : ∃ j, m = j + 1 := ⟨m - 1, by omega⟩
    have hlast : (fillOneGranule n c x).xwrs = [] := if_pos (by omega)
    rw [fillStores_takes m h hroom, fillStores_none m hlast]
    exact ⟨hlast, rfl⟩
  | succ k ih =>
    obtain ⟨m, rfl⟩ : ∃ j, m = j + 1 := ⟨m - 1, by omega⟩
    have hstores : (fillOneGranule n c x).stores = c.stores ++ [xwrGranule n c x 0] := rfl
    have hmore : (fillOneGranule n c x).xwrs = [xwrRest x] := if_neg (by omega)
    have hrest : (xwrRest x).len = 64 * (k + 1) := (xwrRest_len x).trans (by omega)
    have hroom' : (fillOneGranule n c x).stores.length + k < storeDepth := by
      rw [hstores, List.length_append, List.length_singleton]
      omega
    obtain ⟨hx, hs⟩ := ih hmore hrest hroom' (Nat.lt_of_succ_lt_succ hm)
    rw [fillStores_takes m h (by omega)]
    refine ⟨hx, hs.trans ?_⟩
    conv_rhs => rw [List.range_succ_eq_map, List.map_cons, List.map_map]
    rw [hstores, List.append_assoc]
    rw [funext xwrGranule_rest]
    rfl

/-- An XWR of at most 64 granules into an empty store queue is copied whole. -/
theorem queueXwr_copies {dpa a len k cls : Nat} (hs : c.stores = []) (hx : c.xwrs = []) (hlen : len = 64 * k) (hk : k ≤ 64) :
    (queueXwr n c none dpa a len cls).xwrs = [] ∧ (queueXwr n c none dpa a len cls).stores = (List.range k).map fun i =>
      { dpa := dpa + 64 * i, data := spadRead n c (a + 64 * i) 64, poison := spadPoisoned c (a + 64 * i) 64, cls := cls, peer := none,
        whole := dpa % 4096 == 0 && len % 4096 == 0, seq := c.seq } := by
  unfold queueXwr
  dsimp only
  cases k with
  | zero =>
    rw [if_pos (by omega), fillStores_none _ hx]
    exact ⟨hx, hs⟩
  | succ k =>
    rw [if_neg (by omega)]
    obtain ⟨hxwrs, hstores⟩ := fillStores_drains (n := n) (m := storeDepth) (c := { c with xwrs := c.xwrs ++
        [{ src := a, dpa := dpa, len := len, cls := cls, peer := none, whole := dpa % 4096 == 0 && len % 4096 == 0, seq := c.seq }] })
      (by rw [hx]; rfl) hlen (by rw [hs, storeDepth, List.length_nil]; omega) (by rw [storeDepth]; omega)
    exact ⟨hxwrs, hstores.trans (by rw [hs]; rfl)⟩

end

/-! ### XRD, XWR and XEXP (R226 to R228) -/

section
variable {s : State} {n a g d len dpa : Nat} {f : Fields}

section
variable (h : Issues s n (wordOf 0xC0 f) [fA f, fB f, fC f] []) (hf : FabricFree s n)
  (hw : MayWrite s n (xget (coreOf s n) (fA f)).toNat (xget (coreOf s n) (fC f)).toNat)
include h hf hw

theorem xrd_queues (ha : (xget (coreOf s n) (fA f)).toNat % 64 = 0) (hg : (xget (coreOf s n) (fB f)).toNat % 64 = 0)
    (hl : (xget (coreOf s n) (fC f)).toNat % 64 = 0)
    (hb : (xget (coreOf s n) (fA f)).toNat + (xget (coreOf s n) (fC f)).toNat ≤ spadSize)
    (ht : targetOf (issued s n) (xget (coreOf s n) (fB f)).toNat = .here dpa) :
    exec (.xrd n f) s = .next (setCore (issued s n) n (placed { coreOf s n with xfers := (coreOf s n).xfers ++
      [{ dst := (xget (coreOf s n) (fA f)).toNat, src := dpa, len := (xget (coreOf s n) (fC f)).toNat, cls := immBits f 1 0, expand := none,
         seq := (coreOf s n).seq }] })) := by
  refine congrArg Host.Outcome.next ((afterReads_mayWrite (by rfl) hw).trans ((fabricExec_issues (reads := fun _ => []) h hf).trans ?_))
  refine (if_neg (aligned_triple ha hg hl)).trans ((if_neg (Nat.not_lt.2 hb)).trans ?_)
  rw [ht]

theorem xrd_misaligned (hm : (xget (coreOf s n) (fA f)).toNat % 64 ≠ 0 ∨ (xget (coreOf s n) (fB f)).toNat % 64 ≠ 0 ∨
      (xget (coreOf s n) (fC f)).toNat % 64 ≠ 0) :
    exec (.xrd n f) s = .next (coreFault (issued s n) n cMisaligned none (some (xget (coreOf s n) (fA f)).toNat)) :=
  congrArg Host.Outcome.next ((afterReads_mayWrite (by rfl) hw).trans ((fabricExec_issues (reads := fun _ => []) h hf).trans
    (if_pos (by simpa [misaligned] using hm))))

end

section
variable (h : Issues s n (wordOf 0xC1 f) [fA f, fB f, fC f] [((xget (coreOf s n) (fB f)).toNat, (xget (coreOf s n) (fC f)).toNat)])
  (hf : FabricFree s n) (ha : (xget (coreOf s n) (fB f)).toNat % 64 = 0) (hg : (xget (coreOf s n) (fA f)).toNat % 64 = 0)
  (hl : (xget (coreOf s n) (fC f)).toNat % 64 = 0)
  (hb : (xget (coreOf s n) (fB f)).toNat + (xget (coreOf s n) (fC f)).toNat ≤ spadSize)
  (ht : targetOf (issued s n) (xget (coreOf s n) (fA f)).toNat = .here dpa)
include h hf ha hg hl hb ht

theorem xwr_here : exec (.xwr n f) s = .next
    (if foldedRefusal (issued s n) dpa (xget (coreOf s n) (fC f)).toNat then
      coreFault (issued s n) n cAddress (some St.foldPartial) (some (xget (coreOf s n) (fA f)).toNat)
    else setCore (issued s n) n (placed (queueXwr n (coreOf s n) none dpa (xget (coreOf s n) (fB f)).toNat
      (xget (coreOf s n) (fC f)).toNat (immBits f 1 0)))) := by
  refine congrArg Host.Outcome.next ((fabricExec_issues
    (reads := fun c => [((xget c (fB f)).toNat, (xget c (fC f)).toNat)]) h hf).trans ?_)
  refine (if_neg (aligned_triple ha hg hl)).trans ((if_neg (Nat.not_lt.2 hb)).trans ?_)
  rw [ht]

end

theorem startExpand_fst (rq : Requester) (k cls : Nat) (dest : ExpandDest) (q : Option (Nat × Nat)) :
    (startExpand s rq d k dest cls q).1 = s.fold.nextReq := rfl

theorem xexp_starts {k : Nat} (h : Issues s n (wordOf 0xC2 f) [fA f, fB f, fC f] []) (hf : FabricFree s n)
    (ha' : a = (xget (coreOf s n) (fA f)).toNat) (hd' : d = (xget (coreOf s n) (fB f)).toNat) (hk' : k = (xget (coreOf s n) (fC f)).toNat)
    (hw : MayWrite s n a (4096 * k)) (ha : a % 64 = 0) (hd : d % 64 = 0) (hk : 1 ≤ k) (hk384 : k ≤ 384) (hb : a + 4096 * k ≤ spadSize)
    (hst : slotsStatus (issued s n) (coreRq (issued s n) n) d k = St.ok)
    (hold : olderTouches (issued s n) (coreOf s n) (coreOf s n).seq none d (4096 * k) = false) :
    exec (.xexp n f) s = .next (prog (setCore (startExpand (issued s n) (coreRq (issued s n) n) d k (.scratch n a) 1 none).2 n
      (placed { coreOf s n with xfers := (coreOf s n).xfers ++
        [{ dst := a, src := d, len := 4096 * k, cls := 1, expand := some (issued s n).fold.nextReq, seq := (coreOf s n).seq }] }))
      n 7 (corePart (issued s n) n) none k) := by
  subst ha' hd' hk'
  refine congrArg Host.Outcome.next ((afterReads_mayWrite (by rfl) hw).trans ((fabricExec_issues (reads := fun _ => []) h hf).trans ?_))
  refine (if_neg (aligned_pair ha hd)).trans ((if_neg (by omega)).trans ((if_neg (by omega)).trans ((if_neg (not_not.2 hst)).trans
    ((if_neg (ne_true_of_eq_false hold)).trans ?_))))
  dsimp only
  rw [startExpand_fst, corePart_issued]

/-! ### FOLD (R211, R228) -/

section
variable (h : Issues s n (wordOf 0xC3 f) [fA f, fB f, fC f] [((xget (coreOf s n) (fB f)).toNat, 4096)]) (hf : FabricFree s n)
  (hw : MayWrite s n (xget (coreOf s n) (fA f)).toNat 4096) (ha : (xget (coreOf s n) (fA f)).toNat % 64 = 0)
  (hb : (xget (coreOf s n) (fB f)).toNat % 64 = 0) (hbb : (xget (coreOf s n) (fB f)).toNat + 4096 ≤ spadSize)
include h hf hw ha hb hbb

theorem fold_unloaded (hid : mfind (issued s n).fold.basis (immBits f 11 0) = none) :
    exec (.fold n f) s = .next (coreFault (issued s n) n cFoldEncode none none) := by
  refine congrArg Host.Outcome.next ((afterReads_mayWrite (by rfl) hw).trans ((fabricExec_issues
    (reads := fun c => [((xget c (fB f)).toNat, 4096)]) h hf).trans ?_))
  refine (if_neg (aligned_pair ha hb)).trans ((if_neg (Nat.not_lt.2 hbb)).trans ?_)
  rw [hid]

/-- A FOLD whose table is fetched and whose tile encodes writes the block and its rank. -/
theorem fold_encodes {v : State} {w : Basis} {t out : List Byte} {r : Nat}
    (hid : mfind (issued s n).fold.basis (immBits f 11 0) = some w) (hrank : immBits f 23 18 ≤ w.rank) (hcoef : immBits f 17 16 ≤ 2)
    (ht : (fetchBasis (issued s n) w.dpa).1 = some t) (hv : v = (fetchBasis (issued s n) w.dpa).2)
    (hout : foldTile (spadRead n (coreOf s n) (xget (coreOf s n) (fB f)).toNat 4096) w (immBits f 11 0) t (immBits f 15 12)
      (immBits f 17 16) (immBits f 23 18) ((xget (coreOf s n) (fC f)).toNat % 2 ^ 32) = some (out, r))
    (hab : (xget (coreOf s n) (fA f)).toNat + out.length ≤ spadSize) :
    exec (.fold n f) s = .next (bumpO (setCore v n (advance (xset (spadWrite (coreOf s n) (xget (coreOf s n) (fA f)).toNat out
      (spadPoisoned (coreOf s n) (xget (coreOf s n) (fB f)).toNat 4096)) (fC f) (BitVec.ofNat 64 r)))) (corePart v n) 3 (2 * r + 16)) := by
  have hfetch : fetchBasis (issued s n) w.dpa = (some t, v) := Prod.ext ht hv.symm
  have hpart : corePart v n = corePart (issued s n) n := corePart_of_cpu (hv ▸ fetchBasis_cpu ..) n
  refine congrArg Host.Outcome.next ((afterReads_mayWrite (by rfl) hw).trans ((fabricExec_issues
    (reads := fun c => [((xget c (fB f)).toNat, 4096)]) h hf).trans ?_))
  refine (if_neg (aligned_pair ha hb)).trans ((if_neg (Nat.not_lt.2 hbb)).trans ?_)
  rw [hid]
  refine (if_neg (by omega)).trans ?_
  rw [hfetch]
  dsimp only
  rw [hout]
  exact (if_neg (Nat.not_lt.2 hab)).trans (by rw [hpart])

end

/-! ### Contributions (R226, R227) -/

section
variable {fetching : Bool}
  (h : Issues s n (wordOf (if fetching then 0xC5 else 0xC4) f) [fA f, fB f, fC f] [((xget (coreOf s n) (fB f)).toNat, 64)])
  (hf : FabricFree s n) (hg : (xget (coreOf s n) (fA f)).toNat % 64 = 0) (ha : (xget (coreOf s n) (fB f)).toNat % 64 = 0)
  (hb : (xget (coreOf s n) (fB f)).toNat + 64 ≤ spadSize)
include h hf hg ha hb

theorem atomIssue_enters (hord : immBits f 8 8 = 0) : atomIssue n f s fetching = prog (setCore (issued s n) n (placed { coreOf s n with
    contribs := (coreOf s n).contribs ++ [{
      con := ⟨(xget (coreOf s n) (fA f)).toNat, immBits f 7 0, (xget (coreOf s n) (fC f)).setWidth 32,
        spadRead n (coreOf s n) (xget (coreOf s n) (fB f)).toNat 64, spadPoisoned (coreOf s n) (xget (coreOf s n) (fB f)).toNat 64, none⟩,
      fetching := fetching, at_ := (xget (coreOf s n) (fB f)).toNat, prior := none, seq := (coreOf s n).seq }] }))
    n 8 (corePart (issued s n) n) none 1 := by
  refine (fabricExec_issues (reads := fun c => [((xget c (fB f)).toNat, 64)]) h hf).trans ?_
  dsimp only
  rw [if_neg (aligned_pair hg ha), if_neg (Nat.not_lt.2 hb), if_neg (by simp [hord]), if_neg (by simp [hord])]

theorem atomIssue_ordered (hfetch : fetching = true) (hord : immBits f 8 8 = 1) : atomIssue n f s fetching =
    coreFault (issued s n) n cAddress (some St.arithFormat) (some (xget (coreOf s n) (fA f)).toNat) := by
  refine (fabricExec_issues (reads := fun c => [((xget c (fB f)).toNat, 64)]) h hf).trans ?_
  dsimp only
  rw [if_neg (aligned_pair hg ha), if_neg (Nat.not_lt.2 hb), if_pos (by simp [hord, hfetch])]

end

/-! ### FENCE, TSIG and TWAIT (R226, R240) -/

theorem fence_sets (h : Issues s n (wordOf 0xC6 f) [] []) (hf : FabricFree s n) :
    Sets (.fence n f) s n { coreOf s n with fence := !coreQuiet (issued s n) n } :=
  congrArg Host.Outcome.next (fabricExec_issues (reads := fun _ => []) h hf)

theorem tsig_holds (h : Issues s n (wordOf 0xC7 f) [fA f, fB f] []) (hf : FabricFree s n)
    (hg : (xget (coreOf s n) (fA f)).toNat % 64 = 0) :
    exec (.tsig n f) s = .next (coreSettle (setCore (issued s n) n (advance { coreOf s n with
      tsigs := [((xget (coreOf s n) (fA f)).toNat, (xget (coreOf s n) (fB f)).setWidth 32, immBits f 0 0 == 1)] })) n) :=
  congrArg Host.Outcome.next ((fabricExec_issues (reads := fun _ => []) h hf).trans (if_neg (aligned_one hg)))

section
variable {k : Nat} (h : Issues s n (wordOf 0xC8 f) [fA f, fB f, fC f] []) (hf : FabricFree s n)
  (hg : (xget (coreOf s n) (fB f)).toNat % 64 = 0) (ht : targetOf (issued s n) (xget (coreOf s n) (fB f)).toNat = .here d)
  (hk : tallyAt d = some k)
include h hf hg ht hk

theorem twait_waits {w : CoreWait} (hres : underReset (issued s n) (tallyQuad k) = false)
    (hw : w = { reg := f.a, tally := k, target := (xget (coreOf s n) (fC f)).setWidth 32, eq := immBits f 0 0 == 1,
                deadline := if immBits f 31 1 = 0 then none
                  else some (BitVec.ofNat 64 (min (2 ^ 64 - 1) ((stamp s).toNat + immBits f 31 1))) })
    (hnot : waitHolds (tallyGet s k) w.target w.eq = false) :
    exec (.twait n f) s = .next (setCore (blot (issued s n) n 6 (corePart (issued s n) n) (waitBeginArg k w.eq w.target)) n
      (advance { coreOf s n with twait := some w })) := by
  have htally (c : Core) (x : Nat) :
      tallyGet (setCore (blot (issued s n) n 6 (corePart (issued s n) n) x) n c) k = tallyGet s k :=
    (tallyGet_setCore ..).trans (tallyGet_of_cpu ((blot_cpu ..).trans (issued_cpu ..)) k)
  subst hw
  refine congrArg Host.Outcome.next ((fabricExec_issues (reads := fun _ => []) h hf).trans ((if_neg (aligned_one hg)).trans ?_))
  rw [ht]
  dsimp only
  rw [hk]
  dsimp only
  rw [if_neg (ne_true_of_eq_false hres), htally, stamp_issued, if_neg (ne_true_of_eq_false hnot)]

theorem twait_reset (hres : underReset (issued s n) (tallyQuad k) = true) :
    exec (.twait n f) s = .next (coreFault (issued s n) n cDestReset (some St.destReset) (some (xget (coreOf s n) (fB f)).toNat)) := by
  refine congrArg Host.Outcome.next ((fabricExec_issues (reads := fun _ => []) h hf).trans ((if_neg (aligned_one hg)).trans ?_))
  rw [ht]
  dsimp only
  rw [hk]
  exact if_pos hres

end

/-! ### LCLAIM (R246) -/

/-- What a claim reports of its result: a trace record and a programmable event of its ledger (R433, R448). -/
def claimSaid (s : State) (p l n result held : Nat) : State :=
  prog (blot s (ledgerUnit p l) 9 (some p) (n + result * 2 ^ 16 + held % 65536 * 2 ^ 32)) (ledgerUnit p l) (result + 1) (some p) none 1

section
variable (p l m result held : Nat)

@[simp] theorem claimSaid_cpu : (claimSaid s p l m result held).cpu = s.cpu := (prog_cpu ..).trans (blot_cpu ..)

@[simp] theorem claimSaid_mem : (claimSaid s p l m result held).mem = s.mem := (prog_mem ..).trans (blot_mem ..)

end

section
variable {p : Nat} (h : Issues s n (wordOf 0xC9 f) [fA f, fB f] []) (hf : FabricFree s n)
  (hw : MayWrite s n (xget (coreOf s n) (fB f)).toNat 32) (ha : (xget (coreOf s n) (fB f)).toNat % 64 = 0)
  (hb : (xget (coreOf s n) (fB f)).toNat + 32 ≤ spadSize) (hp : corePart (issued s n) n = some p)
  (hconf : (ledgerOf (issued s n) p (immBits f 2 0)).configured = true)
include h hf hw ha hb hp hconf

/-- LCLAIM of a configured ledger takes the descriptor that `claimDesc` chooses, or reports that there is none. -/
theorem lclaim_issues : exec (.lclaim n f) s = .next
    (match claimDesc (ledgerOf s p (immBits f 2 0)).descs with
    | some x => bump (claimSaid (setCore (setLedger (issued s n) p (immBits f 2 0) { ledgerOf s p (immBits f 2 0) with
          descs := (ledgerOf s p (immBits f 2 0)).descs.erase x, served := (ledgerOf s p (immBits f 2 0)).served + 1 }) n
        (advance (xset (spadWrite (coreOf s n) (xget (coreOf s n) (fB f)).toNat x.bytes false) (fA f) 0)))
          p (immBits f 2 0) n 0 ((ledgerOf s p (immBits f 2 0)).descs.length - 1)) p 35 1
    | none => claimSaid (setCore (issued s n) n (advance (xset (coreOf s n) (fA f)
        (BitVec.ofNat 64 (if (ledgerOf s p (immBits f 2 0)).sealed then 2 else 1)))))
          p (immBits f 2 0) n (if (ledgerOf s p (immBits f 2 0)).sealed then 2 else 1) 0) := by
  refine congrArg Host.Outcome.next ((afterReads_mayWrite (by rfl) hw).trans ((fabricExec_issues (reads := fun _ => []) h hf).trans
    ((if_neg (aligned_one ha)).trans ((if_neg (Nat.not_lt.2 hb)).trans ?_))))
  dsimp only
  rw [hp, Option.getD_some]
  refine (if_neg (by rw [hconf]; decide)).trans ?_
  rw [ledgerOf_issued]
  unfold claimSaid
  cases claimDesc (ledgerOf s p (immBits f 2 0)).descs <;> rfl

theorem lclaim_claims {x : Desc} (hx : claimDesc (ledgerOf (issued s n) p (immBits f 2 0)).descs = some x) :
    ∃ t, exec (.lclaim n f) s = .next t ∧
      coreOf t n = advance (xset (spadWrite (coreOf s n) (xget (coreOf s n) (fB f)).toNat x.bytes false) (fA f) 0) ∧
      ledgerOf t p (immBits f 2 0) = { ledgerOf s p (immBits f 2 0) with
        descs := (ledgerOf s p (immBits f 2 0)).descs.erase x, served := (ledgerOf s p (immBits f 2 0)).served + 1 } ∧
      t.mem = s.mem := by
  refine ⟨_, lclaim_issues h hf hw ha hb hp hconf, ?_⟩
  rw [ledgerOf_issued] at hx
  rw [hx]
  dsimp only
  have hcpu (u : State) (held : Nat) : (bump (claimSaid u p (immBits f 2 0) n 0 held) p 35 1).cpu = u.cpu :=
    (bump_cpu ..).trans (claimSaid_cpu ..)
  refine ⟨?_, ?_, ?_⟩
  · rw [coreOf_of_cpu _ n (hcpu _ _), coreOf_setCore]
  · rw [ledgerOf_of_cpu (hcpu _ _), ledgerOf_setCore, ledgerOf_setLedger]
  · rw [bump_mem, claimSaid_mem, setCore_mem, setLedger_mem, issued_mem]

theorem lclaim_empty (hx : (ledgerOf (issued s n) p (immBits f 2 0)).descs = []) :
    ∃ t, exec (.lclaim n f) s = .next t ∧ t.mem = s.mem ∧ t.cpu.parts = s.cpu.parts ∧
      coreOf t n = advance (xset (coreOf s n) (fA f) (if (ledgerOf s p (immBits f 2 0)).sealed then 2 else 1)) := by
  have hnone : claimDesc (ledgerOf s p (immBits f 2 0)).descs = none := by
    rw [ledgerOf_issued] at hx
    rw [hx]
    rfl
  refine ⟨_, lclaim_issues h hf hw ha hb hp hconf, ?_⟩
  rw [hnone]
  dsimp only
  refine ⟨?_, ?_, ?_⟩
  · rw [claimSaid_mem, setCore_mem, issued_mem]
  · rw [claimSaid_cpu, setCore_parts, issued_cpu]
  · refine (coreOf_of_cpu _ n (claimSaid_cpu ..)).trans ((coreOf_setCore ..).trans ?_)
    split <;> rfl

end

theorem fenced_waits (h : (coreOf s n).fence = true) :
    exec (.xrd n f) s = .next s ∧ exec (.tsig n f) s = .next s ∧ exec (.lclaim n f) s = .next s :=
  ⟨congrArg Host.Outcome.next ((congrArg (afterReads n _ s) (fabricExec_fenced h)).trans afterReads_same),
    congrArg Host.Outcome.next (fabricExec_fenced h),
    congrArg Host.Outcome.next ((congrArg (afterReads n _ s) (fabricExec_fenced h)).trans afterReads_same)⟩

end

/-- Settles O42, from the condition under which the fabric unit takes an instruction and, for XWR, the store queue's induction over the
granules that it copies. -/
theorem fabricRows : Obligations.FabricRows := by
  unfold Obligations.FabricRows
  refine ⟨?xrd, ?xrdMisaligned, ?xwr, fun c n dpa a len k hs hx hlen hk => queueXwr_copies hs hx hlen hk, ?xwrFolded, ?xexp, ?fold,
    ?foldUnloaded, ?atom, ?atomOrdered, fun s n f => fence_sets, ?tsig, ?twait, ?twaitReset, ?lclaim, ?lclaimEmpty,
    fun s n f => fenced_waits⟩
  case xrd =>
    rintro s n _ _ _ dpa f h hf rfl rfl rfl hw ha hg hl hb ht
    exact xrd_queues h hf hw ha hg hl hb ht
  case xrdMisaligned =>
    rintro s n _ f h hf rfl hw hm
    exact xrd_misaligned h hf hw hm
  case xwr =>
    rintro s n _ _ _ dpa f rfl rfl rfl h hf ha hg hl hb ht hfold
    rw [xwr_here h hf ha hg hl hb ht, if_neg (ne_true_of_eq_false hfold)]
  case xwrFolded =>
    rintro s n _ _ _ dpa f rfl rfl rfl h hf ha hg hl hb ht hfold
    rw [xwr_here h hf ha hg hl hb ht, if_pos hfold]
  case xexp =>
    intro s n a d k f h hf ha' hd' hk' hw ha hd hk hk384 hb hst hold
    exact xexp_starts h hf ha' hd' hk' hw ha hd hk hk384 hb hst hold
  case fold =>
    rintro s v n _ _ r f w t out rfl rfl h hf hw ha hb hbb hid hrank hcoef ht hv hout hab
    exact fold_encodes h hf hw ha hb hbb hid hrank hcoef ht hv hout hab
  case foldUnloaded =>
    rintro s n _ _ f rfl rfl h hf hw ha hb hbb hid
    exact fold_unloaded h hf hw ha hb hbb hid
  case atom =>
    rintro s n k _ _ f op b w rfl rfl hmem h hf hg ha hb hord rfl
    simp only [List.mem_cons, Prod.mk.injEq, List.not_mem_nil, or_false] at hmem
    rcases hmem with ⟨rfl, rfl, rfl⟩ | ⟨rfl, rfl, rfl⟩
    · exact congrArg Host.Outcome.next (atomIssue_enters (fetching := false) h hf hg ha hb hord)
    · exact congrArg Host.Outcome.next (atomIssue_enters (fetching := true) h hf hg ha hb hord)
  case atomOrdered =>
    rintro s n _ _ f rfl rfl h hf hg ha hb hord
    exact congrArg Host.Outcome.next (atomIssue_ordered (fetching := true) h hf hg ha hb rfl hord)
  case tsig =>
    rintro s n _ f h hf rfl hg
    exact tsig_holds h hf hg
  case twait =>
    rintro s n _ d k f w h hf rfl hg ht hk hres hw hnot
    exact twait_waits h hf hg ht hk hres hw hnot
  case twaitReset =>
    rintro s n _ d k f h hf rfl hg ht hk hres
    exact twait_reset h hf hg ht hk hres
  case lclaim =>
    rintro s n _ p _ f x h hf rfl hw ha hb hp rfl hconf hx
    exact lclaim_claims h hf hw ha hb hp hconf hx
  case lclaimEmpty =>
    rintro s n _ p _ f h hf rfl hw ha hb hp rfl hconf hx
    exact lclaim_empty h hf hw ha hb hp hconf hx

end Sys2Proof.Machine
end

section
/-! PROOFS. Fabric instructions as they end, and writes of tallies (R227, R238 to R240): the settling of signals, the oldest transfer, the
waits of FENCE, TSIG and TWAIT, and a tally that no waiter watches; then O43. -/

namespace Sys2Proof.Machine

/-! ### Signals and faults of a core (R240, R248) -/

section
variable {s : State} {n : Nat}

@[simp] theorem targetOf_setCore (c : Core) (g : Nat) : targetOf (setCore s n c) g = targetOf s g := rfl

@[simp] theorem underReset_setCore (c : Core) (q : Nat) : underReset (setCore s n c) q = underReset s q := rfl

@[simp] theorem corePart_setCore (c : Core) (m : Nat) : corePart (setCore s n c) m = corePart s m := rfl

theorem fabricFault_running {st a : Nat} (h : (coreOf s n).run = .running) :
    fabricFault s n st a = coreFault s n (causeOf st) (some st) (some a) := if_neg (by simp [h])

theorem coreSettle_busy (h : coreQuiet s n = false) : coreSettle s n = s := by
  unfold coreSettle
  dsimp only
  split
  · exact if_neg (ne_true_of_eq_false h)
  · rfl

theorem coreSettle_signals {g k : Nat} {v : BitVec 32} {b : Bool} (hsig : (coreOf s n).tsigs = [(g, v, b)])
    (hquiet : coreQuiet s n = true) (ht : targetOf s g = .here g) (hk : tallyAt g = some k) (hr : underReset s (tallyQuad k) = false) :
    coreSettle s n = tallySignalAs (setCore s n { coreOf s n with tsigs := [] }) k v b n (corePart s n) := by
  have hsettle : coreSettle s n = coreSignal (setCore s n { coreOf s n with tsigs := [] }) n g v b := by
    unfold coreSettle
    dsimp only
    rw [hsig]
    exact if_pos hquiet
  rw [hsettle, coreSignal, targetOf_setCore, ht]
  dsimp only
  rw [hk]
  dsimp only
  rw [underReset_setCore, hr, corePart_setCore, if_neg (by decide)]

end

/-! ### The oldest XRD and XEXP (R227, R228) -/

section
variable {s : State} {n : Nat}

theorem transfers_none (h : (coreOf s n).xfers = []) : exec (.xrdComplete n) s = .next s ∧ exec (.xexpComplete n) s = .next s := by
  constructor
  · refine congrArg Host.Outcome.next ?_
    rw [h, List.find?_nil]
  · refine congrArg Host.Outcome.next ?_
    rw [h, List.find?_nil]

section
variable {x : Transfer} (h : (coreOf s n).xfers = [x])
include h

section
variable (hx : x.expand = none)
include hx

theorem oldestXrd : (coreOf s n).xfers.find? (fun x => x.expand.isNone) = some x := by
  rw [h]
  exact List.find?_cons_of_pos (by rw [hx]; rfl)

section
variable (hr : x.remote = false)
include hr

theorem xrd_waits (hw : olderTouches s (coreOf s n) x.seq none x.src x.len = true ∨
      accessWaits s (coreRq s n) false x.src x.len x.cls = true) : exec (.xrdComplete n) s = .next s := by
  refine congrArg Host.Outcome.next ?_
  rw [oldestXrd h hx]
  dsimp only
  rw [hr, if_neg (by decide), if_pos (by simpa using hw)]

variable (hold : olderTouches s (coreOf s n) x.seq none x.src x.len = false)
  (hwait : accessWaits s (coreRq s n) false x.src x.len x.cls = false)
include hold hwait

theorem xrd_reads {st : Nat} {l : List (List Byte × Bool)} {v : State}
    (hread : readGranules s (coreRq s n) x.src x.len x.cls = (st, l, v)) : exec (.xrdComplete n) s = .next
    (if st ≠ St.ok then fabricFault (setCore v n { coreOf v n with xfers := (coreOf v n).xfers.erase x }) n st x.src
    else coreSettle (prog (setCore v n (spadFill { coreOf v n with xfers := (coreOf v n).xfers.erase x } x.dst l)) n 6
      (corePart s n) none x.len) n) := by
  refine congrArg Host.Outcome.next ?_
  rw [oldestXrd h hx]
  dsimp only
  rw [hr, if_neg (by decide), hold, hwait, if_neg (by decide), hread]

end

theorem xrd_answered (hr : x.remote = true) (hrem : s.duc.remotes = []) :
    exec (.xrdComplete n) s = .next (coreSettle (setCore s n { coreOf s n with xfers := [] }) n) := by
  refine congrArg Host.Outcome.next ?_
  rw [oldestXrd h hx]
  dsimp only
  rw [hr, if_pos rfl, hrem, if_neg (by simp), h, List.erase_cons_head]

end

section
variable {i : Nat} {r : ExpandReq} (hx : x.expand = some i) (hreq : mfind s.fold.reqs i = some r)
include hx

theorem oldestXexp : (coreOf s n).xfers.find? (fun x => x.expand.isSome) = some x := by
  rw [h]
  exact List.find?_cons_of_pos (by rw [hx]; rfl)

include hreq

theorem xexp_pending (hl : r.left ≠ 0) : exec (.xexpComplete n) s = .next s := by
  refine congrArg Host.Outcome.next ?_
  rw [oldestXexp h hx]
  dsimp only
  rw [hx, Option.getD_some, hreq]
  exact if_pos hl

theorem xexp_ends (hl : r.left = 0) : exec (.xexpComplete n) s = .next
    (if r.status.toNat ≠ St.ok then
      fabricFault { setCore s n { coreOf s n with xfers := [] } with fold.reqs := mdel s.fold.reqs i } n r.status.toNat x.src
    else coreSettle { setCore s n { coreOf s n with xfers := [] } with fold.reqs := mdel s.fold.reqs i } n) := by
  refine congrArg Host.Outcome.next ?_
  rw [oldestXexp h hx]
  dsimp only
  rw [hx, Option.getD_some, hreq]
  dsimp only
  rw [if_neg (not_not.2 hl), h, List.erase_cons_head]

end
end

/-! ### FATOM, FENCE and TWAIT end (R226, R240) -/

theorem fatom_returns {x : CoreContrib} {b : List Byte} (h : (coreOf s n).contribs = [x]) (hb : x.prior = some b) :
    exec (.fatomComplete n) s = .next (coreSettle (setCore s n (spadWrite { coreOf s n with contribs := [] } x.at_ b false)) n) := by
  have hfind : (coreOf s n).contribs.find? (fun x => x.prior.isSome) = some x := by
    rw [h]
    exact List.find?_cons_of_pos (by rw [hb]; rfl)
  refine congrArg Host.Outcome.next ?_
  rw [hfind]
  dsimp only
  rw [h, List.erase_cons_head, hb, Option.getD_some]

theorem fatom_none (h : (coreOf s n).contribs = []) : exec (.fatomComplete n) s = .next s := by
  refine congrArg Host.Outcome.next ?_
  rw [h, List.find?_nil]

theorem fence_ends (hf : (coreOf s n).fence = true) (hq : coreQuiet s n = true) :
    exec (.fenceComplete n) s = .next (setCore s n { coreOf s n with fence := false }) :=
  congrArg Host.Outcome.next (if_pos (by rw [hf, hq]; rfl))

theorem fence_stays (hq : coreQuiet s n = false) : exec (.fenceComplete n) s = .next s :=
  congrArg Host.Outcome.next (if_neg (by simp [hq]))

section
variable {w : CoreWait} {d : Stamp} (hw : (coreOf s n).twait = some w) (hd : w.deadline = some d)
include hw hd

theorem twaitTimeout_eq : exec (.twaitTimeout n) s = .next (if d.toNat ≤ (stamp s).toNat then endCoreWait s n w 1 else s) := by
  refine congrArg Host.Outcome.next ?_
  rw [hw]
  dsimp only
  rw [hd]

end

/-- The register of a TWAIT that has ended holds its result, and the core waits no more. -/
theorem endCoreWait_result {w : CoreWait} (r : Nat) (hreg : w.reg ≠ 0) :
    xget (coreOf (endCoreWait s n w r) n) w.reg.toNat = BitVec.ofNat 64 r ∧ (coreOf (endCoreWait s n w r) n).twait = none := by
  have hcore : coreOf (endCoreWait s n w r) n = xset { coreOf s n with twait := none } w.reg.toNat (BitVec.ofNat 64 r) :=
    (coreOf_of_cpu _ n (blot_cpu ..)).trans (coreOf_setCore ..)
  have hne : w.reg.toNat ≠ 0 := fun h => hreg (BitVec.eq_of_toNat_eq h)
  rw [hcore]
  exact ⟨xget_xset _ _ _ hne, xset_keeps _ _ _ Core.twait fun _ _ => rfl⟩

end

/-! ### A tally that no waiter watches (R238, R239) -/

section
variable {s : State}

theorem releaseWaiters_none (k : Nat) (hw : s.cpu.waiters = []) (hc : s.cpu.cores.all (fun e => e.2.twait.isNone) = true) :
    releaseWaiters s k = s := by
  unfold releaseWaiters
  dsimp only
  rw [hw, List.filter_nil, List.foldl_nil]
  refine List.foldlRecOn (motive := fun t => t = s) s.cpu.cores _ rfl fun t ht e he => ?_
  have hnone := List.all_eq_true.1 hc e he
  rw [Option.isNone_iff_eq_none] at hnone
  rw [hnone]
  exact ht

/-- The state in which a tally has taken a value, before its waiters are looked at. -/
def tallyTaken (s : State) (k : Nat) (v : BitVec 32) (isSet : Bool) (src : Nat) (part : Option Nat) : State :=
  bumpO (prog (blot { s with cpu.tallies := mput s.cpu.tallies k v } (0x5000 + tallyQuad k) 0x08 part
    (k + (if isSet then 2 ^ 15 else 0) + v.toNat * 2 ^ 16 + src * 2 ^ 48)) (0x5000 + tallyQuad k) 1 part none 1) part 36 1

section
variable (k : Nat) (v : BitVec 32) (isSet : Bool) (src : Nat) (part : Option Nat)

theorem tallySet_eq : tallySet s k v isSet src part = releaseWaiters (tallyTaken s k v isSet src part) k := rfl

theorem tallyTaken_cpu : (tallyTaken s k v isSet src part).cpu = { s.cpu with tallies := mput s.cpu.tallies k v } :=
  (bumpO_cpu ..).trans ((prog_cpu ..).trans (blot_cpu ..))

theorem tallyTaken_mem : (tallyTaken s k v isSet src part).mem = s.mem :=
  (bumpO_mem ..).trans ((prog_mem ..).trans (blot_mem ..))

/-- With no waiter a tally takes its value and no other tally changes. -/
theorem tallySet_unwatched (hw : s.cpu.waiters = []) (hc : s.cpu.cores.all (fun e => e.2.twait.isNone) = true) :
    tallyGet (tallySet s k v isSet src part) k = v ∧
    (∀ j, j ≠ k → tallyGet (tallySet s k v isSet src part) j = tallyGet s j) ∧ (tallySet s k v isSet src part).mem = s.mem := by
  rw [tallySet_eq, releaseWaiters_none k (by rw [tallyTaken_cpu, hw]) (by rw [tallyTaken_cpu, hc])]
  refine ⟨?_, fun j hj => ?_, tallyTaken_mem ..⟩
  · rw [tallyGet, tallyTaken_cpu, mget_mput]
  · rw [tallyGet, tallyTaken_cpu, mget_mput_ne _ _ _ _ _ hj, tallyGet]

/-- What arrives for frame slots changes the step block alone (R304). -/
theorem frameArrives_cpu (at_ : Stamp) : (frameArrives s k at_).cpu = s.cpu := foldl_keeps State.cpu _ _ fun _ _ => rfl

theorem frameArrives_mem (at_ : Stamp) : (frameArrives s k at_).mem = s.mem := foldl_keeps State.mem _ _ fun _ _ => rfl

/-- An ADD of an unwatched tally. -/
theorem tallyAdd_unwatched (hw : s.cpu.waiters = []) (hc : s.cpu.cores.all (fun e => e.2.twait.isNone) = true) :
    tallyGet (tallySignalAs s k v false src part) k = tallyGet s k + v ∧
    (∀ j, j ≠ k → tallyGet (tallySignalAs s k v false src part) j = tallyGet s j) ∧
    (tallySignalAs s k v false src part).mem = s.mem := by
  unfold tallySignalAs tallySignalAt
  obtain ⟨u, hu, hcpu, hmem⟩ : ∃ u : State, (if (!false && v == 1) = true then frameArrives s k (stamp s) else s) = u ∧
      u.cpu = s.cpu ∧ u.mem = s.mem := by
    refine ⟨_, rfl, ?_, ?_⟩
    · exact ite_keeps State.cpu (frameArrives_cpu ..) rfl
    · exact ite_keeps State.mem (frameArrives_mem ..) rfl
  rw [hu, if_neg (by decide)]
  obtain ⟨hval, hrest, hm⟩ := tallySet_unwatched (s := u) k (tallyGet s k + v) false src part (by rw [hcpu, hw]) (by rw [hcpu, hc])
  exact ⟨hval, fun j hj => (hrest j hj).trans (tallyGet_of_cpu hcpu j), hm.trans hmem⟩

end
end

/-! ### A firmware write to a tally's window (R238) -/

section
variable {s : State} {k a : Nat}

theorem ofNat_leBytes (v : BitVec 32) : BitVec.ofNat 32 (leNat (leBytes 4 v.toNat)) = v := by
  rw [leNat_leBytes, Nat.mod_eq_of_lt (show v.toNat < 256 ^ 4 from v.isLt), BitVec.ofNat_toNat, BitVec.setWidth_eq]

/-- The address of a tally's VALUE, or of its ADD four bytes above. -/
theorem whereIs_tally {off : Nat} (h : off < 0x100000) : whereIs (0x0F0200000000 + off) = .tallies off := by
  unfold whereIs
  rw [if_neg (by omega), if_neg (by omega), if_neg (by omega), if_neg (by omega), if_neg (by omega), if_neg (by omega), if_neg (by omega),
    if_neg (by omega), if_pos (by omega), Nat.add_sub_cancel_left]

theorem locate_tally {off : Nat} (h : off < 0x100000) : locate s (0x0F0200000000 + off) = none := by
  rw [locate, whereIs_tally h]

theorem tally_granule {off : Nat} (ho : off ≤ 4) : (0x0F0200000000 + 64 * k + off) / 64 * 64 = 0x0F0200000000 + 64 * k + 0 := by omega

section
variable {off : Nat} (hk : k < 16384) (ho : off ≤ 4)
include hk ho

theorem whereIs_tallyAt : whereIs (0x0F0200000000 + 64 * k + off) = .tallies (64 * k + off) := by
  rw [Nat.add_assoc, whereIs_tally (by omega)]

theorem statusAt_tally (r : Requester) : statusAt s r true (0x0F0200000000 + 64 * k + off) =
    if underReset s (tallyQuad k) then St.destReset else St.ok := by
  have hdiv : (64 * k + off) / 64 = k := by omega
  rw [statusAt, if_neg (by omega), whereIs_tallyAt hk ho]
  dsimp only
  rw [hdiv]

theorem rangeStatus_tally (r : Requester) : rangeStatus s r true (0x0F0200000000 + 64 * k + off) 4 =
    if underReset s (tallyQuad k) then St.destReset else St.ok := by
  rw [rangeStatus_within_granule s r true (by omega) (by decide), tally_granule ho, statusAt_tally hk (Nat.zero_le 4)]

theorem touchesFolded_tally : touchesFolded s (0x0F0200000000 + 64 * k + off) 4 = false := by
  rw [touchesFolded, granuleAddrs_within_granule (by omega) (by decide), tally_granule ho, List.any_cons, Nat.add_zero,
    locate_tally (by omega), List.any_nil]
  rfl

theorem charge_tally (n : Nat) : charge s .admin (0x0F0200000000 + 64 * k + off) n 1 = s := by
  rw [charge, if_neg (by decide), regFor, whereIs_tallyAt hk ho]

/-- A 32-bit firmware write within a tally's granule is the window's own, or is refused while the tally is under reset. -/
theorem writeBytes_tally {b : List Byte} (hb : b.length = 4) : writeBytes s .admin (0x0F0200000000 + 64 * k + off) b false 1 =
    if underReset s (tallyQuad k) then (St.destReset, s) else writeWindow s .admin (0x0F0200000000 + 64 * k + off) b false 1 := by
  have hst := rangeStatus_tally (s := s) hk ho .admin
  by_cases hr : underReset s (tallyQuad k) = true
  · rw [if_pos hr] at hst ⊢
    rw [writeBytes, hb, hst]
    rfl
  · rw [if_neg hr] at hst ⊢
    rw [writeBytes_within_granule (by rw [hb]; exact hst) (by rw [foldedRefusal, hb, touchesFolded_tally hk ho]; rfl) (by omega)
      (by omega), show watch s .admin 1 _ _ = s from rfl, charge_tally hk ho, writeAt]
    dsimp only
    exact Prod.ext rfl (ite_self _)

end

section
variable (hk : k < 16384) (v : BitVec 32)
include hk

theorem tallyValueWrite_open (hr : underReset s (tallyQuad k) = false) : exec (.tallyValueWrite .admin k v) s =
    .next (setReply (tallySet s k v true 0x9000 none) St.ok [] false) := by
  have hdiv : (64 * k + 0) / 64 = k := by omega
  have hmod : (64 * k + 0) % 64 = 0 := by omega
  have hwrite : writeBytes s .admin (0x0F0200000000 + 64 * k + 0) (leBytes 4 v.toNat) false 1 =
      (St.ok, tallySet s k v true 0x9000 none) := by
    rw [writeBytes_tally hk (by decide) (leBytes_length ..), hr, if_neg (by decide), writeWindow, statusAt_tally hk (by decide), hr,
      if_neg Bool.false_ne_true, if_neg (not_not.2 rfl), whereIs_tallyAt hk (by decide)]
    dsimp only
    rw [if_pos ⟨leBytes_length .., hmod⟩, hdiv, ofNat_leBytes]
    rfl
  refine congrArg Host.Outcome.next ?_
  rw [tallyWrite, ← Nat.add_zero (0x0F0200000000 + 64 * k), hwrite]

theorem tallyAddWrite_open (hr : underReset s (tallyQuad k) = false) : exec (.tallyAddWrite .admin k v) s =
    .next (setReply (tallySignalAs s k v false 0x9000 none) St.ok [] false) := by
  have hdiv : (64 * k + 4) / 64 = k := by omega
  have hmod : (64 * k + 4) % 64 = 4 := by omega
  have hwrite : writeBytes s .admin (0x0F0200000000 + 64 * k + 4) (leBytes 4 v.toNat) false 1 =
      (St.ok, tallySignalAs s k v false 0x9000 none) := by
    rw [writeBytes_tally hk (by decide) (leBytes_length ..), hr, if_neg (by decide), writeWindow, statusAt_tally hk (by decide), hr,
      if_neg Bool.false_ne_true, if_neg (not_not.2 rfl), whereIs_tallyAt hk (by decide)]
    dsimp only
    rw [if_neg (by omega), if_pos ⟨leBytes_length .., hmod⟩, hdiv, ofNat_leBytes]
    rfl
  refine congrArg Host.Outcome.next ?_
  rw [tallyWrite, hwrite]

omit hk in
/-- The answer to a write adds nothing to what the tally's signal did. -/
theorem tallyReply {u : State} {x : BitVec 32} (hval : tallyGet u k = x) (hrest : ∀ j, j ≠ k → tallyGet u j = tallyGet s j)
    (hmem : u.mem = s.mem) : tallyGet (setReply u St.ok [] false) k = x ∧
    (∀ j, j ≠ k → tallyGet (setReply u St.ok [] false) j = tallyGet s j) ∧ (setReply u St.ok [] false).mem.cells = s.mem.cells ∧
    (setReply u St.ok [] false).mem.reply = some { status := 0, data := [], poison := false } :=
  ⟨hval, hrest, (congrArg Mem.cells hmem :), rfl⟩

theorem tallyWrite_refused (hr : underReset s (tallyQuad k) = true) {off : Nat} (ho : off ≤ 4) :
    tallyWrite s .admin (0x0F0200000000 + 64 * k + off) v = setReply s St.destReset [] false := by
  rw [tallyWrite, writeBytes_tally hk ho (leBytes_length ..), if_pos hr]

end
end

/-- Settles O43: each row by its oldest pending access, and the tallies by the state that a signal leaves when nothing waits for them. -/
theorem fabricEnds : Obligations.FabricEnds := by
  unfold Obligations.FabricEnds
  refine ⟨fun s n => transfers_none, ?xrdReads, ?xrdFails, fun s n x h hx hr hw => xrd_waits h hx hr hw,
    fun s n x h hx hr hrem => xrd_answered h hx hr hrem, fun s n i x r h hx hreq hl => xexp_pending h hx hreq hl, ?xexpEnds, ?xexpFails,
    fun s n x b h hb => fatom_returns h hb, fun s n => fatom_none, fun s n => fence_ends, fun s n => fence_stays,
    fun s n => coreSettle_busy, fun s n g k v b => coreSettle_signals, ?timeout, ?early, fun s n w r _ hreg => endCoreWait_result r hreg,
    ?value, ?add, ?refused⟩
  case xrdReads =>
    intro s v n x l h hx hr hold hwait hst hl hv hxf
    rw [xrd_reads h hx hr hold hwait (Prod.ext hst (Prod.ext hl.symm hv.symm)), if_neg (by decide), hxf, List.erase_cons_head]
  case xrdFails =>
    intro s v n st x h hx hr hrun hold hwait hst hbad hv hcore
    have hread : readGranules s (coreRq s n) x.src x.len x.cls = (st, (readGranules s (coreRq s n) x.src x.len x.cls).2.1, v) :=
      Prod.ext hst.symm (Prod.ext rfl hv.symm)
    rw [xrd_reads h hx hr hold hwait hread, if_pos hbad, hcore, h, List.erase_cons_head,
      fabricFault_running (by rw [coreOf_setCore]; exact hrun)]
  case xexpEnds =>
    intro s n i x r h hx hreq hl hst
    rw [xexp_ends h hx hreq hl, hst, if_neg (by decide)]
  case xexpFails =>
    intro s n i x r h hx hreq hl hst hrun
    rw [xexp_ends h hx hreq hl, hst, if_pos (by decide), fabricFault_running]
    · rfl
    · rw [coreOf_of_cpu (setCore s n { coreOf s n with xfers := [] }) n (by rfl), coreOf_setCore]
      exact hrun
  case timeout =>
    intro s n w d hw hd hle
    rw [twaitTimeout_eq hw hd, if_pos hle]
  case early =>
    intro s n w d hw hd hlt
    rw [twaitTimeout_eq hw hd, if_neg (Nat.not_le.2 hlt)]
  case value =>
    intro s k v hk hr hw hc
    obtain ⟨hval, hrest, hmem⟩ := tallySet_unwatched (s := s) k v true 0x9000 none hw hc
    exact ⟨_, tallyValueWrite_open hk v hr, tallyReply hval hrest hmem⟩
  case add =>
    intro s k v hk hr hw hc
    obtain ⟨hval, hrest, hmem⟩ := tallyAdd_unwatched (s := s) k v 0x9000 none hw hc
    exact ⟨_, tallyAddWrite_open hk v hr, tallyReply hval hrest hmem⟩
  case refused =>
    intro s k v hk hr
    exact ⟨congrArg Host.Outcome.next (tallyWrite_refused hk v hr (Nat.zero_le 4)),
      congrArg Host.Outcome.next (tallyWrite_refused hk v hr le_rfl)⟩

end Sys2Proof.Machine
end

section
/-! PROOFS. Command queues (R234 to R237, R296): queues read back after they are set, the command in progress and its status, and how a
queue goes on; then O45. -/

namespace Sys2Proof.Machine

/-! ### Partitions and queues read back -/

section
variable (s : State) (p q : Nat)

@[simp] theorem partOf_setPart (x : Part) : partOf (setPart s p x) p = x := mget_mput ..

theorem partOf_of_cpu {v : State} (h : v.cpu = s.cpu) : partOf v p = partOf s p := by rw [partOf, h, partOf]

@[simp] theorem queueOf_setQueue (x : Queue) : queueOf (setQueue s p q x) p q = x := by
  rw [queueOf, setQueue, partOf_setPart, mget_mput]

theorem queueOf_of_cpu {v : State} (h : v.cpu = s.cpu) : queueOf v p q = queueOf s p q := by
  rw [queueOf, partOf_of_cpu s p h, queueOf]

/-- The latch bank of a queue whose command ends with a status (R427). -/
def endedLatch (status : Nat) : LatchBank :=
  { (queueOf s p q).latch with stop := stamp s, state := 2, status := BitVec.ofNat 16 status, last := counters (bump s p 33 1) p }

/-- The end of a command changes nothing of its queue but the latch. -/
theorem queueOf_latchEnd (status : Nat) :
    queueOf (latchEnd s p q status) p q = { queueOf s p q with latch := endedLatch s p q status } := by
  have hbump : queueOf (bump s p 33 1) p q = queueOf s p q := queueOf_of_cpu s p q (bump_cpu ..)
  unfold latchEnd
  dsimp only
  refine (queueOf_of_cpu _ p q ((prog_cpu ..).trans ((tracePart_cpu ..).trans ((blot_cpu ..).trans (latchProgs_cpu ..))))).trans
    ((queueOf_setQueue ..).trans ?_)
  rw [hbump]
  rfl

end

/-! ### The command in progress (R234, R235) -/

section
variable {s : State} {p q k : Nat} {c : CurCmd}

theorem qAct_runs (h : InQueue s p q k c) (f : List Byte → State → State) : qAct s p q k f = f c.bytes s := by
  obtain ⟨hcur, hcode, hbegun, hstatus, -⟩ := h
  rw [qAct, hcur]
  exact if_pos ⟨hcode, by rw [hbegun]; rfl, by rw [hstatus]; rfl⟩

/-- A status ends the command in progress and changes nothing else of it. -/
theorem queueStatus_cur {st : Nat} (hcur : (queueOf s p q).cur = some c) (hst : c.status = none) :
    (queueOf (queueStatus s p q st) p q).cur = some { c with begun := true, status := some (BitVec.ofNat 16 st) } := by
  unfold queueStatus
  dsimp only
  rw [hcur]
  dsimp only
  rw [hst, Option.isSome_none, if_neg Bool.false_ne_true]
  rw [queueOf_latchEnd, queueOf_setQueue]

end

/-! ### How a queue goes on (R236, R237) -/

section
variable {s : State} {p q : Nat} {c : CurCmd}

theorem startNext_halted (h : (queueOf s p q).halted = true) : startNext s p q = s := by
  unfold startNext
  dsimp only
  cases (queueOf s p q).quires with
  | nil => rfl
  | cons u l => exact if_pos (by rw [h]; rfl)

theorem queueAdvance_unended (hcur : (queueOf s p q).cur = some c) (hst : c.status = none) : queueAdvance s p q = s := by
  rw [queueAdvance]
  dsimp only
  rw [hcur]
  cases (queueOf s p q).quires with
  | nil => rfl
  | cons u l =>
    dsimp only
    rw [hst]

/-- A MARK_END waits for the digest that its marker names. -/
theorem queueAdvance_digestHeld (hcur : (queueOf s p q).cur = some c) (hst : c.status = some 0) (hcode : qCode c.bytes = 9)
    (hheld : markerHeld s p (BitVec.ofNat 32 (fieldN c.bytes 8 4)) = true) : queueAdvance s p q = s := by
  rw [queueAdvance]
  dsimp only
  rw [hcur]
  cases (queueOf s p q).quires with
  | nil => rfl
  | cons u l =>
    dsimp only
    rw [hst]
    exact if_pos ⟨hcode, rfl, hheld⟩

section
variable {u : Quire} {l : List Quire} {st : BitVec 16} (hcur : (queueOf s p q).cur = some c) (hq : (queueOf s p q).quires = u :: l)
  (hst : c.status = some st) (hsig : qSignal c.bytes = false)
include hcur hq hst hsig

/-- A command that has ended, signals nothing and names no digest leaves its queue halted, at its next command or at its next quire. -/
theorem queueAdvance_ended (hmark : ¬(qCode c.bytes = 9 ∧ st = 0)) : queueAdvance s p q =
    if (if st = 0 then St.ok else st.toNat) ≠ St.ok ∧ (!qContinue c.bytes) = true then
      quireEnds (setQueue s p q { queueOf s p q with
        cur := none, halted := true, haltStatus := BitVec.ofNat 16 (if st = 0 then St.ok else st.toNat) })
          p q u (if st = 0 then St.ok else st.toNat)
    else if c.index + 1 < u.count then startNext (setQueue s p q { queueOf s p q with cur := none, next := c.index + 1 }) p q
    else startNext (quireEnds
      (setQueue s p q { queueOf s p q with cur := none, next := 0, quires := l, haltStatus := 0 }) p q u St.ok) p q := by
  rw [queueAdvance]
  dsimp only
  rw [hcur, hq]
  dsimp only
  rw [hst]
  dsimp only
  rw [if_neg fun h => hmark ⟨h.1, h.2.1⟩, if_neg hmark, hsig, if_neg Bool.false_ne_true]
  dsimp only
  rw [hq]

theorem queueAdvance_fails (hbad : st ≠ 0) (hcont : qContinue c.bytes = false) : queueAdvance s p q =
    quireEnds (setQueue s p q { queueOf s p q with cur := none, halted := true, haltStatus := st }) p q u st.toNat := by
  have hne : st.toNat ≠ St.ok := fun h => hbad (BitVec.eq_of_toNat_eq h)
  rw [queueAdvance_ended hcur hq hst hsig fun h => hbad h.2, if_neg hbad, if_pos ⟨hne, by rw [hcont]; rfl⟩, BitVec.ofNat_toNat,
    BitVec.setWidth_eq]

end

section
variable {u : Quire} {l : List Quire} (hcur : (queueOf s p q).cur = some c) (hq : (queueOf s p q).quires = u :: l)
  (hst : c.status = some 0) (hsig : qSignal c.bytes = false) (hcode : qCode c.bytes ≠ 9)
include hcur hq hst hsig hcode

theorem queueAdvance_succeeds : queueAdvance s p q =
    if c.index + 1 < u.count then startNext (setQueue s p q { queueOf s p q with cur := none, next := c.index + 1 }) p q
    else startNext (quireEnds
      (setQueue s p q { queueOf s p q with cur := none, next := 0, quires := l, haltStatus := 0 }) p q u St.ok) p q := by
  rw [queueAdvance_ended hcur hq hst hsig fun h => hcode h.1, if_pos rfl, if_neg fun h => h.1 rfl]

end

theorem queueAdvance_ordinary (h : q < 28) : exec (.queueAdvance p q) s = .next (queueAdvance s p q) :=
  congrArg Host.Outcome.next (if_neg fun hall => by
    have := of_decide_eq_true (Bool.and_eq_true_iff.1 hall).1
    omega)

theorem queueAdvance_stepIdle (h : (compOf (queueAdvance s p q) p).run = none) :
    exec (.queueAdvance p q) s = .next (queueAdvance s p q) := congrArg Host.Outcome.next (if_neg (by rw [h]; simp))

theorem queueAdvance_stepRuns {r : RunStep} (hq : 28 ≤ q) (h : (compOf (queueAdvance s p q) p).run = some r) :
    exec (.queueAdvance p q) s = .next (stepHalt (queueAdvance s p q) p) :=
  congrArg Host.Outcome.next (if_pos (by rw [h, decide_eq_true hq]; rfl))

/-! ### STEP_BEGIN and STEP_END (R296, R298) -/

theorem stepCmd_idle {b : List Byte} {phase : Nat} (h : (compOf s p).run = none) : stepCmd s p q phase b = none := by
  rw [stepCmd, h]
  cases (queueOf s p q).quires <;> rfl

section
variable (h : InQueue s p q 10 c)
include h

theorem stepBegin_eq : exec (.stepBegin p q) s = .next (match stepCmd s p q 0 c.bytes with
    | none => queueStatus s p q St.quireFormat
    | some run => queueStatus (setComp s p { compOf s p with run := some { run with start := stamp s } }) p q St.ok) :=
  congrArg Host.Outcome.next (qAct_runs h _)

theorem stepBegin_idle (hr : stepCmd s p q 0 c.bytes = none) : exec (.stepBegin p q) s = .next (queueStatus s p q St.quireFormat) := by
  rw [stepBegin_eq h, hr]

theorem stepBegin_stamps {r : RunStep} (hr : stepCmd s p q 0 c.bytes = some r) :
    exec (.stepBegin p q) s = .next (queueStatus (setComp s p { compOf s p with run := some { r with start := stamp s } }) p q St.ok) := by
  rw [stepBegin_eq h, hr]

end

section
variable (h : InQueue s p q 11 c)
include h

theorem stepEnd_eq : exec (.stepEnd p q) s = .next (match stepCmd s p q 3 c.bytes with
    | none => queueStatus s p q St.quireFormat
    | some run => queueStatus (stepCommit s p run) p q St.ok) :=
  congrArg Host.Outcome.next (qAct_runs h _)

theorem stepEnd_idle (hr : stepCmd s p q 3 c.bytes = none) : exec (.stepEnd p q) s = .next (queueStatus s p q St.quireFormat) := by
  rw [stepEnd_eq h, hr]

theorem stepEnd_commits {r : RunStep} (hr : stepCmd s p q 3 c.bytes = some r) :
    exec (.stepEnd p q) s = .next (queueStatus (stepCommit s p r) p q St.ok) := by
  rw [stepEnd_eq h, hr]

end
end

/-- Settles O45, from what an ended command leaves its queue to do and from the stage that STEP_BEGIN and STEP_END ask for. -/
theorem queueProgress : Obligations.QueueProgress := by
  unfold Obligations.QueueProgress
  refine ⟨?unended, ?next, ?nextQuire, ?fails, fun s p q _ h => queueAdvance_stepIdle h, fun s p q r hq h => queueAdvance_stepRuns hq h,
    ?digest, fun s p q h => startNext_halted h, fun s p q c h hr => stepBegin_idle h (stepCmd_idle hr),
    fun s p q c h hr => stepEnd_idle h (stepCmd_idle hr), fun s p q c r h hr => stepBegin_stamps h hr,
    fun s p q c r h hr => stepEnd_commits h hr, fun s p q c hcur hst => ⟨_, queueStatus_cur hcur hst, rfl, rfl, rfl⟩⟩
  case unended =>
    intro s p q c hq28 hcur hst
    rw [queueAdvance_ordinary hq28, queueAdvance_unended hcur hst]
  case next =>
    intro s p q c u l hq28 hcur hq hst hsig hcode hmore
    rw [queueAdvance_ordinary hq28, queueAdvance_succeeds hcur hq hst hsig hcode, if_pos hmore]
  case nextQuire =>
    intro s p q c u l hq28 hcur hq hst hsig hcode hlast
    rw [queueAdvance_ordinary hq28, queueAdvance_succeeds hcur hq hst hsig hcode, if_neg (Nat.not_lt.2 hlast)]
  case fails =>
    intro s p q st c u l hq28 hcur hq hst hbad hsig hcont
    rw [queueAdvance_ordinary hq28, queueAdvance_fails hcur hq hst hsig hbad hcont]
  case digest =>
    intro s p q c hq28 hcur hst hcode hheld
    rw [queueAdvance_ordinary hq28, queueAdvance_digestHeld hcur hst hcode hheld]

end Sys2Proof.Machine
end

section
/-! PROOFS. The firmware commands of cores, queues, tallies and ledgers (R229 to R250, logs 51 to 53): what the row of each answers once it
has begun, and the queue that a reset leaves; then O46. -/

namespace Sys2Proof.Machine

section
variable {c : Cmd} {s a : State}

/-! ### CORE_MAP and PART_CONFIG (R231, R251) -/

theorem coreMapEntry_length (n : Nat) : (coreMapEntry a n).length = 4 := by
  unfold coreMapEntry
  split
  · exact leBytes_length ..
  · rfl

theorem coreMapEntries_length : ((List.range 256).map (coreMapEntry a)).flatten.length = 1024 := by
  rw [List.length_flatten, List.map_map, (funext fun n => coreMapEntry_length n : List.length ∘ coreMapEntry a = fun _ => 4),
    List.map_const', List.length_range, List.sum_replicate]
  rfl

theorem coreMap_completes (h : Begun { op := 0x0601, need := 8 } c s a) (hw : hostOk a (p64 c 0) 1024 = true) :
    Completes (.coreMap c) c s (hostStore a (p64 c 0) ((List.range 256).map (coreMapEntry a)).flatten) [] :=
  completes_of rfl h (reportTo_ok (by rwa [coreMapEntries_length]))

section
variable (h : Begun { op := 0x0602, need := 2, vf := false } c s a) (hp : p8 c 0 ≤ 3) (hm : p8 c 1 ≤ 15)
  (hfree : ∀ o, o < 4 → o ≠ p8 c 0 → (partOf a o).mask &&& BitVec.ofNat 4 (p8 c 1) = 0)
include h hp hm hfree

omit h in
/-- The fields of a PART_CONFIG whose quadrants no other partition holds. -/
theorem partConfig_fields : (decide (p8 c 0 > 3) || decide (p8 c 1 > 15) ||
    (List.range 4).any (fun o => o != p8 c 0 && (partOf a o).mask &&& BitVec.ofNat 4 (p8 c 1) != 0)) = false := by
  have hnone : (List.range 4).any (fun o => o != p8 c 0 && (partOf a o).mask &&& BitVec.ofNat 4 (p8 c 1) != 0) = false :=
    List.any_eq_false.2 fun o ho => by
      by_cases hop : o = p8 c 0
      · simp [hop]
      · simp [hfree o (List.mem_range.1 ho) hop]
  rw [hnone, decide_eq_false (Nat.not_lt.2 hp), decide_eq_false (Nat.not_lt.2 hm)]
  rfl

theorem partConfig_completes (hidle : partIdle a (p8 c 0) = true) :
    Completes (.partConfig c) c s (concordUpdate (setPart a (p8 c 0) { mask := BitVec.ofNat 4 (p8 c 1) })) [] :=
  completes_of rfl h ((checked_tail (partConfig_fields hp hm hfree)).trans (checked_tail (by rw [hidle]; rfl)))

theorem partConfig_busy (hidle : partIdle a (p8 c 0) = false) :
    exec (.partConfig c) s = .next (complete a c St.partitionBusy []) :=
  ends_of rfl h ((checked_tail (partConfig_fields hp hm hfree)).trans (checked_head (by rw [hidle]; rfl)))

end

/-! ### QUIRE_SUBMIT (R233, R237) -/

section
variable (h : Begun { op := 0x0603, need := 16, part := some 0 } c s a) (hp : p8 c 0 ≤ 3) (hq : p8 c 1 ≤ 31) (hn : p16 c 2 ≠ 0)
  (hconf : configured a (p8 c 0) = true) (hal : p64 c 8 % 64 = 0) (hdpa : isDpa (p64 c 8) = true)
include h hp hq hn hconf hal hdpa

omit h in
/-- QUIRE_SUBMIT of legal fields: its queue reserved for the composer, or full, or the quire joins it. -/
theorem quireSubmit_checked {r : Answer} {l : List (Bool × Nat)} :
    checked ((decide (p8 c 0 > 3) || decide (p8 c 1 > 31) || p16 c 2 == 0 || !configured a (p8 c 0), St.invalidField) ::
      (p64 c 8 % 64 != 0 || !isDpa (p64 c 8), St.badAddress) :: l) a r = checked l a r :=
  (checked_tail (by simp [hn, hconf]; omega)).trans (checked_tail (by simp [hal, hdpa]))

theorem quireSubmit_waits (hfree : p8 c 1 < 28 ∨ mfind a.stp.comps (p8 c 0) = none)
    (hroom : (queueOf a (p8 c 0) (p8 c 1)).quires.length < 16) :
    Waits (.quireSubmit c) 0x0603 c s (startNext (setQueue a (p8 c 0) (p8 c 1) { queueOf a (p8 c 0) (p8 c 1) with
      quires := (queueOf a (p8 c 0) (p8 c 1)).quires ++ [{ dpa := p64 c 8, count := p16 c 2, composer := false }] })
        (p8 c 0) (p8 c 1)) (.quire (p8 c 0) (p8 c 1)) := by
  refine waits_of rfl h ((quireSubmit_checked hp hq hn hconf hal hdpa).trans ((checked_tail ?_).trans
    (checked_tail (decide_eq_false (Nat.not_le.2 hroom)))))
  rcases hfree with hlow | hnone
  · rw [decide_eq_false (Nat.not_le.2 hlow)]
    rfl
  · rw [hnone, Bool.and_false]

theorem quireSubmit_full (hlow : p8 c 1 < 28) (hfull : 16 ≤ (queueOf a (p8 c 0) (p8 c 1)).quires.length) :
    exec (.quireSubmit c) s = .next (complete a c St.resourceExhausted []) := by
  refine ends_of rfl h ((quireSubmit_checked hp hq hn hconf hal hdpa).trans ((checked_tail ?_).trans
    (checked_head (decide_eq_true hfull))))
  rw [decide_eq_false (Nat.not_le.2 hlow)]
  rfl

theorem quireSubmit_reserved {k : Composer} (hhigh : 28 ≤ p8 c 1) (hk : mfind a.stp.comps (p8 c 0) = some k)
    (hrun : k.enabled = true ∨ k.run.isSome = true) : exec (.quireSubmit c) s = .next (complete a c St.queueReserved []) := by
  refine ends_of rfl h ((quireSubmit_checked hp hq hn hconf hal hdpa).trans (checked_head ?_))
  rw [decide_eq_true hhigh, hk, Bool.true_and]
  exact Bool.or_eq_true_iff.2 hrun

end

/-! ### QUEUE_CONTROL (R237) -/

section
variable (h : Begun { op := 0x0604, need := 3, part := some 0 } c s a) (hp : p8 c 0 ≤ 3) (hq : p8 c 1 ≤ 31)
include h hp hq

theorem queueControl_resumes (ho : p8 c 2 = 1) : Completes (.queueControl c) c s (resumeQueue a (p8 c 0) (p8 c 1)) [] :=
  completes_of rfl h ((checked_tail (by simp [ho]; omega)).trans (if_pos ho))

theorem queueControl_resets (ho : p8 c 2 = 2) : Completes (.queueControl c) c s (resetQueue a (p8 c 0) (p8 c 1)) [] :=
  completes_of rfl h ((checked_tail (by simp [ho]; omega)).trans ((if_neg (by omega)).trans (if_pos ho)))

theorem queueControl_reports (ho : p8 c 2 = 3) : Completes (.queueControl c) c s a
    ([BitVec.ofNat 8 (queueState a (p8 c 0) (p8 c 1)), 0] ++ leBytes 2 (queueOf a (p8 c 0) (p8 c 1)).quires.length ++
      leBytes 4 (((queueOf a (p8 c 0) (p8 c 1)).cur.map CurCmd.index).getD (queueOf a (p8 c 0) (p8 c 1)).next)) := by
  refine completes_of rfl h ((checked_tail (by simp [ho]; omega)).trans ((if_neg (by omega)).trans ((if_neg (by omega)).trans ?_)))
  cases (queueOf a (p8 c 0) (p8 c 1)).cur <;> rfl

end

/-- A queue that has been reset holds nothing but its latch and the status ABORTED. -/
theorem queueOf_resetQueue (p q : Nat) :
    ∃ l, queueOf (resetQueue s p q) p q = { latch := l, haltStatus := BitVec.ofNat 16 St.aborted } :=
  ⟨_, (queueOf_of_cpu _ p q (finishWait_cpu ..)).trans (queueOf_setQueue ..)⟩

/-! ### TALLY_OP (R238) -/

section
variable (h : Begun { op := 0x0605, need := 8, refuse := foreignTally } c s a)
include h

theorem tallyOp_invalid (ht : 16384 ≤ p16 c 0) : exec (.tallyOp c) s = .next (complete a c St.tallyInvalid []) :=
  ends_of rfl h (checked_head (decide_eq_true ht))

variable (ht : p16 c 0 < 16384) (ho : p8 c 2 ≤ 2)
include ht ho

theorem tallyOp_reset (hr : underReset a (tallyQuad (p16 c 0)) = true) : exec (.tallyOp c) s = .next (complete a c St.destReset []) :=
  ends_of rfl h ((checked_tail (decide_eq_false (Nat.not_le.2 ht))).trans
    ((checked_tail (decide_eq_false (Nat.not_lt.2 ho))).trans (checked_head hr)))

theorem tallyOp_completes (hr : underReset a (tallyQuad (p16 c 0)) = false) : Completes (.tallyOp c) c s
    (if p8 c 2 = 0 then a else tallySignalAs a (p16 c 0) (BitVec.ofNat 32 (p32 c 4)) (p8 c 2 == 1) 0x9000 (cmdPart c))
    (leBytes 4 (tallyGet a (p16 c 0)).toNat) :=
  completes_of rfl h ((checked_tail (decide_eq_false (Nat.not_le.2 ht))).trans
    ((checked_tail (decide_eq_false (Nat.not_lt.2 ho))).trans (checked_tail hr)))

end

/-! ### Ledgers (R243) and fault records (R250) -/

theorem firstBad_of_ok {l : List Nat} (h : ∀ x ∈ l, x = St.ok) : firstBad l = St.ok := by
  rw [firstBad, List.find?_eq_none.2 fun x hx => by simp [h x hx]]
  rfl

theorem ledgerConfig_completes (h : Begun { op := 0x0606, need := 16, part := some 0 } c s a) (hp : p8 c 0 ≤ 3) (hl : p8 c 1 ≤ 7)
    (hmin : 4 ≤ p8 c 2) (hmax : p8 c 2 ≤ 16) (hconf : configured a (p8 c 0) = true) (hdpa : isDpa (p64 c 8) = true)
    (hfast : (regionSteps (p64 c 8) (32 * 2 ^ p8 c 2)).all (fun d => (match whereIs d with | .region .fast _ => true | _ => false) &&
      cacheStatusAt a (some (p8 c 0)) d == St.ok) = true)
    (hfence : rangeFenced a (p64 c 8) (32 * 2 ^ p8 c 2) = false) : Completes (.ledgerConfig c) c s
      (setLedger a (p8 c 0) (p8 c 1) { configured := true, log2 := p8 c 2, dpa := p64 c 8 }) [] := by
  have hsteps (d : Nat) (hd : d ∈ regionSteps (p64 c 8) (32 * 2 ^ p8 c 2)) :
      (∃ r, whereIs d = .region .fast r) ∧ cacheStatusAt a (some (p8 c 0)) d = St.ok := by
    obtain ⟨hwhere, hst⟩ := Bool.and_eq_true_iff.1 (List.all_eq_true.1 hfast d hd)
    refine ⟨?_, beq_iff_eq.1 hst⟩
    split at hwhere
    case h_1 r hr => exact ⟨r, hr⟩
    case h_2 => exact absurd hwhere Bool.false_ne_true
  have hinside : (regionSteps (p64 c 8) (32 * 2 ^ p8 c 2)).any (fun d => match whereIs d with | .region .fast _ => false | _ => true) =
      false := List.any_eq_false.2 fun d hd => by
    obtain ⟨⟨r, hr⟩, -⟩ := hsteps d hd
    rw [hr]
    exact Bool.false_ne_true
  have hbad : firstBad ((regionSteps (p64 c 8) (32 * 2 ^ p8 c 2)).map (cacheStatusAt a (some (p8 c 0)))) = St.ok :=
    firstBad_of_ok fun x hx => by
      obtain ⟨d, hd, rfl⟩ := List.mem_map.1 hx
      exact (hsteps d hd).2
  exact completes_of rfl h ((checked_tail (by simp [hconf]; omega)).trans ((checked_tail (by rw [hdpa]; rfl)).trans
    ((checked_tail hinside).trans ((checked_tail (by rw [hbad]; rfl)).trans (checked_tail hfence)))))

theorem ledgerQuery_completes (h : Begun { op := 0x0607, need := 2, part := some 0 } c s a) (hp : p8 c 0 ≤ 3) (hl : p8 c 1 ≤ 7) :
    Completes (.ledgerQuery c) c s a ([BitVec.ofNat 8 (if !(ledgerOf a (p8 c 0) (p8 c 1)).configured then 0
      else if (ledgerOf a (p8 c 0) (p8 c 1)).sealed then 2 else 1), 0, 0, 0] ++
      leBytes 4 (ledgerOf a (p8 c 0) (p8 c 1)).descs.length ++ leBytes 8 (ledgerOf a (p8 c 0) (p8 c 1)).served.toNat) :=
  completes_of rfl h (checked_tail (by simp; omega))

theorem coreFaultRead_completes {l : Log} (h : Begun { op := 0x0608, need := 11 } c s a) (hd : p8 c 10 ≤ 1)
    (hl : l = mget {} a.cpu.faults (p8 c 10))
    (hw : hostOk a (p64 c 0) ((lastN l.unread l.recs).take (min (p16 c 8) l.unread)).flatten.length = true) :
    Completes (.coreFaultRead c) c s
      (hostStore { a with cpu.faults := mput a.cpu.faults (p8 c 10) { l with
          unread := l.unread - min (p16 c 8) l.unread, overwritten := 0 } } (p64 c 0)
        ((lastN l.unread l.recs).take (min (p16 c 8) l.unread)).flatten)
      (leBytes 2 ((lastN l.unread l.recs).take (min (p16 c 8) l.unread)).length ++ leBytes 4 l.overwritten) := by
  subst hl
  exact completes_of rfl h ((checked_tail (decide_eq_false (Nat.not_lt.2 hd))).trans (reportTo_ok hw))

end

/-- Settles O46: each command by its checks, in their order. -/
theorem coreCommandRows : Obligations.CoreCommandRows := by
  unfold Obligations.CoreCommandRows
  refine ⟨fun c s a => coreMap_completes, fun c s a => partConfig_completes, fun c s a => partConfig_busy, ?submit, ?full, ?reserved,
    fun c s a => queueControl_resumes, fun c s a => queueControl_resets, ?reports, ?resetQueue, ?signal, ?read,
    fun c s a => tallyOp_invalid, fun c s a => tallyOp_reset, fun c s a => ledgerConfig_completes, ?query, ?faults⟩
  case submit =>
    rintro c s a _ h hp hq hfree hn hconf hal hdpa rfl hroom
    exact quireSubmit_waits h hp hq hn hconf hal hdpa hfree hroom
  case full =>
    intro c s a h hp hq hn hconf hal hdpa hfull
    exact quireSubmit_full h hp (by omega) hn hconf hal hdpa hq hfull
  case reserved =>
    intro c s a k h hp hhigh hq hn hconf hal hdpa hk hrun
    exact quireSubmit_reserved h hp hq hn hconf hal hdpa hhigh hk hrun
  case reports =>
    rintro c s a _ h hp hq ho rfl
    exact queueControl_reports h hp hq ho
  case resetQueue =>
    intro s p q _
    obtain ⟨l, hl⟩ := queueOf_resetQueue (s := s) p q
    rw [hl]
    exact ⟨rfl, rfl, rfl, rfl⟩
  case signal =>
    intro c s a h ht hmin hmax hr
    have := tallyOp_completes h ht hmax hr
    rwa [if_neg (by omega)] at this
  case read =>
    intro c s a h ht ho hr
    have := tallyOp_completes h ht (by omega) hr
    rwa [if_pos ho] at this
  case query =>
    rintro c s a _ h hp hl rfl
    exact ledgerQuery_completes h hp hl
  case faults =>
    intro c s a l h hd hl hw
    exact coreFaultRead_completes h hd hl hw

end Sys2Proof.Machine
end

section
/-! PROOFS. The commands of a quire (R234 to R245, R430, R446): their checks, what each does in its turn and what it waits for; then O44. -/

namespace Sys2Proof.Machine

/-! ### A command's checks (R235) -/

section
variable {s : State} {p q k : Nat} {c : CurCmd} {checks : List (Bool × Nat)} {f : State → State}

theorem qChecked_pass (h : InQueue s p q k c) (hpass : firstFail checks = none) : qChecked p q c.bytes checks s f = f s := by
  obtain ⟨-, -, -, -, hcls⟩ := h
  rw [qChecked, firstFail, if_neg (by simpa using hcls), hpass]

theorem qChecked_fails {st : Nat} (h : InQueue s p q k c) (hfail : firstFail checks = some st) :
    qChecked p q c.bytes checks s f = queueStatus s p q st := by
  obtain ⟨-, -, -, -, hcls⟩ := h
  rw [qChecked, firstFail, if_neg (by simpa using hcls), hfail]

theorem firstFail_tail {b : Bool} {st : Nat} (h : b = false) : firstFail ((b, st) :: checks) = firstFail checks := by
  rw [h]
  rfl

theorem firstFail_one_pass {b : Bool} {st : Nat} (h : b = false) : firstFail [(b, st)] = none := firstFail_tail h

theorem qBegin_eq (hcur : (queueOf s p q).cur = some c) :
    qBegin s p q = setQueue s p q { queueOf s p q with cur := some { c with begun := true } } := by
  rw [qBegin]
  dsimp only
  rw [hcur]

end

/-! ### KERNEL (R230, R236) -/

section
variable {s : State} {p q : Nat} {c : CurCmd}

section
variable (h : InQueue s p q 1 c) (hmin : 8 ≤ fieldN c.bytes 16 4) (hmax : fieldN c.bytes 16 4 ≤ 65536)
  (hledger : fieldN c.bytes 32 1 ≤ 7 ∨ fieldN c.bytes 32 1 = 255)
include h hmin hmax hledger

theorem kernel_checked : exec (.kernel p q) s = .next (match kernelCores s p c.bytes with
    | none => queueStatus s p q St.coreInvalid
    | some cs => setQueue s p q { queueOf s p q with
        cores := cs, running := false, cur := (queueOf s p q).cur.map fun c => { c with begun := true, arrived := s.time } }) := by
  have hfields : (decide (fieldN c.bytes 16 4 < 8) || decide (fieldN c.bytes 16 4 > 65536) ||
      (decide (fieldN c.bytes 32 1 > 7) && fieldN c.bytes 32 1 != 0xFF)) = false := by
    rw [decide_eq_false (Nat.not_lt.2 hmin), decide_eq_false (Nat.not_lt.2 hmax)]
    rcases hledger with hle | hff
    · rw [decide_eq_false (Nat.not_lt.2 hle)]
      rfl
    · rw [hff]
      rfl
  exact congrArg Host.Outcome.next ((qAct_runs h _).trans (qChecked_pass h (firstFail_one_pass hfields)))

theorem kernel_reserves {l : List Nat} (hl : kernelCores s p c.bytes = some l) : exec (.kernel p q) s = .next (setQueue s p q
    { queueOf s p q with cores := l, running := false, cur := some { c with begun := true, arrived := s.time } }) := by
  obtain ⟨hcur, -⟩ := id h
  rw [kernel_checked h hmin hmax hledger, hl, hcur, Option.map_some]

theorem kernel_invalid (hl : kernelCores s p c.bytes = none) : exec (.kernel p q) s = .next (queueStatus s p q St.coreInvalid) := by
  rw [kernel_checked h hmin hmax hledger, hl]

end

/-- The cores of a kernel launched one after another, each with its place in the set of `size` cores. -/
def launchAll (p q : Nat) (c : CurCmd) (b : List Byte) (size : Nat) (l : List (Nat × Nat)) (t : State) : State :=
  l.foldl (fun s e => launch s p q c.index b (fieldN c.bytes 24 8) (fieldN c.bytes 32 1) size e.1 e.2) t

/-- A launch changes cores and no queue. -/
theorem queueOf_launch (index : Nat) (b : List Byte) (arg ledger size n j : Nat) :
    queueOf (launch s p q index b arg ledger size n j) p q = queueOf s p q :=
  (queueOf_of_cpu _ p q (blot_cpu ..)).trans (by rfl)

/-- So the size of the set may as well be read from the queue at each launch. -/
theorem launchAll_eq (b : List Byte) (l : List (Nat × Nat)) (t : State) :
    l.foldl (fun s e => launch s p q c.index b (fieldN c.bytes 24 8) (fieldN c.bytes 32 1) (queueOf s p q).cores.length e.1 e.2) t =
      launchAll p q c b (queueOf t p q).cores.length l t := by
  induction l generalizing t with
  | nil => rfl
  | cons e l ih => rw [List.foldl_cons, ih, queueOf_launch, launchAll, launchAll, List.foldl_cons]

section
variable (hcur : (queueOf s p q).cur = some c)
include hcur

theorem kernelStart_waits {n : Nat} (hn : n ∈ (queueOf s p q).cores) (hrun : (coreOf s n).run ≠ .idle) :
    exec (.kernelStart p q) s = .next s := by
  refine congrArg Host.Outcome.next ?_
  rw [hcur]
  exact if_pos (Bool.or_eq_true_iff.2 (.inr (List.any_eq_true.2 ⟨n, hn, by simp [hrun]⟩)))

variable (hw : kernelWaits (queueOf s p q) = true)
  (hfree : (queueOf s p q).cores.all (fun n => (coreOf s n).run == .idle && !reservedByOlder s p q c.arrived n) = true)
include hw hfree

omit hcur in
/-- A KERNEL whose cores are all idle and unreserved starts. -/
theorem kernelStart_free : (!kernelWaits (queueOf s p q) ||
    (queueOf s p q).cores.any fun n => (coreOf s n).run != .idle || reservedByOlder s p q c.arrived n) = false := by
  rw [hw, Bool.not_true, Bool.false_or]
  refine List.any_eq_false.2 fun n hn => ?_
  simpa using List.all_eq_true.1 hfree n hn

theorem kernelStart_summary (hsum : runsSummary s p q = true) : exec (.kernelStart p q) s = .next (startSummary s p) := by
  refine congrArg Host.Outcome.next ?_
  rw [hcur]
  exact (if_neg (ne_true_of_eq_false (kernelStart_free hw hfree))).trans (if_pos hsum)

theorem kernelStart_launches {b : List Byte} {t : State} (hsum : runsSummary s p q = false)
    (hwait : accessWaits s (qRq p q) false (fieldN c.bytes 8 8) (fieldN c.bytes 16 4) (qClass c.bytes) = false)
    (hread : readBytes s (qRq p q) (fieldN c.bytes 8 8) (fieldN c.bytes 16 4) (qClass c.bytes) = (St.ok, b, false, t)) :
    exec (.kernelStart p q) s = .next (setQueue (launchAll p q c b (queueOf s p q).cores.length (queueOf s p q).cores.zipIdx t) p q
      { queueOf (launchAll p q c b (queueOf s p q).cores.length (queueOf s p q).cores.zipIdx t) p q with running := true }) := by
  refine congrArg Host.Outcome.next ?_
  rw [hcur]
  refine (if_neg (ne_true_of_eq_false (kernelStart_free hw hfree))).trans ((if_neg (ne_true_of_eq_false hsum)).trans ?_)
  dsimp only
  rw [hread]
  dsimp only
  rw [hwait, if_neg Bool.false_ne_true, if_neg (not_not.2 rfl), if_neg Bool.false_ne_true]
  rfl

end

theorem kernelComplete_waits {n : Nat} (hn : n ∈ (queueOf s p q).cores) (hrun : (coreOf s n).run = .running) :
    exec (.kernelComplete p q) s = .next s := by
  refine congrArg Host.Outcome.next (if_neg fun hall => ?_)
  have hended := List.all_eq_true.1 (Bool.and_eq_true_iff.1 hall).2 n hn
  simp [coreEnded, hrun] at hended

section
variable (hrun : (queueOf s p q).running = true)
  (hall : (queueOf s p q).cores.all (fun n => coreEnded (coreOf s n) && writesAnswered s n) = true)
include hrun hall

theorem kernelComplete_ended : exec (.kernelComplete p q) s = .next (queueStatus
    (bump (freeCores (setQueue s p q { queueOf s p q with running := false, cores := [] }) (queueOf s p q).cores) p 34 1) p q
      (if (queueOf s p q).cores.any (fun n => (coreOf s n).run == .faulted) then St.kernelFault else St.ok)) :=
  congrArg Host.Outcome.next (if_pos (Bool.and_eq_true_iff.2 ⟨hrun, hall⟩))

theorem kernelComplete_halted (hh : (queueOf s p q).cores.all (fun n => (coreOf s n).run == .halted) = true) :
    exec (.kernelComplete p q) s = .next (queueStatus (bump (freeCores (setQueue s p q { queueOf s p q with running := false, cores := [] })
      (queueOf s p q).cores) p 34 1) p q St.ok) := by
  have hnone : (queueOf s p q).cores.any (fun n => (coreOf s n).run == .faulted) = false := List.any_eq_false.2 fun n hn => by
    rw [beq_iff_eq.1 (List.all_eq_true.1 hh n hn)]
    decide
  rw [kernelComplete_ended hrun hall, hnone, if_neg Bool.false_ne_true]

theorem kernelComplete_faulted {n : Nat} (hn : n ∈ (queueOf s p q).cores) (hf : (coreOf s n).run = .faulted) :
    exec (.kernelComplete p q) s = .next (queueStatus (bump (freeCores (setQueue s p q { queueOf s p q with running := false, cores := [] })
      (queueOf s p q).cores) p 34 1) p q St.kernelFault) := by
  have hsome : (queueOf s p q).cores.any (fun n => (coreOf s n).run == .faulted) = true :=
    List.any_eq_true.2 ⟨n, hn, by rw [hf]; rfl⟩
  rw [kernelComplete_ended hrun hall, hsome, if_pos rfl]

end

/-! ### Data commands (R149, R208, R173, R182) -/

theorem copy_empty (h : InQueue s p q 2 c) (hn : fieldN c.bytes 24 8 = 0) :
    exec (.copy p q) s = .next (queueStatus s p q St.quireFormat) :=
  congrArg Host.Outcome.next ((qAct_runs h _).trans (qChecked_fails h (if_pos (beq_iff_eq.2 hn))))

theorem copy_copies (h : InQueue s p q 2 c) (hn : fieldN c.bytes 24 8 ≠ 0) (ha : fieldN c.bytes 8 8 % 64 = 0)
    (hb : fieldN c.bytes 16 8 % 64 = 0) (hl : fieldN c.bytes 24 8 % 64 = 0) (hda : isDpa (fieldN c.bytes 8 8) = true)
    (hdb : isDpa (fieldN c.bytes 16 8) = true) : exec (.copy p q) s = .next
      (if copyHeld s (qRq p q) true true (fieldN c.bytes 8 8) (fieldN c.bytes 16 8) (fieldN c.bytes 24 8) (qClass c.bytes) then s
      else queueStatus (copyWithin s (qRq p q) (fieldN c.bytes 8 8) (fieldN c.bytes 16 8) (fieldN c.bytes 24 8) (qClass c.bytes)).2 p q
        (copyWithin s (qRq p q) (fieldN c.bytes 8 8) (fieldN c.bytes 16 8) (fieldN c.bytes 24 8) (qClass c.bytes)).1) :=
  congrArg Host.Outcome.next ((qAct_runs h _).trans (qChecked_pass h (by simp [firstFail, hn, ha, hb, hl, hda, hdb])))

theorem foldCopy_begins (h : InQueue s p q 3 c) (hn : fieldN c.bytes 24 4 ≠ 0)
    (hc : firstFail (expandChecks s (qRq p q) (fieldN c.bytes 8 8) (fieldN c.bytes 16 8) (fieldN c.bytes 24 4) (qClass c.bytes)) = none) :
    exec (.foldCopy p q) s = .next (startExpand (qBegin s p q) (qRq p q) (fieldN c.bytes 8 8) (fieldN c.bytes 24 4)
      (.memory (fieldN c.bytes 16 8)) (qClass c.bytes) (some (p, q))).2 :=
  congrArg Host.Outcome.next ((qAct_runs h _).trans (qChecked_pass h ((firstFail_tail (by simp [hn])).trans hc)))

theorem reduce_contributes {u : State} {k l st : Nat} {o : Option (Nat × Nat)} (h : InQueue s p q 4 c) (hn : fieldN c.bytes 24 4 ≠ 0)
    (hk : k = fieldN c.bytes 28 1)
    (ho : o = if bit (fieldN c.bytes 29 1) 0 then some (fieldN c.bytes 30 1, fieldN c.bytes 32 4) else none)
    (hc : firstFail (applyChecks (fieldN c.bytes 8 8) (fieldN c.bytes 16 8) (fieldN c.bytes 24 4) k (qClass c.bytes)) = none)
    (ha : arithApply s (qRq p q) (fieldN c.bytes 8 8) (fieldN c.bytes 16 8) (fieldN c.bytes 24 4) k o (qClass c.bytes) = (st, l, u)) :
    exec (.reduce p q) s = .next
      (if applyHeld s (qRq p q) (fieldN c.bytes 8 8) (fieldN c.bytes 16 8) (fieldN c.bytes 24 4) (qClass c.bytes) then s
      else if l = 0 then queueStatus u p q st else qBegin (applyWaits u (some (p, q)) l st) p q) := by
  subst hk ho
  refine congrArg Host.Outcome.next ((qAct_runs h _).trans ((qChecked_pass h ((firstFail_tail (by simp [hn])).trans hc)).trans ?_))
  rw [ha]

theorem gatherRes_begins {u v : State} {i : Nat} {l : List (List Byte)} (h : InQueue s p q 5 c) (hmin : 1 ≤ fieldN c.bytes 16 1)
    (hmax : fieldN c.bytes 16 1 ≤ 16) (hwait : accessWaits s (qRq p q) false (fieldN c.bytes 8 8) 64 (qClass c.bytes) = false)
    (hread : readDescs (qRq p q) (qClass c.bytes) (fieldN c.bytes 16 1) (fieldN c.bytes 8 8) s = ((St.ok, l), u))
    (hstart : startGather (qBegin u p q) p (some (p, q)) (qClass c.bytes) l = (i, v)) :
    exec (.gatherRes p q) s = .next (gatherEnd v i) := by
  refine congrArg Host.Outcome.next ((qAct_runs h _).trans ((qChecked_pass h (firstFail_one_pass (by simp; omega))).trans
    ((if_neg (ne_true_of_eq_false hwait)).trans ?_)))
  rw [hread]
  dsimp only
  rw [if_neg (not_not.2 rfl), hstart]

/-! ### Tallies (R238 to R241) -/

theorem tallySignal_signals {k d : Nat} (h : InQueue s p q 6 c) (hk : fieldN c.bytes 20 1 ≤ 1)
    (htb : targetOf (qBegin s p q) (fieldN c.bytes 8 8) = .here d) (ht : targetOf s (fieldN c.bytes 8 8) = .here d)
    (hd : tallyAt d = some k) (hr : underReset (qBegin s p q) (tallyQuad k) = false) :
    exec (.tallySignal p q) s = .next (queueStatus (tallySignalAs (qBegin s p q) k (BitVec.ofNat 32 (fieldN c.bytes 16 4))
      (fieldN c.bytes 20 1 == 1) (queueUnit p q) (some p)) p q St.ok) := by
  have hsig (use : RemoteUse) : queueSignal (qBegin s p q) p q (fieldN c.bytes 8 8) (BitVec.ofNat 32 (fieldN c.bytes 16 4))
      (fieldN c.bytes 20 1 == 1) use = (St.ok, tallySignalAs (qBegin s p q) k (BitVec.ofNat 32 (fieldN c.bytes 16 4))
        (fieldN c.bytes 20 1 == 1) (queueUnit p q) (some p)) := by
    rw [queueSignal, htb]
    dsimp only
    rw [hd]
    dsimp only
    rw [hr, if_neg Bool.false_ne_true]
  refine congrArg Host.Outcome.next ((qAct_runs h _).trans ((qChecked_pass h (firstFail_one_pass (by simpa using hk))).trans ?_))
  dsimp only
  rw [hsig, ht]

section
variable {k d : Nat} (h : InQueue s p q 7 c) (hk : fieldN c.bytes 20 1 ≤ 1) (ht : targetOf s (fieldN c.bytes 8 8) = .here d)
  (hd : tallyAt d = some k)
include h hk ht hd

theorem tallyWait_reset (hr : underReset s (tallyQuad k) = true) :
    exec (.tallyWait p q) s = .next (queueStatus s p q St.destReset) := by
  refine congrArg Host.Outcome.next ((qAct_runs h _).trans ((qChecked_pass h (firstFail_one_pass (by simpa using hk))).trans ?_))
  dsimp only
  rw [ht]
  dsimp only
  rw [hd]
  exact if_pos hr

theorem tallyWait_begins {w : QWaiter} (hr : underReset s (tallyQuad k) = false)
    (hw : w = { p := p, q := q, tally := k, target := BitVec.ofNat 32 (fieldN c.bytes 16 4), eq := fieldN c.bytes 20 1 == 1,
                deadline := if fieldN c.bytes 24 4 = 0 then none
                  else some (BitVec.ofNat 64 (min (2 ^ 64 - 1) ((stamp s).toNat + fieldN c.bytes 24 4 * 65536))) })
    (hnot : waitHolds (tallyGet s k) w.target w.eq = false) : exec (.tallyWait p q) s = .next
      { blot (qBegin s p q) (queueUnit p q) 6 (some p) (waitBeginArg k w.eq w.target) with
        cpu.waiters := (blot (qBegin s p q) (queueUnit p q) 6 (some p) (waitBeginArg k w.eq w.target)).cpu.waiters ++ [w] } := by
  subst hw
  refine congrArg Host.Outcome.next ((qAct_runs h _).trans ((qChecked_pass h (firstFail_one_pass (by simpa using hk))).trans ?_))
  dsimp only
  rw [ht]
  dsimp only
  rw [hd]
  dsimp only
  rw [hr, if_neg Bool.false_ne_true, if_neg (ne_true_of_eq_false hnot)]

end

theorem qBegin_waiters : (qBegin s p q).cpu.waiters = s.cpu.waiters := by
  unfold qBegin
  dsimp only
  split <;> rfl

theorem qBegin_mem : (qBegin s p q).mem = s.mem := by
  unfold qBegin
  dsimp only
  split <;> rfl

/-- A waiter joins: the command has begun, and memory stays. -/
theorem waiter_joins (hcur : (queueOf s p q).cur = some c) (arg : Nat) (w : QWaiter) {t : State}
    (ht : t = { blot (qBegin s p q) (queueUnit p q) 6 (some p) arg with
                cpu.waiters := (blot (qBegin s p q) (queueUnit p q) 6 (some p) arg).cpu.waiters ++ [w] }) :
    t.cpu.waiters = s.cpu.waiters ++ [w] ∧ (queueOf t p q).cur = some { c with begun := true } ∧ t.mem = s.mem := by
  subst ht
  refine ⟨?_, ?_, (blot_mem ..).trans qBegin_mem⟩
  · rw [blot_cpu, qBegin_waiters]
  · have hparts : queueOf { blot (qBegin s p q) (queueUnit p q) 6 (some p) arg with
        cpu.waiters := (blot (qBegin s p q) (queueUnit p q) 6 (some p) arg).cpu.waiters ++ [w] } p q =
        queueOf (blot (qBegin s p q) (queueUnit p q) 6 (some p) arg) p q := rfl
    rw [hparts, queueOf_of_cpu _ p q (blot_cpu ..), qBegin_eq hcur, queueOf_setQueue]

theorem tallyWaitTimeout_ends {w : QWaiter} {d : Stamp} (hw : s.cpu.waiters = [w]) (hp : w.p = p) (hq : w.q = q)
    (hd : w.deadline = some d) (hle : d.toNat ≤ (stamp s).toNat) : exec (.tallyWaitTimeout p q) s = .next (endQueueWait s w 1) := by
  have hfind : s.cpu.waiters.find? (fun w => w.p == p && w.q == q) = some w := by
    rw [hw]
    exact List.find?_cons_of_pos (by rw [hp, hq, beq_self_eq_true, beq_self_eq_true]; rfl)
  refine congrArg Host.Outcome.next ?_
  rw [hfind]
  dsimp only
  rw [hd]
  exact if_pos hle

theorem tallyWaitTimeout_none (hw : s.cpu.waiters = []) : exec (.tallyWaitTimeout p q) s = .next s := by
  refine congrArg Host.Outcome.next ?_
  rw [hw, List.find?_nil]

/-! ### Range markers (R429, R430) -/

section
variable (h : InQueue s p q 8 c)
include h

theorem markBegin_deep (hd : 16 ≤ (queueOf s p q).ranges.length) : exec (.markBegin p q) s = .next (queueStatus s p q St.markDepth) :=
  congrArg Host.Outcome.next ((qAct_runs h _).trans (qChecked_fails h (if_pos (decide_eq_true hd))))

theorem markBegin_opens (hd : (queueOf s p q).ranges.length < 16) : exec (.markBegin p q) s = .next (queueStatus
    (tracePart (setQueue s p q { queueOf s p q with ranges := (queueOf s p q).ranges ++
      [⟨BitVec.ofNat 32 (fieldN c.bytes 8 4), BitVec.ofNat 32 (fieldN c.bytes 12 4), stamp s, counters s p⟩] }) p 0x04 (queueUnit p q)
      (slice c.bytes 8 8 ++ [BitVec.ofNat 8 q, BitVec.ofNat 8 ((queueOf s p q).ranges.length + 1)])) p q St.ok) :=
  congrArg Host.Outcome.next ((qAct_runs h _).trans (qChecked_pass h (firstFail_one_pass (decide_eq_false (Nat.not_le.2 hd)))))

end

section
variable (h : InQueue s p q 9 c)
include h

theorem markEnd_eq : exec (.markEnd p q) s = .next (match (queueOf s p q).ranges.getLast? with
    | none => queueStatus s p q St.markMismatch
    | some r =>
      if r.marker.toNat ≠ fieldN c.bytes 8 4 then queueStatus s p q St.markMismatch
      else queueStatus (closeRange (setQueue s p q { queueOf s p q with ranges := (queueOf s p q).ranges.dropLast }) p q r
        (queueOf s p q).ranges.length false) p q St.ok) :=
  congrArg Host.Outcome.next ((qAct_runs h _).trans (qChecked_pass h rfl))

theorem markEnd_none (hr : (queueOf s p q).ranges = []) : exec (.markEnd p q) s = .next (queueStatus s p q St.markMismatch) := by
  rw [markEnd_eq h, hr, List.getLast?_nil]

section
variable {r : OpenRange} {l : List OpenRange} (hr : (queueOf s p q).ranges = l ++ [r])
include hr

theorem markEnd_closes (hm : r.marker.toNat = fieldN c.bytes 8 4) : exec (.markEnd p q) s = .next (queueStatus
    (closeRange (setQueue s p q { queueOf s p q with ranges := l }) p q r (l.length + 1) false) p q St.ok) := by
  rw [markEnd_eq h, hr, List.getLast?_concat]
  dsimp only
  rw [if_neg (not_not.2 hm), List.dropLast_concat, List.length_append, List.length_singleton]

theorem markEnd_mismatch (hm : r.marker.toNat ≠ fieldN c.bytes 8 4) :
    exec (.markEnd p q) s = .next (queueStatus s p q St.markMismatch) := by
  rw [markEnd_eq h, hr, List.getLast?_concat]
  dsimp only
  rw [if_pos hm]

end
end

/-! ### LEDGER_FILL (R243, R245) -/

theorem ledgerFill_runs (h : InQueue s p q 12 c) (hl : fieldN c.bytes 8 1 ≤ 7)
    (hconf : (ledgerOf s p (fieldN c.bytes 8 1)).configured = true)
    (hread : accessWaits s (qRq p q) false (fieldN c.bytes 16 8) (32 * fieldN c.bytes 24 4) (qClass c.bytes) = false)
    (hwrite : accessWaits s (qRq p q) true (ledgerOf s p (fieldN c.bytes 8 1)).dpa (32 * 2 ^ (ledgerOf s p (fieldN c.bytes 8 1)).log2)
      (qClass c.bytes) = false) :
    exec (.ledgerFill p q) s = .next (queueStatus
      (ledgerFill s p q (fieldN c.bytes 8 1) (fieldN c.bytes 9 1) (fieldN c.bytes 16 8) (fieldN c.bytes 24 4) (qClass c.bytes)).2 p q
      (ledgerFill s p q (fieldN c.bytes 8 1) (fieldN c.bytes 9 1) (fieldN c.bytes 16 8) (fieldN c.bytes 24 4) (qClass c.bytes)).1) := by
  have hfields : (decide (fieldN c.bytes 8 1 > 7) || !(ledgerOf s p (fieldN c.bytes 8 1)).configured) = false := by
    rw [decide_eq_false (Nat.not_lt.2 hl), hconf]
    rfl
  exact congrArg Host.Outcome.next ((qAct_runs h _).trans ((qChecked_pass h (firstFail_one_pass hfields)).trans
    (if_neg (by rw [hread, hwrite]; decide))))

section
variable {l flags src n cls : Nat} (hkeep : bit flags 1 = false)
include hkeep

theorem ledgerFill_sealed (hs : (ledgerOf s p l).sealed = true) : ledgerFill s p q l flags src n cls = (St.ledgerSealed, s) := by
  unfold ledgerFill
  dsimp only
  rw [hkeep, if_neg Bool.false_ne_true, if_pos hs]

theorem ledgerFill_full (hs : (ledgerOf s p l).sealed = false)
    (hfull : 2 ^ (ledgerOf s p l).log2 < (ledgerOf s p l).descs.length + n) :
    ledgerFill s p q l flags src n cls = (St.ledgerFull, s) := by
  unfold ledgerFill
  dsimp only
  rw [hkeep, if_neg Bool.false_ne_true, if_neg (ne_true_of_eq_false hs), if_pos hfull]

end
end

/-- Settles O44: each command by its checks and then by what it finds of its cores, its tally, its ranges or its ledger. -/
theorem quireRows : Obligations.QuireRows := by
  unfold Obligations.QuireRows
  refine ⟨fun s p q c l h hmin hmax hl hc => kernel_reserves h hmin hmax hl hc,
    fun s p q c h hmin hmax hl hc => kernel_invalid h hmin hmax (.inl hl) hc, fun s p q n c hcur hn hrun => kernelStart_waits hcur hn hrun,
    fun s p q c hcur hw hfree hsum => kernelStart_summary hcur hw hfree hsum, ?launches,
    fun s p q n hn hrun => kernelComplete_waits hn hrun, fun s p q hrun hall hh => kernelComplete_halted hrun hall hh,
    fun s p q n hrun hall hn hf => kernelComplete_faulted hrun hall hn hf, fun s p q c h hn => copy_empty h hn, ?copies, ?folds, ?reduces,
    ?gathers, ?signals, ?waits, fun s p q k d c h hk ht hd hr => tallyWait_reset h hk ht hd hr,
    fun s p q w d hw hp hq hd hle => tallyWaitTimeout_ends hw hp hq hd hle, fun s p q hw => tallyWaitTimeout_none hw,
    fun s p q c h hd => markBegin_deep h hd, fun s p q c h hd => markBegin_opens h hd, fun s p q c r l h hr hm => markEnd_closes h hr hm,
    fun s p q c r l h hr hm => markEnd_mismatch h hr hm, fun s p q c h hr => markEnd_none h hr, ?fills,
    fun s p q l flags a n k hkeep hs => ledgerFill_sealed hkeep hs,
    fun s p q l flags a n k hkeep hs hfull => ledgerFill_full hkeep hs hfull⟩
  case launches =>
    rintro s v p q c b hcur hw hfree hsum hwait hst hb hpoison rfl
    have hread : readBytes s (qRq p q) (fieldN c.bytes 8 8) (fieldN c.bytes 16 4) (qClass c.bytes) = (St.ok, b, false,
      (readBytes s (qRq p q) (fieldN c.bytes 8 8) (fieldN c.bytes 16 4) (qClass c.bytes)).2.2.2) :=
      Prod.ext hst (Prod.ext hb.symm (Prod.ext hpoison rfl))
    rw [kernelStart_launches hcur hw hfree hsum hwait hread, launchAll_eq, queueOf_of_cpu s p q (readBytes_cpu ..)]
  case copies =>
    rintro s p q _ _ _ c h rfl rfl rfl hn ha hb hl hda hdb
    exact copy_copies h hn ha hb hl hda hdb
  case folds =>
    rintro s p q _ _ _ c h rfl rfl rfl hn hc
    exact foldCopy_begins h hn hc
  case reduces =>
    rintro s u p q _ _ _ k l st c o h rfl rfl rfl hn hk ho hc ha
    exact reduce_contributes h hn hk ho hc ha
  case gathers =>
    rintro s u v p q _ i c l h rfl hmin hmax hwait hread hstart
    exact gatherRes_begins h hmin hmax hwait hread hstart
  case signals =>
    rintro s p q k _ d c h hk rfl htb ht hd hr
    exact tallySignal_signals h hk htb ht hd hr
  case waits =>
    intro s p q k d c w h hk ht hd hr hw hnot
    exact ⟨_, tallyWait_begins h hk ht hd hr hw hnot, waiter_joins h.1 _ w rfl⟩
  case fills =>
    rintro s p q _ c h rfl hl hconf hread hwrite
    exact ledgerFill_runs h hl hconf hread hwrite

end Sys2Proof.Machine
end

section
/-! PROOFS. ARITH_APPLY and order contexts (R171, R173, R175, R185): a copy of one granule, contexts opened, completed, waited for and
aborted; then O36. -/

namespace Sys2Proof.Machine

section
variable {c : Cmd} {s a t : State} {st : Nat}

/-! ### ARITH_APPLY (R173) -/

section
variable {n : Nat} (h : Begun { op := 0x0401, need := 29 } c s a)
  (hc : firstFail (applyChecks (p64 c 0) (p64 c 8) (p32 c 16) (p8 c 20) (p8 c 28)) = none)
  (hheld : applyHeld a (cmdRq c) (p64 c 0) (p64 c 8) (p32 c 16) (p8 c 28) = false)
include h hc hheld

theorem arithApply_ends (ha : arithApply a (cmdRq c) (p64 c 0) (p64 c 8) (p32 c 16) (p8 c 20)
      (if bit (p8 c 21) 0 then some (p8 c 22, p32 c 24) else none) (p8 c 28) = (st, 0, t)) :
    exec (.arithApply c) s = .next (complete t c st []) :=
  ends_of rfl h ((checked_of_none hc).trans ((unheld_of_free hheld).trans (by rw [ha]; rfl)))

theorem arithApply_waits (hn : n ≠ 0) (ha : arithApply a (cmdRq c) (p64 c 0) (p64 c 8) (p32 c 16) (p8 c 20)
      (if bit (p8 c 21) 0 then some (p8 c 22, p32 c 24) else none) (p8 c 28) = (st, n, t)) :
    Waits (.arithApply c) 0x0401 c s (applyWaits t none n st) (.apply a.ari.nextApply) :=
  waits_of rfl h ((checked_of_none hc).trans ((unheld_of_free hheld).trans (by rw [ha]; exact if_neg hn)))

end

/-- A copy of one granule whose contribution is not set aside ends with the contribution's status. -/
theorem arithApply_one {u v : State} {r : Requester} {src dst op cls : Nat} {o : Option (Nat × Nat)} {g : List Byte × Bool} {d : List Byte}
    (hread : readGranules s r src 64 cls = (St.ok, [g], v))
    (hcon : contribute v r { dpa := dst, op := op, mask := BitVec.allOnes 32, operand := g.1, poison := g.2, order := o } cls = (st, d, u))
    (haside : u.ari.aside.length ≤ v.ari.aside.length) : arithApply s r src dst 64 op o cls = (st, 0, u) := by
  have hgranule : contribute v r (applyGranule dst op o 0 g) cls = (st, d, u) := hcon
  have hlate : decide (v.ari.aside.length < u.ari.aside.length) = false := decide_eq_false (Nat.not_lt.2 haside)
  unfold arithApply
  dsimp only
  rw [hread]
  dsimp only
  rw [if_neg (not_not.2 rfl), List.zipIdx_cons, List.zipIdx_nil, List.foldl_cons, List.foldl_nil, hgranule]
  dsimp only
  rw [hlate, if_pos rfl, if_neg Bool.false_ne_true]
  rfl

/-! ### ARITH_ORDER_OPEN (R171) -/

section
variable (h : Begun { op := 0x0402, need := 16 } c s a) (hmin : 0 < p32 c 8) (hmax : p32 c 8 ≤ 1073741824) (he : p16 c 14 ≠ 0)
  (hdpa : isDpa (p64 c 0) = true) (hop : arithKnown (p8 c 12) = true) (hal : p64 c 0 % 64 = 0) (hlen : p32 c 8 % 64 = 0)

include hmin hmax he hdpa hop hal hlen in
theorem orderOpen_checks : firstFail [ (p32 c 8 == 0 || decide (p32 c 8 > 2 ^ 30) || p16 c 14 == 0, St.invalidField),
    (!isDpa (p64 c 0), St.badAddress), (!arithKnown (p8 c 12) || p64 c 0 % 64 != 0 || p32 c 8 % 64 != 0, St.arithFormat) ] = none := by
  have hfields : (p32 c 8 == 0 || decide (p32 c 8 > 2 ^ 30) || p16 c 14 == 0) = false := by simp [he]; omega
  rw [firstFail_tail hfields, firstFail_tail (by rw [hdpa]; rfl), firstFail_tail (by simp [hop, hal, hlen])]
  rfl

include h hmin hmax he hdpa hop hal hlen

/-- The row ends as the opening of its context does. -/
theorem orderOpen_ends {i : Nat}
    (ho : openCtx a (cmdRq c) (p64 c 0) (p32 c 8) (p8 c 12) (p16 c 14) (bit (p8 c 13) 0) 0 = ((st, i), t)) :
    exec (.arithOrderOpen c) s = .next (complete t c st (if st = St.ok then [BitVec.ofNat 8 i] else [])) :=
  ends_of rfl h ((checked_of_none (orderOpen_checks hmin hmax he hdpa hop hal hlen)).trans (by rw [ho]))

theorem orderOpen_overlaps (hov : ctxOverlaps a (p64 c 0) (p32 c 8) = true) :
    exec (.arithOrderOpen c) s = .next (complete a c St.orderShape []) :=
  orderOpen_ends h hmin hmax he hdpa hop hal hlen (st := St.orderShape) (if_pos hov)

section
variable {i : Nat} (hov : ctxOverlaps a (p64 c 0) (p32 c 8) = false) (hi : freeCtx a = some i)
include hov hi

theorem orderOpen_opens (hz : bit (p8 c 13) 0 = false) : Completes (.arithOrderOpen c) c s
    (setCtx a i { dpa := p64 c 0, len := p32 c 8, op := p8 c 12, e := p16 c 14, coll := 0 }) [BitVec.ofNat 8 i] := by
  refine orderOpen_ends h hmin hmax he hdpa hop hal hlen (st := St.ok) ?_
  rw [openCtx, if_neg (ne_true_of_eq_false hov), hi]
  dsimp only
  rw [hz]
  rfl

theorem orderOpen_fills {v : State} (hz : bit (p8 c 13) 0 = true)
    (hw : writeBytes a (cmdRq c) (p64 c 0) (identityBytes (p8 c 12) (p32 c 8)) false 1 = (St.ok, v)) : Completes (.arithOrderOpen c) c s
    (setCtx v i { dpa := p64 c 0, len := p32 c 8, op := p8 c 12, e := p16 c 14, coll := 0 }) [BitVec.ofNat 8 i] := by
  refine orderOpen_ends h hmin hmax he hdpa hop hal hlen (st := St.ok) ?_
  rw [openCtx, if_neg (ne_true_of_eq_false hov), hi]
  dsimp only
  rw [hz, if_pos rfl, hw]
  rfl

end
end

/-! ### Commands that wait -/

/-- Where no command has begun, none waits. -/
theorem finishWait_idle {u : State} (hrun : u.ink.running = []) (w : Wait) (res : List Byte) : finishWait u w st res = u := by
  unfold finishWait
  dsimp only
  rw [hrun, List.filter_nil, List.filter_nil, List.foldl_nil, ← hrun]

/-! ### ARITH_ORDER_CLOSE (R175, R185) -/

section
variable (h : Begun { op := 0x0403, need := 2 } c s a)
include h

theorem orderClose_unknown (hx : mfind a.ari.ctxs (p8 c 0) = none) :
    exec (.arithOrderClose c) s = .next (complete a c St.orderRange []) :=
  ends_of rfl h (by dsimp only; rw [hx])

section
variable {x : OrderCtx} (hx : mfind a.ari.ctxs (p8 c 0) = some x)
include hx

theorem orderClose_complete (hc : ctxComplete x = true) : exec (.arithOrderClose c) s = .next
    (complete (dropCtx a (p8 c 0)) c x.refusal.toNat (leBytes 4 x.applied ++ leBytes 4 x.retries)) :=
  ends_of rfl h (by dsimp only; rw [hx]; exact if_pos hc)

variable (hc : ctxComplete x = false)
include hc

theorem orderClose_waits (hab : bit (p8 c 1) 0 = false) : Waits (.arithOrderClose c) 0x0403 c s a (.order (p8 c 0)) :=
  waits_of rfl h (by
    dsimp only
    rw [hx]
    exact (if_neg (ne_true_of_eq_false hc)).trans (if_neg (ne_true_of_eq_false hab)))

/-- With no command waiting for the context, ABORT closes it and ends nothing else. -/
theorem orderClose_aborts (hab : bit (p8 c 1) 0 = true) (hrun : a.ink.running = []) : exec (.arithOrderClose c) s = .next
    (complete (dropCtx a (p8 c 0)) c St.orderIncomplete (leBytes 4 x.applied ++ leBytes 4 x.retries)) :=
  ends_of rfl h (by
    dsimp only
    rw [hx]
    refine (if_neg (ne_true_of_eq_false hc)).trans ((if_pos hab).trans ?_)
    rw [finishWait_idle (u := dropCtx a (p8 c 0)) hrun])

end
end
end

/-- Settles O36: a copy by what arithApply answers, a context by whether it overlaps, is complete or is aborted. -/
theorem orderContextRows : Obligations.OrderContextRows := by
  unfold Obligations.OrderContextRows
  exact ⟨fun c s a t st h hc hheld ha => arithApply_ends h hc hheld ha,
    fun c s a t st n h hc hheld hn ha => arithApply_waits h hc hheld hn ha,
    fun s u v r src dst op cls st o g d hread hcon haside => arithApply_one hread hcon haside,
    fun c s a i h hmin hmax he hdpa hop hal hlen hov hi hz => orderOpen_opens h hmin hmax he hdpa hop hal hlen hov hi hz,
    fun c s a v i h hmin hmax he hdpa hop hal hlen hov hi hz hw => orderOpen_fills h hmin hmax he hdpa hop hal hlen hov hi hz hw,
    fun c s a h hmin hmax he hdpa hop hal hlen hov => orderOpen_overlaps h hmin hmax he hdpa hop hal hlen hov,
    fun c s a x h hx hc => orderClose_complete h hx hc, fun c s a x h hx hc hab => orderClose_waits h hx hc hab,
    fun c s a x h hx hc hab hrun => orderClose_aborts h hx hc hab hrun, fun c s a h hx => orderClose_unknown h hx⟩

end Sys2Proof.Machine
end
